-- ==== Sys2Proof/Word.lean ====
section
/-! DEFINITION. The word types of the block: bytes, register words and 64-bit counters. -/

namespace Sys2Proof

/-- A byte of memory, of a slot or of a frame. -/
abbrev Byte := BitVec 8

/-- A register of the block (15 R451), and an FP32 bit pattern (06 R146). -/
abbrev W32 := BitVec 32

/-- A 64-bit counter: tick numbers (02 R24), fence counters (04 R100). -/
abbrev W64 := BitVec 64

end Sys2Proof
end

