-- ==== Sys2Proof/Syntax.lean ====
section
/-! DEFINITION. The commands of the block: `Instr`, one constructor per row of spec/opcode_table.json, and the types of
their operands. What a party outside the registers decides (a read's data, a verdict, a measurement) is an operand. -/

namespace Sys2Proof

/-- Who accesses the registers of BAR0: the host or the management sideband (15 R453). -/
inductive Acc where
  | host | sideband
  deriving DecidableEq, Repr

/-- The causes of poison, coded 1 to 6 as 14 R441 states. -/
inductive PoisonCause where
  | w256 | ldpc | blockCheck | tileSeq | format | rowCheck
  deriving DecidableEq, Repr

/-- What disturbs a word of a tile in a read: the error pattern of the stored word, and those of its arrivals over a link, each over the
36 bytes of a W256 word (14 R415 to R417) (DESIGN CHOICE, log entry 9). -/
structure WordErr where
  word : Nat
  mem : List Byte
  link : List (List Byte)
  deriving DecidableEq, Repr

/-- What the hardware of a run observes (05 R522): a tile that it reads fails every attempt (14 R421); the row check of row
`row` of a row-tile object fails, and fails again or not (09 R265); the duplicate datapaths of the table engine differ (09
R267); a receiving tier computes another check than the producing engine (14 R420) (DESIGN CHOICE, log entry 9). -/
inductive RunFault where
  | badRead (h tile : Nat) (cause : PoisonCause)
  | rowCheck (h row : Nat) (again : Bool)
  | mismatch
  | production
  deriving DecidableEq, Repr

/-- Size and enables of a register access (15 R451). -/
inductive AccessSize where
  /-- 32 bits, naturally aligned, every byte enabled. -/
  | word
  /-- 64 bits, naturally aligned. -/
  | dword
  /-- Narrower than 32 bits, or with some byte enables clear. -/
  | narrow
  /-- Wider than 64 bits. -/
  | wide
  deriving DecidableEq, Repr

/-- A fault of the data path inside one check interval: the bit `bit` of the result of lane `lane` in row `row` of the
block is inverted (07 R190, 08 R233, 07 R197) (DESIGN CHOICE, log entry 9). -/
structure Glitch where
  row : Nat
  lane : Nat
  bit : Nat
  deriving DecidableEq, Repr

/-- A time message of PTP that the module uses, with times and corrections in ns (02 R48, R52; PRESUMED, log entry 61): a Sync
with its sequence number, its origin time if it is one-step, and the time of its receipt; a Follow_Up with the origin time; a
Delay_Resp with the time at which the request left and the time at which the source received it. -/
inductive PtpMsg where
  | sync (seq : Nat) (origin : Option Int) (receipt correction : Int)
  | followUp (seq : Nat) (origin correction : Int)
  | delayResp (seq : Nat) (sent received correction : Int)
  deriving DecidableEq, Repr

/-- What an Announce message of PTP tells of a master (02 R48; PRESUMED, log entry 61): the properties of its grandmaster, the steps
from it, and the clock that sent the message. -/
structure PtpMaster where
  prio1 : Nat
  cls : Nat
  accuracy : Nat
  variance : Nat
  prio2 : Nat
  identity : Nat
  steps : Nat
  sender : Nat
  deriving DecidableEq, Repr

/-- The executing node of a GFE command: the head of a channel or of a launch (04 R94). -/
inductive Node where
  | chan (c : Nat)
  | launch (l : Nat)
  deriving DecidableEq, Repr

/-- What a host line read returns (12 R390): 64 bytes, or an error of one of the four kinds of `CXL_RDERR_INFO`. -/
inductive HostLine where
  | data (bytes : List Byte)
  | unsupported | abort | timeout | poisoned
  deriving DecidableEq, Repr

/-- The result of a stress test or residency (14 R436, R439): pass, or the first failing pattern set and the number of
failing signatures. -/
inductive TestVerdict where
  | pass
  | fail (firstSet signatures : Nat)
  deriving DecidableEq, Repr

/-- A JFT frame as received, fields of 13 R400. `crcOk` says that the FCS and the header's CRC match and that every
reserved field is 0 (13 R401). `srcMac` is the sender's MAC address. -/
structure Frame where
  kind : Nat
  vl : Nat
  isNew : Bool
  reset : Bool
  msgType : Nat
  src : Nat
  dst : Nat
  psn : BitVec 32
  ackPsn : BitVec 32
  credit : BitVec 32
  msgId : BitVec 32
  frag : Nat
  nfrag : Nat
  deadline : Nat
  payload : List Byte
  crcOk : Bool
  deriving DecidableEq, Repr

/-- A firmware image, with the fields of its header and whether its signature verifies with its vendor key (16 R493). The manual
gives the header no layout, so the image is not bytes here (DESIGN CHOICE, log entry 9). -/
structure FwImage where
  version : Nat
  svn : Nat
  length : Nat
  vendorKey : List Byte
  sigOk : Bool
  deriving DecidableEq, Repr

/-- What power-on finds outside the registers (16 R486): the partition contents, the retirement record's scan verdicts,
training results, measurements (DESIGN CHOICE, log entry 9). -/
structure BootInputs where
  /-- Step 1: both ramps of the rails fail. -/
  railsFail : Bool
  /-- Step 2: the hash of the vendor root public key in mask ROM (32 bytes). -/
  romHash : List Byte
  /-- Step 3: channel 0 of the cellar is mapped out. -/
  cellarFail : Bool
  /-- Step 4: the bytes of the configuration image in its partition, if they can be read. -/
  cfg : Option (List Byte)
  /-- Step 5: the SHA-256 of the derived public key (32 bytes), and whether it matches the device certificate. -/
  devHash : List Byte
  idOk : Bool
  /-- Step 6: the firmware image in its partition, if one can be read. -/
  fw : Option FwImage
  /-- Step 7: the targets whose training fails, numbered as 10 R329 numbers them. -/
  trainFail : List Nat
  /-- Step 7: the connections that spares replace, for each attic pseudo-channel where any does. -/
  spares : List (Nat × Nat)
  /-- Step 8: the scan-pattern partition fails verification. -/
  scanBad : Bool
  /-- Step 9: the counts of the process monitors, one per physical slot. -/
  procCounts : List Nat
  /-- Step 10: the slots whose boot scan fails, and whether the fault-log merge fails. -/
  scanFails : List Nat
  mergeFail : Bool
  /-- Step 11: the measured idle power in mW. -/
  idleMw : Nat
  deriving DecidableEq, Repr

/-- How an update ends: the codes 2 to 7 of `SEC_UPD_STATE` (16 R494, R495), with the image that has been
copied (DESIGN CHOICE, log entry 9). -/
inductive UpdateResult where
  | doneFw (img : FwImage)
  | doneCfg (img : List Byte)
  | badSignature | rollback | inhibited | writeFailed | noSpace
  deriving DecidableEq, Repr

/-- A read that the module has sent to the host link: a ring read, a line of a `HOST_READ`, or a flush read. -/
inductive HostReadId where
  | ring (chan : Nat)
  | line (clu addr : Nat)
  | flush (chan : Nat)
  deriving DecidableEq, Repr

/-- What removes the mask of a vector (12 R372). -/
inductive Unmask where
  | vector (v : Nat) (masked : Bool)
  | msixEnable (on : Bool)
  | busMaster (on : Bool)
  deriving DecidableEq, Repr

/-- The transport of an SPDM request: DOE on the host link or MCTP on the sideband (16 R497). -/
inductive SpdmPath where
  | doe | mctp
  deriving DecidableEq, Repr

/-- The commands of the block: one constructor per row of the table of operations and events (95), in its order. -/
inductive Instr where
  /-- `TICK_EDGE` (R43). The tick timer expires: the tick number advances, staged boundary results become visible, rotation ranks advance and admission opens. -/
  | tickEdge
  /-- `GUARD_BAND_BEGIN` (R43). Cycle G is reached: admission closes and the boundary work of the tick runs in order. -/
  | guardBandBegin
  /-- `HOST_COMMIT_CUTOFF` (R39). At G − 4,096, host-writing commands still in device work are killed with ST_OVERRUN. -/
  | hostCommitCutoff
  /-- `PTP_OFFSET_SAMPLE` (R52). A Sync or Delay_Resp message yields an offset sample that is filtered and range-checked. -/
  | ptpOffsetSample (port : Nat) (msg : PtpMsg)
  /-- `PTP_ANNOUNCE` (R52). An Announce message is run through the best master clock algorithm on the configured domain. -/
  | ptpAnnounce (port domain : Nat) (master : PtpMaster)
  /-- `PTP_SAMPLE_TIMEOUT` (R52). Four seconds without a valid sample move LOCKED to HOLDOVER or ACQUIRING to FREE. -/
  | ptpSampleTimeout
  /-- `DISPATCH_ADMIT` (R121). The dispatcher admits one ready head per partition to the lowest-numbered cluster that fits. -/
  | dispatchAdmit (part : Nat)
  /-- `COMMAND_START` (R34). A cluster starts its next admitted command after the start check, or defers it. -/
  | commandStart (clu : Nat)
  /-- `COMMAND_FLIP` (R124). A command's device work ends: shadow tiles become homes, remote frames are released and counters updated. -/
  | commandFlip (clu : Nat)
  /-- `COMMIT_PHASE_BEGIN` (R125). A host-writing command ends device work, releases its posted writes and later issues its flush read. -/
  | commitPhaseBegin (clu : Nat)
  /-- `FLUSH_READ_RETURN` (R110). A flush read returns, confirming posted writes and records and letting the command end. -/
  | flushReadReturn (chan : Nat) (ok : Bool)
  /-- `ARRAY_BLOCK_COMPARE` (R190). A drained 512 × 64 block's row sums are compared with the check column. -/
  | arrayBlockCompare (clu : Nat) (glitch : Option Glitch)
  /-- `SKINK_GROUP_COMPARE` (R523). A skink output group of 64 is drained and checked by the check lane. -/
  | skinkGroupCompare (clu : Nat) (glitch : Option Glitch)
  /-- `SUMMARY_COMPARE` (R233). In the last cycle of a pass the duplicate summary reducers are compared. -/
  | summaryCompare (clu : Nat) (glitch : Option Glitch)
  /-- `RUN_FINDS_CONDITION` (R522). A run reading a POISONED tile or a scale-sequence mismatch stops and ends with ST_POISONED or ST_SCALE_SKEW. -/
  | runFindsCondition (clu : Nat) (found : Option RunFault)
  /-- `REPEAT_PAIR_COMPARE` (R428). At the end of the later repeat run the runs are compared, one flips or the command ends ST_CHECK_MISMATCH. -/
  | repeatPairCompare (cmd : Nat)
  /-- `FAULT_COUNT_AGE` (R429). Fault-count contributions older than 24 h drop out of a cluster's fault count. -/
  | faultCountAge (slot : Nat)
  /-- `CREATE` (R58). GFE_CHAN_CMD CREATE takes a DESTROYED channel to CREATED with a new generation. -/
  | create (a : Acc) (gen : BitVec 20)
  /-- `ACTIVATE` (R58). GFE_CHAN_CMD ACTIVATE takes a CREATED channel to ACTIVE and reading begins. -/
  | activate (a : Acc) (gen : BitVec 20)
  /-- `PAUSE` (R58). GFE_CHAN_CMD PAUSE stops reading and admission of an ACTIVE channel. -/
  | pause (a : Acc) (gen : BitVec 20)
  /-- `RESUME` (R58). GFE_CHAN_CMD RESUME returns a PAUSED channel to ACTIVE, rewriting stored records after a reattach. -/
  | resume (a : Acc) (gen : BitVec 20)
  /-- `DESTROY` (R58). GFE_CHAN_CMD DESTROY takes a channel to DRAINING or DESTROYED. -/
  | destroy (a : Acc) (gen : BitVec 20)
  /-- `REATTACH` (R58). GFE_CHAN_CMD REATTACH with the matching generation takes an ORPHANED channel to PAUSED, cause reattach. -/
  | reattach (a : Acc) (gen : BitVec 20)
  /-- `DOORBELL` (R61). A doorbell write sets the channel tail and starts ring reads, or resumes a stale-paused channel. -/
  | doorbell (chan : Nat) (tail : BitVec 32)
  /-- `RING_READ_RETURN` (R64). A ring slot read returns and is checked for SEQ, CRC and XCRC, and accepted or scheduled for re-read. -/
  | ringReadReturn (chan : Nat) (slot ext : List Byte)
  /-- `RING_REREAD_ISSUE` (R64). A re-read of a failed slot is issued at a multiple of 260 cycles. -/
  | ringRereadIssue (chan : Nat)
  /-- `DOORBELL_STALE` (R64). The re-read window ends without a passing read: the channel pauses with cause stale and a record is written. -/
  | doorbellStale (chan : Nat)
  /-- `CQ_HEAD` (R112). A write of consumed records to CQ_HEAD frees queue space and releases held records. -/
  | cqHead (chan : Nat) (count : BitVec 32)
  /-- `NOP` (R92). NOP ends with ST_OK after 32 front-end cycles, serving as an ordering point. -/
  | nop (n : Node)
  /-- `TIMESTAMP` (R91). TIMESTAMP records the tick and stamp of its execution, optionally into an object. -/
  | timestamp (n : Node)
  /-- `TEST_ON_DEMAND` (R438). TEST_ON_DEMAND starts draining a unit for a test. -/
  | testOnDemand (n : Node)
  /-- `TEST_DRAIN_COMPLETE` (R438). The drain of a unit under test completes and its test begins. -/
  | testDrainComplete
  /-- `TEST_DRAIN_TIMEOUT` (R438). DRAIN_TICKS expire and the test ends with ST_NO_RESOURCE code 0x0401. -/
  | testDrainTimeout
  /-- `TEST_DONE` (R439). A unit test finishes, the command ends ST_OK and a failure is recorded or the cluster retired. -/
  | testDone (verdict : TestVerdict)
  /-- `FENCE_SIGNAL` (R102). FENCE_SIGNAL adds to or maximises a fence counter after earlier commands end. -/
  | fenceSignal (n : Node)
  /-- `FENCE_WAIT` (R104). FENCE_WAIT executes at the head and waits for the counter, testing for a wait-for cycle. -/
  | fenceWait (n : Node)
  /-- `FENCE_TIMEOUT` (R106). A wait still unsatisfied at the edge beginning tick t + T ends with ST_FENCE_TIMEOUT. -/
  | fenceTimeout (n : Node)
  /-- `HOST_FENCE` (R114). HOST_FENCE waits for earlier commands and writers, then drains write buffers and map cache. -/
  | hostFence (n : Node)
  /-- `LAUNCH_LIST` (R82). LAUNCH_LIST starts fetching a stored list and issuing its commands. -/
  | launchList (n : Node)
  /-- `LIST_POSITION_FETCH` (R83). A list tile fetch returns and its slots are checked, making commands available. -/
  | listPositionFetch (launch : Nat) (bad : Option (Nat × PoisonCause))
  /-- `LIST_SLOT_ISSUE` (R80). The next command of a launch is issued, or a conditional slot executes or is skipped. -/
  | listSlotIssue (launch : Nat)
  /-- `PATCH_LIST` (R86). PATCH_LIST checks a patch and holds it pending for a guard band. -/
  | patchList (n : Node)
  /-- `OBJ_CREATE` (R316). OBJ_CREATE reserves frames and zero-fills the tiles of a new object. -/
  | objCreate (n : Node)
  /-- `OBJ_FREE` (R318). OBJ_FREE unnames the handle, abandons moves and frees frames as readers end. -/
  | objFree (n : Node)
  /-- `MOVE` (R321). MOVE reserves destination frames and moves an object's tiles to a target tier. -/
  | move (n : Node)
  /-- `CLONE` (R323). CLONE copies an object's tiles into a new object that becomes HOME at its end. -/
  | clone (n : Node)
  /-- `GEMM` (R201). GEMM computes C = A × B on the array or the skink. -/
  | gemm (clu : Nat)
  /-- `MATVEC` (R523). MATVEC computes up to eight rows against a weight matrix on the skink. -/
  | matvec (clu : Nat)
  /-- `VCHAIN` (R237). VCHAIN runs a chain of up to eight stages over strided tensors with summaries. -/
  | vchain (clu : Nat)
  /-- `GATHER_POOL` (R264). GATHER_POOL pools resolved table rows into bag outputs. -/
  | gatherPool (clu : Nat)
  /-- `SCATTER_UPDATE` (R276). SCATTER_UPDATE writes updated rows and state into pool slots. -/
  | scatterUpdate (clu : Nat)
  /-- `STREAM_ARM` (R349). STREAM_ARM arms a stream descriptor at its flip. -/
  | streamArm (clu : Nat)
  /-- `STREAM_REARM` (R353). STREAM_REARM queues a next range or disarms a descriptor at its flip. -/
  | streamRearm (clu : Nat)
  /-- `HOST_WRITE` (R385). HOST_WRITE stages device bytes and releases them as posted writes to host memory. -/
  | hostWrite (clu : Nat)
  /-- `HOST_READ` (R390). HOST_READ reads host lines into shadow tiles of a device object. -/
  | hostRead (clu : Nat)
  /-- `HOST_READ_LINE_RETURN` (R390). A host line returns to a HOST_READ, or an error completion ends it with ST_RANGE. -/
  | hostReadLineReturn (clu : Nat) (addr : Nat) (line : HostLine)
  /-- `SCALE_SET` (R178). SCALE_SET stages scale, configuration or history changes for slots. -/
  | scaleSet (n : Node)
  /-- `RESOLUTION_BEGIN` (R253). A table command or SELECT MATVEC reads, checks and maps its indices and queues fetches and remote gathers. -/
  | resolutionBegin (cmd : Nat)
  /-- `REMOTE_GATHER_TIMEOUT` (R258). Remote partials missing after the timeout end the gather with ST_REMOTE_FAIL. -/
  | remoteGatherTimeout (cmd : Nat)
  /-- `FOLD` (R280). The placement cores issue a fold that writes pool rows back to their home tiles. -/
  | fold (table : Nat)
  /-- `CELLAR_READ_LAND` (R290). A cellar read lands in the attic, or fails after the read-retry ladder, and returns its queue slot. -/
  | cellarReadLand (h tile : Nat) (bad : Option PoisonCause)
  /-- `CELLAR_PROGRAM_COMPLETE` (R290). A cellar program or erase completes and returns its queue slot. -/
  | cellarProgramComplete (h tile : Nat)
  /-- `TILE_MOVE_COMMIT` (R300). The last byte of a tile move is accepted and the object map names the new frame. -/
  | tileMoveCommit (h tile : Nat) (bad : Option PoisonCause)
  /-- `HEAT_SCAN` (R309). At a decay edge counters are halved and background promotions and demotions are issued. -/
  | heatScan
  /-- `SCRUB_READ` (R424). A periodic scrub reads a frame, correcting, poisoning or retiring as needed. -/
  | scrubRead (frame : Nat) (errs again : List WordErr)
  /-- `ATTIC_REFRESH` (R325). The refresh interval of a pseudo-channel expires and it is refreshed for 228 cycles. -/
  | atticRefresh (pc : Nat)
  /-- `STACK_TEMP_REPORT` (R326). A stack's die temperature report is filtered and sets its refresh and grant steps. -/
  | stackTempReport (stack : Nat) (quarters : Int)
  /-- `STACK_TEMP_TIMEOUT` (R326). Ten ms without a valid report make the stack count as 94.0 °C. -/
  | stackTempTimeout (stack : Nat)
  /-- `MEM_TGT_SERVE` (R330). A write of MEM_TGT_CTRL.SERVE starts evacuation of a target or returns it to service. -/
  | memTgtServe (a : Acc) (serve : Bool)
  /-- `MARGIN_START` (R330). MEM_MARGIN_CTRL.START runs the pattern on the evacuated target. -/
  | marginStart (a : Acc)
  /-- `MARGIN_DONE` (R330). The margining pattern run finishes and reports its errors. -/
  | marginDone (errors : Nat)
  /-- `STREAM_TRANSFER_ISSUE` (R336). The stream engine issues a transfer of the eligible descriptor with the earliest run-dry time. -/
  | streamTransferIssue (clu : Nat)
  /-- `STREAM_TRANSFER_COMPLETE` (R342). A transfer's results are written and its credit returns. -/
  | streamTransferComplete (clu : Nat) (bad : Option PoisonCause) (prod : Bool)
  /-- `STR_CTRL_DISARM` (R346). A write of STR_CTRL.DISARM takes the selected descriptor to DISARMING. -/
  | strCtrlDisarm (a : Acc) (clu : Nat)
  /-- `GFE_FENCE_RESET` (R100). GFE_FENCE_CMD RESET zeroes a fence and advances its generation. -/
  | gfeFenceReset (a : Acc) (gen : BitVec 20)
  /-- `GFE_FENCE_ADD` (R107). A host write adds to the selected fence counter. -/
  | gfeFenceAdd (a : Acc) (add : BitVec 32)
  /-- `ACCT_SNAP` (R143). GFE_ACCT_SEL.SNAP latches a channel's accounting record. -/
  | acctSnap (a : Acc) (chan : Nat) (compat : Bool)
  /-- `GFE_SCALE_CLEAR_HIST` (R179). GFE_SCALE_CTRL.CLEAR_HIST empties the selected slot's history at the next edge. -/
  | gfeScaleClearHist (a : Acc)
  /-- `FOLD_NOW` (R279). TBL_FOLD_CTRL.FOLD_NOW requests folds of every foldable entry of a table. -/
  | foldNow (a : Acc)
  /-- `CXL_APT_VALID` (R365). A write of CXL_APT_CTRL.VALID binds or unbinds an aperture slot. -/
  | cxlAptValid (a : Acc) (valid : Bool)
  /-- `INT_CLU_RETIRE` (R432). INT_CLU_CTRL OP RETIRE retires the selected slot. -/
  | intCluRetire (a : Acc)
  /-- `INT_CLU_SUSPECT` (R432). INT_CLU_CTRL OP SUSPECT makes the selected slot SUSPECT. -/
  | intCluSuspect (a : Acc)
  /-- `INT_LOG_SNAP` (R445). INT_LOG_SEL.SNAP latches a fault-log record into the data registers. -/
  | intLogSnap (a : Acc) (index : Nat)
  /-- `SEC_UPD_FIRMWARE` (R494). SEC_UPD_CTRL OP 1 starts an in-service firmware update. -/
  | secUpdFirmware (a : Acc)
  /-- `SEC_UPD_CONFIG` (R495). SEC_UPD_CTRL OP 2 starts a configuration image update. -/
  | secUpdConfig (a : Acc)
  /-- `UPDATE_COMPLETE` (R494). An update finishes in DONE or a failure state. -/
  | updateComplete (r : UpdateResult)
  /-- `SEC_RESET` (R499). A write of KEY 0xA5 with WARM starts a warm reset. -/
  | secReset (a : Acc) (key : BitVec 8) (warm : Bool)
  /-- `SEC_REC_BEGIN` (R489). SEC_REC_CTRL.BEGIN starts loading a recovery image. -/
  | secRecBegin (a : Acc) (config : Bool)
  /-- `SEC_REC_DATA` (R489). A recovery image word is appended. -/
  | secRecData (a : Acc) (word : BitVec 32)
  /-- `SEC_REC_END` (R489). SEC_REC_CTRL.END verifies and installs the loaded image and continues power-on. `fw` is the firmware image
that the loaded words make, if they make one. -/
  | secRecEnd (a : Acc) (fw : Option FwImage)
  /-- `STATUS_CLEAR` (R463). A normal or clear-alias write to a status register clears bits when SEQ matches. -/
  | statusClear (a : Acc) (off : Nat) (data : BitVec 32)
  /-- `STATUS_SET_INJECT` (R464). A set-alias write to a status register injects event bits. -/
  | statusSetInject (a : Acc) (off : Nat) (data : BitVec 32)
  /-- `STATUS_TOGGLE` (R465). A toggle-alias write to a status register is ignored with WRITE_IGNORED. -/
  | statusToggle (a : Acc) (off : Nat) (data : BitVec 32)
  /-- `REGISTER_WRITE` (R455). A write to a register without its own row takes effect under its alias and effect class. -/
  | registerWrite (a : Acc) (off : Nat) (data : BitVec 64) (size : AccessSize)
  /-- `MEM_RD` (R359). A CXL.mem read is served from the aperture or a raw window. -/
  | memRd (dpa len : Nat) (bad : Option PoisonCause)
  /-- `MEM_WR` (R367). A CXL.mem write goes in place to a tile home or raw frame and is answered with Cmp. -/
  | memWr (dpa : Nat) (bytes : List Byte)
  /-- `MEM_INV` (R359). MemInv or MemInvNT is answered with Cmp without changing data. -/
  | memInv (dpa : Nat)
  /-- `MEM_SPEC_RD` (R359). MemSpecRd is accepted and dropped. -/
  | memSpecRd (dpa : Nat)
  /-- `SNOOP` (R358). A host snoop is answered with RspIHitI. -/
  | snoop (addr : Nat)
  /-- `DVSEC_CACHE_ENABLE` (R360). A change of DVSEC Cache_Enable stops or resumes ring reads and HOST_READ. -/
  | dvsecCacheEnable (on : Bool)
  /-- `PERST_ASSERT` (R377). PERST# asserted orphans HOST channels, discards host traffic and takes the link DOWN. -/
  | perstAssert
  /-- `PERST_DEASSERT` (R373). PERST# deasserted after power-good starts link training. -/
  | perstDeassert
  /-- `LINK_L0_REACHED` (R373). Training reaches L0 and the link is UP, possibly degraded. -/
  | linkL0Reached (width gts : Nat)
  /-- `LINK_RECOVERY_ENTER` (R373). The LTSSM enters Recovery. -/
  | linkRecoveryEnter
  /-- `LINK_RECOVERY_EXIT` (R373). L0 is regained after Recovery and DEGRADED is recomputed. -/
  | linkRecoveryExit (width gts : Nat)
  /-- `DL_DOWN` (R377). Link loss orphans HOST channels and discards in-flight host traffic. -/
  | dlDown
  /-- `HOT_RESET` (R377). A received hot reset has the effects of a link loss. -/
  | hotReset
  /-- `FLR` (R377). A function-level reset orphans HOST channels and resets function state. -/
  | flr
  /-- `D3HOT_ENTRY` (R376). Entry to D3hot has the effects of an FLR. -/
  | d3hotEntry
  /-- `D0_RETURN` (R376). Return to D0 acts as an FLR. -/
  | d0Return
  /-- `ORPHAN_TIMEOUT` (R381). A channel ORPHANED for TIMEOUT_S seconds is destroyed at the next edge. -/
  | orphanTimeout (chan : Nat)
  /-- `REFCLK_LOSS` (R508). A missing or out-of-range reference clock is taken as DL_Down. -/
  | refclkLoss
  /-- `CLK10M_QUALIFIED` (R509). A qualified 10 MHz input becomes the clock reference, slewed hitlessly. -/
  | clk10mQualified
  /-- `CLK10M_LOSS` (R509). Loss or out-of-range 10 MHz input switches back to the own oscillator. -/
  | clk10mLoss
  /-- `PORT_ENABLE` (R397). FAB_PORT_CFG.EN written 1 starts port training. -/
  | portEnable (port : Nat)
  /-- `PORT_DISABLE` (R397). FAB_PORT_CFG.EN written 0 disables the port. -/
  | portDisable (port : Nat)
  /-- `PORT_TRAINING_COMPLETE` (R397). Negotiation, training, FEC lock and alignment complete and the port is UP. -/
  | portTrainingComplete (port : Nat)
  /-- `PORT_TRAINING_TIMEOUT` (R397). Training not done in 500 ms restarts. -/
  | portTrainingTimeout (port : Nat)
  /-- `PORT_FAULT` (R397). A port fault persisting 10 µs puts the port in HOLDDOWN and moves flows. -/
  | portFault (port : Nat)
  /-- `HOLDDOWN_EXPIRY` (R397). After 100 ms in HOLDDOWN the port retrains. -/
  | holddownExpiry (port : Nat)
  /-- `DISCOVER_SEND` (R399). A DISCOVER broadcast is sent on each UP port when it comes UP and every second. -/
  | discoverSend (port : Nat)
  /-- `DISCOVER` (R399). A received DISCOVER is answered with a DISCOVER_REPLY. -/
  | discover (port : Nat) (f : Frame)
  /-- `DISCOVER_REPLY` (R399). A DISCOVER_REPLY updates the route mask or flags an ID conflict. -/
  | discoverReply (port : Nat) (mac : Nat) (f : Frame)
  /-- `ROUTE_PLANE_EXPIRY` (R401). A plane without a reply for 3 s leaves the route mask. -/
  | routePlaneExpiry (dst plane : Nat)
  /-- `DATA` (R404). A DATA frame is checked and accepted in PSN order, discarded as duplicate, or NAKed. -/
  | data (port : Nat) (f : Frame)
  /-- `ACK` (R404). An ACK frame advances the acknowledged PSN and credit of a flow. -/
  | ack (port : Nat) (f : Frame)
  /-- `NAK` (R404). A NAK triggers go-back-N retransmission, or a peer restart when RESET is set. -/
  | nak (port : Nat) (f : Frame)
  /-- `ACK_DUE` (R404). Two µs after acceptance an ACK frame is sent if no reverse DATA frame carried the acknowledgement. -/
  | ackDue (peer vl : Nat)
  /-- `RETX_TIMER_EXPIRY` (R404). The retransmission timer expires and the flow is retransmitted or its peer declared failed. -/
  | retxTimerExpiry (peer vl : Nat)
  /-- `PEER_FAILED_EXPIRY` (R406). After 100 ms a FAILED peer's entries may be created afresh. -/
  | peerFailedExpiry (peer : Nat)
  /-- `REASSEMBLY_TIMEOUT` (R401). A message incomplete 10 ms after its first frame is discarded. -/
  | reassemblyTimeout (peer vl msgId : Nat)
  /-- `REQUEST` (R410). A REQUEST message delivers slots to a FABRIC channel. -/
  | request (peer vl : Nat)
  /-- `RESPONSE` (R408). A RESPONSE message delivers completion records or result bytes to the requester. -/
  | response (peer vl : Nat)
  /-- `GATHER` (R411). A GATHER message is served as a GATHER_POOL on the gather channel. -/
  | gather (peer vl : Nat)
  /-- `PARTIALS` (R408). A PARTIALS message delivers pooled partials to a resolving gather. -/
  | partials (peer vl : Nat)
  /-- `UPDATE` (R412). An UPDATE message is served as a SCATTER_UPDATE on the update channel. -/
  | update (peer vl : Nat)
  /-- `UPDATE_ACK` (R412). An UPDATE_ACK acknowledges a remote update frame. -/
  | updateAck (peer vl : Nat)
  /-- `REFUSE` (R413). A REFUSE ends the waiting command with ST_REMOTE_FAIL. -/
  | refuse (peer vl : Nat)
  /-- `RESIDENCY_START` (R434). The rotation interval expires and the next cluster enters TEST_RESIDENCY. -/
  | residencyStart
  /-- `RESIDENCY_ABANDON` (R435). Evacuation not finished within 64 ticks abandons the residency. -/
  | residencyAbandon
  /-- `RESIDENCY_VERDICT` (R436). At residency tick N the verdict returns the cluster to SERVING or retires it. -/
  | residencyVerdict (verdict : TestVerdict)
  /-- `FAULT_LOG_RECORD_WRITE` (R442). A buffered fault-log record is written to the cellar, or dropped when the buffer is full. -/
  | faultLogRecordWrite
  /-- `INPUT_METER_SAMPLE` (R471). A 48 V meter sample is filtered and sets inhibit, throttle or stop. -/
  | inputMeterSample (mv tenMa : Int)
  /-- `METER_TIMEOUT` (R470). Missing meter samples set the input to 42.9 V, and after 10 ms cause a controlled stop. -/
  | meterTimeout (tenMs : Bool)
  /-- `TEMP_SENSOR_SAMPLE` (R478). A temperature sample is filtered and sets thermal factor, cluster holds or stop. -/
  | tempSensorSample (sensor : Nat) (quarters : Int)
  /-- `TEMP_SENSOR_TIMEOUT` (R470). A sensor without valid samples for 1 ms counts as 101.5 °C. -/
  | tempSensorTimeout (sensor : Nat)
  /-- `VOLTAGE_MONITOR_SAMPLE` (R479). A rail sample is filtered and compared with its nominal value. -/
  | voltageMonitorSample (monitor : Nat) (mv : Int)
  /-- `VOLTAGE_MONITOR_TIMEOUT` (R470). A rail without valid samples for 1 ms counts as outside ±5%. -/
  | voltageMonitorTimeout (monitor : Nat)
  /-- `PROCESS_MONITOR_SAMPLE` (R470). A ring-oscillator sample is filtered for observation. -/
  | processMonitorSample (slot count : Nat)
  /-- `PROCESS_MONITOR_TIMEOUT` (R470). Ten s without a valid process sample leave the trim as it stands. -/
  | processMonitorTimeout (slot : Nat)
  /-- `RAILS_OFF` (R475). At cycle 3,250,000 of a controlled stop power-good falls and rails switch off. -/
  | railsOff
  /-- `POWER_ON` (R486). The input above 44.5 V for 10 ms starts the power-on boot sequence. -/
  | powerOn (b : BootInputs)
  /-- `WATCHDOG_EXPIRY` (R499). A control core missing its watchdog for 100 ms starts a warm reset. -/
  | watchdogExpiry
  /-- `WARM_RESET_END` (R500). A warm reset finishes and the module resumes. -/
  | warmResetEnd (fw : Option FwImage)
  /-- `DYNAMIC_ADDRESS_ASSIGN` (R511). SETDASA or ENTDAA assigns the sideband its dynamic address. -/
  | dynamicAddressAssign (addr : BitVec 7)
  /-- `I3C_BUS_RESET` (R508). SCL held low 50 ms resets the I3C target logic. -/
  | i3cBusReset
  /-- `MCTP_MESSAGE_TIMEOUT` (R508). An MCTP message incomplete after 100 ms is discarded. -/
  | mctpMessageTimeout
  /-- `SET_ENDPOINT_ID` (R512). MCTP Set Endpoint ID sets the endpoint ID. -/
  | setEndpointId (eid : BitVec 8)
  /-- `GET_ENDPOINT_ID` (R512). MCTP Get Endpoint ID returns the endpoint ID. -/
  | getEndpointId
  /-- `GET_MCTP_VERSION_SUPPORT` (R512). MCTP Get Version Support returns supported versions. -/
  | getMctpVersionSupport (msgType : BitVec 8)
  /-- `GET_MESSAGE_TYPE_SUPPORT` (R512). MCTP Get Message Type Support returns types 0x05 and 0x7F. -/
  | getMessageTypeSupport
  /-- `GET_ENDPOINT_UUID` (R512). MCTP Get Endpoint UUID returns the UUID derived from the device ID. -/
  | getEndpointUuid
  /-- `GET_VERSION` (R497). SPDM GET_VERSION returns the supported version. -/
  | getVersion (path : SpdmPath)
  /-- `GET_CAPABILITIES` (R497). SPDM GET_CAPABILITIES returns CERT, CHAL and MEAS capabilities. -/
  | getCapabilities (path : SpdmPath)
  /-- `NEGOTIATE_ALGORITHMS` (R497). SPDM NEGOTIATE_ALGORITHMS selects P-256 and SHA-256. -/
  | negotiateAlgorithms (path : SpdmPath) (p256 sha256 : Bool)
  /-- `GET_DIGESTS` (R497). SPDM GET_DIGESTS returns certificate chain digests. -/
  | getDigests (path : SpdmPath)
  /-- `GET_CERTIFICATE` (R497). SPDM GET_CERTIFICATE returns the slot-0 chain. -/
  | getCertificate (path : SpdmPath) (slot offset length : Nat)
  /-- `CHALLENGE` (R497). SPDM CHALLENGE is answered with a signature by the identity key, or ERROR. -/
  | challenge (path : SpdmPath) (slot : Nat) (nonce : List Byte)
  /-- `GET_MEASUREMENTS` (R498). SPDM GET_MEASUREMENTS returns the power-on measurements. -/
  | getMeasurements (path : SpdmPath) (index : Nat) (sign : Bool) (nonce : List Byte)
  /-- `GET_IDENTITY` (R514). Sideband GET_IDENTITY returns ordering code, serial, IDs and versions. -/
  | getIdentity (inst : Byte) (req : List Byte)
  /-- `GET_STATUS` (R514). Sideband GET_STATUS returns power, thermal, link, cluster and memory status. -/
  | getStatus (inst : Byte) (req : List Byte)
  /-- `READ_SENSOR` (R514). Sideband READ_SENSOR returns a filtered sensor value. -/
  | readSensor (inst : Byte) (req : List Byte)
  /-- `READ_REG` (R515). Sideband READ_REG performs a 32-bit BAR0 read. -/
  | readReg (inst : Byte) (req : List Byte)
  /-- `WRITE_REG` (R515). Sideband WRITE_REG performs a 32-bit BAR0 write under the register rules. -/
  | writeReg (inst : Byte) (req : List Byte)
  /-- `READ_LOG` (R514). Sideband READ_LOG returns fault-log records newest first. -/
  | readLog (inst : Byte) (req : List Byte)
  /-- `READ_RETIRE` (R514). Sideband READ_RETIRE returns retirement table entries. -/
  | readRetire (inst : Byte) (req : List Byte)
  /-- `ERASE_RETIRE` (R516). Sideband ERASE_RETIRE starts a background erase of the retirement table. -/
  | eraseRetire (inst : Byte) (req : List Byte)
  /-- `ERASE_COMPLETE` (R516). The retirement-table erase completes or fails. -/
  | eraseComplete (ok : Bool)
  /-- `WARM_RESET` (R514). Sideband WARM_RESET with key 0xA5 starts a warm reset. -/
  | warmReset (inst : Byte) (req : List Byte)
  /-- `ANNOUNCE_RECEIPT_TIMEOUT` (R52). The standard's announce receipt timeout expires for the selected time source and the best master clock algorithm drops it. -/
  | announceReceiptTimeout
  /-- `DELAY_REQ_SEND` (R48). The receive-only clock sends a Delay_Req on a port in PORT_MASK at the standard's request interval, which brings the Delay_Resp that yields offset samples. -/
  | delayReqSend (port : Nat)
  /-- `COMPLETION_TIMEOUT` (R390). The host link's completion timeout expires on a flush read or a HOST_READ line read, which ends the command with ST_HOST_LOST or ST_RANGE. -/
  | completionTimeout (read : HostReadId)
  /-- `REFCLK_RESTORED` (R508). REFCLK has been in range for 10 ms after a loss and link training resumes. -/
  | refclkRestored
  /-- `MEM_ENABLE` (R360). A change of DVSEC Mem_Enable, or the commit of the HDM decoder, starts or stops the module completing CXL.mem requests. -/
  | memEnable (on : Bool) (decoder : Option Nat)
  /-- `VECTOR_UNMASK` (R372). Unmasking an MSI-X vector, or setting MSI-X Enable or Bus Master Enable, sends one message for each pending vector. -/
  | vectorUnmask (what : Unmask)
  /-- `ZERO_FILL_COMPLETE` (R316). The last zero tile of an OBJ_CREATE is written, its shadow frames become HOME, the handle becomes usable and the command ends. -/
  | zeroFillComplete (h : Nat)
  /-- `CLONE_COPY_COMPLETE` (R323). The last tile copy of a CLONE is written, all its shadow frames become HOME in one cycle and the command ends. -/
  | cloneCopyComplete (h : Nat) (bad : Option (Nat × Nat × PoisonCause))
  /-- `POSTED_WRITE_DRAIN` (R385). A posted write leaves the host link, its posted-write buffer space is freed and a HOST_WRITE waiting for room may proceed. -/
  | postedWriteDrain
  /-- `LO_READ` (R453). A read of a LO register, or of CLU_FRAMES0, latches the matching HI or CLU_FRAMES1 value for the accessor. -/
  | loRead (a : Acc) (off : Nat)
  /-- `LANE_MARGINING` (R375). The host requests receiver lane margining on one lane and the receiver runs it and reports errors without interrupting traffic. -/
  | laneMargining (lane : Nat) (timing : Bool) (step : Int) (errors : Nat)
  /-- `FRAME_DISCARD` (R401). A received fabric frame that fails FCS, EtherType or header checks, or a PAUSE or PFC frame, is discarded and counted in DISCARDS. -/
  | frameDiscard (port : Nat)
  deriving DecidableEq, Repr

end Sys2Proof
end

