-- ==== Sys2Proof/Decode.lean ====
section
/-! DEFINITION. Reading a command from a word of the table's bits. The table gives no row any bits (95,
opcode_table.json: every row's "fields" is empty), so no word spells a command. -/

namespace Sys2Proof

/-- The command that a word of `nbits` bits spells by the table's bits: none, for the table gives no row bits
(DESIGN CHOICE, log entry 59). -/
def decodeTableWord (_nbits _w : Nat) : Option Instr := none

end Sys2Proof
end

