-- ==== Sys2Proof/Machine/Bits.lean ====
section
/-! DEFINITION. Bit fields, little-endian bytes (00 R8, R9) and the CRCs of the manual (03 R65, 14 R418). -/

namespace Sys2Proof.Machine

/-- Bits [msb:lsb] of a number (00 R8). -/
def bitsOf (v msb lsb : Nat) : Nat := (v >>> lsb) % 2 ^ (msb + 1 - lsb)

/-- Bit `i` of a number. -/
def bitOf (v i : Nat) : Bool := v.testBit i

/-- A flag as a number. -/
def bit01 (b : Bool) : Nat := if b then 1 else 0

/-- The mask of bits [msb:lsb]. -/
def maskOf (msb lsb : Nat) : Nat := (2 ^ (msb + 1 - lsb) - 1) <<< lsb

/-- The number that bytes form, the first the least significant (00 R9). -/
def leNat : List Byte → Nat
  | [] => 0
  | b :: t => b.toNat + 256 * leNat t

/-- The `n` low bytes of a number, the least significant first (00 R9). -/
def leBytes : Nat → Nat → List Byte
  | 0, _ => []
  | n + 1, v => BitVec.ofNat 8 v :: leBytes n (v / 256)

/-- The number that the `n` bytes of a field at byte offset `o` form. -/
def leField (bs : List Byte) (o n : Nat) : Nat := leNat ((bs.drop o).take n)

/-- Exactly `n` bytes: the list cut, or padded with zeros. -/
def padTo : Nat → List Byte → List Byte
  | 0, _ => []
  | n + 1, [] => 0 :: padTo n []
  | n + 1, b :: t => b :: padTo n t

/-- `n` zero bytes. -/
def zeros (n : Nat) : List Byte := List.replicate n 0

/-- Every byte of a range of a slot is zero: a reserved field (00 R10). -/
def allZero (bs : List Byte) : Bool := bs.all (fun b => b == 0)

/-- Signed reading of a `w`-bit number. -/
def signed (w v : Nat) : Int := if v < 2 ^ (w - 1) then (v : Int) else (v : Int) - (2 ^ w : Nat)

/-- The `w` low bits of an integer, two's complement. -/
def wrap (w : Nat) (i : Int) : Nat := (i % ((2 ^ w : Nat) : Int)).toNat

/-- An unsigned counter of `w` bits that stops at its largest value. -/
def satAdd (w a b : Nat) : Nat := min (a + b) (2 ^ w - 1)

/-- One bit of a reflected CRC: shift right, and xor the reflected polynomial when a one leaves. -/
def crcBit (poly c : Nat) : Nat := if c % 2 = 1 then (c / 2) ^^^ poly else c / 2

/-- One byte of a reflected CRC. -/
def crcByte (poly c : Nat) (b : Byte) : Nat :=
  let x := c ^^^ b.toNat
  crcBit poly (crcBit poly (crcBit poly (crcBit poly (crcBit poly (crcBit poly (crcBit poly (crcBit poly x)))))))

/-- A reflected CRC over bytes, from a running value. -/
def crcRun (poly : Nat) : Nat → List Byte → Nat
  | c, [] => c
  | c, b :: t => crcRun poly (crcByte poly c b) t

/-- CRC-32C: Castagnoli polynomial 0x1EDC6F41, reflected, initial value and final XOR all ones (03 R65). -/
def crc32c (bs : List Byte) : Nat := (crcRun 0x82F63B78 0xFFFFFFFF bs) ^^^ 0xFFFFFFFF

/-- CRC-64 with the ECMA-182 polynomial 0x42F0E1EBA9EA3693, reflected, initial value and final XOR all ones (14 R418). -/
def crc64 (bs : List Byte) : Nat := (crcRun 0xC96C5795D7870F42 0xFFFFFFFFFFFFFFFF bs) ^^^ 0xFFFFFFFFFFFFFFFF

/-- The smallest number of chunks of `d` that hold `n`. -/
def ceilDiv (n d : Nat) : Nat := (n + d - 1) / d

/-- The first element of a list that has a property, with the rest in order. -/
def takeFirst {α : Type} (p : α → Bool) : List α → Option (α × List α)
  | [] => none
  | a :: t => if p a then some (a, t) else match takeFirst p t with
    | none => none
    | some (b, r) => some (b, a :: r)

/-- The elements of a list with their positions, from `i` on. -/
def indexed {α : Type} : Nat → List α → List (Nat × α)
  | _, [] => []
  | i, a :: t => (i, a) :: indexed (i + 1) t

/-- The numbers below `n`, rising. -/
def upTo (n : Nat) : List Nat := List.range n

/-- The element at position `i`, or `d` beyond the end. -/
def listGet {α : Type} (d : α) : List α → Nat → α
  | [], _ => d
  | a :: _, 0 => a
  | _ :: t, i + 1 => listGet d t i

/-- Write position `i` of a list (nothing beyond the end). -/
def listSet {α : Type} : List α → Nat → α → List α
  | [], _, _ => []
  | _ :: t, 0, v => v :: t
  | a :: t, i + 1, v => a :: listSet t i v

/-- Insert an element into a list that is in the order `le`, after those that it does not precede. -/
def insertBy {α : Type} (le : α → α → Bool) (x : α) : List α → List α
  | [] => [x]
  | a :: t => if le a x then a :: insertBy le x t else x :: a :: t

/-- A list in the order `le`, equal elements in their own order. -/
def sortBy {α : Type} (le : α → α → Bool) (l : List α) : List α := l.foldl (fun r x => insertBy le x r) []

/-- Insert a number into a rising list. -/
def insertInt (x : Int) : List Int → List Int
  | [] => [x]
  | a :: t => if x ≤ a then x :: a :: t else a :: insertInt x t

/-- A list in rising order. -/
def sortInts : List Int → List Int
  | [] => []
  | a :: t => insertInt a (sortInts t)

/-- The median: the middle value, or the mean of the two middle ones rounded down (DEDUCED, log entry 19). -/
def median (l : List Int) : Int :=
  let v := sortInts l
  let n := v.length
  if n = 0 then 0
  else if n % 2 = 1 then listGet 0 v (n / 2)
  else (listGet 0 v (n / 2 - 1) + listGet 0 v (n / 2)) / 2

end Sys2Proof.Machine
end

