-- ==== Sys2Proof/Machine/Crypto.lean ====
section
/-! DEFINITION. The two algorithms that 16 R491 to R493 name by their standards: SHA-256 of FIPS 180-4, and the verification of an
ECDSA signature over the curve P-256 of FIPS 186-4 (PRESUMED, log entry 62). -/

namespace Sys2Proof.Machine

/-! ## SHA-256 -/

/-- A 32-bit word rotated right. -/
def rotr32 (k x : Nat) : Nat := x / 2 ^ k ||| x * 2 ^ (32 - k) % 2 ^ 32

/-- A sum of 32-bit words. -/
def add32 (xs : List Nat) : Nat := xs.foldl (· + ·) 0 % 2 ^ 32

/-- The constants of the 64 rounds. -/
def shaK : List Nat :=
  [0x428A2F98, 0x71374491, 0xB5C0FBCF, 0xE9B5DBA5, 0x3956C25B, 0x59F111F1, 0x923F82A4, 0xAB1C5ED5,
    0xD807AA98, 0x12835B01, 0x243185BE, 0x550C7DC3, 0x72BE5D74, 0x80DEB1FE, 0x9BDC06A7, 0xC19BF174,
    0xE49B69C1, 0xEFBE4786, 0x0FC19DC6, 0x240CA1CC, 0x2DE92C6F, 0x4A7484AA, 0x5CB0A9DC, 0x76F988DA,
    0x983E5152, 0xA831C66D, 0xB00327C8, 0xBF597FC7, 0xC6E00BF3, 0xD5A79147, 0x06CA6351, 0x14292967] ++
  [0x27B70A85, 0x2E1B2138, 0x4D2C6DFC, 0x53380D13, 0x650A7354, 0x766A0ABB, 0x81C2C92E, 0x92722C85,
    0xA2BFE8A1, 0xA81A664B, 0xC24B8B70, 0xC76C51A3, 0xD192E819, 0xD6990624, 0xF40E3585, 0x106AA070,
    0x19A4C116, 0x1E376C08, 0x2748774C, 0x34B0BCB5, 0x391C0CB3, 0x4ED8AA4A, 0x5B9CCA4F, 0x682E6FF3,
    0x748F82EE, 0x78A5636F, 0x84C87814, 0x8CC70208, 0x90BEFFFA, 0xA4506CEB, 0xBEF9A3F7, 0xC67178F2]

/-- The initial hash value. -/
def shaInit : List Nat :=
  [0x6A09E667, 0xBB67AE85, 0x3C6EF372, 0xA54FF53A, 0x510E527F, 0x9B05688C, 0x1F83D9AB, 0x5BE0CD19]

/-- A message with its padding: a one bit, zeros, and its length in bits. -/
def shaPad (b : List Byte) : List Byte :=
  b ++ [0x80] ++ zeros ((119 - b.length % 64) % 64) ++ (leBytes 8 (8 * b.length)).reverse

/-- The big-endian number of bytes. -/
def beNat (b : List Byte) : Nat := b.foldl (fun a x => a * 256 + x.toNat) 0

/-- The message schedule, the latest word first: `n` further words. -/
def shaExtend : Nat → List Nat → List Nat
  | 0, l => l
  | n + 1, l =>
    let a := listGet 0 l 1
    let b := listGet 0 l 14
    let s1 := rotr32 17 a ^^^ rotr32 19 a ^^^ a / 2 ^ 10
    let s0 := rotr32 7 b ^^^ rotr32 18 b ^^^ b / 2 ^ 3
    shaExtend n (add32 [s1, listGet 0 l 6, s0, listGet 0 l 15] :: l)

/-- One round on the eight working words. -/
def shaRound (h : List Nat) (x : Nat × Nat) : List Nat :=
  match h with
  | [a, b, c, d, e, f, g, k] =>
    let t1 := add32 [k, rotr32 6 e ^^^ rotr32 11 e ^^^ rotr32 25 e, (e &&& f) ^^^ ((2 ^ 32 - 1 - e) &&& g), x.1, x.2]
    let t2 := (rotr32 2 a ^^^ rotr32 13 a ^^^ rotr32 22 a) + ((a &&& b) ^^^ (a &&& c) ^^^ (b &&& c))
    [add32 [t1, t2], a, b, c, add32 [d, t1], e, f, g]
  | l => l

/-- One block of 64 bytes. -/
def shaBlock (h : List Nat) (b : List Byte) : List Nat :=
  let w := (shaExtend 48 (((upTo 16).map (fun i => beNat ((b.drop (4 * i)).take 4))).reverse)).reverse
  (h.zip ((shaK.zip w).foldl shaRound h)).map (fun x => add32 [x.1, x.2])

/-- The SHA-256 of bytes, 32 bytes. -/
def sha256 (b : List Byte) : List Byte :=
  let m := shaPad b
  let h := (upTo (m.length / 64)).foldl (fun h i => shaBlock h ((m.drop (64 * i)).take 64)) shaInit
  h.flatMap (fun x => (leBytes 4 x).reverse)

/-! ## ECDSA over P-256 -/

/-- The field prime, the group order, the coefficient b and the base point of P-256. -/
def ecP : Nat := 0xFFFFFFFF00000001000000000000000000000000FFFFFFFFFFFFFFFFFFFFFFFF
def ecN : Nat := 0xFFFFFFFF00000000FFFFFFFFFFFFFFFFBCE6FAADA7179E84F3B9CAC2FC632551
def ecB : Nat := 0x5AC635D8AA3A93E7B3EBBD55769886BC651D06B0CC53B0F63BCE3C3E27D2604B
def ecG : Nat × Nat :=
  (0x6B17D1F2E12C4247F8BCE6E563A440F277037D812DEB33A0F4A13945D898C296,
   0x4FE342E2FE1A7F9B8EE7EB4A7C0F9E162BCE33576B315ECECBB6406837BF51F5)

/-- A power modulo `m`, for exponents of at most `n` bits. -/
def powMod (m : Nat) : Nat → Nat → Nat → Nat
  | 0, _, _ => 1
  | n + 1, b, e =>
    let h := powMod m n (b * b % m) (e / 2)
    if e % 2 = 1 then b * h % m else h

/-- The inverse modulo a prime. -/
def invMod (m x : Nat) : Nat := powMod m 256 (x % m) (m - 2)

/-- A difference modulo the field prime. -/
def subP (a b : Nat) : Nat := (a + ecP - b) % ecP

/-- A product modulo the field prime. -/
def mulP (a b : Nat) : Nat := a * b % ecP

/-- A point in Jacobian coordinates: (X / Z^2, Y / Z^3); Z = 0 is the point at infinity. -/
abbrev EcPoint := Nat × Nat × Nat

/-- Twice a point. -/
def ecDouble (q : EcPoint) : EcPoint :=
  let d := mulP q.2.2 q.2.2
  let g := mulP q.2.1 q.2.1
  let b := mulP q.1 g
  let a := mulP 3 (mulP (subP q.1 d) (q.1 + d))
  let x := subP (mulP a a) (8 * b % ecP)
  (x, subP (mulP a (subP (4 * b % ecP) x)) (8 * mulP g g % ecP), mulP 2 (mulP q.2.1 q.2.2))

/-- The sum of two points. -/
def ecAdd (q r : EcPoint) : EcPoint :=
  if q.2.2 = 0 then r
  else if r.2.2 = 0 then q
  else
    let zz := mulP q.2.2 q.2.2
    let ww := mulP r.2.2 r.2.2
    let u := mulP q.1 ww
    let v := mulP q.2.1 (mulP ww r.2.2)
    let h := subP (mulP r.1 zz) u
    let k := subP (mulP r.2.1 (mulP zz q.2.2)) v
    if h = 0 then (if k = 0 then ecDouble q else (1, 1, 0))
    else
      let hh := mulP h h
      let x := subP (subP (mulP k k) (mulP h hh)) (2 * mulP u hh % ecP)
      (x, subP (mulP k (subP (mulP u hh) x)) (mulP v (mulP h hh)), mulP h (mulP q.2.2 r.2.2))

/-- The multiple of a point, for factors of at most `n` bits. -/
def ecMul (q : EcPoint) : Nat → Nat → EcPoint
  | 0, _ => (1, 1, 0)
  | n + 1, k =>
    let d := ecDouble (ecMul q n (k / 2))
    if k % 2 = 1 then ecAdd d q else d

/-- A point is on the curve. -/
def ecOn (q : Nat × Nat) : Bool :=
  decide (q.1 < ecP) && decide (q.2 < ecP) && q.2 * q.2 % ecP == (q.1 * q.1 * q.1 + ecB + 3 * (ecP - q.1)) % ecP

/-- A signature (r, s) verifies for a digest with a public key (X, Y), big-endian as SEC 1 encodes them (16 R490). -/
def ecdsaOk (key digest sig : List Byte) : Bool :=
  let q := (beNat (key.take 32), beNat (key.drop 32))
  let r := beNat (sig.take 32)
  let t := beNat (sig.drop 32)
  let w := invMod ecN t
  let x := ecAdd (ecMul (ecG.1, ecG.2, 1) 256 (beNat digest * w % ecN)) (ecMul (q.1, q.2, 1) 256 (r * w % ecN))
  key.length == 64 && sig.length == 64 && ecOn q && decide (0 < r) && decide (r < ecN) && decide (0 < t) && decide (t < ecN) &&
  x.2.2 != 0 && mulP x.1 (invMod ecP (mulP x.2.2 x.2.2)) % ecN == r

end Sys2Proof.Machine
end

