-- ==== Sys2Proof/Machine/RegTable.lean ====
section
/-! DEFINITION. The register tables of the manual (15 R468 and the chapters it names): for every register its offset, what
it is indexed by, its status register and its fields with access, effect class and reset value. -/

namespace Sys2Proof.Machine

/-- The register windows of BAR0 (15 R446, R449): nine global blocks and the window of each cluster. -/
inductive Win where
  | gfe | tbl | mem | cxl | fab | int | pwr | mon | sec | clu
  deriving DecidableEq, Repr

/-- A window's number in a register's key. -/
def Win.num : Win → Nat
  | .gfe => 0 | .tbl => 1 | .mem => 2 | .cxl => 3 | .fab => 4 | .int => 5 | .pwr => 6 | .mon => 7 | .sec => 8 | .clu => 9

/-- Access codes of a field (00 R11). Fields of access SC are those of a status register and are not listed. -/
inductive FAcc where
  | ro | rw | wo | sc
  deriving DecidableEq, Repr

/-- Effect classes (00 R13). -/
inductive FEff where
  | t | d | i
  deriving DecidableEq, Repr

/-- A field: bits, access, effect class and reset value. -/
structure RField where
  msb : Nat
  lsb : Nat
  acc : FAcc
  eff : FEff
  reset : Nat
  deriving DecidableEq, Repr

/-- What a register is selected by: nothing, its accessor (a select register), the channel, fence, scale slot, table,
target, aperture slot, event, route, peer entry, physical slot, sensor, monitor or process slot that its window's select
register names, or, in a cluster's window, the cluster or its selected descriptor. -/
inductive RItem where
  | one | sel | selClu | chan | fence | slot | clu | stream | table | tgt | apt | ev | route | peer | cslot
  | sensor | volt | proc
  deriving DecidableEq, Repr

/-- A register, or `n` registers of one layout four bytes apart; `status` is the offset of its status register, `events`
the number of event bits if it is one itself. -/
structure RDef where
  off : Nat
  n : Nat
  item : RItem
  status : Nat
  events : Nat
  fields : List RField
  deriving DecidableEq, Repr

/-- Registers of the GFE window (R54, R93, R467): GFE_ID, GFE_PENDING, GFE_PENDING_CLU_LO, GFE_PENDING_CLU_HI, GFE_TICK_PERIOD, GFE_TICK_NUM_LO, GFE_TICK_NUM_HI, GFE_TICK_CYCLE, GFE_TICK_STATUS, GFE_TSYNC_CTRL, GFE_TSYNC_STATE, GFE_TSYNC_OFFSET, GFE_PART_BUDGET0 to GFE_PART_BUDGET7, GFE_CHAN_SEL, GFE_CHAN_CMD, GFE_CHAN_RING_LO, GFE_CHAN_RING_HI, GFE_CHAN_RING_CFG, GFE_CHAN_CFG, GFE_CHAN_QUOTA, GFE_CHAN_STATE, GFE_CHAN_HEAD, GFE_CHAN_TAIL, GFE_CHAN_STALE. -/
def regsGfeA : List RDef :=
  [ ⟨0x000, 1, .one, 0x110, 0, [⟨6, 0, .ro, .i, 0⟩, ⟨14, 8, .ro, .i, 0⟩, ⟨23, 16, .ro, .i, 0⟩]⟩,
    ⟨0x004, 1, .one, 0x110, 0, [⟨0, 0, .ro, .i, 0⟩, ⟨1, 1, .ro, .i, 0⟩, ⟨2, 2, .ro, .i, 0⟩, ⟨3, 3, .ro, .i, 0⟩, ⟨4, 4, .ro, .i, 0⟩, ⟨5, 5, .ro, .i, 0⟩, ⟨6, 6, .ro, .i, 0⟩, ⟨7, 7, .ro, .i, 0⟩, ⟨8, 8, .ro, .i, 0⟩, ⟨9, 9, .ro, .i, 0⟩]⟩,
    ⟨0x008, 1, .one, 0x110, 0, [⟨31, 0, .ro, .i, 0⟩]⟩,
    ⟨0x00C, 1, .one, 0x110, 0, [⟨31, 0, .ro, .i, 0⟩]⟩,
    ⟨0x100, 1, .one, 0x110, 0, [⟨10, 0, .rw, .t, 0x64⟩, ⟨20, 16, .ro, .i, 0⟩, ⟨31, 31, .ro, .i, 0⟩]⟩,
    ⟨0x104, 1, .one, 0x110, 0, [⟨31, 0, .ro, .i, 0⟩]⟩,
    ⟨0x108, 1, .one, 0x110, 0, [⟨31, 0, .ro, .i, 0⟩]⟩,
    ⟨0x10C, 1, .one, 0x110, 0, [⟨16, 0, .ro, .i, 0⟩]⟩,
    ⟨0x110, 1, .one, 0x110, 6, []⟩,
    ⟨0x114, 1, .one, 0x110, 0, [⟨0, 0, .rw, .i, 1⟩, ⟨2, 1, .rw, .d, 0⟩, ⟨10, 3, .rw, .d, 0⟩, ⟨18, 11, .rw, .d, 0xff⟩]⟩,
    ⟨0x118, 1, .one, 0x110, 0, [⟨1, 0, .ro, .i, 0⟩, ⟨24, 16, .ro, .i, 0⟩]⟩,
    ⟨0x11C, 1, .one, 0x110, 0, [⟨31, 0, .ro, .i, 0⟩]⟩,
    ⟨0x120, 8, .one, 0x110, 0, [⟨6, 0, .rw, .t, 0⟩]⟩,
    ⟨0x200, 1, .sel, 0x22C, 0, [⟨11, 0, .rw, .i, 0⟩]⟩,
    ⟨0x204, 1, .chan, 0x22C, 0, [⟨3, 0, .wo, .i, 0⟩, ⟨31, 12, .wo, .i, 0⟩]⟩,
    ⟨0x208, 1, .chan, 0x22C, 0, [⟨31, 12, .rw, .d, 0⟩]⟩,
    ⟨0x20C, 1, .chan, 0x22C, 0, [⟨31, 0, .rw, .d, 0⟩]⟩,
    ⟨0x210, 1, .chan, 0x22C, 0, [⟨4, 0, .rw, .d, 6⟩, ⟨31, 16, .rw, .d, 0⟩]⟩,
    ⟨0x214, 1, .chan, 0x22C, 0, [⟨2, 0, .rw, .d, 0⟩, ⟨4, 3, .rw, .d, 0⟩, ⟨5, 5, .rw, .t, 0⟩, ⟨6, 6, .ro, .i, 0⟩, ⟨15, 8, .rw, .t, 0⟩, ⟨31, 16, .rw, .t, 0⟩]⟩,
    ⟨0x218, 1, .chan, 0x22C, 0, [⟨14, 0, .rw, .t, 0⟩]⟩,
    ⟨0x21C, 1, .chan, 0x22C, 0, [⟨2, 0, .ro, .i, 0⟩, ⟨4, 3, .ro, .i, 0⟩, ⟨5, 5, .ro, .i, 0⟩, ⟨31, 12, .ro, .i, 0⟩]⟩,
    ⟨0x220, 1, .chan, 0x22C, 0, [⟨31, 0, .ro, .i, 0⟩]⟩,
    ⟨0x224, 1, .chan, 0x22C, 0, [⟨31, 0, .ro, .i, 0⟩]⟩,
    ⟨0x228, 1, .chan, 0x22C, 0, [⟨15, 0, .ro, .i, 0⟩, ⟨31, 16, .ro, .i, 0⟩]⟩ ]

/-- Registers of the GFE window (R93, R116, R143): GFE_CHAN_STATUS, GFE_CHAN_CQ_LO, GFE_CHAN_CQ_HI, GFE_CHAN_CQ_CFG, GFE_CHAN_LOST, GFE_CTX_COUNT, GFE_CTX_ALLOC, GFE_CTX_LATE, GFE_LIST_STATUS, GFE_FENCE_SEL, GFE_FENCE_CMD, GFE_FENCE_VAL_LO, GFE_FENCE_VAL_HI, GFE_FENCE_ADD, GFE_FENCE_CFG, GFE_FENCE_STATUS, GFE_PART_CTRL0, GFE_PART_CTRL1 to GFE_PART_CTRL7, GFE_PART_MASK_LO0, GFE_PART_MASK_HI0, GFE_PART_MASK_LO1, GFE_PART_MASK_HI1, GFE_PART_MASK_LO2, GFE_PART_MASK_HI2. -/
def regsGfeB : List RDef :=
  [ ⟨0x22C, 1, .chan, 0x22C, 6, []⟩,
    ⟨0x230, 1, .chan, 0x22C, 0, [⟨31, 12, .rw, .d, 0⟩]⟩,
    ⟨0x234, 1, .chan, 0x22C, 0, [⟨31, 0, .rw, .d, 0⟩]⟩,
    ⟨0x238, 1, .chan, 0x22C, 0, [⟨4, 0, .rw, .d, 6⟩, ⟨5, 5, .rw, .t, 0⟩, ⟨26, 16, .rw, .t, 0⟩]⟩,
    ⟨0x23C, 1, .chan, 0x22C, 0, [⟨15, 0, .ro, .i, 0⟩, ⟨31, 16, .ro, .i, 0⟩]⟩,
    ⟨0x240, 1, .one, 0x22C, 0, [⟨14, 0, .ro, .i, 0x4000⟩, ⟨30, 16, .ro, .i, 0⟩]⟩,
    ⟨0x244, 1, .one, 0x22C, 0, [⟨14, 0, .ro, .i, 0⟩]⟩,
    ⟨0x248, 1, .one, 0x22C, 0, [⟨31, 0, .ro, .i, 0⟩]⟩,
    ⟨0x260, 1, .one, 0x22C, 0, [⟨10, 0, .ro, .i, 0⟩]⟩,
    ⟨0x280, 1, .sel, 0x298, 0, [⟨11, 0, .rw, .i, 0⟩]⟩,
    ⟨0x284, 1, .fence, 0x298, 0, [⟨0, 0, .wo, .i, 0⟩, ⟨31, 12, .wo, .i, 0⟩]⟩,
    ⟨0x288, 1, .fence, 0x298, 0, [⟨31, 0, .ro, .i, 0⟩]⟩,
    ⟨0x28C, 1, .fence, 0x298, 0, [⟨31, 0, .ro, .i, 0⟩]⟩,
    ⟨0x290, 1, .fence, 0x298, 0, [⟨31, 0, .wo, .i, 0⟩]⟩,
    ⟨0x294, 1, .fence, 0x298, 0, [⟨0, 0, .rw, .t, 0⟩, ⟨31, 12, .ro, .i, 0⟩]⟩,
    ⟨0x298, 1, .one, 0x298, 3, []⟩,
    ⟨0x300, 1, .one, 0x370, 0, [⟨0, 0, .rw, .t, 1⟩, ⟨8, 8, .ro, .i, 1⟩]⟩,
    ⟨0x304, 7, .one, 0x370, 0, [⟨0, 0, .rw, .t, 0⟩, ⟨8, 8, .ro, .i, 0⟩]⟩,
    ⟨0x320, 1, .one, 0x370, 0, [⟨31, 0, .rw, .d, 0⟩]⟩,
    ⟨0x324, 1, .one, 0x370, 0, [⟨31, 0, .rw, .d, 0⟩]⟩,
    ⟨0x328, 1, .one, 0x370, 0, [⟨31, 0, .rw, .d, 0⟩]⟩,
    ⟨0x32C, 1, .one, 0x370, 0, [⟨31, 0, .rw, .d, 0⟩]⟩,
    ⟨0x330, 1, .one, 0x370, 0, [⟨31, 0, .rw, .d, 0⟩]⟩,
    ⟨0x334, 1, .one, 0x370, 0, [⟨31, 0, .rw, .d, 0⟩]⟩ ]

/-- Registers of the GFE window (R143, R179): GFE_PART_MASK_LO3, GFE_PART_MASK_HI3, GFE_PART_MASK_LO4, GFE_PART_MASK_HI4, GFE_PART_MASK_LO5, GFE_PART_MASK_HI5, GFE_PART_MASK_LO6, GFE_PART_MASK_HI6, GFE_PART_MASK_LO7, GFE_PART_MASK_HI7, GFE_SLICE_CFG0, GFE_SLICE_CFG1, GFE_PREEMPT_CFG, GFE_SCHED_ALLOW, GFE_SCHED_STATUS, GFE_ENERGY_IN, GFE_ENERGY_UNATTR, GFE_ENERGY_TICK_LO, GFE_ENERGY_TICK_HI, GFE_ENERGY_PENDING, GFE_ACCT_SEL, GFE_ACCT_DATA0 to GFE_ACCT_DATA63, GFE_SCALE_SEL, GFE_SCALE_CFG. -/
def regsGfeC : List RDef :=
  [ ⟨0x338, 1, .one, 0x370, 0, [⟨31, 0, .rw, .d, 0⟩]⟩,
    ⟨0x33C, 1, .one, 0x370, 0, [⟨31, 0, .rw, .d, 0⟩]⟩,
    ⟨0x340, 1, .one, 0x370, 0, [⟨31, 0, .rw, .d, 0⟩]⟩,
    ⟨0x344, 1, .one, 0x370, 0, [⟨31, 0, .rw, .d, 0⟩]⟩,
    ⟨0x348, 1, .one, 0x370, 0, [⟨31, 0, .rw, .d, 0⟩]⟩,
    ⟨0x34C, 1, .one, 0x370, 0, [⟨31, 0, .rw, .d, 0⟩]⟩,
    ⟨0x350, 1, .one, 0x370, 0, [⟨31, 0, .rw, .d, 0⟩]⟩,
    ⟨0x354, 1, .one, 0x370, 0, [⟨31, 0, .rw, .d, 0⟩]⟩,
    ⟨0x358, 1, .one, 0x370, 0, [⟨31, 0, .rw, .d, 0⟩]⟩,
    ⟨0x35C, 1, .one, 0x370, 0, [⟨31, 0, .rw, .d, 0⟩]⟩,
    ⟨0x360, 1, .one, 0x370, 0, [⟨13, 0, .rw, .t, 0x800⟩, ⟨29, 16, .rw, .t, 0x400⟩]⟩,
    ⟨0x364, 1, .one, 0x370, 0, [⟨13, 0, .rw, .t, 0⟩, ⟨29, 16, .rw, .t, 0⟩]⟩,
    ⟨0x368, 1, .one, 0x370, 0, [⟨3, 0, .rw, .t, 1⟩, ⟨4, 4, .rw, .t, 1⟩, ⟨5, 5, .rw, .t, 1⟩, ⟨15, 8, .rw, .t, 8⟩]⟩,
    ⟨0x36C, 1, .one, 0x370, 0, [⟨31, 0, .ro, .i, 0⟩]⟩,
    ⟨0x370, 1, .one, 0x370, 7, []⟩,
    ⟨0x380, 1, .one, 0x370, 0, [⟨31, 0, .ro, .i, 0⟩]⟩,
    ⟨0x384, 1, .one, 0x370, 0, [⟨31, 0, .ro, .i, 0⟩]⟩,
    ⟨0x388, 1, .one, 0x370, 0, [⟨31, 0, .ro, .i, 0⟩]⟩,
    ⟨0x38C, 1, .one, 0x370, 0, [⟨31, 0, .ro, .i, 0⟩]⟩,
    ⟨0x390, 1, .one, 0x370, 0, [⟨31, 0, .ro, .i, 0⟩]⟩,
    ⟨0x3A0, 1, .sel, 0x370, 0, [⟨11, 0, .rw, .i, 0⟩, ⟨12, 12, .rw, .i, 0⟩, ⟨31, 31, .wo, .i, 0⟩]⟩,
    ⟨0x400, 64, .one, 0x370, 0, [⟨31, 0, .ro, .i, 0⟩]⟩,
    ⟨0x500, 1, .sel, 0x518, 0, [⟨9, 0, .rw, .i, 0⟩]⟩,
    ⟨0x504, 1, .slot, 0x518, 0, [⟨4, 0, .rw, .t, 0x10⟩, ⟨11, 8, .rw, .t, 0⟩, ⟨15, 12, .rw, .t, 0⟩, ⟨16, 16, .rw, .t, 0⟩, ⟨17, 17, .rw, .t, 0⟩]⟩ ]

/-- Registers of the GFE window (R179): GFE_SCALE_T, GFE_SCALE_AMAX, GFE_SCALE_CNT, GFE_SCALE_CTRL, GFE_SCALE_STATUS, GFE_SCALE_HIST0 to GFE_SCALE_HIST15. -/
def regsGfeD : List RDef :=
  [ ⟨0x508, 1, .slot, 0x518, 0, [⟨31, 0, .rw, .t, 0x3f800000⟩]⟩,
    ⟨0x50C, 1, .slot, 0x518, 0, [⟨31, 0, .ro, .i, 0⟩]⟩,
    ⟨0x510, 1, .slot, 0x518, 0, [⟨15, 0, .ro, .i, 0⟩, ⟨20, 16, .ro, .i, 0⟩]⟩,
    ⟨0x514, 1, .slot, 0x518, 0, [⟨0, 0, .wo, .t, 0⟩]⟩,
    ⟨0x518, 1, .one, 0x518, 3, []⟩,
    ⟨0x540, 16, .slot, 0x518, 0, [⟨31, 0, .ro, .i, 0⟩]⟩ ]

/-- Registers of the TBL window (R281): TBL_SEL, TBL_POOL_CFG, TBL_POOL_USED, TBL_POOL_SIZE, TBL_FOLD_CTRL, TBL_FOLD_STATE, TBL_POOL_STATUS, TBL_RESOLVE_CFG, TBL_RESOLVE_COUNT. -/
def regsTbl : List RDef :=
  [ ⟨0x000, 1, .sel, 0x018, 0, [⟨31, 0, .rw, .i, 0⟩]⟩,
    ⟨0x004, 1, .table, 0x018, 0, [⟨6, 0, .rw, .t, 0x32⟩, ⟨14, 8, .rw, .t, 0x19⟩]⟩,
    ⟨0x008, 1, .table, 0x018, 0, [⟨24, 0, .ro, .i, 0⟩]⟩,
    ⟨0x00C, 1, .table, 0x018, 0, [⟨24, 0, .ro, .i, 0⟩]⟩,
    ⟨0x010, 1, .table, 0x018, 0, [⟨0, 0, .wo, .i, 0⟩]⟩,
    ⟨0x014, 1, .table, 0x018, 0, [⟨24, 0, .ro, .i, 0⟩, ⟨31, 31, .ro, .i, 0⟩]⟩,
    ⟨0x018, 1, .one, 0x018, 4, []⟩,
    ⟨0x020, 1, .one, 0x018, 0, [⟨7, 0, .rw, .t, 0⟩]⟩,
    ⟨0x024, 1, .one, 0x018, 0, [⟨6, 0, .ro, .i, 0⟩, ⟨27, 7, .ro, .i, 0⟩]⟩ ]

/-- Registers of the MEM window (R331): MEM_STATUS, MEM_PLACE_CFG, MEM_HEAT_CFG, MEM_ATTIC_RESERVE, MEM_CAP_ATTIC, MEM_FREE_ATTIC, MEM_CAP_STORE, MEM_FREE_STORE, MEM_CAP_CELLAR, MEM_FREE_CELLAR, MEM_OBJ_COUNT, MEM_HEAT_SEL, MEM_HEAT_VAL, MEM_STACK_TEMP0 to MEM_STACK_TEMP7, MEM_TGT_SEL, MEM_TGT_CTRL, MEM_MARGIN_CTRL, MEM_MARGIN_RESULT. -/
def regsMem : List RDef :=
  [ ⟨0x000, 1, .one, 0x000, 6, []⟩,
    ⟨0x004, 1, .one, 0x000, 0, [⟨6, 0, .rw, .t, 0x5a⟩, ⟨14, 8, .rw, .t, 0x55⟩, ⟨15, 15, .rw, .t, 1⟩, ⟨31, 16, .rw, .t, 0x1000⟩]⟩,
    ⟨0x008, 1, .one, 0x000, 0, [⟨11, 0, .rw, .t, 0x64⟩, ⟨15, 12, .rw, .t, 4⟩, ⟨23, 16, .rw, .t, 0x20⟩, ⟨31, 24, .rw, .t, 0x80⟩]⟩,
    ⟨0x00C, 1, .one, 0x000, 0, [⟨25, 0, .rw, .t, 0x10000⟩]⟩,
    ⟨0x010, 1, .one, 0x000, 0, [⟨31, 0, .ro, .i, 0⟩]⟩,
    ⟨0x014, 1, .one, 0x000, 0, [⟨31, 0, .ro, .i, 0⟩]⟩,
    ⟨0x018, 1, .one, 0x000, 0, [⟨31, 0, .ro, .i, 0⟩]⟩,
    ⟨0x01C, 1, .one, 0x000, 0, [⟨31, 0, .ro, .i, 0⟩]⟩,
    ⟨0x020, 1, .one, 0x000, 0, [⟨31, 0, .ro, .i, 0⟩]⟩,
    ⟨0x024, 1, .one, 0x000, 0, [⟨31, 0, .ro, .i, 0⟩]⟩,
    ⟨0x030, 1, .one, 0x000, 0, [⟨20, 0, .ro, .i, 0⟩]⟩,
    ⟨0x034, 1, .sel, 0x000, 0, [⟨21, 0, .rw, .i, 0⟩]⟩,
    ⟨0x038, 1, .one, 0x000, 0, [⟨7, 0, .ro, .i, 0⟩]⟩,
    ⟨0x040, 8, .one, 0x000, 0, [⟨10, 0, .ro, .i, 0⟩, ⟨16, 16, .ro, .i, 0⟩, ⟨18, 17, .ro, .i, 0⟩, ⟨19, 19, .ro, .i, 0⟩]⟩,
    ⟨0x060, 1, .sel, 0x000, 0, [⟨0, 0, .rw, .i, 0⟩, ⟨9, 1, .rw, .i, 0⟩]⟩,
    ⟨0x064, 1, .tgt, 0x000, 0, [⟨0, 0, .rw, .t, 1⟩, ⟨3, 1, .ro, .i, 0⟩, ⟨6, 4, .ro, .i, 0⟩]⟩,
    ⟨0x068, 1, .tgt, 0x000, 0, [⟨0, 0, .rw, .d, 0⟩, ⟨6, 1, .rw, .d, 0⟩, ⟨14, 7, .rw, .d, 0⟩, ⟨31, 31, .wo, .i, 0⟩]⟩,
    ⟨0x06C, 1, .tgt, 0x000, 0, [⟨23, 0, .ro, .i, 0⟩, ⟨31, 31, .ro, .i, 0⟩]⟩ ]

/-- Registers of the CXL window (R393): CXL_LINK, CXL_STATUS, CXL_COUNTS, CXL_RTT, CXL_RDERR_LO, CXL_RDERR_HI, CXL_RDERR_INFO, CXL_ORPHAN_CFG, CXL_WRBUF, CXL_APT_SEL, CXL_APT_HANDLE, CXL_APT_BASE, CXL_APT_CTRL, CXL_EV_SEL, CXL_EV_CFG. -/
def regsCxl : List RDef :=
  [ ⟨0x000, 1, .one, 0x004, 0, [⟨1, 0, .ro, .i, 0⟩, ⟨2, 2, .ro, .i, 0⟩, ⟨12, 8, .ro, .i, 0⟩, ⟨15, 13, .ro, .i, 0⟩, ⟨16, 16, .ro, .i, 0⟩, ⟨17, 17, .ro, .i, 0⟩, ⟨18, 18, .ro, .i, 0⟩, ⟨19, 19, .ro, .i, 0⟩]⟩,
    ⟨0x004, 1, .one, 0x004, 10, []⟩,
    ⟨0x008, 1, .one, 0x004, 0, [⟨15, 0, .ro, .i, 0⟩, ⟨31, 16, .ro, .i, 0⟩]⟩,
    ⟨0x00C, 1, .one, 0x004, 0, [⟨15, 0, .ro, .i, 0⟩, ⟨31, 16, .ro, .i, 0⟩]⟩,
    ⟨0x010, 1, .one, 0x004, 0, [⟨31, 0, .ro, .i, 0⟩]⟩,
    ⟨0x014, 1, .one, 0x004, 0, [⟨31, 0, .ro, .i, 0⟩]⟩,
    ⟨0x018, 1, .one, 0x004, 0, [⟨1, 0, .ro, .i, 0⟩, ⟨27, 16, .ro, .i, 0⟩]⟩,
    ⟨0x020, 1, .one, 0x004, 0, [⟨11, 0, .rw, .t, 0x3c⟩]⟩,
    ⟨0x024, 1, .one, 0x004, 0, [⟨13, 0, .ro, .i, 0x2000⟩]⟩,
    ⟨0x040, 1, .sel, 0x004, 0, [⟨5, 0, .rw, .i, 0⟩]⟩,
    ⟨0x044, 1, .apt, 0x004, 0, [⟨31, 0, .rw, .d, 0⟩]⟩,
    ⟨0x048, 1, .apt, 0x004, 0, [⟨29, 0, .rw, .d, 0⟩]⟩,
    ⟨0x04C, 1, .apt, 0x004, 0, [⟨0, 0, .rw, .i, 0⟩]⟩,
    ⟨0x060, 1, .sel, 0x004, 0, [⟨7, 0, .rw, .i, 0⟩]⟩,
    ⟨0x064, 1, .ev, 0x004, 0, [⟨10, 0, .rw, .t, 0⟩, ⟨16, 16, .rw, .t, 0⟩]⟩ ]

/-- Registers of the FAB window (R414): FAB_CTRL, FAB_ID, FAB_NET_CFG, FAB_MAC_PREFIX, FAB_VL_PCP, FAB_RETX_CFG, FAB_PORT_CFG0 to FAB_PORT_CFG7, FAB_PORT_STATE0 to FAB_PORT_STATE7, FAB_STATUS, FAB_COUNTS0, FAB_COUNTS1, FAB_BUF, FAB_ROUTE_SEL, FAB_ROUTE, FAB_PEER_SEL, FAB_PEER_STATE. -/
def regsFab : List RDef :=
  [ ⟨0x000, 1, .one, 0x080, 0, [⟨0, 0, .rw, .i, 1⟩, ⟨1, 1, .rw, .d, 0⟩]⟩,
    ⟨0x004, 1, .one, 0x080, 0, [⟨13, 0, .ro, .i, 0⟩]⟩,
    ⟨0x008, 1, .one, 0x080, 0, [⟨15, 0, .rw, .d, 0x88b5⟩, ⟨16, 16, .rw, .d, 0⟩]⟩,
    ⟨0x00C, 1, .one, 0x080, 0, [⟨23, 0, .rw, .d, 0x24a58⟩]⟩,
    ⟨0x010, 1, .one, 0x080, 0, [⟨2, 0, .rw, .d, 6⟩, ⟨6, 4, .rw, .d, 4⟩, ⟨10, 8, .rw, .d, 2⟩, ⟨14, 12, .rw, .d, 0⟩]⟩,
    ⟨0x014, 1, .one, 0x080, 0, [⟨11, 0, .rw, .t, 0x14⟩, ⟨15, 12, .rw, .t, 7⟩, ⟨31, 16, .rw, .t, 0x200⟩]⟩,
    ⟨0x040, 8, .one, 0x080, 0, [⟨0, 0, .rw, .i, 1⟩, ⟨2, 1, .rw, .d, 0⟩]⟩,
    ⟨0x060, 8, .one, 0x080, 0, [⟨1, 0, .ro, .i, 0⟩, ⟨15, 8, .ro, .i, 0⟩, ⟨29, 16, .ro, .i, 0⟩]⟩,
    ⟨0x080, 1, .one, 0x080, 7, []⟩,
    ⟨0x084, 1, .one, 0x080, 0, [⟨31, 0, .ro, .i, 0⟩]⟩,
    ⟨0x088, 1, .one, 0x080, 0, [⟨15, 0, .ro, .i, 0⟩, ⟨31, 16, .ro, .i, 0⟩]⟩,
    ⟨0x08C, 1, .one, 0x080, 0, [⟨15, 0, .ro, .i, 0x8000⟩, ⟨31, 16, .ro, .i, 0x8000⟩]⟩,
    ⟨0x090, 1, .sel, 0x080, 0, [⟨13, 0, .rw, .i, 0⟩]⟩,
    ⟨0x094, 1, .route, 0x080, 0, [⟨7, 0, .rw, .t, 0xff⟩, ⟨15, 8, .ro, .i, 0⟩]⟩,
    ⟨0x0A0, 1, .sel, 0x080, 0, [⟨15, 0, .rw, .i, 0⟩]⟩,
    ⟨0x0A4, 1, .peer, 0x080, 0, [⟨1, 0, .ro, .i, 0⟩, ⟨4, 2, .ro, .i, 0⟩, ⟨31, 16, .ro, .i, 0⟩]⟩ ]

/-- Registers of the INT window (R445): INT_STATUS, INT_ROT_CFG, INT_ROT_EXCL_LO, INT_ROT_EXCL_HI, INT_ROT_STATE, INT_TEST_CFG, INT_CLU_SEL, INT_CLU_STATE, INT_CLU_CTRL, INT_CLU_PIN, INT_COUNTS, INT_ECC_CE0 to INT_ECC_CE3, INT_ECC_UE, INT_POISON_HANDLE, INT_POISON_TILE, INT_POISON_INFO, INT_LOG_STATUS, INT_UNIT_RESULT, INT_LOG_SEL, INT_LOG_DATA0 to INT_LOG_DATA15. -/
def regsInt : List RDef :=
  [ ⟨0x000, 1, .one, 0x000, 9, []⟩,
    ⟨0x004, 1, .one, 0x000, 0, [⟨0, 0, .rw, .t, 1⟩, ⟨12, 1, .rw, .t, 0xfff⟩, ⟨15, 13, .rw, .t, 3⟩, ⟨27, 16, .rw, .t, 0x190⟩]⟩,
    ⟨0x008, 1, .one, 0x000, 0, [⟨31, 0, .rw, .t, 0⟩]⟩,
    ⟨0x00C, 1, .one, 0x000, 0, [⟨31, 0, .rw, .t, 0⟩]⟩,
    ⟨0x010, 1, .one, 0x000, 0, [⟨5, 0, .ro, .i, 0⟩, ⟨6, 6, .ro, .i, 0⟩, ⟨7, 7, .ro, .i, 0⟩, ⟨13, 8, .ro, .i, 0⟩, ⟨31, 16, .ro, .i, 0⟩]⟩,
    ⟨0x014, 1, .one, 0x000, 0, [⟨3, 0, .rw, .t, 3⟩, ⟨7, 4, .rw, .t, 8⟩, ⟨8, 8, .rw, .t, 1⟩]⟩,
    ⟨0x020, 1, .sel, 0x000, 0, [⟨6, 0, .rw, .i, 0⟩]⟩,
    ⟨0x024, 1, .cslot, 0x000, 0, [⟨2, 0, .ro, .i, 0⟩, ⟨8, 3, .ro, .i, 0⟩, ⟨9, 9, .ro, .i, 0⟩, ⟨13, 10, .ro, .i, 0⟩, ⟨31, 16, .ro, .i, 0⟩]⟩,
    ⟨0x028, 1, .cslot, 0x000, 0, [⟨1, 0, .wo, .i, 0⟩]⟩,
    ⟨0x02C, 1, .cslot, 0x000, 0, [⟨13, 0, .ro, .i, 0⟩]⟩,
    ⟨0x030, 1, .one, 0x000, 0, [⟨15, 0, .ro, .i, 0⟩, ⟨31, 16, .ro, .i, 0⟩]⟩,
    ⟨0x040, 4, .one, 0x000, 0, [⟨31, 0, .ro, .i, 0⟩]⟩,
    ⟨0x050, 1, .one, 0x000, 0, [⟨15, 0, .ro, .i, 0⟩, ⟨31, 16, .ro, .i, 0⟩]⟩,
    ⟨0x054, 1, .one, 0x000, 0, [⟨31, 0, .ro, .i, 0⟩]⟩,
    ⟨0x058, 1, .one, 0x000, 0, [⟨29, 0, .ro, .i, 0⟩]⟩,
    ⟨0x05C, 1, .one, 0x000, 0, [⟨2, 0, .ro, .i, 0⟩, ⟨5, 3, .ro, .i, 0⟩]⟩,
    ⟨0x060, 1, .one, 0x000, 0, [⟨8, 0, .ro, .i, 0⟩, ⟨9, 9, .ro, .i, 0⟩, ⟨31, 16, .ro, .i, 0⟩]⟩,
    ⟨0x064, 1, .one, 0x000, 0, [⟨7, 0, .ro, .i, 0⟩]⟩,
    ⟨0x070, 1, .sel, 0x000, 0, [⟨15, 0, .rw, .i, 0⟩, ⟨31, 31, .wo, .i, 0⟩]⟩,
    ⟨0x080, 16, .one, 0x000, 0, [⟨31, 0, .ro, .i, 0⟩]⟩ ]

/-- Registers of the PWR window (R503): PWR_STATUS, PWR_SUPPLY, PWR_STATE, PWR_CAP, PWR_CAP_EFF, PWR_IDLE, PWR_E, PWR_E_NOW, PWR_DOM_LIMIT0 to PWR_DOM_LIMIT5, PWR_DOM_POWER0 to PWR_DOM_POWER5, PWR_W_CYC0, PWR_W_CYC1, PWR_W_CYC2, PWR_W_CYC3, PWR_W_CYC4, PWR_W_CYC5, PWR_W_BYTE0, PWR_W_BYTE1 to PWR_W_BYTE2, PWR_W_BYTE3 to PWR_W_BYTE4, PWR_W_BYTE5 to PWR_W_BYTE6, PWR_W_BYTE7, PWR_W_BYTE8, PWR_W_BYTE9 to PWR_W_BYTE10, PWR_W_BYTE11 to PWR_W_BYTE12. -/
def regsPwr : List RDef :=
  [ ⟨0x000, 1, .one, 0x000, 6, []⟩,
    ⟨0x004, 1, .one, 0x000, 0, [⟨15, 0, .ro, .i, 0⟩, ⟨31, 16, .ro, .i, 0⟩]⟩,
    ⟨0x008, 1, .one, 0x000, 0, [⟨1, 0, .ro, .i, 0⟩]⟩,
    ⟨0x00C, 1, .one, 0x000, 0, [⟨10, 0, .rw, .t, 0⟩]⟩,
    ⟨0x010, 1, .one, 0x000, 0, [⟨10, 0, .ro, .i, 0⟩]⟩,
    ⟨0x014, 1, .one, 0x000, 0, [⟨20, 0, .rw, .t, 0x5cc60⟩, ⟨31, 31, .ro, .i, 0⟩]⟩,
    ⟨0x018, 1, .one, 0x000, 0, [⟨15, 0, .rw, .t, 0x2680⟩]⟩,
    ⟨0x01C, 1, .one, 0x000, 0, [⟨23, 0, .ro, .i, 0x2680⟩]⟩,
    ⟨0x020, 6, .one, 0x000, 0, [⟨10, 0, .rw, .t, 0⟩]⟩,
    ⟨0x040, 6, .one, 0x000, 0, [⟨10, 0, .ro, .i, 0⟩, ⟨31, 31, .ro, .i, 0⟩]⟩,
    ⟨0x060, 1, .one, 0x000, 0, [⟨15, 0, .rw, .t, 0x1770⟩]⟩,
    ⟨0x064, 1, .one, 0x000, 0, [⟨15, 0, .rw, .t, 0x5dc⟩]⟩,
    ⟨0x068, 1, .one, 0x000, 0, [⟨15, 0, .rw, .t, 0x7d0⟩]⟩,
    ⟨0x06C, 1, .one, 0x000, 0, [⟨15, 0, .rw, .t, 0x5dc⟩]⟩,
    ⟨0x070, 1, .one, 0x000, 0, [⟨15, 0, .rw, .t, 0x190⟩]⟩,
    ⟨0x074, 1, .one, 0x000, 0, [⟨15, 0, .rw, .t, 0x64⟩]⟩,
    ⟨0x080, 1, .one, 0x000, 0, [⟨7, 0, .rw, .t, 2⟩]⟩,
    ⟨0x084, 2, .one, 0x000, 0, [⟨7, 0, .rw, .t, 5⟩]⟩,
    ⟨0x08C, 2, .one, 0x000, 0, [⟨7, 0, .rw, .t, 0xa⟩]⟩,
    ⟨0x094, 2, .one, 0x000, 0, [⟨7, 0, .rw, .t, 0xc⟩]⟩,
    ⟨0x09C, 1, .one, 0x000, 0, [⟨7, 0, .rw, .t, 0x28⟩]⟩,
    ⟨0x0A0, 1, .one, 0x000, 0, [⟨7, 0, .rw, .t, 0x3c⟩]⟩,
    ⟨0x0A4, 2, .one, 0x000, 0, [⟨7, 0, .rw, .t, 0xf⟩]⟩,
    ⟨0x0AC, 2, .one, 0x000, 0, [⟨7, 0, .rw, .t, 0xc⟩]⟩ ]

/-- Registers of the MON window (R503): MON_STATUS, MON_TEMP_SEL, MON_TEMP, MON_TEMP_MAX, MON_THERM, MON_VOLT_SEL, MON_VOLT, MON_PROC_SEL, MON_PROC. -/
def regsMon : List RDef :=
  [ ⟨0x000, 1, .one, 0x000, 5, []⟩,
    ⟨0x004, 1, .sel, 0x000, 0, [⟨7, 0, .rw, .i, 0⟩]⟩,
    ⟨0x008, 1, .sensor, 0x000, 0, [⟨10, 0, .ro, .i, 0⟩, ⟨11, 11, .ro, .i, 0⟩]⟩,
    ⟨0x00C, 1, .one, 0x000, 0, [⟨10, 0, .ro, .i, 0⟩, ⟨23, 16, .ro, .i, 0⟩]⟩,
    ⟨0x010, 1, .one, 0x000, 0, [⟨1, 0, .ro, .i, 0⟩, ⟨8, 2, .ro, .i, 0⟩]⟩,
    ⟨0x014, 1, .sel, 0x000, 0, [⟨5, 0, .rw, .i, 0⟩]⟩,
    ⟨0x018, 1, .volt, 0x000, 0, [⟨12, 0, .ro, .i, 0⟩, ⟨13, 13, .ro, .i, 0⟩, ⟨14, 14, .ro, .i, 0⟩, ⟨28, 16, .ro, .i, 0⟩]⟩,
    ⟨0x01C, 1, .sel, 0x000, 0, [⟨6, 0, .rw, .i, 0⟩]⟩,
    ⟨0x020, 1, .proc, 0x000, 0, [⟨15, 0, .ro, .i, 0⟩, ⟨23, 16, .ro, .i, 0⟩]⟩ ]

/-- Registers of the SEC window (R503): SEC_STATUS, SEC_BOOT, SEC_FW_VER, SEC_CFG_VER, SEC_UPD_SRC, SEC_UPD_CTRL, SEC_UPD_STATE, SEC_RESET, SEC_REC_CTRL, SEC_REC_DATA, SEC_REC_STATE, SEC_DEVID0 to SEC_DEVID7. -/
def regsSec : List RDef :=
  [ ⟨0x000, 1, .one, 0x000, 6, []⟩,
    ⟨0x004, 1, .one, 0x000, 0, [⟨3, 0, .ro, .i, 0⟩, ⟨6, 4, .ro, .i, 0⟩, ⟨31, 16, .ro, .i, 0⟩]⟩,
    ⟨0x008, 1, .one, 0x000, 0, [⟨15, 0, .ro, .i, 0⟩, ⟨23, 16, .ro, .i, 0⟩, ⟨31, 24, .ro, .i, 0⟩]⟩,
    ⟨0x00C, 1, .one, 0x000, 0, [⟨31, 0, .ro, .i, 0⟩]⟩,
    ⟨0x010, 1, .one, 0x000, 0, [⟨31, 0, .rw, .i, 0⟩]⟩,
    ⟨0x014, 1, .one, 0x000, 0, [⟨1, 0, .wo, .i, 0⟩]⟩,
    ⟨0x018, 1, .one, 0x000, 0, [⟨3, 0, .ro, .i, 0⟩]⟩,
    ⟨0x01C, 1, .one, 0x000, 0, [⟨7, 0, .wo, .i, 0⟩, ⟨8, 8, .wo, .i, 0⟩]⟩,
    ⟨0x020, 1, .one, 0x000, 0, [⟨0, 0, .wo, .i, 0⟩, ⟨1, 1, .wo, .i, 0⟩, ⟨2, 2, .wo, .i, 0⟩]⟩,
    ⟨0x024, 1, .one, 0x000, 0, [⟨31, 0, .wo, .i, 0⟩]⟩,
    ⟨0x028, 1, .one, 0x000, 0, [⟨3, 0, .ro, .i, 0⟩, ⟨30, 8, .ro, .i, 0⟩]⟩,
    ⟨0x040, 8, .one, 0x000, 0, [⟨31, 0, .ro, .i, 0⟩]⟩ ]

/-- Registers of the per-cluster window (R54, R143, R179, R206, R331, R467): CLU_ID, CLU_STATUS, CLU_TICK_CHARGED, CLU_TICK_COUNTS, CLU_CLASS_TILES0 to CLU_CLASS_TILES1, CLU_PREEMPT_COUNTS, CLU_SR_KEY_LO, CLU_SR_KEY_HI, CLU_SR_CTR_LO, CLU_SR_CTR_HI, CLU_FRAMES0, CLU_FRAMES1, MXA_CHECK_CFG, MXA_STATUS, MXA_BLOCKS, MXA_FAILS, MXA_LAST_FAIL, MVP_CHECK_CFG, MVP_STATUS, MVP_BLOCKS, MVP_FAILS, MVP_LAST_FAIL, MXA_INJECT, MVP_INJECT. -/
def regsCluA : List RDef :=
  [ ⟨0x000, 1, .clu, 0x004, 0, [⟨5, 0, .ro, .i, 0⟩, ⟨13, 7, .ro, .i, 0⟩, ⟨18, 16, .ro, .i, 0⟩, ⟨31, 31, .ro, .i, 0⟩]⟩,
    ⟨0x004, 1, .clu, 0x004, 1, []⟩,
    ⟨0x040, 1, .clu, 0x004, 0, [⟨21, 0, .ro, .i, 0⟩]⟩,
    ⟨0x044, 1, .clu, 0x004, 0, [⟨15, 0, .ro, .i, 0⟩, ⟨31, 16, .ro, .i, 0⟩]⟩,
    ⟨0x048, 2, .clu, 0x004, 0, [⟨13, 0, .ro, .i, 0⟩, ⟨29, 16, .ro, .i, 0⟩]⟩,
    ⟨0x050, 1, .clu, 0x004, 0, [⟨15, 0, .ro, .i, 0⟩, ⟨31, 16, .ro, .i, 0⟩]⟩,
    ⟨0x060, 1, .clu, 0x004, 0, [⟨31, 0, .rw, .t, 0⟩]⟩,
    ⟨0x064, 1, .clu, 0x004, 0, [⟨31, 0, .rw, .t, 0⟩]⟩,
    ⟨0x068, 1, .clu, 0x004, 0, [⟨31, 0, .rw, .t, 0⟩]⟩,
    ⟨0x06C, 1, .clu, 0x004, 0, [⟨31, 0, .rw, .t, 0⟩]⟩,
    ⟨0x070, 1, .clu, 0x004, 0, [⟨13, 0, .ro, .i, 0x3000⟩, ⟨29, 16, .ro, .i, 0⟩]⟩,
    ⟨0x074, 1, .clu, 0x004, 0, [⟨13, 0, .ro, .i, 0⟩, ⟨29, 16, .ro, .i, 0⟩]⟩,
    ⟨0x100, 1, .clu, 0x104, 0, [⟨3, 0, .rw, .t, 1⟩, ⟨4, 4, .rw, .t, 1⟩, ⟨31, 31, .ro, .i, 0⟩]⟩,
    ⟨0x104, 1, .clu, 0x104, 4, []⟩,
    ⟨0x108, 1, .clu, 0x104, 0, [⟨31, 0, .ro, .i, 0⟩]⟩,
    ⟨0x10C, 1, .clu, 0x104, 0, [⟨15, 0, .ro, .i, 0⟩, ⟨31, 16, .ro, .i, 0⟩]⟩,
    ⟨0x110, 1, .clu, 0x104, 0, [⟨8, 0, .ro, .i, 0⟩, ⟨31, 16, .ro, .i, 0⟩]⟩,
    ⟨0x140, 1, .clu, 0x144, 0, [⟨3, 0, .rw, .t, 1⟩, ⟨4, 4, .rw, .t, 1⟩]⟩,
    ⟨0x144, 1, .clu, 0x144, 4, []⟩,
    ⟨0x148, 1, .clu, 0x144, 0, [⟨31, 0, .ro, .i, 0⟩]⟩,
    ⟨0x14C, 1, .clu, 0x144, 0, [⟨15, 0, .ro, .i, 0⟩, ⟨31, 16, .ro, .i, 0⟩]⟩,
    ⟨0x150, 1, .clu, 0x144, 0, [⟨2, 0, .ro, .i, 0⟩, ⟨31, 16, .ro, .i, 0⟩]⟩,
    ⟨0x114, 1, .clu, 0x104, 0, [⟨8, 0, .rw, .i, 0⟩, ⟨14, 9, .rw, .i, 0⟩, ⟨19, 15, .rw, .i, 0⟩, ⟨31, 31, .rw, .i, 0⟩]⟩,
    ⟨0x154, 1, .clu, 0x144, 0, [⟨2, 0, .rw, .i, 0⟩, ⟨8, 3, .rw, .i, 0⟩, ⟨13, 9, .rw, .i, 0⟩, ⟨31, 31, .rw, .i, 0⟩]⟩ ]

/-- Registers of the per-cluster window (R239, R281, R356): VEC_CHECK_CFG, VEC_STATUS, VEC_PASSES, VEC_COUNTS, VEC_LAST, VEC_INJECT, TBL_CHECK_CFG, TBL_STATUS, TBL_ROWS, TBL_COUNTS, TBL_INJECT, STR_SEL, STR_STATE, STR_FILLS, STR_RUNDRY, STR_FAULT, STR_CREDITS, STR_CTRL, STR_STATUS. -/
def regsCluB : List RDef :=
  [ ⟨0x180, 1, .clu, 0x184, 0, [⟨0, 0, .rw, .t, 1⟩, ⟨31, 31, .ro, .i, 0⟩]⟩,
    ⟨0x184, 1, .clu, 0x184, 4, []⟩,
    ⟨0x188, 1, .clu, 0x184, 0, [⟨31, 0, .ro, .i, 0⟩]⟩,
    ⟨0x18C, 1, .clu, 0x184, 0, [⟨15, 0, .ro, .i, 0⟩, ⟨31, 16, .ro, .i, 0⟩]⟩,
    ⟨0x190, 1, .clu, 0x184, 0, [⟨2, 0, .ro, .i, 0⟩, ⟨10, 8, .ro, .i, 0⟩, ⟨11, 11, .ro, .i, 0⟩]⟩,
    ⟨0x194, 1, .clu, 0x184, 0, [⟨2, 0, .rw, .i, 0⟩, ⟨12, 8, .rw, .i, 0⟩, ⟨31, 31, .rw, .i, 0⟩]⟩,
    ⟨0x1C0, 1, .clu, 0x1C4, 0, [⟨0, 0, .rw, .t, 1⟩, ⟨31, 31, .ro, .i, 0⟩]⟩,
    ⟨0x1C4, 1, .clu, 0x1C4, 4, []⟩,
    ⟨0x1C8, 1, .clu, 0x1C4, 0, [⟨31, 0, .ro, .i, 0⟩]⟩,
    ⟨0x1CC, 1, .clu, 0x1C4, 0, [⟨15, 0, .ro, .i, 0⟩, ⟨31, 16, .ro, .i, 0⟩]⟩,
    ⟨0x1D0, 1, .clu, 0x1C4, 0, [⟨4, 0, .rw, .i, 0⟩, ⟨5, 5, .rw, .i, 0⟩, ⟨31, 31, .rw, .i, 0⟩]⟩,
    ⟨0x200, 1, .selClu, 0x21C, 0, [⟨5, 0, .rw, .i, 0⟩]⟩,
    ⟨0x204, 1, .stream, 0x21C, 0, [⟨2, 0, .ro, .i, 0⟩, ⟨3, 3, .ro, .i, 0⟩, ⟨7, 4, .ro, .i, 0⟩, ⟨16, 8, .ro, .i, 0⟩, ⟨31, 20, .ro, .i, 0⟩]⟩,
    ⟨0x208, 1, .stream, 0x21C, 0, [⟨31, 0, .ro, .i, 0⟩]⟩,
    ⟨0x20C, 1, .stream, 0x21C, 0, [⟨31, 0, .ro, .i, 0⟩]⟩,
    ⟨0x210, 1, .stream, 0x21C, 0, [⟨23, 0, .ro, .i, 0⟩]⟩,
    ⟨0x214, 1, .clu, 0x21C, 0, [⟨8, 0, .ro, .i, 0x100⟩, ⟨24, 16, .ro, .i, 0⟩]⟩,
    ⟨0x218, 1, .stream, 0x21C, 0, [⟨0, 0, .wo, .i, 0⟩]⟩,
    ⟨0x21C, 1, .clu, 0x21C, 4, []⟩ ]

/-- The registers of a window. -/
def winRegs : Win → List RDef
  | .gfe => regsGfeA ++ regsGfeB ++ regsGfeC ++ regsGfeD
  | .tbl => regsTbl
  | .mem => regsMem
  | .cxl => regsCxl
  | .fab => regsFab
  | .int => regsInt
  | .pwr => regsPwr
  | .mon => regsMon
  | .sec => regsSec
  | .clu => regsCluA ++ regsCluB

/-- The register at an image offset of a window: none at an offset that the index does not list (15 R450). -/
def regAt (w : Win) (off : Nat) : Option RDef :=
  (winRegs w).find? (fun r => decide (r.off ≤ off) && decide (off < r.off + 4 * r.n) && (off - r.off) % 4 == 0)

/-- The reset value of a register's stored fields (00 R12) (DESIGN CHOICE, log entry 6). -/
def RDef.reset (r : RDef) : Nat :=
  r.fields.foldl (fun v f => if f.acc = .rw then v + f.reset * 2 ^ f.lsb else v) 0

/-- The bits of a register's fields that satisfy a condition. -/
def RDef.mask (r : RDef) (p : RField → Bool) : Nat :=
  r.fields.foldl (fun v f => if p f then v + maskOf f.msb f.lsb else v) 0

/-- The key of a register: window, item, offset. -/
def regKey (w : Win) (item off : Nat) : Nat := (w.num * 2 ^ 40 + item) * 4096 + off

/-- The window of a key. -/
def keyWin (k : Nat) : Nat := k / 4096 / 2 ^ 40

/-- The item of a key. -/
def keyItem (k : Nat) : Nat := k / 4096 % 2 ^ 40

/-- The offset of a key. -/
def keyOff (k : Nat) : Nat := k % 4096

/-- The window with a number. -/
def winOf : Nat → Win
  | 0 => .gfe | 1 => .tbl | 2 => .mem | 3 => .cxl | 4 => .fab | 5 => .int | 6 => .pwr | 7 => .mon | 8 => .sec | _ => .clu

/-- The value that a register reads as until it is written: its Reset column; `CLU_SR_KEY_LO` resets to the cluster's
number (06 R179). -/
def regDefault (k : Nat) : BitVec 32 :=
  if keyWin k = 9 ∧ keyOff k = 0x060 then BitVec.ofNat 32 (keyItem k)
  else match regAt (winOf (keyWin k)) (keyOff k) with
    | some r => BitVec.ofNat 32 r.reset
    | none => 0

end Sys2Proof.Machine
end

