-- ==== Sys2Proof/Machine/Sparse.lean ====
section
/-! DEFINITION. Sparse maps from numbers: sorted lists of entries in one canonical form, none equal to what an unlisted
key reads as. Registers, memory bytes, channels and the other numbered things of the block are held so. -/

namespace Sys2Proof.Machine

/-- What key `k` holds, where an unlisted key holds `d k`. -/
def Sparse.get {α : Type} (d : Nat → α) : List (Nat × α) → Nat → α
  | [], k => d k
  | (x, v) :: t, k => if x = k then v else Sparse.get d t k

/-- Write `v` at key `k`: an entry equal to `d k` is left out, and the keys stay strictly rising. -/
def Sparse.put {α : Type} [DecidableEq α] (d : Nat → α) : List (Nat × α) → Nat → α → List (Nat × α)
  | [], k, v => if v = d k then [] else [(k, v)]
  | (x, w) :: t, k, v =>
    if k < x then (if v = d k then (x, w) :: t else (k, v) :: (x, w) :: t)
    else if x = k then (if v = d k then t else (k, v) :: t)
    else (x, w) :: Sparse.put d t k v

/-- Every key of the map lies above `lo`, the keys strictly rise, and no entry equals the default. -/
def Sparse.wfAbove {α : Type} [DecidableEq α] (d : Nat → α) : Option Nat → List (Nat × α) → Bool
  | _, [] => true
  | lo, (x, v) :: t =>
    (match lo with | none => true | some l => decide (l < x)) && decide (v ≠ d x) && Sparse.wfAbove d (some x) t

/-- The canonical form of a sparse map. -/
def Sparse.wf {α : Type} [DecidableEq α] (d : Nat → α) (m : List (Nat × α)) : Bool := Sparse.wfAbove d none m

/-- The entry at key `k`, if one is listed. -/
def Sparse.find? {α : Type} : List (Nat × α) → Nat → Option α
  | [], _ => none
  | (x, v) :: t, k => if x = k then some v else Sparse.find? t k

/-- List `v` at key `k`, keys rising. -/
def Sparse.insert {α : Type} : List (Nat × α) → Nat → α → List (Nat × α)
  | [], k, v => [(k, v)]
  | (x, w) :: t, k, v =>
    if k < x then (k, v) :: (x, w) :: t
    else if x = k then (k, v) :: t
    else (x, w) :: Sparse.insert t k v

/-- Remove the entry at key `k`. -/
def Sparse.erase {α : Type} : List (Nat × α) → Nat → List (Nat × α)
  | [], _ => []
  | (x, w) :: t, k => if x = k then t else (x, w) :: Sparse.erase t k

end Sys2Proof.Machine
end

