-- ==== Sys2Proof/Config.lean ====
section
/-! DEFINITION. What one module of the product fixes and what its manual leaves open: free values without a body. -/

namespace Sys2Proof

/-- A FREE VALUE: what the manual leaves open. The argument is the number of the free value, taken from
`State.freeCtr`; nothing can evaluate it, so a statement that holds of a run holds whatever the value is
(DESIGN CHOICE, log entry 4). -/
opaque Config.freeValue : Nat → BitVec 64

/-- The silicon stepping in the boot ROM, `GFE_ID.STEPPING` (15 R467): the manual gives no number
(DESIGN CHOICE, log entry 58). -/
opaque Config.stepping : BitVec 8

/-- Bytes that a cryptographic operation of 16 R497 yields (a digest, a certificate, a signature): the first
argument names the operation, the second its input. The manual gives the algorithm by reference to a standard and the
keys are the module's own, so the bytes are free (DESIGN CHOICE, log entry 40). -/
opaque Config.cryptoBytes : Nat → List Byte → List Byte

/-- The nominal value in mV of the rail that a voltage monitor watches, `MON_VOLT.NOMINAL_MV` (16 R503): the manual gives it
"per rail" without numbers (DESIGN CHOICE, log entry 58). -/
opaque Config.nominalMv : Nat → BitVec 13

/-- The logic-rail trim, in steps of half a percent counted from -6 %, that boot step 9 sets for a physical slot from its
ring-oscillator count (16 R480): the manual gives its range and its aim and no formula (DESIGN CHOICE, log entry 58). -/
opaque Config.bootTrim : Nat → Nat → BitVec 5

/-- The module's serial number as the sideband gives it, 16 ASCII bytes (17 R514) (DESIGN CHOICE, log entry 58). -/
opaque Config.serialByte : Nat → BitVec 8

/-- A retirement entry of the fault-log partition as its 16 bytes (17 R514): the first argument tells a slot (0) from a frame
(1), the second is its number. The manual gives the entry's size and no layout (DESIGN CHOICE, log entry 58). -/
opaque Config.retireEntry : Nat → Nat → List Byte

end Sys2Proof
end

