-- ==== Sys2Proof/Machine/State.lean ====
section
/-! DEFINITION. The state of the block as plain data: every register, buffer, queue and mode that the manual gives the
module, the queue of waiting commands, and the state after reset. -/

namespace Sys2Proof.Machine

/-! ## The clock and the tick (02) -/

/-- Where the running tick stands: before the host commit cutoff, before the guard band, or in it (02 R39, R43). -/
inductive TickStage where
  | early | cut | guard
  deriving DecidableEq, Repr

/-- The tick generator (02 R24 to R26) and the cycle count of 11 R336. `len` is the length of the running tick with what
a stretch (R45), a realignment (R51) or a phase correction (R50) adds. -/
structure Clock where
  tick : W64
  cyc : Nat
  now : Nat
  period : Nat
  len : Nat
  stage : TickStage
  deriving DecidableEq, Repr

/-- The states of time synchronisation, coded 0 to 3 (02 R53, R54). -/
inductive TsState where
  | free | acquiring | locked | holdover
  deriving DecidableEq, Repr

/-- Time synchronisation (02 R48 to R53): the last 8 offset samples in ns, newest first; the last 16 corrections of locked
ticks in cycles, newest first; the offset in ns by which a stretch has put the last edge off its target; the time of the
last valid sample; the Sync that waits for its Follow_Up (sequence, receipt time, correction), the receipt delay of the last
Sync, the mean path delay, and the announced masters by 8 x domain + port. -/
structure TSync where
  state : TsState
  samples : List Int
  sampleAt : Nat
  sync : Option (Nat × Int × Int)
  diff : Option Int
  path : Int
  masters : List (Nat × PtpMaster)
  discards : Nat
  goodEdges : Nat
  corrs : List Int
  lastCorr : Int
  edgeOffset : Int
  source : Option Nat
  realign : Bool
  delayReqs : Nat
  deriving DecidableEq, Repr

/-! ## The register machinery (15) -/

/-- A T-class write that waits for its edge (15 R457): the bits `mask` of register `key` take `val` at the edge that
begins tick `due`. -/
structure PendWrite where
  key : Nat
  mask : Nat
  val : Nat
  due : Nat
  deriving DecidableEq, Repr

/-- What each accessor holds of its own (15 R453): the values its last LO reads latched, by register, and its snapshots. -/
structure AccState where
  latches : List (Nat × W32)
  acct : List W32
  log : List W32
  deriving DecidableEq, Repr

/-- The registers: RW, WO and SC fields that differ from their reset values, pending writes in latch order, the two
accessors' own state, and the status registers that this step has set (15 R462). -/
structure RegFile where
  vals : List (Nat × W32)
  pend : List PendWrite
  hostAcc : AccState
  sbAcc : AccState
  raised : List Nat
  deriving DecidableEq, Repr

/-! ## Channels, contexts, commands, launches (03, 04, 05) -/

/-- The kinds of channel (03 R56). -/
inductive ChanKind where
  | host | fabric
  deriving DecidableEq, Repr

/-- Why a channel is PAUSED, coded 1 to 3 (03 R58, R93). -/
inductive PauseCause where
  | host | stale | reattach
  deriving DecidableEq, Repr

/-- The states of a channel (03 R58). -/
inductive ChanState where
  | destroyed | created | active
  | paused (cause : PauseCause)
  | orphaned | draining
  deriving DecidableEq, Repr

/-- A re-read schedule (03 R64): the cycle of the failed first read, the re-reads issued and returned, the SEQ last seen. -/
structure Reread where
  start : Nat
  issued : Nat
  returned : Nat
  lastSeq : Nat
  deriving DecidableEq, Repr

/-- A completion record in a channel's record store (12 R379). -/
inductive RecState where
  /-- Written, and no flush read issued after it has returned; `flush` is the number of the first flush read issued after
  it, 0 while there is none. -/
  | written (flush : Nat)
  /-- Not yet written. -/
  | held
  deriving DecidableEq, Repr

/-- One entry of the record store: its record number once written, its 32 bytes (04 R111), the context of its command
(03 R72), and whether `CQ_FULL` has been set for it (04 R112). -/
structure StoredRec where
  num : BitVec 32
  bytes : List Byte
  state : RecState
  ctx : Option Nat
  noted : Bool
  deriving DecidableEq, Repr

/-- The completion queue of a channel (04 R108, R112, R116; 12 R379). -/
structure ChanCq where
  next : BitVec 32
  head : BitVec 32
  store : List StoredRec
  lostCount : Nat
  lostSeq : Nat
  deriving DecidableEq, Repr

/-- The native accounting record (05 R139) and the compatibility record (05 R141) of a channel, and its activity of the
open meter window (05 R142): cycles by engine, those of stream transfers among them (11 R355), and bytes by pair. -/
structure ChanAcct where
  createTick : Nat
  balTick : Nat
  cyc : List Nat
  bytes : List Nat
  energy : Nat
  ended : Nat
  lostCyc : Nat
  queueWait : Nat
  preempts : Nat
  winCyc : List Nat
  winXfer : Nat
  winBytes : List Nat
  deriving DecidableEq, Repr

/-- What a fabric command answers to (13 R410): the source module and virtual lane of its REQUEST. -/
structure Origin where
  src : Nat
  vl : Nat
  deriving DecidableEq, Repr

/-- A slot that waits for a context, with its payload bytes, the partition that it was read under, and its origin if it came
in a REQUEST (03 R59, R74). -/
structure CtxWait where
  slot : List Byte
  payload : List Byte
  part : Nat
  origin : Option Origin
  deriving DecidableEq, Repr

/-- One of the 4,096 channels (03 R55 to R64). `extWait` is the number of positions that a slot waits for the tail to
cover, 0 if none does (R61). `ringOld` holds base and LOG2_SLOTS as they were before a write while PAUSED (R59), and `bellAt` one
more than the time of the last doorbell (R65). `ctxWait` holds a slot that waits for a context (R74). `timedOut` says that the
orphan timeout has passed (12 R381). -/
structure Chan where
  kind : ChanKind
  state : ChanState
  gen : BitVec 20
  head : BitVec 32
  tail : BitVec 32
  expSeq : BitVec 16
  ringWritten : Bool
  cqWritten : Bool
  reread : Option Reread
  extWait : Nat
  ringOld : Nat × Nat
  bellAt : Nat
  ctxWait : Option CtxWait
  openCtx : Option Nat
  stale : W32
  orphanedAt : Nat
  timedOut : Bool
  srcRange : Nat × Nat
  deriving DecidableEq, Repr

/-- A request context (03 R70 to R72) with the number of commands that have joined it. `failed` holds the status and details that its later commands inherit (04 R98). -/
structure Ctx where
  id : Nat
  chan : Nat
  deadline : Nat
  closed : Bool
  retiring : Bool
  failed : Option (Nat × Nat × Nat)
  members : Nat
  deriving DecidableEq, Repr

/-- The life of a command that has been read and has not ended. -/
inductive Phase where
  /-- Read, not issued; a cluster command waits for resolution or admission. -/
  | unissued
  /-- In resolution (09 R253). -/
  | resolving
  /-- Resolved and ready for admission (09 R253). -/
  | ready
  /-- Admitted to a cluster and not started (02 R34). -/
  | admitted (clu : Nat)
  /-- Running on a cluster. -/
  | running (clu : Nat)
  /-- A GFE command that has been issued and waits for what its rules name, since a tick. -/
  | waiting (since : Nat)
  /-- Ends with this status and these details once its fabric frames are acknowledged (04 R97). -/
  | acks (status a b : Nat)
  /-- In or after its commit phase, its flush read not returned (04 R110). `issued` says that the read is under way. -/
  | flush (clu : Nat) (issued : Bool)
  deriving DecidableEq, Repr

/-- What resolution has found for a command (09 R253, 10 R304): its indices with the owner and local row of each (none for
padding), bag offsets and weights as read, the tiles it waits for out of the cellar, the owners that have not answered with the message numbers sent to them, the partial results
that arrived by owner, the tiles held, and the tick in which its remote frames were sent. -/
structure Resolution where
  idx : List Int
  dest : List (Option (Nat × Nat))
  offs : List Nat
  wgts : List W32
  awaitTiles : List (Nat × Nat)
  awaitPeers : List (Nat × Nat)
  partials : List (Nat × List Byte)
  held : List (Nat × Nat)
  tick : Nat
  deriving DecidableEq, Repr

/-- An output tile in a shadow frame (05 R123). -/
structure Shadow where
  obj : Nat
  tile : Nat
  fid : Nat
  deriving DecidableEq, Repr

/-- What a run's device work has produced and its flip will make visible: shadow tiles, amax contributions, predicate
writes, summary values, pool slots by local row, fabric messages (destination, type, payload), bytes for host memory, and
the status and details of the command's end. -/
structure RunWork where
  shadows : List Shadow
  amax : List (Nat × W32)
  preds : List (Nat × Bool)
  sums : List W32
  remap : List (Nat × Nat)
  remote : List (Nat × Nat × List Byte)
  host : List (Nat × List Byte)
  status : Nat
  detailA : Nat
  detailB : Nat
  deriving DecidableEq, Repr

/-- One run of a repeat pair (14 R426 to R428): its cluster, and once its device work is over, its cycles, whether it had a
trigger, its status and details, and what it has produced. -/
structure PairRun where
  clu : Nat
  done : Bool
  cycles : Nat
  trigger : Bool
  status : Nat
  detailA : Nat
  detailB : Nat
  work : Option RunWork
  deriving DecidableEq, Repr

/-- The repeat rule's record of a command (14 R425 to R430): the first run's cluster and physical slot and the cause, the
runs of the pair, and the homes as they stood when the earlier run started. -/
structure RepeatPair where
  first : Nat
  slot : Nat
  cause : Nat
  run2 : Option PairRun
  run3 : Option PairRun
  view : List (Nat × Nat × Nat)
  deriving DecidableEq, Repr

/-- A command that has been read and has not ended. Commands of a channel are in the order of their numbers. `begun` says
that it has been issued once (03 R80). -/
structure Cmd where
  id : Nat
  chan : Nat
  launch : Option Nat
  pos : Nat
  ctx : Option Nat
  slot : List Byte
  payload : List Byte
  cls : Nat
  part : Nat
  accTick : Nat
  reruns : Nat
  kills : Nat
  phase : Phase
  begun : Bool
  res : Option Resolution
  more : Option RepeatPair
  deriving DecidableEq, Repr

/-- What a command carries across its runs: the generator state captured at its first run (06 R169), the scale sequences
taken (06 R156), its origin on the fabric, its last cluster, the frames acknowledged, the program block of a
`VCHAIN` as read once (08 R236), whether it has counted for a lane fault (08 R239), and the tier and cluster of the home of each
output tile at its admission (10 R302). -/
structure CmdExtra where
  cmd : Nat
  sr : Option W64
  seqs : List (Nat × Nat)
  origin : Option Origin
  lastClu : Nat
  acked : Nat
  aux : List Nat
  prog : List Byte
  faulted : Bool
  homes : List (Nat × Nat × Nat × Nat)
  deriving DecidableEq, Repr

/-- A launch in flight (03 R77 to R83). `predAt` holds for each predicate written the list position and one more than the time of
the write (08 R232). `stop` holds the position, status and details at which it was stopped. -/
structure Launch where
  id : Nat
  cmd : Nat
  chan : Nat
  list : Nat
  nextPos : Nat
  left : Nat
  bind : List Nat
  payload : List Byte
  preds : BitVec 16
  predAt : List (Nat × Nat × Nat)
  issuedAt : Nat
  stop : Option (Nat × Nat × Nat × Nat)
  degraded : Nat
  deriving DecidableEq, Repr

/-- A pending patch (03 R86): the command, the list, the time of its execution and the byte strings to write at byte offsets of
the list. -/
structure Patch where
  cmd : Nat
  list : Nat
  heldAt : Nat
  writes : List (Nat × List Byte)
  cost : Nat
  due : Nat
  staged : Bool
  deriving DecidableEq, Repr

/-- A fence object (04 R100); EXTERNAL is in the register file. -/
structure Fence where
  val : W64
  gen : BitVec 20
  deriving DecidableEq, Repr

/-- A staged `SCALE_SET` (06 R178): the command, its slots with their T, and the edge. -/
structure ScaleStage where
  cmd : Nat
  slots : List (Nat × W32)
  due : Nat
  staged : Bool
  deriving DecidableEq, Repr

/-- The global front end: commands, contexts, launches, patches, fences, those of them that have taken a value in this cycle, its
counters, by partition one more than the time of its dispatcher's last decision, the heads that have lost a victim with one
more than the time of that (05 R132), and the commands that wait to begin their resolution (09 R255). -/
structure Gfe where
  cmds : List Cmd
  extra : List CmdExtra
  ctxs : List Ctx
  launches : List Launch
  patches : List Patch
  scaleSets : List ScaleStage
  fences : List (Nat × Fence)
  touched : List Nat
  nextId : Nat
  late : Nat
  lastAdmit : List (Nat × Nat)
  losers : Nat × List Nat
  resWait : List Nat
  deriving DecidableEq, Repr

/-! ## Clusters and runs (02, 05, 14) -/

/-- The checks that a run has to pass (07 R190, R197; 08 R233). -/
inductive CheckKind where
  | array | skink | summary
  deriving DecidableEq, Repr

/-- A check of a run. For a block of the array or a group of the skink: its index, its first row and column, whether it is on
the INT32 path, its accumulators by row, and each row's check value and magnitude. For the summaries of a pass: one row with
the results of the reducer pairs, and in `cols` the pairs that the pass uses. `due` is the cycle of the run in which it is
made. -/
structure Check where
  kind : CheckKind
  index : Nat
  row0 : Nat
  col0 : Nat
  int : Bool
  rows : List (List Nat)
  cols : List Nat
  mags : List Nat
  due : Nat
  deriving DecidableEq, Repr

/-- A run on a cluster: its command, its start, its charge, the frames it reads (05 R124), whether its engine has taken its
operands, the checks to pass and passed, the rows skipped, its device work once done, and the cycle of the run in which it is
over. `commitAt` is the time at which the commit phase of a host-writing command began. -/
structure Run where
  cmd : Nat
  startNow : Nat
  budget : Nat
  charge : Nat
  reads : List Nat
  prepared : Bool
  checks : List Check
  passed : List Check
  skipped : Nat
  work : Option RunWork
  due : Nat
  commitAt : Option Nat
  deriving DecidableEq, Repr

/-- An admitted command's reservation of scratchpad frames (05 R135): the cluster it will run on, the cluster of the
scratchpad, the class and the count. -/
structure Resv where
  cmd : Nat
  on : Nat
  clu : Nat
  cls : Nat
  count : Nat
  deriving DecidableEq, Repr

/-- A logical cluster: commands admitted in order with their charges, the run, the cycles used this tick by ended
commands, the cycle from which its next run can start (02 R36), one more than the time of its stream engine's last issue (11
R334), and the counters of 02 R54 and 05 R143. -/
structure Clu where
  queue : List (Nat × Nat)
  run : Option Run
  used : Nat
  freeAt : Nat
  streamAt : Nat
  overruns : Nat
  deferrals : Nat
  timeKills : Nat
  spaceKills : Nat
  deriving DecidableEq, Repr

/-- The engine counters and captures of a cluster (07 R206, 08 R239, 09 R281). -/
structure CluCnt where
  mxaBlocks : Nat
  mxaMismatch : Nat
  mxaSkipped : Nat
  mxaLast : W32
  mvpBlocks : Nat
  mvpMismatch : Nat
  mvpSkipped : Nat
  mvpLast : W32
  vecPasses : Nat
  vecAnomalies : Nat
  vecFaultCmds : Nat
  vecLast : W32
  tblRows : Nat
  tblRowFails : Nat
  tblMismatch : Nat
  deriving DecidableEq, Repr

/-- The states of a physical slot, coded 0 to 4 (14 R432). -/
inductive SlotState where
  | disabled | serving | testResidency | suspect | retired
  deriving DecidableEq, Repr

/-- A physical slot: its state, its logical number, the times of its fault contributions and of its last pass in cycles
(14 R429, R432), whether a thermal hold is on it (16 R478) and its trim (16 R480, 14 R435). -/
structure PSlot where
  state : SlotState
  logical : Option Nat
  faults : List Nat
  lastPass : Nat
  held : Bool
  trim : Int
  deriving DecidableEq, Repr

/-! ## Scale slots (06 R173) -/

/-- A scale slot: its history, newest first, its accumulator, the number of contributions in this tick, and how many of them
were NaN or infinite. -/
structure ScaleSlot where
  hist : List W32
  acc : W32
  contrib : Nat
  bad : Nat
  deriving DecidableEq, Repr

/-! ## Memory (09, 10) -/

/-- The states of a frame (10 R298). -/
inductive FrameState where
  | free | shadow | inTransit | home | poisoned
  deriving DecidableEq, Repr

/-- A frame: its state, the object and tile it holds or will hold, the class it counts under (05 R133), and what 14 R423
and 10 R308 keep of it. -/
structure FrameRec where
  state : FrameState
  obj : Nat
  tile : Nat
  cls : Nat
  retired : Bool
  retireNext : Bool
  access : Bool
  idle : Nat
  corrected : Nat
  deriving DecidableEq, Repr

/-- The table fields of a descriptor (09 R240). -/
structure TableDesc where
  rows : Nat
  elems : Nat
  elemState : Nat
  rowState : Nat
  state : Nat
  pool : Nat
  slots : Nat
  tag : Nat
  shard : Nat
  deriving DecidableEq, Repr

/-- A remap entry of a table (09 R245): the row, its pool slot, its epoch, and the channel of its update (R280). -/
structure RemapEntry where
  row : Nat
  slot : Nat
  epoch : Nat
  chan : Nat
  deriving DecidableEq, Repr

/-- What a table's pool holds while it runs (09 R245 to R250, R279, R281): the remap, the slots that become free at the next
edge, the channel of the last update, whether a fold is issued, whether the pool folds down from FOLD_HIGH, the epoch below
which FOLD_NOW has asked for folds, and the run of ticks above FOLD_HIGH. -/
structure TableDyn where
  remap : List RemapEntry
  freeing : List Nat
  lastUpd : Nat
  folding : Bool
  draining : Bool
  foldNow : Nat
  highTicks : Nat
  deriving DecidableEq, Repr

/-- How an object's creation stands (10 R296, R316, R323): created, or waiting for its zero fill or copy by a command. -/
inductive Creation where
  | live
  | filling (cmd : Nat)
  | copying (cmd src : Nat)
  deriving DecidableEq, Repr

/-- An object (10 R293 to R297): its descriptor and its map from tiles to frames. -/
structure Obj where
  fmt : Nat
  dataTiles : Nat
  tiles : Nat
  cls : Nat
  owner : Nat
  policy : Nat
  tier : Nat
  spread : Nat
  seq : Nat
  rowBytes : Nat
  scaleObj : Nat
  table : Option (TableDesc × TableDyn)
  map : List (Nat × Nat)
  creation : Creation
  freed : Bool
  deriving DecidableEq, Repr

/-- Why a tile moves (10 R301, R303 to R310, R330; 14 R423). -/
inductive MoveKind where
  | background | command (cmd : Nat) | fetch | demote | relocate | evacuate
  deriving DecidableEq, Repr

/-- A move in progress (10 R300). `dirty` says that an aperture write has reached the source since it began, `since` when it
began, and `landed` and `landedAt` whether and when its transfer of the cellar has landed. `order` is the class, deadline and
channel of the command that caused it (R290). -/
structure Move where
  obj : Nat
  tile : Nat
  src : Nat
  dst : Nat
  kind : MoveKind
  dirty : Bool
  landed : Bool
  since : Nat
  landedAt : Nat
  order : Nat × Nat × Nat
  deriving DecidableEq, Repr

/-- A move that waits to start: for a frame, a queue slot, a condition of R303 or the write inhibit. `dst` is the frame that a
`MOVE` has reserved for it (10 R320), `order` as for a move. -/
structure MoveWant where
  obj : Nat
  tile : Nat
  tier : Nat
  spread : Nat
  kind : MoveKind
  dst : Option Nat
  order : Nat × Nat × Nat
  deriving DecidableEq, Repr

/-- A transfer of the cellar queue (10 R290): a program of a tile's frame, or a read, with the order of the command that caused
it. -/
structure CellarOp where
  obj : Nat
  tile : Nat
  fid : Nat
  program : Bool
  order : Nat × Nat × Nat
  deriving DecidableEq, Repr

/-- A stack's temperature state (10 R326, R327): the last 3 valid reports in quarters of a degree, the step 0 to 3, the
timeout, the run of filtered values above 95 degrees, the refreshes made, and the time of the last valid report. -/
structure StackRec where
  reports : List Int
  refresh2x : Bool
  derate : Nat
  timeout : Bool
  hot : Nat
  refreshes : Nat
  lastAt : Nat
  deriving DecidableEq, Repr

/-- A margining target (10 R330, R331): its applied SERVE, its run, spares and result, whether it is mapped out, and its
last refresh (R325). -/
structure TargetRec where
  serve : Bool
  margining : Bool
  spares : Nat
  errors : Nat
  done : Bool
  mappedOut : Bool
  refreshedAt : Nat
  deriving DecidableEq, Repr

/-- Placement (10): moves, waiting moves, the cellar queue and the transfers of creations that wait for a slot of it (R290), heat
counters, stacks, targets, the tick of the last scan, and whether it has moves left for the next tick (R309). -/
structure Place where
  moves : List Move
  wants : List MoveWant
  cellar : List CellarOp
  fills : List CellarOp
  heat : List (Nat × Nat)
  stackRecs : List (Nat × StackRec)
  targets : List (Nat × TargetRec)
  atticPcs : Nat
  storeChs : Nat
  cellarChs : Nat
  scanned : Nat
  scanMore : Bool
  deriving DecidableEq, Repr

/-! ## Streams (11) -/

/-- The states of a descriptor, coded 0 to 4 (11 R346). -/
inductive StrState where
  | idle | armed | dry | disarming | faulted
  deriving DecidableEq, Repr

/-- A range of fills (11 R349, R352). -/
structure StrRange where
  src : Nat
  tile : Nat
  step : Nat
  fills : Nat
  deriving DecidableEq, Repr

/-- A source tile that a fill has read: its object and tile, data, SCALE_SEQ and TILE_SCALE. -/
structure SrcTile where
  obj : Nat
  tile : Nat
  bytes : List Byte
  seq : Nat
  scale : Nat
  deriving DecidableEq, Repr

/-- A fill in progress (11 R337, R338, R345): its number, its number in its range, its shadow frames, the source tiles issued
and those read, the cycle of its first transfer, the longest first latency of its sources (R342), the SCALE_SEQ and the T it
writes, and whether it has been issued again after
a production check failure (14 R431). -/
structure StrFill where
  num : Nat
  inRange : Nat
  shadows : List Shadow
  issued : Nat
  total : Nat
  got : List SrcTile
  range : StrRange
  seq : Nat
  slotT : Nat
  startAt : Nat
  latency : Nat
  redone : Bool
  deriving DecidableEq, Repr

/-- A transfer in flight (11 R334), in the engine's issue order: its cluster and descriptor, its fill (none once it is to be
discarded), its source tile and the frame that it reads, 0 where that tile is fetched from the cellar, the time of its issue, and the time
that the cellar read took (R342). -/
structure Xfer where
  clu : Nat
  ix : Nat
  fill : Option Nat
  obj : Nat
  tile : Nat
  fid : Nat
  since : Nat
  readTime : Nat
  deriving DecidableEq, Repr

/-- A stream descriptor (11 R332 to R346): the slot, channel with its generation, and class of its arm; its range with the number
of its fills begun, and the queued range; fills committed, the captured fences, the consumed count with the one before it and
the time of its change, the fills in progress, and the fault's cause and tile. -/
structure Stream where
  state : StrState
  slot : List Byte
  chan : Nat
  gen : BitVec 20
  cls : Nat
  cur : StrRange
  curDone : Nat
  queued : Option StrRange
  landed : Nat
  l0 : Nat
  f0 : Nat
  lastC : Nat
  prevC : Nat
  lastCAt : Nat
  landedAt : Nat
  fills : List StrFill
  fault : Nat × Nat
  deriving DecidableEq, Repr

/-! ## Host attachment (12) -/

/-- The states of the host link, coded 0 to 3 (12 R373, R393). -/
inductive LinkState where
  | down | training | up | recovery
  deriving DecidableEq, Repr

/-- A posted write in the buffer of the host edge die (12 R385), with the number of its release. -/
structure Posted where
  num : Nat
  chan : Nat
  addr : Nat
  bytes : List Byte
  deriving DecidableEq, Repr

/-- A read that the module has sent to the host and that has not returned. -/
structure HostRd where
  id : HostReadId
  addr : Nat
  issued : Nat
  deriving DecidableEq, Repr

/-- The host link and its configuration space (12 R360 to R376): the trained width and speed in GT/s, the DVSEC enables,
the committed decoder's size, D3hot, bus master and MSI-X enables. -/
structure Link where
  state : LinkState
  width : Nat
  gts : Nat
  degraded : Bool
  perst : Bool
  hostStep : Bool
  cacheEn : Bool
  memEn : Bool
  hdm : Option Nat
  d3hot : Bool
  busMaster : Bool
  msixEn : Bool
  recoveries : Nat
  downs : Nat
  memActive : Bool
  deriving DecidableEq, Repr

/-- A CXL.mem access that waits for its tile to leave the cellar (12 R367): its address, its length, and the bytes of a
write. -/
structure MemAcc where
  dpa : Nat
  len : Nat
  write : Option (List Byte)
  deriving DecidableEq, Repr

/-- The rest of the host attachment: unmasked and pending vectors, posted writes, reads, round trips, the captured read
error, the buffer bytes staged by running commands and the CXL.mem accesses that wait (12 R367, R372, R385, R390, R393). -/
structure HostIf where
  unmasked : List Nat
  pendVec : List Nat
  posted : List Posted
  staged : List (Nat × Nat)
  reads : List HostRd
  rttLast : Nat
  rttMax : Nat
  rdErr : Nat × Nat × Nat
  lines : List (Nat × Nat × List Byte)
  memWait : List MemAcc
  deriving DecidableEq, Repr

/-! ## The fabric (13) -/

/-- The states of a port, coded 0 to 3 (13 R397, R414). -/
inductive PortState where
  | disabled | training | up | holddown
  deriving DecidableEq, Repr

/-- A port (13 R397, R399): its state, its FLAPS count, when it entered the state, and when it last broadcast a DISCOVER. -/
structure Port where
  state : PortState
  flaps : Nat
  since : Nat
  toldAt : Nat
  deriving DecidableEq, Repr

/-- The states of a peer cache entry (13 R402, R414). -/
inductive PeerState where
  | empty | active | failed
  deriving DecidableEq, Repr

/-- A DATA frame that the module has sent or will send; `sentAt` is its last transmission (13 R404). -/
structure TxFrame where
  psn : BitVec 32
  msgId : BitVec 32
  msgType : Nat
  frag : Nat
  nfrag : Nat
  deadline : Nat
  payload : List Byte
  isNew : Bool
  cmd : Option Nat
  sent : Bool
  sentAt : Nat
  deriving DecidableEq, Repr

/-- An entry of the peer cache (13 R402 to R406). Credits count 256-byte units; `nakAt` is the time of the NAK of the present
gap, `firstMsg` the message of the frame with NEW that the receiving flow began with, `failedAt` the time at which the peer failed. -/
structure Peer where
  state : PeerState
  nextPsn : BitVec 32
  oldest : BitVec 32
  expect : BitVec 32
  started : Bool
  creditTx : BitVec 32
  usedTx : BitVec 32
  usedRx : BitVec 32
  port : Nat
  expiries : Nat
  nakAt : Option Nat
  firstMsg : Option (BitVec 32)
  ackOwed : Bool
  failedAt : Nat
  frames : List TxFrame
  deriving DecidableEq, Repr

/-- A message in reassembly (13 R408); `since` is the time of its first frame (R401). -/
structure Reasm where
  peer : Nat
  vl : Nat
  msgId : BitVec 32
  msgType : Nat
  nfrag : Nat
  got : List (Nat × List Byte)
  deadline : Nat
  since : Nat
  deriving DecidableEq, Repr

/-- A message delivered and not yet served. -/
structure Msg where
  peer : Nat
  vl : Nat
  msgId : BitVec 32
  msgType : Nat
  deadline : Nat
  payload : List Byte
  deriving DecidableEq, Repr

/-- A message the module has sent that waits for an answer: who, which, and for which command (13 R413). -/
structure Await where
  peer : Nat
  vl : Nat
  msgId : BitVec 32
  msgType : Nat
  cmd : Nat
  deriving DecidableEq, Repr

/-- A request that the module serves for a peer: a GATHER or UPDATE by a command of a FABRIC channel (13 R411, R412). -/
structure Serve where
  peer : Nat
  vl : Nat
  msgId : BitVec 32
  cmd : Nat
  update : Bool
  payload : List Byte
  deriving DecidableEq, Repr

/-- A batch of completion records for a requester (13 R410). -/
structure Batch where
  peer : Nat
  vl : Nat
  chan : Nat
  recs : List (List Byte)
  deriving DecidableEq, Repr

/-- The fabric core (13): replies by destination and plane with their times in cycles, MAC addresses in conflict, peers,
messages, services, buffers. -/
structure Fab where
  ports : List (Nat × Port)
  replies : List (Nat × Nat × Nat)
  conflicts : List Nat
  peers : List (Nat × Peer)
  reasm : List Reasm
  inbox : List Msg
  awaits : List Await
  serves : List Serve
  batches : List Batch
  nextMsg : BitVec 32
  moduleId : Nat
  gatherChan : Nat
  updateChan : Nat
  retx : Nat
  drops : Nat × Nat
  deriving DecidableEq, Repr

/-! ## Integrity (14) -/

/-- The kinds of test in progress (14 R434, R436, R437). -/
inductive TestKind where
  | rotation | suspect | demand (cmd : Nat)
  deriving DecidableEq, Repr

/-- A residency or test: its kind, its unit (0 a cluster) and cluster, the tick of its entry, whether the drain or
evacuation is done and when residency tick 0 was. -/
structure Test where
  kind : TestKind
  unit : Nat
  clu : Nat
  entered : Nat
  drained : Bool
  zero : Nat
  margin : Bool
  length : Nat
  deriving DecidableEq, Repr

/-- Integrity (14): the residency, waiting tests, rotation, fault log, counters and captures of R445. -/
structure Integ where
  test : Option Test
  wait : List Test
  next : Nat
  skipped : Bool
  secsAt : Nat
  logBuf : List (List Byte)
  logRing : List (List Byte)
  logDropped : Nat
  retireSlots : List Nat
  retireFrames : List Nat
  boots : Nat
  ce : List Nat
  ue : Nat
  poison : Nat × Nat × Nat × Nat
  unitRes : List Nat
  deriving DecidableEq, Repr

/-- The counters of `INT_COUNTS` and `INT_ECC_UE` (14 R445) and `GFE_ID.ELIGIBLE` (15 R467). -/
structure IntCnt where
  transients : Nat
  suspects : Nat
  framesRetired : Nat
  eligible : Nat
  deriving DecidableEq, Repr

/-! ## Power, monitors, boot, trust, sideband (16, 17) -/

/-- A sampled input (16 R470): its last valid samples, newest first, its timeout, a run of filtered values, and the time of the last
valid sample. -/
structure Samples where
  vals : List Int
  timeout : Bool
  run : Nat
  lastAt : Nat
  deriving DecidableEq, Repr

/-- The supply and its limits (16 R469 to R477, R481 to R485; 05 R137, R142). Energies in pJ where named so; `gone` holds the
records of channels that were destroyed and created again in the open window. -/
structure Supply where
  vin : Samples
  iin : Samples
  inhibit : Bool
  throttleWant : Bool
  throttle : Bool
  stopping : Bool
  stopAt : Nat
  meterTimeout : Bool
  energyPj : Nat
  lastUj : Nat
  unattr : Nat
  balTick : Nat
  allow : Nat
  charged : Nat
  capEff : Nat
  eNow : Nat
  gone : List ChanAcct
  deriving DecidableEq, Repr

/-- Monitors (16 R470, R478 to R480): temperatures, voltages, process counts; the thermal step wanted and applied; the last
16 balances; domain powers. -/
structure Monitor where
  temps : List (Nat × Samples)
  volts : List (Nat × Samples)
  procs : List (Nat × Samples)
  stepWant : Nat
  step : Nat
  holdWant : List Nat
  balances : List (Nat × Nat)
  domPower : List Nat
  domOver : List Bool
  idleCal : Bool
  deriving DecidableEq, Repr

/-- An owner certificate (16 R492). -/
structure OwnerCert where
  ownerKey : List Byte
  scope : BitVec 64
  ownerSerial : BitVec 32
  vendorSig : List Byte
  vendorKey : List Byte
  deriving DecidableEq, Repr

/-- A FABRIC channel entry of the configuration image (16 R490). -/
structure FabEntry where
  chan : Nat
  part : Nat
  ceil : Nat
  srcFirst : Nat
  srcLast : Nat
  deriving DecidableEq, Repr

/-- The fields of a configuration image, and the SHA-256 of its bytes (16 R490, R498). -/
structure CfgImage where
  serial : BitVec 32
  device : BitVec 64
  enableMap : Nat
  moduleId : Nat
  capW : Nat
  svnFloor : Nat
  macPrefix : BitVec 24
  gatherChan : Nat
  updateChan : Nat
  cert : OwnerCert
  fab : List FabEntry
  signature : List Byte
  digest : List Byte
  deriving DecidableEq, Repr

/-- The security and boot core (16 R486 to R500): `cfgStored` and `fwStored` are what has been written to the partitions, `words` the
image words loaded in recovery. -/
structure Sec where
  step : Nat
  cause : Nat
  recovery : Bool
  warmResets : Nat
  warm : Bool
  fwRun : Option FwImage
  fwStored : Option (Option FwImage)
  cfg : Option CfgImage
  cfgStored : Option (Option (List Byte))
  devHash : List Byte
  idOk : Bool
  upd : Nat
  updOp : Nat
  load : Nat × Nat × Nat
  words : List W32
  boot : Option BootInputs
  deriving DecidableEq, Repr

/-- The sideband and the pins (17 R508 to R516): the clock pins, the I3C and MCTP addresses, the state of the erase (0 idle, 1
running, 2 done, 3 failed), and how far SPDM has got on each path (0 to 3). -/
structure Sideband where
  powered : Bool
  pwrgd : Bool
  refclk : Bool
  clk10m : Bool
  dynAddr : Option (BitVec 7)
  eid : BitVec 8
  erasing : Nat
  spdmDoe : Nat
  spdmMctp : Nat
  deriving DecidableEq, Repr

/-! ## Outputs -/

/-- What leaves the module at its pins. -/
inductive Output where
  /-- A posted write to host memory: a completion record or bytes of a `HOST_WRITE`. -/
  | hostWrite (addr : Nat) (bytes : List Byte)
  /-- A read or re-read of a ring position of a channel: RdCurr of its line (03 R62). -/
  | ringRead (chan : Nat) (pos : BitVec 32) (addr : Nat)
  /-- A zero-length flush read for a channel (04 R110, 12 R379). -/
  | flushRead (chan addr : Nat)
  /-- A read of a host line by CXL.cache: RdShared or RdCurr (12 R358). -/
  | lineRead (addr : Nat) (shared : Bool)
  /-- The release of a line read with RdShared (12 R358). -/
  | cleanEvict (addr : Nat)
  /-- An MSI-X message (12 R372). -/
  | msix (vector : Nat)
  /-- A CXL.mem read response: data and the Poison bit (12 R359). -/
  | memData (bytes : List Byte) (poison : Bool)
  /-- A CXL.mem completion (12 R359). -/
  | memCmp
  /-- The answer to a snoop, RspIHitI (12 R358). -/
  | rspIHitI
  /-- A JFT frame on a port: its kind, VL, flags, destination, PSN, ACK_PSN, credit, message fields and payload. -/
  | frame (port kind vl dst : Nat) (isNew reset : Bool) (psn ackPsn credit msgId : BitVec 32)
      (msgType frag nfrag deadline : Nat) (payload : List Byte)
  /-- A register read's result. -/
  | regRead (acc : Acc) (val : W32)
  /-- Bytes of a sideband response (17 R512, R513). -/
  | sideband (bytes : List Byte)
  /-- An SPDM response over a path (16 R497). -/
  | spdm (path : SpdmPath) (bytes : List Byte)
  /-- A Delay_Req of PTP on a port (02 R48). -/
  | delayReq (port : Nat)
  /-- A power-good change (17 R510). -/
  | pwrgd (level : Bool)
  /-- Lane-margining results of one lane (12 R375). -/
  | laneErrors (lane count : Nat)
  deriving DecidableEq, Repr

/-! ## The staged results of a guard band (02 R43) -/

/-- What steps 2 to 6 of the boundary work have computed, visible at the edge: slots with their T; the allowance, the cap in
quarters of a W, e, the throttle, the thermal step and the held slots; the balance with its attributions and cluster-cycles;
domain powers; the cycles by which the tick is stretched, and its correction. -/
structure Staged where
  slots : List (Nat × ScaleSlot)
  slotT : List (Nat × W32)
  allow : Nat
  capEff : Nat
  eNow : Nat
  throttle : Bool
  step : Nat
  holds : List Nat
  attrib : List (Nat × Nat)
  inUj : Nat
  unattr : Nat
  cycles : Nat
  dom : List Nat
  stretch : Nat
  corr : Int
  deriving DecidableEq, Repr

/-! ## The state -/

/-- Why the block stops. No row of the table stops it, so `exec` raises no fault; the constructor is safe. -/
inductive Fault where
  /-- Reserved for an access that the manual says does not exist. Safe: no command raises it. -/
  | noSuchAddress
  deriving DecidableEq, Repr

/-- Why a command has no meaning here. -/
inductive Refusal where
  /-- `exec`'s arm of a command that is not modelled yet. Safe: the machine stops where the hardware goes on. -/
  | notModelled (mnemonic : String)
  deriving DecidableEq, Repr

/-- The core of the state that the serving tick, the registers and the front end use. -/
structure State where
  clk : Clock
  ts : TSync
  reg : RegFile
  chans : List (Nat × Chan)
  cqs : List (Nat × ChanCq)
  accts : List (Nat × ChanAcct)
  gfe : Gfe
  clus : List (Nat × Clu)
  cnts : List (Nat × CluCnt)
  resvs : List Resv
  pslots : List (Nat × PSlot)
  scales : List (Nat × ScaleSlot)
  mem : List Host.Cell
  frames : List (Nat × FrameRec)
  objs : List (Nat × Obj)
  place : Place
  streams : List (Nat × Stream)
  xfers : List Xfer
  link : Link
  host : HostIf
  fab : Fab
  integ : Integ
  icnt : IntCnt
  sup : Supply
  mon : Monitor
  sec : Sec
  sb : Sideband
  staged : Option Staged
  out : List Output
  freeCtr : Nat
  pending : List Instr
  deriving DecidableEq, Repr

/-! ## Reset -/

/-- An accessor's own state after power-on (15 R453). -/
def AccState.init : AccState := ⟨[], [], []⟩

/-- A channel after power-on: DESTROYED, every field zero (03 R93). -/
def Chan.init : Chan :=
  { kind := .host, state := .destroyed, gen := 0, head := 0, tail := 0, expSeq := 0, ringWritten := false,
    cqWritten := false, reread := none, extWait := 0, ringOld := (0, 0), bellAt := 0, ctxWait := none, openCtx := none,
    stale := 0,
    orphanedAt := 0, timedOut := false, srcRange := (0, 0) }

/-- A completion queue after power-on (04 R116). -/
def ChanCq.init : ChanCq := ⟨0, 0, [], 0, 0⟩

/-- Accounting records of zeros (05 R139, R141). -/
def ChanAcct.init : ChanAcct :=
  ⟨0, 0, [0, 0, 0, 0, 0, 0], List.replicate 16 0, 0, 0, 0, 0, 0, [0, 0, 0, 0, 0, 0], 0, List.replicate 16 0⟩

/-- A fence after power-on (04 R100). -/
def Fence.init : Fence := ⟨0, 0⟩

/-- A cluster with nothing admitted. -/
def Clu.init : Clu := ⟨[], none, 0, 0, 0, 0, 0, 0, 0⟩

/-- Engine counters after power-on. -/
def CluCnt.init : CluCnt := ⟨0, 0, 0, 0, 0, 0, 0, 0, 0, 0, 0, 0, 0, 0, 0⟩

/-- A physical slot before the cluster step of the boot sequence (14 R432). -/
def PSlot.init : PSlot := ⟨.disabled, none, [], 0, false, 0⟩

/-- A scale slot after power-on (06 R173). -/
def ScaleSlot.init : ScaleSlot := ⟨[], 0, 0, 0⟩

/-- A FREE frame. -/
def FrameRec.init : FrameRec := ⟨.free, 0, 0, 0, false, false, false, 0, 0⟩

/-- A stack before its first report (10 R326). -/
def StackRec.init : StackRec := ⟨[], false, 0, false, 0, 0, 0⟩

/-- A serving target (10 R331). -/
def TargetRec.init : TargetRec := ⟨true, false, 0, 0, false, false, 0⟩

/-- An IDLE descriptor (11 R346). -/
def Stream.init : Stream :=
  { state := .idle, slot := [], chan := 0, gen := 0, cls := 0, cur := ⟨0, 0, 0, 0⟩, curDone := 0, queued := none, landed := 0,
    l0 := 0, f0 := 0, lastC := 0, prevC := 0, lastCAt := 0, landedAt := 0, fills := [], fault := (0, 0) }

/-- A port after power-on (13 R414: FAB_PORT_STATE resets to 0). -/
def Port.init : Port := ⟨.disabled, 0, 0, 0⟩

/-- A peer cache entry before its first frame (13 R402, R405). -/
def Peer.init : Peer :=
  { state := .empty, nextPsn := 0, oldest := 0, expect := 0, started := false, creditTx := 256, usedTx := 0,
    usedRx := 0, port := 0, expiries := 0, nakAt := none, firstMsg := none, ackOwed := false, failedAt := 0, frames := [] }

/-- An input with no sample (16 R470). -/
def Samples.init : Samples := ⟨[], false, 0, 0⟩

/-- The module right after reset: powered, at tick 0, every register at its Reset column, boot step 0, nothing booted
(16 R486; DESIGN CHOICE, log entries 1 and 6). -/
def State.reset : State :=
  { clk := { tick := 0, cyc := 0, now := 0, period := 100, len := 130000, stage := .early }
    ts := { state := .free, samples := [], sampleAt := 0, sync := none, diff := none, path := 0, masters := [], discards := 0, goodEdges := 0, corrs := [], lastCorr := 0, edgeOffset := 0,
            source := none, realign := false, delayReqs := 0 }
    reg := { vals := [], pend := [], hostAcc := AccState.init, sbAcc := AccState.init, raised := [] }
    chans := [], cqs := [], accts := []
    gfe := { cmds := [], extra := [], ctxs := [], launches := [], patches := [], scaleSets := [], fences := [], touched := [],
             nextId := 0, late := 0, lastAdmit := [], losers := (0, []), resWait := [] }
    clus := [], cnts := [], resvs := [], pslots := [], scales := [], mem := [], frames := [], objs := []
    place := { moves := [], wants := [], cellar := [], fills := [], heat := [], stackRecs := [], targets := [], atticPcs := 512,
               storeChs := 64, cellarChs := 24, scanned := 0, scanMore := false }
    streams := [], xfers := []
    link := { state := .down, width := 0, gts := 0, degraded := false, perst := true, hostStep := false,
              cacheEn := false, memEn := false, hdm := none, d3hot := false, busMaster := false, msixEn := false,
              recoveries := 0, downs := 0, memActive := false }
    host := { unmasked := [], pendVec := [], posted := [], staged := [], reads := [], rttLast := 0, rttMax := 0,
              rdErr := (0, 0, 0), lines := [], memWait := [] }
    fab := { ports := [], replies := [], conflicts := [], peers := [], reasm := [], inbox := [], awaits := [],
             serves := [], batches := [], nextMsg := 0, moduleId := 0, gatherChan := 0, updateChan := 0, retx := 0,
             drops := (0, 0) }
    integ := { test := none, wait := [], next := 0, skipped := false, secsAt := 0, logBuf := [], logRing := [],
               logDropped := 0, retireSlots := [], retireFrames := [], boots := 0, ce := [0, 0, 0, 0], ue := 0,
               poison := (0, 0, 0, 0), unitRes := [0, 0, 0, 0] }
    icnt := { transients := 0, suspects := 0, framesRetired := 0, eligible := 0 }
    sup := { vin := Samples.init, iin := Samples.init, inhibit := false, throttleWant := false, throttle := false,
             stopping := false, stopAt := 0, meterTimeout := false, energyPj := 0, lastUj := 0, unattr := 0, balTick := 0, allow := 0,
             charged := 0, capEff := 0, eNow := 9856, gone := [] }
    mon := { temps := [], volts := [], procs := [], stepWant := 0, step := 0, holdWant := [], balances := [],
             domPower := [0, 0, 0, 0, 0, 0], domOver := [false, false, false, false, false, false],
             idleCal := false }
    sec := { step := 0, cause := 0, recovery := false, warmResets := 0, warm := false, fwRun := none, fwStored := none,
             cfg := none, cfgStored := none, devHash := [], idOk := true, upd := 0, updOp := 0, load := (0, 0, 0), words := [],
             boot := none }
    sb := { powered := true, pwrgd := false, refclk := true, clk10m := false, dynAddr := none, eid := 0, erasing := 0,
            spdmDoe := 0, spdmMctp := 0 }
    staged := none
    out := []
    freeCtr := 0
    pending := [] }

end Sys2Proof.Machine
end

