-- ==== Sys2Proof/Machine/Ops.lean ====
section
/-! DEFINITION. The named operations over the state that every meaning uses: numbered things by their number, the register
store, status bits and events, the clock, bytes of memory, frames and free values. -/

namespace Sys2Proof.Machine

/-! ## Numbered things -/

/-- Channel `c`. -/
def State.chan (s : State) (c : Nat) : Chan := Sparse.get (fun _ => Chan.init) s.chans c
/-- Replace channel `c`. -/
def State.setChan (s : State) (c : Nat) (v : Chan) : State :=
  { s with chans := Sparse.put (fun _ => Chan.init) s.chans c v }
/-- The completion queue of channel `c`. -/
def State.cq (s : State) (c : Nat) : ChanCq := Sparse.get (fun _ => ChanCq.init) s.cqs c
/-- Replace the completion queue of channel `c`. -/
def State.setCq (s : State) (c : Nat) (v : ChanCq) : State :=
  { s with cqs := Sparse.put (fun _ => ChanCq.init) s.cqs c v }
/-- The accounting records of channel `c`. -/
def State.acct (s : State) (c : Nat) : ChanAcct := Sparse.get (fun _ => ChanAcct.init) s.accts c
/-- Replace the accounting records of channel `c`. -/
def State.setAcct (s : State) (c : Nat) (v : ChanAcct) : State :=
  { s with accts := Sparse.put (fun _ => ChanAcct.init) s.accts c v }
/-- Logical cluster `n`. -/
def State.clu (s : State) (n : Nat) : Clu := Sparse.get (fun _ => Clu.init) s.clus n
/-- Replace cluster `n`. -/
def State.setClu (s : State) (n : Nat) (v : Clu) : State :=
  { s with clus := Sparse.put (fun _ => Clu.init) s.clus n v }
/-- The engine counters of cluster `n`. -/
def State.cnt (s : State) (n : Nat) : CluCnt := Sparse.get (fun _ => CluCnt.init) s.cnts n
/-- Replace the engine counters of cluster `n`. -/
def State.setCnt (s : State) (n : Nat) (v : CluCnt) : State :=
  { s with cnts := Sparse.put (fun _ => CluCnt.init) s.cnts n v }
/-- Physical slot `p`. -/
def State.pslot (s : State) (p : Nat) : PSlot := Sparse.get (fun _ => PSlot.init) s.pslots p
/-- Replace physical slot `p`. -/
def State.setPslot (s : State) (p : Nat) (v : PSlot) : State :=
  { s with pslots := Sparse.put (fun _ => PSlot.init) s.pslots p v }
/-- Scale slot `n` (06 R173). -/
def State.scale (s : State) (n : Nat) : ScaleSlot := Sparse.get (fun _ => ScaleSlot.init) s.scales n
/-- Replace scale slot `n`. -/
def State.setScale (s : State) (n : Nat) (v : ScaleSlot) : State :=
  { s with scales := Sparse.put (fun _ => ScaleSlot.init) s.scales n v }
/-- Fence `n` (04 R100). -/
def State.fence (s : State) (n : Nat) : Fence := Sparse.get (fun _ => Fence.init) s.gfe.fences n
/-- Replace fence `n`. -/
def State.setFence (s : State) (n : Nat) (v : Fence) : State :=
  { s with gfe := { s.gfe with fences := Sparse.put (fun _ => Fence.init) s.gfe.fences n v } }
/-- Stream descriptor `d` of cluster `n` (11 R332). -/
def State.stream (s : State) (n d : Nat) : Stream := Sparse.get (fun _ => Stream.init) s.streams (n * 64 + d)
/-- Replace a stream descriptor. -/
def State.setStream (s : State) (n d : Nat) (v : Stream) : State :=
  { s with streams := Sparse.put (fun _ => Stream.init) s.streams (n * 64 + d) v }
/-- Frame `f`, numbered by its raw-window address (12 R362). -/
def State.frame (s : State) (f : Nat) : FrameRec := Sparse.get (fun _ => FrameRec.init) s.frames f
/-- Replace frame `f`. -/
def State.setFrame (s : State) (f : Nat) (v : FrameRec) : State :=
  { s with frames := Sparse.put (fun _ => FrameRec.init) s.frames f v }
/-- Port `p` of the fabric. -/
def State.port (s : State) (p : Nat) : Port := Sparse.get (fun _ => Port.init) s.fab.ports p
/-- Replace port `p`. -/
def State.setPort (s : State) (p : Nat) (v : Port) : State :=
  { s with fab := { s.fab with ports := Sparse.put (fun _ => Port.init) s.fab.ports p v } }
/-- Entry `e` of the peer cache, 4 x peer + VL (13 R402). -/
def State.peer (s : State) (e : Nat) : Peer := Sparse.get (fun _ => Peer.init) s.fab.peers e
/-- Replace entry `e` of the peer cache. -/
def State.setPeer (s : State) (e : Nat) (v : Peer) : State :=
  { s with fab := { s.fab with peers := Sparse.put (fun _ => Peer.init) s.fab.peers e v } }
/-- The temperature record of stack `k`. -/
def State.stack (s : State) (k : Nat) : StackRec := Sparse.get (fun _ => StackRec.init) s.place.stackRecs k
/-- Replace the temperature record of stack `k`. -/
def State.setStack (s : State) (k : Nat) (v : StackRec) : State :=
  { s with place := { s.place with stackRecs := Sparse.put (fun _ => StackRec.init) s.place.stackRecs k v } }
/-- Margining target `t`: 0 to 511 attic pseudo-channels, 512 on store-room channels (10 R331). -/
def State.target (s : State) (t : Nat) : TargetRec := Sparse.get (fun _ => TargetRec.init) s.place.targets t
/-- Replace margining target `t`. -/
def State.setTarget (s : State) (t : Nat) (v : TargetRec) : State :=
  { s with place := { s.place with targets := Sparse.put (fun _ => TargetRec.init) s.place.targets t v } }
/-- The live or freed object that handle `h` is held for. -/
def State.obj? (s : State) (h : Nat) : Option Obj := Sparse.find? s.objs h
/-- List an object under its handle. -/
def State.setObj (s : State) (h : Nat) (o : Obj) : State := { s with objs := Sparse.insert s.objs h o }
/-- Forget the object of a handle. -/
def State.dropObj (s : State) (h : Nat) : State := { s with objs := Sparse.erase s.objs h }

/-! ## Free values and outputs -/

/-- The next free value, and the state in which it is used up (DESIGN CHOICE, log entry 4). -/
def State.takeFree (s : State) : W64 × State := (Config.freeValue s.freeCtr, { s with freeCtr := s.freeCtr + 1 })

/-- Append an output. -/
def State.emit (s : State) (o : Output) : State := { s with out := s.out ++ [o] }

/-! ## The register store -/

/-- The applied value of a register's stored fields: what is stored, or the reset value. -/
def State.regGet (s : State) (w : Win) (item off : Nat) : Nat :=
  (Sparse.get regDefault s.reg.vals (regKey w item off)).toNat

/-- Store a register. -/
def State.regPut (s : State) (w : Win) (item off v : Nat) : State :=
  { s with reg := { s.reg with vals := Sparse.put regDefault s.reg.vals (regKey w item off) (BitVec.ofNat 32 v) } }

/-- The applied value of a field. -/
def State.fld (s : State) (w : Win) (item off msb lsb : Nat) : Nat := bitsOf (s.regGet w item off) msb lsb

/-- Store a field, the register's other bits unchanged. -/
def State.fldPut (s : State) (w : Win) (item off msb lsb v : Nat) : State :=
  let r := s.regGet w item off
  s.regPut w item off (r - bitsOf r msb lsb * 2 ^ lsb + (v % 2 ^ (msb + 1 - lsb)) * 2 ^ lsb)

/-! ## Events and vectors (12 R370 to R372) -/

/-- Whether MSI-X messages can leave (12 R372, R373). -/
def State.msixOpen (s : State) : Bool := s.link.msixEn && s.link.busMaster && s.link.state == .up

/-- Signal an MSI-X vector: a message, or its pending bit (12 R372). -/
def State.signalVector (s : State) (v : Nat) : State :=
  if s.msixOpen && s.host.unmasked.contains v then s.emit (.msix v)
  else if s.host.pendVec.contains v then s
  else { s with host := { s.host with pendVec := s.host.pendVec ++ [v] } }

/-- Raise event `e`: its vector is signalled if `CXL_EV_CFG.EN` is 1 (12 R370). -/
def State.raiseEvent (s : State) (e : Nat) : State :=
  if s.fld .cxl e 0x064 16 16 = 1 then s.signalVector (s.fld .cxl e 0x064 10 0) else s

/-- The event number of a bit of a status register, where it has one (12 R370, R371; 13 R414; 14 R444; 16 R502). -/
def eventOf (w : Win) (off bit : Nat) : Option Nat :=
  match w with
  | .gfe =>
    if off = 0x110 then (match bit with | 2 => some 0 | 3 => some 1 | 4 => some 2 | _ => none)
    else if off = 0x22C then (if bit = 1 then some 3 else none)
    else if off = 0x298 then (match bit with | 1 => some 4 | 2 => some 5 | _ => none)
    else if off = 0x518 then (if bit = 1 then some 6 else none)
    else none
  | .clu => if off = 0x21C ∧ bit = 1 then some 7 else none
  | .mem => if bit = 4 then some 18 else none
  | .cxl => match bit with
    | 2 => some 32 | 3 => some 33 | 4 => some 34 | 5 => some 36 | 6 => some 36 | 7 => some 35 | 8 => some 35
    | 9 => some 36 | _ => none
  | .fab => match bit with
    | 1 => some 128 | 2 => some 129 | 3 => some 130 | 4 => some 131 | 5 => some 132 | 6 => some 133 | _ => none
  | .int => match bit with
    | 1 => some 64 | 2 => some 65 | 3 => some 66 | 4 => some 69 | 5 => some 71 | 6 => some 72 | 7 => some 73 | _ => none
  | .pwr => match bit with
    | 1 => some 192 | 2 => some 194 | 3 => some 197 | 4 => some 196 | 5 => some 195 | _ => none
  | .mon => match bit with
    | 1 => some 198 | 2 => some 199 | 3 => some 200 | 4 => some 201 | _ => none
  | .sec => match bit with
    | 2 => some 205 | 3 => some 202 | 4 => some 203 | _ => none
  | .tbl => none

/-- Set event bits `bits` of a status register (15 R462): SEQ increases once in a step, however many bits are set. -/
def State.statusSet (s : State) (w : Win) (item off bits : Nat) : State :=
  if bits = 0 then s else
  let k := regKey w item off
  let r := s.regGet w item off
  let seq := if s.reg.raised.contains k then r >>> 24 else (r >>> 24 + 1) % 256
  let s1 := s.regPut w item off (seq * 2 ^ 24 + (r % 2 ^ 24 ||| bits))
  if s.reg.raised.contains k then s1 else { s1 with reg := { s1.reg with raised := s1.reg.raised ++ [k] } }

/-- Raise the events of the bits of a status register. -/
def State.statusEvents (s : State) (w : Win) (off bits : Nat) : List Nat → State
  | [] => s
  | b :: t =>
    let s1 := if bits.testBit b then (match eventOf w off b with | some e => s.raiseEvent e | none => s) else s
    State.statusEvents s1 w off bits t

/-- Set one event bit of a status register and raise its event (15 R462, 12 R370). -/
def State.raise (s : State) (w : Win) (item off bit : Nat) : State :=
  State.statusEvents (s.statusSet w item off (2 ^ bit)) w off (2 ^ bit) [bit]

/-- End a step: the status registers may be set anew in the next one (15 R462). -/
def State.endStep (s : State) : State := { s with reg := { s.reg with raised := [] } }

/-- A command's effect as the outcome of its step (DESIGN CHOICE, log entry 2). -/
def done (s : State) : Host.Outcome State Fault Refusal := .next s.endStep

/-! ## The clock (02) -/

/-- The guard band starts at cycle G = 1,274 x P of a tick of period P (02 R25). -/
def gOf (period : Nat) : Nat := 1274 * period

/-- The first cycle of the guard band of the running tick. -/
def State.G (s : State) : Nat := gOf s.clk.period

/-- log2 of the stamp granule of a period (02 R26). -/
def granShift (period : Nat) : Nat :=
  if 1300 * period ≤ 131072 then 0 else if 1300 * period ≤ 262144 then 1 else if 1300 * period ≤ 524288 then 2
  else if 1300 * period ≤ 1048576 then 3 else if 1300 * period ≤ 2097152 then 4 else 5

/-- The stamp of a cycle of the running tick, held at 131,071 (02 R26). -/
def State.stampAt (s : State) (c : Nat) : Nat := min (c / 2 ^ granShift s.clk.period) 131071

/-- The current stamp. -/
def State.stamp (s : State) : Nat := s.stampAt s.clk.cyc

/-- The tick number as a number. -/
def State.tickN (s : State) : Nat := s.clk.tick.toNat

/-- The edge at which a T-class write or patch latched now applies: the next, or the one after it in the guard band
(02 R42). -/
def State.applyTick (s : State) : Nat := if s.clk.cyc < s.G then s.tickN + 1 else s.tickN + 2

/-- Move the clock to cycle `c` of the running tick. -/
def State.clockTo (s : State) (c : Nat) : State :=
  { s with clk := { s.clk with cyc := c, now := s.clk.now + (c - s.clk.cyc) } }

/-- Cycles of a second of the arithmetic clock, 1.3 GHz (02 R25). -/
def secCycles : Nat := 1300000000

/-- Cycles of a millisecond. -/
def msCycles : Nat := 1300000

/-- `n` cycles have passed since a time (DESIGN CHOICE, log entry 10: a timer's row acts from this cycle on). -/
def State.passed (s : State) (since n : Nat) : Bool := decide (since + n ≤ s.clk.now)

/-! ## Bytes of memory -/

/-- A byte that nothing has written reads 0 (DESIGN CHOICE, log entry 7). -/
def memDefault : Nat → Byte := fun _ => 0

/-- The byte at an address: a raw-window address (12 R362), or one of the side-band store (DESIGN CHOICE, log entry 7). -/
def State.byte (s : State) (a : Nat) : Byte := Sparse.get memDefault s.mem a

/-- Write one byte. -/
def State.putByte (s : State) (a : Nat) (b : Byte) : State := { s with mem := Sparse.put memDefault s.mem a b }

/-- The cells of a memory from an address on. -/
def cellsFrom (a : Nat) : List Host.Cell → List Host.Cell
  | [] => []
  | (k, v) :: t => if k < a then cellsFrom a t else (k, v) :: t

/-- `n` bytes of a memory from an address on. -/
def memSlice : List Host.Cell → Nat → Nat → List Byte
  | _, _, 0 => []
  | m, a, n + 1 =>
    match cellsFrom a m with
    | [] => 0 :: memSlice [] (a + 1) n
    | (k, v) :: t => if k = a then v :: memSlice t (a + 1) n else 0 :: memSlice ((k, v) :: t) (a + 1) n

/-- Bytes from an address on. -/
def State.bytesAt (s : State) (a n : Nat) : List Byte := memSlice s.mem a n

/-- Bytes as cells from an address on; bytes of 0 need no cell. -/
def byteCells (a : Nat) : List Byte → List Host.Cell
  | [] => []
  | b :: t => if b = 0 then byteCells (a + 1) t else (a, b) :: byteCells (a + 1) t

/-- Write bytes into a memory from address `a` on; `e` is the address after the last. -/
def memPut (a e : Nat) (bs : List Byte) : List Host.Cell → List Host.Cell
  | [] => byteCells a bs
  | (k, v) :: t => if k < a then (k, v) :: memPut a e bs t else byteCells a bs ++ cellsFrom e ((k, v) :: t)

/-- Write bytes into a memory from an address on. -/
def memWrite (m : List Host.Cell) (a : Nat) (bs : List Byte) : List Host.Cell := memPut a (a + bs.length) bs m

/-- Write bytes from an address on. -/
def State.writeBytes (s : State) (a : Nat) (bs : List Byte) : State := { s with mem := memWrite s.mem a bs }

/-- The canonical form of the memory. -/
def Memory.wf (m : List Host.Cell) : Bool := Sparse.wf memDefault m

/-! ## Frames (10 R283 to R291, 12 R362, R363) -/

/-- The number of the first frame of the raw cellar window. -/
def cellarBase : Nat := 0x40000000
/-- The number of the first frame of the raw attic window. -/
def atticBase : Nat := 0x140000000
/-- The number of the first frame of the raw store-room window. -/
def storeBase : Nat := 0x143000000
/-- The number of the first frame of the raw scratchpad window. -/
def scratchBase : Nat := 0x144000000
/-- Frames of one scratchpad (10 R282). -/
def scratchFrames : Nat := 12288

/-- The address of a frame's first data byte. -/
def frameData (f : Nat) : Nat := f * 4096

/-- The address of a frame's header in the side-band store: beyond every DPA, 512 bytes a frame, laid out as the side-band
view (12 R366). -/
def frameHdr (f : Nat) : Nat := 0x1000000000000 + f * 512

/-- The address of a frame's row-check array. -/
def frameRows (f : Nat) : Nat := frameHdr f + 256

/-- The tier of a frame: 0 scratchpad, 1 attic, 2 store room, 3 cellar (10 R312). -/
def tierOf (f : Nat) : Nat :=
  if scratchBase ≤ f then 0 else if storeBase ≤ f then 2 else if atticBase ≤ f then 1 else 3

/-- The cluster of a scratchpad frame. -/
def cluOf (f : Nat) : Nat := (f - scratchBase) / scratchFrames

/-- The frames of a tier that are in service, as a first number and a count (10 R285, R289, R291). -/
def State.tierRange (s : State) (tier : Nat) : Nat × Nat :=
  match tier with
  | 1 => (atticBase, s.place.atticPcs * 98304)
  | 2 => (storeBase, s.place.storeChs * 262144)
  | _ => (cellarBase, 4294967296 / 24 * s.place.cellarChs + (if s.place.cellarChs = 24 then 4294967296 % 24 else 0))

/-- The frames of cluster `n`'s scratchpad. -/
def scratchRange (n : Nat) : Nat × Nat := (scratchBase + n * scratchFrames, scratchFrames)

/-- A frame can be allocated: FREE and not retired (10 R298, 14 R423). -/
def FrameRec.usable (r : FrameRec) : Bool := r.state == .free && !r.retired

/-- At most `n` frames from `lo` up to `hi` that the sorted record of frames does not show in use. -/
def freeIn : List (Nat × FrameRec) → Nat → Nat → Nat → List Nat
  | [], lo, hi, n => List.range' lo (min n (hi - lo))
  | (k, r) :: t, lo, hi, n =>
    if k < lo then freeIn t lo hi n
    else if hi ≤ k then List.range' lo (min n (hi - lo))
    else
      let g := List.range' lo (min n (k - lo))
      let g' := if r.usable ∧ g.length < n then g ++ [k] else g
      g' ++ freeIn t (k + 1) hi (n - g'.length)

/-- How many frames from `lo` up to `hi` have a property that an unlisted frame has not. -/
def countIn (p : FrameRec → Bool) : List (Nat × FrameRec) → Nat → Nat → Nat
  | [], _, _ => 0
  | (k, r) :: t, lo, hi => (if lo ≤ k ∧ k < hi ∧ p r = true then 1 else 0) + countIn p t lo hi

/-- How many frames of a range can be allocated. -/
def State.freeCount (s : State) (rg : Nat × Nat) : Nat :=
  rg.2 - countIn (fun r => !r.usable) s.frames rg.1 (rg.1 + rg.2)

/-- The `i`-th target from number `b` up to `e`, counted over those in service (10 R285, R289). -/
def State.nthTarget (s : State) (b e i : Nat) : Nat :=
  s.place.targets.foldl (fun k x => if x.2.mappedOut = true ∧ b ≤ x.1 ∧ x.1 < e ∧ x.1 ≤ k then k + 1 else k) (b + i)

/-- The margining target of an attic or store-room frame (10 R285, R289, R330). -/
def State.targetOf (s : State) (f : Nat) : Nat :=
  if tierOf f = 1 then s.nthTarget 0 512 ((f - atticBase) % s.place.atticPcs)
  else s.nthTarget 512 576 ((f - storeBase) % s.place.storeChs)

/-- Whether a frame's target serves (10 R330). -/
def State.servingFrame (s : State) (f : Nat) : Bool :=
  if tierOf f = 1 ∨ tierOf f = 2 then
    s.place.targets.all (fun x => x.2.serve || (x.1 != s.targetOf f))
  else true

/-- `n` free frames of a range, skipping targets that do not serve; fewer if there are fewer. The manual leaves open which
free frames are taken: the model takes the lowest (DESIGN CHOICE, log entry 8). -/
def State.pickFree (s : State) (rg : Nat × Nat) (n : Nat) : List Nat :=
  if s.place.targets.all (fun x => x.2.serve) then freeIn s.frames rg.1 (rg.1 + rg.2) n
  else ((freeIn s.frames rg.1 (rg.1 + rg.2) (n * 2 + 98304 * 4)).filter s.servingFrame).take n

/-- The lowest frame that can be allocated and is not in `taken` on the `c`-th pseudo-channel in service (10 R285). -/
def State.freeOnChan (s : State) (c : Nat) (taken : List Nat) : Option Nat :=
  let k := s.place.atticPcs
  let mine := fun (f : Nat) => decide (atticBase ≤ f) && decide (f < atticBase + k * 98304) && (f - atticBase) % k == c
  let used := (s.frames.filter (fun x => mine x.1 && !x.2.usable)).map Prod.fst ++ taken.filter mine
  if s.servingFrame (atticBase + c) then
    ((upTo (min 98304 (used.length + 1))).map (fun p => atticBase + p * k + c)).find? (fun f => !used.contains f)
  else none

/-- `n` attic frames, round-robin over the pseudo-channels in service from the `c`-th on, each the lowest that is free there
(10 R285). -/
def State.pickRound (s : State) : Nat → Nat → List Nat → List Nat
  | 0, _, _ => []
  | n + 1, c, taken =>
    let k := s.place.atticPcs
    match (upTo k).findSome? (fun i => s.freeOnChan ((c + i) % k) taken) with
    | none => []
    | some f => f :: State.pickRound s n ((f - atticBase) % k + 1) (f :: taken)

/-- Each number of a list is one more than the one before. -/
def inRow : List Nat → Bool
  | [] => true
  | [_] => true
  | a :: b :: t => b == a + 1 && inRow (b :: t)

/-! ## Objects (10 R293 to R297) -/

/-- The live object of a handle: created and not freed (10 R296, R318). -/
def State.liveObj (s : State) (h : Nat) : Option Obj :=
  match s.obj? h with
  | some o => if o.creation = .live ∧ o.freed = false then some o else none
  | none => none

/-- The home frame of a tile of an object, whether the handle is live or freed (10 R297). -/
def State.homeOf (s : State) (h tile : Nat) : Option Nat :=
  match s.obj? h with
  | some o => Sparse.find? o.map tile
  | none => none

/-- Name a frame the home of a tile. -/
def State.setHome (s : State) (h tile f : Nat) : State :=
  match s.obj? h with
  | some o => s.setObj h { o with map := Sparse.insert o.map tile f }
  | none => s

/-- Whether clusters number `n` is enabled: below the count that boot step 10 sets (01 R17). -/
def State.cluSlot (s : State) (n : Nat) : Option Nat :=
  (s.pslots.find? (fun x => x.2.logical == some n)).map Prod.fst

/-- The count of enabled clusters, `GFE_ID.CLUSTERS` (15 R467). -/
def State.nClus (s : State) : Nat := (s.pslots.filter (fun x => x.2.logical.isSome)).length

/-- The state of logical cluster `n`. -/
def State.cluState (s : State) (n : Nat) : SlotState :=
  match s.cluSlot n with | some p => (s.pslot p).state | none => .disabled

/-- A cluster receives commands: SERVING, and not held for heat (05 R118, 16 R478). -/
def State.serving (s : State) (n : Nat) : Bool :=
  match s.cluSlot n with | some p => (s.pslot p).state == .serving && !(s.pslot p).held | none => false

/-- The module is powered and not stopped: it acts on what arrives (17 R510, 16 R475) (DESIGN CHOICE, log entry 3). -/
def State.on (s : State) : Bool := s.sb.powered

/-- The register windows other than SEC serve accesses: powered and not in recovery (16 R489). -/
def State.served (s : State) : Bool := s.sb.powered && !s.sec.recovery

/-- The control cores run: not in recovery and no warm reset in progress (16 R489, R500). -/
def State.coresRun (s : State) : Bool := s.sb.powered && !s.sec.recovery && !s.sec.warm

/-! ## Commands by number -/

/-- The command with a number. -/
def State.cmd? (s : State) (id : Nat) : Option Cmd := s.gfe.cmds.find? (fun c => c.id == id)

/-- Replace a command's record. -/
def State.setCmd (s : State) (c : Cmd) : State :=
  { s with gfe := { s.gfe with cmds := s.gfe.cmds.map (fun d => if d.id = c.id then c else d) } }

/-- Forget a command, with the request that it serves and the answers that it waits for. -/
def State.dropCmd (s : State) (id : Nat) : State :=
  { s with gfe := { s.gfe with cmds := s.gfe.cmds.filter (fun d => d.id != id),
                               extra := s.gfe.extra.filter (fun d => d.cmd != id),
                               resWait := s.gfe.resWait.filter (fun k => k != id) },
           fab := { s.fab with serves := s.fab.serves.filter (fun v => v.cmd != id),
                               awaits := s.fab.awaits.filter (fun w => w.cmd != id) } }

/-- What a command carries across its runs. -/
def State.extra (s : State) (id : Nat) : CmdExtra :=
  match s.gfe.extra.find? (fun e => e.cmd == id) with
  | some e => e
  | none => ⟨id, none, [], none, 255, 0, [], [], false, []⟩

/-- Replace what a command carries across its runs. -/
def State.setExtra (s : State) (e : CmdExtra) : State :=
  { s with gfe := { s.gfe with extra := e :: s.gfe.extra.filter (fun d => d.cmd != e.cmd) } }

/-- The launch with a number. -/
def State.launch? (s : State) (l : Nat) : Option Launch := s.gfe.launches.find? (fun x => x.id == l)

/-- Replace a launch's record. -/
def State.setLaunch (s : State) (l : Launch) : State :=
  { s with gfe := { s.gfe with launches := s.gfe.launches.map (fun d => if d.id = l.id then l else d) } }

/-- The context with a number. -/
def State.ctx? (s : State) (i : Nat) : Option Ctx := s.gfe.ctxs.find? (fun x => x.id == i)

/-- Replace a context's record. -/
def State.setCtx (s : State) (x : Ctx) : State :=
  { s with gfe := { s.gfe with ctxs := s.gfe.ctxs.map (fun d => if d.id = x.id then x else d) } }

end Sys2Proof.Machine
end

