-- ==== Sys2Proof/Machine/Flags.lean ====
section
/-! DEFINITION. What decides whether a register write is ignored and how it is noted: the accessor's selection, the
WRITE_IGNORED bit, and the outcome of the comparisons that predicates and status bits are made from. -/

namespace Sys2Proof.Machine

/-- The item under which an accessor's select registers are kept (15 R453). -/
def accNum : Acc → Nat
  | .host => 0
  | .sideband => 1

/-- A field of a select register of an accessor. -/
def State.selected (s : State) (a : Acc) (w : Win) (off msb lsb : Nat) : Nat := s.fld w (accNum a) off msb lsb

/-- The channel that an accessor has selected (03 R56). -/
def State.selChan (s : State) (a : Acc) : Nat := s.selected a .gfe 0x200 11 0

/-- The fence that an accessor has selected (04 R116). -/
def State.selFence (s : State) (a : Acc) : Nat := s.selected a .gfe 0x280 11 0

/-- Set WRITE_IGNORED, bit 0, of a status register (15 R456). -/
def State.ignored (s : State) (w : Win) (item off : Nat) : State := s.raise w item off 0

/-- A channel write was ignored (03 R93). -/
def State.chanIgnored (s : State) (c : Nat) : State := s.ignored .gfe c 0x22C

end Sys2Proof.Machine
end

