-- ==== Sys2Proof/Machine/Net.lean ====
section
/-! DEFINITION. Sending on the fabric: usable ports, frames, credits and messages (13 R399 to R408). -/

namespace Sys2Proof.Machine

/-- A lower number is served first: class, deadline, rotation rank (02 R46, R47). -/
def before3 (a b : Nat × Nat × Nat) : Bool :=
  decide (a.1 < b.1) || (a.1 == b.1 && (decide (a.2.1 < b.2.1) || (a.2.1 == b.2.1 && decide (a.2.2 < b.2.2))))

/-- The rotation rank of party `i` of `p` in the running tick (02 R47). -/
def State.rank (s : State) (i p : Nat) : Nat := (i + p - s.tickN % p) % p

/-- The ports that a frame to destination `d` may use, rising (13 R399). -/
def State.usable (s : State) (d : Nat) : List Nat :=
  (upTo 8).filter (fun p =>
    (s.port p).state == .up &&
    (if s.fld .fab 0 0x000 1 1 = 1 then (s.fld .fab d 0x094 7 0).testBit p
     else s.fab.replies.any (fun r => r.1 == d && r.2.1 == p)))

/-- The port of a frame to `d` on lane `v`: U[(4d + v) mod |U|] (13 R399). -/
def State.portFor (s : State) (d v : Nat) : Option Nat :=
  let u := s.usable d
  if u.isEmpty then none else some (listGet 0 u ((4 * d + v) % u.length))

/-- The index of a flow's entry in the peer cache (13 R402). -/
def peerIx (d v : Nat) : Nat := 4 * d + v

/-- Payload units of 256 bytes, rounded up (13 R405). -/
def units (n : Nat) : Nat := ceilDiv n 256

/-- Bytes in the receive buffer: in reassembly, or delivered and not consumed (13 R405). -/
def State.rxBytes (s : State) : Nat :=
  (s.fab.reasm.map (fun r => (r.got.map (fun g => g.2.length)).foldl (· + ·) 0)).foldl (· + ·) 0 +
  (s.fab.inbox.map (fun m => m.payload.length)).foldl (· + ·) 0

/-- Unacknowledged bytes in the retransmit buffer (13 R405). -/
def State.txBytes (s : State) : Nat :=
  (s.fab.peers.map (fun p => ((p.2.frames.filter (·.sent)).map (fun f => f.payload.length)).foldl (· + ·) 0)).foldl (· + ·) 0

/-- The credit limit granted to the peer's flow (13 R405). -/
def State.grant (s : State) (e : Peer) : BitVec 32 :=
  let w := if s.rxBytes * 2 < 32 * 2 ^ 20 then s.fld .fab 0 0x014 31 16 * 4 else 256
  e.usedRx + BitVec.ofNat 32 w

/-- A test of the fabric engine is in progress: new messages are held (14 R438). -/
def State.fabTest (s : State) : Bool := match s.integ.test with | some t => t.unit == 3 | none => false

/-- Frames may be sent and accepted: the fabric is enabled, and a test of its engine has not passed its drain (13 R414; 14
R438). -/
def State.fabLive (s : State) : Bool :=
  s.fld .fab 0 0x000 0 0 == 1 && !(match s.integ.test with | some t => t.unit == 3 && t.drained | none => false)

/-- New messages may leave: the fabric is enabled and not under test (13 R414; 14 R438). -/
def State.fabOpen (s : State) : Bool := s.fld .fab 0 0x000 0 0 == 1 && !s.fabTest

/-- Emit a JFT frame that is not DATA: ACK 1, NAK 2, DISCOVER 3, DISCOVER_REPLY 4 (13 R400). -/
def State.sendCtl (s : State) (port kind vl dst : Nat) (reset : Bool) (payload : List Byte) : State :=
  let e := s.peer (peerIx dst vl)
  s.emit (.frame port kind vl dst false reset 0 e.expect (s.grant e) 0 0 0 0 0 payload)

/-- Emit a DATA frame of a flow on a port. -/
def State.sendData (s : State) (port dst vl : Nat) (f : TxFrame) : State :=
  let e := s.peer (peerIx dst vl)
  s.emit (.frame port 0 vl dst f.isNew false f.psn e.expect (s.grant e) f.msgId f.msgType f.frag f.nfrag
    (f.deadline - s.tickN) f.payload)

/-- The waiting frames of a flow that its credit and the retransmit buffer let leave now (13 R405). -/
def sendable (now limit used room : Nat) : List TxFrame → List TxFrame
  | [] => []
  | f :: t =>
    if f.sent then f :: sendable now limit used room t
    else if used + units f.payload.length ≤ limit ∧ f.payload.length ≤ room then
      { f with sent := true, sentAt := now } :: sendable now limit (used + units f.payload.length) (room - f.payload.length) t
    else f :: t

/-- Send what a flow may send now (13 R405). -/
def State.pumpFlow (s : State) (dst vl : Nat) : State :=
  let e := s.peer (peerIx dst vl)
  match s.portFor dst vl with
  | none => s
  | some p =>
    if !s.fabOpen || e.state != .active then s else
    let gap := (e.creditTx - e.usedTx).toNat
    let fs := sendable s.clk.now gap 0 (32 * 2 ^ 20 - s.txBytes) e.frames
    let new := (fs.zip e.frames).filter (fun x => x.1.sent && !x.2.sent)
    let used := (new.map (fun x => units x.1.payload.length)).foldl (· + ·) 0
    let s1 := s.setPeer (peerIx dst vl)
      { e with frames := fs, usedTx := e.usedTx + BitVec.ofNat 32 used, port := p, ackOwed := e.ackOwed && new.isEmpty }
    (new.map Prod.fst).foldl (fun t f => t.sendData p dst vl f) s1

/-- The order of a frame at its port's egress, with its flow for DATA (13 R407; 02 R46, R47): ACK, NAK and DISCOVER frames, then DATA
in lane order, by deadline, and by the rotation rank of the destination. Another output keeps its place before the frames. -/
def State.egressKey (s : State) : Output → Option Nat × Nat × Nat × Nat
  | .frame _ kind vl dst _ _ _ _ _ _ _ _ _ dl _ => if kind = 0 then (some (peerIx dst vl), vl + 1, dl, s.rank dst 16384) else (none, 0, 0, 0)
  | _ => (none, 0, 0, 0)

/-- Outputs of one cycle with their places at the egress: a flow's frames leave in PSN order (13 R404, R407), so one that follows a
frame of a later deadline waits for it. `seen` is the latest deadline of each flow so far. -/
def State.egressKeys (s : State) : List (Nat × Nat) → List Output → List ((Nat × Nat × Nat) × Output)
  | _, [] => []
  | seen, o :: t =>
    match s.egressKey o with
    | (none, k) => (k, o) :: State.egressKeys s seen t
    | (some i, vl, dl, r) =>
      let late := match seen.find? (fun x => x.1 == i) with | some x => max dl x.2 | none => dl
      ((vl, late, r), o) :: State.egressKeys s ((i, late) :: seen) t

/-- What `t` has sent since `s`, in this cycle, leaves in the order of the ports' egress (13 R407). -/
def State.egress (s t : State) : State :=
  { t with out := s.out ++ (sortBy (fun a b => !before3 b.1 a.1) (s.egressKeys [] (t.out.drop s.out.length))).map Prod.snd }

/-- The flows of the peer cache as they come to the egress: by lane, the deadline of the first frame that waits, and rank (13
R407). -/
def State.flowOrder (s : State) : List Nat :=
  let key := fun (x : Nat × Peer) =>
    (x.1 % 4, (match x.2.frames.find? (fun f => !f.sent) with | some f => f.deadline | none => 0), s.rank (x.1 / 4) 16384)
  (sortBy (fun a b => !before3 (key b) (key a)) s.fab.peers).map Prod.fst

/-- Send what all flows may send now (13 R405, R407). -/
def State.pumpAll (s : State) : State :=
  s.egress (s.flowOrder.foldl (fun t k => t.pumpFlow (k / 4) (k % 4)) s)

/-- Frames are transmitted again: the timer counts from the oldest (13 R404). -/
def resent (now : Nat) (fs : List TxFrame) : List TxFrame := fs.map (fun f => if f.sent then { f with sentAt := now } else f)

/-- Send again every unacknowledged frame of a flow, from the oldest (13 R404). -/
def State.resendFlow (s : State) (dst vl : Nat) : State :=
  let e := s.peer (peerIx dst vl)
  match s.portFor dst vl with
  | none => s
  | some p =>
    let out := e.frames.filter (·.sent)
    if out.isEmpty || !s.fabLive then s else
    let s1 := s.setPeer (peerIx dst vl) { e with port := p, frames := resent s.clk.now e.frames }
    let s2 := { s1 with fab := { s1.fab with retx := satAdd 32 s1.fab.retx out.length } }
    out.foldl (fun t f => t.sendData p dst vl f) s2

/-- The frames of a message (13 R408): payload pieces of at most 8,192 bytes. -/
def fragments (psn : BitVec 32) (msgId : BitVec 32) (ty dl : Nat) (first : Bool) (cmd : Option Nat) (ps : List (List Byte)) :
    List TxFrame :=
  (indexed 0 ps).map (fun x =>
    { psn := psn + BitVec.ofNat 32 x.1, msgId := msgId, msgType := ty, frag := x.1, nfrag := ps.length - 1, deadline := dl,
      payload := x.2, isNew := first && x.1 == 0, cmd := cmd, sent := false, sentAt := 0 })

/-- The pieces of a payload: one, empty, if there is nothing. -/
def pieces (payload : List Byte) : List (List Byte) :=
  if payload.isEmpty then [[]] else chunks' 8192 (payload.length / 8192 + 1) payload
where
  /-- Runs of `n` bytes, with fuel. -/
  chunks' (n : Nat) : Nat → List Byte → List (List Byte)
    | 0, _ => []
    | _ + 1, [] => []
    | k + 1, b :: t => (b :: t).take n :: chunks' n k ((b :: t).drop n)

/-- A peer whose entries are FAILED (13 R406). -/
def State.peerFailed (s : State) (dst : Nat) : Bool := (s.peer (peerIx dst 0)).state == .failed

/-- Queue one message of at most 64 frames on a flow and send what may leave. The message number is the second result. -/
def State.sendMsg (s : State) (dst vl ty dl : Nat) (payload : List Byte) (cmd : Option Nat) : State × BitVec 32 :=
  let id := s.fab.nextMsg
  let e := s.peer (peerIx dst vl)
  let ps := pieces payload
  let fs := fragments e.nextPsn id ty dl (!e.started) cmd ps
  let e1 := { e with state := .active, started := true, nextPsn := e.nextPsn + BitVec.ofNat 32 ps.length,
                     frames := e.frames ++ fs }
  let s1 := { s with fab := { s.fab with nextMsg := id + 1 } }
  ((s1.setPeer (peerIx dst vl) e1).pumpFlow dst vl, id)

/-- Refuse a message of a peer (13 R408, R413). -/
def State.refuseMsg (s : State) (src vl reason msgId : Nat) : State :=
  let s1 := { s with fab := { s.fab with drops := (s.fab.drops.1, satAdd 16 s.fab.drops.2 1) } }
  let s2 := if s1.peerFailed src then s1
    else (s1.sendMsg src vl 6 s1.tickN (leBytes 1 reason ++ zeros 3 ++ leBytes 4 msgId) none).1
  s2.raise .fab 0 0x080 5

/-- Send the records of a batch to its requester in one RESPONSE without result bytes (13 R408, R410). -/
def State.sendBatch (s : State) (b : Batch) : State :=
  if b.recs.isEmpty || s.peerFailed b.peer then s
  else (s.sendMsg b.peer b.vl 1 s.tickN
    (leBytes 2 b.chan ++ leBytes 2 b.recs.length ++ leBytes 8 0 ++ leBytes 4 0 ++ b.recs.flatten) none).1

/-- Add a completion record to its requester's batch; a full batch of 64 is sent (13 R410). -/
def State.batchRecord (s : State) (o : Origin) (chan : Nat) (rec : List Byte) : State :=
  let same := fun b : Batch => b.peer == o.src && b.vl == o.vl && b.chan == chan
  let b := match s.fab.batches.find? same with | some b => b | none => ⟨o.src, o.vl, chan, []⟩
  let b' := { b with recs := b.recs ++ [rec] }
  let rest := s.fab.batches.filter (fun b => !same b)
  if b'.recs.length < 64 then { s with fab := { s.fab with batches := rest ++ [b'] } }
  else State.sendBatch { s with fab := { s.fab with batches := rest } } b'

end Sys2Proof.Machine
end

