-- ==== Sys2Proof/Machine/Slots.lean ====
section
/-! DEFINITION. The command slot (03 R66, R67), the opcode table (03 R75), the layouts of the operand bytes with their
reserved fields, and the checks of 03 R68 with the byte offset that 04 R521 names. -/

namespace Sys2Proof.Machine

/-! ## Status codes (04 R115) -/

def stOk : Nat := 0x00
def stOkDegraded : Nat := 0x01
def stKilled : Nat := 0x10
def stOverrun : Nat := 0x11
def stScaleSkew : Nat := 0x20
def stPoisoned : Nat := 0x21
def stCheckMismatch : Nat := 0x22
def stFenceCycle : Nat := 0x30
def stFenceTimeout : Nat := 0x31
def stDoorbellStale : Nat := 0x40
def stSlotCheck : Nat := 0x41
def stRange : Nat := 0x42
def stHostLost : Nat := 0x50
def stRemoteFail : Nat := 0x51
def stNoResource : Nat := 0x60
def stWriteInhibited : Nat := 0x61

/-- A status other than `ST_OK` and `ST_OK_DEGRADED` (04 R98). -/
def isFailure (st : Nat) : Bool := st != stOk && st != stOkDegraded

/-! ## The slot header (03 R66) -/

def slotOp (b : List Byte) : Nat := leField b 0 1
def slotFenceAfter (b : List Byte) : Bool := (leField b 1 1).testBit 0
def slotReqOpen (b : List Byte) : Bool := (leField b 1 1).testBit 1
def slotReqClose (b : List Byte) : Bool := (leField b 1 1).testBit 2
def slotQuiet (b : List Byte) : Bool := (leField b 1 1).testBit 3
def slotExt (b : List Byte) : Nat := bitsOf (leField b 1 1) 5 4
def slotClass (b : List Byte) : Nat := bitsOf (leField b 1 1) 7 6
def slotSeq (b : List Byte) : Nat := leField b 2 2
def slotDeadline (b : List Byte) : Nat := leField b 4 2
def slotBudget (b : List Byte) : Nat := bitsOf (leField b 6 4) 21 0
def slotCondEn (b : List Byte) : Bool := (leField b 6 4).testBit 22
def slotCondSense (b : List Byte) : Bool := (leField b 6 4).testBit 23
def slotCondPred (b : List Byte) : Nat := bitsOf (leField b 6 4) 27 24
def slotXcrc (b : List Byte) : Nat := leField b 10 4
def slotTag (b : List Byte) : Nat := leField b 14 2
def slotCrc (b : List Byte) : Nat := leField b 60 4

/-- The CRC of a slot matches bytes 0 to 59 (03 R64). -/
def slotCrcOk (b : List Byte) : Bool := slotCrc b == crc32c (b.take 60)

/-- XCRC matches the extension bytes when there are any (03 R64). -/
def slotXcrcOk (b ext : List Byte) : Bool :=
  slotExt b == 0 || slotXcrc b == crc32c (padTo (64 * slotExt b) ext)

/-- An operand field of 32 bits. -/
def op32 (b : List Byte) (o : Nat) : Nat := leField b o 4
/-- Bits of the operand field of `n` bytes at `o`. -/
def opBits (b : List Byte) (o n msb lsb : Nat) : Nat := bitsOf (leField b o n) msb lsb

/-! ## Opcodes (03 R75) -/

/-- A cluster command. -/
def isClusterOp (op : Nat) : Bool := [0x20, 0x21, 0x22, 0x28, 0x29, 0x30, 0x31, 0x38, 0x39].contains op
/-- A GFE command. -/
def isGfeOp (op : Nat) : Bool :=
  [0x00, 0x01, 0x02, 0x08, 0x09, 0x0A, 0x10, 0x11, 0x18, 0x19, 0x1A, 0x1B, 0x40].contains op
/-- The mark in byte 0 of a fold, a cluster command without a slot of its own (09 R280). -/
def foldOp : Nat := 0xF0
/-- A command that runs on a cluster. -/
def runsOnCluster (op : Nat) : Bool := isClusterOp op || op == foldOp
/-- An opcode of the table. -/
def isOpcode (op : Nat) : Bool := isClusterOp op || isGfeOp op
/-- An opcode that accepts a payload. -/
def takesPayload (op : Nat) : Bool := [0x10, 0x11, 0x21, 0x22, 0x28, 0x29, 0x40].contains op

/-- The charge of a cluster command: its budget, and 4,096 cycles more if it writes host memory (02 R29). -/
def slotCharge (b : List Byte) : Nat := slotBudget b + (if slotOp b = 0x38 then 4096 else 0)

/-! ## Reserved operand fields -/

/-- A reserved field: the offset of its layout row (04 R521), its first byte, its bytes and its bits. -/
abbrev ResField := Nat × Nat × Nat × Nat

/-- Whole reserved bytes of one row. -/
def resBytes (o n : Nat) : ResField := (o, o, n, 2 ^ (8 * n) - 1)

/-- The reserved fields of an opcode's operands, which may depend on the slot's own fields. SLOT of a `STREAM_ARM` is in use for
INT8 and INT4 too (DEDUCED, log entry 42). -/
def resFields (b : List Byte) : List ResField :=
  match slotOp b with
  | 0x00 => [resBytes 16 44]
  | 0x01 => [(16, 16, 1, 0xFC), resBytes 17 3] ++
      (if (leField b 16 1).testBit 1 then [] else [resBytes 20 4, resBytes 24 4]) ++ [resBytes 28 32]
  | 0x02 => [(16, 16, 1, 0xF0)] ++
      (if opBits b 16 1 3 0 = 0 then [(17, 17, 1, 0xC0)] else [(17, 17, 1, 0xFF)]) ++
      [(18, 18, 1, 0xFE), resBytes 19 1, (20, 20, 4, 0xFFFF0000), resBytes 24 36]
  | 0x08 => [(20, 20, 1, 0xFE), resBytes 21 3, resBytes 32 28]
  | 0x09 => [resBytes 20 4, resBytes 32 28]
  | 0x0A => (if (leField b 20 1).testBit 0 then [resBytes 16 4] else []) ++ [(20, 20, 1, 0xFC), resBytes 21 39]
  | 0x10 => [resBytes 56 4]
  | 0x11 => [(22, 22, 1, 0xFC)] ++
      (match opBits b 22 1 1 0 with
       | 1 => [resBytes 32 8]
       | 2 => [resBytes 25 7]
       | _ => [resBytes 24 4, resBytes 28 4, resBytes 32 8]) ++ [resBytes 40 20]
  | 0x18 => [(20, 20, 2, 0xFE00), (22, 22, 1, 0xE0), resBytes 23 1] ++
      (if opBits b 20 2 1 0 = 1 then [(36, 36, 2, 0xE000), (38, 38, 1, 0xF0), resBytes 39 1, (48, 48, 4, 0xFE000000)]
       else if opBits b 20 2 1 0 = 0 then
         (if 0x10 ≤ opBits b 22 1 4 0 ∧ opBits b 22 1 4 0 ≤ 0x13 then [] else [resBytes 36 4]) ++
         [(40, 40, 2, 0xE000), resBytes 42 18]
       else [])
  | 0x19 => [resBytes 20 40]
  | 0x1A => [(20, 20, 4, 0xC0000000), (24, 24, 4, 0x80000000), (28, 28, 1, 0xE0), resBytes 29 3, resBytes 40 20]
  | 0x1B => [(28, 28, 2, 0xFE03), resBytes 30 2, resBytes 40 20]
  | 0x20 => [(36, 36, 8, 0xF000000000000000), (44, 44, 4, 0xFF000000), (48, 48, 4, 0xFF000000), (52, 52, 4, 0xFF000000),
      (56, 56, 4, 0xFFFC00E0)]
  | 0x21 => (if (leField b 56 4).testBit 5 then [] else [resBytes 36 4]) ++
      [(40, 40, 8, 0xFFFFF00000000000), (48, 48, 4, 0xFF000000), (52, 52, 4, 0xFF000000),
       (56, 56, 4, if op32 b 16 = 0xFFFFFFFF then 0xFF8000C0 else 0xFFFC00C0)]
  | 0x22 => [(36, 36, 4, 0xFF000000), (52, 52, 4, 0xFF000000), (56, 56, 4, 0xFFFFE000)]
  | 0x28 => [(40, 40, 4, 0xFFF00000)] ++ (if op32 b 24 = 0 then [] else [(44, 44, 4, 0xFFFF0000)]) ++
      [(48, 48, 4, 0xFF000000), (52, 52, 4, 0xFFC00880), resBytes 56 4]
  | 0x29 => [(28, 28, 4, 0xFE000000), (32, 32, 4, 0xFF000000), (36, 36, 4, 0xFFFFFFF0), resBytes 40 20]
  | 0x30 => [(16, 16, 1, 0xC0), (17, 17, 1, 0xC0), (18, 18, 1, 0x80),
      (19, 19, 1, 0x80 ||| (if (leField b 18 1).testBit 2 then 0 else 0x1F) ||| (if opBits b 18 1 1 0 = 0 then 0x60 else 0)),
      (28, 28, 4, 0xFF000000), (32, 32, 4, 0xFF000000), (36, 36, 4, 0xFF000000), (40, 40, 2, 0xE000), (42, 42, 1, 0xF0),
      (52, 52, 4, if opBits b 18 1 2 2 = 1 ∧ [7, 8, 9, 0x0A, 0x0B, 0x10, 0x11, 0x12, 0x13].contains (opBits b 19 1 4 0) = true
        then 0xC0000000 else 0xFFF00000), (56, 56, 4, if opBits b 18 1 1 0 = 0 then 0x0000FFFF else 0)]
  | 0x31 => [(16, 16, 1, 0xC0), (17, 17, 1, 0xC0), (18, 18, 1, 0xFE), resBytes 19 1] ++
      (if (leField b 18 1).testBit 0 then [resBytes 20 4, resBytes 24 4, resBytes 28 4, resBytes 32 2]
       else [(24, 24, 4, 0xFF000000), (28, 28, 4, 0xFF000000)]) ++ [resBytes 34 26]
  | 0x38 => [(28, 28, 4, 0xFF000000), (32, 32, 4, 0xFFFFF000), (36, 36, 4, 0xFFE00000), resBytes 40 20]
  | 0x39 => [(28, 28, 4, 0xFF000000), (32, 32, 4, 0xFFFFF000), (36, 36, 4, 0xFFC00000), resBytes 40 20]
  | 0x40 => [(16, 16, 2, 0xFC00), (18, 18, 1, 0xF8)] ++
      (if opBits b 18 1 2 0 = 0 ∧ slotExt b = 0 then [] else [resBytes 20 4]) ++
      (if opBits b 18 1 2 0 = 1 then [] else [resBytes 24 4]) ++ [resBytes 28 32]
  | _ => []

/-- The row offsets of the reserved fields that are not zero (00 R10). -/
def resBad (b : List Byte) : List Nat :=
  (if opBits b 6 4 31 28 = 0 then [] else [6]) ++
  ((resFields b).filter (fun r => (leField b r.2.1 r.2.2.1) &&& r.2.2.2 != 0)).map Prod.fst

/-- The lowest of the offsets that conditions name: DETAIL_A of `ST_RANGE` (04 R521) (DEDUCED, log entry 41). -/
def lowest : List Nat → Option Nat
  | [] => none
  | a :: t => match lowest t with | none => some a | some b => some (min a b)

/-- The conditions of 03 R68 but those on CLASS and COND_EN, as offsets. -/
def slotBadCommon (b : List Byte) : List Nat :=
  (if isOpcode (slotOp b) then [] else [0]) ++ resBad b ++
  (if 0 < slotExt b ∧ isOpcode (slotOp b) = true ∧ takesPayload (slotOp b) = false then [1] else []) ++
  (if slotXcrc b ≠ 0 ∧ slotExt b = 0 then [10] else []) ++
  (if (isClusterOp (slotOp b) = true ∧ slotBudget b = 0) ∨ (isGfeOp (slotOp b) = true ∧ slotBudget b ≠ 0) then [6] else [])

/-- The conditions of 03 R68 on a ring slot, under a class ceiling. -/
def slotBad (ceil : Nat) (b : List Byte) : Option Nat :=
  lowest (slotBadCommon b ++ (if slotClass b < ceil then [1] else []) ++ (if slotCondEn b then [6] else []))

/-- The conditions of 03 R77 on a list slot at its fetch, bindings apart. -/
def listSlotBad (b : List Byte) : Option Nat :=
  lowest (slotBadCommon b ++ (if slotReqOpen b ∨ slotReqClose b then [1] else []) ++
    (if slotOp b = 0x10 ∨ slotOp b = 0x11 then [0] else []))

/-! ## Handle fields (03 R78, 10 R296) -/

/-- The byte offsets of the handle fields of a slot's operands. -/
def handleFields (b : List Byte) : List Nat :=
  match slotOp b with
  | 0x01 => if (leField b 16 1).testBit 1 then [20] else []
  | 0x0A => if (leField b 20 1).testBit 0 then [] else [16]
  | 0x10 => [16]
  | 0x11 => if opBits b 22 1 1 0 = 1 then [16, 24] else [16]
  | 0x18 => if opBits b 20 2 1 0 = 1 then [16, 40, 44, 56]
      else if 0x10 ≤ opBits b 22 1 4 0 ∧ opBits b 22 1 4 0 ≤ 0x13 then [16, 36] else [16]
  | 0x19 => [16]
  | 0x1A => [16]
  | 0x1B => [16, 20, 24]
  | 0x20 => [16, 20, 24, 28, 32]
  | 0x21 => [16, 20, 24, 28, 32, 36]
  | 0x22 => [16, 20, 24, 28, 32, 48]
  | 0x28 => [16, 20, 24, 28, 32, 36]
  | 0x29 => [16, 20, 24]
  | 0x30 => [20, 24]
  | 0x31 => [20]
  | 0x38 => [24]
  | 0x39 => [24]
  | _ => []

/-- Write bytes at an offset of a byte list. -/
def putBytesAt (b : List Byte) (o : Nat) (v : List Byte) : List Byte := b.take o ++ v ++ b.drop (o + v.length)

/-- Replace every handle field that names a binding by the binding's handle (03 R78); `none` if one names an unbound
binding or an undefined reserved handle. -/
def bindSlot (bind : List Nat) (b : List Byte) : List Nat → Option (List Byte)
  | [] => some b
  | o :: t =>
    let h := op32 b o
    if 0xFFFFFF00 ≤ h ∧ h ≠ 0xFFFFFFFF then
      let k := h - 0xFFFFFF00
      if k < 8 ∧ listGet 0 bind k ≠ 0 ∧ (listGet 0 bind k < 0xFFFFFF00 ∨ listGet 0 bind k = 0xFFFFFFFF) then bindSlot bind (putBytesAt b o (leBytes 4 (listGet 0 bind k))) t else none
    else bindSlot bind b t

/-- The objects that a command's outputs name (04 R114, 10 R303). -/
def outputHandles (b : List Byte) : List Nat :=
  match slotOp b with
  | 0x01 => if (leField b 16 1).testBit 1 then [op32 b 20] else []
  | 0x20 => [op32 b 24]
  | 0x21 => [op32 b 24]
  | 0x22 => [op32 b 28, op32 b 48]
  | 0x28 => [op32 b 32, op32 b 36]
  | 0x29 => [op32 b 16]
  | 0x30 => [op32 b 24]
  | 0x39 => [op32 b 24]
  | 0x1B => [op32 b 20, op32 b 24]
  | 0x11 => [op32 b 16]
  | 0x18 => [op32 b 16]
  | _ => []

end Sys2Proof.Machine
end

