-- ==== Sys2Proof/Machine/Records.lean ====
section
/-! DEFINITION. Charges (05 R139 to R141), flush reads, completion records and their store (04 R108 to R112; 12 R379,
R380). -/

namespace Sys2Proof.Machine

/-! ## Charges -/

/-- Add cycles of engine `e` to a channel's record and to its activity of the open window (05 R139, R142). -/
def State.chargeCyc (s : State) (c e n : Nat) : State :=
  let a := s.acct c
  s.setAcct c { a with cyc := listSet a.cyc e (satAdd 64 (listGet 0 a.cyc e) n),
                       winCyc := listSet a.winCyc e (listGet 0 a.winCyc e + n) }

/-- Of the cycles of a channel's open window, `n` are those of stream transfers (11 R355; 16 R483). -/
def State.noteXfer (s : State) (c n : Nat) : State :=
  s.setAcct c { s.acct c with winXfer := (s.acct c).winXfer + n }

/-- Add bytes of pair `p` (05 R140) (DEDUCED, log entry 51). -/
def State.chargeBytes (s : State) (c p n : Nat) : State :=
  let a := s.acct c
  s.setAcct c { a with bytes := listSet a.bytes p (satAdd 64 (listGet 0 a.bytes p) n),
                       winBytes := listSet a.winBytes p (listGet 0 a.winBytes p + n) }

/-- The pair index of a transfer between tiers (05 R140): a landing of the cellar counts as cellar to attic wherever it goes (10
R311); none within the attic, and none from the scratchpad or the store room to the cellar (DEDUCED, log entry 51). -/
def pairOf (src dst : Nat) : Option Nat :=
  match src, dst with
  | 0, 0 => some 0 | 0, 1 => some 1 | 1, 0 => some 2 | 0, 2 => some 3 | 2, 0 => some 4 | 1, 2 => some 5 | 2, 1 => some 6
  | 3, 1 => some 7 | 3, 0 => some 7 | 3, 2 => some 7 | 1, 3 => some 8 | _, _ => none

/-- Charge a transfer of `n` bytes between two tiers. -/
def State.chargeMove (s : State) (c src dst n : Nat) : State :=
  match pairOf src dst with
  | some p => s.chargeBytes c p n
  | none => s

/-- The engine whose cycles a command of an opcode uses (05 R139, 07 R194). -/
def engineOf (slot : List Byte) (onSkink : Bool) : Nat :=
  match slotOp slot with
  | 0x20 => if onSkink then 1 else 0
  | 0x21 => 1 | 0x22 => 2 | 0x28 => 3 | 0x29 => 3 | 0xF0 => 3 | 0x30 => 4 | 0x31 => 4 | 0x38 => 4 | 0x39 => 4 | _ => 5

/-! ## Flush reads (04 R110; 12 R379) -/

/-- A drain or test of a unit is in progress (14 R438). -/
def State.unitTest (s : State) (u : Nat) : Bool :=
  match s.integ.test with | some t => t.unit == u && u != 0 | none => false

/-- The host link can carry requests (12 R373). -/
def State.linkUp (s : State) : Bool := s.link.state == .up

/-- A record flush may be issued for a channel (12 R379). -/
def State.mayFlush (s : State) (c : Nat) : Bool :=
  s.linkUp && (s.chan c).state != .orphaned && (s.chan c).state != .paused .reattach && !s.unitTest 4

/-- Give every written record that no flush read follows the number of a flush read issued now. -/
def markFlush (n : BitVec 32) (st : List StoredRec) : List StoredRec :=
  st.map (fun r => match r.state with | .written 0 => { r with state := .written n.toNat } | _ => r)

/-- Issue a flush read for a channel with a number of its own: the state and the number. -/
def State.issueFlush (s : State) (c addr : Nat) : State × Nat :=
  let n := s.gfe.nextId + 1
  let q := s.cq c
  let s1 := s.setCq c { q with store := markFlush (BitVec.ofNat 32 n) q.store }
  let s2 := { s1 with gfe := { s1.gfe with nextId := n },
                      host := { s1.host with reads := s1.host.reads ++ [HostRd.mk (.flush c) n s.clk.now] } }
  (s2.emit (.flushRead c addr), n)

/-- The base of a channel's completion queue. -/
def State.cqBase (s : State) (c : Nat) : Nat :=
  s.regGet .gfe c 0x234 * 2 ^ 32 + s.regGet .gfe c 0x230 / 4096 * 4096

/-- Q of a channel's completion queue (04 R108). -/
def State.cqLog (s : State) (c : Nat) : Nat := s.fld .gfe c 0x238 4 0

/-- The address of record number `r` (04 R108). -/
def State.recAddr (s : State) (c r : Nat) : Nat := s.cqBase c + 32 * (r % 2 ^ s.cqLog c)

/-- Unconfirmed records of a channel. -/
def unconfirmed (q : ChanCq) : Nat := (q.store.filter (fun r => r.state != .held)).length

/-- A record flush of a channel, if it may be issued and a record is unconfirmed (12 R379). -/
def State.recordFlush (s : State) (c : Nat) : State :=
  let q := s.cq c
  if s.mayFlush c && unconfirmed q != 0 then
    (s.issueFlush c (s.recAddr c (q.next.toNat + 2 ^ 32 - 1))).1
  else s

/-- A flush read of a channel has returned: it confirms the records written before it (12 R379). -/
def State.confirm (s : State) (c n : Nat) : State :=
  let q := s.cq c
  s.setCq c { q with store := q.store.filter (fun r => match r.state with
    | .written k => k == 0 || decide (n < k) | .held => true) }

/-! ## Records (04 R108 to R112) -/

/-- The 32 bytes of a completion record, PHASE apart (04 R111). -/
def recordBytes (seq tag status flags op reruns tick stamp shift clu a b : Nat) : List Byte :=
  leBytes 2 seq ++ leBytes 2 tag ++ leBytes 1 status ++ leBytes 1 flags ++ leBytes 1 op ++ leBytes 1 (min reruns 255) ++
  leBytes 8 tick ++ leBytes 4 (stamp + shift * 2 ^ 17 + clu * 2 ^ 22) ++ leBytes 4 a ++ leBytes 8 b

/-- A record with its phase for number `r` in a queue of 2^q records (04 R112). -/
def withPhase (bytes : List Byte) (r q : Nat) : List Byte :=
  let f := leField bytes 5 1
  putBytesAt bytes 5 (leBytes 1 (f / 2 * 2 + (if (r / 2 ^ q) % 2 = 0 then 1 else 0)))

/-- The queue is full (04 R112). -/
def State.cqFull (s : State) (c : Nat) : Bool :=
  decide (((s.cq c).next - (s.cq c).head).toNat = 2 ^ s.cqLog c)

/-- Records of a channel may be written now (12 R379, R380; 14 R438; 16 R500) (DEDUCED, log entry 44). -/
def State.mayWrite (s : State) (c : Nat) : Bool :=
  s.linkUp && (s.chan c).state != .orphaned && (s.chan c).state != .paused .reattach && !s.sec.warm && !s.unitTest 1 &&
  !s.unitTest 4

/-- Write a record of channel `c` at number `r`, and raise the channel's vector (04 R108, R112). -/
def State.putRecord (s : State) (c r : Nat) (bytes : List Byte) : State :=
  let s1 := s.emit (.hostWrite (s.recAddr c r) (withPhase bytes r (s.cqLog c)))
  if s1.fld .gfe c 0x238 5 5 = 1 then s1.signalVector (s1.fld .gfe c 0x238 26 16) else s1

/-- Write the next record of a channel; it is then unconfirmed, and the 64th unconfirmed one brings a flush (12 R379). -/
def State.writeNext (s : State) (c : Nat) (bytes : List Byte) : State :=
  let q := s.cq c
  let s1 := s.putRecord c q.next.toNat bytes
  let s2 := s1.setCq c { q with next := q.next + 1, store := q.store ++ [⟨q.next, bytes, .written 0, none, false⟩] }
  if unconfirmed (s2.cq c) = 64 then s2.recordFlush c else s2

/-- A record of a HOST channel: written, or held behind earlier held ones or for room (04 R112; 12 R379)
(DEDUCED, log entry 44). `ctx` is the context of its command. -/
def State.hostRecord (s : State) (c : Nat) (bytes : List Byte) (ctx : Option Nat) : State :=
  let q := s.cq c
  let behind := q.store.any (fun r => r.state == .held)
  let full := s.cqFull c
  if s.mayWrite c && !behind && !full then s.writeNext c bytes
  else
    let s1 := s.setCq c { q with store := q.store ++ [⟨0, bytes, .held, ctx, full⟩] }
    if full then s1.raise .gfe c 0x22C 5 else s1

/-- The record of a command of a context is held (03 R72). -/
def State.recordHeld (s : State) (c i : Nat) : Bool := (s.cq c).store.any (fun r => r.state == .held && r.ctx == some i)

/-- A context whose commands have ended with their records written and which is closed becomes retiring; lateness counts once
(03 R71, R72) (DEDUCED, log entry 44). -/
def State.settleCtx (s : State) (i : Nat) : State :=
  match s.ctx? i with
  | none => s
  | some x =>
    if x.closed && !x.retiring && !(s.gfe.cmds.any (fun c => c.ctx == some i)) && !s.recordHeld x.chan i then
      let s1 := s.setCtx { x with retiring := true }
      if x.deadline < s.tickN then { s1 with gfe := { s1.gfe with late := satAdd 32 s1.gfe.late 1 } } else s1
    else s

/-- A held record of a channel is written; its command's context may retire (03 R72; 04 R112). -/
def State.writeHeld (s : State) (c : Nat) (r : StoredRec) (rest : List StoredRec) : State :=
  let s1 := (s.setCq c { s.cq c with store := rest }).writeNext c r.bytes
  match r.ctx with
  | some i => s1.settleCtx i
  | none => s1

/-- The held records of a channel find its queue full: `CQ_FULL` is set, once for each (04 R112). -/
def State.noteFull (s : State) (c : Nat) : State :=
  let q := s.cq c
  if q.store.any (fun r => r.state == .held && !r.noted) then
    (s.setCq c { q with store := q.store.map (fun r => { r with noted := true }) }).raise .gfe c 0x22C 5
  else s

/-- Write held records of a channel, oldest first, while they fit; `n` bounds their number (04 R112). -/
def State.releaseHeld (s : State) (c : Nat) : Nat → State
  | 0 => s
  | n + 1 =>
    match takeFirst (fun r => r.state == .held) (s.cq c).store with
    | none => s
    | some (r, rest) =>
      if !s.mayWrite c then s
      else if s.cqFull c then s.noteFull c
      else State.releaseHeld (s.writeHeld c r rest) c n

/-- Release as many held records of a channel as fit. -/
def State.release (s : State) (c : Nat) : State := s.releaseHeld c (s.cq c).store.length

/-- Write an unconfirmed record again at its own number with its own contents (12 R380). -/
def State.rewriteAll (s : State) (c : Nat) : List StoredRec → State
  | [] => s
  | r :: t => State.rewriteAll (if r.state = .held then s else s.putRecord c r.num.toNat r.bytes) c t

/-- The stored records of a channel written again, from record 0 if the queue's fields were written (12 R380). -/
def State.rewriteStored (s : State) (c : Nat) (fresh : Bool) : State :=
  let q := s.cq c
  if fresh then
    let s1 := s.setCq c { q with next := 0, head := 0, store := q.store.map (fun r => { r with state := .held }) }
    s1.release c
  else
    let s1 := s.rewriteAll c q.store
    let q1 := s1.cq c
    let s2 := s1.setCq c { q1 with store := q1.store.map (fun r => match r.state with
      | .written _ => { r with state := .written 0 } | .held => r) }
    s2.release c

end Sys2Proof.Machine
end

