-- ==== Sys2Proof/Machine/Contexts.lean ====
section
/-! DEFINITION. Request contexts (03 R70 to R74), the issue of ring reads (03 R61 to R63) and the entry of an accepted slot
among the commands. -/

namespace Sys2Proof.Machine

/-! ## Contexts (03 R70 to R73) -/

/-- Forget a context. -/
def State.dropCtx (s : State) (i : Nat) : State :=
  { s with gfe := { s.gfe with ctxs := s.gfe.ctxs.filter (fun x => x.id != i) } }

/-- Close a channel's open context (03 R70). -/
def State.closeCtx (s : State) (c : Nat) : State :=
  match (s.chan c).openCtx with
  | none => s
  | some i =>
    let s1 := s.setChan c { s.chan c with openCtx := none }
    (match s1.ctx? i with | some x => s1.setCtx { x with closed := true } | none => s1).settleCtx i

/-- The context of a command that has ended with `ST_RANGE` (03 R73): a command that opened the channel's open context
leaves none open; a context that it alone used goes to free at once; others settle. -/
def State.rangeCtx (s : State) (i : Nat) (opened : Bool) : State :=
  match s.ctx? i with
  | none => s
  | some x =>
    let isOpen : Bool := (s.chan x.chan).openCtx == some i
    let s1 := if isOpen && opened then s.setChan x.chan { s.chan x.chan with openCtx := none } else s
    if x.members ≤ 1 ∧ (isOpen = false ∨ opened = true) then s1.dropCtx i
    else if isOpen && opened then (s1.setCtx { x with closed := true }).settleCtx i
    else s1.settleCtx i

/-! ## Ring reads (03 R61 to R63) -/

/-- The commands of a channel's ring that have been read and have not ended (03 R63). -/
def State.heldCount (s : State) (c : Nat) : Nat :=
  (s.gfe.cmds.filter (fun d => d.chan == c && d.launch.isNone)).length

/-- A ring read of a channel is in flight. -/
def State.ringInFlight (s : State) (c : Nat) : Bool := s.host.reads.any (fun r => r.id == .ring c)

/-- The front end may read the next slot of a channel's ring: ACTIVE, positions below the tail, fewer than 32 commands held,
the link up with caching enabled, and nothing that holds the channel's reading (03 R61 to R64, R74; 12 R360, R377; 14 R438;
16 R489, R500). -/
def State.mayRead (s : State) (c : Nat) : Bool :=
  let ch := s.chan c
  ch.kind == .host && ch.state == .active && ch.head != ch.tail && ch.reread.isNone && ch.extWait == 0 &&
  ch.ctxWait.isNone && decide (s.heldCount c < 32) && s.linkUp && s.link.cacheEn && !s.unitTest 1 && !s.unitTest 4 && s.coresRun &&
  !s.sup.stopping

/-- Forget the ring reads of a channel that are in flight. -/
def State.dropReads (s : State) (c : Nat) : State :=
  { s with host := { s.host with reads := s.host.reads.filter (fun r => r.id != .ring c) } }

/-- Base and LOG2_SLOTS as the ring fields hold them. -/
def State.ringRegs (s : State) (c : Nat) : Nat × Nat :=
  (s.regGet .gfe c 0x20C * 2 ^ 32 + s.regGet .gfe c 0x208 / 4096 * 4096, s.fld .gfe c 0x210 4 0)

/-- Base and LOG2_SLOTS in effect: a write while PAUSED waits for the RESUME (03 R59). -/
def State.ringOf (s : State) (c : Nat) : Nat × Nat :=
  if (s.chan c).ringWritten then (s.chan c).ringOld else s.ringRegs c

/-- The address of a position of a ring (03 R60). -/
def State.ringAddr (s : State) (c : Nat) (p : BitVec 32) : Nat :=
  ((s.ringOf c).1 + 64 * (p.toNat % 2 ^ (s.ringOf c).2)) % 2 ^ 64

/-- Issue one ring read of a channel at its HEAD. -/
def State.issueRing (s : State) (c : Nat) : State :=
  State.emit { s with host := { s.host with reads := s.host.reads ++ [HostRd.mk (.ring c) 0 s.clk.now] } }
    (.ringRead c (s.chan c).head (s.ringAddr c (s.chan c).head))

/-- The reads of the extension slots of the command at HEAD (03 R61, R62). -/
def State.extReads (s : State) (c n : Nat) : State :=
  { s with out := s.out ++ (upTo n).map (fun k =>
      let p := (s.chan c).head + BitVec.ofNat 32 (k + 1)
      Output.ringRead c p (s.ringAddr c p)) }

/-- Read on: issue the next ring read of a channel if none is in flight and it may be (DESIGN CHOICE, log entry 13). -/
def State.pumpRing (s : State) (c : Nat) : State :=
  if s.mayRead c && !s.ringInFlight c then s.issueRing c else s

/-- Read on in every channel of a list. -/
def State.pumpRings (s : State) (cs : List Nat) : State := cs.foldl State.pumpRing s

/-- A failed command fails its context; the first failure stands (04 R98, DEDUCED, log entry 12). -/
def State.failCtx (s : State) (i status a b : Nat) : State :=
  match s.ctx? i with
  | none => s
  | some x => if x.failed.isNone then s.setCtx { x with failed := some (status, a, b) } else s

/-! ## Entering a command -/

/-- A new command of a channel's ring. -/
def newCmd (id c : Nat) (ctx : Option Nat) (slot payload : List Byte) (part tick : Nat) : Cmd :=
  { id := id, chan := c, launch := none, pos := 0, ctx := ctx, slot := slot, payload := payload, cls := slotClass slot,
    part := part, accTick := tick, reruns := 0, kills := 0, phase := .unissued, begun := false, res := none, more := none }

/-- Whether a slot of a channel needs a new context (03 R70). -/
def State.needsCtx (s : State) (c : Nat) (slot : List Byte) : Bool :=
  slotReqOpen slot || (s.chan c).openCtx.isNone

/-- A channel can be given a new context now (03 R74). -/
def State.ctxFree (s : State) (c : Nat) : Bool :=
  let q := s.fld .gfe c 0x218 14 0
  decide (s.gfe.ctxs.length < 16384) &&
  (q == 0 || decide ((s.gfe.ctxs.filter (fun x => x.chan == c)).length < q))

/-- The default deadline of a channel in ticks (03 R71). -/
def State.deadlineDef (s : State) (c : Nat) : Nat :=
  let d := s.fld .gfe c 0x214 15 8
  if d = 0 then 64 else d

/-- HEAD and the expected sequence advance past a command (03 R62, R68). -/
def State.advance (s : State) (c : Nat) (slot : List Byte) : State :=
  let ch := s.chan c
  s.setChan c { ch with head := ch.head + BitVec.ofNat 32 (1 + slotExt slot), expSeq := ch.expSeq + 1, ctxWait := none }

/-- Give an accepted command its context and add it to the commands (03 R70, R71). The caller has seen that a context that
it needs is free, and which partition it was read under (03 R59). Its acceptance is the tick of this step, also for one that has
waited for its context (DEDUCED, log entry 14). -/
def State.enlist (s : State) (c : Nat) (slot payload : List Byte) (part : Nat) (o : Option Origin) : State :=
  let id := s.gfe.nextId + 1
  let need := s.needsCtx c slot
  let i := if need then id else match (s.chan c).openCtx with | some k => k | none => id
  let dl := if slotDeadline slot = 0 then s.deadlineDef c else slotDeadline slot
  let ctxs := if need then s.gfe.ctxs ++ [Ctx.mk id c (s.tickN + dl) false false none 1]
    else s.gfe.ctxs.map (fun x => if x.id = i then { x with members := x.members + 1 } else x)
  let d := newCmd id c (some i) slot payload part s.tickN
  let s1 := { s with gfe := { s.gfe with cmds := s.gfe.cmds ++ [d], ctxs := ctxs, nextId := id } }
  let s2 := if need then s1.setChan c { s1.chan c with openCtx := some i } else s1
  let s3 := if slotReqClose slot || (need && !slotReqOpen slot) then s2.closeCtx c else s2
  match o with
  | some _ => s3.setExtra { s3.extra id with origin := o }
  | none => s3

/-- The first of the channels that wait for a context, in the order of 02 R46 (03 R74). -/
def State.nextCtxWait (s : State) : Option Nat :=
  let ws := s.chans.filterMap (fun x => match x.2.ctxWait with
    | some w =>
      if s.ctxFree x.1 && (x.2.state == .active || x.2.state == .draining) then
        some ((slotClass w.slot, s.tickN + (if slotDeadline w.slot = 0 then s.deadlineDef x.1 else slotDeadline w.slot),
               s.rank x.1 4096), x.1)
      else none
    | none => none)
  match ws with
  | [] => none
  | w :: t => some (t.foldl (fun b x => if before3 x.1 b.1 then x else b) w).2

/-- Give released contexts to waiting channels (03 R74); `n` bounds their number. -/
def State.grantCtxs (s : State) : Nat → State
  | 0 => s
  | n + 1 =>
    match s.nextCtxWait with
    | none => s
    | some c =>
      match (s.chan c).ctxWait with
      | none => s
      | some w => State.grantCtxs (((s.advance c w.slot).enlist c w.slot w.payload w.part w.origin).pumpRing c) n

end Sys2Proof.Machine
end

