-- ==== Sys2Proof/Machine/Complete.lean ====
section
/-! DEFINITION. What the end of a command does (04 R97, R98, R109), and what it means for its launch (03 R80, R81) and for
a draining channel (03 R58). -/

namespace Sys2Proof.Machine

/-! ## Ends -/

/-- The commands of a channel that have been read and have not ended. -/
def State.cmdsOf (s : State) (c : Nat) : List Cmd := s.gfe.cmds.filter (fun d => d.chan == c && slotOp d.slot != foldOp)

/-- A DRAINING channel whose last command has ended with its record written becomes DESTROYED (03 R58). -/
def State.drainDone (s : State) (c : Nat) : State :=
  let ch := s.chan c
  if ch.state = .draining ∧ (s.cmdsOf c).isEmpty = true ∧ ch.ctxWait = none ∧ (s.cq c).store.all (fun r => r.state != .held) = true then
    let s1 := s.closeCtx c
    (s1.setChan c { s1.chan c with state := .destroyed, reread := none }).setCq c
      { s1.cq c with store := [] }
  else s

/-- Write, batch or drop the completion record of an ended command (04 R109) (DEDUCED, log entry 41). -/
def State.recordOf (s : State) (d : Cmd) (status a b : Nat) (inherited : Bool) : State :=
  if (status = stOk ∧ slotQuiet d.slot = true) ∨ status = stHostLost then s
  else
    let x := s.extra d.id
    let flags := (if d.launch.isSome then 2 else 0) + (if inherited then 4 else 0)
    let bytes := recordBytes (slotSeq d.slot) (slotTag d.slot) status flags (slotOp d.slot) d.reruns s.tickN s.stamp
      (granShift s.clk.period) (if isClusterOp (slotOp d.slot) then x.lastClu else 255) a b
    match (s.chan d.chan).kind with
    | .host => if (s.chan d.chan).state = .destroyed then s else s.hostRecord d.chan bytes d.ctx
    | .fabric => match x.origin with
      | some o => s.batchRecord o d.chan (withPhase bytes 0 0)
      | none => s

/-- Count a command that ended with `ST_HOST_LOST` (04 R110; 12 R377). -/
def State.countLost (s : State) (d : Cmd) (status : Nat) : State :=
  if status = stHostLost then
    let q := s.cq d.chan
    (s.setCq d.chan { q with lostCount := satAdd 16 q.lostCount 1, lostSeq := slotSeq d.slot }).raise .cxl 0 0x004 3
  else s

/-- A command that serves a request of a peer fails: an index out of range is refused with reason 3, a full pool with reason 4
(13 R411, R412) (DEDUCED, log entry 55). -/
def State.refuseServed (s : State) (d : Cmd) (status : Nat) : State :=
  match s.fab.serves.find? (fun v => v.cmd == d.id) with
  | none => s
  | some v =>
    if status = stRange then s.refuseMsg v.peer v.vl 3 v.msgId.toNat
    else if status = stNoResource then s.refuseMsg v.peer v.vl 4 v.msgId.toNat
    else s

/-- A command ends, its launch apart (04 R97, R98, R109; 05 R139; 03 R72, R73); the events of 05 R143 and 09 R281
(DEDUCED, log entry 44). -/
def State.endOne (s : State) (d : Cmd) (status a b : Nat) (inherited : Bool) : State :=
  let s0 := (s.recordOf d status a b inherited).refuseServed d status
  let s1 := if (slotOp d.slot = 0x29 ∨ slotOp d.slot = 0x28) ∧ status = stRemoteFail then s0.raise .tbl 0 0x018 3
    else if slotOp d.slot = 0x29 ∧ status = stNoResource ∧ a = 0x0101 then s0.raise .tbl 0 0x018 1
    else if status = stKilled then s0.raise .gfe 0 0x370 4 else s0
  let s2 := s1.countLost d status
  let ac := s2.acct d.chan
  let s3 := s2.setAcct d.chan { ac with ended := satAdd 64 ac.ended 1 }
  let s4 := if isFailure status && d.launch.isNone then
      (match d.ctx with | some i => s3.failCtx i status a b | none => s3) else s3
  let s5 := if isGfeOp (slotOp d.slot) then s4.chargeCyc d.chan 5 32 else s4
  let s6 := s5.dropCmd d.id
  let s7 := match d.ctx with
    | some i => if status = stRange ∧ d.launch = none then s6.rangeCtx i (slotReqOpen d.slot) else s6.settleCtx i
    | none => s6
  ((s7.drainDone d.chan).pumpRing d.chan).grantCtxs 1

/-- Where a launch stops: the lowest position counts (03 R80, R81). -/
def Launch.stopAt (l : Launch) (pos status a b : Nat) : Launch :=
  match l.stop with
  | some (p, _, _, _) => if pos < p then { l with stop := some (pos, status, a, b) } else l
  | none => { l with stop := some (pos, status, a, b) }

/-- The commands of a launch. -/
def State.cmdsIn (s : State) (l : Nat) : List Cmd := s.gfe.cmds.filter (fun d => d.launch == some l)

/-- Remove a launch from the launches in flight. -/
def State.dropLaunch (s : State) (l : Nat) : State :=
  { s with gfe := { s.gfe with launches := s.gfe.launches.filter (fun x => x.id != l) } }

/-- The commands of a launch that has stopped: those from the stop on that it had not issued go (03 R81). -/
def State.abandonRest (s : State) (x : Launch) : State :=
  match x.stop with
  | some (p, _) => (s.cmdsIn x.id).foldl (fun t d => if d.begun || decide (d.pos < p) then t else t.dropCmd d.id) s
  | none => s

/-- The end of a launch and of its `LAUNCH_LIST`: with the status of its stop, or ST_OK or ST_OK_DEGRADED (03 R80, R81). -/
def State.endLaunch (s : State) (x : Launch) : State :=
  let s2 := s.dropLaunch x.id
  match s2.cmd? x.cmd with
  | none => s2
  | some d =>
    match x.stop with
    | some (p, st, _, _) => s2.endOne d st x.list p false
    | none => if x.degraded = 0 then s2.endOne d stOk 0 0 false else s2.endOne d stOkDegraded 0 x.degraded false

/-- A launch that has stopped or walked its list ends once every command before its stop and every issued one has ended;
what it had not issued from the stop on goes (03 R80, R81). -/
def State.settleLaunch (s : State) (l : Nat) : State :=
  match s.launch? l with
  | none => s
  | some x =>
    let s1 := s.abandonRest x
    if (x.left = 0 ∨ x.stop.isSome = true) ∧ (s1.cmdsIn x.id).isEmpty = true then s1.endLaunch x else s1

/-- A fold ends: no fold of its table is issued any more (09 R280). -/
def State.endFold (s : State) (d : Cmd) : State :=
  let s1 := s.dropCmd d.id
  match s1.obj? (op32 d.slot 16) with
  | some o => (match o.table with
    | some (t, y) => s1.setObj (op32 d.slot 16) { o with table := some (t, { y with folding := false }) }
    | none => s1)
  | none => s1

/-- A command ends: its own end, then what it means for its launch (03 R80, R81). A fold has no ring and no record (09
R280) (DEDUCED, log entry 41). -/
def State.endCmd (s : State) (d : Cmd) (status a b : Nat) (inherited : Bool) : State :=
  if slotOp d.slot = foldOp then s.endFold d else
  let s1 := s.endOne d status a b inherited
  match d.launch with
  | none => s1
  | some l =>
    match s1.launch? l with
    | none => s1
    | some x =>
      let x1 := if isFailure status then x.stopAt d.pos status a b else x
      let x2 := if status = stOkDegraded then { x1 with degraded := x1.degraded + 1 } else x1
      (s1.setLaunch x2).settleLaunch l

/-- A launch ends at a position with a status of its own (03 R81). -/
def State.stopLaunch (s : State) (l pos status : Nat) : State :=
  match s.launch? l with
  | none => s
  | some x => (s.setLaunch (x.stopAt pos status 0 0)).settleLaunch l

end Sys2Proof.Machine
end

