-- ==== Sys2Proof/Machine/Front.lean ====
section
/-! DEFINITION. The front end: heads and their issue (04 R94 to R98), the acceptance of a slot (03 R68 to R74), the payload
and handles that a command names (03 R67, R78). -/

namespace Sys2Proof.Machine

/-! ## Heads -/

/-- A command that has not been issued, or a `FENCE_WAIT` that stays the head until it ends (04 R94, R104). -/
def Cmd.isHead (d : Cmd) : Bool :=
  match d.phase with
  | .unissued => true
  | .resolving => true
  | .ready => true
  | .waiting _ => slotOp d.slot == 0x09
  | _ => false

/-- The commands of a channel's ring or of a launch. -/
def State.cmdsAt (s : State) (n : Node) : List Cmd :=
  match n with
  | .chan c => s.gfe.cmds.filter (fun d => d.chan == c && d.launch.isNone)
  | .launch l => s.gfe.cmds.filter (fun d => d.launch == some l)

/-- The node of a command. -/
def Cmd.node (d : Cmd) : Node := match d.launch with | some l => .launch l | none => .chan d.chan

/-- The head of a node: its earliest command not issued (04 R94). -/
def State.headOf (s : State) (n : Node) : Option Cmd := (s.cmdsAt n).find? Cmd.isHead

/-- Commands of a channel may be issued: it is not PAUSED, its completion queue and record store have room, and no test or
stop holds the front end (03 R58; 04 R112; 12 R378, R379; 14 R438; 16 R475, R489, R500). -/
def State.mayIssue (s : State) (c : Nat) : Bool :=
  let ch := s.chan c
  (ch.state == .active || ch.state == .draining || ch.state == .orphaned) &&
  (ch.kind == .fabric || (!s.cqFull c && decide ((s.cq c).store.length < 128))) &&
  !s.unitTest 1 && s.coresRun && !s.sup.stopping

/-- A command that executes only after every earlier command of its channel or launch has ended (03 R79, R91; 04 R102,
R114; 10 R318, R323). -/
def waitsPrior (slot : List Byte) : Bool :=
  slotCondEn slot ||
  (match slotOp slot with
   | 0x01 => (leField slot 16 1).testBit 0
   | 0x08 => true | 0x0A => true | 0x19 => true | 0x1B => true | _ => false)

/-- A handle that a command's operands name is still being created (10 R296). -/
def State.creating (s : State) (slot : List Byte) : Bool :=
  (handleFields slot).any (fun o =>
    match s.obj? (op32 slot o) with
    | some ob => ob.creation != .live
    | none => false)

/-- The slot of a command with its launch's bindings in the place of the handles that name them (03 R78). -/
def State.boundSlot (s : State) (d : Cmd) : List Byte :=
  match d.launch with
  | none => d.slot
  | some l => (match s.launch? l with
    | some x => (bindSlot x.bind d.slot (handleFields d.slot)).getD d.slot
    | none => d.slot)

/-- The head of a node that can be issued now, what its own rules ask for apart (04 R94, R96; 10 R296). -/
def State.issuable (s : State) (n : Node) : Option Cmd :=
  match s.headOf n with
  | none => none
  | some d =>
    let before := (s.cmdsAt n).filter (fun e => decide (e.id < d.id))
    if s.mayIssue d.chan && !before.any (fun e => slotFenceAfter e.slot) && (!waitsPrior d.slot || before.isEmpty) &&
       !s.creating (s.boundSlot d)
    then some d else none

/-- Issue a command in a phase: its wait counts in the compatibility record (05 R141). -/
def State.issue (s : State) (d : Cmd) (p : Phase) : State :=
  let a := s.acct d.chan
  let s1 := s.setAcct d.chan { a with queueWait := satAdd 64 a.queueWait (s.tickN - d.accTick) }
  s1.setCmd { d with phase := p, begun := true }

/-- The failure that an unissued cluster command inherits from its context at its issue (04 R98). -/
def State.inherited (s : State) (d : Cmd) : Option (Nat × Nat × Nat) :=
  if d.launch.isSome || !isClusterOp (slotOp d.slot) then none
  else match d.ctx with
    | some i => (match s.ctx? i with | some x => x.failed | none => none)
    | none => none

/-- The deadline of a command: its context's (03 R71). -/
def State.deadlineOf (s : State) (d : Cmd) : Nat :=
  match d.ctx with
  | some i => (match s.ctx? i with | some x => x.deadline | none => 0)
  | none => 0

/-- The payload that the argument handle of a command refers to (03 R67). -/
def State.payloadOf (s : State) (d : Cmd) : List Byte :=
  match d.launch with
  | some l => if slotExt d.slot = 0 then (match s.launch? l with | some x => x.payload | none => []) else d.payload
  | none => d.payload

/-! ## Acceptance -/

/-- The conditions of acceptance on the operands of a `LAUNCH_LIST` (03 R82): LIST names a LIST object, COUNT is 1 to
4,096. -/
def State.launchBad (s : State) (slot : List Byte) : Option Nat :=
  let isList : Bool := match s.obj? (op32 slot 16) with | some o => o.fmt == 0x01 && !o.freed | none => false
  let n := leField slot 22 2
  if !isList then some 16 else if n = 0 ∨ 4096 < n then some 22 else none

/-- The offset that the conditions of acceptance name, if one holds (03 R68, R82; 04 R521). -/
def State.acceptBad (s : State) (c : Nat) (slot : List Byte) : Option Nat :=
  lowest ((slotBad (s.fld .gfe c 0x214 4 3) slot).toList ++
    (if slotOp slot = 0x10 then (s.launchBad slot).toList else []))

/-- A slot that ends with `ST_RANGE` at its acceptance: it holds no context, and its context bits act on the channel's open
context (03 R68, R73). A failure in the open context fails it (04 R98). -/
def State.acceptRange (s : State) (c : Nat) (slot : List Byte) (off : Nat) (o : Option Origin) : State :=
  let s1 := if slotReqOpen slot then s.closeCtx c else s
  let id := s1.gfe.nextId + 1
  let d := newCmd id c none slot [] 0 s1.tickN
  let s2 := { s1 with gfe := { s1.gfe with nextId := id } }
  let s3 := match o with | some _ => s2.setExtra { s2.extra id with origin := o } | none => s2
  let s4 := match (s3.chan c).openCtx with
    | some i => s3.failCtx i stRange off 0
    | none => s3
  let s5 := s4.endOne d stRange off 0 false
  if slotReqClose slot then s5.closeCtx c else s5

/-- Accept a slot that has passed the checks of 03 R64 (R68 to R74). A command that lacks a context waits at the head. -/
def State.acceptSlot (s : State) (c : Nat) (slot payload : List Byte) (o : Option Origin) : State :=
  match s.acceptBad c slot with
  | some off => (s.advance c slot).acceptRange c slot off o
  | none =>
    let s1 := if slotReqOpen slot then s.closeCtx c else s
    if s1.needsCtx c slot && !s1.ctxFree c then
      (s1.setChan c { s1.chan c with ctxWait := some ⟨slot, payload, s.fld .gfe c 0x214 2 0, o⟩ }).raise .gfe c 0x22C 4
    else (s1.advance c slot).enlist c slot payload (s.fld .gfe c 0x214 2 0) o

end Sys2Proof.Machine
end

