-- ==== Sys2Proof/Machine/Float.lean ====
section
/-! DEFINITION. Exact binary numbers and their rounding to the number formats (06 R144 to R151, R166 to R170). -/

namespace Sys2Proof.Machine

/-- A floating-point value: NaN, an infinity, or (-1)^neg x m x 2^e exactly; a zero keeps its sign (06 R146). -/
inductive FV where
  | nan
  | inf (neg : Bool)
  | fin (neg : Bool) (m : Nat) (e : Int)
  deriving DecidableEq, Repr

/-- Positive zero. -/
def FV.zero : FV := .fin false 0 0

/-- A whole number. -/
def FV.ofNat (n : Nat) : FV := .fin false n 0

/-- An integer. -/
def FV.ofInt (i : Int) : FV := .fin (decide (i < 0)) i.natAbs 0

/-- Number of bits of a number. -/
def bitLen (n : Nat) : Nat := if n = 0 then 0 else Nat.log2 n + 1

/-- The negation. -/
def FV.neg : FV → FV
  | .nan => .nan
  | .inf s => .inf (!s)
  | .fin s m e => .fin (!s) m e

/-- The magnitude. -/
def FV.abs : FV → FV
  | .nan => .nan
  | .inf _ => .inf false
  | .fin _ m e => .fin false m e

/-- NaN or an infinity. -/
def FV.special : FV → Bool
  | .fin _ _ _ => false
  | _ => true

/-- A zero of either sign. -/
def FV.isZero : FV → Bool
  | .fin _ 0 _ => true
  | _ => false

/-- The signed numerator of a finite value at exponent `q`, not above its own. -/
def finInt (s : Bool) (m : Nat) (e q : Int) : Int :=
  let v : Int := ((m * 2 ^ (e - q).toNat : Nat) : Int)
  if s then -v else v

/-- The exact sum. Opposite zeros and a cancelled sum give +0. -/
def FV.add : FV → FV → FV
  | .nan, _ => .nan
  | _, .nan => .nan
  | .inf a, .inf b => if a = b then .inf a else .nan
  | .inf a, .fin _ _ _ => .inf a
  | .fin _ _ _, .inf b => .inf b
  | .fin a m e, .fin b n f =>
    if m = 0 ∧ n = 0 then .fin (a && b) 0 0
    else
      let q := min e f
      let v := finInt a m e q + finInt b n f q
      .fin (decide (v < 0)) v.natAbs q

/-- The exact product. -/
def FV.mul : FV → FV → FV
  | .nan, _ => .nan
  | _, .nan => .nan
  | .inf a, .inf b => .inf (a != b)
  | .inf a, .fin b n _ => if n = 0 then .nan else .inf (a != b)
  | .fin a m _, .inf b => if m = 0 then .nan else .inf (a != b)
  | .fin a m e, .fin b n f => .fin (a != b) (m * n) (e + f)

/-- The quotient with 100 bits more than its operands and a last bit that says whether anything is left over: it rounds
as the exact quotient does. -/
def FV.div : FV → FV → FV
  | .nan, _ => .nan
  | _, .nan => .nan
  | .inf _, .inf _ => .nan
  | .inf a, .fin b _ _ => .inf (a != b)
  | .fin a _ _, .inf b => .fin (a != b) 0 0
  | .fin a m e, .fin b n f =>
    if n = 0 then (if m = 0 then .nan else .inf (a != b))
    else
      let k := bitLen n + 100
      let q := m * 2 ^ k / n
      let r := m * 2 ^ k % n
      .fin (a != b) (2 * q + (if r = 0 then 0 else 1)) (e - f - k - 1)

/-- The integer square root of a number of at most 2 x `fuel` bits, bit by bit. -/
def isqrtGo : Nat → Nat → Nat → Nat
  | 0, _, r => r
  | fuel + 1, n, r =>
    let c := r + 2 ^ fuel
    isqrtGo fuel n (if c * c ≤ n then c else r)

/-- The integer square root. -/
def isqrt (n : Nat) : Nat := isqrtGo (bitLen n / 2 + 1) n 0

/-- The square root with more than 60 bits and a last bit that says whether anything is left over. -/
def FV.sqrt : FV → FV
  | .nan => .nan
  | .inf s => if s then .nan else .inf false
  | .fin s m e =>
    if m = 0 then .fin s 0 0
    else if s then .nan
    else
      let k : Nat := 128 + (if e % 2 = 0 then 0 else 1)
      let n := m * 2 ^ k
      let r := isqrt n
      .fin false (2 * r + (if r * r = n then 0 else 1)) ((e - k) / 2 - 1)

/-- Whether `a < b`; false if either is NaN. -/
def FV.lt : FV → FV → Bool
  | .nan, _ => false
  | _, .nan => false
  | .inf a, .inf b => a && !b
  | .inf a, .fin _ _ _ => a
  | .fin _ _ _, .inf b => !b
  | .fin a m e, .fin b n f =>
    let q := min e f
    decide (finInt a m e q < finInt b n f q)

/-- Whether `a ≤ b`; false if either is NaN. -/
def FV.le (a b : FV) : Bool := a != .nan && b != .nan && !(FV.lt b a)

/-- Equality as numbers: zeros are equal, NaN equals nothing. -/
def FV.eqv (a b : FV) : Bool := a != .nan && b != .nan && !(FV.lt a b) && !(FV.lt b a)

/-! ## Rounding (06 R166, R167) -/

/-- How a value between two representable ones is rounded: to nearest even, toward zero, stochastically with the 24
random bits `r`, or up in magnitude. -/
inductive Rnd where
  | rne | rz | sr (r : Nat) | up
  deriving DecidableEq, Repr

/-- The rounding of a 2-bit code with the draw's 24 bits (06 R166). -/
def rndOf (code r : Nat) : Rnd := match code with | 0 => .rne | 1 => .rz | _ => .sr r

/-- Round the positive number m x 2^e to a whole number of units 2^q. -/
def roundUnits (rnd : Rnd) (m : Nat) (e q : Int) : Nat :=
  if q ≤ e then m * 2 ^ (e - q).toNat
  else
    let sh := (q - e).toNat
    let lo := m / 2 ^ sh
    let rem := m % 2 ^ sh
    let up : Bool := match rnd with
      | .rne => decide (2 ^ sh < 2 * rem) || (decide (2 * rem = 2 ^ sh) && decide (lo % 2 = 1))
      | .rz => false
      | .sr r => decide (rem ≠ 0) && decide (2 ^ 24 ≤ rem * 2 ^ 24 / 2 ^ sh + r)
      | .up => decide (rem ≠ 0)
    if up then lo + 1 else lo

/-- Round m x 2^e to `p` significant bits, the unit never below 2^qmin: the units and their exponent. -/
def roundFloat (rnd : Rnd) (p : Nat) (qmin : Int) (m : Nat) (e : Int) : Nat × Int :=
  let q := max (e + bitLen m - p) qmin
  let n := roundUnits rnd m e q
  if n = 2 ^ p then (2 ^ (p - 1), q + 1) else (n, q)

/-- A binary floating-point format: significant bits, exponent of its smallest subnormal, largest finite value, bits of
its exponent field. -/
structure FloatFmt where
  p : Nat
  qmin : Int
  maxM : Nat
  maxE : Int
  expBits : Nat
  deriving DecidableEq, Repr

/-- FP32 (06 R144). -/
def fmtFp32 : FloatFmt := ⟨24, -149, 0xFFFFFF, 104, 8⟩
/-- BF16. -/
def fmtBf16 : FloatFmt := ⟨8, -133, 0xFF, 120, 8⟩
/-- FP16. -/
def fmtFp16 : FloatFmt := ⟨11, -24, 0x7FF, 5, 5⟩
/-- FP8 E4M3: the largest finite value is 448. -/
def fmtE4m3 : FloatFmt := ⟨4, -9, 14, 5, 4⟩
/-- FP8 E5M2. -/
def fmtE5m2 : FloatFmt := ⟨3, -16, 7, 13, 5⟩
/-- FP4 E2M1. -/
def fmtE2m1 : FloatFmt := ⟨2, -1, 3, 1, 2⟩

/-- Bits of a format without its sign. -/
def FloatFmt.bits (f : FloatFmt) : Nat := f.expBits + f.p - 1

/-- The code, without sign, of n x 2^q as `roundFloat` gives it. -/
def FloatFmt.code (f : FloatFmt) (n : Nat) (q : Int) : Nat :=
  if n < 2 ^ (f.p - 1) then n else ((q - f.qmin).toNat + 1) * 2 ^ (f.p - 1) + (n - 2 ^ (f.p - 1))

/-- The code of the largest finite value. -/
def FloatFmt.maxCode (f : FloatFmt) : Nat := f.code f.maxM f.maxE

/-- The value of a code of a format, its sign apart, where it is finite. -/
def FloatFmt.value (f : FloatFmt) (neg : Bool) (c : Nat) : FV :=
  let ex := c / 2 ^ (f.p - 1)
  let man := c % 2 ^ (f.p - 1)
  if ex = 0 then .fin neg man f.qmin else .fin neg (man + 2 ^ (f.p - 1)) (f.qmin + ((ex - 1 : Nat) : Int))

/-- The finite value n x 2^q exceeds the format's largest (06 R168). -/
def FloatFmt.exceeds (f : FloatFmt) (n : Nat) (q : Int) : Bool :=
  FV.lt (.fin false f.maxM f.maxE) (.fin false n q)

/-- Decode an IEEE-like code with infinities: the exponent of all ones is infinity or NaN. -/
def FloatFmt.decodeIeee (f : FloatFmt) (raw : Nat) : FV :=
  let neg := raw.testBit f.bits
  let c := raw % 2 ^ f.bits
  if c / 2 ^ (f.p - 1) = 2 ^ f.expBits - 1 then (if c % 2 ^ (f.p - 1) = 0 then .inf neg else .nan) else f.value neg c

/-- The value of an FP32 pattern. -/
def fp32 (raw : Nat) : FV := fmtFp32.decodeIeee raw

/-- The sign bit of a pattern. -/
def signBit (bits : Nat) (neg : Bool) : Nat := if neg then 2 ^ bits else 0

/-- Encode to an IEEE-like format (06 R168): NaN is the canonical positive one; an overflow saturates or gives infinity. -/
def FloatFmt.encodeIeee (f : FloatFmt) (rnd : Rnd) (sat : Bool) : FV → Nat
  | .nan => (2 ^ f.expBits - 1) * 2 ^ (f.p - 1) + 2 ^ (f.p - 2)
  | .inf s => signBit f.bits s + (2 ^ f.expBits - 1) * 2 ^ (f.p - 1)
  | .fin s m e =>
    if m = 0 then signBit f.bits s
    else
      let r := roundFloat rnd f.p f.qmin m e
      signBit f.bits s + (if f.exceeds r.1 r.2 then (if sat then f.maxCode else (2 ^ f.expBits - 1) * 2 ^ (f.p - 1))
                          else f.code r.1 r.2)

/-- The FP32 pattern nearest a value, ties to even; an overflow gives infinity. -/
def enc32 (v : FV) : Nat := fmtFp32.encodeIeee .rne false v

/-- The function f32() of the manual: round to FP32 by round-to-nearest-even (06 R148). -/
def f32 (v : FV) : FV := fp32 (enc32 v)

/-! ## Element formats (06 R144 to R153) -/

/-- Bits of an element of a format code, packed rows and two-level formats by their elements (06 R147, R148). -/
def elemBits (fmt : Nat) : Nat :=
  match fmt with
  | 0x04 => 32 | 0x05 => 16 | 0x06 => 16 | 0x07 => 8 | 0x08 => 8 | 0x09 => 4 | 0x0A => 8 | 0x0B => 4 | 0x0C => 32
  | 0x10 => 8 | 0x11 => 4 | 0x12 => 8 | 0x13 => 4 | 0x14 => 8 | 0x15 => 4 | 0x16 => 8 | 0x17 => 4 | _ => 8

/-- A plain format or INT32 (06 R144, R145). -/
def isPlain (fmt : Nat) : Bool := decide (0x04 ≤ fmt) && decide (fmt ≤ 0x0C)

/-- A two-level format (06 R148). -/
def isTwoLevel (fmt : Nat) : Bool := decide (0x10 ≤ fmt) && decide (fmt ≤ 0x13)

/-- A packed-row format (06 R153). -/
def isPackedRow (fmt : Nat) : Bool := decide (0x14 ≤ fmt) && decide (fmt ≤ 0x17)

/-- A single-level scaled format (06 R154). -/
def isSingleLevel (fmt : Nat) : Bool := decide (0x07 ≤ fmt) && decide (fmt ≤ 0x0B)

/-- A format code that is not reserved (06 R153). -/
def isFormat (fmt : Nat) : Bool :=
  decide (fmt ≤ 0x02) || isPlain fmt || isTwoLevel fmt || isPackedRow fmt

/-- The two-level format of a packed-row format. -/
def rowBase (fmt : Nat) : Nat := if isPackedRow fmt then fmt - 4 else fmt

/-- The element format of a two-level or packed-row format: E4M3, E2M1, INT8, INT4 (06 R148). -/
def elemFmt (fmt : Nat) : Nat :=
  match rowBase fmt with | 0x10 => 0x07 | 0x11 => 0x09 | 0x12 => 0x0A | 0x13 => 0x0B | _ => fmt

/-- E_max of a two-level format (06 R148). -/
def eMax (fmt : Nat) : Nat := match rowBase fmt with | 0x10 => 448 | 0x11 => 6 | 0x12 => 127 | _ => 7

/-- Data tiles per scale tile, G (06 R148). -/
def groupSize (fmt : Nat) : Nat := if fmt = 0x10 ∨ fmt = 0x12 then 16 else 8

/-- Elements per tile (06 R147, R148). -/
def elemsPerTile (fmt : Nat) : Nat := 32768 / elemBits fmt

/-- The value of an element code, scales apart (06 R144, R145). -/
def decodeElem (fmt raw : Nat) : FV :=
  match fmt with
  | 0x04 => fp32 raw
  | 0x05 => fmtBf16.decodeIeee raw
  | 0x06 => fmtFp16.decodeIeee raw
  | 0x07 => if raw % 128 = 127 then .nan else fmtE4m3.value (raw.testBit 7) (raw % 128)
  | 0x08 => fmtE5m2.decodeIeee raw
  | 0x09 => fmtE2m1.value (raw.testBit 3) (raw % 8)
  | 0x0A => FV.ofInt (signed 8 (raw % 256))
  | 0x0B => FV.ofInt (signed 4 (raw % 16))
  | 0x0C => FV.ofInt (signed 32 (raw % 2 ^ 32))
  | _ => FV.ofNat raw

/-- Round to an integer of `w` bits, two's complement, saturating; NaN gives 0 (06 R168). `lo` is the least value. -/
def encodeInt (w : Nat) (lo : Int) (rnd : Rnd) : FV → Nat
  | .nan => 0
  | .inf s => wrap w (if s then lo else (2 : Int) ^ (w - 1) - 1)
  | .fin s m e =>
    let n : Int := ((roundUnits rnd m e 0 : Nat) : Int)
    wrap w (max lo (min ((2 : Int) ^ (w - 1) - 1) (if s then -n else n)))

/-- Convert a value to an element format under a rounding and SAT (06 R166 to R168). -/
def convert (fmt : Nat) (rnd : Rnd) (sat : Bool) (v : FV) : Nat :=
  match fmt with
  | 0x04 => fmtFp32.encodeIeee rnd sat v
  | 0x05 => fmtBf16.encodeIeee rnd sat v
  | 0x06 => fmtFp16.encodeIeee rnd sat v
  | 0x08 => fmtE5m2.encodeIeee rnd sat v
  | 0x07 => match v with
    | .nan => 0x7F
    | .inf s => if sat then signBit 7 s + 0x7E else 0x7F
    | .fin s m e =>
      if m = 0 then signBit 7 s
      else
        let r := roundFloat rnd 4 (-9) m e
        if fmtE4m3.exceeds r.1 r.2 then (if sat then signBit 7 s + 0x7E else 0x7F) else signBit 7 s + fmtE4m3.code r.1 r.2
  | 0x09 => match v with
    | .nan => 0
    | .inf s => signBit 3 s + 7
    | .fin s m e =>
      if m = 0 then signBit 3 s
      else
        let r := roundFloat rnd 2 (-1) m e
        signBit 3 s + (if fmtE2m1.exceeds r.1 r.2 then 7 else fmtE2m1.code r.1 r.2)
  | 0x0A => encodeInt 8 (-128) rnd v
  | 0x0B => encodeInt 4 (-8) rnd v
  | 0x0C => encodeInt 32 (-(2 ^ 31 : Int)) rnd v
  | _ => encodeInt 9 0 rnd v % 256

/-- Convert an element of a two-level or packed-row format: integers stay in the symmetric range (06 R150), and SAT
counts as 1 (06 R161). -/
def convertTwo (fmt : Nat) (rnd : Rnd) (v : FV) : Nat :=
  match elemFmt fmt with
  | 0x0A => encodeInt 8 (-127) rnd v
  | 0x0B => encodeInt 4 (-7) rnd v
  | f => convert f rnd true v

/-- The decoded UE4M3 scale of a byte, with the refinement of J4 and J4R (06 R149, R151). -/
def subScale (fmt b : Nat) : FV :=
  if b % 128 = 127 then .nan
  else
    let v := fmtE4m3.value false (b % 128)
    if rowBase fmt = 0x11 ∧ b.testBit 7 = true then FV.mul (.fin false 3 (-2)) v else v

/-- An element of a two-level tile or packed row: f32(f32(e x s) x T) (06 R148). -/
def decodeTwo (fmt raw scaleByte : Nat) (t : FV) : FV :=
  f32 (FV.mul (f32 (FV.mul (decodeElem (elemFmt fmt) raw) (subScale fmt scaleByte))) t)

/-- The code of the smallest UE4M3 value not below a value, at most 448 (06 R161). -/
def ue4m3Ceil : FV → Nat
  | .nan => 0x7F
  | .inf _ => 0x7E
  | .fin _ m e =>
    if m = 0 then 0
    else
      let r := roundFloat .up 4 (-9) m e
      if fmtE4m3.exceeds r.1 r.2 then 0x7E else fmtE4m3.code r.1 r.2

/-- Largest of a list of magnitudes (NaN apart). -/
def maxAbs : List FV → FV
  | [] => FV.zero
  | v :: t => let r := maxAbs t; if FV.lt r v.abs then v.abs else r

/-- Quantise one sub-block of 16 values with tile scale `t` (06 R161): its scale byte and its element codes, under a
rounding for each element. -/
def quantBlock (fmt : Nat) (t : FV) (blk : List (FV × Rnd)) : Nat × List Nat :=
  if blk.any (fun v => v.1.special) then (0x7F, blk.map (fun _ => 0))
  else
    let d := f32 (FV.mul (FV.ofNat (eMax fmt)) t)
    let a := maxAbs (blk.map Prod.fst)
    let plain := if a.isZero then 0 else max 1 (ue4m3Ceil (f32 (FV.div a d)))
    let q2 := f32 (FV.div a (f32 (FV.mul (.fin false 3 (-2)) d)))
    let c2 := max 1 (ue4m3Ceil q2)
    let three4 : FV := .fin false 3 (-2)
    let ref : Bool := rowBase fmt == 0x11 && !a.isZero && FV.le q2 (FV.ofNat 448)
      && FV.lt (f32 (FV.mul three4 (fmtE4m3.value false c2))) (fmtE4m3.value false plain)
    let c := if ref then c2 else plain
    let s := fmtE4m3.value false c
    let r := if ref then f32 (FV.mul (f32 (FV.mul three4 s)) t) else f32 (FV.mul s t)
    ((if ref then c + 128 else c),
     blk.map (fun v => if r.isZero then 0 else convertTwo fmt v.2 (f32 (FV.div v.1 r))))

/-- Cut a list into runs of `n`, with fuel. -/
def chunks {α : Type} (n : Nat) : Nat → List α → List (List α)
  | 0, _ => []
  | _ + 1, [] => []
  | fuel + 1, a :: t => (a :: t).take n :: chunks n fuel ((a :: t).drop n)

/-- Quantise values in sub-blocks of 16: scale bytes and element codes (06 R161). -/
def quantise (fmt : Nat) (t : FV) (vs : List (FV × Rnd)) : List Nat × List Nat :=
  let bs := (chunks 16 (vs.length / 16 + 1) vs).map (quantBlock fmt t)
  (bs.map Prod.fst, bs.flatMap Prod.snd)

/-- Pack element codes of a format into bytes (06 R147). -/
def packElems (bits : Nat) : List Nat → List Byte
  | [] => []
  | [a] => if bits = 4 then [BitVec.ofNat 8 (a % 16)] else leBytes (bits / 8) a
  | a :: b :: t =>
    if bits = 4 then BitVec.ofNat 8 (a % 16 + 16 * (b % 16)) :: packElems bits t
    else leBytes (bits / 8) a ++ (leBytes (bits / 8) b ++ packElems bits t)

/-- The code of element `k` in packed bytes (06 R147). -/
def elemRaw (bits : Nat) (bs : List Byte) (k : Nat) : Nat :=
  if bits = 4 then ((listGet 0 bs (k / 2)).toNat / (if k % 2 = 0 then 1 else 16)) % 16
  else leField bs (k * (bits / 8)) (bits / 8)

/-- Bytes of a row of `n` elements of a row format: packed rows with scales, row scale and padding (06 R163); plain rows
padded to 32 bytes (09 R240). -/
def rowLen (fmt n : Nat) : Nat :=
  let raw := if isPackedRow fmt then n * elemBits fmt / 8 + n / 16 + 4 else n * elemBits fmt / 8
  ceilDiv raw 32 * 32

/-- Decode a row of `n` elements from its bytes (06 R163, R172). -/
def decodeRow (fmt n : Nat) (bs : List Byte) : List FV :=
  if isPackedRow fmt then
    let eb := n * elemBits fmt / 8
    let t := fp32 (leField bs (eb + n / 16) 4)
    (upTo n).map (fun k => decodeTwo fmt (elemRaw (elemBits fmt) bs k) ((listGet 0 bs (eb + k / 16)).toNat) t)
  else (upTo n).map (fun k => decodeElem fmt (elemRaw (elemBits fmt) bs k))

/-- Encode a row: a packed row takes its row scale from the row alone (06 R164); a plain one converts each element. -/
def encodeRow (fmt n : Nat) (sat : Bool) (vs : List (FV × Rnd)) : List Byte :=
  if isPackedRow fmt then
    let a := maxAbs (vs.map Prod.fst)
    let bad := vs.any (fun v => v.1.special)
    let t := if bad ∨ a.isZero = true then FV.ofNat 1 else f32 (FV.div a (FV.ofNat (eMax fmt * 448)))
    let q := if bad then (List.replicate (n / 16) 0x7F, List.replicate n 0) else quantise fmt t vs
    padTo (rowLen fmt n) (packElems (elemBits fmt) q.2 ++ (q.1.map (BitVec.ofNat 8) ++ leBytes 4 (enc32 t)))
  else padTo (rowLen fmt n) (packElems (elemBits fmt) (vs.map (fun v => convert fmt v.2 sat v.1)))

/-! ## The stochastic-rounding generator (06 R169, R170) -/

/-- Draw `j` of a command with captured key and counter (06 R170). -/
def srDraw (key ctr j : Nat) : Nat :=
  let m := 2 ^ 64
  let z := (key + (ctr + j) * 0x9E3779B97F4A7C15) % m
  let z := ((z ^^^ (z >>> 30)) * 0xBF58476D1CE4E5B9) % m
  let z := ((z ^^^ (z >>> 27)) * 0x94D049BB133111EB) % m
  z ^^^ (z >>> 31)

/-- Bits [63:40] of the draw for element `i` at rounding point `p` (06 R167, R170). -/
def srBits (key ctr p i : Nat) : Nat := srDraw key ctr (p * 2 ^ 29 + i) >>> 40

/-- The rounding of element `i` at rounding point `p` under a code and a captured generator state. -/
def rndAt (code key ctr p i : Nat) : Rnd := rndOf code (srBits key ctr p i)

/-! ## Scale slots (06 R175, R176) -/

/-- Q of a TARGET (06 R176). -/
def scaleQ (target : Nat) : Nat :=
  match target with
  | 0 => 200704 | 1 => 2688 | 2 => 56896 | 3 => 3136 | 4 => 448 | 5 => 57344 | 6 => 6 | 7 => 127 | _ => 7

/-- 2^n as a value. -/
def pow2 (n : Int) : FV := .fin false 1 n

/-- The smallest power of two not below a positive value. -/
def ceilPow2 : FV → FV
  | .fin s m e => if m = 2 ^ (bitLen m - 1) then .fin s m e else pow2 (e + bitLen m)
  | v => v

/-- The scale of an amax `a` (06 R175 step 3): the FP32 pattern, and whether the clamp changed it. -/
def scaleFrom (a : FV) (margin : Int) (target rule : Nat) : Nat × Bool :=
  let t := f32 (FV.div (f32 (FV.mul a (pow2 margin))) (FV.ofNat (scaleQ target)))
  let t := if rule = 0 ∧ t.isZero = false then ceilPow2 t else t
  if FV.lt t (pow2 (-126)) then (enc32 (pow2 (-126)), true)
  else if FV.lt (pow2 127) t then (enc32 (pow2 127), true)
  else (enc32 t, false)

end Sys2Proof.Machine
end

