-- ==== Sys2Proof/Machine/Tiles.lean ====
section
/-! DEFINITION. Tiles and frames: headers and checks (06 R152; 14 R418, R419), the fault log (14 R441, R442), poison and
retirement (14 R422, R423), heat (10 R308), frame states (10 R298) and the flip (05 R124). -/

namespace Sys2Proof.Machine

/-! ## Headers -/

/-- TILE_SCALE 1.0 as an FP32 pattern. -/
def scaleOne : Nat := 0x3F800000

/-- Header bytes 0 to 7 (06 R152). -/
def headerBytes (fmt tile seq scale : Nat) : List Byte :=
  leBytes 2 (fmt + (tile % 2048) * 32) ++ leBytes 2 seq ++ leBytes 4 scale

/-- Header bytes 0 to 7 of a frame. -/
def State.header (s : State) (f : Nat) : List Byte := s.bytesAt (frameHdr f) 8

/-- SCALE_SEQ of a frame. -/
def State.scaleSeq (s : State) (f : Nat) : Nat := leField (s.header f) 2 2

/-- TILE_SCALE of a frame, an FP32 pattern. -/
def State.tileScale (s : State) (f : Nat) : Nat := leField (s.header f) 4 4

/-- The data bytes of a frame. -/
def State.data (s : State) (f : Nat) : List Byte := s.bytesAt (frameData f) 4096

/-- BLOCK_CHECK of a frame: it is recomputed at every write, so it is a function of data and header (14 R418, R420;
12 R364, R367). -/
def State.blockCheck (s : State) (f : Nat) : Nat := crc64 (s.data f ++ s.header f)

/-- The row check of a row's bytes (14 R419). -/
def rowCheck (row : List Byte) : Nat := crc32c row % 65536

/-- The row-check array of a frame whose tile holds rows of `b` bytes, 256 bytes (14 R419). -/
def State.rowChecks (s : State) (f b : Nat) : List Byte :=
  if b = 0 then zeros 256
  else padTo 256 ((upTo (4096 / b)).flatMap (fun k => leBytes 2 (rowCheck (s.bytesAt (frameData f + k * b) b))))

/-- Write a whole tile: data, and header bytes 0 to 7. -/
def State.writeFrame (s : State) (f : Nat) (bytes : List Byte) (fmt tile seq scale : Nat) : State :=
  (s.writeBytes (frameData f) (padTo 4096 bytes)).writeBytes (frameHdr f) (headerBytes fmt tile seq scale)

/-- Copy a tile with its header from a frame to another. -/
def State.copyFrame (s : State) (src dst : Nat) : State :=
  (s.writeBytes (frameData dst) (s.data src)).writeBytes (frameHdr dst) (s.header src)

/-- The format of a tile of an object: the scale tiles of a two-level object are SCALE (06 R155, 10 R313). -/
def Obj.tileFmt (o : Obj) (tile : Nat) : Nat :=
  if isTwoLevel o.fmt && o.scaleObj == 0 && decide (o.dataTiles ≤ tile) then 0x02 else o.fmt

/-- The filtered input voltage in mV (16 R470): the median of the last 8 valid samples, 42.9 V in a meter timeout. -/
def State.vinMv (s : State) : Nat := if s.sup.meterTimeout then 42900 else (median s.sup.vin.vals).toNat

/-! ## The fault log (14 R441, R442) -/

/-- Append a record to the fault-log buffer, or drop it when 256 wait. -/
def State.faultLog (s : State) (kind wh cause op a b tier fr : Nat) : State :=
  let body := leBytes 8 s.tickN ++ leBytes 4 s.stamp ++ leBytes 1 kind ++ leBytes 1 wh ++ leBytes 1 cause ++ leBytes 1 op ++
    leBytes 4 a ++ leBytes 8 b ++ leBytes 4 tier ++ leBytes 8 fr ++ leBytes 4 s.integ.boots ++ zeros 16
  let r := body ++ leBytes 4 (crc32c body)
  if s.integ.logBuf.length < 256 then { s with integ := { s.integ with logBuf := s.integ.logBuf ++ [r] } }
  else ({ s with integ := { s.integ with logDropped := satAdd 16 s.integ.logDropped 1 } }).raise .int 0 0x000 6

/-- The number of a frame within its tier. -/
def frameNo (f : Nat) : Nat :=
  match tierOf f with
  | 0 => f - scratchBase | 1 => f - atticBase | 2 => f - storeBase | _ => f - cellarBase

/-- The code of a cause of poison (14 R441). -/
def poisonCode : PoisonCause → Nat
  | .w256 => 1 | .ldpc => 2 | .blockCheck => 3 | .tileSeq => 4 | .format => 5 | .rowCheck => 6

/-- Retire a frame (14 R423): never allocated again, recorded, `EV_FRAME_RETIRED` (DEDUCED, log entry 56). -/
def State.retireFrame (s : State) (f : Nat) : State :=
  let r := s.frame f
  let s1 := s.setFrame f { r with state := .free, obj := 0, tile := 0, cls := 0, retired := true, retireNext := false }
  let s2 := { s1 with integ := { s1.integ with retireFrames := s1.integ.retireFrames ++ [f] },
                      icnt := { s1.icnt with framesRetired := satAdd 16 s1.icnt.framesRetired 1 } }
  (s2.faultLog 8 0xFF 0 0 0 0 (tierOf f) (frameNo f)).raise .int 0 0x000 5

/-! ## Heat (10 R308) -/

/-- The heat page of an attic or store-room frame. -/
def heatPage (f : Nat) : Option Nat :=
  match tierOf f with
  | 1 => some ((f - atticBase) / 16)
  | 2 => some (3145728 + (f - storeBase) / 16)
  | _ => none

/-- The heat counter of a page. -/
def State.heat (s : State) (p : Nat) : Nat := Sparse.get (fun _ => 0) s.place.heat p

/-- An access to a frame: its page's counter, or its access bit. -/
def State.touch (s : State) (f : Nat) : State :=
  match heatPage f with
  | some p => { s with place := { s.place with heat := Sparse.put (fun _ => 0) s.place.heat p (min 255 (s.heat p + 1)) } }
  | none => if tierOf f = 0 then s.setFrame f { s.frame f with access := true, idle := 0 } else s

/-! ## Frame states -/

/-- A run reads a frame, or an earlier run of a repeat pair did (05 R124, 14 R428). -/
def State.frameRead (s : State) (f : Nat) : Bool :=
  s.clus.any (fun x => match x.2.run with | some r => r.reads.contains f | none => false) ||
  s.gfe.cmds.any (fun d => match d.more with | some m => m.view.any (fun v => v.2.2 == f) | none => false) ||
  s.xfers.any (fun x => x.fid == f)

/-- A frame becomes FREE, or is retired if it was marked (10 R298, 14 R423). -/
def State.freeFrame (s : State) (f : Nat) : State :=
  let r := s.frame f
  if r.retireNext then s.retireFrame f
  else s.setFrame f { FrameRec.init with retired := r.retired, corrected := r.corrected }

/-- A frame that is no longer a home: SHADOW while reads of it run, then FREE (10 R298). A poisoned one is free at once. -/
def State.leaveHome (s : State) (f : Nat) : State :=
  if s.frameRead f && (s.frame f).state != .poisoned then s.setFrame f { s.frame f with state := .shadow }
  else s.freeFrame f

/-- Free the replaced homes of a list that nothing reads any more. -/
def State.releaseReads (s : State) (fs : List Nat) : State :=
  fs.foldl (fun t f =>
    let r := t.frame f
    if r.state = .shadow ∧ t.frameRead f = false ∧ t.homeOf r.obj r.tile ≠ some f ∧
       !(t.clus.any (fun x => match x.2.run with
          | some n => (match n.work with | some w => w.shadows.any (fun h => h.fid == f) | none => false)
          | none => false))
    then t.freeFrame f else t) s

/-- A FREE frame becomes SHADOW for a tile. -/
def State.takeShadow (s : State) (f obj tile cls : Nat) : State :=
  s.setFrame f { s.frame f with state := .shadow, obj := obj, tile := tile, cls := cls }

/-- The class that a tile of an object counts under once it is at home (05 R133). -/
def State.classOf (s : State) (h d : Nat) : Nat := match s.obj? h with | some o => o.cls | none => d

/-- A frame becomes the HOME of a tile, and counts under the class that its object is declared with (05 R133). -/
def State.makeHome (s : State) (f obj tile : Nat) : State :=
  (s.setFrame f { s.frame f with state := .home, obj := obj, tile := tile, cls := s.classOf obj (s.frame f).cls, access := true }).setHome
    obj tile f

/-- The move in progress on a tile (10 R300). -/
def State.moveOf (s : State) (h tile : Nat) : Option Move :=
  s.place.moves.find? (fun m => m.obj == h && m.tile == tile)

/-- Take a move off the moves in progress. -/
def State.dropMove (s : State) (h tile : Nat) : State :=
  { s with place := { s.place with moves := s.place.moves.filter (fun m => !(m.obj == h && m.tile == tile)) } }

/-- Take one waiting move off the list. -/
def State.unlistWant (s : State) (w : MoveWant) : State :=
  { s with place := { s.place with wants := s.place.wants.erase w } }

/-- A tile's waiting moves are given up: the frames reserved for them become FREE (10 R320). -/
def State.dropWant (s : State) (h tile : Nat) : State :=
  let s1 := ((s.place.wants.filter (fun m => m.obj == h && m.tile == tile)).filterMap MoveWant.dst).foldl State.freeFrame s
  { s1 with place := { s1.place with wants := s1.place.wants.filter (fun m => !(m.obj == h && m.tile == tile)) } }

/-- Keep the first `k` elements of a list that have a property, and all that have not. -/
def keepFirst (p : CellarOp → Bool) : List CellarOp → Nat → List CellarOp
  | [], _ => []
  | x :: t, k => if p x then (if k = 0 then keepFirst p t 0 else x :: keepFirst p t (k - 1)) else x :: keepFirst p t k

/-- Stream transfers in flight that wait for a tile of the cellar: each holds a queue slot throughout (11 R341). -/
def State.slotHolders (s : State) (h tile : Nat) : Nat :=
  (s.xfers.filter (fun x => x.fid == 0 && x.obj == h && x.tile == tile)).length

/-- Return the cellar queue slots of a tile but for `k` (10 R290). -/
def State.keepSlots (s : State) (h tile k : Nat) : State :=
  { s with place := { s.place with cellar := keepFirst (fun m => m.obj == h && m.tile == tile) s.place.cellar k } }

/-- Return the cellar queue slot of a tile's move (10 R290). -/
def State.dropCellar (s : State) (h tile : Nat) : State := s.keepSlots h tile (s.slotHolders h tile)

/-- Abandon the move of a tile: its destination becomes FREE; a move of a command, a fetch or a demotion is retried at once
if `retry` says so (10 R301). -/
def State.abandonMove (s : State) (h tile : Nat) (retry : Bool) : State :=
  match s.moveOf h tile with
  | none => s
  | some m =>
    let s1 := ((s.dropMove h tile).dropCellar h tile).freeFrame m.dst
    let again := match m.kind with | .background => false | _ => retry
    let s2 := if again then { s1 with place := { s1.place with
        wants := s1.place.wants ++ [⟨h, tile, tierOf m.dst, (if tierOf m.dst = 0 then cluOf m.dst else 0), m.kind, none, m.order⟩] } }
      else s1
    if (s2.frame m.src).state = .shadow then s2.releaseReads [m.src] else s2

/-- A frame is not moved any more: a move of it is abandoned, and one that waits is given up (10 R298, R301). -/
def State.holdHome (s : State) (h tile f : Nat) : State :=
  let s1 := match s.moveOf h tile with
    | some m => if m.src = f then s.abandonMove h tile false else s
    | none => s
  if s1.homeOf h tile = some f then s1.dropWant h tile else s1

/-- A HOME frame becomes POISONED (14 R422): a move of it is abandoned, and one that waits is given up (10 R298, R301). Frames of
the cellar are never retired. -/
def State.poisonFrame (s : State) (f : Nat) (c : PoisonCause) : State :=
  let r := s.frame f
  let retire : Bool := (c == .w256) && s.fld .int 0 0x014 8 8 == 1 && tierOf f != 3
  let s1 := s.setFrame f { r with state := .poisoned, retireNext := r.retireNext || retire }
  let s2 := { s1 with integ := { s1.integ with
    poison := (r.obj, r.tile, poisonCode c, tierOf f), ue := satAdd 16 s1.integ.ue 1 } }
  ((s2.faultLog 9 0xFF (poisonCode c) 0 r.obj r.tile (tierOf f) (frameNo f)).raiseEvent 16).holdHome r.obj r.tile f

/-- The flip of one output tile (05 R124; 10 R301, R302): the shadow becomes the HOME, the replaced home goes, and a move
of the tile is abandoned, complete if the shadow lies in its destination tier. -/
def State.flipTile (s : State) (h : Shadow) : State :=
  let s1 := match s.moveOf h.obj h.tile with
    | some m => s.abandonMove h.obj h.tile (match m.kind with
        | .command _ => tierOf h.fid != tierOf m.dst | .fetch => false | _ => tierOf h.fid != tierOf m.dst)
    | none => s
  let old := s1.homeOf h.obj h.tile
  let s2 := s1.makeHome h.fid h.obj h.tile
  match old with
  | some f => if f = h.fid then s2 else s2.leaveHome f
  | none => s2

/-- The flip of all output tiles of a command. -/
def State.flipAll (s : State) (hs : List Shadow) : State := hs.foldl State.flipTile s

/-- Free the shadow tiles of a run that ends without a flip (05 R126). -/
def State.freeShadows (s : State) (hs : List Shadow) : State := hs.foldl (fun t h => t.freeFrame h.fid) s

/-! ## Freed objects (10 R318) -/

/-- A command names a handle in its operands. -/
def Cmd.names (d : Cmd) (h : Nat) : Bool := (handleFields d.slot).any (fun o => op32 d.slot o == h)

/-- A freed object is still in use: by a command issued or in resolution that names it, a launch and a patch among them (03 R90), as
the source of a clone (10 R323) or of a stream transfer in flight (11 R348), or by a read that runs. -/
def State.inUse (s : State) (h : Nat) (o : Obj) : Bool :=
  s.gfe.cmds.any (fun d => d.names h && (d.begun || d.phase == .resolving || d.phase == .ready)) ||
  s.objs.any (fun x => match x.2.creation with | .copying _ src => src == h | _ => false) ||
  s.xfers.any (fun x => x.obj == h) || o.map.any (fun m => s.frameRead m.2)

/-- Forget a freed object once its last use has ended: its frames become FREE (10 R298, R318). -/
def State.reap (s : State) (h : Nat) : State :=
  match s.obj? h with
  | none => s
  | some o =>
    if o.freed && !s.inUse h o then
      let s1 := (s.place.moves.filter (fun m => m.obj == h)).foldl (fun t m => t.abandonMove h m.tile false) s
      let s2 := (s1.place.wants.filter (fun w => w.obj == h)).foldl (fun t w => t.dropWant h w.tile) s1
      (o.map.foldl (fun t m => t.freeFrame m.2) s2).dropObj h
    else s

/-- Forget every freed object whose last use has ended. -/
def State.reapAll (s : State) : State :=
  (s.objs.filter (fun x => x.2.freed)).foldl (fun t x => t.reap x.1) s

/-! ## Capacity (05 R133, R134; 10 R295) -/

/-- The reserve of a class in tiles (05 R133). -/
def State.reserveOf (s : State) (cls : Nat) : Nat :=
  match cls with
  | 0 => s.fld .gfe 0 0x360 13 0 | 1 => s.fld .gfe 0 0x360 29 16 | 2 => s.fld .gfe 0 0x364 13 0 | _ => s.fld .gfe 0 0x364 29 16

/-- Tiles of class `c` held in cluster `n`'s scratchpad: its frames in use and its reservations (05 R133, R135). -/
def State.heldTiles (s : State) (n c : Nat) : Nat :=
  let rg := scratchRange n
  countIn (fun r => r.cls == c && r.state != .free) s.frames rg.1 (rg.1 + rg.2) +
  ((s.resvs.filter (fun r => r.clu == n && r.cls == c)).map (fun r => r.count)).foldl (· + ·) 0

/-- Retired frames of a scratchpad: they count as HOME (14 R423) and can hold nothing. -/
def State.retiredTiles (s : State) (n : Nat) : Nat :=
  countIn (fun r => r.retired) s.frames (scratchRange n).1 ((scratchRange n).1 + (scratchRange n).2)

/-- Tiles that a class can still take in a scratchpad: what is free of its reserve and of the shared part (05 R134). -/
def State.classRoom (s : State) (n c : Nat) : Nat :=
  let held := fun k => s.heldTiles n k
  let beyond := fun k => held k - s.reserveOf k
  let reserves := s.reserveOf 0 + s.reserveOf 1 + s.reserveOf 2 + s.reserveOf 3
  let shared := 12288 - s.retiredTiles n - reserves
  (s.reserveOf c - held c) + (shared - (beyond 0 + beyond 1 + beyond 2 + beyond 3))

/-- Map frames of the attic taken for an object of `t` tiles (10 R295). -/
def mapFrames (t : Nat) : Nat := ceilDiv t 512

/-- Attic frames that the object maps of live objects take (10 R295). -/
def State.mapTaken (s : State) : Nat := (s.objs.map (fun o => mapFrames o.2.tiles)).foldl (· + ·) 0

/-- FREE frames of a tier outside the scratchpads, those of the object maps taken off (10 R295, R331). -/
def State.allFree (s : State) (tier : Nat) : Nat :=
  s.freeCount (s.tierRange tier) - (if tier = 1 then s.mapTaken else 0)

/-- FREE frames of a tier on targets that do not serve (10 R330). -/
def State.offFree (s : State) (tier : Nat) : Nat :=
  ((s.place.targets.filter (fun x => !x.2.serve && !x.2.mappedOut &&
      (if tier = 1 then decide (x.1 < 512) else if tier = 2 then decide (512 ≤ x.1) else false))).map (fun x =>
    (if tier = 1 then 98304 else 262144) -
      (s.frames.filter (fun f => tierOf f.1 == tier && !f.2.usable && s.targetOf f.1 == x.1)).length)).foldl (· + ·) 0

/-- Free frames of a tier outside the scratchpads that can be allocated now (10 R295, R298, R330). -/
def State.tierFree (s : State) (tier : Nat) : Nat := s.allFree tier - s.offFree tier

/-- Up to `n` frames of the attic, those of one object round-robin over the pseudo-channels in service from that of the lowest free
frame on (10 R285; DESIGN CHOICE, log entry 8). -/
def State.atticFree (s : State) (n : Nat) : List Nat :=
  let fs := s.pickFree (s.tierRange 1) n
  if inRow fs then fs else s.pickRound fs.length ((listGet atticBase fs 0 - atticBase) % s.place.atticPcs) []

/-- Up to `n` frames of a tier, or of a cluster's scratchpad for a class within its room. -/
def State.framesFor (s : State) (tier n clu cls : Nat) : List Nat :=
  if tier = 0 then s.pickFree (scratchRange clu) (min n (s.classRoom clu cls))
  else if tier = 1 then s.atticFree (min n (s.tierFree 1))
  else s.pickFree (s.tierRange tier) (min n (s.tierFree tier))

/-- The tier of a tile's home, the attic for one in the cellar, with the cluster of a scratchpad (10 R302). -/
def State.homeTier (s : State) (h tile : Nat) : Nat × Nat :=
  match s.homeOf h tile with
  | some f => if tierOf f = 3 then (1, 0) else (tierOf f, if tierOf f = 0 then cluOf f else 0)
  | none => (1, 0)

/-- The destination of a `MOVE` in progress on a tile, as a tier and the cluster of a scratchpad (10 R302). -/
def State.moveTier (s : State) (h tile : Nat) : Option (Nat × Nat) :=
  match s.moveOf h tile with
  | some m => match m.kind with
    | .command _ => some (tierOf m.dst, if tierOf m.dst = 0 then cluOf m.dst else 0)
    | _ => none
  | none => none

/-- The tier in which an output tile's shadow is allocated, with the cluster for a scratchpad (10 R302). -/
def State.shadowTier (s : State) (h tile : Nat) : Nat × Nat := (s.moveTier h tile).getD (s.homeTier h tile)

/-- The tier in which a command's shadow for an output tile is allocated: the destination of a `MOVE` in progress on the tile, else
the tier of its home at the command's admission (10 R302). -/
def State.cmdTier (s : State) (id h tile : Nat) : Nat × Nat :=
  match s.moveTier h tile with
  | some t => t
  | none => match (s.extra id).homes.find? (fun x => x.1 == h && x.2.1 == tile) with
    | some x => x.2.2
    | none => s.homeTier h tile

/-- Allocate a shadow tile for an output tile in a tier, in a scratchpad within its class's room (05 R134), else lower
(DEDUCED, log entry 15). -/
def State.allocShadow (s : State) (t : Nat × Nat) (h tile cls : Nat) : Option (Nat × State) :=
  match s.framesFor t.1 1 t.2 cls ++ s.framesFor 1 1 0 cls ++ s.framesFor 2 1 0 cls with
  | [] => none
  | f :: _ => some (f, s.takeShadow f h tile cls)

/-! ## Charges of an engine's accesses (05 R140) -/

/-- An engine of cluster `n` reads `k` bytes of a frame for channel `c`. -/
def State.engineRead (s : State) (c n f k : Nat) : State :=
  let s1 := s.touch f
  if tierOf f = 0 ∧ cluOf f = n then s1 else s1.chargeMove c (tierOf f) 0 k

/-- An engine of cluster `n` reads `k` bytes of a frame `times` times for channel `c`. -/
def State.engineReads (s : State) (c n f k times : Nat) : State :=
  let s1 := (upTo (min times 255)).foldl (fun t _ => t.touch f) s
  if tierOf f = 0 ∧ cluOf f = n then s1 else s1.chargeMove c (tierOf f) 0 (k * times)

/-- An engine of cluster `n` writes `k` bytes to a frame for channel `c`. -/
def State.engineWrite (s : State) (c n f k : Nat) : State :=
  let s1 := s.touch f
  if tierOf f = 0 ∧ cluOf f = n then s1 else s1.chargeMove c 0 (tierOf f) k

end Sys2Proof.Machine
end

