-- ==== Sys2Proof/Machine/Gfe.lean ====
section
/-! DEFINITION. Commands that the front end executes without a cluster: their issue from a head, and `NOP`, `TIMESTAMP`,
the fence commands and `HOST_FENCE` (03 R91, R92; 04 R99 to R107, R113, R114). -/

namespace Sys2Proof.Machine

/-! ## Issue from a head -/

/-- Mark a slot QUIET: a skipped list slot writes no record (03 R79). -/
def quietSlot (b : List Byte) : List Byte := putBytesAt b 1 (leBytes 1 ((leField b 1 1) ||| 8))

/-- Whether the predicate of a list slot says to skip it (03 R79). A FENCE_WAIT that already waits is not tested again. -/
def Cmd.skips (d : Cmd) (preds : Nat) : Bool :=
  (match d.phase with | .waiting _ => false | _ => true) &&
    (slotCondEn d.slot && (preds.testBit (slotCondPred d.slot)) != slotCondSense d.slot)

/-- The head of a node made ready for its issue. A list slot is skipped if its predicate says so (03 R79), and its handles
are bound (R78); a failed binding ends the launch there. The predicate of a command that was issued and then killed or deferred is
tested again at its re-issue (DEDUCED, log entry 53). -/
def State.prep (s : State) (n : Node) : State × Option Cmd :=
  match s.issuable n with
  | none => (s, none)
  | some d =>
    match d.launch with
    | none => (s, some d)
    | some l =>
      let preds := match s.launch? l with | some x => x.preds.toNat | none => 0
      if d.skips preds then
        (s.endCmd { d with slot := quietSlot d.slot } stOk 0 0 false, none)
      else if d.begun then (s, some d)
      else
        let bind := match s.launch? l with | some x => x.bind | none => []
        match bindSlot bind d.slot (handleFields d.slot) with
        | none => (s.stopLaunch l d.pos stRange, none)
        | some b => let e := { d with slot := b }; (s.setCmd e, some e)

/-- Execute the head of a node if it can be issued and has the opcode: `f` is given the state in which it is issued and the
command. -/
def State.gfeHead (s : State) (n : Node) (op : Nat) (f : State → Cmd → State) : State :=
  if !s.on then s else
  match s.headOf n with
  | none => s
  | some h =>
    if slotOp h.slot ≠ op then s
    else match s.prep n with
      | (t, none) => t
      | (t, some d) => f t d

/-- A GFE command is issued and ends at once (DEDUCED, log entry 41). -/
def State.endNow (s : State) (d : Cmd) (status a b : Nat) : State :=
  (s.issue d (.waiting s.tickN)).endCmd d status a b false

/-! ## `NOP` and `TIMESTAMP` -/

/-- `NOP` ends with `ST_OK` (03 R92). -/
def State.runNop (s : State) (d : Cmd) : State := s.endNow d stOk 0 0

/-- `NOP` (03 R92). -/
def execNop (n : Node) (s : State) : Host.Outcome State Fault Refusal := done (s.gfeHead n 0x00 State.runNop)

/-- The 16 bytes that `TIMESTAMP` writes (03 R91). -/
def State.stampRecord (s : State) : List Byte :=
  leBytes 8 s.tickN ++ leBytes 4 (s.stamp + granShift s.clk.period * 2 ^ 17) ++ zeros 4

/-- Replace bytes of one tile by a shadow tile that flips at once; in place if no frame is free (03 R91; DEDUCED, log entry 15). -/
def State.rewriteTile (s : State) (h tile cls off : Nat) (bytes : List Byte) : State :=
  match s.homeOf h tile with
  | none => s
  | some f =>
    match s.allocShadow (s.shadowTier h tile) h tile cls with
    | none => s.writeBytes (frameData f + off) bytes
    | some (g, s1) =>
      ((s1.copyFrame f g).writeBytes (frameData g + off) bytes).flipTile ⟨h, tile, g⟩

/-- `TIMESTAMP` takes the tick and stamp of its execution (03 R91). -/
def State.runTimestamp (s : State) (d : Cmd) : State :=
  if (leField d.slot 16 1).testBit 1 then
    let h := op32 d.slot 20
    let o := op32 d.slot 24
    match s.liveObj h with
    | none => s.endNow d stRange 20 0
    | some ob =>
      if ob.tiles * 4096 < o + 16 then s.endNow d stRange 20 0
      else if o % 16 ≠ 0 then s.endNow d stRange 24 0
      else
        let tile := o / 4096
        match s.homeOf h tile with
        | none => s.endNow d stRange 20 0
        | some f =>
          if (s.frame f).state = .poisoned then s.endNow d stPoisoned h tile
          else (s.rewriteTile h tile d.cls (o % 4096) s.stampRecord).endNow d stOk 0 0
  else s.endNow d stOk 0 0

/-- `TIMESTAMP` (03 R91). -/
def execTimestamp (n : Node) (s : State) : Host.Outcome State Fault Refusal := done (s.gfeHead n 0x01 State.runTimestamp)

/-! ## Fences -/

/-- The number of a fence handle (04 R100). -/
def fenceNo (h : Nat) : Nat := h % 4096

/-- The generation of a fence handle is current. -/
def State.fenceOk (s : State) (h : Nat) : Bool := (s.fence (fenceNo h)).gen.toNat == h / 4096

/-- VALUE of a fence command. -/
def fenceValue (slot : List Byte) : Nat := leField slot 24 8

/-- The waits on a fence that its counter satisfies (04 R104). -/
def State.satisfied (s : State) (n : Nat) : List Cmd :=
  s.gfe.cmds.filter (fun d => slotOp d.slot == 0x09 && (match d.phase with | .waiting _ => true | _ => false) &&
    fenceNo (op32 d.slot 16) == n && decide (fenceValue d.slot ≤ (s.fence n).val.toNat))

/-- End every satisfied wait on a fence with `ST_OK` (04 R104). -/
def State.wakeFence (s : State) (n : Nat) : State :=
  (s.satisfied n).foldl (fun t d => t.endCmd d stOk 0 (t.fence n).val.toNat false) s

/-- The descriptors whose FREE fence has changed note their consumed count and its time (11 R336, R337). -/
def State.noteFree (s : State) (n : Nat) : State :=
  { s with streams := s.streams.map (fun x =>
      let c := (s.fence n).val.toNat - x.2.f0
      if x.2.state != .idle && fenceNo (op32 x.2.slot 48) == n && c != x.2.lastC then
        (x.1, { x.2 with lastC := c, prevC := if x.2.lastCAt = s.clk.now then x.2.prevC else x.2.lastC, lastCAt := s.clk.now })
      else x) }

/-- A fence counter takes a value; the waits are evaluated against it once all signals of the cycle are applied (04 R102). -/
def State.setFenceVal (s : State) (n v : Nat) : State :=
  let t := (s.setFence n { s.fence n with val := BitVec.ofNat 64 v }).noteFree n
  { t with gfe := { t.gfe with touched := if t.gfe.touched.contains n then t.gfe.touched else t.gfe.touched ++ [n] } }

/-- The signals of a fence that have been applied in this cycle. -/
def State.applied (s : State) (n : Nat) : List Cmd :=
  s.gfe.cmds.filter (fun d => slotOp d.slot == 0x08 && (match d.phase with | .waiting _ => true | _ => false) &&
    fenceNo (op32 d.slot 16) == n)

/-- A fence's cycle is over: its signals end with the counter after all of them, and the satisfied waits end (04 R102). -/
def State.closeFence (s : State) (n : Nat) : State :=
  State.wakeFence ((s.applied n).foldl (fun t d => t.endCmd d stOk 0 (t.fence n).val.toNat false) s) n

/-- The cycle is over for every fence that has taken a value in it (04 R102) (DESIGN CHOICE, log entry 2). -/
def State.closeFences (s : State) : State :=
  s.gfe.touched.foldl State.closeFence { s with gfe := { s.gfe with touched := [] } }

/-- `FENCE_SIGNAL` adds to a fence or takes the maximum; it ends when its cycle is over (04 R101, R102). -/
def State.runFenceSignal (s : State) (d : Cmd) : State :=
  let h := op32 d.slot 16
  let n := fenceNo h
  let v := fenceValue d.slot
  let cur := (s.fence n).val.toNat
  if !s.fenceOk h then s.endNow d stRange 16 0
  else if (leField d.slot 20 1).testBit 0 then
    (s.issue d (.waiting s.tickN)).setFenceVal n (max cur v)
  else if v = 0 ∨ 2 ^ 32 ≤ v ∨ 2 ^ 64 ≤ cur + v then s.endNow d stRange 24 0
  else (s.issue d (.waiting s.tickN)).setFenceVal n (cur + v)

/-- `FENCE_SIGNAL` (04 R102). -/
def execFenceSignal (n : Node) (s : State) : Host.Outcome State Fault Refusal :=
  done (s.gfeHead n 0x08 State.runFenceSignal)

/-- A slot is a `FENCE_SIGNAL` naming a fence by its current handle. -/
def State.signals (s : State) (n : Nat) (slot : List Byte) : Bool :=
  slotOp slot == 0x08 && fenceNo (op32 slot 16) == n && s.fenceOk (op32 slot 16)

/-- The nodes of the wait-for graph that hold a pending `FENCE_SIGNAL` naming a fence (04 R105): among the commands, or in a slot
that has been read and waits for a context. -/
def State.signallers (s : State) (n : Nat) : List Node :=
  (s.gfe.cmds.filter (fun d => s.signals n d.slot)).map Cmd.node ++
  (s.chans.filter (fun x => match x.2.ctxWait with | some w => s.signals n w.slot | none => false)).map (fun x => Node.chan x.1)

/-- The fence that a blocked node waits on: its head, the earliest command not issued, is an unsatisfied `FENCE_WAIT`, also while
an earlier command runs (04 R105) (DEDUCED, log entry 53). -/
def State.blockedOn (s : State) (n : Node) : Option Nat :=
  match s.headOf n with
  | none => none
  | some d =>
    let f := fenceNo (op32 d.slot 16)
    if slotOp d.slot = 0x09 ∧ s.fenceOk (op32 d.slot 16) = true ∧ (s.fence f).val.toNat < fenceValue d.slot then some f else none

/-- The fences reachable from a set in the wait-for graph, by `k` rounds (04 R105). `c` is the node that tests: its own
edge leads to the fence it waits on, which is in the set. -/
def State.reachFences (s : State) : Nat → List Nat → List Nat
  | 0, fs => fs
  | k + 1, fs =>
    let next := (fs.flatMap s.signallers).filterMap s.blockedOn
    let new := (next.filter (fun f => !fs.contains f)).eraseDups
    if new.isEmpty then fs else State.reachFences s k (fs ++ new)

/-- A wait on fence `f` of node `c` closes a cycle (04 R105). -/
def State.closesCycle (s : State) (c : Node) (f : Nat) : Bool :=
  let fs := s.reachFences 4096 [f]
  fs.all (fun g => !(s.signallers g).isEmpty && s.fld .gfe g 0x294 0 0 == 0 &&
    (s.signallers g).all (fun n => n == c || (match s.blockedOn n with | some k => fs.contains k | none => false)))

/-- `FENCE_WAIT` executes: satisfied at once, or tested for a cycle, or waiting (04 R100, R104, R105). -/
def State.runFenceWait (s : State) (d : Cmd) : State :=
  let h := op32 d.slot 16
  let n := fenceNo h
  match d.phase with
  | .waiting _ =>
    if fenceValue d.slot ≤ (s.fence n).val.toNat then s.endCmd d stOk 0 (s.fence n).val.toNat false else s
  | _ =>
    if !s.fenceOk h then s.endNow d stRange 16 0
    else if fenceValue d.slot ≤ (s.fence n).val.toNat then s.endNow d stOk 0 (s.fence n).val.toNat
    else if s.closesCycle d.node n then
      (s.endNow d stFenceCycle h (fenceValue d.slot)).raise .gfe 0 0x298 1
    else s.issue d (.waiting s.tickN)

/-- `FENCE_WAIT` (04 R104). -/
def execFenceWait (n : Node) (s : State) : Host.Outcome State Fault Refusal :=
  done (s.gfeHead n 0x09 State.runFenceWait)

/-- The fence timeout of a channel in ticks, as applied when it is tested (04 R106) (DEDUCED, log entry 53). -/
def State.fenceTimeout (s : State) (c : Nat) : Nat :=
  let t := s.fld .gfe c 0x214 31 16
  if t = 0 then 64 else t

/-- The wait of a node that a timeout can end: a `FENCE_WAIT`, or a `HOST_FENCE` that waits for writers. Its wait for the earlier
commands of its channel, before it executes, does not count (DEDUCED, log entry 53). -/
def State.waitOf (s : State) (n : Node) : Option (Cmd × Nat) :=
  (s.cmdsAt n).findSome? (fun d => match d.phase with
    | .waiting t => if slotOp d.slot = 0x09 ∨ slotOp d.slot = 0x0A then some (d, t) else none
    | _ => none)

/-- `FENCE_TIMEOUT`: a wait that is unsatisfied at the edge that begins tick t + T ends (04 R106, R114). Satisfaction takes
precedence. -/
def execFenceTimeout (n : Node) (s : State) : Host.Outcome State Fault Refusal :=
  done (
    match s.waitOf n with
    | none => s
    | some (d, t) =>
      if !s.on || decide (s.tickN < t + s.fenceTimeout d.chan) then s
      else if slotOp d.slot = 0x0A then
        if (s.extra d.id).aux.all (fun w => (s.cmd? w).isNone) then s.endCmd d stOk 0 0 false
        else (s.endCmd d stFenceTimeout 0 0 false).raise .gfe 0 0x298 2
      else
        let f := s.fence (fenceNo (op32 d.slot 16))
        if fenceValue d.slot ≤ f.val.toNat then s.endCmd d stOk 0 f.val.toNat false
        else (s.endCmd d stFenceTimeout (op32 d.slot 16) f.val.toNat false).raise .gfe 0 0x298 2)

/-! ## `HOST_FENCE` -/

/-- The commands issued and not ended that name an object, or any, as an output (04 R114) (DEDUCED, log entry 16). -/
def State.writersOf (s : State) (all : Bool) (h self : Nat) : List Nat :=
  (s.gfe.cmds.filter (fun d => d.id != self && d.begun &&
    (match d.phase with | .unissued => false | .resolving => false | .ready => false | _ => true) &&
    (if all then !(outputHandles d.slot).isEmpty else (outputHandles d.slot).contains h))).map Cmd.id

/-- `HOST_FENCE`: after earlier commands, it may wait for writers; what it drains is not held in this state (04 R113, R114;
DEDUCED, log entry 16). A FABRIC channel has none (13 R410). -/
def State.runHostFence (s : State) (d : Cmd) : State :=
  let flags := leField d.slot 20 1
  let h := op32 d.slot 16
  if (s.chan d.chan).kind = .fabric then s.endNow d stRange 0 0
  else if !flags.testBit 0 && (s.liveObj h).isNone then s.endNow d stRange 16 0
  else
    let ws := if flags.testBit 1 then s.writersOf (flags.testBit 0) h d.id else []
    if ws.isEmpty then s.endNow d stOk 0 0
    else (s.issue d (.waiting s.tickN)).setExtra { s.extra d.id with aux := ws }

/-- `HOST_FENCE` (04 R114): it executes at the head, and a waiting one ends once the writers it waits for have ended. -/
def execHostFence (n : Node) (s : State) : Host.Outcome State Fault Refusal :=
  done (
    match s.waitOf n with
    | some (d, _) =>
      if s.on && slotOp d.slot == 0x0A && (s.extra d.id).aux.all (fun w => (s.cmd? w).isNone) then s.endCmd d stOk 0 0 false
      else s.gfeHead n 0x0A State.runHostFence
    | none => s.gfeHead n 0x0A State.runHostFence)

end Sys2Proof.Machine
end

