-- ==== Sys2Proof/Machine/Operands.lean ====
section
/-! DEFINITION. The operands of commands: the objects that handles name, the argument handle (03 R78), the bytes of a tile
as a command sees it, and byte and row accesses into objects (01 R22, 06 R147, 10 R294). -/

namespace Sys2Proof.Machine

/-- The argument handle (03 R78). -/
def argHandle : Nat := 0xFFFFFFFF

/-- The object that the argument handle names: one read-only RAW tile (03 R78). -/
def argObj : Obj :=
  { fmt := 0, dataTiles := 1, tiles := 1, cls := 0, owner := 0, policy := 0, tier := 0, spread := 0, seq := 0,
    rowBytes := 0, scaleObj := 0, table := none, map := [], creation := .live, freed := false }

/-- The object that a handle field names: the argument object, or a live object. -/
def State.operand (s : State) (h : Nat) : Option Obj := if h = argHandle then some argObj else s.liveObj h

/-- The object that a handle field of a command already issued names: freed meanwhile or not (10 R318). -/
def State.operandRun (s : State) (h : Nat) : Option Obj := if h = argHandle then some argObj else s.obj? h

/-- The frame in which the run of a command has begun to read a tile: it stays the frame of all its accesses to the tile (04
R95). -/
def State.readFrame (s : State) (d : Cmd) (h tile : Nat) : Option Nat :=
  match d.phase with
  | .running n =>
    (match (s.clu n).run with
     | some r => if r.cmd = d.id ∧ r.prepared = true then
         r.reads.find? (fun f => (s.frame f).obj == h && (s.frame f).tile == tile) else none
     | none => none)
  | _ => none

/-- The home of a tile as a command's run sees it: a run of a repeat pair sees the homes of its earlier run (14 R428), and a
run that has begun to read a tile its home as it was then (04 R95). -/
def State.srcFrame (s : State) (d : Cmd) (h tile : Nat) : Option Nat :=
  match d.more with
  | some m => (match m.view.find? (fun v => v.1 == h && v.2.1 == tile) with
    | some v => some v.2.2
    | none => s.homeOf h tile)
  | none => (match s.readFrame d h tile with
    | some f => some f
    | none => s.homeOf h tile)

/-- The 4,096 data bytes of a tile as a command sees it. -/
def State.tileData (s : State) (d : Cmd) (h tile : Nat) : List Byte :=
  if h = argHandle then padTo 4096 ((s.payloadOf d).take 192)
  else match s.srcFrame d h tile with
    | some f => s.data f
    | none => zeros 4096

/-- The check of a frame's header against its object: TILE_SEQ and FORMAT (14 R418). -/
def State.headFault (s : State) (f h tile : Nat) : Option PoisonCause :=
  match s.obj? h with
  | none => none
  | some o =>
    let v := leField (s.header f) 0 2
    if v / 32 ≠ tile % 2048 then some .tileSeq
    else if v % 32 ≠ o.tileFmt tile then some .format
    else none

/-- A tile of a handle is POISONED as a command sees it, or its header fails its check in every attempt (14 R421). -/
def State.tileBad (s : State) (d : Cmd) (h tile : Nat) : Bool :=
  if h = argHandle then false
  else match s.srcFrame d h tile with
    | some f => (s.frame f).state == .poisoned || (s.headFault f h tile).isSome
    | none => false

/-- A read of a tile by a command poisons it if its header fails its check (14 R421, R422). -/
def State.poisonIfBad (s : State) (d : Cmd) (h tile : Nat) : State :=
  if h = argHandle then s
  else match s.srcFrame d h tile with
    | some f => if (s.frame f).state = .home then
        (match s.headFault f h tile with | some c => s.poisonFrame f c | none => s) else s
    | none => s

/-- Bytes of an object from a byte offset on, as a command sees them. -/
def State.objBytes (s : State) (d : Cmd) (h off n : Nat) : List Byte :=
  let t0 := off / 4096
  let t1 := (off + n - 1) / 4096
  (((List.range' t0 (t1 + 1 - t0)).flatMap (fun t => s.tileData d h t)).drop (off % 4096)).take n

/-- The first POISONED tile that a byte range of an object touches. -/
def State.badIn (s : State) (d : Cmd) (h off n : Nat) : Option Nat :=
  if n = 0 then none
  else (List.range' (off / 4096) ((off + n - 1) / 4096 + 1 - off / 4096)).find? (fun t => s.tileBad d h t)

/-! ## Elements -/

/-- One byte of an object as a command sees it. -/
def State.objByte (s : State) (d : Cmd) (h off : Nat) : Nat :=
  if h = argHandle then (listGet 0 ((s.payloadOf d).take 192) off).toNat
  else match s.srcFrame d h (off / 4096) with
    | some f => (s.byte (frameData f + off % 4096)).toNat
    | none => 0

/-- A little-endian number of `n` bytes at a byte offset of an object. -/
def State.objNum (s : State) (d : Cmd) (h off : Nat) : Nat → Nat
  | 0 => 0
  | n + 1 => s.objByte d h off + 256 * State.objNum s d h (off + 1) n

/-- The code of element `k` of tile `tile` of an object, of a format with `bits` bits an element (06 R147). -/
def State.elemAt (s : State) (d : Cmd) (h bits tile k : Nat) : Nat :=
  if bits = 4 then (s.objByte d h (tile * 4096 + k / 2) / (if k % 2 = 0 then 1 else 16)) % 16
  else s.objNum d h (tile * 4096 + k * (bits / 8)) (bits / 8)

/-- TILE_SCALE of a tile as a command sees it; 1.0 for the argument tile (03 R78, 06 R154). -/
def State.scaleOfTile (s : State) (d : Cmd) (h tile : Nat) : Nat :=
  if h = argHandle then scaleOne
  else match s.srcFrame d h tile with
    | some f => s.tileScale f
    | none => scaleOne

/-- The scale tile of a data tile of a two-level object, and the object that holds it (06 R155). -/
def scaleTileOf (h : Nat) (o : Obj) (tile : Nat) : Nat × Nat :=
  if o.scaleObj = 0 then (h, o.dataTiles + tile / groupSize o.fmt) else (o.scaleObj, tile / groupSize o.fmt)

/-- Sub-block scale bytes of one data tile: B (06 R155). -/
def scalesPerTile (fmt : Nat) : Nat := elemsPerTile fmt / 16

/-- The byte of the scale tile that holds the scale of sub-block `j` of a data tile (06 R155). -/
def scaleByteAt (o : Obj) (tile j : Nat) : Nat := (tile % groupSize o.fmt) * scalesPerTile o.fmt + j

/-- The value of an element of an object read as a format (06 R148, R154). `fmt` is the object's own format, or the one that
a RAW object is read as. -/
def State.valueAt (s : State) (d : Cmd) (h : Nat) (o : Obj) (fmt tile k : Nat) : FV :=
  let raw := s.elemAt d h (elemBits fmt) tile k
  if isTwoLevel fmt then
    let st := scaleTileOf h o tile
    decodeTwo fmt raw (s.objByte d st.1 (st.2 * 4096 + scaleByteAt o tile (k / 16))) (fp32 (s.scaleOfTile d h tile))
  else if isSingleLevel fmt && o.fmt == fmt then f32 (FV.mul (decodeElem fmt raw) (fp32 (s.scaleOfTile d h tile)))
  else decodeElem fmt raw

/-- Element `a` of an object counted from the first element of a start tile: its tile and index (06 R147). -/
def elemPlace (fmt base a : Nat) : Nat × Nat := (base + a / elemsPerTile fmt, a % elemsPerTile fmt)

/-- The value of element `a` counted from a start tile. -/
def State.elemVal (s : State) (d : Cmd) (h : Nat) (o : Obj) (fmt base a : Nat) : FV :=
  let p := elemPlace fmt base a
  s.valueAt d h o fmt p.1 p.2

/-- The code of element `a` counted from a start tile. -/
def State.elemCode (s : State) (d : Cmd) (h fmt base a : Nat) : Nat :=
  let p := elemPlace fmt base a
  s.elemAt d h (elemBits fmt) p.1 p.2

/-- The storage index of element (r, k) in the panel layout of height `p`, reduction length `k'` (07 R180). -/
def panelIndex (p k' r k : Nat) : Nat := ((r / p) * ceilDiv k' 16 + k / 16) * p * 16 + (r % p) * 16 + k % 16

/-- Elements of the padded region of an R x K matrix in the panel layout of height `p` (07 R180). -/
def panelSize (p r k : Nat) : Nat := ceilDiv r p * p * (ceilDiv k 16 * 16)

/-- The tiles that the first `n` elements from a start tile take. -/
def regionTiles (fmt base n : Nat) : List Nat := List.range' base (ceilDiv n (elemsPerTile fmt))

/-- A region of `n` elements from a start tile extends beyond an object. -/
def regionBad (o : Obj) (fmt base n : Nat) : Bool := decide (o.dataTiles < base + ceilDiv n (elemsPerTile fmt))

/-! ## Conditions that a run finds (05 R522) -/

/-- What a run finds at the first use of a data tile: a POISONED tile or scale tile, or a SCALE_SEQ that differs from its
scale tile's (06 R158, 14 R422): status and details. -/
def State.tileCond (s : State) (d : Cmd) (h tile : Nat) : Option (Nat × Nat × Nat) :=
  if s.tileBad d h tile then some (stPoisoned, h, tile)
  else match s.operandRun h with
    | none => none
    | some o =>
      if isTwoLevel o.fmt && decide (tile < o.dataTiles) then
        let st := scaleTileOf h o tile
        if s.tileBad d st.1 st.2 then some (stPoisoned, st.1, st.2)
        else match s.srcFrame d h tile, s.srcFrame d st.1 st.2 with
          | some f, some g =>
            if s.scaleSeq f = s.scaleSeq g then none
            else some (stScaleSkew, h, st.1 + s.scaleSeq f * 2 ^ 32 + s.scaleSeq g * 2 ^ 48)
          | _, _ => none
      else none

/-- The first condition that a run finds on a list of tiles, in the order in which it reads them. -/
def State.firstCond (s : State) (d : Cmd) (ts : List (Nat × Nat)) : Option (Nat × Nat × Nat) :=
  ts.findSome? (fun t => s.tileCond d t.1 t.2)

/-- The tiles of a handle as pairs. -/
def withHandle (h : Nat) (ts : List Nat) : List (Nat × Nat) := ts.map (fun t => (h, t))

/-- The scale tiles that a list of data tiles of two-level objects needs as well. -/
def State.withScales (s : State) (ts : List (Nat × Nat)) : List (Nat × Nat) :=
  (ts ++ ts.filterMap (fun t => match s.operandRun t.1 with
    | some o => if isTwoLevel o.fmt && decide (t.2 < o.dataTiles) then some (scaleTileOf t.1 o t.2) else none
    | none => none)).eraseDups

end Sys2Proof.Machine
end

