-- ==== Sys2Proof/Machine/Objects.lean ====
section
/-! DEFINITION. Objects: `OBJ_CREATE`, `OBJ_FREE`, `MOVE`, `CLONE` and the completion of creations (10 R293 to R297, R300 to
R306, R312 to R324), and the moves that placement and commands share. -/

namespace Sys2Proof.Machine

/-! ## The order in which transfers are served (02 R46; 10 R290) -/

/-- The class, deadline and channel by which the transfers that a command causes are served; a fold has the latest deadline (09
R280; 10 R288). -/
def State.cmdOrder (s : State) (d : Cmd) : Nat × Nat × Nat :=
  (d.cls, if slotOp d.slot = foldOp then 2 ^ 64 else s.deadlineOf d, d.chan)

/-- The order of a transfer that serves no command: class 3 and the latest deadline (10 R288). -/
def noOrder : Nat × Nat × Nat := (3, 2 ^ 64, 0)

/-- One order comes before another in the running tick (02 R46, R47). -/
def State.before (s : State) (a b : Nat × Nat × Nat) : Bool :=
  before3 (a.1, a.2.1, s.rank a.2.2 4096) (b.1, b.2.1, s.rank b.2.2 4096)

/-! ## Where tiles go (10 R306, R315) -/

/-- The logical clusters of a mask, rising. -/
def maskClus (m : Nat) : List Nat := (upTo 64).filter (fun n => m.testBit n)

/-- The cluster mask of a partition (05 R120). -/
def State.partMask (s : State) (p : Nat) : Nat :=
  s.regGet .gfe 0 (0x320 + 8 * p) + s.regGet .gfe 0 (0x324 + 8 * p) * 2 ^ 32

/-- The clusters over which a scratchpad object is striped (10 R306). -/
def State.spreadClus (s : State) (spread owner : Nat) : List Nat :=
  if spread = 0 then maskClus (s.partMask (s.fld .gfe owner 0x214 2 0)) else maskClus spread

/-- SPREAD names a cluster that is not enabled (10 R306). -/
def State.spreadBad (s : State) (spread : Nat) : Bool :=
  (maskClus spread).any (fun n => (s.cluSlot n).isNone)

/-- Put frames where there is none yet, in order. -/
def fillSlots : List (Option Nat) → List Nat → List (Option Nat)
  | [], _ => []
  | some f :: t, fs => some f :: fillSlots t fs
  | none :: t, [] => none :: fillSlots t []
  | none :: t, f :: fs => some f :: fillSlots t fs

/-- How many places have no frame. -/
def unplaced (l : List (Option Nat)) : Nat := (l.filter Option.isNone).length

/-- Frames of a scratchpad for an object: of a cluster that is not SERVING, only for a PIN one (14 R433). -/
def State.scratchFor (s : State) (n clu cls : Nat) (pin : Bool) : List Nat :=
  if pin || s.cluState clu == .serving then s.framesFor 0 n clu cls else []

/-- Frames for `t` tiles in the scratchpads, tile i in the (i mod k)-th cluster, within the class's room (10 R306, 05
R134). -/
def State.placeScratch (s : State) (clus : List Nat) (cls t : Nat) (pin : Bool) : List (Option Nat) :=
  let k := clus.length
  if k = 0 then List.replicate t none
  else
    let per := (indexed 0 clus).map (fun x => s.scratchFor (ceilDiv (t - x.1) k) x.2 cls pin)
    (upTo t).map (fun i => (listGet [] per (i % k))[i / k]?)

/-- Frames of a tier, and below it where `lower` allows, for the tiles that have none (10 R315). -/
def State.placeBelow (s : State) (l : List (Option Nat)) (lower : Bool) (attic : Nat) : List Nat → List (Option Nat)
  | [] => l
  | tier :: t =>
    let n := unplaced l
    let have' := if tier = 1 then min n (s.tierFree 1 - attic) else n
    let l1 := fillSlots l (s.framesFor tier have' 0 0)
    if lower then State.placeBelow s l1 lower attic t else l1

/-- Frames for `t` tiles of a new object in a tier, all or none: in TIER, and for AUTO and HINT in the next lower ones;
`attic` attic frames are left for the object maps (10 R295, R315) (DESIGN CHOICE, log entry 8). -/
def State.placeTiles (s : State) (tier spread owner cls t attic : Nat) (lower : Bool) : Option (List Nat) :=
  let start := if tier = 0 then s.placeScratch (s.spreadClus spread owner) cls t (!lower) else List.replicate t none
  let tiers := match tier with
    | 0 => if lower then [1, 2, 3] else []
    | 1 => [1, 2, 3] | 2 => [2, 3] | _ => [3]
  let l := s.placeBelow start lower attic tiers
  if unplaced l = 0 then some (l.filterMap id) else none

/-! ## `OBJ_CREATE` -/

/-- Codes of `OBJ_CREATE` and `CLONE` in the 16 bits at byte 20 or 28 (10 R312, R322). -/
def plPolicy (v : Nat) : Nat := bitsOf v 3 2
def plTier (v : Nat) : Nat := bitsOf v 6 4
def plClass (v : Nat) : Nat := bitsOf v 8 7

/-- The placement codes are reserved or PIN the cellar (10 R314). -/
def placeCodesBad (v : Nat) : Bool :=
  plPolicy v == 3 || decide (4 ≤ plTier v) || (plPolicy v == 2 && plTier v == 3)

/-- A table-row format (06 R165): a plain format of 8 bits or more, or a packed row. -/
def isRowFmt (f : Nat) : Bool := (isPlain f && decide (8 ≤ elemBits f)) || isPackedRow f

/-- A handle can name a new object (10 R293, R314). -/
def State.newHandleOk (s : State) (h : Nat) : Bool :=
  decide (1 ≤ h) && decide (h ≤ 0xFFFFFEFF) && (s.obj? h).isNone

/-- The format of per-element state (10 R312). -/
def elemStateFmt (c : Nat) : Nat := match c with | 1 => 0x14 | 2 => 0x15 | 3 => 0x05 | _ => 0x04

/-- Bytes of the per-element state of a row (09 R241). -/
def elemStateLen (c n : Nat) : Nat :=
  match c with
  | 0 => 0 | 1 => rowLen 0x14 n | 2 => rowLen 0x15 n | 3 => n * 2 | _ => n * 4

/-- The length of a state row (09 R241). -/
def stateRowLen (elemState rowState n : Nat) : Nat :=
  ceilDiv (elemStateLen elemState n + (if rowState = 0 then 4 else 2)) 32 * 32

/-- Rows of a RAW row-tile object of row length `b`. -/
def State.rowsOf (s : State) (h b : Nat) : Nat :=
  match s.liveObj h with
  | some o => if o.fmt = 0 ∧ o.rowBytes = b ∧ 32 ≤ b then o.tiles * (4096 / b) else 0
  | none => 0

/-- The conditions of 10 R314 on the plain form, as offsets. A plain object without row tiles may have a packed-row FORMAT (06 R153)
(DEDUCED, log entry 42). -/
def State.createPlainBad (s : State) (b : List Byte) : List Nat :=
  let fmt := opBits b 22 1 4 0
  let d := op32 b 32
  let so := op32 b 36
  let rb := opBits b 40 2 12 0
  let g := groupSize fmt
  (if d = 0 ∨ 2 ^ 30 < d then [32] else []) ++
  (if isTwoLevel fmt && so == 0 && decide (2 ^ 30 < d + ceilDiv d g) then [32] else []) ++
  (if isTwoLevel fmt && so != 0 then
    (match s.liveObj so with
     | some o => if o.fmt ≠ 0x02 then [36] else if o.tiles < ceilDiv d g then [32] else []
     | none => [36])
   else []) ++
  (if rb ≠ 0 ∧ ¬(fmt = 0 ∨ isRowFmt fmt = true) then [22] else []) ++
  (if rb % 32 ≠ 0 ∨ 4096 < rb then [40] else [])

/-- The conditions of 10 R314 on the table form, as offsets. -/
def State.createTableBad (s : State) (b : List Byte) : List Nat :=
  let fmt := opBits b 22 1 4 0
  let rows := op32 b 32
  let n := opBits b 36 2 12 0
  let es := opBits b 38 1 2 0
  let rs := opBits b 38 1 3 3
  let st := op32 b 40
  let pool := op32 b 44
  let slots := opBits b 48 4 24 0
  let shard := op32 b 56
  let rl := rowLen fmt n
  let sl := stateRowLen es rs n
  let pl := max rl (if st = 0 then 0 else sl)
  (if isRowFmt fmt then [] else [22]) ++
  (if n = 0 ∨ 4096 < n then [36] else
    if isRowFmt fmt && (decide (4096 < rl) || (isPackedRow fmt && (n % 16 != 0 || decide (1536 < n)))) then [22] else []) ++
  (if rows = 0 ∨ 2 ^ 30 < ceilDiv rows (4096 / max rl 1) then [32] else []) ++
  (if 5 ≤ es then [38] else if (es = 1 ∨ es = 2) ∧ (n % 16 ≠ 0 ∨ 1536 < n) then [36] else []) ++
  (if es ≠ 0 ∧ st = 0 then [38] else []) ++
  (if st = 0 then [] else match s.liveObj st with
    | some o => if o.fmt ≠ 0 then [40] else if o.rowBytes ≠ sl ∨ s.rowsOf st sl < rows then [32] else []
    | none => [40]) ++
  (if 2 ^ 24 < slots then [48] else []) ++
  (if (pool = 0) ≠ (slots = 0) then [44] else []) ++
  (if pool ≠ 0 ∧ s.rowsOf pool pl < 2 * slots then [44] else []) ++
  (if shard = 0 then [] else if (s.liveObj shard).isSome then [] else [56])

/-- Every condition of 10 R314 as offsets. -/
def State.createBad (s : State) (b : List Byte) : List Nat :=
  let v := leField b 20 2
  let form := bitsOf v 1 0
  let fmt := opBits b 22 1 4 0
  let spread := leField b 24 8
  (if s.newHandleOk (op32 b 16) then [] else [16]) ++
  (if 2 ≤ form ∨ placeCodesBad v = true then [20] else []) ++
  (if isFormat fmt then [] else [22]) ++
  (if spread ≠ 0 ∧ plTier v ≠ 0 then [20] else []) ++
  (if s.spreadBad spread then [24] else []) ++
  (if form = 0 then s.createPlainBad b else if form = 1 then s.createTableBad b else [])

/-- The object that an `OBJ_CREATE` describes, its map apart (10 R294, R313; 09 R240). -/
def newObj (b : List Byte) (owner cmd : Nat) : Obj :=
  let v := leField b 20 2
  let fmt := opBits b 22 1 4 0
  let table : Bool := bitsOf v 1 0 == 1
  let n := opBits b 36 2 12 0
  let rl := rowLen fmt n
  let d := if table then ceilDiv (op32 b 32) (4096 / max rl 1) else op32 b 32
  let so := if table then 0 else if isTwoLevel fmt then op32 b 36 else 0
  let t := if !table && isTwoLevel fmt && so == 0 then d + ceilDiv d (groupSize fmt) else d
  { fmt := fmt, dataTiles := d, tiles := t, cls := plClass v, owner := owner, policy := plPolicy v, tier := plTier v,
    spread := leField b 24 8, seq := 0, rowBytes := if table then rl else opBits b 40 2 12 0, scaleObj := so,
    table := if table then some (
        { rows := op32 b 32, elems := n, elemState := opBits b 38 1 2 0, rowState := opBits b 38 1 3 3, state := op32 b 40,
          pool := op32 b 44, slots := opBits b 48 4 24 0, tag := op32 b 52, shard := op32 b 56 },
        { remap := [], freeing := [], lastUpd := owner, folding := false, draining := false, foldNow := 0, highTicks := 0 })
      else none,
    map := [], creation := .filling cmd, freed := false }

/-- Queue slots of the cellar: 4,096, or 1,024 while domain 4 is over its limit (10 R290; 16 R485). -/
def State.cellarSlots (s : State) : Nat := if listGet false s.mon.domOver 4 then 1024 else 4096

/-- A transfer of a creation that waits takes a queue slot, if there is one; no program does while the cellar is inhibited (10
R290, R292). -/
def State.tryFill (s : State) (c : CellarOp) : State :=
  if s.place.fills.contains c && decide (s.place.cellar.length < s.cellarSlots) && !(c.program && s.sup.inhibit) && !s.unitTest 4 then
    { s with place := { s.place with fills := s.place.fills.erase c, cellar := s.place.cellar ++ [c] } }
  else s

/-- The cellar frames that a creation has to program (10 R290). -/
def fillOps (h : Nat) (map : List (Nat × Nat)) (order : Nat × Nat × Nat) : List CellarOp :=
  (map.filter (fun m => tierOf m.2 == 3)).map (fun m => CellarOp.mk h m.1 m.2 true order)

/-- Transfers of a creation wait for queue slots, and take those that are free (10 R290). -/
def State.queueFills (s : State) (ops : List CellarOp) : State :=
  ops.foldl State.tryFill { s with place := { s.place with fills := s.place.fills ++ ops } }

/-- Enter a new object whose tiles take shadow frames (10 R298, R315). -/
def State.enterObj (s : State) (h : Nat) (o : Obj) (frames : List Nat) (order : Nat × Nat × Nat) : State :=
  let map := indexed 0 frames
  let s1 := map.foldl (fun t m => t.takeShadow m.2 h m.1 o.cls) s
  (s1.setObj h { o with map := map }).queueFills (fillOps h map order)

/-- `OBJ_CREATE`: checks, whole reservation, and the start of the zero fill (10 R314 to R316). -/
def State.runObjCreate (s : State) (d : Cmd) : State :=
  match lowest (s.createBad d.slot) with
  | some off => s.endNow d stRange off 0
  | none =>
    let o := newObj d.slot d.chan d.id
    if 1048576 ≤ s.objs.length then s.endNow d stNoResource 0x0202 0
    else if s.tierFree 1 < mapFrames o.tiles then s.endNow d stNoResource 0x0201 0
    else match s.placeTiles o.tier o.spread d.chan o.cls o.tiles (mapFrames o.tiles) (o.policy != 2) with
      | none => s.endNow d stNoResource 0x0201 0
      | some fs =>
        if s.sup.inhibit && fs.any (fun f => tierOf f == 3) then s.endNow d stWriteInhibited s.vinMv 0
        else (s.issue d (.waiting s.tickN)).enterObj (op32 d.slot 16) o fs (s.cmdOrder d)

/-- `OBJ_CREATE` (10 R316). -/
def execObjCreate (n : Node) (s : State) : Host.Outcome State Fault Refusal :=
  done (s.gfeHead n 0x18 State.runObjCreate)

/-- Transfers of the cellar for an object's creation are under way, or wait for a slot (DEDUCED, log entry 17). -/
def State.cellarBusy (s : State) (h : Nat) : Bool :=
  s.place.cellar.any (fun c => c.obj == h) || s.place.fills.any (fun c => c.obj == h)

/-- `ZERO_FILL_COMPLETE`: the last zero tile is written: the shadow frames become HOME, the handle names the object and the
command ends (10 R296, R298, R313, R316). -/
def execZeroFillComplete (h : Nat) (s : State) : Host.Outcome State Fault Refusal :=
  done (
    match s.obj? h with
    | none => s
    | some o =>
      match o.creation with
      | .filling id =>
        if !s.on || s.cellarBusy h then s else
        let s1 := o.map.foldl (fun t m =>
          ((t.writeFrame m.2 [] (o.tileFmt m.1) m.1 0 scaleOne).setFrame m.2 { t.frame m.2 with state := .home }).touch m.2) s
        let s2 := s1.setObj h { o with creation := .live }
        match s2.cmd? id with
        | some d => s2.endCmd d stOk o.tiles ((o.map.filter (fun m => tierOf m.2 != o.tier)).length) false
        | none => s2
      | _ => s)

/-! ## Moves (10 R300 to R303) -/

/-- A launch of a list is in flight (03 R80). -/
def State.launching (s : State) (h : Nat) : Bool := s.gfe.launches.any (fun l => l.list == h)

/-- A command holds a cluster: it is admitted to one or runs on one. -/
def Cmd.holdsClu (d : Cmd) : Bool := match d.phase with | .admitted _ => true | .running _ => true | _ => false

/-- An update or fold of a table is admitted (09 R250). -/
def State.tableBusy (s : State) (t : Nat) : Bool :=
  s.gfe.cmds.any (fun d => (slotOp d.slot == 0x29 || slotOp d.slot == foldOp) && op32 d.slot 16 == t && d.holdsClu)

/-- A tile is held for a command in resolution or ready (09 R254). -/
def State.isHeld (s : State) (h tile : Nat) : Bool :=
  s.gfe.cmds.any (fun d => match d.res with | some r => r.held.contains (h, tile) | none => false)

/-- A rule of 10 R303 bars a tile's move into a tier now. -/
def State.moveBarred (s : State) (h tile tier : Nat) : Bool :=
  s.objs.any (fun x => match x.2.table with
    | some (t, _) => (t.pool == h || t.state == h) && s.tableBusy x.1
    | none => false) ||
  (tier == 3 && s.isHeld h tile) ||
  (match s.obj? h with | some o => o.fmt == 0x01 && s.launching h | none => false)

/-- A queue slot of the cellar is held for a tile (10 R290; 11 R341). -/
def State.hasSlot (s : State) (h tile : Nat) : Bool := s.place.cellar.any (fun c => c.obj == h && c.tile == tile)

/-- A frame is reserved for a tile: it becomes IN_TRANSIT (10 R298, R300, R320). -/
def State.reserveDst (s : State) (h tile dst cls : Nat) : State :=
  s.setFrame dst { s.frame dst with state := .inTransit, obj := h, tile := tile, cls := cls }

/-- Start a move of a tile into a frame: the frame becomes IN_TRANSIT, and a read or program of the cellar takes a queue
slot, unless a stream transfer holds one for it (10 R290, R300; 11 R341). -/
def State.startMove (s : State) (h tile dst : Nat) (kind : MoveKind) (order : Nat × Nat × Nat) : State :=
  match s.homeOf h tile with
  | none => s
  | some src =>
    let s1 := s.reserveDst h tile dst (s.frame src).cls
    let cellar : Bool := tierOf src == 3 || tierOf dst == 3
    let pl := { s1.place with
      moves := s1.place.moves ++ [⟨h, tile, src, dst, kind, false, !cellar, s.clk.now, s.clk.now, order⟩],
      cellar := if cellar && !s.hasSlot h tile then
          s1.place.cellar ++ [⟨h, tile, if tierOf dst = 3 then dst else src, tierOf dst == 3, order⟩]
        else s1.place.cellar }
    { s1 with place := pl }

/-- A move of a tile can start: its home is HOME, no other move of it runs, no rule bars it, a cellar program is not
inhibited, and a queue slot is free (10 R290, R292, R298, R303). -/
def State.canMove (s : State) (h tile tier : Nat) : Bool :=
  match s.homeOf h tile with
  | none => false
  | some f =>
    (s.frame f).state == .home && (s.moveOf h tile).isNone && !s.moveBarred h tile tier &&
    !(tier == 3 && s.sup.inhibit) &&
    (!(tierOf f == 3 || tier == 3) || s.hasSlot h tile || decide (s.place.cellar.length < s.cellarSlots)) &&
    !s.unitTest 2 && !s.sup.stopping && !((tierOf f == 3 || tier == 3) && s.unitTest 4)

/-- The tier of a demotion from tier `t`: the attic unless its free frames are at or below `MEM_ATTIC_RESERVE`, then the
store room, and the cellar when that has no free frame (10 R310). -/
def State.downTier (s : State) (t : Nat) : Nat :=
  if t = 0 ∧ s.fld .mem 0 0x00C 25 0 < s.tierFree 1 then 1
  else if t < 2 ∧ 0 < s.tierFree 2 then 2
  else 3

/-- A home is on a target that has been taken out of service: its tile, if not PIN, may leave its tier (10 R330). -/
def State.mayFall (s : State) (h tile : Nat) : Bool :=
  match s.obj? h, s.homeOf h tile with
  | some o, some f => o.policy != 2 && !s.servingFrame f
  | _, _ => false

/-- A waiting move has nothing left to do: its tile has no home, has left the cellar, or is in the tier and cluster that the move
is for (10 R321). -/
def State.wantOver (s : State) (w : MoveWant) : Bool :=
  match s.homeOf w.obj w.tile with
  | none => true
  | some f => match w.kind with
    | .fetch => tierOf f != 3
    | .evacuate => tierOf f != 0
    | .relocate => s.servingFrame f && !(s.frame f).retireNext
    | _ => tierOf f == w.tier && (w.tier != 0 || cluOf f == w.spread)

/-- The frames that a waiting move may take (10 R309, R310, R330). -/
def State.wantFrames (s : State) (w : MoveWant) : List Nat :=
  match w.dst with
  | some f => [f]
  | none =>
    let cls := match s.obj? w.obj with | some o => o.cls | none => 0
    if w.kind == .evacuate then s.framesFor (s.downTier 0) 1 0 cls
    else
      let fs := s.framesFor w.tier 1 w.spread cls
      if fs.isEmpty && w.kind == .relocate && s.mayFall w.obj w.tile then s.framesFor (s.downTier w.tier) 1 0 cls else fs

/-- Start one waiting move if it can start and a frame is free; else it keeps waiting. -/
def State.tryWant (s : State) (w : MoveWant) : State :=
  if !s.place.wants.contains w then s
  else if s.wantOver w then s.dropWant w.obj w.tile
  else match s.wantFrames w with
    | [] => s
    | f :: _ => if s.canMove w.obj w.tile (tierOf f) then (s.unlistWant w).startMove w.obj w.tile f w.kind w.order else s

/-- The order of a request for a transfer: a waiting move, or a transfer of a creation. -/
def reqOrder : MoveWant ⊕ CellarOp → Nat × Nat × Nat
  | .inl w => w.order
  | .inr c => c.order

/-- Start one request if it can start. -/
def State.tryReq (s : State) : MoveWant ⊕ CellarOp → State
  | .inl w => s.tryWant w
  | .inr c => s.tryFill c

/-- Start every waiting move and transfer that can start, in the order of R46 (10 R290). -/
def State.startWants (s : State) : State :=
  (sortBy (fun a b => !s.before (reqOrder b) (reqOrder a)) (s.place.wants.map Sum.inl ++ s.place.fills.map Sum.inr)).foldl
    State.tryReq s

/-- The placement cores may move a tile away from its tier under pressure: an AUTO or HINT tile of a live object (10 R305,
R307). -/
def State.pressed (s : State) (h : Nat) : Bool :=
  match s.obj? h with | some o => o.policy != 2 && o.creation == .live && !o.freed | none => false

/-- The homes of a tier that pressure may move, with their page counters, coldest first, lower pages first (10 R309). -/
def State.coldest (s : State) (tier : Nat) : List (Nat × Nat × FrameRec) :=
  let hs := s.frames.filter (fun x => x.2.state == .home && tierOf x.1 == tier && s.pressed x.2.obj)
  sortBy (fun a b => decide (a.1 ≤ b.1)) (hs.map (fun x => ((match heatPage x.1 with | some p => s.heat p | none => 0), x)))

/-- Demote the first tile of a list that can go, from the attic down; one that finds no frame sets PLACE_FAIL (10 R310, R331). -/
def State.demoteFirst (s : State) : List (Nat × Nat × FrameRec) → State
  | [] => s
  | x :: t =>
    let r := x.2.2
    let down := s.downTier 1
    if s.canMove r.obj r.tile down && !s.isHeld r.obj r.tile then
      match s.framesFor down 1 0 r.cls with
      | f :: _ => s.startMove r.obj r.tile f .demote noOrder
      | [] => s.raise .mem 0 0x000 5
    else State.demoteFirst s t

/-- When no attic frame is FREE, one attic tile is demoted for each fetch that waits (10 R310). -/
def State.relieveAttic (s : State) : State :=
  let waiting := (s.place.wants.filter (fun w => w.kind == .fetch)).length
  if waiting = 0 ∨ 0 < s.tierFree 1 then s
  else
    let going := (s.place.moves.filter (fun m => tierOf m.src == 1 && tierOf m.dst != 1)).length
    (upTo (waiting - going)).foldl (fun t _ => t.demoteFirst (t.coldest 1)) s

/-- Start the waiting moves, and make room for the fetches that wait (DEDUCED, log entry 18). -/
def State.tryWants (s : State) : State := s.startWants.relieveAttic

/-! ## Cellar fetches (01 R20; 10 R304) -/

/-- A tile is homed in the cellar and can be read. -/
def State.inCellar (s : State) (t : Nat × Nat) : Bool :=
  match s.homeOf t.1 t.2 with
  | some f => tierOf f == 3 && (s.frame f).state != .poisoned
  | none => false

/-- Queue the fetch of a cellar tile to the attic, if it is not under way (01 R20, 10 R304). -/
def State.wantFetch (s : State) (h tile : Nat) (order : Nat × Nat × Nat) : State :=
  if (s.moveOf h tile).isSome || s.place.wants.any (fun w => w.obj == h && w.tile == tile) then s
  else ({ s with place := { s.place with wants := s.place.wants ++ [MoveWant.mk h tile 1 0 .fetch none order] } } : State).tryWants

/-- Queue the fetches of a list of cellar tiles that a command needs. -/
def State.fetchAll (s : State) (d : Cmd) (ts : List (Nat × Nat)) : State :=
  ts.foldl (fun t x => t.wantFetch x.1 x.2 (s.cmdOrder d)) s

/-! ## `MOVE` -/

/-- The tiles of a range. -/
def tileRange (first count total : Nat) : List Nat := List.range' first (if count = 0 then total - first else count)

/-- The frame is where a tile of a `MOVE` to a tier belongs; `clus` are the clusters of a scratchpad target. -/
def inTarget (clus : List Nat) (tier tile f : Nat) : Bool :=
  tierOf f == tier && (tier != 0 || cluOf f == listGet 64 clus (tile % max clus.length 1))

/-- A stream descriptor that is not IDLE names an object as its DST, or as DST's scale object (11 R348). -/
def State.streamUses (s : State) (h : Nat) : Bool :=
  s.streams.any (fun x => x.2.state != .idle && (op32 x.2.slot 24 == h ||
    (match s.obj? (op32 x.2.slot 24) with | some o => o.scaleObj == h && h != 0 | none => false)))

/-- The conditions of 10 R320 and 11 R348, as offsets. -/
def State.moveBad (s : State) (b : List Byte) : List Nat :=
  let first := opBits b 20 4 29 0
  let count := opBits b 24 4 30 0
  let tier := opBits b 28 1 2 0
  let pol := opBits b 28 1 4 3
  let spread := leField b 32 8
  (if 4 ≤ tier then [28] else []) ++
  (match s.liveObj (op32 b 16) with
   | none => [16]
   | some o =>
     (if o.tiles ≤ first ∨ o.tiles < first + count then [16] else []) ++
     (if pol = 0 ∧ o.policy = 2 ∧ tier ≠ o.tier then [28] else []) ++
     (if (pol = 3 ∨ (pol = 0 ∧ o.policy = 2)) ∧ tier = 3 then [28] else [])) ++
  (if pol ≠ 0 ∧ s.streamUses (op32 b 16) = true then [16] else []) ++
  (if pol ≠ 0 ∧ (first ≠ 0 ∨ count ≠ 0) then [20] else []) ++
  (if spread ≠ 0 ∧ tier ≠ 0 then [28] else []) ++
  (if s.spreadBad spread then [32] else [])

/-- What a `MOVE` still has to do: moves of its own under way or waiting. -/
def State.moving (s : State) (id : Nat) : Bool :=
  s.place.moves.any (fun m => m.kind == .command id) || s.place.wants.any (fun m => m.kind == .command id)

/-- A `MOVE` ends once no tile of its range has still to move: tiles moved, and POISONED tiles left (10 R321). -/
def State.settleMove (s : State) (id : Nat) : State :=
  match s.cmd? id with
  | none => s
  | some d =>
    if slotOp d.slot ≠ 0x1A ∨ s.moving id = true then s
    else
      let h := op32 d.slot 16
      let tier := opBits d.slot 28 1 2 0
      match s.obj? h with
      | none => s.endCmd d stOk 0 0 false
      | some o =>
        let fs := (tileRange (opBits d.slot 20 4 29 0) (opBits d.slot 24 4 30 0) o.tiles).filterMap (fun t =>
          Sparse.find? o.map t)
        let bad := (fs.filter (fun f => (s.frame f).state == .poisoned)).length
        let moved := (fs.filter (fun f => (s.frame f).state != .poisoned && tierOf f == tier)).length
        s.endCmd d stOk moved bad false

/-- Settle every `MOVE` that waits. -/
def State.settleMoves (s : State) : State :=
  (s.gfe.cmds.filter (fun d => slotOp d.slot == 0x1A && (match d.phase with | .waiting _ => true | _ => false))).foldl
    (fun t d => t.settleMove d.id) s

/-- Destination frames of a `MOVE` for the tiles that must move, all or none (10 R320) (DEDUCED, log entry 18). -/
def State.moveFrames (s : State) (tier cls : Nat) (pin : Bool) (clus : List Nat) (tiles : List Nat) : Option (List (Nat × Nat)) :=
  if tier ≠ 0 then
    let fs := s.framesFor tier tiles.length 0 cls
    if fs.length < tiles.length then none else some (tiles.zip fs)
  else
    let k := clus.length
    if k = 0 then (if tiles.isEmpty then some [] else none)
    else
      let groups := (indexed 0 clus).map (fun x =>
        let ts := tiles.filter (fun t => t % k == x.1)
        (ts, s.scratchFor ts.length x.2 cls pin))
      if groups.any (fun g => decide (g.2.length < g.1.length)) then none else some (groups.flatMap (fun g => g.1.zip g.2))

/-- A background move of a tile that a `MOVE` names is abandoned (10 R301). -/
def State.endBackground (s : State) (h tile : Nat) : State :=
  match s.moveOf h tile with
  | some m => if m.kind = .background then s.abandonMove h tile false else s
  | none => s

/-- Start the move of a tile for a `MOVE` command into the frame that is reserved for it; behind another move, barred, or without
a queue slot it waits with that frame (10 R303, R320) (DEDUCED, log entry 18). -/
def State.commandMove (s : State) (id h tile dst : Nat) (order : Nat × Nat × Nat) : State :=
  if s.canMove h tile (tierOf dst) then s.startMove h tile dst (.command id) order
  else
    let cls := match s.homeOf h tile with | some f => (s.frame f).cls | none => 0
    let s1 := s.reserveDst h tile dst cls
    { s1 with place := { s1.place with wants := s1.place.wants ++
      [⟨h, tile, tierOf dst, (if tierOf dst = 0 then cluOf dst else 0), .command id, some dst, order⟩] } }

/-- The tiles of a range that a `MOVE` to a tier must move: those at home and not where they belong (10 R320, R321). -/
def State.mustMove (s : State) (o : Obj) (tier : Nat) (clus range : List Nat) : List Nat :=
  range.filter (fun t => match Sparse.find? o.map t with
    | some f => (s.frame f).state == .home && !inTarget clus tier t f
    | none => false)

/-- `MOVE` (10 R320, R321). -/
def State.runMove (s : State) (d : Cmd) : State :=
  match lowest (s.moveBad d.slot) with
  | some off => s.endNow d stRange off 0
  | none =>
    let h := op32 d.slot 16
    let tier := opBits d.slot 28 1 2 0
    let pol := opBits d.slot 28 1 4 3
    let spread := leField d.slot 32 8
    match s.liveObj h with
    | none => s.endNow d stRange 16 0
    | some o =>
      if tier = 3 ∧ s.sup.inhibit = true then s.endNow d stWriteInhibited s.vinMv 0
      else
        let clus := s.spreadClus spread o.owner
        let range := tileRange (opBits d.slot 20 4 29 0) (opBits d.slot 24 4 30 0) o.tiles
        let todo := s.mustMove o tier clus range
        match s.moveFrames tier o.cls ((if pol = 0 then o.policy else pol - 1) == 2) clus todo with
        | none => s.endNow d stNoResource 0x0201 0
        | some ms =>
          let s1 := if pol = 0 then s else s.setObj h { o with policy := pol - 1, tier := tier, spread := spread }
          let s2 := s1.issue d (.waiting s.tickN)
          let s3 := range.foldl (fun t k => t.endBackground h k) s2
          (ms.foldl (fun t m => t.commandMove d.id h m.1 m.2 (s.cmdOrder d)) s3).settleMove d.id

/-- `MOVE` (10 R321). -/
def execMove (n : Node) (s : State) : Host.Outcome State Fault Refusal := done (s.gfeHead n 0x1A State.runMove)

/-! ## `OBJ_FREE` -/

/-- A live object that another needs (10 R317). -/
def State.needed (s : State) (h : Nat) : Bool :=
  s.objs.any (fun x => !x.2.freed && (x.2.scaleObj == h ||
    (match x.2.table with | some (t, _) => t.state == h || t.pool == h || t.shard == h | none => false)))

/-- Unbind every aperture slot of a handle (10 R318, 12 R365). -/
def State.unbindSlots (s : State) (h : Nat) : State :=
  (upTo 64).foldl (fun t k =>
    if t.fld .cxl k 0x04C 0 0 = 1 ∧ t.regGet .cxl k 0x044 = h then t.fldPut .cxl k 0x04C 0 0 0 else t) s

/-- A fetch of a tile whose object is freed goes on: a command in resolution waits for it, or one issued earlier or a stream
transfer in flight reads the object to its end (10 R318; 11 R348) (DEDUCED, log entry 18). -/
def State.fetchNeeded (s : State) (h tile : Nat) : Bool :=
  s.gfe.cmds.any (fun d => (match d.res with | some r => r.awaitTiles.contains (h, tile) | none => false) ||
    (d.names h && d.begun)) ||
  s.xfers.any (fun x => x.fid == 0 && x.obj == h && x.tile == tile)

/-- The moves of an object's tiles are abandoned for good, but for the fetches still needed (10 R301, R318). -/
def State.endMoves (s : State) (h : Nat) : State :=
  let keep := fun (k : MoveKind) (tile : Nat) => k == .fetch && s.fetchNeeded h tile
  let s1 := (s.place.moves.filter (fun m => m.obj == h && !keep m.kind m.tile)).foldl (fun t m => t.abandonMove h m.tile false) s
  (s.place.wants.filter (fun w => w.obj == h && !keep w.kind w.tile)).foldl (fun t w => t.dropWant h w.tile) s1

/-- `OBJ_FREE` (10 R317, R318). A list that a launch walks or a patch is pending on keeps its tiles until they are over (03
R90). -/
def State.runObjFree (s : State) (d : Cmd) : State :=
  let h := op32 d.slot 16
  match s.liveObj h with
  | none => s.endNow d stRange 16 0
  | some o =>
    if s.needed h = true ∨ s.streamUses h = true then s.endNow d stRange 16 0
    else ((((s.setObj h { o with freed := true }).endMoves h).unbindSlots h).endNow d stOk 0 0).settleMoves.reap h

/-- `OBJ_FREE` (10 R318). -/
def execObjFree (n : Node) (s : State) : Host.Outcome State Fault Refusal := done (s.gfeHead n 0x19 State.runObjFree)

/-! ## `CLONE` -/

/-- The conditions of 10 R324, as offsets. -/
def State.cloneBad (s : State) (b : List Byte) : List Nat :=
  let v := leField b 28 2
  let new := op32 b 20
  let sn := op32 b 24
  let spread := leField b 32 8
  (match s.operand (op32 b 16) with
   | none => [16]
   | some o => (if o.table.isSome then [16] else []) ++
     (if o.scaleObj = 0 then (if sn = 0 then [] else [24]) else (if s.newHandleOk sn && sn != new then [] else [24]))) ++
  (if s.newHandleOk new then [] else [20]) ++
  (if placeCodesBad v then [28] else []) ++
  (if spread ≠ 0 ∧ plTier v ≠ 0 then [28] else []) ++
  (if s.spreadBad spread then [32] else [])

/-- The first POISONED tile of an object. -/
def State.poisonedTile (s : State) (h : Nat) : Option Nat :=
  match s.obj? h with
  | some o => (o.map.find? (fun m => (s.frame m.2).state == .poisoned)).map Prod.fst
  | none => none

/-- A clone's descriptor: its source's, with its own class, owner and placement (10 R294, R322). -/
def cloneObj (o : Obj) (b : List Byte) (owner cmd src scale : Nat) : Obj :=
  let v := leField b 28 2
  { o with cls := plClass v, owner := owner, policy := plPolicy v, tier := plTier v, spread := leField b 32 8,
           scaleObj := scale, map := [], creation := .copying cmd src, freed := false }

/-- Reserve and enter one object of a clone. -/
def State.enterClone (s : State) (h : Nat) (o : Obj) (order : Nat × Nat × Nat) : Option State :=
  if s.tierFree 1 < mapFrames o.tiles then none
  else match s.placeTiles o.tier o.spread o.owner o.cls o.tiles (mapFrames o.tiles) (o.policy != 2) with
    | none => none
    | some fs => some (s.enterObj h o fs order)

/-- The reads of the cellar that a clone needs, one for each tile of its source that is homed there: they take queue slots (10
R290). -/
def State.cloneReads (s : State) (h src : Nat) (order : Nat × Nat × Nat) : List CellarOp :=
  match s.obj? src with
  | some o => (o.map.filter (fun m => tierOf m.2 == 3)).map (fun m => CellarOp.mk h m.1 m.2 false order)
  | none => []

/-- Enter the clone of an object, and that of its separate scale object, if the slot names one; none if frames are missing (10
R323). -/
def State.enterClones (s : State) (d : Cmd) (o : Obj) : Option State :=
  let sn := op32 d.slot 24
  match s.enterClone (op32 d.slot 20) (cloneObj o d.slot d.chan d.id (op32 d.slot 16) sn) (s.cmdOrder d) with
  | none => none
  | some s1 =>
    if sn = 0 then some s1
    else match s1.liveObj o.scaleObj with
      | some so => s1.enterClone sn (cloneObj so d.slot d.chan d.id o.scaleObj 0) (s.cmdOrder d)
      | none => some s1

/-- `CLONE`: checks, whole reservation, and the start of the copy (10 R322 to R324). -/
def State.runClone (s : State) (d : Cmd) : State :=
  let src := op32 d.slot 16
  match lowest (s.cloneBad d.slot), s.operand src with
  | some off, _ => s.endNow d stRange off 0
  | none, none => s.endNow d stRange 16 0
  | none, some o =>
    match s.poisonedTile src, s.poisonedTile o.scaleObj with
    | some t, _ => s.endNow d stPoisoned src t
    | none, some t => s.endNow d stPoisoned o.scaleObj t
    | none, none =>
      let sn := op32 d.slot 24
      if 1048576 ≤ s.objs.length + (if sn = 0 then 0 else 1) then s.endNow d stNoResource 0x0202 0
      else
        let ord := s.cmdOrder d
        match s.enterClones d o with
        | none => s.endNow d stNoResource 0x0201 0
        | some s2 =>
          let cellar : Bool := [op32 d.slot 20, sn].any (fun h => match s2.obj? h with
            | some n => (decide (h ≠ 0)) && n.map.any (fun m => tierOf m.2 == 3) | none => false)
          if cellar && s.sup.inhibit then s.endNow d stWriteInhibited s.vinMv 0
          else (s2.issue d (.waiting s.tickN)).queueFills
            (s.cloneReads (op32 d.slot 20) src ord ++ (if sn = 0 then [] else s.cloneReads sn o.scaleObj ord))

/-- `CLONE` (10 R323). -/
def execClone (n : Node) (s : State) : Host.Outcome State Fault Refusal := done (s.gfeHead n 0x1B State.runClone)

/-- The queue slots of a creation return, and its transfers that wait for one are given up (10 R290). -/
def State.dropFills (s : State) (h : Nat) : State :=
  { s with place := { s.place with cellar := s.place.cellar.filter (fun c => c.obj != h), fills := s.place.fills.filter (fun c => c.obj != h) } }

/-- A creation ends without success: its shadow frames become FREE and there is no object (10 R298, R324). -/
def State.dropCreation (s : State) (h : Nat) : State :=
  match s.obj? h with
  | none => s
  | some o => ((o.map.foldl (fun t m => t.freeFrame m.2) s).dropObj h).dropFills h

/-- Copy every tile of a clone from its source's home, headers unchanged, charged as moved bytes (10 R323; 05 R140); the
argument handle's tile from the payload (03 R78). -/
def State.copyClone (s : State) (h : Nat) (arg : List Byte) : State :=
  match s.obj? h with
  | none => s
  | some o =>
    match o.creation with
    | .copying _ src =>
      let s1 := o.map.foldl (fun t m =>
        let t1 := if src = argHandle then t.writeFrame m.2 (arg.take 192) 0 m.1 0 scaleOne
          else match t.homeOf src m.1 with
            | some f => ((t.touch f).copyFrame f m.2).chargeMove o.owner (tierOf f) (tierOf m.2) 4096
            | none => t
        (t1.setFrame m.2 { t1.frame m.2 with state := .home }).touch m.2) s
      s1.setObj h { o with creation := .live }
    | _ => s

/-- The first tile of a clone's source whose read fails: it is POISONED, its header fails its check, or it is `bad`, a tile whose
read fails every attempt (10 R324; 14 R418, R421). -/
def State.copyFault (s : State) (src : Nat) (bad : Option (Nat × Nat × PoisonCause)) : Option (Nat × Option PoisonCause) :=
  match s.obj? src with
  | none => none
  | some o => o.map.findSome? (fun m =>
      if (s.frame m.2).state = .poisoned then some (m.1, none)
      else match bad.filter (fun x => x.1 == src && x.2.1 == m.1) with
        | some x => some (m.1, some x.2.2)
        | none => (s.headFault m.2 src m.1).map (fun c => (m.1, some c)))

/-- A clone ends with `ST_POISONED` at a tile of `src`, which its failed read poisons; no object is created (10 R324; 14 R422). -/
def State.failClone (s : State) (d : Cmd) (src : Nat) (x : Nat × Option PoisonCause) : State :=
  let s1 := match s.homeOf src x.1, x.2 with
    | some f, some c => s.poisonFrame f c
    | _, _ => s
  (((s1.dropCreation (op32 d.slot 20)).dropCreation (op32 d.slot 24)).endCmd d stPoisoned src x.1 false).settleMoves

/-- The separate scale object that a clone copies: what its second object is a copy of. -/
def State.cloneScale (s : State) (sn : Nat) : Nat :=
  match s.obj? sn with
  | some o => (match o.creation with | .copying _ src => src | _ => 0)
  | none => 0

/-- `CLONE_COPY_COMPLETE`: the last tile copy is written: all shadow frames become HOME and the command ends (10 R323,
R324). `bad` is a source tile whose read fails every attempt (DESIGN CHOICE, log entry 9). -/
def execCloneCopyComplete (h : Nat) (bad : Option (Nat × Nat × PoisonCause)) (s : State) : Host.Outcome State Fault Refusal :=
  done (
    match s.obj? h with
    | none => s
    | some o =>
      match o.creation with
      | .copying id src =>
        match s.cmd? id with
        | none => s
        | some d =>
          let sn := op32 d.slot 24
          if !s.on || h != op32 d.slot 20 || s.cellarBusy h || (sn != 0 && s.cellarBusy sn) then s else
          let ss := if sn = 0 then 0 else s.cloneScale sn
          match s.copyFault src bad, s.copyFault ss bad with
          | some x, _ => s.failClone d src x
          | none, some x => s.failClone d ss x
          | none, none =>
            let s1 := s.copyClone h (s.payloadOf d)
            let s2 := if sn = 0 then s1 else s1.copyClone sn []
            (s2.endCmd d stOk 0 0 false).reapAll
      | _ => s)

end Sys2Proof.Machine
end

