-- ==== Sys2Proof/Machine/Lists.lean ====
section
/-! DEFINITION. Stored lists: `LAUNCH_LIST` and the fetch of its positions (03 R76 to R83), and `PATCH_LIST` (03 R84 to
R89). -/

namespace Sys2Proof.Machine

/-! ## `LAUNCH_LIST` -/

/-- A patch is pending on a list (03 R86). -/
def State.patchPending (s : State) (h : Nat) : Bool := s.gfe.patches.any (fun p => p.list == h)

/-- Of two commands that execute in one cycle the first wins (02 R46). -/
def State.wins (s : State) (a b : Nat) : Bool :=
  match s.cmd? a, s.cmd? b with
  | some x, some y => s.before (s.cmdOrder x) (s.cmdOrder y)
  | _, _ => false

/-- A patch that counts as executed before a `LAUNCH_LIST` is pending on its list (03 R87, R88). -/
def State.patchAhead (s : State) (d : Cmd) (h : Nat) : Bool :=
  s.gfe.patches.any (fun p => p.list == h && !(p.heldAt == s.clk.now && s.wins d.id p.cmd))

/-- `LAUNCH_LIST` (03 R82, R83, R87, R88): it waits at the head while a patch of its list is pending; else the launch starts. -/
def State.runLaunchList (s : State) (d : Cmd) : State :=
  match s.launchBad d.slot with
  | some off => s.endNow d stRange off 0
  | none =>
    let h := op32 d.slot 16
    if s.patchAhead d h then s
    else
      let l : Launch :=
        { id := d.id, cmd := d.id, chan := d.chan, list := h, nextPos := leField d.slot 20 2, left := leField d.slot 22 2,
          bind := (upTo 8).map (fun k => op32 d.slot (24 + 4 * k)), payload := d.payload, preds := 0, predAt := [],
          issuedAt := s.clk.now, stop := none, degraded := 0 }
      let s1 := s.issue d (.waiting s.tickN)
      { s1 with gfe := { s1.gfe with launches := s1.gfe.launches ++ [l] } }

/-- `LAUNCH_LIST` (03 R82). -/
def execLaunchList (n : Node) (s : State) : Host.Outcome State Fault Refusal := done (s.gfeHead n 0x10 State.runLaunchList)

/-- Fetch latency of a list's home tier in cycles (03 R83). -/
def fetchLatency (tier : Nat) : Nat := match tier with | 0 => 60 | 1 => 390 | _ => 650

/-- The 64 bytes of a position of a list. -/
def State.position (s : State) (h p : Nat) : List Byte :=
  match s.homeOf h (p / 64) with
  | some f => s.bytesAt (frameData f + p % 64 * 64) 64
  | none => zeros 64

/-- The first of `n` positions from `p` on whose tile is POISONED. -/
def State.poisonedPos (s : State) (h p n : Nat) : Option Nat :=
  (List.range' p n).find? (fun q => match s.homeOf h (q / 64) with
    | some f => (s.frame f).state == .poisoned
    | none => false)

/-- The first of `n` positions from `p` on whose tile is homed in the cellar: its tile. -/
def State.cellarPos (s : State) (h p n : Nat) : Option Nat :=
  ((List.range' p n).find? (fun q => match s.homeOf h (q / 64) with | some f => tierOf f == 3 | none => false)).map (· / 64)

/-- The order in which the transfers that a launch causes are served (10 R290). -/
def State.launchOrder (s : State) (l : Launch) : Nat × Nat × Nat :=
  match s.cmd? l.cmd with | some d => s.cmdOrder d | none => noOrder

/-- The first position of the list of a launch. -/
def State.firstPos (s : State) (l : Launch) : Nat :=
  match s.cmd? l.cmd with | some d => leField d.slot 20 2 | none => 0

/-- The positions of the command at the next position of a launch are available (03 R83). -/
def State.posReady (s : State) (l : Launch) (n : Nat) : Bool :=
  let f := match s.homeOf l.list (l.nextPos / 64) with | some f => fetchLatency (tierOf f) | none => 0
  decide (l.issuedAt + f + 4 * (l.nextPos + n - 1 - s.firstPos l) ≤ s.clk.now)

/-- Add the command at the next position of a launch, its checks passed (03 R77, R80). -/
def State.addListed (s : State) (l : Launch) (slot payload : List Byte) : State :=
  let id := s.gfe.nextId + 1
  match s.cmd? l.cmd with
  | none => s
  | some d =>
    let e := { newCmd id l.chan d.ctx slot payload d.part s.tickN with launch := some l.id, pos := l.nextPos, cls := d.cls }
    let s1 := { s with gfe := { s.gfe with cmds := s.gfe.cmds ++ [e], nextId := id } }
    let f := match s1.homeOf l.list (l.nextPos / 64) with | some f => fetchLatency (tierOf f) | none => 0
    (s1.setLaunch { l with nextPos := l.nextPos + 1 + slotExt slot, left := l.left - 1 }).chargeCyc l.chan 5
      (if l.nextPos = s.firstPos l then f + 4 * slotExt slot else 4 * (1 + slotExt slot))

/-- Why reading a tile of a list fails: its header, or `bad`, a tile whose read fails every attempt (14 R418, R421). -/
def State.listFault (s : State) (h tile : Nat) (bad : Option (Nat × PoisonCause)) : Option PoisonCause :=
  match bad.filter (fun x => x.1 == tile) with
  | some x => some x.2
  | none => (match s.homeOf h tile with | some f => s.headFault f h tile | none => none)

/-- The first of `n` positions from `p` on whose tile becomes POISONED at its fetch (03 R76). -/
def State.failedPos (s : State) (h p n : Nat) (bad : Option (Nat × PoisonCause)) : Option Nat :=
  (List.range' p n).find? (fun q => (s.listFault h (q / 64) bad).isSome)

/-- The tile of a position becomes POISONED at its fetch. -/
def State.poisonList (s : State) (h pos : Nat) (bad : Option (Nat × PoisonCause)) : State :=
  match s.homeOf h (pos / 64), s.listFault h (pos / 64) bad with
  | some f, some c => s.poisonFrame f c
  | _, _ => s

/-- The fetch of the next command of a launch: the walk's end, a POISONED tile, a cellar tile, the checks of 03 R76 and
R77. A slot that fails a condition of R77 is not also checked for XCRC (DEDUCED, log entry 53). -/
def State.fetchNext (s : State) (l : Launch) (bad : Option (Nat × PoisonCause)) : State :=
  match s.obj? l.list with
  | none => s
  | some o =>
    let p := l.nextPos
    let slot := s.position l.list p
    let n := 1 + slotExt slot
    let size := o.tiles * 64
    if size ≤ p then s.stopLaunch l.id p stRange
    else match s.cellarPos l.list p 1 with
      | some t => s.wantFetch l.list t (s.launchOrder l)
      | none =>
        if (s.poisonedPos l.list p 1).isSome then s.stopLaunch l.id p stPoisoned
        else if !s.posReady l 1 then s
        else if (s.failedPos l.list p 1 bad).isSome then (s.poisonList l.list p bad).stopLaunch l.id p stPoisoned
        else if !slotCrcOk slot || slotSeq slot != p % 65536 then s.stopLaunch l.id p stSlotCheck
        else if (listSlotBad slot).isSome then s.stopLaunch l.id p stRange
        else if size < p + n then s.stopLaunch l.id size stRange
        else match s.cellarPos l.list p n with
          | some t => s.wantFetch l.list t (s.launchOrder l)
          | none => match s.poisonedPos l.list p n with
            | some q => s.stopLaunch l.id q stPoisoned
            | none =>
              let ext := (List.range' (p + 1) (n - 1)).flatMap (fun q => s.position l.list q)
              if !s.posReady l n then s
              else match s.failedPos l.list p n bad with
                | some q => (s.poisonList l.list q bad).stopLaunch l.id q stPoisoned
                | none =>
                  if !slotXcrcOk slot ext then s.stopLaunch l.id p stSlotCheck else s.addListed l slot ext

/-- `LIST_POSITION_FETCH` (03 R83): the next command of a launch that has not stopped is fetched once its positions are
available (DEDUCED, log entry 53). `bad` is a tile whose read fails every attempt (DESIGN CHOICE, log entry 9). -/
def execListPositionFetch (launch : Nat) (bad : Option (Nat × PoisonCause)) (s : State) : Host.Outcome State Fault Refusal :=
  done (match s.launch? launch with
    | none => s
    | some l => if s.coresRun && !s.unitTest 1 && l.stop.isNone && l.left != 0 then s.fetchNext l bad else s)

/-! ## `PATCH_LIST` -/

/-- MODE of a `PATCH_LIST`. -/
def patchMode (b : List Byte) : Nat := opBits b 22 1 1 0

/-- The conditions that end a `PATCH_LIST` with `ST_RANGE`, as offsets (03 R84, R85, R90; 04 R521). -/
def State.patchBad (s : State) (d : Cmd) : List Nat :=
  let b := d.slot
  let first := leField b 20 2
  let count := leField b 23 1
  let mode := patchMode b
  let span := if mode = 2 then 1 else count
  (match s.liveObj (op32 b 16) with
   | none => [16]
   | some o => if o.fmt ≠ 0x01 ∨ o.tiles * 64 < first + span then [16] else []) ++
  (if mode = 3 then [22] else []) ++
  (if count = 0 ∨ (mode = 0 ∧ 3 < count) ∨ (mode = 2 ∧ 8 < count) then [23] else []) ++
  (if mode = 0 ∧ slotExt b < count then [1] else []) ++
  (if mode = 1 then
    (match s.operand (op32 b 24) with
     | none => [24]
     | some o => (if op32 b 28 % 64 ≠ 0 then [28] else []) ++
        (if o.tiles * 4096 < op32 b 28 + 64 * count then [23] else []))
   else []) ++
  (if mode = 2 then
    (if leField b 24 1 < 6 ∨ 59 < leField b 24 1 then [24] else []) ++ (if 60 < leField b 24 1 + count then [23] else [])
   else [])

/-- The bytes that a patch writes, by byte offset in the list (DEDUCED, log entry 53). -/
def State.patchWrites (s : State) (d : Cmd) : List (Nat × List Byte) :=
  let b := d.slot
  let first := leField b 20 2
  let count := leField b 23 1
  match patchMode b with
  | 0 => (upTo count).map (fun i => ((first + i) * 64, padTo 64 (((s.payloadOf d).drop (64 * i)).take 64)))
  | 1 => (upTo count).map (fun i => ((first + i) * 64, s.objBytes d (op32 b 24) (op32 b 28 + 64 * i) 64))
  | _ => [(first * 64 + leField b 24 1, (leBytes 8 (leField b 32 8)).take count)]

/-- EXT_COUNT of a position of a list as the patches `ws`, the last the latest, leave it. -/
def State.patchedExt (s : State) (h p : Nat) (ws : List (Nat × List Byte)) : Nat :=
  let o := p * 64 + 1
  match ws.reverse.find? (fun w => decide (w.1 ≤ o) && decide (o < w.1 + w.2.length)) with
  | some w => bitsOf (leField w.2 (o - w.1) 1) 5 4
  | none => slotExt (s.position h p)

/-- Whether position `p` is the first position of a command, walking a list from position `q` on. -/
def State.isFirst (s : State) (h p : Nat) (ws : List (Nat × List Byte)) : Nat → Nat → Bool
  | 0, q => p == q
  | n + 1, q => if p ≤ q then p == q else State.isFirst s h p ws n (q + 1 + s.patchedExt h q ws)

/-- The first supplied position of a patch that fails its check: CRC, or SEQ equal to the target position (03 R85). -/
def State.patchSlotBad (s : State) (d : Cmd) (ws : List (Nat × List Byte)) : Option Nat :=
  if patchMode d.slot = 2 then none
  else
    let h := op32 d.slot 16
    let all := (s.gfe.patches.filter (fun p => p.list == h)).flatMap (fun p => p.writes) ++ ws
    (ws.find? (fun w => s.isFirst h (w.1 / 64) all (w.1 / 64) 0 &&
      (!slotCrcOk w.2 || slotSeq w.2 != w.1 / 64 % 65536))).map (fun w => w.1 / 64)

/-- A launch that counts as not yet executed waits at its head again (03 R88). -/
def State.withdrawLaunch (s : State) (l : Launch) : State :=
  match s.cmd? l.cmd with
  | none => s
  | some d =>
    let a := s.acct d.chan
    ((s.dropLaunch l.id).setAcct d.chan { a with queueWait := a.queueWait - (s.tickN - d.accTick) }).setCmd
      { d with phase := .unissued, begun := false }

/-- The launches of a list that have started in this cycle and lose to a patch (03 R88). -/
def State.beaten (s : State) (d : Cmd) (h : Nat) : List Launch :=
  s.gfe.launches.filter (fun l => l.list == h && l.issuedAt == s.clk.now && l.nextPos == s.firstPos l && l.stop.isNone &&
    s.wins d.id l.cmd)

/-- `PATCH_LIST` (03 R84 to R89): the checks, then the patch is held pending. -/
def State.runPatchList (s : State) (d : Cmd) : State :=
  let h := op32 d.slot 16
  match lowest (s.patchBad d) with
  | some off => s.endNow d stRange off 0
  | none =>
    if 1024 ≤ s.gfe.patches.length then s.endNow d stNoResource 0x0501 0
    else
      let src := op32 d.slot 24
      match (if patchMode d.slot = 1 then s.badIn d src (op32 d.slot 28) (64 * leField d.slot 23 1) else none) with
      | some t => (s.poisonIfBad d src t).endNow d stPoisoned src t
      | none =>
        let ws := s.patchWrites d
        match s.patchSlotBad d ws with
        | some p => s.endNow d stSlotCheck h p
        | none =>
          let p : Patch := { cmd := d.id, list := h, heldAt := s.clk.now, writes := ws, cost := ws.length, due := s.applyTick, staged := false }
          let s1 := s.issue d (.waiting s.tickN)
          (s.beaten d h).foldl State.withdrawLaunch { s1 with gfe := { s1.gfe with patches := s1.gfe.patches ++ [p] } }

/-- `PATCH_LIST` (03 R86). -/
def execPatchList (n : Node) (s : State) : Host.Outcome State Fault Refusal := done (s.gfeHead n 0x11 State.runPatchList)

/-- Write bytes at a byte offset of an object: in place, or into a shadow tile that becomes the home of a tile of the
cellar. -/
def State.writeObj (s : State) (h off cls : Nat) (bytes : List Byte) : State :=
  match s.homeOf h (off / 4096) with
  | none => s
  | some f =>
    if tierOf f = 3 then s.rewriteTile h (off / 4096) cls (off % 4096) bytes
    else s.writeBytes (frameData f + off % 4096) bytes

/-- Apply a patch: its bytes, and the CRC of the slot that mode 2 has patched (03 R85, R86). -/
def State.applyPatch (s : State) (p : Patch) : State :=
  let s1 := p.writes.foldl (fun t w => t.writeObj p.list w.1 1 w.2) s
  p.writes.foldl (fun t w =>
    if w.2.length = 64 then t
    else
      let q := w.1 / 64
      t.writeObj p.list (q * 64 + 60) 1 (leBytes 4 (crc32c ((t.position p.list q).take 60)))) s1

/-- The launches that waited for the patches of some lists are issued (03 R87). -/
def State.issueLaunches (s : State) (hs : List Nat) : State :=
  ((s.gfe.cmds.filter (fun d => slotOp d.slot == 0x10 && d.launch.isNone && !d.begun && hs.contains (op32 d.slot 16))).map
    Cmd.node).foldl (fun t n => t.gfeHead n 0x10 State.runLaunchList) s

/-- The staged patches become visible at the edge, and their commands end (03 R86, R89). -/
def State.showPatches (s : State) : State :=
  let ps := s.gfe.patches.filter (fun p => p.staged)
  let s1 := ps.foldl State.applyPatch s
  let s2 := { s1 with gfe := { s1.gfe with patches := s1.gfe.patches.filter (fun p => !p.staged) } }
  ps.foldl (fun t p => match t.cmd? p.cmd with | some d => t.endCmd d stOk 0 0 false | none => t) s2

end Sys2Proof.Machine
end

