-- ==== Sys2Proof/Machine/Rows.lean ====
section
/-! DEFINITION. Rows of row-tile objects and tables (09 R241, R244), the remap and the versions that readers and updates see
(09 R245 to R248), and shard maps (09 R243). -/

namespace Sys2Proof.Machine

/-- Rows in a row tile (09 R241). -/
def rowsIn (b : Nat) : Nat := 4096 / max b 1

/-- Where a row lies: object, tile and byte in the tile (09 R241). -/
def rowPlace (h b r : Nat) : Nat × Nat × Nat := (h, r / rowsIn b, r % rowsIn b * b)

/-- Rows held by a row-tile object or table (09 R240, 10 R313). -/
def objRows (o : Obj) : Nat :=
  match o.table with
  | some (t, _) => t.rows
  | none => o.dataTiles * rowsIn o.rowBytes

/-- The state-row length of a table, 0 without state (09 R241). -/
def TableDesc.stateLen (t : TableDesc) : Nat := if t.state = 0 then 0 else stateRowLen t.elemState t.rowState t.elems

/-- The row length of a table's pool: the larger of a row and a state row (09 R241). -/
def poolRowBytes (o : Obj) (t : TableDesc) : Nat := max o.rowBytes t.stateLen

/-- The entry of a row with the largest epoch that satisfies a bound (09 R246, R247). -/
def entryOf (y : TableDyn) (r : Nat) (ok : Nat → Bool) : Option RemapEntry :=
  (y.remap.filter (fun e => e.row == r && ok e.epoch)).foldl (fun b e => match b with
    | some x => if x.epoch < e.epoch then some e else some x
    | none => some e) none

/-- Where a reader admitted in this tick reads local row `r` (09 R246). -/
def State.readerPlace (s : State) (h : Nat) (o : Obj) (r : Nat) : Nat × Nat × Nat :=
  match o.table with
  | some (t, y) => (match entryOf y r (fun e => decide (e < s.tickN)) with
    | some e => rowPlace t.pool (poolRowBytes o t) (2 * e.slot)
    | none => rowPlace h o.rowBytes r)
  | none => rowPlace h o.rowBytes r

/-- The entry that an update reads for local row `r` (09 R247). -/
def updEntry (o : Obj) (r : Nat) : Option RemapEntry :=
  match o.table with | some (_, y) => entryOf y r (fun _ => true) | none => none

/-- The bytes of a row as a command sees them. -/
def State.rowBytesAt (s : State) (d : Cmd) (pl : Nat × Nat × Nat) (b : Nat) : List Byte :=
  ((s.tileData d pl.1 pl.2.1).drop pl.2.2).take b

/-- The values of a row: packed rows by their row scale, single-level rows by the scale of their tile (09 R242). -/
def State.rowVals (s : State) (d : Cmd) (pl : Nat × Nat × Nat) (fmt n : Nat) : List FV :=
  let vs := decodeRow fmt n (s.rowBytesAt d pl (rowLen fmt n))
  if isSingleLevel fmt then vs.map (fun v => f32 (FV.mul v (fp32 (s.scaleOfTile d pl.1 pl.2.1)))) else vs

/-! ## Shard maps (09 R243) -/

/-- The entries of a shard map: first global row and module, up to 4,096. An entry after the first whose FIRST_ROW does not
rise ends the map. -/
def State.shardEntries (s : State) (h : Nat) : Nat → Nat → List (Nat × Nat)
  | 0, _ => []
  | n + 1, i =>
    match s.homeOf h (i * 16 / 4096) with
    | none => []
    | some f =>
      let a := frameData f + i * 16 % 4096
      let first := leNat (s.bytesAt a 8)
      let m := leNat (s.bytesAt (a + 8) 2) % 16384
      let prev := if i = 0 then 0 else (match s.homeOf h ((i - 1) * 16 / 4096) with
        | some g => leNat (s.bytesAt (frameData g + (i - 1) * 16 % 4096) 8)
        | none => 0)
      if i ≠ 0 ∧ first ≤ prev then [] else (first, m) :: State.shardEntries s h n (i + 1)

/-- The owner of a global row and its local row there (09 R243, R244); none if no entry covers it. -/
def ownerOf (es : List (Nat × Nat)) (g : Nat) : Option (Nat × Nat) :=
  (es.filter (fun e => decide (e.1 ≤ g))).getLast?.map (fun e => (e.2, g - e.1))

/-- The module and local row of an index of a table, by its shard map; none where the index is out of range (09 R244). -/
def State.mapIndex (s : State) (o : Obj) (es : List (Nat × Nat)) (i : Int) : Option (Nat × Nat) :=
  if i < 0 then none
  else
    let g := i.toNat
    let sh := match o.table with | some (t, _) => t.shard | none => 0
    let m := if sh = 0 then some (s.fab.moduleId, g) else ownerOf es g
    match m with
    | none => none
    | some (own, r) => if own = s.fab.moduleId ∧ objRows o ≤ r then none else some (own, r)

end Sys2Proof.Machine
end

