-- ==== Sys2Proof/Machine/Output.lean ====
section
/-! DEFINITION. What a cluster command writes: conversion into whole tiles (08 R226 to R228), groups of two-level objects
(06 R157), and the shadow tiles that hold them (05 R123). -/

namespace Sys2Proof.Machine

/-- How a command writes an object: the handle, the first tile of its output, the tile scale of a narrow output (06 R162,
R174), rounding code and SAT, the captured generator state (06 R169) and the SCALE_SEQ of the command (06 R156). -/
structure OutSpec where
  h : Nat
  base : Nat
  scale : Nat
  rnd : Nat
  sat : Bool
  key : Nat
  ctr : Nat
  seq : Nat
  deriving DecidableEq, Repr

/-- A tile to be written: object, tile, data bytes, SCALE_SEQ and TILE_SCALE. -/
structure OutTile where
  obj : Nat
  tile : Nat
  bytes : List Byte
  seq : Nat
  scale : Nat
  deriving DecidableEq, Repr

/-- A format whose elements are converted with a tile scale: two-level formats, FP8 and FP4 (08 R226). -/
def isNarrow (fmt : Nat) : Bool := isTwoLevel fmt || fmt == 0x07 || fmt == 0x08 || fmt == 0x09

/-- The rounding of element `i` of an object of a format at rounding point 0: SR draws by the index counted from the first
element of the output's first tile (06 R170, 08 R226). -/
def OutSpec.rndOf (x : OutSpec) (fmt i : Nat) : Rnd :=
  rndAt x.rnd x.key x.ctr 0 (wrap 64 ((i : Int) - (x.base * elemsPerTile fmt : Nat)))

/-- The last value written to element `i` of the object (08 R228). -/
def lastWrite (ws : List (Nat × FV)) (i : Nat) : Option FV := (ws.reverse.find? (fun w => w.1 == i)).map Prod.snd

/-- The number of element `k` of a tile in its object. -/
def elemIndex (fmt tile k : Nat) : Nat := tile * elemsPerTile fmt + k

/-- The codes of a tile of an unscaled or single-level format (08 R226, R227). -/
def State.plainTile (s : State) (d : Cmd) (x : OutSpec) (o : Obj) (ws : List (Nat × FV)) (tile : Nat) : List Nat :=
  let narrow := isSingleLevel o.fmt
  let told := s.scaleOfTile d x.h tile
  (upTo (elemsPerTile o.fmt)).map (fun k =>
    let i := elemIndex o.fmt tile k
    let put := fun (v : FV) =>
      convert o.fmt (x.rndOf o.fmt i) x.sat (if isNarrow o.fmt then f32 (FV.div v (fp32 x.scale)) else v)
    match lastWrite ws i with
    | some v => put v
    | none =>
      if narrow = true ∧ told ≠ x.scale then put (s.valueAt d x.h o o.fmt tile k)
      else s.elemAt d x.h (elemBits o.fmt) tile k)

/-- A sub-block of a two-level tile: its scale byte and its element codes (08 R227), of values rounded to FP32 (06 R161, R172). -/
def State.subBlock (s : State) (d : Cmd) (x : OutSpec) (o : Obj) (ws : List (Nat × FV)) (tile j : Nat) : Nat × List Nat :=
  let st := scaleTileOf x.h o tile
  let ks := List.range' (16 * j) 16
  let written := ks.any (fun k => (lastWrite ws (elemIndex o.fmt tile k)).isSome)
  if !written && s.scaleOfTile d x.h tile == x.scale then
    (s.objByte d st.1 (st.2 * 4096 + scaleByteAt o tile j), ks.map (fun k => s.elemAt d x.h (elemBits o.fmt) tile k))
  else
    quantBlock o.fmt (fp32 x.scale) (ks.map (fun k =>
      let i := elemIndex o.fmt tile k
      ((match lastWrite ws i with | some v => f32 v | none => s.valueAt d x.h o o.fmt tile k), x.rndOf o.fmt i)))

/-- Insert a number into a rising list without repeats. -/
def insertNew (x : Nat) : List Nat → List Nat
  | [] => [x]
  | a :: t => if x < a then x :: a :: t else if x = a then a :: t else a :: insertNew x t

/-- The tiles that a set of writes touches, rising. -/
def touched (fmt : Nat) (is : List Nat) : List Nat :=
  (is.foldl (fun l i => insertNew (i / elemsPerTile fmt) l) [])

/-- The data tiles of the group of a tile (06 R155). -/
def groupOf (o : Obj) (tile : Nat) : List Nat :=
  let g := groupSize o.fmt
  List.range' (tile / g * g) (min g (o.dataTiles - tile / g * g))

/-- The output tiles that writes to elements take, with the rest of the groups of a two-level object and their scale
tiles (05 R135, 06 R157). -/
def outTilesAt (h : Nat) (o : Obj) (is : List Nat) : List (Nat × Nat) :=
  let ts := touched o.fmt is
  if isTwoLevel o.fmt then
    let data := (ts.flatMap (groupOf o)).eraseDups
    withHandle h data ++ (data.map (scaleTileOf h o)).eraseDups
  else withHandle h ts

/-- The whole scale tile of a group: new scale bytes for the tiles that the command writes, the old ones for the others,
zeros beyond a short last group (06 R155, R157). -/
def State.scaleTile (s : State) (d : Cmd) (o : Obj) (st : Nat × Nat) (new : List (Nat × List Nat)) : List Byte :=
  let g := groupSize o.fmt
  let n := scalesPerTile o.fmt
  let first := st.2 - (if o.scaleObj = 0 then o.dataTiles else 0)
  (upTo g).flatMap (fun k =>
    let t := first * g + k
    if o.dataTiles ≤ t then zeros n
    else match new.find? (fun x => x.1 == t) with
      | some x => x.2.map (BitVec.ofNat 8)
      | none => (upTo n).map (fun j => BitVec.ofNat 8 (s.objByte d st.1 (st.2 * 4096 + scaleByteAt o t j)))) |> padTo 4096

/-- The tiles that a set of writes to an object produces (08 R226, R227; 06 R157). -/
def State.outTiles (s : State) (d : Cmd) (x : OutSpec) (o : Obj) (ws : List (Nat × FV)) : List OutTile :=
  let ts := touched o.fmt (ws.map Prod.fst)
  if isTwoLevel o.fmt then
    let new := ts.map (fun t => (t, (upTo (scalesPerTile o.fmt)).map (s.subBlock d x o ws t)))
    let group := (ts.flatMap (groupOf o)).eraseDups
    let data := group.map (fun t => match new.find? (fun y => y.1 == t) with
      | some y => OutTile.mk x.h t (padTo 4096 (packElems (elemBits o.fmt) (y.2.flatMap Prod.snd))) x.seq x.scale
      | none => OutTile.mk x.h t (s.tileData d x.h t) x.seq (s.scaleOfTile d x.h t))
    let scales := (group.map (scaleTileOf x.h o)).eraseDups
    data ++ scales.map (fun st =>
      OutTile.mk st.1 st.2 (s.scaleTile d o st (new.map (fun y => (y.1, y.2.map Prod.fst)))) x.seq scaleOne)
  else
    ts.map (fun t => OutTile.mk x.h t (padTo 4096 (packElems (elemBits o.fmt) (s.plainTile d x o ws t))) 0
      (if isSingleLevel o.fmt then x.scale else scaleOne))

/-- Writes to elements take every element of a tile of `e`: the places that they take, as bits of one number, are all set. -/
def takesAll (e tile : Nat) (is : List Nat) : Bool :=
  (is.filter (fun i => i / e == tile)).foldl (fun m i => m ||| 2 ^ (i % e)) 0 == 2 ^ e - 1

/-- The tiles that a command copies for the groups of the tiles `ts` that it writes (06 R157). -/
def copiedTiles (o : Obj) (ts : List Nat) : List Nat :=
  if isTwoLevel o.fmt then ((ts.flatMap (groupOf o)).filter (fun t => !ts.contains t)).eraseDups else []

/-- The tiles of an object that writes to elements leave partly written, with those copied for their groups: the old
homes that a command reads (08 R227, 06 R157). -/
def partTiles (h : Nat) (o : Obj) (is : List Nat) : List (Nat × Nat) :=
  let ts := touched o.fmt is
  let e := elemsPerTile o.fmt
  withHandle h (ts.filter (fun t => !takesAll e t is) ++ copiedTiles o ts)

/-- Put output tiles into shadow tiles of the command (05 R123): the shadows, or none where no frame is free. -/
def State.placeOut (s : State) (d : Cmd) (clu : Nat) : List OutTile → Option (List Shadow × State)
  | [] => some ([], s)
  | t :: rest =>
    match s.allocShadow (s.cmdTier d.id t.obj t.tile) t.obj t.tile d.cls with
    | none => none
    | some (f, s1) =>
      let fmt := match s1.obj? t.obj with | some o => o.tileFmt t.tile | none => 0
      let s2 := (s1.writeFrame f t.bytes fmt t.tile t.seq t.scale).engineWrite d.chan clu f 4096
      match State.placeOut s2 d clu rest with
      | none => none
      | some (hs, s3) => some (⟨t.obj, t.tile, f⟩ :: hs, s3)

end Sys2Proof.Machine
end

