-- ==== Sys2Proof/Machine/Scales.lean ====
section
/-! DEFINITION. Delayed-scaling slots (06 R173 to R179): contributions, the update of a guard band, `SCALE_SET`, and
`GFE_SCALE_CLEAR_HIST`. -/

namespace Sys2Proof.Machine

/-! ## Slots -/

/-- T of a slot as applied (06 R173). -/
def State.slotT (s : State) (k : Nat) : Nat := s.regGet .gfe k 0x508

/-- A scale is a positive, finite, normal FP32 pattern (06 R178, R179). -/
def okScale (v : Nat) : Bool := decide (0x00800000 ≤ v) && decide (v < 0x7F800000)

/-- A configuration in the layout of `GFE_SCALE_CFG` is allowed: HIST_LEN 1 to 16, TARGET 0 to 8 (06 R178, R179). -/
def okScaleCfg (v : Nat) : Bool :=
  decide (1 ≤ bitsOf v 4 0) && decide (bitsOf v 4 0 ≤ 16) && decide (bitsOf v 15 12 ≤ 8)

/-- Merge a summary into a slot's accumulator by maximum of magnitude; a NaN or infinity only counts (06 R174, R175). -/
def ScaleSlot.merge (x : ScaleSlot) (v : W32) : ScaleSlot :=
  let m := v.toNat % 2 ^ 31
  let n := satAdd 16 x.contrib 1
  if 0x7F800000 ≤ m then { x with contrib := n, bad := satAdd 16 x.bad 1 }
  else { x with contrib := n, acc := BitVec.ofNat 32 (max x.acc.toNat m) }

/-- A command's amax summary for slot `k` is merged in its flip cycle (06 R174). -/
def State.mergeAmax (s : State) (k : Nat) (v : W32) : State := s.setScale k ((s.scale k).merge v)

/-- The update of a slot in step 2 of the boundary work (06 R175): the new slot, its new T, whether a contribution was NaN or
infinite, whether T was clamped. -/
def updateSlot (x : ScaleSlot) (cfg t : Nat) : ScaleSlot × Nat × Bool × Bool :=
  let anomaly : Bool := x.bad != 0
  if x.contrib = x.bad then ({ x with acc := 0, contrib := 0, bad := 0 }, t, anomaly, false)
  else
    let hist := (x.acc :: x.hist).take (bitsOf cfg 4 0)
    let y : ScaleSlot := { hist := hist, acc := 0, contrib := 0, bad := 0 }
    let a := (hist.map BitVec.toNat).foldl max 0
    if bitOf cfg 17 ∨ a = 0 then (y, t, anomaly, false)
    else
      let r := scaleFrom (fp32 a) (signed 4 (bitsOf cfg 11 8)) (bitsOf cfg 15 12) (bitsOf cfg 16 16)
      (y, r.1, anomaly, r.2)

/-! ## `SCALE_SET` -/

/-- OP of a `SCALE_SET`. -/
def scaleOp (b : List Byte) : Nat := opBits b 18 1 2 0

/-- The scales that OP SET supplies, one per slot (06 R177). -/
def State.scaleVals (s : State) (d : Cmd) : List Nat :=
  let n := leField d.slot 19 1
  if slotExt d.slot = 0 then List.replicate n (op32 d.slot 20)
  else (upTo n).map (fun i => leField (s.payloadOf d) (4 * i) 4)

/-- The conditions that end a `SCALE_SET` with `ST_RANGE`, as offsets (06 R177, R178; 04 R521); an invalid scale of the
payload is reported at VALUE, 20 (DEDUCED, log entry 41). -/
def State.scaleSetBad (s : State) (d : Cmd) : List Nat :=
  let b := d.slot
  let op := scaleOp b
  let n := leField b 19 1
  let cfg := op32 b 24
  (if 3 ≤ op then [18] else []) ++
  (if n = 0 ∨ 48 < n then [19] else []) ++ (if 1024 < opBits b 16 2 9 0 + n then [16] else []) ++
  (if op = 0 then
    (if 0 < slotExt b ∧ 16 * slotExt b < n then [1]
     else if (s.scaleVals d).all okScale then [] else [20])
   else []) ++
  (if op = 1 ∧ (okScaleCfg cfg = false ∨ bitsOf cfg 7 5 ≠ 0 ∨ bitsOf cfg 31 18 ≠ 0) then [24] else [])

/-- `SCALE_SET` is staged for its edge (06 R178). -/
def State.runScaleSet (s : State) (d : Cmd) : State :=
  match lowest (s.scaleSetBad d) with
  | some off => s.endNow d stRange off 0
  | none =>
    let first := opBits d.slot 16 2 9 0
    let x : ScaleStage :=
      { cmd := d.id, slots := (indexed first (s.scaleVals d)).map (fun y => (y.1, BitVec.ofNat 32 y.2)),
        due := s.applyTick, staged := false }
    let s1 := s.issue d (.waiting s.tickN)
    { s1 with gfe := { s1.gfe with scaleSets := s1.gfe.scaleSets ++ [x] } }

/-- `SCALE_SET` (06 R178). -/
def execScaleSet (n : Node) (s : State) : Host.Outcome State Fault Refusal := done (s.gfeHead n 0x40 State.runScaleSet)

/-- A staged `SCALE_SET` takes effect on its slots (06 R177, R178). -/
def State.applyScaleSet (s : State) (x : ScaleStage) : State :=
  match s.cmd? x.cmd with
  | none => s
  | some d => x.slots.foldl (fun t y =>
      match scaleOp d.slot with
      | 0 => t.regPut .gfe y.1 0x508 y.2.toNat
      | 1 => t.regPut .gfe y.1 0x504 (op32 d.slot 24)
      | _ => t.setScale y.1 { t.scale y.1 with hist := [] }) s

/-- The `SCALE_SET` commands of a list end at the edge (06 R178). -/
def State.endScaleSets (s : State) (xs : List ScaleStage) : State :=
  xs.foldl (fun t x => match t.cmd? x.cmd with | some d => t.endCmd d stOk 0 0 false | none => t) s

/-! ## `GFE_SCALE_CLEAR_HIST` -/

/-- A T-class write of a register is latched (15 R457). -/
def State.latchT (s : State) (k mask v : Nat) : State :=
  { s with reg := { s.reg with pend := s.reg.pend ++ [⟨k, mask, v, s.applyTick⟩] } }

/-- `GFE_SCALE_CLEAR_HIST`: the selected slot's history is emptied at the next edge (06 R179). -/
def execGfeScaleClearHist (a : Acc) (s : State) : Host.Outcome State Fault Refusal :=
  done (if !s.served then s else s.latchT (regKey .gfe (s.selected a .gfe 0x500 9 0) 0x514) 1 1)

end Sys2Proof.Machine
end

