-- ==== Sys2Proof/Machine/Runs.lean ====
section
/-! DEFINITION. Runs on clusters: their start (02 R34, R36), their ends (05 R124, R126, R522), deferral and kill (02 R34, 05
R130), and the repeat rule's triggers and pairs (14 R425 to R430). -/

namespace Sys2Proof.Machine

/-! ## Clusters, partitions and the allowance (02 R29 to R31; 05 R117, R138) -/

/-- The enabled partition that holds a cluster (05 R117, R118). -/
def State.partOf (s : State) (n : Nat) : Option Nat :=
  (upTo 8).find? (fun p => (s.partMask p).testBit n && s.fld .gfe 0 (0x300 + 4 * p) 0 0 == 1)

/-- The admission limit of a partition (02 R30). -/
def State.limitOf (s : State) (p : Nat) : Nat :=
  let pct := s.fld .gfe 0 (0x120 + 4 * p) 6 0
  s.G * (if pct = 0 then 100 else pct) / 100

/-- The charge of a command exceeds its partition's admission limit (02 R32). -/
def State.overLimit (s : State) (d : Cmd) : Bool := decide (s.limitOf d.part < slotCharge d.slot)

/-- The admission limit that holds on a cluster. -/
def State.limitAt (s : State) (n : Nat) : Nat := match s.partOf n with | some p => s.limitOf p | none => 0

/-- The cycles of a run up to now (DESIGN CHOICE, log entry 10). -/
def State.elapsed (s : State) (r : Run) : Nat := s.clk.now - r.startNow

/-- The remaining charge of a cluster's running command (02 R31). -/
def State.remaining (s : State) (n : Nat) : Nat :=
  match (s.clu n).run with | some r => r.charge - s.elapsed r | none => 0

/-- The horizon of a cluster now (02 R31). -/
def State.horizon (s : State) (n : Nat) : Nat :=
  s.clk.cyc + s.remaining n + ((s.clu n).queue.map Prod.snd).foldl (· + ·) 0

/-- Return a part of a charge to the allowance (05 R138). -/
def State.refund (s : State) (k : Nat) : State := { s with sup := { s.sup with charged := s.sup.charged - k } }

/-- Release the scratchpad reservations of a command's run on a cluster (05 R135). -/
def State.dropResv (s : State) (id n : Nat) : State :=
  { s with resvs := s.resvs.filter (fun r => !(r.cmd == id && r.on == n)) }

/-- The running command of a cluster with its run. -/
def State.running (s : State) (n : Nat) : Option (Run × Cmd) :=
  match (s.clu n).run with
  | none => none
  | some r => match s.cmd? r.cmd with | some d => some (r, d) | none => none

/-- The running command of a cluster if it has an opcode and its engine has not taken its operands. -/
def State.fresh (s : State) (n op : Nat) : Option (Run × Cmd) :=
  match s.running n with
  | some (r, d) => if s.on && slotOp d.slot == op && !r.prepared then some (r, d) else none
  | none => none

/-- Replace the run of a cluster. -/
def State.setRun (s : State) (n : Nat) (r : Run) : State := s.setClu n { s.clu n with run := some r }

/-! ## The engine of a command (05 R139, 07 R194) -/

/-- M, N and K of a `GEMM`. -/
def gemmM (b : List Byte) : Nat := opBits b 36 8 19 0
def gemmN (b : List Byte) : Nat := opBits b 36 8 39 20
def gemmK (b : List Byte) : Nat := opBits b 36 8 59 40

/-- A `GEMM` runs on the skink (07 R194); a `MATVEC` always does. -/
def onSkink (b : List Byte) : Bool :=
  slotOp b == 0x21 ||
  (slotOp b == 0x20 && decide (gemmM b ≤ 8) && decide (gemmK b ≤ 16384) && opBits b 56 4 4 4 == 0)

/-- A command that writes host memory (02 R29). -/
def writesHost (b : List Byte) : Bool := slotOp b == 0x38

/-- The rounding codes of a cluster command name SR (06 R169). -/
def usesSr (b : List Byte) : Bool :=
  match slotOp b with
  | 0x20 => opBits b 56 4 1 0 == 2
  | 0x21 => opBits b 56 4 1 0 == 2
  | 0x22 => opBits b 56 4 11 10 == 2
  | 0x28 => opBits b 52 4 9 8 == 2
  | 0x29 => opBits b 36 4 1 0 == 2
  | _ => false

/-! ## The end of a run -/

/-- Charge the cycles of a run: a fold's go to the channels of its entries in proportion (05 R139, 09 R280)
(DEDUCED, log entry 51). -/
def State.chargeRun (s : State) (d : Cmd) (k : Nat) : State :=
  let e := engineOf d.slot (onSkink d.slot)
  match d.res with
  | some r =>
    if slotOp d.slot = foldOp ∧ r.wgts.length ≠ 0 then
      (r.wgts.eraseDups).foldl (fun t c =>
        t.chargeCyc c.toNat e (k * (r.wgts.filter (fun w => w == c)).length / r.wgts.length)) s
    else s.chargeCyc d.chan e k
  | none => s.chargeCyc d.chan e k

/-- The host reads of a run and its staged bytes are discarded (12 R385, R390). -/
def State.dropHost (s : State) (n id : Nat) : State :=
  { s with host := { s.host with
      reads := s.host.reads.filter (fun r => match r.id with | .line c _ => c != n | _ => true),
      lines := s.host.lines.filter (fun x => x.1 != n), staged := s.host.staged.filter (fun x => x.1 != id) } }

/-- A run leaves its cluster after `k` cycles: its cycles are charged, the rest of its charge returns to the allowance, and
its reads are over (05 R124, R138, R139). `lost` says that it was killed. -/
def State.leaveRun (s : State) (n k : Nat) (lost : Bool) : State :=
  match s.running n with
  | none => s.setClu n { s.clu n with run := none }
  | some (r, d) =>
    let c := s.clu n
    let s1 := (s.setClu n { c with run := none, used := c.used + k, freeAt := r.startNow + k }).chargeRun d k
    let a := s1.acct d.chan
    let s2 := if lost then s1.setAcct d.chan { a with lostCyc := satAdd 64 a.lostCyc k } else s1
    (((s2.refund (r.charge - k)).dropResv d.id n).dropHost n d.id).releaseReads r.reads

/-- The shadow tiles of a run. -/
def Run.shadows (r : Run) : List Shadow := match r.work with | some w => w.shadows | none => []

/-- A run stops without a flip: its shadow tiles become FREE (05 R126). -/
def State.stopRun (s : State) (n k : Nat) (lost : Bool) : State :=
  match s.running n with
  | none => s
  | some (r, _) => (s.freeShadows r.shadows).leaveRun n k lost

/-- What follows when commands end or homes change: freed objects go, waiting moves start, `MOVE`s settle (10 R301, R318,
R321). -/
def State.tidy (s : State) : State := s.reapAll.tryWants.settleMoves

/-- The runs of a pair that are over. -/
def RepeatPair.runsDone (m : RepeatPair) : Bool :=
  (match m.run2 with | some r => r.done | none => true) && (match m.run3 with | some r => r.done | none => true)

/-- The cycles of a pair's last run. -/
def RepeatPair.lastCycles (m : RepeatPair) : Nat :=
  match m.run3 with
  | some r => r.cycles
  | none => (match m.run2 with | some r => r.cycles | none => 0)

/-- The phase to which a command returns: a resolved one stays ready (09 R257). -/
def Cmd.backPhase (d : Cmd) : Phase := match d.res with | some _ => .ready | none => .unissued

/-- A command returns to the head of its channel or launch (05 R130; 02 R34). -/
def State.sendBack (s : State) (d : Cmd) : State := s.setCmd { d with phase := d.backPhase, accTick := s.tickN }

/-- Note the cluster on which a command ran (04 R111). -/
def State.noteClu (s : State) (id n : Nat) : State := s.setExtra { s.extra id with lastClu := n }

/-- Note the last of the clusters on which a command has run, if there is one (04 R111). -/
def State.noteRan (s : State) (id : Nat) (cs : List Nat) : State :=
  match cs.getLast? with | some n => s.noteClu id n | none => s

/-! ## Repeat pairs (14 R425 to R430) -/

/-- The clusters of a command's pair. -/
def RepeatPair.clus (m : RepeatPair) : List Nat :=
  (match m.run2 with | some r => [r.clu] | none => []) ++ (match m.run3 with | some r => [r.clu] | none => [])

/-- The cluster of a pair's last run. -/
def RepeatPair.lastClu (m : RepeatPair) : Nat :=
  match m.run3 with
  | some r => r.clu
  | none => (match m.run2 with | some r => r.clu | none => m.first)

/-- A command has an admitted repeat pair. -/
def Cmd.paired (d : Cmd) : Bool := match d.more with | some m => !m.clus.isEmpty | none => false

/-- Put the result of one run of a pair on its cluster. -/
def RepeatPair.put (m : RepeatPair) (n : Nat) (f : PairRun → PairRun) : RepeatPair :=
  { m with run2 := m.run2.map (fun r => if r.clu = n then f r else r),
           run3 := m.run3.map (fun r => if r.clu = n then f r else r) }

/-- Take an unstarted command off a cluster's queue; its charge returns to the allowance (05 R138). -/
def State.unqueue (s : State) (n id : Nat) : State :=
  let c := s.clu n
  let k := ((c.queue.filter (fun q => q.1 == id)).map Prod.snd).foldl (· + ·) 0
  ((s.setClu n { c with queue := c.queue.filter (fun q => q.1 != id) }).refund k).dropResv id n

/-- Both runs of a pair are discarded and the command is repeat pending again; those that have started count in RERUNS (14
R430; 04 R111). -/
def State.discardPair (s : State) (d : Cmd) (lost : Bool) : State :=
  match d.more with
  | none => s
  | some m =>
    let s1 := m.clus.foldl (fun t n =>
      let t1 := t.unqueue n d.id
      match t1.running n with
      | some (r, e) => if e.id = d.id then t1.stopRun n (t1.elapsed r) lost else t1
      | none => t1) s
    let held := [m.run2, m.run3].flatMap (fun x => match x with
      | some r => (match r.work with | some w => if r.done then w.shadows else [] | none => [])
      | none => [])
    let s2 := s1.freeShadows held
    let ran := m.clus.filter (fun n => !(s.clu n).queue.any (fun q => q.1 == d.id))
    ((s2.noteRan d.id ran).sendBack { d with reruns := d.reruns + ran.length, more := some { m with run2 := none, run3 := none, view := [] } }).releaseReads (m.view.map (fun v => v.2.2))

/-- The trigger of a run (14 R425, R426): it stops, and its command becomes repeat pending; in a pair its result is kept. -/
def State.trigger (s : State) (n cause : Nat) : State :=
  match s.running n with
  | none => s
  | some (r, d) =>
    let s1 := (s.stopRun n (s.elapsed r + 1) false).noteClu d.id n
    match d.more with
    | some m =>
      if d.paired then
        s1.setCmd { d with more := some (m.put n (fun p => { p with done := true, cycles := s.elapsed r + 1, trigger := true })) }
      else s1.sendBack d
    | none =>
      let m : RepeatPair := { first := n, slot := (s.cluSlot n).getD 255, cause := cause, run2 := none, run3 := none, view := [] }
      s1.sendBack { d with more := some m }

/-- A run finds a condition and stops: the command ends, or in a pair the result is kept (05 R522, 14 R428). -/
def State.stopWith (s : State) (n status a b : Nat) : State :=
  match s.running n with
  | none => s
  | some (r, d) =>
    let s1 := s.stopRun n (s.elapsed r + 1) false
    match d.more with
    | some m =>
      if d.paired then
        s1.setCmd { d with more := some (m.put n (fun p => { p with done := true, cycles := s.elapsed r + 1, status := status, detailA := a, detailB := b })) }
      else ((s1.noteClu d.id n).endCmd d status a b false).tidy
    | none => ((s1.noteClu d.id n).endCmd d status a b false).tidy

/-- A run stops at a condition found on an operand tile, which a failed header check has poisoned (14 R421, R422). -/
def State.stopFound (s : State) (n : Nat) (d : Cmd) (x : Nat × Nat × Nat) : State :=
  (if x.1 = stPoisoned then s.poisonIfBad d x.2.1 x.2.2 else s).stopWith n x.1 x.2.1 x.2.2

/-! ## Deferral (02 R34, R38) -/

/-- An admitted command that has not started is deferred; with it the other run of a pair. -/
def State.defer (s : State) (n id : Nat) : State :=
  match s.cmd? id with
  | none => s.unqueue n id
  | some d =>
    let c := s.clu n
    let s1 := s.setClu n { c with deferrals := satAdd 16 c.deferrals 1 }
    if d.paired then s1.discardPair d false else (s1.unqueue n id).sendBack d

/-- Every unstarted command of a cluster is deferred. -/
def State.deferAll (s : State) (n : Nat) : State := ((s.clu n).queue.map Prod.fst).foldl (fun t id => t.defer n id) s

/-! ## Kills (02 R37, R39; 05 R130, R131) -/

/-- The running command of a cluster is killed with `ST_OVERRUN` (02 R37, R39). A run of a pair that is within its budget is
discarded as a deferral (14 R430). -/
def State.overrun (s : State) (n : Nat) : State :=
  match s.running n with
  | none => s
  | some (r, d) =>
    let k := s.elapsed r
    if d.paired ∧ k ≤ r.budget then
      let c := s.clu n
      (s.setClu n { c with deferrals := satAdd 16 c.deferrals 1 }).discardPair d false
    else
      let c := s.clu n
      let s0 := s.setClu n { c with overruns := satAdd 16 c.overruns 1 }
      let s1 := if d.paired then s0.discardPair d true else s0.stopRun n k true
      let e := (s1.cmd? d.id).getD d
      (((s1.noteClu d.id n).endCmd e stOverrun r.budget k false).raise .gfe 0 0x110 1).tidy

/-- A pair whose runs are over and that has not flipped ends with `ST_OVERRUN` (02 R37) (DEDUCED, log entry 10). -/
def State.overrunPair (s : State) (id : Nat) : State :=
  match s.cmd? id with
  | none => s
  | some d =>
    match d.more with
    | none => s
    | some m =>
      if !d.paired || !m.runsDone then s
      else
        let c := s.clu m.lastClu
        let s1 := (s.setClu m.lastClu { c with overruns := satAdd 16 c.overruns 1 }).discardPair d true
        (((s1.noteClu d.id m.lastClu).endCmd ((s1.cmd? d.id).getD d) stOverrun (slotBudget d.slot) m.lastCycles false).raise
          .gfe 0 0x110 1).tidy

/-- The running command of a cluster is killed by pre-emption: it returns to its channel, or ends with `ST_KILLED` once it
has been killed KILL_LIMIT times (05 R130, R131). `space` says that R136 took it (DEDUCED, log entry 51). -/
def State.preempt (s : State) (n : Nat) (space : Bool) : State :=
  match s.running n with
  | none => s
  | some (r, d) =>
    let a := s.acct d.chan
    let c := s.clu n
    let s0 := (s.setAcct d.chan { a with preempts := satAdd 32 a.preempts 1 }).setClu n
      { c with timeKills := if space then c.timeKills else satAdd 16 c.timeKills 1,
               spaceKills := if space then satAdd 16 c.spaceKills 1 else c.spaceKills }
    if s.fld .gfe 0 0x368 15 8 ≤ d.kills then
      let s1 := if d.paired then s0.discardPair d true else s0.stopRun n (s0.elapsed r) true
      ((s1.noteClu d.id n).endCmd ((s1.cmd? d.id).getD d) stKilled 0 0 false).tidy
    else if d.paired then s0.discardPair { d with kills := d.kills + 1 } true
    else ((s0.stopRun n (s0.elapsed r) true).noteClu d.id n).sendBack { d with kills := d.kills + 1, reruns := d.reruns + 1 }

/-! ## Start (02 R34) -/

/-- Capture the generator state for a command that uses SR, at its first run (06 R169). -/
def State.captureSr (s : State) (d : Cmd) (n : Nat) : State :=
  let x := s.extra d.id
  if usesSr d.slot ∧ x.sr.isNone = true then
    let key := s.regGet .clu n 0x060 + s.regGet .clu n 0x064 * 2 ^ 32
    let ctr := s.regGet .clu n 0x068 + s.regGet .clu n 0x06C * 2 ^ 32
    let s1 := s.setExtra { x with sr := some (BitVec.ofNat 64 key), aux := [ctr] }
    s1.regPut .clu n 0x06C (s.regGet .clu n 0x06C + 1)
  else s

/-- The captured key and counter of a command (06 R169). -/
def State.srState (s : State) (d : Cmd) : Nat × Nat :=
  match (s.extra d.id).sr with
  | some k => (k.toNat, listGet 0 (s.extra d.id).aux 0)
  | none => (0, 0)

/-- Take the SCALE_SEQ of each two-level object that a command writes, at its first run (06 R156). -/
def State.takeSeqs (s : State) (d : Cmd) : State :=
  if !(s.extra d.id).seqs.isEmpty || slotOp d.slot == 0x30 then s
  else (outputHandles d.slot).eraseDups.foldl (fun t h => match t.obj? h with
    | some o => if isTwoLevel o.fmt then
        let q := (o.seq + 1) % 65536
        (t.setObj h { o with seq := q }).setExtra { t.extra d.id with seqs := (h, q) :: (t.extra d.id).seqs }
      else t
    | none => t) s

/-- The SCALE_SEQ that a command writes into an object. -/
def State.seqOf (s : State) (d : Cmd) (h : Nat) : Nat :=
  match (s.extra d.id).seqs.find? (fun x => x.1 == h) with | some x => x.2 | none => 0

/-- The objects that a command's operands name, with the scale, state and pool objects that belong to them. -/
def State.namedObjs (s : State) (d : Cmd) : List Nat :=
  let hs := (handleFields d.slot).map (fun o => op32 d.slot o)
  (hs ++ hs.flatMap (fun h => match s.obj? h with
    | some o => [o.scaleObj] ++ (match o.table with | some (t, _) => [t.state, t.pool] | none => [])
    | none => [])).eraseDups

/-- The homes that a pair's runs read, as they stand at its earlier start (14 R427); a tile of the cellar is read from where its
fetch brings it (01 R20). -/
def State.viewOf (s : State) (d : Cmd) : List (Nat × Nat × Nat) :=
  (s.namedObjs d).flatMap (fun h => match s.obj? h with
    | some o => (o.map.filter (fun m => tierOf m.2 != 3)).map (fun m => (h, m.1, m.2))
    | none => [])

/-- The cycle from which a cluster's next run can start: this one, or the next if this is its last run's last (02 R36)
(DEDUCED, log entry 39). -/
def State.startAt (s : State) (n : Nat) : Nat := max s.clk.now (s.clu n).freeAt

/-- A cluster starts its next admitted command (02 R34). The budget of a fold is its charge on the cluster (09 R280). -/
def State.startRun (s : State) (n : Nat) (d : Cmd) (charge : Nat) : State :=
  let c := s.clu n
  let r : Run := { cmd := d.id, startNow := s.startAt n, budget := (if slotOp d.slot = foldOp then charge else slotBudget d.slot), charge := charge, reads := [], prepared := false, checks := [], passed := [], skipped := 0, work := none, due := 0,
                   commitAt := none }
  let e := match d.more with
    | some m => if d.paired ∧ m.view.isEmpty = true then { d with more := some { m with view := s.viewOf d } } else d
    | none => d
  let s1 := (s.setClu n { c with queue := c.queue.drop 1, run := some r }).setCmd { e with phase := .running n }
  (s1.captureSr e n).takeSeqs e

/-- `COMMAND_START`: the next admitted command of a cluster starts, or is deferred by the start check (02 R34). -/
def execCommandStart (clu : Nat) (s : State) : Host.Outcome State Fault Refusal :=
  done (
    let c := s.clu clu
    match c.queue with
    | [] => s
    | (id, charge) :: _ =>
      if !s.on || c.run.isSome || decide (s.G ≤ s.clk.cyc) then s
      else if s.limitAt clu < s.clk.cyc + (s.startAt clu - s.clk.now) + charge then s.defer clu id
      else match s.cmd? id with
        | none => s.unqueue clu id
        | some d => s.startRun clu d charge)

/-! ## Device work -/

/-- Of the operand tiles of a run, with their scale tiles, those that are in the cellar: the run waits for their fetch (01 R20; 10
R287). -/
def State.farTiles (s : State) (ts : List (Nat × Nat)) : List (Nat × Nat) := (s.withScales ts).filter s.inCellar

/-- The frames of a list of tiles as a command sees them. -/
def State.framesOf (s : State) (d : Cmd) (ts : List (Nat × Nat)) : List Nat := ts.filterMap (fun t => s.srcFrame d t.1 t.2)

/-- An engine reads whole tiles for a command: heat and bytes moved (05 R140, 10 R308). -/
def State.readTiles (s : State) (d : Cmd) (n : Nat) (ts : List (Nat × Nat)) : State :=
  (s.framesOf d ts).foldl (fun t f => t.engineRead d.chan n f 4096) s

/-- Bytes that a read of a row of `b` bytes moves out of a tier: whole sectors of the attic, whole bursts of the store room (01
R22; 07 R196, R204). -/
def rowMoved (tier b : Nat) : Nat :=
  match tier with
  | 1 => 32 * ceilDiv b 32
  | 2 => 64 * ceilDiv b 64
  | _ => b

/-- An engine reads rows of `b` bytes at their places for a command, each for itself (05 R140; 10 R308). -/
def State.readRows (s : State) (d : Cmd) (n b : Nat) (rows : List (Nat × Nat × Nat)) : State :=
  rows.foldl (fun t p => match t.srcFrame d p.1 p.2.1 with
    | some f => t.engineRead d.chan n f (rowMoved (tierOf f) b)
    | none => t) s

/-- The engine has taken a run's operands: the checks that it will make, and its device work if that is all done. -/
def State.prepare (s : State) (n : Nat) (r : Run) (reads : List Nat) (checks : List Check) (work : Option RunWork) (due : Nat) :
    State :=
  s.setRun n { r with prepared := true, reads := reads, checks := checks, work := work, due := due }

/-- No output. -/
def RunWork.empty : RunWork := ⟨[], [], [], [], [], [], [], stOk, 0, 0⟩

/-- Put the output tiles of a run into shadow tiles, and note its device work; a run whose shadow tiles find no frame
ends with `ST_NO_RESOURCE` (05 R123; DEDUCED, log entry 20). -/
def State.finishWork (s : State) (n : Nat) (d : Cmd) (outs : List OutTile) (w : RunWork) : State :=
  match (s.dropResv d.id n).placeOut d n outs with
  | none => s.stopWith n stNoResource 0x0201 0
  | some (hs, s1) =>
    match (s1.clu n).run with
    | some r => s1.setRun n { r with work := some { w with shadows := hs } }
    | none => s1

/-- An armed injection of a register is consumed: ARM clears and INJECTED is set (07 R206, 08 R239, 09 R281). -/
def State.consume (s : State) (n reg status : Nat) : State :=
  (s.fldPut .clu n reg 31 31 0).raise .clu n status 3

end Sys2Proof.Machine
end

