-- ==== Sys2Proof/Machine/Streams.lean ====
section
/-! DEFINITION. The stream engine (11): `STREAM_ARM` and `STREAM_REARM`, the issue and completion of transfers, fills and
their commits, faults, and `STR_CTRL_DISARM`. -/

namespace Sys2Proof.Machine

/-! ## The operand layouts (11 R349, R352) -/

def armIx (b : List Byte) : Nat := opBits b 16 1 5 0
def armTarget (b : List Byte) : Nat := opBits b 17 1 5 0
def armXform (b : List Byte) : Nat := opBits b 18 1 1 0
def armConv (b : List Byte) : Bool := (leField b 18 1).testBit 2
def armPersist (b : List Byte) : Bool := (leField b 18 1).testBit 3
def armRnd (b : List Byte) : Nat := opBits b 18 1 5 4
def armSat (b : List Byte) : Bool := (leField b 18 1).testBit 6
def armDstFmt (b : List Byte) : Nat := opBits b 19 1 4 0
def armPin (b : List Byte) : Nat := if (leField b 19 1).testBit 5 then 64 else 512
def armPout (b : List Byte) : Nat := if (leField b 19 1).testBit 6 then 64 else 512
def armDst (b : List Byte) : Nat := op32 b 24
def armDstTile (b : List Byte) : Nat := opBits b 36 4 23 0
def armSlotTiles (b : List Byte) : Nat := opBits b 40 2 12 0
def armSlots (b : List Byte) : Nat := opBits b 42 1 3 0
def armCredits (b : List Byte) : Nat := leField b 43 1
def armPeriod (b : List Byte) : Nat := opBits b 52 4 19 0
def armScaleSlot (b : List Byte) : Nat := opBits b 52 4 29 20

/-- R or K of REPANEL and SWAP: coded in sixteenths, 0 for 4,096 (11 R349). -/
def armDim (b : List Byte) (o : Nat) : Nat := 16 * (if leField b o 1 = 0 then 256 else leField b o 1)

/-- The range of a `STREAM_ARM`. -/
def armRange (b : List Byte) : StrRange :=
  { src := op32 b 20, tile := opBits b 28 4 23 0, step := opBits b 32 4 23 0, fills := leField b 58 2 }

/-- The range of a `STREAM_REARM` NEXT; SRC 0 keeps the current source (11 R352). -/
def rearmRange (b : List Byte) (cur : StrRange) : StrRange :=
  { src := if op32 b 20 = 0 then cur.src else op32 b 20, tile := opBits b 24 4 23 0, step := opBits b 28 4 23 0,
    fills := leField b 32 2 }

/-- A `STREAM_REARM` names DISARM. -/
def rearmDisarm (b : List Byte) : Bool := (leField b 18 1).testBit 0

/-! ## What a fill reads and writes (11 R343 to R345) -/

/-- The format in which a fill's elements are written: DST_FMT with CONV 1, else the source's. -/
def fillFmt (b : List Byte) (srcFmt : Nat) : Nat := if armConv b then armDstFmt b else srcFmt

/-- Elements that a tile of a source holds: those of its rows where they are packed rows of a table (06 R147, R163). -/
def Obj.perTile (o : Obj) : Nat :=
  match o.table with
  | some (t, _) => if isPackedRow o.fmt then rowsIn o.rowBytes * t.elems else elemsPerTile o.fmt
  | none => elemsPerTile o.fmt

/-- The source data tiles of one fill, of `e` elements each. -/
def fillData (b : List Byte) (e : Nat) : Nat :=
  if armXform b = 0 then
    (if armConv b then ceilDiv (armSlotTiles b * elemsPerTile (armDstFmt b)) e else armSlotTiles b)
  else ceilDiv (panelSize (armPin b) (armDim b 56) (armDim b 57)) e

/-- Rows and reduction length of the output matrix of REPANEL and SWAP (11 R344). -/
def outDims (b : List Byte) : Nat × Nat :=
  if armXform b = 2 then (armDim b 57, armDim b 56) else (armDim b 56, armDim b 57)

/-- The output data tiles of REPANEL and SWAP. -/
def outData (b : List Byte) (srcFmt : Nat) : Nat :=
  ceilDiv (panelSize (armPout b) (outDims b).1 (outDims b).2) (elemsPerTile (fillFmt b srcFmt))

/-- The first source data tile of the fill with number `j` in a range. -/
def StrRange.first (r : StrRange) (j : Nat) : Nat := r.tile + j * r.step

/-- The source tiles of a fill in issue order: its data tiles, then the scale tiles of their groups (11 R343). -/
def fillTiles (b : List Byte) (o : Obj) (r : StrRange) (j : Nat) : List (Nat × Nat) :=
  let ts := List.range' (r.first j) (fillData b o.perTile)
  withHandle r.src ts ++ (if isTwoLevel o.fmt then (ts.map (scaleTileOf r.src o)).eraseDups else [])

/-- The first DST tile of the slot of fill `j` (11 R337). -/
def slotBase (b : List Byte) (j : Nat) : Nat := armDstTile b + (j % max (armSlots b) 1) * armSlotTiles b

/-- The DST tiles of fill `j`: its slot, and for a two-level format their scale tiles in DST's scale object. -/
def fillOuts (b : List Byte) (srcFmt : Nat) (dst : Obj) (j : Nat) : List (Nat × Nat) :=
  let ts := List.range' (slotBase b j) (armSlotTiles b)
  withHandle (armDst b) ts ++
    (if isTwoLevel (fillFmt b srcFmt) && dst.scaleObj != 0 then (ts.map (scaleTileOf (armDst b) dst)).eraseDups else [])

/-! ## `STREAM_ARM` and `STREAM_REARM` at the head (11 R333, R347, R350, R353) -/

/-- The stream that a command names. -/
def State.streamOf (s : State) (b : List Byte) : Stream := s.stream (armTarget b) (armIx b)

/-- TARGET is an enabled cluster of the command's partition (11 R333). -/
def State.targetOk (s : State) (d : Cmd) : Bool :=
  (s.cluSlot (armTarget d.slot)).isSome && (s.partMask d.part).testBit (armTarget d.slot)

/-- A fill's source tiles extend beyond the source, in the last fill of a range. -/
def sourceBeyond (b : List Byte) (r : StrRange) (o : Obj) : Bool :=
  decide (o.dataTiles < r.first (r.fills - 1) + fillData b o.perTile)

/-- A field that tiles are counted by is not a multiple of a two-level object's G. -/
def unaligned (b : List Byte) (r : StrRange) (fmt : Nat) : Bool :=
  isTwoLevel fmt && [r.tile, r.step, armDstTile b, armSlotTiles b].any (fun v => v % groupSize fmt != 0)

/-- The format of DST. -/
def State.dstFmt (s : State) (b : List Byte) : Nat := match s.obj? (armDst b) with | some o => o.fmt | none => 0

/-- Without conversion the source has DST's format (11 R350). -/
def State.fmtsDiffer (s : State) (b : List Byte) (r : StrRange) : Bool :=
  match s.liveObj r.src with
  | none => false
  | some o => !armConv b && o.fmt != s.dstFmt b

/-- The conditions of 11 R350 on a range's source: no object, alignment, extent. -/
def State.sourceBad (s : State) (b : List Byte) (r : StrRange) : Bool :=
  match s.liveObj r.src with
  | none => true
  | some o => unaligned b r o.fmt || sourceBeyond b r o

/-- A rearrangement without conversion of a scaled source (11 R345, R350). -/
def State.scaledBad (s : State) (b : List Byte) (r : StrRange) : Bool :=
  match s.liveObj r.src with
  | none => false
  | some o => armXform b != 0 && !armConv b && (isSingleLevel o.fmt || isTwoLevel o.fmt || isPackedRow o.fmt)

/-- A PIN scratchpad object (11 R350). -/
def pinnedScratch (o : Obj) : Bool := o.policy == 2 && o.tier == 0

/-- The conditions of 11 R350 on DST. -/
def State.destBad (s : State) (b : List Byte) : List Nat :=
  match s.liveObj (armDst b) with
  | none => [24]
  | some o =>
    (if pinnedScratch o then [] else [24]) ++
    (if o.spread = 2 ^ armTarget b then [] else [17]) ++
    (if isTwoLevel o.fmt then (match s.liveObj o.scaleObj with
      | some so => if o.scaleObj ≠ 0 ∧ pinnedScratch so = true ∧ so.spread = 2 ^ armTarget b then [] else [24]
      | none => [24]) else []) ++
    (if unaligned b (armRange b) o.fmt then [24] else []) ++
    (if o.dataTiles < armDstTile b + armSlots b * armSlotTiles b then [24] else [])

/-- The conditions of 11 R350 on a `STREAM_ARM`, as offsets. -/
def State.armBad (s : State) (d : Cmd) : List Nat :=
  let b := d.slot
  let r := armRange b
  let srcFmt := match s.obj? r.src with | some o => o.fmt | none => 0
  (if s.targetOk d then [] else [17]) ++
  (if armXform b = 3 ∨ 2 ≤ armRnd b then [18] else []) ++
  (if s.scaledBad b r || s.fmtsDiffer b r then [18] else []) ++
  (if (armXform b = 1 ∨ armXform b = 2) ∧ outData b srcFmt ≠ armSlotTiles b then [18] else []) ++
  (if armConv b = true ∧ ¬(isPlain (armDstFmt b) = true ∨ isTwoLevel (armDstFmt b) = true) then [19] else []) ++
  (if s.sourceBad b r then [20] else []) ++ s.destBad b ++
  (if armSlotTiles b = 0 ∨ 4096 < armSlotTiles b then [40] else []) ++
  (if armSlots b = 0 then [42] else []) ++
  (if s.fenceOk (op32 b 44) = true ∧ s.fld .gfe (fenceNo (op32 b 44)) 0x294 0 0 = 1 then [] else [44]) ++
  (if s.fenceOk (op32 b 48) then [] else [48]) ++
  (if armPeriod b = 0 then [52] else []) ++
  (if r.fills = 0 then [56] else [])

/-- The conditions of 11 R350 and R353 on a `STREAM_REARM`, as offsets. -/
def State.rearmBad (s : State) (d : Cmd) : List Nat :=
  let b := d.slot
  let t := s.streamOf b
  (if s.targetOk d then [] else [17]) ++
  (if rearmDisarm b then []
   else if t.state ≠ .armed ∧ t.state ≠ .dry then [16]
   else
     let r := rearmRange b t.cur
     (if s.sourceBad t.slot r || s.scaledBad t.slot r || s.fmtsDiffer t.slot r || unaligned t.slot r (s.dstFmt t.slot) then [20]
      else []) ++ (if r.fills = 0 then [32] else []))

/-! ## State changes (11 R346) -/

/-- The transfers in flight of a descriptor. -/
def State.inFlight (s : State) (n ix : Nat) : Nat := (s.xfers.filter (fun x => x.clu == n && x.ix == ix)).length

/-- Issue stops: the shadow frames of uncommitted fills become FREE and the transfers in flight are to be discarded. -/
def State.stopStream (s : State) (n ix : Nat) : State :=
  let t := s.stream n ix
  let s1 := s.freeShadows (t.fills.flatMap StrFill.shadows)
  { s1.setStream n ix { t with fills := [] } with
    xfers := s1.xfers.map (fun x => if x.clu = n ∧ x.ix = ix then { x with fill := none } else x) }

/-- Disarm a descriptor that is ARMED, DRY or FAULTED; with nothing in flight it is IDLE at once. -/
def State.disarm (s : State) (n ix : Nat) : State :=
  let t := s.stream n ix
  if t.state = .armed ∨ t.state = .dry ∨ t.state = .faulted then
    let s1 := s.stopStream n ix
    let u := s1.stream n ix
    s1.setStream n ix { u with state := if s1.inFlight n ix = 0 then .idle else .disarming, queued := none }
  else s

/-- A descriptor faults (11 R351). -/
def State.faultStream (s : State) (n ix cause tile : Nat) : State :=
  let s1 := s.stopStream n ix
  (s1.setStream n ix { s1.stream n ix with state := .faulted, fault := (cause, tile) }).raise .clu n 0x21C 1

/-- The target cluster of descriptors leaves SERVING (11 R346, R351 cause 4). -/
def State.faultClu (s : State) (n : Nat) : State :=
  (upTo 64).foldl (fun t ix =>
    if (t.stream n ix).state = .armed ∨ (t.stream n ix).state = .dry then t.faultStream n ix 4 0 else t) s

/-- The effect of a `STREAM_ARM` in its flip cycle (11 R337, R346, R354): the state, and how the command ends. A descriptor that
has become DISARMING since the command left its head counts with the others that are not IDLE (DEDUCED, log entry 49). -/
def State.armFlip (s : State) (d : Cmd) : State × (Nat × Nat × Nat) :=
  let b := d.slot
  let t := s.streamOf b
  if t.state ≠ .idle then (s, (stNoResource, 0x0302, 0))
  else
    (s.setStream (armTarget b) (armIx b)
      { t with state := .armed, slot := b, chan := d.chan, gen := (s.chan d.chan).gen, cls := d.cls, cur := armRange b, curDone := 0, queued := none,
               landed := 0, l0 := (s.fence (fenceNo (op32 b 44))).val.toNat,
               f0 := (s.fence (fenceNo (op32 b 48))).val.toNat, lastC := 0, prevC := 0, lastCAt := s.clk.now, fills := [],
               fault := (0, 0) },
     (stOk, 0, 0))

/-- Every transfer of the current range has been issued. -/
def Stream.rangeIssued (t : Stream) : Bool :=
  decide (t.cur.fills ≤ t.curDone) && t.fills.all (fun f => decide (f.total ≤ f.issued))

/-- A queued range becomes current once the current one has been issued (11 R346). -/
def Stream.nextRange (t : Stream) : Stream :=
  match t.queued with
  | some r => if t.rangeIssued then { t with cur := r, curDone := 0, queued := none } else t
  | none => t

/-- The effect of a `STREAM_REARM` in its flip cycle (11 R346, R353, R354). -/
def State.rearmFlip (s : State) (d : Cmd) : State × (Nat × Nat × Nat) :=
  let b := d.slot
  let n := armTarget b
  let ix := armIx b
  let t := s.stream n ix
  if rearmDisarm b then (s.disarm n ix, (stOk, 0, 0))
  else match t.state with
    | .armed =>
      if t.queued.isSome then (s, (stNoResource, 0x0301, 0))
      else (s.setStream n ix (Stream.nextRange { t with queued := some (rearmRange b t.cur) }), (stOk, 0, 0))
    | .dry => (s.setStream n ix { t with state := .armed, cur := rearmRange b t.cur, curDone := 0 }, (stOk, 0, 0))
    | _ => (s, (stRange, 16, 0))

/-- The effect of a stream command in its flip cycle. -/
def State.streamFlip (s : State) (d : Cmd) : State × (Nat × Nat × Nat) :=
  if slotOp d.slot = 0x30 then s.armFlip d else s.rearmFlip d

/-- A stream command runs: it has no device work before its flip, in its 48th cycle (11 R354). -/
def State.runStreamCmd (s : State) (n op : Nat) : State :=
  match s.fresh n op with
  | none => s
  | some (r, _) => s.prepare n r [] [] (some RunWork.empty) 47

/-- `STREAM_ARM` (11 R354). -/
def execStreamArm (clu : Nat) (s : State) : Host.Outcome State Fault Refusal := done (s.runStreamCmd clu 0x30)

/-- `STREAM_REARM` (11 R354). -/
def execStreamRearm (clu : Nat) (s : State) : Host.Outcome State Fault Refusal := done (s.runStreamCmd clu 0x31)

/-! ## Issue (11 R334, R336 to R338) -/

/-- The consumed count C of a descriptor (11 R337). -/
def State.consumed (s : State) (t : Stream) : Nat := (s.fence (fenceNo (op32 t.slot 48))).val.toNat - t.f0

/-- The run-dry time D of a descriptor (11 R336). -/
def State.runDry (s : State) (t : Stream) : Nat := t.lastCAt + (t.landed - s.consumed t) * armPeriod t.slot

/-- The number of a descriptor's next fill, counted from the arm. -/
def Stream.nextFill (t : Stream) : Nat := t.landed + t.fills.length

/-- The consumed count as it stood in the cycle before (11 R337). -/
def State.consumedBefore (s : State) (t : Stream) : Nat := if t.lastCAt = s.clk.now then t.prevC else s.consumed t

/-- A new fill may issue its first transfer (11 R337). -/
def State.fillMayStart (s : State) (t : Stream) : Bool :=
  decide (t.curDone < t.cur.fills) &&
  (decide (t.nextFill < armSlots t.slot) || decide (t.nextFill - armSlots t.slot + 1 ≤ s.consumedBefore t))

/-- The formats of a stream's source and its DST object. -/
def State.streamFmts (s : State) (t : Stream) : Nat × Option Obj :=
  ((match s.obj? t.cur.src with | some o => o.fmt | none => 0), s.obj? (armDst t.slot))

/-- The shadow frames for a new fill, in the target's scratchpad under DST's class; none if there are too few (11 R338). -/
def State.fillFrames (s : State) (n : Nat) (t : Stream) : Option (List Shadow) :=
  match s.streamFmts t with
  | (fmt, some dst) =>
    let outs := fillOuts t.slot fmt dst t.nextFill
    let fs := s.framesFor 0 outs.length n dst.cls
    if fs.length < outs.length then none else some ((outs.zip fs).map (fun x => ⟨x.1.1, x.1.2, x.2⟩))
  | (_, none) => none

/-- The fill of a descriptor that has transfers still to issue. -/
def Stream.openFill (t : Stream) : Option StrFill := t.fills.find? (fun f => decide (f.issued < f.total))

/-- The source tile of a descriptor's next transfer. -/
def State.nextTile (s : State) (n ix : Nat) : Nat × Nat :=
  let t := s.stream n ix
  let r := match t.openFill with | some f => (f.range, f.inRange, f.issued) | none => (t.cur, t.curDone, 0)
  match s.obj? r.1.src with
  | some o => listGet (0, 0) (fillTiles t.slot o r.1 r.2.1) r.2.2
  | none => (0, 0)

/-- A descriptor is eligible (11 R336); a transfer from the cellar needs a queue slot (R341). -/
def State.eligible (s : State) (n ix : Nat) : Bool :=
  let t := s.stream n ix
  t.state == .armed && (armCredits t.slot == 0 || decide (s.inFlight n ix < armCredits t.slot)) &&
  (!s.inCellar (s.nextTile n ix) || decide (s.place.cellar.length < s.cellarSlots)) &&
  (t.openFill.isSome || (s.fillMayStart t && ((s.liveObj t.cur.src).isNone || (s.fillFrames n t).isSome)))

/-- The eligible descriptor of a cluster that is served next: class, run-dry time, rotation rank (11 R336). -/
def State.nextStream (s : State) (n : Nat) : Option Nat :=
  let cs := ((upTo 64).filter (s.eligible n)).map (fun ix =>
    (((s.stream n ix).cls, s.runDry (s.stream n ix), s.rank ix 64), ix))
  match cs with
  | [] => none
  | c :: r => some (r.foldl (fun b x => if before3 x.1 b.1 then x else b) c).2

/-- A descriptor begins a fill: its shadow frames are reserved, and its SCALE_SEQ and T are taken (11 R338, R345). -/
def State.beginFill (s : State) (n ix : Nat) (o : Obj) (hs : List Shadow) : State :=
  let t := s.stream n ix
  let h := armDst t.slot
  match s.obj? h with
  | none => s
  | some dst =>
    let conv2 : Bool := armConv t.slot && isTwoLevel (armDstFmt t.slot)
    let q := if conv2 then (dst.seq + 1) % 65536 else 0
    let s1 := hs.foldl (fun u x => u.takeShadow x.fid x.obj x.tile dst.cls) s
    let s2 := if conv2 then s1.setObj h { dst with seq := q } else s1
    let f : StrFill :=
      { num := t.nextFill, inRange := t.curDone, shadows := hs, issued := 0,
        total := (fillTiles t.slot o t.cur t.curDone).length, got := [], range := t.cur, seq := q,
        slotT := s.slotT (armScaleSlot t.slot), startAt := s.clk.now, latency := 0, redone := false }
    s2.setStream n ix { t with fills := t.fills ++ [f], curDone := t.curDone + 1 }

/-- A cluster's stream engine issues a transfer in this cycle (11 R334). -/
def State.noteIssue (s : State) (n : Nat) : State := s.setClu n { s.clu n with streamAt := s.clk.now + 1 }

/-- A cluster's stream engine has issued a transfer in this cycle (11 R334). -/
def State.issuedNow (s : State) (n : Nat) : Bool := (s.clu n).streamAt == s.clk.now + 1

/-- A transfer from the cellar takes a queue slot, which it holds throughout, and has its tile moved to the attic (11 R341). -/
def State.issueFar (s : State) (t : Stream) (x : Nat × Nat) (g : Nat) : State :=
  let o := (t.cls, 2 ^ 64, t.chan)
  ({ s with place := { s.place with cellar := s.place.cellar ++ [⟨x.1, x.2, g, false, o⟩] } } : State).wantFetch x.1 x.2 o

/-- Issue the next transfer of a descriptor's open fill. A tile in the cellar is first moved to the attic (11 R341). -/
def State.issueXfer (s : State) (n ix : Nat) (o : Obj) : State :=
  let t := s.stream n ix
  match t.openFill with
  | none => s
  | some f =>
    let x := listGet (0, 0) (fillTiles t.slot o f.range f.inRange) f.issued
    match s.homeOf x.1 x.2 with
    | none => s.faultStream n ix 3 x.2
    | some g =>
      let far : Bool := tierOf g == 3 && (s.frame g).state != .poisoned
      let t1 := { t with fills := t.fills.map (fun e : StrFill => if e.num = f.num then { e with issued := e.issued + 1 } else e) }
      let s1 := s.setStream n ix t1.nextRange
      let s2 := { s1.noteIssue n with xfers := s1.xfers ++ [⟨n, ix, some f.num, x.1, x.2, if far then 0 else g, s.clk.now, 0⟩] }
      if far then s2.issueFar t x g else s2

/-- The stream engine of a cluster issues one transfer (11 R334, R336). A descriptor whose SRC has been freed faults (11
R348). -/
def State.streamIssue (s : State) (n : Nat) : State :=
  if !s.on || s.sup.stopping || s.issuedNow n || decide (256 ≤ (s.xfers.filter (fun x => x.clu == n)).length) then s else
  match s.nextStream n with
  | none => s
  | some ix =>
    let t := s.stream n ix
    let src := match t.openFill with | some f => f.range.src | none => t.cur.src
    match s.liveObj src with
    | none => s.faultStream n ix 3 ((match t.openFill with | some f => f.range.first f.inRange | none => t.cur.first t.curDone) % 2 ^ 24)
    | some o =>
      match t.openFill with
      | some _ => s.issueXfer n ix o
      | none =>
        match s.fillFrames n t with
        | none => s
        | some hs => (s.beginFill n ix o hs).issueXfer n ix o

/-! ## The transform unit (11 R342 to R345) -/

/-- A source tile that a fill has read. -/
def StrFill.tile (f : StrFill) (h t : Nat) : SrcTile :=
  match f.got.find? (fun g => g.obj == h && g.tile == t) with
  | some g => g
  | none => ⟨h, t, [], 0, scaleOne⟩

/-- The code of source element `a`, counted from the fill's first source tile. -/
def StrFill.code (f : StrFill) (fmt a : Nat) : Nat :=
  let p := elemPlace fmt (f.range.first f.inRange) a
  elemRaw (elemBits fmt) (f.tile f.range.src p.1).bytes p.2

/-- The value of source element `a` of a table of packed rows of `n` elements (06 R163, R172). -/
def StrFill.rowValue (f : StrFill) (o : Obj) (n a : Nat) : FV :=
  let row := a / max n 1
  let k := rowsIn o.rowBytes
  let bs := (f.tile f.range.src (f.range.first f.inRange + row / k)).bytes
  listGet FV.zero (decodeRow o.fmt n ((bs.drop (row % k * o.rowBytes)).take o.rowBytes)) (a % max n 1)

/-- The value of source element `a` (06 R148, R154, R172). A source whose format has no element values yields free values
(DESIGN CHOICE, log entry 42). -/
def StrFill.value (f : StrFill) (o : Obj) (free a : Nat) : FV :=
  let p := elemPlace o.fmt (f.range.first f.inRange) a
  let g := f.tile f.range.src p.1
  let raw := f.code o.fmt a
  if isTwoLevel o.fmt then
    let st := scaleTileOf f.range.src o p.1
    decodeTwo o.fmt raw (listGet 0 (f.tile st.1 st.2).bytes (scaleByteAt o p.1 (p.2 / 16))).toNat (fp32 g.scale)
  else if isSingleLevel o.fmt then f32 (FV.mul (decodeElem o.fmt raw) (fp32 g.scale))
  else if isPlain o.fmt then f32 (decodeElem o.fmt raw)
  else match o.table with
    | some (t, _) => if isPackedRow o.fmt then f.rowValue o t.elems a else fp32 ((Config.freeValue (free + a)).toNat % 2 ^ 32)
    | none => fp32 ((Config.freeValue (free + a)).toNat % 2 ^ 32)

/-- The source element that output position `p` of the panel layout takes, none for padding (11 R344). -/
def panelSource (b : List Byte) (p : Nat) : Option Nat :=
  let h := armPout b
  let m := outDims b
  let kc := ceilDiv m.2 16
  let q := p / (h * 16)
  let r := (q / kc) * h + (p % (h * 16)) / 16
  let k := (q % kc) * 16 + p % 16
  if m.1 ≤ r ∨ m.2 ≤ k then none
  else if armXform b = 2 then some (panelIndex (armPin b) (armDim b 57) k r)
  else some (panelIndex (armPin b) (armDim b 57) r k)

/-- The source element of output element `p` of a fill. -/
def fillSource (b : List Byte) (p : Nat) : Option Nat := if armXform b = 0 then some p else panelSource b p

/-- The bytes of a fill's output tiles without conversion by copying (11 R343): data tiles, and scale tiles by their group. -/
def StrFill.copyOut (f : StrFill) (b : List Byte) (o dst : Obj) (h tile : Nat) : OutTile :=
  let base := slotBase b f.num
  if h = armDst b then
    let g := f.tile f.range.src (f.range.first f.inRange + (tile - base))
    ⟨h, tile, g.bytes, g.seq, g.scale⟩
  else
    let st := scaleTileOf f.range.src o (f.range.first f.inRange + (tile * groupSize dst.fmt - base))
    let g := f.tile st.1 st.2
    ⟨h, tile, g.bytes, g.seq, g.scale⟩

/-- A data tile of a fill that rearranges without conversion (11 R344). -/
def StrFill.panelOut (f : StrFill) (b : List Byte) (fmt tile : Nat) : OutTile :=
  let n := elemsPerTile fmt
  let k := tile - slotBase b f.num
  ⟨armDst b, tile, packElems (elemBits fmt) ((upTo n).map (fun e => match fillSource b (k * n + e) with
    | some a => f.code fmt a | none => 0)), 0, scaleOne⟩

/-- The value of output element `p` of a converting fill. -/
def StrFill.outValue (f : StrFill) (b : List Byte) (o : Obj) (free p : Nat) : FV :=
  match fillSource b p with | some a => f.value o free a | none => FV.zero

/-- A sub-block of a converting fill's output in a two-level format: scale byte and codes. -/
def StrFill.outBlock (f : StrFill) (b : List Byte) (o : Obj) (free first : Nat) : Nat × List Nat :=
  quantBlock (armDstFmt b) (fp32 f.slotT) ((upTo 16).map (fun e => (f.outValue b o free (first + e), rndOf (armRnd b) 0)))

/-- A tile of a converting fill (11 R345). Every single-level format is narrow, INT8 and INT4 too (06 R154, R162) (DEDUCED, log
entry 42). -/
def StrFill.convOut (f : StrFill) (b : List Byte) (o : Obj) (free h tile : Nat) : OutTile :=
  let fmt := armDstFmt b
  let n := elemsPerTile fmt
  let base := slotBase b f.num
  if isTwoLevel fmt then
    if h = armDst b then
      ⟨h, tile, packElems (elemBits fmt) ((upTo (n / 16)).flatMap (fun j => (f.outBlock b o free ((tile - base) * n + 16 * j)).2)),
        f.seq, f.slotT⟩
    else
      ⟨h, tile, (upTo (groupSize fmt)).flatMap (fun g =>
        let t := tile * groupSize fmt + g
        (upTo (n / 16)).map (fun j =>
          if base ≤ t ∧ t < base + armSlotTiles b then BitVec.ofNat 8 (f.outBlock b o free ((t - base) * n + 16 * j)).1
          else 0)), f.seq, scaleOne⟩
  else
    let put := fun v => convert fmt (rndOf (armRnd b) 0) (armSat b) (if isSingleLevel fmt then f32 (FV.div v (fp32 f.slotT)) else v)
    ⟨h, tile, packElems (elemBits fmt) ((upTo n).map (fun e => put (f.outValue b o free ((tile - base) * n + e)))), 0,
      if isSingleLevel fmt then f.slotT else scaleOne⟩

/-- One output tile of a fill. -/
def StrFill.outTile (f : StrFill) (b : List Byte) (o dst : Obj) (free : Nat) (x : Nat × Nat) : OutTile :=
  if armConv b then f.convOut b o free x.1 x.2
  else if armXform b = 0 then f.copyOut b o dst x.1 x.2
  else f.panelOut b o.fmt x.2

/-! ## Completion (11 R338, R342) -/

/-- Cycles before the first result of a fill by the tier of its source (11 R342). -/
def firstLatency (tier : Nat) : Nat := match tier with | 0 => 60 | 2 => 650 | _ => 390

/-- F for a transfer that reads frame `g`: the cellar read time comes before that of the attic (11 R342). -/
def Xfer.latency (x : Xfer) (g : Nat) : Nat := if x.fid = 0 then x.readTime + firstLatency 1 else firstLatency (tierOf g)

/-- The commit time of the last fill of a cluster's engine. -/
def State.lastCommit (s : State) (n : Nat) : Nat := ((upTo 64).map (fun ix => (s.stream n ix).landedAt)).foldl max 0

/-- A fill may commit now: the bounds of 11 R342 (DEDUCED, log entry 49). -/
def State.mayCommit (s : State) (n : Nat) (f : StrFill) : Bool :=
  decide (f.startAt + f.latency + 8 * f.total + 16 ≤ s.clk.now) &&
  (s.lastCommit n == 0 || decide (s.lastCommit n + 8 * f.total ≤ s.clk.now))

/-- Write a fill's results into its shadow frames. -/
def State.writeFill (s : State) (b : List Byte) (f : StrFill) : State :=
  match s.obj? f.range.src, s.obj? (armDst b) with
  | some o, some dst =>
    let s1 := f.shadows.foldl (fun t h =>
      let x := f.outTile b o dst s.freeCtr (h.obj, h.tile)
      t.writeFrame h.fid x.bytes (if h.obj = armDst b then fillFmt b o.fmt else 0x02) h.tile x.seq x.scale) s
    if armConv b && !isPlain o.fmt && !isTwoLevel o.fmt then { s1 with freeCtr := s1.freeCtr + f.total * 4096 } else s1
  | _, _ => s

/-- A fill commits: its frames become homes and LAND takes 1; the end of a range makes the descriptor DRY or IDLE (11 R338,
R346). -/
def State.commitFill (s : State) (n ix : Nat) (f : StrFill) : State :=
  let t := s.stream n ix
  let b := t.slot
  let late : Bool := decide (s.runDry t < s.clk.now)
  let s1 := (s.writeFill b f).flipAll f.shadows
  let t1 := { t with fills := t.fills.filter (fun e => e.num != f.num), landed := t.landed + 1, landedAt := s.clk.now }
  let spent : Bool := t1.fills.isEmpty && decide (t1.cur.fills ≤ t1.curDone) && t1.queued.isNone
  let s2 := s1.setStream n ix { t1 with state := if spent then (if armPersist b then .dry else .idle) else t1.state }
  let s3 := if late then s2.raise .clu n 0x21C 3 else s2
  let s4 := if spent && armPersist b then s3.raise .clu n 0x21C 2 else s3
  let land := op32 b 44
  if s4.fenceOk land then s4.setFenceVal (fenceNo land) ((s4.fence (fenceNo land)).val.toNat + 1) else s4

/-- The moves of a tile whose transfer of the cellar has not landed: none or one. -/
def State.farMoves (s : State) (h tile : Nat) : Nat :=
  (s.place.moves.filter (fun m => m.obj == h && m.tile == tile && !m.landed)).length

/-- The oldest transfer of a cluster's engine leaves it; its credit and its queue slot return, and a DISARMING descriptor with none left is
IDLE (11 R334, R346). -/
def State.dropXfer (s : State) (n : Nat) : State :=
  match takeFirst (fun x : Xfer => x.clu == n) s.xfers with
  | none => s
  | some (x, rest) =>
    let s0 := State.releaseReads { s with xfers := rest } [x.fid]
    let s1 := if x.fid = 0 then s0.keepSlots x.obj x.tile (s0.slotHolders x.obj x.tile + s0.farMoves x.obj x.tile) else s0
    if (s1.stream n x.ix).state = .disarming ∧ s1.inFlight n x.ix = 0 then
      s1.setStream n x.ix { s1.stream n x.ix with state := .idle }
    else s1

/-- The charge of one source tile (11 R355): none once the channel is DESTROYED, created again or not. -/
def State.chargeXfer (s : State) (c : Nat) (gen : BitVec 20) (n f : Nat) : State :=
  if (s.chan c).state = .destroyed ∨ (s.chan c).gen ≠ gen then s.touch f else ((s.engineRead c n f 4096).chargeCyc c 4 8).noteXfer c 8

/-- A pair of a data tile and its group's scale tile whose SCALE_SEQs differ among the tiles read (11 R341, 06 R158). -/
def StrFill.skew (f : StrFill) (o : Obj) : Option Nat :=
  if isTwoLevel o.fmt then
    (f.got.find? (fun g => g.obj == f.range.src && decide (g.tile < o.dataTiles) &&
      (let st := scaleTileOf f.range.src o g.tile
       f.got.any (fun h => h.obj == st.1 && h.tile == st.2 && h.seq != g.seq)))).map SrcTile.tile
  else none

/-- A transfer reads its tile: it may fault the descriptor, complete a fill, or only add to one (11 R338, R341, R351). -/
def State.readXfer (s : State) (x : Xfer) (num g : Nat) (bad : Option PoisonCause) : State :=
  let t := s.stream x.clu x.ix
  match t.fills.find? (fun f => f.num == num) with
  | none => s.dropXfer x.clu
  | some f =>
    let isHome : Bool := (s.frame g).state == .home
    let fault := match bad with
      | some c => some c
      | none => if isHome then s.headFault g x.obj x.tile else none
    if (s.frame g).state = .poisoned then (s.faultStream x.clu x.ix 1 (x.tile % 2 ^ 24)).dropXfer x.clu
    else match fault with
      | some c =>
        ((if isHome then s.poisonFrame g c else s).faultStream x.clu x.ix 1 (x.tile % 2 ^ 24)).dropXfer x.clu
      | none =>
        let e := { f with got := f.got ++ [⟨x.obj, x.tile, s.data g, s.scaleSeq g, s.tileScale g⟩],
                          latency := max f.latency (x.latency g) }
        let s1 := (s.chargeXfer t.chan t.gen x.clu g).setStream x.clu x.ix
          { t with fills := t.fills.map (fun y => if y.num = num then e else y) }
        let skew := match s.obj? f.range.src with | some o => e.skew o | none => none
        match skew with
        | some k => (s1.faultStream x.clu x.ix 2 (k % 2 ^ 24)).dropXfer x.clu
        | none =>
          if e.got.length < e.total then s1.dropXfer x.clu
          else if s.mayCommit x.clu e then ((s1.dropXfer x.clu).commitFill x.clu x.ix e).tidy
          else s

/-! ## `STR_CTRL_DISARM` -/

/-- `STR_CTRL_DISARM`: a write of `STR_CTRL.DISARM` disarms the descriptor that the accessor has selected in a cluster's
window (11 R346, R356). -/
def execStrCtrlDisarm (a : Acc) (clu : Nat) (s : State) : Host.Outcome State Fault Refusal :=
  done (if !s.served then s else s.disarm clu (s.fld .clu (accNum a * 64 + clu) 0x200 5 0))

end Sys2Proof.Machine
end

