-- ==== Sys2Proof/Machine/HostCmds.lean ====
section
/-! DEFINITION. `HOST_WRITE` and `HOST_READ` (12 R383 to R392), the commit phase of a host-writing command (04 R110; 05
R125), flush reads and line reads as they return, and the posted-write buffer. -/

namespace Sys2Proof.Machine

/-! ## Operands (12 R383, R384, R388, R389) -/

def hostAddr (b : List Byte) : Nat := leField b 16 8
/-- The first byte in the object. -/
def hostOff (b : List Byte) : Nat := opBits b 28 4 23 0 * 4096 + opBits b 32 4 11 0
def hostLen (b : List Byte) : Nat := opBits b 36 4 20 0
def hostShared (b : List Byte) : Bool := (leField b 36 4).testBit 21
/-- The tiles that a byte range of an object touches. -/
def rangeTiles (off n : Nat) : List Nat := if n = 0 then [] else List.range' (off / 4096) ((off + n - 1) / 4096 + 1 - off / 4096)

/-- LENGTH is out of its range. -/
def hostLenBad (b : List Byte) : Bool := hostLen b == 0 || decide (1048576 < hostLen b)

/-- The conditions of 12 R384, as offsets. A `HOST_WRITE` of a FABRIC channel reads HOST_ADDR as a cookie (13 R410). -/
def State.hostWriteBad (s : State) (d : Cmd) : List Nat :=
  let b := d.slot
  (match s.operand (op32 b 24) with
   | none => [24]
   | some o => if o.tiles * 4096 < hostOff b + hostLen b then [24] else []) ++
  (if hostLenBad b then [36] else []) ++
  (if (s.chan d.chan).kind = .host ∧ 2 ^ 64 < hostAddr b + hostLen b then [16] else [])

/-- An object is a table, or the STATE, POOL or SHARD of a live one. -/
def State.tableObj (s : State) (h : Nat) (o : Obj) : Bool :=
  o.table.isSome || s.objs.any (fun x => !x.2.freed && (match x.2.table with
    | some (t, _) => t.state == h || t.pool == h || t.shard == h
    | none => false) && h != 0)

/-- The conditions of 12 R389, as offsets; a FABRIC channel has no `HOST_READ` (13 R410). -/
def State.hostReadBad (s : State) (d : Cmd) : List Nat :=
  let b := d.slot
  let h := op32 b 24
  (if (s.chan d.chan).kind = .fabric then [0] else []) ++
  (match s.liveObj h with
   | none => [24]
   | some o => if (o.fmt ≠ 0 ∧ isPlain o.fmt = false) ∨ s.tableObj h o = true ∨ o.tiles * 4096 < hostOff b + hostLen b
     then [24] else []) ++
  (if hostLenBad b then [36] else [])

/-! ## `HOST_WRITE` (12 R385 to R387) -/

/-- Free bytes of the posted-write buffer of 8 MiB (12 R385). -/
def State.wrFree (s : State) : Nat :=
  8388608 - (s.host.staged.map Prod.snd).foldl (· + ·) 0 - (s.host.posted.map (fun p => p.bytes.length)).foldl (· + ·) 0

/-- The source tiles of a `HOST_WRITE`. -/
def writeTiles (b : List Byte) : List (Nat × Nat) := withHandle (op32 b 24) (rangeTiles (hostOff b) (hostLen b))

/-- A `HOST_WRITE` reserves buffer room, waiting for it, and reads its source bytes into the buffer (12 R385). -/
def State.runHostWrite (s : State) (n : Nat) : State :=
  match s.fresh n 0x38 with
  | none => s
  | some (r, d) =>
    let b := d.slot
    let ts := writeTiles b
    let far := s.farTiles ts
    if s.wrFree < hostLen b then s
    else if !far.isEmpty then s.fetchAll d far
    else
      match ts.find? (fun t => s.tileBad d t.1 t.2) with
      | some t => s.stopFound n d (stPoisoned, t.1, t.2)
      | none =>
        let bytes := s.objBytes d (op32 b 24) (hostOff b) (hostLen b)
        let s1 := s.readTiles d n ts
        let s2 := { s1 with host := { s1.host with staged := s1.host.staged ++ [(d.id, hostLen b)] } }
        s2.prepare n r (s.framesOf d ts) [] (some { RunWork.empty with host := [(hostAddr b, bytes)] })
          (64 + ceilDiv (hostLen b) 512)

/-- `HOST_WRITE` (12 R385). -/
def execHostWrite (clu : Nat) (s : State) : Host.Outcome State Fault Refusal := done (s.runHostWrite clu)

/-- Pieces of a host write that cross no multiple of `n` bytes of address. -/
def splitWrite (n : Nat) : Nat → Nat → List Byte → List (Nat × List Byte)
  | 0, _, _ => []
  | _ + 1, _, [] => []
  | k + 1, a, b :: t =>
    let m := n - a % n
    (a % 2 ^ 64, (b :: t).take m) :: splitWrite n k (a + m) ((b :: t).drop m)

/-- The posted writes of a `HOST_WRITE`: pieces of the Max_Payload_Size that PCI Express resets to, 128 bytes (log entry
22) (PRESUMED, log entry 22). -/
def postedOf (num c addr : Nat) (bytes : List Byte) : List Posted :=
  (splitWrite 128 (bytes.length / 128 + 2) addr bytes).map (fun x => ⟨num, c, x.1, x.2⟩)

/-- The commit phase of a `HOST_WRITE` of a FABRIC channel: RESPONSE messages with its cookie, to the source of its REQUEST
(13 R410). -/
def State.releaseFabric (s : State) (d : Cmd) (o : Origin) (bytes : List Byte) : State :=
  (chunks 524272 (bytes.length / 524272 + 1) bytes).foldl (fun t x =>
    (t.sendMsg o.src o.vl 1 (t.deadlineOf d)
      (leBytes 2 d.chan ++ leBytes 2 0 ++ leBytes 8 (hostAddr d.slot) ++ leBytes 4 x.length ++ x) (some d.id)).1.chargeBytes
      d.chan 11 x.length) s

/-- The cutoff of a host commit phase: cycle G - 4,096 (02 R39). -/
def State.cutoff (s : State) : Nat := s.G - 4096

/-- The commit phase of a host-writing command begins (05 R125; 12 R385). -/
def State.beginCommit (s : State) (n : Nat) : State :=
  match s.running n with
  | none => s
  | some (r, d) =>
    match r.work with
    | none => s
    | some w =>
      if !s.on || !writesHost d.slot || r.commitAt.isSome || decide (s.elapsed r < r.due) || decide (s.cutoff < s.clk.cyc) then s
      else
        let num := s.gfe.nextId + 1
        let s1 := { s with gfe := { s.gfe with nextId := num },
                           host := { s.host with staged := s.host.staged.filter (fun x => x.1 != d.id) } }
        let s2 := match (s.chan d.chan).kind, (s.extra d.id).origin with
          | .fabric, some o => (match w.host with | (_, bs) :: _ => s1.releaseFabric d o bs | [] => s1)
          | .fabric, none => s1
          | .host, _ => { s1 with host := { s1.host with
              posted := s1.host.posted ++ w.host.flatMap (fun (x : Nat × List Byte) => postedOf num d.chan x.1 x.2) } }
        (s2.setRun n { r with commitAt := some s.clk.now }).setCmd { d with phase := .flush n false }

/-- `COMMIT_PHASE_BEGIN` (05 R125). -/
def execCommitPhaseBegin (clu : Nat) (s : State) : Host.Outcome State Fault Refusal := done (s.beginCommit clu)

/-! ## The end of a commit phase (12 R385; 04 R97, R110) -/

/-- Messages or frames of a command that have not been acknowledged (04 R97). -/
def State.unacked (s : State) (id : Nat) : Bool :=
  s.fab.awaits.any (fun a => a.cmd == id) || s.fab.peers.any (fun p => p.2.frames.any (fun f => f.cmd == some id))

/-- A command that waits only for acknowledgements ends once there are none to come (04 R97). -/
def State.settleAcks (s : State) (id : Nat) : State :=
  match s.cmd? id with
  | none => s
  | some d =>
    match d.phase with
    | .acks st a b =>
      if s.unacked id then s
      else (s.endCmd d st a (if st = stRemoteFail then (s.extra id).acked else b) false).tidy
    | _ => s

/-- What the clock does to a commit phase: its flush read is issued in its 16th cycle, and the cluster is released in the
next (12 R385). -/
def State.settleCommit (s : State) (n : Nat) : State :=
  match s.running n with
  | none => s
  | some (r, d) =>
    match r.commitAt with
    | none => s
    | some t =>
      if s.clk.now < t + 15 then s
      else
        let s1 := match d.phase with
          | .flush k false =>
            (match (s.chan d.chan).kind with
             | .fabric => s.setCmd { d with phase := .acks stOk 0 0 }
             | .host =>
               let x := s.issueFlush d.chan ((hostAddr d.slot + hostLen d.slot - 1) % 2 ^ 64)
               (x.1.setCmd { d with phase := .flush k true }).setExtra { x.1.extra d.id with aux := [x.2] })
          | _ => s
        if s.clk.now < t + 16 then s1
        else (((s1.noteClu d.id n).leaveRun n (t + 16 - r.startNow) false).settleAcks d.id).tidy

/-- Every commit phase under way. -/
def State.settleCommits (s : State) : State :=
  (s.clus.filter (fun x => match x.2.run with | some r => r.commitAt.isSome | none => false)).foldl
    (fun t x => t.settleCommit x.1) s

/-! ## Flush reads -/

/-- The number of the flush read that a command waits for. -/
def State.flushNo (s : State) (d : Cmd) : Option Nat :=
  match d.phase with
  | .flush _ true => some (listGet 0 (s.extra d.id).aux 0)
  | _ => none

/-- A flush read has taken its round trip (12 R393). -/
def State.noteRtt (s : State) (t : Nat) : State :=
  { s with host := { s.host with rttLast := min t 65535, rttMax := max s.host.rttMax (min t 65535) } }

/-- The oldest flush read of a channel returns: a successful one confirms the channel's records and ends the commands whose
writes it follows; a failed one ends its own command with `ST_HOST_LOST` (04 R110; 12 R379). -/
def State.flushReturn (s : State) (c : Nat) (ok : Bool) : State :=
  match takeFirst (fun r : HostRd => r.id == .flush c) s.host.reads with
  | none => s
  | some (r, rest) =>
    if s.host.posted.any (fun p => p.chan == c && decide (p.num < r.addr)) && ok then s
    else
      let s1 := State.noteRtt { s with host := { s.host with reads := rest } } (s.clk.now - r.issued)
      let s2 := if ok then s1.confirm c r.addr else s1
      let ds := s2.gfe.cmds.filter (fun d => d.chan == c && (match s2.flushNo d with
        | some k => if ok then decide (k ≤ r.addr) else k == r.addr
        | none => false))
      ((ds.foldl (fun t d => (t.endCmd d (if ok then stOk else stHostLost) 0 0 false).tidy) s2).release c).pumpRing c

/-- `FLUSH_READ_RETURN` (04 R110). -/
def execFlushReadReturn (chan : Nat) (ok : Bool) (s : State) : Host.Outcome State Fault Refusal :=
  done (if !s.on || s.link.state != .up then s else s.flushReturn chan ok)

/-- `POSTED_WRITE_DRAIN`: the oldest posted write leaves the host link and frees its room (12 R385). -/
def execPostedWriteDrain (s : State) : Host.Outcome State Fault Refusal :=
  done (
    match s.host.posted with
    | [] => s
    | p :: rest =>
      if !s.on || s.link.state != .up then s
      else
        ((State.emit { s with host := { s.host with posted := rest } } (.hostWrite p.addr p.bytes)).chargeBytes p.chan 9
          p.bytes.length))

/-! ## `HOST_READ` (12 R390 to R392) -/

/-- The addresses of the host lines of a `HOST_READ`. -/
def lineAddrs (b : List Byte) : List Nat :=
  (List.range' (hostAddr b / 64) ((hostAddr b + hostLen b - 1) / 64 + 1 - hostAddr b / 64)).map (fun k => k * 64 % 2 ^ 64)

/-- Line reads of a cluster's command in flight. -/
def State.linesOut (s : State) (n : Nat) : List HostRd :=
  s.host.reads.filter (fun r => match r.id with | .line c _ => c == n | _ => false)

/-- All line reads in flight. -/
def State.allLines (s : State) : Nat := (s.host.reads.filter (fun r => match r.id with | .line _ _ => true | _ => false)).length

/-- Issue line reads of a running `HOST_READ`: at most 256 in flight for it and 512 in the module (12 R390). -/
def State.pumpLines (s : State) (n : Nat) : State :=
  match s.running n with
  | none => s
  | some (r, d) =>
    if slotOp d.slot ≠ 0x39 ∨ r.prepared = false ∨ s.linkUp = false ∨ s.link.cacheEn = false ∨ s.unitTest 4 = true then s
    else
      let todo := (lineAddrs d.slot).filter (fun a =>
        !(s.linesOut n).any (fun x => x.id == .line n a) && !s.host.lines.any (fun x => x.1 == n && x.2.1 == a))
      (todo.take (min (256 - (s.linesOut n).length) (512 - s.allLines))).foldl (fun t a =>
        State.emit { t with host := { t.host with reads := t.host.reads ++ [⟨.line n a, 0, t.clk.now⟩] } }
          (.lineRead a (hostShared d.slot))) s

/-- Issue line reads of every running `HOST_READ`. -/
def State.pumpAllLines (s : State) : State := (s.clus.map Prod.fst).foldl State.pumpLines s

/-- The destination tiles of a `HOST_READ` that it writes in part. -/
def readParts (b : List Byte) : List (Nat × Nat) :=
  withHandle (op32 b 24) ((rangeTiles (hostOff b) (hostLen b)).filter (fun t =>
    decide (t * 4096 < hostOff b) || decide (hostOff b + hostLen b < (t + 1) * 4096)))

/-- A `HOST_READ` starts to read its lines. -/
def State.runHostRead (s : State) (n : Nat) : State :=
  match s.fresh n 0x39 with
  | none => s
  | some (r, d) =>
    let far := s.farTiles (readParts d.slot)
    if s.linkUp = false ∨ s.link.cacheEn = false then s
    else if !far.isEmpty then s.fetchAll d far
    else match (readParts d.slot).find? (fun t => s.tileBad d t.1 t.2) with
      | some t => s.stopFound n d (stPoisoned, t.1, t.2)
      | none => ((s.readTiles d n (readParts d.slot)).prepare n r (s.framesOf d (readParts d.slot)) [] none 64).pumpLines n

/-- `HOST_READ` (12 R390). -/
def execHostRead (clu : Nat) (s : State) : Host.Outcome State Fault Refusal := done (s.runHostRead clu)

/-- The bytes of a destination tile: those read, the rest from its old home. -/
def tileWith (old new : List Byte) (tile off : Nat) : List Byte :=
  let lo := max off (tile * 4096)
  let hi := min (off + new.length) ((tile + 1) * 4096)
  old.take (lo - tile * 4096) ++ (new.drop (lo - off)).take (hi - lo) ++ old.drop (hi - tile * 4096)

/-- Every line of a `HOST_READ` has arrived: its destination tiles are in shadow tiles (12 R390). -/
def State.finishRead (s : State) (n : Nat) (d : Cmd) : State :=
  let b := d.slot
  let bytes := (((lineAddrs b).flatMap (fun a => match s.host.lines.find? (fun x => x.1 == n && x.2.1 == a) with
    | some x => x.2.2
    | none => [])).drop (hostAddr b % 64)).take (hostLen b)
  let h := op32 b 24
  let outs := (rangeTiles (hostOff b) (hostLen b)).map (fun t =>
    let f := s.srcFrame d h t
    OutTile.mk h t (tileWith (s.tileData d h t) bytes t (hostOff b)) (match f with | some g => s.scaleSeq g | none => 0)
      (s.scaleOfTile d h t))
  (s.finishWork n d outs RunWork.empty).dropHost n d.id

/-- The code of a read error (12 R393). -/
def lineError : HostLine → Option Nat
  | .unsupported => some 0
  | .abort => some 1
  | .timeout => some 2
  | .poisoned => some 3
  | .data _ => none

/-- A line of a `HOST_READ` returns: its data are kept, or an error ends the command (12 R390). -/
def State.lineReturn (s : State) (n addr : Nat) (l : HostLine) : State :=
  match s.running n, takeFirst (fun r : HostRd => r.id == .line n addr) s.host.reads with
  | some (_, d), some (_, rest) =>
    let s1 := { s with host := { s.host with reads := rest } }
    match lineError l with
    | some k =>
      ({ s1 with host := { s1.host with rdErr := (addr, k, d.chan) } } : State).raise .cxl 0 0x004 9 |>.stopWith n stRange 16 0
    | none =>
      let bytes := match l with | .data bs => padTo 64 bs | _ => []
      let s2 := { s1 with host := { s1.host with lines := s1.host.lines ++ [(n, addr, bytes)] } }
      let s3 := (if hostShared d.slot then s2.emit (.cleanEvict addr) else s2).chargeBytes d.chan 10 64
      if (s3.host.lines.filter (fun x => x.1 == n)).length = (lineAddrs d.slot).length then s3.finishRead n d
      else s3.pumpLines n
  | _, _ => s

/-- `HOST_READ_LINE_RETURN` (12 R390). -/
def execHostReadLineReturn (clu : Nat) (addr : Nat) (line : HostLine) (s : State) : Host.Outcome State Fault Refusal :=
  done (if !s.on || s.link.state != .up then s else s.lineReturn clu addr line)

/-- `COMPLETION_TIMEOUT` of the host link on a flush read or a line read (04 R110; 12 R390). -/
def execCompletionTimeout (read : HostReadId) (s : State) : Host.Outcome State Fault Refusal :=
  done (
    if !s.on then s else
    match read with
    | .flush c => s.flushReturn c false
    | .line n a => s.lineReturn n a .timeout
    | .ring _ => s)

/-- A running `HOST_READ` is killed and returns to the head of its channel; the kill does not count toward `KILL_LIMIT` (12
R360, R377). -/
def State.killRead (s : State) (n : Nat) : State :=
  match s.running n with
  | none => s
  | some (r, d) =>
    if slotOp d.slot ≠ 0x39 then s else ((s.stopRun n (s.elapsed r) false).noteClu d.id n).sendBack { d with reruns := d.reruns + 1 }

/-- Every running `HOST_READ` is killed. -/
def State.killReads (s : State) : State := (s.clus.map Prod.fst).foldl State.killRead s

end Sys2Proof.Machine
end

