-- ==== Sys2Proof/Machine/Cycle.lean ====
section
/-! DEFINITION. The clock within a tick: it moves on, commit phases with it (12 R385), and at the cutoff host-writing commands in
device work are killed (02 R39). -/

namespace Sys2Proof.Machine

/-! ## The clock within a tick -/

/-- The clock reaches cycle `c` of the running tick, if it is not past it: the fences' cycle is over (04 R102), and commit
phases go on (12 R385) (DESIGN CHOICE, log entry 2). -/
def State.toCycle (s : State) (c : Nat) : State :=
  if s.clk.cyc < c then (s.closeFences.endStep.clockTo c).settleCommits else s

/-- The running tick has come to a stage. -/
def State.tickStage (s : State) (g : TickStage) : State := { s with clk := { s.clk with stage := g } }

/-- The clusters whose running command is not in a commit phase and has a property. -/
def State.inWork (s : State) (p : Cmd → Bool) : List Nat :=
  (s.clus.map Prod.fst).filter (fun n => match s.running n with
    | some (r, d) => r.commitAt.isNone && p d
    | none => false)

/-! ## The cutoff (02 R39) -/

/-- The commit phases of host-writing commands whose device work is over begin at the latest now. -/
def State.lastCommits (s : State) : State := (s.inWork (fun d => writesHost d.slot)).foldl State.beginCommit s

/-- In the cycle of the cutoff a host-writing command whose device work is over begins its commit phase; one still in device
work is killed with `ST_OVERRUN` (DEDUCED, log entry 10). -/
def State.cutoffWork (s : State) : State :=
  let t := s.lastCommits
  ((t.inWork (fun d => writesHost d.slot)).foldl State.overrun t).tickStage .cut

/-- The next cycle of the running tick. -/
def State.nextCycle (s : State) : State :=
  let t := s.toCycle (s.clk.cyc + 1)
  if t.clk.stage = .early ∧ t.cutoff ≤ t.clk.cyc then t.cutoffWork else t

end Sys2Proof.Machine
end

