-- ==== Sys2Proof/Machine/Ecc.lean ====
section
/-! DEFINITION. The W256 word code (14 R415 to R417), and a whole-tile read with its attempts (14 R418, R421). -/

namespace Sys2Proof.Machine

/-! ## GF(2^8) (14 R415) -/

/-- A field element times the primitive element 0x02, modulo the field polynomial 0x11D. -/
def gfDouble (a : Nat) : Nat := if 128 ≤ a then (2 * a) ^^^ 0x11D else 2 * a

/-- A product of field elements: `n` bits of the second factor. -/
def gfMulBits : Nat → Nat → Nat → Nat
  | 0, _, _ => 0
  | n + 1, a, b => (if b % 2 = 1 then a else 0) ^^^ gfMulBits n (gfDouble a) (b / 2)

/-- A product of field elements. -/
def gfMul (a b : Nat) : Nat := gfMulBits 8 a b

/-- A power of the primitive element. -/
def gfAlpha : Nat → Nat
  | 0 => 1
  | k + 1 => gfDouble (gfAlpha k)

/-! ## The code (14 R415) -/

/-- A polynomial times (x - r), the highest coefficient first. -/
def timesRoot (p : List Nat) (r : Nat) : List Nat :=
  List.zipWith (· ^^^ ·) (p ++ [0]) (0 :: p.map (gfMul r))

/-- The generator g(x), its five coefficients from that of x^4 down. -/
def w256Gen : List Nat := ((upTo 4).map gfAlpha).foldl timesRoot [1]

/-- One step of the division by g(x): the remainder takes in the next coefficient of the data. -/
def w256Step (rem : List Nat) (b : Nat) : List Nat :=
  let q := listGet 0 rem 0 ^^^ b
  List.zipWith (fun x g => x ^^^ gfMul q g) (rem.drop 1 ++ [0]) (w256Gen.drop 1)

/-- The codeword of 32 data bytes: the data, then the four check bytes. -/
def w256Encode (d : List Nat) : List Nat := d ++ d.foldl w256Step [0, 0, 0, 0]

/-- The value of a received word at a power of the primitive element; 0 at the four roots of g(x) for a codeword. -/
def w256Syndrome (c : List Nat) (k : Nat) : Nat := c.foldl (fun a b => gfMul a (gfAlpha k) ^^^ b) 0

/-- The byte of a received word that alone is in error, if one is: its error is the first syndrome, and each syndrome is the one
before times the locator of the byte (14 R416). -/
def w256Locate (c : List Nat) : Option Nat :=
  let s := (upTo 4).map (w256Syndrome c)
  (upTo 36).find? (fun i =>
    (upTo 3).all (fun k => gfMul (listGet 0 s k) (gfAlpha (35 - i)) == listGet 0 s (k + 1)))

/-- The decode of a received word of 36 bytes: its data and whether a byte was corrected, or none for an uncorrectable word (14
R416). -/
def w256Decode (c : List Nat) : Option (List Nat × Bool) :=
  if (upTo 4).all (fun k => w256Syndrome c k == 0) then some (c.take 32, false)
  else match w256Locate c with
    | none => none
    | some i => some (((upTo 36).map (fun j => if j = i then listGet 0 c j ^^^ w256Syndrome c 0 else listGet 0 c j)).take 32, true)

/-- Data that is encoded, disturbed by an error pattern of 36 bytes, and decoded. -/
def w256Pass (d : List Nat) (e : List Byte) : Option (List Nat × Bool) :=
  w256Decode (List.zipWith (· ^^^ ·) (w256Encode d) ((padTo 36 e).map BitVec.toNat))

/-- A word on an on-die link: an uncorrectable arrival is replayed, `n` arrivals in all; the data that arrives and the number of
corrections (14 R416, R417). `es` are the error patterns of the arrivals. -/
def linkPass (d : List Nat) : Nat → List (List Byte) → Option (List Nat × Nat)
  | 0, _ => none
  | n + 1, es =>
    match w256Pass d (es.headD []) with
    | some (x, c) => some (x, bit01 c)
    | none => linkPass d n es.tail

/-! ## Reads of a tile (14 R416 to R421) -/

/-- What one attempt to read a tile yields: the words that a correction was written back to, the corrections on links, and the
failure. -/
structure ReadTry where
  words : List Nat
  links : Nat
  fault : Option PoisonCause
  deriving DecidableEq, Repr

/-- A word of a tile as it is delivered: read from the frame and carried over a link; none if it is uncorrectable. -/
def wordPass (d : List Nat) (e : WordErr) : Option (List Nat × Bool × Nat) :=
  match w256Pass d e.mem with
  | none => none
  | some (x, c) => (linkPass x 4 e.link).map (fun y => (y.1, c, y.2))

/-- One attempt to read a frame whose words are disturbed as the list says: the first failure of the word code (R416, R417), the block
check over what is delivered (R418), and the header's fields for a tile that is at home. -/
def State.readTry (s : State) (f : Nat) (es : List WordErr) : ReadTry :=
  let data := s.data f
  let ws := (es.filter (fun e => e.word < 128)).map (fun e =>
    (e.word, wordPass (((data.drop (32 * e.word)).take 32).map BitVec.toNat) e))
  let got := ws.foldl (fun bs w => match w.2 with
    | some x => putBytesAt bs (32 * w.1) (x.1.map (BitVec.ofNat 8))
    | none => bs) data
  let fault :=
    if ws.any (fun w => w.2.isNone) then some .w256
    else if ws.any (fun w => w.2.any (fun x => x.1.map (BitVec.ofNat 8) != (data.drop (32 * w.1)).take 32)) = true ∧
        crc64 (got ++ s.header f) ≠ s.blockCheck f then some .blockCheck
    else if (s.frame f).state = .home then s.headFault f (s.frame f).obj (s.frame f).tile
    else none
  { words := (ws.filter (fun w => match w.2 with | some x => x.2.1 | none => false)).map Prod.fst,
    links := ((ws.filterMap Prod.snd).map (fun x => x.2.2)).foldl (· + ·) 0, fault := fault }

/-- The attempts of a read of a frame outside the cellar: one, and a re-read if it fails (14 R421). -/
def State.readTries (s : State) (f : Nat) (es again : List WordErr) : List ReadTry :=
  let a := s.readTry f es
  if a.fault.isSome then [a, s.readTry f again] else [a]

end Sys2Proof.Machine
end

