-- ==== Sys2Proof/Machine/Matrix.lean ====
section
/-! DEFINITION. `GEMM` and `MATVEC` on the array and the skink, their check columns and their comparisons (07 R180 to R206,
R523). -/

namespace Sys2Proof.Machine

/-! ## Formats and rates (07 R184) -/

/-- Bits of the elements of an operand, packed rows by their elements. -/
def operandBits (f : Nat) : Nat := elemBits f

/-- A pair of operand formats permitted by 07 R184. -/
def pairOk (a b : Nat) : Bool :=
  let a := rowBase a
  let b := rowBase b
  let narrow := fun f => (isSingleLevel f || isTwoLevel f)
  (narrow a && narrow b) || (a == 0x05 && b == 0x05) || (a == 0x06 && b == 0x06)

/-- Cycles of a k-block on the array (07 R184). -/
def kappa (a b : Nat) : Nat :=
  let w := max (operandBits a) (operandBits b)
  if w = 4 then 8 else if w = 8 then 16 else 64

/-- B chunks that the skink takes in a cycle (07 R184). -/
def chunkRate (a b : Nat) : Nat :=
  let w := max (operandBits a) (operandBits b)
  if w = 4 then 8 else if w = 8 then 4 else 1

/-- An output format of the two commands (07 R199). -/
def outOk (f : Nat) : Bool := [0x04, 0x05, 0x06, 0x07, 0x08, 0x09, 0x0C, 0x10, 0x11, 0x12, 0x13].contains f

/-- The INT32 path (07 R186). -/
def intPath (a b c : Nat) : Bool := (a == 0x0A || a == 0x0B) && (b == 0x0A || b == 0x0B) && c == 0x0C

/-! ## What a command computes -/

/-- A matrix product as one of the two commands describes it: dimensions, formats, layouts, operands. -/
structure Product where
  m : Nat
  n : Nat
  k : Nat
  x : Nat
  w : Nat
  y : Nat
  acc : Nat
  bias : Nat
  sel : Option Nat
  xBase : Nat
  wBase : Nat
  yBase : Nat
  xPanel : Bool
  yPanel : Option Nat
  xFmt : Nat
  rnd : Nat
  sat : Bool
  slot : Nat
  array : Bool
  deriving DecidableEq, Repr

/-- The product of a command; X_FMT counts for the argument handle, the object's format else. -/
def State.product (s : State) (b : List Byte) : Product :=
  let fmt := fun (h : Nat) => match s.operandRun h with | some o => o.fmt | none => 0
  if slotOp b = 0x20 then
    { m := gemmM b, n := gemmN b, k := gemmK b, x := op32 b 16, w := op32 b 20, y := op32 b 24, acc := op32 b 28,
      bias := op32 b 32, sel := none, xBase := opBits b 44 4 23 0, wBase := opBits b 48 4 23 0, yBase := opBits b 52 4 23 0,
      xPanel := true, yPanel := some (if opBits b 56 4 3 3 = 0 then 512 else 64), xFmt := fmt (op32 b 16),
      rnd := opBits b 56 4 1 0, sat := opBits b 56 4 2 2 == 1, slot := opBits b 56 4 17 8, array := !onSkink b }
  else
    { m := opBits b 40 8 3 0, n := opBits b 40 8 23 4, k := opBits b 40 8 43 24, x := op32 b 16, w := op32 b 20,
      y := op32 b 24, acc := op32 b 28, bias := op32 b 32, sel := if opBits b 56 4 5 5 = 1 then some (op32 b 36) else none,
      xBase := 0, wBase := opBits b 48 4 23 0, yBase := opBits b 52 4 23 0, xPanel := opBits b 56 4 3 3 == 1,
      yPanel := if opBits b 56 4 4 4 = 1 then some 512 else none,
      xFmt := if op32 b 16 = argHandle then opBits b 56 4 22 18 else fmt (op32 b 16),
      rnd := opBits b 56 4 1 0, sat := opBits b 56 4 2 2 == 1, slot := opBits b 56 4 17 8, array := false }

/-- ⌈K / 16⌉. -/
def Product.kb (p : Product) : Nat := ceilDiv p.k 16
/-- K rounded up to a multiple of 16. -/
def Product.kp (p : Product) : Nat := p.kb * 16
/-- ⌈N / 64⌉. -/
def Product.nb (p : Product) : Nat := ceilDiv p.n 64
/-- ⌈M / 512⌉. -/
def Product.bm (p : Product) : Nat := ceilDiv p.m 512

/-- Storage index of element (m, k) of X or A (07 R180, R195). -/
def Product.xIndex (p : Product) (m k : Nat) : Nat := if p.xPanel then panelIndex 512 p.k m k else m * p.kp + k
/-- Elements of the padded region of X or A. -/
def Product.xSize (p : Product) : Nat := if p.xPanel then panelSize 512 p.m p.k else p.m * p.kp
/-- Storage index of element (m, n) of the output, also of ACC_IN (07 R182, R195). -/
def Product.yIndex (p : Product) (m n : Nat) : Nat :=
  match p.yPanel with
  | some h => panelIndex h p.n m n
  | none => m * (ceilDiv p.n 16 * 16) + n
/-- Rows of the padded output. -/
def Product.yRows (p : Product) : Nat := match p.yPanel with | some h => ceilDiv p.m h * h | none => p.m
/-- Columns of the padded output. -/
def Product.yCols (p : Product) : Nat := ceilDiv p.n 16 * 16
/-- Elements of the padded output. -/
def Product.ySize (p : Product) : Nat := p.yRows * p.yCols
/-- Elements of the padded region of W or B outside SELECT mode. -/
def Product.wSize (p : Product) : Nat := panelSize 64 p.n p.k

/-! ## Conditions of `ST_RANGE` (07 R199, R203) -/

/-- The conditions common to both commands, with the offset of the dimension field. Those that relate a format to the path of the
operand pair take the pair's offset (04 R521). -/
def State.productBad (s : State) (p : Product) (dims : Nat) : List Nat :=
  (if p.m = 0 ∨ p.n = 0 ∨ p.k = 0 then [dims] else []) ++
  (if p.rnd = 3 then [56] else []) ++
  let ox := s.operand p.x
  let ow := s.operand p.w
  let oy := s.operand p.y
  let int : Bool := match ox, ow, oy with | some _, some w, some y => intPath p.xFmt w.fmt y.fmt | _, _, _ => false
  let side := if int then 0x0C else 0x04
  let sideBad := fun (o : Obj) (off : Nat) => if o.fmt = side then [] else if o.fmt = 0x04 ∨ o.fmt = 0x0C then [16] else [off]
  (match ox with | none => [16] | some o => if regionBad o p.xFmt p.xBase p.xSize then [16] else []) ++
  (match ox, ow with
   | some _, some w =>
     if pairOk p.xFmt w.fmt ∧ (p.sel.isSome = true ∨ isPackedRow w.fmt = false) ∧ isPackedRow p.xFmt = false then [] else [16]
   | _, _ => []) ++
  (match ow with | none => [20] | some o => if p.sel.isNone && regionBad o o.fmt p.wBase p.wSize then [20] else []) ++
  (match oy with
   | none => [24]
   | some o => (if o.fmt = 0x0C ∧ int = false then [16] else []) ++
      (if !outOk o.fmt || regionBad o o.fmt p.yBase p.ySize then [24] else [])) ++
  (if p.acc = 0 then [] else match s.operand p.acc with
   | none => [28]
   | some o => sideBad o 28 ++ (if regionBad o side p.yBase p.ySize then [28] else [])) ++
  (if p.bias = 0 then [] else match s.operand p.bias with
   | none => [32]
   | some o => sideBad o 32 ++ (if regionBad o side 0 p.n then [32] else []))

/-- The conditions of a `GEMM` (07 R199). -/
def State.gemmBad (s : State) (b : List Byte) : List Nat := s.productBad (s.product b) 36

/-- The conditions of a `MATVEC` that need no row number (07 R203). -/
def State.matvecBad (s : State) (d : Cmd) : List Nat :=
  let b := d.slot
  let p := s.product b
  let arg : Bool := p.x == argHandle
  s.productBad p 40 ++
  (if 8 < p.m ∨ 16384 < p.k then [40] else []) ++
  (if arg then
    (if isPlain p.xFmt && decide (elemBits p.xFmt ≤ 16) then
      (if 64 * slotExt b * 8 < p.m * p.kp * elemBits p.xFmt ∧ d.launch.isNone = true then [16]
       else if (s.payloadOf d).length * 8 < p.m * p.kp * elemBits p.xFmt then [16] else [])
     else [16]) ++ (if p.xPanel then [16] else [])
   else []) ++
  (match p.sel with
   | none => []
   | some sel =>
     (match s.operand sel with
      | some o => if o.fmt ≠ 0x0C ∨ regionBad o 0x0C 0 p.n = true then [36] else []
      | none => [36]) ++
     (match s.operand p.w with
      | some o => if 32 ≤ o.rowBytes ∧ (isPackedRow o.fmt = true ∨ (isPlain o.fmt = true ∧ 8 ≤ elemBits o.fmt)) ∧
            rowLen o.fmt p.k = o.rowBytes then [] else [20]
      | none => []) ++
     (if p.wBase = 0 then [] else [48]))

/-! ## Tiles -/

/-- The tiles of an operand region, none for the argument handle. -/
def operandTiles (h fmt base n : Nat) : List (Nat × Nat) := if h = argHandle then [] else withHandle h (regionTiles fmt base n)

/-- The old tiles of its output that a product reads (08 R227; 06 R157). -/
def State.productParts (s : State) (p : Product) : List (Nat × Nat) :=
  match s.operandRun p.y with
  | some o => partTiles p.y o (List.range' (p.yBase * elemsPerTile o.fmt) p.ySize)
  | none => []

/-- The places of the rows that a product selects, output by output (07 R196). -/
def State.selectedRows (s : State) (d : Cmd) (p : Product) : List (Nat × Nat × Nat) :=
  match p.sel, s.operandRun p.w, d.res with
  | some _, some ow, some r => r.idx.map (fun i => s.readerPlace p.w ow i.toNat)
  | _, _, _ => []

/-- The tiles of the rows that a product selects. -/
def State.selectedTiles (s : State) (d : Cmd) (p : Product) : List (Nat × Nat) :=
  ((s.selectedRows d p).map (fun x => (x.1, x.2.1))).eraseDups

/-- The data tiles that a product reads, in operand order; its selected rows apart. -/
def State.productReads (s : State) (p : Product) : List (Nat × Nat) :=
  let fmt := fun (h : Nat) => match s.operandRun h with | some o => o.fmt | none => 0
  operandTiles p.x p.xFmt p.xBase p.xSize ++
  (if p.sel.isSome then [] else operandTiles p.w (fmt p.w) p.wBase p.wSize) ++
  (if p.acc = 0 then [] else operandTiles p.acc 0x04 p.yBase p.ySize) ++
  (if p.bias = 0 then [] else operandTiles p.bias 0x04 0 p.n) ++
  s.productParts p

/-- The tiles that a product writes. -/
def State.productWrites (s : State) (p : Product) : List (Nat × Nat) :=
  match s.operandRun p.y with | some o => outTilesAt p.y o (List.range' (p.yBase * elemsPerTile o.fmt) p.ySize) | none => []

/-! ## Arithmetic (07 R185, R186) -/

/-- An exact sum. -/
def sumFV (vs : List FV) : FV := vs.foldl FV.add FV.zero

/-- The FP32 accumulation of 07 R185 over k-blocks of products, from a start value. -/
def accumulate (a0 : FV) (blocks : List (List FV)) : FV := blocks.foldl (fun a b => f32 (FV.add a (f32 (sumFV b)))) a0

/-- An FP32 sum in the order of a list. -/
def sum32 (vs : List FV) : FV := vs.foldl (fun a v => f32 (FV.add a v)) FV.zero

/-- Cut a row of reduction elements into k-blocks. -/
def kBlocks (kb : Nat) (f : Nat → FV) (k : Nat) : List (List FV) :=
  (upTo kb).map (fun i => ((List.range' (16 * i) 16).filter (fun j => decide (j < k))).map f)

/-- The matrices of a product as values: X and W by (row, k), ACC_IN by (m, n), BIAS by n. -/
structure Operands where
  xs : Nat → Nat → FV
  ws : Nat → Nat → FV
  acc : Nat → Nat → FV
  bias : Nat → FV

/-- The raw integer of an element of a plain integer format (07 R186). -/
def rawInt (fmt code : Nat) : FV := decodeElem fmt code

/-- The operands of a product as a command sees them; raw integers on the INT32 path (DEDUCED, log entry 46). -/
def State.operandsOf (s : State) (d : Cmd) (p : Product) (ox ow oy : Obj) : Operands :=
  let int := intPath p.xFmt ow.fmt oy.fmt
  let side := if int then 0x0C else 0x04
  let rows := match d.res with | some r => r.idx | none => []
  let at' := fun (h : Nat) (o : Obj) (fmt base i : Nat) =>
    if int then rawInt fmt (s.elemCode d h fmt base i) else s.elemVal d h o fmt base i
  { xs := fun m k => at' p.x ox p.xFmt p.xBase (p.xIndex m k)
    ws := fun n k => match p.sel with
      | none => at' p.w ow ow.fmt p.wBase (panelIndex 64 p.k n k)
      | some _ =>
        let r := (listGet 0 rows n).toNat
        let pl := s.readerPlace p.w ow r
        if int then rawInt ow.fmt (elemRaw (elemBits ow.fmt) (s.rowBytesAt d pl ow.rowBytes) k)
        else listGet FV.zero (s.rowVals d pl ow.fmt p.k) k
    acc := fun m n => if p.acc = 0 then FV.zero else rawInt side (s.elemCode d p.acc side p.yBase (p.yIndex m n))
    bias := fun n => if p.bias = 0 then FV.zero else rawInt side (s.elemCode d p.bias side 0 n) }

/-- Wrap an exact integer to an INT32 accumulator. -/
def wrapInt (v : FV) : Nat := wrap 32 (match v with | .fin s m e => finInt s m e 0 | _ => 0)

/-- The accumulator of output (m, n) before BIAS, a 32-bit pattern (07 R185, R186). -/
def accumulator (p : Product) (q : Operands) (int : Bool) (m n : Nat) : Nat :=
  let blocks := kBlocks p.kb (fun k => FV.mul (q.xs m k) (q.ws n k)) p.k
  if int then wrapInt (FV.add (q.acc m n) (sumFV (blocks.map sumFV))) else enc32 (accumulate (q.acc m n) blocks)

/-- The check value of row `m` over columns `ns` (07 R189). -/
def checkValue (p : Product) (q : Operands) (int : Bool) (ns : List Nat) (m : Nat) : Nat :=
  let w := fun k => sumFV (ns.map (fun n => q.ws n k))
  let start := ns.map (fun n => q.acc m n)
  if int then wrapInt (FV.add (sumFV start) (sumFV ((kBlocks p.kb (fun k => FV.mul (q.xs m k) (w k)) p.k).map sumFV)))
  else enc32 (accumulate (if p.acc = 0 then FV.zero else sum32 start) (kBlocks p.kb (fun k => FV.mul (q.xs m k) (f32 (w k))) p.k))

/-- The magnitude of row `m` over columns `ns` (07 R189). -/
def checkMag (p : Product) (q : Operands) (ns : List Nat) (m : Nat) : Nat :=
  let w := fun k => f32 (sumFV (ns.map (fun n => (q.ws n k).abs)))
  let start := ns.map (fun n => (q.acc m n).abs)
  enc32 (accumulate (if p.acc = 0 then FV.zero else sum32 start)
    (kBlocks p.kb (fun k => FV.mul (q.xs m k).abs (w k)) p.k))

/-! ## Blocks and groups (07 R189, R197, R201, R523) -/

/-- The columns of block or group column `j`. -/
def Product.cols (p : Product) (j : Nat) : List Nat := List.range' (64 * j) (min 64 (p.n - 64 * j))

/-- The check of one block or group. -/
def mkCheck (kind : CheckKind) (p : Product) (q : Operands) (int : Bool) (index row0 rows j due : Nat) : Check :=
  let ns := p.cols j
  let ms := List.range' row0 rows
  { kind := kind, index := index, row0 := row0, col0 := 64 * j, int := int,
    rows := ms.map (fun m => ns.map (fun n => accumulator p q int m n)),
    cols := ms.map (checkValue p q int ns), mags := if int then [] else ms.map (checkMag p q ns), due := due }

/-- The blocks of the array in their order, with the cycle of each comparison (07 R200, R201). -/
def arrayChecks (p : Product) (q : Operands) (int : Bool) (kap : Nat) : List Check :=
  let l := p.kb * kap
  let lam := max l 64
  (upTo (p.bm * p.nb)).map (fun b =>
    let i := b / p.nb
    mkCheck .array p q int b (512 * i) (min 512 (p.m - 512 * i)) (b % p.nb) (96 + b * lam + l + 63))

/-- The groups of the skink in their order, with the cycle of each comparison (07 R523). -/
def skinkChecks (p : Product) (q : Operands) (int : Bool) (c fill : Nat) : List Check :=
  let pass := ceilDiv (p.nb * p.kb) c
  (upTo (p.m * p.nb)).map (fun g =>
    let m := g / p.nb
    let j := g % p.nb
    mkCheck .skink p q int g m 1 j (24 + fill + m * pass + ((j + 1) * p.kb - 1) / c + 15))

/-- The fill of X in cycles (07 R204): by its first tile's home. -/
def State.fillCycles (s : State) (d : Cmd) (p : Product) (n : Nat) : Nat :=
  let els := p.m * p.kp
  let bytes := els * elemBits p.xFmt / 8 + (if isTwoLevel p.xFmt then els / 16 else 0)
  if p.x = argHandle then 0
  else match s.srcFrame d p.x p.xBase with
    | some f => if tierOf f = 0 ∧ cluOf f = n then ceilDiv bytes 4096 else ceilDiv bytes 512
    | none => 0

/-! ## The drain (07 R187) -/

/-- The value of output (m, n) from its accumulator: BIAS is added (07 R185, R186). -/
def withBias (p : Product) (int : Bool) (bias : Nat → FV) (n acc : Nat) : FV :=
  if int then
    let v := if p.bias = 0 then acc else wrapInt (FV.add (FV.ofNat acc) (bias n))
    FV.ofInt (signed 32 v)
  else if p.bias = 0 then fp32 acc else f32 (FV.add (fp32 acc) (bias n))

/-- The accumulator of (m, n) among the checks that have passed. -/
def drained (cs : List Check) (m n : Nat) : Nat :=
  match cs.find? (fun c => decide (c.row0 ≤ m) && decide (m < c.row0 + c.rows.length) && decide (c.col0 ≤ n) &&
      decide (n < c.col0 + 64)) with
  | some c => listGet 0 (listGet [] c.rows (m - c.row0)) (n - c.col0)
  | none => 0

/-- The amax summary of values: the canonical NaN if one is NaN (08 R230). -/
def amaxOf (vs : List FV) : Nat := if vs.any (fun v => v == .nan) then 0x7FC00000 else enc32 (maxAbs vs)

/-- How a command writes one of its objects. -/
def State.outSpec (s : State) (d : Cmd) (h base slot rnd : Nat) (sat : Bool) : OutSpec :=
  let k := s.srState d
  let narrow : Bool := match s.operandRun h with | some o => isNarrow o.fmt | none => false
  { h := h, base := base, scale := if narrow then s.slotT slot else scaleOne, rnd := rnd, sat := sat, key := k.1, ctr := k.2, seq := s.seqOf d h }

/-- The drain of a product: all outputs converted into shadow tiles, zeros in the padding, and the amax of a narrow output,
whose reducer pair is still to be compared (07 R183, R187; 08 R233). -/
def State.drain (s : State) (n : Nat) (r : Run) (d : Cmd) : State :=
  let p := s.product d.slot
  match s.operandRun p.x, s.operandRun p.w, s.operandRun p.y with
  | some ox, some ow, some oy =>
    let int := intPath p.xFmt ow.fmt oy.fmt
    let q := s.operandsOf d p ox ow oy
    let val := fun m k => withBias p int q.bias k (drained r.passed m k)
    let ws := (upTo p.yRows).flatMap (fun m => (upTo p.yCols).map (fun k =>
      (p.yBase * elemsPerTile oy.fmt + p.yIndex m k, if m < p.m ∧ k < p.n then val m k else FV.zero)))
    let narrow := isNarrow oy.fmt
    let amax := if narrow then amaxOf ((upTo p.m).flatMap (fun m => (upTo p.n).map (fun k => val m k))) else 0
    let outs := s.outTiles d (s.outSpec d p.y p.yBase p.slot p.rnd p.sat) oy ws
    let w := { RunWork.empty with
      amax := if narrow then [(p.slot, BitVec.ofNat 32 amax)] else [],
      detailA := if p.array then 0 else 1, detailB := r.skipped }
    let sum : List Check := if narrow then
        [{ kind := .summary, index := 0, row0 := 0, col0 := 0, int := false, rows := [[0, 0, 0, 0, amax]], cols := [4],
           mags := [], due := r.due }]
      else []
    let c := s.cnt n
    let s1 := if narrow then s else s.setCnt n { c with vecPasses := satAdd 32 c.vecPasses 1 }
    (s1.setRun n { r with checks := sum }).finishWork n d outs w
  | _, _, _ => s

/-! ## The commands on their clusters -/

/-- The condition that a run of a product finds: on its tiles, then on its selected rows (05 R522, 07 R205). -/
def State.productCond (s : State) (d : Cmd) (p : Product) : Option (Nat × Nat × Nat) :=
  match s.firstCond d (s.productReads p) with
  | some x => some x
  | none => s.firstCond d (s.selectedTiles d p)

/-! ## Bytes moved (07 R200, R204) -/

/-- Elements of a region of `n` elements from tile `base` that lie in tile `t`. -/
def regionIn (fmt base n t : Nat) : Nat := min (elemsPerTile fmt) (n - (t - base) * elemsPerTile fmt)

/-- An engine reads one tile's part of a region `times` times: its elements, and the scales of a two-level object. -/
def State.readPart (s : State) (d : Cmd) (n h fmt els times tile : Nat) : State :=
  let s1 := match s.srcFrame d h tile with
    | some f => s.engineReads d.chan n f (els * elemBits fmt / 8) times
    | none => s
  match s1.operandRun h with
  | none => s1
  | some o =>
    if isTwoLevel o.fmt && decide (tile < o.dataTiles) then
      (match s1.srcFrame d (scaleTileOf h o tile).1 (scaleTileOf h o tile).2 with
       | some f => s1.engineReads d.chan n f (els / 16) times
       | none => s1)
    else s1

/-- An engine reads a region of an object `times` times. -/
def State.readRegion (s : State) (d : Cmd) (n h fmt base len times : Nat) : State :=
  if h = argHandle then s
  else (regionTiles fmt base len).foldl (fun t k => t.readPart d n h fmt (regionIn fmt base len k) times k) s

/-- The operand reads of a product: A for every block column, B for every block row on the array; W for every input row on the
skink, or each selected row; ACC_IN, BIAS and the copied output tiles once (07 R196, R200, R204). -/
def State.readProduct (s : State) (d : Cmd) (n : Nat) (p : Product) (wFmt wRow : Nat) : State :=
  let a := s.readRegion d n p.x p.xFmt p.xBase p.xSize (if p.array then p.nb else 1)
  let b := if p.sel.isSome then a.readRows d n wRow (s.selectedRows d p)
    else a.readRegion d n p.w wFmt p.wBase p.wSize (if p.array then p.bm else p.m)
  let c := if p.acc = 0 then b else b.readRegion d n p.acc 0x04 p.yBase p.ySize 1
  let e := if p.bias = 0 then c else c.readRegion d n p.bias 0x04 0 p.n 1
  e.readTiles d n (s.withScales (s.productParts p))

/-- Start the device work of a `GEMM` or `MATVEC` on cluster `n`: the operands are taken, once none of them is in the cellar (01
R20), and the blocks or groups set up to be compared. -/
def State.runProduct (s : State) (n op : Nat) : State :=
  match s.fresh n op with
  | none => s
  | some (r, d) =>
    let p := s.product d.slot
    let far := s.farTiles (s.productReads p ++ s.selectedTiles d p)
    if !far.isEmpty then s.fetchAll d far
    else match s.productCond d p with
    | some x => s.stopFound n d x
    | none =>
      match s.operandRun p.x, s.operandRun p.w, s.operandRun p.y with
      | some ox, some ow, some oy =>
        let int := intPath p.xFmt ow.fmt oy.fmt
        let q := s.operandsOf d p ox ow oy
        let cs := if p.array then arrayChecks p q int (kappa p.xFmt ow.fmt)
          else skinkChecks p q int (chunkRate p.xFmt ow.fmt) (s.fillCycles d p n)
        let due := match cs.getLast? with | some c => c.due | none => 0
        let reads := s.withScales (s.productReads p) ++ s.selectedTiles d p
        (s.readProduct d n p ow.fmt ow.rowBytes).prepare n r (s.framesOf d reads) cs none due
      | _, _, _ => s

/-- `GEMM` (07 R185, R201). -/
def execGemm (clu : Nat) (s : State) : Host.Outcome State Fault Refusal := done (s.runProduct clu 0x20)

/-- `MATVEC` (07 R185, R523). -/
def execMatvec (clu : Nat) (s : State) : Host.Outcome State Fault Refusal := done (s.runProduct clu 0x21)

/-! ## Comparisons (07 R190, R197) -/

/-- Invert a bit of one accumulator of a check; lane 64 is the check column. -/
def Check.invert (c : Check) (row lane bit : Nat) : Check :=
  if lane = 64 then { c with cols := listSet c.cols row ((listGet 0 c.cols row) ^^^ 2 ^ (bit % 32)) }
  else
    let v := listGet [] c.rows row
    { c with rows := listSet c.rows row (listSet v lane ((listGet 0 v lane) ^^^ 2 ^ (bit % 32))) }

/-- The outcome of one row's comparison: `none` skipped, else whether it passes (07 R190). -/
def Check.row (c : Check) (kb slack : Nat) (fpCheck : Bool) (i : Nat) : Option Bool :=
  let acc := listGet [] c.rows i
  let chk := listGet 0 c.cols i
  if c.int then some ((acc.foldl (· + ·) 0) % 2 ^ 32 == chk % 2 ^ 32)
  else
    let sg := sum32 (acc.map fp32)
    let cv := fp32 chk
    let mg := fp32 (listGet 0 c.mags i)
    if !fpCheck || sg.special || cv.special || mg.special then none
    else some (FV.le (FV.add sg cv.neg).abs (FV.mul (FV.mul (FV.ofNat (2 * kb + 68)) (pow2 ((slack : Int) - 24))) mg))

/-- The rows of a check that fail, and how many are skipped. -/
def Check.verdict (c : Check) (kb slack : Nat) (fpCheck : Bool) : List Nat × Nat :=
  let rs := (upTo c.rows.length).map (fun i => (i, c.row kb slack fpCheck i))
  ((rs.filter (fun x => x.2 == some false)).map Prod.fst, (rs.filter (fun x => x.2 == none)).length)

/-- Count a comparison in the array's or the skink's registers (07 R206). -/
def CluCnt.count (c : CluCnt) (kind : CheckKind) (fails skips : Nat) (last : Option Nat) : CluCnt :=
  if kind = .array then
    { c with mxaBlocks := satAdd 32 c.mxaBlocks 1, mxaMismatch := satAdd 16 c.mxaMismatch fails,
             mxaSkipped := satAdd 16 c.mxaSkipped skips,
             mxaLast := match last with | some v => BitVec.ofNat 32 v | none => c.mxaLast }
  else
    { c with mvpBlocks := satAdd 32 c.mvpBlocks 1, mvpMismatch := satAdd 16 c.mvpMismatch fails,
             mvpSkipped := satAdd 16 c.mvpSkipped skips,
             mvpLast := match last with | some v => BitVec.ofNat 32 v | none => c.mvpLast }

/-- An armed injection falls on this check (07 R206): the array's on the next block, the skink's on the next group of its
row. -/
def State.injected (s : State) (n : Nat) (c : Check) : Option (Nat × Nat × Nat) :=
  if c.kind = .array then
    if s.fld .clu n 0x114 31 31 = 1 then some (s.fld .clu n 0x114 8 0, s.fld .clu n 0x114 14 9, s.fld .clu n 0x114 19 15)
    else none
  else if s.fld .clu n 0x154 31 31 = 1 ∧ s.fld .clu n 0x154 2 0 = c.row0 then
    some (0, s.fld .clu n 0x154 8 3, s.fld .clu n 0x154 13 9)
  else none

/-- Compare the next block or group of a cluster's run. -/
def State.compare (s : State) (n : Nat) (kind : CheckKind) (g : Option Glitch) : State :=
  match s.running n with
  | none => s
  | some (r, d) =>
    match r.checks with
    | [] => s
    | c :: rest =>
      if !s.on || c.kind != kind || decide (s.elapsed r < c.due) || decide (s.G ≤ s.clk.cyc) then s
      else
        let arr : Bool := kind == .array
        let status := if arr then 0x104 else 0x144
        let inj := s.injected n c
        let c1 := match inj with | some (i, l, b) => c.invert i l b | none => c
        let c2 := match g with | some x => c1.invert (if arr then x.row else 0) x.lane x.bit | none => c1
        let cfg := if arr then 0x100 else 0x140
        let v : List Nat × Nat := c2.verdict (s.product d.slot).kb (s.fld .clu n cfg 3 0) (s.fld .clu n cfg 4 4 == 1)
        let last := v.1.getLast?.map (fun i => (if arr then i else c.row0) + (c.index % 65536) * 65536)
        let s1 := match inj with | some _ => s.consume n (if arr then 0x114 else 0x154) status | none => s
        let s2 := s1.setCnt n ((s1.cnt n).count kind v.1.length v.2 last)
        let s3 := if v.2 = 0 then s2 else s2.raise .clu n status 2
        if !v.1.isEmpty then (s3.raise .clu n status 1).trigger n 1
        else
          let r1 := { r with checks := rest, passed := r.passed ++ [c2], skipped := r.skipped + v.2 }
          let s4 := s3.setRun n r1
          if rest.isEmpty then s4.drain n r1 d else s4

/-- `ARRAY_BLOCK_COMPARE` (07 R190, R191). -/
def execArrayBlockCompare (clu : Nat) (g : Option Glitch) (s : State) : Host.Outcome State Fault Refusal :=
  done (s.compare clu .array g)

/-- `SKINK_GROUP_COMPARE` (07 R197, R523). -/
def execSkinkGroupCompare (clu : Nat) (g : Option Glitch) (s : State) : Host.Outcome State Fault Refusal :=
  done (s.compare clu .skink g)

/-! ## The summary comparison (08 R233) -/

/-- `SUMMARY_COMPARE`: the duplicate reducers of a pass are compared in its last cycle. A glitch inverts a bit of the second
reducer of pair `lane` (08 R233, R239). -/
def State.summaryCompare (s : State) (n : Nat) (g : Option Glitch) : State :=
  match s.running n with
  | none => s
  | some (r, _) =>
    match r.checks with
    | [] => s
    | c :: rest =>
      if !s.on || c.kind != .summary || decide (s.elapsed r < c.due) || decide (s.G ≤ s.clk.cyc) then s
      else
        let unit := s.fld .clu n 0x194 2 0
        let armed : Bool := s.fld .clu n 0x194 31 31 == 1 && c.cols.contains unit
        let first := listGet [] c.rows 0
        let second0 := if armed then listSet first unit ((listGet 0 first unit) ^^^ 2 ^ s.fld .clu n 0x194 12 8) else first
        let second := match g with
          | some x => listSet second0 x.lane ((listGet 0 second0 x.lane) ^^^ 2 ^ (x.bit % 32))
          | none => second0
        let differ := c.cols.filter (fun u => listGet 0 first u != listGet 0 second u)
        let k := s.cnt n
        let s1 := s.setCnt n { k with vecPasses := satAdd 32 k.vecPasses 1 }
        let s2 := if armed then s1.consume n 0x194 0x184 else s1
        let check : Bool := s.fld .clu n 0x180 0 0 == 1
        match (if check then differ.getLast? else none) with
        | some u =>
          let k2 := s2.cnt n
          let last := (k2.vecLast.toNat / 8 * 8 + u)
          let s3 := s2.setCnt n { k2 with vecAnomalies := satAdd 16 k2.vecAnomalies 1, vecLast := BitVec.ofNat 32 last }
          (s3.raise .clu n 0x184 1).trigger n 2
        | none => s2.setRun n { r with checks := rest }

/-- `SUMMARY_COMPARE` (08 R233). -/
def execSummaryCompare (clu : Nat) (g : Option Glitch) (s : State) : Host.Outcome State Fault Refusal :=
  done (s.summaryCompare clu g)

end Sys2Proof.Machine
end

