-- ==== Sys2Proof/Machine/Transc.lean ====
section
/-! DEFINITION. The functions of the vector engine's special stages (08 R222) to 512 binary places, so that one rounding of
them rounds as the exact results do (DESIGN CHOICE, log entry 21). -/

namespace Sys2Proof.Machine

/-- Binary places of the fixed-point numbers here. -/
def fixP : Nat := 512

/-- One in fixed point. -/
def fixOne : Int := 2 ^ fixP

/-- A fixed-point product. -/
def fixMul (a b : Int) : Int := a * b / fixOne

/-- A fixed-point number as an exact value scaled by 2^k. -/
def fixVal (v : Int) (k : Int) : FV := .fin (decide (v < 0)) v.natAbs (k - fixP)

/-- A finite value in fixed point, rounded down. -/
def toFix : FV → Int
  | .fin s m e =>
    let v : Int := if 0 ≤ e + fixP then ((m * 2 ^ (e + fixP).toNat : Nat) : Int) else ((m / 2 ^ (-(e + fixP)).toNat : Nat) : Int)
    if s then -v else v
  | _ => 0

/-- The exponential series from term `t` with index `i` on. -/
def expTerms (x : Int) : Nat → Nat → Int → Int
  | 0, _, _ => 0
  | n + 1, i, t => let u := fixMul t x / ((i + 1 : Nat) : Int); t + expTerms x n (i + 1) u

/-- z + z^3/3 + z^5/5 + …, from power `p` with divisor `i` on. -/
def atanhTerms (z2 : Int) : Nat → Nat → Int → Int
  | 0, _, _ => 0
  | n + 1, i, p => p / (i : Int) + atanhTerms z2 n (i + 2) (fixMul p z2)

/-- ln of a fixed-point number near 1, by 2 atanh((y - 1) / (y + 1)). -/
def lnNear (y : Int) : Int :=
  let z := (y - fixOne) * fixOne / (y + fixOne)
  2 * atanhTerms (fixMul z z) 180 1 z

/-- ln 2. -/
def fixLn2 : Int := lnNear (2 * fixOne)

/-- 2 atan(1 / n) terms of Machin's series for pi. -/
def atanTerms (n2 : Int) : Nat → Nat → Int → Int
  | 0, _, _ => 0
  | k + 1, i, p => p / (i : Int) - atanTerms n2 k (i + 2) (p / n2)

/-- pi, by 16 atan(1/5) - 4 atan(1/239). -/
def fixPi : Int :=
  16 * atanTerms 25 130 1 (fixOne / 5) - 4 * atanTerms 57121 40 1 (fixOne / 239)

/-- e^x for a fixed-point x: a fixed-point mantissa in [1, 2) or so, and a power of two. -/
def fixExp (x : Int) : Int × Int :=
  let k := x / fixLn2
  (expTerms (x - k * fixLn2) 120 0 fixOne, k)

/-- e^x in fixed point. -/
def fixExpVal (x : Int) : Int :=
  let r := fixExp x
  if 0 ≤ r.2 then r.1 * 2 ^ r.2.toNat else r.1 / 2 ^ (-r.2).toNat

/-- A value so close to another that no rounding format tells the difference but the side on which it lies. -/
def nudge : Int := -700

/-- e^A (08 R222). -/
def fvExp : FV → FV
  | .nan => .nan
  | .inf s => if s then FV.zero else .inf false
  | .fin s m e =>
    if m = 0 then FV.ofNat 1
    else if FV.lt (FV.ofNat 1000) (.fin false m e) then (if s then .fin false 1 nudge else .inf false)
    else let r := fixExp (toFix (.fin s m e)); fixVal r.1 r.2

/-- ln A (08 R222). -/
def fvLog : FV → FV
  | .nan => .nan
  | .inf s => if s then .nan else .inf false
  | .fin s m e =>
    if m = 0 then .inf true
    else if s then .nan
    else
      let n := bitLen m
      let y : Int := ((m * 2 ^ fixP : Nat) : Int) / 2 ^ (n - 1)
      let k : Int := e + n - 1
      if fixOne * 14 / 10 < y then
        let y2 := y / 2
        fixVal (lnNear y2 + (k + 1) * fixLn2) 0
      else fixVal (lnNear y + k * fixLn2) 0

/-- 1 / (1 + e^-A) (08 R222). -/
def fvSigmoid : FV → FV
  | .nan => .nan
  | .inf s => if s then FV.zero else FV.ofNat 1
  | .fin s m e =>
    if FV.lt (FV.ofNat 300) (.fin false m e) then
      (if s then .fin false 1 (-420) else FV.add (FV.ofNat 1) (.fin true 1 (-420)))
    else
      let x := toFix (.fin s m e)
      if x < 0 then let v := fixExpVal x; fixVal (v * fixOne / (fixOne + v)) 0
      else let v := fixExpVal (-x); fixVal (fixOne * fixOne / (fixOne + v)) 0

/-- tanh A (08 R222). -/
def fvTanh : FV → FV
  | .nan => .nan
  | .inf s => .fin s 1 0
  | .fin s m e =>
    if m = 0 then .fin s 0 0
    else if FV.lt (FV.ofNat 300) (.fin false m e) then
      (match FV.add (FV.ofNat 1) (.fin true 1 (-420)) with | .fin _ a b => .fin s a b | v => v)
    else
      let v := fixExpVal (2 * toFix (.fin false m e))
      match fixVal ((v - fixOne) * fixOne / (v + fixOne)) 0 with
      | .fin _ a b => .fin s a b
      | w => w

/-- A x SIGMOID(A), with the limits of 08 R221. -/
def fvSilu : FV → FV
  | .nan => .nan
  | .inf s => if s then .fin true 0 0 else .inf false
  | v => FV.mul v (fvSigmoid v)

/-- x + x^3/3 + x^5/(3 x 5) + …, from term `t` with divisor `i` on. -/
def phiTerms (x2 : Int) : Nat → Nat → Int → Int
  | 0, _, _ => 0
  | n + 1, i, t => t + phiTerms x2 n (i + 2) (fixMul t x2 / ((i + 2 : Nat) : Int))

/-- The standard normal distribution function of a magnitude below 28, less one half, in fixed point. -/
def phiHalf (x : Int) : Int :=
  let x2 := fixMul x x
  let s := phiTerms x2 2200 1 x
  let d := fixExp (-(x2 / 2))
  let root : Int := (isqrt (2 * fixPi * fixOne).toNat : Nat)
  let v := s * d.1 / root
  if 0 ≤ d.2 then v * 2 ^ d.2.toNat else v / 2 ^ (-d.2).toNat

/-- A x PHI(A), with the limits of 08 R221. -/
def fvGelu : FV → FV
  | .nan => .nan
  | .inf s => if s then .fin true 0 0 else .inf false
  | .fin s m e =>
    if m = 0 then .fin s 0 0
    else if FV.lt (FV.ofNat 27) (.fin false m e) then
      (if s then .fin true 1 nudge else FV.add (.fin false m e) (.fin true 1 nudge))
    else
      let h := phiHalf (toFix (.fin false m e))
      FV.mul (.fin s m e) (fixVal (if s then fixOne / 2 - h else fixOne / 2 + h) 0)

/-- 1 / √A, with a last bit that says whether anything is left over. -/
def fvRsqrt : FV → FV
  | .nan => .nan
  | .inf s => if s then .nan else FV.zero
  | .fin s m e =>
    if m = 0 then .inf s
    else if s then .nan
    else
      let k : Nat := 2 * bitLen m + 200 + (if e % 2 = 0 then 0 else 1)
      let n := 2 ^ k / m
      let r := isqrt n
      .fin false (2 * r + (if r * r * m = 2 ^ k then 0 else 1)) ((-e - k) / 2 - 1)

end Sys2Proof.Machine
end

