-- ==== Sys2Proof/Machine/Vector.lean ====
section
/-! DEFINITION. `VCHAIN` on the vector engine (08 R207 to R239): the program block and its checks, the iteration space,
stages, reduction, output and summaries. -/

namespace Sys2Proof.Machine

/-! ## Working formats (08 R207) -/

/-- Lanes of a vector, 0 where the code is no working format. -/
def wfLanes (wf : Nat) : Nat :=
  match wf with | 0x04 => 256 | 0x05 => 512 | 0x06 => 512 | 0x0C => 256 | 0x0A => 1024 | 0x07 => 1024 | 0x08 => 1024 | _ => 0

/-- An integer working format. -/
def wfInt (wf : Nat) : Bool := wf == 0x0C || wf == 0x0A

/-- Conversion of a source value: RNE, saturating (08 R209). -/
def toWf (wf : Nat) (v : FV) : FV := decodeElem wf (convert wf .rne true v)

/-- One rounding of an exact result to the working format; integers saturate (08 R221). -/
def roundWf (wf : Nat) (rnd : Rnd) (v : FV) : FV := decodeElem wf (convert wf rnd false v)

/-- The integer of an integer value. -/
def intOf (v : FV) : Int := match v with | .fin s m e => finInt s m e 0 | _ => 0

/-- The largest and the least value of an integer working format. -/
def wfMax (wf : Nat) : Int := 2 ^ (elemBits wf - 1) - 1
def wfMin (wf : Nat) : Int := -(2 ^ (elemBits wf - 1))

/-- An immediate in the working format (08 R220). -/
def immOf (wf v : Nat) : FV :=
  if wfInt wf then roundWf wf .rne (FV.ofInt (signed 32 v)) else decodeElem wf (v % 2 ^ elemBits wf)

/-! ## The program block (08 R235) -/

/-- A stage. -/
structure VStage where
  op : Nat
  aSel : Nat
  bSel : Nat
  mask : Nat
  rnd : Nat
  keep : Bool
  mcomb : Nat
  imm : Nat
  deriving DecidableEq, Repr

/-- A summary unit. -/
structure VUnit where
  src : Nat
  kind : Nat
  pred : Nat
  predEn : Bool
  cmp : Nat
  slot : Nat
  toSlot : Bool
  useM : Bool
  thresh : Nat
  deriving DecidableEq, Repr

/-- A descriptor. -/
structure VDesc where
  base : Nat
  asFmt : Nat
  linear : Bool
  wmask : Bool
  offset : Nat
  stride : List Int
  deriving DecidableEq, Repr

/-- A program with the slot's dynamic values put in. -/
structure VProg where
  wf : Nat
  nsrc : Nat
  tri : Nat
  redDims : Nat
  redOp : Nat
  redUseM : Bool
  postMul : Nat
  postOp : Nat
  ext : List Nat
  desc : List VDesc
  stages : List VStage
  units : List VUnit
  deriving DecidableEq, Repr

/-- Stage `k` of a block. -/
def vstage (b slot : List Byte) (k : Nat) : VStage :=
  let o := 160 + 8 * k
  let v := leField b (o + 1) 1
  let w := leField b (o + 2) 1
  { op := leField b o 1, aSel := bitsOf v 2 0, bSel := bitsOf v 5 3, mask := bitsOf v 7 6, rnd := bitsOf w 1 0,
    keep := w.testBit 2, mcomb := opBits b (o + 3) 1 1 0,
    imm := if w.testBit 3 then op32 slot (if w.testBit 4 then 44 else 40) else op32 b (o + 4) }

/-- Summary unit `u` of a block. -/
def vunit (b : List Byte) (u : Nat) : VUnit :=
  let o := 224 + 8 * u
  let v := leField b (o + 1) 1
  let w := leField b (o + 2) 2
  { src := opBits b o 1 3 0, kind := opBits b o 1 7 4, pred := bitsOf v 3 0, predEn := v.testBit 4, cmp := bitsOf v 7 5,
    slot := bitsOf w 9 0, toSlot := w.testBit 10, useM := w.testBit 11, thresh := op32 b (o + 4) }

/-- Descriptor `q` of a block. -/
def vdesc (b : List Byte) (q : Nat) : VDesc :=
  let o := 32 + 32 * q
  let v := op32 b o
  { base := bitsOf v 23 0, asFmt := bitsOf v 28 24, linear := v.testBit 29, wmask := v.testBit 30, offset := op32 b (o + 4),
    stride := (upTo 5).map (fun d => signed 32 (op32 b (o + 8 + 4 * d))) }

/-- Extent `d` of a block; a reserved DYN reads 0. -/
def vext (b slot : List Byte) (d : Nat) : Nat :=
  let v := op32 b (12 + 4 * d)
  match bitsOf v 25 24 with | 0 => bitsOf v 23 0 | 1 => op32 slot 40 | 2 => op32 slot 44 | _ => 0

/-- The program of a block under a slot. -/
def vprog (b slot : List Byte) : VProg :=
  { wf := opBits b 1 1 4 0, nsrc := opBits b 2 1 1 0, tri := opBits b 2 1 3 2, redDims := opBits b 3 1 1 0,
    redOp := opBits b 3 1 3 2, redUseM := opBits b 3 1 4 4 == 1, postMul := op32 b 4, postOp := leField b 8 1,
    ext := (upTo 5).map (vext b slot), desc := (upTo 4).map (vdesc b),
    stages := (upTo (min 8 (opBits b 0 1 3 0))).map (vstage b slot), units := (upTo 4).map (vunit b) }

/-! ## The iteration space (08 R211 to R213) -/

/-- Extent `d`. -/
def VProg.e (v : VProg) (d : Nat) : Nat := listGet 0 v.ext d

/-- The number of points, I. -/
def VProg.count (v : VProg) : Nat :=
  let pairs := match v.tri with
    | 0 => v.e 1 * v.e 2
    | 1 => v.e 1 * (v.e 1 - 1) / 2
    | _ => v.e 1 * (v.e 1 + 1) / 2
  v.e 0 * pairs * v.e 3 * v.e 4

/-- Whether a pair of indices exists under TRI. -/
def triOk (tri i1 i2 : Nat) : Bool :=
  match tri with | 0 => true | 1 => decide (i1 < i2) | _ => decide (i1 ≤ i2)

/-- The points in iteration order, each as (i0, …, i4). -/
def VProg.points (v : VProg) : List (List Nat) :=
  (upTo (v.e 4)).flatMap (fun i4 => (upTo (v.e 3)).flatMap (fun i3 => (upTo (v.e 2)).flatMap (fun i2 =>
    ((upTo (v.e 1)).filter (fun i1 => triOk v.tri i1 i2)).flatMap (fun i1 =>
      (upTo (v.e 0)).map (fun i0 => [i0, i1, i2, i3, i4])))))

/-- Σ i_d × STRIDE[d] from dimension `d` on. -/
def strideSum (pt : List Nat) (st : List Int) (d : Nat) : Int :=
  (((pt.zip st).drop d).map (fun x => (x.1 : Int) * x.2)).foldl (· + ·) 0

/-- The number of an element in its object, from its number counted from BASE_TILE. -/
def VDesc.elem (x : VDesc) (fmt : Nat) (a : Int) : Nat := ((x.base * elemsPerTile fmt : Nat) + a).toNat

/-- Element of a source at point `pt`, the `p`-th (08 R212). -/
def VDesc.srcElem (x : VDesc) (fmt : Nat) (pt : List Nat) (p : Nat) : Nat :=
  x.elem fmt (if x.linear then (x.offset + p : Nat) else (x.offset : Int) + strideSum pt x.stride 0)

/-- The least and greatest of i1 x a + i2 x b over the pairs that exist: at the corners of the space (08 R211). -/
def VProg.pairRange (v : VProg) (a b : Int) : Int × Int :=
  let n : Int := (v.e 1 : Nat)
  let m : Int := (v.e 2 : Nat)
  let cs : List (Int × Int) := match v.tri with
    | 0 => [(0, 0), (n - 1, 0), (0, m - 1), (n - 1, m - 1)]
    | 1 => [(0, 1), (0, n - 1), (n - 2, n - 1)]
    | _ => [(0, 0), (0, n - 1), (n - 1, n - 1)]
  let vs := cs.map (fun c => c.1 * a + c.2 * b)
  (vs.foldl min (listGet 0 vs 0), vs.foldl max (listGet 0 vs 0))

/-- The least and greatest of the sum over strides, those below dimension `d` counted as 0. -/
def VProg.strideRange (v : VProg) (st : List Int) (d : Nat) : Int × Int :=
  let s := (indexed 0 st).map (fun x => if x.1 < d then (0 : Int) else x.2)
  let one := fun (k : Nat) =>
    let w := ((v.e k : Nat) - 1 : Int) * listGet 0 s k
    (min 0 w, max 0 w)
  let p := v.pairRange (listGet 0 s 1) (listGet 0 s 2)
  let rs := [one 0, p, one 3, one 4]
  ((rs.map Prod.fst).foldl (· + ·) 0, (rs.map Prod.snd).foldl (· + ·) 0)

/-- The number of output points (08 R213): those that some point of the space lies in. -/
def VProg.outCount (v : VProg) : Nat :=
  let i2s := match v.tri with | 1 => v.e 2 - 1 | _ => v.e 2
  match v.redDims with
  | 0 => v.count
  | 1 => v.count / max (v.e 0) 1
  | _ => i2s * v.e 3 * v.e 4

/-- A descriptor reaches outside `n` data tiles of a format at some point (08 R236). -/
def VProg.outside (v : VProg) (x : VDesc) (fmt n d count : Nat) : Bool :=
  let r := if x.linear then ((0 : Int), (count : Int) - 1) else v.strideRange x.stride d
  let e := elemsPerTile fmt
  decide (((x.base * e : Nat) : Int) + x.offset + r.1 < 0) || decide (((n * e : Nat) : Int) ≤ ((x.base * e : Nat) : Int) + x.offset + r.2)

/-! ## The checks (08 R236) -/

/-- A stage of kind X of the table of 08 R222. -/
def opExact (op : Nat) : Bool :=
  op == 0x01 || (decide (0x07 ≤ op) && decide (op ≤ 0x0C)) || (decide (0x20 ≤ op) && decide (op ≤ 0x24)) ||
  (decide (0x30 ≤ op) && decide (op ≤ 0x33))
/-- A float-only stage. -/
def opFloat (op : Nat) : Bool := decide (0x10 ≤ op) && decide (op ≤ 0x18)
/-- An integer-only stage. -/
def opInt (op : Nat) : Bool := decide (0x28 ≤ op) && decide (op ≤ 0x2C)
/-- A stage allowed in the working formats but FP8. -/
def opArith (op : Nat) : Bool := decide (0x02 ≤ op) && decide (op ≤ 0x06)

/-- A stage is allowed in a working format (08 R207, R222). -/
def opAllowed (wf op : Nat) : Bool :=
  opExact op || (opArith op && wf != 0x07 && wf != 0x08) || (opFloat op && (wf == 0x04 || wf == 0x05 || wf == 0x06)) ||
  (opInt op && wfInt wf)

/-- A special stage: r = 2 (08 R222). -/
def opSpecial (wf op : Nat) : Bool := opFloat op || (op == 0x06 && !wfInt wf)

/-- A compare stage. -/
def opCompare (op : Nat) : Bool := decide (0x20 ≤ op) && decide (op ≤ 0x23)

/-- POST_OP: kind X or F, reading A only (08 R235). -/
def postOk (wf op : Nat) : Bool :=
  op == 0 || (opAllowed wf op && (op == 0x01 || op == 0x09 || op == 0x0A || op == 0x0B || opFloat op))

/-- A PERMUTE pattern is valid in a working format (08 R223). -/
def permOk (wf imm : Nat) : Bool :=
  decide (bitsOf imm 3 0 ≤ 5) && decide (2 ^ bitsOf imm 7 4 ≤ wfLanes wf) &&
  !(bitsOf imm 3 0 == 4 && bitsOf imm 7 4 % 2 == 1)

/-- A stage breaks 08 R236. -/
def VStage.bad (x : VStage) (wf nsrc : Nat) : Bool :=
  !opAllowed wf x.op || decide (2 ≤ x.rnd) || x.mask == 3 || x.mcomb == 3 || (x.mcomb != 0 && !opCompare x.op) ||
  [x.aSel, x.bSel].any (fun c => c == 7 || (decide (1 ≤ c) && decide (c ≤ 3) && decide (nsrc < c))) ||
  (x.op == 0x30 && !permOk wf x.imm)

/-- A summary unit breaks 08 R236. -/
def VUnit.bad (x : VUnit) (nst : Nat) : Bool :=
  x.src != 0 && (decide (11 ≤ x.src) || (decide (x.src ≤ 8) && decide (nst < x.src)) || decide (7 ≤ x.kind) ||
    decide (6 ≤ x.cmp) || (x.toSlot && x.kind != 0))

/-- The reserved fields of a block that are not zero: (byte, bytes, mask) (08 R235). -/
def progReserved (b : List Byte) : Bool :=
  ([(0, 1, 0xF0), (1, 1, 0xE0), (2, 1, 0xF0), (3, 1, 0xE0), (9, 3, 0xFFFFFF)] ++
   (upTo 5).map (fun d => (12 + 4 * d, 4, 0xFC000000)) ++
   (upTo 4).map (fun q => (32 + 32 * q, 4, if q = 3 then 0x80000000 else 0xC0000000)) ++
   (upTo 4).map (fun q => (60 + 32 * q, 4, 0xFFFFFFFF)) ++
   (upTo 8).map (fun k => (162 + 8 * k, 1, 0xE0)) ++ (upTo 8).map (fun k => (163 + 8 * k, 1, 0xFC)) ++
   (upTo 4).map (fun u => (226 + 8 * u, 2, 0xF000))).any (fun r => (leField b r.1 r.2.1) &&& r.2.2 != 0)

/-- What must be all zero because it is not used (08 R236). -/
def progUnused (b : List Byte) (nst nsrc dst : Nat) : Bool :=
  !((List.range' nst (8 - nst)).all (fun k => allZero ((b.drop (160 + 8 * k)).take 8)) &&
    (upTo 4).all (fun u => opBits b (224 + 8 * u) 1 3 0 != 0 || allZero ((b.drop (224 + 8 * u)).take 8)) &&
    (List.range' nsrc (3 - nsrc)).all (fun q => allZero ((b.drop (32 + 32 * q)).take 32)) &&
    (dst != 0 || allZero ((b.drop 128).take 32)))

/-- The iteration space is allowed (08 R211, R236). -/
def VProg.spaceOk (v : VProg) : Bool :=
  v.tri != 3 && v.ext.all (fun e => decide (1 ≤ e)) && (v.tri == 0 || v.e 1 == v.e 2) && decide (1 ≤ v.count) &&
  decide (v.count ≤ 2 ^ 29)

/-- The block itself breaks 08 R236. -/
def progBad (b slot : List Byte) : Bool :=
  let v := vprog b slot
  progReserved b || decide (8 < opBits b 0 1 3 0) || wfLanes v.wf == 0 || !v.spaceOk || v.redDims == 3 ||
  progUnused b (min 8 (opBits b 0 1 3 0)) v.nsrc (op32 slot 28) || v.stages.any (fun x => x.bad v.wf v.nsrc) ||
  !postOk v.wf v.postOp || (fp32 v.postMul).special || (wfInt v.wf && v.postMul != 0) ||
  v.units.any (fun x => x.bad v.stages.length)

/-- The handle of source `q`, or of DST for 3. -/
def vHandle (slot : List Byte) (q : Nat) : Nat := op32 slot (16 + 4 * q)

/-- The format in which an object is read or written; none where 08 R215 forbids it. -/
def vFmt (o : Obj) (x : VDesc) (dst arg : Bool) : Option Nat :=
  if o.fmt = 0 then (if !dst && isPlain x.asFmt then some x.asFmt else none)
  else if arg then none
  else if (isPlain o.fmt || isTwoLevel o.fmt) && x.asFmt == 0 then some o.fmt
  else none

/-- A descriptor's object breaks 08 R215 or is reached beyond its ends. -/
def State.vDescBad (s : State) (v : VProg) (slot : List Byte) (q : Nat) : Bool :=
  let h := vHandle slot q
  let x := listGet ⟨0, 0, false, false, 0, []⟩ v.desc q
  if h = 0 then false
  else match s.operand h with
    | none => true
    | some o =>
      match vFmt o x (q == 3) (h == argHandle) with
      | none => true
      | some f => v.spaceOk && v.outside x f o.dataTiles (if q = 3 then v.redDims else 0) (if q = 3 then v.outCount else v.count)

/-- Where the program block is read from: the tile of PROG (08 R234). -/
def progTile (slot : List Byte) : Nat := opBits slot 36 4 23 0 / 4096

/-- PROG names no RAW object that holds the block, or its offset is not aligned: the offsets, with those of the other
operands that name no object (08 R236). Where the block can be read, `vchainBad` holds every condition. -/
def State.progPlaceBad (s : State) (slot : List Byte) : List Nat :=
  let off := opBits slot 36 4 23 0
  let place := (if op32 slot 32 = argHandle then [32] else match s.liveObj (op32 slot 32) with
    | none => [32]
    | some o => if o.fmt ≠ 0 ∨ o.tiles * 4096 < off + 256 then [32] else []) ++
  (if off % 256 ≠ 0 then [36] else [])
  if place = [] then []
  else place ++
    ((upTo 4).filter (fun q => vHandle slot q != 0 && (s.operand (vHandle slot q)).isNone)).map (fun q => 16 + 4 * q) ++
    (if op32 slot 48 ≠ 0 ∧ (s.liveObj (op32 slot 48)).isNone = true then [48] else [])

/-- The conditions of 08 R236 under a block, as offsets. -/
def State.vchainBad (s : State) (slot b : List Byte) : List Nat :=
  let v := vprog b slot
  let so := op32 slot 48
  (if progBad b slot then [32] else []) ++
  ((upTo 3).filter (fun q => (vHandle slot q != 0) != decide (q < v.nsrc))).map (fun q => 16 + 4 * q) ++
  ((upTo 4).filter (s.vDescBad v slot)).map (fun q => 16 + 4 * q) ++
  (if so = 0 then [] else
    (match s.liveObj so with
     | none => [48]
     | some o => if o.fmt ≠ (if wfInt v.wf then 0x0C else 0x04) ∨ o.dataTiles * 1024 < opBits slot 52 4 23 0 + 4 then [48] else []) ++
    (if opBits slot 52 4 23 0 % 4 ≠ 0 then [52] else [])) ++
  (if opBits slot 56 4 11 10 = 3 then [56] else [])

/-- The bytes of a command's program block as they stand now. -/
def State.progBytes (s : State) (d : Cmd) : List Byte := s.objBytes d (op32 d.slot 32) (opBits d.slot 36 4 23 0) 256

/-- The copy of the program block that a command's runs use (08 R236). -/
def State.progOf (s : State) (d : Cmd) : VProg := vprog (s.extra d.id).prog d.slot

/-! ## Stages (08 R216 to R224) -/

/-- A lane that is not a tail lane: the point, P, T, M, its source elements and the results of its stages. -/
structure Lane where
  pt : List Nat
  p : FV
  t : FV
  m : Bool
  src : List FV
  hist : List FV
  deriving Repr

/-- A before B in the order of MIN and MAX: −0 lies below +0 (08 R221). -/
def fvBelow (a b : FV) : Bool :=
  FV.lt a b || (a.isZero && b.isZero && (match a, b with | .fin true _ _, .fin false _ _ => true | _, _ => false))

/-- MAX and MIN (08 R221). -/
def fvMax (a b : FV) : FV := if a == .nan || b == .nan then .nan else if fvBelow a b then b else a
def fvMin (a b : FV) : FV := if a == .nan || b == .nan then .nan else if fvBelow b a then b else a

/-- A bitwise operation or shift of an integer working format (08 R222). -/
def bitOp (wf op : Nat) (a b : FV) : FV :=
  let w := elemBits wf
  let x := wrap w (intOf a)
  let y := wrap w (intOf b)
  let n := (intOf b % (w : Int)).toNat
  match op with
  | 0x28 => FV.ofInt (signed w (x &&& y))
  | 0x29 => FV.ofInt (signed w (x ||| y))
  | 0x2A => FV.ofInt (signed w (x ^^^ y))
  | 0x2B => FV.ofInt (signed w ((x * 2 ^ n) % 2 ^ w))
  | _ => FV.ofInt (intOf a / (2 : Int) ^ n)

/-- DIV with its lane fault (08 R218, R221). -/
def divOp (wf : Nat) (rnd : Rnd) (a b : FV) : FV × Bool :=
  if wfInt wf then
    if intOf b = 0 then
      (FV.ofInt (if intOf a = 0 then 0 else if 0 < intOf a then wfMax wf else wfMin wf), true)
    else (roundWf wf .rne (FV.ofInt (Int.tdiv (intOf a) (intOf b))), false)
  else (roundWf wf rnd (FV.div a b), false)

/-- A stage operation on one lane: result and lane fault (08 R221, R222). -/
def laneOp (wf op : Nat) (rnd : Rnd) (a b t i : FV) : FV × Bool :=
  let r := fun v => (roundWf wf rnd v, false)
  match op with
  | 0x01 => (a, false)
  | 0x02 => r (FV.add a b)
  | 0x03 => r (FV.add a b.neg)
  | 0x04 => r (FV.mul a b)
  | 0x05 => r (FV.add (FV.mul a b) t)
  | 0x06 => divOp wf rnd a b
  | 0x07 => (fvMin a b, false)
  | 0x08 => (fvMax a b, false)
  | 0x09 => r a.abs
  | 0x0A => r a.neg
  | 0x0B => (fvMax a FV.zero, false)
  | 0x0C => (fvMin (fvMax a b) i, false)
  | 0x10 => r (FV.div (FV.ofNat 1) a)
  | 0x11 => r (FV.sqrt a)
  | 0x12 => r (fvRsqrt a)
  | 0x13 => r (fvExp a)
  | 0x14 => r (fvLog a)
  | 0x15 => r (fvTanh a)
  | 0x16 => r (fvSigmoid a)
  | 0x17 => r (fvGelu a)
  | 0x18 => r (fvSilu a)
  | _ => (bitOp wf op a b, false)

/-- The condition of a compare stage (08 R222). -/
def cmpOp (op : Nat) (a b : FV) : Bool :=
  match op with | 0x20 => FV.lt a b | 0x21 => FV.le a b | 0x22 => FV.eqv a b | _ => !FV.eqv a b

/-- The lane of its group that lane `l` takes (08 R223). -/
def permLane (imm l : Nat) : Nat :=
  let g := bitsOf imm 7 4
  let q := bitsOf imm 23 8
  let n := 2 ^ g
  let r := 2 ^ (g / 2)
  match bitsOf imm 3 0 with
  | 0 => n - 1 - l
  | 1 => (l + q) % n
  | 2 => if l % 2 = 0 then l / 2 else n / 2 + (l - 1) / 2
  | 3 => if 2 * l < n then 2 * l else 2 * l - n + 1
  | 4 => l % r * r + l / r
  | _ => q % n

/-- The operand of a lane under a selection (08 R220). -/
def Lane.sel (x : Lane) (c : Nat) (i : FV) : FV :=
  match c with
  | 0 => x.p
  | 4 => x.t
  | 5 => i
  | 6 => FV.zero
  | k => listGet FV.zero x.src (k - 1)

/-- An operand on lane `l` of a vector; a tail lane reads 0 (08 R214). -/
def laneSel (v : List Lane) (l c : Nat) (i : FV) : FV := match v[l]? with | some x => x.sel c i | none => FV.zero

/-- The index that SHUFFLE reads (08 R224), a NaN as 0 (06 R168); none where it is a lane fault (R218). -/
def shuffleIx (wf : Nat) (b : FV) : Option Nat :=
  match b with
  | .fin s m e =>
    let k : Int := if wfInt wf then finInt s m e 0 else (if s then -(roundUnits .rz m e 0 : Int) else (roundUnits .rz m e 0 : Int))
    if k < 0 ∨ (wfLanes wf : Int) ≤ k then none else some k.toNat
  | .nan => some 0
  | .inf _ => none

/-- The result, new M and lane fault of lane `l` where it is active. -/
def VStage.lane (st : VStage) (wf : Nat) (v : List Lane) (l : Nat) (x : Lane) : FV × Bool × Bool :=
  let i := immOf wf st.imm
  let a := x.sel st.aSel i
  let b := x.sel st.bSel i
  let one := if wfInt wf then FV.ofNat 1 else roundWf wf .rne (FV.ofNat 1)
  if opCompare st.op then
    let c := cmpOp st.op a b
    (if c then one else FV.zero, (match st.mcomb with | 0 => c | 1 => x.m && c | _ => x.m || c), false)
  else if st.op = 0x24 then (if x.m then a else b, x.m, false)
  else if st.op = 0x30 then
    let n := 2 ^ bitsOf st.imm 7 4
    (laneSel v (l / n * n + permLane st.imm (l % n)) st.aSel i, x.m, false)
  else if st.op = 0x31 then
    match shuffleIx wf b with
    | some k => (laneSel v k st.aSel i, x.m, false)
    | none => (FV.zero, x.m, true)
  else if st.op = 0x32 then
    let as := (v.filter (fun y => y.m)).map (fun y => y.sel st.aSel i)
    (listGet FV.zero as l, decide (l < as.length), false)
  else if st.op = 0x33 then
    if x.m then (laneSel v ((v.take l).filter (fun y => y.m)).length st.aSel i, x.m, false) else (b, x.m, false)
  else
    let r := laneOp wf st.op (rndOf st.rnd 0) a b x.t i
    (r.1, x.m, r.2)

/-- A lane is active in a stage (08 R217). -/
def VStage.active (st : VStage) (x : Lane) : Bool := match st.mask with | 0 => true | 1 => x.m | _ => !x.m

/-- A stage over a vector: the lanes after it, and how many lane faults it raised (08 R217, R218, R220). -/
def VStage.run (st : VStage) (wf : Nat) (v : List Lane) : List Lane × Nat :=
  let rs := (indexed 0 v).map (fun x =>
    if st.active x.2 then
      let r := st.lane wf v x.1 x.2
      ({ x.2 with p := r.1, m := r.2.1, t := if st.keep then r.1 else x.2.t, hist := x.2.hist ++ [r.1] }, r.2.2)
    else ({ x.2 with hist := x.2.hist ++ [x.2.p] }, false))
  (rs.map Prod.fst, (rs.filter (fun r => r.2)).length)

/-- The stages over a vector: the lanes, the lane faults, and the stage and kind of the last (08 R218, R239). -/
def runStages (wf : Nat) (v : List Lane) (n : Nat) (last : Option (Nat × Nat)) : List (Nat × VStage) →
    List Lane × Nat × Option (Nat × Nat)
  | [] => (v, n, last)
  | (k, st) :: t =>
    let r := st.run wf v
    runStages wf r.1 (n + r.2) (if r.2 = 0 then last else some (k, if st.op = 0x06 then 1 else 0)) t

/-- Every vector of a pass in order (08 R208). -/
def runPass (p : VProg) (n : Nat) (last : Option (Nat × Nat)) : List (List Lane) → List Lane × Nat × Option (Nat × Nat)
  | [] => ([], n, last)
  | v :: t =>
    let r := runStages p.wf v n last (indexed 0 p.stages)
    let u := runPass p r.2.1 r.2.2 t
    (r.1 ++ u.1, u.2)

/-! ## Reduction, post-processing (08 R225) -/

/-- An exact sum; none of no values is 0. -/
def exactSum : List FV → FV
  | [] => FV.zero
  | a :: t => t.foldl FV.add a

/-- The identity of a reduction. -/
def redIdentity (wf op : Nat) : FV :=
  match op with
  | 1 => if wfInt wf then FV.ofInt (wfMin wf) else .inf true
  | 2 => if wfInt wf then FV.ofInt (wfMax wf) else .inf false
  | _ => FV.zero

/-- A reduction of values. -/
def reduceOp (wf op : Nat) (vs : List FV) : FV :=
  match op with
  | 0 => roundWf wf .rne (exactSum vs)
  | 1 => (vs.drop 1).foldl fvMax (listGet FV.zero vs 0)
  | 2 => (vs.drop 1).foldl fvMin (listGet FV.zero vs 0)
  | _ => if vs.any (fun v => v == .nan) then .nan else roundWf wf .rne (maxAbs vs)

/-- POST_MUL and POST_OP. -/
def VProg.post (p : VProg) (v : FV) : FV :=
  let m := if wfInt p.wf ∨ p.postMul = 0 then v else roundWf p.wf .rne (FV.mul v (fp32 p.postMul))
  if p.postOp = 0 then m else (laneOp p.wf p.postOp .rne m FV.zero FV.zero FV.zero).1

/-- Lanes with the same output point are neighbours: cut a pass into output points (08 R213). -/
def byOutput (d : Nat) : List Lane → List (List Lane)
  | [] => []
  | x :: t =>
    match byOutput d t with
    | (y :: g) :: r => if x.pt.drop d = y.pt.drop d then (x :: y :: g) :: r else [x] :: (y :: g) :: r
    | r => [x] :: r

/-- An output point: its indices, its value and its mask. -/
structure OutPoint where
  pt : List Nat
  v : FV
  m : Bool
  deriving Repr

/-- The output points of a pass in order (08 R213, R225). A reduced point is masked off where every lane of it is. -/
def VProg.outPoints (p : VProg) (ls : List Lane) : List OutPoint :=
  if p.redDims = 0 then ls.map (fun x => ⟨x.pt, p.post x.p, x.m⟩)
  else (byOutput p.redDims ls).map (fun g =>
    let vs := g.map (fun x => if p.redUseM && !x.m then redIdentity p.wf p.redOp else x.p)
    ⟨(g.head?.map (fun x => x.pt)).getD [], p.post (reduceOp p.wf p.redOp vs), g.any (fun x => x.m)⟩)

/-- The points written: those that WMASK does not suppress (08 R219). -/
def writtenPts (dst : VDesc) (os : List OutPoint) : List OutPoint :=
  if dst.wmask then os.filter (fun o => o.m) else os

/-- Of points with the elements that they go to, those that no later point overwrites (08 R228). -/
def lastPoints (xs : List (Nat × OutPoint)) : List OutPoint :=
  (xs.foldr (fun x l => if l.any (fun y => y.1 == x.1) then l else x :: l) []).map Prod.snd

/-- The elements that the written points go to, with their values (08 R213). -/
def VProg.writes (p : VProg) (dst : VDesc) (fmt : Nat) (os : List OutPoint) : List (Nat × FV) :=
  (indexed 0 os).map (fun x =>
    (dst.elem fmt (if dst.linear then (dst.offset + x.1 : Nat) else (dst.offset : Int) + strideSum x.2.pt dst.stride p.redDims),
     x.2.v))

/-! ## Summaries (08 R230 to R232) -/

/-- Saturation to INT32. -/
def satInt32 (i : Int) : Int := max (-(2 ^ 31)) (min (2 ^ 31 - 1) i)

/-- A summary: its 32-bit pattern and its value, an unsigned count or a number of the working format's kind. -/
def summary (wf kind : Nat) (vs : List FV) (faults : Nat) : Nat × FV :=
  let count := fun (n : Nat) => let k := min n (2 ^ 32 - 1); (k, FV.ofNat k)
  if kind = 6 then count faults
  else if kind = 5 then count (if wfInt wf then 0 else (vs.filter (fun v => v == .nan)).length)
  else if kind = 4 then count (vs.filter (fun v => !v.isZero)).length
  else if wfInt wf then
    let is := vs.map intOf
    let i := satInt32 (match kind with
      | 0 => (is.map (fun x => (x.natAbs : Int))).foldl max 0
      | 1 => is.foldl max (-(2 ^ 31))
      | 2 => is.foldl min (2 ^ 31 - 1)
      | _ => is.foldl (· + ·) 0)
    (wrap 32 i, FV.ofInt i)
  else
    let v := if vs.any (fun v => v == .nan) then .nan
      else match kind with
        | 0 => maxAbs vs
        | 1 => vs.foldl fvMax (.inf true)
        | 2 => vs.foldl fvMin (.inf false)
        | _ => f32 (exactSum vs)
    (enc32 v, v)

/-- The values that a unit reduces. -/
def VUnit.values (u : VUnit) (ls : List Lane) (os : List OutPoint) : List FV :=
  if u.src = 10 then (os.filter (fun o => !u.useM || o.m)).map (fun o => o.v)
  else (ls.filter (fun x => !u.useM || x.m)).map (fun x => if u.src = 9 then x.p else listGet FV.zero x.hist (u.src - 1))

/-- THRESH in the summary's type (08 R232). -/
def VUnit.threshold (u : VUnit) (wf : Nat) : FV :=
  if 4 ≤ u.kind then FV.ofNat u.thresh else if wfInt wf then FV.ofInt (signed 32 u.thresh) else fp32 u.thresh

/-- The comparison of a predicate write (08 R232). -/
def VUnit.compare (u : VUnit) (wf : Nat) (v : FV) : Bool :=
  let t := u.threshold wf
  match u.cmp with
  | 0 => FV.lt t v | 1 => FV.le t v | 2 => FV.lt v t | 3 => FV.le v t | 4 => FV.eqv v t | _ => !FV.eqv v t

/-! ## The run -/

/-- The value of a source element in the working format (08 R209, R215). -/
def State.vSource (s : State) (d : Cmd) (h wf fmt i : Nat) : FV :=
  let t := i / elemsPerTile fmt
  let k := i % elemsPerTile fmt
  if fmt = wf then decodeElem wf (s.elemAt d h (elemBits fmt) t k)
  else match s.operandRun h with
    | some o => toWf wf (s.valueAt d h o fmt t k)
    | none => FV.zero

/-- The format in which a run reads or writes operand `q`. -/
def State.vRunFmt (s : State) (v : VProg) (slot : List Byte) (q : Nat) : Nat :=
  match s.operandRun (vHandle slot q) with
  | some o => if o.fmt = 0 then (listGet ⟨0, 0, false, false, 0, []⟩ v.desc q).asFmt else o.fmt
  | none => 0x04

/-- Descriptor `q` of a program. -/
def VProg.d (v : VProg) (q : Nat) : VDesc := listGet ⟨0, 0, false, false, 0, []⟩ v.desc q

/-- The lanes of a pass at its start, by vector (08 R208, R216, R220). -/
def State.vLanes (s : State) (d : Cmd) (v : VProg) : List (List Lane) :=
  let ls := (indexed 0 v.points).map (fun x =>
    let src := (upTo v.nsrc).map (fun q =>
      let f := s.vRunFmt v d.slot q
      s.vSource d (vHandle d.slot q) v.wf f ((v.d q).srcElem f x.2 x.1))
    Lane.mk x.2 (listGet FV.zero src 0) FV.zero true src [])
  chunks (wfLanes v.wf) (ls.length / max (wfLanes v.wf) 1 + 1) ls

/-- The tiles that the sources of a pass are read from, source by source. -/
def State.vSrcTiles (s : State) (d : Cmd) (v : VProg) : List (Nat × Nat) :=
  (upTo v.nsrc).flatMap (fun q =>
    let f := s.vRunFmt v d.slot q
    let h := vHandle d.slot q
    if h = argHandle then []
    else withHandle h (touched f ((indexed 0 v.points).map (fun x => (v.d q).srcElem f x.2 x.1))))

/-- The elements that a pass may write: every output point's. -/
def State.vDstElems (s : State) (d : Cmd) (v : VProg) : List Nat :=
  let x := v.d 3
  let f := s.vRunFmt v d.slot 3
  if x.linear then List.range' (x.elem f x.offset) v.outCount
  else v.points.map (fun pt => x.elem f ((x.offset : Int) + strideSum pt x.stride v.redDims))

/-- The tile of SUMOBJ that the summaries go to. -/
def sumTile (slot : List Byte) : List (Nat × Nat) :=
  if op32 slot 48 = 0 then [] else [(op32 slot 48, opBits slot 52 4 23 0 / 1024)]

/-- The old tiles that a pass reads of its outputs (08 R227). -/
def State.vPartTiles (s : State) (d : Cmd) (v : VProg) : List (Nat × Nat) :=
  (match s.operandRun (op32 d.slot 28) with
   | some o => if op32 d.slot 28 = 0 then [] else
      (if (v.d 3).wmask then
        let ts := touched o.fmt (s.vDstElems d v)
        withHandle (op32 d.slot 28) (ts ++ copiedTiles o ts)
       else partTiles (op32 d.slot 28) o (s.vDstElems d v))
   | none => []) ++ sumTile d.slot

/-- The tiles that a pass may write (05 R135). -/
def State.vOutTiles (s : State) (d : Cmd) (v : VProg) : List (Nat × Nat) :=
  ((match s.operandRun (op32 d.slot 28) with
    | some o => if op32 d.slot 28 = 0 then [] else outTilesAt (op32 d.slot 28) o (s.vDstElems d v)
    | none => []) ++ sumTile d.slot).eraseDups

/-- The four summary patterns put into the tile of SUMOBJ, beside what the pass writes there (08 R231). -/
def State.withSums (s : State) (d : Cmd) (outs : List OutTile) (sums : List Nat) : List OutTile :=
  match sumTile d.slot with
  | [] => outs
  | (h, t) :: _ =>
    let bs := sums.flatMap (leBytes 4)
    let at' := 4 * (opBits d.slot 52 4 23 0 % 1024)
    if outs.any (fun o => o.obj == h && o.tile == t) then
      outs.map (fun o => if o.obj = h ∧ o.tile = t then { o with bytes := putBytesAt o.bytes at' bs } else o)
    else outs ++ [OutTile.mk h t (putBytesAt (s.tileData d h t) at' bs) 0 scaleOne]

/-- The counters and captures of a pass with lane faults (08 R218, R239). A command counts once, whatever its runs. -/
def State.laneFaults (s : State) (n id faults : Nat) (last : Option (Nat × Nat)) : State :=
  if faults = 0 then s
  else
    let k := s.cnt n
    let x := match last with | some y => y.1 * 256 + y.2 * 2048 | none => 0
    let k0 := bit01 (!(s.extra id).faulted)
    let k1 := { k with vecFaultCmds := satAdd 16 k.vecFaultCmds k0, vecLast := BitVec.ofNat 32 (k.vecLast.toNat % 8 + x) }
    ((s.setExtra { s.extra id with faulted := true }).setCnt n k1).raise .clu n 0x184 2

/-- The device work of a pass: its outputs, summaries and predicates (08 R225 to R232, R238). -/
def State.vPass (s : State) (n : Nat) (d : Cmd) (v : VProg) : State × List OutTile × RunWork × List Nat × List Nat :=
  let r := runPass v 0 none (s.vLanes d v)
  let ls := r.1
  let slot := d.slot
  let h := op32 slot 28
  let x := v.d 3
  let os := if h = 0 then [] else writtenPts x (v.outPoints ls)
  let narrow : Bool := match s.operandRun h with | some o => h != 0 && isNarrow o.fmt | none => false
  let kept := match s.operandRun h with
    | some o => lastPoints (((v.writes x o.fmt os).map Prod.fst).zip os)
    | none => []
  let outs := match s.operandRun h with
    | some o => if h = 0 then [] else
        s.outTiles d (s.outSpec d h x.base (opBits slot 56 4 9 0) (opBits slot 56 4 11 10) (opBits slot 56 4 12 12 == 1)) o
          (v.writes x o.fmt os)
    | none => []
  let sums := v.units.map (fun u => if u.src = 0 then (0, FV.zero) else summary v.wf u.kind (u.values ls kept) r.2.1)
  let pats := sums.map Prod.fst
  let wide := narrow && !os.isEmpty
  let amax := amaxOf (kept.map (fun o => o.v))
  let us := v.units.zip sums
  let w := { RunWork.empty with
    amax := (if wide then [(opBits slot 56 4 9 0, BitVec.ofNat 32 amax)] else []) ++
      (us.filter (fun y => y.1.src != 0 && y.1.toSlot)).map (fun y => (y.1.slot, BitVec.ofNat 32 (enc32 y.2.2))),
    preds := if d.launch.isNone then [] else
      (us.filter (fun y => y.1.src != 0 && y.1.predEn)).map (fun y => (y.1.pred, y.1.compare v.wf y.2.2)),
    sums := pats.map (BitVec.ofNat 32),
    detailA := listGet 0 pats 0, detailB := listGet 0 pats 1 + listGet 0 pats 2 * 2 ^ 32 }
  let pairs := ((indexed 0 v.units).filter (fun u => u.2.src != 0)).map Prod.fst ++ (if wide then [4] else [])
  (s.laneFaults n d.id r.2.1 r.2.2, s.withSums d outs pats, w, pats ++ [if wide then amax else 0], pairs)

/-- The cycle of the last comparison of a pass (08, timing of a pass). -/
def VProg.due (v : VProg) : Nat :=
  let r := if v.stages.any (fun x => opSpecial v.wf x.op) || opSpecial v.wf v.postOp then 2 else 1
  64 + (ceilDiv v.count (max (wfLanes v.wf) 1) - 1) * r + 4 * (v.stages.length + (if v.postOp = 0 then 0 else 1))

/-- The condition that a run of a `VCHAIN` finds (05 R522; 08 R238). -/
def State.vchainCond (s : State) (d : Cmd) (v : VProg) : Option (Nat × Nat × Nat) :=
  s.firstCond d (s.vSrcTiles d v ++ s.vPartTiles d v)

/-- `VCHAIN` on cluster `n`: the pass over its operands, once none of them is in the cellar (01 R20); its reducers are still to be
compared. -/
def State.runVchain (s : State) (n : Nat) : State :=
  match s.fresh n 0x22 with
  | none => s
  | some (r, d) =>
    let v := s.progOf d
    let far := s.farTiles (s.vSrcTiles d v ++ s.vPartTiles d v)
    if !far.isEmpty then s.fetchAll d far
    else match s.vchainCond d v with
    | some x => s.stopFound n d x
    | none =>
      let reads := s.vSrcTiles d v ++ s.vPartTiles d v
      let p := s.vPass n d v
      let c : Check := { kind := .summary, index := 0, row0 := 0, col0 := 0, int := false, rows := [p.2.2.2.1],
                         cols := p.2.2.2.2, mags := [], due := v.due }
      ((p.1.readTiles d n (s.withScales reads)).prepare n r (s.framesOf d (s.withScales reads)) [c] none v.due).finishWork n d p.2.1
        p.2.2.1

/-- `VCHAIN` (08 R237). -/
def execVchain (clu : Nat) (s : State) : Host.Outcome State Fault Refusal := done (s.runVchain clu)

end Sys2Proof.Machine
end

