-- ==== Sys2Proof/Machine/Resolve.lean ====
section
/-! DEFINITION. Resolution before admission (09 R252 to R258): the operand rules of the table commands, their indices, the
holds, remote gathers and their timeout. -/

namespace Sys2Proof.Machine

/-! ## Served requests (13 R411, R412) -/

/-- The request of a peer that a command serves. -/
def State.serveOf (s : State) (id : Nat) : Option Serve := s.fab.serves.find? (fun v => v.cmd == id)

/-- A command that passes through resolution: a table command, or a `MATVEC` in SELECT mode (09 R252). -/
def resolves (b : List Byte) : Bool :=
  slotOp b == 0x28 || slotOp b == 0x29 || (slotOp b == 0x21 && opBits b 56 4 5 5 == 1)

/-- RESOLVE_EARLY of a table command (09 R252). -/
def resolvesEarly (b : List Byte) : Bool :=
  (slotOp b == 0x28 && opBits b 52 4 5 5 == 1) || (slotOp b == 0x29 && opBits b 36 4 3 3 == 1)

/-- The table that a handle names, with its fields. -/
def State.tableOf (s : State) (h : Nat) : Option (Obj × TableDesc × TableDyn) :=
  match s.obj? h with
  | some o => (match o.table with | some (t, y) => some (o, t, y) | none => none)
  | none => none

/-- n rounded up to a multiple of 16 (09 R262). -/
def padElems (n : Nat) : Nat := ceilDiv n 16 * 16

/-! ## Operand rules that need no value (09 R260, R271) -/

/-- A gather's fields. -/
def gatherNidx (b : List Byte) : Nat := opBits b 40 4 19 0
def gatherNbags (b : List Byte) : Nat := opBits b 44 4 15 0
def gatherBagLen (b : List Byte) : Nat := opBits b 44 4 31 16
def gatherMode (b : List Byte) : Nat := opBits b 52 4 1 0

/-- A value operand of a table command names no object of an allowed format, or is too short for `n` entries of `w` bytes
(09 R260). -/
def State.valuesBad (s : State) (d : Cmd) (h : Nat) (fmts : List Nat) (off w n : Nat) : Bool :=
  if h = argHandle then decide ((s.payloadOf d).length < off + w * n)
  else match s.liveObj h with
    | none => true
    | some o => !(o.fmt == 0 || fmts.contains o.fmt) || decide (o.dataTiles * 4096 < off + w * n)

/-- The conditions of a `GATHER_POOL` that need no value read (09 R260), as offsets. -/
def State.gatherBad (s : State) (d : Cmd) : List Nat :=
  let b := d.slot
  let n := gatherNidx b
  let nb := gatherNbags b
  let offs := op32 b 24
  let wgt := op32 b 28
  let stat := op32 b 36
  let mode := gatherMode b
  (match s.liveObj (op32 b 16) with | some o => if o.table.isSome then [] else [16] | none => [16]) ++
  (if s.valuesBad d (op32 b 20) [0x0C] 0 (if opBits b 52 4 2 2 = 1 then 8 else 4) n then [20] else []) ++
  (if offs = 0 then [] else if s.valuesBad d offs [0x0C] 0 4 (nb + 1) then [24] else []) ++
  (if wgt = 0 then [] else
    if s.valuesBad d wgt [if opBits b 52 4 3 3 = 1 then 0x05 else 0x04] 0 (if opBits b 52 4 3 3 = 1 then 2 else 4) n then [28] else []) ++
  (match s.liveObj (op32 b 32) with
   | none => [32]
   | some o => if [0x04, 0x05, 0x06, 0x07, 0x08, 0x10, 0x11].contains o.fmt then
       (match s.tableOf (op32 b 16) with
        | some (_, t, _) =>
          if o.dataTiles * elemsPerTile o.fmt < (opBits b 48 4 23 0 + nb) * padElems t.elems then [32] else []
        | none => []) else [32]) ++
  (if stat = 0 then [] else match s.liveObj stat with
    | none => [36] | some o => if o.fmt ≠ 0 ∨ o.dataTiles * 4096 < nb then [36] else []) ++
  (if n = 0 then [40] else []) ++ (if nb = 0 then [44] else []) ++
  (if offs = 0 ∧ nb * gatherBagLen b ≠ n then [24] else []) ++
  (if mode = 3 ∧ offs ≠ 0 then [24] else []) ++ (if mode = 3 ∧ nb ≠ n then [40] else []) ++
  (if wgt ≠ 0 ∧ 2 ≤ mode then [28] else []) ++ (if opBits b 52 4 6 6 = 1 ∧ stat = 0 then [36] else []) ++
  (if opBits b 52 4 9 8 = 3 then [52] else [])

/-- An update's fields. -/
def updMode (b : List Byte) : Nat := opBits b 28 4 23 20
def updNidx (b : List Byte) : Nat := opBits b 28 4 19 0

/-- The six hyperparameters as FP32 patterns (09 R270). -/
def hyperOf (p : List Byte) : List Nat := (upTo 6).map (fun i => leField p (4 * i) 4)

/-- A hyperparameter block breaks 09 R270 or R271. -/
def hyperBad (p : List Byte) : Bool :=
  let h := (hyperOf p).map fp32
  let g := fun i => listGet FV.zero h i
  decide (p.length < 64) || !allZero ((p.take 64).drop 24) || h.any FV.special ||
  [g 0, g 1, g 2, g 3].any (fun v => FV.lt v FV.zero) || [g 2, g 3].any (fun v => FV.le (FV.ofNat 1) v)

/-- The tiles of the source row `j` of an update (09 R269). -/
def srcRowTiles (b : List Byte) (o : Obj) (n j : Nat) : List Nat :=
  let base := opBits b 32 4 23 0
  if isPackedRow o.fmt then [base + j / rowsIn (rowLen o.fmt n)]
  else
    let e := elemsPerTile o.fmt
    List.range' (base + j * padElems n / e) ((j * padElems n + n - 1) / e + 1 - j * padElems n / e)

/-- Byte at which the indices start in the operand that holds them (09 R269). -/
def idxStart (b : List Byte) : Nat := if slotOp b = 0x29 ∧ op32 b 20 = argHandle ∧ updMode b ≠ 0 then 64 else 0

/-- A gradient format is one that an update of a mode takes: any row format to write rows, else one of 06 R165. -/
def gradFmtOk (mode fmt : Nat) : Bool := if mode = 0 then isRowFmt fmt else [0x14, 0x05, 0x04].contains fmt

/-- The conditions of a `SCATTER_UPDATE` that need no value read (09 R271), as offsets. -/
def State.scatterBad (s : State) (d : Cmd) : List Nat :=
  let b := d.slot
  let mode := updMode b
  let n := updNidx b
  (match s.liveObj (op32 b 16), s.tableOf (op32 b 16) with
   | some _, some (_, t, _) => if t.pool = 0 ∨ ((mode = 2 ∨ mode = 3) ∧ t.state = 0) ∨ (mode = 3 ∧ t.elemState = 0) then [16] else []
   | _, _ => [16]) ++
  (if s.valuesBad d (op32 b 20) [0x0C] (idxStart b) (if opBits b 28 4 24 24 = 1 then 8 else 4) n then [20] else []) ++
  (match s.liveObj (op32 b 24) with
   | none => [24]
   | some o =>
     (if 4 ≤ mode ∨ gradFmtOk mode o.fmt = true then [] else [24]) ++
     (match s.tableOf (op32 b 16) with
      | some (_, t, _) => if n ≠ 0 ∧ elemBits o.fmt ≠ 0 ∧
          (srcRowTiles b o t.elems (n - 1)).any (fun k => decide (o.dataTiles ≤ k)) = true then [24] else []
      | none => [])) ++
  (if 4 ≤ mode ∨ n = 0 then [28] else []) ++ (if opBits b 36 4 1 0 = 3 then [36] else []) ++
  (if 1 ≤ mode ∧ mode ≤ 3 ∧ (slotExt b = 0 ∨ hyperBad (s.payloadOf d) = true) then [1] else [])

/-- The conditions of a command that resolves that need no value read. -/
def State.resolveBad (s : State) (d : Cmd) : List Nat :=
  if (s.serveOf d.id).isSome then []
  else match slotOp d.slot with
    | 0x28 => s.gatherBad d
    | 0x29 => s.scatterBad d
    | 0x21 => s.matvecBad d
    | _ => []

/-! ## What resolution reads (09 R253) -/

/-- Integers of `w` bytes of an operand from a byte offset. -/
def State.readInts (s : State) (d : Cmd) (h off w n : Nat) : List Int :=
  let bs := if h = argHandle then s.payloadOf d else s.objBytes d h 0 (off + w * n)
  (upTo n).map (fun k => signed (8 * w) (leField bs (off + w * k) w))

/-- Weights as FP32 patterns. -/
def State.readWgts (s : State) (d : Cmd) (h w n : Nat) : List W32 :=
  let bs := if h = argHandle then s.payloadOf d else s.objBytes d h 0 (w * n)
  (upTo n).map (fun k => BitVec.ofNat 32 (leField bs (w * k) w * (if w = 2 then 65536 else 1)))

/-- The value operands of a command as handles with their byte lengths (09 R253 step 1). -/
def valueOperands (b : List Byte) : List (Nat × Nat) :=
  (match slotOp b with
   | 0x28 => [(op32 b 20, (if opBits b 52 4 2 2 = 1 then 8 else 4) * gatherNidx b)] ++
      (if op32 b 24 = 0 then [] else [(op32 b 24, 4 * (gatherNbags b + 1))]) ++
      (if op32 b 28 = 0 then [] else [(op32 b 28, (if opBits b 52 4 3 3 = 1 then 2 else 4) * gatherNidx b)])
   | 0x29 => [(op32 b 20, (if opBits b 28 4 24 24 = 1 then 8 else 4) * updNidx b)]
   | _ => [(op32 b 36, 4 * opBits b 40 8 23 4)]).filter (fun x => x.1 != argHandle)

/-- The boundaries of the bags of a gather (09 R259). -/
def State.bagBounds (s : State) (d : Cmd) : List Nat :=
  let b := d.slot
  if gatherMode b = 3 then upTo (gatherNidx b + 1)
  else if op32 b 24 = 0 then (upTo (gatherNbags b + 1)).map (fun k => k * gatherBagLen b)
  else (s.readInts d (op32 b 24) 0 4 (gatherNbags b + 1)).map (fun i => wrap 32 i)

/-- Running sums of counts, from 0. -/
def sumsFrom (a : Nat) : List Nat → List Nat
  | [] => [a]
  | c :: t => a :: sumsFrom (a + c) t

/-! The fields of a GATHER message (13 R408). -/
def gmBags (p : List Byte) : List (Nat × Nat) :=
  (upTo (leField p 8 2)).map (fun k => (leField p (16 + 4 * k) 2, leField p (18 + 4 * k) 2))
def gmRows (p : List Byte) : List Int :=
  (upTo (leField p 12 4)).map (fun k => signed 64 (leField p (16 + 4 * leField p 8 2 + 8 * k) 8))
def gmWgts (p : List Byte) : List W32 :=
  if opBits p 4 1 4 4 = 1 then
    (upTo (leField p 12 4)).map (fun k => BitVec.ofNat 32 (leField p (16 + 4 * leField p 8 2 + 8 * leField p 12 4 + 4 * k) 4))
  else []

/-! The fields of an UPDATE message (13 R408). -/
def umCount (p : List Byte) : Nat := leField p 8 4
def umRows (p : List Byte) : List Int := (upTo (umCount p)).map (fun k => signed 64 (leField p (76 + 8 * k) 8))
def umSrc (p : List Byte) (j : Nat) : List Byte := (p.drop (76 + 8 * umCount p + leField p 6 2 * j)).take (leField p 6 2)

/-- Indices, bag boundaries and weights of a command (09 R253 step 1). -/
def State.readRes (s : State) (d : Cmd) : List Int × List Nat × List W32 :=
  let b := d.slot
  match s.serveOf d.id with
  | some v =>
    if v.update then (umRows v.payload, [], [])
    else (gmRows v.payload, sumsFrom 0 ((gmBags v.payload).map Prod.snd), gmWgts v.payload)
  | none => match slotOp b with
    | 0x28 => (s.readInts d (op32 b 20) 0 (if opBits b 52 4 2 2 = 1 then 8 else 4) (gatherNidx b), s.bagBounds d,
        if op32 b 28 = 0 then [] else s.readWgts d (op32 b 28) (if opBits b 52 4 3 3 = 1 then 2 else 4) (gatherNidx b))
    | 0x29 => (s.readInts d (op32 b 20) (idxStart b) (if opBits b 28 4 24 24 = 1 then 8 else 4) (updNidx b), [], [])
    | _ => (s.readInts d (op32 b 36) 0 4 (opBits b 40 8 23 4), [], [])

/-- The object whose rows a command's indices name. -/
def rowHandle (b : List Byte) : Nat := if slotOp b = 0x21 then op32 b 20 else op32 b 16

/-- Owner and local row of every index; none in the outer sense where it is out of range, in the inner for padding (09 R243,
R244; 07 R196). A served request names rows of this module only (13 R411). -/
def State.destOf (s : State) (d : Cmd) (o : Obj) (es : List (Nat × Nat)) (i : Int) : Option (Option (Nat × Nat)) :=
  if slotOp d.slot = 0x21 then
    if i < 0 ∨ objRows o ≤ i.toNat then none else some (some (s.fab.moduleId, i.toNat))
  else if (s.serveOf d.id).isSome then
    (match s.mapIndex o es i with
     | some (own, r) => if own = s.fab.moduleId then some (some (own, r)) else none
     | none => none)
  else if i = -1 then some none
  else (s.mapIndex o es i).map some

/-- The rises of a list of boundaries are never negative. -/
def rising : List Nat → Bool
  | [] => true
  | [_] => true
  | a :: b :: t => decide (a ≤ b) && rising (b :: t)

/-- The owners other than this module, ascending (09 R256, R275). -/
def State.ownersOf (s : State) (dest : List (Option (Nat × Nat))) : List Nat :=
  (dest.filterMap (fun x => x)).foldl (fun l x => if x.1 = s.fab.moduleId then l else insertNew x.1 l) []

/-- The indices of one owner with their positions, in index order. -/
def ofOwner (own : Nat) (dest : List (Option (Nat × Nat))) : List (Nat × Nat) :=
  (indexed 0 dest).filterMap (fun x => match x.2 with | some (m, r) => if m = own then some (x.1, r) else none | none => none)

/-- Bags as pairs of boundaries. -/
def bagsOf (offs : List Nat) : List (Nat × Nat) := offs.zip (offs.drop 1)

/-- The bags that hold rows of an owner: bag number and the positions of those rows. -/
def ownerBags (own : Nat) (r : Resolution) : List (Nat × List Nat) :=
  (indexed 0 (bagsOf r.offs)).filterMap (fun b =>
    let ps := (List.range' b.2.1 (b.2.2 - b.2.1)).filter (fun p => match listGet none r.dest p with
      | some (m, _) => m == own | none => false)
    if ps.isEmpty then none else some (b.1, ps))

/-- The payload of a GATHER message to an owner (09 R256, 13 R408). -/
def State.gatherMsg (s : State) (d : Cmd) (r : Resolution) (own tag : Nat) : List Byte :=
  let bags := ownerBags own r
  let ps := bags.flatMap Prod.snd
  let zs := s.fld .gfe d.chan 0x214 5 5
  let flags := gatherMode d.slot + 4 * opBits d.slot 52 4 4 4 + 8 * zs + (if r.wgts.isEmpty then 0 else 16)
  leBytes 4 tag ++ leBytes 1 flags ++ zeros 3 ++ leBytes 2 bags.length ++ zeros 2 ++ leBytes 4 ps.length ++
  bags.flatMap (fun b => leBytes 2 b.1 ++ leBytes 2 b.2.length) ++
  ps.flatMap (fun p => leBytes 8 (wrap 64 (listGet 0 r.idx p))) ++
  (if r.wgts.isEmpty then [] else ps.flatMap (fun p => leBytes 4 (listGet 0 r.wgts p).toNat))

/-- Bytes of the update frames to an owner: 76, and 8 with a row of FP32 elements for each row (13 R408). -/
def updMsgLen (rows n : Nat) : Nat := 76 + rows * (8 + rowLen 0x04 n)

/-- The distinct rows of an owner, ascending, with the positions that name each in index order (09 R272). -/
def distinctRows (own : Nat) (dest : List (Option (Nat × Nat))) : List (Nat × List Nat) :=
  let xs := ofOwner own dest
  ((xs.foldl (fun l x => insertNew x.2 l) []).map (fun r => (r, (xs.filter (fun x => x.2 == r)).map Prod.fst)))

/-- The conditions that depend on the values read (09 R253 step 2, R260, R274), as offsets. -/
def State.valueBad (s : State) (d : Cmd) (o : Obj) (r : Resolution) (ds : List (Option (Option (Nat × Nat)))) : List Nat :=
  let b := d.slot
  let served : Bool := (s.serveOf d.id).isSome
  (if ds.any Option.isNone then [if slotOp b = 0x21 then 36 else 20] else []) ++
  (if slotOp b = 0x28 ∧ served = false ∧
      (listGet 0 r.offs 0 ≠ 0 ∨ r.offs.getLast? ≠ some (gatherNidx b) ∨ rising r.offs = false) then [24] else []) ++
  (if (s.ownersOf r.dest).any (fun m =>
      if slotOp b = 0x28 then decide (524288 < (s.gatherMsg d r m 0).length)
      else match o.table with
        | some (t, _) => decide (524288 < updMsgLen (distinctRows m r.dest).length t.elems)
        | none => false) then [20] else [])

/-! ## Holds (09 R253 step 4, R254) -/

/-- The tiles of a local row: home row, state row, and its remap entries' pool rows. -/
def rowTiles (h : Nat) (o : Obj) (r : Nat) : List (Nat × Nat) :=
  let home := (h, (rowPlace h o.rowBytes r).2.1)
  match o.table with
  | none => [home]
  | some (t, y) =>
    [home] ++ (if t.state ≠ 0 then [(t.state, (rowPlace t.state t.stateLen r).2.1)] else []) ++
    (y.remap.filter (fun e => e.row == r)).flatMap (fun e =>
      [0, 1].map (fun k => (t.pool, (rowPlace t.pool (poolRowBytes o t) (2 * e.slot + k)).2.1)))

/-- The tiles that a command's resolution holds. -/
def State.heldOf (s : State) (d : Cmd) (h : Nat) (o : Obj) (dest : List (Option (Nat × Nat))) : List (Nat × Nat) :=
  let rs := (ofOwner s.fab.moduleId dest).map Prod.snd
  let src := match slotOp d.slot, s.serveOf d.id, s.obj? (op32 d.slot 24) with
    | 0x29, none, some so =>
      let n := match o.table with | some (t, _) => t.elems | none => 0
      (upTo (updNidx d.slot)).flatMap (fun j => withHandle (op32 d.slot 24) (srcRowTiles d.slot so n j))
    | _, _, _ => []
  (rs.flatMap (rowTiles h o) ++ src).eraseDups

/-- A resolving command becomes ready when every cellar read has landed and every remote partial has arrived (09 R253). -/
def State.settleRes (s : State) (id : Nat) : State :=
  match s.cmd? id with
  | none => s
  | some d =>
    match d.res, d.phase with
    | some r, .resolving =>
      let w := r.awaitTiles.filter s.inCellar
      s.setCmd { d with res := some { r with awaitTiles := w },
                        phase := if w.isEmpty && r.awaitPeers.isEmpty then .ready else .resolving }
    | _, _ => s

/-- Settle every resolving command. -/
def State.settleResAll (s : State) : State :=
  ((s.gfe.cmds.filter (fun d => d.phase == .resolving)).map Cmd.id).foldl State.settleRes s

/-! ## Remote gathers (09 R256, R258) -/

/-- A command that has reached the head of its channel or launch unissued, with a charge over the limit (02 R32). -/
def State.headOver (s : State) (d : Cmd) : Bool :=
  s.overLimit d && !d.begun && (match s.headOf d.node with | some e => e.id == d.id | none => false)

/-- A table command ends with `ST_REMOTE_FAIL` (09 R258, R275, R281), or for its charge if it has reached the head (02 R32). -/
def State.remoteFail (s : State) (d : Cmd) (a b : Nat) : State :=
  (if s.headOver d then s.endCmd d stRange 0xFFFFFFFF 0 false else s.endCmd d stRemoteFail a b false).settleMoves

/-- Send the remote gather frames of a command. -/
def State.sendGathers (s : State) (id : Nat) : State :=
  match s.cmd? id with
  | none => s
  | some d =>
    match d.res, s.tableOf (op32 d.slot 16) with
    | some r, some (_, t, _) =>
      if slotOp d.slot ≠ 0x28 then s
      else
        let os := s.ownersOf r.dest
        match os.find? s.peerFailed with
        | some m => s.remoteFail d m 0
        | none =>
          let x := os.foldl (fun (a : State × List (Nat × Nat)) m =>
            let y := a.1.sendMsg m d.cls 2 (a.1.deadlineOf d) (a.1.gatherMsg d r m t.tag) none
            ((State.chargeBytes { y.1 with fab := { y.1.fab with awaits := y.1.fab.awaits ++ [Await.mk m d.cls y.2 2 d.id] } } d.chan 11
              (a.1.gatherMsg d r m t.tag).length),
             a.2 ++ [(m, y.2.toNat)])) (s, [])
          (s.egress x.1).setCmd { d with res := some { r with awaitPeers := x.2 } }
    | _, _ => s

/-! ## `RESOLUTION_BEGIN` -/

/-- Commands and indices held in resolution (09 R255). -/
def State.resolving (s : State) : List Cmd :=
  s.gfe.cmds.filter (fun d => d.res.isSome && (d.phase == .resolving || d.phase == .ready))

/-- The indices that the buffers of those commands hold. -/
def State.heldIndices (s : State) : Nat :=
  (s.resolving.map (fun d => match d.res with | some r => r.idx.length | none => 0)).foldl (· + ·) 0

/-- The number of indices that a command's resolution reads. -/
def State.idxCount (s : State) (d : Cmd) : Nat :=
  match s.serveOf d.id with
  | some v => if v.update then umCount v.payload else leField v.payload 12 4
  | none => match slotOp d.slot with
    | 0x28 => gatherNidx d.slot
    | 0x29 => updNidx d.slot
    | _ => opBits d.slot 40 8 23 4

/-- A resolution of `n` indices keeps within the limits: 64 commands, 1,048,576 indices (09 R255). -/
def State.resRoom (s : State) (n : Nat) : Bool := decide (s.resolving.length < 64) && decide (s.heldIndices + n ≤ 1048576)

/-- The commands that wait to begin their resolution for want of room. -/
def State.resWaiting (s : State) : List Cmd :=
  (s.gfe.resWait.filterMap s.cmd?).filter (fun d => d.phase == .unissued && d.res.isNone)

/-- A resolution may begin: within the limits, and no command that waits for room comes before it under R46 (09 R255). -/
def State.mayResolve (s : State) (id n : Nat) (order : Nat × Nat × Nat) : Bool :=
  s.resRoom n && !s.resWaiting.any (fun e => e.id != id && s.before (s.cmdOrder e) order)

/-- A command waits to begin its resolution. -/
def State.awaitRes (s : State) (id : Nat) : State :=
  if s.gfe.resWait.contains id then s else { s with gfe := { s.gfe with resWait := s.gfe.resWait ++ [id] } }

/-- A command no longer waits to begin its resolution. -/
def State.leaveRes (s : State) (id : Nat) : State := { s with gfe := { s.gfe with resWait := s.gfe.resWait.filter (fun k => k != id) } }

/-- Step 4 of a resolution: the holds, and the fetches of the tiles that are in the cellar; then the remote frames (09 R253). -/
def State.holdRes (s : State) (d : Cmd) (r : Resolution) (held : List (Nat × Nat)) : State :=
  let wait := held.filter s.inCellar
  let s1 := (s.leaveRes d.id).setCmd { d with phase := .resolving, res := some { r with held := held, awaitTiles := wait } }
  ((s1.fetchAll d wait).sendGathers d.id).settleRes d.id

/-- Steps 1 to 4 of a resolution: the values are read once and checked, indices mapped and rows held (09 R253). -/
def State.readValues (s : State) (d : Cmd) (h : Nat) (o : Obj) : State :=
  let v := s.readRes d
  let es := match o.table with | some (t, _) => if t.shard = 0 then [] else s.shardEntries t.shard 4096 0 | none => []
  let ds := v.1.map (s.destOf d o es)
  let r : Resolution :=
    { idx := v.1, dest := ds.map (fun x => x.getD none), offs := v.2.1, wgts := v.2.2, awaitTiles := [],
      awaitPeers := [], partials := [], held := [], tick := s.tickN }
  match lowest (s.valueBad d o r ds) with
  | some off => s.endCmd d stRange off 0 false
  | none =>
    if slotOp d.slot = 0x29 ∧ usesSr d.slot = true ∧ 131072 < (distinctRows s.fab.moduleId r.dest).length then
      s.endCmd d stRange 36 0 false
    else s.holdRes d r (s.heldOf d h o r.dest)

/-- Begin the resolution of a command whose operands pass the rules that need no value: it waits for room (09 R255), and for its
value operands to leave the cellar (R253). -/
def State.beginRes (s : State) (d : Cmd) : State :=
  let h := rowHandle d.slot
  let vs := if (s.serveOf d.id).isSome then [] else
    (valueOperands d.slot).flatMap (fun x => withHandle x.1 (upTo (ceilDiv x.2 4096)))
  if !s.mayResolve d.id (s.idxCount d) (s.cmdOrder d) then s.awaitRes d.id
  else if !(vs.filter s.inCellar).isEmpty then s.fetchAll d (vs.filter s.inCellar)
  else match vs.find? (fun t => s.tileBad d t.1 t.2) with
    | some t => (s.poisonIfBad d t.1 t.2).endCmd d stPoisoned t.1 t.2 false
    | none => (match s.obj? h with
      | none => s
      | some o => s.readValues d h o)

/-- The conditions of a command at its head, with its charge (02 R32, 04 R521). -/
def State.headRange (s : State) (d : Cmd) (bad : List Nat) : Option Nat :=
  match lowest bad with
  | some off => some off
  | none => if s.overLimit d then some 0xFFFFFFFF else none

/-- `RESOLUTION_BEGIN` (09 R252, R253): for a command with RESOLVE_EARLY at any time after its acceptance, else at the head. -/
def execResolutionBegin (cmd : Nat) (s : State) : Host.Outcome State Fault Refusal :=
  done (
    if !s.on || !s.coresRun || s.sup.stopping || s.unitTest 2 then s else
    match s.cmd? cmd with
    | none => s
    | some d =>
      if !resolves d.slot || d.phase != .unissued || d.res.isSome then s
      else if resolvesEarly d.slot || (s.serveOf cmd).isSome then
        let bind := match d.launch with
          | some l => (match s.launch? l with | some x => x.bind | none => [])
          | none => []
        match (if d.launch.isSome then bindSlot bind d.slot (handleFields d.slot) else some d.slot) with
        | none => s
        | some b =>
          let e := { d with slot := b }
          if s.creating b then s
          else match lowest (s.resolveBad e) with
            | some off => (s.setCmd e).endCmd e stRange off 0 false
            | none => (s.setCmd e).beginRes e
      else match s.prep d.node with
        | (t, none) => t
        | (t, some e) =>
          if e.id ≠ d.id then t
          else match t.inherited e with
            | some (st, a, b) => t.endCmd e st a b true
            | none => match t.headRange e (t.resolveBad e) with
              | some off => t.endCmd e stRange off 0 false
              | none => t.beginRes e)

/-- The remote timeout in ticks (09 R258). -/
def State.remoteTicks (s : State) : Nat :=
  let t := s.fld .tbl 0 0x020 7 0
  if t = 0 then 4 else t

/-- `REMOTE_GATHER_TIMEOUT` (09 R258): partials missing T ticks after the frames were sent. -/
def execRemoteGatherTimeout (cmd : Nat) (s : State) : Host.Outcome State Fault Refusal :=
  done (
    match s.cmd? cmd with
    | none => s
    | some d =>
      match d.res with
      | none => s
      | some r =>
        if !s.on || d.phase != .resolving || decide (s.tickN < r.tick + s.remoteTicks) then s
        else match lowest (r.awaitPeers.map Prod.fst) with
          | none => s
          | some m => s.remoteFail d m r.partials.length)

end Sys2Proof.Machine
end

