-- ==== Sys2Proof/Machine/Table.lean ====
section
/-! DEFINITION. The table engine: `GATHER_POOL` (09 R259 to R268), `SCATTER_UPDATE` (R269 to R278), folds (R279, R280). -/

namespace Sys2Proof.Machine

/-! ## The duplicate datapaths (09 R267, R281) -/

/-- An armed injection of a path falls on this command: whether the datapaths then differ and are compared. -/
def State.tblInject (s : State) (n path : Nat) : Bool × State :=
  if s.fld .clu n 0x1D0 31 31 = 1 ∧ s.fld .clu n 0x1D0 5 5 = path then
    (s.fld .clu n 0x1C0 0 0 == 1, s.consume n 0x1D0 0x1C4)
  else (false, s)

/-- An arithmetic check mismatch: the command stops and repeats (09 R267). -/
def State.tblMismatch (s : State) (n : Nat) : State :=
  let k := s.cnt n
  ((s.setCnt n { k with tblMismatch := satAdd 16 k.tblMismatch 1 }).raise .clu n 0x1C4 1).trigger n 1

/-- Count rows read (09 R281). -/
def State.countRows (s : State) (n k : Nat) : State :=
  let c := s.cnt n
  s.setCnt n { c with tblRows := satAdd 32 c.tblRows k }

/-! ## Pooling (09 R261, R266) -/

/-- The value of a local row as a reader sees it, none where its tile is POISONED, with its tile (09 R246, R266). -/
def State.readRow (s : State) (d : Cmd) (h : Nat) (o : Obj) (t : TableDesc) (r : Nat) : Option (List FV) × (Nat × Nat) :=
  let pl := s.readerPlace h o r
  (if s.tileBad d pl.1 pl.2.1 then none else some (s.rowVals d pl o.fmt t.elems), (pl.1, pl.2.1))

/-- A PARTIALS message about one bag: its status and its values (13 R408). -/
structure PartBag where
  status : Nat
  vals : List FV
  deriving Repr

/-- Bytes of a bag's data in a PARTIALS message. -/
def partLen (fmt rowFmt n : Nat) : Nat := match fmt with | 0 => padElems n * 4 | 1 => padElems n * 2 | _ => rowLen rowFmt n

/-- Bag `i` of a PARTIALS message. -/
def partBag (p : List Byte) (rowFmt n i : Nat) : PartBag :=
  let nb := leField p 0 2
  let fmt := leField p 2 1
  let w := partLen fmt rowFmt n
  let data := (p.drop (16 + ceilDiv nb 4 * 4 + w * i)).take w
  { status := leField p (16 + i) 1,
    vals := match fmt with
      | 0 => (upTo n).map (fun k => decodeElem 0x04 (leField data (4 * k) 4))
      | 1 => (upTo n).map (fun k => decodeElem 0x05 (leField data (2 * k) 2))
      | _ => decodeRow rowFmt n data }

/-- A local entry of a bag: the row's values (none where poisoned), its tile and its weight. -/
structure BagRow where
  vals : Option (List FV)
  tile : Nat × Nat
  w : FV
  deriving Repr

/-- The local entries of a bag in index order. -/
def State.bagRows (s : State) (d : Cmd) (h : Nat) (o : Obj) (t : TableDesc) (r : Resolution) (b : Nat × Nat) : List BagRow :=
  (List.range' b.1 (b.2 - b.1)).filterMap (fun p => match listGet none r.dest p with
    | some (m, row) =>
      if m = s.fab.moduleId then
        let x := s.readRow d h o t row
        some ⟨x.1, x.2, fp32 (listGet 0 r.wgts p).toNat⟩
      else none
    | none => none)

/-- Non-padding indices of a bag. -/
def bagCount (r : Resolution) (b : Nat × Nat) : Nat :=
  ((List.range' b.1 (b.2 - b.1)).filter (fun p => (listGet none r.dest p).isSome)).length

/-- The partials of bag `k` by ascending owner (09 R261). -/
def bagParts (r : Resolution) (rowFmt n k : Nat) : List PartBag :=
  let os := (r.partials.map Prod.fst).foldl (fun l m => insertNew m l) []
  os.flatMap (fun m =>
    match r.partials.find? (fun x => x.1 == m), (indexed 0 (ownerBags m r)).find? (fun x => x.2.1 == k) with
    | some p, some x => [partBag p.2 rowFmt n x.1]
    | _, _ => [])

/-- The pooled value of a bag (09 R261): 0 SUM, 1 MEAN, 2 MAX, 3 NONE. A poisoned row contributes 0 (R266). -/
def poolBag (mode n cnt : Nat) (weighted : Bool) (rows : List BagRow) (parts : List PartBag) : List FV :=
  (upTo n).map (fun e =>
    let el := fun (x : BagRow) => match x.vals with | some v => listGet FV.zero v e | none => FV.zero
    if mode = 2 then
      match rows.map el ++ parts.map (fun p => listGet FV.zero p.vals e) with
      | [] => FV.zero
      | a :: t => t.foldl fvMax a
    else
      let a := rows.foldl (fun acc x =>
        f32 (FV.add acc (if weighted && x.vals.isSome then f32 (FV.mul (el x) x.w) else el x))) FV.zero
      let b := parts.foldl (fun acc p => f32 (FV.add acc (listGet FV.zero p.vals e))) a
      if mode = 1 then (if cnt = 0 then FV.zero else f32 (FV.div b (FV.ofNat cnt))) else b)

/-- A bag's outcome: its status byte (0x00, 0x01, 0x21), its values (none where isolated) and its substituted local rows. -/
structure BagOut where
  status : Nat
  vals : Option (List FV)
  subs : Nat
  deriving Repr

/-- How poisoned rows are handled (09 R266). -/
structure GatherRule where
  mode : Nat
  zeroSub : Bool
  isolate : Bool
  deriving DecidableEq, Repr

/-- The rule of a gather: a served one takes its requester's (13 R408), and its partial sum is not divided (09 R261). -/
def State.gatherRule (s : State) (d : Cmd) : GatherRule :=
  match s.serveOf d.id with
  | some v => { mode := if opBits v.payload 4 1 1 0 = 1 then 0 else opBits v.payload 4 1 1 0, zeroSub := opBits v.payload 4 1 3 3 == 1, isolate := true }
  | none => { mode := gatherMode d.slot, zeroSub := s.fld .gfe d.chan 0x214 5 5 == 1, isolate := opBits d.slot 52 4 6 6 == 1 }

/-- One bag of a gather. -/
def State.gatherBag (s : State) (d : Cmd) (h : Nat) (o : Obj) (t : TableDesc) (r : Resolution) (k : Nat) (b : Nat × Nat) :
    BagOut :=
  let g := s.gatherRule d
  let rows := s.bagRows d h o t r b
  let parts := bagParts r o.fmt t.elems k
  let bad := (rows.filter (fun x => x.vals.isNone)).length
  let far : Bool := parts.any (fun p => p.status == 0x80)
  if (bad ≠ 0 ∧ g.zeroSub = false) ∨ far = true then ⟨0x21, none, 0⟩
  else
    ⟨if bad ≠ 0 ∨ parts.any (fun p => p.status == 1) = true then 0x01 else 0x00,
     some (poolBag g.mode t.elems (bagCount r b) (!r.wgts.isEmpty) rows parts), bad⟩

/-- The first poisoned row that ends a gather: details, where neither substitution nor isolation applies (09 R266). -/
def State.gatherPoison (s : State) (d : Cmd) (h : Nat) (o : Obj) (t : TableDesc) (r : Resolution) : Option (Nat × Nat) :=
  let g := s.gatherRule d
  if g.isolate then none
  else (indexed 0 (bagsOf r.offs)).findSome? (fun x =>
    match (if g.zeroSub then none else (s.bagRows d h o t r x.2).find? (fun y => y.vals.isNone)) with
    | some y => some y.tile
    | none =>
      if (bagParts r o.fmt t.elems x.1).any (fun p => p.status == 0x80) then
        some (h, (r.partials.findSome? (fun p => let w := leField p.2 8 8; if w = 0 then none else some w)).getD 0)
      else none)

/-! ## `GATHER_POOL` -/

/-- The old tiles of its outputs that a gather reads (08 R227): OUT's and BAGSTAT's. -/
def State.gatherParts (s : State) (d : Cmd) : List (Nat × Nat) :=
  if (s.serveOf d.id).isSome then [] else
  let b := d.slot
  let nb := gatherNbags b
  (match s.operandRun (op32 b 32), s.tableOf (op32 b 16) with
   | some o, some (_, t, _) =>
     let n := padElems t.elems
     partTiles (op32 b 32) o (List.range' (opBits b 48 4 23 0 * n) (nb * n))
   | _, _ => []) ++
  (if op32 b 36 = 0 ∨ nb % 4096 = 0 then [] else [(op32 b 36, nb / 4096)])

/-- The tiles that a gather writes (05 R135). -/
def State.gatherOuts (s : State) (d : Cmd) : List (Nat × Nat) :=
  if (s.serveOf d.id).isSome then [] else
  let b := d.slot
  let nb := gatherNbags b
  (match s.operandRun (op32 b 32), s.tableOf (op32 b 16) with
   | some o, some (_, t, _) =>
     let n := padElems t.elems
     outTilesAt (op32 b 32) o (List.range' (opBits b 48 4 23 0 * n) (nb * n))
   | _, _ => []) ++ (if op32 b 36 = 0 then [] else withHandle (op32 b 36) (upTo (ceilDiv nb 4096)))

/-- The condition that a run of a gather finds (05 R522; 09 R266, R268). -/
def State.gatherCond (s : State) (d : Cmd) : Option (Nat × Nat × Nat) :=
  match d.res, s.tableOf (op32 d.slot 16) with
  | some r, some (o, t, _) =>
    (match s.gatherPoison d (op32 d.slot 16) o t r with
     | some x => some (stPoisoned, x.1, x.2)
     | none => s.firstCond d (s.gatherParts d))
  | _, _ => none

/-- The tiles whose rows a gather reads. -/
def State.gatherTiles (s : State) (h : Nat) (o : Obj) (r : Resolution) : List (Nat × Nat) :=
  ((ofOwner s.fab.moduleId r.dest).map (fun x => let pl := s.readerPlace h o x.2; (pl.1, pl.2.1))).eraseDups

/-- Where the local rows of a gather that are not poisoned lie, one for each index (09 R246, R266). -/
def State.gatherRows (s : State) (d : Cmd) (h : Nat) (o : Obj) (r : Resolution) : List (Nat × Nat × Nat) :=
  ((ofOwner s.fab.moduleId r.dest).map (fun x => s.readerPlace h o x.2)).filter (fun p => !s.tileBad d p.1 p.2.1)

/-- The status bytes of a gather in BAGSTAT (09 R262). -/
def State.bagStat (s : State) (d : Cmd) (bs : List BagOut) : List OutTile :=
  let h := op32 d.slot 36
  if h = 0 then [] else
  let st := bs.map (fun b => BitVec.ofNat 8 b.status)
  (upTo (ceilDiv st.length 4096)).map (fun k =>
    OutTile.mk h k (putBytesAt (s.tileData d h k) 0 ((st.drop (4096 * k)).take 4096)) 0 scaleOne)

/-- The PARTIALS message of a served gather (09 R256, 13 R408). -/
def State.partialsMsg (s : State) (d : Cmd) (v : Serve) (h : Nat) (o : Obj) (t : TableDesc) (r : Resolution) (bs : List BagOut) :
    List Byte :=
  let n := t.elems
  let fmt := if opBits v.payload 4 1 1 0 = 3 then 2 else if opBits v.payload 4 1 2 2 = 1 then 1 else 0
  let bad := (indexed 0 (bagsOf r.offs)).findSome? (fun x =>
    (List.range' x.2.1 (x.2.2 - x.2.1)).findSome? (fun p => match listGet none r.dest p with
      | some (_, row) => if (s.readRow d h o t row).1.isNone then some (wrap 64 (listGet 0 r.idx p)) else none
      | none => none))
  let first := if (s.gatherRule d).zeroSub then 0 else match bad with | some g => g % 2 ^ 63 + 2 ^ 63 | none => 0
  let data := (bs.zip (bagsOf r.offs)).flatMap (fun x =>
    match fmt, x.1.vals with
    | 2, some _ => (match listGet none r.dest x.2.1 with
        | some (_, row) => let pl := s.readerPlace h o row
          if (s.readRow d h o t row).1.isSome then padTo (rowLen o.fmt n) (s.rowBytesAt d pl o.rowBytes) else zeros (rowLen o.fmt n)
        | none => zeros (rowLen o.fmt n))
    | 2, none => zeros (rowLen o.fmt n)
    | f, some vs => padTo (partLen f o.fmt n) (vs.flatMap (fun e => if f = 0 then leBytes 4 (enc32 e) else leBytes 2 (convert 0x05 .rne false e)))
    | f, none => zeros (partLen f o.fmt n))
  leBytes 2 bs.length ++ leBytes 1 fmt ++ zeros 1 ++ leBytes 4 ((bs.map BagOut.subs).foldl (· + ·) 0) ++ leBytes 8 first ++
  padTo (ceilDiv bs.length 4 * 4) (bs.map (fun b => BitVec.ofNat 8 (if b.status = 0x21 then 0x80 else b.status))) ++ data

/-- The outputs and the work of a gather (09 R262, R266, R268). -/
def State.gatherWork (s : State) (d : Cmd) (h : Nat) (o : Obj) (t : TableDesc) (r : Resolution) : List OutTile × RunWork × Nat :=
  let bs := (indexed 0 (bagsOf r.offs)).map (fun x => s.gatherBag d h o t r x.1 x.2)
  let read := (s.gatherRows d h o r).length
  match s.serveOf d.id with
  | some v => ([], { RunWork.empty with remote := [(v.peer, 3, s.partialsMsg d v h o t r bs)] }, read)
  | none =>
    let b := d.slot
    let n := t.elems
    let np := padElems n
    match s.operandRun (op32 b 32) with
    | none => ([], RunWork.empty, read)
    | some oo =>
      let ws := (indexed 0 bs).flatMap (fun x => (upTo np).map (fun e =>
        ((opBits b 48 4 23 0 + x.1) * np + e,
         if e < n then (match x.2.vals with | some v => listGet FV.zero v e | none => .nan) else FV.zero)))
      let outs := s.outTiles d (s.outSpec d (op32 b 32) 0 (opBits b 52 4 21 12) (opBits b 52 4 9 8) (opBits b 52 4 10 10 == 1)) oo ws
      let vals := bs.flatMap (fun x => x.vals.getD [])
      let far := (r.partials.map (fun p => leField p.2 4 4)).foldl (· + ·) 0
      let subs := (bs.map BagOut.subs).foldl (· + ·) 0 + far
      let iso := (bs.filter (fun x => x.vals.isNone)).length
      let w := { RunWork.empty with
        amax := if isNarrow oo.fmt && !vals.isEmpty then [(opBits b 52 4 21 12, BitVec.ofNat 32 (amaxOf vals))] else [],
        status := if subs = 0 then stOk else stOkDegraded, detailA := if subs = 0 then iso else 0,
        detailB := if subs = 0 then read else subs }
      (outs ++ s.bagStat d bs, w, read)

/-- The device work of a `GATHER_POOL` whose operands can be read: each row is read for itself, partly written output tiles
whole (01 R22; 09 R262, R265). An armed injection is consumed where an element is pooled (R281). -/
def State.workGather (s : State) (n : Nat) (run : Run) (d : Cmd) (o : Obj) (t : TableDesc) (r : Resolution) : State :=
  let h := op32 d.slot 16
  let j := if (bagsOf r.offs).isEmpty then (false, s) else s.tblInject n 0
  let w := s.gatherWork d h o t r
  let s1 := j.2.countRows n w.2.2
  if j.1 then s1.tblMismatch n
  else
    let parts := s.withScales (s.gatherParts d)
    let reads := s.gatherTiles h o r ++ parts
    (((s1.readRows d n o.rowBytes (s.gatherRows d h o r)).readTiles d n parts).prepare n run (s.framesOf d reads) [] none 64).finishWork
      n d w.1 w.2.1

/-- `GATHER_POOL` on cluster `n`; it waits for operand tiles in the cellar (01 R20). -/
def State.runGather (s : State) (n : Nat) : State :=
  match s.fresh n 0x28 with
  | none => s
  | some (run, d) =>
    match d.res, s.tableOf (op32 d.slot 16) with
    | some r, some (o, t, _) =>
      let far := s.farTiles (s.gatherTiles (op32 d.slot 16) o r ++ s.gatherParts d)
      if !far.isEmpty then s.fetchAll d far
      else match s.gatherCond d with
        | some x => s.stopFound n d x
        | none => s.workGather n run d o t r
    | _, _ => s

/-- `GATHER_POOL` (09 R264). -/
def execGatherPool (clu : Nat) (s : State) : Host.Outcome State Fault Refusal := done (s.runGather clu)

/-! ## Pool slots (09 R245 to R249) -/

/-- The pool slots that running commands have taken and not yet entered. -/
def State.takenSlots (s : State) (h : Nat) : List Nat :=
  let works := s.clus.filterMap (fun x => match x.2.run with
      | some r => (match s.cmd? r.cmd, r.work with
        | some d, some w => if op32 d.slot 16 = h ∧ slotOp d.slot = 0x29 then some w else none
        | _, _ => none)
      | none => none) ++
    s.gfe.cmds.flatMap (fun d => if op32 d.slot 16 = h ∧ slotOp d.slot = 0x29 then
        (match d.more with
         | some m => [m.run2, m.run3].filterMap (fun p => match p with | some x => x.work | none => none)
         | none => [])
      else [])
  works.flatMap (fun w => w.remap.map Prod.snd)

/-- Slots of a pool that are not free: entered, or free only at the next edge. -/
def usedSlots (y : TableDyn) : List Nat := y.remap.map RemapEntry.slot ++ y.freeing

/-- The `k` lowest free slots (DESIGN CHOICE, log entry 8). -/
def State.freeSlots (s : State) (h : Nat) (t : TableDesc) (y : TableDyn) (k : Nat) : List Nat :=
  let used := usedSlots y ++ s.takenSlots h
  ((upTo (min t.slots (k + used.length))).filter (fun i => !used.contains i)).take k

/-- Write one row of a pool in place (09 R249). -/
def State.writePool (s : State) (d : Cmd) (n : Nat) (o : Obj) (t : TableDesc) (row : Nat) (bytes : List Byte) : State :=
  let b := poolRowBytes o t
  let pl := rowPlace t.pool b row
  match s.homeOf t.pool pl.2.1 with
  | none => s
  | some f => (s.writeBytes (frameData f + pl.2.2) (padTo b bytes)).engineWrite d.chan n f b

/-! ## The optimisers (09 R270, R273) -/

/-- How an update computes. -/
structure Upd where
  mode : Nat
  rnd : Nat
  sat : Bool
  hyper : List Nat
  deriving DecidableEq, Repr

/-- The fields of an update: a served one takes its message's (13 R408). -/
def State.updOf (s : State) (d : Cmd) : Upd :=
  match s.serveOf d.id with
  | some v => { mode := opBits v.payload 4 1 3 0, rnd := opBits v.payload 4 1 5 4, sat := opBits v.payload 4 1 6 6 == 1,
                hyper := hyperOf (v.payload.drop 12) }
  | none => { mode := updMode d.slot, rnd := opBits d.slot 36 4 1 0, sat := opBits d.slot 36 4 2 2 == 1,
              hyper := hyperOf (s.payloadOf d) }

/-- A row's optimiser state: per-element state and the scalar. -/
structure OptState where
  m : List FV
  v : FV
  deriving Repr

/-- A hyperparameter. -/
def Upd.h (u : Upd) (i : Nat) : FV := fp32 (listGet 0 u.hyper i)

/-- The gradient with its multiplier and weight decay (09 R273). -/
def Upd.grad (u : Upd) (w g : List FV) : List FV :=
  let gs := if (u.h 5).isZero then FV.ofNat 1 else u.h 5
  (g.zip w).map (fun x => f32 (FV.add (f32 (FV.mul x.1 gs)) (f32 (FV.mul (u.h 4) x.2))))

/-- A step of an optimiser on one row (09 R273). -/
def Upd.step (u : Upd) (w g0 : List FV) (st : OptState) : List FV × OptState :=
  let g := u.grad w g0
  let lr := u.h 0
  let move := fun (x : List FV) (d : Option FV) => (w.zip x).map (fun y =>
    let p := f32 (FV.mul lr y.2)
    f32 (FV.add y.1 (FV.neg (match d with | some v => f32 (FV.div p v) | none => p))))
  let q := f32 (FV.div (f32 (exactSum (g.map (fun x => FV.mul x x)))) (FV.ofNat (max g.length 1)))
  match u.mode with
  | 1 => (move g none, st)
  | 2 =>
    let v := f32 (FV.add st.v q)
    (move g (some (f32 (FV.add (f32 (FV.sqrt v)) (u.h 1)))), { st with v := v })
  | _ =>
    let b1c := f32 (FV.add (FV.ofNat 1) (u.h 2).neg)
    let b2c := f32 (FV.add (FV.ofNat 1) (u.h 3).neg)
    let m := (st.m.zip g).map (fun x => f32 (FV.add (f32 (FV.mul (u.h 2) x.1)) (f32 (FV.mul b1c x.2))))
    let v := f32 (FV.add (f32 (FV.mul (u.h 3) st.v)) (f32 (FV.mul b2c q)))
    (move m (some (f32 (FV.add (f32 (FV.sqrt v)) (u.h 1)))), { m := m, v := v })

/-- The state of a row from its state row's bytes (09 R241). -/
def optStateOf (t : TableDesc) (bs : List Byte) : OptState :=
  let l := elemStateLen t.elemState t.elems
  { m := if t.elemState = 0 then [] else decodeRow (elemStateFmt t.elemState) t.elems bs,
    v := if t.rowState = 0 then decodeElem 0x04 (leField bs l 4) else decodeElem 0x05 (leField bs l 2) }

/-- The state row's bytes after a step: what a mode does not change keeps its bytes (09 R273, R274). `rnd p e` is the
rounding of element `e` at rounding point `p`. -/
def optBytes (u : Upd) (t : TableDesc) (old : List Byte) (st : OptState) (rnd : Nat → Nat → Rnd) : List Byte :=
  let l := elemStateLen t.elemState t.elems
  let f := elemStateFmt t.elemState
  let m := if u.mode = 3 ∧ t.elemState ≠ 0 then
      padTo l ((encodeRow f t.elems u.sat ((indexed 0 st.m).map (fun x => (x.2, rnd 1 x.1)))).take l)
    else padTo l (old.take l)
  let v := if 2 ≤ u.mode then
      (if t.rowState = 0 then leBytes 4 (convert 0x04 (rnd 2 0) u.sat st.v) else leBytes 2 (convert 0x05 (rnd 2 0) u.sat st.v))
    else (old.drop l).take (if t.rowState = 0 then 4 else 2)
  padTo t.stateLen (m ++ v)

/-! ## Source rows (09 R269, R272) -/

/-- The values of source row `j`. -/
def State.srcRow (s : State) (d : Cmd) (n j : Nat) : List FV :=
  match s.serveOf d.id with
  | some v => decodeRow (leField v.payload 5 1) n (umSrc v.payload j)
  | none =>
    let b := d.slot
    let h := op32 b 24
    match s.operandRun h with
    | none => []
    | some o =>
      let base := opBits b 32 4 23 0
      if isPackedRow o.fmt then
        let l := rowLen o.fmt n
        decodeRow o.fmt n (s.rowBytesAt d (rowPlace h l (base * rowsIn l + j)) l)
      else (upTo n).map (fun e => s.elemVal d h o o.fmt base (j * padElems n + e))

/-- The merged source of a distinct row: the last row in ROW_WRITE, else the FP32 sum in index order (09 R272). -/
def State.mergedRow (s : State) (d : Cmd) (mode n : Nat) (js : List Nat) : List FV :=
  match js with
  | [] => []
  | j :: t =>
    if mode = 0 then s.srcRow d n (js.getLast?.getD j)
    else t.foldl (fun a k => (a.zip (s.srcRow d n k)).map (fun x => f32 (FV.add x.1 x.2))) (s.srcRow d n j)

/-- The source rows that an update reads, for its own rows and for those of each owner: in ROW_WRITE the last that names a row, else
all that name it (09 R272). -/
def State.srcUsed (s : State) (mode : Nat) (r : Resolution) : List Nat :=
  (s.fab.moduleId :: s.ownersOf r.dest).flatMap (fun m => (distinctRows m r.dest).flatMap (fun x =>
    if mode = 0 then x.2.getLast?.toList else x.2))

/-- The source rows that an update reads from its SRC: none for a served one, whose rows came in its message. -/
def State.srcRows (s : State) (d : Cmd) : List Nat :=
  if (s.serveOf d.id).isSome then []
  else match d.res with | some r => s.srcUsed (s.updOf d).mode r | none => []

/-- The source tiles that an update reads. -/
def State.updSrcTiles (s : State) (d : Cmd) (n : Nat) : List (Nat × Nat) :=
  match s.operandRun (op32 d.slot 24) with
  | some o => ((s.srcRows d).flatMap (fun j => withHandle (op32 d.slot 24) (srcRowTiles d.slot o n j))).eraseDups
  | none => []

/-- The parts of source row `j` by tile: the tile, and the row's bytes there (09 R269, R276). -/
def srcSpans (b : List Byte) (o : Obj) (n j : Nat) : List (Nat × Nat) :=
  if isPackedRow o.fmt then (srcRowTiles b o n j).map (fun k => (k, rowLen o.fmt n))
  else
    let w := elemBits o.fmt / 8
    let lo := opBits b 32 4 23 0 * 4096 + j * padElems n * w
    (srcRowTiles b o n j).map (fun k => (k, min (lo + n * w) ((k + 1) * 4096) - max lo (k * 4096)))

/-- An update reads its source rows on cluster `c`, each for itself (01 R22; 05 R140; 09 R276). -/
def State.readSource (s : State) (d : Cmd) (c n : Nat) : State :=
  match s.operandRun (op32 d.slot 24) with
  | none => s
  | some o => ((s.srcRows d).flatMap (fun j => srcSpans d.slot o n j)).foldl (fun t x =>
      t.readRows d c x.2 [(op32 d.slot 24, x.1, 0)]) s

/-! ## `SCATTER_UPDATE` -/

/-- Where an update reads row `r`'s row and state row (09 R247). -/
def updPlace (h : Nat) (o : Obj) (t : TableDesc) (r : Nat) : (Nat × Nat × Nat) × (Nat × Nat × Nat) :=
  match updEntry o r with
  | some e => (rowPlace t.pool (poolRowBytes o t) (2 * e.slot), rowPlace t.pool (poolRowBytes o t) (2 * e.slot + 1))
  | none => (rowPlace h o.rowBytes r, rowPlace t.state t.stateLen r)

/-- The current rows and state rows that an update reads (09 R247, R277): none in ROW_WRITE. -/
def State.updRowTiles (s : State) (d : Cmd) (h : Nat) (o : Obj) (t : TableDesc) (r : Resolution) : List (Nat × Nat) :=
  if (s.updOf d).mode = 0 then []
  else ((distinctRows s.fab.moduleId r.dest).flatMap (fun x =>
    let p := updPlace h o t x.1
    [(p.1.1, p.1.2.1)] ++ (if t.state = 0 then [] else [(p.2.1, p.2.2.1)]))).eraseDups

/-- The condition that a run of an update finds (05 R522; 09 R277). -/
def State.scatterCond (s : State) (d : Cmd) : Option (Nat × Nat × Nat) :=
  match d.res, s.tableOf (op32 d.slot 16) with
  | some r, some (o, t, _) => s.firstCond d (s.updSrcTiles d t.elems ++ s.updRowTiles d (op32 d.slot 16) o t r)
  | _, _ => none

/-- The new row and state row of the `u`-th distinct row, as bytes (09 R273, R274). -/
def State.newRow (s : State) (d : Cmd) (h : Nat) (o : Obj) (t : TableDesc) (scale u : Nat) (x : Nat × List Nat) :
    List Byte × List Byte :=
  let up := s.updOf d
  let k := s.srState d
  let rnd := fun (p e : Nat) => rndAt up.rnd k.1 k.2 p (u * 4096 + e)
  let pl := updPlace h o t x.1
  let g := s.mergedRow d up.mode t.elems x.2
  let old := if t.state = 0 then [] else s.rowBytesAt d pl.2 t.stateLen
  let r := if up.mode = 0 then (g, OptState.mk [] FV.zero) else up.step (s.rowVals d pl.1 o.fmt t.elems) g (optStateOf t old)
  let vs := if isSingleLevel o.fmt then r.1.map (fun v => f32 (FV.div v (fp32 scale))) else r.1
  (encodeRow o.fmt t.elems up.sat ((indexed 0 vs).map (fun y => (y.2, rnd 0 y.1))),
   if t.state = 0 then [] else optBytes up t old r.2 rnd)

/-- Write the new rows of an update into free slots: the pairs of local row and slot. -/
def State.writeNewRows (s : State) (d : Cmd) (n h : Nat) (o : Obj) (t : TableDesc) : State → List (Nat × (Nat × List Nat) × Nat) →
    State
  | acc, [] => acc
  | acc, (u, x, slot) :: rest =>
    let pl := rowPlace t.pool (poolRowBytes o t) (2 * slot)
    let scale := match s.homeOf t.pool pl.2.1 with | some f => s.tileScale f | none => scaleOne
    let b := s.newRow d h o t scale u x
    let a1 := acc.writePool d n o t (2 * slot) b.1
    let a2 := if t.state = 0 then a1 else a1.writePool d n o t (2 * slot + 1) b.2
    State.writeNewRows s d n h o t a2 rest

/-- The UPDATE message of an update to an owner (09 R275, 13 R408): the merged source rows as FP32. -/
def State.updateMsg (s : State) (d : Cmd) (t : TableDesc) (r : Resolution) (own : Nat) : List Byte :=
  let up := s.updOf d
  let l := rowLen 0x04 t.elems
  let xs := distinctRows own r.dest
  leBytes 4 t.tag ++ leBytes 1 (up.mode + 16 * up.rnd + (if up.sat then 64 else 0)) ++ leBytes 1 0x04 ++ leBytes 2 l ++
  leBytes 4 xs.length ++ padTo 64 (if up.mode = 0 then [] else (s.payloadOf d).take 64) ++
  xs.flatMap (fun x => leBytes 8 (wrap 64 (listGet 0 r.idx ((x.2.head?).getD 0)))) ++
  xs.flatMap (fun x => padTo l ((s.mergedRow d up.mode t.elems x.2).flatMap (fun v => leBytes 4 (enc32 v))))

/-- The pool tiles of slots: their rows and state rows (09 R241). -/
def slotTiles (o : Obj) (t : TableDesc) (slots : List Nat) : List (Nat × Nat) :=
  (slots.flatMap (fun k => [0, 1].map (fun i => (t.pool, (rowPlace t.pool (poolRowBytes o t) (2 * k + i)).2.1)))).eraseDups

/-- An update reads its source rows, and but in ROW_WRITE the current rows and state rows of its distinct rows (09 R273, R276). -/
def State.readUpdate (s : State) (d : Cmd) (n h : Nat) (o : Obj) (t : TableDesc) (rows : List Nat) : State :=
  let s1 := s.readSource d n t.elems
  if (s.updOf d).mode = 0 then s1
  else
    let s2 := s1.readRows d n o.rowBytes (rows.map (fun r => (updPlace h o t r).1))
    if t.state = 0 then s2 else s2.readRows d n t.stateLen (rows.map (fun r => (updPlace h o t r).2))

/-- The messages that an update's flip releases: an UPDATE to each owner, or the answer to the peer that a served one works for (09
R275, 13 R412). -/
def State.updateOuts (s : State) (d : Cmd) (t : TableDesc) (r : Resolution) : List (Nat × Nat × List Byte) :=
  match s.serveOf d.id with
  | some v => [(v.peer, 5, leBytes 4 v.msgId.toNat)]
  | none => (s.ownersOf r.dest).map (fun m => (m, 4, s.updateMsg d t r m))

/-- The device work of an update whose operands can be read: the new rows go into the free pool slots `slots`, entered in the
remap at the flip. An armed injection is consumed where an optimiser element is computed (09 R281). -/
def State.workScatter (s : State) (n : Nat) (run : Run) (d : Cmd) (o : Obj) (t : TableDesc) (r : Resolution) (slots : List Nat) :
    State :=
  let h := op32 d.slot 16
  let xs := distinctRows s.fab.moduleId r.dest
  let mode := (s.updOf d).mode
  let j := if mode = 0 ∨ xs.isEmpty = true then (false, s) else s.tblInject n 1
  let s1 := j.2.countRows n ((s.srcRows d).length + (if mode = 0 then 0 else xs.length * (if t.state = 0 then 1 else 2)))
  if j.1 then s1.tblMismatch n
  else
    let plan := (indexed 0 (xs.zip slots)).map (fun x => (x.1, x.2.1, x.2.2))
    let far := ((s.ownersOf r.dest).map (fun m => (distinctRows m r.dest).length)).foldl (· + ·) 0
    let reads := s.withScales (s.updSrcTiles d t.elems ++ s.updRowTiles d h o t r)
    let s2 := s.writeNewRows d n h o t (s1.readUpdate d n h o t (xs.map Prod.fst)) plan
    (s2.prepare n run (s.framesOf d reads) [] none 64).finishWork n d []
      { RunWork.empty with remap := (xs.map Prod.fst).zip slots, remote := s.updateOuts d t r, detailA := xs.length, detailB := far }

/-- `SCATTER_UPDATE` on cluster `n`; it waits for operand and pool tiles in the cellar (01 R20). -/
def State.runScatter (s : State) (n : Nat) : State :=
  match s.fresh n 0x29 with
  | none => s
  | some (run, d) =>
    match d.res, s.tableOf (op32 d.slot 16) with
    | some r, some (o, t, y) =>
      let h := op32 d.slot 16
      let k := (distinctRows s.fab.moduleId r.dest).length
      let slots := s.freeSlots h t y k
      let far := s.farTiles (s.updSrcTiles d t.elems ++ s.updRowTiles d h o t r ++ slotTiles o t slots)
      if !far.isEmpty then s.fetchAll d far
      else match s.scatterCond d with
        | some x => s.stopFound n d x
        | none =>
          if slots.length < k then s.stopWith n stNoResource 0x0101 0 else s.workScatter n run d o t r slots
    | _, _ => s

/-- `SCATTER_UPDATE` (09 R276). -/
def execScatterUpdate (clu : Nat) (s : State) : Host.Outcome State Fault Refusal := done (s.runScatter clu)

/-- A row's new entry is entered in the remap in the flip cycle (09 R248). -/
def enterRow (tick chan : Nat) (y : TableDyn) (x : Nat × Nat) : TableDyn :=
  { y with remap := (y.remap.filter (fun e => !(e.row == x.1 && e.epoch == tick))) ++ [⟨x.1, x.2, tick, chan⟩] }

/-- An update's entries are entered in the remap of its table (09 R248). -/
def State.enterRows (s : State) (h chan : Nat) (rows : List (Nat × Nat)) : State :=
  match s.tableOf h with
  | none => s
  | some (o, t, y) =>
    let y1 := rows.foldl (enterRow s.tickN chan) y
    s.setObj h { o with table := some (t, { y1 with lastUpd := chan }) }

/-- At an edge, entries that a later one supersedes go, and the slots that waited for it become free (09 R248, R280). -/
def settleRemap (y : TableDyn) : TableDyn :=
  { y with freeing := [],
           remap := y.remap.filter (fun e => !y.remap.any (fun f => f.row == e.row && decide (e.epoch < f.epoch))) }

/-! ## Folds (09 R279, R280) -/

/-- The entries that can be folded now (09 R279). -/
def State.foldable (s : State) (h : Nat) (o : Obj) (y : TableDyn) : List RemapEntry :=
  y.remap.filter (fun e => decide (e.epoch < s.tickN) && ((y.remap.filter (fun f => f.row == e.row)).length == 1) &&
    (match s.homeOf h (rowPlace h o.rowBytes e.row).2.1 with
     | some f => (s.frame f).state != .poisoned
     | none => false))

/-- The fill of a pool stands at or above a percentage. -/
def poolAtLeast (t : TableDesc) (y : TableDyn) (pct : Nat) : Bool := decide (pct * t.slots ≤ 100 * (usedSlots y).length)

/-- The tiles that a fold of entries rewrites (09 R280). -/
def foldTiles (h : Nat) (o : Obj) (t : TableDesc) (rows : List Nat) : List (Nat × Nat) :=
  (rows.flatMap (fun r => [(h, (rowPlace h o.rowBytes r).2.1)] ++
    (if t.state = 0 then [] else [(t.state, (rowPlace t.state t.stateLen r).2.1)]))).eraseDups

/-- The pool rows that a fold reads: a row for each entry, and its state row where the table has state (09 R280). -/
def foldRows (o : Obj) (t : TableDesc) (slots : List Nat) : List (Nat × Nat × Nat) :=
  slots.flatMap (fun k => (if t.state = 0 then [0] else [0, 1]).map (fun i => rowPlace t.pool (poolRowBytes o t) (2 * k + i)))

/-- The slot that stands for a fold: its mark, class 3, the most that it can cost, and its table (09 R280). -/
def foldSlot (h budget : Nat) : List Byte :=
  leBytes 1 foldOp ++ leBytes 1 0xC8 ++ zeros 4 ++ leBytes 4 (min budget 4194303) ++ zeros 6 ++ leBytes 4 h ++ zeros 44

/-- The bytes that a fold moves: each pool row read, each home or state tile read and written whole (09 R280). -/
def foldBytes (o : Obj) (t : TableDesc) (h : Nat) (es : List RemapEntry) : Nat :=
  es.length * (if t.state = 0 then 1 else 2) * poolRowBytes o t + 8192 * (foldTiles h o t (es.map RemapEntry.row)).length

/-- The most that a fold of entries can cost: all its bytes through the network port (09 R280). -/
def foldCost (o : Obj) (t : TableDesc) (h : Nat) (es : List RemapEntry) : Nat := 64 + ceilDiv (foldBytes o t h es) 512

/-- The partition in which the folds of a table are admitted: that of the channel of the last update (09 R280). -/
def State.foldPart (s : State) (y : TableDyn) : Nat := s.fld .gfe y.lastUpd 0x214 2 0

/-- The entries of one fold: at most 4,096, and no more than its partition's admission limit holds, halved until it does (09 R280;
DEDUCED, log entry 48). -/
def State.foldSome (s : State) (h : Nat) (o : Obj) (t : TableDesc) (y : TableDyn) (es : List RemapEntry) : List RemapEntry :=
  match ((upTo 13).map (fun i => es.take (4096 / 2 ^ i))).find? (fun l => decide (foldCost o t h l ≤ s.limitOf (s.foldPart y))) with
  | some l => l
  | none => es.take 1

/-- The bytes that a fold moves through a cluster's own scratchpad and through its network port: each pool row read, each home or
state tile read and written whole (09 R280). -/
def State.foldLoad (s : State) (d : Cmd) (n : Nat) : Nat × Nat :=
  match d.res, s.tableOf (op32 d.slot 16) with
  | some r, some (o, t, _) =>
    let at' := fun (x : Nat × Nat) => match s.homeOf x.1 x.2 with | some f => decide (tierOf f = 0 ∧ cluOf f = n) | none => false
    let own := fun (x : Nat × Nat) => s.shadowTier x.1 x.2 == (0, n)
    let tiles := foldTiles (op32 d.slot 16) o t (r.idx.map Int.toNat)
    let parts := (foldRows o t r.offs).map (fun p => (at' (p.1, p.2.1), poolRowBytes o t)) ++
      tiles.map (fun x => (at' x, 4096)) ++ tiles.map (fun x => (own x, 4096))
    (((parts.filter Prod.fst).map Prod.snd).foldl (· + ·) 0, ((parts.filter (fun p => !p.1)).map Prod.snd).foldl (· + ·) 0)
  | _, _ => (0, 0)

/-- The charge of a command on a cluster: a fold's follows from where its tiles are (02 R29; 09 R280). -/
def State.chargeOn (s : State) (d : Cmd) (n : Nat) : Nat :=
  if slotOp d.slot = foldOp then 64 + ceilDiv (s.foldLoad d n).1 4096 + ceilDiv (s.foldLoad d n).2 512 else slotCharge d.slot

/-- Issue a fold of entries: it begins its resolution (09 R280). -/
def State.issueFold (s : State) (h : Nat) (o : Obj) (t : TableDesc) (y : TableDyn) (es : List RemapEntry) : State :=
  let id := s.gfe.nextId + 1
  let rows := es.map RemapEntry.row
  let held := (foldTiles h o t rows ++ slotTiles o t (es.map RemapEntry.slot)).eraseDups
  let wait := held.filter s.inCellar
  let r : Resolution :=
    { idx := rows.map Int.ofNat, dest := [], offs := es.map RemapEntry.slot,
      wgts := es.map (fun e => BitVec.ofNat 32 e.chan), awaitTiles := wait, awaitPeers := [], partials := [], held := held,
      tick := s.tickN }
  let d := { newCmd id y.lastUpd none (foldSlot h (foldCost o t h es)) [] (s.foldPart y) s.tickN with
    launch := some id, cls := 3, phase := .resolving, res := some r }
  let s1 := s.setObj h { o with table := some (t, { y with folding := true }) }
  let s2 := { s1 with gfe := { s1.gfe with cmds := s1.gfe.cmds ++ [d], nextId := id } }
  (s2.fetchAll d wait).settleRes id

/-- `FOLD` (09 R279): the placement cores issue a fold of a table that has entries to fold, one at a time, as their resolution limits
allow (R255). -/
def execFold (table : Nat) (s : State) : Host.Outcome State Fault Refusal :=
  done (
    match s.liveObj table, s.tableOf table with
    | some _, some (o, t, y) =>
      if !s.on || !s.coresRun || s.unitTest 2 || s.sup.stopping || y.folding then s
      else
        let high := s.fld .tbl table 0x004 6 0
        let low := s.fld .tbl table 0x004 14 8
        let drain : Bool := if y.draining then decide (low * t.slots < 100 * (usedSlots y).length) else poolAtLeast t y high
        let y1 := { y with draining := drain }
        let all := s.foldable table o y1
        let es := s.foldSome table o t y (if drain then all else all.filter (fun e => decide (e.epoch < y.foldNow)))
        if es.isEmpty || !s.mayResolve 0 es.length (3, 2 ^ 64, y.lastUpd) then s.setObj table { o with table := some (t, y1) }
        else s.issueFold table o t y1 es
    | _, _ => s)

/-- `FOLD_NOW`: folds of every entry of the selected table that can be folded are asked for (09 R279, R281). -/
def execFoldNow (a : Acc) (s : State) : Host.Outcome State Fault Refusal :=
  done (
    if !s.served then s else
    let h := s.regGet .tbl (accNum a) 0x000
    match s.liveObj h, s.tableOf h with
    | some _, some (o, t, y) => s.setObj h { o with table := some (t, { y with foldNow := s.tickN }) }
    | _, _ => s)

/-- The rows that a fold carries home: rewritten tiles, one shadow tile each (09 R280, R242). -/
def State.foldOuts (s : State) (d : Cmd) (h : Nat) (o : Obj) (t : TableDesc) (r : Resolution) : List OutTile :=
  let es := (r.idx.map Int.toNat).zip r.offs
  let pb := poolRowBytes o t
  (foldTiles h o t (r.idx.map Int.toNat)).map (fun tl =>
    let state : Bool := tl.1 != h
    let b := if state then t.stateLen else o.rowBytes
    let scale := s.scaleOfTile d tl.1 tl.2
    let bytes := es.foldl (fun bs e =>
      let pl := rowPlace tl.1 b e.1
      if pl.2.1 ≠ tl.2 then bs
      else
        let src := rowPlace t.pool pb (2 * e.2 + (if state then 1 else 0))
        let raw := s.rowBytesAt d src b
        let sc := s.scaleOfTile d src.1 src.2.1
        let new := if !state && isSingleLevel o.fmt && sc != scale then
            padTo b (encodeRow o.fmt t.elems true ((s.rowVals d src o.fmt t.elems).map (fun v => (f32 (FV.div v (fp32 scale)), Rnd.rne))))
          else raw
        putBytesAt bs pl.2.2 new) (s.tileData d tl.1 tl.2)
    OutTile.mk tl.1 tl.2 bytes 0 scale)

/-- The condition that a fold finds. -/
def State.foldCond (s : State) (d : Cmd) : Option (Nat × Nat × Nat) :=
  match d.res, s.tableOf (op32 d.slot 16) with
  | some r, some (o, t, _) =>
    s.firstCond d (slotTiles o t r.offs ++ foldTiles (op32 d.slot 16) o t (r.idx.map Int.toNat))
  | _, _ => none

/-- The number of an account that no channel has: it collects the bytes of a fold. -/
def foldAcct : Nat := 4096

/-- The bytes that a fold has moved are charged to the channels whose updates created its entries, in proportion to entries (05
R140; 09 R280) (DEDUCED, log entry 51). -/
def State.shareBytes (s : State) (ws : List W32) : State :=
  let bs := (s.acct foldAcct).bytes
  (ws.eraseDups).foldl (fun t c => (upTo 16).foldl (fun u p =>
    u.chargeBytes c.toNat p (listGet 0 bs p * (ws.filter (fun w => w == c)).length / max ws.length 1)) t)
    (s.setAcct foldAcct ChanAcct.init)

/-- The device work of a fold whose tiles can be read on cluster `n` (09 R280, R281). -/
def State.workFold (s : State) (n : Nat) (run : Run) (d : Cmd) (o : Obj) (t : TableDesc) (r : Resolution) : State :=
  let e := { d with chan := foldAcct }
  let tiles := foldTiles (op32 d.slot 16) o t (r.idx.map Int.toNat)
  let rows := foldRows o t r.offs
  let s1 := ((s.countRows n rows.length).readRows e n (poolRowBytes o t) rows).readTiles e n tiles
  ((s1.prepare n run (s.framesOf d (slotTiles o t r.offs ++ tiles)) [] none 64).finishWork n e
    (s.foldOuts d (op32 d.slot 16) o t r) { RunWork.empty with remap := (r.idx.map Int.toNat).zip r.offs }).shareBytes r.wgts

/-- A fold on cluster `n`; it waits for tiles in the cellar (01 R20). -/
def State.runFold (s : State) (n : Nat) : State :=
  match s.fresh n foldOp with
  | none => s
  | some (run, d) =>
    match d.res, s.tableOf (op32 d.slot 16) with
    | some r, some (o, t, _) =>
      let far := s.farTiles (slotTiles o t r.offs ++ foldTiles (op32 d.slot 16) o t (r.idx.map Int.toNat))
      if !far.isEmpty then s.fetchAll d far
      else match s.foldCond d with
        | some x => s.stopFound n d x
        | none => s.workFold n run d o t r
    | _, _ => s

/-- The flip of a fold: its entries leave the remap, their slots free at the next edge (09 R280). -/
def State.leaveRows (s : State) (h : Nat) (rows : List (Nat × Nat)) : State :=
  match s.tableOf h with
  | none => s
  | some (o, t, y) =>
    let gone := fun (e : RemapEntry) => rows.any (fun x => x.1 == e.row && x.2 == e.slot)
    s.setObj h { o with table := some (t, { y with
      remap := y.remap.filter (fun e => !gone e), freeing := y.freeing ++ (y.remap.filter gone).map RemapEntry.slot }) }

end Sys2Proof.Machine
end

