-- ==== Sys2Proof/Machine/Stop.lean ====
section
/-! DEFINITION. The controlled stop (16 R475), which the supply, the sensors and the stacks can decide. -/

namespace Sys2Proof.Machine

/-- A cluster's run in device work, or a command admitted to it, ends with `ST_KILLED` and is not run again (16 R475). -/
def State.stopCmd (s : State) (d : Cmd) : State :=
  let s1 := if d.paired then s.discardPair d true else
    match d.phase with
    | .running n => (match s.running n with
      | some (r, e) => if e.id = d.id then s.stopRun n (s.elapsed r) true else s
      | none => s)
    | .admitted n => s.unqueue n d.id
    | _ => s
  s1.endCmd ((s1.cmd? d.id).getD d) stKilled 0 0 false

/-- The nodes that hold commands. -/
def State.nodes (s : State) : List Node := (s.gfe.cmds.map Cmd.node).eraseDups

/-- A controlled stop ends a command: a cluster command that is not in a commit phase, in resolution, or any command that
waits at a head (16 R475). -/
def State.stopEnds (s : State) (d : Cmd) : Bool :=
  match d.phase with
  | .flush _ _ => false
  | .acks _ _ _ => false
  | .running _ => true
  | .admitted _ => true
  | .resolving => true
  | .ready => true
  | _ => ((s.headOf d.node).map Cmd.id) == some d.id

/-- The controlled stop is decided (16 R475) (DEDUCED, log entry 51). -/
def State.controlledStop (s : State) : State :=
  if s.sup.stopping then s
  else
    let s1 := ({ s with sup := { s.sup with stopping := true, stopAt := s.clk.now } } : State).raise .pwr 0 0x000 5
    ((s1.gfe.cmds.filter s1.stopEnds).foldl (fun t d => match t.cmd? d.id with
      | some e => t.stopCmd e
      | none => t) s1).tidy

end Sys2Proof.Machine
end

