-- ==== Sys2Proof/Machine/HostMem.lean ====
section
/-! DEFINITION. Device memory as the host reaches it over CXL.mem: the raw windows (12 R362 to R364) and the object aperture
(R365 to R368). -/

namespace Sys2Proof.Machine

/-! ## The HDM range (12 R362) -/

/-- The module completes a CXL.mem request to an address (12 R360, R362). -/
def State.memOpen (s : State) (dpa : Nat) : Bool :=
  s.on && s.linkUp && s.link.memEn && (match s.link.hdm with | some n => decide (dpa < n) | none => false)

/-- The end of the object aperture. -/
def apertureEnd : Nat := 0x40000000000
/-- The first address of the raw attic window; the raw cellar lies below it. -/
def rawAttic : Nat := 0x140000000000
/-- The first address of the hole, above the raw scratchpad. -/
def holeStart : Nat := 0x1440C0000000

/-- Answer an access: data for a read, a completion for a write (12 R359). -/
def State.memAnswer (s : State) (a : MemAcc) (bytes : List Byte) (poison : Bool) : State :=
  match a.write with
  | none => s.emit (.memData (padTo a.len bytes) poison)
  | some _ => s.emit .memCmp

/-- A persistent failure found on a frame: a HOME becomes POISONED, and a move of it is abandoned; a FREE frame is retired; in
any other state it is counted (10 R301; 14 R421 to R423). -/
def State.badRead (s : State) (f : Nat) (c : PoisonCause) : State :=
  let r := s.frame f
  match r.state with
  | .home =>
    ((s.poisonFrame f c).tidy.settleResAll)
  | .free => if r.retired || tierOf f == 3 then s else s.retireFrame f
  | _ => { s with integ := { s.integ with ue := satAdd 16 s.integ.ue 1 } }

/-! ## Raw windows (12 R363, R364) -/

/-- A frame number of a raw window names a frame in service (12 R363). -/
def State.rawExists (s : State) (f : Nat) : Bool :=
  if tierOf f = 0 then decide (cluOf f < s.nClus)
  else decide (f < (s.tierRange (tierOf f)).1 + (s.tierRange (tierOf f)).2)

/-- A read in the raw cellar window (12 R363). -/
def MemAcc.rawCellarRead (a : MemAcc) : Bool := a.write.isNone && decide (apertureEnd ≤ a.dpa) && decide (a.dpa < rawAttic)

/-- An access to a raw window. -/
def State.rawAccess (s : State) (a : MemAcc) (bad : Option PoisonCause) : State :=
  let f := a.dpa / 4096
  match a.write with
  | some bs =>
    (if a.dpa < rawAttic then s.raise .cxl 0 0x004 6
     else if s.rawExists f then (s.touch f).writeBytes a.dpa bs else s).memAnswer a [] false
  | none =>
    if !s.rawExists f then s.memAnswer a [] false
    else match bad with
      | some c => ((s.touch f).badRead f c).memAnswer a [] true
      | none => if (s.frame f).state = .poisoned then (s.touch f).memAnswer a [] true
        else (s.touch f).memAnswer a (s.bytesAt a.dpa a.len) false

/-! ## The object aperture (12 R365 to R367) -/

/-- The slot of an aperture address, and the offset in the slot. -/
def aptSlot (dpa : Nat) : Nat := dpa / 0x1000000000
def aptOff (dpa : Nat) : Nat := dpa % 0x1000000000

/-- The tile of an offset of a slot with base tile 0, the byte within its view, and whether the view is the side-band one;
none in the reserved part (12 R366). -/
def aptView (o : Nat) : Option (Nat × Nat × Bool) :=
  if o < 0x800000000 then some (o / 4096, o % 4096, false)
  else if o < 0x900000000 then some ((o - 0x800000000) / 512, (o - 0x800000000) % 512, true)
  else none

/-- The side-band view of a tile: header, reserved bytes, row checks (12 R366). -/
def State.sideView (s : State) (f rowBytes : Nat) : List Byte :=
  s.header f ++ leBytes 8 (s.blockCheck f) ++ zeros 240 ++ s.rowChecks f rowBytes

/-- Write into the side-band view: only SCALE_SEQ and TILE_SCALE, header bytes 2 to 7, take written values (12 R367). -/
def State.writeSide (s : State) (f x : Nat) (bs : List Byte) : State :=
  (indexed x bs).foldl (fun t p => if 2 ≤ p.1 ∧ p.1 < 8 then t.putByte (frameHdr f + p.1) p.2 else t) s

/-- The first write to a POISONED tile makes it HOME again, with zero data and a fresh header (10 R299). -/
def State.renew (s : State) (f : Nat) (o : Obj) (tile : Nat) : State :=
  if (s.frame f).state = .poisoned then
    (s.writeFrame f [] (o.tileFmt tile) tile 0 scaleOne).setFrame f { s.frame f with state := .home }
  else s

/-- An aperture write marks a move of its tile, which its commit then abandons (10 R301). -/
def State.dirtyMove (s : State) (h tile : Nat) : State :=
  { s with place := { s.place with moves := s.place.moves.map (fun m =>
      if m.obj = h ∧ m.tile = tile then { m with dirty := true } else m) } }

/-- An access to the home of a tile (12 R367). -/
def State.tileAccess (s : State) (a : MemAcc) (h tile x : Nat) (side : Bool) (o : Obj) (f : Nat) (bad : Option PoisonCause) :
    State :=
  let s0 := s.touch f
  match a.write with
  | some bs =>
    let s1 := (s0.renew f o tile).dirtyMove h tile
    (if side then s1.writeSide f x bs else s1.writeBytes (frameData f + x) bs).memAnswer a [] false
  | none =>
    match bad with
    | some c => (s0.badRead f c).memAnswer a [] true
    | none =>
      if (s0.frame f).state = .poisoned then s0.memAnswer a [] true
      else s0.memAnswer a (if side then ((s0.sideView f o.rowBytes).drop x).take a.len else s0.bytesAt (frameData f + x) a.len) false

/-- An access to the aperture; none while it waits for its tile to leave the cellar (12 R365 to R367). -/
def State.aptAccess (s : State) (a : MemAcc) (bad : Option PoisonCause) : Option State :=
  match aptView (aptOff a.dpa) with
  | none => some (s.memAnswer a [] false)
  | some (t, x, side) =>
    let k := aptSlot a.dpa
    if s.fld .cxl k 0x04C 0 0 = 0 then some ((s.raise .cxl 0 0x004 7).memAnswer a [] false)
    else
      let h := s.regGet .cxl k 0x044
      let tile := s.fld .cxl k 0x048 29 0 + t
      match s.obj? h with
      | none => some ((s.raise .cxl 0 0x004 7).memAnswer a [] false)
      | some o =>
        if o.tiles ≤ tile then some ((s.raise .cxl 0 0x004 8).memAnswer a [] false)
        else match s.homeOf h tile with
          | none => some (s.memAnswer a [] false)
          | some f =>
            if tierOf f = 3 ∧ (s.frame f).state ≠ .poisoned then none
            else some (s.tileAccess a h tile x side o f bad)

/-- The tile that a waiting access needs in the attic. -/
def State.aptTile (s : State) (dpa : Nat) : Nat × Nat :=
  (s.regGet .cxl (aptSlot dpa) 0x044,
   s.fld .cxl (aptSlot dpa) 0x048 29 0 + (match aptView (aptOff dpa) with | some (t, _, _) => t | none => 0))

/-! ## Accesses -/

/-- A raw cellar read waits for a queue slot and its page (10 R290; 12 R364). -/
def State.waitRaw (s : State) (a : MemAcc) : State :=
  State.queueFills { s with host := { s.host with memWait := s.host.memWait ++ [a] } }
    [CellarOp.mk 0 (a.dpa / 4096) (a.dpa / 4096) false noOrder]

/-- Serve an access; one to a tile in the cellar waits for the tile's move to the attic, and a raw cellar read for its page (12
R362, R364, R367). -/
def State.memAccess (s : State) (a : MemAcc) (bad : Option PoisonCause) : State :=
  if !s.memOpen a.dpa then s
  else if a.dpa < apertureEnd then
    match s.aptAccess a bad with
    | some s1 => s1
    | none =>
      let x := s.aptTile a.dpa
      State.wantFetch { s with host := { s.host with memWait := s.host.memWait ++ [a] } } x.1 x.2 noOrder
  else if a.rawCellarRead && s.rawExists (a.dpa / 4096) then s.waitRaw a
  else if a.dpa < holeStart then s.rawAccess a bad
  else (match a.write with | some _ => s.raise .cxl 0 0x004 5 | none => s).memAnswer a [] false

/-- The accesses that waited are served, or wait on, in their order; raw cellar reads wait for their pages. -/
def State.settleMem (s : State) : State :=
  let ready := s.host.memWait.filter (fun a => !a.rawCellarRead)
  if ready.isEmpty then s
  else ready.foldl (fun t a => t.memAccess a none)
    { s with host := { s.host with memWait := s.host.memWait.filter MemAcc.rawCellarRead } }

/-- `MEM_RD` (12 R359, R362 to R367); `bad` says that the codes cannot correct the read, of a tile or frame that is read at once. -/
def execMemRd (dpa len : Nat) (bad : Option PoisonCause) (s : State) : Host.Outcome State Fault Refusal :=
  done (s.memAccess ⟨dpa, len, none⟩ bad)

/-- `MEM_WR`: the write is done before its completion is sent (12 R359, R364, R367, R368). -/
def execMemWr (dpa : Nat) (bytes : List Byte) (s : State) : Host.Outcome State Fault Refusal :=
  done (s.memAccess ⟨dpa, bytes.length, some bytes⟩ none)

/-- `MEM_INV`: answered, no data change (12 R359). -/
def execMemInv (dpa : Nat) (s : State) : Host.Outcome State Fault Refusal :=
  done (if s.memOpen dpa then s.emit .memCmp else s)

/-- `MEM_SPEC_RD`: accepted and dropped (12 R359). -/
def execMemSpecRd (_dpa : Nat) (s : State) : Host.Outcome State Fault Refusal := done s

/-- `SNOOP`: the module keeps no host line (12 R358). -/
def execSnoop (_addr : Nat) (s : State) : Host.Outcome State Fault Refusal :=
  done (if s.on && s.linkUp then s.emit .rspIHitI else s)

/-! ## Aperture bindings (12 R365) -/

/-- A handle may be bound: it names a live object, and lies outside the reserved range of 03 R78. -/
def State.bindable (s : State) (h : Nat) : Bool := (s.liveObj h).isSome && decide (h < 0xFFFFFF00)

/-- `CXL_APT_VALID` (12 R365). -/
def execCxlAptValid (a : Acc) (valid : Bool) (s : State) : Host.Outcome State Fault Refusal :=
  done (
    if !s.served then s else
    let k := s.selected a .cxl 0x040 5 0
    if valid && !s.bindable (s.regGet .cxl k 0x044) then s.ignored .cxl 0 0x004
    else s.fldPut .cxl k 0x04C 0 0 (bit01 valid))

end Sys2Proof.Machine
end

