-- ==== Sys2Proof/Machine/Placement.lean ====
section
/-! DEFINITION. Placement and the attic: how moves complete (10 R290, R300, R301), heat scans (R307 to R309), scrubs (14 R421
to R424), refresh and temperature (R325 to R327), and margining (R330). -/

namespace Sys2Proof.Machine

/-! ## Transfers and moves -/

/-- The transfer of a tile's move has landed (10 R300). -/
def State.landMove (s : State) (h tile : Nat) : State :=
  { s with place := { s.place with moves := s.place.moves.map (fun x =>
      if x.obj = h ∧ x.tile = tile then { x with landed := true, landedAt := s.clk.now } else x) } }

/-- A tile whose read has failed for good becomes POISONED, unless it is already (14 R422). -/
def State.poisonHome (s : State) (h tile : Nat) (p : PoisonCause) : State :=
  match s.homeOf h tile with
  | some f => if (s.frame f).state = .home then s.poisonFrame f p else s
  | none => s

/-- A read of the cellar for a clone has landed, or its source tile is POISONED (10 R290, R324). -/
def State.landCopy (s : State) (c : CellarOp) (bad : Option PoisonCause) : State :=
  let s1 : State := { s with place := { s.place with cellar := s.place.cellar.erase c } }
  let s2 := match bad, (s1.obj? c.obj).map Obj.creation with
    | some p, some (.copying _ src) => s1.poisonHome src c.tile p
    | _, _ => s1
  s2.tidy.settleResAll.settleMem

/-- A raw read of a cellar page has landed: the first access that waits for the page is answered (12 R364). -/
def State.landRaw (s : State) (c : CellarOp) (bad : Option PoisonCause) : State :=
  let s1 : State := { s with place := { s.place with cellar := s.place.cellar.erase c } }
  match takeFirst (fun a => a.rawCellarRead && a.dpa / 4096 == c.tile) s1.host.memWait with
  | none => s1.tryWants
  | some (a, rest) =>
    let s2 : State := { s1 with host := { s1.host with memWait := rest } }
    (if s2.memOpen a.dpa then s2.rawAccess a bad else s2).tryWants

/-- A cellar read of a tile of `h` lands: that of a move (10 R300, R301), or of the clone `h` (R324). -/
def State.landRead (s : State) (c : CellarOp) (h tile : Nat) (bad : Option PoisonCause) : State :=
  match s.moveOf h tile with
  | none => s.landCopy c bad
  | some m =>
    if m.landed then s
    else match bad with
      | some p => ((s.dropCellar h tile).poisonFrame m.src p).tidy.settleResAll.settleMem
      | none => ((s.dropCellar h tile).landMove h tile).tryWants

/-- `CELLAR_READ_LAND`: a cellar read has landed, or has failed for good after its retries; its queue slot returns, unless a
stream transfer holds it on (10 R290, R301; 11 R341; 14 R421, R422). Handle 0 stands for a raw read of the page `tile` (12 R364). -/
def execCellarReadLand (h tile : Nat) (bad : Option PoisonCause) (s : State) : Host.Outcome State Fault Refusal :=
  done (
    match s.place.cellar.find? (fun c => c.obj == h && c.tile == tile && !c.program) with
    | some c => if !s.on then s else if h = 0 then s.landRaw c bad else s.landRead c h tile bad
    | none => s)

/-- `CELLAR_PROGRAM_COMPLETE`: a program completes and its queue slot returns (10 R290). -/
def execCellarProgramComplete (h tile : Nat) (s : State) : Host.Outcome State Fault Refusal :=
  done (
    match s.place.cellar.find? (fun c => c.obj == h && c.tile == tile && c.program) with
    | some c =>
      if !s.on then s
      else (({ s with place := { s.place with cellar := s.place.cellar.erase c } } : State).landMove h tile).tryWants
    | none => s)

/-- The tile transfer time x of a move: the largest of those that apply (10 R300). -/
def Move.time (m : Move) : Nat :=
  max (if tierOf m.src = 0 ∨ tierOf m.dst = 0 then 8 else 0)
    (match tierOf m.src with | 0 => 8 | 1 => 128 | 2 => 167 | _ => m.landedAt - m.since)

/-- The last byte of a move can have been accepted: its transfer has landed, and the cycle is 40 + x - 1 of the move (10 R300). -/
def State.moveDone (s : State) (m : Move) : Bool := m.landed && decide (m.since + 40 + m.time - 1 ≤ s.clk.now)

/-- The move of a tile commits: the map names the new frame and the old one goes; the owner is charged (10 R300, R311), and it
counts as a read and a write of a tile (R308). A stream transfer that waited for the tile knows how long its cellar read took (11
R342). -/
def State.commitMove (s : State) (m : Move) : State :=
  let owner := match s.obj? m.obj with | some o => o.owner | none => 0
  let s0 := { s with xfers := s.xfers.map (fun (x : Xfer) =>
    if x.fid = 0 ∧ x.obj = m.obj ∧ x.tile = m.tile then { x with readTime := s.clk.now - x.since } else x) }
  let s1 := ((((s0.touch m.src).copyFrame m.src m.dst).dropMove m.obj m.tile).makeHome m.dst m.obj m.tile).touch m.dst
  ((s1.leaveHome m.src).chargeMove owner (tierOf m.src) (tierOf m.dst) 4096).tidy.settleResAll.settleMem

/-- `TILE_MOVE_COMMIT`: the last byte of a move is accepted and verified (10 R300). A move whose source an aperture write has
reached is abandoned, and so is one whose source read proves uncorrectable (R301) (DEDUCED, log entry 52); one that a rule of R303
bars by now waits until the condition clears. -/
def execTileMoveCommit (h tile : Nat) (bad : Option PoisonCause) (s : State) : Host.Outcome State Fault Refusal :=
  done (
    match s.moveOf h tile with
    | none => s
    | some m =>
      if !s.on || !s.moveDone m || s.moveBarred h tile (tierOf m.dst) then s
      else
        let found := match bad with | some c => some c | none => s.headFault m.src h tile
        match found with
        | some c => (s.poisonFrame m.src c).tidy.settleResAll.settleMem
        | none =>
          if m.dirty then (s.abandonMove h tile true).tidy
          else s.commitMove m)

/-! ## Heat scans (10 R307 to R309) -/

/-- The fill of a tier: `n` frames of `of'` are not FREE; it is at or above `pct` percent. -/
def fillAtLeast (n of' pct : Nat) : Bool := decide (pct * of' ≤ 100 * n)

/-- Frames in service of a tier: those of the scratchpads of all enabled clusters for tier 0 (10 R309). -/
def State.framesIn (s : State) (tier : Nat) : Nat := if tier = 0 then s.nClus * scratchFrames else (s.tierRange tier).2

/-- Frames of a tier that are not FREE. -/
def State.usedIn (s : State) (tier : Nat) : Nat :=
  if tier = 0 then countIn (fun r => !r.usable) s.frames scratchBase (scratchBase + s.framesIn 0)
  else (s.tierRange tier).2 - s.allFree tier

/-- A tier's fill is at or above HIGH_PCT (10 R309). -/
def State.full (s : State) (tier : Nat) : Bool := fillAtLeast (s.usedIn tier) (s.framesIn tier) (s.fld .mem 0 0x004 6 0)

/-- HIGH_PCT and LOW_PCT (10 R331). -/
def State.highPct (s : State) : Nat := s.fld .mem 0 0x004 6 0
def State.lowPct (s : State) : Nat := s.fld .mem 0 0x004 14 8

/-- Tiles of a tier that must go for its fill to fall to LOW_PCT. -/
def State.excess (s : State) (tier : Nat) : Nat := s.usedIn tier - s.lowPct * s.framesIn tier / 100

/-- A scan's move of a tile that can start at once: the budget counts what it has left. -/
def State.background (s : State) (budget h tile : Nat) (fs : List Nat) : State × Nat :=
  match fs with
  | [] => (s, budget)
  | f :: _ =>
    if budget ≠ 0 ∧ s.canMove h tile (tierOf f) = true then (s.startMove h tile f .background noOrder, budget - 1)
    else (s, budget)

/-- A scan's demotion of a tile to a tier, if it can start; one that finds no frame sets PLACE_FAIL (10 R310, R331). -/
def State.demoteOne (s : State) (budget tier : Nat) (r : FrameRec) : State × Nat :=
  if budget = 0 ∨ s.canMove r.obj r.tile tier = false then (s, budget)
  else match s.framesFor tier 1 0 r.cls with
    | [] => (s.raise .mem 0 0x000 5, budget)
    | f :: _ => (s.startMove r.obj r.tile f .background noOrder, budget - 1)

/-- Demote at most `n` tiles of a list, coldest first, each to the tier that the state names for it. -/
def State.demoteList (s : State) (budget n : Nat) (tier : State → Nat) : List (Nat × Nat × FrameRec) → State × Nat
  | [] => (s, budget)
  | x :: t =>
    if n = 0 ∨ budget = 0 then (s, budget)
    else
      let y := s.demoteOne budget (tier s) x.2.2
      State.demoteList y.1 y.2 (if y.2 < budget then n - 1 else n) tier t

/-- Order 1: the attic at HIGH_PCT sheds to the store room, and to the cellar when that has no free frame (10 R310). -/
def State.scan1 (s : State) (budget : Nat) : State × Nat :=
  if s.full 1 then s.demoteList budget (s.excess 1) (fun t => t.downTier 1) (s.coldest 1) else (s, budget)

/-- Order 2: the store room at HIGH_PCT sheds pages that read 0 to the cellar. -/
def State.scan2 (s : State) (budget : Nat) : State × Nat :=
  if s.full 2 && !s.sup.inhibit then
    s.demoteList budget (s.excess 2) (fun _ => 3) ((s.coldest 2).filter (fun x => x.1 == 0))
  else (s, budget)

/-- The placement cores treat a tile as one of an AUTO object: an AUTO tile, or a HINT tile away from its tier (10 R307). -/
def State.asAuto (s : State) (h tier : Nat) : Bool :=
  match s.obj? h with
  | some o => o.creation == .live && !o.freed && (o.policy == 0 || (o.policy == 1 && o.tier != tier))
  | none => false

/-- Homes of a tier that count as AUTO. -/
def State.autoHomes (s : State) (tier : Nat) : List (Nat × FrameRec) :=
  s.frames.filter (fun x => x.2.state == .home && tierOf x.1 == tier && s.asAuto x.2.obj tier)

/-- Order 3 for one tile: a demotion under 10 R310. -/
def downFrom0 (y : State × Nat) (x : Nat × FrameRec) : State × Nat := y.1.demoteOne y.2 (y.1.downTier 0) x.2

/-- Order 3: scratchpad tiles idle for `SP_IDLE` scans go to the attic, or lower while it is short of frames (10 R310). -/
def State.scan3 (s : State) (budget : Nat) : State × Nat :=
  ((s.autoHomes 0).filter (fun x => decide (s.fld .mem 0 0x008 15 12 ≤ x.2.idle))).foldl downFrom0 (s, budget)

/-- Pages' homes from the highest counter down, lower pages first, that reach a count (10 R309). -/
def State.hottest (s : State) (tier least : Nat) : List (Nat × Nat × FrameRec) :=
  sortBy (fun a b => decide (b.1 ≤ a.1))
    (((s.autoHomes tier).map (fun x => ((match heatPage x.1 with | some p => s.heat p | none => 0), x))).filter
      (fun x => decide (least ≤ x.1)))

/-- The lowest free attic frame in a stack that takes promotions: not at the 93 degree step (10 R309, R327). -/
def State.coolAttic (s : State) : List Nat :=
  let cool := fun (f : Nat) => (s.stack (s.targetOf f % 8)).derate != 2
  if s.tierFree 1 = 0 then []
  else match (s.pickFree (s.tierRange 1) 64).find? cool with
    | some f => [f]
    | none =>
      let chans := (upTo s.place.atticPcs).filter (fun c => cool (atticBase + c))
      (lowest (chans.filterMap (fun c => s.freeOnChan c []))).toList

/-- The frames that order 4 may move a page to. -/
def State.atticFrames (s : State) : List Nat := if s.full 1 then [] else s.coolAttic

/-- Order 4 for one page. -/
def toAttic (y : State × Nat) (x : Nat × Nat × FrameRec) : State × Nat :=
  y.1.background y.2 x.2.2.obj x.2.2.tile y.1.atticFrames

/-- Order 4: store-room pages at `PROMOTE_AT` go to the attic while its fill is below HIGH_PCT. -/
def State.scan4 (s : State) (budget : Nat) : State × Nat :=
  (s.hottest 2 (s.fld .mem 0 0x008 23 16)).foldl toAttic (s, budget)

/-- The shared part of a scratchpad and what is used of it (05 R134). -/
def State.sharedPart (s : State) (n : Nat) : Nat × Nat :=
  let beyond := fun k => s.heldTiles n k - s.reserveOf k
  (12288 - s.retiredTiles n - (s.reserveOf 0 + s.reserveOf 1 + s.reserveOf 2 + s.reserveOf 3), beyond 0 + beyond 1 + beyond 2 + beyond 3)

/-- The cluster of an object's partition with the most free shared frames, while its shared part stays below HIGH_PCT. -/
def State.bestClu (s : State) (o : Obj) : Option Nat :=
  let cs := (maskClus (s.partMask (s.fld .gfe o.owner 0x214 2 0))).filter (fun n => s.cluState n == .serving)
  let ok := cs.filterMap (fun n =>
    let p := s.sharedPart n
    if 100 * (p.2 + 1) < s.highPct * p.1 then some (p.1 - p.2, n) else none)
  match ok with
  | [] => none
  | a :: t => some (t.foldl (fun b x => if b.1 < x.1 then x else b) a).2

/-- The frames that order 5 may move a page to. -/
def State.promotionFrames (s : State) (r : FrameRec) : List Nat :=
  match s.obj? r.obj with
  | none => []
  | some o => match s.bestClu o with
    | none => []
    | some n => s.framesFor 0 1 n r.cls

/-- Order 5 for one page. -/
def toScratch (y : State × Nat) (x : Nat × Nat × FrameRec) : State × Nat :=
  y.1.background y.2 x.2.2.obj x.2.2.tile (y.1.promotionFrames x.2.2)

/-- Order 5: attic pages at `PROMOTE_SP` go to a scratchpad of the owner's partition. -/
def State.scan5 (s : State) (budget : Nat) : State × Nat :=
  (s.hottest 1 (s.fld .mem 0 0x008 31 24)).foldl toScratch (s, budget)

/-- The frames that a tile may return up to in its hint tier, while the tier's fill is below HIGH_PCT (10 R307). -/
def State.hintFrames (s : State) (o : Obj) (tile : Nat) : List Nat :=
  if s.full o.tier then []
  else if o.tier = 0 then
    let clus := s.spreadClus o.spread o.owner
    let n := listGet 64 clus (tile % max clus.length 1)
    if s.cluState n == .serving then s.framesFor 0 1 n o.cls else []
  else s.framesFor o.tier 1 0 o.cls

/-- The frames that the exceptions of R307 may move a page to: a HINT tile below its tier returns up while that tier has
room, and one above it returns down when its page reads 0. -/
def State.returnFrames (s : State) (f : Nat) (r : FrameRec) : List Nat :=
  match s.obj? r.obj with
  | none => []
  | some o =>
    if o.policy ≠ 1 ∨ o.tier = tierOf f ∨ o.creation ≠ .live ∨ o.freed = true then []
    else if o.tier < tierOf f then s.hintFrames o r.tile
    else match heatPage f with
      | some p => if s.heat p = 0 then s.framesFor o.tier 1 0 o.cls else []
      | none => []

/-- The exceptions of R307 for one page. -/
def toHint (y : State × Nat) (x : Nat × FrameRec) : State × Nat :=
  y.1.background y.2 x.2.obj x.2.tile (y.1.returnFrames x.1 x.2)

/-- The two exceptions of R307. -/
def State.scanHint (s : State) (budget : Nat) : State × Nat :=
  (s.frames.filter (fun x => x.2.state == .home)).foldl toHint (s, budget)

/-- The decay of a scan: every counter is halved, the access bits of the scratchpads are cleared (10 R308). -/
def State.decay (s : State) : State :=
  let heat := (s.place.heat.map (fun x => (x.1, x.2 / 2))).filter (fun x => x.2 != 0)
  let frames := s.frames.map (fun x => if tierOf x.1 = 0 ∧ x.2.state = .home then
    (x.1, { x.2 with access := false, idle := if x.2.access then 0 else min (x.2.idle + 1) 15 }) else x)
  { s with frames := frames, place := { s.place with heat := heat, scanned := s.tickN } }

/-- Pages whose frames are all FREE read 0 (10 R308). -/
def State.dropCold (s : State) : State :=
  let used := (s.frames.filter (fun x => x.2.state != .free)).filterMap (fun x => heatPage x.1)
  { s with place := { s.place with heat := s.place.heat.filter (fun x => used.contains x.1) } }

/-- An order of a scan goes on with the budget that the one before has left. -/
def scanThen (f : State → Nat → State × Nat) (y : State × Nat) : State × Nat := f y.1 y.2

/-- The exceptions of R307 come last, with what is left of the budget; a budget used up leaves the scan to go on. -/
def scanLast (y : State × Nat) : State :=
  let z := y.1.scanHint y.2
  { z.1 with place := { z.1.place with scanMore := z.2 == 0 } }

/-- The background moves of a scan, in the order of 10 R309, at most MOVE_BUDGET in this tick (DEDUCED, log entry 52). -/
def State.scanMoves (s : State) : State :=
  scanLast (scanThen State.scan5 (scanThen State.scan4 (scanThen State.scan3 (scanThen State.scan2
    (s.scan1 (s.fld .mem 0 0x004 31 16))))))

/-- The counters and access bits of a scan, in a tick whose number is a multiple of `DECAY_TICKS` (10 R308). -/
def State.scanCounts (s : State) : State :=
  if s.tickN % max (s.fld .mem 0 0x008 11 0) 1 = 0 then
    let t := s.dropCold.decay
    { t with place := { t.place with scanMore := true } }
  else { s with place := { s.place with scanned := s.tickN } }

/-- `HEAT_SCAN`: once in a tick whose number is a multiple of `DECAY_TICKS`, and in the ticks after it while the scan has moves left
beyond MOVE_BUDGET (10 R308, R309) (DEDUCED, log entry 52). -/
def execHeatScan (s : State) : Host.Outcome State Fault Refusal :=
  done (
    if !s.on || s.place.scanned == s.tickN || s.unitTest 2 then s
    else
      let s1 := s.scanCounts
      if s.fld .mem 0 0x004 15 15 = 1 ∧ s.sup.stopping = false ∧ s1.place.scanMore = true then s1.scanMoves else s1)

/-! ## Scrubs (14 R421 to R424) -/

/-- Add a relocation of a tile within its tier to the waiting moves (14 R423; 10 R330). -/
def State.relocate (s : State) (f : Nat) (r : FrameRec) : State :=
  if (s.moveOf r.obj r.tile).isSome || s.place.wants.any (fun w => w.obj == r.obj && w.tile == r.tile) then s
  else { s with place := { s.place with
    wants := s.place.wants ++ [⟨r.obj, r.tile, tierOf f, (if tierOf f = 0 then cluOf f else 0), .relocate, none, noOrder⟩] } }

/-- Corrections are counted: 0 to 2 for the tiers that they are in, 3 for the on-die links (14 R445). -/
def State.countCe (s : State) (d n : Nat) : State :=
  { s with integ := { s.integ with ce := listSet s.integ.ce d (satAdd 32 (listGet 0 s.integ.ce d) n) } }

/-- A scrub pass that has corrected `n` words of a frame: with `CE_FRAME` or more of them it is relocated and retired (14 R423). -/
def State.scrubCorrected (s : State) (f n : Nat) : State :=
  let r := s.frame f
  let s1 := s.setFrame f { r with corrected := n }
  if n < max 1 (s.fld .int 0 0x014 7 4) ∨ r.retired = true then s1
  else match r.state with
    | .free => s1.retireFrame f
    | .home => ((s1.setFrame f { r with corrected := n, retireNext := true }).relocate f r).tryWants
    | _ => s1.setFrame f { r with corrected := n, retireNext := true }

/-- The counts of a read's attempts: corrections of words and on links, and a re-read that succeeds (14 R416, R421). -/
def State.countTries (s : State) (tier : Nat) (ts : List ReadTry) : State :=
  let words := (ts.map (fun t => t.words.length)).foldl (· + ·) 0
  let links := (ts.map ReadTry.links).foldl (· + ·) 0
  let again := match ts with | [_, b] => bit01 b.fault.isNone | _ => 0
  (if words + again = 0 then s else s.countCe tier (words + again)).countCe 3 links

/-- `SCRUB_READ` of a frame of the scratchpads, the attic or the store room: `errs` disturb the first read, `again` the re-read (14
R416, R417, R421 to R424). -/
def execScrubRead (frame : Nat) (errs again : List WordErr) (s : State) : Host.Outcome State Fault Refusal :=
  done (
    if !s.on || tierOf frame == 3 then s
    else
      let ts := s.readTries frame errs again
      let n := ((ts.flatMap ReadTry.words).eraseDups).length
      let s1 := s.countTries (tierOf frame) ts
      let s2 := if n = 0 then s1 else s1.scrubCorrected frame n
      match (ts.getLast?).bind ReadTry.fault with
      | some c => s2.badRead frame c
      | none => s2)

/-! ## Refresh and temperature (10 R325 to R327) -/

/-- The refresh interval of a stack's pseudo-channels (10 R325). -/
def State.refreshEvery (s : State) (k : Nat) : Nat := if (s.stack k).refresh2x then 2535 else 5070

/-- `ATTIC_REFRESH` of a pseudo-channel: once every interval, counted by its stack (10 R325). -/
def execAtticRefresh (pc : Nat) (s : State) : Host.Outcome State Fault Refusal :=
  done (
    if !s.on || (s.target pc).mappedOut || !s.passed (s.target pc).refreshedAt (s.refreshEvery (pc % 8)) then s
    else (s.setTarget pc { s.target pc with refreshedAt := s.clk.now }).setStack (pc % 8) { s.stack (pc % 8) with refreshes := (s.stack (pc % 8)).refreshes + 1 })

/-- The filtered temperature of a stack in quarters of a degree: the median of its last 3 valid reports, 94.0 in a timeout
(10 R326). -/
def StackRec.temp (r : StackRec) : Int := if r.timeout then 376 else median r.reports

/-- The grant step at a filtered temperature, with the hysteresis of 10 R327. -/
def derateStep (old : Nat) (t : Int) : Nat :=
  if t > 372 then 2
  else if old = 2 ∧ t > 364 then 2
  else if t > 360 then 1
  else if old ≠ 0 ∧ t > 352 then 1
  else 0

/-- Halved refresh at a filtered temperature (10 R327). -/
def refreshStep (old : Bool) (t : Int) : Bool := decide (t > 340) || (old && decide (t > 332))

/-- A stack's steps follow its filtered temperature; `new` says that a filtered value has come (10 R327). -/
def State.stackSteps (s : State) (k : Nat) (r : StackRec) (new : Bool) : State :=
  let t := r.temp
  let x := refreshStep r.refresh2x t
  let g := derateStep r.derate t
  let hot := if new then (if t > 380 then r.hot + 1 else 0) else r.hot
  let s1 := s.setStack k { r with refresh2x := x, derate := g, hot := hot }
  let s2 := if x && !r.refresh2x then s1.raise .mem 0 0x000 1 else s1
  let s3 := if r.derate < g then s2.raise .mem 0 0x000 2 else s2
  let s4 := if g = 2 ∧ r.derate ≠ 2 then s3.raiseEvent 17 else s3
  if 10 ≤ hot then s4.controlledStop else s4

/-- `STACK_TEMP_REPORT`: outside -40 to 125 degrees it is discarded (10 R326). -/
def execStackTempReport (stack : Nat) (quarters : Int) (s : State) : Host.Outcome State Fault Refusal :=
  done (
    if !s.on then s
    else if quarters < -160 ∨ 500 < quarters then s.raise .mem 0 0x000 3
    else
      let r := s.stack stack
      s.stackSteps stack { r with reports := (quarters :: r.reports).take 3, timeout := false, lastAt := s.clk.now } true)

/-- `STACK_TEMP_TIMEOUT`: after 10 ms without a valid report a stack counts as 94.0 degrees (10 R326). -/
def execStackTempTimeout (stack : Nat) (s : State) : Host.Outcome State Fault Refusal :=
  done (
    if !s.on || !s.passed (s.stack stack).lastAt (10 * msCycles) then s
    else s.stackSteps stack { s.stack stack with timeout := true } false)

/-! ## Margining (10 R330, R331) -/

/-- The target that an accessor has selected. -/
def State.selTarget (s : State) (a : Acc) : Nat :=
  s.selected a .mem 0x060 9 1 + (if s.selected a .mem 0x060 0 0 = 1 then 512 else 0)

/-- A frame lies on a target. -/
def State.onTarget (s : State) (t f : Nat) : Bool := (tierOf f == 1 || tierOf f == 2) && s.targetOf f == t

/-- Every frame of a target is FREE. -/
def State.targetEmpty (s : State) (t : Nat) : Bool :=
  s.frames.all (fun x => x.2.state == .free || !s.onTarget t x.1)

/-- STATE of a target: 0 SERVING, 1 EVACUATING, 2 EVACUATED, 3 MARGINING, 4 MAPPED_OUT (10 R331). -/
def State.targetState (s : State) (t : Nat) : Nat :=
  let r := s.target t
  if r.mappedOut then 4 else if r.serve then 0 else if r.margining then 3 else if s.targetEmpty t then 2 else 1

/-- PLACE_FAIL is set if a waiting move of a home with a property finds no frame (10 R330, R331). -/
def State.failIf (s : State) (p : Nat → Bool) : State :=
  if s.place.wants.any (fun w => match s.homeOf w.obj w.tile with
    | some f => p f && (s.wantFrames w).isEmpty
    | none => false) then s.raise .mem 0 0x000 5
  else s

/-- The homes of a target out of service move elsewhere (10 R330). -/
def State.evacuate (s : State) (t : Nat) : State :=
  let hs := s.frames.filter (fun x => x.2.state == .home && s.onTarget t x.1)
  let s1 := hs.foldl (fun u x => u.relocate x.1 x.2) s
  s1.tryWants.failIf (s.onTarget t)

/-- At an edge the targets take their SERVE as written, and those out of service are evacuated (10 R330). -/
def State.syncTargets (s : State) : State :=
  let keys := (upTo 576).filter (fun t => s.fld .mem t 0x064 0 0 != 1 || !(s.target t).serve)
  keys.foldl (fun u t =>
    let on' : Bool := u.fld .mem t 0x064 0 0 == 1
    let u1 := u.setTarget t { u.target t with serve := on', margining := (u.target t).margining && !on' }
    if on' || (u.target t).mappedOut then u1 else u1.evacuate t) s

/-- `MEM_TGT_SERVE`: a T-class write of SERVE of the selected target (10 R330, R331). -/
def execMemTgtServe (a : Acc) (serve : Bool) (s : State) : Host.Outcome State Fault Refusal :=
  done (if !s.served then s else
    let k := regKey .mem (s.selTarget a) 0x064
    { s with reg := { s.reg with pend := s.reg.pend ++ [⟨k, 1, bit01 serve, s.applyTick⟩] } })

/-- START of a margining run: ignored unless the selected target is EVACUATED; one target is margined at a time (10 R330, R331). -/
def State.startMargin (s : State) (a : Acc) : State :=
  let t := s.selTarget a
  if s.targetState t ≠ 2 ∨ s.place.targets.any (fun x => x.2.margining) = true then s.ignored .mem 0 0x000
  else s.setTarget t { s.target t with margining := true, done := false }

/-- `MARGIN_START` (10 R330). -/
def execMarginStart (a : Acc) (s : State) : Host.Outcome State Fault Refusal :=
  done (if !s.served then s else s.startMargin a)

/-- `MARGIN_DONE`: the run ends and reports its words in error, of 65,536 (10 R330). -/
def execMarginDone (errors : Nat) (s : State) : Host.Outcome State Fault Refusal :=
  done (
    match s.place.targets.find? (fun x => x.2.margining) with
    | none => s
    | some x => if !s.on then s else
      s.setTarget x.1 { x.2 with margining := false, done := true, errors := min errors 65536 })

end Sys2Proof.Machine
end

