-- ==== Sys2Proof/Machine/Clusters.lean ====
section
/-! DEFINITION. Cluster states (14 R429, R432, R433), the entry into a residency (14 R434 to R436), and the completion of
stream transfers, which can make a cluster SUSPECT. -/

namespace Sys2Proof.Machine

/-- Cycles of 24 hours. -/
def dayCycles : Nat := 86400 * 1300000000

/-- The contributions to a slot's fault count of the last 24 hours (14 R429). -/
def State.recentFaults (s : State) (p : Nat) : List Nat :=
  (s.pslot p).faults.filter (fun t => decide (s.clk.now - t < dayCycles))

/-- The logical cluster of a slot, 64 for none. -/
def State.cluOfSlot (s : State) (p : Nat) : Nat := (s.pslot p).logical.getD 64

/-- The slot takes another state. -/
def State.setSlotState (s : State) (p : Nat) (st : SlotState) : State := s.setPslot p { s.pslot p with state := st }

/-- A cluster has left SERVING (14 R433): its unstarted commands are deferred, streams armed on it fault. -/
def State.leaveServing (s : State) (n : Nat) : State := (s.deferAll n).faultClu n

/-- Every AUTO and HINT home of a cluster's scratchpad moves down (14 R433, R435). -/
def State.moveDown (s : State) (n : Nat) : State :=
  let rg := scratchRange n
  let hs := s.frames.filter (fun x => decide (rg.1 ≤ x.1) && decide (x.1 < rg.1 + rg.2) && x.2.state == .home && s.pressed x.2.obj)
  (hs.foldl (fun t x =>
    if (t.moveOf x.2.obj x.2.tile).isSome || t.place.wants.any (fun w => w.obj == x.2.obj && w.tile == x.2.tile) then t
    else { t with place := { t.place with wants := t.place.wants ++ [⟨x.2.obj, x.2.tile, 1, 0, .evacuate, none, noOrder⟩] } }) s).tryWants.failIf
    (fun f => decide (rg.1 ≤ f) && decide (f < rg.1 + rg.2))

/-- Every frame of a cluster's scratchpad that does not belong to a PIN object is FREE (14 R435). -/
def State.evacuated (s : State) (n : Nat) : Bool :=
  let rg := scratchRange n
  s.frames.all (fun x => decide (x.1 < rg.1) || decide (rg.1 + rg.2 ≤ x.1) || x.2.state == .free ||
    (match s.obj? x.2.obj with | some o => o.policy == 2 | none => false))

/-- A waiting test: SUSPECT tests before others (14 R434). -/
def State.queueTest (s : State) (t : Test) : State :=
  let ws := s.integ.wait
  let w := if t.kind = .suspect then ws.filter (fun x => x.kind == .suspect) ++ [t] ++ ws.filter (fun x => x.kind != .suspect)
    else ws ++ [t]
  { s with integ := { s.integ with wait := w } }

/-- A cluster's residency or stress test begins: it leaves SERVING and is evacuated (14 R435, R436). -/
def State.enterResidency (s : State) (t : Test) : State :=
  let s1 := { s with integ := { s.integ with test := some { t with entered := s.tickN, drained := false } } }
  match s1.cluSlot t.clu with
  | none => s1
  | some p =>
    let s2 := if (s1.pslot p).state = .serving then (s1.setSlotState p .testResidency).leaveServing t.clu else s1
    s2.moveDown t.clu

/-- A SERVING slot becomes SUSPECT (14 R429, R432, R436): its stress test begins, or waits for the test in progress. -/
def State.makeSuspect (s : State) (p : Nat) : State :=
  if (s.pslot p).state ≠ .serving then s
  else
    let n := s.cluOfSlot p
    let s1 := (s.setSlotState p .suspect).leaveServing n
    let s2 := { s1 with icnt := { s1.icnt with suspects := satAdd 16 s1.icnt.suspects 1 } }
    let s3 := (s2.faultLog 2 p 0 0 0 0 0 0).raise .int 0 0x000 2
    let t : Test := { kind := .suspect, unit := 0, clu := n, entered := 0, drained := false, zero := 0,
                      margin := true, length := s3.fld .int 0 0x004 27 16 }
    if s3.integ.test.isNone then s3.enterResidency t else s3.queueTest t

/-- A slot becomes RETIRED (14 R432, R433) (DEDUCED, log entry 56). -/
def State.makeRetired (s : State) (p : Nat) : State :=
  let n := s.cluOfSlot p
  let was := (s.pslot p).state
  let s1 := s.setSlotState p .retired
  let s2 := if was = .serving then s1.leaveServing n else s1
  let s3 := { s2 with integ := { s2.integ with retireSlots := s2.integ.retireSlots ++ [p],
                                                wait := s2.integ.wait.filter (fun t => !(t.kind == TestKind.suspect && t.clu == n)) } }
  ((s3.faultLog 3 p 0 0 0 0 0 0).raise .int 0 0x000 3).moveDown n

/-- A contribution to the fault count of a slot; at `FAULT_LIMIT` its cluster becomes SUSPECT (14 R429). -/
def State.addFault (s : State) (p : Nat) : State :=
  let s1 := s.setPslot p { s.pslot p with faults := (s.pslot p).faults ++ [s.clk.now] }
  if s1.fld .int 0 0x014 3 0 ≤ (s1.recentFaults p).length then s1.makeSuspect p else s1

/-- `FAULT_COUNT_AGE`: contributions older than 24 hours drop out (14 R429). -/
def execFaultCountAge (slot : Nat) (s : State) : Host.Outcome State Fault Refusal :=
  done (if !s.on then s else s.setPslot slot { s.pslot slot with faults := s.recentFaults slot })

/-! ## Stream transfers (11 R334, R342; 14 R431) -/

/-- `STREAM_TRANSFER_ISSUE` (11 R336). An engine issues one transfer in a cycle: a second one comes in the next cycle (11 R334)
(DEDUCED, log entry 50). -/
def execStreamTransferIssue (clu : Nat) (s : State) : Host.Outcome State Fault Refusal :=
  done (
    if !s.on || !s.issuedNow clu then s.streamIssue clu
    else if s.clk.cyc + 1 < s.G then s.nextCycle.streamIssue clu
    else s)

/-- A fill with a production check failure is discarded and issued again from its first transfer, with what follows it of its
descriptor, once; the second failure makes the target cluster SUSPECT, and its descriptors fault with cause 4 (14 R431). -/
def State.prodFail (s : State) (x : Xfer) (num : Nat) : State :=
  let t := s.stream x.clu x.ix
  match t.fills.find? (fun f => f.num == num) with
  | none => s.dropXfer x.clu
  | some f =>
    if f.redone then (s.dropXfer x.clu).makeSuspect ((s.cluSlot x.clu).getD 255)
    else
      let s1 := s.setStream x.clu x.ix { t with fills := t.fills.map (fun e =>
        if e.num < num then e else { e with issued := 0, got := [], redone := e.redone || e.num == num }) }
      State.dropXfer { s1 with xfers := s1.xfers.map (fun y => if y.clu = x.clu ∧ y.ix = x.ix ∧
        (match y.fill with | some k => decide (num ≤ k) | none => false) = true then { y with fill := none } else y) } x.clu

/-- `STREAM_TRANSFER_COMPLETE`: the oldest transfer of a cluster's engine (11 R342); `prod` is a production check failure of
what it writes. -/
def execStreamTransferComplete (clu : Nat) (bad : Option PoisonCause) (prod : Bool) (s : State) :
    Host.Outcome State Fault Refusal :=
  done (
    if !s.on then s else
    match s.xfers.find? (fun x => x.clu == clu) with
    | none => s
    | some x =>
      match x.fill with
      | none => (s.dropXfer clu).tidy
      | some num =>
        if x.fid ≠ 0 then (if prod then s.prodFail x num else s.readXfer x num x.fid bad)
        else match s.homeOf x.obj x.tile with
          | none => (s.faultStream clu x.ix 3 (x.tile % 2 ^ 24)).dropXfer clu
          | some g =>
            if tierOf g = 3 ∧ (s.frame g).state ≠ .poisoned then s
            else if prod then s.prodFail x num
            else s.readXfer x num g bad)

end Sys2Proof.Machine
end

