-- ==== Sys2Proof/Machine/Commit.lean ====
section
/-! DEFINITION. The end of device work: the flip (02 R36; 05 R124), a run that finds a condition (05 R522), and the comparison
of a repeat pair (14 R428). -/

namespace Sys2Proof.Machine

/-! ## The flip -/

/-- One fabric message of a flip is released: an UPDATE is awaited, an answer to a peer is not (04 R97; 05 R124; 09 R275). A
failed peer fails an update at once (13 R406). -/
def State.sendRemote (s : State) (d : Cmd) (x : Nat × Nat × List Byte) : State :=
  if s.peerFailed x.1 then s
  else
    let y := s.sendMsg x.1 d.cls x.2.1 (s.deadlineOf d) x.2.2 none
    let s1 := y.1.chargeBytes d.chan 11 x.2.2.length
    if x.2.1 = 4 then { s1 with fab := { s1.fab with awaits := s1.fab.awaits ++ [⟨x.1, d.cls, y.2, 4, d.id⟩] } } else s1

/-- A command at a list position writes a predicate of its launch: of the writes of one cycle the one of the highest position
holds, else the later one (08 R232). -/
def Launch.setPred (x : Launch) (now pos : Nat) (y : Nat × Bool) : Launch :=
  if x.predAt.any (fun w => w.1 == y.1 && w.2.2 == now + 1 && decide (pos < w.2.1)) then x
  else
    let p := x.preds.toNat
    { x with preds := BitVec.ofNat 16 (p - bit01 (p.testBit y.1) * 2 ^ y.1 + bit01 y.2 * 2 ^ y.1),
             predAt := (y.1, pos, now + 1) :: x.predAt.filter (fun w => w.1 != y.1) }

/-- Predicates that a command writes into its launch (03 R79; 08 R232). -/
def State.setPreds (s : State) (d : Cmd) (ps : List (Nat × Bool)) : State :=
  match d.launch with
  | none => s
  | some l =>
    match s.launch? l with
    | none => s
    | some x => s.setLaunch (ps.foldl (fun t y => t.setPred s.clk.now d.pos y) x)

/-- What a flip makes visible: output tiles, amax contributions, predicates, pool rows, stream descriptors (05 R124; 06 R174;
09 R248, R280; 11 R354). The second part is the status with its details. -/
def State.commitWork (s : State) (d : Cmd) (w : RunWork) : State × Nat × Nat × Nat :=
  let s1 := (s.flipAll w.shadows).setPreds d w.preds
  let s2 := w.amax.foldl (fun t a => t.mergeAmax a.1 a.2) s1
  let h := op32 d.slot 16
  let s3 := if slotOp d.slot = 0x29 then s2.enterRows h d.chan w.remap
    else if slotOp d.slot = foldOp then s2.leaveRows h w.remap else s2
  if slotOp d.slot = 0x30 ∨ slotOp d.slot = 0x31 then s3.streamFlip d
  else (s3, w.status, w.detailA, w.detailB)

/-- A command whose flip is over ends, or waits for its update frames to be acknowledged (04 R97; 09 R275). -/
def State.afterFlip (s : State) (d : Cmd) (w : RunWork) (st : Nat × Nat × Nat) : State :=
  let s1 := s.egress (w.remote.foldl (fun t x => t.sendRemote d x) s)
  match w.remote.find? (fun x => x.2.1 == 4 && s.peerFailed x.1) with
  | some x => ((s1.setCmd { d with phase := .acks stRemoteFail x.1 0 }).settleAcks d.id).tidy.settleMem
  | none =>
    if s1.unacked d.id then (s1.setCmd { d with phase := .acks st.1 st.2.1 st.2.2 }).tidy.settleMem
    else (s1.endCmd d st.1 st.2.1 st.2.2 false).tidy.settleMem

/-- The device work of a run is over: its work, if the flip may take place in this cycle (02 R36). -/
def State.flipReady (s : State) (n : Nat) : Option (Run × Cmd × RunWork) :=
  match s.running n with
  | none => none
  | some (r, d) =>
    match r.work with
    | none => none
    | some w => if r.checks.isEmpty && decide (r.due ≤ s.elapsed r) && decide (s.clk.cyc < s.G) && !writesHost d.slot then
        some (r, d, w) else none

/-- The device work of a run is over (02 R36): it flips, or in a repeat pair its work is held for the comparison (14 R428). -/
def State.flip (s : State) (n : Nat) : State :=
  match s.flipReady n with
  | none => s
  | some (r, d, w) =>
    let k := s.elapsed r + 1
    match d.more, d.paired with
    | some m, true =>
      (s.leaveRun n k false).setCmd { d with more := some (m.put n (fun p =>
        { p with done := true, cycles := k, status := w.status, detailA := w.detailA, detailB := w.detailB, work := some w })) }
    | _, _ =>
      let x := s.commitWork d w
      let s1 := (x.1.leaveRun n k false).noteClu d.id n
      s1.afterFlip d w x.2

/-- `COMMAND_FLIP` (05 R124). A fold's device work has no command of its own: it is done here first (09 R280). -/
def execCommandFlip (clu : Nat) (s : State) : Host.Outcome State Fault Refusal :=
  done (if !s.on then s else (s.runFold clu).flip clu)

/-! ## Conditions found by a run (05 R522) -/

/-- The condition that a run finds on its operand tiles now: a POISONED tile or a scale-sequence mismatch. -/
def State.foundCond (s : State) (d : Cmd) : Option (Nat × Nat × Nat) :=
  match slotOp d.slot with
  | 0x20 => s.productCond d (s.product d.slot)
  | 0x21 => s.productCond d (s.product d.slot)
  | 0x22 => s.vchainCond d (s.progOf d)
  | 0x28 => s.gatherCond d
  | 0x29 => s.scatterCond d
  | 0x38 => ((writeTiles d.slot).find? (fun t => s.tileBad d t.1 t.2)).map (fun t => (stPoisoned, t.1, t.2))
  | 0x39 => ((readParts d.slot).find? (fun t => s.tileBad d t.1 t.2)).map (fun t => (stPoisoned, t.1, t.2))
  | 0xF0 => s.foldCond d
  | _ => none

/-- The operand tiles that a run reads. -/
def State.runTiles (s : State) (d : Cmd) : List (Nat × Nat) :=
  match slotOp d.slot with
  | 0x20 => s.productReads (s.product d.slot)
  | 0x21 => s.productReads (s.product d.slot) ++ s.selectedTiles d (s.product d.slot)
  | 0x22 => s.vSrcTiles d (s.progOf d) ++ s.vPartTiles d (s.progOf d)
  | 0x38 => writeTiles d.slot
  | 0x39 => readParts d.slot
  | _ =>
    match d.res, s.tableOf (op32 d.slot 16) with
    | some r, some (o, t, _) =>
      if slotOp d.slot = 0x28 then s.gatherTiles (op32 d.slot 16) o r ++ s.gatherParts d
      else if slotOp d.slot = 0x29 then s.updSrcTiles d t.elems ++ s.updRowTiles d (op32 d.slot 16) o t r
      else slotTiles o t r.offs ++ foldTiles (op32 d.slot 16) o t (r.idx.map Int.toNat)
    | _, _ => []

/-- The object whose rows a command reads, with their checks: its table, or W in SELECT mode (07 R196; 09 R265). -/
def rowsObject (b : List Byte) : Option Nat :=
  if [0x28, 0x29, foldOp].contains (slotOp b) then some (op32 b 16)
  else if slotOp b == 0x21 && resolves b then some (op32 b 20)
  else none

/-- The tile of a row that is read with its check for a command: a row of its table, its state object or its pool (09 R241,
R265), or of W in SELECT mode (07 R196). -/
def State.checkedTile (s : State) (d : Cmd) (h row : Nat) : Option (Nat × Nat) :=
  match rowsObject d.slot with
  | none => none
  | some w =>
    match s.operandRun w with
    | none => none
    | some o =>
      if h = w then some (h, row / rowsIn o.rowBytes)
      else match o.table with
        | none => none
        | some (t, _) =>
          let b := if h = t.pool then poolRowBytes o t else t.stateLen
          if h ≠ 0 ∧ (h = t.pool ∨ h = t.state) then some (h, row / rowsIn b) else none

/-- A tile that a run reads becomes POISONED (14 R421, R422). -/
def State.poisonRead (s : State) (d : Cmd) (x : Nat × Nat) (c : PoisonCause) : State :=
  match s.homeOf x.1 x.2 with
  | some f => if (s.runTiles d).contains x && (s.frame f).state == .home then s.poisonFrame f c else s
  | none => s

/-- What a run's reads observe: a tile or row that fails for good is POISONED; a row check that fails once counts (09 R265). -/
def State.observe (s : State) (n : Nat) (d : Cmd) (x : RunFault) : State :=
  match x with
  | .badRead h tile c => s.poisonRead d (h, tile) c
  | .rowCheck h row again =>
    (match s.checkedTile d h row with
     | none => s
     | some t =>
       if !(s.runTiles d).contains t then s
       else
         let s1 := s.raise .clu n 0x1C4 2
         if again then s1.poisonRead d t .rowCheck
         else s1.setCnt n { s1.cnt n with tblRowFails := satAdd 16 (s1.cnt n).tblRowFails 1 })
  | _ => s

/-- The duplicate datapaths of the table engine are compared for a command (09 R267). -/
def State.twice (s : State) (n : Nat) (d : Cmd) : Bool :=
  s.fld .clu n 0x1C0 0 0 == 1 && (slotOp d.slot == 0x28 || (slotOp d.slot == 0x29 && (s.updOf d).mode != 0))

/-- `RUN_FINDS_CONDITION`: a run that reads a POISONED tile or meets a scale-sequence mismatch stops in that cycle, without a
flip (05 R522), and so does one whose arithmetic or output proves wrong, under the repeat rule (14 R425). `found` is what its
hardware observes (DESIGN CHOICE, log entry 9). -/
def execRunFindsCondition (clu : Nat) (found : Option RunFault) (s : State) : Host.Outcome State Fault Refusal :=
  done (
    match s.running clu with
    | none => s
    | some (r, d) =>
      if !s.on || r.commitAt.isSome then s
      else match found with
        | some .mismatch => if s.twice clu d then s.tblMismatch clu else s
        | some .production =>
          if [0x30, 0x31, 0x38].contains (slotOp d.slot) then s else s.trigger clu 3
        | _ =>
          if r.work.isSome then s
          else
            let s1 := match found with | some x => s.observe clu d x | none => s
            match s1.foundCond d with
            | some x => s1.stopFound clu d x
            | none => s1)

/-! ## The comparison of a repeat pair (14 R428) -/

/-- The pool bytes of the rows of a run's work. -/
def State.poolBytes (s : State) (d : Cmd) (w : RunWork) : List (Nat × List Byte) :=
  match s.tableOf (op32 d.slot 16) with
  | none => []
  | some (o, t, _) => w.remap.map (fun x => (x.1, [0, 1].flatMap (fun k =>
      let pl := rowPlace t.pool (poolRowBytes o t) (2 * x.2 + k)
      s.rowBytesAt d pl (poolRowBytes o t))))

/-- The tiles of a run's work with their headers and data. -/
def State.workTiles (s : State) (w : RunWork) : List (Nat × Nat × List Byte × List Byte) :=
  w.shadows.map (fun h => (h.obj, h.tile, s.header h.fid, s.data h.fid))

/-- Two runs agree (14 R428): status, output tiles, summaries, amax contributions, predicates, pool rows and frames. -/
def State.agree (s : State) (d : Cmd) (a b : PairRun) : Bool :=
  a.status == b.status && a.detailA == b.detailA && a.detailB == b.detailB &&
  (match a.work, b.work with
   | some x, some y =>
     s.workTiles x == s.workTiles y && x.amax == y.amax && x.preds == y.preds && x.sums == y.sums &&
     x.remote == y.remote && x.host.map Prod.snd == y.host.map Prod.snd &&
     (if slotOp d.slot = 0x29 then s.poolBytes d x == s.poolBytes d y else x.remap == y.remap)
   | none, none => true
   | _, _ => false)

/-- The shadow tiles that a run of a pair holds become FREE. -/
def State.dropHeld (s : State) (r : Option PairRun) : State :=
  match r with
  | some p => (match p.work with | some w => s.freeShadows w.shadows | none => s)
  | none => s

/-- The frames that a pair's view kept are released once it is over (14 R427). -/
def State.endView (s : State) (d : Cmd) (m : RepeatPair) : State :=
  (s.setCmd { d with more := none }).releaseReads (m.view.map (fun v => v.2.2))

/-- A pair ends with `ST_CHECK_MISMATCH` (14 R428): nothing is committed. -/
def State.mismatch (s : State) (d : Cmd) (m : RepeatPair) : State :=
  let s1 := (((s.dropHeld m.run2).dropHeld m.run3).endView d m).noteClu d.id m.lastClu
  (s1.endCmd { d with reruns := d.reruns + m.clus.length, more := none } stCheckMismatch m.slot (1 + m.clus.length) false).tidy

/-- A transient outcome (14 R428): the run `p` flips, the other's shadows become FREE; X's fault count rises. -/
def State.transient (s : State) (d : Cmd) (m : RepeatPair) (p : PairRun) (other : Option PairRun) : State :=
  let e := { d with reruns := d.reruns + m.clus.length, more := none }
  match p.work with
  | none => s
  | some w =>
    let s1 := s.dropHeld other
    let x := s1.commitWork e w
    let s2 := (x.1.endView e m).noteClu d.id p.clu
    let s3 := { s2 with icnt := { s2.icnt with transients := satAdd 16 s2.icnt.transients 1 } }
    let s4 := ((s3.faultLog 1 m.slot m.cause (slotOp d.slot) x.2.2.1 x.2.2.2 0 0).raise .int 0 0x000 1).addFault m.slot
    s4.afterFlip e w x.2

/-- The physical slot of a run's cluster. -/
def State.slotOf (s : State) (p : PairRun) : Nat := (s.cluSlot p.clu).getD m255
where
  /-- No slot. -/
  m255 : Nat := 255

/-- The outcome of a pair whose runs are over (14 R428). A run that was not made counts as one without a trigger that
agrees. -/
def State.comparePair (s : State) (d : Cmd) (m : RepeatPair) : State :=
  let t2 := match m.run2 with | some r => r.trigger | none => false
  let t3 := match m.run3 with | some r => r.trigger | none => false
  let same := match m.run2, m.run3 with
    | some a, some b => t2 || t3 || s.agree d a b
    | _, _ => true
  let fault3 := fun (t : State) => match m.run3 with | some r => t.addFault (s.slotOf r) | none => t
  if !t2 && !t3 && same then
    let p := match m.run3 with | some r => some r | none => m.run2
    match p with
    | none => s
    | some r =>
      if isFailure r.status && r.work.isNone then
        ((((s.dropHeld m.run2).dropHeld m.run3).endView d m).noteClu d.id r.clu).endCmd
          { d with reruns := d.reruns + m.clus.length, more := none } r.status r.detailA r.detailB false |>.tidy
      else s.transient d m r (if m.run3.isSome then m.run2 else none)
  else if t2 && t3 then fault3 ((s.mismatch d m).makeSuspect m.slot)
  else if t3 then
    fault3 (match m.run2 with | some _ => (s.mismatch d m).addFault m.slot | none => s.mismatch d m)
  else (s.mismatch d m).makeSuspect m.slot

/-- `REPEAT_PAIR_COMPARE`: in the last cycle of the later run the runs are compared (14 R428), before the guard
band (02 R37). -/
def execRepeatPairCompare (cmd : Nat) (s : State) : Host.Outcome State Fault Refusal :=
  done (
    match s.cmd? cmd with
    | none => s
    | some d =>
      match d.more with
      | none => s
      | some m =>
        if s.on && d.paired && m.runsDone && decide (s.clk.cyc < s.G) then s.comparePair d m else s)

end Sys2Proof.Machine
end

