-- ==== Sys2Proof/Machine/HostLink.lean ====
section
/-! DEFINITION. The host link and its resets (12 R360, R372, R373, R375 to R382; 17 R508), and orphaned channels. -/

namespace Sys2Proof.Machine

/-! ## Link loss (12 R377) -/

/-- A HOST channel that is not DESTROYED becomes ORPHANED (03 R58; 12 R377); one that already is stays as it is. -/
def State.orphan (s : State) (c : Nat) : State :=
  let ch := s.chan c
  if ch.kind = .fabric ∨ ch.state = .destroyed ∨ ch.state = .orphaned then s
  else (s.setChan c { ch with state := .orphaned, reread := none, extWait := 0, orphanedAt := s.clk.now, timedOut := false }).raise
    .gfe c 0x22C 3

/-- A `HOST_WRITE` that has been issued and has not ended. -/
def State.writing (s : State) (d : Cmd) : Bool :=
  writesHost d.slot && (s.chan d.chan).kind == .host &&
  (match d.phase with | .admitted _ => true | .running _ => true | .flush _ _ => true | _ => false)

/-- A `HOST_WRITE` stops where it stands and ends with `ST_HOST_LOST` (12 R377). -/
def State.loseWrite (s : State) (d : Cmd) : State :=
  let leave := fun n => match s.running n with
    | some (r, e) => if e.id = d.id then s.stopRun n (s.elapsed r) false else s
    | none => s
  let s1 := match d.phase with
    | .admitted n => s.unqueue n d.id
    | .running n => leave n
    | .flush n _ => leave n
    | _ => s
  s1.endCmd d stHostLost 0 0 false

/-- The reads of the host that an event of R377 discards: ring reads and flush reads. -/
def lostRead (r : HostRd) : Bool := match r.id with | .line _ _ => false | _ => true

/-- The effects of link loss, a hot reset, PERST#, an FLR or D3hot (12 R377). -/
def State.linkLoss (s : State) : State :=
  let s1 := (s.chans.map Prod.fst).foldl State.orphan s
  let s2 := { s1 with host := { s1.host with reads := s1.host.reads.filter (fun r => !lostRead r), posted := [], memWait := [] } }
  let s3 := (s2.gfe.cmds.filter s2.writing).foldl (fun t d => match t.cmd? d.id with
    | some e => t.loseWrite e
    | none => t) s2
  let s4 := s3.killReads
  State.tidy (({ s4 with link := { s4.link with downs := satAdd 16 s4.link.downs 1 } } : State).raise .cxl 0 0x004 1)

/-! ## What a reset restores (12 R382) -/

/-- Registers of a window take their reset values, whatever their item, and lose their pending writes. -/
def State.resetRegs (s : State) (w : Win) (offs : List Nat) : State :=
  let hit := fun k => keyWin k == w.num && offs.contains (keyOff k)
  { s with reg := { s.reg with vals := s.reg.vals.filter (fun x => !hit x.1), pend := s.reg.pend.filter (fun p => !hit p.key) } }

/-- What every event of R377 resets of the host-visible state: aperture bindings, `CXL_EV_CFG`, and of the function's state
the MSI-X table and enables and the bus master enable (12 R382; PRESUMED, log entry 23). -/
def State.resetFunction (s : State) : State :=
  let s1 := s.resetRegs .cxl [0x044, 0x048, 0x04C, 0x064]
  { s1 with link := { s1.link with busMaster := false, msixEn := false, d3hot := false }, host := { s1.host with unmasked := [] } }

/-- What a conventional reset resets besides: the DVSEC enables and the HDM decoder (12 R382). -/
def State.resetConfig (s : State) : State :=
  let s1 := s.resetFunction
  { s1 with link := { s1.link with cacheEn := false, memEn := false, hdm := none } }

/-! ## The states of the link (12 R373) -/

/-- The link can train: PERST# is deasserted, the boot sequence has reached its step, the reference clock is in range, and no
test of the host edge runs (12 R373; 14 R438; 17 R508). -/
def State.canTrain (s : State) : Bool :=
  !s.link.perst && s.link.hostStep && s.sb.refclk && !s.unitTest 4

/-- A DOWN link that can train is in TRAINING (DEDUCED, log entry 24). -/
def State.tryTrain (s : State) : State :=
  if s.link.state = .down ∧ s.canTrain = true then { s with link := { s.link with state := .training } } else s

/-- Send the pending vectors that can be sent (12 R372). -/
def State.sendPending (s : State) : State :=
  if !s.msixOpen then s
  else
    let go := s.host.pendVec.filter (fun v => s.host.unmasked.contains v)
    go.foldl (fun t v => t.emit (.msix v)) { s with host := { s.host with pendVec := s.host.pendVec.filter (fun v => !go.contains v) } }

/-- What a channel does once the link is up: a draining one writes its stored records again, others their held ones, and
reading resumes (12 R379, R380). -/
def State.linkChan (s : State) (c : Nat) : State :=
  let ch := s.chan c
  if ch.kind = .fabric then s
  else
    let s1 := if ch.state = .draining then
        State.drainDone ((s.rewriteStored c ch.cqWritten).setChan c { ch with cqWritten := false }) c
      else s.release c
    s1.pumpRing c

/-- The link is UP at a width and a speed (12 R373). -/
def State.linkUpAt (s : State) (width gts : Nat) : State :=
  let low := width != 16 || gts != 32
  let new := low && !s.link.degraded
  let s1 := { s with link := { s.link with state := .up, width := width, gts := gts, degraded := low } }
  if new then s1.raise .cxl 0 0x004 2 else s1

/-- What resumes when the link is UP. -/
def State.resumeHost (s : State) : State :=
  (((s.chans.map Prod.fst).foldl State.linkChan s).pumpAllLines).sendPending

/-- The link goes DOWN with the effects of R377 and of a conventional reset. -/
def State.takeDown (s : State) : State :=
  let s1 := s.linkLoss.resetConfig
  { s1 with link := { s1.link with state := .down, degraded := false } }

/-- The link is UP or in RECOVERY. -/
def State.linkLive (s : State) : Bool := s.link.state == .up || s.link.state == .recovery

/-- `PERST_ASSERT` (12 R373, R377) (DESIGN CHOICE, log entry 54). -/
def execPerstAssert (s : State) : Host.Outcome State Fault Refusal :=
  done (
    if !s.on || s.link.perst then s
    else
      let s1 := s.takeDown
      { s1 with link := { s1.link with perst := true } })

/-- `PERST_DEASSERT` (12 R373). -/
def execPerstDeassert (s : State) : Host.Outcome State Fault Refusal :=
  done (if !s.on then s else State.tryTrain { s with link := { s.link with perst := false } })

/-- `LINK_L0_REACHED` (12 R373). A link that went DOWN with PERST# deasserted trains on its own (DEDUCED, log entry 24). -/
def execLinkL0Reached (width gts : Nat) (s : State) : Host.Outcome State Fault Refusal :=
  done (
    let s1 := s.tryTrain
    if !s.on || s1.link.state != .training then s else (s1.linkUpAt width gts).resumeHost)

/-- `LINK_RECOVERY_ENTER` (12 R373). -/
def execLinkRecoveryEnter (s : State) : Host.Outcome State Fault Refusal :=
  done (
    if !s.on || !s.linkUp then s
    else { s with link := { s.link with state := .recovery, recoveries := satAdd 16 s.link.recoveries 1 } })

/-- `LINK_RECOVERY_EXIT`: L0 regained (12 R373). -/
def execLinkRecoveryExit (width gts : Nat) (s : State) : Host.Outcome State Fault Refusal :=
  done (if !s.on || s.link.state != .recovery then s else (s.linkUpAt width gts).resumeHost)

/-- `DL_DOWN` (12 R373, R377). -/
def execDlDown (s : State) : Host.Outcome State Fault Refusal :=
  done (if !s.on || !s.linkLive then s else s.takeDown)

/-- `HOT_RESET` (12 R373, R377). -/
def execHotReset (s : State) : Host.Outcome State Fault Refusal :=
  done (if !s.on || !s.linkLive then s else s.takeDown)

/-- `FLR`: the function's state is reset, the link and the DVSEC enables stay (12 R377, R382). -/
def execFlr (s : State) : Host.Outcome State Fault Refusal :=
  done (if !s.on || !s.linkLive then s else s.linkLoss.resetFunction)

/-- `D3HOT_ENTRY` (12 R376) (DESIGN CHOICE, log entry 54). -/
def execD3hotEntry (s : State) : Host.Outcome State Fault Refusal :=
  done (
    if !s.on || !s.linkLive || s.link.d3hot then s
    else
      let s1 := s.linkLoss.resetFunction
      { s1 with link := { s1.link with d3hot := true } })

/-- `D0_RETURN`: an FLR (12 R376). -/
def execD0Return (s : State) : Host.Outcome State Fault Refusal :=
  done (if !s.on || !s.linkLive || !s.link.d3hot then s else s.linkLoss.resetFunction)

/-- `REFCLK_LOSS`: taken as DL_Down (17 R508). -/
def execRefclkLoss (s : State) : Host.Outcome State Fault Refusal :=
  done (
    if !s.on || !s.sb.refclk then s
    else
      let s1 := { s with sb := { s.sb with refclk := false } }
      if s1.linkLive then s1.takeDown else { s1 with link := { s1.link with state := .down } })

/-- `REFCLK_RESTORED`: training resumes (17 R508). -/
def execRefclkRestored (s : State) : Host.Outcome State Fault Refusal :=
  done (if !s.on then s else State.tryTrain { s with sb := { s.sb with refclk := true } })

/-! ## The function's configuration (12 R360, R372, R375) -/

/-- `DVSEC_CACHE_ENABLE`: clear, no ring is read and every running `HOST_READ` is killed; set, reading resumes (12 R360). -/
def execDvsecCacheEnable (on : Bool) (s : State) : Host.Outcome State Fault Refusal :=
  done (
    if !s.on || !s.linkUp then s
    else
      let s1 := { s with link := { s.link with cacheEn := on } }
      if on then (s1.pumpRings (s1.chans.map Prod.fst)).pumpAllLines else s1.killReads)

/-- `MEM_ENABLE`: Mem_Enable, and the size of the committed decoder, a multiple of 256 MiB (12 R360, R362). -/
def execMemEnable (on : Bool) (decoder : Option Nat) (s : State) : Host.Outcome State Fault Refusal :=
  done (
    if !s.on || !s.linkUp then s
    else { s with link := { s.link with memEn := on,
                                        hdm := match decoder with | some n => if n % 0x10000000 = 0 then some n else none | none => none } })

/-- `VECTOR_UNMASK`: each pending vector that can now be sent sends one message (12 R372). -/
def execVectorUnmask (what : Unmask) (s : State) : Host.Outcome State Fault Refusal :=
  done (
    if !s.on || !s.linkUp then s
    else match what with
      | .vector v m =>
        let rest := s.host.unmasked.filter (fun x => x != v)
        State.sendPending { s with host := { s.host with unmasked := if m then rest else rest ++ [v] } }
      | .msixEnable e => State.sendPending { s with link := { s.link with msixEn := e } }
      | .busMaster e => State.sendPending { s with link := { s.link with busMaster := e } })

/-- `LANE_MARGINING` of one trained lane at 32 GT/s: 16 timing or 32 voltage steps to either side, errors up to the limit of
63 that the host can write (12 R375). -/
def execLaneMargining (lane : Nat) (timing : Bool) (step : Int) (errors : Nat) (s : State) : Host.Outcome State Fault Refusal :=
  done (
    if !s.on || !s.linkUp || s.link.gts != 32 || decide (s.link.width ≤ lane) ||
       decide ((if timing then 16 else 32) < step.natAbs) then s
    else s.emit (.laneErrors lane (min errors 63)))

/-! ## The orphan timeout (12 R381) -/

/-- `ORPHAN_TIMEOUT`: the channel goes to DESTROYED at the next edge (12 R381). -/
def execOrphanTimeout (chan : Nat) (s : State) : Host.Outcome State Fault Refusal :=
  done (
    let ch := s.chan chan
    if !s.on || ch.state != .orphaned || decide (s.clk.now < ch.orphanedAt + s.fld .cxl 0 0x020 11 0 * secCycles) then s
    else s.setChan chan { ch with timedOut := true })

/-- A command of a channel that is discarded with it: read, and neither issued nor admitted (03 R58). -/
def Cmd.discarded (d : Cmd) : Bool :=
  match d.phase with
  | .unissued => true
  | .resolving => true
  | .ready => true
  | .waiting _ => slotOp d.slot == 0x09
  | _ => false

/-- A command goes without an end and without a record. -/
def State.discardCmd (s : State) (d : Cmd) : State :=
  let s1 := s.dropCmd d.id
  match d.ctx with | some i => s1.settleCtx i | none => s1

/-- A channel whose orphan timeout has passed is destroyed at an edge: its commands not admitted and its records are
discarded (03 R58; 12 R380, R381). -/
def State.destroyOrphan (s : State) (c : Nat) : State :=
  let ch := s.chan c
  if ch.state ≠ .orphaned ∨ ch.timedOut = false then s
  else
    let s1 := (s.setChan c { ch with state := .destroyed, ctxWait := none, timedOut := false }).setCq c { s.cq c with store := [] }
    let s2 := (s1.gfe.launches.filter (fun l => l.chan == c)).foldl (fun t l => t.setLaunch { l with left := 0 }) s1
    let s3 := (s2.gfe.cmds.filter (fun d => d.chan == c && d.discarded)).foldl State.discardCmd s2
    let s4 := (s3.gfe.launches.filter (fun l => l.chan == c)).foldl (fun t l => t.settleLaunch l.id) s3
    let s5 := ((s4.closeCtx c).gfe.ctxs.filter (fun x => x.chan == c)).foldl (fun t x => t.settleCtx x.id) (s4.closeCtx c)
    (s5.raise .cxl 0 0x004 4).tidy

/-- Every channel whose orphan timeout has passed. -/
def State.destroyOrphans (s : State) : State := (s.chans.map Prod.fst).foldl State.destroyOrphan s

end Sys2Proof.Machine
end

