-- ==== Sys2Proof/Machine/Fabric.lean ====
section
/-! DEFINITION. The fabric: ports and discovery (13 R397 to R399), frames received (R401 to R406), messages and services (R408
to R413). -/

namespace Sys2Proof.Machine

/-! ## Ports (13 R397) -/

/-- A port enters a state. -/
def State.setPortState (s : State) (p : Nat) (st : PortState) : State :=
  s.setPort p { s.port p with state := st, since := s.clk.now }

/-- After a change of the usable sets: a flow whose port has changed sends its unacknowledged frames again on the new one,
and a flow that waited goes on (13 R399, R407). -/
def State.moveFlows (s : State) : State :=
  s.egress (s.flowOrder.foldl (fun t k =>
    let e := t.peer k
    if e.state ≠ .active then t
    else match t.portFor (k / 4) (k % 4) with
      | none => t
      | some p => (if p = e.port then t else t.resendFlow (k / 4) (k % 4)).pumpFlow (k / 4) (k % 4)) s)

/-- The destination number that stands for the broadcast address (DESIGN CHOICE, log entry 25). -/
def broadcastId : Nat := 65535

/-- Broadcast a DISCOVER on an UP port (13 R399). -/
def State.sendDiscover (s : State) (p : Nat) : State :=
  if (s.port p).state = .up ∧ s.fabLive = true then
    (s.setPort p { s.port p with toldAt := s.clk.now }).emit (.frame p 3 0 broadcastId false false 0 0 0 0 0 0 0 0 [])
  else s

/-- `PORT_ENABLE`: EN of the port is written 1 (13 R397). -/
def execPortEnable (port : Nat) (s : State) : Host.Outcome State Fault Refusal :=
  done (
    if !s.served then s
    else
      let s1 := s.fldPut .fab 0 (0x040 + 4 * port) 0 0 1
      if (s1.port port).state = .disabled then s1.setPortState port .training else s1)

/-- `PORT_DISABLE`: EN of the port is written 0 (13 R397). -/
def execPortDisable (port : Nat) (s : State) : Host.Outcome State Fault Refusal :=
  done (if !s.served then s else ((s.fldPut .fab 0 (0x040 + 4 * port) 0 0 0).setPortState port .disabled).moveFlows)

/-- `PORT_TRAINING_COMPLETE`: the port is UP and discovers (13 R397, R399). -/
def execPortTrainingComplete (port : Nat) (s : State) : Host.Outcome State Fault Refusal :=
  done (
    if !s.on || (s.port port).state != .training then s
    else (((s.setPortState port .up).raise .fab 0 0x080 1).sendDiscover port).moveFlows)

/-- `PORT_TRAINING_TIMEOUT`: after 500 ms training starts again (13 R397). -/
def execPortTrainingTimeout (port : Nat) (s : State) : Host.Outcome State Fault Refusal :=
  done (if !s.on || (s.port port).state != .training || !s.passed (s.port port).since (500 * msCycles) then s
    else s.setPortState port .training)

/-- `PORT_FAULT`: a fault has lasted 10 µs (13 R397). -/
def execPortFault (port : Nat) (s : State) : Host.Outcome State Fault Refusal :=
  done (
    if !s.on || (s.port port).state != .up then s
    else (((s.setPort port { s.port port with flaps := satAdd 8 (s.port port).flaps 1 }).setPortState port .holddown).raise
      .fab 0 0x080 2).moveFlows)

/-- `HOLDDOWN_EXPIRY`: 100 ms in HOLDDOWN have passed (13 R397). -/
def execHolddownExpiry (port : Nat) (s : State) : Host.Outcome State Fault Refusal :=
  done (
    if !s.on || (s.port port).state != .holddown || !s.passed (s.port port).since (100 * msCycles) then s
    else s.setPortState port .training)

/-! ## Discovery (13 R399, R401) -/

/-- `DISCOVER_SEND`: once every second after the last (13 R399). -/
def execDiscoverSend (port : Nat) (s : State) : Host.Outcome State Fault Refusal :=
  done (if !s.on || !s.passed (s.port port).toldAt secCycles then s else s.sendDiscover port)

/-- A frame that arrives on a port is taken: the port is UP, and the fabric accepts frames (13 R397, R414; 14 R438). -/
def State.takes (s : State) (port : Nat) : Bool := s.on && (s.port port).state == .up && s.fabLive

/-- Count a discarded frame (13 R401). -/
def State.discard (s : State) : State := { s with fab := { s.fab with drops := (satAdd 16 s.fab.drops.1 1, s.fab.drops.2) } }

/-- The checks of 13 R401 on a frame of a kind. -/
def State.frameOk (s : State) (f : Frame) (kind : Nat) : Bool :=
  f.crcOk && f.kind == kind && decide (f.payload.length ≤ 8192) &&
  (if kind = 3 then f.payload.isEmpty else f.dst == s.fab.moduleId) &&
  (kind == 0 || kind == 4 || f.payload.isEmpty) && decide (f.frag ≤ f.nfrag)

/-- The ports that are UP, as a bitmap. -/
def State.upMask (s : State) : Nat := ((upTo 8).filter (fun p => (s.port p).state == .up)).foldl (fun m p => m + 2 ^ p) 0

/-- `DISCOVER`: answered on its port (13 R399, R400). -/
def execDiscover (port : Nat) (f : Frame) (s : State) : Host.Outcome State Fault Refusal :=
  done (
    if !s.takes port then s
    else if !s.frameOk f 3 then s.discard
    else s.emit (.frame port 4 0 f.src false false 0 0 0 0 0 0 0 0 (leBytes 4 s.upMask)))

/-- A MAC address is one of the module's own ports (13 R396). -/
def State.ownMac (s : State) (mac : Nat) : Bool :=
  (upTo 8).any (fun p => mac == s.fld .fab 0 0x00C 23 0 * 2 ^ 24 + s.fab.moduleId * 8 + p)

/-- `DISCOVER_REPLY`: a plane to a destination is learned; the module's own ID from another address is a conflict (13 R399,
R401) (DEDUCED, log entry 55). -/
def execDiscoverReply (port : Nat) (mac : Nat) (f : Frame) (s : State) : Host.Outcome State Fault Refusal :=
  done (
    if !s.takes port || s.fab.conflicts.contains mac then s
    else if !s.frameOk f 4 || f.payload.length != 4 then s.discard
    else if f.src = s.fab.moduleId then
      let s1 := s.discard
      if s.ownMac mac then s1
      else State.raise { s1 with fab := { s1.fab with conflicts := s1.fab.conflicts ++ [mac] } } .fab 0 0x080 6
    else
      let rest := s.fab.replies.filter (fun r => !(r.1 == f.src && r.2.1 == port))
      State.moveFlows { s with fab := { s.fab with replies := rest ++ [(f.src, port, s.clk.now)] } })

/-- `ROUTE_PLANE_EXPIRY`: 3 s without a reply on a plane (13 R399, R401). -/
def execRoutePlaneExpiry (dst plane : Nat) (s : State) : Host.Outcome State Fault Refusal :=
  done (
    if !s.on then s
    else State.moveFlows { s with fab := { s.fab with replies := s.fab.replies.filter (fun r =>
      !(r.1 == dst && r.2.1 == plane && decide (r.2.2 + 3 * secCycles ≤ s.clk.now))) } })

/-- `FRAME_DISCARD` (13 R394, R401). -/
def execFrameDiscard (port : Nat) (s : State) : Host.Outcome State Fault Refusal :=
  done (if !s.takes port then s else s.discard)

/-! ## Failed peers (13 R406) -/

/-- A command that waits on a message to or from a failed or refusing peer ends: a gather at once, an update or the host bytes
of a FABRIC channel once nothing more is to come (13 R406, R413; 09 R258, R275). -/
def State.remoteEnds (s : State) (id m : Nat) : State :=
  match s.cmd? id with
  | none => s
  | some d =>
    match d.phase with
    | .resolving => s.remoteFail d m (match d.res with | some r => r.partials.length | none => 0)
    | .acks _ _ _ => (s.setCmd { d with phase := .acks stRemoteFail m 0 }).settleAcks id
    | .flush _ _ => s.setCmd { d with phase := .acks stRemoteFail m 0 }
    | _ => s

/-- The commands that wait on a peer: those whose messages await an answer, and those whose frames are unacknowledged. -/
def State.waitsOn (s : State) (m : Nat) : List Nat :=
  ((s.fab.awaits.filter (fun a => a.peer == m)).map Await.cmd ++
   (upTo 4).flatMap (fun v => (s.peer (peerIx m v)).frames.filterMap (fun f => f.cmd))).eraseDups

/-- A peer is declared failed, or has restarted: status bit 3 or 4 (13 R406). -/
def State.failPeer (s : State) (m bit : Nat) : State :=
  let ids := s.waitsOn m
  let s1 := (upTo 4).foldl (fun t v => t.setPeer (peerIx m v) { Peer.init with state := .failed, failedAt := s.clk.now }) s
  let s2 := { s1 with fab := { s1.fab with awaits := s1.fab.awaits.filter (fun a => a.peer != m) } }
  (ids.foldl (fun t id => t.remoteEnds id m) s2).raise .fab 0 0x080 bit

/-- `PEER_FAILED_EXPIRY`: after 100 ms the entries can be created afresh (13 R406). -/
def execPeerFailedExpiry (peer : Nat) (s : State) : Host.Outcome State Fault Refusal :=
  done (
    if !s.on then s
    else (upTo 4).foldl (fun t v =>
      if (t.peer (peerIx peer v)).state = .failed ∧ s.passed (t.peer (peerIx peer v)).failedAt (100 * msCycles) = true then t.setPeer (peerIx peer v) Peer.init else t) s)

/-! ## Acknowledgements (13 R401, R403 to R405) -/

/-- Take ACK_PSN and CREDIT of a frame on the flow to a peer: frames acknowledged leave the buffer, and what credit and the
retransmit buffer now allow leaves (13 R401, R404, R405). -/
def State.takeAck (s : State) (m v : Nat) (ackPsn credit : BitVec 32) : State :=
  let e := s.peer (peerIx m v)
  if e.state ≠ .active then s
  else
    let out := (e.frames.filter (·.sent)).length
    let k := (ackPsn - e.oldest).toNat
    let ok : Bool := decide (k ≤ out)
    let gone := if ok then e.frames.take k else []
    let e1 := if ok && k != 0 then { e with oldest := ackPsn, frames := e.frames.drop k, expiries := 0 } else e
    let e2 := if (credit - e.creditTx).toNat < 2 ^ 31 then { e1 with creditTx := credit } else e1
    let s1 := (s.setPeer (peerIx m v) e2).pumpAll
    (gone.filterMap (fun f => f.cmd)).eraseDups.foldl State.settleAcks s1

/-- `ACK` (13 R404). -/
def execAck (port : Nat) (f : Frame) (s : State) : Host.Outcome State Fault Refusal :=
  done (
    if !s.takes port || f.src == s.fab.moduleId then s
    else if !s.frameOk f 1 then s.discard
    else s.takeAck f.src f.vl f.ackPsn f.credit)

/-- `NAK`: go-back-N, or the restart of the peer if RESET is set (13 R403, R404, R406). -/
def execNak (port : Nat) (f : Frame) (s : State) : Host.Outcome State Fault Refusal :=
  done (
    if !s.takes port || f.src == s.fab.moduleId then s
    else if !s.frameOk f 2 then s.discard
    else if f.reset then (if s.peerFailed f.src then s else s.failPeer f.src 4)
    else (s.takeAck f.src f.vl f.ackPsn f.credit).resendFlow f.src f.vl)

/-- `ACK_DUE`: no DATA frame has carried the acknowledgement within 2 µs (13 R404). -/
def execAckDue (peer vl : Nat) (s : State) : Host.Outcome State Fault Refusal :=
  done (
    let e := s.peer (peerIx peer vl)
    match s.portFor peer vl with
    | none => s
    | some p =>
      if !s.on || !s.fabLive || !e.ackOwed then s
      else (s.setPeer (peerIx peer vl) { e with ackOwed := false }).sendCtl p 1 vl peer false [])

/-- The retransmission interval in cycles (13 R404, R414). -/
def State.rtoCycles (s : State) : Nat := s.fld .fab 0 0x014 11 0 * 1300

/-- The retransmission timer of a flow has expired: 2^(k-1) intervals since the transmission of its oldest unacknowledged frame, at
the k-th expiry in a row (13 R404). -/
def State.retxDue (s : State) (e : Peer) : Bool :=
  match e.frames with
  | f :: _ => f.sent && s.passed f.sentAt (s.rtoCycles * 2 ^ e.expiries)
  | [] => false

/-- `RETX_TIMER_EXPIRY`: the flow is sent again from its oldest frame, or at the LIMIT-th expiry in a row its peer has failed
(13 R404, R406) (DEDUCED, log entry 55). -/
def execRetxTimerExpiry (peer vl : Nat) (s : State) : Host.Outcome State Fault Refusal :=
  done (
    let e := s.peer (peerIx peer vl)
    if !s.on || e.state != .active || !s.retxDue e then s
    else if s.fld .fab 0 0x014 15 12 ≤ e.expiries + 1 then s.failPeer peer 3
    else (s.setPeer (peerIx peer vl) { e with expiries := e.expiries + 1, frames := resent s.clk.now e.frames }).resendFlow peer vl)

/-! ## DATA frames (13 R403, R404, R408) -/

/-- A frame's message in reassembly. -/
def State.reasmOf (s : State) (f : Frame) : Option Reasm :=
  s.fab.reasm.find? (fun r => r.peer == f.src && r.vl == f.vl && r.msgId == f.msgId)

/-- A received frame belongs to its message in reassembly: the same NFRAG and MSG_TYPE (13 R401). -/
def State.fragOk (s : State) (f : Frame) : Bool :=
  match s.reasmOf f with | some r => r.nfrag == f.nfrag && r.msgType == f.msgType | none => true

/-- Take the pieces of a message in the order of their indices. -/
def joinFrags (got : List (Nat × List Byte)) (n : Nat) : List Byte :=
  (upTo (n + 1)).flatMap (fun k => match got.find? (fun g => g.1 == k) with | some g => g.2 | none => [])

/-- Put an accepted frame into its message; a whole message is delivered, one of an unknown type is refused (13 R408). -/
def State.reassemble (s : State) (f : Frame) : State :=
  let old := s.reasmOf f
  let got := (match old with | some r => r.got | none => []) ++ [(f.frag, f.payload)]
  let rest := s.fab.reasm.filter (fun r => !(r.peer == f.src && r.vl == f.vl && r.msgId == f.msgId))
  if got.length ≤ f.nfrag then
    { s with fab := { s.fab with reasm := rest ++ [⟨f.src, f.vl, f.msgId, f.msgType, f.nfrag, got,
      s.tickN + f.deadline, (match old with | some r => r.since | none => s.clk.now)⟩] } }
  else
    let s1 := { s with fab := { s.fab with reasm := rest } }
    if 6 < f.msgType then s1.refuseMsg f.src f.vl 5 f.msgId.toNat
    else { s1 with fab := { s1.fab with
      inbox := s1.fab.inbox ++ [⟨f.src, f.vl, f.msgId, f.msgType, s.tickN + f.deadline, joinFrags got f.nfrag⟩] } }

/-- An accepted DATA frame: the next PSN is expected, the acknowledgement is owed, and the frame joins its message, or the
message is refused because the receive buffer is full (13 R404, R405, R408). -/
def State.acceptFrame (s : State) (f : Frame) (e : Peer) : State :=
  let e1 := { e with state := .active, expect := f.psn + 1, usedRx := e.usedRx + BitVec.ofNat 32 (units f.payload.length),
                     ackOwed := true, nakAt := none }
  let s1 := s.setPeer (peerIx f.src f.vl) e1
  if 32 * 2 ^ 20 < s.rxBytes + f.payload.length then
    State.refuseMsg { s1 with fab := { s1.fab with reasm := s1.fab.reasm.filter (fun r =>
      !(r.peer == f.src && r.vl == f.vl && r.msgId == f.msgId)) } } f.src f.vl 6 f.msgId.toNat
  else s1.reassemble f

/-- A NEW frame with PSN 0 that is not a copy of the one the flow began with starts the flow again (13 R403; DEDUCED, log entry 26). -/
def Peer.restarts (e : Peer) (f : Frame) : Bool := f.isNew && f.psn == 0 && e.firstMsg != some f.msgId

/-- A DATA frame in the order of its flow (13 R403, R404). -/
def State.orderFrame (s : State) (f : Frame) : State :=
  let e := s.peer (peerIx f.src f.vl)
  if e.restarts f then
    (({ s with fab := { s.fab with reasm := s.fab.reasm.filter (fun r => !(r.peer == f.src && r.vl == f.vl)) } } : State).acceptFrame
      f { e with usedRx := 0, firstMsg := some f.msgId })
  else if e.state = .empty then
    (match s.portFor f.src f.vl with | some p => s.sendCtl p 2 f.vl f.src true [] | none => s)
  else if f.psn = e.expect then s.acceptFrame f e
  else if (e.expect - f.psn).toNat < 2 ^ 31 then s.setPeer (peerIx f.src f.vl) { e with ackOwed := true }
  else
    let again : Bool := match e.nakAt with | none => true | some t => decide (t + s.rtoCycles ≤ s.clk.now)
    match s.portFor f.src f.vl with
    | some p => if again then
        (s.setPeer (peerIx f.src f.vl) { e with nakAt := some s.clk.now }).sendCtl p 2 f.vl f.src false [] else s
    | none => s

/-- `DATA` (13 R401, R403, R404). -/
def execData (port : Nat) (f : Frame) (s : State) : Host.Outcome State Fault Refusal :=
  done (
    if !s.takes port || f.src == s.fab.moduleId then s
    else if !s.frameOk f 0 || !s.fragOk f then s.discard
    else if s.peerFailed f.src then s
    else (s.takeAck f.src f.vl f.ackPsn f.credit).orderFrame f)

/-- `REASSEMBLY_TIMEOUT`: a message still incomplete 10 ms after its first frame is discarded (13 R401). -/
def execReassemblyTimeout (peer vl msgId : Nat) (s : State) : Host.Outcome State Fault Refusal :=
  done (
    if !s.on then s
    else { s with fab := { s.fab with reasm := s.fab.reasm.filter (fun r =>
      !(r.peer == peer && r.vl == vl && r.msgId.toNat == msgId && s.passed r.since (10 * msCycles))) } })

/-! ## Messages (13 R408) -/

/-- The oldest message delivered on a flow. -/
def State.firstMsg (s : State) (m v : Nat) : Option Msg := s.fab.inbox.find? (fun x => x.peer == m && x.vl == v)

/-- The oldest message of a flow if it has a type, and the module serves messages: it is not stopped, in recovery or in a warm
reset (13 R408; 16 R475, R489, R500). -/
def State.msgOf (s : State) (m v ty : Nat) : Option Msg :=
  match s.firstMsg m v with
  | some x => if x.msgType = ty ∧ s.coresRun = true ∧ s.sup.stopping = false then some x else none
  | none => none

/-- Take the oldest message of a flow out of the receive buffer. -/
def State.consumeMsg (s : State) (m v : Nat) : State :=
  match takeFirst (fun x : Msg => x.peer == m && x.vl == v) s.fab.inbox with
  | some (_, rest) => { s with fab := { s.fab with inbox := rest } }
  | none => s

/-- Put another payload in the oldest message of a flow. -/
def State.keepMsg (s : State) (m v : Nat) (payload : List Byte) : State :=
  match takeFirst (fun x : Msg => x.peer == m && x.vl == v) s.fab.inbox with
  | some (x, rest) => { s with fab := { s.fab with inbox := { x with payload := payload } :: rest } }
  | none => s

/-- Refuse and consume a message. -/
def State.refuseIt (s : State) (x : Msg) (reason : Nat) : State :=
  (s.consumeMsg x.peer x.vl).refuseMsg x.peer x.vl reason x.msgId.toNat

/-! ### REQUEST (13 R409, R410) -/

/-- The slots of a REQUEST with their extension bytes; none if a check fails or an extension runs over the end. `n` bounds
their number. -/
def requestSlots : Nat → List Byte → Option (List (List Byte × List Byte))
  | 0, _ => some []
  | _ + 1, [] => some []
  | n + 1, b :: t =>
    let ps := b :: t
    let slot := ps.take 64
    let ext := (ps.drop 64).take (64 * slotExt slot)
    if slot.length < 64 ∨ ext.length < 64 * slotExt slot ∨ slotCrcOk slot = false ∨ slotXcrcOk slot ext = false then none
    else (requestSlots n (ps.drop (64 + 64 * slotExt slot))).map (fun l => (slot, ext) :: l)

/-- The channel of a REQUEST takes commands of a source (13 R409). -/
def State.sourceOk (s : State) (c m : Nat) : Bool :=
  let ch := s.chan c
  ch.kind == .fabric && ch.state == .active && decide (ch.srcRange.1 ≤ m) && decide (m ≤ ch.srcRange.2)

/-- A REQUEST is malformed: NPOS, the reserved bytes or the length (13 R408). -/
def requestBad (p : List Byte) : Bool :=
  let n := leField p 2 2
  n == 0 || decide (1024 < n) || !allZero ((p.drop 4).take 4) || p.length != 8 + 64 * n

/-- A slot of a FABRIC channel can be read now: fewer than 32 commands are held, and none waits for a context (03 R63,
R74). -/
def State.slotRoom (s : State) (c : Nat) : Bool := decide (s.heldCount c < 32) && (s.chan c).ctxWait.isNone

/-- Read slots of a REQUEST in order while there is room; what is not read stays in its message (13 R410). -/
def State.readSlots (s : State) (x : Msg) (c : Nat) : List (List Byte × List Byte) → State
  | [] => s.consumeMsg x.peer x.vl
  | (slot, ext) :: t =>
    if s.slotRoom c then State.readSlots (s.acceptSlot c slot ext (some ⟨x.peer, slotClass slot⟩)) x c t
    else
      let left := ((slot, ext) :: t).flatMap (fun y => y.1 ++ y.2)
      s.keepMsg x.peer x.vl
        (leBytes 2 c ++ leBytes 2 (left.length / 64) ++ zeros 4 ++ left)

/-- `REQUEST`: its slots go to a FABRIC channel (13 R409, R410). -/
def execRequest (peer vl : Nat) (s : State) : Host.Outcome State Fault Refusal :=
  done (
    match s.msgOf peer vl 0 with
    | none => s
    | some x =>
      let c := leField x.payload 0 2
      if requestBad x.payload then s.refuseIt x 5
      else if 4096 ≤ c ∨ s.sourceOk c peer = false then s.refuseIt x 1
      else if s.unitTest 1 then s
      else match requestSlots 1024 (x.payload.drop 8) with
        | none => s.refuseIt x 5
        | some l => s.readSlots x c l)

/-! ### RESPONSE -/

/-- `RESPONSE`: its records and bytes belong to what sent a REQUEST; no command of the module does, so they are consumed (13
R408; DEDUCED, log entry 27). -/
def execResponse (peer vl : Nat) (s : State) : Host.Outcome State Fault Refusal :=
  done (
    match s.msgOf peer vl 1 with
    | none => s
    | some x =>
      let p := x.payload
      if p.length < 16 ∨ p.length ≠ 16 + 32 * leField p 2 2 + leField p 12 4 then s.refuseIt x 5
      else s.consumeMsg peer vl)

/-! ### GATHER and UPDATE (13 R411, R412) -/

/-- The table of a TAG. -/
def State.tableTagged (s : State) (tag : Nat) : Option (Nat × Obj × TableDesc) :=
  s.objs.findSome? (fun x => match x.2.table with
    | some (t, _) => if t.tag = tag ∧ (s.liveObj x.1).isSome = true then some (x.1, x.2, t) else none
    | none => none)

/-- The budget of a served command: the bounds of 09 R264 and R276 with every row read from the attic, within the admission
limit (DESIGN CHOICE, log entry 28). -/
def State.serveBudget (s : State) (c rows rowBytes reply opt : Nat) : Nat :=
  let sec := rows * ceilDiv rowBytes 32
  min (64 + max (ceilDiv (13 * sec) 15) (ceilDiv (32 * sec + reply) 512) + opt)
    (min (2 ^ 22 - 1) (s.limitOf (s.fld .gfe c 0x214 2 0)))

/-- A slot for a served command: its opcode, its class, its budget, its table, and the rounding code of an update (09 R275). -/
def serveSlot (op cls budget h rnd : Nat) : List Byte :=
  padTo 64 (leBytes 1 op ++ leBytes 1 (cls * 64) ++ zeros 4 ++ leBytes 4 budget ++ zeros 6 ++ leBytes 4 h ++ zeros 16 ++ leBytes 1 rnd)

/-- Enter the command that serves a request: class VL, a context of its own with the message's deadline (13 R411, R412). -/
def State.enterServe (s : State) (x : Msg) (c op budget h : Nat) : State :=
  let id := s.gfe.nextId + 1
  let d := newCmd id c (some id) (serveSlot op x.vl budget h (if op = 0x29 then opBits x.payload 4 1 5 4 else 0)) [] (s.fld .gfe c 0x214 2 0) s.tickN
  let s1 := s.consumeMsg x.peer x.vl
  State.chargeBytes { s1 with
    gfe := { s1.gfe with cmds := s1.gfe.cmds ++ [d], ctxs := s1.gfe.ctxs ++ [⟨id, c, x.deadline, true, false, none, 1⟩],
                         nextId := id },
    fab := { s1.fab with serves := s1.fab.serves ++ [⟨x.peer, x.vl, x.msgId, id, op == 0x29, x.payload⟩] } } c 12 x.payload.length

/-- A GATHER is malformed (13 R408). -/
def gatherMsgBad (p : List Byte) : Bool :=
  let nb := leField p 8 2
  let n := leField p 12 4
  decide (p.length < 16) || opBits p 4 1 7 5 != 0 || !allZero ((p.drop 5).take 3) || !allZero ((p.drop 10).take 2) ||
  p.length != 16 + 4 * nb + 8 * n + (if opBits p 4 1 4 4 = 1 then 4 * n else 0) ||
  ((gmBags p).map Prod.snd).foldl (· + ·) 0 != n

/-- An UPDATE is malformed (13 R408; 09 R269 to R271). -/
def updateMsgBad (p : List Byte) : Bool :=
  let mode := opBits p 4 1 3 0
  decide (p.length < 76) || decide (4 ≤ mode) || opBits p 4 1 5 4 == 3 || opBits p 4 1 7 7 != 0 ||
  p.length != 76 + umCount p * (8 + leField p 6 2) || umCount p == 0 ||
  (mode != 0 && hyperBad ((p.drop 12).take 64)) || !gradFmtOk mode (leField p 5 1)

/-- A table can take an UPDATE of a mode (09 R271). -/
def tableTakes (t : TableDesc) (mode : Nat) : Bool :=
  t.pool != 0 && !(decide (2 ≤ mode) && t.state == 0) && !(mode == 3 && t.elemState == 0)

/-- `GATHER`: served by a `GATHER_POOL` of the gather channel (13 R411). -/
def execGather (peer vl : Nat) (s : State) : Host.Outcome State Fault Refusal :=
  done (
    match s.msgOf peer vl 2 with
    | none => s
    | some x =>
      let c := s.fab.gatherChan
      if gatherMsgBad x.payload then s.refuseIt x 5
      else match s.tableTagged (leField x.payload 0 4) with
        | none => s.refuseIt x 2
        | some (h, o, t) =>
          if !s.ctxFree c || s.unitTest 1 then s
          else s.enterServe x c 0x28 (s.serveBudget c (leField x.payload 12 4) (rowLen o.fmt t.elems)
            (leField x.payload 8 2 * 4 * t.elems) 0) h)

/-- `UPDATE`: served by a `SCATTER_UPDATE` of the update channel (13 R412). -/
def execUpdate (peer vl : Nat) (s : State) : Host.Outcome State Fault Refusal :=
  done (
    match s.msgOf peer vl 4 with
    | none => s
    | some x =>
      let c := s.fab.updateChan
      let p := x.payload
      if updateMsgBad p then s.refuseIt x 5
      else match s.tableTagged (leField p 0 4) with
        | none => s.refuseIt x 2
        | some (h, o, t) =>
          if !tableTakes t (opBits p 4 1 3 0) || leField p 6 2 != rowLen (leField p 5 1) t.elems then s.refuseIt x 5
          else if !s.ctxFree c || s.unitTest 1 then s
          else s.enterServe x c 0x29 (s.serveBudget c (umCount p) (2 * rowLen o.fmt t.elems + leField p 6 2 + t.stateLen)
            (umCount p * rowLen o.fmt t.elems) (umCount p * ceilDiv t.elems 256 * 4)) h)

/-! ### PARTIALS, UPDATE_ACK, REFUSE -/

/-- The message that waits for an answer of a peer. -/
def State.awaitOf (s : State) (p : Await → Bool) : Option (Await × List Await) := takeFirst p s.fab.awaits

/-- A PARTIALS message fits the part of a gather that its sender owns (13 R408). -/
def State.partialsOk (s : State) (p : List Byte) (m : Nat) (d : Cmd) (r : Resolution) : Bool :=
  match s.tableOf (op32 d.slot 16) with
  | some (o, t, _) =>
    let nb := (ownerBags m r).length
    leField p 0 2 == nb && decide (leField p 2 1 ≤ 2) &&
    decide (16 + ceilDiv nb 4 * 4 + nb * partLen (leField p 2 1) o.fmt t.elems ≤ p.length)
  | none => false

/-- `PARTIALS`: the partials of an owner arrive for the oldest gather that waits for it on this lane (13 R408; 09 R256). -/
def execPartials (peer vl : Nat) (s : State) : Host.Outcome State Fault Refusal :=
  done (
    match s.msgOf peer vl 3 with
    | none => s
    | some x =>
      match s.awaitOf (fun a => a.peer == peer && a.vl == vl && a.msgType == 2) with
      | none => s.consumeMsg peer vl
      | some (a, rest) =>
        match s.cmd? a.cmd with
        | none => State.consumeMsg { s with fab := { s.fab with awaits := rest } } peer vl
        | some d =>
          match d.res with
          | none => State.consumeMsg { s with fab := { s.fab with awaits := rest } } peer vl
          | some r =>
            if !s.partialsOk x.payload peer d r then s.refuseIt x 5
            else
              let s1 := State.consumeMsg { s with fab := { s.fab with awaits := rest } } peer vl
              let s2 := s1.setCmd { d with res := some { r with
                partials := r.partials ++ [(peer, x.payload)], awaitPeers := r.awaitPeers.filter (fun y => y.1 != peer) } }
              (s2.chargeBytes d.chan 12 x.payload.length).settleRes d.id)

/-- `UPDATE_ACK`: an update frame has been applied by its owner (13 R412; 09 R275). -/
def execUpdateAck (peer vl : Nat) (s : State) : Host.Outcome State Fault Refusal :=
  done (
    match s.msgOf peer vl 5 with
    | none => s
    | some x =>
      if x.payload.length ≠ 4 then s.refuseIt x 5
      else
        let s0 := s.consumeMsg peer vl
        match s0.awaitOf (fun a => a.peer == peer && a.msgType == 4 && a.msgId.toNat == leField x.payload 0 4) with
        | none => s0
        | some (a, rest) =>
          let s1 := { s0 with fab := { s0.fab with awaits := rest } }
          (s1.setExtra { s1.extra a.cmd with acked := (s1.extra a.cmd).acked + 1 }).settleAcks a.cmd)

/-- The command that sent a message which a peer refuses: one that awaits its answer, or one whose frames carry it. -/
def State.refusedCmd (s : State) (m id : Nat) : Option Nat :=
  match s.fab.awaits.find? (fun a => a.peer == m && a.msgId.toNat == id) with
  | some a => some a.cmd
  | none => s.fab.peers.findSome? (fun p =>
      if p.1 / 4 = m then p.2.frames.findSome? (fun f => if f.msgId.toNat = id then f.cmd else none) else none)

/-- `REFUSE`: the command that sent the refused message ends with `ST_REMOTE_FAIL` (13 R413). -/
def execRefuse (peer vl : Nat) (s : State) : Host.Outcome State Fault Refusal :=
  done (
    match s.msgOf peer vl 6 with
    | none => s
    | some x =>
      if x.payload.length ≠ 8 then s.refuseIt x 5
      else
        let id := leField x.payload 4 4
        let s1 := (s.consumeMsg peer vl).raise .fab 0 0x080 5
        match s1.refusedCmd peer id with
        | none => s1
        | some c => State.remoteEnds { s1 with fab := { s1.fab with awaits := s1.fab.awaits.filter (fun a =>
            !(a.peer == peer && a.msgId.toNat == id)) } } c peer)

end Sys2Proof.Machine
end

