-- ==== Sys2Proof/Machine/Integrity.lean ====
section
/-! DEFINITION. Integrity: residencies and stress tests (14 R434 to R436), `TEST_ON_DEMAND` (R437 to R439), the control of
clusters (R432) and the fault log's ring (R441, R442, R445). -/

namespace Sys2Proof.Machine

/-! ## Tests in general -/

/-- The operands of `TEST_ON_DEMAND` (14 R437). -/
def testUnit (b : List Byte) : Nat := opBits b 16 1 3 0
def testClu (b : List Byte) : Nat := opBits b 17 1 5 0
def testMargin (b : List Byte) : Bool := opBits b 18 1 0 0 == 1
def testDrain (b : List Byte) : Nat := let n := opBits b 20 4 15 0; if n = 0 then 64 else n

/-- The test in progress is one of a cluster. -/
def Test.ofClu (t : Test) : Bool := t.unit == 0

/-- The command of a test. -/
def Test.cmd? (t : Test) : Option Nat := match t.kind with | .demand c => some c | _ => none

/-- The physical slot under test. -/
def State.testSlot (s : State) (t : Test) : Option Nat := s.cluSlot t.clu

/-- Steps of the supply trim, half a percent each, that a margin of M percent takes (14 R435; 16 R480). -/
def State.marginSteps (s : State) : Int := 2 * (s.fld .int 0 0x004 15 13 : Nat)

/-- The trim of the slot under test changes (14 R435). -/
def State.addTrim (s : State) (t : Test) (k : Int) : State :=
  match s.testSlot t with
  | some p => if t.margin then s.setPslot p { s.pslot p with trim := (s.pslot p).trim + k } else s
  | none => s

/-- The tick in which the trim returns to nominal (14 R435). -/
def Test.restoreTick (t : Test) : Nat := t.zero + t.length - 10

/-- A cluster test that ends early gives back the trim that it has taken. -/
def State.untrim (s : State) (t : Test) : State :=
  if t.ofClu && t.drained && decide (t.zero ≤ s.tickN) && decide (s.tickN < t.restoreTick) then s.addTrim t s.marginSteps else s

/-- What a test of a unit has held goes on (14 R438). -/
def State.resumeUnits (s : State) : State :=
  let s1 := s.tryTrain.tidy.settleResAll
  let cs := s1.chans.map Prod.fst
  let s2 := (cs.foldl State.release s1).pumpRings cs
  s2.pumpAll.pumpAllLines

/-- A waiting test can begin: of a unit, or of a cluster in the state that its kind asks for (14 R432). -/
def State.testable (s : State) (t : Test) : Bool :=
  !t.ofClu || (if t.kind = .suspect then s.cluState t.clu == .suspect else s.cluState t.clu == .serving)

/-- A test begins (14 R435, R438). -/
def State.beginTest (s : State) (t : Test) : State :=
  if t.ofClu then s.enterResidency t
  else { s with integ := { s.integ with test := some { t with entered := s.tickN, drained := false } } }

/-- Start the first waiting test, that of a cluster only at an edge (14 R435); one that can no longer be made ends its command with
`ST_RANGE`, offset 17 (R439). -/
def State.nextTest (s : State) (edge : Bool) : List Test → State
  | [] => s
  | t :: rest =>
    if t.ofClu && !edge then s
    else
      let s1 := { s with integ := { s.integ with wait := rest } }
      if s1.testable t then s1.beginTest t
      else State.nextTest (match t.cmd? with
        | some c => (match s1.cmd? c with | some d => s1.endCmd d stRange 17 0 false | none => s1)
        | none => s1) edge rest

/-- The test in progress is over. -/
def State.clearTest (s : State) : State :=
  let s1 := ({ s with integ := { s.integ with test := none } } : State).resumeUnits
  s1.nextTest false s1.integ.wait

/-! ## The edge of a residency (14 R435) -/

/-- What an edge does to the test of a cluster: while it is not evacuated its homes move down; at residency tick 0 the trim is
lowered, and 10 ticks before the end restored. -/
def State.testEdge (s : State) : State :=
  match s.integ.test with
  | none => s.nextTest true s.integ.wait
  | some t =>
    if !t.ofClu then s
    else if !t.drained then
      (if s.evacuated t.clu then
        State.addTrim { s with integ := { s.integ with test := some { t with drained := true, zero := s.tickN } } } t (-s.marginSteps)
      else s.moveDown t.clu)
    else if s.tickN = t.zero then s.addTrim t (-s.marginSteps)
    else if s.tickN = t.restoreTick then s.addTrim t s.marginSteps
    else s

/-! ## Rotation (14 R434 to R436) -/

/-- The clusters of the rotation, from `INT_ROT_STATE.NEXT` on (14 R434). -/
def State.rotation (s : State) : List Nat :=
  let excl := s.regGet .int 0 0x008 + s.regGet .int 0 0x00C * 2 ^ 32
  ((List.range' s.integ.next (64 - s.integ.next)) ++ upTo s.integ.next).filter (fun n =>
    s.cluState n == .serving && !excl.testBit n)

/-- `RESIDENCY_START`: the interval has passed, no test is in progress and none waits; the cluster enters at the next edge (14 R434,
R435). -/
def execResidencyStart (s : State) : Host.Outcome State Fault Refusal :=
  done (
    if !s.on || s.sup.stopping || s.fld .int 0 0x004 0 0 == 0 || s.integ.test.isSome || !s.integ.wait.isEmpty ||
       decide (s.clk.now < s.integ.secsAt + s.fld .int 0 0x004 12 1 * secCycles) then s
    else match s.rotation with
      | [] => s
      | n :: _ =>
        State.queueTest
          { s with integ := { s.integ with next := (n + 1) % max 1 s.nClus, secsAt := s.clk.now } }
          { kind := .rotation, unit := 0, clu := n, entered := 0, drained := false, zero := 0, margin := true,
            length := s.fld .int 0 0x004 27 16 })

/-- `RESIDENCY_ABANDON`: 64 ticks have passed without the end of the evacuation; a SUSPECT cluster stays SUSPECT, and its
test waits again (14 R432, R435; DEDUCED, log entry 29). -/
def execResidencyAbandon (s : State) : Host.Outcome State Fault Refusal :=
  done (
    match s.integ.test with
    | none => s
    | some t =>
      if !s.on || !t.ofClu || t.cmd?.isSome || t.drained || decide (s.tickN < t.entered + 64) then s
      else
        let s1 := { s with integ := { s.integ with skipped := true } }
        match s1.testSlot t with
        | none => s1.clearTest
        | some p =>
          if t.kind = .suspect then (s1.queueTest t).clearTest else (s1.setSlotState p .serving).clearTest)

/-- The verdict edge of a cluster test is reached (14 R435). -/
def State.verdictDue (s : State) (t : Test) : Bool := t.ofClu && t.drained && decide (t.zero + t.length ≤ s.tickN)

/-- A cluster has passed: it is SERVING, and a SUSPECT one is restored with its fault count cleared (14 R432, R436). -/
def State.passClu (s : State) (t : Test) (p : Nat) : State :=
  let r := s.pslot p
  if t.kind = .suspect then
    ((s.setPslot p { r with state := .serving, faults := [], lastPass := s.clk.now }).faultLog 4 p 0 0 0 0 0 0).raiseEvent 67
  else (s.setPslot p { r with state := .serving, lastPass := s.clk.now }).faultLog 5 p 0 0 0 0 0 0

/-- The verdict on a cluster (14 R432, R436). -/
def State.judgeClu (s : State) (t : Test) (v : TestVerdict) : State :=
  match s.testSlot t with
  | none => s
  | some p =>
    let s1 := { s with integ := { s.integ with skipped := false } }
    (match v with
      | .pass => s1.passClu t p
      | .fail _ _ => (s1.faultLog 6 p 0 0 0 0 0 0).makeRetired p).raiseEvent 68

/-- `RESIDENCY_VERDICT` of a rotation or a stress test (14 R435, R436). -/
def execResidencyVerdict (verdict : TestVerdict) (s : State) : Host.Outcome State Fault Refusal :=
  done (
    match s.integ.test with
    | none => s
    | some t => if !s.on || t.cmd?.isSome || !s.verdictDue t then s else (s.judgeClu t verdict).clearTest)

/-! ## `TEST_ON_DEMAND` (14 R437 to R439) -/

/-- The conditions of 14 R439, as offsets. -/
def State.testBad (s : State) (b : List Byte) : List Nat :=
  (if 5 ≤ testUnit b then [16] else []) ++
  (if testUnit b = 0 ∧ ((s.cluSlot (testClu b)).isNone = true ∨ s.cluState (testClu b) = .retired) then [17] else [])

/-- `TEST_ON_DEMAND`: the drain of a unit begins, or the test waits for the one in progress, or for the edge (14 R435, R438). -/
def State.runTestOnDemand (s : State) (d : Cmd) : State :=
  match lowest (s.testBad d.slot) with
  | some off => s.endNow d stRange off 0
  | none =>
    let t : Test := { kind := .demand d.id, unit := testUnit d.slot, clu := testClu d.slot, entered := 0, drained := false,
                      zero := 0, margin := testMargin d.slot,
                      length := if testMargin d.slot then s.fld .int 0 0x004 27 16 else 100 }
    let s1 := s.issue d (.waiting s.tickN)
    if s1.integ.test.isNone && !t.ofClu then s1.beginTest t else s1.queueTest t

/-- `TEST_ON_DEMAND` (14 R438). -/
def execTestOnDemand (n : Node) (s : State) : Host.Outcome State Fault Refusal := done (s.gfeHead n 0x02 State.runTestOnDemand)

/-- A command has been issued and has not ended. -/
def Cmd.issued (d : Cmd) : Bool :=
  match d.phase with | .unissued => false | .resolving => false | .ready => false | _ => true

/-- The drain of a unit is complete (14 R438). -/
def State.unitDrained (s : State) (t : Test) : Bool :=
  match t.unit with
  | 0 => s.evacuated t.clu
  | 1 => !s.host.reads.any (fun r => match r.id with | .ring _ => true | _ => false) &&
      s.gfe.cmds.all (fun d => !d.issued || some d.id == t.cmd?)
  | 2 => s.place.moves.isEmpty && s.place.cellar.isEmpty && s.place.fills.isEmpty &&
      s.gfe.cmds.all (fun d => d.phase != .resolving && !(slotOp d.slot == foldOp && d.issued))
  | 3 => s.fab.reasm.isEmpty && s.fab.peers.all (fun p => p.2.frames.all (fun f => !f.sent))
  | _ => s.place.cellar.isEmpty && s.host.reads.isEmpty && s.host.posted.isEmpty && s.host.memWait.isEmpty

/-- `TEST_DRAIN_COMPLETE`: the test of the unit begins; one of the host edge takes the link DOWN (14 R438). -/
def execTestDrainComplete (s : State) : Host.Outcome State Fault Refusal :=
  done (
    match s.integ.test with
    | none => s
    | some t =>
      if !s.on || t.drained || !s.unitDrained t then s
      else
        let s1 := { s with integ := { s.integ with
          test := some { t with drained := true, zero := if t.ofClu then s.tickN + 1 else s.clk.now } } }
        if t.unit = 4 then s1.takeDown else s1)

/-- `TEST_DRAIN_TIMEOUT`: DRAIN_TICKS have passed; the unit returns to service untested (14 R438). -/
def execTestDrainTimeout (s : State) : Host.Outcome State Fault Refusal :=
  done (
    match s.integ.test with
    | none => s
    | some t =>
      match t.cmd?.bind s.cmd? with
      | none => s
      | some d =>
        if !s.on || t.drained || decide (s.tickN < t.entered + testDrain d.slot) then s
        else
          let s1 := match t.ofClu, s.testSlot t with
            | true, some p => s.setSlotState p .serving
            | _, _ => s
          (s1.clearTest).endCmd d stNoResource 0x0401 0 false)

/-- Cycles of the test of a unit: 20 ms, or 30 ms (14 R438). -/
def unitCycles (u : Nat) : Nat := if u ≤ 2 then 26000000 else 39000000

/-- The result of a unit in `INT_UNIT_RESULT`, with the record and the event of a failure (14 R439, R441). -/
def State.judgeUnit (s : State) (u : Nat) (v : TestVerdict) : State :=
  let s1 := { s with integ := { s.integ with unitRes := listSet s.integ.unitRes (u - 1) (match v with | .pass => 1 | .fail _ _ => 2) } }
  match v with
  | .pass => s1
  | .fail _ _ => (s1.faultLog 7 (0x80 + u) 0 0 0 0 0 0).raise .int 0 0x000 4

/-- DETAIL_A and DETAIL_B of a finished test (14 R439). -/
def verdictDetails : TestVerdict → Nat × Nat
  | .pass => (0, 0)
  | .fail f n => (1 + f % 65536 * 65536, n)

/-- `TEST_DONE`: the test has run; the command ends with `ST_OK` whatever the verdict (14 R439). -/
def execTestDone (verdict : TestVerdict) (s : State) : Host.Outcome State Fault Refusal :=
  done (
    match s.integ.test with
    | none => s
    | some t =>
      match t.cmd?.bind s.cmd? with
      | none => s
      | some d =>
        let due : Bool := if t.ofClu then s.verdictDue t else t.drained && decide (t.zero + unitCycles t.unit ≤ s.clk.now)
        if !s.on || !due then s
        else
          let s1 := if t.ofClu then s.judgeClu t verdict else s.judgeUnit t.unit verdict
          let x := verdictDetails verdict
          ((s1.clearTest).endCmd d stOk x.1 x.2 false).raiseEvent 70)

/-! ## Control of clusters (14 R432, R445) -/

/-- The physical slot that an accessor has selected. -/
def State.selSlot (s : State) (a : Acc) : Nat := s.selected a .int 0x020 6 0

/-- The stress test of a slot that has left SUSPECT is dropped. -/
def State.dropTestOf (s : State) (p : Nat) : State :=
  match s.integ.test with
  | some t => if t.ofClu ∧ s.testSlot t = some p then (s.untrim t).clearTest else s
  | none => s

/-- `INT_CLU_RETIRE`: SERVING or SUSPECT to RETIRED (14 R432, R445). -/
def execIntCluRetire (a : Acc) (s : State) : Host.Outcome State Fault Refusal :=
  done (
    if !s.served then s
    else
      let p := s.selSlot a
      match (s.pslot p).state with
      | .serving => s.makeRetired p
      | .suspect => (s.makeRetired p).dropTestOf p
      | _ => s.ignored .int 0 0x000)

/-- `INT_CLU_SUSPECT`: SERVING to SUSPECT (14 R432, R445). -/
def execIntCluSuspect (a : Acc) (s : State) : Host.Outcome State Fault Refusal :=
  done (
    if !s.served then s
    else
      let p := s.selSlot a
      match (s.pslot p).state with
      | .serving => s.makeSuspect p
      | _ => s.ignored .int 0 0x000)

/-! ## The fault log (14 R441, R442, R445) -/

/-- An accessor's own state. -/
def State.accState (s : State) (a : Acc) : AccState := match a with | .host => s.reg.hostAcc | .sideband => s.reg.sbAcc

/-- Replace an accessor's own state. -/
def State.setAcc (s : State) (a : Acc) (v : AccState) : State :=
  match a with
  | .host => { s with reg := { s.reg with hostAcc := v } }
  | .sideband => { s with reg := { s.reg with sbAcc := v } }

/-- A record of the ring counted back from the newest, as 64 bytes; zeros beyond the oldest. -/
def State.logRecord (s : State) (i : Nat) : List Byte := padTo 64 (listGet [] s.integ.logRing.reverse i)

/-- 32-bit words of bytes. -/
def wordsOf (bs : List Byte) (n : Nat) : List W32 := (upTo n).map (fun w => BitVec.ofNat 32 (leField bs (4 * w) 4))

/-- `INT_LOG_SNAP`: the record is latched into DATA for the accessor (14 R445; 15 R453). -/
def execIntLogSnap (a : Acc) (index : Nat) (s : State) : Host.Outcome State Fault Refusal :=
  done (
    if !s.served then s
    else
      let s1 := s.fldPut .int (accNum a) 0x070 15 0 index
      s1.setAcc a { s1.accState a with log := wordsOf (s1.logRecord (index % 65536)) 16 })

/-- `FAULT_LOG_RECORD_WRITE`: the oldest buffered record goes to the ring of 65,536, unless the inhibit holds it (14 R441,
R442). -/
def execFaultLogRecordWrite (s : State) : Host.Outcome State Fault Refusal :=
  done (
    match s.integ.logBuf with
    | [] => s
    | r :: rest =>
      if !s.on || s.sup.inhibit || s.unitTest 4 then s
      else
        let ring := s.integ.logRing ++ [r]
        { s with integ := { s.integ with logBuf := rest, logRing := ring.drop (ring.length - 65536) } })

end Sys2Proof.Machine
end

