-- ==== Sys2Proof/Machine/Sched.lean ====
section
/-! DEFINITION. The dispatcher (05 R117 to R138; 02 R29 to R32): which heads are considered, what a head needs, pre-emption
by time and space, and admission, of repeat pairs too (14 R426). -/

namespace Sys2Proof.Machine

/-! ## Clusters of a partition -/

/-- The SERVING clusters of a partition (05 R118). -/
def State.servingOf (s : State) (p : Nat) : List Nat := (maskClus (s.partMask p)).filter (fun n => s.cluState n == .serving)

/-- The clusters of a partition that the dispatcher may admit to: in a throttle only the lower half (16 R473), and none held
for heat (R478). -/
def State.openClus (s : State) (p : Nat) : List Nat :=
  let cs := s.servingOf p
  (if s.sup.throttle then cs.take (ceilDiv cs.length 2) else cs).filter s.serving

/-- A partition is enabled (05 R117, R120). -/
def State.partOn (s : State) (p : Nat) : Bool := s.fld .gfe 0 (0x300 + 4 * p) 0 0 == 1

/-- A cluster passes R31 for a charge, under its own partition's limit. -/
def State.fits (s : State) (n charge : Nat) : Bool := decide (s.horizon n + charge ≤ s.limitAt n)

/-! ## Heads (05 R121; 02 R46, R47) -/

/-- A candidate for admission: its place in the order, and its command. -/
abbrev Cand := (Nat × Nat × Nat) × Nat

/-- The place of a command in the dispatcher's order; a fold has the latest deadline (09 R280; 10 R288). -/
def State.candOf (s : State) (d : Cmd) : Cand :=
  (((s.cmdOrder d).1, (s.cmdOrder d).2.1, s.rank d.chan 4096), d.id)

/-- The folds that are ready. -/
def State.readyFolds (s : State) : List Cmd :=
  s.gfe.cmds.filter (fun d => slotOp d.slot == foldOp && d.phase == .ready)

/-- The heads that a partition's dispatcher considers, in order. -/
def State.candidates (s : State) (p : Nat) : List Nat :=
  let hs := (s.nodes.filterMap s.issuable).filter (fun d => isClusterOp (slotOp d.slot)) ++ s.readyFolds
  (sortBy (fun a b => !before3 b.1 a.1) ((hs.filter (fun d => d.part == p)).map s.candOf)).map Prod.snd

/-! ## What a head needs -/

/-- The conditions that end a command at its head with `ST_RANGE`, as offsets; a resolved command has passed its own, and a
re-run has passed them all. -/
def State.operandBad (s : State) (d : Cmd) : List Nat :=
  if d.begun then []
  else match slotOp d.slot with
    | 0x20 => s.gemmBad d.slot
    | 0x21 => if resolves d.slot then [] else s.matvecBad d
    | 0x22 => s.progPlaceBad d.slot
    | 0x30 => s.armBad d
    | 0x31 => s.rearmBad d
    | 0x38 => s.hostWriteBad d
    | 0x39 => s.hostReadBad d
    | _ => []

/-- The pool tiles of the slots that an update's runs would take: it partly writes them (09 R249; 10 R304). -/
def State.slotParts (s : State) (d : Cmd) (k : Nat) : List (Nat × Nat) :=
  match d.res, s.tableOf (op32 d.slot 16) with
  | some r, some (o, t, y) =>
    slotTiles o t (s.freeSlots (op32 d.slot 16) t y (k * (distinctRows s.fab.moduleId r.dest).length))
  | _, _ => []

/-- How many runs a command is admitted with. -/
def State.runsOf (s : State) (d : Cmd) : Nat :=
  match d.more with
  | none => 1
  | some m => bit01 (s.cluState m.first == .serving) +
      bit01 ((upTo 64).any (fun n => n != m.first && s.cluState n == .serving))

/-- The tiles that a command reads or partly writes (10 R304), those of resolution too: one that has left for the cellar since is
fetched again (01 R20). -/
def State.headTiles (s : State) (d : Cmd) : List (Nat × Nat) :=
  s.runTiles d ++ (if slotOp d.slot = 0x29 then s.slotParts d (s.runsOf d) else [])

/-- The output tiles of a command (05 R135). -/
def State.outTilesOf (s : State) (d : Cmd) : List (Nat × Nat) :=
  match slotOp d.slot with
  | 0x20 => s.productWrites (s.product d.slot)
  | 0x21 => s.productWrites (s.product d.slot)
  | 0x22 => s.vOutTiles d (s.progOf d)
  | 0x28 => s.gatherOuts d
  | 0x39 => withHandle (op32 d.slot 24) (rangeTiles (hostOff d.slot) (hostLen d.slot))
  | 0xF0 => (match d.res, s.tableOf (op32 d.slot 16) with
    | some r, some (o, t, _) => foldTiles (op32 d.slot 16) o t (r.idx.map Int.toNat)
    | _, _ => [])
  | _ => []

/-- The shadow tiles that a run needs in each scratchpad (05 R135). -/
def State.demandOf (s : State) (d : Cmd) : List (Nat × Nat) :=
  let cs := (s.outTilesOf d).filterMap (fun t => let y := s.shadowTier t.1 t.2; if y.1 = 0 then some y.2 else none)
  cs.eraseDups.map (fun c => (c, (cs.filter (fun x => x == c)).length))

/-- An update or fold of a table other than a command is admitted or runs (09 R250). -/
def State.tableTaken (s : State) (h self : Nat) : Bool :=
  s.gfe.cmds.any (fun d => d.id != self && (slotOp d.slot == 0x29 || slotOp d.slot == foldOp) && op32 d.slot 16 == h && d.holdsClu)

/-- Free pool slots are short of what an update needs, for `k` runs (09 R271; 14 R426). -/
def State.poolShort (s : State) (d : Cmd) (k : Nat) : Bool :=
  match d.res, s.tableOf (op32 d.slot 16) with
  | some r, some (_, t, y) =>
    let n := k * (distinctRows s.fab.moduleId r.dest).length
    slotOp d.slot == 0x29 && decide ((s.freeSlots (op32 d.slot 16) t y n).length < n)
  | _, _ => false

/-! ## Admission -/

/-- Put a run on a cluster's queue with its reservations (02 R31; 05 R135, R138). -/
def State.enqueue (s : State) (n : Nat) (d : Cmd) (charge : Nat) (dem : List (Nat × Nat)) : State :=
  let c := s.clu n
  let s1 := s.setClu n { c with queue := c.queue ++ [(d.id, charge)] }
  { s1 with sup := { s1.sup with charged := s1.sup.charged + charge },
            resvs := s1.resvs ++ dem.map (fun x => ⟨d.id, n, x.1, d.cls, x.2⟩) }

/-- The tiers of the homes of a command's output tiles are kept from its admission on (10 R302). -/
def State.noteHomes (s : State) (d : Cmd) : State :=
  let homes := (s.outTilesOf d).map (fun t => (t.1, t.2, s.homeTier t.1 t.2))
  s.setExtra { s.extra d.id with homes := homes }

/-- Admit one run of a command. -/
def State.admitOne (s : State) (n : Nat) (d : Cmd) (dem : List (Nat × Nat)) : State :=
  ((s.noteHomes d).enqueue n d (s.chargeOn d n) dem).issue d (.admitted n)

/-- A run of a pair before its start. -/
def PairRun.start (n : Nat) : PairRun := ⟨n, false, 0, false, stOk, 0, 0, none⟩

/-- Admit the runs of a repeat pair (14 R426). -/
def State.admitPair (s : State) (m : RepeatPair) (x y : Option Nat) (d : Cmd) (dem : List (Nat × Nat)) : State :=
  let s0 := s.noteHomes d
  let s1 := match x with | some n => s0.enqueue n d (s.chargeOn d n) dem | none => s0
  let s2 := match y with | some n => s1.enqueue n d (s.chargeOn d n) dem | none => s1
  let e := { d with more := some { m with run2 := x.map PairRun.start, run3 := y.map PairRun.start } }
  s2.issue e (.admitted ((x.orElse (fun _ => y)).getD 0))

/-! ## Time pre-emption (05 R128, R129) -/

/-- The charges of a cluster's queue that commands of class `c` or a lower number hold. -/
def State.keptQueue (s : State) (n c : Nat) : Nat :=
  (((s.clu n).queue.filter (fun q => match s.cmd? q.1 with | some d => decide (d.cls ≤ c) | none => false)).map Prod.snd).foldl
    (· + ·) 0

/-- Step 1 alone makes room. -/
def State.roomByDefer (s : State) (n c charge : Nat) : Bool :=
  decide (s.clk.cyc + s.remaining n + s.keptQueue n c + charge ≤ s.limitAt n)

/-- The run of a cluster flips or begins its commit phase in this cycle: its device work is over, and so is that of the other
run of its pair (05 R125, R127; 14 R428). -/
def State.endsNow (s : State) (n : Nat) : Bool :=
  match s.running n with
  | none => false
  | some (r, d) =>
    r.work.isSome && r.checks.isEmpty && decide (r.due ≤ s.elapsed r) &&
    (match d.more with
     | some m => !d.paired || (m.put n (fun p => { p with done := true })).runsDone
     | none => true)

/-- The running command of a cluster may be killed for class `c`: a higher class number, no commit phase begun, and no flip
in this cycle, which would win (05 R127, R128). -/
def State.victim (s : State) (n c : Nat) : Option Cmd :=
  match s.running n with
  | some (r, d) => if c < d.cls ∧ r.commitAt = none ∧ s.endsNow n = false then some d else none
  | none => none

/-- Steps 1 and 2 together make room. -/
def State.roomByKill (s : State) (n c charge : Nat) : Bool :=
  (s.victim n c).isSome && decide (s.clk.cyc + s.keptQueue n c + charge ≤ s.limitAt n)

/-- A command loses to another under the victim order (05 R129). -/
def State.losesTo (s : State) (a b : Cmd) : Bool := before3 (s.candOf b).1 (s.candOf a).1

/-- Of two clusters, the one whose running command loses under the victim order. -/
def State.weaker (s : State) (c n m : Nat) : Nat :=
  match s.victim n c, s.victim m c with
  | some a, some b => if s.losesTo b a then m else n
  | none, some _ => m
  | _, none => n

/-- Defer the unstarted commands of a cluster that class `c` may put off. -/
def State.deferAbove (s : State) (n c : Nat) : State :=
  ((s.clu n).queue.map Prod.fst).foldl (fun t id => match t.cmd? id with
    | some d => if c < d.cls then t.defer n id else t
    | none => t) s

/-- Time pre-emption on clusters of a list for a command; none if no steps would make room. -/
def State.timePreempt (s : State) (cs : List Nat) (d : Cmd) : Option State :=
  if !(s.fld .gfe 0 0x368 3 0).testBit d.cls then none
  else match cs.find? (fun n => s.roomByDefer n d.cls (s.chargeOn d n)) with
    | some n => some ((s.deferAbove n d.cls).raise .gfe 0 0x370 1)
    | none => match cs.filter (fun n => s.roomByKill n d.cls (s.chargeOn d n)) with
      | [] => none
      | n :: t =>
        let k := t.foldl (fun a b => s.weaker d.cls a b) n
        some (((s.deferAbove k d.cls).preempt k false).raise .gfe 0 0x370 1)

/-! ## Space pre-emption (05 R136) -/

/-- Every scratchpad has the room that a demand of class `c` asks for. -/
def State.roomFor (s : State) (c : Nat) (dem : List (Nat × Nat)) : Bool := dem.all (fun x => decide (x.2 ≤ s.classRoom x.1 c))

/-- Step 1 on a scratchpad: defer unstarted commands of higher class numbers that hold reservations there, until there is
room. -/
def State.spaceDefer (s : State) (m c k : Nat) : List Resv → State
  | [] => s
  | r :: t =>
    if k ≤ s.classRoom m c then s
    else match s.cmd? r.cmd with
      | some d =>
        let waits : Bool := (s.clu r.on).queue.any (fun q => q.1 == r.cmd)
        State.spaceDefer (if r.clu = m ∧ c < d.cls ∧ waits = true then s.defer r.on r.cmd else s) m c k t
      | none => State.spaceDefer s m c k t

/-- The clusters whose running command may be killed for a scratchpad, in the victim order: it holds shadow tiles or a
reservation there. -/
def State.spaceVictims (s : State) (m c : Nat) : List Nat :=
  let vs := (s.clus.map Prod.fst).filterMap (fun n => match s.victim n c, s.running n with
    | some d, some (r, _) =>
      if r.shadows.any (fun h => tierOf h.fid == 0 && cluOf h.fid == m) || s.resvs.any (fun v => v.cmd == d.id && v.on == n && v.clu == m)
      then some (n, d) else none
    | _, _ => none)
  (sortBy (fun a b => !s.losesTo b.2 a.2) vs).map Prod.fst

/-- Step 2 on a scratchpad. -/
def State.spaceKill (s : State) (m c k : Nat) : List Nat → State
  | [] => s
  | n :: t => if k ≤ s.classRoom m c then s else State.spaceKill (s.preempt n true) m c k t

/-- The homes of a scratchpad that step 3 may demote, the numerically highest class first, the coldest first. -/
def State.demotable (s : State) (m c : Nat) : List (Nat × FrameRec) :=
  let rg := scratchRange m
  let hs := s.frames.filter (fun x => decide (rg.1 ≤ x.1) && decide (x.1 < rg.1 + rg.2) && x.2.state == .home &&
    decide (c < x.2.cls) && s.pressed x.2.obj && s.canMove x.2.obj x.2.tile (s.downTier 0))
  sortBy (fun a b => decide (b.2.cls < a.2.cls) || (a.2.cls == b.2.cls && decide (b.2.idle ≤ a.2.idle))) hs

/-- The homes of a scratchpad that are leaving it. -/
def State.leaving (s : State) (m : Nat) : List Nat :=
  (s.place.moves.filter (fun v => tierOf v.src == 0 && cluOf v.src == m && !(tierOf v.dst == 0 && cluOf v.dst == m))).map Move.src

/-- The tiles that step 3 demotes so that class `c` finds room for `k`: none if it cannot. -/
def State.planDemote (s : State) (m c k : Nat) : List (Nat × FrameRec) → Option (List (Nat × FrameRec))
  | [] => if k ≤ s.classRoom m c then some [] else none
  | x :: t =>
    if k ≤ s.classRoom m c then some []
    else if s.heldTiles m x.2.cls ≤ s.reserveOf x.2.cls then State.planDemote s m c k t
    else match State.planDemote (s.setFrame x.1 FrameRec.init) m c k t with
      | some l => some (x :: l)
      | none => none

/-- Frames of the lower tiers that demotions may take. -/
def State.lowerFree (s : State) : Nat :=
  (s.tierFree 1 - s.fld .mem 0 0x00C 25 0) + s.tierFree 2 + (if s.sup.inhibit then 0 else s.tierFree 3)

/-- Step 3 on a scratchpad: start the demotions, or none if they cannot make the room. -/
def State.spaceDemote (s : State) (m c k : Nat) : Option State :=
  if s.fld .gfe 0 0x368 5 5 = 0 then none
  else
    let gone := (s.leaving m).foldl (fun t f => t.setFrame f FrameRec.init) s
    match gone.planDemote m c k ((s.demotable m c).filter (fun x => !(s.leaving m).contains x.1)) with
    | none => none
    | some l =>
      if s.lowerFree < l.length then none
      else if l.isEmpty then some s
      else some ((l.foldl (fun t x => match t.framesFor (t.downTier 0) 1 0 x.2.cls with
        | f :: _ => t.startMove x.2.obj x.2.tile f .demote noOrder
        | [] => t) s).raise .gfe 0 0x370 3)

/-- Space pre-emption on one scratchpad; none if its steps cannot meet the demand. -/
def State.spaceOn (s : State) (c : Nat) (x : Nat × Nat) : Option State :=
  if x.2 ≤ s.classRoom x.1 c then some s
  else
    let s1 := s.spaceDefer x.1 c x.2 s.resvs
    let s2 := s1.spaceKill x.1 c x.2 (s1.spaceVictims x.1 c)
    if x.2 ≤ s2.classRoom x.1 c then some s2 else s2.spaceDemote x.1 c x.2

/-- Space pre-emption for a whole demand; none if it cannot be met, and then nothing is done (05 R136). -/
def State.spacePreempt (s : State) (c : Nat) : List (Nat × Nat) → Option State
  | [] => some s
  | x :: t => match s.spaceOn c x with
    | none => none
    | some s1 => State.spacePreempt s1 c t

/-- The commands that hold a cluster in `s` and none in `t`: those that a decision has deferred or killed. -/
def State.takenBy (s t : State) : List Nat :=
  (s.gfe.cmds.filter (fun d => d.holdsClu && !(match t.cmd? d.id with | some e => e.holdsClu | none => false))).map Cmd.id

/-- A head whose demand cannot be reserved: space pre-emption, or its end; it waits while its demotions run (05 R136). The second
part says that it has deferred or killed; a head that only waits does not block the others (R121). -/
def State.wantSpace (s : State) (d : Cmd) (dem : List (Nat × Nat)) : State × Bool :=
  if s.fld .gfe 0 0x368 4 4 = 0 then (s, false)
  else match s.spacePreempt d.cls dem with
    | some s1 => if s1 = s then (s, false) else ((s1.raise .gfe 0 0x370 2).tidy, !(s.takenBy s1).isEmpty)
    | none => (((s.endCmd d stNoResource 0x0001 0 false).raise .gfe 0 0x370 6).tidy, false)

/-! ## The decision on one head (05 R121, R122) -/

/-- A head pre-empts by time on clusters of a list, or waits: the state, and whether the dispatcher is done. -/
def State.wantTime (s : State) (cs : List Nat) (d : Cmd) : State × Bool :=
  match s.timePreempt cs d with
  | some s1 => (s1.tidy, true)
  | none => (s, false)

/-- A head that finds a cluster for each of its runs, which cost `cost` in all: it waits for the allowance (05 R137) or for space
(R136), ends if the pool is short of slots at its admission (09 R276), or is admitted as `t`. -/
def State.admitIf (s : State) (d : Cmd) (cost : Nat) (dem : List (Nat × Nat)) (t : State) : State × Bool :=
  if s.sup.allow < s.sup.charged + cost then (s.raise .gfe 0 0x370 5, false)
  else if !s.roomFor d.cls dem then s.wantSpace d dem
  else if s.poolShort d (s.runsOf d) then ((s.endCmd d stNoResource 0x0101 0 false).tidy, false)
  else (t, true)

/-- A head that passes its own rules is admitted, pre-empts, or waits: the state, and whether the dispatcher is done. -/
def State.place1 (s : State) (p : Nat) (d : Cmd) : State × Bool :=
  let dem := s.demandOf d
  let cs := if slotOp d.slot = 0x30 ∨ slotOp d.slot = 0x31 then
      (s.openClus p).filter (fun n => n == armTarget d.slot)
    else s.openClus p
  match cs.find? (fun n => s.fits n (s.chargeOn d n)) with
  | none => s.wantTime cs d
  | some n => s.admitIf d (s.chargeOn d n) dem (s.admitOne n d dem)

/-- Clusters of every enabled partition that may take a run. -/
def State.allOpen (s : State) : List Nat :=
  sortBy (fun a b => decide (a ≤ b)) (((upTo 8).filter s.partOn).flatMap s.openClus)

/-- A head that is repeat pending is admitted as a pair, or with one run (14 R426). -/
def State.placePair (s : State) (p : Nat) (d : Cmd) (m : RepeatPair) : State × Bool :=
  let ok := fun (n : Nat) => s.fits n (s.chargeOn d n)
  let x : Option Nat := if s.cluState m.first = .serving then some m.first else none
  let others := (upTo 64).filter (fun n => n != m.first && s.cluState n == .serving)
  let mine := (s.openClus p).filter (fun n => n != m.first)
  let any := s.allOpen.filter (fun n => n != m.first)
  let y := (mine.find? ok).orElse (fun _ => any.find? ok)
  let one := s.demandOf d
  let dem := one.map (fun v => (v.1, s.runsOf d * v.2))
  let xOk := match x with | some n => s.serving n && ok n | none => true
  let z := if others.isEmpty then none else y
  let cost := ((x.toList ++ z.toList).map (s.chargeOn d)).foldl (· + ·) 0
  if x.isNone && others.isEmpty then (s, false)
  else if !xOk then s.wantTime (x.toList.filter s.serving) d
  else if !others.isEmpty && y.isNone then s.wantTime mine d
  else s.admitIf d cost dem (s.admitPair m x z d one)

/-- What a `VCHAIN` needs of its program block, read once at its head (08 R234 to R236): a fetch, an end, or the block. -/
def State.takeProg (s : State) (d : Cmd) : State × Bool :=
  if slotOp d.slot ≠ 0x22 ∨ (s.extra d.id).prog ≠ [] then (s, true)
  else
    let t := (op32 d.slot 32, progTile d.slot)
    if s.inCellar t then (s.wantFetch t.1 t.2 (s.cmdOrder d), false)
    else if s.tileBad d t.1 t.2 then ((((s.poisonIfBad d t.1 t.2).endCmd d stPoisoned t.1 t.2 false)).tidy, false)
    else
      let b := s.progBytes d
      match lowest (s.vchainBad d.slot b) with
      | some off => ((s.endCmd d stRange off 0 false).tidy, false)
      | none => (s.setExtra { s.extra d.id with prog := b }, true)

/-- The head of a HOST channel that the host has left (12 R360, R377): a write ends, a read waits. -/
def State.hostHead (s : State) (d : Cmd) : Option State :=
  let orphan : Bool := (s.chan d.chan).state == .orphaned
  if slotOp d.slot = 0x38 ∧ (s.chan d.chan).kind = .host ∧ orphan = true then
    some ((s.endCmd d stHostLost 0 0 false).tidy)
  else if slotOp d.slot = 0x39 ∧ (orphan || !s.linkUp || !s.link.cacheEn) = true then some s
  else none

/-- The offset with which a head ends with `ST_RANGE`: its operands' first, its charge's last (02 R32; 04 R521). -/
def State.headBad (s : State) (d : Cmd) : Option Nat :=
  match lowest (s.operandBad d) with
  | some off => some off
  | none => if s.overLimit d then some 0xFFFFFFFF else none

/-- The rules of a head in order; then its place. A `STREAM_ARM` waits while its descriptor is DISARMING (11 R347). -/
def State.tryReady (s : State) (p : Nat) (d : Cmd) : State × Bool :=
  match s.headBad d with
  | some off => ((s.endCmd d stRange off 0 false).tidy, false)
  | none => match s.hostHead d with
    | some s1 => (s1, false)
    | none =>
      let x := s.takeProg d
      if !x.2 then (x.1, false)
      else
        let s1 := x.1
        let far := (s1.withScales (s1.headTiles d)).filter s1.inCellar
        if slotOp d.slot = 0x30 ∧ (s1.streamOf d.slot).state = .disarming then (s1, false)
        else if !far.isEmpty then (s1.fetchAll d far, false)
        else if (slotOp d.slot == 0x29 || slotOp d.slot == foldOp) && s1.tableTaken (op32 d.slot 16) d.id then (s1, false)
        else match d.more with
          | some m => s1.placePair p d m
          | none => s1.place1 p d

/-- The dispatcher considers one head: its issue rules, the failure of its context, its resolution. -/
def State.tryHead (s : State) (p id : Nat) : State × Bool :=
  match s.cmd? id with
  | none => (s, false)
  | some d =>
    if slotOp d.slot = foldOp then s.tryReady p d
    else match s.prep d.node with
      | (t, none) => (t, false)
      | (t, some e) =>
        if e.id ≠ id then (t, false)
        else match t.inherited e with
          | some (st, a, b) => ((t.endCmd e st a b true).tidy, false)
          | none =>
            if resolves e.slot && e.phase != .ready then
              if e.phase == .resolving && t.headOver e then (((t.endCmd e stRange 0xFFFFFFFF 0 false)).tidy, false)
              else (t, false)
            else t.tryReady p e

/-- A partition's dispatcher has taken a decision in this cycle (DEDUCED, log entry 50). -/
def State.decided (s : State) (p : Nat) : Bool := Sparse.get (fun _ => 0) s.gfe.lastAdmit p == s.clk.now + 1

/-- A head has lost a victim in this cycle and is considered again in the next (05 R132). -/
def State.lost (s : State) (id : Nat) : Bool := s.gfe.losers.1 == s.clk.now + 1 && s.gfe.losers.2.contains id

/-- The head of a partition that would pre-empt in this cycle, with its victims. -/
def State.seeks (s : State) (p : Nat) : List Nat → Option (Nat × List Nat)
  | [] => none
  | id :: t =>
    if s.lost id then State.seeks s p t
    else
      let x := s.tryHead p id
      if x.2 then some (id, s.takenBy x.1) else State.seeks x.1 p t

/-- The heads of other partitions that have not decided in this cycle and seek one of the victims `vs` (05 R132). -/
def State.rivals (s : State) (p : Nat) (vs : List Nat) : List Nat :=
  (upTo 8).filterMap (fun q =>
    if q == p || !s.partOn q || s.decided q then none
    else match s.seeks q (s.candidates q) with
      | some (id, ws) => if ws.any vs.contains then some id else none
      | none => none)

/-- A head comes before another under R46. -/
def State.headBefore (s : State) (a b : Nat) : Bool :=
  match s.cmd? a, s.cmd? b with
  | some x, some y => before3 (s.candOf x).1 (s.candOf y).1
  | _, _ => false

/-- Heads have lost a victim in this cycle (05 R132). -/
def State.noteLosers (s : State) (ids : List Nat) : State :=
  let old := if s.gfe.losers.1 = s.clk.now + 1 then s.gfe.losers.2 else []
  { s with gfe := { s.gfe with losers := (s.clk.now + 1, old ++ ids) } }

/-- The heads of a partition in order, up to the first that is admitted or pre-empts. A head does not take a victim that a head
of another partition seeks in this cycle and wins under R46; where it takes one, the others have lost it (05 R132). -/
def State.tryHeads (s : State) (p : Nat) : List Nat → State
  | [] => s
  | id :: t =>
    if s.lost id then State.tryHeads s p t
    else
      let x := s.tryHead p id
      if !x.2 then State.tryHeads x.1 p t
      else
        let rs := if (s.takenBy x.1).isEmpty then [] else s.rivals p (s.takenBy x.1)
        if rs.any (fun r => s.headBefore r id) then State.tryHeads s p t
        else if rs.isEmpty then x.1
        else x.1.noteLosers rs

/-- A decision of a partition's dispatcher in this cycle, noted with the cycle (05 R121). -/
def State.dispatch (s : State) (p : Nat) : State :=
  let t := { s with gfe := { s.gfe with lastAdmit := Sparse.put (fun _ => 0) s.gfe.lastAdmit p (s.clk.now + 1) } }
  State.tryHeads t p (State.candidates t p)

/-- `DISPATCH_ADMIT`: one decision of a partition's dispatcher, none from cycle G on (05 R121, R132). At most one is taken in a
cycle: a second one is taken in the next cycle (DEDUCED, log entry 50). -/
def execDispatchAdmit (part : Nat) (s : State) : Host.Outcome State Fault Refusal :=
  done (
    if !s.on || !s.coresRun || s.sup.stopping || !s.partOn part || decide (s.G ≤ s.clk.cyc) then s
    else if !s.decided part then s.dispatch part
    else if s.clk.cyc + 1 < s.G then s.nextCycle.dispatch part
    else s)

end Sys2Proof.Machine
end

