-- ==== Sys2Proof/Machine/Power.lean ====
section
/-! DEFINITION. Power and monitors: the 48 V input (16 R469 to R473), temperatures, voltages and process counts (R477 to R480),
the power cap and the allowance (R481 to R485; 05 R137), and updates that the inhibit stops (R494). -/

namespace Sys2Proof.Machine

/-! ## Updates (16 R494) -/

/-- The frames that an update has reserved are free again: SHADOW frames of no object. -/
def State.freeUpdate (s : State) : State :=
  ((s.frames.filter (fun x => x.2.state == .shadow && x.2.obj == 0)).map Prod.fst).foldl State.freeFrame s

/-- An update ends in a state of `SEC_UPD_STATE`: 2 is DONE, 3 to 7 are failures (16 R494, R503) (DEDUCED, log entry 33). -/
def State.endUpdate (s : State) (code : Nat) : State :=
  if s.sec.upd ≠ 1 then s
  else ({ s.freeUpdate with sec := { s.sec with upd := code, updOp := 0 } } : State).raise .sec 0 0x000
    (if code = 2 then 3 else 4)

/-! ## Samples (16 R470) -/

/-- Keep the last `n` valid samples. -/
def Samples.push (r : Samples) (n : Nat) (v : Int) (now : Nat) : Samples :=
  { r with vals := (v :: r.vals).take n, timeout := false, lastAt := now }

/-- A sample is discarded, or an input times out: SENSOR_FAULT (16 R470). -/
def State.sensorFault (s : State) : State := s.raise .mon 0 0x000 4

/-! ## The 48 V input (16 R469, R471, R472) -/

/-- A release of the supply state sets its bit and raises `EV_SUPPLY_RELEASE` (16 R471, R502). -/
def State.supplyRelease (s : State) (bit : Nat) : State := (s.statusSet .pwr 0 0x000 (2 ^ bit)).raiseEvent 193

/-- The inhibit latches below 43.0 V and is released above 44.5 V; updates and a running erase stop, and waiting moves start
with its release (16 R471, R472; 17 R516). -/
def State.inhibitStep (s : State) : State :=
  let v := s.vinMv
  if v < 43000 ∧ s.sup.inhibit = false then
    (({ s with sup := { s.sup with inhibit := true },
               sb := { s.sb with erasing := if s.sb.erasing = 1 then 3 else s.sb.erasing } } : State).raise .pwr 0 0x000 1).endUpdate 5
  else if 44500 < v ∧ s.sup.inhibit = true then
    (State.supplyRelease { s with sup := { s.sup with inhibit := false } } 1).tidy
  else s

/-- What the filtered input sets (16 R471). The throttle is applied in step 5. -/
def State.supplyStep (s : State) : State :=
  let s1 := s.inhibitStep
  let v := s1.vinMv
  let s2 := if v < 42000 then { s1 with sup := { s1.sup with throttleWant := true } }
    else if 42500 < v then { s1 with sup := { s1.sup with throttleWant := false } } else s1
  if v < 40000 ∨ 100 ≤ s2.sup.vin.run then s2.controlledStop else s2

/-- `INPUT_METER_SAMPLE` of a voltage in mV and a current in 10 mA: 1 µs of input power joins the open window (16 R470, R471;
05 R142; DEDUCED, log entry 30). -/
def execInputMeterSample (mv tenMa : Int) (s : State) : Host.Outcome State Fault Refusal :=
  done (
    if !s.on then s
    else if mv < 0 ∨ 70000 < mv ∨ tenMa < 0 ∨ 6000 < tenMa then s.sensorFault
    else
      let vin := s.sup.vin.push 8 mv s.clk.now
      let run := if 60000 < median vin.vals then vin.run + 1 else 0
      State.supplyStep { s with sup := { s.sup with
        vin := { vin with run := run }, iin := s.sup.iin.push 8 tenMa s.clk.now, meterTimeout := false,
        energyPj := s.sup.energyPj + (mv * tenMa).toNat * 10 } })

/-- `METER_TIMEOUT`: after 100 µs the input counts as 42.9 V, after 10 ms the module stops (16 R470, R474). -/
def execMeterTimeout (tenMs : Bool) (s : State) : Host.Outcome State Fault Refusal :=
  done (
    if !s.on || !s.passed s.sup.vin.lastAt (if tenMs then 10 * msCycles else 130000) then s
    else
      let s1 := if s.sup.meterTimeout then s
        else (({ s with sup := { s.sup with meterTimeout := true } } : State).raise .pwr 0 0x000 4).sensorFault
      let s2 := s1.supplyStep
      if tenMs then s2.controlledStop else s2)

/-! ## Temperatures (16 R477, R478) -/

/-- The record of a sensor. -/
def State.tempRec (s : State) (k : Nat) : Samples := Sparse.get (fun _ => Samples.init) s.mon.temps k

/-- The filtered temperature of a sensor in quarters of a degree; 101.5 in a timeout (16 R470). -/
def Samples.temp (r : Samples) : Int := if r.timeout then 406 else median r.vals

/-- The larger of a list of temperatures; `d` if there is none. -/
def hottestOf (d : Int) : List Int → Int
  | [] => d
  | a :: t => hottestOf (max d a) t

/-- The sensors that have reported or timed out, 0 to 143. -/
def State.sensors (s : State) : List (Nat × Samples) := s.mon.temps.filter (fun x => decide (x.1 < 144))

/-- The hottest filtered value; -40 degrees while no sensor has reported. -/
def State.hottestTemp (s : State) : Int := hottestOf (-160) (s.sensors.map (fun x => x.2.temp))

/-- The temperature of a physical slot: the larger of its two sensors (16 R477). -/
def State.slotTemp (s : State) (p : Nat) : Int := max (s.tempRec (2 * p)).temp (s.tempRec (2 * p + 1)).temp

/-- The thermal step at a temperature, with the hysteresis of 16 R478. -/
def thermStep (old : Nat) (t : Int) : Nat :=
  if t > 404 then 2
  else if old = 2 ∧ t > 396 then 2
  else if t > 388 then 1
  else if old ≠ 0 ∧ t > 380 then 1
  else 0

/-- A slot is held for heat, with the hysteresis of 16 R478. -/
def holdStep (old : Bool) (t : Int) : Bool := decide (t > 404) || (old && decide (t > 396))

/-- Steps and holds that step 5 will apply follow the temperatures; ten filtered values at 105.0 degrees stop the module (16
R478). -/
def State.thermalStep (s : State) (k : Nat) : State :=
  let p := k / 2
  let held := s.mon.holdWant.filter (fun x => x != p)
  let hold : Bool := decide (k < 136) && (s.cluOfSlot p != 64) && holdStep (s.mon.holdWant.contains p) (s.slotTemp p)
  let s1 := { s with mon := { s.mon with
    stepWant := thermStep s.mon.stepWant s.hottestTemp, holdWant := if hold then held ++ [p] else held } }
  if 10 ≤ (s1.tempRec k).run then s1.controlledStop else s1

/-- Replace the record of a sensor. -/
def State.setTemp (s : State) (k : Nat) (r : Samples) : State :=
  { s with mon := { s.mon with temps := Sparse.put (fun _ => Samples.init) s.mon.temps k r } }

/-- `TEMP_SENSOR_SAMPLE`: -40 to 150 degrees, the median of 3 (16 R470, R478). -/
def execTempSensorSample (sensor : Nat) (quarters : Int) (s : State) : Host.Outcome State Fault Refusal :=
  done (
    if !s.on then s
    else if quarters < -160 ∨ 600 < quarters then s.sensorFault
    else
      let r := (s.tempRec sensor).push 3 quarters s.clk.now
      (s.setTemp sensor { r with run := if 420 ≤ r.temp then r.run + 1 else 0 }).thermalStep sensor)

/-- `TEMP_SENSOR_TIMEOUT`: 1 ms without a valid sample (16 R470). -/
def execTempSensorTimeout (sensor : Nat) (s : State) : Host.Outcome State Fault Refusal :=
  done (
    if !s.on || !s.passed (s.tempRec sensor).lastAt msCycles then s
    else ((s.setTemp sensor { s.tempRec sensor with timeout := true, run := 0 }).sensorFault).thermalStep sensor)

/-! ## Rails (16 R479) -/

/-- The record of a voltage monitor. -/
def State.voltRec (s : State) (k : Nat) : Samples := Sparse.get (fun _ => Samples.init) s.mon.volts k

/-- Replace the record of a voltage monitor. -/
def State.setVolt (s : State) (k : Nat) (r : Samples) : State :=
  { s with mon := { s.mon with volts := Sparse.put (fun _ => Samples.init) s.mon.volts k r } }

/-- A value lies outside one `n`-th of a nominal value. -/
def outside (n : Nat) (nom v : Int) : Bool := decide (nom < (n : Int) * (v - nom).natAbs)

/-- `VOLTAGE_MONITOR_SAMPLE`: 0 to twice nominal, the median of 5; outside 5 % the rail is reported, and sixteen filtered
values outside 10 % stop the module (16 R470, R474, R479). -/
def execVoltageMonitorSample (monitor : Nat) (mv : Int) (s : State) : Host.Outcome State Fault Refusal :=
  done (
    if !s.on then s
    else
      let nom : Int := ((Config.nominalMv monitor).toNat : Int)
      if mv < 0 ∨ 2 * nom < mv then s.sensorFault
      else
        let r := (s.voltRec monitor).push 5 mv s.clk.now
        let v := median r.vals
        let run := if outside 10 nom v then r.run + 1 else 0
        let s1 := s.setVolt monitor { r with run := run }
        let s2 := if outside 20 nom v then s1.raise .mon 0 0x000 3 else s1
        if 16 ≤ run then s2.controlledStop else s2)

/-- `VOLTAGE_MONITOR_TIMEOUT`: 1 ms without a valid sample, the rail counts as outside 5 % but inside 10 % (16 R470, R479). -/
def execVoltageMonitorTimeout (monitor : Nat) (s : State) : Host.Outcome State Fault Refusal :=
  done (
    if !s.on || !s.passed (s.voltRec monitor).lastAt msCycles then s
    else ((s.setVolt monitor { s.voltRec monitor with timeout := true, run := 0 }).sensorFault).raise .mon 0 0x000 3)

/-! ## Process monitors (16 R470, R480) -/

/-- The record of a process monitor. -/
def State.procRec (s : State) (k : Nat) : Samples := Sparse.get (fun _ => Samples.init) s.mon.procs k

/-- Replace the record of a process monitor. -/
def State.setProc (s : State) (k : Nat) (r : Samples) : State :=
  { s with mon := { s.mon with procs := Sparse.put (fun _ => Samples.init) s.mon.procs k r } }

/-- A slot's reading at boot (DEDUCED, log entry 57). -/
def State.bootCount (s : State) (slot : Nat) : Nat :=
  match s.sec.boot with | some b => listGet 0 b.procCounts slot | none => 0

/-- `PROCESS_MONITOR_SAMPLE`: within 25 % of the reading at boot; observed, without effect on the trim (16 R470, R480)
(DEDUCED, log entry 57). -/
def execProcessMonitorSample (slot count : Nat) (s : State) : Host.Outcome State Fault Refusal :=
  done (
    if !s.on then s
    else if outside 4 (s.bootCount slot) count then s.sensorFault
    else s.setProc slot ((s.procRec slot).push 16 count s.clk.now))

/-- `PROCESS_MONITOR_TIMEOUT`: 10 s without a valid sample, the trim stays as it stands (16 R470). -/
def execProcessMonitorTimeout (slot : Nat) (s : State) : Host.Outcome State Fault Refusal :=
  done (
    if !s.on || !s.passed (s.procRec slot).lastAt (10 * secCycles) then s
    else (s.setProc slot { s.procRec slot with timeout := true }).sensorFault)

/-! ## The cap and the allowance (16 R481 to R485; 05 R137) -/

/-- The limit of a domain in W (16 R485). -/
def State.domLimit (s : State) (d : Nat) : Nat := s.fld .pwr 0 (0x020 + 4 * d) 10 0

/-- What a domain's power exceeds its limit by; nothing without a limit (16 R481, R485). -/
def State.domExcess (s : State) (ps : List Nat) (d : Nat) : Nat :=
  if s.domLimit d = 0 then 0 else listGet 0 ps d - s.domLimit d

/-- C_eff in quarters of a W: the thermal factor is 4, 3 or 2 quarters (16 R478, R481). -/
def State.capQuarters (s : State) (step x : Nat) : Nat := (4 - min step 2) * s.fld .pwr 0 0x00C 10 0 - 4 * x

/-- The idle baseline of a tick of `us` microseconds, in pJ (16 R482). -/
def State.idlePj (s : State) (us : Nat) : Nat := s.fld .pwr 0 0x014 20 0 * us * 1000

/-- Sum of L_p x N_p over the enabled partitions (05 R137; 16 R473, R478). -/
def State.fullAllow (s : State) : Nat :=
  ((upTo 8).map (fun p => if s.partOn p then s.limitOf p * (s.openClus p).length else 0)).foldl (· + ·) 0

/-- The allowance of a tick of `us` microseconds at an effective cap in quarters of a W and an energy in pJ (05 R137); an e of 0
counts as 1 (DESIGN CHOICE, log entry 30). -/
def State.allowance (s : State) (us quarters e : Nat) : Nat :=
  min s.fullAllow ((quarters * us * 250000 - s.idlePj us) / max e 1)

/-- e: energy attributed per cluster-cycle over the last balances, rounded up; `E_INIT` while there is none (16 R483). -/
def State.energyPer (s : State) (bals : List (Nat × Nat)) : Nat :=
  let cyc := (bals.map Prod.snd).foldl (· + ·) 0
  if cyc = 0 then s.fld .pwr 0 0x018 15 0 else ceilDiv ((bals.map Prod.fst).foldl (· + ·) 0 * 1000000) cyc

/-- The activity score of a channel's open window in pJ (16 R484). -/
def State.scoreOf (s : State) (a : ChanAcct) : Nat :=
  satAdd 64
    (((indexed 0 a.winCyc).map (fun x => s.fld .pwr 0 (0x060 + 4 * x.1) 15 0 * x.2)).foldl (· + ·) 0)
    (((indexed 0 a.winBytes).map (fun x => if x.1 < 13 then s.fld .pwr 0 (0x080 + 4 * x.1) 7 0 * x.2 else 0)).foldl (· + ·) 0)

/-- Cluster-cycles that a channel's commands used in the open window: all engines but the front end, without the stream transfers
that no command's run makes (16 R483; 11 R355). -/
def cluCycles (a : ChanAcct) : Nat := (a.winCyc.take 5).foldl (· + ·) 0 - a.winXfer

/-- The window records of every channel, with those of channels that have been created again since (05 R142). -/
def State.windows (s : State) : List ChanAcct := s.accts.map Prod.snd ++ s.sup.gone

/-- The attribution of an input of `inUj` and the pool above the idle baseline, which is no whole number of µJ: the share of
each channel that is not DESTROYED (05 R142). -/
def State.attributions (s : State) (inUj : Nat) : List (Nat × Nat) :=
  let pool := inUj * 1000000 - s.idlePj s.clk.period
  let tot := (s.windows.map s.scoreOf).foldl (· + ·) 0
  let ss := (s.accts.map (fun x => (x.1, s.scoreOf x.2))).filter (fun x => x.2 != 0)
  (ss.filter (fun x => (s.chan x.1).state != .destroyed)).map (fun x => (x.1, pool * x.2 / (max tot 1 * 1000000)))

/-! ## The end of a controlled stop (16 R475) -/

/-- What survives without power: the cellar's bytes and side-band store, its log, its tables and its partitions (16 R475;
14 R441). -/
def State.powerOff (s : State) : State :=
  let cellar := s.mem.filter (fun c => decide (c.1 < frameData atticBase) ||
    (decide (frameHdr 0 ≤ c.1) && decide (c.1 < frameHdr atticBase)))
  { State.reset with
    mem := cellar
    integ := { State.reset.integ with logRing := s.integ.logRing, retireSlots := s.integ.retireSlots,
                                      retireFrames := s.integ.retireFrames, boots := s.integ.boots }
    sec := { State.reset.sec with fwStored := s.sec.fwStored, cfgStored := s.sec.cfgStored }
    sb := { State.reset.sb with powered := false, refclk := s.sb.refclk }
    link := { State.reset.link with perst := s.link.perst }
    out := s.out, freeCtr := s.freeCtr, pending := s.pending }

/-- `RAILS_OFF`: at cycle 3,250,000 of a controlled stop (16 R475). -/
def execRailsOff (s : State) : Host.Outcome State Fault Refusal :=
  done (
    if !s.on || !s.sup.stopping || decide (s.clk.now < s.sup.stopAt + 3250000) then s
    else (s.emit (.pwrgd false)).powerOff)

end Sys2Proof.Machine
end

