-- ==== Sys2Proof/Machine/Boot.lean ====
section
/-! DEFINITION. Power-on and recovery (16 R486 to R493), updates (R494, R495), warm reset (R499, R500). -/

namespace Sys2Proof.Machine

/-! ## Images (16 R490 to R493) -/

/-- A FABRIC entry of 16 bytes; none if a reserved bit is set (16 R490). -/
def fabEntryOf (b : List Byte) : Option FabEntry :=
  let e : FabEntry := { chan := opBits b 0 8 11 0, part := opBits b 0 8 14 12, ceil := opBits b 0 8 17 16,
                        srcFirst := opBits b 0 8 45 32, srcLast := opBits b 0 8 61 48 }
  if leField b 0 16 = e.chan + 2 ^ 12 * e.part + 2 ^ 16 * e.ceil + 2 ^ 32 * e.srcFirst + 2 ^ 48 * e.srcLast then some e else none

/-- The owner certificate in its 256 bytes (16 R492). -/
def certOf (b : List Byte) : OwnerCert :=
  { ownerKey := b.take 64, scope := BitVec.ofNat 64 (leField b 64 8), ownerSerial := BitVec.ofNat 32 (leField b 72 4),
    vendorSig := (b.drop 128).take 64, vendorKey := (b.drop 192).take 64 }

/-- The reserved fields of an image's first 320 bytes are zero (16 R490, R492). -/
def cfgReserved (b : List Byte) : Bool :=
  leField b 6 2 == 0 && opBits b 32 1 7 4 == 0 && leField b 33 1 == 0 && opBits b 34 2 15 14 == 0 && leField b 39 1 == 0 &&
  leField b 43 1 == 0 && leField b 50 14 == 0 && leField b 140 52 == 0

/-- The fields of a configuration image, if its bytes have the layout of 16 R490 with every reserved field zero. -/
def cfgOf (b : List Byte) : Option CfgImage :=
  let n := leField b 44 2
  let es := (upTo n).map (fun k => fabEntryOf ((b.drop (320 + 16 * k)).take 16))
  if b.length = 384 + 16 * n ∧ leField b 8 4 = b.length ∧ leField b 0 4 = 0x4643584A ∧ leField b 4 2 = 1 ∧ n ≤ 64 ∧
      cfgReserved b = true ∧ es.all Option.isSome = true then
    some { serial := BitVec.ofNat 32 (leField b 12 4), device := BitVec.ofNat 64 (leField b 16 8), enableMap := leField b 24 9,
           moduleId := opBits b 34 2 13 0, capW := leField b 36 2, svnFloor := leField b 38 1,
           macPrefix := BitVec.ofNat 24 (leField b 40 3), gatherChan := leField b 46 2, updateChan := leField b 48 2,
           cert := certOf ((b.drop 64).take 256), fab := es.filterMap id, signature := b.drop (b.length - 64), digest := sha256 b }
  else none

/-- A device ID that an image or a certificate names, or 0 for every device (16 R490, R492, R496). -/
def namesDevice (d : BitVec 64) (devHash : List Byte) : Bool := d == 0 || d.toNat == leNat (devHash.take 8)

/-- The owner certificate at byte 64 of an image verifies: its vendor key has the hash in mask ROM, its signature verifies with that
key, and its scope takes in the device (16 R492). -/
def certOk (c : OwnerCert) (b rom devHash : List Byte) : Bool :=
  sha256 c.vendorKey == rom && ecdsaOk c.vendorKey (sha256 ((b.drop 64).take 128)) c.vendorSig && namesDevice c.scope devHash

/-- The fields of a configuration image that verifies on a device (16 R491). -/
def verifyCfg (b rom devHash : List Byte) : Option CfgImage :=
  match cfgOf b with
  | none => none
  | some i =>
    if certOk i.cert b rom devHash && ecdsaOk i.cert.ownerKey (sha256 (b.take (b.length - 64))) i.signature &&
        namesDevice i.device devHash && decide (100 ≤ i.capW) && decide (i.capW ≤ 1200) && decide (i.gatherChan < 4096) &&
        decide (i.updateChan < 4096) then some i
    else none

/-- The lowest firmware security version accepted; 0 without a configuration. -/
def State.svnFloor (s : State) : Nat := match s.sec.cfg with | some i => i.svnFloor | none => 0

/-- The vendor root's key hash as boot step 2 has read it from mask ROM (16 R486). -/
def State.romHash (s : State) : List Byte := match s.sec.boot with | some b => b.romHash | none => []

/-- A firmware image of at most 16 MiB has the vendor root's key and its signature (16 R493). -/
def fwGenuine (rom : List Byte) (i : FwImage) : Bool :=
  i.sigOk && sha256 i.vendorKey == rom && decide (i.length ≤ 16 * 2 ^ 20)

/-- A firmware image verifies (16 R493). -/
def State.fwOk (s : State) (i : FwImage) : Bool := fwGenuine s.romHash i && decide (s.svnFloor ≤ i.svn)

/-- What a partition holds: what has been written to it, or else what the read finds. -/
def partition {α : Type} (stored : Option (Option α)) (found : Option α) : Option α :=
  match stored with | some x => x | none => found

/-! ## Recovery (16 R489) -/

/-- Enter recovery with a cause after a completed step: the host-link work of step 12 runs at once (16 R486, R489; log entry
31) (DEDUCED, log entry 31). -/
def State.enterRecovery (s : State) (cause step : Nat) : State :=
  (State.emit { s with sec := { s.sec with recovery := true, cause := cause, step := step, load := (0, 0, 0), words := [] },
                       link := { s.link with hostStep := true }, sb := { s.sb with pwrgd := true } } (.pwrgd true)).raise
    .sec 0 0x000 1 |>.tryTrain

/-! ## Steps 7 to 12 (16 R486) -/

/-- The targets that training maps out: a failing store-room channel takes its device's four with it, numbered 16 c + v
for device v (10 R289, R328, R329). -/
def mapOuts (fails : List Nat) : List Nat :=
  ((upTo 576).filter (fun t => fails.contains t || (decide (512 ≤ t) &&
    (upTo 4).any (fun k => fails.contains (512 + 16 * k + (t - 512) % 16)))))

/-- Cellar channels that training maps out, numbered from 576 (10 R328, R329). -/
def cellarOuts (fails : List Nat) : Nat := ((upTo 24).filter (fun k => fails.contains (576 + k))).length

/-- Step 7, with what step 3 has found of the cellar: mapped-out parts leave their tiers (10 R329). -/
def State.bootTrain (s : State) (b : BootInputs) : State :=
  let outs := mapOuts b.trainFail
  let s0 := b.spares.foldl (fun t k => if k.1 < 512 then t.setTarget k.1 { t.target k.1 with spares := min 4 k.2 } else t) s
  let s1 := outs.foldl (fun t k => t.setTarget k { t.target k with mappedOut := true }) s0
  let s2 := { s1 with
    place := { s1.place with atticPcs := 512 - (outs.filter (fun t => decide (t < 512))).length,
                             storeChs := 64 - (outs.filter (fun t => decide (512 ≤ t))).length,
                             cellarChs := 24 - cellarOuts b.trainFail },
    link := { s1.link with memActive := true } }
  if outs.isEmpty && cellarOuts b.trainFail == 0 then s2 else s2.raise .mem 0 0x000 4

/-- The trim of step 9: -6 % to +6 % in half percents (16 R480). -/
def bootTrimOf (slot count : Nat) : Int := (((Config.bootTrim slot count).toNat % 25 : Nat) : Int) - 12

/-- Step 9 for the slots that the enable map names (16 R480). -/
def State.bootTrims (s : State) (b : BootInputs) (map : Nat) : State :=
  ((upTo 68).filter (fun p => map.testBit p)).foldl
    (fun t p => t.setPslot p { t.pslot p with trim := bootTrimOf p (listGet 0 b.procCounts p) }) s

/-- Boot scans of slots in order until `n` have passed: those that pass and those that fail (01 R15). -/
def bootScans (fails : List Nat) : Nat → List Nat → List Nat × List Nat
  | _, [] => ([], [])
  | 0, _ => ([], [])
  | n + 1, p :: t =>
    if fails.contains p then let x := bootScans fails (n + 1) t; (x.1, p :: x.2)
    else let x := bootScans fails n t; (p :: x.1, x.2)

/-- The reset value of `INT_ROT_CFG.INTERVAL_S` (14 R434). -/
def rotInterval (n : Nat) : Nat := if n = 0 then 4095 else min 4095 (86400 / n)

/-- Step 10: the fault-log merge, the boot scans, the numbering of the slots that pass, and what it sets (01 R15 to R17; 14
R423, R432, R443; 05 R143). -/
def State.bootSlots (s : State) (b : BootInputs) (map : Nat) : State :=
  let old := if b.mergeFail then [] else s.integ.retireSlots
  let s1 := if b.mergeFail then s.raise .int 0 0x000 7 else s
  let el := (upTo 68).filter (fun p => map.testBit p && !old.contains p)
  let x := bootScans b.scanFails 64 el
  let s2 := old.foldl (fun t p => t.setSlotState p .retired) s1
  let s3 := x.2.foldl (fun t p =>
    State.faultLog (State.setSlotState { t with integ := { t.integ with retireSlots := t.integ.retireSlots ++ [p] } } p .retired)
      10 p 0 0 0 0 0 0) s2
  let s4 := (indexed 0 x.1).foldl (fun t y => t.setPslot y.2 { t.pslot y.2 with state := .serving, logical := some y.1 }) s3
  let fs := if b.mergeFail then [] else s4.integ.retireFrames
  let s5 := fs.foldl (fun t f => t.setFrame f { FrameRec.init with retired := true }) s4
  let n := x.1.length
  let s6 := { s5 with icnt := { s5.icnt with framesRetired := min 65535 fs.length, eligible := el.length } }
  ((s6.fldPut .int 0 0x004 12 1 (rotInterval n)).regPut .gfe 0 0x320 ((2 ^ n - 1) % 2 ^ 32)).regPut .gfe 0 0x324 ((2 ^ n - 1) / 2 ^ 32)

/-- Step 11: the idle calibration, the cap of the image, and the allowance of the running tick (05 R520; 16 R482). -/
def State.bootPower (s : State) (b : BootInputs) (i : CfgImage) : State :=
  let s1 := (s.fldPut .pwr 0 0x014 20 0 b.idleMw).fldPut .pwr 0 0x00C 10 0 i.capW
  let q := s1.capQuarters s1.mon.step 0
  let e := s1.fld .pwr 0 0x018 15 0
  { s1 with mon := { s1.mon with idleCal := true },
            sup := { s1.sup with capEff := q, eNow := e, charged := 0, allow := s1.allowance s1.clk.period q e } }

/-- A FABRIC channel of the image (03 R56; 13 R409). -/
def State.bootFab (s : State) (e : FabEntry) : State :=
  let s1 := s.setChan e.chan { Chan.init with kind := .fabric, state := .active, gen := 1, srcRange := (e.srcFirst, e.srcLast) }
  ((s1.setAcct e.chan { ChanAcct.init with createTick := s1.tickN }).fldPut .gfe e.chan 0x214 2 0 e.part).fldPut .gfe e.chan 0x214
    4 3 e.ceil

/-- Step 12: FABRIC channels, the module ID, the ports, the host link and power-good (16 R486). -/
def State.bootHost (s : State) (i : CfgImage) : State :=
  let s1 := (i.fab.foldl State.bootFab s).fldPut .fab 0 0x00C 23 0 i.macPrefix.toNat
  let s2 := { s1 with fab := { s1.fab with moduleId := i.moduleId, gatherChan := i.gatherChan, updateChan := i.updateChan } }
  let s3 := (upTo 8).foldl (fun t p =>
    if t.fld .fab 0 (0x040 + 4 * p) 0 0 = 1 then t.setPortState p .training else t) s2
  (State.emit { s3 with link := { s3.link with hostStep := true }, sb := { s3.sb with pwrgd := true },
                        sec := { s3.sec with step := 12, recovery := false, cause := 0 } } (.pwrgd true)).tryTrain

/-- Steps 7 to 12. -/
def State.boot7 (s : State) (b : BootInputs) (i : CfgImage) : State :=
  let s1 := s.bootTrain b
  let s2 := if b.scanBad then s1.raise .int 0 0x000 8 else s1
  (((s2.bootTrims b i.enableMap).bootSlots b i.enableMap).bootPower b i).bootHost i

/-! ## Steps 1 to 6 (16 R486, R488, R496) -/

/-- Step 6: the firmware (16 R493). -/
def State.boot6 (s : State) (b : BootInputs) (i : CfgImage) : State :=
  match partition s.sec.fwStored b.fw with
  | none => s.enterRecovery 3 5
  | some f => if s.fwOk f then State.boot7 { s with sec := { s.sec with fwRun := some f } } b i else s.enterRecovery 3 5

/-- Step 5: the identity key (16 R496). -/
def State.boot5 (s : State) (b : BootInputs) : State :=
  let s1 := { s with sec := { s.sec with devHash := b.devHash, idOk := b.idOk } }
  if b.idOk then s1 else s1.raise .sec 0 0x000 2

/-- Step 4: the configuration image (16 R488, R491). -/
def State.boot4 (s : State) (b : BootInputs) : State :=
  match (partition s.sec.cfgStored b.cfg).bind (fun x => verifyCfg x b.romHash b.devHash) with
  | none => s.enterRecovery 2 3
  | some i => State.boot6 (State.boot5 { s with sec := { s.sec with cfg := some i } } b) b i

/-- The state in which a power-on begins: the boot count advances (14 R441) (DESIGN CHOICE, log entry 1). -/
def State.powered (s : State) (b : BootInputs) : State :=
  let t := s.powerOff
  { t with sb := { t.sb with powered := true }, integ := { t.integ with boots := t.integ.boots + 1 },
           sec := { t.sec with boot := some b, step := 2 } }

/-- `POWER_ON`: from power off, or from a reset that has not booted, the boot sequence (16 R476, R486; DESIGN CHOICE, log entries 1 and 32). -/
def execPowerOn (b : BootInputs) (s : State) : Host.Outcome State Fault Refusal :=
  done (
    if s.on && (s.sec.step != 0 || s.sec.recovery) then s
    else if b.railsFail then s.powerOff
    else if b.cellarFail then (s.powered b).enterRecovery 1 2
    else (s.powered b).boot4 b)

/-! ## Recovery loading (16 R489, R503) -/

/-- A SEC write was ignored. -/
def State.secIgnored (s : State) : State := s.ignored .sec 0 0x000

/-- The state of the load: kind, count of words, code; and the words. -/
def State.setLoad (s : State) (k n c : Nat) (ws : List W32) : State := { s with sec := { s.sec with load := (k, n, c), words := ws } }

/-- `SEC_REC_BEGIN` (16 R489). -/
def execSecRecBegin (_a : Acc) (config : Bool) (s : State) : Host.Outcome State Fault Refusal :=
  done (if !s.on then s else if !s.sec.recovery then s.secIgnored else s.setLoad (bit01 config) 0 1 [])

/-- `SEC_REC_DATA` (16 R489, R503). -/
def execSecRecData (_a : Acc) (word : BitVec 32) (s : State) : Host.Outcome State Fault Refusal :=
  done (
    if !s.on then s
    else if !s.sec.recovery || s.sec.load.2.2 != 1 then s.secIgnored
    else s.setLoad s.sec.load.1 (satAdd 23 s.sec.load.2.1 1) 1 (s.sec.words ++ [word]))

/-- An image installed in recovery: power-on continues from the step that failed; a warm reset's firmware ends the warm reset
(16 R489, R500; DEDUCED, log entry 31). -/
def State.recovered (s : State) : State :=
  let s1 := { s with sec := { s.sec with recovery := false, cause := 0 } }
  if s.sec.warm then
    (State.resumeUnits { s1 with sec := { s1.sec with warm := false, fwRun := partition s.sec.fwStored none } }).raiseEvent 204
  else match s.sec.boot, s.sec.cause with
    | some b, 3 => (match s1.sec.cfg with | some i => s1.boot6 b i | none => s1.boot4 b)
    | some b, _ => s1.boot4 b
    | none, _ => s1

/-- What the core makes of the loaded words: the code and the state with the image in its partition (16 R489, R491, R493). `fw` is the
firmware image that the words make, if they make one. -/
def State.install (s : State) (fw : Option FwImage) : Nat × State :=
  let dev := match s.sec.boot with | some b => b.devHash | none => []
  let img := s.sec.words.flatMap (fun w => leBytes 4 w.toNat)
  if s.sec.load.1 = 1 then
    (if (verifyCfg img s.romHash dev).isSome then (2, { s with sec := { s.sec with cfgStored := some (some img) } }) else (3, s))
  else match fw with
    | none => (3, s)
    | some f =>
      if !(fwGenuine s.romHash f) then (3, s)
      else if s.fwOk f then (2, { s with sec := { s.sec with fwStored := some (some f) } })
      else (4, s)

/-- `SEC_REC_END` (16 R489) (DESIGN CHOICE, log entry 34). -/
def execSecRecEnd (_a : Acc) (fw : Option FwImage) (s : State) : Host.Outcome State Fault Refusal :=
  done (
    if !s.on then s
    else if !s.sec.recovery || s.sec.load.2.2 != 1 then s.secIgnored
    else
      let x := s.install fw
      let s1 := x.2.setLoad s.sec.load.1 s.sec.load.2.1 x.1 []
      if x.1 = 2 then s1.recovered else s1)

/-! ## Updates (16 R494, R495) -/

/-- The frames that an update reserves, 4,096 over the enabled clusters; none if they are not FREE. -/
def State.updateFrames (s : State) : Option (List Nat) :=
  let n := s.nClus
  let fs := (upTo n).flatMap (fun k => s.pickFree (scratchRange k) (ceilDiv (4096 - k) n))
  if fs.length = 4096 then some fs else none

/-- An update starts: BUSY with its frames reserved as SHADOW of class 3, or NO_SPACE; the inhibit stops it at once (16 R472,
R494; DEDUCED, log entry 33). -/
def State.startUpdate (s : State) (op : Nat) : State :=
  if s.sec.upd = 1 then s.secIgnored
  else
    let s1 := { s with sec := { s.sec with upd := 1, updOp := op } }
    match s1.updateFrames with
    | none => s1.endUpdate 7
    | some fs =>
      let s2 := fs.foldl (fun t f => t.takeShadow f 0 0 3) s1
      if s2.sup.inhibit then s2.endUpdate 5 else s2

/-- `SEC_UPD_FIRMWARE` (16 R494). -/
def execSecUpdFirmware (_a : Acc) (s : State) : Host.Outcome State Fault Refusal := done (if !s.on then s else s.startUpdate 1)

/-- `SEC_UPD_CONFIG` (16 R495). -/
def execSecUpdConfig (_a : Acc) (s : State) : Host.Outcome State Fault Refusal := done (if !s.on then s else s.startUpdate 2)

/-- A partition after a failure of step 3 holds no valid image (16 R494). -/
def State.losePartition (s : State) : State :=
  if s.sec.updOp = 1 then { s with sec := { s.sec with fwStored := some none } }
  else { s with sec := { s.sec with cfgStored := some none } }

/-- A configuration update's image is newer than the running one (16 R495). -/
def State.newerCfg (s : State) (i : CfgImage) : Bool :=
  match s.sec.cfg with | some c => decide (c.serial.toNat < i.serial.toNat) | none => true

/-- The result of an update (16 R494, R495). -/
def State.judgeUpdate (s : State) (r : UpdateResult) : State :=
  match r with
  | .doneFw f =>
    if s.sec.updOp ≠ 1 ∨ fwGenuine s.romHash f = false then s.endUpdate 3
    else if s.fwOk f then (State.endUpdate { s with sec := { s.sec with fwStored := some (some f) } } 2)
    else s.endUpdate 4
  | .doneCfg b =>
    if s.sec.updOp = 2 ∧ (verifyCfg b s.romHash s.sec.devHash).any s.newerCfg = true then
      State.endUpdate { s with sec := { s.sec with cfgStored := some (some b) } } 2
    else s.endUpdate 3
  | .badSignature => s.endUpdate 3
  | .rollback => s.endUpdate 4
  | .inhibited => s.endUpdate 5
  | .writeFailed => s.losePartition.endUpdate 6
  | .noSpace => s.endUpdate 7

/-- `UPDATE_COMPLETE` (16 R494, R495). -/
def execUpdateComplete (r : UpdateResult) (s : State) : Host.Outcome State Fault Refusal :=
  done (if !s.on || s.sec.upd != 1 then s else s.judgeUpdate r)

/-! ## Warm reset (16 R499, R500) -/

/-- A warm reset starts; one in progress, or recovery, is not disturbed (DEDUCED, log entry 43). -/
def State.warmStart (s : State) : State :=
  if s.sec.warm || s.sec.recovery then s
  else { s with sec := { s.sec with warm := true, warmResets := satAdd 16 s.sec.warmResets 1 } }

/-- `SEC_RESET`: KEY 0xA5 with WARM (16 R499, R503). -/
def execSecReset (_a : Acc) (key : BitVec 8) (warm : Bool) (s : State) : Host.Outcome State Fault Refusal :=
  done (if !s.on then s else if key = 0xA5 ∧ warm = true then s.warmStart else s.secIgnored)

/-- `WATCHDOG_EXPIRY` (16 R499). -/
def execWatchdogExpiry (s : State) : Host.Outcome State Fault Refusal :=
  done (if !s.on || !s.coresRun then s else (s.raise .sec 0 0x000 5).warmStart)

/-- `WARM_RESET_END`: the firmware is verified, and the module resumes, or enters recovery with cause 3 (16 R500). -/
def execWarmResetEnd (fw : Option FwImage) (s : State) : Host.Outcome State Fault Refusal :=
  done (
    if !s.on || !s.sec.warm || s.sec.recovery then s
    else match partition s.sec.fwStored fw with
      | none => s.enterRecovery 3 12
      | some f =>
        if s.fwOk f then
          (State.resumeUnits { s with sec := { s.sec with warm := false, fwRun := some f } }).raiseEvent 204
        else s.enterRecovery 3 12)

end Sys2Proof.Machine
end

