-- ==== Sys2Proof/Machine/Chans.lean ====
section
/-! DEFINITION. Channels (03 R55 to R65): the operations of `GFE_CHAN_CMD`, doorbells, ring reads and re-reads, and
CQ_HEAD (04 R112). -/

namespace Sys2Proof.Machine

/-- The reset values of a channel's register fields but the ring fields (03 R58). -/
def State.resetChanRegs (s : State) (c : Nat) : State :=
  let k := fun off => regKey .gfe c off
  let s1 := [0x214, 0x218, 0x22C, 0x230, 0x234, 0x238].foldl
    (fun t off => t.regPut .gfe c off (regDefault (k off)).toNat) s
  { s1 with reg := { s1.reg with pend := s1.reg.pend.filter (fun p =>
      !([k 0x214, k 0x218, k 0x238].contains p.key)) } }

/-- SEQ_INIT of a channel (DEDUCED, log entry 14). -/
def State.seqInit (s : State) (c : Nat) : BitVec 16 := BitVec.ofNat 16 (s.fld .gfe c 0x210 31 16)

/-- A channel operation that is not listed for the channel's state, or whose generation is not current, is ignored; so is
one on a FABRIC channel (03 R56 to R58). -/
def State.chanOp (s : State) (a : Acc) (gen : BitVec 20) (f : State → Nat → Option State) : State :=
  let c := s.selChan a
  let ch := s.chan c
  if ch.kind = .fabric ∨ ch.gen ≠ gen then s.chanIgnored c
  else match f s c with
    | some s1 => s1
    | none => s.chanIgnored c

/-- The window record of a channel that is created again: its share is unattributed (05 R142). -/
def State.keepWindow (s : State) (c : Nat) : State := { s with sup := { s.sup with gone := s.sup.gone ++ [s.acct c] } }

/-- `CREATE`: DESTROYED to CREATED (03 R57, R58); the accounting records are zeroed (05 R139, R141) (DEDUCED, log entry 14). -/
def execCreate (a : Acc) (_gen : BitVec 20) (s : State) : Host.Outcome State Fault Refusal :=
  done (if !s.served then s else
    let c := s.selChan a
    let ch := s.chan c
    if ch.kind = .fabric ∨ ch.state ≠ .destroyed then s.chanIgnored c
    else
      let s1 := s.resetChanRegs c
      let s2 := (s1.keepWindow c).setCq c ChanCq.init |>.setAcct c { ChanAcct.init with createTick := s.tickN }
      s2.setChan c { Chan.init with state := .created, gen := ch.gen + 1, expSeq := s.seqInit c })

/-- `ACTIVATE`: CREATED to ACTIVE, while Cache_Enable is set (12 R360); SEQ_INIT is the expected SEQ of the first command (03 R58, R93; DEDUCED, log entry 14). -/
def execActivate (a : Acc) (gen : BitVec 20) (s : State) : Host.Outcome State Fault Refusal :=
  done (if !s.served then s else s.chanOp a gen (fun t c =>
    let ch := t.chan c
    if ch.state = .created ∧ t.link.cacheEn = true then
      some ((t.setChan c { ch with state := .active, expSeq := t.seqInit c, ringWritten := false, cqWritten := false }).pumpRing c)
    else none))

/-- `PAUSE`: ACTIVE to PAUSED, cause host (03 R58). -/
def execPause (a : Acc) (gen : BitVec 20) (s : State) : Host.Outcome State Fault Refusal :=
  done (if !s.served then s else s.chanOp a gen (fun t c =>
    let ch := t.chan c
    if ch.state = .active then
      some ((t.setChan c { ch with state := .paused .host, reread := none }).dropReads c)
    else none))

/-- A PAUSED channel resumes: ring fields written meanwhile take effect (03 R59), and after a reattach the stored records
are written again (12 R380). With new ring fields HEAD and TAIL go to 0, also after the doorbell that resumes a stale channel, and a
slot that waits for a context is dropped (DEDUCED, log entry 14). -/
def State.resumeChan (s : State) (c : Nat) (reattach : Bool) : State :=
  let ch := s.chan c
  let ch1 := if ch.ringWritten then
      { ch with head := 0, tail := 0, expSeq := s.seqInit c, ringWritten := false, ctxWait := none, extWait := 0 }
    else ch
  let s1 := s.setChan c { ch1 with state := .active, reread := none, cqWritten := false }
  let s2 := if reattach then s1.rewriteStored c ch.cqWritten else s1.release c
  (s2.pumpRing c).grantCtxs 1

/-- `RESUME`: PAUSED to ACTIVE, whatever the cause, while Cache_Enable is set (03 R58; 12 R360). -/
def execResume (a : Acc) (gen : BitVec 20) (s : State) : Host.Outcome State Fault Refusal :=
  done (if !s.served then s else s.chanOp a gen (fun t c =>
    match (t.chan c).state with
    | .paused cause => if t.link.cacheEn then some (t.resumeChan c (cause == .reattach)) else none
    | _ => none))

/-- `DESTROY`: CREATED to DESTROYED, ACTIVE or PAUSED to DRAINING, which is over at once if nothing is left (03 R58). -/
def execDestroy (a : Acc) (gen : BitVec 20) (s : State) : Host.Outcome State Fault Refusal :=
  done (if !s.served then s else s.chanOp a gen (fun t c =>
    let ch := t.chan c
    let drain := fun (re : Bool) =>
      let t1 := (t.setChan c { ch with state := .draining, reread := none, extWait := 0 }).dropReads c
      let t2 := if re && t1.linkUp then t1.rewriteStored c ch.cqWritten else t1
      t2.drainDone c
    match ch.state with
    | .created => some (t.setChan c { ch with state := .destroyed })
    | .active => some (drain false)
    | .paused cause => some (drain (cause == .reattach))
    | _ => none))

/-- `REATTACH`: ORPHANED to PAUSED, cause reattach (03 R58; 12 R380). -/
def execReattach (a : Acc) (gen : BitVec 20) (s : State) : Host.Outcome State Fault Refusal :=
  done (if !s.served then s else s.chanOp a gen (fun t c =>
    let ch := t.chan c
    if ch.state = .orphaned then some (t.setChan c { ch with state := .paused .reattach }) else none))

/-- `DOORBELL`: the tail of a channel (03 R58, R59, R61). A doorbell on a PAUSED channel is latched, and resumes one that
is PAUSED with cause stale. -/
def execDoorbell (chan : Nat) (tail : BitVec 32) (s : State) : Host.Outcome State Fault Refusal :=
  done (
    let ch := s.chan chan
    if !s.served || ch.kind == .fabric || ch.state == .orphaned || ch.state == .draining || ch.state == .destroyed then s
    else
      let full : Bool := decide (2 ^ (s.ringOf chan).2 < (tail - ch.head).toNat)
      let s1 := if full then State.raise (s.setChan chan { ch with bellAt := s.clk.now + 1 }) .gfe chan 0x22C 2
        else s.setChan chan { ch with
          tail := tail, bellAt := s.clk.now + 1, extWait := if ch.extWait ≤ (tail - ch.head).toNat then 0 else ch.extWait }
      if ch.state = .paused .stale then s1.resumeChan chan false else s1.pumpRing chan)

/-- A ring slot that has passed its checks, with the reads of its extension slots, is accepted: re-reads not yet issued are
cancelled, later returns discarded. -/
def State.acceptRing (s : State) (c : Nat) (slot ext : List Byte) : State :=
  let s1 := ((s.setChan c { s.chan c with reread := none }).dropReads c).extReads c (slotExt slot)
  (s1.acceptSlot c slot (ext.take (64 * slotExt slot)) none).pumpRing c

/-- `RING_READ_RETURN`: a slot with its extension slots returns and is checked for SEQ, CRC and XCRC (03 R61, R64). A
return that meets a channel which has stopped reading is discarded. -/
def execRingReadReturn (chan : Nat) (slot ext : List Byte) (s : State) : Host.Outcome State Fault Refusal :=
  done (
    if !s.on || !s.ringInFlight chan then s else
    let ch := s.chan chan
    match takeFirst (fun r : HostRd => r.id == .ring chan) s.host.reads with
    | none => s
    | some (_, rest) =>
      let s1 := { s with host := { s.host with reads := rest } }
      let head : Bool := slotSeq slot == ch.expSeq.toNat && slotCrcOk slot
      let tooLate : Bool := match ch.reread with | some r => decide (r.start + 2600 ≤ s.clk.now) || decide (8 ≤ r.returned) | none => false
      if ch.state ≠ .active ∨ tooLate = true then s1
      else if head && decide ((ch.tail - ch.head).toNat < 1 + slotExt slot) then
        (s1.setChan chan { ch with reread := none, extWait := 1 + slotExt slot }).dropReads chan
      else match ch.reread with
        | none =>
          if head && slotXcrcOk slot ext then s1.acceptRing chan slot ext
          else s1.setChan chan { ch with reread := some ⟨s.clk.now, 0, 0, slotSeq slot⟩ }
        | some r =>
          if head && slotXcrcOk slot ext then s1.acceptRing chan slot ext
          else s1.setChan chan { ch with reread := some { r with returned := r.returned + 1, lastSeq := slotSeq slot } })

/-- `RING_REREAD_ISSUE`: re-read k of a failed slot, at 260 x k cycles after the failed return, for k to 8 (03 R64). -/
def execRingRereadIssue (chan : Nat) (s : State) : Host.Outcome State Fault Refusal :=
  done (
    let ch := s.chan chan
    match ch.reread with
    | none => s
    | some r =>
      if s.on && ch.state == .active && decide (r.issued < 8) && decide (r.start + 260 * (r.issued + 1) ≤ s.clk.now) &&
         decide (s.clk.now < r.start + 2600) && s.linkUp && s.link.cacheEn then
        (s.setChan chan { ch with reread := some { r with issued := r.issued + 1 } }).issueRing chan
      else s)

/-- `DOORBELL_STALE`: the stale verdict at the failed return of re-read 8 or at cycle 2,600 (03 R64). A doorbell of the same
cycle counts as one after it (R65). -/
def execDoorbellStale (chan : Nat) (s : State) : Host.Outcome State Fault Refusal :=
  done (
    let ch := s.chan chan
    match ch.reread with
    | none => s
    | some r =>
      if s.on && ch.state == .active && (decide (8 ≤ r.returned) || decide (r.start + 2600 ≤ s.clk.now)) then
        let s1 := (s.setChan chan { ch with
          state := .paused .stale, reread := none,
          stale := BitVec.ofNat 32 (ch.expSeq.toNat + r.lastSeq * 65536) }).dropReads chan
        let rec32 := recordBytes ch.expSeq.toNat 0 stDoorbellStale 0 0 0 s.tickN s.stamp (granShift s.clk.period) 255
          r.lastSeq 0
        let s2 := (s1.hostRecord chan rec32 none).raise .gfe chan 0x22C 1
        if ch.bellAt = s.clk.now + 1 then s2.resumeChan chan false else s2
      else s)

/-- `CQ_HEAD`: the count of consumed records (04 R108, R112, R116). Space releases held records. -/
def execCqHead (chan : Nat) (count : BitVec 32) (s : State) : Host.Outcome State Fault Refusal :=
  done (
    let ch := s.chan chan
    if !s.served || ch.kind == .fabric || ch.state == .destroyed then s
    else
      let q := s.cq chan
      if 2 ^ s.cqLog chan < (q.next - count).toNat then s.chanIgnored chan
      else
        let s1 := (s.setCq chan { q with head := count }).release chan
        (s1.drainDone chan).pumpRing chan)

end Sys2Proof.Machine
end

