-- ==== Sys2Proof/Machine/Issue.lean ====
section
/-! DEFINITION. The issue of the next command of a launch (03 R79, R80): a slot whose predicate does not agree is skipped, a
GFE command executes, and a cluster command is made ready for its dispatcher. -/

namespace Sys2Proof.Machine

/-- What a GFE command does when it is issued, by its opcode. -/
def State.runGfe (op : Nat) (s : State) (d : Cmd) : State :=
  match op with
  | 0x00 => s.runNop d
  | 0x01 => s.runTimestamp d
  | 0x02 => s.runTestOnDemand d
  | 0x08 => s.runFenceSignal d
  | 0x09 => s.runFenceWait d
  | 0x0A => s.runHostFence d
  | 0x10 => s.runLaunchList d
  | 0x11 => s.runPatchList d
  | 0x18 => s.runObjCreate d
  | 0x19 => s.runObjFree d
  | 0x1A => s.runMove d
  | 0x1B => s.runClone d
  | 0x40 => s.runScaleSet d
  | _ => s

/-- Issue the head of a launch. A cluster command is skipped or its handles are bound; its dispatcher admits it. -/
def State.issueListed (s : State) (l : Nat) : State :=
  match s.headOf (.launch l) with
  | none => s
  | some d =>
    if isClusterOp (slotOp d.slot) then (s.prep (.launch l)).1
    else s.gfeHead (.launch l) (slotOp d.slot) (State.runGfe (slotOp d.slot))

/-- `LIST_SLOT_ISSUE` (03 R79, R80). -/
def execListSlotIssue (launch : Nat) (s : State) : Host.Outcome State Fault Refusal :=
  done (if !s.on then s else s.issueListed launch)

end Sys2Proof.Machine
end

