-- ==== Sys2Proof/Machine/Tsync.lean ====
section
/-! DEFINITION. Time synchronisation (02 R48 to R53): the state, offset samples, announcements and the correction of an
edge. -/

namespace Sys2Proof.Machine

/-- Synchronisation is enabled: EN is 1 and MODE is not FREE (02 R53). -/
def State.tsOn (s : State) : Bool := s.fld .gfe 0 0x114 0 0 == 1 && s.fld .gfe 0 0x114 2 1 != 1

/-- The domain that the module follows: 0 in AUTO, DOMAIN in FOLLOW (02 R54). -/
def State.tsDomain (s : State) : Nat := if s.fld .gfe 0 0x114 2 1 = 2 then s.fld .gfe 0 0x114 10 3 else 0

/-- A port accepts PTP messages (02 R54). -/
def State.ptpPort (s : State) (p : Nat) : Bool := bitOf (s.fld .gfe 0 0x114 18 11) p

/-- The selected source, 8 x domain + port, is one that the module follows. -/
def State.sourceFollowed (s : State) : Bool :=
  match s.ts.source with
  | some x => x / 8 == s.tsDomain && s.ptpPort (x % 8)
  | none => false

/-- The filtered offset in ns: the median of the last 8 samples (02 R52). -/
def State.tsOffset (s : State) : Int := median s.ts.samples

/-- Nanoseconds as whole cycles, towards 0. -/
def nsCycles (i : Int) : Int := (i * 13).tdiv 10

/-- A correction within 130 cycles (02 R50, R52). -/
def clampCorr (i : Int) : Int := max (-130) (min 130 i)

/-- The correction of the next edge: the filtered offset in cycles, or in HOLDOVER the average of the last 16 locked ticks
(02 R50, R52, R53). -/
def State.tsCorr (s : State) : Int :=
  match s.ts.state with
  | .free => 0
  | .acquiring | .locked => clampCorr (nsCycles s.tsOffset)
  | .holdover => if s.ts.corrs.isEmpty then 0 else (s.ts.corrs.foldl (· + ·) 0).tdiv s.ts.corrs.length

/-- Enter a state of time synchronisation, with its event (02 R51, R53). -/
def State.enterTs (s : State) (st : TsState) : State :=
  let s1 := { s with ts := { s.ts with
    state := st, goodEdges := 0, discards := 0, realign := st == .acquiring,
    sampleAt := if s.ts.state = .free then s.clk.now else s.ts.sampleAt } }
  match st with
  | .locked => s1.raise .gfe 0 0x110 3
  | .holdover => s1.raise .gfe 0 0x110 4
  | _ => s1

/-- After a change of the control register or of the source, and at each edge in FREE: to FREE, or from FREE to ACQUIRING (02
R53) (DEDUCED, log entry 45). -/
def State.tsControl (s : State) : State :=
  if !s.tsOn then (if s.ts.state = .free then s else s.enterTs .free)
  else if s.ts.state = .free ∧ s.sourceFollowed = true then s.enterTs .acquiring
  else s

/-- Cores that take PTP messages run (16 R489). -/
def State.ptpRuns (s : State) : Bool := s.on && !s.sec.recovery

/-! ## Offset samples (02 R48, R52) -/

/-- What the time messages of a source have told after one of them: a Sync keeps its receipt delay, a two-step one once its
Follow_Up has come, and a Delay_Resp that answers the last request gives the mean path delay (PRESUMED, log entry 61). -/
def TSync.take (t : TSync) (m : PtpMsg) : TSync :=
  match m with
  | .sync _ (some t1) t2 c => { t with sync := none, diff := some (t2 - t1 - c) }
  | .sync q none t2 c => { t with sync := some (q, t2, c) }
  | .followUp q t1 c =>
    (match t.sync with
     | some (k, t2, c1) => if k = q then { t with sync := none, diff := some (t2 - t1 - c1 - c) } else t
     | none => t)
  | .delayResp q t3 t4 c =>
    (match t.diff with
     | some d => if t.delayReqs ≠ 0 ∧ q = t.delayReqs % 65536 then { t with path := (d + (t4 - t3 - c)).tdiv 2 } else t
     | none => t)

/-- A message ends a measurement: a one-step Sync, the Follow_Up of the last Sync, the Delay_Resp to the last request. -/
def TSync.measures (t : TSync) (m : PtpMsg) : Bool :=
  match m with
  | .sync _ t1 _ _ => t1.isSome
  | .followUp q _ _ => (match t.sync with | some (k, _) => k == q | none => false)
  | .delayResp q _ _ _ => t.diff.isSome && t.delayReqs != 0 && q == t.delayReqs % 65536

/-- The offset sample of a message, in ns, positive when the edges are late: the mean path delay less the receipt delay
(PRESUMED, log entry 61). -/
def TSync.sampleOf (t : TSync) (m : PtpMsg) : Option Int :=
  if t.measures m then (t.take m).diff.map (fun d => (t.take m).path - d) else none

/-- An offset sample is filtered and range-checked (02 R52, R53) (DEDUCED, log entry 45). -/
def State.offsetSample (s : State) (ns : Int) : State :=
  if s.ts.state = .locked ∧ s.ts.samples.isEmpty = false ∧ 1000000 < (ns - s.tsOffset).natAbs then
    if s.ts.discards = 7 then s.enterTs .acquiring
    else { s with ts := { s.ts with discards := s.ts.discards + 1 } }
  else
    let s1 := { s with ts := { s.ts with samples := (ns :: s.ts.samples).take 8, sampleAt := s.clk.now, discards := 0 } }
    if s.ts.state = .holdover then s1.enterTs .acquiring else s1

/-- `PTP_OFFSET_SAMPLE`: a time message of the selected source, on its port (02 R48, R52). -/
def execPtpOffsetSample (port : Nat) (m : PtpMsg) (s : State) : Host.Outcome State Fault Refusal :=
  done (
    if !s.ptpRuns || s.ts.state == .free || !s.sourceFollowed || s.ts.source != some (s.tsDomain * 8 + port) then s
    else
      let s1 := { s with ts := s.ts.take m }
      match s.ts.sampleOf m with
      | some ns => s1.offsetSample ns
      | none => s1)

/-! ## Announcements (02 R48, R52) -/

/-- What the best master clock algorithm compares, in its order (PRESUMED, log entry 61). -/
def masterOrder (m : PtpMaster) : List Nat :=
  [m.prio1, m.cls, m.accuracy, m.variance, m.prio2, m.identity, m.steps, m.sender]

/-- A list of numbers comes before another: the first difference decides. -/
def lexBefore : List Nat → List Nat → Bool
  | a :: s, b :: t => decide (a < b) || (a == b && lexBefore s t)
  | _, _ => false

/-- The best of a list of masters. -/
def bestMaster : List (Nat × PtpMaster) → Option (Nat × PtpMaster)
  | [] => none
  | x :: t =>
    match bestMaster t with
    | some y => if lexBefore (masterOrder y.2 ++ [y.1]) (masterOrder x.2 ++ [x.1]) then some y else some x
    | none => some x

/-- The announced masters that the module may follow (02 R54). -/
def State.masterList (s : State) : List (Nat × PtpMaster) :=
  s.ts.masters.filter (fun x => x.1 / 8 == s.tsDomain && s.ptpPort (x.1 % 8))

/-- The best master clock algorithm selects the source among the announced masters (02 R52). -/
def State.selectSource (s : State) : State :=
  State.tsControl { s with ts := { s.ts with source := (bestMaster s.masterList).map Prod.fst } }

/-- `PTP_ANNOUNCE`: another domain is discarded; the best master clock algorithm selects a source (02 R52). -/
def execPtpAnnounce (port domain : Nat) (m : PtpMaster) (s : State) : Host.Outcome State Fault Refusal :=
  done (
    if !s.ptpRuns || domain != s.tsDomain || !s.ptpPort port then s
    else State.selectSource { s with ts := { s.ts with
      masters := (s.ts.masters.filter (fun x => x.1 != domain * 8 + port || x.2.sender != m.sender)) ++ [(domain * 8 + port, m)] } })

/-- The cycles of 4 s. -/
def sampleTimeout : Nat := 5200000000

/-- `PTP_SAMPLE_TIMEOUT`: 4 s without a valid sample (02 R52, R53). -/
def execPtpSampleTimeout (s : State) : Host.Outcome State Fault Refusal :=
  done (
    if !s.ptpRuns || decide (s.clk.now < s.ts.sampleAt + sampleTimeout) then s
    else match s.ts.state with
      | .locked => s.enterTs .holdover
      | .acquiring => s.enterTs .free
      | _ => s)

/-- `ANNOUNCE_RECEIPT_TIMEOUT`: the selected source is dropped, and the best of the others is selected (02 R52). -/
def execAnnounceReceiptTimeout (s : State) : Host.Outcome State Fault Refusal :=
  done (
    if !s.ptpRuns then s
    else State.selectSource { s with ts := { s.ts with
      masters := match bestMaster s.masterList with | some x => s.ts.masters.filter (fun y => y != x) | none => s.ts.masters } })

/-- `DELAY_REQ_SEND`: on a port of PORT_MASK that is UP (02 R48, R54). -/
def execDelayReqSend (port : Nat) (s : State) : Host.Outcome State Fault Refusal :=
  done (
    if !s.ptpRuns || !s.tsOn || !s.ptpPort port || (s.port port).state != .up then s
    else State.emit { s with ts := { s.ts with delayReqs := s.ts.delayReqs + 1 } } (.delayReq port))

end Sys2Proof.Machine
end

