-- ==== Sys2Proof/Machine/Regs.lean ====
section
/-! DEFINITION. Reading registers (15 R446 to R459, R467, and the register tables of the chapters): where an offset leads, and
the value of every field. -/

namespace Sys2Proof.Machine

/-! ## Where an offset leads (15 R446, R447, R449) -/

/-- A place that a BAR0 offset names: window, cluster, alias and image offset. -/
structure RegLoc where
  w : Win
  clu : Nat
  als : Nat
  off : Nat
  deriving DecidableEq, Repr

/-- The image of a window in bytes (15 R449). -/
def imageSize : Win → Nat
  | .gfe => 2048 | .tbl => 64 | .mem => 128 | .cxl => 128 | .fab => 256 | .int => 256 | .pwr => 512 | .mon => 1024
  | .sec => 512 | .clu => 1024

/-- A place within a window. -/
def regLoc (w : Win) (n off : Nat) : RegLoc := ⟨w, n, off / 4096 % 4, off % imageSize w / 4 * 4⟩

/-- The place that a BAR0 offset leads to; none in an unassigned range, the window of a cluster that is not enabled, or the
CXL component block (15 R446 to R448). -/
def State.locate (s : State) (off : Nat) : Option RegLoc :=
  if off < 0x90000 then some (regLoc (winOf (off / 65536)) 0 (off % 65536))
  else if off < 0x1000000 then none
  else if off < 0x1000000 + s.nClus * 65536 then some (regLoc .clu ((off - 0x1000000) / 65536) (off % 65536))
  else none

/-- In recovery BAR0 serves only `GFE_ID` and the SEC window (16 R489). -/
def State.serves (s : State) (l : RegLoc) : Bool :=
  s.on && (!s.sec.recovery || l.w == .sec || (l.w == .gfe && l.off == 0))

/-- The number of the item of a register for an accessor (15 R453). -/
def State.itemOf (s : State) (a : Acc) (w : Win) (n : Nat) : RItem → Nat
  | .one => 0
  | .sel => accNum a
  | .selClu => accNum a * 64 + n
  | .chan => s.selChan a
  | .fence => s.selFence a
  | .slot => s.selected a .gfe 0x500 9 0
  | .clu => n
  | .stream => n * 64 + s.fld .clu (accNum a * 64 + n) 0x200 5 0
  | .table => s.regGet .tbl (accNum a) 0x000
  | .tgt => s.selTarget a
  | .apt => s.selected a .cxl 0x040 5 0
  | .ev => s.selected a .cxl 0x060 7 0
  | .route => s.selected a .fab 0x090 13 0
  | .peer => s.selected a .fab 0x0A0 15 0
  | .cslot => s.selSlot a
  | .sensor => s.selected a w 0x004 7 0
  | .volt => s.selected a w 0x014 5 0
  | .proc => s.selected a w 0x01C 6 0

/-! ## Stored fields (15 R457, R459) -/

/-- Put masked bits into a value. -/
def putMasked (v mask x : Nat) : Nat := v - (v &&& mask) + (x &&& mask)

/-- A register's stored value with its pending writes (15 R457). -/
def State.pendVal (s : State) (w : Win) (item off : Nat) : Nat :=
  let k := regKey w item off
  s.reg.pend.foldl (fun v p => if p.key = k then putMasked v p.mask p.val else v) (s.regGet w item off)

/-- A write is pending in a window: of a cluster's window, that of cluster `n`, between two offsets (15 R459). -/
def State.pendIn (s : State) (w : Win) (n lo hi : Nat) : Bool :=
  s.reg.pend.any (fun p => keyWin p.key == w.num && (w != .clu || keyItem p.key == n) &&
    decide (lo ≤ keyOff p.key) && decide (keyOff p.key ≤ hi))

/-- The clusters with a pending write, 32 from `b` on, as bits. -/
def State.pendClus (s : State) (b : Nat) : Nat :=
  (upTo 32).foldl (fun v k => v + (if s.pendIn .clu (b + k) 0 0xFFF then 2 ^ k else 0)) 0

/-- Two 16-bit fields. -/
def two16 (lo hi : Nat) : Nat := lo % 65536 + 65536 * (hi % 65536)

/-- A signed value saturated to 32 bits. -/
def sat32 (i : Int) : Nat := wrap 32 (max (-2147483648) (min 2147483647 i))

/-! ## Read-only fields by window -/

/-- STATE of a channel, coded (03 R93). -/
def chanCode : ChanState → Nat
  | .destroyed => 0 | .created => 1 | .active => 2 | .paused _ => 3 | .orphaned => 4 | .draining => 5

/-- CAUSE of a PAUSED channel (03 R93). -/
def chanCause : ChanState → Nat
  | .paused .host => 1 | .paused .stale => 2 | .paused .reattach => 3 | _ => 0

/-- `GFE_CHAN_STATE` of a channel (03 R93). -/
def State.chanStateWord (s : State) (c : Nat) : Nat :=
  let ch := s.chan c
  chanCode ch.state + 8 * chanCause ch.state + 32 * bit01 ch.openCtx.isSome + 4096 * ch.gen.toNat

/-- STATE of time synchronisation, coded (02 R54). -/
def tsCode : TsState → Nat
  | .free => 0 | .acquiring => 1 | .locked => 2 | .holdover => 3

/-- Positions of the pending patches: the patches that wait in the module (03 R86, R93). -/
def State.patchCount (s : State) : Nat := s.gfe.patches.length

/-- The GFE window up to the completion queue (02 R54; 03 R93; 15 R467). -/
def State.roGfeA (s : State) (item off : Nat) : Nat :=
  match off with
  | 0x000 => s.nClus + s.icnt.eligible * 2 ^ 8 + Config.stepping.toNat * 2 ^ 16
  | 0x004 => bit01 (s.pendIn .gfe 0 0 0xFFF) +
      ((upTo 8).foldl (fun v k => v + 2 ^ (k + 1) * bit01 (s.pendIn (winOf (k + 1)) 0 0 0xFFF)) 0) +
      2 ^ 9 * bit01 (s.pendClus 0 + s.pendClus 32 != 0)
  | 0x008 => s.pendClus 0
  | 0x00C => s.pendClus 32
  | 0x100 => granShift s.clk.period * 2 ^ 16 + 2 ^ 31 * bit01 (s.pendIn .gfe 0 0 0xFFF)
  | 0x104 => s.tickN % 2 ^ 32
  | 0x108 => s.tickN / 2 ^ 32
  | 0x10C => s.stamp
  | 0x118 => tsCode s.ts.state + wrap 9 s.ts.lastCorr * 2 ^ 16
  | 0x11C => sat32 s.tsOffset
  | 0x214 => 64 * bit01 ((s.chan item).kind == .fabric)
  | 0x21C => s.chanStateWord item
  | 0x220 => (s.chan item).head.toNat
  | 0x224 => (s.chan item).tail.toNat
  | 0x228 => (s.chan item).stale.toNat
  | 0x23C => two16 (s.cq item).lostCount (s.cq item).lostSeq
  | 0x240 => (16384 - s.gfe.ctxs.length) + 65536 * (s.gfe.ctxs.filter (·.retiring)).length
  | 0x244 => (s.gfe.ctxs.filter (fun x => !x.retiring)).length
  | 0x248 => min s.gfe.late (2 ^ 32 - 1)
  | 0x260 => s.patchCount
  | 0x288 => (s.fence item).val.toNat % 2 ^ 32
  | 0x28C => (s.fence item).val.toNat / 2 ^ 32
  | 0x294 => (s.fence item).gen.toNat * 4096
  | _ => 0

/-- The rest of the GFE window (05 R143; 06 R179). -/
def State.roGfeB (s : State) (a : Acc) (item off : Nat) : Nat :=
  if 0x300 ≤ off ∧ off < 0x320 then 256 * s.fld .gfe 0 off 0 0
  else if 0x400 ≤ off ∧ off < 0x500 then (listGet 0 (s.accState a).acct ((off - 0x400) / 4)).toNat
  else if 0x540 ≤ off ∧ off < 0x580 then (listGet 0 (s.scale item).hist ((off - 0x540) / 4)).toNat
  else match off with
  | 0x36C => min s.sup.allow (2 ^ 32 - 1)
  | 0x380 => s.sup.lastUj % 2 ^ 32
  | 0x384 => s.sup.unattr % 2 ^ 32
  | 0x388 => s.sup.balTick % 2 ^ 32
  | 0x38C => s.sup.balTick / 2 ^ 32
  | 0x390 => s.sup.energyPj / 1000000 % 2 ^ 32
  | 0x50C => (s.scale item).acc.toNat
  | 0x510 => (s.scale item).contrib + 65536 * (s.scale item).hist.length
  | _ => 0

/-- The TBL window (09 R281). -/
def State.roTbl (s : State) (item off : Nat) : Nat :=
  match off with
  | 0x024 => s.resolving.length + 128 * s.heldIndices
  | _ =>
    match s.tableOf item with
    | none => 0
    | some (o, t, y) =>
      match off with
      | 0x008 => (usedSlots y).length
      | 0x00C => t.slots
      | 0x014 => (s.foldable item o y).length + 2 ^ 31 * bit01 y.folding
      | _ => 0

/-- FREE frames of a tier, 0 before the tiers are trained (10 R331). -/
def State.freeFrames (s : State) (tier : Nat) : Nat := if s.link.memActive then s.allFree tier else 0

/-- A stack's temperature register (10 R326, R331). -/
def State.stackWord (s : State) (k : Nat) : Nat :=
  let r := s.stack k
  wrap 11 r.temp + 65536 * bit01 r.refresh2x + 131072 * r.derate + 524288 * bit01 r.timeout

/-- The counter of a page as it reads: 0 while every frame of the page is FREE (10 R308). -/
def State.heatShown (s : State) (p : Nat) : Nat :=
  if s.frames.any (fun x => x.2.state != .free && heatPage x.1 == some p) then min 255 (s.heat p) else 0

/-- The MEM window (10 R331). -/
def State.roMem (s : State) (a : Acc) (item off : Nat) : Nat :=
  if 0x040 ≤ off ∧ off < 0x060 then s.stackWord ((off - 0x040) / 4)
  else match off with
  | 0x010 => (s.tierRange 1).2
  | 0x014 => s.freeFrames 1
  | 0x018 => (s.tierRange 2).2
  | 0x01C => s.freeFrames 2
  | 0x020 => (s.tierRange 3).2 / 16
  | 0x024 => s.freeFrames 3 / 16
  | 0x030 => (s.objs.filter (fun x => x.2.creation == .live)).length
  | 0x038 => s.heatShown (s.selected a .mem 0x034 21 0)
  | 0x064 => 2 * s.targetState item + 16 * (s.target item).spares
  | 0x06C => (s.target item).errors + 2 ^ 31 * bit01 (s.target item).done
  | _ => 0

/-- STATE of the host link, coded (12 R393). -/
def linkCode : LinkState → Nat
  | .down => 0 | .training => 1 | .up => 2 | .recovery => 3

/-- SPEED of the host link, coded (12 R393). -/
def speedCode (gts : Nat) : Nat := if gts = 8 then 3 else if gts = 16 then 4 else if gts = 32 then 5 else 0

/-- The CXL window (12 R393). -/
def State.roCxl (s : State) (off : Nat) : Nat :=
  match off with
  | 0x000 => linkCode s.link.state + 4 * bit01 s.link.degraded + 256 * s.link.width + 8192 * speedCode s.link.gts +
      65536 * bit01 s.link.cacheEn + 131072 * bit01 s.link.memEn + 262144 * bit01 s.link.hdm.isSome +
      524288 * bit01 s.link.d3hot
  | 0x008 => two16 s.link.recoveries s.link.downs
  | 0x00C => two16 (min 65535 s.host.rttLast) (min 65535 s.host.rttMax)
  | 0x010 => s.host.rdErr.1 % 2 ^ 32
  | 0x014 => s.host.rdErr.1 / 2 ^ 32
  | 0x018 => s.host.rdErr.2.1 + 65536 * s.host.rdErr.2.2
  | 0x024 => s.wrFree / 1024
  | _ => 0

/-- STATE of a port, coded (13 R414). -/
def portCode : PortState → Nat
  | .disabled => 0 | .training => 1 | .up => 2 | .holddown => 3

/-- STATE of a peer entry, coded (13 R414). -/
def peerCode : PeerState → Nat
  | .empty => 0 | .active => 1 | .failed => 2

/-- Three seconds in cycles: the discovery periods that a reply counts for (13 R399). -/
def replyLife : Nat := 3 * secCycles

/-- The FAB window (13 R414). -/
def State.roFab (s : State) (item off : Nat) : Nat :=
  if 0x060 ≤ off ∧ off < 0x080 then
    let p := (off - 0x060) / 4
    portCode (s.port p).state + 256 * (s.port p).flaps +
      65536 * (s.fab.replies.filter (fun r => r.2.1 == p && decide (s.clk.now < r.2.2 + replyLife))).length
  else match off with
  | 0x004 => s.fab.moduleId
  | 0x084 => min s.fab.retx (2 ^ 32 - 1)
  | 0x088 => two16 s.fab.drops.1 s.fab.drops.2
  | 0x08C => two16 (32768 - ceilDiv s.rxBytes 1024) (32768 - ceilDiv s.txBytes 1024)
  | 0x094 => 256 * (((s.fab.replies.filter (fun r => r.1 == item)).map (fun r => r.2.1)).eraseDups.foldl (fun m p => m + 2 ^ p) 0)
  | 0x0A4 =>
    let e := s.peer item
    peerCode e.state + 4 * e.port +
      65536 * min 65535 (ceilDiv (((e.frames.filter (·.sent)).map (fun f => f.payload.length)).foldl (· + ·) 0) 1024)
  | _ => 0

/-- STATE of a slot, coded (14 R445). -/
def slotCode : SlotState → Nat
  | .disabled => 0 | .serving => 1 | .testResidency => 2 | .suspect => 3 | .retired => 4

/-- `INT_ROT_STATE` (14 R445). -/
def State.rotState (s : State) : Nat :=
  let due := s.integ.secsAt + s.fld .int 0 0x004 12 1 * secCycles
  s.integ.next % 64 + 64 * bit01 s.integ.test.isSome + 128 * bit01 s.integ.skipped +
    256 * (match s.integ.test with | some t => t.clu % 64 | none => 0) + 65536 * min 65535 (ceilDiv (due - s.clk.now) secCycles)

/-- `INT_CLU_STATE` of a slot (14 R445). -/
def State.slotWord (s : State) (p : Nat) : Nat :=
  let r := s.pslot p
  slotCode r.state + 8 * r.logical.getD 0 + 512 * bit01 r.logical.isSome + 1024 * min 15 (s.recentFaults p).length +
    65536 * min 65535 ((s.clk.now - r.lastPass) / (3600 * secCycles))

/-- PIN tiles homed in a slot's scratchpad (14 R445). -/
def State.pinTiles (s : State) (p : Nat) : Nat :=
  match (s.pslot p).logical with
  | none => 0
  | some n =>
    (s.frames.filter (fun x => decide ((scratchRange n).1 ≤ x.1) && decide (x.1 < (scratchRange n).1 + scratchFrames) &&
      (x.2.state == .home || x.2.state == .poisoned) &&
      (match s.obj? x.2.obj with | some o => o.policy == 2 | none => false))).length

/-- The INT window (14 R445). -/
def State.roInt (s : State) (a : Acc) (item off : Nat) : Nat :=
  if 0x040 ≤ off ∧ off < 0x050 then min (listGet 0 s.integ.ce ((off - 0x040) / 4)) (2 ^ 32 - 1)
  else if 0x080 ≤ off then (listGet 0 (s.accState a).log ((off - 0x080) / 4)).toNat
  else match off with
  | 0x010 => s.rotState
  | 0x024 => s.slotWord item
  | 0x02C => s.pinTiles item
  | 0x030 => two16 s.icnt.transients s.icnt.suspects
  | 0x050 => two16 s.integ.ue s.icnt.framesRetired
  | 0x054 => s.integ.poison.1 % 2 ^ 32
  | 0x058 => s.integ.poison.2.1 % 2 ^ 30
  | 0x05C => s.integ.poison.2.2.1 + 8 * s.integ.poison.2.2.2
  | 0x060 => s.integ.logBuf.length + 512 * bit01 (s.sup.inhibit && !s.integ.logBuf.isEmpty) + 65536 * min 65535 s.integ.logDropped
  | 0x064 => (indexed 0 s.integ.unitRes).foldl (fun v x => v + x.2 * 4 ^ x.1) 0
  | _ => 0

/-- STATE of the supply, coded (16 R503). -/
def State.supplyCode (s : State) : Nat :=
  if s.sup.stopping then 3 else if s.sup.throttle then 2 else if s.sup.inhibit then 1 else 0

/-- The PWR window (16 R503). -/
def State.roPwr (s : State) (off : Nat) : Nat :=
  if 0x040 ≤ off ∧ off < 0x058 then
    min 2047 (listGet 0 s.mon.domPower ((off - 0x040) / 4)) + 2 ^ 31 * bit01 (listGet false s.mon.domOver ((off - 0x040) / 4))
  else match off with
  | 0x004 => two16 (min 65535 s.vinMv) (min 65535 (median s.sup.iin.vals).toNat)
  | 0x008 => s.supplyCode
  | 0x010 => min 2047 (s.sup.capEff / 4)
  | 0x014 => 2 ^ 31 * bit01 s.mon.idleCal
  | 0x01C => min (2 ^ 24 - 1) s.sup.eNow
  | _ => 0

/-- The hottest sensor and its value (16 R503). -/
def State.hotSensor (s : State) : Nat × Int :=
  s.sensors.foldl (fun m x => if m.2 < x.2.temp then (x.1, x.2.temp) else m)
    (match s.sensors with | x :: _ => (x.1, x.2.temp) | [] => (0, 0))

/-- The mean of a list of readings, rounded down (16 R470). -/
def meanOf (l : List Int) : Int := l.foldl (· + ·) 0 / l.length

/-- The MON window (16 R503). -/
def State.roMon (s : State) (item off : Nat) : Nat :=
  match off with
  | 0x008 => wrap 11 (s.tempRec item).temp + 2048 * bit01 (s.tempRec item).timeout
  | 0x00C => wrap 11 s.hotSensor.2 + 65536 * s.hotSensor.1
  | 0x010 => s.mon.step + 4 * (s.pslots.filter (fun x => x.2.held)).length
  | 0x018 =>
    let r := s.voltRec item
    let nom := (Config.nominalMv item).toNat
    let v := median r.vals
    min 8191 v.toNat + 8192 * bit01 (r.timeout || (!r.vals.isEmpty && outside 20 nom v)) + 16384 * bit01 r.timeout + 65536 * nom
  | 0x020 => (meanOf (s.procRec item).vals).toNat % 65536 + 65536 * wrap 8 (s.pslot item).trim
  | _ => 0

/-- The running firmware's word of `SEC_FW_VER` (16 R503). -/
def State.fwWord (s : State) : Nat :=
  (match s.sec.fwRun with | some f => f.version % 65536 + 65536 * (f.svn % 256) | none => 0) + 2 ^ 24 * (s.svnFloor % 256)

/-- The running configuration's serial. -/
def State.cfgSerial (s : State) : Nat := match s.sec.cfg with | some i => i.serial.toNat | none => 0

/-- The SEC window (16 R503). -/
def State.roSec (s : State) (off : Nat) : Nat :=
  if 0x040 ≤ off then leField s.sec.devHash (off - 0x040) 4
  else match off with
  | 0x004 => s.sec.step + 16 * s.sec.cause + 65536 * min 65535 s.sec.warmResets
  | 0x008 => s.fwWord
  | 0x00C => s.cfgSerial
  | 0x018 => s.sec.upd
  | 0x028 => s.sec.load.2.2 + 256 * s.sec.load.2.1
  | _ => 0

/-- Committed cycles of a cluster in this tick (02 R34, R54). -/
def State.committed (s : State) (n : Nat) : Nat :=
  let c := s.clu n
  c.used + (match c.run with | some r => max r.charge (s.elapsed r) | none => 0) + (c.queue.map Prod.snd).foldl (· + ·) 0

/-- Frames of a cluster's scratchpad with a property. -/
def State.scratchCount (s : State) (n : Nat) (p : FrameRec → Bool) : Nat :=
  countIn p s.frames (scratchRange n).1 ((scratchRange n).1 + scratchFrames)

/-- STATE of a descriptor, coded (11 R346). -/
def strCode : StrState → Nat
  | .idle => 0 | .armed => 1 | .dry => 2 | .disarming => 3 | .faulted => 4

/-- The stream registers of a window (11 R356). -/
def State.roStr (s : State) (n item off : Nat) : Nat :=
  let ix := item % 64
  let t := s.stream n ix
  match off with
  | 0x204 => strCode t.state + 8 * bit01 t.queued.isSome + 16 * (if t.state = .faulted then t.fault.1 else 0) +
      256 * (s.xfers.filter (fun x => x.clu == n && x.ix == ix)).length + 2 ^ 20 * t.chan
  | 0x208 => t.landed % 2 ^ 32
  | 0x20C => sat32 ((s.runDry t : Int) - s.clk.now)
  | 0x210 => t.fault.2 % 2 ^ 24
  | 0x214 => (256 - (s.xfers.filter (fun x => x.clu == n)).length) +
      65536 * (s.xfers.filter (fun x => x.clu == n && x.fid == 0)).length
  | _ => 0

/-- The engine registers of a window (07 R206; 08 R239; 09 R281). -/
def State.roEngines (s : State) (n off : Nat) : Nat :=
  let c := s.cnt n
  match off with
  | 0x100 => 2 ^ 31 * bit01 (s.pendIn .clu n 0x100 0x154)
  | 0x108 => min c.mxaBlocks (2 ^ 32 - 1)
  | 0x10C => two16 c.mxaMismatch c.mxaSkipped
  | 0x110 => c.mxaLast.toNat
  | 0x148 => min c.mvpBlocks (2 ^ 32 - 1)
  | 0x14C => two16 c.mvpMismatch c.mvpSkipped
  | 0x150 => c.mvpLast.toNat
  | 0x180 => 2 ^ 31 * bit01 (s.pendIn .clu n 0x180 0x194)
  | 0x188 => min c.vecPasses (2 ^ 32 - 1)
  | 0x18C => two16 c.vecAnomalies c.vecFaultCmds
  | 0x190 => c.vecLast.toNat
  | 0x1C0 => 2 ^ 31 * bit01 (s.pendIn .clu n 0x1C0 0x1D0)
  | 0x1C8 => min c.tblRows (2 ^ 32 - 1)
  | 0x1CC => two16 c.tblRowFails c.tblMismatch
  | _ => 0

/-- The window of a cluster (02 R54; 05 R143; 10 R284, R331; 15 R467); a retired frame counts as HOME (14 R423). -/
def State.roClu (s : State) (n item off : Nat) : Nat :=
  match off with
  | 0x000 => n + 128 * (s.cluSlot n).getD 0 + 65536 * slotCode (s.cluState n) + 2 ^ 31 * bit01 (s.pendIn .clu n 0x000 0x074)
  | 0x040 => min (2 ^ 22 - 1) (s.committed n)
  | 0x044 => two16 (s.clu n).overruns (s.clu n).deferrals
  | 0x048 => two16 (s.heldTiles n 0) (s.heldTiles n 1)
  | 0x04C => two16 (s.heldTiles n 2) (s.heldTiles n 3)
  | 0x050 => two16 (s.clu n).timeKills (s.clu n).spaceKills
  | 0x070 => two16 (scratchFrames - s.scratchCount n (fun r => !r.usable))
      (s.scratchCount n (fun r => r.state == .home || r.state == .poisoned || (r.state == .free && r.retired)))
  | 0x074 => two16 (s.scratchCount n (fun r => r.state == .shadow)) (s.scratchCount n (fun r => r.state == .inTransit))
  | _ => if 0x200 ≤ off then s.roStr n item off else s.roEngines n off

/-- The read-only fields of a register. -/
def State.roVal (s : State) (a : Acc) (w : Win) (n item off : Nat) : Nat :=
  match w with
  | .gfe => if off < 0x300 then s.roGfeA item off else s.roGfeB a item off
  | .tbl => s.roTbl item off
  | .mem => s.roMem a item off
  | .cxl => s.roCxl off
  | .fab => s.roFab item off
  | .int => s.roInt a item off
  | .pwr => s.roPwr off
  | .mon => s.roMon item off
  | .sec => s.roSec off
  | .clu => s.roClu n item off

/-! ## A read (15 R450 to R453) -/

/-- A register's value at this moment: its read-only fields over its stored ones. -/
def State.regNow (s : State) (a : Acc) (w : Win) (n : Nat) (r : RDef) (off : Nat) : Nat :=
  let item := s.itemOf a w n r.item
  if 0 < r.events then s.regGet w item off
  else
    (s.pendVal w item off &&& r.mask (fun f => f.acc == .rw)) +
    (s.roVal a w n item off &&& r.mask (fun f => f.acc == .ro))

/-- The HI register that a read of a LO register latches (15 R453). -/
def hiOf (w : Win) (off : Nat) : Option Nat :=
  match w, off with
  | .gfe, 0x104 => some 0x108
  | .gfe, 0x288 => some 0x28C
  | .gfe, 0x388 => some 0x38C
  | .cxl, 0x010 => some 0x014
  | .clu, 0x060 => some 0x064
  | .clu, 0x068 => some 0x06C
  | .clu, 0x070 => some 0x074
  | _, _ => none

/-- A register that reads as latched (15 R453). -/
def isHi (w : Win) (off : Nat) : Bool := (hiOf w (off - 4)).isSome

/-- What a read of a place returns; the read of a LO register latches its HI for the accessor (15 R453). -/
def State.readLoc (s : State) (a : Acc) (l : RegLoc) : Nat × State :=
  if !s.serves l then (0, s)
  else match regAt l.w l.off with
    | none => (0, s)
    | some r =>
      let st := s.accState a
      if isHi l.w l.off then
        ((match st.latches.find? (fun x => x.1 == regKey l.w l.clu l.off) with | some x => x.2.toNat | none => 0), s)
      else
        let v := s.regNow a l.w l.clu r l.off
        match hiOf l.w l.off with
        | none => (v, s)
        | some h =>
          match regAt l.w h with
          | none => (v, s)
          | some rh =>
            let k := regKey l.w l.clu h
            (v, s.setAcc a { st with
              latches := (k, BitVec.ofNat 32 (s.regNow a l.w l.clu rh h)) :: st.latches.filter (fun x => x.1 != k) })

/-- The doorbell pages of BAR2 follow BAR0 in the offsets of the model (DESIGN CHOICE, log entry 38). -/
def bar2 : Nat := 2 ^ 26

/-- A 32-bit read of a doorbell page (15 R466): HEAD, STATE, CQ_TAIL. -/
def State.readPage (s : State) (off : Nat) : Nat :=
  let c := off / 4096 % 4096
  if !s.served then 0
  else match off / 4 % 8 with
    | 2 => (s.chan c).head.toNat
    | 3 => s.chanStateWord c
    | 5 => if (s.chan c).kind = .fabric then 0 else (s.cq c).next.toNat
    | _ => 0

/-- A 32-bit read of BAR0 (15 R447, R450), or by the host of BAR2 (R466). A register of the CXL component block, which the manual leaves to the CXL standard,
reads as a free value (PRESUMED, log entry 38). -/
def State.readReg (s : State) (a : Acc) (off : Nat) : Nat × State :=
  if 0x2000000 ≤ off ∧ off < 0x2010000 then (s.takeFree.1.toNat % 2 ^ 32, s.takeFree.2)
  else if bar2 ≤ off then (if a = .host then s.readPage (off - bar2) else 0, s)
  else match s.locate off with
  | none => (0, s)
  | some l => s.readLoc a l

/-- `LO_READ`: a read of BAR0 or BAR2; that of a LO register latches its HI (15 R453). -/
def execLoRead (a : Acc) (off : Nat) (s : State) : Host.Outcome State Fault Refusal :=
  done (if !s.on then s else
    let x := s.readReg a off
    x.2.emit (.regRead a (BitVec.ofNat 32 x.1)))

end Sys2Proof.Machine
end

