-- ==== Sys2Proof/Machine/RegWrite.lean ====
section
/-! DEFINITION. Writing registers (15 R451 to R465): aliases, effect classes, ranges, the status registers, and the registers
that start an operation. -/

namespace Sys2Proof.Machine

/-! ## Status registers (15 R462 to R465) -/

/-- The item of the register at an offset of a window. -/
def State.itemAt (s : State) (a : Acc) (w : Win) (n off : Nat) : Nat :=
  match regAt w off with | some r => s.itemOf a w n r.item | none => 0

/-- Set WRITE_IGNORED in the status register of a register (15 R456, R468). -/
def State.noteIgnored (s : State) (a : Acc) (l : RegLoc) (r : RDef) : State :=
  s.ignored l.w (s.itemAt a l.w l.clu r.status) r.status

/-- The event bits of a status register that data selects. -/
def eventMask (r : RDef) (data : Nat) : Nat := data % 2 ^ r.events

/-- A sequence-matched clear (15 R463). -/
def State.statusClearAt (s : State) (w : Win) (item off : Nat) (r : RDef) (data : Nat) : State :=
  let v := s.regGet w item off
  if data / 2 ^ 24 = v / 2 ^ 24 then s.regPut w item off (v - (v &&& eventMask r data)) else s

/-- A test injection (15 R464). -/
def State.statusInjectAt (s : State) (w : Win) (item off : Nat) (r : RDef) (data : Nat) : State :=
  State.statusEvents (s.statusSet w item off (eventMask r data)) w off (eventMask r data) (upTo 24)

/-- A status register that a BAR0 offset leads to, with the place. -/
def State.statusReg (s : State) (off : Nat) : Option (RegLoc × RDef) :=
  match s.locate off with
  | none => none
  | some l =>
    if !s.serves l then none
    else match regAt l.w l.off with
      | some r => if 0 < r.events then some (l, r) else none
      | none => none

/-- `STATUS_CLEAR`: a normal or clear-alias write (15 R463). -/
def execStatusClear (a : Acc) (off : Nat) (data : BitVec 32) (s : State) : Host.Outcome State Fault Refusal :=
  done (match s.statusReg off with
    | some (l, r) => s.statusClearAt l.w (s.itemOf a l.w l.clu r.item) l.off r data.toNat
    | none => s)

/-- `STATUS_SET_INJECT`: a set-alias write (15 R464). -/
def execStatusSetInject (a : Acc) (off : Nat) (data : BitVec 32) (s : State) : Host.Outcome State Fault Refusal :=
  done (match s.statusReg off with
    | some (l, r) => s.statusInjectAt l.w (s.itemOf a l.w l.clu r.item) l.off r data.toNat
    | none => s)

/-- `STATUS_TOGGLE`: ignored, with WRITE_IGNORED (15 R465). -/
def execStatusToggle (a : Acc) (off : Nat) (_data : BitVec 32) (s : State) : Host.Outcome State Fault Refusal :=
  done (match s.statusReg off with
    | some (l, r) => s.noteIgnored a l r
    | none => s)

/-! ## Operations that a write starts -/

/-- The state that a meaning answers. -/
def after (o : Host.Outcome State Fault Refusal) (s : State) : State := match o with | .next t => t | _ => s

/-- The bytes of a channel's native record (05 R139). -/
def State.nativeRecord (s : State) (c : Nat) : List Byte :=
  let r := s.acct c
  leBytes 4 ((s.chan c).gen.toNat * 4096 + c) ++ zeros 4 ++ leBytes 8 r.createTick ++ leBytes 8 r.balTick ++
    r.cyc.flatMap (leBytes 8) ++ r.bytes.flatMap (leBytes 8) ++ leBytes 8 r.energy ++ leBytes 8 r.ended ++
    leBytes 8 r.lostCyc ++ zeros 32

/-- The bytes of a channel's compatibility record (05 R141). -/
def State.compatRecord (s : State) (c : Nat) : List Byte :=
  leBytes 8 (s.acct c).queueWait ++ leBytes 4 (s.acct c).preempts ++ zeros 4

/-- Latch an accounting record into DATA for the accessor (05 R143; 15 R453). -/
def State.snapAcct (s : State) (a : Acc) (chan : Nat) (compat : Bool) : State :=
  s.setAcc a { s.accState a with acct := wordsOf (if compat then s.compatRecord chan else s.nativeRecord chan) 64 }

/-- `ACCT_SNAP`: the write of `GFE_ACCT_SEL` with SNAP (05 R143). -/
def execAcctSnap (a : Acc) (chan : Nat) (compat : Bool) (s : State) : Host.Outcome State Fault Refusal :=
  done (
    if !s.served then s
    else ((s.fldPut .gfe (accNum a) 0x3A0 11 0 chan).fldPut .gfe (accNum a) 0x3A0 12 12 (bit01 compat)).snapAcct a chan compat)

/-- A fence is in use: a wait waits on it, or a signal naming it has been read and not ended (04 R100) (DEDUCED, log entry 53). -/
def State.fenceBusy (s : State) (n : Nat) : Bool :=
  s.gfe.cmds.any (fun d =>
    (slotOp d.slot == 0x09 && fenceNo (op32 d.slot 16) == n && (match d.phase with | .waiting _ => true | _ => false)) ||
    s.signals n d.slot) ||
  s.chans.any (fun x => match x.2.ctxWait with | some w => s.signals n w.slot | none => false)

/-- A fence write was ignored. -/
def State.fenceIgnored (s : State) : State := s.ignored .gfe 0 0x298

/-- `GFE_FENCE_RESET`: the counter is 0, the generation advances, EXTERNAL and pending writes are gone (04 R100; 15 R458). -/
def execGfeFenceReset (a : Acc) (gen : BitVec 20) (s : State) : Host.Outcome State Fault Refusal :=
  done (
    if !s.served then s
    else
      let n := s.selFence a
      let f := s.fence n
      if f.gen ≠ gen ∨ s.fenceBusy n = true then s.fenceIgnored
      else
        let k := regKey .gfe n 0x294
        let s1 := (s.setFence n ⟨0, f.gen + 1⟩).fldPut .gfe n 0x294 0 0 0
        { s1 with reg := { s1.reg with pend := s1.reg.pend.filter (fun p => p.key != k) } })

/-- `GFE_FENCE_ADD`: the host adds to the selected fence (04 R102, R107, R116). -/
def execGfeFenceAdd (a : Acc) (add : BitVec 32) (s : State) : Host.Outcome State Fault Refusal :=
  done (
    if !s.served then s
    else
      let n := s.selFence a
      let v := (s.fence n).val.toNat + add.toNat
      if add = 0 ∨ 2 ^ 64 ≤ v then s.fenceIgnored else s.setFenceVal n v)

/-- An operation of `GFE_CHAN_CMD` (03 R93). -/
def State.chanCmd (s : State) (a : Acc) (op : Nat) (gen : BitVec 20) : State :=
  match op with
  | 1 => after (execCreate a gen s) s
  | 2 => after (execActivate a gen s) s
  | 3 => after (execPause a gen s) s
  | 4 => after (execResume a gen s) s
  | 5 => after (execDestroy a gen s) s
  | 6 => after (execReattach a gen s) s
  | _ => s.chanIgnored (s.selChan a)

/-- What a normal-alias write to a register with WO fields starts (15 R455). END of `SEC_REC_CTRL` has its own command, which
says what the core finds in the loaded words (DESIGN CHOICE, log entry 34). -/
def State.startOps (s : State) (a : Acc) (l : RegLoc) (data : Nat) : State :=
  let lo := data % 2
  match l.w, l.off with
  | .gfe, 0x204 => s.chanCmd a (data % 16) (BitVec.ofNat 20 (data / 4096))
  | .gfe, 0x284 => if lo = 1 then after (execGfeFenceReset a (BitVec.ofNat 20 (data / 4096)) s) s else s
  | .gfe, 0x290 => after (execGfeFenceAdd a (BitVec.ofNat 32 data) s) s
  | .gfe, 0x3A0 => if data.testBit 31 then s.snapAcct a (data % 4096) (data.testBit 12) else s
  | .gfe, 0x514 => if lo = 1 then after (execGfeScaleClearHist a s) s else s
  | .tbl, 0x010 => if lo = 1 then after (execFoldNow a s) s else s
  | .mem, 0x068 => if data.testBit 31 then s.startMargin a else s
  | .int, 0x028 =>
    (match data % 4 with
     | 1 => after (execIntCluRetire a s) s
     | 2 => after (execIntCluSuspect a s) s
     | _ => s.ignored .int 0 0x000)
  | .int, 0x070 => if data.testBit 31 then after (execIntLogSnap a (data % 65536) s) s else s
  | .sec, 0x014 =>
    (match data % 4 with
     | 1 => after (execSecUpdFirmware a s) s
     | 2 => after (execSecUpdConfig a s) s
     | _ => s.secIgnored)
  | .sec, 0x01C => after (execSecReset a (BitVec.ofNat 8 data) (data.testBit 8) s) s
  | .sec, 0x020 => if lo = 1 then after (execSecRecBegin a (data.testBit 2) s) s else s
  | .sec, 0x024 => after (execSecRecData a (BitVec.ofNat 32 data) s) s
  | .clu, 0x218 => if lo = 1 then after (execStrCtrlDisarm a l.clu s) s else s
  | _, _ => s

/-! ## Ranges, enables and conditions (15 R456, R460) -/

/-- An event number that the manual reserves (12 R370; 13 R414; 14 R444; 16 R502). -/
def eventReserved (e : Nat) : Bool :=
  !(decide (e ≤ 7) || decide (16 ≤ e ∧ e ≤ 18) || decide (32 ≤ e ∧ e ≤ 36) || decide (64 ≤ e ∧ e ≤ 73) ||
    decide (128 ≤ e ∧ e ≤ 133) || decide (192 ≤ e ∧ e ≤ 205))

/-- A mask of a partition names only enabled clusters, none of another partition (05 R120). -/
def State.maskOk (s : State) (off v : Nat) : Bool :=
  let p := (off - 0x320) / 8
  let hi := (off - 0x320) / 4 % 2
  decide (v * 2 ^ (32 * hi) < 2 ^ s.nClus) &&
  (upTo 8).all (fun q => q == p || s.regGet .gfe 0 (0x320 + 8 * q + 4 * hi) &&& v == 0)

/-- A value lies in the range of its field (15 R456 and the register tables) (DEDUCED, log entry 43). -/
def State.fieldOk (s : State) (w : Win) (item off lsb v : Nat) : Bool :=
  match w with
  | .gfe =>
    if 0x120 ≤ off ∧ off < 0x140 then decide (v ≤ 100)
    else if 0x320 ≤ off ∧ off < 0x360 then s.maskOk off v
    else (match off, lsb with
      | 0x100, 0 => decide (20 ≤ v ∧ v ≤ 2000)
      | 0x114, 1 => decide (v ≠ 3)
      | 0x114, 3 => decide (v ≤ 127)
      | 0x210, 0 => decide (6 ≤ v ∧ v ≤ 16)
      | 0x218, 0 => decide (v ≤ 16384)
      | 0x238, 0 => decide (6 ≤ v ∧ v ≤ 16)
      | 0x368, 8 => decide (v ≠ 0)
      | 0x504, 0 => decide (1 ≤ v ∧ v ≤ 16)
      | 0x504, 12 => decide (v ≤ 8)
      | 0x508, 0 => okScale v
      | _, _ => true)
  | .tbl => if off = 0x004 ∧ lsb = 0 then decide (1 ≤ v ∧ v ≤ 100) else true
  | .mem => (match off, lsb with
      | 0x004, 0 => decide (1 ≤ v ∧ v ≤ 100)
      | 0x004, 16 => decide (v ≠ 0)
      | 0x008, 0 => decide (v ≠ 0)
      | 0x008, 12 => decide (v ≠ 0)
      | _, _ => true)
  | .cxl => (match off, lsb with
      | 0x020, 0 => decide (v ≠ 0)
      | 0x04C, 0 => v == 0 || s.bindable (s.regGet .cxl item 0x044)
      | 0x064, 16 => v == 0 || !eventReserved item
      | _, _ => true)
  | .fab =>
    if 0x040 ≤ off ∧ off < 0x060 ∧ lsb = 1 then decide (v ≠ 3)
    else (match off, lsb with
      | 0x014, 0 => decide (v ≠ 0)
      | 0x014, 12 => decide (v ≠ 0)
      | 0x014, 16 => decide (64 ≤ v ∧ v ≤ 8192)
      | _, _ => true)
  | .int => (match off, lsb with
      | 0x004, 1 => decide (60 ≤ v)
      | 0x004, 16 => decide (100 ≤ v ∧ v ≤ 4000)
      | 0x014, 0 => decide (v ≠ 0)
      | 0x014, 4 => decide (v ≠ 0)
      | 0x020, 0 => decide (v ≤ 67)
      | _, _ => true)
  | .pwr => (match off, lsb with
      | 0x00C, 0 => decide (100 ≤ v ∧ v ≤ 1200)
      | 0x018, 0 => decide (v ≠ 0)
      | _, _ => true)
  | .mon => (match off, lsb with
      | 0x004, 0 => decide (v ≤ 143)
      | 0x01C, 0 => decide (v ≤ 67)
      | _, _ => true)
  | .sec => true
  | .clu => if off = 0x194 ∧ lsb = 0 then decide (v ≤ 4) else true

/-- The enable that stands over a register's D-class fields is clear (15 R460). -/
def State.enableClear (s : State) (w : Win) (item off : Nat) : Bool :=
  match w with
  | .gfe =>
    if off = 0x114 then s.fld .gfe 0 0x114 0 0 == 0
    else if 0x320 ≤ off then s.fld .gfe 0 (0x300 + 4 * ((off - 0x320) / 8)) 0 0 == 0
    else (match (s.chan item).state with | .created => true | .paused _ => true | _ => false)
  | .mem => s.targetState item == 2
  | .cxl => s.fld .cxl item 0x04C 0 0 == 0
  | .fab => if 0x040 ≤ off then s.fld .fab 0 off 0 0 == 0 else s.fld .fab 0 0x000 0 0 == 0
  | _ => true

/-- A D-class field of a FABRIC channel (03 R56). -/
def State.fabricField (s : State) (w : Win) (item off : Nat) : Bool :=
  w == .gfe && decide (0x208 ≤ off) && decide (off ≤ 0x238) && (s.chan item).kind == .fabric

/-- The value that an alias writes to a field (15 R455). -/
def aliasVal (als old data : Nat) : Nat :=
  match als with
  | 0 => data
  | 1 => old ||| data
  | 2 => old - (old &&& data)
  | _ => old ^^^ data

/-- What becomes of one field of a write: the value that it takes, if any, and whether the write is ignored for it
(DEDUCED, log entry 43). -/
def State.planField (s : State) (l : RegLoc) (item data : Nat) (f : RField) : Option Nat × Bool :=
  let d := bitsOf data f.msb f.lsb
  match f.acc with
  | .ro => (none, false)
  | .sc => (none, false)
  | .wo => (none, l.als != 0)
  | .rw =>
    let cur := s.fld l.w item l.off f.msb f.lsb
    let v := aliasVal l.als (if f.eff = .t then bitsOf (s.pendVal l.w item l.off) f.msb f.lsb else cur) d
    if f.eff = .d ∧ s.fabricField l.w item l.off = true then (none, true)
    else if f.eff = .d ∧ s.enableClear l.w item l.off = false then (none, v != cur)
    else if s.fieldOk l.w item l.off f.lsb v then (some v, false)
    else (none, true)

/-- A planned write: each field with the value that it takes, if any. -/
abbrev Plan := List (RField × Option Nat)

/-- The value of a field after a plan, pending values included. -/
def State.planned (s : State) (w : Win) (item off : Nat) (p : Plan) (msb lsb : Nat) : Nat :=
  match (p.find? (fun x => x.1.lsb == lsb)) with
  | some (_, some v) => v
  | _ => bitsOf (s.pendVal w item off) msb lsb

/-- The conditions that relate several fields and ignore the whole write (15 R456; 05 R134; 09 R281; 10 R331)
(DEDUCED, log entry 43). -/
def State.planBad (s : State) (w : Win) (item off : Nat) (p : Plan) : Bool :=
  let f := s.planned w item off p
  match w, off with
  | .gfe, 0x360 => decide (8192 < f 13 0 + f 29 16 + bitsOf (s.pendVal .gfe 0 0x364) 13 0 + bitsOf (s.pendVal .gfe 0 0x364) 29 16)
  | .gfe, 0x364 => decide (8192 < f 13 0 + f 29 16 + bitsOf (s.pendVal .gfe 0 0x360) 13 0 + bitsOf (s.pendVal .gfe 0 0x360) 29 16)
  | .tbl, 0x004 => decide (f 6 0 ≤ f 14 8)
  | .mem, 0x004 => decide (f 6 0 ≤ f 14 8)
  | .mem, 0x060 => false
  | _, _ => false

/-- `MEM_TGT_SEL`: an index beyond the 64 store-room channels is ignored (10 R331). -/
def planTgt (w : Win) (off : Nat) (kind : Nat) (x : RField × Option Nat × Bool) : RField × Option Nat × Bool :=
  match w, off, x with
  | .mem, 0x060, (f, some v, b) => if f.lsb = 1 ∧ kind = 1 ∧ 63 < v then (f, none, true) else (f, some v, b)
  | _, _, y => y

/-- Write the fields of a plan: those of class T become one pending write, the others take effect now (15 R457, R460, R461). -/
def State.applyPlan (s : State) (w : Win) (item off : Nat) (p : Plan) : State :=
  let now := p.foldl (fun t x => match x with
    | (f, some v) => if f.eff = .t then t else t.fldPut w item off f.msb f.lsb v
    | _ => t) s
  let mask := p.foldl (fun m x => if x.1.eff = .t ∧ x.2.isSome = true then m + maskOf x.1.msb x.1.lsb else m) 0
  let val := p.foldl (fun m x => match x with
    | (f, some v) => if f.eff = .t then m + v * 2 ^ f.lsb else m
    | _ => m) 0
  if mask = 0 then now else now.latchT (regKey w item off) mask val

/-! ## Effects of particular fields -/

/-- The flows go on when the fabric is enabled (13 R399, R414). -/
def State.fabOn (s : State) : State := s.moveFlows.pumpAll

/-- What fields that have taken effect at once change besides themselves; `old` is the state before the write
(DEDUCED, log entry 43). -/
def State.afterWrite (old s : State) (w : Win) (item off : Nat) (p : Plan) : State :=
  let wrote := p.any (fun x => x.1.eff != .t && x.2.isSome)
  let pausedNow : Bool := match (s.chan item).state with | .paused _ => true | _ => false
  if !wrote then s
  else match w with
  | .gfe =>
    if off = 0x114 then s.tsControl
    else if pausedNow && (off == 0x208 || off == 0x20C || off == 0x210) then
      s.setChan item { s.chan item with
        ringWritten := true, ringOld := if (s.chan item).ringWritten then (s.chan item).ringOld else old.ringRegs item }
    else if pausedNow && (off == 0x230 || off == 0x234 ||
        (off == 0x238 && s.fld .gfe item 0x238 4 0 != old.fld .gfe item 0x238 4 0)) then
      s.setChan item { s.chan item with cqWritten := true }
    else s
  | .fab =>
    if off = 0x000 then (if s.fld .fab 0 0x000 0 0 = 1 ∧ old.fld .fab 0 0x000 0 0 = 0 then s.fabOn else s)
    else if 0x040 ≤ off ∧ off < 0x060 then
      let k := (off - 0x040) / 4
      if s.fld .fab 0 off 0 0 = 1 then after (execPortEnable k s) s else after (execPortDisable k s) s
    else s
  | _ => s

/-! ## A write (15 R451, R455, R456) -/

/-- A 32-bit write to a register that is not a status register. -/
def State.writeFields (s : State) (a : Acc) (l : RegLoc) (r : RDef) (data : Nat) : State :=
  let item := s.itemOf a l.w l.clu r.item
  let plan0 := r.fields.map (fun f => (f, s.planField l item data f))
  let kind := match plan0 with | (_, some v, _) :: _ => v | _ => 0
  let plan := plan0.map (planTgt l.w l.off kind)
  let p : Plan := plan.map (fun x => (x.1, x.2.1))
  if s.planBad l.w item l.off p then s.noteIgnored a l r
  else
    let s1 := (s.applyPlan l.w item l.off p)
    let s2 := State.afterWrite s s1 l.w item l.off p
    let s3 := if plan.any (fun x => x.2.2) then s2.noteIgnored a l r else s2
    if l.als = 0 then s3.startOps a l data else s3

/-- A 32-bit write to a place of BAR0: reserved and unlisted offsets discard it (15 R447, R450). -/
def State.writeLoc (s : State) (a : Acc) (l : RegLoc) (data : Nat) : State :=
  match regAt l.w l.off with
  | none => s
  | some r =>
    if r.events = 0 then s.writeFields a l r data
    else
      let item := s.itemOf a l.w l.clu r.item
      match l.als with
      | 0 => s.statusClearAt l.w item l.off r data
      | 2 => s.statusClearAt l.w item l.off r data
      | 1 => s.statusInjectAt l.w item l.off r data
      | _ => s.noteIgnored a l r

/-- A 32-bit write of BAR0. -/
def State.writeReg (s : State) (a : Acc) (off data : Nat) : State :=
  match s.locate off with
  | none => s
  | some l => if s.serves l then s.writeLoc a l data else s

/-- A write of a size that BAR0 does not serve: WRITE_IGNORED in the status register of the first register (15 R451). -/
def State.writeBadSize (s : State) (a : Acc) (off : Nat) : State :=
  match s.locate off with
  | none => s
  | some l =>
    if !s.serves l then s
    else match regAt l.w l.off with | none => s | some r => s.noteIgnored a l r

/-- `REGISTER_WRITE` (15 R451, R455): a 64-bit write is two, the lower address first, each in a cycle of its own. -/
def execRegisterWrite (a : Acc) (off : Nat) (data : BitVec 64) (size : AccessSize) (s : State) : Host.Outcome State Fault Refusal :=
  done (
    if !s.on then s
    else match size with
      | .word => s.writeReg a off (data.toNat % 2 ^ 32)
      | .dword => ((s.writeReg a off (data.toNat % 2 ^ 32)).endStep).writeReg a (off + 4) (data.toNat / 2 ^ 32)
      | .narrow => s.writeBadSize a off
      | .wide => s.writeBadSize a off)

end Sys2Proof.Machine
end

