-- ==== Sys2Proof/Machine/Sideband.lean ====
section
/-! DEFINITION. The management sideband (17 R508, R509, R511 to R516): pins, MCTP control, the command set, and SPDM (16 R497,
R498). -/

namespace Sys2Proof.Machine

/-! ## Pins (17 R508, R509, R511) -/

/-- `CLK10M_QUALIFIED`: 100 ms of edges in range (17 R508). -/
def execClk10mQualified (s : State) : Host.Outcome State Fault Refusal :=
  done (if !s.on then s else { s with sb := { s.sb with clk10m := true } })

/-- `CLK10M_LOSS`: back to the module's own oscillator (17 R508). -/
def execClk10mLoss (s : State) : Host.Outcome State Fault Refusal :=
  done (if !s.on then s else { s with sb := { s.sb with clk10m := false } })

/-- The sideband answers: from the end of boot step 2 (17 R511). -/
def State.sbAnswers (s : State) : Bool := s.on && decide (2 ≤ s.sec.step)

/-- `DYNAMIC_ADDRESS_ASSIGN`: SETDASA or ENTDAA (17 R511). -/
def execDynamicAddressAssign (addr : BitVec 7) (s : State) : Host.Outcome State Fault Refusal :=
  done (if !s.sbAnswers then s else { s with sb := { s.sb with dynAddr := some addr } })

/-- `I3C_BUS_RESET`: the target logic is reset, its dynamic address with it (17 R508; DEDUCED, log entry 35). -/
def execI3cBusReset (s : State) : Host.Outcome State Fault Refusal :=
  done (if !s.on then s else { s with sb := { s.sb with dynAddr := none } })

/-- `MCTP_MESSAGE_TIMEOUT`: an incomplete message is discarded; a message becomes a command only when it is complete, so the
state holds nothing of it (17 R508; DEDUCED, log entry 35). -/
def execMctpMessageTimeout (s : State) : Host.Outcome State Fault Refusal := done s

/-! ## MCTP control (17 R512) -/

/-- Answer an MCTP control command: message type 0, its code, then completion code and data (PRESUMED, log entry 36). -/
def State.mctpAnswer (s : State) (code : Nat) (data : List Byte) : State :=
  s.emit (.sideband ([0, 0] ++ leBytes 1 code ++ data))

/-- `SET_ENDPOINT_ID`: 0 and 255 are no endpoint IDs (17 R512; PRESUMED, log entry 36). -/
def execSetEndpointId (eid : BitVec 8) (s : State) : Host.Outcome State Fault Refusal :=
  done (
    if !s.sbAnswers then s
    else if eid = 0 ∨ eid = 255 then s.mctpAnswer 1 [2]
    else (State.mctpAnswer { s with sb := { s.sb with eid := eid } } 1 [0, 0, eid, 0]))

/-- `GET_ENDPOINT_ID` (17 R512). -/
def execGetEndpointId (s : State) : Host.Outcome State Fault Refusal :=
  done (if !s.sbAnswers then s else s.mctpAnswer 2 [0, s.sb.eid, 0, 0])

/-- `GET_MCTP_VERSION_SUPPORT`: the supported types are 0x05 and 0x7F, beside the base and control types; the version number is
a free value (17 R512; PRESUMED, log entry 36). -/
def execGetMctpVersionSupport (msgType : BitVec 8) (s : State) : Host.Outcome State Fault Refusal :=
  done (
    if !s.sbAnswers then s
    else if msgType = 255 ∨ msgType = 0 ∨ msgType = 0x05 ∨ msgType = 0x7F then
      let x := s.takeFree
      x.2.mctpAnswer 4 ([0, 1] ++ leBytes 4 x.1.toNat)
    else s.mctpAnswer 4 [0x80])

/-- `GET_MESSAGE_TYPE_SUPPORT`: 0x05 and 0x7F (17 R512). -/
def execGetMessageTypeSupport (s : State) : Host.Outcome State Fault Refusal :=
  done (if !s.sbAnswers then s else s.mctpAnswer 5 [0, 2, 0x05, 0x7F])

/-- `GET_ENDPOINT_UUID`: derived from the device ID, by a derivation that the manual does not give (17 R512; DESIGN CHOICE, log entry 40). -/
def execGetEndpointUuid (s : State) : Host.Outcome State Fault Refusal :=
  done (if !s.sbAnswers then s else s.mctpAnswer 3 ([0] ++ padTo 16 (Config.cryptoBytes 20 (s.sec.devHash.take 8))))

/-! ## SPDM (16 R496 to R498) -/

/-- A path carries SPDM: MCTP while the sideband answers, DOE while the host link is UP (16 R497). -/
def State.spdmOpen (s : State) (p : SpdmPath) : Bool :=
  match p with | .mctp => s.sbAnswers | .doe => s.on && s.linkUp

/-- How far the negotiation of a path has got: 1 version, 2 capabilities, 3 algorithms. -/
def State.spdmStage (s : State) (p : SpdmPath) : Nat := match p with | .mctp => s.sb.spdmMctp | .doe => s.sb.spdmDoe

/-- Set how far the negotiation of a path has got. -/
def State.setStage (s : State) (p : SpdmPath) (n : Nat) : State :=
  match p with
  | .mctp => { s with sb := { s.sb with spdmMctp := n } }
  | .doe => { s with sb := { s.sb with spdmDoe := n } }

/-- Answer ERROR with a code of the standard: 1 invalid, 4 unexpected, 5 unspecified (PRESUMED, log entry 36). -/
def State.spdmError (s : State) (p : SpdmPath) (code : Nat) : State := s.emit (.spdm p ([0x12, 0x7F] ++ leBytes 1 code ++ [0]))

/-- A request that needs the negotiation to stand at a stage (PRESUMED, log entry 36). -/
def State.spdmAt (s : State) (p : SpdmPath) (n : Nat) (f : State → State) : State :=
  if !s.spdmOpen p then s else if s.spdmStage p < n then s.spdmError p 4 else f s

/-- `GET_VERSION`: version 1.2 (16 R497). -/
def execGetVersion (path : SpdmPath) (s : State) : Host.Outcome State Fault Refusal :=
  done (s.spdmAt path 0 (fun t => (t.setStage path 1).emit (.spdm path [0x10, 0x04, 0, 0, 0, 1, 0x00, 0x12])))

/-- `GET_CAPABILITIES`: CERT_CAP, CHAL_CAP, and MEAS_CAP with signature (16 R497). -/
def execGetCapabilities (path : SpdmPath) (s : State) : Host.Outcome State Fault Refusal :=
  done (s.spdmAt path 1 (fun t =>
    let x := t.takeFree
    (x.2.setStage path 2).emit (.spdm path ([0x12, 0x61, 0, 0, 0] ++ leBytes 1 x.1.toNat ++ [0, 0] ++ leBytes 4 0x16 ++
      leBytes 4 1024 ++ leBytes 4 1024))))

/-- `NEGOTIATE_ALGORITHMS`: ECDSA P-256 and SHA-256, if the requester offers them (16 R497). -/
def execNegotiateAlgorithms (path : SpdmPath) (p256 sha256 : Bool) (s : State) : Host.Outcome State Fault Refusal :=
  done (s.spdmAt path 2 (fun t =>
    if !p256 || !sha256 then t.spdmError path 1
    else (t.setStage path 3).emit (.spdm path ([0x12, 0x63, 0, 0] ++ leBytes 2 36 ++ [1, 0] ++ leBytes 4 2 ++ leBytes 4 0x10 ++
      leBytes 4 1 ++ zeros 16))))

/-- The certificate chain of slot 0 (16 R497; DESIGN CHOICE, log entry 40). -/
def certChain : List Byte := Config.cryptoBytes 2 []

/-- `GET_DIGESTS`: of slot 0 (16 R497). -/
def execGetDigests (path : SpdmPath) (s : State) : Host.Outcome State Fault Refusal :=
  done (s.spdmAt path 3 (fun t =>
    t.emit (.spdm path ([0x12, 0x01, 0, 1] ++ sha256 certChain))))

/-- `GET_CERTIFICATE`: a portion of the chain of slot 0 (16 R497). -/
def execGetCertificate (path : SpdmPath) (slot offset length : Nat) (s : State) : Host.Outcome State Fault Refusal :=
  done (s.spdmAt path 3 (fun t =>
    if slot ≠ 0 ∨ certChain.length < offset then t.spdmError path 1
    else
      let part := (certChain.drop offset).take length
      t.emit (.spdm path ([0x12, 0x02, 0, 0] ++ leBytes 2 part.length ++
        leBytes 2 (certChain.length - offset - part.length) ++ part))))

/-- A signature by the identity key over what has been exchanged (16 R496; DESIGN CHOICE, log entry 40). -/
def signature (heard : List Byte) : List Byte := padTo 64 (Config.cryptoBytes 3 heard)

/-- A random number of 32 bytes (16 R497): free, from a free value (DESIGN CHOICE, log entries 4, 40). -/
def randomNumber (x : W64) : List Byte := padTo 32 (Config.cryptoBytes 4 (leBytes 8 x.toNat))

/-- `CHALLENGE`: needs the identity key (16 R496, R497). -/
def execChallenge (path : SpdmPath) (slot : Nat) (nonce : List Byte) (s : State) : Host.Outcome State Fault Refusal :=
  done (s.spdmAt path 3 (fun t =>
    if slot ≠ 0 then t.spdmError path 1
    else if !t.sec.idOk then t.spdmError path 5
    else
      let x := t.takeFree
      let body := [0x12, 0x03, 0, 1] ++ sha256 certChain ++ randomNumber x.1 ++ leBytes 2 0
      x.2.emit (.spdm path (body ++ signature (body ++ nonce)))))

/-- The digest of a measurement: of the boot ROM and of the firmware, whose bytes are not here (DESIGN CHOICE, log entry 40), of the
running configuration image, and of the enabled-slot map as 9 bytes (16 R498). -/
def State.measured (s : State) (i : Nat) : List Byte :=
  match i with
  | 1 => padTo 32 (Config.cryptoBytes 11 (leBytes 1 Config.stepping.toNat))
  | 2 => padTo 32 (Config.cryptoBytes 12
      (match s.sec.fwRun with | some f => leBytes 2 f.version ++ leBytes 1 f.svn | none => []))
  | 3 => (match s.sec.cfg with | some c => padTo 32 c.digest | none => padTo 32 (Config.cryptoBytes 13 []))
  | _ => sha256 (leBytes 9 ((upTo 68).foldl (fun m p => if (s.pslot p).logical.isSome then m + 2 ^ p else m) 0))

/-- A measurement in the DMTF format: a SHA-256 digest (16 R498). -/
def State.measurement (s : State) (i : Nat) : List Byte :=
  leBytes 1 i ++ [1] ++ leBytes 2 35 ++ leBytes 1 (if i = 1 then 0x80 else i) ++ leBytes 2 32 ++ s.measured i

/-- `GET_MEASUREMENTS`: their count for index 0, one, or all of them for index 255; a signature needs the identity key (16 R496,
R498). -/
def execGetMeasurements (path : SpdmPath) (index : Nat) (sign : Bool) (nonce : List Byte) (s : State) :
    Host.Outcome State Fault Refusal :=
  done (s.spdmAt path 3 (fun t =>
    if sign && !t.sec.idOk then t.spdmError path 5
    else if 4 < index ∧ index ≠ 255 then t.spdmError path 1
    else
      let is := if index = 0 then [] else if index = 255 then [1, 2, 3, 4] else [index]
      let rec' := is.flatMap t.measurement
      let x := t.takeFree
      let body := [0x12, 0x60] ++ leBytes 1 (if index = 0 then 4 else 0) ++ [0] ++ leBytes 1 is.length ++ leBytes 3 rec'.length ++
        rec' ++ randomNumber x.1 ++ leBytes 2 0
      x.2.emit (.spdm path (body ++ (if sign then signature (body ++ nonce) else [])))))

/-! ## The command set (17 R513 to R516) -/

/-- Answer a command of message type 0x7F (17 R513). -/
def State.sbAnswer (s : State) (cmd : Nat) (inst : Byte) (cc : Nat) (data : List Byte) : State :=
  s.emit (.sideband ([0x7F, 0x00, 0x01, 0xE8, 0xC5] ++ leBytes 1 cmd ++ [inst] ++ leBytes 1 cc ++ data))

/-- Serve a command: not in recovery but for 0x01 and 0x02, and only with a request of its length (17 R513, R514). -/
def State.sbServe (s : State) (cmd : Nat) (inst : Byte) (req : List Byte) (len : Nat) (f : State → State) : State :=
  if !s.sbAnswers then s
  else if s.sec.recovery && decide (2 < cmd) then s.sbAnswer cmd inst 6 []
  else if req.length ≠ len then s.sbAnswer cmd inst 2 []
  else f s

/-- The ordering code, `AUL-JX8-RG64`, padded with spaces (00 R2; 17 R514). -/
def orderingCode : List Byte :=
  [0x41, 0x55, 0x4C, 0x2D, 0x4A, 0x58, 0x38, 0x2D, 0x52, 0x47, 0x36, 0x34, 0x20, 0x20, 0x20, 0x20]

/-- A cluster or capacity field, 0 until boot step 10 (17 R511). -/
def State.sbCap (s : State) (v : Nat) : Nat := if s.sec.step < 10 then 0 else v

/-- The bytes of `GET_IDENTITY` (17 R514). -/
def State.identity (s : State) : List Byte :=
  orderingCode ++ (upTo 16).map Config.serialByte ++ padTo 8 (s.sec.devHash.take 8) ++ leBytes 4 s.fwWord ++
    leBytes 4 s.cfgSerial ++ leBytes 2 s.fab.moduleId ++ leBytes 4 (s.sbCap (s.roGfeA 0 0x000))

/-- `GET_IDENTITY` (17 R514). -/
def execGetIdentity (inst : Byte) (req : List Byte) (s : State) : Host.Outcome State Fault Refusal :=
  done (s.sbServe 1 inst req 0 (fun t => t.sbAnswer 1 inst 0 t.identity))

/-- Physical slots in a state. -/
def State.slotsIn (s : State) (st : SlotState) : Nat := ((upTo 68).filter (fun p => (s.pslot p).state == st)).length

/-- The bytes of `GET_STATUS` (17 R514). -/
def State.statusBytes (s : State) : List Byte :=
  leBytes 4 s.supplyCode ++ leBytes 4 (s.roPwr 0x004) ++ leBytes 4 (s.roMon 0 0x00C) ++ leBytes 4 (s.roMon 0 0x010) ++
    leBytes 4 (s.roSec 0x004) ++ leBytes 4 (s.roCxl 0x000) ++
    (upTo 8).flatMap (fun p => leBytes 4 (s.roFab 0 (0x060 + 4 * p))) ++
    [SlotState.disabled, .serving, .testResidency, .suspect, .retired].flatMap (fun st => leBytes 1 (s.sbCap (s.slotsIn st))) ++
    [0x010, 0x018, 0x020].flatMap (fun off => leBytes 4 (s.sbCap (s.roMem .sideband 0 off))) ++
    leBytes 1 (bit01 s.sb.clk10m) ++ leBytes 1 s.sb.erasing

/-- `GET_STATUS` (17 R514). -/
def execGetStatus (inst : Byte) (req : List Byte) (s : State) : Host.Outcome State Fault Refusal :=
  done (s.sbServe 2 inst req 0 (fun t => t.sbAnswer 2 inst 0 t.statusBytes))

/-- The register that shows a sensor of a kind, and how many there are of it (17 R514; 16 R503). -/
def sensorReg (kind : Nat) : Option (Nat × Nat) :=
  match kind with | 0 => some (0x008, 144) | 1 => some (0x018, 64) | 2 => some (0x020, 68) | _ => none

/-- `READ_SENSOR` (17 R514). -/
def execReadSensor (inst : Byte) (req : List Byte) (s : State) : Host.Outcome State Fault Refusal :=
  done (s.sbServe 3 inst req 2 (fun t =>
    let ix := leField req 1 1
    match sensorReg (leField req 0 1) with
    | none => t.sbAnswer 3 inst 3 []
    | some (off, n) => if n ≤ ix then t.sbAnswer 3 inst 3 [] else t.sbAnswer 3 inst 0 (leBytes 4 (t.roMon ix off))))

/-- A BAR0 offset that a request may name (17 R514, R515). -/
def bar0Ok (off : Nat) : Bool := decide (off < 2 ^ 26) && off % 4 == 0

/-- `READ_REG`: a BAR0 read with the sideband's own selection and latches (17 R515). -/
def execReadReg (inst : Byte) (req : List Byte) (s : State) : Host.Outcome State Fault Refusal :=
  done (s.sbServe 4 inst req 4 (fun t =>
    let off := leField req 0 4
    if !bar0Ok off then t.sbAnswer 4 inst 3 []
    else
      let x := t.readReg .sideband off
      x.2.sbAnswer 4 inst 0 (leBytes 4 x.1)))

/-- `WRITE_REG`: a BAR0 write (17 R515). -/
def execWriteReg (inst : Byte) (req : List Byte) (s : State) : Host.Outcome State Fault Refusal :=
  done (s.sbServe 5 inst req 8 (fun t =>
    let off := leField req 0 4
    if !bar0Ok off then t.sbAnswer 5 inst 3 []
    else (t.writeReg .sideband off (leField req 4 4)).sbAnswer 5 inst 0 []))

/-- `READ_LOG`: records of the ring, newest first (17 R514; DEDUCED, log entry 37). -/
def execReadLog (inst : Byte) (req : List Byte) (s : State) : Host.Outcome State Fault Refusal :=
  done (s.sbServe 6 inst req 3 (fun t =>
    let first := leField req 0 2
    let n := leField req 2 1
    if n = 0 ∨ 15 < n ∨ 65536 < first + n then t.sbAnswer 6 inst 3 []
    else t.sbAnswer 6 inst 0 ((upTo n).flatMap (fun i => t.logRecord (first + i)))))

/-- The retirement table as entries of 16 bytes, slots before frames (14 R441; DEDUCED, log entry 37). -/
def State.retireTable (s : State) : List (List Byte) :=
  s.integ.retireSlots.map (fun p => padTo 16 (Config.retireEntry 0 p)) ++
  s.integ.retireFrames.map (fun f => padTo 16 (Config.retireEntry 1 f))

/-- `READ_RETIRE` (17 R514; DEDUCED, log entry 37). -/
def execReadRetire (inst : Byte) (req : List Byte) (s : State) : Host.Outcome State Fault Refusal :=
  done (s.sbServe 7 inst req 3 (fun t =>
    let first := leField req 0 2
    let n := leField req 2 1
    if n = 0 ∨ 64 < n ∨ t.retireTable.length < first + n then t.sbAnswer 7 inst 3 []
    else t.sbAnswer 7 inst 0 (((t.retireTable.drop first).take n).flatMap id)))

/-- `ERASE_RETIRE`: acknowledged, and done in the background (17 R514, R516). -/
def execEraseRetire (inst : Byte) (req : List Byte) (s : State) : Host.Outcome State Fault Refusal :=
  done (s.sbServe 8 inst req 4 (fun t =>
    if leField req 0 4 ≠ 0x45524153 then t.sbAnswer 8 inst 3 []
    else if t.sb.erasing = 1 then t.sbAnswer 8 inst 4 []
    else if t.sup.inhibit then t.sbAnswer 8 inst 5 []
    else (State.sbAnswer { t with sb := { t.sb with erasing := 1 } } 8 inst 0 [])))

/-- `ERASE_COMPLETE`: the table is empty from then on, which the slots and frames see at the next power-on; a failure leaves
it whole (17 R516) (DEDUCED, log entry 56). -/
def execEraseComplete (ok : Bool) (s : State) : Host.Outcome State Fault Refusal :=
  done (
    if !s.on || s.sb.erasing != 1 then s
    else if ok then
      { s with sb := { s.sb with erasing := 2 }, integ := { s.integ with retireSlots := [], retireFrames := [] } }
    else { s with sb := { s.sb with erasing := 3 } })

/-- `WARM_RESET` (17 R514, R516; 16 R499). -/
def execWarmReset (inst : Byte) (req : List Byte) (s : State) : Host.Outcome State Fault Refusal :=
  done (s.sbServe 9 inst req 1 (fun t =>
    if leField req 0 1 ≠ 0xA5 then t.sbAnswer 9 inst 3 []
    else if t.sec.warm then t.sbAnswer 9 inst 4 []
    else t.warmStart.sbAnswer 9 inst 0 []))

end Sys2Proof.Machine
end

