-- ==== Sys2Proof/Machine/Tick.lean ====
section
/-! DEFINITION. The serving tick: the cutoff of host commit phases (02 R39), the boundary work of a guard band (R43), the edge,
and what the clock does while no command waits (DESIGN CHOICE, log entry 5). -/

namespace Sys2Proof.Machine

/-! ## The cutoff (02 R39) -/

/-- The tick goes on to its cutoff, if that has not passed. -/
def State.runCutoff (s : State) : State := if s.clk.stage = .early then (s.toCycle s.cutoff).cutoffWork else s

/-- `HOST_COMMIT_CUTOFF` (02 R39). -/
def execHostCommitCutoff (s : State) : Host.Outcome State Fault Refusal := done (if !s.on then s else s.runCutoff)

/-! ## Realignment (02 R51) -/

/-- The offset of the last edge that a realignment corrects, in ns: that of an edge that a guard stretch has delayed, or the
filtered one. -/
def State.realignOffset (s : State) : Int := if 1000 < s.ts.edgeOffset.natAbs then s.ts.edgeOffset else s.tsOffset

/-- The realignment has been tried. -/
def State.realignDone (s : State) : State := { s with ts := { s.ts with realign := false } }

/-- The running tick is longer by `k` cycles. -/
def State.lengthen (s : State) (k : Nat) : State := { s with clk := { s.clk with len := s.clk.len + k } }

/-- The cycles from the end of the running tick to the next target edge, for the offset of its first edge in ns: its own
correction and stretch move its end as well. -/
def State.realignCycles (s : State) (v : Int) : Nat :=
  ((-nsCycles v - ((s.clk.len : Int) - (1300 * s.clk.period : Nat))) % ((1300 * s.clk.period : Nat) : Int)).toNat

/-- After an entry to ACQUIRING the guard band is extended, once, to the next target edge if the offset is above 1 µs
(DEDUCED, log entry 11) (DEDUCED, log entry 45). -/
def State.tryRealign (s : State) : State :=
  if !s.ts.realign || (s.ts.samples.isEmpty && decide (s.ts.edgeOffset.natAbs ≤ 1000)) then s
  else if s.realignOffset.natAbs ≤ 1000 then s.realignDone
  else (s.realignDone.lengthen (s.realignCycles s.realignOffset)).raise .gfe 0 0x110 5

/-! ## The boundary work (02 R43) -/

/-- Step 1: the kill sweep, and the deferral of what has not started (02 R37, R38). -/
def State.killSweep (s : State) : State :=
  let t := (s.inWork (fun _ => true)).foldl State.overrun s
  let u := (s.gfe.cmds.map Cmd.id).foldl State.overrunPair t
  (u.clus.map Prod.fst).foldl State.deferAll u

/-- The slots that step 2 updates, with their updates (06 R175). -/
def State.slotUpdates (s : State) : List (Nat × (ScaleSlot × Nat × Bool × Bool)) :=
  (s.scales.filter (fun x => x.2.contrib != 0)).map (fun x => (x.1, updateSlot x.2 (s.regGet .gfe x.1 0x504) (s.slotT x.1)))

/-- The events of slot updates (06 R175). -/
def State.slotEvents (s : State) (us : List (Nat × (ScaleSlot × Nat × Bool × Bool))) : State :=
  let s1 := if us.any (fun u => u.2.2.2.1) then s.raise .gfe 0 0x518 1 else s
  if us.any (fun u => u.2.2.2.2) then s1.raise .gfe 0 0x518 2 else s1

/-- `SCALE_SET` entries that apply at the edge that begins tick `n` are staged (06 R178). -/
def State.stageScales (s : State) (n : Nat) : State :=
  { s with gfe := { s.gfe with scaleSets := s.gfe.scaleSets.map (fun x => { x with staged := x.staged || decide (x.due ≤ n) }) } }

/-- The lists that have a launch in flight. -/
def State.busyLists (s : State) : List Nat := s.gfe.launches.map Launch.list

/-- Patches that apply at the edge that begins tick `n` are staged, but of lists that had a launch in flight when the guard
band began (02 R43; 03 R86). -/
def State.stagePatches (s : State) (busy : List Nat) (n : Nat) : State :=
  { s with gfe := { s.gfe with patches := s.gfe.patches.map (fun p =>
      { p with staged := p.staged || (decide (p.due ≤ n) && !busy.contains p.list) }) } }

/-- A T-class write takes effect; one of `GFE_SCALE_CTRL` empties its slot's history (15 R457; 06 R179). -/
def State.applyPend (s : State) (p : PendWrite) : State :=
  if keyWin p.key = 0 ∧ keyOff p.key = 0x514 then
    s.setScale (keyItem p.key) { s.scale (keyItem p.key) with hist := [] }
  else
    let v := putMasked (Sparse.get regDefault s.reg.vals p.key).toNat p.mask p.val
    { s with reg := { s.reg with vals := Sparse.put regDefault s.reg.vals p.key (BitVec.ofNat 32 v) } }

/-- The T-class writes that apply at the edge that begins tick `n`, in latch order (02 R42). -/
def State.dueWrites (s : State) (n : Nat) : List PendWrite := s.reg.pend.filter (fun p => decide (p.due ≤ n))

/-- Those writes take effect and are no longer pending. -/
def State.applyWrites (s : State) (n : Nat) : State :=
  let t := (s.dueWrites n).foldl State.applyPend s
  { t with reg := { t.reg with pend := t.reg.pend.filter (fun p => decide (n < p.due)) } }

/-- The cluster holds of a set of physical slots (16 R478). -/
def State.setHolds (s : State) (hs : List Nat) : State :=
  (s.pslots.map Prod.fst).foldl (fun t p => t.setPslot p { t.pslot p with held := hs.contains p }) s

/-- Free values: the 16-tick average powers of the six domains (DESIGN CHOICE, log entry 4). -/
def State.takeFrees : Nat → State → List Nat × State
  | 0, s => ([], s)
  | n + 1, s =>
    let x := s.takeFree
    let y := State.takeFrees n x.2
    (x.1.toNat :: y.1, y.2)

/-- The state on which step 5 acts: that of the next tick, with the writes of step 4 (02 R43). -/
def State.nextView (s : State) : State :=
  let t := s.applyWrites (s.tickN + 1)
  State.setHolds { t with clk := { t.clk with period := t.fld .gfe 0 0x100 10 0 },
                          sup := { t.sup with throttle := t.sup.throttleWant } } t.mon.holdWant

/-- The events of step 5: throttle, thermal step, cluster holds (16 R471, R473, R478). -/
def State.stepEvents (s : State) : State :=
  let s1 := if s.sup.throttleWant ∧ s.sup.throttle = false then s.raise .pwr 0 0x000 2
    else if s.sup.throttle ∧ s.sup.throttleWant = false then s.supplyRelease 2 else s
  let s2 := if s1.mon.step < s1.mon.stepWant then s1.raise .mon 0 0x000 1 else s1
  if s2.mon.holdWant.any (fun p => !(s2.pslot p).held) then s2.raise .mon 0 0x000 2 else s2

/-- The number of channels with a score in the window (02 R43). -/
def State.scored (s : State) : Nat := (s.windows.filter (fun x => s.scoreOf x != 0)).length

/-- Steps 5 and 6: what they compute for the edge, from the domain powers `dom` and the slot updates of step 2. -/
def State.stageOf (s : State) (us : List (Nat × (ScaleSlot × Nat × Bool × Bool))) (dom : List Nat) : Staged :=
  let v := s.nextView
  let q := if s.sec.step < 11 then 0 else v.capQuarters s.mon.stepWant (v.domExcess dom 0 + v.domExcess dom 1)
  let e := v.energyPer s.mon.balances
  let inUj := s.sup.energyPj / 1000000
  let at' := s.attributions inUj
  { slots := us.map (fun u => (u.1, u.2.1)), slotT := us.map (fun u => (u.1, BitVec.ofNat 32 u.2.2.1)),
    allow := if s.sec.step < 11 then 0 else v.allowance v.clk.period q e,
    capEff := q, eNow := e, throttle := s.sup.throttleWant, step := s.mon.stepWant, holds := s.mon.holdWant,
    attrib := at', inUj := inUj, unattr := inUj - (at'.map Prod.snd).foldl (· + ·) 0,
    cycles := (s.windows.map cluCycles).foldl (· + ·) 0, dom := dom, stretch := 0, corr := 0 }

/-- The cycles of steps 2 to 6 (02 R43). -/
def State.stepCycles (s : State) (slots : Nat) : Nat :=
  ceilDiv slots 16 +
  ceilDiv (((s.gfe.scaleSets.filter (fun x => x.staged)).map (fun x => x.slots.length)).foldl (· + ·) 0) 16 +
  ceilDiv (((s.gfe.patches.filter (fun p => p.staged)).map Patch.cost).foldl (· + ·) 0) 16 +
  ceilDiv (s.dueWrites (s.tickN + 1)).length 16 + 4 + (4 + ceilDiv s.scored 16)

/-- A new meter window begins (05 R142). -/
def State.newWindow (s : State) : State :=
  (s.accts.map Prod.fst).foldl
    (fun t c => t.setAcct c { t.acct c with winCyc := ChanAcct.init.winCyc, winXfer := 0, winBytes := ChanAcct.init.winBytes })
    { s with sup := { s.sup with energyPj := 0, gone := [] } }

/-- The length that the running tick takes: its correction, and a stretch while the work of `w` cycles is not done (02 R45,
R50). -/
def State.guardLen (s : State) (w : Nat) (corr : Int) : Nat :=
  max ((1300 * s.clk.period : Nat) - corr : Int).toNat (s.G + 1 + w)

/-- Steps 2 to 5 of the boundary work, after the kill sweep: the events of the slot updates, the staged `SCALE_SET` entries
and patches, and the events of step 5. `busy` are the lists with a launch in flight when the guard band began. -/
def State.boundarySteps (s : State) (busy : List Nat) (us : List (Nat × (ScaleSlot × Nat × Bool × Bool))) : State :=
  (((s.slotEvents us).stageScales (s.tickN + 1)).stagePatches busy (s.tickN + 1)).stepEvents

/-- What the boundary work stages, with the stretch and the correction of the tick. -/
def State.stagedFor (s : State) (us : List (Nat × (ScaleSlot × Nat × Bool × Bool))) (dom : List Nat) (w : Nat) : Staged :=
  { s.stageOf us dom with
    stretch := s.guardLen w s.tsCorr - ((1300 * s.clk.period : Nat) - s.tsCorr : Int).toNat, corr := s.tsCorr }

/-- The staged results of a guard band, and the length that its tick takes. -/
def State.putStaged (s : State) (x : Staged) (len : Nat) : State :=
  { s with staged := some x, clk := { s.clk with len := len } }

/-- `GUARD_STRETCH`, if the work of `w` cycles does not fit the guard band (02 R45) (DEDUCED, log entry 11). -/
def State.noteStretch (s : State) (w : Nat) : State := if 26 * s.clk.period - 1 < w then s.raise .gfe 0 0x110 2 else s

/-- Steps 2 to 6 of the boundary work, with the domain powers (DEDUCED, log entry 11). -/
def State.boundaryWork (s : State) (us : List (Nat × (ScaleSlot × Nat × Bool × Bool))) (dom : List Nat) : State :=
  let w := s.stepCycles us.length
  ((s.putStaged (s.stagedFor us dom w) (s.guardLen w s.tsCorr)).newWindow).noteStretch w

/-- The boundary work of the running tick (02 R43) (DEDUCED, log entry 11). -/
def State.guardWork (s : State) : State :=
  let us := s.killSweep.slotUpdates
  let f := State.takeFrees 6 (s.killSweep.boundarySteps s.busyLists us)
  (f.2.boundaryWork us f.1).tryRealign.tickStage .guard

/-- The tick goes on to its guard band, if that has not begun. -/
def State.runGuard (s : State) : State :=
  let t := s.runCutoff
  if t.clk.stage = .cut then (t.toCycle t.G).guardWork else t

/-- `GUARD_BAND_BEGIN` (02 R43). -/
def execGuardBandBegin (s : State) : Host.Outcome State Fault Refusal := done (if !s.on then s else s.runGuard)

/-! ## The edge (02 R43) -/

/-- Add a balance's attributions to the records of the channels (05 R139). -/
def State.bookEnergy (s : State) (x : Staged) : State :=
  let s1 := ((s.chans.filter (fun c => c.2.state != .destroyed)).map Prod.fst).foldl
    (fun t c => t.setAcct c { t.acct c with balTick := s.tickN }) s
  x.attrib.foldl (fun t a => t.setAcct a.1 { t.acct a.1 with energy := satAdd 64 (t.acct a.1).energy a.2 }) s1

/-- The staged results of steps 2, 5 and 6 become visible. -/
def State.showStaged (s : State) (x : Staged) : State :=
  let s1 := x.slots.foldl (fun t y => t.setScale y.1 y.2) s
  let s2 := x.slotT.foldl (fun t y => t.regPut .gfe y.1 0x508 y.2.toNat) s1
  let bals := if x.cycles = 0 then s2.mon.balances
    else (((x.attrib.map Prod.snd).foldl (· + ·) 0, x.cycles) :: s2.mon.balances).take 16
  let s3 := { s2 with
    sup := { s2.sup with throttle := x.throttle, allow := x.allow, capEff := x.capEff, eNow := x.eNow, lastUj := x.inUj,
                         unattr := x.unattr, balTick := s.tickN, charged := 0 },
    mon := { s2.mon with step := x.step, balances := bals, domPower := x.dom } }
  (s3.setHolds x.holds).bookEnergy x

/-- A domain is over its limit; for domains 2 to 5 until the average falls to 95 % (16 R485). -/
def State.domainOver (s : State) (d : Nat) : Bool :=
  let p := listGet 0 s.mon.domPower d
  let l := s.domLimit d
  l != 0 && (decide (l < p) || (decide (2 ≤ d) && listGet false s.mon.domOver d && decide (95 * l < 100 * p)))

/-- The actions of the domains are entered and left (16 R485). -/
def State.domainEdge (s : State) : State :=
  let exceeded := (upTo 6).map s.domainOver
  let s1 := { s with mon := { s.mon with domOver := exceeded } }
  if (upTo 6).any (fun d => listGet false exceeded d && !listGet false s.mon.domOver d) then s1.raise .pwr 0 0x000 3 else s1

/-- The clock begins the next tick. -/
def State.turn (s : State) : State :=
  { s with clk := { s.clk with tick := s.clk.tick + 1, cyc := 0, stage := .early }, staged := none }

/-- The new tick takes the applied period (02 R25). -/
def State.takePeriod (s : State) : State :=
  let p := s.fld .gfe 0 0x100 10 0
  { s with clk := { s.clk with period := p, len := 1300 * p } }

/-- The staged `SCALE_SET` entries take effect in execution order (06 R178). -/
def State.scaleEdge (s : State) : State :=
  let xs := s.gfe.scaleSets.filter (fun x => x.staged)
  let t := xs.foldl State.applyScaleSet s
  { t with gfe := { t.gfe with scaleSets := t.gfe.scaleSets.filter (fun x => !x.staged) } }

/-- What an edge does to a table's pool: superseded entries go, slots become free, and the ticks above FOLD_HIGH count (09
R248, R281) (DEDUCED, log entry 48). -/
def State.poolEdge (s : State) (h : Nat) : State :=
  match s.tableOf h with
  | none => s
  | some (o, t, y) =>
    let z := settleRemap y
    let high : Bool := decide (s.fld .tbl h 0x004 6 0 * t.slots < 100 * (usedSlots z).length)
    let k := if high then z.highTicks + 1 else 0
    let s1 := s.setObj h { o with table := some (t, { z with highTicks := k }) }
    if k = 16 then s1.raise .tbl 0 0x018 2 else s1

/-- The contexts that retire: the next edge releases them (03 R72). -/
def State.retiringCtxs (s : State) : List Nat := (s.gfe.ctxs.filter (·.retiring)).map Ctx.id

/-- Contexts are released (03 R72), and waiting slots take them (R74). -/
def State.ctxEdge (s : State) (ids : List Nat) : State :=
  let t := { s with gfe := { s.gfe with ctxs := s.gfe.ctxs.filter (fun x => !ids.contains x.id) } }
  t.grantCtxs 4096

/-- Batches of records are sent, and channels with an unconfirmed record flush (12 R379; 13 R410) (DEDUCED, log entry 44). -/
def State.recordEdge (s : State) : State :=
  let t := s.egress (s.fab.batches.foldl State.sendBatch { s with fab := { s.fab with batches := [] } })
  (t.cqs.map Prod.fst).foldl State.recordFlush t

/-- Time synchronisation at an edge that its tick's stretch has delayed: the offset, the edges in range, and the states that
an edge decides (02 R45, R49 to R53). -/
def State.tsEdge (s : State) (corr : Int) (stretch : Nat) : State :=
  match s.ts.state with
  | .free => State.tsControl { s with ts := { s.ts with lastCorr := 0, edgeOffset := 0 } }
  | st =>
    let off := s.tsOffset + ((stretch * 10 / 13 : Nat) : Int)
    let s1 := { s with ts := { s.ts with
      lastCorr := corr, edgeOffset := if stretch = 0 then 0 else off, corrs := if st = .locked then (corr :: s.ts.corrs).take 16 else s.ts.corrs } }
    if st = .acquiring then
      if s.ts.samples.isEmpty = false ∧ s.tsOffset.natAbs ≤ 1000 then
        if s.ts.goodEdges = 15 then s1.enterTs .locked
        else { s1 with ts := { s1.ts with goodEdges := s.ts.goodEdges + 1 } }
      else { s1 with ts := { s1.ts with goodEdges := 0 } }
    else if stretch ≠ 0 ∧ 1000 < off.natAbs then s1.enterTs .acquiring
    else s1

/-- The clusters begin a tick with no cycles used (02 R54). -/
def State.cluEdge (s : State) : State :=
  (s.clus.map Prod.fst).foldl (fun t n => t.setClu n { t.clu n with used := 0 }) s

/-- A write of `FAB_ROUTE` applies at the edge that begins tick `n`. -/
def State.routesDue (s : State) (n : Nat) : Bool :=
  (s.dueWrites n).any (fun p => keyWin p.key == Win.num .fab && keyOff p.key == 0x094)

/-- The next tick begins with the staged results, the due writes and the applied period. -/
def State.nextTick (s : State) (x : Staged) : State :=
  (((s.showStaged x).scaleEdge.applyWrites (s.tickN + 1)).turn).takePeriod

/-- The staged results of a guard band become visible and the next tick begins (02 R43) (DEDUCED, log entry 11). -/
def State.visible (s : State) (x : Staged) : State :=
  let s1 := (s.nextTick x).domainEdge.cluEdge
  ((((if s.routesDue (s.tickN + 1) then s1.moveFlows else s1).tsEdge x.corr x.stretch)).showPatches).endScaleSets
    (s.gfe.scaleSets.filter (fun y => y.staged))

/-- The work of an edge: what is staged becomes visible; pools, contexts, records, targets, tests, orphans and waiting
accesses settle, and launches that waited for a patch are issued (03 R87). A context that retires in the edge cycle waits for the next edge (03 R72). -/
def State.edgeWork (s : State) : State :=
  match s.staged with
  | none => s
  | some x =>
    let s1 := s.visible x
    let s2 := (s1.objs.map Prod.fst).foldl State.poolEdge s1
    let s3 := (s2.ctxEdge s.retiringCtxs).recordEdge.syncTargets.testEdge.destroyOrphans.tidy
    (s3.issueLaunches ((s.gfe.patches.filter (fun p => p.staged)).map Patch.list)).settleMem

/-- The tick goes on to its edge. -/
def State.runEdge (s : State) : State :=
  let t := s.runGuard.tryRealign
  (t.toCycle t.clk.len).edgeWork

/-- `TICK_EDGE` (02 R43). -/
def execTickEdge (s : State) : Host.Outcome State Fault Refusal := done (if !s.on then s else s.runEdge)

/-! ## The block without a command -/

/-- One cycle passes; the cutoff, the boundary work and the edge come when they are due (DESIGN CHOICE, log entry 5). -/
def State.idle (s : State) : State :=
  if !s.on then s
  else
    let c := s.clk.cyc + 1
    let s1 := s.toCycle c
    let s2 := match s1.clk.stage with
      | .early => if s1.cutoff ≤ c then s1.cutoffWork else s1
      | .cut => if s1.G ≤ c then s1.guardWork else s1
      | .guard =>
        if c < s1.clk.len then s1
        else
          let t := s1.tryRealign
          if c < t.clk.len then t else t.edgeWork
    s2.endStep

end Sys2Proof.Machine
end

