-- ==== Sys2Proof/Machine/Dispatch.lean ====
section
/-! DEFINITION. Which meaning each command has: one arm for each row of the table, in its order. -/

namespace Sys2Proof.Machine

/-- The effect of a command on everything but the queue of waiting commands. -/
def exec (i : Instr) (s : State) : Host.Outcome State Fault Refusal :=
  match i with
  | .tickEdge => Sys2Proof.Machine.execTickEdge s
  | .guardBandBegin => Sys2Proof.Machine.execGuardBandBegin s
  | .hostCommitCutoff => Sys2Proof.Machine.execHostCommitCutoff s
  | .ptpOffsetSample port m => Sys2Proof.Machine.execPtpOffsetSample port m s
  | .ptpAnnounce port domain m => Sys2Proof.Machine.execPtpAnnounce port domain m s
  | .ptpSampleTimeout => Sys2Proof.Machine.execPtpSampleTimeout s
  | .dispatchAdmit part => Sys2Proof.Machine.execDispatchAdmit part s
  | .commandStart clu => Sys2Proof.Machine.execCommandStart clu s
  | .commandFlip clu => Sys2Proof.Machine.execCommandFlip clu s
  | .commitPhaseBegin clu => Sys2Proof.Machine.execCommitPhaseBegin clu s
  | .flushReadReturn chan ok => Sys2Proof.Machine.execFlushReadReturn chan ok s
  | .arrayBlockCompare clu glitch => Sys2Proof.Machine.execArrayBlockCompare clu glitch s
  | .skinkGroupCompare clu glitch => Sys2Proof.Machine.execSkinkGroupCompare clu glitch s
  | .summaryCompare clu glitch => Sys2Proof.Machine.execSummaryCompare clu glitch s
  | .runFindsCondition clu found => Sys2Proof.Machine.execRunFindsCondition clu found s
  | .repeatPairCompare cmd => Sys2Proof.Machine.execRepeatPairCompare cmd s
  | .faultCountAge slot => Sys2Proof.Machine.execFaultCountAge slot s
  | .create a gen => Sys2Proof.Machine.execCreate a gen s
  | .activate a gen => Sys2Proof.Machine.execActivate a gen s
  | .pause a gen => Sys2Proof.Machine.execPause a gen s
  | .resume a gen => Sys2Proof.Machine.execResume a gen s
  | .destroy a gen => Sys2Proof.Machine.execDestroy a gen s
  | .reattach a gen => Sys2Proof.Machine.execReattach a gen s
  | .doorbell chan tail => Sys2Proof.Machine.execDoorbell chan tail s
  | .ringReadReturn chan slot ext => Sys2Proof.Machine.execRingReadReturn chan slot ext s
  | .ringRereadIssue chan => Sys2Proof.Machine.execRingRereadIssue chan s
  | .doorbellStale chan => Sys2Proof.Machine.execDoorbellStale chan s
  | .cqHead chan count => Sys2Proof.Machine.execCqHead chan count s
  | .nop n => Sys2Proof.Machine.execNop n s
  | .timestamp n => Sys2Proof.Machine.execTimestamp n s
  | .testOnDemand n => Sys2Proof.Machine.execTestOnDemand n s
  | .testDrainComplete => Sys2Proof.Machine.execTestDrainComplete s
  | .testDrainTimeout => Sys2Proof.Machine.execTestDrainTimeout s
  | .testDone verdict => Sys2Proof.Machine.execTestDone verdict s
  | .fenceSignal n => Sys2Proof.Machine.execFenceSignal n s
  | .fenceWait n => Sys2Proof.Machine.execFenceWait n s
  | .fenceTimeout n => Sys2Proof.Machine.execFenceTimeout n s
  | .hostFence n => Sys2Proof.Machine.execHostFence n s
  | .launchList n => Sys2Proof.Machine.execLaunchList n s
  | .listPositionFetch launch bad => Sys2Proof.Machine.execListPositionFetch launch bad s
  | .listSlotIssue launch => Sys2Proof.Machine.execListSlotIssue launch s
  | .patchList n => Sys2Proof.Machine.execPatchList n s
  | .objCreate n => Sys2Proof.Machine.execObjCreate n s
  | .objFree n => Sys2Proof.Machine.execObjFree n s
  | .move n => Sys2Proof.Machine.execMove n s
  | .clone n => Sys2Proof.Machine.execClone n s
  | .gemm clu => Sys2Proof.Machine.execGemm clu s
  | .matvec clu => Sys2Proof.Machine.execMatvec clu s
  | .vchain clu => Sys2Proof.Machine.execVchain clu s
  | .gatherPool clu => Sys2Proof.Machine.execGatherPool clu s
  | .scatterUpdate clu => Sys2Proof.Machine.execScatterUpdate clu s
  | .streamArm clu => Sys2Proof.Machine.execStreamArm clu s
  | .streamRearm clu => Sys2Proof.Machine.execStreamRearm clu s
  | .hostWrite clu => Sys2Proof.Machine.execHostWrite clu s
  | .hostRead clu => Sys2Proof.Machine.execHostRead clu s
  | .hostReadLineReturn clu addr line => Sys2Proof.Machine.execHostReadLineReturn clu addr line s
  | .scaleSet n => Sys2Proof.Machine.execScaleSet n s
  | .resolutionBegin cmd => Sys2Proof.Machine.execResolutionBegin cmd s
  | .remoteGatherTimeout cmd => Sys2Proof.Machine.execRemoteGatherTimeout cmd s
  | .fold table => Sys2Proof.Machine.execFold table s
  | .cellarReadLand h tile bad => Sys2Proof.Machine.execCellarReadLand h tile bad s
  | .cellarProgramComplete h tile => Sys2Proof.Machine.execCellarProgramComplete h tile s
  | .tileMoveCommit h tile bad => Sys2Proof.Machine.execTileMoveCommit h tile bad s
  | .heatScan => Sys2Proof.Machine.execHeatScan s
  | .scrubRead frame errs again => Sys2Proof.Machine.execScrubRead frame errs again s
  | .atticRefresh pc => Sys2Proof.Machine.execAtticRefresh pc s
  | .stackTempReport stack quarters => Sys2Proof.Machine.execStackTempReport stack quarters s
  | .stackTempTimeout stack => Sys2Proof.Machine.execStackTempTimeout stack s
  | .memTgtServe a serve => Sys2Proof.Machine.execMemTgtServe a serve s
  | .marginStart a => Sys2Proof.Machine.execMarginStart a s
  | .marginDone errors => Sys2Proof.Machine.execMarginDone errors s
  | .streamTransferIssue clu => Sys2Proof.Machine.execStreamTransferIssue clu s
  | .streamTransferComplete clu bad prod => Sys2Proof.Machine.execStreamTransferComplete clu bad prod s
  | .strCtrlDisarm a clu => Sys2Proof.Machine.execStrCtrlDisarm a clu s
  | .gfeFenceReset a gen => Sys2Proof.Machine.execGfeFenceReset a gen s
  | .gfeFenceAdd a add => Sys2Proof.Machine.execGfeFenceAdd a add s
  | .acctSnap a chan compat => Sys2Proof.Machine.execAcctSnap a chan compat s
  | .gfeScaleClearHist a => Sys2Proof.Machine.execGfeScaleClearHist a s
  | .foldNow a => Sys2Proof.Machine.execFoldNow a s
  | .cxlAptValid a valid => Sys2Proof.Machine.execCxlAptValid a valid s
  | .intCluRetire a => Sys2Proof.Machine.execIntCluRetire a s
  | .intCluSuspect a => Sys2Proof.Machine.execIntCluSuspect a s
  | .intLogSnap a index => Sys2Proof.Machine.execIntLogSnap a index s
  | .secUpdFirmware a => Sys2Proof.Machine.execSecUpdFirmware a s
  | .secUpdConfig a => Sys2Proof.Machine.execSecUpdConfig a s
  | .updateComplete r => Sys2Proof.Machine.execUpdateComplete r s
  | .secReset a key warm => Sys2Proof.Machine.execSecReset a key warm s
  | .secRecBegin a config => Sys2Proof.Machine.execSecRecBegin a config s
  | .secRecData a word => Sys2Proof.Machine.execSecRecData a word s
  | .secRecEnd a fw => Sys2Proof.Machine.execSecRecEnd a fw s
  | .statusClear a off data => Sys2Proof.Machine.execStatusClear a off data s
  | .statusSetInject a off data => Sys2Proof.Machine.execStatusSetInject a off data s
  | .statusToggle a off data => Sys2Proof.Machine.execStatusToggle a off data s
  | .registerWrite a off data size => Sys2Proof.Machine.execRegisterWrite a off data size s
  | .memRd dpa len bad => Sys2Proof.Machine.execMemRd dpa len bad s
  | .memWr dpa bytes => Sys2Proof.Machine.execMemWr dpa bytes s
  | .memInv dpa => Sys2Proof.Machine.execMemInv dpa s
  | .memSpecRd dpa => Sys2Proof.Machine.execMemSpecRd dpa s
  | .snoop addr => Sys2Proof.Machine.execSnoop addr s
  | .dvsecCacheEnable on => Sys2Proof.Machine.execDvsecCacheEnable on s
  | .perstAssert => Sys2Proof.Machine.execPerstAssert s
  | .perstDeassert => Sys2Proof.Machine.execPerstDeassert s
  | .linkL0Reached width gts => Sys2Proof.Machine.execLinkL0Reached width gts s
  | .linkRecoveryEnter => Sys2Proof.Machine.execLinkRecoveryEnter s
  | .linkRecoveryExit width gts => Sys2Proof.Machine.execLinkRecoveryExit width gts s
  | .dlDown => Sys2Proof.Machine.execDlDown s
  | .hotReset => Sys2Proof.Machine.execHotReset s
  | .flr => Sys2Proof.Machine.execFlr s
  | .d3hotEntry => Sys2Proof.Machine.execD3hotEntry s
  | .d0Return => Sys2Proof.Machine.execD0Return s
  | .orphanTimeout chan => Sys2Proof.Machine.execOrphanTimeout chan s
  | .refclkLoss => Sys2Proof.Machine.execRefclkLoss s
  | .clk10mQualified => Sys2Proof.Machine.execClk10mQualified s
  | .clk10mLoss => Sys2Proof.Machine.execClk10mLoss s
  | .portEnable port => Sys2Proof.Machine.execPortEnable port s
  | .portDisable port => Sys2Proof.Machine.execPortDisable port s
  | .portTrainingComplete port => Sys2Proof.Machine.execPortTrainingComplete port s
  | .portTrainingTimeout port => Sys2Proof.Machine.execPortTrainingTimeout port s
  | .portFault port => Sys2Proof.Machine.execPortFault port s
  | .holddownExpiry port => Sys2Proof.Machine.execHolddownExpiry port s
  | .discoverSend port => Sys2Proof.Machine.execDiscoverSend port s
  | .discover port f => Sys2Proof.Machine.execDiscover port f s
  | .discoverReply port mac f => Sys2Proof.Machine.execDiscoverReply port mac f s
  | .routePlaneExpiry dst plane => Sys2Proof.Machine.execRoutePlaneExpiry dst plane s
  | .data port f => Sys2Proof.Machine.execData port f s
  | .ack port f => Sys2Proof.Machine.execAck port f s
  | .nak port f => Sys2Proof.Machine.execNak port f s
  | .ackDue peer vl => Sys2Proof.Machine.execAckDue peer vl s
  | .retxTimerExpiry peer vl => Sys2Proof.Machine.execRetxTimerExpiry peer vl s
  | .peerFailedExpiry peer => Sys2Proof.Machine.execPeerFailedExpiry peer s
  | .reassemblyTimeout peer vl msgId => Sys2Proof.Machine.execReassemblyTimeout peer vl msgId s
  | .request peer vl => Sys2Proof.Machine.execRequest peer vl s
  | .response peer vl => Sys2Proof.Machine.execResponse peer vl s
  | .gather peer vl => Sys2Proof.Machine.execGather peer vl s
  | .partials peer vl => Sys2Proof.Machine.execPartials peer vl s
  | .update peer vl => Sys2Proof.Machine.execUpdate peer vl s
  | .updateAck peer vl => Sys2Proof.Machine.execUpdateAck peer vl s
  | .refuse peer vl => Sys2Proof.Machine.execRefuse peer vl s
  | .residencyStart => Sys2Proof.Machine.execResidencyStart s
  | .residencyAbandon => Sys2Proof.Machine.execResidencyAbandon s
  | .residencyVerdict verdict => Sys2Proof.Machine.execResidencyVerdict verdict s
  | .faultLogRecordWrite => Sys2Proof.Machine.execFaultLogRecordWrite s
  | .inputMeterSample mv tenMa => Sys2Proof.Machine.execInputMeterSample mv tenMa s
  | .meterTimeout tenMs => Sys2Proof.Machine.execMeterTimeout tenMs s
  | .tempSensorSample sensor quarters => Sys2Proof.Machine.execTempSensorSample sensor quarters s
  | .tempSensorTimeout sensor => Sys2Proof.Machine.execTempSensorTimeout sensor s
  | .voltageMonitorSample monitor mv => Sys2Proof.Machine.execVoltageMonitorSample monitor mv s
  | .voltageMonitorTimeout monitor => Sys2Proof.Machine.execVoltageMonitorTimeout monitor s
  | .processMonitorSample slot count => Sys2Proof.Machine.execProcessMonitorSample slot count s
  | .processMonitorTimeout slot => Sys2Proof.Machine.execProcessMonitorTimeout slot s
  | .railsOff => Sys2Proof.Machine.execRailsOff s
  | .powerOn b => Sys2Proof.Machine.execPowerOn b s
  | .watchdogExpiry => Sys2Proof.Machine.execWatchdogExpiry s
  | .warmResetEnd fw => Sys2Proof.Machine.execWarmResetEnd fw s
  | .dynamicAddressAssign addr => Sys2Proof.Machine.execDynamicAddressAssign addr s
  | .i3cBusReset => Sys2Proof.Machine.execI3cBusReset s
  | .mctpMessageTimeout => Sys2Proof.Machine.execMctpMessageTimeout s
  | .setEndpointId eid => Sys2Proof.Machine.execSetEndpointId eid s
  | .getEndpointId => Sys2Proof.Machine.execGetEndpointId s
  | .getMctpVersionSupport msgType => Sys2Proof.Machine.execGetMctpVersionSupport msgType s
  | .getMessageTypeSupport => Sys2Proof.Machine.execGetMessageTypeSupport s
  | .getEndpointUuid => Sys2Proof.Machine.execGetEndpointUuid s
  | .getVersion path => Sys2Proof.Machine.execGetVersion path s
  | .getCapabilities path => Sys2Proof.Machine.execGetCapabilities path s
  | .negotiateAlgorithms path p256 sha256 => Sys2Proof.Machine.execNegotiateAlgorithms path p256 sha256 s
  | .getDigests path => Sys2Proof.Machine.execGetDigests path s
  | .getCertificate path slot offset length => Sys2Proof.Machine.execGetCertificate path slot offset length s
  | .challenge path slot nonce => Sys2Proof.Machine.execChallenge path slot nonce s
  | .getMeasurements path index sign nonce => Sys2Proof.Machine.execGetMeasurements path index sign nonce s
  | .getIdentity inst req => Sys2Proof.Machine.execGetIdentity inst req s
  | .getStatus inst req => Sys2Proof.Machine.execGetStatus inst req s
  | .readSensor inst req => Sys2Proof.Machine.execReadSensor inst req s
  | .readReg inst req => Sys2Proof.Machine.execReadReg inst req s
  | .writeReg inst req => Sys2Proof.Machine.execWriteReg inst req s
  | .readLog inst req => Sys2Proof.Machine.execReadLog inst req s
  | .readRetire inst req => Sys2Proof.Machine.execReadRetire inst req s
  | .eraseRetire inst req => Sys2Proof.Machine.execEraseRetire inst req s
  | .eraseComplete ok => Sys2Proof.Machine.execEraseComplete ok s
  | .warmReset inst req => Sys2Proof.Machine.execWarmReset inst req s
  | .announceReceiptTimeout => Sys2Proof.Machine.execAnnounceReceiptTimeout s
  | .delayReqSend port => Sys2Proof.Machine.execDelayReqSend port s
  | .completionTimeout read => Sys2Proof.Machine.execCompletionTimeout read s
  | .refclkRestored => Sys2Proof.Machine.execRefclkRestored s
  | .memEnable on decoder => Sys2Proof.Machine.execMemEnable on decoder s
  | .vectorUnmask what => Sys2Proof.Machine.execVectorUnmask what s
  | .zeroFillComplete h => Sys2Proof.Machine.execZeroFillComplete h s
  | .cloneCopyComplete h bad => Sys2Proof.Machine.execCloneCopyComplete h bad s
  | .postedWriteDrain => Sys2Proof.Machine.execPostedWriteDrain s
  | .loRead a off => Sys2Proof.Machine.execLoRead a off s
  | .laneMargining lane timing step errors => Sys2Proof.Machine.execLaneMargining lane timing step errors s
  | .frameDiscard port => Sys2Proof.Machine.execFrameDiscard port s

end Sys2Proof.Machine
end

