-- ==== Sys2Proof/Machine/Step.lean ====
section
/-! DEFINITION. One step of the block: the command at the front of the queue, or one cycle of the clock when none waits. -/

namespace Sys2Proof.Machine

/-- One step; without a waiting command the block lets one cycle pass (DESIGN CHOICE, log entry 5)
(DESIGN CHOICE, log entry 2). -/
def step (s : State) : Host.Outcome State Fault Refusal :=
  match s.pending with
  | [] => .next s.idle
  | c :: rest => exec c { s with pending := rest }

/-- Put the command that a word spells at the front of the queue; the table gives no row bits, so no word spells one
(DESIGN CHOICE, log entry 59). -/
def State.withFetchWord (s : State) (nbits w : Nat) : State :=
  match decodeTableWord nbits w with
  | some c => { s with pending := c :: s.pending }
  | none => s

end Sys2Proof.Machine
end

