-- ==== Sys2Proof/Safety.lean ====
section
/-! DEFINITION. What counts as a safe run of the block: states in canonical form, steps that neither fault nor refuse, and
the next state that a command gives. -/

namespace Sys2Proof.Machine

/-- Every sparse map of the state is in its one canonical form: keys rising, no entry equal to what an unlisted key reads as;
and the handles of the objects rise. States that hold the same are then equal data. -/
structure State.Canon (s : State) : Prop where
  mem : Memory.wf s.mem = true
  regs : Sparse.wf regDefault s.reg.vals = true
  chans : Sparse.wf (fun _ => Chan.init) s.chans = true
  cqs : Sparse.wf (fun _ => ChanCq.init) s.cqs = true
  accts : Sparse.wf (fun _ => ChanAcct.init) s.accts = true
  clus : Sparse.wf (fun _ => Clu.init) s.clus = true
  cnts : Sparse.wf (fun _ => CluCnt.init) s.cnts = true
  pslots : Sparse.wf (fun _ => PSlot.init) s.pslots = true
  scales : Sparse.wf (fun _ => ScaleSlot.init) s.scales = true
  frames : Sparse.wf (fun _ => FrameRec.init) s.frames = true
  streams : Sparse.wf (fun _ => Stream.init) s.streams = true
  fences : Sparse.wf (fun _ => Fence.init) s.gfe.fences = true
  objs : (s.objs.map Prod.fst).Pairwise (· < ·)

/-- The boundary work is staged exactly in the guard band (02 R43). -/
def State.GuardStaged (s : State) : Prop := s.clk.stage = .guard ↔ s.staged.isSome = true

/-- What every step keeps: the canonical forms, and boundary work staged exactly in the guard band. -/
def State.Inv (s : State) : Prop := s.Canon ∧ s.GuardStaged

/-- A step that answers a next state: it neither faults nor refuses. -/
def SafeStep (s : State) : Prop := ∃ t, step s = .next t

/-- A run of steps that all answer a next state. -/
inductive Reaches : State → State → Prop
  | refl (s : State) : Reaches s s
  | step {s t u : State} (h : Reaches s t) (e : Sys2Proof.Machine.step t = .next u) : Reaches s u

/-- The parts of the state, one for each field, and three parts of fields: the fences, the test in progress with those that
wait, and the CXL.mem accesses that wait. -/
inductive Part where
  | clk | ts | reg | chans | cqs | accts | gfe | clus | cnts | resvs | pslots
  | scales | mem | frames | objs | place | streams | xfers | link | host | fab | integ
  | icnt | sup | mon | sec | sb | staged | out | freeCtr | pending | fences | tests | memWait
  deriving DecidableEq, Repr

/-- A part of the state is the same in `t` as in `s`. -/
def Part.same : Part → State → State → Prop
  | .clk, s, t => t.clk = s.clk
  | .ts, s, t => t.ts = s.ts
  | .reg, s, t => t.reg = s.reg
  | .chans, s, t => t.chans = s.chans
  | .cqs, s, t => t.cqs = s.cqs
  | .accts, s, t => t.accts = s.accts
  | .gfe, s, t => t.gfe = s.gfe
  | .clus, s, t => t.clus = s.clus
  | .cnts, s, t => t.cnts = s.cnts
  | .resvs, s, t => t.resvs = s.resvs
  | .pslots, s, t => t.pslots = s.pslots
  | .scales, s, t => t.scales = s.scales
  | .mem, s, t => t.mem = s.mem
  | .frames, s, t => t.frames = s.frames
  | .objs, s, t => t.objs = s.objs
  | .place, s, t => t.place = s.place
  | .streams, s, t => t.streams = s.streams
  | .xfers, s, t => t.xfers = s.xfers
  | .link, s, t => t.link = s.link
  | .host, s, t => t.host = s.host
  | .fab, s, t => t.fab = s.fab
  | .integ, s, t => t.integ = s.integ
  | .icnt, s, t => t.icnt = s.icnt
  | .sup, s, t => t.sup = s.sup
  | .mon, s, t => t.mon = s.mon
  | .sec, s, t => t.sec = s.sec
  | .sb, s, t => t.sb = s.sb
  | .staged, s, t => t.staged = s.staged
  | .out, s, t => t.out = s.out
  | .freeCtr, s, t => t.freeCtr = s.freeCtr
  | .pending, s, t => t.pending = s.pending
  | .fences, s, t => t.gfe.fences = s.gfe.fences
  | .tests, s, t => (t.integ.test, t.integ.wait) = (s.integ.test, s.integ.wait)
  | .memWait, s, t => t.host.memWait = s.host.memWait

/-- Between `s` and `t` nothing changes but the parts of the list. -/
def OnlyChanges (ps : List Part) (s t : State) : Prop := ∀ p : Part, ps.contains p = false → p.same s t

/-- The parts of the state that a command may change; every other part is left alone. -/
def mayChange : Instr → List Part
  | .tickEdge =>
    [.clk, .ts, .reg, .chans, .cqs, .accts, .gfe, .clus, .resvs, .pslots, .scales, .mem, .frames, .objs, .place,
     .streams, .xfers, .host, .fab, .integ, .icnt, .sup, .mon, .staged, .out, .freeCtr, .tests, .memWait]
  | .guardBandBegin =>
    [.clk, .ts, .reg, .chans, .cqs, .accts, .gfe, .clus, .resvs, .pslots, .scales, .frames, .objs, .place, .host, .fab,
     .integ, .icnt, .sup, .staged, .out, .freeCtr]
  | .hostCommitCutoff =>
    [.clk, .reg, .chans, .cqs, .accts, .gfe, .clus, .resvs, .frames, .objs, .place, .host, .fab, .integ, .icnt, .sup,
     .out]
  | .dispatchAdmit _ =>
    [.clk, .reg, .chans, .cqs, .accts, .gfe, .clus, .resvs, .frames, .objs, .place, .host, .fab, .integ, .icnt, .sup,
     .out, .tests]
  | .ptpOffsetSample _ _ | .ptpAnnounce _ _ _ | .ptpSampleTimeout | .announceReceiptTimeout =>
    [.ts, .reg, .host, .out]
  | .commandStart _ =>
    [.reg, .accts, .gfe, .clus, .resvs, .frames, .objs, .host, .integ, .icnt, .sup, .out]
  | .commandFlip _ =>
    [.reg, .chans, .cqs, .accts, .gfe, .clus, .cnts, .resvs, .scales, .mem, .frames, .objs, .place, .streams, .xfers,
     .host, .fab, .integ, .icnt, .sup, .out, .tests, .memWait]
  | .commitPhaseBegin _ =>
    [.reg, .accts, .gfe, .clus, .host, .fab, .out]
  | .flushReadReturn _ _ | .objFree _ | .move _ | .data _ _ | .ack _ _ | .nak _ _ | .retxTimerExpiry _ _
    | .updateAck _ _ | .refuse _ _ =>
    [.reg, .chans, .cqs, .accts, .gfe, .frames, .objs, .place, .host, .fab, .integ, .icnt, .out]
  | .scrubRead _ _ _ | .patchList _ | .resolutionBegin _ =>
    [.reg, .chans, .cqs, .accts, .gfe, .frames, .objs, .place, .host, .fab, .integ, .icnt, .out, .tests]
  | .arrayBlockCompare _ _ | .skinkGroupCompare _ _ =>
    [.reg, .chans, .cqs, .accts, .gfe, .clus, .cnts, .resvs, .mem, .frames, .objs, .place, .host, .fab, .integ, .icnt,
     .sup, .out]
  | .vchain _ | .gatherPool _ | .scatterUpdate _ =>
    [.reg, .chans, .cqs, .accts, .gfe, .clus, .cnts, .resvs, .mem, .frames, .objs, .place, .host, .fab, .integ, .icnt,
     .sup, .out, .tests]
  | .summaryCompare _ _ =>
    [.reg, .accts, .gfe, .clus, .cnts, .resvs, .frames, .host, .integ, .icnt, .sup, .out]
  | .runFindsCondition _ _ =>
    [.reg, .chans, .cqs, .accts, .gfe, .clus, .cnts, .resvs, .frames, .objs, .place, .host, .fab, .integ, .icnt, .sup,
     .out, .tests]
  | .repeatPairCompare _ =>
    [.reg, .chans, .cqs, .accts, .gfe, .clus, .resvs, .pslots, .scales, .mem, .frames, .objs, .place, .streams, .xfers,
     .host, .fab, .integ, .icnt, .sup, .out, .tests, .memWait]
  | .faultCountAge _ =>
    [.reg, .pslots]
  | .create _ _ =>
    [.reg, .chans, .cqs, .accts, .host, .sup, .out]
  | .activate _ _ | .pause _ _ | .reattach _ _ | .ringRereadIssue _ =>
    [.reg, .chans, .host, .out]
  | .resume _ _ | .destroy _ _ | .doorbell _ _ | .doorbellStale _ | .cqHead _ _ =>
    [.reg, .chans, .cqs, .gfe, .host, .out]
  | .ringReadReturn _ _ _ =>
    [.reg, .chans, .cqs, .accts, .gfe, .host, .fab, .out, .memWait]
  | .request _ _ =>
    [.reg, .chans, .cqs, .accts, .gfe, .host, .fab, .out]
  | .nop _ | .fenceWait _ | .fenceTimeout _ | .hostFence _ | .launchList _ | .scaleSet _ | .remoteGatherTimeout _ =>
    [.reg, .chans, .cqs, .accts, .gfe, .objs, .host, .fab, .out]
  | .timestamp _ =>
    [.reg, .chans, .cqs, .accts, .gfe, .mem, .frames, .objs, .place, .host, .fab, .integ, .icnt, .out]
  | .cloneCopyComplete _ _ =>
    [.reg, .chans, .cqs, .accts, .gfe, .mem, .frames, .objs, .place, .host, .fab, .integ, .icnt, .out, .tests]
  | .testOnDemand _ =>
    [.reg, .chans, .cqs, .accts, .gfe, .clus, .resvs, .pslots, .frames, .objs, .place, .streams, .xfers, .host, .fab,
     .integ, .icnt, .sup, .out, .tests]
  | .testDrainComplete =>
    [.reg, .chans, .cqs, .accts, .gfe, .clus, .resvs, .frames, .objs, .place, .link, .host, .fab, .integ, .icnt, .sup,
     .out, .tests, .memWait]
  | .testDrainTimeout | .testDone _ | .intCluRetire _ | .residencyAbandon | .residencyVerdict _ =>
    [.reg, .chans, .cqs, .accts, .gfe, .clus, .resvs, .pslots, .frames, .objs, .place, .streams, .xfers, .link, .host,
     .fab, .integ, .icnt, .sup, .out, .tests]
  | .fenceSignal _ =>
    [.reg, .chans, .cqs, .accts, .gfe, .objs, .streams, .host, .fab, .out, .fences]
  | .gfeFenceAdd _ _ =>
    [.reg, .gfe, .streams, .host, .out, .fences]
  | .listPositionFetch _ _ =>
    [.reg, .chans, .cqs, .accts, .gfe, .frames, .place, .host, .fab, .integ, .icnt, .out, .tests]
  | .listSlotIssue _ =>
    [.reg, .chans, .cqs, .accts, .gfe, .clus, .resvs, .pslots, .mem, .frames, .objs, .place, .streams, .xfers, .host,
     .fab, .integ, .icnt, .sup, .out, .fences, .tests]
  | .objCreate _ | .clone _ =>
    [.reg, .chans, .cqs, .accts, .gfe, .frames, .objs, .place, .host, .fab, .out]
  | .gemm _ | .matvec _ | .hostRead _ =>
    [.reg, .chans, .cqs, .accts, .gfe, .clus, .resvs, .frames, .objs, .place, .host, .fab, .integ, .icnt, .sup, .out,
     .tests]
  | .hostWrite _ =>
    [.reg, .chans, .cqs, .accts, .gfe, .clus, .resvs, .frames, .objs, .place, .host, .fab, .integ, .icnt, .sup, .out,
     .tests, .memWait]
  | .stackTempReport _ _ | .stackTempTimeout _ =>
    [.reg, .chans, .cqs, .accts, .gfe, .clus, .resvs, .frames, .objs, .place, .host, .fab, .integ, .icnt, .sup, .out]
  | .streamArm _ | .streamRearm _ =>
    [.reg, .clus]
  | .hostReadLineReturn _ _ _ | .completionTimeout _ =>
    [.reg, .chans, .cqs, .accts, .gfe, .clus, .resvs, .mem, .frames, .objs, .place, .host, .fab, .integ, .icnt, .sup,
     .out]
  | .fold _ =>
    [.reg, .gfe, .frames, .objs, .place, .host, .integ, .icnt, .out]
  | .cellarReadLand _ _ _ | .memRd _ _ _ | .memWr _ _ =>
    [.reg, .chans, .cqs, .accts, .gfe, .mem, .frames, .objs, .place, .host, .fab, .integ, .icnt, .out, .tests,
     .memWait]
  | .tileMoveCommit _ _ _ =>
    [.reg, .chans, .cqs, .accts, .gfe, .mem, .frames, .objs, .place, .xfers, .host, .fab, .integ, .icnt, .out, .tests,
     .memWait]
  | .cellarProgramComplete _ _ =>
    [.reg, .frames, .place, .host, .integ, .icnt, .out]
  | .heatScan =>
    [.reg, .frames, .place, .host, .out]
  | .atticRefresh _ | .marginDone _ =>
    [.reg, .place]
  | .memTgtServe _ _ | .acctSnap _ _ _ | .gfeScaleClearHist _ | .intLogSnap _ _ | .statusClear _ _ _ | .memSpecRd _
    | .mctpMessageTimeout =>
    [.reg]
  | .marginStart _ =>
    [.reg, .place, .host, .out]
  | .streamTransferIssue _ =>
    [.clk, .reg, .chans, .cqs, .accts, .gfe, .clus, .resvs, .frames, .objs, .place, .streams, .xfers, .host, .fab,
     .integ, .icnt, .sup, .out]
  | .streamTransferComplete _ _ _ =>
    [.reg, .chans, .cqs, .accts, .gfe, .clus, .resvs, .pslots, .mem, .frames, .objs, .place, .streams, .xfers, .host,
     .fab, .integ, .icnt, .sup, .out, .freeCtr, .fences, .tests]
  | .strCtrlDisarm _ _ =>
    [.reg, .frames, .streams, .xfers, .host, .integ, .icnt, .out]
  | .gfeFenceReset _ _ =>
    [.reg, .gfe, .host, .out, .fences]
  | .foldNow _ =>
    [.reg, .objs, .host, .out]
  | .cxlAptValid _ _ | .statusSetInject _ _ _ | .statusToggle _ _ _ =>
    [.reg, .host, .out]
  | .intCluSuspect _ =>
    [.reg, .accts, .gfe, .clus, .resvs, .pslots, .frames, .place, .streams, .xfers, .host, .integ, .icnt, .sup, .out,
     .tests]
  | .residencyStart =>
    [.reg, .integ, .tests]
  | .secUpdFirmware _ | .secUpdConfig _ | .updateComplete _ =>
    [.reg, .frames, .host, .integ, .icnt, .sec, .out]
  | .secReset _ _ _ | .secRecBegin _ _ | .secRecData _ _ | .watchdogExpiry =>
    [.reg, .host, .sec, .out]
  | .secRecEnd _ _ =>
    [.reg, .chans, .cqs, .accts, .gfe, .pslots, .frames, .objs, .place, .link, .host, .fab, .integ, .icnt, .sup, .mon,
     .sec, .sb, .out]
  | .registerWrite _ _ _ _ | .writeReg _ _ =>
    [.ts, .reg, .chans, .cqs, .accts, .gfe, .clus, .resvs, .pslots, .frames, .objs, .place, .streams, .xfers, .link,
     .host, .fab, .integ, .icnt, .sup, .sec, .out, .fences, .tests]
  | .memInv _ | .snoop _ | .getEndpointId | .getMessageTypeSupport | .getEndpointUuid | .getDigests _
    | .getCertificate _ _ _ _ | .getIdentity _ _ | .getStatus _ _ | .readSensor _ _ | .readLog _ _ | .readRetire _ _
    | .laneMargining _ _ _ _ =>
    [.reg, .out]
  | .discoverSend _ | .portDisable _ | .discover _ _ | .routePlaneExpiry _ _ | .ackDue _ _ =>
    [.reg, .fab, .out]
  | .dvsecCacheEnable _ =>
    [.reg, .accts, .gfe, .clus, .resvs, .frames, .link, .host, .integ, .icnt, .sup, .out]
  | .perstAssert | .dlDown | .hotReset | .flr | .d3hotEntry | .d0Return =>
    [.reg, .chans, .cqs, .accts, .gfe, .clus, .resvs, .frames, .objs, .place, .link, .host, .fab, .integ, .icnt, .sup,
     .out, .memWait]
  | .perstDeassert | .linkRecoveryEnter | .memEnable _ _ =>
    [.reg, .link]
  | .linkL0Reached _ _ | .linkRecoveryExit _ _ =>
    [.reg, .chans, .cqs, .gfe, .link, .host, .out]
  | .orphanTimeout _ =>
    [.reg, .chans]
  | .refclkLoss =>
    [.reg, .chans, .cqs, .accts, .gfe, .clus, .resvs, .frames, .objs, .place, .link, .host, .fab, .integ, .icnt, .sup,
     .sb, .out, .memWait]
  | .clk10mQualified | .clk10mLoss | .dynamicAddressAssign _ | .i3cBusReset =>
    [.reg, .sb]
  | .portEnable _ | .portTrainingTimeout _ | .holddownExpiry _ | .peerFailedExpiry _ | .reassemblyTimeout _ _ _
    | .frameDiscard _ =>
    [.reg, .fab]
  | .portTrainingComplete _ | .portFault _ | .discoverReply _ _ _ | .response _ _ =>
    [.reg, .host, .fab, .out]
  | .gather _ _ | .partials _ _ | .update _ _ =>
    [.reg, .accts, .gfe, .host, .fab, .out]
  | .faultLogRecordWrite =>
    [.reg, .integ]
  | .inputMeterSample _ _ | .meterTimeout _ =>
    [.reg, .chans, .cqs, .accts, .gfe, .clus, .resvs, .frames, .objs, .place, .host, .fab, .integ, .icnt, .sup, .sec,
     .sb, .out]
  | .tempSensorSample _ _ | .tempSensorTimeout _ | .voltageMonitorSample _ _ =>
    [.reg, .chans, .cqs, .accts, .gfe, .clus, .resvs, .frames, .objs, .place, .host, .fab, .integ, .icnt, .sup, .mon,
     .out]
  | .voltageMonitorTimeout _ | .processMonitorSample _ _ | .processMonitorTimeout _ =>
    [.reg, .host, .mon, .out]
  | .railsOff | .powerOn _ =>
    [.clk, .ts, .reg, .chans, .cqs, .accts, .gfe, .clus, .cnts, .resvs, .pslots, .scales, .mem, .frames, .objs, .place,
     .streams, .xfers, .link, .host, .fab, .integ, .icnt, .sup, .mon, .sec, .sb, .staged, .out, .fences, .tests,
     .memWait]
  | .warmResetEnd _ =>
    [.reg, .chans, .cqs, .accts, .gfe, .frames, .objs, .place, .link, .host, .fab, .integ, .icnt, .sec, .sb, .out]
  | .setEndpointId _ | .getVersion _ | .negotiateAlgorithms _ _ _ | .eraseRetire _ _ =>
    [.reg, .sb, .out]
  | .getMctpVersionSupport _ | .challenge _ _ _ | .getMeasurements _ _ _ _ | .readReg _ _ | .loRead _ _ =>
    [.reg, .out, .freeCtr]
  | .getCapabilities _ =>
    [.reg, .sb, .out, .freeCtr]
  | .eraseComplete _ =>
    [.reg, .integ, .sb]
  | .warmReset _ _ =>
    [.reg, .sec, .out]
  | .delayReqSend _ =>
    [.ts, .reg, .out]
  | .refclkRestored =>
    [.reg, .link, .sb]
  | .vectorUnmask _ =>
    [.reg, .link, .host, .out]
  | .zeroFillComplete _ =>
    [.reg, .chans, .cqs, .accts, .gfe, .mem, .frames, .objs, .place, .host, .fab, .out]
  | .postedWriteDrain =>
    [.reg, .accts, .host, .out]

/-- Channel `c` is a HOST channel on which a completion record can be written now: the link and the channel carry writes, the
queue has room, and no record is held (04 R108, R112; 12 R379). -/
def State.CanRecord (s : State) (c : Nat) : Prop :=
  (s.chan c).kind = .host ∧ (s.chan c).state ≠ .destroyed ∧ s.mayWrite c = true ∧ s.cqFull c = false ∧
  (s.cq c).store.any (fun r => r.state == .held) = false

/-- The host write of the completion record of a command (04 R108, R111, R112): 32 bytes at the next number of its channel's
queue, with status, details, cluster (255 for none), and phase. -/
def State.recordOut (s : State) (d : Cmd) (clu status a b : Nat) : Output :=
  .hostWrite (s.recAddr d.chan (s.cq d.chan).next.toNat)
    (withPhase (recordBytes (slotSeq d.slot) (slotTag d.slot) status (if d.launch.isSome then 2 else 0) (slotOp d.slot) d.reruns
      s.tickN s.stamp (granShift s.clk.period) clu a b) (s.cq d.chan).next.toNat (s.cqLog d.chan))

/-- Among the outputs of `u` is the record of the end of `d` from state `t`, if one is due and can be written now: QUIET may ask for
none, ST_HOST_LOST has none, nor has a fold (04 R108 to R110, R112; 09 R280). -/
def State.RecordsIn (t : State) (d : Cmd) (u : State) (status a b : Nat) : Prop :=
  t.CanRecord d.chan → (status ≠ stOk ∨ slotQuiet d.slot = false) → status ≠ stHostLost → slotOp d.slot ≠ foldOp →
  t.recordOut d (if isClusterOp (slotOp d.slot) then (t.extra d.id).lastClu else 255) status a b ∈ u.out

/-- Command `d`, of opcode `op`, is the head of node `n` and is issued now in state `t` (04 R94, R96): in a channel `t` is `s`
itself; in a launch the predicate holds and the handles are bound (03 R78, R79). -/
def State.Issues (s : State) (n : Node) (op : Nat) (t : State) (d : Cmd) : Prop :=
  s.on = true ∧ (∃ h, s.headOf n = some h ∧ slotOp h.slot = op) ∧ s.prep n = (t, some d) ∧
  slotOp d.slot = op

end Sys2Proof.Machine
end

