-- ==== Sys2Proof/Certificates/Slice0/Obligations.lean ====
section
/-! DEFINITION. The statements about the block: as a whole, and family by family of its commands. Each says of the commands
that it names, for every state and operands that meet its hypotheses, that the command answers a next state, and what it holds. -/

open Sys2Proof Sys2Proof.Machine

/-! ## The block as a whole -/

/-- A step takes the command at the front of the queue and runs its meaning on the state with the queue's rest. -/
def Obligations.StepRunsTheFrontCommand : Prop :=
  ∀ (c : Instr) (rest : List Instr) (s : State), step { s with pending := c :: rest } = exec c { s with pending := rest }

/-- Without a waiting command an unpowered block stays as it is, and a powered one before its cutoff lets one cycle pass in
the same tick (DESIGN CHOICE, log entry 5). -/
def Obligations.EmptyQueueLetsOneCyclePass : Prop :=
  (∀ s : State, s.pending = [] → s.on = false → step s = .next s) ∧
  (∀ s : State, s.pending = [] → s.on = true → s.clk.stage = .early → s.clk.cyc + 1 < s.cutoff →
    ∃ t, step s = .next t ∧ t.clk = { s.clk with cyc := s.clk.cyc + 1, now := s.clk.now + 1 })

/-- Every command answers a next state in every state: the waiting commands stay as they are, outputs already sent stay,
and free values are used in rising order. While the module is off, no command but `POWER_ON` changes anything. -/
def Obligations.EveryCommandAnswers : Prop :=
  (∀ (c : Instr) (s : State), ∃ t, exec c s = .next t ∧ t.pending = s.pending ∧ s.out <+: t.out ∧ s.freeCtr ≤ t.freeCtr) ∧
  (∀ (c : Instr) (s : State), s.on = false → (∀ b, c ≠ .powerOn b) → exec c s = .next s.endStep)

/-- Every step from a state in canonical form, with boundary work staged exactly in the guard band, gives such a state. -/
def Obligations.EveryStepKeepsTheInvariant : Prop :=
  ∀ s t : State, s.Inv → step s = .next t → t.Inv

/-- The state after reset is in canonical form and has nothing staged. -/
def Obligations.ResetHoldsTheInvariant : Prop := State.reset.Inv

/-- The frame of every command: it answers a next state in which every part of the state is unchanged but those that
`mayChange` lists for it (all of memory, every register window, channel, cluster and object not listed). -/
def Obligations.CommandsChangeOnlyTheirParts : Prop :=
  ∀ (c : Instr) (s : State), ∃ t, exec c s = .next t ∧ OnlyChanges (mayChange c) s t

/-- The tick and the configuration image through the resets (02 R24; 16 R488): the tick number changes only at a tick edge, at
power-on, where it is 0, and at power-off; whatever the registers hold, an edge adds one to it; PERST#, hot reset, FLR and every
row of warm reset leave the clock, the image and every byte of memory as they are; the image is read in a boot alone. -/
def Obligations.TickAndImageOutlastResets : Prop :=
  (∀ (c : Instr) (s t : State), exec c s = .next t → t.clk.tick ≠ s.clk.tick →
    c = .tickEdge ∨ c = .railsOff ∨ ∃ b, c = .powerOn b) ∧
  (∀ (s : State) (b : BootInputs), s.on = false → b.railsFail = false →
    ∃ t, exec (.powerOn b) s = .next t ∧ t.clk.tick = 0) ∧
  (∀ s : State, s.on = true → s.GuardStaged → ∃ t, exec .tickEdge s = .next t ∧ t.clk.tick = s.clk.tick + 1) ∧
  (∀ (s : State) (a : Acc) (key : BitVec 8) (warm : Bool) (fw : Option FwImage) (inst : Byte) (req : List Byte),
    ∀ c ∈ [Instr.perstAssert, .hotReset, .flr, .secReset a key warm, .watchdogExpiry, .warmReset inst req, .warmResetEnd fw],
      ∃ t, exec c s = .next t ∧ t.clk = s.clk ∧ t.mem = s.mem ∧ t.sec.cfg = s.sec.cfg) ∧
  (∀ (c : Instr) (s t : State), exec c s = .next t → t.sec.cfg ≠ s.sec.cfg →
    c = .railsOff ∨ (∃ b, c = .powerOn b) ∨ (∃ a fw, c = .secRecEnd a fw ∧ s.sec.recovery = true))

/-! ## The clock and the serving tick (02) -/

/-- `TICK_EDGE` (02 R43): the tick number rises by one, the next tick begins at cycle 0 with admission open and nothing staged,
and its length is 1,300 times its period. -/
def Obligations.TickEdgeBeginsTheNextTick : Prop :=
  ∀ s : State, s.on = true → s.GuardStaged →
    ∃ t, exec .tickEdge s = .next t ∧ t.clk.tick = s.clk.tick + 1 ∧ t.clk.cyc = 0 ∧ t.clk.stage = .early ∧
      t.staged = none ∧ t.clk.len = 1300 * t.clk.period

/-- `GUARD_BAND_BEGIN` (02 R43): cycle G is reached, the boundary work is staged, the tick number stays, and from then on no
command is admitted. -/
def Obligations.GuardBandStagesTheBoundaryWork : Prop :=
  ∀ s : State, s.on = true → s.clk.stage ≠ .guard →
    ∃ t, exec .guardBandBegin s = .next t ∧ t.clk.stage = .guard ∧ t.staged.isSome = true ∧ t.clk.tick = s.clk.tick ∧
      t.clk.cyc = max s.clk.cyc s.G ∧ ∀ p, exec (.dispatchAdmit p) t = .next t

/-- `HOST_COMMIT_CUTOFF` (02 R39): the clock reaches G - 4,096. Of the host-writing commands not in a commit phase then, one
alone that is still in device work, without a repeat pair, stops and counts as an overrun, and one alone whose device work is
over begins its commit phase; where there is none every cluster stays as it is. -/
def Obligations.CutoffKillsHostWritersInDeviceWork : Prop :=
  ∀ s : State, s.Canon → s.on = true → s.clk.stage = .early →
    let q := s.toCycle s.cutoff
    (∃ t, exec .hostCommitCutoff s = .next t ∧
      t.clk = { s.clk with cyc := max s.clk.cyc s.cutoff, now := s.clk.now + (s.cutoff - s.clk.cyc), stage := .cut } ∧
      (q.inWork (fun e => writesHost e.slot) = [] → t.clus = q.clus)) ∧
    (∀ (n : Nat) (r : Run) (d : Cmd), q.inWork (fun e => writesHost e.slot) = [n] → q.running n = some (r, d) →
      (q.elapsed r < r.due → d.paired = false →
        ∃ t, exec .hostCommitCutoff s = .next t ∧ (t.clu n).run = none ∧
          (t.clu n).overruns = satAdd 16 (q.clu n).overruns 1) ∧
      (r.work.isSome = true → r.due ≤ q.elapsed r → s.clk.cyc ≤ s.cutoff →
        ∃ t, exec .hostCommitCutoff s = .next t ∧ (t.clu n).run = some { r with commitAt := some q.clk.now }))

/-! ## Time synchronisation (02) -/

/-- `PTP_OFFSET_SAMPLE` and `PTP_SAMPLE_TIMEOUT` (02 R52, R53): where a time message of the selected source completes a sample,
with the state's formula for it (PRESUMED, log entry 61), one more than 1 ms from the filtered offset of a locked module is
discarded and the eighth in a row starts ACQUIRING; any other is kept as the newest of eight, and from HOLDOVER starts ACQUIRING;
4 s after the last sample LOCKED goes to HOLDOVER and ACQUIRING to FREE. `PTP_ANNOUNCE`, `ANNOUNCE_RECEIPT_TIMEOUT` and
`DELAY_REQ_SEND` (02 R48, R52, R54): the source is the best of the masters announced on the followed domain, by the order that
the model takes (PRESUMED, log entry 61), a silent one is forgotten, an announcement of another domain is discarded, and a
Delay_Req leaves on a PTP port that is UP. -/
def Obligations.TimeSynchronisationFollowsItsSource : Prop :=
  (∀ (s : State) (p : Nat) (m : PtpMsg), s.ptpRuns = true → s.ts.state ≠ .free → s.sourceFollowed = true →
    s.ts.source = some (s.tsDomain * 8 + p) →
    let q := s.ts.take m
    (s.ts.sampleOf m = none → exec (.ptpOffsetSample p m) s = .next (State.endStep { s with ts := q })) ∧
    (∀ ns, s.ts.sampleOf m = some ns →
      (s.ts.state = .locked → s.ts.samples ≠ [] → 1000000 < (ns - s.tsOffset).natAbs →
        (s.ts.discards ≠ 7 →
          exec (.ptpOffsetSample p m) s = .next (State.endStep { s with ts := { q with discards := s.ts.discards + 1 } })) ∧
        (s.ts.discards = 7 →
          ∃ t, exec (.ptpOffsetSample p m) s = .next t ∧ t.ts.state = .acquiring ∧ t.ts.samples = s.ts.samples)) ∧
      ((s.ts.state = .acquiring ∨ (s.ts.state = .locked ∧ (s.ts.samples = [] ∨ (ns - s.tsOffset).natAbs ≤ 1000000))) →
        exec (.ptpOffsetSample p m) s = .next (State.endStep { s with
          ts := { q with samples := (ns :: s.ts.samples).take 8, sampleAt := s.clk.now, discards := 0 } })) ∧
      (s.ts.state = .holdover →
        ∃ t, exec (.ptpOffsetSample p m) s = .next t ∧ t.ts.state = .acquiring ∧
          t.ts.samples = (ns :: s.ts.samples).take 8))) ∧
  (∀ s : State, s.ptpRuns = true →
    (s.ts.sampleAt + sampleTimeout ≤ s.clk.now →
      (s.ts.state = .locked → ∃ t, exec .ptpSampleTimeout s = .next t ∧ t.ts.state = .holdover) ∧
      (s.ts.state = .acquiring → ∃ t, exec .ptpSampleTimeout s = .next t ∧ t.ts.state = .free)) ∧
    ((s.clk.now < s.ts.sampleAt + sampleTimeout ∨ s.ts.state = .free ∨ s.ts.state = .holdover) →
      exec .ptpSampleTimeout s = .next s.endStep) ∧
    (bestMaster s.masterList = none → ∃ t, exec .announceReceiptTimeout s = .next t ∧ t.ts.source = none) ∧
    (∀ x, bestMaster s.masterList = some x → ∃ t, exec .announceReceiptTimeout s = .next t ∧
      t.ts.source = (bestMaster (s.masterList.filter (fun y => y != x))).map Prod.fst) ∧
    (∀ p, s.tsOn = true → s.ptpPort p = true → (s.port p).state = .up →
      exec (.delayReqSend p) s = .next (State.endStep { s with
        ts := { s.ts with delayReqs := s.ts.delayReqs + 1 }, out := s.out ++ [.delayReq p] })) ∧
    (∀ p, (s.tsOn = false ∨ s.ptpPort p = false ∨ (s.port p).state ≠ .up) → exec (.delayReqSend p) s = .next s.endStep) ∧
    (∀ (p : Nat) (m : PtpMsg), (s.ts.state = .free ∨ s.sourceFollowed = false ∨ s.ts.source ≠ some (s.tsDomain * 8 + p)) →
      exec (.ptpOffsetSample p m) s = .next s.endStep) ∧
    ∀ (p d : Nat) (m : PtpMaster),
      (d ≠ s.tsDomain ∨ s.ptpPort p = false → exec (.ptpAnnounce p d m) s = .next s.endStep) ∧
      (d = s.tsDomain → s.ptpPort p = true → ∃ t, exec (.ptpAnnounce p d m) s = .next t ∧
        t.ts.source = (bestMaster (s.masterList.filter (fun x => x.1 != d * 8 + p || x.2.sender != m.sender) ++
          [(d * 8 + p, m)])).map Prod.fst))

/-! ## Scheduling (02, 05) and checks of runs (14) -/

/-- `DISPATCH_ADMIT` (02 R31; 05 R121, R135, R138): with one candidate, a `GEMM` that is the head of its node, passes its rules
and fits a SERVING cluster of its partition, the command is admitted: it joins the cluster's queue with its charge, which
leaves the allowance, and its shadow tiles are reserved. -/
def Obligations.DispatcherAdmitsAFittingHead : Prop :=
  ∀ (s t : State) (p id n : Nat) (d : Cmd),
    let q : State := { s with gfe := { s.gfe with lastAdmit := Sparse.put (fun _ => 0) s.gfe.lastAdmit p (s.clk.now + 1) } }
    let k := slotCharge d.slot
    s.Canon → s.on = true → s.coresRun = true → s.sup.stopping = false → s.partOn p = true → s.clk.cyc < s.G →
    s.decided p = false → (s.gfe.cmds.map Cmd.id).Nodup → q.lost id = false → q.candidates p = [id] → q.cmd? id = some d → slotOp d.slot = 0x20 → q.prep d.node = (t, some d) →
    t.inherited d = none → t.operandBad d = [] → k ≤ t.limitOf d.part →
    (t.withScales (t.headTiles d)).filter t.inCellar = [] → d.more = none →
    (t.openClus p).find? (fun m => t.fits m k) = some n → t.sup.charged + k ≤ t.sup.allow →
    t.roomFor d.cls (t.demandOf d) = true →
    ∃ u, exec (.dispatchAdmit p) s = .next u ∧ (u.clu n).queue = (t.clu n).queue ++ [(d.id, k)] ∧
      u.sup.charged = t.sup.charged + k ∧
      u.resvs = t.resvs ++ (t.demandOf d).map (fun x => ⟨d.id, n, x.1, d.cls, x.2⟩) ∧ ∀ m, m ≠ n → u.clu m = t.clu m

/-- `COMMAND_START` (02 R34): the first command of a cluster's queue that fits the limit starts, at once or in the next cycle,
with its charge and budget; one that does not fit, and is no run of a repeat pair, is deferred, which counts. -/
def Obligations.CommandStartRunsOrDefers : Prop :=
  ∀ (s : State) (n id charge : Nat) (rest : List (Nat × Nat)) (d : Cmd), s.Canon → s.on = true →
    (s.clu n).queue = (id, charge) :: rest → (s.clu n).run = none → s.clk.cyc < s.G → s.cmd? id = some d →
    (s.clk.cyc + (s.startAt n - s.clk.now) + charge ≤ s.limitAt n →
      ∃ t r, exec (.commandStart n) s = .next t ∧ (t.clu n).queue = rest ∧ (t.clu n).run = some r ∧ r.cmd = d.id ∧
        r.charge = charge ∧ r.budget = (if slotOp d.slot = foldOp then charge else slotBudget d.slot) ∧ r.startNow = s.startAt n ∧ r.prepared = false ∧ r.commitAt = none) ∧
    (s.limitAt n < s.clk.cyc + (s.startAt n - s.clk.now) + charge → d.paired = false →
      ∃ t, exec (.commandStart n) s = .next t ∧ (t.clu n).run = none ∧
        (t.clu n).queue = (s.clu n).queue.filter (fun x => x.1 != id) ∧
        (t.clu n).deferrals = satAdd 16 (s.clu n).deferrals 1 ∧
        t.gfe.cmds = s.gfe.cmds.map (fun e => if e.id = d.id then { d with phase := d.backPhase, accTick := s.tickN } else e))

/-- `COMMAND_FLIP` (02 R36; 05 R124; 14 R428): when the device work of a run is over, the cluster is free, the run's cycles
count as used, and every output tile's new home is its shadow tile; a run of a repeat pair keeps its result instead. -/
def Obligations.FlipMakesOutputTilesHomes : Prop :=
  ∀ (s : State) (n : Nat) (r : Run) (d : Cmd) (w : RunWork), s.on = true → (s.runFold n).flipReady n = some (r, d, w) →
    let q := s.runFold n
    (s.Canon → d.paired = false →
      ∃ t, exec (.commandFlip n) s = .next t ∧ (t.clu n).run = none ∧
        (t.clu n).used = (q.clu n).used + (q.elapsed r + 1) ∧ (t.clu n).freeAt = r.startNow + (q.elapsed r + 1)) ∧
    (s.Canon → d.paired = false → s.host.memWait = [] → (w.shadows.map (fun h => (h.obj, h.tile))).Nodup →
      (∀ h ∈ w.shadows, ∃ o, q.obj? h.obj = some o ∧ o.freed = false) →
      ∃ t, exec (.commandFlip n) s = .next t ∧ ∀ h ∈ w.shadows, t.homeOf h.obj h.tile = some h.fid) ∧
    (s.Canon → d.paired = true →
      ∃ t e m, exec (.commandFlip n) s = .next t ∧ (t.clu n).run = none ∧ t.cmd? d.id = some e ∧ d.more = some m ∧
        e.more = some (m.put n (fun p =>
          { p with done := true, cycles := q.elapsed r + 1, status := w.status, detailA := w.detailA, detailB := w.detailB,
                   work := some w })))

/-- `COMMIT_PHASE_BEGIN` (05 R125; 12 R385): once its device work is over, and no later than the cutoff, a `HOST_WRITE` begins
its commit phase: its bytes leave the staging, on a HOST channel for the posted writes, in order. -/
def Obligations.CommitPhasePostsTheHostWrite : Prop :=
  ∀ (s : State) (n : Nat) (r : Run) (d : Cmd) (w : RunWork), s.Canon → s.on = true → s.running n = some (r, d) →
    r.work = some w → slotOp d.slot = 0x38 → r.commitAt = none →
    (r.due ≤ s.elapsed r → s.clk.cyc ≤ s.cutoff →
      ∃ t, exec (.commitPhaseBegin n) s = .next t ∧ (t.clu n).run = some { r with commitAt := some s.clk.now } ∧
        t.host.staged = s.host.staged.filter (fun x => x.1 != d.id) ∧
        ((s.chan d.chan).kind = .host →
          t.host.posted = s.host.posted ++ w.host.flatMap (fun x => postedOf (s.gfe.nextId + 1) d.chan x.1 x.2))) ∧
    ((s.elapsed r < r.due ∨ s.cutoff < s.clk.cyc) → exec (.commitPhaseBegin n) s = .next s.endStep)

/-- `RUN_FINDS_CONDITION` (05 R522; 09 R265, R267; 14 R421, R425): a run whose operand is POISONED or fails its check, also by what
this read observes, stops without a flip, and so does one whose output fails its production check or whose duplicate datapaths
differ; a run without a condition goes on, and so does one in its commit phase. -/
def Obligations.RunsStopAtConditions : Prop :=
  ∀ (s : State) (n : Nat) (r : Run) (d : Cmd), s.Canon → s.on = true → s.running n = some (r, d) →
    (r.commitAt.isSome = true → ∀ f, exec (.runFindsCondition n f) s = .next s.endStep) ∧
    (r.commitAt = none →
      (∀ x, r.work = none → s.foundCond d = some x →
        ∃ t, exec (.runFindsCondition n none) s = .next t ∧ (t.clu n).run = none ∧
          (t.clu n).used = (s.clu n).used + (s.elapsed r + 1)) ∧
      ((r.work.isSome = true ∨ s.foundCond d = none) → exec (.runFindsCondition n none) s = .next s.endStep) ∧
      (∀ f, f ≠ .mismatch → f ≠ .production → r.work = none →
        let q := s.observe n d f
        (q.foundCond d = none → exec (.runFindsCondition n (some f)) s = .next q.endStep) ∧
        (∀ x, q.foundCond d = some x → ∃ t, exec (.runFindsCondition n (some f)) s = .next t ∧ (t.clu n).run = none)) ∧
      (∀ f, f ≠ .mismatch → f ≠ .production → r.work.isSome = true →
        exec (.runFindsCondition n (some f)) s = .next s.endStep) ∧
      ([0x30, 0x31, 0x38].contains (slotOp d.slot) = true →
        exec (.runFindsCondition n (some .production)) s = .next s.endStep) ∧
      ([0x30, 0x31, 0x38].contains (slotOp d.slot) = false →
        ∃ t, exec (.runFindsCondition n (some .production)) s = .next t ∧ (t.clu n).run = none) ∧
      (s.twice n d = false → exec (.runFindsCondition n (some .mismatch)) s = .next s.endStep) ∧
      (s.twice n d = true → ∃ t, exec (.runFindsCondition n (some .mismatch)) s = .next t ∧ (t.clu n).run = none ∧
        (t.cnt n).tblMismatch = satAdd 16 (s.cnt n).tblMismatch 1))

/-- `REPEAT_PAIR_COMPARE` and `FAULT_COUNT_AGE` (02 R37; 14 R428, R429): before the guard band, once the runs of a pair are over, a
pair in which the second run triggered, or whose runs disagree without a trigger, makes the SERVING slot of the first cluster
SUSPECT; one in which the third alone triggered adds to the fault counts of the slots of both runs; runs that agree without a
trigger add to that of the first cluster. A count forgets what is older than 24 hours. -/
def Obligations.RepeatPairsJudgeTheFirstCluster : Prop :=
  (∀ (s : State) (id : Nat) (d : Cmd) (m : RepeatPair), s.Canon → s.on = true → s.cmd? id = some d → d.more = some m →
    let t2 := m.run2.elim false PairRun.trigger
    let t3 := m.run3.elim false PairRun.trigger
    ((d.paired = false ∨ m.runsDone = false ∨ s.G ≤ s.clk.cyc) → exec (.repeatPairCompare id) s = .next s.endStep) ∧
    (d.paired = true → m.runsDone = true → s.clk.cyc < s.G →
      (t2 = true → (s.pslot m.slot).state = .serving →
        ∃ t, exec (.repeatPairCompare id) s = .next t ∧ (t.pslot m.slot).state = .suspect) ∧
      (∀ a b, m.run2 = some a → m.run3 = some b → t2 = false → t3 = false → s.agree d a b = false →
        (s.pslot m.slot).state = .serving →
        ∃ t, exec (.repeatPairCompare id) s = .next t ∧ (t.pslot m.slot).state = .suspect) ∧
      (∀ a b, m.run2 = some a → m.run3 = some b → t2 = false → t3 = true → s.slotOf b ≠ m.slot →
        ∃ t, exec (.repeatPairCompare id) s = .next t ∧ (t.pslot m.slot).faults = (s.pslot m.slot).faults ++ [s.clk.now] ∧
          (t.pslot (s.slotOf b)).faults = (s.pslot (s.slotOf b)).faults ++ [s.clk.now]) ∧
      (∀ b, m.run2 = none → m.run3 = some b → t3 = true →
        ∃ t, exec (.repeatPairCompare id) s = .next t ∧
          (t.pslot (s.slotOf b)).faults = (s.pslot (s.slotOf b)).faults ++ [s.clk.now]) ∧
      (∀ p w, (m.run3 = some p ∨ (m.run3 = none ∧ m.run2 = some p)) → t2 = false → t3 = false →
        (∀ a b, m.run2 = some a → m.run3 = some b → s.agree d a b = true) → p.work = some w →
        ∃ t, exec (.repeatPairCompare id) s = .next t ∧ (t.pslot m.slot).faults = (s.pslot m.slot).faults ++ [s.clk.now]) ∧
      (∀ p, (m.run3 = some p ∨ (m.run3 = none ∧ m.run2 = some p)) → t2 = false → t3 = false →
        (∀ a b, m.run2 = some a → m.run3 = some b → s.agree d a b = true) → p.work = none → isFailure p.status = true →
        ∃ t, exec (.repeatPairCompare id) s = .next t ∧ t.pslot m.slot = s.pslot m.slot))) ∧
  (∀ (s : State) (p : Nat), s.Canon → s.on = true →
    ∃ t, exec (.faultCountAge p) s = .next t ∧ (t.pslot p).faults = s.recentFaults p)

/-- `ARRAY_BLOCK_COMPARE` and `SKINK_GROUP_COMPARE` (07 R190, R191, R197, R206): a block or group that is due is compared, with the
bits that an armed injection and a glitch invert: it counts, and without a failed row the run goes on to the next, or from the
last one to its drain; with one the run stops under the repeat rule. One that is not due, or in the guard band, waits. -/
def Obligations.ComparisonsPassOrStopTheRun : Prop :=
  ∀ (s : State) (n : Nat) (arr : Bool) (g : Option Glitch) (r : Run) (d : Cmd) (c : Check) (rest : List Check),
    let kind : CheckKind := if arr then .array else .skink
    let cfg := if arr then 0x100 else 0x140
    let c1 := match s.injected n c with | some (i, l, b) => c.invert i l b | none => c
    let c2 := match g with | some x => c1.invert (if arr then x.row else 0) x.lane x.bit | none => c1
    let v := c2.verdict (s.product d.slot).kb (s.fld .clu n cfg 3 0) (s.fld .clu n cfg 4 4 == 1)
    let cmp : Instr := if arr then .arrayBlockCompare n g else .skinkGroupCompare n g
    s.Canon → s.on = true → s.running n = some (r, d) → r.checks = c :: rest → c.kind = kind →
    (c.due ≤ s.elapsed r → s.clk.cyc < s.G → v.1 = [] → rest ≠ [] →
      ∃ t, exec cmp s = .next t ∧ t.cnt n = (s.cnt n).count kind 0 v.2 none ∧
        (t.clu n).run = some { r with checks := rest, passed := r.passed ++ [c2], skipped := r.skipped + v.2 }) ∧
    (c.due ≤ s.elapsed r → s.clk.cyc < s.G → v.1 = [] → rest = [] →
      ∃ t, exec cmp s = .next t ∧ ((t.clu n).run = none ∨
        ∃ e, (t.clu n).run = some e ∧ e.passed = r.passed ++ [c2] ∧ e.skipped = r.skipped + v.2)) ∧
    (c.due ≤ s.elapsed r → s.clk.cyc < s.G → v.1 ≠ [] →
      ∃ t last, exec cmp s = .next t ∧ t.cnt n = (s.cnt n).count kind v.1.length v.2 last ∧ (t.clu n).run = none) ∧
    (s.elapsed r < c.due ∨ s.G ≤ s.clk.cyc → exec cmp s = .next s.endStep)

/-- `SUMMARY_COMPARE` (08 R233, R239): a pass whose duplicate reducers agree, or whose check is not enabled, has no check left; one
in which a pair in use differs, by an armed injection or a glitch, with the check enabled, is an anomaly that stops the run. A
glitch of one pair alone always differs. -/
def Obligations.SummaryComparisonsCatchGlitches : Prop :=
  ∀ (s : State) (n : Nat) (g : Option Glitch) (r : Run) (d : Cmd) (c : Check) (rest : List Check), s.Canon → s.on = true →
    s.running n = some (r, d) → r.checks = c :: rest → c.kind = .summary →
    let unit := s.fld .clu n 0x194 2 0
    let armed : Bool := s.fld .clu n 0x194 31 31 == 1 && c.cols.contains unit
    let first := listGet [] c.rows 0
    let one := if armed then listSet first unit ((listGet 0 first unit) ^^^ 2 ^ s.fld .clu n 0x194 12 8) else first
    let second := match g with
      | some x => listSet one x.lane ((listGet 0 one x.lane) ^^^ 2 ^ (x.bit % 32))
      | none => one
    let differ := c.cols.filter (fun u => listGet 0 first u != listGet 0 second u)
    let on := s.fld .clu n 0x180 0 0
    ((s.elapsed r < c.due ∨ s.G ≤ s.clk.cyc) → exec (.summaryCompare n g) s = .next s.endStep) ∧
    (c.due ≤ s.elapsed r → s.clk.cyc < s.G →
      ((on ≠ 1 ∨ differ = []) →
        ∃ t, exec (.summaryCompare n g) s = .next t ∧ (t.clu n).run = some { r with checks := rest } ∧
          (t.cnt n).vecPasses = satAdd 32 (s.cnt n).vecPasses 1 ∧ (t.cnt n).vecAnomalies = (s.cnt n).vecAnomalies) ∧
      (on = 1 → differ ≠ [] →
        ∃ t, exec (.summaryCompare n g) s = .next t ∧ (t.clu n).run = none ∧
          (t.cnt n).vecAnomalies = satAdd 16 (s.cnt n).vecAnomalies 1) ∧
      (∀ x, g = some x → armed = false → on = 1 → x.lane < first.length → c.cols.contains x.lane = true →
        ∃ t, exec (.summaryCompare n g) s = .next t ∧ (t.clu n).run = none))

/-! ## Channels and rings (03, 04, 12) -/

/-- The operations of `GFE_CHAN_CMD` (03 R56 to R58; 12 R360, R380): each takes a HOST channel of its listed state, under its
current generation, to the state that the spec names; `CREATE` also clears its queue and accounting and counts the
generation up, and is ignored unless the channel is DESTROYED; any other under another generation is ignored; each that is
ignored leaves the channel as it is and sets WRITE_IGNORED. -/
def Obligations.ChannelOperationsMoveStates : Prop :=
  ∀ (s : State) (a : Acc) (gen : BitVec 20), s.Canon → s.served = true →
    let c := s.selChan a
    let ch := s.chan c
    (ch.kind = .host → ch.state = .destroyed →
      ∃ t q, exec (.create a gen) s = .next t ∧
        t.chan c = { Chan.init with state := .created, gen := ch.gen + 1, expSeq := q } ∧ t.cq c = ChanCq.init ∧
        t.acct c = { ChanAcct.init with createTick := s.tickN }) ∧
    (ch.kind = .fabric ∨ ch.state ≠ .destroyed →
      ∃ t, exec (.create a gen) s = .next t ∧ t.chan c = ch ∧ (t.regGet .gfe c 0x22C).testBit 0 = true) ∧
    (ch.kind = .host → ch.gen = gen → ch.state = .created → s.link.cacheEn = true →
      ∃ t q, exec (.activate a gen) s = .next t ∧
        t.chan c = { ch with state := .active, expSeq := q, ringWritten := false, cqWritten := false }) ∧
    (ch.kind = .host → ch.gen = gen → ch.state = .active →
      ∃ t, exec (.pause a gen) s = .next t ∧ t.chan c = { ch with state := .paused .host, reread := none } ∧
        t.host.reads = s.host.reads.filter (fun r => r.id != .ring c)) ∧
    (ch.kind = .host → ch.gen = gen → (∃ k, ch.state = .paused k) → s.link.cacheEn = true →
      ∃ t, exec (.resume a gen) s = .next t ∧ (t.chan c).state = .active) ∧
    (ch.kind = .host → ch.gen = gen → ch.state = .created →
      ∃ t, exec (.destroy a gen) s = .next t ∧ (t.chan c).state = .destroyed) ∧
    (ch.kind = .host → ch.gen = gen → ch.state = .active → s.cmdsOf c ≠ [] →
      ∃ t, exec (.destroy a gen) s = .next t ∧ (t.chan c).state = .draining) ∧
    (ch.kind = .host → ch.gen = gen → ch.state = .orphaned →
      ∃ t, exec (.reattach a gen) s = .next t ∧ t.chan c = { ch with state := .paused .reattach }) ∧
    (ch.kind = .fabric ∨ ch.gen ≠ gen →
      ∀ op ∈ [Instr.activate a gen, .pause a gen, .resume a gen, .destroy a gen, .reattach a gen],
        ∃ t, exec op s = .next t ∧ t.chan c = ch ∧ (t.regGet .gfe c 0x22C).testBit 0 = true)

/-- `DOORBELL`, `CQ_HEAD` and `ORPHAN_TIMEOUT` (03 R58, R59, R61; 04 R112; 12 R381): a doorbell within the ring sets the tail of a
channel that is CREATED, ACTIVE or PAUSED, one beyond it sets the range error, and one on a channel PAUSED as stale resumes it,
whose TAIL starts again at 0 if its ring fields were rewritten (DEDUCED, log entry 14); a count within the queue becomes its
HEAD, any other is ignored with WRITE_IGNORED; an orphaned channel whose time is over is destroyed at the next edge. Any other
state of the channel is left as it is. -/
def Obligations.DoorbellsAndHeadsMoveQueues : Prop :=
  ∀ (s : State) (c : Nat), s.Canon →
    let ch := s.chan c
    (∀ tail : BitVec 32, s.served = true → ch.kind = .host →
      let full : Bool := decide (2 ^ (s.ringOf c).2 < (tail - ch.head).toNat)
      let next := if full then ch.tail else tail
      ((ch.state = .created ∨ ch.state = .active ∨ ∃ k, k ≠ .stale ∧ ch.state = .paused k) →
        ∃ t, exec (.doorbell c tail) s = .next t ∧ (t.chan c).tail = next ∧ (t.chan c).head = ch.head ∧
          (t.chan c).state = ch.state ∧ (full = true → (t.regGet .gfe c 0x22C).testBit 2 = true)) ∧
      (ch.state = .paused .stale →
        ∃ t, exec (.doorbell c tail) s = .next t ∧ (t.chan c).state = .active ∧
          (t.chan c).tail = if ch.ringWritten then 0 else next) ∧
      ((ch.state = .orphaned ∨ ch.state = .draining ∨ ch.state = .destroyed) →
        exec (.doorbell c tail) s = .next s.endStep)) ∧
    (∀ n : BitVec 32, s.served = true → ch.kind = .host → ch.state ≠ .destroyed →
      (((s.cq c).next - n).toNat ≤ 2 ^ s.cqLog c → ∃ t, exec (.cqHead c n) s = .next t ∧ (t.cq c).head = n) ∧
      (2 ^ s.cqLog c < ((s.cq c).next - n).toNat →
        ∃ t, exec (.cqHead c n) s = .next t ∧ t.cq c = s.cq c ∧ (t.regGet .gfe c 0x22C).testBit 0 = true)) ∧
    (∀ n : BitVec 32, ch.kind = .fabric → exec (.doorbell c n) s = .next s.endStep ∧ exec (.cqHead c n) s = .next s.endStep) ∧
    (∀ n : BitVec 32, ch.state = .destroyed → exec (.cqHead c n) s = .next s.endStep) ∧
    (s.on = true →
      let due := ch.orphanedAt + s.fld .cxl 0 0x020 11 0 * secCycles
      (ch.state = .orphaned → due ≤ s.clk.now →
        ∃ t, exec (.orphanTimeout c) s = .next t ∧ t.chan c = { ch with timedOut := true }) ∧
      (ch.state ≠ .orphaned ∨ s.clk.now < due → exec (.orphanTimeout c) s = .next s.endStep))

/-- `RING_READ_RETURN`, `RING_REREAD_ISSUE` and `DOORBELL_STALE` (03 R61 to R65, R68, R74): a slot that passes its checks becomes
the channel's next command, and HEAD and the expected SEQ pass it; one that ends with ST_RANGE at once is passed too; one that
lacks a context waits at HEAD; one whose extension slots are not yet behind the tail waits for the tail; one that fails is read
again, at most eight times and before the verdict; after that the channel is PAUSED as stale, unless a doorbell has come in the
same cycle. -/
def Obligations.RingReadsAcceptOrRereadSlots : Prop :=
  ∀ (s : State) (c : Nat), s.Canon → s.on = true → (s.chan c).state = .active →
    let ch := s.chan c
    (∀ (slot ext : List Byte) (x : HostRd) (rest : List HostRd),
      takeFirst (fun r : HostRd => r.id == .ring c) s.host.reads = some (x, rest) →
      let q := ({ s with host := { s.host with reads := rest } } : State)
      let q1 := ((q.setChan c { ch with reread := none }).dropReads c).extReads c (slotExt slot)
      let q2 := if slotReqOpen slot then q1.closeCtx c else q1
      let head : Bool := slotSeq slot == ch.expSeq.toNat && slotCrcOk slot
      let whole : Bool := decide (1 + slotExt slot ≤ (ch.tail - ch.head).toNat)
      ((∃ r, ch.reread = some r ∧ (8 ≤ r.returned ∨ r.start + 2600 ≤ s.clk.now)) →
        exec (.ringReadReturn c slot ext) s = .next q.endStep) ∧
      ((∀ r, ch.reread = some r → r.returned < 8 ∧ s.clk.now < r.start + 2600) →
        (head = true → whole = true → slotXcrcOk slot ext = true →
          (q1.acceptBad c slot = none → (q2.needsCtx c slot = false ∨ q2.ctxFree c = true) →
            ∃ t e, exec (.ringReadReturn c slot ext) s = .next t ∧ t.gfe.cmds = s.gfe.cmds ++ [e] ∧ e.chan = c ∧ e.slot = slot ∧
              e.payload = ext.take (64 * slotExt slot) ∧ e.phase = .unissued ∧ e.cls = slotClass slot ∧
              (t.chan c).head = ch.head + BitVec.ofNat 32 (1 + slotExt slot) ∧ (t.chan c).expSeq = ch.expSeq + 1) ∧
          (q1.acceptBad c slot = none → q2.needsCtx c slot = true → q2.ctxFree c = false →
            ∃ t w, exec (.ringReadReturn c slot ext) s = .next t ∧ (t.chan c).ctxWait = some w ∧ w.slot = slot ∧
              (t.chan c).head = ch.head ∧ (t.chan c).expSeq = ch.expSeq ∧ (t.regGet .gfe c 0x22C).testBit 4 = true) ∧
          (∀ off, q1.acceptBad c slot = some off →
            ∃ t, exec (.ringReadReturn c slot ext) s = .next t ∧
              (t.chan c).head = ch.head + BitVec.ofNat 32 (1 + slotExt slot) ∧ (t.chan c).expSeq = ch.expSeq + 1)) ∧
        (head = true → whole = false →
          ∃ t, exec (.ringReadReturn c slot ext) s = .next t ∧
            t.chan c = { ch with reread := none, extWait := 1 + slotExt slot }) ∧
        ((head = false ∨ (whole = true ∧ slotXcrcOk slot ext = false)) →
          ∃ t, exec (.ringReadReturn c slot ext) s = .next t ∧
            t.chan c = { ch with reread := some (match ch.reread with
              | none => ⟨s.clk.now, 0, 0, slotSeq slot⟩
              | some r => { r with returned := r.returned + 1, lastSeq := slotSeq slot }) }))) ∧
    (∀ r, ch.reread = some r → r.issued < 8 → r.start + 260 * (r.issued + 1) ≤ s.clk.now → s.clk.now < r.start + 2600 →
      s.linkUp = true → s.link.cacheEn = true →
      ∃ t, exec (.ringRereadIssue c) s = .next t ∧ t.chan c = { ch with reread := some { r with issued := r.issued + 1 } } ∧
        t.out = s.out ++ [.ringRead c ch.head (s.ringAddr c ch.head)]) ∧
    (∀ r, ch.reread = some r → (8 ≤ r.issued ∨ s.clk.now < r.start + 260 * (r.issued + 1)) →
      exec (.ringRereadIssue c) s = .next s.endStep) ∧
    (∀ r, ch.reread = some r → (8 ≤ r.returned ∨ r.start + 2600 ≤ s.clk.now) →
      ∃ t, exec (.doorbellStale c) s = .next t ∧
        (t.chan c).state = (if ch.bellAt = s.clk.now + 1 then .active else .paused .stale) ∧
        (t.chan c).stale = BitVec.ofNat 32 (ch.expSeq.toNat + r.lastSeq * 65536)) ∧
    (∀ r, ch.reread = some r → r.returned < 8 → s.clk.now < r.start + 2600 →
      exec (.doorbellStale c) s = .next s.endStep)

/-! ## Commands of the front end (03, 04) -/

/-- `NOP` (03 R92) at a head ends with ST_OK, and `TIMESTAMP` (03 R91) without an object too; the record of either, in a HOST
channel, names no cluster (04 R111). A `TIMESTAMP` with an object whose tile is readable, and the 16 bytes inside it and
aligned, leaves tick and stamp there; a handle that names no object, and bytes beyond it or misaligned, end it with ST_RANGE,
a POISONED tile with ST_POISONED. -/
def Obligations.NopAndTimestampEndWithOk : Prop :=
  (∀ (s t : State) (n : Node) (d : Cmd), s.Issues n 0x00 t d →
    ∃ u, exec (.nop n) s = .next u ∧ t.RecordsIn d u stOk 0 0) ∧
  (∀ (s t : State) (n : Node) (d : Cmd), t.Canon → s.Issues n 0x01 t d →
    let h := op32 d.slot 20
    let off := op32 d.slot 24
    ((leField d.slot 16 1).testBit 1 = false →
      ∃ u, exec (.timestamp n) s = .next u ∧ t.RecordsIn d u stOk 0 0) ∧
    ((leField d.slot 16 1).testBit 1 = true → t.liveObj h = none →
      ∃ u, exec (.timestamp n) s = .next u ∧ t.RecordsIn d u stRange 20 0) ∧
    (∀ o : Obj, (leField d.slot 16 1).testBit 1 = true → t.liveObj h = some o →
      (o.tiles * 4096 < off + 16 → ∃ u, exec (.timestamp n) s = .next u ∧ t.RecordsIn d u stRange 20 0) ∧
      (off + 16 ≤ o.tiles * 4096 → off % 16 ≠ 0 → ∃ u, exec (.timestamp n) s = .next u ∧ t.RecordsIn d u stRange 24 0) ∧
      (∀ f, off + 16 ≤ o.tiles * 4096 → off % 16 = 0 → t.homeOf h (off / 4096) = some f →
        ((t.frame f).state = .poisoned →
          ∃ u, exec (.timestamp n) s = .next u ∧ t.RecordsIn d u stPoisoned h (off / 4096)) ∧
        ((t.frame f).state ≠ .poisoned →
          ∃ u g, exec (.timestamp n) s = .next u ∧ u.homeOf h (off / 4096) = some g ∧
            u.bytesAt (frameData g + off % 4096) 16 = t.stampRecord))))

/-- `FENCE_SIGNAL` (04 R101, R102): ADD sets the fence to the sum, MAX to the greater value, every other fence keeps its value, and
the command ends when its cycle is over, as a lone signal then with the counter in DETAIL_B of its record; a handle of another
generation, and an ADD of 0, of 2^32 or more, or beyond 64 bits, end it with ST_RANGE. -/
def Obligations.FenceSignalReportsTheNewValue : Prop :=
  (∀ (s t : State) (n : Node) (d : Cmd), s.Issues n 0x08 t d →
    let f := fenceNo (op32 d.slot 16)
    let cur := (t.fence f).val.toNat
    let v := fenceValue d.slot
    let isMax := (leField d.slot 20 1).testBit 0
    let next := if isMax then max cur v else cur + v
    (t.fenceOk (op32 d.slot 16) = false → ∃ u, exec (.fenceSignal n) s = .next u ∧ t.RecordsIn d u stRange 16 0) ∧
    (t.fenceOk (op32 d.slot 16) = true → (isMax = true ∨ (v ≠ 0 ∧ v < 2 ^ 32 ∧ cur + v < 2 ^ 64)) →
      ∃ u, exec (.fenceSignal n) s = .next u ∧
        u.gfe.fences = (t.setFence f { t.fence f with val := BitVec.ofNat 64 next }).gfe.fences ∧ u.gfe.touched.contains f = true ∧
        u.gfe.cmds = t.gfe.cmds.map (fun e => if e.id = d.id then { d with phase := .waiting t.tickN, begun := true } else e)) ∧
    (t.fenceOk (op32 d.slot 16) = true → isMax = false → (v = 0 ∨ 2 ^ 32 ≤ v ∨ 2 ^ 64 ≤ cur + v) →
      ∃ u, exec (.fenceSignal n) s = .next u ∧ t.RecordsIn d u stRange 24 0)) ∧
  (∀ (s : State) (d : Cmd) (f : Nat), s.pending = [] → s.on = true → s.clk.stage = .early → s.clk.cyc + 1 < s.cutoff →
    s.gfe.touched = [f] → s.applied f = [d] →
    ∃ u, step s = .next u ∧ s.RecordsIn d u stOk 0 (s.fence f).val.toNat)

/-- `FENCE_WAIT` (04 R100, R104, R105): one of a handle of another generation ends with ST_RANGE; a satisfied one ends with the
counter in DETAIL_B, one that closes a cycle ends with ST_FENCE_CYCLE, any other waits; a waiting one ends once it is
satisfied, and goes on waiting until then. `FENCE_TIMEOUT` (04 R106, R114): a wait of T ticks or more ends with
ST_FENCE_TIMEOUT, a `FENCE_WAIT` with its handle and the counter as details, a `HOST_FENCE` while a writer that it waits for has
not ended; a wait that is satisfied ends with ST_OK all the same; before its time, and without a wait, nothing happens. -/
def Obligations.FenceWaitsEndOnValueOrTime : Prop :=
  (∀ (s t : State) (n : Node) (d : Cmd), s.Issues n 0x09 t d →
    let f := fenceNo (op32 d.slot 16)
    let cur := (t.fence f).val.toNat
    ((∃ k, d.phase = .waiting k) →
      (fenceValue d.slot ≤ cur → ∃ u, exec (.fenceWait n) s = .next u ∧ t.RecordsIn d u stOk 0 cur) ∧
      (cur < fenceValue d.slot → exec (.fenceWait n) s = .next t.endStep)) ∧
    ((∀ k, d.phase ≠ .waiting k) →
      (t.fenceOk (op32 d.slot 16) = false → ∃ u, exec (.fenceWait n) s = .next u ∧ t.RecordsIn d u stRange 16 0) ∧
      (t.fenceOk (op32 d.slot 16) = true →
        (fenceValue d.slot ≤ cur → ∃ u, exec (.fenceWait n) s = .next u ∧ t.RecordsIn d u stOk 0 cur) ∧
        (cur < fenceValue d.slot →
          (t.closesCycle d.node f = true →
            ∃ u, exec (.fenceWait n) s = .next u ∧ t.RecordsIn d u stFenceCycle (op32 d.slot 16) (fenceValue d.slot)) ∧
          (t.closesCycle d.node f = false →
            ∃ u, exec (.fenceWait n) s = .next u ∧ u.gfe.cmds = t.gfe.cmds.map (fun e =>
              if e.id = d.id then { d with phase := .waiting t.tickN, begun := true } else e)))))) ∧
  (∀ (s : State) (n : Node), s.on = true →
    (s.waitOf n = none → exec (.fenceTimeout n) s = .next s.endStep) ∧
    (∀ d k, s.waitOf n = some (d, k) →
      let cur := (s.fence (fenceNo (op32 d.slot 16))).val.toNat
      (s.tickN < k + s.fenceTimeout d.chan → exec (.fenceTimeout n) s = .next s.endStep) ∧
      (k + s.fenceTimeout d.chan ≤ s.tickN → slotOp d.slot = 0x0A →
        ((∃ w ∈ (s.extra d.id).aux, (s.cmd? w).isSome = true) →
          ∃ u, exec (.fenceTimeout n) s = .next u ∧ s.RecordsIn d u stFenceTimeout 0 0) ∧
        ((∀ w ∈ (s.extra d.id).aux, s.cmd? w = none) →
          ∃ u, exec (.fenceTimeout n) s = .next u ∧ s.RecordsIn d u stOk 0 0)) ∧
      (k + s.fenceTimeout d.chan ≤ s.tickN → slotOp d.slot = 0x09 →
        (cur < fenceValue d.slot →
          ∃ u, exec (.fenceTimeout n) s = .next u ∧ s.RecordsIn d u stFenceTimeout (op32 d.slot 16) cur) ∧
        (fenceValue d.slot ≤ cur → ∃ u, exec (.fenceTimeout n) s = .next u ∧ s.RecordsIn d u stOk 0 cur))))

/-- `HOST_FENCE` (04 R113, R114; 13 R410): on a FABRIC channel, and with a handle that names no object, it ends with ST_RANGE; it
ends with ST_OK if no writer has to be waited for, waits with their list else, and a waiting one ends once they have all ended,
and not before. -/
def Obligations.HostFenceWaitsForItsWriters : Prop :=
  ∀ (s : State) (n : Node) (d : Cmd),
    (∀ t, s.waitOf n = none → s.Issues n 0x0A t d →
      let all := (leField d.slot 20 1).testBit 0
      let ws := t.writersOf all (op32 d.slot 16) d.id
      ((t.chan d.chan).kind = .fabric → exec (.hostFence n) s = .next (t.endNow d stRange 0 0).endStep) ∧
      ((t.chan d.chan).kind = .host →
        (all = false → t.liveObj (op32 d.slot 16) = none →
          ∃ u, exec (.hostFence n) s = .next u ∧ t.RecordsIn d u stRange 16 0) ∧
        ((all = true ∨ (t.liveObj (op32 d.slot 16)).isSome = true) →
          (((leField d.slot 20 1).testBit 1 = false ∨ ws = []) →
            ∃ u, exec (.hostFence n) s = .next u ∧ t.RecordsIn d u stOk 0 0) ∧
          ((leField d.slot 20 1).testBit 1 = true → ws ≠ [] →
            ∃ u, exec (.hostFence n) s = .next u ∧ (u.extra d.id).aux = ws ∧ u.out = t.out)))) ∧
    (∀ k, s.waitOf n = some (d, k) → s.on = true → slotOp d.slot = 0x0A →
      ((∀ w ∈ (s.extra d.id).aux, s.cmd? w = none) →
        ∃ u, exec (.hostFence n) s = .next u ∧ s.RecordsIn d u stOk 0 0) ∧
      ((∃ w ∈ (s.extra d.id).aux, (s.cmd? w).isSome = true) → (∀ h, s.headOf n = some h → slotOp h.slot ≠ 0x0A) →
        exec (.hostFence n) s = .next s.endStep))

/-- `LAUNCH_LIST` (03 R82, R83, R87): with its operands right and no patch of its list ahead of it, a launch of it is in
flight, at FIRST with COUNT positions left and its eight bindings; behind a patch it waits at its head; the operand that is wrong
is named by the offset in its record. `LIST_POSITION_FETCH` (03 R76, R77, R80, R83): the command at the next position of a
launch, its tiles readable, its positions available and its checks passed, becomes the launch's last command; positions that are
not yet available are not fetched; a walk past the list's end, a POISONED tile or one whose read fails, and a slot that fails its
checks stop the launch there. `LIST_SLOT_ISSUE` (03 R79, R80): a command of the front end is executed from a launch as from a
channel, a cluster command is ready for its dispatcher, with its handles bound, and one whose predicate does not hold ends as
skipped. -/
def Obligations.ListsLaunchAndExecute : Prop :=
  (∀ (s t : State) (n : Node) (d : Cmd), s.Issues n 0x10 t d →
    (t.launchBad d.slot = none → t.patchAhead d (op32 d.slot 16) = false →
      ∃ u l, exec (.launchList n) s = .next u ∧ u.gfe.launches = t.gfe.launches ++ [l] ∧ l.id = d.id ∧ l.chan = d.chan ∧
        l.list = op32 d.slot 16 ∧ l.nextPos = leField d.slot 20 2 ∧ l.left = leField d.slot 22 2 ∧ l.payload = d.payload ∧
        l.bind = [op32 d.slot 24, op32 d.slot 28, op32 d.slot 32, op32 d.slot 36, op32 d.slot 40, op32 d.slot 44,
          op32 d.slot 48, op32 d.slot 52] ∧ l.preds = 0 ∧ l.issuedAt = t.clk.now ∧ l.stop = none) ∧
    (t.launchBad d.slot = none → t.patchAhead d (op32 d.slot 16) = true → exec (.launchList n) s = .next t.endStep) ∧
    (∀ off, t.launchBad d.slot = some off →
      ∃ u, exec (.launchList n) s = .next u ∧ t.RecordsIn d u stRange off 0)) ∧
  (∀ (s : State) (k : Nat) (bad : Option (Nat × PoisonCause)) (l : Launch) (o : Obj),
    let p := l.nextPos
    let slot := s.position l.list p
    let n := 1 + slotExt slot
    let ext := (List.range' (p + 1) (n - 1)).flatMap (fun q => s.position l.list q)
    s.coresRun = true → s.unitTest 1 = false → s.launch? k = some l → l.stop = none → l.left ≠ 0 → s.obj? l.list = some o →
    (o.tiles * 64 ≤ p → exec (.listPositionFetch k bad) s = .next (s.stopLaunch l.id p stRange).endStep) ∧
    (∀ k', p < o.tiles * 64 → s.cellarPos l.list p 1 = some k' →
      exec (.listPositionFetch k bad) s = .next (s.wantFetch l.list k' (s.launchOrder l)).endStep) ∧
    (p < o.tiles * 64 → s.cellarPos l.list p 1 = none →
      ((s.poisonedPos l.list p 1).isSome = true →
        exec (.listPositionFetch k bad) s = .next (s.stopLaunch l.id p stPoisoned).endStep) ∧
      (s.poisonedPos l.list p 1 = none →
        (s.posReady l 1 = false → exec (.listPositionFetch k bad) s = .next s.endStep) ∧
        (s.posReady l 1 = true →
          ((s.failedPos l.list p 1 bad).isSome = true → exec (.listPositionFetch k bad) s =
            .next ((s.poisonList l.list p bad).stopLaunch l.id p stPoisoned).endStep) ∧
          (s.failedPos l.list p 1 bad = none →
            ((slotCrcOk slot = false ∨ slotSeq slot ≠ p % 65536) →
              exec (.listPositionFetch k bad) s = .next (s.stopLaunch l.id p stSlotCheck).endStep) ∧
            (∀ d : Cmd, slotCrcOk slot = true → slotSeq slot = p % 65536 → listSlotBad slot = none → p + n ≤ o.tiles * 64 →
              s.cellarPos l.list p n = none → s.poisonedPos l.list p n = none → s.posReady l n = true →
              s.failedPos l.list p n bad = none →
              (slotXcrcOk slot ext = false →
                exec (.listPositionFetch k bad) s = .next (s.stopLaunch l.id p stSlotCheck).endStep) ∧
              (slotXcrcOk slot ext = true → s.cmd? l.cmd = some d →
                ∃ u e, exec (.listPositionFetch k bad) s = .next u ∧ u.gfe.cmds = s.gfe.cmds ++ [e] ∧ e.slot = slot ∧
                  e.payload = ext ∧ e.launch = some l.id ∧ e.pos = p ∧ e.chan = l.chan ∧ e.cls = d.cls ∧
                  e.phase = .unissued))))))) ∧
  (∀ (s : State) (l : Nat) (d : Cmd), s.on = true → s.headOf (.launch l) = some d →
    (slotOp d.slot = 0x00 → exec (.listSlotIssue l) s = exec (.nop (.launch l)) s) ∧
    (slotOp d.slot = 0x01 → exec (.listSlotIssue l) s = exec (.timestamp (.launch l)) s) ∧
    (slotOp d.slot = 0x08 → exec (.listSlotIssue l) s = exec (.fenceSignal (.launch l)) s) ∧
    (slotOp d.slot = 0x09 → exec (.listSlotIssue l) s = exec (.fenceWait (.launch l)) s) ∧
    (slotOp d.slot = 0x11 → exec (.listSlotIssue l) s = exec (.patchList (.launch l)) s) ∧
    (slotOp d.slot = 0x18 → exec (.listSlotIssue l) s = exec (.objCreate (.launch l)) s) ∧
    (slotOp d.slot = 0x19 → exec (.listSlotIssue l) s = exec (.objFree (.launch l)) s) ∧
    (slotOp d.slot = 0x1A → exec (.listSlotIssue l) s = exec (.move (.launch l)) s) ∧
    (slotOp d.slot = 0x1B → exec (.listSlotIssue l) s = exec (.clone (.launch l)) s) ∧
    (slotOp d.slot = 0x40 → exec (.listSlotIssue l) s = exec (.scaleSet (.launch l)) s) ∧
    (∀ t op e, isClusterOp op = true → s.Issues (.launch l) op t e → exec (.listSlotIssue l) s = .next t.endStep) ∧
    (∀ x, isClusterOp (slotOp d.slot) = true → s.issuable (.launch l) = some d → d.launch = some l → s.launch? l = some x →
      d.phase = .unissued → slotCondEn d.slot = true → x.preds.toNat.testBit (slotCondPred d.slot) ≠ slotCondSense d.slot →
      exec (.listSlotIssue l) s = .next (s.endCmd { d with slot := quietSlot d.slot } stOk 0 0 false).endStep))

/-- `PATCH_LIST` (03 R84 to R86, R90): a patch whose operands and slots pass their checks is held pending with the bytes
that it writes, for the edge at which it applies, while its command waits; an operand that is wrong ends it with ST_RANGE, a
POISONED source tile with ST_POISONED, a supplied slot that fails its check with ST_SLOT_CHECK and its position.
`SCALE_SET` (06 R177, R178): with its operands right it is staged for its edge with a scale for each of its slots, and its
command waits; an operand that is wrong ends it with ST_RANGE. -/
def Obligations.PatchesAndScalesWaitForTheirEdge : Prop :=
  (∀ (s t : State) (n : Node) (d : Cmd), s.Issues n 0x11 t d →
    let src := op32 d.slot 24
    let bad := if patchMode d.slot = 1 then t.badIn d src (op32 d.slot 28) (64 * leField d.slot 23 1) else none
    (t.patchBad d = [] → t.gfe.patches.length < 1024 →
      (bad = none → t.patchSlotBad d (t.patchWrites d) = none →
        ∃ u p, exec (.patchList n) s = .next u ∧ u.gfe.patches = t.gfe.patches ++ [p] ∧ p.cmd = d.id ∧
          p.list = op32 d.slot 16 ∧ p.writes = t.patchWrites d ∧ p.due = t.applyTick ∧ p.staged = false ∧ u.mem = t.mem) ∧
      (∀ k, bad = none → t.patchSlotBad d (t.patchWrites d) = some k →
        ∃ u, exec (.patchList n) s = .next u ∧ t.RecordsIn d u stSlotCheck (op32 d.slot 16) k ∧
          u.gfe.patches = t.gfe.patches) ∧
      (∀ k, bad = some k → ∃ u, exec (.patchList n) s = .next u ∧ t.RecordsIn d u stPoisoned src k)) ∧
    (∀ off, lowest (t.patchBad d) = some off →
      ∃ u, exec (.patchList n) s = .next u ∧ t.RecordsIn d u stRange off 0) ∧
    (t.patchBad d = [] → 1024 ≤ t.gfe.patches.length →
      ∃ u, exec (.patchList n) s = .next u ∧ t.RecordsIn d u stNoResource 0x0501 0)) ∧
  (∀ (s t : State) (n : Node) (d : Cmd), s.Issues n 0x40 t d →
    (t.scaleSetBad d = [] →
      ∃ u x, exec (.scaleSet n) s = .next u ∧ u.gfe.scaleSets = t.gfe.scaleSets ++ [x] ∧ x.cmd = d.id ∧
        x.slots = (indexed (opBits d.slot 16 2 9 0) (t.scaleVals d)).map (fun y => (y.1, BitVec.ofNat 32 y.2)) ∧
        x.due = t.applyTick ∧ x.staged = false ∧ u.scales = t.scales) ∧
    (∀ off, lowest (t.scaleSetBad d) = some off →
      ∃ u, exec (.scaleSet n) s = .next u ∧ t.RecordsIn d u stRange off 0))

/-! ## Objects (10) -/

/-- `OBJ_CREATE` (10 R314 to R316): with its operands right and frames for every tile the handle names an object that is
being filled, with the frames placed in order; too few frames, or too many objects, end it with ST_NO_RESOURCE, frames of a cellar
under write inhibit with ST_WRITE_INHIBITED, a wrong operand with ST_RANGE. `ZERO_FILL_COMPLETE` and `CLONE_COPY_COMPLETE` (10
R296, R316, R323, R324): the object becomes live, and the command that created it ends with ST_OK, a creation with the object's
tiles and the tiles outside its tier, once no transfer of its tiles waits for the cellar; a source tile that is POISONED, or whose
read fails, ends a clone with ST_POISONED, without an object. -/
def Obligations.ObjectsAreCreatedWithAllTheirFrames : Prop :=
  (∀ (s t : State) (n : Node) (d : Cmd), s.Issues n 0x18 t d →
    let o := newObj d.slot d.chan d.id
    let placed := t.placeTiles o.tier o.spread d.chan o.cls o.tiles (mapFrames o.tiles) (o.policy != 2)
    (∀ off, lowest (t.createBad d.slot) = some off →
      ∃ u, exec (.objCreate n) s = .next u ∧ t.RecordsIn d u stRange off 0 ∧ u.objs = t.objs) ∧
    (t.createBad d.slot = [] →
      (1048576 ≤ t.objs.length →
        ∃ u, exec (.objCreate n) s = .next u ∧ t.RecordsIn d u stNoResource 0x0202 0 ∧ u.objs = t.objs) ∧
      (t.objs.length < 1048576 →
        ((t.tierFree 1 < mapFrames o.tiles ∨ placed = none) →
          ∃ u, exec (.objCreate n) s = .next u ∧ t.RecordsIn d u stNoResource 0x0201 0 ∧ u.objs = t.objs) ∧
        (∀ fs, mapFrames o.tiles ≤ t.tierFree 1 → placed = some fs →
          ((t.sup.inhibit = false ∨ ∀ f ∈ fs, tierOf f ≠ 3) →
            ∃ u, exec (.objCreate n) s = .next u ∧ u.obj? (op32 d.slot 16) = some { o with map := indexed 0 fs } ∧
              ∀ h, h ≠ op32 d.slot 16 → u.obj? h = t.obj? h) ∧
          (t.sup.inhibit = true → (∃ f ∈ fs, tierOf f = 3) →
            ∃ u, exec (.objCreate n) s = .next u ∧ t.RecordsIn d u stWriteInhibited t.vinMv 0 ∧ u.objs = t.objs))))) ∧
  (∀ (s : State) (h id : Nat) (o : Obj), s.on = true → s.obj? h = some o → o.creation = .filling id →
    (s.cellarBusy h = true → exec (.zeroFillComplete h) s = .next s.endStep) ∧
    (s.cellarBusy h = false →
      ∃ u, exec (.zeroFillComplete h) s = .next u ∧ u.obj? h = some { o with creation := .live } ∧
        ∀ d, s.cmd? id = some d → slotOp d.slot = 0x18 →
          s.RecordsIn d u stOk o.tiles ((o.map.filter (fun m => tierOf m.2 != o.tier)).length))) ∧
  (∀ (s : State) (h id src : Nat) (bad : Option (Nat × Nat × PoisonCause)) (o : Obj) (d : Cmd), s.Canon → s.on = true →
    s.obj? h = some o → o.creation = .copying id src → s.cmd? id = some d → slotOp d.slot = 0x1B → h = op32 d.slot 20 →
    let sn := op32 d.slot 24
    let ss := if sn = 0 then 0 else s.cloneScale sn
    ((s.cellarBusy h = true ∨ (sn ≠ 0 ∧ s.cellarBusy sn = true)) →
      exec (.cloneCopyComplete h bad) s = .next s.endStep) ∧
    (s.cellarBusy h = false → (sn = 0 ∨ s.cellarBusy sn = false) →
      (∀ x, s.copyFault src bad = some x →
        ∃ u, exec (.cloneCopyComplete h bad) s = .next u ∧ u.obj? h = none ∧ s.RecordsIn d u stPoisoned src x.1) ∧
      (∀ x, s.copyFault src bad = none → s.copyFault ss bad = some x →
        ∃ u, exec (.cloneCopyComplete h bad) s = .next u ∧ u.obj? h = none ∧ u.obj? sn = none ∧
          s.RecordsIn d u stPoisoned ss x.1) ∧
      (s.copyFault src bad = none → s.copyFault ss bad = none → o.freed = false →
        ∃ u, exec (.cloneCopyComplete h bad) s = .next u ∧ u.obj? h = some { o with creation := .live } ∧
          s.RecordsIn d u stOk 0 0 ∧
          ∀ y i z, sn ≠ 0 → sn ≠ h → s.obj? sn = some y → y.creation = .copying i z → y.freed = false →
            u.obj? sn = some { y with creation := .live })))

/-- `OBJ_FREE` (10 R317, R318; 03 R90): an object that nothing needs is freed, so that its handle names no live object, and
the command ends with ST_OK; while an issued command names it, as a launch or a patch of a list does, it keeps its tiles; a handle
that names no object, and an object that another needs or a stream writes, end the command with ST_RANGE. A `LAUNCH_LIST` or
`PATCH_LIST` of a handle whose object is freed or gone, as after its `OBJ_FREE`, ends with ST_RANGE. -/
def Obligations.ObjFreeForgetsTheObject : Prop :=
  (∀ (s t : State) (n : Node) (d : Cmd), t.Canon → s.Issues n 0x19 t d →
    let h := op32 d.slot 16
    (t.liveObj h = none → ∃ u, exec (.objFree n) s = .next u ∧ t.RecordsIn d u stRange 16 0 ∧ u.objs = t.objs) ∧
    (∀ o : Obj, t.liveObj h = some o →
      (t.needed h = false → t.streamUses h = false →
        ∃ u, exec (.objFree n) s = .next u ∧ u.liveObj h = none ∧ t.RecordsIn d u stOk 0 0 ∧
          (∀ x, u.obj? h = some x → x.freed = true) ∧
          ((∃ e ∈ u.gfe.cmds, e.names h = true ∧ e.begun = true) → ∃ x, u.obj? h = some x ∧ x.map = o.map)) ∧
      (t.needed h = true ∨ t.streamUses h = true →
        ∃ u, exec (.objFree n) s = .next u ∧ t.RecordsIn d u stRange 16 0 ∧ u.objs = t.objs))) ∧
  (∀ (s t : State) (n : Node) (d : Cmd), (∀ x, t.obj? (op32 d.slot 16) = some x → x.freed = true) →
    (s.Issues n 0x10 t d → ∃ u, exec (.launchList n) s = .next u ∧ t.RecordsIn d u stRange 16 0) ∧
    (s.Issues n 0x11 t d → ∃ u off, exec (.patchList n) s = .next u ∧ t.RecordsIn d u stRange off 0))

/-- `MOVE` (10 R320, R321): with its operands right and a frame for each tile that must move, every such tile is moving or
waits to move with its frame, and a policy other than 0 becomes the object's; too few frames end it with ST_NO_RESOURCE, the
cellar under write inhibit with ST_WRITE_INHIBITED, a wrong operand with ST_RANGE. `CLONE` (10 R322 to R324): with no tile POISONED
and frames for every tile of the object and of its separate scale object, the new handles name copies of the descriptors with
their own class, owner and placement, which are being copied; a POISONED tile, a wrong operand, too many objects and too few frames
end it. -/
def Obligations.MoveAndCloneStartTheirWork : Prop :=
  (∀ (s t : State) (n : Node) (d : Cmd), s.Issues n 0x1A t d →
    let h := op32 d.slot 16
    let tier := opBits d.slot 28 1 2 0
    let pol := opBits d.slot 28 1 4 3
    let spread := leField d.slot 32 8
    (∀ off, lowest (t.moveBad d.slot) = some off → ∃ u, exec (.move n) s = .next u ∧ t.RecordsIn d u stRange off 0) ∧
    (∀ o : Obj, t.moveBad d.slot = [] → t.liveObj h = some o →
      let clus := t.spreadClus spread o.owner
      let todo := t.mustMove o tier clus (tileRange (opBits d.slot 20 4 29 0) (opBits d.slot 24 4 30 0) o.tiles)
      let pin : Bool := (if pol = 0 then o.policy else pol - 1) == 2
      (tier = 3 → t.sup.inhibit = true →
        ∃ u, exec (.move n) s = .next u ∧ t.RecordsIn d u stWriteInhibited t.vinMv 0 ∧ u.place = t.place) ∧
      ((tier ≠ 3 ∨ t.sup.inhibit = false) →
        (∀ ms, t.moveFrames tier o.cls pin clus todo = some ms →
          ∃ u, exec (.move n) s = .next u ∧
            (∀ m ∈ ms, u.place.moves.any (fun x => x.obj == h && x.tile == m.1) = true ∨
              u.place.wants.any (fun x => x.obj == h && x.tile == m.1) = true) ∧
            u.obj? h = some (if pol = 0 then o else { o with policy := pol - 1, tier := tier, spread := spread })) ∧
        (t.moveFrames tier o.cls pin clus todo = none →
          ∃ u, exec (.move n) s = .next u ∧ t.RecordsIn d u stNoResource 0x0201 0 ∧ u.place = t.place)))) ∧
  (∀ (s t : State) (n : Node) (d : Cmd), s.Issues n 0x1B t d →
    let src := op32 d.slot 16
    let sn := op32 d.slot 24
    (∀ off, lowest (t.cloneBad d.slot) = some off →
      ∃ u, exec (.clone n) s = .next u ∧ t.RecordsIn d u stRange off 0 ∧ u.objs = t.objs) ∧
    (∀ o : Obj, t.cloneBad d.slot = [] → t.operand src = some o →
      let c := cloneObj o d.slot d.chan d.id src sn
      (∀ k, t.poisonedTile src = some k →
        ∃ u, exec (.clone n) s = .next u ∧ t.RecordsIn d u stPoisoned src k ∧ u.objs = t.objs) ∧
      (∀ k, t.poisonedTile src = none → t.poisonedTile o.scaleObj = some k →
        ∃ u, exec (.clone n) s = .next u ∧ t.RecordsIn d u stPoisoned o.scaleObj k ∧ u.objs = t.objs) ∧
      (t.poisonedTile src = none → t.poisonedTile o.scaleObj = none →
        (1048576 ≤ t.objs.length + (if sn = 0 then 0 else 1) →
          ∃ u, exec (.clone n) s = .next u ∧ t.RecordsIn d u stNoResource 0x0202 0 ∧ u.objs = t.objs) ∧
        (t.objs.length + (if sn = 0 then 0 else 1) < 1048576 →
          (t.enterClones d o = none →
            ∃ u, exec (.clone n) s = .next u ∧ t.RecordsIn d u stNoResource 0x0201 0 ∧ u.objs = t.objs) ∧
          (∀ fs, sn = 0 → t.sup.inhibit = false → mapFrames c.tiles ≤ t.tierFree 1 →
            t.placeTiles c.tier c.spread c.owner c.cls c.tiles (mapFrames c.tiles) (c.policy != 2) = some fs →
            ∃ u, exec (.clone n) s = .next u ∧ u.obj? (op32 d.slot 20) = some { c with map := indexed 0 fs }) ∧
          (∀ q, t.enterClones d o = some q → t.sup.inhibit = false →
            ∃ u, exec (.clone n) s = .next u ∧ u.objs = q.objs)))))

/-! ## Commands on clusters (07, 08, 09, 11, 12) -/

/-- `GEMM` and `MATVEC` (01 R20; 07 R185, R201, R523): a fresh run with an operand tile in the cellar asks for its fetch and waits;
one whose operands show no condition takes them, and its blocks or groups are to be compared, the last one in the cycle in which
its device work can be over; one that finds a condition stops. -/
def Obligations.ProductsSetUpTheirChecks : Prop :=
  ∀ (s : State) (n : Nat) (skink : Bool) (r : Run) (d : Cmd),
    let op := if skink then 0x21 else 0x20
    let run : Instr := if skink then .matvec n else .gemm n
    let p := s.product d.slot
    let far := s.farTiles (s.productReads p ++ s.selectedTiles d p)
    s.Canon → s.fresh n op = some (r, d) →
    (far ≠ [] → exec run s = .next (s.fetchAll d far).endStep) ∧
    (far = [] →
      (∀ ox ow oy : Obj, s.productCond d p = none → s.operandRun p.x = some ox → s.operandRun p.w = some ow →
        s.operandRun p.y = some oy →
        let int := intPath p.xFmt ow.fmt oy.fmt
        let q := s.operandsOf d p ox ow oy
        let cs := if p.array then arrayChecks p q int (kappa p.xFmt ow.fmt)
          else skinkChecks p q int (chunkRate p.xFmt ow.fmt) (s.fillCycles d p n)
        ∃ t, exec run s = .next t ∧
          (t.clu n).run = some { r with
            prepared := true, reads := s.framesOf d (s.withScales (s.productReads p) ++ s.selectedTiles d p), checks := cs,
            work := none, due := cs.getLast?.elim 0 Check.due }) ∧
      (∀ x, s.productCond d p = some x → ∃ t, exec run s = .next t ∧ (t.clu n).run = none))

/-- `VCHAIN` (01 R20; 05 R123; 08 R237, R238): a fresh run with an operand tile in the cellar asks for its fetch and waits; one
without a condition makes its pass; if its outputs find frames, its work is noted with them as shadow tiles, its reducers to be
compared; one that finds a condition, or no frame, stops. -/
def Obligations.VchainMakesItsPass : Prop :=
  ∀ (s : State) (n : Nat) (r : Run) (d : Cmd),
    let v := s.progOf d
    let reads := s.withScales (s.vSrcTiles d v ++ s.vPartTiles d v)
    let far := s.farTiles (s.vSrcTiles d v ++ s.vPartTiles d v)
    let p := s.vPass n d v
    let c : Check := { kind := .summary, index := 0, row0 := 0, col0 := 0, int := false, rows := [p.2.2.2.1],
                       cols := p.2.2.2.2, mags := [], due := v.due }
    let q := (p.1.readTiles d n reads).prepare n r (s.framesOf d reads) [c] none v.due
    s.Canon → s.fresh n 0x22 = some (r, d) →
    (far ≠ [] → exec (.vchain n) s = .next (s.fetchAll d far).endStep) ∧
    (far = [] →
      (∀ hs u, s.vchainCond d v = none → (q.dropResv d.id n).placeOut d n p.2.1 = some (hs, u) →
        ∃ t, exec (.vchain n) s = .next t ∧ t.mem = u.mem ∧
          (t.clu n).run = some { r with
            prepared := true, reads := s.framesOf d reads, checks := [c],
            work := some { p.2.2.1 with shadows := hs }, due := v.due }) ∧
      (s.vchainCond d v = none → (q.dropResv d.id n).placeOut d n p.2.1 = none →
        ∃ t, exec (.vchain n) s = .next t ∧ (t.clu n).run = none) ∧
      (∀ x, s.vchainCond d v = some x → ∃ t, exec (.vchain n) s = .next t ∧ (t.clu n).run = none))

/-- `GATHER_POOL` and `SCATTER_UPDATE` (01 R20; 09 R248, R264, R276, R281): a fresh run with a tile in the cellar asks for its fetch
and waits. One without a condition counts the rows that it reads and has its work done in its 64th cycle: a gather's outputs in
shadow tiles, an update's new rows in pool slots, to be entered in the remap at its flip; too few frames or slots, and a condition,
stop it. An armed injection of its path is consumed; with the check enabled it counts as a mismatch and the run stops. -/
def Obligations.TableCommandsDoTheirWork : Prop :=
  ∀ (s : State) (n : Nat) (run : Run) (d : Cmd) (r : Resolution) (o : Obj) (t : TableDesc) (y : TableDyn), s.Canon →
    d.res = some r → s.tableOf (op32 d.slot 16) = some (o, t, y) →
    let h := op32 d.slot 16
    let armed : Bool := s.fld .clu n 0x1D0 31 31 == 1
    let path := s.fld .clu n 0x1D0 5 5
    let on : Bool := s.fld .clu n 0x1C0 0 0 == 1
    (s.fresh n 0x28 = some (run, d) →
      let far := s.farTiles (s.gatherTiles h o r ++ s.gatherParts d)
      let hit : Bool := armed && path == 0 && !(bagsOf r.offs).isEmpty
      let s0 := if hit then s.consume n 0x1D0 0x1C4 else s
      let w := s.gatherWork d h o t r
      let parts := s.withScales (s.gatherParts d)
      let reads := s.gatherTiles h o r ++ parts
      let q := (((s0.countRows n w.2.2).readRows d n o.rowBytes (s.gatherRows d h o r)).readTiles d n parts).prepare n run
        (s.framesOf d reads) [] none 64
      (far ≠ [] → exec (.gatherPool n) s = .next (s.fetchAll d far).endStep) ∧
      (∀ x, far = [] → s.gatherCond d = some x → ∃ v, exec (.gatherPool n) s = .next v ∧ (v.clu n).run = none) ∧
      (far = [] → s.gatherCond d = none →
        (hit = true → on = true → ∃ v, exec (.gatherPool n) s = .next v ∧ (v.clu n).run = none ∧
          (v.cnt n).tblMismatch = satAdd 16 (s.cnt n).tblMismatch 1) ∧
        ((hit = false ∨ on = false) →
          (∀ hs u, (q.dropResv d.id n).placeOut d n w.1 = some (hs, u) →
            ∃ v, exec (.gatherPool n) s = .next v ∧ v.mem = u.mem ∧
              (v.cnt n).tblRows = satAdd 32 (s.cnt n).tblRows w.2.2 ∧
              (v.clu n).run = some { run with
                prepared := true, reads := s.framesOf d reads, checks := [],
                work := some { w.2.1 with shadows := hs }, due := 64 }) ∧
          ((q.dropResv d.id n).placeOut d n w.1 = none →
            ∃ v, exec (.gatherPool n) s = .next v ∧ (v.clu n).run = none)))) ∧
    (s.fresh n 0x29 = some (run, d) →
      let xs := distinctRows s.fab.moduleId r.dest
      let slots := s.freeSlots h t y xs.length
      let far := s.farTiles (s.updSrcTiles d t.elems ++ s.updRowTiles d h o t r ++ slotTiles o t slots)
      let hit : Bool := armed && path == 1 && (s.updOf d).mode != 0 && !xs.isEmpty
      (far ≠ [] → exec (.scatterUpdate n) s = .next (s.fetchAll d far).endStep) ∧
      (∀ x, far = [] → s.scatterCond d = some x → ∃ v, exec (.scatterUpdate n) s = .next v ∧ (v.clu n).run = none) ∧
      (far = [] → s.scatterCond d = none →
        (slots.length < xs.length → ∃ v, exec (.scatterUpdate n) s = .next v ∧ (v.clu n).run = none) ∧
        (xs.length ≤ slots.length → hit = true → on = true →
          ∃ v, exec (.scatterUpdate n) s = .next v ∧ (v.clu n).run = none ∧
            (v.cnt n).tblMismatch = satAdd 16 (s.cnt n).tblMismatch 1) ∧
        (xs.length ≤ slots.length → (hit = false ∨ on = false) →
          ∃ v w e, exec (.scatterUpdate n) s = .next v ∧ (v.clu n).run = some e ∧ e.cmd = run.cmd ∧ e.prepared = true ∧
            e.due = 64 ∧ e.work = some w ∧ w.remap = (xs.map Prod.fst).zip slots ∧ w.detailA = xs.length)))

/-- `STREAM_ARM`, `STREAM_REARM`, `HOST_WRITE` and `HOST_READ` (01 R20; 11 R354; 12 R385, R390): a fresh run of a stream command is
to flip in its 48th cycle; a host write reserves buffer room, or waits for it, and stages its source bytes; a host read starts to
read once the link carries reads. Either asks for the fetch of a tile in the cellar and waits, and stops at a POISONED tile. -/
def Obligations.StreamAndHostCommandsStart : Prop :=
  ∀ (s : State) (n : Nat) (r : Run) (d : Cmd), s.Canon →
    (∀ arm : Bool, s.fresh n (if arm then 0x30 else 0x31) = some (r, d) →
      ∃ t, exec (if arm then .streamArm n else .streamRearm n) s = .next t ∧
        (t.clu n).run = some { r with prepared := true, reads := [], checks := [], work := some RunWork.empty, due := 47 }) ∧
    (s.fresh n 0x38 = some (r, d) →
      let far := s.farTiles (writeTiles d.slot)
      (s.wrFree < hostLen d.slot → exec (.hostWrite n) s = .next s.endStep) ∧
      (hostLen d.slot ≤ s.wrFree → far ≠ [] → exec (.hostWrite n) s = .next (s.fetchAll d far).endStep) ∧
      (hostLen d.slot ≤ s.wrFree → far = [] → (∃ x ∈ writeTiles d.slot, s.tileBad d x.1 x.2 = true) →
        ∃ t, exec (.hostWrite n) s = .next t ∧ (t.clu n).run = none) ∧
      (hostLen d.slot ≤ s.wrFree → far = [] → (∀ x ∈ writeTiles d.slot, s.tileBad d x.1 x.2 = false) →
        ∃ t, exec (.hostWrite n) s = .next t ∧ t.host.staged = s.host.staged ++ [(d.id, hostLen d.slot)] ∧
          (t.clu n).run = some { r with
            prepared := true, reads := s.framesOf d (writeTiles d.slot), checks := [],
            work := some { RunWork.empty with
              host := [(hostAddr d.slot, s.objBytes d (op32 d.slot 24) (hostOff d.slot) (hostLen d.slot))] },
            due := 64 + ceilDiv (hostLen d.slot) 512 })) ∧
    (s.fresh n 0x39 = some (r, d) →
      let far := s.farTiles (readParts d.slot)
      ((s.linkUp = false ∨ s.link.cacheEn = false) → exec (.hostRead n) s = .next s.endStep) ∧
      (s.linkUp = true → s.link.cacheEn = true →
        (far ≠ [] → exec (.hostRead n) s = .next (s.fetchAll d far).endStep) ∧
        (far = [] → (∃ x ∈ readParts d.slot, s.tileBad d x.1 x.2 = true) →
          ∃ t, exec (.hostRead n) s = .next t ∧ (t.clu n).run = none) ∧
        (far = [] → (∀ x ∈ readParts d.slot, s.tileBad d x.1 x.2 = false) →
          ∃ t, exec (.hostRead n) s = .next t ∧
            (t.clu n).run = some { r with
              prepared := true, reads := s.framesOf d (readParts d.slot), checks := [], work := none, due := 64 })))

/-- `HOST_READ_LINE_RETURN` and `COMPLETION_TIMEOUT` (12 R390, R393): a line's data are kept, and the last one ends the
device work or finds no frames; an error or a timeout ends the run. `FLUSH_READ_RETURN` and `POSTED_WRITE_DRAIN` (04 R110;
12 R379, R385, R393): a flush read that returns behind every posted write before it ends the command that waits for it with
ST_OK, and its round trip is noted; a failed return, such as a completion timeout, ends its command with ST_HOST_LOST, which
counts; the oldest posted write leaves for the host. A return without its read, and one while the link is down, changes nothing. -/
def Obligations.HostReadsAndWritesRunToTheirEnd : Prop :=
  (∀ (s : State) (n a : Nat) (l : HostLine), s.on = true →
    ((s.link.state ≠ .up ∨ s.running n = none ∨ takeFirst (fun e : HostRd => e.id == .line n a) s.host.reads = none) →
      exec (.hostReadLineReturn n a l) s = .next s.endStep) ∧
    (∀ (r : Run) (d : Cmd) (x : HostRd) (rest : List HostRd), s.Canon → s.link.state = .up → s.running n = some (r, d) →
      takeFirst (fun e : HostRd => e.id == .line n a) s.host.reads = some (x, rest) →
      (∀ bs, l = .data bs →
        ((s.host.lines ++ [(n, a, padTo 64 bs)]).filter (fun y => y.1 == n)).length ≠ (lineAddrs d.slot).length →
        ∃ t, exec (.hostReadLineReturn n a l) s = .next t ∧ t.host.lines = s.host.lines ++ [(n, a, padTo 64 bs)] ∧
          t.clu n = s.clu n) ∧
      (∀ bs, l = .data bs →
        ((s.host.lines ++ [(n, a, padTo 64 bs)]).filter (fun y => y.1 == n)).length = (lineAddrs d.slot).length →
        ∃ t, exec (.hostReadLineReturn n a l) s = .next t ∧
          ((t.clu n).run = none ∨ ∃ w, (t.clu n).run = some { r with work := some w } ∧ w.status = stOk)) ∧
      (lineError l ≠ none → ∃ t, exec (.hostReadLineReturn n a l) s = .next t ∧ (t.clu n).run = none) ∧
      (∃ t, exec (.completionTimeout (.line n a)) s = .next t ∧ (t.clu n).run = none))) ∧
  (∀ (s : State) (c : Nat), s.on = true →
    ((∀ ok, s.link.state ≠ .up → exec (.flushReadReturn c ok) s = .next s.endStep) ∧
    (∀ ok, takeFirst (fun x : HostRd => x.id == .flush c) s.host.reads = none →
      exec (.flushReadReturn c ok) s = .next s.endStep) ∧
    (s.link.state = .up → exec (.completionTimeout (.flush c)) s = exec (.flushReadReturn c false) s) ∧
    (∀ a, exec (.completionTimeout (.ring a)) s = .next s.endStep) ∧
    (∀ (r : HostRd) (rest : List HostRd), s.link.state = .up →
      takeFirst (fun x : HostRd => x.id == .flush c) s.host.reads = some (r, rest) →
      let behind := s.host.posted.any (fun p => p.chan == c && decide (p.num < r.addr))
      let back := State.noteRtt { s with host := { s.host with reads := rest } } (s.clk.now - r.issued)
      let q := back.confirm c r.addr
      (behind = true → exec (.flushReadReturn c true) s = .next s.endStep) ∧
      (∀ ok, (ok = true → behind = false) →
        ∃ t, exec (.flushReadReturn c ok) s = .next t ∧ t.host.rttLast = min (s.clk.now - r.issued) 65535) ∧
      (∀ d, behind = false →
        q.gfe.cmds.filter (fun e => e.chan == c && (q.flushNo e).any (fun k => decide (k ≤ r.addr))) = [d] →
        slotOp d.slot = 0x38 → slotQuiet d.slot = false → q.CanRecord d.chan →
        ∃ t, exec (.flushReadReturn c true) s = .next t ∧ q.recordOut d (q.extra d.id).lastClu stOk 0 0 ∈ t.out) ∧
      (∀ d, s.Canon → back.gfe.cmds.filter (fun e => e.chan == c && (back.flushNo e).any (fun k => k == r.addr)) = [d] →
        slotOp d.slot = 0x38 →
        ∃ t, exec (.flushReadReturn c false) s = .next t ∧ (t.cq c).lostCount = satAdd 16 (s.cq c).lostCount 1)))) ∧
  (∀ s : State, s.on = true →
    ((s.link.state ≠ .up ∨ s.host.posted = []) → exec .postedWriteDrain s = .next s.endStep) ∧
    (∀ (p : Posted) (rest : List Posted), s.link.state = .up → s.host.posted = p :: rest →
      ∃ t, exec .postedWriteDrain s = .next t ∧ t.host.posted = rest ∧ t.out = s.out ++ [.hostWrite p.addr p.bytes]))

/-! ## Resolutions and folds (09) -/

/-- `RESOLUTION_BEGIN` (09 R252 to R257, R272): a command with RESOLVE_EARLY, one served for a peer, or one at its head, whose
operands are right, waits while the limits have no room for it, and for its values to leave the cellar; a POISONED value tile, a
value out of its range and a failed owner end it. Else it holds its values, the row and the owner that each of them names, the
tiles that it waits for and the owners that a gather asks; it is ready when it waits for none. `REMOTE_GATHER_TIMEOUT` (09
R258, R268): a resolution that waits for an owner beyond its time ends with ST_REMOTE_FAIL, the lowest such owner and the
number of owners that answered as details; one within its time waits on. -/
def Obligations.ResolutionsEndWithTheirValues : Prop :=
  (∀ (s : State) (c : Nat), (∀ b, s.cmd? c = some b → resolves b.slot = false ∨ b.phase ≠ .unissued ∨ b.res.isSome = true) →
    exec (.resolutionBegin c) s = .next s.endStep) ∧
  (∀ (s t : State) (c : Nat) (b d : Cmd) (o : Obj), s.on = true → s.coresRun = true → s.sup.stopping = false →
    s.unitTest 2 = false → s.cmd? c = some b → resolves b.slot = true → b.phase = .unissued → b.res = none →
    let early := resolvesEarly b.slot || (s.serveOf c).isSome
    let bind := match b.launch with
      | some l => (match s.launch? l with | some x => x.bind | none => [])
      | none => []
    ((early = true ∧ s.creating d.slot = false ∧ s.resolveBad d = [] ∧ t = s.setCmd d ∧
        ((b.launch = none ∧ d = b) ∨
          ∃ bs, b.launch.isSome = true ∧ bindSlot bind b.slot (handleFields b.slot) = some bs ∧ d = { b with slot := bs })) ∨
      (early = false ∧ s.prep b.node = (t, some d) ∧ d.id = b.id ∧ t.inherited d = none ∧
        t.headRange d (t.resolveBad d) = none)) →
    t.cmd? c = some d → t.obj? (rowHandle d.slot) = some o →
    (slotOp d.slot = 0x28 → o.table.isSome = true) →
    let vs := if (t.serveOf c).isSome then []
      else (valueOperands d.slot).flatMap (fun x => withHandle x.1 (upTo (ceilDiv x.2 4096)))
    let es := match o.table with | some (x, _) => if x.shard = 0 then [] else t.shardEntries x.shard 4096 0 | none => []
    let v := t.readRes d
    let ds := v.1.map (t.destOf d o es)
    let dest := ds.map (fun x => x.getD none)
    let r : Resolution := { idx := v.1, dest := dest, offs := v.2.1, wgts := v.2.2, awaitTiles := [], awaitPeers := [],
                            partials := [], held := [], tick := t.tickN }
    let room := t.mayResolve d.id (t.idxCount d) (t.cmdOrder d)
    let big := slotOp d.slot == 0x29 && usesSr d.slot && decide (131072 < (distinctRows t.fab.moduleId dest).length)
    (room = false → ∃ u, exec (.resolutionBegin c) s = .next u ∧ u.cmd? c = some d ∧ u.gfe.resWait.contains c = true) ∧
    (room = true → vs.filter t.inCellar ≠ [] →
      exec (.resolutionBegin c) s = .next (t.fetchAll d (vs.filter t.inCellar)).endStep) ∧
    (room = true → vs.filter t.inCellar = [] →
      (∀ x, vs.find? (fun x => t.tileBad d x.1 x.2) = some x →
        ∃ u, exec (.resolutionBegin c) s = .next u ∧ t.RecordsIn d u stPoisoned x.1 x.2) ∧
      ((∀ x ∈ vs, t.tileBad d x.1 x.2 = false) →
        (∀ off, lowest (t.valueBad d o r ds) = some off →
          ∃ u, exec (.resolutionBegin c) s = .next u ∧ t.RecordsIn d u stRange off 0) ∧
        (t.valueBad d o r ds = [] →
          (big = true → ∃ u, exec (.resolutionBegin c) s = .next u ∧ t.RecordsIn d u stRange 36 0) ∧
          (big = false → (∀ m ∈ t.ownersOf dest, t.peerFailed m = false) →
            ∃ u e q, exec (.resolutionBegin c) s = .next u ∧ u.cmd? c = some e ∧ e.res = some q ∧ e.slot = d.slot ∧
              q.idx = v.1 ∧ q.dest = dest ∧ q.offs = v.2.1 ∧ q.wgts = v.2.2 ∧
              q.held = t.heldOf d (rowHandle d.slot) o dest ∧
              q.awaitPeers.map Prod.fst = (if slotOp d.slot = 0x28 then t.ownersOf dest else []) ∧
              e.phase = if q.awaitTiles.isEmpty && q.awaitPeers.isEmpty then .ready else .resolving))))) ∧
  (∀ (s : State) (c : Nat) (d : Cmd) (r : Resolution), s.on = true → s.cmd? c = some d → d.res = some r →
    ((d.phase ≠ .resolving ∨ r.awaitPeers = [] ∨ s.tickN < r.tick + s.remoteTicks) →
      exec (.remoteGatherTimeout c) s = .next s.endStep) ∧
    (∀ m, d.phase = .resolving → lowest (r.awaitPeers.map Prod.fst) = some m → r.tick + s.remoteTicks ≤ s.tickN →
      slotOp d.slot ≠ foldOp →
      (s.headOver d = false →
        ∃ u, exec (.remoteGatherTimeout c) s = .next u ∧ s.RecordsIn d u stRemoteFail m r.partials.length) ∧
      (s.headOver d = true →
        ∃ u, exec (.remoteGatherTimeout c) s = .next u ∧ s.RecordsIn d u stRange 0xFFFFFFFF 0)))

/-- `FOLD` and `FOLD_NOW` (09 R255, R279 to R281): with rows to fold, and room among the resolutions, the fold is a command of the
block's own, of the first 4,096 rows or fewer, and the table is folding; else the table only notes whether it drains. `FOLD_NOW`
sets the epoch to fold up to. -/
def Obligations.FoldsRunAsCommandsOfTheBlock : Prop :=
  (∀ (s : State) (h : Nat) (b : Obj) (o : Obj) (t : TableDesc) (y : TableDyn), s.on = true → s.coresRun = true →
    s.unitTest 2 = false → s.sup.stopping = false → s.liveObj h = some b → s.tableOf h = some (o, t, y) →
    (y.folding = true → exec (.fold h) s = .next s.endStep) ∧
    (y.folding = false →
      let drain : Bool := if y.draining then decide (s.fld .tbl h 0x004 14 8 * t.slots < 100 * (usedSlots y).length)
        else poolAtLeast t y (s.fld .tbl h 0x004 6 0)
      let all := s.foldable h o { y with draining := drain }
      let es := s.foldSome h o t y (if drain then all else all.filter (fun e => decide (e.epoch < y.foldNow)))
      let room := s.mayResolve 0 es.length (3, 2 ^ 64, y.lastUpd)
      ((es = [] ∨ room = false) → ∃ u, exec (.fold h) s = .next u ∧
        u.tableOf h = some ({ o with table := some (t, { y with draining := drain }) }, t, { y with draining := drain })) ∧
      (es ≠ [] → room = true → s.cmd? (s.gfe.nextId + 1) = none →
        let z := { y with draining := drain, folding := true }
        ∃ u e q, exec (.fold h) s = .next u ∧ u.tableOf h = some ({ o with table := some (t, z) }, t, z) ∧
          u.cmd? (s.gfe.nextId + 1) = some e ∧ slotOp e.slot = foldOp ∧ e.res = some q ∧
          q.idx = es.map (fun x => Int.ofNat x.row) ∧ q.offs = es.map RemapEntry.slot))) ∧
  (∀ (s : State) (h : Nat), (s.liveObj h = none ∨ s.tableOf h = none) → exec (.fold h) s = .next s.endStep) ∧
  (∀ (s : State) (a : Acc), s.served = true →
    let h := s.regGet .tbl (accNum a) 0x000
    ((s.liveObj h = none ∨ s.tableOf h = none) → exec (.foldNow a) s = .next s.endStep) ∧
    (∀ (b : Obj) (o : Obj) (t : TableDesc) (y : TableDyn), s.liveObj h = some b → s.tableOf h = some (o, t, y) →
      let z := { y with foldNow := s.tickN }
      ∃ u, exec (.foldNow a) s = .next u ∧ u.tableOf h = some ({ o with table := some (t, z) }, t, z)))

/-! ## Memory and placement (10, 14) -/

/-- `CELLAR_READ_LAND`, `CELLAR_PROGRAM_COMPLETE` and `TILE_MOVE_COMMIT` (10 R290, R297, R300, R301, R303): when its cellar operation
is over a move has landed, from and to the same frames, and a read that fails for good poisons its source; once a landed move
has taken its time, and no rule bars it, it commits: the tile's home is the frame moved to, unless its source proves unreadable
or was written meanwhile: the home then stays. Where there is no such operation or move nothing happens. -/
def Obligations.MovesLandAndCommit : Prop :=
  (∀ (s : State) (h tile : Nat) (bad : Option PoisonCause),
    (s.place.cellar.find? (fun c => c.obj == h && c.tile == tile && !c.program) = none →
      exec (.cellarReadLand h tile bad) s = .next s.endStep) ∧
    (s.place.cellar.find? (fun c => c.obj == h && c.tile == tile && c.program) = none →
      exec (.cellarProgramComplete h tile) s = .next s.endStep) ∧
    (s.moveOf h tile = none → exec (.tileMoveCommit h tile bad) s = .next s.endStep) ∧
    (∀ c, s.on = true → h ≠ 0 → s.moveOf h tile = none →
      s.place.cellar.find? (fun c => c.obj == h && c.tile == tile && !c.program) = some c →
      ∃ u, exec (.cellarReadLand h tile bad) s = .next u)) ∧
  (∀ (s : State) (h tile : Nat) (m : Move), s.Canon → s.on = true → h ≠ 0 → s.moveOf h tile = some m →
    (∀ c, s.place.cellar.find? (fun c => c.obj == h && c.tile == tile && !c.program) = some c →
      (∀ bad, m.landed = true → exec (.cellarReadLand h tile bad) s = .next s.endStep) ∧
      (m.landed = false → ∃ u, exec (.cellarReadLand h tile none) s = .next u ∧
        u.moveOf h tile = some { m with landed := true, landedAt := s.clk.now }) ∧
      (∀ p, m.landed = false → s.host.memWait = [] → ∃ u, exec (.cellarReadLand h tile (some p)) s = .next u ∧
        u.integ.poison = ((s.frame m.src).obj, (s.frame m.src).tile, poisonCode p, tierOf m.src))) ∧
    (∀ c, s.place.cellar.find? (fun c => c.obj == h && c.tile == tile && c.program) = some c →
      ∃ u, exec (.cellarProgramComplete h tile) s = .next u ∧
        u.moveOf h tile = some { m with landed := true, landedAt := s.clk.now }) ∧
    (∀ (bad : Option PoisonCause),
      ((s.moveDone m = false ∨ s.moveBarred h tile (tierOf m.dst) = true) →
        exec (.tileMoveCommit h tile bad) s = .next s.endStep) ∧
      (∀ (o : Obj), s.moveDone m = true → s.moveBarred h tile (tierOf m.dst) = false → s.liveObj h = some o →
        s.host.memWait = [] →
        (bad = none → s.headFault m.src h tile = none → m.dirty = false →
          ∃ u, exec (.tileMoveCommit h tile bad) s = .next u ∧ u.homeOf h tile = some m.dst) ∧
        ((bad.isSome = true ∨ (s.headFault m.src h tile).isSome = true ∨ m.dirty = true) →
          ∃ u, exec (.tileMoveCommit h tile bad) s = .next u ∧ u.homeOf h tile = s.homeOf h tile))))

/-- `HEAT_SCAN`, `SCRUB_READ` and `ATTIC_REFRESH` (10 R308, R309, R325; 14 R416, R423, R424): the scan of a tick whose number is a
multiple of DECAY_TICKS decays the counters, and without moves the scratchpads' access bits, once; that of another tick decays
nothing. A clean scrub counts and changes no frame; one that corrects words is counted against its frame, and from CE_FRAME of them
on retires a FREE frame; an uncorrectable word retires a FREE frame and poisons a tile at home. A refresh that is due is counted. -/
def Obligations.ScansScrubsAndRefreshes : Prop :=
  (∀ s : State, s.on = true → s.unitTest 2 = false →
    let due := s.tickN % max (s.fld .mem 0 0x008 11 0) 1
    (s.place.scanned = s.tickN → exec .heatScan s = .next s.endStep) ∧
    (s.place.scanned ≠ s.tickN → due = 0 →
      ∃ u, exec .heatScan s = .next u ∧ u.place.scanned = s.tickN ∧ u.place.heat = s.dropCold.decay.place.heat ∧
        (s.fld .mem 0 0x004 15 15 = 0 ∨ s.sup.stopping = true → u.frames = s.decay.frames)) ∧
    (s.place.scanned ≠ s.tickN → due ≠ 0 →
      ∃ u, exec .heatScan s = .next u ∧ u.place.scanned = s.tickN ∧ u.place.heat = s.place.heat ∧
        (s.fld .mem 0 0x004 15 15 = 0 ∨ s.sup.stopping = true → u.frames = s.frames))) ∧
  (∀ (s : State) (f : Nat) (errs again : List WordErr), s.Canon → s.on = true →
    let ts := s.readTries f errs again
    let r := s.frame f
    let n := ((ts.flatMap ReadTry.words).eraseDups).length
    let limit := max 1 (s.fld .int 0 0x014 7 4)
    (tierOf f = 3 → exec (.scrubRead f errs again) s = .next s.endStep) ∧
    (tierOf f ≠ 3 →
      (errs = [] → (r.state = .home → s.headFault f r.obj r.tile = none) →
        ∃ u, exec (.scrubRead f errs again) s = .next u ∧ u.frames = s.frames ∧ u.mem = s.mem) ∧
      (∀ a, ts = [a] → a.fault = none → a.words ≠ [] → a.links = 0 → (n < limit ∨ r.retired = true) →
        ∃ u, exec (.scrubRead f errs again) s = .next u ∧ u.frame f = { r with corrected := n } ∧
          listGet 0 u.integ.ce (tierOf f) = listGet 0 (listSet s.integ.ce (tierOf f)
            (satAdd 32 (listGet 0 s.integ.ce (tierOf f)) a.words.length)) (tierOf f)) ∧
      (∀ a, ts = [a] → a.fault = none → limit ≤ n → r.retired = false → r.state = .free →
        ∃ u, exec (.scrubRead f errs again) s = .next u ∧ (u.frame f).retired = true ∧ (u.frame f).state = .free) ∧
      (∀ c, ts.getLast?.bind ReadTry.fault = some c → n = 0 →
        (r.state = .free → r.retired = false →
          ∃ u, exec (.scrubRead f errs again) s = .next u ∧ (u.frame f).retired = true ∧ (u.frame f).state = .free) ∧
        (r.state = .home →
          ∃ u, exec (.scrubRead f errs again) s = .next u ∧ u.integ.poison = (r.obj, r.tile, poisonCode c, tierOf f))))) ∧
  (∀ (s : State) (pc : Nat), s.on = true →
    let due := (s.target pc).refreshedAt + s.refreshEvery (pc % 8)
    (((s.target pc).mappedOut = true ∨ s.clk.now < due) → exec (.atticRefresh pc) s = .next s.endStep) ∧
    ((s.target pc).mappedOut = false → due ≤ s.clk.now →
      ∃ u, exec (.atticRefresh pc) s = .next u ∧ (u.stack (pc % 8)).refreshes = (s.stack (pc % 8)).refreshes + 1))

/-- `STACK_TEMP_REPORT`, `STACK_TEMP_TIMEOUT`, `MEM_TGT_SERVE`, `MARGIN_START` and `MARGIN_DONE` (10 R326, R327, R330; 15 R455):
the last three reports set a stack's steps, one outside -40 to 125 degrees is discarded, a stack without a report for 10 ms counts
as 94 degrees, and the tenth above 95 degrees stops the module; a target is let go or taken back at the next edge, and is margined
when it is empty, one at a time. -/
def Obligations.StacksAndTargetsAreWatched : Prop :=
  (∀ (s : State) (k : Nat) (q : Int), s.on = true →
    ((q < -160 ∨ 500 < q) → ∃ u, exec (.stackTempReport k q) s = .next u ∧ u.stack k = s.stack k) ∧
    (-160 ≤ q → q ≤ 500 →
      let r := { s.stack k with reports := (q :: (s.stack k).reports).take 3, timeout := false, lastAt := s.clk.now }
      let hot := if r.temp > 380 then r.hot + 1 else 0
      (hot < 10 → ∃ u, exec (.stackTempReport k q) s = .next u ∧ u.stack k =
        { r with refresh2x := refreshStep r.refresh2x r.temp, derate := derateStep r.derate r.temp, hot := hot }) ∧
      (10 ≤ hot → ∃ u, exec (.stackTempReport k q) s = .next u ∧ u.sup.stopping = true))) ∧
  (∀ (s : State) (k : Nat), s.on = true →
    (s.clk.now < (s.stack k).lastAt + 10 * msCycles → exec (.stackTempTimeout k) s = .next s.endStep) ∧
    ((s.stack k).lastAt + 10 * msCycles ≤ s.clk.now →
      let r := { s.stack k with timeout := true }
      (r.hot < 10 → ∃ u, exec (.stackTempTimeout k) s = .next u ∧ u.stack k =
        { r with refresh2x := refreshStep r.refresh2x 376, derate := derateStep r.derate 376 }) ∧
      (10 ≤ r.hot → ∃ u, exec (.stackTempTimeout k) s = .next u ∧ u.sup.stopping = true))) ∧
  (∀ (s : State) (a : Acc) (serve : Bool), s.served = true →
    ∃ u, exec (.memTgtServe a serve) s = .next u ∧
      u.reg.pend = s.reg.pend ++ [⟨regKey .mem (s.selTarget a) 0x064, 1, bit01 serve, s.applyTick⟩]) ∧
  (∀ (s : State) (a : Acc), s.served = true →
    (s.targetState (s.selTarget a) = 2 → s.place.targets.any (fun x => x.2.margining) = false →
      ∃ u, exec (.marginStart a) s = .next u ∧
        u.target (s.selTarget a) = { s.target (s.selTarget a) with margining := true, done := false }) ∧
    ((s.targetState (s.selTarget a) ≠ 2 ∨ s.place.targets.any (fun x => x.2.margining) = true) →
      exec (.marginStart a) s = .next (s.ignored .mem 0 0x000).endStep)) ∧
  (∀ (s : State) (n : Nat), s.on = true →
    (s.place.targets.any (fun x => x.2.margining) = false → exec (.marginDone n) s = .next s.endStep) ∧
    (∀ x, s.place.targets.find? (fun x => x.2.margining) = some x →
      ∃ u, exec (.marginDone n) s = .next u ∧
        u.target x.1 = { x.2 with margining := false, done := true, errors := min n 65536 }))

/-! ## Streams (11) -/

/-- `STREAM_TRANSFER_ISSUE`, `STREAM_TRANSFER_COMPLETE` and `STR_CTRL_DISARM` (11 R334, R335, R337, R338, R342, R346 to R348, R351; 14
R431): the next tile read of the stream in turn, of a fill begun for it where none is open, is in flight, at most one in a cycle;
without a stream in turn nothing is issued, and one whose SRC is freed faults. A read that returns joins its fill; the last one
lands it, no earlier than its time, and adds one to its LAND fence; a bad one, and one of scales that disagree, faults the stream; a
fill whose output fails its check is read again once. A disarmed stream waits for its reads in flight. -/
def Obligations.StreamsFillAndStop : Prop :=
  (∀ (s : State) (n : Nat), s.Canon → s.on = true → s.sup.stopping = false → s.issuedNow n = false →
    (s.xfers.filter (fun x => x.clu == n)).length < 256 →
    (s.nextStream n = none → exec (.streamTransferIssue n) s = .next s.endStep) ∧
    (∀ ix, s.nextStream n = some ix →
      let src := match (s.stream n ix).openFill with | some f => f.range.src | none => (s.stream n ix).cur.src
      (s.liveObj src = none → ∃ u, exec (.streamTransferIssue n) s = .next u ∧ (u.stream n ix).state = .faulted ∧
        (u.stream n ix).fault.1 = 3) ∧
      (∀ o f, s.liveObj src = some o → (s.stream n ix).openFill = some f →
        let x := listGet (0, 0) (fillTiles (s.stream n ix).slot o f.range f.inRange) f.issued
        ∀ g, s.homeOf x.1 x.2 = some g →
        ∃ u, exec (.streamTransferIssue n) s = .next u ∧ u.xfers = s.xfers ++
          [⟨n, ix, some f.num, x.1, x.2, if tierOf g == 3 && (s.frame g).state != .poisoned then 0 else g, s.clk.now, 0⟩]) ∧
      (∀ o hs f, s.liveObj src = some o → (s.stream n ix).openFill = none → s.fillFrames n (s.stream n ix) = some hs →
        let q := s.beginFill n ix o hs
        (q.stream n ix).openFill = some f →
        let x := listGet (0, 0) (fillTiles (q.stream n ix).slot o f.range f.inRange) f.issued
        ∀ g, q.homeOf x.1 x.2 = some g →
        ∃ u, exec (.streamTransferIssue n) s = .next u ∧ u.xfers = s.xfers ++
          [⟨n, ix, some f.num, x.1, x.2, if tierOf g == 3 && (q.frame g).state != .poisoned then 0 else g, s.clk.now, 0⟩]))) ∧
  (∀ (s : State) (n : Nat), s.on = true →
    (256 ≤ (s.xfers.filter (fun x => x.clu == n)).length → s.issuedNow n = false →
      exec (.streamTransferIssue n) s = .next s.endStep) ∧
    (s.issuedNow n = true → s.clk.cyc + 1 < s.G →
      exec (.streamTransferIssue n) s = .next (s.nextCycle.streamIssue n).endStep) ∧
    (s.issuedNow n = true → s.G ≤ s.clk.cyc + 1 → exec (.streamTransferIssue n) s = .next s.endStep) ∧
    (∀ bad prod, s.xfers.find? (fun x => x.clu == n) = none →
      exec (.streamTransferComplete n bad prod) s = .next s.endStep)) ∧
  (∀ (s : State) (n : Nat) (x : Xfer) (rest : List Xfer), s.Canon → s.on = true →
    takeFirst (fun y : Xfer => y.clu == n) s.xfers = some (x, rest) →
    let t := s.stream n x.ix
    (∀ bad prod, x.fill = none → ∃ u, exec (.streamTransferComplete n bad prod) s = .next u ∧ u.xfers = rest) ∧
    (∀ num f g, x.fill = some num → t.fills.find? (fun e => e.num == num) = some f → t.state = .armed →
      ((x.fid ≠ 0 ∧ g = x.fid) ∨
        (x.fid = 0 ∧ s.homeOf x.obj x.tile = some g ∧ (tierOf g ≠ 3 ∨ (s.frame g).state = .poisoned))) →
      let e := { f with got := f.got ++ [⟨x.obj, x.tile, s.data g, s.scaleSeq g, s.tileScale g⟩],
                        latency := max f.latency (x.latency g) }
      let clean := (s.frame g).state ≠ .poisoned ∧ ((s.frame g).state = .home → s.headFault g x.obj x.tile = none)
      let level := ∀ o, s.obj? f.range.src = some o → e.skew o = none
      let land := op32 t.slot 44
      (clean → level → e.got.length < e.total →
        ∃ u, exec (.streamTransferComplete n none false) s = .next u ∧ u.xfers = rest ∧
          u.stream n x.ix = { t with fills := t.fills.map (fun y => if y.num = num then e else y) }) ∧
      (clean → level → e.total ≤ e.got.length → s.mayCommit n e = false →
        exec (.streamTransferComplete n none false) s = .next s.endStep) ∧
      (clean → level → e.total ≤ e.got.length → s.mayCommit n e = true →
        ∃ u, exec (.streamTransferComplete n none false) s = .next u ∧ u.xfers = rest ∧
          (u.stream n x.ix).landed = t.landed + 1 ∧
          (s.fenceOk land = true →
            (u.fence (fenceNo land)).val = BitVec.ofNat 64 ((s.fence (fenceNo land)).val.toNat + 1))) ∧
      (∀ o k, clean → s.obj? f.range.src = some o → e.skew o = some k →
        ∃ u, exec (.streamTransferComplete n none false) s = .next u ∧ (u.stream n x.ix).state = .faulted ∧
          (u.stream n x.ix).fault = (2, k % 2 ^ 24)) ∧
      (∀ bad, (bad.isSome = true ∨ ¬ clean) →
        ∃ u, exec (.streamTransferComplete n bad false) s = .next u ∧ (u.stream n x.ix).state = .faulted ∧
          (u.stream n x.ix).fault = (1, x.tile % 2 ^ 24)) ∧
      (∀ bad, f.redone = false →
        ∃ u, exec (.streamTransferComplete n bad true) s = .next u ∧
          u.stream n x.ix = { t with fills := t.fills.map (fun y =>
            if y.num < num then y else { y with issued := 0, got := [], redone := y.redone || y.num == num }) }) ∧
      (∀ bad p, f.redone = true → s.cluSlot n = some p → (s.pslot p).state = .serving →
        ∃ u, exec (.streamTransferComplete n bad true) s = .next u ∧ (u.pslot p).state = .suspect)) ∧
    (∀ num bad prod g, x.fill = some num → x.fid = 0 → s.homeOf x.obj x.tile = some g → tierOf g = 3 →
      (s.frame g).state ≠ .poisoned → exec (.streamTransferComplete n bad prod) s = .next s.endStep)) ∧
  (∀ (s : State) (a : Acc) (n : Nat), s.Canon → s.served = true →
    let ix := s.fld .clu (accNum a * 64 + n) 0x200 5 0
    (((s.stream n ix).state = .armed ∨ (s.stream n ix).state = .dry ∨ (s.stream n ix).state = .faulted) →
      ∃ u, exec (.strCtrlDisarm a n) s = .next u ∧ (u.stream n ix).queued = none ∧ (u.stream n ix).fills = [] ∧
        (u.stream n ix).state = if s.inFlight n ix = 0 then .idle else .disarming) ∧
    (((s.stream n ix).state = .idle ∨ (s.stream n ix).state = .disarming) →
      exec (.strCtrlDisarm a n) s = .next s.endStep))

/-! ## Registers (15, and the register tables of the chapters) -/

/-- `REGISTER_WRITE` and `LO_READ` (15 R450, R451, R453, R455 to R457, R461): a word write of a register without write-only
fields is ignored as a whole where a condition of several fields fails; its fields of class T become one pending write; a
register of one field of class I takes the value that the alias gives at once. A write of another size than 4 or 8 bytes, and
a value out of its field's range, are ignored with WRITE_IGNORED, and a place that no register has discards the write; a 64-bit
write is one of the lower word and then one of the upper. A read answers with the register's value. -/
def Obligations.RegisterWritesTakeEffectByClass : Prop :=
  (∀ (s : State) (a : Acc) (off : Nat) (data : BitVec 64) (l : RegLoc) (r : RDef), s.Canon → s.on = true →
    s.locate off = some l → s.serves l = true → regAt l.w l.off = some r →
    let item := s.itemOf a l.w l.clu r.item
    let x := data.toNat % 2 ^ 32
    let ign := s.itemAt a l.w l.clu r.status
    (∀ z ∈ [AccessSize.narrow, .wide],
      ∃ u, exec (.registerWrite a off data z) s = .next u ∧ (u.regGet l.w ign r.status).testBit 0 = true) ∧
    (r.events = 0 → (∀ y d, State.startOps y a l d = y) → l.als = 0 → (l.w = .mem → l.off ≠ 0x060) →
      (∀ f ∈ r.fields, f.acc = .rw ∧ f.eff = .t ∧ s.fieldOk l.w item l.off f.lsb (bitsOf x f.msb f.lsb) = true) →
      s.planBad l.w item l.off (r.fields.map (fun f => (f, some (bitsOf x f.msb f.lsb)))) = false → r.fields ≠ [] →
      (∀ f ∈ r.fields, f.lsb ≤ f.msb) →
      ∃ u m v, exec (.registerWrite a off data .word) s = .next u ∧
        u.reg.pend = s.reg.pend ++ [⟨regKey l.w item l.off, m, v, s.applyTick⟩] ∧
        m = r.fields.foldl (fun k f => k + maskOf f.msb f.lsb) 0 ∧
        v = r.fields.foldl (fun k f => k + bitsOf x f.msb f.lsb * 2 ^ f.lsb) 0) ∧
    (∀ f, r.events = 0 → (∀ y d, State.startOps y a l d = y) → l.w ≠ .gfe → l.w ≠ .fab → (l.w = .mem → l.off ≠ 0x060) →
      r.fields = [f] → f.acc = .rw → f.eff = .i → f.lsb ≤ f.msb → f.msb < 32 →
      let v := aliasVal l.als (s.fld l.w item l.off f.msb f.lsb) (bitsOf x f.msb f.lsb)
      (s.fieldOk l.w item l.off f.lsb v = true → s.planBad l.w item l.off [(f, some v)] = false →
        ∃ u, exec (.registerWrite a off data .word) s = .next u ∧
          u.fld l.w item l.off f.msb f.lsb = v % 2 ^ (f.msb + 1 - f.lsb)) ∧
      (s.fieldOk l.w item l.off f.lsb v = false → s.planBad l.w item l.off [(f, none)] = false →
        ∃ u, exec (.registerWrite a off data .word) s = .next u ∧ (u.regGet l.w ign r.status).testBit 0 = true))) ∧
  (∀ (s : State) (a : Acc) (off : Nat) (data : BitVec 64), s.locate off = none →
    exec (.registerWrite a off data .word) s = .next s.endStep) ∧
  (∀ (s : State) (a : Acc) (off : Nat) (data : BitVec 64), ∃ u, exec (.registerWrite a off data .word) s = .next u ∧
    (u.on = true → exec (.registerWrite a off data .dword) s = exec (.registerWrite a (off + 4) (data >>> 32) .word) u)) ∧
  (∀ (s : State) (a : Acc) (off : Nat), s.on = true →
    ∃ u, exec (.loRead a off) s = .next u ∧ u.out = s.out ++ [.regRead a (BitVec.ofNat 32 (s.readReg a off).1)])

/-- Where an access leads (15 R447, R449, R450; 17 R515): an offset of a window at which no register is listed reads as 0 and
ignores writes, and so does a range without a window; two offsets of one window with one alias and one image offset are one
register for every access; READ_REG and WRITE_REG of the sideband, outside recovery, answer and write as its accesses of BAR0,
and end with completion code 3 outside BAR0. -/
def Obligations.OffsetsDecodeTheSameForEveryAccess : Prop :=
  (∀ (s : State) (a : Acc) (off : Nat), s.on = true → (off < 0x2000000 ∨ (0x2010000 ≤ off ∧ off < bar2)) →
    (∀ l, s.locate off = some l → regAt l.w l.off = none) →
    (∃ u, exec (.loRead a off) s = .next u ∧ u.out = s.out ++ [.regRead a 0]) ∧
    ∀ data z, z ≠ .dword → exec (.registerWrite a off data z) s = .next s.endStep) ∧
  (∀ (s : State) (a : Acc) (k x y : Nat), (k < 9 ∨ (256 ≤ k ∧ k < 256 + s.nClus ∧ k < 512)) → x < 65536 → y < 65536 →
    let w := if k < 9 then winOf k else .clu
    x / 4096 % 4 = y / 4096 % 4 → x % imageSize w / 4 = y % imageSize w / 4 →
    exec (.loRead a (k * 65536 + x)) s = exec (.loRead a (k * 65536 + y)) s ∧
    (∀ data z, z ≠ .dword → exec (.registerWrite a (k * 65536 + x) data z) s = exec (.registerWrite a (k * 65536 + y) data z) s) ∧
    (∀ data, exec (.statusClear a (k * 65536 + x) data) s = exec (.statusClear a (k * 65536 + y) data) s ∧
      exec (.statusSetInject a (k * 65536 + x) data) s = exec (.statusSetInject a (k * 65536 + y) data) s ∧
      exec (.statusToggle a (k * 65536 + x) data) s = exec (.statusToggle a (k * 65536 + y) data) s)) ∧
  (∀ s : State, s.sbAnswers = true → s.sec.recovery = false → ∀ (inst : Byte) (req : List Byte),
    let reply := fun (cmd cc : Nat) (data : List Byte) =>
      Output.sideband ([0x7F, 0, 1, 0xE8, 0xC5] ++ leBytes 1 cmd ++ [inst] ++ leBytes 1 cc ++ data)
    let off := leField req 0 4
    (req.length = 4 →
      (bar0Ok off = false → ∃ u, exec (.readReg inst req) s = .next u ∧ u.out = s.out ++ [reply 4 3 []]) ∧
      (bar0Ok off = true → ∃ u, exec (.readReg inst req) s = .next u ∧
        u.out = s.out ++ [reply 4 0 (leBytes 4 (s.readReg .sideband off).1)])) ∧
    (req.length = 8 →
      (bar0Ok off = false → ∃ u, exec (.writeReg inst req) s = .next u ∧ u.out = s.out ++ [reply 5 3 []]) ∧
      (bar0Ok off = true → exec (.writeReg inst req) s =
        .next ((s.writeReg .sideband off (leField req 4 4)).emit (reply 5 0 [])).endStep)))

/-- `STATUS_CLEAR`, `STATUS_SET_INJECT` and `STATUS_TOGGLE` (15 R462 to R465): a clear with the register's SEQ clears the events
that it names and keeps SEQ, one with another SEQ changes nothing; an event that hardware sets after it survives, and counts
SEQ up; an injection sets its events and counts SEQ up once; a toggle changes no register but that it sets WRITE_IGNORED, which
counts SEQ up. At an offset that leads to no status register the three change nothing. -/
def Obligations.StatusRegistersAreClearedBySequence : Prop :=
  (∀ (s : State) (a : Acc) (off : Nat) (data : BitVec 32), s.statusReg off = none →
    exec (.statusClear a off data) s = .next s.endStep ∧ exec (.statusSetInject a off data) s = .next s.endStep ∧
    exec (.statusToggle a off data) s = .next s.endStep) ∧
  ∀ (s : State) (a : Acc) (off : Nat) (data : BitVec 32) (l : RegLoc) (r : RDef), s.Canon → s.statusReg off = some (l, r) →
    let item := s.itemOf a l.w l.clu r.item
    let v := s.regGet l.w item l.off
    let m := eventMask r data.toNat
    (data.toNat / 2 ^ 24 = v / 2 ^ 24 →
      ∃ u, exec (.statusClear a off data) s = .next u ∧ u.regGet l.w item l.off = v - (v &&& m) ∧
        u.regGet l.w item l.off / 2 ^ 24 = v / 2 ^ 24 ∧
        ∀ b < 24, (u.raise l.w item l.off b).regGet l.w item l.off =
          (v / 2 ^ 24 + 1) % 256 * 2 ^ 24 + ((v - (v &&& m)) % 2 ^ 24 ||| 2 ^ b)) ∧
    (data.toNat / 2 ^ 24 ≠ v / 2 ^ 24 → exec (.statusClear a off data) s = .next s.endStep) ∧
    (m = 0 → exec (.statusSetInject a off data) s = .next s.endStep) ∧
    (s.reg.raised = [] → m ≠ 0 →
      ∃ u, exec (.statusSetInject a off data) s = .next u ∧
        u.regGet l.w item l.off = (v / 2 ^ 24 + 1) % 256 * 2 ^ 24 + (v % 2 ^ 24 ||| m)) ∧
    let st := s.itemAt a l.w l.clu r.status
    (s.reg.raised = [] →
      ∃ u, exec (.statusToggle a off data) s = .next u ∧
        u.regGet l.w st r.status = (s.regGet l.w st r.status / 2 ^ 24 + 1) % 256 * 2 ^ 24 +
          (s.regGet l.w st r.status % 2 ^ 24 ||| 1) ∧
        ∀ w k o, regKey w k o ≠ regKey l.w st r.status → u.regGet w k o = s.regGet w k o)

/-- `GFE_FENCE_RESET`, `GFE_FENCE_ADD`, `ACCT_SNAP`, `GFE_SCALE_CLEAR_HIST` and `CXL_APT_VALID` (04 R100, R102, R107; 05 R143; 06
R179; 12 R393): a reset under the current generation of a fence not in use makes its counter 0 and its generation one more; an
addition adds; any other reset, and an addition of 0 or beyond 64 bits, is ignored; an accounting record is latched; the history is
cleared at the next edge; a bound aperture slot becomes valid, one that cannot be bound does not. Outside service nothing happens. -/
def Obligations.RegistersStartTheirOperations : Prop :=
  (∀ (s : State) (a : Acc) (gen : BitVec 20) (add : BitVec 32) (c : Nat) (x : Bool), s.served = false →
    ∀ op ∈ [Instr.gfeFenceReset a gen, .gfeFenceAdd a add, .acctSnap a c x, .gfeScaleClearHist a, .cxlAptValid a x],
      exec op s = .next s.endStep) ∧
  ∀ (s : State) (a : Acc), s.Canon → s.served = true →
    (∀ gen : BitVec 20, (s.fence (s.selFence a)).gen = gen → s.fenceBusy (s.selFence a) = false →
      ∃ u, exec (.gfeFenceReset a gen) s = .next u ∧ u.fence (s.selFence a) = ⟨0, gen + 1⟩) ∧
    (∀ gen : BitVec 20, ((s.fence (s.selFence a)).gen ≠ gen ∨ s.fenceBusy (s.selFence a) = true) → exec (.gfeFenceReset a gen) s = .next s.fenceIgnored.endStep) ∧
    (∀ add : BitVec 32, add ≠ 0 → (s.fence (s.selFence a)).val.toNat + add.toNat < 2 ^ 64 →
      ∃ u, exec (.gfeFenceAdd a add) s = .next u ∧ (u.fence (s.selFence a)).val.toNat =
        (s.fence (s.selFence a)).val.toNat + add.toNat) ∧
    (∀ add : BitVec 32, (add = 0 ∨ 2 ^ 64 ≤ (s.fence (s.selFence a)).val.toNat + add.toNat) →
      exec (.gfeFenceAdd a add) s = .next s.fenceIgnored.endStep) ∧
    (∀ c compat, ∃ u, exec (.acctSnap a c compat) s = .next u ∧
      (u.accState a).acct = wordsOf (if compat then s.compatRecord c else s.nativeRecord c) 64) ∧
    (∃ u, exec (.gfeScaleClearHist a) s = .next u ∧
      u.reg.pend = s.reg.pend ++ [⟨regKey .gfe (s.selected a .gfe 0x500 9 0) 0x514, 1, 1, s.applyTick⟩]) ∧
    (let k := s.selected a .cxl 0x040 5 0
     (s.bindable (s.regGet .cxl k 0x044) = true →
      ∃ u, exec (.cxlAptValid a true) s = .next u ∧ u.fld .cxl k 0x04C 0 0 = 1) ∧
     (s.bindable (s.regGet .cxl k 0x044) = false → exec (.cxlAptValid a true) s = .next (s.ignored .cxl 0 0x004).endStep) ∧
     ∃ u, exec (.cxlAptValid a false) s = .next u ∧ u.fld .cxl k 0x04C 0 0 = 0)

/-- The rows of `SEC_UPD_CMD`, `SEC_RESET` and `SEC_REC_CTRL`, and `UPDATE_COMPLETE` (16 R489, R494, R495, R499, R500): an update
runs in its frames and ends with its code, the image stored once it is accepted, no image left after a failed write; the key with
WARM starts a warm reset, no other write does; in recovery an image is loaded word by word, and an accepted one ends recovery. What
does not apply is ignored. -/
def Obligations.UpdatesResetsAndRecovery : Prop :=
  ∀ (s : State) (a : Acc), s.on = true →
    (∀ config : Bool, let run : Instr := if config then .secUpdConfig a else .secUpdFirmware a
      (s.sec.upd = 1 → exec run s = .next s.secIgnored.endStep) ∧
      (s.sec.upd ≠ 1 →
        (s.updateFrames = none → ∃ u, exec run s = .next u ∧ u.sec.upd = 7) ∧
        (∀ fs, s.updateFrames = some fs → s.sup.inhibit = true → ∃ u, exec run s = .next u ∧ u.sec.upd = 5) ∧
        (∀ fs, s.updateFrames = some fs → s.sup.inhibit = false →
          ∃ u, exec run s = .next u ∧ u.sec.upd = 1 ∧ u.sec.updOp = (if config then 2 else 1)))) ∧
    (∀ r, s.sec.upd ≠ 1 → exec (.updateComplete r) s = .next s.endStep) ∧
    (s.sec.upd = 1 →
      (∀ f, s.sec.updOp = 1 → fwGenuine s.romHash f = true →
        (s.svnFloor ≤ f.svn →
          ∃ u, exec (.updateComplete (.doneFw f)) s = .next u ∧ u.sec.upd = 2 ∧ u.sec.fwStored = some (some f)) ∧
        (f.svn < s.svnFloor →
          ∃ u, exec (.updateComplete (.doneFw f)) s = .next u ∧ u.sec.upd = 4 ∧ u.sec.fwStored = s.sec.fwStored)) ∧
      (∀ f, (s.sec.updOp ≠ 1 ∨ fwGenuine s.romHash f = false) →
        ∃ u, exec (.updateComplete (.doneFw f)) s = .next u ∧ u.sec.upd = 3 ∧ u.sec.fwStored = s.sec.fwStored) ∧
      (∀ b i, s.sec.updOp = 2 → verifyCfg b s.romHash s.sec.devHash = some i → s.newerCfg i = true →
        ∃ u, exec (.updateComplete (.doneCfg b)) s = .next u ∧ u.sec.upd = 2 ∧ u.sec.cfgStored = some (some b)) ∧
      (∀ b, (s.sec.updOp ≠ 2 ∨ ∀ i, verifyCfg b s.romHash s.sec.devHash = some i → s.newerCfg i = false) →
        ∃ u, exec (.updateComplete (.doneCfg b)) s = .next u ∧ u.sec.upd = 3 ∧ u.sec.cfgStored = s.sec.cfgStored) ∧
      (∀ x ∈ [(UpdateResult.badSignature, 3), (.rollback, 4), (.inhibited, 5), (.writeFailed, 6), (.noSpace, 7)],
        ∃ u, exec (.updateComplete x.1) s = .next u ∧ u.sec.upd = x.2) ∧
      (s.sec.updOp = 1 → ∃ u, exec (.updateComplete .writeFailed) s = .next u ∧ u.sec.fwStored = some none)) ∧
    (∀ key warm,
      (key = 0xA5#8 → warm = true → s.sec.warm = false → s.sec.recovery = false →
        ∃ u, exec (.secReset a key warm) s = .next u ∧ u.sec.warm = true) ∧
      (key = 0xA5#8 → warm = true → (s.sec.warm = true ∨ s.sec.recovery = true) →
        exec (.secReset a key warm) s = .next s.endStep) ∧
      ((key ≠ 0xA5#8 ∨ warm = false) → exec (.secReset a key warm) s = .next s.secIgnored.endStep)) ∧
    (s.sec.recovery = false →
      (∀ config, exec (.secRecBegin a config) s = .next s.secIgnored.endStep) ∧
      (∀ word, exec (.secRecData a word) s = .next s.secIgnored.endStep) ∧
      (∀ fw, exec (.secRecEnd a fw) s = .next s.secIgnored.endStep)) ∧
    (s.sec.recovery = true →
      (∀ config, ∃ u, exec (.secRecBegin a config) s = .next u ∧ u.sec.load = (bit01 config, 0, 1) ∧ u.sec.words = []) ∧
      (s.sec.load.2.2 ≠ 1 →
        (∀ word, exec (.secRecData a word) s = .next s.secIgnored.endStep) ∧
        (∀ fw, exec (.secRecEnd a fw) s = .next s.secIgnored.endStep)) ∧
      (s.sec.load.2.2 = 1 →
        (∀ word, ∃ u, exec (.secRecData a word) s = .next u ∧
          u.sec.load = (s.sec.load.1, satAdd 23 s.sec.load.2.1 1, 1) ∧ u.sec.words = s.sec.words ++ [word]) ∧
        (∀ fw, (s.install fw).1 ≠ 2 →
          ∃ u, exec (.secRecEnd a fw) s = .next u ∧ u.sec.recovery = true ∧
            u.sec.load = (s.sec.load.1, s.sec.load.2.1, (s.install fw).1)) ∧
        (∀ fw, (s.install fw).1 = 2 → exec (.secRecEnd a fw) s =
          .next (((s.install fw).2.setLoad s.sec.load.1 s.sec.load.2.1 2 []).recovered).endStep) ∧
        (∀ f : FwImage, s.sec.load.1 = 0 → s.sec.warm = true → fwGenuine s.romHash f = true → s.svnFloor ≤ f.svn →
          ∃ u, exec (.secRecEnd a (some f)) s = .next u ∧ u.sec.recovery = false ∧ u.sec.warm = false ∧
            u.sec.fwStored = some (some f))))

/-! ## The host (12, 17) -/

/-- `MEM_RD`, `MEM_WR`, `MEM_INV`, `MEM_SPEC_RD` and `SNOOP` (12 R358, R359, R362 to R368): an access through a valid slot of the
aperture to a tile that is at home above the cellar reads or writes the bytes of its frame or its side band, with poison for a
POISONED tile and for a read the codes cannot correct; a slot that is not valid, a handle that is not live and a tile outside the
object read zeros, drop the write and set their event; a tile in the cellar, and a page of the raw cellar, are fetched while the
access waits; the raw windows read and write the bytes of their frames, a write of the raw cellar or of the hole is dropped and
sets its event; an invalidation is completed, a speculative read dropped, a snoop answered as a miss; and nothing is answered
outside the open range. -/
def Obligations.DeviceMemoryIsReadAndWritten : Prop :=
  (∀ (s : State) (dpa len : Nat) (bytes : List Byte), s.Canon → s.memOpen dpa = true →
    let k := aptSlot dpa
    let h := s.regGet .cxl k 0x044
    let zero := fun (u : State) => Output.memData (padTo len []) false ∈ u.out
    let bit := fun (u : State) (b : Nat) => (u.regGet .cxl 0 0x004).testBit b = true
    (dpa < apertureEnd →
      (aptView (aptOff dpa) = none →
        (∀ bad, exec (.memRd dpa len bad) s = .next (s.emit (.memData (padTo len []) false)).endStep) ∧
        exec (.memWr dpa bytes) s = .next (s.emit .memCmp).endStep) ∧
      (∀ t x side, aptView (aptOff dpa) = some (t, x, side) →
        let tile := s.fld .cxl k 0x048 29 0 + t
        ((s.fld .cxl k 0x04C 0 0 = 0 ∨ s.obj? h = none) →
          (∀ bad, ∃ u, exec (.memRd dpa len bad) s = .next u ∧ zero u ∧ bit u 7) ∧
          (∃ u, exec (.memWr dpa bytes) s = .next u ∧ Output.memCmp ∈ u.out ∧ bit u 7 ∧ u.mem = s.mem)) ∧
        (∀ o, s.fld .cxl k 0x04C 0 0 ≠ 0 → s.obj? h = some o →
          (o.tiles ≤ tile →
            (∀ bad, ∃ u, exec (.memRd dpa len bad) s = .next u ∧ zero u ∧ bit u 8) ∧
            (∃ u, exec (.memWr dpa bytes) s = .next u ∧ Output.memCmp ∈ u.out ∧ bit u 8 ∧ u.mem = s.mem)) ∧
          (∀ f, tile < o.tiles → s.homeOf h tile = some f →
            (tierOf f ≠ 3 ∨ (s.frame f).state = .poisoned →
              (∀ c, ∃ u, exec (.memRd dpa len (some c)) s = .next u ∧ Output.memData (padTo len []) true ∈ u.out) ∧
              (∃ u, exec (.memWr dpa bytes) s = .next u ∧ Output.memCmp ∈ u.out ∧
                (side = false → u.bytesAt (frameData f + x) bytes.length = bytes) ∧
                (side = true → (s.frame f).state ≠ .poisoned → u.bytesAt (frameData f) 4096 = s.bytesAt (frameData f) 4096))) ∧
            ((s.frame f).state = .poisoned →
              ∃ u, exec (.memRd dpa len none) s = .next u ∧ u.out = s.out ++ [.memData (padTo len []) true]) ∧
            ((s.frame f).state ≠ .poisoned → tierOf f ≠ 3 →
              ∃ u, exec (.memRd dpa len none) s = .next u ∧ u.out = s.out ++ [.memData (padTo len
                (if side then ((s.sideView f o.rowBytes).drop x).take len else s.bytesAt (frameData f + x) len)) false]) ∧
            ((s.frame f).state ≠ .poisoned → tierOf f = 3 →
              (∀ bad, ∃ u, exec (.memRd dpa len bad) s = .next u ∧ u.host.memWait = s.host.memWait ++ [⟨dpa, len, none⟩]) ∧
              (∃ u, exec (.memWr dpa bytes) s = .next u ∧
                u.host.memWait = s.host.memWait ++ [⟨dpa, bytes.length, some bytes⟩] ∧ u.mem = s.mem)))))) ∧
    (apertureEnd ≤ dpa → dpa < rawAttic →
      (∃ u, exec (.memWr dpa bytes) s = .next u ∧ Output.memCmp ∈ u.out ∧ bit u 6 ∧ u.mem = s.mem) ∧
      (s.rawExists (dpa / 4096) = true → ∀ bad,
        ∃ u, exec (.memRd dpa len bad) s = .next u ∧ u.host.memWait = s.host.memWait ++ [⟨dpa, len, none⟩] ∧ u.out = s.out)) ∧
    (apertureEnd ≤ dpa → dpa < holeStart → s.rawExists (dpa / 4096) = false → ∀ bad,
      ∃ u, exec (.memRd dpa len bad) s = .next u ∧ u.out = s.out ++ [.memData (padTo len []) false]) ∧
    (rawAttic ≤ dpa → dpa < holeStart →
      (∃ u, exec (.memWr dpa bytes) s = .next u ∧ u.out = s.out ++ [.memCmp] ∧
        (s.rawExists (dpa / 4096) = true → u.bytesAt dpa bytes.length = bytes) ∧
        (s.rawExists (dpa / 4096) = false → u.mem = s.mem)) ∧
      (s.rawExists (dpa / 4096) = true →
        (∀ c, ∃ u, exec (.memRd dpa len (some c)) s = .next u ∧ Output.memData (padTo len []) true ∈ u.out) ∧
        (∃ u, exec (.memRd dpa len none) s = .next u ∧ u.out = s.out ++ [if (s.frame (dpa / 4096)).state = .poisoned then
          .memData (padTo len []) true else .memData (padTo len (s.bytesAt dpa len)) false]))) ∧
    (holeStart ≤ dpa →
      (∀ bad, ∃ u, exec (.memRd dpa len bad) s = .next u ∧ u.out = s.out ++ [.memData (padTo len []) false]) ∧
      (∃ u, exec (.memWr dpa bytes) s = .next u ∧ Output.memCmp ∈ u.out ∧ bit u 5 ∧ u.mem = s.mem)) ∧
    (∃ u, exec (.memInv dpa) s = .next u ∧ u.out = s.out ++ [.memCmp])) ∧
  (∀ (s : State) (dpa : Nat), exec (.memSpecRd dpa) s = .next s.endStep ∧
    (s.memOpen dpa = false →
      (∀ len bad, exec (.memRd dpa len bad) s = .next s.endStep) ∧
      (∀ bytes, exec (.memWr dpa bytes) s = .next s.endStep) ∧
      exec (.memInv dpa) s = .next s.endStep)) ∧
  (∀ (s : State) (addr : Nat),
    ((s.on && s.linkUp) = true → ∃ u, exec (.snoop addr) s = .next u ∧ u.out = s.out ++ [.rspIHitI]) ∧
    ((s.on && s.linkUp) = false → exec (.snoop addr) s = .next s.endStep))

/-- The rows of the link and of the function's configuration (12 R360, R362, R372, R373, R375 to R377, R382; 17 R508): a link
that goes down is DOWN, with its enables cleared, and is counted; a reset of the function clears its enables and keeps the
link's state; a link that can train trains, is UP at L0, and leaves and regains UP by RECOVERY; enables take their values, a
pending vector that is unmasked is sent, and margining answers with its errors. An event that the state of the link does not
allow changes nothing. -/
def Obligations.LinkEventsMoveTheLink : Prop :=
  ∀ s : State, s.Canon → s.on = true →
    let lost := satAdd 16 s.link.downs 1
    let plain := { s.link with downs := lost, busMaster := false, msixEn := false, d3hot := false }
    (s.link.perst = false → ∃ u, exec .perstAssert s = .next u ∧
      u.link = { plain with cacheEn := false, memEn := false, hdm := none, state := .down, degraded := false, perst := true }) ∧
    (s.link.perst = true → exec .perstAssert s = .next s.endStep) ∧
    (s.linkLive = true → ∀ c ∈ [Instr.dlDown, .hotReset], ∃ u, exec c s = .next u ∧
      u.link = { plain with cacheEn := false, memEn := false, hdm := none, state := .down, degraded := false }) ∧
    (s.linkLive = false → ∀ c ∈ [Instr.dlDown, .hotReset, .flr, .d3hotEntry, .d0Return], exec c s = .next s.endStep) ∧
    (s.linkLive = true →
      (∃ u, exec .flr s = .next u ∧ u.link = plain) ∧
      (s.link.d3hot = false → (∃ u, exec .d3hotEntry s = .next u ∧ u.link = { plain with d3hot := true }) ∧
        exec .d0Return s = .next s.endStep) ∧
      (s.link.d3hot = true → (∃ u, exec .d0Return s = .next u ∧ u.link = plain) ∧ exec .d3hotEntry s = .next s.endStep)) ∧
    (s.sb.refclk = true → ∃ u, exec .refclkLoss s = .next u ∧ u.sb.refclk = false ∧ u.link.state = .down) ∧
    (s.sb.refclk = false → exec .refclkLoss s = .next s.endStep) ∧
    (∃ u, exec .perstDeassert s = .next u ∧ u.link.perst = false ∧ u.link.state =
      if s.link.state = .down ∧ s.link.hostStep = true ∧ s.unitTest 4 = false ∧ s.sb.refclk = true then .training else s.link.state) ∧
    (∃ u, exec .refclkRestored s = .next u ∧ u.sb.refclk = true ∧ u.link.state =
      if s.link.state = .down ∧ s.link.hostStep = true ∧ s.unitTest 4 = false ∧ s.link.perst = false then .training
      else s.link.state) ∧
    (∀ width gts,
      let up := { s.link with state := .up, width := width, gts := gts, degraded := width != 16 || gts != 32 }
      (s.tryTrain.link.state = .training → ∃ u, exec (.linkL0Reached width gts) s = .next u ∧ u.link = up) ∧
      (s.tryTrain.link.state ≠ .training → exec (.linkL0Reached width gts) s = .next s.endStep) ∧
      (s.link.state = .recovery → ∃ u, exec (.linkRecoveryExit width gts) s = .next u ∧ u.link = up) ∧
      (s.link.state ≠ .recovery → exec (.linkRecoveryExit width gts) s = .next s.endStep)) ∧
    (∃ u, exec .clk10mQualified s = .next u ∧ u.sb = { s.sb with clk10m := true }) ∧
    (∃ u, exec .clk10mLoss s = .next u ∧ u.sb = { s.sb with clk10m := false }) ∧
    (s.linkUp = true →
      (∃ u, exec .linkRecoveryEnter s = .next u ∧
        u.link = { s.link with state := .recovery, recoveries := satAdd 16 s.link.recoveries 1 }) ∧
      (∀ on, ∃ u, exec (.dvsecCacheEnable on) s = .next u ∧ u.link = { s.link with cacheEn := on }) ∧
      (∀ on n, ∃ u, exec (.memEnable on (some n)) s = .next u ∧
        u.link = { s.link with memEn := on, hdm := if n % 0x10000000 = 0 then some n else none }) ∧
      (∀ on, ∃ u, exec (.memEnable on none) s = .next u ∧ u.link = { s.link with memEn := on, hdm := none }) ∧
      (∀ v, (∃ u, exec (.vectorUnmask (.vector v true)) s = .next u ∧ v ∉ u.host.unmasked) ∧
        ∃ u, exec (.vectorUnmask (.vector v false)) s = .next u ∧ v ∈ u.host.unmasked ∧
          (s.msixOpen = true → v ∈ s.host.pendVec → Output.msix v ∈ u.out ∧ v ∉ u.host.pendVec)) ∧
      (∀ e, (∃ u, exec (.vectorUnmask (.busMaster e)) s = .next u ∧ u.link = { s.link with busMaster := e }) ∧
        ∃ u, exec (.vectorUnmask (.msixEnable e)) s = .next u ∧ u.link = { s.link with msixEn := e }) ∧
      (∀ lane timing step errors,
        (s.link.gts = 32 ∧ lane < s.link.width ∧ step.natAbs ≤ (if timing then 16 else 32) →
          exec (.laneMargining lane timing step errors) s = .next (s.emit (.laneErrors lane (min errors 63))).endStep) ∧
        (¬(s.link.gts = 32 ∧ lane < s.link.width ∧ step.natAbs ≤ (if timing then 16 else 32)) →
          exec (.laneMargining lane timing step errors) s = .next s.endStep))) ∧
    (s.linkUp = false → ∀ on dec w lane timing step errors,
      ∀ c ∈ [Instr.linkRecoveryEnter, .dvsecCacheEnable on, .memEnable on dec, .vectorUnmask w, .laneMargining lane timing step errors],
        exec c s = .next s.endStep)

/-! ## The fabric (13) -/

/-- The rows of ports and discovery (13 R397, R399, R401): a port that is enabled trains, is UP once training completes, which
is reported and broadcasts a DISCOVER, is in HOLDDOWN after a fault, which is counted and reported, trains again 100 ms after
it, and is DISABLED when EN is cleared; training starts again after 500 ms, and an UP port discovers every second; a DISCOVER
is answered with the ports that are UP; a reply is kept with its time, one with the module's own ID from a foreign address is
a conflict, and replies 3 s old are dropped; a frame that fails its checks, or that the port reports as discarded, is counted.
An event that the port's state does not allow changes nothing. -/
def Obligations.PortsAndPlanesFollowTheirEvents : Prop :=
  ∀ (s : State) (p : Nat), s.Canon → s.on = true →
    let ports := fun st => Sparse.put (fun _ => Port.init) s.fab.ports p { s.port p with state := st, since := s.clk.now }
    let hello := Output.frame p 3 0 broadcastId false false 0 0 0 0 0 0 0 0 []
    let st := (s.port p).state
    (s.served = true →
      (∃ u, exec (.portEnable p) s = .next u ∧ u.fab.ports = (if st = .disabled then ports .training else s.fab.ports) ∧
        u.fld .fab 0 (0x040 + 4 * p) 0 0 = 1) ∧
      (∃ u, exec (.portDisable p) s = .next u ∧ u.fab.ports = ports .disabled ∧ u.fld .fab 0 (0x040 + 4 * p) 0 0 = 0)) ∧
    (s.served = false → exec (.portEnable p) s = .next s.endStep ∧ exec (.portDisable p) s = .next s.endStep) ∧
    (st = .training → ∃ u, exec (.portTrainingComplete p) s = .next u ∧ u.port p =
        { s.port p with state := .up, since := s.clk.now, toldAt := if s.fabLive then s.clk.now else (s.port p).toldAt } ∧
      (u.regGet .fab 0 0x080).testBit 1 = true ∧ (s.fabLive = true → hello ∈ u.out)) ∧
    (st ≠ .training → exec (.portTrainingComplete p) s = .next s.endStep) ∧
    (st = .training → s.passed (s.port p).since (500 * msCycles) = true →
      ∃ u, exec (.portTrainingTimeout p) s = .next u ∧ u.fab.ports = ports .training) ∧
    ((st ≠ .training ∨ s.passed (s.port p).since (500 * msCycles) = false) →
      exec (.portTrainingTimeout p) s = .next s.endStep) ∧
    (st = .up → ∃ u, exec (.portFault p) s = .next u ∧
      u.port p = { s.port p with state := .holddown, flaps := satAdd 8 (s.port p).flaps 1, since := s.clk.now } ∧
      (u.regGet .fab 0 0x080).testBit 2 = true) ∧
    (st ≠ .up → exec (.portFault p) s = .next s.endStep) ∧
    (st = .up → s.fabLive = true → s.passed (s.port p).toldAt secCycles = true →
      ∃ u, exec (.discoverSend p) s = .next u ∧ u.out = s.out ++ [hello] ∧ (u.port p).toldAt = s.clk.now) ∧
    ((st ≠ .up ∨ s.fabLive = false ∨ s.passed (s.port p).toldAt secCycles = false) →
      exec (.discoverSend p) s = .next s.endStep) ∧
    (st = .holddown → s.passed (s.port p).since (100 * msCycles) = true →
      ∃ u, exec (.holddownExpiry p) s = .next u ∧ u.fab.ports = ports .training) ∧
    ((st ≠ .holddown ∨ s.passed (s.port p).since (100 * msCycles) = false) → exec (.holddownExpiry p) s = .next s.endStep) ∧
    (s.takes p = false → ∀ mac f, ∀ c ∈ [Instr.frameDiscard p, .discover p f, .discoverReply p mac f], exec c s = .next s.endStep) ∧
    (s.takes p = true →
      (∃ u, exec (.frameDiscard p) s = .next u ∧ u.fab.drops = (satAdd 16 s.fab.drops.1 1, s.fab.drops.2)) ∧
      (∀ f, (s.frameOk f 3 = true → ∃ u, exec (.discover p f) s = .next u ∧
          u.out = s.out ++ [.frame p 4 0 f.src false false 0 0 0 0 0 0 0 0 (leBytes 4 s.upMask)]) ∧
        (s.frameOk f 3 = false → exec (.discover p f) s = .next s.discard.endStep)) ∧
      (∀ mac f, (mac ∈ s.fab.conflicts → exec (.discoverReply p mac f) s = .next s.endStep) ∧
        (mac ∉ s.fab.conflicts →
          ((s.frameOk f 4 = false ∨ f.payload.length ≠ 4) → exec (.discoverReply p mac f) s = .next s.discard.endStep) ∧
          (s.frameOk f 4 = true → f.payload.length = 4 →
            (f.src ≠ s.fab.moduleId → ∃ u, exec (.discoverReply p mac f) s = .next u ∧
              u.fab.replies = s.fab.replies.filter (fun r => !(r.1 == f.src && r.2.1 == p)) ++ [(f.src, p, s.clk.now)]) ∧
            (f.src = s.fab.moduleId → s.ownMac mac = true → exec (.discoverReply p mac f) s = .next s.discard.endStep) ∧
            (f.src = s.fab.moduleId → s.ownMac mac = false → ∃ u, exec (.discoverReply p mac f) s = .next u ∧
              u.fab.conflicts = s.fab.conflicts ++ [mac] ∧ (u.regGet .fab 0 0x080).testBit 6 = true))))) ∧
    (∀ d, ∃ u, exec (.routePlaneExpiry d p) s = .next u ∧ u.fab.replies =
      s.fab.replies.filter (fun r => !(r.1 == d && r.2.1 == p && decide (r.2.2 + 3 * secCycles ≤ s.clk.now))))

/-- The rows of flows (13 R401, R403 to R408), where `q` is the state once the frame's acknowledgement and credit are taken: the
expected DATA frame is accepted, its successor is expected, its acknowledgement is owed, and a message of one frame is
delivered; a NEW frame with PSN 0 starts the flow again; without an entry a NAK with RESET answers; a duplicate is acknowledged
again; a gap is answered with a NAK, once in an interval; an acknowledgement advances the flow and takes its frames out; a NAK
and the timer send the flow again, the timer counting its expiries; at the limit, or on a RESET, the peer has failed, and its
entries are forgotten after 100 ms; an owed acknowledgement leaves by itself; a message incomplete for 10 ms is dropped. A frame
that fails its checks is counted, and one of a failed peer is ignored. -/
def Obligations.FlowsDeliverAcknowledgeAndRetry : Prop :=
  (∀ (s : State) (p : Nat) (f : Frame),
    ((s.takes p = false ∨ f.src = s.fab.moduleId) → ∀ c ∈ [Instr.data p f, .ack p f, .nak p f], exec c s = .next s.endStep) ∧
    (s.takes p = true → f.src ≠ s.fab.moduleId →
    let q := s.takeAck f.src f.vl f.ackPsn f.credit
    let e := q.peer (peerIx f.src f.vl)
    let full : Bool := decide (32 * 2 ^ 20 < q.rxBytes + f.payload.length)
    ((s.frameOk f 0 = false ∨ s.fragOk f = false) → exec (.data p f) s = .next s.discard.endStep) ∧
    (s.frameOk f 1 = false → exec (.ack p f) s = .next s.discard.endStep) ∧
    (s.frameOk f 2 = false → exec (.nak p f) s = .next s.discard.endStep) ∧
    (s.frameOk f 0 = true → s.fragOk f = true →
      (s.peerFailed f.src = true → exec (.data p f) s = .next s.endStep) ∧
      (s.peerFailed f.src = false →
        (e.restarts f = true → ∃ u, exec (.data p f) s = .next u ∧ (u.peer (peerIx f.src f.vl)).expect = 1) ∧
        (e.restarts f = false → e.state = .empty →
          (∀ k, q.portFor f.src f.vl = some k → ∃ u, exec (.data p f) s = .next u ∧
            u.out = q.out ++ [.frame k 2 f.vl f.src false true 0 e.expect (q.grant e) 0 0 0 0 0 []]) ∧
          (q.portFor f.src f.vl = none → exec (.data p f) s = .next q.endStep)) ∧
        (e.restarts f = false → e.state ≠ .empty →
          (f.psn = e.expect → ∃ u, exec (.data p f) s = .next u ∧ (u.peer (peerIx f.src f.vl)).expect = f.psn + 1 ∧
            (full = false → f.msgType ≤ 6 → (u.peer (peerIx f.src f.vl)).ackOwed = true ∧
              (f.nfrag = 0 → q.reasmOf f = none → u.fab.inbox = q.fab.inbox ++
                [⟨f.src, f.vl, f.msgId, f.msgType, q.tickN + f.deadline, f.payload⟩]))) ∧
          (f.psn ≠ e.expect → (e.expect - f.psn).toNat < 2 ^ 31 →
            ∃ u, exec (.data p f) s = .next u ∧ u.peer (peerIx f.src f.vl) = { e with ackOwed := true }) ∧
          (f.psn ≠ e.expect → 2 ^ 31 ≤ (e.expect - f.psn).toNat →
            (∀ k, q.portFor f.src f.vl = some k → (∀ n, e.nakAt = some n → n + q.rtoCycles ≤ q.clk.now) →
              ∃ u c, exec (.data p f) s = .next u ∧
                u.out = q.out ++ [.frame k 2 f.vl f.src false false 0 e.expect c 0 0 0 0 0 []] ∧
                (u.peer (peerIx f.src f.vl)).nakAt = some q.clk.now) ∧
            ((q.portFor f.src f.vl = none ∨ ∃ n, e.nakAt = some n ∧ q.clk.now < n + q.rtoCycles) →
              exec (.data p f) s = .next q.endStep))))) ∧
    (s.frameOk f 1 = true →
      let a := s.peer (peerIx f.src f.vl)
      let k := (f.ackPsn - a.oldest).toNat
      let sent := (a.frames.filter (·.sent)).length
      (a.state ≠ .active → exec (.ack p f) s = .next s.endStep) ∧
      (a.state = .active → ∃ u, exec (.ack p f) s = .next u ∧
        (0 < k → k ≤ sent → (∀ g ∈ a.frames.take k, g.cmd = none) → (u.peer (peerIx f.src f.vl)).oldest = f.ackPsn ∧
          (u.peer (peerIx f.src f.vl)).expiries = 0 ∧ (u.peer (peerIx f.src f.vl)).frames.length = a.frames.length - k) ∧
        ((k = 0 ∨ sent < k) → (u.peer (peerIx f.src f.vl)).oldest = a.oldest ∧
          (u.peer (peerIx f.src f.vl)).frames.length = a.frames.length))) ∧
    (s.frameOk f 2 = true → f.reset = false → ∃ u, exec (.nak p f) s = .next u ∧
      ∀ k, q.portFor f.src f.vl = some k → q.fabLive = true → ∀ g ∈ e.frames, g.sent = true → ∃ a c d,
        Output.frame k 0 f.vl f.src g.isNew false g.psn a c g.msgId g.msgType g.frag g.nfrag d g.payload ∈ u.out) ∧
    (s.frameOk f 2 = true → f.reset = true →
      (s.peerFailed f.src = true → exec (.nak p f) s = .next s.endStep) ∧
      (s.Canon → s.peerFailed f.src = false → ∃ u, exec (.nak p f) s = .next u ∧ (u.regGet .fab 0 0x080).testBit 4 = true ∧
        (s.waitsOn f.src = [] → ∀ v < 4,
          u.peer (peerIx f.src v) = { Peer.init with state := .failed, failedAt := s.clk.now }))))) ∧
  (∀ (s : State) (m v : Nat), s.on = true →
    let e := s.peer (peerIx m v)
    (∀ k, s.portFor m v = some k → s.fabLive = true → e.ackOwed = true → ∃ u c, exec (.ackDue m v) s = .next u ∧
      u.out = s.out ++ [.frame k 1 v m false false 0 e.expect c 0 0 0 0 0 []]) ∧
    ((s.portFor m v = none ∨ s.fabLive = false ∨ e.ackOwed = false) → exec (.ackDue m v) s = .next s.endStep) ∧
    ((e.state ≠ .active ∨ s.retxDue e = false) → exec (.retxTimerExpiry m v) s = .next s.endStep) ∧
    (e.state = .active → s.retxDue e = true →
      (e.expiries + 1 < s.fld .fab 0 0x014 15 12 → ∃ u, exec (.retxTimerExpiry m v) s = .next u ∧
        (u.peer (peerIx m v)).expiries = e.expiries + 1 ∧
        (∀ k, s.portFor m v = some k → s.fabLive = true → ∀ g ∈ e.frames, g.sent = true → ∃ a c d,
          Output.frame k 0 v m g.isNew false g.psn a c g.msgId g.msgType g.frag g.nfrag d g.payload ∈ u.out)) ∧
      (s.Canon → s.fld .fab 0 0x014 15 12 ≤ e.expiries + 1 → ∃ u, exec (.retxTimerExpiry m v) s = .next u ∧
        (u.regGet .fab 0 0x080).testBit 3 = true ∧
        (s.waitsOn m = [] → ∀ w < 4, u.peer (peerIx m w) = { Peer.init with state := .failed, failedAt := s.clk.now }))) ∧
    (∃ u, exec (.peerFailedExpiry m) s = .next u ∧ (Sparse.wf (fun _ => Peer.init) s.fab.peers = true → ∀ w < 4,
      let a := s.peer (peerIx m w)
      u.peer (peerIx m w) = if a.state = .failed ∧ s.passed a.failedAt (100 * msCycles) = true then Peer.init else a)) ∧
    (∀ id, ∃ u, exec (.reassemblyTimeout m v id) s = .next u ∧ u.fab.reasm =
      s.fab.reasm.filter (fun r => !(r.peer == m && r.vl == v && r.msgId.toNat == id && s.passed r.since (10 * msCycles)))))

/-- The rows of messages (13 R408 to R413; 09 R256, R275), where `x` is the oldest message of its flow and `rest` the receive
buffer without it: a message that is malformed, or from a source or to a table that the module does not serve, is refused,
counted and consumed; a slot of a `REQUEST` with room becomes a command, or waits for its context, or ends at its acceptance, and
one without room stays in its message; a `RESPONSE` is consumed; a `GATHER` and an `UPDATE` enter the command that serves them,
or wait for a context; `PARTIALS` join the resolution that waits for them; an `UPDATE_ACK` is counted for its command, and ends it
if it waited for the last; a `REFUSE` is reported, and the command that sent the message ends its wait with the peer's failure.
A row whose message is not the oldest of its flow changes nothing. -/
def Obligations.MessagesAreServed : Prop :=
  (∀ (s : State) (m v ty : Nat), s.msgOf m v ty = none →
    ∀ c ∈ [(0, Instr.request m v), (1, .response m v), (2, .gather m v), (3, .partials m v), (4, .update m v),
      (5, .updateAck m v), (6, .refuse m v)], c.1 = ty → exec c.2 s = .next s.endStep) ∧
  (∀ (s : State) (m v : Nat) (x : Msg) (rest : List Msg), s.Canon →
    takeFirst (fun y : Msg => y.peer == m && y.vl == v) s.fab.inbox = some (x, rest) →
    let refused := fun c : Instr => ∃ u, exec c s = .next u ∧ (u.regGet .fab 0 0x080).testBit 5 = true ∧ u.fab.inbox = rest ∧
      u.fab.drops = (s.fab.drops.1, satAdd 16 s.fab.drops.2 1)
    let p := x.payload
    let id := s.gfe.nextId + 1
    let gone : State := { s with fab := { s.fab with inbox := rest } }
    (s.msgOf m v 0 = some x →
      let c := leField p 0 2
      (requestBad p = true ∨ 4096 ≤ c ∨ s.sourceOk c m = false → refused (.request m v)) ∧
      (requestBad p = false → c < 4096 → s.sourceOk c m = true →
        (s.unitTest 1 = true → exec (.request m v) s = .next s.endStep) ∧
        (s.unitTest 1 = false →
          (requestSlots 1024 (p.drop 8) = none → refused (.request m v)) ∧
          (∀ l, requestSlots 1024 (p.drop 8) = some l → ∃ u, exec (.request m v) s = .next u ∧
            (s.slotRoom c = false → u.gfe = s.gfe ∧ ∃ left, u.fab.inbox = { x with payload := left } :: rest)) ∧
          (∀ slot ext, requestSlots 1024 (p.drop 8) = some [(slot, ext)] → s.slotRoom c = true →
            let q := if slotReqOpen slot then s.closeCtx c else s
            let ch := s.chan c
            (s.acceptBad c slot = none → (q.needsCtx c slot = false ∨ q.ctxFree c = true) →
              ∃ u e, exec (.request m v) s = .next u ∧ u.gfe.cmds = s.gfe.cmds ++ [e] ∧ e.chan = c ∧ e.slot = slot ∧
                e.payload = ext ∧ e.phase = .unissued ∧ u.fab.inbox = rest ∧
                (u.chan c).head = ch.head + BitVec.ofNat 32 (1 + slotExt slot) ∧ (u.chan c).expSeq = ch.expSeq + 1) ∧
            (s.acceptBad c slot = none → q.needsCtx c slot = true → q.ctxFree c = false →
              ∃ u w, exec (.request m v) s = .next u ∧ (u.chan c).ctxWait = some w ∧ w.slot = slot ∧ u.fab.inbox = rest ∧
                u.gfe.cmds = s.gfe.cmds ∧ (u.regGet .gfe c 0x22C).testBit 4 = true) ∧
            (∀ off, s.acceptBad c slot = some off → ∃ u, exec (.request m v) s = .next u ∧
              (u.chan c).head = ch.head + BitVec.ofNat 32 (1 + slotExt slot) ∧ (u.chan c).expSeq = ch.expSeq + 1))))) ∧
    (s.msgOf m v 1 = some x →
      (p.length < 16 ∨ p.length ≠ 16 + 32 * leField p 2 2 + leField p 12 4 → refused (.response m v)) ∧
      (16 ≤ p.length → p.length = 16 + 32 * leField p 2 2 + leField p 12 4 →
        exec (.response m v) s = .next gone.endStep)) ∧
    (s.msgOf m v 2 = some x →
      (gatherMsgBad p = true ∨ s.tableTagged (leField p 0 4) = none → refused (.gather m v)) ∧
      (∀ h o t, gatherMsgBad p = false → s.tableTagged (leField p 0 4) = some (h, o, t) →
        ((s.ctxFree s.fab.gatherChan = false ∨ s.unitTest 1 = true) → exec (.gather m v) s = .next s.endStep) ∧
        (s.ctxFree s.fab.gatherChan = true → s.unitTest 1 = false →
          ∃ u d, exec (.gather m v) s = .next u ∧ u.gfe.cmds = s.gfe.cmds ++ [d] ∧ d.id = id ∧
            d.chan = s.fab.gatherChan ∧ d.cls = v % 4 ∧ u.fab.inbox = rest ∧
            u.fab.serves = s.fab.serves ++ [⟨m, v, x.msgId, id, false, p⟩]))) ∧
    (s.msgOf m v 4 = some x →
      (updateMsgBad p = true ∨ s.tableTagged (leField p 0 4) = none → refused (.update m v)) ∧
      (∀ h o t, updateMsgBad p = false → s.tableTagged (leField p 0 4) = some (h, o, t) →
        let fits : Bool := tableTakes t (opBits p 4 1 3 0) && leField p 6 2 == rowLen (leField p 5 1) t.elems
        (fits = false → refused (.update m v)) ∧
        (fits = true → (s.ctxFree s.fab.updateChan = false ∨ s.unitTest 1 = true) →
          exec (.update m v) s = .next s.endStep) ∧
        (fits = true → s.ctxFree s.fab.updateChan = true → s.unitTest 1 = false → ∃ u d, exec (.update m v) s = .next u ∧
          u.gfe.cmds = s.gfe.cmds ++ [d] ∧ d.id = id ∧ d.chan = s.fab.updateChan ∧ d.cls = v % 4 ∧ u.fab.inbox = rest ∧
          u.fab.serves = s.fab.serves ++ [⟨m, v, x.msgId, id, true, p⟩]))) ∧
    (s.msgOf m v 3 = some x →
      let wait := s.awaitOf (fun a => a.peer == m && a.vl == v && a.msgType == 2)
      (wait = none → exec (.partials m v) s = .next gone.endStep) ∧
      (∀ (a : Await) (as : List Await), wait = some (a, as) →
        (s.cmd? a.cmd = none → ∃ u, exec (.partials m v) s = .next u ∧ u.fab.inbox = rest ∧ u.fab.awaits = as) ∧
        (∀ d, s.cmd? a.cmd = some d →
          (d.res = none → ∃ u, exec (.partials m v) s = .next u ∧ u.fab.inbox = rest ∧ u.fab.awaits = as) ∧
          (∀ r, d.res = some r →
            (s.partialsOk p m d r = false → refused (.partials m v)) ∧
            (s.partialsOk p m d r = true → ∃ u e q, exec (.partials m v) s = .next u ∧ u.cmd? a.cmd = some e ∧
              e.res = some q ∧ q.partials = r.partials ++ [(m, p)] ∧
              q.awaitPeers = r.awaitPeers.filter (fun y => y.1 != m) ∧ u.fab.inbox = rest ∧ u.fab.awaits = as))))) ∧
    (s.msgOf m v 5 = some x →
      let wait := s.awaitOf (fun a => a.peer == m && a.msgType == 4 && a.msgId.toNat == leField p 0 4)
      (p.length ≠ 4 → refused (.updateAck m v)) ∧
      (p.length = 4 → wait = none → exec (.updateAck m v) s = .next gone.endStep) ∧
      (∀ a as, p.length = 4 → wait = some (a, as) →
        let q0 : State := { s with fab := { s.fab with inbox := rest, awaits := as } }
        let q := q0.setExtra { s.extra a.cmd with acked := (s.extra a.cmd).acked + 1 }
        ((∀ d st b c, s.cmd? a.cmd = some d → d.phase = .acks st b c → q.unacked a.cmd = true) →
          exec (.updateAck m v) s = .next q.endStep) ∧
        (∀ d st b c, s.cmd? a.cmd = some d → d.phase = .acks st b c → q.unacked a.cmd = false →
          ∃ u, exec (.updateAck m v) s = .next u ∧
            q.RecordsIn d u st b (if st = stRemoteFail then (q.extra a.cmd).acked else c)))) ∧
    (s.msgOf m v 6 = some x →
      (p.length ≠ 8 → refused (.refuse m v)) ∧
      (p.length = 8 →
        let q := gone.raise .fab 0 0x080 5
        (s.refusedCmd m (leField p 4 4) = none → exec (.refuse m v) s = .next q.endStep) ∧
        (∀ c, s.refusedCmd m (leField p 4 4) = some c →
          let left := q.fab.awaits.filter (fun a => !(a.peer == m && a.msgId.toNat == leField p 4 4))
          let q2 : State := { q with fab := { q.fab with awaits := left } }
          (s.cmd? c = none → exec (.refuse m v) s = .next q2.endStep) ∧
          (∀ d, s.cmd? c = some d →
            ((d.phase ≠ .resolving ∧ (∀ st a b, d.phase ≠ .acks st a b) ∧ ∀ k b, d.phase ≠ .flush k b) →
              exec (.refuse m v) s = .next q2.endStep) ∧
            (d.phase = .resolving → q2.headOver d = false → ∃ u, exec (.refuse m v) s = .next u ∧
              q2.RecordsIn d u stRemoteFail m (match d.res with | some r => r.partials.length | none => 0)) ∧
            (d.phase = .resolving → q2.headOver d = true → ∃ u, exec (.refuse m v) s = .next u ∧
              q2.RecordsIn d u stRange 0xFFFFFFFF 0) ∧
            (∀ k b, d.phase = .flush k b → ∃ u e, exec (.refuse m v) s = .next u ∧
              (u.regGet .fab 0 0x080).testBit 5 = true ∧ u.cmd? c = some e ∧ e.phase = .acks stRemoteFail m 0) ∧
            (∀ st a b, d.phase = .acks st a b →
              let w := q2.setCmd { d with phase := .acks stRemoteFail m 0 }
              (w.unacked c = true → exec (.refuse m v) s = .next w.endStep) ∧
              (w.unacked c = false → ∃ u, exec (.refuse m v) s = .next u ∧
                w.RecordsIn d u stRemoteFail m (w.extra c).acked)))))))

/-! ## Tests, residencies and the fault log (14) -/

/-- `TEST_ON_DEMAND`, `TEST_DRAIN_COMPLETE`, `TEST_DRAIN_TIMEOUT` and `TEST_DONE` (14 R435, R437 to R439): with its operands right
the test of a unit begins if no test is in progress, any other waits in line; operands out of range end the command with
ST_RANGE; when its unit is drained the test proper starts; when its drain takes too long the command ends with ST_NO_RESOURCE,
and when it has run with ST_OK and the verdict, which is kept for a unit; then no test is in progress unless one waited. A row
before its time, or with no test of a command in progress, changes nothing. -/
def Obligations.TestsOnDemandBeginAndEnd : Prop :=
  (∀ (s t : State) (n : Node) (d : Cmd), s.Issues n 0x02 t d →
    let x : Test := { kind := .demand d.id, unit := testUnit d.slot, clu := testClu d.slot, entered := 0,
                      drained := false, zero := 0, margin := testMargin d.slot,
                      length := if testMargin d.slot then t.fld .int 0 0x004 27 16 else 100 }
    (lowest (t.testBad d.slot) = none → t.integ.test = none → testUnit d.slot ≠ 0 →
      ∃ u, exec (.testOnDemand n) s = .next u ∧ u.integ.test = some { x with entered := t.tickN } ∧ u.integ.wait = t.integ.wait) ∧
    (lowest (t.testBad d.slot) = none → (t.integ.test ≠ none ∨ testUnit d.slot = 0) →
      ∃ u, exec (.testOnDemand n) s = .next u ∧ u.integ.test = t.integ.test ∧ u.integ.wait = t.integ.wait ++ [x]) ∧
    (∀ off, lowest (t.testBad d.slot) = some off →
      ∃ u, exec (.testOnDemand n) s = .next u ∧ t.RecordsIn d u stRange off 0)) ∧
  (∀ (s : State) (v : TestVerdict), (s.integ.test = none ∨ ∃ t, s.integ.test = some t ∧ t.cmd?.bind s.cmd? = none) →
    exec .testDrainTimeout s = .next s.endStep ∧ exec (.testDone v) s = .next s.endStep ∧
    (s.integ.test = none → exec .testDrainComplete s = .next s.endStep)) ∧
  (∀ (s : State) (t : Test), s.on = true → s.integ.test = some t →
    (t.drained = false → s.unitDrained t = true → ∃ u, exec .testDrainComplete s = .next u ∧
      u.integ.test = some { t with drained := true, zero := if t.ofClu then s.tickN + 1 else s.clk.now } ∧
      (t.unit = 4 → u.link.state = .down)) ∧
    ((t.drained = true ∨ s.unitDrained t = false) → exec .testDrainComplete s = .next s.endStep) ∧
    (∀ d, t.cmd?.bind s.cmd? = some d →
      (t.drained = false → t.entered + testDrain d.slot ≤ s.tickN →
        let q := (match t.ofClu, s.testSlot t with | true, some p => s.setSlotState p .serving | _, _ => s)
        ∃ u, exec .testDrainTimeout s = .next u ∧ (s.integ.wait = [] → u.integ.test = none) ∧
          q.clearTest.RecordsIn d u stNoResource 0x0401 0) ∧
      ((t.drained = true ∨ s.tickN < t.entered + testDrain d.slot) → exec .testDrainTimeout s = .next s.endStep) ∧
      (∀ v,
        let due : Bool := if t.ofClu then s.verdictDue t else t.drained && decide (t.zero + unitCycles t.unit ≤ s.clk.now)
        let q := if t.ofClu then s.judgeClu t v else s.judgeUnit t.unit v
        (due = true → ∃ u, exec (.testDone v) s = .next u ∧ (s.integ.wait = [] → u.integ.test = none) ∧
          q.clearTest.RecordsIn d u stOk (verdictDetails v).1 (verdictDetails v).2 ∧
          (t.unit ≠ 0 → u.integ.unitRes = listSet s.integ.unitRes (t.unit - 1) (if v = .pass then 1 else 2))) ∧
        (due = false → exec (.testDone v) s = .next s.endStep))))

/-- `RESIDENCY_START`, `RESIDENCY_ABANDON` and `RESIDENCY_VERDICT` (14 R432, R434 to R436): when the interval has passed and no test
is in progress or waits, the next cluster of the rotation is to be tested; at the next edge it goes into its residency; one that
cannot be evacuated returns to SERVING, or stays SUSPECT and is tested again; a passed test makes the slot SERVING, a failed one
RETIRED. A row before its time changes nothing. -/
def Obligations.ResidenciesJudgeClusters : Prop :=
  (∀ (s : State), s.on = true →
    let may : Bool := !s.sup.stopping && s.fld .int 0 0x004 0 0 == 1 && s.integ.test.isNone && s.integ.wait.isEmpty &&
      decide (s.integ.secsAt + s.fld .int 0 0x004 12 1 * secCycles ≤ s.clk.now)
    ((may = false ∨ s.rotation = []) → exec .residencyStart s = .next s.endStep) ∧
    (∀ n rest, may = true → s.rotation = n :: rest → ∃ u t, exec .residencyStart s = .next u ∧ u.integ.test = none ∧
      u.integ.wait = [t] ∧ t.kind = .rotation ∧ t.unit = 0 ∧ t.clu = n ∧ t.drained = false ∧ u.integ.secsAt = s.clk.now ∧
      u.integ.next = (n + 1) % max 1 s.nClus)) ∧
  (∀ (s : State) (t : Test) (rest : List Test) (p : Nat), s.Canon → s.integ.test = none → s.integ.wait = t :: rest → t.unit = 0 →
    s.testable t = true → s.cluSlot t.clu = some p →
    s.testEdge.integ.test = some { t with entered := s.tickN, drained := false } ∧ s.testEdge.integ.wait = rest ∧
    ((s.pslot p).state = .serving → (s.testEdge.pslot p).state = .testResidency)) ∧
  (∀ (s : State) (v : TestVerdict), (s.integ.test = none ∨ ∃ t, s.integ.test = some t ∧ (t.cmd?.isSome = true ∨ t.unit ≠ 0)) →
    exec .residencyAbandon s = .next s.endStep ∧ exec (.residencyVerdict v) s = .next s.endStep) ∧
  (∀ (s : State) (t : Test), s.Canon → s.on = true → s.integ.test = some t → t.unit = 0 → t.cmd? = none →
    (t.drained = false → t.entered + 64 ≤ s.tickN →
      ∃ u, exec .residencyAbandon s = .next u ∧ (s.integ.wait = [] → u.integ.test = none) ∧
        (∀ p, s.testSlot t = some p →
          (t.kind ≠ .suspect → (u.pslot p).state = .serving) ∧
          (t.kind = .suspect → (u.pslot p).state = (s.pslot p).state ∧ (s.integ.wait = [] → u.integ.wait = [t])))) ∧
    ((t.drained = true ∨ s.tickN < t.entered + 64) → exec .residencyAbandon s = .next s.endStep) ∧
    (t.drained = true → t.zero + t.length ≤ s.tickN →
      (∃ u, exec (.residencyVerdict .pass) s = .next u ∧ (s.integ.wait = [] → u.integ.test = none) ∧
        ∀ p, s.testSlot t = some p → (u.pslot p).state = .serving ∧ (u.pslot p).lastPass = s.clk.now) ∧
      (∀ f k, ∃ u, exec (.residencyVerdict (.fail f k)) s = .next u ∧ (s.integ.wait = [] → u.integ.test = none) ∧
        ∀ p, s.testSlot t = some p → (u.pslot p).state = .retired)) ∧
    ((t.drained = false ∨ s.tickN < t.zero + t.length) → ∀ v, exec (.residencyVerdict v) s = .next s.endStep))

/-- `INT_CLU_RETIRE`, `INT_CLU_SUSPECT`, `FAULT_LOG_RECORD_WRITE` and `INT_LOG_SNAP` (14 R432, R441, R442, R445): a SERVING slot
becomes RETIRED or SUSPECT, and a SUSPECT one RETIRED; a write to a slot in another state is ignored; the oldest buffered record
goes to the end of the ring, unless there is none or the supply or a test holds it; the record that an index names, counted from
the newest, is latched. -/
def Obligations.SlotControlAndTheFaultLog : Prop :=
  (∀ (s : State) (a : Acc), s.Canon → s.served = true →
    let st := (s.pslot (s.selSlot a)).state
    (st = .serving ∨ st = .suspect → ∃ u, exec (.intCluRetire a) s = .next u ∧ (u.pslot (s.selSlot a)).state = .retired) ∧
    (st ≠ .serving → st ≠ .suspect → exec (.intCluRetire a) s = .next (s.ignored .int 0 0x000).endStep) ∧
    (st = .serving → ∃ u, exec (.intCluSuspect a) s = .next u ∧ (u.pslot (s.selSlot a)).state = .suspect) ∧
    (st ≠ .serving → exec (.intCluSuspect a) s = .next (s.ignored .int 0 0x000).endStep)) ∧
  (∀ (s : State), s.on = true →
    let held : Bool := s.sup.inhibit || s.unitTest 4
    (∀ r rest, s.integ.logBuf = r :: rest → held = false → ∃ u, exec .faultLogRecordWrite s = .next u ∧ u.integ.logBuf = rest ∧
      u.integ.logRing = (s.integ.logRing ++ [r]).drop ((s.integ.logRing ++ [r]).length - 65536)) ∧
    ((s.integ.logBuf = [] ∨ held = true) → exec .faultLogRecordWrite s = .next s.endStep)) ∧
  (∀ (s : State) (a : Acc) (i : Nat),
    (s.served = true → ∃ u, exec (.intLogSnap a i) s = .next u ∧ (u.accState a).log = wordsOf (s.logRecord (i % 65536)) 16) ∧
    (s.served = false → ∀ c ∈ [Instr.intLogSnap a i, .intCluRetire a, .intCluSuspect a], exec c s = .next s.endStep))

/-! ## Power, monitors, boot and the sideband (16, 17) -/

/-- `INPUT_METER_SAMPLE`, `METER_TIMEOUT` and the samples and timeouts of temperatures, voltages and process counts (16 R470,
R471, R477 to R480): a sample in range is kept among the last 8, 3, 5 or 16, and one out of range or a timeout is a sensor
fault; the input's energy counts; the inhibit and the throttle follow the filtered voltage with their hysteresis, the thermal
step the hottest sensor; an input below 40.0 V or a hundred times above 60 V, ten hot values, sixteen values 10 % off, or 10 ms
without the meter, stop the module. A timeout whose time since the last valid sample has not passed changes nothing. -/
def Obligations.SamplesActOnTheirLimits : Prop :=
  ∀ s : State, s.Canon → s.on = true →
    let fault := fun c : Instr => ∃ u, exec c s = .next u ∧ (u.regGet .mon 0 0x000).testBit 4 = true
    let stops := fun c : Instr => ∃ u, exec c s = .next u ∧ u.sup.stopping = true
    let now := s.clk.now
    (∀ mv tenMa : Int,
      (mv < 0 ∨ 70000 < mv ∨ tenMa < 0 ∨ 6000 < tenMa → fault (.inputMeterSample mv tenMa)) ∧
      (0 ≤ mv → mv ≤ 70000 → 0 ≤ tenMa → tenMa ≤ 6000 →
        let vals := (mv :: s.sup.vin.vals).take 8
        let v := (median vals).toNat
        let run := if 60000 < median vals then s.sup.vin.run + 1 else 0
        (v < 40000 ∨ 100 ≤ run → stops (.inputMeterSample mv tenMa)) ∧
        (40000 ≤ v → run < 100 → ∃ u, exec (.inputMeterSample mv tenMa) s = .next u ∧ u.sup = { s.sup with
          vin := ⟨vals, false, run, now⟩, iin := ⟨(tenMa :: s.sup.iin.vals).take 8, false, s.sup.iin.run, now⟩, meterTimeout := false,
          energyPj := s.sup.energyPj + (mv * tenMa).toNat * 10,
          inhibit := if v < 43000 then true else if 44500 < v then false else s.sup.inhibit,
          throttleWant := if v < 42000 then true else if 42500 < v then false else s.sup.throttleWant }))) ∧
    (s.passed s.sup.vin.lastAt 130000 = true →
      (s.sup.vin.run < 100 → ∃ u, exec (.meterTimeout false) s = .next u ∧ u.sup.meterTimeout = true ∧ u.sup.inhibit = true ∧
        u.sup.throttleWant = false ∧ u.sup.stopping = s.sup.stopping) ∧
      (100 ≤ s.sup.vin.run → stops (.meterTimeout false))) ∧
    (s.passed s.sup.vin.lastAt 130000 = false → exec (.meterTimeout false) s = .next s.endStep) ∧
    (s.passed s.sup.vin.lastAt (10 * msCycles) = true → stops (.meterTimeout true)) ∧
    (s.passed s.sup.vin.lastAt (10 * msCycles) = false → exec (.meterTimeout true) s = .next s.endStep) ∧
    (∀ (k : Nat) (q : Int),
      (q < -160 ∨ 600 < q → fault (.tempSensorSample k q)) ∧
      (-160 ≤ q → q ≤ 600 →
        let vals := (q :: (s.tempRec k).vals).take 3
        let run := if 420 ≤ median vals then (s.tempRec k).run + 1 else 0
        (∃ u, exec (.tempSensorSample k q) s = .next u ∧ u.tempRec k = ⟨vals, false, run, now⟩ ∧
          u.mon.stepWant = thermStep s.mon.stepWant u.hottestTemp) ∧
        (10 ≤ run → stops (.tempSensorSample k q))) ∧
      (s.passed (s.tempRec k).lastAt msCycles = true →
        ∃ u, exec (.tempSensorTimeout k) s = .next u ∧ u.tempRec k = ⟨(s.tempRec k).vals, true, 0, (s.tempRec k).lastAt⟩ ∧
          u.mon.stepWant = thermStep s.mon.stepWant u.hottestTemp ∧ (u.regGet .mon 0 0x000).testBit 4 = true) ∧
      (s.passed (s.tempRec k).lastAt msCycles = false → exec (.tempSensorTimeout k) s = .next s.endStep)) ∧
    (∀ (k : Nat) (mv : Int),
      let nom : Int := ((Config.nominalMv k).toNat : Int)
      (mv < 0 ∨ 2 * nom < mv → fault (.voltageMonitorSample k mv)) ∧
      (0 ≤ mv → mv ≤ 2 * nom →
        let vals := (mv :: (s.voltRec k).vals).take 5
        let run := if outside 10 nom (median vals) then (s.voltRec k).run + 1 else 0
        (∃ u, exec (.voltageMonitorSample k mv) s = .next u ∧ u.voltRec k = ⟨vals, false, run, now⟩ ∧
          (run < 16 → outside 20 nom (median vals) = true → (u.regGet .mon 0 0x000).testBit 3 = true)) ∧
        (16 ≤ run → stops (.voltageMonitorSample k mv))) ∧
      (s.passed (s.voltRec k).lastAt msCycles = true →
        ∃ u, exec (.voltageMonitorTimeout k) s = .next u ∧ u.voltRec k = ⟨(s.voltRec k).vals, true, 0, (s.voltRec k).lastAt⟩ ∧
          (u.regGet .mon 0 0x000).testBit 3 = true) ∧
      (s.passed (s.voltRec k).lastAt msCycles = false → exec (.voltageMonitorTimeout k) s = .next s.endStep)) ∧
    (∀ k n : Nat,
      (outside 4 (s.bootCount k) n = true → fault (.processMonitorSample k n)) ∧
      (outside 4 (s.bootCount k) n = false → ∃ u, exec (.processMonitorSample k n) s = .next u ∧
        u.procRec k = ⟨((n : Int) :: (s.procRec k).vals).take 16, false, (s.procRec k).run, now⟩) ∧
      (s.passed (s.procRec k).lastAt (10 * secCycles) = true →
        ∃ u, exec (.processMonitorTimeout k) s = .next u ∧ (u.procRec k).timeout = true ∧
          (u.regGet .mon 0 0x000).testBit 4 = true) ∧
      (s.passed (s.procRec k).lastAt (10 * secCycles) = false → exec (.processMonitorTimeout k) s = .next s.endStep))

/-- `POWER_ON`, `RAILS_OFF`, `WATCHDOG_EXPIRY` and `WARM_RESET_END` (16 R475, R486, R488, R489, R491, R493, R499, R500): a boot whose
steps pass ends in SERVING with its images running, one that fails stops at its step, in recovery with its cause or with the
module off; the rails go off at the end of a controlled stop, which keeps the cellar, the stored images and the retirement
table; a silent core starts a warm reset, which ends with verified firmware or in recovery. A row that does not apply changes
nothing. -/
def Obligations.BootStopAndWarmReset : Prop :=
  (∀ (s : State) (b : BootInputs),
    let up : Bool := s.on && (s.sec.step != 0 || s.sec.recovery)
    let lands := fun cause step => ∃ u, exec (.powerOn b) s = .next u ∧ u.on = true ∧ u.sec.recovery = true ∧
      u.sec.cause = cause ∧ u.sec.step = step
    let image := (partition s.sec.cfgStored b.cfg).bind (fun x => verifyCfg x b.romHash b.devHash)
    (up = true → exec (.powerOn b) s = .next s.endStep) ∧
    (up = false →
      (b.railsFail = true → ∃ u, exec (.powerOn b) s = .next u ∧ u.on = false) ∧
      (b.railsFail = false → b.cellarFail = true → lands 1 2) ∧
      (b.railsFail = false → b.cellarFail = false →
        (image = none → lands 2 3) ∧
        (∀ i, image = some i →
          (partition s.sec.fwStored b.fw = none → lands 3 5) ∧
          (∀ f, partition s.sec.fwStored b.fw = some f →
            (fwGenuine b.romHash f = false ∨ f.svn < i.svnFloor → lands 3 5) ∧
            (fwGenuine b.romHash f = true → i.svnFloor ≤ f.svn → ∃ u, exec (.powerOn b) s = .next u ∧ u.on = true ∧
              u.sec.recovery = false ∧ u.sec.step = 12 ∧ u.sec.cfg = some i ∧ u.sec.fwRun = some f ∧ u.sb.pwrgd = true ∧
              u.fab.moduleId = i.moduleId)))))) ∧
  (∀ s : State, s.on = true →
    (s.sup.stopping = true → s.sup.stopAt + 3250000 ≤ s.clk.now → ∃ u, exec .railsOff s = .next u ∧ u.on = false ∧
      u.out = s.out ++ [.pwrgd false] ∧ u.sec.fwStored = s.sec.fwStored ∧ u.sec.cfgStored = s.sec.cfgStored ∧
      u.integ.retireSlots = s.integ.retireSlots ∧ u.integ.retireFrames = s.integ.retireFrames ∧
      ∀ a < frameData atticBase, u.byte a = s.byte a) ∧
    ((s.sup.stopping = false ∨ s.clk.now < s.sup.stopAt + 3250000) → exec .railsOff s = .next s.endStep) ∧
    (s.Canon → s.coresRun = true → ∃ u, exec .watchdogExpiry s = .next u ∧
      u.sec = { s.sec with warm := true, warmResets := satAdd 16 s.sec.warmResets 1 } ∧
      (u.regGet .sec 0 0x000).testBit 5 = true) ∧
    (s.coresRun = false → exec .watchdogExpiry s = .next s.endStep) ∧
    (∀ fw,
      let lost := { s.sec with recovery := true, cause := 3, step := 12, load := (0, 0, 0), words := [] }
      ((s.sec.warm = false ∨ s.sec.recovery = true) → exec (.warmResetEnd fw) s = .next s.endStep) ∧
      (s.sec.warm = true → s.sec.recovery = false →
        (∀ f, partition s.sec.fwStored fw = some f →
          (fwGenuine s.romHash f = true → s.svnFloor ≤ f.svn →
            ∃ u, exec (.warmResetEnd fw) s = .next u ∧ u.sec = { s.sec with warm := false, fwRun := some f }) ∧
          (fwGenuine s.romHash f = false ∨ f.svn < s.svnFloor → ∃ u, exec (.warmResetEnd fw) s = .next u ∧ u.sec = lost)) ∧
        (partition s.sec.fwStored fw = none → ∃ u, exec (.warmResetEnd fw) s = .next u ∧ u.sec = lost))))

/-- MCTP control and SPDM (16 R496 to R498; 17 R508, R511, R512; log entries 36 and 40 for what the standards give): an assigned
address and a valid endpoint ID are kept and answered; a bus reset drops the address; each request of a path that carries SPDM
is answered in the order of the negotiation, and out of that order with an error; without the identity key nothing is signed. -/
def Obligations.ControlAndAttestationAnswer : Prop :=
  (∀ s : State, s.on = true → (∃ u, exec .i3cBusReset s = .next u ∧ u.sb = { s.sb with dynAddr := none }) ∧
    exec .mctpMessageTimeout s = .next s.endStep) ∧
  (∀ s : State, s.sbAnswers = true →
    let replies := fun (c : Instr) (bytes : List Byte) => ∃ u, exec c s = .next u ∧ u.out = s.out ++ [.sideband bytes]
    (∀ a, ∃ u, exec (.dynamicAddressAssign a) s = .next u ∧ u.sb = { s.sb with dynAddr := some a }) ∧
    (∀ e : BitVec 8, (e = 0 ∨ e = 255 → replies (.setEndpointId e) [0, 0, 1, 2]) ∧
      (e ≠ 0 → e ≠ 255 → ∃ u, exec (.setEndpointId e) s = .next u ∧ u.sb = { s.sb with eid := e } ∧
        u.out = s.out ++ [.sideband [0, 0, 1, 0, 0, e, 0]])) ∧
    replies .getEndpointId [0, 0, 2, 0, s.sb.eid, 0, 0] ∧
    (∀ t : BitVec 8, (t ∈ [255, 0, 5, 0x7F] →
        replies (.getMctpVersionSupport t) ([0, 0, 4, 0, 1] ++ leBytes 4 (Config.freeValue s.freeCtr).toNat)) ∧
      (t ∉ [255, 0, 5, 0x7F] → replies (.getMctpVersionSupport t) [0, 0, 4, 0x80])) ∧
    replies .getMessageTypeSupport [0, 0, 5, 0, 2, 5, 0x7F] ∧
    replies .getEndpointUuid ([0, 0, 3, 0] ++ padTo 16 (Config.cryptoBytes 20 (s.sec.devHash.take 8)))) ∧
  (∀ (s : State) (p : SpdmPath), s.spdmOpen p = true →
    let replies := fun (c : Instr) (bytes : List Byte) => ∃ u, exec c s = .next u ∧ u.out = s.out ++ [.spdm p bytes]
    let error := fun (c : Instr) (code : Byte) => replies c [0x12, 0x7F, code, 0]
    (∃ u, exec (.getVersion p) s = .next u ∧ u.spdmStage p = 1 ∧ u.out = s.out ++ [.spdm p [0x10, 4, 0, 0, 0, 1, 0, 0x12]]) ∧
    (s.spdmStage p = 0 → error (.getCapabilities p) 4) ∧
    (1 ≤ s.spdmStage p → ∃ u, exec (.getCapabilities p) s = .next u ∧ u.spdmStage p = 2) ∧
    (s.spdmStage p < 2 → ∀ a b, error (.negotiateAlgorithms p a b) 4) ∧
    (2 ≤ s.spdmStage p → (∃ u, exec (.negotiateAlgorithms p true true) s = .next u ∧ u.spdmStage p = 3) ∧
      ∀ a b, a = false ∨ b = false → error (.negotiateAlgorithms p a b) 1) ∧
    (s.spdmStage p < 3 → ∀ slot off len nonce ix sign, ∀ c ∈ [Instr.getDigests p, .getCertificate p slot off len,
      .challenge p slot nonce, .getMeasurements p ix sign nonce], error c 4) ∧
    (3 ≤ s.spdmStage p →
      replies (.getDigests p) ([0x12, 1, 0, 1] ++ sha256 certChain) ∧
      (∀ slot off len, (slot ≠ 0 ∨ certChain.length < off → error (.getCertificate p slot off len) 1) ∧
        (off ≤ certChain.length → let part := (certChain.drop off).take len
          replies (.getCertificate p 0 off len) ([0x12, 2, 0, 0] ++ leBytes 2 part.length ++
            leBytes 2 (certChain.length - off - part.length) ++ part))) ∧
      (∀ slot nonce, (slot ≠ 0 → error (.challenge p slot nonce) 1) ∧
        (s.sec.idOk = false → error (.challenge p 0 nonce) 5) ∧
        (s.sec.idOk = true → ∃ u b, exec (.challenge p 0 nonce) s = .next u ∧
          u.out = s.out ++ [.spdm p ([0x12, 3, 0, 1] ++ sha256 certChain ++ b)])) ∧
      (∀ ix sign nonce, (s.sec.idOk = false → error (.getMeasurements p ix true nonce) 5) ∧
        ((sign = false ∨ s.sec.idOk = true) → 4 < ix → ix ≠ 255 → error (.getMeasurements p ix sign nonce) 1) ∧
        ((sign = false ∨ s.sec.idOk = true) → 1 ≤ ix → ix ≤ 4 → ∃ u b, exec (.getMeasurements p ix sign nonce) s = .next u ∧
          u.out = s.out ++ [.spdm p ([0x12, 0x60, 0, 0, 1] ++ leBytes 3 (s.measurement ix).length ++ s.measurement ix ++ b)]) ∧
        ((sign = false ∨ s.sec.idOk = true) → ix = 255 → ∃ u b, exec (.getMeasurements p ix sign nonce) s = .next u ∧
          u.out = s.out ++ [.spdm p ([0x12, 0x60, 0, 0, 4] ++ leBytes 3 ([1, 2, 3, 4].flatMap s.measurement).length ++
            [1, 2, 3, 4].flatMap s.measurement ++ b)]) ∧
        ((sign = false ∨ s.sec.idOk = true) → ix = 0 → ∃ u b, exec (.getMeasurements p 0 sign nonce) s = .next u ∧
          u.out = s.out ++ [.spdm p ([0x12, 0x60, 4, 0, 0] ++ leBytes 3 0 ++ b)])))) ∧
  (∀ (s : State) (a : BitVec 7) (e : BitVec 8), s.sbAnswers = false →
    ∀ c ∈ [Instr.dynamicAddressAssign a, .setEndpointId e, .getEndpointId, .getMctpVersionSupport e, .getMessageTypeSupport,
      .getEndpointUuid], exec c s = .next s.endStep) ∧
  (∀ (s : State) (p : SpdmPath) (a b : Bool) (slot off len : Nat) (nonce : List Byte), s.spdmOpen p = false →
    ∀ c ∈ [Instr.getVersion p, .getCapabilities p, .negotiateAlgorithms p a b, .getDigests p, .getCertificate p slot off len,
      .challenge p slot nonce, .getMeasurements p slot a nonce], exec c s = .next s.endStep)

/-- The command set of the sideband (17 R513 to R516): a command of the wrong length, one that recovery does not serve, and one
whose operands are out of range end with completion code 2, 6 or 3; identity, status, a sensor, log records and
retirement entries are answered with their bytes; the key erases the retirement table in the
background, unless an erase runs or the inhibit stands, and starts a warm reset, unless one runs. -/
def Obligations.SidebandServesItsCommands : Prop :=
  (∀ (s : State) (inst : Byte) (req : List Byte), s.sbAnswers = false →
    ∀ c ∈ [Instr.getIdentity inst req, .getStatus inst req, .readSensor inst req, .readReg inst req, .writeReg inst req,
      .readLog inst req, .readRetire inst req, .eraseRetire inst req, .warmReset inst req], exec c s = .next s.endStep) ∧
  ∀ s : State, s.sbAnswers = true →
    let reply := fun (cmd : Nat) (inst : Byte) (cc : Nat) (data : List Byte) =>
      Output.sideband ([0x7F, 0, 1, 0xE8, 0xC5] ++ leBytes 1 cmd ++ [inst] ++ leBytes 1 cc ++ data)
    let replies := fun (c : Instr) (o : Output) => ∃ u, exec c s = .next u ∧ u.out = s.out ++ [o]
    (∀ (inst : Byte) (req : List Byte),
      ∀ k ∈ [(1, Instr.getIdentity inst req, 0), (2, .getStatus inst req, 0), (3, .readSensor inst req, 2), (4, .readReg inst req, 4),
        (5, .writeReg inst req, 8), (6, .readLog inst req, 3), (7, .readRetire inst req, 3), (8, .eraseRetire inst req, 4),
        (9, .warmReset inst req, 1)],
      (s.sec.recovery = true → 2 < k.1 → replies k.2.1 (reply k.1 inst 6 [])) ∧
      (s.sec.recovery = false ∨ k.1 ≤ 2 → req.length ≠ k.2.2 → replies k.2.1 (reply k.1 inst 2 []))) ∧
    (∀ inst : Byte, replies (.getIdentity inst []) (reply 1 inst 0 s.identity) ∧ replies (.getStatus inst []) (reply 2 inst 0 s.statusBytes)) ∧
    (s.sec.recovery = false → ∀ (inst : Byte) (req : List Byte),
      (req.length = 2 → let kind := leField req 0 1
        let ix := leField req 1 1
        (sensorReg kind = none → replies (.readSensor inst req) (reply 3 inst 3 [])) ∧
        (∀ off n, sensorReg kind = some (off, n) → (n ≤ ix → replies (.readSensor inst req) (reply 3 inst 3 [])) ∧
          (ix < n → replies (.readSensor inst req) (reply 3 inst 0 (leBytes 4 (s.roMon ix off)))))) ∧
      (req.length = 3 → let first := leField req 0 2
        let n := leField req 2 1
        (n = 0 ∨ 15 < n ∨ 65536 < first + n → replies (.readLog inst req) (reply 6 inst 3 [])) ∧
        (0 < n → n ≤ 15 → first + n ≤ 65536 →
          replies (.readLog inst req) (reply 6 inst 0 ((upTo n).flatMap (fun i => s.logRecord (first + i))))) ∧
        (n = 0 ∨ 64 < n ∨ s.retireTable.length < first + n → replies (.readRetire inst req) (reply 7 inst 3 [])) ∧
        (0 < n → n ≤ 64 → first + n ≤ s.retireTable.length →
          replies (.readRetire inst req) (reply 7 inst 0 (((s.retireTable.drop first).take n).flatMap id)))) ∧
      (req.length = 4 → let key := leField req 0 4
        (key ≠ 0x45524153 → replies (.eraseRetire inst req) (reply 8 inst 3 [])) ∧
        (key = 0x45524153 → (s.sb.erasing = 1 → replies (.eraseRetire inst req) (reply 8 inst 4 [])) ∧
          (s.sb.erasing ≠ 1 → s.sup.inhibit = true → replies (.eraseRetire inst req) (reply 8 inst 5 [])) ∧
          (s.sb.erasing ≠ 1 → s.sup.inhibit = false → ∃ u, exec (.eraseRetire inst req) s = .next u ∧
            u.sb = { s.sb with erasing := 1 } ∧ u.out = s.out ++ [reply 8 inst 0 []]))) ∧
      (req.length = 1 → let key := leField req 0 1
        (key ≠ 0xA5 → replies (.warmReset inst req) (reply 9 inst 3 [])) ∧
        (key = 0xA5 → (s.sec.warm = true → replies (.warmReset inst req) (reply 9 inst 4 [])) ∧
          (s.sec.warm = false → ∃ u, exec (.warmReset inst req) s = .next u ∧ u.out = s.out ++ [reply 9 inst 0 []] ∧
            u.sec = { s.sec with warm := true, warmResets := satAdd 16 s.sec.warmResets 1 })))) ∧
    (s.sb.erasing ≠ 1 → ∀ ok, exec (.eraseComplete ok) s = .next s.endStep) ∧
    (s.sb.erasing = 1 →
      (∃ u, exec (.eraseComplete true) s = .next u ∧ u.sb = { s.sb with erasing := 2 } ∧ u.integ.retireSlots = [] ∧
        u.integ.retireFrames = []) ∧
      (∃ u, exec (.eraseComplete false) s = .next u ∧ u.sb = { s.sb with erasing := 3 } ∧ u.integ = s.integ))

/-! ## The bytes of memory -/

/-- The frame of memory (10 R298, R300; 12 R364, R366, R367; 03 R91; 02 R36): a read of device memory changes no byte; a write
changes only the bytes of its address, in the side-band view only header bytes 2 to 7, and on a POISONED tile its whole frame;
`TIMESTAMP` changes only the frame that it writes a copy in, or its 16 bytes; a move only its destination; a creation only its
frames; and the flip of a run that is no pair's no byte at all: its outputs become homes where they stand. -/
def Obligations.StoresChangeOnlyTheirBytes : Prop :=
  let inFrame := fun (f a : Nat) => (frameData f ≤ a ∧ a < frameData f + 4096) ∨ (frameHdr f ≤ a ∧ a < frameHdr f + 8)
  (∀ (s : State) (dpa : Nat), s.Canon → s.memOpen dpa = true →
    (∀ len bad, ∃ u, exec (.memRd dpa len bad) s = .next u ∧ ∀ a, u.byte a = s.byte a) ∧
    (∀ bytes, rawAttic ≤ dpa → dpa < holeStart → ∃ u, exec (.memWr dpa bytes) s = .next u ∧
      ∀ a, ¬(dpa ≤ a ∧ a < dpa + bytes.length) → u.byte a = s.byte a) ∧
    (let k := aptSlot dpa
     let h := s.regGet .cxl k 0x044
     ∀ t x side o f bytes, dpa < apertureEnd → aptView (aptOff dpa) = some (t, x, side) → s.fld .cxl k 0x04C 0 0 ≠ 0 →
      s.obj? h = some o → s.fld .cxl k 0x048 29 0 + t < o.tiles → s.homeOf h (s.fld .cxl k 0x048 29 0 + t) = some f →
      (tierOf f ≠ 3 → (s.frame f).state ≠ .poisoned → ∃ u, exec (.memWr dpa bytes) s = .next u ∧
        (side = false → ∀ a, ¬(frameData f + x ≤ a ∧ a < frameData f + x + bytes.length) → u.byte a = s.byte a) ∧
        (side = true → ∀ a, ¬(frameHdr f + 2 ≤ a ∧ a < frameHdr f + 8) → u.byte a = s.byte a)) ∧
      ((s.frame f).state = .poisoned → side = false → x + bytes.length ≤ 4096 → ∃ u, exec (.memWr dpa bytes) s = .next u ∧
        ∀ a, ¬ inFrame f a → u.byte a = s.byte a))) ∧
  (∀ (s t : State) (n : Node) (d : Cmd) (o : Obj) (f : Nat), t.Canon → s.Issues n 0x01 t d → (leField d.slot 16 1).testBit 1 = true →
    t.liveObj (op32 d.slot 20) = some o → op32 d.slot 24 + 16 ≤ o.tiles * 4096 → op32 d.slot 24 % 16 = 0 →
    t.homeOf (op32 d.slot 20) (op32 d.slot 24 / 4096) = some f → (t.frame f).state ≠ .poisoned →
    (∀ g q, t.allocShadow (t.shadowTier (op32 d.slot 20) (op32 d.slot 24 / 4096)) (op32 d.slot 20) (op32 d.slot 24 / 4096) d.cls = some (g, q) →
      ∃ u, exec (.timestamp n) s = .next u ∧ ∀ a, ¬ inFrame g a → u.byte a = t.byte a) ∧
    (t.allocShadow (t.shadowTier (op32 d.slot 20) (op32 d.slot 24 / 4096)) (op32 d.slot 20) (op32 d.slot 24 / 4096) d.cls = none →
      let at' := frameData f + op32 d.slot 24 % 4096
      ∃ u, exec (.timestamp n) s = .next u ∧ ∀ a, ¬(at' ≤ a ∧ a < at' + 16) → u.byte a = t.byte a)) ∧
  (∀ (s : State) (h tile : Nat) (m : Move), s.Canon → s.on = true → s.host.memWait = [] → s.moveOf h tile = some m →
    s.moveDone m = true → s.moveBarred h tile (tierOf m.dst) = false → s.headFault m.src h tile = none → m.dirty = false →
    ∃ u, exec (.tileMoveCommit h tile none) s = .next u ∧ ∀ a, ¬ inFrame m.dst a → u.byte a = s.byte a) ∧
  (∀ (s : State) (h id : Nat) (o : Obj), s.Canon → s.on = true → s.obj? h = some o → o.creation = .filling id → s.cellarBusy h = false →
    ∃ u, exec (.zeroFillComplete h) s = .next u ∧ ∀ a, (∀ x ∈ o.map, ¬ inFrame x.2 a) → u.byte a = s.byte a) ∧
  (∀ (s : State) (n : Nat) (r : Run) (d : Cmd) (w : RunWork), s.on = true → (s.runFold n).flipReady n = some (r, d, w) →
    d.paired = false → (s.runFold n).host.memWait = [] →
    ∃ u, exec (.commandFlip n) s = .next u ∧ ∀ a, u.byte a = (s.runFold n).byte a)
end

