-- ==== Sys2Proof/Laws/FrameBase.lean ====
section
/-! SUPPORT. `OnlyChanges` through folds, record updates, choices and optional states. The other `Frame` files say for every
operation and every meaning which parts of the state it may change. -/

namespace Sys2Proof.Machine
open Sys2Proof

/-- Every part of the first list is in the second. -/
def Within (a b : List Part) : Prop := a.all (fun p => b.contains p) = true

theorem Within.refl (a : List Part) : Within a a := List.all_eq_true.mpr (fun _ h => List.contains_iff_mem.mpr h)

theorem Within.of {a b k : List Part} (h : Within b k) (e : Within a b) : Within a k := by
  refine List.all_eq_true.mpr (fun p hp => ?_)
  exact List.all_eq_true.mp h p (List.contains_iff_mem.mp (List.all_eq_true.mp e p hp))

theorem Within.has {a k : List Part} (h : Within a k) {p : Part} (hp : a.contains p = true) : k.contains p = true :=
  List.all_eq_true.mp h p (List.contains_iff_mem.mp hp)

/-- A part that is not listed is none of those that the shorter list names. -/
theorem Within.no {a k : List Part} (h : Within a k) {p : Part} (hp : a.contains p = true) {C : Prop} (e : k.contains p = false) : C :=
  absurd (h.has hp) (by rw [e]; decide)

theorem Part.same_refl (p : Part) (s : State) : p.same s s := by cases p <;> rfl

theorem Part.same_trans (p : Part) {s t u : State} (a : p.same s t) (b : p.same t u) : p.same s u := by
  cases p <;> exact Eq.trans b a

theorem OnlyChanges.refl {k : List Part} (s : State) : OnlyChanges k s s := fun p _ => p.same_refl s

theorem OnlyChanges.trans {k : List Part} {s t u : State} (a : OnlyChanges k s t) (b : OnlyChanges k t u) :
    OnlyChanges k s u := fun p h => p.same_trans (a p h) (b p h)

theorem OnlyChanges.fst {α : Type} {k : List Part} {q t : State} {p : State × α} {x : α} (h : OnlyChanges k q p.1)
    (e : p = (t, x)) : OnlyChanges k q t := by
  subst e; exact h

theorem OnlyChanges.snd {α : Type} {k : List Part} {q t : State} {p : α × State} {x : α} (h : OnlyChanges k q p.2)
    (e : p = (x, t)) : OnlyChanges k q t := by
  subst e; exact h

theorem OnlyChanges.ite {k : List Part} {q a b : State} {c : Prop} [Decidable c] (h1 : OnlyChanges k q a)
    (h2 : OnlyChanges k q b) : OnlyChanges k q (if c then a else b) := by
  split <;> assumption

theorem OnlyChanges.foldl {α : Type} {k : List Part} {q s : State} {f : State → α → State} {l : List α}
    (h : OnlyChanges k q s) (hf : ∀ t x, OnlyChanges k q t → OnlyChanges k q (f t x)) :
    OnlyChanges k q (l.foldl f s) := by
  induction l generalizing s with
  | nil => exact h
  | cons x l ih => exact ih (hf s x h)

theorem OnlyChanges.foldlFst {α β : Type} {k : List Part} {q : State} {p : State × β} {f : State × β → α → State × β}
    {l : List α} (h : OnlyChanges k q p.1) (hf : ∀ y x, OnlyChanges k q y.1 → OnlyChanges k q (f y x).1) :
    OnlyChanges k q (l.foldl f p).1 := by
  induction l generalizing p with
  | nil => exact h
  | cons x l ih => exact ih (hf p x h)

/-- An optional state, if there is one, changes the listed parts only. -/
def OnlyO (k : List Part) (q : State) (o : Option State) : Prop := ∀ t, o = some t → OnlyChanges k q t

theorem OnlyO.some {k : List Part} {q s : State} (h : OnlyChanges k q s) : OnlyO k q (some s) := fun t e => by
  cases e; exact h

theorem OnlyO.none {k : List Part} {q : State} : OnlyO k q none := fun _ e => nomatch e

theorem OnlyO.use {k : List Part} {q s : State} {o : Option State} (h : OnlyO k q o) (e : o = Option.some s) :
    OnlyChanges k q s := h s e

/-- The same for an optional pair with a state. -/
def OnlyP {α : Type} (k : List Part) (q : State) (o : Option (α × State)) : Prop :=
  ∀ x t, o = some (x, t) → OnlyChanges k q t

theorem OnlyP.some {α : Type} {k : List Part} {q s : State} {x : α} (h : OnlyChanges k q s) : OnlyP k q (some (x, s)) :=
  fun _ t e => by cases e; exact h

theorem OnlyP.none {α : Type} {k : List Part} {q : State} : OnlyP (α := α) k q none := fun _ _ e => nomatch e

theorem OnlyP.use {α : Type} {k : List Part} {q s : State} {x : α} {o : Option (α × State)} (h : OnlyP k q o)
    (e : o = Option.some (x, s)) : OnlyChanges k q s := h x s e

/-- A command answers a next state that differs in the listed parts only. -/
def RunsOnly (k : List Part) (q : State) (o : Host.Outcome State Fault Refusal) : Prop :=
  ∃ t, o = .next t ∧ OnlyChanges k q t

theorem RunsOnly.done {k : List Part} {q s : State} (hk : Within [.reg] k) (h : OnlyChanges k q s) :
    RunsOnly k q (done s) := by
  refine ⟨_, rfl, fun p hp => p.same_trans (h p hp) ?_⟩
  cases p <;> first | rfl | exact absurd (hk.has rfl) (by rw [hp]; decide)

/-- A list of parts spelled out answers whether it holds a part. -/
theorem OnlyChanges.use {k : List Part} {s t : State} (h : OnlyChanges k s t) (p : Part) (hp : k.contains p = false) :
    p.same s t := h p hp

theorem OnlyChanges.upd_accts {ps : List Part} {q s : State} (hk : Within [.accts] ps) (h : OnlyChanges ps q s) {accts} :
    OnlyChanges ps q (State.mk s.clk s.ts s.reg s.chans s.cqs accts s.gfe s.clus s.cnts s.resvs s.pslots s.scales s.mem s.frames s.objs s.place s.streams s.xfers s.link s.host s.fab s.integ s.icnt s.sup s.mon s.sec s.sb s.staged s.out s.freeCtr s.pending) := by
  refine h.trans (fun p hp => ?_)
  cases p <;> first | rfl | exact absurd (hk.has rfl) (by rw [hp]; decide)

theorem OnlyChanges.upd_chans {ps : List Part} {q s : State} (hk : Within [.chans] ps) (h : OnlyChanges ps q s) {chans} :
    OnlyChanges ps q (State.mk s.clk s.ts s.reg chans s.cqs s.accts s.gfe s.clus s.cnts s.resvs s.pslots s.scales s.mem s.frames s.objs s.place s.streams s.xfers s.link s.host s.fab s.integ s.icnt s.sup s.mon s.sec s.sb s.staged s.out s.freeCtr s.pending) := by
  refine h.trans (fun p hp => ?_)
  cases p <;> first | rfl | exact absurd (hk.has rfl) (by rw [hp]; decide)

theorem OnlyChanges.upd_clk {ps : List Part} {q s : State} (hk : Within [.clk] ps) (h : OnlyChanges ps q s) {clk} :
    OnlyChanges ps q (State.mk clk s.ts s.reg s.chans s.cqs s.accts s.gfe s.clus s.cnts s.resvs s.pslots s.scales s.mem s.frames s.objs s.place s.streams s.xfers s.link s.host s.fab s.integ s.icnt s.sup s.mon s.sec s.sb s.staged s.out s.freeCtr s.pending) := by
  refine h.trans (fun p hp => ?_)
  cases p <;> first | rfl | exact absurd (hk.has rfl) (by rw [hp]; decide)

theorem OnlyChanges.upd_clk_staged {ps : List Part} {q s : State} (hk : Within [.clk, .staged] ps) (h : OnlyChanges ps q s) {clk staged} :
    OnlyChanges ps q (State.mk clk s.ts s.reg s.chans s.cqs s.accts s.gfe s.clus s.cnts s.resvs s.pslots s.scales s.mem s.frames s.objs s.place s.streams s.xfers s.link s.host s.fab s.integ s.icnt s.sup s.mon s.sec s.sb staged s.out s.freeCtr s.pending) := by
  refine h.trans (fun p hp => ?_)
  cases p <;> first | rfl | exact absurd (hk.has rfl) (by rw [hp]; decide)

theorem OnlyChanges.upd_clk_sup {ps : List Part} {q s : State} (hk : Within [.clk, .sup] ps) (h : OnlyChanges ps q s) {clk sup} :
    OnlyChanges ps q (State.mk clk s.ts s.reg s.chans s.cqs s.accts s.gfe s.clus s.cnts s.resvs s.pslots s.scales s.mem s.frames s.objs s.place s.streams s.xfers s.link s.host s.fab s.integ s.icnt sup s.mon s.sec s.sb s.staged s.out s.freeCtr s.pending) := by
  refine h.trans (fun p hp => ?_)
  cases p <;> first | rfl | exact absurd (hk.has rfl) (by rw [hp]; decide)

theorem OnlyChanges.upd_clus {ps : List Part} {q s : State} (hk : Within [.clus] ps) (h : OnlyChanges ps q s) {clus} :
    OnlyChanges ps q (State.mk s.clk s.ts s.reg s.chans s.cqs s.accts s.gfe clus s.cnts s.resvs s.pslots s.scales s.mem s.frames s.objs s.place s.streams s.xfers s.link s.host s.fab s.integ s.icnt s.sup s.mon s.sec s.sb s.staged s.out s.freeCtr s.pending) := by
  refine h.trans (fun p hp => ?_)
  cases p <;> first | rfl | exact absurd (hk.has rfl) (by rw [hp]; decide)

theorem OnlyChanges.upd_cnts {ps : List Part} {q s : State} (hk : Within [.cnts] ps) (h : OnlyChanges ps q s) {cnts} :
    OnlyChanges ps q (State.mk s.clk s.ts s.reg s.chans s.cqs s.accts s.gfe s.clus cnts s.resvs s.pslots s.scales s.mem s.frames s.objs s.place s.streams s.xfers s.link s.host s.fab s.integ s.icnt s.sup s.mon s.sec s.sb s.staged s.out s.freeCtr s.pending) := by
  refine h.trans (fun p hp => ?_)
  cases p <;> first | rfl | exact absurd (hk.has rfl) (by rw [hp]; decide)

theorem OnlyChanges.upd_cqs {ps : List Part} {q s : State} (hk : Within [.cqs] ps) (h : OnlyChanges ps q s) {cqs} :
    OnlyChanges ps q (State.mk s.clk s.ts s.reg s.chans cqs s.accts s.gfe s.clus s.cnts s.resvs s.pslots s.scales s.mem s.frames s.objs s.place s.streams s.xfers s.link s.host s.fab s.integ s.icnt s.sup s.mon s.sec s.sb s.staged s.out s.freeCtr s.pending) := by
  refine h.trans (fun p hp => ?_)
  cases p <;> first | rfl | exact absurd (hk.has rfl) (by rw [hp]; decide)

theorem OnlyChanges.upd_fab {ps : List Part} {q s : State} (hk : Within [.fab] ps) (h : OnlyChanges ps q s) {fab} :
    OnlyChanges ps q (State.mk s.clk s.ts s.reg s.chans s.cqs s.accts s.gfe s.clus s.cnts s.resvs s.pslots s.scales s.mem s.frames s.objs s.place s.streams s.xfers s.link s.host fab s.integ s.icnt s.sup s.mon s.sec s.sb s.staged s.out s.freeCtr s.pending) := by
  refine h.trans (fun p hp => ?_)
  cases p <;> first | rfl | exact absurd (hk.has rfl) (by rw [hp]; decide)

theorem OnlyChanges.upd_frames {ps : List Part} {q s : State} (hk : Within [.frames] ps) (h : OnlyChanges ps q s) {frames} :
    OnlyChanges ps q (State.mk s.clk s.ts s.reg s.chans s.cqs s.accts s.gfe s.clus s.cnts s.resvs s.pslots s.scales s.mem frames s.objs s.place s.streams s.xfers s.link s.host s.fab s.integ s.icnt s.sup s.mon s.sec s.sb s.staged s.out s.freeCtr s.pending) := by
  refine h.trans (fun p hp => ?_)
  cases p <;> first | rfl | exact absurd (hk.has rfl) (by rw [hp]; decide)

theorem OnlyChanges.upd_frames_place {ps : List Part} {q s : State} (hk : Within [.frames, .place] ps) (h : OnlyChanges ps q s) {frames place} :
    OnlyChanges ps q (State.mk s.clk s.ts s.reg s.chans s.cqs s.accts s.gfe s.clus s.cnts s.resvs s.pslots s.scales s.mem frames s.objs place s.streams s.xfers s.link s.host s.fab s.integ s.icnt s.sup s.mon s.sec s.sb s.staged s.out s.freeCtr s.pending) := by
  refine h.trans (fun p hp => ?_)
  cases p <;> first | rfl | exact absurd (hk.has rfl) (by rw [hp]; decide)

theorem OnlyChanges.upd_freeCtr {ps : List Part} {q s : State} (hk : Within [.freeCtr] ps) (h : OnlyChanges ps q s) {freeCtr} :
    OnlyChanges ps q (State.mk s.clk s.ts s.reg s.chans s.cqs s.accts s.gfe s.clus s.cnts s.resvs s.pslots s.scales s.mem s.frames s.objs s.place s.streams s.xfers s.link s.host s.fab s.integ s.icnt s.sup s.mon s.sec s.sb s.staged s.out freeCtr s.pending) := by
  refine h.trans (fun p hp => ?_)
  cases p <;> first | rfl | exact absurd (hk.has rfl) (by rw [hp]; decide)

theorem OnlyChanges.upd_gfe {ps : List Part} {q s : State} (hk : Within [.gfe] ps) (h : OnlyChanges ps q s) {gfe}
    (hf : ps.contains .fences = false → gfe.fences = s.gfe.fences) :
    OnlyChanges ps q (State.mk s.clk s.ts s.reg s.chans s.cqs s.accts gfe s.clus s.cnts s.resvs s.pslots s.scales s.mem s.frames s.objs s.place s.streams s.xfers s.link s.host s.fab s.integ s.icnt s.sup s.mon s.sec s.sb s.staged s.out s.freeCtr s.pending) := by
  refine h.trans (fun p hp => ?_)
  cases p <;> first | rfl | exact hf hp | exact absurd (hk.has rfl) (by rw [hp]; decide)

theorem OnlyChanges.upd_gfe_fab {ps : List Part} {q s : State} (hk : Within [.gfe, .fab] ps) (h : OnlyChanges ps q s) {gfe fab}
    (hf : ps.contains .fences = false → gfe.fences = s.gfe.fences) :
    OnlyChanges ps q (State.mk s.clk s.ts s.reg s.chans s.cqs s.accts gfe s.clus s.cnts s.resvs s.pslots s.scales s.mem s.frames s.objs s.place s.streams s.xfers s.link s.host fab s.integ s.icnt s.sup s.mon s.sec s.sb s.staged s.out s.freeCtr s.pending) := by
  refine h.trans (fun p hp => ?_)
  cases p <;> first | rfl | exact hf hp | exact absurd (hk.has rfl) (by rw [hp]; decide)

theorem OnlyChanges.upd_gfe_host {ps : List Part} {q s : State} (hk : Within [.gfe, .host] ps) (h : OnlyChanges ps q s) {gfe host}
    (hf : ps.contains .fences = false → gfe.fences = s.gfe.fences)
    (hm : ps.contains .memWait = false → host.memWait = s.host.memWait) :
    OnlyChanges ps q (State.mk s.clk s.ts s.reg s.chans s.cqs s.accts gfe s.clus s.cnts s.resvs s.pslots s.scales s.mem s.frames s.objs s.place s.streams s.xfers s.link host s.fab s.integ s.icnt s.sup s.mon s.sec s.sb s.staged s.out s.freeCtr s.pending) := by
  refine h.trans (fun p hp => ?_)
  cases p <;> first | rfl | exact hf hp | exact hm hp | exact absurd (hk.has rfl) (by rw [hp]; decide)

theorem OnlyChanges.upd_host {ps : List Part} {q s : State} (hk : Within [.host] ps) (h : OnlyChanges ps q s) {host}
    (hm : ps.contains .memWait = false → host.memWait = s.host.memWait) :
    OnlyChanges ps q (State.mk s.clk s.ts s.reg s.chans s.cqs s.accts s.gfe s.clus s.cnts s.resvs s.pslots s.scales s.mem s.frames s.objs s.place s.streams s.xfers s.link host s.fab s.integ s.icnt s.sup s.mon s.sec s.sb s.staged s.out s.freeCtr s.pending) := by
  refine h.trans (fun p hp => ?_)
  cases p <;> first | rfl | exact hm hp | exact absurd (hk.has rfl) (by rw [hp]; decide)

theorem OnlyChanges.upd_icnt {ps : List Part} {q s : State} (hk : Within [.icnt] ps) (h : OnlyChanges ps q s) {icnt} :
    OnlyChanges ps q (State.mk s.clk s.ts s.reg s.chans s.cqs s.accts s.gfe s.clus s.cnts s.resvs s.pslots s.scales s.mem s.frames s.objs s.place s.streams s.xfers s.link s.host s.fab s.integ icnt s.sup s.mon s.sec s.sb s.staged s.out s.freeCtr s.pending) := by
  refine h.trans (fun p hp => ?_)
  cases p <;> first | rfl | exact absurd (hk.has rfl) (by rw [hp]; decide)

theorem OnlyChanges.upd_integ {ps : List Part} {q s : State} (hk : Within [.integ] ps) (h : OnlyChanges ps q s) {integ}
    (ht : ps.contains .tests = false → (integ.test, integ.wait) = (s.integ.test, s.integ.wait)) :
    OnlyChanges ps q (State.mk s.clk s.ts s.reg s.chans s.cqs s.accts s.gfe s.clus s.cnts s.resvs s.pslots s.scales s.mem s.frames s.objs s.place s.streams s.xfers s.link s.host s.fab integ s.icnt s.sup s.mon s.sec s.sb s.staged s.out s.freeCtr s.pending) := by
  refine h.trans (fun p hp => ?_)
  cases p <;> first | rfl | exact ht hp | exact absurd (hk.has rfl) (by rw [hp]; decide)

theorem OnlyChanges.upd_integ_icnt {ps : List Part} {q s : State} (hk : Within [.integ, .icnt] ps) (h : OnlyChanges ps q s) {integ icnt}
    (ht : ps.contains .tests = false → (integ.test, integ.wait) = (s.integ.test, s.integ.wait)) :
    OnlyChanges ps q (State.mk s.clk s.ts s.reg s.chans s.cqs s.accts s.gfe s.clus s.cnts s.resvs s.pslots s.scales s.mem s.frames s.objs s.place s.streams s.xfers s.link s.host s.fab integ icnt s.sup s.mon s.sec s.sb s.staged s.out s.freeCtr s.pending) := by
  refine h.trans (fun p hp => ?_)
  cases p <;> first | rfl | exact ht hp | exact absurd (hk.has rfl) (by rw [hp]; decide)

theorem OnlyChanges.upd_integ_sb {ps : List Part} {q s : State} (hk : Within [.integ, .sb] ps) (h : OnlyChanges ps q s) {integ sb}
    (ht : ps.contains .tests = false → (integ.test, integ.wait) = (s.integ.test, s.integ.wait)) :
    OnlyChanges ps q (State.mk s.clk s.ts s.reg s.chans s.cqs s.accts s.gfe s.clus s.cnts s.resvs s.pslots s.scales s.mem s.frames s.objs s.place s.streams s.xfers s.link s.host s.fab integ s.icnt s.sup s.mon s.sec sb s.staged s.out s.freeCtr s.pending) := by
  refine h.trans (fun p hp => ?_)
  cases p <;> first | rfl | exact ht hp | exact absurd (hk.has rfl) (by rw [hp]; decide)

theorem OnlyChanges.upd_integ_sec_sb {ps : List Part} {q s : State} (hk : Within [.integ, .sec, .sb] ps) (h : OnlyChanges ps q s) {integ sec sb}
    (ht : ps.contains .tests = false → (integ.test, integ.wait) = (s.integ.test, s.integ.wait)) :
    OnlyChanges ps q (State.mk s.clk s.ts s.reg s.chans s.cqs s.accts s.gfe s.clus s.cnts s.resvs s.pslots s.scales s.mem s.frames s.objs s.place s.streams s.xfers s.link s.host s.fab integ s.icnt s.sup s.mon sec sb s.staged s.out s.freeCtr s.pending) := by
  refine h.trans (fun p hp => ?_)
  cases p <;> first | rfl | exact ht hp | exact absurd (hk.has rfl) (by rw [hp]; decide)

theorem OnlyChanges.upd_link {ps : List Part} {q s : State} (hk : Within [.link] ps) (h : OnlyChanges ps q s) {link} :
    OnlyChanges ps q (State.mk s.clk s.ts s.reg s.chans s.cqs s.accts s.gfe s.clus s.cnts s.resvs s.pslots s.scales s.mem s.frames s.objs s.place s.streams s.xfers link s.host s.fab s.integ s.icnt s.sup s.mon s.sec s.sb s.staged s.out s.freeCtr s.pending) := by
  refine h.trans (fun p hp => ?_)
  cases p <;> first | rfl | exact absurd (hk.has rfl) (by rw [hp]; decide)

theorem OnlyChanges.upd_link_host {ps : List Part} {q s : State} (hk : Within [.link, .host] ps) (h : OnlyChanges ps q s) {link host}
    (hm : ps.contains .memWait = false → host.memWait = s.host.memWait) :
    OnlyChanges ps q (State.mk s.clk s.ts s.reg s.chans s.cqs s.accts s.gfe s.clus s.cnts s.resvs s.pslots s.scales s.mem s.frames s.objs s.place s.streams s.xfers link host s.fab s.integ s.icnt s.sup s.mon s.sec s.sb s.staged s.out s.freeCtr s.pending) := by
  refine h.trans (fun p hp => ?_)
  cases p <;> first | rfl | exact hm hp | exact absurd (hk.has rfl) (by rw [hp]; decide)

theorem OnlyChanges.upd_link_sec_sb {ps : List Part} {q s : State} (hk : Within [.link, .sec, .sb] ps) (h : OnlyChanges ps q s) {link sec sb} :
    OnlyChanges ps q (State.mk s.clk s.ts s.reg s.chans s.cqs s.accts s.gfe s.clus s.cnts s.resvs s.pslots s.scales s.mem s.frames s.objs s.place s.streams s.xfers link s.host s.fab s.integ s.icnt s.sup s.mon sec sb s.staged s.out s.freeCtr s.pending) := by
  refine h.trans (fun p hp => ?_)
  cases p <;> first | rfl | exact absurd (hk.has rfl) (by rw [hp]; decide)

theorem OnlyChanges.upd_mem {ps : List Part} {q s : State} (hk : Within [.mem] ps) (h : OnlyChanges ps q s) {mem} :
    OnlyChanges ps q (State.mk s.clk s.ts s.reg s.chans s.cqs s.accts s.gfe s.clus s.cnts s.resvs s.pslots s.scales mem s.frames s.objs s.place s.streams s.xfers s.link s.host s.fab s.integ s.icnt s.sup s.mon s.sec s.sb s.staged s.out s.freeCtr s.pending) := by
  refine h.trans (fun p hp => ?_)
  cases p <;> first | rfl | exact absurd (hk.has rfl) (by rw [hp]; decide)

theorem OnlyChanges.upd_mon {ps : List Part} {q s : State} (hk : Within [.mon] ps) (h : OnlyChanges ps q s) {mon} :
    OnlyChanges ps q (State.mk s.clk s.ts s.reg s.chans s.cqs s.accts s.gfe s.clus s.cnts s.resvs s.pslots s.scales s.mem s.frames s.objs s.place s.streams s.xfers s.link s.host s.fab s.integ s.icnt s.sup mon s.sec s.sb s.staged s.out s.freeCtr s.pending) := by
  refine h.trans (fun p hp => ?_)
  cases p <;> first | rfl | exact absurd (hk.has rfl) (by rw [hp]; decide)

theorem OnlyChanges.upd_objs {ps : List Part} {q s : State} (hk : Within [.objs] ps) (h : OnlyChanges ps q s) {objs} :
    OnlyChanges ps q (State.mk s.clk s.ts s.reg s.chans s.cqs s.accts s.gfe s.clus s.cnts s.resvs s.pslots s.scales s.mem s.frames objs s.place s.streams s.xfers s.link s.host s.fab s.integ s.icnt s.sup s.mon s.sec s.sb s.staged s.out s.freeCtr s.pending) := by
  refine h.trans (fun p hp => ?_)
  cases p <;> first | rfl | exact absurd (hk.has rfl) (by rw [hp]; decide)

theorem OnlyChanges.upd_out {ps : List Part} {q s : State} (hk : Within [.out] ps) (h : OnlyChanges ps q s) {out} :
    OnlyChanges ps q (State.mk s.clk s.ts s.reg s.chans s.cqs s.accts s.gfe s.clus s.cnts s.resvs s.pslots s.scales s.mem s.frames s.objs s.place s.streams s.xfers s.link s.host s.fab s.integ s.icnt s.sup s.mon s.sec s.sb s.staged out s.freeCtr s.pending) := by
  refine h.trans (fun p hp => ?_)
  cases p <;> first | rfl | exact absurd (hk.has rfl) (by rw [hp]; decide)

theorem OnlyChanges.upd_pending {ps : List Part} {q s : State} (hk : Within [.pending] ps) (h : OnlyChanges ps q s) {pending} :
    OnlyChanges ps q (State.mk s.clk s.ts s.reg s.chans s.cqs s.accts s.gfe s.clus s.cnts s.resvs s.pslots s.scales s.mem s.frames s.objs s.place s.streams s.xfers s.link s.host s.fab s.integ s.icnt s.sup s.mon s.sec s.sb s.staged s.out s.freeCtr pending) := by
  refine h.trans (fun p hp => ?_)
  cases p <;> first | rfl | exact absurd (hk.has rfl) (by rw [hp]; decide)

theorem OnlyChanges.upd_place {ps : List Part} {q s : State} (hk : Within [.place] ps) (h : OnlyChanges ps q s) {place} :
    OnlyChanges ps q (State.mk s.clk s.ts s.reg s.chans s.cqs s.accts s.gfe s.clus s.cnts s.resvs s.pslots s.scales s.mem s.frames s.objs place s.streams s.xfers s.link s.host s.fab s.integ s.icnt s.sup s.mon s.sec s.sb s.staged s.out s.freeCtr s.pending) := by
  refine h.trans (fun p hp => ?_)
  cases p <;> first | rfl | exact absurd (hk.has rfl) (by rw [hp]; decide)

theorem OnlyChanges.upd_place_link {ps : List Part} {q s : State} (hk : Within [.place, .link] ps) (h : OnlyChanges ps q s) {place link} :
    OnlyChanges ps q (State.mk s.clk s.ts s.reg s.chans s.cqs s.accts s.gfe s.clus s.cnts s.resvs s.pslots s.scales s.mem s.frames s.objs place s.streams s.xfers link s.host s.fab s.integ s.icnt s.sup s.mon s.sec s.sb s.staged s.out s.freeCtr s.pending) := by
  refine h.trans (fun p hp => ?_)
  cases p <;> first | rfl | exact absurd (hk.has rfl) (by rw [hp]; decide)

theorem OnlyChanges.upd_pslots {ps : List Part} {q s : State} (hk : Within [.pslots] ps) (h : OnlyChanges ps q s) {pslots} :
    OnlyChanges ps q (State.mk s.clk s.ts s.reg s.chans s.cqs s.accts s.gfe s.clus s.cnts s.resvs pslots s.scales s.mem s.frames s.objs s.place s.streams s.xfers s.link s.host s.fab s.integ s.icnt s.sup s.mon s.sec s.sb s.staged s.out s.freeCtr s.pending) := by
  refine h.trans (fun p hp => ?_)
  cases p <;> first | rfl | exact absurd (hk.has rfl) (by rw [hp]; decide)

theorem OnlyChanges.upd_reg {ps : List Part} {q s : State} (hk : Within [.reg] ps) (h : OnlyChanges ps q s) {reg} :
    OnlyChanges ps q (State.mk s.clk s.ts reg s.chans s.cqs s.accts s.gfe s.clus s.cnts s.resvs s.pslots s.scales s.mem s.frames s.objs s.place s.streams s.xfers s.link s.host s.fab s.integ s.icnt s.sup s.mon s.sec s.sb s.staged s.out s.freeCtr s.pending) := by
  refine h.trans (fun p hp => ?_)
  cases p <;> first | rfl | exact absurd (hk.has rfl) (by rw [hp]; decide)

theorem OnlyChanges.upd_resvs {ps : List Part} {q s : State} (hk : Within [.resvs] ps) (h : OnlyChanges ps q s) {resvs} :
    OnlyChanges ps q (State.mk s.clk s.ts s.reg s.chans s.cqs s.accts s.gfe s.clus s.cnts resvs s.pslots s.scales s.mem s.frames s.objs s.place s.streams s.xfers s.link s.host s.fab s.integ s.icnt s.sup s.mon s.sec s.sb s.staged s.out s.freeCtr s.pending) := by
  refine h.trans (fun p hp => ?_)
  cases p <;> first | rfl | exact absurd (hk.has rfl) (by rw [hp]; decide)

theorem OnlyChanges.upd_resvs_sup {ps : List Part} {q s : State} (hk : Within [.resvs, .sup] ps) (h : OnlyChanges ps q s) {resvs sup} :
    OnlyChanges ps q (State.mk s.clk s.ts s.reg s.chans s.cqs s.accts s.gfe s.clus s.cnts resvs s.pslots s.scales s.mem s.frames s.objs s.place s.streams s.xfers s.link s.host s.fab s.integ s.icnt sup s.mon s.sec s.sb s.staged s.out s.freeCtr s.pending) := by
  refine h.trans (fun p hp => ?_)
  cases p <;> first | rfl | exact absurd (hk.has rfl) (by rw [hp]; decide)

theorem OnlyChanges.upd_sb {ps : List Part} {q s : State} (hk : Within [.sb] ps) (h : OnlyChanges ps q s) {sb} :
    OnlyChanges ps q (State.mk s.clk s.ts s.reg s.chans s.cqs s.accts s.gfe s.clus s.cnts s.resvs s.pslots s.scales s.mem s.frames s.objs s.place s.streams s.xfers s.link s.host s.fab s.integ s.icnt s.sup s.mon s.sec sb s.staged s.out s.freeCtr s.pending) := by
  refine h.trans (fun p hp => ?_)
  cases p <;> first | rfl | exact absurd (hk.has rfl) (by rw [hp]; decide)

theorem OnlyChanges.upd_scales {ps : List Part} {q s : State} (hk : Within [.scales] ps) (h : OnlyChanges ps q s) {scales} :
    OnlyChanges ps q (State.mk s.clk s.ts s.reg s.chans s.cqs s.accts s.gfe s.clus s.cnts s.resvs s.pslots scales s.mem s.frames s.objs s.place s.streams s.xfers s.link s.host s.fab s.integ s.icnt s.sup s.mon s.sec s.sb s.staged s.out s.freeCtr s.pending) := by
  refine h.trans (fun p hp => ?_)
  cases p <;> first | rfl | exact absurd (hk.has rfl) (by rw [hp]; decide)

theorem OnlyChanges.upd_sec {ps : List Part} {q s : State} (hk : Within [.sec] ps) (h : OnlyChanges ps q s) {sec} :
    OnlyChanges ps q (State.mk s.clk s.ts s.reg s.chans s.cqs s.accts s.gfe s.clus s.cnts s.resvs s.pslots s.scales s.mem s.frames s.objs s.place s.streams s.xfers s.link s.host s.fab s.integ s.icnt s.sup s.mon sec s.sb s.staged s.out s.freeCtr s.pending) := by
  refine h.trans (fun p hp => ?_)
  cases p <;> first | rfl | exact absurd (hk.has rfl) (by rw [hp]; decide)

theorem OnlyChanges.upd_streams {ps : List Part} {q s : State} (hk : Within [.streams] ps) (h : OnlyChanges ps q s) {streams} :
    OnlyChanges ps q (State.mk s.clk s.ts s.reg s.chans s.cqs s.accts s.gfe s.clus s.cnts s.resvs s.pslots s.scales s.mem s.frames s.objs s.place streams s.xfers s.link s.host s.fab s.integ s.icnt s.sup s.mon s.sec s.sb s.staged s.out s.freeCtr s.pending) := by
  refine h.trans (fun p hp => ?_)
  cases p <;> first | rfl | exact absurd (hk.has rfl) (by rw [hp]; decide)

theorem OnlyChanges.upd_sup {ps : List Part} {q s : State} (hk : Within [.sup] ps) (h : OnlyChanges ps q s) {sup} :
    OnlyChanges ps q (State.mk s.clk s.ts s.reg s.chans s.cqs s.accts s.gfe s.clus s.cnts s.resvs s.pslots s.scales s.mem s.frames s.objs s.place s.streams s.xfers s.link s.host s.fab s.integ s.icnt sup s.mon s.sec s.sb s.staged s.out s.freeCtr s.pending) := by
  refine h.trans (fun p hp => ?_)
  cases p <;> first | rfl | exact absurd (hk.has rfl) (by rw [hp]; decide)

theorem OnlyChanges.upd_sup_mon {ps : List Part} {q s : State} (hk : Within [.sup, .mon] ps) (h : OnlyChanges ps q s) {sup mon} :
    OnlyChanges ps q (State.mk s.clk s.ts s.reg s.chans s.cqs s.accts s.gfe s.clus s.cnts s.resvs s.pslots s.scales s.mem s.frames s.objs s.place s.streams s.xfers s.link s.host s.fab s.integ s.icnt sup mon s.sec s.sb s.staged s.out s.freeCtr s.pending) := by
  refine h.trans (fun p hp => ?_)
  cases p <;> first | rfl | exact absurd (hk.has rfl) (by rw [hp]; decide)

theorem OnlyChanges.upd_sup_sb {ps : List Part} {q s : State} (hk : Within [.sup, .sb] ps) (h : OnlyChanges ps q s) {sup sb} :
    OnlyChanges ps q (State.mk s.clk s.ts s.reg s.chans s.cqs s.accts s.gfe s.clus s.cnts s.resvs s.pslots s.scales s.mem s.frames s.objs s.place s.streams s.xfers s.link s.host s.fab s.integ s.icnt sup s.mon s.sec sb s.staged s.out s.freeCtr s.pending) := by
  refine h.trans (fun p hp => ?_)
  cases p <;> first | rfl | exact absurd (hk.has rfl) (by rw [hp]; decide)

theorem OnlyChanges.upd_ts {ps : List Part} {q s : State} (hk : Within [.ts] ps) (h : OnlyChanges ps q s) {ts} :
    OnlyChanges ps q (State.mk s.clk ts s.reg s.chans s.cqs s.accts s.gfe s.clus s.cnts s.resvs s.pslots s.scales s.mem s.frames s.objs s.place s.streams s.xfers s.link s.host s.fab s.integ s.icnt s.sup s.mon s.sec s.sb s.staged s.out s.freeCtr s.pending) := by
  refine h.trans (fun p hp => ?_)
  cases p <;> first | rfl | exact absurd (hk.has rfl) (by rw [hp]; decide)

theorem OnlyChanges.upd_xfers {ps : List Part} {q s : State} (hk : Within [.xfers] ps) (h : OnlyChanges ps q s) {xfers} :
    OnlyChanges ps q (State.mk s.clk s.ts s.reg s.chans s.cqs s.accts s.gfe s.clus s.cnts s.resvs s.pslots s.scales s.mem s.frames s.objs s.place s.streams xfers s.link s.host s.fab s.integ s.icnt s.sup s.mon s.sec s.sb s.staged s.out s.freeCtr s.pending) := by
  refine h.trans (fun p hp => ?_)
  cases p <;> first | rfl | exact absurd (hk.has rfl) (by rw [hp]; decide)

end Sys2Proof.Machine
end

