-- ==== Sys2Proof/Laws/FrameCommon.lean ====
section
/-! SUPPORT. What may change (`OnlyChanges`), for the shared operations: registers, records, contexts, completions and the front end. -/

namespace Sys2Proof.Machine
open Sys2Proof

theorem State.setChan_only {ps : List Part} {q s : State} (hk : Within [.chans] ps) (hq : OnlyChanges ps q s) (c : Nat) (v : Chan) : OnlyChanges ps q (State.setChan s c v) := by
  unfold State.setChan
  with_reducible apply OnlyChanges.upd_chans
  · exact hk
  · assumption

theorem State.setCq_only {ps : List Part} {q s : State} (hk : Within [.cqs] ps) (hq : OnlyChanges ps q s) (c : Nat) (v : ChanCq) : OnlyChanges ps q (State.setCq s c v) := by
  unfold State.setCq
  with_reducible apply OnlyChanges.upd_cqs
  · exact hk
  · assumption

theorem State.setAcct_only {ps : List Part} {q s : State} (hk : Within [.accts] ps) (hq : OnlyChanges ps q s) (c : Nat) (v : ChanAcct) : OnlyChanges ps q (State.setAcct s c v) := by
  unfold State.setAcct
  with_reducible apply OnlyChanges.upd_accts
  · exact hk
  · assumption

theorem State.setClu_only {ps : List Part} {q s : State} (hk : Within [.clus] ps) (hq : OnlyChanges ps q s) (n : Nat) (v : Clu) : OnlyChanges ps q (State.setClu s n v) := by
  unfold State.setClu
  with_reducible apply OnlyChanges.upd_clus
  · exact hk
  · assumption

theorem State.setCnt_only {ps : List Part} {q s : State} (hk : Within [.cnts] ps) (hq : OnlyChanges ps q s) (n : Nat) (v : CluCnt) : OnlyChanges ps q (State.setCnt s n v) := by
  unfold State.setCnt
  with_reducible apply OnlyChanges.upd_cnts
  · exact hk
  · assumption

theorem State.setPslot_only {ps : List Part} {q s : State} (hk : Within [.pslots] ps) (hq : OnlyChanges ps q s) (p : Nat) (v : PSlot) : OnlyChanges ps q (State.setPslot s p v) := by
  unfold State.setPslot
  with_reducible apply OnlyChanges.upd_pslots
  · exact hk
  · assumption

theorem State.setScale_only {ps : List Part} {q s : State} (hk : Within [.scales] ps) (hq : OnlyChanges ps q s) (n : Nat) (v : ScaleSlot) : OnlyChanges ps q (State.setScale s n v) := by
  unfold State.setScale
  with_reducible apply OnlyChanges.upd_scales
  · exact hk
  · assumption

theorem State.setFence_only {ps : List Part} {q s : State} (hk : Within [.gfe, .fences] ps) (hq : OnlyChanges ps q s) (n : Nat) (v : Fence) : OnlyChanges ps q (State.setFence s n v) := by
  unfold State.setFence
  with_reducible apply OnlyChanges.upd_gfe
  · exact hk.of rfl
  · assumption
  · exact hk.no rfl

theorem State.setStream_only {ps : List Part} {q s : State} (hk : Within [.streams] ps) (hq : OnlyChanges ps q s) (n : Nat) (d : Nat) (v : Stream) : OnlyChanges ps q (State.setStream s n d v) := by
  unfold State.setStream
  with_reducible apply OnlyChanges.upd_streams
  · exact hk
  · assumption

theorem State.setFrame_only {ps : List Part} {q s : State} (hk : Within [.frames] ps) (hq : OnlyChanges ps q s) (f : Nat) (v : FrameRec) : OnlyChanges ps q (State.setFrame s f v) := by
  unfold State.setFrame
  with_reducible apply OnlyChanges.upd_frames
  · exact hk
  · assumption

theorem State.setPort_only {ps : List Part} {q s : State} (hk : Within [.fab] ps) (hq : OnlyChanges ps q s) (p : Nat) (v : Port) : OnlyChanges ps q (State.setPort s p v) := by
  unfold State.setPort
  with_reducible apply OnlyChanges.upd_fab
  · exact hk
  · assumption

theorem State.setPeer_only {ps : List Part} {q s : State} (hk : Within [.fab] ps) (hq : OnlyChanges ps q s) (e : Nat) (v : Peer) : OnlyChanges ps q (State.setPeer s e v) := by
  unfold State.setPeer
  with_reducible apply OnlyChanges.upd_fab
  · exact hk
  · assumption

theorem State.setStack_only {ps : List Part} {q s : State} (hk : Within [.place] ps) (hq : OnlyChanges ps q s) (k : Nat) (v : StackRec) : OnlyChanges ps q (State.setStack s k v) := by
  unfold State.setStack
  with_reducible apply OnlyChanges.upd_place
  · exact hk
  · assumption

theorem State.setTarget_only {ps : List Part} {q s : State} (hk : Within [.place] ps) (hq : OnlyChanges ps q s) (t : Nat) (v : TargetRec) : OnlyChanges ps q (State.setTarget s t v) := by
  unfold State.setTarget
  with_reducible apply OnlyChanges.upd_place
  · exact hk
  · assumption

theorem State.setObj_only {ps : List Part} {q s : State} (hk : Within [.objs] ps) (hq : OnlyChanges ps q s) (h : Nat) (o : Obj) : OnlyChanges ps q (State.setObj s h o) := by
  unfold State.setObj
  with_reducible apply OnlyChanges.upd_objs
  · exact hk
  · assumption

theorem State.dropObj_only {ps : List Part} {q s : State} (hk : Within [.objs] ps) (hq : OnlyChanges ps q s) (h : Nat) : OnlyChanges ps q (State.dropObj s h) := by
  unfold State.dropObj
  with_reducible apply OnlyChanges.upd_objs
  · exact hk
  · assumption

theorem State.takeFree_only {ps : List Part} {q s : State} (hk : Within [.freeCtr] ps) (hq : OnlyChanges ps q s) : OnlyChanges ps q (State.takeFree s).2 := by
  unfold State.takeFree
  dsimp only
  with_reducible apply OnlyChanges.upd_freeCtr
  · exact hk
  · assumption

theorem State.emit_only {ps : List Part} {q s : State} (hk : Within [.out] ps) (hq : OnlyChanges ps q s) (o : Output) : OnlyChanges ps q (State.emit s o) := by
  unfold State.emit
  with_reducible apply OnlyChanges.upd_out
  · exact hk
  · assumption

theorem State.regPut_only {ps : List Part} {q s : State} (hk : Within [.reg] ps) (hq : OnlyChanges ps q s) (w : Win) (item : Nat) (off : Nat) (v : Nat) : OnlyChanges ps q (State.regPut s w item off v) := by
  unfold State.regPut
  with_reducible apply OnlyChanges.upd_reg
  · exact hk
  · assumption

theorem State.fldPut_only {ps : List Part} {q s : State} (hk : Within [.reg] ps) (hq : OnlyChanges ps q s) (w : Win) (item : Nat) (off : Nat) (msb : Nat) (lsb : Nat) (v : Nat) : OnlyChanges ps q (State.fldPut s w item off msb lsb v) := by
  unfold State.fldPut
  extract_lets +onlyGivenNames v1
  clear_value v1
  with_reducible apply State.regPut_only
  · exact hk
  · assumption

theorem State.signalVector_only {ps : List Part} {q s : State} (hk : Within [.host, .out] ps) (hq : OnlyChanges ps q s) (v : Nat) : OnlyChanges ps q (State.signalVector s v) := by
  unfold State.signalVector
  with_reducible refine OnlyChanges.ite ?_ ?_
  · with_reducible apply State.emit_only
    · exact hk.of rfl
    · assumption
  · with_reducible refine OnlyChanges.ite ?_ ?_
    · assumption
    · with_reducible apply OnlyChanges.upd_host
      · exact hk.of rfl
      · assumption
      · exact fun _ => rfl

theorem State.raiseEvent_only {ps : List Part} {q s : State} (hk : Within [.host, .out] ps) (hq : OnlyChanges ps q s) (e : Nat) : OnlyChanges ps q (State.raiseEvent s e) := by
  unfold State.raiseEvent
  with_reducible refine OnlyChanges.ite ?_ ?_
  · with_reducible apply State.signalVector_only
    · exact hk
    · assumption
  · assumption

theorem State.statusSet_only {ps : List Part} {q s : State} (hk : Within [.reg] ps) (hq : OnlyChanges ps q s) (w : Win) (item : Nat) (off : Nat) (bits : Nat) : OnlyChanges ps q (State.statusSet s w item off bits) := by
  unfold State.statusSet
  with_reducible refine OnlyChanges.ite ?_ ?_
  · assumption
  · extract_lets +onlyGivenNames v1
    clear_value v1
    extract_lets +onlyGivenNames v2
    clear_value v2
    extract_lets +onlyGivenNames v3
    clear_value v3
    extract_lets +onlyGivenNames v4
    have hv4 : OnlyChanges ps q v4 := by
      unfold v4
      with_reducible apply State.regPut_only
      · exact hk
      · assumption
    clear_value v4
    with_reducible refine OnlyChanges.ite ?_ ?_
    · assumption
    · with_reducible apply OnlyChanges.upd_reg
      · exact hk
      · assumption

theorem State.statusEvents_only {ps : List Part} {q s : State} (hk : Within [.host, .out] ps) (hq : OnlyChanges ps q s) (w : Win) (off : Nat) (bits : Nat) (l : List Nat) :
    OnlyChanges ps q (State.statusEvents s w off bits l) := by
  induction l generalizing s with
  | nil => exact hq
  | cons b t ih =>
    rw [State.statusEvents]
    apply ih
    split
    · split
      · exact State.raiseEvent_only (hk.of rfl) hq _
      · exact hq
    · exact hq

theorem State.raise_only {ps : List Part} {q s : State} (hk : Within [.reg, .host, .out] ps) (hq : OnlyChanges ps q s) (w : Win) (item : Nat) (off : Nat) (bit : Nat) : OnlyChanges ps q (State.raise s w item off bit) := by
  unfold State.raise
  with_reducible apply State.statusEvents_only
  · exact hk.of rfl
  · with_reducible apply State.statusSet_only
    · exact hk.of rfl
    · assumption

theorem State.endStep_only {ps : List Part} {q s : State} (hk : Within [.reg] ps) (hq : OnlyChanges ps q s) : OnlyChanges ps q (State.endStep s) := by
  unfold State.endStep
  with_reducible apply OnlyChanges.upd_reg
  · exact hk
  · assumption

theorem State.clockTo_only {ps : List Part} {q s : State} (hk : Within [.clk] ps) (hq : OnlyChanges ps q s) (c : Nat) : OnlyChanges ps q (State.clockTo s c) := by
  unfold State.clockTo
  with_reducible apply OnlyChanges.upd_clk
  · exact hk
  · assumption

theorem State.putByte_only {ps : List Part} {q s : State} (hk : Within [.mem] ps) (hq : OnlyChanges ps q s) (a : Nat) (b : Byte) : OnlyChanges ps q (State.putByte s a b) := by
  unfold State.putByte
  with_reducible apply OnlyChanges.upd_mem
  · exact hk
  · assumption

theorem State.writeBytes_only {ps : List Part} {q s : State} (hk : Within [.mem] ps) (hq : OnlyChanges ps q s) (a : Nat) (bs : List Byte) : OnlyChanges ps q (State.writeBytes s a bs) := by
  unfold State.writeBytes
  with_reducible apply OnlyChanges.upd_mem
  · exact hk
  · assumption

theorem State.setHome_only {ps : List Part} {q s : State} (hk : Within [.objs] ps) (hq : OnlyChanges ps q s) (h : Nat) (tile : Nat) (f : Nat) : OnlyChanges ps q (State.setHome s h tile f) := by
  unfold State.setHome
  split
  · with_reducible apply State.setObj_only
    · exact hk
    · assumption
  · assumption

theorem State.setCmd_only {ps : List Part} {q s : State} (hk : Within [.gfe] ps) (hq : OnlyChanges ps q s) (c : Cmd) : OnlyChanges ps q (State.setCmd s c) := by
  unfold State.setCmd
  with_reducible apply OnlyChanges.upd_gfe
  · exact hk
  · assumption
  · exact fun _ => rfl

theorem State.dropCmd_only {ps : List Part} {q s : State} (hk : Within [.gfe, .fab] ps) (hq : OnlyChanges ps q s) (id : Nat) : OnlyChanges ps q (State.dropCmd s id) := by
  unfold State.dropCmd
  with_reducible apply OnlyChanges.upd_gfe_fab
  · exact hk
  · assumption
  · exact fun _ => rfl

theorem State.setExtra_only {ps : List Part} {q s : State} (hk : Within [.gfe] ps) (hq : OnlyChanges ps q s) (e : CmdExtra) : OnlyChanges ps q (State.setExtra s e) := by
  unfold State.setExtra
  with_reducible apply OnlyChanges.upd_gfe
  · exact hk
  · assumption
  · exact fun _ => rfl

theorem State.setLaunch_only {ps : List Part} {q s : State} (hk : Within [.gfe] ps) (hq : OnlyChanges ps q s) (l : Launch) : OnlyChanges ps q (State.setLaunch s l) := by
  unfold State.setLaunch
  with_reducible apply OnlyChanges.upd_gfe
  · exact hk
  · assumption
  · exact fun _ => rfl

theorem State.setCtx_only {ps : List Part} {q s : State} (hk : Within [.gfe] ps) (hq : OnlyChanges ps q s) (x : Ctx) : OnlyChanges ps q (State.setCtx s x) := by
  unfold State.setCtx
  with_reducible apply OnlyChanges.upd_gfe
  · exact hk
  · assumption
  · exact fun _ => rfl

theorem State.sendCtl_only {ps : List Part} {q s : State} (hk : Within [.out] ps) (hq : OnlyChanges ps q s) (port : Nat) (kind : Nat) (vl : Nat) (dst : Nat) (reset : Bool) (payload : List Byte) : OnlyChanges ps q (State.sendCtl s port kind vl dst reset payload) := by
  unfold State.sendCtl
  extract_lets +onlyGivenNames v1
  clear_value v1
  with_reducible apply State.emit_only
  · exact hk
  · assumption

theorem State.sendData_only {ps : List Part} {q s : State} (hk : Within [.out] ps) (hq : OnlyChanges ps q s) (port : Nat) (dst : Nat) (vl : Nat) (f : TxFrame) : OnlyChanges ps q (State.sendData s port dst vl f) := by
  unfold State.sendData
  extract_lets +onlyGivenNames v1
  clear_value v1
  with_reducible apply State.emit_only
  · exact hk
  · assumption

theorem State.pumpFlow_only {ps : List Part} {q s : State} (hk : Within [.fab, .out] ps) (hq : OnlyChanges ps q s) (dst : Nat) (vl : Nat) : OnlyChanges ps q (State.pumpFlow s dst vl) := by
  unfold State.pumpFlow
  extract_lets +onlyGivenNames v1
  clear_value v1
  split
  · assumption
  · with_reducible refine OnlyChanges.ite ?_ ?_
    · assumption
    · extract_lets +onlyGivenNames v2
      clear_value v2
      extract_lets +onlyGivenNames v3
      clear_value v3
      extract_lets +onlyGivenNames v4
      clear_value v4
      extract_lets +onlyGivenNames v5
      clear_value v5
      extract_lets +onlyGivenNames v6
      have hv6 : OnlyChanges ps q v6 := by
        unfold v6
        with_reducible apply State.setPeer_only
        · exact hk.of rfl
        · assumption
      clear_value v6
      with_reducible refine OnlyChanges.foldl ?_ ?_
      · assumption
      · intro x7 x8 x9
        with_reducible apply State.sendData_only
        · exact hk.of rfl
        · assumption

theorem State.egress_only {ps : List Part} {q s t : State} (hk : Within [.out] ps) (hq : OnlyChanges ps q t) : OnlyChanges ps q (State.egress s t) := by
  unfold State.egress
  with_reducible apply OnlyChanges.upd_out
  · exact hk
  · assumption

theorem State.pumpAll_only {ps : List Part} {q s : State} (hk : Within [.fab, .out] ps) (hq : OnlyChanges ps q s) : OnlyChanges ps q (State.pumpAll s) := by
  unfold State.pumpAll
  with_reducible apply State.egress_only
  · exact hk.of rfl
  · with_reducible refine OnlyChanges.foldl ?_ ?_
    · assumption
    · intro x1 x2 x3
      with_reducible apply State.pumpFlow_only
      · exact hk
      · assumption

theorem State.resendFlow_only {ps : List Part} {q s : State} (hk : Within [.fab, .out] ps) (hq : OnlyChanges ps q s) (dst : Nat) (vl : Nat) : OnlyChanges ps q (State.resendFlow s dst vl) := by
  unfold State.resendFlow
  extract_lets +onlyGivenNames v1
  clear_value v1
  split
  · assumption
  · extract_lets +onlyGivenNames v2
    clear_value v2
    with_reducible refine OnlyChanges.ite ?_ ?_
    · assumption
    · extract_lets +onlyGivenNames v3
      have hv3 : OnlyChanges ps q v3 := by
        unfold v3
        with_reducible apply State.setPeer_only
        · exact hk.of rfl
        · assumption
      clear_value v3
      extract_lets +onlyGivenNames v4
      clear_value v4
      extract_lets +onlyGivenNames v5
      have hv5 : OnlyChanges ps q v5 := by
        unfold v5
        with_reducible apply OnlyChanges.upd_fab
        · exact hk.of rfl
        · assumption
      clear_value v5
      with_reducible refine OnlyChanges.foldl ?_ ?_
      · assumption
      · intro x6 x7 x8
        with_reducible apply State.sendData_only
        · exact hk.of rfl
        · assumption

theorem State.sendMsg_only {ps : List Part} {q s : State} (hk : Within [.fab, .out] ps) (hq : OnlyChanges ps q s) (dst : Nat) (vl : Nat) (ty : Nat) (dl : Nat) (payload : List Byte) (cmd : Option Nat) : OnlyChanges ps q (State.sendMsg s dst vl ty dl payload cmd).1 := by
  unfold State.sendMsg
  extract_lets +onlyGivenNames v1
  clear_value v1
  extract_lets +onlyGivenNames v2
  clear_value v2
  extract_lets +onlyGivenNames v3
  clear_value v3
  extract_lets +onlyGivenNames v4
  clear_value v4
  extract_lets +onlyGivenNames v5
  clear_value v5
  extract_lets +onlyGivenNames v6
  clear_value v6
  extract_lets +onlyGivenNames v7
  have hv7 : OnlyChanges ps q v7 := by
    unfold v7
    with_reducible apply OnlyChanges.upd_fab
    · exact hk.of rfl
    · assumption
  clear_value v7
  dsimp only
  with_reducible apply State.pumpFlow_only
  · exact hk
  · with_reducible apply State.setPeer_only
    · exact hk.of rfl
    · assumption

theorem State.refuseMsg_only {ps : List Part} {q s : State} (hk : Within [.reg, .host, .fab, .out] ps) (hq : OnlyChanges ps q s) (src : Nat) (vl : Nat) (reason : Nat) (msgId : Nat) : OnlyChanges ps q (State.refuseMsg s src vl reason msgId) := by
  unfold State.refuseMsg
  extract_lets +onlyGivenNames v1
  clear_value v1
  extract_lets +onlyGivenNames v2
  have hv2 : OnlyChanges ps q v2 := by
    unfold v2
    with_reducible apply OnlyChanges.upd_fab
    · exact hk.of rfl
    · assumption
  clear_value v2
  extract_lets +onlyGivenNames v3
  have hv3 : OnlyChanges ps q v3 := by
    unfold v3
    with_reducible refine OnlyChanges.ite ?_ ?_
    · assumption
    · with_reducible apply State.sendMsg_only
      · exact hk.of rfl
      · assumption
  clear_value v3
  with_reducible apply State.raise_only
  · exact hk.of rfl
  · assumption

theorem State.sendBatch_only {ps : List Part} {q s : State} (hk : Within [.fab, .out] ps) (hq : OnlyChanges ps q s) (b : Batch) : OnlyChanges ps q (State.sendBatch s b) := by
  unfold State.sendBatch
  with_reducible refine OnlyChanges.ite ?_ ?_
  · assumption
  · with_reducible apply State.sendMsg_only
    · exact hk
    · assumption

theorem State.batchRecord_only {ps : List Part} {q s : State} (hk : Within [.fab, .out] ps) (hq : OnlyChanges ps q s) (o : Origin) (chan : Nat) (rec : List Byte) : OnlyChanges ps q (State.batchRecord s o chan rec) := by
  unfold State.batchRecord
  extract_lets +onlyGivenNames v1
  extract_lets +onlyGivenNames v2
  extract_lets +onlyGivenNames v3
  extract_lets +onlyGivenNames v4
  clear_value v4
  with_reducible refine OnlyChanges.ite ?_ ?_
  · with_reducible apply OnlyChanges.upd_fab
    · exact hk.of rfl
    · assumption
  · with_reducible apply State.sendBatch_only
    · exact hk
    · with_reducible apply OnlyChanges.upd_fab
      · exact hk.of rfl
      · assumption

theorem State.chargeCyc_only {ps : List Part} {q s : State} (hk : Within [.accts] ps) (hq : OnlyChanges ps q s) (c : Nat) (e : Nat) (n : Nat) : OnlyChanges ps q (State.chargeCyc s c e n) := by
  unfold State.chargeCyc
  extract_lets +onlyGivenNames v1
  clear_value v1
  with_reducible apply State.setAcct_only
  · exact hk
  · assumption

theorem State.noteXfer_only {ps : List Part} {q s : State} (hk : Within [.accts] ps) (hq : OnlyChanges ps q s) (c : Nat) (n : Nat) : OnlyChanges ps q (State.noteXfer s c n) := by
  unfold State.noteXfer
  with_reducible apply State.setAcct_only
  · exact hk
  · assumption

theorem State.chargeBytes_only {ps : List Part} {q s : State} (hk : Within [.accts] ps) (hq : OnlyChanges ps q s) (c : Nat) (p : Nat) (n : Nat) : OnlyChanges ps q (State.chargeBytes s c p n) := by
  unfold State.chargeBytes
  extract_lets +onlyGivenNames v1
  clear_value v1
  with_reducible apply State.setAcct_only
  · exact hk
  · assumption

theorem State.chargeMove_only {ps : List Part} {q s : State} (hk : Within [.accts] ps) (hq : OnlyChanges ps q s) (c : Nat) (src : Nat) (dst : Nat) (n : Nat) : OnlyChanges ps q (State.chargeMove s c src dst n) := by
  unfold State.chargeMove
  split
  · with_reducible apply State.chargeBytes_only
    · exact hk
    · assumption
  · assumption

theorem State.issueFlush_only {ps : List Part} {q s : State} (hk : Within [.cqs, .gfe, .host, .out] ps) (hq : OnlyChanges ps q s) (c : Nat) (addr : Nat) : OnlyChanges ps q (State.issueFlush s c addr).1 := by
  unfold State.issueFlush
  extract_lets +onlyGivenNames v1
  clear_value v1
  extract_lets +onlyGivenNames v2
  clear_value v2
  extract_lets +onlyGivenNames v3
  have hv3 : OnlyChanges ps q v3 := by
    unfold v3
    with_reducible apply State.setCq_only
    · exact hk.of rfl
    · assumption
  clear_value v3
  extract_lets +onlyGivenNames v4
  extract_lets +onlyGivenNames v5
  extract_lets +onlyGivenNames v6
  have hv6 : OnlyChanges ps q v6 := by
    unfold v6
    with_reducible apply OnlyChanges.upd_gfe_host
    · exact hk.of rfl
    · assumption
    · exact fun _ => rfl
    · exact fun _ => rfl
  clear_value v6
  dsimp only
  with_reducible apply State.emit_only
  · exact hk.of rfl
  · assumption

theorem State.recordFlush_only {ps : List Part} {q s : State} (hk : Within [.cqs, .gfe, .host, .out] ps) (hq : OnlyChanges ps q s) (c : Nat) : OnlyChanges ps q (State.recordFlush s c) := by
  unfold State.recordFlush
  extract_lets +onlyGivenNames v1
  clear_value v1
  with_reducible refine OnlyChanges.ite ?_ ?_
  · with_reducible apply State.issueFlush_only
    · exact hk
    · assumption
  · assumption

theorem State.confirm_only {ps : List Part} {q s : State} (hk : Within [.cqs] ps) (hq : OnlyChanges ps q s) (c : Nat) (n : Nat) : OnlyChanges ps q (State.confirm s c n) := by
  unfold State.confirm
  extract_lets +onlyGivenNames v1
  clear_value v1
  with_reducible apply State.setCq_only
  · exact hk
  · assumption

theorem State.putRecord_only {ps : List Part} {q s : State} (hk : Within [.host, .out] ps) (hq : OnlyChanges ps q s) (c : Nat) (r : Nat) (bytes : List Byte) : OnlyChanges ps q (State.putRecord s c r bytes) := by
  unfold State.putRecord
  extract_lets +onlyGivenNames v1
  have hv1 : OnlyChanges ps q v1 := by
    unfold v1
    with_reducible apply State.emit_only
    · exact hk.of rfl
    · assumption
  clear_value v1
  with_reducible refine OnlyChanges.ite ?_ ?_
  · with_reducible apply State.signalVector_only
    · exact hk
    · assumption
  · assumption

theorem State.writeNext_only {ps : List Part} {q s : State} (hk : Within [.cqs, .gfe, .host, .out] ps) (hq : OnlyChanges ps q s) (c : Nat) (bytes : List Byte) : OnlyChanges ps q (State.writeNext s c bytes) := by
  unfold State.writeNext
  extract_lets +onlyGivenNames v1
  clear_value v1
  extract_lets +onlyGivenNames v2
  have hv2 : OnlyChanges ps q v2 := by
    unfold v2
    with_reducible apply State.putRecord_only
    · exact hk.of rfl
    · assumption
  clear_value v2
  extract_lets +onlyGivenNames v3
  have hv3 : OnlyChanges ps q v3 := by
    unfold v3
    with_reducible apply State.setCq_only
    · exact hk.of rfl
    · assumption
  clear_value v3
  with_reducible refine OnlyChanges.ite ?_ ?_
  · with_reducible apply State.recordFlush_only
    · exact hk
    · assumption
  · assumption

theorem State.hostRecord_only {ps : List Part} {q s : State} (hk : Within [.reg, .cqs, .gfe, .host, .out] ps) (hq : OnlyChanges ps q s) (c : Nat) (bytes : List Byte) (ctx : Option Nat) : OnlyChanges ps q (State.hostRecord s c bytes ctx) := by
  unfold State.hostRecord
  extract_lets +onlyGivenNames v1
  clear_value v1
  extract_lets +onlyGivenNames v2
  clear_value v2
  extract_lets +onlyGivenNames v3
  clear_value v3
  with_reducible refine OnlyChanges.ite ?_ ?_
  · with_reducible apply State.writeNext_only
    · exact hk.of rfl
    · assumption
  · extract_lets +onlyGivenNames v4
    have hv4 : OnlyChanges ps q v4 := by
      unfold v4
      with_reducible apply State.setCq_only
      · exact hk.of rfl
      · assumption
    clear_value v4
    with_reducible refine OnlyChanges.ite ?_ ?_
    · with_reducible apply State.raise_only
      · exact hk.of rfl
      · assumption
    · assumption

theorem State.settleCtx_only {ps : List Part} {q s : State} (hk : Within [.gfe] ps) (hq : OnlyChanges ps q s) (i : Nat) : OnlyChanges ps q (State.settleCtx s i) := by
  unfold State.settleCtx
  split
  · assumption
  · with_reducible refine OnlyChanges.ite ?_ ?_
    · extract_lets +onlyGivenNames v1
      have hv1 : OnlyChanges ps q v1 := by
        unfold v1
        with_reducible apply State.setCtx_only
        · exact hk
        · assumption
      clear_value v1
      with_reducible refine OnlyChanges.ite ?_ ?_
      · with_reducible apply OnlyChanges.upd_gfe
        · exact hk
        · assumption
        · exact fun _ => rfl
      · assumption
    · assumption

theorem State.writeHeld_only {ps : List Part} {q s : State} (hk : Within [.cqs, .gfe, .host, .out] ps) (hq : OnlyChanges ps q s) (c : Nat) (r : StoredRec) (rest : List StoredRec) : OnlyChanges ps q (State.writeHeld s c r rest) := by
  unfold State.writeHeld
  extract_lets +onlyGivenNames v1
  clear_value v1
  extract_lets +onlyGivenNames v2
  have hv2 : OnlyChanges ps q v2 := by
    unfold v2
    with_reducible apply State.writeNext_only
    · exact hk
    · with_reducible apply State.setCq_only
      · exact hk.of rfl
      · assumption
  clear_value v2
  split
  · with_reducible apply State.settleCtx_only
    · exact hk.of rfl
    · assumption
  · assumption

theorem State.noteFull_only {ps : List Part} {q s : State} (hk : Within [.reg, .cqs, .host, .out] ps) (hq : OnlyChanges ps q s) (c : Nat) : OnlyChanges ps q (State.noteFull s c) := by
  unfold State.noteFull
  extract_lets +onlyGivenNames v1
  clear_value v1
  with_reducible refine OnlyChanges.ite ?_ ?_
  · with_reducible apply State.raise_only
    · exact hk.of rfl
    · with_reducible apply State.setCq_only
      · exact hk.of rfl
      · assumption
  · assumption

theorem State.releaseHeld_only {ps : List Part} {q s : State} (hk : Within [.reg, .cqs, .gfe, .host, .out] ps) (hq : OnlyChanges ps q s) (c : Nat) (n : Nat) : OnlyChanges ps q (State.releaseHeld s c n) := by
  induction n generalizing s with
  | zero => exact hq
  | succ n ih =>
    rw [State.releaseHeld]
    split
    · exact hq
    · refine OnlyChanges.ite hq (OnlyChanges.ite (State.noteFull_only (hk.of rfl) hq _) ?_)
      exact ih (State.writeHeld_only (hk.of rfl) hq _ _ _)

theorem State.release_only {ps : List Part} {q s : State} (hk : Within [.reg, .cqs, .gfe, .host, .out] ps) (hq : OnlyChanges ps q s) (c : Nat) : OnlyChanges ps q (State.release s c) := by
  unfold State.release
  with_reducible apply State.releaseHeld_only
  · exact hk
  · assumption

theorem State.rewriteAll_only {ps : List Part} {q s : State} (hk : Within [.host, .out] ps) (hq : OnlyChanges ps q s) (c : Nat) (l : List StoredRec) :
    OnlyChanges ps q (State.rewriteAll s c l) := by
  induction l generalizing s with
  | nil => exact hq
  | cons r t ih => exact ih (OnlyChanges.ite hq (State.putRecord_only (hk.of rfl) hq _ _ _))

theorem State.rewriteStored_only {ps : List Part} {q s : State} (hk : Within [.reg, .cqs, .gfe, .host, .out] ps) (hq : OnlyChanges ps q s) (c : Nat) (fresh : Bool) : OnlyChanges ps q (State.rewriteStored s c fresh) := by
  unfold State.rewriteStored
  extract_lets +onlyGivenNames v1
  clear_value v1
  with_reducible refine OnlyChanges.ite ?_ ?_
  · extract_lets +onlyGivenNames v2
    have hv2 : OnlyChanges ps q v2 := by
      unfold v2
      with_reducible apply State.setCq_only
      · exact hk.of rfl
      · assumption
    clear_value v2
    with_reducible apply State.release_only
    · exact hk
    · assumption
  · extract_lets +onlyGivenNames v3
    have hv3 : OnlyChanges ps q v3 := by
      unfold v3
      with_reducible apply State.rewriteAll_only
      · exact hk.of rfl
      · assumption
    clear_value v3
    extract_lets +onlyGivenNames v4
    clear_value v4
    extract_lets +onlyGivenNames v5
    have hv5 : OnlyChanges ps q v5 := by
      unfold v5
      with_reducible apply State.setCq_only
      · exact hk.of rfl
      · assumption
    clear_value v5
    with_reducible apply State.release_only
    · exact hk
    · assumption

theorem State.dropCtx_only {ps : List Part} {q s : State} (hk : Within [.gfe] ps) (hq : OnlyChanges ps q s) (i : Nat) : OnlyChanges ps q (State.dropCtx s i) := by
  unfold State.dropCtx
  with_reducible apply OnlyChanges.upd_gfe
  · exact hk
  · assumption
  · exact fun _ => rfl

theorem State.closeCtx_only {ps : List Part} {q s : State} (hk : Within [.chans, .gfe] ps) (hq : OnlyChanges ps q s) (c : Nat) : OnlyChanges ps q (State.closeCtx s c) := by
  unfold State.closeCtx
  split
  · assumption
  · extract_lets +onlyGivenNames v1
    clear_value v1
    extract_lets +onlyGivenNames v2
    have hv2 : OnlyChanges ps q v2 := by
      unfold v2
      with_reducible apply State.setChan_only
      · exact hk.of rfl
      · assumption
    clear_value v2
    with_reducible apply State.settleCtx_only
    · exact hk.of rfl
    · split
      · with_reducible apply State.setCtx_only
        · exact hk.of rfl
        · assumption
      · assumption

theorem State.rangeCtx_only {ps : List Part} {q s : State} (hk : Within [.chans, .gfe] ps) (hq : OnlyChanges ps q s) (i : Nat) (opened : Bool) : OnlyChanges ps q (State.rangeCtx s i opened) := by
  unfold State.rangeCtx
  split
  · assumption
  · extract_lets +onlyGivenNames v1
    clear_value v1
    extract_lets +onlyGivenNames v2
    clear_value v2
    extract_lets +onlyGivenNames v3
    have hv3 : OnlyChanges ps q v3 := by
      unfold v3
      with_reducible refine OnlyChanges.ite ?_ ?_
      · with_reducible apply State.setChan_only
        · exact hk.of rfl
        · assumption
      · assumption
    clear_value v3
    with_reducible refine OnlyChanges.ite ?_ ?_
    · with_reducible apply State.dropCtx_only
      · exact hk.of rfl
      · assumption
    · with_reducible refine OnlyChanges.ite ?_ ?_
      · with_reducible apply State.settleCtx_only
        · exact hk.of rfl
        · with_reducible apply State.setCtx_only
          · exact hk.of rfl
          · assumption
      · with_reducible apply State.settleCtx_only
        · exact hk.of rfl
        · assumption

theorem State.dropReads_only {ps : List Part} {q s : State} (hk : Within [.host] ps) (hq : OnlyChanges ps q s) (c : Nat) : OnlyChanges ps q (State.dropReads s c) := by
  unfold State.dropReads
  with_reducible apply OnlyChanges.upd_host
  · exact hk
  · assumption
  · exact fun _ => rfl

theorem State.issueRing_only {ps : List Part} {q s : State} (hk : Within [.host, .out] ps) (hq : OnlyChanges ps q s) (c : Nat) : OnlyChanges ps q (State.issueRing s c) := by
  unfold State.issueRing
  with_reducible apply State.emit_only
  · exact hk.of rfl
  · with_reducible apply OnlyChanges.upd_host
    · exact hk.of rfl
    · assumption
    · exact fun _ => rfl

theorem State.extReads_only {ps : List Part} {q s : State} (hk : Within [.out] ps) (hq : OnlyChanges ps q s) (c : Nat) (n : Nat) : OnlyChanges ps q (State.extReads s c n) := by
  unfold State.extReads
  with_reducible apply OnlyChanges.upd_out
  · exact hk
  · assumption

theorem State.pumpRing_only {ps : List Part} {q s : State} (hk : Within [.host, .out] ps) (hq : OnlyChanges ps q s) (c : Nat) : OnlyChanges ps q (State.pumpRing s c) := by
  unfold State.pumpRing
  with_reducible refine OnlyChanges.ite ?_ ?_
  · with_reducible apply State.issueRing_only
    · exact hk
    · assumption
  · assumption

theorem State.pumpRings_only {ps : List Part} {q s : State} (hk : Within [.host, .out] ps) (hq : OnlyChanges ps q s) (cs : List Nat) : OnlyChanges ps q (State.pumpRings s cs) := by
  unfold State.pumpRings
  with_reducible refine OnlyChanges.foldl ?_ ?_
  · assumption
  · intro x1 x2 x3
    with_reducible apply State.pumpRing_only
    · exact hk
    · assumption

theorem State.failCtx_only {ps : List Part} {q s : State} (hk : Within [.gfe] ps) (hq : OnlyChanges ps q s) (i : Nat) (status : Nat) (a : Nat) (b : Nat) : OnlyChanges ps q (State.failCtx s i status a b) := by
  unfold State.failCtx
  split
  · assumption
  · with_reducible refine OnlyChanges.ite ?_ ?_
    · with_reducible apply State.setCtx_only
      · exact hk
      · assumption
    · assumption

theorem State.advance_only {ps : List Part} {q s : State} (hk : Within [.chans] ps) (hq : OnlyChanges ps q s) (c : Nat) (slot : List Byte) : OnlyChanges ps q (State.advance s c slot) := by
  unfold State.advance
  extract_lets +onlyGivenNames v1
  clear_value v1
  with_reducible apply State.setChan_only
  · exact hk
  · assumption

theorem State.enlist_only {ps : List Part} {q s : State} (hk : Within [.chans, .gfe] ps) (hq : OnlyChanges ps q s) (c : Nat) (slot : List Byte) (payload : List Byte) (part : Nat) (o : Option Origin) : OnlyChanges ps q (State.enlist s c slot payload part o) := by
  unfold State.enlist
  extract_lets +onlyGivenNames v1
  clear_value v1
  extract_lets +onlyGivenNames v2
  clear_value v2
  extract_lets +onlyGivenNames v3
  clear_value v3
  extract_lets +onlyGivenNames v4
  clear_value v4
  extract_lets +onlyGivenNames v5
  clear_value v5
  extract_lets +onlyGivenNames v6
  clear_value v6
  extract_lets +onlyGivenNames v7
  extract_lets +onlyGivenNames v8
  have hv8 : OnlyChanges ps q v8 := by
    unfold v8
    with_reducible apply OnlyChanges.upd_gfe
    · exact hk.of rfl
    · assumption
    · exact fun _ => rfl
  clear_value v8
  extract_lets +onlyGivenNames v9
  clear_value v9
  extract_lets +onlyGivenNames v10
  have hv10 : OnlyChanges ps q v10 := by
    unfold v10
    with_reducible refine OnlyChanges.ite ?_ ?_
    · with_reducible apply State.setChan_only
      · exact hk.of rfl
      · assumption
    · assumption
  clear_value v10
  extract_lets +onlyGivenNames v11
  have hv11 : OnlyChanges ps q v11 := by
    unfold v11
    with_reducible refine OnlyChanges.ite ?_ ?_
    · with_reducible apply State.closeCtx_only
      · exact hk
      · assumption
    · assumption
  clear_value v11
  split
  · with_reducible apply State.setExtra_only
    · exact hk.of rfl
    · assumption
  · assumption

theorem State.grantCtxs_only {ps : List Part} {q s : State} (hk : Within [.chans, .gfe, .host, .out] ps) (hq : OnlyChanges ps q s) (n : Nat) : OnlyChanges ps q (State.grantCtxs s n) := by
  induction n generalizing s with
  | zero => exact hq
  | succ n ih =>
    rw [State.grantCtxs]
    split
    · exact hq
    · split
      · exact hq
      · exact ih (State.pumpRing_only (hk.of rfl) (State.enlist_only (hk.of rfl) (State.advance_only (hk.of rfl) hq _ _) _ _ _ _ _) _)

theorem State.drainDone_only {ps : List Part} {q s : State} (hk : Within [.chans, .cqs, .gfe] ps) (hq : OnlyChanges ps q s) (c : Nat) : OnlyChanges ps q (State.drainDone s c) := by
  unfold State.drainDone
  extract_lets +onlyGivenNames v1
  clear_value v1
  with_reducible refine OnlyChanges.ite ?_ ?_
  · extract_lets +onlyGivenNames v2
    have hv2 : OnlyChanges ps q v2 := by
      unfold v2
      with_reducible apply State.closeCtx_only
      · exact hk.of rfl
      · assumption
    clear_value v2
    with_reducible apply State.setCq_only
    · exact hk.of rfl
    · with_reducible apply State.setChan_only
      · exact hk.of rfl
      · assumption
  · assumption

theorem State.recordOf_only {ps : List Part} {q s : State} (hk : Within [.reg, .cqs, .gfe, .host, .fab, .out] ps) (hq : OnlyChanges ps q s) (d : Cmd) (status : Nat) (a : Nat) (b : Nat) (inherited : Bool) : OnlyChanges ps q (State.recordOf s d status a b inherited) := by
  unfold State.recordOf
  with_reducible refine OnlyChanges.ite ?_ ?_
  · assumption
  · extract_lets +onlyGivenNames v1
    clear_value v1
    extract_lets +onlyGivenNames v2
    clear_value v2
    extract_lets +onlyGivenNames v3
    clear_value v3
    split
    · with_reducible refine OnlyChanges.ite ?_ ?_
      · assumption
      · with_reducible apply State.hostRecord_only
        · exact hk.of rfl
        · assumption
    · split
      · with_reducible apply State.batchRecord_only
        · exact hk.of rfl
        · assumption
      · assumption

theorem State.countLost_only {ps : List Part} {q s : State} (hk : Within [.reg, .cqs, .host, .out] ps) (hq : OnlyChanges ps q s) (d : Cmd) (status : Nat) : OnlyChanges ps q (State.countLost s d status) := by
  unfold State.countLost
  with_reducible refine OnlyChanges.ite ?_ ?_
  · extract_lets +onlyGivenNames v1
    clear_value v1
    with_reducible apply State.raise_only
    · exact hk.of rfl
    · with_reducible apply State.setCq_only
      · exact hk.of rfl
      · assumption
  · assumption

theorem State.refuseServed_only {ps : List Part} {q s : State} (hk : Within [.reg, .host, .fab, .out] ps) (hq : OnlyChanges ps q s) (d : Cmd) (status : Nat) : OnlyChanges ps q (State.refuseServed s d status) := by
  unfold State.refuseServed
  split
  · assumption
  · with_reducible refine OnlyChanges.ite ?_ ?_
    · with_reducible apply State.refuseMsg_only
      · exact hk
      · assumption
    · with_reducible refine OnlyChanges.ite ?_ ?_
      · with_reducible apply State.refuseMsg_only
        · exact hk
        · assumption
      · assumption

theorem State.endOne_only {ps : List Part} {q s : State} (hk : Within [.reg, .chans, .cqs, .accts, .gfe, .host, .fab, .out] ps) (hq : OnlyChanges ps q s) (d : Cmd) (status : Nat) (a : Nat) (b : Nat) (inherited : Bool) : OnlyChanges ps q (State.endOne s d status a b inherited) := by
  unfold State.endOne
  extract_lets +onlyGivenNames v1
  have hv1 : OnlyChanges ps q v1 := by
    unfold v1
    with_reducible apply State.refuseServed_only
    · exact hk.of rfl
    · with_reducible apply State.recordOf_only
      · exact hk.of rfl
      · assumption
  clear_value v1
  extract_lets +onlyGivenNames v2
  have hv2 : OnlyChanges ps q v2 := by
    unfold v2
    with_reducible refine OnlyChanges.ite ?_ ?_
    · with_reducible apply State.raise_only
      · exact hk.of rfl
      · assumption
    · with_reducible refine OnlyChanges.ite ?_ ?_
      · with_reducible apply State.raise_only
        · exact hk.of rfl
        · assumption
      · with_reducible refine OnlyChanges.ite ?_ ?_
        · with_reducible apply State.raise_only
          · exact hk.of rfl
          · assumption
        · assumption
  clear_value v2
  extract_lets +onlyGivenNames v3
  have hv3 : OnlyChanges ps q v3 := by
    unfold v3
    with_reducible apply State.countLost_only
    · exact hk.of rfl
    · assumption
  clear_value v3
  extract_lets +onlyGivenNames v4
  clear_value v4
  extract_lets +onlyGivenNames v5
  have hv5 : OnlyChanges ps q v5 := by
    unfold v5
    with_reducible apply State.setAcct_only
    · exact hk.of rfl
    · assumption
  clear_value v5
  extract_lets +onlyGivenNames v6
  have hv6 : OnlyChanges ps q v6 := by
    unfold v6
    with_reducible refine OnlyChanges.ite ?_ ?_
    · split
      · with_reducible apply State.failCtx_only
        · exact hk.of rfl
        · assumption
      · assumption
    · assumption
  clear_value v6
  extract_lets +onlyGivenNames v7
  have hv7 : OnlyChanges ps q v7 := by
    unfold v7
    with_reducible refine OnlyChanges.ite ?_ ?_
    · with_reducible apply State.chargeCyc_only
      · exact hk.of rfl
      · assumption
    · assumption
  clear_value v7
  extract_lets +onlyGivenNames v8
  have hv8 : OnlyChanges ps q v8 := by
    unfold v8
    with_reducible apply State.dropCmd_only
    · exact hk.of rfl
    · assumption
  clear_value v8
  extract_lets +onlyGivenNames v9
  have hv9 : OnlyChanges ps q v9 := by
    unfold v9
    split
    · with_reducible refine OnlyChanges.ite ?_ ?_
      · with_reducible apply State.rangeCtx_only
        · exact hk.of rfl
        · assumption
      · with_reducible apply State.settleCtx_only
        · exact hk.of rfl
        · assumption
    · assumption
  clear_value v9
  with_reducible apply State.grantCtxs_only
  · exact hk.of rfl
  · with_reducible apply State.pumpRing_only
    · exact hk.of rfl
    · with_reducible apply State.drainDone_only
      · exact hk.of rfl
      · assumption

theorem State.dropLaunch_only {ps : List Part} {q s : State} (hk : Within [.gfe] ps) (hq : OnlyChanges ps q s) (l : Nat) : OnlyChanges ps q (State.dropLaunch s l) := by
  unfold State.dropLaunch
  with_reducible apply OnlyChanges.upd_gfe
  · exact hk
  · assumption
  · exact fun _ => rfl

theorem State.abandonRest_only {ps : List Part} {q s : State} (hk : Within [.gfe, .fab] ps) (hq : OnlyChanges ps q s) (x : Launch) : OnlyChanges ps q (State.abandonRest s x) := by
  unfold State.abandonRest
  split
  · with_reducible refine OnlyChanges.foldl ?_ ?_
    · assumption
    · intro x1 x2 x3
      with_reducible refine OnlyChanges.ite ?_ ?_
      · assumption
      · with_reducible apply State.dropCmd_only
        · exact hk
        · assumption
  · assumption

theorem State.endLaunch_only {ps : List Part} {q s : State} (hk : Within [.reg, .chans, .cqs, .accts, .gfe, .host, .fab, .out] ps) (hq : OnlyChanges ps q s) (x : Launch) : OnlyChanges ps q (State.endLaunch s x) := by
  unfold State.endLaunch
  extract_lets +onlyGivenNames v1
  have hv1 : OnlyChanges ps q v1 := by
    unfold v1
    with_reducible apply State.dropLaunch_only
    · exact hk.of rfl
    · assumption
  clear_value v1
  split
  · assumption
  · split
    · with_reducible apply State.endOne_only
      · exact hk
      · assumption
    · with_reducible refine OnlyChanges.ite ?_ ?_
      · with_reducible apply State.endOne_only
        · exact hk
        · assumption
      · with_reducible apply State.endOne_only
        · exact hk
        · assumption

theorem State.settleLaunch_only {ps : List Part} {q s : State} (hk : Within [.reg, .chans, .cqs, .accts, .gfe, .host, .fab, .out] ps) (hq : OnlyChanges ps q s) (l : Nat) : OnlyChanges ps q (State.settleLaunch s l) := by
  unfold State.settleLaunch
  split
  · assumption
  · extract_lets +onlyGivenNames v1
    have hv1 : OnlyChanges ps q v1 := by
      unfold v1
      with_reducible apply State.abandonRest_only
      · exact hk.of rfl
      · assumption
    clear_value v1
    with_reducible refine OnlyChanges.ite ?_ ?_
    · with_reducible apply State.endLaunch_only
      · exact hk
      · assumption
    · assumption

theorem State.endFold_only {ps : List Part} {q s : State} (hk : Within [.gfe, .objs, .fab] ps) (hq : OnlyChanges ps q s) (d : Cmd) : OnlyChanges ps q (State.endFold s d) := by
  unfold State.endFold
  extract_lets +onlyGivenNames v1
  have hv1 : OnlyChanges ps q v1 := by
    unfold v1
    with_reducible apply State.dropCmd_only
    · exact hk.of rfl
    · assumption
  clear_value v1
  split
  · split
    · with_reducible apply State.setObj_only
      · exact hk.of rfl
      · assumption
    · assumption
  · assumption

theorem State.endCmd_only {ps : List Part} {q s : State} (hk : Within [.reg, .chans, .cqs, .accts, .gfe, .objs, .host, .fab, .out] ps) (hq : OnlyChanges ps q s) (d : Cmd) (status : Nat) (a : Nat) (b : Nat) (inherited : Bool) : OnlyChanges ps q (State.endCmd s d status a b inherited) := by
  unfold State.endCmd
  with_reducible refine OnlyChanges.ite ?_ ?_
  · with_reducible apply State.endFold_only
    · exact hk.of rfl
    · assumption
  · extract_lets +onlyGivenNames v1
    have hv1 : OnlyChanges ps q v1 := by
      unfold v1
      with_reducible apply State.endOne_only
      · exact hk.of rfl
      · assumption
    clear_value v1
    split
    · assumption
    · split
      · assumption
      · extract_lets +onlyGivenNames v2
        clear_value v2
        extract_lets +onlyGivenNames v3
        clear_value v3
        with_reducible apply State.settleLaunch_only
        · exact hk.of rfl
        · with_reducible apply State.setLaunch_only
          · exact hk.of rfl
          · assumption

theorem State.stopLaunch_only {ps : List Part} {q s : State} (hk : Within [.reg, .chans, .cqs, .accts, .gfe, .host, .fab, .out] ps) (hq : OnlyChanges ps q s) (l : Nat) (pos : Nat) (status : Nat) : OnlyChanges ps q (State.stopLaunch s l pos status) := by
  unfold State.stopLaunch
  split
  · assumption
  · with_reducible apply State.settleLaunch_only
    · exact hk
    · with_reducible apply State.setLaunch_only
      · exact hk.of rfl
      · assumption

theorem State.issue_only {ps : List Part} {q s : State} (hk : Within [.accts, .gfe] ps) (hq : OnlyChanges ps q s) (d : Cmd) (p : Phase) : OnlyChanges ps q (State.issue s d p) := by
  unfold State.issue
  extract_lets +onlyGivenNames v1
  clear_value v1
  extract_lets +onlyGivenNames v2
  have hv2 : OnlyChanges ps q v2 := by
    unfold v2
    with_reducible apply State.setAcct_only
    · exact hk.of rfl
    · assumption
  clear_value v2
  with_reducible apply State.setCmd_only
  · exact hk.of rfl
  · assumption

theorem State.acceptRange_only {ps : List Part} {q s : State} (hk : Within [.reg, .chans, .cqs, .accts, .gfe, .host, .fab, .out] ps) (hq : OnlyChanges ps q s) (c : Nat) (slot : List Byte) (off : Nat) (o : Option Origin) : OnlyChanges ps q (State.acceptRange s c slot off o) := by
  unfold State.acceptRange
  extract_lets +onlyGivenNames v1
  have hv1 : OnlyChanges ps q v1 := by
    unfold v1
    with_reducible refine OnlyChanges.ite ?_ ?_
    · with_reducible apply State.closeCtx_only
      · exact hk.of rfl
      · assumption
    · assumption
  clear_value v1
  extract_lets +onlyGivenNames v2
  clear_value v2
  extract_lets +onlyGivenNames v3
  clear_value v3
  extract_lets +onlyGivenNames v4
  extract_lets +onlyGivenNames v5
  have hv5 : OnlyChanges ps q v5 := by
    unfold v5
    with_reducible apply OnlyChanges.upd_gfe
    · exact hk.of rfl
    · assumption
    · exact fun _ => rfl
  clear_value v5
  extract_lets +onlyGivenNames v6
  clear_value v6
  extract_lets +onlyGivenNames v7
  have hv7 : OnlyChanges ps q v7 := by
    unfold v7
    split
    · with_reducible apply State.setExtra_only
      · exact hk.of rfl
      · assumption
    · assumption
  clear_value v7
  extract_lets +onlyGivenNames v8
  have hv8 : OnlyChanges ps q v8 := by
    unfold v8
    split
    · with_reducible apply State.failCtx_only
      · exact hk.of rfl
      · assumption
    · assumption
  clear_value v8
  extract_lets +onlyGivenNames v9
  have hv9 : OnlyChanges ps q v9 := by
    unfold v9
    with_reducible apply State.endOne_only
    · exact hk
    · assumption
  clear_value v9
  with_reducible refine OnlyChanges.ite ?_ ?_
  · with_reducible apply State.closeCtx_only
    · exact hk.of rfl
    · assumption
  · assumption

theorem State.acceptSlot_only {ps : List Part} {q s : State} (hk : Within [.reg, .chans, .cqs, .accts, .gfe, .host, .fab, .out] ps) (hq : OnlyChanges ps q s) (c : Nat) (slot : List Byte) (payload : List Byte) (o : Option Origin) : OnlyChanges ps q (State.acceptSlot s c slot payload o) := by
  unfold State.acceptSlot
  split
  · with_reducible apply State.acceptRange_only
    · exact hk
    · with_reducible apply State.advance_only
      · exact hk.of rfl
      · assumption
  · extract_lets +onlyGivenNames v1
    have hv1 : OnlyChanges ps q v1 := by
      unfold v1
      with_reducible refine OnlyChanges.ite ?_ ?_
      · with_reducible apply State.closeCtx_only
        · exact hk.of rfl
        · assumption
      · assumption
    clear_value v1
    with_reducible refine OnlyChanges.ite ?_ ?_
    · with_reducible apply State.raise_only
      · exact hk.of rfl
      · with_reducible apply State.setChan_only
        · exact hk.of rfl
        · assumption
    · with_reducible apply State.enlist_only
      · exact hk.of rfl
      · with_reducible apply State.advance_only
        · exact hk.of rfl
        · assumption

end Sys2Proof.Machine
end

