-- ==== Sys2Proof/Laws/FrameWork.lean ====
section
/-! SUPPORT. What may change (`OnlyChanges`), for tiles, graph front end, objects, outputs, scales, runs and lists. -/

namespace Sys2Proof.Machine
open Sys2Proof

theorem State.ignored_only {ps : List Part} {q s : State} (hk : Within [.reg, .host, .out] ps) (hq : OnlyChanges ps q s) (w : Win) (item : Nat) (off : Nat) : OnlyChanges ps q (State.ignored s w item off) := by
  unfold State.ignored
  with_reducible apply State.raise_only
  · exact hk
  · assumption

theorem State.chanIgnored_only {ps : List Part} {q s : State} (hk : Within [.reg, .host, .out] ps) (hq : OnlyChanges ps q s) (c : Nat) : OnlyChanges ps q (State.chanIgnored s c) := by
  unfold State.chanIgnored
  with_reducible apply State.ignored_only
  · exact hk
  · assumption

theorem State.writeFrame_only {ps : List Part} {q s : State} (hk : Within [.mem] ps) (hq : OnlyChanges ps q s) (f : Nat) (bytes : List Byte) (fmt : Nat) (tile : Nat) (seq : Nat) (scale : Nat) : OnlyChanges ps q (State.writeFrame s f bytes fmt tile seq scale) := by
  unfold State.writeFrame
  with_reducible apply State.writeBytes_only
  · exact hk
  · with_reducible apply State.writeBytes_only
    · exact hk
    · assumption

theorem State.copyFrame_only {ps : List Part} {q s : State} (hk : Within [.mem] ps) (hq : OnlyChanges ps q s) (src : Nat) (dst : Nat) : OnlyChanges ps q (State.copyFrame s src dst) := by
  unfold State.copyFrame
  with_reducible apply State.writeBytes_only
  · exact hk
  · with_reducible apply State.writeBytes_only
    · exact hk
    · assumption

theorem State.faultLog_only {ps : List Part} {q s : State} (hk : Within [.reg, .host, .integ, .out] ps) (hq : OnlyChanges ps q s) (kind : Nat) (wh : Nat) (cause : Nat) (op : Nat) (a : Nat) (b : Nat) (tier : Nat) (fr : Nat) : OnlyChanges ps q (State.faultLog s kind wh cause op a b tier fr) := by
  unfold State.faultLog
  extract_lets +onlyGivenNames v1
  clear_value v1
  extract_lets +onlyGivenNames v2
  clear_value v2
  with_reducible refine OnlyChanges.ite ?_ ?_
  · with_reducible apply OnlyChanges.upd_integ
    · exact hk.of rfl
    · assumption
    · exact fun _ => rfl
  · with_reducible apply State.raise_only
    · exact hk.of rfl
    · with_reducible apply OnlyChanges.upd_integ
      · exact hk.of rfl
      · assumption
      · exact fun _ => rfl

theorem State.retireFrame_only {ps : List Part} {q s : State} (hk : Within [.reg, .frames, .host, .integ, .icnt, .out] ps) (hq : OnlyChanges ps q s) (f : Nat) : OnlyChanges ps q (State.retireFrame s f) := by
  unfold State.retireFrame
  extract_lets +onlyGivenNames v1
  clear_value v1
  extract_lets +onlyGivenNames v2
  have hv2 : OnlyChanges ps q v2 := by
    unfold v2
    with_reducible apply State.setFrame_only
    · exact hk.of rfl
    · assumption
  clear_value v2
  extract_lets +onlyGivenNames v3
  extract_lets +onlyGivenNames v4
  clear_value v4
  extract_lets +onlyGivenNames v5
  have hv5 : OnlyChanges ps q v5 := by
    unfold v5
    with_reducible apply OnlyChanges.upd_integ_icnt
    · exact hk.of rfl
    · assumption
    · exact fun _ => rfl
  clear_value v5
  with_reducible apply State.raise_only
  · exact hk.of rfl
  · with_reducible apply State.faultLog_only
    · exact hk.of rfl
    · assumption

theorem State.touch_only {ps : List Part} {q s : State} (hk : Within [.frames, .place] ps) (hq : OnlyChanges ps q s) (f : Nat) : OnlyChanges ps q (State.touch s f) := by
  unfold State.touch
  split
  · with_reducible apply OnlyChanges.upd_place
    · exact hk.of rfl
    · assumption
  · with_reducible refine OnlyChanges.ite ?_ ?_
    · with_reducible apply State.setFrame_only
      · exact hk.of rfl
      · assumption
    · assumption

theorem State.freeFrame_only {ps : List Part} {q s : State} (hk : Within [.reg, .frames, .host, .integ, .icnt, .out] ps) (hq : OnlyChanges ps q s) (f : Nat) : OnlyChanges ps q (State.freeFrame s f) := by
  unfold State.freeFrame
  extract_lets +onlyGivenNames v1
  clear_value v1
  with_reducible refine OnlyChanges.ite ?_ ?_
  · with_reducible apply State.retireFrame_only
    · exact hk
    · assumption
  · with_reducible apply State.setFrame_only
    · exact hk.of rfl
    · assumption

theorem State.leaveHome_only {ps : List Part} {q s : State} (hk : Within [.reg, .frames, .host, .integ, .icnt, .out] ps) (hq : OnlyChanges ps q s) (f : Nat) : OnlyChanges ps q (State.leaveHome s f) := by
  unfold State.leaveHome
  with_reducible refine OnlyChanges.ite ?_ ?_
  · with_reducible apply State.setFrame_only
    · exact hk.of rfl
    · assumption
  · with_reducible apply State.freeFrame_only
    · exact hk
    · assumption

theorem State.releaseReads_only {ps : List Part} {q s : State} (hk : Within [.reg, .frames, .host, .integ, .icnt, .out] ps) (hq : OnlyChanges ps q s) (fs : List Nat) : OnlyChanges ps q (State.releaseReads s fs) := by
  unfold State.releaseReads
  with_reducible refine OnlyChanges.foldl ?_ ?_
  · assumption
  · intro x1 x2 x3
    extract_lets +onlyGivenNames v4
    clear_value v4
    with_reducible refine OnlyChanges.ite ?_ ?_
    · with_reducible apply State.freeFrame_only
      · exact hk
      · assumption
    · assumption

theorem State.takeShadow_only {ps : List Part} {q s : State} (hk : Within [.frames] ps) (hq : OnlyChanges ps q s) (f : Nat) (obj : Nat) (tile : Nat) (cls : Nat) : OnlyChanges ps q (State.takeShadow s f obj tile cls) := by
  unfold State.takeShadow
  with_reducible apply State.setFrame_only
  · exact hk
  · assumption

theorem State.makeHome_only {ps : List Part} {q s : State} (hk : Within [.frames, .objs] ps) (hq : OnlyChanges ps q s) (f : Nat) (obj : Nat) (tile : Nat) : OnlyChanges ps q (State.makeHome s f obj tile) := by
  unfold State.makeHome
  with_reducible apply State.setHome_only
  · exact hk.of rfl
  · with_reducible apply State.setFrame_only
    · exact hk.of rfl
    · assumption

theorem State.dropMove_only {ps : List Part} {q s : State} (hk : Within [.place] ps) (hq : OnlyChanges ps q s) (h : Nat) (tile : Nat) : OnlyChanges ps q (State.dropMove s h tile) := by
  unfold State.dropMove
  with_reducible apply OnlyChanges.upd_place
  · exact hk
  · assumption

theorem State.unlistWant_only {ps : List Part} {q s : State} (hk : Within [.place] ps) (hq : OnlyChanges ps q s) (w : MoveWant) : OnlyChanges ps q (State.unlistWant s w) := by
  unfold State.unlistWant
  with_reducible apply OnlyChanges.upd_place
  · exact hk
  · assumption

theorem State.dropWant_only {ps : List Part} {q s : State} (hk : Within [.reg, .frames, .place, .host, .integ, .icnt, .out] ps) (hq : OnlyChanges ps q s) (h : Nat) (tile : Nat) : OnlyChanges ps q (State.dropWant s h tile) := by
  unfold State.dropWant
  extract_lets +onlyGivenNames v1
  have hv1 : OnlyChanges ps q v1 := by
    unfold v1
    with_reducible refine OnlyChanges.foldl ?_ ?_
    · assumption
    · intro x1 x2 x3
      with_reducible apply State.freeFrame_only
      · exact hk.of rfl
      · assumption
  clear_value v1
  with_reducible apply OnlyChanges.upd_place
  · exact hk.of rfl
  · assumption

theorem State.keepSlots_only {ps : List Part} {q s : State} (hk : Within [.place] ps) (hq : OnlyChanges ps q s) (h : Nat) (tile : Nat) (k : Nat) : OnlyChanges ps q (State.keepSlots s h tile k) := by
  unfold State.keepSlots
  with_reducible apply OnlyChanges.upd_place
  · exact hk
  · assumption

theorem State.dropCellar_only {ps : List Part} {q s : State} (hk : Within [.place] ps) (hq : OnlyChanges ps q s) (h : Nat) (tile : Nat) : OnlyChanges ps q (State.dropCellar s h tile) := by
  unfold State.dropCellar
  with_reducible apply State.keepSlots_only
  · exact hk
  · assumption

theorem State.abandonMove_only {ps : List Part} {q s : State} (hk : Within [.reg, .frames, .place, .host, .integ, .icnt, .out] ps) (hq : OnlyChanges ps q s) (h : Nat) (tile : Nat) (retry : Bool) : OnlyChanges ps q (State.abandonMove s h tile retry) := by
  unfold State.abandonMove
  split
  · assumption
  · extract_lets +onlyGivenNames v1
    have hv1 : OnlyChanges ps q v1 := by
      unfold v1
      with_reducible apply State.freeFrame_only
      · exact hk.of rfl
      · with_reducible apply State.dropCellar_only
        · exact hk.of rfl
        · with_reducible apply State.dropMove_only
          · exact hk.of rfl
          · assumption
    extract_lets +onlyGivenNames v2
    extract_lets +onlyGivenNames v3
    extract_lets +onlyGivenNames v4
    have hv4 : OnlyChanges ps q v4 := by
      unfold v4
      with_reducible refine OnlyChanges.ite ?_ ?_
      · with_reducible apply OnlyChanges.upd_place
        · exact hk.of rfl
        · assumption
      · assumption
    with_reducible refine OnlyChanges.ite ?_ ?_
    · with_reducible apply State.releaseReads_only
      · exact hk.of rfl
      · assumption
    · assumption

theorem State.holdHome_only {ps : List Part} {q s : State} (hk : Within [.reg, .frames, .place, .host, .integ, .icnt, .out] ps) (hq : OnlyChanges ps q s) (h : Nat) (tile : Nat) (f : Nat) : OnlyChanges ps q (State.holdHome s h tile f) := by
  unfold State.holdHome
  extract_lets +onlyGivenNames v1
  have hv1 : OnlyChanges ps q v1 := by
    unfold v1
    split
    · with_reducible refine OnlyChanges.ite ?_ ?_
      · with_reducible apply State.abandonMove_only
        · exact hk
        · assumption
      · assumption
    · assumption
  with_reducible refine OnlyChanges.ite ?_ ?_
  · with_reducible apply State.dropWant_only
    · exact hk
    · assumption
  · assumption

theorem State.poisonFrame_only {ps : List Part} {q s : State} (hk : Within [.reg, .frames, .place, .host, .integ, .icnt, .out, .tests] ps) (hq : OnlyChanges ps q s) (f : Nat) (c : PoisonCause) : OnlyChanges ps q (State.poisonFrame s f c) := by
  unfold State.poisonFrame
  extract_lets +onlyGivenNames v1
  clear_value v1
  extract_lets +onlyGivenNames v2
  clear_value v2
  extract_lets +onlyGivenNames v3
  have hv3 : OnlyChanges ps q v3 := by
    unfold v3
    with_reducible apply State.setFrame_only
    · exact hk.of rfl
    · assumption
  clear_value v3
  extract_lets +onlyGivenNames v4
  clear_value v4
  extract_lets +onlyGivenNames v5
  have hv5 : OnlyChanges ps q v5 := by
    unfold v5
    with_reducible apply OnlyChanges.upd_integ
    · exact hk.of rfl
    · assumption
    · exact hk.no rfl
  clear_value v5
  with_reducible apply State.holdHome_only
  · exact hk.of rfl
  · with_reducible apply State.raiseEvent_only
    · exact hk.of rfl
    · with_reducible apply State.faultLog_only
      · exact hk.of rfl
      · assumption

theorem State.flipTile_only {ps : List Part} {q s : State} (hk : Within [.reg, .frames, .objs, .place, .host, .integ, .icnt, .out] ps) (hq : OnlyChanges ps q s) (h : Shadow) : OnlyChanges ps q (State.flipTile s h) := by
  unfold State.flipTile
  extract_lets +onlyGivenNames v1
  have hv1 : OnlyChanges ps q v1 := by
    unfold v1
    split
    · with_reducible apply State.abandonMove_only
      · exact hk.of rfl
      · assumption
    · assumption
  clear_value v1
  extract_lets +onlyGivenNames v2
  clear_value v2
  extract_lets +onlyGivenNames v3
  have hv3 : OnlyChanges ps q v3 := by
    unfold v3
    with_reducible apply State.makeHome_only
    · exact hk.of rfl
    · assumption
  clear_value v3
  split
  · with_reducible refine OnlyChanges.ite ?_ ?_
    · assumption
    · with_reducible apply State.leaveHome_only
      · exact hk.of rfl
      · assumption
  · assumption

theorem State.flipAll_only {ps : List Part} {q s : State} (hk : Within [.reg, .frames, .objs, .place, .host, .integ, .icnt, .out] ps) (hq : OnlyChanges ps q s) (hs : List Shadow) : OnlyChanges ps q (State.flipAll s hs) := by
  unfold State.flipAll
  with_reducible refine OnlyChanges.foldl ?_ ?_
  · assumption
  · intro x1 x2 x3
    with_reducible apply State.flipTile_only
    · exact hk
    · assumption

theorem State.freeShadows_only {ps : List Part} {q s : State} (hk : Within [.reg, .frames, .host, .integ, .icnt, .out] ps) (hq : OnlyChanges ps q s) (hs : List Shadow) : OnlyChanges ps q (State.freeShadows s hs) := by
  unfold State.freeShadows
  with_reducible refine OnlyChanges.foldl ?_ ?_
  · assumption
  · intro x1 x2 x3
    with_reducible apply State.freeFrame_only
    · exact hk
    · assumption

theorem State.reap_only {ps : List Part} {q s : State} (hk : Within [.reg, .frames, .objs, .place, .host, .integ, .icnt, .out] ps) (hq : OnlyChanges ps q s) (h : Nat) : OnlyChanges ps q (State.reap s h) := by
  unfold State.reap
  split
  · assumption
  · with_reducible refine OnlyChanges.ite ?_ ?_
    · extract_lets +onlyGivenNames v1
      have hv1 : OnlyChanges ps q v1 := by
        unfold v1
        with_reducible refine OnlyChanges.foldl ?_ ?_
        · assumption
        · intro x1 x2 x3
          with_reducible apply State.abandonMove_only
          · exact hk.of rfl
          · assumption
      clear_value v1
      extract_lets +onlyGivenNames v2
      have hv2 : OnlyChanges ps q v2 := by
        unfold v2
        with_reducible refine OnlyChanges.foldl ?_ ?_
        · assumption
        · intro x4 x5 x6
          with_reducible apply State.dropWant_only
          · exact hk.of rfl
          · assumption
      clear_value v2
      with_reducible apply State.dropObj_only
      · exact hk.of rfl
      · with_reducible refine OnlyChanges.foldl ?_ ?_
        · assumption
        · intro x7 x8 x9
          with_reducible apply State.freeFrame_only
          · exact hk.of rfl
          · assumption
    · assumption

theorem State.reapAll_only {ps : List Part} {q s : State} (hk : Within [.reg, .frames, .objs, .place, .host, .integ, .icnt, .out] ps) (hq : OnlyChanges ps q s) : OnlyChanges ps q (State.reapAll s) := by
  unfold State.reapAll
  with_reducible refine OnlyChanges.foldl ?_ ?_
  · assumption
  · intro x1 x2 x3
    with_reducible apply State.reap_only
    · exact hk
    · assumption

theorem State.allocShadow_only {ps : List Part} {q s : State} (hk : Within [.frames] ps) (hq : OnlyChanges ps q s) (t : Nat × Nat) (h : Nat) (tile : Nat) (cls : Nat) : OnlyP ps q (State.allocShadow s t h tile cls) := by
  unfold State.allocShadow
  split
  · with_reducible exact OnlyP.none
  · with_reducible apply OnlyP.some
    with_reducible apply State.takeShadow_only
    · exact hk
    · assumption

theorem State.engineRead_only {ps : List Part} {q s : State} (hk : Within [.accts, .frames, .place] ps) (hq : OnlyChanges ps q s) (c : Nat) (n : Nat) (f : Nat) (k : Nat) : OnlyChanges ps q (State.engineRead s c n f k) := by
  unfold State.engineRead
  extract_lets +onlyGivenNames v1
  have hv1 : OnlyChanges ps q v1 := by
    unfold v1
    with_reducible apply State.touch_only
    · exact hk.of rfl
    · assumption
  clear_value v1
  with_reducible refine OnlyChanges.ite ?_ ?_
  · assumption
  · with_reducible apply State.chargeMove_only
    · exact hk.of rfl
    · assumption

theorem State.engineReads_only {ps : List Part} {q s : State} (hk : Within [.accts, .frames, .place] ps) (hq : OnlyChanges ps q s) (c : Nat) (n : Nat) (f : Nat) (k : Nat) (times : Nat) : OnlyChanges ps q (State.engineReads s c n f k times) := by
  unfold State.engineReads
  extract_lets +onlyGivenNames v1
  have hv1 : OnlyChanges ps q v1 := by
    unfold v1
    with_reducible refine OnlyChanges.foldl ?_ ?_
    · assumption
    · intro x1 x2 x3
      with_reducible apply State.touch_only
      · exact hk.of rfl
      · assumption
  clear_value v1
  with_reducible refine OnlyChanges.ite ?_ ?_
  · assumption
  · with_reducible apply State.chargeMove_only
    · exact hk.of rfl
    · assumption

theorem State.engineWrite_only {ps : List Part} {q s : State} (hk : Within [.accts, .frames, .place] ps) (hq : OnlyChanges ps q s) (c : Nat) (n : Nat) (f : Nat) (k : Nat) : OnlyChanges ps q (State.engineWrite s c n f k) := by
  unfold State.engineWrite
  extract_lets +onlyGivenNames v1
  have hv1 : OnlyChanges ps q v1 := by
    unfold v1
    with_reducible apply State.touch_only
    · exact hk.of rfl
    · assumption
  clear_value v1
  with_reducible refine OnlyChanges.ite ?_ ?_
  · assumption
  · with_reducible apply State.chargeMove_only
    · exact hk.of rfl
    · assumption

theorem State.prep_only {ps : List Part} {q s : State} (hk : Within [.reg, .chans, .cqs, .accts, .gfe, .objs, .host, .fab, .out] ps) (hq : OnlyChanges ps q s) (n : Node) : OnlyChanges ps q (State.prep s n).1 := by
  unfold State.prep
  split
  · assumption
  · split
    · assumption
    · extract_lets +onlyGivenNames v1
      clear_value v1
      split
      · dsimp only
        with_reducible apply State.endCmd_only
        · exact hk
        · assumption
      · split
        · assumption
        · extract_lets +onlyGivenNames v2
          clear_value v2
          split
          · dsimp only
            with_reducible apply State.stopLaunch_only
            · exact hk.of rfl
            · assumption
          · extract_lets +onlyGivenNames v3
            clear_value v3
            dsimp only
            with_reducible apply State.setCmd_only
            · exact hk.of rfl
            · assumption

theorem State.gfeHead_only {ps : List Part} {q s : State} (hk : Within [.reg, .chans, .cqs, .accts, .gfe, .objs, .host, .fab, .out] ps) (hq : OnlyChanges ps q s) (n : Node) (op : Nat) (f : State → Cmd → State)
    (hf : ∀ t d, OnlyChanges ps q t → OnlyChanges ps q (f t d)) : OnlyChanges ps q (State.gfeHead s n op f) := by
  unfold State.gfeHead
  refine OnlyChanges.ite hq ?_
  split
  · exact hq
  · refine OnlyChanges.ite hq ?_
    have h := State.prep_only (hk.of rfl) hq n
    split
    · rename_i e; exact h.fst e
    · rename_i e; exact hf _ _ (h.fst e)

theorem State.endNow_only {ps : List Part} {q s : State} (hk : Within [.reg, .chans, .cqs, .accts, .gfe, .objs, .host, .fab, .out] ps) (hq : OnlyChanges ps q s) (d : Cmd) (status : Nat) (a : Nat) (b : Nat) : OnlyChanges ps q (State.endNow s d status a b) := by
  unfold State.endNow
  with_reducible apply State.endCmd_only
  · exact hk
  · with_reducible apply State.issue_only
    · exact hk.of rfl
    · assumption

theorem State.runNop_only {ps : List Part} {q s : State} (hk : Within [.reg, .chans, .cqs, .accts, .gfe, .objs, .host, .fab, .out] ps) (hq : OnlyChanges ps q s) (d : Cmd) : OnlyChanges ps q (State.runNop s d) := by
  unfold State.runNop
  with_reducible apply State.endNow_only
  · exact hk
  · assumption

theorem execNop_only {ps : List Part} {q s : State} (hk : Within [.reg, .chans, .cqs, .accts, .gfe, .objs, .host, .fab, .out] ps) (hq : OnlyChanges ps q s) (n : Node) : RunsOnly ps q (execNop n s) := by
  unfold execNop
  with_reducible apply RunsOnly.done
  · exact hk.of rfl
  · with_reducible apply State.gfeHead_only
    · exact hk
    · assumption
    · intro x1 x2 x3
      with_reducible apply State.runNop_only
      · exact hk
      · assumption

theorem State.rewriteTile_only {ps : List Part} {q s : State} (hk : Within [.reg, .mem, .frames, .objs, .place, .host, .integ, .icnt, .out] ps) (hq : OnlyChanges ps q s) (h : Nat) (tile : Nat) (cls : Nat) (off : Nat) (bytes : List Byte) : OnlyChanges ps q (State.rewriteTile s h tile cls off bytes) := by
  unfold State.rewriteTile
  split
  · assumption
  · split
    · with_reducible apply State.writeBytes_only
      · exact hk.of rfl
      · assumption
    · with_reducible apply State.flipTile_only
      · exact hk.of rfl
      · with_reducible apply State.writeBytes_only
        · exact hk.of rfl
        · with_reducible apply State.copyFrame_only
          · exact hk.of rfl
          · with_reducible refine OnlyP.use ?_ (by assumption)
            with_reducible apply State.allocShadow_only
            · exact hk.of rfl
            · assumption

theorem State.runTimestamp_only {ps : List Part} {q s : State} (hk : Within [.reg, .chans, .cqs, .accts, .gfe, .mem, .frames, .objs, .place, .host, .fab, .integ, .icnt, .out] ps) (hq : OnlyChanges ps q s) (d : Cmd) : OnlyChanges ps q (State.runTimestamp s d) := by
  unfold State.runTimestamp
  with_reducible refine OnlyChanges.ite ?_ ?_
  · extract_lets +onlyGivenNames v1
    clear_value v1
    extract_lets +onlyGivenNames v2
    clear_value v2
    split
    · with_reducible apply State.endNow_only
      · exact hk.of rfl
      · assumption
    · with_reducible refine OnlyChanges.ite ?_ ?_
      · with_reducible apply State.endNow_only
        · exact hk.of rfl
        · assumption
      · with_reducible refine OnlyChanges.ite ?_ ?_
        · with_reducible apply State.endNow_only
          · exact hk.of rfl
          · assumption
        · extract_lets +onlyGivenNames v3
          clear_value v3
          split
          · with_reducible apply State.endNow_only
            · exact hk.of rfl
            · assumption
          · with_reducible refine OnlyChanges.ite ?_ ?_
            · with_reducible apply State.endNow_only
              · exact hk.of rfl
              · assumption
            · with_reducible apply State.endNow_only
              · exact hk.of rfl
              · with_reducible apply State.rewriteTile_only
                · exact hk.of rfl
                · assumption
  · with_reducible apply State.endNow_only
    · exact hk.of rfl
    · assumption

theorem execTimestamp_only {ps : List Part} {q s : State} (hk : Within [.reg, .chans, .cqs, .accts, .gfe, .mem, .frames, .objs, .place, .host, .fab, .integ, .icnt, .out] ps) (hq : OnlyChanges ps q s) (n : Node) : RunsOnly ps q (execTimestamp n s) := by
  unfold execTimestamp
  with_reducible apply RunsOnly.done
  · exact hk.of rfl
  · with_reducible apply State.gfeHead_only
    · exact hk.of rfl
    · assumption
    · intro x1 x2 x3
      with_reducible apply State.runTimestamp_only
      · exact hk
      · assumption

theorem State.wakeFence_only {ps : List Part} {q s : State} (hk : Within [.reg, .chans, .cqs, .accts, .gfe, .objs, .host, .fab, .out] ps) (hq : OnlyChanges ps q s) (n : Nat) : OnlyChanges ps q (State.wakeFence s n) := by
  unfold State.wakeFence
  with_reducible refine OnlyChanges.foldl ?_ ?_
  · assumption
  · intro x1 x2 x3
    with_reducible apply State.endCmd_only
    · exact hk
    · assumption

theorem State.noteFree_only {ps : List Part} {q s : State} (hk : Within [.streams] ps) (hq : OnlyChanges ps q s) (n : Nat) : OnlyChanges ps q (State.noteFree s n) := by
  unfold State.noteFree
  with_reducible apply OnlyChanges.upd_streams
  · exact hk
  · assumption

theorem State.setFenceVal_only {ps : List Part} {q s : State} (hk : Within [.gfe, .streams, .fences] ps) (hq : OnlyChanges ps q s) (n : Nat) (v : Nat) : OnlyChanges ps q (State.setFenceVal s n v) := by
  unfold State.setFenceVal
  extract_lets +onlyGivenNames v1
  clear_value v1
  extract_lets +onlyGivenNames v2
  have hv2 : OnlyChanges ps q v2 := by
    unfold v2
    with_reducible apply State.noteFree_only
    · exact hk.of rfl
    · with_reducible apply State.setFence_only
      · exact hk.of rfl
      · assumption
  clear_value v2
  with_reducible apply OnlyChanges.upd_gfe
  · exact hk.of rfl
  · assumption
  · exact fun _ => rfl

theorem State.closeFence_only {ps : List Part} {q s : State} (hk : Within [.reg, .chans, .cqs, .accts, .gfe, .objs, .host, .fab, .out] ps) (hq : OnlyChanges ps q s) (n : Nat) : OnlyChanges ps q (State.closeFence s n) := by
  unfold State.closeFence
  with_reducible apply State.wakeFence_only
  · exact hk
  · with_reducible refine OnlyChanges.foldl ?_ ?_
    · assumption
    · intro x1 x2 x3
      with_reducible apply State.endCmd_only
      · exact hk
      · assumption

theorem State.closeFences_only {ps : List Part} {q s : State} (hk : Within [.reg, .chans, .cqs, .accts, .gfe, .objs, .host, .fab, .out] ps) (hq : OnlyChanges ps q s) : OnlyChanges ps q (State.closeFences s) := by
  unfold State.closeFences
  with_reducible refine OnlyChanges.foldl ?_ ?_
  · with_reducible apply OnlyChanges.upd_gfe
    · exact hk.of rfl
    · assumption
    · exact fun _ => rfl
  · intro x1 x2 x3
    with_reducible apply State.closeFence_only
    · exact hk
    · assumption

theorem State.runFenceSignal_only {ps : List Part} {q s : State} (hk : Within [.reg, .chans, .cqs, .accts, .gfe, .objs, .streams, .host, .fab, .out, .fences] ps) (hq : OnlyChanges ps q s) (d : Cmd) : OnlyChanges ps q (State.runFenceSignal s d) := by
  unfold State.runFenceSignal
  extract_lets +onlyGivenNames v1
  clear_value v1
  extract_lets +onlyGivenNames v2
  clear_value v2
  extract_lets +onlyGivenNames v3
  clear_value v3
  extract_lets +onlyGivenNames v4
  clear_value v4
  with_reducible refine OnlyChanges.ite ?_ ?_
  · with_reducible apply State.endNow_only
    · exact hk.of rfl
    · assumption
  · with_reducible refine OnlyChanges.ite ?_ ?_
    · with_reducible apply State.setFenceVal_only
      · exact hk.of rfl
      · with_reducible apply State.issue_only
        · exact hk.of rfl
        · assumption
    · with_reducible refine OnlyChanges.ite ?_ ?_
      · with_reducible apply State.endNow_only
        · exact hk.of rfl
        · assumption
      · with_reducible apply State.setFenceVal_only
        · exact hk.of rfl
        · with_reducible apply State.issue_only
          · exact hk.of rfl
          · assumption

theorem execFenceSignal_only {ps : List Part} {q s : State} (hk : Within [.reg, .chans, .cqs, .accts, .gfe, .objs, .streams, .host, .fab, .out, .fences] ps) (hq : OnlyChanges ps q s) (n : Node) : RunsOnly ps q (execFenceSignal n s) := by
  unfold execFenceSignal
  with_reducible apply RunsOnly.done
  · exact hk.of rfl
  · with_reducible apply State.gfeHead_only
    · exact hk.of rfl
    · assumption
    · intro x1 x2 x3
      with_reducible apply State.runFenceSignal_only
      · exact hk
      · assumption

theorem State.runFenceWait_only {ps : List Part} {q s : State} (hk : Within [.reg, .chans, .cqs, .accts, .gfe, .objs, .host, .fab, .out] ps) (hq : OnlyChanges ps q s) (d : Cmd) : OnlyChanges ps q (State.runFenceWait s d) := by
  unfold State.runFenceWait
  extract_lets +onlyGivenNames v1
  clear_value v1
  extract_lets +onlyGivenNames v2
  clear_value v2
  split
  · with_reducible refine OnlyChanges.ite ?_ ?_
    · with_reducible apply State.endCmd_only
      · exact hk
      · assumption
    · assumption
  · with_reducible refine OnlyChanges.ite ?_ ?_
    · with_reducible apply State.endNow_only
      · exact hk
      · assumption
    · with_reducible refine OnlyChanges.ite ?_ ?_
      · with_reducible apply State.endNow_only
        · exact hk
        · assumption
      · with_reducible refine OnlyChanges.ite ?_ ?_
        · with_reducible apply State.raise_only
          · exact hk.of rfl
          · with_reducible apply State.endNow_only
            · exact hk
            · assumption
        · with_reducible apply State.issue_only
          · exact hk.of rfl
          · assumption

theorem execFenceWait_only {ps : List Part} {q s : State} (hk : Within [.reg, .chans, .cqs, .accts, .gfe, .objs, .host, .fab, .out] ps) (hq : OnlyChanges ps q s) (n : Node) : RunsOnly ps q (execFenceWait n s) := by
  unfold execFenceWait
  with_reducible apply RunsOnly.done
  · exact hk.of rfl
  · with_reducible apply State.gfeHead_only
    · exact hk
    · assumption
    · intro x1 x2 x3
      with_reducible apply State.runFenceWait_only
      · exact hk
      · assumption

theorem execFenceTimeout_only {ps : List Part} {q s : State} (hk : Within [.reg, .chans, .cqs, .accts, .gfe, .objs, .host, .fab, .out] ps) (hq : OnlyChanges ps q s) (n : Node) : RunsOnly ps q (execFenceTimeout n s) := by
  unfold execFenceTimeout
  with_reducible apply RunsOnly.done
  · exact hk.of rfl
  · split
    · assumption
    · with_reducible refine OnlyChanges.ite ?_ ?_
      · assumption
      · with_reducible refine OnlyChanges.ite ?_ ?_
        · with_reducible refine OnlyChanges.ite ?_ ?_
          · with_reducible apply State.endCmd_only
            · exact hk
            · assumption
          · with_reducible apply State.raise_only
            · exact hk.of rfl
            · with_reducible apply State.endCmd_only
              · exact hk
              · assumption
        · extract_lets +onlyGivenNames v1
          clear_value v1
          with_reducible refine OnlyChanges.ite ?_ ?_
          · with_reducible apply State.endCmd_only
            · exact hk
            · assumption
          · with_reducible apply State.raise_only
            · exact hk.of rfl
            · with_reducible apply State.endCmd_only
              · exact hk
              · assumption

theorem State.runHostFence_only {ps : List Part} {q s : State} (hk : Within [.reg, .chans, .cqs, .accts, .gfe, .objs, .host, .fab, .out] ps) (hq : OnlyChanges ps q s) (d : Cmd) : OnlyChanges ps q (State.runHostFence s d) := by
  unfold State.runHostFence
  extract_lets +onlyGivenNames v1
  clear_value v1
  extract_lets +onlyGivenNames v2
  clear_value v2
  with_reducible refine OnlyChanges.ite ?_ ?_
  · with_reducible apply State.endNow_only
    · exact hk
    · assumption
  · with_reducible refine OnlyChanges.ite ?_ ?_
    · with_reducible apply State.endNow_only
      · exact hk
      · assumption
    · extract_lets +onlyGivenNames v3
      clear_value v3
      with_reducible refine OnlyChanges.ite ?_ ?_
      · with_reducible apply State.endNow_only
        · exact hk
        · assumption
      · with_reducible apply State.setExtra_only
        · exact hk.of rfl
        · with_reducible apply State.issue_only
          · exact hk.of rfl
          · assumption

theorem execHostFence_only {ps : List Part} {q s : State} (hk : Within [.reg, .chans, .cqs, .accts, .gfe, .objs, .host, .fab, .out] ps) (hq : OnlyChanges ps q s) (n : Node) : RunsOnly ps q (execHostFence n s) := by
  unfold execHostFence
  with_reducible apply RunsOnly.done
  · exact hk.of rfl
  · split
    · with_reducible refine OnlyChanges.ite ?_ ?_
      · with_reducible apply State.endCmd_only
        · exact hk
        · assumption
      · with_reducible apply State.gfeHead_only
        · exact hk
        · assumption
        · intro x1 x2 x3
          with_reducible apply State.runHostFence_only
          · exact hk
          · assumption
    · with_reducible apply State.gfeHead_only
      · exact hk
      · assumption
      · intro x4 x5 x6
        with_reducible apply State.runHostFence_only
        · exact hk
        · assumption

theorem State.poisonIfBad_only {ps : List Part} {q s : State} (hk : Within [.reg, .frames, .place, .host, .integ, .icnt, .out, .tests] ps) (hq : OnlyChanges ps q s) (d : Cmd) (h : Nat) (tile : Nat) : OnlyChanges ps q (State.poisonIfBad s d h tile) := by
  unfold State.poisonIfBad
  with_reducible refine OnlyChanges.ite ?_ ?_
  · assumption
  · split
    · with_reducible refine OnlyChanges.ite ?_ ?_
      · split
        · with_reducible apply State.poisonFrame_only
          · exact hk
          · assumption
        · assumption
      · assumption
    · assumption

theorem State.tryFill_only {ps : List Part} {q s : State} (hk : Within [.place] ps) (hq : OnlyChanges ps q s) (c : CellarOp) : OnlyChanges ps q (State.tryFill s c) := by
  unfold State.tryFill
  with_reducible refine OnlyChanges.ite ?_ ?_
  · with_reducible apply OnlyChanges.upd_place
    · exact hk
    · assumption
  · assumption

theorem State.queueFills_only {ps : List Part} {q s : State} (hk : Within [.place] ps) (hq : OnlyChanges ps q s) (ops : List CellarOp) : OnlyChanges ps q (State.queueFills s ops) := by
  unfold State.queueFills
  with_reducible refine OnlyChanges.foldl ?_ ?_
  · with_reducible apply OnlyChanges.upd_place
    · exact hk
    · assumption
  · intro x1 x2 x3
    with_reducible apply State.tryFill_only
    · exact hk
    · assumption

theorem State.enterObj_only {ps : List Part} {q s : State} (hk : Within [.frames, .objs, .place] ps) (hq : OnlyChanges ps q s) (h : Nat) (o : Obj) (frames : List Nat) (order : Nat × Nat × Nat) : OnlyChanges ps q (State.enterObj s h o frames order) := by
  unfold State.enterObj
  extract_lets +onlyGivenNames v1
  clear_value v1
  extract_lets +onlyGivenNames v2
  have hv2 : OnlyChanges ps q v2 := by
    unfold v2
    with_reducible refine OnlyChanges.foldl ?_ ?_
    · assumption
    · intro x1 x2 x3
      with_reducible apply State.takeShadow_only
      · exact hk.of rfl
      · assumption
  clear_value v2
  with_reducible apply State.queueFills_only
  · exact hk.of rfl
  · with_reducible apply State.setObj_only
    · exact hk.of rfl
    · assumption

theorem State.runObjCreate_only {ps : List Part} {q s : State} (hk : Within [.reg, .chans, .cqs, .accts, .gfe, .frames, .objs, .place, .host, .fab, .out] ps) (hq : OnlyChanges ps q s) (d : Cmd) : OnlyChanges ps q (State.runObjCreate s d) := by
  unfold State.runObjCreate
  split
  · with_reducible apply State.endNow_only
    · exact hk.of rfl
    · assumption
  · extract_lets +onlyGivenNames v1
    clear_value v1
    with_reducible refine OnlyChanges.ite ?_ ?_
    · with_reducible apply State.endNow_only
      · exact hk.of rfl
      · assumption
    · with_reducible refine OnlyChanges.ite ?_ ?_
      · with_reducible apply State.endNow_only
        · exact hk.of rfl
        · assumption
      · split
        · with_reducible apply State.endNow_only
          · exact hk.of rfl
          · assumption
        · with_reducible refine OnlyChanges.ite ?_ ?_
          · with_reducible apply State.endNow_only
            · exact hk.of rfl
            · assumption
          · with_reducible apply State.enterObj_only
            · exact hk.of rfl
            · with_reducible apply State.issue_only
              · exact hk.of rfl
              · assumption

theorem execObjCreate_only {ps : List Part} {q s : State} (hk : Within [.reg, .chans, .cqs, .accts, .gfe, .frames, .objs, .place, .host, .fab, .out] ps) (hq : OnlyChanges ps q s) (n : Node) : RunsOnly ps q (execObjCreate n s) := by
  unfold execObjCreate
  with_reducible apply RunsOnly.done
  · exact hk.of rfl
  · with_reducible apply State.gfeHead_only
    · exact hk.of rfl
    · assumption
    · intro x1 x2 x3
      with_reducible apply State.runObjCreate_only
      · exact hk
      · assumption

theorem execZeroFillComplete_only {ps : List Part} {q s : State} (hk : Within [.reg, .chans, .cqs, .accts, .gfe, .mem, .frames, .objs, .place, .host, .fab, .out] ps) (hq : OnlyChanges ps q s) (h : Nat) : RunsOnly ps q (execZeroFillComplete h s) := by
  unfold execZeroFillComplete
  with_reducible apply RunsOnly.done
  · exact hk.of rfl
  · split
    · assumption
    · split
      · with_reducible refine OnlyChanges.ite ?_ ?_
        · assumption
        · extract_lets +onlyGivenNames v1
          have hv1 : OnlyChanges ps q v1 := by
            unfold v1
            with_reducible refine OnlyChanges.foldl ?_ ?_
            · assumption
            · intro x1 x2 x3
              with_reducible apply State.touch_only
              · exact hk.of rfl
              · with_reducible apply State.setFrame_only
                · exact hk.of rfl
                · with_reducible apply State.writeFrame_only
                  · exact hk.of rfl
                  · assumption
          clear_value v1
          extract_lets +onlyGivenNames v2
          have hv2 : OnlyChanges ps q v2 := by
            unfold v2
            with_reducible apply State.setObj_only
            · exact hk.of rfl
            · assumption
          clear_value v2
          split
          · with_reducible apply State.endCmd_only
            · exact hk.of rfl
            · assumption
          · assumption
      · assumption

theorem State.reserveDst_only {ps : List Part} {q s : State} (hk : Within [.frames] ps) (hq : OnlyChanges ps q s) (h : Nat) (tile : Nat) (dst : Nat) (cls : Nat) : OnlyChanges ps q (State.reserveDst s h tile dst cls) := by
  unfold State.reserveDst
  with_reducible apply State.setFrame_only
  · exact hk
  · assumption

theorem State.startMove_only {ps : List Part} {q s : State} (hk : Within [.frames, .place] ps) (hq : OnlyChanges ps q s) (h : Nat) (tile : Nat) (dst : Nat) (kind : MoveKind) (order : Nat × Nat × Nat) : OnlyChanges ps q (State.startMove s h tile dst kind order) := by
  unfold State.startMove
  split
  · assumption
  · extract_lets +onlyGivenNames v1
    have hv1 : OnlyChanges ps q v1 := by
      unfold v1
      with_reducible apply State.reserveDst_only
      · exact hk.of rfl
      · assumption
    clear_value v1
    extract_lets +onlyGivenNames v2
    clear_value v2
    extract_lets +onlyGivenNames v3
    clear_value v3
    extract_lets +onlyGivenNames v4
    clear_value v4
    with_reducible apply OnlyChanges.upd_place
    · exact hk.of rfl
    · assumption

theorem State.tryWant_only {ps : List Part} {q s : State} (hk : Within [.reg, .frames, .place, .host, .integ, .icnt, .out] ps) (hq : OnlyChanges ps q s) (w : MoveWant) : OnlyChanges ps q (State.tryWant s w) := by
  unfold State.tryWant
  with_reducible refine OnlyChanges.ite ?_ ?_
  · assumption
  · with_reducible refine OnlyChanges.ite ?_ ?_
    · with_reducible apply State.dropWant_only
      · exact hk
      · assumption
    · split
      · assumption
      · with_reducible refine OnlyChanges.ite ?_ ?_
        · with_reducible apply State.startMove_only
          · exact hk.of rfl
          · with_reducible apply State.unlistWant_only
            · exact hk.of rfl
            · assumption
        · assumption

theorem State.tryReq_only {ps : List Part} {q s : State} (hk : Within [.reg, .frames, .place, .host, .integ, .icnt, .out] ps) (hq : OnlyChanges ps q s) (a : MoveWant ⊕ CellarOp) : OnlyChanges ps q (State.tryReq s a) := by
  unfold State.tryReq
  split
  · with_reducible apply State.tryWant_only
    · exact hk
    · assumption
  · with_reducible apply State.tryFill_only
    · exact hk.of rfl
    · assumption

theorem State.startWants_only {ps : List Part} {q s : State} (hk : Within [.reg, .frames, .place, .host, .integ, .icnt, .out] ps) (hq : OnlyChanges ps q s) : OnlyChanges ps q (State.startWants s) := by
  unfold State.startWants
  with_reducible refine OnlyChanges.foldl ?_ ?_
  · assumption
  · intro x1 x2 x3
    with_reducible apply State.tryReq_only
    · exact hk
    · assumption

theorem State.demoteFirst_only {ps : List Part} {q s : State} (hk : Within [.reg, .frames, .place, .host, .out] ps) (hq : OnlyChanges ps q s) (l : List (Nat × Nat × FrameRec)) :
    OnlyChanges ps q (State.demoteFirst s l) := by
  induction l with
  | nil => exact hq
  | cons x t ih =>
    rw [State.demoteFirst]
    refine OnlyChanges.ite ?_ ih
    split
    · exact State.startMove_only (hk.of rfl) hq _ _ _ _ _
    · exact State.raise_only (hk.of rfl) hq _ _ _ _

theorem State.relieveAttic_only {ps : List Part} {q s : State} (hk : Within [.reg, .frames, .place, .host, .out] ps) (hq : OnlyChanges ps q s) : OnlyChanges ps q (State.relieveAttic s) := by
  unfold State.relieveAttic
  extract_lets +onlyGivenNames v1
  clear_value v1
  with_reducible refine OnlyChanges.ite ?_ ?_
  · assumption
  · extract_lets +onlyGivenNames v2
    clear_value v2
    with_reducible refine OnlyChanges.foldl ?_ ?_
    · assumption
    · intro x1 x2 x3
      with_reducible apply State.demoteFirst_only
      · exact hk
      · assumption

theorem State.tryWants_only {ps : List Part} {q s : State} (hk : Within [.reg, .frames, .place, .host, .integ, .icnt, .out] ps) (hq : OnlyChanges ps q s) : OnlyChanges ps q (State.tryWants s) := by
  unfold State.tryWants
  with_reducible apply State.relieveAttic_only
  · exact hk.of rfl
  · with_reducible apply State.startWants_only
    · exact hk
    · assumption

theorem State.wantFetch_only {ps : List Part} {q s : State} (hk : Within [.reg, .frames, .place, .host, .integ, .icnt, .out] ps) (hq : OnlyChanges ps q s) (h : Nat) (tile : Nat) (order : Nat × Nat × Nat) : OnlyChanges ps q (State.wantFetch s h tile order) := by
  unfold State.wantFetch
  with_reducible refine OnlyChanges.ite ?_ ?_
  · assumption
  · with_reducible apply State.tryWants_only
    · exact hk
    · with_reducible apply OnlyChanges.upd_place
      · exact hk.of rfl
      · assumption

theorem State.fetchAll_only {ps : List Part} {q s : State} (hk : Within [.reg, .frames, .place, .host, .integ, .icnt, .out] ps) (hq : OnlyChanges ps q s) (d : Cmd) (ts : List (Nat × Nat)) : OnlyChanges ps q (State.fetchAll s d ts) := by
  unfold State.fetchAll
  with_reducible refine OnlyChanges.foldl ?_ ?_
  · assumption
  · intro x1 x2 x3
    with_reducible apply State.wantFetch_only
    · exact hk
    · assumption

theorem State.settleMove_only {ps : List Part} {q s : State} (hk : Within [.reg, .chans, .cqs, .accts, .gfe, .objs, .host, .fab, .out] ps) (hq : OnlyChanges ps q s) (id : Nat) : OnlyChanges ps q (State.settleMove s id) := by
  unfold State.settleMove
  split
  · assumption
  · with_reducible refine OnlyChanges.ite ?_ ?_
    · assumption
    · extract_lets +onlyGivenNames v1
      clear_value v1
      extract_lets +onlyGivenNames v2
      clear_value v2
      split
      · with_reducible apply State.endCmd_only
        · exact hk
        · assumption
      · extract_lets +onlyGivenNames v3
        clear_value v3
        extract_lets +onlyGivenNames v4
        clear_value v4
        extract_lets +onlyGivenNames v5
        clear_value v5
        with_reducible apply State.endCmd_only
        · exact hk
        · assumption

theorem State.settleMoves_only {ps : List Part} {q s : State} (hk : Within [.reg, .chans, .cqs, .accts, .gfe, .objs, .host, .fab, .out] ps) (hq : OnlyChanges ps q s) : OnlyChanges ps q (State.settleMoves s) := by
  unfold State.settleMoves
  with_reducible refine OnlyChanges.foldl ?_ ?_
  · assumption
  · intro x1 x2 x3
    with_reducible apply State.settleMove_only
    · exact hk
    · assumption

theorem State.endBackground_only {ps : List Part} {q s : State} (hk : Within [.reg, .frames, .place, .host, .integ, .icnt, .out] ps) (hq : OnlyChanges ps q s) (h : Nat) (tile : Nat) : OnlyChanges ps q (State.endBackground s h tile) := by
  unfold State.endBackground
  split
  · with_reducible refine OnlyChanges.ite ?_ ?_
    · with_reducible apply State.abandonMove_only
      · exact hk
      · assumption
    · assumption
  · assumption

theorem State.commandMove_only {ps : List Part} {q s : State} (hk : Within [.frames, .place] ps) (hq : OnlyChanges ps q s) (id : Nat) (h : Nat) (tile : Nat) (dst : Nat) (order : Nat × Nat × Nat) : OnlyChanges ps q (State.commandMove s id h tile dst order) := by
  unfold State.commandMove
  with_reducible refine OnlyChanges.ite ?_ ?_
  · with_reducible apply State.startMove_only
    · exact hk
    · assumption
  · extract_lets +onlyGivenNames v1
    clear_value v1
    extract_lets +onlyGivenNames v2
    have hv2 : OnlyChanges ps q v2 := by
      unfold v2
      with_reducible apply State.reserveDst_only
      · exact hk.of rfl
      · assumption
    clear_value v2
    with_reducible apply OnlyChanges.upd_place
    · exact hk.of rfl
    · assumption

theorem State.runMove_only {ps : List Part} {q s : State} (hk : Within [.reg, .chans, .cqs, .accts, .gfe, .frames, .objs, .place, .host, .fab, .integ, .icnt, .out] ps) (hq : OnlyChanges ps q s) (d : Cmd) : OnlyChanges ps q (State.runMove s d) := by
  unfold State.runMove
  split
  · with_reducible apply State.endNow_only
    · exact hk.of rfl
    · assumption
  · extract_lets +onlyGivenNames v1
    clear_value v1
    extract_lets +onlyGivenNames v2
    clear_value v2
    extract_lets +onlyGivenNames v3
    clear_value v3
    extract_lets +onlyGivenNames v4
    clear_value v4
    split
    · with_reducible apply State.endNow_only
      · exact hk.of rfl
      · assumption
    · with_reducible refine OnlyChanges.ite ?_ ?_
      · with_reducible apply State.endNow_only
        · exact hk.of rfl
        · assumption
      · extract_lets +onlyGivenNames v5
        clear_value v5
        extract_lets +onlyGivenNames v6
        clear_value v6
        extract_lets +onlyGivenNames v7
        clear_value v7
        split
        · with_reducible apply State.endNow_only
          · exact hk.of rfl
          · assumption
        · extract_lets +onlyGivenNames v8
          have hv8 : OnlyChanges ps q v8 := by
            unfold v8
            with_reducible refine OnlyChanges.ite ?_ ?_
            · assumption
            · with_reducible apply State.setObj_only
              · exact hk.of rfl
              · assumption
          clear_value v8
          extract_lets +onlyGivenNames v9
          have hv9 : OnlyChanges ps q v9 := by
            unfold v9
            with_reducible apply State.issue_only
            · exact hk.of rfl
            · assumption
          clear_value v9
          extract_lets +onlyGivenNames v10
          have hv10 : OnlyChanges ps q v10 := by
            unfold v10
            with_reducible refine OnlyChanges.foldl ?_ ?_
            · assumption
            · intro x1 x2 x3
              with_reducible apply State.endBackground_only
              · exact hk.of rfl
              · assumption
          clear_value v10
          with_reducible apply State.settleMove_only
          · exact hk.of rfl
          · with_reducible refine OnlyChanges.foldl ?_ ?_
            · assumption
            · intro x4 x5 x6
              with_reducible apply State.commandMove_only
              · exact hk.of rfl
              · assumption

theorem execMove_only {ps : List Part} {q s : State} (hk : Within [.reg, .chans, .cqs, .accts, .gfe, .frames, .objs, .place, .host, .fab, .integ, .icnt, .out] ps) (hq : OnlyChanges ps q s) (n : Node) : RunsOnly ps q (execMove n s) := by
  unfold execMove
  with_reducible apply RunsOnly.done
  · exact hk.of rfl
  · with_reducible apply State.gfeHead_only
    · exact hk.of rfl
    · assumption
    · intro x1 x2 x3
      with_reducible apply State.runMove_only
      · exact hk
      · assumption

theorem State.unbindSlots_only {ps : List Part} {q s : State} (hk : Within [.reg] ps) (hq : OnlyChanges ps q s) (h : Nat) : OnlyChanges ps q (State.unbindSlots s h) := by
  unfold State.unbindSlots
  with_reducible refine OnlyChanges.foldl ?_ ?_
  · assumption
  · intro x1 x2 x3
    with_reducible refine OnlyChanges.ite ?_ ?_
    · with_reducible apply State.fldPut_only
      · exact hk
      · assumption
    · assumption

theorem State.endMoves_only {ps : List Part} {q s : State} (hk : Within [.reg, .frames, .place, .host, .integ, .icnt, .out] ps) (hq : OnlyChanges ps q s) (h : Nat) : OnlyChanges ps q (State.endMoves s h) := by
  unfold State.endMoves
  extract_lets +onlyGivenNames v1
  clear_value v1
  extract_lets +onlyGivenNames v2
  have hv2 : OnlyChanges ps q v2 := by
    unfold v2
    with_reducible refine OnlyChanges.foldl ?_ ?_
    · assumption
    · intro x1 x2 x3
      with_reducible apply State.abandonMove_only
      · exact hk
      · assumption
  clear_value v2
  with_reducible refine OnlyChanges.foldl ?_ ?_
  · assumption
  · intro x4 x5 x6
    with_reducible apply State.dropWant_only
    · exact hk
    · assumption

theorem State.runObjFree_only {ps : List Part} {q s : State} (hk : Within [.reg, .chans, .cqs, .accts, .gfe, .frames, .objs, .place, .host, .fab, .integ, .icnt, .out] ps) (hq : OnlyChanges ps q s) (d : Cmd) : OnlyChanges ps q (State.runObjFree s d) := by
  unfold State.runObjFree
  extract_lets +onlyGivenNames v1
  clear_value v1
  split
  · with_reducible apply State.endNow_only
    · exact hk.of rfl
    · assumption
  · with_reducible refine OnlyChanges.ite ?_ ?_
    · with_reducible apply State.endNow_only
      · exact hk.of rfl
      · assumption
    · with_reducible apply State.reap_only
      · exact hk.of rfl
      · with_reducible apply State.settleMoves_only
        · exact hk.of rfl
        · with_reducible apply State.endNow_only
          · exact hk.of rfl
          · with_reducible apply State.unbindSlots_only
            · exact hk.of rfl
            · with_reducible apply State.endMoves_only
              · exact hk.of rfl
              · with_reducible apply State.setObj_only
                · exact hk.of rfl
                · assumption

theorem execObjFree_only {ps : List Part} {q s : State} (hk : Within [.reg, .chans, .cqs, .accts, .gfe, .frames, .objs, .place, .host, .fab, .integ, .icnt, .out] ps) (hq : OnlyChanges ps q s) (n : Node) : RunsOnly ps q (execObjFree n s) := by
  unfold execObjFree
  with_reducible apply RunsOnly.done
  · exact hk.of rfl
  · with_reducible apply State.gfeHead_only
    · exact hk.of rfl
    · assumption
    · intro x1 x2 x3
      with_reducible apply State.runObjFree_only
      · exact hk
      · assumption

theorem State.enterClone_only {ps : List Part} {q s : State} (hk : Within [.frames, .objs, .place] ps) (hq : OnlyChanges ps q s) (h : Nat) (o : Obj) (order : Nat × Nat × Nat) : OnlyO ps q (State.enterClone s h o order) := by
  unfold State.enterClone
  split
  · with_reducible exact OnlyO.none
  · split
    · with_reducible exact OnlyO.none
    · with_reducible apply OnlyO.some
      with_reducible apply State.enterObj_only
      · exact hk
      · assumption

theorem State.enterClones_only {ps : List Part} {q s : State} (hk : Within [.frames, .objs, .place] ps) (hq : OnlyChanges ps q s) (d : Cmd) (o : Obj) : OnlyO ps q (State.enterClones s d o) := by
  unfold State.enterClones
  extract_lets +onlyGivenNames v1
  clear_value v1
  split
  · with_reducible exact OnlyO.none
  · split
    · with_reducible apply OnlyO.some
      with_reducible refine OnlyO.use ?_ (by assumption)
      with_reducible apply State.enterClone_only
      · exact hk
      · assumption
    · split
      · with_reducible apply State.enterClone_only
        · exact hk
        · with_reducible refine OnlyO.use ?_ (by assumption)
          with_reducible apply State.enterClone_only
          · exact hk
          · assumption
      · with_reducible apply OnlyO.some
        with_reducible refine OnlyO.use ?_ (by assumption)
        with_reducible apply State.enterClone_only
        · exact hk
        · assumption

theorem State.runClone_only {ps : List Part} {q s : State} (hk : Within [.reg, .chans, .cqs, .accts, .gfe, .frames, .objs, .place, .host, .fab, .out] ps) (hq : OnlyChanges ps q s) (d : Cmd) : OnlyChanges ps q (State.runClone s d) := by
  unfold State.runClone
  extract_lets +onlyGivenNames v1
  clear_value v1
  split
  · with_reducible apply State.endNow_only
    · exact hk.of rfl
    · assumption
  · with_reducible apply State.endNow_only
    · exact hk.of rfl
    · assumption
  · split
    · with_reducible apply State.endNow_only
      · exact hk.of rfl
      · assumption
    · with_reducible apply State.endNow_only
      · exact hk.of rfl
      · assumption
    · extract_lets +onlyGivenNames v2
      clear_value v2
      with_reducible refine OnlyChanges.ite ?_ ?_
      · with_reducible apply State.endNow_only
        · exact hk.of rfl
        · assumption
      · extract_lets +onlyGivenNames v3
        clear_value v3
        split
        · with_reducible apply State.endNow_only
          · exact hk.of rfl
          · assumption
        · extract_lets +onlyGivenNames v4
          clear_value v4
          with_reducible refine OnlyChanges.ite ?_ ?_
          · with_reducible apply State.endNow_only
            · exact hk.of rfl
            · assumption
          · with_reducible apply State.queueFills_only
            · exact hk.of rfl
            · with_reducible apply State.issue_only
              · exact hk.of rfl
              · with_reducible refine OnlyO.use ?_ (by assumption)
                with_reducible apply State.enterClones_only
                · exact hk.of rfl
                · assumption

theorem execClone_only {ps : List Part} {q s : State} (hk : Within [.reg, .chans, .cqs, .accts, .gfe, .frames, .objs, .place, .host, .fab, .out] ps) (hq : OnlyChanges ps q s) (n : Node) : RunsOnly ps q (execClone n s) := by
  unfold execClone
  with_reducible apply RunsOnly.done
  · exact hk.of rfl
  · with_reducible apply State.gfeHead_only
    · exact hk.of rfl
    · assumption
    · intro x1 x2 x3
      with_reducible apply State.runClone_only
      · exact hk
      · assumption

theorem State.dropFills_only {ps : List Part} {q s : State} (hk : Within [.place] ps) (hq : OnlyChanges ps q s) (h : Nat) : OnlyChanges ps q (State.dropFills s h) := by
  unfold State.dropFills
  with_reducible apply OnlyChanges.upd_place
  · exact hk
  · assumption

theorem State.dropCreation_only {ps : List Part} {q s : State} (hk : Within [.reg, .frames, .objs, .place, .host, .integ, .icnt, .out] ps) (hq : OnlyChanges ps q s) (h : Nat) : OnlyChanges ps q (State.dropCreation s h) := by
  unfold State.dropCreation
  split
  · assumption
  · with_reducible apply State.dropFills_only
    · exact hk.of rfl
    · with_reducible apply State.dropObj_only
      · exact hk.of rfl
      · with_reducible refine OnlyChanges.foldl ?_ ?_
        · assumption
        · intro x1 x2 x3
          with_reducible apply State.freeFrame_only
          · exact hk.of rfl
          · assumption

theorem State.copyClone_only {ps : List Part} {q s : State} (hk : Within [.accts, .mem, .frames, .objs, .place] ps) (hq : OnlyChanges ps q s) (h : Nat) (arg : List Byte) : OnlyChanges ps q (State.copyClone s h arg) := by
  unfold State.copyClone
  split
  · assumption
  · split
    · extract_lets +onlyGivenNames v1
      have hv1 : OnlyChanges ps q v1 := by
        unfold v1
        with_reducible refine OnlyChanges.foldl ?_ ?_
        · assumption
        · intro x1 x2 x3
          extract_lets +onlyGivenNames v2
          have hv2 : OnlyChanges ps q v2 := by
            unfold v2
            with_reducible refine OnlyChanges.ite ?_ ?_
            · with_reducible apply State.writeFrame_only
              · exact hk.of rfl
              · assumption
            · split
              · with_reducible apply State.chargeMove_only
                · exact hk.of rfl
                · with_reducible apply State.copyFrame_only
                  · exact hk.of rfl
                  · with_reducible apply State.touch_only
                    · exact hk.of rfl
                    · assumption
              · assumption
          clear_value v2
          with_reducible apply State.touch_only
          · exact hk.of rfl
          · with_reducible apply State.setFrame_only
            · exact hk.of rfl
            · assumption
      clear_value v1
      with_reducible apply State.setObj_only
      · exact hk.of rfl
      · assumption
    · assumption

theorem State.failClone_only {ps : List Part} {q s : State} (hk : Within [.reg, .chans, .cqs, .accts, .gfe, .frames, .objs, .place, .host, .fab, .integ, .icnt, .out, .tests] ps) (hq : OnlyChanges ps q s) (d : Cmd) (src : Nat) (x : Nat × Option PoisonCause) : OnlyChanges ps q (State.failClone s d src x) := by
  unfold State.failClone
  extract_lets +onlyGivenNames v1
  have hv1 : OnlyChanges ps q v1 := by
    unfold v1
    split
    · with_reducible apply State.poisonFrame_only
      · exact hk.of rfl
      · assumption
    · assumption
  clear_value v1
  with_reducible apply State.settleMoves_only
  · exact hk.of rfl
  · with_reducible apply State.endCmd_only
    · exact hk.of rfl
    · with_reducible apply State.dropCreation_only
      · exact hk.of rfl
      · with_reducible apply State.dropCreation_only
        · exact hk.of rfl
        · assumption

theorem execCloneCopyComplete_only {ps : List Part} {q s : State} (hk : Within [.reg, .chans, .cqs, .accts, .gfe, .mem, .frames, .objs, .place, .host, .fab, .integ, .icnt, .out, .tests] ps) (hq : OnlyChanges ps q s) (h : Nat) (bad : Option (Nat × Nat × PoisonCause)) : RunsOnly ps q (execCloneCopyComplete h bad s) := by
  unfold execCloneCopyComplete
  with_reducible apply RunsOnly.done
  · exact hk.of rfl
  · split
    · assumption
    · split
      · split
        · assumption
        · extract_lets +onlyGivenNames v1
          clear_value v1
          with_reducible refine OnlyChanges.ite ?_ ?_
          · assumption
          · extract_lets +onlyGivenNames v2
            clear_value v2
            split
            · with_reducible apply State.failClone_only
              · exact hk.of rfl
              · assumption
            · with_reducible apply State.failClone_only
              · exact hk.of rfl
              · assumption
            · extract_lets +onlyGivenNames v3
              have hv3 : OnlyChanges ps q v3 := by
                unfold v3
                with_reducible apply State.copyClone_only
                · exact hk.of rfl
                · assumption
              clear_value v3
              extract_lets +onlyGivenNames v4
              have hv4 : OnlyChanges ps q v4 := by
                unfold v4
                with_reducible refine OnlyChanges.ite ?_ ?_
                · assumption
                · with_reducible apply State.copyClone_only
                  · exact hk.of rfl
                  · assumption
              clear_value v4
              with_reducible apply State.reapAll_only
              · exact hk.of rfl
              · with_reducible apply State.endCmd_only
                · exact hk.of rfl
                · assumption
      · assumption

theorem State.runLaunchList_only {ps : List Part} {q s : State} (hk : Within [.reg, .chans, .cqs, .accts, .gfe, .objs, .host, .fab, .out] ps) (hq : OnlyChanges ps q s) (d : Cmd) : OnlyChanges ps q (State.runLaunchList s d) := by
  unfold State.runLaunchList
  split
  · with_reducible apply State.endNow_only
    · exact hk
    · assumption
  · extract_lets +onlyGivenNames v1
    clear_value v1
    with_reducible refine OnlyChanges.ite ?_ ?_
    · assumption
    · extract_lets +onlyGivenNames v2
      clear_value v2
      extract_lets +onlyGivenNames v3
      have hv3 : OnlyChanges ps q v3 := by
        unfold v3
        with_reducible apply State.issue_only
        · exact hk.of rfl
        · assumption
      clear_value v3
      with_reducible apply OnlyChanges.upd_gfe
      · exact hk.of rfl
      · assumption
      · exact fun _ => rfl

theorem execLaunchList_only {ps : List Part} {q s : State} (hk : Within [.reg, .chans, .cqs, .accts, .gfe, .objs, .host, .fab, .out] ps) (hq : OnlyChanges ps q s) (n : Node) : RunsOnly ps q (execLaunchList n s) := by
  unfold execLaunchList
  with_reducible apply RunsOnly.done
  · exact hk.of rfl
  · with_reducible apply State.gfeHead_only
    · exact hk
    · assumption
    · intro x1 x2 x3
      with_reducible apply State.runLaunchList_only
      · exact hk
      · assumption

theorem State.addListed_only {ps : List Part} {q s : State} (hk : Within [.accts, .gfe] ps) (hq : OnlyChanges ps q s) (l : Launch) (slot : List Byte) (payload : List Byte) : OnlyChanges ps q (State.addListed s l slot payload) := by
  unfold State.addListed
  extract_lets +onlyGivenNames v1
  clear_value v1
  split
  · assumption
  · extract_lets +onlyGivenNames v2
    clear_value v2
    extract_lets +onlyGivenNames v3
    clear_value v3
    extract_lets +onlyGivenNames v4
    extract_lets +onlyGivenNames v5
    have hv5 : OnlyChanges ps q v5 := by
      unfold v5
      with_reducible apply OnlyChanges.upd_gfe
      · exact hk.of rfl
      · assumption
      · exact fun _ => rfl
    clear_value v5
    extract_lets +onlyGivenNames v6
    clear_value v6
    with_reducible apply State.chargeCyc_only
    · exact hk.of rfl
    · with_reducible apply State.setLaunch_only
      · exact hk.of rfl
      · assumption

theorem State.poisonList_only {ps : List Part} {q s : State} (hk : Within [.reg, .frames, .place, .host, .integ, .icnt, .out, .tests] ps) (hq : OnlyChanges ps q s) (h : Nat) (pos : Nat) (bad : Option (Nat × PoisonCause)) : OnlyChanges ps q (State.poisonList s h pos bad) := by
  unfold State.poisonList
  split
  · with_reducible apply State.poisonFrame_only
    · exact hk
    · assumption
  · assumption

theorem State.fetchNext_only {ps : List Part} {q s : State} (hk : Within [.reg, .chans, .cqs, .accts, .gfe, .frames, .place, .host, .fab, .integ, .icnt, .out, .tests] ps) (hq : OnlyChanges ps q s) (l : Launch) (bad : Option (Nat × PoisonCause)) : OnlyChanges ps q (State.fetchNext s l bad) := by
  unfold State.fetchNext
  split
  · assumption
  · extract_lets +onlyGivenNames v1
    clear_value v1
    extract_lets +onlyGivenNames v2
    clear_value v2
    extract_lets +onlyGivenNames v3
    clear_value v3
    extract_lets +onlyGivenNames v4
    clear_value v4
    with_reducible refine OnlyChanges.ite ?_ ?_
    · with_reducible apply State.stopLaunch_only
      · exact hk.of rfl
      · assumption
    · split
      · with_reducible apply State.wantFetch_only
        · exact hk.of rfl
        · assumption
      · with_reducible refine OnlyChanges.ite ?_ ?_
        · with_reducible apply State.stopLaunch_only
          · exact hk.of rfl
          · assumption
        · with_reducible refine OnlyChanges.ite ?_ ?_
          · assumption
          · with_reducible refine OnlyChanges.ite ?_ ?_
            · with_reducible apply State.stopLaunch_only
              · exact hk.of rfl
              · with_reducible apply State.poisonList_only
                · exact hk.of rfl
                · assumption
            · with_reducible refine OnlyChanges.ite ?_ ?_
              · with_reducible apply State.stopLaunch_only
                · exact hk.of rfl
                · assumption
              · with_reducible refine OnlyChanges.ite ?_ ?_
                · with_reducible apply State.stopLaunch_only
                  · exact hk.of rfl
                  · assumption
                · with_reducible refine OnlyChanges.ite ?_ ?_
                  · with_reducible apply State.stopLaunch_only
                    · exact hk.of rfl
                    · assumption
                  · split
                    · with_reducible apply State.wantFetch_only
                      · exact hk.of rfl
                      · assumption
                    · split
                      · with_reducible apply State.stopLaunch_only
                        · exact hk.of rfl
                        · assumption
                      · extract_lets +onlyGivenNames v5
                        clear_value v5
                        with_reducible refine OnlyChanges.ite ?_ ?_
                        · assumption
                        · split
                          · with_reducible apply State.stopLaunch_only
                            · exact hk.of rfl
                            · with_reducible apply State.poisonList_only
                              · exact hk.of rfl
                              · assumption
                          · with_reducible refine OnlyChanges.ite ?_ ?_
                            · with_reducible apply State.stopLaunch_only
                              · exact hk.of rfl
                              · assumption
                            · with_reducible apply State.addListed_only
                              · exact hk.of rfl
                              · assumption

theorem execListPositionFetch_only {ps : List Part} {q s : State} (hk : Within [.reg, .chans, .cqs, .accts, .gfe, .frames, .place, .host, .fab, .integ, .icnt, .out, .tests] ps) (hq : OnlyChanges ps q s) (launch : Nat) (bad : Option (Nat × PoisonCause)) : RunsOnly ps q (execListPositionFetch launch bad s) := by
  unfold execListPositionFetch
  with_reducible apply RunsOnly.done
  · exact hk.of rfl
  · split
    · assumption
    · with_reducible refine OnlyChanges.ite ?_ ?_
      · with_reducible apply State.fetchNext_only
        · exact hk
        · assumption
      · assumption

theorem State.withdrawLaunch_only {ps : List Part} {q s : State} (hk : Within [.accts, .gfe] ps) (hq : OnlyChanges ps q s) (l : Launch) : OnlyChanges ps q (State.withdrawLaunch s l) := by
  unfold State.withdrawLaunch
  split
  · assumption
  · extract_lets +onlyGivenNames v1
    clear_value v1
    with_reducible apply State.setCmd_only
    · exact hk.of rfl
    · with_reducible apply State.setAcct_only
      · exact hk.of rfl
      · with_reducible apply State.dropLaunch_only
        · exact hk.of rfl
        · assumption

theorem State.runPatchList_only {ps : List Part} {q s : State} (hk : Within [.reg, .chans, .cqs, .accts, .gfe, .frames, .objs, .place, .host, .fab, .integ, .icnt, .out, .tests] ps) (hq : OnlyChanges ps q s) (d : Cmd) : OnlyChanges ps q (State.runPatchList s d) := by
  unfold State.runPatchList
  extract_lets +onlyGivenNames v1
  clear_value v1
  split
  · with_reducible apply State.endNow_only
    · exact hk.of rfl
    · assumption
  · with_reducible refine OnlyChanges.ite ?_ ?_
    · with_reducible apply State.endNow_only
      · exact hk.of rfl
      · assumption
    · extract_lets +onlyGivenNames v2
      clear_value v2
      split
      · with_reducible apply State.endNow_only
        · exact hk.of rfl
        · with_reducible apply State.poisonIfBad_only
          · exact hk.of rfl
          · assumption
      · extract_lets +onlyGivenNames v3
        clear_value v3
        split
        · with_reducible apply State.endNow_only
          · exact hk.of rfl
          · assumption
        · extract_lets +onlyGivenNames v4
          clear_value v4
          extract_lets +onlyGivenNames v5
          have hv5 : OnlyChanges ps q v5 := by
            unfold v5
            with_reducible apply State.issue_only
            · exact hk.of rfl
            · assumption
          clear_value v5
          with_reducible refine OnlyChanges.foldl ?_ ?_
          · with_reducible apply OnlyChanges.upd_gfe
            · exact hk.of rfl
            · assumption
            · exact fun _ => rfl
          · intro x1 x2 x3
            with_reducible apply State.withdrawLaunch_only
            · exact hk.of rfl
            · assumption

theorem execPatchList_only {ps : List Part} {q s : State} (hk : Within [.reg, .chans, .cqs, .accts, .gfe, .frames, .objs, .place, .host, .fab, .integ, .icnt, .out, .tests] ps) (hq : OnlyChanges ps q s) (n : Node) : RunsOnly ps q (execPatchList n s) := by
  unfold execPatchList
  with_reducible apply RunsOnly.done
  · exact hk.of rfl
  · with_reducible apply State.gfeHead_only
    · exact hk.of rfl
    · assumption
    · intro x1 x2 x3
      with_reducible apply State.runPatchList_only
      · exact hk
      · assumption

theorem State.writeObj_only {ps : List Part} {q s : State} (hk : Within [.reg, .mem, .frames, .objs, .place, .host, .integ, .icnt, .out] ps) (hq : OnlyChanges ps q s) (h : Nat) (off : Nat) (cls : Nat) (bytes : List Byte) : OnlyChanges ps q (State.writeObj s h off cls bytes) := by
  unfold State.writeObj
  split
  · assumption
  · with_reducible refine OnlyChanges.ite ?_ ?_
    · with_reducible apply State.rewriteTile_only
      · exact hk
      · assumption
    · with_reducible apply State.writeBytes_only
      · exact hk.of rfl
      · assumption

theorem State.applyPatch_only {ps : List Part} {q s : State} (hk : Within [.reg, .mem, .frames, .objs, .place, .host, .integ, .icnt, .out] ps) (hq : OnlyChanges ps q s) (p : Patch) : OnlyChanges ps q (State.applyPatch s p) := by
  unfold State.applyPatch
  extract_lets +onlyGivenNames v1
  have hv1 : OnlyChanges ps q v1 := by
    unfold v1
    with_reducible refine OnlyChanges.foldl ?_ ?_
    · assumption
    · intro x2 x3 x4
      with_reducible apply State.writeObj_only
      · exact hk
      · assumption
  clear_value v1
  with_reducible refine OnlyChanges.foldl ?_ ?_
  · assumption
  · intro x5 x6 x7
    with_reducible refine OnlyChanges.ite ?_ ?_
    · assumption
    · extract_lets +onlyGivenNames v8
      clear_value v8
      with_reducible apply State.writeObj_only
      · exact hk
      · assumption

theorem State.issueLaunches_only {ps : List Part} {q s : State} (hk : Within [.reg, .chans, .cqs, .accts, .gfe, .objs, .host, .fab, .out] ps) (hq : OnlyChanges ps q s) (hs : List Nat) : OnlyChanges ps q (State.issueLaunches s hs) := by
  unfold State.issueLaunches
  with_reducible refine OnlyChanges.foldl ?_ ?_
  · assumption
  · intro x1 x2 x3
    with_reducible apply State.gfeHead_only
    · exact hk
    · assumption
    · intro x4 x5 x6
      with_reducible apply State.runLaunchList_only
      · exact hk
      · assumption

theorem State.showPatches_only {ps : List Part} {q s : State} (hk : Within [.reg, .chans, .cqs, .accts, .gfe, .mem, .frames, .objs, .place, .host, .fab, .integ, .icnt, .out] ps) (hq : OnlyChanges ps q s) : OnlyChanges ps q (State.showPatches s) := by
  unfold State.showPatches
  extract_lets +onlyGivenNames v1
  clear_value v1
  extract_lets +onlyGivenNames v2
  have hv2 : OnlyChanges ps q v2 := by
    unfold v2
    with_reducible refine OnlyChanges.foldl ?_ ?_
    · assumption
    · intro x3 x4 x5
      with_reducible apply State.applyPatch_only
      · exact hk.of rfl
      · assumption
  clear_value v2
  extract_lets +onlyGivenNames v6
  extract_lets +onlyGivenNames v7
  have hv7 : OnlyChanges ps q v7 := by
    unfold v7
    with_reducible apply OnlyChanges.upd_gfe
    · exact hk.of rfl
    · assumption
    · exact fun _ => rfl
  clear_value v7
  with_reducible refine OnlyChanges.foldl ?_ ?_
  · assumption
  · intro x8 x9 x10
    split
    · with_reducible apply State.endCmd_only
      · exact hk.of rfl
      · assumption
    · assumption

theorem State.placeOut_only {ps : List Part} {q s : State} (hk : Within [.accts, .mem, .frames, .place] ps) (hq : OnlyChanges ps q s) (d : Cmd) (clu : Nat) (l : List OutTile) :
    OnlyP ps q (State.placeOut s d clu l) := by
  induction l generalizing s with
  | nil => exact OnlyP.some hq
  | cons t rest ih =>
    rw [State.placeOut]
    split
    · exact OnlyP.none
    · rename_i f s1 h1
      have hs : OnlyChanges ps q s1 := (State.allocShadow_only (hk.of rfl) hq _ _ _ _).use h1
      extract_lets fmt s2
      have h2 : OnlyChanges ps q s2 := State.engineWrite_only (hk.of rfl) (State.writeFrame_only (hk.of rfl) hs _ _ _ _ _ _) _ _ _ _
      split
      · exact OnlyP.none
      · rename_i h3
        exact OnlyP.some ((ih h2).use h3)

theorem State.mergeAmax_only {ps : List Part} {q s : State} (hk : Within [.scales] ps) (hq : OnlyChanges ps q s) (k : Nat) (v : W32) : OnlyChanges ps q (State.mergeAmax s k v) := by
  unfold State.mergeAmax
  with_reducible apply State.setScale_only
  · exact hk
  · assumption

theorem State.runScaleSet_only {ps : List Part} {q s : State} (hk : Within [.reg, .chans, .cqs, .accts, .gfe, .objs, .host, .fab, .out] ps) (hq : OnlyChanges ps q s) (d : Cmd) : OnlyChanges ps q (State.runScaleSet s d) := by
  unfold State.runScaleSet
  split
  · with_reducible apply State.endNow_only
    · exact hk
    · assumption
  · extract_lets +onlyGivenNames v1
    clear_value v1
    extract_lets +onlyGivenNames v2
    clear_value v2
    extract_lets +onlyGivenNames v3
    have hv3 : OnlyChanges ps q v3 := by
      unfold v3
      with_reducible apply State.issue_only
      · exact hk.of rfl
      · assumption
    clear_value v3
    with_reducible apply OnlyChanges.upd_gfe
    · exact hk.of rfl
    · assumption
    · exact fun _ => rfl

theorem execScaleSet_only {ps : List Part} {q s : State} (hk : Within [.reg, .chans, .cqs, .accts, .gfe, .objs, .host, .fab, .out] ps) (hq : OnlyChanges ps q s) (n : Node) : RunsOnly ps q (execScaleSet n s) := by
  unfold execScaleSet
  with_reducible apply RunsOnly.done
  · exact hk.of rfl
  · with_reducible apply State.gfeHead_only
    · exact hk
    · assumption
    · intro x1 x2 x3
      with_reducible apply State.runScaleSet_only
      · exact hk
      · assumption

theorem State.applyScaleSet_only {ps : List Part} {q s : State} (hk : Within [.reg, .scales] ps) (hq : OnlyChanges ps q s) (x : ScaleStage) : OnlyChanges ps q (State.applyScaleSet s x) := by
  unfold State.applyScaleSet
  split
  · assumption
  · with_reducible refine OnlyChanges.foldl ?_ ?_
    · assumption
    · intro x1 x2 x3
      split
      · with_reducible apply State.regPut_only
        · exact hk.of rfl
        · assumption
      · with_reducible apply State.regPut_only
        · exact hk.of rfl
        · assumption
      · with_reducible apply State.setScale_only
        · exact hk.of rfl
        · assumption

theorem State.endScaleSets_only {ps : List Part} {q s : State} (hk : Within [.reg, .chans, .cqs, .accts, .gfe, .objs, .host, .fab, .out] ps) (hq : OnlyChanges ps q s) (xs : List ScaleStage) : OnlyChanges ps q (State.endScaleSets s xs) := by
  unfold State.endScaleSets
  with_reducible refine OnlyChanges.foldl ?_ ?_
  · assumption
  · intro x1 x2 x3
    split
    · with_reducible apply State.endCmd_only
      · exact hk
      · assumption
    · assumption

theorem State.latchT_only {ps : List Part} {q s : State} (hk : Within [.reg] ps) (hq : OnlyChanges ps q s) (k : Nat) (mask : Nat) (v : Nat) : OnlyChanges ps q (State.latchT s k mask v) := by
  unfold State.latchT
  with_reducible apply OnlyChanges.upd_reg
  · exact hk
  · assumption

theorem execGfeScaleClearHist_only {ps : List Part} {q s : State} (hk : Within [.reg] ps) (hq : OnlyChanges ps q s) (a : Acc) : RunsOnly ps q (execGfeScaleClearHist a s) := by
  unfold execGfeScaleClearHist
  with_reducible apply RunsOnly.done
  · exact hk
  · with_reducible refine OnlyChanges.ite ?_ ?_
    · assumption
    · with_reducible apply State.latchT_only
      · exact hk
      · assumption

theorem State.refund_only {ps : List Part} {q s : State} (hk : Within [.sup] ps) (hq : OnlyChanges ps q s) (k : Nat) : OnlyChanges ps q (State.refund s k) := by
  unfold State.refund
  with_reducible apply OnlyChanges.upd_sup
  · exact hk
  · assumption

theorem State.dropResv_only {ps : List Part} {q s : State} (hk : Within [.resvs] ps) (hq : OnlyChanges ps q s) (id : Nat) (n : Nat) : OnlyChanges ps q (State.dropResv s id n) := by
  unfold State.dropResv
  with_reducible apply OnlyChanges.upd_resvs
  · exact hk
  · assumption

theorem State.setRun_only {ps : List Part} {q s : State} (hk : Within [.clus] ps) (hq : OnlyChanges ps q s) (n : Nat) (r : Run) : OnlyChanges ps q (State.setRun s n r) := by
  unfold State.setRun
  with_reducible apply State.setClu_only
  · exact hk
  · assumption

theorem State.chargeRun_only {ps : List Part} {q s : State} (hk : Within [.accts] ps) (hq : OnlyChanges ps q s) (d : Cmd) (k : Nat) : OnlyChanges ps q (State.chargeRun s d k) := by
  unfold State.chargeRun
  extract_lets +onlyGivenNames v1
  clear_value v1
  split
  · with_reducible refine OnlyChanges.ite ?_ ?_
    · with_reducible refine OnlyChanges.foldl ?_ ?_
      · assumption
      · intro x2 x3 x4
        with_reducible apply State.chargeCyc_only
        · exact hk
        · assumption
    · with_reducible apply State.chargeCyc_only
      · exact hk
      · assumption
  · with_reducible apply State.chargeCyc_only
    · exact hk
    · assumption

theorem State.dropHost_only {ps : List Part} {q s : State} (hk : Within [.host] ps) (hq : OnlyChanges ps q s) (n : Nat) (id : Nat) : OnlyChanges ps q (State.dropHost s n id) := by
  unfold State.dropHost
  with_reducible apply OnlyChanges.upd_host
  · exact hk
  · assumption
  · exact fun _ => rfl

theorem State.leaveRun_only {ps : List Part} {q s : State} (hk : Within [.reg, .accts, .clus, .resvs, .frames, .host, .integ, .icnt, .sup, .out] ps) (hq : OnlyChanges ps q s) (n : Nat) (k : Nat) (lost : Bool) : OnlyChanges ps q (State.leaveRun s n k lost) := by
  unfold State.leaveRun
  split
  · with_reducible apply State.setClu_only
    · exact hk.of rfl
    · assumption
  · extract_lets +onlyGivenNames v1
    clear_value v1
    extract_lets +onlyGivenNames v2
    have hv2 : OnlyChanges ps q v2 := by
      unfold v2
      with_reducible apply State.chargeRun_only
      · exact hk.of rfl
      · with_reducible apply State.setClu_only
        · exact hk.of rfl
        · assumption
    clear_value v2
    extract_lets +onlyGivenNames v3
    clear_value v3
    extract_lets +onlyGivenNames v4
    have hv4 : OnlyChanges ps q v4 := by
      unfold v4
      with_reducible refine OnlyChanges.ite ?_ ?_
      · with_reducible apply State.setAcct_only
        · exact hk.of rfl
        · assumption
      · assumption
    clear_value v4
    with_reducible apply State.releaseReads_only
    · exact hk.of rfl
    · with_reducible apply State.dropHost_only
      · exact hk.of rfl
      · with_reducible apply State.dropResv_only
        · exact hk.of rfl
        · with_reducible apply State.refund_only
          · exact hk.of rfl
          · assumption

theorem State.stopRun_only {ps : List Part} {q s : State} (hk : Within [.reg, .accts, .clus, .resvs, .frames, .host, .integ, .icnt, .sup, .out] ps) (hq : OnlyChanges ps q s) (n : Nat) (k : Nat) (lost : Bool) : OnlyChanges ps q (State.stopRun s n k lost) := by
  unfold State.stopRun
  split
  · assumption
  · with_reducible apply State.leaveRun_only
    · exact hk
    · with_reducible apply State.freeShadows_only
      · exact hk.of rfl
      · assumption

theorem State.tidy_only {ps : List Part} {q s : State} (hk : Within [.reg, .chans, .cqs, .accts, .gfe, .frames, .objs, .place, .host, .fab, .integ, .icnt, .out] ps) (hq : OnlyChanges ps q s) : OnlyChanges ps q (State.tidy s) := by
  unfold State.tidy
  with_reducible apply State.settleMoves_only
  · exact hk.of rfl
  · with_reducible apply State.tryWants_only
    · exact hk.of rfl
    · with_reducible apply State.reapAll_only
      · exact hk.of rfl
      · assumption

theorem State.sendBack_only {ps : List Part} {q s : State} (hk : Within [.gfe] ps) (hq : OnlyChanges ps q s) (d : Cmd) : OnlyChanges ps q (State.sendBack s d) := by
  unfold State.sendBack
  with_reducible apply State.setCmd_only
  · exact hk
  · assumption

theorem State.noteClu_only {ps : List Part} {q s : State} (hk : Within [.gfe] ps) (hq : OnlyChanges ps q s) (id : Nat) (n : Nat) : OnlyChanges ps q (State.noteClu s id n) := by
  unfold State.noteClu
  with_reducible apply State.setExtra_only
  · exact hk
  · assumption

theorem State.noteRan_only {ps : List Part} {q s : State} (hk : Within [.gfe] ps) (hq : OnlyChanges ps q s) (id : Nat) (cs : List Nat) : OnlyChanges ps q (State.noteRan s id cs) := by
  unfold State.noteRan
  split
  · with_reducible apply State.noteClu_only
    · exact hk
    · assumption
  · assumption

theorem State.unqueue_only {ps : List Part} {q s : State} (hk : Within [.clus, .resvs, .sup] ps) (hq : OnlyChanges ps q s) (n : Nat) (id : Nat) : OnlyChanges ps q (State.unqueue s n id) := by
  unfold State.unqueue
  extract_lets +onlyGivenNames v1
  clear_value v1
  extract_lets +onlyGivenNames v2
  clear_value v2
  with_reducible apply State.dropResv_only
  · exact hk.of rfl
  · with_reducible apply State.refund_only
    · exact hk.of rfl
    · with_reducible apply State.setClu_only
      · exact hk.of rfl
      · assumption

theorem State.discardPair_only {ps : List Part} {q s : State} (hk : Within [.reg, .accts, .gfe, .clus, .resvs, .frames, .host, .integ, .icnt, .sup, .out] ps) (hq : OnlyChanges ps q s) (d : Cmd) (lost : Bool) : OnlyChanges ps q (State.discardPair s d lost) := by
  unfold State.discardPair
  split
  · assumption
  · extract_lets +onlyGivenNames v1
    have hv1 : OnlyChanges ps q v1 := by
      unfold v1
      with_reducible refine OnlyChanges.foldl ?_ ?_
      · assumption
      · intro x2 x3 x4
        extract_lets +onlyGivenNames v5
        have hv5 : OnlyChanges ps q v5 := by
          unfold v5
          with_reducible apply State.unqueue_only
          · exact hk.of rfl
          · assumption
        clear_value v5
        split
        · with_reducible refine OnlyChanges.ite ?_ ?_
          · with_reducible apply State.stopRun_only
            · exact hk.of rfl
            · assumption
          · assumption
        · assumption
    clear_value v1
    extract_lets +onlyGivenNames v6
    clear_value v6
    extract_lets +onlyGivenNames v7
    have hv7 : OnlyChanges ps q v7 := by
      unfold v7
      with_reducible apply State.freeShadows_only
      · exact hk.of rfl
      · assumption
    clear_value v7
    extract_lets +onlyGivenNames v8
    clear_value v8
    with_reducible apply State.releaseReads_only
    · exact hk.of rfl
    · with_reducible apply State.sendBack_only
      · exact hk.of rfl
      · with_reducible apply State.noteRan_only
        · exact hk.of rfl
        · assumption

theorem State.trigger_only {ps : List Part} {q s : State} (hk : Within [.reg, .accts, .gfe, .clus, .resvs, .frames, .host, .integ, .icnt, .sup, .out] ps) (hq : OnlyChanges ps q s) (n : Nat) (cause : Nat) : OnlyChanges ps q (State.trigger s n cause) := by
  unfold State.trigger
  split
  · assumption
  · extract_lets +onlyGivenNames v1
    have hv1 : OnlyChanges ps q v1 := by
      unfold v1
      with_reducible apply State.noteClu_only
      · exact hk.of rfl
      · with_reducible apply State.stopRun_only
        · exact hk.of rfl
        · assumption
    clear_value v1
    split
    · with_reducible refine OnlyChanges.ite ?_ ?_
      · with_reducible apply State.setCmd_only
        · exact hk.of rfl
        · assumption
      · with_reducible apply State.sendBack_only
        · exact hk.of rfl
        · assumption
    · extract_lets +onlyGivenNames v2
      clear_value v2
      with_reducible apply State.sendBack_only
      · exact hk.of rfl
      · assumption

theorem State.stopWith_only {ps : List Part} {q s : State} (hk : Within [.reg, .chans, .cqs, .accts, .gfe, .clus, .resvs, .frames, .objs, .place, .host, .fab, .integ, .icnt, .sup, .out] ps) (hq : OnlyChanges ps q s) (n : Nat) (status : Nat) (a : Nat) (b : Nat) : OnlyChanges ps q (State.stopWith s n status a b) := by
  unfold State.stopWith
  split
  · assumption
  · extract_lets +onlyGivenNames v1
    have hv1 : OnlyChanges ps q v1 := by
      unfold v1
      with_reducible apply State.stopRun_only
      · exact hk.of rfl
      · assumption
    clear_value v1
    split
    · with_reducible refine OnlyChanges.ite ?_ ?_
      · with_reducible apply State.setCmd_only
        · exact hk.of rfl
        · assumption
      · with_reducible apply State.tidy_only
        · exact hk.of rfl
        · with_reducible apply State.endCmd_only
          · exact hk.of rfl
          · with_reducible apply State.noteClu_only
            · exact hk.of rfl
            · assumption
    · with_reducible apply State.tidy_only
      · exact hk.of rfl
      · with_reducible apply State.endCmd_only
        · exact hk.of rfl
        · with_reducible apply State.noteClu_only
          · exact hk.of rfl
          · assumption

theorem State.stopFound_only {ps : List Part} {q s : State} (hk : Within [.reg, .chans, .cqs, .accts, .gfe, .clus, .resvs, .frames, .objs, .place, .host, .fab, .integ, .icnt, .sup, .out, .tests] ps) (hq : OnlyChanges ps q s) (n : Nat) (d : Cmd) (x : Nat × Nat × Nat) : OnlyChanges ps q (State.stopFound s n d x) := by
  unfold State.stopFound
  with_reducible apply State.stopWith_only
  · exact hk.of rfl
  · with_reducible refine OnlyChanges.ite ?_ ?_
    · with_reducible apply State.poisonIfBad_only
      · exact hk.of rfl
      · assumption
    · assumption

theorem State.defer_only {ps : List Part} {q s : State} (hk : Within [.reg, .accts, .gfe, .clus, .resvs, .frames, .host, .integ, .icnt, .sup, .out] ps) (hq : OnlyChanges ps q s) (n : Nat) (id : Nat) : OnlyChanges ps q (State.defer s n id) := by
  unfold State.defer
  split
  · with_reducible apply State.unqueue_only
    · exact hk.of rfl
    · assumption
  · extract_lets +onlyGivenNames v1
    clear_value v1
    extract_lets +onlyGivenNames v2
    have hv2 : OnlyChanges ps q v2 := by
      unfold v2
      with_reducible apply State.setClu_only
      · exact hk.of rfl
      · assumption
    clear_value v2
    with_reducible refine OnlyChanges.ite ?_ ?_
    · with_reducible apply State.discardPair_only
      · exact hk
      · assumption
    · with_reducible apply State.sendBack_only
      · exact hk.of rfl
      · with_reducible apply State.unqueue_only
        · exact hk.of rfl
        · assumption

theorem State.deferAll_only {ps : List Part} {q s : State} (hk : Within [.reg, .accts, .gfe, .clus, .resvs, .frames, .host, .integ, .icnt, .sup, .out] ps) (hq : OnlyChanges ps q s) (n : Nat) : OnlyChanges ps q (State.deferAll s n) := by
  unfold State.deferAll
  with_reducible refine OnlyChanges.foldl ?_ ?_
  · assumption
  · intro x1 x2 x3
    with_reducible apply State.defer_only
    · exact hk
    · assumption

theorem State.overrun_only {ps : List Part} {q s : State} (hk : Within [.reg, .chans, .cqs, .accts, .gfe, .clus, .resvs, .frames, .objs, .place, .host, .fab, .integ, .icnt, .sup, .out] ps) (hq : OnlyChanges ps q s) (n : Nat) : OnlyChanges ps q (State.overrun s n) := by
  unfold State.overrun
  split
  · assumption
  · extract_lets +onlyGivenNames v1
    clear_value v1
    with_reducible refine OnlyChanges.ite ?_ ?_
    · extract_lets +onlyGivenNames v2
      clear_value v2
      with_reducible apply State.discardPair_only
      · exact hk.of rfl
      · with_reducible apply State.setClu_only
        · exact hk.of rfl
        · assumption
    · extract_lets +onlyGivenNames v3
      clear_value v3
      extract_lets +onlyGivenNames v4
      have hv4 : OnlyChanges ps q v4 := by
        unfold v4
        with_reducible apply State.setClu_only
        · exact hk.of rfl
        · assumption
      clear_value v4
      extract_lets +onlyGivenNames v5
      have hv5 : OnlyChanges ps q v5 := by
        unfold v5
        with_reducible refine OnlyChanges.ite ?_ ?_
        · with_reducible apply State.discardPair_only
          · exact hk.of rfl
          · assumption
        · with_reducible apply State.stopRun_only
          · exact hk.of rfl
          · assumption
      clear_value v5
      extract_lets +onlyGivenNames v6
      clear_value v6
      with_reducible apply State.tidy_only
      · exact hk.of rfl
      · with_reducible apply State.raise_only
        · exact hk.of rfl
        · with_reducible apply State.endCmd_only
          · exact hk.of rfl
          · with_reducible apply State.noteClu_only
            · exact hk.of rfl
            · assumption

theorem State.overrunPair_only {ps : List Part} {q s : State} (hk : Within [.reg, .chans, .cqs, .accts, .gfe, .clus, .resvs, .frames, .objs, .place, .host, .fab, .integ, .icnt, .sup, .out] ps) (hq : OnlyChanges ps q s) (id : Nat) : OnlyChanges ps q (State.overrunPair s id) := by
  unfold State.overrunPair
  split
  · assumption
  · split
    · assumption
    · with_reducible refine OnlyChanges.ite ?_ ?_
      · assumption
      · extract_lets +onlyGivenNames v1
        clear_value v1
        extract_lets +onlyGivenNames v2
        have hv2 : OnlyChanges ps q v2 := by
          unfold v2
          with_reducible apply State.discardPair_only
          · exact hk.of rfl
          · with_reducible apply State.setClu_only
            · exact hk.of rfl
            · assumption
        clear_value v2
        with_reducible apply State.tidy_only
        · exact hk.of rfl
        · with_reducible apply State.raise_only
          · exact hk.of rfl
          · with_reducible apply State.endCmd_only
            · exact hk.of rfl
            · with_reducible apply State.noteClu_only
              · exact hk.of rfl
              · assumption

theorem State.preempt_only {ps : List Part} {q s : State} (hk : Within [.reg, .chans, .cqs, .accts, .gfe, .clus, .resvs, .frames, .objs, .place, .host, .fab, .integ, .icnt, .sup, .out] ps) (hq : OnlyChanges ps q s) (n : Nat) (space : Bool) : OnlyChanges ps q (State.preempt s n space) := by
  unfold State.preempt
  split
  · assumption
  · extract_lets +onlyGivenNames v1
    clear_value v1
    extract_lets +onlyGivenNames v2
    clear_value v2
    extract_lets +onlyGivenNames v3
    have hv3 : OnlyChanges ps q v3 := by
      unfold v3
      with_reducible apply State.setClu_only
      · exact hk.of rfl
      · with_reducible apply State.setAcct_only
        · exact hk.of rfl
        · assumption
    clear_value v3
    with_reducible refine OnlyChanges.ite ?_ ?_
    · extract_lets +onlyGivenNames v4
      have hv4 : OnlyChanges ps q v4 := by
        unfold v4
        with_reducible refine OnlyChanges.ite ?_ ?_
        · with_reducible apply State.discardPair_only
          · exact hk.of rfl
          · assumption
        · with_reducible apply State.stopRun_only
          · exact hk.of rfl
          · assumption
      clear_value v4
      with_reducible apply State.tidy_only
      · exact hk.of rfl
      · with_reducible apply State.endCmd_only
        · exact hk.of rfl
        · with_reducible apply State.noteClu_only
          · exact hk.of rfl
          · assumption
    · with_reducible refine OnlyChanges.ite ?_ ?_
      · with_reducible apply State.discardPair_only
        · exact hk.of rfl
        · assumption
      · with_reducible apply State.sendBack_only
        · exact hk.of rfl
        · with_reducible apply State.noteClu_only
          · exact hk.of rfl
          · with_reducible apply State.stopRun_only
            · exact hk.of rfl
            · assumption

theorem State.captureSr_only {ps : List Part} {q s : State} (hk : Within [.reg, .gfe] ps) (hq : OnlyChanges ps q s) (d : Cmd) (n : Nat) : OnlyChanges ps q (State.captureSr s d n) := by
  unfold State.captureSr
  extract_lets +onlyGivenNames v1
  clear_value v1
  with_reducible refine OnlyChanges.ite ?_ ?_
  · extract_lets +onlyGivenNames v2
    clear_value v2
    extract_lets +onlyGivenNames v3
    clear_value v3
    extract_lets +onlyGivenNames v4
    have hv4 : OnlyChanges ps q v4 := by
      unfold v4
      with_reducible apply State.setExtra_only
      · exact hk.of rfl
      · assumption
    clear_value v4
    with_reducible apply State.regPut_only
    · exact hk.of rfl
    · assumption
  · assumption

theorem State.takeSeqs_only {ps : List Part} {q s : State} (hk : Within [.gfe, .objs] ps) (hq : OnlyChanges ps q s) (d : Cmd) : OnlyChanges ps q (State.takeSeqs s d) := by
  unfold State.takeSeqs
  with_reducible refine OnlyChanges.ite ?_ ?_
  · assumption
  · with_reducible refine OnlyChanges.foldl ?_ ?_
    · assumption
    · intro x1 x2 x3
      split
      · with_reducible refine OnlyChanges.ite ?_ ?_
        · extract_lets +onlyGivenNames v4
          clear_value v4
          with_reducible apply State.setExtra_only
          · exact hk.of rfl
          · with_reducible apply State.setObj_only
            · exact hk.of rfl
            · assumption
        · assumption
      · assumption

theorem State.startRun_only {ps : List Part} {q s : State} (hk : Within [.reg, .gfe, .clus, .objs] ps) (hq : OnlyChanges ps q s) (n : Nat) (d : Cmd) (charge : Nat) : OnlyChanges ps q (State.startRun s n d charge) := by
  unfold State.startRun
  extract_lets +onlyGivenNames v1
  clear_value v1
  extract_lets +onlyGivenNames v2
  clear_value v2
  extract_lets +onlyGivenNames v3
  clear_value v3
  extract_lets +onlyGivenNames v4
  have hv4 : OnlyChanges ps q v4 := by
    unfold v4
    with_reducible apply State.setCmd_only
    · exact hk.of rfl
    · with_reducible apply State.setClu_only
      · exact hk.of rfl
      · assumption
  clear_value v4
  with_reducible apply State.takeSeqs_only
  · exact hk.of rfl
  · with_reducible apply State.captureSr_only
    · exact hk.of rfl
    · assumption

theorem execCommandStart_only {ps : List Part} {q s : State} (hk : Within [.reg, .accts, .gfe, .clus, .resvs, .frames, .objs, .host, .integ, .icnt, .sup, .out] ps) (hq : OnlyChanges ps q s) (clu : Nat) : RunsOnly ps q (execCommandStart clu s) := by
  unfold execCommandStart
  with_reducible apply RunsOnly.done
  · exact hk.of rfl
  · extract_lets +onlyGivenNames v1
    clear_value v1
    split
    · assumption
    · with_reducible refine OnlyChanges.ite ?_ ?_
      · assumption
      · with_reducible refine OnlyChanges.ite ?_ ?_
        · with_reducible apply State.defer_only
          · exact hk.of rfl
          · assumption
        · split
          · with_reducible apply State.unqueue_only
            · exact hk.of rfl
            · assumption
          · with_reducible apply State.startRun_only
            · exact hk.of rfl
            · assumption

theorem State.readTiles_only {ps : List Part} {q s : State} (hk : Within [.accts, .frames, .place] ps) (hq : OnlyChanges ps q s) (d : Cmd) (n : Nat) (ts : List (Nat × Nat)) : OnlyChanges ps q (State.readTiles s d n ts) := by
  unfold State.readTiles
  with_reducible refine OnlyChanges.foldl ?_ ?_
  · assumption
  · intro x1 x2 x3
    with_reducible apply State.engineRead_only
    · exact hk
    · assumption

theorem State.readRows_only {ps : List Part} {q s : State} (hk : Within [.accts, .frames, .place] ps) (hq : OnlyChanges ps q s) (d : Cmd) (n : Nat) (b : Nat) (rows : List (Nat × Nat × Nat)) : OnlyChanges ps q (State.readRows s d n b rows) := by
  unfold State.readRows
  with_reducible refine OnlyChanges.foldl ?_ ?_
  · assumption
  · intro x1 x2 x3
    split
    · with_reducible apply State.engineRead_only
      · exact hk
      · assumption
    · assumption

theorem State.prepare_only {ps : List Part} {q s : State} (hk : Within [.clus] ps) (hq : OnlyChanges ps q s) (n : Nat) (r : Run) (reads : List Nat) (checks : List Check) (work : Option RunWork) (due : Nat) : OnlyChanges ps q (State.prepare s n r reads checks work due) := by
  unfold State.prepare
  with_reducible apply State.setRun_only
  · exact hk
  · assumption

theorem State.finishWork_only {ps : List Part} {q s : State} (hk : Within [.reg, .chans, .cqs, .accts, .gfe, .clus, .resvs, .mem, .frames, .objs, .place, .host, .fab, .integ, .icnt, .sup, .out] ps) (hq : OnlyChanges ps q s) (n : Nat) (d : Cmd) (outs : List OutTile) (w : RunWork) : OnlyChanges ps q (State.finishWork s n d outs w) := by
  unfold State.finishWork
  split
  · with_reducible apply State.stopWith_only
    · exact hk.of rfl
    · assumption
  · split
    · with_reducible apply State.setRun_only
      · exact hk.of rfl
      · with_reducible refine OnlyP.use ?_ (by assumption)
        with_reducible apply State.placeOut_only
        · exact hk.of rfl
        · with_reducible apply State.dropResv_only
          · exact hk.of rfl
          · assumption
    · with_reducible refine OnlyP.use ?_ (by assumption)
      with_reducible apply State.placeOut_only
      · exact hk.of rfl
      · with_reducible apply State.dropResv_only
        · exact hk.of rfl
        · assumption

theorem State.consume_only {ps : List Part} {q s : State} (hk : Within [.reg, .host, .out] ps) (hq : OnlyChanges ps q s) (n : Nat) (reg : Nat) (status : Nat) : OnlyChanges ps q (State.consume s n reg status) := by
  unfold State.consume
  with_reducible apply State.raise_only
  · exact hk
  · with_reducible apply State.fldPut_only
    · exact hk.of rfl
    · assumption

end Sys2Proof.Machine
end

