-- ==== Sys2Proof/Laws/FrameUnits.lean ====
section
/-! SUPPORT. What may change (`OnlyChanges`), for streams, host commands, the matrix and vector units, resolution and tables. -/

namespace Sys2Proof.Machine
open Sys2Proof

theorem State.stopStream_only {ps : List Part} {q s : State} (hk : Within [.reg, .frames, .streams, .xfers, .host, .integ, .icnt, .out] ps) (hq : OnlyChanges ps q s) (n : Nat) (ix : Nat) : OnlyChanges ps q (State.stopStream s n ix) := by
  unfold State.stopStream
  extract_lets +onlyGivenNames v1
  clear_value v1
  extract_lets +onlyGivenNames v2
  have hv2 : OnlyChanges ps q v2 := by
    unfold v2
    with_reducible apply State.freeShadows_only
    · exact hk.of rfl
    · assumption
  clear_value v2
  extract_lets +onlyGivenNames v3
  have hv3 : OnlyChanges ps q v3 := by
    unfold v3
    with_reducible apply State.setStream_only
    · exact hk.of rfl
    · assumption
  clear_value v3
  with_reducible apply OnlyChanges.upd_xfers
  · exact hk.of rfl
  · assumption

theorem State.disarm_only {ps : List Part} {q s : State} (hk : Within [.reg, .frames, .streams, .xfers, .host, .integ, .icnt, .out] ps) (hq : OnlyChanges ps q s) (n : Nat) (ix : Nat) : OnlyChanges ps q (State.disarm s n ix) := by
  unfold State.disarm
  extract_lets +onlyGivenNames v1
  clear_value v1
  with_reducible refine OnlyChanges.ite ?_ ?_
  · extract_lets +onlyGivenNames v2
    have hv2 : OnlyChanges ps q v2 := by
      unfold v2
      with_reducible apply State.stopStream_only
      · exact hk
      · assumption
    clear_value v2
    extract_lets +onlyGivenNames v3
    clear_value v3
    with_reducible apply State.setStream_only
    · exact hk.of rfl
    · assumption
  · assumption

theorem State.faultStream_only {ps : List Part} {q s : State} (hk : Within [.reg, .frames, .streams, .xfers, .host, .integ, .icnt, .out] ps) (hq : OnlyChanges ps q s) (n : Nat) (ix : Nat) (cause : Nat) (tile : Nat) : OnlyChanges ps q (State.faultStream s n ix cause tile) := by
  unfold State.faultStream
  extract_lets +onlyGivenNames v1
  have hv1 : OnlyChanges ps q v1 := by
    unfold v1
    with_reducible apply State.stopStream_only
    · exact hk
    · assumption
  clear_value v1
  with_reducible apply State.raise_only
  · exact hk.of rfl
  · with_reducible apply State.setStream_only
    · exact hk.of rfl
    · assumption

theorem State.faultClu_only {ps : List Part} {q s : State} (hk : Within [.reg, .frames, .streams, .xfers, .host, .integ, .icnt, .out] ps) (hq : OnlyChanges ps q s) (n : Nat) : OnlyChanges ps q (State.faultClu s n) := by
  unfold State.faultClu
  with_reducible refine OnlyChanges.foldl ?_ ?_
  · assumption
  · intro x1 x2 x3
    with_reducible refine OnlyChanges.ite ?_ ?_
    · with_reducible apply State.faultStream_only
      · exact hk
      · assumption
    · assumption

theorem State.armFlip_only {ps : List Part} {q s : State} (hk : Within [.streams] ps) (hq : OnlyChanges ps q s) (d : Cmd) : OnlyChanges ps q (State.armFlip s d).1 := by
  unfold State.armFlip
  extract_lets +onlyGivenNames v1
  clear_value v1
  extract_lets +onlyGivenNames v2
  clear_value v2
  split
  · assumption
  · dsimp only
    with_reducible apply State.setStream_only
    · exact hk
    · assumption

theorem State.rearmFlip_only {ps : List Part} {q s : State} (hk : Within [.reg, .frames, .streams, .xfers, .host, .integ, .icnt, .out] ps) (hq : OnlyChanges ps q s) (d : Cmd) : OnlyChanges ps q (State.rearmFlip s d).1 := by
  unfold State.rearmFlip
  extract_lets +onlyGivenNames v1
  clear_value v1
  extract_lets +onlyGivenNames v2
  clear_value v2
  extract_lets +onlyGivenNames v3
  clear_value v3
  extract_lets +onlyGivenNames v4
  clear_value v4
  split
  · dsimp only
    with_reducible apply State.disarm_only
    · exact hk
    · assumption
  · split
    · split
      · assumption
      · dsimp only
        with_reducible apply State.setStream_only
        · exact hk.of rfl
        · assumption
    · dsimp only
      with_reducible apply State.setStream_only
      · exact hk.of rfl
      · assumption
    · assumption

theorem State.streamFlip_only {ps : List Part} {q s : State} (hk : Within [.reg, .frames, .streams, .xfers, .host, .integ, .icnt, .out] ps) (hq : OnlyChanges ps q s) (d : Cmd) : OnlyChanges ps q (State.streamFlip s d).1 := by
  unfold State.streamFlip
  split
  · with_reducible apply State.armFlip_only
    · exact hk.of rfl
    · assumption
  · with_reducible apply State.rearmFlip_only
    · exact hk
    · assumption

theorem State.runStreamCmd_only {ps : List Part} {q s : State} (hk : Within [.clus] ps) (hq : OnlyChanges ps q s) (n : Nat) (op : Nat) : OnlyChanges ps q (State.runStreamCmd s n op) := by
  unfold State.runStreamCmd
  split
  · assumption
  · with_reducible apply State.prepare_only
    · exact hk
    · assumption

theorem execStreamArm_only {ps : List Part} {q s : State} (hk : Within [.reg, .clus] ps) (hq : OnlyChanges ps q s) (clu : Nat) : RunsOnly ps q (execStreamArm clu s) := by
  unfold execStreamArm
  with_reducible apply RunsOnly.done
  · exact hk.of rfl
  · with_reducible apply State.runStreamCmd_only
    · exact hk.of rfl
    · assumption

theorem execStreamRearm_only {ps : List Part} {q s : State} (hk : Within [.reg, .clus] ps) (hq : OnlyChanges ps q s) (clu : Nat) : RunsOnly ps q (execStreamRearm clu s) := by
  unfold execStreamRearm
  with_reducible apply RunsOnly.done
  · exact hk.of rfl
  · with_reducible apply State.runStreamCmd_only
    · exact hk.of rfl
    · assumption

theorem State.beginFill_only {ps : List Part} {q s : State} (hk : Within [.frames, .objs, .streams] ps) (hq : OnlyChanges ps q s) (n : Nat) (ix : Nat) (o : Obj) (hs : List Shadow) : OnlyChanges ps q (State.beginFill s n ix o hs) := by
  unfold State.beginFill
  extract_lets +onlyGivenNames v1
  clear_value v1
  extract_lets +onlyGivenNames v2
  clear_value v2
  split
  · assumption
  · extract_lets +onlyGivenNames v3
    clear_value v3
    extract_lets +onlyGivenNames v4
    clear_value v4
    extract_lets +onlyGivenNames v5
    have hv5 : OnlyChanges ps q v5 := by
      unfold v5
      with_reducible refine OnlyChanges.foldl ?_ ?_
      · assumption
      · intro x6 x7 x8
        with_reducible apply State.takeShadow_only
        · exact hk.of rfl
        · assumption
    clear_value v5
    extract_lets +onlyGivenNames v9
    have hv9 : OnlyChanges ps q v9 := by
      unfold v9
      with_reducible refine OnlyChanges.ite ?_ ?_
      · with_reducible apply State.setObj_only
        · exact hk.of rfl
        · assumption
      · assumption
    clear_value v9
    extract_lets +onlyGivenNames v10
    clear_value v10
    with_reducible apply State.setStream_only
    · exact hk.of rfl
    · assumption

theorem State.noteIssue_only {ps : List Part} {q s : State} (hk : Within [.clus] ps) (hq : OnlyChanges ps q s) (n : Nat) : OnlyChanges ps q (State.noteIssue s n) := by
  unfold State.noteIssue
  with_reducible apply State.setClu_only
  · exact hk
  · assumption

theorem State.issueFar_only {ps : List Part} {q s : State} (hk : Within [.reg, .frames, .place, .host, .integ, .icnt, .out] ps) (hq : OnlyChanges ps q s) (t : Stream) (x : Nat × Nat) (g : Nat) : OnlyChanges ps q (State.issueFar s t x g) := by
  unfold State.issueFar
  extract_lets +onlyGivenNames v1
  clear_value v1
  with_reducible apply State.wantFetch_only
  · exact hk
  · with_reducible apply OnlyChanges.upd_place
    · exact hk.of rfl
    · assumption

theorem State.issueXfer_only {ps : List Part} {q s : State} (hk : Within [.reg, .clus, .frames, .place, .streams, .xfers, .host, .integ, .icnt, .out] ps) (hq : OnlyChanges ps q s) (n : Nat) (ix : Nat) (o : Obj) : OnlyChanges ps q (State.issueXfer s n ix o) := by
  unfold State.issueXfer
  extract_lets +onlyGivenNames v1
  clear_value v1
  split
  · assumption
  · extract_lets +onlyGivenNames v2
    clear_value v2
    split
    · with_reducible apply State.faultStream_only
      · exact hk.of rfl
      · assumption
    · extract_lets +onlyGivenNames v3
      clear_value v3
      extract_lets +onlyGivenNames v4
      clear_value v4
      extract_lets +onlyGivenNames v5
      have hv5 : OnlyChanges ps q v5 := by
        unfold v5
        with_reducible apply State.setStream_only
        · exact hk.of rfl
        · assumption
      clear_value v5
      extract_lets +onlyGivenNames v6
      have hv6 : OnlyChanges ps q v6 := by
        unfold v6
        with_reducible apply State.noteIssue_only
        · exact hk.of rfl
        · assumption
      clear_value v6
      extract_lets +onlyGivenNames v7
      have hv7 : OnlyChanges ps q v7 := by
        unfold v7
        with_reducible apply OnlyChanges.upd_xfers
        · exact hk.of rfl
        · assumption
      clear_value v7
      with_reducible refine OnlyChanges.ite ?_ ?_
      · with_reducible apply State.issueFar_only
        · exact hk.of rfl
        · assumption
      · assumption

theorem State.streamIssue_only {ps : List Part} {q s : State} (hk : Within [.reg, .clus, .frames, .objs, .place, .streams, .xfers, .host, .integ, .icnt, .out] ps) (hq : OnlyChanges ps q s) (n : Nat) : OnlyChanges ps q (State.streamIssue s n) := by
  unfold State.streamIssue
  with_reducible refine OnlyChanges.ite ?_ ?_
  · assumption
  · split
    · assumption
    · extract_lets +onlyGivenNames v1
      clear_value v1
      extract_lets +onlyGivenNames v2
      clear_value v2
      split
      · with_reducible apply State.faultStream_only
        · exact hk.of rfl
        · assumption
      · split
        · with_reducible apply State.issueXfer_only
          · exact hk.of rfl
          · assumption
        · split
          · assumption
          · with_reducible apply State.issueXfer_only
            · exact hk.of rfl
            · with_reducible apply State.beginFill_only
              · exact hk.of rfl
              · assumption

theorem State.writeFill_only {ps : List Part} {q s : State} (hk : Within [.mem, .freeCtr] ps) (hq : OnlyChanges ps q s) (b : List Byte) (f : StrFill) : OnlyChanges ps q (State.writeFill s b f) := by
  unfold State.writeFill
  split
  · extract_lets +onlyGivenNames v1
    have hv1 : OnlyChanges ps q v1 := by
      unfold v1
      with_reducible refine OnlyChanges.foldl ?_ ?_
      · assumption
      · intro x2 x3 x4
        extract_lets +onlyGivenNames v5
        clear_value v5
        with_reducible apply State.writeFrame_only
        · exact hk.of rfl
        · assumption
    clear_value v1
    with_reducible refine OnlyChanges.ite ?_ ?_
    · with_reducible apply OnlyChanges.upd_freeCtr
      · exact hk.of rfl
      · assumption
    · assumption
  · assumption

theorem State.commitFill_only {ps : List Part} {q s : State} (hk : Within [.reg, .chans, .cqs, .accts, .gfe, .mem, .frames, .objs, .place, .streams, .host, .fab, .integ, .icnt, .out, .freeCtr, .fences] ps) (hq : OnlyChanges ps q s) (n : Nat) (ix : Nat) (f : StrFill) : OnlyChanges ps q (State.commitFill s n ix f) := by
  unfold State.commitFill
  extract_lets +onlyGivenNames v1
  extract_lets +onlyGivenNames v2
  clear_value v2
  extract_lets +onlyGivenNames v3
  clear_value v3
  extract_lets +onlyGivenNames v4
  have hv4 : OnlyChanges ps q v4 := by
    unfold v4
    with_reducible apply State.flipAll_only
    · exact hk.of rfl
    · with_reducible apply State.writeFill_only
      · exact hk.of rfl
      · assumption
  clear_value v4
  extract_lets +onlyGivenNames v5
  extract_lets +onlyGivenNames v6
  clear_value v6
  extract_lets +onlyGivenNames v7
  have hv7 : OnlyChanges ps q v7 := by
    unfold v7
    with_reducible apply State.setStream_only
    · exact hk.of rfl
    · assumption
  clear_value v7
  extract_lets +onlyGivenNames v8
  have hv8 : OnlyChanges ps q v8 := by
    unfold v8
    with_reducible refine OnlyChanges.ite ?_ ?_
    · with_reducible apply State.raise_only
      · exact hk.of rfl
      · assumption
    · assumption
  clear_value v8
  extract_lets +onlyGivenNames v9
  have hv9 : OnlyChanges ps q v9 := by
    unfold v9
    with_reducible refine OnlyChanges.ite ?_ ?_
    · with_reducible apply State.raise_only
      · exact hk.of rfl
      · assumption
    · assumption
  clear_value v9
  extract_lets +onlyGivenNames v10
  clear_value v10
  with_reducible refine OnlyChanges.ite ?_ ?_
  · with_reducible apply State.setFenceVal_only
    · exact hk.of rfl
    · assumption
  · assumption

theorem State.dropXfer_only {ps : List Part} {q s : State} (hk : Within [.reg, .frames, .place, .streams, .xfers, .host, .integ, .icnt, .out] ps) (hq : OnlyChanges ps q s) (n : Nat) : OnlyChanges ps q (State.dropXfer s n) := by
  unfold State.dropXfer
  split
  · assumption
  · extract_lets +onlyGivenNames v1
    have hv1 : OnlyChanges ps q v1 := by
      unfold v1
      with_reducible apply State.releaseReads_only
      · exact hk.of rfl
      · with_reducible apply OnlyChanges.upd_xfers
        · exact hk.of rfl
        · assumption
    clear_value v1
    extract_lets +onlyGivenNames v2
    have hv2 : OnlyChanges ps q v2 := by
      unfold v2
      with_reducible refine OnlyChanges.ite ?_ ?_
      · with_reducible apply State.keepSlots_only
        · exact hk.of rfl
        · assumption
      · assumption
    clear_value v2
    with_reducible refine OnlyChanges.ite ?_ ?_
    · with_reducible apply State.setStream_only
      · exact hk.of rfl
      · assumption
    · assumption

theorem State.chargeXfer_only {ps : List Part} {q s : State} (hk : Within [.accts, .frames, .place] ps) (hq : OnlyChanges ps q s) (c : Nat) (gen : BitVec 20) (n : Nat) (f : Nat) : OnlyChanges ps q (State.chargeXfer s c gen n f) := by
  unfold State.chargeXfer
  with_reducible refine OnlyChanges.ite ?_ ?_
  · with_reducible apply State.touch_only
    · exact hk.of rfl
    · assumption
  · with_reducible apply State.noteXfer_only
    · exact hk.of rfl
    · with_reducible apply State.chargeCyc_only
      · exact hk.of rfl
      · with_reducible apply State.engineRead_only
        · exact hk
        · assumption

theorem State.readXfer_only {ps : List Part} {q s : State} (hk : Within [.reg, .chans, .cqs, .accts, .gfe, .mem, .frames, .objs, .place, .streams, .xfers, .host, .fab, .integ, .icnt, .out, .freeCtr, .fences, .tests] ps) (hq : OnlyChanges ps q s) (x : Xfer) (num : Nat) (g : Nat) (bad : Option PoisonCause) : OnlyChanges ps q (State.readXfer s x num g bad) := by
  unfold State.readXfer
  extract_lets +onlyGivenNames v1
  clear_value v1
  split
  · with_reducible apply State.dropXfer_only
    · exact hk.of rfl
    · assumption
  · extract_lets +onlyGivenNames v2
    clear_value v2
    extract_lets +onlyGivenNames v3
    clear_value v3
    with_reducible refine OnlyChanges.ite ?_ ?_
    · with_reducible apply State.dropXfer_only
      · exact hk.of rfl
      · with_reducible apply State.faultStream_only
        · exact hk.of rfl
        · assumption
    · split
      · with_reducible apply State.dropXfer_only
        · exact hk.of rfl
        · with_reducible apply State.faultStream_only
          · exact hk.of rfl
          · with_reducible refine OnlyChanges.ite ?_ ?_
            · with_reducible apply State.poisonFrame_only
              · exact hk.of rfl
              · assumption
            · assumption
      · extract_lets +onlyGivenNames v4
        clear_value v4
        extract_lets +onlyGivenNames v5
        have hv5 : OnlyChanges ps q v5 := by
          unfold v5
          with_reducible apply State.setStream_only
          · exact hk.of rfl
          · with_reducible apply State.chargeXfer_only
            · exact hk.of rfl
            · assumption
        clear_value v5
        extract_lets +onlyGivenNames v6
        clear_value v6
        split
        · with_reducible apply State.dropXfer_only
          · exact hk.of rfl
          · with_reducible apply State.faultStream_only
            · exact hk.of rfl
            · assumption
        · with_reducible refine OnlyChanges.ite ?_ ?_
          · with_reducible apply State.dropXfer_only
            · exact hk.of rfl
            · assumption
          · with_reducible refine OnlyChanges.ite ?_ ?_
            · with_reducible apply State.tidy_only
              · exact hk.of rfl
              · with_reducible apply State.commitFill_only
                · exact hk.of rfl
                · with_reducible apply State.dropXfer_only
                  · exact hk.of rfl
                  · assumption
            · assumption

theorem execStrCtrlDisarm_only {ps : List Part} {q s : State} (hk : Within [.reg, .frames, .streams, .xfers, .host, .integ, .icnt, .out] ps) (hq : OnlyChanges ps q s) (a : Acc) (clu : Nat) : RunsOnly ps q (execStrCtrlDisarm a clu s) := by
  unfold execStrCtrlDisarm
  with_reducible apply RunsOnly.done
  · exact hk.of rfl
  · with_reducible refine OnlyChanges.ite ?_ ?_
    · assumption
    · with_reducible apply State.disarm_only
      · exact hk
      · assumption

theorem State.runHostWrite_only {ps : List Part} {q s : State} (hk : Within [.reg, .chans, .cqs, .accts, .gfe, .clus, .resvs, .frames, .objs, .place, .host, .fab, .integ, .icnt, .sup, .out, .tests, .memWait] ps) (hq : OnlyChanges ps q s) (n : Nat) : OnlyChanges ps q (State.runHostWrite s n) := by
  unfold State.runHostWrite
  split
  · assumption
  · extract_lets +onlyGivenNames v1
    clear_value v1
    extract_lets +onlyGivenNames v2
    clear_value v2
    extract_lets +onlyGivenNames v3
    clear_value v3
    with_reducible refine OnlyChanges.ite ?_ ?_
    · assumption
    · with_reducible refine OnlyChanges.ite ?_ ?_
      · with_reducible apply State.fetchAll_only
        · exact hk.of rfl
        · assumption
      · split
        · with_reducible apply State.stopFound_only
          · exact hk.of rfl
          · assumption
        · extract_lets +onlyGivenNames v4
          clear_value v4
          extract_lets +onlyGivenNames v5
          have hv5 : OnlyChanges ps q v5 := by
            unfold v5
            with_reducible apply State.readTiles_only
            · exact hk.of rfl
            · assumption
          clear_value v5
          extract_lets +onlyGivenNames v6
          clear_value v6
          extract_lets +onlyGivenNames v7
          have hv7 : OnlyChanges ps q v7 := by
            unfold v7
            with_reducible apply OnlyChanges.upd_host
            · exact hk.of rfl
            · assumption
            · exact hk.no rfl
          clear_value v7
          with_reducible apply State.prepare_only
          · exact hk.of rfl
          · assumption

theorem execHostWrite_only {ps : List Part} {q s : State} (hk : Within [.reg, .chans, .cqs, .accts, .gfe, .clus, .resvs, .frames, .objs, .place, .host, .fab, .integ, .icnt, .sup, .out, .tests, .memWait] ps) (hq : OnlyChanges ps q s) (clu : Nat) : RunsOnly ps q (execHostWrite clu s) := by
  unfold execHostWrite
  with_reducible apply RunsOnly.done
  · exact hk.of rfl
  · with_reducible apply State.runHostWrite_only
    · exact hk
    · assumption

theorem State.releaseFabric_only {ps : List Part} {q s : State} (hk : Within [.accts, .fab, .out] ps) (hq : OnlyChanges ps q s) (d : Cmd) (o : Origin) (bytes : List Byte) : OnlyChanges ps q (State.releaseFabric s d o bytes) := by
  unfold State.releaseFabric
  with_reducible refine OnlyChanges.foldl ?_ ?_
  · assumption
  · intro x1 x2 x3
    with_reducible apply State.chargeBytes_only
    · exact hk.of rfl
    · with_reducible apply State.sendMsg_only
      · exact hk.of rfl
      · assumption

theorem State.beginCommit_only {ps : List Part} {q s : State} (hk : Within [.accts, .gfe, .clus, .host, .fab, .out] ps) (hq : OnlyChanges ps q s) (n : Nat) : OnlyChanges ps q (State.beginCommit s n) := by
  unfold State.beginCommit
  split
  · assumption
  · split
    · assumption
    · with_reducible refine OnlyChanges.ite ?_ ?_
      · assumption
      · extract_lets +onlyGivenNames v1
        clear_value v1
        extract_lets +onlyGivenNames v2
        extract_lets +onlyGivenNames v3
        extract_lets +onlyGivenNames v4
        have hv4 : OnlyChanges ps q v4 := by
          unfold v4
          with_reducible apply OnlyChanges.upd_gfe_host
          · exact hk.of rfl
          · assumption
          · exact fun _ => rfl
          · exact fun _ => rfl
        clear_value v4
        extract_lets +onlyGivenNames v5
        extract_lets +onlyGivenNames v6
        have hv6 : OnlyChanges ps q v6 := by
          unfold v6
          split
          · split
            · with_reducible apply State.releaseFabric_only
              · exact hk.of rfl
              · assumption
            · assumption
          · assumption
          · with_reducible apply OnlyChanges.upd_host
            · exact hk.of rfl
            · assumption
            · exact fun _ => rfl
        clear_value v6
        with_reducible apply State.setCmd_only
        · exact hk.of rfl
        · with_reducible apply State.setRun_only
          · exact hk.of rfl
          · assumption

theorem execCommitPhaseBegin_only {ps : List Part} {q s : State} (hk : Within [.reg, .accts, .gfe, .clus, .host, .fab, .out] ps) (hq : OnlyChanges ps q s) (clu : Nat) : RunsOnly ps q (execCommitPhaseBegin clu s) := by
  unfold execCommitPhaseBegin
  with_reducible apply RunsOnly.done
  · exact hk.of rfl
  · with_reducible apply State.beginCommit_only
    · exact hk.of rfl
    · assumption

theorem State.settleAcks_only {ps : List Part} {q s : State} (hk : Within [.reg, .chans, .cqs, .accts, .gfe, .frames, .objs, .place, .host, .fab, .integ, .icnt, .out] ps) (hq : OnlyChanges ps q s) (id : Nat) : OnlyChanges ps q (State.settleAcks s id) := by
  unfold State.settleAcks
  split
  · assumption
  · split
    · with_reducible refine OnlyChanges.ite ?_ ?_
      · assumption
      · with_reducible apply State.tidy_only
        · exact hk
        · with_reducible apply State.endCmd_only
          · exact hk.of rfl
          · assumption
    · assumption

theorem State.settleCommit_only {ps : List Part} {q s : State} (hk : Within [.reg, .chans, .cqs, .accts, .gfe, .clus, .resvs, .frames, .objs, .place, .host, .fab, .integ, .icnt, .sup, .out] ps) (hq : OnlyChanges ps q s) (n : Nat) : OnlyChanges ps q (State.settleCommit s n) := by
  unfold State.settleCommit
  split
  · assumption
  · split
    · assumption
    · with_reducible refine OnlyChanges.ite ?_ ?_
      · assumption
      · extract_lets +onlyGivenNames v1
        have hv1 : OnlyChanges ps q v1.1 := by
          unfold v1
          with_reducible apply State.issueFlush_only
          · exact hk.of rfl
          · assumption
        clear_value v1
        extract_lets +onlyGivenNames v2
        clear_value v2
        extract_lets +onlyGivenNames v3
        have hv3 : OnlyChanges ps q v3 := by
          unfold v3
          split
          · split
            · with_reducible apply State.setCmd_only
              · exact hk.of rfl
              · assumption
            · with_reducible apply State.setExtra_only
              · exact hk.of rfl
              · with_reducible apply State.setCmd_only
                · exact hk.of rfl
                · assumption
          · assumption
        clear_value v3
        with_reducible refine OnlyChanges.ite ?_ ?_
        · assumption
        · with_reducible apply State.tidy_only
          · exact hk.of rfl
          · with_reducible apply State.settleAcks_only
            · exact hk.of rfl
            · with_reducible apply State.leaveRun_only
              · exact hk.of rfl
              · with_reducible apply State.noteClu_only
                · exact hk.of rfl
                · assumption

theorem State.settleCommits_only {ps : List Part} {q s : State} (hk : Within [.reg, .chans, .cqs, .accts, .gfe, .clus, .resvs, .frames, .objs, .place, .host, .fab, .integ, .icnt, .sup, .out] ps) (hq : OnlyChanges ps q s) : OnlyChanges ps q (State.settleCommits s) := by
  unfold State.settleCommits
  with_reducible refine OnlyChanges.foldl ?_ ?_
  · assumption
  · intro x1 x2 x3
    with_reducible apply State.settleCommit_only
    · exact hk
    · assumption

theorem State.noteRtt_only {ps : List Part} {q s : State} (hk : Within [.host] ps) (hq : OnlyChanges ps q s) (t : Nat) : OnlyChanges ps q (State.noteRtt s t) := by
  unfold State.noteRtt
  with_reducible apply OnlyChanges.upd_host
  · exact hk
  · assumption
  · exact fun _ => rfl

theorem State.flushReturn_only {ps : List Part} {q s : State} (hk : Within [.reg, .chans, .cqs, .accts, .gfe, .frames, .objs, .place, .host, .fab, .integ, .icnt, .out] ps) (hq : OnlyChanges ps q s) (c : Nat) (ok : Bool) : OnlyChanges ps q (State.flushReturn s c ok) := by
  unfold State.flushReturn
  split
  · assumption
  · with_reducible refine OnlyChanges.ite ?_ ?_
    · assumption
    · extract_lets +onlyGivenNames v1
      extract_lets +onlyGivenNames v2
      have hv2 : OnlyChanges ps q v2 := by
        unfold v2
        with_reducible apply State.noteRtt_only
        · exact hk.of rfl
        · with_reducible apply OnlyChanges.upd_host
          · exact hk.of rfl
          · assumption
          · exact fun _ => rfl
      clear_value v2
      extract_lets +onlyGivenNames v3
      have hv3 : OnlyChanges ps q v3 := by
        unfold v3
        with_reducible refine OnlyChanges.ite ?_ ?_
        · with_reducible apply State.confirm_only
          · exact hk.of rfl
          · assumption
        · assumption
      clear_value v3
      extract_lets +onlyGivenNames v4
      clear_value v4
      with_reducible apply State.pumpRing_only
      · exact hk.of rfl
      · with_reducible apply State.release_only
        · exact hk.of rfl
        · with_reducible refine OnlyChanges.foldl ?_ ?_
          · assumption
          · intro x5 x6 x7
            with_reducible apply State.tidy_only
            · exact hk
            · with_reducible apply State.endCmd_only
              · exact hk.of rfl
              · assumption

theorem execFlushReadReturn_only {ps : List Part} {q s : State} (hk : Within [.reg, .chans, .cqs, .accts, .gfe, .frames, .objs, .place, .host, .fab, .integ, .icnt, .out] ps) (hq : OnlyChanges ps q s) (chan : Nat) (ok : Bool) : RunsOnly ps q (execFlushReadReturn chan ok s) := by
  unfold execFlushReadReturn
  with_reducible apply RunsOnly.done
  · exact hk.of rfl
  · with_reducible refine OnlyChanges.ite ?_ ?_
    · assumption
    · with_reducible apply State.flushReturn_only
      · exact hk
      · assumption

theorem execPostedWriteDrain_only {ps : List Part} {q s : State} (hk : Within [.reg, .accts, .host, .out] ps) (hq : OnlyChanges ps q s) : RunsOnly ps q (execPostedWriteDrain s) := by
  unfold execPostedWriteDrain
  with_reducible apply RunsOnly.done
  · exact hk.of rfl
  · split
    · assumption
    · with_reducible refine OnlyChanges.ite ?_ ?_
      · assumption
      · with_reducible apply State.chargeBytes_only
        · exact hk.of rfl
        · with_reducible apply State.emit_only
          · exact hk.of rfl
          · with_reducible apply OnlyChanges.upd_host
            · exact hk.of rfl
            · assumption
            · exact fun _ => rfl

theorem State.pumpLines_only {ps : List Part} {q s : State} (hk : Within [.host, .out] ps) (hq : OnlyChanges ps q s) (n : Nat) : OnlyChanges ps q (State.pumpLines s n) := by
  unfold State.pumpLines
  split
  · assumption
  · with_reducible refine OnlyChanges.ite ?_ ?_
    · assumption
    · extract_lets +onlyGivenNames v1
      clear_value v1
      with_reducible refine OnlyChanges.foldl ?_ ?_
      · assumption
      · intro x2 x3 x4
        with_reducible apply State.emit_only
        · exact hk.of rfl
        · with_reducible apply OnlyChanges.upd_host
          · exact hk.of rfl
          · assumption
          · exact fun _ => rfl

theorem State.pumpAllLines_only {ps : List Part} {q s : State} (hk : Within [.host, .out] ps) (hq : OnlyChanges ps q s) : OnlyChanges ps q (State.pumpAllLines s) := by
  unfold State.pumpAllLines
  with_reducible refine OnlyChanges.foldl ?_ ?_
  · assumption
  · intro x1 x2 x3
    with_reducible apply State.pumpLines_only
    · exact hk
    · assumption

theorem State.runHostRead_only {ps : List Part} {q s : State} (hk : Within [.reg, .chans, .cqs, .accts, .gfe, .clus, .resvs, .frames, .objs, .place, .host, .fab, .integ, .icnt, .sup, .out, .tests] ps) (hq : OnlyChanges ps q s) (n : Nat) : OnlyChanges ps q (State.runHostRead s n) := by
  unfold State.runHostRead
  split
  · assumption
  · extract_lets +onlyGivenNames v1
    clear_value v1
    with_reducible refine OnlyChanges.ite ?_ ?_
    · assumption
    · with_reducible refine OnlyChanges.ite ?_ ?_
      · with_reducible apply State.fetchAll_only
        · exact hk.of rfl
        · assumption
      · split
        · with_reducible apply State.stopFound_only
          · exact hk
          · assumption
        · with_reducible apply State.pumpLines_only
          · exact hk.of rfl
          · with_reducible apply State.prepare_only
            · exact hk.of rfl
            · with_reducible apply State.readTiles_only
              · exact hk.of rfl
              · assumption

theorem execHostRead_only {ps : List Part} {q s : State} (hk : Within [.reg, .chans, .cqs, .accts, .gfe, .clus, .resvs, .frames, .objs, .place, .host, .fab, .integ, .icnt, .sup, .out, .tests] ps) (hq : OnlyChanges ps q s) (clu : Nat) : RunsOnly ps q (execHostRead clu s) := by
  unfold execHostRead
  with_reducible apply RunsOnly.done
  · exact hk.of rfl
  · with_reducible apply State.runHostRead_only
    · exact hk
    · assumption

theorem State.finishRead_only {ps : List Part} {q s : State} (hk : Within [.reg, .chans, .cqs, .accts, .gfe, .clus, .resvs, .mem, .frames, .objs, .place, .host, .fab, .integ, .icnt, .sup, .out] ps) (hq : OnlyChanges ps q s) (n : Nat) (d : Cmd) : OnlyChanges ps q (State.finishRead s n d) := by
  unfold State.finishRead
  extract_lets +onlyGivenNames v1
  clear_value v1
  extract_lets +onlyGivenNames v2
  clear_value v2
  extract_lets +onlyGivenNames v3
  clear_value v3
  extract_lets +onlyGivenNames v4
  clear_value v4
  with_reducible apply State.dropHost_only
  · exact hk.of rfl
  · with_reducible apply State.finishWork_only
    · exact hk
    · assumption

theorem State.lineReturn_only {ps : List Part} {q s : State} (hk : Within [.reg, .chans, .cqs, .accts, .gfe, .clus, .resvs, .mem, .frames, .objs, .place, .host, .fab, .integ, .icnt, .sup, .out] ps) (hq : OnlyChanges ps q s) (n : Nat) (addr : Nat) (l : HostLine) : OnlyChanges ps q (State.lineReturn s n addr l) := by
  unfold State.lineReturn
  split
  · extract_lets +onlyGivenNames v1
    extract_lets +onlyGivenNames v2
    have hv2 : OnlyChanges ps q v2 := by
      unfold v2
      with_reducible apply OnlyChanges.upd_host
      · exact hk.of rfl
      · assumption
      · exact fun _ => rfl
    clear_value v2
    split
    · with_reducible apply State.stopWith_only
      · exact hk.of rfl
      · with_reducible apply State.raise_only
        · exact hk.of rfl
        · with_reducible apply OnlyChanges.upd_host
          · exact hk.of rfl
          · assumption
          · exact fun _ => rfl
    · extract_lets +onlyGivenNames v3
      clear_value v3
      extract_lets +onlyGivenNames v4
      extract_lets +onlyGivenNames v5
      have hv5 : OnlyChanges ps q v5 := by
        unfold v5
        with_reducible apply OnlyChanges.upd_host
        · exact hk.of rfl
        · assumption
        · exact fun _ => rfl
      clear_value v5
      extract_lets +onlyGivenNames v6
      have hv6 : OnlyChanges ps q v6 := by
        unfold v6
        with_reducible apply State.chargeBytes_only
        · exact hk.of rfl
        · with_reducible refine OnlyChanges.ite ?_ ?_
          · with_reducible apply State.emit_only
            · exact hk.of rfl
            · assumption
          · assumption
      clear_value v6
      with_reducible refine OnlyChanges.ite ?_ ?_
      · with_reducible apply State.finishRead_only
        · exact hk
        · assumption
      · with_reducible apply State.pumpLines_only
        · exact hk.of rfl
        · assumption
  · assumption

theorem execHostReadLineReturn_only {ps : List Part} {q s : State} (hk : Within [.reg, .chans, .cqs, .accts, .gfe, .clus, .resvs, .mem, .frames, .objs, .place, .host, .fab, .integ, .icnt, .sup, .out] ps) (hq : OnlyChanges ps q s) (clu : Nat) (addr : Nat) (line : HostLine) : RunsOnly ps q (execHostReadLineReturn clu addr line s) := by
  unfold execHostReadLineReturn
  with_reducible apply RunsOnly.done
  · exact hk.of rfl
  · with_reducible refine OnlyChanges.ite ?_ ?_
    · assumption
    · with_reducible apply State.lineReturn_only
      · exact hk
      · assumption

theorem execCompletionTimeout_only {ps : List Part} {q s : State} (hk : Within [.reg, .chans, .cqs, .accts, .gfe, .clus, .resvs, .mem, .frames, .objs, .place, .host, .fab, .integ, .icnt, .sup, .out] ps) (hq : OnlyChanges ps q s) (read : HostReadId) : RunsOnly ps q (execCompletionTimeout read s) := by
  unfold execCompletionTimeout
  with_reducible apply RunsOnly.done
  · exact hk.of rfl
  · with_reducible refine OnlyChanges.ite ?_ ?_
    · assumption
    · split
      · with_reducible apply State.flushReturn_only
        · exact hk.of rfl
        · assumption
      · with_reducible apply State.lineReturn_only
        · exact hk
        · assumption
      · assumption

theorem State.killRead_only {ps : List Part} {q s : State} (hk : Within [.reg, .accts, .gfe, .clus, .resvs, .frames, .host, .integ, .icnt, .sup, .out] ps) (hq : OnlyChanges ps q s) (n : Nat) : OnlyChanges ps q (State.killRead s n) := by
  unfold State.killRead
  split
  · assumption
  · with_reducible refine OnlyChanges.ite ?_ ?_
    · assumption
    · with_reducible apply State.sendBack_only
      · exact hk.of rfl
      · with_reducible apply State.noteClu_only
        · exact hk.of rfl
        · with_reducible apply State.stopRun_only
          · exact hk.of rfl
          · assumption

theorem State.killReads_only {ps : List Part} {q s : State} (hk : Within [.reg, .accts, .gfe, .clus, .resvs, .frames, .host, .integ, .icnt, .sup, .out] ps) (hq : OnlyChanges ps q s) : OnlyChanges ps q (State.killReads s) := by
  unfold State.killReads
  with_reducible refine OnlyChanges.foldl ?_ ?_
  · assumption
  · intro x1 x2 x3
    with_reducible apply State.killRead_only
    · exact hk
    · assumption

theorem State.drain_only {ps : List Part} {q s : State} (hk : Within [.reg, .chans, .cqs, .accts, .gfe, .clus, .cnts, .resvs, .mem, .frames, .objs, .place, .host, .fab, .integ, .icnt, .sup, .out] ps) (hq : OnlyChanges ps q s) (n : Nat) (r : Run) (d : Cmd) : OnlyChanges ps q (State.drain s n r d) := by
  unfold State.drain
  extract_lets +onlyGivenNames v1
  clear_value v1
  split
  · extract_lets +onlyGivenNames v2
    clear_value v2
    extract_lets +onlyGivenNames v3
    clear_value v3
    extract_lets +onlyGivenNames v4
    clear_value v4
    extract_lets +onlyGivenNames v5
    clear_value v5
    extract_lets +onlyGivenNames v6
    clear_value v6
    extract_lets +onlyGivenNames v7
    clear_value v7
    extract_lets +onlyGivenNames v8
    clear_value v8
    extract_lets +onlyGivenNames v9
    clear_value v9
    extract_lets +onlyGivenNames v10
    clear_value v10
    extract_lets +onlyGivenNames v11
    clear_value v11
    extract_lets +onlyGivenNames v12
    clear_value v12
    extract_lets +onlyGivenNames v13
    have hv13 : OnlyChanges ps q v13 := by
      unfold v13
      with_reducible refine OnlyChanges.ite ?_ ?_
      · assumption
      · with_reducible apply State.setCnt_only
        · exact hk.of rfl
        · assumption
    clear_value v13
    with_reducible apply State.finishWork_only
    · exact hk.of rfl
    · with_reducible apply State.setRun_only
      · exact hk.of rfl
      · assumption
  · assumption

theorem State.readPart_only {ps : List Part} {q s : State} (hk : Within [.accts, .frames, .place] ps) (hq : OnlyChanges ps q s) (d : Cmd) (n : Nat) (h : Nat) (fmt : Nat) (els : Nat) (times : Nat) (tile : Nat) : OnlyChanges ps q (State.readPart s d n h fmt els times tile) := by
  unfold State.readPart
  extract_lets +onlyGivenNames v1
  have hv1 : OnlyChanges ps q v1 := by
    unfold v1
    split
    · with_reducible apply State.engineReads_only
      · exact hk
      · assumption
    · assumption
  clear_value v1
  split
  · assumption
  · with_reducible refine OnlyChanges.ite ?_ ?_
    · split
      · with_reducible apply State.engineReads_only
        · exact hk
        · assumption
      · assumption
    · assumption

theorem State.readRegion_only {ps : List Part} {q s : State} (hk : Within [.accts, .frames, .place] ps) (hq : OnlyChanges ps q s) (d : Cmd) (n : Nat) (h : Nat) (fmt : Nat) (base : Nat) (len : Nat) (times : Nat) : OnlyChanges ps q (State.readRegion s d n h fmt base len times) := by
  unfold State.readRegion
  with_reducible refine OnlyChanges.ite ?_ ?_
  · assumption
  · with_reducible refine OnlyChanges.foldl ?_ ?_
    · assumption
    · intro x1 x2 x3
      with_reducible apply State.readPart_only
      · exact hk
      · assumption

theorem State.readProduct_only {ps : List Part} {q s : State} (hk : Within [.accts, .frames, .place] ps) (hq : OnlyChanges ps q s) (d : Cmd) (n : Nat) (p : Product) (wFmt : Nat) (wRow : Nat) : OnlyChanges ps q (State.readProduct s d n p wFmt wRow) := by
  unfold State.readProduct
  extract_lets +onlyGivenNames v1
  have hv1 : OnlyChanges ps q v1 := by
    unfold v1
    with_reducible apply State.readRegion_only
    · exact hk
    · assumption
  clear_value v1
  extract_lets +onlyGivenNames v2
  have hv2 : OnlyChanges ps q v2 := by
    unfold v2
    with_reducible refine OnlyChanges.ite ?_ ?_
    · with_reducible apply State.readRows_only
      · exact hk
      · assumption
    · with_reducible apply State.readRegion_only
      · exact hk
      · assumption
  clear_value v2
  extract_lets +onlyGivenNames v3
  have hv3 : OnlyChanges ps q v3 := by
    unfold v3
    with_reducible refine OnlyChanges.ite ?_ ?_
    · assumption
    · with_reducible apply State.readRegion_only
      · exact hk
      · assumption
  clear_value v3
  extract_lets +onlyGivenNames v4
  have hv4 : OnlyChanges ps q v4 := by
    unfold v4
    with_reducible refine OnlyChanges.ite ?_ ?_
    · assumption
    · with_reducible apply State.readRegion_only
      · exact hk
      · assumption
  clear_value v4
  with_reducible apply State.readTiles_only
  · exact hk
  · assumption

theorem State.runProduct_only {ps : List Part} {q s : State} (hk : Within [.reg, .chans, .cqs, .accts, .gfe, .clus, .resvs, .frames, .objs, .place, .host, .fab, .integ, .icnt, .sup, .out, .tests] ps) (hq : OnlyChanges ps q s) (n : Nat) (op : Nat) : OnlyChanges ps q (State.runProduct s n op) := by
  unfold State.runProduct
  split
  · assumption
  · extract_lets +onlyGivenNames v1
    clear_value v1
    extract_lets +onlyGivenNames v2
    clear_value v2
    with_reducible refine OnlyChanges.ite ?_ ?_
    · with_reducible apply State.fetchAll_only
      · exact hk.of rfl
      · assumption
    · split
      · with_reducible apply State.stopFound_only
        · exact hk
        · assumption
      · split
        · extract_lets +onlyGivenNames v3
          clear_value v3
          extract_lets +onlyGivenNames v4
          clear_value v4
          extract_lets +onlyGivenNames v5
          clear_value v5
          extract_lets +onlyGivenNames v6
          clear_value v6
          extract_lets +onlyGivenNames v7
          clear_value v7
          with_reducible apply State.prepare_only
          · exact hk.of rfl
          · with_reducible apply State.readProduct_only
            · exact hk.of rfl
            · assumption
        · assumption

theorem execGemm_only {ps : List Part} {q s : State} (hk : Within [.reg, .chans, .cqs, .accts, .gfe, .clus, .resvs, .frames, .objs, .place, .host, .fab, .integ, .icnt, .sup, .out, .tests] ps) (hq : OnlyChanges ps q s) (clu : Nat) : RunsOnly ps q (execGemm clu s) := by
  unfold execGemm
  with_reducible apply RunsOnly.done
  · exact hk.of rfl
  · with_reducible apply State.runProduct_only
    · exact hk
    · assumption

theorem execMatvec_only {ps : List Part} {q s : State} (hk : Within [.reg, .chans, .cqs, .accts, .gfe, .clus, .resvs, .frames, .objs, .place, .host, .fab, .integ, .icnt, .sup, .out, .tests] ps) (hq : OnlyChanges ps q s) (clu : Nat) : RunsOnly ps q (execMatvec clu s) := by
  unfold execMatvec
  with_reducible apply RunsOnly.done
  · exact hk.of rfl
  · with_reducible apply State.runProduct_only
    · exact hk
    · assumption

theorem State.compare_only {ps : List Part} {q s : State} (hk : Within [.reg, .chans, .cqs, .accts, .gfe, .clus, .cnts, .resvs, .mem, .frames, .objs, .place, .host, .fab, .integ, .icnt, .sup, .out] ps) (hq : OnlyChanges ps q s) (n : Nat) (kind : CheckKind) (g : Option Glitch) : OnlyChanges ps q (State.compare s n kind g) := by
  unfold State.compare
  split
  · assumption
  · split
    · assumption
    · with_reducible refine OnlyChanges.ite ?_ ?_
      · assumption
      · extract_lets +onlyGivenNames v1
        clear_value v1
        extract_lets +onlyGivenNames v2
        clear_value v2
        extract_lets +onlyGivenNames v3
        clear_value v3
        extract_lets +onlyGivenNames v4
        clear_value v4
        extract_lets +onlyGivenNames v5
        clear_value v5
        extract_lets +onlyGivenNames v6
        clear_value v6
        extract_lets +onlyGivenNames v7
        clear_value v7
        extract_lets +onlyGivenNames v8
        clear_value v8
        extract_lets +onlyGivenNames v9
        have hv9 : OnlyChanges ps q v9 := by
          unfold v9
          split
          · with_reducible apply State.consume_only
            · exact hk.of rfl
            · assumption
          · assumption
        clear_value v9
        extract_lets +onlyGivenNames v10
        have hv10 : OnlyChanges ps q v10 := by
          unfold v10
          with_reducible apply State.setCnt_only
          · exact hk.of rfl
          · assumption
        clear_value v10
        extract_lets +onlyGivenNames v11
        have hv11 : OnlyChanges ps q v11 := by
          unfold v11
          with_reducible refine OnlyChanges.ite ?_ ?_
          · assumption
          · with_reducible apply State.raise_only
            · exact hk.of rfl
            · assumption
        clear_value v11
        with_reducible refine OnlyChanges.ite ?_ ?_
        · with_reducible apply State.trigger_only
          · exact hk.of rfl
          · with_reducible apply State.raise_only
            · exact hk.of rfl
            · assumption
        · extract_lets +onlyGivenNames v12
          clear_value v12
          extract_lets +onlyGivenNames v13
          have hv13 : OnlyChanges ps q v13 := by
            unfold v13
            with_reducible apply State.setRun_only
            · exact hk.of rfl
            · assumption
          clear_value v13
          with_reducible refine OnlyChanges.ite ?_ ?_
          · with_reducible apply State.drain_only
            · exact hk
            · assumption
          · assumption

theorem execArrayBlockCompare_only {ps : List Part} {q s : State} (hk : Within [.reg, .chans, .cqs, .accts, .gfe, .clus, .cnts, .resvs, .mem, .frames, .objs, .place, .host, .fab, .integ, .icnt, .sup, .out] ps) (hq : OnlyChanges ps q s) (clu : Nat) (g : Option Glitch) : RunsOnly ps q (execArrayBlockCompare clu g s) := by
  unfold execArrayBlockCompare
  with_reducible apply RunsOnly.done
  · exact hk.of rfl
  · with_reducible apply State.compare_only
    · exact hk
    · assumption

theorem execSkinkGroupCompare_only {ps : List Part} {q s : State} (hk : Within [.reg, .chans, .cqs, .accts, .gfe, .clus, .cnts, .resvs, .mem, .frames, .objs, .place, .host, .fab, .integ, .icnt, .sup, .out] ps) (hq : OnlyChanges ps q s) (clu : Nat) (g : Option Glitch) : RunsOnly ps q (execSkinkGroupCompare clu g s) := by
  unfold execSkinkGroupCompare
  with_reducible apply RunsOnly.done
  · exact hk.of rfl
  · with_reducible apply State.compare_only
    · exact hk
    · assumption

theorem State.summaryCompare_only {ps : List Part} {q s : State} (hk : Within [.reg, .accts, .gfe, .clus, .cnts, .resvs, .frames, .host, .integ, .icnt, .sup, .out] ps) (hq : OnlyChanges ps q s) (n : Nat) (g : Option Glitch) : OnlyChanges ps q (State.summaryCompare s n g) := by
  unfold State.summaryCompare
  split
  · assumption
  · split
    · assumption
    · with_reducible refine OnlyChanges.ite ?_ ?_
      · assumption
      · extract_lets +onlyGivenNames v1
        clear_value v1
        extract_lets +onlyGivenNames v2
        clear_value v2
        extract_lets +onlyGivenNames v3
        clear_value v3
        extract_lets +onlyGivenNames v4
        clear_value v4
        extract_lets +onlyGivenNames v5
        clear_value v5
        extract_lets +onlyGivenNames v6
        clear_value v6
        extract_lets +onlyGivenNames v7
        clear_value v7
        extract_lets +onlyGivenNames v8
        have hv8 : OnlyChanges ps q v8 := by
          unfold v8
          with_reducible apply State.setCnt_only
          · exact hk.of rfl
          · assumption
        clear_value v8
        extract_lets +onlyGivenNames v9
        have hv9 : OnlyChanges ps q v9 := by
          unfold v9
          with_reducible refine OnlyChanges.ite ?_ ?_
          · with_reducible apply State.consume_only
            · exact hk.of rfl
            · assumption
          · assumption
        clear_value v9
        extract_lets +onlyGivenNames v10
        clear_value v10
        split
        · extract_lets +onlyGivenNames v11
          clear_value v11
          extract_lets +onlyGivenNames v12
          clear_value v12
          extract_lets +onlyGivenNames v13
          have hv13 : OnlyChanges ps q v13 := by
            unfold v13
            with_reducible apply State.setCnt_only
            · exact hk.of rfl
            · assumption
          clear_value v13
          with_reducible apply State.trigger_only
          · exact hk.of rfl
          · with_reducible apply State.raise_only
            · exact hk.of rfl
            · assumption
        · with_reducible apply State.setRun_only
          · exact hk.of rfl
          · assumption

theorem execSummaryCompare_only {ps : List Part} {q s : State} (hk : Within [.reg, .accts, .gfe, .clus, .cnts, .resvs, .frames, .host, .integ, .icnt, .sup, .out] ps) (hq : OnlyChanges ps q s) (clu : Nat) (g : Option Glitch) : RunsOnly ps q (execSummaryCompare clu g s) := by
  unfold execSummaryCompare
  with_reducible apply RunsOnly.done
  · exact hk.of rfl
  · with_reducible apply State.summaryCompare_only
    · exact hk
    · assumption

theorem State.laneFaults_only {ps : List Part} {q s : State} (hk : Within [.reg, .gfe, .cnts, .host, .out] ps) (hq : OnlyChanges ps q s) (n : Nat) (id : Nat) (faults : Nat) (last : Option (Nat × Nat)) : OnlyChanges ps q (State.laneFaults s n id faults last) := by
  unfold State.laneFaults
  with_reducible refine OnlyChanges.ite ?_ ?_
  · assumption
  · extract_lets +onlyGivenNames v1
    clear_value v1
    extract_lets +onlyGivenNames v2
    clear_value v2
    extract_lets +onlyGivenNames v3
    clear_value v3
    extract_lets +onlyGivenNames v4
    clear_value v4
    with_reducible apply State.raise_only
    · exact hk.of rfl
    · with_reducible apply State.setCnt_only
      · exact hk.of rfl
      · with_reducible apply State.setExtra_only
        · exact hk.of rfl
        · assumption

theorem State.vPass_only {ps : List Part} {q s : State} (hk : Within [.reg, .gfe, .cnts, .host, .out] ps) (hq : OnlyChanges ps q s) (n : Nat) (d : Cmd) (v : VProg) : OnlyChanges ps q (State.vPass s n d v).1 := by
  unfold State.vPass
  extract_lets +onlyGivenNames v1
  clear_value v1
  extract_lets +onlyGivenNames v2
  clear_value v2
  extract_lets +onlyGivenNames v3
  clear_value v3
  extract_lets +onlyGivenNames v4
  clear_value v4
  extract_lets +onlyGivenNames v5
  clear_value v5
  extract_lets +onlyGivenNames v6
  clear_value v6
  extract_lets +onlyGivenNames v7
  clear_value v7
  extract_lets +onlyGivenNames v8
  clear_value v8
  extract_lets +onlyGivenNames v9
  clear_value v9
  extract_lets +onlyGivenNames v10
  clear_value v10
  extract_lets +onlyGivenNames v11
  clear_value v11
  extract_lets +onlyGivenNames v12
  clear_value v12
  extract_lets +onlyGivenNames v13
  clear_value v13
  extract_lets +onlyGivenNames v14
  clear_value v14
  extract_lets +onlyGivenNames v15
  clear_value v15
  extract_lets +onlyGivenNames v16
  clear_value v16
  extract_lets +onlyGivenNames v17
  clear_value v17
  dsimp only
  with_reducible apply State.laneFaults_only
  · exact hk
  · assumption

theorem State.runVchain_only {ps : List Part} {q s : State} (hk : Within [.reg, .chans, .cqs, .accts, .gfe, .clus, .cnts, .resvs, .mem, .frames, .objs, .place, .host, .fab, .integ, .icnt, .sup, .out, .tests] ps) (hq : OnlyChanges ps q s) (n : Nat) : OnlyChanges ps q (State.runVchain s n) := by
  unfold State.runVchain
  split
  · assumption
  · extract_lets +onlyGivenNames v1
    clear_value v1
    extract_lets +onlyGivenNames v2
    clear_value v2
    with_reducible refine OnlyChanges.ite ?_ ?_
    · with_reducible apply State.fetchAll_only
      · exact hk.of rfl
      · assumption
    · split
      · with_reducible apply State.stopFound_only
        · exact hk.of rfl
        · assumption
      · extract_lets +onlyGivenNames v3
        clear_value v3
        extract_lets +onlyGivenNames v4
        have hv4 : OnlyChanges ps q v4.1 := by
          unfold v4
          with_reducible apply State.vPass_only
          · exact hk.of rfl
          · assumption
        clear_value v4
        extract_lets +onlyGivenNames v5
        clear_value v5
        with_reducible apply State.finishWork_only
        · exact hk.of rfl
        · with_reducible apply State.prepare_only
          · exact hk.of rfl
          · with_reducible apply State.readTiles_only
            · exact hk.of rfl
            · assumption

theorem execVchain_only {ps : List Part} {q s : State} (hk : Within [.reg, .chans, .cqs, .accts, .gfe, .clus, .cnts, .resvs, .mem, .frames, .objs, .place, .host, .fab, .integ, .icnt, .sup, .out, .tests] ps) (hq : OnlyChanges ps q s) (clu : Nat) : RunsOnly ps q (execVchain clu s) := by
  unfold execVchain
  with_reducible apply RunsOnly.done
  · exact hk.of rfl
  · with_reducible apply State.runVchain_only
    · exact hk
    · assumption

theorem State.settleRes_only {ps : List Part} {q s : State} (hk : Within [.gfe] ps) (hq : OnlyChanges ps q s) (id : Nat) : OnlyChanges ps q (State.settleRes s id) := by
  unfold State.settleRes
  split
  · assumption
  · split
    · extract_lets +onlyGivenNames v1
      clear_value v1
      with_reducible apply State.setCmd_only
      · exact hk
      · assumption
    · assumption

theorem State.settleResAll_only {ps : List Part} {q s : State} (hk : Within [.gfe] ps) (hq : OnlyChanges ps q s) : OnlyChanges ps q (State.settleResAll s) := by
  unfold State.settleResAll
  with_reducible refine OnlyChanges.foldl ?_ ?_
  · assumption
  · intro x1 x2 x3
    with_reducible apply State.settleRes_only
    · exact hk
    · assumption

theorem State.remoteFail_only {ps : List Part} {q s : State} (hk : Within [.reg, .chans, .cqs, .accts, .gfe, .objs, .host, .fab, .out] ps) (hq : OnlyChanges ps q s) (d : Cmd) (a : Nat) (b : Nat) : OnlyChanges ps q (State.remoteFail s d a b) := by
  unfold State.remoteFail
  with_reducible apply State.settleMoves_only
  · exact hk
  · with_reducible refine OnlyChanges.ite ?_ ?_
    · with_reducible apply State.endCmd_only
      · exact hk
      · assumption
    · with_reducible apply State.endCmd_only
      · exact hk
      · assumption

theorem State.sendGathers_only {ps : List Part} {q s : State} (hk : Within [.reg, .chans, .cqs, .accts, .gfe, .objs, .host, .fab, .out] ps) (hq : OnlyChanges ps q s) (id : Nat) : OnlyChanges ps q (State.sendGathers s id) := by
  unfold State.sendGathers
  split
  · assumption
  · split
    · with_reducible refine OnlyChanges.ite ?_ ?_
      · assumption
      · extract_lets +onlyGivenNames v1
        clear_value v1
        split
        · with_reducible apply State.remoteFail_only
          · exact hk
          · assumption
        · extract_lets +onlyGivenNames v2
          have hv2 : OnlyChanges ps q v2.1 := by
            unfold v2
            with_reducible refine OnlyChanges.foldlFst ?_ ?_
            · assumption
            · intro x3 x4 x5
              extract_lets +onlyGivenNames v6
              have hv6 : OnlyChanges ps q v6.1 := by
                unfold v6
                with_reducible apply State.sendMsg_only
                · exact hk.of rfl
                · assumption
              clear_value v6
              dsimp only
              with_reducible apply State.chargeBytes_only
              · exact hk.of rfl
              · with_reducible apply OnlyChanges.upd_fab
                · exact hk.of rfl
                · assumption
          clear_value v2
          exact State.setCmd_only (hk.of rfl) (State.egress_only (hk.of rfl) hv2) _
    · assumption

theorem State.awaitRes_only {ps : List Part} {q s : State} (hk : Within [.gfe] ps) (hq : OnlyChanges ps q s) (id : Nat) : OnlyChanges ps q (State.awaitRes s id) := by
  unfold State.awaitRes
  with_reducible refine OnlyChanges.ite ?_ ?_
  · assumption
  · with_reducible apply OnlyChanges.upd_gfe
    · exact hk
    · assumption
    · exact fun _ => rfl

theorem State.leaveRes_only {ps : List Part} {q s : State} (hk : Within [.gfe] ps) (hq : OnlyChanges ps q s) (id : Nat) : OnlyChanges ps q (State.leaveRes s id) := by
  unfold State.leaveRes
  with_reducible apply OnlyChanges.upd_gfe
  · exact hk
  · assumption
  · exact fun _ => rfl

theorem State.holdRes_only {ps : List Part} {q s : State} (hk : Within [.reg, .chans, .cqs, .accts, .gfe, .frames, .objs, .place, .host, .fab, .integ, .icnt, .out] ps) (hq : OnlyChanges ps q s) (d : Cmd) (r : Resolution) (held : List (Nat × Nat)) : OnlyChanges ps q (State.holdRes s d r held) := by
  unfold State.holdRes
  extract_lets +onlyGivenNames v1
  clear_value v1
  extract_lets +onlyGivenNames v2
  have hv2 : OnlyChanges ps q v2 := by
    unfold v2
    with_reducible apply State.setCmd_only
    · exact hk.of rfl
    · with_reducible apply State.leaveRes_only
      · exact hk.of rfl
      · assumption
  clear_value v2
  with_reducible apply State.settleRes_only
  · exact hk.of rfl
  · with_reducible apply State.sendGathers_only
    · exact hk.of rfl
    · with_reducible apply State.fetchAll_only
      · exact hk.of rfl
      · assumption

theorem State.readValues_only {ps : List Part} {q s : State} (hk : Within [.reg, .chans, .cqs, .accts, .gfe, .frames, .objs, .place, .host, .fab, .integ, .icnt, .out] ps) (hq : OnlyChanges ps q s) (d : Cmd) (h : Nat) (o : Obj) : OnlyChanges ps q (State.readValues s d h o) := by
  unfold State.readValues
  extract_lets +onlyGivenNames v1
  clear_value v1
  extract_lets +onlyGivenNames v2
  clear_value v2
  extract_lets +onlyGivenNames v3
  clear_value v3
  extract_lets +onlyGivenNames v4
  clear_value v4
  split
  · with_reducible apply State.endCmd_only
    · exact hk.of rfl
    · assumption
  · with_reducible refine OnlyChanges.ite ?_ ?_
    · with_reducible apply State.endCmd_only
      · exact hk.of rfl
      · assumption
    · with_reducible apply State.holdRes_only
      · exact hk
      · assumption

theorem State.beginRes_only {ps : List Part} {q s : State} (hk : Within [.reg, .chans, .cqs, .accts, .gfe, .frames, .objs, .place, .host, .fab, .integ, .icnt, .out, .tests] ps) (hq : OnlyChanges ps q s) (d : Cmd) : OnlyChanges ps q (State.beginRes s d) := by
  unfold State.beginRes
  extract_lets +onlyGivenNames v1
  clear_value v1
  extract_lets +onlyGivenNames v2
  clear_value v2
  with_reducible refine OnlyChanges.ite ?_ ?_
  · with_reducible apply State.awaitRes_only
    · exact hk.of rfl
    · assumption
  · with_reducible refine OnlyChanges.ite ?_ ?_
    · with_reducible apply State.fetchAll_only
      · exact hk.of rfl
      · assumption
    · split
      · with_reducible apply State.endCmd_only
        · exact hk.of rfl
        · with_reducible apply State.poisonIfBad_only
          · exact hk.of rfl
          · assumption
      · split
        · assumption
        · with_reducible apply State.readValues_only
          · exact hk.of rfl
          · assumption

theorem execResolutionBegin_only {ps : List Part} {q s : State} (hk : Within [.reg, .chans, .cqs, .accts, .gfe, .frames, .objs, .place, .host, .fab, .integ, .icnt, .out, .tests] ps) (hq : OnlyChanges ps q s) (cmd : Nat) : RunsOnly ps q (execResolutionBegin cmd s) := by
  unfold execResolutionBegin
  with_reducible apply RunsOnly.done
  · exact hk.of rfl
  · with_reducible refine OnlyChanges.ite ?_ ?_
    · assumption
    · split
      · assumption
      · with_reducible refine OnlyChanges.ite ?_ ?_
        · assumption
        · with_reducible refine OnlyChanges.ite ?_ ?_
          · extract_lets +onlyGivenNames v1
            clear_value v1
            split
            · assumption
            · extract_lets +onlyGivenNames v2
              clear_value v2
              with_reducible refine OnlyChanges.ite ?_ ?_
              · assumption
              · split
                · with_reducible apply State.endCmd_only
                  · exact hk.of rfl
                  · with_reducible apply State.setCmd_only
                    · exact hk.of rfl
                    · assumption
                · with_reducible apply State.beginRes_only
                  · exact hk
                  · with_reducible apply State.setCmd_only
                    · exact hk.of rfl
                    · assumption
          · split
            · with_reducible refine OnlyChanges.fst ?_ (by assumption)
              with_reducible apply State.prep_only
              · exact hk.of rfl
              · assumption
            · with_reducible refine OnlyChanges.ite ?_ ?_
              · with_reducible refine OnlyChanges.fst ?_ (by assumption)
                with_reducible apply State.prep_only
                · exact hk.of rfl
                · assumption
              · split
                · with_reducible apply State.endCmd_only
                  · exact hk.of rfl
                  · with_reducible refine OnlyChanges.fst ?_ (by assumption)
                    with_reducible apply State.prep_only
                    · exact hk.of rfl
                    · assumption
                · split
                  · with_reducible apply State.endCmd_only
                    · exact hk.of rfl
                    · with_reducible refine OnlyChanges.fst ?_ (by assumption)
                      with_reducible apply State.prep_only
                      · exact hk.of rfl
                      · assumption
                  · with_reducible apply State.beginRes_only
                    · exact hk
                    · with_reducible refine OnlyChanges.fst ?_ (by assumption)
                      with_reducible apply State.prep_only
                      · exact hk.of rfl
                      · assumption

theorem execRemoteGatherTimeout_only {ps : List Part} {q s : State} (hk : Within [.reg, .chans, .cqs, .accts, .gfe, .objs, .host, .fab, .out] ps) (hq : OnlyChanges ps q s) (cmd : Nat) : RunsOnly ps q (execRemoteGatherTimeout cmd s) := by
  unfold execRemoteGatherTimeout
  with_reducible apply RunsOnly.done
  · exact hk.of rfl
  · split
    · assumption
    · split
      · assumption
      · with_reducible refine OnlyChanges.ite ?_ ?_
        · assumption
        · split
          · assumption
          · with_reducible apply State.remoteFail_only
            · exact hk
            · assumption

theorem State.tblInject_only {ps : List Part} {q s : State} (hk : Within [.reg, .host, .out] ps) (hq : OnlyChanges ps q s) (n : Nat) (path : Nat) : OnlyChanges ps q (State.tblInject s n path).2 := by
  unfold State.tblInject
  split
  · dsimp only
    with_reducible apply State.consume_only
    · exact hk
    · assumption
  · assumption

theorem State.tblMismatch_only {ps : List Part} {q s : State} (hk : Within [.reg, .accts, .gfe, .clus, .cnts, .resvs, .frames, .host, .integ, .icnt, .sup, .out] ps) (hq : OnlyChanges ps q s) (n : Nat) : OnlyChanges ps q (State.tblMismatch s n) := by
  unfold State.tblMismatch
  extract_lets +onlyGivenNames v1
  clear_value v1
  with_reducible apply State.trigger_only
  · exact hk.of rfl
  · with_reducible apply State.raise_only
    · exact hk.of rfl
    · with_reducible apply State.setCnt_only
      · exact hk.of rfl
      · assumption

theorem State.countRows_only {ps : List Part} {q s : State} (hk : Within [.cnts] ps) (hq : OnlyChanges ps q s) (n : Nat) (k : Nat) : OnlyChanges ps q (State.countRows s n k) := by
  unfold State.countRows
  extract_lets +onlyGivenNames v1
  clear_value v1
  with_reducible apply State.setCnt_only
  · exact hk
  · assumption

theorem State.workGather_only {ps : List Part} {q s : State} (hk : Within [.reg, .chans, .cqs, .accts, .gfe, .clus, .cnts, .resvs, .mem, .frames, .objs, .place, .host, .fab, .integ, .icnt, .sup, .out] ps) (hq : OnlyChanges ps q s) (n : Nat) (run : Run) (d : Cmd) (o : Obj) (t : TableDesc) (r : Resolution) : OnlyChanges ps q (State.workGather s n run d o t r) := by
  unfold State.workGather
  extract_lets +onlyGivenNames v1
  clear_value v1
  extract_lets +onlyGivenNames v2
  have hv2 : OnlyChanges ps q v2.2 := by
    unfold v2
    split
    · assumption
    · with_reducible apply State.tblInject_only
      · exact hk.of rfl
      · assumption
  clear_value v2
  extract_lets +onlyGivenNames v3
  clear_value v3
  extract_lets +onlyGivenNames v4
  have hv4 : OnlyChanges ps q v4 := by
    unfold v4
    with_reducible apply State.countRows_only
    · exact hk.of rfl
    · assumption
  clear_value v4
  with_reducible refine OnlyChanges.ite ?_ ?_
  · with_reducible apply State.tblMismatch_only
    · exact hk.of rfl
    · assumption
  · extract_lets +onlyGivenNames v5
    clear_value v5
    extract_lets +onlyGivenNames v6
    clear_value v6
    with_reducible apply State.finishWork_only
    · exact hk.of rfl
    · with_reducible apply State.prepare_only
      · exact hk.of rfl
      · with_reducible apply State.readTiles_only
        · exact hk.of rfl
        · with_reducible apply State.readRows_only
          · exact hk.of rfl
          · assumption

theorem State.runGather_only {ps : List Part} {q s : State} (hk : Within [.reg, .chans, .cqs, .accts, .gfe, .clus, .cnts, .resvs, .mem, .frames, .objs, .place, .host, .fab, .integ, .icnt, .sup, .out, .tests] ps) (hq : OnlyChanges ps q s) (n : Nat) : OnlyChanges ps q (State.runGather s n) := by
  unfold State.runGather
  split
  · assumption
  · split
    · extract_lets +onlyGivenNames v1
      clear_value v1
      with_reducible refine OnlyChanges.ite ?_ ?_
      · with_reducible apply State.fetchAll_only
        · exact hk.of rfl
        · assumption
      · split
        · with_reducible apply State.stopFound_only
          · exact hk.of rfl
          · assumption
        · with_reducible apply State.workGather_only
          · exact hk.of rfl
          · assumption
    · assumption

theorem execGatherPool_only {ps : List Part} {q s : State} (hk : Within [.reg, .chans, .cqs, .accts, .gfe, .clus, .cnts, .resvs, .mem, .frames, .objs, .place, .host, .fab, .integ, .icnt, .sup, .out, .tests] ps) (hq : OnlyChanges ps q s) (clu : Nat) : RunsOnly ps q (execGatherPool clu s) := by
  unfold execGatherPool
  with_reducible apply RunsOnly.done
  · exact hk.of rfl
  · with_reducible apply State.runGather_only
    · exact hk
    · assumption

theorem State.writePool_only {ps : List Part} {q s : State} (hk : Within [.accts, .mem, .frames, .place] ps) (hq : OnlyChanges ps q s) (d : Cmd) (n : Nat) (o : Obj) (t : TableDesc) (row : Nat) (bytes : List Byte) : OnlyChanges ps q (State.writePool s d n o t row bytes) := by
  unfold State.writePool
  extract_lets +onlyGivenNames v1
  clear_value v1
  extract_lets +onlyGivenNames v2
  clear_value v2
  split
  · assumption
  · with_reducible apply State.engineWrite_only
    · exact hk.of rfl
    · with_reducible apply State.writeBytes_only
      · exact hk.of rfl
      · assumption

theorem State.readSource_only {ps : List Part} {q s : State} (hk : Within [.accts, .frames, .place] ps) (hq : OnlyChanges ps q s) (d : Cmd) (c : Nat) (n : Nat) : OnlyChanges ps q (State.readSource s d c n) := by
  unfold State.readSource
  split
  · assumption
  · with_reducible refine OnlyChanges.foldl ?_ ?_
    · assumption
    · intro x1 x2 x3
      with_reducible apply State.readRows_only
      · exact hk
      · assumption

theorem State.writeNewRows_only {ps : List Part} {q s a7 : State} (hk : Within [.accts, .mem, .frames, .place] ps) (hq : OnlyChanges ps q a7) (d : Cmd) (n : Nat) (h : Nat) (o : Obj) (t : TableDesc)
    (l : List (Nat × (Nat × List Nat) × Nat)) : OnlyChanges ps q (State.writeNewRows s d n h o t a7 l) := by
  induction l generalizing a7 with
  | nil => exact hq
  | cons y rest ih =>
    obtain ⟨u, x, slot⟩ := y
    rw [State.writeNewRows]
    have h1 := State.writePool_only (hk.of rfl) hq d n o t (2 * slot)
      (s.newRow d h o t (match s.homeOf t.pool (rowPlace t.pool (poolRowBytes o t) (2 * slot)).2.1 with
        | some f => s.tileScale f | none => scaleOne) u x).1
    exact ih (OnlyChanges.ite h1 (State.writePool_only (hk.of rfl) h1 _ _ _ _ _ _))

theorem State.readUpdate_only {ps : List Part} {q s : State} (hk : Within [.accts, .frames, .place] ps) (hq : OnlyChanges ps q s) (d : Cmd) (n : Nat) (h : Nat) (o : Obj) (t : TableDesc) (rows : List Nat) : OnlyChanges ps q (State.readUpdate s d n h o t rows) := by
  unfold State.readUpdate
  extract_lets +onlyGivenNames v1
  have hv1 : OnlyChanges ps q v1 := by
    unfold v1
    with_reducible apply State.readSource_only
    · exact hk
    · assumption
  clear_value v1
  with_reducible refine OnlyChanges.ite ?_ ?_
  · assumption
  · extract_lets +onlyGivenNames v2
    have hv2 : OnlyChanges ps q v2 := by
      unfold v2
      with_reducible apply State.readRows_only
      · exact hk
      · assumption
    clear_value v2
    with_reducible refine OnlyChanges.ite ?_ ?_
    · assumption
    · with_reducible apply State.readRows_only
      · exact hk
      · assumption

theorem State.workScatter_only {ps : List Part} {q s : State} (hk : Within [.reg, .chans, .cqs, .accts, .gfe, .clus, .cnts, .resvs, .mem, .frames, .objs, .place, .host, .fab, .integ, .icnt, .sup, .out] ps) (hq : OnlyChanges ps q s) (n : Nat) (run : Run) (d : Cmd) (o : Obj) (t : TableDesc) (r : Resolution) (slots : List Nat) : OnlyChanges ps q (State.workScatter s n run d o t r slots) := by
  unfold State.workScatter
  extract_lets +onlyGivenNames v1
  clear_value v1
  extract_lets +onlyGivenNames v2
  clear_value v2
  extract_lets +onlyGivenNames v3
  clear_value v3
  extract_lets +onlyGivenNames v4
  have hv4 : OnlyChanges ps q v4.2 := by
    unfold v4
    split
    · assumption
    · with_reducible apply State.tblInject_only
      · exact hk.of rfl
      · assumption
  clear_value v4
  extract_lets +onlyGivenNames v5
  have hv5 : OnlyChanges ps q v5 := by
    unfold v5
    with_reducible apply State.countRows_only
    · exact hk.of rfl
    · assumption
  clear_value v5
  with_reducible refine OnlyChanges.ite ?_ ?_
  · with_reducible apply State.tblMismatch_only
    · exact hk.of rfl
    · assumption
  · extract_lets +onlyGivenNames v6
    clear_value v6
    extract_lets +onlyGivenNames v7
    clear_value v7
    extract_lets +onlyGivenNames v8
    clear_value v8
    extract_lets +onlyGivenNames v9
    have hv9 : OnlyChanges ps q v9 := by
      unfold v9
      with_reducible apply State.writeNewRows_only
      · exact hk.of rfl
      · with_reducible apply State.readUpdate_only
        · exact hk.of rfl
        · assumption
    clear_value v9
    with_reducible apply State.finishWork_only
    · exact hk.of rfl
    · with_reducible apply State.prepare_only
      · exact hk.of rfl
      · assumption

theorem State.runScatter_only {ps : List Part} {q s : State} (hk : Within [.reg, .chans, .cqs, .accts, .gfe, .clus, .cnts, .resvs, .mem, .frames, .objs, .place, .host, .fab, .integ, .icnt, .sup, .out, .tests] ps) (hq : OnlyChanges ps q s) (n : Nat) : OnlyChanges ps q (State.runScatter s n) := by
  unfold State.runScatter
  split
  · assumption
  · split
    · extract_lets +onlyGivenNames v1
      clear_value v1
      extract_lets +onlyGivenNames v2
      clear_value v2
      extract_lets +onlyGivenNames v3
      clear_value v3
      extract_lets +onlyGivenNames v4
      clear_value v4
      with_reducible refine OnlyChanges.ite ?_ ?_
      · with_reducible apply State.fetchAll_only
        · exact hk.of rfl
        · assumption
      · split
        · with_reducible apply State.stopFound_only
          · exact hk.of rfl
          · assumption
        · with_reducible refine OnlyChanges.ite ?_ ?_
          · with_reducible apply State.stopWith_only
            · exact hk.of rfl
            · assumption
          · with_reducible apply State.workScatter_only
            · exact hk.of rfl
            · assumption
    · assumption

theorem execScatterUpdate_only {ps : List Part} {q s : State} (hk : Within [.reg, .chans, .cqs, .accts, .gfe, .clus, .cnts, .resvs, .mem, .frames, .objs, .place, .host, .fab, .integ, .icnt, .sup, .out, .tests] ps) (hq : OnlyChanges ps q s) (clu : Nat) : RunsOnly ps q (execScatterUpdate clu s) := by
  unfold execScatterUpdate
  with_reducible apply RunsOnly.done
  · exact hk.of rfl
  · with_reducible apply State.runScatter_only
    · exact hk
    · assumption

theorem State.enterRows_only {ps : List Part} {q s : State} (hk : Within [.objs] ps) (hq : OnlyChanges ps q s) (h : Nat) (chan : Nat) (rows : List (Nat × Nat)) : OnlyChanges ps q (State.enterRows s h chan rows) := by
  unfold State.enterRows
  split
  · assumption
  · extract_lets +onlyGivenNames v1
    clear_value v1
    with_reducible apply State.setObj_only
    · exact hk
    · assumption

theorem State.issueFold_only {ps : List Part} {q s : State} (hk : Within [.reg, .gfe, .frames, .objs, .place, .host, .integ, .icnt, .out] ps) (hq : OnlyChanges ps q s) (h : Nat) (o : Obj) (t : TableDesc) (y : TableDyn) (es : List RemapEntry) : OnlyChanges ps q (State.issueFold s h o t y es) := by
  unfold State.issueFold
  extract_lets +onlyGivenNames v1
  clear_value v1
  extract_lets +onlyGivenNames v2
  clear_value v2
  extract_lets +onlyGivenNames v3
  clear_value v3
  extract_lets +onlyGivenNames v4
  clear_value v4
  extract_lets +onlyGivenNames v5
  clear_value v5
  extract_lets +onlyGivenNames v6
  clear_value v6
  extract_lets +onlyGivenNames v7
  clear_value v7
  extract_lets +onlyGivenNames v8
  have hv8 : OnlyChanges ps q v8 := by
    unfold v8
    with_reducible apply State.setObj_only
    · exact hk.of rfl
    · assumption
  clear_value v8
  extract_lets +onlyGivenNames v9
  extract_lets +onlyGivenNames v10
  have hv10 : OnlyChanges ps q v10 := by
    unfold v10
    with_reducible apply OnlyChanges.upd_gfe
    · exact hk.of rfl
    · assumption
    · exact fun _ => rfl
  clear_value v10
  with_reducible apply State.settleRes_only
  · exact hk.of rfl
  · with_reducible apply State.fetchAll_only
    · exact hk.of rfl
    · assumption

theorem execFold_only {ps : List Part} {q s : State} (hk : Within [.reg, .gfe, .frames, .objs, .place, .host, .integ, .icnt, .out] ps) (hq : OnlyChanges ps q s) (table : Nat) : RunsOnly ps q (execFold table s) := by
  unfold execFold
  with_reducible apply RunsOnly.done
  · exact hk.of rfl
  · split
    · with_reducible refine OnlyChanges.ite ?_ ?_
      · assumption
      · extract_lets +onlyGivenNames v1
        clear_value v1
        extract_lets +onlyGivenNames v2
        clear_value v2
        extract_lets +onlyGivenNames v3
        clear_value v3
        extract_lets +onlyGivenNames v4
        clear_value v4
        extract_lets +onlyGivenNames v5
        clear_value v5
        extract_lets +onlyGivenNames v6
        clear_value v6
        with_reducible refine OnlyChanges.ite ?_ ?_
        · with_reducible apply State.setObj_only
          · exact hk.of rfl
          · assumption
        · with_reducible apply State.issueFold_only
          · exact hk
          · assumption
    · assumption

theorem execFoldNow_only {ps : List Part} {q s : State} (hk : Within [.reg, .objs, .host, .out] ps) (hq : OnlyChanges ps q s) (a : Acc) : RunsOnly ps q (execFoldNow a s) := by
  unfold execFoldNow
  with_reducible apply RunsOnly.done
  · exact hk.of rfl
  · with_reducible refine OnlyChanges.ite ?_ ?_
    · assumption
    · extract_lets +onlyGivenNames v1
      clear_value v1
      split
      · with_reducible apply State.setObj_only
        · exact hk.of rfl
        · assumption
      · assumption

theorem State.shareBytes_only {ps : List Part} {q s : State} (hk : Within [.accts] ps) (hq : OnlyChanges ps q s) (ws : List W32) : OnlyChanges ps q (State.shareBytes s ws) := by
  unfold State.shareBytes
  extract_lets +onlyGivenNames v1
  clear_value v1
  with_reducible refine OnlyChanges.foldl ?_ ?_
  · with_reducible apply State.setAcct_only
    · exact hk
    · assumption
  · intro x1 x2 x3
    with_reducible refine OnlyChanges.foldl ?_ ?_
    · assumption
    · intro x4 x5 x6
      with_reducible apply State.chargeBytes_only
      · exact hk
      · assumption

theorem State.workFold_only {ps : List Part} {q s : State} (hk : Within [.reg, .chans, .cqs, .accts, .gfe, .clus, .cnts, .resvs, .mem, .frames, .objs, .place, .host, .fab, .integ, .icnt, .sup, .out] ps) (hq : OnlyChanges ps q s) (n : Nat) (run : Run) (d : Cmd) (o : Obj) (t : TableDesc) (r : Resolution) : OnlyChanges ps q (State.workFold s n run d o t r) := by
  unfold State.workFold
  extract_lets +onlyGivenNames v1
  clear_value v1
  extract_lets +onlyGivenNames v2
  clear_value v2
  extract_lets +onlyGivenNames v3
  clear_value v3
  extract_lets +onlyGivenNames v4
  have hv4 : OnlyChanges ps q v4 := by
    unfold v4
    with_reducible apply State.readTiles_only
    · exact hk.of rfl
    · with_reducible apply State.readRows_only
      · exact hk.of rfl
      · with_reducible apply State.countRows_only
        · exact hk.of rfl
        · assumption
  clear_value v4
  with_reducible apply State.shareBytes_only
  · exact hk.of rfl
  · with_reducible apply State.finishWork_only
    · exact hk.of rfl
    · with_reducible apply State.prepare_only
      · exact hk.of rfl
      · assumption

theorem State.runFold_only {ps : List Part} {q s : State} (hk : Within [.reg, .chans, .cqs, .accts, .gfe, .clus, .cnts, .resvs, .mem, .frames, .objs, .place, .host, .fab, .integ, .icnt, .sup, .out, .tests] ps) (hq : OnlyChanges ps q s) (n : Nat) : OnlyChanges ps q (State.runFold s n) := by
  unfold State.runFold
  split
  · assumption
  · split
    · extract_lets +onlyGivenNames v1
      clear_value v1
      with_reducible refine OnlyChanges.ite ?_ ?_
      · with_reducible apply State.fetchAll_only
        · exact hk.of rfl
        · assumption
      · split
        · with_reducible apply State.stopFound_only
          · exact hk.of rfl
          · assumption
        · with_reducible apply State.workFold_only
          · exact hk.of rfl
          · assumption
    · assumption

theorem State.leaveRows_only {ps : List Part} {q s : State} (hk : Within [.objs] ps) (hq : OnlyChanges ps q s) (h : Nat) (rows : List (Nat × Nat)) : OnlyChanges ps q (State.leaveRows s h rows) := by
  unfold State.leaveRows
  split
  · assumption
  · extract_lets +onlyGivenNames v1
    clear_value v1
    with_reducible apply State.setObj_only
    · exact hk
    · assumption

theorem State.stopCmd_only {ps : List Part} {q s : State} (hk : Within [.reg, .chans, .cqs, .accts, .gfe, .clus, .resvs, .frames, .objs, .host, .fab, .integ, .icnt, .sup, .out] ps) (hq : OnlyChanges ps q s) (d : Cmd) : OnlyChanges ps q (State.stopCmd s d) := by
  unfold State.stopCmd
  extract_lets +onlyGivenNames v1
  have hv1 : OnlyChanges ps q v1 := by
    unfold v1
    with_reducible refine OnlyChanges.ite ?_ ?_
    · with_reducible apply State.discardPair_only
      · exact hk.of rfl
      · assumption
    · split
      · split
        · with_reducible refine OnlyChanges.ite ?_ ?_
          · with_reducible apply State.stopRun_only
            · exact hk.of rfl
            · assumption
          · assumption
        · assumption
      · with_reducible apply State.unqueue_only
        · exact hk.of rfl
        · assumption
      · assumption
  clear_value v1
  with_reducible apply State.endCmd_only
  · exact hk.of rfl
  · assumption

theorem State.controlledStop_only {ps : List Part} {q s : State} (hk : Within [.reg, .chans, .cqs, .accts, .gfe, .clus, .resvs, .frames, .objs, .place, .host, .fab, .integ, .icnt, .sup, .out] ps) (hq : OnlyChanges ps q s) : OnlyChanges ps q (State.controlledStop s) := by
  unfold State.controlledStop
  with_reducible refine OnlyChanges.ite ?_ ?_
  · assumption
  · extract_lets +onlyGivenNames v1
    clear_value v1
    extract_lets +onlyGivenNames v2
    have hv2 : OnlyChanges ps q v2 := by
      unfold v2
      with_reducible apply State.raise_only
      · exact hk.of rfl
      · with_reducible apply OnlyChanges.upd_sup
        · exact hk.of rfl
        · assumption
    clear_value v2
    with_reducible apply State.tidy_only
    · exact hk.of rfl
    · with_reducible refine OnlyChanges.foldl ?_ ?_
      · assumption
      · intro x3 x4 x5
        split
        · with_reducible apply State.stopCmd_only
          · exact hk.of rfl
          · assumption
        · assumption

end Sys2Proof.Machine
end

