-- ==== Sys2Proof/Laws/FramePlace.lean ====
section
/-! SUPPORT. What may change (`OnlyChanges`), for host memory, placement, clusters, commitment and scheduling. -/

namespace Sys2Proof.Machine
open Sys2Proof

theorem State.toCycle_only {ps : List Part} {q s : State} (hk : Within [.clk, .reg, .chans, .cqs, .accts, .gfe, .clus, .resvs, .frames, .objs, .place, .host, .fab, .integ, .icnt, .sup, .out] ps) (hq : OnlyChanges ps q s) (c : Nat) : OnlyChanges ps q (State.toCycle s c) := by
  unfold State.toCycle
  with_reducible refine OnlyChanges.ite ?_ ?_
  · with_reducible apply State.settleCommits_only
    · exact hk.of rfl
    · with_reducible apply State.clockTo_only
      · exact hk.of rfl
      · with_reducible apply State.endStep_only
        · exact hk.of rfl
        · with_reducible apply State.closeFences_only
          · exact hk.of rfl
          · assumption
  · assumption

theorem State.tickStage_only {ps : List Part} {q s : State} (hk : Within [.clk] ps) (hq : OnlyChanges ps q s) (g : TickStage) : OnlyChanges ps q (State.tickStage s g) := by
  unfold State.tickStage
  with_reducible apply OnlyChanges.upd_clk
  · exact hk
  · assumption

theorem State.lastCommits_only {ps : List Part} {q s : State} (hk : Within [.accts, .gfe, .clus, .host, .fab, .out] ps) (hq : OnlyChanges ps q s) : OnlyChanges ps q (State.lastCommits s) := by
  unfold State.lastCommits
  with_reducible refine OnlyChanges.foldl ?_ ?_
  · assumption
  · intro x1 x2 x3
    with_reducible apply State.beginCommit_only
    · exact hk
    · assumption

theorem State.cutoffWork_only {ps : List Part} {q s : State} (hk : Within [.clk, .reg, .chans, .cqs, .accts, .gfe, .clus, .resvs, .frames, .objs, .place, .host, .fab, .integ, .icnt, .sup, .out] ps) (hq : OnlyChanges ps q s) : OnlyChanges ps q (State.cutoffWork s) := by
  unfold State.cutoffWork
  extract_lets +onlyGivenNames v1
  have hv1 : OnlyChanges ps q v1 := by
    unfold v1
    with_reducible apply State.lastCommits_only
    · exact hk.of rfl
    · assumption
  clear_value v1
  with_reducible apply State.tickStage_only
  · exact hk.of rfl
  · with_reducible refine OnlyChanges.foldl ?_ ?_
    · assumption
    · intro x1 x2 x3
      with_reducible apply State.overrun_only
      · exact hk.of rfl
      · assumption

theorem State.nextCycle_only {ps : List Part} {q s : State} (hk : Within [.clk, .reg, .chans, .cqs, .accts, .gfe, .clus, .resvs, .frames, .objs, .place, .host, .fab, .integ, .icnt, .sup, .out] ps) (hq : OnlyChanges ps q s) : OnlyChanges ps q (State.nextCycle s) := by
  unfold State.nextCycle
  extract_lets +onlyGivenNames v1
  have hv1 : OnlyChanges ps q v1 := by
    unfold v1
    with_reducible apply State.toCycle_only
    · exact hk
    · assumption
  clear_value v1
  with_reducible refine OnlyChanges.ite ?_ ?_
  · with_reducible apply State.cutoffWork_only
    · exact hk
    · assumption
  · assumption

theorem State.memAnswer_only {ps : List Part} {q s : State} (hk : Within [.out] ps) (hq : OnlyChanges ps q s) (a : MemAcc) (bytes : List Byte) (poison : Bool) : OnlyChanges ps q (State.memAnswer s a bytes poison) := by
  unfold State.memAnswer
  split
  · with_reducible apply State.emit_only
    · exact hk
    · assumption
  · with_reducible apply State.emit_only
    · exact hk
    · assumption

theorem State.badRead_only {ps : List Part} {q s : State} (hk : Within [.reg, .chans, .cqs, .accts, .gfe, .frames, .objs, .place, .host, .fab, .integ, .icnt, .out, .tests] ps) (hq : OnlyChanges ps q s) (f : Nat) (c : PoisonCause) : OnlyChanges ps q (State.badRead s f c) := by
  unfold State.badRead
  extract_lets +onlyGivenNames v1
  clear_value v1
  split
  · with_reducible apply State.settleResAll_only
    · exact hk.of rfl
    · with_reducible apply State.tidy_only
      · exact hk.of rfl
      · with_reducible apply State.poisonFrame_only
        · exact hk.of rfl
        · assumption
  · with_reducible refine OnlyChanges.ite ?_ ?_
    · assumption
    · with_reducible apply State.retireFrame_only
      · exact hk.of rfl
      · assumption
  · with_reducible apply OnlyChanges.upd_integ
    · exact hk.of rfl
    · assumption
    · exact fun _ => rfl

theorem State.rawAccess_only {ps : List Part} {q s : State} (hk : Within [.reg, .chans, .cqs, .accts, .gfe, .mem, .frames, .objs, .place, .host, .fab, .integ, .icnt, .out, .tests] ps) (hq : OnlyChanges ps q s) (a : MemAcc) (bad : Option PoisonCause) : OnlyChanges ps q (State.rawAccess s a bad) := by
  unfold State.rawAccess
  extract_lets +onlyGivenNames v1
  clear_value v1
  split
  · with_reducible apply State.memAnswer_only
    · exact hk.of rfl
    · with_reducible refine OnlyChanges.ite ?_ ?_
      · with_reducible apply State.raise_only
        · exact hk.of rfl
        · assumption
      · with_reducible refine OnlyChanges.ite ?_ ?_
        · with_reducible apply State.writeBytes_only
          · exact hk.of rfl
          · with_reducible apply State.touch_only
            · exact hk.of rfl
            · assumption
        · assumption
  · with_reducible refine OnlyChanges.ite ?_ ?_
    · with_reducible apply State.memAnswer_only
      · exact hk.of rfl
      · assumption
    · split
      · with_reducible apply State.memAnswer_only
        · exact hk.of rfl
        · with_reducible apply State.badRead_only
          · exact hk.of rfl
          · with_reducible apply State.touch_only
            · exact hk.of rfl
            · assumption
      · with_reducible refine OnlyChanges.ite ?_ ?_
        · with_reducible apply State.memAnswer_only
          · exact hk.of rfl
          · with_reducible apply State.touch_only
            · exact hk.of rfl
            · assumption
        · with_reducible apply State.memAnswer_only
          · exact hk.of rfl
          · with_reducible apply State.touch_only
            · exact hk.of rfl
            · assumption

theorem State.writeSide_only {ps : List Part} {q s : State} (hk : Within [.mem] ps) (hq : OnlyChanges ps q s) (f : Nat) (x : Nat) (bs : List Byte) : OnlyChanges ps q (State.writeSide s f x bs) := by
  unfold State.writeSide
  with_reducible refine OnlyChanges.foldl ?_ ?_
  · assumption
  · intro x1 x2 x3
    with_reducible refine OnlyChanges.ite ?_ ?_
    · with_reducible apply State.putByte_only
      · exact hk
      · assumption
    · assumption

theorem State.renew_only {ps : List Part} {q s : State} (hk : Within [.mem, .frames] ps) (hq : OnlyChanges ps q s) (f : Nat) (o : Obj) (tile : Nat) : OnlyChanges ps q (State.renew s f o tile) := by
  unfold State.renew
  with_reducible refine OnlyChanges.ite ?_ ?_
  · with_reducible apply State.setFrame_only
    · exact hk.of rfl
    · with_reducible apply State.writeFrame_only
      · exact hk.of rfl
      · assumption
  · assumption

theorem State.dirtyMove_only {ps : List Part} {q s : State} (hk : Within [.place] ps) (hq : OnlyChanges ps q s) (h : Nat) (tile : Nat) : OnlyChanges ps q (State.dirtyMove s h tile) := by
  unfold State.dirtyMove
  with_reducible apply OnlyChanges.upd_place
  · exact hk
  · assumption

theorem State.tileAccess_only {ps : List Part} {q s : State} (hk : Within [.reg, .chans, .cqs, .accts, .gfe, .mem, .frames, .objs, .place, .host, .fab, .integ, .icnt, .out, .tests] ps) (hq : OnlyChanges ps q s) (a : MemAcc) (h : Nat) (tile : Nat) (x : Nat) (side : Bool) (o : Obj) (f : Nat) (bad : Option PoisonCause) : OnlyChanges ps q (State.tileAccess s a h tile x side o f bad) := by
  unfold State.tileAccess
  extract_lets +onlyGivenNames v1
  have hv1 : OnlyChanges ps q v1 := by
    unfold v1
    with_reducible apply State.touch_only
    · exact hk.of rfl
    · assumption
  clear_value v1
  split
  · extract_lets +onlyGivenNames v2
    have hv2 : OnlyChanges ps q v2 := by
      unfold v2
      with_reducible apply State.dirtyMove_only
      · exact hk.of rfl
      · with_reducible apply State.renew_only
        · exact hk.of rfl
        · assumption
    clear_value v2
    with_reducible apply State.memAnswer_only
    · exact hk.of rfl
    · with_reducible refine OnlyChanges.ite ?_ ?_
      · with_reducible apply State.writeSide_only
        · exact hk.of rfl
        · assumption
      · with_reducible apply State.writeBytes_only
        · exact hk.of rfl
        · assumption
  · split
    · with_reducible apply State.memAnswer_only
      · exact hk.of rfl
      · with_reducible apply State.badRead_only
        · exact hk.of rfl
        · assumption
    · with_reducible refine OnlyChanges.ite ?_ ?_
      · with_reducible apply State.memAnswer_only
        · exact hk.of rfl
        · assumption
      · with_reducible apply State.memAnswer_only
        · exact hk.of rfl
        · assumption

theorem State.aptAccess_only {ps : List Part} {q s : State} (hk : Within [.reg, .chans, .cqs, .accts, .gfe, .mem, .frames, .objs, .place, .host, .fab, .integ, .icnt, .out, .tests] ps) (hq : OnlyChanges ps q s) (a : MemAcc) (bad : Option PoisonCause) : OnlyO ps q (State.aptAccess s a bad) := by
  unfold State.aptAccess
  split
  · with_reducible apply OnlyO.some
    with_reducible apply State.memAnswer_only
    · exact hk.of rfl
    · assumption
  · extract_lets +onlyGivenNames v1
    clear_value v1
    split
    · with_reducible apply OnlyO.some
      with_reducible apply State.memAnswer_only
      · exact hk.of rfl
      · with_reducible apply State.raise_only
        · exact hk.of rfl
        · assumption
    · extract_lets +onlyGivenNames v2
      clear_value v2
      extract_lets +onlyGivenNames v3
      clear_value v3
      split
      · with_reducible apply OnlyO.some
        with_reducible apply State.memAnswer_only
        · exact hk.of rfl
        · with_reducible apply State.raise_only
          · exact hk.of rfl
          · assumption
      · split
        · with_reducible apply OnlyO.some
          with_reducible apply State.memAnswer_only
          · exact hk.of rfl
          · with_reducible apply State.raise_only
            · exact hk.of rfl
            · assumption
        · split
          · with_reducible apply OnlyO.some
            with_reducible apply State.memAnswer_only
            · exact hk.of rfl
            · assumption
          · split
            · with_reducible exact OnlyO.none
            · with_reducible apply OnlyO.some
              with_reducible apply State.tileAccess_only
              · exact hk
              · assumption

theorem State.waitRaw_only {ps : List Part} {q s : State} (hk : Within [.place, .host, .memWait] ps) (hq : OnlyChanges ps q s) (a : MemAcc) : OnlyChanges ps q (State.waitRaw s a) := by
  unfold State.waitRaw
  with_reducible apply State.queueFills_only
  · exact hk.of rfl
  · with_reducible apply OnlyChanges.upd_host
    · exact hk.of rfl
    · assumption
    · exact hk.no rfl

theorem State.memAccess_only {ps : List Part} {q s : State} (hk : Within [.reg, .chans, .cqs, .accts, .gfe, .mem, .frames, .objs, .place, .host, .fab, .integ, .icnt, .out, .tests, .memWait] ps) (hq : OnlyChanges ps q s) (a : MemAcc) (bad : Option PoisonCause) : OnlyChanges ps q (State.memAccess s a bad) := by
  unfold State.memAccess
  with_reducible refine OnlyChanges.ite ?_ ?_
  · assumption
  · with_reducible refine OnlyChanges.ite ?_ ?_
    · split
      · with_reducible refine OnlyO.use ?_ (by assumption)
        with_reducible apply State.aptAccess_only
        · exact hk.of rfl
        · assumption
      · extract_lets +onlyGivenNames v1
        clear_value v1
        with_reducible apply State.wantFetch_only
        · exact hk.of rfl
        · with_reducible apply OnlyChanges.upd_host
          · exact hk.of rfl
          · assumption
          · exact hk.no rfl
    · with_reducible refine OnlyChanges.ite ?_ ?_
      · with_reducible apply State.waitRaw_only
        · exact hk.of rfl
        · assumption
      · with_reducible refine OnlyChanges.ite ?_ ?_
        · with_reducible apply State.rawAccess_only
          · exact hk.of rfl
          · assumption
        · with_reducible apply State.memAnswer_only
          · exact hk.of rfl
          · split
            · with_reducible apply State.raise_only
              · exact hk.of rfl
              · assumption
            · assumption

theorem State.settleMem_only {ps : List Part} {q s : State} (hk : Within [.reg, .chans, .cqs, .accts, .gfe, .mem, .frames, .objs, .place, .host, .fab, .integ, .icnt, .out, .tests, .memWait] ps) (hq : OnlyChanges ps q s) : OnlyChanges ps q (State.settleMem s) := by
  unfold State.settleMem
  extract_lets +onlyGivenNames v1
  clear_value v1
  with_reducible refine OnlyChanges.ite ?_ ?_
  · assumption
  · with_reducible refine OnlyChanges.foldl ?_ ?_
    · with_reducible apply OnlyChanges.upd_host
      · exact hk.of rfl
      · assumption
      · exact hk.no rfl
    · intro x1 x2 x3
      with_reducible apply State.memAccess_only
      · exact hk
      · assumption

theorem execMemRd_only {ps : List Part} {q s : State} (hk : Within [.reg, .chans, .cqs, .accts, .gfe, .mem, .frames, .objs, .place, .host, .fab, .integ, .icnt, .out, .tests, .memWait] ps) (hq : OnlyChanges ps q s) (dpa : Nat) (len : Nat) (bad : Option PoisonCause) : RunsOnly ps q (execMemRd dpa len bad s) := by
  unfold execMemRd
  with_reducible apply RunsOnly.done
  · exact hk.of rfl
  · with_reducible apply State.memAccess_only
    · exact hk
    · assumption

theorem execMemWr_only {ps : List Part} {q s : State} (hk : Within [.reg, .chans, .cqs, .accts, .gfe, .mem, .frames, .objs, .place, .host, .fab, .integ, .icnt, .out, .tests, .memWait] ps) (hq : OnlyChanges ps q s) (dpa : Nat) (bytes : List Byte) : RunsOnly ps q (execMemWr dpa bytes s) := by
  unfold execMemWr
  with_reducible apply RunsOnly.done
  · exact hk.of rfl
  · with_reducible apply State.memAccess_only
    · exact hk
    · assumption

theorem execMemInv_only {ps : List Part} {q s : State} (hk : Within [.reg, .out] ps) (hq : OnlyChanges ps q s) (dpa : Nat) : RunsOnly ps q (execMemInv dpa s) := by
  unfold execMemInv
  with_reducible apply RunsOnly.done
  · exact hk.of rfl
  · with_reducible refine OnlyChanges.ite ?_ ?_
    · with_reducible apply State.emit_only
      · exact hk.of rfl
      · assumption
    · assumption

theorem execMemSpecRd_only {ps : List Part} {q s : State} (hk : Within [.reg] ps) (hq : OnlyChanges ps q s) (_dpa : Nat) : RunsOnly ps q (execMemSpecRd _dpa s) := by
  unfold execMemSpecRd
  with_reducible apply RunsOnly.done
  · exact hk
  · assumption

theorem execSnoop_only {ps : List Part} {q s : State} (hk : Within [.reg, .out] ps) (hq : OnlyChanges ps q s) (_addr : Nat) : RunsOnly ps q (execSnoop _addr s) := by
  unfold execSnoop
  with_reducible apply RunsOnly.done
  · exact hk.of rfl
  · with_reducible refine OnlyChanges.ite ?_ ?_
    · with_reducible apply State.emit_only
      · exact hk.of rfl
      · assumption
    · assumption

theorem execCxlAptValid_only {ps : List Part} {q s : State} (hk : Within [.reg, .host, .out] ps) (hq : OnlyChanges ps q s) (a : Acc) (valid : Bool) : RunsOnly ps q (execCxlAptValid a valid s) := by
  unfold execCxlAptValid
  with_reducible apply RunsOnly.done
  · exact hk.of rfl
  · with_reducible refine OnlyChanges.ite ?_ ?_
    · assumption
    · extract_lets +onlyGivenNames v1
      clear_value v1
      with_reducible refine OnlyChanges.ite ?_ ?_
      · with_reducible apply State.ignored_only
        · exact hk
        · assumption
      · with_reducible apply State.fldPut_only
        · exact hk.of rfl
        · assumption

theorem State.landMove_only {ps : List Part} {q s : State} (hk : Within [.place] ps) (hq : OnlyChanges ps q s) (h : Nat) (tile : Nat) : OnlyChanges ps q (State.landMove s h tile) := by
  unfold State.landMove
  with_reducible apply OnlyChanges.upd_place
  · exact hk
  · assumption

theorem State.poisonHome_only {ps : List Part} {q s : State} (hk : Within [.reg, .frames, .place, .host, .integ, .icnt, .out, .tests] ps) (hq : OnlyChanges ps q s) (h : Nat) (tile : Nat) (p : PoisonCause) : OnlyChanges ps q (State.poisonHome s h tile p) := by
  unfold State.poisonHome
  split
  · with_reducible refine OnlyChanges.ite ?_ ?_
    · with_reducible apply State.poisonFrame_only
      · exact hk
      · assumption
    · assumption
  · assumption

theorem State.landCopy_only {ps : List Part} {q s : State} (hk : Within [.reg, .chans, .cqs, .accts, .gfe, .mem, .frames, .objs, .place, .host, .fab, .integ, .icnt, .out, .tests, .memWait] ps) (hq : OnlyChanges ps q s) (c : CellarOp) (bad : Option PoisonCause) : OnlyChanges ps q (State.landCopy s c bad) := by
  unfold State.landCopy
  extract_lets +onlyGivenNames v1
  clear_value v1
  extract_lets +onlyGivenNames v2
  have hv2 : OnlyChanges ps q v2 := by
    unfold v2
    with_reducible apply OnlyChanges.upd_place
    · exact hk.of rfl
    · assumption
  clear_value v2
  extract_lets +onlyGivenNames v3
  have hv3 : OnlyChanges ps q v3 := by
    unfold v3
    split
    · with_reducible apply State.poisonHome_only
      · exact hk.of rfl
      · assumption
    · assumption
  clear_value v3
  with_reducible apply State.settleMem_only
  · exact hk
  · with_reducible apply State.settleResAll_only
    · exact hk.of rfl
    · with_reducible apply State.tidy_only
      · exact hk.of rfl
      · assumption

theorem State.landRaw_only {ps : List Part} {q s : State} (hk : Within [.reg, .chans, .cqs, .accts, .gfe, .mem, .frames, .objs, .place, .host, .fab, .integ, .icnt, .out, .tests, .memWait] ps) (hq : OnlyChanges ps q s) (c : CellarOp) (bad : Option PoisonCause) : OnlyChanges ps q (State.landRaw s c bad) := by
  unfold State.landRaw
  extract_lets +onlyGivenNames v1
  clear_value v1
  extract_lets +onlyGivenNames v2
  have hv2 : OnlyChanges ps q v2 := by
    unfold v2
    with_reducible apply OnlyChanges.upd_place
    · exact hk.of rfl
    · assumption
  clear_value v2
  split
  · with_reducible apply State.tryWants_only
    · exact hk.of rfl
    · assumption
  · extract_lets +onlyGivenNames v3
    clear_value v3
    extract_lets +onlyGivenNames v4
    have hv4 : OnlyChanges ps q v4 := by
      unfold v4
      with_reducible apply OnlyChanges.upd_host
      · exact hk.of rfl
      · assumption
      · exact hk.no rfl
    clear_value v4
    with_reducible apply State.tryWants_only
    · exact hk.of rfl
    · with_reducible refine OnlyChanges.ite ?_ ?_
      · with_reducible apply State.rawAccess_only
        · exact hk.of rfl
        · assumption
      · assumption

theorem State.landRead_only {ps : List Part} {q s : State} (hk : Within [.reg, .chans, .cqs, .accts, .gfe, .mem, .frames, .objs, .place, .host, .fab, .integ, .icnt, .out, .tests, .memWait] ps) (hq : OnlyChanges ps q s) (c : CellarOp) (h : Nat) (tile : Nat) (bad : Option PoisonCause) : OnlyChanges ps q (State.landRead s c h tile bad) := by
  unfold State.landRead
  split
  · with_reducible apply State.landCopy_only
    · exact hk
    · assumption
  · with_reducible refine OnlyChanges.ite ?_ ?_
    · assumption
    · split
      · with_reducible apply State.settleMem_only
        · exact hk
        · with_reducible apply State.settleResAll_only
          · exact hk.of rfl
          · with_reducible apply State.tidy_only
            · exact hk.of rfl
            · with_reducible apply State.poisonFrame_only
              · exact hk.of rfl
              · with_reducible apply State.dropCellar_only
                · exact hk.of rfl
                · assumption
      · with_reducible apply State.tryWants_only
        · exact hk.of rfl
        · with_reducible apply State.landMove_only
          · exact hk.of rfl
          · with_reducible apply State.dropCellar_only
            · exact hk.of rfl
            · assumption

theorem execCellarReadLand_only {ps : List Part} {q s : State} (hk : Within [.reg, .chans, .cqs, .accts, .gfe, .mem, .frames, .objs, .place, .host, .fab, .integ, .icnt, .out, .tests, .memWait] ps) (hq : OnlyChanges ps q s) (h : Nat) (tile : Nat) (bad : Option PoisonCause) : RunsOnly ps q (execCellarReadLand h tile bad s) := by
  unfold execCellarReadLand
  with_reducible apply RunsOnly.done
  · exact hk.of rfl
  · split
    · with_reducible refine OnlyChanges.ite ?_ ?_
      · assumption
      · with_reducible refine OnlyChanges.ite ?_ ?_
        · with_reducible apply State.landRaw_only
          · exact hk
          · assumption
        · with_reducible apply State.landRead_only
          · exact hk
          · assumption
    · assumption

theorem execCellarProgramComplete_only {ps : List Part} {q s : State} (hk : Within [.reg, .frames, .place, .host, .integ, .icnt, .out] ps) (hq : OnlyChanges ps q s) (h : Nat) (tile : Nat) : RunsOnly ps q (execCellarProgramComplete h tile s) := by
  unfold execCellarProgramComplete
  with_reducible apply RunsOnly.done
  · exact hk.of rfl
  · split
    · with_reducible refine OnlyChanges.ite ?_ ?_
      · assumption
      · with_reducible apply State.tryWants_only
        · exact hk
        · with_reducible apply State.landMove_only
          · exact hk.of rfl
          · with_reducible apply OnlyChanges.upd_place
            · exact hk.of rfl
            · assumption
    · assumption

theorem State.commitMove_only {ps : List Part} {q s : State} (hk : Within [.reg, .chans, .cqs, .accts, .gfe, .mem, .frames, .objs, .place, .xfers, .host, .fab, .integ, .icnt, .out, .tests, .memWait] ps) (hq : OnlyChanges ps q s) (m : Move) : OnlyChanges ps q (State.commitMove s m) := by
  unfold State.commitMove
  extract_lets +onlyGivenNames v1
  clear_value v1
  extract_lets +onlyGivenNames v2
  have hv2 : OnlyChanges ps q v2 := by
    unfold v2
    with_reducible apply OnlyChanges.upd_xfers
    · exact hk.of rfl
    · assumption
  clear_value v2
  extract_lets +onlyGivenNames v3
  have hv3 : OnlyChanges ps q v3 := by
    unfold v3
    with_reducible apply State.touch_only
    · exact hk.of rfl
    · with_reducible apply State.makeHome_only
      · exact hk.of rfl
      · with_reducible apply State.dropMove_only
        · exact hk.of rfl
        · with_reducible apply State.copyFrame_only
          · exact hk.of rfl
          · with_reducible apply State.touch_only
            · exact hk.of rfl
            · assumption
  clear_value v3
  with_reducible apply State.settleMem_only
  · exact hk.of rfl
  · with_reducible apply State.settleResAll_only
    · exact hk.of rfl
    · with_reducible apply State.tidy_only
      · exact hk.of rfl
      · with_reducible apply State.chargeMove_only
        · exact hk.of rfl
        · with_reducible apply State.leaveHome_only
          · exact hk.of rfl
          · assumption

theorem execTileMoveCommit_only {ps : List Part} {q s : State} (hk : Within [.reg, .chans, .cqs, .accts, .gfe, .mem, .frames, .objs, .place, .xfers, .host, .fab, .integ, .icnt, .out, .tests, .memWait] ps) (hq : OnlyChanges ps q s) (h : Nat) (tile : Nat) (bad : Option PoisonCause) : RunsOnly ps q (execTileMoveCommit h tile bad s) := by
  unfold execTileMoveCommit
  with_reducible apply RunsOnly.done
  · exact hk.of rfl
  · split
    · assumption
    · with_reducible refine OnlyChanges.ite ?_ ?_
      · assumption
      · extract_lets +onlyGivenNames v1
        clear_value v1
        split
        · with_reducible apply State.settleMem_only
          · exact hk.of rfl
          · with_reducible apply State.settleResAll_only
            · exact hk.of rfl
            · with_reducible apply State.tidy_only
              · exact hk.of rfl
              · with_reducible apply State.poisonFrame_only
                · exact hk.of rfl
                · assumption
        · with_reducible refine OnlyChanges.ite ?_ ?_
          · with_reducible apply State.tidy_only
            · exact hk.of rfl
            · with_reducible apply State.abandonMove_only
              · exact hk.of rfl
              · assumption
          · with_reducible apply State.commitMove_only
            · exact hk
            · assumption

theorem State.background_only {ps : List Part} {q s : State} (hk : Within [.frames, .place] ps) (hq : OnlyChanges ps q s) (budget : Nat) (h : Nat) (tile : Nat) (fs : List Nat) : OnlyChanges ps q (State.background s budget h tile fs).1 := by
  unfold State.background
  split
  · assumption
  · split
    · dsimp only
      with_reducible apply State.startMove_only
      · exact hk
      · assumption
    · assumption

theorem State.demoteOne_only {ps : List Part} {q s : State} (hk : Within [.reg, .frames, .place, .host, .out] ps) (hq : OnlyChanges ps q s) (budget : Nat) (tier : Nat) (r : FrameRec) : OnlyChanges ps q (State.demoteOne s budget tier r).1 := by
  unfold State.demoteOne
  split
  · assumption
  · split
    · dsimp only
      with_reducible apply State.raise_only
      · exact hk.of rfl
      · assumption
    · dsimp only
      with_reducible apply State.startMove_only
      · exact hk.of rfl
      · assumption

theorem State.demoteList_only {ps : List Part} {q s : State} (hk : Within [.reg, .frames, .place, .host, .out] ps) (hq : OnlyChanges ps q s) (budget : Nat) (n : Nat) (tier : State → Nat)
    (l : List (Nat × Nat × FrameRec)) : OnlyChanges ps q (State.demoteList s budget n tier l).1 := by
  induction l generalizing s budget n with
  | nil => exact hq
  | cons x t ih =>
    rw [State.demoteList]
    split
    · exact hq
    · exact ih (State.demoteOne_only (hk.of rfl) hq _ _ _) _ _

theorem State.scan1_only {ps : List Part} {q s : State} (hk : Within [.reg, .frames, .place, .host, .out] ps) (hq : OnlyChanges ps q s) (budget : Nat) : OnlyChanges ps q (State.scan1 s budget).1 := by
  unfold State.scan1
  split
  · with_reducible apply State.demoteList_only
    · exact hk
    · assumption
  · assumption

theorem State.scan2_only {ps : List Part} {q s : State} (hk : Within [.reg, .frames, .place, .host, .out] ps) (hq : OnlyChanges ps q s) (budget : Nat) : OnlyChanges ps q (State.scan2 s budget).1 := by
  unfold State.scan2
  split
  · with_reducible apply State.demoteList_only
    · exact hk
    · assumption
  · assumption

theorem downFrom0_only {ps : List Part} {q : State} (y : State × Nat) (x : Nat × FrameRec) (hk : Within [.reg, .frames, .place, .host, .out] ps) (hq : OnlyChanges ps q y.1) : OnlyChanges ps q (downFrom0 y x).1 := by
  unfold downFrom0
  with_reducible apply State.demoteOne_only
  · exact hk
  · assumption

theorem State.scan3_only {ps : List Part} {q s : State} (hk : Within [.reg, .frames, .place, .host, .out] ps) (hq : OnlyChanges ps q s) (budget : Nat) : OnlyChanges ps q (State.scan3 s budget).1 := by
  unfold State.scan3
  with_reducible refine OnlyChanges.foldlFst ?_ ?_
  · assumption
  · intro x1 x2 x3
    with_reducible apply downFrom0_only
    · exact hk
    · assumption

theorem toAttic_only {ps : List Part} {q : State} (y : State × Nat) (x : Nat × Nat × FrameRec) (hk : Within [.frames, .place] ps) (hq : OnlyChanges ps q y.1) : OnlyChanges ps q (toAttic y x).1 := by
  unfold toAttic
  with_reducible apply State.background_only
  · exact hk
  · assumption

theorem State.scan4_only {ps : List Part} {q s : State} (hk : Within [.frames, .place] ps) (hq : OnlyChanges ps q s) (budget : Nat) : OnlyChanges ps q (State.scan4 s budget).1 := by
  unfold State.scan4
  with_reducible refine OnlyChanges.foldlFst ?_ ?_
  · assumption
  · intro x1 x2 x3
    with_reducible apply toAttic_only
    · exact hk
    · assumption

theorem toScratch_only {ps : List Part} {q : State} (y : State × Nat) (x : Nat × Nat × FrameRec) (hk : Within [.frames, .place] ps) (hq : OnlyChanges ps q y.1) : OnlyChanges ps q (toScratch y x).1 := by
  unfold toScratch
  with_reducible apply State.background_only
  · exact hk
  · assumption

theorem State.scan5_only {ps : List Part} {q s : State} (hk : Within [.frames, .place] ps) (hq : OnlyChanges ps q s) (budget : Nat) : OnlyChanges ps q (State.scan5 s budget).1 := by
  unfold State.scan5
  with_reducible refine OnlyChanges.foldlFst ?_ ?_
  · assumption
  · intro x1 x2 x3
    with_reducible apply toScratch_only
    · exact hk
    · assumption

theorem toHint_only {ps : List Part} {q : State} (y : State × Nat) (x : Nat × FrameRec) (hk : Within [.frames, .place] ps) (hq : OnlyChanges ps q y.1) : OnlyChanges ps q (toHint y x).1 := by
  unfold toHint
  with_reducible apply State.background_only
  · exact hk
  · assumption

theorem State.scanHint_only {ps : List Part} {q s : State} (hk : Within [.frames, .place] ps) (hq : OnlyChanges ps q s) (budget : Nat) : OnlyChanges ps q (State.scanHint s budget).1 := by
  unfold State.scanHint
  with_reducible refine OnlyChanges.foldlFst ?_ ?_
  · assumption
  · intro x1 x2 x3
    with_reducible apply toHint_only
    · exact hk
    · assumption

theorem State.decay_only {ps : List Part} {q s : State} (hk : Within [.frames, .place] ps) (hq : OnlyChanges ps q s) : OnlyChanges ps q (State.decay s) := by
  unfold State.decay
  extract_lets +onlyGivenNames v1
  clear_value v1
  extract_lets +onlyGivenNames v2
  clear_value v2
  with_reducible apply OnlyChanges.upd_frames_place
  · exact hk
  · assumption

theorem State.dropCold_only {ps : List Part} {q s : State} (hk : Within [.place] ps) (hq : OnlyChanges ps q s) : OnlyChanges ps q (State.dropCold s) := by
  unfold State.dropCold
  extract_lets +onlyGivenNames v1
  clear_value v1
  with_reducible apply OnlyChanges.upd_place
  · exact hk
  · assumption

theorem scanThen_only {ps : List Part} {q : State} (f : State → Nat → State × Nat) (y : State × Nat)
    (h : OnlyChanges ps q y.1) (hf : ∀ s n, OnlyChanges ps q s → OnlyChanges ps q (f s n).1) :
    OnlyChanges ps q (scanThen f y).1 := hf _ _ h

theorem scanLast_only {ps : List Part} {q : State} (y : State × Nat) (hk : Within [.frames, .place] ps) (hq : OnlyChanges ps q y.1) : OnlyChanges ps q (scanLast y) := by
  unfold scanLast
  extract_lets +onlyGivenNames v1
  have hv1 : OnlyChanges ps q v1.1 := by
    unfold v1
    with_reducible apply State.scanHint_only
    · exact hk
    · assumption
  clear_value v1
  extract_lets +onlyGivenNames v2
  have hv2 : OnlyChanges ps q v2 := by
    unfold v2
    assumption
  clear_value v2
  with_reducible apply OnlyChanges.upd_place
  · exact hk.of rfl
  · assumption

theorem State.scanMoves_only {ps : List Part} {q s : State} (hk : Within [.reg, .frames, .place, .host, .out] ps) (hq : OnlyChanges ps q s) : OnlyChanges ps q (State.scanMoves s) := by
  unfold State.scanMoves
  refine scanLast_only _ (hk.of rfl) (scanThen_only _ _ ?_ (fun _ n h => State.scan5_only (hk.of rfl) h n))
  refine scanThen_only _ _ ?_ (fun _ n h => State.scan4_only (hk.of rfl) h n)
  refine scanThen_only _ _ ?_ (fun _ n h => State.scan3_only (hk.of rfl) h n)
  exact scanThen_only _ _ (State.scan1_only (hk.of rfl) hq _) (fun _ n h => State.scan2_only (hk.of rfl) h n)

theorem State.scanCounts_only {ps : List Part} {q s : State} (hk : Within [.frames, .place] ps) (hq : OnlyChanges ps q s) : OnlyChanges ps q (State.scanCounts s) := by
  unfold State.scanCounts
  with_reducible refine OnlyChanges.ite ?_ ?_
  · extract_lets +onlyGivenNames v1
    have hv1 : OnlyChanges ps q v1 := by
      unfold v1
      with_reducible apply State.decay_only
      · exact hk
      · with_reducible apply State.dropCold_only
        · exact hk.of rfl
        · assumption
    clear_value v1
    with_reducible apply OnlyChanges.upd_place
    · exact hk.of rfl
    · assumption
  · with_reducible apply OnlyChanges.upd_place
    · exact hk.of rfl
    · assumption

theorem execHeatScan_only {ps : List Part} {q s : State} (hk : Within [.reg, .frames, .place, .host, .out] ps) (hq : OnlyChanges ps q s) : RunsOnly ps q (execHeatScan s) := by
  unfold execHeatScan
  with_reducible apply RunsOnly.done
  · exact hk.of rfl
  · with_reducible refine OnlyChanges.ite ?_ ?_
    · assumption
    · extract_lets +onlyGivenNames v1
      have hv1 : OnlyChanges ps q v1 := by
        unfold v1
        with_reducible apply State.scanCounts_only
        · exact hk.of rfl
        · assumption
      clear_value v1
      with_reducible refine OnlyChanges.ite ?_ ?_
      · with_reducible apply State.scanMoves_only
        · exact hk
        · assumption
      · assumption

theorem State.relocate_only {ps : List Part} {q s : State} (hk : Within [.place] ps) (hq : OnlyChanges ps q s) (f : Nat) (r : FrameRec) : OnlyChanges ps q (State.relocate s f r) := by
  unfold State.relocate
  with_reducible refine OnlyChanges.ite ?_ ?_
  · assumption
  · with_reducible apply OnlyChanges.upd_place
    · exact hk
    · assumption

theorem State.countCe_only {ps : List Part} {q s : State} (hk : Within [.integ] ps) (hq : OnlyChanges ps q s) (tier : Nat) (n : Nat) : OnlyChanges ps q (State.countCe s tier n) := by
  unfold State.countCe
  with_reducible apply OnlyChanges.upd_integ
  · exact hk
  · assumption
  · exact fun _ => rfl

theorem State.scrubCorrected_only {ps : List Part} {q s : State} (hk : Within [.reg, .frames, .place, .host, .integ, .icnt, .out] ps) (hq : OnlyChanges ps q s) (f : Nat) (n : Nat) : OnlyChanges ps q (State.scrubCorrected s f n) := by
  unfold State.scrubCorrected
  extract_lets +onlyGivenNames v1
  clear_value v1
  extract_lets +onlyGivenNames v2
  have hv2 : OnlyChanges ps q v2 := by
    unfold v2
    with_reducible apply State.setFrame_only
    · exact hk.of rfl
    · assumption
  clear_value v2
  with_reducible refine OnlyChanges.ite ?_ ?_
  · assumption
  · split
    · with_reducible apply State.retireFrame_only
      · exact hk.of rfl
      · assumption
    · with_reducible apply State.tryWants_only
      · exact hk
      · with_reducible apply State.relocate_only
        · exact hk.of rfl
        · with_reducible apply State.setFrame_only
          · exact hk.of rfl
          · assumption
    · with_reducible apply State.setFrame_only
      · exact hk.of rfl
      · assumption

theorem State.countTries_only {ps : List Part} {q s : State} (hk : Within [.integ] ps) (hq : OnlyChanges ps q s) (tier : Nat) (ts : List ReadTry) : OnlyChanges ps q (State.countTries s tier ts) := by
  unfold State.countTries
  extract_lets +onlyGivenNames v1
  extract_lets +onlyGivenNames v2
  clear_value v2
  extract_lets +onlyGivenNames v3
  with_reducible apply State.countCe_only
  · exact hk
  · with_reducible refine OnlyChanges.ite ?_ ?_
    · assumption
    · with_reducible apply State.countCe_only
      · exact hk
      · assumption

theorem execScrubRead_only {ps : List Part} {q s : State} (hk : Within [.reg, .chans, .cqs, .accts, .gfe, .frames, .objs, .place, .host, .fab, .integ, .icnt, .out, .tests] ps) (hq : OnlyChanges ps q s) (frame : Nat) (errs : List WordErr) (again : List WordErr) : RunsOnly ps q (execScrubRead frame errs again s) := by
  unfold execScrubRead
  with_reducible apply RunsOnly.done
  · exact hk.of rfl
  · with_reducible refine OnlyChanges.ite ?_ ?_
    · assumption
    · extract_lets +onlyGivenNames v1
      clear_value v1
      extract_lets +onlyGivenNames v2
      clear_value v2
      extract_lets +onlyGivenNames v3
      have hv3 : OnlyChanges ps q v3 := by
        unfold v3
        with_reducible apply State.countTries_only
        · exact hk.of rfl
        · assumption
      clear_value v3
      extract_lets +onlyGivenNames v4
      have hv4 : OnlyChanges ps q v4 := by
        unfold v4
        with_reducible refine OnlyChanges.ite ?_ ?_
        · assumption
        · with_reducible apply State.scrubCorrected_only
          · exact hk.of rfl
          · assumption
      clear_value v4
      split
      · with_reducible apply State.badRead_only
        · exact hk
        · assumption
      · assumption

theorem execAtticRefresh_only {ps : List Part} {q s : State} (hk : Within [.reg, .place] ps) (hq : OnlyChanges ps q s) (pc : Nat) : RunsOnly ps q (execAtticRefresh pc s) := by
  unfold execAtticRefresh
  with_reducible apply RunsOnly.done
  · exact hk.of rfl
  · with_reducible refine OnlyChanges.ite ?_ ?_
    · assumption
    · with_reducible apply State.setStack_only
      · exact hk.of rfl
      · with_reducible apply State.setTarget_only
        · exact hk.of rfl
        · assumption

theorem State.stackSteps_only {ps : List Part} {q s : State} (hk : Within [.reg, .chans, .cqs, .accts, .gfe, .clus, .resvs, .frames, .objs, .place, .host, .fab, .integ, .icnt, .sup, .out] ps) (hq : OnlyChanges ps q s) (k : Nat) (r : StackRec) (new : Bool) : OnlyChanges ps q (State.stackSteps s k r new) := by
  unfold State.stackSteps
  extract_lets +onlyGivenNames v1
  clear_value v1
  extract_lets +onlyGivenNames v2
  clear_value v2
  extract_lets +onlyGivenNames v3
  clear_value v3
  extract_lets +onlyGivenNames v4
  clear_value v4
  extract_lets +onlyGivenNames v5
  have hv5 : OnlyChanges ps q v5 := by
    unfold v5
    with_reducible apply State.setStack_only
    · exact hk.of rfl
    · assumption
  clear_value v5
  extract_lets +onlyGivenNames v6
  have hv6 : OnlyChanges ps q v6 := by
    unfold v6
    with_reducible refine OnlyChanges.ite ?_ ?_
    · with_reducible apply State.raise_only
      · exact hk.of rfl
      · assumption
    · assumption
  clear_value v6
  extract_lets +onlyGivenNames v7
  have hv7 : OnlyChanges ps q v7 := by
    unfold v7
    with_reducible refine OnlyChanges.ite ?_ ?_
    · with_reducible apply State.raise_only
      · exact hk.of rfl
      · assumption
    · assumption
  clear_value v7
  extract_lets +onlyGivenNames v8
  have hv8 : OnlyChanges ps q v8 := by
    unfold v8
    with_reducible refine OnlyChanges.ite ?_ ?_
    · with_reducible apply State.raiseEvent_only
      · exact hk.of rfl
      · assumption
    · assumption
  clear_value v8
  with_reducible refine OnlyChanges.ite ?_ ?_
  · with_reducible apply State.controlledStop_only
    · exact hk
    · assumption
  · assumption

theorem execStackTempReport_only {ps : List Part} {q s : State} (hk : Within [.reg, .chans, .cqs, .accts, .gfe, .clus, .resvs, .frames, .objs, .place, .host, .fab, .integ, .icnt, .sup, .out] ps) (hq : OnlyChanges ps q s) (stack : Nat) (quarters : Int) : RunsOnly ps q (execStackTempReport stack quarters s) := by
  unfold execStackTempReport
  with_reducible apply RunsOnly.done
  · exact hk.of rfl
  · with_reducible refine OnlyChanges.ite ?_ ?_
    · assumption
    · with_reducible refine OnlyChanges.ite ?_ ?_
      · with_reducible apply State.raise_only
        · exact hk.of rfl
        · assumption
      · extract_lets +onlyGivenNames v1
        clear_value v1
        with_reducible apply State.stackSteps_only
        · exact hk
        · assumption

theorem execStackTempTimeout_only {ps : List Part} {q s : State} (hk : Within [.reg, .chans, .cqs, .accts, .gfe, .clus, .resvs, .frames, .objs, .place, .host, .fab, .integ, .icnt, .sup, .out] ps) (hq : OnlyChanges ps q s) (stack : Nat) : RunsOnly ps q (execStackTempTimeout stack s) := by
  unfold execStackTempTimeout
  with_reducible apply RunsOnly.done
  · exact hk.of rfl
  · with_reducible refine OnlyChanges.ite ?_ ?_
    · assumption
    · with_reducible apply State.stackSteps_only
      · exact hk
      · assumption

theorem State.failIf_only {ps : List Part} {q s : State} (hk : Within [.reg, .host, .out] ps) (hq : OnlyChanges ps q s) (p : Nat → Bool) : OnlyChanges ps q (State.failIf s p) := by
  unfold State.failIf
  with_reducible refine OnlyChanges.ite ?_ ?_
  · with_reducible apply State.raise_only
    · exact hk
    · assumption
  · assumption

theorem State.evacuate_only {ps : List Part} {q s : State} (hk : Within [.reg, .frames, .place, .host, .integ, .icnt, .out] ps) (hq : OnlyChanges ps q s) (t : Nat) : OnlyChanges ps q (State.evacuate s t) := by
  unfold State.evacuate
  extract_lets +onlyGivenNames v1
  clear_value v1
  extract_lets +onlyGivenNames v2
  have hv2 : OnlyChanges ps q v2 := by
    unfold v2
    with_reducible refine OnlyChanges.foldl ?_ ?_
    · assumption
    · intro x1 x2 x3
      with_reducible apply State.relocate_only
      · exact hk.of rfl
      · assumption
  clear_value v2
  with_reducible apply State.failIf_only
  · exact hk.of rfl
  · with_reducible apply State.tryWants_only
    · exact hk
    · assumption

theorem State.syncTargets_only {ps : List Part} {q s : State} (hk : Within [.reg, .frames, .place, .host, .integ, .icnt, .out] ps) (hq : OnlyChanges ps q s) : OnlyChanges ps q (State.syncTargets s) := by
  unfold State.syncTargets
  extract_lets +onlyGivenNames v1
  clear_value v1
  with_reducible refine OnlyChanges.foldl ?_ ?_
  · assumption
  · intro x1 x2 x3
    extract_lets +onlyGivenNames v2
    clear_value v2
    extract_lets +onlyGivenNames v3
    clear_value v3
    extract_lets +onlyGivenNames v4
    have hv4 : OnlyChanges ps q v4 := by
      unfold v4
      with_reducible apply State.setTarget_only
      · exact hk.of rfl
      · assumption
    clear_value v4
    with_reducible refine OnlyChanges.ite ?_ ?_
    · assumption
    · with_reducible apply State.evacuate_only
      · exact hk
      · assumption

theorem execMemTgtServe_only {ps : List Part} {q s : State} (hk : Within [.reg] ps) (hq : OnlyChanges ps q s) (a : Acc) (serve : Bool) : RunsOnly ps q (execMemTgtServe a serve s) := by
  unfold execMemTgtServe
  with_reducible apply RunsOnly.done
  · exact hk
  · with_reducible refine OnlyChanges.ite ?_ ?_
    · assumption
    · extract_lets +onlyGivenNames v1
      clear_value v1
      with_reducible apply OnlyChanges.upd_reg
      · exact hk
      · assumption

theorem State.startMargin_only {ps : List Part} {q s : State} (hk : Within [.reg, .place, .host, .out] ps) (hq : OnlyChanges ps q s) (a : Acc) : OnlyChanges ps q (State.startMargin s a) := by
  unfold State.startMargin
  extract_lets +onlyGivenNames v1
  clear_value v1
  with_reducible refine OnlyChanges.ite ?_ ?_
  · with_reducible apply State.ignored_only
    · exact hk.of rfl
    · assumption
  · with_reducible apply State.setTarget_only
    · exact hk.of rfl
    · assumption

theorem execMarginStart_only {ps : List Part} {q s : State} (hk : Within [.reg, .place, .host, .out] ps) (hq : OnlyChanges ps q s) (a : Acc) : RunsOnly ps q (execMarginStart a s) := by
  unfold execMarginStart
  with_reducible apply RunsOnly.done
  · exact hk.of rfl
  · with_reducible refine OnlyChanges.ite ?_ ?_
    · assumption
    · with_reducible apply State.startMargin_only
      · exact hk
      · assumption

theorem execMarginDone_only {ps : List Part} {q s : State} (hk : Within [.reg, .place] ps) (hq : OnlyChanges ps q s) (errors : Nat) : RunsOnly ps q (execMarginDone errors s) := by
  unfold execMarginDone
  with_reducible apply RunsOnly.done
  · exact hk.of rfl
  · split
    · assumption
    · with_reducible refine OnlyChanges.ite ?_ ?_
      · assumption
      · with_reducible apply State.setTarget_only
        · exact hk.of rfl
        · assumption

theorem State.setSlotState_only {ps : List Part} {q s : State} (hk : Within [.pslots] ps) (hq : OnlyChanges ps q s) (p : Nat) (st : SlotState) : OnlyChanges ps q (State.setSlotState s p st) := by
  unfold State.setSlotState
  with_reducible apply State.setPslot_only
  · exact hk
  · assumption

theorem State.leaveServing_only {ps : List Part} {q s : State} (hk : Within [.reg, .accts, .gfe, .clus, .resvs, .frames, .streams, .xfers, .host, .integ, .icnt, .sup, .out] ps) (hq : OnlyChanges ps q s) (n : Nat) : OnlyChanges ps q (State.leaveServing s n) := by
  unfold State.leaveServing
  with_reducible apply State.faultClu_only
  · exact hk.of rfl
  · with_reducible apply State.deferAll_only
    · exact hk.of rfl
    · assumption

theorem State.moveDown_only {ps : List Part} {q s : State} (hk : Within [.reg, .frames, .place, .host, .integ, .icnt, .out] ps) (hq : OnlyChanges ps q s) (n : Nat) : OnlyChanges ps q (State.moveDown s n) := by
  unfold State.moveDown
  extract_lets +onlyGivenNames v1
  clear_value v1
  extract_lets +onlyGivenNames v2
  clear_value v2
  with_reducible apply State.failIf_only
  · exact hk.of rfl
  · with_reducible apply State.tryWants_only
    · exact hk
    · with_reducible refine OnlyChanges.foldl ?_ ?_
      · assumption
      · intro x1 x2 x3
        with_reducible refine OnlyChanges.ite ?_ ?_
        · assumption
        · with_reducible apply OnlyChanges.upd_place
          · exact hk.of rfl
          · assumption

theorem State.queueTest_only {ps : List Part} {q s : State} (hk : Within [.integ, .tests] ps) (hq : OnlyChanges ps q s) (t : Test) : OnlyChanges ps q (State.queueTest s t) := by
  unfold State.queueTest
  extract_lets +onlyGivenNames v1
  clear_value v1
  extract_lets +onlyGivenNames v2
  clear_value v2
  with_reducible apply OnlyChanges.upd_integ
  · exact hk.of rfl
  · assumption
  · exact hk.no rfl

theorem State.enterResidency_only {ps : List Part} {q s : State} (hk : Within [.reg, .accts, .gfe, .clus, .resvs, .pslots, .frames, .place, .streams, .xfers, .host, .integ, .icnt, .sup, .out, .tests] ps) (hq : OnlyChanges ps q s) (t : Test) : OnlyChanges ps q (State.enterResidency s t) := by
  unfold State.enterResidency
  extract_lets +onlyGivenNames v1
  extract_lets +onlyGivenNames v2
  have hv2 : OnlyChanges ps q v2 := by
    unfold v2
    with_reducible apply OnlyChanges.upd_integ
    · exact hk.of rfl
    · assumption
    · exact hk.no rfl
  clear_value v2
  split
  · assumption
  · extract_lets +onlyGivenNames v3
    have hv3 : OnlyChanges ps q v3 := by
      unfold v3
      with_reducible refine OnlyChanges.ite ?_ ?_
      · with_reducible apply State.leaveServing_only
        · exact hk.of rfl
        · with_reducible apply State.setSlotState_only
          · exact hk.of rfl
          · assumption
      · assumption
    clear_value v3
    with_reducible apply State.moveDown_only
    · exact hk.of rfl
    · assumption

theorem State.makeSuspect_only {ps : List Part} {q s : State} (hk : Within [.reg, .accts, .gfe, .clus, .resvs, .pslots, .frames, .place, .streams, .xfers, .host, .integ, .icnt, .sup, .out, .tests] ps) (hq : OnlyChanges ps q s) (p : Nat) : OnlyChanges ps q (State.makeSuspect s p) := by
  unfold State.makeSuspect
  with_reducible refine OnlyChanges.ite ?_ ?_
  · assumption
  · extract_lets +onlyGivenNames v1
    clear_value v1
    extract_lets +onlyGivenNames v2
    have hv2 : OnlyChanges ps q v2 := by
      unfold v2
      with_reducible apply State.leaveServing_only
      · exact hk.of rfl
      · with_reducible apply State.setSlotState_only
        · exact hk.of rfl
        · assumption
    clear_value v2
    extract_lets +onlyGivenNames v3
    clear_value v3
    extract_lets +onlyGivenNames v4
    have hv4 : OnlyChanges ps q v4 := by
      unfold v4
      with_reducible apply OnlyChanges.upd_icnt
      · exact hk.of rfl
      · assumption
    clear_value v4
    extract_lets +onlyGivenNames v5
    have hv5 : OnlyChanges ps q v5 := by
      unfold v5
      with_reducible apply State.raise_only
      · exact hk.of rfl
      · with_reducible apply State.faultLog_only
        · exact hk.of rfl
        · assumption
    clear_value v5
    extract_lets +onlyGivenNames v6
    clear_value v6
    with_reducible refine OnlyChanges.ite ?_ ?_
    · with_reducible apply State.enterResidency_only
      · exact hk
      · assumption
    · with_reducible apply State.queueTest_only
      · exact hk.of rfl
      · assumption

theorem State.makeRetired_only {ps : List Part} {q s : State} (hk : Within [.reg, .accts, .gfe, .clus, .resvs, .pslots, .frames, .place, .streams, .xfers, .host, .integ, .icnt, .sup, .out, .tests] ps) (hq : OnlyChanges ps q s) (p : Nat) : OnlyChanges ps q (State.makeRetired s p) := by
  unfold State.makeRetired
  extract_lets +onlyGivenNames v1
  clear_value v1
  extract_lets +onlyGivenNames v2
  clear_value v2
  extract_lets +onlyGivenNames v3
  have hv3 : OnlyChanges ps q v3 := by
    unfold v3
    with_reducible apply State.setSlotState_only
    · exact hk.of rfl
    · assumption
  clear_value v3
  extract_lets +onlyGivenNames v4
  have hv4 : OnlyChanges ps q v4 := by
    unfold v4
    with_reducible refine OnlyChanges.ite ?_ ?_
    · with_reducible apply State.leaveServing_only
      · exact hk.of rfl
      · assumption
    · assumption
  clear_value v4
  extract_lets +onlyGivenNames v5
  extract_lets +onlyGivenNames v6
  have hv6 : OnlyChanges ps q v6 := by
    unfold v6
    with_reducible apply OnlyChanges.upd_integ
    · exact hk.of rfl
    · assumption
    · exact hk.no rfl
  clear_value v6
  with_reducible apply State.moveDown_only
  · exact hk.of rfl
  · with_reducible apply State.raise_only
    · exact hk.of rfl
    · with_reducible apply State.faultLog_only
      · exact hk.of rfl
      · assumption

theorem State.addFault_only {ps : List Part} {q s : State} (hk : Within [.reg, .accts, .gfe, .clus, .resvs, .pslots, .frames, .place, .streams, .xfers, .host, .integ, .icnt, .sup, .out, .tests] ps) (hq : OnlyChanges ps q s) (p : Nat) : OnlyChanges ps q (State.addFault s p) := by
  unfold State.addFault
  extract_lets +onlyGivenNames v1
  clear_value v1
  extract_lets +onlyGivenNames v2
  have hv2 : OnlyChanges ps q v2 := by
    unfold v2
    with_reducible apply State.setPslot_only
    · exact hk.of rfl
    · assumption
  clear_value v2
  with_reducible refine OnlyChanges.ite ?_ ?_
  · with_reducible apply State.makeSuspect_only
    · exact hk
    · assumption
  · assumption

theorem execFaultCountAge_only {ps : List Part} {q s : State} (hk : Within [.reg, .pslots] ps) (hq : OnlyChanges ps q s) (slot : Nat) : RunsOnly ps q (execFaultCountAge slot s) := by
  unfold execFaultCountAge
  with_reducible apply RunsOnly.done
  · exact hk.of rfl
  · with_reducible refine OnlyChanges.ite ?_ ?_
    · assumption
    · with_reducible apply State.setPslot_only
      · exact hk.of rfl
      · assumption

theorem execStreamTransferIssue_only {ps : List Part} {q s : State} (hk : Within [.clk, .reg, .chans, .cqs, .accts, .gfe, .clus, .resvs, .frames, .objs, .place, .streams, .xfers, .host, .fab, .integ, .icnt, .sup, .out] ps) (hq : OnlyChanges ps q s) (clu : Nat) : RunsOnly ps q (execStreamTransferIssue clu s) := by
  unfold execStreamTransferIssue
  with_reducible apply RunsOnly.done
  · exact hk.of rfl
  · with_reducible refine OnlyChanges.ite ?_ ?_
    · with_reducible apply State.streamIssue_only
      · exact hk.of rfl
      · assumption
    · with_reducible refine OnlyChanges.ite ?_ ?_
      · with_reducible apply State.streamIssue_only
        · exact hk.of rfl
        · with_reducible apply State.nextCycle_only
          · exact hk.of rfl
          · assumption
      · assumption

theorem State.prodFail_only {ps : List Part} {q s : State} (hk : Within [.reg, .accts, .gfe, .clus, .resvs, .pslots, .frames, .place, .streams, .xfers, .host, .integ, .icnt, .sup, .out, .tests] ps) (hq : OnlyChanges ps q s) (x : Xfer) (num : Nat) : OnlyChanges ps q (State.prodFail s x num) := by
  unfold State.prodFail
  extract_lets +onlyGivenNames v1
  clear_value v1
  split
  · with_reducible apply State.dropXfer_only
    · exact hk.of rfl
    · assumption
  · with_reducible refine OnlyChanges.ite ?_ ?_
    · with_reducible apply State.makeSuspect_only
      · exact hk
      · with_reducible apply State.dropXfer_only
        · exact hk.of rfl
        · assumption
    · extract_lets +onlyGivenNames v2
      have hv2 : OnlyChanges ps q v2 := by
        unfold v2
        with_reducible apply State.setStream_only
        · exact hk.of rfl
        · assumption
      clear_value v2
      with_reducible apply State.dropXfer_only
      · exact hk.of rfl
      · with_reducible apply OnlyChanges.upd_xfers
        · exact hk.of rfl
        · assumption

theorem execStreamTransferComplete_only {ps : List Part} {q s : State} (hk : Within [.reg, .chans, .cqs, .accts, .gfe, .clus, .resvs, .pslots, .mem, .frames, .objs, .place, .streams, .xfers, .host, .fab, .integ, .icnt, .sup, .out, .freeCtr, .fences, .tests] ps) (hq : OnlyChanges ps q s) (clu : Nat) (bad : Option PoisonCause) (prod : Bool) : RunsOnly ps q (execStreamTransferComplete clu bad prod s) := by
  unfold execStreamTransferComplete
  with_reducible apply RunsOnly.done
  · exact hk.of rfl
  · with_reducible refine OnlyChanges.ite ?_ ?_
    · assumption
    · split
      · assumption
      · split
        · with_reducible apply State.tidy_only
          · exact hk.of rfl
          · with_reducible apply State.dropXfer_only
            · exact hk.of rfl
            · assumption
        · with_reducible refine OnlyChanges.ite ?_ ?_
          · with_reducible refine OnlyChanges.ite ?_ ?_
            · with_reducible apply State.prodFail_only
              · exact hk.of rfl
              · assumption
            · with_reducible apply State.readXfer_only
              · exact hk.of rfl
              · assumption
          · split
            · with_reducible apply State.dropXfer_only
              · exact hk.of rfl
              · with_reducible apply State.faultStream_only
                · exact hk.of rfl
                · assumption
            · with_reducible refine OnlyChanges.ite ?_ ?_
              · assumption
              · with_reducible refine OnlyChanges.ite ?_ ?_
                · with_reducible apply State.prodFail_only
                  · exact hk.of rfl
                  · assumption
                · with_reducible apply State.readXfer_only
                  · exact hk.of rfl
                  · assumption

theorem State.sendRemote_only {ps : List Part} {q s : State} (hk : Within [.accts, .fab, .out] ps) (hq : OnlyChanges ps q s) (d : Cmd) (x : Nat × Nat × List Byte) : OnlyChanges ps q (State.sendRemote s d x) := by
  unfold State.sendRemote
  with_reducible refine OnlyChanges.ite ?_ ?_
  · assumption
  · extract_lets +onlyGivenNames v1
    have hv1 : OnlyChanges ps q v1.1 := by
      unfold v1
      with_reducible apply State.sendMsg_only
      · exact hk.of rfl
      · assumption
    clear_value v1
    extract_lets +onlyGivenNames v2
    have hv2 : OnlyChanges ps q v2 := by
      unfold v2
      with_reducible apply State.chargeBytes_only
      · exact hk.of rfl
      · assumption
    clear_value v2
    with_reducible refine OnlyChanges.ite ?_ ?_
    · with_reducible apply OnlyChanges.upd_fab
      · exact hk.of rfl
      · assumption
    · assumption

theorem State.setPreds_only {ps : List Part} {q s : State} (hk : Within [.gfe] ps) (hq : OnlyChanges ps q s) (d : Cmd) (a3 : List (Nat × Bool)) : OnlyChanges ps q (State.setPreds s d a3) := by
  unfold State.setPreds
  split
  · assumption
  · split
    · assumption
    · with_reducible apply State.setLaunch_only
      · exact hk
      · assumption

theorem State.commitWork_only {ps : List Part} {q s : State} (hk : Within [.reg, .gfe, .scales, .frames, .objs, .place, .streams, .xfers, .host, .integ, .icnt, .out] ps) (hq : OnlyChanges ps q s) (d : Cmd) (w : RunWork) : OnlyChanges ps q (State.commitWork s d w).1 := by
  unfold State.commitWork
  extract_lets +onlyGivenNames v1
  have hv1 : OnlyChanges ps q v1 := by
    unfold v1
    with_reducible apply State.setPreds_only
    · exact hk.of rfl
    · with_reducible apply State.flipAll_only
      · exact hk.of rfl
      · assumption
  clear_value v1
  extract_lets +onlyGivenNames v2
  have hv2 : OnlyChanges ps q v2 := by
    unfold v2
    with_reducible refine OnlyChanges.foldl ?_ ?_
    · assumption
    · intro x3 x4 x5
      with_reducible apply State.mergeAmax_only
      · exact hk.of rfl
      · assumption
  clear_value v2
  extract_lets +onlyGivenNames v6
  clear_value v6
  extract_lets +onlyGivenNames v7
  have hv7 : OnlyChanges ps q v7 := by
    unfold v7
    with_reducible refine OnlyChanges.ite ?_ ?_
    · with_reducible apply State.enterRows_only
      · exact hk.of rfl
      · assumption
    · with_reducible refine OnlyChanges.ite ?_ ?_
      · with_reducible apply State.leaveRows_only
        · exact hk.of rfl
        · assumption
      · assumption
  clear_value v7
  split
  · with_reducible apply State.streamFlip_only
    · exact hk.of rfl
    · assumption
  · assumption

theorem State.afterFlip_only {ps : List Part} {q s : State} (hk : Within [.reg, .chans, .cqs, .accts, .gfe, .mem, .frames, .objs, .place, .host, .fab, .integ, .icnt, .out, .tests, .memWait] ps) (hq : OnlyChanges ps q s) (d : Cmd) (w : RunWork) (st : Nat × Nat × Nat) : OnlyChanges ps q (State.afterFlip s d w st) := by
  unfold State.afterFlip
  extract_lets +onlyGivenNames v1
  have hv1 : OnlyChanges ps q v1 := by
    unfold v1
    with_reducible apply State.egress_only
    · exact hk.of rfl
    · with_reducible refine OnlyChanges.foldl ?_ ?_
      · assumption
      · intro x1 x2 x3
        with_reducible apply State.sendRemote_only
        · exact hk.of rfl
        · assumption
  clear_value v1
  split
  · with_reducible apply State.settleMem_only
    · exact hk
    · with_reducible apply State.tidy_only
      · exact hk.of rfl
      · with_reducible apply State.settleAcks_only
        · exact hk.of rfl
        · with_reducible apply State.setCmd_only
          · exact hk.of rfl
          · assumption
  · with_reducible refine OnlyChanges.ite ?_ ?_
    · with_reducible apply State.settleMem_only
      · exact hk
      · with_reducible apply State.tidy_only
        · exact hk.of rfl
        · with_reducible apply State.setCmd_only
          · exact hk.of rfl
          · assumption
    · with_reducible apply State.settleMem_only
      · exact hk
      · with_reducible apply State.tidy_only
        · exact hk.of rfl
        · with_reducible apply State.endCmd_only
          · exact hk.of rfl
          · assumption

theorem State.flip_only {ps : List Part} {q s : State} (hk : Within [.reg, .chans, .cqs, .accts, .gfe, .clus, .resvs, .scales, .mem, .frames, .objs, .place, .streams, .xfers, .host, .fab, .integ, .icnt, .sup, .out, .tests, .memWait] ps) (hq : OnlyChanges ps q s) (n : Nat) : OnlyChanges ps q (State.flip s n) := by
  unfold State.flip
  split
  · assumption
  · extract_lets +onlyGivenNames v1
    clear_value v1
    split
    · with_reducible apply State.setCmd_only
      · exact hk.of rfl
      · with_reducible apply State.leaveRun_only
        · exact hk.of rfl
        · assumption
    · extract_lets +onlyGivenNames v2
      have hv2 : OnlyChanges ps q v2.1 := by
        unfold v2
        with_reducible apply State.commitWork_only
        · exact hk.of rfl
        · assumption
      clear_value v2
      extract_lets +onlyGivenNames v3
      have hv3 : OnlyChanges ps q v3 := by
        unfold v3
        with_reducible apply State.noteClu_only
        · exact hk.of rfl
        · with_reducible apply State.leaveRun_only
          · exact hk.of rfl
          · assumption
      clear_value v3
      with_reducible apply State.afterFlip_only
      · exact hk.of rfl
      · assumption

theorem execCommandFlip_only {ps : List Part} {q s : State} (hk : Within [.reg, .chans, .cqs, .accts, .gfe, .clus, .cnts, .resvs, .scales, .mem, .frames, .objs, .place, .streams, .xfers, .host, .fab, .integ, .icnt, .sup, .out, .tests, .memWait] ps) (hq : OnlyChanges ps q s) (clu : Nat) : RunsOnly ps q (execCommandFlip clu s) := by
  unfold execCommandFlip
  with_reducible apply RunsOnly.done
  · exact hk.of rfl
  · with_reducible refine OnlyChanges.ite ?_ ?_
    · assumption
    · with_reducible apply State.flip_only
      · exact hk.of rfl
      · with_reducible apply State.runFold_only
        · exact hk.of rfl
        · assumption

theorem State.poisonRead_only {ps : List Part} {q s : State} (hk : Within [.reg, .frames, .place, .host, .integ, .icnt, .out, .tests] ps) (hq : OnlyChanges ps q s) (d : Cmd) (x : Nat × Nat) (c : PoisonCause) : OnlyChanges ps q (State.poisonRead s d x c) := by
  unfold State.poisonRead
  split
  · with_reducible refine OnlyChanges.ite ?_ ?_
    · with_reducible apply State.poisonFrame_only
      · exact hk
      · assumption
    · assumption
  · assumption

theorem State.observe_only {ps : List Part} {q s : State} (hk : Within [.reg, .cnts, .frames, .place, .host, .integ, .icnt, .out, .tests] ps) (hq : OnlyChanges ps q s) (n : Nat) (d : Cmd) (x : RunFault) : OnlyChanges ps q (State.observe s n d x) := by
  unfold State.observe
  split
  · with_reducible apply State.poisonRead_only
    · exact hk.of rfl
    · assumption
  · split
    · assumption
    · with_reducible refine OnlyChanges.ite ?_ ?_
      · assumption
      · extract_lets +onlyGivenNames v1
        have hv1 : OnlyChanges ps q v1 := by
          unfold v1
          with_reducible apply State.raise_only
          · exact hk.of rfl
          · assumption
        clear_value v1
        with_reducible refine OnlyChanges.ite ?_ ?_
        · with_reducible apply State.poisonRead_only
          · exact hk.of rfl
          · assumption
        · with_reducible apply State.setCnt_only
          · exact hk.of rfl
          · assumption
  · assumption

theorem execRunFindsCondition_only {ps : List Part} {q s : State} (hk : Within [.reg, .chans, .cqs, .accts, .gfe, .clus, .cnts, .resvs, .frames, .objs, .place, .host, .fab, .integ, .icnt, .sup, .out, .tests] ps) (hq : OnlyChanges ps q s) (clu : Nat) (found : Option RunFault) : RunsOnly ps q (execRunFindsCondition clu found s) := by
  unfold execRunFindsCondition
  with_reducible apply RunsOnly.done
  · exact hk.of rfl
  · split
    · assumption
    · with_reducible refine OnlyChanges.ite ?_ ?_
      · assumption
      · split
        · with_reducible refine OnlyChanges.ite ?_ ?_
          · with_reducible apply State.tblMismatch_only
            · exact hk.of rfl
            · assumption
          · assumption
        · with_reducible refine OnlyChanges.ite ?_ ?_
          · assumption
          · with_reducible apply State.trigger_only
            · exact hk.of rfl
            · assumption
        · with_reducible refine OnlyChanges.ite ?_ ?_
          · assumption
          · extract_lets +onlyGivenNames v1
            have hv1 : OnlyChanges ps q v1 := by
              unfold v1
              split
              · with_reducible apply State.observe_only
                · exact hk.of rfl
                · assumption
              · assumption
            clear_value v1
            split
            · with_reducible apply State.stopFound_only
              · exact hk.of rfl
              · assumption
            · assumption

theorem State.dropHeld_only {ps : List Part} {q s : State} (hk : Within [.reg, .frames, .host, .integ, .icnt, .out] ps) (hq : OnlyChanges ps q s) (r : Option PairRun) : OnlyChanges ps q (State.dropHeld s r) := by
  unfold State.dropHeld
  split
  · split
    · with_reducible apply State.freeShadows_only
      · exact hk
      · assumption
    · assumption
  · assumption

theorem State.endView_only {ps : List Part} {q s : State} (hk : Within [.reg, .gfe, .frames, .host, .integ, .icnt, .out] ps) (hq : OnlyChanges ps q s) (d : Cmd) (m : RepeatPair) : OnlyChanges ps q (State.endView s d m) := by
  unfold State.endView
  with_reducible apply State.releaseReads_only
  · exact hk.of rfl
  · with_reducible apply State.setCmd_only
    · exact hk.of rfl
    · assumption

theorem State.mismatch_only {ps : List Part} {q s : State} (hk : Within [.reg, .chans, .cqs, .accts, .gfe, .frames, .objs, .place, .host, .fab, .integ, .icnt, .out] ps) (hq : OnlyChanges ps q s) (d : Cmd) (m : RepeatPair) : OnlyChanges ps q (State.mismatch s d m) := by
  unfold State.mismatch
  extract_lets +onlyGivenNames v1
  have hv1 : OnlyChanges ps q v1 := by
    unfold v1
    with_reducible apply State.noteClu_only
    · exact hk.of rfl
    · with_reducible apply State.endView_only
      · exact hk.of rfl
      · with_reducible apply State.dropHeld_only
        · exact hk.of rfl
        · with_reducible apply State.dropHeld_only
          · exact hk.of rfl
          · assumption
  clear_value v1
  with_reducible apply State.tidy_only
  · exact hk
  · with_reducible apply State.endCmd_only
    · exact hk.of rfl
    · assumption

theorem State.transient_only {ps : List Part} {q s : State} (hk : Within [.reg, .chans, .cqs, .accts, .gfe, .clus, .resvs, .pslots, .scales, .mem, .frames, .objs, .place, .streams, .xfers, .host, .fab, .integ, .icnt, .sup, .out, .tests, .memWait] ps) (hq : OnlyChanges ps q s) (d : Cmd) (m : RepeatPair) (p : PairRun) (other : Option PairRun) : OnlyChanges ps q (State.transient s d m p other) := by
  unfold State.transient
  extract_lets +onlyGivenNames v1
  clear_value v1
  split
  · assumption
  · extract_lets +onlyGivenNames v2
    have hv2 : OnlyChanges ps q v2 := by
      unfold v2
      with_reducible apply State.dropHeld_only
      · exact hk.of rfl
      · assumption
    clear_value v2
    extract_lets +onlyGivenNames v3
    have hv3 : OnlyChanges ps q v3.1 := by
      unfold v3
      with_reducible apply State.commitWork_only
      · exact hk.of rfl
      · assumption
    clear_value v3
    extract_lets +onlyGivenNames v4
    have hv4 : OnlyChanges ps q v4 := by
      unfold v4
      with_reducible apply State.noteClu_only
      · exact hk.of rfl
      · with_reducible apply State.endView_only
        · exact hk.of rfl
        · assumption
    clear_value v4
    extract_lets +onlyGivenNames v5
    clear_value v5
    extract_lets +onlyGivenNames v6
    have hv6 : OnlyChanges ps q v6 := by
      unfold v6
      with_reducible apply OnlyChanges.upd_icnt
      · exact hk.of rfl
      · assumption
    clear_value v6
    extract_lets +onlyGivenNames v7
    have hv7 : OnlyChanges ps q v7 := by
      unfold v7
      with_reducible apply State.addFault_only
      · exact hk.of rfl
      · with_reducible apply State.raise_only
        · exact hk.of rfl
        · with_reducible apply State.faultLog_only
          · exact hk.of rfl
          · assumption
    clear_value v7
    with_reducible apply State.afterFlip_only
    · exact hk.of rfl
    · assumption

theorem State.comparePair_only {ps : List Part} {q s : State} (hk : Within [.reg, .chans, .cqs, .accts, .gfe, .clus, .resvs, .pslots, .scales, .mem, .frames, .objs, .place, .streams, .xfers, .host, .fab, .integ, .icnt, .sup, .out, .tests, .memWait] ps) (hq : OnlyChanges ps q s) (d : Cmd) (m : RepeatPair) : OnlyChanges ps q (State.comparePair s d m) := by
  unfold State.comparePair
  extract_lets +onlyGivenNames v1
  clear_value v1
  extract_lets +onlyGivenNames v2
  clear_value v2
  extract_lets +onlyGivenNames v3
  clear_value v3
  extract_lets +onlyGivenNames v4
  with_reducible refine OnlyChanges.ite ?_ ?_
  · extract_lets +onlyGivenNames v5
    clear_value v5
    split
    · assumption
    · with_reducible refine OnlyChanges.ite ?_ ?_
      · with_reducible apply State.tidy_only
        · exact hk.of rfl
        · with_reducible apply State.endCmd_only
          · exact hk.of rfl
          · with_reducible apply State.noteClu_only
            · exact hk.of rfl
            · with_reducible apply State.endView_only
              · exact hk.of rfl
              · with_reducible apply State.dropHeld_only
                · exact hk.of rfl
                · with_reducible apply State.dropHeld_only
                  · exact hk.of rfl
                  · assumption
      · with_reducible apply State.transient_only
        · exact hk
        · assumption
  · with_reducible refine OnlyChanges.ite ?_ ?_
    · unfold v4
      split
      · with_reducible apply State.addFault_only
        · exact hk.of rfl
        · with_reducible apply State.makeSuspect_only
          · exact hk.of rfl
          · with_reducible apply State.mismatch_only
            · exact hk.of rfl
            · assumption
      · with_reducible apply State.makeSuspect_only
        · exact hk.of rfl
        · with_reducible apply State.mismatch_only
          · exact hk.of rfl
          · assumption
    · with_reducible refine OnlyChanges.ite ?_ ?_
      · unfold v4
        split
        · with_reducible apply State.addFault_only
          · exact hk.of rfl
          · split
            · with_reducible apply State.addFault_only
              · exact hk.of rfl
              · with_reducible apply State.mismatch_only
                · exact hk.of rfl
                · assumption
            · with_reducible apply State.mismatch_only
              · exact hk.of rfl
              · assumption
        · split
          · with_reducible apply State.addFault_only
            · exact hk.of rfl
            · with_reducible apply State.mismatch_only
              · exact hk.of rfl
              · assumption
          · with_reducible apply State.mismatch_only
            · exact hk.of rfl
            · assumption
      · with_reducible apply State.makeSuspect_only
        · exact hk.of rfl
        · with_reducible apply State.mismatch_only
          · exact hk.of rfl
          · assumption

theorem execRepeatPairCompare_only {ps : List Part} {q s : State} (hk : Within [.reg, .chans, .cqs, .accts, .gfe, .clus, .resvs, .pslots, .scales, .mem, .frames, .objs, .place, .streams, .xfers, .host, .fab, .integ, .icnt, .sup, .out, .tests, .memWait] ps) (hq : OnlyChanges ps q s) (cmd : Nat) : RunsOnly ps q (execRepeatPairCompare cmd s) := by
  unfold execRepeatPairCompare
  with_reducible apply RunsOnly.done
  · exact hk.of rfl
  · split
    · assumption
    · split
      · assumption
      · with_reducible refine OnlyChanges.ite ?_ ?_
        · with_reducible apply State.comparePair_only
          · exact hk
          · assumption
        · assumption

theorem State.enqueue_only {ps : List Part} {q s : State} (hk : Within [.clus, .resvs, .sup] ps) (hq : OnlyChanges ps q s) (n : Nat) (d : Cmd) (charge : Nat) (dem : List (Nat × Nat)) : OnlyChanges ps q (State.enqueue s n d charge dem) := by
  unfold State.enqueue
  extract_lets +onlyGivenNames v1
  clear_value v1
  extract_lets +onlyGivenNames v2
  have hv2 : OnlyChanges ps q v2 := by
    unfold v2
    with_reducible apply State.setClu_only
    · exact hk.of rfl
    · assumption
  clear_value v2
  with_reducible apply OnlyChanges.upd_resvs_sup
  · exact hk.of rfl
  · assumption

theorem State.noteHomes_only {ps : List Part} {q s : State} (hk : Within [.gfe] ps) (hq : OnlyChanges ps q s) (d : Cmd) : OnlyChanges ps q (State.noteHomes s d) := by
  unfold State.noteHomes
  extract_lets +onlyGivenNames v1
  clear_value v1
  with_reducible apply State.setExtra_only
  · exact hk
  · assumption

theorem State.admitOne_only {ps : List Part} {q s : State} (hk : Within [.accts, .gfe, .clus, .resvs, .sup] ps) (hq : OnlyChanges ps q s) (n : Nat) (d : Cmd) (dem : List (Nat × Nat)) : OnlyChanges ps q (State.admitOne s n d dem) := by
  unfold State.admitOne
  with_reducible apply State.issue_only
  · exact hk.of rfl
  · with_reducible apply State.enqueue_only
    · exact hk.of rfl
    · with_reducible apply State.noteHomes_only
      · exact hk.of rfl
      · assumption

theorem State.admitPair_only {ps : List Part} {q s : State} (hk : Within [.accts, .gfe, .clus, .resvs, .sup] ps) (hq : OnlyChanges ps q s) (m : RepeatPair) (x : Option Nat) (y : Option Nat) (d : Cmd) (dem : List (Nat × Nat)) : OnlyChanges ps q (State.admitPair s m x y d dem) := by
  unfold State.admitPair
  extract_lets +onlyGivenNames v1
  have hv1 : OnlyChanges ps q v1 := by
    unfold v1
    with_reducible apply State.noteHomes_only
    · exact hk.of rfl
    · assumption
  clear_value v1
  extract_lets +onlyGivenNames v2
  have hv2 : OnlyChanges ps q v2 := by
    unfold v2
    split
    · with_reducible apply State.enqueue_only
      · exact hk.of rfl
      · assumption
    · assumption
  clear_value v2
  extract_lets +onlyGivenNames v3
  have hv3 : OnlyChanges ps q v3 := by
    unfold v3
    split
    · with_reducible apply State.enqueue_only
      · exact hk.of rfl
      · assumption
    · assumption
  clear_value v3
  extract_lets +onlyGivenNames v4
  clear_value v4
  with_reducible apply State.issue_only
  · exact hk.of rfl
  · assumption

theorem State.deferAbove_only {ps : List Part} {q s : State} (hk : Within [.reg, .accts, .gfe, .clus, .resvs, .frames, .host, .integ, .icnt, .sup, .out] ps) (hq : OnlyChanges ps q s) (n : Nat) (c : Nat) : OnlyChanges ps q (State.deferAbove s n c) := by
  unfold State.deferAbove
  with_reducible refine OnlyChanges.foldl ?_ ?_
  · assumption
  · intro x1 x2 x3
    split
    · with_reducible refine OnlyChanges.ite ?_ ?_
      · with_reducible apply State.defer_only
        · exact hk
        · assumption
      · assumption
    · assumption

theorem State.timePreempt_only {ps : List Part} {q s : State} (hk : Within [.reg, .chans, .cqs, .accts, .gfe, .clus, .resvs, .frames, .objs, .place, .host, .fab, .integ, .icnt, .sup, .out] ps) (hq : OnlyChanges ps q s) (cs : List Nat) (d : Cmd) : OnlyO ps q (State.timePreempt s cs d) := by
  unfold State.timePreempt
  split
  · with_reducible exact OnlyO.none
  · split
    · with_reducible apply OnlyO.some
      with_reducible apply State.raise_only
      · exact hk.of rfl
      · with_reducible apply State.deferAbove_only
        · exact hk.of rfl
        · assumption
    · split
      · with_reducible exact OnlyO.none
      · extract_lets +onlyGivenNames v1
        clear_value v1
        with_reducible apply OnlyO.some
        with_reducible apply State.raise_only
        · exact hk.of rfl
        · with_reducible apply State.preempt_only
          · exact hk
          · with_reducible apply State.deferAbove_only
            · exact hk.of rfl
            · assumption

theorem State.spaceDefer_only {ps : List Part} {q s : State} (hk : Within [.reg, .accts, .gfe, .clus, .resvs, .frames, .host, .integ, .icnt, .sup, .out] ps) (hq : OnlyChanges ps q s) (m : Nat) (c : Nat) (k : Nat) (l : List Resv) :
    OnlyChanges ps q (State.spaceDefer s m c k l) := by
  induction l generalizing s with
  | nil => exact hq
  | cons r t ih =>
    rw [State.spaceDefer]
    refine OnlyChanges.ite hq ?_
    split
    · exact ih (OnlyChanges.ite (State.defer_only (hk.of rfl) hq _ _) hq)
    · exact ih hq

theorem State.spaceKill_only {ps : List Part} {q s : State} (hk : Within [.reg, .chans, .cqs, .accts, .gfe, .clus, .resvs, .frames, .objs, .place, .host, .fab, .integ, .icnt, .sup, .out] ps) (hq : OnlyChanges ps q s) (m : Nat) (c : Nat) (k : Nat) (l : List Nat) :
    OnlyChanges ps q (State.spaceKill s m c k l) := by
  induction l generalizing s with
  | nil => exact hq
  | cons n t ih =>
    rw [State.spaceKill]
    exact OnlyChanges.ite hq (ih (State.preempt_only (hk.of rfl) hq _ _))

theorem State.spaceDemote_only {ps : List Part} {q s : State} (hk : Within [.reg, .frames, .place, .host, .out] ps) (hq : OnlyChanges ps q s) (m : Nat) (c : Nat) (k : Nat) : OnlyO ps q (State.spaceDemote s m c k) := by
  unfold State.spaceDemote
  split
  · with_reducible exact OnlyO.none
  · extract_lets +onlyGivenNames v1
    clear_value v1
    split
    · with_reducible exact OnlyO.none
    · split
      · with_reducible exact OnlyO.none
      · split
        · with_reducible apply OnlyO.some
          assumption
        · with_reducible apply OnlyO.some
          with_reducible apply State.raise_only
          · exact hk.of rfl
          · with_reducible refine OnlyChanges.foldl ?_ ?_
            · assumption
            · intro x1 x2 x3
              split
              · with_reducible apply State.startMove_only
                · exact hk.of rfl
                · assumption
              · assumption

theorem State.spaceOn_only {ps : List Part} {q s : State} (hk : Within [.reg, .chans, .cqs, .accts, .gfe, .clus, .resvs, .frames, .objs, .place, .host, .fab, .integ, .icnt, .sup, .out] ps) (hq : OnlyChanges ps q s) (c : Nat) (x : Nat × Nat) : OnlyO ps q (State.spaceOn s c x) := by
  unfold State.spaceOn
  split
  · with_reducible apply OnlyO.some
    assumption
  · extract_lets +onlyGivenNames v1
    have hv1 : OnlyChanges ps q v1 := by
      unfold v1
      with_reducible apply State.spaceDefer_only
      · exact hk.of rfl
      · assumption
    clear_value v1
    extract_lets +onlyGivenNames v2
    have hv2 : OnlyChanges ps q v2 := by
      unfold v2
      with_reducible apply State.spaceKill_only
      · exact hk
      · assumption
    clear_value v2
    split
    · with_reducible apply OnlyO.some
      assumption
    · with_reducible apply State.spaceDemote_only
      · exact hk.of rfl
      · assumption

theorem State.spacePreempt_only {ps : List Part} {q s : State} (hk : Within [.reg, .chans, .cqs, .accts, .gfe, .clus, .resvs, .frames, .objs, .place, .host, .fab, .integ, .icnt, .sup, .out] ps) (hq : OnlyChanges ps q s) (c : Nat) (l : List (Nat × Nat)) :
    OnlyO ps q (State.spacePreempt s c l) := by
  induction l generalizing s with
  | nil => exact OnlyO.some hq
  | cons x t ih =>
    rw [State.spacePreempt]
    split
    · exact OnlyO.none
    · rename_i h
      exact ih ((State.spaceOn_only (hk.of rfl) hq _ _).use h)

theorem State.wantSpace_only {ps : List Part} {q s : State} (hk : Within [.reg, .chans, .cqs, .accts, .gfe, .clus, .resvs, .frames, .objs, .place, .host, .fab, .integ, .icnt, .sup, .out] ps) (hq : OnlyChanges ps q s) (d : Cmd) (dem : List (Nat × Nat)) : OnlyChanges ps q (State.wantSpace s d dem).1 := by
  unfold State.wantSpace
  split
  · assumption
  · split
    · split
      · assumption
      · dsimp only
        with_reducible apply State.tidy_only
        · exact hk.of rfl
        · with_reducible apply State.raise_only
          · exact hk.of rfl
          · with_reducible refine OnlyO.use ?_ (by assumption)
            with_reducible apply State.spacePreempt_only
            · exact hk
            · assumption
    · dsimp only
      with_reducible apply State.tidy_only
      · exact hk.of rfl
      · with_reducible apply State.raise_only
        · exact hk.of rfl
        · with_reducible apply State.endCmd_only
          · exact hk.of rfl
          · assumption

theorem State.wantTime_only {ps : List Part} {q s : State} (hk : Within [.reg, .chans, .cqs, .accts, .gfe, .clus, .resvs, .frames, .objs, .place, .host, .fab, .integ, .icnt, .sup, .out] ps) (hq : OnlyChanges ps q s) (cs : List Nat) (d : Cmd) : OnlyChanges ps q (State.wantTime s cs d).1 := by
  unfold State.wantTime
  split
  · dsimp only
    with_reducible apply State.tidy_only
    · exact hk.of rfl
    · with_reducible refine OnlyO.use ?_ (by assumption)
      with_reducible apply State.timePreempt_only
      · exact hk
      · assumption
  · assumption

theorem State.admitIf_only {ps : List Part} {q s t : State} (hk : Within [.reg, .chans, .cqs, .accts, .gfe, .clus, .resvs, .frames, .objs, .place, .host, .fab, .integ, .icnt, .sup, .out] ps) (hq : OnlyChanges ps q s) (ht : OnlyChanges ps q t) (d : Cmd) (cost : Nat)
    (dem : List (Nat × Nat)) : OnlyChanges ps q (State.admitIf s d cost dem t).1 := by
  unfold State.admitIf
  split
  · dsimp only
    exact State.raise_only (hk.of rfl) hq _ _ _ _
  · split
    · exact State.wantSpace_only (hk.of rfl) hq _ _
    · split
      · dsimp only
        exact State.tidy_only (hk.of rfl) (State.endCmd_only (hk.of rfl) hq _ _ _ _ _)
      · exact ht

theorem State.place1_only {ps : List Part} {q s : State} (hk : Within [.reg, .chans, .cqs, .accts, .gfe, .clus, .resvs, .frames, .objs, .place, .host, .fab, .integ, .icnt, .sup, .out] ps) (hq : OnlyChanges ps q s) (p : Nat) (d : Cmd) : OnlyChanges ps q (State.place1 s p d).1 := by
  unfold State.place1
  extract_lets
  split
  · exact State.wantTime_only (hk.of rfl) hq _ _
  · exact State.admitIf_only (hk.of rfl) hq (State.admitOne_only (hk.of rfl) hq _ _ _) _ _ _

theorem State.placePair_only {ps : List Part} {q s : State} (hk : Within [.reg, .chans, .cqs, .accts, .gfe, .clus, .resvs, .frames, .objs, .place, .host, .fab, .integ, .icnt, .sup, .out] ps) (hq : OnlyChanges ps q s) (p : Nat) (d : Cmd) (m : RepeatPair) : OnlyChanges ps q (State.placePair s p d m).1 := by
  unfold State.placePair
  extract_lets _ _ _ _ _ _ _ _ xOk
  clear_value xOk
  split
  · exact hq
  · split
    · exact State.wantTime_only (hk.of rfl) hq _ _
    · split
      · exact State.wantTime_only (hk.of rfl) hq _ _
      · exact State.admitIf_only (hk.of rfl) hq (State.admitPair_only (hk.of rfl) hq _ _ _ _ _) _ _ _

theorem State.takeProg_only {ps : List Part} {q s : State} (hk : Within [.reg, .chans, .cqs, .accts, .gfe, .frames, .objs, .place, .host, .fab, .integ, .icnt, .out, .tests] ps) (hq : OnlyChanges ps q s) (d : Cmd) : OnlyChanges ps q (State.takeProg s d).1 := by
  unfold State.takeProg
  split
  · assumption
  · extract_lets +onlyGivenNames v1
    clear_value v1
    split
    · dsimp only
      with_reducible apply State.wantFetch_only
      · exact hk.of rfl
      · assumption
    · split
      · dsimp only
        with_reducible apply State.tidy_only
        · exact hk.of rfl
        · with_reducible apply State.endCmd_only
          · exact hk.of rfl
          · with_reducible apply State.poisonIfBad_only
            · exact hk.of rfl
            · assumption
      · extract_lets +onlyGivenNames v2
        clear_value v2
        split
        · dsimp only
          with_reducible apply State.tidy_only
          · exact hk.of rfl
          · with_reducible apply State.endCmd_only
            · exact hk.of rfl
            · assumption
        · dsimp only
          with_reducible apply State.setExtra_only
          · exact hk.of rfl
          · assumption

theorem State.hostHead_only {ps : List Part} {q s : State} (hk : Within [.reg, .chans, .cqs, .accts, .gfe, .frames, .objs, .place, .host, .fab, .integ, .icnt, .out] ps) (hq : OnlyChanges ps q s) (d : Cmd) : OnlyO ps q (State.hostHead s d) := by
  unfold State.hostHead
  extract_lets +onlyGivenNames v1
  clear_value v1
  split
  · with_reducible apply OnlyO.some
    with_reducible apply State.tidy_only
    · exact hk
    · with_reducible apply State.endCmd_only
      · exact hk.of rfl
      · assumption
  · split
    · with_reducible apply OnlyO.some
      assumption
    · with_reducible exact OnlyO.none

theorem State.tryReady_only {ps : List Part} {q s : State} (hk : Within [.reg, .chans, .cqs, .accts, .gfe, .clus, .resvs, .frames, .objs, .place, .host, .fab, .integ, .icnt, .sup, .out, .tests] ps) (hq : OnlyChanges ps q s) (p : Nat) (d : Cmd) : OnlyChanges ps q (State.tryReady s p d).1 := by
  unfold State.tryReady
  split
  · dsimp only
    with_reducible apply State.tidy_only
    · exact hk.of rfl
    · with_reducible apply State.endCmd_only
      · exact hk.of rfl
      · assumption
  · split
    · dsimp only
      with_reducible refine OnlyO.use ?_ (by assumption)
      with_reducible apply State.hostHead_only
      · exact hk.of rfl
      · assumption
    · extract_lets +onlyGivenNames v1
      have hv1 : OnlyChanges ps q v1.1 := by
        unfold v1
        with_reducible apply State.takeProg_only
        · exact hk.of rfl
        · assumption
      clear_value v1
      split
      · assumption
      · extract_lets +onlyGivenNames v2
        have hv2 : OnlyChanges ps q v2 := by
          unfold v2
          assumption
        clear_value v2
        extract_lets +onlyGivenNames v3
        clear_value v3
        split
        · assumption
        · split
          · dsimp only
            with_reducible apply State.fetchAll_only
            · exact hk.of rfl
            · assumption
          · split
            · assumption
            · split
              · with_reducible apply State.placePair_only
                · exact hk.of rfl
                · assumption
              · with_reducible apply State.place1_only
                · exact hk.of rfl
                · assumption

theorem State.tryHead_only {ps : List Part} {q s : State} (hk : Within [.reg, .chans, .cqs, .accts, .gfe, .clus, .resvs, .frames, .objs, .place, .host, .fab, .integ, .icnt, .sup, .out, .tests] ps) (hq : OnlyChanges ps q s) (p : Nat) (id : Nat) : OnlyChanges ps q (State.tryHead s p id).1 := by
  unfold State.tryHead
  split
  · assumption
  · split
    · with_reducible apply State.tryReady_only
      · exact hk
      · assumption
    · split
      · dsimp only
        with_reducible refine OnlyChanges.fst ?_ (by assumption)
        with_reducible apply State.prep_only
        · exact hk.of rfl
        · assumption
      · split
        · dsimp only
          with_reducible refine OnlyChanges.fst ?_ (by assumption)
          with_reducible apply State.prep_only
          · exact hk.of rfl
          · assumption
        · split
          · dsimp only
            with_reducible apply State.tidy_only
            · exact hk.of rfl
            · with_reducible apply State.endCmd_only
              · exact hk.of rfl
              · with_reducible refine OnlyChanges.fst ?_ (by assumption)
                with_reducible apply State.prep_only
                · exact hk.of rfl
                · assumption
          · split
            · split
              · dsimp only
                with_reducible apply State.tidy_only
                · exact hk.of rfl
                · with_reducible apply State.endCmd_only
                  · exact hk.of rfl
                  · with_reducible refine OnlyChanges.fst ?_ (by assumption)
                    with_reducible apply State.prep_only
                    · exact hk.of rfl
                    · assumption
              · dsimp only
                with_reducible refine OnlyChanges.fst ?_ (by assumption)
                with_reducible apply State.prep_only
                · exact hk.of rfl
                · assumption
            · with_reducible apply State.tryReady_only
              · exact hk
              · with_reducible refine OnlyChanges.fst ?_ (by assumption)
                with_reducible apply State.prep_only
                · exact hk.of rfl
                · assumption

theorem State.noteLosers_only {ps : List Part} {q s : State} (hk : Within [.gfe] ps) (hq : OnlyChanges ps q s) (ids : List Nat) : OnlyChanges ps q (State.noteLosers s ids) := by
  unfold State.noteLosers
  extract_lets +onlyGivenNames v1
  clear_value v1
  with_reducible apply OnlyChanges.upd_gfe
  · exact hk
  · assumption
  · exact fun _ => rfl

theorem State.tryHeads_only {ps : List Part} {q s : State} (hk : Within [.reg, .chans, .cqs, .accts, .gfe, .clus, .resvs, .frames, .objs, .place, .host, .fab, .integ, .icnt, .sup, .out, .tests] ps) (hq : OnlyChanges ps q s) (p : Nat) (l : List Nat) : OnlyChanges ps q (State.tryHeads s p l) := by
  induction l generalizing s with
  | nil => exact hq
  | cons x t ih =>
    have h := State.tryHead_only (hk.of rfl) hq p x
    rw [State.tryHeads]
    exact OnlyChanges.ite (ih hq) (OnlyChanges.ite (ih h) (OnlyChanges.ite (ih hq) (OnlyChanges.ite h (State.noteLosers_only (hk.of rfl) h _))))

theorem State.dispatch_only {ps : List Part} {q s : State} (hk : Within [.reg, .chans, .cqs, .accts, .gfe, .clus, .resvs, .frames, .objs, .place, .host, .fab, .integ, .icnt, .sup, .out, .tests] ps) (hq : OnlyChanges ps q s) (p : Nat) : OnlyChanges ps q (State.dispatch s p) := by
  unfold State.dispatch
  extract_lets +onlyGivenNames v1
  extract_lets +onlyGivenNames v2
  have hv2 : OnlyChanges ps q v2 := by
    unfold v2
    with_reducible apply OnlyChanges.upd_gfe
    · exact hk.of rfl
    · assumption
    · exact fun _ => rfl
  clear_value v2
  with_reducible apply State.tryHeads_only
  · exact hk
  · assumption

theorem execDispatchAdmit_only {ps : List Part} {q s : State} (hk : Within [.clk, .reg, .chans, .cqs, .accts, .gfe, .clus, .resvs, .frames, .objs, .place, .host, .fab, .integ, .icnt, .sup, .out, .tests] ps) (hq : OnlyChanges ps q s) (part : Nat) : RunsOnly ps q (execDispatchAdmit part s) := by
  unfold execDispatchAdmit
  with_reducible apply RunsOnly.done
  · exact hk.of rfl
  · with_reducible refine OnlyChanges.ite ?_ ?_
    · assumption
    · with_reducible refine OnlyChanges.ite ?_ ?_
      · with_reducible apply State.dispatch_only
        · exact hk.of rfl
        · assumption
      · with_reducible refine OnlyChanges.ite ?_ ?_
        · with_reducible apply State.dispatch_only
          · exact hk.of rfl
          · with_reducible apply State.nextCycle_only
            · exact hk.of rfl
            · assumption
        · assumption

end Sys2Proof.Machine
end

