-- ==== Sys2Proof/Laws/FrameLinks.lean ====
section
/-! SUPPORT. What may change (`OnlyChanges`), for the host link, the fabric, integrity, power and boot. -/

namespace Sys2Proof.Machine
open Sys2Proof

theorem State.orphan_only {ps : List Part} {q s : State} (hk : Within [.reg, .chans, .host, .out] ps) (hq : OnlyChanges ps q s) (c : Nat) : OnlyChanges ps q (State.orphan s c) := by
  unfold State.orphan
  extract_lets +onlyGivenNames v1
  clear_value v1
  with_reducible refine OnlyChanges.ite ?_ ?_
  · assumption
  · with_reducible apply State.raise_only
    · exact hk.of rfl
    · with_reducible apply State.setChan_only
      · exact hk.of rfl
      · assumption

theorem State.loseWrite_only {ps : List Part} {q s : State} (hk : Within [.reg, .chans, .cqs, .accts, .gfe, .clus, .resvs, .frames, .objs, .host, .fab, .integ, .icnt, .sup, .out] ps) (hq : OnlyChanges ps q s) (d : Cmd) : OnlyChanges ps q (State.loseWrite s d) := by
  unfold State.loseWrite
  extract_lets +onlyGivenNames v1
  extract_lets +onlyGivenNames v2
  have hv2 : OnlyChanges ps q v2 := by
    unfold v2
    split
    · with_reducible apply State.unqueue_only
      · exact hk.of rfl
      · assumption
    · unfold v1
      split
      · with_reducible refine OnlyChanges.ite ?_ ?_
        · with_reducible apply State.stopRun_only
          · exact hk.of rfl
          · assumption
        · assumption
      · assumption
    · unfold v1
      split
      · with_reducible refine OnlyChanges.ite ?_ ?_
        · with_reducible apply State.stopRun_only
          · exact hk.of rfl
          · assumption
        · assumption
      · assumption
    · assumption
  clear_value v2
  with_reducible apply State.endCmd_only
  · exact hk.of rfl
  · assumption

theorem State.linkLoss_only {ps : List Part} {q s : State} (hk : Within [.reg, .chans, .cqs, .accts, .gfe, .clus, .resvs, .frames, .objs, .place, .link, .host, .fab, .integ, .icnt, .sup, .out, .memWait] ps) (hq : OnlyChanges ps q s) : OnlyChanges ps q (State.linkLoss s) := by
  unfold State.linkLoss
  extract_lets +onlyGivenNames v1
  have hv1 : OnlyChanges ps q v1 := by
    unfold v1
    with_reducible refine OnlyChanges.foldl ?_ ?_
    · assumption
    · intro x2 x3 x4
      with_reducible apply State.orphan_only
      · exact hk.of rfl
      · assumption
  clear_value v1
  extract_lets +onlyGivenNames v5
  extract_lets +onlyGivenNames v6
  have hv6 : OnlyChanges ps q v6 := by
    unfold v6
    with_reducible apply OnlyChanges.upd_host
    · exact hk.of rfl
    · assumption
    · exact hk.no rfl
  clear_value v6
  extract_lets +onlyGivenNames v7
  have hv7 : OnlyChanges ps q v7 := by
    unfold v7
    with_reducible refine OnlyChanges.foldl ?_ ?_
    · assumption
    · intro x8 x9 x10
      split
      · with_reducible apply State.loseWrite_only
        · exact hk.of rfl
        · assumption
      · assumption
  clear_value v7
  extract_lets +onlyGivenNames v11
  have hv11 : OnlyChanges ps q v11 := by
    unfold v11
    with_reducible apply State.killReads_only
    · exact hk.of rfl
    · assumption
  clear_value v11
  with_reducible apply State.tidy_only
  · exact hk.of rfl
  · with_reducible apply State.raise_only
    · exact hk.of rfl
    · with_reducible apply OnlyChanges.upd_link
      · exact hk.of rfl
      · assumption

theorem State.resetRegs_only {ps : List Part} {q s : State} (hk : Within [.reg] ps) (hq : OnlyChanges ps q s) (w : Win) (offs : List Nat) : OnlyChanges ps q (State.resetRegs s w offs) := by
  unfold State.resetRegs
  extract_lets +onlyGivenNames v1
  clear_value v1
  with_reducible apply OnlyChanges.upd_reg
  · exact hk
  · assumption

theorem State.resetFunction_only {ps : List Part} {q s : State} (hk : Within [.reg, .link, .host] ps) (hq : OnlyChanges ps q s) : OnlyChanges ps q (State.resetFunction s) := by
  unfold State.resetFunction
  extract_lets +onlyGivenNames v1
  have hv1 : OnlyChanges ps q v1 := by
    unfold v1
    with_reducible apply State.resetRegs_only
    · exact hk.of rfl
    · assumption
  clear_value v1
  with_reducible apply OnlyChanges.upd_link_host
  · exact hk.of rfl
  · assumption
  · exact fun _ => rfl

theorem State.resetConfig_only {ps : List Part} {q s : State} (hk : Within [.reg, .link, .host] ps) (hq : OnlyChanges ps q s) : OnlyChanges ps q (State.resetConfig s) := by
  unfold State.resetConfig
  extract_lets +onlyGivenNames v1
  have hv1 : OnlyChanges ps q v1 := by
    unfold v1
    with_reducible apply State.resetFunction_only
    · exact hk
    · assumption
  clear_value v1
  with_reducible apply OnlyChanges.upd_link
  · exact hk.of rfl
  · assumption

theorem State.tryTrain_only {ps : List Part} {q s : State} (hk : Within [.link] ps) (hq : OnlyChanges ps q s) : OnlyChanges ps q (State.tryTrain s) := by
  unfold State.tryTrain
  with_reducible refine OnlyChanges.ite ?_ ?_
  · with_reducible apply OnlyChanges.upd_link
    · exact hk
    · assumption
  · assumption

theorem State.sendPending_only {ps : List Part} {q s : State} (hk : Within [.host, .out] ps) (hq : OnlyChanges ps q s) : OnlyChanges ps q (State.sendPending s) := by
  unfold State.sendPending
  with_reducible refine OnlyChanges.ite ?_ ?_
  · assumption
  · extract_lets +onlyGivenNames v1
    clear_value v1
    with_reducible refine OnlyChanges.foldl ?_ ?_
    · with_reducible apply OnlyChanges.upd_host
      · exact hk.of rfl
      · assumption
      · exact fun _ => rfl
    · intro x2 x3 x4
      with_reducible apply State.emit_only
      · exact hk.of rfl
      · assumption

theorem State.linkChan_only {ps : List Part} {q s : State} (hk : Within [.reg, .chans, .cqs, .gfe, .host, .out] ps) (hq : OnlyChanges ps q s) (c : Nat) : OnlyChanges ps q (State.linkChan s c) := by
  unfold State.linkChan
  extract_lets +onlyGivenNames v1
  clear_value v1
  with_reducible refine OnlyChanges.ite ?_ ?_
  · assumption
  · extract_lets +onlyGivenNames v2
    have hv2 : OnlyChanges ps q v2 := by
      unfold v2
      with_reducible refine OnlyChanges.ite ?_ ?_
      · with_reducible apply State.drainDone_only
        · exact hk.of rfl
        · with_reducible apply State.setChan_only
          · exact hk.of rfl
          · with_reducible apply State.rewriteStored_only
            · exact hk.of rfl
            · assumption
      · with_reducible apply State.release_only
        · exact hk.of rfl
        · assumption
    clear_value v2
    with_reducible apply State.pumpRing_only
    · exact hk.of rfl
    · assumption

theorem State.linkUpAt_only {ps : List Part} {q s : State} (hk : Within [.reg, .link, .host, .out] ps) (hq : OnlyChanges ps q s) (width : Nat) (gts : Nat) : OnlyChanges ps q (State.linkUpAt s width gts) := by
  unfold State.linkUpAt
  extract_lets +onlyGivenNames v1
  clear_value v1
  extract_lets +onlyGivenNames v2
  clear_value v2
  extract_lets +onlyGivenNames v3
  clear_value v3
  extract_lets +onlyGivenNames v4
  have hv4 : OnlyChanges ps q v4 := by
    unfold v4
    with_reducible apply OnlyChanges.upd_link
    · exact hk.of rfl
    · assumption
  clear_value v4
  with_reducible refine OnlyChanges.ite ?_ ?_
  · with_reducible apply State.raise_only
    · exact hk.of rfl
    · assumption
  · assumption

theorem State.resumeHost_only {ps : List Part} {q s : State} (hk : Within [.reg, .chans, .cqs, .gfe, .host, .out] ps) (hq : OnlyChanges ps q s) : OnlyChanges ps q (State.resumeHost s) := by
  unfold State.resumeHost
  with_reducible apply State.sendPending_only
  · exact hk.of rfl
  · with_reducible apply State.pumpAllLines_only
    · exact hk.of rfl
    · with_reducible refine OnlyChanges.foldl ?_ ?_
      · assumption
      · intro x1 x2 x3
        with_reducible apply State.linkChan_only
        · exact hk
        · assumption

theorem State.takeDown_only {ps : List Part} {q s : State} (hk : Within [.reg, .chans, .cqs, .accts, .gfe, .clus, .resvs, .frames, .objs, .place, .link, .host, .fab, .integ, .icnt, .sup, .out, .memWait] ps) (hq : OnlyChanges ps q s) : OnlyChanges ps q (State.takeDown s) := by
  unfold State.takeDown
  extract_lets +onlyGivenNames v1
  have hv1 : OnlyChanges ps q v1 := by
    unfold v1
    with_reducible apply State.resetConfig_only
    · exact hk.of rfl
    · with_reducible apply State.linkLoss_only
      · exact hk
      · assumption
  clear_value v1
  with_reducible apply OnlyChanges.upd_link
  · exact hk.of rfl
  · assumption

theorem execPerstAssert_only {ps : List Part} {q s : State} (hk : Within [.reg, .chans, .cqs, .accts, .gfe, .clus, .resvs, .frames, .objs, .place, .link, .host, .fab, .integ, .icnt, .sup, .out, .memWait] ps) (hq : OnlyChanges ps q s) : RunsOnly ps q (execPerstAssert s) := by
  unfold execPerstAssert
  with_reducible apply RunsOnly.done
  · exact hk.of rfl
  · with_reducible refine OnlyChanges.ite ?_ ?_
    · assumption
    · extract_lets +onlyGivenNames v1
      have hv1 : OnlyChanges ps q v1 := by
        unfold v1
        with_reducible apply State.takeDown_only
        · exact hk
        · assumption
      clear_value v1
      with_reducible apply OnlyChanges.upd_link
      · exact hk.of rfl
      · assumption

theorem execPerstDeassert_only {ps : List Part} {q s : State} (hk : Within [.reg, .link] ps) (hq : OnlyChanges ps q s) : RunsOnly ps q (execPerstDeassert s) := by
  unfold execPerstDeassert
  with_reducible apply RunsOnly.done
  · exact hk.of rfl
  · with_reducible refine OnlyChanges.ite ?_ ?_
    · assumption
    · with_reducible apply State.tryTrain_only
      · exact hk.of rfl
      · with_reducible apply OnlyChanges.upd_link
        · exact hk.of rfl
        · assumption

theorem execLinkL0Reached_only {ps : List Part} {q s : State} (hk : Within [.reg, .chans, .cqs, .gfe, .link, .host, .out] ps) (hq : OnlyChanges ps q s) (width : Nat) (gts : Nat) : RunsOnly ps q (execLinkL0Reached width gts s) := by
  unfold execLinkL0Reached
  with_reducible apply RunsOnly.done
  · exact hk.of rfl
  · extract_lets +onlyGivenNames v1
    have hv1 : OnlyChanges ps q v1 := by
      unfold v1
      with_reducible apply State.tryTrain_only
      · exact hk.of rfl
      · assumption
    clear_value v1
    with_reducible refine OnlyChanges.ite ?_ ?_
    · assumption
    · with_reducible apply State.resumeHost_only
      · exact hk.of rfl
      · with_reducible apply State.linkUpAt_only
        · exact hk.of rfl
        · assumption

theorem execLinkRecoveryEnter_only {ps : List Part} {q s : State} (hk : Within [.reg, .link] ps) (hq : OnlyChanges ps q s) : RunsOnly ps q (execLinkRecoveryEnter s) := by
  unfold execLinkRecoveryEnter
  with_reducible apply RunsOnly.done
  · exact hk.of rfl
  · with_reducible refine OnlyChanges.ite ?_ ?_
    · assumption
    · with_reducible apply OnlyChanges.upd_link
      · exact hk.of rfl
      · assumption

theorem execLinkRecoveryExit_only {ps : List Part} {q s : State} (hk : Within [.reg, .chans, .cqs, .gfe, .link, .host, .out] ps) (hq : OnlyChanges ps q s) (width : Nat) (gts : Nat) : RunsOnly ps q (execLinkRecoveryExit width gts s) := by
  unfold execLinkRecoveryExit
  with_reducible apply RunsOnly.done
  · exact hk.of rfl
  · with_reducible refine OnlyChanges.ite ?_ ?_
    · assumption
    · with_reducible apply State.resumeHost_only
      · exact hk.of rfl
      · with_reducible apply State.linkUpAt_only
        · exact hk.of rfl
        · assumption

theorem execDlDown_only {ps : List Part} {q s : State} (hk : Within [.reg, .chans, .cqs, .accts, .gfe, .clus, .resvs, .frames, .objs, .place, .link, .host, .fab, .integ, .icnt, .sup, .out, .memWait] ps) (hq : OnlyChanges ps q s) : RunsOnly ps q (execDlDown s) := by
  unfold execDlDown
  with_reducible apply RunsOnly.done
  · exact hk.of rfl
  · with_reducible refine OnlyChanges.ite ?_ ?_
    · assumption
    · with_reducible apply State.takeDown_only
      · exact hk
      · assumption

theorem execHotReset_only {ps : List Part} {q s : State} (hk : Within [.reg, .chans, .cqs, .accts, .gfe, .clus, .resvs, .frames, .objs, .place, .link, .host, .fab, .integ, .icnt, .sup, .out, .memWait] ps) (hq : OnlyChanges ps q s) : RunsOnly ps q (execHotReset s) := by
  unfold execHotReset
  with_reducible apply RunsOnly.done
  · exact hk.of rfl
  · with_reducible refine OnlyChanges.ite ?_ ?_
    · assumption
    · with_reducible apply State.takeDown_only
      · exact hk
      · assumption

theorem execFlr_only {ps : List Part} {q s : State} (hk : Within [.reg, .chans, .cqs, .accts, .gfe, .clus, .resvs, .frames, .objs, .place, .link, .host, .fab, .integ, .icnt, .sup, .out, .memWait] ps) (hq : OnlyChanges ps q s) : RunsOnly ps q (execFlr s) := by
  unfold execFlr
  with_reducible apply RunsOnly.done
  · exact hk.of rfl
  · with_reducible refine OnlyChanges.ite ?_ ?_
    · assumption
    · with_reducible apply State.resetFunction_only
      · exact hk.of rfl
      · with_reducible apply State.linkLoss_only
        · exact hk
        · assumption

theorem execD3hotEntry_only {ps : List Part} {q s : State} (hk : Within [.reg, .chans, .cqs, .accts, .gfe, .clus, .resvs, .frames, .objs, .place, .link, .host, .fab, .integ, .icnt, .sup, .out, .memWait] ps) (hq : OnlyChanges ps q s) : RunsOnly ps q (execD3hotEntry s) := by
  unfold execD3hotEntry
  with_reducible apply RunsOnly.done
  · exact hk.of rfl
  · with_reducible refine OnlyChanges.ite ?_ ?_
    · assumption
    · extract_lets +onlyGivenNames v1
      have hv1 : OnlyChanges ps q v1 := by
        unfold v1
        with_reducible apply State.resetFunction_only
        · exact hk.of rfl
        · with_reducible apply State.linkLoss_only
          · exact hk
          · assumption
      clear_value v1
      with_reducible apply OnlyChanges.upd_link
      · exact hk.of rfl
      · assumption

theorem execD0Return_only {ps : List Part} {q s : State} (hk : Within [.reg, .chans, .cqs, .accts, .gfe, .clus, .resvs, .frames, .objs, .place, .link, .host, .fab, .integ, .icnt, .sup, .out, .memWait] ps) (hq : OnlyChanges ps q s) : RunsOnly ps q (execD0Return s) := by
  unfold execD0Return
  with_reducible apply RunsOnly.done
  · exact hk.of rfl
  · with_reducible refine OnlyChanges.ite ?_ ?_
    · assumption
    · with_reducible apply State.resetFunction_only
      · exact hk.of rfl
      · with_reducible apply State.linkLoss_only
        · exact hk
        · assumption

theorem execRefclkLoss_only {ps : List Part} {q s : State} (hk : Within [.reg, .chans, .cqs, .accts, .gfe, .clus, .resvs, .frames, .objs, .place, .link, .host, .fab, .integ, .icnt, .sup, .sb, .out, .memWait] ps) (hq : OnlyChanges ps q s) : RunsOnly ps q (execRefclkLoss s) := by
  unfold execRefclkLoss
  with_reducible apply RunsOnly.done
  · exact hk.of rfl
  · with_reducible refine OnlyChanges.ite ?_ ?_
    · assumption
    · extract_lets +onlyGivenNames v1
      clear_value v1
      extract_lets +onlyGivenNames v2
      have hv2 : OnlyChanges ps q v2 := by
        unfold v2
        with_reducible apply OnlyChanges.upd_sb
        · exact hk.of rfl
        · assumption
      clear_value v2
      with_reducible refine OnlyChanges.ite ?_ ?_
      · with_reducible apply State.takeDown_only
        · exact hk.of rfl
        · assumption
      · with_reducible apply OnlyChanges.upd_link
        · exact hk.of rfl
        · assumption

theorem execRefclkRestored_only {ps : List Part} {q s : State} (hk : Within [.reg, .link, .sb] ps) (hq : OnlyChanges ps q s) : RunsOnly ps q (execRefclkRestored s) := by
  unfold execRefclkRestored
  with_reducible apply RunsOnly.done
  · exact hk.of rfl
  · with_reducible refine OnlyChanges.ite ?_ ?_
    · assumption
    · with_reducible apply State.tryTrain_only
      · exact hk.of rfl
      · with_reducible apply OnlyChanges.upd_sb
        · exact hk.of rfl
        · assumption

theorem execDvsecCacheEnable_only {ps : List Part} {q s : State} (hk : Within [.reg, .accts, .gfe, .clus, .resvs, .frames, .link, .host, .integ, .icnt, .sup, .out] ps) (hq : OnlyChanges ps q s) (on : Bool) : RunsOnly ps q (execDvsecCacheEnable on s) := by
  unfold execDvsecCacheEnable
  with_reducible apply RunsOnly.done
  · exact hk.of rfl
  · with_reducible refine OnlyChanges.ite ?_ ?_
    · assumption
    · extract_lets +onlyGivenNames v1
      clear_value v1
      extract_lets +onlyGivenNames v2
      have hv2 : OnlyChanges ps q v2 := by
        unfold v2
        with_reducible apply OnlyChanges.upd_link
        · exact hk.of rfl
        · assumption
      clear_value v2
      with_reducible refine OnlyChanges.ite ?_ ?_
      · with_reducible apply State.pumpAllLines_only
        · exact hk.of rfl
        · with_reducible apply State.pumpRings_only
          · exact hk.of rfl
          · assumption
      · with_reducible apply State.killReads_only
        · exact hk.of rfl
        · assumption

theorem execMemEnable_only {ps : List Part} {q s : State} (hk : Within [.reg, .link] ps) (hq : OnlyChanges ps q s) (on : Bool) (decoder : Option Nat) : RunsOnly ps q (execMemEnable on decoder s) := by
  unfold execMemEnable
  with_reducible apply RunsOnly.done
  · exact hk.of rfl
  · with_reducible refine OnlyChanges.ite ?_ ?_
    · assumption
    · with_reducible apply OnlyChanges.upd_link
      · exact hk.of rfl
      · assumption

theorem execVectorUnmask_only {ps : List Part} {q s : State} (hk : Within [.reg, .link, .host, .out] ps) (hq : OnlyChanges ps q s) (what : Unmask) : RunsOnly ps q (execVectorUnmask what s) := by
  unfold execVectorUnmask
  with_reducible apply RunsOnly.done
  · exact hk.of rfl
  · with_reducible refine OnlyChanges.ite ?_ ?_
    · assumption
    · split
      · extract_lets +onlyGivenNames v1
        clear_value v1
        with_reducible apply State.sendPending_only
        · exact hk.of rfl
        · with_reducible apply OnlyChanges.upd_host
          · exact hk.of rfl
          · assumption
          · exact fun _ => rfl
      · with_reducible apply State.sendPending_only
        · exact hk.of rfl
        · with_reducible apply OnlyChanges.upd_link
          · exact hk.of rfl
          · assumption
      · with_reducible apply State.sendPending_only
        · exact hk.of rfl
        · with_reducible apply OnlyChanges.upd_link
          · exact hk.of rfl
          · assumption

theorem execLaneMargining_only {ps : List Part} {q s : State} (hk : Within [.reg, .out] ps) (hq : OnlyChanges ps q s) (lane : Nat) (timing : Bool) (step : Int) (errors : Nat) : RunsOnly ps q (execLaneMargining lane timing step errors s) := by
  unfold execLaneMargining
  with_reducible apply RunsOnly.done
  · exact hk.of rfl
  · with_reducible refine OnlyChanges.ite ?_ ?_
    · assumption
    · with_reducible apply State.emit_only
      · exact hk.of rfl
      · assumption

theorem execOrphanTimeout_only {ps : List Part} {q s : State} (hk : Within [.reg, .chans] ps) (hq : OnlyChanges ps q s) (chan : Nat) : RunsOnly ps q (execOrphanTimeout chan s) := by
  unfold execOrphanTimeout
  with_reducible apply RunsOnly.done
  · exact hk.of rfl
  · extract_lets +onlyGivenNames v1
    clear_value v1
    with_reducible refine OnlyChanges.ite ?_ ?_
    · assumption
    · with_reducible apply State.setChan_only
      · exact hk.of rfl
      · assumption

theorem State.discardCmd_only {ps : List Part} {q s : State} (hk : Within [.gfe, .fab] ps) (hq : OnlyChanges ps q s) (d : Cmd) : OnlyChanges ps q (State.discardCmd s d) := by
  unfold State.discardCmd
  extract_lets +onlyGivenNames v1
  have hv1 : OnlyChanges ps q v1 := by
    unfold v1
    with_reducible apply State.dropCmd_only
    · exact hk
    · assumption
  clear_value v1
  split
  · with_reducible apply State.settleCtx_only
    · exact hk.of rfl
    · assumption
  · assumption

theorem State.destroyOrphan_only {ps : List Part} {q s : State} (hk : Within [.reg, .chans, .cqs, .accts, .gfe, .frames, .objs, .place, .host, .fab, .integ, .icnt, .out] ps) (hq : OnlyChanges ps q s) (c : Nat) : OnlyChanges ps q (State.destroyOrphan s c) := by
  unfold State.destroyOrphan
  extract_lets +onlyGivenNames v1
  clear_value v1
  with_reducible refine OnlyChanges.ite ?_ ?_
  · assumption
  · extract_lets +onlyGivenNames v2
    clear_value v2
    extract_lets +onlyGivenNames v3
    have hv3 : OnlyChanges ps q v3 := by
      unfold v3
      with_reducible apply State.setCq_only
      · exact hk.of rfl
      · with_reducible apply State.setChan_only
        · exact hk.of rfl
        · assumption
    clear_value v3
    extract_lets +onlyGivenNames v4
    have hv4 : OnlyChanges ps q v4 := by
      unfold v4
      with_reducible refine OnlyChanges.foldl ?_ ?_
      · assumption
      · intro x1 x2 x3
        with_reducible apply State.setLaunch_only
        · exact hk.of rfl
        · assumption
    clear_value v4
    extract_lets +onlyGivenNames v5
    have hv5 : OnlyChanges ps q v5 := by
      unfold v5
      with_reducible refine OnlyChanges.foldl ?_ ?_
      · assumption
      · intro x4 x5 x6
        with_reducible apply State.discardCmd_only
        · exact hk.of rfl
        · assumption
    clear_value v5
    extract_lets +onlyGivenNames v6
    have hv6 : OnlyChanges ps q v6 := by
      unfold v6
      with_reducible refine OnlyChanges.foldl ?_ ?_
      · assumption
      · intro x7 x8 x9
        with_reducible apply State.settleLaunch_only
        · exact hk.of rfl
        · assumption
    clear_value v6
    extract_lets +onlyGivenNames v7
    have hv7 : OnlyChanges ps q v7 := by
      unfold v7
      with_reducible refine OnlyChanges.foldl ?_ ?_
      · with_reducible apply State.closeCtx_only
        · exact hk.of rfl
        · assumption
      · intro x10 x11 x12
        with_reducible apply State.settleCtx_only
        · exact hk.of rfl
        · assumption
    clear_value v7
    with_reducible apply State.tidy_only
    · exact hk
    · with_reducible apply State.raise_only
      · exact hk.of rfl
      · assumption

theorem State.destroyOrphans_only {ps : List Part} {q s : State} (hk : Within [.reg, .chans, .cqs, .accts, .gfe, .frames, .objs, .place, .host, .fab, .integ, .icnt, .out] ps) (hq : OnlyChanges ps q s) : OnlyChanges ps q (State.destroyOrphans s) := by
  unfold State.destroyOrphans
  with_reducible refine OnlyChanges.foldl ?_ ?_
  · assumption
  · intro x1 x2 x3
    with_reducible apply State.destroyOrphan_only
    · exact hk
    · assumption

theorem State.setPortState_only {ps : List Part} {q s : State} (hk : Within [.fab] ps) (hq : OnlyChanges ps q s) (p : Nat) (st : PortState) : OnlyChanges ps q (State.setPortState s p st) := by
  unfold State.setPortState
  with_reducible apply State.setPort_only
  · exact hk
  · assumption

theorem State.moveFlows_only {ps : List Part} {q s : State} (hk : Within [.fab, .out] ps) (hq : OnlyChanges ps q s) : OnlyChanges ps q (State.moveFlows s) := by
  unfold State.moveFlows
  with_reducible apply State.egress_only
  · exact hk.of rfl
  · with_reducible refine OnlyChanges.foldl ?_ ?_
    · assumption
    · intro x1 x2 x3
      extract_lets +onlyGivenNames v1
      clear_value v1
      with_reducible refine OnlyChanges.ite ?_ ?_
      · assumption
      · split
        · assumption
        · with_reducible apply State.pumpFlow_only
          · exact hk
          · with_reducible refine OnlyChanges.ite ?_ ?_
            · assumption
            · with_reducible apply State.resendFlow_only
              · exact hk
              · assumption

theorem State.sendDiscover_only {ps : List Part} {q s : State} (hk : Within [.fab, .out] ps) (hq : OnlyChanges ps q s) (p : Nat) : OnlyChanges ps q (State.sendDiscover s p) := by
  unfold State.sendDiscover
  with_reducible refine OnlyChanges.ite ?_ ?_
  · with_reducible apply State.emit_only
    · exact hk.of rfl
    · with_reducible apply State.setPort_only
      · exact hk.of rfl
      · assumption
  · assumption

theorem execPortEnable_only {ps : List Part} {q s : State} (hk : Within [.reg, .fab] ps) (hq : OnlyChanges ps q s) (port : Nat) : RunsOnly ps q (execPortEnable port s) := by
  unfold execPortEnable
  with_reducible apply RunsOnly.done
  · exact hk.of rfl
  · with_reducible refine OnlyChanges.ite ?_ ?_
    · assumption
    · extract_lets +onlyGivenNames v1
      have hv1 : OnlyChanges ps q v1 := by
        unfold v1
        with_reducible apply State.fldPut_only
        · exact hk.of rfl
        · assumption
      clear_value v1
      with_reducible refine OnlyChanges.ite ?_ ?_
      · with_reducible apply State.setPortState_only
        · exact hk.of rfl
        · assumption
      · assumption

theorem execPortDisable_only {ps : List Part} {q s : State} (hk : Within [.reg, .fab, .out] ps) (hq : OnlyChanges ps q s) (port : Nat) : RunsOnly ps q (execPortDisable port s) := by
  unfold execPortDisable
  with_reducible apply RunsOnly.done
  · exact hk.of rfl
  · with_reducible refine OnlyChanges.ite ?_ ?_
    · assumption
    · with_reducible apply State.moveFlows_only
      · exact hk.of rfl
      · with_reducible apply State.setPortState_only
        · exact hk.of rfl
        · with_reducible apply State.fldPut_only
          · exact hk.of rfl
          · assumption

theorem execPortTrainingComplete_only {ps : List Part} {q s : State} (hk : Within [.reg, .host, .fab, .out] ps) (hq : OnlyChanges ps q s) (port : Nat) : RunsOnly ps q (execPortTrainingComplete port s) := by
  unfold execPortTrainingComplete
  with_reducible apply RunsOnly.done
  · exact hk.of rfl
  · with_reducible refine OnlyChanges.ite ?_ ?_
    · assumption
    · with_reducible apply State.moveFlows_only
      · exact hk.of rfl
      · with_reducible apply State.sendDiscover_only
        · exact hk.of rfl
        · with_reducible apply State.raise_only
          · exact hk.of rfl
          · with_reducible apply State.setPortState_only
            · exact hk.of rfl
            · assumption

theorem execPortTrainingTimeout_only {ps : List Part} {q s : State} (hk : Within [.reg, .fab] ps) (hq : OnlyChanges ps q s) (port : Nat) : RunsOnly ps q (execPortTrainingTimeout port s) := by
  unfold execPortTrainingTimeout
  with_reducible apply RunsOnly.done
  · exact hk.of rfl
  · with_reducible refine OnlyChanges.ite ?_ ?_
    · assumption
    · with_reducible apply State.setPortState_only
      · exact hk.of rfl
      · assumption

theorem execPortFault_only {ps : List Part} {q s : State} (hk : Within [.reg, .host, .fab, .out] ps) (hq : OnlyChanges ps q s) (port : Nat) : RunsOnly ps q (execPortFault port s) := by
  unfold execPortFault
  with_reducible apply RunsOnly.done
  · exact hk.of rfl
  · with_reducible refine OnlyChanges.ite ?_ ?_
    · assumption
    · with_reducible apply State.moveFlows_only
      · exact hk.of rfl
      · with_reducible apply State.raise_only
        · exact hk.of rfl
        · with_reducible apply State.setPortState_only
          · exact hk.of rfl
          · with_reducible apply State.setPort_only
            · exact hk.of rfl
            · assumption

theorem execHolddownExpiry_only {ps : List Part} {q s : State} (hk : Within [.reg, .fab] ps) (hq : OnlyChanges ps q s) (port : Nat) : RunsOnly ps q (execHolddownExpiry port s) := by
  unfold execHolddownExpiry
  with_reducible apply RunsOnly.done
  · exact hk.of rfl
  · with_reducible refine OnlyChanges.ite ?_ ?_
    · assumption
    · with_reducible apply State.setPortState_only
      · exact hk.of rfl
      · assumption

theorem execDiscoverSend_only {ps : List Part} {q s : State} (hk : Within [.reg, .fab, .out] ps) (hq : OnlyChanges ps q s) (port : Nat) : RunsOnly ps q (execDiscoverSend port s) := by
  unfold execDiscoverSend
  with_reducible apply RunsOnly.done
  · exact hk.of rfl
  · with_reducible refine OnlyChanges.ite ?_ ?_
    · assumption
    · with_reducible apply State.sendDiscover_only
      · exact hk.of rfl
      · assumption

theorem State.discard_only {ps : List Part} {q s : State} (hk : Within [.fab] ps) (hq : OnlyChanges ps q s) : OnlyChanges ps q (State.discard s) := by
  unfold State.discard
  with_reducible apply OnlyChanges.upd_fab
  · exact hk
  · assumption

theorem execDiscover_only {ps : List Part} {q s : State} (hk : Within [.reg, .fab, .out] ps) (hq : OnlyChanges ps q s) (port : Nat) (f : Frame) : RunsOnly ps q (execDiscover port f s) := by
  unfold execDiscover
  with_reducible apply RunsOnly.done
  · exact hk.of rfl
  · with_reducible refine OnlyChanges.ite ?_ ?_
    · assumption
    · with_reducible refine OnlyChanges.ite ?_ ?_
      · with_reducible apply State.discard_only
        · exact hk.of rfl
        · assumption
      · with_reducible apply State.emit_only
        · exact hk.of rfl
        · assumption

theorem execDiscoverReply_only {ps : List Part} {q s : State} (hk : Within [.reg, .host, .fab, .out] ps) (hq : OnlyChanges ps q s) (port : Nat) (mac : Nat) (f : Frame) : RunsOnly ps q (execDiscoverReply port mac f s) := by
  unfold execDiscoverReply
  with_reducible apply RunsOnly.done
  · exact hk.of rfl
  · with_reducible refine OnlyChanges.ite ?_ ?_
    · assumption
    · with_reducible refine OnlyChanges.ite ?_ ?_
      · with_reducible apply State.discard_only
        · exact hk.of rfl
        · assumption
      · with_reducible refine OnlyChanges.ite ?_ ?_
        · extract_lets +onlyGivenNames v1
          have hv1 : OnlyChanges ps q v1 := by
            unfold v1
            with_reducible apply State.discard_only
            · exact hk.of rfl
            · assumption
          clear_value v1
          with_reducible refine OnlyChanges.ite ?_ ?_
          · assumption
          · with_reducible apply State.raise_only
            · exact hk.of rfl
            · with_reducible apply OnlyChanges.upd_fab
              · exact hk.of rfl
              · assumption
        · extract_lets +onlyGivenNames v2
          clear_value v2
          with_reducible apply State.moveFlows_only
          · exact hk.of rfl
          · with_reducible apply OnlyChanges.upd_fab
            · exact hk.of rfl
            · assumption

theorem execRoutePlaneExpiry_only {ps : List Part} {q s : State} (hk : Within [.reg, .fab, .out] ps) (hq : OnlyChanges ps q s) (dst : Nat) (plane : Nat) : RunsOnly ps q (execRoutePlaneExpiry dst plane s) := by
  unfold execRoutePlaneExpiry
  with_reducible apply RunsOnly.done
  · exact hk.of rfl
  · with_reducible refine OnlyChanges.ite ?_ ?_
    · assumption
    · with_reducible apply State.moveFlows_only
      · exact hk.of rfl
      · with_reducible apply OnlyChanges.upd_fab
        · exact hk.of rfl
        · assumption

theorem execFrameDiscard_only {ps : List Part} {q s : State} (hk : Within [.reg, .fab] ps) (hq : OnlyChanges ps q s) (port : Nat) : RunsOnly ps q (execFrameDiscard port s) := by
  unfold execFrameDiscard
  with_reducible apply RunsOnly.done
  · exact hk.of rfl
  · with_reducible refine OnlyChanges.ite ?_ ?_
    · assumption
    · with_reducible apply State.discard_only
      · exact hk.of rfl
      · assumption

theorem State.remoteEnds_only {ps : List Part} {q s : State} (hk : Within [.reg, .chans, .cqs, .accts, .gfe, .frames, .objs, .place, .host, .fab, .integ, .icnt, .out] ps) (hq : OnlyChanges ps q s) (id : Nat) (m : Nat) : OnlyChanges ps q (State.remoteEnds s id m) := by
  unfold State.remoteEnds
  split
  · assumption
  · split
    · with_reducible apply State.remoteFail_only
      · exact hk.of rfl
      · assumption
    · with_reducible apply State.settleAcks_only
      · exact hk
      · with_reducible apply State.setCmd_only
        · exact hk.of rfl
        · assumption
    · with_reducible apply State.setCmd_only
      · exact hk.of rfl
      · assumption
    · assumption

theorem State.failPeer_only {ps : List Part} {q s : State} (hk : Within [.reg, .chans, .cqs, .accts, .gfe, .frames, .objs, .place, .host, .fab, .integ, .icnt, .out] ps) (hq : OnlyChanges ps q s) (m : Nat) (bit : Nat) : OnlyChanges ps q (State.failPeer s m bit) := by
  unfold State.failPeer
  extract_lets +onlyGivenNames v1
  clear_value v1
  extract_lets +onlyGivenNames v2
  clear_value v2
  extract_lets +onlyGivenNames v3
  have hv3 : OnlyChanges ps q v3 := by
    unfold v3
    with_reducible refine OnlyChanges.foldl ?_ ?_
    · assumption
    · intro x4 x5 x6
      with_reducible apply State.setPeer_only
      · exact hk.of rfl
      · assumption
  clear_value v3
  extract_lets +onlyGivenNames v7
  clear_value v7
  extract_lets +onlyGivenNames v8
  have hv8 : OnlyChanges ps q v8 := by
    unfold v8
    with_reducible apply OnlyChanges.upd_fab
    · exact hk.of rfl
    · assumption
  clear_value v8
  with_reducible apply State.raise_only
  · exact hk.of rfl
  · with_reducible refine OnlyChanges.foldl ?_ ?_
    · assumption
    · intro x9 x10 x11
      with_reducible apply State.remoteEnds_only
      · exact hk
      · assumption

theorem execPeerFailedExpiry_only {ps : List Part} {q s : State} (hk : Within [.reg, .fab] ps) (hq : OnlyChanges ps q s) (peer : Nat) : RunsOnly ps q (execPeerFailedExpiry peer s) := by
  unfold execPeerFailedExpiry
  with_reducible apply RunsOnly.done
  · exact hk.of rfl
  · with_reducible refine OnlyChanges.ite ?_ ?_
    · assumption
    · with_reducible refine OnlyChanges.foldl ?_ ?_
      · assumption
      · intro x1 x2 x3
        with_reducible refine OnlyChanges.ite ?_ ?_
        · with_reducible apply State.setPeer_only
          · exact hk.of rfl
          · assumption
        · assumption

theorem State.takeAck_only {ps : List Part} {q s : State} (hk : Within [.reg, .chans, .cqs, .accts, .gfe, .frames, .objs, .place, .host, .fab, .integ, .icnt, .out] ps) (hq : OnlyChanges ps q s) (m : Nat) (v : Nat) (ackPsn : BitVec 32) (credit : BitVec 32) : OnlyChanges ps q (State.takeAck s m v ackPsn credit) := by
  unfold State.takeAck
  extract_lets +onlyGivenNames v1
  clear_value v1
  with_reducible refine OnlyChanges.ite ?_ ?_
  · assumption
  · extract_lets +onlyGivenNames v2
    clear_value v2
    extract_lets +onlyGivenNames v3
    clear_value v3
    extract_lets +onlyGivenNames v4
    clear_value v4
    extract_lets +onlyGivenNames v5
    clear_value v5
    extract_lets +onlyGivenNames v6
    clear_value v6
    extract_lets +onlyGivenNames v7
    clear_value v7
    extract_lets +onlyGivenNames v8
    have hv8 : OnlyChanges ps q v8 := by
      unfold v8
      with_reducible apply State.pumpAll_only
      · exact hk.of rfl
      · with_reducible apply State.setPeer_only
        · exact hk.of rfl
        · assumption
    clear_value v8
    with_reducible refine OnlyChanges.foldl ?_ ?_
    · assumption
    · intro x1 x2 x3
      with_reducible apply State.settleAcks_only
      · exact hk
      · assumption

theorem execAck_only {ps : List Part} {q s : State} (hk : Within [.reg, .chans, .cqs, .accts, .gfe, .frames, .objs, .place, .host, .fab, .integ, .icnt, .out] ps) (hq : OnlyChanges ps q s) (port : Nat) (f : Frame) : RunsOnly ps q (execAck port f s) := by
  unfold execAck
  with_reducible apply RunsOnly.done
  · exact hk.of rfl
  · with_reducible refine OnlyChanges.ite ?_ ?_
    · assumption
    · with_reducible refine OnlyChanges.ite ?_ ?_
      · with_reducible apply State.discard_only
        · exact hk.of rfl
        · assumption
      · with_reducible apply State.takeAck_only
        · exact hk
        · assumption

theorem execNak_only {ps : List Part} {q s : State} (hk : Within [.reg, .chans, .cqs, .accts, .gfe, .frames, .objs, .place, .host, .fab, .integ, .icnt, .out] ps) (hq : OnlyChanges ps q s) (port : Nat) (f : Frame) : RunsOnly ps q (execNak port f s) := by
  unfold execNak
  with_reducible apply RunsOnly.done
  · exact hk.of rfl
  · with_reducible refine OnlyChanges.ite ?_ ?_
    · assumption
    · with_reducible refine OnlyChanges.ite ?_ ?_
      · with_reducible apply State.discard_only
        · exact hk.of rfl
        · assumption
      · with_reducible refine OnlyChanges.ite ?_ ?_
        · with_reducible refine OnlyChanges.ite ?_ ?_
          · assumption
          · with_reducible apply State.failPeer_only
            · exact hk
            · assumption
        · with_reducible apply State.resendFlow_only
          · exact hk.of rfl
          · with_reducible apply State.takeAck_only
            · exact hk
            · assumption

theorem execAckDue_only {ps : List Part} {q s : State} (hk : Within [.reg, .fab, .out] ps) (hq : OnlyChanges ps q s) (peer : Nat) (vl : Nat) : RunsOnly ps q (execAckDue peer vl s) := by
  unfold execAckDue
  with_reducible apply RunsOnly.done
  · exact hk.of rfl
  · extract_lets +onlyGivenNames v1
    clear_value v1
    split
    · assumption
    · with_reducible refine OnlyChanges.ite ?_ ?_
      · assumption
      · with_reducible apply State.sendCtl_only
        · exact hk.of rfl
        · with_reducible apply State.setPeer_only
          · exact hk.of rfl
          · assumption

theorem execRetxTimerExpiry_only {ps : List Part} {q s : State} (hk : Within [.reg, .chans, .cqs, .accts, .gfe, .frames, .objs, .place, .host, .fab, .integ, .icnt, .out] ps) (hq : OnlyChanges ps q s) (peer : Nat) (vl : Nat) : RunsOnly ps q (execRetxTimerExpiry peer vl s) := by
  unfold execRetxTimerExpiry
  with_reducible apply RunsOnly.done
  · exact hk.of rfl
  · extract_lets +onlyGivenNames v1
    clear_value v1
    with_reducible refine OnlyChanges.ite ?_ ?_
    · assumption
    · with_reducible refine OnlyChanges.ite ?_ ?_
      · with_reducible apply State.failPeer_only
        · exact hk
        · assumption
      · with_reducible apply State.resendFlow_only
        · exact hk.of rfl
        · with_reducible apply State.setPeer_only
          · exact hk.of rfl
          · assumption

theorem State.reassemble_only {ps : List Part} {q s : State} (hk : Within [.reg, .host, .fab, .out] ps) (hq : OnlyChanges ps q s) (f : Frame) : OnlyChanges ps q (State.reassemble s f) := by
  unfold State.reassemble
  extract_lets +onlyGivenNames v1
  clear_value v1
  extract_lets +onlyGivenNames v2
  clear_value v2
  extract_lets +onlyGivenNames v3
  clear_value v3
  with_reducible refine OnlyChanges.ite ?_ ?_
  · with_reducible apply OnlyChanges.upd_fab
    · exact hk.of rfl
    · assumption
  · extract_lets +onlyGivenNames v4
    clear_value v4
    extract_lets +onlyGivenNames v5
    have hv5 : OnlyChanges ps q v5 := by
      unfold v5
      with_reducible apply OnlyChanges.upd_fab
      · exact hk.of rfl
      · assumption
    clear_value v5
    with_reducible refine OnlyChanges.ite ?_ ?_
    · with_reducible apply State.refuseMsg_only
      · exact hk
      · assumption
    · with_reducible apply OnlyChanges.upd_fab
      · exact hk.of rfl
      · assumption

theorem State.acceptFrame_only {ps : List Part} {q s : State} (hk : Within [.reg, .host, .fab, .out] ps) (hq : OnlyChanges ps q s) (f : Frame) (e : Peer) : OnlyChanges ps q (State.acceptFrame s f e) := by
  unfold State.acceptFrame
  extract_lets +onlyGivenNames v1
  clear_value v1
  extract_lets +onlyGivenNames v2
  have hv2 : OnlyChanges ps q v2 := by
    unfold v2
    with_reducible apply State.setPeer_only
    · exact hk.of rfl
    · assumption
  clear_value v2
  with_reducible refine OnlyChanges.ite ?_ ?_
  · with_reducible apply State.refuseMsg_only
    · exact hk
    · with_reducible apply OnlyChanges.upd_fab
      · exact hk.of rfl
      · assumption
  · with_reducible apply State.reassemble_only
    · exact hk
    · assumption

theorem State.orderFrame_only {ps : List Part} {q s : State} (hk : Within [.reg, .host, .fab, .out] ps) (hq : OnlyChanges ps q s) (f : Frame) : OnlyChanges ps q (State.orderFrame s f) := by
  unfold State.orderFrame
  extract_lets +onlyGivenNames v1
  clear_value v1
  with_reducible refine OnlyChanges.ite ?_ ?_
  · with_reducible apply State.acceptFrame_only
    · exact hk
    · with_reducible apply OnlyChanges.upd_fab
      · exact hk.of rfl
      · assumption
  · with_reducible refine OnlyChanges.ite ?_ ?_
    · split
      · with_reducible apply State.sendCtl_only
        · exact hk.of rfl
        · assumption
      · assumption
    · with_reducible refine OnlyChanges.ite ?_ ?_
      · with_reducible apply State.acceptFrame_only
        · exact hk
        · assumption
      · with_reducible refine OnlyChanges.ite ?_ ?_
        · with_reducible apply State.setPeer_only
          · exact hk.of rfl
          · assumption
        · extract_lets +onlyGivenNames v2
          clear_value v2
          split
          · with_reducible refine OnlyChanges.ite ?_ ?_
            · with_reducible apply State.sendCtl_only
              · exact hk.of rfl
              · with_reducible apply State.setPeer_only
                · exact hk.of rfl
                · assumption
            · assumption
          · assumption

theorem execData_only {ps : List Part} {q s : State} (hk : Within [.reg, .chans, .cqs, .accts, .gfe, .frames, .objs, .place, .host, .fab, .integ, .icnt, .out] ps) (hq : OnlyChanges ps q s) (port : Nat) (f : Frame) : RunsOnly ps q (execData port f s) := by
  unfold execData
  with_reducible apply RunsOnly.done
  · exact hk.of rfl
  · with_reducible refine OnlyChanges.ite ?_ ?_
    · assumption
    · with_reducible refine OnlyChanges.ite ?_ ?_
      · with_reducible apply State.discard_only
        · exact hk.of rfl
        · assumption
      · with_reducible refine OnlyChanges.ite ?_ ?_
        · assumption
        · with_reducible apply State.orderFrame_only
          · exact hk.of rfl
          · with_reducible apply State.takeAck_only
            · exact hk
            · assumption

theorem execReassemblyTimeout_only {ps : List Part} {q s : State} (hk : Within [.reg, .fab] ps) (hq : OnlyChanges ps q s) (peer : Nat) (vl : Nat) (msgId : Nat) : RunsOnly ps q (execReassemblyTimeout peer vl msgId s) := by
  unfold execReassemblyTimeout
  with_reducible apply RunsOnly.done
  · exact hk.of rfl
  · with_reducible refine OnlyChanges.ite ?_ ?_
    · assumption
    · with_reducible apply OnlyChanges.upd_fab
      · exact hk.of rfl
      · assumption

theorem State.consumeMsg_only {ps : List Part} {q s : State} (hk : Within [.fab] ps) (hq : OnlyChanges ps q s) (m : Nat) (v : Nat) : OnlyChanges ps q (State.consumeMsg s m v) := by
  unfold State.consumeMsg
  split
  · with_reducible apply OnlyChanges.upd_fab
    · exact hk
    · assumption
  · assumption

theorem State.keepMsg_only {ps : List Part} {q s : State} (hk : Within [.fab] ps) (hq : OnlyChanges ps q s) (m : Nat) (v : Nat) (payload : List Byte) : OnlyChanges ps q (State.keepMsg s m v payload) := by
  unfold State.keepMsg
  split
  · with_reducible apply OnlyChanges.upd_fab
    · exact hk
    · assumption
  · assumption

theorem State.refuseIt_only {ps : List Part} {q s : State} (hk : Within [.reg, .host, .fab, .out] ps) (hq : OnlyChanges ps q s) (x : Msg) (reason : Nat) : OnlyChanges ps q (State.refuseIt s x reason) := by
  unfold State.refuseIt
  with_reducible apply State.refuseMsg_only
  · exact hk
  · with_reducible apply State.consumeMsg_only
    · exact hk.of rfl
    · assumption

theorem State.readSlots_only {ps : List Part} {q s : State} (hk : Within [.reg, .chans, .cqs, .accts, .gfe, .host, .fab, .out] ps) (hq : OnlyChanges ps q s) (x : Msg) (c : Nat) (l : List (List Byte × List Byte)) :
    OnlyChanges ps q (State.readSlots s x c l) := by
  induction l generalizing s with
  | nil => exact State.consumeMsg_only (hk.of rfl) hq _ _
  | cons y t ih =>
    obtain ⟨slot, ext⟩ := y
    rw [State.readSlots]
    exact OnlyChanges.ite (ih (State.acceptSlot_only (hk.of rfl) hq _ _ _ _)) (State.keepMsg_only (hk.of rfl) hq _ _ _)

theorem execRequest_only {ps : List Part} {q s : State} (hk : Within [.reg, .chans, .cqs, .accts, .gfe, .host, .fab, .out] ps) (hq : OnlyChanges ps q s) (peer : Nat) (vl : Nat) : RunsOnly ps q (execRequest peer vl s) := by
  unfold execRequest
  with_reducible apply RunsOnly.done
  · exact hk.of rfl
  · split
    · assumption
    · extract_lets +onlyGivenNames v1
      clear_value v1
      with_reducible refine OnlyChanges.ite ?_ ?_
      · with_reducible apply State.refuseIt_only
        · exact hk.of rfl
        · assumption
      · with_reducible refine OnlyChanges.ite ?_ ?_
        · with_reducible apply State.refuseIt_only
          · exact hk.of rfl
          · assumption
        · with_reducible refine OnlyChanges.ite ?_ ?_
          · assumption
          · split
            · with_reducible apply State.refuseIt_only
              · exact hk.of rfl
              · assumption
            · with_reducible apply State.readSlots_only
              · exact hk
              · assumption

theorem execResponse_only {ps : List Part} {q s : State} (hk : Within [.reg, .host, .fab, .out] ps) (hq : OnlyChanges ps q s) (peer : Nat) (vl : Nat) : RunsOnly ps q (execResponse peer vl s) := by
  unfold execResponse
  with_reducible apply RunsOnly.done
  · exact hk.of rfl
  · split
    · assumption
    · extract_lets +onlyGivenNames v1
      clear_value v1
      with_reducible refine OnlyChanges.ite ?_ ?_
      · with_reducible apply State.refuseIt_only
        · exact hk
        · assumption
      · with_reducible apply State.consumeMsg_only
        · exact hk.of rfl
        · assumption

theorem State.enterServe_only {ps : List Part} {q s : State} (hk : Within [.accts, .gfe, .fab] ps) (hq : OnlyChanges ps q s) (x : Msg) (c : Nat) (op : Nat) (budget : Nat) (h : Nat) : OnlyChanges ps q (State.enterServe s x c op budget h) := by
  unfold State.enterServe
  extract_lets +onlyGivenNames v1
  clear_value v1
  extract_lets +onlyGivenNames v2
  clear_value v2
  extract_lets +onlyGivenNames v3
  have hv3 : OnlyChanges ps q v3 := by
    unfold v3
    with_reducible apply State.consumeMsg_only
    · exact hk.of rfl
    · assumption
  clear_value v3
  with_reducible apply State.chargeBytes_only
  · exact hk.of rfl
  · with_reducible apply OnlyChanges.upd_gfe_fab
    · exact hk.of rfl
    · assumption
    · exact fun _ => rfl

theorem execGather_only {ps : List Part} {q s : State} (hk : Within [.reg, .accts, .gfe, .host, .fab, .out] ps) (hq : OnlyChanges ps q s) (peer : Nat) (vl : Nat) : RunsOnly ps q (execGather peer vl s) := by
  unfold execGather
  with_reducible apply RunsOnly.done
  · exact hk.of rfl
  · split
    · assumption
    · extract_lets +onlyGivenNames v1
      clear_value v1
      with_reducible refine OnlyChanges.ite ?_ ?_
      · with_reducible apply State.refuseIt_only
        · exact hk.of rfl
        · assumption
      · split
        · with_reducible apply State.refuseIt_only
          · exact hk.of rfl
          · assumption
        · with_reducible refine OnlyChanges.ite ?_ ?_
          · assumption
          · with_reducible apply State.enterServe_only
            · exact hk.of rfl
            · assumption

theorem execUpdate_only {ps : List Part} {q s : State} (hk : Within [.reg, .accts, .gfe, .host, .fab, .out] ps) (hq : OnlyChanges ps q s) (peer : Nat) (vl : Nat) : RunsOnly ps q (execUpdate peer vl s) := by
  unfold execUpdate
  with_reducible apply RunsOnly.done
  · exact hk.of rfl
  · split
    · assumption
    · extract_lets +onlyGivenNames v1
      clear_value v1
      extract_lets +onlyGivenNames v2
      clear_value v2
      with_reducible refine OnlyChanges.ite ?_ ?_
      · with_reducible apply State.refuseIt_only
        · exact hk.of rfl
        · assumption
      · split
        · with_reducible apply State.refuseIt_only
          · exact hk.of rfl
          · assumption
        · with_reducible refine OnlyChanges.ite ?_ ?_
          · with_reducible apply State.refuseIt_only
            · exact hk.of rfl
            · assumption
          · with_reducible refine OnlyChanges.ite ?_ ?_
            · assumption
            · with_reducible apply State.enterServe_only
              · exact hk.of rfl
              · assumption

theorem execPartials_only {ps : List Part} {q s : State} (hk : Within [.reg, .accts, .gfe, .host, .fab, .out] ps) (hq : OnlyChanges ps q s) (peer : Nat) (vl : Nat) : RunsOnly ps q (execPartials peer vl s) := by
  unfold execPartials
  with_reducible apply RunsOnly.done
  · exact hk.of rfl
  · split
    · assumption
    · split
      · with_reducible apply State.consumeMsg_only
        · exact hk.of rfl
        · assumption
      · split
        · with_reducible apply State.consumeMsg_only
          · exact hk.of rfl
          · with_reducible apply OnlyChanges.upd_fab
            · exact hk.of rfl
            · assumption
        · split
          · with_reducible apply State.consumeMsg_only
            · exact hk.of rfl
            · with_reducible apply OnlyChanges.upd_fab
              · exact hk.of rfl
              · assumption
          · with_reducible refine OnlyChanges.ite ?_ ?_
            · with_reducible apply State.refuseIt_only
              · exact hk.of rfl
              · assumption
            · extract_lets +onlyGivenNames v1
              clear_value v1
              extract_lets +onlyGivenNames v2
              have hv2 : OnlyChanges ps q v2 := by
                unfold v2
                with_reducible apply State.consumeMsg_only
                · exact hk.of rfl
                · with_reducible apply OnlyChanges.upd_fab
                  · exact hk.of rfl
                  · assumption
              clear_value v2
              extract_lets +onlyGivenNames v3
              have hv3 : OnlyChanges ps q v3 := by
                unfold v3
                with_reducible apply State.setCmd_only
                · exact hk.of rfl
                · assumption
              clear_value v3
              with_reducible apply State.settleRes_only
              · exact hk.of rfl
              · with_reducible apply State.chargeBytes_only
                · exact hk.of rfl
                · assumption

theorem execUpdateAck_only {ps : List Part} {q s : State} (hk : Within [.reg, .chans, .cqs, .accts, .gfe, .frames, .objs, .place, .host, .fab, .integ, .icnt, .out] ps) (hq : OnlyChanges ps q s) (peer : Nat) (vl : Nat) : RunsOnly ps q (execUpdateAck peer vl s) := by
  unfold execUpdateAck
  with_reducible apply RunsOnly.done
  · exact hk.of rfl
  · split
    · assumption
    · with_reducible refine OnlyChanges.ite ?_ ?_
      · with_reducible apply State.refuseIt_only
        · exact hk.of rfl
        · assumption
      · extract_lets +onlyGivenNames v1
        have hv1 : OnlyChanges ps q v1 := by
          unfold v1
          with_reducible apply State.consumeMsg_only
          · exact hk.of rfl
          · assumption
        clear_value v1
        split
        · assumption
        · extract_lets +onlyGivenNames v2
          clear_value v2
          extract_lets +onlyGivenNames v3
          have hv3 : OnlyChanges ps q v3 := by
            unfold v3
            with_reducible apply OnlyChanges.upd_fab
            · exact hk.of rfl
            · assumption
          clear_value v3
          with_reducible apply State.settleAcks_only
          · exact hk
          · with_reducible apply State.setExtra_only
            · exact hk.of rfl
            · assumption

theorem execRefuse_only {ps : List Part} {q s : State} (hk : Within [.reg, .chans, .cqs, .accts, .gfe, .frames, .objs, .place, .host, .fab, .integ, .icnt, .out] ps) (hq : OnlyChanges ps q s) (peer : Nat) (vl : Nat) : RunsOnly ps q (execRefuse peer vl s) := by
  unfold execRefuse
  with_reducible apply RunsOnly.done
  · exact hk.of rfl
  · split
    · assumption
    · with_reducible refine OnlyChanges.ite ?_ ?_
      · with_reducible apply State.refuseIt_only
        · exact hk.of rfl
        · assumption
      · extract_lets +onlyGivenNames v1
        clear_value v1
        extract_lets +onlyGivenNames v2
        have hv2 : OnlyChanges ps q v2 := by
          unfold v2
          with_reducible apply State.raise_only
          · exact hk.of rfl
          · with_reducible apply State.consumeMsg_only
            · exact hk.of rfl
            · assumption
        clear_value v2
        split
        · assumption
        · with_reducible apply State.remoteEnds_only
          · exact hk
          · with_reducible apply OnlyChanges.upd_fab
            · exact hk.of rfl
            · assumption

theorem State.addTrim_only {ps : List Part} {q s : State} (hk : Within [.pslots] ps) (hq : OnlyChanges ps q s) (t : Test) (k : Int) : OnlyChanges ps q (State.addTrim s t k) := by
  unfold State.addTrim
  split
  · with_reducible refine OnlyChanges.ite ?_ ?_
    · with_reducible apply State.setPslot_only
      · exact hk
      · assumption
    · assumption
  · assumption

theorem State.untrim_only {ps : List Part} {q s : State} (hk : Within [.pslots] ps) (hq : OnlyChanges ps q s) (t : Test) : OnlyChanges ps q (State.untrim s t) := by
  unfold State.untrim
  with_reducible refine OnlyChanges.ite ?_ ?_
  · with_reducible apply State.addTrim_only
    · exact hk
    · assumption
  · assumption

theorem State.resumeUnits_only {ps : List Part} {q s : State} (hk : Within [.reg, .chans, .cqs, .accts, .gfe, .frames, .objs, .place, .link, .host, .fab, .integ, .icnt, .out] ps) (hq : OnlyChanges ps q s) : OnlyChanges ps q (State.resumeUnits s) := by
  unfold State.resumeUnits
  extract_lets +onlyGivenNames v1
  have hv1 : OnlyChanges ps q v1 := by
    unfold v1
    with_reducible apply State.settleResAll_only
    · exact hk.of rfl
    · with_reducible apply State.tidy_only
      · exact hk.of rfl
      · with_reducible apply State.tryTrain_only
        · exact hk.of rfl
        · assumption
  clear_value v1
  extract_lets +onlyGivenNames v2
  clear_value v2
  extract_lets +onlyGivenNames v3
  have hv3 : OnlyChanges ps q v3 := by
    unfold v3
    with_reducible apply State.pumpRings_only
    · exact hk.of rfl
    · with_reducible refine OnlyChanges.foldl ?_ ?_
      · assumption
      · intro x1 x2 x3
        with_reducible apply State.release_only
        · exact hk.of rfl
        · assumption
  clear_value v3
  with_reducible apply State.pumpAllLines_only
  · exact hk.of rfl
  · with_reducible apply State.pumpAll_only
    · exact hk.of rfl
    · assumption

theorem State.beginTest_only {ps : List Part} {q s : State} (hk : Within [.reg, .accts, .gfe, .clus, .resvs, .pslots, .frames, .place, .streams, .xfers, .host, .integ, .icnt, .sup, .out, .tests] ps) (hq : OnlyChanges ps q s) (t : Test) : OnlyChanges ps q (State.beginTest s t) := by
  unfold State.beginTest
  with_reducible refine OnlyChanges.ite ?_ ?_
  · with_reducible apply State.enterResidency_only
    · exact hk
    · assumption
  · with_reducible apply OnlyChanges.upd_integ
    · exact hk.of rfl
    · assumption
    · exact hk.no rfl

theorem State.nextTest_only {ps : List Part} {q s : State} (hk : Within [.reg, .chans, .cqs, .accts, .gfe, .clus, .resvs, .pslots, .frames, .objs, .place, .streams, .xfers, .host, .fab, .integ, .icnt, .sup, .out, .tests] ps) (hq : OnlyChanges ps q s) (edge : Bool) (l : List Test) : OnlyChanges ps q (State.nextTest s edge l) := by
  induction l generalizing s with
  | nil => exact hq
  | cons t rest ih =>
    rw [State.nextTest]
    refine OnlyChanges.ite hq ?_
    have h1 : OnlyChanges ps q { s with integ := { s.integ with wait := rest } } := OnlyChanges.upd_integ (hk.of rfl) hq (hk.no rfl)
    refine OnlyChanges.ite (State.beginTest_only (hk.of rfl) h1 _) ?_
    apply ih
    split
    · split
      · exact State.endCmd_only (hk.of rfl) h1 _ _ _ _ _
      · exact h1
    · exact h1

theorem State.clearTest_only {ps : List Part} {q s : State} (hk : Within [.reg, .chans, .cqs, .accts, .gfe, .clus, .resvs, .pslots, .frames, .objs, .place, .streams, .xfers, .link, .host, .fab, .integ, .icnt, .sup, .out, .tests] ps) (hq : OnlyChanges ps q s) : OnlyChanges ps q (State.clearTest s) := by
  unfold State.clearTest
  extract_lets +onlyGivenNames v1
  extract_lets +onlyGivenNames v2
  have hv2 : OnlyChanges ps q v2 := by
    unfold v2
    with_reducible apply State.resumeUnits_only
    · exact hk.of rfl
    · with_reducible apply OnlyChanges.upd_integ
      · exact hk.of rfl
      · assumption
      · exact hk.no rfl
  clear_value v2
  with_reducible apply State.nextTest_only
  · exact hk.of rfl
  · assumption

theorem State.testEdge_only {ps : List Part} {q s : State} (hk : Within [.reg, .chans, .cqs, .accts, .gfe, .clus, .resvs, .pslots, .frames, .objs, .place, .streams, .xfers, .host, .fab, .integ, .icnt, .sup, .out, .tests] ps) (hq : OnlyChanges ps q s) : OnlyChanges ps q (State.testEdge s) := by
  unfold State.testEdge
  split
  · with_reducible apply State.nextTest_only
    · exact hk
    · assumption
  · with_reducible refine OnlyChanges.ite ?_ ?_
    · assumption
    · with_reducible refine OnlyChanges.ite ?_ ?_
      · with_reducible refine OnlyChanges.ite ?_ ?_
        · with_reducible apply State.addTrim_only
          · exact hk.of rfl
          · with_reducible apply OnlyChanges.upd_integ
            · exact hk.of rfl
            · assumption
            · exact hk.no rfl
        · with_reducible apply State.moveDown_only
          · exact hk.of rfl
          · assumption
      · with_reducible refine OnlyChanges.ite ?_ ?_
        · with_reducible apply State.addTrim_only
          · exact hk.of rfl
          · assumption
        · with_reducible refine OnlyChanges.ite ?_ ?_
          · with_reducible apply State.addTrim_only
            · exact hk.of rfl
            · assumption
          · assumption

theorem execResidencyStart_only {ps : List Part} {q s : State} (hk : Within [.reg, .integ, .tests] ps) (hq : OnlyChanges ps q s) : RunsOnly ps q (execResidencyStart s) := by
  unfold execResidencyStart
  with_reducible apply RunsOnly.done
  · exact hk.of rfl
  · with_reducible refine OnlyChanges.ite ?_ ?_
    · assumption
    · split
      · assumption
      · with_reducible apply State.queueTest_only
        · exact hk.of rfl
        · with_reducible apply OnlyChanges.upd_integ
          · exact hk.of rfl
          · assumption
          · exact fun _ => rfl

theorem execResidencyAbandon_only {ps : List Part} {q s : State} (hk : Within [.reg, .chans, .cqs, .accts, .gfe, .clus, .resvs, .pslots, .frames, .objs, .place, .streams, .xfers, .link, .host, .fab, .integ, .icnt, .sup, .out, .tests] ps) (hq : OnlyChanges ps q s) : RunsOnly ps q (execResidencyAbandon s) := by
  unfold execResidencyAbandon
  with_reducible apply RunsOnly.done
  · exact hk.of rfl
  · split
    · assumption
    · with_reducible refine OnlyChanges.ite ?_ ?_
      · assumption
      · extract_lets +onlyGivenNames v1
        extract_lets +onlyGivenNames v2
        have hv2 : OnlyChanges ps q v2 := by
          unfold v2
          with_reducible apply OnlyChanges.upd_integ
          · exact hk.of rfl
          · assumption
          · exact fun _ => rfl
        clear_value v2
        split
        · with_reducible apply State.clearTest_only
          · exact hk
          · assumption
        · with_reducible refine OnlyChanges.ite ?_ ?_
          · with_reducible apply State.clearTest_only
            · exact hk
            · with_reducible apply State.queueTest_only
              · exact hk.of rfl
              · assumption
          · with_reducible apply State.clearTest_only
            · exact hk
            · with_reducible apply State.setSlotState_only
              · exact hk.of rfl
              · assumption

theorem State.passClu_only {ps : List Part} {q s : State} (hk : Within [.reg, .pslots, .host, .integ, .out] ps) (hq : OnlyChanges ps q s) (t : Test) (p : Nat) : OnlyChanges ps q (State.passClu s t p) := by
  unfold State.passClu
  extract_lets +onlyGivenNames v1
  clear_value v1
  with_reducible refine OnlyChanges.ite ?_ ?_
  · with_reducible apply State.raiseEvent_only
    · exact hk.of rfl
    · with_reducible apply State.faultLog_only
      · exact hk.of rfl
      · with_reducible apply State.setPslot_only
        · exact hk.of rfl
        · assumption
  · with_reducible apply State.faultLog_only
    · exact hk.of rfl
    · with_reducible apply State.setPslot_only
      · exact hk.of rfl
      · assumption

theorem State.judgeClu_only {ps : List Part} {q s : State} (hk : Within [.reg, .accts, .gfe, .clus, .resvs, .pslots, .frames, .place, .streams, .xfers, .host, .integ, .icnt, .sup, .out, .tests] ps) (hq : OnlyChanges ps q s) (t : Test) (v : TestVerdict) : OnlyChanges ps q (State.judgeClu s t v) := by
  unfold State.judgeClu
  split
  · assumption
  · extract_lets +onlyGivenNames v1
    extract_lets +onlyGivenNames v2
    have hv2 : OnlyChanges ps q v2 := by
      unfold v2
      with_reducible apply OnlyChanges.upd_integ
      · exact hk.of rfl
      · assumption
      · exact fun _ => rfl
    clear_value v2
    with_reducible apply State.raiseEvent_only
    · exact hk.of rfl
    · split
      · with_reducible apply State.passClu_only
        · exact hk.of rfl
        · assumption
      · with_reducible apply State.makeRetired_only
        · exact hk
        · with_reducible apply State.faultLog_only
          · exact hk.of rfl
          · assumption

theorem execResidencyVerdict_only {ps : List Part} {q s : State} (hk : Within [.reg, .chans, .cqs, .accts, .gfe, .clus, .resvs, .pslots, .frames, .objs, .place, .streams, .xfers, .link, .host, .fab, .integ, .icnt, .sup, .out, .tests] ps) (hq : OnlyChanges ps q s) (verdict : TestVerdict) : RunsOnly ps q (execResidencyVerdict verdict s) := by
  unfold execResidencyVerdict
  with_reducible apply RunsOnly.done
  · exact hk.of rfl
  · split
    · assumption
    · with_reducible refine OnlyChanges.ite ?_ ?_
      · assumption
      · with_reducible apply State.clearTest_only
        · exact hk
        · with_reducible apply State.judgeClu_only
          · exact hk.of rfl
          · assumption

theorem State.runTestOnDemand_only {ps : List Part} {q s : State} (hk : Within [.reg, .chans, .cqs, .accts, .gfe, .clus, .resvs, .pslots, .frames, .objs, .place, .streams, .xfers, .host, .fab, .integ, .icnt, .sup, .out, .tests] ps) (hq : OnlyChanges ps q s) (d : Cmd) : OnlyChanges ps q (State.runTestOnDemand s d) := by
  unfold State.runTestOnDemand
  split
  · with_reducible apply State.endNow_only
    · exact hk.of rfl
    · assumption
  · extract_lets +onlyGivenNames v1
    clear_value v1
    extract_lets +onlyGivenNames v2
    have hv2 : OnlyChanges ps q v2 := by
      unfold v2
      with_reducible apply State.issue_only
      · exact hk.of rfl
      · assumption
    clear_value v2
    with_reducible refine OnlyChanges.ite ?_ ?_
    · with_reducible apply State.beginTest_only
      · exact hk.of rfl
      · assumption
    · with_reducible apply State.queueTest_only
      · exact hk.of rfl
      · assumption

theorem execTestOnDemand_only {ps : List Part} {q s : State} (hk : Within [.reg, .chans, .cqs, .accts, .gfe, .clus, .resvs, .pslots, .frames, .objs, .place, .streams, .xfers, .host, .fab, .integ, .icnt, .sup, .out, .tests] ps) (hq : OnlyChanges ps q s) (n : Node) : RunsOnly ps q (execTestOnDemand n s) := by
  unfold execTestOnDemand
  with_reducible apply RunsOnly.done
  · exact hk.of rfl
  · with_reducible apply State.gfeHead_only
    · exact hk.of rfl
    · assumption
    · intro x1 x2 x3
      with_reducible apply State.runTestOnDemand_only
      · exact hk
      · assumption

theorem execTestDrainComplete_only {ps : List Part} {q s : State} (hk : Within [.reg, .chans, .cqs, .accts, .gfe, .clus, .resvs, .frames, .objs, .place, .link, .host, .fab, .integ, .icnt, .sup, .out, .tests, .memWait] ps) (hq : OnlyChanges ps q s) : RunsOnly ps q (execTestDrainComplete s) := by
  unfold execTestDrainComplete
  with_reducible apply RunsOnly.done
  · exact hk.of rfl
  · split
    · assumption
    · with_reducible refine OnlyChanges.ite ?_ ?_
      · assumption
      · extract_lets +onlyGivenNames v1
        extract_lets +onlyGivenNames v2
        have hv2 : OnlyChanges ps q v2 := by
          unfold v2
          with_reducible apply OnlyChanges.upd_integ
          · exact hk.of rfl
          · assumption
          · exact hk.no rfl
        clear_value v2
        with_reducible refine OnlyChanges.ite ?_ ?_
        · with_reducible apply State.takeDown_only
          · exact hk.of rfl
          · assumption
        · assumption

theorem execTestDrainTimeout_only {ps : List Part} {q s : State} (hk : Within [.reg, .chans, .cqs, .accts, .gfe, .clus, .resvs, .pslots, .frames, .objs, .place, .streams, .xfers, .link, .host, .fab, .integ, .icnt, .sup, .out, .tests] ps) (hq : OnlyChanges ps q s) : RunsOnly ps q (execTestDrainTimeout s) := by
  unfold execTestDrainTimeout
  with_reducible apply RunsOnly.done
  · exact hk.of rfl
  · split
    · assumption
    · split
      · assumption
      · with_reducible refine OnlyChanges.ite ?_ ?_
        · assumption
        · extract_lets +onlyGivenNames v1
          have hv1 : OnlyChanges ps q v1 := by
            unfold v1
            split
            · with_reducible apply State.setSlotState_only
              · exact hk.of rfl
              · assumption
            · assumption
          clear_value v1
          with_reducible apply State.endCmd_only
          · exact hk.of rfl
          · with_reducible apply State.clearTest_only
            · exact hk
            · assumption

theorem State.judgeUnit_only {ps : List Part} {q s : State} (hk : Within [.reg, .host, .integ, .out] ps) (hq : OnlyChanges ps q s) (u : Nat) (v : TestVerdict) : OnlyChanges ps q (State.judgeUnit s u v) := by
  unfold State.judgeUnit
  extract_lets +onlyGivenNames v1
  extract_lets +onlyGivenNames v2
  have hv2 : OnlyChanges ps q v2 := by
    unfold v2
    with_reducible apply OnlyChanges.upd_integ
    · exact hk.of rfl
    · assumption
    · exact fun _ => rfl
  clear_value v2
  split
  · assumption
  · with_reducible apply State.raise_only
    · exact hk.of rfl
    · with_reducible apply State.faultLog_only
      · exact hk
      · assumption

theorem execTestDone_only {ps : List Part} {q s : State} (hk : Within [.reg, .chans, .cqs, .accts, .gfe, .clus, .resvs, .pslots, .frames, .objs, .place, .streams, .xfers, .link, .host, .fab, .integ, .icnt, .sup, .out, .tests] ps) (hq : OnlyChanges ps q s) (verdict : TestVerdict) : RunsOnly ps q (execTestDone verdict s) := by
  unfold execTestDone
  with_reducible apply RunsOnly.done
  · exact hk.of rfl
  · split
    · assumption
    · split
      · assumption
      · extract_lets +onlyGivenNames v1
        clear_value v1
        with_reducible refine OnlyChanges.ite ?_ ?_
        · assumption
        · extract_lets +onlyGivenNames v2
          have hv2 : OnlyChanges ps q v2 := by
            unfold v2
            with_reducible refine OnlyChanges.ite ?_ ?_
            · with_reducible apply State.judgeClu_only
              · exact hk.of rfl
              · assumption
            · with_reducible apply State.judgeUnit_only
              · exact hk.of rfl
              · assumption
          clear_value v2
          extract_lets +onlyGivenNames v3
          clear_value v3
          with_reducible apply State.raiseEvent_only
          · exact hk.of rfl
          · with_reducible apply State.endCmd_only
            · exact hk.of rfl
            · with_reducible apply State.clearTest_only
              · exact hk
              · assumption

theorem State.dropTestOf_only {ps : List Part} {q s : State} (hk : Within [.reg, .chans, .cqs, .accts, .gfe, .clus, .resvs, .pslots, .frames, .objs, .place, .streams, .xfers, .link, .host, .fab, .integ, .icnt, .sup, .out, .tests] ps) (hq : OnlyChanges ps q s) (p : Nat) : OnlyChanges ps q (State.dropTestOf s p) := by
  unfold State.dropTestOf
  split
  · with_reducible refine OnlyChanges.ite ?_ ?_
    · with_reducible apply State.clearTest_only
      · exact hk
      · with_reducible apply State.untrim_only
        · exact hk.of rfl
        · assumption
    · assumption
  · assumption

theorem execIntCluRetire_only {ps : List Part} {q s : State} (hk : Within [.reg, .chans, .cqs, .accts, .gfe, .clus, .resvs, .pslots, .frames, .objs, .place, .streams, .xfers, .link, .host, .fab, .integ, .icnt, .sup, .out, .tests] ps) (hq : OnlyChanges ps q s) (a : Acc) : RunsOnly ps q (execIntCluRetire a s) := by
  unfold execIntCluRetire
  with_reducible apply RunsOnly.done
  · exact hk.of rfl
  · with_reducible refine OnlyChanges.ite ?_ ?_
    · assumption
    · extract_lets +onlyGivenNames v1
      clear_value v1
      split
      · with_reducible apply State.makeRetired_only
        · exact hk.of rfl
        · assumption
      · with_reducible apply State.dropTestOf_only
        · exact hk
        · with_reducible apply State.makeRetired_only
          · exact hk.of rfl
          · assumption
      · with_reducible apply State.ignored_only
        · exact hk.of rfl
        · assumption

theorem execIntCluSuspect_only {ps : List Part} {q s : State} (hk : Within [.reg, .accts, .gfe, .clus, .resvs, .pslots, .frames, .place, .streams, .xfers, .host, .integ, .icnt, .sup, .out, .tests] ps) (hq : OnlyChanges ps q s) (a : Acc) : RunsOnly ps q (execIntCluSuspect a s) := by
  unfold execIntCluSuspect
  with_reducible apply RunsOnly.done
  · exact hk.of rfl
  · with_reducible refine OnlyChanges.ite ?_ ?_
    · assumption
    · extract_lets +onlyGivenNames v1
      clear_value v1
      split
      · with_reducible apply State.makeSuspect_only
        · exact hk
        · assumption
      · with_reducible apply State.ignored_only
        · exact hk.of rfl
        · assumption

theorem State.setAcc_only {ps : List Part} {q s : State} (hk : Within [.reg] ps) (hq : OnlyChanges ps q s) (a : Acc) (v : AccState) : OnlyChanges ps q (State.setAcc s a v) := by
  unfold State.setAcc
  split
  · with_reducible apply OnlyChanges.upd_reg
    · exact hk
    · assumption
  · with_reducible apply OnlyChanges.upd_reg
    · exact hk
    · assumption

theorem execIntLogSnap_only {ps : List Part} {q s : State} (hk : Within [.reg] ps) (hq : OnlyChanges ps q s) (a : Acc) (index : Nat) : RunsOnly ps q (execIntLogSnap a index s) := by
  unfold execIntLogSnap
  with_reducible apply RunsOnly.done
  · exact hk
  · with_reducible refine OnlyChanges.ite ?_ ?_
    · assumption
    · extract_lets +onlyGivenNames v1
      have hv1 : OnlyChanges ps q v1 := by
        unfold v1
        with_reducible apply State.fldPut_only
        · exact hk
        · assumption
      clear_value v1
      with_reducible apply State.setAcc_only
      · exact hk
      · assumption

theorem execFaultLogRecordWrite_only {ps : List Part} {q s : State} (hk : Within [.reg, .integ] ps) (hq : OnlyChanges ps q s) : RunsOnly ps q (execFaultLogRecordWrite s) := by
  unfold execFaultLogRecordWrite
  with_reducible apply RunsOnly.done
  · exact hk.of rfl
  · split
    · assumption
    · with_reducible refine OnlyChanges.ite ?_ ?_
      · assumption
      · extract_lets +onlyGivenNames v1
        clear_value v1
        with_reducible apply OnlyChanges.upd_integ
        · exact hk.of rfl
        · assumption
        · exact fun _ => rfl

theorem State.freeUpdate_only {ps : List Part} {q s : State} (hk : Within [.reg, .frames, .host, .integ, .icnt, .out] ps) (hq : OnlyChanges ps q s) : OnlyChanges ps q (State.freeUpdate s) := by
  unfold State.freeUpdate
  with_reducible refine OnlyChanges.foldl ?_ ?_
  · assumption
  · intro x1 x2 x3
    with_reducible apply State.freeFrame_only
    · exact hk
    · assumption

theorem State.endUpdate_only {ps : List Part} {q s : State} (hk : Within [.reg, .frames, .host, .integ, .icnt, .sec, .out] ps) (hq : OnlyChanges ps q s) (code : Nat) : OnlyChanges ps q (State.endUpdate s code) := by
  unfold State.endUpdate
  with_reducible refine OnlyChanges.ite ?_ ?_
  · assumption
  · with_reducible apply State.raise_only
    · exact hk.of rfl
    · extract_lets +onlyGivenNames v1
      have hv1 : OnlyChanges ps q v1 := by
        unfold v1
        with_reducible apply State.freeUpdate_only
        · exact hk.of rfl
        · assumption
      clear_value v1
      with_reducible apply OnlyChanges.upd_sec
      · exact hk.of rfl
      · assumption

theorem State.sensorFault_only {ps : List Part} {q s : State} (hk : Within [.reg, .host, .out] ps) (hq : OnlyChanges ps q s) : OnlyChanges ps q (State.sensorFault s) := by
  unfold State.sensorFault
  with_reducible apply State.raise_only
  · exact hk
  · assumption

theorem State.supplyRelease_only {ps : List Part} {q s : State} (hk : Within [.reg, .host, .out] ps) (hq : OnlyChanges ps q s) (bit : Nat) : OnlyChanges ps q (State.supplyRelease s bit) := by
  unfold State.supplyRelease
  with_reducible apply State.raiseEvent_only
  · exact hk.of rfl
  · with_reducible apply State.statusSet_only
    · exact hk.of rfl
    · assumption

theorem State.inhibitStep_only {ps : List Part} {q s : State} (hk : Within [.reg, .chans, .cqs, .accts, .gfe, .frames, .objs, .place, .host, .fab, .integ, .icnt, .sup, .sec, .sb, .out] ps) (hq : OnlyChanges ps q s) : OnlyChanges ps q (State.inhibitStep s) := by
  unfold State.inhibitStep
  extract_lets +onlyGivenNames v1
  clear_value v1
  with_reducible refine OnlyChanges.ite ?_ ?_
  · with_reducible apply State.endUpdate_only
    · exact hk.of rfl
    · with_reducible apply State.raise_only
      · exact hk.of rfl
      · with_reducible apply OnlyChanges.upd_sup_sb
        · exact hk.of rfl
        · assumption
  · with_reducible refine OnlyChanges.ite ?_ ?_
    · with_reducible apply State.tidy_only
      · exact hk.of rfl
      · with_reducible apply State.supplyRelease_only
        · exact hk.of rfl
        · with_reducible apply OnlyChanges.upd_sup
          · exact hk.of rfl
          · assumption
    · assumption

theorem State.supplyStep_only {ps : List Part} {q s : State} (hk : Within [.reg, .chans, .cqs, .accts, .gfe, .clus, .resvs, .frames, .objs, .place, .host, .fab, .integ, .icnt, .sup, .sec, .sb, .out] ps) (hq : OnlyChanges ps q s) : OnlyChanges ps q (State.supplyStep s) := by
  unfold State.supplyStep
  extract_lets +onlyGivenNames v1
  have hv1 : OnlyChanges ps q v1 := by
    unfold v1
    with_reducible apply State.inhibitStep_only
    · exact hk.of rfl
    · assumption
  clear_value v1
  extract_lets +onlyGivenNames v2
  clear_value v2
  extract_lets +onlyGivenNames v3
  clear_value v3
  extract_lets +onlyGivenNames v4
  have hv4 : OnlyChanges ps q v4 := by
    unfold v4
    with_reducible refine OnlyChanges.ite ?_ ?_
    · with_reducible apply OnlyChanges.upd_sup
      · exact hk.of rfl
      · assumption
    · with_reducible refine OnlyChanges.ite ?_ ?_
      · with_reducible apply OnlyChanges.upd_sup
        · exact hk.of rfl
        · assumption
      · assumption
  clear_value v4
  with_reducible refine OnlyChanges.ite ?_ ?_
  · with_reducible apply State.controlledStop_only
    · exact hk.of rfl
    · assumption
  · assumption

theorem execInputMeterSample_only {ps : List Part} {q s : State} (hk : Within [.reg, .chans, .cqs, .accts, .gfe, .clus, .resvs, .frames, .objs, .place, .host, .fab, .integ, .icnt, .sup, .sec, .sb, .out] ps) (hq : OnlyChanges ps q s) (mv : Int) (tenMa : Int) : RunsOnly ps q (execInputMeterSample mv tenMa s) := by
  unfold execInputMeterSample
  with_reducible apply RunsOnly.done
  · exact hk.of rfl
  · with_reducible refine OnlyChanges.ite ?_ ?_
    · assumption
    · with_reducible refine OnlyChanges.ite ?_ ?_
      · with_reducible apply State.sensorFault_only
        · exact hk.of rfl
        · assumption
      · extract_lets +onlyGivenNames v1
        clear_value v1
        extract_lets +onlyGivenNames v2
        clear_value v2
        with_reducible apply State.supplyStep_only
        · exact hk
        · with_reducible apply OnlyChanges.upd_sup
          · exact hk.of rfl
          · assumption

theorem execMeterTimeout_only {ps : List Part} {q s : State} (hk : Within [.reg, .chans, .cqs, .accts, .gfe, .clus, .resvs, .frames, .objs, .place, .host, .fab, .integ, .icnt, .sup, .sec, .sb, .out] ps) (hq : OnlyChanges ps q s) (tenMs : Bool) : RunsOnly ps q (execMeterTimeout tenMs s) := by
  unfold execMeterTimeout
  with_reducible apply RunsOnly.done
  · exact hk.of rfl
  · with_reducible refine OnlyChanges.ite ?_ ?_
    · assumption
    · extract_lets +onlyGivenNames v1
      clear_value v1
      extract_lets +onlyGivenNames v2
      have hv2 : OnlyChanges ps q v2 := by
        unfold v2
        with_reducible refine OnlyChanges.ite ?_ ?_
        · assumption
        · with_reducible apply State.sensorFault_only
          · exact hk.of rfl
          · with_reducible apply State.raise_only
            · exact hk.of rfl
            · with_reducible apply OnlyChanges.upd_sup
              · exact hk.of rfl
              · assumption
      clear_value v2
      extract_lets +onlyGivenNames v3
      have hv3 : OnlyChanges ps q v3 := by
        unfold v3
        with_reducible apply State.supplyStep_only
        · exact hk
        · assumption
      clear_value v3
      with_reducible refine OnlyChanges.ite ?_ ?_
      · with_reducible apply State.controlledStop_only
        · exact hk.of rfl
        · assumption
      · assumption

theorem State.thermalStep_only {ps : List Part} {q s : State} (hk : Within [.reg, .chans, .cqs, .accts, .gfe, .clus, .resvs, .frames, .objs, .place, .host, .fab, .integ, .icnt, .sup, .mon, .out] ps) (hq : OnlyChanges ps q s) (k : Nat) : OnlyChanges ps q (State.thermalStep s k) := by
  unfold State.thermalStep
  exact OnlyChanges.ite (State.controlledStop_only (hk.of rfl) (OnlyChanges.upd_mon (hk.of rfl) hq)) (OnlyChanges.upd_mon (hk.of rfl) hq)

theorem State.setTemp_only {ps : List Part} {q s : State} (hk : Within [.mon] ps) (hq : OnlyChanges ps q s) (k : Nat) (r : Samples) : OnlyChanges ps q (State.setTemp s k r) := by
  unfold State.setTemp
  with_reducible apply OnlyChanges.upd_mon
  · exact hk
  · assumption

theorem execTempSensorSample_only {ps : List Part} {q s : State} (hk : Within [.reg, .chans, .cqs, .accts, .gfe, .clus, .resvs, .frames, .objs, .place, .host, .fab, .integ, .icnt, .sup, .mon, .out] ps) (hq : OnlyChanges ps q s) (sensor : Nat) (quarters : Int) : RunsOnly ps q (execTempSensorSample sensor quarters s) := by
  unfold execTempSensorSample
  with_reducible apply RunsOnly.done
  · exact hk.of rfl
  · with_reducible refine OnlyChanges.ite ?_ ?_
    · assumption
    · with_reducible refine OnlyChanges.ite ?_ ?_
      · with_reducible apply State.sensorFault_only
        · exact hk.of rfl
        · assumption
      · extract_lets +onlyGivenNames v1
        clear_value v1
        with_reducible apply State.thermalStep_only
        · exact hk
        · with_reducible apply State.setTemp_only
          · exact hk.of rfl
          · assumption

theorem execTempSensorTimeout_only {ps : List Part} {q s : State} (hk : Within [.reg, .chans, .cqs, .accts, .gfe, .clus, .resvs, .frames, .objs, .place, .host, .fab, .integ, .icnt, .sup, .mon, .out] ps) (hq : OnlyChanges ps q s) (sensor : Nat) : RunsOnly ps q (execTempSensorTimeout sensor s) := by
  unfold execTempSensorTimeout
  with_reducible apply RunsOnly.done
  · exact hk.of rfl
  · with_reducible refine OnlyChanges.ite ?_ ?_
    · assumption
    · with_reducible apply State.thermalStep_only
      · exact hk
      · with_reducible apply State.sensorFault_only
        · exact hk.of rfl
        · with_reducible apply State.setTemp_only
          · exact hk.of rfl
          · assumption

theorem State.setVolt_only {ps : List Part} {q s : State} (hk : Within [.mon] ps) (hq : OnlyChanges ps q s) (k : Nat) (r : Samples) : OnlyChanges ps q (State.setVolt s k r) := by
  unfold State.setVolt
  with_reducible apply OnlyChanges.upd_mon
  · exact hk
  · assumption

theorem execVoltageMonitorSample_only {ps : List Part} {q s : State} (hk : Within [.reg, .chans, .cqs, .accts, .gfe, .clus, .resvs, .frames, .objs, .place, .host, .fab, .integ, .icnt, .sup, .mon, .out] ps) (hq : OnlyChanges ps q s) (monitor : Nat) (mv : Int) : RunsOnly ps q (execVoltageMonitorSample monitor mv s) := by
  unfold execVoltageMonitorSample
  with_reducible apply RunsOnly.done
  · exact hk.of rfl
  · with_reducible refine OnlyChanges.ite ?_ ?_
    · assumption
    · extract_lets +onlyGivenNames v1
      clear_value v1
      with_reducible refine OnlyChanges.ite ?_ ?_
      · with_reducible apply State.sensorFault_only
        · exact hk.of rfl
        · assumption
      · extract_lets +onlyGivenNames v2
        clear_value v2
        extract_lets +onlyGivenNames v3
        clear_value v3
        extract_lets +onlyGivenNames v4
        clear_value v4
        extract_lets +onlyGivenNames v5
        have hv5 : OnlyChanges ps q v5 := by
          unfold v5
          with_reducible apply State.setVolt_only
          · exact hk.of rfl
          · assumption
        clear_value v5
        extract_lets +onlyGivenNames v6
        have hv6 : OnlyChanges ps q v6 := by
          unfold v6
          with_reducible refine OnlyChanges.ite ?_ ?_
          · with_reducible apply State.raise_only
            · exact hk.of rfl
            · assumption
          · assumption
        clear_value v6
        with_reducible refine OnlyChanges.ite ?_ ?_
        · with_reducible apply State.controlledStop_only
          · exact hk.of rfl
          · assumption
        · assumption

theorem execVoltageMonitorTimeout_only {ps : List Part} {q s : State} (hk : Within [.reg, .host, .mon, .out] ps) (hq : OnlyChanges ps q s) (monitor : Nat) : RunsOnly ps q (execVoltageMonitorTimeout monitor s) := by
  unfold execVoltageMonitorTimeout
  with_reducible apply RunsOnly.done
  · exact hk.of rfl
  · with_reducible refine OnlyChanges.ite ?_ ?_
    · assumption
    · with_reducible apply State.raise_only
      · exact hk.of rfl
      · with_reducible apply State.sensorFault_only
        · exact hk.of rfl
        · with_reducible apply State.setVolt_only
          · exact hk.of rfl
          · assumption

theorem State.setProc_only {ps : List Part} {q s : State} (hk : Within [.mon] ps) (hq : OnlyChanges ps q s) (k : Nat) (r : Samples) : OnlyChanges ps q (State.setProc s k r) := by
  unfold State.setProc
  with_reducible apply OnlyChanges.upd_mon
  · exact hk
  · assumption

theorem execProcessMonitorSample_only {ps : List Part} {q s : State} (hk : Within [.reg, .host, .mon, .out] ps) (hq : OnlyChanges ps q s) (slot : Nat) (count : Nat) : RunsOnly ps q (execProcessMonitorSample slot count s) := by
  unfold execProcessMonitorSample
  with_reducible apply RunsOnly.done
  · exact hk.of rfl
  · with_reducible refine OnlyChanges.ite ?_ ?_
    · assumption
    · with_reducible refine OnlyChanges.ite ?_ ?_
      · with_reducible apply State.sensorFault_only
        · exact hk.of rfl
        · assumption
      · with_reducible apply State.setProc_only
        · exact hk.of rfl
        · assumption

theorem execProcessMonitorTimeout_only {ps : List Part} {q s : State} (hk : Within [.reg, .host, .mon, .out] ps) (hq : OnlyChanges ps q s) (slot : Nat) : RunsOnly ps q (execProcessMonitorTimeout slot s) := by
  unfold execProcessMonitorTimeout
  with_reducible apply RunsOnly.done
  · exact hk.of rfl
  · with_reducible refine OnlyChanges.ite ?_ ?_
    · assumption
    · with_reducible apply State.sensorFault_only
      · exact hk.of rfl
      · with_reducible apply State.setProc_only
        · exact hk.of rfl
        · assumption

theorem State.powerOff_only {ps : List Part} {q s : State} (hk : Within [.clk, .ts, .reg, .chans, .cqs, .accts, .gfe, .clus, .cnts, .resvs, .pslots, .scales, .mem, .frames, .objs, .place, .streams, .xfers, .link, .host, .fab, .integ, .icnt, .sup, .mon, .sec, .sb, .staged, .fences, .tests, .memWait] ps) (hq : OnlyChanges ps q s) :
    OnlyChanges ps q (State.powerOff s) := by
  intro p hp
  refine p.same_trans (hq p hp) ?_
  cases p <;> first | rfl | exact absurd (hk.has rfl) (by rw [hp]; decide)

theorem execRailsOff_only {ps : List Part} {q s : State} (hk : Within [.clk, .ts, .reg, .chans, .cqs, .accts, .gfe, .clus, .cnts, .resvs, .pslots, .scales, .mem, .frames, .objs, .place, .streams, .xfers, .link, .host, .fab, .integ, .icnt, .sup, .mon, .sec, .sb, .staged, .out, .fences, .tests, .memWait] ps) (hq : OnlyChanges ps q s) : RunsOnly ps q (execRailsOff s) := by
  unfold execRailsOff
  with_reducible apply RunsOnly.done
  · exact hk.of rfl
  · with_reducible refine OnlyChanges.ite ?_ ?_
    · assumption
    · with_reducible apply State.powerOff_only
      · exact hk.of rfl
      · with_reducible apply State.emit_only
        · exact hk.of rfl
        · assumption

theorem State.enterRecovery_only {ps : List Part} {q s : State} (hk : Within [.reg, .link, .host, .sec, .sb, .out] ps) (hq : OnlyChanges ps q s) (cause : Nat) (step : Nat) : OnlyChanges ps q (State.enterRecovery s cause step) := by
  unfold State.enterRecovery
  with_reducible apply State.tryTrain_only
  · exact hk.of rfl
  · with_reducible apply State.raise_only
    · exact hk.of rfl
    · with_reducible apply State.emit_only
      · exact hk.of rfl
      · with_reducible apply OnlyChanges.upd_link_sec_sb
        · exact hk.of rfl
        · assumption

theorem State.bootTrain_only {ps : List Part} {q s : State} (hk : Within [.reg, .place, .link, .host, .out] ps) (hq : OnlyChanges ps q s) (b : BootInputs) : OnlyChanges ps q (State.bootTrain s b) := by
  unfold State.bootTrain
  extract_lets +onlyGivenNames v1
  clear_value v1
  extract_lets +onlyGivenNames v2
  have hv2 : OnlyChanges ps q v2 := by
    unfold v2
    with_reducible refine OnlyChanges.foldl ?_ ?_
    · assumption
    · intro x3 x4 x5
      with_reducible refine OnlyChanges.ite ?_ ?_
      · with_reducible apply State.setTarget_only
        · exact hk.of rfl
        · assumption
      · assumption
  clear_value v2
  extract_lets +onlyGivenNames v6
  have hv6 : OnlyChanges ps q v6 := by
    unfold v6
    with_reducible refine OnlyChanges.foldl ?_ ?_
    · assumption
    · intro x7 x8 x9
      with_reducible apply State.setTarget_only
      · exact hk.of rfl
      · assumption
  clear_value v6
  extract_lets +onlyGivenNames v10
  clear_value v10
  extract_lets +onlyGivenNames v11
  clear_value v11
  extract_lets +onlyGivenNames v12
  have hv12 : OnlyChanges ps q v12 := by
    unfold v12
    with_reducible apply OnlyChanges.upd_place_link
    · exact hk.of rfl
    · assumption
  clear_value v12
  with_reducible refine OnlyChanges.ite ?_ ?_
  · assumption
  · with_reducible apply State.raise_only
    · exact hk.of rfl
    · assumption

theorem State.bootTrims_only {ps : List Part} {q s : State} (hk : Within [.pslots] ps) (hq : OnlyChanges ps q s) (b : BootInputs) (map : Nat) : OnlyChanges ps q (State.bootTrims s b map) := by
  unfold State.bootTrims
  with_reducible refine OnlyChanges.foldl ?_ ?_
  · assumption
  · intro x1 x2 x3
    with_reducible apply State.setPslot_only
    · exact hk
    · assumption

theorem State.bootSlots_only {ps : List Part} {q s : State} (hk : Within [.reg, .pslots, .frames, .host, .integ, .icnt, .out] ps) (hq : OnlyChanges ps q s) (b : BootInputs) (map : Nat) : OnlyChanges ps q (State.bootSlots s b map) := by
  unfold State.bootSlots
  extract_lets +onlyGivenNames v1
  clear_value v1
  extract_lets +onlyGivenNames v2
  have hv2 : OnlyChanges ps q v2 := by
    unfold v2
    with_reducible refine OnlyChanges.ite ?_ ?_
    · with_reducible apply State.raise_only
      · exact hk.of rfl
      · assumption
    · assumption
  clear_value v2
  extract_lets +onlyGivenNames v3
  clear_value v3
  extract_lets +onlyGivenNames v4
  clear_value v4
  extract_lets +onlyGivenNames v5
  have hv5 : OnlyChanges ps q v5 := by
    unfold v5
    with_reducible refine OnlyChanges.foldl ?_ ?_
    · assumption
    · intro x6 x7 x8
      with_reducible apply State.setSlotState_only
      · exact hk.of rfl
      · assumption
  clear_value v5
  extract_lets +onlyGivenNames v9
  have hv9 : OnlyChanges ps q v9 := by
    unfold v9
    with_reducible refine OnlyChanges.foldl ?_ ?_
    · assumption
    · intro x10 x11 x12
      with_reducible apply State.faultLog_only
      · exact hk.of rfl
      · with_reducible apply State.setSlotState_only
        · exact hk.of rfl
        · with_reducible apply OnlyChanges.upd_integ
          · exact hk.of rfl
          · assumption
          · exact fun _ => rfl
  clear_value v9
  extract_lets +onlyGivenNames v13
  have hv13 : OnlyChanges ps q v13 := by
    unfold v13
    with_reducible refine OnlyChanges.foldl ?_ ?_
    · assumption
    · intro x14 x15 x16
      with_reducible apply State.setPslot_only
      · exact hk.of rfl
      · assumption
  clear_value v13
  extract_lets +onlyGivenNames v17
  clear_value v17
  extract_lets +onlyGivenNames v18
  clear_value v18
  extract_lets +onlyGivenNames v19
  have hv19 : OnlyChanges ps q v19 := by
    unfold v19
    with_reducible refine OnlyChanges.foldl ?_ ?_
    · assumption
    · intro x20 x21 x22
      with_reducible apply State.setFrame_only
      · exact hk.of rfl
      · assumption
  clear_value v19
  extract_lets +onlyGivenNames v23
  clear_value v23
  extract_lets +onlyGivenNames v24
  clear_value v24
  extract_lets +onlyGivenNames v25
  have hv25 : OnlyChanges ps q v25 := by
    unfold v25
    with_reducible apply OnlyChanges.upd_icnt
    · exact hk.of rfl
    · assumption
  clear_value v25
  with_reducible apply State.regPut_only
  · exact hk.of rfl
  · with_reducible apply State.regPut_only
    · exact hk.of rfl
    · with_reducible apply State.fldPut_only
      · exact hk.of rfl
      · assumption

theorem State.bootPower_only {ps : List Part} {q s : State} (hk : Within [.reg, .sup, .mon] ps) (hq : OnlyChanges ps q s) (b : BootInputs) (i : CfgImage) : OnlyChanges ps q (State.bootPower s b i) := by
  unfold State.bootPower
  extract_lets +onlyGivenNames v1
  have hv1 : OnlyChanges ps q v1 := by
    unfold v1
    with_reducible apply State.fldPut_only
    · exact hk.of rfl
    · with_reducible apply State.fldPut_only
      · exact hk.of rfl
      · assumption
  clear_value v1
  extract_lets +onlyGivenNames v2
  clear_value v2
  extract_lets +onlyGivenNames v3
  clear_value v3
  with_reducible apply OnlyChanges.upd_sup_mon
  · exact hk.of rfl
  · assumption

theorem State.bootFab_only {ps : List Part} {q s : State} (hk : Within [.reg, .chans, .accts] ps) (hq : OnlyChanges ps q s) (e : FabEntry) : OnlyChanges ps q (State.bootFab s e) := by
  unfold State.bootFab
  extract_lets +onlyGivenNames v1
  clear_value v1
  extract_lets +onlyGivenNames v2
  have hv2 : OnlyChanges ps q v2 := by
    unfold v2
    with_reducible apply State.setChan_only
    · exact hk.of rfl
    · assumption
  clear_value v2
  with_reducible apply State.fldPut_only
  · exact hk.of rfl
  · with_reducible apply State.fldPut_only
    · exact hk.of rfl
    · with_reducible apply State.setAcct_only
      · exact hk.of rfl
      · assumption

theorem State.bootHost_only {ps : List Part} {q s : State} (hk : Within [.reg, .chans, .accts, .link, .fab, .sec, .sb, .out] ps) (hq : OnlyChanges ps q s) (i : CfgImage) : OnlyChanges ps q (State.bootHost s i) := by
  unfold State.bootHost
  extract_lets +onlyGivenNames v1
  have hv1 : OnlyChanges ps q v1 := by
    unfold v1
    with_reducible apply State.fldPut_only
    · exact hk.of rfl
    · with_reducible refine OnlyChanges.foldl ?_ ?_
      · assumption
      · intro x2 x3 x4
        with_reducible apply State.bootFab_only
        · exact hk.of rfl
        · assumption
  clear_value v1
  extract_lets +onlyGivenNames v5
  clear_value v5
  extract_lets +onlyGivenNames v6
  have hv6 : OnlyChanges ps q v6 := by
    unfold v6
    with_reducible apply OnlyChanges.upd_fab
    · exact hk.of rfl
    · assumption
  clear_value v6
  extract_lets +onlyGivenNames v7
  have hv7 : OnlyChanges ps q v7 := by
    unfold v7
    with_reducible refine OnlyChanges.foldl ?_ ?_
    · assumption
    · intro x8 x9 x10
      with_reducible refine OnlyChanges.ite ?_ ?_
      · with_reducible apply State.setPortState_only
        · exact hk.of rfl
        · assumption
      · assumption
  clear_value v7
  with_reducible apply State.tryTrain_only
  · exact hk.of rfl
  · with_reducible apply State.emit_only
    · exact hk.of rfl
    · with_reducible apply OnlyChanges.upd_link_sec_sb
      · exact hk.of rfl
      · assumption

theorem State.boot7_only {ps : List Part} {q s : State} (hk : Within [.reg, .chans, .accts, .pslots, .frames, .place, .link, .host, .fab, .integ, .icnt, .sup, .mon, .sec, .sb, .out] ps) (hq : OnlyChanges ps q s) (b : BootInputs) (i : CfgImage) : OnlyChanges ps q (State.boot7 s b i) := by
  unfold State.boot7
  extract_lets +onlyGivenNames v1
  have hv1 : OnlyChanges ps q v1 := by
    unfold v1
    with_reducible apply State.bootTrain_only
    · exact hk.of rfl
    · assumption
  clear_value v1
  extract_lets +onlyGivenNames v2
  have hv2 : OnlyChanges ps q v2 := by
    unfold v2
    with_reducible refine OnlyChanges.ite ?_ ?_
    · with_reducible apply State.raise_only
      · exact hk.of rfl
      · assumption
    · assumption
  clear_value v2
  with_reducible apply State.bootHost_only
  · exact hk.of rfl
  · with_reducible apply State.bootPower_only
    · exact hk.of rfl
    · with_reducible apply State.bootSlots_only
      · exact hk.of rfl
      · with_reducible apply State.bootTrims_only
        · exact hk.of rfl
        · assumption

theorem State.boot6_only {ps : List Part} {q s : State} (hk : Within [.reg, .chans, .accts, .pslots, .frames, .place, .link, .host, .fab, .integ, .icnt, .sup, .mon, .sec, .sb, .out] ps) (hq : OnlyChanges ps q s) (b : BootInputs) (i : CfgImage) : OnlyChanges ps q (State.boot6 s b i) := by
  unfold State.boot6
  split
  · with_reducible apply State.enterRecovery_only
    · exact hk.of rfl
    · assumption
  · with_reducible refine OnlyChanges.ite ?_ ?_
    · with_reducible apply State.boot7_only
      · exact hk
      · with_reducible apply OnlyChanges.upd_sec
        · exact hk.of rfl
        · assumption
    · with_reducible apply State.enterRecovery_only
      · exact hk.of rfl
      · assumption

theorem State.boot5_only {ps : List Part} {q s : State} (hk : Within [.reg, .host, .sec, .out] ps) (hq : OnlyChanges ps q s) (b : BootInputs) : OnlyChanges ps q (State.boot5 s b) := by
  unfold State.boot5
  extract_lets +onlyGivenNames v1
  clear_value v1
  extract_lets +onlyGivenNames v2
  have hv2 : OnlyChanges ps q v2 := by
    unfold v2
    with_reducible apply OnlyChanges.upd_sec
    · exact hk.of rfl
    · assumption
  clear_value v2
  with_reducible refine OnlyChanges.ite ?_ ?_
  · assumption
  · with_reducible apply State.raise_only
    · exact hk.of rfl
    · assumption

theorem State.boot4_only {ps : List Part} {q s : State} (hk : Within [.reg, .chans, .accts, .pslots, .frames, .place, .link, .host, .fab, .integ, .icnt, .sup, .mon, .sec, .sb, .out] ps) (hq : OnlyChanges ps q s) (b : BootInputs) : OnlyChanges ps q (State.boot4 s b) := by
  unfold State.boot4
  split
  · with_reducible apply State.enterRecovery_only
    · exact hk.of rfl
    · assumption
  · with_reducible apply State.boot6_only
    · exact hk
    · with_reducible apply State.boot5_only
      · exact hk.of rfl
      · with_reducible apply OnlyChanges.upd_sec
        · exact hk.of rfl
        · assumption

theorem State.powered_only {ps : List Part} {q s : State} (hk : Within [.clk, .ts, .reg, .chans, .cqs, .accts, .gfe, .clus, .cnts, .resvs, .pslots, .scales, .mem, .frames, .objs, .place, .streams, .xfers, .link, .host, .fab, .integ, .icnt, .sup, .mon, .sec, .sb, .staged, .fences, .tests, .memWait] ps) (hq : OnlyChanges ps q s) (b : BootInputs) : OnlyChanges ps q (State.powered s b) := by
  unfold State.powered
  extract_lets +onlyGivenNames v1
  have hv1 : OnlyChanges ps q v1 := by
    unfold v1
    with_reducible apply State.powerOff_only
    · exact hk
    · assumption
  clear_value v1
  with_reducible apply OnlyChanges.upd_integ_sec_sb
  · exact hk.of rfl
  · assumption
  · exact fun _ => rfl

theorem execPowerOn_only {ps : List Part} {q s : State} (hk : Within [.clk, .ts, .reg, .chans, .cqs, .accts, .gfe, .clus, .cnts, .resvs, .pslots, .scales, .mem, .frames, .objs, .place, .streams, .xfers, .link, .host, .fab, .integ, .icnt, .sup, .mon, .sec, .sb, .staged, .out, .fences, .tests, .memWait] ps) (hq : OnlyChanges ps q s) (b : BootInputs) : RunsOnly ps q (execPowerOn b s) := by
  unfold execPowerOn
  with_reducible apply RunsOnly.done
  · exact hk.of rfl
  · with_reducible refine OnlyChanges.ite ?_ ?_
    · assumption
    · with_reducible refine OnlyChanges.ite ?_ ?_
      · with_reducible apply State.powerOff_only
        · exact hk.of rfl
        · assumption
      · with_reducible refine OnlyChanges.ite ?_ ?_
        · with_reducible apply State.enterRecovery_only
          · exact hk.of rfl
          · with_reducible apply State.powered_only
            · exact hk.of rfl
            · assumption
        · with_reducible apply State.boot4_only
          · exact hk.of rfl
          · with_reducible apply State.powered_only
            · exact hk.of rfl
            · assumption

theorem State.secIgnored_only {ps : List Part} {q s : State} (hk : Within [.reg, .host, .out] ps) (hq : OnlyChanges ps q s) : OnlyChanges ps q (State.secIgnored s) := by
  unfold State.secIgnored
  with_reducible apply State.ignored_only
  · exact hk
  · assumption

theorem State.setLoad_only {ps : List Part} {q s : State} (hk : Within [.sec] ps) (hq : OnlyChanges ps q s) (k : Nat) (n : Nat) (c : Nat) (ws : List W32) : OnlyChanges ps q (State.setLoad s k n c ws) := by
  unfold State.setLoad
  with_reducible apply OnlyChanges.upd_sec
  · exact hk
  · assumption

theorem execSecRecBegin_only {ps : List Part} {q s : State} (hk : Within [.reg, .host, .sec, .out] ps) (hq : OnlyChanges ps q s) (_a : Acc) (config : Bool) : RunsOnly ps q (execSecRecBegin _a config s) := by
  unfold execSecRecBegin
  with_reducible apply RunsOnly.done
  · exact hk.of rfl
  · with_reducible refine OnlyChanges.ite ?_ ?_
    · assumption
    · with_reducible refine OnlyChanges.ite ?_ ?_
      · with_reducible apply State.secIgnored_only
        · exact hk.of rfl
        · assumption
      · with_reducible apply State.setLoad_only
        · exact hk.of rfl
        · assumption

theorem execSecRecData_only {ps : List Part} {q s : State} (hk : Within [.reg, .host, .sec, .out] ps) (hq : OnlyChanges ps q s) (_a : Acc) (_word : BitVec 32) : RunsOnly ps q (execSecRecData _a _word s) := by
  unfold execSecRecData
  with_reducible apply RunsOnly.done
  · exact hk.of rfl
  · with_reducible refine OnlyChanges.ite ?_ ?_
    · assumption
    · with_reducible refine OnlyChanges.ite ?_ ?_
      · with_reducible apply State.secIgnored_only
        · exact hk.of rfl
        · assumption
      · with_reducible apply State.setLoad_only
        · exact hk.of rfl
        · assumption

theorem State.recovered_only {ps : List Part} {q s : State} (hk : Within [.reg, .chans, .cqs, .accts, .gfe, .pslots, .frames, .objs, .place, .link, .host, .fab, .integ, .icnt, .sup, .mon, .sec, .sb, .out] ps) (hq : OnlyChanges ps q s) : OnlyChanges ps q (State.recovered s) := by
  unfold State.recovered
  extract_lets +onlyGivenNames v1
  clear_value v1
  extract_lets +onlyGivenNames v2
  have hv2 : OnlyChanges ps q v2 := by
    unfold v2
    with_reducible apply OnlyChanges.upd_sec
    · exact hk.of rfl
    · assumption
  clear_value v2
  with_reducible refine OnlyChanges.ite ?_ ?_
  · with_reducible apply State.raiseEvent_only
    · exact hk.of rfl
    · with_reducible apply State.resumeUnits_only
      · exact hk.of rfl
      · with_reducible apply OnlyChanges.upd_sec
        · exact hk.of rfl
        · assumption
  · split
    · split
      · with_reducible apply State.boot6_only
        · exact hk.of rfl
        · assumption
      · with_reducible apply State.boot4_only
        · exact hk.of rfl
        · assumption
    · with_reducible apply State.boot4_only
      · exact hk.of rfl
      · assumption
    · assumption

theorem State.install_only {ps : List Part} {q s : State} (hk : Within [.sec] ps) (hq : OnlyChanges ps q s) (fw : Option FwImage) : OnlyChanges ps q (State.install s fw).2 := by
  unfold State.install
  extract_lets +onlyGivenNames v1
  clear_value v1
  extract_lets +onlyGivenNames v2
  clear_value v2
  split
  · split
    · dsimp only
      with_reducible apply OnlyChanges.upd_sec
      · exact hk
      · assumption
    · assumption
  · split
    · assumption
    · split
      · assumption
      · split
        · dsimp only
          with_reducible apply OnlyChanges.upd_sec
          · exact hk
          · assumption
        · assumption

theorem execSecRecEnd_only {ps : List Part} {q s : State} (hk : Within [.reg, .chans, .cqs, .accts, .gfe, .pslots, .frames, .objs, .place, .link, .host, .fab, .integ, .icnt, .sup, .mon, .sec, .sb, .out] ps) (hq : OnlyChanges ps q s) (_a : Acc) (fw : Option FwImage) : RunsOnly ps q (execSecRecEnd _a fw s) := by
  unfold execSecRecEnd
  with_reducible apply RunsOnly.done
  · exact hk.of rfl
  · with_reducible refine OnlyChanges.ite ?_ ?_
    · assumption
    · with_reducible refine OnlyChanges.ite ?_ ?_
      · with_reducible apply State.secIgnored_only
        · exact hk.of rfl
        · assumption
      · extract_lets +onlyGivenNames v1
        have hv1 : OnlyChanges ps q v1.2 := by
          unfold v1
          with_reducible apply State.install_only
          · exact hk.of rfl
          · assumption
        clear_value v1
        extract_lets +onlyGivenNames v2
        have hv2 : OnlyChanges ps q v2 := by
          unfold v2
          with_reducible apply State.setLoad_only
          · exact hk.of rfl
          · assumption
        clear_value v2
        with_reducible refine OnlyChanges.ite ?_ ?_
        · with_reducible apply State.recovered_only
          · exact hk
          · assumption
        · assumption

theorem State.startUpdate_only {ps : List Part} {q s : State} (hk : Within [.reg, .frames, .host, .integ, .icnt, .sec, .out] ps) (hq : OnlyChanges ps q s) (op : Nat) : OnlyChanges ps q (State.startUpdate s op) := by
  unfold State.startUpdate
  with_reducible refine OnlyChanges.ite ?_ ?_
  · with_reducible apply State.secIgnored_only
    · exact hk.of rfl
    · assumption
  · extract_lets +onlyGivenNames v1
    clear_value v1
    extract_lets +onlyGivenNames v2
    have hv2 : OnlyChanges ps q v2 := by
      unfold v2
      with_reducible apply OnlyChanges.upd_sec
      · exact hk.of rfl
      · assumption
    clear_value v2
    split
    · with_reducible apply State.endUpdate_only
      · exact hk
      · assumption
    · extract_lets +onlyGivenNames v3
      have hv3 : OnlyChanges ps q v3 := by
        unfold v3
        with_reducible refine OnlyChanges.foldl ?_ ?_
        · assumption
        · intro x4 x5 x6
          with_reducible apply State.takeShadow_only
          · exact hk.of rfl
          · assumption
      clear_value v3
      with_reducible refine OnlyChanges.ite ?_ ?_
      · with_reducible apply State.endUpdate_only
        · exact hk
        · assumption
      · assumption

theorem execSecUpdFirmware_only {ps : List Part} {q s : State} (hk : Within [.reg, .frames, .host, .integ, .icnt, .sec, .out] ps) (hq : OnlyChanges ps q s) (_a : Acc) : RunsOnly ps q (execSecUpdFirmware _a s) := by
  unfold execSecUpdFirmware
  with_reducible apply RunsOnly.done
  · exact hk.of rfl
  · with_reducible refine OnlyChanges.ite ?_ ?_
    · assumption
    · with_reducible apply State.startUpdate_only
      · exact hk
      · assumption

theorem execSecUpdConfig_only {ps : List Part} {q s : State} (hk : Within [.reg, .frames, .host, .integ, .icnt, .sec, .out] ps) (hq : OnlyChanges ps q s) (_a : Acc) : RunsOnly ps q (execSecUpdConfig _a s) := by
  unfold execSecUpdConfig
  with_reducible apply RunsOnly.done
  · exact hk.of rfl
  · with_reducible refine OnlyChanges.ite ?_ ?_
    · assumption
    · with_reducible apply State.startUpdate_only
      · exact hk
      · assumption

theorem State.losePartition_only {ps : List Part} {q s : State} (hk : Within [.sec] ps) (hq : OnlyChanges ps q s) : OnlyChanges ps q (State.losePartition s) := by
  unfold State.losePartition
  with_reducible refine OnlyChanges.ite ?_ ?_
  · with_reducible apply OnlyChanges.upd_sec
    · exact hk
    · assumption
  · with_reducible apply OnlyChanges.upd_sec
    · exact hk
    · assumption

theorem State.judgeUpdate_only {ps : List Part} {q s : State} (hk : Within [.reg, .frames, .host, .integ, .icnt, .sec, .out] ps) (hq : OnlyChanges ps q s) (r : UpdateResult) : OnlyChanges ps q (State.judgeUpdate s r) := by
  unfold State.judgeUpdate
  split
  · with_reducible refine OnlyChanges.ite ?_ ?_
    · with_reducible apply State.endUpdate_only
      · exact hk
      · assumption
    · with_reducible refine OnlyChanges.ite ?_ ?_
      · with_reducible apply State.endUpdate_only
        · exact hk
        · with_reducible apply OnlyChanges.upd_sec
          · exact hk.of rfl
          · assumption
      · with_reducible apply State.endUpdate_only
        · exact hk
        · assumption
  · with_reducible refine OnlyChanges.ite ?_ ?_
    · with_reducible apply State.endUpdate_only
      · exact hk
      · with_reducible apply OnlyChanges.upd_sec
        · exact hk.of rfl
        · assumption
    · with_reducible apply State.endUpdate_only
      · exact hk
      · assumption
  · with_reducible apply State.endUpdate_only
    · exact hk
    · assumption
  · with_reducible apply State.endUpdate_only
    · exact hk
    · assumption
  · with_reducible apply State.endUpdate_only
    · exact hk
    · assumption
  · with_reducible apply State.endUpdate_only
    · exact hk
    · with_reducible apply State.losePartition_only
      · exact hk.of rfl
      · assumption
  · with_reducible apply State.endUpdate_only
    · exact hk
    · assumption

theorem execUpdateComplete_only {ps : List Part} {q s : State} (hk : Within [.reg, .frames, .host, .integ, .icnt, .sec, .out] ps) (hq : OnlyChanges ps q s) (r : UpdateResult) : RunsOnly ps q (execUpdateComplete r s) := by
  unfold execUpdateComplete
  with_reducible apply RunsOnly.done
  · exact hk.of rfl
  · with_reducible refine OnlyChanges.ite ?_ ?_
    · assumption
    · with_reducible apply State.judgeUpdate_only
      · exact hk
      · assumption

theorem State.warmStart_only {ps : List Part} {q s : State} (hk : Within [.sec] ps) (hq : OnlyChanges ps q s) : OnlyChanges ps q (State.warmStart s) := by
  unfold State.warmStart
  with_reducible refine OnlyChanges.ite ?_ ?_
  · assumption
  · with_reducible apply OnlyChanges.upd_sec
    · exact hk
    · assumption

theorem execSecReset_only {ps : List Part} {q s : State} (hk : Within [.reg, .host, .sec, .out] ps) (hq : OnlyChanges ps q s) (_a : Acc) (key : BitVec 8) (warm : Bool) : RunsOnly ps q (execSecReset _a key warm s) := by
  unfold execSecReset
  with_reducible apply RunsOnly.done
  · exact hk.of rfl
  · with_reducible refine OnlyChanges.ite ?_ ?_
    · assumption
    · with_reducible refine OnlyChanges.ite ?_ ?_
      · with_reducible apply State.warmStart_only
        · exact hk.of rfl
        · assumption
      · with_reducible apply State.secIgnored_only
        · exact hk.of rfl
        · assumption

theorem execWatchdogExpiry_only {ps : List Part} {q s : State} (hk : Within [.reg, .host, .sec, .out] ps) (hq : OnlyChanges ps q s) : RunsOnly ps q (execWatchdogExpiry s) := by
  unfold execWatchdogExpiry
  with_reducible apply RunsOnly.done
  · exact hk.of rfl
  · with_reducible refine OnlyChanges.ite ?_ ?_
    · assumption
    · with_reducible apply State.warmStart_only
      · exact hk.of rfl
      · with_reducible apply State.raise_only
        · exact hk.of rfl
        · assumption

theorem execWarmResetEnd_only {ps : List Part} {q s : State} (hk : Within [.reg, .chans, .cqs, .accts, .gfe, .frames, .objs, .place, .link, .host, .fab, .integ, .icnt, .sec, .sb, .out] ps) (hq : OnlyChanges ps q s) (fw : Option FwImage) : RunsOnly ps q (execWarmResetEnd fw s) := by
  unfold execWarmResetEnd
  with_reducible apply RunsOnly.done
  · exact hk.of rfl
  · with_reducible refine OnlyChanges.ite ?_ ?_
    · assumption
    · split
      · with_reducible apply State.enterRecovery_only
        · exact hk.of rfl
        · assumption
      · with_reducible refine OnlyChanges.ite ?_ ?_
        · with_reducible apply State.raiseEvent_only
          · exact hk.of rfl
          · with_reducible apply State.resumeUnits_only
            · exact hk.of rfl
            · with_reducible apply OnlyChanges.upd_sec
              · exact hk.of rfl
              · assumption
        · with_reducible apply State.enterRecovery_only
          · exact hk.of rfl
          · assumption

end Sys2Proof.Machine
end

