-- ==== Sys2Proof/Laws/FrameRegs.lean ====
section
/-! SUPPORT. What may change (`OnlyChanges`), for channels, issue, time, register accesses, the sideband and the tick. -/

namespace Sys2Proof.Machine
open Sys2Proof

theorem State.resetChanRegs_only {ps : List Part} {q s : State} (hk : Within [.reg] ps) (hq : OnlyChanges ps q s) (c : Nat) : OnlyChanges ps q (State.resetChanRegs s c) := by
  unfold State.resetChanRegs
  extract_lets +onlyGivenNames v1
  clear_value v1
  extract_lets +onlyGivenNames v2
  have hv2 : OnlyChanges ps q v2 := by
    unfold v2
    with_reducible refine OnlyChanges.foldl ?_ ?_
    · assumption
    · intro x3 x4 x5
      with_reducible apply State.regPut_only
      · exact hk
      · assumption
  clear_value v2
  with_reducible apply OnlyChanges.upd_reg
  · exact hk
  · assumption

theorem State.chanOp_only {ps : List Part} {q s : State} (hk : Within [.reg, .host, .out] ps) (hq : OnlyChanges ps q s) (a : Acc) (gen : BitVec 20) (f : State → Nat → Option State)
    (hf : ∀ t c, OnlyChanges ps q t → OnlyO ps q (f t c)) : OnlyChanges ps q (State.chanOp s a gen f) := by
  unfold State.chanOp
  refine OnlyChanges.ite (State.chanIgnored_only (hk.of rfl) hq _) ?_
  split
  · rename_i h
    exact (hf _ _ hq).use h
  · exact State.chanIgnored_only (hk.of rfl) hq _

theorem State.keepWindow_only {ps : List Part} {q s : State} (hk : Within [.sup] ps) (hq : OnlyChanges ps q s) (c : Nat) : OnlyChanges ps q (State.keepWindow s c) := by
  unfold State.keepWindow
  with_reducible apply OnlyChanges.upd_sup
  · exact hk
  · assumption

theorem execCreate_only {ps : List Part} {q s : State} (hk : Within [.reg, .chans, .cqs, .accts, .host, .sup, .out] ps) (hq : OnlyChanges ps q s) (a : Acc) (_gen : BitVec 20) : RunsOnly ps q (execCreate a _gen s) := by
  unfold execCreate
  with_reducible apply RunsOnly.done
  · exact hk.of rfl
  · with_reducible refine OnlyChanges.ite ?_ ?_
    · assumption
    · extract_lets +onlyGivenNames v1
      clear_value v1
      extract_lets +onlyGivenNames v2
      clear_value v2
      with_reducible refine OnlyChanges.ite ?_ ?_
      · with_reducible apply State.chanIgnored_only
        · exact hk.of rfl
        · assumption
      · extract_lets +onlyGivenNames v3
        have hv3 : OnlyChanges ps q v3 := by
          unfold v3
          with_reducible apply State.resetChanRegs_only
          · exact hk.of rfl
          · assumption
        clear_value v3
        extract_lets +onlyGivenNames v4
        clear_value v4
        extract_lets +onlyGivenNames v5
        have hv5 : OnlyChanges ps q v5 := by
          unfold v5
          with_reducible apply State.setAcct_only
          · exact hk.of rfl
          · with_reducible apply State.setCq_only
            · exact hk.of rfl
            · with_reducible apply State.keepWindow_only
              · exact hk.of rfl
              · assumption
        clear_value v5
        with_reducible apply State.setChan_only
        · exact hk.of rfl
        · assumption

theorem execActivate_only {ps : List Part} {q s : State} (hk : Within [.reg, .chans, .host, .out] ps) (hq : OnlyChanges ps q s) (a : Acc) (gen : BitVec 20) : RunsOnly ps q (execActivate a gen s) := by
  unfold execActivate
  with_reducible apply RunsOnly.done
  · exact hk.of rfl
  · with_reducible refine OnlyChanges.ite ?_ ?_
    · assumption
    · with_reducible apply State.chanOp_only
      · exact hk.of rfl
      · assumption
      · intro x1 x2 x3
        extract_lets +onlyGivenNames v4
        clear_value v4
        split
        · with_reducible apply OnlyO.some
          with_reducible apply State.pumpRing_only
          · exact hk.of rfl
          · with_reducible apply State.setChan_only
            · exact hk.of rfl
            · assumption
        · with_reducible exact OnlyO.none

theorem execPause_only {ps : List Part} {q s : State} (hk : Within [.reg, .chans, .host, .out] ps) (hq : OnlyChanges ps q s) (a : Acc) (gen : BitVec 20) : RunsOnly ps q (execPause a gen s) := by
  unfold execPause
  with_reducible apply RunsOnly.done
  · exact hk.of rfl
  · with_reducible refine OnlyChanges.ite ?_ ?_
    · assumption
    · with_reducible apply State.chanOp_only
      · exact hk.of rfl
      · assumption
      · intro x1 x2 x3
        extract_lets +onlyGivenNames v4
        clear_value v4
        split
        · with_reducible apply OnlyO.some
          with_reducible apply State.dropReads_only
          · exact hk.of rfl
          · with_reducible apply State.setChan_only
            · exact hk.of rfl
            · assumption
        · with_reducible exact OnlyO.none

theorem State.resumeChan_only {ps : List Part} {q s : State} (hk : Within [.reg, .chans, .cqs, .gfe, .host, .out] ps) (hq : OnlyChanges ps q s) (c : Nat) (reattach : Bool) : OnlyChanges ps q (State.resumeChan s c reattach) := by
  unfold State.resumeChan
  extract_lets +onlyGivenNames v1
  clear_value v1
  extract_lets +onlyGivenNames v2
  clear_value v2
  extract_lets +onlyGivenNames v3
  have hv3 : OnlyChanges ps q v3 := by
    unfold v3
    with_reducible apply State.setChan_only
    · exact hk.of rfl
    · assumption
  clear_value v3
  extract_lets +onlyGivenNames v4
  have hv4 : OnlyChanges ps q v4 := by
    unfold v4
    with_reducible refine OnlyChanges.ite ?_ ?_
    · with_reducible apply State.rewriteStored_only
      · exact hk.of rfl
      · assumption
    · with_reducible apply State.release_only
      · exact hk.of rfl
      · assumption
  clear_value v4
  with_reducible apply State.grantCtxs_only
  · exact hk.of rfl
  · with_reducible apply State.pumpRing_only
    · exact hk.of rfl
    · assumption

theorem execResume_only {ps : List Part} {q s : State} (hk : Within [.reg, .chans, .cqs, .gfe, .host, .out] ps) (hq : OnlyChanges ps q s) (a : Acc) (gen : BitVec 20) : RunsOnly ps q (execResume a gen s) := by
  unfold execResume
  with_reducible apply RunsOnly.done
  · exact hk.of rfl
  · with_reducible refine OnlyChanges.ite ?_ ?_
    · assumption
    · with_reducible apply State.chanOp_only
      · exact hk.of rfl
      · assumption
      · intro x1 x2 x3
        split
        · split
          · with_reducible apply OnlyO.some
            with_reducible apply State.resumeChan_only
            · exact hk.of rfl
            · assumption
          · with_reducible exact OnlyO.none
        · with_reducible exact OnlyO.none

theorem execDestroy_only {ps : List Part} {q s : State} (hk : Within [.reg, .chans, .cqs, .gfe, .host, .out] ps) (hq : OnlyChanges ps q s) (a : Acc) (gen : BitVec 20) : RunsOnly ps q (execDestroy a gen s) := by
  unfold execDestroy
  with_reducible apply RunsOnly.done
  · exact hk.of rfl
  · with_reducible refine OnlyChanges.ite ?_ ?_
    · assumption
    · with_reducible apply State.chanOp_only
      · exact hk.of rfl
      · assumption
      · intro x1 x2 x3
        extract_lets +onlyGivenNames v4
        clear_value v4
        extract_lets +onlyGivenNames v5
        have hv5 : OnlyChanges ps q v5 := by
          unfold v5
          with_reducible apply State.dropReads_only
          · exact hk.of rfl
          · with_reducible apply State.setChan_only
            · exact hk.of rfl
            · assumption
        clear_value v5
        extract_lets +onlyGivenNames v6
        split
        · with_reducible apply OnlyO.some
          with_reducible apply State.setChan_only
          · exact hk.of rfl
          · assumption
        · with_reducible apply OnlyO.some
          unfold v6
          extract_lets +onlyGivenNames v7
          have hv7 : OnlyChanges ps q v7 := by
            unfold v7
            with_reducible refine OnlyChanges.ite ?_ ?_
            · with_reducible apply State.rewriteStored_only
              · exact hk.of rfl
              · assumption
            · assumption
          clear_value v7
          with_reducible apply State.drainDone_only
          · exact hk.of rfl
          · assumption
        · with_reducible apply OnlyO.some
          unfold v6
          extract_lets +onlyGivenNames v8
          have hv8 : OnlyChanges ps q v8 := by
            unfold v8
            with_reducible refine OnlyChanges.ite ?_ ?_
            · with_reducible apply State.rewriteStored_only
              · exact hk.of rfl
              · assumption
            · assumption
          clear_value v8
          with_reducible apply State.drainDone_only
          · exact hk.of rfl
          · assumption
        · with_reducible exact OnlyO.none

theorem execReattach_only {ps : List Part} {q s : State} (hk : Within [.reg, .chans, .host, .out] ps) (hq : OnlyChanges ps q s) (a : Acc) (gen : BitVec 20) : RunsOnly ps q (execReattach a gen s) := by
  unfold execReattach
  with_reducible apply RunsOnly.done
  · exact hk.of rfl
  · with_reducible refine OnlyChanges.ite ?_ ?_
    · assumption
    · with_reducible apply State.chanOp_only
      · exact hk.of rfl
      · assumption
      · intro x1 x2 x3
        extract_lets +onlyGivenNames v4
        clear_value v4
        split
        · with_reducible apply OnlyO.some
          with_reducible apply State.setChan_only
          · exact hk.of rfl
          · assumption
        · with_reducible exact OnlyO.none

theorem execDoorbell_only {ps : List Part} {q s : State} (hk : Within [.reg, .chans, .cqs, .gfe, .host, .out] ps) (hq : OnlyChanges ps q s) (chan : Nat) (tail : BitVec 32) : RunsOnly ps q (execDoorbell chan tail s) := by
  unfold execDoorbell
  with_reducible apply RunsOnly.done
  · exact hk.of rfl
  · extract_lets +onlyGivenNames v1
    clear_value v1
    with_reducible refine OnlyChanges.ite ?_ ?_
    · assumption
    · extract_lets +onlyGivenNames v2
      clear_value v2
      extract_lets +onlyGivenNames v3
      have hv3 : OnlyChanges ps q v3 := by
        unfold v3
        with_reducible refine OnlyChanges.ite ?_ ?_
        · with_reducible apply State.raise_only
          · exact hk.of rfl
          · with_reducible apply State.setChan_only
            · exact hk.of rfl
            · assumption
        · with_reducible apply State.setChan_only
          · exact hk.of rfl
          · assumption
      clear_value v3
      with_reducible refine OnlyChanges.ite ?_ ?_
      · with_reducible apply State.resumeChan_only
        · exact hk.of rfl
        · assumption
      · with_reducible apply State.pumpRing_only
        · exact hk.of rfl
        · assumption

theorem State.acceptRing_only {ps : List Part} {q s : State} (hk : Within [.reg, .chans, .cqs, .accts, .gfe, .host, .fab, .out] ps) (hq : OnlyChanges ps q s) (c : Nat) (slot : List Byte) (ext : List Byte) : OnlyChanges ps q (State.acceptRing s c slot ext) := by
  unfold State.acceptRing
  extract_lets +onlyGivenNames v1
  clear_value v1
  extract_lets +onlyGivenNames v2
  have hv2 : OnlyChanges ps q v2 := by
    unfold v2
    with_reducible apply State.extReads_only
    · exact hk.of rfl
    · with_reducible apply State.dropReads_only
      · exact hk.of rfl
      · with_reducible apply State.setChan_only
        · exact hk.of rfl
        · assumption
  clear_value v2
  with_reducible apply State.pumpRing_only
  · exact hk.of rfl
  · with_reducible apply State.acceptSlot_only
    · exact hk
    · assumption

theorem execRingReadReturn_only {ps : List Part} {q s : State} (hk : Within [.reg, .chans, .cqs, .accts, .gfe, .host, .fab, .out, .memWait] ps) (hq : OnlyChanges ps q s) (chan : Nat) (slot : List Byte) (ext : List Byte) : RunsOnly ps q (execRingReadReturn chan slot ext s) := by
  unfold execRingReadReturn
  with_reducible apply RunsOnly.done
  · exact hk.of rfl
  · with_reducible refine OnlyChanges.ite ?_ ?_
    · assumption
    · extract_lets +onlyGivenNames v1
      clear_value v1
      split
      · assumption
      · extract_lets +onlyGivenNames v2
        clear_value v2
        extract_lets +onlyGivenNames v3
        have hv3 : OnlyChanges ps q v3 := by
          unfold v3
          with_reducible apply OnlyChanges.upd_host
          · exact hk.of rfl
          · assumption
          · exact hk.no rfl
        clear_value v3
        extract_lets +onlyGivenNames v4
        clear_value v4
        extract_lets +onlyGivenNames v5
        clear_value v5
        with_reducible refine OnlyChanges.ite ?_ ?_
        · assumption
        · with_reducible refine OnlyChanges.ite ?_ ?_
          · with_reducible apply State.dropReads_only
            · exact hk.of rfl
            · with_reducible apply State.setChan_only
              · exact hk.of rfl
              · assumption
          · split
            · with_reducible refine OnlyChanges.ite ?_ ?_
              · with_reducible apply State.acceptRing_only
                · exact hk.of rfl
                · assumption
              · with_reducible apply State.setChan_only
                · exact hk.of rfl
                · assumption
            · with_reducible refine OnlyChanges.ite ?_ ?_
              · with_reducible apply State.acceptRing_only
                · exact hk.of rfl
                · assumption
              · with_reducible apply State.setChan_only
                · exact hk.of rfl
                · assumption

theorem execRingRereadIssue_only {ps : List Part} {q s : State} (hk : Within [.reg, .chans, .host, .out] ps) (hq : OnlyChanges ps q s) (chan : Nat) : RunsOnly ps q (execRingRereadIssue chan s) := by
  unfold execRingRereadIssue
  with_reducible apply RunsOnly.done
  · exact hk.of rfl
  · extract_lets +onlyGivenNames v1
    clear_value v1
    split
    · assumption
    · with_reducible refine OnlyChanges.ite ?_ ?_
      · with_reducible apply State.issueRing_only
        · exact hk.of rfl
        · with_reducible apply State.setChan_only
          · exact hk.of rfl
          · assumption
      · assumption

theorem execDoorbellStale_only {ps : List Part} {q s : State} (hk : Within [.reg, .chans, .cqs, .gfe, .host, .out] ps) (hq : OnlyChanges ps q s) (chan : Nat) : RunsOnly ps q (execDoorbellStale chan s) := by
  unfold execDoorbellStale
  with_reducible apply RunsOnly.done
  · exact hk.of rfl
  · extract_lets +onlyGivenNames v1
    clear_value v1
    split
    · assumption
    · with_reducible refine OnlyChanges.ite ?_ ?_
      · extract_lets +onlyGivenNames v2
        have hv2 : OnlyChanges ps q v2 := by
          unfold v2
          with_reducible apply State.dropReads_only
          · exact hk.of rfl
          · with_reducible apply State.setChan_only
            · exact hk.of rfl
            · assumption
        clear_value v2
        extract_lets +onlyGivenNames v3
        clear_value v3
        extract_lets +onlyGivenNames v4
        have hv4 : OnlyChanges ps q v4 := by
          unfold v4
          with_reducible apply State.raise_only
          · exact hk.of rfl
          · with_reducible apply State.hostRecord_only
            · exact hk.of rfl
            · assumption
        clear_value v4
        with_reducible refine OnlyChanges.ite ?_ ?_
        · with_reducible apply State.resumeChan_only
          · exact hk.of rfl
          · assumption
        · assumption
      · assumption

theorem execCqHead_only {ps : List Part} {q s : State} (hk : Within [.reg, .chans, .cqs, .gfe, .host, .out] ps) (hq : OnlyChanges ps q s) (chan : Nat) (count : BitVec 32) : RunsOnly ps q (execCqHead chan count s) := by
  unfold execCqHead
  with_reducible apply RunsOnly.done
  · exact hk.of rfl
  · extract_lets +onlyGivenNames v1
    clear_value v1
    with_reducible refine OnlyChanges.ite ?_ ?_
    · assumption
    · extract_lets +onlyGivenNames v2
      clear_value v2
      with_reducible refine OnlyChanges.ite ?_ ?_
      · with_reducible apply State.chanIgnored_only
        · exact hk.of rfl
        · assumption
      · extract_lets +onlyGivenNames v3
        have hv3 : OnlyChanges ps q v3 := by
          unfold v3
          with_reducible apply State.release_only
          · exact hk.of rfl
          · with_reducible apply State.setCq_only
            · exact hk.of rfl
            · assumption
        clear_value v3
        with_reducible apply State.pumpRing_only
        · exact hk.of rfl
        · with_reducible apply State.drainDone_only
          · exact hk.of rfl
          · assumption

theorem State.runGfe_only {ps : List Part} {q s : State} (hk : Within [.reg, .chans, .cqs, .accts, .gfe, .clus, .resvs, .pslots, .mem, .frames, .objs, .place, .streams, .xfers, .host, .fab, .integ, .icnt, .sup, .out, .fences, .tests] ps) (hq : OnlyChanges ps q s) (op : Nat) (d : Cmd) : OnlyChanges ps q (State.runGfe op s d) := by
  unfold State.runGfe
  split
  · with_reducible apply State.runNop_only
    · exact hk.of rfl
    · assumption
  · with_reducible apply State.runTimestamp_only
    · exact hk.of rfl
    · assumption
  · with_reducible apply State.runTestOnDemand_only
    · exact hk.of rfl
    · assumption
  · with_reducible apply State.runFenceSignal_only
    · exact hk.of rfl
    · assumption
  · with_reducible apply State.runFenceWait_only
    · exact hk.of rfl
    · assumption
  · with_reducible apply State.runHostFence_only
    · exact hk.of rfl
    · assumption
  · with_reducible apply State.runLaunchList_only
    · exact hk.of rfl
    · assumption
  · with_reducible apply State.runPatchList_only
    · exact hk.of rfl
    · assumption
  · with_reducible apply State.runObjCreate_only
    · exact hk.of rfl
    · assumption
  · with_reducible apply State.runObjFree_only
    · exact hk.of rfl
    · assumption
  · with_reducible apply State.runMove_only
    · exact hk.of rfl
    · assumption
  · with_reducible apply State.runClone_only
    · exact hk.of rfl
    · assumption
  · with_reducible apply State.runScaleSet_only
    · exact hk.of rfl
    · assumption
  · assumption

theorem State.issueListed_only {ps : List Part} {q s : State} (hk : Within [.reg, .chans, .cqs, .accts, .gfe, .clus, .resvs, .pslots, .mem, .frames, .objs, .place, .streams, .xfers, .host, .fab, .integ, .icnt, .sup, .out, .fences, .tests] ps) (hq : OnlyChanges ps q s) (l : Nat) : OnlyChanges ps q (State.issueListed s l) := by
  unfold State.issueListed
  split
  · assumption
  · with_reducible refine OnlyChanges.ite ?_ ?_
    · with_reducible apply State.prep_only
      · exact hk.of rfl
      · assumption
    · with_reducible apply State.gfeHead_only
      · exact hk.of rfl
      · assumption
      · intro x1 x2 x3
        with_reducible apply State.runGfe_only
        · exact hk
        · assumption

theorem execListSlotIssue_only {ps : List Part} {q s : State} (hk : Within [.reg, .chans, .cqs, .accts, .gfe, .clus, .resvs, .pslots, .mem, .frames, .objs, .place, .streams, .xfers, .host, .fab, .integ, .icnt, .sup, .out, .fences, .tests] ps) (hq : OnlyChanges ps q s) (launch : Nat) : RunsOnly ps q (execListSlotIssue launch s) := by
  unfold execListSlotIssue
  with_reducible apply RunsOnly.done
  · exact hk.of rfl
  · with_reducible refine OnlyChanges.ite ?_ ?_
    · assumption
    · with_reducible apply State.issueListed_only
      · exact hk
      · assumption

theorem State.enterTs_only {ps : List Part} {q s : State} (hk : Within [.ts, .reg, .host, .out] ps) (hq : OnlyChanges ps q s) (st : TsState) : OnlyChanges ps q (State.enterTs s st) := by
  unfold State.enterTs
  extract_lets +onlyGivenNames v1
  clear_value v1
  extract_lets +onlyGivenNames v2
  have hv2 : OnlyChanges ps q v2 := by
    unfold v2
    with_reducible apply OnlyChanges.upd_ts
    · exact hk.of rfl
    · assumption
  clear_value v2
  split
  · with_reducible apply State.raise_only
    · exact hk.of rfl
    · assumption
  · with_reducible apply State.raise_only
    · exact hk.of rfl
    · assumption
  · assumption

theorem State.tsControl_only {ps : List Part} {q s : State} (hk : Within [.ts, .reg, .host, .out] ps) (hq : OnlyChanges ps q s) : OnlyChanges ps q (State.tsControl s) := by
  unfold State.tsControl
  with_reducible refine OnlyChanges.ite ?_ ?_
  · with_reducible refine OnlyChanges.ite ?_ ?_
    · assumption
    · with_reducible apply State.enterTs_only
      · exact hk
      · assumption
  · with_reducible refine OnlyChanges.ite ?_ ?_
    · with_reducible apply State.enterTs_only
      · exact hk
      · assumption
    · assumption

theorem State.offsetSample_only {ps : List Part} {q s : State} (hk : Within [.ts, .reg, .host, .out] ps) (hq : OnlyChanges ps q s) (ns : Int) : OnlyChanges ps q (State.offsetSample s ns) := by
  unfold State.offsetSample
  with_reducible refine OnlyChanges.ite ?_ ?_
  · with_reducible refine OnlyChanges.ite ?_ ?_
    · with_reducible apply State.enterTs_only
      · exact hk
      · assumption
    · with_reducible apply OnlyChanges.upd_ts
      · exact hk.of rfl
      · assumption
  · extract_lets +onlyGivenNames v1
    clear_value v1
    extract_lets +onlyGivenNames v2
    have hv2 : OnlyChanges ps q v2 := by
      unfold v2
      with_reducible apply OnlyChanges.upd_ts
      · exact hk.of rfl
      · assumption
    clear_value v2
    with_reducible refine OnlyChanges.ite ?_ ?_
    · with_reducible apply State.enterTs_only
      · exact hk
      · assumption
    · assumption

theorem execPtpOffsetSample_only {ps : List Part} {q s : State} (hk : Within [.ts, .reg, .host, .out] ps) (hq : OnlyChanges ps q s) (port : Nat) (m : PtpMsg) : RunsOnly ps q (execPtpOffsetSample port m s) := by
  unfold execPtpOffsetSample
  with_reducible apply RunsOnly.done
  · exact hk.of rfl
  · with_reducible refine OnlyChanges.ite ?_ ?_
    · assumption
    · extract_lets +onlyGivenNames v1
      have hv1 : OnlyChanges ps q v1 := by
        unfold v1
        with_reducible apply OnlyChanges.upd_ts
        · exact hk.of rfl
        · assumption
      clear_value v1
      split
      · with_reducible apply State.offsetSample_only
        · exact hk
        · assumption
      · assumption

theorem State.selectSource_only {ps : List Part} {q s : State} (hk : Within [.ts, .reg, .host, .out] ps) (hq : OnlyChanges ps q s) : OnlyChanges ps q (State.selectSource s) := by
  unfold State.selectSource
  with_reducible apply State.tsControl_only
  · exact hk
  · with_reducible apply OnlyChanges.upd_ts
    · exact hk.of rfl
    · assumption

theorem execPtpAnnounce_only {ps : List Part} {q s : State} (hk : Within [.ts, .reg, .host, .out] ps) (hq : OnlyChanges ps q s) (port : Nat) (domain : Nat) (m : PtpMaster) : RunsOnly ps q (execPtpAnnounce port domain m s) := by
  unfold execPtpAnnounce
  with_reducible apply RunsOnly.done
  · exact hk.of rfl
  · with_reducible refine OnlyChanges.ite ?_ ?_
    · assumption
    · with_reducible apply State.selectSource_only
      · exact hk
      · with_reducible apply OnlyChanges.upd_ts
        · exact hk.of rfl
        · assumption

theorem execPtpSampleTimeout_only {ps : List Part} {q s : State} (hk : Within [.ts, .reg, .host, .out] ps) (hq : OnlyChanges ps q s) : RunsOnly ps q (execPtpSampleTimeout s) := by
  unfold execPtpSampleTimeout
  with_reducible apply RunsOnly.done
  · exact hk.of rfl
  · with_reducible refine OnlyChanges.ite ?_ ?_
    · assumption
    · split
      · with_reducible apply State.enterTs_only
        · exact hk
        · assumption
      · with_reducible apply State.enterTs_only
        · exact hk
        · assumption
      · assumption

theorem execAnnounceReceiptTimeout_only {ps : List Part} {q s : State} (hk : Within [.ts, .reg, .host, .out] ps) (hq : OnlyChanges ps q s) : RunsOnly ps q (execAnnounceReceiptTimeout s) := by
  unfold execAnnounceReceiptTimeout
  with_reducible apply RunsOnly.done
  · exact hk.of rfl
  · with_reducible refine OnlyChanges.ite ?_ ?_
    · assumption
    · with_reducible apply State.selectSource_only
      · exact hk
      · with_reducible apply OnlyChanges.upd_ts
        · exact hk.of rfl
        · assumption

theorem execDelayReqSend_only {ps : List Part} {q s : State} (hk : Within [.ts, .reg, .out] ps) (hq : OnlyChanges ps q s) (port : Nat) : RunsOnly ps q (execDelayReqSend port s) := by
  unfold execDelayReqSend
  with_reducible apply RunsOnly.done
  · exact hk.of rfl
  · with_reducible refine OnlyChanges.ite ?_ ?_
    · assumption
    · with_reducible apply State.emit_only
      · exact hk.of rfl
      · with_reducible apply OnlyChanges.upd_ts
        · exact hk.of rfl
        · assumption

theorem State.readLoc_only {ps : List Part} {q s : State} (hk : Within [.reg] ps) (hq : OnlyChanges ps q s) (a : Acc) (l : RegLoc) : OnlyChanges ps q (State.readLoc s a l).2 := by
  unfold State.readLoc
  split
  · assumption
  · split
    · assumption
    · extract_lets +onlyGivenNames v1
      clear_value v1
      split
      · assumption
      · extract_lets +onlyGivenNames v2
        clear_value v2
        split
        · assumption
        · split
          · assumption
          · extract_lets +onlyGivenNames v3
            clear_value v3
            dsimp only
            with_reducible apply State.setAcc_only
            · exact hk
            · assumption

theorem State.readReg_only {ps : List Part} {q s : State} (hk : Within [.reg, .freeCtr] ps) (hq : OnlyChanges ps q s) (a : Acc) (off : Nat) : OnlyChanges ps q (State.readReg s a off).2 := by
  unfold State.readReg
  split
  · dsimp only
    with_reducible apply State.takeFree_only
    · exact hk.of rfl
    · assumption
  · split
    · assumption
    · split
      · assumption
      · with_reducible apply State.readLoc_only
        · exact hk.of rfl
        · assumption

theorem execLoRead_only {ps : List Part} {q s : State} (hk : Within [.reg, .out, .freeCtr] ps) (hq : OnlyChanges ps q s) (a : Acc) (off : Nat) : RunsOnly ps q (execLoRead a off s) := by
  unfold execLoRead
  with_reducible apply RunsOnly.done
  · exact hk.of rfl
  · with_reducible refine OnlyChanges.ite ?_ ?_
    · assumption
    · extract_lets +onlyGivenNames v1
      have hv1 : OnlyChanges ps q v1.2 := by
        unfold v1
        with_reducible apply State.readReg_only
        · exact hk.of rfl
        · assumption
      clear_value v1
      with_reducible apply State.emit_only
      · exact hk.of rfl
      · assumption

theorem State.noteIgnored_only {ps : List Part} {q s : State} (hk : Within [.reg, .host, .out] ps) (hq : OnlyChanges ps q s) (a : Acc) (l : RegLoc) (r : RDef) : OnlyChanges ps q (State.noteIgnored s a l r) := by
  unfold State.noteIgnored
  with_reducible apply State.ignored_only
  · exact hk
  · assumption

theorem State.statusClearAt_only {ps : List Part} {q s : State} (hk : Within [.reg] ps) (hq : OnlyChanges ps q s) (w : Win) (item : Nat) (off : Nat) (r : RDef) (data : Nat) : OnlyChanges ps q (State.statusClearAt s w item off r data) := by
  unfold State.statusClearAt
  extract_lets +onlyGivenNames v1
  with_reducible refine OnlyChanges.ite ?_ ?_
  · with_reducible apply State.regPut_only
    · exact hk
    · assumption
  · assumption

theorem State.statusInjectAt_only {ps : List Part} {q s : State} (hk : Within [.reg, .host, .out] ps) (hq : OnlyChanges ps q s) (w : Win) (item : Nat) (off : Nat) (r : RDef) (data : Nat) : OnlyChanges ps q (State.statusInjectAt s w item off r data) := by
  unfold State.statusInjectAt
  with_reducible apply State.statusEvents_only
  · exact hk.of rfl
  · with_reducible apply State.statusSet_only
    · exact hk.of rfl
    · assumption

theorem execStatusClear_only {ps : List Part} {q s : State} (hk : Within [.reg] ps) (hq : OnlyChanges ps q s) (a : Acc) (off : Nat) (data : BitVec 32) : RunsOnly ps q (execStatusClear a off data s) := by
  unfold execStatusClear
  with_reducible apply RunsOnly.done
  · exact hk
  · split
    · with_reducible apply State.statusClearAt_only
      · exact hk
      · assumption
    · assumption

theorem execStatusSetInject_only {ps : List Part} {q s : State} (hk : Within [.reg, .host, .out] ps) (hq : OnlyChanges ps q s) (a : Acc) (off : Nat) (data : BitVec 32) : RunsOnly ps q (execStatusSetInject a off data s) := by
  unfold execStatusSetInject
  with_reducible apply RunsOnly.done
  · exact hk.of rfl
  · split
    · with_reducible apply State.statusInjectAt_only
      · exact hk
      · assumption
    · assumption

theorem execStatusToggle_only {ps : List Part} {q s : State} (hk : Within [.reg, .host, .out] ps) (hq : OnlyChanges ps q s) (a : Acc) (off : Nat) (_data : BitVec 32) : RunsOnly ps q (execStatusToggle a off _data s) := by
  unfold execStatusToggle
  with_reducible apply RunsOnly.done
  · exact hk.of rfl
  · split
    · with_reducible apply State.noteIgnored_only
      · exact hk
      · assumption
    · assumption

theorem after_only {ps : List Part} {q s : State} (_hk : Within [] ps) (_hq : OnlyChanges ps q s)
    (o : Host.Outcome State Fault Refusal) (ho : RunsOnly ps q o) : OnlyChanges ps q (after o s) := by
  obtain ⟨t, rfl, h⟩ := ho
  exact h

theorem State.snapAcct_only {ps : List Part} {q s : State} (hk : Within [.reg] ps) (hq : OnlyChanges ps q s) (a : Acc) (chan : Nat) (compat : Bool) : OnlyChanges ps q (State.snapAcct s a chan compat) := by
  unfold State.snapAcct
  with_reducible apply State.setAcc_only
  · exact hk
  · assumption

theorem execAcctSnap_only {ps : List Part} {q s : State} (hk : Within [.reg] ps) (hq : OnlyChanges ps q s) (a : Acc) (chan : Nat) (compat : Bool) : RunsOnly ps q (execAcctSnap a chan compat s) := by
  unfold execAcctSnap
  with_reducible apply RunsOnly.done
  · exact hk
  · with_reducible refine OnlyChanges.ite ?_ ?_
    · assumption
    · with_reducible apply State.snapAcct_only
      · exact hk
      · with_reducible apply State.fldPut_only
        · exact hk
        · with_reducible apply State.fldPut_only
          · exact hk
          · assumption

theorem State.fenceIgnored_only {ps : List Part} {q s : State} (hk : Within [.reg, .host, .out] ps) (hq : OnlyChanges ps q s) : OnlyChanges ps q (State.fenceIgnored s) := by
  unfold State.fenceIgnored
  with_reducible apply State.ignored_only
  · exact hk
  · assumption

theorem execGfeFenceReset_only {ps : List Part} {q s : State} (hk : Within [.reg, .gfe, .host, .out, .fences] ps) (hq : OnlyChanges ps q s) (a : Acc) (gen : BitVec 20) : RunsOnly ps q (execGfeFenceReset a gen s) := by
  unfold execGfeFenceReset
  with_reducible apply RunsOnly.done
  · exact hk.of rfl
  · with_reducible refine OnlyChanges.ite ?_ ?_
    · assumption
    · extract_lets +onlyGivenNames v1
      clear_value v1
      extract_lets +onlyGivenNames v2
      clear_value v2
      with_reducible refine OnlyChanges.ite ?_ ?_
      · with_reducible apply State.fenceIgnored_only
        · exact hk.of rfl
        · assumption
      · extract_lets +onlyGivenNames v3
        clear_value v3
        extract_lets +onlyGivenNames v4
        have hv4 : OnlyChanges ps q v4 := by
          unfold v4
          with_reducible apply State.fldPut_only
          · exact hk.of rfl
          · with_reducible apply State.setFence_only
            · exact hk.of rfl
            · assumption
        clear_value v4
        with_reducible apply OnlyChanges.upd_reg
        · exact hk.of rfl
        · assumption

theorem execGfeFenceAdd_only {ps : List Part} {q s : State} (hk : Within [.reg, .gfe, .streams, .host, .out, .fences] ps) (hq : OnlyChanges ps q s) (a : Acc) (add : BitVec 32) : RunsOnly ps q (execGfeFenceAdd a add s) := by
  unfold execGfeFenceAdd
  with_reducible apply RunsOnly.done
  · exact hk.of rfl
  · with_reducible refine OnlyChanges.ite ?_ ?_
    · assumption
    · extract_lets +onlyGivenNames v1
      clear_value v1
      extract_lets +onlyGivenNames v2
      clear_value v2
      with_reducible refine OnlyChanges.ite ?_ ?_
      · with_reducible apply State.fenceIgnored_only
        · exact hk.of rfl
        · assumption
      · with_reducible apply State.setFenceVal_only
        · exact hk.of rfl
        · assumption

theorem State.chanCmd_only {ps : List Part} {q s : State} (hk : Within [.reg, .chans, .cqs, .accts, .gfe, .host, .sup, .out] ps) (hq : OnlyChanges ps q s) (a : Acc) (op : Nat) (gen : BitVec 20) : OnlyChanges ps q (State.chanCmd s a op gen) := by
  unfold State.chanCmd
  split
  · with_reducible apply after_only
    · exact hk.of rfl
    · assumption
    · with_reducible apply execCreate_only
      · exact hk.of rfl
      · assumption
  · with_reducible apply after_only
    · exact hk.of rfl
    · assumption
    · with_reducible apply execActivate_only
      · exact hk.of rfl
      · assumption
  · with_reducible apply after_only
    · exact hk.of rfl
    · assumption
    · with_reducible apply execPause_only
      · exact hk.of rfl
      · assumption
  · with_reducible apply after_only
    · exact hk.of rfl
    · assumption
    · with_reducible apply execResume_only
      · exact hk.of rfl
      · assumption
  · with_reducible apply after_only
    · exact hk.of rfl
    · assumption
    · with_reducible apply execDestroy_only
      · exact hk.of rfl
      · assumption
  · with_reducible apply after_only
    · exact hk.of rfl
    · assumption
    · with_reducible apply execReattach_only
      · exact hk.of rfl
      · assumption
  · with_reducible apply State.chanIgnored_only
    · exact hk.of rfl
    · assumption

theorem State.startOps_only {ps : List Part} {q s : State} (hk : Within [.reg, .chans, .cqs, .accts, .gfe, .clus, .resvs, .pslots, .frames, .objs, .place, .streams, .xfers, .link, .host, .fab, .integ, .icnt, .sup, .sec, .out, .fences, .tests] ps) (hq : OnlyChanges ps q s) (a : Acc) (l : RegLoc) (data : Nat) : OnlyChanges ps q (State.startOps s a l data) := by
  unfold State.startOps
  extract_lets +onlyGivenNames v1
  clear_value v1
  split
  · with_reducible apply State.chanCmd_only
    · exact hk.of rfl
    · assumption
  · with_reducible refine OnlyChanges.ite ?_ ?_
    · with_reducible apply after_only
      · exact hk.of rfl
      · assumption
      · with_reducible apply execGfeFenceReset_only
        · exact hk.of rfl
        · assumption
    · assumption
  · with_reducible apply after_only
    · exact hk.of rfl
    · assumption
    · with_reducible apply execGfeFenceAdd_only
      · exact hk.of rfl
      · assumption
  · with_reducible refine OnlyChanges.ite ?_ ?_
    · with_reducible apply State.snapAcct_only
      · exact hk.of rfl
      · assumption
    · assumption
  · with_reducible refine OnlyChanges.ite ?_ ?_
    · with_reducible apply after_only
      · exact hk.of rfl
      · assumption
      · with_reducible apply execGfeScaleClearHist_only
        · exact hk.of rfl
        · assumption
    · assumption
  · with_reducible refine OnlyChanges.ite ?_ ?_
    · with_reducible apply after_only
      · exact hk.of rfl
      · assumption
      · with_reducible apply execFoldNow_only
        · exact hk.of rfl
        · assumption
    · assumption
  · with_reducible refine OnlyChanges.ite ?_ ?_
    · with_reducible apply State.startMargin_only
      · exact hk.of rfl
      · assumption
    · assumption
  · split
    · with_reducible apply after_only
      · exact hk.of rfl
      · assumption
      · with_reducible apply execIntCluRetire_only
        · exact hk.of rfl
        · assumption
    · with_reducible apply after_only
      · exact hk.of rfl
      · assumption
      · with_reducible apply execIntCluSuspect_only
        · exact hk.of rfl
        · assumption
    · with_reducible apply State.ignored_only
      · exact hk.of rfl
      · assumption
  · with_reducible refine OnlyChanges.ite ?_ ?_
    · with_reducible apply after_only
      · exact hk.of rfl
      · assumption
      · with_reducible apply execIntLogSnap_only
        · exact hk.of rfl
        · assumption
    · assumption
  · split
    · with_reducible apply after_only
      · exact hk.of rfl
      · assumption
      · with_reducible apply execSecUpdFirmware_only
        · exact hk.of rfl
        · assumption
    · with_reducible apply after_only
      · exact hk.of rfl
      · assumption
      · with_reducible apply execSecUpdConfig_only
        · exact hk.of rfl
        · assumption
    · with_reducible apply State.secIgnored_only
      · exact hk.of rfl
      · assumption
  · with_reducible apply after_only
    · exact hk.of rfl
    · assumption
    · with_reducible apply execSecReset_only
      · exact hk.of rfl
      · assumption
  · with_reducible refine OnlyChanges.ite ?_ ?_
    · with_reducible apply after_only
      · exact hk.of rfl
      · assumption
      · with_reducible apply execSecRecBegin_only
        · exact hk.of rfl
        · assumption
    · assumption
  · with_reducible apply after_only
    · exact hk.of rfl
    · assumption
    · with_reducible apply execSecRecData_only
      · exact hk.of rfl
      · assumption
  · with_reducible refine OnlyChanges.ite ?_ ?_
    · with_reducible apply after_only
      · exact hk.of rfl
      · assumption
      · with_reducible apply execStrCtrlDisarm_only
        · exact hk.of rfl
        · assumption
    · assumption
  · assumption

theorem State.applyPlan_only {ps : List Part} {q s : State} (hk : Within [.reg] ps) (hq : OnlyChanges ps q s) (w : Win) (item : Nat) (off : Nat) (p : Plan) : OnlyChanges ps q (State.applyPlan s w item off p) := by
  unfold State.applyPlan
  extract_lets +onlyGivenNames v1
  have hv1 : OnlyChanges ps q v1 := by
    unfold v1
    with_reducible refine OnlyChanges.foldl ?_ ?_
    · assumption
    · intro x2 x3 x4
      split
      · with_reducible refine OnlyChanges.ite ?_ ?_
        · assumption
        · with_reducible apply State.fldPut_only
          · exact hk
          · assumption
      · assumption
  clear_value v1
  extract_lets +onlyGivenNames v5
  clear_value v5
  extract_lets +onlyGivenNames v6
  clear_value v6
  with_reducible refine OnlyChanges.ite ?_ ?_
  · assumption
  · with_reducible apply State.latchT_only
    · exact hk
    · assumption

theorem State.fabOn_only {ps : List Part} {q s : State} (hk : Within [.fab, .out] ps) (hq : OnlyChanges ps q s) : OnlyChanges ps q (State.fabOn s) := by
  unfold State.fabOn
  with_reducible apply State.pumpAll_only
  · exact hk
  · with_reducible apply State.moveFlows_only
    · exact hk
    · assumption

theorem State.afterWrite_only {ps : List Part} {q old s : State} (hk : Within [.ts, .reg, .chans, .host, .fab, .out] ps) (hq : OnlyChanges ps q s) (w : Win) (item : Nat) (off : Nat) (p : Plan) : OnlyChanges ps q (State.afterWrite old s w item off p) := by
  unfold State.afterWrite
  extract_lets +onlyGivenNames v1
  clear_value v1
  extract_lets +onlyGivenNames v2
  clear_value v2
  with_reducible refine OnlyChanges.ite ?_ ?_
  · assumption
  · split
    · with_reducible refine OnlyChanges.ite ?_ ?_
      · with_reducible apply State.tsControl_only
        · exact hk.of rfl
        · assumption
      · with_reducible refine OnlyChanges.ite ?_ ?_
        · with_reducible apply State.setChan_only
          · exact hk.of rfl
          · assumption
        · with_reducible refine OnlyChanges.ite ?_ ?_
          · with_reducible apply State.setChan_only
            · exact hk.of rfl
            · assumption
          · assumption
    · with_reducible refine OnlyChanges.ite ?_ ?_
      · with_reducible refine OnlyChanges.ite ?_ ?_
        · with_reducible apply State.fabOn_only
          · exact hk.of rfl
          · assumption
        · assumption
      · with_reducible refine OnlyChanges.ite ?_ ?_
        · extract_lets +onlyGivenNames v3
          clear_value v3
          with_reducible refine OnlyChanges.ite ?_ ?_
          · with_reducible apply after_only
            · exact hk.of rfl
            · assumption
            · with_reducible apply execPortEnable_only
              · exact hk.of rfl
              · assumption
          · with_reducible apply after_only
            · exact hk.of rfl
            · assumption
            · with_reducible apply execPortDisable_only
              · exact hk.of rfl
              · assumption
        · assumption
    · assumption

theorem State.writeFields_only {ps : List Part} {q s : State} (hk : Within [.ts, .reg, .chans, .cqs, .accts, .gfe, .clus, .resvs, .pslots, .frames, .objs, .place, .streams, .xfers, .link, .host, .fab, .integ, .icnt, .sup, .sec, .out, .fences, .tests] ps) (hq : OnlyChanges ps q s) (a : Acc) (l : RegLoc) (r : RDef) (data : Nat) : OnlyChanges ps q (State.writeFields s a l r data) := by
  unfold State.writeFields
  extract_lets +onlyGivenNames v1
  clear_value v1
  extract_lets +onlyGivenNames v2
  clear_value v2
  extract_lets +onlyGivenNames v3
  clear_value v3
  extract_lets +onlyGivenNames v4
  clear_value v4
  extract_lets +onlyGivenNames v5
  clear_value v5
  with_reducible refine OnlyChanges.ite ?_ ?_
  · with_reducible apply State.noteIgnored_only
    · exact hk.of rfl
    · assumption
  · extract_lets +onlyGivenNames v6
    have hv6 : OnlyChanges ps q v6 := by
      unfold v6
      with_reducible apply State.applyPlan_only
      · exact hk.of rfl
      · assumption
    clear_value v6
    extract_lets +onlyGivenNames v7
    have hv7 : OnlyChanges ps q v7 := by
      unfold v7
      with_reducible apply State.afterWrite_only
      · exact hk.of rfl
      · assumption
    clear_value v7
    extract_lets +onlyGivenNames v8
    have hv8 : OnlyChanges ps q v8 := by
      unfold v8
      with_reducible refine OnlyChanges.ite ?_ ?_
      · with_reducible apply State.noteIgnored_only
        · exact hk.of rfl
        · assumption
      · assumption
    clear_value v8
    with_reducible refine OnlyChanges.ite ?_ ?_
    · with_reducible apply State.startOps_only
      · exact hk.of rfl
      · assumption
    · assumption

theorem State.writeLoc_only {ps : List Part} {q s : State} (hk : Within [.ts, .reg, .chans, .cqs, .accts, .gfe, .clus, .resvs, .pslots, .frames, .objs, .place, .streams, .xfers, .link, .host, .fab, .integ, .icnt, .sup, .sec, .out, .fences, .tests] ps) (hq : OnlyChanges ps q s) (a : Acc) (l : RegLoc) (data : Nat) : OnlyChanges ps q (State.writeLoc s a l data) := by
  unfold State.writeLoc
  split
  · assumption
  · with_reducible refine OnlyChanges.ite ?_ ?_
    · with_reducible apply State.writeFields_only
      · exact hk
      · assumption
    · extract_lets +onlyGivenNames v1
      clear_value v1
      split
      · with_reducible apply State.statusClearAt_only
        · exact hk.of rfl
        · assumption
      · with_reducible apply State.statusClearAt_only
        · exact hk.of rfl
        · assumption
      · with_reducible apply State.statusInjectAt_only
        · exact hk.of rfl
        · assumption
      · with_reducible apply State.noteIgnored_only
        · exact hk.of rfl
        · assumption

theorem State.writeReg_only {ps : List Part} {q s : State} (hk : Within [.ts, .reg, .chans, .cqs, .accts, .gfe, .clus, .resvs, .pslots, .frames, .objs, .place, .streams, .xfers, .link, .host, .fab, .integ, .icnt, .sup, .sec, .out, .fences, .tests] ps) (hq : OnlyChanges ps q s) (a : Acc) (off : Nat) (data : Nat) : OnlyChanges ps q (State.writeReg s a off data) := by
  unfold State.writeReg
  split
  · assumption
  · with_reducible refine OnlyChanges.ite ?_ ?_
    · with_reducible apply State.writeLoc_only
      · exact hk
      · assumption
    · assumption

theorem State.writeBadSize_only {ps : List Part} {q s : State} (hk : Within [.reg, .host, .out] ps) (hq : OnlyChanges ps q s) (a : Acc) (off : Nat) : OnlyChanges ps q (State.writeBadSize s a off) := by
  unfold State.writeBadSize
  split
  · assumption
  · with_reducible refine OnlyChanges.ite ?_ ?_
    · assumption
    · split
      · assumption
      · with_reducible apply State.noteIgnored_only
        · exact hk
        · assumption

theorem execRegisterWrite_only {ps : List Part} {q s : State} (hk : Within [.ts, .reg, .chans, .cqs, .accts, .gfe, .clus, .resvs, .pslots, .frames, .objs, .place, .streams, .xfers, .link, .host, .fab, .integ, .icnt, .sup, .sec, .out, .fences, .tests] ps) (hq : OnlyChanges ps q s) (a : Acc) (off : Nat) (data : BitVec 64) (size : AccessSize) : RunsOnly ps q (execRegisterWrite a off data size s) := by
  unfold execRegisterWrite
  with_reducible apply RunsOnly.done
  · exact hk.of rfl
  · with_reducible refine OnlyChanges.ite ?_ ?_
    · assumption
    · split
      · with_reducible apply State.writeReg_only
        · exact hk
        · assumption
      · with_reducible apply State.writeReg_only
        · exact hk
        · with_reducible apply State.endStep_only
          · exact hk.of rfl
          · with_reducible apply State.writeReg_only
            · exact hk
            · assumption
      · with_reducible apply State.writeBadSize_only
        · exact hk.of rfl
        · assumption
      · with_reducible apply State.writeBadSize_only
        · exact hk.of rfl
        · assumption

theorem execClk10mQualified_only {ps : List Part} {q s : State} (hk : Within [.reg, .sb] ps) (hq : OnlyChanges ps q s) : RunsOnly ps q (execClk10mQualified s) := by
  unfold execClk10mQualified
  with_reducible apply RunsOnly.done
  · exact hk.of rfl
  · with_reducible refine OnlyChanges.ite ?_ ?_
    · assumption
    · with_reducible apply OnlyChanges.upd_sb
      · exact hk.of rfl
      · assumption

theorem execClk10mLoss_only {ps : List Part} {q s : State} (hk : Within [.reg, .sb] ps) (hq : OnlyChanges ps q s) : RunsOnly ps q (execClk10mLoss s) := by
  unfold execClk10mLoss
  with_reducible apply RunsOnly.done
  · exact hk.of rfl
  · with_reducible refine OnlyChanges.ite ?_ ?_
    · assumption
    · with_reducible apply OnlyChanges.upd_sb
      · exact hk.of rfl
      · assumption

theorem execDynamicAddressAssign_only {ps : List Part} {q s : State} (hk : Within [.reg, .sb] ps) (hq : OnlyChanges ps q s) (addr : BitVec 7) : RunsOnly ps q (execDynamicAddressAssign addr s) := by
  unfold execDynamicAddressAssign
  with_reducible apply RunsOnly.done
  · exact hk.of rfl
  · with_reducible refine OnlyChanges.ite ?_ ?_
    · assumption
    · with_reducible apply OnlyChanges.upd_sb
      · exact hk.of rfl
      · assumption

theorem execI3cBusReset_only {ps : List Part} {q s : State} (hk : Within [.reg, .sb] ps) (hq : OnlyChanges ps q s) : RunsOnly ps q (execI3cBusReset s) := by
  unfold execI3cBusReset
  with_reducible apply RunsOnly.done
  · exact hk.of rfl
  · with_reducible refine OnlyChanges.ite ?_ ?_
    · assumption
    · with_reducible apply OnlyChanges.upd_sb
      · exact hk.of rfl
      · assumption

theorem execMctpMessageTimeout_only {ps : List Part} {q s : State} (hk : Within [.reg] ps) (hq : OnlyChanges ps q s) : RunsOnly ps q (execMctpMessageTimeout s) := by
  unfold execMctpMessageTimeout
  with_reducible apply RunsOnly.done
  · exact hk
  · assumption

theorem State.mctpAnswer_only {ps : List Part} {q s : State} (hk : Within [.out] ps) (hq : OnlyChanges ps q s) (code : Nat) (data : List Byte) : OnlyChanges ps q (State.mctpAnswer s code data) := by
  unfold State.mctpAnswer
  with_reducible apply State.emit_only
  · exact hk
  · assumption

theorem execSetEndpointId_only {ps : List Part} {q s : State} (hk : Within [.reg, .sb, .out] ps) (hq : OnlyChanges ps q s) (eid : BitVec 8) : RunsOnly ps q (execSetEndpointId eid s) := by
  unfold execSetEndpointId
  with_reducible apply RunsOnly.done
  · exact hk.of rfl
  · with_reducible refine OnlyChanges.ite ?_ ?_
    · assumption
    · with_reducible refine OnlyChanges.ite ?_ ?_
      · with_reducible apply State.mctpAnswer_only
        · exact hk.of rfl
        · assumption
      · with_reducible apply State.mctpAnswer_only
        · exact hk.of rfl
        · with_reducible apply OnlyChanges.upd_sb
          · exact hk.of rfl
          · assumption

theorem execGetEndpointId_only {ps : List Part} {q s : State} (hk : Within [.reg, .out] ps) (hq : OnlyChanges ps q s) : RunsOnly ps q (execGetEndpointId s) := by
  unfold execGetEndpointId
  with_reducible apply RunsOnly.done
  · exact hk.of rfl
  · with_reducible refine OnlyChanges.ite ?_ ?_
    · assumption
    · with_reducible apply State.mctpAnswer_only
      · exact hk.of rfl
      · assumption

theorem execGetMctpVersionSupport_only {ps : List Part} {q s : State} (hk : Within [.reg, .out, .freeCtr] ps) (hq : OnlyChanges ps q s) (msgType : BitVec 8) : RunsOnly ps q (execGetMctpVersionSupport msgType s) := by
  unfold execGetMctpVersionSupport
  with_reducible apply RunsOnly.done
  · exact hk.of rfl
  · with_reducible refine OnlyChanges.ite ?_ ?_
    · assumption
    · with_reducible refine OnlyChanges.ite ?_ ?_
      · extract_lets +onlyGivenNames v1
        have hv1 : OnlyChanges ps q v1.2 := by
          unfold v1
          with_reducible apply State.takeFree_only
          · exact hk.of rfl
          · assumption
        clear_value v1
        with_reducible apply State.mctpAnswer_only
        · exact hk.of rfl
        · assumption
      · with_reducible apply State.mctpAnswer_only
        · exact hk.of rfl
        · assumption

theorem execGetMessageTypeSupport_only {ps : List Part} {q s : State} (hk : Within [.reg, .out] ps) (hq : OnlyChanges ps q s) : RunsOnly ps q (execGetMessageTypeSupport s) := by
  unfold execGetMessageTypeSupport
  with_reducible apply RunsOnly.done
  · exact hk.of rfl
  · with_reducible refine OnlyChanges.ite ?_ ?_
    · assumption
    · with_reducible apply State.mctpAnswer_only
      · exact hk.of rfl
      · assumption

theorem execGetEndpointUuid_only {ps : List Part} {q s : State} (hk : Within [.reg, .out] ps) (hq : OnlyChanges ps q s) : RunsOnly ps q (execGetEndpointUuid s) := by
  unfold execGetEndpointUuid
  with_reducible apply RunsOnly.done
  · exact hk.of rfl
  · with_reducible refine OnlyChanges.ite ?_ ?_
    · assumption
    · with_reducible apply State.mctpAnswer_only
      · exact hk.of rfl
      · assumption

theorem State.setStage_only {ps : List Part} {q s : State} (hk : Within [.sb] ps) (hq : OnlyChanges ps q s) (p : SpdmPath) (n : Nat) : OnlyChanges ps q (State.setStage s p n) := by
  unfold State.setStage
  split
  · with_reducible apply OnlyChanges.upd_sb
    · exact hk
    · assumption
  · with_reducible apply OnlyChanges.upd_sb
    · exact hk
    · assumption

theorem State.spdmError_only {ps : List Part} {q s : State} (hk : Within [.out] ps) (hq : OnlyChanges ps q s) (p : SpdmPath) (code : Nat) : OnlyChanges ps q (State.spdmError s p code) := by
  unfold State.spdmError
  with_reducible apply State.emit_only
  · exact hk
  · assumption

theorem State.spdmAt_only {ps : List Part} {q s : State} (hk : Within [.out] ps) (hq : OnlyChanges ps q s) (p : SpdmPath) (n : Nat) (f : State → State) (hf : OnlyChanges ps q (f s)) :
    OnlyChanges ps q (State.spdmAt s p n f) := by
  unfold State.spdmAt
  exact OnlyChanges.ite hq (OnlyChanges.ite (State.spdmError_only (hk.of rfl) hq _ _) hf)

theorem execGetVersion_only {ps : List Part} {q s : State} (hk : Within [.reg, .sb, .out] ps) (hq : OnlyChanges ps q s) (path : SpdmPath) : RunsOnly ps q (execGetVersion path s) := by
  unfold execGetVersion
  with_reducible apply RunsOnly.done
  · exact hk.of rfl
  · with_reducible apply State.spdmAt_only
    · exact hk.of rfl
    · assumption
    · with_reducible apply State.emit_only
      · exact hk.of rfl
      · with_reducible apply State.setStage_only
        · exact hk.of rfl
        · assumption

theorem execGetCapabilities_only {ps : List Part} {q s : State} (hk : Within [.reg, .sb, .out, .freeCtr] ps) (hq : OnlyChanges ps q s) (path : SpdmPath) : RunsOnly ps q (execGetCapabilities path s) := by
  unfold execGetCapabilities
  with_reducible apply RunsOnly.done
  · exact hk.of rfl
  · with_reducible apply State.spdmAt_only
    · exact hk.of rfl
    · assumption
    · extract_lets +onlyGivenNames v1
      have hv1 : OnlyChanges ps q v1.2 := by
        unfold v1
        with_reducible apply State.takeFree_only
        · exact hk.of rfl
        · assumption
      clear_value v1
      with_reducible apply State.emit_only
      · exact hk.of rfl
      · with_reducible apply State.setStage_only
        · exact hk.of rfl
        · assumption

theorem execNegotiateAlgorithms_only {ps : List Part} {q s : State} (hk : Within [.reg, .sb, .out] ps) (hq : OnlyChanges ps q s) (path : SpdmPath) (p256 : Bool) (sha256 : Bool) : RunsOnly ps q (execNegotiateAlgorithms path p256 sha256 s) := by
  unfold execNegotiateAlgorithms
  with_reducible apply RunsOnly.done
  · exact hk.of rfl
  · with_reducible apply State.spdmAt_only
    · exact hk.of rfl
    · assumption
    · with_reducible refine OnlyChanges.ite ?_ ?_
      · with_reducible apply State.spdmError_only
        · exact hk.of rfl
        · assumption
      · with_reducible apply State.emit_only
        · exact hk.of rfl
        · with_reducible apply State.setStage_only
          · exact hk.of rfl
          · assumption

theorem execGetDigests_only {ps : List Part} {q s : State} (hk : Within [.reg, .out] ps) (hq : OnlyChanges ps q s) (path : SpdmPath) : RunsOnly ps q (execGetDigests path s) := by
  unfold execGetDigests
  with_reducible apply RunsOnly.done
  · exact hk.of rfl
  · with_reducible apply State.spdmAt_only
    · exact hk.of rfl
    · assumption
    · with_reducible apply State.emit_only
      · exact hk.of rfl
      · assumption

theorem execGetCertificate_only {ps : List Part} {q s : State} (hk : Within [.reg, .out] ps) (hq : OnlyChanges ps q s) (path : SpdmPath) (slot : Nat) (offset : Nat) (length : Nat) : RunsOnly ps q (execGetCertificate path slot offset length s) := by
  unfold execGetCertificate
  with_reducible apply RunsOnly.done
  · exact hk.of rfl
  · with_reducible apply State.spdmAt_only
    · exact hk.of rfl
    · assumption
    · with_reducible refine OnlyChanges.ite ?_ ?_
      · with_reducible apply State.spdmError_only
        · exact hk.of rfl
        · assumption
      · extract_lets +onlyGivenNames v1
        clear_value v1
        with_reducible apply State.emit_only
        · exact hk.of rfl
        · assumption

theorem execChallenge_only {ps : List Part} {q s : State} (hk : Within [.reg, .out, .freeCtr] ps) (hq : OnlyChanges ps q s) (path : SpdmPath) (slot : Nat) (nonce : List Byte) : RunsOnly ps q (execChallenge path slot nonce s) := by
  unfold execChallenge
  with_reducible apply RunsOnly.done
  · exact hk.of rfl
  · with_reducible apply State.spdmAt_only
    · exact hk.of rfl
    · assumption
    · with_reducible refine OnlyChanges.ite ?_ ?_
      · with_reducible apply State.spdmError_only
        · exact hk.of rfl
        · assumption
      · with_reducible refine OnlyChanges.ite ?_ ?_
        · with_reducible apply State.spdmError_only
          · exact hk.of rfl
          · assumption
        · extract_lets +onlyGivenNames v1
          have hv1 : OnlyChanges ps q v1.2 := by
            unfold v1
            with_reducible apply State.takeFree_only
            · exact hk.of rfl
            · assumption
          clear_value v1
          extract_lets +onlyGivenNames v2
          clear_value v2
          with_reducible apply State.emit_only
          · exact hk.of rfl
          · assumption

theorem execGetMeasurements_only {ps : List Part} {q s : State} (hk : Within [.reg, .out, .freeCtr] ps) (hq : OnlyChanges ps q s) (path : SpdmPath) (index : Nat) (sign : Bool) (nonce : List Byte) : RunsOnly ps q (execGetMeasurements path index sign nonce s) := by
  unfold execGetMeasurements
  with_reducible apply RunsOnly.done
  · exact hk.of rfl
  · with_reducible apply State.spdmAt_only
    · exact hk.of rfl
    · assumption
    · with_reducible refine OnlyChanges.ite ?_ ?_
      · with_reducible apply State.spdmError_only
        · exact hk.of rfl
        · assumption
      · with_reducible refine OnlyChanges.ite ?_ ?_
        · with_reducible apply State.spdmError_only
          · exact hk.of rfl
          · assumption
        · extract_lets +onlyGivenNames v1
          clear_value v1
          extract_lets +onlyGivenNames v2
          clear_value v2
          extract_lets +onlyGivenNames v3
          have hv3 : OnlyChanges ps q v3.2 := by
            unfold v3
            with_reducible apply State.takeFree_only
            · exact hk.of rfl
            · assumption
          clear_value v3
          extract_lets +onlyGivenNames v4
          clear_value v4
          with_reducible apply State.emit_only
          · exact hk.of rfl
          · assumption

theorem State.sbAnswer_only {ps : List Part} {q s : State} (hk : Within [.out] ps) (hq : OnlyChanges ps q s) (cmd : Nat) (inst : Byte) (cc : Nat) (data : List Byte) : OnlyChanges ps q (State.sbAnswer s cmd inst cc data) := by
  unfold State.sbAnswer
  with_reducible apply State.emit_only
  · exact hk
  · assumption

theorem State.sbServe_only {ps : List Part} {q s : State} (hk : Within [.out] ps) (hq : OnlyChanges ps q s) (cmd : Nat) (inst : Byte) (req : List Byte) (len : Nat)
    (f : State → State) (hf : OnlyChanges ps q (f s)) : OnlyChanges ps q (State.sbServe s cmd inst req len f) := by
  unfold State.sbServe
  exact OnlyChanges.ite hq (OnlyChanges.ite (State.sbAnswer_only (hk.of rfl) hq _ _ _ _) (OnlyChanges.ite (State.sbAnswer_only (hk.of rfl) hq _ _ _ _) hf))

theorem execGetIdentity_only {ps : List Part} {q s : State} (hk : Within [.reg, .out] ps) (hq : OnlyChanges ps q s) (inst : Byte) (req : List Byte) : RunsOnly ps q (execGetIdentity inst req s) := by
  unfold execGetIdentity
  with_reducible apply RunsOnly.done
  · exact hk.of rfl
  · with_reducible apply State.sbServe_only
    · exact hk.of rfl
    · assumption
    · with_reducible apply State.sbAnswer_only
      · exact hk.of rfl
      · assumption

theorem execGetStatus_only {ps : List Part} {q s : State} (hk : Within [.reg, .out] ps) (hq : OnlyChanges ps q s) (inst : Byte) (req : List Byte) : RunsOnly ps q (execGetStatus inst req s) := by
  unfold execGetStatus
  with_reducible apply RunsOnly.done
  · exact hk.of rfl
  · with_reducible apply State.sbServe_only
    · exact hk.of rfl
    · assumption
    · with_reducible apply State.sbAnswer_only
      · exact hk.of rfl
      · assumption

theorem execReadSensor_only {ps : List Part} {q s : State} (hk : Within [.reg, .out] ps) (hq : OnlyChanges ps q s) (inst : Byte) (req : List Byte) : RunsOnly ps q (execReadSensor inst req s) := by
  unfold execReadSensor
  with_reducible apply RunsOnly.done
  · exact hk.of rfl
  · with_reducible apply State.sbServe_only
    · exact hk.of rfl
    · assumption
    · extract_lets +onlyGivenNames v1
      clear_value v1
      split
      · with_reducible apply State.sbAnswer_only
        · exact hk.of rfl
        · assumption
      · with_reducible refine OnlyChanges.ite ?_ ?_
        · with_reducible apply State.sbAnswer_only
          · exact hk.of rfl
          · assumption
        · with_reducible apply State.sbAnswer_only
          · exact hk.of rfl
          · assumption

theorem execReadReg_only {ps : List Part} {q s : State} (hk : Within [.reg, .out, .freeCtr] ps) (hq : OnlyChanges ps q s) (inst : Byte) (req : List Byte) : RunsOnly ps q (execReadReg inst req s) := by
  unfold execReadReg
  with_reducible apply RunsOnly.done
  · exact hk.of rfl
  · with_reducible apply State.sbServe_only
    · exact hk.of rfl
    · assumption
    · extract_lets +onlyGivenNames v1
      clear_value v1
      with_reducible refine OnlyChanges.ite ?_ ?_
      · with_reducible apply State.sbAnswer_only
        · exact hk.of rfl
        · assumption
      · extract_lets +onlyGivenNames v2
        have hv2 : OnlyChanges ps q v2.2 := by
          unfold v2
          with_reducible apply State.readReg_only
          · exact hk.of rfl
          · assumption
        clear_value v2
        with_reducible apply State.sbAnswer_only
        · exact hk.of rfl
        · assumption

theorem execWriteReg_only {ps : List Part} {q s : State} (hk : Within [.ts, .reg, .chans, .cqs, .accts, .gfe, .clus, .resvs, .pslots, .frames, .objs, .place, .streams, .xfers, .link, .host, .fab, .integ, .icnt, .sup, .sec, .out, .fences, .tests] ps) (hq : OnlyChanges ps q s) (inst : Byte) (req : List Byte) : RunsOnly ps q (execWriteReg inst req s) := by
  unfold execWriteReg
  with_reducible apply RunsOnly.done
  · exact hk.of rfl
  · with_reducible apply State.sbServe_only
    · exact hk.of rfl
    · assumption
    · extract_lets +onlyGivenNames v1
      clear_value v1
      with_reducible refine OnlyChanges.ite ?_ ?_
      · with_reducible apply State.sbAnswer_only
        · exact hk.of rfl
        · assumption
      · with_reducible apply State.sbAnswer_only
        · exact hk.of rfl
        · with_reducible apply State.writeReg_only
          · exact hk
          · assumption

theorem execReadLog_only {ps : List Part} {q s : State} (hk : Within [.reg, .out] ps) (hq : OnlyChanges ps q s) (inst : Byte) (req : List Byte) : RunsOnly ps q (execReadLog inst req s) := by
  unfold execReadLog
  with_reducible apply RunsOnly.done
  · exact hk.of rfl
  · with_reducible apply State.sbServe_only
    · exact hk.of rfl
    · assumption
    · extract_lets +onlyGivenNames v1
      clear_value v1
      extract_lets +onlyGivenNames v2
      clear_value v2
      with_reducible refine OnlyChanges.ite ?_ ?_
      · with_reducible apply State.sbAnswer_only
        · exact hk.of rfl
        · assumption
      · with_reducible apply State.sbAnswer_only
        · exact hk.of rfl
        · assumption

theorem execReadRetire_only {ps : List Part} {q s : State} (hk : Within [.reg, .out] ps) (hq : OnlyChanges ps q s) (inst : Byte) (req : List Byte) : RunsOnly ps q (execReadRetire inst req s) := by
  unfold execReadRetire
  with_reducible apply RunsOnly.done
  · exact hk.of rfl
  · with_reducible apply State.sbServe_only
    · exact hk.of rfl
    · assumption
    · extract_lets +onlyGivenNames v1
      clear_value v1
      extract_lets +onlyGivenNames v2
      clear_value v2
      with_reducible refine OnlyChanges.ite ?_ ?_
      · with_reducible apply State.sbAnswer_only
        · exact hk.of rfl
        · assumption
      · with_reducible apply State.sbAnswer_only
        · exact hk.of rfl
        · assumption

theorem execEraseRetire_only {ps : List Part} {q s : State} (hk : Within [.reg, .sb, .out] ps) (hq : OnlyChanges ps q s) (inst : Byte) (req : List Byte) : RunsOnly ps q (execEraseRetire inst req s) := by
  unfold execEraseRetire
  with_reducible apply RunsOnly.done
  · exact hk.of rfl
  · with_reducible apply State.sbServe_only
    · exact hk.of rfl
    · assumption
    · with_reducible refine OnlyChanges.ite ?_ ?_
      · with_reducible apply State.sbAnswer_only
        · exact hk.of rfl
        · assumption
      · with_reducible refine OnlyChanges.ite ?_ ?_
        · with_reducible apply State.sbAnswer_only
          · exact hk.of rfl
          · assumption
        · with_reducible refine OnlyChanges.ite ?_ ?_
          · with_reducible apply State.sbAnswer_only
            · exact hk.of rfl
            · assumption
          · with_reducible apply State.sbAnswer_only
            · exact hk.of rfl
            · with_reducible apply OnlyChanges.upd_sb
              · exact hk.of rfl
              · assumption

theorem execEraseComplete_only {ps : List Part} {q s : State} (hk : Within [.reg, .integ, .sb] ps) (hq : OnlyChanges ps q s) (ok : Bool) : RunsOnly ps q (execEraseComplete ok s) := by
  unfold execEraseComplete
  with_reducible apply RunsOnly.done
  · exact hk.of rfl
  · with_reducible refine OnlyChanges.ite ?_ ?_
    · assumption
    · with_reducible refine OnlyChanges.ite ?_ ?_
      · with_reducible apply OnlyChanges.upd_integ_sb
        · exact hk.of rfl
        · assumption
        · exact fun _ => rfl
      · with_reducible apply OnlyChanges.upd_sb
        · exact hk.of rfl
        · assumption

theorem execWarmReset_only {ps : List Part} {q s : State} (hk : Within [.reg, .sec, .out] ps) (hq : OnlyChanges ps q s) (inst : Byte) (req : List Byte) : RunsOnly ps q (execWarmReset inst req s) := by
  unfold execWarmReset
  with_reducible apply RunsOnly.done
  · exact hk.of rfl
  · with_reducible apply State.sbServe_only
    · exact hk.of rfl
    · assumption
    · with_reducible refine OnlyChanges.ite ?_ ?_
      · with_reducible apply State.sbAnswer_only
        · exact hk.of rfl
        · assumption
      · with_reducible refine OnlyChanges.ite ?_ ?_
        · with_reducible apply State.sbAnswer_only
          · exact hk.of rfl
          · assumption
        · with_reducible apply State.sbAnswer_only
          · exact hk.of rfl
          · with_reducible apply State.warmStart_only
            · exact hk.of rfl
            · assumption

theorem State.runCutoff_only {ps : List Part} {q s : State} (hk : Within [.clk, .reg, .chans, .cqs, .accts, .gfe, .clus, .resvs, .frames, .objs, .place, .host, .fab, .integ, .icnt, .sup, .out] ps) (hq : OnlyChanges ps q s) : OnlyChanges ps q (State.runCutoff s) := by
  unfold State.runCutoff
  with_reducible refine OnlyChanges.ite ?_ ?_
  · with_reducible apply State.cutoffWork_only
    · exact hk
    · with_reducible apply State.toCycle_only
      · exact hk
      · assumption
  · assumption

theorem execHostCommitCutoff_only {ps : List Part} {q s : State} (hk : Within [.clk, .reg, .chans, .cqs, .accts, .gfe, .clus, .resvs, .frames, .objs, .place, .host, .fab, .integ, .icnt, .sup, .out] ps) (hq : OnlyChanges ps q s) : RunsOnly ps q (execHostCommitCutoff s) := by
  unfold execHostCommitCutoff
  with_reducible apply RunsOnly.done
  · exact hk.of rfl
  · with_reducible refine OnlyChanges.ite ?_ ?_
    · assumption
    · with_reducible apply State.runCutoff_only
      · exact hk
      · assumption

theorem State.realignDone_only {ps : List Part} {q s : State} (hk : Within [.ts] ps) (hq : OnlyChanges ps q s) : OnlyChanges ps q (State.realignDone s) := by
  unfold State.realignDone
  with_reducible apply OnlyChanges.upd_ts
  · exact hk
  · assumption

theorem State.lengthen_only {ps : List Part} {q s : State} (hk : Within [.clk] ps) (hq : OnlyChanges ps q s) (k : Nat) : OnlyChanges ps q (State.lengthen s k) := by
  unfold State.lengthen
  with_reducible apply OnlyChanges.upd_clk
  · exact hk
  · assumption

theorem State.tryRealign_only {ps : List Part} {q s : State} (hk : Within [.clk, .ts, .reg, .host, .out] ps) (hq : OnlyChanges ps q s) : OnlyChanges ps q (State.tryRealign s) := by
  unfold State.tryRealign
  with_reducible refine OnlyChanges.ite ?_ ?_
  · assumption
  · with_reducible refine OnlyChanges.ite ?_ ?_
    · with_reducible apply State.realignDone_only
      · exact hk.of rfl
      · assumption
    · with_reducible apply State.raise_only
      · exact hk.of rfl
      · with_reducible apply State.lengthen_only
        · exact hk.of rfl
        · with_reducible apply State.realignDone_only
          · exact hk.of rfl
          · assumption

theorem State.killSweep_only {ps : List Part} {q s : State} (hk : Within [.reg, .chans, .cqs, .accts, .gfe, .clus, .resvs, .frames, .objs, .place, .host, .fab, .integ, .icnt, .sup, .out] ps) (hq : OnlyChanges ps q s) : OnlyChanges ps q (State.killSweep s) := by
  unfold State.killSweep
  extract_lets +onlyGivenNames v1
  have hv1 : OnlyChanges ps q v1 := by
    unfold v1
    with_reducible refine OnlyChanges.foldl ?_ ?_
    · assumption
    · intro x1 x2 x3
      with_reducible apply State.overrun_only
      · exact hk
      · assumption
  clear_value v1
  extract_lets +onlyGivenNames v2
  have hv2 : OnlyChanges ps q v2 := by
    unfold v2
    with_reducible refine OnlyChanges.foldl ?_ ?_
    · assumption
    · intro x4 x5 x6
      with_reducible apply State.overrunPair_only
      · exact hk
      · assumption
  clear_value v2
  with_reducible refine OnlyChanges.foldl ?_ ?_
  · assumption
  · intro x7 x8 x9
    with_reducible apply State.deferAll_only
    · exact hk.of rfl
    · assumption

theorem State.slotEvents_only {ps : List Part} {q s : State} (hk : Within [.reg, .host, .out] ps) (hq : OnlyChanges ps q s) (us : List (Nat × ScaleSlot × Nat × Bool × Bool)) : OnlyChanges ps q (State.slotEvents s us) := by
  unfold State.slotEvents
  extract_lets +onlyGivenNames v1
  have hv1 : OnlyChanges ps q v1 := by
    unfold v1
    with_reducible refine OnlyChanges.ite ?_ ?_
    · with_reducible apply State.raise_only
      · exact hk
      · assumption
    · assumption
  clear_value v1
  with_reducible refine OnlyChanges.ite ?_ ?_
  · with_reducible apply State.raise_only
    · exact hk
    · assumption
  · assumption

theorem State.stageScales_only {ps : List Part} {q s : State} (hk : Within [.gfe] ps) (hq : OnlyChanges ps q s) (n : Nat) : OnlyChanges ps q (State.stageScales s n) := by
  unfold State.stageScales
  with_reducible apply OnlyChanges.upd_gfe
  · exact hk
  · assumption
  · exact fun _ => rfl

theorem State.stagePatches_only {ps : List Part} {q s : State} (hk : Within [.gfe] ps) (hq : OnlyChanges ps q s) (busy : List Nat) (n : Nat) : OnlyChanges ps q (State.stagePatches s busy n) := by
  unfold State.stagePatches
  with_reducible apply OnlyChanges.upd_gfe
  · exact hk
  · assumption
  · exact fun _ => rfl

theorem State.applyPend_only {ps : List Part} {q s : State} (hk : Within [.reg, .scales] ps) (hq : OnlyChanges ps q s) (p : PendWrite) : OnlyChanges ps q (State.applyPend s p) := by
  unfold State.applyPend
  with_reducible refine OnlyChanges.ite ?_ ?_
  · with_reducible apply State.setScale_only
    · exact hk.of rfl
    · assumption
  · extract_lets +onlyGivenNames v1
    clear_value v1
    with_reducible apply OnlyChanges.upd_reg
    · exact hk.of rfl
    · assumption

theorem State.applyWrites_only {ps : List Part} {q s : State} (hk : Within [.reg, .scales] ps) (hq : OnlyChanges ps q s) (n : Nat) : OnlyChanges ps q (State.applyWrites s n) := by
  unfold State.applyWrites
  extract_lets +onlyGivenNames v1
  have hv1 : OnlyChanges ps q v1 := by
    unfold v1
    with_reducible refine OnlyChanges.foldl ?_ ?_
    · assumption
    · intro x2 x3 x4
      with_reducible apply State.applyPend_only
      · exact hk
      · assumption
  clear_value v1
  with_reducible apply OnlyChanges.upd_reg
  · exact hk.of rfl
  · assumption

theorem State.setHolds_only {ps : List Part} {q s : State} (hk : Within [.pslots] ps) (hq : OnlyChanges ps q s) (hs : List Nat) : OnlyChanges ps q (State.setHolds s hs) := by
  unfold State.setHolds
  with_reducible refine OnlyChanges.foldl ?_ ?_
  · assumption
  · intro x1 x2 x3
    with_reducible apply State.setPslot_only
    · exact hk
    · assumption

theorem State.takeFrees_only {ps : List Part} {q s : State} (hk : Within [.freeCtr] ps) (hq : OnlyChanges ps q s) (n : Nat) : OnlyChanges ps q (State.takeFrees n s).2 := by
  induction n generalizing s with
  | zero => exact hq
  | succ n ih => exact ih (State.takeFree_only (hk.of rfl) hq)

theorem State.nextView_only {ps : List Part} {q s : State} (hk : Within [.clk, .reg, .pslots, .scales, .sup] ps) (hq : OnlyChanges ps q s) : OnlyChanges ps q (State.nextView s) := by
  unfold State.nextView
  extract_lets +onlyGivenNames v1
  have hv1 : OnlyChanges ps q v1 := by
    unfold v1
    with_reducible apply State.applyWrites_only
    · exact hk.of rfl
    · assumption
  clear_value v1
  with_reducible apply State.setHolds_only
  · exact hk.of rfl
  · with_reducible apply OnlyChanges.upd_clk_sup
    · exact hk.of rfl
    · assumption

theorem State.stepEvents_only {ps : List Part} {q s : State} (hk : Within [.reg, .host, .out] ps) (hq : OnlyChanges ps q s) : OnlyChanges ps q (State.stepEvents s) := by
  unfold State.stepEvents
  extract_lets +onlyGivenNames v1
  have hv1 : OnlyChanges ps q v1 := by
    unfold v1
    with_reducible refine OnlyChanges.ite ?_ ?_
    · with_reducible apply State.raise_only
      · exact hk
      · assumption
    · with_reducible refine OnlyChanges.ite ?_ ?_
      · with_reducible apply State.supplyRelease_only
        · exact hk
        · assumption
      · assumption
  clear_value v1
  extract_lets +onlyGivenNames v2
  have hv2 : OnlyChanges ps q v2 := by
    unfold v2
    with_reducible refine OnlyChanges.ite ?_ ?_
    · with_reducible apply State.raise_only
      · exact hk
      · assumption
    · assumption
  clear_value v2
  with_reducible refine OnlyChanges.ite ?_ ?_
  · with_reducible apply State.raise_only
    · exact hk
    · assumption
  · assumption

theorem State.newWindow_only {ps : List Part} {q s : State} (hk : Within [.accts, .sup] ps) (hq : OnlyChanges ps q s) : OnlyChanges ps q (State.newWindow s) := by
  unfold State.newWindow
  with_reducible refine OnlyChanges.foldl ?_ ?_
  · with_reducible apply OnlyChanges.upd_sup
    · exact hk.of rfl
    · assumption
  · intro x1 x2 x3
    with_reducible apply State.setAcct_only
    · exact hk.of rfl
    · assumption

theorem State.boundarySteps_only {ps : List Part} {q s : State} (hk : Within [.reg, .gfe, .host, .out] ps) (hq : OnlyChanges ps q s) (busy : List Nat) (us : List (Nat × ScaleSlot × Nat × Bool × Bool)) : OnlyChanges ps q (State.boundarySteps s busy us) := by
  unfold State.boundarySteps
  with_reducible apply State.stepEvents_only
  · exact hk.of rfl
  · with_reducible apply State.stagePatches_only
    · exact hk.of rfl
    · with_reducible apply State.stageScales_only
      · exact hk.of rfl
      · with_reducible apply State.slotEvents_only
        · exact hk.of rfl
        · assumption

theorem State.putStaged_only {ps : List Part} {q s : State} (hk : Within [.clk, .staged] ps) (hq : OnlyChanges ps q s) (x : Staged) (len : Nat) : OnlyChanges ps q (State.putStaged s x len) := by
  unfold State.putStaged
  with_reducible apply OnlyChanges.upd_clk_staged
  · exact hk
  · assumption

theorem State.noteStretch_only {ps : List Part} {q s : State} (hk : Within [.reg, .host, .out] ps) (hq : OnlyChanges ps q s) (w : Nat) : OnlyChanges ps q (State.noteStretch s w) := by
  unfold State.noteStretch
  with_reducible refine OnlyChanges.ite ?_ ?_
  · with_reducible apply State.raise_only
    · exact hk
    · assumption
  · assumption

theorem State.boundaryWork_only {ps : List Part} {q s : State} (hk : Within [.clk, .reg, .accts, .pslots, .scales, .host, .sup, .staged, .out] ps) (hq : OnlyChanges ps q s) (us : List (Nat × ScaleSlot × Nat × Bool × Bool)) (dom : List Nat) : OnlyChanges ps q (State.boundaryWork s us dom) := by
  unfold State.boundaryWork
  extract_lets +onlyGivenNames v1
  clear_value v1
  with_reducible apply State.noteStretch_only
  · exact hk.of rfl
  · with_reducible apply State.newWindow_only
    · exact hk.of rfl
    · with_reducible apply State.putStaged_only
      · exact hk.of rfl
      · assumption

theorem State.guardWork_only {ps : List Part} {q s : State} (hk : Within [.clk, .ts, .reg, .chans, .cqs, .accts, .gfe, .clus, .resvs, .pslots, .scales, .frames, .objs, .place, .host, .fab, .integ, .icnt, .sup, .staged, .out, .freeCtr] ps) (hq : OnlyChanges ps q s) : OnlyChanges ps q (State.guardWork s) := by
  unfold State.guardWork
  extract_lets +onlyGivenNames v1
  clear_value v1
  extract_lets +onlyGivenNames v2
  have hv2 : OnlyChanges ps q v2.2 := by
    unfold v2
    with_reducible apply State.takeFrees_only
    · exact hk.of rfl
    · with_reducible apply State.boundarySteps_only
      · exact hk.of rfl
      · with_reducible apply State.killSweep_only
        · exact hk.of rfl
        · assumption
  clear_value v2
  with_reducible apply State.tickStage_only
  · exact hk.of rfl
  · with_reducible apply State.tryRealign_only
    · exact hk.of rfl
    · with_reducible apply State.boundaryWork_only
      · exact hk.of rfl
      · assumption

theorem State.runGuard_only {ps : List Part} {q s : State} (hk : Within [.clk, .ts, .reg, .chans, .cqs, .accts, .gfe, .clus, .resvs, .pslots, .scales, .frames, .objs, .place, .host, .fab, .integ, .icnt, .sup, .staged, .out, .freeCtr] ps) (hq : OnlyChanges ps q s) : OnlyChanges ps q (State.runGuard s) := by
  unfold State.runGuard
  extract_lets +onlyGivenNames v1
  have hv1 : OnlyChanges ps q v1 := by
    unfold v1
    with_reducible apply State.runCutoff_only
    · exact hk.of rfl
    · assumption
  clear_value v1
  with_reducible refine OnlyChanges.ite ?_ ?_
  · with_reducible apply State.guardWork_only
    · exact hk
    · with_reducible apply State.toCycle_only
      · exact hk.of rfl
      · assumption
  · assumption

theorem execGuardBandBegin_only {ps : List Part} {q s : State} (hk : Within [.clk, .ts, .reg, .chans, .cqs, .accts, .gfe, .clus, .resvs, .pslots, .scales, .frames, .objs, .place, .host, .fab, .integ, .icnt, .sup, .staged, .out, .freeCtr] ps) (hq : OnlyChanges ps q s) : RunsOnly ps q (execGuardBandBegin s) := by
  unfold execGuardBandBegin
  with_reducible apply RunsOnly.done
  · exact hk.of rfl
  · with_reducible refine OnlyChanges.ite ?_ ?_
    · assumption
    · with_reducible apply State.runGuard_only
      · exact hk
      · assumption

theorem State.bookEnergy_only {ps : List Part} {q s : State} (hk : Within [.accts] ps) (hq : OnlyChanges ps q s) (x : Staged) : OnlyChanges ps q (State.bookEnergy s x) := by
  unfold State.bookEnergy
  extract_lets +onlyGivenNames v1
  have hv1 : OnlyChanges ps q v1 := by
    unfold v1
    with_reducible refine OnlyChanges.foldl ?_ ?_
    · assumption
    · intro x2 x3 x4
      with_reducible apply State.setAcct_only
      · exact hk
      · assumption
  clear_value v1
  with_reducible refine OnlyChanges.foldl ?_ ?_
  · assumption
  · intro x5 x6 x7
    with_reducible apply State.setAcct_only
    · exact hk
    · assumption

theorem State.showStaged_only {ps : List Part} {q s : State} (hk : Within [.reg, .accts, .pslots, .scales, .sup, .mon] ps) (hq : OnlyChanges ps q s) (x : Staged) : OnlyChanges ps q (State.showStaged s x) := by
  unfold State.showStaged
  extract_lets +onlyGivenNames v1
  have hv1 : OnlyChanges ps q v1 := by
    unfold v1
    with_reducible refine OnlyChanges.foldl ?_ ?_
    · assumption
    · intro x2 x3 x4
      with_reducible apply State.setScale_only
      · exact hk.of rfl
      · assumption
  clear_value v1
  extract_lets +onlyGivenNames v5
  have hv5 : OnlyChanges ps q v5 := by
    unfold v5
    with_reducible refine OnlyChanges.foldl ?_ ?_
    · assumption
    · intro x6 x7 x8
      with_reducible apply State.regPut_only
      · exact hk.of rfl
      · assumption
  clear_value v5
  extract_lets +onlyGivenNames v9
  clear_value v9
  extract_lets +onlyGivenNames v10
  clear_value v10
  extract_lets +onlyGivenNames v11
  clear_value v11
  extract_lets +onlyGivenNames v12
  have hv12 : OnlyChanges ps q v12 := by
    unfold v12
    with_reducible apply OnlyChanges.upd_sup_mon
    · exact hk.of rfl
    · assumption
  clear_value v12
  with_reducible apply State.bookEnergy_only
  · exact hk.of rfl
  · with_reducible apply State.setHolds_only
    · exact hk.of rfl
    · assumption

theorem State.domainEdge_only {ps : List Part} {q s : State} (hk : Within [.reg, .host, .mon, .out] ps) (hq : OnlyChanges ps q s) : OnlyChanges ps q (State.domainEdge s) := by
  unfold State.domainEdge
  extract_lets +onlyGivenNames v1
  clear_value v1
  extract_lets +onlyGivenNames v2
  clear_value v2
  extract_lets +onlyGivenNames v3
  have hv3 : OnlyChanges ps q v3 := by
    unfold v3
    with_reducible apply OnlyChanges.upd_mon
    · exact hk.of rfl
    · assumption
  clear_value v3
  with_reducible refine OnlyChanges.ite ?_ ?_
  · with_reducible apply State.raise_only
    · exact hk.of rfl
    · assumption
  · assumption

theorem State.turn_only {ps : List Part} {q s : State} (hk : Within [.clk, .staged] ps) (hq : OnlyChanges ps q s) : OnlyChanges ps q (State.turn s) := by
  unfold State.turn
  with_reducible apply OnlyChanges.upd_clk_staged
  · exact hk
  · assumption

theorem State.takePeriod_only {ps : List Part} {q s : State} (hk : Within [.clk] ps) (hq : OnlyChanges ps q s) : OnlyChanges ps q (State.takePeriod s) := by
  unfold State.takePeriod
  extract_lets +onlyGivenNames v1
  clear_value v1
  with_reducible apply OnlyChanges.upd_clk
  · exact hk
  · assumption

theorem State.scaleEdge_only {ps : List Part} {q s : State} (hk : Within [.reg, .gfe, .scales] ps) (hq : OnlyChanges ps q s) : OnlyChanges ps q (State.scaleEdge s) := by
  unfold State.scaleEdge
  extract_lets +onlyGivenNames v1
  clear_value v1
  extract_lets +onlyGivenNames v2
  have hv2 : OnlyChanges ps q v2 := by
    unfold v2
    with_reducible refine OnlyChanges.foldl ?_ ?_
    · assumption
    · intro x3 x4 x5
      with_reducible apply State.applyScaleSet_only
      · exact hk.of rfl
      · assumption
  clear_value v2
  with_reducible apply OnlyChanges.upd_gfe
  · exact hk.of rfl
  · assumption
  · exact fun _ => rfl

theorem State.poolEdge_only {ps : List Part} {q s : State} (hk : Within [.reg, .objs, .host, .out] ps) (hq : OnlyChanges ps q s) (h : Nat) : OnlyChanges ps q (State.poolEdge s h) := by
  unfold State.poolEdge
  split
  · assumption
  · extract_lets +onlyGivenNames v1
    clear_value v1
    extract_lets +onlyGivenNames v2
    clear_value v2
    extract_lets +onlyGivenNames v3
    clear_value v3
    extract_lets +onlyGivenNames v4
    have hv4 : OnlyChanges ps q v4 := by
      unfold v4
      with_reducible apply State.setObj_only
      · exact hk.of rfl
      · assumption
    clear_value v4
    with_reducible refine OnlyChanges.ite ?_ ?_
    · with_reducible apply State.raise_only
      · exact hk.of rfl
      · assumption
    · assumption

theorem State.ctxEdge_only {ps : List Part} {q s : State} (hk : Within [.chans, .gfe, .host, .out] ps) (hq : OnlyChanges ps q s) (ids : List Nat) : OnlyChanges ps q (State.ctxEdge s ids) := by
  unfold State.ctxEdge
  extract_lets +onlyGivenNames v1
  extract_lets +onlyGivenNames v2
  have hv2 : OnlyChanges ps q v2 := by
    unfold v2
    with_reducible apply OnlyChanges.upd_gfe
    · exact hk.of rfl
    · assumption
    · exact fun _ => rfl
  clear_value v2
  with_reducible apply State.grantCtxs_only
  · exact hk
  · assumption

theorem State.recordEdge_only {ps : List Part} {q s : State} (hk : Within [.cqs, .gfe, .host, .fab, .out] ps) (hq : OnlyChanges ps q s) : OnlyChanges ps q (State.recordEdge s) := by
  unfold State.recordEdge
  extract_lets +onlyGivenNames v1
  clear_value v1
  extract_lets +onlyGivenNames v2
  have hv2 : OnlyChanges ps q v2 := by
    unfold v2
    with_reducible apply State.egress_only
    · exact hk.of rfl
    · with_reducible refine OnlyChanges.foldl ?_ ?_
      · with_reducible apply OnlyChanges.upd_fab
        · exact hk.of rfl
        · assumption
      · intro x1 x2 x3
        with_reducible apply State.sendBatch_only
        · exact hk.of rfl
        · assumption
  clear_value v2
  with_reducible refine OnlyChanges.foldl ?_ ?_
  · assumption
  · intro x4 x5 x6
    with_reducible apply State.recordFlush_only
    · exact hk.of rfl
    · assumption

theorem State.tsEdge_only {ps : List Part} {q s : State} (hk : Within [.ts, .reg, .host, .out] ps) (hq : OnlyChanges ps q s) (corr : Int) (stretch : Nat) : OnlyChanges ps q (State.tsEdge s corr stretch) := by
  unfold State.tsEdge
  split
  · with_reducible apply State.tsControl_only
    · exact hk
    · with_reducible apply OnlyChanges.upd_ts
      · exact hk.of rfl
      · assumption
  · extract_lets +onlyGivenNames v1
    clear_value v1
    extract_lets +onlyGivenNames v2
    clear_value v2
    extract_lets +onlyGivenNames v3
    have hv3 : OnlyChanges ps q v3 := by
      unfold v3
      with_reducible apply OnlyChanges.upd_ts
      · exact hk.of rfl
      · assumption
    clear_value v3
    with_reducible refine OnlyChanges.ite ?_ ?_
    · with_reducible refine OnlyChanges.ite ?_ ?_
      · with_reducible refine OnlyChanges.ite ?_ ?_
        · with_reducible apply State.enterTs_only
          · exact hk
          · assumption
        · with_reducible apply OnlyChanges.upd_ts
          · exact hk.of rfl
          · assumption
      · with_reducible apply OnlyChanges.upd_ts
        · exact hk.of rfl
        · assumption
    · with_reducible refine OnlyChanges.ite ?_ ?_
      · with_reducible apply State.enterTs_only
        · exact hk
        · assumption
      · assumption

theorem State.cluEdge_only {ps : List Part} {q s : State} (hk : Within [.clus] ps) (hq : OnlyChanges ps q s) : OnlyChanges ps q (State.cluEdge s) := by
  unfold State.cluEdge
  with_reducible refine OnlyChanges.foldl ?_ ?_
  · assumption
  · intro x1 x2 x3
    with_reducible apply State.setClu_only
    · exact hk
    · assumption

theorem State.nextTick_only {ps : List Part} {q s : State} (hk : Within [.clk, .reg, .accts, .gfe, .pslots, .scales, .sup, .mon, .staged] ps) (hq : OnlyChanges ps q s) (x : Staged) : OnlyChanges ps q (State.nextTick s x) := by
  unfold State.nextTick
  with_reducible apply State.takePeriod_only
  · exact hk.of rfl
  · with_reducible apply State.turn_only
    · exact hk.of rfl
    · with_reducible apply State.applyWrites_only
      · exact hk.of rfl
      · with_reducible apply State.scaleEdge_only
        · exact hk.of rfl
        · with_reducible apply State.showStaged_only
          · exact hk.of rfl
          · assumption

theorem State.visible_only {ps : List Part} {q s : State} (hk : Within [.clk, .ts, .reg, .chans, .cqs, .accts, .gfe, .clus, .pslots, .scales, .mem, .frames, .objs, .place, .host, .fab, .integ, .icnt, .sup, .mon, .staged, .out] ps) (hq : OnlyChanges ps q s) (x : Staged) : OnlyChanges ps q (State.visible s x) := by
  unfold State.visible
  extract_lets +onlyGivenNames v1
  have hv1 : OnlyChanges ps q v1 := by
    unfold v1
    with_reducible apply State.cluEdge_only
    · exact hk.of rfl
    · with_reducible apply State.domainEdge_only
      · exact hk.of rfl
      · with_reducible apply State.nextTick_only
        · exact hk.of rfl
        · assumption
  clear_value v1
  with_reducible apply State.endScaleSets_only
  · exact hk.of rfl
  · with_reducible apply State.showPatches_only
    · exact hk.of rfl
    · with_reducible apply State.tsEdge_only
      · exact hk.of rfl
      · with_reducible refine OnlyChanges.ite ?_ ?_
        · with_reducible apply State.moveFlows_only
          · exact hk.of rfl
          · assumption
        · assumption

theorem State.edgeWork_only {ps : List Part} {q s : State} (hk : Within [.clk, .ts, .reg, .chans, .cqs, .accts, .gfe, .clus, .resvs, .pslots, .scales, .mem, .frames, .objs, .place, .streams, .xfers, .host, .fab, .integ, .icnt, .sup, .mon, .staged, .out, .tests, .memWait] ps) (hq : OnlyChanges ps q s) : OnlyChanges ps q (State.edgeWork s) := by
  unfold State.edgeWork
  split
  · assumption
  · extract_lets +onlyGivenNames v1
    have hv1 : OnlyChanges ps q v1 := by
      unfold v1
      with_reducible apply State.visible_only
      · exact hk.of rfl
      · assumption
    clear_value v1
    extract_lets +onlyGivenNames v2
    have hv2 : OnlyChanges ps q v2 := by
      unfold v2
      with_reducible refine OnlyChanges.foldl ?_ ?_
      · assumption
      · intro x1 x2 x3
        with_reducible apply State.poolEdge_only
        · exact hk.of rfl
        · assumption
    clear_value v2
    extract_lets +onlyGivenNames v3
    have hv3 : OnlyChanges ps q v3 := by
      unfold v3
      with_reducible apply State.tidy_only
      · exact hk.of rfl
      · with_reducible apply State.destroyOrphans_only
        · exact hk.of rfl
        · with_reducible apply State.testEdge_only
          · exact hk.of rfl
          · with_reducible apply State.syncTargets_only
            · exact hk.of rfl
            · with_reducible apply State.recordEdge_only
              · exact hk.of rfl
              · with_reducible apply State.ctxEdge_only
                · exact hk.of rfl
                · assumption
    clear_value v3
    with_reducible apply State.settleMem_only
    · exact hk.of rfl
    · with_reducible apply State.issueLaunches_only
      · exact hk.of rfl
      · assumption

theorem State.runEdge_only {ps : List Part} {q s : State} (hk : Within [.clk, .ts, .reg, .chans, .cqs, .accts, .gfe, .clus, .resvs, .pslots, .scales, .mem, .frames, .objs, .place, .streams, .xfers, .host, .fab, .integ, .icnt, .sup, .mon, .staged, .out, .freeCtr, .tests, .memWait] ps) (hq : OnlyChanges ps q s) : OnlyChanges ps q (State.runEdge s) := by
  unfold State.runEdge
  extract_lets +onlyGivenNames v1
  have hv1 : OnlyChanges ps q v1 := by
    unfold v1
    with_reducible apply State.tryRealign_only
    · exact hk.of rfl
    · with_reducible apply State.runGuard_only
      · exact hk.of rfl
      · assumption
  clear_value v1
  with_reducible apply State.edgeWork_only
  · exact hk.of rfl
  · with_reducible apply State.toCycle_only
    · exact hk.of rfl
    · assumption

theorem execTickEdge_only {ps : List Part} {q s : State} (hk : Within [.clk, .ts, .reg, .chans, .cqs, .accts, .gfe, .clus, .resvs, .pslots, .scales, .mem, .frames, .objs, .place, .streams, .xfers, .host, .fab, .integ, .icnt, .sup, .mon, .staged, .out, .freeCtr, .tests, .memWait] ps) (hq : OnlyChanges ps q s) : RunsOnly ps q (execTickEdge s) := by
  unfold execTickEdge
  with_reducible apply RunsOnly.done
  · exact hk.of rfl
  · with_reducible refine OnlyChanges.ite ?_ ?_
    · assumption
    · with_reducible apply State.runEdge_only
      · exact hk
      · assumption

theorem State.idle_only {ps : List Part} {q s : State} (hk : Within [.clk, .ts, .reg, .chans, .cqs, .accts, .gfe, .clus, .resvs, .pslots, .scales, .mem, .frames, .objs, .place, .streams, .xfers, .host, .fab, .integ, .icnt, .sup, .mon, .staged, .out, .freeCtr, .tests, .memWait] ps) (hq : OnlyChanges ps q s) : OnlyChanges ps q (State.idle s) := by
  unfold State.idle
  with_reducible refine OnlyChanges.ite ?_ ?_
  · assumption
  · extract_lets +onlyGivenNames v1
    clear_value v1
    extract_lets +onlyGivenNames v2
    have hv2 : OnlyChanges ps q v2 := by
      unfold v2
      with_reducible apply State.toCycle_only
      · exact hk.of rfl
      · assumption
    clear_value v2
    extract_lets +onlyGivenNames v3
    have hv3 : OnlyChanges ps q v3 := by
      unfold v3
      with_reducible apply State.tryRealign_only
      · exact hk.of rfl
      · assumption
    clear_value v3
    extract_lets +onlyGivenNames v4
    have hv4 : OnlyChanges ps q v4 := by
      unfold v4
      split
      · with_reducible refine OnlyChanges.ite ?_ ?_
        · with_reducible apply State.cutoffWork_only
          · exact hk.of rfl
          · assumption
        · assumption
      · with_reducible refine OnlyChanges.ite ?_ ?_
        · with_reducible apply State.guardWork_only
          · exact hk.of rfl
          · assumption
        · assumption
      · with_reducible refine OnlyChanges.ite ?_ ?_
        · assumption
        · with_reducible refine OnlyChanges.ite ?_ ?_
          · assumption
          · with_reducible apply State.edgeWork_only
            · exact hk.of rfl
            · assumption
    clear_value v4
    with_reducible apply State.endStep_only
    · exact hk.of rfl
    · assumption

end Sys2Proof.Machine
end

