-- ==== Sys2Proof/Laws/Memory.lean ====
section
/-! SUPPORT. What the operations over memory and over sparse maps do: they keep the canonical form, a read after a write at
the same address gives what was written, and every other address reads as before. -/

namespace Sys2Proof.Machine

/-! ## Sparse maps -/

/-- A map above one key is above every lower bound that the key exceeds. -/
theorem Sparse.wfAbove_mono {α : Type} [DecidableEq α] {d : Nat → α} {lo : Option Nat} {x : Nat} :
    ∀ {m : List (Nat × α)}, Sparse.wfAbove d (some x) m = true → (∀ l, lo = some l → l ≤ x) → Sparse.wfAbove d lo m = true
  | [], _, _ => by simp [Sparse.wfAbove]
  | (k, v) :: t, h, hl => by
    cases lo with
    | none => simp_all [Sparse.wfAbove]
    | some l =>
      have := hl l rfl
      simp only [Sparse.wfAbove, Bool.and_eq_true, decide_eq_true_eq] at h ⊢
      exact ⟨⟨by omega, h.1.2⟩, h.2⟩

/-- Keys at or below the lower bound of a map are not listed. -/
theorem Sparse.get_below {α : Type} [DecidableEq α] {d : Nat → α} {x : Nat} :
    ∀ {m : List (Nat × α)} {k : Nat}, Sparse.wfAbove d (some x) m = true → k ≤ x → Sparse.get d m k = d k
  | [], k, _, _ => rfl
  | (y, v) :: t, k, h, hk => by
    simp only [Sparse.wfAbove, Bool.and_eq_true, decide_eq_true_eq] at h
    have hne : y ≠ k := by omega
    simp only [Sparse.get, hne, if_false]
    exact Sparse.get_below h.2 (by omega)

/-- A write keeps the canonical form above a bound that the key exceeds. -/
theorem Sparse.wfAbove_put {α : Type} [DecidableEq α] {d : Nat → α} {k : Nat} {v : α} :
    ∀ {m : List (Nat × α)} {lo : Option Nat}, Sparse.wfAbove d lo m = true → (∀ l, lo = some l → l < k) →
      Sparse.wfAbove d lo (Sparse.put d m k v) = true
  | [], lo, _, hl => by
    unfold Sparse.put
    split
    · rfl
    · cases lo with
      | none => simp_all [Sparse.wfAbove]
      | some l => simp_all [Sparse.wfAbove]
  | (x, w) :: t, lo, h, hl => by
    unfold Sparse.put
    have h' := h
    simp only [Sparse.wfAbove, Bool.and_eq_true, decide_eq_true_eq] at h
    obtain ⟨⟨h1, h2⟩, h3⟩ := h
    split
    · split
      · exact h'
      · rename_i hkx hv
        simp only [Sparse.wfAbove, Bool.and_eq_true, decide_eq_true_eq]
        refine ⟨⟨?_, hv⟩, ⟨hkx, h2⟩, h3⟩
        cases lo with
        | none => rfl
        | some l => simpa using hl l rfl
    · split
      · rename_i hxk
        subst hxk
        split
        · exact Sparse.wfAbove_mono h3 (fun l e => Nat.le_of_lt (hl l e))
        · rename_i hv
          simp only [Sparse.wfAbove, Bool.and_eq_true, decide_eq_true_eq]
          exact ⟨⟨h1, hv⟩, h3⟩
      · simp only [Sparse.wfAbove, Bool.and_eq_true, decide_eq_true_eq]
        refine ⟨⟨h1, h2⟩, Sparse.wfAbove_put h3 ?_⟩
        intro l e
        cases e
        omega

/-- A write keeps the canonical form. -/
theorem Sparse.wf_put {α : Type} [DecidableEq α] {d : Nat → α} {m : List (Nat × α)} (h : Sparse.wf d m = true) (k : Nat) (v : α) :
    Sparse.wf d (Sparse.put d m k v) = true := Sparse.wfAbove_put h (fun _ e => nomatch e)

/-- A read after a write gives what was written. -/
theorem Sparse.get_put_self {α : Type} [DecidableEq α] {d : Nat → α} {k : Nat} {v : α} :
    ∀ {m : List (Nat × α)} {lo : Option Nat}, Sparse.wfAbove d lo m = true → Sparse.get d (Sparse.put d m k v) k = v
  | [], _, _ => by
    unfold Sparse.put
    split
    · rename_i h; simp [Sparse.get, h]
    · simp [Sparse.get]
  | (x, w) :: t, lo, h => by
    simp only [Sparse.wfAbove, Bool.and_eq_true, decide_eq_true_eq] at h
    unfold Sparse.put
    split
    · rename_i hkx
      split
      · rename_i hv
        have hne : x ≠ k := by omega
        simp only [Sparse.get, hne, if_false]
        rw [Sparse.get_below h.2 (Nat.le_of_lt hkx), hv]
      · simp [Sparse.get]
    · split
      · rename_i hxk
        split
        · rename_i hv
          rw [Sparse.get_below h.2 (by omega), hv]
        · simp [Sparse.get]
      · rename_i hne
        simp only [Sparse.get, hne, if_false]
        exact Sparse.get_put_self h.2

/-- A write leaves every other key alone. -/
theorem Sparse.get_put_other {α : Type} [DecidableEq α] {d : Nat → α} {k j : Nat} {v : α} (hj : j ≠ k) :
    ∀ {m : List (Nat × α)}, Sparse.get d (Sparse.put d m k v) j = Sparse.get d m j
  | [] => by
    unfold Sparse.put
    split
    · rfl
    · simp [Sparse.get, Ne.symm hj]
  | (x, w) :: t => by
    unfold Sparse.put
    split
    · split
      · rfl
      · simp [Sparse.get, Ne.symm hj]
    · split
      · rename_i hxk
        subst hxk
        split
        · simp [Sparse.get, Ne.symm hj]
        · simp [Sparse.get, Ne.symm hj]
      · simp only [Sparse.get]
        rw [Sparse.get_put_other hj]

/-- A read after a write at any key, of a map in canonical form. -/
theorem Sparse.get_put {α : Type} [DecidableEq α] {d : Nat → α} {m : List (Nat × α)} (h : Sparse.wf d m = true) (k j : Nat) (v : α) :
    Sparse.get d (Sparse.put d m k v) j = if j = k then v else Sparse.get d m j := by
  split
  · rename_i e; subst e; exact Sparse.get_put_self h
  · rename_i e; exact Sparse.get_put_other e

/-- A lookup after an insertion at the same key. -/
theorem Sparse.find?_insert_self {α : Type} {k : Nat} {v : α} : ∀ {m : List (Nat × α)}, Sparse.find? (Sparse.insert m k v) k = some v
  | [] => by simp [Sparse.insert, Sparse.find?]
  | (x, w) :: t => by
    unfold Sparse.insert
    split
    · simp [Sparse.find?]
    · split
      · simp [Sparse.find?]
      · rename_i h
        simp only [Sparse.find?, h, if_false]
        exact Sparse.find?_insert_self

/-- An insertion leaves every other key alone. -/
theorem Sparse.find?_insert_other {α : Type} {k j : Nat} {v : α} (hj : j ≠ k) :
    ∀ {m : List (Nat × α)}, Sparse.find? (Sparse.insert m k v) j = Sparse.find? m j
  | [] => by simp [Sparse.insert, Sparse.find?, Ne.symm hj]
  | (x, w) :: t => by
    unfold Sparse.insert
    split
    · simp [Sparse.find?, Ne.symm hj]
    · split
      · rename_i h
        subst h
        simp [Sparse.find?, Ne.symm hj]
      · simp only [Sparse.find?]
        rw [Sparse.find?_insert_other hj]

/-- The keys of an insertion are the key and the keys before. -/
theorem Sparse.mem_insert {α : Type} {k j : Nat} {v : α} : ∀ {m : List (Nat × α)}, j ∈ (Sparse.insert m k v).map Prod.fst →
    j = k ∨ j ∈ m.map Prod.fst
  | [], h => by simpa [Sparse.insert] using h
  | (x, w) :: t, h => by
    unfold Sparse.insert at h
    split at h
    · simpa using h
    · split at h
      · rename_i e
        rcases List.mem_cons.mp h with h | h
        · exact .inl h
        · exact .inr (List.mem_cons_of_mem _ h)
      · rcases List.mem_cons.mp h with h | h
        · exact .inr (by rw [h]; exact List.mem_cons_self)
        · rcases Sparse.mem_insert h with h | h
          · exact .inl h
          · exact .inr (List.mem_cons_of_mem _ h)

/-- An insertion keeps the keys rising. -/
theorem Sparse.rising_insert {α : Type} {k : Nat} {v : α} : ∀ {m : List (Nat × α)}, (m.map Prod.fst).Pairwise (· < ·) →
    ((Sparse.insert m k v).map Prod.fst).Pairwise (· < ·)
  | [], _ => by simp [Sparse.insert]
  | (x, w) :: t, h => by
    have h1 := List.pairwise_cons.mp (show List.Pairwise (· < ·) (x :: t.map Prod.fst) from h)
    unfold Sparse.insert
    split
    · rename_i hk
      show List.Pairwise (· < ·) (k :: x :: t.map Prod.fst)
      refine List.pairwise_cons.mpr ⟨fun j hj => ?_, h⟩
      rcases List.mem_cons.mp hj with hj | hj
      · omega
      · have := h1.1 j hj; omega
    · split
      · rename_i e
        subst e
        exact h
      · rename_i h2 h3
        show List.Pairwise (· < ·) (x :: (Sparse.insert t k v).map Prod.fst)
        refine List.pairwise_cons.mpr ⟨fun j hj => ?_, Sparse.rising_insert h1.2⟩
        rcases Sparse.mem_insert hj with e | hj
        · omega
        · exact h1.1 j hj

/-- The keys after a removal were keys before. -/
theorem Sparse.mem_erase {α : Type} {k j : Nat} : ∀ {m : List (Nat × α)}, j ∈ (Sparse.erase m k).map Prod.fst → j ∈ m.map Prod.fst
  | [], h => h
  | (x, w) :: t, h => by
    unfold Sparse.erase at h
    split at h
    · exact List.mem_cons_of_mem _ h
    · rcases List.mem_cons.mp h with h | h
      · rw [h]; exact List.mem_cons_self
      · exact List.mem_cons_of_mem _ (Sparse.mem_erase h)

/-- A removal keeps the keys rising. -/
theorem Sparse.rising_erase {α : Type} {k : Nat} : ∀ {m : List (Nat × α)}, (m.map Prod.fst).Pairwise (· < ·) →
    ((Sparse.erase m k).map Prod.fst).Pairwise (· < ·)
  | [], _ => by simp [Sparse.erase]
  | (x, w) :: t, h => by
    have h1 := List.pairwise_cons.mp (show List.Pairwise (· < ·) (x :: t.map Prod.fst) from h)
    unfold Sparse.erase
    split
    · exact h1.2
    · show List.Pairwise (· < ·) (x :: (Sparse.erase t k).map Prod.fst)
      exact List.pairwise_cons.mpr ⟨fun j hj => h1.1 j (Sparse.mem_erase hj), Sparse.rising_erase h1.2⟩

/-- A key that is not listed is not found. -/
theorem Sparse.find?_none {α : Type} {k : Nat} : ∀ {m : List (Nat × α)}, k ∉ m.map Prod.fst → Sparse.find? m k = none
  | [], _ => rfl
  | (x, w) :: t, h => by
    have h1 : x ≠ k := fun e => h (by rw [← e]; exact List.mem_cons_self)
    simp only [Sparse.find?, h1, if_false]
    exact Sparse.find?_none (fun e => h (List.mem_cons_of_mem _ e))

/-- A removed key is not found, where the keys rise. -/
theorem Sparse.find?_erase_self {α : Type} {k : Nat} : ∀ {m : List (Nat × α)}, (m.map Prod.fst).Pairwise (· < ·) →
    Sparse.find? (Sparse.erase m k) k = none
  | [], _ => rfl
  | (x, w) :: t, h => by
    have h1 := List.pairwise_cons.mp (show List.Pairwise (· < ·) (x :: t.map Prod.fst) from h)
    unfold Sparse.erase
    split
    · rename_i e
      subst e
      exact Sparse.find?_none (fun hx => Nat.lt_irrefl _ (h1.1 _ hx))
    · rename_i h3
      simp only [Sparse.find?, h3, if_false]
      exact Sparse.find?_erase_self h1.2

/-- Forgetting entries keeps the canonical form. -/
theorem Sparse.wfAbove_filter {α : Type} [DecidableEq α] {d : Nat → α} {p : Nat × α → Bool} :
    ∀ {m : List (Nat × α)} {lo : Option Nat}, Sparse.wfAbove d lo m = true → Sparse.wfAbove d lo (m.filter p) = true
  | [], _, _ => by simp [Sparse.wfAbove]
  | (x, v) :: t, lo, h => by
    simp only [Sparse.wfAbove, Bool.and_eq_true, decide_eq_true_eq] at h
    simp only [List.filter_cons]
    split
    · simp only [Sparse.wfAbove, Bool.and_eq_true, decide_eq_true_eq]
      exact ⟨h.1, Sparse.wfAbove_filter h.2⟩
    · refine Sparse.wfAbove_mono (Sparse.wfAbove_filter h.2) ?_
      intro l e
      subst e
      have := h.1.1
      simp at this
      omega

/-! ## Memory -/

/-- A change of values that keeps the keys, and makes no value the default, keeps the canonical form. -/
theorem Sparse.wfAbove_map {α : Type} [DecidableEq α] {d : Nat → α} {f : Nat × α → Nat × α} (hk : ∀ x, (f x).1 = x.1)
    (hd : ∀ x, x.2 ≠ d x.1 → (f x).2 ≠ d x.1) :
    ∀ {m : List (Nat × α)} {lo : Option Nat}, Sparse.wfAbove d lo m = true → Sparse.wfAbove d lo (m.map f) = true
  | [], _, _ => by simp [Sparse.wfAbove]
  | x :: t, lo, h => by
    have hx : f x = (x.1, (f x).2) := by rw [← hk x]
    rw [List.map_cons, hx]
    obtain ⟨k, v⟩ := x
    simp only [Sparse.wfAbove, Bool.and_eq_true, decide_eq_true_eq] at h ⊢
    exact ⟨⟨h.1.1, hd _ h.1.2⟩, Sparse.wfAbove_map hk hd h.2⟩

/-- What is listed from an address on, below a bound. -/
theorem wfAbove_cellsFrom {e : Nat} : ∀ {m : List Host.Cell} {lo : Option Nat}, Sparse.wfAbove memDefault lo m = true →
    ∀ b, (∀ l, b = some l → l < e) → Sparse.wfAbove memDefault b (cellsFrom e m) = true
  | [], _, _, _, _ => by simp [cellsFrom, Sparse.wfAbove]
  | (k, v) :: t, lo, h, b, hb => by
    simp only [Sparse.wfAbove, Bool.and_eq_true, decide_eq_true_eq] at h
    unfold cellsFrom
    split
    · exact wfAbove_cellsFrom h.2 b hb
    · simp only [Sparse.wfAbove, Bool.and_eq_true, decide_eq_true_eq]
      refine ⟨⟨?_, h.1.2⟩, h.2⟩
      cases b with
      | none => rfl
      | some l => have := hb l rfl; simp; omega

/-- Bytes as cells, followed by cells beyond them, are in canonical form. -/
theorem wfAbove_byteCells : ∀ (bs : List Byte) (a : Nat) (t : List Host.Cell) (b : Option Nat), (∀ l, b = some l → l < a) →
    (∀ c, (∀ l, c = some l → l < a + bs.length) → Sparse.wfAbove memDefault c t = true) →
    Sparse.wfAbove memDefault b (byteCells a bs ++ t) = true
  | [], a, t, b, hb, ht => by simpa [byteCells] using ht b (by simpa using hb)
  | x :: bs, a, t, b, hb, ht => by
    have ih := fun c hc => wfAbove_byteCells bs (a + 1) t c hc (fun c' hc' => ht c' (fun l e => by
      have := hc' l e; simp only [List.length_cons]; omega))
    unfold byteCells
    split
    · exact ih b (fun l e => by have := hb l e; omega)
    · rename_i hx
      simp only [List.cons_append, Sparse.wfAbove, Bool.and_eq_true, decide_eq_true_eq]
      refine ⟨⟨?_, hx⟩, ih (some a) (fun l e => by cases e; omega)⟩
      cases b with
      | none => rfl
      | some l => simpa using hb l rfl

/-- A write of bytes keeps the canonical form. -/
theorem wfAbove_memPut {a e : Nat} {bs : List Byte} (he : e = a + bs.length) :
    ∀ {m : List Host.Cell} {lo : Option Nat}, Sparse.wfAbove memDefault lo m = true → (∀ l, lo = some l → l < a) →
      Sparse.wfAbove memDefault lo (memPut a e bs m) = true
  | [], lo, _, hl => by
    have := wfAbove_byteCells bs a [] lo hl (fun _ _ => by simp [Sparse.wfAbove])
    simpa [memPut] using this
  | (k, v) :: t, lo, h, hl => by
    have h' := h
    simp only [Sparse.wfAbove, Bool.and_eq_true, decide_eq_true_eq] at h
    unfold memPut
    split
    · rename_i hk
      simp only [Sparse.wfAbove, Bool.and_eq_true, decide_eq_true_eq]
      exact ⟨h.1, wfAbove_memPut he h.2 (fun l e' => by cases e'; exact hk)⟩
    · exact wfAbove_byteCells bs a _ lo hl (fun c hc => wfAbove_cellsFrom h' c (by rw [he]; exact hc))

/-- A write of bytes keeps the canonical form of the memory. -/
theorem Memory.wf_memWrite {m : List Host.Cell} (h : Memory.wf m = true) (a : Nat) (bs : List Byte) :
    Memory.wf (memWrite m a bs) = true := wfAbove_memPut rfl h (fun _ e => nomatch e)

/-- A write of one byte keeps the canonical form of the memory. -/
theorem Memory.wf_put {m : List Host.Cell} (h : Memory.wf m = true) (a : Nat) (b : Byte) :
    Memory.wf (Sparse.put memDefault m a b) = true := Sparse.wf_put h a b

/-- Forgetting cells keeps the canonical form of the memory. -/
theorem Memory.wf_filter {m : List Host.Cell} (h : Memory.wf m = true) (p : Host.Cell → Bool) : Memory.wf (m.filter p) = true :=
  Sparse.wfAbove_filter h

/-- A read beyond the cells that were dropped. -/
theorem get_cellsFrom {e j : Nat} : ∀ {m : List Host.Cell}, e ≤ j →
    Sparse.get memDefault (cellsFrom e m) j = Sparse.get memDefault m j
  | [], _ => rfl
  | (k, v) :: t, h => by
    unfold cellsFrom
    split
    · rename_i hk
      have : k ≠ j := by omega
      simp only [Sparse.get, this, if_false]
      exact get_cellsFrom h
    · rfl

/-- A read of bytes as cells. -/
theorem get_byteCells : ∀ (bs : List Byte) (a j : Nat) (t : List Host.Cell), (j < a + bs.length → Sparse.get memDefault t j = 0) →
    Sparse.get memDefault (byteCells a bs ++ t) j =
      if a ≤ j ∧ j < a + bs.length then bs.getD (j - a) 0 else Sparse.get memDefault t j
  | [], a, j, t, _ => by rw [if_neg (by simp only [List.length_nil]; omega)]; rfl
  | x :: bs, a, j, t, ht => by
    have ih := get_byteCells bs (a + 1) j t (fun h => ht (by simp only [List.length_cons]; omega))
    unfold byteCells
    by_cases hj : j = a
    · subst hj
      have h0 : Sparse.get memDefault (byteCells (j + 1) bs ++ t) j = 0 := by
        rw [ih, if_neg (by omega)]
        exact ht (by simp)
      split
      · rename_i hx; simp [h0, hx]
      · simp [Sparse.get]
    · have hne : a ≠ j := fun e => hj e.symm
      have hr : Sparse.get memDefault (byteCells (a + 1) bs ++ t) j =
          if a ≤ j ∧ j < a + (x :: bs).length then (x :: bs).getD (j - a) 0 else Sparse.get memDefault t j := by
        rw [ih]
        by_cases hin : a ≤ j ∧ j < a + (x :: bs).length
        · have hin' := hin
          simp only [List.length_cons] at hin'
          rw [if_pos hin, if_pos (by omega)]
          obtain ⟨i, hi⟩ : ∃ i, j - a = i + 1 := ⟨j - a - 1, by omega⟩
          rw [hi, show j - (a + 1) = i by omega]
          simp
        · rw [if_neg hin, if_neg]
          simp only [List.length_cons] at hin
          omega
      split
      · exact hr
      · simp only [List.cons_append, Sparse.get, hne, if_false]; exact hr

/-- A read after a write of bytes, below the lower bound of a memory or not. -/
theorem get_memPut {a e : Nat} {bs : List Byte} (he : e = a + bs.length) (j : Nat) :
    ∀ {m : List Host.Cell} {lo : Option Nat}, Sparse.wfAbove memDefault lo m = true →
      Sparse.get memDefault (memPut a e bs m) j = if a ≤ j ∧ j < e then bs.getD (j - a) 0 else Sparse.get memDefault m j
  | [], lo, _ => by
    have := get_byteCells bs a j [] (fun _ => rfl)
    simpa [memPut, he] using this
  | (k, v) :: t, lo, h => by
    have h' := h
    simp only [Sparse.wfAbove, Bool.and_eq_true, decide_eq_true_eq] at h
    unfold memPut
    split
    · rename_i hk
      simp only [Sparse.get]
      split
      · rename_i hkj
        rw [if_neg (by omega)]
      · exact get_memPut he j h.2
    · rename_i hk
      have hz : j < a + bs.length → Sparse.get memDefault (cellsFrom e ((k, v) :: t)) j = 0 := by
        intro hj
        rw [← he] at hj
        obtain ⟨n, rfl⟩ : ∃ n, e = n + 1 := ⟨e - 1, by omega⟩
        exact Sparse.get_below (wfAbove_cellsFrom h' (some n) (fun l e' => by cases e'; omega)) (by omega)
      rw [get_byteCells bs a j _ hz, ← he]
      split
      · rfl
      · rename_i hn
        by_cases hje : e ≤ j
        · exact get_cellsFrom hje
        · have hja : j < a := by omega
          rw [hz (by omega)]
          have hkj : k ≠ j := by omega
          simp only [Sparse.get, hkj, if_false]
          exact (Sparse.get_below h.2 (by omega)).symm

/-- A byte after a write of bytes (12 R362): the written byte within them, the byte before elsewhere. -/
theorem State.byte_writeBytes {s : State} (h : Memory.wf s.mem = true) (a : Nat) (bs : List Byte) (j : Nat) :
    (s.writeBytes a bs).byte j = if a ≤ j ∧ j < a + bs.length then bs.getD (j - a) 0 else s.byte j := get_memPut rfl j h

/-- A byte after a write of one byte. -/
theorem State.byte_putByte {s : State} (h : Memory.wf s.mem = true) (a : Nat) (b : Byte) (j : Nat) :
    (s.putByte a b).byte j = if j = a then b else s.byte j := Sparse.get_put h a j b

/-- A run of bytes is the bytes at its addresses. -/
theorem memSlice_eq : ∀ (n : Nat) (m : List Host.Cell) (a : Nat) {lo : Option Nat}, Sparse.wfAbove memDefault lo m = true →
    memSlice m a n = (List.range n).map (fun i => Sparse.get memDefault m (a + i))
  | 0, m, a, _, _ => by cases m <;> rfl
  | n + 1, m, a, lo, h => by
    rw [List.range_succ_eq_map]
    simp only [List.map_cons, List.map_map, Function.comp_def, Nat.add_zero]
    have hc : ∀ j, a ≤ j → Sparse.get memDefault (cellsFrom a m) j = Sparse.get memDefault m j := fun j hj => get_cellsFrom hj
    have hw : ∀ b, (∀ l, b = some l → l < a) → Sparse.wfAbove memDefault b (cellsFrom a m) = true := wfAbove_cellsFrom h
    have step : ∀ (t : List Host.Cell) (lo' : Option Nat), Sparse.wfAbove memDefault lo' t = true →
        (∀ j, a + 1 ≤ j → Sparse.get memDefault t j = Sparse.get memDefault m j) →
        memSlice t (a + 1) n = (List.range n).map (fun i => Sparse.get memDefault m (a + (i + 1))) := by
      intro t lo' ht hg
      rw [memSlice_eq n t (a + 1) ht]
      apply List.map_congr_left
      intro i _
      rw [hg (a + 1 + i) (by omega), Nat.add_assoc, Nat.add_comm 1 i]
    unfold memSlice
    split
    · rename_i e
      have hz : ∀ j, a ≤ j → Sparse.get memDefault m j = 0 := fun j hj => by rw [← hc j hj, e]; rfl
      rw [hz a (Nat.le_refl a), step [] none rfl (fun j hj => by rw [hz j (by omega)]; rfl)]
    · rename_i k v t e
      have hw' := hw none (fun _ e' => nomatch e')
      rw [e] at hw' hc
      simp only [Sparse.wfAbove, Bool.and_eq_true, decide_eq_true_eq] at hw'
      split
      · rename_i hk
        subst hk
        rw [← hc k (Nat.le_refl k), step t (some k) hw'.2 (fun j hj => by
          rw [← hc j (by omega)]; have : k ≠ j := by omega
          simp [Sparse.get, this])]
        simp [Sparse.get]
      · rename_i hk
        rw [← hc a (Nat.le_refl a), step ((k, v) :: t) none (by simp [Sparse.wfAbove, hw'.1.2, hw'.2]) (fun j hj => hc j (by omega))]
        have hle : a < k := by
          by_cases ha : a = 0
          · omega
          · have := hw (some (a - 1)) (fun l e' => by cases e'; omega)
            rw [e] at this
            simp only [Sparse.wfAbove, Bool.and_eq_true, decide_eq_true_eq] at this
            have := this.1.1
            omega
        have hk' : k ≠ a := by omega
        simp only [Sparse.get, hk', if_false]
        rw [Sparse.get_below hw'.2 (by omega)]
        rfl

/-- A run of bytes of the state. -/
theorem State.bytesAt_eq {s : State} (h : Memory.wf s.mem = true) (a n : Nat) :
    s.bytesAt a n = (List.range n).map (fun i => s.byte (a + i)) := memSlice_eq n s.mem a h

end Sys2Proof.Machine
end

