-- ==== Sys2Proof/Laws/KeepsBase.lean ====
section
/-! SUPPORT. What every command keeps, said once: the waiting commands stay, the memory keeps its canonical form, the
outputs already sent stay, and free values are used in rising order; with the rules by which it passes through folds,
record updates, choices and optional states. The other `Keeps` files say it of every operation and every meaning. -/

namespace Sys2Proof.Machine
open Sys2Proof

/-- What every command keeps between the state before it and the state after: the waiting commands, the canonical forms, the outputs already sent, and the free values already used. -/
structure Keeps (s t : State) : Prop where
  pending : t.pending = s.pending
  canon : s.Canon → t.Canon
  out : s.out <+: t.out
  free : s.freeCtr ≤ t.freeCtr

theorem Keeps.refl (s : State) : Keeps s s := ⟨rfl, id, List.prefix_rfl, Nat.le_refl _⟩

theorem Keeps.trans {s t u : State} (a : Keeps s t) (b : Keeps t u) : Keeps s u :=
  ⟨b.pending.trans a.pending, fun h => b.canon (a.canon h), a.out.trans b.out, Nat.le_trans a.free b.free⟩

theorem Keeps.fst {α : Type} {q t : State} {p : State × α} {x : α} (h : Keeps q p.1) (e : p = (t, x)) : Keeps q t := by
  subst e; exact h

theorem Keeps.snd {α : Type} {q t : State} {p : α × State} {x : α} (h : Keeps q p.2) (e : p = (x, t)) : Keeps q t := by
  subst e; exact h

theorem Keeps.foldl {α : Type} {q s : State} {f : State → α → State} {l : List α} (h : Keeps q s)
    (hf : ∀ t x, Keeps q t → Keeps q (f t x)) : Keeps q (l.foldl f s) := by
  induction l generalizing s with
  | nil => exact h
  | cons x l ih => exact ih (hf s x h)

/-- A record update that leaves the sparse maps, the outputs and the queue alone. -/
theorem Keeps.upd {q s : State} (h : Keeps q s) {clk ts gfe resvs place xfers link host fab integ icnt sup mon sec sb staged}
    (hf : gfe.fences = s.gfe.fences) :
    Keeps q (State.mk clk ts s.reg s.chans s.cqs s.accts gfe s.clus s.cnts resvs s.pslots s.scales s.mem s.frames s.objs place s.streams xfers link host fab integ icnt sup mon sec sb staged s.out s.freeCtr s.pending) :=
  ⟨h.pending, fun c => ⟨(h.canon c).mem, (h.canon c).regs, (h.canon c).chans, (h.canon c).cqs, (h.canon c).accts, (h.canon c).clus, (h.canon c).cnts, (h.canon c).pslots,
    (h.canon c).scales, (h.canon c).frames, (h.canon c).streams,
    hf ▸ (h.canon c).fences, (h.canon c).objs⟩, h.out, h.free⟩

/-- An update of the registers that leaves their values alone. -/
theorem Keeps.updReg {q s : State} {reg : RegFile} (h : Keeps q s) (e : s.reg.vals = reg.vals) {clk ts gfe resvs place xfers link host fab integ icnt sup mon sec sb staged}
    (hf : gfe.fences = s.gfe.fences) :
    Keeps q (State.mk clk ts reg s.chans s.cqs s.accts gfe s.clus s.cnts resvs s.pslots s.scales s.mem s.frames s.objs place s.streams xfers link host fab integ icnt sup mon sec sb staged s.out s.freeCtr s.pending) :=
  ⟨h.pending, fun c => ⟨(h.canon c).mem, e ▸ (h.canon c).regs, (h.canon c).chans, (h.canon c).cqs, (h.canon c).accts, (h.canon c).clus, (h.canon c).cnts, (h.canon c).pslots,
    (h.canon c).scales, (h.canon c).frames, (h.canon c).streams,
    hf ▸ (h.canon c).fences, (h.canon c).objs⟩, h.out, h.free⟩

/-- A record update that uses up free values. -/
theorem Keeps.updFree {q s : State} (h : Keeps q s) {clk ts gfe resvs place xfers link host fab integ icnt sup mon sec sb staged} {k : Nat}
    (hf : gfe.fences = s.gfe.fences) :
    Keeps q (State.mk clk ts s.reg s.chans s.cqs s.accts gfe s.clus s.cnts resvs s.pslots s.scales s.mem s.frames s.objs place s.streams xfers link host fab integ icnt sup mon sec sb staged s.out (s.freeCtr + k) s.pending) :=
  ⟨h.pending, fun c => ⟨(h.canon c).mem, (h.canon c).regs, (h.canon c).chans, (h.canon c).cqs, (h.canon c).accts, (h.canon c).clus, (h.canon c).cnts, (h.canon c).pslots,
    (h.canon c).scales, (h.canon c).frames, (h.canon c).streams,
    hf ▸ (h.canon c).fences, (h.canon c).objs⟩, h.out, Nat.le_trans h.free (Nat.le_add_right _ _)⟩

/-- A record update that sends outputs. -/
theorem Keeps.updOut {q s : State} (h : Keeps q s) {clk ts gfe resvs place xfers link host fab integ icnt sup mon sec sb staged} {l : List Output}
    (hf : gfe.fences = s.gfe.fences) :
    Keeps q (State.mk clk ts s.reg s.chans s.cqs s.accts gfe s.clus s.cnts resvs s.pslots s.scales s.mem s.frames s.objs place s.streams xfers link host fab integ icnt sup mon sec sb staged (s.out ++ l) s.freeCtr s.pending) :=
  ⟨h.pending, fun c => ⟨(h.canon c).mem, (h.canon c).regs, (h.canon c).chans, (h.canon c).cqs, (h.canon c).accts, (h.canon c).clus, (h.canon c).cnts, (h.canon c).pslots,
    (h.canon c).scales, (h.canon c).frames, (h.canon c).streams,
    hf ▸ (h.canon c).fences, (h.canon c).objs⟩, h.out.trans (List.prefix_append _ _), h.free⟩

/-- An optional state, if there is one, keeps what `Keeps` says. -/
def KeepsO (q : State) (o : Option State) : Prop := ∀ t, o = some t → Keeps q t

theorem KeepsO.some {q s : State} (h : Keeps q s) : KeepsO q (some s) := fun t e => by cases e; exact h

theorem KeepsO.none {q : State} : KeepsO q none := fun _ e => nomatch e

theorem KeepsO.use {q s : State} {o : Option State} (h : KeepsO q o) (e : o = Option.some s) : Keeps q s := h s e

/-- The same for an optional pair with a state. -/
def KeepsP {α : Type} (q : State) (o : Option (α × State)) : Prop := ∀ x t, o = some (x, t) → Keeps q t

theorem KeepsP.some {α : Type} {q s : State} {x : α} (h : Keeps q s) : KeepsP q (some (x, s)) := fun _ t e => by
  cases e; exact h

theorem KeepsP.none {α : Type} {q : State} : KeepsP (α := α) q none := fun _ _ e => nomatch e

theorem KeepsP.use {α : Type} {q s : State} {x : α} {o : Option (α × State)} (h : KeepsP q o) (e : o = Option.some (x, s)) :
    Keeps q s := h x s e

/-- A command answers a next state that keeps what `Keeps` says. -/
def Runs (q : State) (o : Host.Outcome State Fault Refusal) : Prop := ∃ t, o = .next t ∧ Keeps q t

theorem Runs.done {q s : State} (h : Keeps q s) : Runs q (done s) := ⟨_, rfl, Keeps.updReg (reg := { s.reg with raised := [] }) h rfl rfl⟩

theorem Keeps.ite {q a b : State} {c : Prop} [Decidable c] (h1 : Keeps q a) (h2 : Keeps q b) : Keeps q (if c then a else b) := by
  split <;> assumption

theorem Keeps.foldlFst {α β : Type} {q : State} {p : State × β} {f : State × β → α → State × β} {l : List α} (h : Keeps q p.1)
    (hf : ∀ y x, Keeps q y.1 → Keeps q (f y x).1) : Keeps q (l.foldl f p).1 := by
  induction l generalizing p with
  | nil => exact h
  | cons x l ih => exact ih (hf p x h)

end Sys2Proof.Machine
end

