-- ==== Sys2Proof/Laws/KeepsCommon.lean ====
section
/-! SUPPORT. `Keeps` for the shared operations: registers, records, contexts, completions and the front end. -/

namespace Sys2Proof.Machine
open Sys2Proof

theorem State.setChan_keeps {q s : State} (hq : Keeps q s) (n : Nat) (v : Chan) : Keeps q (State.setChan s n v) :=
  ⟨hq.pending, fun c => ⟨(hq.canon c).mem, (hq.canon c).regs, Sparse.wf_put (hq.canon c).chans _ _, (hq.canon c).cqs, (hq.canon c).accts, (hq.canon c).clus, (hq.canon c).cnts, (hq.canon c).pslots, (hq.canon c).scales, (hq.canon c).frames, (hq.canon c).streams, (hq.canon c).fences, (hq.canon c).objs⟩, hq.out, hq.free⟩

theorem State.setCq_keeps {q s : State} (hq : Keeps q s) (n : Nat) (v : ChanCq) : Keeps q (State.setCq s n v) :=
  ⟨hq.pending, fun c => ⟨(hq.canon c).mem, (hq.canon c).regs, (hq.canon c).chans, Sparse.wf_put (hq.canon c).cqs _ _, (hq.canon c).accts, (hq.canon c).clus, (hq.canon c).cnts, (hq.canon c).pslots, (hq.canon c).scales, (hq.canon c).frames, (hq.canon c).streams, (hq.canon c).fences, (hq.canon c).objs⟩, hq.out, hq.free⟩

theorem State.setAcct_keeps {q s : State} (hq : Keeps q s) (n : Nat) (v : ChanAcct) : Keeps q (State.setAcct s n v) :=
  ⟨hq.pending, fun c => ⟨(hq.canon c).mem, (hq.canon c).regs, (hq.canon c).chans, (hq.canon c).cqs, Sparse.wf_put (hq.canon c).accts _ _, (hq.canon c).clus, (hq.canon c).cnts, (hq.canon c).pslots, (hq.canon c).scales, (hq.canon c).frames, (hq.canon c).streams, (hq.canon c).fences, (hq.canon c).objs⟩, hq.out, hq.free⟩

theorem State.setClu_keeps {q s : State} (hq : Keeps q s) (n : Nat) (v : Clu) : Keeps q (State.setClu s n v) :=
  ⟨hq.pending, fun c => ⟨(hq.canon c).mem, (hq.canon c).regs, (hq.canon c).chans, (hq.canon c).cqs, (hq.canon c).accts, Sparse.wf_put (hq.canon c).clus _ _, (hq.canon c).cnts, (hq.canon c).pslots, (hq.canon c).scales, (hq.canon c).frames, (hq.canon c).streams, (hq.canon c).fences, (hq.canon c).objs⟩, hq.out, hq.free⟩

theorem State.setCnt_keeps {q s : State} (hq : Keeps q s) (n : Nat) (v : CluCnt) : Keeps q (State.setCnt s n v) :=
  ⟨hq.pending, fun c => ⟨(hq.canon c).mem, (hq.canon c).regs, (hq.canon c).chans, (hq.canon c).cqs, (hq.canon c).accts, (hq.canon c).clus, Sparse.wf_put (hq.canon c).cnts _ _, (hq.canon c).pslots, (hq.canon c).scales, (hq.canon c).frames, (hq.canon c).streams, (hq.canon c).fences, (hq.canon c).objs⟩, hq.out, hq.free⟩

theorem State.setPslot_keeps {q s : State} (hq : Keeps q s) (n : Nat) (v : PSlot) : Keeps q (State.setPslot s n v) :=
  ⟨hq.pending, fun c => ⟨(hq.canon c).mem, (hq.canon c).regs, (hq.canon c).chans, (hq.canon c).cqs, (hq.canon c).accts, (hq.canon c).clus, (hq.canon c).cnts, Sparse.wf_put (hq.canon c).pslots _ _, (hq.canon c).scales, (hq.canon c).frames, (hq.canon c).streams, (hq.canon c).fences, (hq.canon c).objs⟩, hq.out, hq.free⟩

theorem State.setScale_keeps {q s : State} (hq : Keeps q s) (n : Nat) (v : ScaleSlot) : Keeps q (State.setScale s n v) :=
  ⟨hq.pending, fun c => ⟨(hq.canon c).mem, (hq.canon c).regs, (hq.canon c).chans, (hq.canon c).cqs, (hq.canon c).accts, (hq.canon c).clus, (hq.canon c).cnts, (hq.canon c).pslots, Sparse.wf_put (hq.canon c).scales _ _, (hq.canon c).frames, (hq.canon c).streams, (hq.canon c).fences, (hq.canon c).objs⟩, hq.out, hq.free⟩

theorem State.setFence_keeps {q s : State} (hq : Keeps q s) (n : Nat) (v : Fence) : Keeps q (State.setFence s n v) :=
  ⟨hq.pending, fun c => ⟨(hq.canon c).mem, (hq.canon c).regs, (hq.canon c).chans, (hq.canon c).cqs, (hq.canon c).accts, (hq.canon c).clus, (hq.canon c).cnts, (hq.canon c).pslots, (hq.canon c).scales, (hq.canon c).frames, (hq.canon c).streams, Sparse.wf_put (hq.canon c).fences _ _, (hq.canon c).objs⟩, hq.out, hq.free⟩

theorem State.setStream_keeps {q s : State} (hq : Keeps q s) (n d : Nat) (v : Stream) : Keeps q (State.setStream s n d v) :=
  ⟨hq.pending, fun c => ⟨(hq.canon c).mem, (hq.canon c).regs, (hq.canon c).chans, (hq.canon c).cqs, (hq.canon c).accts, (hq.canon c).clus, (hq.canon c).cnts, (hq.canon c).pslots, (hq.canon c).scales, (hq.canon c).frames, Sparse.wf_put (hq.canon c).streams _ _, (hq.canon c).fences, (hq.canon c).objs⟩, hq.out, hq.free⟩

theorem State.setFrame_keeps {q s : State} (hq : Keeps q s) (n : Nat) (v : FrameRec) : Keeps q (State.setFrame s n v) :=
  ⟨hq.pending, fun c => ⟨(hq.canon c).mem, (hq.canon c).regs, (hq.canon c).chans, (hq.canon c).cqs, (hq.canon c).accts, (hq.canon c).clus, (hq.canon c).cnts, (hq.canon c).pslots, (hq.canon c).scales, Sparse.wf_put (hq.canon c).frames _ _, (hq.canon c).streams, (hq.canon c).fences, (hq.canon c).objs⟩, hq.out, hq.free⟩

theorem State.setPort_keeps {q s : State} (hq : Keeps q s) (p : Nat) (v : Port) : Keeps q (State.setPort s p v) := by
  unfold State.setPort
  with_reducible apply Keeps.upd
  · assumption
  · rfl

theorem State.setPeer_keeps {q s : State} (hq : Keeps q s) (e : Nat) (v : Peer) : Keeps q (State.setPeer s e v) := by
  unfold State.setPeer
  with_reducible apply Keeps.upd
  · assumption
  · rfl

theorem State.setStack_keeps {q s : State} (hq : Keeps q s) (k : Nat) (v : StackRec) : Keeps q (State.setStack s k v) := by
  unfold State.setStack
  with_reducible apply Keeps.upd
  · assumption
  · rfl

theorem State.setTarget_keeps {q s : State} (hq : Keeps q s) (t : Nat) (v : TargetRec) : Keeps q (State.setTarget s t v) := by
  unfold State.setTarget
  with_reducible apply Keeps.upd
  · assumption
  · rfl

theorem State.setObj_keeps {q s : State} (hq : Keeps q s) (h : Nat) (o : Obj) : Keeps q (State.setObj s h o) :=
  ⟨hq.pending, fun c => ⟨(hq.canon c).mem, (hq.canon c).regs, (hq.canon c).chans, (hq.canon c).cqs, (hq.canon c).accts, (hq.canon c).clus, (hq.canon c).cnts, (hq.canon c).pslots, (hq.canon c).scales, (hq.canon c).frames, (hq.canon c).streams, (hq.canon c).fences, Sparse.rising_insert (hq.canon c).objs⟩, hq.out, hq.free⟩

theorem State.dropObj_keeps {q s : State} (hq : Keeps q s) (h : Nat) : Keeps q (State.dropObj s h) :=
  ⟨hq.pending, fun c => ⟨(hq.canon c).mem, (hq.canon c).regs, (hq.canon c).chans, (hq.canon c).cqs, (hq.canon c).accts, (hq.canon c).clus, (hq.canon c).cnts, (hq.canon c).pslots, (hq.canon c).scales, (hq.canon c).frames, (hq.canon c).streams, (hq.canon c).fences, Sparse.rising_erase (hq.canon c).objs⟩, hq.out, hq.free⟩

theorem State.takeFree_keeps {q s : State} (hq : Keeps q s) : Keeps q (State.takeFree s).2 := by
  unfold State.takeFree
  dsimp only
  with_reducible apply Keeps.updFree
  · assumption
  · rfl

theorem State.emit_keeps {q s : State} (hq : Keeps q s) (o : Output) : Keeps q (State.emit s o) := by
  unfold State.emit
  with_reducible apply Keeps.updOut
  · assumption
  · rfl

theorem State.regPut_keeps {q s : State} (hq : Keeps q s) (w : Win) (item off v : Nat) : Keeps q (State.regPut s w item off v) :=
  ⟨hq.pending, fun c => ⟨(hq.canon c).mem, Sparse.wf_put (hq.canon c).regs _ _, (hq.canon c).chans, (hq.canon c).cqs, (hq.canon c).accts, (hq.canon c).clus, (hq.canon c).cnts, (hq.canon c).pslots, (hq.canon c).scales, (hq.canon c).frames, (hq.canon c).streams, (hq.canon c).fences, (hq.canon c).objs⟩, hq.out, hq.free⟩

theorem State.fldPut_keeps {q s : State} (hq : Keeps q s) (w : Win) (item : Nat) (off : Nat) (msb : Nat) (lsb : Nat) (v : Nat) : Keeps q (State.fldPut s w item off msb lsb v) := by
  unfold State.fldPut
  extract_lets +onlyGivenNames v1
  clear_value v1
  with_reducible apply State.regPut_keeps
  assumption

theorem State.signalVector_keeps {q s : State} (hq : Keeps q s) (v : Nat) : Keeps q (State.signalVector s v) := by
  unfold State.signalVector
  with_reducible refine Keeps.ite ?_ ?_
  · with_reducible apply State.emit_keeps
    assumption
  · with_reducible refine Keeps.ite ?_ ?_
    · assumption
    · with_reducible apply Keeps.upd
      · assumption
      · rfl

theorem State.raiseEvent_keeps {q s : State} (hq : Keeps q s) (e : Nat) : Keeps q (State.raiseEvent s e) := by
  unfold State.raiseEvent
  with_reducible refine Keeps.ite ?_ ?_
  · with_reducible apply State.signalVector_keeps
    assumption
  · assumption

theorem State.statusSet_keeps {q s : State} (hq : Keeps q s) (w : Win) (item : Nat) (off : Nat) (bits : Nat) : Keeps q (State.statusSet s w item off bits) := by
  unfold State.statusSet
  with_reducible refine Keeps.ite ?_ ?_
  · assumption
  · extract_lets +onlyGivenNames v1
    clear_value v1
    extract_lets +onlyGivenNames v2
    clear_value v2
    extract_lets +onlyGivenNames v3
    clear_value v3
    extract_lets +onlyGivenNames v4
    have hv4 : Keeps q v4 := by
      unfold v4
      with_reducible apply State.regPut_keeps
      assumption
    clear_value v4
    with_reducible refine Keeps.ite ?_ ?_
    · assumption
    · with_reducible apply Keeps.updReg
      · assumption
      · rfl
      · rfl

theorem State.statusEvents_keeps {q s : State} (hq : Keeps q s) (w : Win) (off : Nat) (bits : Nat) (l : List Nat) :
    Keeps q (State.statusEvents s w off bits l) := by
  induction l generalizing s with
  | nil => exact hq
  | cons b t ih =>
    rw [State.statusEvents]
    apply ih
    split
    · split
      · exact State.raiseEvent_keeps hq _
      · exact hq
    · exact hq

theorem State.raise_keeps {q s : State} (hq : Keeps q s) (w : Win) (item : Nat) (off : Nat) (bit : Nat) : Keeps q (State.raise s w item off bit) := by
  unfold State.raise
  with_reducible apply State.statusEvents_keeps
  with_reducible apply State.statusSet_keeps
  assumption

theorem State.endStep_keeps {q s : State} (hq : Keeps q s) : Keeps q (State.endStep s) := by
  unfold State.endStep
  with_reducible apply Keeps.updReg
  · assumption
  · rfl
  · rfl

theorem State.clockTo_keeps {q s : State} (hq : Keeps q s) (c : Nat) : Keeps q (State.clockTo s c) := by
  unfold State.clockTo
  with_reducible apply Keeps.upd
  · assumption
  · rfl

theorem State.putByte_keeps {q s : State} (hq : Keeps q s) (a : Nat) (b : Byte) : Keeps q (State.putByte s a b) :=
  ⟨hq.pending, fun c => ⟨Memory.wf_put (hq.canon c).mem a b, (hq.canon c).regs, (hq.canon c).chans, (hq.canon c).cqs, (hq.canon c).accts, (hq.canon c).clus, (hq.canon c).cnts, (hq.canon c).pslots, (hq.canon c).scales, (hq.canon c).frames, (hq.canon c).streams, (hq.canon c).fences, (hq.canon c).objs⟩, hq.out, hq.free⟩

theorem State.writeBytes_keeps {q s : State} (hq : Keeps q s) (a : Nat) (bs : List Byte) : Keeps q (State.writeBytes s a bs) :=
  ⟨hq.pending, fun c => ⟨Memory.wf_memWrite (hq.canon c).mem a bs, (hq.canon c).regs, (hq.canon c).chans, (hq.canon c).cqs, (hq.canon c).accts, (hq.canon c).clus, (hq.canon c).cnts, (hq.canon c).pslots, (hq.canon c).scales, (hq.canon c).frames, (hq.canon c).streams, (hq.canon c).fences, (hq.canon c).objs⟩, hq.out, hq.free⟩

theorem State.setHome_keeps {q s : State} (hq : Keeps q s) (h : Nat) (tile : Nat) (f : Nat) : Keeps q (State.setHome s h tile f) := by
  unfold State.setHome
  split
  · with_reducible apply State.setObj_keeps
    assumption
  · assumption

theorem State.setCmd_keeps {q s : State} (hq : Keeps q s) (c : Cmd) : Keeps q (State.setCmd s c) := by
  unfold State.setCmd
  with_reducible apply Keeps.upd
  · assumption
  · rfl

theorem State.dropCmd_keeps {q s : State} (hq : Keeps q s) (id : Nat) : Keeps q (State.dropCmd s id) := by
  unfold State.dropCmd
  with_reducible apply Keeps.upd
  · assumption
  · rfl

theorem State.setExtra_keeps {q s : State} (hq : Keeps q s) (e : CmdExtra) : Keeps q (State.setExtra s e) := by
  unfold State.setExtra
  with_reducible apply Keeps.upd
  · assumption
  · rfl

theorem State.setLaunch_keeps {q s : State} (hq : Keeps q s) (l : Launch) : Keeps q (State.setLaunch s l) := by
  unfold State.setLaunch
  with_reducible apply Keeps.upd
  · assumption
  · rfl

theorem State.setCtx_keeps {q s : State} (hq : Keeps q s) (x : Ctx) : Keeps q (State.setCtx s x) := by
  unfold State.setCtx
  with_reducible apply Keeps.upd
  · assumption
  · rfl

theorem State.sendCtl_keeps {q s : State} (hq : Keeps q s) (port : Nat) (kind : Nat) (vl : Nat) (dst : Nat) (reset : Bool) (payload : List Byte) : Keeps q (State.sendCtl s port kind vl dst reset payload) := by
  unfold State.sendCtl
  extract_lets +onlyGivenNames v1
  clear_value v1
  with_reducible apply State.emit_keeps
  assumption

theorem State.sendData_keeps {q s : State} (hq : Keeps q s) (port : Nat) (dst : Nat) (vl : Nat) (f : TxFrame) : Keeps q (State.sendData s port dst vl f) := by
  unfold State.sendData
  extract_lets +onlyGivenNames v1
  clear_value v1
  with_reducible apply State.emit_keeps
  assumption

theorem State.pumpFlow_keeps {q s : State} (hq : Keeps q s) (dst : Nat) (vl : Nat) : Keeps q (State.pumpFlow s dst vl) := by
  unfold State.pumpFlow
  extract_lets +onlyGivenNames v1
  clear_value v1
  split
  · assumption
  · with_reducible refine Keeps.ite ?_ ?_
    · assumption
    · extract_lets +onlyGivenNames v2
      clear_value v2
      extract_lets +onlyGivenNames v3
      clear_value v3
      extract_lets +onlyGivenNames v4
      clear_value v4
      extract_lets +onlyGivenNames v5
      clear_value v5
      extract_lets +onlyGivenNames v6
      have hv6 : Keeps q v6 := by
        unfold v6
        with_reducible apply State.setPeer_keeps
        assumption
      clear_value v6
      with_reducible refine Keeps.foldl ?_ ?_
      · assumption
      · intro x7 x8 x9
        with_reducible apply State.sendData_keeps
        assumption

theorem State.egress_keeps {q s t : State} (hq : Keeps q s) (ht : Keeps q t) : Keeps q (State.egress s t) :=
  ⟨ht.pending, fun c => let k := ht.canon c; ⟨k.mem, k.regs, k.chans, k.cqs, k.accts, k.clus, k.cnts, k.pslots, k.scales, k.frames,
    k.streams, k.fences, k.objs⟩, hq.out.trans (List.prefix_append _ _), ht.free⟩

theorem State.pumpAll_keeps {q s : State} (hq : Keeps q s) : Keeps q (State.pumpAll s) := by
  unfold State.pumpAll
  with_reducible apply State.egress_keeps
  · assumption
  · with_reducible refine Keeps.foldl ?_ ?_
    · assumption
    · intro x1 x2 x3
      with_reducible apply State.pumpFlow_keeps
      assumption

theorem State.resendFlow_keeps {q s : State} (hq : Keeps q s) (dst : Nat) (vl : Nat) : Keeps q (State.resendFlow s dst vl) := by
  unfold State.resendFlow
  extract_lets +onlyGivenNames v1
  clear_value v1
  split
  · assumption
  · extract_lets +onlyGivenNames v2
    clear_value v2
    with_reducible refine Keeps.ite ?_ ?_
    · assumption
    · extract_lets +onlyGivenNames v3
      have hv3 : Keeps q v3 := by
        unfold v3
        with_reducible apply State.setPeer_keeps
        assumption
      clear_value v3
      extract_lets +onlyGivenNames v4
      clear_value v4
      extract_lets +onlyGivenNames v5
      have hv5 : Keeps q v5 := by
        unfold v5
        with_reducible apply Keeps.upd
        · assumption
        · rfl
      clear_value v5
      with_reducible refine Keeps.foldl ?_ ?_
      · assumption
      · intro x6 x7 x8
        with_reducible apply State.sendData_keeps
        assumption

theorem State.sendMsg_keeps {q s : State} (hq : Keeps q s) (dst : Nat) (vl : Nat) (ty : Nat) (dl : Nat) (payload : List Byte) (cmd : Option Nat) : Keeps q (State.sendMsg s dst vl ty dl payload cmd).1 := by
  unfold State.sendMsg
  extract_lets +onlyGivenNames v1
  clear_value v1
  extract_lets +onlyGivenNames v2
  clear_value v2
  extract_lets +onlyGivenNames v3
  clear_value v3
  extract_lets +onlyGivenNames v4
  clear_value v4
  extract_lets +onlyGivenNames v5
  clear_value v5
  extract_lets +onlyGivenNames v6
  clear_value v6
  extract_lets +onlyGivenNames v7
  have hv7 : Keeps q v7 := by
    unfold v7
    with_reducible apply Keeps.upd
    · assumption
    · rfl
  clear_value v7
  dsimp only
  with_reducible apply State.pumpFlow_keeps
  with_reducible apply State.setPeer_keeps
  assumption

theorem State.refuseMsg_keeps {q s : State} (hq : Keeps q s) (src : Nat) (vl : Nat) (reason : Nat) (msgId : Nat) : Keeps q (State.refuseMsg s src vl reason msgId) := by
  unfold State.refuseMsg
  extract_lets +onlyGivenNames v1
  clear_value v1
  extract_lets +onlyGivenNames v2
  have hv2 : Keeps q v2 := by
    unfold v2
    with_reducible apply Keeps.upd
    · assumption
    · rfl
  clear_value v2
  extract_lets +onlyGivenNames v3
  have hv3 : Keeps q v3 := by
    unfold v3
    with_reducible refine Keeps.ite ?_ ?_
    · assumption
    · with_reducible apply State.sendMsg_keeps
      assumption
  clear_value v3
  with_reducible apply State.raise_keeps
  assumption

theorem State.sendBatch_keeps {q s : State} (hq : Keeps q s) (b : Batch) : Keeps q (State.sendBatch s b) := by
  unfold State.sendBatch
  with_reducible refine Keeps.ite ?_ ?_
  · assumption
  · with_reducible apply State.sendMsg_keeps
    assumption

theorem State.batchRecord_keeps {q s : State} (hq : Keeps q s) (o : Origin) (chan : Nat) (rec : List Byte) : Keeps q (State.batchRecord s o chan rec) := by
  unfold State.batchRecord
  extract_lets +onlyGivenNames v1
  extract_lets +onlyGivenNames v2
  extract_lets +onlyGivenNames v3
  extract_lets +onlyGivenNames v4
  clear_value v4
  with_reducible refine Keeps.ite ?_ ?_
  · with_reducible apply Keeps.upd
    · assumption
    · rfl
  · with_reducible apply State.sendBatch_keeps
    with_reducible apply Keeps.upd
    · assumption
    · rfl

theorem State.chargeCyc_keeps {q s : State} (hq : Keeps q s) (c : Nat) (e : Nat) (n : Nat) : Keeps q (State.chargeCyc s c e n) := by
  unfold State.chargeCyc
  extract_lets +onlyGivenNames v1
  clear_value v1
  with_reducible apply State.setAcct_keeps
  assumption

theorem State.noteXfer_keeps {q s : State} (hq : Keeps q s) (c : Nat) (n : Nat) : Keeps q (State.noteXfer s c n) := by
  unfold State.noteXfer
  with_reducible apply State.setAcct_keeps
  assumption

theorem State.chargeBytes_keeps {q s : State} (hq : Keeps q s) (c : Nat) (p : Nat) (n : Nat) : Keeps q (State.chargeBytes s c p n) := by
  unfold State.chargeBytes
  extract_lets +onlyGivenNames v1
  clear_value v1
  with_reducible apply State.setAcct_keeps
  assumption

theorem State.chargeMove_keeps {q s : State} (hq : Keeps q s) (c : Nat) (src : Nat) (dst : Nat) (n : Nat) : Keeps q (State.chargeMove s c src dst n) := by
  unfold State.chargeMove
  split
  · with_reducible apply State.chargeBytes_keeps
    assumption
  · assumption

theorem State.issueFlush_keeps {q s : State} (hq : Keeps q s) (c : Nat) (addr : Nat) : Keeps q (State.issueFlush s c addr).1 := by
  unfold State.issueFlush
  extract_lets +onlyGivenNames v1
  clear_value v1
  extract_lets +onlyGivenNames v2
  clear_value v2
  extract_lets +onlyGivenNames v3
  have hv3 : Keeps q v3 := by
    unfold v3
    with_reducible apply State.setCq_keeps
    assumption
  clear_value v3
  extract_lets +onlyGivenNames v4
  extract_lets +onlyGivenNames v5
  clear_value v5
  extract_lets +onlyGivenNames v6
  have hv6 : Keeps q v6 := by
    unfold v6
    with_reducible apply Keeps.upd
    · assumption
    · rfl
  clear_value v6
  dsimp only
  with_reducible apply State.emit_keeps
  assumption

theorem State.recordFlush_keeps {q s : State} (hq : Keeps q s) (c : Nat) : Keeps q (State.recordFlush s c) := by
  unfold State.recordFlush
  extract_lets +onlyGivenNames v1
  clear_value v1
  with_reducible refine Keeps.ite ?_ ?_
  · with_reducible apply State.issueFlush_keeps
    assumption
  · assumption

theorem State.confirm_keeps {q s : State} (hq : Keeps q s) (c : Nat) (n : Nat) : Keeps q (State.confirm s c n) := by
  unfold State.confirm
  extract_lets +onlyGivenNames v1
  clear_value v1
  with_reducible apply State.setCq_keeps
  assumption

theorem State.putRecord_keeps {q s : State} (hq : Keeps q s) (c : Nat) (r : Nat) (bytes : List Byte) : Keeps q (State.putRecord s c r bytes) := by
  unfold State.putRecord
  extract_lets +onlyGivenNames v1
  have hv1 : Keeps q v1 := by
    unfold v1
    with_reducible apply State.emit_keeps
    assumption
  clear_value v1
  with_reducible refine Keeps.ite ?_ ?_
  · with_reducible apply State.signalVector_keeps
    assumption
  · assumption

theorem State.writeNext_keeps {q s : State} (hq : Keeps q s) (c : Nat) (bytes : List Byte) : Keeps q (State.writeNext s c bytes) := by
  unfold State.writeNext
  extract_lets +onlyGivenNames v1
  clear_value v1
  extract_lets +onlyGivenNames v2
  have hv2 : Keeps q v2 := by
    unfold v2
    with_reducible apply State.putRecord_keeps
    assumption
  clear_value v2
  extract_lets +onlyGivenNames v3
  have hv3 : Keeps q v3 := by
    unfold v3
    with_reducible apply State.setCq_keeps
    assumption
  clear_value v3
  with_reducible refine Keeps.ite ?_ ?_
  · with_reducible apply State.recordFlush_keeps
    assumption
  · assumption

theorem State.hostRecord_keeps {q s : State} (hq : Keeps q s) (c : Nat) (bytes : List Byte) (ctx : Option Nat) : Keeps q (State.hostRecord s c bytes ctx) := by
  unfold State.hostRecord
  extract_lets +onlyGivenNames v1
  clear_value v1
  extract_lets +onlyGivenNames v2
  clear_value v2
  extract_lets +onlyGivenNames v3
  clear_value v3
  with_reducible refine Keeps.ite ?_ ?_
  · with_reducible apply State.writeNext_keeps
    assumption
  · extract_lets +onlyGivenNames v4
    have hv4 : Keeps q v4 := by
      unfold v4
      with_reducible apply State.setCq_keeps
      assumption
    clear_value v4
    with_reducible refine Keeps.ite ?_ ?_
    · with_reducible apply State.raise_keeps
      assumption
    · assumption

theorem State.settleCtx_keeps {q s : State} (hq : Keeps q s) (i : Nat) : Keeps q (State.settleCtx s i) := by
  unfold State.settleCtx
  split
  · assumption
  · with_reducible refine Keeps.ite ?_ ?_
    · extract_lets +onlyGivenNames v1
      have hv1 : Keeps q v1 := by
        unfold v1
        with_reducible apply State.setCtx_keeps
        assumption
      clear_value v1
      with_reducible refine Keeps.ite ?_ ?_
      · with_reducible apply Keeps.upd
        · assumption
        · rfl
      · assumption
    · assumption

theorem State.writeHeld_keeps {q s : State} (hq : Keeps q s) (c : Nat) (r : StoredRec) (rest : List StoredRec) : Keeps q (State.writeHeld s c r rest) := by
  unfold State.writeHeld
  extract_lets +onlyGivenNames v1
  clear_value v1
  extract_lets +onlyGivenNames v2
  have hv2 : Keeps q v2 := by
    unfold v2
    with_reducible apply State.writeNext_keeps
    with_reducible apply State.setCq_keeps
    assumption
  clear_value v2
  split
  · with_reducible apply State.settleCtx_keeps
    assumption
  · assumption

theorem State.noteFull_keeps {q s : State} (hq : Keeps q s) (c : Nat) : Keeps q (State.noteFull s c) := by
  unfold State.noteFull
  extract_lets +onlyGivenNames v1
  clear_value v1
  with_reducible refine Keeps.ite ?_ ?_
  · with_reducible apply State.raise_keeps
    with_reducible apply State.setCq_keeps
    assumption
  · assumption

theorem State.releaseHeld_keeps {q s : State} (hq : Keeps q s) (c : Nat) (n : Nat) : Keeps q (State.releaseHeld s c n) := by
  induction n generalizing s with
  | zero => exact hq
  | succ n ih =>
    rw [State.releaseHeld]
    split
    · exact hq
    · refine Keeps.ite hq (Keeps.ite (State.noteFull_keeps hq _) ?_)
      exact ih (State.writeHeld_keeps hq _ _ _)

theorem State.release_keeps {q s : State} (hq : Keeps q s) (c : Nat) : Keeps q (State.release s c) := by
  unfold State.release
  with_reducible apply State.releaseHeld_keeps
  assumption

theorem State.rewriteAll_keeps {q s : State} (hq : Keeps q s) (c : Nat) (l : List StoredRec) :
    Keeps q (State.rewriteAll s c l) := by
  induction l generalizing s with
  | nil => exact hq
  | cons r t ih => exact ih (Keeps.ite hq (State.putRecord_keeps hq _ _ _))

theorem State.rewriteStored_keeps {q s : State} (hq : Keeps q s) (c : Nat) (fresh : Bool) : Keeps q (State.rewriteStored s c fresh) := by
  unfold State.rewriteStored
  extract_lets +onlyGivenNames v1
  clear_value v1
  with_reducible refine Keeps.ite ?_ ?_
  · extract_lets +onlyGivenNames v2
    have hv2 : Keeps q v2 := by
      unfold v2
      with_reducible apply State.setCq_keeps
      assumption
    clear_value v2
    with_reducible apply State.release_keeps
    assumption
  · extract_lets +onlyGivenNames v3
    have hv3 : Keeps q v3 := by
      unfold v3
      with_reducible apply State.rewriteAll_keeps
      assumption
    clear_value v3
    extract_lets +onlyGivenNames v4
    clear_value v4
    extract_lets +onlyGivenNames v5
    have hv5 : Keeps q v5 := by
      unfold v5
      with_reducible apply State.setCq_keeps
      assumption
    clear_value v5
    with_reducible apply State.release_keeps
    assumption

theorem State.dropCtx_keeps {q s : State} (hq : Keeps q s) (i : Nat) : Keeps q (State.dropCtx s i) := by
  unfold State.dropCtx
  with_reducible apply Keeps.upd
  · assumption
  · rfl

theorem State.closeCtx_keeps {q s : State} (hq : Keeps q s) (c : Nat) : Keeps q (State.closeCtx s c) := by
  unfold State.closeCtx
  split
  · assumption
  · extract_lets +onlyGivenNames v1
    clear_value v1
    extract_lets +onlyGivenNames v2
    have hv2 : Keeps q v2 := by
      unfold v2
      with_reducible apply State.setChan_keeps
      assumption
    clear_value v2
    with_reducible apply State.settleCtx_keeps
    split
    · with_reducible apply State.setCtx_keeps
      assumption
    · assumption

theorem State.rangeCtx_keeps {q s : State} (hq : Keeps q s) (i : Nat) (opened : Bool) : Keeps q (State.rangeCtx s i opened) := by
  unfold State.rangeCtx
  split
  · assumption
  · extract_lets +onlyGivenNames v1
    clear_value v1
    extract_lets +onlyGivenNames v2
    clear_value v2
    extract_lets +onlyGivenNames v3
    have hv3 : Keeps q v3 := by
      unfold v3
      with_reducible refine Keeps.ite ?_ ?_
      · with_reducible apply State.setChan_keeps
        assumption
      · assumption
    clear_value v3
    with_reducible refine Keeps.ite ?_ ?_
    · with_reducible apply State.dropCtx_keeps
      assumption
    · with_reducible refine Keeps.ite ?_ ?_
      · with_reducible apply State.settleCtx_keeps
        with_reducible apply State.setCtx_keeps
        assumption
      · with_reducible apply State.settleCtx_keeps
        assumption

theorem State.dropReads_keeps {q s : State} (hq : Keeps q s) (c : Nat) : Keeps q (State.dropReads s c) := by
  unfold State.dropReads
  with_reducible apply Keeps.upd
  · assumption
  · rfl

theorem State.issueRing_keeps {q s : State} (hq : Keeps q s) (c : Nat) : Keeps q (State.issueRing s c) := by
  unfold State.issueRing
  with_reducible apply State.emit_keeps
  with_reducible apply Keeps.upd
  · assumption
  · rfl

theorem State.extReads_keeps {q s : State} (hq : Keeps q s) (c : Nat) (n : Nat) : Keeps q (State.extReads s c n) := by
  unfold State.extReads
  with_reducible apply Keeps.updOut
  · assumption
  · rfl

theorem State.pumpRing_keeps {q s : State} (hq : Keeps q s) (c : Nat) : Keeps q (State.pumpRing s c) := by
  unfold State.pumpRing
  with_reducible refine Keeps.ite ?_ ?_
  · with_reducible apply State.issueRing_keeps
    assumption
  · assumption

theorem State.pumpRings_keeps {q s : State} (hq : Keeps q s) (cs : List Nat) : Keeps q (State.pumpRings s cs) := by
  unfold State.pumpRings
  with_reducible refine Keeps.foldl ?_ ?_
  · assumption
  · intro x1 x2 x3
    with_reducible apply State.pumpRing_keeps
    assumption

theorem State.failCtx_keeps {q s : State} (hq : Keeps q s) (i : Nat) (status : Nat) (a : Nat) (b : Nat) : Keeps q (State.failCtx s i status a b) := by
  unfold State.failCtx
  split
  · assumption
  · with_reducible refine Keeps.ite ?_ ?_
    · with_reducible apply State.setCtx_keeps
      assumption
    · assumption

theorem State.advance_keeps {q s : State} (hq : Keeps q s) (c : Nat) (slot : List Byte) : Keeps q (State.advance s c slot) := by
  unfold State.advance
  extract_lets +onlyGivenNames v1
  clear_value v1
  with_reducible apply State.setChan_keeps
  assumption

theorem State.enlist_keeps {q s : State} (hq : Keeps q s) (c : Nat) (slot : List Byte) (payload : List Byte) (part : Nat) (o : Option Origin) : Keeps q (State.enlist s c slot payload part o) := by
  unfold State.enlist
  extract_lets +onlyGivenNames v1
  clear_value v1
  extract_lets +onlyGivenNames v2
  clear_value v2
  extract_lets +onlyGivenNames v3
  clear_value v3
  extract_lets +onlyGivenNames v4
  clear_value v4
  extract_lets +onlyGivenNames v5
  clear_value v5
  extract_lets +onlyGivenNames v6
  clear_value v6
  extract_lets +onlyGivenNames v7
  extract_lets +onlyGivenNames v8
  have hv8 : Keeps q v8 := by
    unfold v8
    with_reducible apply Keeps.upd
    · assumption
    · rfl
  clear_value v8
  extract_lets +onlyGivenNames v9
  clear_value v9
  extract_lets +onlyGivenNames v10
  have hv10 : Keeps q v10 := by
    unfold v10
    with_reducible refine Keeps.ite ?_ ?_
    · with_reducible apply State.setChan_keeps
      assumption
    · assumption
  clear_value v10
  extract_lets +onlyGivenNames v11
  have hv11 : Keeps q v11 := by
    unfold v11
    with_reducible refine Keeps.ite ?_ ?_
    · with_reducible apply State.closeCtx_keeps
      assumption
    · assumption
  clear_value v11
  split
  · with_reducible apply State.setExtra_keeps
    assumption
  · assumption

theorem State.grantCtxs_keeps {q s : State} (hq : Keeps q s) (n : Nat) : Keeps q (State.grantCtxs s n) := by
  induction n generalizing s with
  | zero => exact hq
  | succ n ih =>
    rw [State.grantCtxs]
    split
    · exact hq
    · split
      · exact hq
      · exact ih (State.pumpRing_keeps (State.enlist_keeps (State.advance_keeps hq _ _) _ _ _ _ _) _)

theorem State.drainDone_keeps {q s : State} (hq : Keeps q s) (c : Nat) : Keeps q (State.drainDone s c) := by
  unfold State.drainDone
  extract_lets +onlyGivenNames v1
  clear_value v1
  with_reducible refine Keeps.ite ?_ ?_
  · extract_lets +onlyGivenNames v2
    have hv2 : Keeps q v2 := by
      unfold v2
      with_reducible apply State.closeCtx_keeps
      assumption
    clear_value v2
    with_reducible apply State.setCq_keeps
    with_reducible apply State.setChan_keeps
    assumption
  · assumption

theorem State.recordOf_keeps {q s : State} (hq : Keeps q s) (d : Cmd) (status : Nat) (a : Nat) (b : Nat) (inherited : Bool) : Keeps q (State.recordOf s d status a b inherited) := by
  unfold State.recordOf
  with_reducible refine Keeps.ite ?_ ?_
  · assumption
  · extract_lets +onlyGivenNames v1
    clear_value v1
    extract_lets +onlyGivenNames v2
    clear_value v2
    extract_lets +onlyGivenNames v3
    clear_value v3
    split
    · with_reducible refine Keeps.ite ?_ ?_
      · assumption
      · with_reducible apply State.hostRecord_keeps
        assumption
    · split
      · with_reducible apply State.batchRecord_keeps
        assumption
      · assumption

theorem State.countLost_keeps {q s : State} (hq : Keeps q s) (d : Cmd) (status : Nat) : Keeps q (State.countLost s d status) := by
  unfold State.countLost
  with_reducible refine Keeps.ite ?_ ?_
  · extract_lets +onlyGivenNames v1
    clear_value v1
    with_reducible apply State.raise_keeps
    with_reducible apply State.setCq_keeps
    assumption
  · assumption

theorem State.refuseServed_keeps {q s : State} (hq : Keeps q s) (d : Cmd) (status : Nat) : Keeps q (State.refuseServed s d status) := by
  unfold State.refuseServed
  split
  · assumption
  · with_reducible refine Keeps.ite ?_ ?_
    · with_reducible apply State.refuseMsg_keeps
      assumption
    · with_reducible refine Keeps.ite ?_ ?_
      · with_reducible apply State.refuseMsg_keeps
        assumption
      · assumption

theorem State.endOne_keeps {q s : State} (hq : Keeps q s) (d : Cmd) (status : Nat) (a : Nat) (b : Nat) (inherited : Bool) : Keeps q (State.endOne s d status a b inherited) := by
  unfold State.endOne
  extract_lets +onlyGivenNames v1
  have hv1 : Keeps q v1 := by
    unfold v1
    with_reducible apply State.refuseServed_keeps
    with_reducible apply State.recordOf_keeps
    assumption
  clear_value v1
  extract_lets +onlyGivenNames v2
  have hv2 : Keeps q v2 := by
    unfold v2
    with_reducible refine Keeps.ite ?_ ?_
    · with_reducible apply State.raise_keeps
      assumption
    · with_reducible refine Keeps.ite ?_ ?_
      · with_reducible apply State.raise_keeps
        assumption
      · with_reducible refine Keeps.ite ?_ ?_
        · with_reducible apply State.raise_keeps
          assumption
        · assumption
  clear_value v2
  extract_lets +onlyGivenNames v3
  have hv3 : Keeps q v3 := by
    unfold v3
    with_reducible apply State.countLost_keeps
    assumption
  clear_value v3
  extract_lets +onlyGivenNames v4
  clear_value v4
  extract_lets +onlyGivenNames v5
  have hv5 : Keeps q v5 := by
    unfold v5
    with_reducible apply State.setAcct_keeps
    assumption
  clear_value v5
  extract_lets +onlyGivenNames v6
  have hv6 : Keeps q v6 := by
    unfold v6
    with_reducible refine Keeps.ite ?_ ?_
    · split
      · with_reducible apply State.failCtx_keeps
        assumption
      · assumption
    · assumption
  clear_value v6
  extract_lets +onlyGivenNames v7
  have hv7 : Keeps q v7 := by
    unfold v7
    with_reducible refine Keeps.ite ?_ ?_
    · with_reducible apply State.chargeCyc_keeps
      assumption
    · assumption
  clear_value v7
  extract_lets +onlyGivenNames v8
  have hv8 : Keeps q v8 := by
    unfold v8
    with_reducible apply State.dropCmd_keeps
    assumption
  clear_value v8
  extract_lets +onlyGivenNames v9
  have hv9 : Keeps q v9 := by
    unfold v9
    split
    · with_reducible refine Keeps.ite ?_ ?_
      · with_reducible apply State.rangeCtx_keeps
        assumption
      · with_reducible apply State.settleCtx_keeps
        assumption
    · assumption
  clear_value v9
  with_reducible apply State.grantCtxs_keeps
  with_reducible apply State.pumpRing_keeps
  with_reducible apply State.drainDone_keeps
  assumption

theorem State.dropLaunch_keeps {q s : State} (hq : Keeps q s) (l : Nat) : Keeps q (State.dropLaunch s l) := by
  unfold State.dropLaunch
  with_reducible apply Keeps.upd
  · assumption
  · rfl

theorem State.abandonRest_keeps {q s : State} (hq : Keeps q s) (x : Launch) : Keeps q (State.abandonRest s x) := by
  unfold State.abandonRest
  split
  · with_reducible refine Keeps.foldl ?_ ?_
    · assumption
    · intro x1 x2 x3
      with_reducible refine Keeps.ite ?_ ?_
      · assumption
      · with_reducible apply State.dropCmd_keeps
        assumption
  · assumption

theorem State.endLaunch_keeps {q s : State} (hq : Keeps q s) (x : Launch) : Keeps q (State.endLaunch s x) := by
  unfold State.endLaunch
  extract_lets +onlyGivenNames v1
  have hv1 : Keeps q v1 := by
    unfold v1
    with_reducible apply State.dropLaunch_keeps
    assumption
  clear_value v1
  split
  · assumption
  · split
    · with_reducible apply State.endOne_keeps
      assumption
    · with_reducible refine Keeps.ite ?_ ?_
      · with_reducible apply State.endOne_keeps
        assumption
      · with_reducible apply State.endOne_keeps
        assumption

theorem State.settleLaunch_keeps {q s : State} (hq : Keeps q s) (l : Nat) : Keeps q (State.settleLaunch s l) := by
  unfold State.settleLaunch
  split
  · assumption
  · extract_lets +onlyGivenNames v1
    have hv1 : Keeps q v1 := by
      unfold v1
      with_reducible apply State.abandonRest_keeps
      assumption
    clear_value v1
    with_reducible refine Keeps.ite ?_ ?_
    · with_reducible apply State.endLaunch_keeps
      assumption
    · assumption

theorem State.endFold_keeps {q s : State} (hq : Keeps q s) (d : Cmd) : Keeps q (State.endFold s d) := by
  unfold State.endFold
  extract_lets +onlyGivenNames v1
  have hv1 : Keeps q v1 := by
    unfold v1
    with_reducible apply State.dropCmd_keeps
    assumption
  clear_value v1
  split
  · split
    · with_reducible apply State.setObj_keeps
      assumption
    · assumption
  · assumption

theorem State.endCmd_keeps {q s : State} (hq : Keeps q s) (d : Cmd) (status : Nat) (a : Nat) (b : Nat) (inherited : Bool) : Keeps q (State.endCmd s d status a b inherited) := by
  unfold State.endCmd
  with_reducible refine Keeps.ite ?_ ?_
  · with_reducible apply State.endFold_keeps
    assumption
  · extract_lets +onlyGivenNames v1
    have hv1 : Keeps q v1 := by
      unfold v1
      with_reducible apply State.endOne_keeps
      assumption
    clear_value v1
    split
    · assumption
    · split
      · assumption
      · extract_lets +onlyGivenNames v2
        clear_value v2
        extract_lets +onlyGivenNames v3
        clear_value v3
        with_reducible apply State.settleLaunch_keeps
        with_reducible apply State.setLaunch_keeps
        assumption

theorem State.stopLaunch_keeps {q s : State} (hq : Keeps q s) (l : Nat) (pos : Nat) (status : Nat) : Keeps q (State.stopLaunch s l pos status) := by
  unfold State.stopLaunch
  split
  · assumption
  · with_reducible apply State.settleLaunch_keeps
    with_reducible apply State.setLaunch_keeps
    assumption

theorem State.issue_keeps {q s : State} (hq : Keeps q s) (d : Cmd) (p : Phase) : Keeps q (State.issue s d p) := by
  unfold State.issue
  extract_lets +onlyGivenNames v1
  clear_value v1
  extract_lets +onlyGivenNames v2
  have hv2 : Keeps q v2 := by
    unfold v2
    with_reducible apply State.setAcct_keeps
    assumption
  clear_value v2
  with_reducible apply State.setCmd_keeps
  assumption

theorem State.acceptRange_keeps {q s : State} (hq : Keeps q s) (c : Nat) (slot : List Byte) (off : Nat) (o : Option Origin) : Keeps q (State.acceptRange s c slot off o) := by
  unfold State.acceptRange
  extract_lets +onlyGivenNames v1
  have hv1 : Keeps q v1 := by
    unfold v1
    with_reducible refine Keeps.ite ?_ ?_
    · with_reducible apply State.closeCtx_keeps
      assumption
    · assumption
  clear_value v1
  extract_lets +onlyGivenNames v2
  clear_value v2
  extract_lets +onlyGivenNames v3
  clear_value v3
  extract_lets +onlyGivenNames v4
  extract_lets +onlyGivenNames v5
  have hv5 : Keeps q v5 := by
    unfold v5
    with_reducible apply Keeps.upd
    · assumption
    · rfl
  clear_value v5
  extract_lets +onlyGivenNames v6
  clear_value v6
  extract_lets +onlyGivenNames v7
  have hv7 : Keeps q v7 := by
    unfold v7
    split
    · with_reducible apply State.setExtra_keeps
      assumption
    · assumption
  clear_value v7
  extract_lets +onlyGivenNames v8
  have hv8 : Keeps q v8 := by
    unfold v8
    split
    · with_reducible apply State.failCtx_keeps
      assumption
    · assumption
  clear_value v8
  extract_lets +onlyGivenNames v9
  have hv9 : Keeps q v9 := by
    unfold v9
    with_reducible apply State.endOne_keeps
    assumption
  clear_value v9
  with_reducible refine Keeps.ite ?_ ?_
  · with_reducible apply State.closeCtx_keeps
    assumption
  · assumption

theorem State.acceptSlot_keeps {q s : State} (hq : Keeps q s) (c : Nat) (slot : List Byte) (payload : List Byte) (o : Option Origin) : Keeps q (State.acceptSlot s c slot payload o) := by
  unfold State.acceptSlot
  split
  · with_reducible apply State.acceptRange_keeps
    with_reducible apply State.advance_keeps
    assumption
  · extract_lets +onlyGivenNames v1
    have hv1 : Keeps q v1 := by
      unfold v1
      with_reducible refine Keeps.ite ?_ ?_
      · with_reducible apply State.closeCtx_keeps
        assumption
      · assumption
    clear_value v1
    with_reducible refine Keeps.ite ?_ ?_
    · with_reducible apply State.raise_keeps
      with_reducible apply State.setChan_keeps
      assumption
    · with_reducible apply State.enlist_keeps
      with_reducible apply State.advance_keeps
      assumption

end Sys2Proof.Machine
end

