-- ==== Sys2Proof/Laws/KeepsWork.lean ====
section
/-! SUPPORT. `Keeps` for tiles, graph front end, objects, outputs, scales, runs and lists. -/

namespace Sys2Proof.Machine
open Sys2Proof

theorem State.ignored_keeps {q s : State} (hq : Keeps q s) (w : Win) (item : Nat) (off : Nat) : Keeps q (State.ignored s w item off) := by
  unfold State.ignored
  with_reducible apply State.raise_keeps
  assumption

theorem State.chanIgnored_keeps {q s : State} (hq : Keeps q s) (c : Nat) : Keeps q (State.chanIgnored s c) := by
  unfold State.chanIgnored
  with_reducible apply State.ignored_keeps
  assumption

theorem State.writeFrame_keeps {q s : State} (hq : Keeps q s) (f : Nat) (bytes : List Byte) (fmt : Nat) (tile : Nat) (seq : Nat) (scale : Nat) : Keeps q (State.writeFrame s f bytes fmt tile seq scale) := by
  unfold State.writeFrame
  with_reducible apply State.writeBytes_keeps
  with_reducible apply State.writeBytes_keeps
  assumption

theorem State.copyFrame_keeps {q s : State} (hq : Keeps q s) (src : Nat) (dst : Nat) : Keeps q (State.copyFrame s src dst) := by
  unfold State.copyFrame
  with_reducible apply State.writeBytes_keeps
  with_reducible apply State.writeBytes_keeps
  assumption

theorem State.faultLog_keeps {q s : State} (hq : Keeps q s) (kind : Nat) (wh : Nat) (cause : Nat) (op : Nat) (a : Nat) (b : Nat) (tier : Nat) (fr : Nat) : Keeps q (State.faultLog s kind wh cause op a b tier fr) := by
  unfold State.faultLog
  extract_lets +onlyGivenNames v1
  clear_value v1
  extract_lets +onlyGivenNames v2
  clear_value v2
  with_reducible refine Keeps.ite ?_ ?_
  · with_reducible apply Keeps.upd
    · assumption
    · rfl
  · with_reducible apply State.raise_keeps
    with_reducible apply Keeps.upd
    · assumption
    · rfl

theorem State.retireFrame_keeps {q s : State} (hq : Keeps q s) (f : Nat) : Keeps q (State.retireFrame s f) := by
  unfold State.retireFrame
  extract_lets +onlyGivenNames v1
  clear_value v1
  extract_lets +onlyGivenNames v2
  have hv2 : Keeps q v2 := by
    unfold v2
    with_reducible apply State.setFrame_keeps
    assumption
  clear_value v2
  extract_lets +onlyGivenNames v3
  clear_value v3
  extract_lets +onlyGivenNames v4
  clear_value v4
  extract_lets +onlyGivenNames v5
  have hv5 : Keeps q v5 := by
    unfold v5
    with_reducible apply Keeps.upd
    · assumption
    · rfl
  clear_value v5
  with_reducible apply State.raise_keeps
  with_reducible apply State.faultLog_keeps
  assumption

theorem State.touch_keeps {q s : State} (hq : Keeps q s) (f : Nat) : Keeps q (State.touch s f) := by
  unfold State.touch
  split
  · with_reducible apply Keeps.upd
    · assumption
    · rfl
  · with_reducible refine Keeps.ite ?_ ?_
    · with_reducible apply State.setFrame_keeps
      assumption
    · assumption

theorem State.freeFrame_keeps {q s : State} (hq : Keeps q s) (f : Nat) : Keeps q (State.freeFrame s f) := by
  unfold State.freeFrame
  extract_lets +onlyGivenNames v1
  clear_value v1
  with_reducible refine Keeps.ite ?_ ?_
  · with_reducible apply State.retireFrame_keeps
    assumption
  · with_reducible apply State.setFrame_keeps
    assumption

theorem State.leaveHome_keeps {q s : State} (hq : Keeps q s) (f : Nat) : Keeps q (State.leaveHome s f) := by
  unfold State.leaveHome
  with_reducible refine Keeps.ite ?_ ?_
  · with_reducible apply State.setFrame_keeps
    assumption
  · with_reducible apply State.freeFrame_keeps
    assumption

theorem State.releaseReads_keeps {q s : State} (hq : Keeps q s) (fs : List Nat) : Keeps q (State.releaseReads s fs) := by
  unfold State.releaseReads
  with_reducible refine Keeps.foldl ?_ ?_
  · assumption
  · intro x1 x2 x3
    extract_lets +onlyGivenNames v4
    clear_value v4
    with_reducible refine Keeps.ite ?_ ?_
    · with_reducible apply State.freeFrame_keeps
      assumption
    · assumption

theorem State.takeShadow_keeps {q s : State} (hq : Keeps q s) (f : Nat) (obj : Nat) (tile : Nat) (cls : Nat) : Keeps q (State.takeShadow s f obj tile cls) := by
  unfold State.takeShadow
  with_reducible apply State.setFrame_keeps
  assumption

theorem State.makeHome_keeps {q s : State} (hq : Keeps q s) (f : Nat) (obj : Nat) (tile : Nat) : Keeps q (State.makeHome s f obj tile) := by
  unfold State.makeHome
  with_reducible apply State.setHome_keeps
  with_reducible apply State.setFrame_keeps
  assumption

theorem State.dropMove_keeps {q s : State} (hq : Keeps q s) (h : Nat) (tile : Nat) : Keeps q (State.dropMove s h tile) := by
  unfold State.dropMove
  with_reducible apply Keeps.upd
  · assumption
  · rfl

theorem State.unlistWant_keeps {q s : State} (hq : Keeps q s) (w : MoveWant) : Keeps q (State.unlistWant s w) := by
  unfold State.unlistWant
  with_reducible apply Keeps.upd
  · assumption
  · rfl

theorem State.dropWant_keeps {q s : State} (hq : Keeps q s) (h : Nat) (tile : Nat) : Keeps q (State.dropWant s h tile) := by
  unfold State.dropWant
  extract_lets +onlyGivenNames v1
  have hv1 : Keeps q v1 := by
    unfold v1
    with_reducible refine Keeps.foldl ?_ ?_
    · assumption
    · intro x1 x2 x3
      with_reducible apply State.freeFrame_keeps
      assumption
  clear_value v1
  with_reducible apply Keeps.upd
  · assumption
  · rfl

theorem State.keepSlots_keeps {q s : State} (hq : Keeps q s) (h : Nat) (tile : Nat) (k : Nat) : Keeps q (State.keepSlots s h tile k) := by
  unfold State.keepSlots
  with_reducible apply Keeps.upd
  · assumption
  · rfl

theorem State.dropCellar_keeps {q s : State} (hq : Keeps q s) (h : Nat) (tile : Nat) : Keeps q (State.dropCellar s h tile) := by
  unfold State.dropCellar
  with_reducible apply State.keepSlots_keeps
  assumption

theorem State.abandonMove_keeps {q s : State} (hq : Keeps q s) (h : Nat) (tile : Nat) (retry : Bool) : Keeps q (State.abandonMove s h tile retry) := by
  unfold State.abandonMove
  split
  · assumption
  · extract_lets +onlyGivenNames v1
    have hv1 : Keeps q v1 := by
      unfold v1
      with_reducible apply State.freeFrame_keeps
      with_reducible apply State.dropCellar_keeps
      with_reducible apply State.dropMove_keeps
      assumption
    extract_lets +onlyGivenNames v2
    extract_lets +onlyGivenNames v3
    extract_lets +onlyGivenNames v4
    have hv4 : Keeps q v4 := by
      unfold v4
      with_reducible refine Keeps.ite ?_ ?_
      · with_reducible apply Keeps.upd
        · assumption
        · rfl
      · assumption
    with_reducible refine Keeps.ite ?_ ?_
    · with_reducible apply State.releaseReads_keeps
      assumption
    · assumption

theorem State.holdHome_keeps {q s : State} (hq : Keeps q s) (h : Nat) (tile : Nat) (f : Nat) : Keeps q (State.holdHome s h tile f) := by
  unfold State.holdHome
  extract_lets +onlyGivenNames v1
  have hv1 : Keeps q v1 := by
    unfold v1
    split
    · with_reducible refine Keeps.ite ?_ ?_
      · with_reducible apply State.abandonMove_keeps
        assumption
      · assumption
    · assumption
  with_reducible refine Keeps.ite ?_ ?_
  · with_reducible apply State.dropWant_keeps
    assumption
  · assumption

theorem State.poisonFrame_keeps {q s : State} (hq : Keeps q s) (f : Nat) (c : PoisonCause) : Keeps q (State.poisonFrame s f c) := by
  unfold State.poisonFrame
  extract_lets +onlyGivenNames v1
  clear_value v1
  extract_lets +onlyGivenNames v2
  clear_value v2
  extract_lets +onlyGivenNames v3
  have hv3 : Keeps q v3 := by
    unfold v3
    with_reducible apply State.setFrame_keeps
    assumption
  clear_value v3
  extract_lets +onlyGivenNames v4
  clear_value v4
  extract_lets +onlyGivenNames v5
  have hv5 : Keeps q v5 := by
    unfold v5
    with_reducible apply Keeps.upd
    · assumption
    · rfl
  clear_value v5
  with_reducible apply State.holdHome_keeps
  with_reducible apply State.raiseEvent_keeps
  with_reducible apply State.faultLog_keeps
  assumption

theorem State.flipTile_keeps {q s : State} (hq : Keeps q s) (h : Shadow) : Keeps q (State.flipTile s h) := by
  unfold State.flipTile
  extract_lets +onlyGivenNames v1
  have hv1 : Keeps q v1 := by
    unfold v1
    split
    · with_reducible apply State.abandonMove_keeps
      assumption
    · assumption
  clear_value v1
  extract_lets +onlyGivenNames v2
  clear_value v2
  extract_lets +onlyGivenNames v3
  have hv3 : Keeps q v3 := by
    unfold v3
    with_reducible apply State.makeHome_keeps
    assumption
  clear_value v3
  split
  · with_reducible refine Keeps.ite ?_ ?_
    · assumption
    · with_reducible apply State.leaveHome_keeps
      assumption
  · assumption

theorem State.flipAll_keeps {q s : State} (hq : Keeps q s) (hs : List Shadow) : Keeps q (State.flipAll s hs) := by
  unfold State.flipAll
  with_reducible refine Keeps.foldl ?_ ?_
  · assumption
  · intro x1 x2 x3
    with_reducible apply State.flipTile_keeps
    assumption

theorem State.freeShadows_keeps {q s : State} (hq : Keeps q s) (hs : List Shadow) : Keeps q (State.freeShadows s hs) := by
  unfold State.freeShadows
  with_reducible refine Keeps.foldl ?_ ?_
  · assumption
  · intro x1 x2 x3
    with_reducible apply State.freeFrame_keeps
    assumption

theorem State.reap_keeps {q s : State} (hq : Keeps q s) (h : Nat) : Keeps q (State.reap s h) := by
  unfold State.reap
  split
  · assumption
  · with_reducible refine Keeps.ite ?_ ?_
    · extract_lets +onlyGivenNames v1
      have hv1 : Keeps q v1 := by
        unfold v1
        with_reducible refine Keeps.foldl ?_ ?_
        · assumption
        · intro x1 x2 x3
          with_reducible apply State.abandonMove_keeps
          assumption
      clear_value v1
      extract_lets +onlyGivenNames v2
      have hv2 : Keeps q v2 := by
        unfold v2
        with_reducible refine Keeps.foldl ?_ ?_
        · assumption
        · intro x4 x5 x6
          with_reducible apply State.dropWant_keeps
          assumption
      clear_value v2
      with_reducible apply State.dropObj_keeps
      with_reducible refine Keeps.foldl ?_ ?_
      · assumption
      · intro x7 x8 x9
        with_reducible apply State.freeFrame_keeps
        assumption
    · assumption

theorem State.reapAll_keeps {q s : State} (hq : Keeps q s) : Keeps q (State.reapAll s) := by
  unfold State.reapAll
  with_reducible refine Keeps.foldl ?_ ?_
  · assumption
  · intro x1 x2 x3
    with_reducible apply State.reap_keeps
    assumption

theorem State.allocShadow_keeps {q s : State} (hq : Keeps q s) (t : Nat × Nat) (h : Nat) (tile : Nat) (cls : Nat) : KeepsP q (State.allocShadow s t h tile cls) := by
  unfold State.allocShadow
  split
  · with_reducible exact KeepsP.none
  · with_reducible apply KeepsP.some
    with_reducible apply State.takeShadow_keeps
    assumption

theorem State.engineRead_keeps {q s : State} (hq : Keeps q s) (c : Nat) (n : Nat) (f : Nat) (k : Nat) : Keeps q (State.engineRead s c n f k) := by
  unfold State.engineRead
  extract_lets +onlyGivenNames v1
  have hv1 : Keeps q v1 := by
    unfold v1
    with_reducible apply State.touch_keeps
    assumption
  clear_value v1
  with_reducible refine Keeps.ite ?_ ?_
  · assumption
  · with_reducible apply State.chargeMove_keeps
    assumption

theorem State.engineReads_keeps {q s : State} (hq : Keeps q s) (c : Nat) (n : Nat) (f : Nat) (k : Nat) (times : Nat) : Keeps q (State.engineReads s c n f k times) := by
  unfold State.engineReads
  extract_lets +onlyGivenNames v1
  have hv1 : Keeps q v1 := by
    unfold v1
    with_reducible refine Keeps.foldl ?_ ?_
    · assumption
    · intro x1 x2 x3
      with_reducible apply State.touch_keeps
      assumption
  clear_value v1
  with_reducible refine Keeps.ite ?_ ?_
  · assumption
  · with_reducible apply State.chargeMove_keeps
    assumption

theorem State.engineWrite_keeps {q s : State} (hq : Keeps q s) (c : Nat) (n : Nat) (f : Nat) (k : Nat) : Keeps q (State.engineWrite s c n f k) := by
  unfold State.engineWrite
  extract_lets +onlyGivenNames v1
  have hv1 : Keeps q v1 := by
    unfold v1
    with_reducible apply State.touch_keeps
    assumption
  clear_value v1
  with_reducible refine Keeps.ite ?_ ?_
  · assumption
  · with_reducible apply State.chargeMove_keeps
    assumption

theorem State.prep_keeps {q s : State} (hq : Keeps q s) (n : Node) : Keeps q (State.prep s n).1 := by
  unfold State.prep
  split
  · assumption
  · split
    · assumption
    · extract_lets +onlyGivenNames v1
      clear_value v1
      split
      · dsimp only
        with_reducible apply State.endCmd_keeps
        assumption
      · split
        · assumption
        · extract_lets +onlyGivenNames v2
          clear_value v2
          split
          · dsimp only
            with_reducible apply State.stopLaunch_keeps
            assumption
          · extract_lets +onlyGivenNames v3
            clear_value v3
            dsimp only
            with_reducible apply State.setCmd_keeps
            assumption

theorem State.gfeHead_keeps {q s : State} (hq : Keeps q s) (n : Node) (op : Nat) (f : State → Cmd → State)
    (hf : ∀ t d, Keeps q t → Keeps q (f t d)) : Keeps q (State.gfeHead s n op f) := by
  unfold State.gfeHead
  refine Keeps.ite hq ?_
  split
  · exact hq
  · refine Keeps.ite hq ?_
    have h := State.prep_keeps hq n
    split
    · rename_i e; exact h.fst e
    · rename_i e; exact hf _ _ (h.fst e)

theorem State.endNow_keeps {q s : State} (hq : Keeps q s) (d : Cmd) (status : Nat) (a : Nat) (b : Nat) : Keeps q (State.endNow s d status a b) := by
  unfold State.endNow
  with_reducible apply State.endCmd_keeps
  with_reducible apply State.issue_keeps
  assumption

theorem State.runNop_keeps {q s : State} (hq : Keeps q s) (d : Cmd) : Keeps q (State.runNop s d) := by
  unfold State.runNop
  with_reducible apply State.endNow_keeps
  assumption

theorem execNop_keeps {q s : State} (hq : Keeps q s) (n : Node) : Runs q (execNop n s) := by
  unfold execNop
  with_reducible apply Runs.done
  with_reducible apply State.gfeHead_keeps
  · assumption
  · intro x1 x2 x3
    with_reducible apply State.runNop_keeps
    assumption

theorem State.rewriteTile_keeps {q s : State} (hq : Keeps q s) (h : Nat) (tile : Nat) (cls : Nat) (off : Nat) (bytes : List Byte) : Keeps q (State.rewriteTile s h tile cls off bytes) := by
  unfold State.rewriteTile
  split
  · assumption
  · split
    · with_reducible apply State.writeBytes_keeps
      assumption
    · with_reducible apply State.flipTile_keeps
      with_reducible apply State.writeBytes_keeps
      with_reducible apply State.copyFrame_keeps
      with_reducible refine KeepsP.use ?_ (by assumption)
      with_reducible apply State.allocShadow_keeps
      assumption

theorem State.runTimestamp_keeps {q s : State} (hq : Keeps q s) (d : Cmd) : Keeps q (State.runTimestamp s d) := by
  unfold State.runTimestamp
  with_reducible refine Keeps.ite ?_ ?_
  · extract_lets +onlyGivenNames v1
    clear_value v1
    extract_lets +onlyGivenNames v2
    clear_value v2
    split
    · with_reducible apply State.endNow_keeps
      assumption
    · with_reducible refine Keeps.ite ?_ ?_
      · with_reducible apply State.endNow_keeps
        assumption
      · with_reducible refine Keeps.ite ?_ ?_
        · with_reducible apply State.endNow_keeps
          assumption
        · extract_lets +onlyGivenNames v3
          clear_value v3
          split
          · with_reducible apply State.endNow_keeps
            assumption
          · with_reducible refine Keeps.ite ?_ ?_
            · with_reducible apply State.endNow_keeps
              assumption
            · with_reducible apply State.endNow_keeps
              with_reducible apply State.rewriteTile_keeps
              assumption
  · with_reducible apply State.endNow_keeps
    assumption

theorem execTimestamp_keeps {q s : State} (hq : Keeps q s) (n : Node) : Runs q (execTimestamp n s) := by
  unfold execTimestamp
  with_reducible apply Runs.done
  with_reducible apply State.gfeHead_keeps
  · assumption
  · intro x1 x2 x3
    with_reducible apply State.runTimestamp_keeps
    assumption

theorem State.wakeFence_keeps {q s : State} (hq : Keeps q s) (n : Nat) : Keeps q (State.wakeFence s n) := by
  unfold State.wakeFence
  with_reducible refine Keeps.foldl ?_ ?_
  · assumption
  · intro x1 x2 x3
    with_reducible apply State.endCmd_keeps
    assumption

theorem State.noteFree_keeps {q s : State} (hq : Keeps q s) (n : Nat) : Keeps q (State.noteFree s n) := by
  refine ⟨hq.pending, fun c => ⟨(hq.canon c).mem, (hq.canon c).regs, (hq.canon c).chans, (hq.canon c).cqs, (hq.canon c).accts, (hq.canon c).clus, (hq.canon c).cnts, (hq.canon c).pslots, (hq.canon c).scales, (hq.canon c).frames, ?_, (hq.canon c).fences, (hq.canon c).objs⟩, hq.out, hq.free⟩
  refine Sparse.wfAbove_map (fun x => ?_) (fun x hx => ?_) (hq.canon c).streams
  · dsimp only; split <;> rfl
  · dsimp only
    split
    · rename_i h
      intro e
      have e1 : x.2.state = StrState.idle := congrArg Stream.state e
      simp [e1] at h
    · exact hx

theorem State.setFenceVal_keeps {q s : State} (hq : Keeps q s) (n : Nat) (v : Nat) : Keeps q (State.setFenceVal s n v) := by
  unfold State.setFenceVal
  extract_lets +onlyGivenNames v1
  clear_value v1
  extract_lets +onlyGivenNames v2
  have hv2 : Keeps q v2 := by
    unfold v2
    with_reducible apply State.noteFree_keeps
    with_reducible apply State.setFence_keeps
    assumption
  clear_value v2
  with_reducible apply Keeps.upd
  · assumption
  · rfl

theorem State.closeFence_keeps {q s : State} (hq : Keeps q s) (n : Nat) : Keeps q (State.closeFence s n) := by
  unfold State.closeFence
  with_reducible apply State.wakeFence_keeps
  with_reducible refine Keeps.foldl ?_ ?_
  · assumption
  · intro x1 x2 x3
    with_reducible apply State.endCmd_keeps
    assumption

theorem State.closeFences_keeps {q s : State} (hq : Keeps q s) : Keeps q (State.closeFences s) := by
  unfold State.closeFences
  with_reducible refine Keeps.foldl ?_ ?_
  · with_reducible apply Keeps.upd
    · assumption
    · rfl
  · intro x1 x2 x3
    with_reducible apply State.closeFence_keeps
    assumption

theorem State.runFenceSignal_keeps {q s : State} (hq : Keeps q s) (d : Cmd) : Keeps q (State.runFenceSignal s d) := by
  unfold State.runFenceSignal
  extract_lets +onlyGivenNames v1
  clear_value v1
  extract_lets +onlyGivenNames v2
  clear_value v2
  extract_lets +onlyGivenNames v3
  clear_value v3
  extract_lets +onlyGivenNames v4
  clear_value v4
  with_reducible refine Keeps.ite ?_ ?_
  · with_reducible apply State.endNow_keeps
    assumption
  · with_reducible refine Keeps.ite ?_ ?_
    · with_reducible apply State.setFenceVal_keeps
      with_reducible apply State.issue_keeps
      assumption
    · with_reducible refine Keeps.ite ?_ ?_
      · with_reducible apply State.endNow_keeps
        assumption
      · with_reducible apply State.setFenceVal_keeps
        with_reducible apply State.issue_keeps
        assumption

theorem execFenceSignal_keeps {q s : State} (hq : Keeps q s) (n : Node) : Runs q (execFenceSignal n s) := by
  unfold execFenceSignal
  with_reducible apply Runs.done
  with_reducible apply State.gfeHead_keeps
  · assumption
  · intro x1 x2 x3
    with_reducible apply State.runFenceSignal_keeps
    assumption

theorem State.runFenceWait_keeps {q s : State} (hq : Keeps q s) (d : Cmd) : Keeps q (State.runFenceWait s d) := by
  unfold State.runFenceWait
  extract_lets +onlyGivenNames v1
  clear_value v1
  extract_lets +onlyGivenNames v2
  clear_value v2
  split
  · with_reducible refine Keeps.ite ?_ ?_
    · with_reducible apply State.endCmd_keeps
      assumption
    · assumption
  · with_reducible refine Keeps.ite ?_ ?_
    · with_reducible apply State.endNow_keeps
      assumption
    · with_reducible refine Keeps.ite ?_ ?_
      · with_reducible apply State.endNow_keeps
        assumption
      · with_reducible refine Keeps.ite ?_ ?_
        · with_reducible apply State.raise_keeps
          with_reducible apply State.endNow_keeps
          assumption
        · with_reducible apply State.issue_keeps
          assumption

theorem execFenceWait_keeps {q s : State} (hq : Keeps q s) (n : Node) : Runs q (execFenceWait n s) := by
  unfold execFenceWait
  with_reducible apply Runs.done
  with_reducible apply State.gfeHead_keeps
  · assumption
  · intro x1 x2 x3
    with_reducible apply State.runFenceWait_keeps
    assumption

theorem execFenceTimeout_keeps {q s : State} (hq : Keeps q s) (n : Node) : Runs q (execFenceTimeout n s) := by
  unfold execFenceTimeout
  with_reducible apply Runs.done
  split
  · assumption
  · with_reducible refine Keeps.ite ?_ ?_
    · assumption
    · with_reducible refine Keeps.ite ?_ ?_
      · with_reducible refine Keeps.ite ?_ ?_
        · with_reducible apply State.endCmd_keeps
          assumption
        · with_reducible apply State.raise_keeps
          with_reducible apply State.endCmd_keeps
          assumption
      · extract_lets +onlyGivenNames v1
        clear_value v1
        with_reducible refine Keeps.ite ?_ ?_
        · with_reducible apply State.endCmd_keeps
          assumption
        · with_reducible apply State.raise_keeps
          with_reducible apply State.endCmd_keeps
          assumption

theorem State.runHostFence_keeps {q s : State} (hq : Keeps q s) (d : Cmd) : Keeps q (State.runHostFence s d) := by
  unfold State.runHostFence
  extract_lets +onlyGivenNames v1
  clear_value v1
  extract_lets +onlyGivenNames v2
  clear_value v2
  with_reducible refine Keeps.ite ?_ ?_
  · with_reducible apply State.endNow_keeps
    assumption
  · with_reducible refine Keeps.ite ?_ ?_
    · with_reducible apply State.endNow_keeps
      assumption
    · extract_lets +onlyGivenNames v3
      clear_value v3
      with_reducible refine Keeps.ite ?_ ?_
      · with_reducible apply State.endNow_keeps
        assumption
      · with_reducible apply State.setExtra_keeps
        with_reducible apply State.issue_keeps
        assumption

theorem execHostFence_keeps {q s : State} (hq : Keeps q s) (n : Node) : Runs q (execHostFence n s) := by
  unfold execHostFence
  with_reducible apply Runs.done
  split
  · with_reducible refine Keeps.ite ?_ ?_
    · with_reducible apply State.endCmd_keeps
      assumption
    · with_reducible apply State.gfeHead_keeps
      · assumption
      · intro x1 x2 x3
        with_reducible apply State.runHostFence_keeps
        assumption
  · with_reducible apply State.gfeHead_keeps
    · assumption
    · intro x4 x5 x6
      with_reducible apply State.runHostFence_keeps
      assumption

theorem State.poisonIfBad_keeps {q s : State} (hq : Keeps q s) (d : Cmd) (h : Nat) (tile : Nat) : Keeps q (State.poisonIfBad s d h tile) := by
  unfold State.poisonIfBad
  with_reducible refine Keeps.ite ?_ ?_
  · assumption
  · split
    · with_reducible refine Keeps.ite ?_ ?_
      · split
        · with_reducible apply State.poisonFrame_keeps
          assumption
        · assumption
      · assumption
    · assumption

theorem State.tryFill_keeps {q s : State} (hq : Keeps q s) (c : CellarOp) : Keeps q (State.tryFill s c) := by
  unfold State.tryFill
  with_reducible refine Keeps.ite ?_ ?_
  · with_reducible apply Keeps.upd
    · assumption
    · rfl
  · assumption

theorem State.queueFills_keeps {q s : State} (hq : Keeps q s) (ops : List CellarOp) : Keeps q (State.queueFills s ops) := by
  unfold State.queueFills
  with_reducible refine Keeps.foldl ?_ ?_
  · with_reducible apply Keeps.upd
    · assumption
    · rfl
  · intro x1 x2 x3
    with_reducible apply State.tryFill_keeps
    assumption

theorem State.enterObj_keeps {q s : State} (hq : Keeps q s) (h : Nat) (o : Obj) (frames : List Nat) (order : Nat × Nat × Nat) : Keeps q (State.enterObj s h o frames order) := by
  unfold State.enterObj
  extract_lets +onlyGivenNames v1
  clear_value v1
  extract_lets +onlyGivenNames v2
  have hv2 : Keeps q v2 := by
    unfold v2
    with_reducible refine Keeps.foldl ?_ ?_
    · assumption
    · intro x1 x2 x3
      with_reducible apply State.takeShadow_keeps
      assumption
  clear_value v2
  with_reducible apply State.queueFills_keeps
  with_reducible apply State.setObj_keeps
  assumption

theorem State.runObjCreate_keeps {q s : State} (hq : Keeps q s) (d : Cmd) : Keeps q (State.runObjCreate s d) := by
  unfold State.runObjCreate
  split
  · with_reducible apply State.endNow_keeps
    assumption
  · extract_lets +onlyGivenNames v1
    clear_value v1
    with_reducible refine Keeps.ite ?_ ?_
    · with_reducible apply State.endNow_keeps
      assumption
    · with_reducible refine Keeps.ite ?_ ?_
      · with_reducible apply State.endNow_keeps
        assumption
      · split
        · with_reducible apply State.endNow_keeps
          assumption
        · with_reducible refine Keeps.ite ?_ ?_
          · with_reducible apply State.endNow_keeps
            assumption
          · with_reducible apply State.enterObj_keeps
            with_reducible apply State.issue_keeps
            assumption

theorem execObjCreate_keeps {q s : State} (hq : Keeps q s) (n : Node) : Runs q (execObjCreate n s) := by
  unfold execObjCreate
  with_reducible apply Runs.done
  with_reducible apply State.gfeHead_keeps
  · assumption
  · intro x1 x2 x3
    with_reducible apply State.runObjCreate_keeps
    assumption

theorem execZeroFillComplete_keeps {q s : State} (hq : Keeps q s) (h : Nat) : Runs q (execZeroFillComplete h s) := by
  unfold execZeroFillComplete
  with_reducible apply Runs.done
  split
  · assumption
  · split
    · with_reducible refine Keeps.ite ?_ ?_
      · assumption
      · extract_lets +onlyGivenNames v1
        have hv1 : Keeps q v1 := by
          unfold v1
          with_reducible refine Keeps.foldl ?_ ?_
          · assumption
          · intro x1 x2 x3
            with_reducible apply State.touch_keeps
            with_reducible apply State.setFrame_keeps
            with_reducible apply State.writeFrame_keeps
            assumption
        clear_value v1
        extract_lets +onlyGivenNames v2
        have hv2 : Keeps q v2 := by
          unfold v2
          with_reducible apply State.setObj_keeps
          assumption
        clear_value v2
        split
        · with_reducible apply State.endCmd_keeps
          assumption
        · assumption
    · assumption

theorem State.reserveDst_keeps {q s : State} (hq : Keeps q s) (h : Nat) (tile : Nat) (dst : Nat) (cls : Nat) : Keeps q (State.reserveDst s h tile dst cls) := by
  unfold State.reserveDst
  with_reducible apply State.setFrame_keeps
  assumption

theorem State.startMove_keeps {q s : State} (hq : Keeps q s) (h : Nat) (tile : Nat) (dst : Nat) (kind : MoveKind) (order : Nat × Nat × Nat) : Keeps q (State.startMove s h tile dst kind order) := by
  unfold State.startMove
  split
  · assumption
  · extract_lets +onlyGivenNames v1
    have hv1 : Keeps q v1 := by
      unfold v1
      with_reducible apply State.reserveDst_keeps
      assumption
    clear_value v1
    extract_lets +onlyGivenNames v2
    clear_value v2
    extract_lets +onlyGivenNames v3
    clear_value v3
    extract_lets +onlyGivenNames v4
    clear_value v4
    with_reducible apply Keeps.upd
    · assumption
    · rfl

theorem State.tryWant_keeps {q s : State} (hq : Keeps q s) (w : MoveWant) : Keeps q (State.tryWant s w) := by
  unfold State.tryWant
  with_reducible refine Keeps.ite ?_ ?_
  · assumption
  · with_reducible refine Keeps.ite ?_ ?_
    · with_reducible apply State.dropWant_keeps
      assumption
    · split
      · assumption
      · with_reducible refine Keeps.ite ?_ ?_
        · with_reducible apply State.startMove_keeps
          with_reducible apply State.unlistWant_keeps
          assumption
        · assumption

theorem State.tryReq_keeps {q s : State} (hq : Keeps q s) (a : MoveWant ⊕ CellarOp) : Keeps q (State.tryReq s a) := by
  unfold State.tryReq
  split
  · with_reducible apply State.tryWant_keeps
    assumption
  · with_reducible apply State.tryFill_keeps
    assumption

theorem State.startWants_keeps {q s : State} (hq : Keeps q s) : Keeps q (State.startWants s) := by
  unfold State.startWants
  with_reducible refine Keeps.foldl ?_ ?_
  · assumption
  · intro x1 x2 x3
    with_reducible apply State.tryReq_keeps
    assumption

theorem State.demoteFirst_keeps {q s : State} (hq : Keeps q s) (l : List (Nat × Nat × FrameRec)) :
    Keeps q (State.demoteFirst s l) := by
  induction l with
  | nil => exact hq
  | cons x t ih =>
    rw [State.demoteFirst]
    refine Keeps.ite ?_ ih
    split
    · exact State.startMove_keeps hq _ _ _ _ _
    · exact State.raise_keeps hq _ _ _ _

theorem State.relieveAttic_keeps {q s : State} (hq : Keeps q s) : Keeps q (State.relieveAttic s) := by
  unfold State.relieveAttic
  extract_lets +onlyGivenNames v1
  clear_value v1
  with_reducible refine Keeps.ite ?_ ?_
  · assumption
  · extract_lets +onlyGivenNames v2
    clear_value v2
    with_reducible refine Keeps.foldl ?_ ?_
    · assumption
    · intro x3 x4 x5
      with_reducible apply State.demoteFirst_keeps
      assumption

theorem State.tryWants_keeps {q s : State} (hq : Keeps q s) : Keeps q (State.tryWants s) := by
  unfold State.tryWants
  with_reducible apply State.relieveAttic_keeps
  with_reducible apply State.startWants_keeps
  assumption

theorem State.wantFetch_keeps {q s : State} (hq : Keeps q s) (h : Nat) (tile : Nat) (order : Nat × Nat × Nat) : Keeps q (State.wantFetch s h tile order) := by
  unfold State.wantFetch
  with_reducible refine Keeps.ite ?_ ?_
  · assumption
  · with_reducible apply State.tryWants_keeps
    with_reducible apply Keeps.upd
    · assumption
    · rfl

theorem State.fetchAll_keeps {q s : State} (hq : Keeps q s) (d : Cmd) (ts : List (Nat × Nat)) : Keeps q (State.fetchAll s d ts) := by
  unfold State.fetchAll
  with_reducible refine Keeps.foldl ?_ ?_
  · assumption
  · intro x1 x2 x3
    with_reducible apply State.wantFetch_keeps
    assumption

theorem State.settleMove_keeps {q s : State} (hq : Keeps q s) (id : Nat) : Keeps q (State.settleMove s id) := by
  unfold State.settleMove
  split
  · assumption
  · with_reducible refine Keeps.ite ?_ ?_
    · assumption
    · extract_lets +onlyGivenNames v1
      clear_value v1
      extract_lets +onlyGivenNames v2
      clear_value v2
      split
      · with_reducible apply State.endCmd_keeps
        assumption
      · extract_lets +onlyGivenNames v3
        clear_value v3
        extract_lets +onlyGivenNames v4
        clear_value v4
        extract_lets +onlyGivenNames v5
        clear_value v5
        with_reducible apply State.endCmd_keeps
        assumption

theorem State.settleMoves_keeps {q s : State} (hq : Keeps q s) : Keeps q (State.settleMoves s) := by
  unfold State.settleMoves
  with_reducible refine Keeps.foldl ?_ ?_
  · assumption
  · intro x1 x2 x3
    with_reducible apply State.settleMove_keeps
    assumption

theorem State.endBackground_keeps {q s : State} (hq : Keeps q s) (h : Nat) (tile : Nat) : Keeps q (State.endBackground s h tile) := by
  unfold State.endBackground
  split
  · with_reducible refine Keeps.ite ?_ ?_
    · with_reducible apply State.abandonMove_keeps
      assumption
    · assumption
  · assumption

theorem State.commandMove_keeps {q s : State} (hq : Keeps q s) (id : Nat) (h : Nat) (tile : Nat) (dst : Nat) (order : Nat × Nat × Nat) : Keeps q (State.commandMove s id h tile dst order) := by
  unfold State.commandMove
  with_reducible refine Keeps.ite ?_ ?_
  · with_reducible apply State.startMove_keeps
    assumption
  · extract_lets +onlyGivenNames v1
    clear_value v1
    extract_lets +onlyGivenNames v2
    have hv2 : Keeps q v2 := by
      unfold v2
      with_reducible apply State.reserveDst_keeps
      assumption
    clear_value v2
    with_reducible apply Keeps.upd
    · assumption
    · rfl

theorem State.runMove_keeps {q s : State} (hq : Keeps q s) (d : Cmd) : Keeps q (State.runMove s d) := by
  unfold State.runMove
  split
  · with_reducible apply State.endNow_keeps
    assumption
  · extract_lets +onlyGivenNames v1
    clear_value v1
    extract_lets +onlyGivenNames v2
    clear_value v2
    extract_lets +onlyGivenNames v3
    clear_value v3
    extract_lets +onlyGivenNames v4
    clear_value v4
    split
    · with_reducible apply State.endNow_keeps
      assumption
    · with_reducible refine Keeps.ite ?_ ?_
      · with_reducible apply State.endNow_keeps
        assumption
      · extract_lets +onlyGivenNames v5
        clear_value v5
        extract_lets +onlyGivenNames v6
        clear_value v6
        extract_lets +onlyGivenNames v7
        clear_value v7
        split
        · with_reducible apply State.endNow_keeps
          assumption
        · extract_lets +onlyGivenNames v8
          have hv8 : Keeps q v8 := by
            unfold v8
            with_reducible refine Keeps.ite ?_ ?_
            · assumption
            · with_reducible apply State.setObj_keeps
              assumption
          clear_value v8
          extract_lets +onlyGivenNames v9
          have hv9 : Keeps q v9 := by
            unfold v9
            with_reducible apply State.issue_keeps
            assumption
          clear_value v9
          extract_lets +onlyGivenNames v10
          have hv10 : Keeps q v10 := by
            unfold v10
            with_reducible refine Keeps.foldl ?_ ?_
            · assumption
            · intro x1 x2 x3
              with_reducible apply State.endBackground_keeps
              assumption
          clear_value v10
          with_reducible apply State.settleMove_keeps
          with_reducible refine Keeps.foldl ?_ ?_
          · assumption
          · intro x4 x5 x6
            with_reducible apply State.commandMove_keeps
            assumption

theorem execMove_keeps {q s : State} (hq : Keeps q s) (n : Node) : Runs q (execMove n s) := by
  unfold execMove
  with_reducible apply Runs.done
  with_reducible apply State.gfeHead_keeps
  · assumption
  · intro x1 x2 x3
    with_reducible apply State.runMove_keeps
    assumption

theorem State.unbindSlots_keeps {q s : State} (hq : Keeps q s) (h : Nat) : Keeps q (State.unbindSlots s h) := by
  unfold State.unbindSlots
  with_reducible refine Keeps.foldl ?_ ?_
  · assumption
  · intro x1 x2 x3
    with_reducible refine Keeps.ite ?_ ?_
    · with_reducible apply State.fldPut_keeps
      assumption
    · assumption

theorem State.endMoves_keeps {q s : State} (hq : Keeps q s) (h : Nat) : Keeps q (State.endMoves s h) := by
  unfold State.endMoves
  extract_lets +onlyGivenNames v1
  clear_value v1
  extract_lets +onlyGivenNames v2
  have hv2 : Keeps q v2 := by
    unfold v2
    with_reducible refine Keeps.foldl ?_ ?_
    · assumption
    · intro x1 x2 x3
      with_reducible apply State.abandonMove_keeps
      assumption
  clear_value v2
  with_reducible refine Keeps.foldl ?_ ?_
  · assumption
  · intro x4 x5 x6
    with_reducible apply State.dropWant_keeps
    assumption

theorem State.runObjFree_keeps {q s : State} (hq : Keeps q s) (d : Cmd) : Keeps q (State.runObjFree s d) := by
  unfold State.runObjFree
  extract_lets +onlyGivenNames v1
  clear_value v1
  split
  · with_reducible apply State.endNow_keeps
    assumption
  · with_reducible refine Keeps.ite ?_ ?_
    · with_reducible apply State.endNow_keeps
      assumption
    · with_reducible apply State.reap_keeps
      with_reducible apply State.settleMoves_keeps
      with_reducible apply State.endNow_keeps
      with_reducible apply State.unbindSlots_keeps
      with_reducible apply State.endMoves_keeps
      with_reducible apply State.setObj_keeps
      assumption

theorem execObjFree_keeps {q s : State} (hq : Keeps q s) (n : Node) : Runs q (execObjFree n s) := by
  unfold execObjFree
  with_reducible apply Runs.done
  with_reducible apply State.gfeHead_keeps
  · assumption
  · intro x1 x2 x3
    with_reducible apply State.runObjFree_keeps
    assumption

theorem State.enterClone_keeps {q s : State} (hq : Keeps q s) (h : Nat) (o : Obj) (order : Nat × Nat × Nat) : KeepsO q (State.enterClone s h o order) := by
  unfold State.enterClone
  split
  · with_reducible exact KeepsO.none
  · split
    · with_reducible exact KeepsO.none
    · with_reducible apply KeepsO.some
      with_reducible apply State.enterObj_keeps
      assumption

theorem State.enterClones_keeps {q s : State} (hq : Keeps q s) (d : Cmd) (o : Obj) : KeepsO q (State.enterClones s d o) := by
  unfold State.enterClones
  extract_lets +onlyGivenNames v1
  clear_value v1
  split
  · with_reducible exact KeepsO.none
  · split
    · with_reducible apply KeepsO.some
      with_reducible refine KeepsO.use ?_ (by assumption)
      with_reducible apply State.enterClone_keeps
      assumption
    · split
      · with_reducible apply State.enterClone_keeps
        with_reducible refine KeepsO.use ?_ (by assumption)
        with_reducible apply State.enterClone_keeps
        assumption
      · with_reducible apply KeepsO.some
        with_reducible refine KeepsO.use ?_ (by assumption)
        with_reducible apply State.enterClone_keeps
        assumption

theorem State.runClone_keeps {q s : State} (hq : Keeps q s) (d : Cmd) : Keeps q (State.runClone s d) := by
  unfold State.runClone
  extract_lets +onlyGivenNames v1
  clear_value v1
  split
  · with_reducible apply State.endNow_keeps
    assumption
  · with_reducible apply State.endNow_keeps
    assumption
  · split
    · with_reducible apply State.endNow_keeps
      assumption
    · with_reducible apply State.endNow_keeps
      assumption
    · extract_lets +onlyGivenNames v2
      clear_value v2
      with_reducible refine Keeps.ite ?_ ?_
      · with_reducible apply State.endNow_keeps
        assumption
      · extract_lets +onlyGivenNames v3
        clear_value v3
        split
        · with_reducible apply State.endNow_keeps
          assumption
        · extract_lets +onlyGivenNames v4
          clear_value v4
          with_reducible refine Keeps.ite ?_ ?_
          · with_reducible apply State.endNow_keeps
            assumption
          · with_reducible apply State.queueFills_keeps
            with_reducible apply State.issue_keeps
            with_reducible refine KeepsO.use ?_ (by assumption)
            with_reducible apply State.enterClones_keeps
            assumption

theorem execClone_keeps {q s : State} (hq : Keeps q s) (n : Node) : Runs q (execClone n s) := by
  unfold execClone
  with_reducible apply Runs.done
  with_reducible apply State.gfeHead_keeps
  · assumption
  · intro x1 x2 x3
    with_reducible apply State.runClone_keeps
    assumption

theorem State.dropFills_keeps {q s : State} (hq : Keeps q s) (h : Nat) : Keeps q (State.dropFills s h) := by
  unfold State.dropFills
  with_reducible apply Keeps.upd
  · assumption
  · rfl

theorem State.dropCreation_keeps {q s : State} (hq : Keeps q s) (h : Nat) : Keeps q (State.dropCreation s h) := by
  unfold State.dropCreation
  split
  · assumption
  · with_reducible apply State.dropFills_keeps
    with_reducible apply State.dropObj_keeps
    with_reducible refine Keeps.foldl ?_ ?_
    · assumption
    · intro x1 x2 x3
      with_reducible apply State.freeFrame_keeps
      assumption

theorem State.copyClone_keeps {q s : State} (hq : Keeps q s) (h : Nat) (arg : List Byte) : Keeps q (State.copyClone s h arg) := by
  unfold State.copyClone
  split
  · assumption
  · split
    · extract_lets +onlyGivenNames v1
      have hv1 : Keeps q v1 := by
        unfold v1
        with_reducible refine Keeps.foldl ?_ ?_
        · assumption
        · intro x1 x2 x3
          extract_lets +onlyGivenNames v2
          have hv2 : Keeps q v2 := by
            unfold v2
            with_reducible refine Keeps.ite ?_ ?_
            · with_reducible apply State.writeFrame_keeps
              assumption
            · split
              · with_reducible apply State.chargeMove_keeps
                with_reducible apply State.copyFrame_keeps
                with_reducible apply State.touch_keeps
                assumption
              · assumption
          clear_value v2
          with_reducible apply State.touch_keeps
          with_reducible apply State.setFrame_keeps
          assumption
      clear_value v1
      with_reducible apply State.setObj_keeps
      assumption
    · assumption

theorem State.failClone_keeps {q s : State} (hq : Keeps q s) (d : Cmd) (src : Nat) (x : Nat × Option PoisonCause) : Keeps q (State.failClone s d src x) := by
  unfold State.failClone
  extract_lets +onlyGivenNames v1
  have hv1 : Keeps q v1 := by
    unfold v1
    split
    · with_reducible apply State.poisonFrame_keeps
      assumption
    · assumption
  clear_value v1
  with_reducible apply State.settleMoves_keeps
  with_reducible apply State.endCmd_keeps
  with_reducible apply State.dropCreation_keeps
  with_reducible apply State.dropCreation_keeps
  assumption

theorem execCloneCopyComplete_keeps {q s : State} (hq : Keeps q s) (h : Nat) (bad : Option (Nat × Nat × PoisonCause)) : Runs q (execCloneCopyComplete h bad s) := by
  unfold execCloneCopyComplete
  with_reducible apply Runs.done
  split
  · assumption
  · split
    · split
      · assumption
      · extract_lets +onlyGivenNames v1
        clear_value v1
        with_reducible refine Keeps.ite ?_ ?_
        · assumption
        · extract_lets +onlyGivenNames v2
          clear_value v2
          split
          · with_reducible apply State.failClone_keeps
            assumption
          · with_reducible apply State.failClone_keeps
            assumption
          · extract_lets +onlyGivenNames v3
            have hv3 : Keeps q v3 := by
              unfold v3
              with_reducible apply State.copyClone_keeps
              assumption
            clear_value v3
            extract_lets +onlyGivenNames v4
            have hv4 : Keeps q v4 := by
              unfold v4
              with_reducible refine Keeps.ite ?_ ?_
              · assumption
              · with_reducible apply State.copyClone_keeps
                assumption
            clear_value v4
            with_reducible apply State.reapAll_keeps
            with_reducible apply State.endCmd_keeps
            assumption
    · assumption

theorem State.runLaunchList_keeps {q s : State} (hq : Keeps q s) (d : Cmd) : Keeps q (State.runLaunchList s d) := by
  unfold State.runLaunchList
  split
  · with_reducible apply State.endNow_keeps
    assumption
  · extract_lets +onlyGivenNames v1
    clear_value v1
    with_reducible refine Keeps.ite ?_ ?_
    · assumption
    · extract_lets +onlyGivenNames v2
      clear_value v2
      extract_lets +onlyGivenNames v3
      have hv3 : Keeps q v3 := by
        unfold v3
        with_reducible apply State.issue_keeps
        assumption
      clear_value v3
      with_reducible apply Keeps.upd
      · assumption
      · rfl

theorem execLaunchList_keeps {q s : State} (hq : Keeps q s) (n : Node) : Runs q (execLaunchList n s) := by
  unfold execLaunchList
  with_reducible apply Runs.done
  with_reducible apply State.gfeHead_keeps
  · assumption
  · intro x1 x2 x3
    with_reducible apply State.runLaunchList_keeps
    assumption

theorem State.addListed_keeps {q s : State} (hq : Keeps q s) (l : Launch) (slot : List Byte) (payload : List Byte) : Keeps q (State.addListed s l slot payload) := by
  unfold State.addListed
  extract_lets +onlyGivenNames v1
  clear_value v1
  split
  · assumption
  · extract_lets +onlyGivenNames v2
    clear_value v2
    extract_lets +onlyGivenNames v3
    clear_value v3
    extract_lets +onlyGivenNames v4
    extract_lets +onlyGivenNames v5
    have hv5 : Keeps q v5 := by
      unfold v5
      with_reducible apply Keeps.upd
      · assumption
      · rfl
    clear_value v5
    extract_lets +onlyGivenNames v6
    clear_value v6
    with_reducible apply State.chargeCyc_keeps
    with_reducible apply State.setLaunch_keeps
    assumption

theorem State.poisonList_keeps {q s : State} (hq : Keeps q s) (h : Nat) (pos : Nat) (bad : Option (Nat × PoisonCause)) : Keeps q (State.poisonList s h pos bad) := by
  unfold State.poisonList
  split
  · with_reducible apply State.poisonFrame_keeps
    assumption
  · assumption

theorem State.fetchNext_keeps {q s : State} (hq : Keeps q s) (l : Launch) (bad : Option (Nat × PoisonCause)) : Keeps q (State.fetchNext s l bad) := by
  unfold State.fetchNext
  split
  · assumption
  · extract_lets +onlyGivenNames v1
    clear_value v1
    extract_lets +onlyGivenNames v2
    clear_value v2
    extract_lets +onlyGivenNames v3
    clear_value v3
    extract_lets +onlyGivenNames v4
    clear_value v4
    with_reducible refine Keeps.ite ?_ ?_
    · with_reducible apply State.stopLaunch_keeps
      assumption
    · split
      · with_reducible apply State.wantFetch_keeps
        assumption
      · with_reducible refine Keeps.ite ?_ ?_
        · with_reducible apply State.stopLaunch_keeps
          assumption
        · with_reducible refine Keeps.ite ?_ ?_
          · assumption
          · with_reducible refine Keeps.ite ?_ ?_
            · with_reducible apply State.stopLaunch_keeps
              with_reducible apply State.poisonList_keeps
              assumption
            · with_reducible refine Keeps.ite ?_ ?_
              · with_reducible apply State.stopLaunch_keeps
                assumption
              · with_reducible refine Keeps.ite ?_ ?_
                · with_reducible apply State.stopLaunch_keeps
                  assumption
                · with_reducible refine Keeps.ite ?_ ?_
                  · with_reducible apply State.stopLaunch_keeps
                    assumption
                  · split
                    · with_reducible apply State.wantFetch_keeps
                      assumption
                    · split
                      · with_reducible apply State.stopLaunch_keeps
                        assumption
                      · extract_lets +onlyGivenNames v5
                        clear_value v5
                        with_reducible refine Keeps.ite ?_ ?_
                        · assumption
                        · split
                          · with_reducible apply State.stopLaunch_keeps
                            with_reducible apply State.poisonList_keeps
                            assumption
                          · with_reducible refine Keeps.ite ?_ ?_
                            · with_reducible apply State.stopLaunch_keeps
                              assumption
                            · with_reducible apply State.addListed_keeps
                              assumption

theorem execListPositionFetch_keeps {q s : State} (hq : Keeps q s) (launch : Nat) (bad : Option (Nat × PoisonCause)) : Runs q (execListPositionFetch launch bad s) := by
  unfold execListPositionFetch
  with_reducible apply Runs.done
  split
  · assumption
  · with_reducible refine Keeps.ite ?_ ?_
    · with_reducible apply State.fetchNext_keeps
      assumption
    · assumption

theorem State.withdrawLaunch_keeps {q s : State} (hq : Keeps q s) (l : Launch) : Keeps q (State.withdrawLaunch s l) := by
  unfold State.withdrawLaunch
  split
  · assumption
  · extract_lets +onlyGivenNames v1
    clear_value v1
    with_reducible apply State.setCmd_keeps
    with_reducible apply State.setAcct_keeps
    with_reducible apply State.dropLaunch_keeps
    assumption

theorem State.runPatchList_keeps {q s : State} (hq : Keeps q s) (d : Cmd) : Keeps q (State.runPatchList s d) := by
  unfold State.runPatchList
  extract_lets +onlyGivenNames v1
  clear_value v1
  split
  · with_reducible apply State.endNow_keeps
    assumption
  · with_reducible refine Keeps.ite ?_ ?_
    · with_reducible apply State.endNow_keeps
      assumption
    · extract_lets +onlyGivenNames v2
      clear_value v2
      split
      · with_reducible apply State.endNow_keeps
        with_reducible apply State.poisonIfBad_keeps
        assumption
      · extract_lets +onlyGivenNames v3
        clear_value v3
        split
        · with_reducible apply State.endNow_keeps
          assumption
        · extract_lets +onlyGivenNames v4
          clear_value v4
          extract_lets +onlyGivenNames v5
          have hv5 : Keeps q v5 := by
            unfold v5
            with_reducible apply State.issue_keeps
            assumption
          clear_value v5
          with_reducible refine Keeps.foldl ?_ ?_
          · with_reducible apply Keeps.upd
            · assumption
            · rfl
          · intro x1 x2 x3
            with_reducible apply State.withdrawLaunch_keeps
            assumption

theorem execPatchList_keeps {q s : State} (hq : Keeps q s) (n : Node) : Runs q (execPatchList n s) := by
  unfold execPatchList
  with_reducible apply Runs.done
  with_reducible apply State.gfeHead_keeps
  · assumption
  · intro x1 x2 x3
    with_reducible apply State.runPatchList_keeps
    assumption

theorem State.writeObj_keeps {q s : State} (hq : Keeps q s) (h : Nat) (off : Nat) (cls : Nat) (bytes : List Byte) : Keeps q (State.writeObj s h off cls bytes) := by
  unfold State.writeObj
  split
  · assumption
  · with_reducible refine Keeps.ite ?_ ?_
    · with_reducible apply State.rewriteTile_keeps
      assumption
    · with_reducible apply State.writeBytes_keeps
      assumption

theorem State.applyPatch_keeps {q s : State} (hq : Keeps q s) (p : Patch) : Keeps q (State.applyPatch s p) := by
  unfold State.applyPatch
  extract_lets +onlyGivenNames v1
  have hv1 : Keeps q v1 := by
    unfold v1
    with_reducible refine Keeps.foldl ?_ ?_
    · assumption
    · intro x2 x3 x4
      with_reducible apply State.writeObj_keeps
      assumption
  clear_value v1
  with_reducible refine Keeps.foldl ?_ ?_
  · assumption
  · intro x5 x6 x7
    with_reducible refine Keeps.ite ?_ ?_
    · assumption
    · extract_lets +onlyGivenNames v8
      clear_value v8
      with_reducible apply State.writeObj_keeps
      assumption

theorem State.issueLaunches_keeps {q s : State} (hq : Keeps q s) (hs : List Nat) : Keeps q (State.issueLaunches s hs) := by
  unfold State.issueLaunches
  with_reducible refine Keeps.foldl ?_ ?_
  · assumption
  · intro x1 x2 x3
    with_reducible apply State.gfeHead_keeps
    · assumption
    · intro x4 x5 x6
      with_reducible apply State.runLaunchList_keeps
      assumption

theorem State.showPatches_keeps {q s : State} (hq : Keeps q s) : Keeps q (State.showPatches s) := by
  unfold State.showPatches
  extract_lets +onlyGivenNames v1
  clear_value v1
  extract_lets +onlyGivenNames v2
  have hv2 : Keeps q v2 := by
    unfold v2
    with_reducible refine Keeps.foldl ?_ ?_
    · assumption
    · intro x3 x4 x5
      with_reducible apply State.applyPatch_keeps
      assumption
  clear_value v2
  extract_lets +onlyGivenNames v6
  extract_lets +onlyGivenNames v7
  have hv7 : Keeps q v7 := by
    unfold v7
    with_reducible apply Keeps.upd
    · assumption
    · rfl
  clear_value v7
  with_reducible refine Keeps.foldl ?_ ?_
  · assumption
  · intro x8 x9 x10
    split
    · with_reducible apply State.endCmd_keeps
      assumption
    · assumption

theorem State.placeOut_keeps {q s : State} (hq : Keeps q s) (d : Cmd) (clu : Nat) (l : List OutTile) :
    KeepsP q (State.placeOut s d clu l) := by
  induction l generalizing s with
  | nil => exact KeepsP.some hq
  | cons t rest ih =>
    rw [State.placeOut]
    split
    · exact KeepsP.none
    · rename_i f s1 h1
      have hs : Keeps q s1 := (State.allocShadow_keeps hq _ _ _ _).use h1
      extract_lets fmt s2
      have h2 : Keeps q s2 := State.engineWrite_keeps (State.writeFrame_keeps hs _ _ _ _ _ _) _ _ _ _
      split
      · exact KeepsP.none
      · rename_i h3
        exact KeepsP.some ((ih h2).use h3)

theorem State.mergeAmax_keeps {q s : State} (hq : Keeps q s) (k : Nat) (v : W32) : Keeps q (State.mergeAmax s k v) := by
  unfold State.mergeAmax
  with_reducible apply State.setScale_keeps
  assumption

theorem State.runScaleSet_keeps {q s : State} (hq : Keeps q s) (d : Cmd) : Keeps q (State.runScaleSet s d) := by
  unfold State.runScaleSet
  split
  · with_reducible apply State.endNow_keeps
    assumption
  · extract_lets +onlyGivenNames v1
    clear_value v1
    extract_lets +onlyGivenNames v2
    clear_value v2
    extract_lets +onlyGivenNames v3
    have hv3 : Keeps q v3 := by
      unfold v3
      with_reducible apply State.issue_keeps
      assumption
    clear_value v3
    with_reducible apply Keeps.upd
    · assumption
    · rfl

theorem execScaleSet_keeps {q s : State} (hq : Keeps q s) (n : Node) : Runs q (execScaleSet n s) := by
  unfold execScaleSet
  with_reducible apply Runs.done
  with_reducible apply State.gfeHead_keeps
  · assumption
  · intro x1 x2 x3
    with_reducible apply State.runScaleSet_keeps
    assumption

theorem State.applyScaleSet_keeps {q s : State} (hq : Keeps q s) (x : ScaleStage) : Keeps q (State.applyScaleSet s x) := by
  unfold State.applyScaleSet
  split
  · assumption
  · with_reducible refine Keeps.foldl ?_ ?_
    · assumption
    · intro x1 x2 x3
      split
      · with_reducible apply State.regPut_keeps
        assumption
      · with_reducible apply State.regPut_keeps
        assumption
      · with_reducible apply State.setScale_keeps
        assumption

theorem State.endScaleSets_keeps {q s : State} (hq : Keeps q s) (xs : List ScaleStage) : Keeps q (State.endScaleSets s xs) := by
  unfold State.endScaleSets
  with_reducible refine Keeps.foldl ?_ ?_
  · assumption
  · intro x1 x2 x3
    split
    · with_reducible apply State.endCmd_keeps
      assumption
    · assumption

theorem State.latchT_keeps {q s : State} (hq : Keeps q s) (k : Nat) (mask : Nat) (v : Nat) : Keeps q (State.latchT s k mask v) := by
  unfold State.latchT
  with_reducible apply Keeps.updReg
  · assumption
  · rfl
  · rfl

theorem execGfeScaleClearHist_keeps {q s : State} (hq : Keeps q s) (a : Acc) : Runs q (execGfeScaleClearHist a s) := by
  unfold execGfeScaleClearHist
  with_reducible apply Runs.done
  with_reducible refine Keeps.ite ?_ ?_
  · assumption
  · with_reducible apply State.latchT_keeps
    assumption

theorem State.refund_keeps {q s : State} (hq : Keeps q s) (k : Nat) : Keeps q (State.refund s k) := by
  unfold State.refund
  with_reducible apply Keeps.upd
  · assumption
  · rfl

theorem State.dropResv_keeps {q s : State} (hq : Keeps q s) (id : Nat) (n : Nat) : Keeps q (State.dropResv s id n) := by
  unfold State.dropResv
  with_reducible apply Keeps.upd
  · assumption
  · rfl

theorem State.setRun_keeps {q s : State} (hq : Keeps q s) (n : Nat) (r : Run) : Keeps q (State.setRun s n r) := by
  unfold State.setRun
  with_reducible apply State.setClu_keeps
  assumption

theorem State.chargeRun_keeps {q s : State} (hq : Keeps q s) (d : Cmd) (k : Nat) : Keeps q (State.chargeRun s d k) := by
  unfold State.chargeRun
  extract_lets +onlyGivenNames v1
  clear_value v1
  split
  · with_reducible refine Keeps.ite ?_ ?_
    · with_reducible refine Keeps.foldl ?_ ?_
      · assumption
      · intro x2 x3 x4
        with_reducible apply State.chargeCyc_keeps
        assumption
    · with_reducible apply State.chargeCyc_keeps
      assumption
  · with_reducible apply State.chargeCyc_keeps
    assumption

theorem State.dropHost_keeps {q s : State} (hq : Keeps q s) (n : Nat) (id : Nat) : Keeps q (State.dropHost s n id) := by
  unfold State.dropHost
  with_reducible apply Keeps.upd
  · assumption
  · rfl

theorem State.leaveRun_keeps {q s : State} (hq : Keeps q s) (n : Nat) (k : Nat) (lost : Bool) : Keeps q (State.leaveRun s n k lost) := by
  unfold State.leaveRun
  split
  · with_reducible apply State.setClu_keeps
    assumption
  · extract_lets +onlyGivenNames v1
    clear_value v1
    extract_lets +onlyGivenNames v2
    have hv2 : Keeps q v2 := by
      unfold v2
      with_reducible apply State.chargeRun_keeps
      with_reducible apply State.setClu_keeps
      assumption
    clear_value v2
    extract_lets +onlyGivenNames v3
    clear_value v3
    extract_lets +onlyGivenNames v4
    have hv4 : Keeps q v4 := by
      unfold v4
      with_reducible refine Keeps.ite ?_ ?_
      · with_reducible apply State.setAcct_keeps
        assumption
      · assumption
    clear_value v4
    with_reducible apply State.releaseReads_keeps
    with_reducible apply State.dropHost_keeps
    with_reducible apply State.dropResv_keeps
    with_reducible apply State.refund_keeps
    assumption

theorem State.stopRun_keeps {q s : State} (hq : Keeps q s) (n : Nat) (k : Nat) (lost : Bool) : Keeps q (State.stopRun s n k lost) := by
  unfold State.stopRun
  split
  · assumption
  · with_reducible apply State.leaveRun_keeps
    with_reducible apply State.freeShadows_keeps
    assumption

theorem State.tidy_keeps {q s : State} (hq : Keeps q s) : Keeps q (State.tidy s) := by
  unfold State.tidy
  with_reducible apply State.settleMoves_keeps
  with_reducible apply State.tryWants_keeps
  with_reducible apply State.reapAll_keeps
  assumption

theorem State.sendBack_keeps {q s : State} (hq : Keeps q s) (d : Cmd) : Keeps q (State.sendBack s d) := by
  unfold State.sendBack
  with_reducible apply State.setCmd_keeps
  assumption

theorem State.noteClu_keeps {q s : State} (hq : Keeps q s) (id : Nat) (n : Nat) : Keeps q (State.noteClu s id n) := by
  unfold State.noteClu
  with_reducible apply State.setExtra_keeps
  assumption

theorem State.noteRan_keeps {q s : State} (hq : Keeps q s) (id : Nat) (cs : List Nat) : Keeps q (State.noteRan s id cs) := by
  unfold State.noteRan
  split
  · with_reducible apply State.noteClu_keeps
    assumption
  · assumption

theorem State.unqueue_keeps {q s : State} (hq : Keeps q s) (n : Nat) (id : Nat) : Keeps q (State.unqueue s n id) := by
  unfold State.unqueue
  extract_lets +onlyGivenNames v1
  clear_value v1
  extract_lets +onlyGivenNames v2
  clear_value v2
  with_reducible apply State.dropResv_keeps
  with_reducible apply State.refund_keeps
  with_reducible apply State.setClu_keeps
  assumption

theorem State.discardPair_keeps {q s : State} (hq : Keeps q s) (d : Cmd) (lost : Bool) : Keeps q (State.discardPair s d lost) := by
  unfold State.discardPair
  split
  · assumption
  · extract_lets +onlyGivenNames v1
    have hv1 : Keeps q v1 := by
      unfold v1
      with_reducible refine Keeps.foldl ?_ ?_
      · assumption
      · intro x2 x3 x4
        extract_lets +onlyGivenNames v5
        have hv5 : Keeps q v5 := by
          unfold v5
          with_reducible apply State.unqueue_keeps
          assumption
        clear_value v5
        split
        · with_reducible refine Keeps.ite ?_ ?_
          · with_reducible apply State.stopRun_keeps
            assumption
          · assumption
        · assumption
    clear_value v1
    extract_lets +onlyGivenNames v6
    clear_value v6
    extract_lets +onlyGivenNames v7
    have hv7 : Keeps q v7 := by
      unfold v7
      with_reducible apply State.freeShadows_keeps
      assumption
    clear_value v7
    extract_lets +onlyGivenNames v8
    clear_value v8
    with_reducible apply State.releaseReads_keeps
    with_reducible apply State.sendBack_keeps
    with_reducible apply State.noteRan_keeps
    assumption

theorem State.trigger_keeps {q s : State} (hq : Keeps q s) (n : Nat) (cause : Nat) : Keeps q (State.trigger s n cause) := by
  unfold State.trigger
  split
  · assumption
  · extract_lets +onlyGivenNames v1
    have hv1 : Keeps q v1 := by
      unfold v1
      with_reducible apply State.noteClu_keeps
      with_reducible apply State.stopRun_keeps
      assumption
    clear_value v1
    split
    · with_reducible refine Keeps.ite ?_ ?_
      · with_reducible apply State.setCmd_keeps
        assumption
      · with_reducible apply State.sendBack_keeps
        assumption
    · extract_lets +onlyGivenNames v2
      clear_value v2
      with_reducible apply State.sendBack_keeps
      assumption

theorem State.stopWith_keeps {q s : State} (hq : Keeps q s) (n : Nat) (status : Nat) (a : Nat) (b : Nat) : Keeps q (State.stopWith s n status a b) := by
  unfold State.stopWith
  split
  · assumption
  · extract_lets +onlyGivenNames v1
    have hv1 : Keeps q v1 := by
      unfold v1
      with_reducible apply State.stopRun_keeps
      assumption
    clear_value v1
    split
    · with_reducible refine Keeps.ite ?_ ?_
      · with_reducible apply State.setCmd_keeps
        assumption
      · with_reducible apply State.tidy_keeps
        with_reducible apply State.endCmd_keeps
        with_reducible apply State.noteClu_keeps
        assumption
    · with_reducible apply State.tidy_keeps
      with_reducible apply State.endCmd_keeps
      with_reducible apply State.noteClu_keeps
      assumption

theorem State.stopFound_keeps {q s : State} (hq : Keeps q s) (n : Nat) (d : Cmd) (x : Nat × Nat × Nat) : Keeps q (State.stopFound s n d x) := by
  unfold State.stopFound
  with_reducible apply State.stopWith_keeps
  with_reducible refine Keeps.ite ?_ ?_
  · with_reducible apply State.poisonIfBad_keeps
    assumption
  · assumption

theorem State.defer_keeps {q s : State} (hq : Keeps q s) (n : Nat) (id : Nat) : Keeps q (State.defer s n id) := by
  unfold State.defer
  split
  · with_reducible apply State.unqueue_keeps
    assumption
  · extract_lets +onlyGivenNames v1
    clear_value v1
    extract_lets +onlyGivenNames v2
    have hv2 : Keeps q v2 := by
      unfold v2
      with_reducible apply State.setClu_keeps
      assumption
    clear_value v2
    with_reducible refine Keeps.ite ?_ ?_
    · with_reducible apply State.discardPair_keeps
      assumption
    · with_reducible apply State.sendBack_keeps
      with_reducible apply State.unqueue_keeps
      assumption

theorem State.deferAll_keeps {q s : State} (hq : Keeps q s) (n : Nat) : Keeps q (State.deferAll s n) := by
  unfold State.deferAll
  with_reducible refine Keeps.foldl ?_ ?_
  · assumption
  · intro x1 x2 x3
    with_reducible apply State.defer_keeps
    assumption

theorem State.overrun_keeps {q s : State} (hq : Keeps q s) (n : Nat) : Keeps q (State.overrun s n) := by
  unfold State.overrun
  split
  · assumption
  · extract_lets +onlyGivenNames v1
    clear_value v1
    with_reducible refine Keeps.ite ?_ ?_
    · extract_lets +onlyGivenNames v2
      clear_value v2
      with_reducible apply State.discardPair_keeps
      with_reducible apply State.setClu_keeps
      assumption
    · extract_lets +onlyGivenNames v3
      clear_value v3
      extract_lets +onlyGivenNames v4
      have hv4 : Keeps q v4 := by
        unfold v4
        with_reducible apply State.setClu_keeps
        assumption
      clear_value v4
      extract_lets +onlyGivenNames v5
      have hv5 : Keeps q v5 := by
        unfold v5
        with_reducible refine Keeps.ite ?_ ?_
        · with_reducible apply State.discardPair_keeps
          assumption
        · with_reducible apply State.stopRun_keeps
          assumption
      clear_value v5
      extract_lets +onlyGivenNames v6
      clear_value v6
      with_reducible apply State.tidy_keeps
      with_reducible apply State.raise_keeps
      with_reducible apply State.endCmd_keeps
      with_reducible apply State.noteClu_keeps
      assumption

theorem State.overrunPair_keeps {q s : State} (hq : Keeps q s) (id : Nat) : Keeps q (State.overrunPair s id) := by
  unfold State.overrunPair
  split
  · assumption
  · split
    · assumption
    · with_reducible refine Keeps.ite ?_ ?_
      · assumption
      · extract_lets +onlyGivenNames v1
        clear_value v1
        extract_lets +onlyGivenNames v2
        have hv2 : Keeps q v2 := by
          unfold v2
          with_reducible apply State.discardPair_keeps
          with_reducible apply State.setClu_keeps
          assumption
        clear_value v2
        with_reducible apply State.tidy_keeps
        with_reducible apply State.raise_keeps
        with_reducible apply State.endCmd_keeps
        with_reducible apply State.noteClu_keeps
        assumption

theorem State.preempt_keeps {q s : State} (hq : Keeps q s) (n : Nat) (space : Bool) : Keeps q (State.preempt s n space) := by
  unfold State.preempt
  split
  · assumption
  · extract_lets +onlyGivenNames v1
    clear_value v1
    extract_lets +onlyGivenNames v2
    clear_value v2
    extract_lets +onlyGivenNames v3
    have hv3 : Keeps q v3 := by
      unfold v3
      with_reducible apply State.setClu_keeps
      with_reducible apply State.setAcct_keeps
      assumption
    clear_value v3
    with_reducible refine Keeps.ite ?_ ?_
    · extract_lets +onlyGivenNames v4
      have hv4 : Keeps q v4 := by
        unfold v4
        with_reducible refine Keeps.ite ?_ ?_
        · with_reducible apply State.discardPair_keeps
          assumption
        · with_reducible apply State.stopRun_keeps
          assumption
      clear_value v4
      with_reducible apply State.tidy_keeps
      with_reducible apply State.endCmd_keeps
      with_reducible apply State.noteClu_keeps
      assumption
    · with_reducible refine Keeps.ite ?_ ?_
      · with_reducible apply State.discardPair_keeps
        assumption
      · with_reducible apply State.sendBack_keeps
        with_reducible apply State.noteClu_keeps
        with_reducible apply State.stopRun_keeps
        assumption

theorem State.captureSr_keeps {q s : State} (hq : Keeps q s) (d : Cmd) (n : Nat) : Keeps q (State.captureSr s d n) := by
  unfold State.captureSr
  extract_lets +onlyGivenNames v1
  clear_value v1
  with_reducible refine Keeps.ite ?_ ?_
  · extract_lets +onlyGivenNames v2
    clear_value v2
    extract_lets +onlyGivenNames v3
    clear_value v3
    extract_lets +onlyGivenNames v4
    have hv4 : Keeps q v4 := by
      unfold v4
      with_reducible apply State.setExtra_keeps
      assumption
    clear_value v4
    with_reducible apply State.regPut_keeps
    assumption
  · assumption

theorem State.takeSeqs_keeps {q s : State} (hq : Keeps q s) (d : Cmd) : Keeps q (State.takeSeqs s d) := by
  unfold State.takeSeqs
  with_reducible refine Keeps.ite ?_ ?_
  · assumption
  · with_reducible refine Keeps.foldl ?_ ?_
    · assumption
    · intro x1 x2 x3
      split
      · with_reducible refine Keeps.ite ?_ ?_
        · extract_lets +onlyGivenNames v4
          clear_value v4
          with_reducible apply State.setExtra_keeps
          with_reducible apply State.setObj_keeps
          assumption
        · assumption
      · assumption

theorem State.startRun_keeps {q s : State} (hq : Keeps q s) (n : Nat) (d : Cmd) (charge : Nat) : Keeps q (State.startRun s n d charge) := by
  unfold State.startRun
  extract_lets +onlyGivenNames v1
  clear_value v1
  extract_lets +onlyGivenNames v2
  clear_value v2
  extract_lets +onlyGivenNames v3
  clear_value v3
  extract_lets +onlyGivenNames v4
  have hv4 : Keeps q v4 := by
    unfold v4
    with_reducible apply State.setCmd_keeps
    with_reducible apply State.setClu_keeps
    assumption
  clear_value v4
  with_reducible apply State.takeSeqs_keeps
  with_reducible apply State.captureSr_keeps
  assumption

theorem execCommandStart_keeps {q s : State} (hq : Keeps q s) (clu : Nat) : Runs q (execCommandStart clu s) := by
  unfold execCommandStart
  with_reducible apply Runs.done
  extract_lets +onlyGivenNames v1
  clear_value v1
  split
  · assumption
  · with_reducible refine Keeps.ite ?_ ?_
    · assumption
    · with_reducible refine Keeps.ite ?_ ?_
      · with_reducible apply State.defer_keeps
        assumption
      · split
        · with_reducible apply State.unqueue_keeps
          assumption
        · with_reducible apply State.startRun_keeps
          assumption

theorem State.readTiles_keeps {q s : State} (hq : Keeps q s) (d : Cmd) (n : Nat) (ts : List (Nat × Nat)) : Keeps q (State.readTiles s d n ts) := by
  unfold State.readTiles
  with_reducible refine Keeps.foldl ?_ ?_
  · assumption
  · intro x1 x2 x3
    with_reducible apply State.engineRead_keeps
    assumption

theorem State.readRows_keeps {q s : State} (hq : Keeps q s) (d : Cmd) (n : Nat) (b : Nat) (ps : List (Nat × Nat × Nat)) : Keeps q (State.readRows s d n b ps) := by
  unfold State.readRows
  with_reducible refine Keeps.foldl ?_ ?_
  · assumption
  · intro x1 x2 x3
    split
    · with_reducible apply State.engineRead_keeps
      assumption
    · assumption

theorem State.prepare_keeps {q s : State} (hq : Keeps q s) (n : Nat) (r : Run) (reads : List Nat) (checks : List Check) (work : Option RunWork) (due : Nat) : Keeps q (State.prepare s n r reads checks work due) := by
  unfold State.prepare
  with_reducible apply State.setRun_keeps
  assumption

theorem State.finishWork_keeps {q s : State} (hq : Keeps q s) (n : Nat) (d : Cmd) (outs : List OutTile) (w : RunWork) : Keeps q (State.finishWork s n d outs w) := by
  unfold State.finishWork
  split
  · with_reducible apply State.stopWith_keeps
    assumption
  · split
    · with_reducible apply State.setRun_keeps
      with_reducible refine KeepsP.use ?_ (by assumption)
      with_reducible apply State.placeOut_keeps
      with_reducible apply State.dropResv_keeps
      assumption
    · with_reducible refine KeepsP.use ?_ (by assumption)
      with_reducible apply State.placeOut_keeps
      with_reducible apply State.dropResv_keeps
      assumption

theorem State.consume_keeps {q s : State} (hq : Keeps q s) (n : Nat) (reg : Nat) (status : Nat) : Keeps q (State.consume s n reg status) := by
  unfold State.consume
  with_reducible apply State.raise_keeps
  with_reducible apply State.fldPut_keeps
  assumption

end Sys2Proof.Machine
end

