-- ==== Sys2Proof/Laws/KeepsUnits.lean ====
section
/-! SUPPORT. `Keeps` for streams, host commands, the matrix and vector units, resolution and tables. -/

namespace Sys2Proof.Machine
open Sys2Proof

theorem State.stopStream_keeps {q s : State} (hq : Keeps q s) (n : Nat) (ix : Nat) : Keeps q (State.stopStream s n ix) := by
  unfold State.stopStream
  extract_lets +onlyGivenNames v1
  clear_value v1
  extract_lets +onlyGivenNames v2
  have hv2 : Keeps q v2 := by
    unfold v2
    with_reducible apply State.freeShadows_keeps
    assumption
  clear_value v2
  extract_lets +onlyGivenNames v3
  have hv3 : Keeps q v3 := by
    unfold v3
    with_reducible apply State.setStream_keeps
    assumption
  clear_value v3
  with_reducible apply Keeps.upd
  · assumption
  · rfl

theorem State.disarm_keeps {q s : State} (hq : Keeps q s) (n : Nat) (ix : Nat) : Keeps q (State.disarm s n ix) := by
  unfold State.disarm
  extract_lets +onlyGivenNames v1
  clear_value v1
  with_reducible refine Keeps.ite ?_ ?_
  · extract_lets +onlyGivenNames v2
    have hv2 : Keeps q v2 := by
      unfold v2
      with_reducible apply State.stopStream_keeps
      assumption
    clear_value v2
    extract_lets +onlyGivenNames v3
    clear_value v3
    with_reducible apply State.setStream_keeps
    assumption
  · assumption

theorem State.faultStream_keeps {q s : State} (hq : Keeps q s) (n : Nat) (ix : Nat) (cause : Nat) (tile : Nat) : Keeps q (State.faultStream s n ix cause tile) := by
  unfold State.faultStream
  extract_lets +onlyGivenNames v1
  have hv1 : Keeps q v1 := by
    unfold v1
    with_reducible apply State.stopStream_keeps
    assumption
  clear_value v1
  with_reducible apply State.raise_keeps
  with_reducible apply State.setStream_keeps
  assumption

theorem State.faultClu_keeps {q s : State} (hq : Keeps q s) (n : Nat) : Keeps q (State.faultClu s n) := by
  unfold State.faultClu
  with_reducible refine Keeps.foldl ?_ ?_
  · assumption
  · intro x1 x2 x3
    with_reducible refine Keeps.ite ?_ ?_
    · with_reducible apply State.faultStream_keeps
      assumption
    · assumption

theorem State.armFlip_keeps {q s : State} (hq : Keeps q s) (d : Cmd) : Keeps q (State.armFlip s d).1 := by
  unfold State.armFlip
  extract_lets +onlyGivenNames v1
  clear_value v1
  extract_lets +onlyGivenNames v2
  clear_value v2
  split
  · assumption
  · dsimp only
    with_reducible apply State.setStream_keeps
    assumption

theorem State.rearmFlip_keeps {q s : State} (hq : Keeps q s) (d : Cmd) : Keeps q (State.rearmFlip s d).1 := by
  unfold State.rearmFlip
  extract_lets +onlyGivenNames v1
  clear_value v1
  extract_lets +onlyGivenNames v2
  clear_value v2
  extract_lets +onlyGivenNames v3
  clear_value v3
  extract_lets +onlyGivenNames v4
  clear_value v4
  split
  · dsimp only
    with_reducible apply State.disarm_keeps
    assumption
  · split
    · split
      · assumption
      · dsimp only
        with_reducible apply State.setStream_keeps
        assumption
    · dsimp only
      with_reducible apply State.setStream_keeps
      assumption
    · assumption

theorem State.streamFlip_keeps {q s : State} (hq : Keeps q s) (d : Cmd) : Keeps q (State.streamFlip s d).1 := by
  unfold State.streamFlip
  split
  · with_reducible apply State.armFlip_keeps
    assumption
  · with_reducible apply State.rearmFlip_keeps
    assumption

theorem State.runStreamCmd_keeps {q s : State} (hq : Keeps q s) (n : Nat) (op : Nat) : Keeps q (State.runStreamCmd s n op) := by
  unfold State.runStreamCmd
  split
  · assumption
  · with_reducible apply State.prepare_keeps
    assumption

theorem execStreamArm_keeps {q s : State} (hq : Keeps q s) (clu : Nat) : Runs q (execStreamArm clu s) := by
  unfold execStreamArm
  with_reducible apply Runs.done
  with_reducible apply State.runStreamCmd_keeps
  assumption

theorem execStreamRearm_keeps {q s : State} (hq : Keeps q s) (clu : Nat) : Runs q (execStreamRearm clu s) := by
  unfold execStreamRearm
  with_reducible apply Runs.done
  with_reducible apply State.runStreamCmd_keeps
  assumption

theorem State.beginFill_keeps {q s : State} (hq : Keeps q s) (n : Nat) (ix : Nat) (o : Obj) (hs : List Shadow) : Keeps q (State.beginFill s n ix o hs) := by
  unfold State.beginFill
  extract_lets +onlyGivenNames v1
  clear_value v1
  extract_lets +onlyGivenNames v2
  clear_value v2
  split
  · assumption
  · extract_lets +onlyGivenNames v3
    clear_value v3
    extract_lets +onlyGivenNames v4
    clear_value v4
    extract_lets +onlyGivenNames v5
    have hv5 : Keeps q v5 := by
      unfold v5
      with_reducible refine Keeps.foldl ?_ ?_
      · assumption
      · intro x6 x7 x8
        with_reducible apply State.takeShadow_keeps
        assumption
    clear_value v5
    extract_lets +onlyGivenNames v9
    have hv9 : Keeps q v9 := by
      unfold v9
      with_reducible refine Keeps.ite ?_ ?_
      · with_reducible apply State.setObj_keeps
        assumption
      · assumption
    clear_value v9
    extract_lets +onlyGivenNames v10
    clear_value v10
    with_reducible apply State.setStream_keeps
    assumption

theorem State.noteIssue_keeps {q s : State} (hq : Keeps q s) (n : Nat) : Keeps q (State.noteIssue s n) := by
  unfold State.noteIssue
  with_reducible apply State.setClu_keeps
  assumption

theorem State.issueFar_keeps {q s : State} (hq : Keeps q s) (t : Stream) (x : Nat × Nat) (g : Nat) : Keeps q (State.issueFar s t x g) := by
  unfold State.issueFar
  extract_lets +onlyGivenNames v1
  clear_value v1
  with_reducible apply State.wantFetch_keeps
  with_reducible apply Keeps.upd
  · assumption
  · rfl

theorem State.issueXfer_keeps {q s : State} (hq : Keeps q s) (n : Nat) (ix : Nat) (o : Obj) : Keeps q (State.issueXfer s n ix o) := by
  unfold State.issueXfer
  extract_lets +onlyGivenNames v1
  clear_value v1
  split
  · assumption
  · extract_lets +onlyGivenNames v2
    clear_value v2
    split
    · with_reducible apply State.faultStream_keeps
      assumption
    · extract_lets +onlyGivenNames v3
      clear_value v3
      extract_lets +onlyGivenNames v4
      clear_value v4
      extract_lets +onlyGivenNames v5
      have hv5 : Keeps q v5 := by
        unfold v5
        with_reducible apply State.setStream_keeps
        assumption
      clear_value v5
      extract_lets +onlyGivenNames v6
      have hv6 : Keeps q v6 := by
        unfold v6
        with_reducible apply State.noteIssue_keeps
        assumption
      clear_value v6
      extract_lets +onlyGivenNames v7
      have hv7 : Keeps q v7 := by
        unfold v7
        with_reducible apply Keeps.upd
        · assumption
        · rfl
      clear_value v7
      with_reducible refine Keeps.ite ?_ ?_
      · with_reducible apply State.issueFar_keeps
        assumption
      · assumption

theorem State.streamIssue_keeps {q s : State} (hq : Keeps q s) (n : Nat) : Keeps q (State.streamIssue s n) := by
  unfold State.streamIssue
  with_reducible refine Keeps.ite ?_ ?_
  · assumption
  · split
    · assumption
    · extract_lets +onlyGivenNames v1
      clear_value v1
      extract_lets +onlyGivenNames v2
      clear_value v2
      split
      · with_reducible apply State.faultStream_keeps
        assumption
      · split
        · with_reducible apply State.issueXfer_keeps
          assumption
        · split
          · assumption
          · with_reducible apply State.issueXfer_keeps
            with_reducible apply State.beginFill_keeps
            assumption

theorem State.writeFill_keeps {q s : State} (hq : Keeps q s) (b : List Byte) (f : StrFill) : Keeps q (State.writeFill s b f) := by
  unfold State.writeFill
  split
  · extract_lets +onlyGivenNames v1
    have hv1 : Keeps q v1 := by
      unfold v1
      with_reducible refine Keeps.foldl ?_ ?_
      · assumption
      · intro x2 x3 x4
        extract_lets +onlyGivenNames v5
        clear_value v5
        with_reducible apply State.writeFrame_keeps
        assumption
    clear_value v1
    with_reducible refine Keeps.ite ?_ ?_
    · with_reducible apply Keeps.updFree
      · assumption
      · rfl
    · assumption
  · assumption

theorem State.commitFill_keeps {q s : State} (hq : Keeps q s) (n : Nat) (ix : Nat) (f : StrFill) : Keeps q (State.commitFill s n ix f) := by
  unfold State.commitFill
  extract_lets +onlyGivenNames v1
  extract_lets +onlyGivenNames v2
  clear_value v2
  extract_lets +onlyGivenNames v3
  clear_value v3
  extract_lets +onlyGivenNames v4
  have hv4 : Keeps q v4 := by
    unfold v4
    with_reducible apply State.flipAll_keeps
    with_reducible apply State.writeFill_keeps
    assumption
  clear_value v4
  extract_lets +onlyGivenNames v5
  extract_lets +onlyGivenNames v6
  clear_value v6
  extract_lets +onlyGivenNames v7
  have hv7 : Keeps q v7 := by
    unfold v7
    with_reducible apply State.setStream_keeps
    assumption
  clear_value v7
  extract_lets +onlyGivenNames v8
  have hv8 : Keeps q v8 := by
    unfold v8
    with_reducible refine Keeps.ite ?_ ?_
    · with_reducible apply State.raise_keeps
      assumption
    · assumption
  clear_value v8
  extract_lets +onlyGivenNames v9
  have hv9 : Keeps q v9 := by
    unfold v9
    with_reducible refine Keeps.ite ?_ ?_
    · with_reducible apply State.raise_keeps
      assumption
    · assumption
  clear_value v9
  extract_lets +onlyGivenNames v10
  clear_value v10
  with_reducible refine Keeps.ite ?_ ?_
  · with_reducible apply State.setFenceVal_keeps
    assumption
  · assumption

theorem State.dropXfer_keeps {q s : State} (hq : Keeps q s) (n : Nat) : Keeps q (State.dropXfer s n) := by
  unfold State.dropXfer
  split
  · assumption
  · extract_lets +onlyGivenNames v1
    have hv1 : Keeps q v1 := by
      unfold v1
      with_reducible apply State.releaseReads_keeps
      with_reducible apply Keeps.upd
      · assumption
      · rfl
    clear_value v1
    extract_lets +onlyGivenNames v2
    have hv2 : Keeps q v2 := by
      unfold v2
      with_reducible refine Keeps.ite ?_ ?_
      · with_reducible apply State.keepSlots_keeps
        assumption
      · assumption
    clear_value v2
    with_reducible refine Keeps.ite ?_ ?_
    · with_reducible apply State.setStream_keeps
      assumption
    · assumption

theorem State.chargeXfer_keeps {q s : State} (hq : Keeps q s) (c : Nat) (gen : BitVec 20) (n : Nat) (f : Nat) : Keeps q (State.chargeXfer s c gen n f) := by
  unfold State.chargeXfer
  with_reducible refine Keeps.ite ?_ ?_
  · with_reducible apply State.touch_keeps
    assumption
  · with_reducible apply State.noteXfer_keeps
    with_reducible apply State.chargeCyc_keeps
    with_reducible apply State.engineRead_keeps
    assumption

theorem State.readXfer_keeps {q s : State} (hq : Keeps q s) (x : Xfer) (num : Nat) (g : Nat) (bad : Option PoisonCause) : Keeps q (State.readXfer s x num g bad) := by
  unfold State.readXfer
  extract_lets +onlyGivenNames v1
  clear_value v1
  split
  · with_reducible apply State.dropXfer_keeps
    assumption
  · extract_lets +onlyGivenNames v2
    clear_value v2
    extract_lets +onlyGivenNames v3
    clear_value v3
    with_reducible refine Keeps.ite ?_ ?_
    · with_reducible apply State.dropXfer_keeps
      with_reducible apply State.faultStream_keeps
      assumption
    · split
      · with_reducible apply State.dropXfer_keeps
        with_reducible apply State.faultStream_keeps
        with_reducible refine Keeps.ite ?_ ?_
        · with_reducible apply State.poisonFrame_keeps
          assumption
        · assumption
      · extract_lets +onlyGivenNames v4
        clear_value v4
        extract_lets +onlyGivenNames v5
        have hv5 : Keeps q v5 := by
          unfold v5
          with_reducible apply State.setStream_keeps
          with_reducible apply State.chargeXfer_keeps
          assumption
        clear_value v5
        extract_lets +onlyGivenNames v6
        clear_value v6
        split
        · with_reducible apply State.dropXfer_keeps
          with_reducible apply State.faultStream_keeps
          assumption
        · with_reducible refine Keeps.ite ?_ ?_
          · with_reducible apply State.dropXfer_keeps
            assumption
          · with_reducible refine Keeps.ite ?_ ?_
            · with_reducible apply State.tidy_keeps
              with_reducible apply State.commitFill_keeps
              with_reducible apply State.dropXfer_keeps
              assumption
            · assumption

theorem execStrCtrlDisarm_keeps {q s : State} (hq : Keeps q s) (a : Acc) (clu : Nat) : Runs q (execStrCtrlDisarm a clu s) := by
  unfold execStrCtrlDisarm
  with_reducible apply Runs.done
  with_reducible refine Keeps.ite ?_ ?_
  · assumption
  · with_reducible apply State.disarm_keeps
    assumption

theorem State.runHostWrite_keeps {q s : State} (hq : Keeps q s) (n : Nat) : Keeps q (State.runHostWrite s n) := by
  unfold State.runHostWrite
  split
  · assumption
  · extract_lets +onlyGivenNames v1
    clear_value v1
    extract_lets +onlyGivenNames v2
    clear_value v2
    extract_lets +onlyGivenNames v3
    clear_value v3
    with_reducible refine Keeps.ite ?_ ?_
    · assumption
    · with_reducible refine Keeps.ite ?_ ?_
      · with_reducible apply State.fetchAll_keeps
        assumption
      · split
        · with_reducible apply State.stopFound_keeps
          assumption
        · extract_lets +onlyGivenNames v4
          clear_value v4
          extract_lets +onlyGivenNames v5
          have hv5 : Keeps q v5 := by
            unfold v5
            with_reducible apply State.readTiles_keeps
            assumption
          clear_value v5
          extract_lets +onlyGivenNames v6
          clear_value v6
          extract_lets +onlyGivenNames v7
          have hv7 : Keeps q v7 := by
            unfold v7
            with_reducible apply Keeps.upd
            · assumption
            · rfl
          clear_value v7
          with_reducible apply State.prepare_keeps
          assumption

theorem execHostWrite_keeps {q s : State} (hq : Keeps q s) (clu : Nat) : Runs q (execHostWrite clu s) := by
  unfold execHostWrite
  with_reducible apply Runs.done
  with_reducible apply State.runHostWrite_keeps
  assumption

theorem State.releaseFabric_keeps {q s : State} (hq : Keeps q s) (d : Cmd) (o : Origin) (bytes : List Byte) : Keeps q (State.releaseFabric s d o bytes) := by
  unfold State.releaseFabric
  with_reducible refine Keeps.foldl ?_ ?_
  · assumption
  · intro x1 x2 x3
    with_reducible apply State.chargeBytes_keeps
    with_reducible apply State.sendMsg_keeps
    assumption

theorem State.beginCommit_keeps {q s : State} (hq : Keeps q s) (n : Nat) : Keeps q (State.beginCommit s n) := by
  unfold State.beginCommit
  split
  · assumption
  · split
    · assumption
    · with_reducible refine Keeps.ite ?_ ?_
      · assumption
      · extract_lets +onlyGivenNames v1
        clear_value v1
        extract_lets +onlyGivenNames v2
        extract_lets +onlyGivenNames v3
        clear_value v3
        extract_lets +onlyGivenNames v4
        have hv4 : Keeps q v4 := by
          unfold v4
          with_reducible apply Keeps.upd
          · assumption
          · rfl
        clear_value v4
        extract_lets +onlyGivenNames v5
        clear_value v5
        extract_lets +onlyGivenNames v6
        have hv6 : Keeps q v6 := by
          unfold v6
          split
          · split
            · with_reducible apply State.releaseFabric_keeps
              assumption
            · assumption
          · assumption
          · with_reducible apply Keeps.upd
            · assumption
            · rfl
        clear_value v6
        with_reducible apply State.setCmd_keeps
        with_reducible apply State.setRun_keeps
        assumption

theorem execCommitPhaseBegin_keeps {q s : State} (hq : Keeps q s) (clu : Nat) : Runs q (execCommitPhaseBegin clu s) := by
  unfold execCommitPhaseBegin
  with_reducible apply Runs.done
  with_reducible apply State.beginCommit_keeps
  assumption

theorem State.settleAcks_keeps {q s : State} (hq : Keeps q s) (id : Nat) : Keeps q (State.settleAcks s id) := by
  unfold State.settleAcks
  split
  · assumption
  · split
    · with_reducible refine Keeps.ite ?_ ?_
      · assumption
      · with_reducible apply State.tidy_keeps
        with_reducible apply State.endCmd_keeps
        assumption
    · assumption

theorem State.settleCommit_keeps {q s : State} (hq : Keeps q s) (n : Nat) : Keeps q (State.settleCommit s n) := by
  unfold State.settleCommit
  split
  · assumption
  · split
    · assumption
    · with_reducible refine Keeps.ite ?_ ?_
      · assumption
      · extract_lets +onlyGivenNames v1
        have hv1 : Keeps q v1.1 := by
          unfold v1
          with_reducible apply State.issueFlush_keeps
          assumption
        clear_value v1
        extract_lets +onlyGivenNames v2
        clear_value v2
        extract_lets +onlyGivenNames v3
        have hv3 : Keeps q v3 := by
          unfold v3
          split
          · split
            · with_reducible apply State.setCmd_keeps
              assumption
            · with_reducible apply State.setExtra_keeps
              with_reducible apply State.setCmd_keeps
              assumption
          · assumption
        clear_value v3
        with_reducible refine Keeps.ite ?_ ?_
        · assumption
        · with_reducible apply State.tidy_keeps
          with_reducible apply State.settleAcks_keeps
          with_reducible apply State.leaveRun_keeps
          with_reducible apply State.noteClu_keeps
          assumption

theorem State.settleCommits_keeps {q s : State} (hq : Keeps q s) : Keeps q (State.settleCommits s) := by
  unfold State.settleCommits
  with_reducible refine Keeps.foldl ?_ ?_
  · assumption
  · intro x1 x2 x3
    with_reducible apply State.settleCommit_keeps
    assumption

theorem State.noteRtt_keeps {q s : State} (hq : Keeps q s) (t : Nat) : Keeps q (State.noteRtt s t) := by
  unfold State.noteRtt
  with_reducible apply Keeps.upd
  · assumption
  · rfl

theorem State.flushReturn_keeps {q s : State} (hq : Keeps q s) (c : Nat) (ok : Bool) : Keeps q (State.flushReturn s c ok) := by
  unfold State.flushReturn
  split
  · assumption
  · with_reducible refine Keeps.ite ?_ ?_
    · assumption
    · extract_lets +onlyGivenNames v1
      clear_value v1
      extract_lets +onlyGivenNames v2
      have hv2 : Keeps q v2 := by
        unfold v2
        with_reducible apply State.noteRtt_keeps
        with_reducible apply Keeps.upd
        · assumption
        · rfl
      clear_value v2
      extract_lets +onlyGivenNames v3
      have hv3 : Keeps q v3 := by
        unfold v3
        with_reducible refine Keeps.ite ?_ ?_
        · with_reducible apply State.confirm_keeps
          assumption
        · assumption
      clear_value v3
      extract_lets +onlyGivenNames v4
      clear_value v4
      with_reducible apply State.pumpRing_keeps
      with_reducible apply State.release_keeps
      with_reducible refine Keeps.foldl ?_ ?_
      · assumption
      · intro x5 x6 x7
        with_reducible apply State.tidy_keeps
        with_reducible apply State.endCmd_keeps
        assumption

theorem execFlushReadReturn_keeps {q s : State} (hq : Keeps q s) (chan : Nat) (ok : Bool) : Runs q (execFlushReadReturn chan ok s) := by
  unfold execFlushReadReturn
  with_reducible apply Runs.done
  with_reducible refine Keeps.ite ?_ ?_
  · assumption
  · with_reducible apply State.flushReturn_keeps
    assumption

theorem execPostedWriteDrain_keeps {q s : State} (hq : Keeps q s) : Runs q (execPostedWriteDrain s) := by
  unfold execPostedWriteDrain
  with_reducible apply Runs.done
  split
  · assumption
  · with_reducible refine Keeps.ite ?_ ?_
    · assumption
    · with_reducible apply State.chargeBytes_keeps
      with_reducible apply State.emit_keeps
      with_reducible apply Keeps.upd
      · assumption
      · rfl

theorem State.pumpLines_keeps {q s : State} (hq : Keeps q s) (n : Nat) : Keeps q (State.pumpLines s n) := by
  unfold State.pumpLines
  split
  · assumption
  · with_reducible refine Keeps.ite ?_ ?_
    · assumption
    · extract_lets +onlyGivenNames v1
      clear_value v1
      with_reducible refine Keeps.foldl ?_ ?_
      · assumption
      · intro x2 x3 x4
        with_reducible apply State.emit_keeps
        with_reducible apply Keeps.upd
        · assumption
        · rfl

theorem State.pumpAllLines_keeps {q s : State} (hq : Keeps q s) : Keeps q (State.pumpAllLines s) := by
  unfold State.pumpAllLines
  with_reducible refine Keeps.foldl ?_ ?_
  · assumption
  · intro x1 x2 x3
    with_reducible apply State.pumpLines_keeps
    assumption

theorem State.runHostRead_keeps {q s : State} (hq : Keeps q s) (n : Nat) : Keeps q (State.runHostRead s n) := by
  unfold State.runHostRead
  split
  · assumption
  · extract_lets +onlyGivenNames v1
    clear_value v1
    with_reducible refine Keeps.ite ?_ ?_
    · assumption
    · with_reducible refine Keeps.ite ?_ ?_
      · with_reducible apply State.fetchAll_keeps
        assumption
      · split
        · with_reducible apply State.stopFound_keeps
          assumption
        · with_reducible apply State.pumpLines_keeps
          with_reducible apply State.prepare_keeps
          with_reducible apply State.readTiles_keeps
          assumption

theorem execHostRead_keeps {q s : State} (hq : Keeps q s) (clu : Nat) : Runs q (execHostRead clu s) := by
  unfold execHostRead
  with_reducible apply Runs.done
  with_reducible apply State.runHostRead_keeps
  assumption

theorem State.finishRead_keeps {q s : State} (hq : Keeps q s) (n : Nat) (d : Cmd) : Keeps q (State.finishRead s n d) := by
  unfold State.finishRead
  extract_lets +onlyGivenNames v1
  clear_value v1
  extract_lets +onlyGivenNames v2
  clear_value v2
  extract_lets +onlyGivenNames v3
  clear_value v3
  extract_lets +onlyGivenNames v4
  clear_value v4
  with_reducible apply State.dropHost_keeps
  with_reducible apply State.finishWork_keeps
  assumption

theorem State.lineReturn_keeps {q s : State} (hq : Keeps q s) (n : Nat) (addr : Nat) (l : HostLine) : Keeps q (State.lineReturn s n addr l) := by
  unfold State.lineReturn
  split
  · extract_lets +onlyGivenNames v1
    clear_value v1
    extract_lets +onlyGivenNames v2
    have hv2 : Keeps q v2 := by
      unfold v2
      with_reducible apply Keeps.upd
      · assumption
      · rfl
    clear_value v2
    split
    · with_reducible apply State.stopWith_keeps
      with_reducible apply State.raise_keeps
      with_reducible apply Keeps.upd
      · assumption
      · rfl
    · extract_lets +onlyGivenNames v3
      clear_value v3
      extract_lets +onlyGivenNames v4
      clear_value v4
      extract_lets +onlyGivenNames v5
      have hv5 : Keeps q v5 := by
        unfold v5
        with_reducible apply Keeps.upd
        · assumption
        · rfl
      clear_value v5
      extract_lets +onlyGivenNames v6
      have hv6 : Keeps q v6 := by
        unfold v6
        with_reducible apply State.chargeBytes_keeps
        with_reducible refine Keeps.ite ?_ ?_
        · with_reducible apply State.emit_keeps
          assumption
        · assumption
      clear_value v6
      with_reducible refine Keeps.ite ?_ ?_
      · with_reducible apply State.finishRead_keeps
        assumption
      · with_reducible apply State.pumpLines_keeps
        assumption
  · assumption

theorem execHostReadLineReturn_keeps {q s : State} (hq : Keeps q s) (clu : Nat) (addr : Nat) (line : HostLine) : Runs q (execHostReadLineReturn clu addr line s) := by
  unfold execHostReadLineReturn
  with_reducible apply Runs.done
  with_reducible refine Keeps.ite ?_ ?_
  · assumption
  · with_reducible apply State.lineReturn_keeps
    assumption

theorem execCompletionTimeout_keeps {q s : State} (hq : Keeps q s) (read : HostReadId) : Runs q (execCompletionTimeout read s) := by
  unfold execCompletionTimeout
  with_reducible apply Runs.done
  with_reducible refine Keeps.ite ?_ ?_
  · assumption
  · split
    · with_reducible apply State.flushReturn_keeps
      assumption
    · with_reducible apply State.lineReturn_keeps
      assumption
    · assumption

theorem State.killRead_keeps {q s : State} (hq : Keeps q s) (n : Nat) : Keeps q (State.killRead s n) := by
  unfold State.killRead
  split
  · assumption
  · with_reducible refine Keeps.ite ?_ ?_
    · assumption
    · with_reducible apply State.sendBack_keeps
      with_reducible apply State.noteClu_keeps
      with_reducible apply State.stopRun_keeps
      assumption

theorem State.killReads_keeps {q s : State} (hq : Keeps q s) : Keeps q (State.killReads s) := by
  unfold State.killReads
  with_reducible refine Keeps.foldl ?_ ?_
  · assumption
  · intro x1 x2 x3
    with_reducible apply State.killRead_keeps
    assumption

theorem State.drain_keeps {q s : State} (hq : Keeps q s) (n : Nat) (r : Run) (d : Cmd) : Keeps q (State.drain s n r d) := by
  unfold State.drain
  extract_lets +onlyGivenNames v1
  clear_value v1
  split
  · extract_lets +onlyGivenNames v2
    clear_value v2
    extract_lets +onlyGivenNames v3
    clear_value v3
    extract_lets +onlyGivenNames v4
    clear_value v4
    extract_lets +onlyGivenNames v5
    clear_value v5
    extract_lets +onlyGivenNames v6
    clear_value v6
    extract_lets +onlyGivenNames v7
    clear_value v7
    extract_lets +onlyGivenNames v8
    clear_value v8
    extract_lets +onlyGivenNames v9
    clear_value v9
    extract_lets +onlyGivenNames v10
    clear_value v10
    extract_lets +onlyGivenNames v11
    clear_value v11
    extract_lets +onlyGivenNames v12
    clear_value v12
    extract_lets +onlyGivenNames v13
    have hv13 : Keeps q v13 := by
      unfold v13
      with_reducible refine Keeps.ite ?_ ?_
      · assumption
      · with_reducible apply State.setCnt_keeps
        assumption
    clear_value v13
    with_reducible apply State.finishWork_keeps
    with_reducible apply State.setRun_keeps
    assumption
  · assumption

theorem State.readPart_keeps {q s : State} (hq : Keeps q s) (d : Cmd) (n : Nat) (h : Nat) (fmt : Nat) (els : Nat) (times : Nat) (tile : Nat) : Keeps q (State.readPart s d n h fmt els times tile) := by
  unfold State.readPart
  extract_lets +onlyGivenNames v1
  have hv1 : Keeps q v1 := by
    unfold v1
    split
    · with_reducible apply State.engineReads_keeps
      assumption
    · assumption
  clear_value v1
  split
  · assumption
  · with_reducible refine Keeps.ite ?_ ?_
    · split
      · with_reducible apply State.engineReads_keeps
        assumption
      · assumption
    · assumption

theorem State.readRegion_keeps {q s : State} (hq : Keeps q s) (d : Cmd) (n : Nat) (h : Nat) (fmt : Nat) (base : Nat) (len : Nat) (times : Nat) : Keeps q (State.readRegion s d n h fmt base len times) := by
  unfold State.readRegion
  with_reducible refine Keeps.ite ?_ ?_
  · assumption
  · with_reducible refine Keeps.foldl ?_ ?_
    · assumption
    · intro x1 x2 x3
      with_reducible apply State.readPart_keeps
      assumption

theorem State.readProduct_keeps {q s : State} (hq : Keeps q s) (d : Cmd) (n : Nat) (p : Product) (wFmt : Nat) (wRow : Nat) : Keeps q (State.readProduct s d n p wFmt wRow) := by
  unfold State.readProduct
  extract_lets +onlyGivenNames v1
  have hv1 : Keeps q v1 := by
    unfold v1
    with_reducible apply State.readRegion_keeps
    assumption
  clear_value v1
  extract_lets +onlyGivenNames v2
  have hv2 : Keeps q v2 := by
    unfold v2
    with_reducible refine Keeps.ite ?_ ?_
    · with_reducible apply State.readRows_keeps
      assumption
    · with_reducible apply State.readRegion_keeps
      assumption
  clear_value v2
  extract_lets +onlyGivenNames v3
  have hv3 : Keeps q v3 := by
    unfold v3
    with_reducible refine Keeps.ite ?_ ?_
    · assumption
    · with_reducible apply State.readRegion_keeps
      assumption
  clear_value v3
  extract_lets +onlyGivenNames v4
  have hv4 : Keeps q v4 := by
    unfold v4
    with_reducible refine Keeps.ite ?_ ?_
    · assumption
    · with_reducible apply State.readRegion_keeps
      assumption
  clear_value v4
  with_reducible apply State.readTiles_keeps
  assumption

theorem State.runProduct_keeps {q s : State} (hq : Keeps q s) (n : Nat) (op : Nat) : Keeps q (State.runProduct s n op) := by
  unfold State.runProduct
  split
  · assumption
  · extract_lets +onlyGivenNames v1
    clear_value v1
    extract_lets +onlyGivenNames v2
    clear_value v2
    with_reducible refine Keeps.ite ?_ ?_
    · with_reducible apply State.fetchAll_keeps
      assumption
    · split
      · with_reducible apply State.stopFound_keeps
        assumption
      · split
        · extract_lets +onlyGivenNames v3
          clear_value v3
          extract_lets +onlyGivenNames v4
          clear_value v4
          extract_lets +onlyGivenNames v5
          clear_value v5
          extract_lets +onlyGivenNames v6
          clear_value v6
          extract_lets +onlyGivenNames v7
          clear_value v7
          with_reducible apply State.prepare_keeps
          with_reducible apply State.readProduct_keeps
          assumption
        · assumption

theorem execGemm_keeps {q s : State} (hq : Keeps q s) (clu : Nat) : Runs q (execGemm clu s) := by
  unfold execGemm
  with_reducible apply Runs.done
  with_reducible apply State.runProduct_keeps
  assumption

theorem execMatvec_keeps {q s : State} (hq : Keeps q s) (clu : Nat) : Runs q (execMatvec clu s) := by
  unfold execMatvec
  with_reducible apply Runs.done
  with_reducible apply State.runProduct_keeps
  assumption

theorem State.compare_keeps {q s : State} (hq : Keeps q s) (n : Nat) (kind : CheckKind) (g : Option Glitch) : Keeps q (State.compare s n kind g) := by
  unfold State.compare
  split
  · assumption
  · split
    · assumption
    · with_reducible refine Keeps.ite ?_ ?_
      · assumption
      · extract_lets +onlyGivenNames v1
        clear_value v1
        extract_lets +onlyGivenNames v2
        clear_value v2
        extract_lets +onlyGivenNames v3
        clear_value v3
        extract_lets +onlyGivenNames v4
        clear_value v4
        extract_lets +onlyGivenNames v5
        clear_value v5
        extract_lets +onlyGivenNames v6
        clear_value v6
        extract_lets +onlyGivenNames v7
        clear_value v7
        extract_lets +onlyGivenNames v8
        clear_value v8
        extract_lets +onlyGivenNames v9
        have hv9 : Keeps q v9 := by
          unfold v9
          split
          · with_reducible apply State.consume_keeps
            assumption
          · assumption
        clear_value v9
        extract_lets +onlyGivenNames v10
        have hv10 : Keeps q v10 := by
          unfold v10
          with_reducible apply State.setCnt_keeps
          assumption
        clear_value v10
        extract_lets +onlyGivenNames v11
        have hv11 : Keeps q v11 := by
          unfold v11
          with_reducible refine Keeps.ite ?_ ?_
          · assumption
          · with_reducible apply State.raise_keeps
            assumption
        clear_value v11
        with_reducible refine Keeps.ite ?_ ?_
        · with_reducible apply State.trigger_keeps
          with_reducible apply State.raise_keeps
          assumption
        · extract_lets +onlyGivenNames v12
          clear_value v12
          extract_lets +onlyGivenNames v13
          have hv13 : Keeps q v13 := by
            unfold v13
            with_reducible apply State.setRun_keeps
            assumption
          clear_value v13
          with_reducible refine Keeps.ite ?_ ?_
          · with_reducible apply State.drain_keeps
            assumption
          · assumption

theorem execArrayBlockCompare_keeps {q s : State} (hq : Keeps q s) (clu : Nat) (g : Option Glitch) : Runs q (execArrayBlockCompare clu g s) := by
  unfold execArrayBlockCompare
  with_reducible apply Runs.done
  with_reducible apply State.compare_keeps
  assumption

theorem execSkinkGroupCompare_keeps {q s : State} (hq : Keeps q s) (clu : Nat) (g : Option Glitch) : Runs q (execSkinkGroupCompare clu g s) := by
  unfold execSkinkGroupCompare
  with_reducible apply Runs.done
  with_reducible apply State.compare_keeps
  assumption

theorem State.summaryCompare_keeps {q s : State} (hq : Keeps q s) (n : Nat) (g : Option Glitch) : Keeps q (State.summaryCompare s n g) := by
  unfold State.summaryCompare
  split
  · assumption
  · split
    · assumption
    · with_reducible refine Keeps.ite ?_ ?_
      · assumption
      · extract_lets +onlyGivenNames v1
        clear_value v1
        extract_lets +onlyGivenNames v2
        clear_value v2
        extract_lets +onlyGivenNames v3
        clear_value v3
        extract_lets +onlyGivenNames v4
        clear_value v4
        extract_lets +onlyGivenNames v5
        clear_value v5
        extract_lets +onlyGivenNames v6
        clear_value v6
        extract_lets +onlyGivenNames v7
        clear_value v7
        extract_lets +onlyGivenNames v8
        have hv8 : Keeps q v8 := by
          unfold v8
          with_reducible apply State.setCnt_keeps
          assumption
        clear_value v8
        extract_lets +onlyGivenNames v9
        have hv9 : Keeps q v9 := by
          unfold v9
          with_reducible refine Keeps.ite ?_ ?_
          · with_reducible apply State.consume_keeps
            assumption
          · assumption
        clear_value v9
        extract_lets +onlyGivenNames v10
        clear_value v10
        split
        · extract_lets +onlyGivenNames v11
          clear_value v11
          extract_lets +onlyGivenNames v12
          clear_value v12
          extract_lets +onlyGivenNames v13
          have hv13 : Keeps q v13 := by
            unfold v13
            with_reducible apply State.setCnt_keeps
            assumption
          clear_value v13
          with_reducible apply State.trigger_keeps
          with_reducible apply State.raise_keeps
          assumption
        · with_reducible apply State.setRun_keeps
          assumption

theorem execSummaryCompare_keeps {q s : State} (hq : Keeps q s) (clu : Nat) (g : Option Glitch) : Runs q (execSummaryCompare clu g s) := by
  unfold execSummaryCompare
  with_reducible apply Runs.done
  with_reducible apply State.summaryCompare_keeps
  assumption

theorem State.laneFaults_keeps {q s : State} (hq : Keeps q s) (n : Nat) (id : Nat) (faults : Nat) (last : Option (Nat × Nat)) : Keeps q (State.laneFaults s n id faults last) := by
  unfold State.laneFaults
  with_reducible refine Keeps.ite ?_ ?_
  · assumption
  · extract_lets +onlyGivenNames v1
    clear_value v1
    extract_lets +onlyGivenNames v2
    clear_value v2
    extract_lets +onlyGivenNames v3
    clear_value v3
    extract_lets +onlyGivenNames v4
    clear_value v4
    with_reducible apply State.raise_keeps
    with_reducible apply State.setCnt_keeps
    with_reducible apply State.setExtra_keeps
    assumption

theorem State.vPass_keeps {q s : State} (hq : Keeps q s) (n : Nat) (d : Cmd) (v : VProg) : Keeps q (State.vPass s n d v).1 := by
  unfold State.vPass
  extract_lets +onlyGivenNames v1
  clear_value v1
  extract_lets +onlyGivenNames v2
  clear_value v2
  extract_lets +onlyGivenNames v3
  clear_value v3
  extract_lets +onlyGivenNames v4
  clear_value v4
  extract_lets +onlyGivenNames v5
  clear_value v5
  extract_lets +onlyGivenNames v6
  clear_value v6
  extract_lets +onlyGivenNames v7
  clear_value v7
  extract_lets +onlyGivenNames v8
  clear_value v8
  extract_lets +onlyGivenNames v9
  clear_value v9
  extract_lets +onlyGivenNames v10
  clear_value v10
  extract_lets +onlyGivenNames v11
  clear_value v11
  extract_lets +onlyGivenNames v12
  clear_value v12
  extract_lets +onlyGivenNames v13
  clear_value v13
  extract_lets +onlyGivenNames v14
  clear_value v14
  extract_lets +onlyGivenNames v15
  clear_value v15
  extract_lets +onlyGivenNames v16
  clear_value v16
  extract_lets +onlyGivenNames v17
  clear_value v17
  dsimp only
  with_reducible apply State.laneFaults_keeps
  assumption

theorem State.runVchain_keeps {q s : State} (hq : Keeps q s) (n : Nat) : Keeps q (State.runVchain s n) := by
  unfold State.runVchain
  split
  · assumption
  · extract_lets +onlyGivenNames v1
    clear_value v1
    extract_lets +onlyGivenNames v2
    clear_value v2
    with_reducible refine Keeps.ite ?_ ?_
    · with_reducible apply State.fetchAll_keeps
      assumption
    · split
      · with_reducible apply State.stopFound_keeps
        assumption
      · extract_lets +onlyGivenNames v3
        clear_value v3
        extract_lets +onlyGivenNames v4
        have hv4 : Keeps q v4.1 := by
          unfold v4
          with_reducible apply State.vPass_keeps
          assumption
        clear_value v4
        extract_lets +onlyGivenNames v5
        clear_value v5
        with_reducible apply State.finishWork_keeps
        with_reducible apply State.prepare_keeps
        with_reducible apply State.readTiles_keeps
        assumption

theorem execVchain_keeps {q s : State} (hq : Keeps q s) (clu : Nat) : Runs q (execVchain clu s) := by
  unfold execVchain
  with_reducible apply Runs.done
  with_reducible apply State.runVchain_keeps
  assumption

theorem State.settleRes_keeps {q s : State} (hq : Keeps q s) (id : Nat) : Keeps q (State.settleRes s id) := by
  unfold State.settleRes
  split
  · assumption
  · split
    · extract_lets +onlyGivenNames v1
      clear_value v1
      with_reducible apply State.setCmd_keeps
      assumption
    · assumption

theorem State.settleResAll_keeps {q s : State} (hq : Keeps q s) : Keeps q (State.settleResAll s) := by
  unfold State.settleResAll
  with_reducible refine Keeps.foldl ?_ ?_
  · assumption
  · intro x1 x2 x3
    with_reducible apply State.settleRes_keeps
    assumption

theorem State.remoteFail_keeps {q s : State} (hq : Keeps q s) (d : Cmd) (a : Nat) (b : Nat) : Keeps q (State.remoteFail s d a b) := by
  unfold State.remoteFail
  with_reducible apply State.settleMoves_keeps
  with_reducible refine Keeps.ite ?_ ?_
  · with_reducible apply State.endCmd_keeps
    assumption
  · with_reducible apply State.endCmd_keeps
    assumption

theorem State.sendGathers_keeps {q s : State} (hq : Keeps q s) (id : Nat) : Keeps q (State.sendGathers s id) := by
  unfold State.sendGathers
  split
  · assumption
  · split
    · with_reducible refine Keeps.ite ?_ ?_
      · assumption
      · extract_lets +onlyGivenNames v1
        clear_value v1
        split
        · with_reducible apply State.remoteFail_keeps
          assumption
        · extract_lets +onlyGivenNames v2
          have hv2 : Keeps q v2.1 := by
            unfold v2
            with_reducible refine Keeps.foldlFst ?_ ?_
            · assumption
            · intro x3 x4 x5
              extract_lets +onlyGivenNames v6
              have hv6 : Keeps q v6.1 := by
                unfold v6
                with_reducible apply State.sendMsg_keeps
                assumption
              clear_value v6
              dsimp only
              with_reducible apply State.chargeBytes_keeps
              with_reducible apply Keeps.upd
              · assumption
              · rfl
          clear_value v2
          exact State.setCmd_keeps (State.egress_keeps hq hv2) _
    · assumption

theorem State.awaitRes_keeps {q s : State} (hq : Keeps q s) (id : Nat) : Keeps q (State.awaitRes s id) := by
  unfold State.awaitRes
  with_reducible refine Keeps.ite ?_ ?_
  · assumption
  · with_reducible apply Keeps.upd
    · assumption
    · rfl

theorem State.leaveRes_keeps {q s : State} (hq : Keeps q s) (id : Nat) : Keeps q (State.leaveRes s id) := by
  unfold State.leaveRes
  with_reducible apply Keeps.upd
  · assumption
  · rfl

theorem State.holdRes_keeps {q s : State} (hq : Keeps q s) (d : Cmd) (r : Resolution) (held : List (Nat × Nat)) : Keeps q (State.holdRes s d r held) := by
  unfold State.holdRes
  extract_lets +onlyGivenNames v1
  clear_value v1
  extract_lets +onlyGivenNames v2
  have hv2 : Keeps q v2 := by
    unfold v2
    with_reducible apply State.setCmd_keeps
    with_reducible apply State.leaveRes_keeps
    assumption
  clear_value v2
  with_reducible apply State.settleRes_keeps
  with_reducible apply State.sendGathers_keeps
  with_reducible apply State.fetchAll_keeps
  assumption

theorem State.readValues_keeps {q s : State} (hq : Keeps q s) (d : Cmd) (h : Nat) (o : Obj) : Keeps q (State.readValues s d h o) := by
  unfold State.readValues
  extract_lets +onlyGivenNames v1
  clear_value v1
  extract_lets +onlyGivenNames v2
  clear_value v2
  extract_lets +onlyGivenNames v3
  clear_value v3
  extract_lets +onlyGivenNames v4
  clear_value v4
  split
  · with_reducible apply State.endCmd_keeps
    assumption
  · with_reducible refine Keeps.ite ?_ ?_
    · with_reducible apply State.endCmd_keeps
      assumption
    · with_reducible apply State.holdRes_keeps
      assumption

theorem State.beginRes_keeps {q s : State} (hq : Keeps q s) (d : Cmd) : Keeps q (State.beginRes s d) := by
  unfold State.beginRes
  extract_lets +onlyGivenNames v1
  clear_value v1
  extract_lets +onlyGivenNames v2
  clear_value v2
  with_reducible refine Keeps.ite ?_ ?_
  · with_reducible apply State.awaitRes_keeps
    assumption
  · with_reducible refine Keeps.ite ?_ ?_
    · with_reducible apply State.fetchAll_keeps
      assumption
    · split
      · with_reducible apply State.endCmd_keeps
        with_reducible apply State.poisonIfBad_keeps
        assumption
      · split
        · assumption
        · with_reducible apply State.readValues_keeps
          assumption

theorem execResolutionBegin_keeps {q s : State} (hq : Keeps q s) (cmd : Nat) : Runs q (execResolutionBegin cmd s) := by
  unfold execResolutionBegin
  with_reducible apply Runs.done
  with_reducible refine Keeps.ite ?_ ?_
  · assumption
  · split
    · assumption
    · with_reducible refine Keeps.ite ?_ ?_
      · assumption
      · with_reducible refine Keeps.ite ?_ ?_
        · extract_lets +onlyGivenNames v1
          clear_value v1
          split
          · assumption
          · extract_lets +onlyGivenNames v2
            clear_value v2
            with_reducible refine Keeps.ite ?_ ?_
            · assumption
            · split
              · with_reducible apply State.endCmd_keeps
                with_reducible apply State.setCmd_keeps
                assumption
              · with_reducible apply State.beginRes_keeps
                with_reducible apply State.setCmd_keeps
                assumption
        · split
          · with_reducible refine Keeps.fst ?_ (by assumption)
            with_reducible apply State.prep_keeps
            assumption
          · with_reducible refine Keeps.ite ?_ ?_
            · with_reducible refine Keeps.fst ?_ (by assumption)
              with_reducible apply State.prep_keeps
              assumption
            · split
              · with_reducible apply State.endCmd_keeps
                with_reducible refine Keeps.fst ?_ (by assumption)
                with_reducible apply State.prep_keeps
                assumption
              · split
                · with_reducible apply State.endCmd_keeps
                  with_reducible refine Keeps.fst ?_ (by assumption)
                  with_reducible apply State.prep_keeps
                  assumption
                · with_reducible apply State.beginRes_keeps
                  with_reducible refine Keeps.fst ?_ (by assumption)
                  with_reducible apply State.prep_keeps
                  assumption

theorem execRemoteGatherTimeout_keeps {q s : State} (hq : Keeps q s) (cmd : Nat) : Runs q (execRemoteGatherTimeout cmd s) := by
  unfold execRemoteGatherTimeout
  with_reducible apply Runs.done
  split
  · assumption
  · split
    · assumption
    · with_reducible refine Keeps.ite ?_ ?_
      · assumption
      · split
        · assumption
        · with_reducible apply State.remoteFail_keeps
          assumption

theorem State.tblInject_keeps {q s : State} (hq : Keeps q s) (n : Nat) (path : Nat) : Keeps q (State.tblInject s n path).2 := by
  unfold State.tblInject
  split
  · dsimp only
    with_reducible apply State.consume_keeps
    assumption
  · assumption

theorem State.tblMismatch_keeps {q s : State} (hq : Keeps q s) (n : Nat) : Keeps q (State.tblMismatch s n) := by
  unfold State.tblMismatch
  extract_lets +onlyGivenNames v1
  clear_value v1
  with_reducible apply State.trigger_keeps
  with_reducible apply State.raise_keeps
  with_reducible apply State.setCnt_keeps
  assumption

theorem State.countRows_keeps {q s : State} (hq : Keeps q s) (n : Nat) (k : Nat) : Keeps q (State.countRows s n k) := by
  unfold State.countRows
  extract_lets +onlyGivenNames v1
  clear_value v1
  with_reducible apply State.setCnt_keeps
  assumption

theorem State.workGather_keeps {q s : State} (hq : Keeps q s) (n : Nat) (run : Run) (d : Cmd) (o : Obj) (t : TableDesc) (r : Resolution) : Keeps q (State.workGather s n run d o t r) := by
  unfold State.workGather
  extract_lets +onlyGivenNames v1
  clear_value v1
  extract_lets +onlyGivenNames v2
  have hv2 : Keeps q v2.2 := by
    unfold v2
    split
    · assumption
    · with_reducible apply State.tblInject_keeps
      assumption
  clear_value v2
  extract_lets +onlyGivenNames v3
  clear_value v3
  extract_lets +onlyGivenNames v4
  have hv4 : Keeps q v4 := by
    unfold v4
    with_reducible apply State.countRows_keeps
    assumption
  clear_value v4
  with_reducible refine Keeps.ite ?_ ?_
  · with_reducible apply State.tblMismatch_keeps
    assumption
  · extract_lets +onlyGivenNames v5
    clear_value v5
    extract_lets +onlyGivenNames v6
    clear_value v6
    with_reducible apply State.finishWork_keeps
    with_reducible apply State.prepare_keeps
    with_reducible apply State.readTiles_keeps
    with_reducible apply State.readRows_keeps
    assumption

theorem State.runGather_keeps {q s : State} (hq : Keeps q s) (n : Nat) : Keeps q (State.runGather s n) := by
  unfold State.runGather
  split
  · assumption
  · split
    · extract_lets +onlyGivenNames v1
      clear_value v1
      with_reducible refine Keeps.ite ?_ ?_
      · with_reducible apply State.fetchAll_keeps
        assumption
      · split
        · with_reducible apply State.stopFound_keeps
          assumption
        · with_reducible apply State.workGather_keeps
          assumption
    · assumption

theorem execGatherPool_keeps {q s : State} (hq : Keeps q s) (clu : Nat) : Runs q (execGatherPool clu s) := by
  unfold execGatherPool
  with_reducible apply Runs.done
  with_reducible apply State.runGather_keeps
  assumption

theorem State.writePool_keeps {q s : State} (hq : Keeps q s) (d : Cmd) (n : Nat) (o : Obj) (t : TableDesc) (row : Nat) (bytes : List Byte) : Keeps q (State.writePool s d n o t row bytes) := by
  unfold State.writePool
  extract_lets +onlyGivenNames v1
  clear_value v1
  extract_lets +onlyGivenNames v2
  clear_value v2
  split
  · assumption
  · with_reducible apply State.engineWrite_keeps
    with_reducible apply State.writeBytes_keeps
    assumption

theorem State.readSource_keeps {q s : State} (hq : Keeps q s) (d : Cmd) (c : Nat) (n : Nat) : Keeps q (State.readSource s d c n) := by
  unfold State.readSource
  split
  · assumption
  · with_reducible refine Keeps.foldl ?_ ?_
    · assumption
    · intro x1 x2 x3
      with_reducible apply State.readRows_keeps
      assumption

theorem State.writeNewRows_keeps {q s a7 : State} (hq : Keeps q a7) (d : Cmd) (n : Nat) (h : Nat) (o : Obj) (t : TableDesc)
    (l : List (Nat × (Nat × List Nat) × Nat)) : Keeps q (State.writeNewRows s d n h o t a7 l) := by
  induction l generalizing a7 with
  | nil => exact hq
  | cons y rest ih =>
    obtain ⟨u, x, slot⟩ := y
    rw [State.writeNewRows]
    have h1 := State.writePool_keeps hq d n o t (2 * slot)
      (s.newRow d h o t (match s.homeOf t.pool (rowPlace t.pool (poolRowBytes o t) (2 * slot)).2.1 with
        | some f => s.tileScale f | none => scaleOne) u x).1
    exact ih (Keeps.ite h1 (State.writePool_keeps h1 _ _ _ _ _ _))

theorem State.readUpdate_keeps {q s : State} (hq : Keeps q s) (d : Cmd) (n : Nat) (h : Nat) (o : Obj) (t : TableDesc) (rows : List Nat) : Keeps q (State.readUpdate s d n h o t rows) := by
  unfold State.readUpdate
  extract_lets +onlyGivenNames v1
  have hv1 : Keeps q v1 := by
    unfold v1
    with_reducible apply State.readSource_keeps
    assumption
  clear_value v1
  with_reducible refine Keeps.ite ?_ ?_
  · assumption
  · extract_lets +onlyGivenNames v2
    have hv2 : Keeps q v2 := by
      unfold v2
      with_reducible apply State.readRows_keeps
      assumption
    clear_value v2
    with_reducible refine Keeps.ite ?_ ?_
    · assumption
    · with_reducible apply State.readRows_keeps
      assumption

theorem State.workScatter_keeps {q s : State} (hq : Keeps q s) (n : Nat) (run : Run) (d : Cmd) (o : Obj) (t : TableDesc) (r : Resolution) (slots : List Nat) : Keeps q (State.workScatter s n run d o t r slots) := by
  unfold State.workScatter
  extract_lets +onlyGivenNames v1
  clear_value v1
  extract_lets +onlyGivenNames v2
  clear_value v2
  extract_lets +onlyGivenNames v3
  clear_value v3
  extract_lets +onlyGivenNames v4
  have hv4 : Keeps q v4.2 := by
    unfold v4
    split
    · assumption
    · with_reducible apply State.tblInject_keeps
      assumption
  clear_value v4
  extract_lets +onlyGivenNames v5
  have hv5 : Keeps q v5 := by
    unfold v5
    with_reducible apply State.countRows_keeps
    assumption
  clear_value v5
  with_reducible refine Keeps.ite ?_ ?_
  · with_reducible apply State.tblMismatch_keeps
    assumption
  · extract_lets +onlyGivenNames v6
    clear_value v6
    extract_lets +onlyGivenNames v7
    clear_value v7
    extract_lets +onlyGivenNames v8
    clear_value v8
    extract_lets +onlyGivenNames v9
    have hv9 : Keeps q v9 := by
      unfold v9
      with_reducible apply State.writeNewRows_keeps
      with_reducible apply State.readUpdate_keeps
      assumption
    clear_value v9
    with_reducible apply State.finishWork_keeps
    with_reducible apply State.prepare_keeps
    assumption

theorem State.runScatter_keeps {q s : State} (hq : Keeps q s) (n : Nat) : Keeps q (State.runScatter s n) := by
  unfold State.runScatter
  split
  · assumption
  · split
    · extract_lets +onlyGivenNames v1
      clear_value v1
      extract_lets +onlyGivenNames v2
      clear_value v2
      extract_lets +onlyGivenNames v3
      clear_value v3
      extract_lets +onlyGivenNames v4
      clear_value v4
      with_reducible refine Keeps.ite ?_ ?_
      · with_reducible apply State.fetchAll_keeps
        assumption
      · split
        · with_reducible apply State.stopFound_keeps
          assumption
        · with_reducible refine Keeps.ite ?_ ?_
          · with_reducible apply State.stopWith_keeps
            assumption
          · with_reducible apply State.workScatter_keeps
            assumption
    · assumption

theorem execScatterUpdate_keeps {q s : State} (hq : Keeps q s) (clu : Nat) : Runs q (execScatterUpdate clu s) := by
  unfold execScatterUpdate
  with_reducible apply Runs.done
  with_reducible apply State.runScatter_keeps
  assumption

theorem State.enterRows_keeps {q s : State} (hq : Keeps q s) (h : Nat) (chan : Nat) (rows : List (Nat × Nat)) : Keeps q (State.enterRows s h chan rows) := by
  unfold State.enterRows
  split
  · assumption
  · extract_lets +onlyGivenNames v1
    clear_value v1
    with_reducible apply State.setObj_keeps
    assumption

theorem State.issueFold_keeps {q s : State} (hq : Keeps q s) (h : Nat) (o : Obj) (t : TableDesc) (y : TableDyn) (es : List RemapEntry) : Keeps q (State.issueFold s h o t y es) := by
  unfold State.issueFold
  extract_lets +onlyGivenNames v1
  clear_value v1
  extract_lets +onlyGivenNames v2
  clear_value v2
  extract_lets +onlyGivenNames v3
  clear_value v3
  extract_lets +onlyGivenNames v4
  clear_value v4
  extract_lets +onlyGivenNames v5
  clear_value v5
  extract_lets +onlyGivenNames v6
  clear_value v6
  extract_lets +onlyGivenNames v7
  clear_value v7
  extract_lets +onlyGivenNames v8
  have hv8 : Keeps q v8 := by
    unfold v8
    with_reducible apply State.setObj_keeps
    assumption
  clear_value v8
  extract_lets +onlyGivenNames v9
  extract_lets +onlyGivenNames v10
  have hv10 : Keeps q v10 := by
    unfold v10
    with_reducible apply Keeps.upd
    · assumption
    · rfl
  clear_value v10
  with_reducible apply State.settleRes_keeps
  with_reducible apply State.fetchAll_keeps
  assumption

theorem execFold_keeps {q s : State} (hq : Keeps q s) (table : Nat) : Runs q (execFold table s) := by
  unfold execFold
  with_reducible apply Runs.done
  split
  · with_reducible refine Keeps.ite ?_ ?_
    · assumption
    · extract_lets +onlyGivenNames v1
      clear_value v1
      extract_lets +onlyGivenNames v2
      clear_value v2
      extract_lets +onlyGivenNames v3
      clear_value v3
      extract_lets +onlyGivenNames v4
      clear_value v4
      extract_lets +onlyGivenNames v5
      clear_value v5
      extract_lets +onlyGivenNames v6
      clear_value v6
      with_reducible refine Keeps.ite ?_ ?_
      · with_reducible apply State.setObj_keeps
        assumption
      · with_reducible apply State.issueFold_keeps
        assumption
  · assumption

theorem execFoldNow_keeps {q s : State} (hq : Keeps q s) (a : Acc) : Runs q (execFoldNow a s) := by
  unfold execFoldNow
  with_reducible apply Runs.done
  with_reducible refine Keeps.ite ?_ ?_
  · assumption
  · extract_lets +onlyGivenNames v1
    clear_value v1
    split
    · with_reducible apply State.setObj_keeps
      assumption
    · assumption

theorem State.shareBytes_keeps {q s : State} (hq : Keeps q s) (ws : List W32) : Keeps q (State.shareBytes s ws) := by
  unfold State.shareBytes
  extract_lets +onlyGivenNames v1
  clear_value v1
  with_reducible refine Keeps.foldl ?_ ?_
  · with_reducible apply State.setAcct_keeps
    assumption
  · intro x1 x2 x3
    with_reducible refine Keeps.foldl ?_ ?_
    · assumption
    · intro x4 x5 x6
      with_reducible apply State.chargeBytes_keeps
      assumption

theorem State.workFold_keeps {q s : State} (hq : Keeps q s) (n : Nat) (run : Run) (d : Cmd) (o : Obj) (t : TableDesc) (r : Resolution) : Keeps q (State.workFold s n run d o t r) := by
  unfold State.workFold
  extract_lets +onlyGivenNames v1
  clear_value v1
  extract_lets +onlyGivenNames v2
  clear_value v2
  extract_lets +onlyGivenNames v3
  clear_value v3
  extract_lets +onlyGivenNames v4
  have hv4 : Keeps q v4 := by
    unfold v4
    with_reducible apply State.readTiles_keeps
    with_reducible apply State.readRows_keeps
    with_reducible apply State.countRows_keeps
    assumption
  clear_value v4
  with_reducible apply State.shareBytes_keeps
  with_reducible apply State.finishWork_keeps
  with_reducible apply State.prepare_keeps
  assumption

theorem State.runFold_keeps {q s : State} (hq : Keeps q s) (n : Nat) : Keeps q (State.runFold s n) := by
  unfold State.runFold
  split
  · assumption
  · split
    · extract_lets +onlyGivenNames v1
      clear_value v1
      with_reducible refine Keeps.ite ?_ ?_
      · with_reducible apply State.fetchAll_keeps
        assumption
      · split
        · with_reducible apply State.stopFound_keeps
          assumption
        · with_reducible apply State.workFold_keeps
          assumption
    · assumption

theorem State.leaveRows_keeps {q s : State} (hq : Keeps q s) (h : Nat) (rows : List (Nat × Nat)) : Keeps q (State.leaveRows s h rows) := by
  unfold State.leaveRows
  split
  · assumption
  · extract_lets +onlyGivenNames v1
    clear_value v1
    with_reducible apply State.setObj_keeps
    assumption

theorem State.stopCmd_keeps {q s : State} (hq : Keeps q s) (d : Cmd) : Keeps q (State.stopCmd s d) := by
  unfold State.stopCmd
  extract_lets +onlyGivenNames v1
  have hv1 : Keeps q v1 := by
    unfold v1
    with_reducible refine Keeps.ite ?_ ?_
    · with_reducible apply State.discardPair_keeps
      assumption
    · split
      · split
        · with_reducible refine Keeps.ite ?_ ?_
          · with_reducible apply State.stopRun_keeps
            assumption
          · assumption
        · assumption
      · with_reducible apply State.unqueue_keeps
        assumption
      · assumption
  clear_value v1
  with_reducible apply State.endCmd_keeps
  assumption

theorem State.controlledStop_keeps {q s : State} (hq : Keeps q s) : Keeps q (State.controlledStop s) := by
  unfold State.controlledStop
  with_reducible refine Keeps.ite ?_ ?_
  · assumption
  · extract_lets +onlyGivenNames v1
    clear_value v1
    extract_lets +onlyGivenNames v2
    have hv2 : Keeps q v2 := by
      unfold v2
      with_reducible apply State.raise_keeps
      with_reducible apply Keeps.upd
      · assumption
      · rfl
    clear_value v2
    with_reducible apply State.tidy_keeps
    with_reducible refine Keeps.foldl ?_ ?_
    · assumption
    · intro x3 x4 x5
      split
      · with_reducible apply State.stopCmd_keeps
        assumption
      · assumption

end Sys2Proof.Machine
end

