-- ==== Sys2Proof/Laws/KeepsPlace.lean ====
section
/-! SUPPORT. `Keeps` for host memory, placement, clusters, commitment and scheduling. -/

namespace Sys2Proof.Machine
open Sys2Proof

theorem State.toCycle_keeps {q s : State} (hq : Keeps q s) (c : Nat) : Keeps q (State.toCycle s c) := by
  unfold State.toCycle
  with_reducible refine Keeps.ite ?_ ?_
  · with_reducible apply State.settleCommits_keeps
    with_reducible apply State.clockTo_keeps
    with_reducible apply State.endStep_keeps
    with_reducible apply State.closeFences_keeps
    assumption
  · assumption

theorem State.tickStage_keeps {q s : State} (hq : Keeps q s) (g : TickStage) : Keeps q (State.tickStage s g) := by
  unfold State.tickStage
  with_reducible apply Keeps.upd
  · assumption
  · rfl

theorem State.lastCommits_keeps {q s : State} (hq : Keeps q s) : Keeps q (State.lastCommits s) := by
  unfold State.lastCommits
  with_reducible refine Keeps.foldl ?_ ?_
  · assumption
  · intro x1 x2 x3
    with_reducible apply State.beginCommit_keeps
    assumption

theorem State.cutoffWork_keeps {q s : State} (hq : Keeps q s) : Keeps q (State.cutoffWork s) := by
  unfold State.cutoffWork
  extract_lets +onlyGivenNames v1
  have hv1 : Keeps q v1 := by
    unfold v1
    with_reducible apply State.lastCommits_keeps
    assumption
  clear_value v1
  with_reducible apply State.tickStage_keeps
  with_reducible refine Keeps.foldl ?_ ?_
  · assumption
  · intro x1 x2 x3
    with_reducible apply State.overrun_keeps
    assumption

theorem State.nextCycle_keeps {q s : State} (hq : Keeps q s) : Keeps q (State.nextCycle s) := by
  unfold State.nextCycle
  extract_lets +onlyGivenNames v1
  have hv1 : Keeps q v1 := by
    unfold v1
    with_reducible apply State.toCycle_keeps
    assumption
  clear_value v1
  with_reducible refine Keeps.ite ?_ ?_
  · with_reducible apply State.cutoffWork_keeps
    assumption
  · assumption

theorem State.memAnswer_keeps {q s : State} (hq : Keeps q s) (a : MemAcc) (bytes : List Byte) (poison : Bool) : Keeps q (State.memAnswer s a bytes poison) := by
  unfold State.memAnswer
  split
  · with_reducible apply State.emit_keeps
    assumption
  · with_reducible apply State.emit_keeps
    assumption

theorem State.badRead_keeps {q s : State} (hq : Keeps q s) (f : Nat) (c : PoisonCause) : Keeps q (State.badRead s f c) := by
  unfold State.badRead
  extract_lets +onlyGivenNames v1
  clear_value v1
  split
  · with_reducible apply State.settleResAll_keeps
    with_reducible apply State.tidy_keeps
    with_reducible apply State.poisonFrame_keeps
    assumption
  · with_reducible refine Keeps.ite ?_ ?_
    · assumption
    · with_reducible apply State.retireFrame_keeps
      assumption
  · with_reducible apply Keeps.upd
    · assumption
    · rfl

theorem State.rawAccess_keeps {q s : State} (hq : Keeps q s) (a : MemAcc) (bad : Option PoisonCause) : Keeps q (State.rawAccess s a bad) := by
  unfold State.rawAccess
  extract_lets +onlyGivenNames v1
  clear_value v1
  split
  · with_reducible apply State.memAnswer_keeps
    with_reducible refine Keeps.ite ?_ ?_
    · with_reducible apply State.raise_keeps
      assumption
    · with_reducible refine Keeps.ite ?_ ?_
      · with_reducible apply State.writeBytes_keeps
        with_reducible apply State.touch_keeps
        assumption
      · assumption
  · with_reducible refine Keeps.ite ?_ ?_
    · with_reducible apply State.memAnswer_keeps
      assumption
    · split
      · with_reducible apply State.memAnswer_keeps
        with_reducible apply State.badRead_keeps
        with_reducible apply State.touch_keeps
        assumption
      · with_reducible refine Keeps.ite ?_ ?_
        · with_reducible apply State.memAnswer_keeps
          with_reducible apply State.touch_keeps
          assumption
        · with_reducible apply State.memAnswer_keeps
          with_reducible apply State.touch_keeps
          assumption

theorem State.writeSide_keeps {q s : State} (hq : Keeps q s) (f : Nat) (x : Nat) (bs : List Byte) : Keeps q (State.writeSide s f x bs) := by
  unfold State.writeSide
  with_reducible refine Keeps.foldl ?_ ?_
  · assumption
  · intro x1 x2 x3
    with_reducible refine Keeps.ite ?_ ?_
    · with_reducible apply State.putByte_keeps
      assumption
    · assumption

theorem State.renew_keeps {q s : State} (hq : Keeps q s) (f : Nat) (o : Obj) (tile : Nat) : Keeps q (State.renew s f o tile) := by
  unfold State.renew
  with_reducible refine Keeps.ite ?_ ?_
  · with_reducible apply State.setFrame_keeps
    with_reducible apply State.writeFrame_keeps
    assumption
  · assumption

theorem State.dirtyMove_keeps {q s : State} (hq : Keeps q s) (h : Nat) (tile : Nat) : Keeps q (State.dirtyMove s h tile) := by
  unfold State.dirtyMove
  with_reducible apply Keeps.upd
  · assumption
  · rfl

theorem State.tileAccess_keeps {q s : State} (hq : Keeps q s) (a : MemAcc) (h : Nat) (tile : Nat) (x : Nat) (side : Bool) (o : Obj) (f : Nat) (bad : Option PoisonCause) : Keeps q (State.tileAccess s a h tile x side o f bad) := by
  unfold State.tileAccess
  extract_lets +onlyGivenNames v1
  have hv1 : Keeps q v1 := by
    unfold v1
    with_reducible apply State.touch_keeps
    assumption
  clear_value v1
  split
  · extract_lets +onlyGivenNames v2
    have hv2 : Keeps q v2 := by
      unfold v2
      with_reducible apply State.dirtyMove_keeps
      with_reducible apply State.renew_keeps
      assumption
    clear_value v2
    with_reducible apply State.memAnswer_keeps
    with_reducible refine Keeps.ite ?_ ?_
    · with_reducible apply State.writeSide_keeps
      assumption
    · with_reducible apply State.writeBytes_keeps
      assumption
  · split
    · with_reducible apply State.memAnswer_keeps
      with_reducible apply State.badRead_keeps
      assumption
    · with_reducible refine Keeps.ite ?_ ?_
      · with_reducible apply State.memAnswer_keeps
        assumption
      · with_reducible apply State.memAnswer_keeps
        assumption

theorem State.aptAccess_keeps {q s : State} (hq : Keeps q s) (a : MemAcc) (bad : Option PoisonCause) : KeepsO q (State.aptAccess s a bad) := by
  unfold State.aptAccess
  split
  · with_reducible apply KeepsO.some
    with_reducible apply State.memAnswer_keeps
    assumption
  · extract_lets +onlyGivenNames v1
    clear_value v1
    split
    · with_reducible apply KeepsO.some
      with_reducible apply State.memAnswer_keeps
      with_reducible apply State.raise_keeps
      assumption
    · extract_lets +onlyGivenNames v2
      clear_value v2
      extract_lets +onlyGivenNames v3
      clear_value v3
      split
      · with_reducible apply KeepsO.some
        with_reducible apply State.memAnswer_keeps
        with_reducible apply State.raise_keeps
        assumption
      · split
        · with_reducible apply KeepsO.some
          with_reducible apply State.memAnswer_keeps
          with_reducible apply State.raise_keeps
          assumption
        · split
          · with_reducible apply KeepsO.some
            with_reducible apply State.memAnswer_keeps
            assumption
          · split
            · with_reducible exact KeepsO.none
            · with_reducible apply KeepsO.some
              with_reducible apply State.tileAccess_keeps
              assumption

theorem State.waitRaw_keeps {q s : State} (hq : Keeps q s) (a : MemAcc) : Keeps q (State.waitRaw s a) := by
  unfold State.waitRaw
  with_reducible apply State.queueFills_keeps
  with_reducible apply Keeps.upd
  · assumption
  · rfl

theorem State.memAccess_keeps {q s : State} (hq : Keeps q s) (a : MemAcc) (bad : Option PoisonCause) : Keeps q (State.memAccess s a bad) := by
  unfold State.memAccess
  with_reducible refine Keeps.ite ?_ ?_
  · assumption
  · with_reducible refine Keeps.ite ?_ ?_
    · split
      · with_reducible refine KeepsO.use ?_ (by assumption)
        with_reducible apply State.aptAccess_keeps
        assumption
      · extract_lets +onlyGivenNames v1
        clear_value v1
        with_reducible apply State.wantFetch_keeps
        with_reducible apply Keeps.upd
        · assumption
        · rfl
    · with_reducible refine Keeps.ite ?_ ?_
      · with_reducible apply State.waitRaw_keeps
        assumption
      · with_reducible refine Keeps.ite ?_ ?_
        · with_reducible apply State.rawAccess_keeps
          assumption
        · with_reducible apply State.memAnswer_keeps
          split
          · with_reducible apply State.raise_keeps
            assumption
          · assumption

theorem State.settleMem_keeps {q s : State} (hq : Keeps q s) : Keeps q (State.settleMem s) := by
  unfold State.settleMem
  with_reducible refine Keeps.ite ?_ ?_
  · assumption
  · with_reducible refine Keeps.foldl ?_ ?_
    · with_reducible apply Keeps.upd
      · assumption
      · rfl
    · intro x1 x2 x3
      with_reducible apply State.memAccess_keeps
      assumption

theorem execMemRd_keeps {q s : State} (hq : Keeps q s) (dpa : Nat) (len : Nat) (bad : Option PoisonCause) : Runs q (execMemRd dpa len bad s) := by
  unfold execMemRd
  with_reducible apply Runs.done
  with_reducible apply State.memAccess_keeps
  assumption

theorem execMemWr_keeps {q s : State} (hq : Keeps q s) (dpa : Nat) (bytes : List Byte) : Runs q (execMemWr dpa bytes s) := by
  unfold execMemWr
  with_reducible apply Runs.done
  with_reducible apply State.memAccess_keeps
  assumption

theorem execMemInv_keeps {q s : State} (hq : Keeps q s) (dpa : Nat) : Runs q (execMemInv dpa s) := by
  unfold execMemInv
  with_reducible apply Runs.done
  with_reducible refine Keeps.ite ?_ ?_
  · with_reducible apply State.emit_keeps
    assumption
  · assumption

theorem execMemSpecRd_keeps {q s : State} (hq : Keeps q s) (_dpa : Nat) : Runs q (execMemSpecRd _dpa s) := by
  unfold execMemSpecRd
  with_reducible apply Runs.done
  assumption

theorem execSnoop_keeps {q s : State} (hq : Keeps q s) (_addr : Nat) : Runs q (execSnoop _addr s) := by
  unfold execSnoop
  with_reducible apply Runs.done
  with_reducible refine Keeps.ite ?_ ?_
  · with_reducible apply State.emit_keeps
    assumption
  · assumption

theorem execCxlAptValid_keeps {q s : State} (hq : Keeps q s) (a : Acc) (valid : Bool) : Runs q (execCxlAptValid a valid s) := by
  unfold execCxlAptValid
  with_reducible apply Runs.done
  with_reducible refine Keeps.ite ?_ ?_
  · assumption
  · extract_lets +onlyGivenNames v1
    clear_value v1
    with_reducible refine Keeps.ite ?_ ?_
    · with_reducible apply State.ignored_keeps
      assumption
    · with_reducible apply State.fldPut_keeps
      assumption

theorem State.landMove_keeps {q s : State} (hq : Keeps q s) (h : Nat) (tile : Nat) : Keeps q (State.landMove s h tile) := by
  unfold State.landMove
  with_reducible apply Keeps.upd
  · assumption
  · rfl

theorem State.poisonHome_keeps {q s : State} (hq : Keeps q s) (h : Nat) (tile : Nat) (p : PoisonCause) : Keeps q (State.poisonHome s h tile p) := by
  unfold State.poisonHome
  split
  · with_reducible refine Keeps.ite ?_ ?_
    · with_reducible apply State.poisonFrame_keeps
      assumption
    · assumption
  · assumption

theorem State.landCopy_keeps {q s : State} (hq : Keeps q s) (c : CellarOp) (bad : Option PoisonCause) : Keeps q (State.landCopy s c bad) := by
  unfold State.landCopy
  extract_lets +onlyGivenNames v1
  clear_value v1
  extract_lets +onlyGivenNames v2
  have hv2 : Keeps q v2 := by
    unfold v2
    with_reducible apply Keeps.upd
    · assumption
    · rfl
  clear_value v2
  extract_lets +onlyGivenNames v3
  have hv3 : Keeps q v3 := by
    unfold v3
    split
    · with_reducible apply State.poisonHome_keeps
      assumption
    · assumption
  clear_value v3
  with_reducible apply State.settleMem_keeps
  with_reducible apply State.settleResAll_keeps
  with_reducible apply State.tidy_keeps
  assumption

theorem State.landRaw_keeps {q s : State} (hq : Keeps q s) (c : CellarOp) (bad : Option PoisonCause) : Keeps q (State.landRaw s c bad) := by
  unfold State.landRaw
  extract_lets +onlyGivenNames v1
  clear_value v1
  extract_lets +onlyGivenNames v2
  have hv2 : Keeps q v2 := by
    unfold v2
    with_reducible apply Keeps.upd
    · assumption
    · rfl
  clear_value v2
  split
  · with_reducible apply State.tryWants_keeps
    assumption
  · extract_lets +onlyGivenNames v3
    clear_value v3
    extract_lets +onlyGivenNames v4
    have hv4 : Keeps q v4 := by
      unfold v4
      with_reducible apply Keeps.upd
      · assumption
      · rfl
    clear_value v4
    with_reducible apply State.tryWants_keeps
    with_reducible refine Keeps.ite ?_ ?_
    · with_reducible apply State.rawAccess_keeps
      assumption
    · assumption

theorem State.landRead_keeps {q s : State} (hq : Keeps q s) (c : CellarOp) (h : Nat) (tile : Nat) (bad : Option PoisonCause) : Keeps q (State.landRead s c h tile bad) := by
  unfold State.landRead
  split
  · with_reducible apply State.landCopy_keeps
    assumption
  · with_reducible refine Keeps.ite ?_ ?_
    · assumption
    · split
      · with_reducible apply State.settleMem_keeps
        with_reducible apply State.settleResAll_keeps
        with_reducible apply State.tidy_keeps
        with_reducible apply State.poisonFrame_keeps
        with_reducible apply State.dropCellar_keeps
        assumption
      · with_reducible apply State.tryWants_keeps
        with_reducible apply State.landMove_keeps
        with_reducible apply State.dropCellar_keeps
        assumption

theorem execCellarReadLand_keeps {q s : State} (hq : Keeps q s) (h : Nat) (tile : Nat) (bad : Option PoisonCause) : Runs q (execCellarReadLand h tile bad s) := by
  unfold execCellarReadLand
  with_reducible apply Runs.done
  split
  · with_reducible refine Keeps.ite ?_ ?_
    · assumption
    · with_reducible refine Keeps.ite ?_ ?_
      · with_reducible apply State.landRaw_keeps
        assumption
      · with_reducible apply State.landRead_keeps
        assumption
  · assumption

theorem execCellarProgramComplete_keeps {q s : State} (hq : Keeps q s) (h : Nat) (tile : Nat) : Runs q (execCellarProgramComplete h tile s) := by
  unfold execCellarProgramComplete
  with_reducible apply Runs.done
  split
  · with_reducible refine Keeps.ite ?_ ?_
    · assumption
    · with_reducible apply State.tryWants_keeps
      with_reducible apply State.landMove_keeps
      with_reducible apply Keeps.upd
      · assumption
      · rfl
  · assumption

theorem State.commitMove_keeps {q s : State} (hq : Keeps q s) (m : Move) : Keeps q (State.commitMove s m) := by
  unfold State.commitMove
  extract_lets +onlyGivenNames v1
  clear_value v1
  extract_lets +onlyGivenNames v2
  have hv2 : Keeps q v2 := by
    unfold v2
    with_reducible apply Keeps.upd
    · assumption
    · rfl
  clear_value v2
  extract_lets +onlyGivenNames v3
  have hv3 : Keeps q v3 := by
    unfold v3
    with_reducible apply State.touch_keeps
    with_reducible apply State.makeHome_keeps
    with_reducible apply State.dropMove_keeps
    with_reducible apply State.copyFrame_keeps
    with_reducible apply State.touch_keeps
    assumption
  clear_value v3
  with_reducible apply State.settleMem_keeps
  with_reducible apply State.settleResAll_keeps
  with_reducible apply State.tidy_keeps
  with_reducible apply State.chargeMove_keeps
  with_reducible apply State.leaveHome_keeps
  assumption

theorem execTileMoveCommit_keeps {q s : State} (hq : Keeps q s) (h : Nat) (tile : Nat) (bad : Option PoisonCause) : Runs q (execTileMoveCommit h tile bad s) := by
  unfold execTileMoveCommit
  with_reducible apply Runs.done
  split
  · assumption
  · with_reducible refine Keeps.ite ?_ ?_
    · assumption
    · extract_lets +onlyGivenNames v1
      clear_value v1
      split
      · with_reducible apply State.settleMem_keeps
        with_reducible apply State.settleResAll_keeps
        with_reducible apply State.tidy_keeps
        with_reducible apply State.poisonFrame_keeps
        assumption
      · with_reducible refine Keeps.ite ?_ ?_
        · with_reducible apply State.tidy_keeps
          with_reducible apply State.abandonMove_keeps
          assumption
        · with_reducible apply State.commitMove_keeps
          assumption

theorem State.background_keeps {q s : State} (hq : Keeps q s) (budget : Nat) (h : Nat) (tile : Nat) (fs : List Nat) : Keeps q (State.background s budget h tile fs).1 := by
  unfold State.background
  split
  · assumption
  · split
    · dsimp only
      with_reducible apply State.startMove_keeps
      assumption
    · assumption

theorem State.demoteOne_keeps {q s : State} (hq : Keeps q s) (budget : Nat) (tier : Nat) (r : FrameRec) : Keeps q (State.demoteOne s budget tier r).1 := by
  unfold State.demoteOne
  split
  · assumption
  · split
    · dsimp only
      with_reducible apply State.raise_keeps
      assumption
    · dsimp only
      with_reducible apply State.startMove_keeps
      assumption

theorem State.demoteList_keeps {q s : State} (hq : Keeps q s) (budget : Nat) (n : Nat) (tier : State → Nat)
    (l : List (Nat × Nat × FrameRec)) : Keeps q (State.demoteList s budget n tier l).1 := by
  induction l generalizing s budget n with
  | nil => exact hq
  | cons x t ih =>
    rw [State.demoteList]
    split
    · exact hq
    · exact ih (State.demoteOne_keeps hq _ _ _) _ _

theorem State.scan1_keeps {q s : State} (hq : Keeps q s) (budget : Nat) : Keeps q (State.scan1 s budget).1 := by
  unfold State.scan1
  split
  · with_reducible apply State.demoteList_keeps
    assumption
  · assumption

theorem State.scan2_keeps {q s : State} (hq : Keeps q s) (budget : Nat) : Keeps q (State.scan2 s budget).1 := by
  unfold State.scan2
  split
  · with_reducible apply State.demoteList_keeps
    assumption
  · assumption

theorem downFrom0_keeps {q : State} (y : State × Nat) (x : Nat × FrameRec) (hq : Keeps q y.1) : Keeps q (downFrom0 y x).1 := by
  unfold downFrom0
  with_reducible apply State.demoteOne_keeps
  assumption

theorem State.scan3_keeps {q s : State} (hq : Keeps q s) (budget : Nat) : Keeps q (State.scan3 s budget).1 := by
  unfold State.scan3
  with_reducible refine Keeps.foldlFst ?_ ?_
  · assumption
  · intro x1 x2 x3
    with_reducible apply downFrom0_keeps
    assumption

theorem toAttic_keeps {q : State} (y : State × Nat) (x : Nat × Nat × FrameRec) (hq : Keeps q y.1) : Keeps q (toAttic y x).1 := by
  unfold toAttic
  with_reducible apply State.background_keeps
  assumption

theorem State.scan4_keeps {q s : State} (hq : Keeps q s) (budget : Nat) : Keeps q (State.scan4 s budget).1 := by
  unfold State.scan4
  with_reducible refine Keeps.foldlFst ?_ ?_
  · assumption
  · intro x1 x2 x3
    with_reducible apply toAttic_keeps
    assumption

theorem toScratch_keeps {q : State} (y : State × Nat) (x : Nat × Nat × FrameRec) (hq : Keeps q y.1) : Keeps q (toScratch y x).1 := by
  unfold toScratch
  with_reducible apply State.background_keeps
  assumption

theorem State.scan5_keeps {q s : State} (hq : Keeps q s) (budget : Nat) : Keeps q (State.scan5 s budget).1 := by
  unfold State.scan5
  with_reducible refine Keeps.foldlFst ?_ ?_
  · assumption
  · intro x1 x2 x3
    with_reducible apply toScratch_keeps
    assumption

theorem toHint_keeps {q : State} (y : State × Nat) (x : Nat × FrameRec) (hq : Keeps q y.1) : Keeps q (toHint y x).1 := by
  unfold toHint
  with_reducible apply State.background_keeps
  assumption

theorem State.scanHint_keeps {q s : State} (hq : Keeps q s) (budget : Nat) : Keeps q (State.scanHint s budget).1 := by
  unfold State.scanHint
  with_reducible refine Keeps.foldlFst ?_ ?_
  · assumption
  · intro x1 x2 x3
    with_reducible apply toHint_keeps
    assumption

theorem State.decay_keeps {q s : State} (hq : Keeps q s) : Keeps q (State.decay s) := by
  refine ⟨hq.pending, fun c => ⟨(hq.canon c).mem, (hq.canon c).regs, (hq.canon c).chans, (hq.canon c).cqs, (hq.canon c).accts, (hq.canon c).clus, (hq.canon c).cnts, (hq.canon c).pslots, (hq.canon c).scales, ?_, (hq.canon c).streams, (hq.canon c).fences, (hq.canon c).objs⟩, hq.out, hq.free⟩
  refine Sparse.wfAbove_map (fun x => ?_) (fun x hx => ?_) (hq.canon c).frames
  · split <;> rfl
  · split
    · rename_i h
      intro e
      have e1 : x.2.state = FrameState.free := congrArg FrameRec.state e
      simp [e1] at h
    · exact hx

theorem State.dropCold_keeps {q s : State} (hq : Keeps q s) : Keeps q (State.dropCold s) := by
  unfold State.dropCold
  extract_lets +onlyGivenNames v1
  clear_value v1
  with_reducible apply Keeps.upd
  · assumption
  · rfl

theorem scanThen_keeps {q : State} (f : State → Nat → State × Nat) (y : State × Nat) (h : Keeps q y.1)
    (hf : ∀ s n, Keeps q s → Keeps q (f s n).1) : Keeps q (scanThen f y).1 := hf _ _ h

theorem scanLast_keeps {q : State} (y : State × Nat) (hq : Keeps q y.1) : Keeps q (scanLast y) := by
  unfold scanLast
  extract_lets +onlyGivenNames v1
  have hv1 : Keeps q v1.1 := by
    unfold v1
    with_reducible apply State.scanHint_keeps
    assumption
  clear_value v1
  extract_lets +onlyGivenNames v2
  have hv2 : Keeps q v2 := by
    unfold v2
    assumption
  clear_value v2
  with_reducible apply Keeps.upd
  · assumption
  · rfl

theorem State.scanMoves_keeps {q s : State} (hq : Keeps q s) : Keeps q (State.scanMoves s) := by
  unfold State.scanMoves
  refine scanLast_keeps _ (scanThen_keeps _ _ ?_ (fun _ n h => State.scan5_keeps h n))
  refine scanThen_keeps _ _ ?_ (fun _ n h => State.scan4_keeps h n)
  refine scanThen_keeps _ _ ?_ (fun _ n h => State.scan3_keeps h n)
  exact scanThen_keeps _ _ (State.scan1_keeps hq _) (fun _ n h => State.scan2_keeps h n)

theorem State.scanCounts_keeps {q s : State} (hq : Keeps q s) : Keeps q (State.scanCounts s) := by
  unfold State.scanCounts
  with_reducible refine Keeps.ite ?_ ?_
  · extract_lets +onlyGivenNames v1
    have hv1 : Keeps q v1 := by
      unfold v1
      with_reducible apply State.decay_keeps
      with_reducible apply State.dropCold_keeps
      assumption
    clear_value v1
    with_reducible apply Keeps.upd
    · assumption
    · rfl
  · with_reducible apply Keeps.upd
    · assumption
    · rfl

theorem execHeatScan_keeps {q s : State} (hq : Keeps q s) : Runs q (execHeatScan s) := by
  unfold execHeatScan
  with_reducible apply Runs.done
  with_reducible refine Keeps.ite ?_ ?_
  · assumption
  · extract_lets +onlyGivenNames v1
    have hv1 : Keeps q v1 := by
      unfold v1
      with_reducible apply State.scanCounts_keeps
      assumption
    clear_value v1
    with_reducible refine Keeps.ite ?_ ?_
    · with_reducible apply State.scanMoves_keeps
      assumption
    · assumption

theorem State.relocate_keeps {q s : State} (hq : Keeps q s) (f : Nat) (r : FrameRec) : Keeps q (State.relocate s f r) := by
  unfold State.relocate
  with_reducible refine Keeps.ite ?_ ?_
  · assumption
  · with_reducible apply Keeps.upd
    · assumption
    · rfl

theorem State.countCe_keeps {q s : State} (hq : Keeps q s) (tier : Nat) (n : Nat) : Keeps q (State.countCe s tier n) := by
  unfold State.countCe
  with_reducible apply Keeps.upd
  · assumption
  · rfl

theorem State.scrubCorrected_keeps {q s : State} (hq : Keeps q s) (f : Nat) (n : Nat) : Keeps q (State.scrubCorrected s f n) := by
  unfold State.scrubCorrected
  extract_lets +onlyGivenNames v1
  clear_value v1
  extract_lets +onlyGivenNames v2
  have hv2 : Keeps q v2 := by
    unfold v2
    with_reducible apply State.setFrame_keeps
    assumption
  clear_value v2
  with_reducible refine Keeps.ite ?_ ?_
  · assumption
  · split
    · with_reducible apply State.retireFrame_keeps
      assumption
    · with_reducible apply State.tryWants_keeps
      with_reducible apply State.relocate_keeps
      with_reducible apply State.setFrame_keeps
      assumption
    · with_reducible apply State.setFrame_keeps
      assumption

theorem State.countTries_keeps {q s : State} (hq : Keeps q s) (tier : Nat) (ts : List ReadTry) : Keeps q (State.countTries s tier ts) := by
  unfold State.countTries
  extract_lets +onlyGivenNames v1
  extract_lets +onlyGivenNames v2
  clear_value v2
  extract_lets +onlyGivenNames v3
  with_reducible apply State.countCe_keeps
  with_reducible refine Keeps.ite ?_ ?_
  · assumption
  · with_reducible apply State.countCe_keeps
    assumption

theorem execScrubRead_keeps {q s : State} (hq : Keeps q s) (frame : Nat) (errs : List WordErr) (again : List WordErr) : Runs q (execScrubRead frame errs again s) := by
  unfold execScrubRead
  with_reducible apply Runs.done
  with_reducible refine Keeps.ite ?_ ?_
  · assumption
  · extract_lets +onlyGivenNames v1
    clear_value v1
    extract_lets +onlyGivenNames v2
    clear_value v2
    extract_lets +onlyGivenNames v3
    have hv3 : Keeps q v3 := by
      unfold v3
      with_reducible apply State.countTries_keeps
      assumption
    clear_value v3
    extract_lets +onlyGivenNames v4
    have hv4 : Keeps q v4 := by
      unfold v4
      with_reducible refine Keeps.ite ?_ ?_
      · assumption
      · with_reducible apply State.scrubCorrected_keeps
        assumption
    clear_value v4
    split
    · with_reducible apply State.badRead_keeps
      assumption
    · assumption

theorem execAtticRefresh_keeps {q s : State} (hq : Keeps q s) (pc : Nat) : Runs q (execAtticRefresh pc s) := by
  unfold execAtticRefresh
  with_reducible apply Runs.done
  with_reducible refine Keeps.ite ?_ ?_
  · assumption
  · with_reducible apply State.setStack_keeps
    with_reducible apply State.setTarget_keeps
    assumption

theorem State.stackSteps_keeps {q s : State} (hq : Keeps q s) (k : Nat) (r : StackRec) (new : Bool) : Keeps q (State.stackSteps s k r new) := by
  unfold State.stackSteps
  extract_lets +onlyGivenNames v1
  clear_value v1
  extract_lets +onlyGivenNames v2
  clear_value v2
  extract_lets +onlyGivenNames v3
  clear_value v3
  extract_lets +onlyGivenNames v4
  clear_value v4
  extract_lets +onlyGivenNames v5
  have hv5 : Keeps q v5 := by
    unfold v5
    with_reducible apply State.setStack_keeps
    assumption
  clear_value v5
  extract_lets +onlyGivenNames v6
  have hv6 : Keeps q v6 := by
    unfold v6
    with_reducible refine Keeps.ite ?_ ?_
    · with_reducible apply State.raise_keeps
      assumption
    · assumption
  clear_value v6
  extract_lets +onlyGivenNames v7
  have hv7 : Keeps q v7 := by
    unfold v7
    with_reducible refine Keeps.ite ?_ ?_
    · with_reducible apply State.raise_keeps
      assumption
    · assumption
  clear_value v7
  extract_lets +onlyGivenNames v8
  have hv8 : Keeps q v8 := by
    unfold v8
    with_reducible refine Keeps.ite ?_ ?_
    · with_reducible apply State.raiseEvent_keeps
      assumption
    · assumption
  clear_value v8
  with_reducible refine Keeps.ite ?_ ?_
  · with_reducible apply State.controlledStop_keeps
    assumption
  · assumption

theorem execStackTempReport_keeps {q s : State} (hq : Keeps q s) (stack : Nat) (quarters : Int) : Runs q (execStackTempReport stack quarters s) := by
  unfold execStackTempReport
  with_reducible apply Runs.done
  with_reducible refine Keeps.ite ?_ ?_
  · assumption
  · with_reducible refine Keeps.ite ?_ ?_
    · with_reducible apply State.raise_keeps
      assumption
    · extract_lets +onlyGivenNames v1
      clear_value v1
      with_reducible apply State.stackSteps_keeps
      assumption

theorem execStackTempTimeout_keeps {q s : State} (hq : Keeps q s) (stack : Nat) : Runs q (execStackTempTimeout stack s) := by
  unfold execStackTempTimeout
  with_reducible apply Runs.done
  with_reducible refine Keeps.ite ?_ ?_
  · assumption
  · with_reducible apply State.stackSteps_keeps
    assumption

theorem State.failIf_keeps {q s : State} (hq : Keeps q s) (p : Nat → Bool) : Keeps q (State.failIf s p) := by
  unfold State.failIf
  with_reducible refine Keeps.ite ?_ ?_
  · with_reducible apply State.raise_keeps
    assumption
  · assumption

theorem State.evacuate_keeps {q s : State} (hq : Keeps q s) (t : Nat) : Keeps q (State.evacuate s t) := by
  unfold State.evacuate
  extract_lets +onlyGivenNames v1
  clear_value v1
  extract_lets +onlyGivenNames v2
  have hv2 : Keeps q v2 := by
    unfold v2
    with_reducible refine Keeps.foldl ?_ ?_
    · assumption
    · intro x1 x2 x3
      with_reducible apply State.relocate_keeps
      assumption
  clear_value v2
  with_reducible apply State.failIf_keeps
  with_reducible apply State.tryWants_keeps
  assumption

theorem State.syncTargets_keeps {q s : State} (hq : Keeps q s) : Keeps q (State.syncTargets s) := by
  unfold State.syncTargets
  extract_lets +onlyGivenNames v1
  clear_value v1
  with_reducible refine Keeps.foldl ?_ ?_
  · assumption
  · intro x2 x3 x4
    extract_lets +onlyGivenNames v5
    clear_value v5
    extract_lets +onlyGivenNames v6
    clear_value v6
    extract_lets +onlyGivenNames v7
    have hv7 : Keeps q v7 := by
      unfold v7
      with_reducible apply State.setTarget_keeps
      assumption
    clear_value v7
    with_reducible refine Keeps.ite ?_ ?_
    · assumption
    · with_reducible apply State.evacuate_keeps
      assumption

theorem execMemTgtServe_keeps {q s : State} (hq : Keeps q s) (a : Acc) (serve : Bool) : Runs q (execMemTgtServe a serve s) := by
  unfold execMemTgtServe
  with_reducible apply Runs.done
  with_reducible refine Keeps.ite ?_ ?_
  · assumption
  · extract_lets +onlyGivenNames v1
    clear_value v1
    with_reducible apply Keeps.updReg
    · assumption
    · rfl
    · rfl

theorem State.startMargin_keeps {q s : State} (hq : Keeps q s) (a : Acc) : Keeps q (State.startMargin s a) := by
  unfold State.startMargin
  extract_lets +onlyGivenNames v1
  clear_value v1
  with_reducible refine Keeps.ite ?_ ?_
  · with_reducible apply State.ignored_keeps
    assumption
  · with_reducible apply State.setTarget_keeps
    assumption

theorem execMarginStart_keeps {q s : State} (hq : Keeps q s) (a : Acc) : Runs q (execMarginStart a s) := by
  unfold execMarginStart
  with_reducible apply Runs.done
  with_reducible refine Keeps.ite ?_ ?_
  · assumption
  · with_reducible apply State.startMargin_keeps
    assumption

theorem execMarginDone_keeps {q s : State} (hq : Keeps q s) (errors : Nat) : Runs q (execMarginDone errors s) := by
  unfold execMarginDone
  with_reducible apply Runs.done
  split
  · assumption
  · with_reducible refine Keeps.ite ?_ ?_
    · assumption
    · with_reducible apply State.setTarget_keeps
      assumption

theorem State.setSlotState_keeps {q s : State} (hq : Keeps q s) (p : Nat) (st : SlotState) : Keeps q (State.setSlotState s p st) := by
  unfold State.setSlotState
  with_reducible apply State.setPslot_keeps
  assumption

theorem State.leaveServing_keeps {q s : State} (hq : Keeps q s) (n : Nat) : Keeps q (State.leaveServing s n) := by
  unfold State.leaveServing
  with_reducible apply State.faultClu_keeps
  with_reducible apply State.deferAll_keeps
  assumption

theorem State.moveDown_keeps {q s : State} (hq : Keeps q s) (n : Nat) : Keeps q (State.moveDown s n) := by
  unfold State.moveDown
  extract_lets +onlyGivenNames v1
  clear_value v1
  extract_lets +onlyGivenNames v2
  clear_value v2
  with_reducible apply State.failIf_keeps
  with_reducible apply State.tryWants_keeps
  with_reducible refine Keeps.foldl ?_ ?_
  · assumption
  · intro x1 x2 x3
    with_reducible refine Keeps.ite ?_ ?_
    · assumption
    · with_reducible apply Keeps.upd
      · assumption
      · rfl

theorem State.queueTest_keeps {q s : State} (hq : Keeps q s) (t : Test) : Keeps q (State.queueTest s t) := by
  unfold State.queueTest
  extract_lets +onlyGivenNames v1
  clear_value v1
  extract_lets +onlyGivenNames v2
  clear_value v2
  with_reducible apply Keeps.upd
  · assumption
  · rfl

theorem State.enterResidency_keeps {q s : State} (hq : Keeps q s) (t : Test) : Keeps q (State.enterResidency s t) := by
  unfold State.enterResidency
  extract_lets +onlyGivenNames v1
  clear_value v1
  extract_lets +onlyGivenNames v2
  have hv2 : Keeps q v2 := by
    unfold v2
    with_reducible apply Keeps.upd
    · assumption
    · rfl
  clear_value v2
  split
  · assumption
  · extract_lets +onlyGivenNames v3
    have hv3 : Keeps q v3 := by
      unfold v3
      with_reducible refine Keeps.ite ?_ ?_
      · with_reducible apply State.leaveServing_keeps
        with_reducible apply State.setSlotState_keeps
        assumption
      · assumption
    clear_value v3
    with_reducible apply State.moveDown_keeps
    assumption

theorem State.makeSuspect_keeps {q s : State} (hq : Keeps q s) (p : Nat) : Keeps q (State.makeSuspect s p) := by
  unfold State.makeSuspect
  with_reducible refine Keeps.ite ?_ ?_
  · assumption
  · extract_lets +onlyGivenNames v1
    clear_value v1
    extract_lets +onlyGivenNames v2
    have hv2 : Keeps q v2 := by
      unfold v2
      with_reducible apply State.leaveServing_keeps
      with_reducible apply State.setSlotState_keeps
      assumption
    clear_value v2
    extract_lets +onlyGivenNames v3
    clear_value v3
    extract_lets +onlyGivenNames v4
    have hv4 : Keeps q v4 := by
      unfold v4
      with_reducible apply Keeps.upd
      · assumption
      · rfl
    clear_value v4
    extract_lets +onlyGivenNames v5
    have hv5 : Keeps q v5 := by
      unfold v5
      with_reducible apply State.raise_keeps
      with_reducible apply State.faultLog_keeps
      assumption
    clear_value v5
    extract_lets +onlyGivenNames v6
    clear_value v6
    with_reducible refine Keeps.ite ?_ ?_
    · with_reducible apply State.enterResidency_keeps
      assumption
    · with_reducible apply State.queueTest_keeps
      assumption

theorem State.makeRetired_keeps {q s : State} (hq : Keeps q s) (p : Nat) : Keeps q (State.makeRetired s p) := by
  unfold State.makeRetired
  extract_lets +onlyGivenNames v1
  clear_value v1
  extract_lets +onlyGivenNames v2
  clear_value v2
  extract_lets +onlyGivenNames v3
  have hv3 : Keeps q v3 := by
    unfold v3
    with_reducible apply State.setSlotState_keeps
    assumption
  clear_value v3
  extract_lets +onlyGivenNames v4
  have hv4 : Keeps q v4 := by
    unfold v4
    with_reducible refine Keeps.ite ?_ ?_
    · with_reducible apply State.leaveServing_keeps
      assumption
    · assumption
  clear_value v4
  extract_lets +onlyGivenNames v5
  clear_value v5
  extract_lets +onlyGivenNames v6
  have hv6 : Keeps q v6 := by
    unfold v6
    with_reducible apply Keeps.upd
    · assumption
    · rfl
  clear_value v6
  with_reducible apply State.moveDown_keeps
  with_reducible apply State.raise_keeps
  with_reducible apply State.faultLog_keeps
  assumption

theorem State.addFault_keeps {q s : State} (hq : Keeps q s) (p : Nat) : Keeps q (State.addFault s p) := by
  unfold State.addFault
  extract_lets +onlyGivenNames v1
  clear_value v1
  extract_lets +onlyGivenNames v2
  have hv2 : Keeps q v2 := by
    unfold v2
    with_reducible apply State.setPslot_keeps
    assumption
  clear_value v2
  with_reducible refine Keeps.ite ?_ ?_
  · with_reducible apply State.makeSuspect_keeps
    assumption
  · assumption

theorem execFaultCountAge_keeps {q s : State} (hq : Keeps q s) (slot : Nat) : Runs q (execFaultCountAge slot s) := by
  unfold execFaultCountAge
  with_reducible apply Runs.done
  with_reducible refine Keeps.ite ?_ ?_
  · assumption
  · with_reducible apply State.setPslot_keeps
    assumption

theorem execStreamTransferIssue_keeps {q s : State} (hq : Keeps q s) (clu : Nat) : Runs q (execStreamTransferIssue clu s) := by
  unfold execStreamTransferIssue
  with_reducible apply Runs.done
  with_reducible refine Keeps.ite ?_ ?_
  · with_reducible apply State.streamIssue_keeps
    assumption
  · with_reducible refine Keeps.ite ?_ ?_
    · with_reducible apply State.streamIssue_keeps
      with_reducible apply State.nextCycle_keeps
      assumption
    · assumption

theorem State.prodFail_keeps {q s : State} (hq : Keeps q s) (x : Xfer) (num : Nat) : Keeps q (State.prodFail s x num) := by
  unfold State.prodFail
  extract_lets +onlyGivenNames v1
  clear_value v1
  split
  · with_reducible apply State.dropXfer_keeps
    assumption
  · with_reducible refine Keeps.ite ?_ ?_
    · with_reducible apply State.makeSuspect_keeps
      with_reducible apply State.dropXfer_keeps
      assumption
    · extract_lets +onlyGivenNames v2
      have hv2 : Keeps q v2 := by
        unfold v2
        with_reducible apply State.setStream_keeps
        assumption
      clear_value v2
      with_reducible apply State.dropXfer_keeps
      with_reducible apply Keeps.upd
      · assumption
      · rfl

theorem execStreamTransferComplete_keeps {q s : State} (hq : Keeps q s) (clu : Nat) (bad : Option PoisonCause) (prod : Bool) : Runs q (execStreamTransferComplete clu bad prod s) := by
  unfold execStreamTransferComplete
  with_reducible apply Runs.done
  with_reducible refine Keeps.ite ?_ ?_
  · assumption
  · split
    · assumption
    · split
      · with_reducible apply State.tidy_keeps
        with_reducible apply State.dropXfer_keeps
        assumption
      · with_reducible refine Keeps.ite ?_ ?_
        · with_reducible refine Keeps.ite ?_ ?_
          · with_reducible apply State.prodFail_keeps
            assumption
          · with_reducible apply State.readXfer_keeps
            assumption
        · split
          · with_reducible apply State.dropXfer_keeps
            with_reducible apply State.faultStream_keeps
            assumption
          · with_reducible refine Keeps.ite ?_ ?_
            · assumption
            · with_reducible refine Keeps.ite ?_ ?_
              · with_reducible apply State.prodFail_keeps
                assumption
              · with_reducible apply State.readXfer_keeps
                assumption

theorem State.sendRemote_keeps {q s : State} (hq : Keeps q s) (d : Cmd) (x : Nat × Nat × List Byte) : Keeps q (State.sendRemote s d x) := by
  unfold State.sendRemote
  with_reducible refine Keeps.ite ?_ ?_
  · assumption
  · extract_lets +onlyGivenNames v1
    have hv1 : Keeps q v1.1 := by
      unfold v1
      with_reducible apply State.sendMsg_keeps
      assumption
    clear_value v1
    extract_lets +onlyGivenNames v2
    have hv2 : Keeps q v2 := by
      unfold v2
      with_reducible apply State.chargeBytes_keeps
      assumption
    clear_value v2
    with_reducible refine Keeps.ite ?_ ?_
    · with_reducible apply Keeps.upd
      · assumption
      · rfl
    · assumption

theorem State.setPreds_keeps {q s : State} (hq : Keeps q s) (d : Cmd) (ps : List (Nat × Bool)) : Keeps q (State.setPreds s d ps) := by
  unfold State.setPreds
  split
  · assumption
  · split
    · assumption
    · with_reducible apply State.setLaunch_keeps
      assumption

theorem State.commitWork_keeps {q s : State} (hq : Keeps q s) (d : Cmd) (w : RunWork) : Keeps q (State.commitWork s d w).1 := by
  unfold State.commitWork
  extract_lets +onlyGivenNames v1
  have hv1 : Keeps q v1 := by
    unfold v1
    with_reducible apply State.setPreds_keeps
    with_reducible apply State.flipAll_keeps
    assumption
  clear_value v1
  extract_lets +onlyGivenNames v2
  have hv2 : Keeps q v2 := by
    unfold v2
    with_reducible refine Keeps.foldl ?_ ?_
    · assumption
    · intro x3 x4 x5
      with_reducible apply State.mergeAmax_keeps
      assumption
  clear_value v2
  extract_lets +onlyGivenNames v6
  clear_value v6
  extract_lets +onlyGivenNames v7
  have hv7 : Keeps q v7 := by
    unfold v7
    with_reducible refine Keeps.ite ?_ ?_
    · with_reducible apply State.enterRows_keeps
      assumption
    · with_reducible refine Keeps.ite ?_ ?_
      · with_reducible apply State.leaveRows_keeps
        assumption
      · assumption
  clear_value v7
  split
  · with_reducible apply State.streamFlip_keeps
    assumption
  · assumption

theorem State.afterFlip_keeps {q s : State} (hq : Keeps q s) (d : Cmd) (w : RunWork) (st : Nat × Nat × Nat) : Keeps q (State.afterFlip s d w st) := by
  unfold State.afterFlip
  extract_lets +onlyGivenNames v1
  have hv1 : Keeps q v1 := by
    unfold v1
    with_reducible apply State.egress_keeps
    · assumption
    · with_reducible refine Keeps.foldl ?_ ?_
      · assumption
      · intro x1 x2 x3
        with_reducible apply State.sendRemote_keeps
        assumption
  clear_value v1
  split
  · with_reducible apply State.settleMem_keeps
    with_reducible apply State.tidy_keeps
    with_reducible apply State.settleAcks_keeps
    with_reducible apply State.setCmd_keeps
    assumption
  · with_reducible refine Keeps.ite ?_ ?_
    · with_reducible apply State.settleMem_keeps
      with_reducible apply State.tidy_keeps
      with_reducible apply State.setCmd_keeps
      assumption
    · with_reducible apply State.settleMem_keeps
      with_reducible apply State.tidy_keeps
      with_reducible apply State.endCmd_keeps
      assumption

theorem State.flip_keeps {q s : State} (hq : Keeps q s) (n : Nat) : Keeps q (State.flip s n) := by
  unfold State.flip
  split
  · assumption
  · extract_lets +onlyGivenNames v1
    clear_value v1
    split
    · with_reducible apply State.setCmd_keeps
      with_reducible apply State.leaveRun_keeps
      assumption
    · extract_lets +onlyGivenNames v2
      have hv2 : Keeps q v2.1 := by
        unfold v2
        with_reducible apply State.commitWork_keeps
        assumption
      clear_value v2
      extract_lets +onlyGivenNames v3
      have hv3 : Keeps q v3 := by
        unfold v3
        with_reducible apply State.noteClu_keeps
        with_reducible apply State.leaveRun_keeps
        assumption
      clear_value v3
      with_reducible apply State.afterFlip_keeps
      assumption

theorem execCommandFlip_keeps {q s : State} (hq : Keeps q s) (clu : Nat) : Runs q (execCommandFlip clu s) := by
  unfold execCommandFlip
  with_reducible apply Runs.done
  with_reducible refine Keeps.ite ?_ ?_
  · assumption
  · with_reducible apply State.flip_keeps
    with_reducible apply State.runFold_keeps
    assumption

theorem State.poisonRead_keeps {q s : State} (hq : Keeps q s) (d : Cmd) (x : Nat × Nat) (c : PoisonCause) : Keeps q (State.poisonRead s d x c) := by
  unfold State.poisonRead
  split
  · with_reducible refine Keeps.ite ?_ ?_
    · with_reducible apply State.poisonFrame_keeps
      assumption
    · assumption
  · assumption

theorem State.observe_keeps {q s : State} (hq : Keeps q s) (n : Nat) (d : Cmd) (x : RunFault) : Keeps q (State.observe s n d x) := by
  unfold State.observe
  split
  · with_reducible apply State.poisonRead_keeps
    assumption
  · split
    · assumption
    · with_reducible refine Keeps.ite ?_ ?_
      · assumption
      · extract_lets +onlyGivenNames v1
        have hv1 : Keeps q v1 := by
          unfold v1
          with_reducible apply State.raise_keeps
          assumption
        clear_value v1
        with_reducible refine Keeps.ite ?_ ?_
        · with_reducible apply State.poisonRead_keeps
          assumption
        · with_reducible apply State.setCnt_keeps
          assumption
  · assumption

theorem execRunFindsCondition_keeps {q s : State} (hq : Keeps q s) (clu : Nat) (found : Option RunFault) : Runs q (execRunFindsCondition clu found s) := by
  unfold execRunFindsCondition
  with_reducible apply Runs.done
  split
  · assumption
  · with_reducible refine Keeps.ite ?_ ?_
    · assumption
    · split
      · with_reducible refine Keeps.ite ?_ ?_
        · with_reducible apply State.tblMismatch_keeps
          assumption
        · assumption
      · with_reducible refine Keeps.ite ?_ ?_
        · assumption
        · with_reducible apply State.trigger_keeps
          assumption
      · with_reducible refine Keeps.ite ?_ ?_
        · assumption
        · extract_lets +onlyGivenNames v1
          have hv1 : Keeps q v1 := by
            unfold v1
            split
            · with_reducible apply State.observe_keeps
              assumption
            · assumption
          clear_value v1
          split
          · with_reducible apply State.stopFound_keeps
            assumption
          · assumption

theorem State.dropHeld_keeps {q s : State} (hq : Keeps q s) (r : Option PairRun) : Keeps q (State.dropHeld s r) := by
  unfold State.dropHeld
  split
  · split
    · with_reducible apply State.freeShadows_keeps
      assumption
    · assumption
  · assumption

theorem State.endView_keeps {q s : State} (hq : Keeps q s) (d : Cmd) (m : RepeatPair) : Keeps q (State.endView s d m) := by
  unfold State.endView
  with_reducible apply State.releaseReads_keeps
  with_reducible apply State.setCmd_keeps
  assumption

theorem State.mismatch_keeps {q s : State} (hq : Keeps q s) (d : Cmd) (m : RepeatPair) : Keeps q (State.mismatch s d m) := by
  unfold State.mismatch
  extract_lets +onlyGivenNames v1
  have hv1 : Keeps q v1 := by
    unfold v1
    with_reducible apply State.noteClu_keeps
    with_reducible apply State.endView_keeps
    with_reducible apply State.dropHeld_keeps
    with_reducible apply State.dropHeld_keeps
    assumption
  clear_value v1
  with_reducible apply State.tidy_keeps
  with_reducible apply State.endCmd_keeps
  assumption

theorem State.transient_keeps {q s : State} (hq : Keeps q s) (d : Cmd) (m : RepeatPair) (p : PairRun) (other : Option PairRun) : Keeps q (State.transient s d m p other) := by
  unfold State.transient
  extract_lets +onlyGivenNames v1
  clear_value v1
  split
  · assumption
  · extract_lets +onlyGivenNames v2
    have hv2 : Keeps q v2 := by
      unfold v2
      with_reducible apply State.dropHeld_keeps
      assumption
    clear_value v2
    extract_lets +onlyGivenNames v3
    have hv3 : Keeps q v3.1 := by
      unfold v3
      with_reducible apply State.commitWork_keeps
      assumption
    clear_value v3
    extract_lets +onlyGivenNames v4
    have hv4 : Keeps q v4 := by
      unfold v4
      with_reducible apply State.noteClu_keeps
      with_reducible apply State.endView_keeps
      assumption
    clear_value v4
    extract_lets +onlyGivenNames v5
    clear_value v5
    extract_lets +onlyGivenNames v6
    have hv6 : Keeps q v6 := by
      unfold v6
      with_reducible apply Keeps.upd
      · assumption
      · rfl
    clear_value v6
    extract_lets +onlyGivenNames v7
    have hv7 : Keeps q v7 := by
      unfold v7
      with_reducible apply State.addFault_keeps
      with_reducible apply State.raise_keeps
      with_reducible apply State.faultLog_keeps
      assumption
    clear_value v7
    with_reducible apply State.afterFlip_keeps
    assumption

theorem State.comparePair_keeps {q s : State} (hq : Keeps q s) (d : Cmd) (m : RepeatPair) : Keeps q (State.comparePair s d m) := by
  unfold State.comparePair
  extract_lets +onlyGivenNames v1
  clear_value v1
  extract_lets +onlyGivenNames v2
  clear_value v2
  extract_lets +onlyGivenNames v3
  clear_value v3
  extract_lets +onlyGivenNames v4
  with_reducible refine Keeps.ite ?_ ?_
  · extract_lets +onlyGivenNames v5
    clear_value v5
    split
    · assumption
    · with_reducible refine Keeps.ite ?_ ?_
      · with_reducible apply State.tidy_keeps
        with_reducible apply State.endCmd_keeps
        with_reducible apply State.noteClu_keeps
        with_reducible apply State.endView_keeps
        with_reducible apply State.dropHeld_keeps
        with_reducible apply State.dropHeld_keeps
        assumption
      · with_reducible apply State.transient_keeps
        assumption
  · with_reducible refine Keeps.ite ?_ ?_
    · unfold v4
      split
      · with_reducible apply State.addFault_keeps
        with_reducible apply State.makeSuspect_keeps
        with_reducible apply State.mismatch_keeps
        assumption
      · with_reducible apply State.makeSuspect_keeps
        with_reducible apply State.mismatch_keeps
        assumption
    · with_reducible refine Keeps.ite ?_ ?_
      · unfold v4
        split
        · with_reducible apply State.addFault_keeps
          split
          · with_reducible apply State.addFault_keeps
            with_reducible apply State.mismatch_keeps
            assumption
          · with_reducible apply State.mismatch_keeps
            assumption
        · split
          · with_reducible apply State.addFault_keeps
            with_reducible apply State.mismatch_keeps
            assumption
          · with_reducible apply State.mismatch_keeps
            assumption
      · with_reducible apply State.makeSuspect_keeps
        with_reducible apply State.mismatch_keeps
        assumption

theorem execRepeatPairCompare_keeps {q s : State} (hq : Keeps q s) (cmd : Nat) : Runs q (execRepeatPairCompare cmd s) := by
  unfold execRepeatPairCompare
  with_reducible apply Runs.done
  split
  · assumption
  · split
    · assumption
    · with_reducible refine Keeps.ite ?_ ?_
      · with_reducible apply State.comparePair_keeps
        assumption
      · assumption

theorem State.enqueue_keeps {q s : State} (hq : Keeps q s) (n : Nat) (d : Cmd) (charge : Nat) (dem : List (Nat × Nat)) : Keeps q (State.enqueue s n d charge dem) := by
  unfold State.enqueue
  extract_lets +onlyGivenNames v1
  clear_value v1
  extract_lets +onlyGivenNames v2
  have hv2 : Keeps q v2 := by
    unfold v2
    with_reducible apply State.setClu_keeps
    assumption
  clear_value v2
  with_reducible apply Keeps.upd
  · assumption
  · rfl

theorem State.noteHomes_keeps {q s : State} (hq : Keeps q s) (d : Cmd) : Keeps q (State.noteHomes s d) := by
  unfold State.noteHomes
  extract_lets +onlyGivenNames v1
  clear_value v1
  with_reducible apply State.setExtra_keeps
  assumption

theorem State.admitOne_keeps {q s : State} (hq : Keeps q s) (n : Nat) (d : Cmd) (dem : List (Nat × Nat)) : Keeps q (State.admitOne s n d dem) := by
  unfold State.admitOne
  with_reducible apply State.issue_keeps
  with_reducible apply State.enqueue_keeps
  with_reducible apply State.noteHomes_keeps
  assumption

theorem State.admitPair_keeps {q s : State} (hq : Keeps q s) (m : RepeatPair) (x : Option Nat) (y : Option Nat) (d : Cmd) (dem : List (Nat × Nat)) : Keeps q (State.admitPair s m x y d dem) := by
  unfold State.admitPair
  extract_lets +onlyGivenNames v1
  have hv1 : Keeps q v1 := by
    unfold v1
    with_reducible apply State.noteHomes_keeps
    assumption
  clear_value v1
  extract_lets +onlyGivenNames v2
  have hv2 : Keeps q v2 := by
    unfold v2
    split
    · with_reducible apply State.enqueue_keeps
      assumption
    · assumption
  clear_value v2
  extract_lets +onlyGivenNames v3
  have hv3 : Keeps q v3 := by
    unfold v3
    split
    · with_reducible apply State.enqueue_keeps
      assumption
    · assumption
  clear_value v3
  extract_lets +onlyGivenNames v4
  clear_value v4
  with_reducible apply State.issue_keeps
  assumption

theorem State.deferAbove_keeps {q s : State} (hq : Keeps q s) (n : Nat) (c : Nat) : Keeps q (State.deferAbove s n c) := by
  unfold State.deferAbove
  with_reducible refine Keeps.foldl ?_ ?_
  · assumption
  · intro x1 x2 x3
    split
    · with_reducible refine Keeps.ite ?_ ?_
      · with_reducible apply State.defer_keeps
        assumption
      · assumption
    · assumption

theorem State.timePreempt_keeps {q s : State} (hq : Keeps q s) (cs : List Nat) (d : Cmd) : KeepsO q (State.timePreempt s cs d) := by
  unfold State.timePreempt
  split
  · with_reducible exact KeepsO.none
  · split
    · with_reducible apply KeepsO.some
      with_reducible apply State.raise_keeps
      with_reducible apply State.deferAbove_keeps
      assumption
    · split
      · with_reducible exact KeepsO.none
      · extract_lets +onlyGivenNames v1
        clear_value v1
        with_reducible apply KeepsO.some
        with_reducible apply State.raise_keeps
        with_reducible apply State.preempt_keeps
        with_reducible apply State.deferAbove_keeps
        assumption

theorem State.spaceDefer_keeps {q s : State} (hq : Keeps q s) (m : Nat) (c : Nat) (k : Nat) (l : List Resv) :
    Keeps q (State.spaceDefer s m c k l) := by
  induction l generalizing s with
  | nil => exact hq
  | cons r t ih =>
    rw [State.spaceDefer]
    refine Keeps.ite hq ?_
    split
    · exact ih (Keeps.ite (State.defer_keeps hq _ _) hq)
    · exact ih hq

theorem State.spaceKill_keeps {q s : State} (hq : Keeps q s) (m : Nat) (c : Nat) (k : Nat) (l : List Nat) :
    Keeps q (State.spaceKill s m c k l) := by
  induction l generalizing s with
  | nil => exact hq
  | cons n t ih =>
    rw [State.spaceKill]
    exact Keeps.ite hq (ih (State.preempt_keeps hq _ _))

theorem State.spaceDemote_keeps {q s : State} (hq : Keeps q s) (m : Nat) (c : Nat) (k : Nat) : KeepsO q (State.spaceDemote s m c k) := by
  unfold State.spaceDemote
  split
  · with_reducible exact KeepsO.none
  · extract_lets +onlyGivenNames v1
    clear_value v1
    split
    · with_reducible exact KeepsO.none
    · split
      · with_reducible exact KeepsO.none
      · split
        · with_reducible apply KeepsO.some
          assumption
        · with_reducible apply KeepsO.some
          with_reducible apply State.raise_keeps
          with_reducible refine Keeps.foldl ?_ ?_
          · assumption
          · intro x1 x2 x3
            split
            · with_reducible apply State.startMove_keeps
              assumption
            · assumption

theorem State.spaceOn_keeps {q s : State} (hq : Keeps q s) (c : Nat) (x : Nat × Nat) : KeepsO q (State.spaceOn s c x) := by
  unfold State.spaceOn
  split
  · with_reducible apply KeepsO.some
    assumption
  · extract_lets +onlyGivenNames v1
    have hv1 : Keeps q v1 := by
      unfold v1
      with_reducible apply State.spaceDefer_keeps
      assumption
    clear_value v1
    extract_lets +onlyGivenNames v2
    have hv2 : Keeps q v2 := by
      unfold v2
      with_reducible apply State.spaceKill_keeps
      assumption
    clear_value v2
    split
    · with_reducible apply KeepsO.some
      assumption
    · with_reducible apply State.spaceDemote_keeps
      assumption

theorem State.spacePreempt_keeps {q s : State} (hq : Keeps q s) (c : Nat) (l : List (Nat × Nat)) :
    KeepsO q (State.spacePreempt s c l) := by
  induction l generalizing s with
  | nil => exact KeepsO.some hq
  | cons x t ih =>
    rw [State.spacePreempt]
    split
    · exact KeepsO.none
    · rename_i h
      exact ih ((State.spaceOn_keeps hq _ _).use h)

theorem State.wantSpace_keeps {q s : State} (hq : Keeps q s) (d : Cmd) (dem : List (Nat × Nat)) : Keeps q (State.wantSpace s d dem).1 := by
  unfold State.wantSpace
  split
  · assumption
  · split
    · split
      · assumption
      · dsimp only
        with_reducible apply State.tidy_keeps
        with_reducible apply State.raise_keeps
        with_reducible refine KeepsO.use ?_ (by assumption)
        with_reducible apply State.spacePreempt_keeps
        assumption
    · dsimp only
      with_reducible apply State.tidy_keeps
      with_reducible apply State.raise_keeps
      with_reducible apply State.endCmd_keeps
      assumption

theorem State.wantTime_keeps {q s : State} (hq : Keeps q s) (cs : List Nat) (d : Cmd) : Keeps q (State.wantTime s cs d).1 := by
  unfold State.wantTime
  split
  · dsimp only
    with_reducible apply State.tidy_keeps
    with_reducible refine KeepsO.use ?_ (by assumption)
    with_reducible apply State.timePreempt_keeps
    assumption
  · assumption

theorem State.admitIf_keeps {q s t : State} (hq : Keeps q s) (ht : Keeps q t) (d : Cmd) (cost : Nat)
    (dem : List (Nat × Nat)) : Keeps q (State.admitIf s d cost dem t).1 := by
  unfold State.admitIf
  split
  · dsimp only
    exact State.raise_keeps hq _ _ _ _
  · split
    · exact State.wantSpace_keeps hq _ _
    · split
      · dsimp only
        exact State.tidy_keeps (State.endCmd_keeps hq _ _ _ _ _)
      · exact ht

theorem State.place1_keeps {q s : State} (hq : Keeps q s) (p : Nat) (d : Cmd) : Keeps q (State.place1 s p d).1 := by
  unfold State.place1
  extract_lets
  split
  · exact State.wantTime_keeps hq _ _
  · exact State.admitIf_keeps hq (State.admitOne_keeps hq _ _ _) _ _ _

theorem State.placePair_keeps {q s : State} (hq : Keeps q s) (p : Nat) (d : Cmd) (m : RepeatPair) : Keeps q (State.placePair s p d m).1 := by
  unfold State.placePair
  extract_lets _ _ _ _ _ _ _ _ xOk
  clear_value xOk
  split
  · exact hq
  · split
    · exact State.wantTime_keeps hq _ _
    · split
      · exact State.wantTime_keeps hq _ _
      · exact State.admitIf_keeps hq (State.admitPair_keeps hq _ _ _ _ _) _ _ _

theorem State.takeProg_keeps {q s : State} (hq : Keeps q s) (d : Cmd) : Keeps q (State.takeProg s d).1 := by
  unfold State.takeProg
  split
  · assumption
  · extract_lets +onlyGivenNames v1
    clear_value v1
    split
    · dsimp only
      with_reducible apply State.wantFetch_keeps
      assumption
    · split
      · dsimp only
        with_reducible apply State.tidy_keeps
        with_reducible apply State.endCmd_keeps
        with_reducible apply State.poisonIfBad_keeps
        assumption
      · extract_lets +onlyGivenNames v2
        clear_value v2
        split
        · dsimp only
          with_reducible apply State.tidy_keeps
          with_reducible apply State.endCmd_keeps
          assumption
        · dsimp only
          with_reducible apply State.setExtra_keeps
          assumption

theorem State.hostHead_keeps {q s : State} (hq : Keeps q s) (d : Cmd) : KeepsO q (State.hostHead s d) := by
  unfold State.hostHead
  extract_lets +onlyGivenNames v1
  clear_value v1
  split
  · with_reducible apply KeepsO.some
    with_reducible apply State.tidy_keeps
    with_reducible apply State.endCmd_keeps
    assumption
  · split
    · with_reducible apply KeepsO.some
      assumption
    · with_reducible exact KeepsO.none

theorem State.tryReady_keeps {q s : State} (hq : Keeps q s) (p : Nat) (d : Cmd) : Keeps q (State.tryReady s p d).1 := by
  unfold State.tryReady
  split
  · dsimp only
    with_reducible apply State.tidy_keeps
    with_reducible apply State.endCmd_keeps
    assumption
  · split
    · dsimp only
      with_reducible refine KeepsO.use ?_ (by assumption)
      with_reducible apply State.hostHead_keeps
      assumption
    · extract_lets +onlyGivenNames v1
      have hv1 : Keeps q v1.1 := by
        unfold v1
        with_reducible apply State.takeProg_keeps
        assumption
      clear_value v1
      split
      · assumption
      · extract_lets +onlyGivenNames v2
        have hv2 : Keeps q v2 := by
          unfold v2
          assumption
        clear_value v2
        extract_lets +onlyGivenNames v3
        clear_value v3
        split
        · assumption
        · split
          · dsimp only
            with_reducible apply State.fetchAll_keeps
            assumption
          · split
            · assumption
            · split
              · with_reducible apply State.placePair_keeps
                assumption
              · with_reducible apply State.place1_keeps
                assumption

theorem State.tryHead_keeps {q s : State} (hq : Keeps q s) (p : Nat) (id : Nat) : Keeps q (State.tryHead s p id).1 := by
  unfold State.tryHead
  split
  · assumption
  · split
    · with_reducible apply State.tryReady_keeps
      assumption
    · split
      · dsimp only
        with_reducible refine Keeps.fst ?_ (by assumption)
        with_reducible apply State.prep_keeps
        assumption
      · split
        · dsimp only
          with_reducible refine Keeps.fst ?_ (by assumption)
          with_reducible apply State.prep_keeps
          assumption
        · split
          · dsimp only
            with_reducible apply State.tidy_keeps
            with_reducible apply State.endCmd_keeps
            with_reducible refine Keeps.fst ?_ (by assumption)
            with_reducible apply State.prep_keeps
            assumption
          · split
            · split
              · dsimp only
                with_reducible apply State.tidy_keeps
                with_reducible apply State.endCmd_keeps
                with_reducible refine Keeps.fst ?_ (by assumption)
                with_reducible apply State.prep_keeps
                assumption
              · dsimp only
                with_reducible refine Keeps.fst ?_ (by assumption)
                with_reducible apply State.prep_keeps
                assumption
            · with_reducible apply State.tryReady_keeps
              with_reducible refine Keeps.fst ?_ (by assumption)
              with_reducible apply State.prep_keeps
              assumption

theorem State.noteLosers_keeps {q s : State} (hq : Keeps q s) (ids : List Nat) : Keeps q (State.noteLosers s ids) := by
  unfold State.noteLosers
  extract_lets +onlyGivenNames v1
  clear_value v1
  with_reducible apply Keeps.upd
  · assumption
  · rfl

theorem State.tryHeads_keeps {q s : State} (hq : Keeps q s) (p : Nat) (l : List Nat) : Keeps q (State.tryHeads s p l) := by
  induction l generalizing s with
  | nil => exact hq
  | cons x t ih =>
    have h := State.tryHead_keeps hq p x
    rw [State.tryHeads]
    exact Keeps.ite (ih hq) (Keeps.ite (ih h) (Keeps.ite (ih hq) (Keeps.ite h (State.noteLosers_keeps h _))))

theorem State.dispatch_keeps {q s : State} (hq : Keeps q s) (p : Nat) : Keeps q (State.dispatch s p) := by
  unfold State.dispatch
  extract_lets +onlyGivenNames v1
  extract_lets +onlyGivenNames v2
  have hv2 : Keeps q v2 := by
    unfold v2
    with_reducible apply Keeps.upd
    · assumption
    · rfl
  clear_value v2
  with_reducible apply State.tryHeads_keeps
  assumption

theorem execDispatchAdmit_keeps {q s : State} (hq : Keeps q s) (part : Nat) : Runs q (execDispatchAdmit part s) := by
  unfold execDispatchAdmit
  with_reducible apply Runs.done
  with_reducible refine Keeps.ite ?_ ?_
  · assumption
  · with_reducible refine Keeps.ite ?_ ?_
    · with_reducible apply State.dispatch_keeps
      assumption
    · with_reducible refine Keeps.ite ?_ ?_
      · with_reducible apply State.dispatch_keeps
        with_reducible apply State.nextCycle_keeps
        assumption
      · assumption

end Sys2Proof.Machine
end

