-- ==== Sys2Proof/Laws/KeepsLinks.lean ====
section
/-! SUPPORT. `Keeps` for the host link, the fabric, integrity, power and boot. -/

namespace Sys2Proof.Machine
open Sys2Proof

theorem State.orphan_keeps {q s : State} (hq : Keeps q s) (c : Nat) : Keeps q (State.orphan s c) := by
  unfold State.orphan
  extract_lets +onlyGivenNames v1
  clear_value v1
  with_reducible refine Keeps.ite ?_ ?_
  · assumption
  · with_reducible apply State.raise_keeps
    with_reducible apply State.setChan_keeps
    assumption

theorem State.loseWrite_keeps {q s : State} (hq : Keeps q s) (d : Cmd) : Keeps q (State.loseWrite s d) := by
  unfold State.loseWrite
  extract_lets +onlyGivenNames v1
  extract_lets +onlyGivenNames v2
  have hv2 : Keeps q v2 := by
    unfold v2
    split
    · with_reducible apply State.unqueue_keeps
      assumption
    · unfold v1
      split
      · with_reducible refine Keeps.ite ?_ ?_
        · with_reducible apply State.stopRun_keeps
          assumption
        · assumption
      · assumption
    · unfold v1
      split
      · with_reducible refine Keeps.ite ?_ ?_
        · with_reducible apply State.stopRun_keeps
          assumption
        · assumption
      · assumption
    · assumption
  clear_value v2
  with_reducible apply State.endCmd_keeps
  assumption

theorem State.linkLoss_keeps {q s : State} (hq : Keeps q s) : Keeps q (State.linkLoss s) := by
  unfold State.linkLoss
  extract_lets +onlyGivenNames v1
  have hv1 : Keeps q v1 := by
    unfold v1
    with_reducible refine Keeps.foldl ?_ ?_
    · assumption
    · intro x2 x3 x4
      with_reducible apply State.orphan_keeps
      assumption
  clear_value v1
  extract_lets +onlyGivenNames v5
  clear_value v5
  extract_lets +onlyGivenNames v6
  have hv6 : Keeps q v6 := by
    unfold v6
    with_reducible apply Keeps.upd
    · assumption
    · rfl
  clear_value v6
  extract_lets +onlyGivenNames v7
  have hv7 : Keeps q v7 := by
    unfold v7
    with_reducible refine Keeps.foldl ?_ ?_
    · assumption
    · intro x8 x9 x10
      split
      · with_reducible apply State.loseWrite_keeps
        assumption
      · assumption
  clear_value v7
  extract_lets +onlyGivenNames v11
  have hv11 : Keeps q v11 := by
    unfold v11
    with_reducible apply State.killReads_keeps
    assumption
  clear_value v11
  with_reducible apply State.tidy_keeps
  with_reducible apply State.raise_keeps
  with_reducible apply Keeps.upd
  · assumption
  · rfl

theorem State.resetRegs_keeps {q s : State} (hq : Keeps q s) (w : Win) (offs : List Nat) : Keeps q (State.resetRegs s w offs) :=
  ⟨hq.pending, fun c => ⟨(hq.canon c).mem, Sparse.wfAbove_filter (hq.canon c).regs, (hq.canon c).chans, (hq.canon c).cqs, (hq.canon c).accts, (hq.canon c).clus, (hq.canon c).cnts, (hq.canon c).pslots, (hq.canon c).scales, (hq.canon c).frames, (hq.canon c).streams, (hq.canon c).fences, (hq.canon c).objs⟩, hq.out, hq.free⟩

theorem State.resetFunction_keeps {q s : State} (hq : Keeps q s) : Keeps q (State.resetFunction s) := by
  unfold State.resetFunction
  extract_lets +onlyGivenNames v1
  have hv1 : Keeps q v1 := by
    unfold v1
    with_reducible apply State.resetRegs_keeps
    assumption
  clear_value v1
  with_reducible apply Keeps.upd
  · assumption
  · rfl

theorem State.resetConfig_keeps {q s : State} (hq : Keeps q s) : Keeps q (State.resetConfig s) := by
  unfold State.resetConfig
  extract_lets +onlyGivenNames v1
  have hv1 : Keeps q v1 := by
    unfold v1
    with_reducible apply State.resetFunction_keeps
    assumption
  clear_value v1
  with_reducible apply Keeps.upd
  · assumption
  · rfl

theorem State.tryTrain_keeps {q s : State} (hq : Keeps q s) : Keeps q (State.tryTrain s) := by
  unfold State.tryTrain
  with_reducible refine Keeps.ite ?_ ?_
  · with_reducible apply Keeps.upd
    · assumption
    · rfl
  · assumption

theorem State.sendPending_keeps {q s : State} (hq : Keeps q s) : Keeps q (State.sendPending s) := by
  unfold State.sendPending
  with_reducible refine Keeps.ite ?_ ?_
  · assumption
  · extract_lets +onlyGivenNames v1
    clear_value v1
    with_reducible refine Keeps.foldl ?_ ?_
    · with_reducible apply Keeps.upd
      · assumption
      · rfl
    · intro x2 x3 x4
      with_reducible apply State.emit_keeps
      assumption

theorem State.linkChan_keeps {q s : State} (hq : Keeps q s) (c : Nat) : Keeps q (State.linkChan s c) := by
  unfold State.linkChan
  extract_lets +onlyGivenNames v1
  clear_value v1
  with_reducible refine Keeps.ite ?_ ?_
  · assumption
  · extract_lets +onlyGivenNames v2
    have hv2 : Keeps q v2 := by
      unfold v2
      with_reducible refine Keeps.ite ?_ ?_
      · with_reducible apply State.drainDone_keeps
        with_reducible apply State.setChan_keeps
        with_reducible apply State.rewriteStored_keeps
        assumption
      · with_reducible apply State.release_keeps
        assumption
    clear_value v2
    with_reducible apply State.pumpRing_keeps
    assumption

theorem State.linkUpAt_keeps {q s : State} (hq : Keeps q s) (width : Nat) (gts : Nat) : Keeps q (State.linkUpAt s width gts) := by
  unfold State.linkUpAt
  extract_lets +onlyGivenNames v1
  clear_value v1
  extract_lets +onlyGivenNames v2
  clear_value v2
  extract_lets +onlyGivenNames v3
  clear_value v3
  extract_lets +onlyGivenNames v4
  have hv4 : Keeps q v4 := by
    unfold v4
    with_reducible apply Keeps.upd
    · assumption
    · rfl
  clear_value v4
  with_reducible refine Keeps.ite ?_ ?_
  · with_reducible apply State.raise_keeps
    assumption
  · assumption

theorem State.resumeHost_keeps {q s : State} (hq : Keeps q s) : Keeps q (State.resumeHost s) := by
  unfold State.resumeHost
  with_reducible apply State.sendPending_keeps
  with_reducible apply State.pumpAllLines_keeps
  with_reducible refine Keeps.foldl ?_ ?_
  · assumption
  · intro x1 x2 x3
    with_reducible apply State.linkChan_keeps
    assumption

theorem State.takeDown_keeps {q s : State} (hq : Keeps q s) : Keeps q (State.takeDown s) := by
  unfold State.takeDown
  extract_lets +onlyGivenNames v1
  have hv1 : Keeps q v1 := by
    unfold v1
    with_reducible apply State.resetConfig_keeps
    with_reducible apply State.linkLoss_keeps
    assumption
  clear_value v1
  with_reducible apply Keeps.upd
  · assumption
  · rfl

theorem execPerstAssert_keeps {q s : State} (hq : Keeps q s) : Runs q (execPerstAssert s) := by
  unfold execPerstAssert
  with_reducible apply Runs.done
  with_reducible refine Keeps.ite ?_ ?_
  · assumption
  · extract_lets +onlyGivenNames v1
    have hv1 : Keeps q v1 := by
      unfold v1
      with_reducible apply State.takeDown_keeps
      assumption
    clear_value v1
    with_reducible apply Keeps.upd
    · assumption
    · rfl

theorem execPerstDeassert_keeps {q s : State} (hq : Keeps q s) : Runs q (execPerstDeassert s) := by
  unfold execPerstDeassert
  with_reducible apply Runs.done
  with_reducible refine Keeps.ite ?_ ?_
  · assumption
  · with_reducible apply State.tryTrain_keeps
    with_reducible apply Keeps.upd
    · assumption
    · rfl

theorem execLinkL0Reached_keeps {q s : State} (hq : Keeps q s) (width : Nat) (gts : Nat) : Runs q (execLinkL0Reached width gts s) := by
  unfold execLinkL0Reached
  with_reducible apply Runs.done
  extract_lets +onlyGivenNames v1
  have hv1 : Keeps q v1 := by
    unfold v1
    with_reducible apply State.tryTrain_keeps
    assumption
  clear_value v1
  with_reducible refine Keeps.ite ?_ ?_
  · assumption
  · with_reducible apply State.resumeHost_keeps
    with_reducible apply State.linkUpAt_keeps
    assumption

theorem execLinkRecoveryEnter_keeps {q s : State} (hq : Keeps q s) : Runs q (execLinkRecoveryEnter s) := by
  unfold execLinkRecoveryEnter
  with_reducible apply Runs.done
  with_reducible refine Keeps.ite ?_ ?_
  · assumption
  · with_reducible apply Keeps.upd
    · assumption
    · rfl

theorem execLinkRecoveryExit_keeps {q s : State} (hq : Keeps q s) (width : Nat) (gts : Nat) : Runs q (execLinkRecoveryExit width gts s) := by
  unfold execLinkRecoveryExit
  with_reducible apply Runs.done
  with_reducible refine Keeps.ite ?_ ?_
  · assumption
  · with_reducible apply State.resumeHost_keeps
    with_reducible apply State.linkUpAt_keeps
    assumption

theorem execDlDown_keeps {q s : State} (hq : Keeps q s) : Runs q (execDlDown s) := by
  unfold execDlDown
  with_reducible apply Runs.done
  with_reducible refine Keeps.ite ?_ ?_
  · assumption
  · with_reducible apply State.takeDown_keeps
    assumption

theorem execHotReset_keeps {q s : State} (hq : Keeps q s) : Runs q (execHotReset s) := by
  unfold execHotReset
  with_reducible apply Runs.done
  with_reducible refine Keeps.ite ?_ ?_
  · assumption
  · with_reducible apply State.takeDown_keeps
    assumption

theorem execFlr_keeps {q s : State} (hq : Keeps q s) : Runs q (execFlr s) := by
  unfold execFlr
  with_reducible apply Runs.done
  with_reducible refine Keeps.ite ?_ ?_
  · assumption
  · with_reducible apply State.resetFunction_keeps
    with_reducible apply State.linkLoss_keeps
    assumption

theorem execD3hotEntry_keeps {q s : State} (hq : Keeps q s) : Runs q (execD3hotEntry s) := by
  unfold execD3hotEntry
  with_reducible apply Runs.done
  with_reducible refine Keeps.ite ?_ ?_
  · assumption
  · extract_lets +onlyGivenNames v1
    have hv1 : Keeps q v1 := by
      unfold v1
      with_reducible apply State.resetFunction_keeps
      with_reducible apply State.linkLoss_keeps
      assumption
    clear_value v1
    with_reducible apply Keeps.upd
    · assumption
    · rfl

theorem execD0Return_keeps {q s : State} (hq : Keeps q s) : Runs q (execD0Return s) := by
  unfold execD0Return
  with_reducible apply Runs.done
  with_reducible refine Keeps.ite ?_ ?_
  · assumption
  · with_reducible apply State.resetFunction_keeps
    with_reducible apply State.linkLoss_keeps
    assumption

theorem execRefclkLoss_keeps {q s : State} (hq : Keeps q s) : Runs q (execRefclkLoss s) := by
  unfold execRefclkLoss
  with_reducible apply Runs.done
  with_reducible refine Keeps.ite ?_ ?_
  · assumption
  · extract_lets +onlyGivenNames v1
    clear_value v1
    extract_lets +onlyGivenNames v2
    have hv2 : Keeps q v2 := by
      unfold v2
      with_reducible apply Keeps.upd
      · assumption
      · rfl
    clear_value v2
    with_reducible refine Keeps.ite ?_ ?_
    · with_reducible apply State.takeDown_keeps
      assumption
    · with_reducible apply Keeps.upd
      · assumption
      · rfl

theorem execRefclkRestored_keeps {q s : State} (hq : Keeps q s) : Runs q (execRefclkRestored s) := by
  unfold execRefclkRestored
  with_reducible apply Runs.done
  with_reducible refine Keeps.ite ?_ ?_
  · assumption
  · with_reducible apply State.tryTrain_keeps
    with_reducible apply Keeps.upd
    · assumption
    · rfl

theorem execDvsecCacheEnable_keeps {q s : State} (hq : Keeps q s) (on : Bool) : Runs q (execDvsecCacheEnable on s) := by
  unfold execDvsecCacheEnable
  with_reducible apply Runs.done
  with_reducible refine Keeps.ite ?_ ?_
  · assumption
  · extract_lets +onlyGivenNames v1
    clear_value v1
    extract_lets +onlyGivenNames v2
    have hv2 : Keeps q v2 := by
      unfold v2
      with_reducible apply Keeps.upd
      · assumption
      · rfl
    clear_value v2
    with_reducible refine Keeps.ite ?_ ?_
    · with_reducible apply State.pumpAllLines_keeps
      with_reducible apply State.pumpRings_keeps
      assumption
    · with_reducible apply State.killReads_keeps
      assumption

theorem execMemEnable_keeps {q s : State} (hq : Keeps q s) (on : Bool) (decoder : Option Nat) : Runs q (execMemEnable on decoder s) := by
  unfold execMemEnable
  with_reducible apply Runs.done
  with_reducible refine Keeps.ite ?_ ?_
  · assumption
  · with_reducible apply Keeps.upd
    · assumption
    · rfl

theorem execVectorUnmask_keeps {q s : State} (hq : Keeps q s) (what : Unmask) : Runs q (execVectorUnmask what s) := by
  unfold execVectorUnmask
  with_reducible apply Runs.done
  with_reducible refine Keeps.ite ?_ ?_
  · assumption
  · split
    · extract_lets +onlyGivenNames v1
      clear_value v1
      with_reducible apply State.sendPending_keeps
      with_reducible apply Keeps.upd
      · assumption
      · rfl
    · with_reducible apply State.sendPending_keeps
      with_reducible apply Keeps.upd
      · assumption
      · rfl
    · with_reducible apply State.sendPending_keeps
      with_reducible apply Keeps.upd
      · assumption
      · rfl

theorem execLaneMargining_keeps {q s : State} (hq : Keeps q s) (lane : Nat) (timing : Bool) (step : Int) (errors : Nat) : Runs q (execLaneMargining lane timing step errors s) := by
  unfold execLaneMargining
  with_reducible apply Runs.done
  with_reducible refine Keeps.ite ?_ ?_
  · assumption
  · with_reducible apply State.emit_keeps
    assumption

theorem execOrphanTimeout_keeps {q s : State} (hq : Keeps q s) (chan : Nat) : Runs q (execOrphanTimeout chan s) := by
  unfold execOrphanTimeout
  with_reducible apply Runs.done
  extract_lets +onlyGivenNames v1
  clear_value v1
  with_reducible refine Keeps.ite ?_ ?_
  · assumption
  · with_reducible apply State.setChan_keeps
    assumption

theorem State.discardCmd_keeps {q s : State} (hq : Keeps q s) (d : Cmd) : Keeps q (State.discardCmd s d) := by
  unfold State.discardCmd
  extract_lets +onlyGivenNames v1
  have hv1 : Keeps q v1 := by
    unfold v1
    with_reducible apply State.dropCmd_keeps
    assumption
  clear_value v1
  split
  · with_reducible apply State.settleCtx_keeps
    assumption
  · assumption

theorem State.destroyOrphan_keeps {q s : State} (hq : Keeps q s) (c : Nat) : Keeps q (State.destroyOrphan s c) := by
  unfold State.destroyOrphan
  extract_lets +onlyGivenNames v1
  clear_value v1
  with_reducible refine Keeps.ite ?_ ?_
  · assumption
  · extract_lets +onlyGivenNames v2
    clear_value v2
    extract_lets +onlyGivenNames v3
    have hv3 : Keeps q v3 := by
      unfold v3
      with_reducible apply State.setCq_keeps
      with_reducible apply State.setChan_keeps
      assumption
    clear_value v3
    extract_lets +onlyGivenNames v4
    have hv4 : Keeps q v4 := by
      unfold v4
      with_reducible refine Keeps.foldl ?_ ?_
      · assumption
      · intro x1 x2 x3
        with_reducible apply State.setLaunch_keeps
        assumption
    clear_value v4
    extract_lets +onlyGivenNames v5
    have hv5 : Keeps q v5 := by
      unfold v5
      with_reducible refine Keeps.foldl ?_ ?_
      · assumption
      · intro x4 x5 x6
        with_reducible apply State.discardCmd_keeps
        assumption
    clear_value v5
    extract_lets +onlyGivenNames v6
    have hv6 : Keeps q v6 := by
      unfold v6
      with_reducible refine Keeps.foldl ?_ ?_
      · assumption
      · intro x7 x8 x9
        with_reducible apply State.settleLaunch_keeps
        assumption
    clear_value v6
    extract_lets +onlyGivenNames v7
    have hv7 : Keeps q v7 := by
      unfold v7
      with_reducible refine Keeps.foldl ?_ ?_
      · with_reducible apply State.closeCtx_keeps
        assumption
      · intro x10 x11 x12
        with_reducible apply State.settleCtx_keeps
        assumption
    clear_value v7
    with_reducible apply State.tidy_keeps
    with_reducible apply State.raise_keeps
    assumption

theorem State.destroyOrphans_keeps {q s : State} (hq : Keeps q s) : Keeps q (State.destroyOrphans s) := by
  unfold State.destroyOrphans
  with_reducible refine Keeps.foldl ?_ ?_
  · assumption
  · intro x1 x2 x3
    with_reducible apply State.destroyOrphan_keeps
    assumption

theorem State.setPortState_keeps {q s : State} (hq : Keeps q s) (p : Nat) (st : PortState) : Keeps q (State.setPortState s p st) := by
  unfold State.setPortState
  with_reducible apply State.setPort_keeps
  assumption

theorem State.moveFlows_keeps {q s : State} (hq : Keeps q s) : Keeps q (State.moveFlows s) := by
  unfold State.moveFlows
  with_reducible apply State.egress_keeps
  · assumption
  · with_reducible refine Keeps.foldl ?_ ?_
    · assumption
    · intro x1 x2 x3
      extract_lets +onlyGivenNames v1
      clear_value v1
      with_reducible refine Keeps.ite ?_ ?_
      · assumption
      · split
        · assumption
        · with_reducible apply State.pumpFlow_keeps
          with_reducible refine Keeps.ite ?_ ?_
          · assumption
          · with_reducible apply State.resendFlow_keeps
            assumption

theorem State.sendDiscover_keeps {q s : State} (hq : Keeps q s) (p : Nat) : Keeps q (State.sendDiscover s p) := by
  unfold State.sendDiscover
  with_reducible refine Keeps.ite ?_ ?_
  · with_reducible apply State.emit_keeps
    with_reducible apply State.setPort_keeps
    assumption
  · assumption

theorem execPortEnable_keeps {q s : State} (hq : Keeps q s) (port : Nat) : Runs q (execPortEnable port s) := by
  unfold execPortEnable
  with_reducible apply Runs.done
  with_reducible refine Keeps.ite ?_ ?_
  · assumption
  · extract_lets +onlyGivenNames v1
    have hv1 : Keeps q v1 := by
      unfold v1
      with_reducible apply State.fldPut_keeps
      assumption
    clear_value v1
    with_reducible refine Keeps.ite ?_ ?_
    · with_reducible apply State.setPortState_keeps
      assumption
    · assumption

theorem execPortDisable_keeps {q s : State} (hq : Keeps q s) (port : Nat) : Runs q (execPortDisable port s) := by
  unfold execPortDisable
  with_reducible apply Runs.done
  with_reducible refine Keeps.ite ?_ ?_
  · assumption
  · with_reducible apply State.moveFlows_keeps
    with_reducible apply State.setPortState_keeps
    with_reducible apply State.fldPut_keeps
    assumption

theorem execPortTrainingComplete_keeps {q s : State} (hq : Keeps q s) (port : Nat) : Runs q (execPortTrainingComplete port s) := by
  unfold execPortTrainingComplete
  with_reducible apply Runs.done
  with_reducible refine Keeps.ite ?_ ?_
  · assumption
  · with_reducible apply State.moveFlows_keeps
    with_reducible apply State.sendDiscover_keeps
    with_reducible apply State.raise_keeps
    with_reducible apply State.setPortState_keeps
    assumption

theorem execPortTrainingTimeout_keeps {q s : State} (hq : Keeps q s) (port : Nat) : Runs q (execPortTrainingTimeout port s) := by
  unfold execPortTrainingTimeout
  with_reducible apply Runs.done
  with_reducible refine Keeps.ite ?_ ?_
  · assumption
  · with_reducible apply State.setPortState_keeps
    assumption

theorem execPortFault_keeps {q s : State} (hq : Keeps q s) (port : Nat) : Runs q (execPortFault port s) := by
  unfold execPortFault
  with_reducible apply Runs.done
  with_reducible refine Keeps.ite ?_ ?_
  · assumption
  · with_reducible apply State.moveFlows_keeps
    with_reducible apply State.raise_keeps
    with_reducible apply State.setPortState_keeps
    with_reducible apply State.setPort_keeps
    assumption

theorem execHolddownExpiry_keeps {q s : State} (hq : Keeps q s) (port : Nat) : Runs q (execHolddownExpiry port s) := by
  unfold execHolddownExpiry
  with_reducible apply Runs.done
  with_reducible refine Keeps.ite ?_ ?_
  · assumption
  · with_reducible apply State.setPortState_keeps
    assumption

theorem execDiscoverSend_keeps {q s : State} (hq : Keeps q s) (port : Nat) : Runs q (execDiscoverSend port s) := by
  unfold execDiscoverSend
  with_reducible apply Runs.done
  with_reducible refine Keeps.ite ?_ ?_
  · assumption
  · with_reducible apply State.sendDiscover_keeps
    assumption

theorem State.discard_keeps {q s : State} (hq : Keeps q s) : Keeps q (State.discard s) := by
  unfold State.discard
  with_reducible apply Keeps.upd
  · assumption
  · rfl

theorem execDiscover_keeps {q s : State} (hq : Keeps q s) (port : Nat) (f : Frame) : Runs q (execDiscover port f s) := by
  unfold execDiscover
  with_reducible apply Runs.done
  with_reducible refine Keeps.ite ?_ ?_
  · assumption
  · with_reducible refine Keeps.ite ?_ ?_
    · with_reducible apply State.discard_keeps
      assumption
    · with_reducible apply State.emit_keeps
      assumption

theorem execDiscoverReply_keeps {q s : State} (hq : Keeps q s) (port : Nat) (mac : Nat) (f : Frame) : Runs q (execDiscoverReply port mac f s) := by
  unfold execDiscoverReply
  with_reducible apply Runs.done
  with_reducible refine Keeps.ite ?_ ?_
  · assumption
  · with_reducible refine Keeps.ite ?_ ?_
    · with_reducible apply State.discard_keeps
      assumption
    · with_reducible refine Keeps.ite ?_ ?_
      · extract_lets +onlyGivenNames v1
        have hv1 : Keeps q v1 := by
          unfold v1
          with_reducible apply State.discard_keeps
          assumption
        clear_value v1
        with_reducible refine Keeps.ite ?_ ?_
        · assumption
        · with_reducible apply State.raise_keeps
          with_reducible apply Keeps.upd
          · assumption
          · rfl
      · extract_lets +onlyGivenNames v2
        clear_value v2
        with_reducible apply State.moveFlows_keeps
        with_reducible apply Keeps.upd
        · assumption
        · rfl

theorem execRoutePlaneExpiry_keeps {q s : State} (hq : Keeps q s) (dst : Nat) (plane : Nat) : Runs q (execRoutePlaneExpiry dst plane s) := by
  unfold execRoutePlaneExpiry
  with_reducible apply Runs.done
  with_reducible refine Keeps.ite ?_ ?_
  · assumption
  · with_reducible apply State.moveFlows_keeps
    with_reducible apply Keeps.upd
    · assumption
    · rfl

theorem execFrameDiscard_keeps {q s : State} (hq : Keeps q s) (port : Nat) : Runs q (execFrameDiscard port s) := by
  unfold execFrameDiscard
  with_reducible apply Runs.done
  with_reducible refine Keeps.ite ?_ ?_
  · assumption
  · with_reducible apply State.discard_keeps
    assumption

theorem State.remoteEnds_keeps {q s : State} (hq : Keeps q s) (id : Nat) (m : Nat) : Keeps q (State.remoteEnds s id m) := by
  unfold State.remoteEnds
  split
  · assumption
  · split
    · with_reducible apply State.remoteFail_keeps
      assumption
    · with_reducible apply State.settleAcks_keeps
      with_reducible apply State.setCmd_keeps
      assumption
    · with_reducible apply State.setCmd_keeps
      assumption
    · assumption

theorem State.failPeer_keeps {q s : State} (hq : Keeps q s) (m : Nat) (bit : Nat) : Keeps q (State.failPeer s m bit) := by
  unfold State.failPeer
  extract_lets +onlyGivenNames v1
  clear_value v1
  extract_lets +onlyGivenNames v2
  clear_value v2
  extract_lets +onlyGivenNames v3
  have hv3 : Keeps q v3 := by
    unfold v3
    with_reducible refine Keeps.foldl ?_ ?_
    · assumption
    · intro x4 x5 x6
      with_reducible apply State.setPeer_keeps
      assumption
  clear_value v3
  extract_lets +onlyGivenNames v7
  clear_value v7
  extract_lets +onlyGivenNames v8
  have hv8 : Keeps q v8 := by
    unfold v8
    with_reducible apply Keeps.upd
    · assumption
    · rfl
  clear_value v8
  with_reducible apply State.raise_keeps
  with_reducible refine Keeps.foldl ?_ ?_
  · assumption
  · intro x9 x10 x11
    with_reducible apply State.remoteEnds_keeps
    assumption

theorem execPeerFailedExpiry_keeps {q s : State} (hq : Keeps q s) (peer : Nat) : Runs q (execPeerFailedExpiry peer s) := by
  unfold execPeerFailedExpiry
  with_reducible apply Runs.done
  with_reducible refine Keeps.ite ?_ ?_
  · assumption
  · with_reducible refine Keeps.foldl ?_ ?_
    · assumption
    · intro x1 x2 x3
      with_reducible refine Keeps.ite ?_ ?_
      · with_reducible apply State.setPeer_keeps
        assumption
      · assumption

theorem State.takeAck_keeps {q s : State} (hq : Keeps q s) (m : Nat) (v : Nat) (ackPsn : BitVec 32) (credit : BitVec 32) : Keeps q (State.takeAck s m v ackPsn credit) := by
  unfold State.takeAck
  extract_lets +onlyGivenNames v1
  clear_value v1
  with_reducible refine Keeps.ite ?_ ?_
  · assumption
  · extract_lets +onlyGivenNames v2
    clear_value v2
    extract_lets +onlyGivenNames v3
    clear_value v3
    extract_lets +onlyGivenNames v4
    clear_value v4
    extract_lets +onlyGivenNames v5
    clear_value v5
    extract_lets +onlyGivenNames v6
    clear_value v6
    extract_lets +onlyGivenNames v7
    clear_value v7
    extract_lets +onlyGivenNames v8
    have hv8 : Keeps q v8 := by
      unfold v8
      with_reducible apply State.pumpAll_keeps
      with_reducible apply State.setPeer_keeps
      assumption
    clear_value v8
    with_reducible refine Keeps.foldl ?_ ?_
    · assumption
    · intro x1 x2 x3
      with_reducible apply State.settleAcks_keeps
      assumption

theorem execAck_keeps {q s : State} (hq : Keeps q s) (port : Nat) (f : Frame) : Runs q (execAck port f s) := by
  unfold execAck
  with_reducible apply Runs.done
  with_reducible refine Keeps.ite ?_ ?_
  · assumption
  · with_reducible refine Keeps.ite ?_ ?_
    · with_reducible apply State.discard_keeps
      assumption
    · with_reducible apply State.takeAck_keeps
      assumption

theorem execNak_keeps {q s : State} (hq : Keeps q s) (port : Nat) (f : Frame) : Runs q (execNak port f s) := by
  unfold execNak
  with_reducible apply Runs.done
  with_reducible refine Keeps.ite ?_ ?_
  · assumption
  · with_reducible refine Keeps.ite ?_ ?_
    · with_reducible apply State.discard_keeps
      assumption
    · with_reducible refine Keeps.ite ?_ ?_
      · with_reducible refine Keeps.ite ?_ ?_
        · assumption
        · with_reducible apply State.failPeer_keeps
          assumption
      · with_reducible apply State.resendFlow_keeps
        with_reducible apply State.takeAck_keeps
        assumption

theorem execAckDue_keeps {q s : State} (hq : Keeps q s) (peer : Nat) (vl : Nat) : Runs q (execAckDue peer vl s) := by
  unfold execAckDue
  with_reducible apply Runs.done
  extract_lets +onlyGivenNames v1
  clear_value v1
  split
  · assumption
  · with_reducible refine Keeps.ite ?_ ?_
    · assumption
    · with_reducible apply State.sendCtl_keeps
      with_reducible apply State.setPeer_keeps
      assumption

theorem execRetxTimerExpiry_keeps {q s : State} (hq : Keeps q s) (peer : Nat) (vl : Nat) : Runs q (execRetxTimerExpiry peer vl s) := by
  unfold execRetxTimerExpiry
  with_reducible apply Runs.done
  extract_lets +onlyGivenNames v1
  clear_value v1
  with_reducible refine Keeps.ite ?_ ?_
  · assumption
  · with_reducible refine Keeps.ite ?_ ?_
    · with_reducible apply State.failPeer_keeps
      assumption
    · with_reducible apply State.resendFlow_keeps
      with_reducible apply State.setPeer_keeps
      assumption

theorem State.reassemble_keeps {q s : State} (hq : Keeps q s) (f : Frame) : Keeps q (State.reassemble s f) := by
  unfold State.reassemble
  extract_lets +onlyGivenNames v1
  clear_value v1
  extract_lets +onlyGivenNames v2
  clear_value v2
  extract_lets +onlyGivenNames v3
  clear_value v3
  with_reducible refine Keeps.ite ?_ ?_
  · with_reducible apply Keeps.upd
    · assumption
    · rfl
  · extract_lets +onlyGivenNames v4
    clear_value v4
    extract_lets +onlyGivenNames v5
    have hv5 : Keeps q v5 := by
      unfold v5
      with_reducible apply Keeps.upd
      · assumption
      · rfl
    clear_value v5
    with_reducible refine Keeps.ite ?_ ?_
    · with_reducible apply State.refuseMsg_keeps
      assumption
    · with_reducible apply Keeps.upd
      · assumption
      · rfl

theorem State.acceptFrame_keeps {q s : State} (hq : Keeps q s) (f : Frame) (e : Peer) : Keeps q (State.acceptFrame s f e) := by
  unfold State.acceptFrame
  extract_lets +onlyGivenNames v1
  clear_value v1
  extract_lets +onlyGivenNames v2
  have hv2 : Keeps q v2 := by
    unfold v2
    with_reducible apply State.setPeer_keeps
    assumption
  clear_value v2
  with_reducible refine Keeps.ite ?_ ?_
  · with_reducible apply State.refuseMsg_keeps
    with_reducible apply Keeps.upd
    · assumption
    · rfl
  · with_reducible apply State.reassemble_keeps
    assumption

theorem State.orderFrame_keeps {q s : State} (hq : Keeps q s) (f : Frame) : Keeps q (State.orderFrame s f) := by
  unfold State.orderFrame
  extract_lets +onlyGivenNames v1
  clear_value v1
  with_reducible refine Keeps.ite ?_ ?_
  · with_reducible apply State.acceptFrame_keeps
    with_reducible apply Keeps.upd
    · assumption
    · rfl
  · with_reducible refine Keeps.ite ?_ ?_
    · split
      · with_reducible apply State.sendCtl_keeps
        assumption
      · assumption
    · with_reducible refine Keeps.ite ?_ ?_
      · with_reducible apply State.acceptFrame_keeps
        assumption
      · with_reducible refine Keeps.ite ?_ ?_
        · with_reducible apply State.setPeer_keeps
          assumption
        · extract_lets +onlyGivenNames v2
          clear_value v2
          split
          · with_reducible refine Keeps.ite ?_ ?_
            · with_reducible apply State.sendCtl_keeps
              with_reducible apply State.setPeer_keeps
              assumption
            · assumption
          · assumption

theorem execData_keeps {q s : State} (hq : Keeps q s) (port : Nat) (f : Frame) : Runs q (execData port f s) := by
  unfold execData
  with_reducible apply Runs.done
  with_reducible refine Keeps.ite ?_ ?_
  · assumption
  · with_reducible refine Keeps.ite ?_ ?_
    · with_reducible apply State.discard_keeps
      assumption
    · with_reducible refine Keeps.ite ?_ ?_
      · assumption
      · with_reducible apply State.orderFrame_keeps
        with_reducible apply State.takeAck_keeps
        assumption

theorem execReassemblyTimeout_keeps {q s : State} (hq : Keeps q s) (peer : Nat) (vl : Nat) (msgId : Nat) : Runs q (execReassemblyTimeout peer vl msgId s) := by
  unfold execReassemblyTimeout
  with_reducible apply Runs.done
  with_reducible refine Keeps.ite ?_ ?_
  · assumption
  · with_reducible apply Keeps.upd
    · assumption
    · rfl

theorem State.consumeMsg_keeps {q s : State} (hq : Keeps q s) (m : Nat) (v : Nat) : Keeps q (State.consumeMsg s m v) := by
  unfold State.consumeMsg
  split
  · with_reducible apply Keeps.upd
    · assumption
    · rfl
  · assumption

theorem State.keepMsg_keeps {q s : State} (hq : Keeps q s) (m : Nat) (v : Nat) (payload : List Byte) : Keeps q (State.keepMsg s m v payload) := by
  unfold State.keepMsg
  split
  · with_reducible apply Keeps.upd
    · assumption
    · rfl
  · assumption

theorem State.refuseIt_keeps {q s : State} (hq : Keeps q s) (x : Msg) (reason : Nat) : Keeps q (State.refuseIt s x reason) := by
  unfold State.refuseIt
  with_reducible apply State.refuseMsg_keeps
  with_reducible apply State.consumeMsg_keeps
  assumption

theorem State.readSlots_keeps {q s : State} (hq : Keeps q s) (x : Msg) (c : Nat) (l : List (List Byte × List Byte)) :
    Keeps q (State.readSlots s x c l) := by
  induction l generalizing s with
  | nil => exact State.consumeMsg_keeps hq _ _
  | cons y t ih =>
    obtain ⟨slot, ext⟩ := y
    rw [State.readSlots]
    exact Keeps.ite (ih (State.acceptSlot_keeps hq _ _ _ _)) (State.keepMsg_keeps hq _ _ _)

theorem execRequest_keeps {q s : State} (hq : Keeps q s) (peer : Nat) (vl : Nat) : Runs q (execRequest peer vl s) := by
  unfold execRequest
  with_reducible apply Runs.done
  split
  · assumption
  · extract_lets +onlyGivenNames v1
    clear_value v1
    with_reducible refine Keeps.ite ?_ ?_
    · with_reducible apply State.refuseIt_keeps
      assumption
    · with_reducible refine Keeps.ite ?_ ?_
      · with_reducible apply State.refuseIt_keeps
        assumption
      · with_reducible refine Keeps.ite ?_ ?_
        · assumption
        · split
          · with_reducible apply State.refuseIt_keeps
            assumption
          · with_reducible apply State.readSlots_keeps
            assumption

theorem execResponse_keeps {q s : State} (hq : Keeps q s) (peer : Nat) (vl : Nat) : Runs q (execResponse peer vl s) := by
  unfold execResponse
  with_reducible apply Runs.done
  split
  · assumption
  · extract_lets +onlyGivenNames v1
    clear_value v1
    with_reducible refine Keeps.ite ?_ ?_
    · with_reducible apply State.refuseIt_keeps
      assumption
    · with_reducible apply State.consumeMsg_keeps
      assumption

theorem State.enterServe_keeps {q s : State} (hq : Keeps q s) (x : Msg) (c : Nat) (op : Nat) (budget : Nat) (h : Nat) : Keeps q (State.enterServe s x c op budget h) := by
  unfold State.enterServe
  extract_lets +onlyGivenNames v1
  clear_value v1
  extract_lets +onlyGivenNames v2
  clear_value v2
  extract_lets +onlyGivenNames v3
  have hv3 : Keeps q v3 := by
    unfold v3
    with_reducible apply State.consumeMsg_keeps
    assumption
  clear_value v3
  with_reducible apply State.chargeBytes_keeps
  with_reducible apply Keeps.upd
  · assumption
  · rfl

theorem execGather_keeps {q s : State} (hq : Keeps q s) (peer : Nat) (vl : Nat) : Runs q (execGather peer vl s) := by
  unfold execGather
  with_reducible apply Runs.done
  split
  · assumption
  · extract_lets +onlyGivenNames v1
    clear_value v1
    with_reducible refine Keeps.ite ?_ ?_
    · with_reducible apply State.refuseIt_keeps
      assumption
    · split
      · with_reducible apply State.refuseIt_keeps
        assumption
      · with_reducible refine Keeps.ite ?_ ?_
        · assumption
        · with_reducible apply State.enterServe_keeps
          assumption

theorem execUpdate_keeps {q s : State} (hq : Keeps q s) (peer : Nat) (vl : Nat) : Runs q (execUpdate peer vl s) := by
  unfold execUpdate
  with_reducible apply Runs.done
  split
  · assumption
  · extract_lets +onlyGivenNames v1
    clear_value v1
    extract_lets +onlyGivenNames v2
    clear_value v2
    with_reducible refine Keeps.ite ?_ ?_
    · with_reducible apply State.refuseIt_keeps
      assumption
    · split
      · with_reducible apply State.refuseIt_keeps
        assumption
      · with_reducible refine Keeps.ite ?_ ?_
        · with_reducible apply State.refuseIt_keeps
          assumption
        · with_reducible refine Keeps.ite ?_ ?_
          · assumption
          · with_reducible apply State.enterServe_keeps
            assumption

theorem execPartials_keeps {q s : State} (hq : Keeps q s) (peer : Nat) (vl : Nat) : Runs q (execPartials peer vl s) := by
  unfold execPartials
  with_reducible apply Runs.done
  split
  · assumption
  · split
    · with_reducible apply State.consumeMsg_keeps
      assumption
    · split
      · with_reducible apply State.consumeMsg_keeps
        with_reducible apply Keeps.upd
        · assumption
        · rfl
      · split
        · with_reducible apply State.consumeMsg_keeps
          with_reducible apply Keeps.upd
          · assumption
          · rfl
        · with_reducible refine Keeps.ite ?_ ?_
          · with_reducible apply State.refuseIt_keeps
            assumption
          · extract_lets +onlyGivenNames v1
            clear_value v1
            extract_lets +onlyGivenNames v2
            have hv2 : Keeps q v2 := by
              unfold v2
              with_reducible apply State.consumeMsg_keeps
              with_reducible apply Keeps.upd
              · assumption
              · rfl
            clear_value v2
            extract_lets +onlyGivenNames v3
            have hv3 : Keeps q v3 := by
              unfold v3
              with_reducible apply State.setCmd_keeps
              assumption
            clear_value v3
            with_reducible apply State.settleRes_keeps
            with_reducible apply State.chargeBytes_keeps
            assumption

theorem execUpdateAck_keeps {q s : State} (hq : Keeps q s) (peer : Nat) (vl : Nat) : Runs q (execUpdateAck peer vl s) := by
  unfold execUpdateAck
  with_reducible apply Runs.done
  split
  · assumption
  · with_reducible refine Keeps.ite ?_ ?_
    · with_reducible apply State.refuseIt_keeps
      assumption
    · extract_lets +onlyGivenNames v1
      have hv1 : Keeps q v1 := by
        unfold v1
        with_reducible apply State.consumeMsg_keeps
        assumption
      clear_value v1
      split
      · assumption
      · extract_lets +onlyGivenNames v2
        clear_value v2
        extract_lets +onlyGivenNames v3
        have hv3 : Keeps q v3 := by
          unfold v3
          with_reducible apply Keeps.upd
          · assumption
          · rfl
        clear_value v3
        with_reducible apply State.settleAcks_keeps
        with_reducible apply State.setExtra_keeps
        assumption

theorem execRefuse_keeps {q s : State} (hq : Keeps q s) (peer : Nat) (vl : Nat) : Runs q (execRefuse peer vl s) := by
  unfold execRefuse
  with_reducible apply Runs.done
  split
  · assumption
  · with_reducible refine Keeps.ite ?_ ?_
    · with_reducible apply State.refuseIt_keeps
      assumption
    · extract_lets +onlyGivenNames v1
      clear_value v1
      extract_lets +onlyGivenNames v2
      have hv2 : Keeps q v2 := by
        unfold v2
        with_reducible apply State.raise_keeps
        with_reducible apply State.consumeMsg_keeps
        assumption
      clear_value v2
      split
      · assumption
      · with_reducible apply State.remoteEnds_keeps
        with_reducible apply Keeps.upd
        · assumption
        · rfl

theorem State.addTrim_keeps {q s : State} (hq : Keeps q s) (t : Test) (k : Int) : Keeps q (State.addTrim s t k) := by
  unfold State.addTrim
  split
  · with_reducible refine Keeps.ite ?_ ?_
    · with_reducible apply State.setPslot_keeps
      assumption
    · assumption
  · assumption

theorem State.untrim_keeps {q s : State} (hq : Keeps q s) (t : Test) : Keeps q (State.untrim s t) := by
  unfold State.untrim
  with_reducible refine Keeps.ite ?_ ?_
  · with_reducible apply State.addTrim_keeps
    assumption
  · assumption

theorem State.resumeUnits_keeps {q s : State} (hq : Keeps q s) : Keeps q (State.resumeUnits s) := by
  unfold State.resumeUnits
  extract_lets +onlyGivenNames v1
  have hv1 : Keeps q v1 := by
    unfold v1
    with_reducible apply State.settleResAll_keeps
    with_reducible apply State.tidy_keeps
    with_reducible apply State.tryTrain_keeps
    assumption
  clear_value v1
  extract_lets +onlyGivenNames v2
  clear_value v2
  extract_lets +onlyGivenNames v3
  have hv3 : Keeps q v3 := by
    unfold v3
    with_reducible apply State.pumpRings_keeps
    with_reducible refine Keeps.foldl ?_ ?_
    · assumption
    · intro x1 x2 x3
      with_reducible apply State.release_keeps
      assumption
  clear_value v3
  with_reducible apply State.pumpAllLines_keeps
  with_reducible apply State.pumpAll_keeps
  assumption

theorem State.beginTest_keeps {q s : State} (hq : Keeps q s) (t : Test) : Keeps q (State.beginTest s t) := by
  unfold State.beginTest
  with_reducible refine Keeps.ite ?_ ?_
  · with_reducible apply State.enterResidency_keeps
    assumption
  · with_reducible apply Keeps.upd
    · assumption
    · rfl

theorem State.nextTest_keeps {q s : State} (hq : Keeps q s) (edge : Bool) (l : List Test) : Keeps q (State.nextTest s edge l) := by
  induction l generalizing s with
  | nil => exact hq
  | cons t rest ih =>
    rw [State.nextTest]
    refine Keeps.ite hq ?_
    have h1 : Keeps q { s with integ := { s.integ with wait := rest } } := Keeps.upd hq rfl
    refine Keeps.ite (State.beginTest_keeps h1 _) ?_
    apply ih
    split
    · split
      · exact State.endCmd_keeps h1 _ _ _ _ _
      · exact h1
    · exact h1

theorem State.clearTest_keeps {q s : State} (hq : Keeps q s) : Keeps q (State.clearTest s) := by
  unfold State.clearTest
  extract_lets +onlyGivenNames v1
  clear_value v1
  extract_lets +onlyGivenNames v2
  have hv2 : Keeps q v2 := by
    unfold v2
    with_reducible apply State.resumeUnits_keeps
    with_reducible apply Keeps.upd
    · assumption
    · rfl
  clear_value v2
  with_reducible apply State.nextTest_keeps
  assumption

theorem State.testEdge_keeps {q s : State} (hq : Keeps q s) : Keeps q (State.testEdge s) := by
  unfold State.testEdge
  split
  · with_reducible apply State.nextTest_keeps
    assumption
  · with_reducible refine Keeps.ite ?_ ?_
    · assumption
    · with_reducible refine Keeps.ite ?_ ?_
      · with_reducible refine Keeps.ite ?_ ?_
        · with_reducible apply State.addTrim_keeps
          with_reducible apply Keeps.upd
          · assumption
          · rfl
        · with_reducible apply State.moveDown_keeps
          assumption
      · with_reducible refine Keeps.ite ?_ ?_
        · with_reducible apply State.addTrim_keeps
          assumption
        · with_reducible refine Keeps.ite ?_ ?_
          · with_reducible apply State.addTrim_keeps
            assumption
          · assumption

theorem execResidencyStart_keeps {q s : State} (hq : Keeps q s) : Runs q (execResidencyStart s) := by
  unfold execResidencyStart
  with_reducible apply Runs.done
  with_reducible refine Keeps.ite ?_ ?_
  · assumption
  · split
    · assumption
    · with_reducible apply State.queueTest_keeps
      with_reducible apply Keeps.upd
      · assumption
      · rfl

theorem execResidencyAbandon_keeps {q s : State} (hq : Keeps q s) : Runs q (execResidencyAbandon s) := by
  unfold execResidencyAbandon
  with_reducible apply Runs.done
  split
  · assumption
  · with_reducible refine Keeps.ite ?_ ?_
    · assumption
    · extract_lets +onlyGivenNames v1
      clear_value v1
      extract_lets +onlyGivenNames v2
      have hv2 : Keeps q v2 := by
        unfold v2
        with_reducible apply Keeps.upd
        · assumption
        · rfl
      clear_value v2
      split
      · with_reducible apply State.clearTest_keeps
        assumption
      · with_reducible refine Keeps.ite ?_ ?_
        · with_reducible apply State.clearTest_keeps
          with_reducible apply State.queueTest_keeps
          assumption
        · with_reducible apply State.clearTest_keeps
          with_reducible apply State.setSlotState_keeps
          assumption

theorem State.passClu_keeps {q s : State} (hq : Keeps q s) (t : Test) (p : Nat) : Keeps q (State.passClu s t p) := by
  unfold State.passClu
  extract_lets +onlyGivenNames v1
  clear_value v1
  with_reducible refine Keeps.ite ?_ ?_
  · with_reducible apply State.raiseEvent_keeps
    with_reducible apply State.faultLog_keeps
    with_reducible apply State.setPslot_keeps
    assumption
  · with_reducible apply State.faultLog_keeps
    with_reducible apply State.setPslot_keeps
    assumption

theorem State.judgeClu_keeps {q s : State} (hq : Keeps q s) (t : Test) (v : TestVerdict) : Keeps q (State.judgeClu s t v) := by
  unfold State.judgeClu
  split
  · assumption
  · extract_lets +onlyGivenNames v1
    clear_value v1
    extract_lets +onlyGivenNames v2
    have hv2 : Keeps q v2 := by
      unfold v2
      with_reducible apply Keeps.upd
      · assumption
      · rfl
    clear_value v2
    with_reducible apply State.raiseEvent_keeps
    split
    · with_reducible apply State.passClu_keeps
      assumption
    · with_reducible apply State.makeRetired_keeps
      with_reducible apply State.faultLog_keeps
      assumption

theorem execResidencyVerdict_keeps {q s : State} (hq : Keeps q s) (verdict : TestVerdict) : Runs q (execResidencyVerdict verdict s) := by
  unfold execResidencyVerdict
  with_reducible apply Runs.done
  split
  · assumption
  · with_reducible refine Keeps.ite ?_ ?_
    · assumption
    · with_reducible apply State.clearTest_keeps
      with_reducible apply State.judgeClu_keeps
      assumption

theorem State.runTestOnDemand_keeps {q s : State} (hq : Keeps q s) (d : Cmd) : Keeps q (State.runTestOnDemand s d) := by
  unfold State.runTestOnDemand
  split
  · with_reducible apply State.endNow_keeps
    assumption
  · extract_lets +onlyGivenNames v1
    clear_value v1
    extract_lets +onlyGivenNames v2
    have hv2 : Keeps q v2 := by
      unfold v2
      with_reducible apply State.issue_keeps
      assumption
    clear_value v2
    with_reducible refine Keeps.ite ?_ ?_
    · with_reducible apply State.beginTest_keeps
      assumption
    · with_reducible apply State.queueTest_keeps
      assumption

theorem execTestOnDemand_keeps {q s : State} (hq : Keeps q s) (n : Node) : Runs q (execTestOnDemand n s) := by
  unfold execTestOnDemand
  with_reducible apply Runs.done
  with_reducible apply State.gfeHead_keeps
  · assumption
  · intro x1 x2 x3
    with_reducible apply State.runTestOnDemand_keeps
    assumption

theorem execTestDrainComplete_keeps {q s : State} (hq : Keeps q s) : Runs q (execTestDrainComplete s) := by
  unfold execTestDrainComplete
  with_reducible apply Runs.done
  split
  · assumption
  · with_reducible refine Keeps.ite ?_ ?_
    · assumption
    · extract_lets +onlyGivenNames v1
      clear_value v1
      extract_lets +onlyGivenNames v2
      have hv2 : Keeps q v2 := by
        unfold v2
        with_reducible apply Keeps.upd
        · assumption
        · rfl
      clear_value v2
      with_reducible refine Keeps.ite ?_ ?_
      · with_reducible apply State.takeDown_keeps
        assumption
      · assumption

theorem execTestDrainTimeout_keeps {q s : State} (hq : Keeps q s) : Runs q (execTestDrainTimeout s) := by
  unfold execTestDrainTimeout
  with_reducible apply Runs.done
  split
  · assumption
  · split
    · assumption
    · with_reducible refine Keeps.ite ?_ ?_
      · assumption
      · extract_lets +onlyGivenNames v1
        have hv1 : Keeps q v1 := by
          unfold v1
          split
          · with_reducible apply State.setSlotState_keeps
            assumption
          · assumption
        clear_value v1
        with_reducible apply State.endCmd_keeps
        with_reducible apply State.clearTest_keeps
        assumption

theorem State.judgeUnit_keeps {q s : State} (hq : Keeps q s) (u : Nat) (v : TestVerdict) : Keeps q (State.judgeUnit s u v) := by
  unfold State.judgeUnit
  extract_lets +onlyGivenNames v1
  clear_value v1
  extract_lets +onlyGivenNames v2
  have hv2 : Keeps q v2 := by
    unfold v2
    with_reducible apply Keeps.upd
    · assumption
    · rfl
  clear_value v2
  split
  · assumption
  · with_reducible apply State.raise_keeps
    with_reducible apply State.faultLog_keeps
    assumption

theorem execTestDone_keeps {q s : State} (hq : Keeps q s) (verdict : TestVerdict) : Runs q (execTestDone verdict s) := by
  unfold execTestDone
  with_reducible apply Runs.done
  split
  · assumption
  · split
    · assumption
    · extract_lets +onlyGivenNames v1
      clear_value v1
      with_reducible refine Keeps.ite ?_ ?_
      · assumption
      · extract_lets +onlyGivenNames v2
        have hv2 : Keeps q v2 := by
          unfold v2
          with_reducible refine Keeps.ite ?_ ?_
          · with_reducible apply State.judgeClu_keeps
            assumption
          · with_reducible apply State.judgeUnit_keeps
            assumption
        clear_value v2
        extract_lets +onlyGivenNames v3
        clear_value v3
        with_reducible apply State.raiseEvent_keeps
        with_reducible apply State.endCmd_keeps
        with_reducible apply State.clearTest_keeps
        assumption

theorem State.dropTestOf_keeps {q s : State} (hq : Keeps q s) (p : Nat) : Keeps q (State.dropTestOf s p) := by
  unfold State.dropTestOf
  split
  · with_reducible refine Keeps.ite ?_ ?_
    · with_reducible apply State.clearTest_keeps
      with_reducible apply State.untrim_keeps
      assumption
    · assumption
  · assumption

theorem execIntCluRetire_keeps {q s : State} (hq : Keeps q s) (a : Acc) : Runs q (execIntCluRetire a s) := by
  unfold execIntCluRetire
  with_reducible apply Runs.done
  with_reducible refine Keeps.ite ?_ ?_
  · assumption
  · extract_lets +onlyGivenNames v1
    clear_value v1
    split
    · with_reducible apply State.makeRetired_keeps
      assumption
    · with_reducible apply State.dropTestOf_keeps
      with_reducible apply State.makeRetired_keeps
      assumption
    · with_reducible apply State.ignored_keeps
      assumption

theorem execIntCluSuspect_keeps {q s : State} (hq : Keeps q s) (a : Acc) : Runs q (execIntCluSuspect a s) := by
  unfold execIntCluSuspect
  with_reducible apply Runs.done
  with_reducible refine Keeps.ite ?_ ?_
  · assumption
  · extract_lets +onlyGivenNames v1
    clear_value v1
    split
    · with_reducible apply State.makeSuspect_keeps
      assumption
    · with_reducible apply State.ignored_keeps
      assumption

theorem State.setAcc_keeps {q s : State} (hq : Keeps q s) (a : Acc) (v : AccState) : Keeps q (State.setAcc s a v) := by
  unfold State.setAcc
  split
  · with_reducible apply Keeps.updReg
    · assumption
    · rfl
    · rfl
  · with_reducible apply Keeps.updReg
    · assumption
    · rfl
    · rfl

theorem execIntLogSnap_keeps {q s : State} (hq : Keeps q s) (a : Acc) (index : Nat) : Runs q (execIntLogSnap a index s) := by
  unfold execIntLogSnap
  with_reducible apply Runs.done
  with_reducible refine Keeps.ite ?_ ?_
  · assumption
  · extract_lets +onlyGivenNames v1
    have hv1 : Keeps q v1 := by
      unfold v1
      with_reducible apply State.fldPut_keeps
      assumption
    clear_value v1
    with_reducible apply State.setAcc_keeps
    assumption

theorem execFaultLogRecordWrite_keeps {q s : State} (hq : Keeps q s) : Runs q (execFaultLogRecordWrite s) := by
  unfold execFaultLogRecordWrite
  with_reducible apply Runs.done
  split
  · assumption
  · with_reducible refine Keeps.ite ?_ ?_
    · assumption
    · extract_lets +onlyGivenNames v1
      clear_value v1
      with_reducible apply Keeps.upd
      · assumption
      · rfl

theorem State.freeUpdate_keeps {q s : State} (hq : Keeps q s) : Keeps q (State.freeUpdate s) := by
  unfold State.freeUpdate
  with_reducible refine Keeps.foldl ?_ ?_
  · assumption
  · intro x1 x2 x3
    with_reducible apply State.freeFrame_keeps
    assumption

theorem State.endUpdate_keeps {q s : State} (hq : Keeps q s) (code : Nat) : Keeps q (State.endUpdate s code) := by
  unfold State.endUpdate
  with_reducible refine Keeps.ite ?_ ?_
  · assumption
  · with_reducible apply State.raise_keeps
    extract_lets +onlyGivenNames v1
    have hv1 : Keeps q v1 := by
      unfold v1
      with_reducible apply State.freeUpdate_keeps
      assumption
    clear_value v1
    with_reducible apply Keeps.upd
    · assumption
    · rfl

theorem State.sensorFault_keeps {q s : State} (hq : Keeps q s) : Keeps q (State.sensorFault s) := by
  unfold State.sensorFault
  with_reducible apply State.raise_keeps
  assumption

theorem State.supplyRelease_keeps {q s : State} (hq : Keeps q s) (bit : Nat) : Keeps q (State.supplyRelease s bit) := by
  unfold State.supplyRelease
  with_reducible apply State.raiseEvent_keeps
  with_reducible apply State.statusSet_keeps
  assumption

theorem State.inhibitStep_keeps {q s : State} (hq : Keeps q s) : Keeps q (State.inhibitStep s) := by
  unfold State.inhibitStep
  extract_lets +onlyGivenNames v1
  clear_value v1
  with_reducible refine Keeps.ite ?_ ?_
  · with_reducible apply State.endUpdate_keeps
    with_reducible apply State.raise_keeps
    with_reducible apply Keeps.upd
    · assumption
    · rfl
  · with_reducible refine Keeps.ite ?_ ?_
    · with_reducible apply State.tidy_keeps
      with_reducible apply State.supplyRelease_keeps
      with_reducible apply Keeps.upd
      · assumption
      · rfl
    · assumption

theorem State.supplyStep_keeps {q s : State} (hq : Keeps q s) : Keeps q (State.supplyStep s) := by
  unfold State.supplyStep
  extract_lets +onlyGivenNames v1
  have hv1 : Keeps q v1 := by
    unfold v1
    with_reducible apply State.inhibitStep_keeps
    assumption
  clear_value v1
  extract_lets +onlyGivenNames v2
  clear_value v2
  extract_lets +onlyGivenNames v3
  clear_value v3
  extract_lets +onlyGivenNames v4
  have hv4 : Keeps q v4 := by
    unfold v4
    with_reducible refine Keeps.ite ?_ ?_
    · with_reducible apply Keeps.upd
      · assumption
      · rfl
    · with_reducible refine Keeps.ite ?_ ?_
      · with_reducible apply Keeps.upd
        · assumption
        · rfl
      · assumption
  clear_value v4
  with_reducible refine Keeps.ite ?_ ?_
  · with_reducible apply State.controlledStop_keeps
    assumption
  · assumption

theorem execInputMeterSample_keeps {q s : State} (hq : Keeps q s) (mv : Int) (tenMa : Int) : Runs q (execInputMeterSample mv tenMa s) := by
  unfold execInputMeterSample
  with_reducible apply Runs.done
  with_reducible refine Keeps.ite ?_ ?_
  · assumption
  · with_reducible refine Keeps.ite ?_ ?_
    · with_reducible apply State.sensorFault_keeps
      assumption
    · extract_lets +onlyGivenNames v1
      clear_value v1
      extract_lets +onlyGivenNames v2
      clear_value v2
      with_reducible apply State.supplyStep_keeps
      with_reducible apply Keeps.upd
      · assumption
      · rfl

theorem execMeterTimeout_keeps {q s : State} (hq : Keeps q s) (tenMs : Bool) : Runs q (execMeterTimeout tenMs s) := by
  unfold execMeterTimeout
  with_reducible apply Runs.done
  with_reducible refine Keeps.ite ?_ ?_
  · assumption
  · extract_lets +onlyGivenNames v1
    clear_value v1
    extract_lets +onlyGivenNames v2
    have hv2 : Keeps q v2 := by
      unfold v2
      with_reducible refine Keeps.ite ?_ ?_
      · assumption
      · with_reducible apply State.sensorFault_keeps
        with_reducible apply State.raise_keeps
        with_reducible apply Keeps.upd
        · assumption
        · rfl
    clear_value v2
    extract_lets +onlyGivenNames v3
    have hv3 : Keeps q v3 := by
      unfold v3
      with_reducible apply State.supplyStep_keeps
      assumption
    clear_value v3
    with_reducible refine Keeps.ite ?_ ?_
    · with_reducible apply State.controlledStop_keeps
      assumption
    · assumption

theorem State.thermalStep_keeps {q s : State} (hq : Keeps q s) (k : Nat) : Keeps q (State.thermalStep s k) := by
  unfold State.thermalStep
  exact Keeps.ite (State.controlledStop_keeps (Keeps.upd hq rfl)) (Keeps.upd hq rfl)

theorem State.setTemp_keeps {q s : State} (hq : Keeps q s) (k : Nat) (r : Samples) : Keeps q (State.setTemp s k r) := by
  unfold State.setTemp
  with_reducible apply Keeps.upd
  · assumption
  · rfl

theorem execTempSensorSample_keeps {q s : State} (hq : Keeps q s) (sensor : Nat) (quarters : Int) : Runs q (execTempSensorSample sensor quarters s) := by
  unfold execTempSensorSample
  with_reducible apply Runs.done
  with_reducible refine Keeps.ite ?_ ?_
  · assumption
  · with_reducible refine Keeps.ite ?_ ?_
    · with_reducible apply State.sensorFault_keeps
      assumption
    · extract_lets +onlyGivenNames v1
      clear_value v1
      with_reducible apply State.thermalStep_keeps
      with_reducible apply State.setTemp_keeps
      assumption

theorem execTempSensorTimeout_keeps {q s : State} (hq : Keeps q s) (sensor : Nat) : Runs q (execTempSensorTimeout sensor s) := by
  unfold execTempSensorTimeout
  with_reducible apply Runs.done
  with_reducible refine Keeps.ite ?_ ?_
  · assumption
  · with_reducible apply State.thermalStep_keeps
    with_reducible apply State.sensorFault_keeps
    with_reducible apply State.setTemp_keeps
    assumption

theorem State.setVolt_keeps {q s : State} (hq : Keeps q s) (k : Nat) (r : Samples) : Keeps q (State.setVolt s k r) := by
  unfold State.setVolt
  with_reducible apply Keeps.upd
  · assumption
  · rfl

theorem execVoltageMonitorSample_keeps {q s : State} (hq : Keeps q s) (monitor : Nat) (mv : Int) : Runs q (execVoltageMonitorSample monitor mv s) := by
  unfold execVoltageMonitorSample
  with_reducible apply Runs.done
  with_reducible refine Keeps.ite ?_ ?_
  · assumption
  · extract_lets +onlyGivenNames v1
    clear_value v1
    with_reducible refine Keeps.ite ?_ ?_
    · with_reducible apply State.sensorFault_keeps
      assumption
    · extract_lets +onlyGivenNames v2
      clear_value v2
      extract_lets +onlyGivenNames v3
      clear_value v3
      extract_lets +onlyGivenNames v4
      clear_value v4
      extract_lets +onlyGivenNames v5
      have hv5 : Keeps q v5 := by
        unfold v5
        with_reducible apply State.setVolt_keeps
        assumption
      clear_value v5
      extract_lets +onlyGivenNames v6
      have hv6 : Keeps q v6 := by
        unfold v6
        with_reducible refine Keeps.ite ?_ ?_
        · with_reducible apply State.raise_keeps
          assumption
        · assumption
      clear_value v6
      with_reducible refine Keeps.ite ?_ ?_
      · with_reducible apply State.controlledStop_keeps
        assumption
      · assumption

theorem execVoltageMonitorTimeout_keeps {q s : State} (hq : Keeps q s) (monitor : Nat) : Runs q (execVoltageMonitorTimeout monitor s) := by
  unfold execVoltageMonitorTimeout
  with_reducible apply Runs.done
  with_reducible refine Keeps.ite ?_ ?_
  · assumption
  · with_reducible apply State.raise_keeps
    with_reducible apply State.sensorFault_keeps
    with_reducible apply State.setVolt_keeps
    assumption

theorem State.setProc_keeps {q s : State} (hq : Keeps q s) (k : Nat) (r : Samples) : Keeps q (State.setProc s k r) := by
  unfold State.setProc
  with_reducible apply Keeps.upd
  · assumption
  · rfl

theorem execProcessMonitorSample_keeps {q s : State} (hq : Keeps q s) (slot : Nat) (count : Nat) : Runs q (execProcessMonitorSample slot count s) := by
  unfold execProcessMonitorSample
  with_reducible apply Runs.done
  with_reducible refine Keeps.ite ?_ ?_
  · assumption
  · with_reducible refine Keeps.ite ?_ ?_
    · with_reducible apply State.sensorFault_keeps
      assumption
    · with_reducible apply State.setProc_keeps
      assumption

theorem execProcessMonitorTimeout_keeps {q s : State} (hq : Keeps q s) (slot : Nat) : Runs q (execProcessMonitorTimeout slot s) := by
  unfold execProcessMonitorTimeout
  with_reducible apply Runs.done
  with_reducible refine Keeps.ite ?_ ?_
  · assumption
  · with_reducible apply State.sensorFault_keeps
    with_reducible apply State.setProc_keeps
    assumption

theorem State.powerOff_keeps {q s : State} (hq : Keeps q s) : Keeps q (State.powerOff s) :=
  ⟨hq.pending, fun c => ⟨Memory.wf_filter (hq.canon c).mem _, rfl, rfl, rfl, rfl, rfl, rfl, rfl, rfl, rfl, rfl, rfl, List.Pairwise.nil⟩, hq.out, hq.free⟩

theorem execRailsOff_keeps {q s : State} (hq : Keeps q s) : Runs q (execRailsOff s) := by
  unfold execRailsOff
  with_reducible apply Runs.done
  with_reducible refine Keeps.ite ?_ ?_
  · assumption
  · with_reducible apply State.powerOff_keeps
    with_reducible apply State.emit_keeps
    assumption

theorem State.enterRecovery_keeps {q s : State} (hq : Keeps q s) (cause : Nat) (step : Nat) : Keeps q (State.enterRecovery s cause step) := by
  unfold State.enterRecovery
  with_reducible apply State.tryTrain_keeps
  with_reducible apply State.raise_keeps
  with_reducible apply State.emit_keeps
  with_reducible apply Keeps.upd
  · assumption
  · rfl

theorem State.bootTrain_keeps {q s : State} (hq : Keeps q s) (b : BootInputs) : Keeps q (State.bootTrain s b) := by
  unfold State.bootTrain
  extract_lets +onlyGivenNames v1
  clear_value v1
  extract_lets +onlyGivenNames v2
  have hv2 : Keeps q v2 := by
    unfold v2
    with_reducible refine Keeps.foldl ?_ ?_
    · assumption
    · intro x3 x4 x5
      with_reducible refine Keeps.ite ?_ ?_
      · with_reducible apply State.setTarget_keeps
        assumption
      · assumption
  clear_value v2
  extract_lets +onlyGivenNames v6
  have hv6 : Keeps q v6 := by
    unfold v6
    with_reducible refine Keeps.foldl ?_ ?_
    · assumption
    · intro x7 x8 x9
      with_reducible apply State.setTarget_keeps
      assumption
  clear_value v6
  extract_lets +onlyGivenNames v10
  clear_value v10
  extract_lets +onlyGivenNames v11
  clear_value v11
  extract_lets +onlyGivenNames v12
  have hv12 : Keeps q v12 := by
    unfold v12
    with_reducible apply Keeps.upd
    · assumption
    · rfl
  clear_value v12
  with_reducible refine Keeps.ite ?_ ?_
  · assumption
  · with_reducible apply State.raise_keeps
    assumption

theorem State.bootTrims_keeps {q s : State} (hq : Keeps q s) (b : BootInputs) (map : Nat) : Keeps q (State.bootTrims s b map) := by
  unfold State.bootTrims
  with_reducible refine Keeps.foldl ?_ ?_
  · assumption
  · intro x1 x2 x3
    with_reducible apply State.setPslot_keeps
    assumption

theorem State.bootSlots_keeps {q s : State} (hq : Keeps q s) (b : BootInputs) (map : Nat) : Keeps q (State.bootSlots s b map) := by
  unfold State.bootSlots
  extract_lets +onlyGivenNames v1
  clear_value v1
  extract_lets +onlyGivenNames v2
  have hv2 : Keeps q v2 := by
    unfold v2
    with_reducible refine Keeps.ite ?_ ?_
    · with_reducible apply State.raise_keeps
      assumption
    · assumption
  clear_value v2
  extract_lets +onlyGivenNames v3
  clear_value v3
  extract_lets +onlyGivenNames v4
  clear_value v4
  extract_lets +onlyGivenNames v5
  have hv5 : Keeps q v5 := by
    unfold v5
    with_reducible refine Keeps.foldl ?_ ?_
    · assumption
    · intro x6 x7 x8
      with_reducible apply State.setSlotState_keeps
      assumption
  clear_value v5
  extract_lets +onlyGivenNames v9
  have hv9 : Keeps q v9 := by
    unfold v9
    with_reducible refine Keeps.foldl ?_ ?_
    · assumption
    · intro x10 x11 x12
      with_reducible apply State.faultLog_keeps
      with_reducible apply State.setSlotState_keeps
      with_reducible apply Keeps.upd
      · assumption
      · rfl
  clear_value v9
  extract_lets +onlyGivenNames v13
  have hv13 : Keeps q v13 := by
    unfold v13
    with_reducible refine Keeps.foldl ?_ ?_
    · assumption
    · intro x14 x15 x16
      with_reducible apply State.setPslot_keeps
      assumption
  clear_value v13
  extract_lets +onlyGivenNames v17
  clear_value v17
  extract_lets +onlyGivenNames v18
  clear_value v18
  extract_lets +onlyGivenNames v19
  have hv19 : Keeps q v19 := by
    unfold v19
    with_reducible refine Keeps.foldl ?_ ?_
    · assumption
    · intro x20 x21 x22
      with_reducible apply State.setFrame_keeps
      assumption
  clear_value v19
  extract_lets +onlyGivenNames v23
  clear_value v23
  extract_lets +onlyGivenNames v24
  clear_value v24
  extract_lets +onlyGivenNames v25
  have hv25 : Keeps q v25 := by
    unfold v25
    with_reducible apply Keeps.upd
    · assumption
    · rfl
  clear_value v25
  with_reducible apply State.regPut_keeps
  with_reducible apply State.regPut_keeps
  with_reducible apply State.fldPut_keeps
  assumption

theorem State.bootPower_keeps {q s : State} (hq : Keeps q s) (b : BootInputs) (i : CfgImage) : Keeps q (State.bootPower s b i) := by
  unfold State.bootPower
  extract_lets +onlyGivenNames v1
  have hv1 : Keeps q v1 := by
    unfold v1
    with_reducible apply State.fldPut_keeps
    with_reducible apply State.fldPut_keeps
    assumption
  clear_value v1
  extract_lets +onlyGivenNames v2
  clear_value v2
  extract_lets +onlyGivenNames v3
  clear_value v3
  with_reducible apply Keeps.upd
  · assumption
  · rfl

theorem State.bootFab_keeps {q s : State} (hq : Keeps q s) (e : FabEntry) : Keeps q (State.bootFab s e) := by
  unfold State.bootFab
  extract_lets +onlyGivenNames v1
  clear_value v1
  extract_lets +onlyGivenNames v2
  have hv2 : Keeps q v2 := by
    unfold v2
    with_reducible apply State.setChan_keeps
    assumption
  clear_value v2
  with_reducible apply State.fldPut_keeps
  with_reducible apply State.fldPut_keeps
  with_reducible apply State.setAcct_keeps
  assumption

theorem State.bootHost_keeps {q s : State} (hq : Keeps q s) (i : CfgImage) : Keeps q (State.bootHost s i) := by
  unfold State.bootHost
  extract_lets +onlyGivenNames v1
  have hv1 : Keeps q v1 := by
    unfold v1
    with_reducible apply State.fldPut_keeps
    with_reducible refine Keeps.foldl ?_ ?_
    · assumption
    · intro x2 x3 x4
      with_reducible apply State.bootFab_keeps
      assumption
  clear_value v1
  extract_lets +onlyGivenNames v5
  clear_value v5
  extract_lets +onlyGivenNames v6
  have hv6 : Keeps q v6 := by
    unfold v6
    with_reducible apply Keeps.upd
    · assumption
    · rfl
  clear_value v6
  extract_lets +onlyGivenNames v7
  have hv7 : Keeps q v7 := by
    unfold v7
    with_reducible refine Keeps.foldl ?_ ?_
    · assumption
    · intro x8 x9 x10
      with_reducible refine Keeps.ite ?_ ?_
      · with_reducible apply State.setPortState_keeps
        assumption
      · assumption
  clear_value v7
  with_reducible apply State.tryTrain_keeps
  with_reducible apply State.emit_keeps
  with_reducible apply Keeps.upd
  · assumption
  · rfl

theorem State.boot7_keeps {q s : State} (hq : Keeps q s) (b : BootInputs) (i : CfgImage) : Keeps q (State.boot7 s b i) := by
  unfold State.boot7
  extract_lets +onlyGivenNames v1
  have hv1 : Keeps q v1 := by
    unfold v1
    with_reducible apply State.bootTrain_keeps
    assumption
  clear_value v1
  extract_lets +onlyGivenNames v2
  have hv2 : Keeps q v2 := by
    unfold v2
    with_reducible refine Keeps.ite ?_ ?_
    · with_reducible apply State.raise_keeps
      assumption
    · assumption
  clear_value v2
  with_reducible apply State.bootHost_keeps
  with_reducible apply State.bootPower_keeps
  with_reducible apply State.bootSlots_keeps
  with_reducible apply State.bootTrims_keeps
  assumption

theorem State.boot6_keeps {q s : State} (hq : Keeps q s) (b : BootInputs) (i : CfgImage) : Keeps q (State.boot6 s b i) := by
  unfold State.boot6
  split
  · with_reducible apply State.enterRecovery_keeps
    assumption
  · with_reducible refine Keeps.ite ?_ ?_
    · with_reducible apply State.boot7_keeps
      with_reducible apply Keeps.upd
      · assumption
      · rfl
    · with_reducible apply State.enterRecovery_keeps
      assumption

theorem State.boot5_keeps {q s : State} (hq : Keeps q s) (b : BootInputs) : Keeps q (State.boot5 s b) := by
  unfold State.boot5
  extract_lets +onlyGivenNames v1
  clear_value v1
  extract_lets +onlyGivenNames v2
  have hv2 : Keeps q v2 := by
    unfold v2
    with_reducible apply Keeps.upd
    · assumption
    · rfl
  clear_value v2
  with_reducible refine Keeps.ite ?_ ?_
  · assumption
  · with_reducible apply State.raise_keeps
    assumption

theorem State.boot4_keeps {q s : State} (hq : Keeps q s) (b : BootInputs) : Keeps q (State.boot4 s b) := by
  unfold State.boot4
  split
  · with_reducible apply State.enterRecovery_keeps
    assumption
  · with_reducible apply State.boot6_keeps
    with_reducible apply State.boot5_keeps
    with_reducible apply Keeps.upd
    · assumption
    · rfl

theorem State.powered_keeps {q s : State} (hq : Keeps q s) (b : BootInputs) : Keeps q (State.powered s b) := by
  unfold State.powered
  extract_lets +onlyGivenNames v1
  have hv1 : Keeps q v1 := by
    unfold v1
    with_reducible apply State.powerOff_keeps
    assumption
  clear_value v1
  with_reducible apply Keeps.upd
  · assumption
  · rfl

theorem execPowerOn_keeps {q s : State} (hq : Keeps q s) (b : BootInputs) : Runs q (execPowerOn b s) := by
  unfold execPowerOn
  with_reducible apply Runs.done
  with_reducible refine Keeps.ite ?_ ?_
  · assumption
  · with_reducible refine Keeps.ite ?_ ?_
    · with_reducible apply State.powerOff_keeps
      assumption
    · with_reducible refine Keeps.ite ?_ ?_
      · with_reducible apply State.enterRecovery_keeps
        with_reducible apply State.powered_keeps
        assumption
      · with_reducible apply State.boot4_keeps
        with_reducible apply State.powered_keeps
        assumption

theorem State.secIgnored_keeps {q s : State} (hq : Keeps q s) : Keeps q (State.secIgnored s) := by
  unfold State.secIgnored
  with_reducible apply State.ignored_keeps
  assumption

theorem State.setLoad_keeps {q s : State} (hq : Keeps q s) (k : Nat) (n : Nat) (c : Nat) (ws : List W32) : Keeps q (State.setLoad s k n c ws) := by
  unfold State.setLoad
  with_reducible apply Keeps.upd
  · assumption
  · rfl

theorem execSecRecBegin_keeps {q s : State} (hq : Keeps q s) (_a : Acc) (config : Bool) : Runs q (execSecRecBegin _a config s) := by
  unfold execSecRecBegin
  with_reducible apply Runs.done
  with_reducible refine Keeps.ite ?_ ?_
  · assumption
  · with_reducible refine Keeps.ite ?_ ?_
    · with_reducible apply State.secIgnored_keeps
      assumption
    · with_reducible apply State.setLoad_keeps
      assumption

theorem execSecRecData_keeps {q s : State} (hq : Keeps q s) (_a : Acc) (_word : BitVec 32) : Runs q (execSecRecData _a _word s) := by
  unfold execSecRecData
  with_reducible apply Runs.done
  with_reducible refine Keeps.ite ?_ ?_
  · assumption
  · with_reducible refine Keeps.ite ?_ ?_
    · with_reducible apply State.secIgnored_keeps
      assumption
    · with_reducible apply State.setLoad_keeps
      assumption

theorem State.recovered_keeps {q s : State} (hq : Keeps q s) : Keeps q (State.recovered s) := by
  unfold State.recovered
  extract_lets +onlyGivenNames v1
  clear_value v1
  extract_lets +onlyGivenNames v2
  have hv2 : Keeps q v2 := by
    unfold v2
    with_reducible apply Keeps.upd
    · assumption
    · rfl
  clear_value v2
  with_reducible refine Keeps.ite ?_ ?_
  · with_reducible apply State.raiseEvent_keeps
    with_reducible apply State.resumeUnits_keeps
    with_reducible apply Keeps.upd
    · assumption
    · rfl
  · split
    · split
      · with_reducible apply State.boot6_keeps
        assumption
      · with_reducible apply State.boot4_keeps
        assumption
    · with_reducible apply State.boot4_keeps
      assumption
    · assumption

theorem State.install_keeps {q s : State} (hq : Keeps q s) (fw : Option FwImage) : Keeps q (State.install s fw).2 := by
  unfold State.install
  extract_lets +onlyGivenNames v1
  clear_value v1
  extract_lets +onlyGivenNames v2
  clear_value v2
  split
  · split
    · dsimp only
      with_reducible apply Keeps.upd
      · assumption
      · rfl
    · assumption
  · split
    · assumption
    · split
      · assumption
      · split
        · dsimp only
          with_reducible apply Keeps.upd
          · assumption
          · rfl
        · assumption

theorem execSecRecEnd_keeps {q s : State} (hq : Keeps q s) (_a : Acc) (fw : Option FwImage) : Runs q (execSecRecEnd _a fw s) := by
  unfold execSecRecEnd
  with_reducible apply Runs.done
  with_reducible refine Keeps.ite ?_ ?_
  · assumption
  · with_reducible refine Keeps.ite ?_ ?_
    · with_reducible apply State.secIgnored_keeps
      assumption
    · extract_lets +onlyGivenNames v1
      have hv1 : Keeps q v1.2 := by
        unfold v1
        with_reducible apply State.install_keeps
        assumption
      clear_value v1
      extract_lets +onlyGivenNames v2
      have hv2 : Keeps q v2 := by
        unfold v2
        with_reducible apply State.setLoad_keeps
        assumption
      clear_value v2
      with_reducible refine Keeps.ite ?_ ?_
      · with_reducible apply State.recovered_keeps
        assumption
      · assumption

theorem State.startUpdate_keeps {q s : State} (hq : Keeps q s) (op : Nat) : Keeps q (State.startUpdate s op) := by
  unfold State.startUpdate
  with_reducible refine Keeps.ite ?_ ?_
  · with_reducible apply State.secIgnored_keeps
    assumption
  · extract_lets +onlyGivenNames v1
    clear_value v1
    extract_lets +onlyGivenNames v2
    have hv2 : Keeps q v2 := by
      unfold v2
      with_reducible apply Keeps.upd
      · assumption
      · rfl
    clear_value v2
    split
    · with_reducible apply State.endUpdate_keeps
      assumption
    · extract_lets +onlyGivenNames v3
      have hv3 : Keeps q v3 := by
        unfold v3
        with_reducible refine Keeps.foldl ?_ ?_
        · assumption
        · intro x4 x5 x6
          with_reducible apply State.takeShadow_keeps
          assumption
      clear_value v3
      with_reducible refine Keeps.ite ?_ ?_
      · with_reducible apply State.endUpdate_keeps
        assumption
      · assumption

theorem execSecUpdFirmware_keeps {q s : State} (hq : Keeps q s) (_a : Acc) : Runs q (execSecUpdFirmware _a s) := by
  unfold execSecUpdFirmware
  with_reducible apply Runs.done
  with_reducible refine Keeps.ite ?_ ?_
  · assumption
  · with_reducible apply State.startUpdate_keeps
    assumption

theorem execSecUpdConfig_keeps {q s : State} (hq : Keeps q s) (_a : Acc) : Runs q (execSecUpdConfig _a s) := by
  unfold execSecUpdConfig
  with_reducible apply Runs.done
  with_reducible refine Keeps.ite ?_ ?_
  · assumption
  · with_reducible apply State.startUpdate_keeps
    assumption

theorem State.losePartition_keeps {q s : State} (hq : Keeps q s) : Keeps q (State.losePartition s) := by
  unfold State.losePartition
  with_reducible refine Keeps.ite ?_ ?_
  · with_reducible apply Keeps.upd
    · assumption
    · rfl
  · with_reducible apply Keeps.upd
    · assumption
    · rfl

theorem State.judgeUpdate_keeps {q s : State} (hq : Keeps q s) (r : UpdateResult) : Keeps q (State.judgeUpdate s r) := by
  unfold State.judgeUpdate
  split
  · with_reducible refine Keeps.ite ?_ ?_
    · with_reducible apply State.endUpdate_keeps
      assumption
    · with_reducible refine Keeps.ite ?_ ?_
      · with_reducible apply State.endUpdate_keeps
        with_reducible apply Keeps.upd
        · assumption
        · rfl
      · with_reducible apply State.endUpdate_keeps
        assumption
  · with_reducible refine Keeps.ite ?_ ?_
    · with_reducible apply State.endUpdate_keeps
      with_reducible apply Keeps.upd
      · assumption
      · rfl
    · with_reducible apply State.endUpdate_keeps
      assumption
  · with_reducible apply State.endUpdate_keeps
    assumption
  · with_reducible apply State.endUpdate_keeps
    assumption
  · with_reducible apply State.endUpdate_keeps
    assumption
  · with_reducible apply State.endUpdate_keeps
    with_reducible apply State.losePartition_keeps
    assumption
  · with_reducible apply State.endUpdate_keeps
    assumption

theorem execUpdateComplete_keeps {q s : State} (hq : Keeps q s) (r : UpdateResult) : Runs q (execUpdateComplete r s) := by
  unfold execUpdateComplete
  with_reducible apply Runs.done
  with_reducible refine Keeps.ite ?_ ?_
  · assumption
  · with_reducible apply State.judgeUpdate_keeps
    assumption

theorem State.warmStart_keeps {q s : State} (hq : Keeps q s) : Keeps q (State.warmStart s) := by
  unfold State.warmStart
  with_reducible refine Keeps.ite ?_ ?_
  · assumption
  · with_reducible apply Keeps.upd
    · assumption
    · rfl

theorem execSecReset_keeps {q s : State} (hq : Keeps q s) (_a : Acc) (key : BitVec 8) (warm : Bool) : Runs q (execSecReset _a key warm s) := by
  unfold execSecReset
  with_reducible apply Runs.done
  with_reducible refine Keeps.ite ?_ ?_
  · assumption
  · with_reducible refine Keeps.ite ?_ ?_
    · with_reducible apply State.warmStart_keeps
      assumption
    · with_reducible apply State.secIgnored_keeps
      assumption

theorem execWatchdogExpiry_keeps {q s : State} (hq : Keeps q s) : Runs q (execWatchdogExpiry s) := by
  unfold execWatchdogExpiry
  with_reducible apply Runs.done
  with_reducible refine Keeps.ite ?_ ?_
  · assumption
  · with_reducible apply State.warmStart_keeps
    with_reducible apply State.raise_keeps
    assumption

theorem execWarmResetEnd_keeps {q s : State} (hq : Keeps q s) (fw : Option FwImage) : Runs q (execWarmResetEnd fw s) := by
  unfold execWarmResetEnd
  with_reducible apply Runs.done
  with_reducible refine Keeps.ite ?_ ?_
  · assumption
  · split
    · with_reducible apply State.enterRecovery_keeps
      assumption
    · with_reducible refine Keeps.ite ?_ ?_
      · with_reducible apply State.raiseEvent_keeps
        with_reducible apply State.resumeUnits_keeps
        with_reducible apply Keeps.upd
        · assumption
        · rfl
      · with_reducible apply State.enterRecovery_keeps
        assumption

end Sys2Proof.Machine
end

