-- ==== Sys2Proof/Laws/KeepsRegs.lean ====
section
/-! SUPPORT. `Keeps` for channels, issue, time, register accesses, the sideband and the tick. -/

namespace Sys2Proof.Machine
open Sys2Proof

theorem State.resetChanRegs_keeps {q s : State} (hq : Keeps q s) (c : Nat) : Keeps q (State.resetChanRegs s c) := by
  unfold State.resetChanRegs
  extract_lets +onlyGivenNames v1
  clear_value v1
  extract_lets +onlyGivenNames v2
  have hv2 : Keeps q v2 := by
    unfold v2
    with_reducible refine Keeps.foldl ?_ ?_
    · assumption
    · intro x3 x4 x5
      with_reducible apply State.regPut_keeps
      assumption
  clear_value v2
  with_reducible apply Keeps.updReg
  · assumption
  · rfl
  · rfl

theorem State.chanOp_keeps {q s : State} (hq : Keeps q s) (a : Acc) (gen : BitVec 20) (f : State → Nat → Option State)
    (hf : ∀ t c, Keeps q t → KeepsO q (f t c)) : Keeps q (State.chanOp s a gen f) := by
  unfold State.chanOp
  refine Keeps.ite (State.chanIgnored_keeps hq _) ?_
  split
  · rename_i h
    exact (hf _ _ hq).use h
  · exact State.chanIgnored_keeps hq _

theorem State.keepWindow_keeps {q s : State} (hq : Keeps q s) (c : Nat) : Keeps q (State.keepWindow s c) := by
  unfold State.keepWindow
  with_reducible apply Keeps.upd
  · assumption
  · rfl

theorem execCreate_keeps {q s : State} (hq : Keeps q s) (a : Acc) (_gen : BitVec 20) : Runs q (execCreate a _gen s) := by
  unfold execCreate
  with_reducible apply Runs.done
  with_reducible refine Keeps.ite ?_ ?_
  · assumption
  · extract_lets +onlyGivenNames v1
    clear_value v1
    extract_lets +onlyGivenNames v2
    clear_value v2
    with_reducible refine Keeps.ite ?_ ?_
    · with_reducible apply State.chanIgnored_keeps
      assumption
    · extract_lets +onlyGivenNames v3
      have hv3 : Keeps q v3 := by
        unfold v3
        with_reducible apply State.resetChanRegs_keeps
        assumption
      clear_value v3
      extract_lets +onlyGivenNames v4
      clear_value v4
      extract_lets +onlyGivenNames v5
      have hv5 : Keeps q v5 := by
        unfold v5
        with_reducible apply State.setAcct_keeps
        with_reducible apply State.setCq_keeps
        with_reducible apply State.keepWindow_keeps
        assumption
      clear_value v5
      with_reducible apply State.setChan_keeps
      assumption

theorem execActivate_keeps {q s : State} (hq : Keeps q s) (a : Acc) (gen : BitVec 20) : Runs q (execActivate a gen s) := by
  unfold execActivate
  with_reducible apply Runs.done
  with_reducible refine Keeps.ite ?_ ?_
  · assumption
  · with_reducible apply State.chanOp_keeps
    · assumption
    · intro x1 x2 x3
      extract_lets +onlyGivenNames v4
      clear_value v4
      split
      · with_reducible apply KeepsO.some
        with_reducible apply State.pumpRing_keeps
        with_reducible apply State.setChan_keeps
        assumption
      · with_reducible exact KeepsO.none

theorem execPause_keeps {q s : State} (hq : Keeps q s) (a : Acc) (gen : BitVec 20) : Runs q (execPause a gen s) := by
  unfold execPause
  with_reducible apply Runs.done
  with_reducible refine Keeps.ite ?_ ?_
  · assumption
  · with_reducible apply State.chanOp_keeps
    · assumption
    · intro x1 x2 x3
      extract_lets +onlyGivenNames v4
      clear_value v4
      split
      · with_reducible apply KeepsO.some
        with_reducible apply State.dropReads_keeps
        with_reducible apply State.setChan_keeps
        assumption
      · with_reducible exact KeepsO.none

theorem State.resumeChan_keeps {q s : State} (hq : Keeps q s) (c : Nat) (reattach : Bool) : Keeps q (State.resumeChan s c reattach) := by
  unfold State.resumeChan
  extract_lets +onlyGivenNames v1
  clear_value v1
  extract_lets +onlyGivenNames v2
  clear_value v2
  extract_lets +onlyGivenNames v3
  have hv3 : Keeps q v3 := by
    unfold v3
    with_reducible apply State.setChan_keeps
    assumption
  clear_value v3
  extract_lets +onlyGivenNames v4
  have hv4 : Keeps q v4 := by
    unfold v4
    with_reducible refine Keeps.ite ?_ ?_
    · with_reducible apply State.rewriteStored_keeps
      assumption
    · with_reducible apply State.release_keeps
      assumption
  clear_value v4
  with_reducible apply State.grantCtxs_keeps
  with_reducible apply State.pumpRing_keeps
  assumption

theorem execResume_keeps {q s : State} (hq : Keeps q s) (a : Acc) (gen : BitVec 20) : Runs q (execResume a gen s) := by
  unfold execResume
  with_reducible apply Runs.done
  with_reducible refine Keeps.ite ?_ ?_
  · assumption
  · with_reducible apply State.chanOp_keeps
    · assumption
    · intro x1 x2 x3
      split
      · split
        · with_reducible apply KeepsO.some
          with_reducible apply State.resumeChan_keeps
          assumption
        · with_reducible exact KeepsO.none
      · with_reducible exact KeepsO.none

theorem execDestroy_keeps {q s : State} (hq : Keeps q s) (a : Acc) (gen : BitVec 20) : Runs q (execDestroy a gen s) := by
  unfold execDestroy
  with_reducible apply Runs.done
  with_reducible refine Keeps.ite ?_ ?_
  · assumption
  · with_reducible apply State.chanOp_keeps
    · assumption
    · intro x1 x2 x3
      extract_lets +onlyGivenNames v4
      clear_value v4
      extract_lets +onlyGivenNames v5
      have hv5 : Keeps q v5 := by
        unfold v5
        with_reducible apply State.dropReads_keeps
        with_reducible apply State.setChan_keeps
        assumption
      clear_value v5
      extract_lets +onlyGivenNames v6
      split
      · with_reducible apply KeepsO.some
        with_reducible apply State.setChan_keeps
        assumption
      · with_reducible apply KeepsO.some
        unfold v6
        extract_lets +onlyGivenNames v7
        have hv7 : Keeps q v7 := by
          unfold v7
          with_reducible refine Keeps.ite ?_ ?_
          · with_reducible apply State.rewriteStored_keeps
            assumption
          · assumption
        clear_value v7
        with_reducible apply State.drainDone_keeps
        assumption
      · with_reducible apply KeepsO.some
        unfold v6
        extract_lets +onlyGivenNames v8
        have hv8 : Keeps q v8 := by
          unfold v8
          with_reducible refine Keeps.ite ?_ ?_
          · with_reducible apply State.rewriteStored_keeps
            assumption
          · assumption
        clear_value v8
        with_reducible apply State.drainDone_keeps
        assumption
      · with_reducible exact KeepsO.none

theorem execReattach_keeps {q s : State} (hq : Keeps q s) (a : Acc) (gen : BitVec 20) : Runs q (execReattach a gen s) := by
  unfold execReattach
  with_reducible apply Runs.done
  with_reducible refine Keeps.ite ?_ ?_
  · assumption
  · with_reducible apply State.chanOp_keeps
    · assumption
    · intro x1 x2 x3
      extract_lets +onlyGivenNames v4
      clear_value v4
      split
      · with_reducible apply KeepsO.some
        with_reducible apply State.setChan_keeps
        assumption
      · with_reducible exact KeepsO.none

theorem execDoorbell_keeps {q s : State} (hq : Keeps q s) (chan : Nat) (tail : BitVec 32) : Runs q (execDoorbell chan tail s) := by
  unfold execDoorbell
  with_reducible apply Runs.done
  extract_lets +onlyGivenNames v1
  clear_value v1
  with_reducible refine Keeps.ite ?_ ?_
  · assumption
  · extract_lets +onlyGivenNames v2
    clear_value v2
    extract_lets +onlyGivenNames v3
    have hv3 : Keeps q v3 := by
      unfold v3
      with_reducible refine Keeps.ite ?_ ?_
      · with_reducible apply State.raise_keeps
        with_reducible apply State.setChan_keeps
        assumption
      · with_reducible apply State.setChan_keeps
        assumption
    clear_value v3
    with_reducible refine Keeps.ite ?_ ?_
    · with_reducible apply State.resumeChan_keeps
      assumption
    · with_reducible apply State.pumpRing_keeps
      assumption

theorem State.acceptRing_keeps {q s : State} (hq : Keeps q s) (c : Nat) (slot : List Byte) (ext : List Byte) : Keeps q (State.acceptRing s c slot ext) := by
  unfold State.acceptRing
  extract_lets +onlyGivenNames v1
  clear_value v1
  extract_lets +onlyGivenNames v2
  have hv2 : Keeps q v2 := by
    unfold v2
    with_reducible apply State.extReads_keeps
    with_reducible apply State.dropReads_keeps
    with_reducible apply State.setChan_keeps
    assumption
  clear_value v2
  with_reducible apply State.pumpRing_keeps
  with_reducible apply State.acceptSlot_keeps
  assumption

theorem execRingReadReturn_keeps {q s : State} (hq : Keeps q s) (chan : Nat) (slot : List Byte) (ext : List Byte) : Runs q (execRingReadReturn chan slot ext s) := by
  unfold execRingReadReturn
  with_reducible apply Runs.done
  with_reducible refine Keeps.ite ?_ ?_
  · assumption
  · extract_lets +onlyGivenNames v1
    clear_value v1
    split
    · assumption
    · extract_lets +onlyGivenNames v2
      clear_value v2
      extract_lets +onlyGivenNames v3
      have hv3 : Keeps q v3 := by
        unfold v3
        with_reducible apply Keeps.upd
        · assumption
        · rfl
      clear_value v3
      extract_lets +onlyGivenNames v4
      clear_value v4
      extract_lets +onlyGivenNames v5
      clear_value v5
      with_reducible refine Keeps.ite ?_ ?_
      · assumption
      · with_reducible refine Keeps.ite ?_ ?_
        · with_reducible apply State.dropReads_keeps
          with_reducible apply State.setChan_keeps
          assumption
        · split
          · with_reducible refine Keeps.ite ?_ ?_
            · with_reducible apply State.acceptRing_keeps
              assumption
            · with_reducible apply State.setChan_keeps
              assumption
          · with_reducible refine Keeps.ite ?_ ?_
            · with_reducible apply State.acceptRing_keeps
              assumption
            · with_reducible apply State.setChan_keeps
              assumption

theorem execRingRereadIssue_keeps {q s : State} (hq : Keeps q s) (chan : Nat) : Runs q (execRingRereadIssue chan s) := by
  unfold execRingRereadIssue
  with_reducible apply Runs.done
  extract_lets +onlyGivenNames v1
  clear_value v1
  split
  · assumption
  · with_reducible refine Keeps.ite ?_ ?_
    · with_reducible apply State.issueRing_keeps
      with_reducible apply State.setChan_keeps
      assumption
    · assumption

theorem execDoorbellStale_keeps {q s : State} (hq : Keeps q s) (chan : Nat) : Runs q (execDoorbellStale chan s) := by
  unfold execDoorbellStale
  with_reducible apply Runs.done
  extract_lets +onlyGivenNames v1
  clear_value v1
  split
  · assumption
  · with_reducible refine Keeps.ite ?_ ?_
    · extract_lets +onlyGivenNames v2
      have hv2 : Keeps q v2 := by
        unfold v2
        with_reducible apply State.dropReads_keeps
        with_reducible apply State.setChan_keeps
        assumption
      clear_value v2
      extract_lets +onlyGivenNames v3
      clear_value v3
      extract_lets +onlyGivenNames v4
      have hv4 : Keeps q v4 := by
        unfold v4
        with_reducible apply State.raise_keeps
        with_reducible apply State.hostRecord_keeps
        assumption
      clear_value v4
      with_reducible refine Keeps.ite ?_ ?_
      · with_reducible apply State.resumeChan_keeps
        assumption
      · assumption
    · assumption

theorem execCqHead_keeps {q s : State} (hq : Keeps q s) (chan : Nat) (count : BitVec 32) : Runs q (execCqHead chan count s) := by
  unfold execCqHead
  with_reducible apply Runs.done
  extract_lets +onlyGivenNames v1
  clear_value v1
  with_reducible refine Keeps.ite ?_ ?_
  · assumption
  · extract_lets +onlyGivenNames v2
    clear_value v2
    with_reducible refine Keeps.ite ?_ ?_
    · with_reducible apply State.chanIgnored_keeps
      assumption
    · extract_lets +onlyGivenNames v3
      have hv3 : Keeps q v3 := by
        unfold v3
        with_reducible apply State.release_keeps
        with_reducible apply State.setCq_keeps
        assumption
      clear_value v3
      with_reducible apply State.pumpRing_keeps
      with_reducible apply State.drainDone_keeps
      assumption

theorem State.runGfe_keeps {q s : State} (hq : Keeps q s) (op : Nat) (d : Cmd) : Keeps q (State.runGfe op s d) := by
  unfold State.runGfe
  split
  · with_reducible apply State.runNop_keeps
    assumption
  · with_reducible apply State.runTimestamp_keeps
    assumption
  · with_reducible apply State.runTestOnDemand_keeps
    assumption
  · with_reducible apply State.runFenceSignal_keeps
    assumption
  · with_reducible apply State.runFenceWait_keeps
    assumption
  · with_reducible apply State.runHostFence_keeps
    assumption
  · with_reducible apply State.runLaunchList_keeps
    assumption
  · with_reducible apply State.runPatchList_keeps
    assumption
  · with_reducible apply State.runObjCreate_keeps
    assumption
  · with_reducible apply State.runObjFree_keeps
    assumption
  · with_reducible apply State.runMove_keeps
    assumption
  · with_reducible apply State.runClone_keeps
    assumption
  · with_reducible apply State.runScaleSet_keeps
    assumption
  · assumption

theorem State.issueListed_keeps {q s : State} (hq : Keeps q s) (l : Nat) : Keeps q (State.issueListed s l) := by
  unfold State.issueListed
  split
  · assumption
  · with_reducible refine Keeps.ite ?_ ?_
    · with_reducible apply State.prep_keeps
      assumption
    · with_reducible apply State.gfeHead_keeps
      · assumption
      · intro x1 x2 x3
        with_reducible apply State.runGfe_keeps
        assumption

theorem execListSlotIssue_keeps {q s : State} (hq : Keeps q s) (launch : Nat) : Runs q (execListSlotIssue launch s) := by
  unfold execListSlotIssue
  with_reducible apply Runs.done
  with_reducible refine Keeps.ite ?_ ?_
  · assumption
  · with_reducible apply State.issueListed_keeps
    assumption

theorem State.enterTs_keeps {q s : State} (hq : Keeps q s) (st : TsState) : Keeps q (State.enterTs s st) := by
  unfold State.enterTs
  extract_lets +onlyGivenNames v1
  clear_value v1
  extract_lets +onlyGivenNames v2
  have hv2 : Keeps q v2 := by
    unfold v2
    with_reducible apply Keeps.upd
    · assumption
    · rfl
  clear_value v2
  split
  · with_reducible apply State.raise_keeps
    assumption
  · with_reducible apply State.raise_keeps
    assumption
  · assumption

theorem State.tsControl_keeps {q s : State} (hq : Keeps q s) : Keeps q (State.tsControl s) := by
  unfold State.tsControl
  with_reducible refine Keeps.ite ?_ ?_
  · with_reducible refine Keeps.ite ?_ ?_
    · assumption
    · with_reducible apply State.enterTs_keeps
      assumption
  · with_reducible refine Keeps.ite ?_ ?_
    · with_reducible apply State.enterTs_keeps
      assumption
    · assumption

theorem State.offsetSample_keeps {q s : State} (hq : Keeps q s) (ns : Int) : Keeps q (State.offsetSample s ns) := by
  unfold State.offsetSample
  with_reducible refine Keeps.ite ?_ ?_
  · with_reducible refine Keeps.ite ?_ ?_
    · with_reducible apply State.enterTs_keeps
      assumption
    · with_reducible apply Keeps.upd
      · assumption
      · rfl
  · extract_lets +onlyGivenNames v1
    clear_value v1
    extract_lets +onlyGivenNames v2
    have hv2 : Keeps q v2 := by
      unfold v2
      with_reducible apply Keeps.upd
      · assumption
      · rfl
    clear_value v2
    with_reducible refine Keeps.ite ?_ ?_
    · with_reducible apply State.enterTs_keeps
      assumption
    · assumption

theorem execPtpOffsetSample_keeps {q s : State} (hq : Keeps q s) (port : Nat) (m : PtpMsg) : Runs q (execPtpOffsetSample port m s) := by
  unfold execPtpOffsetSample
  with_reducible apply Runs.done
  with_reducible refine Keeps.ite ?_ ?_
  · assumption
  · extract_lets +onlyGivenNames v1
    have hv1 : Keeps q v1 := by
      unfold v1
      with_reducible apply Keeps.upd
      · assumption
      · rfl
    clear_value v1
    split
    · with_reducible apply State.offsetSample_keeps
      assumption
    · assumption

theorem State.selectSource_keeps {q s : State} (hq : Keeps q s) : Keeps q (State.selectSource s) := by
  unfold State.selectSource
  with_reducible apply State.tsControl_keeps
  with_reducible apply Keeps.upd
  · assumption
  · rfl

theorem execPtpAnnounce_keeps {q s : State} (hq : Keeps q s) (port : Nat) (domain : Nat) (m : PtpMaster) : Runs q (execPtpAnnounce port domain m s) := by
  unfold execPtpAnnounce
  with_reducible apply Runs.done
  with_reducible refine Keeps.ite ?_ ?_
  · assumption
  · with_reducible apply State.selectSource_keeps
    with_reducible apply Keeps.upd
    · assumption
    · rfl

theorem execPtpSampleTimeout_keeps {q s : State} (hq : Keeps q s) : Runs q (execPtpSampleTimeout s) := by
  unfold execPtpSampleTimeout
  with_reducible apply Runs.done
  with_reducible refine Keeps.ite ?_ ?_
  · assumption
  · split
    · with_reducible apply State.enterTs_keeps
      assumption
    · with_reducible apply State.enterTs_keeps
      assumption
    · assumption

theorem execAnnounceReceiptTimeout_keeps {q s : State} (hq : Keeps q s) : Runs q (execAnnounceReceiptTimeout s) := by
  unfold execAnnounceReceiptTimeout
  with_reducible apply Runs.done
  with_reducible refine Keeps.ite ?_ ?_
  · assumption
  · with_reducible apply State.selectSource_keeps
    with_reducible apply Keeps.upd
    · assumption
    · rfl

theorem execDelayReqSend_keeps {q s : State} (hq : Keeps q s) (port : Nat) : Runs q (execDelayReqSend port s) := by
  unfold execDelayReqSend
  with_reducible apply Runs.done
  with_reducible refine Keeps.ite ?_ ?_
  · assumption
  · with_reducible apply State.emit_keeps
    with_reducible apply Keeps.upd
    · assumption
    · rfl

theorem State.readLoc_keeps {q s : State} (hq : Keeps q s) (a : Acc) (l : RegLoc) : Keeps q (State.readLoc s a l).2 := by
  unfold State.readLoc
  split
  · assumption
  · split
    · assumption
    · extract_lets +onlyGivenNames v1
      clear_value v1
      split
      · assumption
      · extract_lets +onlyGivenNames v2
        clear_value v2
        split
        · assumption
        · split
          · assumption
          · extract_lets +onlyGivenNames v3
            clear_value v3
            dsimp only
            with_reducible apply State.setAcc_keeps
            assumption

theorem State.readReg_keeps {q s : State} (hq : Keeps q s) (a : Acc) (off : Nat) : Keeps q (State.readReg s a off).2 := by
  unfold State.readReg
  split
  · dsimp only
    with_reducible apply State.takeFree_keeps
    assumption
  · split
    · assumption
    · split
      · assumption
      · with_reducible apply State.readLoc_keeps
        assumption

theorem execLoRead_keeps {q s : State} (hq : Keeps q s) (a : Acc) (off : Nat) : Runs q (execLoRead a off s) := by
  unfold execLoRead
  with_reducible apply Runs.done
  with_reducible refine Keeps.ite ?_ ?_
  · assumption
  · extract_lets +onlyGivenNames v1
    have hv1 : Keeps q v1.2 := by
      unfold v1
      with_reducible apply State.readReg_keeps
      assumption
    clear_value v1
    with_reducible apply State.emit_keeps
    assumption

theorem State.noteIgnored_keeps {q s : State} (hq : Keeps q s) (a : Acc) (l : RegLoc) (r : RDef) : Keeps q (State.noteIgnored s a l r) := by
  unfold State.noteIgnored
  with_reducible apply State.ignored_keeps
  assumption

theorem State.statusClearAt_keeps {q s : State} (hq : Keeps q s) (w : Win) (item : Nat) (off : Nat) (r : RDef) (data : Nat) : Keeps q (State.statusClearAt s w item off r data) := by
  unfold State.statusClearAt
  extract_lets +onlyGivenNames v1
  with_reducible refine Keeps.ite ?_ ?_
  · with_reducible apply State.regPut_keeps
    assumption
  · assumption

theorem State.statusInjectAt_keeps {q s : State} (hq : Keeps q s) (w : Win) (item : Nat) (off : Nat) (r : RDef) (data : Nat) : Keeps q (State.statusInjectAt s w item off r data) := by
  unfold State.statusInjectAt
  with_reducible apply State.statusEvents_keeps
  with_reducible apply State.statusSet_keeps
  assumption

theorem execStatusClear_keeps {q s : State} (hq : Keeps q s) (a : Acc) (off : Nat) (data : BitVec 32) : Runs q (execStatusClear a off data s) := by
  unfold execStatusClear
  with_reducible apply Runs.done
  split
  · with_reducible apply State.statusClearAt_keeps
    assumption
  · assumption

theorem execStatusSetInject_keeps {q s : State} (hq : Keeps q s) (a : Acc) (off : Nat) (data : BitVec 32) : Runs q (execStatusSetInject a off data s) := by
  unfold execStatusSetInject
  with_reducible apply Runs.done
  split
  · with_reducible apply State.statusInjectAt_keeps
    assumption
  · assumption

theorem execStatusToggle_keeps {q s : State} (hq : Keeps q s) (a : Acc) (off : Nat) (_data : BitVec 32) : Runs q (execStatusToggle a off _data s) := by
  unfold execStatusToggle
  with_reducible apply Runs.done
  split
  · with_reducible apply State.noteIgnored_keeps
    assumption
  · assumption

theorem after_keeps {q s : State} (hq : Keeps q s) (o : Host.Outcome State Fault Refusal) (ho : Runs q o) :
    Keeps q (after o s) := by
  obtain ⟨t, rfl, h⟩ := ho
  exact h

theorem State.snapAcct_keeps {q s : State} (hq : Keeps q s) (a : Acc) (chan : Nat) (compat : Bool) : Keeps q (State.snapAcct s a chan compat) := by
  unfold State.snapAcct
  with_reducible apply State.setAcc_keeps
  assumption

theorem execAcctSnap_keeps {q s : State} (hq : Keeps q s) (a : Acc) (chan : Nat) (compat : Bool) : Runs q (execAcctSnap a chan compat s) := by
  unfold execAcctSnap
  with_reducible apply Runs.done
  with_reducible refine Keeps.ite ?_ ?_
  · assumption
  · with_reducible apply State.snapAcct_keeps
    with_reducible apply State.fldPut_keeps
    with_reducible apply State.fldPut_keeps
    assumption

theorem State.fenceIgnored_keeps {q s : State} (hq : Keeps q s) : Keeps q (State.fenceIgnored s) := by
  unfold State.fenceIgnored
  with_reducible apply State.ignored_keeps
  assumption

theorem execGfeFenceReset_keeps {q s : State} (hq : Keeps q s) (a : Acc) (gen : BitVec 20) : Runs q (execGfeFenceReset a gen s) := by
  unfold execGfeFenceReset
  with_reducible apply Runs.done
  with_reducible refine Keeps.ite ?_ ?_
  · assumption
  · extract_lets +onlyGivenNames v1
    clear_value v1
    extract_lets +onlyGivenNames v2
    clear_value v2
    with_reducible refine Keeps.ite ?_ ?_
    · with_reducible apply State.fenceIgnored_keeps
      assumption
    · extract_lets +onlyGivenNames v3
      clear_value v3
      extract_lets +onlyGivenNames v4
      have hv4 : Keeps q v4 := by
        unfold v4
        with_reducible apply State.fldPut_keeps
        with_reducible apply State.setFence_keeps
        assumption
      clear_value v4
      with_reducible apply Keeps.updReg
      · assumption
      · rfl
      · rfl

theorem execGfeFenceAdd_keeps {q s : State} (hq : Keeps q s) (a : Acc) (add : BitVec 32) : Runs q (execGfeFenceAdd a add s) := by
  unfold execGfeFenceAdd
  with_reducible apply Runs.done
  with_reducible refine Keeps.ite ?_ ?_
  · assumption
  · extract_lets +onlyGivenNames v1
    clear_value v1
    extract_lets +onlyGivenNames v2
    clear_value v2
    with_reducible refine Keeps.ite ?_ ?_
    · with_reducible apply State.fenceIgnored_keeps
      assumption
    · with_reducible apply State.setFenceVal_keeps
      assumption

theorem State.chanCmd_keeps {q s : State} (hq : Keeps q s) (a : Acc) (op : Nat) (gen : BitVec 20) : Keeps q (State.chanCmd s a op gen) := by
  unfold State.chanCmd
  split
  · with_reducible apply after_keeps
    · assumption
    · with_reducible apply execCreate_keeps
      assumption
  · with_reducible apply after_keeps
    · assumption
    · with_reducible apply execActivate_keeps
      assumption
  · with_reducible apply after_keeps
    · assumption
    · with_reducible apply execPause_keeps
      assumption
  · with_reducible apply after_keeps
    · assumption
    · with_reducible apply execResume_keeps
      assumption
  · with_reducible apply after_keeps
    · assumption
    · with_reducible apply execDestroy_keeps
      assumption
  · with_reducible apply after_keeps
    · assumption
    · with_reducible apply execReattach_keeps
      assumption
  · with_reducible apply State.chanIgnored_keeps
    assumption

theorem State.startOps_keeps {q s : State} (hq : Keeps q s) (a : Acc) (l : RegLoc) (data : Nat) : Keeps q (State.startOps s a l data) := by
  unfold State.startOps
  extract_lets +onlyGivenNames v1
  clear_value v1
  split
  · with_reducible apply State.chanCmd_keeps
    assumption
  · with_reducible refine Keeps.ite ?_ ?_
    · with_reducible apply after_keeps
      · assumption
      · with_reducible apply execGfeFenceReset_keeps
        assumption
    · assumption
  · with_reducible apply after_keeps
    · assumption
    · with_reducible apply execGfeFenceAdd_keeps
      assumption
  · with_reducible refine Keeps.ite ?_ ?_
    · with_reducible apply State.snapAcct_keeps
      assumption
    · assumption
  · with_reducible refine Keeps.ite ?_ ?_
    · with_reducible apply after_keeps
      · assumption
      · with_reducible apply execGfeScaleClearHist_keeps
        assumption
    · assumption
  · with_reducible refine Keeps.ite ?_ ?_
    · with_reducible apply after_keeps
      · assumption
      · with_reducible apply execFoldNow_keeps
        assumption
    · assumption
  · with_reducible refine Keeps.ite ?_ ?_
    · with_reducible apply State.startMargin_keeps
      assumption
    · assumption
  · split
    · with_reducible apply after_keeps
      · assumption
      · with_reducible apply execIntCluRetire_keeps
        assumption
    · with_reducible apply after_keeps
      · assumption
      · with_reducible apply execIntCluSuspect_keeps
        assumption
    · with_reducible apply State.ignored_keeps
      assumption
  · with_reducible refine Keeps.ite ?_ ?_
    · with_reducible apply after_keeps
      · assumption
      · with_reducible apply execIntLogSnap_keeps
        assumption
    · assumption
  · split
    · with_reducible apply after_keeps
      · assumption
      · with_reducible apply execSecUpdFirmware_keeps
        assumption
    · with_reducible apply after_keeps
      · assumption
      · with_reducible apply execSecUpdConfig_keeps
        assumption
    · with_reducible apply State.secIgnored_keeps
      assumption
  · with_reducible apply after_keeps
    · assumption
    · with_reducible apply execSecReset_keeps
      assumption
  · with_reducible refine Keeps.ite ?_ ?_
    · with_reducible apply after_keeps
      · assumption
      · with_reducible apply execSecRecBegin_keeps
        assumption
    · assumption
  · with_reducible apply after_keeps
    · assumption
    · with_reducible apply execSecRecData_keeps
      assumption
  · with_reducible refine Keeps.ite ?_ ?_
    · with_reducible apply after_keeps
      · assumption
      · with_reducible apply execStrCtrlDisarm_keeps
        assumption
    · assumption
  · assumption

theorem State.applyPlan_keeps {q s : State} (hq : Keeps q s) (w : Win) (item : Nat) (off : Nat) (p : Plan) : Keeps q (State.applyPlan s w item off p) := by
  unfold State.applyPlan
  extract_lets +onlyGivenNames v1
  have hv1 : Keeps q v1 := by
    unfold v1
    with_reducible refine Keeps.foldl ?_ ?_
    · assumption
    · intro x2 x3 x4
      split
      · with_reducible refine Keeps.ite ?_ ?_
        · assumption
        · with_reducible apply State.fldPut_keeps
          assumption
      · assumption
  clear_value v1
  extract_lets +onlyGivenNames v5
  clear_value v5
  extract_lets +onlyGivenNames v6
  clear_value v6
  with_reducible refine Keeps.ite ?_ ?_
  · assumption
  · with_reducible apply State.latchT_keeps
    assumption

theorem State.fabOn_keeps {q s : State} (hq : Keeps q s) : Keeps q (State.fabOn s) := by
  unfold State.fabOn
  with_reducible apply State.pumpAll_keeps
  with_reducible apply State.moveFlows_keeps
  assumption

theorem State.afterWrite_keeps {q old s : State} (hq : Keeps q s) (w : Win) (item : Nat) (off : Nat) (p : Plan) : Keeps q (State.afterWrite old s w item off p) := by
  unfold State.afterWrite
  extract_lets +onlyGivenNames v1
  clear_value v1
  extract_lets +onlyGivenNames v2
  clear_value v2
  with_reducible refine Keeps.ite ?_ ?_
  · assumption
  · split
    · with_reducible refine Keeps.ite ?_ ?_
      · with_reducible apply State.tsControl_keeps
        assumption
      · with_reducible refine Keeps.ite ?_ ?_
        · with_reducible apply State.setChan_keeps
          assumption
        · with_reducible refine Keeps.ite ?_ ?_
          · with_reducible apply State.setChan_keeps
            assumption
          · assumption
    · with_reducible refine Keeps.ite ?_ ?_
      · with_reducible refine Keeps.ite ?_ ?_
        · with_reducible apply State.fabOn_keeps
          assumption
        · assumption
      · with_reducible refine Keeps.ite ?_ ?_
        · extract_lets +onlyGivenNames v3
          clear_value v3
          with_reducible refine Keeps.ite ?_ ?_
          · with_reducible apply after_keeps
            · assumption
            · with_reducible apply execPortEnable_keeps
              assumption
          · with_reducible apply after_keeps
            · assumption
            · with_reducible apply execPortDisable_keeps
              assumption
        · assumption
    · assumption

theorem State.writeFields_keeps {q s : State} (hq : Keeps q s) (a : Acc) (l : RegLoc) (r : RDef) (data : Nat) : Keeps q (State.writeFields s a l r data) := by
  unfold State.writeFields
  extract_lets +onlyGivenNames v1
  clear_value v1
  extract_lets +onlyGivenNames v2
  clear_value v2
  extract_lets +onlyGivenNames v3
  clear_value v3
  extract_lets +onlyGivenNames v4
  clear_value v4
  extract_lets +onlyGivenNames v5
  clear_value v5
  with_reducible refine Keeps.ite ?_ ?_
  · with_reducible apply State.noteIgnored_keeps
    assumption
  · extract_lets +onlyGivenNames v6
    have hv6 : Keeps q v6 := by
      unfold v6
      with_reducible apply State.applyPlan_keeps
      assumption
    clear_value v6
    extract_lets +onlyGivenNames v7
    have hv7 : Keeps q v7 := by
      unfold v7
      with_reducible apply State.afterWrite_keeps
      assumption
    clear_value v7
    extract_lets +onlyGivenNames v8
    have hv8 : Keeps q v8 := by
      unfold v8
      with_reducible refine Keeps.ite ?_ ?_
      · with_reducible apply State.noteIgnored_keeps
        assumption
      · assumption
    clear_value v8
    with_reducible refine Keeps.ite ?_ ?_
    · with_reducible apply State.startOps_keeps
      assumption
    · assumption

theorem State.writeLoc_keeps {q s : State} (hq : Keeps q s) (a : Acc) (l : RegLoc) (data : Nat) : Keeps q (State.writeLoc s a l data) := by
  unfold State.writeLoc
  split
  · assumption
  · with_reducible refine Keeps.ite ?_ ?_
    · with_reducible apply State.writeFields_keeps
      assumption
    · extract_lets +onlyGivenNames v1
      clear_value v1
      split
      · with_reducible apply State.statusClearAt_keeps
        assumption
      · with_reducible apply State.statusClearAt_keeps
        assumption
      · with_reducible apply State.statusInjectAt_keeps
        assumption
      · with_reducible apply State.noteIgnored_keeps
        assumption

theorem State.writeReg_keeps {q s : State} (hq : Keeps q s) (a : Acc) (off : Nat) (data : Nat) : Keeps q (State.writeReg s a off data) := by
  unfold State.writeReg
  split
  · assumption
  · with_reducible refine Keeps.ite ?_ ?_
    · with_reducible apply State.writeLoc_keeps
      assumption
    · assumption

theorem State.writeBadSize_keeps {q s : State} (hq : Keeps q s) (a : Acc) (off : Nat) : Keeps q (State.writeBadSize s a off) := by
  unfold State.writeBadSize
  split
  · assumption
  · with_reducible refine Keeps.ite ?_ ?_
    · assumption
    · split
      · assumption
      · with_reducible apply State.noteIgnored_keeps
        assumption

theorem execRegisterWrite_keeps {q s : State} (hq : Keeps q s) (a : Acc) (off : Nat) (data : BitVec 64) (size : AccessSize) : Runs q (execRegisterWrite a off data size s) := by
  unfold execRegisterWrite
  with_reducible apply Runs.done
  with_reducible refine Keeps.ite ?_ ?_
  · assumption
  · split
    · with_reducible apply State.writeReg_keeps
      assumption
    · with_reducible apply State.writeReg_keeps
      with_reducible apply State.endStep_keeps
      with_reducible apply State.writeReg_keeps
      assumption
    · with_reducible apply State.writeBadSize_keeps
      assumption
    · with_reducible apply State.writeBadSize_keeps
      assumption

theorem execClk10mQualified_keeps {q s : State} (hq : Keeps q s) : Runs q (execClk10mQualified s) := by
  unfold execClk10mQualified
  with_reducible apply Runs.done
  with_reducible refine Keeps.ite ?_ ?_
  · assumption
  · with_reducible apply Keeps.upd
    · assumption
    · rfl

theorem execClk10mLoss_keeps {q s : State} (hq : Keeps q s) : Runs q (execClk10mLoss s) := by
  unfold execClk10mLoss
  with_reducible apply Runs.done
  with_reducible refine Keeps.ite ?_ ?_
  · assumption
  · with_reducible apply Keeps.upd
    · assumption
    · rfl

theorem execDynamicAddressAssign_keeps {q s : State} (hq : Keeps q s) (addr : BitVec 7) : Runs q (execDynamicAddressAssign addr s) := by
  unfold execDynamicAddressAssign
  with_reducible apply Runs.done
  with_reducible refine Keeps.ite ?_ ?_
  · assumption
  · with_reducible apply Keeps.upd
    · assumption
    · rfl

theorem execI3cBusReset_keeps {q s : State} (hq : Keeps q s) : Runs q (execI3cBusReset s) := by
  unfold execI3cBusReset
  with_reducible apply Runs.done
  with_reducible refine Keeps.ite ?_ ?_
  · assumption
  · with_reducible apply Keeps.upd
    · assumption
    · rfl

theorem execMctpMessageTimeout_keeps {q s : State} (hq : Keeps q s) : Runs q (execMctpMessageTimeout s) := by
  unfold execMctpMessageTimeout
  with_reducible apply Runs.done
  assumption

theorem State.mctpAnswer_keeps {q s : State} (hq : Keeps q s) (code : Nat) (data : List Byte) : Keeps q (State.mctpAnswer s code data) := by
  unfold State.mctpAnswer
  with_reducible apply State.emit_keeps
  assumption

theorem execSetEndpointId_keeps {q s : State} (hq : Keeps q s) (eid : BitVec 8) : Runs q (execSetEndpointId eid s) := by
  unfold execSetEndpointId
  with_reducible apply Runs.done
  with_reducible refine Keeps.ite ?_ ?_
  · assumption
  · with_reducible refine Keeps.ite ?_ ?_
    · with_reducible apply State.mctpAnswer_keeps
      assumption
    · with_reducible apply State.mctpAnswer_keeps
      with_reducible apply Keeps.upd
      · assumption
      · rfl

theorem execGetEndpointId_keeps {q s : State} (hq : Keeps q s) : Runs q (execGetEndpointId s) := by
  unfold execGetEndpointId
  with_reducible apply Runs.done
  with_reducible refine Keeps.ite ?_ ?_
  · assumption
  · with_reducible apply State.mctpAnswer_keeps
    assumption

theorem execGetMctpVersionSupport_keeps {q s : State} (hq : Keeps q s) (msgType : BitVec 8) : Runs q (execGetMctpVersionSupport msgType s) := by
  unfold execGetMctpVersionSupport
  with_reducible apply Runs.done
  with_reducible refine Keeps.ite ?_ ?_
  · assumption
  · with_reducible refine Keeps.ite ?_ ?_
    · extract_lets +onlyGivenNames v1
      have hv1 : Keeps q v1.2 := by
        unfold v1
        with_reducible apply State.takeFree_keeps
        assumption
      clear_value v1
      with_reducible apply State.mctpAnswer_keeps
      assumption
    · with_reducible apply State.mctpAnswer_keeps
      assumption

theorem execGetMessageTypeSupport_keeps {q s : State} (hq : Keeps q s) : Runs q (execGetMessageTypeSupport s) := by
  unfold execGetMessageTypeSupport
  with_reducible apply Runs.done
  with_reducible refine Keeps.ite ?_ ?_
  · assumption
  · with_reducible apply State.mctpAnswer_keeps
    assumption

theorem execGetEndpointUuid_keeps {q s : State} (hq : Keeps q s) : Runs q (execGetEndpointUuid s) := by
  unfold execGetEndpointUuid
  with_reducible apply Runs.done
  with_reducible refine Keeps.ite ?_ ?_
  · assumption
  · with_reducible apply State.mctpAnswer_keeps
    assumption

theorem State.setStage_keeps {q s : State} (hq : Keeps q s) (p : SpdmPath) (n : Nat) : Keeps q (State.setStage s p n) := by
  unfold State.setStage
  split
  · with_reducible apply Keeps.upd
    · assumption
    · rfl
  · with_reducible apply Keeps.upd
    · assumption
    · rfl

theorem State.spdmError_keeps {q s : State} (hq : Keeps q s) (p : SpdmPath) (code : Nat) : Keeps q (State.spdmError s p code) := by
  unfold State.spdmError
  with_reducible apply State.emit_keeps
  assumption

theorem State.spdmAt_keeps {q s : State} (hq : Keeps q s) (p : SpdmPath) (n : Nat) (f : State → State) (hf : Keeps q (f s)) :
    Keeps q (State.spdmAt s p n f) := by
  unfold State.spdmAt
  exact Keeps.ite hq (Keeps.ite (State.spdmError_keeps hq _ _) hf)

theorem execGetVersion_keeps {q s : State} (hq : Keeps q s) (path : SpdmPath) : Runs q (execGetVersion path s) := by
  unfold execGetVersion
  with_reducible apply Runs.done
  with_reducible apply State.spdmAt_keeps
  · assumption
  · with_reducible apply State.emit_keeps
    with_reducible apply State.setStage_keeps
    assumption

theorem execGetCapabilities_keeps {q s : State} (hq : Keeps q s) (path : SpdmPath) : Runs q (execGetCapabilities path s) := by
  unfold execGetCapabilities
  with_reducible apply Runs.done
  with_reducible apply State.spdmAt_keeps
  · assumption
  · extract_lets +onlyGivenNames v1
    have hv1 : Keeps q v1.2 := by
      unfold v1
      with_reducible apply State.takeFree_keeps
      assumption
    clear_value v1
    with_reducible apply State.emit_keeps
    with_reducible apply State.setStage_keeps
    assumption

theorem execNegotiateAlgorithms_keeps {q s : State} (hq : Keeps q s) (path : SpdmPath) (p256 : Bool) (sha256 : Bool) : Runs q (execNegotiateAlgorithms path p256 sha256 s) := by
  unfold execNegotiateAlgorithms
  with_reducible apply Runs.done
  with_reducible apply State.spdmAt_keeps
  · assumption
  · with_reducible refine Keeps.ite ?_ ?_
    · with_reducible apply State.spdmError_keeps
      assumption
    · with_reducible apply State.emit_keeps
      with_reducible apply State.setStage_keeps
      assumption

theorem execGetDigests_keeps {q s : State} (hq : Keeps q s) (path : SpdmPath) : Runs q (execGetDigests path s) := by
  unfold execGetDigests
  with_reducible apply Runs.done
  with_reducible apply State.spdmAt_keeps
  · assumption
  · with_reducible apply State.emit_keeps
    assumption

theorem execGetCertificate_keeps {q s : State} (hq : Keeps q s) (path : SpdmPath) (slot : Nat) (offset : Nat) (length : Nat) : Runs q (execGetCertificate path slot offset length s) := by
  unfold execGetCertificate
  with_reducible apply Runs.done
  with_reducible apply State.spdmAt_keeps
  · assumption
  · with_reducible refine Keeps.ite ?_ ?_
    · with_reducible apply State.spdmError_keeps
      assumption
    · extract_lets +onlyGivenNames v1
      clear_value v1
      with_reducible apply State.emit_keeps
      assumption

theorem execChallenge_keeps {q s : State} (hq : Keeps q s) (path : SpdmPath) (slot : Nat) (nonce : List Byte) : Runs q (execChallenge path slot nonce s) := by
  unfold execChallenge
  with_reducible apply Runs.done
  with_reducible apply State.spdmAt_keeps
  · assumption
  · with_reducible refine Keeps.ite ?_ ?_
    · with_reducible apply State.spdmError_keeps
      assumption
    · with_reducible refine Keeps.ite ?_ ?_
      · with_reducible apply State.spdmError_keeps
        assumption
      · extract_lets +onlyGivenNames v1
        have hv1 : Keeps q v1.2 := by
          unfold v1
          with_reducible apply State.takeFree_keeps
          assumption
        clear_value v1
        extract_lets +onlyGivenNames v2
        clear_value v2
        with_reducible apply State.emit_keeps
        assumption

theorem execGetMeasurements_keeps {q s : State} (hq : Keeps q s) (path : SpdmPath) (index : Nat) (sign : Bool) (nonce : List Byte) : Runs q (execGetMeasurements path index sign nonce s) := by
  unfold execGetMeasurements
  with_reducible apply Runs.done
  with_reducible apply State.spdmAt_keeps
  · assumption
  · with_reducible refine Keeps.ite ?_ ?_
    · with_reducible apply State.spdmError_keeps
      assumption
    · with_reducible refine Keeps.ite ?_ ?_
      · with_reducible apply State.spdmError_keeps
        assumption
      · extract_lets +onlyGivenNames v1
        clear_value v1
        extract_lets +onlyGivenNames v2
        clear_value v2
        extract_lets +onlyGivenNames v3
        have hv3 : Keeps q v3.2 := by
          unfold v3
          with_reducible apply State.takeFree_keeps
          assumption
        clear_value v3
        extract_lets +onlyGivenNames v4
        clear_value v4
        with_reducible apply State.emit_keeps
        assumption

theorem State.sbAnswer_keeps {q s : State} (hq : Keeps q s) (cmd : Nat) (inst : Byte) (cc : Nat) (data : List Byte) : Keeps q (State.sbAnswer s cmd inst cc data) := by
  unfold State.sbAnswer
  with_reducible apply State.emit_keeps
  assumption

theorem State.sbServe_keeps {q s : State} (hq : Keeps q s) (cmd : Nat) (inst : Byte) (req : List Byte) (len : Nat)
    (f : State → State) (hf : Keeps q (f s)) : Keeps q (State.sbServe s cmd inst req len f) := by
  unfold State.sbServe
  exact Keeps.ite hq (Keeps.ite (State.sbAnswer_keeps hq _ _ _ _) (Keeps.ite (State.sbAnswer_keeps hq _ _ _ _) hf))

theorem execGetIdentity_keeps {q s : State} (hq : Keeps q s) (inst : Byte) (req : List Byte) : Runs q (execGetIdentity inst req s) := by
  unfold execGetIdentity
  with_reducible apply Runs.done
  with_reducible apply State.sbServe_keeps
  · assumption
  · with_reducible apply State.sbAnswer_keeps
    assumption

theorem execGetStatus_keeps {q s : State} (hq : Keeps q s) (inst : Byte) (req : List Byte) : Runs q (execGetStatus inst req s) := by
  unfold execGetStatus
  with_reducible apply Runs.done
  with_reducible apply State.sbServe_keeps
  · assumption
  · with_reducible apply State.sbAnswer_keeps
    assumption

theorem execReadSensor_keeps {q s : State} (hq : Keeps q s) (inst : Byte) (req : List Byte) : Runs q (execReadSensor inst req s) := by
  unfold execReadSensor
  with_reducible apply Runs.done
  with_reducible apply State.sbServe_keeps
  · assumption
  · extract_lets +onlyGivenNames v1
    clear_value v1
    split
    · with_reducible apply State.sbAnswer_keeps
      assumption
    · with_reducible refine Keeps.ite ?_ ?_
      · with_reducible apply State.sbAnswer_keeps
        assumption
      · with_reducible apply State.sbAnswer_keeps
        assumption

theorem execReadReg_keeps {q s : State} (hq : Keeps q s) (inst : Byte) (req : List Byte) : Runs q (execReadReg inst req s) := by
  unfold execReadReg
  with_reducible apply Runs.done
  with_reducible apply State.sbServe_keeps
  · assumption
  · extract_lets +onlyGivenNames v1
    clear_value v1
    with_reducible refine Keeps.ite ?_ ?_
    · with_reducible apply State.sbAnswer_keeps
      assumption
    · extract_lets +onlyGivenNames v2
      have hv2 : Keeps q v2.2 := by
        unfold v2
        with_reducible apply State.readReg_keeps
        assumption
      clear_value v2
      with_reducible apply State.sbAnswer_keeps
      assumption

theorem execWriteReg_keeps {q s : State} (hq : Keeps q s) (inst : Byte) (req : List Byte) : Runs q (execWriteReg inst req s) := by
  unfold execWriteReg
  with_reducible apply Runs.done
  with_reducible apply State.sbServe_keeps
  · assumption
  · extract_lets +onlyGivenNames v1
    clear_value v1
    with_reducible refine Keeps.ite ?_ ?_
    · with_reducible apply State.sbAnswer_keeps
      assumption
    · with_reducible apply State.sbAnswer_keeps
      with_reducible apply State.writeReg_keeps
      assumption

theorem execReadLog_keeps {q s : State} (hq : Keeps q s) (inst : Byte) (req : List Byte) : Runs q (execReadLog inst req s) := by
  unfold execReadLog
  with_reducible apply Runs.done
  with_reducible apply State.sbServe_keeps
  · assumption
  · extract_lets +onlyGivenNames v1
    clear_value v1
    extract_lets +onlyGivenNames v2
    clear_value v2
    with_reducible refine Keeps.ite ?_ ?_
    · with_reducible apply State.sbAnswer_keeps
      assumption
    · with_reducible apply State.sbAnswer_keeps
      assumption

theorem execReadRetire_keeps {q s : State} (hq : Keeps q s) (inst : Byte) (req : List Byte) : Runs q (execReadRetire inst req s) := by
  unfold execReadRetire
  with_reducible apply Runs.done
  with_reducible apply State.sbServe_keeps
  · assumption
  · extract_lets +onlyGivenNames v1
    clear_value v1
    extract_lets +onlyGivenNames v2
    clear_value v2
    with_reducible refine Keeps.ite ?_ ?_
    · with_reducible apply State.sbAnswer_keeps
      assumption
    · with_reducible apply State.sbAnswer_keeps
      assumption

theorem execEraseRetire_keeps {q s : State} (hq : Keeps q s) (inst : Byte) (req : List Byte) : Runs q (execEraseRetire inst req s) := by
  unfold execEraseRetire
  with_reducible apply Runs.done
  with_reducible apply State.sbServe_keeps
  · assumption
  · with_reducible refine Keeps.ite ?_ ?_
    · with_reducible apply State.sbAnswer_keeps
      assumption
    · with_reducible refine Keeps.ite ?_ ?_
      · with_reducible apply State.sbAnswer_keeps
        assumption
      · with_reducible refine Keeps.ite ?_ ?_
        · with_reducible apply State.sbAnswer_keeps
          assumption
        · with_reducible apply State.sbAnswer_keeps
          with_reducible apply Keeps.upd
          · assumption
          · rfl

theorem execEraseComplete_keeps {q s : State} (hq : Keeps q s) (ok : Bool) : Runs q (execEraseComplete ok s) := by
  unfold execEraseComplete
  with_reducible apply Runs.done
  with_reducible refine Keeps.ite ?_ ?_
  · assumption
  · with_reducible refine Keeps.ite ?_ ?_
    · with_reducible apply Keeps.upd
      · assumption
      · rfl
    · with_reducible apply Keeps.upd
      · assumption
      · rfl

theorem execWarmReset_keeps {q s : State} (hq : Keeps q s) (inst : Byte) (req : List Byte) : Runs q (execWarmReset inst req s) := by
  unfold execWarmReset
  with_reducible apply Runs.done
  with_reducible apply State.sbServe_keeps
  · assumption
  · with_reducible refine Keeps.ite ?_ ?_
    · with_reducible apply State.sbAnswer_keeps
      assumption
    · with_reducible refine Keeps.ite ?_ ?_
      · with_reducible apply State.sbAnswer_keeps
        assumption
      · with_reducible apply State.sbAnswer_keeps
        with_reducible apply State.warmStart_keeps
        assumption

theorem State.runCutoff_keeps {q s : State} (hq : Keeps q s) : Keeps q (State.runCutoff s) := by
  unfold State.runCutoff
  with_reducible refine Keeps.ite ?_ ?_
  · with_reducible apply State.cutoffWork_keeps
    with_reducible apply State.toCycle_keeps
    assumption
  · assumption

theorem execHostCommitCutoff_keeps {q s : State} (hq : Keeps q s) : Runs q (execHostCommitCutoff s) := by
  unfold execHostCommitCutoff
  with_reducible apply Runs.done
  with_reducible refine Keeps.ite ?_ ?_
  · assumption
  · with_reducible apply State.runCutoff_keeps
    assumption

theorem State.realignDone_keeps {q s : State} (hq : Keeps q s) : Keeps q (State.realignDone s) := by
  unfold State.realignDone
  with_reducible apply Keeps.upd
  · assumption
  · rfl

theorem State.lengthen_keeps {q s : State} (hq : Keeps q s) (k : Nat) : Keeps q (State.lengthen s k) := by
  unfold State.lengthen
  with_reducible apply Keeps.upd
  · assumption
  · rfl

theorem State.tryRealign_keeps {q s : State} (hq : Keeps q s) : Keeps q (State.tryRealign s) := by
  unfold State.tryRealign
  with_reducible refine Keeps.ite ?_ ?_
  · assumption
  · with_reducible refine Keeps.ite ?_ ?_
    · with_reducible apply State.realignDone_keeps
      assumption
    · with_reducible apply State.raise_keeps
      with_reducible apply State.lengthen_keeps
      with_reducible apply State.realignDone_keeps
      assumption

theorem State.killSweep_keeps {q s : State} (hq : Keeps q s) : Keeps q (State.killSweep s) := by
  unfold State.killSweep
  extract_lets +onlyGivenNames v1
  have hv1 : Keeps q v1 := by
    unfold v1
    with_reducible refine Keeps.foldl ?_ ?_
    · assumption
    · intro x1 x2 x3
      with_reducible apply State.overrun_keeps
      assumption
  clear_value v1
  extract_lets +onlyGivenNames v2
  have hv2 : Keeps q v2 := by
    unfold v2
    with_reducible refine Keeps.foldl ?_ ?_
    · assumption
    · intro x4 x5 x6
      with_reducible apply State.overrunPair_keeps
      assumption
  clear_value v2
  with_reducible refine Keeps.foldl ?_ ?_
  · assumption
  · intro x7 x8 x9
    with_reducible apply State.deferAll_keeps
    assumption

theorem State.slotEvents_keeps {q s : State} (hq : Keeps q s) (us : List (Nat × ScaleSlot × Nat × Bool × Bool)) : Keeps q (State.slotEvents s us) := by
  unfold State.slotEvents
  extract_lets +onlyGivenNames v1
  have hv1 : Keeps q v1 := by
    unfold v1
    with_reducible refine Keeps.ite ?_ ?_
    · with_reducible apply State.raise_keeps
      assumption
    · assumption
  clear_value v1
  with_reducible refine Keeps.ite ?_ ?_
  · with_reducible apply State.raise_keeps
    assumption
  · assumption

theorem State.stageScales_keeps {q s : State} (hq : Keeps q s) (n : Nat) : Keeps q (State.stageScales s n) := by
  unfold State.stageScales
  with_reducible apply Keeps.upd
  · assumption
  · rfl

theorem State.stagePatches_keeps {q s : State} (hq : Keeps q s) (busy : List Nat) (n : Nat) : Keeps q (State.stagePatches s busy n) := by
  unfold State.stagePatches
  with_reducible apply Keeps.upd
  · assumption
  · rfl

theorem State.applyPend_keeps {q s : State} (hq : Keeps q s) (p : PendWrite) : Keeps q (State.applyPend s p) := by
  unfold State.applyPend
  refine Keeps.ite (State.setScale_keeps hq _ _) ?_
  exact ⟨hq.pending, fun c => ⟨(hq.canon c).mem, Sparse.wf_put (hq.canon c).regs _ _, (hq.canon c).chans, (hq.canon c).cqs, (hq.canon c).accts, (hq.canon c).clus, (hq.canon c).cnts, (hq.canon c).pslots, (hq.canon c).scales, (hq.canon c).frames, (hq.canon c).streams, (hq.canon c).fences, (hq.canon c).objs⟩, hq.out, hq.free⟩

theorem State.applyWrites_keeps {q s : State} (hq : Keeps q s) (n : Nat) : Keeps q (State.applyWrites s n) := by
  unfold State.applyWrites
  extract_lets +onlyGivenNames v1
  have hv1 : Keeps q v1 := by
    unfold v1
    with_reducible refine Keeps.foldl ?_ ?_
    · assumption
    · intro x2 x3 x4
      with_reducible apply State.applyPend_keeps
      assumption
  clear_value v1
  with_reducible apply Keeps.updReg
  · assumption
  · rfl
  · rfl

theorem State.setHolds_keeps {q s : State} (hq : Keeps q s) (hs : List Nat) : Keeps q (State.setHolds s hs) := by
  unfold State.setHolds
  with_reducible refine Keeps.foldl ?_ ?_
  · assumption
  · intro x1 x2 x3
    with_reducible apply State.setPslot_keeps
    assumption

theorem State.takeFrees_keeps {q s : State} (hq : Keeps q s) (n : Nat) : Keeps q (State.takeFrees n s).2 := by
  induction n generalizing s with
  | zero => exact hq
  | succ n ih => exact ih (State.takeFree_keeps hq)

theorem State.nextView_keeps {q s : State} (hq : Keeps q s) : Keeps q (State.nextView s) := by
  unfold State.nextView
  extract_lets +onlyGivenNames v1
  have hv1 : Keeps q v1 := by
    unfold v1
    with_reducible apply State.applyWrites_keeps
    assumption
  clear_value v1
  with_reducible apply State.setHolds_keeps
  with_reducible apply Keeps.upd
  · assumption
  · rfl

theorem State.stepEvents_keeps {q s : State} (hq : Keeps q s) : Keeps q (State.stepEvents s) := by
  unfold State.stepEvents
  extract_lets +onlyGivenNames v1
  have hv1 : Keeps q v1 := by
    unfold v1
    with_reducible refine Keeps.ite ?_ ?_
    · with_reducible apply State.raise_keeps
      assumption
    · with_reducible refine Keeps.ite ?_ ?_
      · with_reducible apply State.supplyRelease_keeps
        assumption
      · assumption
  clear_value v1
  extract_lets +onlyGivenNames v2
  have hv2 : Keeps q v2 := by
    unfold v2
    with_reducible refine Keeps.ite ?_ ?_
    · with_reducible apply State.raise_keeps
      assumption
    · assumption
  clear_value v2
  with_reducible refine Keeps.ite ?_ ?_
  · with_reducible apply State.raise_keeps
    assumption
  · assumption

theorem State.newWindow_keeps {q s : State} (hq : Keeps q s) : Keeps q (State.newWindow s) := by
  unfold State.newWindow
  with_reducible refine Keeps.foldl ?_ ?_
  · with_reducible apply Keeps.upd
    · assumption
    · rfl
  · intro x1 x2 x3
    with_reducible apply State.setAcct_keeps
    assumption

theorem State.boundarySteps_keeps {q s : State} (hq : Keeps q s) (busy : List Nat) (us : List (Nat × ScaleSlot × Nat × Bool × Bool)) : Keeps q (State.boundarySteps s busy us) := by
  unfold State.boundarySteps
  with_reducible apply State.stepEvents_keeps
  with_reducible apply State.stagePatches_keeps
  with_reducible apply State.stageScales_keeps
  with_reducible apply State.slotEvents_keeps
  assumption

theorem State.putStaged_keeps {q s : State} (hq : Keeps q s) (x : Staged) (len : Nat) : Keeps q (State.putStaged s x len) := by
  unfold State.putStaged
  with_reducible apply Keeps.upd
  · assumption
  · rfl

theorem State.noteStretch_keeps {q s : State} (hq : Keeps q s) (w : Nat) : Keeps q (State.noteStretch s w) := by
  unfold State.noteStretch
  with_reducible refine Keeps.ite ?_ ?_
  · with_reducible apply State.raise_keeps
    assumption
  · assumption

theorem State.boundaryWork_keeps {q s : State} (hq : Keeps q s) (us : List (Nat × ScaleSlot × Nat × Bool × Bool)) (dom : List Nat) : Keeps q (State.boundaryWork s us dom) := by
  unfold State.boundaryWork
  extract_lets +onlyGivenNames v1
  clear_value v1
  with_reducible apply State.noteStretch_keeps
  with_reducible apply State.newWindow_keeps
  with_reducible apply State.putStaged_keeps
  assumption

theorem State.guardWork_keeps {q s : State} (hq : Keeps q s) : Keeps q (State.guardWork s) := by
  unfold State.guardWork
  extract_lets +onlyGivenNames v1
  clear_value v1
  extract_lets +onlyGivenNames v2
  have hv2 : Keeps q v2.2 := by
    unfold v2
    with_reducible apply State.takeFrees_keeps
    with_reducible apply State.boundarySteps_keeps
    with_reducible apply State.killSweep_keeps
    assumption
  clear_value v2
  with_reducible apply State.tickStage_keeps
  with_reducible apply State.tryRealign_keeps
  with_reducible apply State.boundaryWork_keeps
  assumption

theorem State.runGuard_keeps {q s : State} (hq : Keeps q s) : Keeps q (State.runGuard s) := by
  unfold State.runGuard
  extract_lets +onlyGivenNames v1
  have hv1 : Keeps q v1 := by
    unfold v1
    with_reducible apply State.runCutoff_keeps
    assumption
  clear_value v1
  with_reducible refine Keeps.ite ?_ ?_
  · with_reducible apply State.guardWork_keeps
    with_reducible apply State.toCycle_keeps
    assumption
  · assumption

theorem execGuardBandBegin_keeps {q s : State} (hq : Keeps q s) : Runs q (execGuardBandBegin s) := by
  unfold execGuardBandBegin
  with_reducible apply Runs.done
  with_reducible refine Keeps.ite ?_ ?_
  · assumption
  · with_reducible apply State.runGuard_keeps
    assumption

theorem State.bookEnergy_keeps {q s : State} (hq : Keeps q s) (x : Staged) : Keeps q (State.bookEnergy s x) := by
  unfold State.bookEnergy
  extract_lets +onlyGivenNames v1
  have hv1 : Keeps q v1 := by
    unfold v1
    with_reducible refine Keeps.foldl ?_ ?_
    · assumption
    · intro x2 x3 x4
      with_reducible apply State.setAcct_keeps
      assumption
  clear_value v1
  with_reducible refine Keeps.foldl ?_ ?_
  · assumption
  · intro x5 x6 x7
    with_reducible apply State.setAcct_keeps
    assumption

theorem State.showStaged_keeps {q s : State} (hq : Keeps q s) (x : Staged) : Keeps q (State.showStaged s x) := by
  unfold State.showStaged
  extract_lets +onlyGivenNames v1
  have hv1 : Keeps q v1 := by
    unfold v1
    with_reducible refine Keeps.foldl ?_ ?_
    · assumption
    · intro x2 x3 x4
      with_reducible apply State.setScale_keeps
      assumption
  clear_value v1
  extract_lets +onlyGivenNames v5
  have hv5 : Keeps q v5 := by
    unfold v5
    with_reducible refine Keeps.foldl ?_ ?_
    · assumption
    · intro x6 x7 x8
      with_reducible apply State.regPut_keeps
      assumption
  clear_value v5
  extract_lets +onlyGivenNames v9
  clear_value v9
  extract_lets +onlyGivenNames v10
  clear_value v10
  extract_lets +onlyGivenNames v11
  clear_value v11
  extract_lets +onlyGivenNames v12
  have hv12 : Keeps q v12 := by
    unfold v12
    with_reducible apply Keeps.upd
    · assumption
    · rfl
  clear_value v12
  with_reducible apply State.bookEnergy_keeps
  with_reducible apply State.setHolds_keeps
  assumption

theorem State.domainEdge_keeps {q s : State} (hq : Keeps q s) : Keeps q (State.domainEdge s) := by
  unfold State.domainEdge
  extract_lets +onlyGivenNames v1
  clear_value v1
  extract_lets +onlyGivenNames v2
  clear_value v2
  extract_lets +onlyGivenNames v3
  have hv3 : Keeps q v3 := by
    unfold v3
    with_reducible apply Keeps.upd
    · assumption
    · rfl
  clear_value v3
  with_reducible refine Keeps.ite ?_ ?_
  · with_reducible apply State.raise_keeps
    assumption
  · assumption

theorem State.turn_keeps {q s : State} (hq : Keeps q s) : Keeps q (State.turn s) := by
  unfold State.turn
  with_reducible apply Keeps.upd
  · assumption
  · rfl

theorem State.takePeriod_keeps {q s : State} (hq : Keeps q s) : Keeps q (State.takePeriod s) := by
  unfold State.takePeriod
  extract_lets +onlyGivenNames v1
  clear_value v1
  with_reducible apply Keeps.upd
  · assumption
  · rfl

theorem State.scaleEdge_keeps {q s : State} (hq : Keeps q s) : Keeps q (State.scaleEdge s) := by
  unfold State.scaleEdge
  extract_lets +onlyGivenNames v1
  clear_value v1
  extract_lets +onlyGivenNames v2
  have hv2 : Keeps q v2 := by
    unfold v2
    with_reducible refine Keeps.foldl ?_ ?_
    · assumption
    · intro x3 x4 x5
      with_reducible apply State.applyScaleSet_keeps
      assumption
  clear_value v2
  with_reducible apply Keeps.upd
  · assumption
  · rfl

theorem State.poolEdge_keeps {q s : State} (hq : Keeps q s) (h : Nat) : Keeps q (State.poolEdge s h) := by
  unfold State.poolEdge
  split
  · assumption
  · extract_lets +onlyGivenNames v1
    clear_value v1
    extract_lets +onlyGivenNames v2
    clear_value v2
    extract_lets +onlyGivenNames v3
    clear_value v3
    extract_lets +onlyGivenNames v4
    have hv4 : Keeps q v4 := by
      unfold v4
      with_reducible apply State.setObj_keeps
      assumption
    clear_value v4
    with_reducible refine Keeps.ite ?_ ?_
    · with_reducible apply State.raise_keeps
      assumption
    · assumption

theorem State.ctxEdge_keeps {q s : State} (hq : Keeps q s) (ids : List Nat) : Keeps q (State.ctxEdge s ids) := by
  unfold State.ctxEdge
  extract_lets +onlyGivenNames v1
  extract_lets +onlyGivenNames v2
  have hv2 : Keeps q v2 := by
    unfold v2
    with_reducible apply Keeps.upd
    · assumption
    · rfl
  clear_value v2
  with_reducible apply State.grantCtxs_keeps
  assumption

theorem State.recordEdge_keeps {q s : State} (hq : Keeps q s) : Keeps q (State.recordEdge s) := by
  unfold State.recordEdge
  extract_lets +onlyGivenNames v1
  clear_value v1
  extract_lets +onlyGivenNames v2
  have hv2 : Keeps q v2 := by
    unfold v2
    with_reducible apply State.egress_keeps
    · assumption
    · with_reducible refine Keeps.foldl ?_ ?_
      · with_reducible apply Keeps.upd
        · assumption
        · rfl
      · intro x1 x2 x3
        with_reducible apply State.sendBatch_keeps
        assumption
  clear_value v2
  with_reducible refine Keeps.foldl ?_ ?_
  · assumption
  · intro x4 x5 x6
    with_reducible apply State.recordFlush_keeps
    assumption

theorem State.tsEdge_keeps {q s : State} (hq : Keeps q s) (corr : Int) (stretch : Nat) : Keeps q (State.tsEdge s corr stretch) := by
  unfold State.tsEdge
  split
  · with_reducible apply State.tsControl_keeps
    with_reducible apply Keeps.upd
    · assumption
    · rfl
  · extract_lets +onlyGivenNames v1
    clear_value v1
    extract_lets +onlyGivenNames v2
    clear_value v2
    extract_lets +onlyGivenNames v3
    have hv3 : Keeps q v3 := by
      unfold v3
      with_reducible apply Keeps.upd
      · assumption
      · rfl
    clear_value v3
    with_reducible refine Keeps.ite ?_ ?_
    · with_reducible refine Keeps.ite ?_ ?_
      · with_reducible refine Keeps.ite ?_ ?_
        · with_reducible apply State.enterTs_keeps
          assumption
        · with_reducible apply Keeps.upd
          · assumption
          · rfl
      · with_reducible apply Keeps.upd
        · assumption
        · rfl
    · with_reducible refine Keeps.ite ?_ ?_
      · with_reducible apply State.enterTs_keeps
        assumption
      · assumption

theorem State.cluEdge_keeps {q s : State} (hq : Keeps q s) : Keeps q (State.cluEdge s) := by
  unfold State.cluEdge
  with_reducible refine Keeps.foldl ?_ ?_
  · assumption
  · intro x1 x2 x3
    with_reducible apply State.setClu_keeps
    assumption

theorem State.nextTick_keeps {q s : State} (hq : Keeps q s) (x : Staged) : Keeps q (State.nextTick s x) := by
  unfold State.nextTick
  with_reducible apply State.takePeriod_keeps
  with_reducible apply State.turn_keeps
  with_reducible apply State.applyWrites_keeps
  with_reducible apply State.scaleEdge_keeps
  with_reducible apply State.showStaged_keeps
  assumption

theorem State.visible_keeps {q s : State} (hq : Keeps q s) (x : Staged) : Keeps q (State.visible s x) := by
  unfold State.visible
  extract_lets +onlyGivenNames v1
  have hv1 : Keeps q v1 := by
    unfold v1
    with_reducible apply State.cluEdge_keeps
    with_reducible apply State.domainEdge_keeps
    with_reducible apply State.nextTick_keeps
    assumption
  clear_value v1
  with_reducible apply State.endScaleSets_keeps
  with_reducible apply State.showPatches_keeps
  with_reducible apply State.tsEdge_keeps
  with_reducible refine Keeps.ite ?_ ?_
  · with_reducible apply State.moveFlows_keeps
    assumption
  · assumption

theorem State.edgeWork_keeps {q s : State} (hq : Keeps q s) : Keeps q (State.edgeWork s) := by
  unfold State.edgeWork
  split
  · assumption
  · extract_lets +onlyGivenNames v1
    have hv1 : Keeps q v1 := by
      unfold v1
      with_reducible apply State.visible_keeps
      assumption
    clear_value v1
    extract_lets +onlyGivenNames v2
    have hv2 : Keeps q v2 := by
      unfold v2
      with_reducible refine Keeps.foldl ?_ ?_
      · assumption
      · intro x1 x2 x3
        with_reducible apply State.poolEdge_keeps
        assumption
    clear_value v2
    extract_lets +onlyGivenNames v3
    have hv3 : Keeps q v3 := by
      unfold v3
      with_reducible apply State.tidy_keeps
      with_reducible apply State.destroyOrphans_keeps
      with_reducible apply State.testEdge_keeps
      with_reducible apply State.syncTargets_keeps
      with_reducible apply State.recordEdge_keeps
      with_reducible apply State.ctxEdge_keeps
      assumption
    clear_value v3
    with_reducible apply State.settleMem_keeps
    with_reducible apply State.issueLaunches_keeps
    assumption

theorem State.runEdge_keeps {q s : State} (hq : Keeps q s) : Keeps q (State.runEdge s) := by
  unfold State.runEdge
  extract_lets +onlyGivenNames v1
  have hv1 : Keeps q v1 := by
    unfold v1
    with_reducible apply State.tryRealign_keeps
    with_reducible apply State.runGuard_keeps
    assumption
  clear_value v1
  with_reducible apply State.edgeWork_keeps
  with_reducible apply State.toCycle_keeps
  assumption

theorem execTickEdge_keeps {q s : State} (hq : Keeps q s) : Runs q (execTickEdge s) := by
  unfold execTickEdge
  with_reducible apply Runs.done
  with_reducible refine Keeps.ite ?_ ?_
  · assumption
  · with_reducible apply State.runEdge_keeps
    assumption

theorem State.idle_keeps {q s : State} (hq : Keeps q s) : Keeps q (State.idle s) := by
  unfold State.idle
  with_reducible refine Keeps.ite ?_ ?_
  · assumption
  · extract_lets +onlyGivenNames v1
    clear_value v1
    extract_lets +onlyGivenNames v2
    have hv2 : Keeps q v2 := by
      unfold v2
      with_reducible apply State.toCycle_keeps
      assumption
    clear_value v2
    extract_lets +onlyGivenNames v3
    have hv3 : Keeps q v3 := by
      unfold v3
      with_reducible apply State.tryRealign_keeps
      assumption
    clear_value v3
    extract_lets +onlyGivenNames v4
    have hv4 : Keeps q v4 := by
      unfold v4
      split
      · with_reducible refine Keeps.ite ?_ ?_
        · with_reducible apply State.cutoffWork_keeps
          assumption
        · assumption
      · with_reducible refine Keeps.ite ?_ ?_
        · with_reducible apply State.guardWork_keeps
          assumption
        · assumption
      · with_reducible refine Keeps.ite ?_ ?_
        · assumption
        · with_reducible refine Keeps.ite ?_ ?_
          · assumption
          · with_reducible apply State.edgeWork_keeps
            assumption
    clear_value v4
    with_reducible apply State.endStep_keeps
    assumption

end Sys2Proof.Machine
end

