-- ==== Sys2Proof/Laws/Read.lean ====
section
/-! SUPPORT. What a numbered thing reads as after one has been replaced: the new value at its own number, the old one at every
other. -/

namespace Sys2Proof.Machine
open Sys2Proof

theorem State.chan_setChan {s : State} (h : s.Canon) (n m : Nat) (v : Chan) :
    (s.setChan n v).chan m = if m = n then v else s.chan m := Sparse.get_put h.chans n m v

theorem State.chan_setChan_self {s : State} (h : s.Canon) (n : Nat) (v : Chan) : (s.setChan n v).chan n = v :=
  Sparse.get_put_self h.chans

theorem State.chan_setChan_other (s : State) {n m : Nat} (h : m ≠ n) (v : Chan) : (s.setChan n v).chan m = s.chan m :=
  Sparse.get_put_other h

theorem State.cq_setCq {s : State} (h : s.Canon) (n m : Nat) (v : ChanCq) :
    (s.setCq n v).cq m = if m = n then v else s.cq m := Sparse.get_put h.cqs n m v

theorem State.cq_setCq_self {s : State} (h : s.Canon) (n : Nat) (v : ChanCq) : (s.setCq n v).cq n = v :=
  Sparse.get_put_self h.cqs

theorem State.cq_setCq_other (s : State) {n m : Nat} (h : m ≠ n) (v : ChanCq) : (s.setCq n v).cq m = s.cq m :=
  Sparse.get_put_other h

theorem State.acct_setAcct {s : State} (h : s.Canon) (n m : Nat) (v : ChanAcct) :
    (s.setAcct n v).acct m = if m = n then v else s.acct m := Sparse.get_put h.accts n m v

theorem State.acct_setAcct_self {s : State} (h : s.Canon) (n : Nat) (v : ChanAcct) : (s.setAcct n v).acct n = v :=
  Sparse.get_put_self h.accts

theorem State.acct_setAcct_other (s : State) {n m : Nat} (h : m ≠ n) (v : ChanAcct) : (s.setAcct n v).acct m = s.acct m :=
  Sparse.get_put_other h

theorem State.clu_setClu {s : State} (h : s.Canon) (n m : Nat) (v : Clu) :
    (s.setClu n v).clu m = if m = n then v else s.clu m := Sparse.get_put h.clus n m v

theorem State.clu_setClu_self {s : State} (h : s.Canon) (n : Nat) (v : Clu) : (s.setClu n v).clu n = v :=
  Sparse.get_put_self h.clus

theorem State.clu_setClu_other (s : State) {n m : Nat} (h : m ≠ n) (v : Clu) : (s.setClu n v).clu m = s.clu m :=
  Sparse.get_put_other h

theorem State.cnt_setCnt {s : State} (h : s.Canon) (n m : Nat) (v : CluCnt) :
    (s.setCnt n v).cnt m = if m = n then v else s.cnt m := Sparse.get_put h.cnts n m v

theorem State.cnt_setCnt_self {s : State} (h : s.Canon) (n : Nat) (v : CluCnt) : (s.setCnt n v).cnt n = v :=
  Sparse.get_put_self h.cnts

theorem State.cnt_setCnt_other (s : State) {n m : Nat} (h : m ≠ n) (v : CluCnt) : (s.setCnt n v).cnt m = s.cnt m :=
  Sparse.get_put_other h

theorem State.pslot_setPslot {s : State} (h : s.Canon) (n m : Nat) (v : PSlot) :
    (s.setPslot n v).pslot m = if m = n then v else s.pslot m := Sparse.get_put h.pslots n m v

theorem State.pslot_setPslot_self {s : State} (h : s.Canon) (n : Nat) (v : PSlot) : (s.setPslot n v).pslot n = v :=
  Sparse.get_put_self h.pslots

theorem State.pslot_setPslot_other (s : State) {n m : Nat} (h : m ≠ n) (v : PSlot) : (s.setPslot n v).pslot m = s.pslot m :=
  Sparse.get_put_other h

theorem State.scale_setScale {s : State} (h : s.Canon) (n m : Nat) (v : ScaleSlot) :
    (s.setScale n v).scale m = if m = n then v else s.scale m := Sparse.get_put h.scales n m v

theorem State.scale_setScale_self {s : State} (h : s.Canon) (n : Nat) (v : ScaleSlot) : (s.setScale n v).scale n = v :=
  Sparse.get_put_self h.scales

theorem State.scale_setScale_other (s : State) {n m : Nat} (h : m ≠ n) (v : ScaleSlot) : (s.setScale n v).scale m = s.scale m :=
  Sparse.get_put_other h

theorem State.frame_setFrame {s : State} (h : s.Canon) (n m : Nat) (v : FrameRec) :
    (s.setFrame n v).frame m = if m = n then v else s.frame m := Sparse.get_put h.frames n m v

theorem State.frame_setFrame_self {s : State} (h : s.Canon) (n : Nat) (v : FrameRec) : (s.setFrame n v).frame n = v :=
  Sparse.get_put_self h.frames

theorem State.frame_setFrame_other (s : State) {n m : Nat} (h : m ≠ n) (v : FrameRec) : (s.setFrame n v).frame m = s.frame m :=
  Sparse.get_put_other h

theorem State.stream_setStream_self {s : State} (h : s.Canon) (n d : Nat) (v : Stream) :
    (s.setStream n d v).stream n d = v := Sparse.get_put_self h.streams

theorem State.stream_setStream_other (s : State) {n d m e : Nat} (h : m * 64 + e ≠ n * 64 + d) (v : Stream) :
    (s.setStream n d v).stream m e = s.stream m e := Sparse.get_put_other h

theorem State.fence_setFence_self {s : State} (h : s.Canon) (n : Nat) (v : Fence) : (s.setFence n v).fence n = v :=
  Sparse.get_put_self h.fences

theorem State.fence_setFence_other (s : State) {n m : Nat} (h : m ≠ n) (v : Fence) : (s.setFence n v).fence m = s.fence m :=
  Sparse.get_put_other h

theorem State.obj?_dropObj_self {s : State} (h : s.Canon) (j : Nat) : (s.dropObj j).obj? j = none :=
  Sparse.find?_erase_self h.objs

/-- The object that an insertion lists. -/
theorem State.obj?_setObj_self (s : State) (h : Nat) (o : Obj) : (s.setObj h o).obj? h = some o := Sparse.find?_insert_self

/-- An insertion leaves every other object alone. -/
theorem State.obj?_setObj_other (s : State) {h j : Nat} (hj : j ≠ h) (o : Obj) : (s.setObj h o).obj? j = s.obj? j :=
  Sparse.find?_insert_other hj

/-- The home of a tile after it was named, for an object that exists. -/
theorem State.homeOf_setHome_self (s : State) {h tile : Nat} (f : Nat) {o : Obj} (ho : s.obj? h = some o) :
    (s.setHome h tile f).homeOf h tile = some f := by
  unfold State.setHome State.homeOf
  rw [ho]
  simp only [State.obj?_setObj_self]
  exact Sparse.find?_insert_self

/-- A register holds what was stored, in 32 bits. -/
theorem State.regGet_regPut_self {s : State} (h : s.Canon) (w : Win) (item off v : Nat) :
    (s.regPut w item off v).regGet w item off = v % 2 ^ 32 := by
  unfold State.regGet State.regPut
  rw [Sparse.get_put_self h.regs, BitVec.toNat_ofNat]

/-- A store to one register leaves every other as it is. -/
theorem State.regGet_regPut_other (s : State) {w x : Win} {item off j p : Nat} (h : regKey x j p ≠ regKey w item off) (v : Nat) :
    (s.regPut w item off v).regGet x j p = s.regGet x j p := by
  unfold State.regGet State.regPut
  rw [Sparse.get_put_other h]

end Sys2Proof.Machine
end

