-- ==== Sys2Proof/Laws/State.lean ====
section
/-! SUPPORT. One lemma per field and basic update: what an update of one part of the state leaves alone, so that no later
proof unfolds a record. -/

namespace Sys2Proof.Machine
open Sys2Proof

/-! `State.setChan` changes `chans` only. -/

@[simp] theorem State.setChan_clk (s : State) (c : Nat) (v : Chan) :
    (s.setChan c v).clk = s.clk := rfl
@[simp] theorem State.setChan_ts (s : State) (c : Nat) (v : Chan) :
    (s.setChan c v).ts = s.ts := rfl
@[simp] theorem State.setChan_reg (s : State) (c : Nat) (v : Chan) :
    (s.setChan c v).reg = s.reg := rfl
@[simp] theorem State.setChan_cqs (s : State) (c : Nat) (v : Chan) :
    (s.setChan c v).cqs = s.cqs := rfl
@[simp] theorem State.setChan_accts (s : State) (c : Nat) (v : Chan) :
    (s.setChan c v).accts = s.accts := rfl
@[simp] theorem State.setChan_gfe (s : State) (c : Nat) (v : Chan) :
    (s.setChan c v).gfe = s.gfe := rfl
@[simp] theorem State.setChan_clus (s : State) (c : Nat) (v : Chan) :
    (s.setChan c v).clus = s.clus := rfl
@[simp] theorem State.setChan_cnts (s : State) (c : Nat) (v : Chan) :
    (s.setChan c v).cnts = s.cnts := rfl
@[simp] theorem State.setChan_resvs (s : State) (c : Nat) (v : Chan) :
    (s.setChan c v).resvs = s.resvs := rfl
@[simp] theorem State.setChan_pslots (s : State) (c : Nat) (v : Chan) :
    (s.setChan c v).pslots = s.pslots := rfl
@[simp] theorem State.setChan_scales (s : State) (c : Nat) (v : Chan) :
    (s.setChan c v).scales = s.scales := rfl
@[simp] theorem State.setChan_mem (s : State) (c : Nat) (v : Chan) :
    (s.setChan c v).mem = s.mem := rfl
@[simp] theorem State.setChan_frames (s : State) (c : Nat) (v : Chan) :
    (s.setChan c v).frames = s.frames := rfl
@[simp] theorem State.setChan_objs (s : State) (c : Nat) (v : Chan) :
    (s.setChan c v).objs = s.objs := rfl
@[simp] theorem State.setChan_place (s : State) (c : Nat) (v : Chan) :
    (s.setChan c v).place = s.place := rfl
@[simp] theorem State.setChan_streams (s : State) (c : Nat) (v : Chan) :
    (s.setChan c v).streams = s.streams := rfl
@[simp] theorem State.setChan_xfers (s : State) (c : Nat) (v : Chan) :
    (s.setChan c v).xfers = s.xfers := rfl
@[simp] theorem State.setChan_link (s : State) (c : Nat) (v : Chan) :
    (s.setChan c v).link = s.link := rfl
@[simp] theorem State.setChan_host (s : State) (c : Nat) (v : Chan) :
    (s.setChan c v).host = s.host := rfl
@[simp] theorem State.setChan_fab (s : State) (c : Nat) (v : Chan) :
    (s.setChan c v).fab = s.fab := rfl
@[simp] theorem State.setChan_integ (s : State) (c : Nat) (v : Chan) :
    (s.setChan c v).integ = s.integ := rfl
@[simp] theorem State.setChan_icnt (s : State) (c : Nat) (v : Chan) :
    (s.setChan c v).icnt = s.icnt := rfl
@[simp] theorem State.setChan_sup (s : State) (c : Nat) (v : Chan) :
    (s.setChan c v).sup = s.sup := rfl
@[simp] theorem State.setChan_mon (s : State) (c : Nat) (v : Chan) :
    (s.setChan c v).mon = s.mon := rfl
@[simp] theorem State.setChan_sec (s : State) (c : Nat) (v : Chan) :
    (s.setChan c v).sec = s.sec := rfl
@[simp] theorem State.setChan_sb (s : State) (c : Nat) (v : Chan) :
    (s.setChan c v).sb = s.sb := rfl
@[simp] theorem State.setChan_staged (s : State) (c : Nat) (v : Chan) :
    (s.setChan c v).staged = s.staged := rfl
@[simp] theorem State.setChan_out (s : State) (c : Nat) (v : Chan) :
    (s.setChan c v).out = s.out := rfl
@[simp] theorem State.setChan_freeCtr (s : State) (c : Nat) (v : Chan) :
    (s.setChan c v).freeCtr = s.freeCtr := rfl
@[simp] theorem State.setChan_pending (s : State) (c : Nat) (v : Chan) :
    (s.setChan c v).pending = s.pending := rfl

/-! `State.setCq` changes `cqs` only. -/

@[simp] theorem State.setCq_clk (s : State) (c : Nat) (v : ChanCq) :
    (s.setCq c v).clk = s.clk := rfl
@[simp] theorem State.setCq_ts (s : State) (c : Nat) (v : ChanCq) :
    (s.setCq c v).ts = s.ts := rfl
@[simp] theorem State.setCq_reg (s : State) (c : Nat) (v : ChanCq) :
    (s.setCq c v).reg = s.reg := rfl
@[simp] theorem State.setCq_chans (s : State) (c : Nat) (v : ChanCq) :
    (s.setCq c v).chans = s.chans := rfl
@[simp] theorem State.setCq_accts (s : State) (c : Nat) (v : ChanCq) :
    (s.setCq c v).accts = s.accts := rfl
@[simp] theorem State.setCq_gfe (s : State) (c : Nat) (v : ChanCq) :
    (s.setCq c v).gfe = s.gfe := rfl
@[simp] theorem State.setCq_clus (s : State) (c : Nat) (v : ChanCq) :
    (s.setCq c v).clus = s.clus := rfl
@[simp] theorem State.setCq_cnts (s : State) (c : Nat) (v : ChanCq) :
    (s.setCq c v).cnts = s.cnts := rfl
@[simp] theorem State.setCq_resvs (s : State) (c : Nat) (v : ChanCq) :
    (s.setCq c v).resvs = s.resvs := rfl
@[simp] theorem State.setCq_pslots (s : State) (c : Nat) (v : ChanCq) :
    (s.setCq c v).pslots = s.pslots := rfl
@[simp] theorem State.setCq_scales (s : State) (c : Nat) (v : ChanCq) :
    (s.setCq c v).scales = s.scales := rfl
@[simp] theorem State.setCq_mem (s : State) (c : Nat) (v : ChanCq) :
    (s.setCq c v).mem = s.mem := rfl
@[simp] theorem State.setCq_frames (s : State) (c : Nat) (v : ChanCq) :
    (s.setCq c v).frames = s.frames := rfl
@[simp] theorem State.setCq_objs (s : State) (c : Nat) (v : ChanCq) :
    (s.setCq c v).objs = s.objs := rfl
@[simp] theorem State.setCq_place (s : State) (c : Nat) (v : ChanCq) :
    (s.setCq c v).place = s.place := rfl
@[simp] theorem State.setCq_streams (s : State) (c : Nat) (v : ChanCq) :
    (s.setCq c v).streams = s.streams := rfl
@[simp] theorem State.setCq_xfers (s : State) (c : Nat) (v : ChanCq) :
    (s.setCq c v).xfers = s.xfers := rfl
@[simp] theorem State.setCq_link (s : State) (c : Nat) (v : ChanCq) :
    (s.setCq c v).link = s.link := rfl
@[simp] theorem State.setCq_host (s : State) (c : Nat) (v : ChanCq) :
    (s.setCq c v).host = s.host := rfl
@[simp] theorem State.setCq_fab (s : State) (c : Nat) (v : ChanCq) :
    (s.setCq c v).fab = s.fab := rfl
@[simp] theorem State.setCq_integ (s : State) (c : Nat) (v : ChanCq) :
    (s.setCq c v).integ = s.integ := rfl
@[simp] theorem State.setCq_icnt (s : State) (c : Nat) (v : ChanCq) :
    (s.setCq c v).icnt = s.icnt := rfl
@[simp] theorem State.setCq_sup (s : State) (c : Nat) (v : ChanCq) :
    (s.setCq c v).sup = s.sup := rfl
@[simp] theorem State.setCq_mon (s : State) (c : Nat) (v : ChanCq) :
    (s.setCq c v).mon = s.mon := rfl
@[simp] theorem State.setCq_sec (s : State) (c : Nat) (v : ChanCq) :
    (s.setCq c v).sec = s.sec := rfl
@[simp] theorem State.setCq_sb (s : State) (c : Nat) (v : ChanCq) :
    (s.setCq c v).sb = s.sb := rfl
@[simp] theorem State.setCq_staged (s : State) (c : Nat) (v : ChanCq) :
    (s.setCq c v).staged = s.staged := rfl
@[simp] theorem State.setCq_out (s : State) (c : Nat) (v : ChanCq) :
    (s.setCq c v).out = s.out := rfl
@[simp] theorem State.setCq_freeCtr (s : State) (c : Nat) (v : ChanCq) :
    (s.setCq c v).freeCtr = s.freeCtr := rfl
@[simp] theorem State.setCq_pending (s : State) (c : Nat) (v : ChanCq) :
    (s.setCq c v).pending = s.pending := rfl

/-! `State.setAcct` changes `accts` only. -/

@[simp] theorem State.setAcct_clk (s : State) (c : Nat) (v : ChanAcct) :
    (s.setAcct c v).clk = s.clk := rfl
@[simp] theorem State.setAcct_ts (s : State) (c : Nat) (v : ChanAcct) :
    (s.setAcct c v).ts = s.ts := rfl
@[simp] theorem State.setAcct_reg (s : State) (c : Nat) (v : ChanAcct) :
    (s.setAcct c v).reg = s.reg := rfl
@[simp] theorem State.setAcct_chans (s : State) (c : Nat) (v : ChanAcct) :
    (s.setAcct c v).chans = s.chans := rfl
@[simp] theorem State.setAcct_cqs (s : State) (c : Nat) (v : ChanAcct) :
    (s.setAcct c v).cqs = s.cqs := rfl
@[simp] theorem State.setAcct_gfe (s : State) (c : Nat) (v : ChanAcct) :
    (s.setAcct c v).gfe = s.gfe := rfl
@[simp] theorem State.setAcct_clus (s : State) (c : Nat) (v : ChanAcct) :
    (s.setAcct c v).clus = s.clus := rfl
@[simp] theorem State.setAcct_cnts (s : State) (c : Nat) (v : ChanAcct) :
    (s.setAcct c v).cnts = s.cnts := rfl
@[simp] theorem State.setAcct_resvs (s : State) (c : Nat) (v : ChanAcct) :
    (s.setAcct c v).resvs = s.resvs := rfl
@[simp] theorem State.setAcct_pslots (s : State) (c : Nat) (v : ChanAcct) :
    (s.setAcct c v).pslots = s.pslots := rfl
@[simp] theorem State.setAcct_scales (s : State) (c : Nat) (v : ChanAcct) :
    (s.setAcct c v).scales = s.scales := rfl
@[simp] theorem State.setAcct_mem (s : State) (c : Nat) (v : ChanAcct) :
    (s.setAcct c v).mem = s.mem := rfl
@[simp] theorem State.setAcct_frames (s : State) (c : Nat) (v : ChanAcct) :
    (s.setAcct c v).frames = s.frames := rfl
@[simp] theorem State.setAcct_objs (s : State) (c : Nat) (v : ChanAcct) :
    (s.setAcct c v).objs = s.objs := rfl
@[simp] theorem State.setAcct_place (s : State) (c : Nat) (v : ChanAcct) :
    (s.setAcct c v).place = s.place := rfl
@[simp] theorem State.setAcct_streams (s : State) (c : Nat) (v : ChanAcct) :
    (s.setAcct c v).streams = s.streams := rfl
@[simp] theorem State.setAcct_xfers (s : State) (c : Nat) (v : ChanAcct) :
    (s.setAcct c v).xfers = s.xfers := rfl
@[simp] theorem State.setAcct_link (s : State) (c : Nat) (v : ChanAcct) :
    (s.setAcct c v).link = s.link := rfl
@[simp] theorem State.setAcct_host (s : State) (c : Nat) (v : ChanAcct) :
    (s.setAcct c v).host = s.host := rfl
@[simp] theorem State.setAcct_fab (s : State) (c : Nat) (v : ChanAcct) :
    (s.setAcct c v).fab = s.fab := rfl
@[simp] theorem State.setAcct_integ (s : State) (c : Nat) (v : ChanAcct) :
    (s.setAcct c v).integ = s.integ := rfl
@[simp] theorem State.setAcct_icnt (s : State) (c : Nat) (v : ChanAcct) :
    (s.setAcct c v).icnt = s.icnt := rfl
@[simp] theorem State.setAcct_sup (s : State) (c : Nat) (v : ChanAcct) :
    (s.setAcct c v).sup = s.sup := rfl
@[simp] theorem State.setAcct_mon (s : State) (c : Nat) (v : ChanAcct) :
    (s.setAcct c v).mon = s.mon := rfl
@[simp] theorem State.setAcct_sec (s : State) (c : Nat) (v : ChanAcct) :
    (s.setAcct c v).sec = s.sec := rfl
@[simp] theorem State.setAcct_sb (s : State) (c : Nat) (v : ChanAcct) :
    (s.setAcct c v).sb = s.sb := rfl
@[simp] theorem State.setAcct_staged (s : State) (c : Nat) (v : ChanAcct) :
    (s.setAcct c v).staged = s.staged := rfl
@[simp] theorem State.setAcct_out (s : State) (c : Nat) (v : ChanAcct) :
    (s.setAcct c v).out = s.out := rfl
@[simp] theorem State.setAcct_freeCtr (s : State) (c : Nat) (v : ChanAcct) :
    (s.setAcct c v).freeCtr = s.freeCtr := rfl
@[simp] theorem State.setAcct_pending (s : State) (c : Nat) (v : ChanAcct) :
    (s.setAcct c v).pending = s.pending := rfl

/-! `State.setCmd` changes `gfe` only. -/

@[simp] theorem State.setCmd_clk (s : State) (c : Cmd) :
    (s.setCmd c).clk = s.clk := rfl
@[simp] theorem State.setCmd_ts (s : State) (c : Cmd) :
    (s.setCmd c).ts = s.ts := rfl
@[simp] theorem State.setCmd_reg (s : State) (c : Cmd) :
    (s.setCmd c).reg = s.reg := rfl
@[simp] theorem State.setCmd_chans (s : State) (c : Cmd) :
    (s.setCmd c).chans = s.chans := rfl
@[simp] theorem State.setCmd_cqs (s : State) (c : Cmd) :
    (s.setCmd c).cqs = s.cqs := rfl
@[simp] theorem State.setCmd_accts (s : State) (c : Cmd) :
    (s.setCmd c).accts = s.accts := rfl
@[simp] theorem State.setCmd_clus (s : State) (c : Cmd) :
    (s.setCmd c).clus = s.clus := rfl
@[simp] theorem State.setCmd_cnts (s : State) (c : Cmd) :
    (s.setCmd c).cnts = s.cnts := rfl
@[simp] theorem State.setCmd_resvs (s : State) (c : Cmd) :
    (s.setCmd c).resvs = s.resvs := rfl
@[simp] theorem State.setCmd_pslots (s : State) (c : Cmd) :
    (s.setCmd c).pslots = s.pslots := rfl
@[simp] theorem State.setCmd_scales (s : State) (c : Cmd) :
    (s.setCmd c).scales = s.scales := rfl
@[simp] theorem State.setCmd_mem (s : State) (c : Cmd) :
    (s.setCmd c).mem = s.mem := rfl
@[simp] theorem State.setCmd_frames (s : State) (c : Cmd) :
    (s.setCmd c).frames = s.frames := rfl
@[simp] theorem State.setCmd_objs (s : State) (c : Cmd) :
    (s.setCmd c).objs = s.objs := rfl
@[simp] theorem State.setCmd_place (s : State) (c : Cmd) :
    (s.setCmd c).place = s.place := rfl
@[simp] theorem State.setCmd_streams (s : State) (c : Cmd) :
    (s.setCmd c).streams = s.streams := rfl
@[simp] theorem State.setCmd_xfers (s : State) (c : Cmd) :
    (s.setCmd c).xfers = s.xfers := rfl
@[simp] theorem State.setCmd_link (s : State) (c : Cmd) :
    (s.setCmd c).link = s.link := rfl
@[simp] theorem State.setCmd_host (s : State) (c : Cmd) :
    (s.setCmd c).host = s.host := rfl
@[simp] theorem State.setCmd_fab (s : State) (c : Cmd) :
    (s.setCmd c).fab = s.fab := rfl
@[simp] theorem State.setCmd_integ (s : State) (c : Cmd) :
    (s.setCmd c).integ = s.integ := rfl
@[simp] theorem State.setCmd_icnt (s : State) (c : Cmd) :
    (s.setCmd c).icnt = s.icnt := rfl
@[simp] theorem State.setCmd_sup (s : State) (c : Cmd) :
    (s.setCmd c).sup = s.sup := rfl
@[simp] theorem State.setCmd_mon (s : State) (c : Cmd) :
    (s.setCmd c).mon = s.mon := rfl
@[simp] theorem State.setCmd_sec (s : State) (c : Cmd) :
    (s.setCmd c).sec = s.sec := rfl
@[simp] theorem State.setCmd_sb (s : State) (c : Cmd) :
    (s.setCmd c).sb = s.sb := rfl
@[simp] theorem State.setCmd_staged (s : State) (c : Cmd) :
    (s.setCmd c).staged = s.staged := rfl
@[simp] theorem State.setCmd_out (s : State) (c : Cmd) :
    (s.setCmd c).out = s.out := rfl
@[simp] theorem State.setCmd_freeCtr (s : State) (c : Cmd) :
    (s.setCmd c).freeCtr = s.freeCtr := rfl
@[simp] theorem State.setCmd_pending (s : State) (c : Cmd) :
    (s.setCmd c).pending = s.pending := rfl

/-! `State.setCtx` changes `gfe` only. -/

@[simp] theorem State.setCtx_clk (s : State) (x : Ctx) :
    (s.setCtx x).clk = s.clk := rfl
@[simp] theorem State.setCtx_ts (s : State) (x : Ctx) :
    (s.setCtx x).ts = s.ts := rfl
@[simp] theorem State.setCtx_reg (s : State) (x : Ctx) :
    (s.setCtx x).reg = s.reg := rfl
@[simp] theorem State.setCtx_chans (s : State) (x : Ctx) :
    (s.setCtx x).chans = s.chans := rfl
@[simp] theorem State.setCtx_cqs (s : State) (x : Ctx) :
    (s.setCtx x).cqs = s.cqs := rfl
@[simp] theorem State.setCtx_accts (s : State) (x : Ctx) :
    (s.setCtx x).accts = s.accts := rfl
@[simp] theorem State.setCtx_clus (s : State) (x : Ctx) :
    (s.setCtx x).clus = s.clus := rfl
@[simp] theorem State.setCtx_cnts (s : State) (x : Ctx) :
    (s.setCtx x).cnts = s.cnts := rfl
@[simp] theorem State.setCtx_resvs (s : State) (x : Ctx) :
    (s.setCtx x).resvs = s.resvs := rfl
@[simp] theorem State.setCtx_pslots (s : State) (x : Ctx) :
    (s.setCtx x).pslots = s.pslots := rfl
@[simp] theorem State.setCtx_scales (s : State) (x : Ctx) :
    (s.setCtx x).scales = s.scales := rfl
@[simp] theorem State.setCtx_mem (s : State) (x : Ctx) :
    (s.setCtx x).mem = s.mem := rfl
@[simp] theorem State.setCtx_frames (s : State) (x : Ctx) :
    (s.setCtx x).frames = s.frames := rfl
@[simp] theorem State.setCtx_objs (s : State) (x : Ctx) :
    (s.setCtx x).objs = s.objs := rfl
@[simp] theorem State.setCtx_place (s : State) (x : Ctx) :
    (s.setCtx x).place = s.place := rfl
@[simp] theorem State.setCtx_streams (s : State) (x : Ctx) :
    (s.setCtx x).streams = s.streams := rfl
@[simp] theorem State.setCtx_xfers (s : State) (x : Ctx) :
    (s.setCtx x).xfers = s.xfers := rfl
@[simp] theorem State.setCtx_link (s : State) (x : Ctx) :
    (s.setCtx x).link = s.link := rfl
@[simp] theorem State.setCtx_host (s : State) (x : Ctx) :
    (s.setCtx x).host = s.host := rfl
@[simp] theorem State.setCtx_fab (s : State) (x : Ctx) :
    (s.setCtx x).fab = s.fab := rfl
@[simp] theorem State.setCtx_integ (s : State) (x : Ctx) :
    (s.setCtx x).integ = s.integ := rfl
@[simp] theorem State.setCtx_icnt (s : State) (x : Ctx) :
    (s.setCtx x).icnt = s.icnt := rfl
@[simp] theorem State.setCtx_sup (s : State) (x : Ctx) :
    (s.setCtx x).sup = s.sup := rfl
@[simp] theorem State.setCtx_mon (s : State) (x : Ctx) :
    (s.setCtx x).mon = s.mon := rfl
@[simp] theorem State.setCtx_sec (s : State) (x : Ctx) :
    (s.setCtx x).sec = s.sec := rfl
@[simp] theorem State.setCtx_sb (s : State) (x : Ctx) :
    (s.setCtx x).sb = s.sb := rfl
@[simp] theorem State.setCtx_staged (s : State) (x : Ctx) :
    (s.setCtx x).staged = s.staged := rfl
@[simp] theorem State.setCtx_out (s : State) (x : Ctx) :
    (s.setCtx x).out = s.out := rfl
@[simp] theorem State.setCtx_freeCtr (s : State) (x : Ctx) :
    (s.setCtx x).freeCtr = s.freeCtr := rfl
@[simp] theorem State.setCtx_pending (s : State) (x : Ctx) :
    (s.setCtx x).pending = s.pending := rfl

/-! `State.dropCtx` changes `gfe` only. -/

@[simp] theorem State.dropCtx_clk (s : State) (i : Nat) :
    (s.dropCtx i).clk = s.clk := rfl
@[simp] theorem State.dropCtx_ts (s : State) (i : Nat) :
    (s.dropCtx i).ts = s.ts := rfl
@[simp] theorem State.dropCtx_reg (s : State) (i : Nat) :
    (s.dropCtx i).reg = s.reg := rfl
@[simp] theorem State.dropCtx_chans (s : State) (i : Nat) :
    (s.dropCtx i).chans = s.chans := rfl
@[simp] theorem State.dropCtx_cqs (s : State) (i : Nat) :
    (s.dropCtx i).cqs = s.cqs := rfl
@[simp] theorem State.dropCtx_accts (s : State) (i : Nat) :
    (s.dropCtx i).accts = s.accts := rfl
@[simp] theorem State.dropCtx_clus (s : State) (i : Nat) :
    (s.dropCtx i).clus = s.clus := rfl
@[simp] theorem State.dropCtx_cnts (s : State) (i : Nat) :
    (s.dropCtx i).cnts = s.cnts := rfl
@[simp] theorem State.dropCtx_resvs (s : State) (i : Nat) :
    (s.dropCtx i).resvs = s.resvs := rfl
@[simp] theorem State.dropCtx_pslots (s : State) (i : Nat) :
    (s.dropCtx i).pslots = s.pslots := rfl
@[simp] theorem State.dropCtx_scales (s : State) (i : Nat) :
    (s.dropCtx i).scales = s.scales := rfl
@[simp] theorem State.dropCtx_mem (s : State) (i : Nat) :
    (s.dropCtx i).mem = s.mem := rfl
@[simp] theorem State.dropCtx_frames (s : State) (i : Nat) :
    (s.dropCtx i).frames = s.frames := rfl
@[simp] theorem State.dropCtx_objs (s : State) (i : Nat) :
    (s.dropCtx i).objs = s.objs := rfl
@[simp] theorem State.dropCtx_place (s : State) (i : Nat) :
    (s.dropCtx i).place = s.place := rfl
@[simp] theorem State.dropCtx_streams (s : State) (i : Nat) :
    (s.dropCtx i).streams = s.streams := rfl
@[simp] theorem State.dropCtx_xfers (s : State) (i : Nat) :
    (s.dropCtx i).xfers = s.xfers := rfl
@[simp] theorem State.dropCtx_link (s : State) (i : Nat) :
    (s.dropCtx i).link = s.link := rfl
@[simp] theorem State.dropCtx_host (s : State) (i : Nat) :
    (s.dropCtx i).host = s.host := rfl
@[simp] theorem State.dropCtx_fab (s : State) (i : Nat) :
    (s.dropCtx i).fab = s.fab := rfl
@[simp] theorem State.dropCtx_integ (s : State) (i : Nat) :
    (s.dropCtx i).integ = s.integ := rfl
@[simp] theorem State.dropCtx_icnt (s : State) (i : Nat) :
    (s.dropCtx i).icnt = s.icnt := rfl
@[simp] theorem State.dropCtx_sup (s : State) (i : Nat) :
    (s.dropCtx i).sup = s.sup := rfl
@[simp] theorem State.dropCtx_mon (s : State) (i : Nat) :
    (s.dropCtx i).mon = s.mon := rfl
@[simp] theorem State.dropCtx_sec (s : State) (i : Nat) :
    (s.dropCtx i).sec = s.sec := rfl
@[simp] theorem State.dropCtx_sb (s : State) (i : Nat) :
    (s.dropCtx i).sb = s.sb := rfl
@[simp] theorem State.dropCtx_staged (s : State) (i : Nat) :
    (s.dropCtx i).staged = s.staged := rfl
@[simp] theorem State.dropCtx_out (s : State) (i : Nat) :
    (s.dropCtx i).out = s.out := rfl
@[simp] theorem State.dropCtx_freeCtr (s : State) (i : Nat) :
    (s.dropCtx i).freeCtr = s.freeCtr := rfl
@[simp] theorem State.dropCtx_pending (s : State) (i : Nat) :
    (s.dropCtx i).pending = s.pending := rfl

/-! `State.setExtra` changes `gfe` only. -/

@[simp] theorem State.setExtra_clk (s : State) (e : CmdExtra) :
    (s.setExtra e).clk = s.clk := rfl
@[simp] theorem State.setExtra_ts (s : State) (e : CmdExtra) :
    (s.setExtra e).ts = s.ts := rfl
@[simp] theorem State.setExtra_reg (s : State) (e : CmdExtra) :
    (s.setExtra e).reg = s.reg := rfl
@[simp] theorem State.setExtra_chans (s : State) (e : CmdExtra) :
    (s.setExtra e).chans = s.chans := rfl
@[simp] theorem State.setExtra_cqs (s : State) (e : CmdExtra) :
    (s.setExtra e).cqs = s.cqs := rfl
@[simp] theorem State.setExtra_accts (s : State) (e : CmdExtra) :
    (s.setExtra e).accts = s.accts := rfl
@[simp] theorem State.setExtra_clus (s : State) (e : CmdExtra) :
    (s.setExtra e).clus = s.clus := rfl
@[simp] theorem State.setExtra_cnts (s : State) (e : CmdExtra) :
    (s.setExtra e).cnts = s.cnts := rfl
@[simp] theorem State.setExtra_resvs (s : State) (e : CmdExtra) :
    (s.setExtra e).resvs = s.resvs := rfl
@[simp] theorem State.setExtra_pslots (s : State) (e : CmdExtra) :
    (s.setExtra e).pslots = s.pslots := rfl
@[simp] theorem State.setExtra_scales (s : State) (e : CmdExtra) :
    (s.setExtra e).scales = s.scales := rfl
@[simp] theorem State.setExtra_mem (s : State) (e : CmdExtra) :
    (s.setExtra e).mem = s.mem := rfl
@[simp] theorem State.setExtra_frames (s : State) (e : CmdExtra) :
    (s.setExtra e).frames = s.frames := rfl
@[simp] theorem State.setExtra_objs (s : State) (e : CmdExtra) :
    (s.setExtra e).objs = s.objs := rfl
@[simp] theorem State.setExtra_place (s : State) (e : CmdExtra) :
    (s.setExtra e).place = s.place := rfl
@[simp] theorem State.setExtra_streams (s : State) (e : CmdExtra) :
    (s.setExtra e).streams = s.streams := rfl
@[simp] theorem State.setExtra_xfers (s : State) (e : CmdExtra) :
    (s.setExtra e).xfers = s.xfers := rfl
@[simp] theorem State.setExtra_link (s : State) (e : CmdExtra) :
    (s.setExtra e).link = s.link := rfl
@[simp] theorem State.setExtra_host (s : State) (e : CmdExtra) :
    (s.setExtra e).host = s.host := rfl
@[simp] theorem State.setExtra_fab (s : State) (e : CmdExtra) :
    (s.setExtra e).fab = s.fab := rfl
@[simp] theorem State.setExtra_integ (s : State) (e : CmdExtra) :
    (s.setExtra e).integ = s.integ := rfl
@[simp] theorem State.setExtra_icnt (s : State) (e : CmdExtra) :
    (s.setExtra e).icnt = s.icnt := rfl
@[simp] theorem State.setExtra_sup (s : State) (e : CmdExtra) :
    (s.setExtra e).sup = s.sup := rfl
@[simp] theorem State.setExtra_mon (s : State) (e : CmdExtra) :
    (s.setExtra e).mon = s.mon := rfl
@[simp] theorem State.setExtra_sec (s : State) (e : CmdExtra) :
    (s.setExtra e).sec = s.sec := rfl
@[simp] theorem State.setExtra_sb (s : State) (e : CmdExtra) :
    (s.setExtra e).sb = s.sb := rfl
@[simp] theorem State.setExtra_staged (s : State) (e : CmdExtra) :
    (s.setExtra e).staged = s.staged := rfl
@[simp] theorem State.setExtra_out (s : State) (e : CmdExtra) :
    (s.setExtra e).out = s.out := rfl
@[simp] theorem State.setExtra_freeCtr (s : State) (e : CmdExtra) :
    (s.setExtra e).freeCtr = s.freeCtr := rfl
@[simp] theorem State.setExtra_pending (s : State) (e : CmdExtra) :
    (s.setExtra e).pending = s.pending := rfl

/-! `State.setLaunch` changes `gfe` only. -/

@[simp] theorem State.setLaunch_clk (s : State) (l : Launch) :
    (s.setLaunch l).clk = s.clk := rfl
@[simp] theorem State.setLaunch_ts (s : State) (l : Launch) :
    (s.setLaunch l).ts = s.ts := rfl
@[simp] theorem State.setLaunch_reg (s : State) (l : Launch) :
    (s.setLaunch l).reg = s.reg := rfl
@[simp] theorem State.setLaunch_chans (s : State) (l : Launch) :
    (s.setLaunch l).chans = s.chans := rfl
@[simp] theorem State.setLaunch_cqs (s : State) (l : Launch) :
    (s.setLaunch l).cqs = s.cqs := rfl
@[simp] theorem State.setLaunch_accts (s : State) (l : Launch) :
    (s.setLaunch l).accts = s.accts := rfl
@[simp] theorem State.setLaunch_clus (s : State) (l : Launch) :
    (s.setLaunch l).clus = s.clus := rfl
@[simp] theorem State.setLaunch_cnts (s : State) (l : Launch) :
    (s.setLaunch l).cnts = s.cnts := rfl
@[simp] theorem State.setLaunch_resvs (s : State) (l : Launch) :
    (s.setLaunch l).resvs = s.resvs := rfl
@[simp] theorem State.setLaunch_pslots (s : State) (l : Launch) :
    (s.setLaunch l).pslots = s.pslots := rfl
@[simp] theorem State.setLaunch_scales (s : State) (l : Launch) :
    (s.setLaunch l).scales = s.scales := rfl
@[simp] theorem State.setLaunch_mem (s : State) (l : Launch) :
    (s.setLaunch l).mem = s.mem := rfl
@[simp] theorem State.setLaunch_frames (s : State) (l : Launch) :
    (s.setLaunch l).frames = s.frames := rfl
@[simp] theorem State.setLaunch_objs (s : State) (l : Launch) :
    (s.setLaunch l).objs = s.objs := rfl
@[simp] theorem State.setLaunch_place (s : State) (l : Launch) :
    (s.setLaunch l).place = s.place := rfl
@[simp] theorem State.setLaunch_streams (s : State) (l : Launch) :
    (s.setLaunch l).streams = s.streams := rfl
@[simp] theorem State.setLaunch_xfers (s : State) (l : Launch) :
    (s.setLaunch l).xfers = s.xfers := rfl
@[simp] theorem State.setLaunch_link (s : State) (l : Launch) :
    (s.setLaunch l).link = s.link := rfl
@[simp] theorem State.setLaunch_host (s : State) (l : Launch) :
    (s.setLaunch l).host = s.host := rfl
@[simp] theorem State.setLaunch_fab (s : State) (l : Launch) :
    (s.setLaunch l).fab = s.fab := rfl
@[simp] theorem State.setLaunch_integ (s : State) (l : Launch) :
    (s.setLaunch l).integ = s.integ := rfl
@[simp] theorem State.setLaunch_icnt (s : State) (l : Launch) :
    (s.setLaunch l).icnt = s.icnt := rfl
@[simp] theorem State.setLaunch_sup (s : State) (l : Launch) :
    (s.setLaunch l).sup = s.sup := rfl
@[simp] theorem State.setLaunch_mon (s : State) (l : Launch) :
    (s.setLaunch l).mon = s.mon := rfl
@[simp] theorem State.setLaunch_sec (s : State) (l : Launch) :
    (s.setLaunch l).sec = s.sec := rfl
@[simp] theorem State.setLaunch_sb (s : State) (l : Launch) :
    (s.setLaunch l).sb = s.sb := rfl
@[simp] theorem State.setLaunch_staged (s : State) (l : Launch) :
    (s.setLaunch l).staged = s.staged := rfl
@[simp] theorem State.setLaunch_out (s : State) (l : Launch) :
    (s.setLaunch l).out = s.out := rfl
@[simp] theorem State.setLaunch_freeCtr (s : State) (l : Launch) :
    (s.setLaunch l).freeCtr = s.freeCtr := rfl
@[simp] theorem State.setLaunch_pending (s : State) (l : Launch) :
    (s.setLaunch l).pending = s.pending := rfl

/-! `State.dropLaunch` changes `gfe` only. -/

@[simp] theorem State.dropLaunch_clk (s : State) (l : Nat) :
    (s.dropLaunch l).clk = s.clk := rfl
@[simp] theorem State.dropLaunch_ts (s : State) (l : Nat) :
    (s.dropLaunch l).ts = s.ts := rfl
@[simp] theorem State.dropLaunch_reg (s : State) (l : Nat) :
    (s.dropLaunch l).reg = s.reg := rfl
@[simp] theorem State.dropLaunch_chans (s : State) (l : Nat) :
    (s.dropLaunch l).chans = s.chans := rfl
@[simp] theorem State.dropLaunch_cqs (s : State) (l : Nat) :
    (s.dropLaunch l).cqs = s.cqs := rfl
@[simp] theorem State.dropLaunch_accts (s : State) (l : Nat) :
    (s.dropLaunch l).accts = s.accts := rfl
@[simp] theorem State.dropLaunch_clus (s : State) (l : Nat) :
    (s.dropLaunch l).clus = s.clus := rfl
@[simp] theorem State.dropLaunch_cnts (s : State) (l : Nat) :
    (s.dropLaunch l).cnts = s.cnts := rfl
@[simp] theorem State.dropLaunch_resvs (s : State) (l : Nat) :
    (s.dropLaunch l).resvs = s.resvs := rfl
@[simp] theorem State.dropLaunch_pslots (s : State) (l : Nat) :
    (s.dropLaunch l).pslots = s.pslots := rfl
@[simp] theorem State.dropLaunch_scales (s : State) (l : Nat) :
    (s.dropLaunch l).scales = s.scales := rfl
@[simp] theorem State.dropLaunch_mem (s : State) (l : Nat) :
    (s.dropLaunch l).mem = s.mem := rfl
@[simp] theorem State.dropLaunch_frames (s : State) (l : Nat) :
    (s.dropLaunch l).frames = s.frames := rfl
@[simp] theorem State.dropLaunch_objs (s : State) (l : Nat) :
    (s.dropLaunch l).objs = s.objs := rfl
@[simp] theorem State.dropLaunch_place (s : State) (l : Nat) :
    (s.dropLaunch l).place = s.place := rfl
@[simp] theorem State.dropLaunch_streams (s : State) (l : Nat) :
    (s.dropLaunch l).streams = s.streams := rfl
@[simp] theorem State.dropLaunch_xfers (s : State) (l : Nat) :
    (s.dropLaunch l).xfers = s.xfers := rfl
@[simp] theorem State.dropLaunch_link (s : State) (l : Nat) :
    (s.dropLaunch l).link = s.link := rfl
@[simp] theorem State.dropLaunch_host (s : State) (l : Nat) :
    (s.dropLaunch l).host = s.host := rfl
@[simp] theorem State.dropLaunch_fab (s : State) (l : Nat) :
    (s.dropLaunch l).fab = s.fab := rfl
@[simp] theorem State.dropLaunch_integ (s : State) (l : Nat) :
    (s.dropLaunch l).integ = s.integ := rfl
@[simp] theorem State.dropLaunch_icnt (s : State) (l : Nat) :
    (s.dropLaunch l).icnt = s.icnt := rfl
@[simp] theorem State.dropLaunch_sup (s : State) (l : Nat) :
    (s.dropLaunch l).sup = s.sup := rfl
@[simp] theorem State.dropLaunch_mon (s : State) (l : Nat) :
    (s.dropLaunch l).mon = s.mon := rfl
@[simp] theorem State.dropLaunch_sec (s : State) (l : Nat) :
    (s.dropLaunch l).sec = s.sec := rfl
@[simp] theorem State.dropLaunch_sb (s : State) (l : Nat) :
    (s.dropLaunch l).sb = s.sb := rfl
@[simp] theorem State.dropLaunch_staged (s : State) (l : Nat) :
    (s.dropLaunch l).staged = s.staged := rfl
@[simp] theorem State.dropLaunch_out (s : State) (l : Nat) :
    (s.dropLaunch l).out = s.out := rfl
@[simp] theorem State.dropLaunch_freeCtr (s : State) (l : Nat) :
    (s.dropLaunch l).freeCtr = s.freeCtr := rfl
@[simp] theorem State.dropLaunch_pending (s : State) (l : Nat) :
    (s.dropLaunch l).pending = s.pending := rfl

/-! `State.setFence` changes `gfe` only. -/

@[simp] theorem State.setFence_clk (s : State) (n : Nat) (v : Fence) :
    (s.setFence n v).clk = s.clk := rfl
@[simp] theorem State.setFence_ts (s : State) (n : Nat) (v : Fence) :
    (s.setFence n v).ts = s.ts := rfl
@[simp] theorem State.setFence_reg (s : State) (n : Nat) (v : Fence) :
    (s.setFence n v).reg = s.reg := rfl
@[simp] theorem State.setFence_chans (s : State) (n : Nat) (v : Fence) :
    (s.setFence n v).chans = s.chans := rfl
@[simp] theorem State.setFence_cqs (s : State) (n : Nat) (v : Fence) :
    (s.setFence n v).cqs = s.cqs := rfl
@[simp] theorem State.setFence_accts (s : State) (n : Nat) (v : Fence) :
    (s.setFence n v).accts = s.accts := rfl
@[simp] theorem State.setFence_clus (s : State) (n : Nat) (v : Fence) :
    (s.setFence n v).clus = s.clus := rfl
@[simp] theorem State.setFence_cnts (s : State) (n : Nat) (v : Fence) :
    (s.setFence n v).cnts = s.cnts := rfl
@[simp] theorem State.setFence_resvs (s : State) (n : Nat) (v : Fence) :
    (s.setFence n v).resvs = s.resvs := rfl
@[simp] theorem State.setFence_pslots (s : State) (n : Nat) (v : Fence) :
    (s.setFence n v).pslots = s.pslots := rfl
@[simp] theorem State.setFence_scales (s : State) (n : Nat) (v : Fence) :
    (s.setFence n v).scales = s.scales := rfl
@[simp] theorem State.setFence_mem (s : State) (n : Nat) (v : Fence) :
    (s.setFence n v).mem = s.mem := rfl
@[simp] theorem State.setFence_frames (s : State) (n : Nat) (v : Fence) :
    (s.setFence n v).frames = s.frames := rfl
@[simp] theorem State.setFence_objs (s : State) (n : Nat) (v : Fence) :
    (s.setFence n v).objs = s.objs := rfl
@[simp] theorem State.setFence_place (s : State) (n : Nat) (v : Fence) :
    (s.setFence n v).place = s.place := rfl
@[simp] theorem State.setFence_streams (s : State) (n : Nat) (v : Fence) :
    (s.setFence n v).streams = s.streams := rfl
@[simp] theorem State.setFence_xfers (s : State) (n : Nat) (v : Fence) :
    (s.setFence n v).xfers = s.xfers := rfl
@[simp] theorem State.setFence_link (s : State) (n : Nat) (v : Fence) :
    (s.setFence n v).link = s.link := rfl
@[simp] theorem State.setFence_host (s : State) (n : Nat) (v : Fence) :
    (s.setFence n v).host = s.host := rfl
@[simp] theorem State.setFence_fab (s : State) (n : Nat) (v : Fence) :
    (s.setFence n v).fab = s.fab := rfl
@[simp] theorem State.setFence_integ (s : State) (n : Nat) (v : Fence) :
    (s.setFence n v).integ = s.integ := rfl
@[simp] theorem State.setFence_icnt (s : State) (n : Nat) (v : Fence) :
    (s.setFence n v).icnt = s.icnt := rfl
@[simp] theorem State.setFence_sup (s : State) (n : Nat) (v : Fence) :
    (s.setFence n v).sup = s.sup := rfl
@[simp] theorem State.setFence_mon (s : State) (n : Nat) (v : Fence) :
    (s.setFence n v).mon = s.mon := rfl
@[simp] theorem State.setFence_sec (s : State) (n : Nat) (v : Fence) :
    (s.setFence n v).sec = s.sec := rfl
@[simp] theorem State.setFence_sb (s : State) (n : Nat) (v : Fence) :
    (s.setFence n v).sb = s.sb := rfl
@[simp] theorem State.setFence_staged (s : State) (n : Nat) (v : Fence) :
    (s.setFence n v).staged = s.staged := rfl
@[simp] theorem State.setFence_out (s : State) (n : Nat) (v : Fence) :
    (s.setFence n v).out = s.out := rfl
@[simp] theorem State.setFence_freeCtr (s : State) (n : Nat) (v : Fence) :
    (s.setFence n v).freeCtr = s.freeCtr := rfl
@[simp] theorem State.setFence_pending (s : State) (n : Nat) (v : Fence) :
    (s.setFence n v).pending = s.pending := rfl

/-! `State.setClu` changes `clus` only. -/

@[simp] theorem State.setClu_clk (s : State) (n : Nat) (v : Clu) :
    (s.setClu n v).clk = s.clk := rfl
@[simp] theorem State.setClu_ts (s : State) (n : Nat) (v : Clu) :
    (s.setClu n v).ts = s.ts := rfl
@[simp] theorem State.setClu_reg (s : State) (n : Nat) (v : Clu) :
    (s.setClu n v).reg = s.reg := rfl
@[simp] theorem State.setClu_chans (s : State) (n : Nat) (v : Clu) :
    (s.setClu n v).chans = s.chans := rfl
@[simp] theorem State.setClu_cqs (s : State) (n : Nat) (v : Clu) :
    (s.setClu n v).cqs = s.cqs := rfl
@[simp] theorem State.setClu_accts (s : State) (n : Nat) (v : Clu) :
    (s.setClu n v).accts = s.accts := rfl
@[simp] theorem State.setClu_gfe (s : State) (n : Nat) (v : Clu) :
    (s.setClu n v).gfe = s.gfe := rfl
@[simp] theorem State.setClu_cnts (s : State) (n : Nat) (v : Clu) :
    (s.setClu n v).cnts = s.cnts := rfl
@[simp] theorem State.setClu_resvs (s : State) (n : Nat) (v : Clu) :
    (s.setClu n v).resvs = s.resvs := rfl
@[simp] theorem State.setClu_pslots (s : State) (n : Nat) (v : Clu) :
    (s.setClu n v).pslots = s.pslots := rfl
@[simp] theorem State.setClu_scales (s : State) (n : Nat) (v : Clu) :
    (s.setClu n v).scales = s.scales := rfl
@[simp] theorem State.setClu_mem (s : State) (n : Nat) (v : Clu) :
    (s.setClu n v).mem = s.mem := rfl
@[simp] theorem State.setClu_frames (s : State) (n : Nat) (v : Clu) :
    (s.setClu n v).frames = s.frames := rfl
@[simp] theorem State.setClu_objs (s : State) (n : Nat) (v : Clu) :
    (s.setClu n v).objs = s.objs := rfl
@[simp] theorem State.setClu_place (s : State) (n : Nat) (v : Clu) :
    (s.setClu n v).place = s.place := rfl
@[simp] theorem State.setClu_streams (s : State) (n : Nat) (v : Clu) :
    (s.setClu n v).streams = s.streams := rfl
@[simp] theorem State.setClu_xfers (s : State) (n : Nat) (v : Clu) :
    (s.setClu n v).xfers = s.xfers := rfl
@[simp] theorem State.setClu_link (s : State) (n : Nat) (v : Clu) :
    (s.setClu n v).link = s.link := rfl
@[simp] theorem State.setClu_host (s : State) (n : Nat) (v : Clu) :
    (s.setClu n v).host = s.host := rfl
@[simp] theorem State.setClu_fab (s : State) (n : Nat) (v : Clu) :
    (s.setClu n v).fab = s.fab := rfl
@[simp] theorem State.setClu_integ (s : State) (n : Nat) (v : Clu) :
    (s.setClu n v).integ = s.integ := rfl
@[simp] theorem State.setClu_icnt (s : State) (n : Nat) (v : Clu) :
    (s.setClu n v).icnt = s.icnt := rfl
@[simp] theorem State.setClu_sup (s : State) (n : Nat) (v : Clu) :
    (s.setClu n v).sup = s.sup := rfl
@[simp] theorem State.setClu_mon (s : State) (n : Nat) (v : Clu) :
    (s.setClu n v).mon = s.mon := rfl
@[simp] theorem State.setClu_sec (s : State) (n : Nat) (v : Clu) :
    (s.setClu n v).sec = s.sec := rfl
@[simp] theorem State.setClu_sb (s : State) (n : Nat) (v : Clu) :
    (s.setClu n v).sb = s.sb := rfl
@[simp] theorem State.setClu_staged (s : State) (n : Nat) (v : Clu) :
    (s.setClu n v).staged = s.staged := rfl
@[simp] theorem State.setClu_out (s : State) (n : Nat) (v : Clu) :
    (s.setClu n v).out = s.out := rfl
@[simp] theorem State.setClu_freeCtr (s : State) (n : Nat) (v : Clu) :
    (s.setClu n v).freeCtr = s.freeCtr := rfl
@[simp] theorem State.setClu_pending (s : State) (n : Nat) (v : Clu) :
    (s.setClu n v).pending = s.pending := rfl

/-! `State.setCnt` changes `cnts` only. -/

@[simp] theorem State.setCnt_clk (s : State) (n : Nat) (v : CluCnt) :
    (s.setCnt n v).clk = s.clk := rfl
@[simp] theorem State.setCnt_ts (s : State) (n : Nat) (v : CluCnt) :
    (s.setCnt n v).ts = s.ts := rfl
@[simp] theorem State.setCnt_reg (s : State) (n : Nat) (v : CluCnt) :
    (s.setCnt n v).reg = s.reg := rfl
@[simp] theorem State.setCnt_chans (s : State) (n : Nat) (v : CluCnt) :
    (s.setCnt n v).chans = s.chans := rfl
@[simp] theorem State.setCnt_cqs (s : State) (n : Nat) (v : CluCnt) :
    (s.setCnt n v).cqs = s.cqs := rfl
@[simp] theorem State.setCnt_accts (s : State) (n : Nat) (v : CluCnt) :
    (s.setCnt n v).accts = s.accts := rfl
@[simp] theorem State.setCnt_gfe (s : State) (n : Nat) (v : CluCnt) :
    (s.setCnt n v).gfe = s.gfe := rfl
@[simp] theorem State.setCnt_clus (s : State) (n : Nat) (v : CluCnt) :
    (s.setCnt n v).clus = s.clus := rfl
@[simp] theorem State.setCnt_resvs (s : State) (n : Nat) (v : CluCnt) :
    (s.setCnt n v).resvs = s.resvs := rfl
@[simp] theorem State.setCnt_pslots (s : State) (n : Nat) (v : CluCnt) :
    (s.setCnt n v).pslots = s.pslots := rfl
@[simp] theorem State.setCnt_scales (s : State) (n : Nat) (v : CluCnt) :
    (s.setCnt n v).scales = s.scales := rfl
@[simp] theorem State.setCnt_mem (s : State) (n : Nat) (v : CluCnt) :
    (s.setCnt n v).mem = s.mem := rfl
@[simp] theorem State.setCnt_frames (s : State) (n : Nat) (v : CluCnt) :
    (s.setCnt n v).frames = s.frames := rfl
@[simp] theorem State.setCnt_objs (s : State) (n : Nat) (v : CluCnt) :
    (s.setCnt n v).objs = s.objs := rfl
@[simp] theorem State.setCnt_place (s : State) (n : Nat) (v : CluCnt) :
    (s.setCnt n v).place = s.place := rfl
@[simp] theorem State.setCnt_streams (s : State) (n : Nat) (v : CluCnt) :
    (s.setCnt n v).streams = s.streams := rfl
@[simp] theorem State.setCnt_xfers (s : State) (n : Nat) (v : CluCnt) :
    (s.setCnt n v).xfers = s.xfers := rfl
@[simp] theorem State.setCnt_link (s : State) (n : Nat) (v : CluCnt) :
    (s.setCnt n v).link = s.link := rfl
@[simp] theorem State.setCnt_host (s : State) (n : Nat) (v : CluCnt) :
    (s.setCnt n v).host = s.host := rfl
@[simp] theorem State.setCnt_fab (s : State) (n : Nat) (v : CluCnt) :
    (s.setCnt n v).fab = s.fab := rfl
@[simp] theorem State.setCnt_integ (s : State) (n : Nat) (v : CluCnt) :
    (s.setCnt n v).integ = s.integ := rfl
@[simp] theorem State.setCnt_icnt (s : State) (n : Nat) (v : CluCnt) :
    (s.setCnt n v).icnt = s.icnt := rfl
@[simp] theorem State.setCnt_sup (s : State) (n : Nat) (v : CluCnt) :
    (s.setCnt n v).sup = s.sup := rfl
@[simp] theorem State.setCnt_mon (s : State) (n : Nat) (v : CluCnt) :
    (s.setCnt n v).mon = s.mon := rfl
@[simp] theorem State.setCnt_sec (s : State) (n : Nat) (v : CluCnt) :
    (s.setCnt n v).sec = s.sec := rfl
@[simp] theorem State.setCnt_sb (s : State) (n : Nat) (v : CluCnt) :
    (s.setCnt n v).sb = s.sb := rfl
@[simp] theorem State.setCnt_staged (s : State) (n : Nat) (v : CluCnt) :
    (s.setCnt n v).staged = s.staged := rfl
@[simp] theorem State.setCnt_out (s : State) (n : Nat) (v : CluCnt) :
    (s.setCnt n v).out = s.out := rfl
@[simp] theorem State.setCnt_freeCtr (s : State) (n : Nat) (v : CluCnt) :
    (s.setCnt n v).freeCtr = s.freeCtr := rfl
@[simp] theorem State.setCnt_pending (s : State) (n : Nat) (v : CluCnt) :
    (s.setCnt n v).pending = s.pending := rfl

/-! `State.dropResv` changes `resvs` only. -/

@[simp] theorem State.dropResv_clk (s : State) (id : Nat) (n : Nat) :
    (s.dropResv id n).clk = s.clk := rfl
@[simp] theorem State.dropResv_ts (s : State) (id : Nat) (n : Nat) :
    (s.dropResv id n).ts = s.ts := rfl
@[simp] theorem State.dropResv_reg (s : State) (id : Nat) (n : Nat) :
    (s.dropResv id n).reg = s.reg := rfl
@[simp] theorem State.dropResv_chans (s : State) (id : Nat) (n : Nat) :
    (s.dropResv id n).chans = s.chans := rfl
@[simp] theorem State.dropResv_cqs (s : State) (id : Nat) (n : Nat) :
    (s.dropResv id n).cqs = s.cqs := rfl
@[simp] theorem State.dropResv_accts (s : State) (id : Nat) (n : Nat) :
    (s.dropResv id n).accts = s.accts := rfl
@[simp] theorem State.dropResv_gfe (s : State) (id : Nat) (n : Nat) :
    (s.dropResv id n).gfe = s.gfe := rfl
@[simp] theorem State.dropResv_clus (s : State) (id : Nat) (n : Nat) :
    (s.dropResv id n).clus = s.clus := rfl
@[simp] theorem State.dropResv_cnts (s : State) (id : Nat) (n : Nat) :
    (s.dropResv id n).cnts = s.cnts := rfl
@[simp] theorem State.dropResv_pslots (s : State) (id : Nat) (n : Nat) :
    (s.dropResv id n).pslots = s.pslots := rfl
@[simp] theorem State.dropResv_scales (s : State) (id : Nat) (n : Nat) :
    (s.dropResv id n).scales = s.scales := rfl
@[simp] theorem State.dropResv_mem (s : State) (id : Nat) (n : Nat) :
    (s.dropResv id n).mem = s.mem := rfl
@[simp] theorem State.dropResv_frames (s : State) (id : Nat) (n : Nat) :
    (s.dropResv id n).frames = s.frames := rfl
@[simp] theorem State.dropResv_objs (s : State) (id : Nat) (n : Nat) :
    (s.dropResv id n).objs = s.objs := rfl
@[simp] theorem State.dropResv_place (s : State) (id : Nat) (n : Nat) :
    (s.dropResv id n).place = s.place := rfl
@[simp] theorem State.dropResv_streams (s : State) (id : Nat) (n : Nat) :
    (s.dropResv id n).streams = s.streams := rfl
@[simp] theorem State.dropResv_xfers (s : State) (id : Nat) (n : Nat) :
    (s.dropResv id n).xfers = s.xfers := rfl
@[simp] theorem State.dropResv_link (s : State) (id : Nat) (n : Nat) :
    (s.dropResv id n).link = s.link := rfl
@[simp] theorem State.dropResv_host (s : State) (id : Nat) (n : Nat) :
    (s.dropResv id n).host = s.host := rfl
@[simp] theorem State.dropResv_fab (s : State) (id : Nat) (n : Nat) :
    (s.dropResv id n).fab = s.fab := rfl
@[simp] theorem State.dropResv_integ (s : State) (id : Nat) (n : Nat) :
    (s.dropResv id n).integ = s.integ := rfl
@[simp] theorem State.dropResv_icnt (s : State) (id : Nat) (n : Nat) :
    (s.dropResv id n).icnt = s.icnt := rfl
@[simp] theorem State.dropResv_sup (s : State) (id : Nat) (n : Nat) :
    (s.dropResv id n).sup = s.sup := rfl
@[simp] theorem State.dropResv_mon (s : State) (id : Nat) (n : Nat) :
    (s.dropResv id n).mon = s.mon := rfl
@[simp] theorem State.dropResv_sec (s : State) (id : Nat) (n : Nat) :
    (s.dropResv id n).sec = s.sec := rfl
@[simp] theorem State.dropResv_sb (s : State) (id : Nat) (n : Nat) :
    (s.dropResv id n).sb = s.sb := rfl
@[simp] theorem State.dropResv_staged (s : State) (id : Nat) (n : Nat) :
    (s.dropResv id n).staged = s.staged := rfl
@[simp] theorem State.dropResv_out (s : State) (id : Nat) (n : Nat) :
    (s.dropResv id n).out = s.out := rfl
@[simp] theorem State.dropResv_freeCtr (s : State) (id : Nat) (n : Nat) :
    (s.dropResv id n).freeCtr = s.freeCtr := rfl
@[simp] theorem State.dropResv_pending (s : State) (id : Nat) (n : Nat) :
    (s.dropResv id n).pending = s.pending := rfl

/-! `State.setPslot` changes `pslots` only. -/

@[simp] theorem State.setPslot_clk (s : State) (p : Nat) (v : PSlot) :
    (s.setPslot p v).clk = s.clk := rfl
@[simp] theorem State.setPslot_ts (s : State) (p : Nat) (v : PSlot) :
    (s.setPslot p v).ts = s.ts := rfl
@[simp] theorem State.setPslot_reg (s : State) (p : Nat) (v : PSlot) :
    (s.setPslot p v).reg = s.reg := rfl
@[simp] theorem State.setPslot_chans (s : State) (p : Nat) (v : PSlot) :
    (s.setPslot p v).chans = s.chans := rfl
@[simp] theorem State.setPslot_cqs (s : State) (p : Nat) (v : PSlot) :
    (s.setPslot p v).cqs = s.cqs := rfl
@[simp] theorem State.setPslot_accts (s : State) (p : Nat) (v : PSlot) :
    (s.setPslot p v).accts = s.accts := rfl
@[simp] theorem State.setPslot_gfe (s : State) (p : Nat) (v : PSlot) :
    (s.setPslot p v).gfe = s.gfe := rfl
@[simp] theorem State.setPslot_clus (s : State) (p : Nat) (v : PSlot) :
    (s.setPslot p v).clus = s.clus := rfl
@[simp] theorem State.setPslot_cnts (s : State) (p : Nat) (v : PSlot) :
    (s.setPslot p v).cnts = s.cnts := rfl
@[simp] theorem State.setPslot_resvs (s : State) (p : Nat) (v : PSlot) :
    (s.setPslot p v).resvs = s.resvs := rfl
@[simp] theorem State.setPslot_scales (s : State) (p : Nat) (v : PSlot) :
    (s.setPslot p v).scales = s.scales := rfl
@[simp] theorem State.setPslot_mem (s : State) (p : Nat) (v : PSlot) :
    (s.setPslot p v).mem = s.mem := rfl
@[simp] theorem State.setPslot_frames (s : State) (p : Nat) (v : PSlot) :
    (s.setPslot p v).frames = s.frames := rfl
@[simp] theorem State.setPslot_objs (s : State) (p : Nat) (v : PSlot) :
    (s.setPslot p v).objs = s.objs := rfl
@[simp] theorem State.setPslot_place (s : State) (p : Nat) (v : PSlot) :
    (s.setPslot p v).place = s.place := rfl
@[simp] theorem State.setPslot_streams (s : State) (p : Nat) (v : PSlot) :
    (s.setPslot p v).streams = s.streams := rfl
@[simp] theorem State.setPslot_xfers (s : State) (p : Nat) (v : PSlot) :
    (s.setPslot p v).xfers = s.xfers := rfl
@[simp] theorem State.setPslot_link (s : State) (p : Nat) (v : PSlot) :
    (s.setPslot p v).link = s.link := rfl
@[simp] theorem State.setPslot_host (s : State) (p : Nat) (v : PSlot) :
    (s.setPslot p v).host = s.host := rfl
@[simp] theorem State.setPslot_fab (s : State) (p : Nat) (v : PSlot) :
    (s.setPslot p v).fab = s.fab := rfl
@[simp] theorem State.setPslot_integ (s : State) (p : Nat) (v : PSlot) :
    (s.setPslot p v).integ = s.integ := rfl
@[simp] theorem State.setPslot_icnt (s : State) (p : Nat) (v : PSlot) :
    (s.setPslot p v).icnt = s.icnt := rfl
@[simp] theorem State.setPslot_sup (s : State) (p : Nat) (v : PSlot) :
    (s.setPslot p v).sup = s.sup := rfl
@[simp] theorem State.setPslot_mon (s : State) (p : Nat) (v : PSlot) :
    (s.setPslot p v).mon = s.mon := rfl
@[simp] theorem State.setPslot_sec (s : State) (p : Nat) (v : PSlot) :
    (s.setPslot p v).sec = s.sec := rfl
@[simp] theorem State.setPslot_sb (s : State) (p : Nat) (v : PSlot) :
    (s.setPslot p v).sb = s.sb := rfl
@[simp] theorem State.setPslot_staged (s : State) (p : Nat) (v : PSlot) :
    (s.setPslot p v).staged = s.staged := rfl
@[simp] theorem State.setPslot_out (s : State) (p : Nat) (v : PSlot) :
    (s.setPslot p v).out = s.out := rfl
@[simp] theorem State.setPslot_freeCtr (s : State) (p : Nat) (v : PSlot) :
    (s.setPslot p v).freeCtr = s.freeCtr := rfl
@[simp] theorem State.setPslot_pending (s : State) (p : Nat) (v : PSlot) :
    (s.setPslot p v).pending = s.pending := rfl

/-! `State.setScale` changes `scales` only. -/

@[simp] theorem State.setScale_clk (s : State) (n : Nat) (v : ScaleSlot) :
    (s.setScale n v).clk = s.clk := rfl
@[simp] theorem State.setScale_ts (s : State) (n : Nat) (v : ScaleSlot) :
    (s.setScale n v).ts = s.ts := rfl
@[simp] theorem State.setScale_reg (s : State) (n : Nat) (v : ScaleSlot) :
    (s.setScale n v).reg = s.reg := rfl
@[simp] theorem State.setScale_chans (s : State) (n : Nat) (v : ScaleSlot) :
    (s.setScale n v).chans = s.chans := rfl
@[simp] theorem State.setScale_cqs (s : State) (n : Nat) (v : ScaleSlot) :
    (s.setScale n v).cqs = s.cqs := rfl
@[simp] theorem State.setScale_accts (s : State) (n : Nat) (v : ScaleSlot) :
    (s.setScale n v).accts = s.accts := rfl
@[simp] theorem State.setScale_gfe (s : State) (n : Nat) (v : ScaleSlot) :
    (s.setScale n v).gfe = s.gfe := rfl
@[simp] theorem State.setScale_clus (s : State) (n : Nat) (v : ScaleSlot) :
    (s.setScale n v).clus = s.clus := rfl
@[simp] theorem State.setScale_cnts (s : State) (n : Nat) (v : ScaleSlot) :
    (s.setScale n v).cnts = s.cnts := rfl
@[simp] theorem State.setScale_resvs (s : State) (n : Nat) (v : ScaleSlot) :
    (s.setScale n v).resvs = s.resvs := rfl
@[simp] theorem State.setScale_pslots (s : State) (n : Nat) (v : ScaleSlot) :
    (s.setScale n v).pslots = s.pslots := rfl
@[simp] theorem State.setScale_mem (s : State) (n : Nat) (v : ScaleSlot) :
    (s.setScale n v).mem = s.mem := rfl
@[simp] theorem State.setScale_frames (s : State) (n : Nat) (v : ScaleSlot) :
    (s.setScale n v).frames = s.frames := rfl
@[simp] theorem State.setScale_objs (s : State) (n : Nat) (v : ScaleSlot) :
    (s.setScale n v).objs = s.objs := rfl
@[simp] theorem State.setScale_place (s : State) (n : Nat) (v : ScaleSlot) :
    (s.setScale n v).place = s.place := rfl
@[simp] theorem State.setScale_streams (s : State) (n : Nat) (v : ScaleSlot) :
    (s.setScale n v).streams = s.streams := rfl
@[simp] theorem State.setScale_xfers (s : State) (n : Nat) (v : ScaleSlot) :
    (s.setScale n v).xfers = s.xfers := rfl
@[simp] theorem State.setScale_link (s : State) (n : Nat) (v : ScaleSlot) :
    (s.setScale n v).link = s.link := rfl
@[simp] theorem State.setScale_host (s : State) (n : Nat) (v : ScaleSlot) :
    (s.setScale n v).host = s.host := rfl
@[simp] theorem State.setScale_fab (s : State) (n : Nat) (v : ScaleSlot) :
    (s.setScale n v).fab = s.fab := rfl
@[simp] theorem State.setScale_integ (s : State) (n : Nat) (v : ScaleSlot) :
    (s.setScale n v).integ = s.integ := rfl
@[simp] theorem State.setScale_icnt (s : State) (n : Nat) (v : ScaleSlot) :
    (s.setScale n v).icnt = s.icnt := rfl
@[simp] theorem State.setScale_sup (s : State) (n : Nat) (v : ScaleSlot) :
    (s.setScale n v).sup = s.sup := rfl
@[simp] theorem State.setScale_mon (s : State) (n : Nat) (v : ScaleSlot) :
    (s.setScale n v).mon = s.mon := rfl
@[simp] theorem State.setScale_sec (s : State) (n : Nat) (v : ScaleSlot) :
    (s.setScale n v).sec = s.sec := rfl
@[simp] theorem State.setScale_sb (s : State) (n : Nat) (v : ScaleSlot) :
    (s.setScale n v).sb = s.sb := rfl
@[simp] theorem State.setScale_staged (s : State) (n : Nat) (v : ScaleSlot) :
    (s.setScale n v).staged = s.staged := rfl
@[simp] theorem State.setScale_out (s : State) (n : Nat) (v : ScaleSlot) :
    (s.setScale n v).out = s.out := rfl
@[simp] theorem State.setScale_freeCtr (s : State) (n : Nat) (v : ScaleSlot) :
    (s.setScale n v).freeCtr = s.freeCtr := rfl
@[simp] theorem State.setScale_pending (s : State) (n : Nat) (v : ScaleSlot) :
    (s.setScale n v).pending = s.pending := rfl

/-! `State.writeBytes` changes `mem` only. -/

@[simp] theorem State.writeBytes_clk (s : State) (a : Nat) (bs : List Byte) :
    (s.writeBytes a bs).clk = s.clk := rfl
@[simp] theorem State.writeBytes_ts (s : State) (a : Nat) (bs : List Byte) :
    (s.writeBytes a bs).ts = s.ts := rfl
@[simp] theorem State.writeBytes_reg (s : State) (a : Nat) (bs : List Byte) :
    (s.writeBytes a bs).reg = s.reg := rfl
@[simp] theorem State.writeBytes_chans (s : State) (a : Nat) (bs : List Byte) :
    (s.writeBytes a bs).chans = s.chans := rfl
@[simp] theorem State.writeBytes_cqs (s : State) (a : Nat) (bs : List Byte) :
    (s.writeBytes a bs).cqs = s.cqs := rfl
@[simp] theorem State.writeBytes_accts (s : State) (a : Nat) (bs : List Byte) :
    (s.writeBytes a bs).accts = s.accts := rfl
@[simp] theorem State.writeBytes_gfe (s : State) (a : Nat) (bs : List Byte) :
    (s.writeBytes a bs).gfe = s.gfe := rfl
@[simp] theorem State.writeBytes_clus (s : State) (a : Nat) (bs : List Byte) :
    (s.writeBytes a bs).clus = s.clus := rfl
@[simp] theorem State.writeBytes_cnts (s : State) (a : Nat) (bs : List Byte) :
    (s.writeBytes a bs).cnts = s.cnts := rfl
@[simp] theorem State.writeBytes_resvs (s : State) (a : Nat) (bs : List Byte) :
    (s.writeBytes a bs).resvs = s.resvs := rfl
@[simp] theorem State.writeBytes_pslots (s : State) (a : Nat) (bs : List Byte) :
    (s.writeBytes a bs).pslots = s.pslots := rfl
@[simp] theorem State.writeBytes_scales (s : State) (a : Nat) (bs : List Byte) :
    (s.writeBytes a bs).scales = s.scales := rfl
@[simp] theorem State.writeBytes_frames (s : State) (a : Nat) (bs : List Byte) :
    (s.writeBytes a bs).frames = s.frames := rfl
@[simp] theorem State.writeBytes_objs (s : State) (a : Nat) (bs : List Byte) :
    (s.writeBytes a bs).objs = s.objs := rfl
@[simp] theorem State.writeBytes_place (s : State) (a : Nat) (bs : List Byte) :
    (s.writeBytes a bs).place = s.place := rfl
@[simp] theorem State.writeBytes_streams (s : State) (a : Nat) (bs : List Byte) :
    (s.writeBytes a bs).streams = s.streams := rfl
@[simp] theorem State.writeBytes_xfers (s : State) (a : Nat) (bs : List Byte) :
    (s.writeBytes a bs).xfers = s.xfers := rfl
@[simp] theorem State.writeBytes_link (s : State) (a : Nat) (bs : List Byte) :
    (s.writeBytes a bs).link = s.link := rfl
@[simp] theorem State.writeBytes_host (s : State) (a : Nat) (bs : List Byte) :
    (s.writeBytes a bs).host = s.host := rfl
@[simp] theorem State.writeBytes_fab (s : State) (a : Nat) (bs : List Byte) :
    (s.writeBytes a bs).fab = s.fab := rfl
@[simp] theorem State.writeBytes_integ (s : State) (a : Nat) (bs : List Byte) :
    (s.writeBytes a bs).integ = s.integ := rfl
@[simp] theorem State.writeBytes_icnt (s : State) (a : Nat) (bs : List Byte) :
    (s.writeBytes a bs).icnt = s.icnt := rfl
@[simp] theorem State.writeBytes_sup (s : State) (a : Nat) (bs : List Byte) :
    (s.writeBytes a bs).sup = s.sup := rfl
@[simp] theorem State.writeBytes_mon (s : State) (a : Nat) (bs : List Byte) :
    (s.writeBytes a bs).mon = s.mon := rfl
@[simp] theorem State.writeBytes_sec (s : State) (a : Nat) (bs : List Byte) :
    (s.writeBytes a bs).sec = s.sec := rfl
@[simp] theorem State.writeBytes_sb (s : State) (a : Nat) (bs : List Byte) :
    (s.writeBytes a bs).sb = s.sb := rfl
@[simp] theorem State.writeBytes_staged (s : State) (a : Nat) (bs : List Byte) :
    (s.writeBytes a bs).staged = s.staged := rfl
@[simp] theorem State.writeBytes_out (s : State) (a : Nat) (bs : List Byte) :
    (s.writeBytes a bs).out = s.out := rfl
@[simp] theorem State.writeBytes_freeCtr (s : State) (a : Nat) (bs : List Byte) :
    (s.writeBytes a bs).freeCtr = s.freeCtr := rfl
@[simp] theorem State.writeBytes_pending (s : State) (a : Nat) (bs : List Byte) :
    (s.writeBytes a bs).pending = s.pending := rfl

/-! `State.putByte` changes `mem` only. -/

@[simp] theorem State.putByte_clk (s : State) (a : Nat) (b : Byte) :
    (s.putByte a b).clk = s.clk := rfl
@[simp] theorem State.putByte_ts (s : State) (a : Nat) (b : Byte) :
    (s.putByte a b).ts = s.ts := rfl
@[simp] theorem State.putByte_reg (s : State) (a : Nat) (b : Byte) :
    (s.putByte a b).reg = s.reg := rfl
@[simp] theorem State.putByte_chans (s : State) (a : Nat) (b : Byte) :
    (s.putByte a b).chans = s.chans := rfl
@[simp] theorem State.putByte_cqs (s : State) (a : Nat) (b : Byte) :
    (s.putByte a b).cqs = s.cqs := rfl
@[simp] theorem State.putByte_accts (s : State) (a : Nat) (b : Byte) :
    (s.putByte a b).accts = s.accts := rfl
@[simp] theorem State.putByte_gfe (s : State) (a : Nat) (b : Byte) :
    (s.putByte a b).gfe = s.gfe := rfl
@[simp] theorem State.putByte_clus (s : State) (a : Nat) (b : Byte) :
    (s.putByte a b).clus = s.clus := rfl
@[simp] theorem State.putByte_cnts (s : State) (a : Nat) (b : Byte) :
    (s.putByte a b).cnts = s.cnts := rfl
@[simp] theorem State.putByte_resvs (s : State) (a : Nat) (b : Byte) :
    (s.putByte a b).resvs = s.resvs := rfl
@[simp] theorem State.putByte_pslots (s : State) (a : Nat) (b : Byte) :
    (s.putByte a b).pslots = s.pslots := rfl
@[simp] theorem State.putByte_scales (s : State) (a : Nat) (b : Byte) :
    (s.putByte a b).scales = s.scales := rfl
@[simp] theorem State.putByte_frames (s : State) (a : Nat) (b : Byte) :
    (s.putByte a b).frames = s.frames := rfl
@[simp] theorem State.putByte_objs (s : State) (a : Nat) (b : Byte) :
    (s.putByte a b).objs = s.objs := rfl
@[simp] theorem State.putByte_place (s : State) (a : Nat) (b : Byte) :
    (s.putByte a b).place = s.place := rfl
@[simp] theorem State.putByte_streams (s : State) (a : Nat) (b : Byte) :
    (s.putByte a b).streams = s.streams := rfl
@[simp] theorem State.putByte_xfers (s : State) (a : Nat) (b : Byte) :
    (s.putByte a b).xfers = s.xfers := rfl
@[simp] theorem State.putByte_link (s : State) (a : Nat) (b : Byte) :
    (s.putByte a b).link = s.link := rfl
@[simp] theorem State.putByte_host (s : State) (a : Nat) (b : Byte) :
    (s.putByte a b).host = s.host := rfl
@[simp] theorem State.putByte_fab (s : State) (a : Nat) (b : Byte) :
    (s.putByte a b).fab = s.fab := rfl
@[simp] theorem State.putByte_integ (s : State) (a : Nat) (b : Byte) :
    (s.putByte a b).integ = s.integ := rfl
@[simp] theorem State.putByte_icnt (s : State) (a : Nat) (b : Byte) :
    (s.putByte a b).icnt = s.icnt := rfl
@[simp] theorem State.putByte_sup (s : State) (a : Nat) (b : Byte) :
    (s.putByte a b).sup = s.sup := rfl
@[simp] theorem State.putByte_mon (s : State) (a : Nat) (b : Byte) :
    (s.putByte a b).mon = s.mon := rfl
@[simp] theorem State.putByte_sec (s : State) (a : Nat) (b : Byte) :
    (s.putByte a b).sec = s.sec := rfl
@[simp] theorem State.putByte_sb (s : State) (a : Nat) (b : Byte) :
    (s.putByte a b).sb = s.sb := rfl
@[simp] theorem State.putByte_staged (s : State) (a : Nat) (b : Byte) :
    (s.putByte a b).staged = s.staged := rfl
@[simp] theorem State.putByte_out (s : State) (a : Nat) (b : Byte) :
    (s.putByte a b).out = s.out := rfl
@[simp] theorem State.putByte_freeCtr (s : State) (a : Nat) (b : Byte) :
    (s.putByte a b).freeCtr = s.freeCtr := rfl
@[simp] theorem State.putByte_pending (s : State) (a : Nat) (b : Byte) :
    (s.putByte a b).pending = s.pending := rfl

/-! `State.setFrame` changes `frames` only. -/

@[simp] theorem State.setFrame_clk (s : State) (f : Nat) (v : FrameRec) :
    (s.setFrame f v).clk = s.clk := rfl
@[simp] theorem State.setFrame_ts (s : State) (f : Nat) (v : FrameRec) :
    (s.setFrame f v).ts = s.ts := rfl
@[simp] theorem State.setFrame_reg (s : State) (f : Nat) (v : FrameRec) :
    (s.setFrame f v).reg = s.reg := rfl
@[simp] theorem State.setFrame_chans (s : State) (f : Nat) (v : FrameRec) :
    (s.setFrame f v).chans = s.chans := rfl
@[simp] theorem State.setFrame_cqs (s : State) (f : Nat) (v : FrameRec) :
    (s.setFrame f v).cqs = s.cqs := rfl
@[simp] theorem State.setFrame_accts (s : State) (f : Nat) (v : FrameRec) :
    (s.setFrame f v).accts = s.accts := rfl
@[simp] theorem State.setFrame_gfe (s : State) (f : Nat) (v : FrameRec) :
    (s.setFrame f v).gfe = s.gfe := rfl
@[simp] theorem State.setFrame_clus (s : State) (f : Nat) (v : FrameRec) :
    (s.setFrame f v).clus = s.clus := rfl
@[simp] theorem State.setFrame_cnts (s : State) (f : Nat) (v : FrameRec) :
    (s.setFrame f v).cnts = s.cnts := rfl
@[simp] theorem State.setFrame_resvs (s : State) (f : Nat) (v : FrameRec) :
    (s.setFrame f v).resvs = s.resvs := rfl
@[simp] theorem State.setFrame_pslots (s : State) (f : Nat) (v : FrameRec) :
    (s.setFrame f v).pslots = s.pslots := rfl
@[simp] theorem State.setFrame_scales (s : State) (f : Nat) (v : FrameRec) :
    (s.setFrame f v).scales = s.scales := rfl
@[simp] theorem State.setFrame_mem (s : State) (f : Nat) (v : FrameRec) :
    (s.setFrame f v).mem = s.mem := rfl
@[simp] theorem State.setFrame_objs (s : State) (f : Nat) (v : FrameRec) :
    (s.setFrame f v).objs = s.objs := rfl
@[simp] theorem State.setFrame_place (s : State) (f : Nat) (v : FrameRec) :
    (s.setFrame f v).place = s.place := rfl
@[simp] theorem State.setFrame_streams (s : State) (f : Nat) (v : FrameRec) :
    (s.setFrame f v).streams = s.streams := rfl
@[simp] theorem State.setFrame_xfers (s : State) (f : Nat) (v : FrameRec) :
    (s.setFrame f v).xfers = s.xfers := rfl
@[simp] theorem State.setFrame_link (s : State) (f : Nat) (v : FrameRec) :
    (s.setFrame f v).link = s.link := rfl
@[simp] theorem State.setFrame_host (s : State) (f : Nat) (v : FrameRec) :
    (s.setFrame f v).host = s.host := rfl
@[simp] theorem State.setFrame_fab (s : State) (f : Nat) (v : FrameRec) :
    (s.setFrame f v).fab = s.fab := rfl
@[simp] theorem State.setFrame_integ (s : State) (f : Nat) (v : FrameRec) :
    (s.setFrame f v).integ = s.integ := rfl
@[simp] theorem State.setFrame_icnt (s : State) (f : Nat) (v : FrameRec) :
    (s.setFrame f v).icnt = s.icnt := rfl
@[simp] theorem State.setFrame_sup (s : State) (f : Nat) (v : FrameRec) :
    (s.setFrame f v).sup = s.sup := rfl
@[simp] theorem State.setFrame_mon (s : State) (f : Nat) (v : FrameRec) :
    (s.setFrame f v).mon = s.mon := rfl
@[simp] theorem State.setFrame_sec (s : State) (f : Nat) (v : FrameRec) :
    (s.setFrame f v).sec = s.sec := rfl
@[simp] theorem State.setFrame_sb (s : State) (f : Nat) (v : FrameRec) :
    (s.setFrame f v).sb = s.sb := rfl
@[simp] theorem State.setFrame_staged (s : State) (f : Nat) (v : FrameRec) :
    (s.setFrame f v).staged = s.staged := rfl
@[simp] theorem State.setFrame_out (s : State) (f : Nat) (v : FrameRec) :
    (s.setFrame f v).out = s.out := rfl
@[simp] theorem State.setFrame_freeCtr (s : State) (f : Nat) (v : FrameRec) :
    (s.setFrame f v).freeCtr = s.freeCtr := rfl
@[simp] theorem State.setFrame_pending (s : State) (f : Nat) (v : FrameRec) :
    (s.setFrame f v).pending = s.pending := rfl

/-! `State.setObj` changes `objs` only. -/

@[simp] theorem State.setObj_clk (s : State) (h : Nat) (o : Obj) :
    (s.setObj h o).clk = s.clk := rfl
@[simp] theorem State.setObj_ts (s : State) (h : Nat) (o : Obj) :
    (s.setObj h o).ts = s.ts := rfl
@[simp] theorem State.setObj_reg (s : State) (h : Nat) (o : Obj) :
    (s.setObj h o).reg = s.reg := rfl
@[simp] theorem State.setObj_chans (s : State) (h : Nat) (o : Obj) :
    (s.setObj h o).chans = s.chans := rfl
@[simp] theorem State.setObj_cqs (s : State) (h : Nat) (o : Obj) :
    (s.setObj h o).cqs = s.cqs := rfl
@[simp] theorem State.setObj_accts (s : State) (h : Nat) (o : Obj) :
    (s.setObj h o).accts = s.accts := rfl
@[simp] theorem State.setObj_gfe (s : State) (h : Nat) (o : Obj) :
    (s.setObj h o).gfe = s.gfe := rfl
@[simp] theorem State.setObj_clus (s : State) (h : Nat) (o : Obj) :
    (s.setObj h o).clus = s.clus := rfl
@[simp] theorem State.setObj_cnts (s : State) (h : Nat) (o : Obj) :
    (s.setObj h o).cnts = s.cnts := rfl
@[simp] theorem State.setObj_resvs (s : State) (h : Nat) (o : Obj) :
    (s.setObj h o).resvs = s.resvs := rfl
@[simp] theorem State.setObj_pslots (s : State) (h : Nat) (o : Obj) :
    (s.setObj h o).pslots = s.pslots := rfl
@[simp] theorem State.setObj_scales (s : State) (h : Nat) (o : Obj) :
    (s.setObj h o).scales = s.scales := rfl
@[simp] theorem State.setObj_mem (s : State) (h : Nat) (o : Obj) :
    (s.setObj h o).mem = s.mem := rfl
@[simp] theorem State.setObj_frames (s : State) (h : Nat) (o : Obj) :
    (s.setObj h o).frames = s.frames := rfl
@[simp] theorem State.setObj_place (s : State) (h : Nat) (o : Obj) :
    (s.setObj h o).place = s.place := rfl
@[simp] theorem State.setObj_streams (s : State) (h : Nat) (o : Obj) :
    (s.setObj h o).streams = s.streams := rfl
@[simp] theorem State.setObj_xfers (s : State) (h : Nat) (o : Obj) :
    (s.setObj h o).xfers = s.xfers := rfl
@[simp] theorem State.setObj_link (s : State) (h : Nat) (o : Obj) :
    (s.setObj h o).link = s.link := rfl
@[simp] theorem State.setObj_host (s : State) (h : Nat) (o : Obj) :
    (s.setObj h o).host = s.host := rfl
@[simp] theorem State.setObj_fab (s : State) (h : Nat) (o : Obj) :
    (s.setObj h o).fab = s.fab := rfl
@[simp] theorem State.setObj_integ (s : State) (h : Nat) (o : Obj) :
    (s.setObj h o).integ = s.integ := rfl
@[simp] theorem State.setObj_icnt (s : State) (h : Nat) (o : Obj) :
    (s.setObj h o).icnt = s.icnt := rfl
@[simp] theorem State.setObj_sup (s : State) (h : Nat) (o : Obj) :
    (s.setObj h o).sup = s.sup := rfl
@[simp] theorem State.setObj_mon (s : State) (h : Nat) (o : Obj) :
    (s.setObj h o).mon = s.mon := rfl
@[simp] theorem State.setObj_sec (s : State) (h : Nat) (o : Obj) :
    (s.setObj h o).sec = s.sec := rfl
@[simp] theorem State.setObj_sb (s : State) (h : Nat) (o : Obj) :
    (s.setObj h o).sb = s.sb := rfl
@[simp] theorem State.setObj_staged (s : State) (h : Nat) (o : Obj) :
    (s.setObj h o).staged = s.staged := rfl
@[simp] theorem State.setObj_out (s : State) (h : Nat) (o : Obj) :
    (s.setObj h o).out = s.out := rfl
@[simp] theorem State.setObj_freeCtr (s : State) (h : Nat) (o : Obj) :
    (s.setObj h o).freeCtr = s.freeCtr := rfl
@[simp] theorem State.setObj_pending (s : State) (h : Nat) (o : Obj) :
    (s.setObj h o).pending = s.pending := rfl

/-! `State.dropObj` changes `objs` only. -/

@[simp] theorem State.dropObj_clk (s : State) (h : Nat) :
    (s.dropObj h).clk = s.clk := rfl
@[simp] theorem State.dropObj_ts (s : State) (h : Nat) :
    (s.dropObj h).ts = s.ts := rfl
@[simp] theorem State.dropObj_reg (s : State) (h : Nat) :
    (s.dropObj h).reg = s.reg := rfl
@[simp] theorem State.dropObj_chans (s : State) (h : Nat) :
    (s.dropObj h).chans = s.chans := rfl
@[simp] theorem State.dropObj_cqs (s : State) (h : Nat) :
    (s.dropObj h).cqs = s.cqs := rfl
@[simp] theorem State.dropObj_accts (s : State) (h : Nat) :
    (s.dropObj h).accts = s.accts := rfl
@[simp] theorem State.dropObj_gfe (s : State) (h : Nat) :
    (s.dropObj h).gfe = s.gfe := rfl
@[simp] theorem State.dropObj_clus (s : State) (h : Nat) :
    (s.dropObj h).clus = s.clus := rfl
@[simp] theorem State.dropObj_cnts (s : State) (h : Nat) :
    (s.dropObj h).cnts = s.cnts := rfl
@[simp] theorem State.dropObj_resvs (s : State) (h : Nat) :
    (s.dropObj h).resvs = s.resvs := rfl
@[simp] theorem State.dropObj_pslots (s : State) (h : Nat) :
    (s.dropObj h).pslots = s.pslots := rfl
@[simp] theorem State.dropObj_scales (s : State) (h : Nat) :
    (s.dropObj h).scales = s.scales := rfl
@[simp] theorem State.dropObj_mem (s : State) (h : Nat) :
    (s.dropObj h).mem = s.mem := rfl
@[simp] theorem State.dropObj_frames (s : State) (h : Nat) :
    (s.dropObj h).frames = s.frames := rfl
@[simp] theorem State.dropObj_place (s : State) (h : Nat) :
    (s.dropObj h).place = s.place := rfl
@[simp] theorem State.dropObj_streams (s : State) (h : Nat) :
    (s.dropObj h).streams = s.streams := rfl
@[simp] theorem State.dropObj_xfers (s : State) (h : Nat) :
    (s.dropObj h).xfers = s.xfers := rfl
@[simp] theorem State.dropObj_link (s : State) (h : Nat) :
    (s.dropObj h).link = s.link := rfl
@[simp] theorem State.dropObj_host (s : State) (h : Nat) :
    (s.dropObj h).host = s.host := rfl
@[simp] theorem State.dropObj_fab (s : State) (h : Nat) :
    (s.dropObj h).fab = s.fab := rfl
@[simp] theorem State.dropObj_integ (s : State) (h : Nat) :
    (s.dropObj h).integ = s.integ := rfl
@[simp] theorem State.dropObj_icnt (s : State) (h : Nat) :
    (s.dropObj h).icnt = s.icnt := rfl
@[simp] theorem State.dropObj_sup (s : State) (h : Nat) :
    (s.dropObj h).sup = s.sup := rfl
@[simp] theorem State.dropObj_mon (s : State) (h : Nat) :
    (s.dropObj h).mon = s.mon := rfl
@[simp] theorem State.dropObj_sec (s : State) (h : Nat) :
    (s.dropObj h).sec = s.sec := rfl
@[simp] theorem State.dropObj_sb (s : State) (h : Nat) :
    (s.dropObj h).sb = s.sb := rfl
@[simp] theorem State.dropObj_staged (s : State) (h : Nat) :
    (s.dropObj h).staged = s.staged := rfl
@[simp] theorem State.dropObj_out (s : State) (h : Nat) :
    (s.dropObj h).out = s.out := rfl
@[simp] theorem State.dropObj_freeCtr (s : State) (h : Nat) :
    (s.dropObj h).freeCtr = s.freeCtr := rfl
@[simp] theorem State.dropObj_pending (s : State) (h : Nat) :
    (s.dropObj h).pending = s.pending := rfl

/-! `State.setStack` changes `place` only. -/

@[simp] theorem State.setStack_clk (s : State) (k : Nat) (v : StackRec) :
    (s.setStack k v).clk = s.clk := rfl
@[simp] theorem State.setStack_ts (s : State) (k : Nat) (v : StackRec) :
    (s.setStack k v).ts = s.ts := rfl
@[simp] theorem State.setStack_reg (s : State) (k : Nat) (v : StackRec) :
    (s.setStack k v).reg = s.reg := rfl
@[simp] theorem State.setStack_chans (s : State) (k : Nat) (v : StackRec) :
    (s.setStack k v).chans = s.chans := rfl
@[simp] theorem State.setStack_cqs (s : State) (k : Nat) (v : StackRec) :
    (s.setStack k v).cqs = s.cqs := rfl
@[simp] theorem State.setStack_accts (s : State) (k : Nat) (v : StackRec) :
    (s.setStack k v).accts = s.accts := rfl
@[simp] theorem State.setStack_gfe (s : State) (k : Nat) (v : StackRec) :
    (s.setStack k v).gfe = s.gfe := rfl
@[simp] theorem State.setStack_clus (s : State) (k : Nat) (v : StackRec) :
    (s.setStack k v).clus = s.clus := rfl
@[simp] theorem State.setStack_cnts (s : State) (k : Nat) (v : StackRec) :
    (s.setStack k v).cnts = s.cnts := rfl
@[simp] theorem State.setStack_resvs (s : State) (k : Nat) (v : StackRec) :
    (s.setStack k v).resvs = s.resvs := rfl
@[simp] theorem State.setStack_pslots (s : State) (k : Nat) (v : StackRec) :
    (s.setStack k v).pslots = s.pslots := rfl
@[simp] theorem State.setStack_scales (s : State) (k : Nat) (v : StackRec) :
    (s.setStack k v).scales = s.scales := rfl
@[simp] theorem State.setStack_mem (s : State) (k : Nat) (v : StackRec) :
    (s.setStack k v).mem = s.mem := rfl
@[simp] theorem State.setStack_frames (s : State) (k : Nat) (v : StackRec) :
    (s.setStack k v).frames = s.frames := rfl
@[simp] theorem State.setStack_objs (s : State) (k : Nat) (v : StackRec) :
    (s.setStack k v).objs = s.objs := rfl
@[simp] theorem State.setStack_streams (s : State) (k : Nat) (v : StackRec) :
    (s.setStack k v).streams = s.streams := rfl
@[simp] theorem State.setStack_xfers (s : State) (k : Nat) (v : StackRec) :
    (s.setStack k v).xfers = s.xfers := rfl
@[simp] theorem State.setStack_link (s : State) (k : Nat) (v : StackRec) :
    (s.setStack k v).link = s.link := rfl
@[simp] theorem State.setStack_host (s : State) (k : Nat) (v : StackRec) :
    (s.setStack k v).host = s.host := rfl
@[simp] theorem State.setStack_fab (s : State) (k : Nat) (v : StackRec) :
    (s.setStack k v).fab = s.fab := rfl
@[simp] theorem State.setStack_integ (s : State) (k : Nat) (v : StackRec) :
    (s.setStack k v).integ = s.integ := rfl
@[simp] theorem State.setStack_icnt (s : State) (k : Nat) (v : StackRec) :
    (s.setStack k v).icnt = s.icnt := rfl
@[simp] theorem State.setStack_sup (s : State) (k : Nat) (v : StackRec) :
    (s.setStack k v).sup = s.sup := rfl
@[simp] theorem State.setStack_mon (s : State) (k : Nat) (v : StackRec) :
    (s.setStack k v).mon = s.mon := rfl
@[simp] theorem State.setStack_sec (s : State) (k : Nat) (v : StackRec) :
    (s.setStack k v).sec = s.sec := rfl
@[simp] theorem State.setStack_sb (s : State) (k : Nat) (v : StackRec) :
    (s.setStack k v).sb = s.sb := rfl
@[simp] theorem State.setStack_staged (s : State) (k : Nat) (v : StackRec) :
    (s.setStack k v).staged = s.staged := rfl
@[simp] theorem State.setStack_out (s : State) (k : Nat) (v : StackRec) :
    (s.setStack k v).out = s.out := rfl
@[simp] theorem State.setStack_freeCtr (s : State) (k : Nat) (v : StackRec) :
    (s.setStack k v).freeCtr = s.freeCtr := rfl
@[simp] theorem State.setStack_pending (s : State) (k : Nat) (v : StackRec) :
    (s.setStack k v).pending = s.pending := rfl

/-! `State.setTarget` changes `place` only. -/

@[simp] theorem State.setTarget_clk (s : State) (t : Nat) (v : TargetRec) :
    (s.setTarget t v).clk = s.clk := rfl
@[simp] theorem State.setTarget_ts (s : State) (t : Nat) (v : TargetRec) :
    (s.setTarget t v).ts = s.ts := rfl
@[simp] theorem State.setTarget_reg (s : State) (t : Nat) (v : TargetRec) :
    (s.setTarget t v).reg = s.reg := rfl
@[simp] theorem State.setTarget_chans (s : State) (t : Nat) (v : TargetRec) :
    (s.setTarget t v).chans = s.chans := rfl
@[simp] theorem State.setTarget_cqs (s : State) (t : Nat) (v : TargetRec) :
    (s.setTarget t v).cqs = s.cqs := rfl
@[simp] theorem State.setTarget_accts (s : State) (t : Nat) (v : TargetRec) :
    (s.setTarget t v).accts = s.accts := rfl
@[simp] theorem State.setTarget_gfe (s : State) (t : Nat) (v : TargetRec) :
    (s.setTarget t v).gfe = s.gfe := rfl
@[simp] theorem State.setTarget_clus (s : State) (t : Nat) (v : TargetRec) :
    (s.setTarget t v).clus = s.clus := rfl
@[simp] theorem State.setTarget_cnts (s : State) (t : Nat) (v : TargetRec) :
    (s.setTarget t v).cnts = s.cnts := rfl
@[simp] theorem State.setTarget_resvs (s : State) (t : Nat) (v : TargetRec) :
    (s.setTarget t v).resvs = s.resvs := rfl
@[simp] theorem State.setTarget_pslots (s : State) (t : Nat) (v : TargetRec) :
    (s.setTarget t v).pslots = s.pslots := rfl
@[simp] theorem State.setTarget_scales (s : State) (t : Nat) (v : TargetRec) :
    (s.setTarget t v).scales = s.scales := rfl
@[simp] theorem State.setTarget_mem (s : State) (t : Nat) (v : TargetRec) :
    (s.setTarget t v).mem = s.mem := rfl
@[simp] theorem State.setTarget_frames (s : State) (t : Nat) (v : TargetRec) :
    (s.setTarget t v).frames = s.frames := rfl
@[simp] theorem State.setTarget_objs (s : State) (t : Nat) (v : TargetRec) :
    (s.setTarget t v).objs = s.objs := rfl
@[simp] theorem State.setTarget_streams (s : State) (t : Nat) (v : TargetRec) :
    (s.setTarget t v).streams = s.streams := rfl
@[simp] theorem State.setTarget_xfers (s : State) (t : Nat) (v : TargetRec) :
    (s.setTarget t v).xfers = s.xfers := rfl
@[simp] theorem State.setTarget_link (s : State) (t : Nat) (v : TargetRec) :
    (s.setTarget t v).link = s.link := rfl
@[simp] theorem State.setTarget_host (s : State) (t : Nat) (v : TargetRec) :
    (s.setTarget t v).host = s.host := rfl
@[simp] theorem State.setTarget_fab (s : State) (t : Nat) (v : TargetRec) :
    (s.setTarget t v).fab = s.fab := rfl
@[simp] theorem State.setTarget_integ (s : State) (t : Nat) (v : TargetRec) :
    (s.setTarget t v).integ = s.integ := rfl
@[simp] theorem State.setTarget_icnt (s : State) (t : Nat) (v : TargetRec) :
    (s.setTarget t v).icnt = s.icnt := rfl
@[simp] theorem State.setTarget_sup (s : State) (t : Nat) (v : TargetRec) :
    (s.setTarget t v).sup = s.sup := rfl
@[simp] theorem State.setTarget_mon (s : State) (t : Nat) (v : TargetRec) :
    (s.setTarget t v).mon = s.mon := rfl
@[simp] theorem State.setTarget_sec (s : State) (t : Nat) (v : TargetRec) :
    (s.setTarget t v).sec = s.sec := rfl
@[simp] theorem State.setTarget_sb (s : State) (t : Nat) (v : TargetRec) :
    (s.setTarget t v).sb = s.sb := rfl
@[simp] theorem State.setTarget_staged (s : State) (t : Nat) (v : TargetRec) :
    (s.setTarget t v).staged = s.staged := rfl
@[simp] theorem State.setTarget_out (s : State) (t : Nat) (v : TargetRec) :
    (s.setTarget t v).out = s.out := rfl
@[simp] theorem State.setTarget_freeCtr (s : State) (t : Nat) (v : TargetRec) :
    (s.setTarget t v).freeCtr = s.freeCtr := rfl
@[simp] theorem State.setTarget_pending (s : State) (t : Nat) (v : TargetRec) :
    (s.setTarget t v).pending = s.pending := rfl

/-! `State.dropMove` changes `place` only. -/

@[simp] theorem State.dropMove_clk (s : State) (h : Nat) (tile : Nat) :
    (s.dropMove h tile).clk = s.clk := rfl
@[simp] theorem State.dropMove_ts (s : State) (h : Nat) (tile : Nat) :
    (s.dropMove h tile).ts = s.ts := rfl
@[simp] theorem State.dropMove_reg (s : State) (h : Nat) (tile : Nat) :
    (s.dropMove h tile).reg = s.reg := rfl
@[simp] theorem State.dropMove_chans (s : State) (h : Nat) (tile : Nat) :
    (s.dropMove h tile).chans = s.chans := rfl
@[simp] theorem State.dropMove_cqs (s : State) (h : Nat) (tile : Nat) :
    (s.dropMove h tile).cqs = s.cqs := rfl
@[simp] theorem State.dropMove_accts (s : State) (h : Nat) (tile : Nat) :
    (s.dropMove h tile).accts = s.accts := rfl
@[simp] theorem State.dropMove_gfe (s : State) (h : Nat) (tile : Nat) :
    (s.dropMove h tile).gfe = s.gfe := rfl
@[simp] theorem State.dropMove_clus (s : State) (h : Nat) (tile : Nat) :
    (s.dropMove h tile).clus = s.clus := rfl
@[simp] theorem State.dropMove_cnts (s : State) (h : Nat) (tile : Nat) :
    (s.dropMove h tile).cnts = s.cnts := rfl
@[simp] theorem State.dropMove_resvs (s : State) (h : Nat) (tile : Nat) :
    (s.dropMove h tile).resvs = s.resvs := rfl
@[simp] theorem State.dropMove_pslots (s : State) (h : Nat) (tile : Nat) :
    (s.dropMove h tile).pslots = s.pslots := rfl
@[simp] theorem State.dropMove_scales (s : State) (h : Nat) (tile : Nat) :
    (s.dropMove h tile).scales = s.scales := rfl
@[simp] theorem State.dropMove_mem (s : State) (h : Nat) (tile : Nat) :
    (s.dropMove h tile).mem = s.mem := rfl
@[simp] theorem State.dropMove_frames (s : State) (h : Nat) (tile : Nat) :
    (s.dropMove h tile).frames = s.frames := rfl
@[simp] theorem State.dropMove_objs (s : State) (h : Nat) (tile : Nat) :
    (s.dropMove h tile).objs = s.objs := rfl
@[simp] theorem State.dropMove_streams (s : State) (h : Nat) (tile : Nat) :
    (s.dropMove h tile).streams = s.streams := rfl
@[simp] theorem State.dropMove_xfers (s : State) (h : Nat) (tile : Nat) :
    (s.dropMove h tile).xfers = s.xfers := rfl
@[simp] theorem State.dropMove_link (s : State) (h : Nat) (tile : Nat) :
    (s.dropMove h tile).link = s.link := rfl
@[simp] theorem State.dropMove_host (s : State) (h : Nat) (tile : Nat) :
    (s.dropMove h tile).host = s.host := rfl
@[simp] theorem State.dropMove_fab (s : State) (h : Nat) (tile : Nat) :
    (s.dropMove h tile).fab = s.fab := rfl
@[simp] theorem State.dropMove_integ (s : State) (h : Nat) (tile : Nat) :
    (s.dropMove h tile).integ = s.integ := rfl
@[simp] theorem State.dropMove_icnt (s : State) (h : Nat) (tile : Nat) :
    (s.dropMove h tile).icnt = s.icnt := rfl
@[simp] theorem State.dropMove_sup (s : State) (h : Nat) (tile : Nat) :
    (s.dropMove h tile).sup = s.sup := rfl
@[simp] theorem State.dropMove_mon (s : State) (h : Nat) (tile : Nat) :
    (s.dropMove h tile).mon = s.mon := rfl
@[simp] theorem State.dropMove_sec (s : State) (h : Nat) (tile : Nat) :
    (s.dropMove h tile).sec = s.sec := rfl
@[simp] theorem State.dropMove_sb (s : State) (h : Nat) (tile : Nat) :
    (s.dropMove h tile).sb = s.sb := rfl
@[simp] theorem State.dropMove_staged (s : State) (h : Nat) (tile : Nat) :
    (s.dropMove h tile).staged = s.staged := rfl
@[simp] theorem State.dropMove_out (s : State) (h : Nat) (tile : Nat) :
    (s.dropMove h tile).out = s.out := rfl
@[simp] theorem State.dropMove_freeCtr (s : State) (h : Nat) (tile : Nat) :
    (s.dropMove h tile).freeCtr = s.freeCtr := rfl
@[simp] theorem State.dropMove_pending (s : State) (h : Nat) (tile : Nat) :
    (s.dropMove h tile).pending = s.pending := rfl

/-! `State.setStream` changes `streams` only. -/

@[simp] theorem State.setStream_clk (s : State) (n : Nat) (d : Nat) (v : Stream) :
    (s.setStream n d v).clk = s.clk := rfl
@[simp] theorem State.setStream_ts (s : State) (n : Nat) (d : Nat) (v : Stream) :
    (s.setStream n d v).ts = s.ts := rfl
@[simp] theorem State.setStream_reg (s : State) (n : Nat) (d : Nat) (v : Stream) :
    (s.setStream n d v).reg = s.reg := rfl
@[simp] theorem State.setStream_chans (s : State) (n : Nat) (d : Nat) (v : Stream) :
    (s.setStream n d v).chans = s.chans := rfl
@[simp] theorem State.setStream_cqs (s : State) (n : Nat) (d : Nat) (v : Stream) :
    (s.setStream n d v).cqs = s.cqs := rfl
@[simp] theorem State.setStream_accts (s : State) (n : Nat) (d : Nat) (v : Stream) :
    (s.setStream n d v).accts = s.accts := rfl
@[simp] theorem State.setStream_gfe (s : State) (n : Nat) (d : Nat) (v : Stream) :
    (s.setStream n d v).gfe = s.gfe := rfl
@[simp] theorem State.setStream_clus (s : State) (n : Nat) (d : Nat) (v : Stream) :
    (s.setStream n d v).clus = s.clus := rfl
@[simp] theorem State.setStream_cnts (s : State) (n : Nat) (d : Nat) (v : Stream) :
    (s.setStream n d v).cnts = s.cnts := rfl
@[simp] theorem State.setStream_resvs (s : State) (n : Nat) (d : Nat) (v : Stream) :
    (s.setStream n d v).resvs = s.resvs := rfl
@[simp] theorem State.setStream_pslots (s : State) (n : Nat) (d : Nat) (v : Stream) :
    (s.setStream n d v).pslots = s.pslots := rfl
@[simp] theorem State.setStream_scales (s : State) (n : Nat) (d : Nat) (v : Stream) :
    (s.setStream n d v).scales = s.scales := rfl
@[simp] theorem State.setStream_mem (s : State) (n : Nat) (d : Nat) (v : Stream) :
    (s.setStream n d v).mem = s.mem := rfl
@[simp] theorem State.setStream_frames (s : State) (n : Nat) (d : Nat) (v : Stream) :
    (s.setStream n d v).frames = s.frames := rfl
@[simp] theorem State.setStream_objs (s : State) (n : Nat) (d : Nat) (v : Stream) :
    (s.setStream n d v).objs = s.objs := rfl
@[simp] theorem State.setStream_place (s : State) (n : Nat) (d : Nat) (v : Stream) :
    (s.setStream n d v).place = s.place := rfl
@[simp] theorem State.setStream_xfers (s : State) (n : Nat) (d : Nat) (v : Stream) :
    (s.setStream n d v).xfers = s.xfers := rfl
@[simp] theorem State.setStream_link (s : State) (n : Nat) (d : Nat) (v : Stream) :
    (s.setStream n d v).link = s.link := rfl
@[simp] theorem State.setStream_host (s : State) (n : Nat) (d : Nat) (v : Stream) :
    (s.setStream n d v).host = s.host := rfl
@[simp] theorem State.setStream_fab (s : State) (n : Nat) (d : Nat) (v : Stream) :
    (s.setStream n d v).fab = s.fab := rfl
@[simp] theorem State.setStream_integ (s : State) (n : Nat) (d : Nat) (v : Stream) :
    (s.setStream n d v).integ = s.integ := rfl
@[simp] theorem State.setStream_icnt (s : State) (n : Nat) (d : Nat) (v : Stream) :
    (s.setStream n d v).icnt = s.icnt := rfl
@[simp] theorem State.setStream_sup (s : State) (n : Nat) (d : Nat) (v : Stream) :
    (s.setStream n d v).sup = s.sup := rfl
@[simp] theorem State.setStream_mon (s : State) (n : Nat) (d : Nat) (v : Stream) :
    (s.setStream n d v).mon = s.mon := rfl
@[simp] theorem State.setStream_sec (s : State) (n : Nat) (d : Nat) (v : Stream) :
    (s.setStream n d v).sec = s.sec := rfl
@[simp] theorem State.setStream_sb (s : State) (n : Nat) (d : Nat) (v : Stream) :
    (s.setStream n d v).sb = s.sb := rfl
@[simp] theorem State.setStream_staged (s : State) (n : Nat) (d : Nat) (v : Stream) :
    (s.setStream n d v).staged = s.staged := rfl
@[simp] theorem State.setStream_out (s : State) (n : Nat) (d : Nat) (v : Stream) :
    (s.setStream n d v).out = s.out := rfl
@[simp] theorem State.setStream_freeCtr (s : State) (n : Nat) (d : Nat) (v : Stream) :
    (s.setStream n d v).freeCtr = s.freeCtr := rfl
@[simp] theorem State.setStream_pending (s : State) (n : Nat) (d : Nat) (v : Stream) :
    (s.setStream n d v).pending = s.pending := rfl

/-! `State.dropHost` changes `host` only. -/

@[simp] theorem State.dropHost_clk (s : State) (n : Nat) (id : Nat) :
    (s.dropHost n id).clk = s.clk := rfl
@[simp] theorem State.dropHost_ts (s : State) (n : Nat) (id : Nat) :
    (s.dropHost n id).ts = s.ts := rfl
@[simp] theorem State.dropHost_reg (s : State) (n : Nat) (id : Nat) :
    (s.dropHost n id).reg = s.reg := rfl
@[simp] theorem State.dropHost_chans (s : State) (n : Nat) (id : Nat) :
    (s.dropHost n id).chans = s.chans := rfl
@[simp] theorem State.dropHost_cqs (s : State) (n : Nat) (id : Nat) :
    (s.dropHost n id).cqs = s.cqs := rfl
@[simp] theorem State.dropHost_accts (s : State) (n : Nat) (id : Nat) :
    (s.dropHost n id).accts = s.accts := rfl
@[simp] theorem State.dropHost_gfe (s : State) (n : Nat) (id : Nat) :
    (s.dropHost n id).gfe = s.gfe := rfl
@[simp] theorem State.dropHost_clus (s : State) (n : Nat) (id : Nat) :
    (s.dropHost n id).clus = s.clus := rfl
@[simp] theorem State.dropHost_cnts (s : State) (n : Nat) (id : Nat) :
    (s.dropHost n id).cnts = s.cnts := rfl
@[simp] theorem State.dropHost_resvs (s : State) (n : Nat) (id : Nat) :
    (s.dropHost n id).resvs = s.resvs := rfl
@[simp] theorem State.dropHost_pslots (s : State) (n : Nat) (id : Nat) :
    (s.dropHost n id).pslots = s.pslots := rfl
@[simp] theorem State.dropHost_scales (s : State) (n : Nat) (id : Nat) :
    (s.dropHost n id).scales = s.scales := rfl
@[simp] theorem State.dropHost_mem (s : State) (n : Nat) (id : Nat) :
    (s.dropHost n id).mem = s.mem := rfl
@[simp] theorem State.dropHost_frames (s : State) (n : Nat) (id : Nat) :
    (s.dropHost n id).frames = s.frames := rfl
@[simp] theorem State.dropHost_objs (s : State) (n : Nat) (id : Nat) :
    (s.dropHost n id).objs = s.objs := rfl
@[simp] theorem State.dropHost_place (s : State) (n : Nat) (id : Nat) :
    (s.dropHost n id).place = s.place := rfl
@[simp] theorem State.dropHost_streams (s : State) (n : Nat) (id : Nat) :
    (s.dropHost n id).streams = s.streams := rfl
@[simp] theorem State.dropHost_xfers (s : State) (n : Nat) (id : Nat) :
    (s.dropHost n id).xfers = s.xfers := rfl
@[simp] theorem State.dropHost_link (s : State) (n : Nat) (id : Nat) :
    (s.dropHost n id).link = s.link := rfl
@[simp] theorem State.dropHost_fab (s : State) (n : Nat) (id : Nat) :
    (s.dropHost n id).fab = s.fab := rfl
@[simp] theorem State.dropHost_integ (s : State) (n : Nat) (id : Nat) :
    (s.dropHost n id).integ = s.integ := rfl
@[simp] theorem State.dropHost_icnt (s : State) (n : Nat) (id : Nat) :
    (s.dropHost n id).icnt = s.icnt := rfl
@[simp] theorem State.dropHost_sup (s : State) (n : Nat) (id : Nat) :
    (s.dropHost n id).sup = s.sup := rfl
@[simp] theorem State.dropHost_mon (s : State) (n : Nat) (id : Nat) :
    (s.dropHost n id).mon = s.mon := rfl
@[simp] theorem State.dropHost_sec (s : State) (n : Nat) (id : Nat) :
    (s.dropHost n id).sec = s.sec := rfl
@[simp] theorem State.dropHost_sb (s : State) (n : Nat) (id : Nat) :
    (s.dropHost n id).sb = s.sb := rfl
@[simp] theorem State.dropHost_staged (s : State) (n : Nat) (id : Nat) :
    (s.dropHost n id).staged = s.staged := rfl
@[simp] theorem State.dropHost_out (s : State) (n : Nat) (id : Nat) :
    (s.dropHost n id).out = s.out := rfl
@[simp] theorem State.dropHost_freeCtr (s : State) (n : Nat) (id : Nat) :
    (s.dropHost n id).freeCtr = s.freeCtr := rfl
@[simp] theorem State.dropHost_pending (s : State) (n : Nat) (id : Nat) :
    (s.dropHost n id).pending = s.pending := rfl

/-! `State.setPort` changes `fab` only. -/

@[simp] theorem State.setPort_clk (s : State) (p : Nat) (v : Port) :
    (s.setPort p v).clk = s.clk := rfl
@[simp] theorem State.setPort_ts (s : State) (p : Nat) (v : Port) :
    (s.setPort p v).ts = s.ts := rfl
@[simp] theorem State.setPort_reg (s : State) (p : Nat) (v : Port) :
    (s.setPort p v).reg = s.reg := rfl
@[simp] theorem State.setPort_chans (s : State) (p : Nat) (v : Port) :
    (s.setPort p v).chans = s.chans := rfl
@[simp] theorem State.setPort_cqs (s : State) (p : Nat) (v : Port) :
    (s.setPort p v).cqs = s.cqs := rfl
@[simp] theorem State.setPort_accts (s : State) (p : Nat) (v : Port) :
    (s.setPort p v).accts = s.accts := rfl
@[simp] theorem State.setPort_gfe (s : State) (p : Nat) (v : Port) :
    (s.setPort p v).gfe = s.gfe := rfl
@[simp] theorem State.setPort_clus (s : State) (p : Nat) (v : Port) :
    (s.setPort p v).clus = s.clus := rfl
@[simp] theorem State.setPort_cnts (s : State) (p : Nat) (v : Port) :
    (s.setPort p v).cnts = s.cnts := rfl
@[simp] theorem State.setPort_resvs (s : State) (p : Nat) (v : Port) :
    (s.setPort p v).resvs = s.resvs := rfl
@[simp] theorem State.setPort_pslots (s : State) (p : Nat) (v : Port) :
    (s.setPort p v).pslots = s.pslots := rfl
@[simp] theorem State.setPort_scales (s : State) (p : Nat) (v : Port) :
    (s.setPort p v).scales = s.scales := rfl
@[simp] theorem State.setPort_mem (s : State) (p : Nat) (v : Port) :
    (s.setPort p v).mem = s.mem := rfl
@[simp] theorem State.setPort_frames (s : State) (p : Nat) (v : Port) :
    (s.setPort p v).frames = s.frames := rfl
@[simp] theorem State.setPort_objs (s : State) (p : Nat) (v : Port) :
    (s.setPort p v).objs = s.objs := rfl
@[simp] theorem State.setPort_place (s : State) (p : Nat) (v : Port) :
    (s.setPort p v).place = s.place := rfl
@[simp] theorem State.setPort_streams (s : State) (p : Nat) (v : Port) :
    (s.setPort p v).streams = s.streams := rfl
@[simp] theorem State.setPort_xfers (s : State) (p : Nat) (v : Port) :
    (s.setPort p v).xfers = s.xfers := rfl
@[simp] theorem State.setPort_link (s : State) (p : Nat) (v : Port) :
    (s.setPort p v).link = s.link := rfl
@[simp] theorem State.setPort_host (s : State) (p : Nat) (v : Port) :
    (s.setPort p v).host = s.host := rfl
@[simp] theorem State.setPort_integ (s : State) (p : Nat) (v : Port) :
    (s.setPort p v).integ = s.integ := rfl
@[simp] theorem State.setPort_icnt (s : State) (p : Nat) (v : Port) :
    (s.setPort p v).icnt = s.icnt := rfl
@[simp] theorem State.setPort_sup (s : State) (p : Nat) (v : Port) :
    (s.setPort p v).sup = s.sup := rfl
@[simp] theorem State.setPort_mon (s : State) (p : Nat) (v : Port) :
    (s.setPort p v).mon = s.mon := rfl
@[simp] theorem State.setPort_sec (s : State) (p : Nat) (v : Port) :
    (s.setPort p v).sec = s.sec := rfl
@[simp] theorem State.setPort_sb (s : State) (p : Nat) (v : Port) :
    (s.setPort p v).sb = s.sb := rfl
@[simp] theorem State.setPort_staged (s : State) (p : Nat) (v : Port) :
    (s.setPort p v).staged = s.staged := rfl
@[simp] theorem State.setPort_out (s : State) (p : Nat) (v : Port) :
    (s.setPort p v).out = s.out := rfl
@[simp] theorem State.setPort_freeCtr (s : State) (p : Nat) (v : Port) :
    (s.setPort p v).freeCtr = s.freeCtr := rfl
@[simp] theorem State.setPort_pending (s : State) (p : Nat) (v : Port) :
    (s.setPort p v).pending = s.pending := rfl

/-! `State.setPeer` changes `fab` only. -/

@[simp] theorem State.setPeer_clk (s : State) (e : Nat) (v : Peer) :
    (s.setPeer e v).clk = s.clk := rfl
@[simp] theorem State.setPeer_ts (s : State) (e : Nat) (v : Peer) :
    (s.setPeer e v).ts = s.ts := rfl
@[simp] theorem State.setPeer_reg (s : State) (e : Nat) (v : Peer) :
    (s.setPeer e v).reg = s.reg := rfl
@[simp] theorem State.setPeer_chans (s : State) (e : Nat) (v : Peer) :
    (s.setPeer e v).chans = s.chans := rfl
@[simp] theorem State.setPeer_cqs (s : State) (e : Nat) (v : Peer) :
    (s.setPeer e v).cqs = s.cqs := rfl
@[simp] theorem State.setPeer_accts (s : State) (e : Nat) (v : Peer) :
    (s.setPeer e v).accts = s.accts := rfl
@[simp] theorem State.setPeer_gfe (s : State) (e : Nat) (v : Peer) :
    (s.setPeer e v).gfe = s.gfe := rfl
@[simp] theorem State.setPeer_clus (s : State) (e : Nat) (v : Peer) :
    (s.setPeer e v).clus = s.clus := rfl
@[simp] theorem State.setPeer_cnts (s : State) (e : Nat) (v : Peer) :
    (s.setPeer e v).cnts = s.cnts := rfl
@[simp] theorem State.setPeer_resvs (s : State) (e : Nat) (v : Peer) :
    (s.setPeer e v).resvs = s.resvs := rfl
@[simp] theorem State.setPeer_pslots (s : State) (e : Nat) (v : Peer) :
    (s.setPeer e v).pslots = s.pslots := rfl
@[simp] theorem State.setPeer_scales (s : State) (e : Nat) (v : Peer) :
    (s.setPeer e v).scales = s.scales := rfl
@[simp] theorem State.setPeer_mem (s : State) (e : Nat) (v : Peer) :
    (s.setPeer e v).mem = s.mem := rfl
@[simp] theorem State.setPeer_frames (s : State) (e : Nat) (v : Peer) :
    (s.setPeer e v).frames = s.frames := rfl
@[simp] theorem State.setPeer_objs (s : State) (e : Nat) (v : Peer) :
    (s.setPeer e v).objs = s.objs := rfl
@[simp] theorem State.setPeer_place (s : State) (e : Nat) (v : Peer) :
    (s.setPeer e v).place = s.place := rfl
@[simp] theorem State.setPeer_streams (s : State) (e : Nat) (v : Peer) :
    (s.setPeer e v).streams = s.streams := rfl
@[simp] theorem State.setPeer_xfers (s : State) (e : Nat) (v : Peer) :
    (s.setPeer e v).xfers = s.xfers := rfl
@[simp] theorem State.setPeer_link (s : State) (e : Nat) (v : Peer) :
    (s.setPeer e v).link = s.link := rfl
@[simp] theorem State.setPeer_host (s : State) (e : Nat) (v : Peer) :
    (s.setPeer e v).host = s.host := rfl
@[simp] theorem State.setPeer_integ (s : State) (e : Nat) (v : Peer) :
    (s.setPeer e v).integ = s.integ := rfl
@[simp] theorem State.setPeer_icnt (s : State) (e : Nat) (v : Peer) :
    (s.setPeer e v).icnt = s.icnt := rfl
@[simp] theorem State.setPeer_sup (s : State) (e : Nat) (v : Peer) :
    (s.setPeer e v).sup = s.sup := rfl
@[simp] theorem State.setPeer_mon (s : State) (e : Nat) (v : Peer) :
    (s.setPeer e v).mon = s.mon := rfl
@[simp] theorem State.setPeer_sec (s : State) (e : Nat) (v : Peer) :
    (s.setPeer e v).sec = s.sec := rfl
@[simp] theorem State.setPeer_sb (s : State) (e : Nat) (v : Peer) :
    (s.setPeer e v).sb = s.sb := rfl
@[simp] theorem State.setPeer_staged (s : State) (e : Nat) (v : Peer) :
    (s.setPeer e v).staged = s.staged := rfl
@[simp] theorem State.setPeer_out (s : State) (e : Nat) (v : Peer) :
    (s.setPeer e v).out = s.out := rfl
@[simp] theorem State.setPeer_freeCtr (s : State) (e : Nat) (v : Peer) :
    (s.setPeer e v).freeCtr = s.freeCtr := rfl
@[simp] theorem State.setPeer_pending (s : State) (e : Nat) (v : Peer) :
    (s.setPeer e v).pending = s.pending := rfl

/-! `State.regPut` changes `reg` only. -/

@[simp] theorem State.regPut_clk (s : State) (w : Win) (item : Nat) (off : Nat) (v : Nat) :
    (s.regPut w item off v).clk = s.clk := rfl
@[simp] theorem State.regPut_ts (s : State) (w : Win) (item : Nat) (off : Nat) (v : Nat) :
    (s.regPut w item off v).ts = s.ts := rfl
@[simp] theorem State.regPut_chans (s : State) (w : Win) (item : Nat) (off : Nat) (v : Nat) :
    (s.regPut w item off v).chans = s.chans := rfl
@[simp] theorem State.regPut_cqs (s : State) (w : Win) (item : Nat) (off : Nat) (v : Nat) :
    (s.regPut w item off v).cqs = s.cqs := rfl
@[simp] theorem State.regPut_accts (s : State) (w : Win) (item : Nat) (off : Nat) (v : Nat) :
    (s.regPut w item off v).accts = s.accts := rfl
@[simp] theorem State.regPut_gfe (s : State) (w : Win) (item : Nat) (off : Nat) (v : Nat) :
    (s.regPut w item off v).gfe = s.gfe := rfl
@[simp] theorem State.regPut_clus (s : State) (w : Win) (item : Nat) (off : Nat) (v : Nat) :
    (s.regPut w item off v).clus = s.clus := rfl
@[simp] theorem State.regPut_cnts (s : State) (w : Win) (item : Nat) (off : Nat) (v : Nat) :
    (s.regPut w item off v).cnts = s.cnts := rfl
@[simp] theorem State.regPut_resvs (s : State) (w : Win) (item : Nat) (off : Nat) (v : Nat) :
    (s.regPut w item off v).resvs = s.resvs := rfl
@[simp] theorem State.regPut_pslots (s : State) (w : Win) (item : Nat) (off : Nat) (v : Nat) :
    (s.regPut w item off v).pslots = s.pslots := rfl
@[simp] theorem State.regPut_scales (s : State) (w : Win) (item : Nat) (off : Nat) (v : Nat) :
    (s.regPut w item off v).scales = s.scales := rfl
@[simp] theorem State.regPut_mem (s : State) (w : Win) (item : Nat) (off : Nat) (v : Nat) :
    (s.regPut w item off v).mem = s.mem := rfl
@[simp] theorem State.regPut_frames (s : State) (w : Win) (item : Nat) (off : Nat) (v : Nat) :
    (s.regPut w item off v).frames = s.frames := rfl
@[simp] theorem State.regPut_objs (s : State) (w : Win) (item : Nat) (off : Nat) (v : Nat) :
    (s.regPut w item off v).objs = s.objs := rfl
@[simp] theorem State.regPut_place (s : State) (w : Win) (item : Nat) (off : Nat) (v : Nat) :
    (s.regPut w item off v).place = s.place := rfl
@[simp] theorem State.regPut_streams (s : State) (w : Win) (item : Nat) (off : Nat) (v : Nat) :
    (s.regPut w item off v).streams = s.streams := rfl
@[simp] theorem State.regPut_xfers (s : State) (w : Win) (item : Nat) (off : Nat) (v : Nat) :
    (s.regPut w item off v).xfers = s.xfers := rfl
@[simp] theorem State.regPut_link (s : State) (w : Win) (item : Nat) (off : Nat) (v : Nat) :
    (s.regPut w item off v).link = s.link := rfl
@[simp] theorem State.regPut_host (s : State) (w : Win) (item : Nat) (off : Nat) (v : Nat) :
    (s.regPut w item off v).host = s.host := rfl
@[simp] theorem State.regPut_fab (s : State) (w : Win) (item : Nat) (off : Nat) (v : Nat) :
    (s.regPut w item off v).fab = s.fab := rfl
@[simp] theorem State.regPut_integ (s : State) (w : Win) (item : Nat) (off : Nat) (v : Nat) :
    (s.regPut w item off v).integ = s.integ := rfl
@[simp] theorem State.regPut_icnt (s : State) (w : Win) (item : Nat) (off : Nat) (v : Nat) :
    (s.regPut w item off v).icnt = s.icnt := rfl
@[simp] theorem State.regPut_sup (s : State) (w : Win) (item : Nat) (off : Nat) (v : Nat) :
    (s.regPut w item off v).sup = s.sup := rfl
@[simp] theorem State.regPut_mon (s : State) (w : Win) (item : Nat) (off : Nat) (v : Nat) :
    (s.regPut w item off v).mon = s.mon := rfl
@[simp] theorem State.regPut_sec (s : State) (w : Win) (item : Nat) (off : Nat) (v : Nat) :
    (s.regPut w item off v).sec = s.sec := rfl
@[simp] theorem State.regPut_sb (s : State) (w : Win) (item : Nat) (off : Nat) (v : Nat) :
    (s.regPut w item off v).sb = s.sb := rfl
@[simp] theorem State.regPut_staged (s : State) (w : Win) (item : Nat) (off : Nat) (v : Nat) :
    (s.regPut w item off v).staged = s.staged := rfl
@[simp] theorem State.regPut_out (s : State) (w : Win) (item : Nat) (off : Nat) (v : Nat) :
    (s.regPut w item off v).out = s.out := rfl
@[simp] theorem State.regPut_freeCtr (s : State) (w : Win) (item : Nat) (off : Nat) (v : Nat) :
    (s.regPut w item off v).freeCtr = s.freeCtr := rfl
@[simp] theorem State.regPut_pending (s : State) (w : Win) (item : Nat) (off : Nat) (v : Nat) :
    (s.regPut w item off v).pending = s.pending := rfl

/-! `State.latchT` changes `reg` only. -/

@[simp] theorem State.latchT_clk (s : State) (k : Nat) (mask : Nat) (v : Nat) :
    (s.latchT k mask v).clk = s.clk := rfl
@[simp] theorem State.latchT_ts (s : State) (k : Nat) (mask : Nat) (v : Nat) :
    (s.latchT k mask v).ts = s.ts := rfl
@[simp] theorem State.latchT_chans (s : State) (k : Nat) (mask : Nat) (v : Nat) :
    (s.latchT k mask v).chans = s.chans := rfl
@[simp] theorem State.latchT_cqs (s : State) (k : Nat) (mask : Nat) (v : Nat) :
    (s.latchT k mask v).cqs = s.cqs := rfl
@[simp] theorem State.latchT_accts (s : State) (k : Nat) (mask : Nat) (v : Nat) :
    (s.latchT k mask v).accts = s.accts := rfl
@[simp] theorem State.latchT_gfe (s : State) (k : Nat) (mask : Nat) (v : Nat) :
    (s.latchT k mask v).gfe = s.gfe := rfl
@[simp] theorem State.latchT_clus (s : State) (k : Nat) (mask : Nat) (v : Nat) :
    (s.latchT k mask v).clus = s.clus := rfl
@[simp] theorem State.latchT_cnts (s : State) (k : Nat) (mask : Nat) (v : Nat) :
    (s.latchT k mask v).cnts = s.cnts := rfl
@[simp] theorem State.latchT_resvs (s : State) (k : Nat) (mask : Nat) (v : Nat) :
    (s.latchT k mask v).resvs = s.resvs := rfl
@[simp] theorem State.latchT_pslots (s : State) (k : Nat) (mask : Nat) (v : Nat) :
    (s.latchT k mask v).pslots = s.pslots := rfl
@[simp] theorem State.latchT_scales (s : State) (k : Nat) (mask : Nat) (v : Nat) :
    (s.latchT k mask v).scales = s.scales := rfl
@[simp] theorem State.latchT_mem (s : State) (k : Nat) (mask : Nat) (v : Nat) :
    (s.latchT k mask v).mem = s.mem := rfl
@[simp] theorem State.latchT_frames (s : State) (k : Nat) (mask : Nat) (v : Nat) :
    (s.latchT k mask v).frames = s.frames := rfl
@[simp] theorem State.latchT_objs (s : State) (k : Nat) (mask : Nat) (v : Nat) :
    (s.latchT k mask v).objs = s.objs := rfl
@[simp] theorem State.latchT_place (s : State) (k : Nat) (mask : Nat) (v : Nat) :
    (s.latchT k mask v).place = s.place := rfl
@[simp] theorem State.latchT_streams (s : State) (k : Nat) (mask : Nat) (v : Nat) :
    (s.latchT k mask v).streams = s.streams := rfl
@[simp] theorem State.latchT_xfers (s : State) (k : Nat) (mask : Nat) (v : Nat) :
    (s.latchT k mask v).xfers = s.xfers := rfl
@[simp] theorem State.latchT_link (s : State) (k : Nat) (mask : Nat) (v : Nat) :
    (s.latchT k mask v).link = s.link := rfl
@[simp] theorem State.latchT_host (s : State) (k : Nat) (mask : Nat) (v : Nat) :
    (s.latchT k mask v).host = s.host := rfl
@[simp] theorem State.latchT_fab (s : State) (k : Nat) (mask : Nat) (v : Nat) :
    (s.latchT k mask v).fab = s.fab := rfl
@[simp] theorem State.latchT_integ (s : State) (k : Nat) (mask : Nat) (v : Nat) :
    (s.latchT k mask v).integ = s.integ := rfl
@[simp] theorem State.latchT_icnt (s : State) (k : Nat) (mask : Nat) (v : Nat) :
    (s.latchT k mask v).icnt = s.icnt := rfl
@[simp] theorem State.latchT_sup (s : State) (k : Nat) (mask : Nat) (v : Nat) :
    (s.latchT k mask v).sup = s.sup := rfl
@[simp] theorem State.latchT_mon (s : State) (k : Nat) (mask : Nat) (v : Nat) :
    (s.latchT k mask v).mon = s.mon := rfl
@[simp] theorem State.latchT_sec (s : State) (k : Nat) (mask : Nat) (v : Nat) :
    (s.latchT k mask v).sec = s.sec := rfl
@[simp] theorem State.latchT_sb (s : State) (k : Nat) (mask : Nat) (v : Nat) :
    (s.latchT k mask v).sb = s.sb := rfl
@[simp] theorem State.latchT_staged (s : State) (k : Nat) (mask : Nat) (v : Nat) :
    (s.latchT k mask v).staged = s.staged := rfl
@[simp] theorem State.latchT_out (s : State) (k : Nat) (mask : Nat) (v : Nat) :
    (s.latchT k mask v).out = s.out := rfl
@[simp] theorem State.latchT_freeCtr (s : State) (k : Nat) (mask : Nat) (v : Nat) :
    (s.latchT k mask v).freeCtr = s.freeCtr := rfl
@[simp] theorem State.latchT_pending (s : State) (k : Nat) (mask : Nat) (v : Nat) :
    (s.latchT k mask v).pending = s.pending := rfl

/-! `State.emit` changes `out` only. -/

@[simp] theorem State.emit_clk (s : State) (o : Output) :
    (s.emit o).clk = s.clk := rfl
@[simp] theorem State.emit_ts (s : State) (o : Output) :
    (s.emit o).ts = s.ts := rfl
@[simp] theorem State.emit_reg (s : State) (o : Output) :
    (s.emit o).reg = s.reg := rfl
@[simp] theorem State.emit_chans (s : State) (o : Output) :
    (s.emit o).chans = s.chans := rfl
@[simp] theorem State.emit_cqs (s : State) (o : Output) :
    (s.emit o).cqs = s.cqs := rfl
@[simp] theorem State.emit_accts (s : State) (o : Output) :
    (s.emit o).accts = s.accts := rfl
@[simp] theorem State.emit_gfe (s : State) (o : Output) :
    (s.emit o).gfe = s.gfe := rfl
@[simp] theorem State.emit_clus (s : State) (o : Output) :
    (s.emit o).clus = s.clus := rfl
@[simp] theorem State.emit_cnts (s : State) (o : Output) :
    (s.emit o).cnts = s.cnts := rfl
@[simp] theorem State.emit_resvs (s : State) (o : Output) :
    (s.emit o).resvs = s.resvs := rfl
@[simp] theorem State.emit_pslots (s : State) (o : Output) :
    (s.emit o).pslots = s.pslots := rfl
@[simp] theorem State.emit_scales (s : State) (o : Output) :
    (s.emit o).scales = s.scales := rfl
@[simp] theorem State.emit_mem (s : State) (o : Output) :
    (s.emit o).mem = s.mem := rfl
@[simp] theorem State.emit_frames (s : State) (o : Output) :
    (s.emit o).frames = s.frames := rfl
@[simp] theorem State.emit_objs (s : State) (o : Output) :
    (s.emit o).objs = s.objs := rfl
@[simp] theorem State.emit_place (s : State) (o : Output) :
    (s.emit o).place = s.place := rfl
@[simp] theorem State.emit_streams (s : State) (o : Output) :
    (s.emit o).streams = s.streams := rfl
@[simp] theorem State.emit_xfers (s : State) (o : Output) :
    (s.emit o).xfers = s.xfers := rfl
@[simp] theorem State.emit_link (s : State) (o : Output) :
    (s.emit o).link = s.link := rfl
@[simp] theorem State.emit_host (s : State) (o : Output) :
    (s.emit o).host = s.host := rfl
@[simp] theorem State.emit_fab (s : State) (o : Output) :
    (s.emit o).fab = s.fab := rfl
@[simp] theorem State.emit_integ (s : State) (o : Output) :
    (s.emit o).integ = s.integ := rfl
@[simp] theorem State.emit_icnt (s : State) (o : Output) :
    (s.emit o).icnt = s.icnt := rfl
@[simp] theorem State.emit_sup (s : State) (o : Output) :
    (s.emit o).sup = s.sup := rfl
@[simp] theorem State.emit_mon (s : State) (o : Output) :
    (s.emit o).mon = s.mon := rfl
@[simp] theorem State.emit_sec (s : State) (o : Output) :
    (s.emit o).sec = s.sec := rfl
@[simp] theorem State.emit_sb (s : State) (o : Output) :
    (s.emit o).sb = s.sb := rfl
@[simp] theorem State.emit_staged (s : State) (o : Output) :
    (s.emit o).staged = s.staged := rfl
@[simp] theorem State.emit_freeCtr (s : State) (o : Output) :
    (s.emit o).freeCtr = s.freeCtr := rfl
@[simp] theorem State.emit_pending (s : State) (o : Output) :
    (s.emit o).pending = s.pending := rfl

/-! `State.endStep` changes `reg` only. -/

@[simp] theorem State.endStep_clk (s : State) :
    s.endStep.clk = s.clk := rfl
@[simp] theorem State.endStep_ts (s : State) :
    s.endStep.ts = s.ts := rfl
@[simp] theorem State.endStep_chans (s : State) :
    s.endStep.chans = s.chans := rfl
@[simp] theorem State.endStep_cqs (s : State) :
    s.endStep.cqs = s.cqs := rfl
@[simp] theorem State.endStep_accts (s : State) :
    s.endStep.accts = s.accts := rfl
@[simp] theorem State.endStep_gfe (s : State) :
    s.endStep.gfe = s.gfe := rfl
@[simp] theorem State.endStep_clus (s : State) :
    s.endStep.clus = s.clus := rfl
@[simp] theorem State.endStep_cnts (s : State) :
    s.endStep.cnts = s.cnts := rfl
@[simp] theorem State.endStep_resvs (s : State) :
    s.endStep.resvs = s.resvs := rfl
@[simp] theorem State.endStep_pslots (s : State) :
    s.endStep.pslots = s.pslots := rfl
@[simp] theorem State.endStep_scales (s : State) :
    s.endStep.scales = s.scales := rfl
@[simp] theorem State.endStep_mem (s : State) :
    s.endStep.mem = s.mem := rfl
@[simp] theorem State.endStep_frames (s : State) :
    s.endStep.frames = s.frames := rfl
@[simp] theorem State.endStep_objs (s : State) :
    s.endStep.objs = s.objs := rfl
@[simp] theorem State.endStep_place (s : State) :
    s.endStep.place = s.place := rfl
@[simp] theorem State.endStep_streams (s : State) :
    s.endStep.streams = s.streams := rfl
@[simp] theorem State.endStep_xfers (s : State) :
    s.endStep.xfers = s.xfers := rfl
@[simp] theorem State.endStep_link (s : State) :
    s.endStep.link = s.link := rfl
@[simp] theorem State.endStep_host (s : State) :
    s.endStep.host = s.host := rfl
@[simp] theorem State.endStep_fab (s : State) :
    s.endStep.fab = s.fab := rfl
@[simp] theorem State.endStep_integ (s : State) :
    s.endStep.integ = s.integ := rfl
@[simp] theorem State.endStep_icnt (s : State) :
    s.endStep.icnt = s.icnt := rfl
@[simp] theorem State.endStep_sup (s : State) :
    s.endStep.sup = s.sup := rfl
@[simp] theorem State.endStep_mon (s : State) :
    s.endStep.mon = s.mon := rfl
@[simp] theorem State.endStep_sec (s : State) :
    s.endStep.sec = s.sec := rfl
@[simp] theorem State.endStep_sb (s : State) :
    s.endStep.sb = s.sb := rfl
@[simp] theorem State.endStep_staged (s : State) :
    s.endStep.staged = s.staged := rfl
@[simp] theorem State.endStep_out (s : State) :
    s.endStep.out = s.out := rfl
@[simp] theorem State.endStep_freeCtr (s : State) :
    s.endStep.freeCtr = s.freeCtr := rfl
@[simp] theorem State.endStep_pending (s : State) :
    s.endStep.pending = s.pending := rfl

end Sys2Proof.Machine
end

