-- ==== Sys2Proof/Laws/Endings.lean ====
section
/-! SUPPORT. What ending a command leaves: its completion record stands in the output of the step that ends it, on any ring that can take a record; and what taking a command from the global front end does.
The provers cite these lemmas in place of unfolding the operations. -/
namespace Sys2Proof.Machine
open Sys2Proof
theorem Keeps.mem {q s : State} (h : Keeps q s) {x : Output} (hx : x ∈ q.out) : x ∈ s.out := h.out.subset hx
theorem putRecord_mem (s : State) (c r b) : .hostWrite (s.recAddr c r) (withPhase b r (s.cqLog c)) ∈ (s.putRecord c r b).out := by
  unfold State.putRecord
  extract_lets s1
  have h1 : .hostWrite (s.recAddr c r) (withPhase b r (s.cqLog c)) ∈ s1.out := by
    show _ ∈ s.out ++ [_]
    simp
  split
  · exact (State.signalVector_keeps (Keeps.refl s1) _).mem h1
  · exact h1
theorem writeNext_mem (s : State) (c b) : .hostWrite (s.recAddr c (s.cq c).next.toNat) (withPhase b (s.cq c).next.toNat (s.cqLog c)) ∈ (s.writeNext c b).out := by
  unfold State.writeNext
  extract_lets q s1 s2
  have h1 := putRecord_mem s c q.next.toNat b
  have h2 : .hostWrite (s.recAddr c q.next.toNat) (withPhase b q.next.toNat (s.cqLog c)) ∈ s2.out := h1
  split
  · exact (State.recordFlush_keeps (Keeps.refl s2) _).mem h2
  · exact h2
theorem recordOf_mem (s : State) (d : Cmd) (st a b : Nat) (hc : s.CanRecord d.chan) (hq : ¬(st = stOk ∧ slotQuiet d.slot = true))
    (hl : st ≠ stHostLost) :
    s.recordOut d (if isClusterOp (slotOp d.slot) then (s.extra d.id).lastClu else 255) st a b ∈ (s.recordOf d st a b false).out := by
  obtain ⟨h1, h2, h3, h4, h5⟩ := hc
  unfold State.recordOf
  rw [if_neg (fun h => h.elim hq hl)]
  simp only [h1, Bool.false_eq_true, if_false, Nat.add_zero]
  rw [if_neg h2]
  unfold State.hostRecord
  simp only [h3, h4, h5, Bool.not_false, Bool.and_self, if_true]
  exact writeNext_mem s d.chan _
theorem endOne_records (s : State) (d : Cmd) (st a b : Nat) (hc : s.CanRecord d.chan)
    (hq : ¬(st = stOk ∧ slotQuiet d.slot = true)) (hl : st ≠ stHostLost) :
    s.recordOut d (if isClusterOp (slotOp d.slot) then (s.extra d.id).lastClu else 255) st a b ∈ (s.endOne d st a b false).out := by
  have h := recordOf_mem s d st a b hc hq hl
  have hk : Keeps (s.recordOf d st a b false) (s.endOne d st a b false) := by
    unfold State.endOne
    have k0 := State.refuseServed_keeps (Keeps.refl (s.recordOf d st a b false)) d st
    extract_lets s0 s1 s2 ac s3 s4 s5 s6 s7
    have k1 : Keeps (s.recordOf d st a b false) s1 := by
      show Keeps _ (if _ then _ else _)
      split
      · exact State.raise_keeps k0 _ _ _ _
      · split
        · exact State.raise_keeps k0 _ _ _ _
        · split
          · exact State.raise_keeps k0 _ _ _ _
          · exact k0
    have k2 := State.countLost_keeps k1 d st
    have k3 : Keeps (s.recordOf d st a b false) s3 := State.setAcct_keeps k2 _ _
    have k4 : Keeps (s.recordOf d st a b false) s4 := by
      show Keeps _ (if _ then _ else _)
      split
      · split
        · exact State.failCtx_keeps k3 _ _ _ _
        · exact k3
      · exact k3
    have k5 : Keeps (s.recordOf d st a b false) s5 := by
      show Keeps _ (if _ then _ else _)
      split
      · exact State.chargeCyc_keeps k4 _ _ _
      · exact k4
    have k6 : Keeps (s.recordOf d st a b false) s6 := State.dropCmd_keeps k5 _
    have k7 : Keeps (s.recordOf d st a b false) s7 := by
      unfold s7
      cases d.ctx with
      | none => exact k6
      | some i =>
        show Keeps _ (if _ then _ else _)
        split
        · exact State.rangeCtx_keeps k6 _ _
        · exact State.settleCtx_keeps k6 _
    exact State.grantCtxs_keeps (State.pumpRing_keeps (State.drainDone_keeps k7 _) _) _
  exact hk.mem h
theorem endCmd_records (s : State) (d : Cmd) (st a b : Nat) (hf : slotOp d.slot ≠ foldOp) (hc : s.CanRecord d.chan)
    (hq : ¬(st = stOk ∧ slotQuiet d.slot = true)) (hl : st ≠ stHostLost) :
    s.recordOut d (if isClusterOp (slotOp d.slot) then (s.extra d.id).lastClu else 255) st a b ∈ (s.endCmd d st a b false).out := by
  have h := endOne_records s d st a b hc hq hl
  unfold State.endCmd
  rw [if_neg hf]
  extract_lets s1
  split
  · exact h
  · split
    · exact h
    · extract_lets x1 x2
      exact (State.settleLaunch_keeps (State.setLaunch_keeps (Keeps.refl s1) _) _).mem h
theorem issue_canRecord {s : State} {c} (d p) (h : s.CanRecord c) : (s.issue d p).CanRecord c := h
theorem issue_recordOut (s : State) (e p) (d clu st a b) : (s.issue e p).recordOut d clu st a b = s.recordOut d clu st a b := rfl
theorem endNow_records (s : State) (d : Cmd) (op : Nat) (ho : slotOp d.slot = op) (hop : isClusterOp op = false ∧ op ≠ foldOp) (st a b : Nat) (hc : s.CanRecord d.chan)
    (hq : ¬(st = stOk ∧ slotQuiet d.slot = true)) (hl : st ≠ stHostLost) :
    s.recordOut d 255 st a b ∈ (s.endNow d st a b).out := by
  have h := endCmd_records (s.issue d (.waiting s.tickN)) d st a b (by rw [ho]; exact hop.2) hc hq hl
  rw [ho, hop.1] at h
  exact h
theorem gfeHead_issues {s t : State} {n op d} (f : State → Cmd → State) (h : s.Issues n op t d) : s.gfeHead n op f = f t d := by
  obtain ⟨h1, ⟨h, h2, h3⟩, h4, _⟩ := h
  unfold State.gfeHead
  simp [h1, h2, h3, h4]
end Sys2Proof.Machine
end

