-- ==== Sys2Proof/Laws/Objects.lean ====
section
/-! SUPPORT. Objects, fences, tiles and moves: which parts an ending leaves alone, what a tile rewrite leaves, what a command's moves leave, and that a frame keeps its bytes when another is written.
The provers cite these lemmas in place of unfolding the operations. -/
namespace Sys2Proof.Machine
open Sys2Proof
theorem gfe_exec {s t : State} {n op d} {f : State → Cmd → State} {c : Instr} (h : s.Issues n op t d) (hx : exec c s = done (s.gfeHead n op f)) :
    exec c s = .next (f t d).endStep := by rw [hx, gfeHead_issues f h]; rfl
theorem endStep_out (s : State) : s.endStep.out = s.out := rfl
theorem issues_op {s t : State} {n op d} (h : s.Issues n op t d) : slotOp d.slot = op := h.2.2.2
theorem not_quiet_ok {st : Nat} {q : Bool} (h : st ≠ stOk) : ¬(st = stOk ∧ q = true) := fun e => h e.1
theorem ok_is_recorded {q : Bool} (h : q = false) : ¬(stOk = stOk ∧ q = true) ∧ stOk ≠ stHostLost := ⟨fun e => by simp [h] at e, by decide⟩
theorem endOne_objs (s : State) (d a b c e) : (s.endOne d a b c e).objs = s.objs := (State.endOne_only (Within.refl _) (OnlyChanges.refl s) d a b c e).use .objs rfl
theorem settleLaunch_objs (s : State) (l) : (s.settleLaunch l).objs = s.objs := (State.settleLaunch_only (Within.refl _) (OnlyChanges.refl s) l).use .objs rfl
theorem endCmd_objs (s : State) (d st a b c) (h : slotOp d.slot ≠ foldOp) : (s.endCmd d st a b c).objs = s.objs := by
  unfold State.endCmd
  rw [if_neg h]
  extract_lets s1
  have h1 : s1.objs = s.objs := endOne_objs _ _ _ _ _ _
  split
  · exact h1
  · split
    · exact h1
    · extract_lets x1 x2
      rw [settleLaunch_objs]
      exact h1
theorem endNow_objs (s : State) (d st a b) (h : slotOp d.slot ≠ foldOp) : (s.endNow d st a b).objs = s.objs := endCmd_objs _ _ _ _ _ _ h
theorem endNow_mem (s : State) (d st a b) : (s.endNow d st a b).mem = s.mem := (State.endNow_only (Within.refl _) (OnlyChanges.refl s) d st a b).use .mem rfl
theorem homeOf_objs {s t : State} (h : s.objs = t.objs) (a b) : s.homeOf a b = t.homeOf a b := by unfold State.homeOf State.obj?; rw [h]
theorem bytesAt_mem {s t : State} (h : s.mem = t.mem) (a b) : s.bytesAt a b = t.bytesAt a b := by unfold State.bytesAt; rw [h]
theorem bytesAt_writeBytes {s : State} (h : Memory.wf s.mem = true) (a : Nat) (bs : List Byte) : (s.writeBytes a bs).bytesAt a bs.length = bs := by
  rw [State.bytesAt_eq (Memory.wf_memWrite h a bs)]
  apply List.ext_getElem
  · simp
  · intro i h1 h2
    simp only [List.getElem_map, List.getElem_range]
    rw [State.byte_writeBytes h, if_pos (by simp at h1; omega)]
    simp [h2]
theorem abandonMove_objs (s : State) (a b c) : (s.abandonMove a b c).objs = s.objs := (State.abandonMove_only (Within.refl _) (OnlyChanges.refl s) _ _ _).use .objs rfl
theorem leaveHome_objs (s : State) (a) : (s.leaveHome a).objs = s.objs := (State.leaveHome_only (Within.refl _) (OnlyChanges.refl s) _).use .objs rfl
theorem flipTile_home (s : State) (h : Shadow) {o} (ho : s.obj? h.obj = some o) : (s.flipTile h).homeOf h.obj h.tile = some h.fid := by
  unfold State.flipTile
  extract_lets s1 old s2
  have h1 : s1.objs = s.objs := by
    unfold s1; split
    · exact abandonMove_objs _ _ _ _
    · rfl
  have h2 : s2.homeOf h.obj h.tile = some h.fid :=
    State.homeOf_setHome_self _ _ (o := o) (by
      show Sparse.find? (s1.setFrame _ _).objs h.obj = _
      show Sparse.find? s1.objs h.obj = _
      rw [h1]; exact ho)
  cases old with
  | none => exact h2
  | some f =>
    show State.homeOf (if _ then _ else _) _ _ = _
    split
    · exact h2
    · rw [homeOf_objs (leaveHome_objs s2 _)]; exact h2
theorem flipTile_mem (s : State) (h : Shadow) : (s.flipTile h).mem = s.mem := (State.flipTile_only (Within.refl _) (OnlyChanges.refl s) h).use .mem rfl
theorem canon_writeBytes {s : State} (h : s.Canon) (a bs) : (s.writeBytes a bs).Canon := (State.writeBytes_keeps (Keeps.refl s) a bs).canon h
theorem canon_mem_eq {s t : State} (h : s.mem = t.mem) (hw : Memory.wf t.mem = true) : Memory.wf s.mem = true := h ▸ hw
theorem rewriteTile_spec (s : State) (hc : s.Canon) (h tile cls off : Nat) (bs : List Byte) {o : Obj} {f} (ho : s.obj? h = some o) (hf : s.homeOf h tile = some f) :
    ∃ g, (s.rewriteTile h tile cls off bs).homeOf h tile = some g ∧ (s.rewriteTile h tile cls off bs).bytesAt (frameData g + off) bs.length = bs := by
  unfold State.rewriteTile
  simp only [hf]
  split
  · refine ⟨f, ?_, bytesAt_writeBytes hc.mem _ _⟩
    rw [← hf]; exact homeOf_objs rfl _ _
  · rename_i g s1 ha
    have hs1 : s1.objs = s.objs ∧ s1.Canon := by
      unfold State.allocShadow at ha
      split at ha
      · exact absurd ha (by simp)
      · injection ha with ha; injection ha with h1 h2
        subst h2
        exact ⟨rfl, (State.takeShadow_keeps (Keeps.refl s) _ _ _ _).canon hc⟩
    have hcc : (s1.copyFrame f g).Canon := (State.copyFrame_keeps (Keeps.refl s1) f g).canon hs1.2
    refine ⟨g, flipTile_home (o := o) _ _ ?_, ?_⟩
    · show Sparse.find? s1.objs h = _
      rw [hs1.1]; exact ho
    · rw [bytesAt_mem (flipTile_mem _ _)]
      exact bytesAt_writeBytes hcc.mem _ _
theorem liveObj_obj {s : State} {h o} (hl : s.liveObj h = some o) : s.obj? h = some o := by
  unfold State.liveObj at hl
  split at hl
  · split at hl
    · rename_i e _; rw [e]; exact hl
    · exact absurd hl (by simp)
  · exact absurd hl (by simp)
theorem leBytes_length (n v) : (leBytes n v).length = n := by
  induction n generalizing v with
  | zero => rfl
  | succ n ih => simp [leBytes, ih]
theorem stampRecord_length (s : State) : s.stampRecord.length = 16 := by
  unfold State.stampRecord zeros; simp [leBytes_length]
theorem setFenceVal_mem (s : State) (n v) {x} (h : x ∈ s.out) : x ∈ (s.setFenceVal n v).out := (State.setFenceVal_keeps (Keeps.refl s) n v).mem h
theorem setFenceVal_fences (s : State) (n v) : (s.setFenceVal n v).gfe.fences = (s.setFence n { s.fence n with val := BitVec.ofNat 64 v }).gfe.fences := rfl
theorem closeFences_fences (s : State) : s.closeFences.gfe.fences = s.gfe.fences := (State.closeFences_only (Within.refl _) (OnlyChanges.refl s)).use .fences rfl
theorem endNow_fences (s : State) (d st a b) : (s.endNow d st a b).gfe.fences = s.gfe.fences := (State.endNow_only (Within.refl _) (OnlyChanges.refl s) d st a b).use .fences rfl
theorem setFence_congr {s t : State} (h : s.gfe.fences = t.gfe.fences) (n v) : (s.setFence n { s.fence n with val := v }).gfe.fences = (t.setFence n { t.fence n with val := v }).gfe.fences := by
  show Sparse.put _ s.gfe.fences n { s.fence n with val := v } = Sparse.put _ t.gfe.fences n { t.fence n with val := v }
  unfold State.fence; rw [h]
theorem waitOf_op {s : State} {n d k} (h : s.waitOf n = some (d, k)) : slotOp d.slot = 0x09 ∨ slotOp d.slot = 0x0A := by
  unfold State.waitOf at h
  obtain ⟨e, he, h⟩ := List.exists_of_findSome?_eq_some h
  revert h
  cases e.phase <;> simp
  rename_i k
  intro h1 h2 h3; subst h2; exact h1
theorem setExtra_self (s : State) (e : CmdExtra) : (s.setExtra e).extra e.cmd = e := by
  unfold State.setExtra State.extra
  simp
theorem extra_cmd (s : State) (id) : (s.extra id).cmd = id := by
  unfold State.extra
  split
  · rename_i e h; simpa using List.find?_some h
  · rfl
theorem lowest_nil : lowest [] = none := rfl
theorem within_of_all {a b : List Part} (h : a.all (fun p => b.contains p) = true) : Within a b := h
theorem queueFills_objs (s : State) (l) : (s.queueFills l).objs = s.objs := (State.queueFills_only (Within.refl _) (OnlyChanges.refl s) l).use .objs rfl
theorem enterObj_objs (s : State) (h o fs ord) : (s.enterObj h o fs ord).objs = (s.setObj h { o with map := indexed 0 fs }).objs := by
  unfold State.enterObj
  extract_lets map s1
  have h1 : s1.objs = s.objs := by
    unfold s1
    generalize map = m
    clear s1
    induction m generalizing s with
    | nil => rfl
    | cons x m ih => exact ih _
  rw [queueFills_objs]
  show Sparse.insert s1.objs _ _ = Sparse.insert s.objs _ _
  rw [h1]
theorem endCmd_fold_objs (s : State) (d st a b c) (h : slotOp d.slot ≠ foldOp) : (s.endCmd d st a b c).objs = s.objs := endCmd_objs _ _ _ _ _ _ h
theorem foldl_invariant {α : Type} {P : State → Prop} {f : State → α → State} (hf : ∀ t x, P t → P (f t x)) : ∀ (l : List α) (s : State), P s → P (l.foldl f s)
  | [], _, h => h
  | x :: l, s, h => foldl_invariant hf l (f s x) (hf s x h)
/-- The pieces that records read are the same. -/
def SameForRecords (s t : State) : Prop := t.clk = s.clk ∧ t.reg = s.reg ∧ t.chans = s.chans ∧ t.cqs = s.cqs ∧ t.link = s.link ∧ t.sec = s.sec ∧ t.integ.test = s.integ.test
theorem SameForRecords.can {s t : State} (h : SameForRecords s t) {c} (hc : s.CanRecord c) : t.CanRecord c := by
  obtain ⟨h1, h2, h3, h4, h5, h6, h7⟩ := h
  unfold State.CanRecord State.mayWrite State.cqFull State.chan State.cq State.linkUp State.unitTest State.cqLog State.fld State.regGet at *
  rw [h2, h3, h4, h5, h6, h7]
  exact hc
theorem SameForRecords.rec {s t : State} (h : SameForRecords s t) (d c a b e) : t.recordOut d c a b e = s.recordOut d c a b e := by
  obtain ⟨h1, h2, h3, h4, h5, h6, h7⟩ := h
  unfold State.recordOut State.recAddr State.cqBase State.cqLog State.cq State.fld State.regGet State.tickN State.stamp State.stampAt
  rw [h1, h2, h4]
theorem settleMove_objs (s : State) (id) : (s.settleMove id).objs = s.objs := by
  unfold State.settleMove
  split
  · rfl
  · rename_i d hd
    split
    · rfl
    · rename_i hn
      have hop : slotOp d.slot = 0x1A := by
        by_cases h : slotOp d.slot = 0x1A
        · exact h
        · exact absurd (Or.inl h) hn
      extract_lets hh tier
      split
      · exact endCmd_objs _ _ _ _ _ _ (by rw [hop]; decide)
      · exact endCmd_objs _ _ _ _ _ _ (by rw [hop]; decide)
theorem settleMoves_objs (s : State) : (s.settleMoves).objs = s.objs :=
  foldl_invariant (P := fun t => t.objs = s.objs) (fun t _ h => (settleMove_objs t _).trans h) _ s rfl
def MoveOrWant (h tile : Nat) (t : State) : Prop :=
  t.place.moves.any (fun x => x.obj == h && x.tile == tile) = true ∨ t.place.wants.any (fun x => x.obj == h && x.tile == tile) = true
theorem any_filter_other {h tile k : Nat} (hk : k ≠ tile) (l : List Move) (e : l.any (fun x => x.obj == h && x.tile == tile) = true) :
    (l.filter (fun m => !(m.obj == h && m.tile == k))).any (fun x => x.obj == h && x.tile == tile) = true := by
  rw [List.any_eq_true] at e ⊢
  obtain ⟨x, hx, hp⟩ := e
  refine ⟨x, List.mem_filter.mpr ⟨hx, ?_⟩, hp⟩
  simp only [Bool.and_eq_true, beq_iff_eq] at hp
  have : ¬ x.tile = k := fun e => hk (e.symm.trans hp.2)
  simp [this]
theorem freeFrame_place (s : State) (f) : (s.freeFrame f).place = s.place := (State.freeFrame_only (Within.refl _) (OnlyChanges.refl s) f).use .place rfl
theorem releaseReads_place (s : State) (f) : (s.releaseReads f).place = s.place := (State.releaseReads_only (Within.refl _) (OnlyChanges.refl s) f).use .place rfl
theorem abandonMove_placed {s : State} {h tile k : Nat} (hk : k ≠ tile) (b) (hp : MoveOrWant h tile s) : MoveOrWant h tile (s.abandonMove h k b) := by
  unfold State.abandonMove
  split
  · exact hp
  · rename_i m hm
    extract_lets +onlyGivenNames s1
    extract_lets +onlyGivenNames again
    extract_lets +onlyGivenNames src s2
    have h1 : MoveOrWant h tile s1 := by
      unfold MoveOrWant s1
      rw [freeFrame_place]
      rcases hp with hp | hp
      · left; exact any_filter_other hk _ hp
      · right; exact hp
    have h2 : MoveOrWant h tile s2 := by
      unfold s2
      split
      · rcases h1 with h1 | h1
        · left; exact h1
        · right
          show List.any (s1.place.wants ++ _) _ = true
          rw [List.any_append, h1]; rfl
      · exact h1
    split
    · unfold MoveOrWant; rw [releaseReads_place]; exact h2
    · exact h2
theorem startMove_placed {s : State} {h tile : Nat} (a b c k ord) (hp : MoveOrWant h tile s) : MoveOrWant h tile (s.startMove a b c k ord) := by
  unfold State.startMove
  split
  · exact hp
  · rcases hp with hp | hp
    · left
      show List.any (s.place.moves ++ _) _ = true
      rw [List.any_append, hp]; rfl
    · right; exact hp
theorem commandMove_other {s : State} {id h tile k dst ord} (hp : MoveOrWant h tile s) : MoveOrWant h tile (s.commandMove id h k dst ord) := by
  unfold State.commandMove
  split
  · exact startMove_placed _ _ _ _ _ hp
  · rcases hp with hp | hp
    · left; exact hp
    · right
      show List.any (s.place.wants ++ _) _ = true
      rw [List.any_append, hp]; rfl
theorem commandMove_self (s : State) (id h k dst ord) : MoveOrWant h k (s.commandMove id h k dst ord) := by
  unfold State.commandMove
  split
  · rename_i hc
    unfold State.canMove at hc
    split at hc
    · exact absurd hc (by decide)
    · rename_i f hf
      left
      unfold State.startMove
      rw [hf]
      show List.any (s.place.moves ++ _) _ = true
      rw [List.any_append]; simp
  · right
    show List.any (s.place.wants ++ _) _ = true
    rw [List.any_append]; simp
theorem commandMoves_placed (id h : Nat) (ord) : ∀ (ms : List (Nat × Nat)) (s : State), (∀ k, MoveOrWant h k s → MoveOrWant h k (ms.foldl (fun t m => t.commandMove id h m.1 m.2 ord) s)) ∧
    ∀ m ∈ ms, MoveOrWant h m.1 (ms.foldl (fun t m => t.commandMove id h m.1 m.2 ord) s)
  | [], s => ⟨fun _ h => h, fun _ h => nomatch h⟩
  | x :: ms, s => by
    have ih := commandMoves_placed id h ord ms (s.commandMove id h x.1 x.2 ord)
    refine ⟨fun k hk => ih.1 k (commandMove_other hk), fun m hm => ?_⟩
    rcases List.mem_cons.mp hm with rfl | hm
    · exact ih.1 _ (commandMove_self _ _ _ _ _ _)
    · exact ih.2 m hm
theorem settleMove_place (s : State) (id) : (s.settleMove id).place = s.place := (State.settleMove_only (Within.refl _) (OnlyChanges.refl s) id).use .place rfl
end Sys2Proof.Machine
end

