-- ==== Sys2Proof/Laws/Ticks.lean ====
section
/-! SUPPORT. The clock and the tick: which operations move the clock, which stage and which staged values the cutoff, the guard band and the edge leave.
The provers cite these lemmas in place of unfolding the operations. -/
namespace Sys2Proof.Machine
open Sys2Proof
theorem overrun_clk (s : State) (n : Nat) : (s.overrun n).clk = s.clk :=
  (State.overrun_only (Within.refl _) (OnlyChanges.refl s) n).use .clk rfl
theorem foldl_clk {α : Type} {f : State → α → State} (h : ∀ s a, (f s a).clk = s.clk) (l : List α) (s : State) :
    (l.foldl f s).clk = s.clk := by
  induction l generalizing s with
  | nil => rfl
  | cons a l ih => rw [List.foldl_cons, ih, h]
theorem settle_clk (s : State) : s.settleCommits.clk = s.clk :=
  (State.settleCommits_only (Within.refl _) (OnlyChanges.refl s)).use .clk rfl
theorem settle_staged (s : State) : s.settleCommits.staged = s.staged :=
  (State.settleCommits_only (Within.refl _) (OnlyChanges.refl s)).use .staged rfl
theorem closeFences_clk (s : State) : s.closeFences.clk = s.clk := (State.closeFences_only (Within.refl _) (OnlyChanges.refl s)).use .clk rfl
theorem closeFences_staged (s : State) : s.closeFences.staged = s.staged := (State.closeFences_only (Within.refl _) (OnlyChanges.refl s)).use .staged rfl
theorem lastCommits_clk (s : State) : s.lastCommits.clk = s.clk := (State.lastCommits_only (Within.refl _) (OnlyChanges.refl s)).use .clk rfl
theorem toCycle_clk (s : State) (c : Nat) : (s.toCycle c).clk = { s.clk with cyc := max s.clk.cyc c, now := s.clk.now + (c - s.clk.cyc) } := by
  unfold State.toCycle
  split
  · rename_i h
    rw [settle_clk]
    simp only [State.clockTo, State.endStep, closeFences_clk]
    rw [Nat.max_eq_right (Nat.le_of_lt h)]
  · rename_i h
    rw [Nat.max_eq_left (by omega), show c - s.clk.cyc = 0 by omega, Nat.add_zero]
theorem toCycle_staged (s : State) (c : Nat) : (s.toCycle c).staged = s.staged := by
  unfold State.toCycle
  split
  · rw [settle_staged]; exact closeFences_staged s
  · rfl
theorem cutoffWork_clk (s : State) : s.cutoffWork.clk = { s.clk with stage := .cut } := by
  unfold State.cutoffWork State.tickStage
  simp only
  rw [foldl_clk overrun_clk, lastCommits_clk]
theorem cutoffWork_staged (s : State) : s.cutoffWork.staged = s.staged :=
  (State.cutoffWork_only (Within.refl _) (OnlyChanges.refl s)).use .staged rfl
theorem runCutoff_clk (s : State) : s.runCutoff.clk = if s.clk.stage = .early then
    { s.clk with cyc := max s.clk.cyc s.cutoff, now := s.clk.now + (s.cutoff - s.clk.cyc), stage := .cut } else s.clk := by
  unfold State.runCutoff
  split
  · rw [cutoffWork_clk, toCycle_clk]
  · rfl
theorem runCutoff_staged (s : State) : s.runCutoff.staged = s.staged := by
  unfold State.runCutoff
  split
  · rw [cutoffWork_staged, toCycle_staged]
  · rfl
theorem tryRealign_staged (s : State) : s.tryRealign.staged = s.staged :=
  (State.tryRealign_only (Within.refl _) (OnlyChanges.refl s)).use .staged rfl
theorem raise_clk (s : State) (w i o b) : (s.raise w i o b).clk = s.clk := (State.raise_only (Within.refl _) (OnlyChanges.refl s) _ _ _ _).use .clk rfl
theorem raise_staged (s : State) (w i o b) : (s.raise w i o b).staged = s.staged := (State.raise_only (Within.refl _) (OnlyChanges.refl s) _ _ _ _).use .staged rfl
theorem tryRealign_clk (s : State) : ∃ k, s.tryRealign.clk = { s.clk with len := k } := by
  unfold State.tryRealign
  split
  · exact ⟨_, rfl⟩
  · split
    · exact ⟨_, rfl⟩
    · exact ⟨_, (raise_clk _ _ _ _ _).trans rfl⟩
theorem killSweep_clk (s : State) : s.killSweep.clk = s.clk := (State.killSweep_only (Within.refl _) (OnlyChanges.refl s)).use .clk rfl
theorem boundarySteps_clk (s : State) (us vs) : (s.boundarySteps us vs).clk = s.clk := (State.boundarySteps_only (Within.refl _) (OnlyChanges.refl s) us vs).use .clk rfl
theorem takeFrees_clk (n : Nat) (s : State) : (State.takeFrees n s).2.clk = s.clk := (State.takeFrees_only (Within.refl _) (OnlyChanges.refl s) n).use .clk rfl
theorem newWindow_clk (s : State) : s.newWindow.clk = s.clk := (State.newWindow_only (Within.refl _) (OnlyChanges.refl s)).use .clk rfl
theorem newWindow_staged (s : State) : s.newWindow.staged = s.staged := (State.newWindow_only (Within.refl _) (OnlyChanges.refl s)).use .staged rfl
theorem noteStretch_clk (s : State) (w) : (s.noteStretch w).clk = s.clk := (State.noteStretch_only (Within.refl _) (OnlyChanges.refl s) w).use .clk rfl
theorem noteStretch_staged (s : State) (w) : (s.noteStretch w).staged = s.staged := (State.noteStretch_only (Within.refl _) (OnlyChanges.refl s) w).use .staged rfl
theorem boundaryWork_clk (s : State) (us dom) : ∃ k, (s.boundaryWork us dom).clk = { s.clk with len := k } := by
  unfold State.boundaryWork
  exact ⟨_, (noteStretch_clk _ _).trans ((newWindow_clk _).trans rfl)⟩
theorem boundaryWork_staged (s : State) (us dom) : (s.boundaryWork us dom).staged.isSome = true := by
  unfold State.boundaryWork
  rw [noteStretch_staged, newWindow_staged]; rfl
theorem guardWork_clk (s : State) : ∃ k, s.guardWork.clk = { s.clk with len := k, stage := .guard } := by
  unfold State.guardWork
  extract_lets us f
  obtain ⟨k, hk⟩ := boundaryWork_clk f.2 us f.1
  obtain ⟨l, hl⟩ := tryRealign_clk (f.2.boundaryWork us f.1)
  refine ⟨l, ?_⟩
  show { (f.2.boundaryWork us f.1).tryRealign.clk with stage := TickStage.guard } = _
  rw [hl, hk]
  have h : f.2.clk = s.clk := by
    show (State.takeFrees 6 _).2.clk = _
    rw [takeFrees_clk, boundarySteps_clk, killSweep_clk]
  rw [h]
theorem guardWork_staged (s : State) : s.guardWork.staged.isSome = true := by
  unfold State.guardWork
  extract_lets us f
  show (f.2.boundaryWork us f.1).tryRealign.staged.isSome = true
  rw [tryRealign_staged, boundaryWork_staged]
theorem runGuard_tick (s : State) : s.runGuard.clk.tick = s.clk.tick := by
  unfold State.runGuard
  extract_lets t
  have h : t.clk.tick = s.clk.tick := by
    show s.runCutoff.clk.tick = _
    rw [runCutoff_clk]; split <;> rfl
  split
  · obtain ⟨k, hk⟩ := guardWork_clk (t.toCycle t.G)
    rw [hk, toCycle_clk]; exact h
  · exact h
theorem nextCycle_clk (s : State) : s.nextCycle.clk.tick = s.clk.tick ∧ (s.nextCycle.clk.stage = .guard ↔ s.clk.stage = .guard) := by
  unfold State.nextCycle
  extract_lets t
  have h : t.clk.tick = s.clk.tick ∧ t.clk.stage = s.clk.stage := by
    show (s.toCycle _).clk.tick = _ ∧ (s.toCycle _).clk.stage = _
    rw [toCycle_clk]; exact ⟨rfl, rfl⟩
  split
  · rename_i hh
    rw [cutoffWork_clk]
    refine ⟨h.1, ?_⟩
    rw [← h.2, hh.1]
    simp
  · rw [h.1, h.2]; exact ⟨rfl, Iff.rfl⟩
theorem dispatch_clk (s : State) (p : Nat) : (s.dispatch p).clk = s.clk := (State.dispatch_only (Within.refl _) (OnlyChanges.refl s) p).use .clk rfl
theorem dispatch_staged (s : State) (p : Nat) : (s.dispatch p).staged = s.staged := (State.dispatch_only (Within.refl _) (OnlyChanges.refl s) p).use .staged rfl
theorem done_inj {s t : State} (h : done s = .next t) : t = s.endStep := by
  unfold done at h; injection h with h; exact h.symm
theorem idle_early (s : State) (ho : s.on = true) (he : s.clk.stage = .early) (hc : s.clk.cyc + 1 < s.cutoff) :
    s.idle.clk = { s.clk with cyc := s.clk.cyc + 1, now := s.clk.now + 1 } := by
  have h1 : (s.toCycle (s.clk.cyc + 1)).clk = { s.clk with cyc := s.clk.cyc + 1, now := s.clk.now + 1 } := by
    rw [toCycle_clk, Nat.max_eq_right (Nat.le_succ _), Nat.add_sub_cancel_left]
  have h2 : (s.toCycle (s.clk.cyc + 1)).cutoff = s.cutoff := by
    unfold State.cutoff State.G; rw [h1]
  have h3 : ¬ s.cutoff ≤ s.clk.cyc + 1 := by omega
  unfold State.idle
  simp only [ho, Bool.not_true, Bool.false_eq_true, if_false, h1, h2, he, h3]
  exact h1.trans (by rw [← he])
theorem endStep_clk (s : State) : s.endStep.clk = s.clk := rfl
theorem runGuard_guardStaged (s : State) (h : s.GuardStaged) : s.runGuard.GuardStaged := by
  unfold State.runGuard State.GuardStaged
  extract_lets t
  have ht : (t.clk.stage = .guard ↔ t.staged.isSome = true) := by
    show (s.runCutoff.clk.stage = _ ↔ s.runCutoff.staged.isSome = true)
    rw [runCutoff_staged, runCutoff_clk]
    unfold State.GuardStaged at h
    split
    · rename_i e; rw [← h, e]; simp
    · exact h
  split
  · rw [guardWork_staged]
    obtain ⟨k, hk⟩ := guardWork_clk (t.toCycle t.G)
    rw [hk]; simp
  · exact ht
theorem tryRealign_guardStaged (s : State) (h : s.GuardStaged) : s.tryRealign.GuardStaged := by
  unfold State.GuardStaged at *
  obtain ⟨k, hk⟩ := tryRealign_clk s
  rw [hk, tryRealign_staged]; exact h
theorem toCycle_guardStaged (s : State) (c : Nat) (h : s.GuardStaged) : (s.toCycle c).GuardStaged := by
  unfold State.GuardStaged at *
  rw [toCycle_clk, toCycle_staged]; exact h
theorem turn_clk_staged (s : State) : s.turn.takePeriod.clk = { s.clk with tick := s.clk.tick + 1, cyc := 0, stage := .early, period := s.fld .gfe 0 0x100 10 0, len := 1300 * s.fld .gfe 0 0x100 10 0 } ∧ s.turn.takePeriod.staged = none := ⟨rfl, rfl⟩
theorem nextTick_clk_staged (s : State) (x) : (∃ p, (s.nextTick x).clk = { s.clk with tick := s.clk.tick + 1, cyc := 0, stage := .early, period := p, len := 1300 * p }) ∧ (s.nextTick x).staged = none := by
  unfold State.nextTick
  have h1 : (((s.showStaged x).scaleEdge).applyWrites (s.tickN + 1)).clk = s.clk := by
    rw [(State.applyWrites_only (Within.refl _) (OnlyChanges.refl _) _).use .clk rfl, (State.scaleEdge_only (Within.refl _) (OnlyChanges.refl _)).use .clk rfl,
      (State.showStaged_only (Within.refl _) (OnlyChanges.refl _) _).use .clk rfl]
  refine ⟨⟨State.fld (((s.showStaged x).scaleEdge).applyWrites (s.tickN + 1)) .gfe 0 0x100 10 0, ?_⟩, (turn_clk_staged _).2⟩
  rw [(turn_clk_staged _).1, h1]
theorem visible_clk_staged (s : State) (x) : (s.visible x).clk = (s.nextTick x).clk ∧ (s.visible x).staged = (s.nextTick x).staged := by
  unfold State.visible
  extract_lets s1
  have h1 : s1.clk = (s.nextTick x).clk ∧ s1.staged = (s.nextTick x).staged := by
    constructor
    · show (State.cluEdge _).clk = _
      rw [(State.cluEdge_only (Within.refl _) (OnlyChanges.refl _)).use .clk rfl, (State.domainEdge_only (Within.refl _) (OnlyChanges.refl _)).use .clk rfl]
    · show (State.cluEdge _).staged = _
      rw [(State.cluEdge_only (Within.refl _) (OnlyChanges.refl _)).use .staged rfl, (State.domainEdge_only (Within.refl _) (OnlyChanges.refl _)).use .staged rfl]
  clear_value s1
  rw [(State.endScaleSets_only (Within.refl _) (OnlyChanges.refl _) _).use .clk rfl, (State.endScaleSets_only (Within.refl _) (OnlyChanges.refl _) _).use .staged rfl,
    (State.showPatches_only (Within.refl _) (OnlyChanges.refl _)).use .clk rfl, (State.showPatches_only (Within.refl _) (OnlyChanges.refl _)).use .staged rfl,
    (State.tsEdge_only (Within.refl _) (OnlyChanges.refl _) _ _).use .clk rfl, (State.tsEdge_only (Within.refl _) (OnlyChanges.refl _) _ _).use .staged rfl]
  split
  · rw [(State.moveFlows_only (Within.refl _) (OnlyChanges.refl _)).use .clk rfl, (State.moveFlows_only (Within.refl _) (OnlyChanges.refl _)).use .staged rfl]; exact h1
  · exact h1
theorem edgeWork_none (s : State) (h : s.staged = none) : s.edgeWork = s := by unfold State.edgeWork; rw [h]
theorem edgeWork_clk_staged (s : State) (x) (h : s.staged = some x) : s.edgeWork.clk = (s.nextTick x).clk ∧ s.edgeWork.staged = none := by
  unfold State.edgeWork
  simp only [h]
  generalize hs1 : s.visible x = s1
  generalize hs2 : List.foldl State.poolEdge s1 _ = s2
  have h1 := visible_clk_staged s x
  rw [hs1] at h1
  have h2 : s2.clk = s1.clk ∧ s2.staged = s1.staged := by
    subst hs2
    constructor
    · exact foldl_clk (fun t a => (State.poolEdge_only (Within.refl _) (OnlyChanges.refl t) a).use .clk rfl) _ _
    · generalize List.map Prod.fst s1.objs = l
      clear hs1 h h1
      generalize s1 = u
      induction l generalizing u with
      | nil => rfl
      | cons a l ih => rw [List.foldl_cons, ih, (State.poolEdge_only (Within.refl _) (OnlyChanges.refl u) a).use .staged rfl]
  rw [(State.settleMem_only (Within.refl _) (OnlyChanges.refl _)).use .clk rfl, (State.settleMem_only (Within.refl _) (OnlyChanges.refl _)).use .staged rfl,
    (State.issueLaunches_only (Within.refl _) (OnlyChanges.refl _) _).use .clk rfl, (State.issueLaunches_only (Within.refl _) (OnlyChanges.refl _) _).use .staged rfl,
    (State.tidy_only (Within.refl _) (OnlyChanges.refl _)).use .clk rfl, (State.tidy_only (Within.refl _) (OnlyChanges.refl _)).use .staged rfl,
    (State.destroyOrphans_only (Within.refl _) (OnlyChanges.refl _)).use .clk rfl, (State.destroyOrphans_only (Within.refl _) (OnlyChanges.refl _)).use .staged rfl,
    (State.testEdge_only (Within.refl _) (OnlyChanges.refl _)).use .clk rfl, (State.testEdge_only (Within.refl _) (OnlyChanges.refl _)).use .staged rfl,
    (State.syncTargets_only (Within.refl _) (OnlyChanges.refl _)).use .clk rfl, (State.syncTargets_only (Within.refl _) (OnlyChanges.refl _)).use .staged rfl,
    (State.recordEdge_only (Within.refl _) (OnlyChanges.refl _)).use .clk rfl, (State.recordEdge_only (Within.refl _) (OnlyChanges.refl _)).use .staged rfl,
    (State.ctxEdge_only (Within.refl _) (OnlyChanges.refl _) _).use .clk rfl, (State.ctxEdge_only (Within.refl _) (OnlyChanges.refl _) _).use .staged rfl]
  rw [h2.1, h2.2]
  exact ⟨h1.1, h1.2.trans (nextTick_clk_staged s x).2⟩
theorem edgeWork_guardStaged (s : State) (h : s.GuardStaged) : s.edgeWork.GuardStaged := by
  cases hs : s.staged with
  | none => rw [edgeWork_none s hs]; exact h
  | some x =>
    unfold State.GuardStaged
    obtain ⟨p, hp⟩ := (nextTick_clk_staged s x).1
    rw [(edgeWork_clk_staged s x hs).1, (edgeWork_clk_staged s x hs).2, hp]; simp
theorem runEdge_guardStaged (s : State) (h : s.GuardStaged) : s.runEdge.GuardStaged := by
  unfold State.runEdge
  exact edgeWork_guardStaged _ (toCycle_guardStaged _ _ (tryRealign_guardStaged _ (runGuard_guardStaged s h)))
theorem endStep_guardStaged (s : State) (h : s.GuardStaged) : s.endStep.GuardStaged := h
theorem powerOff_guardStaged (s : State) : s.powerOff.GuardStaged := by unfold State.GuardStaged; show _ = _ ↔ _; simp [State.powerOff, State.reset]
theorem powered_guardStaged (s : State) (b) : (s.powered b).GuardStaged := powerOff_guardStaged s
theorem guardStaged_of {s t : State} (h1 : t.clk = s.clk) (h2 : t.staged = s.staged) (k : s.GuardStaged) : t.GuardStaged := by
  unfold State.GuardStaged; rw [h1, h2]; exact k
theorem recov_guardStaged (s : State) (a b) (k : s.GuardStaged) : (s.enterRecovery a b).GuardStaged :=
  guardStaged_of ((State.enterRecovery_only (Within.refl _) (OnlyChanges.refl _) _ _).use .clk rfl) ((State.enterRecovery_only (Within.refl _) (OnlyChanges.refl _) _ _).use .staged rfl) k
theorem boot4_guardStaged (s : State) (b) (k : s.GuardStaged) : (s.boot4 b).GuardStaged :=
  guardStaged_of ((State.boot4_only (Within.refl _) (OnlyChanges.refl _) _).use .clk rfl) ((State.boot4_only (Within.refl _) (OnlyChanges.refl _) _).use .staged rfl) k
theorem cutoffWork_guardStaged (s : State) (k : s.GuardStaged) (h : s.clk.stage = .early) : s.cutoffWork.GuardStaged := by
  unfold State.GuardStaged at *
  rw [cutoffWork_clk, cutoffWork_staged, ← k, h]; simp
theorem guardWork_guardStaged (s : State) : s.guardWork.GuardStaged := by
  unfold State.GuardStaged
  rw [guardWork_staged]
  obtain ⟨k, hk⟩ := guardWork_clk s
  rw [hk]; simp
theorem idle_guardStaged (s : State) (k : s.GuardStaged) : s.idle.GuardStaged := by
  unfold State.idle
  split
  · exact k
  · have h1 : (s.toCycle (s.clk.cyc + 1)).GuardStaged := toCycle_guardStaged _ _ k
    refine endStep_guardStaged _ ?_
    dsimp only
    generalize s.toCycle (s.clk.cyc + 1) = s1 at *
    split
    · split
      · rename_i e _; exact cutoffWork_guardStaged _ h1 e
      · exact h1
    · split
      · exact guardWork_guardStaged _
      · exact h1
    · split
      · exact h1
      · split
        · exact tryRealign_guardStaged _ h1
        · exact edgeWork_guardStaged _ (tryRealign_guardStaged _ h1)
end Sys2Proof.Machine
end

