-- ==== Sys2Proof/Laws/Clusters.lean ====
section
/-! SUPPORT. Clusters and their runs: which operations leave every cluster as it is, what stopping or overrunning a run leaves, and what the pair comparison does.
The provers cite these lemmas in place of unfolding the operations. -/
namespace Sys2Proof.Machine
open Sys2Proof
theorem runGuard_staged (s : State) (h : s.GuardStaged) : s.runGuard.staged.isSome = true := by
  unfold State.runGuard
  extract_lets t
  split
  · exact guardWork_staged _
  · rename_i hn
    show s.runCutoff.staged.isSome = true
    rw [runCutoff_staged]
    have hn' : s.runCutoff.clk.stage ≠ .cut := hn
    rw [runCutoff_clk] at hn'
    split at hn'
    · exact absurd rfl hn'
    · rename_i he
      unfold State.GuardStaged at h
      rw [← h]
      cases hh : s.clk.stage
      · exact absurd hh he
      · exact absurd hh hn'
      · rfl
theorem runs_endCmd_clus {s : State} (d a b c e) : (s.endCmd d a b c e).clus = s.clus := (State.endCmd_only (Within.refl _) (OnlyChanges.refl s) d a b c e).use .clus rfl
theorem tidy_clus (s : State) : s.tidy.clus = s.clus := (State.tidy_only (Within.refl _) (OnlyChanges.refl s)).use .clus rfl
theorem raise_clus (s : State) (w i o b) : (s.raise w i o b).clus = s.clus := (State.raise_only (Within.refl _) (OnlyChanges.refl s) _ _ _ _).use .clus rfl
theorem releaseReads_clus (s : State) (l) : (s.releaseReads l).clus = s.clus := (State.releaseReads_only (Within.refl _) (OnlyChanges.refl s) l).use .clus rfl
theorem chargeRun_clus (s : State) (d k) : (s.chargeRun d k).clus = s.clus := (State.chargeRun_only (Within.refl _) (OnlyChanges.refl s) d k).use .clus rfl
theorem freeShadows_clus (s : State) (l) : (s.freeShadows l).clus = s.clus := (State.freeShadows_only (Within.refl _) (OnlyChanges.refl s) l).use .clus rfl
theorem leaveRun_clus (s : State) (n k lost) (r d) (h : s.running n = some (r, d)) : (s.leaveRun n k lost).clus = (s.setClu n { s.clu n with run := none, used := (s.clu n).used + k, freeAt := r.startNow + k }).clus := by
  unfold State.leaveRun
  simp only [h]
  rw [releaseReads_clus]
  show State.clus (if lost = true then _ else _) = _
  split
  · exact chargeRun_clus _ _ _
  · exact chargeRun_clus _ _ _
theorem clu_of_clus {s t : State} (h : s.clus = t.clus) (n) : s.clu n = t.clu n := by unfold State.clu; rw [h]
theorem stopRun_clus (s : State) (n k lost) (r d) (h : s.running n = some (r, d)) : (s.stopRun n k lost).clus = (s.setClu n { s.clu n with run := none, used := (s.clu n).used + k, freeAt := r.startNow + k }).clus := by
  unfold State.stopRun
  simp only [h]
  have hc := freeShadows_clus s r.shadows
  have hg : (s.freeShadows r.shadows).gfe = s.gfe := (State.freeShadows_only (Within.refl _) (OnlyChanges.refl s) _).use .gfe rfl
  have hr : (s.freeShadows r.shadows).running n = some (r, d) := by
    rw [← h]; unfold State.running State.clu State.cmd?; rw [hc, hg]
  rw [leaveRun_clus _ _ _ _ _ _ hr]
  show Sparse.put _ (s.freeShadows r.shadows).clus n _ = Sparse.put _ s.clus n _
  rw [hc, clu_of_clus hc]
theorem overrun_clus (s : State) (n) (r d) (h : s.running n = some (r, d)) (hp : d.paired = false) :
    (s.overrun n).clus = ((s.setClu n { s.clu n with overruns := satAdd 16 (s.clu n).overruns 1 }).stopRun n (s.elapsed r) true).clus := by
  unfold State.overrun
  simp only [h, hp, Bool.false_eq_true, false_and, if_false]
  rw [tidy_clus, raise_clus, runs_endCmd_clus]
  rfl
theorem overrun_clu (s : State) (hcn : s.Canon) (n) (r d) (h : s.running n = some (r, d)) (hp : d.paired = false) :
    ((s.overrun n).clu n).run = none ∧ ((s.overrun n).clu n).overruns = satAdd 16 (s.clu n).overruns 1 := by
  have h1 := overrun_clus s n r d h hp
  have hrun : (s.clu n).run = some r := by
    unfold State.running at h
    split at h
    · exact absurd h (by simp)
    · rename_i r' e
      split at h
      · injection h with h; injection h with h1 h2; rw [← h1]; exact e
      · exact absurd h (by simp)
  let s0 := s.setClu n { s.clu n with overruns := satAdd 16 (s.clu n).overruns 1 }
  have hc0 : s0.Canon := (State.setClu_keeps (Keeps.refl s) _ _).canon hcn
  have hself : s0.clu n = { s.clu n with overruns := satAdd 16 (s.clu n).overruns 1 } := State.clu_setClu_self hcn _ _
  have hr0 : s0.running n = some (r, d) := by
    rw [← h]; unfold State.running; rw [hself, hrun]; rfl
  have h2 := stopRun_clus s0 n (s.elapsed r) true r d hr0
  rw [clu_of_clus (h1.trans h2), State.clu_setClu_self hc0, hself]
  exact ⟨rfl, rfl⟩
theorem tickStage_clus (s : State) (g) : (s.tickStage g).clus = s.clus := rfl
/-- A run still in device work begins no commit phase. -/
theorem beginCommit_working (s : State) (n) (r d) (h : s.running n = some (r, d)) (hw : s.elapsed r < r.due) : s.beginCommit n = s := by
  unfold State.beginCommit
  rw [h]
  simp only
  split
  · rfl
  · simp [hw]
theorem cutoffWork_one (s : State) (n) (r d) (h : s.inWork (fun e => writesHost e.slot) = [n]) (hr : s.running n = some (r, d))
    (hw : s.elapsed r < r.due) : s.cutoffWork.clus = (s.overrun n).clus := by
  have hl : s.lastCommits = s := by
    unfold State.lastCommits
    rw [h, List.foldl_cons, List.foldl_nil]
    exact beginCommit_working s n r d hr hw
  unfold State.cutoffWork
  simp only [hl]
  rw [tickStage_clus, h, List.foldl_cons, List.foldl_nil]
theorem runCutoff_early (s : State) (h : s.clk.stage = .early) : s.runCutoff = (s.toCycle s.cutoff).cutoffWork := by
  unfold State.runCutoff; rw [if_pos h]
theorem endStep_clu (s : State) (n) : s.endStep.clu n = s.clu n := rfl
theorem enterTs_state (s : State) (st) : (s.enterTs st).ts.state = st ∧ (s.enterTs st).ts.samples = s.ts.samples ∧ (s.enterTs st).ts.source = s.ts.source := by
  unfold State.enterTs
  have h (s : State) (w i o b) : (s.raise w i o b).ts = s.ts := (State.raise_only (Within.refl _) (OnlyChanges.refl s) _ _ _ _).use .ts rfl
  cases st <;> simp [h]
theorem running_run {s : State} {n r d} (h : s.running n = some (r, d)) : (s.clu n).run = some r ∧ s.cmd? r.cmd = some d := by
  unfold State.running at h
  split at h
  · exact absurd h (by simp)
  · rename_i r' e
    split at h
    · rename_i d' e2
      injection h with h; injection h with h1 h2; subst h1; subst h2; exact ⟨e, e2⟩
    · exact absurd h (by simp)
theorem running_of {s : State} {n r d} (h1 : (s.clu n).run = some r) (h2 : s.cmd? r.cmd = some d) : s.running n = some (r, d) := by
  unfold State.running; rw [h1]; simp only; rw [h2]
theorem canon_gfe_host {s : State} (h : s.Canon) (gfe host) (hf : gfe.fences = s.gfe.fences) : State.Canon { s with gfe := gfe, host := host } :=
  ⟨h.mem, h.regs, h.chans, h.cqs, h.accts, h.clus, h.cnts, h.pslots, h.scales, h.frames, h.streams, hf ▸ h.fences, h.objs⟩
theorem captureSr_clus (s : State) (d n) : (s.captureSr d n).clus = s.clus := (State.captureSr_only (Within.refl _) (OnlyChanges.refl s) _ _).use .clus rfl
theorem takeSeqs_clus (s : State) (d) : (s.takeSeqs d).clus = s.clus := (State.takeSeqs_only (Within.refl _) (OnlyChanges.refl s) _).use .clus rfl
theorem stopRun_clu (s : State) (hc : s.Canon) (n k b) (r d) (h : s.running n = some (r, d)) :
    (s.stopRun n k b).clu n = { s.clu n with run := none, used := (s.clu n).used + k, freeAt := r.startNow + k } := by
  rw [clu_of_clus (stopRun_clus s n k b r d h), State.clu_setClu_self hc]
theorem stopWith_clus (s : State) (n st a b) (r d) (h : s.running n = some (r, d)) :
    (s.stopWith n st a b).clus = (s.stopRun n (s.elapsed r + 1) false).clus := by
  unfold State.stopWith
  rw [h]
  simp only
  split
  · split
    · rfl
    · rw [tidy_clus, runs_endCmd_clus]; rfl
  · rw [tidy_clus, runs_endCmd_clus]; rfl
theorem poisonIfBad_clus (s : State) (d a b) : (s.poisonIfBad d a b).clus = s.clus := (State.poisonIfBad_only (Within.refl _) (OnlyChanges.refl s) _ _ _).use .clus rfl
theorem poisonIfBad_gfe (s : State) (d a b) : (s.poisonIfBad d a b).gfe = s.gfe := (State.poisonIfBad_only (Within.refl _) (OnlyChanges.refl s) _ _ _).use .gfe rfl
theorem poisonIfBad_clk (s : State) (d a b) : (s.poisonIfBad d a b).clk = s.clk := (State.poisonIfBad_only (Within.refl _) (OnlyChanges.refl s) _ _ _).use .clk rfl
theorem running_congr {s t : State} (h1 : s.clus = t.clus) (h2 : s.gfe = t.gfe) (n) : s.running n = t.running n := by
  unfold State.running State.cmd?; rw [clu_of_clus h1, h2]
theorem trigger_clus (s : State) (n c) (r d) (h : s.running n = some (r, d)) :
    (s.trigger n c).clus = (s.stopRun n (s.elapsed r + 1) false).clus := by
  unfold State.trigger
  rw [h]
  simp only
  split
  · split <;> rfl
  · rfl
theorem pslot_of {s t : State} (h : s.pslots = t.pslots) (n) : s.pslot n = t.pslot n := by unfold State.pslot; rw [h]
theorem canon_integ_icnt {s : State} (h : s.Canon) (integ icnt) : State.Canon { s with integ := integ, icnt := icnt } :=
  ⟨h.mem, h.regs, h.chans, h.cqs, h.accts, h.clus, h.cnts, h.pslots, h.scales, h.frames, h.streams, h.fences, h.objs⟩
theorem moveDown_pslots (s : State) (n) : (s.moveDown n).pslots = s.pslots := (State.moveDown_only (Within.refl _) (OnlyChanges.refl _) n).use .pslots rfl
theorem leaveServing_pslots (s : State) (n) : (s.leaveServing n).pslots = s.pslots := (State.leaveServing_only (Within.refl _) (OnlyChanges.refl _) n).use .pslots rfl
theorem logRaise_pslots (s : State) (a b c d e f g h w i o r) : ((s.faultLog a b c d e f g h).raise w i o r).pslots = s.pslots :=
  (State.raise_only (within_of_all rfl) (State.faultLog_only (ps := [.reg, .host, .integ, .out]) (Within.refl _) (OnlyChanges.refl _) _ _ _ _ _ _ _ _) _ _ _ _).use .pslots rfl
theorem enterResidency_pslot (s : State) (hc : s.Canon) (t : Test) (p) :
    ((s.enterResidency t).pslot p).faults = (s.pslot p).faults ∧ ((s.pslot p).state = .suspect → ((s.enterResidency t).pslot p).state = .suspect) := by
  unfold State.enterResidency
  extract_lets +onlyGivenNames x1
  extract_lets +onlyGivenNames r1
  have hr1 : r1.pslot p = s.pslot p := rfl
  have hcr : r1.Canon := canon_integ_icnt hc _ _
  clear_value r1
  split
  · rw [hr1]; exact ⟨rfl, id⟩
  · rename_i p' hp'
    rw [← hr1]
    split
    · rename_i hsv
      rw [pslot_of (moveDown_pslots _ _), pslot_of (leaveServing_pslots _ _)]
      unfold State.setSlotState
      rw [State.pslot_setPslot hcr]
      by_cases e : p = p'
      · subst e
        rw [if_pos rfl]
        exact ⟨rfl, fun h => by rw [h] at hsv; exact absurd hsv (by decide)⟩
      · rw [if_neg e]; exact ⟨rfl, id⟩
    · rw [pslot_of (moveDown_pslots _ _)]; exact ⟨rfl, id⟩
theorem makeSuspect_pslot (s : State) (hc : s.Canon) (p) : ((s.makeSuspect p).pslot p).faults = (s.pslot p).faults ∧
    ((s.pslot p).state = .serving → ((s.makeSuspect p).pslot p).state = .suspect) := by
  unfold State.makeSuspect
  split
  · rename_i h; exact ⟨rfl, fun e => absurd e h⟩
  extract_lets +onlyGivenNames n
  extract_lets +onlyGivenNames s1
  have hs1 : s1.pslot p = { s.pslot p with state := .suspect } := by
    rw [pslot_of (leaveServing_pslots _ _)]
    exact State.pslot_setPslot_self hc _ _
  have hc1 : s1.Canon := (State.leaveServing_keeps (State.setPslot_keeps (Keeps.refl s) _ _) n).canon hc
  clear_value s1
  extract_lets +onlyGivenNames i0
  extract_lets +onlyGivenNames s2
  have hs2 : s2.pslot p = s1.pslot p := rfl
  have hc2 : s2.Canon := canon_integ_icnt hc1 _ _
  clear_value s2
  extract_lets +onlyGivenNames s3
  have hs3 : s3.pslot p = s2.pslot p := pslot_of (logRaise_pslots _ _ _ _ _ _ _ _ _ _ _ _ _) p
  have hc3 : s3.Canon := (State.raise_keeps (State.faultLog_keeps (Keeps.refl s2) _ _ _ _ _ _ _ _) _ _ _ _).canon hc2
  clear_value s3
  extract_lets +onlyGivenNames t
  have e3 : s3.pslot p = { s.pslot p with state := .suspect } := hs3.trans (hs2.trans hs1)
  split
  · have h := enterResidency_pslot s3 hc3 t p
    rw [e3] at h
    exact ⟨h.1, fun _ => h.2 rfl⟩
  · rw [pslot_of (s := State.queueTest s3 t) (t := s3) rfl, e3]
    exact ⟨rfl, fun _ => rfl⟩
theorem makeSuspect_state (s : State) (hc : s.Canon) (p) (h : (s.pslot p).state = .serving) : ((s.makeSuspect p).pslot p).state = .suspect := (makeSuspect_pslot s hc p).2 h
theorem makeSuspect_faults (s : State) (hc : s.Canon) (p) : ((s.makeSuspect p).pslot p).faults = (s.pslot p).faults := (makeSuspect_pslot s hc p).1
theorem mismatch_pslots (s : State) (d m) : (s.mismatch d m).pslots = s.pslots := (State.mismatch_only (Within.refl _) (OnlyChanges.refl _) d m).use .pslots rfl
theorem addFault_faults (s : State) (hc : s.Canon) (p) : ((s.addFault p).pslot p).faults = (s.pslot p).faults ++ [s.clk.now] := by
  unfold State.addFault
  extract_lets +onlyGivenNames p0
  extract_lets +onlyGivenNames s1
  have hs1 : (s1.pslot p).faults = (s.pslot p).faults ++ [s.clk.now] := by
    show ((s.setPslot p _).pslot p).faults = _
    rw [State.pslot_setPslot_self hc]
  split
  · rw [makeSuspect_faults s1 ((State.setPslot_keeps (Keeps.refl s) _ _).canon hc)]; exact hs1
  · exact hs1
theorem endStep_pslot (s : State) (n) : s.endStep.pslot n = s.pslot n := rfl
theorem comparePair_first (s : State) (d m a) (h2 : m.run2 = some a) (h2t : a.trigger = true) (h3 : ∀ b, m.run3 = some b → b.trigger = false) :
    s.comparePair d m = (s.mismatch d m).makeSuspect m.slot := by
  unfold State.comparePair
  cases h : m.run3 with
  | none =>
    simp only [h2, h2t, Bool.not_true, Bool.false_and, Bool.false_eq_true, if_false, Bool.and_false]
  | some b =>
    simp only [h2, h2t, h3 b h, Bool.not_true, Bool.false_and, Bool.false_eq_true, if_false, Bool.and_false]
theorem comparePair_agree (s : State) (d m a b w) (h2 : m.run2 = some a) (h3 : m.run3 = some b) (h2t : a.trigger = false) (h3t : b.trigger = false)
    (hag : s.agree d a b = true) (hw : b.work = some w) : s.comparePair d m = s.transient d m b (some a) := by
  unfold State.comparePair
  simp only [h2, h3, h2t, h3t, hag, hw]
  simp
end Sys2Proof.Machine
end

