-- ==== Sys2Proof/Laws/Commit.lean ====
section
/-! SUPPORT. The commit of a run: what the flips of its shadows leave of every other object and tile, and which parts the commit's work touches.
The provers cite these lemmas in place of unfolding the operations. -/
namespace Sys2Proof.Machine
open Sys2Proof
theorem Sparse.find?_erase_other {α : Type} {k j : Nat} (hj : j ≠ k) : ∀ {m : List (Nat × α)}, Sparse.find? (Sparse.erase m k) j = Sparse.find? m j
  | [] => rfl
  | (x, w) :: t => by
    unfold Sparse.erase
    split
    · rename_i e; subst e; simp [Sparse.find?, Ne.symm hj]
    · simp only [Sparse.find?]; rw [Sparse.find?_erase_other hj]
def ObjectsKept (s t : State) : Prop := ∀ h o, s.obj? h = some o → o.freed = false → ∃ o', t.obj? h = some o' ∧ o'.freed = false ∧ o'.map = o.map
theorem ObjectsKept.refl (s) : ObjectsKept s s := fun h o h1 h2 => ⟨o, h1, h2, rfl⟩
theorem ObjectsKept.trans {s t u} (a : ObjectsKept s t) (b : ObjectsKept t u) : ObjectsKept s u := fun h o h1 h2 => by
  obtain ⟨o1, a1, a2, a3⟩ := a h o h1 h2
  obtain ⟨o2, b1, b2, b3⟩ := b h o1 a1 a2
  exact ⟨o2, b1, b2, b3.trans a3⟩
theorem ObjectsKept.of {s t : State} (h : t.objs = s.objs) : ObjectsKept s t := fun j o h1 h2 => ⟨o, by unfold State.obj? at *; rw [h]; exact h1, h2, rfl⟩
theorem ObjectsKept.objs {q s t : State} (k : ObjectsKept q s) (h : t.objs = s.objs) : ObjectsKept q t := k.trans (ObjectsKept.of h)
def ObjAlive (s : State) (h : Nat) : Prop := ∃ o, s.obj? h = some o ∧ o.freed = false
theorem ObjectsKept.alive {s t} (k : ObjectsKept s t) {h} (a : ObjAlive s h) : ObjAlive t h := by
  obtain ⟨o, a1, a2⟩ := a; obtain ⟨o', b1, b2, _⟩ := k h o a1 a2; exact ⟨o', b1, b2⟩
theorem ObjectsKept.home {s t} (k : ObjectsKept s t) {h tile} (a : ObjAlive s h) : t.homeOf h tile = s.homeOf h tile := by
  obtain ⟨o, a1, a2⟩ := a; obtain ⟨o', b1, b2, b3⟩ := k h o a1 a2
  unfold State.homeOf; rw [a1, b1]; simp only [b3]
theorem ObjectsKept.setTable {s : State} {h o tb} (ho : s.obj? h = some o) : ObjectsKept s (s.setObj h { o with table := tb }) := by
  intro j oj h1 h2
  by_cases e : j = h
  · subst e; rw [ho] at h1; injection h1 with h1; subst h1
    exact ⟨_, State.obj?_setObj_self _ _ _, h2, rfl⟩
  · exact ⟨oj, by rw [State.obj?_setObj_other s e]; exact h1, h2, rfl⟩
theorem tableOf_obj {s : State} {h o t y} (e : s.tableOf h = some (o, t, y)) : s.obj? h = some o := by
  unfold State.tableOf at e
  revert e
  cases hh : s.obj? h with
  | none => simp
  | some o' =>
    simp only
    cases ht : o'.table with
    | none => simp
    | some p => obtain ⟨a, b⟩ := p; simp only [Option.some.injEq, Prod.mk.injEq]; intro e; rw [e.1]
theorem enterRows_kept (s : State) (h c rows) : ObjectsKept s (s.enterRows h c rows) := by
  unfold State.enterRows
  split
  · exact ObjectsKept.refl s
  · rename_i e
    exact ObjectsKept.setTable (tableOf_obj e)
theorem leaveRows_kept (s : State) (h rows) : ObjectsKept s (s.leaveRows h rows) := by
  unfold State.leaveRows
  split
  · exact ObjectsKept.refl s
  · rename_i e
    exact ObjectsKept.setTable (tableOf_obj e)
theorem foldl_kept {α : Type} {f : State → α → State} (hf : ∀ t x, ObjectsKept t (f t x)) : ∀ (l : List α) (s : State), ObjectsKept s (l.foldl f s)
  | [], s => ObjectsKept.refl s
  | x :: l, s => (hf s x).trans (foldl_kept hf l (f s x))
theorem freeFrame_objs (s : State) (f) : (s.freeFrame f).objs = s.objs := (State.freeFrame_only (Within.refl _) (OnlyChanges.refl _) f).use .objs rfl
theorem reap_kept (s : State) (h) : ObjectsKept s (s.reap h) := by
  unfold State.reap
  split
  · exact ObjectsKept.refl s
  · rename_i o ho
    split
    · rename_i hf
      extract_lets s1 s2
      have h1 : s1.objs = s.objs := foldl_invariant (P := fun t => t.objs = s.objs) (fun t _ h => (abandonMove_objs t _ _ _).trans h) _ s rfl
      have h2 : s2.objs = s.objs := foldl_invariant (P := fun t => t.objs = s.objs)
        (fun t _ h => ((State.dropWant_only (Within.refl _) (OnlyChanges.refl t) _ _).use .objs rfl).trans h) _ s1 h1
      have h3 : (o.map.foldl (fun t m => t.freeFrame m.2) s2).objs = s.objs :=
        foldl_invariant (P := fun t => t.objs = s.objs) (fun t _ h => (freeFrame_objs t _).trans h) _ s2 h2
      intro j oj hj1 hj2
      have hne : j ≠ h := by
        intro e; subst e; rw [ho] at hj1; injection hj1 with hj1; subst hj1
        simp [hj2] at hf
      refine ⟨oj, ?_, hj2, rfl⟩
      show Sparse.find? (Sparse.erase (o.map.foldl (fun t m => t.freeFrame m.2) s2).objs h) j = _
      rw [Sparse.find?_erase_other hne, h3]; exact hj1
    · exact ObjectsKept.refl s
theorem reapAll_kept (s : State) : ObjectsKept s s.reapAll := foldl_kept (fun t _ => reap_kept t _) _ s
theorem tryWants_objs (s : State) : s.tryWants.objs = s.objs := (State.tryWants_only (Within.refl _) (OnlyChanges.refl _)).use .objs rfl
theorem tidy_kept (s : State) : ObjectsKept s s.tidy := (reapAll_kept s).objs ((settleMoves_objs _).trans (tryWants_objs _))
theorem dropCmd_objs (s : State) (i) : (s.dropCmd i).objs = s.objs := rfl
theorem endFold_kept (s : State) (d) : ObjectsKept s (s.endFold d) := by
  unfold State.endFold
  extract_lets s1
  have k1 : ObjectsKept s s1 := ObjectsKept.of rfl
  split
  · rename_i o ho
    split
    · exact k1.trans (ObjectsKept.setTable ho)
    · exact k1
  · exact k1
theorem endCmd_kept (s : State) (d st a b i) : ObjectsKept s (s.endCmd d st a b i) := by
  by_cases h : slotOp d.slot = foldOp
  · unfold State.endCmd; rw [if_pos h]; exact endFold_kept s d
  · exact ObjectsKept.of (endCmd_objs s d st a b i h)
theorem settleAcks_kept (s : State) (id) : ObjectsKept s (s.settleAcks id) := by
  unfold State.settleAcks
  split
  · exact ObjectsKept.refl s
  · split
    · split
      · exact ObjectsKept.refl s
      · exact (endCmd_kept _ _ _ _ _ _).trans (tidy_kept _)
    · exact ObjectsKept.refl s
theorem sendRemote_objs (s : State) (d x) : (s.sendRemote d x).objs = s.objs := (State.sendRemote_only (Within.refl _) (OnlyChanges.refl _) d x).use .objs rfl
theorem settleMem_id (s : State) (h : s.host.memWait = []) : s.settleMem = s := by
  unfold State.settleMem; rw [h]; rfl
theorem setCmd_kept (s : State) (c) : ObjectsKept s (s.setCmd c) := ObjectsKept.of rfl
theorem setCmd_mw (s : State) (c) : (s.setCmd c).host.memWait = s.host.memWait := rfl
theorem afterFlip_kept (s : State) (hm : s.host.memWait = []) (d w st) : ObjectsKept s (s.afterFlip d w st) := by
  unfold State.afterFlip
  extract_lets +onlyGivenNames s1
  have k1 : ObjectsKept s s1 := ObjectsKept.of (foldl_invariant (P := fun t => t.objs = s.objs) (fun t _ h => (sendRemote_objs t d _).trans h) _ s rfl)
  have m1 : OnlyChanges [.accts, .fab, .out] s s1 := State.egress_only (within_of_all rfl)
    (OnlyChanges.foldl (OnlyChanges.refl s) (fun t x h => State.sendRemote_only (within_of_all rfl) h d x))
  have hm1 : s1.host.memWait = [] := (m1.use .memWait rfl).trans hm
  clear_value s1
  have tm : ∀ t : State, t.tidy.host.memWait = t.host.memWait := fun t => (State.tidy_only (Within.refl _) (OnlyChanges.refl t)).use .memWait rfl
  split
  · rw [settleMem_id]
    · exact (k1.trans (setCmd_kept s1 _)).trans ((settleAcks_kept _ _).trans (tidy_kept _))
    · rw [tm]
      exact ((State.settleAcks_only (Within.refl _) (OnlyChanges.refl (s1.setCmd _)) _).use .memWait rfl).trans ((setCmd_mw s1 _).trans hm1)
  · split
    · rw [settleMem_id]
      · exact (k1.trans (setCmd_kept s1 _)).trans (tidy_kept _)
      · rw [tm, setCmd_mw]; exact hm1
    · rw [settleMem_id]
      · exact k1.trans ((endCmd_kept _ _ _ _ _ _).trans (tidy_kept _))
      · rw [tm]; exact ((State.endCmd_only (Within.refl _) (OnlyChanges.refl s1) _ _ _ _ _).use .memWait rfl).trans hm1
theorem setHome_other (s : State) {h tile h' tile'} (f) (hne : (h', tile') ≠ (h, tile)) : (s.setHome h tile f).homeOf h' tile' = s.homeOf h' tile' := by
  unfold State.setHome
  split
  · rename_i o ho
    unfold State.homeOf
    by_cases e : h' = h
    · subst e
      rw [State.obj?_setObj_self, ho]
      exact Sparse.find?_insert_other (fun e => hne (by rw [e]))
    · rw [State.obj?_setObj_other s e]
  · rfl
theorem setHome_alive (s : State) (h tile f) {j} (a : ObjAlive s j) : ObjAlive (s.setHome h tile f) j := by
  unfold State.setHome
  split
  · rename_i o ho
    by_cases e : j = h
    · subst e; obtain ⟨o', a1, a2⟩ := a; rw [ho] at a1; injection a1 with a1; subst a1
      exact ⟨_, State.obj?_setObj_self _ _ _, a2⟩
    · obtain ⟨o', a1, a2⟩ := a
      exact ⟨o', by rw [State.obj?_setObj_other s e]; exact a1, a2⟩
  · exact a
theorem flipTile_objs (s : State) (h : Shadow) : (s.flipTile h).objs = (s.setHome h.obj h.tile h.fid).objs := by
  unfold State.flipTile
  extract_lets +onlyGivenNames s1
  extract_lets +onlyGivenNames old
  extract_lets +onlyGivenNames s2
  have h1 : s1.objs = s.objs := by
    unfold s1; split
    · exact abandonMove_objs _ _ _ _
    · rfl
  have h2 : s2.objs = (s.setHome h.obj h.tile h.fid).objs := by
    show (State.setHome (s1.setFrame _ _) _ _ _).objs = _
    have hx : ∀ a b : State, a.objs = b.objs → (a.setHome h.obj h.tile h.fid).objs = (b.setHome h.obj h.tile h.fid).objs := by
      intro a b e
      unfold State.setHome State.obj?
      rw [e]
      split
      · show Sparse.insert a.objs _ _ = Sparse.insert b.objs _ _
        rw [e]
      · exact e
    exact hx _ _ h1
  cases old with
  | none => exact h2
  | some f =>
    show State.objs (if _ then _ else _) = _
    split
    · exact h2
    · rw [leaveHome_objs]; exact h2
theorem flipTile_other (s : State) (h : Shadow) {j tile} (hne : (j, tile) ≠ (h.obj, h.tile)) : (s.flipTile h).homeOf j tile = s.homeOf j tile :=
  (homeOf_objs (flipTile_objs s h) _ _).trans (setHome_other s _ hne)
theorem flipTile_alive (s : State) (h : Shadow) {j} (a : ObjAlive s j) : ObjAlive (s.flipTile h) j := by
  obtain ⟨o, a1, a2⟩ := setHome_alive s h.obj h.tile h.fid a
  exact ⟨o, by unfold State.obj? at *; rw [flipTile_objs]; exact a1, a2⟩
theorem flipAll_alive : ∀ (l : List Shadow) (s : State) {j}, ObjAlive s j → ObjAlive (s.flipAll l) j
  | [], _, _, a => a
  | h :: l, s, _, a => flipAll_alive l (s.flipTile h) (flipTile_alive s h a)
theorem flipAll_keep : ∀ (l : List Shadow) (s : State) (j tile), (∀ h ∈ l, (j, tile) ≠ (h.obj, h.tile)) → (s.flipAll l).homeOf j tile = s.homeOf j tile
  | [], _, _, _, _ => rfl
  | h :: l, s, j, tile, hn => by
    show (State.flipAll (s.flipTile h) l).homeOf j tile = _
    rw [flipAll_keep l _ j tile (fun x hx => hn x (List.mem_cons_of_mem _ hx))]
    exact flipTile_other s h (hn h List.mem_cons_self)
theorem flipAll_homes : ∀ (l : List Shadow) (s : State), (l.map (fun h => (h.obj, h.tile))).Nodup → (∀ h ∈ l, ObjAlive s h.obj) →
    ∀ h ∈ l, (s.flipAll l).homeOf h.obj h.tile = some h.fid
  | [], _, _, _, h, hh => absurd hh (by simp)
  | x :: l, s, hd, ha, h, hh => by
    have hd' := List.nodup_cons.mp (show List.Nodup ((x.obj, x.tile) :: l.map (fun h => (h.obj, h.tile))) from hd)
    show (State.flipAll (s.flipTile x) l).homeOf h.obj h.tile = _
    rcases List.mem_cons.mp hh with e | e
    · subst e
      rw [flipAll_keep l _ _ _ (fun y hy he => hd'.1 (List.mem_map.mpr ⟨y, hy, he.symm⟩))]
      obtain ⟨o, ho, _⟩ := ha h List.mem_cons_self
      exact flipTile_home s h ho
    · exact flipAll_homes l _ hd'.2 (fun y hy => flipTile_alive s x (ha y (List.mem_cons_of_mem _ hy))) h e
theorem setPreds_objs (s : State) (d p) : (s.setPreds d p).objs = s.objs := (State.setPreds_only (Within.refl _) (OnlyChanges.refl s) d p).use .objs rfl
theorem commitWork_kept (s : State) (d w) : ObjectsKept (s.flipAll w.shadows) (s.commitWork d w).1 := by
  unfold State.commitWork
  extract_lets +onlyGivenNames s1
  have k1 : ObjectsKept (s.flipAll w.shadows) s1 := ObjectsKept.of (setPreds_objs _ _ _)
  clear_value s1
  extract_lets +onlyGivenNames s2
  have k2 : ObjectsKept (s.flipAll w.shadows) s2 := k1.trans (foldl_kept (fun t x => ObjectsKept.of ((State.mergeAmax_only (Within.refl _) (OnlyChanges.refl t) _ _).use .objs rfl)) _ _)
  clear_value s2
  extract_lets +onlyGivenNames hh
  extract_lets +onlyGivenNames s3
  have k3 : ObjectsKept (s.flipAll w.shadows) s3 := by
    unfold s3; split
    · exact k2.trans (enterRows_kept _ _ _ _)
    · split
      · exact k2.trans (leaveRows_kept _ _ _)
      · exact k2
  clear_value s3
  split
  · exact k3.trans (ObjectsKept.of ((State.streamFlip_only (Within.refl _) (OnlyChanges.refl s3) d).use .objs rfl))
  · exact k3
theorem flipReady_running {s : State} {n r d w} (h : s.flipReady n = some (r, d, w)) : s.running n = some (r, d) := by
  unfold State.flipReady at h
  split at h
  · exact absurd h (by simp)
  · rename_i r' d' e
    split at h
    · exact absurd h (by simp)
    · split at h
      · injection h with h; injection h with h1 h2; injection h2 with h2 h3; subst h1; subst h2; exact e
      · exact absurd h (by simp)
theorem flip_unpaired (s : State) (n r d w) (h : s.flipReady n = some (r, d, w)) (hp : d.paired = false) :
    s.flip n = ((((s.commitWork d w).1.leaveRun n (s.elapsed r + 1) false).noteClu d.id n).afterFlip d w (s.commitWork d w).2) := by
  unfold State.flip
  rw [h]
  simp only [hp]
  split
  · rename_i e; simp at e
  · rfl
theorem commitWork_parts (s : State) (d w) : OnlyChanges [.reg, .gfe, .scales, .frames, .objs, .place, .streams, .xfers, .host, .integ, .icnt, .out] s (s.commitWork d w).1 :=
  State.commitWork_only (Within.refl _) (OnlyChanges.refl s) d w
theorem afterFlip_clus (s : State) (d w st) : (s.afterFlip d w st).clus = s.clus := (State.afterFlip_only (Within.refl _) (OnlyChanges.refl s) _ _ _).use .clus rfl
theorem setPreds_cmds (s : State) (d p) : (s.setPreds d p).gfe.cmds = s.gfe.cmds := by
  unfold State.setPreds
  split
  · rfl
  · split <;> rfl
theorem commitWork_cmds (s : State) (d w) : (s.commitWork d w).1.gfe.cmds = s.gfe.cmds := by
  unfold State.commitWork
  extract_lets +onlyGivenNames s1
  have k1 : s1.gfe.cmds = s.gfe.cmds := (setPreds_cmds _ _ _).trans (congrArg Gfe.cmds ((State.flipAll_only (Within.refl _) (OnlyChanges.refl s) _).use .gfe rfl))
  clear_value s1
  extract_lets +onlyGivenNames s2
  have k2 : s2.gfe.cmds = s.gfe.cmds := by
    have : OnlyChanges [.scales] s1 s2 := OnlyChanges.foldl (OnlyChanges.refl s1) (fun t x h => State.mergeAmax_only (within_of_all rfl) h _ _)
    exact (congrArg Gfe.cmds (this.use .gfe rfl)).trans k1
  clear_value s2
  extract_lets +onlyGivenNames hh
  extract_lets +onlyGivenNames s3
  have k3 : s3.gfe.cmds = s.gfe.cmds := by
    have : OnlyChanges [.objs] s2 s3 := by
      unfold s3; split
      · exact State.enterRows_only (within_of_all rfl) (OnlyChanges.refl _) _ _ _
      · split
        · exact State.leaveRows_only (within_of_all rfl) (OnlyChanges.refl _) _ _
        · exact OnlyChanges.refl _
    exact (congrArg Gfe.cmds (this.use .gfe rfl)).trans k2
  clear_value s3
  split
  · exact (congrArg Gfe.cmds ((State.streamFlip_only (Within.refl _) (OnlyChanges.refl s3) d).use .gfe rfl)).trans k3
  · exact k3
end Sys2Proof.Machine
end

