-- ==== Sys2Proof/Laws/RunParts.lean ====
section
/-! SUPPORT. What the steps inside a run leave: counters, triggers, reads and writes of tiles, charges, the lines a run waits for.
The provers cite these lemmas in place of unfolding the operations. -/
namespace Sys2Proof.Machine
open Sys2Proof
theorem cnt_of {s t : State} (h : s.cnts = t.cnts) (n) : s.cnt n = t.cnt n := by unfold State.cnt; rw [h]
theorem raise_cnts (s : State) (w i o b) : (s.raise w i o b).cnts = s.cnts := (State.raise_only (Within.refl _) (OnlyChanges.refl s) _ _ _ _).use .cnts rfl
theorem raise_gfe (s : State) (w i o b) : (s.raise w i o b).gfe = s.gfe := (State.raise_only (Within.refl _) (OnlyChanges.refl s) _ _ _ _).use .gfe rfl
theorem trigger_cnts (s : State) (n c) : (s.trigger n c).cnts = s.cnts := (State.trigger_only (Within.refl _) (OnlyChanges.refl s) _ _).use .cnts rfl
theorem endStep_cnt (s : State) (n) : s.endStep.cnt n = s.cnt n := rfl
theorem trigger_run {s : State} (hc : s.Canon) {n r d} (c) (h : s.running n = some (r, d)) : ((s.trigger n c).clu n).run = none := by
  rw [clu_of_clus (trigger_clus s n c r d h), stopRun_clu s hc n _ _ r d h]
theorem setRun_run {s : State} (hc : s.Canon) (n r) : ((s.setRun n r).clu n).run = some r := by
  unfold State.setRun; rw [State.clu_setClu_self hc]
theorem compare_go (s : State) (n k r d c rest) (ho : s.on = true) (hr : s.running n = some (r, d)) (hch : r.checks = c :: rest) (hk : c.kind = k)
    (hi : s.injected n c = none) (h1 : c.due ≤ s.elapsed r) (h2 : s.clk.cyc < s.G) :
    let arr : Bool := k == .array
    let status := if arr then 0x104 else 0x144
    let cfg := if arr then 0x100 else 0x140
    let v : List Nat × Nat := c.verdict (s.product d.slot).kb (s.fld .clu n cfg 3 0) (s.fld .clu n cfg 4 4 == 1)
    let last := v.1.getLast?.map (fun i => (if arr then i else c.row0) + (c.index % 65536) * 65536)
    let s2 := s.setCnt n ((s.cnt n).count k v.1.length v.2 last)
    let s3 := if v.2 = 0 then s2 else s2.raise .clu n status 2
    let r1 := { r with checks := rest, passed := r.passed ++ [c], skipped := r.skipped + v.2 }
    s.compare n k none = if !v.1.isEmpty then (s3.raise .clu n status 1).trigger n 1 else if rest.isEmpty then (s3.setRun n r1).drain n r1 d else s3.setRun n r1 := by
  intro arr status cfg v last s2 s3 r1
  unfold State.compare
  rw [hr]
  simp only [hch]
  rw [if_neg (by simp [ho, hk, h1, Nat.not_le.mpr h2]), hi]
theorem listGet_listSet (d : Nat) : ∀ (l : List Nat) (i j v), listGet d (listSet l i v) j = if j = i ∧ i < l.length then v else listGet d l j
  | [], i, j, v => by simp [listSet]
  | a :: t, 0, 0, v => by simp [listSet, listGet]
  | a :: t, 0, j + 1, v => by simp [listSet, listGet]
  | a :: t, i + 1, 0, v => by simp [listSet, listGet]
  | a :: t, i + 1, j + 1, v => by simp [listSet, listGet, listGet_listSet d t i j v]
theorem xor_pow_ne (a k : Nat) : a ≠ a ^^^ 2 ^ k := by
  intro h
  have h2 : a ^^^ a = a ^^^ (a ^^^ 2 ^ k) := congrArg (a ^^^ ·) h
  rw [Nat.xor_self, ← Nat.xor_assoc, Nat.xor_self, Nat.zero_xor] at h2
  exact absurd h2.symm (Nat.ne_of_gt (Nat.two_pow_pos k))
theorem fresh_running {s : State} {n op r d} (h : s.fresh n op = some (r, d)) : s.running n = some (r, d) := by
  unfold State.fresh at h
  split at h
  · split at h
    · rename_i e _; injection h with h; rw [e, h]
    · exact absurd h (by simp)
  · exact absurd h (by simp)
theorem fresh_parts {s : State} {n op r d} (h : s.fresh n op = some (r, d)) : s.on = true ∧ slotOp d.slot = op := by
  unfold State.fresh at h
  split at h
  · split at h
    · rename_i hh; injection h with h; injection h with h1 h2; subst h1; subst h2
      simp only [Bool.and_eq_true, beq_iff_eq] at hh
      exact hh.1
    · exact absurd h (by simp)
  · exact absurd h (by simp)
theorem readTiles_clus (s : State) (d n l) : (s.readTiles d n l).clus = s.clus := (State.readTiles_only (Within.refl _) (OnlyChanges.refl s) _ _ _).use .clus rfl
theorem readTiles_host (s : State) (d n l) : (s.readTiles d n l).host = s.host := (State.readTiles_only (Within.refl _) (OnlyChanges.refl s) _ _ _).use .host rfl
theorem readTiles_keeps (s : State) (d n l) : Keeps s (s.readTiles d n l) := State.readTiles_keeps (Keeps.refl s) _ _ _
theorem stopFound_run {s : State} (hc : s.Canon) {n r d} (hr : s.running n = some (r, d)) (x) : ((s.stopFound n d x).clu n).run = none := by
  unfold State.stopFound
  have hs1 : (if x.1 = stPoisoned then s.poisonIfBad d x.2.1 x.2.2 else s).clus = s.clus ∧ (if x.1 = stPoisoned then s.poisonIfBad d x.2.1 x.2.2 else s).gfe = s.gfe ∧ (if x.1 = stPoisoned then s.poisonIfBad d x.2.1 x.2.2 else s).Canon := by
    split
    · exact ⟨poisonIfBad_clus _ _ _ _, poisonIfBad_gfe _ _ _ _, (State.poisonIfBad_keeps (Keeps.refl s) _ _ _).canon hc⟩
    · exact ⟨rfl, rfl, hc⟩
  generalize (if x.1 = stPoisoned then s.poisonIfBad d x.2.1 x.2.2 else s) = s1 at hs1 ⊢
  have hr1 : s1.running n = some (r, d) := (running_congr hs1.1 hs1.2.1 n).trans hr
  rw [clu_of_clus (stopWith_clus s1 n _ _ _ r d hr1), stopRun_clu s1 hs1.2.2 n _ _ r d hr1]
theorem stopWith_run {s : State} (hc : s.Canon) {n r d} (hr : s.running n = some (r, d)) (a b c) : ((s.stopWith n a b c).clu n).run = none := by
  rw [clu_of_clus (stopWith_clus s n _ _ _ r d hr), stopRun_clu s hc n _ _ r d hr]
theorem prepare_run {s : State} (hc : s.Canon) (n r reads cs w due) : ((s.prepare n r reads cs w due).clu n).run = some { r with prepared := true, reads := reads, checks := cs, work := w, due := due } := by
  unfold State.prepare; exact setRun_run hc _ _
theorem prepare_keeps (s : State) (n r reads cs w due) : Keeps s (s.prepare n r reads cs w due) := State.prepare_keeps (Keeps.refl s) _ _ _ _ _ _
theorem placeOut_clus {s : State} {d n outs hs u} (h : s.placeOut d n outs = some (hs, u)) : u.clus = s.clus ∧ Keeps s u :=
  ⟨((State.placeOut_only (Within.refl _) (OnlyChanges.refl s) d n outs).use h).use .clus rfl, (State.placeOut_keeps (Keeps.refl s) d n outs).use h⟩
theorem finishWork_ok {s : State} (hc : s.Canon) {n d outs w hs u r} (h : (s.dropResv d.id n).placeOut d n outs = some (hs, u)) (hr : (s.clu n).run = some r) :
    s.finishWork n d outs w = u.setRun n { r with work := some { w with shadows := hs } } ∧ u.Canon ∧ u.clus = s.clus := by
  obtain ⟨h1, h2⟩ := placeOut_clus h
  have hcu : u.Canon := h2.canon ⟨hc.mem, hc.regs, hc.chans, hc.cqs, hc.accts, hc.clus, hc.cnts, hc.pslots, hc.scales, hc.frames, hc.streams, hc.fences, hc.objs⟩
  refine ⟨?_, hcu, h1⟩
  unfold State.finishWork
  rw [h]
  simp only [clu_of_clus h1]
  rw [show (s.dropResv d.id n).clu n = s.clu n from rfl, hr]
theorem countRows_keeps (s : State) (n k) : Keeps s (s.countRows n k) := State.countRows_keeps (Keeps.refl s) _ _
theorem tblInject_none {s : State} {n} (h : s.fld .clu n 0x1D0 31 31 = 0) (p) : s.tblInject n p = (false, s) := by
  unfold State.tblInject; simp [h]
theorem find?_none_of {α : Type} {l : List α} {p : α → Bool} (h : ∀ x ∈ l, p x = false) : l.find? p = none := by
  rw [List.find?_eq_none]; intro x hx; simp [h x hx]
theorem pumpLines_keep (s : State) (n) : (s.pumpLines n).host.lines = s.host.lines ∧ (s.pumpLines n).clus = s.clus := by
  refine ⟨?_, (State.pumpLines_only (Within.refl _) (OnlyChanges.refl s) n).use .clus rfl⟩
  unfold State.pumpLines
  split
  · rfl
  · split
    · rfl
    · extract_lets todo
      refine foldl_invariant (P := fun t => t.host.lines = s.host.lines) ?_ _ s rfl
      intro t x h; exact h
theorem finishRead_run {s : State} (hc : s.Canon) {n r d} (hr : s.running n = some (r, d)) :
    ((s.finishRead n d).clu n).run = none ∨ ∃ w, ((s.finishRead n d).clu n).run = some { r with work := some w } ∧ w.status = stOk := by
  unfold State.finishRead
  extract_lets b bytes h outs
  rw [show ∀ t : State, (t.dropHost n d.id).clu n = t.clu n from fun _ => rfl]
  cases hp : (s.dropResv d.id n).placeOut d n outs with
  | none =>
    left
    unfold State.finishWork
    rw [hp]
    exact stopWith_run hc hr _ _ _
  | some x =>
    obtain ⟨hs, u⟩ := x
    right
    obtain ⟨e1, e2, e3⟩ := finishWork_ok (w := RunWork.empty) hc hp (running_run hr).1
    rw [e1, setRun_run e2]
    exact ⟨_, rfl, rfl⟩
theorem chargeBytes_parts (s : State) (a b c) : (s.chargeBytes a b c).clus = s.clus ∧ (s.chargeBytes a b c).gfe = s.gfe ∧ (s.chargeBytes a b c).host = s.host := by
  have h := State.chargeBytes_only (Within.refl _) (OnlyChanges.refl s) a b c
  exact ⟨h.use .clus rfl, h.use .gfe rfl, h.use .host rfl⟩
theorem lineReturn_error {s : State} (hc : s.Canon) {n a l r d x rest} (hr : s.running n = some (r, d))
    (ht : takeFirst (fun e : HostRd => e.id == .line n a) s.host.reads = some (x, rest)) (he : lineError l ≠ none) : ((s.lineReturn n a l).clu n).run = none := by
  unfold State.lineReturn
  rw [hr, ht]
  simp only
  cases hl : lineError l with
  | none => exact absurd hl he
  | some k =>
    have hh : ∀ h : HostIf, ((State.raise { s with host := h } .cxl 0 0x004 9).stopWith n stRange 16 0 |>.clu n).run = none := fun h => by
      have h1 : ({ s with host := h } : State).Canon := canon_gfe_host hc s.gfe h rfl
      exact stopWith_run ((State.raise_keeps (Keeps.refl _) _ _ _ _).canon h1) ((running_congr (raise_clus _ _ _ _ _) (raise_gfe _ _ _ _ _) n).trans hr) _ _ _
    exact hh _
end Sys2Proof.Machine
end

