-- ==== Sys2Proof/Laws/Channels.lean ====
section
/-! SUPPORT. Channels, rings, accounts and contexts: what each operation of a channel leaves of the channel and of the rest.
The provers cite these lemmas in place of unfolding the operations. -/
namespace Sys2Proof.Machine
open Sys2Proof
theorem chan_of {s t : State} (h : s.chans = t.chans) (n) : s.chan n = t.chan n := by unfold State.chan; rw [h]
theorem cq_of {s t : State} (h : s.cqs = t.cqs) (n) : s.cq n = t.cq n := by unfold State.cq; rw [h]
theorem acct_of {s t : State} (h : s.accts = t.accts) (n) : s.acct n = t.acct n := by unfold State.acct; rw [h]
theorem pumpRing_chans (s : State) (c) : (s.pumpRing c).chans = s.chans := (State.pumpRing_only (Within.refl _) (OnlyChanges.refl s) c).use .chans rfl
theorem pumpRing_cqs (s : State) (c) : (s.pumpRing c).cqs = s.cqs := (State.pumpRing_only (Within.refl _) (OnlyChanges.refl s) c).use .cqs rfl
theorem pumpRing_gfe (s : State) (c) : (s.pumpRing c).gfe = s.gfe := (State.pumpRing_only (Within.refl _) (OnlyChanges.refl s) c).use .gfe rfl
theorem canon_host {s : State} (h : s.Canon) (host) : State.Canon { s with host := host } := canon_gfe_host h s.gfe host rfl
theorem setChan_canon {s : State} (h : s.Canon) (c v) : (s.setChan c v).Canon := (State.setChan_keeps (Keeps.refl s) c v).canon h
theorem chan_self {s : State} (h : s.Canon) (c v) : (s.setChan c v).chan c = v := State.chan_setChan_self h c v
theorem endStep_chan (s : State) (n) : s.endStep.chan n = s.chan n := rfl
theorem endStep_cq (s : State) (n) : s.endStep.cq n = s.cq n := rfl
theorem endStep_acct (s : State) (n) : s.endStep.acct n = s.acct n := rfl
theorem chanOp_go {s : State} {a gen} {f : State → Nat → Option State} {u} (hk : (s.chan (s.selChan a)).kind = .host) (hg : (s.chan (s.selChan a)).gen = gen)
    (hf : f s (s.selChan a) = some u) : s.chanOp a gen f = u := by
  unfold State.chanOp
  simp only
  rw [if_neg (by simp [hk, hg]), hf]
theorem done_if_served {s u : State} (hs : s.served = true) : done (if !s.served then s else u) = .next u.endStep := by rw [if_neg (by simp [hs])]; rfl
theorem setCtx_chans (s : State) (x) : (s.setCtx x).chans = s.chans := rfl
theorem settleCtx_chans (s : State) (x) : (s.settleCtx x).chans = s.chans := (State.settleCtx_only (Within.refl _) (OnlyChanges.refl s) x).use .chans rfl
/-- What closeCtx does to a channel. -/
theorem closeCtx_chan {s : State} (hc : s.Canon) (c m) : ∃ x, (s.closeCtx c).chan m = { s.chan m with openCtx := x } := by
  unfold State.closeCtx
  split
  · exact ⟨(s.chan m).openCtx, rfl⟩
  · extract_lets +onlyGivenNames x0
    extract_lets +onlyGivenNames s1
    rw [chan_of (settleCtx_chans _ _)]
    have h1 : ∃ x, s1.chan m = { s.chan m with openCtx := x } := by
      show ∃ x, (s.setChan c _).chan m = _
      by_cases e : m = c
      · subst e; rw [chan_self hc]; exact ⟨none, rfl⟩
      · rw [State.chan_setChan_other s e]; exact ⟨_, rfl⟩
    clear_value s1
    split
    · rw [chan_of (setCtx_chans _ _)]; exact h1
    · exact h1
theorem closeCtx_canon {s : State} (hc : s.Canon) (c) : (s.closeCtx c).Canon := (State.closeCtx_keeps (Keeps.refl s) c).canon hc
theorem canon_gfe {s : State} (h : s.Canon) (gfe) (hf : gfe.fences = s.gfe.fences) : State.Canon { s with gfe := gfe } := canon_gfe_host h gfe s.host hf
theorem settleCtx_cmds (s : State) (x) : (s.settleCtx x).gfe.cmds = s.gfe.cmds := by
  unfold State.settleCtx
  split
  · rfl
  · split
    · extract_lets s1
      split <;> rfl
    · rfl
theorem closeCtx_cmds (s : State) (c) : (s.closeCtx c).gfe.cmds = s.gfe.cmds := by
  unfold State.closeCtx
  split
  · rfl
  · extract_lets +onlyGivenNames x0
    extract_lets +onlyGivenNames s1
    rw [settleCtx_cmds]
    split <;> rfl
theorem enlist_chan {s : State} (hc : s.Canon) (c slot p k o m) : ∃ x, (s.enlist c slot p k o).chan m = { s.chan m with openCtx := x } := by
  unfold State.enlist
  extract_lets +onlyGivenNames id
  extract_lets +onlyGivenNames need
  extract_lets +onlyGivenNames i
  extract_lets +onlyGivenNames dl
  extract_lets +onlyGivenNames ctxs
  extract_lets +onlyGivenNames d
  extract_lets +onlyGivenNames g0
  extract_lets +onlyGivenNames s1
  have c1 : s1.Canon := canon_gfe hc _ rfl
  have h1 : s1.chan m = s.chan m := rfl
  clear_value s1
  extract_lets +onlyGivenNames x0
  extract_lets +onlyGivenNames s2
  have h2 : ∃ x, s2.chan m = { s.chan m with openCtx := x } := by
    unfold s2; split
    · by_cases e : m = c
      · subst e; rw [chan_self c1]; unfold x0; rw [h1]; exact ⟨_, rfl⟩
      · rw [State.chan_setChan_other s1 e, h1]; exact ⟨_, rfl⟩
    · exact ⟨_, h1⟩
  have c2 : s2.Canon := by
    unfold s2; split
    · exact setChan_canon c1 _ _
    · exact c1
  clear_value s2
  extract_lets +onlyGivenNames s3
  have h3 : ∃ x, s3.chan m = { s.chan m with openCtx := x } := by
    unfold s3; split
    · obtain ⟨x, hx⟩ := closeCtx_chan c2 c m
      obtain ⟨y, hy⟩ := h2
      rw [hx, hy]; exact ⟨x, rfl⟩
    · exact h2
  clear_value s3
  split <;> exact h3
theorem enlist_cmds (s : State) (c slot p k o) : ∃ e : Cmd, (s.enlist c slot p k o).gfe.cmds = s.gfe.cmds ++ [e] ∧ e.chan = c ∧ e.slot = slot ∧ e.payload = p ∧ e.phase = .unissued ∧ e.cls = slotClass slot := by
  unfold State.enlist
  extract_lets +onlyGivenNames id
  extract_lets +onlyGivenNames need
  extract_lets +onlyGivenNames i
  extract_lets +onlyGivenNames dl
  extract_lets +onlyGivenNames ctxs
  extract_lets +onlyGivenNames d
  extract_lets +onlyGivenNames g0
  extract_lets +onlyGivenNames s1
  have h1 : s1.gfe.cmds = s.gfe.cmds ++ [d] := rfl
  clear_value s1
  extract_lets +onlyGivenNames x0
  extract_lets +onlyGivenNames s2
  have h2 : s2.gfe.cmds = s.gfe.cmds ++ [d] := by
    unfold s2; split <;> exact h1
  clear_value s2
  extract_lets +onlyGivenNames s3
  have h3 : s3.gfe.cmds = s.gfe.cmds ++ [d] := by
    unfold s3; split
    · rw [closeCtx_cmds]; exact h2
    · exact h2
  clear_value s3
  refine ⟨d, ?_, rfl, rfl, rfl, rfl, rfl⟩
  split <;> exact h3
theorem advance_chan {s : State} (hc : s.Canon) (c slot m) : (s.advance c slot).chan m = if m = c then { s.chan c with head := (s.chan c).head + BitVec.ofNat 32 (1 + slotExt slot), expSeq := (s.chan c).expSeq + 1, ctxWait := none } else s.chan m := by
  unfold State.advance
  rw [State.chan_setChan hc]
theorem grantCtxs_state {s : State} (hc : s.Canon) (n m) : ((s.grantCtxs n).chan m).state = (s.chan m).state := by
  induction n generalizing s with
  | zero => rfl
  | succ n ih =>
    rw [State.grantCtxs]
    split
    · rfl
    · rename_i c _
      split
      · rfl
      · rename_i w _
        have ca : (s.advance c w.slot).Canon := (State.advance_keeps (Keeps.refl s) c w.slot).canon hc
        have ce : ((s.advance c w.slot).enlist c w.slot w.payload w.part w.origin).Canon := (State.enlist_keeps (Keeps.refl _) _ _ _ _ _).canon ca
        have cp := (State.pumpRing_keeps (Keeps.refl ((s.advance c w.slot).enlist c w.slot w.payload w.part w.origin)) c).canon ce
        rw [ih cp, chan_of (pumpRing_chans _ _)]
        obtain ⟨x, hx⟩ := enlist_chan ca c w.slot w.payload w.part w.origin m
        rw [hx]
        show ((s.advance c w.slot).chan m).state = _
        rw [advance_chan hc]
        split
        · rename_i e; subst e; rfl
        · rfl
theorem release_chans (s : State) (c) : (s.release c).chans = s.chans := (State.release_only (Within.refl _) (OnlyChanges.refl s) c).use .chans rfl
theorem rewriteStored_chans (s : State) (c b) : (s.rewriteStored c b).chans = s.chans := (State.rewriteStored_only (Within.refl _) (OnlyChanges.refl s) c b).use .chans rfl
theorem resumeChan_state {s : State} (hc : s.Canon) (c b) : ((s.resumeChan c b).chan c).state = .active := by
  unfold State.resumeChan
  extract_lets +onlyGivenNames ch
  extract_lets +onlyGivenNames ch1
  extract_lets +onlyGivenNames s1
  have h1 : (s1.chan c).state = .active := by
    show ((s.setChan c _).chan c).state = _
    rw [chan_self hc]
  have c1 : s1.Canon := setChan_canon hc _ _
  clear_value s1
  extract_lets +onlyGivenNames s2
  have h2 : s2.chans = s1.chans ∧ s2.Canon := by
    unfold s2; split
    · exact ⟨rewriteStored_chans _ _ _, (State.rewriteStored_keeps (Keeps.refl s1) _ _).canon c1⟩
    · exact ⟨release_chans _ _, (State.release_keeps (Keeps.refl s1) _).canon c1⟩
  clear_value s2
  rw [grantCtxs_state ((State.pumpRing_keeps (Keeps.refl s2) c).canon h2.2), chan_of (pumpRing_chans _ _), chan_of h2.1]
  exact h1
theorem resetChanRegs_parts (s : State) (c) : OnlyChanges [.reg] s (s.resetChanRegs c) := State.resetChanRegs_only (Within.refl _) (OnlyChanges.refl s) c
theorem raise_chans (s : State) (w i o b) : (s.raise w i o b).chans = s.chans := (State.raise_only (Within.refl _) (OnlyChanges.refl s) _ _ _ _).use .chans rfl
theorem drainDone_head {s : State} (hc : s.Canon) (c) : ((s.drainDone c).cq c).head = (s.cq c).head := by
  unfold State.drainDone
  extract_lets +onlyGivenNames ch
  split
  · extract_lets +onlyGivenNames s1
    have h1 : s1.cqs = s.cqs := (State.closeCtx_only (Within.refl _) (OnlyChanges.refl s) c).use .cqs rfl
    have c1 : s1.Canon := closeCtx_canon hc c
    clear_value s1
    extract_lets
    rw [State.cq_setCq_self (setChan_canon c1 _ _)]
    show (s1.cq c).head = _
    rw [cq_of h1]
  · rfl
theorem releaseHeld_none {s : State} {c} (h : (s.cq c).store.any (fun r => r.state == .held) = false) : ∀ n, s.releaseHeld c n = s
  | 0 => rfl
  | n + 1 => by
    have h1 : takeFirst (fun r : StoredRec => r.state == .held) (s.cq c).store = none := by
      revert h
      generalize (s.cq c).store = l
      induction l with
      | nil => intro _; rfl
      | cons a l ih =>
        intro h
        simp only [List.any_cons, Bool.or_eq_false_iff] at h
        simp only [takeFirst, h.1, Bool.false_eq_true, if_false]
        rw [ih h.2]
    rw [State.releaseHeld, h1]
theorem hostRecord_chans (s : State) (c b x) : (s.hostRecord c b x).chans = s.chans := (State.hostRecord_only (Within.refl _) (OnlyChanges.refl s) c b x).use .chans rfl
theorem inFlight_of {s : State} {c x rest} (h : takeFirst (fun r : HostRd => r.id == .ring c) s.host.reads = some (x, rest)) : s.ringInFlight c = true := by
  unfold State.ringInFlight
  revert h
  generalize s.host.reads = l
  induction l generalizing rest with
  | nil => intro h; exact absurd h (by simp [takeFirst])
  | cons a l ih =>
    intro h
    simp only [takeFirst] at h
    simp only [List.any_cons]
    split at h
    · rename_i e; simp [e]
    · cases hh : takeFirst (fun r : HostRd => r.id == .ring c) l with
      | none => rw [hh] at h; exact absurd h (by simp)
      | some y =>
        obtain ⟨b, r⟩ := y
        rw [hh] at h; injection h with h; injection h with h1 h2; subst h1
        rw [ih hh]; simp
end Sys2Proof.Machine
end

