-- ==== Sys2Proof/Laws/Tests.lean ====
section
/-! SUPPORT. The integrity unit: entering residency, beginning and clearing a test, and retiring, part by part.
The provers cite these lemmas in place of unfolding the operations. -/
namespace Sys2Proof.Machine
open Sys2Proof
theorem tests_of {s t : State} (h : (t.integ.test, t.integ.wait) = (s.integ.test, s.integ.wait)) : t.integ.test = s.integ.test ∧ t.integ.wait = s.integ.wait := by
  injection h with h1 h2; exact ⟨h1, h2⟩
theorem enterResidency_test (s : State) (t : Test) : (s.enterResidency t).integ.test = some { t with entered := s.tickN, drained := false } ∧ (s.enterResidency t).integ.wait = s.integ.wait := by
  unfold State.enterResidency
  extract_lets +onlyGivenNames x1
  extract_lets +onlyGivenNames r1
  have hr : r1.integ.test = some { t with entered := s.tickN, drained := false } ∧ r1.integ.wait = s.integ.wait := ⟨rfl, rfl⟩
  clear_value r1
  split
  · exact hr
  · extract_lets +onlyGivenNames s2
    have h2 : OnlyChanges [.reg, .accts, .gfe, .clus, .resvs, .pslots, .frames, .streams, .xfers, .host, .integ, .icnt, .sup, .out] r1 s2 := by
      unfold s2; split
      · exact State.leaveServing_only (within_of_all rfl) (State.setSlotState_only (within_of_all rfl) (OnlyChanges.refl _) _ _) _
      · exact OnlyChanges.refl _
    clear_value s2
    have h3 := tests_of ((State.moveDown_only (Within.refl _) (OnlyChanges.refl s2) t.clu).use .tests rfl)
    have h4 := tests_of (h2.use .tests rfl)
    exact ⟨h3.1.trans (h4.1.trans hr.1), h3.2.trans (h4.2.trans hr.2)⟩
theorem beginTest_test (s : State) (t : Test) : (s.beginTest t).integ.test = some { t with entered := s.tickN, drained := false } := by
  unfold State.beginTest
  split
  · exact (enterResidency_test s t).1
  · rfl
theorem resumeUnits_tests (s : State) : s.resumeUnits.integ.test = s.integ.test ∧ s.resumeUnits.integ.wait = s.integ.wait :=
  tests_of ((State.resumeUnits_only (Within.refl _) (OnlyChanges.refl s)).use .tests rfl)
theorem resumeUnits_pslots (s : State) : s.resumeUnits.pslots = s.pslots := (State.resumeUnits_only (Within.refl _) (OnlyChanges.refl s)).use .pslots rfl
theorem clearTest_parts (s : State) (hw : s.integ.wait = []) : s.clearTest.integ.test = none ∧ s.clearTest.pslots = s.pslots := by
  unfold State.clearTest
  extract_lets +onlyGivenNames x0
  generalize hs0 : ({ s with integ := { x0 with test := none } } : State) = s0
  have h := resumeUnits_tests s0
  have hp := resumeUnits_pslots s0
  have e1 : s0.integ.test = none ∧ s0.integ.wait = [] ∧ s0.pslots = s.pslots := by rw [← hs0]; exact ⟨rfl, hw, rfl⟩
  clear hs0
  rw [e1.1, e1.2.1] at h
  rw [e1.2.2] at hp
  generalize s0.resumeUnits = s1 at *
  simp only [h.2]
  exact ⟨h.1, hp⟩
theorem endCmd_tests (s : State) (d a b c e) : (s.endCmd d a b c e).integ.test = s.integ.test := by
  have := (State.endCmd_only (Within.refl _) (OnlyChanges.refl s) d a b c e).use .integ rfl
  exact congrArg Integ.test this
theorem endStep_integ (s : State) : s.endStep.integ = s.integ := rfl
theorem raiseEvent_integ (s : State) (n) : (s.raiseEvent n).integ = s.integ := (State.raiseEvent_only (Within.refl _) (OnlyChanges.refl s) n).use .integ rfl
theorem raiseEvent_pslots (s : State) (n) : (s.raiseEvent n).pslots = s.pslots := (State.raiseEvent_only (Within.refl _) (OnlyChanges.refl s) n).use .pslots rfl
theorem rotation_head {s : State} {n rest} (h : s.rotation = n :: rest) : s.cluState n = .serving := by
  have : n ∈ s.rotation := by rw [h]; exact List.mem_cons_self
  unfold State.rotation at this
  have := (List.mem_filter.mp this).2
  simp only [Bool.and_eq_true, beq_iff_eq] at this
  exact this.1
theorem canon_integ {s : State} (h : s.Canon) (integ) : State.Canon { s with integ := integ } := canon_integ_icnt h integ s.icnt
theorem enterResidency_state (s : State) (hc : s.Canon) (t : Test) (p) (hp : s.cluSlot t.clu = some p) (hs : (s.pslot p).state = .serving) :
    ((s.enterResidency t).pslot p).state = .testResidency := by
  unfold State.enterResidency
  extract_lets +onlyGivenNames x1
  extract_lets +onlyGivenNames r1
  have hp1 : r1.cluSlot t.clu = some p := hp
  have hs1 : (r1.pslot p).state = .serving := hs
  have hcr : r1.Canon := canon_integ hc _
  clear_value r1
  rw [hp1]
  simp only
  rw [pslot_of (moveDown_pslots _ _), if_pos hs1, pslot_of (leaveServing_pslots _ _)]
  unfold State.setSlotState
  rw [State.pslot_setPslot_self hcr]
theorem setSlot_state {s : State} (hc : s.Canon) (p st) : ((s.setSlotState p st).pslot p).state = st := by
  unfold State.setSlotState; rw [State.pslot_setPslot_self hc]
theorem makeRetired_state (s : State) (hc : s.Canon) (p) : ((s.makeRetired p).pslot p).state = .retired ∧ (s.integ.wait = [] → (s.makeRetired p).integ.wait = []) := by
  unfold State.makeRetired
  extract_lets +onlyGivenNames n
  extract_lets +onlyGivenNames was
  extract_lets +onlyGivenNames s1
  have h1 : (s1.pslot p).state = .retired := setSlot_state hc p _
  have w1 : s1.integ.wait = s.integ.wait := rfl
  clear_value s1
  extract_lets +onlyGivenNames s2
  have h2 : (s2.pslot p).state = .retired ∧ s2.integ.wait = s.integ.wait := by
    unfold s2; split
    · exact ⟨by rw [pslot_of (leaveServing_pslots _ _)]; exact h1, (tests_of ((State.leaveServing_only (Within.refl _) (OnlyChanges.refl s1) n).use .tests rfl)).2.trans w1⟩
    · exact ⟨h1, w1⟩
  clear_value s2
  extract_lets +onlyGivenNames x0
  extract_lets +onlyGivenNames s3
  have h3 : (s3.pslot p).state = .retired := h2.1
  have w3 : s.integ.wait = [] → s3.integ.wait = [] := fun e => by
    show s2.integ.wait.filter _ = []
    rw [h2.2, e]; rfl
  clear_value s3
  refine ⟨?_, fun e => ?_⟩
  · rw [pslot_of (moveDown_pslots _ _), pslot_of (logRaise_pslots _ _ _ _ _ _ _ _ _ _ _ _ _)]; exact h3
  · have k : OnlyChanges [.reg, .host, .integ, .icnt, .out, .frames, .place] s3 (((s3.faultLog 3 p 0 0 0 0 0 0).raise .int 0 0x000 3).moveDown n) :=
      State.moveDown_only (within_of_all rfl) (State.raise_only (within_of_all rfl) (State.faultLog_only (within_of_all rfl) (OnlyChanges.refl s3) _ _ _ _ _ _ _ _) _ _ _ _) _
    exact (tests_of (k.use .tests rfl)).2.trans (w3 e)
theorem faultLog_parts (s : State) (a b c d e f g h) : (s.faultLog a b c d e f g h).pslots = s.pslots ∧ (s.faultLog a b c d e f g h).integ.wait = s.integ.wait := by
  have k := State.faultLog_only (Within.refl _) (OnlyChanges.refl s) a b c d e f g h
  exact ⟨k.use .pslots rfl, (tests_of (k.use .tests rfl)).2⟩
theorem clearTest_endStep (s : State) (hw : s.integ.wait = []) (p) : s.clearTest.endStep.integ.test = none ∧ s.clearTest.endStep.pslot p = s.pslot p := by
  have h := clearTest_parts s hw
  exact ⟨by rw [endStep_integ]; exact h.1, by rw [endStep_pslot]; exact pslot_of h.2 _⟩
theorem endStep_acc (s : State) (a) : s.endStep.accState a = s.accState a := by cases a <;> rfl
theorem acc_setAcc (s : State) (a v) : (s.setAcc a v).accState a = v := by cases a <;> rfl
end Sys2Proof.Machine
end

