-- ==== Sys2Proof/Laws/Resolving.lean ====
section
/-! SUPPORT. Resolving a command's operands and starting its work: which command record each step leaves.
The provers cite these lemmas in place of unfolding the operations. -/
namespace Sys2Proof.Machine
open Sys2Proof
theorem find_map_same {α : Type} {f : α → Nat} {i : Nat} {l : List α} {c d : α} (h : l.find? (fun x => f x == i) = some d) (hc : f c = i) :
    (l.map (fun x => if f x = f c then c else x)).find? (fun x => f x == i) = some c := by
  induction l with
  | nil => cases h
  | cons a l ih =>
    rw [List.map_cons, List.find?_cons]
    by_cases e : f a = i
    · rw [if_pos (e.trans hc.symm)]; simp [hc]
    · rw [if_neg (fun q => e (q.trans hc))]
      have : (f a == i) = false := by simp [e]
      rw [this]
      rw [List.find?_cons, this] at h
      exact ih h
theorem cmd_setCmd {s : State} {c : Nat} {d e : Cmd} (h : s.cmd? c = some d) (he : e.id = c) : (s.setCmd e).cmd? c = some e :=
  find_map_same (f := Cmd.id) h he
theorem cmd_of {s t : State} (h : t.gfe = s.gfe) (c) : t.cmd? c = s.cmd? c := by unfold State.cmd?; rw [h]
theorem cmd_id {s : State} {c : Nat} {d : Cmd} (h : s.cmd? c = some d) : d.id = c := by
  have := List.find?_some h; simpa using this
theorem settleRes_cmd {s : State} {c : Nat} {d : Cmd} {r : Resolution} (h : s.cmd? c = some d) (hr : d.res = some r) (hp : d.phase = .resolving) :
    ∃ w, (s.settleRes c).cmd? c = some { d with res := some { r with awaitTiles := w }, phase := if w.isEmpty && r.awaitPeers.isEmpty then .ready else .resolving } := by
  refine ⟨r.awaitTiles.filter s.inCellar, ?_⟩
  unfold State.settleRes
  rw [h]
  simp only [hr, hp]
  exact cmd_setCmd h (cmd_id (d := d) h)
theorem fetchAll_gfe (s : State) (d l) : (s.fetchAll d l).gfe = s.gfe := (State.fetchAll_only (Within.refl _) (OnlyChanges.refl s) d l).use .gfe rfl
theorem fetchAll_fab (s : State) (d l) : (s.fetchAll d l).fab = s.fab := (State.fetchAll_only (Within.refl _) (OnlyChanges.refl s) d l).use .fab rfl
theorem fetchAll_objs (s : State) (d l) : (s.fetchAll d l).objs = s.objs := (State.fetchAll_only (Within.refl _) (OnlyChanges.refl s) d l).use .objs rfl
theorem foldl_pairs_gfe {α : Type} (f : State × List (Nat × Nat) → α → State × List (Nat × Nat)) (g : α → Nat)
    (hf : ∀ a m, ((f a m).2.map Prod.fst = a.2.map Prod.fst ++ [g m]) ∧ (f a m).1.gfe = a.1.gfe) (l : List α) (a) :
    (l.foldl f a).2.map Prod.fst = a.2.map Prod.fst ++ l.map g ∧ (l.foldl f a).1.gfe = a.1.gfe := by
  induction l generalizing a with
  | nil => simp
  | cons x l ih =>
    rw [List.foldl_cons, (ih _).1, (ih _).2, (hf a x).1, (hf a x).2]
    simp
theorem sendMsg_gfe (s : State) (a b c d p e) : (s.sendMsg a b c d p e).1.gfe = s.gfe :=
  (State.sendMsg_only (Within.refl _) (OnlyChanges.refl s) a b c d p e).use .gfe rfl
theorem sendGathers_cmd (s : State) (c : Nat) (d : Cmd) (r : Resolution) (h : s.cmd? c = some d) (hr : d.res = some r) (hw : r.awaitPeers = [])
    (hp : ∀ m ∈ s.ownersOf r.dest, s.peerFailed m = false) (ht : slotOp d.slot = 0x28 → ∃ x, s.tableOf (op32 d.slot 16) = some x) :
    ∃ ps, (s.sendGathers c).cmd? c = some { d with res := some { r with awaitPeers := ps } } ∧
      ps.map Prod.fst = if slotOp d.slot = 0x28 then s.ownersOf r.dest else [] := by
  unfold State.sendGathers
  rw [h]
  simp only [hr]
  by_cases hop : slotOp d.slot = 0x28
  · obtain ⟨⟨o, t, y⟩, hx⟩ := ht hop
    rw [hx]
    simp only
    rw [if_neg (by simp [hop]), List.find?_eq_none.mpr (fun m hm => by simp [hp m hm])]
    simp only
    generalize hF : List.foldl _ (s, []) (s.ownersOf r.dest) = F
    have k : F.2.map Prod.fst = ([] : List Nat) ++ (s.ownersOf r.dest).map id ∧ F.1.gfe = s.gfe := by
      rw [← hF]
      refine foldl_pairs_gfe _ id (fun a m => ⟨?_, ?_⟩) _ (s, [])
      · simp
      · exact sendMsg_gfe _ _ _ _ _ _ _
    refine ⟨F.2, ?_, by rw [if_pos hop, k.1]; simp⟩
    exact cmd_setCmd (s := s.egress F.1) ((cmd_of k.2 c).trans h) (cmd_id (d := d) h)
  · refine ⟨[], ?_, by rw [if_neg hop]; rfl⟩
    have e : ({ d with res := some { r with awaitPeers := [] } } : Cmd) = d := by
      rw [← hw]; cases d; simp only at hr; rw [hr]
    rw [e]
    split
    · rw [if_pos hop]; exact h
    · exact h
theorem beginRes_cmd (t : State) (c : Nat) (d : Cmd) (o : Obj) (h : t.cmd? c = some d) (hs : t.serveOf c = none) (ho : t.obj? (rowHandle d.slot) = some o)
    (ht : slotOp d.slot = 0x28 → o.table.isSome = true) :
    let vs := (valueOperands d.slot).flatMap (fun x => withHandle x.1 (upTo (ceilDiv x.2 4096)))
    let es := match o.table with | some (x, _) => if x.shard = 0 then [] else t.shardEntries x.shard 4096 0 | none => []
    let v := t.readRes d
    let ds := v.1.map (t.destOf d o es)
    let dest := ds.map (fun x => x.getD none)
    let r : Resolution := { idx := v.1, dest := dest, offs := v.2.1, wgts := v.2.2, awaitTiles := [], awaitPeers := [],
                            partials := [], held := [], tick := t.tickN }
    (∀ x ∈ vs, t.inCellar x = false ∧ t.tileBad d x.1 x.2 = false) → t.valueBad d o r ds = [] →
    (slotOp d.slot = 0x29 → (distinctRows t.fab.moduleId dest).length ≤ 131072) →
    t.mayResolve d.id (t.idxCount d) (t.cmdOrder d) = true →
    (∀ m ∈ t.ownersOf dest, t.peerFailed m = false) →
    ∃ e q, (t.beginRes d).cmd? c = some e ∧ e.res = some q ∧ e.slot = d.slot ∧
      q.idx = v.1 ∧ q.dest = dest ∧ q.offs = v.2.1 ∧ q.wgts = v.2.2 ∧ q.held = t.heldOf d (rowHandle d.slot) o dest ∧
      q.awaitPeers.map Prod.fst = (if slotOp d.slot = 0x28 then t.ownersOf dest else []) ∧
      e.phase = if q.awaitTiles.isEmpty && q.awaitPeers.isEmpty then .ready else .resolving := by
  intro vs es v ds dest r hvs hvb hdr hmr hpf
  have hid := cmd_id h
  unfold State.beginRes
  extract_lets +onlyGivenNames hh
  extract_lets +onlyGivenNames vs1
  have e1 : vs1 = vs := by unfold vs1; rw [hid, hs]; rfl
  have e2 : vs.filter t.inCellar = [] := List.filter_eq_nil_iff.mpr (fun x hx => by simp [(hvs x hx).1])
  rw [e1, e2, List.find?_eq_none.mpr (fun x hx => by simp [(hvs x hx).2]), show t.obj? hh = some o from ho, hmr]
  simp only [Bool.not_true, Bool.false_eq_true, if_false, List.isEmpty_nil]
  unfold State.readValues
  extract_lets es1 ds1 r1
  have hlow : lowest (t.valueBad d o r1 ds1) = none := by
    show lowest (t.valueBad d o r ds) = none
    rw [hvb, lowest_nil]
  rw [hlow]
  simp only
  rw [if_neg (fun e => absurd (hdr e.1) (Nat.not_le_of_lt e.2.2))]
  unfold State.holdRes
  extract_lets +onlyGivenNames wait s1
  have h1 : s1.cmd? c = some { d with phase := .resolving, res := some { r1 with held := t.heldOf d hh o r1.dest, awaitTiles := wait } } := by
    have hl : (t.leaveRes d.id).cmd? c = some d := h
    exact cmd_setCmd hl hid
  have f1 : s1.fab = t.fab ∧ s1.objs = t.objs := ⟨rfl, rfl⟩
  clear_value s1
  have h2 := (cmd_of (fetchAll_gfe s1 d wait) c).trans h1
  have f2 : (s1.fetchAll d wait).fab = t.fab ∧ (s1.fetchAll d wait).objs = t.objs :=
    ⟨(fetchAll_fab s1 d wait).trans f1.1, (fetchAll_objs s1 d wait).trans f1.2⟩
  generalize s1.fetchAll d wait = s2 at h2 f2 ⊢
  have hpeer : ∀ m, s2.peerFailed m = t.peerFailed m := fun m => by
    unfold State.peerFailed State.peer; rw [f2.1]
  have hown : s2.ownersOf r1.dest = t.ownersOf dest := by
    show s2.ownersOf dest = _
    unfold State.ownersOf; rw [f2.1]
  rw [hid]
  obtain ⟨ps, g1, g2⟩ := sendGathers_cmd s2 c _ _ h2 rfl rfl (by rw [hown]; exact fun m hm => (hpeer m).trans (hpf m hm)) (fun hop => by
    have hx := ht hop
    have : s2.obj? (op32 d.slot 16) = some o := by
      unfold State.obj?; rw [f2.2]
      have : rowHandle d.slot = op32 d.slot 16 := by unfold rowHandle; rw [if_neg (by rw [hop]; decide)]
      rw [← this]; exact ho
    unfold State.tableOf
    rw [show s2.obj? (op32 _ 16) = some o from this]
    simp only
    cases hq : o.table with
    | none => rw [hq] at hx; exact nomatch hx
    | some x => exact ⟨_, rfl⟩)
  obtain ⟨w1, g3⟩ := settleRes_cmd g1 rfl rfl
  refine ⟨_, _, g3, rfl, rfl, rfl, rfl, rfl, rfl, rfl, ?_, rfl⟩
  rw [hown] at g2
  exact g2
theorem cmd_endStep (s : State) (c) : s.endStep.cmd? c = s.cmd? c := rfl
theorem find_append_none {α : Type} {p : α → Bool} {l : List α} {a : α} (h : l.find? p = none) (ha : p a = true) : (l ++ [a]).find? p = some a := by
  rw [List.find?_append, h]; simp [ha]
theorem tableOf_of {s t : State} (h : t.objs = s.objs) (x) : t.tableOf x = s.tableOf x := by unfold State.tableOf State.obj?; rw [h]
theorem tableOf_setObj (s : State) (h : Nat) (o : Obj) (t y) : (s.setObj h { o with table := some (t, y) }).tableOf h = some ({ o with table := some (t, y) }, t, y) := by
  unfold State.tableOf State.obj? State.setObj
  rw [Sparse.find?_insert_self]
theorem issueFold_cmd (s : State) (h : Nat) (o : Obj) (t : TableDesc) (y : TableDyn) (es : List RemapEntry) (hn : s.cmd? (s.gfe.nextId + 1) = none) :
    (∃ e q, (s.issueFold h o t y es).cmd? (s.gfe.nextId + 1) = some e ∧ slotOp e.slot = foldOp ∧ e.res = some q ∧
        q.idx = es.map (fun x => Int.ofNat x.row) ∧ q.offs = es.map RemapEntry.slot) ∧
    (s.issueFold h o t y es).objs = (s.setObj h { o with table := some (t, { y with folding := true }) }).objs := by
  unfold State.issueFold
  extract_lets +onlyGivenNames id
  extract_lets +onlyGivenNames rows
  extract_lets +onlyGivenNames held
  extract_lets +onlyGivenNames wait
  extract_lets +onlyGivenNames r
  extract_lets +onlyGivenNames x0
  extract_lets +onlyGivenNames d
  extract_lets +onlyGivenNames s1
  extract_lets +onlyGivenNames x1
  extract_lets +onlyGivenNames s2
  have h2 : s2.cmd? id = some d := find_append_none hn (by simp [d, x0, newCmd])
  have o2 : s2.objs = (s.setObj h { o with table := some (t, { y with folding := true }) }).objs := rfl
  have hd : d.res = some r ∧ d.phase = .resolving ∧ slotOp d.slot = foldOp := ⟨rfl, rfl, rfl⟩
  have hr : r.idx = es.map (fun x => Int.ofNat x.row) ∧ r.offs = es.map RemapEntry.slot := ⟨by simp [r, rows], rfl⟩
  clear_value s2 d r
  have h3 := (cmd_of (fetchAll_gfe s2 d wait) id).trans h2
  have o3 := (fetchAll_objs s2 d wait).trans o2
  generalize s2.fetchAll d wait = s3 at h3 o3 ⊢
  refine ⟨?_, (State.settleRes_only (Within.refl _) (OnlyChanges.refl s3) id |>.use .objs rfl).trans o3⟩
  obtain ⟨w1, g⟩ := settleRes_cmd h3 hd.1 hd.2.1
  exact ⟨_, _, g, hd.2.2, rfl, hr⟩
end Sys2Proof.Machine
end

