-- ==== Sys2Proof/Laws/PlacementParts.lean ====
section
/-! SUPPORT. Placement: what moving, demoting, stopping and setting targets leave of the move list and of the stacks.
The provers cite these lemmas in place of unfolding the operations. -/
namespace Sys2Proof.Machine
open Sys2Proof
theorem put_get_self {α : Type} [DecidableEq α] {d : Nat → α} {k : Nat} {v : α} (hv : v ≠ d k) : ∀ m : List (Nat × α), Sparse.get d (Sparse.put d m k v) k = v
  | [] => by simp [Sparse.put, hv, Sparse.get]
  | (x, w) :: t => by
    unfold Sparse.put
    by_cases h1 : k < x
    · simp [h1, hv, Sparse.get]
    · by_cases h2 : x = k
      · simp [h2, hv, Sparse.get]
      · rw [if_neg h1, if_neg h2, Sparse.get, if_neg h2]
        exact put_get_self hv t
/-- The moves of `s` are the first moves of `t`. -/
def MovesGrow (s t : State) : Prop := s.place.moves <+: t.place.moves ∧ t.place.heat = s.place.heat ∧ t.place.scanned = s.place.scanned
theorem MovesGrow.refl (s) : MovesGrow s s := ⟨List.prefix_rfl, rfl, rfl⟩
theorem MovesGrow.trans {s t u} (a : MovesGrow s t) (b : MovesGrow t u) : MovesGrow s u := ⟨a.1.trans b.1, b.2.1.trans a.2.1, b.2.2.trans a.2.2⟩
theorem MovesGrow.of {s t : State} (h : t.place = s.place) : MovesGrow s t := by unfold MovesGrow; rw [h]; exact ⟨List.prefix_rfl, rfl, rfl⟩
theorem MovesGrow.find {s t : State} (h : MovesGrow s t) {o k m} (e : s.moveOf o k = some m) : t.moveOf o k = some m := by
  obtain ⟨l, hl⟩ := h.1
  unfold State.moveOf at *
  rw [← hl, List.find?_append, e]; rfl
theorem MovesGrow.foldl {α : Type} {f : State → α → State} (hf : ∀ t x, MovesGrow t (f t x)) : ∀ (l : List α) (s : State), MovesGrow s (l.foldl f s)
  | [], s => MovesGrow.refl s
  | x :: l, s => (hf s x).trans (MovesGrow.foldl hf l _)
theorem startMove_movesGrow (s : State) (h k d kd o) : MovesGrow s (s.startMove h k d kd o) := by
  unfold State.startMove
  split
  · exact MovesGrow.refl s
  · exact ⟨List.prefix_append _ _, rfl, rfl⟩
theorem freeFrame_movesGrow (s : State) (f) : MovesGrow s (s.freeFrame f) := MovesGrow.of ((State.freeFrame_only (Within.refl _) (OnlyChanges.refl s) f).use .place rfl)
theorem raise_movesGrow (s : State) (w i o k) : MovesGrow s (s.raise w i o k) := MovesGrow.of ((State.raise_only (Within.refl _) (OnlyChanges.refl s) w i o k).use .place rfl)
theorem dropWant_movesGrow (s : State) (h k) : MovesGrow s (s.dropWant h k) := by
  unfold State.dropWant
  extract_lets s1
  have g : MovesGrow s s1 := MovesGrow.foldl freeFrame_movesGrow _ s
  exact ⟨g.1, g.2.1, g.2.2⟩
theorem unlistWant_movesGrow (s : State) (w) : MovesGrow s (s.unlistWant w) := ⟨List.prefix_rfl, rfl, rfl⟩
theorem tryFill_movesGrow (s : State) (c) : MovesGrow s (s.tryFill c) := by
  unfold State.tryFill; split
  · exact ⟨List.prefix_rfl, rfl, rfl⟩
  · exact MovesGrow.refl s
theorem tryWant_movesGrow (s : State) (w) : MovesGrow s (s.tryWant w) := by
  unfold State.tryWant
  split
  · exact MovesGrow.refl s
  · split
    · exact dropWant_movesGrow s _ _
    · split
      · exact MovesGrow.refl s
      · split
        · exact (unlistWant_movesGrow s _).trans (startMove_movesGrow _ _ _ _ _ _)
        · exact MovesGrow.refl s
theorem tryReq_movesGrow (s : State) : ∀ x, MovesGrow s (s.tryReq x)
  | .inl w => tryWant_movesGrow s w
  | .inr c => tryFill_movesGrow s c
theorem demoteFirst_movesGrow (s : State) : ∀ l, MovesGrow s (s.demoteFirst l)
  | [] => MovesGrow.refl s
  | x :: t => by
    unfold State.demoteFirst
    extract_lets r down
    split
    · split
      · exact startMove_movesGrow _ _ _ _ _ _
      · exact raise_movesGrow _ _ _ _ _
    · exact demoteFirst_movesGrow s t
theorem tryWants_movesGrow (s : State) : MovesGrow s s.tryWants := by
  have h : MovesGrow s s.startWants := MovesGrow.foldl (fun t x => tryReq_movesGrow t x) _ s
  unfold State.tryWants
  refine h.trans ?_
  unfold State.relieveAttic
  extract_lets waiting going
  split
  · exact MovesGrow.refl _
  · exact MovesGrow.foldl (fun t _ => demoteFirst_movesGrow t _) _ _
theorem moveOf_landed {s s1 : State} {h k : Nat} {m : Move} (e : s.moveOf h k = some m) (h1 : s1.place.moves = s.place.moves.map (fun x =>
            if x.obj = h ∧ x.tile = k then { x with landed := true, landedAt := s.clk.now } else x)) : s1.moveOf h k = some { m with landed := true, landedAt := s.clk.now } := by
  unfold State.moveOf at *
  rw [h1]
  generalize s.clk.now = c
  generalize s.place.moves = l at e
  clear h1
  induction l with
  | nil => cases e
  | cons a l ih =>
    rw [List.map_cons, List.find?_cons]
    by_cases hc : a.obj = h ∧ a.tile = k
    · rw [if_pos hc]
      have hq : (a.obj == h && a.tile == k) = true := by simp [hc.1, hc.2]
      rw [List.find?_cons, hq] at e
      injection e with e
      subst e
      show (match (a.obj == h && a.tile == k) with | true => _ | false => _) = _
      rw [hq]
    · rw [if_neg hc]
      have hf : (a.obj == h && a.tile == k) = false := by
        cases hq : (a.obj == h && a.tile == k)
        · rfl
        · simp at hq; exact absurd hq hc
      rw [hf]
      rw [List.find?_cons, hf] at e
      exact ih e
theorem memWait_settle {s : State} (h : s.host.memWait = []) : s.settleMem = s := by
  unfold State.settleMem; rw [h]; rfl
theorem alive_live {s : State} {h o} (hl : s.liveObj h = some o) : ObjAlive s h := by
  unfold State.liveObj at hl
  split at hl
  · rename_i o' ho
    split at hl
    · rename_i hc; exact ⟨o', ho, hc.2⟩
    · cases hl
  · cases hl
theorem homeOf_endStep (s : State) (h k) : s.endStep.homeOf h k = s.homeOf h k := rfl
theorem homeOf_setHome_self {s : State} {h tile f} (a : ObjAlive s h) : (s.setHome h tile f).homeOf h tile = some f := by
  obtain ⟨o, a1, a2⟩ := a
  unfold State.setHome
  rw [a1]
  simp only
  unfold State.homeOf
  rw [State.obj?_setObj_self]
  exact Sparse.find?_insert_self
theorem setHome_host (s : State) (h k f) : (s.setHome h k f).host = s.host := by
  unfold State.setHome; split <;> rfl
theorem background_movesGrow (s : State) (b h k fs) : MovesGrow s (s.background b h k fs).1 := by
  unfold State.background
  split
  · exact MovesGrow.refl s
  · split
    · exact startMove_movesGrow _ _ _ _ _ _
    · exact MovesGrow.refl s
theorem demoteOne_movesGrow (s : State) (b t r) : MovesGrow s (s.demoteOne b t r).1 := by
  unfold State.demoteOne
  split
  · exact MovesGrow.refl s
  · split
    · exact raise_movesGrow _ _ _ _ _
    · exact startMove_movesGrow _ _ _ _ _ _
theorem foldl_pair_movesGrow {α : Type} {f : State × Nat → α → State × Nat} (hf : ∀ y x, MovesGrow y.1 (f y x).1) : ∀ (l : List α) (y : State × Nat), MovesGrow y.1 (l.foldl f y).1
  | [], y => MovesGrow.refl _
  | x :: l, y => (hf y x).trans (foldl_pair_movesGrow hf l _)
theorem demoteList_movesGrow : ∀ (l : List (Nat × Nat × FrameRec)) (s : State) (b n t), MovesGrow s (s.demoteList b n t l).1
  | [], s, b, n, t => MovesGrow.refl s
  | x :: l, s, b, n, t => by
    unfold State.demoteList
    split
    · exact MovesGrow.refl s
    · exact (demoteOne_movesGrow _ _ _ _).trans (demoteList_movesGrow l _ _ _ _)
theorem scanMoves_movesGrow (s : State) : MovesGrow s s.scanMoves := by
  have h1 : ∀ (s : State) b, MovesGrow s (s.scan1 b).1 := fun s b => by
    unfold State.scan1
    split
    · exact demoteList_movesGrow _ _ _ _ _
    · exact MovesGrow.refl s
  have h2 : ∀ (s : State) b, MovesGrow s (s.scan2 b).1 := fun s b => by
    unfold State.scan2
    split
    · exact demoteList_movesGrow _ _ _ _ _
    · exact MovesGrow.refl s
  have h3 : ∀ (s : State) b, MovesGrow s (s.scan3 b).1 := fun s b => by
    unfold State.scan3
    exact foldl_pair_movesGrow (f := downFrom0) (fun y _ => demoteOne_movesGrow y.1 _ _ _) _ (s, b)
  have h4 : ∀ (s : State) b, MovesGrow s (s.scan4 b).1 := fun s b => foldl_pair_movesGrow (f := toAttic) (fun y x => background_movesGrow _ _ _ _ _) _ (s, b)
  have h5 : ∀ (s : State) b, MovesGrow s (s.scan5 b).1 := fun s b => foldl_pair_movesGrow (f := toScratch) (fun y x => background_movesGrow _ _ _ _ _) _ (s, b)
  have h6 : ∀ (s : State) b, MovesGrow s (s.scanHint b).1 := fun s b => foldl_pair_movesGrow (f := toHint) (fun y x => background_movesGrow _ _ _ _ _) _ (s, b)
  have step : ∀ (f : State → Nat → State × Nat), (∀ s b, MovesGrow s (f s b).1) → ∀ y, MovesGrow s y.1 → MovesGrow s (scanThen f y).1 :=
    fun f hf y h => h.trans (hf y.1 y.2)
  have last : ∀ y, MovesGrow s y.1 → MovesGrow s (scanLast y) := fun y h => by
    have g := h.trans (h6 y.1 y.2)
    exact ⟨g.1, g.2.1, g.2.2⟩
  unfold State.scanMoves
  exact last _ (step _ h5 _ (step _ h4 _ (step _ h3 _ (step _ h2 _ (h1 _ _)))))
theorem place_endStep (s : State) : s.endStep.place = s.place := rfl
theorem frame_endStep (s : State) (f) : s.endStep.frame f = s.frame f := rfl
theorem stack_of {s t : State} (h : t.place = s.place) (k) : t.stack k = s.stack k := by unfold State.stack; rw [h]
theorem setStack_stack (s : State) (k : Nat) (v : StackRec) (h : v ≠ StackRec.init) : (s.setStack k v).stack k = v := by
  unfold State.stack State.setStack
  exact put_get_self (d := fun _ => StackRec.init) h _
theorem setTarget_target (s : State) (k : Nat) (v : TargetRec) (h : v ≠ TargetRec.init) : (s.setTarget k v).target k = v := by
  unfold State.target State.setTarget
  exact put_get_self (d := fun _ => TargetRec.init) h _
def stopAsked (s : State) : Bool := s.sup.stopping
theorem stopAsked_of {s t : State} (h : t.sup = s.sup) : stopAsked t = stopAsked s := by unfold stopAsked; rw [h]
theorem leaveRun_stopAsked (s : State) (n k l) : stopAsked (s.leaveRun n k l) = stopAsked s := by
  unfold State.leaveRun
  split
  · rfl
  · rename_i r d h
    extract_lets +onlyGivenNames c
    extract_lets +onlyGivenNames s1
    have h1 : s1.sup = s.sup := (State.chargeRun_only (Within.refl _) (OnlyChanges.refl (s.setClu n { c with run := none, used := c.used + k, freeAt := r.startNow + k })) d k).use .sup rfl
    clear_value s1
    extract_lets +onlyGivenNames a
    extract_lets +onlyGivenNames s2
    have h2 : stopAsked s2 = stopAsked s := by
      unfold s2; split
      · exact stopAsked_of h1
      · exact stopAsked_of h1
    clear_value s2
    exact (stopAsked_of ((State.releaseReads_only (Within.refl _) (OnlyChanges.refl _) _).use .sup rfl)).trans h2
theorem stopRun_stopAsked (s : State) (n k l) : stopAsked (s.stopRun n k l) = stopAsked s := by
  unfold State.stopRun
  split
  · rfl
  · rename_i r e h
    exact (leaveRun_stopAsked _ _ _ _).trans (stopAsked_of ((State.freeShadows_only (Within.refl _) (OnlyChanges.refl s) _).use .sup rfl))
theorem unqueue_stopAsked (s : State) (n i) : stopAsked (s.unqueue n i) = stopAsked s := rfl
theorem discardPair_stopAsked (s : State) (d l) : stopAsked (s.discardPair d l) = stopAsked s := by
  unfold State.discardPair
  split
  · rfl
  · rename_i m h
    extract_lets +onlyGivenNames s1
    have h1 : stopAsked s1 = stopAsked s := by
      refine foldl_invariant (P := fun t => stopAsked t = stopAsked s) (fun t n h => ?_) _ s rfl
      simp only
      split
      · split
        · exact (stopRun_stopAsked _ _ _ _).trans h
        · exact h
      · exact h
    clear_value s1
    extract_lets +onlyGivenNames held
    extract_lets +onlyGivenNames s2
    extract_lets +onlyGivenNames ran
    have h2 : s2.sup = s1.sup := (State.freeShadows_only (Within.refl _) (OnlyChanges.refl s1) _).use .sup rfl
    clear_value s2
    have h3 : (s2.noteRan d.id ran).sup = s2.sup := (State.noteRan_only (Within.refl _) (OnlyChanges.refl s2) _ _).use .sup rfl
    refine (stopAsked_of ?_).trans ((stopAsked_of (h3.trans h2)).trans h1)
    exact (State.releaseReads_only (Within.refl _) (OnlyChanges.refl _) _).use .sup rfl
theorem stopCmd_stopAsked (s : State) (d) : stopAsked (s.stopCmd d) = stopAsked s := by
  unfold State.stopCmd
  extract_lets +onlyGivenNames s1
  have h1 : stopAsked s1 = stopAsked s := by
    unfold s1
    split
    · exact discardPair_stopAsked _ _ _
    · split
      · split
        · split
          · exact stopRun_stopAsked _ _ _ _
          · rfl
        · rfl
      · rfl
      · rfl
  clear_value s1
  exact (stopAsked_of ((State.endCmd_only (Within.refl _) (OnlyChanges.refl s1) _ _ _ _ _).use .sup rfl)).trans h1
theorem stackSteps_parts (s : State) (k : Nat) (r : StackRec) (new : Bool) :
    let x := refreshStep r.refresh2x r.temp
    let g := derateStep r.derate r.temp
    let hot := if new then (if r.temp > 380 then r.hot + 1 else 0) else r.hot
    let w : StackRec := { r with refresh2x := x, derate := g, hot := hot }
    (hot < 10 → w ≠ StackRec.init → (s.stackSteps k r new).stack k = w) ∧ (10 ≤ hot → (s.stackSteps k r new).sup.stopping = true) := by
  intro x g hot w
  unfold State.stackSteps
  extract_lets +onlyGivenNames t1
  extract_lets +onlyGivenNames x1
  extract_lets +onlyGivenNames g1
  extract_lets +onlyGivenNames hot1
  extract_lets +onlyGivenNames s1
  extract_lets +onlyGivenNames s2
  have e2 : s2.place = s1.place := by
    unfold s2; split
    · exact (State.raise_only (Within.refl _) (OnlyChanges.refl s1) _ _ _ _).use .place rfl
    · rfl
  clear_value s2
  extract_lets +onlyGivenNames s3
  have e3 : s3.place = s1.place := by
    unfold s3; split
    · exact ((State.raise_only (Within.refl _) (OnlyChanges.refl s2) _ _ _ _).use .place rfl).trans e2
    · exact e2
  clear_value s3
  extract_lets +onlyGivenNames s4
  have e4 : s4.place = s1.place := by
    unfold s4; split
    · exact ((State.raiseEvent_only (Within.refl _) (OnlyChanges.refl s3) _).use .place rfl).trans e3
    · exact e3
  clear_value s4
  refine ⟨fun h hw => ?_, fun h => ?_⟩
  · rw [if_neg (Nat.not_le_of_lt h), stack_of e4]
    exact setStack_stack s k w hw
  · rw [if_pos h]
    unfold State.controlledStop
    split
    · assumption
    · extract_lets +onlyGivenNames x2
      extract_lets +onlyGivenNames s5
      have h5 : s5.sup.stopping = true := by
        have := (State.raise_only (Within.refl _) (OnlyChanges.refl { s4 with sup := { s4.sup with stopping := true, stopAt := s4.clk.now } }) .pwr 0 0x000 5).use .sup rfl
        exact congrArg Supply.stopping this
      clear_value s5
      show stopAsked (State.tidy _) = true
      refine (stopAsked_of ((State.tidy_only (Within.refl _) (OnlyChanges.refl _)).use .sup rfl)).trans ?_
      refine foldl_invariant (P := fun t => stopAsked t = true) (fun t d h => ?_) _ s5 h5
      split
      · exact (stopCmd_stopAsked _ _).trans h
      · exact h
theorem stack_endStep (s : State) (k) : s.endStep.stack k = s.stack k := rfl
end Sys2Proof.Machine
end

