-- ==== Sys2Proof/Laws/StreamParts.lean ====
section
/-! SUPPORT. Streams: what issuing, landing, stopping and faulting a fill leave of the stream and of the transfers in flight.
The provers cite these lemmas in place of unfolding the operations. -/
namespace Sys2Proof.Machine
open Sys2Proof
theorem xfers_endStep (s : State) : s.endStep.xfers = s.xfers := rfl
theorem stream_endStep (s : State) (n ix) : s.endStep.stream n ix = s.stream n ix := rfl
theorem stream_of {s t : State} (h : t.streams = s.streams) (n ix) : t.stream n ix = s.stream n ix := by unfold State.stream; rw [h]
theorem issueFar_xfers (s : State) (t x g) : (s.issueFar t x g).xfers = s.xfers := (State.issueFar_only (Within.refl _) (OnlyChanges.refl s) t x g).use .xfers rfl
theorem issueXfer_xfers (s : State) (n ix) (o : Obj) (f : StrFill) (hf : (s.stream n ix).openFill = some f) (g)
    (hg : s.homeOf (listGet (0, 0) (fillTiles (s.stream n ix).slot o f.range f.inRange) f.issued).1 (listGet (0, 0) (fillTiles (s.stream n ix).slot o f.range f.inRange) f.issued).2 = some g) :
    (s.issueXfer n ix o).xfers = s.xfers ++ [⟨n, ix, some f.num, (listGet (0, 0) (fillTiles (s.stream n ix).slot o f.range f.inRange) f.issued).1, (listGet (0, 0) (fillTiles (s.stream n ix).slot o f.range f.inRange) f.issued).2,
      if tierOf g == 3 && (s.frame g).state != .poisoned then 0 else g, s.clk.now, 0⟩] := by
  unfold State.issueXfer
  extract_lets +onlyGivenNames t
  rw [show t.openFill = some f from hf]
  simp only
  rw [show s.homeOf _ _ = some g from hg]
  simp only
  split
  · rw [issueFar_xfers]; rfl
  · rfl
theorem beginFill_xfers (s : State) (n ix o hs) : (s.beginFill n ix o hs).xfers = s.xfers :=
  (State.beginFill_only (Within.refl _) (OnlyChanges.refl s) n ix o hs).use .xfers rfl
theorem dropXfer_xfers (s : State) (n x rest) (h : takeFirst (fun y : Xfer => y.clu == n) s.xfers = some (x, rest)) : (s.dropXfer n).xfers = rest := by
  unfold State.dropXfer
  rw [h]
  simp only
  have k := (State.releaseReads_only (Within.refl _) (OnlyChanges.refl { s with xfers := rest }) [x.fid]).use .xfers rfl
  generalize State.releaseReads { s with xfers := rest } [x.fid] = u at k ⊢
  by_cases hz : x.fid = 0 <;> simp only [hz, if_true, if_false] <;> split <;> exact k
theorem dropXfer_stream (s : State) (n x rest) (h : takeFirst (fun y : Xfer => y.clu == n) s.xfers = some (x, rest)) (hd : (s.stream n x.ix).state ≠ .disarming) (ix) :
    (s.dropXfer n).stream n ix = s.stream n ix := by
  unfold State.dropXfer
  rw [h]
  simp only
  have k := (State.releaseReads_only (Within.refl _) (OnlyChanges.refl { s with xfers := rest }) [x.fid]).use .streams rfl
  generalize State.releaseReads { s with xfers := rest } [x.fid] = u at k ⊢
  have k2 : (if x.fid = 0 then u.keepSlots x.obj x.tile (u.slotHolders x.obj x.tile + u.farMoves x.obj x.tile) else u).streams = s.streams := by
    split <;> exact k
  generalize (if x.fid = 0 then u.keepSlots x.obj x.tile (u.slotHolders x.obj x.tile + u.farMoves x.obj x.tile) else u) = v at k2 ⊢
  rw [if_neg]
  · exact stream_of k2 _ _
  · intro e
    rw [stream_of k2] at e
    exact hd e.1
theorem takeFirst_spec {α : Type} {p : α → Bool} : ∀ {l : List α} {x r}, takeFirst p l = some (x, r) → p x = true ∧ l.find? p = some x
  | [], _, _, h => nomatch h
  | a :: t, x, r, h => by
    unfold takeFirst at h
    split at h
    · rename_i hp; injection h with h; injection h with h1 h2; subst h1; exact ⟨hp, by rw [List.find?_cons, hp]⟩
    · rename_i hp
      split at h
      · cases h
      · rename_i b r' e
        injection h with h; injection h with h1 h2; subst h1
        have := takeFirst_spec e
        exact ⟨this.1, by rw [List.find?_cons]; simp [hp, this.2]⟩
theorem tidy_xfers (s : State) : s.tidy.xfers = s.xfers := (State.tidy_only (Within.refl _) (OnlyChanges.refl s)).use .xfers rfl
theorem tidy_streams (s : State) : s.tidy.streams = s.streams := (State.tidy_only (Within.refl _) (OnlyChanges.refl s)).use .streams rfl
theorem chargeXfer_x (s : State) (c g n f) : (s.chargeXfer c g n f).xfers = s.xfers ∧ (s.chargeXfer c g n f).streams = s.streams ∧ (s.chargeXfer c g n f).objs = s.objs ∧ (s.chargeXfer c g n f).clk = s.clk ∧ (s.chargeXfer c g n f).gfe = s.gfe := by
  have h := State.chargeXfer_only (Within.refl _) (OnlyChanges.refl s) c g n f
  exact ⟨h.use .xfers rfl, h.use .streams rfl, h.use .objs rfl, h.use .clk rfl, h.use .gfe rfl⟩
theorem lastCommit_of {s t : State} {n : Nat} (h : ∀ ix, (t.stream n ix).landedAt = (s.stream n ix).landedAt) : t.lastCommit n = s.lastCommit n := by
  unfold State.lastCommit
  simp only [h]
theorem commitFill_parts (s : State) (hc : s.Canon) (n ix) (f : StrFill) (hf : s.fenceOk (op32 (s.stream n ix).slot 44) = false) :
    (s.commitFill n ix f).xfers = s.xfers ∧ ((s.commitFill n ix f).stream n ix).landed = (s.stream n ix).landed + 1 := by
  unfold State.commitFill
  extract_lets +onlyGivenNames t
  extract_lets +onlyGivenNames b
  extract_lets +onlyGivenNames late
  extract_lets +onlyGivenNames s1
  have e1 : s1.xfers = s.xfers ∧ s1.gfe.fences = s.gfe.fences := by
    have a := State.writeFill_only (Within.refl _) (OnlyChanges.refl s) b f
    have c := State.flipAll_only (Within.refl _) (OnlyChanges.refl (s.writeFill b f)) f.shadows
    exact ⟨(c.use .xfers rfl).trans (a.use .xfers rfl), (c.use .fences rfl).trans (a.use .fences rfl)⟩
  have c1 : s1.Canon := (State.flipAll_keeps (State.writeFill_keeps (Keeps.refl s) b f) f.shadows).canon hc
  clear_value s1
  extract_lets +onlyGivenNames t1
  extract_lets +onlyGivenNames spent
  extract_lets +onlyGivenNames s2
  have e2 : s2.xfers = s.xfers ∧ (s2.stream n ix).landed = t.landed + 1 ∧ s2.gfe.fences = s.gfe.fences := by
    unfold s2
    refine ⟨e1.1, ?_, e1.2⟩
    rw [State.stream_setStream_self c1]
  clear_value s2
  extract_lets +onlyGivenNames s3
  have e3 : s3.xfers = s.xfers ∧ (s3.stream n ix).landed = t.landed + 1 ∧ s3.gfe.fences = s.gfe.fences := by
    unfold s3; split
    · have a := State.raise_only (Within.refl _) (OnlyChanges.refl s2) .clu n 0x21C 3
      exact ⟨(a.use .xfers rfl).trans e2.1, by rw [stream_of (a.use .streams rfl)]; exact e2.2.1, (a.use .fences rfl).trans e2.2.2⟩
    · exact e2
  clear_value s3
  extract_lets +onlyGivenNames s4
  have e4 : s4.xfers = s.xfers ∧ (s4.stream n ix).landed = t.landed + 1 ∧ s4.gfe.fences = s.gfe.fences := by
    unfold s4; split
    · have a := State.raise_only (Within.refl _) (OnlyChanges.refl s3) .clu n 0x21C 2
      exact ⟨(a.use .xfers rfl).trans e3.1, by rw [stream_of (a.use .streams rfl)]; exact e3.2.1, (a.use .fences rfl).trans e3.2.2⟩
    · exact e3
  clear_value s4
  rw [if_neg]
  · exact ⟨e4.1, e4.2.1⟩
  · intro e
    have : s4.fenceOk (op32 b 44) = s.fenceOk (op32 b 44) := by unfold State.fenceOk State.fence; rw [e4.2.2]
    rw [this] at e
    rw [show s.fenceOk (op32 b 44) = false from hf] at e
    cases e
theorem dropXfer_keepsStream (s : State) (n ix : Nat) (h : (s.stream n ix).state ≠ .disarming) : (s.dropXfer n).stream n ix = s.stream n ix := by
  unfold State.dropXfer
  split
  · rfl
  · rename_i x rest _
    simp only
    have k := (State.releaseReads_only (Within.refl _) (OnlyChanges.refl { s with xfers := rest }) [x.fid]).use .streams rfl
    generalize State.releaseReads { s with xfers := rest } [x.fid] = u at k ⊢
    have k2 : (if x.fid = 0 then u.keepSlots x.obj x.tile (u.slotHolders x.obj x.tile + u.farMoves x.obj x.tile) else u).streams = s.streams := by
      split <;> exact k
    generalize (if x.fid = 0 then u.keepSlots x.obj x.tile (u.slotHolders x.obj x.tile + u.farMoves x.obj x.tile) else u) = v at k2 ⊢
    split
    · rename_i hd
      by_cases e : x.ix = ix
      · subst e; rw [stream_of k2] at hd; exact absurd hd.1 h
      · rw [State.stream_setStream_other _ (by omega), stream_of k2]
    · exact stream_of k2 _ _
theorem freeShadows_canon {s : State} (hc : s.Canon) (l) : (s.freeShadows l).Canon := (State.freeShadows_keeps (Keeps.refl s) l).canon hc
theorem canon_xfers {s : State} (h : s.Canon) (xfers) : State.Canon { s with xfers := xfers } :=
  ⟨h.mem, h.regs, h.chans, h.cqs, h.accts, h.clus, h.cnts, h.pslots, h.scales, h.frames, h.streams, h.fences, h.objs⟩
theorem stopStream_parts (s : State) (hc : s.Canon) (n ix) : (s.stopStream n ix).stream n ix = { s.stream n ix with fills := [] } ∧ (s.stopStream n ix).Canon ∧
    (s.stopStream n ix).inFlight n ix = s.inFlight n ix := by
  have hk := (State.freeShadows_only (Within.refl _) (OnlyChanges.refl s) ((s.stream n ix).fills.flatMap StrFill.shadows)).use .xfers rfl
  refine ⟨?_, (State.stopStream_keeps (Keeps.refl s) n ix).canon hc, ?_⟩
  · unfold State.stopStream
    exact State.stream_setStream_self (freeShadows_canon hc _) _ _ _
  · unfold State.stopStream State.inFlight
    simp only
    rw [hk]
    induction s.xfers with
    | nil => rfl
    | cons a l ih =>
      rw [List.map_cons, List.filter_cons, List.filter_cons]
      have e : ((if a.clu = n ∧ a.ix = ix then { a with fill := none } else a : Xfer).clu == n && (if a.clu = n ∧ a.ix = ix then { a with fill := none } else a : Xfer).ix == ix) = (a.clu == n && a.ix == ix) := by
        split <;> rfl
      rw [e]
      split
      · simp only [List.length_cons]; rw [ih]
      · exact ih
theorem faultStream_parts (s : State) (hc : s.Canon) (n ix c k) : ((s.faultStream n ix c k).stream n ix).state = .faulted ∧ ((s.faultStream n ix c k).stream n ix).fault = (c, k) := by
  obtain ⟨h1, h2, h3⟩ := stopStream_parts s hc n ix
  unfold State.faultStream
  extract_lets +onlyGivenNames s1
  extract_lets +onlyGivenNames x1
  rw [stream_of ((State.raise_only (Within.refl _) (OnlyChanges.refl _) _ _ _ _).use .streams rfl), State.stream_setStream_self h2]
  exact ⟨rfl, rfl⟩
theorem dropXfer_faultStream (s : State) (n ix c k) (hc : s.Canon) : (((s.faultStream n ix c k).dropXfer n).stream n ix).state = .faulted ∧ (((s.faultStream n ix c k).dropXfer n).stream n ix).fault = (c, k) := by
  obtain ⟨h1, h2⟩ := faultStream_parts s hc n ix c k
  rw [dropXfer_keepsStream _ _ _ (by rw [h1]; decide)]
  exact ⟨h1, h2⟩
theorem chargeXfer_canon {s : State} (hc : s.Canon) (c g n f) : (s.chargeXfer c g n f).Canon := (State.chargeXfer_keeps (Keeps.refl s) c g n f).canon hc
theorem streamTransfer_got (s : State) (n : Nat) (x : Xfer) (rest : List Xfer) (num : Nat) (f : StrFill) (hc : s.Canon)
    (hx : takeFirst (fun y : Xfer => y.clu == n) s.xfers = some (x, rest)) (ha : (s.stream n x.ix).state = .armed) (e : StrFill)
    (hf : (s.stream n x.ix).fills.find? (fun f => f.num == num) = some f)
    (hp : (s.frame x.fid).state ≠ .poisoned) (hh : (s.frame x.fid).state = .home → s.headFault x.fid x.obj x.tile = none)
    (he : e = { f with got := f.got ++ [⟨x.obj, x.tile, s.data x.fid, s.scaleSeq x.fid, s.tileScale x.fid⟩], latency := max f.latency (x.latency x.fid) })
    (hsk : ∀ o, s.obj? f.range.src = some o → e.skew o = none) (hcl : x.clu = n) :
    (e.got.length < e.total → (s.readXfer x num x.fid none).xfers = rest ∧ (s.readXfer x num x.fid none).stream n x.ix =
      { s.stream n x.ix with fills := (s.stream n x.ix).fills.map (fun y => if y.num = num then e else y) }) ∧
    (e.total ≤ e.got.length → s.fenceOk (op32 (s.stream n x.ix).slot 44) = false → s.mayCommit n e = true →
      (s.readXfer x num x.fid none).xfers = rest ∧ ((s.readXfer x num x.fid none).stream n x.ix).landed = (s.stream n x.ix).landed + 1) := by
  unfold State.readXfer
  rw [hcl]
  extract_lets +onlyGivenNames t
  rw [show t.fills.find? (fun f => f.num == num) = some f from hf]
  simp -zeta only
  extract_lets +onlyGivenNames isHome
  extract_lets +onlyGivenNames fault
  have hfault : fault = none := by
    unfold fault
    split
    · rename_i h; exact hh (by simpa [isHome] using h)
    · rfl
  clear_value fault
  subst hfault
  rw [if_neg hp]
  simp -zeta only
  extract_lets +onlyGivenNames e1
  have he1 : e1 = e := he.symm
  clear_value e1
  rw [he1]
  clear he1 e1
  simp only
  generalize hs1 : (s.chargeXfer t.chan t.gen n x.fid).setStream n x.ix { t with fills := t.fills.map (fun y => if y.num = num then e else y) } = s1
  obtain ⟨a1, a2, a3, a4, a5⟩ := chargeXfer_x s t.chan t.gen n x.fid
  have c0 := chargeXfer_canon hc t.chan t.gen n x.fid
  have b1 : s1.xfers = s.xfers := by rw [← hs1]; exact a1
  have b2 : s1.stream n x.ix = { t with fills := t.fills.map (fun y => if y.num = num then e else y) } := by
    rw [← hs1]; exact State.stream_setStream_self c0 _ _ _
  have b3 : ∀ j, (s1.stream n j).landedAt = (s.stream n j).landedAt := by
    intro j
    by_cases ej : j = x.ix
    · rw [ej, b2]
    · rw [← hs1, State.stream_setStream_other _ (by omega), stream_of a2]
  have b4 : s1.gfe.fences = s.gfe.fences := by rw [← hs1]; show (s.chargeXfer t.chan t.gen n x.fid).gfe.fences = _; rw [a5]
  have c1 : s1.Canon := by rw [← hs1]; exact (State.setStream_keeps (Keeps.refl _) _ _ _).canon c0
  have bx : takeFirst (fun y : Xfer => y.clu == n) s1.xfers = some (x, rest) := by rw [b1]; exact hx
  have bd : (s1.stream n x.ix).state ≠ .disarming := by rw [b2]; show t.state ≠ _; rw [ha]; decide
  have T : (e.got.length < e.total → ((if e.got.length < e.total then s1.dropXfer n else if s.mayCommit n e = true then ((s1.dropXfer n).commitFill n x.ix e).tidy else s)).xfers = rest ∧
      ((if e.got.length < e.total then s1.dropXfer n else if s.mayCommit n e = true then ((s1.dropXfer n).commitFill n x.ix e).tidy else s)).stream n x.ix =
      { s.stream n x.ix with fills := (s.stream n x.ix).fills.map (fun y => if y.num = num then e else y) }) ∧
    (e.total ≤ e.got.length → s.fenceOk (op32 (s.stream n x.ix).slot 44) = false → s.mayCommit n e = true →
      ((if e.got.length < e.total then s1.dropXfer n else if s.mayCommit n e = true then ((s1.dropXfer n).commitFill n x.ix e).tidy else s)).xfers = rest ∧
      (((if e.got.length < e.total then s1.dropXfer n else if s.mayCommit n e = true then ((s1.dropXfer n).commitFill n x.ix e).tidy else s)).stream n x.ix).landed = (s.stream n x.ix).landed + 1) := by
    refine ⟨fun hl => ?_, fun hl hfe hm => ?_⟩
    · rw [if_pos hl]
      exact ⟨dropXfer_xfers s1 n x rest bx, (dropXfer_stream s1 n x rest bx bd _).trans b2⟩
    · rw [if_neg (Nat.not_lt_of_le hl), if_pos hm]
      have c2 : (s1.dropXfer n).Canon := (State.dropXfer_keeps (Keeps.refl s1) n).canon c1
      have d1 := dropXfer_xfers s1 n x rest bx
      have d2 := (dropXfer_stream s1 n x rest bx bd x.ix).trans b2
      have d3 : (s1.dropXfer n).gfe = s1.gfe := (State.dropXfer_only (Within.refl _) (OnlyChanges.refl s1) n).use .gfe rfl
      obtain ⟨g1, g2⟩ := commitFill_parts (s1.dropXfer n) c2 n x.ix e (by
        rw [d2]
        unfold State.fenceOk State.fence at *
        rw [d3, b4]; exact hfe)
      rw [tidy_xfers, stream_of (tidy_streams _)]
      refine ⟨g1.trans d1, g2.trans ?_⟩
      rw [d2]
  cases hq : s.obj? f.range.src with
  | none => exact T
  | some o =>
    simp only
    rw [hsk o hq]
    exact T
theorem readXfer_bad (s : State) (n : Nat) (x : Xfer) (num : Nat) (f : StrFill) (c : PoisonCause) (hc : s.Canon)
    (hf : (s.stream n x.ix).fills.find? (fun f => f.num == num) = some f) (hcl : x.clu = n) :
    ∃ z : State, z.Canon ∧ s.readXfer x num x.fid (some c) = (z.faultStream n x.ix 1 (x.tile % 2 ^ 24)).dropXfer n := by
  unfold State.readXfer
  rw [hcl]
  simp only
  rw [hf]
  simp only
  split
  · exact ⟨s, hc, rfl⟩
  · refine ⟨_, ?_, rfl⟩
    split
    · exact (State.poisonFrame_keeps (Keeps.refl s) x.fid c).canon hc
    · exact hc
end Sys2Proof.Machine
end

