-- ==== Sys2Proof/Laws/Registers.lean ====
section
/-! SUPPORT. The register file: a field reads back what was put, a status bit reads set once raised, and what a write plans and leaves.
The provers cite these lemmas in place of unfolding the operations. -/
namespace Sys2Proof.Machine
open Sys2Proof
theorem regGet_put {s : State} (h : s.Canon) (w i o v) : (s.regPut w i o v).regGet w i o = v % 2 ^ 32 := State.regGet_regPut_self h w i o v
theorem regGet_lt (s : State) (w i o) : s.regGet w i o < 2 ^ 32 := (Sparse.get regDefault s.reg.vals (regKey w i o)).isLt
theorem regGet_of {s t : State} (h : t.reg.vals = s.reg.vals) (w i o) : t.regGet w i o = s.regGet w i o := by unfold State.regGet; rw [h]
theorem regGet_endStep (s : State) (w i o) : s.endStep.regGet w i o = s.regGet w i o := rfl
theorem regPut_canon {s : State} (h : s.Canon) (w i o v) : (s.regPut w i o v).Canon := (State.regPut_keeps (Keeps.refl s) w i o v).canon h
theorem events_reg (s : State) (w o b l) : (State.statusEvents s w o b l).reg = s.reg := (State.statusEvents_only (Within.refl _) (OnlyChanges.refl s) w o b l).use .reg rfl
theorem statusSet_get {s : State} (h : s.Canon) (w i o bits) (hb : bits ≠ 0) (hl : bits < 2 ^ 24) :
    ∃ q, q < 256 ∧ (s.statusSet w i o bits).regGet w i o = q * 2 ^ 24 + (s.regGet w i o % 2 ^ 24 ||| bits) ∧
      (s.reg.raised = [] → q = (s.regGet w i o / 2 ^ 24 + 1) % 256) := by
  have hor : s.regGet w i o % 2 ^ 24 ||| bits < 2 ^ 24 := Nat.or_lt_two_pow (Nat.mod_lt _ (by decide)) hl
  have hg := regGet_lt s w i o
  unfold State.statusSet
  rw [if_neg hb]
  extract_lets k r sq s1
  have hq : sq < 256 := by
    unfold sq; split
    · rw [Nat.shiftRight_eq_div_pow]; show s.regGet w i o / 2 ^ 24 < 256; omega
    · exact Nat.mod_lt _ (by decide)
  have h1 : s1.regGet w i o = sq * 2 ^ 24 + (s.regGet w i o % 2 ^ 24 ||| bits) := by
    unfold s1
    rw [regGet_put h]
    exact Nat.mod_eq_of_lt (by show sq * 2 ^ 24 + (s.regGet w i o % 2 ^ 24 ||| bits) < 2 ^ 32; omega)
  refine ⟨sq, hq, ?_, fun hr => ?_⟩
  · split
    · exact h1
    · exact h1
  · unfold sq; rw [hr]
    show (if ([] : List Nat).contains k = true then _ else _) = _
    rw [if_neg (by simp), Nat.shiftRight_eq_div_pow]
theorem raise_bit {s : State} (h : s.Canon) (w i o) (bit : Nat) (hb : bit < 24) : ((s.raise w i o bit).regGet w i o).testBit bit = true := by
  unfold State.raise
  rw [regGet_of (congrArg RegFile.vals (events_reg _ _ _ _ _))]
  obtain ⟨q, hq, e, _⟩ := statusSet_get h w i o (2 ^ bit) (Nat.ne_of_gt (Nat.two_pow_pos _)) (Nat.pow_lt_pow_right (by decide) hb)
  rw [e]
  have hor : s.regGet w i o % 2 ^ 24 ||| 2 ^ bit < 2 ^ 24 := Nat.or_lt_two_pow (Nat.mod_lt _ (by decide)) (Nat.pow_lt_pow_right (by decide) hb)
  rw [Nat.mul_comm, Nat.testBit_two_pow_mul_add _ hor, if_pos hb, Nat.testBit_or]
  simp
theorem ignored_bit {s : State} (h : s.Canon) (w i o) : ((s.ignored w i o).regGet w i o).testBit 0 = true := raise_bit h w i o 0 (by decide)
theorem noteIgnored_bit {s : State} (h : s.Canon) (a l r) : ((s.noteIgnored a l r).regGet l.w (s.itemAt a l.w l.clu r.status) r.status).testBit 0 = true :=
  ignored_bit h _ _ _
theorem fld_fldPut {s : State} (h : s.Canon) (w i o) {msb lsb : Nat} (v) (h1 : lsb ≤ msb) (h2 : msb < 32) :
    (s.fldPut w i o msb lsb v).fld w i o msb lsb = v % 2 ^ (msb + 1 - lsb) := by
  unfold State.fld State.fldPut
  simp only
  rw [regGet_put h]
  have hr := regGet_lt s w i o
  generalize s.regGet w i o = r at *
  obtain ⟨k, hk⟩ : ∃ k, msb + 1 - lsb = k := ⟨_, rfl⟩
  have e32 : (2 : Nat) ^ 32 = 2 ^ lsb * (2 ^ k * 2 ^ (32 - (lsb + k))) := by
    rw [← Nat.pow_add, ← Nat.pow_add]; congr 1; omega
  unfold bitsOf
  rw [hk, Nat.shiftRight_eq_div_pow, Nat.shiftRight_eq_div_pow]
  have pL := Nat.two_pow_pos lsb
  have pK := Nat.two_pow_pos k
  generalize (2 : Nat) ^ (32 - (lsb + k)) = M at e32
  rw [e32] at hr ⊢
  generalize (2 : Nat) ^ lsb = L at *
  generalize (2 : Nat) ^ k = K at *
  -- r = (A*K + B)*L + C
  have hC := Nat.div_add_mod r L
  have hB := Nat.div_add_mod (r / L) K
  have lC := Nat.mod_lt r pL
  have lB := Nat.mod_lt (r / L) pK
  generalize r / L / K = A at *
  generalize r / L % K = B at *
  generalize r % L = C at *
  have hA : A < M := by
    rcases Nat.lt_or_ge A M with h | h
    · exact h
    · exfalso
      have : L * (K * M) ≤ L * (K * A) := Nat.mul_le_mul_left _ (Nat.mul_le_mul_left _ h)
      have h3 : L * (K * A) ≤ L * (r / L) := Nat.mul_le_mul_left _ (by omega)
      omega
  have lV := Nat.mod_lt v pK
  generalize v % K = V at *
  have hnew : r - B * L + V * L = L * (K * A + V) + C := by
    have : r = L * (K * A) + B * L + C := by rw [← hC, ← hB, Nat.mul_add, Nat.mul_comm L B]
    rw [Nat.mul_add, Nat.mul_comm L V]; omega
  rw [hnew]
  have hlt : L * (K * A + V) + C < L * (K * M) := by
    have h1 : K * A + V + 1 ≤ K * M := by
      have : K * A + K ≤ K * M := by rw [← Nat.mul_succ]; exact Nat.mul_le_mul_left _ hA
      omega
    have h2 : L * (K * A + V + 1) ≤ L * (K * M) := Nat.mul_le_mul_left _ h1
    rw [Nat.mul_succ] at h2; omega
  rw [Nat.mod_eq_of_lt hlt, Nat.mul_add_div pL, Nat.div_eq_of_lt lC, Nat.add_zero, Nat.mul_add_mod, Nat.mod_eq_of_lt lV]
theorem fldPut_canon {s : State} (h : s.Canon) (w i o m l v) : (s.fldPut w i o m l v).Canon := (State.fldPut_keeps (Keeps.refl s) w i o m l v).canon h
theorem planTgt_id {w : Win} {off kind} (h : w = .mem → off ≠ 0x060) (x) : planTgt w off kind x = x := by
  unfold planTgt
  split
  · exact absurd rfl (h rfl)
  · rfl
theorem foldl_const {α β : Type} {F : β → α → β} (p : List α) (s : β) (h : ∀ x ∈ p, ∀ t, F t x = t) : p.foldl F s = s := by
  induction p generalizing s with
  | nil => rfl
  | cons x p ih =>
    rw [List.foldl_cons, h x List.mem_cons_self]
    exact ih _ (fun y hy => h y (List.mem_cons_of_mem _ hy))
theorem foldl_map_t {g : RField → Nat → Nat} (x : Nat) (fs : List RField) (h : ∀ f ∈ fs, f.eff = .t) (k0 : Nat)
    (F : Nat → RField × Option Nat → Nat) (hF : ∀ k f, f.eff = .t → F k (f, some (bitsOf x f.msb f.lsb)) = g f k) :
    (fs.map (fun f => (f, some (bitsOf x f.msb f.lsb)))).foldl F k0 = fs.foldl (fun k f => g f k) k0 := by
  induction fs generalizing k0 with
  | nil => rfl
  | cons f fs ih =>
    rw [List.map_cons, List.foldl_cons, List.foldl_cons, hF _ _ (h f List.mem_cons_self)]
    exact ih (fun y hy => h y (List.mem_cons_of_mem _ hy)) _
theorem maskSum_pos (fs : List RField) (h : fs ≠ []) (hl : ∀ f ∈ fs, f.lsb ≤ f.msb) : fs.foldl (fun k f => k + maskOf f.msb f.lsb) 0 ≠ 0 := by
  have grow : ∀ (l : List RField) k, k ≤ l.foldl (fun k f => k + maskOf f.msb f.lsb) k := by
    intro l
    induction l with
    | nil => intro k; exact Nat.le_refl _
    | cons a l ih => intro k; exact Nat.le_trans (Nat.le_add_right _ _) (ih _)
  cases fs with
  | nil => exact absurd rfl h
  | cons f fs =>
    rw [List.foldl_cons]
    have h1 := grow fs (0 + maskOf f.msb f.lsb)
    have h2 : 0 < maskOf f.msb f.lsb := by
      unfold maskOf
      rw [Nat.shiftLeft_eq]
      have := hl f List.mem_cons_self
      have h3 : 2 ≤ 2 ^ (f.msb + 1 - f.lsb) := by
        have := Nat.pow_le_pow_right (n := 2) (by decide) (show 1 ≤ f.msb + 1 - f.lsb by omega)
        simpa using this
      exact Nat.mul_pos (by omega) (Nat.two_pow_pos _)
    omega
theorem writeReg_loc {s : State} {a : Acc} {off d : Nat} {l : RegLoc} {r : RDef} (h1 : s.locate off = some l) (h2 : s.serves l = true) (h3 : regAt l.w l.off = some r) (h4 : r.events = 0) :
    s.writeReg a off d = s.writeFields a l r d := by
  unfold State.writeReg
  rw [h1]
  simp only
  rw [if_pos h2]
  unfold State.writeLoc
  rw [h3]
  simp only
  rw [if_pos h4]
theorem writeField_atTick (s : State) (a : Acc) (l : RegLoc) (r : RDef) (x : Nat) (hst : ∀ y d, State.startOps y a l d = y) (hal : l.als = 0) (htg : l.w = .mem → l.off ≠ 0x060)
    (hf : ∀ f ∈ r.fields, f.acc = .rw ∧ f.eff = .t ∧ s.fieldOk l.w (s.itemOf a l.w l.clu r.item) l.off f.lsb (bitsOf x f.msb f.lsb) = true)
    (hpb : s.planBad l.w (s.itemOf a l.w l.clu r.item) l.off (r.fields.map (fun f => (f, some (bitsOf x f.msb f.lsb)))) = false) (hne : r.fields ≠ [])
    (hl : ∀ f ∈ r.fields, f.lsb ≤ f.msb) :
    s.writeFields a l r x = s.latchT (regKey l.w (s.itemOf a l.w l.clu r.item) l.off) (r.fields.foldl (fun k f => k + maskOf f.msb f.lsb) 0)
      (r.fields.foldl (fun k f => k + bitsOf x f.msb f.lsb * 2 ^ f.lsb) 0) := by
  unfold State.writeFields
  generalize s.itemOf a l.w l.clu r.item = item at *
  extract_lets it plan0 kind plan p s1 s2 s3
  have e0 : plan0 = r.fields.map (fun f => (f, some (bitsOf x f.msb f.lsb), false)) := by
    unfold plan0
    refine List.map_congr_left (fun f hm => ?_)
    obtain ⟨a1, a2, a3⟩ := hf f hm
    unfold State.planField
    simp only
    rw [a1]
    simp only
    rw [hal, a2]
    simp only [aliasVal]
    rw [if_neg (by simp), if_neg (by simp), if_pos a3]
  have e1 : plan = plan0 := by
    unfold plan
    rw [show planTgt l.w l.off kind = id from funext (fun y => planTgt_id htg y), List.map_id]
  have e2 : p = r.fields.map (fun f => (f, some (bitsOf x f.msb f.lsb))) := by
    unfold p; rw [e1, e0, List.map_map]; rfl
  have hall : ∀ y ∈ p, y.1.eff = .t := by
    rw [e2]; intro y hy
    obtain ⟨f, hm, rfl⟩ := List.mem_map.mp hy
    exact (hf f hm).2.1
  rw [e2, hpb]
  simp only [Bool.false_eq_true, if_false]
  have hs1 : s1 = s.latchT (regKey l.w it l.off) (r.fields.foldl (fun k f => k + maskOf f.msb f.lsb) 0)
      (r.fields.foldl (fun k f => k + bitsOf x f.msb f.lsb * 2 ^ f.lsb) 0) := by
    unfold s1 State.applyPlan
    extract_lets now mask val
    have ht : ∀ f ∈ r.fields, f.eff = .t := fun f hm => (hf f hm).2.1
    have hn : now = s := by
      refine foldl_const _ _ (fun y hy t => ?_)
      obtain ⟨f, v⟩ := y
      cases v with
      | none => rfl
      | some v => exact if_pos (hall _ hy)
    have hm : mask = r.fields.foldl (fun k f => k + maskOf f.msb f.lsb) 0 := by
      unfold mask; rw [e2]
      exact foldl_map_t (g := fun f k => k + maskOf f.msb f.lsb) x r.fields ht 0 _ (fun k f h => if_pos ⟨h, rfl⟩)
    have hv : val = r.fields.foldl (fun k f => k + bitsOf x f.msb f.lsb * 2 ^ f.lsb) 0 := by
      unfold val; rw [e2]
      exact foldl_map_t (g := fun f k => k + bitsOf x f.msb f.lsb * 2 ^ f.lsb) x r.fields ht 0 _ (fun k f h => if_pos h)
    rw [hn, hm, hv, if_neg (maskSum_pos _ hne hl)]
  have hs2 : s2 = s1 := by
    unfold s2 State.afterWrite
    simp only
    rw [if_pos]
    rw [Bool.not_eq_true', List.any_eq_false]
    intro y hy
    rw [hall y hy]
    simp
  have hs3 : s3 = s1 := by
    unfold s3
    rw [if_neg]
    · exact hs2
    · rw [e1, e0, Bool.not_eq_true, List.any_eq_false]
      intro y hy
      obtain ⟨f, hm, rfl⟩ := List.mem_map.mp hy
      simp
  rw [if_pos hal, hst, hs3, hs1]
theorem writeField_atOnce (s : State) (a : Acc) (l : RegLoc) (r : RDef) (x : Nat) (f : RField) (hst : ∀ y d, State.startOps y a l d = y) (htg : l.w = .mem → l.off ≠ 0x060)
    (hg : l.w ≠ .gfe) (hfa : l.w ≠ .fab) (hr : r.fields = [f]) (ha : f.acc = .rw) (he : f.eff = .i) (hok : Bool)
    (v : Nat) (hv : v = aliasVal l.als (s.fld l.w (s.itemOf a l.w l.clu r.item) l.off f.msb f.lsb) (bitsOf x f.msb f.lsb))
    (hf : s.fieldOk l.w (s.itemOf a l.w l.clu r.item) l.off f.lsb v = hok)
    (hpb : s.planBad l.w (s.itemOf a l.w l.clu r.item) l.off [(f, if hok then some v else none)] = false) :
    s.writeFields a l r x = if hok then s.fldPut l.w (s.itemOf a l.w l.clu r.item) l.off f.msb f.lsb v else s.noteIgnored a l r := by
  unfold State.writeFields
  generalize s.itemOf a l.w l.clu r.item = item at *
  extract_lets it plan0 kind plan p s1 s2 s3
  have e0 : plan0 = [(f, (if hok then some v else none), !hok)] := by
    unfold plan0
    rw [hr, List.map_cons, List.map_nil]
    congr 2
    unfold State.planField
    simp only
    rw [ha]
    simp only
    rw [he]
    simp only [reduceCtorEq, false_and, if_false]
    rw [← hv, hf]
    cases hok <;> rfl
  have e1 : plan = plan0 := by
    unfold plan
    rw [show planTgt l.w l.off kind = id from funext (fun y => planTgt_id htg y), List.map_id]
  have e2 : p = [(f, if hok then some v else none)] := by
    unfold p; rw [e1, e0]; rfl
  rw [e2, hpb]
  simp only [Bool.false_eq_true, if_false]
  have hs1 : s1 = if hok then s.fldPut l.w it l.off f.msb f.lsb v else s := by
    unfold s1 State.applyPlan
    rw [e2]
    cases hok
    · simp [he]
    · simp [he]
  have hs2 : s2 = s1 := by
    unfold s2 State.afterWrite
    simp only
    split
    · rfl
    · cases hw : l.w <;> first | exact absurd hw hg | exact absurd hw hfa | rfl
  have hs3 : s3 = if hok then s.fldPut l.w it l.off f.msb f.lsb v else s.noteIgnored a l r := by
    unfold s3
    rw [e1, e0, hs2, hs1]
    cases hok <;> simp
  rw [hst, ite_self, hs3]
theorem takeFree_out (s : State) : s.takeFree.2.out = s.out := rfl
theorem fence_of {s t : State} (h : t.gfe.fences = s.gfe.fences) (n) : t.fence n = s.fence n := by unfold State.fence; rw [h]
theorem acc_of {s t : State} (h1 : t.reg.hostAcc = s.reg.hostAcc) (h2 : t.reg.sbAcc = s.reg.sbAcc) (a) : t.accState a = s.accState a := by cases a <;> assumption
theorem sfld_of {s t : State} (h : t.reg.vals = s.reg.vals) (w i o m l) : t.fld w i o m l = s.fld w i o m l := by unfold State.fld; rw [regGet_of h]
theorem takeShadow_foldl (fs : List Nat) (s : State) : (fs.foldl (fun t f => t.takeShadow f 0 0 3) s).sec = s.sec ∧ (fs.foldl (fun t f => t.takeShadow f 0 0 3) s).sup = s.sup :=
  foldl_invariant (P := fun t => t.sec = s.sec ∧ t.sup = s.sup) (f := fun t f => t.takeShadow f 0 0 3) (fun _ _ h => h) fs s ⟨rfl, rfl⟩
theorem startUpdate_ok (s : State) (op : Nat) (fs) (hu : s.sec.upd ≠ 1) (hf : s.updateFrames = some fs) (hi : s.sup.inhibit = false) :
    (s.startUpdate op).sec.upd = 1 ∧ (s.startUpdate op).sec.updOp = op := by
  unfold State.startUpdate
  rw [if_neg hu]
  extract_lets +onlyGivenNames x0
  extract_lets +onlyGivenNames s1
  rw [show s1.updateFrames = some fs from hf]
  simp only
  have h := takeShadow_foldl fs s1
  have hs : s1.sec.upd = 1 ∧ s1.sec.updOp = op := ⟨rfl, rfl⟩
  have hi1 : s1.sup = s.sup := rfl
  generalize List.foldl _ s1 fs = s2 at h ⊢
  rw [if_neg (by rw [h.2, hi1, hi]; decide), h.1]
  exact hs
theorem endUpdate_sec (s : State) (c : Nat) (h : s.sec.upd = 1) : (s.endUpdate c).sec = { s.sec with upd := c, updOp := 0 } := by
  unfold State.endUpdate
  rw [if_neg (by simp [h])]
  rw [(State.raise_only (Within.refl _) (OnlyChanges.refl _) _ _ _ _).use .sec rfl]
theorem sec_endStep (s : State) : s.endStep.sec = s.sec := rfl
theorem resume_sec (s : State) : s.resumeUnits.sec = s.sec := (State.resumeUnits_only (Within.refl _) (OnlyChanges.refl s)).use .sec rfl
theorem event_sec (s : State) (e) : (s.raiseEvent e).sec = s.sec := (State.raiseEvent_only (Within.refl _) (OnlyChanges.refl s) e).use .sec rfl
theorem recovered_warm (s : State) (h : s.sec.warm = true) : s.recovered.sec.recovery = false ∧ s.recovered.sec.warm = false ∧ s.recovered.sec.fwStored = s.sec.fwStored := by
  unfold State.recovered
  extract_lets +onlyGivenNames x0
  extract_lets +onlyGivenNames s1
  rw [if_pos h]
  rw [event_sec, resume_sec]
  exact ⟨rfl, rfl, rfl⟩
theorem winRegs_events (w : Win) : (winRegs w).all (fun r => decide (r.events ≤ 24)) = true := by cases w <;> decide
theorem regAt_events {w off r} (h : regAt w off = some r) : r.events ≤ 24 := by
  have := List.mem_of_find?_eq_some h
  have h2 := List.all_eq_true.mp (winRegs_events w) r this
  simpa using h2
theorem statusReg_events {s : State} {off l r} (h : s.statusReg off = some (l, r)) : r.events ≤ 24 := by
  unfold State.statusReg at h
  split at h
  · cases h
  · split at h
    · cases h
    · split at h
      · rename_i e
        split at h
        · injection h with h; injection h with h1 h2; subst h1 h2; exact regAt_events e
        · cases h
      · cases h
theorem clear_keeps_seq {v m : Nat} (hm : m < 2 ^ 24) : (v - (v &&& m)) / 2 ^ 24 = v / 2 ^ 24 := by
  have h0 : v &&& m = (v % 2 ^ 24) &&& m := by
    apply Nat.eq_of_testBit_eq
    intro i
    simp only [Nat.testBit_and, Nat.testBit_mod_two_pow]
    by_cases hi : i < 24
    · simp [hi]
    · have : m.testBit i = false := Nat.testBit_lt_two_pow (Nat.lt_of_lt_of_le hm (Nat.pow_le_pow_right (by decide) (Nat.le_of_not_lt hi)))
      simp [this]
  have h1 : v &&& m ≤ v % 2 ^ 24 := by rw [h0]; exact Nat.and_le_left
  omega
theorem chanIgnored_spec {s : State} (hc : s.Canon) (c) : (s.chanIgnored c).endStep.chan c = s.chan c ∧ ((s.chanIgnored c).endStep.regGet .gfe c 0x22C).testBit 0 = true := by
  refine ⟨?_, ?_⟩
  · rw [endStep_chan]; exact chan_of (raise_chans _ _ _ _ _) _
  · rw [regGet_endStep]; exact ignored_bit hc _ _ _
theorem readReg_unlisted {s : State} {off a} (h : ∀ l, s.locate off = some l → regAt l.w l.off = none) (hr : off < 0x2000000 ∨ (0x2010000 ≤ off ∧ off < bar2)) :
    s.readReg a off = (0, s) := by
  have h2 : ¬ bar2 ≤ off := by unfold bar2 at *; omega
  unfold State.readReg
  rw [if_neg (by omega), if_neg h2]
  cases e : s.locate off with
  | none => rfl
  | some l =>
    simp only
    unfold State.readLoc
    split
    · rfl
    · rw [h l e]
theorem writeReg_unlisted {s : State} {off a} (h : ∀ l, s.locate off = some l → regAt l.w l.off = none) (x) :
    s.writeReg a off x = s ∧ s.writeBadSize a off = s := by
  unfold State.writeReg State.writeBadSize
  cases e : s.locate off with
  | none => exact ⟨rfl, rfl⟩
  | some l =>
    simp only
    refine ⟨?_, ?_⟩
    · split
      · unfold State.writeLoc; rw [h l e]
      · rfl
    · split
      · rfl
      · rw [h l e]
theorem locate_of_mirror (s : State) (k x y : Nat) (hk : k < 9 ∨ (256 ≤ k ∧ k < 256 + s.nClus ∧ k < 512)) (hx : x < 65536) (hy : y < 65536)
    (h1 : x / 4096 % 4 = y / 4096 % 4) (h2 : x % imageSize (if k < 9 then winOf k else .clu) / 4 = y % imageSize (if k < 9 then winOf k else .clu) / 4) :
    s.locate (k * 65536 + x) = s.locate (k * 65536 + y) := by
  unfold State.locate
  rcases hk with hk | ⟨hk, hk2, hk3⟩
  · rw [if_pos (show k * 65536 + x < 0x90000 by omega), if_pos (show k * 65536 + y < 0x90000 by omega)]
    rw [if_pos hk] at h2
    have e1 : (k * 65536 + x) / 65536 = k := by omega
    have e2 : (k * 65536 + y) / 65536 = k := by omega
    have e3 : (k * 65536 + x) % 65536 = x := by omega
    have e4 : (k * 65536 + y) % 65536 = y := by omega
    rw [e1, e2, e3, e4]
    unfold regLoc
    rw [h1, h2]
  · rw [if_neg (show ¬(k < 9) by omega)] at h2
    have a1 : ¬(k * 65536 + x < 589824) := by omega
    have a2 : ¬(k * 65536 + x < 16777216) := by omega
    have a3 : k * 65536 + x < 16777216 + s.nClus * 65536 := by omega
    rw [if_neg a1, if_neg a2, if_pos a3]
    have b1 : ¬(k * 65536 + y < 589824) := by omega
    have b2 : ¬(k * 65536 + y < 16777216) := by omega
    have b3 : k * 65536 + y < 16777216 + s.nClus * 65536 := by omega
    rw [if_neg b1, if_neg b2, if_pos b3]
    have e1 : (k * 65536 + x - 16777216) / 65536 = k - 256 := by
      obtain ⟨j, rfl⟩ := Nat.exists_eq_add_of_le hk
      have : (256 + j) * 65536 + x - 16777216 = j * 65536 + x := by omega
      rw [this]; omega
    have e2 : (k * 65536 + y - 16777216) / 65536 = k - 256 := by
      obtain ⟨j, rfl⟩ := Nat.exists_eq_add_of_le hk
      have : (256 + j) * 65536 + y - 16777216 = j * 65536 + y := by omega
      rw [this]; omega
    have e3 : (k * 65536 + x) % 65536 = x := by omega
    have e4 : (k * 65536 + y) % 65536 = y := by omega
    rw [e1, e2, e3, e4]
    unfold regLoc
    rw [h1, h2]
theorem lowest_some {x : Nat} {l : List Nat} : ∃ n, lowest (x :: l) = some n := by
  show ∃ n, (match lowest l with | none => some x | some b => some (min x b)) = some n
  cases lowest l with
  | none => exact ⟨_, rfl⟩
  | some b => exact ⟨_, rfl⟩
end Sys2Proof.Machine
end

