-- ==== Sys2Proof/Laws/Links.lean ====
section
/-! SUPPORT. The host attachment: apertures, link up and down, function reset, and what each leaves.
The provers cite these lemmas in place of unfolding the operations. -/
namespace Sys2Proof.Machine
open Sys2Proof
theorem mem_open {s : State} {dpa} (h : s.memOpen dpa = true) : ∀ t : State, t.sb = s.sb → t.link = s.link → t.memOpen dpa = true := by
  intro t e1 e2
  unfold State.memOpen State.on State.linkUp at *
  rw [e1, e2]; exact h
theorem touch_parts (s : State) (f) : (s.touch f).mem = s.mem ∧ (s.touch f).out = s.out := by
  have h := State.touch_only (Within.refl _) (OnlyChanges.refl s) f
  exact ⟨h.use .mem rfl, h.use .out rfl⟩
theorem touch_state {s : State} (hc : s.Canon) (f) (h : (s.frame f).state ≠ .poisoned) : ((s.touch f).frame f).state ≠ .poisoned := by
  unfold State.touch
  split
  · exact h
  · split
    · rw [State.frame_setFrame_self hc]; exact h
    · exact h
theorem aptAccess_hit (s : State) (dpa : Nat) (a : MemAcc) (ha : a.dpa = dpa) (t x : Nat) (o : Obj) (f : Nat) (bad) (h1 : aptView (aptOff dpa) = some (t, x, false))
    (h2 : s.fld .cxl (aptSlot dpa) 0x04C 0 0 ≠ 0) (h3 : s.obj? (s.regGet .cxl (aptSlot dpa) 0x044) = some o)
    (h4 : s.fld .cxl (aptSlot dpa) 0x048 29 0 + t < o.tiles) (h5 : s.homeOf (s.regGet .cxl (aptSlot dpa) 0x044) (s.fld .cxl (aptSlot dpa) 0x048 29 0 + t) = some f) :
    s.aptAccess a bad = if tierOf f = 3 ∧ (s.frame f).state ≠ .poisoned then none
      else some (s.tileAccess a (s.regGet .cxl (aptSlot dpa) 0x044) (s.fld .cxl (aptSlot dpa) 0x048 29 0 + t) x false o f bad) := by
  unfold State.aptAccess
  rw [ha, h1]
  simp only
  rw [if_neg h2, h3]
  simp only
  rw [if_neg (Nat.not_le_of_lt h4), h5]
theorem out_endStep (s : State) : s.endStep.out = s.out := rfl
theorem bytes_endStep (s : State) (a n) : s.endStep.bytesAt a n = s.bytesAt a n := rfl
theorem match_if_some {p : Prop} [Decidable p] {x : State} {d : State} (h : ¬p) : (match (if p then none else some x : Option State) with | some s1 => s1 | none => d) = x := by
  rw [if_neg h]
theorem link_foldl {α : Type} {f : State → α → State} (hf : ∀ t x, (f t x).link = t.link) (l : List α) (s : State) : (l.foldl f s).link = s.link :=
  foldl_invariant (P := fun t => t.link = s.link) (fun t x h => (hf t x).trans h) l s rfl
theorem linkLoss_link (s : State) : s.linkLoss.link = { s.link with downs := satAdd 16 s.link.downs 1 } := by
  unfold State.linkLoss
  extract_lets +onlyGivenNames s1
  have h1 : s1.link = s.link := link_foldl (fun t c => (State.orphan_only (Within.refl _) (OnlyChanges.refl t) c).use .link rfl) _ s
  clear_value s1
  extract_lets +onlyGivenNames x0
  extract_lets +onlyGivenNames s2
  have h2 : s2.link = s.link := h1
  clear_value s2
  extract_lets +onlyGivenNames s3
  have h3 : s3.link = s.link := by
    refine (link_foldl (fun t d => ?_) _ s2).trans h2
    split
    · exact (State.loseWrite_only (Within.refl _) (OnlyChanges.refl t) _).use .link rfl
    · rfl
  clear_value s3
  extract_lets +onlyGivenNames s4
  have h4 : s4.link = s.link := ((State.killReads_only (Within.refl _) (OnlyChanges.refl s3)).use .link rfl).trans h3
  clear_value s4
  refine ((State.tidy_only (Within.refl _) (OnlyChanges.refl _)).use .link rfl).trans ?_
  refine ((State.raise_only (Within.refl _) (OnlyChanges.refl _) _ _ _ _).use .link rfl).trans ?_
  show { s4.link with downs := satAdd 16 s4.link.downs 1 } = _
  rw [h4]
theorem resetFunction_link (s : State) : s.resetFunction.link = { s.link with busMaster := false, msixEn := false, d3hot := false } := rfl
theorem takeDown_link (s : State) : s.takeDown.link = { s.link with
    downs := satAdd 16 s.link.downs 1, busMaster := false, msixEn := false, d3hot := false, cacheEn := false, memEn := false, hdm := none, state := .down, degraded := false } := by
  unfold State.takeDown State.resetConfig
  simp only
  rw [resetFunction_link, linkLoss_link]
theorem link_endStep (s : State) : s.endStep.link = s.link := rfl
theorem sb_endStep (s : State) : s.endStep.sb = s.sb := rfl
theorem takeDown_sb (s : State) : s.takeDown.sb = s.sb := (State.takeDown_only (Within.refl _) (OnlyChanges.refl s)).use .sb rfl
theorem linkUpAt_link (s : State) (w g) : (s.linkUpAt w g).link = { s.link with state := .up, width := w, gts := g, degraded := w != 16 || g != 32 } := by
  unfold State.linkUpAt
  simp only
  split
  · exact (State.raise_only (Within.refl _) (OnlyChanges.refl _) _ _ _ _).use .link rfl
  · rfl
theorem resumeHost_link (s : State) : s.resumeHost.link = s.link := (State.resumeHost_only (Within.refl _) (OnlyChanges.refl s)).use .link rfl
theorem sendPending_link (s : State) : s.sendPending.link = s.link := (State.sendPending_only (Within.refl _) (OnlyChanges.refl s)).use .link rfl
theorem pumps_link (s : State) (l) : ((s.pumpRings l).pumpAllLines).link = s.link :=
  ((State.pumpAllLines_only (Within.refl _) (OnlyChanges.refl _)).use .link rfl).trans ((State.pumpRings_only (Within.refl _) (OnlyChanges.refl s) l).use .link rfl)
theorem tryTrain_ok (s : State) (h1 : s.link.state = .down) (h2 : s.canTrain = true) : s.tryTrain.link = { s.link with state := .training } ∧ s.tryTrain.sb = s.sb := by
  unfold State.tryTrain
  rw [if_pos ⟨h1, h2⟩]; exact ⟨rfl, rfl⟩
theorem tryTrain_other (s : State) (h1 : s.link.state ≠ .down) : s.tryTrain = s := by
  unfold State.tryTrain
  rw [if_neg (fun e => h1 e.1)]
theorem sendPending_ok (s : State) (v) (ho : s.msixOpen = true) (hp : v ∈ s.host.pendVec) (hu : v ∈ s.host.unmasked) :
    Output.msix v ∈ s.sendPending.out ∧ v ∉ s.sendPending.host.pendVec := by
  unfold State.sendPending
  rw [if_neg (by simp [ho])]
  simp only
  have hgo : v ∈ s.host.pendVec.filter (fun v => s.host.unmasked.contains v) := List.mem_filter.mpr ⟨hp, by simpa using hu⟩
  generalize s.host.pendVec.filter (fun v => s.host.unmasked.contains v) = go at hgo
  have key : ∀ (l : List Nat) (t : State), (∀ x ∈ l, Output.msix x ∈ (l.foldl (fun t v => t.emit (.msix v)) t).out) ∧ (l.foldl (fun t v => t.emit (.msix v)) t).host = t.host ∧
      (∀ y ∈ t.out, y ∈ (l.foldl (fun t v => t.emit (.msix v)) t).out) := by
    intro l
    induction l with
    | nil => intro t; exact ⟨fun x h => (nomatch h), rfl, fun y h => h⟩
    | cons a l ih =>
      intro t
      obtain ⟨i1, i2, i3⟩ := ih (t.emit (.msix a))
      refine ⟨fun x h => ?_, i2, fun y h => i3 y (List.mem_append_left _ h)⟩
      rcases List.mem_cons.mp h with rfl | h
      · exact i3 _ (List.mem_append_right _ (List.mem_singleton.mpr rfl))
      · exact i1 x h
  obtain ⟨k1, k2, _⟩ := key go { s with host := { s.host with pendVec := s.host.pendVec.filter (fun v => !go.contains v) } }
  refine ⟨k1 v hgo, ?_⟩
  rw [k2]
  simp [hgo]
end Sys2Proof.Machine
end

