-- ==== Sys2Proof/Laws/FabricParts.lean ====
section
/-! SUPPORT. The fabric: flows, peers, acknowledgements, retransmission, served commands, and the parts each leaves alone.
The provers cite these lemmas in place of unfolding the operations. -/
namespace Sys2Proof.Machine
open Sys2Proof
/-- The fabric's parts that sending leaves alone. -/
structure SameFab (s t : State) : Prop where
  ports : t.fab.ports = s.fab.ports
  replies : t.fab.replies = s.fab.replies
  conflicts : t.fab.conflicts = s.fab.conflicts
  drops : t.fab.drops = s.fab.drops
  inbox : t.fab.inbox = s.fab.inbox
  reasm : t.fab.reasm = s.fab.reasm
  awaits : t.fab.awaits = s.fab.awaits
  reg : t.reg = s.reg
  out : s.out <+: t.out
theorem SameFab.refl (s) : SameFab s s := ⟨rfl, rfl, rfl, rfl, rfl, rfl, rfl, rfl, List.prefix_rfl⟩
theorem SameFab.trans {s t u} (a : SameFab s t) (b : SameFab t u) : SameFab s u :=
  ⟨b.1.trans a.1, b.2.trans a.2, b.3.trans a.3, b.4.trans a.4, b.5.trans a.5, b.6.trans a.6, b.7.trans a.7, b.8.trans a.8, a.9.trans b.9⟩
theorem SameFab.foldl {α : Type} {f : State → α → State} (hf : ∀ t x, SameFab t (f t x)) : ∀ (l : List α) (s : State), SameFab s (l.foldl f s)
  | [], s => SameFab.refl s
  | x :: l, s => (hf s x).trans (SameFab.foldl hf l _)
theorem emit_sameFab (s : State) (o) : SameFab s (s.emit o) := ⟨rfl, rfl, rfl, rfl, rfl, rfl, rfl, rfl, List.prefix_append _ _⟩
theorem setPeer_sameFab (s : State) (k e) : SameFab s (s.setPeer k e) := ⟨rfl, rfl, rfl, rfl, rfl, rfl, rfl, rfl, List.prefix_rfl⟩
theorem sendData_sameFab (s : State) (p d v f) : SameFab s (s.sendData p d v f) := emit_sameFab _ _
theorem pumpFlow_sameFab (s : State) (d v) : SameFab s (s.pumpFlow d v) := by
  unfold State.pumpFlow
  extract_lets +onlyGivenNames e
  split
  · exact SameFab.refl s
  · split
    · exact SameFab.refl s
    · extract_lets +onlyGivenNames gap fs new used s1
      exact (setPeer_sameFab s _ _).trans (SameFab.foldl (fun t x => sendData_sameFab t _ _ _ x) _ _)
theorem resendFlow_sameFab (s : State) (d v) : SameFab s (s.resendFlow d v) := by
  unfold State.resendFlow
  extract_lets +onlyGivenNames e
  split
  · exact SameFab.refl s
  · extract_lets +onlyGivenNames out
    split
    · exact SameFab.refl s
    · refine SameFab.trans ?_ (SameFab.foldl (fun t x => sendData_sameFab t _ _ _ x) _ _)
      exact ⟨rfl, rfl, rfl, rfl, rfl, rfl, rfl, rfl, List.prefix_rfl⟩
theorem SameFab.egress {s t : State} (h : SameFab s t) : SameFab s (s.egress t) :=
  ⟨h.1, h.2, h.3, h.4, h.5, h.6, h.7, h.8, List.prefix_append _ _⟩
theorem pumpAll_sameFab (s : State) : SameFab s s.pumpAll := (SameFab.foldl (fun t _ => pumpFlow_sameFab t _ _) _ s).egress
theorem moveFlows_sameFab (s : State) : SameFab s s.moveFlows := by
  unfold State.moveFlows
  refine SameFab.egress (SameFab.foldl (fun t k => ?_) _ _)
  extract_lets +onlyGivenNames e
  split
  · exact SameFab.refl t
  · split
    · exact SameFab.refl t
    · rename_i p _
      refine SameFab.trans ?_ (pumpFlow_sameFab _ _ _)
      split
      · exact SameFab.refl t
      · exact resendFlow_sameFab _ _ _
theorem sendDiscover_live (s : State) (p) (h : (s.port p).state = .up) (hf : s.fabLive = true) : s.sendDiscover p =
    (s.setPort p { s.port p with toldAt := s.clk.now }).emit (.frame p 3 0 broadcastId false false 0 0 0 0 0 0 0 0 []) := by
  unfold State.sendDiscover; rw [if_pos ⟨h, hf⟩]
theorem sendDiscover_dead (s : State) (p) (h : (s.port p).state ≠ .up ∨ s.fabLive = false) : s.sendDiscover p = s := by
  unfold State.sendDiscover; rw [if_neg (by rcases h with h | h <;> simp [h])]
theorem fab_endStep (s : State) : s.endStep.fab = s.fab := rfl
theorem regGet_of_reg {s t : State} (h : t.reg = s.reg) (w i o) : t.regGet w i o = s.regGet w i o := by unfold State.regGet; rw [h]
theorem raise_other (s : State) (w i o b) {x j p} (h : regKey x j p ≠ regKey w i o) : (s.raise w i o b).regGet x j p = s.regGet x j p := by
  unfold State.raise
  rw [regGet_of (congrArg RegFile.vals (events_reg _ _ _ _ _))]
  unfold State.statusSet
  split
  · rfl
  · extract_lets k r sq s1
    have : s1.regGet x j p = s.regGet x j p := State.regGet_regPut_other s h _
    split
    · exact this
    · exact this
theorem fld_of {s t : State} (h : t.reg = s.reg) (w i o a b) : t.fld w i o a b = s.fld w i o a b := by unfold State.fld; rw [regGet_of_reg h]
theorem raise_fab (s : State) (w i o b) : (s.raise w i o b).fab = s.fab := (State.raise_only (Within.refl _) (OnlyChanges.refl s) w i o b).use .fab rfl
theorem canon_fab {s : State} (h : s.Canon) (fab) : State.Canon { s with fab := fab } :=
  ⟨h.mem, h.regs, h.chans, h.cqs, h.accts, h.clus, h.cnts, h.pslots, h.scales, h.frames, h.streams, h.fences, h.objs⟩
theorem endStep_regGet (s : State) (w i o) : s.endStep.regGet w i o = s.regGet w i o := rfl
theorem port_put (s : State) (p : Nat) (v : Port) (hv : v ≠ Port.init) : (s.setPort p v).port p = v := put_get_self (d := fun _ => Port.init) hv _
theorem peer_put (s : State) (k : Nat) (v : Peer) (hv : v.state ≠ .empty) : (s.setPeer k v).peer k = v :=
  put_get_self (d := fun _ => Peer.init) (by intro e; exact hv (by rw [e]; rfl)) _
theorem peer_other (s : State) {k j : Nat} (v : Peer) (h : j ≠ k) : (s.setPeer k v).peer j = s.peer j := Sparse.get_put_other (d := fun _ => Peer.init) h
/-- The entries that sending leaves as they are, but for what waits to be sent. -/
def SamePeers (s t : State) : Prop := ∀ k, (t.peer k).expect = (s.peer k).expect ∧ (t.peer k).oldest = (s.peer k).oldest ∧ (t.peer k).expiries = (s.peer k).expiries ∧
  ((s.peer k).state = .active → (t.peer k).state = .active)
theorem SamePeers.refl (s) : SamePeers s s := fun _ => ⟨rfl, rfl, rfl, id⟩
theorem SamePeers.trans {s t u} (a : SamePeers s t) (b : SamePeers t u) : SamePeers s u :=
  fun k => ⟨(b k).1.trans (a k).1, (b k).2.1.trans (a k).2.1, (b k).2.2.1.trans (a k).2.2.1, fun h => (b k).2.2.2 ((a k).2.2.2 h)⟩
theorem SamePeers.of {s t : State} (h : t.fab = s.fab) : SamePeers s t := fun k => by unfold State.peer; rw [h]; exact ⟨rfl, rfl, rfl, id⟩
theorem SamePeers.put (s : State) (k v) (h : v.state = .active) (h1 : v.expect = (s.peer k).expect) (h2 : v.oldest = (s.peer k).oldest) (h3 : v.expiries = (s.peer k).expiries) : SamePeers s (s.setPeer k v) := fun j => by
  by_cases e : j = k
  · subst e; rw [peer_put s j v (by rw [h]; decide)]; exact ⟨h1, h2, h3, fun _ => h⟩
  · rw [peer_other s v e]; exact ⟨rfl, rfl, rfl, id⟩
theorem foldl_fab {α : Type} {f : State → α → State} (hf : ∀ t x, (f t x).fab = t.fab) : ∀ (l : List α) (s : State), (l.foldl f s).fab = s.fab
  | [], _ => rfl
  | x :: l, s => (foldl_fab hf l _).trans (hf s x)
theorem sendData_fab (s : State) (p d v f) : (s.sendData p d v f).fab = s.fab := rfl
theorem pumpFlow_peers (s : State) (d v) : SamePeers s (s.pumpFlow d v) := by
  unfold State.pumpFlow
  extract_lets +onlyGivenNames e
  split
  · exact SamePeers.refl s
  · split
    · exact SamePeers.refl s
    · rename_i h
      extract_lets +onlyGivenNames gap fs new used s1
      refine SamePeers.trans (t := s1) ?_ (SamePeers.of (foldl_fab (fun t x => sendData_fab t _ _ _ x) _ _))
      refine SamePeers.put s _ _ ?_ rfl rfl rfl
      simp only [Bool.or_eq_true, not_or] at h
      simpa using h.2
theorem SamePeers.foldl {α : Type} {f : State → α → State} (hf : ∀ t x, SamePeers t (f t x)) : ∀ (l : List α) (s : State), SamePeers s (l.foldl f s)
  | [], s => SamePeers.refl s
  | x :: l, s => (hf s x).trans (SamePeers.foldl hf l _)
theorem pumpAll_peers (s : State) : SamePeers s s.pumpAll := SamePeers.foldl (fun t _ => pumpFlow_peers t _ _) _ s
theorem sendable_length : ∀ (l : List TxFrame) (n a b c), (sendable n a b c l).length = l.length
  | [], _, _, _, _ => rfl
  | f :: t, n, a, b, c => by
    unfold sendable
    split
    · rw [List.length_cons, sendable_length t]; rfl
    · split
      · rw [List.length_cons, sendable_length t]; rfl
      · rfl
theorem pumpFlow_len (s : State) (d v k) : ((s.pumpFlow d v).peer k).frames.length = (s.peer k).frames.length := by
  unfold State.pumpFlow
  extract_lets +onlyGivenNames e
  split
  · rfl
  · split
    · rfl
    · rename_i h
      extract_lets +onlyGivenNames gap fs new used s1
      unfold State.peer at *
      rw [foldl_fab (fun t x => sendData_fab t _ _ _ x)]
      by_cases ek : k = peerIx d v
      · subst ek
        have : (s1.peer (peerIx d v)) = _ := peer_put s (peerIx d v) _ (by
          simp only [Bool.or_eq_true, not_or] at h
          have := h.2
          simp at this
          show e.state ≠ _
          rw [this]; decide)
        unfold State.peer at this
        rw [this]
        exact sendable_length _ _ _ _ _
      · exact congrArg (fun p : Peer => p.frames.length) (peer_other s _ ek)
theorem pumpAll_len (s : State) (k) : (s.pumpAll.peer k).frames.length = (s.peer k).frames.length := by
  show (((s.flowOrder).foldl (fun t k => t.pumpFlow (k / 4) (k % 4)) s).peer k).frames.length = _
  exact foldl_invariant (P := fun t => (t.peer k).frames.length = (s.peer k).frames.length) (fun t x h => (pumpFlow_len t _ _ k).trans h) _ s rfl
theorem refuseMsg_peers (s : State) (m v r id) : SamePeers s (s.refuseMsg m v r id) := by
  unfold State.refuseMsg
  refine SamePeers.trans ?_ (SamePeers.of (raise_fab _ _ _ _ _))
  split
  · exact fun k => ⟨rfl, rfl, rfl, fun h => h⟩
  · unfold State.sendMsg
    refine SamePeers.trans ?_ (pumpFlow_peers _ _ _)
    refine SamePeers.trans (t := { s with fab := { s.fab with drops := (s.fab.drops.1, satAdd 16 s.fab.drops.2 1), nextMsg := s.fab.nextMsg + 1 } }) (fun k => ⟨rfl, rfl, rfl, fun h => h⟩) ?_
    exact SamePeers.put _ _ _ rfl rfl rfl rfl
theorem peer_endStep (s : State) (k) : s.endStep.peer k = s.peer k := rfl
theorem out_endStep' (s : State) : s.endStep.out = s.out := rfl
theorem acceptFrame_expect (s : State) (f : Frame) (e : Peer) : ((s.acceptFrame f e).peer (peerIx f.src f.vl)).expect = f.psn + 1 := by
  unfold State.acceptFrame
  extract_lets +onlyGivenNames e1
  extract_lets +onlyGivenNames s1
  have h1 : s1.peer (peerIx f.src f.vl) = e1 := peer_put s _ e1 (by show PeerState.active ≠ _; decide)
  have h2 : (s1.peer (peerIx f.src f.vl)).expect = f.psn + 1 := by rw [h1]
  clear_value s1
  split
  · exact ((refuseMsg_peers _ _ _ _ _) _).1.trans h2
  · unfold State.reassemble
    extract_lets +onlyGivenNames old
    extract_lets +onlyGivenNames got
    extract_lets +onlyGivenNames rest
    split
    · exact h2
    · split
      · exact ((refuseMsg_peers _ _ _ _ _) _).1.trans h2
      · exact h2
theorem joinFrags_one (p : List Byte) : joinFrags [(0, p)] 0 = p := by
  show (upTo 1).flatMap _ = p
  simp [upTo]
theorem acceptFrame_whole (s : State) (f : Frame) (e : Peer) (hr : s.rxBytes + f.payload.length ≤ 32 * 2 ^ 20) (ht : f.msgType ≤ 6) (hf : f.frag ≤ f.nfrag) :
    ((s.acceptFrame f e).peer (peerIx f.src f.vl)).ackOwed = true ∧
    (f.nfrag = 0 → s.reasmOf f = none → (s.acceptFrame f e).fab.inbox = s.fab.inbox ++ [⟨f.src, f.vl, f.msgId, f.msgType, s.tickN + f.deadline, f.payload⟩]) := by
  unfold State.acceptFrame
  extract_lets +onlyGivenNames e1
  extract_lets +onlyGivenNames s1
  have h1 : s1.peer (peerIx f.src f.vl) = e1 := peer_put s _ e1 (by show PeerState.active ≠ _; decide)
  have h2 : (s1.peer (peerIx f.src f.vl)).ackOwed = true := by rw [h1]
  have h3 : s1.rxBytes = s.rxBytes := rfl
  have h4 : s1.reasmOf f = s.reasmOf f := rfl
  have h5 : s1.fab.inbox = s.fab.inbox ∧ s1.tickN = s.tickN := ⟨rfl, rfl⟩
  clear_value s1
  rw [if_neg (by omega)]
  unfold State.reassemble
  extract_lets +onlyGivenNames old
  extract_lets +onlyGivenNames got
  extract_lets +onlyGivenNames rest
  split
  · rename_i hg
    refine ⟨h2, fun hn ho => ?_⟩
    exfalso
    rw [hn] at hg
    have : got.length = (match old with | some r => r.got | none => []).length + 1 := by unfold got; rw [List.length_append]; rfl
    omega
  · rw [if_neg (by omega)]
    refine ⟨h2, fun hn ho => ?_⟩
    have hgot : got = [(0, f.payload)] := by
      unfold got old
      rw [h4, ho, show f.frag = 0 by omega]; rfl
    show s1.fab.inbox ++ _ = _
    rw [hgot, hn, joinFrags_one, h5.1, h5.2]
theorem takeAck_flow (s : State) (m v : Nat) (ackPsn credit : BitVec 32) (ha : (s.peer (peerIx m v)).state = .active)
    (h0 : 0 < (ackPsn - (s.peer (peerIx m v)).oldest).toNat)
    (hk : (ackPsn - (s.peer (peerIx m v)).oldest).toNat ≤ ((s.peer (peerIx m v)).frames.filter (·.sent)).length)
    (hn : ∀ g ∈ (s.peer (peerIx m v)).frames.take (ackPsn - (s.peer (peerIx m v)).oldest).toNat, g.cmd = none) :
    ((s.takeAck m v ackPsn credit).peer (peerIx m v)).oldest = ackPsn ∧ ((s.takeAck m v ackPsn credit).peer (peerIx m v)).expiries = 0 ∧
    ((s.takeAck m v ackPsn credit).peer (peerIx m v)).frames.length = (s.peer (peerIx m v)).frames.length - (ackPsn - (s.peer (peerIx m v)).oldest).toNat := by
  unfold State.takeAck
  extract_lets +onlyGivenNames e
  rw [if_neg (by simpa using ha)]
  extract_lets +onlyGivenNames out
  extract_lets +onlyGivenNames k
  extract_lets +onlyGivenNames ok
  extract_lets +onlyGivenNames gone
  extract_lets +onlyGivenNames e1
  extract_lets +onlyGivenNames e2
  have hok : ok = true := decide_eq_true hk
  have hgone : gone.filterMap (fun f => f.cmd) = [] := by
    have : gone = e.frames.take k := by unfold gone; rw [if_pos hok]
    rw [this, List.filterMap_eq_nil_iff]
    exact hn
  have he1 : e1 = { e with oldest := ackPsn, frames := e.frames.drop k, expiries := 0 } := by
    unfold e1; rw [if_pos]; simp only [hok, Bool.true_and, bne_iff_ne]; exact Nat.ne_of_gt h0
  have he2 : e2.oldest = ackPsn ∧ e2.expiries = 0 ∧ e2.frames = e.frames.drop k ∧ e2.state = .active := by
    unfold e2; split <;> rw [he1] <;> exact ⟨rfl, rfl, rfl, ha⟩
  clear_value e2
  rw [hgone]
  have hp : (s.setPeer (peerIx m v) e2).peer (peerIx m v) = e2 := peer_put s _ e2 (by rw [he2.2.2.2]; decide)
  have h1 := pumpAll_peers (s.setPeer (peerIx m v) e2) (peerIx m v)
  have h2 := pumpAll_len (s.setPeer (peerIx m v) e2) (peerIx m v)
  rw [hp] at h1 h2
  show (((s.setPeer (peerIx m v) e2).pumpAll).peer _).oldest = _ ∧ (((s.setPeer (peerIx m v) e2).pumpAll).peer _).expiries = _ ∧ (((s.setPeer (peerIx m v) e2).pumpAll).peer _).frames.length = _
  rw [h1.2.1, h1.2.2.1, h2, he2.1, he2.2.1, he2.2.2.1, List.length_drop]
  exact ⟨rfl, rfl, rfl⟩
theorem sends_out (k m v : Nat) : ∀ (l : List TxFrame) (s : State), ∀ g ∈ l, ∃ a c d,
    Output.frame k 0 v m g.isNew false g.psn a c g.msgId g.msgType g.frag g.nfrag d g.payload ∈ (l.foldl (fun t f => t.sendData k m v f) s).out
  | [], _, _, h => nomatch h
  | f :: l, s, g, h => by
    rcases List.mem_cons.1 h with e | e
    · subst e
      exact ⟨(s.peer (peerIx m v)).expect, s.grant (s.peer (peerIx m v)), g.deadline - s.tickN,
        ((SameFab.foldl (fun t x => sendData_sameFab t k m v x) l (s.sendData k m v g)).out).subset (List.mem_append_right _ (List.mem_singleton.2 rfl))⟩
    · exact sends_out k m v l _ g e
theorem resend_out (s : State) (m v k : Nat) (hk : s.portFor m v = some k) (hf : s.fabLive = true) (g : TxFrame) (hg : g ∈ (s.peer (peerIx m v)).frames) (hs : g.sent = true) :
    ∃ a c d, Output.frame k 0 v m g.isNew false g.psn a c g.msgId g.msgType g.frag g.nfrag d g.payload ∈ (s.resendFlow m v).out := by
  unfold State.resendFlow
  extract_lets +onlyGivenNames e
  rw [hk]
  simp only
  have hm : g ∈ e.frames.filter (·.sent) := List.mem_filter.2 ⟨hg, hs⟩
  rw [if_neg (by
    intro hh
    simp only [hf, Bool.not_true, Bool.or_false, List.isEmpty_iff] at hh
    rw [hh] at hm; cases hm)]
  exact sends_out k m v _ _ g hm
theorem resend_expiries (s : State) (m v k : Nat) (h : (s.peer (peerIx m v)).state = .active) : ((s.resendFlow m v).peer k).expiries = (s.peer k).expiries := by
  unfold State.resendFlow
  extract_lets +onlyGivenNames e
  split
  · rfl
  · extract_lets +onlyGivenNames out
    split
    · rfl
    · have := fun x : State => SamePeers.of (foldl_fab (fun t x => sendData_fab t ‹Nat› m v x) out x)
      refine ((this _) k).2.2.1.trans ?_
      exact ((SamePeers.put s (peerIx m v) { e with port := ‹Nat›, frames := resent s.clk.now e.frames } h rfl rfl rfl) k).2.2.1
theorem failPeer_bit {s : State} (hc : s.Canon) (m bit) (hb : bit < 24) : ((s.failPeer m bit).regGet .fab 0 0x080).testBit bit = true := by
  unfold State.failPeer
  refine raise_bit ?_ .fab 0 0x080 bit hb
  refine (Keeps.foldl (q := s) ?_ (fun t id h => State.remoteEnds_keeps h id m)).canon hc
  have := Keeps.foldl (q := s) (l := upTo 4) (f := fun t v => t.setPeer (peerIx m v) { Peer.init with state := .failed, failedAt := s.clk.now }) (Keeps.refl s) (fun t v h => State.setPeer_keeps h _ _)
  exact Keeps.upd this rfl
theorem failPeer_all (s : State) (m bit) (hw : s.waitsOn m = []) (v : Nat) (hv : v < 4) : (s.failPeer m bit).peer (peerIx m v) = { Peer.init with state := .failed, failedAt := s.clk.now } := by
  unfold State.failPeer
  extract_lets +onlyGivenNames ids
  rw [show ids = [] from hw]
  unfold State.peer
  rw [raise_fab]
  have hf : ({ Peer.init with state := .failed, failedAt := s.clk.now } : Peer).state ≠ .empty := nofun
  show ((((((s.setPeer (peerIx m 0) { Peer.init with state := .failed, failedAt := s.clk.now }).setPeer (peerIx m 1) { Peer.init with state := .failed, failedAt := s.clk.now }).setPeer (peerIx m 2) { Peer.init with state := .failed, failedAt := s.clk.now }).setPeer (peerIx m 3) { Peer.init with state := .failed, failedAt := s.clk.now })).peer (peerIx m v)) = _
  have p : ∀ a b, a ≠ b → peerIx m a ≠ peerIx m b := by intro a b h; unfold peerIx; omega
  rcases (by omega : v = 0 ∨ v = 1 ∨ v = 2 ∨ v = 3) with h | h | h | h <;> subst h
  · rw [peer_other _ _ (p 0 3 (by decide)), peer_other _ _ (p 0 2 (by decide)), peer_other _ _ (p 0 1 (by decide)), peer_put _ _ _ hf]
  · rw [peer_other _ _ (p 1 3 (by decide)), peer_other _ _ (p 1 2 (by decide)), peer_put _ _ _ hf]
  · rw [peer_other _ _ (p 2 3 (by decide)), peer_put _ _ _ hf]
  · rw [peer_put _ _ _ hf]
theorem foldl_upTo_four {α : Type} (F : α → Nat → α) (s : α) : (upTo 4).foldl F s = F (F (F (F s 0) 1) 2) 3 := rfl
theorem sendMsg_sameFab (s : State) (d v ty dl p c) : SameFab s (s.sendMsg d v ty dl p c).1 := by
  unfold State.sendMsg
  refine SameFab.trans ?_ (pumpFlow_sameFab _ _ _)
  exact ⟨rfl, rfl, rfl, rfl, rfl, rfl, rfl, rfl, List.prefix_rfl⟩
theorem refuseMsg_spec {s : State} (hc : s.Canon) (m v r i) : ((s.refuseMsg m v r i).regGet .fab 0 0x080).testBit 5 = true ∧ (s.refuseMsg m v r i).fab.inbox = s.fab.inbox ∧
    (s.refuseMsg m v r i).fab.drops = (s.fab.drops.1, satAdd 16 s.fab.drops.2 1) := by
  have key : ∀ t : State, t.Canon → t.fab.inbox = s.fab.inbox → t.fab.drops = (s.fab.drops.1, satAdd 16 s.fab.drops.2 1) →
      ((t.raise .fab 0 0x080 5).regGet .fab 0 0x080).testBit 5 = true ∧ (t.raise .fab 0 0x080 5).fab.inbox = s.fab.inbox ∧ (t.raise .fab 0 0x080 5).fab.drops = (s.fab.drops.1, satAdd 16 s.fab.drops.2 1) := by
    intro t h1 h2 h3
    rw [raise_fab]
    exact ⟨raise_bit h1 .fab 0 0x080 5 (by decide), h2, h3⟩
  have e : ∀ s1 : State, s1 = { s with fab := { s.fab with drops := (s.fab.drops.1, satAdd 16 s.fab.drops.2 1) } } →
      s.refuseMsg m v r i = (if s1.peerFailed m then s1 else (s1.sendMsg m v 6 s1.tickN (leBytes 1 r ++ zeros 3 ++ leBytes 4 i) none).1).raise .fab 0 0x080 5 := by
    intro s1 h; subst h; rfl
  rw [e _ rfl]
  generalize hs : ({ s with fab := { s.fab with drops := (s.fab.drops.1, satAdd 16 s.fab.drops.2 1) } } : State) = s1
  have c1 : s1.Canon := by rw [← hs]; exact canon_fab hc _
  have e1 : s1.fab.inbox = s.fab.inbox := by rw [← hs]
  have e2 : s1.fab.drops = (s.fab.drops.1, satAdd 16 s.fab.drops.2 1) := by rw [← hs]
  split
  · exact key s1 c1 e1 e2
  · have h := sendMsg_sameFab s1 m v 6 s1.tickN (leBytes 1 r ++ zeros 3 ++ leBytes 4 i) none
    have c2 := (State.sendMsg_keeps (Keeps.refl s1) m v 6 s1.tickN (leBytes 1 r ++ zeros 3 ++ leBytes 4 i) none).canon c1
    exact key _ c2 (h.inbox.trans e1) (h.drops.trans e2)
structure Front (s : State) (m v : Nat) (x : Msg) (rest : List Msg) : Prop where
  take : takeFirst (fun y : Msg => y.peer == m && y.vl == v) s.fab.inbox = some (x, rest)
theorem Front.ids {s m v x rest} (h : Front s m v x rest) : x.peer = m ∧ x.vl = v := by
  have := (takeFirst_spec h.take).1
  simpa using this
theorem Front.consume {s m v x rest} (h : Front s m v x rest) : s.consumeMsg m v = { s with fab := { s.fab with inbox := rest } } := by
  unfold State.consumeMsg; rw [h.take]
theorem Front.refuse {s m v x rest} (h : Front s m v x rest) (hc : s.Canon) (r) :
    ((s.refuseIt x r).endStep.regGet .fab 0 0x080).testBit 5 = true ∧ (s.refuseIt x r).endStep.fab.inbox = rest ∧
      (s.refuseIt x r).endStep.fab.drops = (s.fab.drops.1, satAdd 16 s.fab.drops.2 1) := by
  unfold State.refuseIt
  rw [h.ids.1, h.ids.2, h.consume]
  exact refuseMsg_spec (s := { s with fab := { s.fab with inbox := rest } }) (canon_fab hc _) _ _ _ _
theorem fab_endStep' (s : State) : s.endStep.fab = s.fab := rfl
theorem gfe_endStep (s : State) : s.endStep.gfe = s.gfe := rfl
theorem serveSlot_class (op v b h r) : slotClass (serveSlot op v b h r) = v % 4 := by
  unfold slotClass
  have : leField (serveSlot op v b h r) 1 1 = (BitVec.ofNat 8 (v * 64)).toNat := by
    show leNat (((serveSlot op v b h r).drop 1).take 1) = _
    show leNat [BitVec.ofNat 8 (v * 64)] = _
    simp [leNat]
  rw [this, BitVec.toNat_ofNat]
  unfold bitsOf
  rw [Nat.shiftRight_eq_div_pow]
  show v * 64 % 256 / 64 % 4 = v % 4
  omega
theorem enterServe_spec (s : State) (m v : Nat) (x : Msg) (rest : List Msg) (hf : Front s m v x rest) (c op budget h : Nat) :
    ∃ d, (s.enterServe x c op budget h).gfe.cmds = s.gfe.cmds ++ [d] ∧ d.id = s.gfe.nextId + 1 ∧ d.chan = c ∧ d.cls = v % 4 ∧
      (s.enterServe x c op budget h).fab.inbox = rest ∧
      (s.enterServe x c op budget h).fab.serves = s.fab.serves ++ [⟨m, v, x.msgId, s.gfe.nextId + 1, op == 0x29, x.payload⟩] := by
  unfold State.enterServe
  simp only
  rw [hf.ids.1, hf.ids.2, hf.consume]
  refine ⟨_, rfl, rfl, rfl, serveSlot_class _ _ _ _ _, rfl, ?_⟩
  show s.fab.serves ++ _ = _
  rfl
theorem extra_id (t : State) (i) : (t.extra i).cmd = i := by
  unfold State.extra
  split
  · rename_i e he; have := List.find?_some he; simpa using this
  · rfl
theorem extra_acked_inc (t : State) (i) : ((t.setExtra { t.extra i with acked := (t.extra i).acked + 1 }).extra i).acked = (t.extra i).acked + 1 := by
  have h := extra_id t i
  generalize t.extra i = e at *
  unfold State.extra State.setExtra
  simp only
  rw [List.find?_cons]
  simp only [h, beq_self_eq_true]
end Sys2Proof.Machine
end

