-- ==== Sys2Proof/Laws/PowerParts.lean ====
section
/-! SUPPORT. Power and start-up: the supply's steps, the thermal limits, the controlled stop, and the parts of each boot step.
The provers cite these lemmas in place of unfolding the operations. -/
namespace Sys2Proof.Machine
open Sys2Proof
theorem controlledStop_stops (s : State) : s.controlledStop.sup.stopping = true := by
  unfold State.controlledStop
  split
  · assumption
  · extract_lets +onlyGivenNames x2
    extract_lets +onlyGivenNames s5
    have h5 : s5.sup.stopping = true := by
      have := (State.raise_only (Within.refl _) (OnlyChanges.refl { s with sup := { s.sup with stopping := true, stopAt := s.clk.now } }) .pwr 0 0x000 5).use .sup rfl
      exact congrArg Supply.stopping this
    clear_value s5
    show stopAsked (State.tidy _) = true
    refine (stopAsked_of ((State.tidy_only (Within.refl _) (OnlyChanges.refl _)).use .sup rfl)).trans ?_
    refine foldl_invariant (P := fun t => stopAsked t = true) (fun t d h => ?_) _ s5 h5
    split
    · exact (stopCmd_stopAsked _ _).trans h
    · exact h
theorem fault_bit {s : State} (hc : s.Canon) : (s.sensorFault.endStep.regGet .mon 0 0x000).testBit 4 = true := raise_bit hc .mon 0 0x000 4 (by decide)
theorem inhibit_sup (s : State) : s.inhibitStep.sup = { s.sup with inhibit := if s.vinMv < 43000 then true else if 44500 < s.vinMv then false else s.sup.inhibit } := by
  unfold State.inhibitStep
  extract_lets +onlyGivenNames v
  split
  · rename_i h
    rw [if_pos h.1]
    refine ((State.endUpdate_only (Within.refl _) (OnlyChanges.refl _) 5).use .sup rfl).trans ?_
    exact (State.raise_only (Within.refl _) (OnlyChanges.refl _) .pwr 0 0x000 1).use .sup rfl
  · split
    · rename_i h1 h2
      have : ¬ s.vinMv < 43000 := by have := h2.1; show ¬ v < 43000; omega
      rw [if_neg this, if_pos h2.1]
      refine ((State.tidy_only (Within.refl _) (OnlyChanges.refl _)).use .sup rfl).trans ?_
      exact (State.supplyRelease_only (Within.refl _) (OnlyChanges.refl _) 1).use .sup rfl
    · rename_i h1 h2
      by_cases h3 : s.vinMv < 43000
      · rw [if_pos h3]
        have : s.sup.inhibit = true := by
          cases h : s.sup.inhibit with
          | true => rfl
          | false => exact absurd ⟨h3, h⟩ h1
        rw [← this]
      · rw [if_neg h3]
        by_cases h4 : 44500 < s.vinMv
        · rw [if_pos h4]
          have : s.sup.inhibit = false := by
            cases h : s.sup.inhibit with
            | false => rfl
            | true => exact absurd ⟨h4, h⟩ h2
          rw [← this]
        · rw [if_neg h4]
theorem vinMv_of {s t : State} (h1 : t.sup.meterTimeout = s.sup.meterTimeout) (h2 : t.sup.vin = s.sup.vin) : t.vinMv = s.vinMv := by unfold State.vinMv; rw [h1, h2]
theorem supplyStep_sup (s : State) :
    ((s.vinMv < 40000 ∨ 100 ≤ s.sup.vin.run) → s.supplyStep.sup.stopping = true) ∧
    (¬(s.vinMv < 40000 ∨ 100 ≤ s.sup.vin.run) → s.supplyStep.sup = { s.sup with
      inhibit := if s.vinMv < 43000 then true else if 44500 < s.vinMv then false else s.sup.inhibit,
      throttleWant := if s.vinMv < 42000 then true else if 42500 < s.vinMv then false else s.sup.throttleWant }) := by
  unfold State.supplyStep
  have hi := inhibit_sup s
  extract_lets +onlyGivenNames s1
  have h1 : s1.sup = _ := hi
  clear_value s1
  have hv : s1.vinMv = s.vinMv := vinMv_of (by rw [h1]) (by rw [h1])
  extract_lets +onlyGivenNames v
  have hv' : v = s.vinMv := hv
  clear_value v
  subst hv'
  dsimp only
  generalize hs2 : (if s.vinMv < 42000 then ({ s1 with sup := { s1.sup with throttleWant := true } } : State) else if 42500 < s.vinMv then { s1 with sup := { s1.sup with throttleWant := false } } else s1) = s2
  have h2 : s2.sup = { s1.sup with throttleWant := if s.vinMv < 42000 then true else if 42500 < s.vinMv then false else s1.sup.throttleWant } := by
    rw [← hs2]
    split
    · rfl
    · split
      · rfl
      · rfl
  have hr : s2.sup.vin.run = s.sup.vin.run := by rw [h2, h1]
  rw [hr]
  refine ⟨fun h => ?_, fun h => ?_⟩
  · rw [if_pos h]; exact controlledStop_stops _
  · rw [if_neg h, h2, h1]
theorem sup_endStep (s : State) : s.endStep.sup = s.sup := rfl
theorem mon_endStep (s : State) : s.endStep.mon = s.mon := rfl
theorem tempRec_of {s t : State} (h : t.mon = s.mon) (k) : t.tempRec k = s.tempRec k := by unfold State.tempRec; rw [h]
theorem hottest_of {s t : State} (h : t.mon.temps = s.mon.temps) : t.hottestTemp = s.hottestTemp := by unfold State.hottestTemp State.sensors; rw [h]
theorem thermalStep_spec (s : State) (k : Nat) : (s.thermalStep k).tempRec k = s.tempRec k ∧ (s.thermalStep k).mon.stepWant = thermStep s.mon.stepWant (s.thermalStep k).hottestTemp ∧
    (10 ≤ (s.tempRec k).run → (s.thermalStep k).sup.stopping = true) ∧ (¬10 ≤ (s.tempRec k).run → (s.thermalStep k).reg = s.reg) := by
  have key : ∀ s1 : State, s1.tempRec k = s.tempRec k → s1.mon.stepWant = thermStep s.mon.stepWant s1.hottestTemp → s1.reg = s.reg →
      let u := if 10 ≤ (s1.tempRec k).run then s1.controlledStop else s1
      u.tempRec k = s.tempRec k ∧ u.mon.stepWant = thermStep s.mon.stepWant u.hottestTemp ∧ (10 ≤ (s.tempRec k).run → u.sup.stopping = true) ∧ (¬10 ≤ (s.tempRec k).run → u.reg = s.reg) := by
    intro s1 e1 e2 e3 u
    by_cases h : 10 ≤ (s1.tempRec k).run
    · have hu : u = s1.controlledStop := if_pos h
      rw [hu]
      have hm := (State.controlledStop_only (Within.refl _) (OnlyChanges.refl s1)).use .mon rfl
      refine ⟨(tempRec_of hm k).trans e1, ?_, fun _ => controlledStop_stops s1, fun q => absurd (e1 ▸ h) q⟩
      rw [hm, hottest_of (congrArg Monitor.temps hm)]; exact e2
    · have hu : u = s1 := if_neg h
      rw [hu]
      exact ⟨e1, e2, fun q => absurd (e1 ▸ q) h, fun _ => e3⟩
  unfold State.thermalStep
  exact key _ rfl rfl rfl
theorem setTemp_get (s : State) (k : Nat) (r : Samples) (h : r ≠ Samples.init) : (s.setTemp k r).tempRec k = r := put_get_self (d := fun _ => Samples.init) h _
theorem setVolt_get (s : State) (k : Nat) (r : Samples) (h : r ≠ Samples.init) : (s.setVolt k r).voltRec k = r := put_get_self (d := fun _ => Samples.init) h _
theorem setProc_get (s : State) (k : Nat) (r : Samples) (h : r ≠ Samples.init) : (s.setProc k r).procRec k = r := put_get_self (d := fun _ => Samples.init) h _
theorem samples_vals_ne_init {a : Int} {l n b c m} (hn : n ≠ 0) : (⟨(a :: l).take n, b, c, m⟩ : Samples) ≠ Samples.init := by
  intro e
  have := congrArg Samples.vals e
  cases n with
  | zero => exact hn rfl
  | succ n => simp [Samples.init] at this
theorem samples_timeout_ne_init {l c m} : (⟨l, true, c, m⟩ : Samples) ≠ Samples.init := by
  intro e; have := congrArg Samples.timeout e; simp [Samples.init] at this
theorem canon_mon {s : State} (h : s.Canon) (mon) : State.Canon { s with mon := mon } :=
  ⟨h.mem, h.regs, h.chans, h.cqs, h.accts, h.clus, h.cnts, h.pslots, h.scales, h.frames, h.streams, h.fences, h.objs⟩
theorem sensorFault_mon (s : State) : s.sensorFault.mon = s.mon := (State.sensorFault_only (Within.refl _) (OnlyChanges.refl s)).use .mon rfl
theorem voltRec_of {s t : State} (h : t.mon = s.mon) (k) : t.voltRec k = s.voltRec k := by unfold State.voltRec; rw [h]
theorem procRec_of {s t : State} (h : t.mon = s.mon) (k) : t.procRec k = s.procRec k := by unfold State.procRec; rw [h]
theorem raise_mon (s : State) (w i o b) : (s.raise w i o b).mon = s.mon := (State.raise_only (Within.refl _) (OnlyChanges.refl s) w i o b).use .mon rfl
theorem tryTrain_parts (s : State) : s.tryTrain.sec = s.sec ∧ s.tryTrain.sb = s.sb ∧ s.tryTrain.fab = s.fab := by
  have h := State.tryTrain_only (Within.refl _) (OnlyChanges.refl s)
  exact ⟨h.use .sec rfl, h.use .sb rfl, h.use .fab rfl⟩
theorem enterRecovery_parts (t : State) (c st) : (t.enterRecovery c st).sec = { t.sec with recovery := true, cause := c, step := st, load := (0, 0, 0), words := [] } ∧
    (t.enterRecovery c st).sb = { t.sb with pwrgd := true } := by
  unfold State.enterRecovery
  have key : ∀ x : State, ((x.raise .sec 0 0x000 1).tryTrain).sec = x.sec ∧ ((x.raise .sec 0 0x000 1).tryTrain).sb = x.sb := by
    intro x
    have h := State.raise_only (Within.refl _) (OnlyChanges.refl x) .sec 0 0x000 1
    exact ⟨(tryTrain_parts _).1.trans (h.use .sec rfl), (tryTrain_parts _).2.1.trans (h.use .sb rfl)⟩
  exact key _
theorem foldl_of_each {α : Type} {P : State → State → Prop} (hr : ∀ s, P s s) (ht : ∀ s t u, P s t → P t u → P s u) {f : State → α → State} (hf : ∀ t x, P t (f t x)) : ∀ (l : List α) (s : State), P s (l.foldl f s)
  | [], s => hr s
  | x :: l, s => ht _ _ _ (hf s x) (foldl_of_each hr ht hf l _)
theorem setPortState_parts (t : State) (p x) : (t.setPortState p x).fab.moduleId = t.fab.moduleId ∧ (t.setPortState p x).sec = t.sec ∧ (t.setPortState p x).sb = t.sb := ⟨rfl, rfl, rfl⟩
theorem bootHost_parts (s : State) (i : CfgImage) : (s.bootHost i).sec = { s.sec with step := 12, recovery := false, cause := 0 } ∧
    (s.bootHost i).sb = { s.sb with pwrgd := true } ∧ (s.bootHost i).fab.moduleId = i.moduleId := by
  unfold State.bootHost
  have e1 : ∀ x : State, (i.fab.foldl State.bootFab x).sec = x.sec ∧ (i.fab.foldl State.bootFab x).sb = x.sb := by
    intro x
    refine foldl_of_each (P := fun a b => b.sec = a.sec ∧ b.sb = a.sb) (fun _ => ⟨rfl, rfl⟩) (fun _ _ _ a b => ⟨b.1.trans a.1, b.2.trans a.2⟩) (fun t e => ?_) _ x
    have h := State.bootFab_only (Within.refl _) (OnlyChanges.refl t) e
    exact ⟨h.use .sec rfl, h.use .sb rfl⟩
  have e2 := e1 s
  extract_lets +onlyGivenNames s1
  have h1 : s1.sec = s.sec ∧ s1.sb = s.sb := e2
  clear_value s1
  have key : ∀ x : State, x.fab.moduleId = i.moduleId → x.sec = s.sec → x.sb = s.sb →
      let s3 := (upTo 8).foldl (fun t p => if t.fld .fab 0 (0x040 + 4 * p) 0 0 = 1 then t.setPortState p .training else t) x
      s3.fab.moduleId = i.moduleId ∧ s3.sec = s.sec ∧ s3.sb = s.sb := by
    intro x a b c
    refine foldl_invariant (P := fun t => t.fab.moduleId = i.moduleId ∧ t.sec = s.sec ∧ t.sb = s.sb) (fun t p h => ?_) _ x ⟨a, b, c⟩
    split
    · exact h
    · exact h
  have h3 := key { s1 with fab := { s1.fab with moduleId := i.moduleId, gatherChan := i.gatherChan, updateChan := i.updateChan } } rfl h1.1 h1.2
  dsimp only at h3 ⊢
  generalize ((upTo 8).foldl (fun t p => if t.fld .fab 0 (0x040 + 4 * p) 0 0 = 1 then t.setPortState p .training else t) ({ s1 with fab := { s1.fab with moduleId := i.moduleId, gatherChan := i.gatherChan, updateChan := i.updateChan } } : State)) = s3 at h3 ⊢
  obtain ⟨a, b, c⟩ := h3
  have fin : ∀ x : State, x.sec = { s.sec with step := 12, recovery := false, cause := 0 } → x.sb = { s.sb with pwrgd := true } → x.fab.moduleId = i.moduleId →
      x.tryTrain.sec = { s.sec with step := 12, recovery := false, cause := 0 } ∧ x.tryTrain.sb = { s.sb with pwrgd := true } ∧ x.tryTrain.fab.moduleId = i.moduleId := by
    intro x h1 h2 h3
    obtain ⟨k1, k2, k3⟩ := tryTrain_parts x
    rw [k1, k2, k3]; exact ⟨h1, h2, h3⟩
  exact fin _ (by show ({ s3.sec with step := 12, recovery := false, cause := 0 } : Sec) = _; rw [b]) (by show ({ s3.sb with pwrgd := true } : Sideband) = _; rw [c]) a
theorem boot7_parts (s : State) (b i) : (s.boot7 b i).sec = { s.sec with step := 12, recovery := false, cause := 0 } ∧ (s.boot7 b i).sb = { s.sb with pwrgd := true } ∧
    (s.boot7 b i).fab.moduleId = i.moduleId := by
  unfold State.boot7
  extract_lets +onlyGivenNames s1
  have h1 : s1.sec = s.sec ∧ s1.sb = s.sb := by
    have h := State.bootTrain_only (Within.refl _) (OnlyChanges.refl s) b
    exact ⟨h.use .sec rfl, h.use .sb rfl⟩
  clear_value s1
  extract_lets +onlyGivenNames s2
  have h2 : s2.sec = s.sec ∧ s2.sb = s.sb := by
    unfold s2; split
    · have h := State.raise_only (Within.refl _) (OnlyChanges.refl s1) .int 0 0x000 8
      exact ⟨(h.use .sec rfl).trans h1.1, (h.use .sb rfl).trans h1.2⟩
    · exact h1
  clear_value s2
  have ha := State.bootTrims_only (Within.refl _) (OnlyChanges.refl s2) b i.enableMap
  have hb := State.bootSlots_only (Within.refl _) (OnlyChanges.refl (s2.bootTrims b i.enableMap)) b i.enableMap
  have hc := State.bootPower_only (Within.refl _) (OnlyChanges.refl ((s2.bootTrims b i.enableMap).bootSlots b i.enableMap)) b i
  obtain ⟨k1, k2, k3⟩ := bootHost_parts (((s2.bootTrims b i.enableMap).bootSlots b i.enableMap).bootPower b i) i
  have e1 := (hc.use .sec rfl).trans ((hb.use .sec rfl).trans ((ha.use .sec rfl).trans h2.1))
  have e2 := (hc.use .sb rfl).trans ((hb.use .sb rfl).trans ((ha.use .sb rfl).trans h2.2))
  change State.sec (((s2.bootTrims b i.enableMap).bootSlots b i.enableMap).bootPower b i) = _ at e1
  change State.sb (((s2.bootTrims b i.enableMap).bootSlots b i.enableMap).bootPower b i) = _ at e2
  rw [e1] at k1
  rw [e2] at k2
  exact ⟨k1, k2, k3⟩
theorem boot5_parts (s : State) (b) : (s.boot5 b).sec = { s.sec with devHash := b.devHash, idOk := b.idOk } ∧ (s.boot5 b).sb = s.sb := by
  unfold State.boot5
  have key : ∀ x : State, (if b.idOk then x else x.raise .sec 0 0x000 2).sec = x.sec ∧ (if b.idOk then x else x.raise .sec 0 0x000 2).sb = x.sb := by
    intro x
    split
    · exact ⟨rfl, rfl⟩
    · have h := State.raise_only (Within.refl _) (OnlyChanges.refl x) .sec 0 0x000 2
      exact ⟨h.use .sec rfl, h.use .sb rfl⟩
  exact key _
theorem sparseGet_filter {α : Type} (d : Nat → α) (p : Nat → Bool) (k : Nat) (h : p k = true) : ∀ m : List (Nat × α), Sparse.get d (m.filter (fun c => p c.1)) k = Sparse.get d m k
  | [] => rfl
  | (x, v) :: t => by
    rw [List.filter_cons]
    by_cases e : x = k
    · subst e
      simp only [h, if_true]
      simp [Sparse.get]
    · split
      · simp only [Sparse.get, if_neg e]; exact sparseGet_filter d p k h t
      · simp only [Sparse.get, if_neg e]; exact sparseGet_filter d p k h t
end Sys2Proof.Machine
end

