-- ==== Sys2Proof/Laws/SidebandParts.lean ====
section
/-! SUPPORT. The sideband: what an answer puts out and which parts serving a request leaves.
The provers cite these lemmas in place of unfolding the operations. -/
namespace Sys2Proof.Machine
open Sys2Proof
theorem out_emit (s : State) (o) : (s.emit o).endStep.out = s.out ++ [o] := rfl
theorem spdmAt_open {s : State} {p n} {f : State → State} (h : s.spdmOpen p = true) : s.spdmAt p n f = if s.spdmStage p < n then s.spdmError p 4 else f s := by
  unfold State.spdmAt; rw [if_neg (by simp [h])]
theorem stage_set (s : State) (p n o) : ((s.setStage p n).emit o).endStep.spdmStage p = n := by cases p <;> rfl
theorem stage_out (s : State) (p n o) : ((s.setStage p n).emit o).endStep.out = s.out ++ [o] := by cases p <;> rfl
theorem sbServe_runs {s : State} (ha : s.sbAnswers = true) {cmd inst req len} (f : State → State) (hr : s.sec.recovery = false ∨ cmd ≤ 2) (hl : req.length = len) :
    s.sbServe cmd inst req len f = f s := by
  unfold State.sbServe
  rw [if_neg (by simp [ha]), if_neg (by rcases hr with e | e <;> simp [e]), if_neg (fun q => q hl)]
theorem sbServe_inRecovery {s : State} (ha : s.sbAnswers = true) {cmd inst req len} (f : State → State) (hr : s.sec.recovery = true) (hc : 2 < cmd) :
    s.sbServe cmd inst req len f = s.sbAnswer cmd inst 6 [] := by
  unfold State.sbServe
  rw [if_neg (by simp [ha]), if_pos (by simp [hr, hc])]
theorem sbServe_length {s : State} (ha : s.sbAnswers = true) {cmd inst req len} (f : State → State) (hr : s.sec.recovery = false ∨ cmd ≤ 2) (hl : req.length ≠ len) :
    s.sbServe cmd inst req len f = s.sbAnswer cmd inst 2 [] := by
  unfold State.sbServe
  rw [if_neg (by simp [ha]), if_neg (by rcases hr with e | e <;> simp [e]), if_pos hl]
theorem sbAnswer_out (s : State) (cmd inst cc data) : (s.sbAnswer cmd inst cc data).endStep.out =
    s.out ++ [Output.sideband ([0x7F, 0, 1, 0xE8, 0xC5] ++ leBytes 1 cmd ++ [inst] ++ leBytes 1 cc ++ data)] := rfl
end Sys2Proof.Machine
end

