-- ==== Sys2Proof/Laws/Bytes.lean ====
section
/-! SUPPORT. Bytes of module memory: which bytes a frame write, a frame copy and a host access change, and that every other byte reads as before.
The provers cite these lemmas in place of unfolding the operations. -/
namespace Sys2Proof.Machine
open Sys2Proof
theorem byte_of {s t : State} (h : t.mem = s.mem) (a) : t.byte a = s.byte a := by unfold State.byte; rw [h]
theorem byte_endStep (s : State) (a) : s.endStep.byte a = s.byte a := rfl
theorem padTo_len : ∀ (n : Nat) (l : List Byte), (padTo n l).length = n
  | 0, _ => rfl
  | n + 1, [] => congrArg (· + 1) (padTo_len n [])
  | n + 1, _ :: t => congrArg (· + 1) (padTo_len n t)
theorem headerBytes_len (a b c d) : (headerBytes a b c d).length = 8 := by unfold headerBytes; simp [leBytes_length]
theorem bytesAt_len {s : State} (h : Memory.wf s.mem = true) (a n) : (s.bytesAt a n).length = n := by rw [State.bytesAt_eq h]; simp
/-- An address in the data or the header of a frame. -/
def InFrameBytes (f a : Nat) : Prop := (frameData f ≤ a ∧ a < frameData f + 4096) ∨ (frameHdr f ≤ a ∧ a < frameHdr f + 8)
theorem writeFrame_outside {s : State} (h : Memory.wf s.mem = true) (f : Nat) (d hd : List Byte) (h1 : d.length = 4096) (h2 : hd.length = 8) (a : Nat) (ha : ¬ InFrameBytes f a) :
    ((s.writeBytes (frameData f) d).writeBytes (frameHdr f) hd).byte a = s.byte a := by
  have hw : Memory.wf (s.writeBytes (frameData f) d).mem = true := Memory.wf_memWrite h _ _
  unfold InFrameBytes at ha
  rw [State.byte_writeBytes hw, if_neg (by rw [h2]; omega), State.byte_writeBytes h, if_neg (by rw [h1]; omega)]
theorem writeFrame_byte {s : State} (h : Memory.wf s.mem = true) (f : Nat) (b x1 x2 x3 x4) (a : Nat) (ha : ¬ InFrameBytes f a) : (s.writeFrame f b x1 x2 x3 x4).byte a = s.byte a :=
  writeFrame_outside h f _ _ (padTo_len _ _) (headerBytes_len _ _ _ _) a ha
theorem writeFrame_wf {s : State} (h : Memory.wf s.mem = true) (f : Nat) (b x1 x2 x3 x4) : Memory.wf (s.writeFrame f b x1 x2 x3 x4).mem = true :=
  Memory.wf_memWrite (Memory.wf_memWrite h _ _) _ _
theorem copyFrame_byte {s : State} (h : Memory.wf s.mem = true) (g f : Nat) (a : Nat) (ha : ¬ InFrameBytes f a) : (s.copyFrame g f).byte a = s.byte a :=
  writeFrame_outside h f _ _ (bytesAt_len h _ _) (bytesAt_len h _ _) a ha
theorem copyFrame_wf {s : State} (h : Memory.wf s.mem = true) (g f : Nat) : Memory.wf (s.copyFrame g f).mem = true :=
  Memory.wf_memWrite (Memory.wf_memWrite h _ _) _ _
theorem badRead_mem (s : State) (f c) : (s.badRead f c).mem = s.mem := (State.badRead_only (Within.refl _) (OnlyChanges.refl s) f c).use .mem rfl
theorem wantFetch_mem (s : State) (h k o) : (s.wantFetch h k o).mem = s.mem := (State.wantFetch_only (Within.refl _) (OnlyChanges.refl s) h k o).use .mem rfl
theorem waitRaw_mem (s : State) (a) : (s.waitRaw a).mem = s.mem := (State.waitRaw_only (Within.refl _) (OnlyChanges.refl s) a).use .mem rfl
theorem raise_mem (s : State) (w i o b) : (s.raise w i o b).mem = s.mem := (State.raise_only (Within.refl _) (OnlyChanges.refl s) w i o b).use .mem rfl
theorem memAnswer_mem (s : State) (a b p) : (s.memAnswer a b p).mem = s.mem := by unfold State.memAnswer; split <;> rfl
theorem touch_mem (s : State) (f) : (s.touch f).mem = s.mem := (touch_parts s f).1
theorem tileAccess_read (s : State) (a : MemAcc) (ha : a.write = none) (h k x side o f bad) : (s.tileAccess a h k x side o f bad).mem = s.mem := by
  unfold State.tileAccess
  rw [ha]
  simp only
  split
  · rw [memAnswer_mem, badRead_mem, touch_mem]
  · split
    · rw [memAnswer_mem, touch_mem]
    · rw [memAnswer_mem, touch_mem]
theorem memAccess_read (s : State) (a : MemAcc) (ha : a.write = none) (bad) : (s.memAccess a bad).mem = s.mem := by
  unfold State.memAccess
  split
  · rfl
  · split
    · have h1 : ∀ u, s.aptAccess a bad = some u → u.mem = s.mem := by
        intro u hu
        unfold State.aptAccess at hu
        split at hu
        · injection hu with hu; rw [← hu]; exact memAnswer_mem _ _ _ _
        · simp only at hu
          split at hu
          · injection hu with hu; rw [← hu, memAnswer_mem, raise_mem]
          · split at hu
            · injection hu with hu; rw [← hu, memAnswer_mem, raise_mem]
            · split at hu
              · injection hu with hu; rw [← hu, memAnswer_mem, raise_mem]
              · split at hu
                · injection hu with hu; rw [← hu]; exact memAnswer_mem _ _ _ _
                · split at hu
                  · cases hu
                  · injection hu with hu; rw [← hu]; exact tileAccess_read s a ha _ _ _ _ _ _ _
      split
      · rename_i u hu; exact h1 u hu
      · exact wantFetch_mem _ _ _ _
    · split
      · exact waitRaw_mem _ _
      · split
        · unfold State.rawAccess
          simp only
          rw [ha]
          simp only
          split
          · exact memAnswer_mem _ _ _ _
          · split
            · rw [memAnswer_mem, badRead_mem, touch_mem]
            · split
              · rw [memAnswer_mem, touch_mem]
              · rw [memAnswer_mem, touch_mem]
        · rw [ha]; exact memAnswer_mem _ _ _ _
theorem writeSide_byte (f x : Nat) : ∀ (bs : List Byte) (s : State), Memory.wf s.mem = true → ∀ a, ¬(frameHdr f + 2 ≤ a ∧ a < frameHdr f + 8) → (s.writeSide f x bs).byte a = s.byte a := by
  intro bs s h a ha
  unfold State.writeSide
  have key : ∀ (l : List (Nat × Byte)) (t : State), Memory.wf t.mem = true → t.byte a = s.byte a →
      (l.foldl (fun t p => if 2 ≤ p.1 ∧ p.1 < 8 then t.putByte (frameHdr f + p.1) p.2 else t) t).byte a = s.byte a := by
    intro l
    induction l with
    | nil => intro t _ h2; exact h2
    | cons p l ih =>
      intro t h1 h2
      rw [List.foldl_cons]
      split
      · rename_i hp
        refine ih _ (Memory.wf_put h1 _ _) ?_
        rw [State.byte_putByte h1, if_neg (by omega)]; exact h2
      · exact ih t h1 h2
  exact key _ s h rfl
theorem allocShadow_mem {s q : State} {t h k c g} (e : s.allocShadow t h k c = some (g, q)) : q.mem = s.mem := by
  unfold State.allocShadow at e
  split at e
  · cases e
  · injection e with e; injection e with e1 e2; subst e2; rfl
theorem afterFlip_mem (s : State) (hm : s.host.memWait = []) (d w st) : (s.afterFlip d w st).mem = s.mem := by
  unfold State.afterFlip
  extract_lets +onlyGivenNames s1
  have m1 : OnlyChanges [.accts, .fab, .out] s s1 := State.egress_only (within_of_all rfl)
    (OnlyChanges.foldl (OnlyChanges.refl s) (fun t x h => State.sendRemote_only (within_of_all rfl) h d x))
  have hm1 : s1.host.memWait = [] := (m1.use .memWait rfl).trans hm
  have hs1 : s1.mem = s.mem := m1.use .mem rfl
  clear_value s1
  have tm : ∀ t : State, t.tidy.host.memWait = t.host.memWait := fun t => (State.tidy_only (Within.refl _) (OnlyChanges.refl t)).use .memWait rfl
  have tt : ∀ t : State, t.tidy.mem = t.mem := fun t => (State.tidy_only (Within.refl _) (OnlyChanges.refl t)).use .mem rfl
  have sa : ∀ (t : State) i, (t.settleAcks i).mem = t.mem := fun t i => (State.settleAcks_only (Within.refl _) (OnlyChanges.refl t) i).use .mem rfl
  split
  · rw [settleMem_id]
    · exact (tt _).trans ((sa _ _).trans hs1)
    · rw [tm]
      exact ((State.settleAcks_only (Within.refl _) (OnlyChanges.refl (s1.setCmd _)) _).use .memWait rfl).trans ((setCmd_mw s1 _).trans hm1)
  · split
    · rw [settleMem_id]
      · exact (tt _).trans hs1
      · rw [tm, setCmd_mw]; exact hm1
    · rw [settleMem_id]
      · exact (tt _).trans (((State.endCmd_only (Within.refl _) (OnlyChanges.refl s1) _ _ _ _ _).use .mem rfl).trans hs1)
      · rw [tm]; exact ((State.endCmd_only (Within.refl _) (OnlyChanges.refl s1) _ _ _ _ _).use .memWait rfl).trans hm1
end Sys2Proof.Machine
end

