-- ==== Sys2Proof/WellFormed.lean ====
section
/-! DEFINITION. Well-formed commands: every operand within the range that the manual gives it. -/

namespace Sys2Proof

/-- A channel number (03 R55). -/
def okChan (c : Nat) : Bool := decide (c < 4096)
/-- A logical cluster number (01 R17). -/
def okClu (n : Nat) : Bool := decide (n < 64)
/-- A physical slot number (14 R432). -/
def okSlot (p : Nat) : Bool := decide (p < 68)
/-- A port of the fabric (13 R395). -/
def okPort (p : Nat) : Bool := decide (p < 8)
/-- A module number of the fabric (13 R395). -/
def okModule (m : Nat) : Bool := decide (m < 16384)
/-- A virtual lane (13 R398). -/
def okVl (v : Nat) : Bool := decide (v < 4)
/-- A 64-byte-aligned device physical address (12 R361). -/
def okDpa (a : Nat) : Bool := decide (a < 2 ^ 46)
/-- The executing node names a channel of the module, or any launch. -/
def Node.wf : Node → Bool
  | .chan c => okChan c
  | .launch _ => true
/-- The header fields of a frame fit their widths (13 R400). -/
def Frame.wf (f : Frame) : Bool :=
  decide (f.kind < 16) && okVl f.vl && decide (f.msgType < 16) && okModule f.src && okModule f.dst &&
  decide (f.frag < 64) && decide (f.nfrag < 64) && decide (f.deadline < 65536) && decide (f.payload.length ≤ 8192)

/-- A bit position of the data path inside a check interval (07 R190): a row and a lane of a block. -/
def Glitch.wf (g : Glitch) : Bool := decide (g.row < 512) && decide (g.lane < 65) && decide (g.bit < 64)

/-- Whether every operand of a command lies in its range (DESIGN CHOICE, log entry 54). -/
def Instr.wf : Instr → Bool
  | .dispatchAdmit part => decide (part < 8)
  | .commandStart c | .commandFlip c | .commitPhaseBegin c | .runFindsCondition c _ => okClu c
  | .arrayBlockCompare c g | .skinkGroupCompare c g | .summaryCompare c g => okClu c && g.all Glitch.wf
  | .faultCountAge p => okSlot p
  | .flushReadReturn c _ | .doorbell c _ | .ringRereadIssue c | .doorbellStale c | .cqHead c _ | .orphanTimeout c =>
    okChan c
  | .ringReadReturn c slot ext =>
    okChan c && decide (slot.length = 64) && decide (ext.length ≤ 192 ∧ ext.length % 64 = 0)
  | .nop n | .timestamp n | .testOnDemand n | .fenceSignal n | .fenceWait n | .fenceTimeout n | .hostFence n
  | .launchList n | .patchList n | .objCreate n | .objFree n | .move n | .clone n | .scaleSet n => n.wf
  | .gemm c | .matvec c | .vchain c | .gatherPool c | .scatterUpdate c | .streamArm c | .streamRearm c | .hostWrite c
  | .hostRead c | .streamTransferIssue c | .streamTransferComplete c _ _ | .strCtrlDisarm _ c => okClu c
  | .hostReadLineReturn c addr line =>
    okClu c && decide (addr % 64 = 0) && (match line with | .data b => decide (b.length = 64) | _ => true)
  | .atticRefresh pc => decide (pc < 512)
  | .stackTempReport k _ | .stackTempTimeout k => decide (k < 8)
  | .acctSnap _ c _ => okChan c
  | .intLogSnap _ i => decide (i < 65536)
  | .statusClear _ off _ | .statusSetInject _ off _ | .statusToggle _ off _ =>
    decide (off < 2 ^ 26 ∧ off % 4 = 0)
  | .loRead _ off => decide (off < 2 ^ 26 + 2 ^ 24 ∧ off % 4 = 0)
  | .registerWrite _ off _ _ => decide (off < 2 ^ 26)
  | .memRd dpa len _ => okDpa dpa && decide (0 < len ∧ dpa % 64 + len ≤ 64)
  | .memWr dpa bs => okDpa dpa && decide (0 < bs.length ∧ dpa % 64 + bs.length ≤ 64)
  | .memInv dpa | .memSpecRd dpa => okDpa dpa
  | .portEnable p | .portDisable p | .portTrainingComplete p | .portTrainingTimeout p | .portFault p | .holddownExpiry p
  | .discoverSend p | .delayReqSend p | .frameDiscard p => okPort p
  | .discover p f | .data p f | .ack p f | .nak p f => okPort p && f.wf
  | .discoverReply p mac f => okPort p && decide (mac < 2 ^ 48) && f.wf
  | .routePlaneExpiry d p => okModule d && okPort p
  | .ackDue p v | .retxTimerExpiry p v | .reassemblyTimeout p v _ | .request p v | .response p v | .gather p v
  | .partials p v | .update p v | .updateAck p v | .refuse p v => okModule p && okVl v
  | .peerFailedExpiry p => okModule p
  | .tempSensorSample k _ | .tempSensorTimeout k => decide (k < 144)
  | .voltageMonitorSample k _ | .voltageMonitorTimeout k => decide (k < 64)
  | .processMonitorSample p _ | .processMonitorTimeout p => okSlot p
  | .ptpAnnounce p d _ => okPort p && decide (d < 256)
  | .ptpOffsetSample p _ => okPort p
  | .laneMargining l _ _ _ => decide (l < 16)
  | .tickEdge | .guardBandBegin | .hostCommitCutoff | .ptpSampleTimeout | .repeatPairCompare _
  | .create _ _ | .activate _ _ | .pause _ _ | .resume _ _ | .destroy _ _ | .reattach _ _ | .testDrainComplete
  | .testDrainTimeout | .testDone _ | .listPositionFetch _ _ | .listSlotIssue _ | .resolutionBegin _
  | .remoteGatherTimeout _ | .fold _ | .cellarReadLand _ _ _ | .cellarProgramComplete _ _ | .tileMoveCommit _ _ _
  | .heatScan | .scrubRead _ _ _ | .memTgtServe _ _ | .marginStart _ | .marginDone _ | .gfeFenceReset _ _
  | .gfeFenceAdd _ _ | .gfeScaleClearHist _ | .foldNow _ | .cxlAptValid _ _ | .intCluRetire _ | .intCluSuspect _
  | .secUpdFirmware _ | .secUpdConfig _ | .updateComplete _ | .secReset _ _ _ | .secRecBegin _ _ | .secRecData _ _
  | .secRecEnd _ _ | .snoop _ | .dvsecCacheEnable _ | .perstAssert | .perstDeassert | .linkL0Reached _ _
  | .linkRecoveryEnter | .linkRecoveryExit _ _ | .dlDown | .hotReset | .flr | .d3hotEntry | .d0Return | .refclkLoss
  | .clk10mQualified | .clk10mLoss | .residencyStart | .residencyAbandon | .residencyVerdict _ | .faultLogRecordWrite
  | .inputMeterSample _ _ | .meterTimeout _ | .railsOff | .powerOn _ | .watchdogExpiry | .warmResetEnd _
  | .dynamicAddressAssign _ | .i3cBusReset | .mctpMessageTimeout | .setEndpointId _ | .getEndpointId
  | .getMctpVersionSupport _ | .getMessageTypeSupport | .getEndpointUuid | .getVersion _ | .getCapabilities _
  | .negotiateAlgorithms _ _ _ | .getDigests _ | .getCertificate _ _ _ _ | .challenge _ _ _ | .getMeasurements _ _ _ _
  | .getIdentity _ _ | .getStatus _ _ | .readSensor _ _ | .readReg _ _ | .writeReg _ _ | .readLog _ _ | .readRetire _ _
  | .eraseRetire _ _ | .eraseComplete _ | .warmReset _ _ | .announceReceiptTimeout | .completionTimeout _
  | .refclkRestored | .memEnable _ _ | .vectorUnmask _ | .zeroFillComplete _ | .cloneCopyComplete _ _
  | .postedWriteDrain => true

end Sys2Proof
end

