-- ==== Sys2Proof/Tests/Slice0.lean ====
section
/-! SUPPORT. Tests of single commands, ill-formed commands that the checks refuse, and states that meet the hypotheses of the
statements. -/

namespace Sys2Proof.Tests
set_option Elab.async false
open Sys2Proof Sys2Proof.Machine

/-! ## States for the tests -/

/-- Whether every sparse map of a state is in its canonical form, as a Bool. -/
def canonB (s : State) : Bool :=
  Memory.wf s.mem && Sparse.wf regDefault s.reg.vals && Sparse.wf (fun _ => Chan.init) s.chans &&
  Sparse.wf (fun _ => ChanCq.init) s.cqs && Sparse.wf (fun _ => ChanAcct.init) s.accts && Sparse.wf (fun _ => Clu.init) s.clus &&
  Sparse.wf (fun _ => CluCnt.init) s.cnts && Sparse.wf (fun _ => PSlot.init) s.pslots &&
  Sparse.wf (fun _ => ScaleSlot.init) s.scales && Sparse.wf (fun _ => FrameRec.init) s.frames &&
  Sparse.wf (fun _ => Stream.init) s.streams && Sparse.wf (fun _ => Fence.init) s.gfe.fences &&
  decide ((s.objs.map Prod.fst).Pairwise (· < ·))

theorem canon_of {s : State} (h : canonB s = true) : s.Canon := by
  simp only [canonB, Bool.and_eq_true, decide_eq_true_eq] at h
  obtain ⟨⟨⟨⟨⟨⟨⟨⟨⟨⟨⟨⟨h1, h2⟩, h3⟩, h4⟩, h5⟩, h6⟩, h7⟩, h8⟩, h9⟩, h10⟩, h11⟩, h12⟩, h13⟩ := h
  exact ⟨h1, h2, h3, h4, h5, h6, h7, h8, h9, h10, h11, h12, h13⟩

/-- Whether the head of a node is issued in the state as it stands (the hypotheses of `State.Issues`), as a Bool. -/
def issuesB (s : State) (n : Node) (op : Nat) (d : Cmd) : Bool :=
  s.on && (match s.headOf n with | some h => slotOp h.slot == op | none => false) &&
  decide (s.prep n = (s, some d)) && slotOp d.slot == op

theorem issues_of {s : State} {n : Node} {op : Nat} {d : Cmd} (h : issuesB s n op d = true) : s.Issues n op s d := by
  simp only [issuesB, Bool.and_eq_true, decide_eq_true_eq, beq_iff_eq] at h
  obtain ⟨⟨⟨h1, h2⟩, h3⟩, h4⟩ := h
  cases e : s.headOf n with
  | none => simp [e] at h2
  | some x => exact ⟨h1, ⟨x, e, by simpa [e] using h2⟩, h3, h4⟩

/-- Whether a completion record can be written now (`State.CanRecord`), as a Bool. -/
def recordB (s : State) (c : Nat) : Bool :=
  (s.chan c).kind == .host && (s.chan c).state != .destroyed && s.mayWrite c && !s.cqFull c &&
  !(s.cq c).store.any (fun r => r.state == .held)

theorem record_of {s : State} {c : Nat} (h : recordB s c = true) : s.CanRecord c := by
  simp only [recordB, Bool.and_eq_true, beq_iff_eq, bne_iff_ne, Bool.not_eq_true'] at h
  obtain ⟨⟨⟨⟨h1, h2⟩, h3⟩, h4⟩, h5⟩ := h
  exact ⟨h1, h2, h3, h4, h5⟩

/-- The state after a command; the state itself if the command stops. -/
def after (c : Instr) (s : State) : State := match exec c s with | .next t => t | _ => s

/-- A module that serves: booted, with four SERVING clusters in partition 0, its link UP with its enables set. -/
def base : State :=
  State.regPut { State.reset with
    pslots := (List.range 4).map (fun p => (p, { PSlot.init with state := .serving, logical := some p }))
    link := { State.reset.link with state := .up, width := 16, gts := 32, perst := false, hostStep := true, cacheEn := true,
                                    memEn := true, hdm := some 0, busMaster := true, msixEn := true, memActive := true }
    sec := { State.reset.sec with step := 12 }
    sup := { State.reset.sup with allow := 1000000000, capEff := 4800 } } .gfe 0 0x320 15

/-- A slot of 64 bytes: its header fields, and operand fields as (offset, bytes, value). -/
def slotOf (op flags seq budget : Nat) (ops : List (Nat × Nat × Nat)) : List Byte :=
  leBytes 64 (ops.foldl (fun a x => a + x.2.2 % 2 ^ (8 * x.2.1) * 2 ^ (8 * x.1))
    (op + flags * 2 ^ 8 + seq * 2 ^ 16 + budget * 2 ^ 48))

/-- A slot with its CRC (03 R64). -/
def sealed (b : List Byte) : List Byte := b.take 60 ++ leBytes 4 (crc32c (b.take 60))

/-- A command of channel 3 that has been read. -/
def cmdOf (id : Nat) (slot : List Byte) : Cmd :=
  { id := id, chan := 3, launch := none, pos := 0, ctx := none, slot := slot, payload := [], cls := 0, part := 0, accTick := 0,
    reruns := 0, kills := 0, phase := .unissued, begun := false, res := none, more := none }

/-- `base` with channel 3 ACTIVE and these commands read. -/
def withCmds (cs : List Cmd) : State :=
  { base with chans := [(3, { Chan.init with state := .active, gen := 1 })]
              gfe := { base.gfe with cmds := cs, nextId := cs.length } }

/-- A fresh run of command 1 from time 0. -/
def run1 : Run :=
  { cmd := 1, startNow := 0, budget := 1000, charge := 1000, reads := [], prepared := false, checks := [], passed := [],
    skipped := 0, work := none, due := 0, commitAt := none }

/-- `withCmds` with command 1 of this slot on cluster 0, in this run. -/
def running (slot : List Byte) (r : Run) : State :=
  { withCmds [{ cmdOf 1 slot with phase := .running 0, begun := true }] with clus := [(0, { Clu.init with run := some r })] }

/-- The command of `running`. -/
def ranCmd (slot : List Byte) : Cmd := { cmdOf 1 slot with phase := .running 0, begun := true }

/-- A live object of a format with tiles at home in these frames. -/
def objOf (fmt : Nat) (fs : List Nat) : Obj :=
  { argObj with fmt := fmt, dataTiles := fs.length, tiles := fs.length, tier := 1, map := indexed 0 fs }

/-- Give a handle an object whose tiles are at home in the frames of its map, their headers written (06 R152). -/
def withObj (s : State) (h : Nat) (o : Obj) : State :=
  o.map.foldl (fun t x => (t.setFrame x.2 { FrameRec.init with state := .home, obj := h, tile := x.1 }).writeBytes (frameHdr x.2)
    (headerBytes (o.tileFmt x.1) x.1 0 scaleOne)) (s.setObj h o)

/-- The `n`-th frame of the attic. -/
def attic (n : Nat) : Nat := atticBase + n

/-! ## Commands that the checks refuse (WellFormed) -/

theorem test_wf_partition : (Instr.dispatchAdmit 8).wf = false ∧ (Instr.dispatchAdmit 7).wf = true := by decide
theorem test_wf_cluster : (Instr.commandStart 64).wf = false ∧ (Instr.commandStart 63).wf = true := by decide
theorem test_wf_glitch : (Instr.arrayBlockCompare 0 (some ⟨512, 0, 0⟩)).wf = false ∧
    (Instr.summaryCompare 0 (some ⟨0, 65, 0⟩)).wf = false ∧ (Instr.skinkGroupCompare 0 (some ⟨0, 0, 64⟩)).wf = false ∧
    (Instr.arrayBlockCompare 0 (some ⟨511, 64, 63⟩)).wf = true := by decide
theorem test_wf_slot : (Instr.faultCountAge 68).wf = false ∧ (Instr.processMonitorTimeout 68).wf = false ∧
    (Instr.faultCountAge 67).wf = true := by decide
theorem test_wf_channel : (Instr.doorbell 4096 0).wf = false ∧ (Instr.nop (.chan 4096)).wf = false ∧
    (Instr.acctSnap .host 4096 true).wf = false ∧ (Instr.doorbell 4095 0).wf = true := by decide
theorem test_wf_ring_read : (Instr.ringReadReturn 0 [] []).wf = false ∧
    (Instr.ringReadReturn 0 (List.replicate 64 0) [0]).wf = false ∧
    (Instr.ringReadReturn 0 (List.replicate 64 0) []).wf = true := by decide
theorem test_wf_line : (Instr.hostReadLineReturn 0 32 .timeout).wf = false ∧ (Instr.hostReadLineReturn 0 64 (.data [0])).wf = false ∧
    (Instr.hostReadLineReturn 0 64 .timeout).wf = true := by decide
theorem test_wf_memory : (Instr.atticRefresh 512).wf = false ∧ (Instr.stackTempTimeout 8).wf = false ∧
    (Instr.memRd 0 65 none).wf = false ∧ (Instr.memRd 32 33 none).wf = false ∧ (Instr.memWr 0 []).wf = false ∧
    (Instr.memInv (2 ^ 46)).wf = false ∧ (Instr.memRd 32 32 none).wf = true := by decide
theorem test_wf_registers : (Instr.loRead .host 2).wf = false ∧ (Instr.statusClear .host (2 ^ 26) 0).wf = false ∧
    (Instr.registerWrite .host (2 ^ 26) 0 .word).wf = false ∧ (Instr.intLogSnap .host 65536).wf = false ∧
    (Instr.loRead .host 4).wf = true := by decide
theorem test_wf_fabric : (Instr.portEnable 8).wf = false ∧ (Instr.ackDue 16384 0).wf = false ∧ (Instr.ackDue 0 4).wf = false ∧
    (Instr.peerFailedExpiry 16384).wf = false ∧ (Instr.routePlaneExpiry 0 8).wf = false ∧
    (Instr.ptpAnnounce 0 256 ⟨0, 0, 0, 0, 0, 0, 0, 0⟩).wf = false ∧ (Instr.ackDue 16383 3).wf = true := by decide
/-- A frame as received: a DATA frame of one-frame message 7 from module 5 on lane 1. -/
def frame5 : Frame :=
  { kind := 0, vl := 1, isNew := false, reset := false, msgType := 5, src := 5, dst := 0, psn := 3, ackPsn := 0, credit := 256,
    msgId := 7, frag := 0, nfrag := 0, deadline := 0, payload := [0, 0, 0, 0], crcOk := true }
theorem test_wf_frame : (Instr.data 0 { frame5 with vl := 4 }).wf = false ∧ (Instr.data 0 { frame5 with frag := 64 }).wf = false ∧
    (Instr.discoverReply 0 (2 ^ 48) frame5).wf = false ∧ (Instr.data 0 frame5).wf = true := by decide
theorem test_wf_monitors : (Instr.tempSensorSample 144 0).wf = false ∧ (Instr.voltageMonitorSample 64 0).wf = false ∧
    (Instr.laneMargining 16 true 0 0).wf = false ∧ (Instr.tempSensorSample 143 0).wf = true := by decide

/-- No word of the table's bits spells a command (opcode_table.json gives no row any bits). -/
theorem test_no_word : decodeTableWord 32 0 = none ∧ State.reset.withFetchWord 32 0 = State.reset := by decide +kernel

/-! ## The block as a whole -/

theorem test_reset_queue : State.reset.pending = [] := rfl
theorem witness_step : step { base with pending := [.snoop 0] } = exec (.snoop 0) base := rfl

/-- An unpowered module. -/
def off : State := { State.reset with sb := { State.reset.sb with powered := false } }

theorem witness_off : off.on = false ∧ after (.snoop 0) off = off ∧ step off = .next off := by
  exact ⟨by decide +kernel, by decide +kernel, rfl⟩
theorem witness_idle_cycle : base.pending = [] ∧ base.on = true ∧ base.clk.stage = .early ∧ base.clk.cyc + 1 < base.cutoff := by
  decide +kernel
theorem witness_inv : canonB base = true ∧ (base.clk.stage = .guard ↔ base.staged.isSome = true) := by decide +kernel

/-! ## The clock and the serving tick (02) -/

/-- `base` in its guard band. -/
def guarded : State := after .guardBandBegin base

theorem witness_tick_edge : guarded.on = true ∧ guarded.clk.stage = .guard ∧ guarded.staged.isSome = true ∧
    (after .tickEdge guarded).clk.tick = 1 ∧ (after .tickEdge guarded).clk.cyc = 0 ∧
    (after .tickEdge guarded).clk.stage = .early ∧ (after .tickEdge guarded).staged = none ∧
    (after .tickEdge guarded).clk.len = 130000 := by decide +kernel
theorem witness_guard_band : base.on = true ∧ base.clk.stage ≠ .guard ∧ guarded.clk.cyc = 127400 ∧ guarded.clk.tick = 0 ∧
    (after (.dispatchAdmit 0) guarded).out = guarded.out := by decide +kernel

/-- A `HOST_WRITE` of 4,096 bytes of object 7. -/
def slotHw : List Byte := slotOf 0x38 0 0 1000 [(24, 4, 7), (36, 4, 4096)]
/-- The `HOST_WRITE` in device work on cluster 0. -/
def hwRun : State := running slotHw { run1 with charge := 5096 }

theorem witness_cutoff : hwRun.on = true ∧ hwRun.clk.stage = .early ∧ canonB hwRun = true ∧
    (hwRun.toCycle hwRun.cutoff).inWork (fun e => writesHost e.slot) = [0] ∧
    (hwRun.toCycle hwRun.cutoff).running 0 = some ({ run1 with charge := 5096 }, ranCmd slotHw) ∧ (ranCmd slotHw).paired = false ∧
    ((after .hostCommitCutoff hwRun).clu 0).run = none ∧ ((after .hostCommitCutoff hwRun).clu 0).overruns = 1 ∧
    (after .hostCommitCutoff hwRun).clk.cyc = 123304 := by decide +kernel

/-! ## Time synchronisation (02) -/

/-- `base` in a state of time synchronisation, with port 2 and domain 0 as its source. -/
def synced (st : TsState) (xs : List Int) (k : Nat) : State :=
  { base with ts := { base.ts with state := st, samples := xs, discards := k, source := some 2 } }

/-- A one-step Sync sent at 100, received that many nanoseconds later; the source's path delay is 0. -/
def syncOf (ns : Int) : PtpMsg := .sync 1 (some 100) (100 + ns) 0
theorem witness_sample_discarded : (synced .locked [0] 6).ptpRuns = true ∧ (synced .locked [0] 6).sourceFollowed = true ∧
    (synced .locked [0] 6).ts.source = some ((synced .locked [0] 6).tsDomain * 8 + 2) ∧
    (synced .locked [0] 6).ts.sampleOf (syncOf 1000001) = some (-1000001) ∧
    (synced .locked [0] 6).tsOffset = 0 ∧ (after (.ptpOffsetSample 2 (syncOf 1000001)) (synced .locked [0] 6)).ts.discards = 7 ∧
    (after (.ptpOffsetSample 2 (syncOf 1000001)) (synced .locked [0] 6)).ts.samples = [0] := by decide +kernel
theorem witness_sample_eighth : (synced .locked [0] 7).sourceFollowed = true ∧
    (after (.ptpOffsetSample 2 (syncOf (-1000001))) (synced .locked [0] 7)).ts.state = .acquiring := by decide +kernel
theorem witness_sample_kept : (after (.ptpOffsetSample 2 (syncOf (-1000000))) (synced .locked [0] 7)).ts.samples = [1000000, 0] ∧
    (after (.ptpOffsetSample 2 (syncOf (-5))) (synced .acquiring [1, 2, 3, 4, 5, 6, 7, 8] 0)).ts.samples = [5, 1, 2, 3, 4, 5, 6, 7] ∧
    (after (.ptpOffsetSample 2 (syncOf (-5))) (synced .holdover [] 0)).ts.state = .acquiring ∧
    after (.ptpOffsetSample 3 (syncOf 0)) (synced .locked [] 0) = synced .locked [] 0 := by decide +kernel
theorem witness_sample_parts : (synced .locked [] 0).ts.sampleOf (.sync 7 none 108 2) = none ∧
    (after (.ptpOffsetSample 2 (.sync 7 none 108 2)) (synced .locked [] 0)).ts.sync = some (7, 108, 2) ∧
    (after (.ptpOffsetSample 2 (.followUp 7 100 1)) (after (.ptpOffsetSample 2 (.sync 7 none 108 2)) (synced .locked [] 0))).ts.samples =
      [-5] := by decide +kernel
/-- A synchronised module in a cycle. -/
def syncedAt (st : TsState) (n : Nat) : State := { synced st [] 0 with clk := { base.clk with now := n } }
theorem witness_sample_timeout : (after .ptpSampleTimeout (syncedAt .locked sampleTimeout)).ts.state = .holdover ∧
    (after .ptpSampleTimeout (syncedAt .acquiring sampleTimeout)).ts.state = .free ∧
    after .ptpSampleTimeout (syncedAt .locked (sampleTimeout - 1)) = syncedAt .locked (sampleTimeout - 1) := by decide +kernel
/-- A master of a priority. -/
def master (prio : Nat) : PtpMaster := ⟨prio, 6, 0x21, 0, 128, 1, 0, prio⟩
/-- `base` with masters announced on ports 2 and 3. -/
def announced : State := { base with ts := { base.ts with masters := [(2, master 7), (3, master 9)], source := some 2 } }
theorem witness_announce : base.tsDomain = 0 ∧ base.ptpPort 2 = true ∧ (after (.ptpAnnounce 2 0 (master 7)) base).ts.source = some 2 ∧
    after (.ptpAnnounce 2 1 (master 7)) base = base ∧ (after (.ptpAnnounce 3 0 (master 6)) announced).ts.source = some 3 ∧
    bestMaster announced.masterList = some (2, master 7) ∧ (after .announceReceiptTimeout announced).ts.source = some 3 ∧
    (after .announceReceiptTimeout base).ts.source = none := by decide +kernel
/-- `base` with a port in a state. -/
def portIn (st : PortState) : State := { base with fab := { base.fab with ports := [(2, ⟨st, 0, 0, 0⟩)] } }
theorem witness_delay_req : (portIn .up).ptpRuns = true ∧ (portIn .up).tsOn = true ∧ (portIn .up).ptpPort 2 = true ∧
    ((portIn .up).port 2).state = .up ∧ (after (.delayReqSend 2) (portIn .up)).out = [.delayReq 2] := by decide +kernel

/-! ## Scheduling (02, 05) and checks of runs (14) -/

/-- `withCmds` with BF16 objects 11 (X, four tiles), 12 (W) and 13 (Y, FP32) at home in the attic. -/
def products (s : State) : State :=
  withObj (withObj (withObj s 11 (objOf 0x05 [attic 0, attic 1, attic 2, attic 3])) 12 (objOf 0x05 [attic 4]))
    13 (objOf 0x04 [attic 5])
/-- A `GEMM` of 1 x 1 x 16 on the array. -/
def slotGm : List Byte :=
  slotOf 0x20 0 0 1000 [(16, 4, 11), (20, 4, 12), (24, 4, 13), (36, 8, 1 + 2 ^ 20 + 16 * 2 ^ 40), (56, 4, 24)]
/-- A `MATVEC` of 1 x 1 x 16. -/
def slotMv : List Byte := slotOf 0x21 0 0 1000 [(16, 4, 11), (20, 4, 12), (24, 4, 13), (40, 8, 1 + 2 ^ 4 + 16 * 2 ^ 24)]
/-- The `GEMM` at the head of channel 3. -/
def gemmHead : State := products (withCmds [cmdOf 1 slotGm])
/-- `gemmHead` once its dispatcher has begun a decision. -/
def gemmDec : State :=
  { gemmHead with gfe := { gemmHead.gfe with lastAdmit := Sparse.put (fun _ => 0) gemmHead.gfe.lastAdmit 0 (gemmHead.clk.now + 1) } }

theorem witness_dispatch : canonB gemmHead = true ∧ gemmHead.coresRun = true ∧ gemmHead.sup.stopping = false ∧
    gemmHead.partOn 0 = true ∧ gemmHead.clk.cyc < gemmHead.G ∧ gemmHead.decided 0 = false ∧ gemmDec.candidates 0 = [1] ∧
    gemmDec.cmd? 1 = some (cmdOf 1 slotGm) ∧ slotOp slotGm = 0x20 ∧
    gemmDec.prep (cmdOf 1 slotGm).node = (gemmDec, some (cmdOf 1 slotGm)) := by decide +kernel
theorem witness_dispatch_fits : gemmDec.inherited (cmdOf 1 slotGm) = none ∧ gemmDec.operandBad (cmdOf 1 slotGm) = [] ∧
    slotCharge slotGm ≤ gemmDec.limitOf 0 ∧ (gemmDec.withScales (gemmDec.headTiles (cmdOf 1 slotGm))).filter gemmDec.inCellar = [] ∧
    (gemmDec.openClus 0).find? (fun m => gemmDec.fits m 1000) = some 0 ∧ gemmDec.sup.charged + 1000 ≤ gemmDec.sup.allow ∧
    gemmDec.roomFor 0 (gemmDec.demandOf (cmdOf 1 slotGm)) = true := by decide +kernel
theorem test_dispatch_admit : ((after (.dispatchAdmit 0) gemmHead).clu 0).queue = [(1, 1000)] ∧
    (after (.dispatchAdmit 0) gemmHead).sup.charged = 1000 := by decide +kernel

/-- The `GEMM` in the queue of cluster 0 with a charge. -/
def queued (k : Nat) : State := { gemmHead with clus := [(0, { Clu.init with queue := [(1, k)] })] }
theorem witness_start : canonB (queued 127400) = true ∧ ((queued 127400).clu 0).run = none ∧
    (queued 127400).clk.cyc + ((queued 127400).startAt 0 - (queued 127400).clk.now) + 127400 ≤ (queued 127400).limitAt 0 ∧
    ((after (.commandStart 0) (queued 127400)).clu 0).run.map Run.cmd = some 1 ∧
    ((after (.commandStart 0) (queued 127400)).clu 0).queue = [] := by decide +kernel
theorem witness_start_deferred : (queued 127401).limitAt 0 < (queued 127401).clk.cyc + 127401 ∧ (cmdOf 1 slotGm).paired = false ∧
    ((after (.commandStart 0) (queued 127401)).clu 0).run = none ∧ ((after (.commandStart 0) (queued 127401)).clu 0).queue = [] ∧
    ((after (.commandStart 0) (queued 127401)).clu 0).deferrals = 1 := by decide +kernel

/-- The work of a `GEMM` whose output tile stands in attic frame 9. -/
def gmWork : RunWork := { RunWork.empty with shadows := [⟨13, 0, attic 9⟩] }
/-- The `GEMM` with its device work over. -/
def toFlip : State :=
  (products (running slotGm { run1 with prepared := true, work := some gmWork })).setFrame (attic 9)
    { FrameRec.init with state := .shadow, obj := 13 }
theorem witness_flip : canonB toFlip = true ∧
    (toFlip.runFold 0).flipReady 0 = some ({ run1 with prepared := true, work := some gmWork }, ranCmd slotGm, gmWork) ∧
    (ranCmd slotGm).paired = false ∧ toFlip.host.memWait = [] ∧ (gmWork.shadows.map (fun h => (h.obj, h.tile))).Nodup ∧
    ((toFlip.runFold 0).obj? 13).map Obj.freed = some false ∧ ((after (.commandFlip 0) toFlip).clu 0).run = none ∧
    ((after (.commandFlip 0) toFlip).clu 0).used = 1 ∧ (after (.commandFlip 0) toFlip).homeOf 13 0 = some (attic 9) := by
  decide +kernel

/-- A repeat pair of command 1 with runs on clusters 0 and 1. -/
def pair01 (a b : Option PairRun) : RepeatPair := { first := 0, slot := 0, cause := 1, run2 := a, run3 := b, view := [] }
/-- `toFlip` whose run is the second of a pair. -/
def pairFlip : State := toFlip.setCmd { ranCmd slotGm with more := some (pair01 (some (PairRun.start 0)) none) }
theorem witness_pair_flip : canonB pairFlip = true ∧ ((pairFlip.runFold 0).flipReady 0).isSome = true ∧
    (pairFlip.cmd? 1).map Cmd.paired = some true ∧
    ((after (.commandFlip 0) pairFlip).cmd? 1).map (fun d => d.more.map (fun m => m.run2.map PairRun.done)) = some (some (some true)) := by
  decide +kernel

/-- The `HOST_WRITE` with its bytes staged and its device work over. -/
def hwWork : RunWork := { RunWork.empty with host := [(0x1000, [1, 2, 3])] }
/-- Its run, with its device work over in cycle `due`. -/
def hwDone (due : Nat) : State :=
  let s := running slotHw { run1 with charge := 5096, work := some hwWork, due := due }
  { s with host := { s.host with staged := [(1, 3)] } }
theorem witness_commit : canonB (hwDone 0) = true ∧
    (hwDone 0).running 0 = some ({ run1 with charge := 5096, work := some hwWork, due := 0 }, ranCmd slotHw) ∧ slotOp slotHw = 0x38 ∧
    ((hwDone 0).chan 3).kind = .host ∧ (hwDone 0).elapsed run1 = 0 ∧ (hwDone 0).clk.cyc ≤ (hwDone 0).cutoff ∧
    (after (.commitPhaseBegin 0) (hwDone 0)).host.posted.map Posted.bytes = [[1, 2, 3]] ∧
    (after (.commitPhaseBegin 0) (hwDone 0)).host.staged = [] ∧
    after (.commitPhaseBegin 0) (hwDone 1) = hwDone 1 := by decide +kernel

/-- The fresh `GEMM`, with its W tile POISONED. -/
def gmPoisoned : State :=
  (products (running slotGm run1)).setFrame (attic 4) { FrameRec.init with state := .poisoned, obj := 12 }
theorem witness_condition : canonB gmPoisoned = true ∧ gmPoisoned.running 0 = some (run1, ranCmd slotGm) ∧
    (gmPoisoned.foundCond (ranCmd slotGm)) = some (stPoisoned, 12, 0) ∧
    ((after (.runFindsCondition 0 none) gmPoisoned).clu 0).run = none := by decide +kernel
theorem witness_no_condition : (products (running slotGm run1)).foundCond (ranCmd slotGm) = none ∧
    after (.runFindsCondition 0 none) (products (running slotGm run1)) = products (running slotGm run1) ∧
    ((after (.runFindsCondition 0 (some .production)) (products (running slotGm run1))).clu 0).run = none := by decide +kernel

/-- Command 1 waits for the comparison of its pair. -/
def pairDone (a b : PairRun) : State := products (withCmds [{ cmdOf 1 slotGm with phase := .admitted 0, more := some (pair01 (some a) (some b)) }])
/-- A run of a pair that is done. -/
def pairRun (n : Nat) (trig : Bool) : PairRun := { PairRun.start n with done := true, trigger := trig, work := some RunWork.empty }
theorem witness_pair_suspect : canonB (pairDone (pairRun 0 true) (pairRun 1 false)) = true ∧
    ((pairDone (pairRun 0 true) (pairRun 1 false)).cmd? 1).map Cmd.paired = some true ∧
    ((pairDone (pairRun 0 true) (pairRun 1 false)).pslot 0).state = .serving ∧
    ((after (.repeatPairCompare 1) (pairDone (pairRun 0 true) (pairRun 1 false))).pslot 0).state = .suspect := by decide +kernel
theorem witness_pair_agree : (pairDone (pairRun 0 false) (pairRun 1 false)).agree
      { cmdOf 1 slotGm with phase := .admitted 0, more := some (pair01 (some (pairRun 0 false)) (some (pairRun 1 false))) }
      (pairRun 0 false) (pairRun 1 false) = true ∧ isFailure (pairRun 1 false).status = false ∧
    ((after (.repeatPairCompare 1) (pairDone (pairRun 0 false) (pairRun 1 false))).pslot 0).faults = [0] := by decide +kernel
theorem test_fault_age : ((after (.faultCountAge 0) { base with
    pslots := [(0, { PSlot.init with faults := [0, 1] })], clk := { base.clk with now := 86400 * 1300000000 } }).pslot 0).faults = [1] := by
  decide +kernel

/-- A check of one row with these accumulators and check value, on the INT32 path. -/
def chk (kind : CheckKind) (i v : Nat) : Check :=
  { kind := kind, index := i, row0 := 0, col0 := 0, int := true, rows := [[5, 6]], cols := [v], mags := [0], due := 0 }
/-- The `GEMM` or `MATVEC` with two checks to pass. -/
def checking (arr : Bool) (v : Nat) : State :=
  products (running (if arr then slotGm else slotMv) { run1 with prepared := true, checks :=
    let k : CheckKind := if arr then .array else .skink
    [chk k 0 v, chk k 1 11] })
theorem witness_compare_passes : canonB (checking true 11) = true ∧ (checking true 11).injected 0 (chk .array 0 11) = none ∧
    (chk .array 0 11).verdict ((checking true 11).product slotGm).kb 0 false = ([], 0) ∧
    ((after (.arrayBlockCompare 0 none) (checking true 11)).cnt 0).mxaBlocks = 1 ∧
    ((after (.arrayBlockCompare 0 none) (checking true 11)).clu 0).run.map (fun r => r.checks.length) = some 1 ∧
    (checking false 11).injected 0 (chk .skink 0 11) = none ∧
    ((after (.skinkGroupCompare 0 none) (checking false 11)).cnt 0).mvpBlocks = 1 := by decide +kernel
theorem witness_compare_stops : ((chk .array 0 12).verdict ((checking true 12).product slotGm).kb 0 false).1 = [0] ∧
    ((after (.arrayBlockCompare 0 none) (checking true 12)).cnt 0).mxaMismatch = 1 ∧
    ((after (.arrayBlockCompare 0 none) (checking true 12)).clu 0).run = none ∧
    ((after (.skinkGroupCompare 0 none) (checking false 12)).cnt 0).mvpMismatch = 1 := by decide +kernel
/-- `checking` in cycle G. -/
def lateCheck : State :=
  let s := checking true 11
  { s with clk := { s.clk with cyc := 127400 } }
theorem witness_compare_early : after (.arrayBlockCompare 0 none) lateCheck =
    lateCheck := by decide +kernel

/-- A `VCHAIN` whose two reducers are to be compared. -/
def summing : State :=
  running (slotOf 0x22 0 0 1000 []) { run1 with
    prepared := true, work := some RunWork.empty, checks := [{ chk .summary 0 0 with rows := [[5, 6]], cols := [0, 1] }] }
theorem witness_summary : canonB summing = true ∧ (summing.running 0).isSome = true ∧ summing.fld .clu 0 0x194 31 31 = 0 ∧
    summing.fld .clu 0 0x180 0 0 = 1 ∧ ((after (.summaryCompare 0 none) summing).cnt 0).vecPasses = 1 ∧
    ((after (.summaryCompare 0 none) summing).clu 0).run.map Run.checks = some [] ∧
    ((after (.summaryCompare 0 (some ⟨0, 1, 0⟩)) summing).cnt 0).vecAnomalies = 1 ∧
    ((after (.summaryCompare 0 (some ⟨0, 1, 0⟩)) summing).clu 0).run = none := by decide +kernel

/-! ## Channels and rings (03, 04, 12) -/

/-- `base` with channel 0, which both accessors have selected, in a state under generation 1, and a command of it. -/
def chan0 (k : ChanKind) (st : ChanState) : State :=
  { base with chans := [(0, { Chan.init with kind := k, state := st, gen := 1 })]
              gfe := { base.gfe with cmds := [{ cmdOf 1 (slotOf 0 0 0 0 []) with chan := 0 }], nextId := 1 } }

theorem witness_create : canonB base = true ∧ base.served = true ∧ base.selChan .host = 0 ∧ (base.chan 0).kind = .host ∧
    (base.chan 0).state = .destroyed ∧ ((after (.create .host 5) base).chan 0).state = .created ∧
    ((after (.create .host 5) base).chan 0).gen = 1 := by decide +kernel
theorem witness_create_ignored : (chan0 .fabric .active).served = true ∧ ((chan0 .fabric .active).chan 0).kind = .fabric ∧
    ((after (.create .host 1) (chan0 .fabric .active)).regGet .gfe 0 0x22C).testBit 0 = true ∧
    (after (.create .host 1) (chan0 .host .active)).chan 0 = (chan0 .host .active).chan 0 := by decide +kernel
theorem witness_activate : canonB (chan0 .host .created) = true ∧ ((chan0 .host .created).chan 0).gen = 1 ∧
    (chan0 .host .created).link.cacheEn = true ∧ ((after (.activate .host 1) (chan0 .host .created)).chan 0).state = .active ∧
    ((after (.destroy .sideband 1) (chan0 .host .created)).chan 0).state = .destroyed := by decide +kernel
theorem witness_pause_destroy : canonB (chan0 .host .active) = true ∧ (chan0 .host .active).cmdsOf 0 ≠ [] ∧
    ((after (.pause .host 1) (chan0 .host .active)).chan 0).state = .paused .host ∧
    ((after (.destroy .host 1) (chan0 .host .active)).chan 0).state = .draining := by decide +kernel
theorem witness_resume : canonB (chan0 .host (.paused .reattach)) = true ∧
    ((after (.resume .host 1) (chan0 .host (.paused .reattach))).chan 0).state = .active ∧
    ((after (.reattach .host 1) (chan0 .host .orphaned)).chan 0).state = .paused .reattach := by decide +kernel
theorem witness_chan_ignored : ((chan0 .host .active).chan 0).gen ≠ 2 ∧
    (after (.pause .host 2) (chan0 .host .active)).chan 0 = (chan0 .host .active).chan 0 ∧
    ((after (.pause .host 2) (chan0 .host .active)).regGet .gfe 0 0x22C).testBit 0 = true ∧
    ((after (.reattach .host 1) (chan0 .fabric .orphaned)).regGet .gfe 0 0x22C).testBit 0 = true := by decide +kernel

theorem witness_doorbell : ((64 : BitVec 32) - ((chan0 .host .active).chan 0).head).toNat ≤ 2 ^ (chan0 .host .active).fld .gfe 0 0x210 4 0 ∧
    ((after (.doorbell 0 64) (chan0 .host .active)).chan 0).tail = 64 ∧
    2 ^ (chan0 .host .active).fld .gfe 0 0x210 4 0 < ((65 : BitVec 32) - ((chan0 .host .active).chan 0).head).toNat ∧
    ((after (.doorbell 0 65) (chan0 .host .active)).chan 0).tail = 0 ∧
    ((after (.doorbell 0 1) (chan0 .host (.paused .stale))).chan 0).state = .active := by decide +kernel
/-- `chan0` with 64 records written of which none is consumed. -/
def fullCq : State := { chan0 .host .active with cqs := [(0, { ChanCq.init with next := 64 })] }
theorem witness_cq_head : canonB fullCq = true ∧ ((fullCq.cq 0).next - 0).toNat ≤ 2 ^ fullCq.cqLog 0 ∧
    (fullCq.cq 0).store.any (fun r => r.state == .held) = false ∧ ((after (.cqHead 0 64) fullCq).cq 0).head = 64 ∧
    fullCq.cqFull 0 = true := by decide +kernel
/-- `chan0` orphaned, with its timeout of 60 s over. -/
def orphan : State :=
  let s := chan0 .host .orphaned
  { s with clk := { s.clk with now := 4095 * secCycles } }
theorem witness_orphan : (orphan.chan 0).orphanedAt + orphan.fld .cxl 0 0x020 11 0 * secCycles ≤ orphan.clk.now ∧
    ((after (.orphanTimeout 0) orphan).chan 0).timedOut = true := by decide +kernel

/-- A `NOP` slot with its CRC and a SEQ. -/
def nopSlot (seq : Nat) : List Byte := sealed (slotOf 0x00 0 seq 0 [])
/-- Channel 0 ACTIVE with its tail at 1 and its ring read in flight. -/
def reading : State :=
  { base with chans := [(0, { Chan.init with state := .active, gen := 1, tail := 1 })]
              host := { base.host with reads := [⟨.ring 0, 0, 0⟩] } }
/-- `reading` with a re-read schedule, at a time. -/
def rereading (r : Reread) (now : Nat) : State :=
  let s := reading.setChan 0 { reading.chan 0 with reread := some r }
  { s with clk := { s.clk with now := now } }
theorem witness_ring_accept : canonB reading = true ∧ (reading.chan 0).state = .active ∧
    takeFirst (fun r : HostRd => r.id == .ring 0) reading.host.reads = some (⟨.ring 0, 0, 0⟩, []) ∧ slotSeq (nopSlot 0) = 0 ∧
    slotCrcOk (nopSlot 0) = true ∧ 1 + slotExt (nopSlot 0) ≤ ((reading.chan 0).tail - (reading.chan 0).head).toNat ∧
    slotXcrcOk (nopSlot 0) [] = true := by decide +kernel
/-- `reading` with its ring read taken. -/
def readTaken : State :=
  (State.setChan { reading with host := { reading.host with reads := [] } } 0 { reading.chan 0 with reread := none }).dropReads 0
theorem witness_ring_accept_ctx : readTaken.acceptBad 0 (nopSlot 0) = none ∧ readTaken.ctxFree 0 = true ∧
    (after (.ringReadReturn 0 (nopSlot 0) []) reading).gfe.cmds.map Cmd.slot = [nopSlot 0] ∧
    ((after (.ringReadReturn 0 (nopSlot 0) []) reading).chan 0).head = 1 ∧
    ((after (.ringReadReturn 0 (nopSlot 0) []) reading).chan 0).expSeq = 1 := by decide +kernel
theorem witness_ring_ext_wait : slotExt (sealed (slotOf 0x40 16 0 0 [])) = 1 ∧ slotCrcOk (sealed (slotOf 0x40 16 0 0 [])) = true ∧
    ((after (.ringReadReturn 0 (sealed (slotOf 0x40 16 0 0 [])) []) reading).chan 0).extWait = 2 := by decide +kernel
theorem witness_ring_wrong : slotSeq (nopSlot 9) ≠ (reading.chan 0).expSeq.toNat ∧
    ((after (.ringReadReturn 0 (nopSlot 9) []) reading).chan 0).reread = some ⟨0, 0, 0, 9⟩ ∧
    slotCrcOk (slotOf 0x00 0 0 0 []) = false ∧
    ((after (.ringReadReturn 0 (slotOf 0x00 0 0 0 []) []) (rereading ⟨0, 8, 7, 0⟩ 2599)).chan 0).reread = some ⟨0, 8, 8, 0⟩ := by
  decide +kernel
theorem witness_reread : (rereading ⟨0, 7, 0, 0⟩ 2080).linkUp = true ∧
    ((after (.ringRereadIssue 0) (rereading ⟨0, 7, 0, 0⟩ 2080)).chan 0).reread = some ⟨0, 8, 0, 0⟩ ∧
    (after (.ringRereadIssue 0) (rereading ⟨0, 7, 0, 0⟩ 2080)).out = [.ringRead 0 0 (base.ringAddr 0 0)] ∧
    after (.ringRereadIssue 0) (rereading ⟨0, 7, 0, 0⟩ 2079) = rereading ⟨0, 7, 0, 0⟩ 2079 := by decide +kernel
theorem witness_stale : ((after (.doorbellStale 0) (rereading ⟨0, 8, 8, 7⟩ 0)).chan 0).state = .paused .stale ∧
    ((after (.doorbellStale 0) (rereading ⟨0, 8, 0, 7⟩ 2600)).chan 0).stale = 0x70000 := by decide +kernel

/-! ## Commands of the front end (03, 04) -/

/-- Command 1 of a slot at the head of channel 3. -/
def head (slot : List Byte) : State := withCmds [cmdOf 1 slot]

theorem witness_nop : issuesB (head (slotOf 0 0 7 0 [])) (.chan 3) 0x00 (cmdOf 1 (slotOf 0 0 7 0 [])) = true ∧
    recordB (head (slotOf 0 0 7 0 [])) 3 = true ∧ slotQuiet (slotOf 0 0 7 0 []) = false ∧
    (head (slotOf 0 0 7 0 [])).recordOut (cmdOf 1 (slotOf 0 0 7 0 [])) 255 stOk 0 0 ∈ (after (.nop (.chan 3)) (head (slotOf 0 0 7 0 []))).out := by
  decide +kernel
/-- A `TIMESTAMP` into object 5 at a byte offset; of no object. -/
def slotTs (off : Nat) : List Byte := slotOf 0x01 0 0 0 [(16, 1, 2), (20, 4, 5), (24, 4, off)]
/-- Such a `TIMESTAMP` at its head, with object 5 of one tile in the attic. -/
def tsHead (off : Nat) : State := withObj (head (slotTs off)) 5 (objOf 0 [attic 0])
theorem witness_timestamp : canonB (tsHead 4080) = true ∧ issuesB (tsHead 4080) (.chan 3) 0x01 (cmdOf 1 (slotTs 4080)) = true ∧
    recordB (tsHead 4080) 3 = true ∧ (tsHead 4080).liveObj 5 = some (objOf 0 [attic 0]) ∧ 4080 + 16 ≤ (objOf 0 [attic 0]).tiles * 4096 ∧
    (tsHead 4080).homeOf 5 0 = some (attic 0) ∧ ((tsHead 4080).frame (attic 0)).state = .home ∧
    (after (.timestamp (.chan 3)) (tsHead 4080)).homeOf 5 0 = some (attic 1) ∧
    (after (.timestamp (.chan 3)) (tsHead 4080)).bytesAt (frameData (attic 1) + 4080) 16 = (tsHead 4080).stampRecord := by
  decide +kernel
theorem witness_timestamp_bad : issuesB (tsHead 8) (.chan 3) 0x01 (cmdOf 1 (slotTs 8)) = true ∧
    (tsHead 8).recordOut (cmdOf 1 (slotTs 8)) 255 stRange 24 0 ∈ (after (.timestamp (.chan 3)) (tsHead 8)).out ∧
    issuesB (head (slotOf 1 0 0 0 [])) (.chan 3) 0x01 (cmdOf 1 (slotOf 1 0 0 0 [])) = true := by decide +kernel

/-- A `FENCE_SIGNAL` of fence 6 under generation 0: ADD, or MAX. -/
def slotSig (h max : Nat) (v : Nat) : List Byte := slotOf 0x08 0 0 0 [(16, 4, h), (20, 1, max), (24, 8, v)]
/-- It stands at its head, the fence at 10. -/
def sigHead (h m v : Nat) : State := (head (slotSig h m v)).setFence 6 ⟨10, 0⟩
theorem witness_fence_signal : issuesB (sigHead 6 0 5) (.chan 3) 0x08 (cmdOf 1 (slotSig 6 0 5)) = true ∧ recordB (sigHead 6 0 5) 3 = true ∧
    (sigHead 6 0 5).fenceOk 6 = true ∧ ((after (.fenceSignal (.chan 3)) (sigHead 6 0 5)).fence 6).val = 15 ∧
    ((after (.fenceSignal (.chan 3)) (sigHead 6 1 5)).fence 6).val = 10 ∧
    ((after (.fenceSignal (.chan 3)) (sigHead 6 0 (2 ^ 32 - 1))).fence 6).val = 2 ^ 32 + 9 := by decide +kernel
theorem witness_fence_signal_bad : (sigHead 4102 0 5).fenceOk 4102 = false ∧
    (sigHead 4102 0 5).recordOut (cmdOf 1 (slotSig 4102 0 5)) 255 stRange 16 0 ∈ (after (.fenceSignal (.chan 3)) (sigHead 4102 0 5)).out ∧
    (sigHead 6 0 0).recordOut (cmdOf 1 (slotSig 6 0 0)) 255 stRange 24 0 ∈ (after (.fenceSignal (.chan 3)) (sigHead 6 0 0)).out ∧
    (sigHead 6 0 (2 ^ 32)).recordOut (cmdOf 1 (slotSig 6 0 (2 ^ 32))) 255 stRange 24 0 ∈
      (after (.fenceSignal (.chan 3)) (sigHead 6 0 (2 ^ 32))).out := by decide +kernel

/-- A `FENCE_WAIT` on fence 6. -/
def slotWait (v : Nat) : List Byte := slotOf 0x09 0 0 0 [(16, 4, 6), (24, 8, v)]
/-- It stands at its head, in a phase, the fence at 10. -/
def waitHead (v : Nat) (p : Phase) : State := (withCmds [{ cmdOf 1 (slotWait v) with phase := p }]).setFence 6 ⟨10, 0⟩
theorem witness_fence_wait : issuesB (waitHead 10 .unissued) (.chan 3) 0x09 (cmdOf 1 (slotWait 10)) = true ∧
    (waitHead 10 .unissued).recordOut (cmdOf 1 (slotWait 10)) 255 stOk 0 10 ∈ (after (.fenceWait (.chan 3)) (waitHead 10 .unissued)).out ∧
    issuesB (waitHead 10 (.waiting 0)) (.chan 3) 0x09 { cmdOf 1 (slotWait 10) with phase := .waiting 0 } = true ∧
    (after (.fenceWait (.chan 3)) (waitHead 10 (.waiting 0))).gfe.cmds = [] ∧
    (waitHead 11 .unissued).fenceOk 6 = true ∧ (waitHead 11 .unissued).closesCycle (.chan 3) 6 = false ∧
    (after (.fenceWait (.chan 3)) (waitHead 11 .unissued)).gfe.cmds.map Cmd.phase = [.waiting 0] := by decide +kernel
/-- A `FENCE_WAIT` before the one `FENCE_SIGNAL` of its fence, in its own channel. -/
def cycleHead : State := withCmds [cmdOf 1 (slotWait 1), cmdOf 2 (slotSig 6 0 1)]
theorem witness_fence_cycle : issuesB cycleHead (.chan 3) 0x09 (cmdOf 1 (slotWait 1)) = true ∧ cycleHead.closesCycle (.chan 3) 6 = true ∧
    recordB cycleHead 3 = true ∧
    cycleHead.recordOut (cmdOf 1 (slotWait 1)) 255 stFenceCycle 6 1 ∈ (after (.fenceWait (.chan 3)) cycleHead).out := by decide +kernel
/-- A wait since tick 0, in tick `t`. -/
def timing (slot : List Byte) (t : Nat) : State :=
  let s := (withCmds [{ cmdOf 1 slot with phase := .waiting 0 }]).setFence 6 ⟨10, 0⟩
  { s with clk := { s.clk with tick := BitVec.ofNat 64 t } }
/-- A `HOST_FENCE` of everything that waits for its writers. -/
def slotHf : List Byte := slotOf 0x0A 0 0 0 [(20, 1, 3)]
/-- The same, its writer command 1 still live. -/
def hfTiming (t : Nat) : State := (timing slotHf t).setExtra ⟨1, none, [], none, 0, 0, [1], [], false, []⟩
theorem witness_fence_timeout : (timing (slotWait 11) 64).waitOf (.chan 3) = some ({ cmdOf 1 (slotWait 11) with phase := .waiting 0 }, 0) ∧
    (timing (slotWait 11) 64).fenceTimeout 3 = 64 ∧ recordB (timing (slotWait 11) 64) 3 = true ∧
    after (.fenceTimeout (.chan 3)) (timing (slotWait 11) 63) = timing (slotWait 11) 63 ∧
    (timing (slotWait 11) 64).recordOut (cmdOf 1 (slotWait 11)) 255 stFenceTimeout 6 10 ∈ (after (.fenceTimeout (.chan 3)) (timing (slotWait 11) 64)).out ∧
    (timing (slotWait 10) 64).recordOut (cmdOf 1 (slotWait 10)) 255 stOk 0 10 ∈ (after (.fenceTimeout (.chan 3)) (timing (slotWait 10) 64)).out ∧
    (timing slotHf 64).recordOut (cmdOf 1 slotHf) 255 stOk 0 0 ∈ (after (.fenceTimeout (.chan 3)) (timing slotHf 64)).out ∧
    (hfTiming 64).recordOut (cmdOf 1 slotHf) 255 stFenceTimeout 0 0 ∈ (after (.fenceTimeout (.chan 3)) (hfTiming 64)).out := by
  decide +kernel

/-- A `HOST_FENCE` at the head of channel 4, beside the running `HOST_READ` into object 7 of channel 3. -/
def fenceBeside (phase : Phase) : State :=
  { base with
    chans := [(3, { Chan.init with state := .active, gen := 1 }), (4, { Chan.init with state := .active, gen := 1 })]
    gfe := { base.gfe with nextId := 2, cmds := [{ cmdOf 1 (slotOf 0x39 0 0 1000 [(24, 4, 7), (36, 4, 64)]) with phase := phase, begun := true },
      { cmdOf 2 slotHf with chan := 4 }] } }
theorem witness_host_fence : (head slotHf).waitOf (.chan 3) = none ∧ issuesB (head slotHf) (.chan 3) 0x0A (cmdOf 1 slotHf) = true ∧
    ((head slotHf).chan 3).kind = .host ∧ (leField slotHf 20 1).testBit 0 = true ∧ (head slotHf).writersOf true 0 1 = [] ∧
    recordB (head slotHf) 3 = true ∧
    (head slotHf).recordOut (cmdOf 1 slotHf) 255 stOk 0 0 ∈ (after (.hostFence (.chan 3)) (head slotHf)).out := by decide +kernel
theorem witness_host_fence_waits : issuesB (fenceBeside (.running 0)) (.chan 4) 0x0A { cmdOf 2 slotHf with chan := 4 } = true ∧
    (fenceBeside (.running 0)).waitOf (.chan 4) = none ∧ (leField slotHf 20 1).testBit 1 = true ∧
    (fenceBeside (.running 0)).writersOf true 0 2 = [1] ∧
    ((after (.hostFence (.chan 4)) (fenceBeside (.running 0))).extra 2).aux = [1] := by decide +kernel
/-- The `HOST_FENCE` waits, and its writer has ended. -/
def fenceOver : State :=
  { withCmds [{ cmdOf 1 slotHf with phase := .waiting 0 }] with
    gfe := { (withCmds [{ cmdOf 1 slotHf with phase := .waiting 0 }]).gfe with extra := [⟨1, none, [], none, 255, 0, [9], [], false, []⟩] } }
theorem witness_host_fence_ends : (fenceOver.waitOf (.chan 3)).map Prod.snd = some 0 ∧ (fenceOver.extra 1).aux = [9] ∧
    fenceOver.cmd? 9 = none ∧ recordB fenceOver 3 = true ∧
    fenceOver.recordOut (cmdOf 1 slotHf) 255 stOk 0 0 ∈ (after (.hostFence (.chan 3)) fenceOver).out := by decide +kernel
theorem witness_host_fence_fabric : (((head slotHf).setChan 3 { Chan.init with kind := .fabric, state := .active }).chan 3).kind = .fabric ∧
    issuesB ((head slotHf).setChan 3 { Chan.init with kind := .fabric, state := .active }) (.chan 3) 0x0A (cmdOf 1 slotHf) = true ∧
    (after (.hostFence (.chan 3)) ((head slotHf).setChan 3 { Chan.init with kind := .fabric, state := .active })).gfe.cmds = [] := by
  decide +kernel

/-! ## Lists, patches and scales (03, 06) -/

/-- A `LAUNCH_LIST` of list 20: two positions from position 3 on, binding 0 = object 11. -/
def slotLl (count : Nat) : List Byte := slotOf 0x10 0 0 0 [(16, 4, 20), (20, 2, 3), (22, 2, count), (24, 4, 11)]
/-- It stands at its head, with list 20 of one tile in the attic. -/
def llHead (count : Nat) : State := withObj (head (slotLl count)) 20 (objOf 0x01 [attic 0])
/-- A pending patch of list 20. -/
def patch20 : Patch := { cmd := 9, list := 20, heldAt := 0, writes := [], cost := 0, due := 0, staged := false }
/-- `llHead` with a patch of the list pending. -/
def llPatched : State :=
  let s := llHead 2
  { s with gfe := { s.gfe with patches := [patch20] } }
theorem witness_launch : issuesB (llHead 2) (.chan 3) 0x10 (cmdOf 1 (slotLl 2)) = true ∧ (llHead 2).launchBad (slotLl 2) = none ∧
    (llHead 2).patchPending 20 = false ∧ (after (.launchList (.chan 3)) (llHead 2)).gfe.launches.map Launch.nextPos = [3] ∧
    issuesB llPatched (.chan 3) 0x10 (cmdOf 1 (slotLl 2)) = true ∧ llPatched.patchPending 20 = true ∧
    (after (.launchList (.chan 3)) llPatched).gfe.launches = [] := by decide +kernel
theorem witness_launch_bad : (llHead 4096).launchBad (slotLl 4096) = none ∧ (llHead 0).launchBad (slotLl 0) = some 22 ∧
    (llHead 4097).launchBad (slotLl 4097) = some 22 ∧ issuesB (llHead 4097) (.chan 3) 0x10 (cmdOf 1 (slotLl 4097)) = true ∧
    recordB (llHead 4097) 3 = true ∧
    (llHead 4097).recordOut (cmdOf 1 (slotLl 4097)) 255 stRange 22 0 ∈ (after (.launchList (.chan 3)) (llHead 4097)).out ∧
    (head (slotLl 2)).launchBad (slotLl 2) = some 16 := by decide +kernel

/-- The launch that `llHead` starts. -/
def launch1 (left : Nat) : Launch :=
  { id := 1, cmd := 1, chan := 3, list := 20, nextPos := 3, left := left, bind := [11, 0, 0, 0, 0, 0, 0, 0], payload := [],
    preds := 0, predAt := [], issuedAt := 0, stop := none, degraded := 0 }
/-- The launch in flight at a time, a slot at position 3 of its list. -/
def launched (slot : List Byte) (now : Nat) : State :=
  let s := (withObj (withCmds [{ cmdOf 1 (slotLl 2) with phase := .waiting 0 }]) 20 (objOf 0x01 [attic 0])).writeBytes
    (frameData (attic 0) + 192) slot
  { s with clk := { s.clk with now := now }
           gfe := { s.gfe with launches := [launch1 2] } }
theorem witness_list_fetch : (launched (nopSlot 3) 390).coresRun = true ∧ (launched (nopSlot 3) 390).unitTest 1 = false ∧
    (launched (nopSlot 3) 390).launch? 1 = some (launch1 2) ∧ (launched (nopSlot 3) 390).obj? 20 = some (objOf 0x01 [attic 0]) ∧
    ((launched (nopSlot 3) 390).cmd? 1).isSome = true ∧ (launched (nopSlot 3) 390).position 20 3 = nopSlot 3 ∧
    3 + (1 + slotExt (nopSlot 3)) ≤ (objOf 0x01 [attic 0]).tiles * 64 ∧ (launched (nopSlot 3) 390).cellarPos 20 3 1 = none ∧
    (launched (nopSlot 3) 390).poisonedPos 20 3 1 = none ∧ (launched (nopSlot 3) 390).posReady (launch1 2) 1 = true ∧
    (launched (nopSlot 3) 389).posReady (launch1 2) 1 = false ∧ slotCrcOk (nopSlot 3) = true ∧ slotSeq (nopSlot 3) = 3 % 65536 ∧
    listSlotBad (nopSlot 3) = none ∧ slotXcrcOk (nopSlot 3) [] = true ∧
    (after (.listPositionFetch 1 none) (launched (nopSlot 3) 390)).gfe.cmds.map Cmd.slot = [slotLl 2, nopSlot 3] := by decide +kernel

/-- A command at the head of launch 1. -/
def listHead (slot : List Byte) : State :=
  let s := products (withCmds [{ cmdOf 1 (slotLl 2) with phase := .waiting 0 }, { cmdOf 2 slot with launch := some 1, pos := 3 }])
  { s with gfe := { s.gfe with launches := [launch1 1] } }
theorem witness_list_issue : (listHead (slotOf 0 0 0 0 [])).on = true ∧
    (listHead (slotOf 0 0 0 0 [])).headOf (.launch 1) = some { cmdOf 2 (slotOf 0 0 0 0 []) with launch := some 1, pos := 3 } ∧
    (after (.listSlotIssue 1) (listHead (slotOf 0 0 0 0 []))).gfe.cmds.map Cmd.id = [1] := by decide +kernel
/-- A `GEMM` whose X is binding 0. -/
def slotGmBind : List Byte :=
  slotOf 0x20 0 0 1000 [(16, 4, 0xFFFFFF00), (20, 4, 12), (24, 4, 13), (36, 8, 1 + 2 ^ 20 + 16 * 2 ^ 40), (56, 4, 24)]
theorem witness_list_cluster : isClusterOp 0x20 = true ∧ ((listHead slotGmBind).prep (.launch 1)).2.isSome = true ∧
    ((listHead slotGmBind).headOf (.launch 1)).isSome = true ∧
    ((listHead slotGmBind).prep (.launch 1)).2.map (fun d => (slotOp d.slot, op32 d.slot 16)) = some (0x20, 11) := by
  decide +kernel

/-- A `PATCH_LIST` of four bytes of position 3 of list 20, its sources inline. -/
def slotPl (mode count : Nat) : List Byte :=
  slotOf 0x11 0 0 0 [(16, 4, 20), (20, 2, 3), (22, 1, mode), (23, 1, count), (24, 4, 16), (32, 8, 0x01020304)]
/-- It stands at its head. -/
def plHead (mode count : Nat) : State := withObj (head (slotPl mode count)) 20 (objOf 0x01 [attic 0])
/-- `plHead` with every place for a patch taken. -/
def plFull : State :=
  let s := plHead 2 4
  { s with gfe := { s.gfe with patches := List.replicate 1024 patch20 } }
theorem witness_patch : issuesB (plHead 2 4) (.chan 3) 0x11 (cmdOf 1 (slotPl 2 4)) = true ∧ (plHead 2 4).patchBad (cmdOf 1 (slotPl 2 4)) = [] ∧
    patchMode (slotPl 2 4) ≠ 1 ∧ (plHead 2 4).patchSlotBad (cmdOf 1 (slotPl 2 4)) ((plHead 2 4).patchWrites (cmdOf 1 (slotPl 2 4))) = none ∧
    (after (.patchList (.chan 3)) (plHead 2 4)).gfe.patches.map Patch.writes = [[(208, [4, 3, 2, 1])]] := by decide +kernel
theorem witness_patch_bad : lowest ((plHead 2 9).patchBad (cmdOf 1 (slotPl 2 9))) = some 23 ∧
    lowest ((plHead 3 4).patchBad (cmdOf 1 (slotPl 3 4))) = some 22 ∧ recordB (plHead 3 4) 3 = true ∧
    issuesB (plHead 3 4) (.chan 3) 0x11 (cmdOf 1 (slotPl 3 4)) = true ∧
    (plHead 3 4).recordOut (cmdOf 1 (slotPl 3 4)) 255 stRange 22 0 ∈ (after (.patchList (.chan 3)) (plHead 3 4)).out := by
  decide +kernel
theorem witness_patch_full : plFull.patchBad (cmdOf 1 (slotPl 2 4)) = [] ∧ 1024 ≤ plFull.gfe.patches.length ∧
    issuesB plFull (.chan 3) 0x11 (cmdOf 1 (slotPl 2 4)) = true ∧ recordB plFull 3 = true ∧
    plFull.recordOut (cmdOf 1 (slotPl 2 4)) 255 stNoResource 0x0501 0 ∈ (after (.patchList (.chan 3)) plFull).out := by decide +kernel

/-- A `SCALE_SET` of `n` slots from slot `first` on to a value. -/
def slotSs (first n v : Nat) : List Byte := slotOf 0x40 0 0 0 [(16, 2, first), (19, 1, n), (20, 4, v)]
theorem witness_scale_set : issuesB (head (slotSs 976 48 0x3F800000)) (.chan 3) 0x40 (cmdOf 1 (slotSs 976 48 0x3F800000)) = true ∧
    (head (slotSs 976 48 0x3F800000)).scaleSetBad (cmdOf 1 (slotSs 976 48 0x3F800000)) = [] ∧
    (after (.scaleSet (.chan 3)) (head (slotSs 2 1 0x3F800000))).gfe.scaleSets.map ScaleStage.slots = [[(2, 0x3F800000)]] := by
  decide +kernel
theorem witness_scale_set_bad : lowest ((head (slotSs 977 48 0x3F800000)).scaleSetBad (cmdOf 1 (slotSs 977 48 0x3F800000))) = some 16 ∧
    lowest ((head (slotSs 0 49 0x3F800000)).scaleSetBad (cmdOf 1 (slotSs 0 49 0x3F800000))) = some 19 ∧
    lowest ((head (slotSs 0 1 0x7F800000)).scaleSetBad (cmdOf 1 (slotSs 0 1 0x7F800000))) = some 20 ∧
    recordB (head (slotSs 0 49 0x3F800000)) 3 = true ∧
    issuesB (head (slotSs 0 49 0x3F800000)) (.chan 3) 0x40 (cmdOf 1 (slotSs 0 49 0x3F800000)) = true ∧
    (head (slotSs 0 49 0x3F800000)).recordOut (cmdOf 1 (slotSs 0 49 0x3F800000)) 255 stRange 19 0 ∈
      (after (.scaleSet (.chan 3)) (head (slotSs 0 49 0x3F800000))).out := by decide +kernel

/-! ## Objects (10) -/

/-- An `OBJ_CREATE` of object 30 of `tiles` tiles in the attic. -/
def slotOc (tiles : Nat) : List Byte := slotOf 0x18 0 0 0 [(16, 4, 30), (20, 2, 16), (32, 4, tiles)]
/-- The object that it makes. -/
def made (tiles : Nat) : Obj := newObj (slotOc tiles) 3 1
theorem witness_create_object : issuesB (head (slotOc 2)) (.chan 3) 0x18 (cmdOf 1 (slotOc 2)) = true ∧ (head (slotOc 2)).createBad (slotOc 2) = [] ∧
    (head (slotOc 2)).objs.length < 1048576 ∧ mapFrames (made 2).tiles ≤ (head (slotOc 2)).tierFree 1 ∧
    ((head (slotOc 2)).placeTiles (made 2).tier (made 2).spread 3 (made 2).cls (made 2).tiles (mapFrames (made 2).tiles)
      ((made 2).policy != 2)).isSome = true ∧ (head (slotOc 2)).sup.inhibit = false ∧
    ((after (.objCreate (.chan 3)) (head (slotOc 2))).obj? 30).map (fun o => (o.creation, o.map.map Prod.fst)) = some (.filling 1, [0, 1]) := by
  decide +kernel
theorem witness_create_bad : lowest ((head (slotOc 0)).createBad (slotOc 0)) = some 32 ∧ recordB (head (slotOc 0)) 3 = true ∧
    issuesB (head (slotOc 0)) (.chan 3) 0x18 (cmdOf 1 (slotOc 0)) = true ∧
    (head (slotOc 0)).recordOut (cmdOf 1 (slotOc 0)) 255 stRange 32 0 ∈ (after (.objCreate (.chan 3)) (head (slotOc 0))).out := by
  decide +kernel
/-- Object 30 as command 1 of a slot creates it. -/
def creating (slot : List Byte) (c : Creation) (o : Obj) : State :=
  withObj (withObj (withCmds [{ cmdOf 1 slot with phase := .waiting 0 }]) 29 (objOf 0 [attic 7])) 30 { o with creation := c }
theorem witness_fill : (creating (slotOc 1) (.filling 1) (objOf 0 [attic 0])).on = true ∧
    ((creating (slotOc 1) (.filling 1) (objOf 0 [attic 0])).obj? 30).map Obj.creation = some (.filling 1) ∧
    (creating (slotOc 1) (.filling 1) (objOf 0 [attic 0])).cellarBusy 30 = false ∧
    recordB (creating (slotOc 1) (.filling 1) (objOf 0 [attic 0])) 3 = true ∧
    (creating (slotOc 1) (.filling 1) (objOf 0 [attic 0])).recordOut { cmdOf 1 (slotOc 1) with phase := .waiting 0 } 255 stOk 1 0 ∈
      (after (.zeroFillComplete 30) (creating (slotOc 1) (.filling 1) (objOf 0 [attic 0]))).out := by decide +kernel
/-- A `CLONE` of object 29 as object 30 in the attic. -/
def slotCl : List Byte := slotOf 0x1B 0 0 0 [(16, 4, 29), (20, 4, 30), (28, 2, 16)]
theorem witness_copy : ((creating slotCl (.copying 1 29) (objOf 0 [attic 0])).cmd? 1).map (fun d => (slotOp d.slot, op32 d.slot 20)) = some (0x1B, 30) ∧
    (creating slotCl (.copying 1 29) (objOf 0 [attic 0])).poisonedTile 29 = none ∧
    (creating slotCl (.copying 1 29) (objOf 0 [attic 0])).poisonedTile 0 = none ∧
    recordB (creating slotCl (.copying 1 29) (objOf 0 [attic 0])) 3 = true ∧
    ((after (.cloneCopyComplete 30 none) (creating slotCl (.copying 1 29) (objOf 0 [attic 0]))).obj? 30).map Obj.creation = some .live ∧
    (after (.cloneCopyComplete 30 none) (creating slotCl (.copying 1 29) (objOf 0 [attic 0]))).gfe.cmds = [] := by decide +kernel
/-- The `CLONE` at its head. -/
def clHead (v : Nat) : State :=
  withObj (head (slotOf 0x1B 0 0 0 [(16, 4, 29), (20, 4, v), (28, 2, 16)])) 29 (objOf 0 [attic 7])
theorem witness_clone : issuesB (clHead 30) (.chan 3) 0x1B (cmdOf 1 slotCl) = true ∧ (clHead 30).cloneBad slotCl = [] ∧
    (clHead 30).liveObj 29 = some (objOf 0 [attic 7]) ∧ (clHead 30).poisonedTile 29 = none ∧ (clHead 30).sup.inhibit = false ∧
    ((after (.clone (.chan 3)) (clHead 30)).obj? 30).map (fun o => (o.creation, o.owner, o.map.map Prod.fst)) = some (.copying 1 29, 3, [0]) ∧
    (after (.clone (.chan 3)) (clHead 29)).gfe.cmds = [] := by decide +kernel

/-- An `OBJ_FREE` of object 29. -/
def slotOfr : List Byte := slotOf 0x19 0 0 0 [(16, 4, 29)]
/-- It stands at its head, object 29 of a format. -/
def freeHead (fmt : Nat) : State := withObj (head slotOfr) 29 (objOf fmt [attic 7])
/-- `freeHead` with an object whose scale object is object 29; with a launch of list 29 by command 2 in flight. -/
def freeNeeded : State := withObj (freeHead 5) 31 { objOf 0x14 [attic 8] with scaleObj := 29 }
def freeLaunched : State :=
  let s := freeHead 1
  { s with gfe := { s.gfe with
    cmds := s.gfe.cmds ++ [{ cmdOf 2 (slotOf 0x10 0 0 0 [(16, 4, 29), (22, 2, 1)]) with chan := 4, phase := .waiting 0, begun := true }]
    launches := [{ launch1 1 with list := 29, cmd := 2, chan := 4 }] } }
theorem witness_free : canonB (freeHead 5) = true ∧ issuesB (freeHead 5) (.chan 3) 0x19 (cmdOf 1 slotOfr) = true ∧
    (freeHead 5).needed 29 = false ∧ (freeHead 5).streamUses 29 = false ∧
    (after (.objFree (.chan 3)) (freeHead 5)).obj? 29 = none := by decide +kernel
theorem witness_free_not : canonB freeNeeded = true ∧ issuesB freeNeeded (.chan 3) 0x19 (cmdOf 1 slotOfr) = true ∧ freeNeeded.needed 29 = true ∧
    recordB freeNeeded 3 = true ∧
    freeNeeded.recordOut (cmdOf 1 slotOfr) 255 stRange 16 0 ∈ (after (.objFree (.chan 3)) freeNeeded).out ∧
    canonB freeLaunched = true ∧ issuesB freeLaunched (.chan 3) 0x19 (cmdOf 1 slotOfr) = true ∧ freeLaunched.launching 29 = true ∧
    ((after (.objFree (.chan 3)) freeLaunched).obj? 29).map Obj.freed = some true ∧ (after (.objFree (.chan 3)) freeLaunched).liveObj 29 = none := by decide +kernel
theorem witness_freed_list : (head (slotLl 2)).obj? 20 = none ∧ recordB (head (slotLl 2)) 3 = true ∧
    issuesB (head (slotLl 2)) (.chan 3) 0x10 (cmdOf 1 (slotLl 2)) = true ∧
    (head (slotLl 2)).recordOut (cmdOf 1 (slotLl 2)) 255 stRange 16 0 ∈ (after (.launchList (.chan 3)) (head (slotLl 2))).out ∧
    issuesB (head (slotPl 2 4)) (.chan 3) 0x11 (cmdOf 1 (slotPl 2 4)) = true ∧
    (head (slotPl 2 4)).recordOut (cmdOf 1 (slotPl 2 4)) 255 stRange 16 0 ∈ (after (.patchList (.chan 3)) (head (slotPl 2 4))).out := by
  decide +kernel

/-- A `MOVE` of object 29 to a tier. -/
def slotMo (tier : Nat) : List Byte := slotOf 0x1A 0 0 0 [(16, 4, 29), (28, 1, tier)]
/-- It stands at its head. -/
def moHead (tier : Nat) : State := withObj (head (slotMo tier)) 29 (objOf 0 [attic 7])
theorem witness_move : issuesB (moHead 2) (.chan 3) 0x1A (cmdOf 1 (slotMo 2)) = true ∧ (moHead 2).moveBad (slotMo 2) = [] ∧
    (moHead 2).liveObj 29 = some (objOf 0 [attic 7]) ∧
    (moHead 2).mustMove (objOf 0 [attic 7]) 2 ((moHead 2).spreadClus 0 0) (tileRange 0 0 1) = [0] ∧
    ((moHead 2).moveFrames 2 0 false ((moHead 2).spreadClus 0 0) [0]).isSome = true ∧
    (after (.move (.chan 3)) (moHead 2)).place.moves.map Move.tile = [0] := by decide +kernel
/-- The `OBJ_CREATE` at its head, the attic full of the maps of object 40. -/
def ocFull : State := (head (slotOc 2)).setObj 40 { argObj with tiles := 2 ^ 40 }
theorem witness_create_full : issuesB ocFull (.chan 3) 0x18 (cmdOf 1 (slotOc 2)) = true ∧ ocFull.createBad (slotOc 2) = [] ∧
    ocFull.tierFree 1 < mapFrames (made 2).tiles ∧ recordB ocFull 3 = true ∧
    ocFull.recordOut (cmdOf 1 (slotOc 2)) 255 stNoResource 0x0201 0 ∈ (after (.objCreate (.chan 3)) ocFull).out := by decide +kernel
/-- The `MOVE` to the scratchpads at its head, its partition without a cluster. -/
def moFull : State := (moHead 0).regPut .gfe 0 0x320 0
theorem witness_move_full : issuesB moFull (.chan 3) 0x1A (cmdOf 1 (slotMo 0)) = true ∧ moFull.moveBad (slotMo 0) = [] ∧
    moFull.moveFrames 0 0 false (moFull.spreadClus 0 0) [0] = none ∧ recordB moFull 3 = true ∧
    moFull.recordOut (cmdOf 1 (slotMo 0)) 255 stNoResource 0x0201 0 ∈ (after (.move (.chan 3)) moFull).out := by decide +kernel

/-! ## Commands on clusters (07, 08, 09, 11, 12) -/

/-- A fresh product with X[0, 0] = 2 and W[0, 0] = 3 in BF16. -/
def fresh23 (slot : List Byte) : State :=
  ((products (running slot run1)).writeBytes (frameData (attic 0)) [0x00, 0x40]).writeBytes (frameData (attic 4)) [0x40, 0x40]
theorem witness_gemm : canonB (fresh23 slotGm) = true ∧ (fresh23 slotGm).fresh 0 0x20 = some (run1, ranCmd slotGm) ∧
    (fresh23 slotGm).productCond (ranCmd slotGm) ((fresh23 slotGm).product slotGm) = none ∧
    ((fresh23 slotGm).operandRun 11).isSome = true ∧ ((fresh23 slotGm).operandRun 12).isSome = true ∧
    ((fresh23 slotGm).operandRun 13).isSome = true ∧
    ((after (.gemm 0) (fresh23 slotGm)).clu 0).run.map (fun r => r.checks.map Check.kind) = some [.array] := by decide +kernel
theorem test_gemm_value : ((after (.gemm 0) (fresh23 slotGm)).clu 0).run.map (fun r =>
    r.checks.map (fun c => c.rows.map (fun l => l.take 1))) = some [[[0x40C00000]]] := by decide +kernel
theorem witness_matvec : canonB (fresh23 slotMv) = true ∧ (fresh23 slotMv).fresh 0 0x21 = some (run1, ranCmd slotMv) ∧
    (fresh23 slotMv).productCond (ranCmd slotMv) ((fresh23 slotMv).product slotMv) = none ∧
    ((after (.matvec 0) (fresh23 slotMv)).clu 0).run.map (fun r => r.checks.map (fun c => c.rows.map (fun l => l.take 1))) =
      some [[[0x40C00000]]] := by decide +kernel
theorem witness_product_stops : canonB gmPoisoned = true ∧ gmPoisoned.fresh 0 0x20 = some (run1, ranCmd slotGm) ∧
    (gmPoisoned.productCond (ranCmd slotGm) (gmPoisoned.product slotGm)).isSome = true ∧
    ((after (.gemm 0) gmPoisoned).clu 0).run = none := by decide +kernel

/-- A program block of one source and no stage over 16 points, FP32, source and destination LINEAR. -/
def progCopy : List Byte :=
  leBytes 32 (4 * 2 ^ 8 + 2 ^ 16 + 16 * 2 ^ 96 + 2 ^ 128 + 2 ^ 160 + 2 ^ 192 + 2 ^ 224) ++ leBytes 96 (2 ^ 29) ++ leBytes 32 (2 ^ 29) ++
    zeros 96
/-- A `VCHAIN` of object 21 to object 22 by program object 23. -/
def slotVc : List Byte := slotOf 0x22 0 0 1000 [(16, 4, 21), (28, 4, 22), (32, 4, 23)]
/-- The fresh `VCHAIN`, its block read, with its first source element 1.5; its source's tile in a state. -/
def vcRun (st : FrameState) : State :=
  let s := (withObj (withObj (withObj (running slotVc run1) 21 (objOf 0x04 [attic 0])) 22 (objOf 0x04 [attic 1]))
    23 (objOf 0 [attic 2])).writeBytes (frameData (attic 0)) [0x00, 0x00, 0xC0, 0x3F]
  (s.setExtra ⟨1, none, [], none, 255, 0, [], progCopy, false, []⟩).setFrame (attic 0) { s.frame (attic 0) with state := st }
theorem witness_vchain : canonB (vcRun .home) = true ∧ (vcRun .home).fresh 0 0x22 = some (run1, ranCmd slotVc) ∧
    (vcRun .home).vchainCond (ranCmd slotVc) ((vcRun .home).progOf (ranCmd slotVc)) = none ∧
    ((after (.vchain 0) (vcRun .home)).clu 0).run.map (fun r => r.work.map (fun w => w.shadows.map Shadow.obj)) = some (some [22]) := by
  decide +kernel
theorem test_vchain_value : (((after (.vchain 0) (vcRun .home)).clu 0).run.bind Run.work).map (fun w =>
    w.shadows.map (fun h => (after (.vchain 0) (vcRun .home)).bytesAt (frameData h.fid) 4)) = some [[0x00, 0x00, 0xC0, 0x3F]] := by
  decide +kernel
theorem witness_vchain_stops : canonB (vcRun .poisoned) = true ∧ (vcRun .poisoned).fresh 0 0x22 = some (run1, ranCmd slotVc) ∧
    ((vcRun .poisoned).vchainCond (ranCmd slotVc) ((vcRun .poisoned).progOf (ranCmd slotVc))).isSome = true ∧
    ((after (.vchain 0) (vcRun .poisoned)).clu 0).run = none := by decide +kernel

/-- A table of four FP32 rows of 16 elements with a pool of slots, object 40 with its pool in object 41. -/
def table40 (slots : Nat) (remap : List RemapEntry) : Obj :=
  { objOf 0x04 [attic 10] with
    rowBytes := 64
    table := some (⟨4, 16, 0, 0, 0, 41, slots, 0, 0⟩, ⟨remap, [], 0, false, false, 0, 0⟩) }
/-- Rows 1 and 2 of this module, as one bag. -/
def rows12 : Resolution :=
  { idx := [1, 2], dest := [some (base.fab.moduleId, 1), some (base.fab.moduleId, 2)], offs := [0, 2], wgts := [], awaitTiles := [],
    awaitPeers := [], partials := [], held := [], tick := 0 }
/-- A `GATHER_POOL` of one bag of two rows, SUM, into object 42, its indices in object 43. -/
def slotGp : List Byte := slotOf 0x28 0 0 1000 [(16, 4, 40), (20, 4, 43), (32, 4, 42), (40, 4, 2), (44, 4, 1 + 2 * 2 ^ 16)]
/-- A `SCATTER_UPDATE`, ROW_WRITE, of two rows from object 44. -/
def slotSu : List Byte := slotOf 0x29 0 0 1000 [(16, 4, 40), (20, 4, 43), (24, 4, 44), (28, 4, 2)]
/-- The table and the operands, the indices 1 and 2, rows 1 and 2 of 1.0 and 2.0 in their first element. -/
def tables (s : State) (slots : Nat) (remap : List RemapEntry) : State :=
  ((((withObj (withObj (withObj (withObj (withObj s 40 (table40 slots remap)) 41 (objOf 0 [attic 11])) 42 (objOf 0x04 [attic 12]))
    43 (objOf 0x0C [attic 13])) 44 (objOf 0x04 [attic 14])).writeBytes (frameData (attic 13)) [1, 0, 0, 0, 2, 0, 0, 0]).writeBytes
    (frameData (attic 10) + 64) [0, 0, 0x80, 0x3F]).writeBytes (frameData (attic 10) + 128) [0, 0, 0, 0x40]).writeBytes
    (frameData (attic 14)) [0, 0, 0x80, 0x40]
/-- A fresh table command, resolved. -/
def tblRun (slot : List Byte) (slots : Nat) : State :=
  let s := tables (running slot run1) slots []
  s.setCmd { ranCmd slot with res := some rows12 }
/-- Its command. -/
def tblCmd (slot : List Byte) : Cmd := { ranCmd slot with res := some rows12 }
theorem witness_gather : canonB (tblRun slotGp 4) = true ∧ ((tblRun slotGp 4).tableOf 40).isSome = true ∧
    (tblRun slotGp 4).fld .clu 0 0x1D0 31 31 = 0 ∧ (tblRun slotGp 4).fresh 0 0x28 = some (run1, tblCmd slotGp) ∧
    (tblRun slotGp 4).gatherCond (tblCmd slotGp) = none ∧ ((after (.gatherPool 0) (tblRun slotGp 4)).cnt 0).tblRows = 2 ∧
    ((after (.gatherPool 0) (tblRun slotGp 4)).clu 0).run.map Run.due = some 64 := by decide +kernel
theorem test_gather_value : (((after (.gatherPool 0) (tblRun slotGp 4)).clu 0).run.bind Run.work).map (fun w =>
    w.shadows.map (fun h => (h.obj, (after (.gatherPool 0) (tblRun slotGp 4)).bytesAt (frameData h.fid) 4))) =
      some [(42, [0, 0, 0x40, 0x40])] := by decide +kernel
theorem witness_scatter : canonB (tblRun slotSu 4) = true ∧ (tblRun slotSu 4).fresh 0 0x29 = some (run1, tblCmd slotSu) ∧
    (tblRun slotSu 4).scatterCond (tblCmd slotSu) = none ∧
    (((after (.scatterUpdate 0) (tblRun slotSu 4)).clu 0).run.bind Run.work).map RunWork.remap = some [(1, 0), (2, 1)] ∧
    (after (.scatterUpdate 0) (tblRun slotSu 4)).bytesAt (frameData (attic 11)) 4 = [0, 0, 0x80, 0x40] := by decide +kernel
theorem witness_scatter_full : (tblRun slotSu 1).fresh 0 0x29 = some (run1, tblCmd slotSu) ∧ canonB (tblRun slotSu 1) = true ∧
    (tblRun slotSu 1).scatterCond (tblCmd slotSu) = none ∧ ((after (.scatterUpdate 0) (tblRun slotSu 1)).clu 0).run = none := by
  decide +kernel

/-- A `STREAM_ARM` and a `STREAM_REARM`, fresh. -/
def slotArm : List Byte := slotOf 0x30 0 0 1000 []
def slotRearm : List Byte := slotOf 0x31 0 0 1000 []
theorem witness_arm : canonB (running slotArm run1) = true ∧ (running slotArm run1).fresh 0 0x30 = some (run1, ranCmd slotArm) ∧
    (running slotRearm run1).fresh 0 0x31 = some (run1, ranCmd slotRearm) ∧
    ((after (.streamArm 0) (running slotArm run1)).clu 0).run.map Run.due = some 47 ∧
    ((after (.streamRearm 0) (running slotRearm run1)).clu 0).run.map Run.due = some 47 := by decide +kernel
/-- A fresh `HOST_WRITE` of three bytes of object 7 to 0x1000; the same with the buffer full. -/
def slotHw3 : List Byte := slotOf 0x38 0 0 1000 [(16, 8, 0x1000), (24, 4, 7), (36, 4, 3)]
def hwFresh : State := (withObj (running slotHw3 run1) 7 (objOf 0 [attic 0])).writeBytes (frameData (attic 0)) [1, 2, 3]
def hwFull : State := { hwFresh with host := { hwFresh.host with staged := [(9, 8388606)] } }
theorem witness_host_write : canonB hwFresh = true ∧ hwFresh.fresh 0 0x38 = some (run1, ranCmd slotHw3) ∧ hostLen slotHw3 ≤ hwFresh.wrFree ∧
    (writeTiles slotHw3).all (fun x => !hwFresh.tileBad (ranCmd slotHw3) x.1 x.2) = true ∧
    (((after (.hostWrite 0) hwFresh).clu 0).run.bind Run.work).map RunWork.host = some [(0x1000, [1, 2, 3])] ∧
    hwFull.fresh 0 0x38 = some (run1, ranCmd slotHw3) ∧ hwFull.wrFree < hostLen slotHw3 ∧ canonB hwFull = true ∧
    after (.hostWrite 0) hwFull = hwFull := by decide +kernel
/-- A fresh `HOST_READ` of two lines to object 7. -/
def slotHr : List Byte := slotOf 0x39 0 0 1000 [(16, 8, 0x1000), (24, 4, 7), (36, 4, 128)]
def hrFresh : State := withObj (running slotHr run1) 7 (objOf 0 [attic 0])
theorem witness_host_read : canonB hrFresh = true ∧ hrFresh.fresh 0 0x39 = some (run1, ranCmd slotHr) ∧ hrFresh.linkUp = true ∧
    hrFresh.link.cacheEn = true ∧ (readParts slotHr).all (fun x => !hrFresh.tileBad (ranCmd slotHr) x.1 x.2) = true ∧
    (after (.hostRead 0) hrFresh).host.reads.map HostRd.id = [.line 0 0x1000, .line 0 0x1040] := by decide +kernel

/-- The `HOST_READ` with its lines read from the `k`-th on still in flight. -/
def hrLines (k : Nat) : State :=
  let s := withObj (running slotHr { run1 with prepared := true, due := 64 }) 7 (objOf 0 [attic 0])
  { s with host := { s.host with
    reads := ([⟨.line 0 0x1000, 0, 0⟩, ⟨.line 0 0x1040, 0, 0⟩] : List HostRd).drop k
    lines := ([(0, 0x1000, zeros 64)] : List (Nat × Nat × List Byte)).take k } }
theorem witness_line : canonB (hrLines 0) = true ∧ (hrLines 0).link.state = .up ∧
    (hrLines 0).running 0 = some ({ run1 with prepared := true, due := 64 }, ranCmd slotHr) ∧
    (takeFirst (fun e : HostRd => e.id == .line 0 0x1000) (hrLines 0).host.reads).isSome = true ∧ hostShared slotHr = false ∧
    (lineAddrs slotHr).length = 2 ∧ (after (.hostReadLineReturn 0 0x1000 (.data (zeros 64))) (hrLines 0)).host.lines.length = 1 ∧
    ((after (.hostReadLineReturn 0 0x1000 .poisoned) (hrLines 0)).clu 0).run = none ∧
    ((after (.completionTimeout (.line 0 0x1000)) (hrLines 0)).clu 0).run = none := by decide +kernel
theorem witness_last_line : (takeFirst (fun e : HostRd => e.id == .line 0 0x1040) (hrLines 1).host.reads).isSome = true ∧
    canonB (hrLines 1) = true ∧ (hrLines 1).running 0 = some ({ run1 with prepared := true, due := 64 }, ranCmd slotHr) ∧
    (((after (.hostReadLineReturn 0 0x1040 (.data (List.replicate 64 7))) (hrLines 1)).clu 0).run.bind Run.work).map (fun w =>
      w.shadows.map (fun h => (after (.hostReadLineReturn 0 0x1040 (.data (List.replicate 64 7))) (hrLines 1)).bytesAt
        (frameData h.fid + 63) 2)) = some [[0, 7]] := by decide +kernel

/-- A `HOST_WRITE` that waits for flush read 5 of its channel; posted writes before it. -/
def flushing (posted : List Posted) : State :=
  let s := withCmds [{ cmdOf 1 slotHw3 with phase := .flush 0 true, begun := true }]
  { s with gfe := { s.gfe with extra := [⟨1, none, [], none, 0, 0, [5], [], false, []⟩] }
           host := { s.host with reads := [⟨.flush 3, 5, 0⟩], posted := posted } }
/-- The state in which its flush read has returned. -/
def flushed : State :=
  (State.noteRtt { flushing [] with host := { (flushing []).host with reads := [] } } (flushing []).clk.now).confirm 3 5
theorem witness_flush : (flushing []).on = true ∧ (flushing []).link.state = .up ∧
    takeFirst (fun x : HostRd => x.id == .flush 3) (flushing []).host.reads = some (⟨.flush 3, 5, 0⟩, []) ∧
    flushed.gfe.cmds.filter (fun e => e.chan == 3 && (flushed.flushNo e).any (fun k => decide (k ≤ 5))) =
      [{ cmdOf 1 slotHw3 with phase := .flush 0 true, begun := true }] ∧ recordB flushed 3 = true ∧ slotQuiet slotHw3 = false ∧
    flushed.recordOut { cmdOf 1 slotHw3 with phase := .flush 0 true, begun := true } 0 stOk 0 0 ∈
      (after (.flushReadReturn 3 true) (flushing [])).out := by decide +kernel
theorem witness_flush_fails : (after (.completionTimeout (.flush 3)) (flushing [])).gfe.cmds = [] ∧
    (after (.flushReadReturn 3 false) (flushing [])).gfe.cmds = [] ∧
    after (.flushReadReturn 3 true) (flushing [⟨4, 3, 0x1000, [9]⟩]) = flushing [⟨4, 3, 0x1000, [9]⟩] := by decide +kernel
theorem witness_drain : (flushing [⟨4, 3, 0x1000, [9]⟩]).host.posted = [⟨4, 3, 0x1000, [9]⟩] ∧
    (after .postedWriteDrain (flushing [⟨4, 3, 0x1000, [9]⟩])).out = [.hostWrite 0x1000 [9]] ∧
    (after .postedWriteDrain (flushing [⟨4, 3, 0x1000, [9]⟩])).host.posted = [] := by decide +kernel

/-! ## Resolutions and folds (09) -/

/-- The `GATHER_POOL` with RESOLVE_EARLY. -/
def slotGpE : List Byte :=
  slotOf 0x28 0 0 1000 [(16, 4, 40), (20, 4, 43), (32, 4, 42), (40, 4, 2), (44, 4, 1 + 2 * 2 ^ 16), (52, 4, 32)]
/-- A table command at its head, its operands right. -/
def tblHead (slot : List Byte) : State := tables (withCmds [cmdOf 1 slot]) 4 []
theorem witness_resolve_head : (tblHead slotGp).on = true ∧ (tblHead slotGp).coresRun = true ∧ (tblHead slotGp).sup.stopping = false ∧
    (tblHead slotGp).unitTest 2 = false ∧ (tblHead slotGp).cmd? 1 = some (cmdOf 1 slotGp) ∧ resolves slotGp = true ∧
    (tblHead slotGp).serveOf 1 = none ∧ resolvesEarly slotGp = false ∧
    (tblHead slotGp).prep (cmdOf 1 slotGp).node = (tblHead slotGp, some (cmdOf 1 slotGp)) ∧
    (tblHead slotGp).inherited (cmdOf 1 slotGp) = none ∧
    (tblHead slotGp).headRange (cmdOf 1 slotGp) ((tblHead slotGp).resolveBad (cmdOf 1 slotGp)) = none := by decide +kernel
theorem witness_resolve_early : resolvesEarly slotGpE = true ∧ (tblHead slotGpE).creating slotGpE = false ∧
    (tblHead slotGpE).resolveBad (cmdOf 1 slotGpE) = [] ∧ (tblHead slotGpE).setCmd (cmdOf 1 slotGpE) = tblHead slotGpE ∧
    ((tblHead slotGpE).obj? (rowHandle slotGpE)).map (fun o => o.table.isSome) = some true := by decide +kernel
theorem witness_resolve_values : (tblHead slotGpE).readRes (cmdOf 1 slotGpE) = ([1, 2], [0, 2], []) ∧
    (tblHead slotGpE).inCellar (43, 0) = false ∧ (tblHead slotGpE).tileBad (cmdOf 1 slotGpE) 43 0 = false ∧
    (tblHead slotGpE).valueBad (cmdOf 1 slotGpE) (table40 4 []) rows12 (rows12.dest.map some) = [] ∧
    (tblHead slotGpE).ownersOf rows12.dest = [] ∧ (tblHead slotGpE).resolving.length < 64 ∧
    (tblHead slotGpE).heldIndices + 2 ≤ 1048576 ∧
    ((after (.resolutionBegin 1) (tblHead slotGpE)).cmd? 1).map (fun d => (d.phase, d.res.map Resolution.dest)) =
      some (.ready, some rows12.dest) ∧
    ((after (.resolutionBegin 1) (tblHead slotGp)).cmd? 1).map Cmd.phase = some .ready := by decide +kernel
/-- A `GATHER_POOL` that waits for owner 5 since tick 0, in tick `t`. -/
def awaiting (t : Nat) : State :=
  let s := tables (withCmds [{ cmdOf 1 slotGp with phase := .resolving, res := some { rows12 with awaitPeers := [(5, 7)] } }]) 4 []
  { s with clk := { s.clk with tick := BitVec.ofNat 64 t } }
theorem witness_remote_timeout : (awaiting 4).remoteTicks = 4 ∧ ((awaiting 4).cmd? 1).map Cmd.phase = some .resolving ∧
    recordB (awaiting 4) 3 = true ∧ after (.remoteGatherTimeout 1) (awaiting 3) = awaiting 3 ∧
    (after (.remoteGatherTimeout 1) (awaiting 4)).gfe.cmds = [] := by decide +kernel

/-- The table with row 1 in pool slot 0 since epoch 0, in tick 1, folds asked for. -/
def foldState : State :=
  let s := tables base 4 [⟨1, 0, 0, 3⟩]
  let o := table40 4 [⟨1, 0, 0, 3⟩]
  { s.setObj 40 { o with table := o.table.map (fun x => (x.1, { x.2 with foldNow := 1 })) } with clk := { s.clk with tick := 1 } }
theorem witness_fold : foldState.on = true ∧ foldState.coresRun = true ∧ foldState.unitTest 2 = false ∧ (foldState.liveObj 40).isSome = true ∧
    (foldState.tableOf 40).map (fun x => (x.2.2.folding, x.2.2.draining)) = some (false, false) ∧
    foldState.cmd? (foldState.gfe.nextId + 1) = none ∧
    ((after (.fold 40) foldState).cmd? (foldState.gfe.nextId + 1)).map (fun d => (slotOp d.slot, d.res.map Resolution.idx)) =
      some (foldOp, some [1]) := by decide +kernel
/-- The host's accessor has selected table 40. -/
def tblSelected : State := (tables base 4 []).regPut .tbl (accNum .host) 0x000 40
theorem witness_fold_now : tblSelected.served = true ∧ tblSelected.regGet .tbl (accNum .host) 0x000 = 40 ∧
    (tblSelected.liveObj 40).isSome = true ∧
    ((after (.foldNow .host) { tblSelected with clk := { tblSelected.clk with tick := 9 } }).tableOf 40).map (fun x => x.2.2.foldNow) =
      some 9 := by decide +kernel

/-! ## Memory and placement (10, 14) -/

/-- Object 29 whose tile moves between two frames, its cellar operation (a program or a read) not over. -/
def moving (src dst : Nat) (op : List CellarOp) (landed dirty : Bool) : State :=
  let s := (withObj base 29 (objOf 0 [src])).setFrame dst { FrameRec.init with state := .shadow, obj := 29 }
  { s with place := { s.place with moves := [⟨29, 0, src, dst, .background, dirty, landed, 0, 0, noOrder⟩], cellar := op }
           clk := { s.clk with now := 167 } }
theorem witness_cellar : canonB (moving 5 (attic 3) [⟨29, 0, 5, false, noOrder⟩] false false) = true ∧
    (moving 5 (attic 3) [⟨29, 0, 5, false, noOrder⟩] false false).moveOf 29 0 = some ⟨29, 0, 5, attic 3, .background, false, false, 0, 0, noOrder⟩ ∧
    ((after (.cellarReadLand 29 0 none) (moving 5 (attic 3) [⟨29, 0, 5, false, noOrder⟩] false false)).moveOf 29 0).map Move.landed = some true ∧
    ((after (.cellarProgramComplete 29 0) (moving (attic 3) 5 [⟨29, 0, 5, true, noOrder⟩] false false)).moveOf 29 0).map Move.landed =
      some true ∧
    canonB (moving (attic 3) 5 [⟨29, 0, 5, true, noOrder⟩] false false) = true := by decide +kernel
/-- A state at a time. -/
def atCycle (n : Nat) (s : State) : State := { s with clk := { s.clk with now := n } }
theorem witness_move_commit : canonB (moving (attic 7) (attic 3) [] true false) = true ∧
    ((moving (attic 7) (attic 3) [] true false).liveObj 29).isSome = true ∧
    (moving (attic 7) (attic 3) [] true false).headFault (attic 7) 29 0 = none ∧ base.host.memWait = [] ∧
    after (.tileMoveCommit 29 0 none) (atCycle 166 (moving (attic 7) (attic 3) [] true false)) =
      atCycle 166 (moving (attic 7) (attic 3) [] true false) ∧
    (after (.tileMoveCommit 29 0 none) (moving (attic 7) (attic 3) [] true false)).homeOf 29 0 = some (attic 3) ∧
    (after (.tileMoveCommit 29 0 none) (moving (attic 7) (attic 3) [] true true)).homeOf 29 0 = some (attic 7) ∧
    (after (.tileMoveCommit 29 0 (some .w256)) (moving (attic 7) (attic 3) [] true false)).homeOf 29 0 = some (attic 7) ∧
    ((after (.tileMoveCommit 29 0 (some .w256)) (moving (attic 7) (attic 3) [] true false)).frame (attic 7)).state = .poisoned := by
  decide +kernel

/-- `base` in tick 8, a scan due in every tick, with page counters; without background moves. -/
def scanning : State :=
  let s := (withObj base 29 (objOf 0 [attic 7])).regPut .mem 0 0x008 1
  { s.regPut .mem 0 0x004 0 with clk := { s.clk with tick := 8 }
                                 place := { s.place with heat := [((heatPage (attic 7)).getD 0, 9)] } }
theorem witness_heat_scan : scanning.on = true ∧ scanning.tickN % max (scanning.fld .mem 0 0x008 11 0) 1 = 0 ∧
    scanning.place.scanned ≠ scanning.tickN ∧ scanning.unitTest 2 = false ∧ scanning.fld .mem 0 0x004 15 15 = 0 ∧
    (after .heatScan scanning).place.scanned = 8 ∧ (after .heatScan scanning).place.heat.map Prod.snd = [4] := by decide +kernel
/-- One tile at home in the attic. -/
def oneTile : State := withObj base 29 (objOf 0 [attic 7])
theorem witness_scrub : canonB oneTile = true ∧ tierOf (attic 7) ≠ 3 ∧ oneTile.headFault (attic 7) 29 0 = none ∧
    (oneTile.frame (attic 7)).state = .home ∧ after (.scrubRead (attic 7) [] []) oneTile = oneTile ∧
    1 < max 1 (oneTile.fld .int 0 0x014 7 4) ∧ (oneTile.frame (attic 8)).state = .free ∧ (oneTile.frame (attic 8)).retired = false ∧
    (oneTile.readTries (attic 8) [⟨0, [7], []⟩] []).map (fun a => (a.fault, a.words, a.links)) = [(none, [0], 0)] ∧
    ((after (.scrubRead (attic 8) [⟨0, [7], []⟩] []) oneTile).frame (attic 8)).corrected = 1 ∧
    listGet 0 (after (.scrubRead (attic 8) [⟨0, [7], []⟩] []) oneTile).integ.ce 1 = 1 := by decide +kernel
/-- The limit of corrected words in a frame. -/
def ceFrame : Nat := max 1 (oneTile.fld .int 0 0x014 7 4)
theorem witness_scrub_bad : (oneTile.readTries (attic 8) [⟨0, [1, 1], []⟩] [⟨0, [1, 1], []⟩]).getLast?.bind ReadTry.fault = some .w256 ∧
    ((after (.scrubRead (attic 8) [⟨0, [1, 1], []⟩] [⟨0, [1, 1], []⟩]) oneTile).frame (attic 8)).retired = true ∧
    ((after (.scrubRead (attic 8) [⟨0, [1, 1], []⟩] []) oneTile).frame (attic 8)).retired = false ∧
    (after (.scrubRead (attic 7) [⟨0, [1, 1], []⟩] [⟨0, [1, 1], []⟩]) oneTile).integ.poison = (29, 0, 1, 1) ∧
    ((after (.scrubRead (attic 8) ((List.range ceFrame).map (fun i => ⟨i, [7], []⟩)) []) oneTile).frame (attic 8)).retired = true ∧
    ((after (.scrubRead (attic 8) ((List.range (ceFrame - 1)).map (fun i => ⟨i, [7], []⟩)) []) oneTile).frame (attic 8)).retired = false ∧
    after (.scrubRead 5 [⟨0, [7], []⟩] []) oneTile = oneTile := by decide +kernel
theorem witness_refresh : (base.target 11).mappedOut = false ∧ base.refreshEvery 3 = 5070 ∧
    ((after (.atticRefresh 11) { base with clk := { base.clk with now := 5070 } }).stack 3).refreshes = 1 ∧
    ((after (.atticRefresh 11) { base with clk := { base.clk with now := 5069 } }).stack 3).refreshes = 0 := by decide +kernel

/-- A stack with two reports and a run of hot values. -/
def stackAt (r : List Int) (hot : Nat) : State := base.setStack 3 { base.stack 3 with reports := r, hot := hot }
/-- The same 10 ms after its last report. -/
def stackLate (hot n : Nat) : State :=
  let s := stackAt [] hot
  { s with clk := { s.clk with now := n } }
theorem witness_stack_temp : ((after (.stackTempReport 3 400) (stackAt [400, 400] 8)).stack 3).hot = 9 ∧
    ((after (.stackTempReport 3 400) (stackAt [400, 400] 8)).stack 3).derate = 2 ∧
    (after (.stackTempReport 3 400) (stackAt [400, 400] 9)).sup.stopping = true ∧
    ((after (.stackTempReport 3 380) (stackAt [380, 380] 9)).stack 3).hot = 0 ∧
    ((after (.stackTempReport 3 (-160)) (stackAt [] 0)).stack 3).reports = [-160] ∧
    ((after (.stackTempReport 3 501) (stackAt [] 0)).stack 3).reports = [] := by decide +kernel
theorem witness_stack_timeout : ((stackAt [] 9).stack 3).hot < 10 ∧ ((after (.stackTempTimeout 3) (stackLate 9 (10 * msCycles))).stack 3).derate = 2 ∧
    ((after (.stackTempTimeout 3) (stackLate 9 (10 * msCycles))).stack 3).refresh2x = true ∧
    (after (.stackTempTimeout 3) (stackLate 10 (10 * msCycles))).sup.stopping = true ∧
    after (.stackTempTimeout 3) (stackLate 9 (10 * msCycles - 1)) = stackLate 9 (10 * msCycles - 1) := by decide +kernel
/-- The host has selected target 7, which it has let go. -/
def tgt7 (rest : List (Nat × TargetRec)) : State :=
  let s := base.regPut .mem (accNum .host) 0x060 14
  let t := s.setTarget 7 { s.target 7 with serve := false }
  { t with place := { t.place with targets := t.place.targets ++ rest } }
theorem witness_target : base.served = true ∧ (after (.memTgtServe .host false) base).reg.pend.map PendWrite.val = [0] := by decide +kernel
theorem witness_margin : (tgt7 []).selTarget .host = 7 ∧ (tgt7 []).targetState 7 = 2 ∧
    (tgt7 []).place.targets.any (fun x => x.2.margining) = false ∧
    ((after (.marginStart .host) (tgt7 [])).target 7).margining = true ∧ base.targetState (base.selTarget .host) ≠ 2 ∧
    (after (.marginStart .host) base).place = base.place ∧
    ((after (.marginStart .host) (tgt7 [(9, ⟨false, true, 0, 0, false, false, 0⟩)])).target 7).margining = false ∧
    ((after (.marginDone 70000) (tgt7 [(9, ⟨false, true, 0, 0, false, false, 0⟩)])).target 9).errors = 65536 := by decide +kernel

/-! ## Streams (11) -/

/-- A `STREAM_ARM` of descriptor 2 of cluster 0: one fill of two tiles of object 50 into object 51, LAND a fence or none. -/
def slotStr (land : Nat) : List Byte :=
  slotOf 0x30 0 0 1000 [(16, 1, 2), (20, 4, 50), (24, 4, 51), (40, 2, 2), (42, 1, 2), (44, 4, land), (52, 4, 100), (58, 2, 1)]
/-- A fill of it with tiles issued and read, its shadows in the scratchpad. -/
def fill1 (issued : Nat) (got : List SrcTile) : StrFill :=
  { num := 0, inRange := 0, shadows := [⟨51, 0, scratchBase + 100⟩, ⟨51, 1, scratchBase + 101⟩], issued := issued, total := 2, got := got,
    range := armRange (slotStr 4102), seq := 0, slotT := 0, startAt := 0, latency := 0, redone := false }
/-- The armed descriptor with fills in progress, transfers in flight, at a time. -/
def streaming (st : StrState) (done : Nat) (fills : List StrFill) (xs : List Xfer) (now : Nat) : State :=
  let s := withObj (withObj base 50 (objOf 0x05 [attic 0, attic 1])) 51
    { objOf 0x05 [scratchBase, scratchBase + 1] with policy := 2, tier := 0, spread := 1 }
  let t := s.setStream 0 2 { Stream.init with
    state := st, slot := slotStr 4102, chan := 3, cur := armRange (slotStr 4102), curDone := done, fills := fills }
  { t with xfers := xs
           clk := { t.clk with now := now } }
theorem witness_stream_begin : canonB (streaming .armed 0 [] [] 0) = true ∧ (streaming .armed 0 [] [] 0).nextStream 0 = some 2 ∧
    ((streaming .armed 0 [] [] 0).liveObj ((streaming .armed 0 [] [] 0).stream 0 2).cur.src).isSome = true ∧
    ((streaming .armed 0 [] [] 0).fillFrames 0 ((streaming .armed 0 [] [] 0).stream 0 2)).isSome = true ∧
    (after (.streamTransferIssue 0) (streaming .armed 0 [] [] 0)).xfers = [⟨0, 2, some 0, 50, 0, attic 0, 0, 0⟩] ∧
    ((after (.streamTransferIssue 0) (streaming .armed 0 [] [] 0)).stream 0 2).openFill.isSome = true := by decide +kernel
theorem witness_stream_issue : canonB (streaming .armed 1 [fill1 1 []] [] 0) = true ∧
    (streaming .armed 1 [fill1 1 []] [] 0).nextStream 0 = some 2 ∧
    ((streaming .armed 1 [fill1 1 []] [] 0).stream 0 2).openFill = some (fill1 1 []) ∧
    (streaming .armed 1 [fill1 1 []] [] 0).homeOf 50 1 = some (attic 1) ∧
    (after (.streamTransferIssue 0) (streaming .armed 1 [fill1 1 []] [] 0)).xfers = [⟨0, 2, some 0, 50, 1, attic 1, 0, 0⟩] := by decide +kernel
/-- The first source tile as read. -/
def got0 : SrcTile := ⟨50, 0, zeros 4096, 0, scaleOne⟩
theorem witness_stream_joins : canonB (streaming .armed 1 [fill1 2 []] [⟨0, 2, some 0, 50, 0, attic 0, 0, 0⟩] 9000) = true ∧
    (takeFirst (fun y : Xfer => y.clu == 0) (streaming .armed 1 [fill1 2 []] [⟨0, 2, some 0, 50, 0, attic 0, 0, 0⟩] 9000).xfers).isSome = true ∧
    ((streaming .armed 1 [fill1 2 []] [⟨0, 2, some 0, 50, 0, attic 0, 0, 0⟩] 9000).frame (attic 0)).state = .home ∧
    (streaming .armed 1 [fill1 2 []] [⟨0, 2, some 0, 50, 0, attic 0, 0, 0⟩] 9000).headFault (attic 0) 50 0 = none ∧ attic 0 ≠ 0 ∧
    ((after (.streamTransferComplete 0 none false) (streaming .armed 1 [fill1 2 []] [⟨0, 2, some 0, 50, 0, attic 0, 0, 0⟩] 9000)).stream 0
      2).fills.map (fun f => f.got.length) = [1] := by decide +kernel
theorem witness_stream_lands : (streaming .armed 1 [fill1 2 [got0]] [⟨0, 2, some 0, 50, 1, attic 1, 0, 0⟩] 9000).fenceOk 4102 = false ∧
    canonB (streaming .armed 1 [fill1 2 [got0]] [⟨0, 2, some 0, 50, 1, attic 1, 0, 0⟩] 9000) = true ∧
    (streaming .armed 1 [fill1 2 [got0]] [⟨0, 2, some 0, 50, 1, attic 1, 0, 0⟩] 9000).mayCommit 0 (fill1 2 [got0, got0]) = true ∧
    ((after (.streamTransferComplete 0 none false) (streaming .armed 1 [fill1 2 [got0]] [⟨0, 2, some 0, 50, 1, attic 1, 0, 0⟩] 9000)).stream 0
      2).landed = 1 ∧
    (after (.streamTransferComplete 0 none false) (streaming .armed 1 [fill1 2 [got0]] [⟨0, 2, some 0, 50, 1, attic 1, 0, 0⟩] 9000)).homeOf 51 1 =
      some (scratchBase + 101) := by decide +kernel
theorem witness_stream_bad :
    ((after (.streamTransferComplete 0 (some .w256) false) (streaming .armed 1 [fill1 2 [got0]] [⟨0, 2, some 0, 50, 1, attic 1, 0, 0⟩]
      9000)).stream 0 2).fault = (1, 1) ∧
    (after (.streamTransferComplete 0 none false) (streaming .disarming 1 [] [⟨0, 2, none, 50, 1, attic 1, 0, 0⟩] 0)).xfers = [] ∧
    ((after (.streamTransferComplete 0 none false) (streaming .disarming 1 [] [⟨0, 2, none, 50, 1, attic 1, 0, 0⟩] 0)).stream 0 2).state = .idle := by
  decide +kernel
/-- The host has selected descriptor 2 in the window of cluster 0. -/
def strSelected (xs : List Xfer) : State := (streaming .armed 1 [fill1 1 []] xs 0).regPut .clu (accNum .host * 64 + 0) 0x200 2
theorem witness_disarm : canonB (strSelected []) = true ∧ (strSelected []).served = true ∧
    (strSelected []).fld .clu (accNum .host * 64 + 0) 0x200 5 0 = 2 ∧
    ((after (.strCtrlDisarm .host 0) (strSelected [])).stream 0 2).state = .idle ∧
    (strSelected [⟨0, 2, some 0, 50, 0, attic 0, 0, 0⟩]).inFlight 0 2 = 1 ∧
    ((after (.strCtrlDisarm .host 0) (strSelected [⟨0, 2, some 0, 50, 0, attic 0, 0, 0⟩])).stream 0 2).state = .disarming := by decide +kernel

/-! ## Registers (15) -/

/-- `GFE_SCALE_CFG` (class T), `CXL_APT_SEL` and `CXL_APT_VALID` (class I), and `GFE_TICK_STATUS`, as BAR0 offsets. -/
def offT : Nat := 0x504
def offI : Nat := 0x30040
def offV : Nat := 0x3004C
def offS : Nat := 0x110
theorem witness_write_t : canonB base = true ∧ base.locate offT = some ⟨.gfe, 0, 0, 0x504⟩ ∧ base.serves ⟨.gfe, 0, 0, 0x504⟩ = true ∧
    ((regAt .gfe 0x504).map (fun r => (r.events, r.fields.all (fun f => f.acc == .rw && f.eff == .t &&
      base.fieldOk .gfe 0 0x504 f.lsb (bitsOf 0x2004 f.msb f.lsb)), r.fields.length))) = some (0, true, 5) ∧
    (after (.registerWrite .host offT 0x2004 .word) base).reg.pend.map (fun p => (p.mask, p.val)) = [(0x3FF1F, 0x2004)] := by
  decide +kernel
theorem witness_start_ops : (∀ (y : State) (d : Nat), State.startOps y .host ⟨.gfe, 0, 0, 0x504⟩ d = y) ∧
    (∀ (y : State) (d : Nat), State.startOps y .host ⟨.cxl, 0, 0, 0x040⟩ d = y) ∧
    (∀ (y : State) (d : Nat), State.startOps y .host ⟨.cxl, 0, 0, 0x04C⟩ d = y) :=
  ⟨fun _ _ => rfl, fun _ _ => rfl, fun _ _ => rfl⟩
theorem witness_write_i : base.locate offI = some ⟨.cxl, 0, 0, 0x040⟩ ∧
    (regAt .cxl 0x040).map (fun r => (r.events, r.fields)) = some (0, [⟨5, 0, .rw, .i, 0⟩]) ∧
    (after (.registerWrite .host offI 63 .word) base).fld .cxl (accNum .host) 0x040 5 0 = 63 ∧
    ((after (.registerWrite .host offI 63 .narrow) base).regGet .cxl 0 0x004).testBit 0 = true ∧
    ((after (.registerWrite .host offI 63 .wide) base).regGet .cxl 0 0x004).testBit 0 = true := by decide +kernel
theorem witness_write_out_of_range : base.locate offV = some ⟨.cxl, 0, 0, 0x04C⟩ ∧
    (regAt .cxl 0x04C).map (fun r => (r.events, r.fields)) = some (0, [⟨0, 0, .rw, .i, 0⟩]) ∧
    base.fieldOk .cxl 0 0x04C 0 1 = false ∧ base.planBad .cxl 0 0x04C [(⟨0, 0, .rw, .i, 0⟩, none)] = false ∧
    ((after (.registerWrite .host offV 1 .word) base).regGet .cxl 0 0x004).testBit 0 = true := by decide +kernel
theorem witness_write_nowhere : base.locate 0x90000 = none ∧ base.locate 0x1040000 = none ∧ (base.locate 0x103FFFC).isSome = true ∧
    after (.registerWrite .host 0x90000 7 .word) base = base := by decide +kernel
theorem witness_lo_read : (after (.loRead .host offT) base).out = [.regRead .host 0x10] := by decide +kernel

theorem witness_unlisted : regAt .cxl 0x01C = none ∧ base.locate 0x3001C = some ⟨.cxl, 0, 0, 0x01C⟩ ∧
    (after (.loRead .host 0x3001C) base).out = [.regRead .host 0] := by decide +kernel
theorem witness_images : 0x504 / 4096 % 4 = (0x504 + 0x4000) / 4096 % 4 ∧ 0x504 % imageSize .gfe / 4 = (0x504 + 0x4800) % imageSize .gfe / 4 ∧
    (after (.loRead .host (0x504 + 0x4800)) base).out = [.regRead .host 0x10] ∧ 256 ≤ (259 : Nat) ∧ 259 < 256 + base.nClus := by
  decide +kernel
theorem witness_sideband_registers : base.sbAnswers = true ∧ base.sec.recovery = false ∧ bar0Ok 0x504 = true ∧ bar0Ok 0x506 = false ∧
    bar0Ok (2 ^ 26) = false ∧
    (after (.readReg 9 [0x04, 0x05, 0, 0]) base).out = [.sideband [0x7F, 0, 1, 0xE8, 0xC5, 4, 9, 0, 0x10, 0, 0, 0]] ∧
    (after (.readReg 9 [0x06, 0x05, 0, 0]) base).out = [.sideband [0x7F, 0, 1, 0xE8, 0xC5, 4, 9, 3]] ∧
    ((after (.writeReg 9 [0x40, 0, 3, 0, 63, 0, 0, 0]) base).fld .cxl (accNum .sideband) 0x040 5 0 = 63) := by decide +kernel

/-- `base` with events 0 and 2 of `GFE_TICK_STATUS` set, SEQ at 255. -/
def statused : State := base.regPut .gfe 0 0x110 0xFF000005
theorem witness_status : canonB statused = true ∧ (statused.statusReg offS).isSome = true ∧ statused.reg.raised = [] ∧
    (after (.statusClear .host offS 0xFF000001) statused).regGet .gfe 0 0x110 = 0xFF000004 ∧
    (after (.statusClear .host offS 0x00000001) statused).regGet .gfe 0 0x110 = 0xFF000005 ∧
    (after (.statusSetInject .host offS 2) statused).regGet .gfe 0 0x110 = 0x00000007 ∧
    (after (.statusToggle .host offS 2) statused).regGet .gfe 0 0x110 = 0x00000005 := by decide +kernel
theorem witness_status_mask : ((statused.statusReg offS).map (fun x => eventMask x.2 2)) = some 2 ∧
    ((after (.statusClear .host offS 0xFF000001) statused).raise .gfe 0 0x110 0).regGet .gfe 0 0x110 = 0x00000005 := by decide +kernel

/-- The host has selected fence 6 at generation 3 and value 10. -/
def fenced : State := (base.regPut .gfe (accNum .host) 0x280 6).setFence 6 ⟨10, 3⟩
theorem witness_fence_register : canonB fenced = true ∧ fenced.served = true ∧ fenced.selFence .host = 6 ∧ fenced.fenceBusy 6 = false ∧
    (after (.gfeFenceReset .host 3) fenced).fence 6 = ⟨0, 4⟩ ∧ (after (.gfeFenceReset .host 2) fenced).fence 6 = ⟨10, 3⟩ ∧
    ((after (.gfeFenceAdd .host 5) fenced).fence 6).val = 15 ∧
    (after (.gfeFenceReset .host 0xFFFFF) (fenced.setFence 6 ⟨10, 0xFFFFF⟩)).fence 6 = ⟨0, 0⟩ := by decide +kernel
theorem witness_acct : (after (.acctSnap .host 5 false) base).reg.hostAcc.acct.take 2 = [5, 0] ∧
    (after (.gfeScaleClearHist .host) base).reg.pend.map PendWrite.due = [base.applyTick] := by decide +kernel
/-- The host has selected aperture slot 2, bound to object 29. -/
def aptSel (bound : Bool) : State :=
  let s := withObj (base.regPut .cxl (accNum .host) 0x040 2) 29 (objOf 0 [attic 7])
  if bound then s.regPut .cxl 2 0x044 29 else s
theorem witness_apt_valid : canonB (aptSel true) = true ∧ (aptSel true).selected .host .cxl 0x040 5 0 = 2 ∧
    (aptSel true).bindable 29 = true ∧ (aptSel false).bindable ((aptSel false).regGet .cxl 2 0x044) = false ∧
    (after (.cxlAptValid .host true) (aptSel true)).fld .cxl 2 0x04C 0 0 = 1 ∧
    (after (.cxlAptValid .host true) (aptSel false)).fld .cxl 2 0x04C 0 0 = 0 ∧
    ((after (.cxlAptValid .host true) (aptSel false)).regGet .cxl 0 0x004).testBit 0 = true := by decide +kernel

/-! ## Updates, warm reset and recovery (16) -/

/-- `base` with `SEC` as given. -/
def secIs (f : Sec → Sec) : State := { base with sec := f base.sec }
/-- Bytes in big-endian order. -/
def be (n x : Nat) : List Byte := (leBytes n x).reverse
/-- A vendor root public key and the hash of it in mask ROM. -/
def vendorKey1 : List Byte := be 64
  0x471c3e758c4904285bba7e53118ed0f524adeb0757d25bd2f8e7b0d76dfa714cdd520f7aca8a8b917acc37f51de8f0c9bbe3ad858382e702dc25a12d09f7a858
def rom1 : List Byte := sha256 vendorKey1
/-- Firmware images of security versions 3 and 2. -/
def fw1 : FwImage := ⟨7, 3, 1000, vendorKey1, true⟩
def fw2 : FwImage := ⟨7, 2, 1000, vendorKey1, true⟩
/-- The first 320 bytes of a configuration image with this power cap, its owner certificate signed by the vendor key. -/
def cfgBody (cap : Nat) : List Byte :=
  leBytes 64 (0x4643584A + 2 ^ 32 + 384 * 2 ^ 64 + 2 ^ 96 + 15 * 2 ^ 192 + 5 * 2 ^ 272 + cap * 2 ^ 288 + 3 * 2 ^ 304) ++ be 64
    0x557b119063cf7ca9f131b4c4e36917e9b2c53f9799a2007e7bfec044be1ed54104197a1dc8a7f1430b8778c2904d448c7654b9dbb19d7190e49fe271537ca49e ++
  leBytes 8 0 ++ leBytes 4 1 ++ zeros 52 ++ be 64
    0x7f6b80844bd54dc4f9a8ddd0afde96ac43754df52236a9d065bd80a052d1cd7e343189017c8b818c6c807a36efbd7e8d7246f72663181392271cfb692e23e882 ++ vendorKey1
/-- Images of 600 W, with their owner's signature, and of 99 W. -/
def img1 : List Byte := cfgBody 600 ++ be 64
  0xdaa80c0ecb3af7f306cecfd605eb0428de065de7455b459eec54c0c539a6fba154918236f2ba38c9fe36f9d51afa1fe633cb2a0110d4f64fba20fc963625b22a
def imgLow : List Byte := cfgBody 99 ++ be 64
  0xdaa80c0ecb3af7f306cecfd605eb0428de065de7455b459eec54c0c539a6fba1082ecedb1428a89b362583ab281b71daa8a1b6a2448961cb814068639ff0811d
/-- The fields of an image whose floor is 3. -/
def cfg1 : CfgImage :=
  { serial := 1, device := 0, enableMap := 15, moduleId := 5, capW := 600, svnFloor := 3, macPrefix := 0, fab := [], gatherChan := 0,
    updateChan := 0, cert := ⟨[], 0, 0, [], []⟩, signature := [], digest := [] }
theorem test_sha256 : (sha256 [0x61, 0x62, 0x63]).take 4 = [0xBA, 0x78, 0x16, 0xBF] := by decide +kernel
theorem test_config_image : (verifyCfg img1 rom1 []).map (fun i => (i.serial, i.capW, i.svnFloor, i.moduleId)) = some (1, 600, 3, 5) ∧
    verifyCfg img1 (zeros 32) [] = none := by decide +kernel
/-- What a power-on finds: these images, and nothing amiss but what is named. -/
def bootIn (rails cellar : Bool) (cfg : Option (List Byte)) (fw : Option FwImage) : BootInputs :=
  { railsFail := rails, romHash := rom1, cellarFail := cellar, cfg := cfg, devHash := [], idOk := true, fw := fw, trainFail := [],
    spares := [], scanBad := false, procCounts := [], scanFails := [], mergeFail := false, idleMw := 100000 }
theorem witness_update_start : base.sec.upd ≠ 1 ∧ base.updateFrames.isSome = true ∧ base.sup.inhibit = false ∧
    (after (.secUpdFirmware .host) base).sec.updOp = 1 ∧ (after (.secUpdConfig .host) base).sec.upd = 1 := by decide +kernel
/-- A firmware update runs under the floor 3. -/
def updating : State := secIs (fun x => { x with upd := 1, updOp := 1, cfg := some cfg1, boot := some (bootIn false false none none) })
theorem witness_update_end : updating.sec.upd = 1 ∧ updating.svnFloor = 3 ∧
    (after (.updateComplete (.doneFw fw1)) updating).sec.fwStored = some (some fw1) ∧
    (after (.updateComplete (.doneFw fw2)) updating).sec.upd = 4 ∧
    (after (.updateComplete (.doneFw { fw1 with vendorKey := [] })) updating).sec.upd = 3 ∧
    (after (.updateComplete .badSignature) updating).sec.upd = 3 ∧
    (after (.secUpdFirmware .host) updating).sec = updating.sec := by decide +kernel
theorem witness_sec_reset : base.sec.warm = false ∧ base.sec.recovery = false ∧ (after (.secReset .host 0xA5 true) base).sec.warm = true ∧
    (after (.secReset .host 0xA4 true) base).sec.warm = false := by decide +kernel
/-- Recovery out of a warm reset, a load of firmware begun. -/
def recovering : State := secIs (fun x => { x with
  recovery := true, warm := true, cfg := some cfg1, load := (0, 5, 1), boot := some (bootIn false false none none) })
theorem witness_recovery : recovering.on = true ∧ (after (.secRecBegin .sideband true) recovering).sec.load = (1, 0, 1) ∧
    (after (.secRecData .sideband 9) recovering).sec.load = (0, 6, 1) ∧ (recovering.install none).1 ≠ 2 ∧
    (after (.secRecEnd .sideband none) recovering).sec.load = (0, 5, 3) ∧
    (recovering.install (some fw2)).1 = 4 ∧
    (after (.secRecEnd .sideband (some fw1)) recovering).sec.recovery = false ∧
    (after (.secRecEnd .sideband (some fw1)) recovering).sec.fwStored = some (some fw1) := by decide +kernel

/-! ## The host (12, 17) -/

/-- `base` with the whole range decoded, aperture slot 0 valid and bound to object 29 with its tile in a frame. -/
def apt (f : Nat) (st : FrameState) (valid : Nat) : State :=
  let s := (((withObj base 29 (objOf 0 [f])).regPut .cxl 0 0x044 29).regPut .cxl 0 0x04C valid).writeBytes (frameData f + 3) [7, 8]
  { s.setFrame f { s.frame f with state := st } with link := { s.link with hdm := some (2 ^ 46) } }
theorem witness_aperture : canonB (apt (attic 7) .home 1) = true ∧ (apt (attic 7) .home 1).memOpen 3 = true ∧
    3 < apertureEnd ∧ aptView (aptOff 3) = some (0, 3, false) ∧ (apt (attic 7) .home 1).fld .cxl (aptSlot 3) 0x04C 0 0 ≠ 0 ∧
    (apt (attic 7) .home 1).homeOf 29 0 = some (attic 7) ∧ (apt (attic 7) .home 1).fld .cxl 0 0x048 29 0 + 0 < 1 ∧
    (after (.memRd 3 2 none) (apt (attic 7) .home 1)).out = [.memData [7, 8] false] ∧
    (after (.memWr 3 [9]) (apt (attic 7) .home 1)).bytesAt (frameData (attic 7) + 3) 2 = [9, 8] := by decide +kernel
theorem witness_aperture_cellar : (apt 5 .home 1).memOpen 3 = true ∧ canonB (apt 5 .home 1) = true ∧ tierOf 5 = 3 ∧
    (after (.memRd 3 2 none) (apt 5 .home 1)).host.memWait = [⟨3, 2, none⟩] ∧ (after (.memRd 3 2 none) (apt 5 .home 1)).out = [] := by
  decide +kernel
theorem witness_aperture_unbound : (apt (attic 7) .home 0).memOpen 3 = true ∧
    Output.memData [0, 0] false ∈ (after (.memRd 3 2 none) (apt (attic 7) .home 0)).out ∧
    ((after (.memRd 3 2 none) (apt (attic 7) .home 0)).regGet .cxl 0 0x004).testBit 7 = true := by decide +kernel
theorem witness_raw : rawAttic ≤ frameData (attic 7) ∧ frameData (attic 7) < holeStart ∧
    (apt (attic 7) .home 1).memOpen (frameData (attic 7)) = true ∧ (apt (attic 7) .home 1).rawExists (frameData (attic 7) / 4096) = true ∧
    (after (.memWr (frameData (attic 7)) [1, 2]) (apt (attic 7) .home 1)).bytesAt (frameData (attic 7)) 4 = [1, 2, 0, 7] ∧
    (after (.memInv 3) (apt (attic 7) .home 1)).out = [.memCmp] := by decide +kernel
theorem witness_memory_closed : base.memOpen 3 = false ∧ after (.memRd 3 2 none) base = base ∧ base.linkUp = true ∧
    (after (.snoop 64) base).out = [.rspIHitI] := by decide +kernel

/-- `base` with its link as given. -/
def linkIs (f : Link → Link) : State := { base with link := f base.link }
theorem witness_link_loss : canonB base = true ∧ base.link.perst = false ∧ base.linkLive = true ∧ base.sb.refclk = true ∧
    (after .perstAssert base).link.perst = true ∧ (after .dlDown base).link.downs = 1 ∧ (after .hotReset base).link.state = .down ∧
    (after .flr base).link.state = .up ∧ (after .d3hotEntry base).link.d3hot = true ∧ (after .refclkLoss base).link.state = .down ∧
    (after .d0Return (linkIs (fun l => { l with d3hot := true }))).link.d3hot = false ∧
    (after .dlDown (linkIs (fun l => { l with downs := 65535 }))).link.downs = 65535 := by decide +kernel
/-- A DOWN link that waits for PERST# and its clock. -/
def downLink : State := linkIs (fun l => { l with state := .down, perst := true })
/-- A DOWN link without a reference clock. -/
def noClock : State :=
  let s := linkIs (fun l => { l with state := .down })
  { s with sb := { s.sb with refclk := false } }
theorem witness_link_trains : downLink.link.hostStep = true ∧ downLink.unitTest 4 = false ∧ downLink.sb.refclk = true ∧
    canonB downLink = true ∧ (after .perstDeassert downLink).link.state = .training ∧
    noClock.link.perst = false ∧ (after .refclkRestored noClock).link.state = .training ∧
    (after (.linkL0Reached 16 32) (linkIs (fun l => { l with state := .training }))).link.degraded = false ∧
    (after (.linkL0Reached 8 32) (linkIs (fun l => { l with state := .training }))).link.degraded = true ∧
    (after (.linkRecoveryExit 16 16) (linkIs (fun l => { l with state := .recovery }))).link.degraded = true ∧
    (after .linkRecoveryEnter base).link.recoveries = 1 := by decide +kernel
/-- `base` with vector 3 pending and masked. -/
def vec3 : State := { base with host := { base.host with pendVec := [3] } }
theorem witness_link_config : vec3.msixOpen = true ∧ 3 ∈ vec3.host.pendVec ∧ (after (.vectorUnmask (.vector 3 false)) vec3).out = [.msix 3] ∧
    (after (.vectorUnmask (.busMaster false)) base).link.busMaster = false ∧ (after (.memEnable true (some 0x20000000)) base).link.hdm = some 0x20000000 ∧
    (after (.memEnable true (some 0x20000001)) base).link.hdm = none ∧ (after (.dvsecCacheEnable false) base).link.cacheEn = false ∧
    (after .clk10mQualified base).sb.clk10m = true ∧ (after .clk10mLoss (after .clk10mQualified base)).sb.clk10m = false := by decide +kernel
theorem witness_margining : base.link.gts = 32 ∧ 15 < base.link.width ∧ (-32 : Int).natAbs ≤ 32 ∧
    (after (.laneMargining 15 false (-32) 70) base).out = [.laneErrors 15 63] ∧ (after (.laneMargining 15 true 17 0) base).out = [] := by
  decide +kernel

/-! ## The fabric (13) -/

/-- `base` with its fabric enabled, port 2 in a state, and a reply of module 5 on it. -/
def fabPort (st : PortState) : State :=
  let s := base.regPut .fab 0 0x000 1
  { s with fab := { s.fab with ports := [(2, ⟨st, 4, 0, 0⟩)], replies := [(5, 2, 0)] } }
/-- A frame of a kind from module 5, with its payload. -/
def frameK (k : Nat) (p : List Byte) : Frame := { frame5 with kind := k, payload := p }
theorem witness_port : canonB base = true ∧ base.served = true ∧ (base.port 2).state = .disabled ∧
    (after (.portEnable 2) (atCycle 9 base)).fab.ports = [(2, ⟨.training, 0, 9, 0⟩)] ∧
    (after (.portDisable 2) (fabPort .up)).fab.ports = [(2, ⟨.disabled, 4, 0, 0⟩)] ∧
    canonB (fabPort .training) = true ∧ (fabPort .training).fabLive = true ∧
    .frame 2 3 0 broadcastId false false 0 0 0 0 0 0 0 0 [] ∈ (after (.portTrainingComplete 2) (fabPort .training)).out ∧
    (after (.portFault 2) (fabPort .up)).fab.ports = [(2, ⟨.holddown, 5, 0, 0⟩)] := by decide +kernel
theorem witness_port_times :
    (after (.portTrainingTimeout 2) (atCycle (500 * msCycles) (fabPort .training))).fab.ports = [(2, ⟨.training, 4, 500 * msCycles, 0⟩)] ∧
    after (.portTrainingTimeout 2) (atCycle (500 * msCycles - 1) (fabPort .training)) = atCycle (500 * msCycles - 1) (fabPort .training) ∧
    (after (.holddownExpiry 2) (atCycle (100 * msCycles) (fabPort .holddown))).fab.ports = [(2, ⟨.training, 4, 100 * msCycles, 0⟩)] ∧
    after (.holddownExpiry 2) (atCycle (100 * msCycles - 1) (fabPort .holddown)) = atCycle (100 * msCycles - 1) (fabPort .holddown) ∧
    (after (.discoverSend 2) (atCycle secCycles (fabPort .up))).out.length = 1 ∧
    after (.discoverSend 2) (atCycle (secCycles - 1) (fabPort .up)) = atCycle (secCycles - 1) (fabPort .up) ∧
    after (.portFault 2) (fabPort .training) = fabPort .training := by decide +kernel
theorem witness_discovery : (fabPort .up).takes 2 = true ∧ (fabPort .up).frameOk (frameK 3 []) 3 = true ∧
    (after (.frameDiscard 2) (fabPort .up)).fab.drops.1 = 1 ∧
    (after (.discover 2 (frameK 3 [])) (fabPort .up)).out = [.frame 2 4 0 5 false false 0 0 0 0 0 0 0 0 [4, 0, 0, 0]] ∧
    (fabPort .up).frameOk (frameK 4 [4, 0, 0, 0]) 4 = true ∧ (fabPort .up).fab.moduleId = 0 ∧ (fabPort .up).ownMac 99 = false ∧
    (after (.discoverReply 2 99 (frameK 4 [4, 0, 0, 0])) (fabPort .up)).fab.replies = [(5, 2, 0)] ∧
    (after (.discoverReply 2 99 { frameK 4 [4, 0, 0, 0] with src := 0 }) (fabPort .up)).fab.conflicts = [99] := by decide +kernel
theorem witness_plane_expiry : (after (.routePlaneExpiry 5 2) { fabPort .up with clk := { base.clk with now := 3 * secCycles } }).fab.replies = [] ∧
    (after (.routePlaneExpiry 5 2) { fabPort .up with clk := { base.clk with now := 3 * secCycles - 1 } }).fab.replies = [(5, 2, 0)] := by
  decide +kernel

/-- `fabPort` UP with the entry of module 5 on lane 1. -/
def flow (e : Peer) : State :=
  let s := fabPort .up
  { s with fab := { s.fab with peers := Sparse.put (fun _ => Peer.init) [] (peerIx 5 1) e } }
/-- An active entry that expects PSN 3, of a sending flow with these frames. -/
def peer3 (fs : List TxFrame) : Peer :=
  { Peer.init with
    state := .active, started := true, expect := 3, nextPsn := BitVec.ofNat 32 fs.length, firstMsg := some 1, creditTx := 0, frames := fs }
/-- A frame of a sending flow. -/
def tx (k : Nat) (sent : Bool) : TxFrame :=
  { psn := BitVec.ofNat 32 k, msgId := 9, msgType := 4, frag := 0, nfrag := 0, deadline := 0, payload := [1], isNew := k == 0, cmd := none,
    sent := sent, sentAt := 0 }
theorem witness_data : canonB (flow (peer3 [])) = true ∧ (flow (peer3 [])).takes 2 = true ∧ frame5.src ≠ (flow (peer3 [])).fab.moduleId ∧
    (flow (peer3 [])).frameOk frame5 0 = true ∧ (flow (peer3 [])).fragOk frame5 = true ∧ (flow (peer3 [])).peerFailed 5 = false ∧
    (((flow (peer3 [])).takeAck 5 1 0 256).peer (peerIx 5 1)).restarts frame5 = false ∧
    (((flow (peer3 [])).takeAck 5 1 0 256).peer (peerIx 5 1)).expect = 3 ∧
    ((flow (peer3 [])).takeAck 5 1 0 256).reasmOf frame5 = none ∧
    ((after (.data 2 frame5) (flow (peer3 []))).peer (peerIx 5 1)).expect = 4 ∧
    (after (.data 2 frame5) (flow (peer3 []))).fab.inbox = [⟨5, 1, 7, 5, 0, [0, 0, 0, 0]⟩] := by decide +kernel
theorem witness_data_other :
    (((flow (peer3 [])).takeAck 5 1 0 256).peer (peerIx 5 1)).restarts { frame5 with isNew := true, psn := 0 } = true ∧
    ((after (.data 2 { frame5 with isNew := true, psn := 0 }) (flow (peer3 []))).peer (peerIx 5 1)).expect = 1 ∧
    (((flow Peer.init).takeAck 5 1 0 256).peer (peerIx 5 1)).state = .empty ∧
    ((flow Peer.init).takeAck 5 1 0 256).portFor 5 1 = some 2 ∧
    (after (.data 2 frame5) (flow Peer.init)).out.map (fun o => match o with | .frame _ k _ _ _ r _ _ _ _ _ _ _ _ _ => (k, r) | _ => (9, false)) =
      [(2, true)] ∧
    ((after (.data 2 { frame5 with psn := 2 }) (flow (peer3 []))).peer (peerIx 5 1)).ackOwed = true ∧
    2 ^ 31 ≤ ((3 : BitVec 32) - 4).toNat ∧ (peer3 []).nakAt = none ∧
    (after (.data 2 { frame5 with psn := 4 }) (flow (peer3 []))).out.length = 1 := by decide +kernel
theorem witness_ack : (flow (peer3 [tx 0 true, tx 1 true])).frameOk (frameK 1 []) 1 = true ∧
    (((flow (peer3 [tx 0 true, tx 1 true])).peer (peerIx 5 1)).frames.filter (·.sent)).length = 2 ∧
    ((after (.ack 2 { frameK 1 [] with ackPsn := 1 }) (flow (peer3 [tx 0 true, tx 1 true]))).peer (peerIx 5 1)).oldest = 1 ∧
    ((after (.ack 2 { frameK 1 [] with ackPsn := 2 }) (flow (peer3 [tx 0 true, tx 1 true]))).peer (peerIx 5 1)).frames = [] := by
  decide +kernel
theorem witness_nak : (flow (peer3 [tx 0 true, tx 1 true])).frameOk (frameK 2 []) 2 = true ∧
    ((flow (peer3 [tx 0 true])).takeAck 5 1 0 256).portFor 5 1 = some 2 ∧ ((flow (peer3 [tx 0 true])).takeAck 5 1 0 256).fabLive = true ∧
    (after (.nak 2 (frameK 2 [])) (flow (peer3 [tx 0 true, tx 1 true]))).out.length = 2 ∧
    (flow (peer3 [])).waitsOn 5 = [] ∧
    (after (.nak 2 { frameK 2 [] with reset := true }) (flow (peer3 []))).peer (peerIx 5 3) = { Peer.init with state := .failed } ∧
    ((after (.nak 2 { frameK 2 [] with reset := true }) (flow (peer3 []))).regGet .fab 0 0x080).testBit 4 = true := by decide +kernel
theorem witness_ack_due : (flow { peer3 [] with ackOwed := true }).portFor 5 1 = some 2 ∧ (flow { peer3 [] with ackOwed := true }).fabLive = true ∧
    (after (.ackDue 5 1) (flow { peer3 [] with ackOwed := true })).out.length = 1 ∧
    ((after (.ackDue 5 1) (flow { peer3 [] with ackOwed := true })).peer (peerIx 5 1)).ackOwed = false := by decide +kernel
/-- The limit of expiries in a row. -/
def retxLimit : Nat := base.fld .fab 0 0x014 15 12
/-- A flow late after its last expiry but one. -/
def retxLast : State := atCycle (100 * secCycles) (flow { peer3 [tx 0 true] with expiries := retxLimit - 1 })
theorem witness_retx : 2 ≤ retxLimit ∧ (flow (peer3 [tx 0 true])).fld .fab 0 0x014 15 12 = retxLimit ∧
    ((after (.retxTimerExpiry 5 1) (atCycle secCycles (flow (peer3 [tx 0 true])))).peer (peerIx 5 1)).expiries = 1 ∧
    (after (.retxTimerExpiry 5 1) (atCycle secCycles (flow (peer3 [tx 0 true])))).out.length = 1 ∧
    after (.retxTimerExpiry 5 1) (flow (peer3 [tx 0 true])) = flow (peer3 [tx 0 true]) ∧ retxLast.waitsOn 5 = [] ∧
    canonB retxLast = true ∧
    (after (.retxTimerExpiry 5 1) retxLast).peer (peerIx 5 0) = { Peer.init with state := .failed, failedAt := 100 * secCycles } := by
  decide +kernel
/-- The entry of module 5 has failed, at a time. -/
def failedFlow (n : Nat) : State :=
  atCycle n ([0, 1, 2, 3].foldl (fun t v => t.setPeer (peerIx 5 v) { Peer.init with state := .failed }) (fabPort .up))
theorem witness_failed_expiry : ((after (.peerFailedExpiry 5) (failedFlow (100 * msCycles))).peer (peerIx 5 1)).state = .empty ∧
    ((after (.peerFailedExpiry 5) (failedFlow (100 * msCycles - 1))).peer (peerIx 5 1)).state = .failed ∧
    Sparse.wf (fun _ => Peer.init) (failedFlow 0).fab.peers = true := by decide +kernel
/-- A message of module 5 in reassembly. -/
def joining : State :=
  let s := fabPort .up
  { s with fab := { s.fab with reasm := [⟨5, 1, 7, 5, 1, [(0, [1])], 0, 0⟩] } }
theorem test_reassembly_timeout : (after (.reassemblyTimeout 5 1 7) (atCycle (10 * msCycles) joining)).fab.reasm = [] ∧
    (after (.reassemblyTimeout 5 1 7) (atCycle (10 * msCycles - 1) joining)).fab.reasm = joining.fab.reasm ∧
    (after (.reassemblyTimeout 5 1 8) (atCycle (10 * msCycles) joining)).fab.reasm = joining.fab.reasm := by decide +kernel

/-! ## Messages (13) -/

/-- A message of module 5 on lane 1. -/
def msg (ty : Nat) (p : List Byte) : Msg := ⟨5, 1, 7, ty, 0, p⟩
/-- It has been delivered, with FABRIC channel 6 that takes commands of modules 4 to 5, and tables. -/
def inboxed (ty : Nat) (p : List Byte) : State :=
  let s := tables (fabPort .up) 4 []
  let t := s.setChan 6 { Chan.init with kind := .fabric, state := .active, gen := 1, srcRange := (4, 5) }
  { t with fab := { t.fab with inbox := [msg ty p], gatherChan := 6, updateChan := 6 } }
/-- A `REQUEST` of one `NOP` slot for a channel. -/
def reqOf (c : Nat) : List Byte := leBytes 2 c ++ leBytes 2 1 ++ zeros 4 ++ nopSlot 0
theorem witness_request : canonB (inboxed 0 (reqOf 6)) = true ∧ (inboxed 0 (reqOf 6)).msgOf 5 1 0 = some (msg 0 (reqOf 6)) ∧
    requestBad (reqOf 6) = false ∧ (inboxed 0 (reqOf 6)).sourceOk 6 5 = true ∧ (inboxed 0 (reqOf 6)).unitTest 1 = false ∧
    requestSlots 1024 ((reqOf 6).drop 8) = some [(nopSlot 0, [])] ∧ (inboxed 0 (reqOf 6)).slotRoom 6 = true ∧
    (inboxed 0 (reqOf 6)).acceptBad 6 (nopSlot 0) = none ∧ (after (.request 5 1) (inboxed 0 (reqOf 6))).gfe.cmds.map Cmd.chan = [6] ∧
    (after (.request 5 1) (inboxed 0 (reqOf 6))).fab.inbox = [] := by decide +kernel
theorem witness_request_refused : (inboxed 0 (reqOf 7)).sourceOk 7 5 = false ∧
    (after (.request 5 1) (inboxed 0 (reqOf 7))).fab.drops.2 = 1 ∧ requestSlots 1024 (slotOf 0 0 0 0 []) = none ∧
    (after (.request 5 1) (inboxed 0 ((reqOf 6).take 8 ++ slotOf 0 0 0 0 []))).fab.drops.2 = 1 ∧
    (after (.request 5 1) (inboxed 0 ((reqOf 6).take 8 ++ slotOf 0 0 0 0 []))).fab.inbox = [] := by decide +kernel
/-- Channel 6 holds 32 commands. -/
def heldFull : State :=
  let s := inboxed 0 (reqOf 6)
  { s with gfe := { s.gfe with cmds := List.replicate 32 { cmdOf 1 (nopSlot 0) with chan := 6 } } }
theorem witness_request_waits : heldFull.slotRoom 6 = false ∧ heldFull.sourceOk 6 5 = true ∧ canonB heldFull = true ∧
    heldFull.msgOf 5 1 0 = some (msg 0 (reqOf 6)) ∧ (after (.request 5 1) heldFull).fab.inbox = [msg 0 (reqOf 6)] := by decide +kernel
theorem witness_response : (inboxed 1 (zeros 16)).msgOf 5 1 1 = some (msg 1 (zeros 16)) ∧ canonB (inboxed 1 (zeros 16)) = true ∧
    (after (.response 5 1) (inboxed 1 (zeros 16))).fab.drops.2 = 0 ∧ (after (.response 5 1) (inboxed 1 (zeros 16))).fab.inbox = [] ∧
    (after (.response 5 1) (inboxed 1 (zeros 15))).fab.drops.2 = 1 := by decide +kernel
/-- A `GATHER` of row 1 of the table with tag 0, one bag. -/
def gatherP : List Byte := zeros 8 ++ leBytes 4 1 ++ leBytes 4 1 ++ [0, 0, 1, 0] ++ leBytes 8 1
theorem witness_gather_served : canonB (inboxed 2 gatherP) = true ∧ (inboxed 2 gatherP).msgOf 5 1 2 = some (msg 2 gatherP) ∧
    gatherMsgBad gatherP = false ∧ ((inboxed 2 gatherP).tableTagged 0).map Prod.fst = some 40 ∧ (inboxed 2 gatherP).ctxFree 6 = true ∧
    (after (.gather 5 1) (inboxed 2 gatherP)).gfe.cmds.map (fun d => (d.chan, d.cls, slotOp d.slot)) = [(6, 1, 0x28)] ∧
    (after (.gather 5 1) (inboxed 2 gatherP)).fab.serves.map Serve.update = [false] ∧ gatherMsgBad (gatherP ++ [0]) = true ∧
    (after (.gather 5 1) (inboxed 2 (gatherP ++ [0]))).fab.drops.2 = 1 := by decide +kernel
/-- An `UPDATE`, ROW_WRITE, of row 1 by a source row of FP32. -/
def updateP : List Byte := zeros 4 ++ [0, 4, 64, 0] ++ leBytes 4 1 ++ zeros 64 ++ leBytes 8 1 ++ zeros 64
theorem witness_update_served : canonB (inboxed 4 updateP) = true ∧ (inboxed 4 updateP).msgOf 5 1 4 = some (msg 4 updateP) ∧
    updateMsgBad updateP = false ∧ ((inboxed 4 updateP).tableTagged 0).map (fun x => (x.1, tableTakes x.2.2 0)) = some (40, true) ∧
    leField updateP 6 2 = rowLen (leField updateP 5 1) 16 ∧
    (after (.update 5 1) (inboxed 4 updateP)).gfe.cmds.map (fun d => (d.chan, slotOp d.slot)) = [(6, 0x29)] ∧
    updateMsgBad (updateP.take 75) = true ∧ (after (.update 5 1) (inboxed 4 (updateP.take 75))).fab.drops.2 = 1 := by decide +kernel
/-- A gather whose row 2 module 5 owns waits for its partials; an update for its acknowledgement. -/
def awaited (ty : Nat) (p : List Byte) (phase : Phase) : State :=
  let s := inboxed ty p
  let r := { rows12 with dest := [some (base.fab.moduleId, 1), some (5, 2)], awaitPeers := [(5, 9)] }
  { s with fab := { s.fab with awaits := [⟨5, 1, 9, if ty = 3 then 2 else 4, 1⟩] }
           gfe := { s.gfe with cmds := [{ cmdOf 1 slotGp with phase := phase, res := some r }], nextId := 1 } }
/-- A `PARTIALS` of one bag of 16 FP32 values. -/
def partP (status : Nat) : List Byte := leBytes 2 1 ++ zeros 14 ++ leBytes 4 status ++ zeros 64
theorem witness_partials : canonB (awaited 3 (partP 0) .resolving) = true ∧
    (awaited 3 (partP 0) .resolving).msgOf 5 1 3 = some (msg 3 (partP 0)) ∧
    (awaited 3 (partP 0) .resolving).awaitOf (fun a => a.peer == 5 && a.vl == 1 && a.msgType == 2) = some (⟨5, 1, 9, 2, 1⟩, []) ∧
    ((awaited 3 (partP 0) .resolving).cmd? 1).map Cmd.phase = some .resolving ∧
    ((after (.partials 5 1) (awaited 3 (partP 0) .resolving)).cmd? 1).map Cmd.phase = some .ready ∧
    ((after (.partials 5 1) (awaited 3 (partP 0) .resolving)).cmd? 1).bind (fun d => d.res.map Resolution.partials) =
      some [(5, partP 0)] ∧
    (after (.partials 5 1) (awaited 3 ((partP 0).take 80) .resolving)).fab.drops.2 = 1 := by decide +kernel
theorem witness_update_ack : (awaited 5 [9, 0, 0, 0] (.flush 0 false)).msgOf 5 1 5 = some (msg 5 [9, 0, 0, 0]) ∧
    canonB (awaited 5 [9, 0, 0, 0] (.flush 0 false)) = true ∧
    ((after (.updateAck 5 1) (awaited 5 [9, 0, 0, 0] (.flush 0 false))).extra 1).acked = 1 ∧
    (after (.updateAck 5 1) (awaited 5 [9, 0, 0, 0] (.flush 0 false))).fab.awaits = [] ∧
    (after (.updateAck 5 1) (awaited 5 [9, 0, 0] (.flush 0 false))).fab.drops.2 = 1 := by decide +kernel
theorem witness_refuse : (awaited 6 [1, 0, 0, 0, 9, 0, 0, 0] (.flush 0 false)).msgOf 5 1 6 = some (msg 6 [1, 0, 0, 0, 9, 0, 0, 0]) ∧
    (awaited 6 [1, 0, 0, 0, 9, 0, 0, 0] (.flush 0 false)).refusedCmd 5 9 = some 1 ∧
    ((after (.refuse 5 1) (awaited 6 [1, 0, 0, 0, 9, 0, 0, 0] (.flush 0 false))).cmd? 1).map Cmd.phase = some (.acks stRemoteFail 5 0) ∧
    (inboxed 6 [1, 0, 0, 0, 9, 0, 0, 0]).refusedCmd 5 9 = none ∧
    ((after (.refuse 5 1) (inboxed 6 [1, 0, 0, 0, 9, 0, 0, 0])).regGet .fab 0 0x080).testBit 5 = true ∧
    (after (.refuse 5 1) (inboxed 6 [1])).fab.drops.2 = 1 := by decide +kernel

/-! ## Tests, residencies and the fault log (14) -/

/-- A `TEST_ON_DEMAND` of a unit and a cluster. -/
def slotTod (unit clu : Nat) : List Byte := slotOf 0x02 0 0 0 [(16, 1, unit), (17, 1, clu), (20, 4, 8)]
theorem witness_test_begins : issuesB (head (slotTod 3 0)) (.chan 3) 0x02 (cmdOf 1 (slotTod 3 0)) = true ∧
    (head (slotTod 3 0)).testBad (slotTod 3 0) = [] ∧ (head (slotTod 3 0)).integ.test = none ∧ testUnit (slotTod 3 0) ≠ 0 ∧
    ((after (.testOnDemand (.chan 3)) (head (slotTod 3 0))).integ.test).map Test.unit = some 3 ∧
    issuesB (head (slotTod 0 1)) (.chan 3) 0x02 (cmdOf 1 (slotTod 0 1)) = true ∧ (head (slotTod 0 1)).testBad (slotTod 0 1) = [] ∧
    (after (.testOnDemand (.chan 3)) (head (slotTod 0 1))).integ.test = none ∧
    (after (.testOnDemand (.chan 3)) (head (slotTod 0 1))).integ.wait.map (fun t => (t.unit, t.clu)) = [(0, 1)] := by decide +kernel
theorem witness_test_bad : lowest ((head (slotTod 5 0)).testBad (slotTod 5 0)) = some 16 ∧
    lowest ((head (slotTod 0 4)).testBad (slotTod 0 4)) = some 17 ∧ recordB (head (slotTod 5 0)) 3 = true ∧
    issuesB (head (slotTod 5 0)) (.chan 3) 0x02 (cmdOf 1 (slotTod 5 0)) = true ∧
    (head (slotTod 5 0)).recordOut (cmdOf 1 (slotTod 5 0)) 255 stRange 16 0 ∈ (after (.testOnDemand (.chan 3)) (head (slotTod 5 0))).out := by
  decide +kernel
/-- A test of the fabric engine, drained or not, `t` ticks and `n` cycles after it began. -/
def unitTest3 (drained : Bool) (t n : Nat) : State :=
  let s := withCmds [{ cmdOf 1 (slotTod 3 0) with phase := .waiting 0 }]
  { s with integ := { s.integ with test := some ⟨.demand 1, 3, 0, 0, drained, 0, false, 100⟩ }
           clk := { s.clk with tick := BitVec.ofNat 64 t, now := n } }
theorem witness_test_drains : (unitTest3 false 0 0).unitDrained ⟨.demand 1, 3, 0, 0, false, 0, false, 100⟩ = true ∧
    ((after .testDrainComplete (unitTest3 false 0 0)).integ.test).map Test.drained = some true ∧
    (unitTest3 false 8 0).integ.wait = [] ∧ testDrain (slotTod 3 0) = 8 ∧ (after .testDrainTimeout (unitTest3 false 8 0)).integ.test = none ∧
    after .testDrainTimeout (unitTest3 false 7 0) = unitTest3 false 7 0 := by decide +kernel
theorem witness_test_done : unitCycles 3 = 39000000 ∧ (after (.testDone .pass) (unitTest3 true 0 39000000)).integ.test = none ∧
    listGet 9 (after (.testDone .pass) (unitTest3 true 0 39000000)).integ.unitRes 2 = 1 ∧
    after (.testDone .pass) (unitTest3 true 0 38999999) = unitTest3 true 0 38999999 := by decide +kernel

/-- `base` when the interval of the rotation has passed. -/
def rotDue : State := { base with clk := { base.clk with now := 4095 * secCycles } }
/-- `rotDue` with the next test of the rotation in line. -/
def rotWaits : State := after .residencyStart rotDue
theorem witness_residency_start : canonB rotDue = true ∧ rotDue.sup.stopping = false ∧ rotDue.fld .int 0 0x004 0 0 = 1 ∧
    rotDue.integ.test = none ∧ rotDue.integ.wait = [] ∧ rotDue.integ.secsAt + rotDue.fld .int 0 0x004 12 1 * secCycles ≤ rotDue.clk.now ∧
    rotDue.rotation = [0, 1, 2, 3] ∧ rotDue.cluSlot 0 = some 0 ∧ rotWaits.integ.test = none ∧
    rotWaits.integ.wait.map (fun t => (t.kind, t.clu)) = [(.rotation, 0)] ∧ after .residencyStart base = base := by decide +kernel
theorem witness_test_edge : canonB rotWaits = true ∧ rotWaits.integ.wait.all rotWaits.testable = true ∧ rotWaits.cluSlot 0 = some 0 ∧
    (rotWaits.pslot 0).state = .serving ∧ (rotWaits.testEdge.pslot 0).state = .testResidency ∧
    rotWaits.testEdge.integ.test.map (fun t => (t.clu, t.entered)) = some (0, rotWaits.tickN) ∧ rotWaits.testEdge.integ.wait = [] := by
  decide +kernel
/-- Cluster 1 in its residency, drained or not, in tick `t`. -/
def resident (drained : Bool) (t : Nat) : State :=
  let s := base.setPslot 1 { base.pslot 1 with state := .testResidency }
  { s with integ := { s.integ with test := some ⟨.rotation, 0, 1, 0, drained, 0, false, 100⟩ }
           clk := { s.clk with tick := BitVec.ofNat 64 t } }
theorem witness_residency_ends : canonB (resident false 64) = true ∧ (resident false 64).cluSlot 1 = some 1 ∧
    ((after .residencyAbandon (resident false 64)).pslot 1).state = .serving ∧
    after .residencyAbandon (resident false 63) = resident false 63 ∧ canonB (resident true 100) = true ∧
    ((after (.residencyVerdict .pass) (resident true 100)).pslot 1).state = .serving ∧
    ((after (.residencyVerdict (.fail 0 1)) (resident true 100)).pslot 1).state = .retired ∧
    after (.residencyVerdict .pass) (resident true 99) = resident true 99 := by decide +kernel

/-- `base` with records in the buffer and in the ring. -/
def logged : State := { base with integ := { base.integ with logBuf := [[1]], logRing := [[2], [3]] } }
theorem witness_slot_control : base.selSlot .host = 0 ∧ (base.pslot 0).state = .serving ∧
    ((after (.intCluRetire .host) base).pslot 0).state = .retired ∧ ((after (.intCluSuspect .host) base).pslot 0).state = .suspect := by
  decide +kernel
theorem witness_fault_log : logged.sup.inhibit = false ∧ logged.unitTest 4 = false ∧
    (after .faultLogRecordWrite logged).integ.logRing = [[2], [3], [1]] ∧ (after .faultLogRecordWrite logged).integ.logBuf = [] ∧
    (after (.intLogSnap .host 1) logged).reg.hostAcc.log.take 1 = [2] := by decide +kernel

/-! ## Monitors (16) -/

/-- `base` with an input that has been read. -/
def metered (mv : Int) (run : Nat) : State :=
  { base with sup := { base.sup with vin := ⟨List.replicate 8 mv, false, run, 0⟩, iin := ⟨[100], false, 0, 0⟩ } }
theorem witness_meter : canonB (metered 48000 0) = true ∧
    ((after (.inputMeterSample 70001 0) (metered 48000 0)).regGet .mon 0 0x000).testBit 4 = true ∧
    (after (.inputMeterSample 48000 100) (metered 48000 0)).sup.energyPj = 48000000 ∧
    (after (.inputMeterSample 48000 100) (metered 48000 0)).sup.stopping = false ∧
    (after (.inputMeterSample 39999 0) (metered 39999 0)).sup.stopping = true ∧
    (after (.inputMeterSample 40000 0) (metered 40000 0)).sup.stopping = false ∧
    (after (.inputMeterSample 42999 0) (metered 42999 0)).sup.inhibit = true ∧
    (after (.inputMeterSample 43000 0) (metered 43000 0)).sup.inhibit = false ∧
    (after (.inputMeterSample 41999 0) (metered 41999 0)).sup.throttleWant = true ∧
    (after (.inputMeterSample 60001 0) (metered 60001 99)).sup.stopping = true ∧
    (after (.inputMeterSample 60001 0) (metered 60001 98)).sup.stopping = false := by decide +kernel
/-- A time after the last sample of the meter. -/
def meterAt (run now : Nat) : State :=
  let s := metered 48000 run
  { s with clk := { s.clk with now := now } }
theorem witness_meter_timeout : (meterAt 99 130000).sup.vin.run < 100 ∧ (after (.meterTimeout false) (meterAt 99 130000)).sup.inhibit = true ∧
    (after (.meterTimeout false) (meterAt 99 130000)).sup.stopping = false ∧ (after (.meterTimeout false) (meterAt 100 130000)).sup.stopping = true ∧
    (after (.meterTimeout true) (meterAt 99 (10 * msCycles))).sup.stopping = true ∧
    after (.meterTimeout false) (meterAt 99 129999) = meterAt 99 129999 ∧
    after (.meterTimeout true) (meterAt 99 (10 * msCycles - 1)) = meterAt 99 (10 * msCycles - 1) := by decide +kernel
/-- Sensor 8 after two samples and a run of hot values. -/
def sensed (q : Int) (run : Nat) : State := base.setTemp 8 ⟨[q, q], false, run, 0⟩
/-- The same a time later. -/
def sensedAt (now : Nat) : State :=
  let s := sensed 0 0
  { s with clk := { s.clk with now := now } }
theorem witness_temperature : canonB (sensed 420 0) = true ∧
    ((after (.tempSensorSample 8 601) (sensed 420 0)).regGet .mon 0 0x000).testBit 4 = true ∧
    ((after (.tempSensorSample 8 600) (sensed 420 8)).tempRec 8).run = 9 ∧ (after (.tempSensorSample 8 600) (sensed 420 8)).sup.stopping = false ∧
    (after (.tempSensorSample 8 420) (sensed 420 9)).sup.stopping = true ∧ ((after (.tempSensorSample 8 (-160)) (sensed 419 9)).tempRec 8).run = 0 ∧
    (after (.tempSensorSample 8 405) (sensed 405 0)).mon.stepWant = 2 ∧ (after (.tempSensorTimeout 8) (sensedAt msCycles)).mon.stepWant = 2 ∧
    after (.tempSensorTimeout 8) (sensedAt (msCycles - 1)) = sensedAt (msCycles - 1) := by decide +kernel
theorem witness_voltage_fault : (-1 : Int) < 0 ∧ ((after (.voltageMonitorSample 3 (-1)) base).regGet .mon 0 0x000).testBit 4 = true ∧
    ((after (.voltageMonitorTimeout 3) (sensedAt msCycles)).voltRec 3).timeout = true ∧
    ((after (.voltageMonitorTimeout 3) (sensedAt (msCycles - 1))).voltRec 3).timeout = false := by decide +kernel
/-- Monitor 3 with its filtered value outside 10 percent whatever its nominal value, and a run of such values. -/
def volted (run : Nat) : State := base.setVolt 3 ⟨[-9, -9, -9, -9], false, run, 0⟩
theorem witness_voltage_median : median ((0 :: ((volted 15).voltRec 3).vals).take 5) = -9 := by decide +kernel
theorem witness_voltage (nom : Nat) : (0 : Int) ≤ 2 * nom ∧ outside 10 nom (median ((0 :: ((volted 15).voltRec 3).vals).take 5)) = true ∧
    outside 20 nom (median ((0 :: ((volted 15).voltRec 3).vals).take 5)) = true := by
  rw [witness_voltage_median]
  refine ⟨by omega, ?_, ?_⟩ <;> simp only [outside, decide_eq_true_eq] <;> omega
theorem witness_process : outside 4 (base.bootCount 9) 0 = false ∧ outside 4 (base.bootCount 9) 1 = true ∧
    ((after (.processMonitorSample 9 0) base).procRec 9).vals = [0] ∧
    ((after (.processMonitorSample 9 1) base).regGet .mon 0 0x000).testBit 4 = true ∧
    ((after (.processMonitorTimeout 9) (sensedAt (10 * secCycles))).procRec 9).timeout = true ∧
    ((after (.processMonitorTimeout 9) (sensedAt (10 * secCycles - 1))).procRec 9).timeout = false := by decide +kernel

/-! ## Power-on, the controlled stop and warm reset (16) -/

theorem witness_boot_fails : off.on = false ∧ (after (.powerOn (bootIn true false none none)) off).on = false ∧
    (after (.powerOn (bootIn false true none none)) off).sec.cause = 1 ∧
    (after (.powerOn (bootIn false false none none)) off).sec.cause = 2 ∧
    partition off.sec.cfgStored (some img1) = some img1 ∧
    (after (.powerOn (bootIn false false (some imgLow) none)) off).sec.cause = 2 ∧
    (after (.powerOn (bootIn false false (some img1) none)) off).sec.cause = 3 ∧
    (after (.powerOn (bootIn false false (some img1) (some fw2))) off).sec.cause = 3 := by decide +kernel
/-- The module after a boot with both images. -/
def booted : State := after (.powerOn (bootIn false false (some img1) (some fw1))) off
theorem witness_boot : (booted.sec.step, booted.fab.moduleId, booted.sb.pwrgd) = (12, 5, true) := by decide +kernel
/-- `base` in a controlled stop since cycle 0, with a byte in the cellar and one in the attic. -/
def stopping (now : Nat) : State :=
  let s := (base.writeBytes 8 [7]).writeBytes (frameData (attic 0)) [9]
  { s with sup := { s.sup with stopping := true, stopAt := 0 }
           clk := { s.clk with now := now } }
theorem witness_rails_off : (after .railsOff (stopping 3250000)).on = false ∧ (after .railsOff (stopping 3250000)).byte 8 = 7 ∧
    (after .railsOff (stopping 3250000)).byte (frameData (attic 0)) = 0 ∧ 8 < frameData atticBase ∧
    after .railsOff (stopping 3249999) = stopping 3249999 := by decide +kernel
/-- `base` in a warm reset under the floor 3. -/
def warm : State := secIs (fun x => { x with warm := true, cfg := some cfg1, boot := some (bootIn false false none none) })
theorem witness_warm_reset : base.coresRun = true ∧ (after .watchdogExpiry base).sec.warm = true ∧ warm.sec.recovery = false ∧
    (after (.warmResetEnd (some fw1)) warm).sec.fwRun = some fw1 ∧ (after (.warmResetEnd none) warm).sec.cause = 3 ∧
    (after (.warmResetEnd (some fw2)) warm).sec.recovery = true := by decide +kernel
/-- Recovery in which the words of an image have been loaded. -/
def cfgRecovery : State := secIs (fun x => { x with
  recovery := true, load := (1, 96, 1), words := wordsOf img1 96, boot := some (bootIn false false none none) })
theorem witness_warm_reset_keeps : (after .perstAssert base).clk = base.clk ∧ (after .flr base).mem = base.mem ∧
    ((after (.secRecEnd .host none) cfgRecovery).sec.cfg.map CfgImage.serial) = some 1 := by decide +kernel

/-! ## MCTP, SPDM and the sideband (16, 17) -/

theorem witness_mctp : base.sbAnswers = true ∧ (after (.dynamicAddressAssign 9) base).sb.dynAddr = some 9 ∧
    (after .i3cBusReset (after (.dynamicAddressAssign 9) base)).sb.dynAddr = none ∧
    (after (.setEndpointId 255) base).out = [.sideband [0, 0, 1, 2]] ∧ (after (.setEndpointId 8) base).sb.eid = 8 ∧
    (after .getEndpointId base).out = [.sideband [0, 0, 2, 0, base.sb.eid, 0, 0]] ∧
    (after (.getMctpVersionSupport 1) base).out = [.sideband [0, 0, 4, 0x80]] ∧ (1 : BitVec 8) ∉ [255, 0, 5, 0x7F] ∧
    (after (.getMctpVersionSupport 5) base).freeCtr = base.freeCtr + 1 ∧
    (after .getMessageTypeSupport base).out = [.sideband [0, 0, 5, 0, 2, 5, 0x7F]] := by decide +kernel
/-- `base` with the negotiation of both paths at a stage; with or without the identity key. -/
def spdmAt (n : Nat) (id : Bool) : State :=
  { base with sb := { base.sb with spdmMctp := n, spdmDoe := n }
              sec := { base.sec with idOk := id } }
theorem witness_spdm : (spdmAt 0 true).spdmOpen .mctp = true ∧ (spdmAt 0 true).spdmOpen .doe = true ∧
    (after (.getVersion .doe) (spdmAt 0 true)).sb.spdmDoe = 1 ∧
    (after (.getCapabilities .mctp) (spdmAt 0 true)).out = [.spdm .mctp [0x12, 0x7F, 4, 0]] ∧
    (after (.getCapabilities .mctp) (spdmAt 1 true)).sb.spdmMctp = 2 ∧
    (after (.negotiateAlgorithms .mctp true true) (spdmAt 2 true)).sb.spdmMctp = 3 ∧
    (after (.negotiateAlgorithms .mctp true false) (spdmAt 2 true)).out = [.spdm .mctp [0x12, 0x7F, 1, 0]] ∧
    (after (.getDigests .doe) (spdmAt 2 true)).out = [.spdm .doe [0x12, 0x7F, 4, 0]] := by decide +kernel
theorem witness_spdm_signed : (spdmAt 3 true).spdmStage .mctp = 3 ∧ (spdmAt 3 false).sec.idOk = false ∧
    (after (.challenge .mctp 1 []) (spdmAt 3 true)).out = [.spdm .mctp [0x12, 0x7F, 1, 0]] ∧
    (after (.challenge .mctp 0 []) (spdmAt 3 false)).out = [.spdm .mctp [0x12, 0x7F, 5, 0]] ∧
    (after (.getMeasurements .mctp 1 true []) (spdmAt 3 false)).out = [.spdm .mctp [0x12, 0x7F, 5, 0]] ∧
    (after (.getMeasurements .mctp 5 false []) (spdmAt 3 false)).out = [.spdm .mctp [0x12, 0x7F, 1, 0]] ∧
    (after (.getMeasurements .mctp 4 false []) (spdmAt 3 false)).out.length = 1 ∧
    (after (.getCertificate .mctp 1 0 9) (spdmAt 3 true)).out = [.spdm .mctp [0x12, 0x7F, 1, 0]] := by decide +kernel

/-- An answer of the command set. -/
def sbReply (cmd cc : Nat) (data : List Byte) : Output :=
  .sideband ([0x7F, 0, 1, 0xE8, 0xC5] ++ leBytes 1 cmd ++ [9] ++ leBytes 1 cc ++ data)
theorem witness_sideband : (after (.readSensor 9 [0]) base).out = [sbReply 3 2 []] ∧ (after (.readSensor 9 [0, 0]) recovering).out = [sbReply 3 6 []] ∧
    (after (.readSensor 9 [3, 0]) base).out = [sbReply 3 3 []] ∧ (after (.readSensor 9 [0, 144]) base).out = [sbReply 3 3 []] ∧
    (after (.readSensor 9 [0, 143]) base).out = [sbReply 3 0 [0, 0, 0, 0]] ∧ (after (.getStatus 9 []) recovering).out.length = 1 ∧
    (after (.getIdentity 9 []) base).out.length = 1 ∧ (after (.getIdentity 9 [0]) base).out = [sbReply 1 2 []] := by decide +kernel
theorem witness_sideband_log : (after (.readLog 9 [0, 0, 1]) logged).out = [sbReply 6 0 (padTo 64 [3])] ∧
    (after (.readLog 9 [0, 0, 0]) logged).out = [sbReply 6 3 []] ∧ (after (.readLog 9 [0, 0, 16]) logged).out = [sbReply 6 3 []] ∧
    (after (.readLog 9 [0xFF, 0xFF, 2]) logged).out = [sbReply 6 3 []] ∧ (after (.readLog 9 [0xFF, 0xFF, 1]) logged).out = [sbReply 6 0 (zeros 64)] ∧
    (after (.readRetire 9 [0, 0, 1]) base).out = [sbReply 7 3 []] ∧
    ({ base with integ := { base.integ with retireSlots := [5] } } : State).retireTable.length = 1 := by decide +kernel
/-- `base` with an erase in a state, and the inhibit. -/
def erasing (n : Nat) (inh : Bool) : State :=
  { base with sb := { base.sb with erasing := n }
              sup := { base.sup with inhibit := inh }
              integ := { base.integ with retireSlots := [5] } }
theorem witness_erase : (after (.eraseRetire 9 [0x53, 0x41, 0x52, 0x45]) (erasing 0 false)).sb.erasing = 1 ∧
    (after (.eraseRetire 9 [0, 0, 0, 0]) (erasing 0 false)).out = [sbReply 8 3 []] ∧
    (after (.eraseRetire 9 [0x53, 0x41, 0x52, 0x45]) (erasing 1 false)).out = [sbReply 8 4 []] ∧
    (after (.eraseRetire 9 [0x53, 0x41, 0x52, 0x45]) (erasing 0 true)).out = [sbReply 8 5 []] ∧
    (after (.eraseComplete true) (erasing 1 false)).integ.retireSlots = [] ∧ (after (.eraseComplete false) (erasing 1 false)).integ.retireSlots = [5] := by
  decide +kernel
theorem witness_sideband_warm_reset : (after (.warmReset 9 [0xA5]) base).sec.warm = true ∧ (after (.warmReset 9 [0xA4]) base).out = [sbReply 9 3 []] ∧
    (after (.warmReset 9 [0xA5]) warm).out = [sbReply 9 4 []] := by decide +kernel

/-! ## Further cases of the statements' clauses -/

/-- `hwDone` in its commit phase. -/
def hwCommits : State := running slotHw { run1 with charge := 5096, work := some hwWork, commitAt := some 0 }
theorem witness_condition_others : after (.runFindsCondition 0 none) hwCommits = hwCommits ∧
    after (.runFindsCondition 0 (some .production)) (hwDone 9) = hwDone 9 ∧
    (tblRun slotGp 4).twice 0 (tblCmd slotGp) = true ∧ ((after (.runFindsCondition 0 (some .mismatch)) (tblRun slotGp 4)).clu 0).run = none ∧
    ((after (.runFindsCondition 0 (some .mismatch)) (tblRun slotGp 4)).cnt 0).tblMismatch = 1 ∧
    (products (running slotGm run1)).twice 0 (ranCmd slotGm) = false ∧
    after (.runFindsCondition 0 (some .mismatch)) (products (running slotGm run1)) = products (running slotGm run1) ∧
    ((after (.runFindsCondition 0 (some (.badRead 12 0 .w256))) (products (running slotGm run1))).clu 0).run = none := by decide +kernel
/-- Runs of a pair of which the first has another status; the second alone. -/
def pairOther (n : Nat) : PairRun := { pairRun n false with status := 1 }
def pairThird (t : Bool) : State :=
  products (withCmds [{ cmdOf 1 slotGm with phase := .admitted 0, more := some (pair01 none (some (pairRun 1 t))) }])
theorem witness_pair_others :
    ((after (.repeatPairCompare 1) (pairDone (pairOther 0) (pairRun 1 false))).pslot 0).state = .suspect ∧
    ((after (.repeatPairCompare 1) (pairDone (pairRun 1 false) (pairRun 1 true))).pslot 0).faults = [0] ∧
    ((after (.repeatPairCompare 1) (pairDone (pairRun 1 false) (pairRun 1 true))).pslot 1).faults = [0] ∧
    ((after (.repeatPairCompare 1) (pairThird true)).pslot 1).faults = [0] ∧
    after (.repeatPairCompare 1) { pairThird true with clk := { base.clk with cyc := 127400 } } =
      { pairThird true with clk := { base.clk with cyc := 127400 } } ∧
    after (.repeatPairCompare 1) (pairDone (PairRun.start 0) (pairRun 1 false)) = pairDone (PairRun.start 0) (pairRun 1 false) := by
  decide +kernel
theorem witness_summary_others : ((after (.summaryCompare 0 (some ⟨0, 1, 0⟩)) (summing.fldPut .clu 0 0x180 0 0 0)).cnt 0).vecPasses = 1 ∧
    ((after (.summaryCompare 0 none) (summing.regPut .clu 0 0x194 (2 ^ 31 + 1))).cnt 0).vecAnomalies = 1 ∧
    after (.summaryCompare 0 none) { summing with clk := { summing.clk with cyc := 127400 } } =
      { summing with clk := { summing.clk with cyc := 127400 } } := by decide +kernel

/-- A channel PAUSED as stale whose ring fields have been rewritten. -/
def staleWritten : State := (chan0 .host (.paused .stale)).setChan 0 { (chan0 .host (.paused .stale)).chan 0 with ringWritten := true }
theorem witness_queue_others : ((after (.doorbell 0 1) staleWritten).chan 0).tail = 0 ∧
    ((after (.doorbell 0 1) (chan0 .host .created)).chan 0).tail = 1 ∧ after (.doorbell 0 1) (chan0 .host .draining) = chan0 .host .draining ∧
    after (.doorbell 0 1) (chan0 .fabric .active) = chan0 .fabric .active ∧
    ((after (.cqHead 0 65) fullCq).regGet .gfe 0 0x22C).testBit 0 = true ∧ (after (.cqHead 0 65) fullCq).cq 0 = fullCq.cq 0 ∧
    after (.cqHead 0 0) base = base ∧ after (.orphanTimeout 0) (chan0 .host .active) = chan0 .host .active ∧
    after (.orphanTimeout 0) (chan0 .host .orphaned) = chan0 .host .orphaned := by decide +kernel
/-- `reading` with its quota of contexts used up; with a doorbell in the cycle of the verdict. -/
def ctxLess : State :=
  let s := reading.fldPut .gfe 0 0x218 14 0 1
  { s with gfe := { s.gfe with ctxs := [⟨0, 0, 0, false, false, none, 0⟩] } }
def belled : State := (rereading ⟨0, 8, 8, 7⟩ 5).setChan 0 { (rereading ⟨0, 8, 8, 7⟩ 5).chan 0 with bellAt := 6 }
/-- A slot of an opcode that the table does not have. -/
def badSlot : List Byte := sealed (slotOf 0x7F 0 0 0 [])
theorem witness_ring_others : ((after (.ringReadReturn 0 (nopSlot 0) []) ctxLess).chan 0).ctxWait.map CtxWait.slot = some (nopSlot 0) ∧
    ((after (.ringReadReturn 0 (nopSlot 0) []) ctxLess).chan 0).head = 0 ∧
    readTaken.acceptBad 0 badSlot = some 0 ∧ ((after (.ringReadReturn 0 badSlot []) reading).chan 0).head = 1 ∧
    ((after (.doorbellStale 0) belled).chan 0).state = .active ∧
    (after (.ringReadReturn 0 (nopSlot 0) []) (rereading ⟨0, 8, 8, 0⟩ 9)).gfe.cmds = [] ∧
    (after (.ringReadReturn 0 (nopSlot 0) []) (rereading ⟨0, 8, 0, 0⟩ 2600)).gfe.cmds = [] ∧
    after (.ringRereadIssue 0) (rereading ⟨0, 8, 0, 0⟩ 2500) = rereading ⟨0, 8, 0, 0⟩ 2500 ∧
    after (.doorbellStale 0) (rereading ⟨0, 8, 7, 7⟩ 2599) = rereading ⟨0, 8, 7, 7⟩ 2599 := by decide +kernel

/-- `tsHead` with its tile POISONED. -/
def tsPoisoned : State := (tsHead 0).setFrame (attic 0) { (tsHead 0).frame (attic 0) with state := .poisoned }
theorem witness_timestamp_others :
    (tsHead 4096).recordOut (cmdOf 1 (slotTs 4096)) 255 stRange 20 0 ∈ (after (.timestamp (.chan 3)) (tsHead 4096)).out ∧
    (head (slotTs 0)).recordOut (cmdOf 1 (slotTs 0)) 255 stRange 20 0 ∈ (after (.timestamp (.chan 3)) (head (slotTs 0))).out ∧
    tsPoisoned.recordOut (cmdOf 1 (slotTs 0)) 255 stPoisoned 5 0 ∈ (after (.timestamp (.chan 3)) tsPoisoned).out := by decide +kernel
/-- Fence 6 at 15 after the one signal of this cycle. -/
def signalled : State :=
  let s := (withCmds [{ cmdOf 1 (slotSig 6 0 5) with phase := .waiting 0 }]).setFence 6 ⟨15, 0⟩
  { s with gfe := { s.gfe with touched := [6] } }
theorem witness_signal_ends : signalled.pending = [] ∧ signalled.applied 6 = [{ cmdOf 1 (slotSig 6 0 5) with phase := .waiting 0 }] ∧
    signalled.clk.cyc + 1 < signalled.cutoff ∧ recordB signalled 3 = true ∧
    (match step signalled with | .next t => t.out | _ => []) = [signalled.recordOut (cmdOf 1 (slotSig 6 0 5)) 255 stOk 0 15] := by
  decide +kernel
/-- A `FENCE_WAIT` of fence 6 under generation 1. -/
def slotWaitG : List Byte := slotOf 0x09 0 0 0 [(16, 4, 4102), (24, 8, 1)]
/-- A `HOST_FENCE` of object 7 that does not wait. -/
def slotHfo : List Byte := slotOf 0x0A 0 0 0 [(16, 4, 7)]
theorem witness_wait_others : after (.fenceWait (.chan 3)) (waitHead 11 (.waiting 0)) = waitHead 11 (.waiting 0) ∧
    (head slotWaitG).recordOut (cmdOf 1 slotWaitG) 255 stRange 16 0 ∈ (after (.fenceWait (.chan 3)) (head slotWaitG)).out ∧
    after (.fenceTimeout (.chan 3)) base = base ∧
    (head slotHfo).recordOut (cmdOf 1 slotHfo) 255 stRange 16 0 ∈ (after (.hostFence (.chan 3)) (head slotHfo)).out ∧
    after (.hostFence (.chan 3)) (hfTiming 0) = hfTiming 0 := by decide +kernel

/-- The launch with its list's tile POISONED, and with the launch at a position. -/
def listPoisoned : State := (launched (nopSlot 3) 390).setFrame (attic 0) { FrameRec.init with state := .poisoned, obj := 20 }
def listAt (p : Nat) : State :=
  let s := launched (nopSlot 3) 390
  { s with gfe := { s.gfe with launches := [{ launch1 2 with nextPos := p }] } }
/-- What a launch that has stopped at a position reports. -/
def stopOut (s : State) (st pos : Nat) : Output := s.recordOut (cmdOf 1 (slotLl 2)) 255 st 20 pos
theorem witness_list_others : stopOut (listAt 64) stRange 64 ∈ (after (.listPositionFetch 1 none) (listAt 64)).out ∧
    stopOut listPoisoned stPoisoned 3 ∈ (after (.listPositionFetch 1 none) listPoisoned).out ∧
    stopOut (listAt 3) stPoisoned 3 ∈ (after (.listPositionFetch 1 (some (0, .w256))) (launched (nopSlot 3) 390)).out ∧
    after (.listPositionFetch 1 none) (launched (nopSlot 3) 389) = launched (nopSlot 3) 389 ∧
    stopOut (listAt 3) stSlotCheck 3 ∈ (after (.listPositionFetch 1 none) (launched (nopSlot 4) 390)).out := by decide +kernel
/-- A `PATCH_LIST` of position 3 by its own payload, which is no slot; from object 21, whose tile is POISONED. -/
def slotPl0 : List Byte := slotOf 0x11 16 0 0 [(16, 4, 20), (20, 2, 3), (23, 1, 1)]
def slotPl1 : List Byte := slotOf 0x11 0 0 0 [(16, 4, 20), (20, 2, 3), (22, 1, 1), (23, 1, 1), (24, 4, 21)]
def plPayload : State := withObj (withCmds [{ cmdOf 1 slotPl0 with payload := zeros 64 }]) 20 (objOf 0x01 [attic 0])
def plSource : State :=
  (withObj (withObj (head slotPl1) 20 (objOf 0x01 [attic 0])) 21 (objOf 0 [attic 1])).setFrame (attic 1)
    { FrameRec.init with state := .poisoned, obj := 21 }
theorem witness_patch_others : plPayload.patchBad { cmdOf 1 slotPl0 with payload := zeros 64 } = [] ∧
    plPayload.recordOut (cmdOf 1 slotPl0) 255 stSlotCheck 20 3 ∈ (after (.patchList (.chan 3)) plPayload).out ∧
    plSource.patchBad (cmdOf 1 slotPl1) = [] ∧
    plSource.recordOut (cmdOf 1 slotPl1) 255 stPoisoned 21 0 ∈ (after (.patchList (.chan 3)) plSource).out := by decide +kernel

/-- A creation whose tile waits for the cellar; a clone whose source is POISONED. -/
def fillBusy : State :=
  let s := creating (slotOc 1) (.filling 1) (objOf 0 [attic 0])
  { s with place := { s.place with fills := [⟨30, 0, 5, true, noOrder⟩] } }
def copyBad : State :=
  (creating slotCl (.copying 1 29) (objOf 0 [attic 0])).setFrame (attic 7) { FrameRec.init with state := .poisoned, obj := 29 }
/-- A module with 1,048,576 objects has no room; here the cellar is under inhibit. -/
def ocInhibit : State :=
  let slot := slotOf 0x18 0 0 0 [(16, 4, 30), (20, 2, 48), (32, 4, 2)]
  let s := head slot
  { s with sup := { s.sup with inhibit := true } }
theorem witness_creation_others : after (.zeroFillComplete 30) fillBusy = fillBusy ∧
    copyBad.recordOut { cmdOf 1 slotCl with phase := .waiting 0 } 255 stPoisoned 29 0 ∈ (after (.cloneCopyComplete 30 none) copyBad).out ∧
    (after (.cloneCopyComplete 30 none) copyBad).obj? 30 = none ∧
    (after (.cloneCopyComplete 30 (some (29, 0, .w256))) (creating slotCl (.copying 1 29) (objOf 0 [attic 0]))).obj? 30 = none ∧
    (after (.objCreate (.chan 3)) ocInhibit).gfe.cmds = [] ∧ (after (.objCreate (.chan 3)) ocInhibit).obj? 30 = none := by decide +kernel
/-- `clHead` with its source POISONED. -/
def clPoisoned : State := (clHead 30).setFrame (attic 7) { FrameRec.init with state := .poisoned, obj := 29 }
theorem witness_clone_others : clPoisoned.poisonedTile 29 = some 0 ∧
    clPoisoned.recordOut (cmdOf 1 slotCl) 255 stPoisoned 29 0 ∈ (after (.clone (.chan 3)) clPoisoned).out := by decide +kernel

/-- A fresh run whose operand is homed in the cellar. -/
def farRun : State := withObj (products (running slotGm run1)) 12 (objOf 0x05 [5])
theorem witness_far : (farRun.farTiles (farRun.productReads (farRun.product slotGm))) = [(12, 0)] ∧
    (after (.gemm 0) farRun).place.moves.map (fun m => (m.obj, m.src)) = [(12, 5)] ∧
    ((after (.gemm 0) farRun).clu 0).run = some run1 := by decide +kernel
theorem witness_table_hit : ((after (.gatherPool 0) ((tblRun slotGp 4).regPut .clu 0 0x1D0 (2 ^ 31))).cnt 0).tblMismatch = 1 ∧
    ((after (.gatherPool 0) ((tblRun slotGp 4).regPut .clu 0 0x1D0 (2 ^ 31))).clu 0).run = none := by decide +kernel
theorem witness_host_read_waits : after (.hostRead 0) { hrFresh with link := { hrFresh.link with cacheEn := false } } =
    { hrFresh with link := { hrFresh.link with cacheEn := false } } ∧
    after (.hostReadLineReturn 0 0x2000 .timeout) (hrLines 0) = hrLines 0 ∧
    after (.flushReadReturn 4 true) (flushing []) = flushing [] ∧ after .postedWriteDrain (flushing []) = flushing [] ∧
    ((after (.flushReadReturn 3 false) (flushing [])).cq 3).lostCount = 1 := by decide +kernel

/-- `freeHead` of a handle that names nothing; the `MOVE` to the cellar and the `CLONE` under inhibit. -/
def freeNone : State := head slotOfr
def inhibited (s : State) : State := { s with sup := { s.sup with inhibit := true } }
theorem witness_object_others : freeNone.recordOut (cmdOf 1 slotOfr) 255 stRange 16 0 ∈ (after (.objFree (.chan 3)) freeNone).out ∧
    (inhibited (moHead 3)).recordOut (cmdOf 1 (slotMo 3)) 255 stWriteInhibited ((inhibited (moHead 3)).vinMv) 0 ∈
      (after (.move (.chan 3)) (inhibited (moHead 3))).out ∧
    (moHead 5).moveBad (slotMo 5) ≠ [] ∧ (after (.move (.chan 3)) (moHead 5)).gfe.cmds = [] := by decide +kernel

/-- The gather at its head with its index tile POISONED, with an index beyond the table, and with its indices in the cellar. -/
def gpPoisoned : State := (tblHead slotGp).setFrame (attic 13) { FrameRec.init with state := .poisoned, obj := 43 }
def gpRange : State := (tblHead slotGp).writeBytes (frameData (attic 13)) [4, 0, 0, 0]
def gpFar : State := withObj (tblHead slotGp) 43 (objOf 0x0C [5])
theorem witness_resolve_others :
    gpPoisoned.recordOut (cmdOf 1 slotGp) 255 stPoisoned 43 0 ∈ (after (.resolutionBegin 1) gpPoisoned).out ∧
    (after (.resolutionBegin 1) gpRange).gfe.cmds = [] ∧ (after (.resolutionBegin 1) gpRange).out.length = 1 ∧
    (after (.resolutionBegin 1) gpFar).place.moves.map (fun m => (m.obj, m.src)) = [(43, 5)] ∧
    after (.resolutionBegin 2) (tblHead slotGp) = tblHead slotGp := by decide +kernel
/-- `foldState` with as many resolutions as there can be. -/
def foldFull : State :=
  let c : Cmd := { cmdOf 9 slotGp with phase := .resolving, res := some rows12 }
  { foldState with gfe := { foldState.gfe with cmds := List.replicate 64 c } }
theorem witness_fold_others : after (.fold 41) foldState = foldState ∧ after (.foldNow .host) base = base ∧
    ((after (.fold 40) foldFull).tableOf 40).map (fun x => x.2.2.folding) = some false := by decide +kernel

/-- The stream whose reads disagree in their scale sequences; its fill read again; its source freed. -/
def gotSkew : SrcTile := ⟨50, 0, zeros 4096, 9, scaleOne⟩
def strSkew : State :=
  let s := streaming .armed 1 [fill1 2 [gotSkew]] [⟨0, 2, some 0, 50, 1, attic 1, 0, 0⟩] 9000
  withObj s 50 { objOf 0x10 [attic 0, attic 1] with dataTiles := 1 }
def strFreed : State := (streaming .armed 1 [fill1 1 []] [] 0).setObj 50 { objOf 0x05 [attic 0, attic 1] with freed := true }
theorem witness_stream_others : ((after (.streamTransferIssue 0) strFreed).stream 0 2).fault.1 = 3 ∧
    after (.streamTransferIssue 1) (streaming .armed 1 [fill1 1 []] [] 0) = streaming .armed 1 [fill1 1 []] [] 0 ∧
    (after (.streamTransferComplete 0 none false) (streaming .armed 1 [fill1 2 [got0]] [⟨0, 2, some 0, 50, 1, attic 1, 0, 0⟩] 9)).xfers =
      [⟨0, 2, some 0, 50, 1, attic 1, 0, 0⟩] ∧
    ((after (.streamTransferComplete 0 none true) (streaming .armed 1 [fill1 2 [got0]] [⟨0, 2, some 0, 50, 1, attic 1, 0, 0⟩] 9000)).stream 0
      2).fills.map (fun f => (f.redone, f.issued)) = [(true, 0)] ∧
    ((after (.streamTransferComplete 0 none true) (streaming .armed 1 [{ fill1 2 [got0] with redone := true }]
      [⟨0, 2, some 0, 50, 1, attic 1, 0, 0⟩] 9000)).pslot 0).state = .suspect ∧
    ((after (.streamTransferComplete 0 none false) strSkew).stream 0 2).fault.1 = 2 ∧ after (.strCtrlDisarm .host 0) base = base := by
  decide +kernel

theorem witness_register_others : (base.statusReg 0x504) = none ∧ after (.statusClear .host 0x504 1) base = base ∧
    after (.statusSetInject .host offS 0) statused = statused ∧ after (.statusClear .host offS 1) statused = statused ∧
    (after (.gfeFenceReset .host 2) fenced).regGet .gfe 0 0x298 ≠ fenced.regGet .gfe 0 0x298 ∧
    (after (.gfeFenceAdd .host 0) fenced).fence 6 = ⟨10, 3⟩ ∧ after (.cxlAptValid .host true) off = off ∧
    (after (.cxlAptValid .host false) (aptSel true)).fld .cxl 2 0x04C 0 0 = 0 ∧
    (after (.registerWrite .host offT 0x2004 .dword) base).reg.pend.length = 1 := by decide +kernel
/-- A configuration update. -/
def updatingCfg : State := secIs (fun x => { x with upd := 1, updOp := 2, boot := some (bootIn false false none none) })
theorem witness_update_others : (after (.updateComplete (.doneCfg img1)) updatingCfg).sec.upd = 2 ∧
    (after (.updateComplete (.doneCfg imgLow)) updatingCfg).sec.upd = 3 ∧ (after (.updateComplete (.doneFw fw1)) updatingCfg).sec.upd = 3 ∧
    (after (.updateComplete .writeFailed) updating).sec.fwStored = some none ∧ after (.updateComplete .noSpace) base = base ∧
    after (.secReset .host 0xA5 true) warm = warm ∧ (after (.secRecBegin .host true) base).sec = base.sec ∧
    (after (.secRecEnd .host none) (secIs (fun x => { x with recovery := true }))).sec.recovery = true := by decide +kernel

/-- An address of the raw cellar, of its first frame. -/
def dpaCellar : Nat := frameData cellarBase
theorem witness_memory_others : apertureEnd ≤ dpaCellar ∧ dpaCellar < rawAttic ∧ (apt (attic 7) .home 1).rawExists cellarBase = true ∧
    (after (.memRd dpaCellar 2 none) (apt (attic 7) .home 1)).host.memWait = [⟨dpaCellar, 2, none⟩] ∧
    ((after (.memWr dpaCellar [1]) (apt (attic 7) .home 1)).regGet .cxl 0 0x004).testBit 6 = true ∧
    (after (.memRd holeStart 2 none) (apt (attic 7) .home 1)).out = [.memData [0, 0] false] ∧
    ((after (.memWr holeStart [1]) (apt (attic 7) .home 1)).regGet .cxl 0 0x004).testBit 5 = true ∧
    (after (.memRd 3 2 (some .w256)) (apt (attic 7) .home 1)).out = [.memData [0, 0] true] ∧
    (after (.memRd 3 2 none) (apt (attic 7) .poisoned 1)).out = [.memData [0, 0] true] ∧
    (after (.memRd (frameData (attic 7) + 3) 2 none) (apt (attic 7) .home 1)).out = [.memData [7, 8] false] ∧
    (after (.memRd 0x800000000 2 none) (apt (attic 7) .home 1)).out =
      [.memData (((apt (attic 7) .home 1).sideView (attic 7) 0).take 2) false] ∧
    ((after (.memRd 4099 2 none) (apt (attic 7) .home 1)).regGet .cxl 0 0x004).testBit 8 = true ∧
    aptView (aptOff 0x900000000) = none ∧ (after (.memRd 0x900000000 1 none) (apt (attic 7) .home 1)).out = [.memData [0] false] := by
  decide +kernel
theorem witness_link_others : after .perstAssert downLink = downLink ∧ after .dlDown downLink = downLink ∧ after .d0Return base = base ∧
    after (.linkL0Reached 16 32) base = base ∧ after (.linkRecoveryExit 16 32) base = base ∧ after .linkRecoveryEnter downLink = downLink ∧
    after (.laneMargining 16 false 0 0) base = base ∧ after (.laneMargining 0 true 16 0) base ≠ base ∧
    after .refclkLoss noClock = noClock := by decide +kernel

/-- The flow to module 5 whose NAK has left in this interval; the one that has failed. -/
def nakked : State := flow { peer3 [] with nakAt := some 0 }
theorem witness_flow_others : (after (.data 2 { frame5 with psn := 4 }) nakked).out = [] ∧ after (.data 3 frame5) base = base ∧
    after (.data 2 frame5) (failedFlow 0) = failedFlow 0 ∧ after (.nak 2 { frameK 2 [] with reset := true }) (failedFlow 0) = failedFlow 0 ∧
    (after (.data 2 { frame5 with crcOk := false }) (flow (peer3 []))).fab.drops.1 = 1 ∧ after (.ackDue 5 1) (flow (peer3 [])) = flow (peer3 []) ∧
    after (.ack 2 (frameK 1 [])) (flow Peer.init) = flow Peer.init := by decide +kernel
/-- Channel 6 with its quota of contexts used up; a gather and an update for which none is free. -/
def noCtx (ty : Nat) (p : List Byte) : State :=
  let s := (inboxed ty p).fldPut .gfe 6 0x218 14 0 1
  { s with gfe := { s.gfe with ctxs := [⟨0, 6, 0, false, false, none, 0⟩] } }
/-- The update command whose last acknowledgement this is. -/
def acking : State := awaited 5 [9, 0, 0, 0] (.acks stOk 0 0)
theorem witness_message_others : ((after (.request 5 1) (noCtx 0 (reqOf 6))).chan 6).ctxWait.map CtxWait.slot = some (nopSlot 0) ∧
    (after (.request 5 1) (noCtx 0 (reqOf 6))).fab.inbox = [] ∧ after (.gather 5 1) (noCtx 2 gatherP) = noCtx 2 gatherP ∧
    after (.update 5 1) (noCtx 4 updateP) = noCtx 4 updateP ∧ after (.gather 5 1) (inboxed 4 updateP) = inboxed 4 updateP ∧
    (after (.partials 5 1) (inboxed 3 (partP 0))).fab.inbox = [] ∧ (after (.updateAck 5 1) (inboxed 5 [9, 0, 0, 0])).fab.inbox = [] ∧
    (after (.updateAck 5 1) acking).gfe.cmds = [] ∧
    ((after (.refuse 5 1) (awaited 6 [1, 0, 0, 0, 9, 0, 0, 0] .resolving)).gfe.cmds.map Cmd.id) = [] := by decide +kernel

/-- A residency of a SUSPECT slot at its limit. -/
def suspectTest : State :=
  let s := base.setPslot 1 { base.pslot 1 with state := .suspect }
  { s with integ := { s.integ with test := some ⟨.suspect, 0, 1, 0, false, 0, true, 100⟩ }
           clk := { s.clk with tick := 64 } }
theorem witness_test_others : after .residencyAbandon (unitTest3 false 64 0) = unitTest3 false 64 0 ∧
    after (.residencyVerdict .pass) (unitTest3 true 0 39000000) = unitTest3 true 0 39000000 ∧ after .testDrainComplete base = base ∧
    after .testDrainTimeout (resident false 64) = resident false 64 ∧ after (.testDone .pass) (resident true 100) = resident true 100 ∧
    ((after .residencyAbandon suspectTest).pslot 1).state = .suspect ∧
    (after .residencyAbandon suspectTest).integ.wait.map (fun t => (t.kind, t.clu)) = [(.suspect, 1)] := by decide +kernel
theorem witness_log_others : after .faultLogRecordWrite base = base ∧ after .faultLogRecordWrite (inhibited logged) = inhibited logged ∧
    ((after (.intCluSuspect .host) (base.setPslot 0 { base.pslot 0 with state := .retired })).regGet .int 0 0x000).testBit 0 = true ∧
    after (.intLogSnap .host 0) off = off := by decide +kernel
theorem witness_boot_others : (after (.powerOn (bootIn false false none none)) booted).sec.step = 12 ∧ after .railsOff base = base ∧
    after .watchdogExpiry warm = warm ∧ after (.warmResetEnd (some fw1)) base = base ∧ after (.eraseComplete true) base = base ∧
    after (.getVersion .doe) off = off ∧ after (.getIdentity 9 []) off = off := by decide +kernel

/-! ## The bytes of memory -/

theorem witness_memory_frame : (after (.memWr 0x800000000 [1, 2, 3, 4]) (apt (attic 7) .home 1)).bytesAt (frameHdr (attic 7)) 8 =
      (apt (attic 7) .home 1).bytesAt (frameHdr (attic 7)) 2 ++ [3, 4] ++ (apt (attic 7) .home 1).bytesAt (frameHdr (attic 7) + 4) 4 ∧
    aptView (aptOff 0x800000000) = some (0, 0, true) ∧ (apt (attic 7) .poisoned 1).memOpen 3 = true ∧
    canonB (apt (attic 7) .poisoned 1) = true ∧
    ((after (.memWr 3 [9]) (apt (attic 7) .poisoned 1)).frame (attic 7)).state = .home := by decide +kernel
theorem witness_timestamp_frame : (tsHead 4080).allocShadow ((tsHead 4080).shadowTier 5 0) 5 0 0 ≠ none ∧
    ((ocFull.setObj 5 (objOf 0 [attic 0])).allocShadow (1, 0) 5 0 0).isSome = true ∧ base.host.memWait = [] ∧ canonB (tsHead 4080) = true := by
  decide +kernel
theorem witness_fill_frame : canonB (creating (slotOc 1) (.filling 1) (objOf 0 [attic 0])) = true := by decide +kernel

end Sys2Proof.Tests
end

/-! PROOFS. The tick number and the configuration image through the resets (02 R24; 16 R488): which parts of the state every
command may change, and, for the commands that may change the clock or the security block, that they leave the tick number and
the image all the same. -/

namespace Sys2Proof.Machine
open Sys2Proof

/-! ## Every command within its frame -/

/-- Each command's meaning stays within the parts that `mayChange` lists for it. -/
theorem exec_runsOnly (c : Instr) (s : State) : RunsOnly (mayChange c) s (exec c s) := by
  cases c with
  | tickEdge => exact execTickEdge_only (.refl _) (.refl s)
  | guardBandBegin => exact execGuardBandBegin_only (.refl _) (.refl s)
  | hostCommitCutoff => exact execHostCommitCutoff_only (.refl _) (.refl s)
  | ptpOffsetSample port m => exact execPtpOffsetSample_only (.refl _) (.refl s) port m
  | ptpAnnounce port domain m => exact execPtpAnnounce_only (.refl _) (.refl s) port domain m
  | ptpSampleTimeout => exact execPtpSampleTimeout_only (.refl _) (.refl s)
  | dispatchAdmit part => exact execDispatchAdmit_only (.refl _) (.refl s) part
  | commandStart clu => exact execCommandStart_only (.refl _) (.refl s) clu
  | commandFlip clu => exact execCommandFlip_only (.refl _) (.refl s) clu
  | commitPhaseBegin clu => exact execCommitPhaseBegin_only (.refl _) (.refl s) clu
  | flushReadReturn chan ok => exact execFlushReadReturn_only (.refl _) (.refl s) chan ok
  | arrayBlockCompare clu glitch => exact execArrayBlockCompare_only (.refl _) (.refl s) clu glitch
  | skinkGroupCompare clu glitch => exact execSkinkGroupCompare_only (.refl _) (.refl s) clu glitch
  | summaryCompare clu glitch => exact execSummaryCompare_only (.refl _) (.refl s) clu glitch
  | runFindsCondition clu found => exact execRunFindsCondition_only (.refl _) (.refl s) clu found
  | repeatPairCompare cmd => exact execRepeatPairCompare_only (.refl _) (.refl s) cmd
  | faultCountAge slot => exact execFaultCountAge_only (.refl _) (.refl s) slot
  | create a gen => exact execCreate_only (.refl _) (.refl s) a gen
  | activate a gen => exact execActivate_only (.refl _) (.refl s) a gen
  | pause a gen => exact execPause_only (.refl _) (.refl s) a gen
  | resume a gen => exact execResume_only (.refl _) (.refl s) a gen
  | destroy a gen => exact execDestroy_only (.refl _) (.refl s) a gen
  | reattach a gen => exact execReattach_only (.refl _) (.refl s) a gen
  | doorbell chan tail => exact execDoorbell_only (.refl _) (.refl s) chan tail
  | ringReadReturn chan slot ext => exact execRingReadReturn_only (.refl _) (.refl s) chan slot ext
  | ringRereadIssue chan => exact execRingRereadIssue_only (.refl _) (.refl s) chan
  | doorbellStale chan => exact execDoorbellStale_only (.refl _) (.refl s) chan
  | cqHead chan count => exact execCqHead_only (.refl _) (.refl s) chan count
  | nop n => exact execNop_only (.refl _) (.refl s) n
  | timestamp n => exact execTimestamp_only (.refl _) (.refl s) n
  | testOnDemand n => exact execTestOnDemand_only (.refl _) (.refl s) n
  | testDrainComplete => exact execTestDrainComplete_only (.refl _) (.refl s)
  | testDrainTimeout => exact execTestDrainTimeout_only (.refl _) (.refl s)
  | testDone verdict => exact execTestDone_only (.refl _) (.refl s) verdict
  | fenceSignal n => exact execFenceSignal_only (.refl _) (.refl s) n
  | fenceWait n => exact execFenceWait_only (.refl _) (.refl s) n
  | fenceTimeout n => exact execFenceTimeout_only (.refl _) (.refl s) n
  | hostFence n => exact execHostFence_only (.refl _) (.refl s) n
  | launchList n => exact execLaunchList_only (.refl _) (.refl s) n
  | listPositionFetch launch bad => exact execListPositionFetch_only (.refl _) (.refl s) launch bad
  | listSlotIssue launch => exact execListSlotIssue_only (.refl _) (.refl s) launch
  | patchList n => exact execPatchList_only (.refl _) (.refl s) n
  | objCreate n => exact execObjCreate_only (.refl _) (.refl s) n
  | objFree n => exact execObjFree_only (.refl _) (.refl s) n
  | move n => exact execMove_only (.refl _) (.refl s) n
  | clone n => exact execClone_only (.refl _) (.refl s) n
  | gemm clu => exact execGemm_only (.refl _) (.refl s) clu
  | matvec clu => exact execMatvec_only (.refl _) (.refl s) clu
  | vchain clu => exact execVchain_only (.refl _) (.refl s) clu
  | gatherPool clu => exact execGatherPool_only (.refl _) (.refl s) clu
  | scatterUpdate clu => exact execScatterUpdate_only (.refl _) (.refl s) clu
  | streamArm clu => exact execStreamArm_only (.refl _) (.refl s) clu
  | streamRearm clu => exact execStreamRearm_only (.refl _) (.refl s) clu
  | hostWrite clu => exact execHostWrite_only (.refl _) (.refl s) clu
  | hostRead clu => exact execHostRead_only (.refl _) (.refl s) clu
  | hostReadLineReturn clu addr line => exact execHostReadLineReturn_only (.refl _) (.refl s) clu addr line
  | scaleSet n => exact execScaleSet_only (.refl _) (.refl s) n
  | resolutionBegin cmd => exact execResolutionBegin_only (.refl _) (.refl s) cmd
  | remoteGatherTimeout cmd => exact execRemoteGatherTimeout_only (.refl _) (.refl s) cmd
  | fold table => exact execFold_only (.refl _) (.refl s) table
  | cellarReadLand h tile bad => exact execCellarReadLand_only (.refl _) (.refl s) h tile bad
  | cellarProgramComplete h tile => exact execCellarProgramComplete_only (.refl _) (.refl s) h tile
  | tileMoveCommit h tile bad => exact execTileMoveCommit_only (.refl _) (.refl s) h tile bad
  | heatScan => exact execHeatScan_only (.refl _) (.refl s)
  | scrubRead frame errs again => exact execScrubRead_only (.refl _) (.refl s) frame errs again
  | atticRefresh pc => exact execAtticRefresh_only (.refl _) (.refl s) pc
  | stackTempReport stack quarters => exact execStackTempReport_only (.refl _) (.refl s) stack quarters
  | stackTempTimeout stack => exact execStackTempTimeout_only (.refl _) (.refl s) stack
  | memTgtServe a serve => exact execMemTgtServe_only (.refl _) (.refl s) a serve
  | marginStart a => exact execMarginStart_only (.refl _) (.refl s) a
  | marginDone errors => exact execMarginDone_only (.refl _) (.refl s) errors
  | streamTransferIssue clu => exact execStreamTransferIssue_only (.refl _) (.refl s) clu
  | streamTransferComplete clu bad prod => exact execStreamTransferComplete_only (.refl _) (.refl s) clu bad prod
  | strCtrlDisarm a clu => exact execStrCtrlDisarm_only (.refl _) (.refl s) a clu
  | gfeFenceReset a gen => exact execGfeFenceReset_only (.refl _) (.refl s) a gen
  | gfeFenceAdd a add => exact execGfeFenceAdd_only (.refl _) (.refl s) a add
  | acctSnap a chan compat => exact execAcctSnap_only (.refl _) (.refl s) a chan compat
  | gfeScaleClearHist a => exact execGfeScaleClearHist_only (.refl _) (.refl s) a
  | foldNow a => exact execFoldNow_only (.refl _) (.refl s) a
  | cxlAptValid a valid => exact execCxlAptValid_only (.refl _) (.refl s) a valid
  | intCluRetire a => exact execIntCluRetire_only (.refl _) (.refl s) a
  | intCluSuspect a => exact execIntCluSuspect_only (.refl _) (.refl s) a
  | intLogSnap a index => exact execIntLogSnap_only (.refl _) (.refl s) a index
  | secUpdFirmware a => exact execSecUpdFirmware_only (.refl _) (.refl s) a
  | secUpdConfig a => exact execSecUpdConfig_only (.refl _) (.refl s) a
  | updateComplete r => exact execUpdateComplete_only (.refl _) (.refl s) r
  | secReset a key warm => exact execSecReset_only (.refl _) (.refl s) a key warm
  | secRecBegin a config => exact execSecRecBegin_only (.refl _) (.refl s) a config
  | secRecData a word => exact execSecRecData_only (.refl _) (.refl s) a word
  | secRecEnd a fw => exact execSecRecEnd_only (.refl _) (.refl s) a fw
  | statusClear a off data => exact execStatusClear_only (.refl _) (.refl s) a off data
  | statusSetInject a off data => exact execStatusSetInject_only (.refl _) (.refl s) a off data
  | statusToggle a off data => exact execStatusToggle_only (.refl _) (.refl s) a off data
  | registerWrite a off data size => exact execRegisterWrite_only (.refl _) (.refl s) a off data size
  | memRd dpa len bad => exact execMemRd_only (.refl _) (.refl s) dpa len bad
  | memWr dpa bytes => exact execMemWr_only (.refl _) (.refl s) dpa bytes
  | memInv dpa => exact execMemInv_only (.refl _) (.refl s) dpa
  | memSpecRd dpa => exact execMemSpecRd_only (.refl _) (.refl s) dpa
  | snoop addr => exact execSnoop_only (.refl _) (.refl s) addr
  | dvsecCacheEnable on => exact execDvsecCacheEnable_only (.refl _) (.refl s) on
  | perstAssert => exact execPerstAssert_only (.refl _) (.refl s)
  | perstDeassert => exact execPerstDeassert_only (.refl _) (.refl s)
  | linkL0Reached width gts => exact execLinkL0Reached_only (.refl _) (.refl s) width gts
  | linkRecoveryEnter => exact execLinkRecoveryEnter_only (.refl _) (.refl s)
  | linkRecoveryExit width gts => exact execLinkRecoveryExit_only (.refl _) (.refl s) width gts
  | dlDown => exact execDlDown_only (.refl _) (.refl s)
  | hotReset => exact execHotReset_only (.refl _) (.refl s)
  | flr => exact execFlr_only (.refl _) (.refl s)
  | d3hotEntry => exact execD3hotEntry_only (.refl _) (.refl s)
  | d0Return => exact execD0Return_only (.refl _) (.refl s)
  | orphanTimeout chan => exact execOrphanTimeout_only (.refl _) (.refl s) chan
  | refclkLoss => exact execRefclkLoss_only (.refl _) (.refl s)
  | clk10mQualified => exact execClk10mQualified_only (.refl _) (.refl s)
  | clk10mLoss => exact execClk10mLoss_only (.refl _) (.refl s)
  | portEnable port => exact execPortEnable_only (.refl _) (.refl s) port
  | portDisable port => exact execPortDisable_only (.refl _) (.refl s) port
  | portTrainingComplete port => exact execPortTrainingComplete_only (.refl _) (.refl s) port
  | portTrainingTimeout port => exact execPortTrainingTimeout_only (.refl _) (.refl s) port
  | portFault port => exact execPortFault_only (.refl _) (.refl s) port
  | holddownExpiry port => exact execHolddownExpiry_only (.refl _) (.refl s) port
  | discoverSend port => exact execDiscoverSend_only (.refl _) (.refl s) port
  | discover port f => exact execDiscover_only (.refl _) (.refl s) port f
  | discoverReply port mac f => exact execDiscoverReply_only (.refl _) (.refl s) port mac f
  | routePlaneExpiry dst plane => exact execRoutePlaneExpiry_only (.refl _) (.refl s) dst plane
  | data port f => exact execData_only (.refl _) (.refl s) port f
  | ack port f => exact execAck_only (.refl _) (.refl s) port f
  | nak port f => exact execNak_only (.refl _) (.refl s) port f
  | ackDue peer vl => exact execAckDue_only (.refl _) (.refl s) peer vl
  | retxTimerExpiry peer vl => exact execRetxTimerExpiry_only (.refl _) (.refl s) peer vl
  | peerFailedExpiry peer => exact execPeerFailedExpiry_only (.refl _) (.refl s) peer
  | reassemblyTimeout peer vl msgId => exact execReassemblyTimeout_only (.refl _) (.refl s) peer vl msgId
  | request peer vl => exact execRequest_only (.refl _) (.refl s) peer vl
  | response peer vl => exact execResponse_only (.refl _) (.refl s) peer vl
  | gather peer vl => exact execGather_only (.refl _) (.refl s) peer vl
  | partials peer vl => exact execPartials_only (.refl _) (.refl s) peer vl
  | update peer vl => exact execUpdate_only (.refl _) (.refl s) peer vl
  | updateAck peer vl => exact execUpdateAck_only (.refl _) (.refl s) peer vl
  | refuse peer vl => exact execRefuse_only (.refl _) (.refl s) peer vl
  | residencyStart => exact execResidencyStart_only (.refl _) (.refl s)
  | residencyAbandon => exact execResidencyAbandon_only (.refl _) (.refl s)
  | residencyVerdict verdict => exact execResidencyVerdict_only (.refl _) (.refl s) verdict
  | faultLogRecordWrite => exact execFaultLogRecordWrite_only (.refl _) (.refl s)
  | inputMeterSample mv tenMa => exact execInputMeterSample_only (.refl _) (.refl s) mv tenMa
  | meterTimeout tenMs => exact execMeterTimeout_only (.refl _) (.refl s) tenMs
  | tempSensorSample sensor quarters => exact execTempSensorSample_only (.refl _) (.refl s) sensor quarters
  | tempSensorTimeout sensor => exact execTempSensorTimeout_only (.refl _) (.refl s) sensor
  | voltageMonitorSample monitor mv => exact execVoltageMonitorSample_only (.refl _) (.refl s) monitor mv
  | voltageMonitorTimeout monitor => exact execVoltageMonitorTimeout_only (.refl _) (.refl s) monitor
  | processMonitorSample slot count => exact execProcessMonitorSample_only (.refl _) (.refl s) slot count
  | processMonitorTimeout slot => exact execProcessMonitorTimeout_only (.refl _) (.refl s) slot
  | railsOff => exact execRailsOff_only (.refl _) (.refl s)
  | powerOn b => exact execPowerOn_only (.refl _) (.refl s) b
  | watchdogExpiry => exact execWatchdogExpiry_only (.refl _) (.refl s)
  | warmResetEnd fw => exact execWarmResetEnd_only (.refl _) (.refl s) fw
  | dynamicAddressAssign addr => exact execDynamicAddressAssign_only (.refl _) (.refl s) addr
  | i3cBusReset => exact execI3cBusReset_only (.refl _) (.refl s)
  | mctpMessageTimeout => exact execMctpMessageTimeout_only (.refl _) (.refl s)
  | setEndpointId eid => exact execSetEndpointId_only (.refl _) (.refl s) eid
  | getEndpointId => exact execGetEndpointId_only (.refl _) (.refl s)
  | getMctpVersionSupport msgType => exact execGetMctpVersionSupport_only (.refl _) (.refl s) msgType
  | getMessageTypeSupport => exact execGetMessageTypeSupport_only (.refl _) (.refl s)
  | getEndpointUuid => exact execGetEndpointUuid_only (.refl _) (.refl s)
  | getVersion path => exact execGetVersion_only (.refl _) (.refl s) path
  | getCapabilities path => exact execGetCapabilities_only (.refl _) (.refl s) path
  | negotiateAlgorithms path p256 sha256 => exact execNegotiateAlgorithms_only (.refl _) (.refl s) path p256 sha256
  | getDigests path => exact execGetDigests_only (.refl _) (.refl s) path
  | getCertificate path slot offset length => exact execGetCertificate_only (.refl _) (.refl s) path slot offset length
  | challenge path slot nonce => exact execChallenge_only (.refl _) (.refl s) path slot nonce
  | getMeasurements path index sign nonce => exact execGetMeasurements_only (.refl _) (.refl s) path index sign nonce
  | getIdentity inst req => exact execGetIdentity_only (.refl _) (.refl s) inst req
  | getStatus inst req => exact execGetStatus_only (.refl _) (.refl s) inst req
  | readSensor inst req => exact execReadSensor_only (.refl _) (.refl s) inst req
  | readReg inst req => exact execReadReg_only (.refl _) (.refl s) inst req
  | writeReg inst req => exact execWriteReg_only (.refl _) (.refl s) inst req
  | readLog inst req => exact execReadLog_only (.refl _) (.refl s) inst req
  | readRetire inst req => exact execReadRetire_only (.refl _) (.refl s) inst req
  | eraseRetire inst req => exact execEraseRetire_only (.refl _) (.refl s) inst req
  | eraseComplete ok => exact execEraseComplete_only (.refl _) (.refl s) ok
  | warmReset inst req => exact execWarmReset_only (.refl _) (.refl s) inst req
  | announceReceiptTimeout => exact execAnnounceReceiptTimeout_only (.refl _) (.refl s)
  | delayReqSend port => exact execDelayReqSend_only (.refl _) (.refl s) port
  | completionTimeout read => exact execCompletionTimeout_only (.refl _) (.refl s) read
  | refclkRestored => exact execRefclkRestored_only (.refl _) (.refl s)
  | memEnable on decoder => exact execMemEnable_only (.refl _) (.refl s) on decoder
  | vectorUnmask what => exact execVectorUnmask_only (.refl _) (.refl s) what
  | zeroFillComplete h => exact execZeroFillComplete_only (.refl _) (.refl s) h
  | cloneCopyComplete h bad => exact execCloneCopyComplete_only (.refl _) (.refl s) h bad
  | postedWriteDrain => exact execPostedWriteDrain_only (.refl _) (.refl s)
  | loRead a off => exact execLoRead_only (.refl _) (.refl s) a off
  | laneMargining lane timing step errors => exact execLaneMargining_only (.refl _) (.refl s) lane timing step errors
  | frameDiscard port => exact execFrameDiscard_only (.refl _) (.refl s) port

/-! ## What an answer leaves -/

/-- The running configuration image (16 R488). -/
def State.image (s : State) : Option CfgImage := s.sec.cfg

/-- The number of the running tick (02 R24). -/
def State.tickNumber (s : State) : W64 := s.clk.tick

/-- An answer of a next state leaves what `f` reads as it is in `s`. -/
def Leaves {α : Type} (f : State → α) (s : State) (o : Host.Outcome State Fault Refusal) : Prop := ∀ t, o = .next t → f t = f s

theorem leaves_done {α : Type} {f : State → α} {s u : State} (h : f u.endStep = f s) : Leaves f s (done u) := fun t e => by
  rw [done_inj e, h]

theorem Leaves.after {α : Type} {f : State → α} {s : State} {o : Host.Outcome State Fault Refusal} (h : Leaves f s o) :
    f (after o s) = f s := by
  cases o with
  | next t => exact h t rfl
  | fault _ => rfl
  | refused _ => rfl

theorem RunsOnly.leaves {α : Type} {f : State → α} {k : List Part} {s : State} {o : Host.Outcome State Fault Refusal}
    (h : RunsOnly k s o) (hf : ∀ t, OnlyChanges k s t → f t = f s) : Leaves f s o := by
  obtain ⟨t, rfl, ht⟩ := h
  rintro _ ⟨⟩
  exact hf t ht

/-- What holds of a reading in both branches of a choice holds of the choice. -/
theorem ite_reads {α : Type} {f : State → α} {c : Prop} [Decidable c] {a b : State} {v : α} (ha : f a = v) (hb : f b = v) :
    f (if c then a else b) = v := by
  split <;> assumption

theorem leavesImage_done {s u : State} (h : u.image = s.image) : Leaves State.image s (done u) := leaves_done h

theorem leavesTick_done {s u : State} (h : u.tickNumber = s.tickNumber) : Leaves State.tickNumber s (done u) := leaves_done h

theorem OnlyChanges.image {k : List Part} {s t : State} (h : OnlyChanges k s t) (hk : k.contains .sec = false) :
    t.image = s.image := congrArg Sec.cfg (h.use .sec hk)

theorem RunsOnly.leavesImage {k : List Part} {s : State} {o : Host.Outcome State Fault Refusal} (h : RunsOnly k s o)
    (hk : k.contains .sec = false) : Leaves State.image s o := h.leaves fun _ ht => ht.image hk

theorem RunsOnly.leavesTick {k : List Part} {s : State} {o : Host.Outcome State Fault Refusal} (h : RunsOnly k s o)
    (hk : k.contains .clk = false) : Leaves State.tickNumber s o := h.leaves fun _ ht => congrArg Clock.tick (ht.use .clk hk)

/-! ## The tick number -/

theorem nextCycle_tickNumber (s : State) : s.nextCycle.tickNumber = s.tickNumber := (nextCycle_clk s).1

theorem runCutoff_tickNumber (s : State) : s.runCutoff.tickNumber = s.tickNumber := by
  unfold State.tickNumber
  rw [runCutoff_clk]
  split <;> rfl

theorem dispatchAdmit_leavesTick (p : Nat) (s : State) : Leaves State.tickNumber s (execDispatchAdmit p s) := by
  have dispatched (u : State) : (u.dispatch p).tickNumber = u.tickNumber := congrArg Clock.tick (dispatch_clk u p)
  refine leavesTick_done (ite_reads rfl (ite_reads (dispatched s) (ite_reads ?_ rfl)))
  exact (dispatched s.nextCycle).trans (nextCycle_tickNumber s)

theorem streamTransferIssue_leavesTick (n : Nat) (s : State) : Leaves State.tickNumber s (execStreamTransferIssue n s) := by
  have issued (u : State) : (u.streamIssue n).tickNumber = u.tickNumber :=
    congrArg Clock.tick ((State.streamIssue_only (.refl _) (.refl u) n).use .clk rfl)
  refine leavesTick_done (ite_reads (issued s) (ite_reads ?_ rfl))
  exact (issued s.nextCycle).trans (nextCycle_tickNumber s)

/-- No command changes the tick number but an edge, the rails going off, and power-on. -/
theorem exec_leavesTick {c : Instr} (s : State) (hedge : c ≠ .tickEdge) (hoff : c ≠ .railsOff) (hon : ∀ b, c ≠ .powerOn b) :
    Leaves State.tickNumber s (exec c s) := by
  cases c with
  | tickEdge => exact absurd rfl hedge
  | railsOff => exact absurd rfl hoff
  | powerOn b => exact absurd rfl (hon b)
  | guardBandBegin => exact leavesTick_done (ite_reads rfl (runGuard_tick s))
  | hostCommitCutoff => exact leavesTick_done (ite_reads rfl (runCutoff_tickNumber s))
  | dispatchAdmit p => exact dispatchAdmit_leavesTick p s
  | streamTransferIssue n => exact streamTransferIssue_leavesTick n s
  | _ => exact (exec_runsOnly _ s).leavesTick rfl

/-- A power-on whose rails come up begins at tick 0. -/
theorem powerOn_tick_zero {s : State} {b : BootInputs} (hs : s.on = false) (hb : b.railsFail = false) :
    ∃ t, exec (.powerOn b) s = .next t ∧ t.clk.tick = 0 := by
  refine ⟨_, rfl, ?_⟩
  have boots (u : State) (h : u.clk = (s.powered b).clk) : u.clk.tick = 0 := by rw [h]; rfl
  change (ite .. : State).clk.tick = 0
  rw [if_neg (by simp [hs]), if_neg (by simp [hb])]
  split
  · exact boots _ ((State.enterRecovery_only (.refl _) (.refl _) 1 2).use .clk rfl)
  · exact boots _ ((State.boot4_only (.refl _) (.refl _) b).use .clk rfl)

theorem runGuard_stage (s : State) : s.runGuard.clk.stage = .guard := by
  unfold State.runGuard
  extract_lets t
  split
  next =>
    obtain ⟨k, hk⟩ := guardWork_clk (t.toCycle t.G)
    rw [hk]
  next hcut =>
    have ht : t.clk = _ := runCutoff_clk s
    rw [ht] at hcut ⊢
    split at hcut
    next => exact absurd rfl hcut
    next hearly =>
      rw [if_neg hearly]
      cases hst : s.clk.stage with
      | early => exact absurd hst hearly
      | cut => exact absurd hst hcut
      | guard => rfl

theorem edgeWork_tick {s : State} (h : s.staged.isSome = true) : s.edgeWork.clk.tick = s.clk.tick + 1 := by
  obtain ⟨x, hx⟩ := Option.isSome_iff_exists.mp h
  obtain ⟨p, hp⟩ := (nextTick_clk_staged s x).1
  rw [(edgeWork_clk_staged s x hx).1, hp]

/-- The guard band has staged the boundary work when the edge comes, so the edge takes the clock to the next tick. -/
theorem runEdge_tick {s : State} (h : s.GuardStaged) : s.runEdge.clk.tick = s.clk.tick + 1 := by
  unfold State.runEdge
  extract_lets t
  obtain ⟨k, hk⟩ := tryRealign_clk s.runGuard
  have hclk : t.clk = { s.runGuard.clk with len := k } := hk
  have hstaged : t.staged.isSome = true :=
    (tryRealign_guardStaged _ (runGuard_guardStaged s h)).mp (by rw [hk]; exact runGuard_stage s)
  rw [edgeWork_tick (by rw [toCycle_staged]; exact hstaged), toCycle_clk, hclk]
  exact congrArg (· + 1) (runGuard_tick s)

/-! ## The image in the operations of the security block -/

theorem raise_image (s : State) (w : Win) (i o b : Nat) : (s.raise w i o b).image = s.image :=
  (State.raise_only (.refl _) (.refl s) w i o b).image rfl

theorem secIgnored_image (s : State) : s.secIgnored.image = s.image :=
  (State.secIgnored_only (.refl _) (.refl s)).image rfl

theorem enterRecovery_image (s : State) (cause step : Nat) : (s.enterRecovery cause step).image = s.image :=
  (congrArg Sec.cfg (enterRecovery_parts s cause step).1).trans rfl

theorem controlledStop_image (s : State) : s.controlledStop.image = s.image :=
  (State.controlledStop_only (.refl _) (.refl s)).image rfl

theorem warmStart_image (s : State) : s.warmStart.image = s.image := ite_reads rfl rfl

theorem endUpdate_image (s : State) (code : Nat) : (s.endUpdate code).image = s.image := by
  by_cases h : s.sec.upd = 1
  · exact (congrArg Sec.cfg (endUpdate_sec s code h)).trans rfl
  · rw [State.endUpdate, if_pos h]

theorem startUpdate_image (s : State) (op : Nat) : (s.startUpdate op).image = s.image := by
  refine ite_reads (secIgnored_image s) ?_
  extract_lets +onlyGivenNames sec s1
  split
  next => exact endUpdate_image s1 7
  next fs _ =>
    have reserved := congrArg Sec.cfg (takeShadow_foldl fs s1).1
    exact ite_reads ((endUpdate_image _ 5).trans reserved) reserved

theorem losePartition_image (s : State) : s.losePartition.image = s.image := ite_reads rfl rfl

theorem judgeUpdate_image (s : State) (r : UpdateResult) : (s.judgeUpdate r).image = s.image := by
  cases r with
  | doneFw f => exact ite_reads (endUpdate_image s 3) (ite_reads (endUpdate_image _ 2) (endUpdate_image s 4))
  | doneCfg b => exact ite_reads (endUpdate_image _ 2) (endUpdate_image s 3)
  | badSignature => exact endUpdate_image s 3
  | rollback => exact endUpdate_image s 4
  | inhibited => exact endUpdate_image s 5
  | writeFailed => exact (endUpdate_image _ 6).trans (losePartition_image s)
  | noSpace => exact endUpdate_image s 7

theorem inhibitStep_image (s : State) : s.inhibitStep.image = s.image := by
  refine ite_reads ((endUpdate_image _ 5).trans (raise_image _ .pwr 0 0x000 1)) (ite_reads ?_ rfl)
  exact ((State.tidy_only (.refl _) (.refl _)).image rfl).trans ((State.supplyRelease_only (.refl _) (.refl _) 1).image rfl)

theorem supplyStep_image (s : State) : s.supplyStep.image = s.image := by
  unfold State.supplyStep
  extract_lets +onlyGivenNames s1 v sup s2
  have h2 : s2.image = s.image := (ite_reads rfl (ite_reads rfl rfl) : s2.image = s1.image).trans (inhibitStep_image s)
  exact ite_reads ((controlledStop_image s2).trans h2) h2

theorem sbServe_image {s : State} {cmd : Nat} {inst : Byte} {req : List Byte} {len : Nat} {f : State → State}
    (h : (f s).image = s.image) : (s.sbServe cmd inst req len f).image = s.image :=
  ite_reads rfl (ite_reads rfl (ite_reads rfl h))

/-! ## The image in the commands of the security block and of the supply -/

theorem secUpdFirmware_leavesImage (a : Acc) (s : State) : Leaves State.image s (execSecUpdFirmware a s) :=
  leavesImage_done (ite_reads rfl (startUpdate_image s 1))

theorem secUpdConfig_leavesImage (a : Acc) (s : State) : Leaves State.image s (execSecUpdConfig a s) :=
  leavesImage_done (ite_reads rfl (startUpdate_image s 2))

theorem updateComplete_leavesImage (r : UpdateResult) (s : State) : Leaves State.image s (execUpdateComplete r s) :=
  leavesImage_done (ite_reads rfl (judgeUpdate_image s r))

theorem secReset_leavesImage (a : Acc) (key : BitVec 8) (warm : Bool) (s : State) :
    Leaves State.image s (execSecReset a key warm s) :=
  leavesImage_done (ite_reads rfl (ite_reads (warmStart_image s) (secIgnored_image s)))

theorem watchdogExpiry_leavesImage (s : State) : Leaves State.image s (execWatchdogExpiry s) :=
  leavesImage_done (ite_reads rfl ((warmStart_image _).trans (raise_image s .sec 0 0x000 5)))

theorem warmReset_leavesImage (inst : Byte) (req : List Byte) (s : State) : Leaves State.image s (execWarmReset inst req s) :=
  leavesImage_done (sbServe_image (ite_reads rfl (ite_reads rfl (warmStart_image s))))

theorem warmResetEnd_leavesImage (fw : Option FwImage) (s : State) : Leaves State.image s (execWarmResetEnd fw s) := by
  refine leavesImage_done (ite_reads rfl ?_)
  split
  next => exact enterRecovery_image s 3 12
  next => exact ite_reads ((congrArg Sec.cfg ((event_sec _ 204).trans (resume_sec _))).trans rfl) (enterRecovery_image s 3 12)

theorem secRecBegin_leavesImage (a : Acc) (config : Bool) (s : State) : Leaves State.image s (execSecRecBegin a config s) :=
  leavesImage_done (ite_reads rfl (ite_reads (secIgnored_image s) rfl))

theorem secRecData_leavesImage (a : Acc) (word : BitVec 32) (s : State) : Leaves State.image s (execSecRecData a word s) :=
  leavesImage_done (ite_reads rfl (ite_reads (secIgnored_image s) rfl))

/-- Outside recovery the end of a load is ignored (16 R489). -/
theorem secRecEnd_leavesImage (a : Acc) (fw : Option FwImage) {s : State} (h : s.sec.recovery = false) :
    Leaves State.image s (execSecRecEnd a fw s) := by
  refine leavesImage_done (ite_reads rfl ?_)
  rw [if_pos (by simp [h])]
  exact secIgnored_image s

theorem inputMeterSample_leavesImage (mv tenMa : Int) (s : State) : Leaves State.image s (execInputMeterSample mv tenMa s) :=
  leavesImage_done (ite_reads rfl (ite_reads (raise_image s .mon 0 0x000 4) (supplyStep_image _)))

theorem meterTimeout_leavesImage (tenMs : Bool) (s : State) : Leaves State.image s (execMeterTimeout tenMs s) := by
  refine leavesImage_done (ite_reads rfl ?_)
  extract_lets +onlyGivenNames sup s1 s2
  have h1 : s1.image = s.image := ite_reads rfl ((raise_image _ .mon 0 0x000 4).trans (raise_image _ .pwr 0 0x000 4))
  have h2 : s2.image = s.image := (supplyStep_image s1).trans h1
  exact ite_reads ((controlledStop_image s2).trans h2) h2

/-! ## The image in register writes -/

/-- The operations of the security block that a write can start leave the image; the frame of every other one is without that
block. -/
theorem startOps_image (s : State) (a : Acc) (l : RegLoc) (data : Nat) : (s.startOps a l data).image = s.image := by
  unfold State.startOps
  extract_lets lo
  split
  · exact (State.chanCmd_only (.refl _) (.refl s) _ _ _).image rfl
  · exact ite_reads ((execGfeFenceReset_only (.refl _) (.refl s) _ _).leavesImage rfl).after rfl
  · exact ((execGfeFenceAdd_only (.refl _) (.refl s) _ _).leavesImage rfl).after
  · exact ite_reads ((State.snapAcct_only (.refl _) (.refl s) _ _ _).image rfl) rfl
  · exact ite_reads ((execGfeScaleClearHist_only (.refl _) (.refl s) _).leavesImage rfl).after rfl
  · exact ite_reads ((execFoldNow_only (.refl _) (.refl s) _).leavesImage rfl).after rfl
  · exact ite_reads ((State.startMargin_only (.refl _) (.refl s) _).image rfl) rfl
  · split
    · exact ((execIntCluRetire_only (.refl _) (.refl s) _).leavesImage rfl).after
    · exact ((execIntCluSuspect_only (.refl _) (.refl s) _).leavesImage rfl).after
    · exact (State.ignored_only (.refl _) (.refl s) _ _ _).image rfl
  · exact ite_reads ((execIntLogSnap_only (.refl _) (.refl s) _ _).leavesImage rfl).after rfl
  · split
    · exact (secUpdFirmware_leavesImage a s).after
    · exact (secUpdConfig_leavesImage a s).after
    · exact secIgnored_image s
  · exact (secReset_leavesImage a _ _ s).after
  · exact ite_reads (secRecBegin_leavesImage a _ s).after rfl
  · exact (secRecData_leavesImage a _ s).after
  · exact ite_reads ((execStrCtrlDisarm_only (.refl _) (.refl s) _ _).leavesImage rfl).after rfl
  · rfl

theorem noteIgnored_image (s : State) (a : Acc) (l : RegLoc) (r : RDef) : (s.noteIgnored a l r).image = s.image :=
  (State.noteIgnored_only (.refl _) (.refl s) a l r).image rfl

theorem writeFields_image (s : State) (a : Acc) (l : RegLoc) (r : RDef) (data : Nat) :
    (s.writeFields a l r data).image = s.image := by
  unfold State.writeFields
  extract_lets +onlyGivenNames item plan0 kind plan p
  refine ite_reads (noteIgnored_image s a l r) ?_
  extract_lets +onlyGivenNames s1 s2 s3
  have h1 : s1.image = s.image := (State.applyPlan_only (.refl _) (.refl s) _ _ _ _).image rfl
  have h2 : s2.image = s.image := ((State.afterWrite_only (.refl _) (.refl s1) _ _ _ _).image rfl).trans h1
  have h3 : s3.image = s.image := ite_reads ((noteIgnored_image s2 a l r).trans h2) h2
  exact ite_reads ((startOps_image s3 a l data).trans h3) h3

theorem writeLoc_image (s : State) (a : Acc) (l : RegLoc) (data : Nat) : (s.writeLoc a l data).image = s.image := by
  unfold State.writeLoc
  split
  next => rfl
  next r _ =>
    refine ite_reads (writeFields_image s a l r data) ?_
    extract_lets +onlyGivenNames item
    split
    · exact (State.statusClearAt_only (.refl _) (.refl s) _ _ _ _ _).image rfl
    · exact (State.statusClearAt_only (.refl _) (.refl s) _ _ _ _ _).image rfl
    · exact (State.statusInjectAt_only (.refl _) (.refl s) _ _ _ _ _).image rfl
    · exact noteIgnored_image s a l r

theorem writeReg_image (s : State) (a : Acc) (off data : Nat) : (s.writeReg a off data).image = s.image := by
  unfold State.writeReg
  split
  next => rfl
  next l _ => exact ite_reads (writeLoc_image s a l data) rfl

theorem writeBadSize_image (s : State) (a : Acc) (off : Nat) : (s.writeBadSize a off).image = s.image :=
  (State.writeBadSize_only (.refl _) (.refl s) a off).image rfl

theorem registerWrite_leavesImage (a : Acc) (off : Nat) (data : BitVec 64) (size : AccessSize) (s : State) :
    Leaves State.image s (execRegisterWrite a off data size s) := by
  refine leavesImage_done (ite_reads rfl ?_)
  cases size with
  | word => exact writeReg_image s a off _
  | dword => exact (writeReg_image _ a (off + 4) _).trans (writeReg_image s a off _)
  | narrow => exact writeBadSize_image s a off
  | wide => exact writeBadSize_image s a off

theorem writeRegRequest_leavesImage (inst : Byte) (req : List Byte) (s : State) :
    Leaves State.image s (execWriteReg inst req s) :=
  leavesImage_done (sbServe_image (ite_reads rfl (writeReg_image s .sideband _ _)))

/-! ## The image in every command -/

/-- No command changes the running image but the rails going off, power-on, and the end of a load in recovery. -/
theorem exec_leavesImage {c : Instr} {s : State} (hoff : c ≠ .railsOff) (hon : ∀ b, c ≠ .powerOn b)
    (hrec : ∀ a fw, c = .secRecEnd a fw → s.sec.recovery = false) : Leaves State.image s (exec c s) := by
  cases c with
  | railsOff => exact absurd rfl hoff
  | powerOn b => exact absurd rfl (hon b)
  | secRecEnd a fw => exact secRecEnd_leavesImage a fw (hrec a fw rfl)
  | secRecBegin a config => exact secRecBegin_leavesImage a config s
  | secRecData a word => exact secRecData_leavesImage a word s
  | secUpdFirmware a => exact secUpdFirmware_leavesImage a s
  | secUpdConfig a => exact secUpdConfig_leavesImage a s
  | updateComplete r => exact updateComplete_leavesImage r s
  | secReset a key warm => exact secReset_leavesImage a key warm s
  | watchdogExpiry => exact watchdogExpiry_leavesImage s
  | warmReset inst req => exact warmReset_leavesImage inst req s
  | warmResetEnd fw => exact warmResetEnd_leavesImage fw s
  | inputMeterSample mv tenMa => exact inputMeterSample_leavesImage mv tenMa s
  | meterTimeout tenMs => exact meterTimeout_leavesImage tenMs s
  | registerWrite a off data size => exact registerWrite_leavesImage a off data size s
  | writeReg inst req => exact writeRegRequest_leavesImage inst req s
  | _ => exact (exec_runsOnly _ s).leavesImage rfl

/-! ## The resets -/

/-- A command whose frame has neither the clock nor memory, and which leaves the image, leaves all three. -/
theorem exec_leaves_clock_memory_image {c : Instr} {s : State} (hclk : (mayChange c).contains .clk = false)
    (hmem : (mayChange c).contains .mem = false) (himage : Leaves State.image s (exec c s)) :
    ∃ t, exec c s = .next t ∧ t.clk = s.clk ∧ t.mem = s.mem ∧ t.sec.cfg = s.sec.cfg := by
  obtain ⟨t, ht, hframe⟩ := exec_runsOnly c s
  exact ⟨t, ht, hframe.use .clk hclk, hframe.use .mem hmem, himage t ht⟩

/-- PERST#, hot reset, FLR (12 R377) and the rows of warm reset (16 R499, R500). -/
theorem reset_leaves_clock_memory_image {a : Acc} {key : BitVec 8} {warm : Bool} {fw : Option FwImage} {inst : Byte}
    {req : List Byte} {c : Instr}
    (hc : c ∈ [Instr.perstAssert, .hotReset, .flr, .secReset a key warm, .watchdogExpiry, .warmReset inst req, .warmResetEnd fw])
    (s : State) : ∃ t, exec c s = .next t ∧ t.clk = s.clk ∧ t.mem = s.mem ∧ t.sec.cfg = s.sec.cfg := by
  simp only [List.mem_cons, List.not_mem_nil, or_false] at hc
  rcases hc with rfl | rfl | rfl | rfl | rfl | rfl | rfl
  · exact exec_leaves_clock_memory_image rfl rfl ((exec_runsOnly _ s).leavesImage rfl)
  · exact exec_leaves_clock_memory_image rfl rfl ((exec_runsOnly _ s).leavesImage rfl)
  · exact exec_leaves_clock_memory_image rfl rfl ((exec_runsOnly _ s).leavesImage rfl)
  · exact exec_leaves_clock_memory_image rfl rfl (secReset_leavesImage a key warm s)
  · exact exec_leaves_clock_memory_image rfl rfl (watchdogExpiry_leavesImage s)
  · exact exec_leaves_clock_memory_image rfl rfl (warmReset_leavesImage inst req s)
  · exact exec_leaves_clock_memory_image rfl rfl (warmResetEnd_leavesImage fw s)

/-- Settles O7: the frames of the commands leave few that may touch the clock or the security block, and each of those but the
named ones keeps the tick number and the image. -/
theorem tickAndImageOutlastResets : Obligations.TickAndImageOutlastResets := by
  refine ⟨fun c s t ht hne => ?_, fun s b => powerOn_tick_zero, fun s hon hg => ?_, fun s a key warm fw inst req c hc => ?_,
    fun c s t ht hne => ?_⟩
  · refine Classical.byContradiction fun hc => hne (exec_leavesTick s ?_ ?_ ?_ t ht)
    · exact fun e => hc (.inl e)
    · exact fun e => hc (.inr (.inl e))
    · exact fun b e => hc (.inr (.inr ⟨b, e⟩))
  · refine ⟨_, rfl, ?_⟩
    change (ite .. : State).clk.tick = _
    rw [if_neg (by simp [hon])]
    exact runEdge_tick hg
  · exact reset_leaves_clock_memory_image hc s
  · refine Classical.byContradiction fun hc => hne (exec_leavesImage ?_ ?_ ?_ t ht)
    · exact fun e => hc (.inl e)
    · exact fun b e => hc (.inr (.inl ⟨b, e⟩))
    · exact fun a fw e => Bool.eq_false_iff.mpr fun hr => hc (.inr (.inr ⟨a, fw, e, hr⟩))

end Sys2Proof.Machine

/-! PROOFS. The operations of `GFE_CHAN_CMD` (03 R56 to R58): what each does to the selected channel when the channel admits it, and
that an operation which is not admitted leaves the channel as it is. -/

namespace Sys2Proof.Machine
open Sys2Proof

/-! ## Admitted and ignored operations -/

/-- The answer to an operation under the current generation, once its effect `u` on the selected channel is known. -/
theorem chanOp_admitted {s u : State} {a : Acc} {gen : BitVec 20} {f : State → Nat → Option State} (hs : s.served = true)
    (hk : (s.chan (s.selChan a)).kind = .host) (hg : (s.chan (s.selChan a)).gen = gen) (hf : f s (s.selChan a) = some u) :
    done (if !s.served then s else s.chanOp a gen f) = .next u.endStep := by
  rw [done_if_served hs, chanOp_go hk hg hf]

/-- An operation on a FABRIC channel or under another generation is ignored, whatever it is (03 R57). -/
theorem chanOp_refused {s : State} {a : Acc} {gen : BitVec 20} (hs : s.served = true)
    (h : (s.chan (s.selChan a)).kind = .fabric ∨ (s.chan (s.selChan a)).gen ≠ gen) (f : State → Nat → Option State) :
    done (if !s.served then s else s.chanOp a gen f) = .next (s.chanIgnored (s.selChan a)).endStep := by
  rw [done_if_served hs, State.chanOp, if_pos h]

/-- The answer of every operation but `CREATE` that its kind or its generation refuses. -/
theorem exec_chanOp_refused {s : State} {a : Acc} {gen : BitVec 20} (hs : s.served = true)
    (h : (s.chan (s.selChan a)).kind = .fabric ∨ (s.chan (s.selChan a)).gen ≠ gen) {op : Instr}
    (hop : op ∈ [Instr.activate a gen, .pause a gen, .resume a gen, .destroy a gen, .reattach a gen]) :
    exec op s = .next (s.chanIgnored (s.selChan a)).endStep := by
  simp only [List.mem_cons, List.not_mem_nil, or_false] at hop
  rcases hop with rfl | rfl | rfl | rfl | rfl
  · exact chanOp_refused hs h _
  · exact chanOp_refused hs h _
  · exact chanOp_refused hs h _
  · exact chanOp_refused hs h _
  · exact chanOp_refused hs h _

/-! ## `CREATE` -/

theorem exec_create_of_destroyed {s : State} {a : Acc} (gen : BitVec 20) (hs : s.served = true)
    (hk : (s.chan (s.selChan a)).kind = .host) (hst : (s.chan (s.selChan a)).state = .destroyed) :
    exec (.create a gen) s = .next (State.endStep
      (((((s.resetChanRegs (s.selChan a)).keepWindow (s.selChan a)).setCq (s.selChan a) ChanCq.init).setAcct (s.selChan a)
        { ChanAcct.init with createTick := s.tickN }).setChan (s.selChan a)
        { Chan.init with state := .created, gen := (s.chan (s.selChan a)).gen + 1, expSeq := s.seqInit (s.selChan a) })) := by
  show done (if !s.served then s else _) = _
  rw [done_if_served hs]
  exact congrArg (fun t : State => Host.Outcome.next t.endStep) (if_neg (by simp [hk, hst]))

theorem exec_create_ignored {s : State} {a : Acc} (gen : BitVec 20) (hs : s.served = true)
    (h : (s.chan (s.selChan a)).kind = .fabric ∨ (s.chan (s.selChan a)).state ≠ .destroyed) :
    exec (.create a gen) s = .next (s.chanIgnored (s.selChan a)).endStep := by
  show done (if !s.served then s else _) = _
  rw [done_if_served hs]
  exact congrArg (fun t : State => Host.Outcome.next t.endStep) (if_pos h)

/-- `CREATE` leaves the channel CREATED under the next generation, its queue empty and its accounting zeroed. -/
theorem create_makes_new_channel {s : State} {a : Acc} (gen : BitVec 20) (hc : s.Canon) (hs : s.served = true)
    (hk : (s.chan (s.selChan a)).kind = .host) (hst : (s.chan (s.selChan a)).state = .destroyed) :
    ∃ t q, exec (.create a gen) s = .next t ∧
      t.chan (s.selChan a) = { Chan.init with state := .created, gen := (s.chan (s.selChan a)).gen + 1, expSeq := q } ∧
      t.cq (s.selChan a) = ChanCq.init ∧ t.acct (s.selChan a) = { ChanAcct.init with createTick := s.tickN } := by
  have k1 := State.keepWindow_keeps (State.resetChanRegs_keeps (Keeps.refl s) (s.selChan a)) (s.selChan a)
  have k2 := State.setCq_keeps k1 (s.selChan a) ChanCq.init
  have k3 := State.setAcct_keeps k2 (s.selChan a) { ChanAcct.init with createTick := s.tickN }
  exact ⟨_, _, exec_create_of_destroyed gen hs hk hst, chan_self (k3.canon hc) _ _, State.cq_setCq_self (k1.canon hc) _ _,
    State.acct_setAcct_self (k2.canon hc) _ _⟩

/-! ## The operations under the current generation -/

theorem drainDone_of_cmds {s : State} {c : Nat} (h : s.cmdsOf c ≠ []) : s.drainDone c = s := by
  unfold State.drainDone
  exact if_neg fun ⟨_, hempty, _⟩ => h (List.isEmpty_iff.mp hempty)

section
variable {s : State} {a : Acc} {gen : BitVec 20} (hc : s.Canon) (hs : s.served = true)
  (hk : (s.chan (s.selChan a)).kind = .host) (hg : (s.chan (s.selChan a)).gen = gen)
include hc hs hk hg

theorem activate_makes_active (hst : (s.chan (s.selChan a)).state = .created) (he : s.link.cacheEn = true) :
    ∃ t q, exec (.activate a gen) s = .next t ∧ t.chan (s.selChan a) =
      { s.chan (s.selChan a) with state := .active, expSeq := q, ringWritten := false, cqWritten := false } := by
  refine ⟨_, s.seqInit (s.selChan a), chanOp_admitted hs hk hg (if_pos ⟨hst, he⟩), ?_⟩
  rw [endStep_chan, chan_of (pumpRing_chans _ _)]
  exact chan_self hc _ _

theorem pause_makes_paused (hst : (s.chan (s.selChan a)).state = .active) :
    ∃ t, exec (.pause a gen) s = .next t ∧
      t.chan (s.selChan a) = { s.chan (s.selChan a) with state := .paused .host, reread := none } ∧
      t.host.reads = s.host.reads.filter (fun r => r.id != .ring (s.selChan a)) :=
  ⟨_, chanOp_admitted hs hk hg (if_pos hst), chan_self hc _ _, rfl⟩

theorem resume_makes_active {k : PauseCause} (hst : (s.chan (s.selChan a)).state = .paused k) (he : s.link.cacheEn = true) :
    ∃ t, exec (.resume a gen) s = .next t ∧ (t.chan (s.selChan a)).state = .active := by
  refine ⟨_, chanOp_admitted hs hk hg (u := s.resumeChan (s.selChan a) (k == .reattach)) ?_, resumeChan_state hc _ _⟩
  simp only [hst, he, if_true]

theorem destroy_of_created (hst : (s.chan (s.selChan a)).state = .created) :
    ∃ t, exec (.destroy a gen) s = .next t ∧ (t.chan (s.selChan a)).state = .destroyed := by
  refine ⟨_, chanOp_admitted hs hk hg
    (u := s.setChan (s.selChan a) { s.chan (s.selChan a) with state := .destroyed }) ?_, congrArg Chan.state (chan_self hc _ _)⟩
  simp only [hst]

/-- A channel with a command left goes on draining (03 R58). -/
theorem destroy_of_active (hst : (s.chan (s.selChan a)).state = .active) (hcmds : s.cmdsOf (s.selChan a) ≠ []) :
    ∃ t, exec (.destroy a gen) s = .next t ∧ (t.chan (s.selChan a)).state = .draining := by
  refine ⟨_, chanOp_admitted hs hk hg (u := State.dropReads
    (s.setChan (s.selChan a) { s.chan (s.selChan a) with state := .draining, reread := none, extWait := 0 }) (s.selChan a)) ?_,
    congrArg Chan.state (chan_self hc _ _)⟩
  simp only [hst, Bool.false_and, Bool.false_eq_true, if_false]
  exact congrArg some (drainDone_of_cmds hcmds)

theorem reattach_makes_paused (hst : (s.chan (s.selChan a)).state = .orphaned) :
    ∃ t, exec (.reattach a gen) s = .next t ∧
      t.chan (s.selChan a) = { s.chan (s.selChan a) with state := .paused .reattach } :=
  ⟨_, chanOp_admitted hs hk hg (if_pos hst), chan_self hc _ _⟩

end

/-- Settles O20: an admitted operation acts on the selected channel alone, which reads back as what was stored; any other one
is ignored. -/
theorem channelOperationsMoveStates : Obligations.ChannelOperationsMoveStates := by
  intro s a gen hc hs
  exact ⟨create_makes_new_channel gen hc hs,
    fun h => ⟨_, exec_create_ignored gen hs h, chanIgnored_spec hc _⟩,
    activate_makes_active hc hs,
    pause_makes_paused hc hs,
    fun hk hg ⟨_, hst⟩ he => resume_makes_active hc hs hk hg hst he,
    destroy_of_created hc hs,
    destroy_of_active hc hs,
    reattach_makes_paused hc hs,
    fun h _ hop => ⟨_, exec_chanOp_refused hs h hop, chanIgnored_spec hc _⟩⟩

end Sys2Proof.Machine

/-! PROOFS. `OBJ_FREE` (10 R317, R318; 03 R90): what it leaves of the object, that its record is written after the object's moves
have been given up and its aperture slots unbound, and the two list commands that name a freed handle. -/

namespace Sys2Proof.Machine
open Sys2Proof

/-! ## Records of a front-end command -/

theorem endNow_recordsIn {s : State} {d : Cmd} {op : Nat} (hop : slotOp d.slot = op) (hclu : isClusterOp op = false)
    (status a b : Nat) : s.RecordsIn d (s.endNow d status a b) status a b := fun hc hq hl hf => by
  rw [hop, hclu]
  exact endNow_records s d op hop ⟨hclu, hop ▸ hf⟩ status a b hc
    (fun ⟨hok, hquiet⟩ => hq.elim (· hok) (fun h => by simp [h] at hquiet)) hl

theorem State.RecordsIn.later {t u v : State} {d : Cmd} {status a b : Nat} (h : t.RecordsIn d u status a b) (k : Keeps u v) :
    t.RecordsIn d v.endStep status a b := fun hc hq hl hf => k.mem (h hc hq hl hf)

/-- Registers at different offsets have different keys, whatever their windows and items. -/
theorem regKey_ne_of_off {w x : Win} {i j p q : Nat} (hp : p < 4096) (hq : q < 4096) (h : p ≠ q) : regKey w i p ≠ regKey x j q := by
  unfold regKey; omega

/-- The registers of a completion queue, CQ_BASE and CQ_CFG, are those of `s` in `t`. -/
def SameCqRegs (s t : State) : Prop := ∀ c, ∀ off ∈ [0x230, 0x234, 0x238], t.regGet .gfe c off = s.regGet .gfe c off

/-- What a completion record is made from is the same in `t` as in `s`. -/
structure SameRecordView (s t : State) : Prop where
  clk : t.clk = s.clk
  chans : t.chans = s.chans
  cqs : t.cqs = s.cqs
  link : t.link = s.link
  sec : t.sec = s.sec
  tests : (t.integ.test, t.integ.wait) = (s.integ.test, s.integ.wait)
  regs : SameCqRegs s t

theorem SameRecordView.cqLog {s t : State} (h : SameRecordView s t) (c : Nat) : t.cqLog c = s.cqLog c := by
  unfold State.cqLog State.fld; rw [h.regs c _ (by decide)]

theorem SameRecordView.canRecord {s t : State} (h : SameRecordView s t) {c : Nat} (hc : s.CanRecord c) : t.CanRecord c := by
  have htest : t.integ.test = s.integ.test := congrArg Prod.fst h.tests
  unfold State.CanRecord State.mayWrite State.cqFull State.linkUp State.unitTest at *
  rw [chan_of h.chans, cq_of h.cqs, h.link, h.sec, htest, h.cqLog]
  exact hc

theorem SameRecordView.recordOut {s t : State} (h : SameRecordView s t) (d : Cmd) (clu status a b : Nat) :
    t.recordOut d clu status a b = s.recordOut d clu status a b := by
  unfold State.recordOut State.recAddr State.cqBase State.tickN State.stamp State.stampAt
  rw [h.regs d.chan 0x230 (by decide), h.regs d.chan 0x234 (by decide), h.cqLog, cq_of h.cqs, h.clk]

/-- A record due from `t` is one due from `s`, for a command that runs on no cluster. -/
theorem SameRecordView.recordsIn {s t u : State} {d : Cmd} {status a b : Nat} (h : SameRecordView s t)
    (hclu : isClusterOp (slotOp d.slot) = false) (hr : t.RecordsIn d u status a b) : s.RecordsIn d u status a b :=
  fun hc hq hl hf => by
    have hmem := hr (h.canRecord hc) hq hl hf
    rw [hclu] at hmem ⊢
    rw [← h.recordOut]
    exact hmem

/-! ## Freeing frames and unbinding slots leave the registers of the completion queues -/

theorem SameCqRegs.trans {s t u : State} (h : SameCqRegs s t) (k : SameCqRegs t u) : SameCqRegs s u :=
  fun c off ho => (k c off ho).trans (h c off ho)

theorem SameCqRegs.of_reg {s t : State} (h : t.reg = s.reg) : SameCqRegs s t := fun _ _ _ => regGet_of_reg h _ _ _

/-- The registers of a completion queue lie at none of the offsets below 0x230. -/
theorem cqReg_key_ne {c off : Nat} (ho : off ∈ [0x230, 0x234, 0x238]) {w : Win} {i p : Nat} (hp : p < 0x230) :
    regKey .gfe c off ≠ regKey w i p := by
  simp only [List.mem_cons, List.not_mem_nil, or_false] at ho
  exact regKey_ne_of_off (by omega) (by omega) (by omega)

theorem SameCqRegs.raise {s t : State} (h : SameCqRegs s t) (w : Win) (i : Nat) {off : Nat} (bit : Nat) (ho : off < 0x230) :
    SameCqRegs s (t.raise w i off bit) := h.trans fun _ _ hm => raise_other t w i off bit (cqReg_key_ne hm ho)

theorem SameCqRegs.fldPut {s t : State} (h : SameCqRegs s t) (w : Win) (i : Nat) {off : Nat} (msb lsb v : Nat)
    (ho : off < 0x230) : SameCqRegs s (t.fldPut w i off msb lsb v) :=
  h.trans fun _ _ hm => State.regGet_regPut_other t (cqReg_key_ne hm ho) _

theorem SameCqRegs.faultLog {s t : State} (h : SameCqRegs s t) (kind wh cause op a b tier fr : Nat) :
    SameCqRegs s (t.faultLog kind wh cause op a b tier fr) := by
  unfold State.faultLog
  extract_lets body r
  split
  · exact h.trans (.of_reg rfl)
  · refine SameCqRegs.raise ?_ .int 0 6 (by decide)
    exact h.trans (.of_reg rfl)

theorem SameCqRegs.freeFrame {s t : State} (h : SameCqRegs s t) (f : Nat) : SameCqRegs s (t.freeFrame f) := by
  unfold State.freeFrame State.retireFrame
  extract_lets r r' s1
  split
  · refine (SameCqRegs.faultLog ?_ 8 0xFF 0 0 0 0 (tierOf f) (frameNo f)).raise .int 0 5 (by decide)
    exact h.trans (.of_reg rfl)
  · exact h.trans (.of_reg rfl)

theorem SameCqRegs.releaseReads {s t : State} (h : SameCqRegs s t) (fs : List Nat) : SameCqRegs s (t.releaseReads fs) :=
  foldl_invariant (fun u f hu => by
    dsimp only
    split
    · exact hu.freeFrame f
    · exact hu) fs t h

theorem SameCqRegs.abandonMove {s t : State} (h : SameCqRegs s t) (j tile : Nat) (retry : Bool) :
    SameCqRegs s (t.abandonMove j tile retry) := by
  unfold State.abandonMove
  split
  · exact h
  · extract_lets +onlyGivenNames s1 again place s2
    have h1 : SameCqRegs s s1 := SameCqRegs.freeFrame (t := (t.dropMove j tile).dropCellar j tile) h _
    have h2 : SameCqRegs s s2 := by
      unfold s2
      split
      · exact h1.trans (.of_reg rfl)
      · exact h1
    split
    · exact h2.releaseReads _
    · exact h2

theorem SameCqRegs.dropWant {s t : State} (h : SameCqRegs s t) (j tile : Nat) : SameCqRegs s (t.dropWant j tile) := by
  unfold State.dropWant
  extract_lets +onlyGivenNames s1
  have h1 : SameCqRegs s s1 := foldl_invariant (fun _ f hu => hu.freeFrame f) _ t h
  exact h1.trans (.of_reg rfl)

theorem SameCqRegs.endMoves {s t : State} (h : SameCqRegs s t) (j : Nat) : SameCqRegs s (t.endMoves j) := by
  unfold State.endMoves
  extract_lets +onlyGivenNames keep s1
  have h1 : SameCqRegs s s1 := foldl_invariant (fun _ (m : Move) hu => hu.abandonMove j m.tile false) _ t h
  exact foldl_invariant (fun _ (w : MoveWant) hu => hu.dropWant j w.tile) _ s1 h1

theorem SameCqRegs.unbindSlots {s t : State} (h : SameCqRegs s t) (j : Nat) : SameCqRegs s (t.unbindSlots j) :=
  foldl_invariant (fun u k hu => by
    split
    · exact hu.fldPut .cxl k 0 0 0 (by decide)
    · exact hu) _ t h

/-! ## The object that is freed -/

/-- `OBJ_FREE` of an object before the command ends: marked as freed, its moves given up, its aperture slots unbound (10 R318). -/
def State.markFreed (s : State) (h : Nat) (o : Obj) : State := ((s.setObj h { o with freed := true }).endMoves h).unbindSlots h

theorem markFreed_only (s : State) (h : Nat) (o : Obj) :
    OnlyChanges [.reg, .frames, .objs, .place, .host, .integ, .icnt, .out] s (s.markFreed h o) := by
  unfold State.markFreed
  refine State.unbindSlots_only ?_ (State.endMoves_only ?_ (State.setObj_only ?_ (.refl s) h _) h) h <;> rfl

theorem markFreed_keeps (s : State) (h : Nat) (o : Obj) : Keeps s (s.markFreed h o) :=
  State.unbindSlots_keeps (State.endMoves_keeps (State.setObj_keeps (.refl s) h _) h) h

theorem markFreed_sameRecordView (s : State) (h : Nat) (o : Obj) : SameRecordView s (s.markFreed h o) :=
  have k := markFreed_only s h o
  have hset : SameCqRegs s (s.setObj h { o with freed := true }) := .of_reg rfl
  ⟨k.use .clk rfl, k.use .chans rfl, k.use .cqs rfl, k.use .link rfl, k.use .sec rfl, k.use .tests rfl,
    (hset.endMoves h).unbindSlots h⟩

theorem markFreed_objs (s : State) (h : Nat) (o : Obj) : (s.markFreed h o).objs = (s.setObj h { o with freed := true }).objs :=
  (State.unbindSlots_only (.refl _) (.refl _) h).use .objs rfl |>.trans
    ((State.endMoves_only (.refl _) (.refl _) h).use .objs rfl)

theorem obj?_of_objs {s t : State} (h : t.objs = s.objs) (j : Nat) : t.obj? j = s.obj? j := by unfold State.obj?; rw [h]

theorem liveObj_eq_none_iff {s : State} {h : Nat} :
    s.liveObj h = none ↔ ∀ o, s.obj? h = some o → ¬(o.creation = .live ∧ o.freed = false) := by
  unfold State.liveObj
  cases s.obj? h with
  | none => simp
  | some o => simp

theorem liveObj_none_of_freed {s : State} {h : Nat} (hf : ∀ x, s.obj? h = some x → x.freed = true) : s.liveObj h = none :=
  liveObj_eq_none_iff.mpr fun x hx ⟨_, hn⟩ => by simp [hf x hx] at hn

/-! ## Forgetting a freed object -/

/-- An issued command that names a handle keeps its object in use. -/
theorem inUse_of_issued {s : State} {e : Cmd} {h : Nat} (he : e ∈ s.gfe.cmds) (hn : e.names h = true) (hb : e.begun = true)
    (o : Obj) : s.inUse h o = true := by
  have : s.gfe.cmds.any (fun d => d.names h && (d.begun || d.phase == .resolving || d.phase == .ready)) = true :=
    List.any_eq_true.mpr ⟨e, he, by simp [hn, hb]⟩
  simp [State.inUse, this]

/-- An object that is in use stays. -/
theorem reap_of_inUse {s : State} {h : Nat} {o : Obj} (ho : s.obj? h = some o) (hu : s.inUse h o = true) : s.reap h = s := by
  unfold State.reap
  rw [ho]
  exact if_neg (by simp [hu])

/-- A freed object that is not in use is forgotten. -/
theorem obj?_reap_of_unused {s : State} {h : Nat} {o : Obj} (hc : s.Canon) (ho : s.obj? h = some o) (hf : o.freed = true)
    (hu : s.inUse h o = false) : (s.reap h).obj? h = none := by
  unfold State.reap
  rw [ho]
  simp only [hf, hu, Bool.not_false, Bool.and_self, if_true]
  refine State.obj?_dropObj_self (foldl_invariant (P := State.Canon) (fun t m k => (State.freeFrame_keeps (.refl t) _).canon k) _ _
    (foldl_invariant (P := State.Canon) (fun t w k => (State.dropWant_keeps (.refl t) _ _).canon k) _ _
      (foldl_invariant (P := State.Canon) (fun t m k => (State.abandonMove_keeps (.refl t) _ _ _).canon k) _ _ hc))) h

theorem reap_cmds (s : State) (h : Nat) : (s.reap h).gfe.cmds = s.gfe.cmds :=
  congrArg Gfe.cmds ((State.reap_only (.refl _) (.refl s) h).use .gfe rfl)

/-- What `reap` leaves of a freed object: the object itself, or nothing. -/
theorem obj?_reap {s : State} {h : Nat} {o : Obj} (hc : s.Canon) (ho : s.obj? h = some o) (hf : o.freed = true) {x : Obj}
    (hx : (s.reap h).obj? h = some x) : x = o := by
  cases hu : s.inUse h o with
  | true =>
    rw [reap_of_inUse ho hu, ho] at hx
    exact (Option.some.inj hx).symm
  | false =>
    rw [obj?_reap_of_unused hc ho hf hu] at hx
    cases hx

/-! ## `OBJ_FREE` -/

/-- `OBJ_FREE` of an object that nothing needs, up to the step that forgets the object. -/
def State.endFree (s : State) (h : Nat) (o : Obj) (d : Cmd) : State := ((s.markFreed h o).endNow d stOk 0 0).settleMoves

theorem runObjFree_of_missing {s : State} {d : Cmd} (h : s.liveObj (op32 d.slot 16) = none) :
    s.runObjFree d = s.endNow d stRange 16 0 := by
  unfold State.runObjFree
  simp only [h]

theorem runObjFree_of_needed {s : State} {d : Cmd} {o : Obj} (ho : s.liveObj (op32 d.slot 16) = some o)
    (h : s.needed (op32 d.slot 16) = true ∨ s.streamUses (op32 d.slot 16) = true) :
    s.runObjFree d = s.endNow d stRange 16 0 := by
  unfold State.runObjFree
  simp only [ho]
  exact if_pos h

theorem runObjFree_of_unneeded {s : State} {d : Cmd} {o : Obj} (ho : s.liveObj (op32 d.slot 16) = some o)
    (hn : s.needed (op32 d.slot 16) = false) (hs : s.streamUses (op32 d.slot 16) = false) :
    s.runObjFree d = (s.endFree (op32 d.slot 16) o d).reap (op32 d.slot 16) := by
  unfold State.runObjFree
  simp only [ho]
  exact if_neg (by simp [hn, hs])

/-- A refused `OBJ_FREE` ends with ST_RANGE and leaves the objects. -/
theorem objFree_refused {s t : State} {n : Node} {d : Cmd} (h : s.Issues n 0x19 t d) (hr : t.runObjFree d = t.endNow d stRange 16 0) :
    ∃ u, exec (.objFree n) s = .next u ∧ t.RecordsIn d u stRange 16 0 ∧ u.objs = t.objs := by
  refine ⟨_, gfe_exec h rfl, ?_⟩
  rw [hr]
  exact ⟨endNow_recordsIn (issues_op h) rfl stRange 16 0, endNow_objs _ _ _ _ _ (by rw [issues_op h]; decide)⟩

theorem endFree_canon {s : State} (hc : s.Canon) (h : Nat) (o : Obj) (d : Cmd) : (s.endFree h o d).Canon :=
  (State.settleMoves_keeps (State.endNow_keeps (markFreed_keeps s h o) d stOk 0 0)).canon hc

/-- No part of `OBJ_FREE` before that step touches the object but for its mark. -/
theorem obj?_endFree (s : State) (h : Nat) (o : Obj) {d : Cmd} (hop : slotOp d.slot ≠ foldOp) :
    (s.endFree h o d).obj? h = some { o with freed := true } := by
  have hobjs : (s.endFree h o d).objs = (s.setObj h { o with freed := true }).objs :=
    (settleMoves_objs _).trans ((endNow_objs _ d stOk 0 0 hop).trans (markFreed_objs s h o))
  rw [obj?_of_objs hobjs, State.obj?_setObj_self]

theorem endFree_recordsIn (s : State) (h : Nat) (o : Obj) {d : Cmd} (hop : slotOp d.slot = 0x19) :
    s.RecordsIn d ((s.endFree h o d).reap h).endStep stOk 0 0 := by
  have hclu : isClusterOp (slotOp d.slot) = false := by rw [hop]; rfl
  have hrec : s.RecordsIn d ((s.markFreed h o).endNow d stOk 0 0) stOk 0 0 :=
    (markFreed_sameRecordView s h o).recordsIn hclu (endNow_recordsIn rfl hclu stOk 0 0)
  exact hrec.later (State.reap_keeps (State.settleMoves_keeps (.refl _)) h)

/-- An `OBJ_FREE` of an object that nothing needs: no live object is left, its record says ST_OK, and a use by an issued command
keeps the tiles. -/
theorem objFree_frees {s t : State} {n : Node} {d : Cmd} {o : Obj} (hc : t.Canon) (h : s.Issues n 0x19 t d)
    (ho : t.liveObj (op32 d.slot 16) = some o) (hn : t.needed (op32 d.slot 16) = false)
    (hs : t.streamUses (op32 d.slot 16) = false) :
    ∃ u, exec (.objFree n) s = .next u ∧ u.liveObj (op32 d.slot 16) = none ∧ t.RecordsIn d u stOk 0 0 ∧
      (∀ x, u.obj? (op32 d.slot 16) = some x → x.freed = true) ∧
      ((∃ e ∈ u.gfe.cmds, e.names (op32 d.slot 16) = true ∧ e.begun = true) →
        ∃ x, u.obj? (op32 d.slot 16) = some x ∧ x.map = o.map) := by
  have hop := issues_op h
  have hexec := gfe_exec h (c := .objFree n) rfl
  rw [runObjFree_of_unneeded ho hn hs] at hexec
  have hobj := obj?_endFree t (op32 d.slot 16) o (d := d) (by rw [hop]; decide)
  have hcanon := endFree_canon hc (op32 d.slot 16) o d
  have hfreed : ∀ x, ((t.endFree (op32 d.slot 16) o d).reap (op32 d.slot 16)).obj? (op32 d.slot 16) = some x → x.freed = true :=
    fun x hx => by rw [obj?_reap hcanon hobj rfl hx]
  refine ⟨_, hexec, liveObj_none_of_freed hfreed, endFree_recordsIn t _ o hop, hfreed, ?_⟩
  rintro ⟨e, he, hnames, hbegun⟩
  have hmem : e ∈ (t.endFree (op32 d.slot 16) o d).gfe.cmds := reap_cmds _ (op32 d.slot 16) ▸ he
  refine ⟨{ o with freed := true }, ?_, rfl⟩
  show ((t.endFree (op32 d.slot 16) o d).reap (op32 d.slot 16)).obj? (op32 d.slot 16) = _
  rw [reap_of_inUse hobj (inUse_of_issued hmem hnames hbegun _), hobj]

/-! ## List commands of a freed handle -/

theorem launchBad_of_freed {s : State} {slot : List Byte} (hf : ∀ x, s.obj? (op32 slot 16) = some x → x.freed = true) :
    s.launchBad slot = some 16 := by
  unfold State.launchBad
  cases ho : s.obj? (op32 slot 16) with
  | none => rfl
  | some x => simp [hf x ho]

theorem runLaunchList_of_bad {s : State} {d : Cmd} {off : Nat} (h : s.launchBad d.slot = some off) :
    s.runLaunchList d = s.endNow d stRange off 0 := by
  unfold State.runLaunchList
  rw [h]

/-- A list of offsets that is not empty has a lowest one. -/
theorem exists_lowest_cons (x : Nat) (l : List Nat) : ∃ off, lowest (x :: l) = some off := by
  unfold lowest
  cases lowest l <;> exact ⟨_, rfl⟩

theorem exists_patchBad_of_not_live {s : State} {d : Cmd} (h : s.liveObj (op32 d.slot 16) = none) :
    ∃ off, lowest (s.patchBad d) = some off := by
  unfold State.patchBad
  simp only [h, List.cons_append, List.nil_append]
  exact exists_lowest_cons _ _

theorem runPatchList_of_bad {s : State} {d : Cmd} {off : Nat} (h : lowest (s.patchBad d) = some off) :
    s.runPatchList d = s.endNow d stRange off 0 := by
  unfold State.runPatchList
  simp only [h]

/-- Settles O30: the object is marked as freed and only then forgotten, which waits for every issued command that names it. -/
theorem objFreeForgetsTheObject : Obligations.ObjFreeForgetsTheObject := by
  refine ⟨fun s t n d hc h => ⟨fun hnone => ?_, fun o ho => ⟨fun hn hs => objFree_frees hc h ho hn hs, fun hneed => ?_⟩⟩,
    fun s t n d hf => ⟨fun h => ?_, fun h => ?_⟩⟩
  · exact objFree_refused h (runObjFree_of_missing hnone)
  · exact objFree_refused h (runObjFree_of_needed ho hneed)
  · refine ⟨_, gfe_exec h rfl, ?_⟩
    rw [runLaunchList_of_bad (launchBad_of_freed hf)]
    exact endNow_recordsIn (issues_op h) rfl stRange 16 0
  · obtain ⟨off, hbad⟩ := exists_patchBad_of_not_live (liveObj_none_of_freed hf)
    refine ⟨_, off, gfe_exec h rfl, ?_⟩
    rw [runPatchList_of_bad hbad]
    exact endNow_recordsIn (issues_op h) rfl stRange off 0

end Sys2Proof.Machine

/-! PROOFS. Where an access leads (15 R447, R449, R450): what the commands that read and write registers answer, that the place
alone decides it, and that the sideband's READ_REG and WRITE_REG are accesses of BAR0 (17 R515). -/

namespace Sys2Proof.Machine
open Sys2Proof

/-! ## The commands of an access -/

theorem loRead_exec {s : State} (h : s.on = true) (a : Acc) (off : Nat) :
    exec (.loRead a off) s = done ((s.readReg a off).2.emit (.regRead a (BitVec.ofNat 32 (s.readReg a off).1))) := by
  show done (if !s.on then s else _) = _
  rw [if_neg (by simp [h])]

/-- The write of a size that is not two writes: of a word, or one that BAR0 does not serve (15 R451). -/
theorem registerWrite_exec {z : AccessSize} (hz : z ≠ .dword) (s : State) (a : Acc) (off : Nat) (data : BitVec 64) :
    exec (.registerWrite a off data z) s = done (if !s.on then s
      else if z = .word then s.writeReg a off (data.toNat % 2 ^ 32) else s.writeBadSize a off) := by
  cases z with
  | word => rfl
  | dword => exact absurd rfl hz
  | narrow => rfl
  | wide => rfl

theorem statusCommands_of_none {s : State} {off : Nat} (h : s.statusReg off = none) (a : Acc) (data : BitVec 32) :
    exec (.statusClear a off data) s = .next s.endStep ∧ exec (.statusSetInject a off data) s = .next s.endStep ∧
      exec (.statusToggle a off data) s = .next s.endStep := by
  refine ⟨?_, ?_, ?_⟩
  · show execStatusClear a off data s = _
    unfold execStatusClear; rw [h]; rfl
  · show execStatusSetInject a off data s = _
    unfold execStatusSetInject; rw [h]; rfl
  · show execStatusToggle a off data s = _
    unfold execStatusToggle; rw [h]; rfl

/-! ## Offsets without a register -/

theorem loRead_unlisted {s : State} {off : Nat} (a : Acc) (hon : s.on = true)
    (hr : off < 0x2000000 ∨ (0x2010000 ≤ off ∧ off < bar2)) (h : ∀ l, s.locate off = some l → regAt l.w l.off = none) :
    ∃ u, exec (.loRead a off) s = .next u ∧ u.out = s.out ++ [.regRead a 0] := by
  refine ⟨_, loRead_exec hon a off, ?_⟩
  rw [readReg_unlisted h hr]
  exact out_emit s _

theorem registerWrite_unlisted {s : State} {off : Nat} {z : AccessSize} (hz : z ≠ .dword) (a : Acc) (data : BitVec 64)
    (h : ∀ l, s.locate off = some l → regAt l.w l.off = none) : exec (.registerWrite a off data z) s = .next s.endStep := by
  obtain ⟨hword, hsize⟩ := writeReg_unlisted (a := a) h (data.toNat % 2 ^ 32)
  rw [registerWrite_exec hz, hword, hsize, ite_self, ite_self]
  rfl

/-! ## Offsets that lead to one place -/

theorem readReg_of_locate {s : State} {x y : Nat} (hx : x < 0x2000000) (hy : y < 0x2000000) (h : s.locate x = s.locate y)
    (a : Acc) : s.readReg a x = s.readReg a y := by
  unfold State.readReg bar2
  rw [if_neg (by omega), if_neg (by omega), if_neg (by omega), if_neg (by omega), h]

theorem loRead_of_locate {s : State} {x y : Nat} (hx : x < 0x2000000) (hy : y < 0x2000000) (h : s.locate x = s.locate y)
    (a : Acc) : exec (.loRead a x) s = exec (.loRead a y) s := by
  show execLoRead a x s = execLoRead a y s
  unfold execLoRead
  rw [readReg_of_locate hx hy h]

theorem registerWrite_of_locate {s : State} {x y : Nat} {z : AccessSize} (hz : z ≠ .dword) (h : s.locate x = s.locate y)
    (a : Acc) (data : BitVec 64) : exec (.registerWrite a x data z) s = exec (.registerWrite a y data z) s := by
  rw [registerWrite_exec hz, registerWrite_exec hz]
  unfold State.writeReg State.writeBadSize
  rw [h]

theorem statusCommands_of_locate {s : State} {x y : Nat} (h : s.locate x = s.locate y) (a : Acc) (data : BitVec 32) :
    exec (.statusClear a x data) s = exec (.statusClear a y data) s ∧
      exec (.statusSetInject a x data) s = exec (.statusSetInject a y data) s ∧
      exec (.statusToggle a x data) s = exec (.statusToggle a y data) s := by
  have hreg : s.statusReg x = s.statusReg y := by unfold State.statusReg; rw [h]
  refine ⟨?_, ?_, ?_⟩
  · show execStatusClear a x data s = execStatusClear a y data s
    unfold execStatusClear; rw [hreg]
  · show execStatusSetInject a x data s = execStatusSetInject a y data s
    unfold execStatusSetInject; rw [hreg]
  · show execStatusToggle a x data s = execStatusToggle a y data s
    unfold execStatusToggle; rw [hreg]

/-! ## READ_REG and WRITE_REG -/

theorem readReg_out (s : State) (a : Acc) (off : Nat) : (s.readReg a off).2.out = s.out :=
  (State.readReg_only (Within.refl _) (OnlyChanges.refl s) a off).use .out rfl

section
variable {s : State} (ha : s.sbAnswers = true) (hr : s.sec.recovery = false) (inst : Byte) {req : List Byte}
include ha hr

/-- READ_REG of a request of its length: a refusal, or the value that a BAR0 read of the sideband returns. -/
theorem readReg_exec (hlen : req.length = 4) :
    exec (.readReg inst req) s = done (if !bar0Ok (leField req 0 4) then s.sbAnswer 4 inst 3 []
      else (s.readReg .sideband (leField req 0 4)).2.sbAnswer 4 inst 0
        (leBytes 4 (s.readReg .sideband (leField req 0 4)).1)) :=
  congrArg done (sbServe_runs ha _ (.inl hr) hlen)

/-- WRITE_REG of a request of its length: a refusal, or a BAR0 write of the sideband. -/
theorem writeReg_exec (hlen : req.length = 8) :
    exec (.writeReg inst req) s = done (if !bar0Ok (leField req 0 4) then s.sbAnswer 5 inst 3 []
      else (s.writeReg .sideband (leField req 0 4) (leField req 4 4)).sbAnswer 5 inst 0 []) :=
  congrArg done (sbServe_runs ha _ (.inl hr) hlen)

end

/-- Settles O44: what an access does depends on its offset through the place that the offset leads to. -/
theorem offsetsDecodeTheSameForEveryAccess : Obligations.OffsetsDecodeTheSameForEveryAccess := by
  refine ⟨fun s a off hon hr h => ⟨loRead_unlisted a hon hr h, fun data z hz => registerWrite_unlisted hz a data h⟩,
    fun s a k x y hk hx hy halias himage => ?_, fun s ha hrec inst req => ⟨fun hlen => ⟨fun hbad => ?_, fun hok => ?_⟩,
      fun hlen => ⟨fun hbad => ?_, fun hok => ?_⟩⟩⟩
  · have h := locate_of_mirror s k x y hk hx hy halias himage
    exact ⟨loRead_of_locate (by omega) (by omega) h a, fun data z hz => registerWrite_of_locate hz h a data,
      statusCommands_of_locate h a⟩
  · refine ⟨_, readReg_exec ha hrec inst hlen, ?_⟩
    rw [hbad]
    exact sbAnswer_out s 4 inst 3 []
  · refine ⟨_, readReg_exec ha hrec inst hlen, ?_⟩
    rw [hok]
    exact (sbAnswer_out _ 4 inst 0 _).trans (by rw [readReg_out])
  · refine ⟨_, writeReg_exec ha hrec inst hlen, ?_⟩
    rw [hbad]
    exact sbAnswer_out s 5 inst 3 []
  · rw [writeReg_exec ha hrec inst hlen, hok]
    rfl

end Sys2Proof.Machine

/-! PROOFS. Status registers (15 R462 to R465): a clear by SEQ, an injection and a toggle, each as what it leaves in the register
file. -/

namespace Sys2Proof.Machine
open Sys2Proof

/-! ## The value of a status register -/

/-- The value of a status register once events are set in it in a step of their own: SEQ counts up once (15 R462). -/
def valueAfterSet (v bits : Nat) : Nat := (v / 2 ^ 24 + 1) % 256 * 2 ^ 24 + (v % 2 ^ 24 ||| bits)

theorem statusSet_value {s : State} (hc : s.Canon) (hr : s.reg.raised = []) (w : Win) (item off : Nat) {bits : Nat}
    (hb : bits ≠ 0) (hl : bits < 2 ^ 24) :
    (s.statusSet w item off bits).regGet w item off = valueAfterSet (s.regGet w item off) bits := by
  obtain ⟨seq, -, hval, hseq⟩ := statusSet_get hc w item off bits hb hl
  rw [hval, hseq hr]
  rfl

theorem raise_value {s : State} (hc : s.Canon) (hr : s.reg.raised = []) (w : Win) (item off : Nat) {bit : Nat} (hb : bit < 24) :
    (s.raise w item off bit).regGet w item off = valueAfterSet (s.regGet w item off) (2 ^ bit) := by
  unfold State.raise
  rw [regGet_of_reg (events_reg _ _ _ _ _)]
  exact statusSet_value hc hr w item off (Nat.ne_of_gt (Nat.two_pow_pos bit)) (Nat.pow_lt_pow_right (by decide) hb)

/-- Data selects event bits only, never SEQ. -/
theorem eventMask_lt {s : State} {off : Nat} {l : RegLoc} {r : RDef} (h : s.statusReg off = some (l, r)) (data : Nat) :
    eventMask r data < 2 ^ 24 :=
  Nat.lt_of_lt_of_le (Nat.mod_lt _ (Nat.two_pow_pos _)) (Nat.pow_le_pow_right (by decide) (statusReg_events h))

/-! ## Clear, injection and toggle -/

theorem statusClearAt_value {s : State} (hc : s.Canon) {w : Win} {item off : Nat} (r : RDef) {data : Nat}
    (hseq : data / 2 ^ 24 = s.regGet w item off / 2 ^ 24) :
    (s.statusClearAt w item off r data).regGet w item off =
      s.regGet w item off - (s.regGet w item off &&& eventMask r data) := by
  unfold State.statusClearAt
  rw [if_pos hseq, regGet_put hc]
  exact Nat.mod_eq_of_lt (Nat.lt_of_le_of_lt (Nat.sub_le _ _) (regGet_lt s w item off))

/-- The step after a clear: an event that hardware then sets stands beside those that the clear left (15 R463). -/
theorem raise_afterClear {s : State} (hc : s.Canon) {w : Win} {item off : Nat} {r : RDef} {data bit : Nat} (hb : bit < 24)
    (hm : eventMask r data < 2 ^ 24) (hseq : data / 2 ^ 24 = s.regGet w item off / 2 ^ 24) :
    ((s.statusClearAt w item off r data).endStep.raise w item off bit).regGet w item off =
      (s.regGet w item off / 2 ^ 24 + 1) % 256 * 2 ^ 24 +
        ((s.regGet w item off - (s.regGet w item off &&& eventMask r data)) % 2 ^ 24 ||| 2 ^ bit) := by
  have hcanon := (State.endStep_keeps (State.statusClearAt_keeps (Keeps.refl s) w item off r data)).canon hc
  rw [raise_value hcanon rfl w item off hb, regGet_endStep, statusClearAt_value hc r hseq, valueAfterSet, clear_keeps_seq hm]

theorem statusClearAt_of_otherSeq {s : State} {w : Win} {item off : Nat} (r : RDef) {data : Nat}
    (hseq : data / 2 ^ 24 ≠ s.regGet w item off / 2 ^ 24) : s.statusClearAt w item off r data = s :=
  if_neg hseq

theorem statusEvents_zero (s : State) (w : Win) (off : Nat) (l : List Nat) : State.statusEvents s w off 0 l = s := by
  induction l with
  | nil => rfl
  | cons b l ih =>
    rw [State.statusEvents, if_neg (by simp)]
    exact ih

theorem statusInjectAt_of_noEvent {s : State} {w : Win} {item off : Nat} {r : RDef} {data : Nat} (h : eventMask r data = 0) :
    s.statusInjectAt w item off r data = s := by
  unfold State.statusInjectAt
  rw [h, statusEvents_zero]
  exact if_pos rfl

theorem statusInjectAt_value {s : State} (hc : s.Canon) (hr : s.reg.raised = []) (w : Win) (item off : Nat) {r : RDef}
    {data : Nat} (hm : eventMask r data ≠ 0) (hl : eventMask r data < 2 ^ 24) :
    (s.statusInjectAt w item off r data).regGet w item off = valueAfterSet (s.regGet w item off) (eventMask r data) := by
  unfold State.statusInjectAt
  rw [regGet_of_reg (events_reg _ _ _ _ _)]
  exact statusSet_value hc hr w item off hm hl

section
variable {s : State} {off : Nat} {l : RegLoc} {r : RDef} (h : s.statusReg off = some (l, r)) (a : Acc) (data : BitVec 32)
include h

theorem statusClear_exec : exec (.statusClear a off data) s =
    done (s.statusClearAt l.w (s.itemOf a l.w l.clu r.item) l.off r data.toNat) := by
  show execStatusClear a off data s = _
  unfold execStatusClear
  rw [h]

theorem statusSetInject_exec : exec (.statusSetInject a off data) s =
    done (s.statusInjectAt l.w (s.itemOf a l.w l.clu r.item) l.off r data.toNat) := by
  show execStatusSetInject a off data s = _
  unfold execStatusSetInject
  rw [h]

theorem statusToggle_exec : exec (.statusToggle a off data) s = done (s.noteIgnored a l r) := by
  show execStatusToggle a off data s = _
  unfold execStatusToggle
  rw [h]

end

/-- Settles O45: a clear keeps SEQ, so the next event of hardware counts it up once, as an injection and a toggle do. -/
theorem statusRegistersAreClearedBySequence : Obligations.StatusRegistersAreClearedBySequence := by
  refine ⟨fun s a off data h => statusCommands_of_none h a data, fun s a off data l r hc h =>
    ⟨fun hseq => ?_, fun hseq => ?_, fun hm => ?_, fun hr hm => ?_, fun hr => ?_⟩⟩
  · have hm := eventMask_lt h data.toNat
    have hval := statusClearAt_value hc r hseq
    exact ⟨_, statusClear_exec h a data, hval, (congrArg (· / 2 ^ 24) hval).trans (clear_keeps_seq hm),
      fun b hb => raise_afterClear hc hb hm hseq⟩
  · rw [statusClear_exec h, statusClearAt_of_otherSeq r hseq]
    rfl
  · rw [statusSetInject_exec h, statusInjectAt_of_noEvent hm]
    rfl
  · exact ⟨_, statusSetInject_exec h a data, statusInjectAt_value hc hr l.w _ l.off hm (eventMask_lt h data.toNat)⟩
  · exact ⟨_, statusToggle_exec h a data, raise_value hc hr l.w _ r.status (by decide),
      fun w k o hne => raise_other s l.w _ r.status 0 hne⟩

end Sys2Proof.Machine

/-! PROOFS. The block as a whole: that every command answers a next state, which keeps what `Keeps` says and stays in its frame;
that a module without power acts on `POWER_ON` alone; and that every step keeps the invariant. -/

namespace Sys2Proof.Machine
open Sys2Proof

/-! ## Without power -/

theorem done_of_eq {s u : State} (h : u = s) : done u = .next s.endStep := by rw [h]; rfl

section
variable {s : State} (h : s.on = false)
include h

theorem served_of_off : s.served = false := by unfold State.served; rw [show s.sb.powered = false from h]; rfl

theorem coresRun_of_off : s.coresRun = false := by unfold State.coresRun; rw [show s.sb.powered = false from h]; rfl

theorem takes_of_off (port : Nat) : s.takes port = false := by simp [State.takes, h]

theorem ptpRuns_of_off : s.ptpRuns = false := by simp [State.ptpRuns, h]

theorem memOpen_of_off (dpa : Nat) : s.memOpen dpa = false := by simp [State.memOpen, h]

theorem sbAnswers_of_off : s.sbAnswers = false := by simp [State.sbAnswers, h]

theorem spdmOpen_of_off (p : SpdmPath) : s.spdmOpen p = false := by
  cases p <;> simp [State.spdmOpen, State.sbAnswers, h]

theorem statusReg_of_off (off : Nat) : s.statusReg off = none := by
  unfold State.statusReg State.serves
  cases s.locate off <;> simp [h]

theorem fresh_of_off (n op : Nat) : s.fresh n op = none := by
  unfold State.fresh
  cases s.running n <;> simp [h]

theorem msgOf_of_off (m v ty : Nat) : s.msgOf m v ty = none := by
  unfold State.msgOf
  cases s.firstMsg m v <;> simp [coresRun_of_off h]

theorem gfeHead_of_off (n : Node) (op : Nat) (f : State → Cmd → State) : s.gfeHead n op f = s := by simp [State.gfeHead, h]

theorem streamIssue_of_off (n : Nat) : s.streamIssue n = s := by simp [State.streamIssue, h]

theorem memAccess_of_off (w : MemAcc) (bad : Option PoisonCause) : s.memAccess w bad = s := by
  simp [State.memAccess, memOpen_of_off h]

theorem beginCommit_of_off (n : Nat) : s.beginCommit n = s := by
  unfold State.beginCommit
  simp only [h, Bool.not_false, Bool.true_or, if_true]
  repeat' split
  all_goals rfl

theorem compare_of_off (n : Nat) (kind : CheckKind) (g : Option Glitch) : s.compare n kind g = s := by
  unfold State.compare
  simp only [h, Bool.not_false, Bool.true_or, if_true]
  repeat' split
  all_goals rfl

theorem summaryCompare_of_off (n : Nat) (g : Option Glitch) : s.summaryCompare n g = s := by
  unfold State.summaryCompare
  simp only [h, Bool.not_false, Bool.true_or, if_true]
  repeat' split
  all_goals rfl

/-- While the module is off, no command but `POWER_ON` changes anything (log entry 3). -/
theorem exec_off (c : Instr) (hc : ∀ b, c ≠ .powerOn b) : exec c s = .next s.endStep := by
  have hserved := served_of_off h
  have hcores := coresRun_of_off h
  cases c with
  | powerOn b => exact absurd rfl (hc b)
  | commandStart | runFindsCondition | repeatPairCompare | ringRereadIssue | doorbellStale | testDrainComplete |
    testDrainTimeout | testDone | fenceTimeout | hostFence | listPositionFetch | remoteGatherTimeout | fold |
    cellarReadLand | cellarProgramComplete | tileMoveCommit | marginDone | ackDue | residencyAbandon |
    residencyVerdict | faultLogRecordWrite | zeroFillComplete | cloneCopyComplete | postedWriteDrain =>
    refine done_of_eq ?_
    simp only [h, gfeHead_of_off h, hcores, Bool.not_false, Bool.true_or, Bool.false_and, if_true, Bool.false_eq_true, if_false]
    repeat' split
    all_goals rfl
  | _ =>
    refine done_of_eq ?_
    simp [h, hserved, hcores, takes_of_off h, ptpRuns_of_off h, memOpen_of_off h, sbAnswers_of_off h, State.spdmAt, State.sbServe, spdmOpen_of_off h, statusReg_of_off h, msgOf_of_off h, gfeHead_of_off h, streamIssue_of_off h, memAccess_of_off h, beginCommit_of_off h, compare_of_off h, summaryCompare_of_off h, State.runProduct, State.runStreamCmd, State.runHostWrite, State.runHostRead, State.runVchain, State.runGather, State.runScatter, fresh_of_off h]
end

/-! ## What every command keeps -/

/-- Each command's meaning answers a next state that keeps the queue, the canonical forms, the outputs and the free values. -/
theorem exec_runs (c : Instr) (s : State) : Runs s (exec c s) := by
  cases c with
  | tickEdge => exact execTickEdge_keeps (.refl s)
  | guardBandBegin => exact execGuardBandBegin_keeps (.refl s)
  | hostCommitCutoff => exact execHostCommitCutoff_keeps (.refl s)
  | ptpOffsetSample port m => exact execPtpOffsetSample_keeps (.refl s) port m
  | ptpAnnounce port domain m => exact execPtpAnnounce_keeps (.refl s) port domain m
  | ptpSampleTimeout => exact execPtpSampleTimeout_keeps (.refl s)
  | dispatchAdmit part => exact execDispatchAdmit_keeps (.refl s) part
  | commandStart clu => exact execCommandStart_keeps (.refl s) clu
  | commandFlip clu => exact execCommandFlip_keeps (.refl s) clu
  | commitPhaseBegin clu => exact execCommitPhaseBegin_keeps (.refl s) clu
  | flushReadReturn chan ok => exact execFlushReadReturn_keeps (.refl s) chan ok
  | arrayBlockCompare clu glitch => exact execArrayBlockCompare_keeps (.refl s) clu glitch
  | skinkGroupCompare clu glitch => exact execSkinkGroupCompare_keeps (.refl s) clu glitch
  | summaryCompare clu glitch => exact execSummaryCompare_keeps (.refl s) clu glitch
  | runFindsCondition clu found => exact execRunFindsCondition_keeps (.refl s) clu found
  | repeatPairCompare cmd => exact execRepeatPairCompare_keeps (.refl s) cmd
  | faultCountAge slot => exact execFaultCountAge_keeps (.refl s) slot
  | create a gen => exact execCreate_keeps (.refl s) a gen
  | activate a gen => exact execActivate_keeps (.refl s) a gen
  | pause a gen => exact execPause_keeps (.refl s) a gen
  | resume a gen => exact execResume_keeps (.refl s) a gen
  | destroy a gen => exact execDestroy_keeps (.refl s) a gen
  | reattach a gen => exact execReattach_keeps (.refl s) a gen
  | doorbell chan tail => exact execDoorbell_keeps (.refl s) chan tail
  | ringReadReturn chan slot ext => exact execRingReadReturn_keeps (.refl s) chan slot ext
  | ringRereadIssue chan => exact execRingRereadIssue_keeps (.refl s) chan
  | doorbellStale chan => exact execDoorbellStale_keeps (.refl s) chan
  | cqHead chan count => exact execCqHead_keeps (.refl s) chan count
  | nop n => exact execNop_keeps (.refl s) n
  | timestamp n => exact execTimestamp_keeps (.refl s) n
  | testOnDemand n => exact execTestOnDemand_keeps (.refl s) n
  | testDrainComplete => exact execTestDrainComplete_keeps (.refl s)
  | testDrainTimeout => exact execTestDrainTimeout_keeps (.refl s)
  | testDone verdict => exact execTestDone_keeps (.refl s) verdict
  | fenceSignal n => exact execFenceSignal_keeps (.refl s) n
  | fenceWait n => exact execFenceWait_keeps (.refl s) n
  | fenceTimeout n => exact execFenceTimeout_keeps (.refl s) n
  | hostFence n => exact execHostFence_keeps (.refl s) n
  | launchList n => exact execLaunchList_keeps (.refl s) n
  | listPositionFetch launch bad => exact execListPositionFetch_keeps (.refl s) launch bad
  | listSlotIssue launch => exact execListSlotIssue_keeps (.refl s) launch
  | patchList n => exact execPatchList_keeps (.refl s) n
  | objCreate n => exact execObjCreate_keeps (.refl s) n
  | objFree n => exact execObjFree_keeps (.refl s) n
  | move n => exact execMove_keeps (.refl s) n
  | clone n => exact execClone_keeps (.refl s) n
  | gemm clu => exact execGemm_keeps (.refl s) clu
  | matvec clu => exact execMatvec_keeps (.refl s) clu
  | vchain clu => exact execVchain_keeps (.refl s) clu
  | gatherPool clu => exact execGatherPool_keeps (.refl s) clu
  | scatterUpdate clu => exact execScatterUpdate_keeps (.refl s) clu
  | streamArm clu => exact execStreamArm_keeps (.refl s) clu
  | streamRearm clu => exact execStreamRearm_keeps (.refl s) clu
  | hostWrite clu => exact execHostWrite_keeps (.refl s) clu
  | hostRead clu => exact execHostRead_keeps (.refl s) clu
  | hostReadLineReturn clu addr line => exact execHostReadLineReturn_keeps (.refl s) clu addr line
  | scaleSet n => exact execScaleSet_keeps (.refl s) n
  | resolutionBegin cmd => exact execResolutionBegin_keeps (.refl s) cmd
  | remoteGatherTimeout cmd => exact execRemoteGatherTimeout_keeps (.refl s) cmd
  | fold table => exact execFold_keeps (.refl s) table
  | cellarReadLand h tile bad => exact execCellarReadLand_keeps (.refl s) h tile bad
  | cellarProgramComplete h tile => exact execCellarProgramComplete_keeps (.refl s) h tile
  | tileMoveCommit h tile bad => exact execTileMoveCommit_keeps (.refl s) h tile bad
  | heatScan => exact execHeatScan_keeps (.refl s)
  | scrubRead frame errs again => exact execScrubRead_keeps (.refl s) frame errs again
  | atticRefresh pc => exact execAtticRefresh_keeps (.refl s) pc
  | stackTempReport stack quarters => exact execStackTempReport_keeps (.refl s) stack quarters
  | stackTempTimeout stack => exact execStackTempTimeout_keeps (.refl s) stack
  | memTgtServe a serve => exact execMemTgtServe_keeps (.refl s) a serve
  | marginStart a => exact execMarginStart_keeps (.refl s) a
  | marginDone errors => exact execMarginDone_keeps (.refl s) errors
  | streamTransferIssue clu => exact execStreamTransferIssue_keeps (.refl s) clu
  | streamTransferComplete clu bad prod => exact execStreamTransferComplete_keeps (.refl s) clu bad prod
  | strCtrlDisarm a clu => exact execStrCtrlDisarm_keeps (.refl s) a clu
  | gfeFenceReset a gen => exact execGfeFenceReset_keeps (.refl s) a gen
  | gfeFenceAdd a add => exact execGfeFenceAdd_keeps (.refl s) a add
  | acctSnap a chan compat => exact execAcctSnap_keeps (.refl s) a chan compat
  | gfeScaleClearHist a => exact execGfeScaleClearHist_keeps (.refl s) a
  | foldNow a => exact execFoldNow_keeps (.refl s) a
  | cxlAptValid a valid => exact execCxlAptValid_keeps (.refl s) a valid
  | intCluRetire a => exact execIntCluRetire_keeps (.refl s) a
  | intCluSuspect a => exact execIntCluSuspect_keeps (.refl s) a
  | intLogSnap a index => exact execIntLogSnap_keeps (.refl s) a index
  | secUpdFirmware a => exact execSecUpdFirmware_keeps (.refl s) a
  | secUpdConfig a => exact execSecUpdConfig_keeps (.refl s) a
  | updateComplete r => exact execUpdateComplete_keeps (.refl s) r
  | secReset a key warm => exact execSecReset_keeps (.refl s) a key warm
  | secRecBegin a config => exact execSecRecBegin_keeps (.refl s) a config
  | secRecData a word => exact execSecRecData_keeps (.refl s) a word
  | secRecEnd a fw => exact execSecRecEnd_keeps (.refl s) a fw
  | statusClear a off data => exact execStatusClear_keeps (.refl s) a off data
  | statusSetInject a off data => exact execStatusSetInject_keeps (.refl s) a off data
  | statusToggle a off data => exact execStatusToggle_keeps (.refl s) a off data
  | registerWrite a off data size => exact execRegisterWrite_keeps (.refl s) a off data size
  | memRd dpa len bad => exact execMemRd_keeps (.refl s) dpa len bad
  | memWr dpa bytes => exact execMemWr_keeps (.refl s) dpa bytes
  | memInv dpa => exact execMemInv_keeps (.refl s) dpa
  | memSpecRd dpa => exact execMemSpecRd_keeps (.refl s) dpa
  | snoop addr => exact execSnoop_keeps (.refl s) addr
  | dvsecCacheEnable on => exact execDvsecCacheEnable_keeps (.refl s) on
  | perstAssert => exact execPerstAssert_keeps (.refl s)
  | perstDeassert => exact execPerstDeassert_keeps (.refl s)
  | linkL0Reached width gts => exact execLinkL0Reached_keeps (.refl s) width gts
  | linkRecoveryEnter => exact execLinkRecoveryEnter_keeps (.refl s)
  | linkRecoveryExit width gts => exact execLinkRecoveryExit_keeps (.refl s) width gts
  | dlDown => exact execDlDown_keeps (.refl s)
  | hotReset => exact execHotReset_keeps (.refl s)
  | flr => exact execFlr_keeps (.refl s)
  | d3hotEntry => exact execD3hotEntry_keeps (.refl s)
  | d0Return => exact execD0Return_keeps (.refl s)
  | orphanTimeout chan => exact execOrphanTimeout_keeps (.refl s) chan
  | refclkLoss => exact execRefclkLoss_keeps (.refl s)
  | clk10mQualified => exact execClk10mQualified_keeps (.refl s)
  | clk10mLoss => exact execClk10mLoss_keeps (.refl s)
  | portEnable port => exact execPortEnable_keeps (.refl s) port
  | portDisable port => exact execPortDisable_keeps (.refl s) port
  | portTrainingComplete port => exact execPortTrainingComplete_keeps (.refl s) port
  | portTrainingTimeout port => exact execPortTrainingTimeout_keeps (.refl s) port
  | portFault port => exact execPortFault_keeps (.refl s) port
  | holddownExpiry port => exact execHolddownExpiry_keeps (.refl s) port
  | discoverSend port => exact execDiscoverSend_keeps (.refl s) port
  | discover port f => exact execDiscover_keeps (.refl s) port f
  | discoverReply port mac f => exact execDiscoverReply_keeps (.refl s) port mac f
  | routePlaneExpiry dst plane => exact execRoutePlaneExpiry_keeps (.refl s) dst plane
  | data port f => exact execData_keeps (.refl s) port f
  | ack port f => exact execAck_keeps (.refl s) port f
  | nak port f => exact execNak_keeps (.refl s) port f
  | ackDue peer vl => exact execAckDue_keeps (.refl s) peer vl
  | retxTimerExpiry peer vl => exact execRetxTimerExpiry_keeps (.refl s) peer vl
  | peerFailedExpiry peer => exact execPeerFailedExpiry_keeps (.refl s) peer
  | reassemblyTimeout peer vl msgId => exact execReassemblyTimeout_keeps (.refl s) peer vl msgId
  | request peer vl => exact execRequest_keeps (.refl s) peer vl
  | response peer vl => exact execResponse_keeps (.refl s) peer vl
  | gather peer vl => exact execGather_keeps (.refl s) peer vl
  | partials peer vl => exact execPartials_keeps (.refl s) peer vl
  | update peer vl => exact execUpdate_keeps (.refl s) peer vl
  | updateAck peer vl => exact execUpdateAck_keeps (.refl s) peer vl
  | refuse peer vl => exact execRefuse_keeps (.refl s) peer vl
  | residencyStart => exact execResidencyStart_keeps (.refl s)
  | residencyAbandon => exact execResidencyAbandon_keeps (.refl s)
  | residencyVerdict verdict => exact execResidencyVerdict_keeps (.refl s) verdict
  | faultLogRecordWrite => exact execFaultLogRecordWrite_keeps (.refl s)
  | inputMeterSample mv tenMa => exact execInputMeterSample_keeps (.refl s) mv tenMa
  | meterTimeout tenMs => exact execMeterTimeout_keeps (.refl s) tenMs
  | tempSensorSample sensor quarters => exact execTempSensorSample_keeps (.refl s) sensor quarters
  | tempSensorTimeout sensor => exact execTempSensorTimeout_keeps (.refl s) sensor
  | voltageMonitorSample monitor mv => exact execVoltageMonitorSample_keeps (.refl s) monitor mv
  | voltageMonitorTimeout monitor => exact execVoltageMonitorTimeout_keeps (.refl s) monitor
  | processMonitorSample slot count => exact execProcessMonitorSample_keeps (.refl s) slot count
  | processMonitorTimeout slot => exact execProcessMonitorTimeout_keeps (.refl s) slot
  | railsOff => exact execRailsOff_keeps (.refl s)
  | powerOn b => exact execPowerOn_keeps (.refl s) b
  | watchdogExpiry => exact execWatchdogExpiry_keeps (.refl s)
  | warmResetEnd fw => exact execWarmResetEnd_keeps (.refl s) fw
  | dynamicAddressAssign addr => exact execDynamicAddressAssign_keeps (.refl s) addr
  | i3cBusReset => exact execI3cBusReset_keeps (.refl s)
  | mctpMessageTimeout => exact execMctpMessageTimeout_keeps (.refl s)
  | setEndpointId eid => exact execSetEndpointId_keeps (.refl s) eid
  | getEndpointId => exact execGetEndpointId_keeps (.refl s)
  | getMctpVersionSupport msgType => exact execGetMctpVersionSupport_keeps (.refl s) msgType
  | getMessageTypeSupport => exact execGetMessageTypeSupport_keeps (.refl s)
  | getEndpointUuid => exact execGetEndpointUuid_keeps (.refl s)
  | getVersion path => exact execGetVersion_keeps (.refl s) path
  | getCapabilities path => exact execGetCapabilities_keeps (.refl s) path
  | negotiateAlgorithms path p256 sha256 => exact execNegotiateAlgorithms_keeps (.refl s) path p256 sha256
  | getDigests path => exact execGetDigests_keeps (.refl s) path
  | getCertificate path slot offset length => exact execGetCertificate_keeps (.refl s) path slot offset length
  | challenge path slot nonce => exact execChallenge_keeps (.refl s) path slot nonce
  | getMeasurements path index sign nonce => exact execGetMeasurements_keeps (.refl s) path index sign nonce
  | getIdentity inst req => exact execGetIdentity_keeps (.refl s) inst req
  | getStatus inst req => exact execGetStatus_keeps (.refl s) inst req
  | readSensor inst req => exact execReadSensor_keeps (.refl s) inst req
  | readReg inst req => exact execReadReg_keeps (.refl s) inst req
  | writeReg inst req => exact execWriteReg_keeps (.refl s) inst req
  | readLog inst req => exact execReadLog_keeps (.refl s) inst req
  | readRetire inst req => exact execReadRetire_keeps (.refl s) inst req
  | eraseRetire inst req => exact execEraseRetire_keeps (.refl s) inst req
  | eraseComplete ok => exact execEraseComplete_keeps (.refl s) ok
  | warmReset inst req => exact execWarmReset_keeps (.refl s) inst req
  | announceReceiptTimeout => exact execAnnounceReceiptTimeout_keeps (.refl s)
  | delayReqSend port => exact execDelayReqSend_keeps (.refl s) port
  | completionTimeout read => exact execCompletionTimeout_keeps (.refl s) read
  | refclkRestored => exact execRefclkRestored_keeps (.refl s)
  | memEnable on decoder => exact execMemEnable_keeps (.refl s) on decoder
  | vectorUnmask what => exact execVectorUnmask_keeps (.refl s) what
  | zeroFillComplete h => exact execZeroFillComplete_keeps (.refl s) h
  | cloneCopyComplete h bad => exact execCloneCopyComplete_keeps (.refl s) h bad
  | postedWriteDrain => exact execPostedWriteDrain_keeps (.refl s)
  | loRead a off => exact execLoRead_keeps (.refl s) a off
  | laneMargining lane timing step errors => exact execLaneMargining_keeps (.refl s) lane timing step errors
  | frameDiscard port => exact execFrameDiscard_keeps (.refl s) port

/-- A command that may change neither the clock nor the staged work leaves the guard band as it is. -/
theorem OnlyChanges.guardStaged {k : List Part} {s t : State} (h : OnlyChanges k s t) (hclk : k.contains .clk = false)
    (hstaged : k.contains .staged = false) (hs : s.GuardStaged) : t.GuardStaged :=
  guardStaged_of (h.use .clk hclk) (h.use .staged hstaged) hs

/-! ## The guard band -/

theorem step_of_empty {s : State} (h : s.pending = []) : step s = .next s.idle := by
  unfold step
  rw [h]

theorem State.GuardStaged.ite {c : Prop} [Decidable c] {a b : State} (ha : a.GuardStaged) (hb : b.GuardStaged) :
    (if c then a else b).GuardStaged := by
  split <;> assumption

theorem guardStaged_of_done {u t : State} (h : done u = .next t) (hu : u.GuardStaged) : t.GuardStaged :=
  done_inj h ▸ endStep_guardStaged u hu

theorem runCutoff_guardStaged {s : State} (h : s.GuardStaged) : s.runCutoff.GuardStaged := by
  unfold State.GuardStaged at *
  rw [runCutoff_staged, runCutoff_clk, ← h]
  split
  · next hearly => simp [hearly]
  · rfl

theorem nextCycle_guardStaged {s : State} (h : s.GuardStaged) : s.nextCycle.GuardStaged := by
  have hnext := toCycle_guardStaged s (s.clk.cyc + 1) h
  unfold State.nextCycle
  dsimp only
  split
  · next hcut => exact cutoffWork_guardStaged _ hnext hcut.1
  · exact hnext

theorem dispatch_guardStaged {s : State} (h : s.GuardStaged) (p : Nat) : (s.dispatch p).GuardStaged :=
  guardStaged_of (dispatch_clk s p) (dispatch_staged s p) h

theorem streamIssue_guardStaged {s : State} (h : s.GuardStaged) (n : Nat) : (s.streamIssue n).GuardStaged :=
  (State.streamIssue_only (.refl _) (.refl s) n).guardStaged rfl rfl h

theorem canon_popped {s : State} (h : s.Canon) (rest : List Instr) : State.Canon { s with pending := rest } :=
  ⟨h.mem, h.regs, h.chans, h.cqs, h.accts, h.clus, h.cnts, h.pslots, h.scales, h.frames, h.streams, h.fences, h.objs⟩

/-- Every command keeps the boundary work staged exactly in the guard band. -/
theorem exec_keeps_guardStaged {c : Instr} {s t : State} (he : exec c s = .next t) (hs : s.GuardStaged) : t.GuardStaged := by
  cases c with
  | tickEdge => exact guardStaged_of_done he (State.GuardStaged.ite hs (runEdge_guardStaged s hs))
  | guardBandBegin => exact guardStaged_of_done he (State.GuardStaged.ite hs (runGuard_guardStaged s hs))
  | hostCommitCutoff => exact guardStaged_of_done he (State.GuardStaged.ite hs (runCutoff_guardStaged hs))
  | dispatchAdmit p =>
    exact guardStaged_of_done he (.ite hs (.ite (dispatch_guardStaged hs p)
      (.ite (dispatch_guardStaged (nextCycle_guardStaged hs) p) hs)))
  | streamTransferIssue n =>
    exact guardStaged_of_done he (.ite (streamIssue_guardStaged hs n)
      (.ite (streamIssue_guardStaged (nextCycle_guardStaged hs) n) hs))
  | railsOff => exact guardStaged_of_done he (.ite hs (powerOff_guardStaged _))
  | powerOn b =>
    exact guardStaged_of_done he (.ite hs (.ite (powerOff_guardStaged s)
      (.ite (recov_guardStaged _ 1 2 (powered_guardStaged s b)) (boot4_guardStaged _ b (powered_guardStaged s b)))))
  | _ =>
    obtain ⟨u, hu, hframe⟩ := exec_runsOnly _ s
    obtain rfl : u = t := by rw [hu] at he; exact Host.Outcome.next.inj he
    exact hframe.guardStaged rfl rfl hs

/-! ## The statements about the block as a whole -/

/-- Settles O1: by the definition of a step. -/
theorem stepRunsTheFrontCommand : Obligations.StepRunsTheFrontCommand := fun _ _ _ => rfl

/-- Settles O2: without a command a step is `State.idle`, and before the cutoff that is one cycle of the clock. -/
theorem emptyQueueLetsOneCyclePass : Obligations.EmptyQueueLetsOneCyclePass := by
  refine ⟨fun s hp hoff => ?_, fun s hp hon hearly hcyc => ⟨s.idle, step_of_empty hp, idle_early s hon hearly hcyc⟩⟩
  rw [step_of_empty hp]
  unfold State.idle
  rw [hoff]
  rfl

/-- Settles O5: every map of the reset state is empty but for the registers, and nothing is staged in its early stage. -/
theorem resetHoldsTheInvariant : Obligations.ResetHoldsTheInvariant :=
  ⟨⟨by decide, by decide, by decide, by decide, by decide, by decide, by decide, by decide, by decide, by decide, by decide,
    by decide, List.Pairwise.nil⟩, by unfold State.GuardStaged; decide⟩

/-- Settles O3: what every command keeps, and that each but `POWER_ON` waits for power. -/
theorem everyCommandAnswers : Obligations.EveryCommandAnswers := by
  refine ⟨fun c s => ?_, fun c s hoff hc => exec_off hoff c hc⟩
  obtain ⟨t, ht, hk⟩ := exec_runs c s
  exact ⟨t, ht, hk.pending, hk.out, hk.free⟩

/-- Settles O6: the frames of the commands. -/
theorem commandsChangeOnlyTheirParts : Obligations.CommandsChangeOnlyTheirParts := exec_runsOnly

/-- Settles O4: a step is a cycle of the clock or a command, and either keeps both halves of the invariant. -/
theorem everyStepKeepsTheInvariant : Obligations.EveryStepKeepsTheInvariant := by
  intro s t ⟨hcanon, hstaged⟩ hstep
  cases hp : s.pending with
  | nil =>
    obtain rfl : s.idle = t := by rw [step_of_empty hp] at hstep; exact Host.Outcome.next.inj hstep
    exact ⟨(State.idle_keeps (.refl s)).canon hcanon, idle_guardStaged s hstaged⟩
  | cons c rest =>
    have hexec : exec c { s with pending := rest } = .next t := by rw [← hstep]; unfold step; rw [hp]
    obtain ⟨u, hu, hk⟩ := exec_runs c { s with pending := rest }
    obtain rfl : u = t := by rw [hu] at hexec; exact Host.Outcome.next.inj hexec
    exact ⟨hk.canon (canon_popped hcanon rest), exec_keeps_guardStaged hu hstaged⟩

end Sys2Proof.Machine

/-! PROOFS. The clock of a serving tick (02 R39, R43): what the edge, the guard band and the cutoff leave of it, and what the
cutoff does with the runs that write host memory. -/

namespace Sys2Proof.Machine
open Sys2Proof

/-! ## The edge -/

/-- The edge of a tick whose boundary work is staged opens the next one at cycle 0. -/
theorem runEdge_opens {s : State} (h : s.GuardStaged) :
    s.runEdge.clk.cyc = 0 ∧ s.runEdge.clk.stage = .early ∧ s.runEdge.staged = none ∧
      s.runEdge.clk.len = 1300 * s.runEdge.clk.period := by
  unfold State.runEdge
  extract_lets t
  obtain ⟨k, hk⟩ := tryRealign_clk s.runGuard
  have hguard : t.clk.stage = .guard := by rw [show t.clk = _ from hk]; exact runGuard_stage s
  have hstaged : (t.toCycle t.clk.len).staged.isSome = true := by
    rw [toCycle_staged]
    exact (tryRealign_guardStaged _ (runGuard_guardStaged s h)).mp hguard
  obtain ⟨x, hx⟩ := Option.isSome_iff_exists.mp hstaged
  obtain ⟨hclk, hnone⟩ := edgeWork_clk_staged _ x hx
  obtain ⟨p, hp⟩ := (nextTick_clk_staged (t.toCycle t.clk.len) x).1
  rw [hclk, hp]
  exact ⟨rfl, rfl, hnone, rfl⟩

theorem tickEdge_exec {s : State} (h : s.on = true) : exec .tickEdge s = .next s.runEdge.endStep := by
  show done (if !s.on then s else s.runEdge) = _
  rw [h]
  rfl

/-- Settles O8: the guard band has staged the work of the edge, which makes the next tick visible. -/
theorem tickEdgeBeginsTheNextTick : Obligations.TickEdgeBeginsTheNextTick := by
  intro s hon hs
  obtain ⟨hcyc, hstage, hnone, hlen⟩ := runEdge_opens hs
  exact ⟨_, tickEdge_exec hon, runEdge_tick hs, hcyc, hstage, hnone, hlen⟩

/-! ## The guard band -/

/-- The cutoff lies before the guard band. -/
theorem cutoff_le_G (s : State) : s.cutoff ≤ s.G := Nat.sub_le _ _

theorem runGuard_clk {s : State} (h : s.clk.stage ≠ .guard) :
    s.runGuard.clk.cyc = max s.clk.cyc s.G ∧ s.runGuard.clk.period = s.clk.period ∧ s.runGuard.staged.isSome = true := by
  unfold State.runGuard
  extract_lets t
  have hclk : t.clk = _ := runCutoff_clk s
  have hperiod : t.clk.period = s.clk.period := by rw [hclk]; split <;> rfl
  have hstage : t.clk.stage = .cut := by
    rw [hclk]
    split
    · rfl
    · next hearly => cases hst : s.clk.stage <;> simp_all
  have hcyc : max t.clk.cyc s.G = max s.clk.cyc s.G := by
    have := cutoff_le_G s
    rw [hclk]
    split
    · show max (max s.clk.cyc s.cutoff) s.G = _
      omega
    · rfl
  have hG : t.G = s.G := congrArg gOf hperiod
  rw [if_pos hstage]
  obtain ⟨k, hk⟩ := guardWork_clk (t.toCycle t.G)
  rw [hk, toCycle_clk]
  exact ⟨(congrArg (max t.clk.cyc) hG).trans hcyc, hperiod, guardWork_staged _⟩

/-- Past cycle G no command is admitted (02 R43). -/
theorem dispatchAdmit_of_guard {s : State} (h : s.G ≤ s.clk.cyc) (p : Nat) : exec (.dispatchAdmit p) s = .next s.endStep := by
  refine done_of_eq ?_
  rw [if_pos (by simp [h])]

/-- Settles O9: from before the guard band the clock reaches cycle G, where the boundary work is staged. -/
theorem guardBandStagesTheBoundaryWork : Obligations.GuardBandStagesTheBoundaryWork := by
  intro s hon hstage
  obtain ⟨hcyc, hperiod, hstaged⟩ := runGuard_clk hstage
  refine ⟨s.runGuard.endStep, ?_, runGuard_stage s, hstaged, runGuard_tick s, hcyc, fun p => ?_⟩
  · show done (if !s.on then s else s.runGuard) = _
    rw [hon]
    rfl
  · refine dispatchAdmit_of_guard (s := s.runGuard.endStep) ?_ p
    show gOf s.runGuard.clk.period ≤ s.runGuard.clk.cyc
    rw [hperiod, hcyc]
    exact Nat.le_max_right _ _

/-! ## The cutoff -/

/-- A key of a map after a write is the key written or one from before. -/
theorem Sparse.mem_keys_put {α : Type} [DecidableEq α] {d : Nat → α} {k j : Nat} {v : α} :
    ∀ {m : List (Nat × α)}, j ∈ (Sparse.put d m k v).map Prod.fst → j = k ∨ j ∈ m.map Prod.fst
  | [], h => by
    unfold Sparse.put at h
    split at h <;> simp_all
  | (x, w) :: t, h => by
    have ih := Sparse.mem_keys_put (d := d) (k := k) (j := j) (v := v) (m := t)
    unfold Sparse.put at h
    split at h
    · split at h <;> simp_all
    · split at h
      · split at h <;> simp_all
      · simp only [List.map_cons, List.mem_cons] at h ⊢
        rcases h with h | h
        · exact .inr (.inl h)
        · rcases ih h with e | e
          · exact .inl e
          · exact .inr (.inr e)

/-- A command's record is found under its number after a replacement, with the slot that the replacement has. -/
theorem cmd?_setCmd (s : State) (e : Cmd) (id : Nat) :
    (s.setCmd e).cmd? id = (s.cmd? id).map (fun d => if d.id = e.id then e else d) := by
  unfold State.cmd? State.setCmd
  rw [List.find?_map]
  congr 2
  funext d
  show (_ == id) = _
  by_cases h : d.id = e.id <;> simp [h]

/-- The bytes of a host-writing command leave for the host or for the fabric (05 R125; 12 R385): its commit phase without the
run's own note. -/
def State.releaseWork (s : State) (d : Cmd) (w : RunWork) : State :=
  let num := s.gfe.nextId + 1
  let s1 := { s with gfe := { s.gfe with nextId := num },
                     host := { s.host with staged := s.host.staged.filter (fun x => x.1 != d.id) } }
  match (s.chan d.chan).kind, (s.extra d.id).origin with
  | .fabric, some o => (match w.host with | (_, bs) :: _ => s1.releaseFabric d o bs | [] => s1)
  | .fabric, none => s1
  | .host, _ => { s1 with host := { s1.host with
      posted := s1.host.posted ++ w.host.flatMap (fun (x : Nat × List Byte) => postedOf num d.chan x.1 x.2) } }

section
variable (s : State) (d : Cmd) (o : Origin) (bs : List Byte)

@[simp] theorem releaseFabric_clus : (s.releaseFabric d o bs).clus = s.clus :=
  (State.releaseFabric_only (.refl _) (.refl s) d o bs).use .clus rfl

@[simp] theorem releaseFabric_gfe : (s.releaseFabric d o bs).gfe = s.gfe :=
  (State.releaseFabric_only (.refl _) (.refl s) d o bs).use .gfe rfl

@[simp] theorem releaseFabric_host : (s.releaseFabric d o bs).host = s.host :=
  (State.releaseFabric_only (.refl _) (.refl s) d o bs).use .host rfl

end

/-- Releasing bytes leaves the clusters and the commands, and takes the command's bytes out of the staging. -/
theorem releaseWork_parts (s : State) (d : Cmd) (w : RunWork) :
    (s.releaseWork d w).clus = s.clus ∧ (s.releaseWork d w).gfe.cmds = s.gfe.cmds ∧
      (s.releaseWork d w).host.staged = s.host.staged.filter (fun x => x.1 != d.id) := by
  unfold State.releaseWork
  dsimp only
  split
  · split
    · simp
    · exact ⟨rfl, rfl, rfl⟩
  · exact ⟨rfl, rfl, rfl⟩
  · exact ⟨rfl, rfl, rfl⟩

theorem releaseWork_canon {s : State} (h : s.Canon) (d : Cmd) (w : RunWork) : (s.releaseWork d w).Canon := by
  have hx : State.Canon { s with gfe := { s.gfe with nextId := s.gfe.nextId + 1 },
                                 host := { s.host with staged := s.host.staged.filter (fun x => x.1 != d.id) } } :=
    canon_gfe_host h _ _ rfl
  unfold State.releaseWork
  dsimp only
  split
  · split
    · exact (State.releaseFabric_keeps (.refl _) _ _ _).canon hx
    · exact hx
  · exact hx
  · exact canon_gfe_host h _ _ rfl

/-- A run begins its commit phase: its bytes are released and its command awaits the flush. -/
def State.commitRun (s : State) (n : Nat) (r : Run) (d : Cmd) (w : RunWork) : State :=
  ((s.releaseWork d w).setRun n { r with commitAt := some s.clk.now }).setCmd { d with phase := .flush n false }

section
variable {s : State} {n : Nat} {r : Run} {d : Cmd} {w : RunWork} (hr : s.running n = some (r, d)) (hw : r.work = some w)
include hr hw

theorem beginCommit_due (hon : s.on = true) (hh : writesHost d.slot = true) (hca : r.commitAt = none)
    (hdue : r.due ≤ s.elapsed r) (hcut : s.clk.cyc ≤ s.cutoff) : s.beginCommit n = s.commitRun n r d w := by
  unfold State.beginCommit
  rw [hr]
  dsimp only
  split
  · next hnone => rw [hw] at hnone; cases hnone
  · next v hv =>
    obtain rfl : w = v := Option.some.inj (hw.symm.trans hv)
    rw [if_neg (by simp [hon, hh, hca, hdue, hcut])]
    rfl

theorem beginCommit_waits (hdue : s.elapsed r < r.due ∨ s.cutoff < s.clk.cyc) : s.beginCommit n = s := by
  unfold State.beginCommit
  simp only [hr, hw]
  rw [if_pos]
  rcases hdue with h | h <;> simp [h]

end

theorem commitRun_run {s : State} (hc : s.Canon) (n : Nat) (r : Run) (d : Cmd) (w : RunWork) :
    ((s.commitRun n r d w).clu n).run = some { r with commitAt := some s.clk.now } :=
  setRun_run (releaseWork_canon hc d w) n _

/-- The other clusters run after a commit phase has begun what they ran before. -/
theorem running_commitRun_other {s : State} {n m : Nat} (hm : m ≠ n) {r e : Run} {d g : Cmd} {w : RunWork}
    (hd : s.cmd? r.cmd = some d) (h : (s.commitRun n r d w).running m = some (e, g)) :
    ∃ f, s.running m = some (e, f) ∧ f.slot = g.slot := by
  obtain ⟨hclus, hcmds, -⟩ := releaseWork_parts s d w
  obtain ⟨hrun, hcmd⟩ := running_run h
  have hclu : (s.commitRun n r d w).clu m = s.clu m :=
    (State.clu_setClu_other (s.releaseWork d w) hm _).trans (clu_of_clus hclus m)
  rw [hclu] at hrun
  have hfind : ((s.releaseWork d w).setRun n { r with commitAt := some s.clk.now }).cmd? e.cmd = s.cmd? e.cmd :=
    congrArg (fun l => l.find? (fun c => c.id == e.cmd)) hcmds
  rw [State.commitRun, cmd?_setCmd, hfind] at hcmd
  obtain ⟨f, hf, hg⟩ := Option.map_eq_some_iff.mp hcmd
  refine ⟨f, running_of hrun hf, ?_⟩
  split at hg
  · next hid =>
    have hid' : e.cmd = r.cmd := by rw [← cmd_id hf, ← cmd_id hd]; exact hid
    rw [hid', hd] at hf
    cases hf
    rw [← hg]
  · exact congrArg Cmd.slot hg

/-- What `inWork` lists. -/
theorem mem_inWork {s : State} {p : Cmd → Bool} {n : Nat} : n ∈ s.inWork p ↔
    n ∈ s.clus.map Prod.fst ∧ ∃ r d, s.running n = some (r, d) ∧ r.commitAt = none ∧ p d = true := by
  unfold State.inWork
  rw [List.mem_filter]
  refine and_congr_right fun _ => ?_
  cases h : s.running n with
  | none => simp
  | some x =>
    obtain ⟨r, d⟩ := x
    show (r.commitAt.isNone && p d) = true ↔ _
    rw [Bool.and_eq_true, Option.isNone_iff_eq_none]
    constructor
    · rintro ⟨hr, hd⟩
      exact ⟨r, d, rfl, hr, hd⟩
    · rintro ⟨r', d', he, hr, hd⟩
      cases he
      exact ⟨hr, hd⟩

/-- Once the one host writer in device work has begun its commit phase, none is left. -/
theorem inWork_commitRun {s : State} {n : Nat} {r : Run} {d : Cmd} {w : RunWork}
    (h : s.inWork (fun e => writesHost e.slot) = [n]) (hc : s.Canon) (hr : s.running n = some (r, d)) :
    (s.commitRun n r d w).inWork (fun e => writesHost e.slot) = [] := by
  refine List.eq_nil_iff_forall_not_mem.mpr fun m hm => ?_
  obtain ⟨hkey, e, g, hrun, hnone, hwrites⟩ := mem_inWork.mp hm
  by_cases hmn : m = n
  · subst hmn
    rw [(running_run hrun).1.symm.trans (commitRun_run hc m r d w) |> Option.some.inj] at hnone
    cases hnone
  · obtain ⟨f, hf, hslot⟩ := running_commitRun_other hmn (running_run hr).2 hrun
    have hold : m ∈ s.clus.map Prod.fst := by
      rw [← (releaseWork_parts s d w).1]
      exact (Sparse.mem_keys_put hkey).resolve_left hmn
    have hmem : m ∈ s.inWork (fun e => writesHost e.slot) :=
      mem_inWork.mpr ⟨hold, e, f, hf, hnone, by rw [hslot]; exact hwrites⟩
    rw [h] at hmem
    exact hmn (List.mem_singleton.mp hmem)

theorem on_of_sb {s t : State} (h : t.sb = s.sb) : t.on = s.on := congrArg Sideband.powered h

theorem toCycle_sb (s : State) (c : Nat) : (s.toCycle c).sb = s.sb := (State.toCycle_only (.refl _) (.refl s) c).use .sb rfl

theorem cutoffWork_of_none {s : State} (h : s.inWork (fun e => writesHost e.slot) = []) : s.cutoffWork.clus = s.clus := by
  unfold State.cutoffWork State.lastCommits
  rw [h]
  simp only [List.foldl_nil, h]
  rfl

/-- One host writer alone whose device work is over at the cutoff: it begins its commit phase, and is not stopped. -/
theorem cutoffWork_commits {s : State} {n : Nat} {r : Run} {d : Cmd} {w : RunWork} (hc : s.Canon) (hon : s.on = true)
    (h : s.inWork (fun e => writesHost e.slot) = [n]) (hr : s.running n = some (r, d)) (hw : r.work = some w)
    (hdue : r.due ≤ s.elapsed r) (hcut : s.clk.cyc ≤ s.cutoff) :
    (s.cutoffWork.clu n).run = some { r with commitAt := some s.clk.now } := by
  obtain ⟨-, r', d', hr', hnone, hwrites⟩ := mem_inWork.mp (h ▸ List.mem_singleton_self n)
  rw [hr] at hr'
  cases hr'
  have hlast : s.lastCommits = s.commitRun n r d w := by
    unfold State.lastCommits
    rw [h, List.foldl_cons, List.foldl_nil, beginCommit_due hr hw hon hwrites hnone hdue hcut]
  unfold State.cutoffWork
  dsimp only
  rw [hlast, inWork_commitRun h hc hr, List.foldl_nil]
  exact commitRun_run hc n r d w

theorem hostCommitCutoff_exec {s : State} (h : s.on = true) (he : s.clk.stage = .early) :
    exec .hostCommitCutoff s = .next (s.toCycle s.cutoff).cutoffWork.endStep := by
  show done (if !s.on then s else s.runCutoff) = _
  rw [h, runCutoff_early s he]
  rfl

/-- Settles O10: the clock reaches the cutoff, where host writers whose device work is over begin their commit phase first and
those that are left are stopped. -/
theorem cutoffKillsHostWritersInDeviceWork : Obligations.CutoffKillsHostWritersInDeviceWork := by
  intro s hc hon hearly q
  have hexec : exec .hostCommitCutoff s = .next q.cutoffWork.endStep := hostCommitCutoff_exec hon hearly
  have hqc : q.Canon := (State.toCycle_keeps (.refl s) _).canon hc
  have hqclk : q.clk = _ := toCycle_clk s s.cutoff
  have hqcut : q.cutoff = s.cutoff := by unfold State.cutoff State.G; rw [hqclk]
  have hqon : q.on = true := (on_of_sb (toCycle_sb s s.cutoff)).trans hon
  clear_value q
  refine ⟨⟨_, hexec, ?_, fun hnone => (State.endStep_clus _).trans (cutoffWork_of_none hnone)⟩, fun n r d hone hr =>
    ⟨fun hwork hp => ?_, fun hwork hdue hcyc => ?_⟩⟩
  · rw [endStep_clk, cutoffWork_clk, hqclk]
  · obtain ⟨hrun, hover⟩ := overrun_clu q hqc n r d hr hp
    have hclus := clu_of_clus (cutoffWork_one q n r d hone hr hwork) n
    exact ⟨_, hexec, by rw [endStep_clu, hclus]; exact hrun, by rw [endStep_clu, hclus]; exact hover⟩
  · obtain ⟨w, hw⟩ := Option.isSome_iff_exists.mp hwork
    refine ⟨_, hexec, ?_⟩
    rw [endStep_clu]
    refine cutoffWork_commits hqc hqon hone hr hw hdue ?_
    rw [hqcut, hqclk]
    exact Nat.max_le.mpr ⟨hcyc, Nat.le_refl _⟩

end Sys2Proof.Machine

/-! PROOFS. Time synchronisation (02 R48, R52 to R54): the samples that a module takes of its source, and the master that it
follows. -/

namespace Sys2Proof.Machine
open Sys2Proof

/-! ## Samples -/

/-- A time message is noted without a change of the state, the samples, the discards or the source. -/
theorem TSync.take_parts (t : TSync) (m : PtpMsg) :
    (t.take m).state = t.state ∧ (t.take m).samples = t.samples ∧ (t.take m).discards = t.discards := by
  unfold TSync.take
  repeat' split
  all_goals exact ⟨rfl, rfl, rfl⟩

theorem ptpOffsetSample_ignored {s : State} {p : Nat} {m : PtpMsg}
    (h : s.ts.state = .free ∨ s.sourceFollowed = false ∨ s.ts.source ≠ some (s.tsDomain * 8 + p)) :
    exec (.ptpOffsetSample p m) s = .next s.endStep := by
  refine done_of_eq (if_pos ?_)
  rcases h with h | h | h <;> simp [h]

section
variable {s : State} {p : Nat} {m : PtpMsg} (hruns : s.ptpRuns = true) (hfree : s.ts.state ≠ .free)
  (hfollow : s.sourceFollowed = true) (hsource : s.ts.source = some (s.tsDomain * 8 + p))
include hruns hfree hfollow hsource

/-- A message of the source is noted, and the sample that it completes is filtered. -/
theorem ptpOffsetSample_taken : exec (.ptpOffsetSample p m) s =
    done ((s.ts.sampleOf m).elim ({ s with ts := s.ts.take m } : State) (State.offsetSample { s with ts := s.ts.take m })) := by
  refine congrArg done ((if_neg (by simp [hruns, hfree, hfollow, hsource])).trans ?_)
  cases s.ts.sampleOf m <;> rfl

end

/-- A sample beyond 1 ms of a locked module. -/
theorem offsetSample_far {s : State} {ns : Int} (hl : s.ts.state = .locked) (hs : s.ts.samples ≠ [])
    (hf : 1000000 < (ns - s.tsOffset).natAbs) : s.offsetSample ns =
      if s.ts.discards = 7 then s.enterTs .acquiring else { s with ts := { s.ts with discards := s.ts.discards + 1 } } :=
  if_pos ⟨hl, by simp [hs], hf⟩

/-- Any other sample is kept. -/
theorem offsetSample_near {s : State} {ns : Int}
    (h : s.ts.state ≠ .locked ∨ s.ts.samples = [] ∨ (ns - s.tsOffset).natAbs ≤ 1000000) : s.offsetSample ns =
      if s.ts.state = .holdover then State.enterTs { s with
        ts := { s.ts with samples := (ns :: s.ts.samples).take 8, sampleAt := s.clk.now, discards := 0 } } .acquiring
      else { s with ts := { s.ts with samples := (ns :: s.ts.samples).take 8, sampleAt := s.clk.now, discards := 0 } } := by
  refine if_neg ?_
  rintro ⟨hl, hs, hf⟩
  rcases h with h | h | h
  · exact h hl
  · simp [h] at hs
  · omega

/-! ## The source -/

theorem tsControl_source (s : State) : s.tsControl.ts.source = s.ts.source := by
  unfold State.tsControl
  repeat' split
  all_goals rfl

theorem selectSource_source (s : State) : s.selectSource.ts.source = (bestMaster s.masterList).map Prod.fst :=
  tsControl_source _

theorem fld_lt (s : State) (w : Win) (item off msb lsb : Nat) : s.fld w item off msb lsb < 2 ^ (msb + 1 - lsb) :=
  Nat.mod_lt _ (Nat.two_pow_pos _)

/-- The ports of PTP are eight. -/
theorem lt_of_ptpPort {s : State} {p : Nat} (h : s.ptpPort p = true) : p < 8 := by
  refine Nat.lt_of_not_le fun hge => ?_
  have hlt : s.fld .gfe 0 0x114 18 11 < 2 ^ p :=
    Nat.lt_of_lt_of_le (fld_lt s .gfe 0 0x114 18 11) (Nat.pow_le_pow_right (by decide) (by omega))
  rw [State.ptpPort, bitOf, Nat.testBit_lt_two_pow hlt] at h
  cases h

/-- An announcement on a port of the followed domain joins the masters that are ranked. -/
theorem masterList_announce {s : State} {p : Nat} (m : PtpMaster) (hp : s.ptpPort p = true) :
    State.masterList { s with ts := { s.ts with masters :=
      (s.ts.masters.filter (fun x => x.1 != s.tsDomain * 8 + p || x.2.sender != m.sender)) ++ [(s.tsDomain * 8 + p, m)] } } =
    s.masterList.filter (fun x => x.1 != s.tsDomain * 8 + p || x.2.sender != m.sender) ++ [(s.tsDomain * 8 + p, m)] := by
  have hlt := lt_of_ptpPort hp
  have hdiv : (s.tsDomain * 8 + p) / 8 = s.tsDomain := by omega
  have hmod : (s.tsDomain * 8 + p) % 8 = p := by omega
  show List.filter (fun x : Nat × PtpMaster => x.1 / 8 == s.tsDomain && s.ptpPort (x.1 % 8)) (_ ++ _) = _
  rw [List.filter_append, List.filter_cons_of_pos (by simp [hdiv, hmod, hp]), List.filter_nil]
  unfold State.masterList
  rw [List.filter_filter, List.filter_filter]
  simp only [Bool.and_comm]

/-- Forgetting a master takes it out of the masters that are ranked. -/
theorem masterList_forget (s : State) (x : Nat × PtpMaster) :
    State.masterList { s with ts := { s.ts with masters := s.ts.masters.filter (fun y => y != x) } } =
      s.masterList.filter (fun y => y != x) := by
  show List.filter (fun x : Nat × PtpMaster => x.1 / 8 == s.tsDomain && s.ptpPort (x.1 % 8)) _ = _
  unfold State.masterList
  rw [List.filter_filter, List.filter_filter]
  simp only [Bool.and_comm]

/-! ## The commands without a message of the source -/

theorem ptpSampleTimeout_early {s : State}
    (h : s.clk.now < s.ts.sampleAt + sampleTimeout ∨ s.ts.state = .free ∨ s.ts.state = .holdover) :
    exec .ptpSampleTimeout s = .next s.endStep := by
  refine done_of_eq ?_
  rcases h with h | h | h
  · exact if_pos (by simp [h])
  · simp [h]
  · simp [h]

section
variable {s : State} (hruns : s.ptpRuns = true)
include hruns

theorem ptpSampleTimeout_due (h : s.ts.sampleAt + sampleTimeout ≤ s.clk.now) (st : TsState)
    (hst : (s.ts.state = .locked ∧ st = .holdover) ∨ (s.ts.state = .acquiring ∧ st = .free)) :
    ∃ t, exec .ptpSampleTimeout s = .next t ∧ t.ts.state = st := by
  refine ⟨(s.enterTs st).endStep, congrArg done ((if_neg (by simp [hruns, h])).trans ?_), (enterTs_state s st).1⟩
  rcases hst with ⟨hs, rfl⟩ | ⟨hs, rfl⟩ <;> rw [hs]

theorem announceReceiptTimeout_exec : exec .announceReceiptTimeout s = done (State.selectSource { s with ts := { s.ts with
    masters := match bestMaster s.masterList with
      | some x => s.ts.masters.filter (fun y => y != x)
      | none => s.ts.masters } }) :=
  congrArg done (if_neg (by simp [hruns]))

theorem delayReqSend_sent {p : Nat} (hon : s.tsOn = true) (hp : s.ptpPort p = true) (hup : (s.port p).state = .up) :
    exec (.delayReqSend p) s = .next (State.endStep { s with
      ts := { s.ts with delayReqs := s.ts.delayReqs + 1 }, out := s.out ++ [.delayReq p] }) :=
  congrArg done (if_neg (by simp [hruns, hon, hp, hup]))

theorem ptpAnnounce_heard {p : Nat} (m : PtpMaster) (hp : s.ptpPort p = true) :
    exec (.ptpAnnounce p s.tsDomain m) s = done (State.selectSource { s with ts := { s.ts with masters :=
      (s.ts.masters.filter (fun x => x.1 != s.tsDomain * 8 + p || x.2.sender != m.sender)) ++ [(s.tsDomain * 8 + p, m)] } }) :=
  congrArg done (if_neg (by simp [hruns, hp]))

end

theorem delayReqSend_held {s : State} {p : Nat} (h : s.tsOn = false ∨ s.ptpPort p = false ∨ (s.port p).state ≠ .up) :
    exec (.delayReqSend p) s = .next s.endStep := by
  refine done_of_eq (if_pos ?_)
  rcases h with h | h | h <;> simp [h]

theorem ptpAnnounce_discarded {s : State} {p d : Nat} (m : PtpMaster) (h : d ≠ s.tsDomain ∨ s.ptpPort p = false) :
    exec (.ptpAnnounce p d m) s = .next s.endStep := by
  refine done_of_eq (if_pos ?_)
  rcases h with h | h <;> simp [h]

/-- A sample that a message of the source completes, as the outcome of the step. -/
theorem sample_outcomes {s : State} {p : Nat} {m : PtpMsg} {ns : Int}
    (hexec : exec (.ptpOffsetSample p m) s = done (State.offsetSample { s with ts := s.ts.take m } ns)) :
    (s.ts.state = .locked → s.ts.samples ≠ [] → 1000000 < (ns - s.tsOffset).natAbs →
      (s.ts.discards ≠ 7 → exec (.ptpOffsetSample p m) s =
        .next (State.endStep { s with ts := { s.ts.take m with discards := s.ts.discards + 1 } })) ∧
      (s.ts.discards = 7 →
        ∃ t, exec (.ptpOffsetSample p m) s = .next t ∧ t.ts.state = .acquiring ∧ t.ts.samples = s.ts.samples)) ∧
    ((s.ts.state = .acquiring ∨ (s.ts.state = .locked ∧ (s.ts.samples = [] ∨ (ns - s.tsOffset).natAbs ≤ 1000000))) →
      exec (.ptpOffsetSample p m) s = .next (State.endStep { s with
        ts := { s.ts.take m with samples := (ns :: s.ts.samples).take 8, sampleAt := s.clk.now, discards := 0 } })) ∧
    (s.ts.state = .holdover →
      ∃ t, exec (.ptpOffsetSample p m) s = .next t ∧ t.ts.state = .acquiring ∧ t.ts.samples = (ns :: s.ts.samples).take 8) := by
  obtain ⟨hstate, hsamples, hdiscards⟩ := s.ts.take_parts m
  have hoff : State.tsOffset { s with ts := s.ts.take m } = s.tsOffset := congrArg median hsamples
  rw [hexec]
  refine ⟨fun hl hs hf => ?_, fun h => ?_, fun h => ?_⟩
  · rw [offsetSample_far (hstate.trans hl) (by rw [hsamples]; exact hs) (by rw [hoff]; exact hf)]
    refine ⟨fun h7 => ?_, fun h7 => ?_⟩
    · rw [if_neg (by rw [hdiscards]; exact h7), hdiscards]
      rfl
    · rw [if_pos (hdiscards.trans h7)]
      exact ⟨_, rfl, (enterTs_state _ _).1, (enterTs_state _ _).2.1.trans hsamples⟩
  · have hnear : (s.ts.take m).state ≠ .locked ∨ (s.ts.take m).samples = [] ∨
        (ns - State.tsOffset { s with ts := s.ts.take m }).natAbs ≤ 1000000 := by
      rw [hstate, hsamples, hoff]
      rcases h with h | ⟨-, h⟩
      · exact .inl (by simp [h])
      · exact .inr h
    rw [offsetSample_near hnear, if_neg (by rw [hstate]; rcases h with h | ⟨h, -⟩ <;> simp [h]), hsamples]
    rfl
  · rw [offsetSample_near (.inl (by rw [hstate, h]; decide)), if_pos (hstate.trans h), hsamples]
    exact ⟨_, rfl, (enterTs_state _ _).1, (enterTs_state _ _).2.1⟩

/-- Settles O11: samples by their distance from the filtered offset, sources by the order of the masters. -/
theorem timeSynchronisationFollowsItsSource : Obligations.TimeSynchronisationFollowsItsSource := by
  refine ⟨fun s p m hruns hfree hfollow hsource => ⟨fun hnone => ?_, fun ns hns => sample_outcomes ?_⟩, fun s hruns =>
    ⟨fun hdue => ⟨fun hl => ptpSampleTimeout_due hruns hdue _ (.inl ⟨hl, rfl⟩),
        fun ha => ptpSampleTimeout_due hruns hdue _ (.inr ⟨ha, rfl⟩)⟩,
      ptpSampleTimeout_early, fun hnone => ?_, fun x hx => ?_,
      fun p => delayReqSend_sent hruns, fun p => delayReqSend_held, fun p m => ptpOffsetSample_ignored,
      fun p d m => ⟨ptpAnnounce_discarded m, ?_⟩⟩⟩
  · rw [ptpOffsetSample_taken hruns hfree hfollow hsource, hnone]
    rfl
  · rw [ptpOffsetSample_taken hruns hfree hfollow hsource, hns]
    rfl
  · refine ⟨_, announceReceiptTimeout_exec hruns, ?_⟩
    rw [State.endStep_ts, selectSource_source, hnone]
    exact congrArg (Option.map Prod.fst) hnone
  · refine ⟨_, announceReceiptTimeout_exec hruns, ?_⟩
    rw [State.endStep_ts, selectSource_source, hx]
    exact congrArg (fun l => (bestMaster l).map Prod.fst) (masterList_forget s x)
  · rintro rfl hp
    refine ⟨_, ptpAnnounce_heard hruns m hp, ?_⟩
    rw [State.endStep_ts, selectSource_source, masterList_announce m hp]

end Sys2Proof.Machine

/-! PROOFS. The life of a run on a cluster (02 R34, R36; 05 R124, R125; 12 R385; 14 R428): how it starts or is deferred, how it
flips, and how a host write begins its commit phase. -/

namespace Sys2Proof.Machine
open Sys2Proof

/-! ## Start and deferral -/

section
variable {s : State} {n id charge : Nat} {rest : List (Nat × Nat)} {d : Cmd} (hon : s.on = true)
  (hq : (s.clu n).queue = (id, charge) :: rest) (hr : (s.clu n).run = none) (hG : s.clk.cyc < s.G) (hd : s.cmd? id = some d)
include hon hq hr hG

include hd in
theorem commandStart_fits (h : s.clk.cyc + (s.startAt n - s.clk.now) + charge ≤ s.limitAt n) :
    exec (.commandStart n) s = .next (s.startRun n d charge).endStep := by
  show execCommandStart n s = _
  unfold execCommandStart
  simp only [hq, hon, hr, hd]
  rw [if_neg (by simp [hG]), if_neg (by omega)]
  rfl

theorem commandStart_deferred (h : s.limitAt n < s.clk.cyc + (s.startAt n - s.clk.now) + charge) :
    exec (.commandStart n) s = .next (s.defer n id).endStep := by
  show execCommandStart n s = _
  unfold execCommandStart
  simp only [hq, hon, hr]
  rw [if_neg (by simp [hG]), if_pos h]
  rfl

end

/-- The run that a start makes. -/
theorem startRun_clu {s : State} (hc : s.Canon) (n : Nat) (d : Cmd) (charge : Nat) :
    ∃ r, (s.startRun n d charge).clu n = { s.clu n with queue := (s.clu n).queue.drop 1, run := some r } ∧ r.cmd = d.id ∧
      r.charge = charge ∧ r.budget = (if slotOp d.slot = foldOp then charge else slotBudget d.slot) ∧
      r.startNow = s.startAt n ∧ r.prepared = false ∧ r.commitAt = none := by
  unfold State.startRun
  extract_lets c r e s1
  refine ⟨r, ?_, rfl, rfl, rfl, rfl, rfl, rfl⟩
  rw [clu_of_clus ((takeSeqs_clus _ e).trans (captureSr_clus s1 e n))]
  exact State.clu_setClu_self hc n _

/-- A deferral of a command that is no run of a pair: it leaves the queue and waits to be dispatched again. -/
theorem defer_single {s : State} (hc : s.Canon) {n id : Nat} {d : Cmd} (hd : s.cmd? id = some d) (hp : d.paired = false) :
    (s.defer n id).clu n = { s.clu n with
      queue := (s.clu n).queue.filter (fun x => x.1 != id), deferrals := satAdd 16 (s.clu n).deferrals 1 } ∧
    (s.defer n id).gfe.cmds = s.gfe.cmds.map (fun e => if e.id = d.id then { d with phase := d.backPhase, accTick := s.tickN } else e) := by
  have hself := State.clu_setClu_self hc n { s.clu n with deferrals := satAdd 16 (s.clu n).deferrals 1 }
  have hc1 := (State.setClu_keeps (Keeps.refl s) n { s.clu n with deferrals := satAdd 16 (s.clu n).deferrals 1 }).canon hc
  unfold State.defer
  rw [hd]
  dsimp only
  rw [if_neg (by simp [hp])]
  refine ⟨?_, rfl⟩
  refine (State.clu_setClu_self hc1 n _).trans ?_
  rw [hself]

/-- Settles O13: the head of the queue starts or is deferred by the limit. -/
theorem commandStartRunsOrDefers : Obligations.CommandStartRunsOrDefers := by
  intro s n id charge rest d hc hon hq hr hG hd
  refine ⟨fun h => ?_, fun h hp => ?_⟩
  · obtain ⟨r, hclu, hcmd, hcharge, hbudget, hstart, hprep, hcommit⟩ := startRun_clu hc n d charge
    refine ⟨_, r, commandStart_fits hon hq hr hG hd h, ?_, ?_, hcmd, hcharge, hbudget, hstart, hprep, hcommit⟩ <;>
      rw [endStep_clu, hclu]
    rw [hq]
    rfl
  · obtain ⟨hclu, hcmds⟩ := defer_single hc (n := n) hd hp
    refine ⟨_, commandStart_deferred hon hq hr hG h, ?_, ?_, ?_, hcmds⟩ <;> rw [endStep_clu, hclu]
    exact hr

/-! ## Flip -/

theorem commandFlip_exec {s : State} (hon : s.on = true) (n : Nat) :
    exec (.commandFlip n) s = .next ((s.runFold n).flip n).endStep := by
  show done (if !s.on then s else _) = _
  rw [hon]
  rfl

theorem cmd?_of_cmds {s t : State} (h : t.gfe.cmds = s.gfe.cmds) (id : Nat) : t.cmd? id = s.cmd? id :=
  congrArg (List.find? (fun c : Cmd => c.id == id)) h

/-- The cluster of a run that has flipped without a pair. -/
theorem flip_clu {s : State} (hc : s.Canon) {n : Nat} {r : Run} {d : Cmd} {w : RunWork} (h : s.flipReady n = some (r, d, w))
    (hp : d.paired = false) : (s.flip n).clu n =
      { s.clu n with run := none, used := (s.clu n).used + (s.elapsed r + 1), freeAt := r.startNow + (s.elapsed r + 1) } := by
  have hparts := commitWork_parts s d w
  have hclus := hparts.use .clus rfl
  have hr := running_run (flipReady_running h)
  have hrun : (s.commitWork d w).1.running n = some (r, d) :=
    running_of (by rw [clu_of_clus hclus]; exact hr.1) ((cmd?_of_cmds (commitWork_cmds s d w) _).trans hr.2)
  have hcanon := (State.commitWork_keeps (.refl s) d w).canon hc
  rw [flip_unpaired s n r d w h hp, clu_of_clus (afterFlip_clus _ d w _)]
  show State.clu (State.leaveRun _ n _ false) n = _
  rw [clu_of_clus (leaveRun_clus _ n _ false r d hrun), State.clu_setClu_self hcanon, clu_of_clus hclus]

/-- Every shadow tile of a run that flips is the home of its tile. -/
theorem flip_homes {s : State} {n : Nat} {r : Run} {d : Cmd} {w : RunWork} (h : s.flipReady n = some (r, d, w))
    (hp : d.paired = false) (hm : s.host.memWait = []) (hnodup : (w.shadows.map (fun h => (h.obj, h.tile))).Nodup)
    (halive : ∀ h ∈ w.shadows, ∃ o, s.obj? h.obj = some o ∧ o.freed = false) :
    ∀ h ∈ w.shadows, (s.flip n).homeOf h.obj h.tile = some h.fid := by
  intro x hx
  let left : State := ((s.commitWork d w).1.leaveRun n (s.elapsed r + 1) false).noteClu d.id n
  have hmem : left.host.memWait = [] :=
    ((State.leaveRun_only (.refl _) (.refl _) n _ false).use .memWait rfl).trans
      (((commitWork_parts s d w).use .memWait rfl).trans hm)
  have hleft : ObjectsKept (s.flipAll w.shadows) left :=
    (commitWork_kept s d w).objs ((State.leaveRun_only (.refl _) (.refl _) n _ false).use .objs rfl)
  rw [flip_unpaired s n r d w h hp, (hleft.trans (afterFlip_kept left hmem d w _)).home (flipAll_alive _ _ (halive x hx))]
  exact flipAll_homes _ s hnodup halive x hx

/-- A run of a pair keeps its result when it flips. -/
theorem flip_paired {s : State} (hc : s.Canon) {n : Nat} {r : Run} {d : Cmd} {w : RunWork}
    (h : s.flipReady n = some (r, d, w)) (hp : d.paired = true) :
    ∃ e m, ((s.flip n).clu n).run = none ∧ (s.flip n).cmd? d.id = some e ∧ d.more = some m ∧
      e.more = some (m.put n (fun p => { p with
        done := true, cycles := s.elapsed r + 1, status := w.status, detailA := w.detailA, detailB := w.detailB, work := some w })) := by
  have hr := flipReady_running h
  cases hm : d.more with
  | none => simp [Cmd.paired, hm] at hp
  | some m =>
    have hd : s.cmd? d.id = some d := by rw [cmd_id (running_run hr).2]; exact (running_run hr).2
    have hleft : (s.leaveRun n (s.elapsed r + 1) false).cmd? d.id = some d :=
      (cmd?_of_cmds (congrArg Gfe.cmds ((State.leaveRun_only (.refl _) (.refl s) n _ false).use .gfe rfl)) _).trans hd
    unfold State.flip
    simp only [h, hm, hp]
    refine ⟨_, m, ?_, cmd_setCmd hleft rfl, rfl, rfl⟩
    show (State.clu (State.leaveRun s n _ false) n).run = none
    rw [clu_of_clus (leaveRun_clus s n _ false r d hr), State.clu_setClu_self hc]

/-- Settles O14: the flip of a run that is ready, with and without a repeat pair. -/
theorem flipMakesOutputTilesHomes : Obligations.FlipMakesOutputTilesHomes := by
  intro s n r d w hon h q
  have hexec := commandFlip_exec hon n
  have hcq : s.Canon → q.Canon := (State.runFold_keeps (.refl s) n).canon
  have hmq : q.host.memWait = s.host.memWait := (State.runFold_only (.refl _) (.refl s) n).use .memWait rfl
  refine ⟨fun hc hp => ?_, fun hc hp hm hnodup halive => ?_, fun hc hp => ?_⟩
  · refine ⟨_, hexec, ?_⟩
    rw [endStep_clu, flip_clu (hcq hc) h hp]
    exact ⟨rfl, rfl, rfl⟩
  · exact ⟨_, hexec, flip_homes h hp (hmq.trans hm) hnodup halive⟩
  · obtain ⟨e, m, hrun, he, hmore, hput⟩ := flip_paired (hcq hc) h hp
    exact ⟨_, e, m, hexec, hrun, he, hmore, hput⟩

/-! ## Commit phase -/

/-- On a HOST channel the bytes of a run join the posted writes, in order. -/
theorem releaseWork_posted {s : State} {d : Cmd} (w : RunWork) (h : (s.chan d.chan).kind = .host) :
    (s.releaseWork d w).host.posted =
      s.host.posted ++ w.host.flatMap (fun x => postedOf (s.gfe.nextId + 1) d.chan x.1 x.2) := by
  unfold State.releaseWork
  rw [h]

/-- Settles O15: the commit phase of a `HOST_WRITE` once its device work is over, up to the cutoff. -/
theorem commitPhasePostsTheHostWrite : Obligations.CommitPhasePostsTheHostWrite := by
  intro s n r d w hc hon hr hw hop hnone
  refine ⟨fun hdue hcut => ?_, fun h => done_of_eq (beginCommit_waits hr hw h)⟩
  have hexec : exec (.commitPhaseBegin n) s = .next (s.commitRun n r d w).endStep :=
    congrArg done (beginCommit_due hr hw hon (by simp [writesHost, hop]) hnone hdue hcut)
  exact ⟨_, hexec, commitRun_run hc n r d w, (releaseWork_parts s d w).2.2, releaseWork_posted w⟩

end Sys2Proof.Machine

/-! PROOFS. Runs that find a condition (05 R522; 09 R265, R267; 14 R421, R425): which of them stop, and what a stop leaves of the
cluster. -/

namespace Sys2Proof.Machine
open Sys2Proof

/-- A run that stops at a condition leaves its cluster, with the cycles that it took. -/
theorem stopFound_clu {s : State} (hc : s.Canon) {n : Nat} {r : Run} {d : Cmd} (hr : s.running n = some (r, d))
    (x : Nat × Nat × Nat) : (s.stopFound n d x).clu n =
      { s.clu n with run := none, used := (s.clu n).used + (s.elapsed r + 1), freeAt := r.startNow + (s.elapsed r + 1) } := by
  have stopped (u : State) (hu : u.Canon) (hclus : u.clus = s.clus) (hgfe : u.gfe = s.gfe) (hclk : u.clk = s.clk) :
      (u.stopWith n x.1 x.2.1 x.2.2).clu n =
        { s.clu n with run := none, used := (s.clu n).used + (s.elapsed r + 1), freeAt := r.startNow + (s.elapsed r + 1) } := by
    have hru : u.running n = some (r, d) := (running_congr hclus hgfe n).trans hr
    have helapsed : u.elapsed r = s.elapsed r := congrArg (fun c : Clock => c.now - r.startNow) hclk
    rw [clu_of_clus (stopWith_clus u n _ _ _ r d hru), stopRun_clu u hu n _ _ r d hru, clu_of_clus hclus, helapsed]
  unfold State.stopFound
  split
  · exact stopped _ ((State.poisonIfBad_keeps (.refl s) _ _ _).canon hc) (poisonIfBad_clus s d _ _) (poisonIfBad_gfe s d _ _)
      (poisonIfBad_clk s d _ _)
  · exact stopped s hc rfl rfl rfl

/-- A mismatch of the two datapaths is counted and stops the run. -/
theorem tblMismatch_stops {s : State} (hc : s.Canon) {n : Nat} {r : Run} {d : Cmd} (hr : s.running n = some (r, d)) :
    ((s.tblMismatch n).clu n).run = none ∧ (s.tblMismatch n).cnt n =
      { s.cnt n with tblMismatch := satAdd 16 (s.cnt n).tblMismatch 1 } := by
  unfold State.tblMismatch
  extract_lets k
  let counted := (s.setCnt n { k with tblMismatch := satAdd 16 k.tblMismatch 1 }).raise .clu n 0x1C4 1
  have hkeeps : Keeps s counted := State.raise_keeps (State.setCnt_keeps (.refl s) n _) .clu n 0x1C4 1
  have hrun : counted.running n = some (r, d) := (running_congr (raise_clus _ _ _ _ _) (raise_gfe _ _ _ _ _) n).trans hr
  refine ⟨trigger_run (hkeeps.canon hc) 1 hrun, ?_⟩
  rw [cnt_of ((trigger_cnts counted n 1).trans (raise_cnts _ _ _ _ _)), State.cnt_setCnt_self hc]

/-- What an observation may touch leaves the runs as they are. -/
theorem observe_running (s : State) (n : Nat) (d : Cmd) (f : RunFault) (m : Nat) :
    (s.observe n d f).running m = s.running m := by
  have h := State.observe_only (.refl _) (.refl s) n d f
  exact running_congr (h.use .clus rfl) (h.use .gfe rfl) m

section
variable {s : State} {n : Nat} {r : Run} {d : Cmd} (hon : s.on = true) (hr : s.running n = some (r, d))
include hr

theorem runFinds_committing (h : r.commitAt.isSome = true) (f : Option RunFault) :
    exec (.runFindsCondition n f) s = .next s.endStep := by
  refine done_of_eq ?_
  simp only [hr, h, Bool.or_true, if_true]

include hon

theorem runFinds_mismatch (h : r.commitAt = none) :
    exec (.runFindsCondition n (some .mismatch)) s = done (if s.twice n d then s.tblMismatch n else s) := by
  refine congrArg done ?_
  simp only [hr, hon, h, Option.isSome_none, Bool.not_true, Bool.or_self, Bool.false_eq_true, if_false]

theorem runFinds_production (h : r.commitAt = none) : exec (.runFindsCondition n (some .production)) s =
    done (if [0x30, 0x31, 0x38].contains (slotOp d.slot) then s else s.trigger n 3) := by
  refine congrArg done ?_
  simp only [hr, hon, h, Option.isSome_none, Bool.not_true, Bool.or_self, Bool.false_eq_true, if_false]

/-- The state in which a run's operands are checked: after what this read observes, if anything. -/
theorem runFinds_operands (h : r.commitAt = none) {f : Option RunFault} (hm : f ≠ some .mismatch) (hp : f ≠ some .production) :
    exec (.runFindsCondition n f) s = done (if r.work.isSome then s else
      let q := f.elim s (s.observe n d)
      (q.foundCond d).elim q (q.stopFound n d)) := by
  refine congrArg done ?_
  simp only [hr, hon, h, Option.isSome_none, Bool.not_true, Bool.or_self, Bool.false_eq_true, if_false]
  rcases f with _ | (_ | _ | _ | _)
  case some.mismatch => exact absurd rfl hm
  case some.production => exact absurd rfl hp
  all_goals
    dsimp only [Option.elim]
    split
    · rfl
    · split <;> simp_all

end

/-- Settles O16: by the kind of the condition, and by whether this read observes something first. -/
theorem runsStopAtConditions : Obligations.RunsStopAtConditions := by
  intro s n r d hc hon hr
  refine ⟨fun h f => runFinds_committing hr h f, fun h => ⟨fun x hw hx => ?_, fun hx => ?_, fun f hm hp hw => ?_,
    fun f hm hp hw => ?_, fun hop => ?_, fun hop => ?_, fun ht => ?_, fun ht => ?_⟩⟩
  · have hexec : exec (.runFindsCondition n none) s = .next (s.stopFound n d x).endStep := by
      rw [runFinds_operands hon hr h (by simp) (by simp), hw]
      simp only [Option.elim, hx]
      rfl
    refine ⟨_, hexec, ?_⟩
    rw [endStep_clu, stopFound_clu hc hr x]
    exact ⟨rfl, rfl⟩
  · rw [runFinds_operands hon hr h (by simp) (by simp)]
    rcases hx with hx | hx <;> simp only [hx, Option.elim, if_true, ite_self] <;> rfl
  · have hexec : exec (.runFindsCondition n (some f)) s = _ :=
      runFinds_operands hon hr h (fun e => hm (Option.some.inj e)) (fun e => hp (Option.some.inj e))
    rw [hw] at hexec
    refine ⟨fun hx => hexec.trans ?_, fun x hx => ⟨((s.observe n d f).stopFound n d x).endStep, hexec.trans ?_,
      stopFound_run ?_ ((observe_running s n d f n).trans hr) x⟩⟩
    · simp only [Option.elim, hx]
      rfl
    · simp only [Option.elim, hx]
      rfl
    · exact (State.observe_keeps (.refl s) n d f).canon hc
  · rw [runFinds_operands hon hr h (fun e => hm (Option.some.inj e)) (fun e => hp (Option.some.inj e)), hw]
    rfl
  · rw [runFinds_production hon hr h, hop]
    rfl
  · exact ⟨(s.trigger n 3).endStep, (runFinds_production hon hr h).trans (by rw [hop]; rfl), trigger_run hc 3 hr⟩
  · rw [runFinds_mismatch hon hr h, ht]
    rfl
  · obtain ⟨hrun, hcnt⟩ := tblMismatch_stops hc hr
    refine ⟨(s.tblMismatch n).endStep, (runFinds_mismatch hon hr h).trans (by rw [ht]; rfl), hrun, ?_⟩
    rw [endStep_cnt, hcnt]

end Sys2Proof.Machine

/-! PROOFS. Repeat pairs and fault counts (02 R37; 14 R428, R429): what a comparison of the runs of a pair does to the slots of
their clusters. -/

namespace Sys2Proof.Machine
open Sys2Proof

/-! ## Slots that become SUSPECT -/

/-- What making a slot SUSPECT does: nothing unless the slot is SERVING; else it marks the slot and queues or begins its test. -/
theorem makeSuspect_cases {s : State} (hc : s.Canon) (p : Nat) : s.makeSuspect p = s ∨
    ((s.pslot p).state = .serving ∧ ∃ (u : State) (t : Test), u.Canon ∧ u.pslots = (s.setSlotState p .suspect).pslots ∧
      (s.makeSuspect p = u.enterResidency t ∨ s.makeSuspect p = u.queueTest t)) := by
  unfold State.makeSuspect
  split
  · exact .inl rfl
  · next hserving =>
    extract_lets +onlyGivenNames n s1
    have hc1 : s1.Canon := (State.leaveServing_keeps (State.setPslot_keeps (.refl s) _ _) n).canon hc
    have hslots1 : s1.pslots = (s.setSlotState p .suspect).pslots := leaveServing_pslots _ n
    clear_value s1
    extract_lets +onlyGivenNames icnt s2
    have hc2 : s2.Canon := canon_integ_icnt hc1 _ _
    have hslots2 : s2.pslots = s1.pslots := rfl
    clear_value s2
    extract_lets +onlyGivenNames s3 t
    have hc3 : s3.Canon := (State.raise_keeps (State.faultLog_keeps (.refl s2) _ _ _ _ _ _ _ _) _ _ _ _).canon hc2
    have hslots3 : s3.pslots = s2.pslots := logRaise_pslots _ _ _ _ _ _ _ _ _ _ _ _ _
    have hslots := hslots3.trans (hslots2.trans hslots1)
    refine .inr ⟨Classical.not_not.mp hserving, s3, t, hc3, hslots, ?_⟩
    split
    · exact .inl rfl
    · exact .inr rfl

/-- Making a slot SUSPECT leaves the faults of every slot, and a SUSPECT slot SUSPECT. -/
theorem makeSuspect_keeps_slot {s : State} (hc : s.Canon) (p q : Nat) :
    ((s.makeSuspect p).pslot q).faults = (s.pslot q).faults ∧
      ((s.pslot q).state = .suspect → ((s.makeSuspect p).pslot q).state = .suspect) := by
  rcases makeSuspect_cases hc p with h | ⟨-, u, t, hu, hslots, h⟩
  · rw [h]
    exact ⟨rfl, id⟩
  · have hq : (u.pslot q).faults = (s.pslot q).faults ∧ ((s.pslot q).state = .suspect → (u.pslot q).state = .suspect) := by
      rw [pslot_of hslots, State.setSlotState, State.pslot_setPslot hc]
      split
      · next e => rw [e]; exact ⟨rfl, fun _ => rfl⟩
      · exact ⟨rfl, id⟩
    rcases h with h | h
    · rw [h]
      obtain ⟨hfaults, hstate⟩ := enterResidency_pslot u hu t q
      exact ⟨hfaults.trans hq.1, fun hs => hstate (hq.2 hs)⟩
    · rw [h]
      exact hq

/-- A fault of one slot leaves the faults of every other, and a SUSPECT slot SUSPECT. -/
theorem addFault_keeps_slot {s : State} (hc : s.Canon) (p q : Nat) :
    (q ≠ p → ((s.addFault p).pslot q).faults = (s.pslot q).faults) ∧
      ((s.pslot q).state = .suspect → ((s.addFault p).pslot q).state = .suspect) := by
  unfold State.addFault
  extract_lets r s1
  have hc1 : s1.Canon := (State.setPslot_keeps (.refl s) p _).canon hc
  have hother : q ≠ p → (s1.pslot q).faults = (s.pslot q).faults := fun hne => by rw [State.pslot_setPslot_other s hne]
  have hstate : (s.pslot q).state = .suspect → (s1.pslot q).state = .suspect := fun hs => by
    rw [State.pslot_setPslot hc]
    split
    · next e => subst e; exact hs
    · exact hs
  obtain ⟨hfaults, hsuspect⟩ := makeSuspect_keeps_slot hc1 p q
  split
  · exact ⟨fun hne => hfaults.trans (hother hne), fun hs => hsuspect (hstate hs)⟩
  · exact ⟨hother, hstate⟩

theorem addFault_clk (s : State) (p : Nat) : (s.addFault p).clk = s.clk :=
  (State.addFault_only (.refl _) (.refl s) p).use .clk rfl

theorem mismatch_clk (s : State) (d : Cmd) (m : RepeatPair) : (s.mismatch d m).clk = s.clk :=
  (State.mismatch_only (.refl _) (.refl s) d m).use .clk rfl

theorem mismatch_canon {s : State} (hc : s.Canon) (d : Cmd) (m : RepeatPair) : (s.mismatch d m).Canon :=
  (State.mismatch_keeps (.refl s) d m).canon hc

/-! ## Comparisons of a pair -/

/-- Whether a run of a pair has triggered; no run has not. -/
def triggered (r : Option PairRun) : Bool := r.elim false PairRun.trigger

theorem triggered_some {r : Option PairRun} {a : PairRun} {v : Bool} (ha : r = some a) (h : triggered r = v) : a.trigger = v := by
  rw [ha] at h
  exact h

section
variable {s : State} {d : Cmd} {m : RepeatPair}

/-- The second run triggered: the first cluster is judged, and where the third one did too, its slot has a fault. -/
theorem comparePair_second (h2 : triggered m.run2 = true) :
    s.comparePair d m = (s.mismatch d m).makeSuspect m.slot ∨
      ∃ b, s.comparePair d m = ((s.mismatch d m).makeSuspect m.slot).addFault (s.slotOf b) := by
  cases ha : m.run2 with
  | none => simp [ha, triggered] at h2
  | some a =>
    have ha2 := triggered_some ha h2
    unfold State.comparePair
    cases hb : m.run3 with
    | none => left; simp [ha, ha2]
    | some b =>
      cases hb3 : b.trigger with
      | false => left; simp [ha, ha2, hb3]
      | true => right; exact ⟨b, by simp [ha, ha2, hb3]⟩

/-- The runs disagree without a trigger: the first cluster is judged. -/
theorem comparePair_disagree {a b : PairRun} (ha : m.run2 = some a) (hb : m.run3 = some b) (h2 : triggered m.run2 = false)
    (h3 : triggered m.run3 = false) (h : s.agree d a b = false) : s.comparePair d m = (s.mismatch d m).makeSuspect m.slot := by
  unfold State.comparePair
  simp [ha, hb, triggered_some ha h2, triggered_some hb h3, h]

/-- The third run alone triggered after a second one: both slots have a fault. -/
theorem comparePair_third {a b : PairRun} (ha : m.run2 = some a) (hb : m.run3 = some b) (h2 : triggered m.run2 = false)
    (h3 : triggered m.run3 = true) : s.comparePair d m = ((s.mismatch d m).addFault m.slot).addFault (s.slotOf b) := by
  unfold State.comparePair
  simp [ha, hb, triggered_some ha h2, triggered_some hb h3]

/-- The third run triggered and there was no second one: its slot has a fault. -/
theorem comparePair_third_alone {b : PairRun} (ha : m.run2 = none) (hb : m.run3 = some b) (h3 : triggered m.run3 = true) :
    s.comparePair d m = (s.mismatch d m).addFault (s.slotOf b) := by
  unfold State.comparePair
  simp [ha, hb, triggered_some hb h3]

/-- The runs agree without a trigger, and the last one gave a result or failed. -/
theorem comparePair_agreed {p : PairRun} (hp : m.run3 = some p ∨ (m.run3 = none ∧ m.run2 = some p))
    (h2 : triggered m.run2 = false) (h3 : triggered m.run3 = false)
    (h : ∀ a b, m.run2 = some a → m.run3 = some b → s.agree d a b = true) : s.comparePair d m =
      if isFailure p.status && p.work.isNone then
        (State.endCmd ((((s.dropHeld m.run2).dropHeld m.run3).endView d m).noteClu d.id p.clu)
          { d with reruns := d.reruns + m.clus.length, more := none } p.status p.detailA p.detailB false).tidy
      else s.transient d m p (if m.run3.isSome then m.run2 else none) := by
  unfold State.comparePair
  rcases hp with hp | ⟨hn, hp⟩
  · cases ha : m.run2 with
    | none => simp [hp, triggered_some hp h3]
    | some a => simp [hp, triggered_some ha h2, triggered_some hp h3, h a p ha hp]
  · simp [hn, hp, triggered_some hp h2]

end

/-- Runs that agree count a fault of the first cluster, whose work flips. -/
theorem transient_faults {s : State} (hc : s.Canon) {d : Cmd} {m : RepeatPair} {p : PairRun} {w : RunWork} (hw : p.work = some w)
    (other : Option PairRun) :
    ((s.transient d m p other).pslot m.slot).faults = (s.pslot m.slot).faults ++ [s.clk.now] := by
  unfold State.transient
  rw [hw]
  dsimp -zeta only
  extract_lets e s1 x s2 icnt s3 s4
  have k1 : OnlyChanges [.reg, .frames, .host, .integ, .icnt, .out] s s1 := State.dropHeld_only (.refl _) (.refl s) other
  have k2 := commitWork_parts s1 e w
  have k3 : OnlyChanges [.reg, .gfe, .frames, .host, .integ, .icnt, .out] x.1 s2 :=
    (State.endView_only (.refl _) (.refl x.1) e m).trans (State.noteClu_only (within_of_all rfl) (.refl _) d.id p.clu)
  have hslots : s3.pslots = s.pslots := (k3.use .pslots rfl).trans ((k2.use .pslots rfl).trans (k1.use .pslots rfl))
  have hclk : s3.clk = s.clk := (k3.use .clk rfl).trans ((k2.use .clk rfl).trans (k1.use .clk rfl))
  have hc2 : s2.Canon := (State.noteClu_keeps (State.endView_keeps (State.commitWork_keeps (State.dropHeld_keeps (.refl s) other) e w) e m)
    d.id p.clu).canon hc
  have hc3 : s3.Canon := canon_integ_icnt hc2 _ _
  let logged := (s3.faultLog 1 m.slot m.cause (slotOp d.slot) x.2.2.1 x.2.2.2 0 0).raise .int 0 0x000 1
  have hlc : logged.Canon := (State.raise_keeps (State.faultLog_keeps (.refl s3) _ _ _ _ _ _ _ _) _ _ _ _).canon hc3
  have hlslot : logged.pslot m.slot = s.pslot m.slot := pslot_of ((logRaise_pslots s3 _ _ _ _ _ _ _ _ _ _ _ _).trans hslots) _
  have hlclk : logged.clk = s.clk :=
    (raise_clk _ _ _ _ _).trans (((State.faultLog_only (.refl _) (.refl s3) _ _ _ _ _ _ _ _).use .clk rfl).trans hclk)
  rw [pslot_of ((State.afterFlip_only (.refl _) (.refl s4) e w _).use .pslots rfl)]
  refine (addFault_faults logged hlc m.slot).trans ?_
  rw [hlslot, hlclk]

/-- A pair that ends with the failure of its run leaves the slots. -/
theorem endPair_pslots (s : State) (d e : Cmd) (m : RepeatPair) (n st a b : Nat) :
    (State.endCmd ((((s.dropHeld m.run2).dropHeld m.run3).endView d m).noteClu d.id n) e st a b false).tidy.pslots = s.pslots :=
  (State.tidy_only (.refl _) (.refl _)).use .pslots rfl |>.trans <|
  (State.endCmd_only (.refl _) (.refl _) e st a b false).use .pslots rfl |>.trans <|
  (State.noteClu_only (.refl _) (.refl _) d.id n).use .pslots rfl |>.trans <|
  (State.endView_only (.refl _) (.refl _) d m).use .pslots rfl |>.trans <|
  (State.dropHeld_only (.refl _) (.refl _) m.run3).use .pslots rfl |>.trans <|
  (State.dropHeld_only (.refl _) (.refl s) m.run2).use .pslots rfl

/-! ## The commands -/

section
variable {s : State} {id : Nat} {d : Cmd} {m : RepeatPair} (hd : s.cmd? id = some d) (hm : d.more = some m)
include hd hm

theorem repeatPairCompare_waits (h : d.paired = false ∨ m.runsDone = false ∨ s.G ≤ s.clk.cyc) :
    exec (.repeatPairCompare id) s = .next s.endStep := by
  refine done_of_eq ?_
  simp only [hd, hm]
  refine if_neg ?_
  rcases h with h | h | h <;> simp [h]

theorem repeatPairCompare_due (hon : s.on = true) (hp : d.paired = true) (hdone : m.runsDone = true) (hG : s.clk.cyc < s.G) :
    exec (.repeatPairCompare id) s = .next (s.comparePair d m).endStep := by
  refine congrArg done ?_
  simp only [hd, hm]
  exact if_pos (by simp [hon, hp, hdone, hG])

end

/-- Settles O17: each verdict on a pair by its triggers, and the counts by their age. -/
theorem repeatPairsJudgeTheFirstCluster : Obligations.RepeatPairsJudgeTheFirstCluster := by
  refine ⟨?_, fun s p hc hon => ?_⟩
  · intro s id d m hc hon hd hm t2 t3
    refine ⟨repeatPairCompare_waits hd hm, fun hp hdone hG => ?_⟩
    have hexec := repeatPairCompare_due hd hm hon hp hdone hG
    have hmc := mismatch_canon hc d m
    have hslot (q : Nat) : (s.mismatch d m).pslot q = s.pslot q := pslot_of (mismatch_pslots s d m) q
    have hnow : (s.mismatch d m).clk.now = s.clk.now := congrArg Clock.now (mismatch_clk s d m)
    have hjudged (h : (s.pslot m.slot).state = .serving) :
        (((s.mismatch d m).makeSuspect m.slot).pslot m.slot).state = .suspect :=
      makeSuspect_state _ hmc _ (by rw [hslot]; exact h)
    have hfault (q : Nat) : (((s.mismatch d m).addFault q).pslot q).faults = (s.pslot q).faults ++ [s.clk.now] := by
      rw [addFault_faults _ hmc, hslot, hnow]
    refine ⟨fun h2 hserving => ⟨_, hexec, ?_⟩, fun a b ha hb h2 h3 hag hserving => ⟨_, hexec, ?_⟩,
      fun a b ha hb h2 h3 hne => ⟨_, hexec, ?_⟩, fun b ha hb h3 => ⟨_, hexec, ?_⟩, fun q w hq h2 h3 hag hw => ⟨_, hexec, ?_⟩,
      fun q hq h2 h3 hag hw hfail => ⟨_, hexec, ?_⟩⟩ <;> rw [endStep_pslot]
    · rcases comparePair_second (s := s) (d := d) h2 with h | ⟨b, h⟩
      · rw [h]
        exact hjudged hserving
      · rw [h]
        exact (addFault_keeps_slot ((State.makeSuspect_keeps (.refl _) _).canon hmc) _ _).2 (hjudged hserving)
    · rw [comparePair_disagree ha hb h2 h3 hag]
      exact hjudged hserving
    · have hc1 := (State.addFault_keeps (.refl _) m.slot).canon hmc
      rw [comparePair_third ha hb h2 h3, (addFault_keeps_slot hc1 _ _).1 hne.symm, hfault, endStep_pslot, addFault_faults _ hc1,
        (addFault_keeps_slot hmc _ _).1 hne, hslot, addFault_clk, hnow]
      exact ⟨rfl, rfl⟩
    · rw [comparePair_third_alone ha hb h3]
      exact hfault _
    · rw [comparePair_agreed hq h2 h3 hag, if_neg (by simp [hw])]
      exact transient_faults hc hw _
    · rw [comparePair_agreed hq h2 h3 hag, if_pos (by simp [hw, hfail])]
      exact pslot_of (endPair_pslots s d _ m _ _ _ _) _
  · refine ⟨(s.setPslot p { s.pslot p with faults := s.recentFaults p }).endStep, ?_, ?_⟩
    · show done (if !s.on then s else _) = _
      rw [hon]
      rfl
    · rw [endStep_pslot, State.pslot_setPslot_self hc]

end Sys2Proof.Machine

/-! PROOFS. Comparisons inside a run (07 R190, R191, R197, R206; 08 R233, R239): blocks and groups with injections and glitches,
and the duplicate reducers of a pass. -/

namespace Sys2Proof.Machine
open Sys2Proof

/-! ## Blocks and groups -/

theorem setRun_cnt (s : State) (n m : Nat) (r : Run) : (s.setRun n r).cnt m = s.cnt m :=
  cnt_of ((State.setRun_only (.refl _) (.refl s) n r).use .cnts rfl) m

/-- The check as the comparison sees it: with the bits that an armed injection and a glitch invert. -/
def State.compared (s : State) (n : Nat) (arr : Bool) (c : Check) (g : Option Glitch) : Check :=
  let c1 := match s.injected n c with | some (i, l, b) => c.invert i l b | none => c
  match g with | some x => c1.invert (if arr then x.row else 0) x.lane x.bit | none => c1

theorem finishWork_run {s : State} (hc : s.Canon) {n : Nat} {r : Run} {d : Cmd} (hrun : s.running n = some (r, d))
    (outs : List OutTile) (w : RunWork) :
    ((s.finishWork n d outs w).clu n).run = none ∨ ∃ w', ((s.finishWork n d outs w).clu n).run = some { r with work := some w' } := by
  cases hplaced : (s.dropResv d.id n).placeOut d n outs with
  | none =>
    left
    unfold State.finishWork
    rw [hplaced]
    exact stopWith_run hc hrun _ _ _
  | some placed =>
    obtain ⟨shadows, u⟩ := placed
    obtain ⟨hwork, hcu, -⟩ := finishWork_ok (w := w) hc hplaced (running_run hrun).1
    exact .inr ⟨_, by rw [hwork]; exact setRun_run hcu n _⟩

/-- The drain of a product ends the run, or leaves it with the blocks that passed. -/
theorem drain_run {s : State} (hc : s.Canon) {n : Nat} {r : Run} {d : Cmd} (hrun : s.running n = some (r, d)) :
    ((s.drain n r d).clu n).run = none ∨
      ∃ e, ((s.drain n r d).clu n).run = some e ∧ e.passed = r.passed ∧ e.skipped = r.skipped := by
  obtain ⟨hclu, hcmd⟩ := running_run hrun
  unfold State.drain
  extract_lets p
  split
  · extract_lets int q val ws narrow amax outs w checks u
    have hu : u.Canon ∧ u.gfe = s.gfe := by
      by_cases hn : narrow = true
      · simp only [u, if_pos hn]; exact ⟨hc, trivial⟩
      · simp only [u, if_neg hn]; exact ⟨(State.setCnt_keeps (.refl s) n _).canon hc, rfl⟩
    clear_value u
    have hstart : (u.setRun n { r with checks := checks }).running n = some ({ r with checks := checks }, d) :=
      running_of (setRun_run hu.1 n _) ((cmd?_of_cmds (congrArg Gfe.cmds hu.2) _).trans hcmd)
    rcases finishWork_run ((State.setRun_keeps (.refl u) n _).canon hu.1) hstart outs w with h | ⟨w', h⟩
    · exact .inl h
    · exact .inr ⟨_, h, rfl, rfl⟩
  · exact .inr ⟨r, hclu, rfl, rfl⟩

/-- A block or group that is due: the counters note it, and the run goes on, to its drain, or to the repeat rule. -/
theorem compare_due {s : State} (hc : s.Canon) (hon : s.on = true) {n : Nat} {arr : Bool} (g : Option Glitch) {r : Run} {d : Cmd}
    {c : Check} {rest : List Check} (hrun : s.running n = some (r, d)) (hchecks : r.checks = c :: rest)
    {k : CheckKind} (harr : (k == .array) = arr) (hkind : c.kind = k) (hdue : c.due ≤ s.elapsed r) (hcyc : s.clk.cyc < s.G) :
    let cfg := if arr then 0x100 else 0x140
    let c2 := s.compared n arr c g
    let v := c2.verdict (s.product d.slot).kb (s.fld .clu n cfg 3 0) (s.fld .clu n cfg 4 4 == 1)
    let r1 := { r with checks := rest, passed := r.passed ++ [c2], skipped := r.skipped + v.2 }
    ∃ (u : State) (last : Option Nat), (v.1 = [] → last = none) ∧ u.Canon ∧ u.running n = some (r, d) ∧ u.cnt n = (s.cnt n).count k v.1.length v.2 last ∧
      s.compare n k g =
        if v.1 ≠ [] then u.trigger n 1 else if rest = [] then (u.setRun n r1).drain n r1 d else u.setRun n r1 := by
  subst harr
  intro cfg c2 v r1
  unfold State.compare
  rw [hrun]
  dsimp -zeta only
  rw [hchecks]
  dsimp -zeta only
  rw [if_neg (by simp [hon, hkind, hdue, Nat.not_le.mpr hcyc])]
  extract_lets +onlyGivenNames arr' status inj c1 c2' cfg' v' last s1
  have hv : v' = v := rfl
  extract_lets +onlyGivenNames s2
  extract_lets +onlyGivenNames s3
  have hs1 : s1.Canon ∧ s1.running n = some (r, d) ∧ s1.cnts = s.cnts := by
    clear_value inj
    cases inj
    · exact ⟨hc, hrun, rfl⟩
    · exact ⟨(State.consume_keeps (.refl s) n _ _).canon hc,
        (running_congr ((State.consume_only (.refl _) (.refl s) n _ _).use .clus rfl)
          ((State.consume_only (.refl _) (.refl s) n _ _).use .gfe rfl) n).trans hrun,
        (State.consume_only (.refl _) (.refl s) n _ _).use .cnts rfl⟩
  obtain ⟨hcanon1, hrun1, hcnts1⟩ := hs1
  have hs2 : s2.Canon ∧ s2.running n = some (r, d) ∧
      s2.cnt n = (s.cnt n).count k v.1.length v.2 last :=
    ⟨(State.setCnt_keeps (.refl s1) n _).canon hcanon1, (running_congr rfl rfl n).trans hrun1,
      (State.cnt_setCnt_self hcanon1 n _).trans (by rw [cnt_of hcnts1, hv])⟩
  clear_value s1 s2
  obtain ⟨hcanon2, hrun2, hcnt2⟩ := hs2
  have raised : ∀ {u : State} (b : Nat), u.Canon → u.running n = some (r, d) →
      u.cnt n = (s.cnt n).count k v.1.length v.2 last →
      (u.raise .clu n status b).Canon ∧ (u.raise .clu n status b).running n = some (r, d) ∧
        (u.raise .clu n status b).cnt n = (s.cnt n).count k v.1.length v.2 last :=
    fun b hcu hru hku => ⟨(State.raise_keeps (.refl _) _ _ _ b).canon hcu,
      (running_congr (raise_clus _ _ _ _ _) (raise_gfe _ _ _ _ _) n).trans hru, (cnt_of (raise_cnts _ _ _ _ _) n).trans hku⟩
  have hs3 : s3.Canon ∧ s3.running n = some (r, d) ∧
      s3.cnt n = (s.cnt n).count k v.1.length v.2 last := by
    simp only [s3]
    split
    · exact ⟨hcanon2, hrun2, hcnt2⟩
    · exact raised 2 hcanon2 hrun2 hcnt2
  obtain ⟨hcanon3, hrun3, hcnt3⟩ := hs3
  clear_value s3
  by_cases hfail : v.1 = []
  · refine ⟨s3, last, fun h => congrArg (Option.map _) (congrArg List.getLast? h), hcanon3, hrun3, hcnt3, ?_⟩
    rw [if_neg (Classical.not_not.mpr hfail), if_neg (by simp [show v'.1 = [] from hfail])]
    cases rest <;> rfl
  · obtain ⟨hcanon4, hrun4, hcnt4⟩ := raised 1 hcanon3 hrun3 hcnt3
    refine ⟨_, last, fun h => absurd h hfail, hcanon4, hrun4, hcnt4, ?_⟩
    rw [if_pos hfail, if_pos (by simpa [hv] using hfail)]

/-- A check that is not due, or in the guard band, waits. -/
theorem compare_waits {s : State} {n : Nat} (k : CheckKind) (g : Option Glitch) {r : Run} {d : Cmd} {c : Check} {rest : List Check}
    (hrun : s.running n = some (r, d)) (hchecks : r.checks = c :: rest) (h : s.elapsed r < c.due ∨ s.G ≤ s.clk.cyc) :
    s.compare n k g = s := by
  unfold State.compare
  rw [hrun]
  simp only [hchecks]
  exact if_pos (by rcases h with h | h <;> simp [h])

/-- Settles O18: the comparison splits by the verdict and by whether the check was the last one. -/
theorem comparisonsPassOrStopTheRun : Obligations.ComparisonsPassOrStopTheRun := by
  unfold Obligations.ComparisonsPassOrStopTheRun
  intro s n arr g r d c rest kind cfg c1 c2 v cmp hc hon hrun hchecks hkind
  have hexec : ∀ u, s.compare n kind g = u → exec cmp s = .next u.endStep := by
    rintro u rfl
    cases arr <;> rfl
  have due := compare_due (arr := arr) hc hon g hrun hchecks (show (kind == .array) = arr by cases arr <;> rfl) hkind
  refine ⟨fun hdue hcyc hpass hrest => ?_, fun hdue hcyc hpass hrest => ?_, fun hdue hcyc hfail => ?_, fun hwait => ?_⟩
  · obtain ⟨u, last, hlast, hcu, -, hcnt, hcmp⟩ := due hdue hcyc
    replace hcmp := (hcmp.trans (if_neg (Classical.not_not.mpr hpass))).trans (if_neg hrest)
    refine ⟨_, hexec _ hcmp, ?_, ?_⟩
    · rw [endStep_cnt]
      refine (setRun_cnt u n n _).trans (hcnt.trans ?_)
      rw [hlast hpass]
      exact congrArg (fun l => (s.cnt n).count kind l v.2 none) (congrArg List.length hpass)
    · rw [endStep_clu]; exact setRun_run hcu n _
  · obtain ⟨u, last, -, hcu, hru, -, hcmp⟩ := due hdue hcyc
    replace hcmp := (hcmp.trans (if_neg (Classical.not_not.mpr hpass))).trans (if_pos hrest)
    refine ⟨_, hexec _ hcmp, ?_⟩
    rw [endStep_clu]
    refine drain_run ((State.setRun_keeps (.refl u) n _).canon hcu) (running_of (setRun_run hcu n _) (running_run hru).2)
  · obtain ⟨u, last, -, hcu, hru, hcnt, hcmp⟩ := due hdue hcyc
    replace hcmp := hcmp.trans (if_pos hfail)
    refine ⟨_, last, hexec _ hcmp, ?_, ?_⟩
    · rw [endStep_cnt, cnt_of (trigger_cnts u n 1)]; exact hcnt
    · rw [endStep_clu]; exact trigger_run hcu 1 hru
  · exact hexec s (compare_waits kind g hrun hchecks hwait)

/-! ## Duplicate reducers -/



/-- The values that the second reducers give: the first ones with the bits that an armed injection and a glitch invert. -/
def State.secondReducers (s : State) (n : Nat) (c : Check) (g : Option Glitch) : List Nat :=
  let unit := s.fld .clu n 0x194 2 0
  let armed : Bool := s.fld .clu n 0x194 31 31 == 1 && c.cols.contains unit
  let first := listGet [] c.rows 0
  let one := if armed then listSet first unit ((listGet 0 first unit) ^^^ 2 ^ s.fld .clu n 0x194 12 8) else first
  match g with
  | some x => listSet one x.lane ((listGet 0 one x.lane) ^^^ 2 ^ (x.bit % 32))
  | none => one

/-- The pairs in use whose reducers differ. -/
def State.reducersDiffer (s : State) (n : Nat) (c : Check) (g : Option Glitch) : List Nat :=
  c.cols.filter (fun u => listGet 0 (listGet [] c.rows 0) u != listGet 0 (s.secondReducers n c g) u)

/-- A pass that is due counts; an anomaly that is checked for stops the run, any other outcome leaves it without this check. -/
theorem summaryCompare_due {s : State} (hc : s.Canon) (hon : s.on = true) {n : Nat} (g : Option Glitch) {r : Run} {d : Cmd}
    {c : Check} {rest : List Check} (hrun : s.running n = some (r, d)) (hchecks : r.checks = c :: rest) (hkind : c.kind = .summary)
    (hdue : c.due ≤ s.elapsed r) (hcyc : s.clk.cyc < s.G) :
    let found := if s.fld .clu n 0x180 0 0 == 1 then (s.reducersDiffer n c g).getLast? else none
    let counted := { s.cnt n with vecPasses := satAdd 32 (s.cnt n).vecPasses 1 }
    ∃ u : State, u.Canon ∧ u.running n = some (r, d) ∧ u.cnt n = counted ∧
      (found = none → s.summaryCompare n g = u.setRun n { r with checks := rest }) ∧
      (found ≠ none → ∃ last, s.summaryCompare n g = ((u.setCnt n { counted with
        vecAnomalies := satAdd 16 counted.vecAnomalies 1, vecLast := last }).raise .clu n 0x184 1).trigger n 2) := by
  intro found counted
  unfold State.summaryCompare
  rw [hrun]
  dsimp -zeta only
  rw [hchecks]
  dsimp -zeta only
  rw [if_neg (by simp [hon, hkind, hdue, Nat.not_le.mpr hcyc])]
  extract_lets +onlyGivenNames unit armed first one second differ k s1 s2
  have hdiffer : differ = s.reducersDiffer n c g := rfl
  have hs1 : s1.Canon ∧ s1.running n = some (r, d) ∧ s1.cnt n = counted :=
    ⟨(State.setCnt_keeps (.refl s) n _).canon hc, (running_congr rfl rfl n).trans hrun, State.cnt_setCnt_self hc n _⟩
  clear_value s1
  obtain ⟨hcanon1, hrun1, hcnt1⟩ := hs1
  have hs2 : s2.Canon ∧ s2.running n = some (r, d) ∧ s2.cnt n = counted := by
    clear_value armed
    cases armed
    · exact ⟨hcanon1, hrun1, hcnt1⟩
    · exact ⟨(State.consume_keeps (.refl s1) n _ _).canon hcanon1,
        (running_congr ((State.consume_only (.refl _) (.refl s1) n _ _).use .clus rfl)
          ((State.consume_only (.refl _) (.refl s1) n _ _).use .gfe rfl) n).trans hrun1,
        (cnt_of ((State.consume_only (.refl _) (.refl s1) n _ _).use .cnts rfl) n).trans hcnt1⟩
  clear_value s2
  obtain ⟨hcanon2, hrun2, hcnt2⟩ := hs2
  extract_lets +onlyGivenNames check
  have hfound : (if check then differ.getLast? else none) = found := rfl
  refine ⟨s2, hcanon2, hrun2, hcnt2, fun hnone => ?_, fun hsome => ?_⟩
  · rw [hfound, hnone]
  · obtain ⟨x, hx⟩ := Option.ne_none_iff_exists'.mp hsome
    rw [hfound, hx]
    exact ⟨_, by rw [hcnt2]⟩

/-- A pass that is not due, or in the guard band, waits. -/
theorem summaryCompare_waits {s : State} {n : Nat} (g : Option Glitch) {r : Run} {d : Cmd} {c : Check} {rest : List Check}
    (hrun : s.running n = some (r, d)) (hchecks : r.checks = c :: rest) (h : s.elapsed r < c.due ∨ s.G ≤ s.clk.cyc) :
    s.summaryCompare n g = s := by
  unfold State.summaryCompare
  rw [hrun]
  simp only [hchecks]
  exact if_pos (by rcases h with h | h <;> simp [h])

/-- A glitch of one pair in use makes it differ, where no injection is armed. -/
theorem glitch_differs {s : State} {n : Nat} {c : Check} {x : Glitch}
    (harmed : (s.fld .clu n 0x194 31 31 == 1 && c.cols.contains (s.fld .clu n 0x194 2 0)) = false)
    (hlane : x.lane < (listGet [] c.rows 0).length) (hused : c.cols.contains x.lane = true) :
    s.reducersDiffer n c (some x) ≠ [] := by
  intro hnil
  have hall := List.filter_eq_nil_iff.mp hnil x.lane (by simpa using hused)
  apply hall
  unfold State.secondReducers
  simp only [harmed, listGet_listSet]
  simpa [hlane] using xor_pow_ne _ _

/-- Settles O19: the pass counts; what an enabled check finds to differ decides whether the run stops. -/
theorem summaryComparisonsCatchGlitches : Obligations.SummaryComparisonsCatchGlitches := by
  unfold Obligations.SummaryComparisonsCatchGlitches
  intro s n g r d c rest hc hon hrun hchecks hkind unit armed first one second differ on
  have hexec : ∀ u, s.summaryCompare n g = u → exec (.summaryCompare n g) s = .next u.endStep := by
    rintro u rfl
    rfl
  refine ⟨fun hwait => hexec s (summaryCompare_waits g hrun hchecks hwait), fun hdue hcyc => ?_⟩
  obtain ⟨u, hcu, hru, hcnt, agree, differs⟩ := summaryCompare_due hc hon g hrun hchecks hkind hdue hcyc
  have found : on = 1 → differ ≠ [] → (if s.fld .clu n 0x180 0 0 == 1 then (s.reducersDiffer n c g).getLast? else none) ≠ none := by
    intro hone hne
    rw [if_pos (beq_iff_eq.mpr hone)]
    exact fun h => hne (List.getLast?_eq_none_iff.mp h)
  have anomaly : on = 1 → differ ≠ [] → ∃ t, exec (.summaryCompare n g) s = .next t ∧ (t.clu n).run = none ∧
      (t.cnt n).vecAnomalies = satAdd 16 (s.cnt n).vecAnomalies 1 := by
    intro hone hne
    obtain ⟨last, hcmp⟩ := differs (found hone hne)
    refine ⟨_, hexec _ hcmp, ?_, ?_⟩
    · rw [endStep_clu]
      exact trigger_run ((State.raise_keeps (State.setCnt_keeps (.refl u) n _) _ _ _ _).canon hcu) 2
        ((running_congr (raise_clus _ _ _ _ _) (raise_gfe _ _ _ _ _) n).trans hru)
    · rw [endStep_cnt, cnt_of (trigger_cnts _ n 2), cnt_of (raise_cnts _ _ _ _ _), State.cnt_setCnt_self hcu]
  refine ⟨fun hagree => ?_, anomaly, fun x hx harmed hone hlane hused => ?_⟩
  · have hnone : (if s.fld .clu n 0x180 0 0 == 1 then (s.reducersDiffer n c g).getLast? else none) = none := by
      rcases hagree with hoff | hnil
      · exact if_neg (by simpa using hoff)
      · rw [show s.reducersDiffer n c g = [] from hnil]; simp
    refine ⟨_, hexec _ (agree hnone), ?_, ?_, ?_⟩
    · rw [endStep_clu]; exact setRun_run hcu n _
    · rw [endStep_cnt, setRun_cnt, hcnt]
    · rw [endStep_cnt, setRun_cnt, hcnt]
  · obtain ⟨t, ht, hstop, -⟩ := anomaly hone (by subst hx; exact glitch_differs harmed hlane hused)
    exact ⟨t, ht, hstop⟩

end Sys2Proof.Machine

/-! PROOFS. Admission (02 R31; 05 R121, R135, R138): the decision of a partition's dispatcher on its only candidate. -/

namespace Sys2Proof.Machine
open Sys2Proof

/-- The commands are found by their numbers, which do not repeat. -/
theorem cmd?_of_mem {s : State} (hids : (s.gfe.cmds.map Cmd.id).Nodup) {d : Cmd} (hd : d ∈ s.gfe.cmds) : s.cmd? d.id = some d := by
  unfold State.cmd?
  generalize s.gfe.cmds = cmds at hids hd
  induction cmds with
  | nil => cases hd
  | cons c rest ih =>
    rw [List.map_cons, List.nodup_cons] at hids
    rw [List.find?_cons]
    rcases List.mem_cons.mp hd with rfl | hrest
    · simp
    · have hne : c.id ≠ d.id := fun h => hids.1 (h ▸ List.mem_map_of_mem hrest)
      rw [beq_false_of_ne hne]
      exact ih hids.2 hrest

/-- A command that issues is the head of its node, with its handles bound. -/
theorem prep_some {s t : State} {nd : Node} {d : Cmd} (h : s.prep nd = (t, some d)) : t = s ∨ t = s.setCmd d := by
  unfold State.prep at h
  split at h
  · cases h
  · split at h
    · cases h; exact .inl rfl
    · extract_lets preds bind at h
      clear_value preds bind
      split at h
      · cases h
      · split at h
        · cases h; exact .inl rfl
        · split at h
          · cases h
          · cases h; exact .inr rfl

/-- A decision that admits `d` takes no cluster from another command. -/
theorem takenBy_admitOne {q t : State} {d : Cmd} (hids : (q.gfe.cmds.map Cmd.id).Nodup) (hprep : t = q ∨ t = q.setCmd d)
    (n : Nat) (dem : List (Nat × Nat)) : q.takenBy (t.admitOne n d dem) = [] := by
  have hcmds : ∀ id, (t.admitOne n d dem).cmd? id =
      (t.cmd? id).map (fun e => if e.id = d.id then { d with phase := .admitted n, begun := true } else e) := by
    intro id
    exact cmd?_setCmd ((t.noteHomes d).enqueue n d (t.chargeOn d n) dem) _ id
  unfold State.takenBy
  rw [List.map_eq_nil_iff, List.filter_eq_nil_iff]
  intro f hf
  obtain ⟨g, hg, hgid, hsame⟩ : ∃ g, t.cmd? f.id = some g ∧ g.id = f.id ∧ (f.id ≠ d.id → g = f) := by
    rcases hprep with rfl | rfl
    · exact ⟨f, cmd?_of_mem hids hf, rfl, fun _ => rfl⟩
    · by_cases hid : f.id = d.id
      · exact ⟨d, by rw [cmd?_setCmd, cmd?_of_mem hids hf, Option.map_some, if_pos hid], hid.symm, fun h => absurd hid h⟩
      · exact ⟨f, by simp [cmd?_setCmd, cmd?_of_mem hids hf, hid], rfl, fun _ => rfl⟩
  rw [hcmds, hg]
  by_cases hid : f.id = d.id
  · simp [hgid, hid, Cmd.holdsClu]
  · obtain rfl := hsame hid
    cases hh : g.holdsClu <;> simp [hid, hh]

/-- A `GEMM` head that passes its rules and fits is admitted. -/
theorem tryReady_gemm {t : State} {p n : Nat} {d : Cmd} (hop : slotOp d.slot = 0x20) (hbad : t.operandBad d = [])
    (hlimit : slotCharge d.slot ≤ t.limitOf d.part) (hnear : (t.withScales (t.headTiles d)).filter t.inCellar = [])
    (hmore : d.more = none) (hfits : (t.openClus p).find? (fun m => t.fits m (slotCharge d.slot)) = some n)
    (hallow : t.sup.charged + slotCharge d.slot ≤ t.sup.allow) (hroom : t.roomFor d.cls (t.demandOf d) = true) :
    t.tryReady p d = (t.admitOne n d (t.demandOf d), true) := by
  have hhead : t.headBad d = none := by
    simp [State.headBad, hbad, lowest, State.overLimit, Nat.not_lt.mpr hlimit]
  have hhost : t.hostHead d = none := by simp [State.hostHead, hop]
  have hprog : t.takeProg d = (t, true) := by simp [State.takeProg, hop]
  have hcharge : ∀ m, t.chargeOn d m = slotCharge d.slot := fun m => if_neg (by simp [hop, foldOp])
  have hpool : t.poolShort d (t.runsOf d) = false := by
    unfold State.poolShort
    split <;> simp [hop]
  unfold State.tryReady
  simp only [hhead, hhost, hprog, hnear, hmore, hop, foldOp]
  simp [State.place1, hop, hcharge, hfits, State.admitIf, Nat.not_lt.mpr hallow, hroom, hpool]

/-- Settles O12: the candidate is tried, admitted by `tryReady_gemm`, and has no rivals, because it takes no cluster. -/
theorem dispatcherAdmitsAFittingHead : Obligations.DispatcherAdmitsAFittingHead := by
  unfold Obligations.DispatcherAdmitsAFittingHead
  intro s t p id n d q k hc hon hcores hstop hpart hcyc hdec hids hlost hcand hcmd hop hprep hinh hbad hlimit hnear hmore hfits
    hallow hroom
  have hidd : d.id = id := cmd_id hcmd
  have hhead : q.tryHead p id = (t.admitOne n d (t.demandOf d), true) := by
    unfold State.tryHead
    rw [hcmd]
    dsimp only
    rw [if_neg (by simp [hop, foldOp]), hprep]
    dsimp only
    rw [if_neg (Classical.not_not.mpr hidd), hinh]
    dsimp only
    rw [if_neg (by simp [resolves, hop])]
    exact tryReady_gemm hop hbad hlimit hnear hmore hfits hallow hroom
  have hdispatch : s.dispatch p = t.admitOne n d (t.demandOf d) := by
    show q.tryHeads p (q.candidates p) = _
    rw [hcand]
    unfold State.tryHeads
    rw [hlost, hhead]
    simp [takenBy_admitOne (q := q) hids (prep_some hprep)]
  have hexec : exec (.dispatchAdmit p) s = .next (t.admitOne n d (t.demandOf d)).endStep := by
    refine congrArg done ((if_neg ?_).trans ((if_pos ?_).trans hdispatch))
    · simp [hon, hcores, hstop, hpart, Nat.not_le.mpr hcyc]
    · simp [hdec]
  have hct : t.Canon := by
    have hk : Keeps q (q.prep d.node).1 := State.prep_keeps (.refl q) _
    rw [hprep] at hk
    exact hk.canon (canon_gfe_host hc _ s.host rfl)
  have hcharge : t.chargeOn d n = k := if_neg (by simp [hop, foldOp])
  have hclus : (t.admitOne n d (t.demandOf d)).clus = (t.setClu n { t.clu n with queue := (t.clu n).queue ++ [(d.id, k)] }).clus := by
    rw [← hcharge]; rfl
  refine ⟨_, hexec, ?_, ?_, rfl, fun m hm => ?_⟩
  · rw [endStep_clu, clu_of_clus hclus, State.clu_setClu_self hct]
  · rw [← hcharge]; rfl
  · rw [endStep_clu, clu_of_clus hclus, State.clu_setClu_other t hm]

end Sys2Proof.Machine

/-! PROOFS. Doorbells, queue heads and orphans (03 R58, R59, R61; 04 R112; 12 R381). -/

namespace Sys2Proof.Machine
open Sys2Proof

/-! ## What resuming and releasing leave -/

/-- Granting contexts moves a channel past the slots that waited, and nothing else of it. -/
theorem grantCtxs_chan {s : State} (hc : s.Canon) (n m : Nat) : ∃ h q w o,
    (s.grantCtxs n).chan m = { s.chan m with head := h, expSeq := q, ctxWait := w, openCtx := o } := by
  induction n generalizing s with
  | zero => exact ⟨_, _, _, _, rfl⟩
  | succ n ih =>
    rw [State.grantCtxs]
    split
    · exact ⟨_, _, _, _, rfl⟩
    · next c _ =>
      split
      · exact ⟨_, _, _, _, rfl⟩
      · next w _ =>
        have hadv : (s.advance c w.slot).Canon := (State.advance_keeps (.refl s) c w.slot).canon hc
        have hpump := (State.pumpRing_keeps (State.enlist_keeps (.refl _) c w.slot w.payload w.part w.origin) c).canon hadv
        obtain ⟨h, q, w', o, hch⟩ := ih hpump
        obtain ⟨x, hx⟩ := enlist_chan hadv c w.slot w.payload w.part w.origin m
        rw [hch, chan_of (pumpRing_chans _ _), hx, advance_chan hc]
        by_cases hm : m = c
        · subst hm; rw [if_pos rfl]; exact ⟨_, _, _, _, rfl⟩
        · rw [if_neg hm]; exact ⟨_, _, _, _, rfl⟩

/-- A channel that is resumed starts its ring again where its ring fields were rewritten, and keeps its STALE register. -/
theorem resumeChan_ring {s : State} (hc : s.Canon) (c : Nat) (reattach : Bool) :
    ((s.resumeChan c reattach).chan c).tail = (if (s.chan c).ringWritten then 0 else (s.chan c).tail) ∧
      ((s.resumeChan c reattach).chan c).stale = (s.chan c).stale := by
  unfold State.resumeChan
  extract_lets +onlyGivenNames ch ch1 s1
  have hch : (s1.chan c).tail = (if (s.chan c).ringWritten then 0 else (s.chan c).tail) ∧ (s1.chan c).stale = (s.chan c).stale := by
    rw [show s1.chan c = _ from chan_self hc c _]
    show ch1.tail = _ ∧ ch1.stale = _
    simp only [ch1]
    split <;> exact ⟨rfl, rfl⟩
  have hc1 : s1.Canon := setChan_canon hc _ _
  clear_value s1
  extract_lets +onlyGivenNames s2
  have hs2 : s2.chans = s1.chans ∧ s2.Canon := by
    cases reattach
    · exact ⟨release_chans _ _, (State.release_keeps (.refl s1) _).canon hc1⟩
    · exact ⟨rewriteStored_chans _ _ _, (State.rewriteStored_keeps (.refl s1) _ _).canon hc1⟩
  clear_value s2
  obtain ⟨_, _, _, _, hgrant⟩ := grantCtxs_chan ((State.pumpRing_keeps (.refl s2) c).canon hs2.2) 1 c
  rw [hgrant, chan_of (pumpRing_chans _ _), chan_of hs2.1]
  exact hch

theorem noteFull_head {s : State} (hc : s.Canon) (c : Nat) : ((s.noteFull c).cq c).head = (s.cq c).head := by
  unfold State.noteFull
  extract_lets q
  split
  · rw [cq_of ((State.raise_only (.refl _) (.refl _) _ _ _ _).use .cqs rfl), State.cq_setCq_self hc]
  · rfl

theorem recordFlush_head {s : State} (hc : s.Canon) (c : Nat) : ((s.recordFlush c).cq c).head = (s.cq c).head := by
  unfold State.recordFlush
  extract_lets q
  split
  · exact (congrArg ChanCq.head (State.cq_setCq_self hc c _)).trans rfl
  · rfl

theorem writeNext_head {s : State} (hc : s.Canon) (c : Nat) (bytes : List Byte) : ((s.writeNext c bytes).cq c).head = (s.cq c).head := by
  unfold State.writeNext
  extract_lets q s1 s2
  have hc1 : s1.Canon := (State.putRecord_keeps (.refl s) c _ _).canon hc
  have hhead : (s2.cq c).head = (s.cq c).head :=
    (congrArg ChanCq.head (State.cq_setCq_self hc1 c _)).trans rfl
  split
  · rw [recordFlush_head ((State.setCq_keeps (.refl s1) _ _).canon hc1)]; exact hhead
  · exact hhead

theorem writeHeld_head {s : State} (hc : s.Canon) (c : Nat) (r : StoredRec) (rest : List StoredRec) :
    ((s.writeHeld c r rest).cq c).head = (s.cq c).head := by
  unfold State.writeHeld
  extract_lets held s1
  have hhead : (s1.cq c).head = (s.cq c).head :=
    (writeNext_head ((State.setCq_keeps (.refl s) _ _).canon hc) c r.bytes).trans
      ((congrArg ChanCq.head (State.cq_setCq_self hc c _)).trans rfl)
  split
  · rw [cq_of ((State.settleCtx_only (.refl _) (.refl s1) _).use .cqs rfl)]; exact hhead
  · exact hhead

/-- Releasing held records leaves the queue's HEAD. -/
theorem releaseHeld_head {s : State} (hc : s.Canon) (c n : Nat) : ((s.releaseHeld c n).cq c).head = (s.cq c).head := by
  induction n generalizing s with
  | zero => rfl
  | succ n ih =>
    rw [State.releaseHeld]
    split
    · rfl
    · next r rest _ =>
      split
      · rfl
      · split
        · exact noteFull_head hc c
        · rw [ih ((State.writeHeld_keeps (.refl s) c r rest).canon hc), writeHeld_head hc]

/-! ## The three commands -/

/-- A doorbell that is heeded notes its tail, or its range error, before the ring moves on. -/
theorem doorbell_heeded {s : State} (hc : s.Canon) (hserved : s.served = true) {c : Nat} (tail : BitVec 32)
    (hkind : (s.chan c).kind = .host) (ho : (s.chan c).state ≠ .orphaned) (hdr : (s.chan c).state ≠ .draining)
    (hde : (s.chan c).state ≠ .destroyed) :
    let ch := s.chan c
    let full : Bool := decide (2 ^ (s.ringOf c).2 < (tail - ch.head).toNat)
    ∃ u : State, u.Canon ∧ (u.chan c).tail = (if full then ch.tail else tail) ∧ (u.chan c).head = ch.head ∧
      (u.chan c).state = ch.state ∧ (u.chan c).ringWritten = ch.ringWritten ∧
      (full = true → (u.regGet .gfe c 0x22C).testBit 2 = true) ∧
      exec (.doorbell c tail) s = done (if ch.state = .paused .stale then u.resumeChan c false else u.pumpRing c) := by
  intro ch full
  have hexec : exec (.doorbell c tail) s = done (
      let s1 := if full then State.raise (s.setChan c { ch with bellAt := s.clk.now + 1 }) .gfe c 0x22C 2
        else s.setChan c { ch with
          tail := tail, bellAt := s.clk.now + 1, extWait := if ch.extWait ≤ (tail - ch.head).toNat then 0 else ch.extWait }
      if ch.state = .paused .stale then s1.resumeChan c false else s1.pumpRing c) :=
    congrArg done (if_neg (by simp [hserved, hkind, ho, hdr, hde]))
  cases hf : full with
  | true =>
    rw [hf] at hexec
    have hchan : (State.raise (s.setChan c { ch with bellAt := s.clk.now + 1 }) .gfe c 0x22C 2).chan c =
        { ch with bellAt := s.clk.now + 1 } := (chan_of (raise_chans _ _ _ _ _) c).trans (chan_self hc c _)
    exact ⟨_, (State.raise_keeps (.refl _) _ _ _ _).canon (setChan_canon hc _ _), by rw [hchan]; rfl, by rw [hchan], by rw [hchan],
      by rw [hchan], fun _ => raise_bit (setChan_canon hc _ _) _ _ _ 2 (by decide), hexec⟩
  | false =>
    rw [hf] at hexec
    have hchan := chan_self hc c { ch with
      tail := tail, bellAt := s.clk.now + 1, extWait := if ch.extWait ≤ (tail - ch.head).toNat then 0 else ch.extWait }
    exact ⟨_, setChan_canon hc _ _, congrArg Chan.tail hchan, (congrArg Chan.head hchan).trans rfl,
      (congrArg Chan.state hchan).trans rfl, (congrArg Chan.ringWritten hchan).trans rfl, nofun, hexec⟩

/-- Settles O21: each row by the channel's state. -/
theorem doorbellsAndHeadsMoveQueues : Obligations.DoorbellsAndHeadsMoveQueues := by
  unfold Obligations.DoorbellsAndHeadsMoveQueues
  intro s c hc ch
  refine ⟨fun tail hserved hkind => ?_, fun n hserved hkind hstate => ⟨fun hin => ?_, fun hout => ?_⟩, fun n hfab => ⟨?_, ?_⟩,
    fun n hdead => ?_, fun hon => ?_⟩
  · intro full next
    refine ⟨fun hstate => ?_, fun hstale => ?_, fun hstate => ?_⟩
    · have hlive : ch.state ≠ .orphaned ∧ ch.state ≠ .draining ∧ ch.state ≠ .destroyed ∧ ch.state ≠ .paused .stale := by
        rcases hstate with h | h | ⟨k, hk, h⟩ <;> simp [h]
        exact hk
      obtain ⟨ho, hdr, hde, hns⟩ := hlive
      obtain ⟨u, -, htail, hhead, hst, -, hbit, hexec⟩ := doorbell_heeded hc hserved tail hkind ho hdr hde
      rw [if_neg hns] at hexec
      refine ⟨_, hexec, ?_⟩
      rw [endStep_chan, endStep_regGet, chan_of (pumpRing_chans u c),
        regGet_of_reg ((State.pumpRing_only (.refl _) (.refl u) c).use .reg rfl)]
      exact ⟨htail, hhead, hst, hbit⟩
    · obtain ⟨u, hcu, htail, -, -, hwritten, -, hexec⟩ := doorbell_heeded hc hserved tail hkind (by simp [ch, hstale])
        (by simp [ch, hstale]) (by simp [ch, hstale])
      rw [if_pos hstale] at hexec
      refine ⟨_, hexec, ?_, ?_⟩
      · rw [endStep_chan]; exact resumeChan_state hcu c false
      · rw [endStep_chan, (resumeChan_ring hcu c false).1, hwritten, htail]
    · refine done_of_eq (if_pos ?_)
      rcases hstate with h | h | h <;> simp [show (s.chan c).state = _ from h]
  · have hexec : exec (.cqHead c n) s =
        .next ((((s.setCq c { s.cq c with head := n }).release c).drainDone c).pumpRing c).endStep :=
      congrArg done ((if_neg (by simp [hserved, show (s.chan c).kind = .host from hkind,
        show (s.chan c).state ≠ .destroyed from hstate])).trans (if_neg (Nat.not_lt.mpr hin)))
    have hset : (s.setCq c { s.cq c with head := n }).Canon := (State.setCq_keeps (.refl s) _ _).canon hc
    refine ⟨_, hexec, ?_⟩
    rw [endStep_cq, cq_of (pumpRing_cqs _ c), drainDone_head ((State.release_keeps (.refl _) c).canon hset)]
    exact (releaseHeld_head hset c _).trans (congrArg ChanCq.head (State.cq_setCq_self hc c _))
  · have hexec : exec (.cqHead c n) s = .next (s.chanIgnored c).endStep :=
      congrArg done ((if_neg (by simp [hserved, show (s.chan c).kind = .host from hkind,
        show (s.chan c).state ≠ .destroyed from hstate])).trans (if_pos hout))
    refine ⟨_, hexec, ?_, (chanIgnored_spec hc c).2⟩
    rw [endStep_cq]
    exact cq_of ((State.chanIgnored_only (.refl _) (.refl s) c).use .cqs rfl) c
  · exact done_of_eq (if_pos (by simp [show (s.chan c).kind = .fabric from hfab]))
  · exact done_of_eq (if_pos (by simp [show (s.chan c).kind = .fabric from hfab]))
  · exact done_of_eq (if_pos (by simp [show (s.chan c).state = .destroyed from hdead]))
  · intro due
    refine ⟨fun horph hdue => ?_, fun hearly => ?_⟩
    · have hexec : exec (.orphanTimeout c) s = .next (s.setChan c { ch with timedOut := true }).endStep :=
        congrArg done (if_neg (by simp [hon, show (s.chan c).state = _ from horph,
          show (s.chan c).orphanedAt + _ ≤ s.clk.now from hdue]))
      exact ⟨_, hexec, by rw [endStep_chan]; exact chan_self hc c _⟩
    · refine done_of_eq (if_pos ?_)
      rcases hearly with h | h
      · simp [show (s.chan c).state ≠ _ from h]
      · simp [show s.clk.now < (s.chan c).orphanedAt + _ from h]

end Sys2Proof.Machine

/-! PROOFS. Ring reads (03 R61 to R65, R68, R74): a slot that is accepted, one that ends at once, one that waits for a context or
its extension slots, and the rereads up to the verdict. -/

namespace Sys2Proof.Machine
open Sys2Proof

/-! ## What the end of a slot leaves of its channel -/

/-- `b` is `a` but for its state, its reread and its open context. -/
def SameRing (a b : Chan) : Prop := ∃ st rr oc, b = { a with state := st, reread := rr, openCtx := oc }

theorem SameRing.refl (a : Chan) : SameRing a a := ⟨_, _, _, rfl⟩

theorem SameRing.trans {a b c : Chan} : SameRing a b → SameRing b c → SameRing a c := by
  rintro ⟨_, _, _, rfl⟩ ⟨_, _, _, rfl⟩
  exact ⟨_, _, _, rfl⟩

theorem SameRing.of_chans {s t : State} (h : t.chans = s.chans) (m : Nat) : SameRing (s.chan m) (t.chan m) := by
  rw [chan_of h]
  exact .refl _

theorem SameRing.head {a b : Chan} : SameRing a b → b.head = a.head := by
  rintro ⟨_, _, _, rfl⟩; rfl

theorem SameRing.expSeq {a b : Chan} : SameRing a b → b.expSeq = a.expSeq := by
  rintro ⟨_, _, _, rfl⟩; rfl

theorem SameRing.ctxWait {a b : Chan} : SameRing a b → b.ctxWait = a.ctxWait := by
  rintro ⟨_, _, _, rfl⟩; rfl

theorem closeCtx_sameRing {s : State} (hc : s.Canon) (c m : Nat) : SameRing (s.chan m) ((s.closeCtx c).chan m) := by
  obtain ⟨x, hx⟩ := closeCtx_chan hc c m
  exact ⟨_, _, x, hx⟩

theorem drainDone_sameRing {s : State} (hc : s.Canon) (c m : Nat) : SameRing (s.chan m) ((s.drainDone c).chan m) := by
  unfold State.drainDone
  extract_lets +onlyGivenNames ch
  split
  · extract_lets +onlyGivenNames u
    have hclosed := closeCtx_sameRing hc c m
    refine hclosed.trans ?_
    show SameRing (u.chan m) ((u.setChan c _).chan m)
    by_cases hm : m = c
    · subst hm
      rw [chan_self (closeCtx_canon hc m)]
      exact ⟨_, _, _, rfl⟩
    · rw [State.chan_setChan_other u hm]
      exact .refl _
  · exact .refl _

/-- Granting one context does not move a channel whose slot waits for none. -/
theorem grantCtxs_one_sameRing {s : State} (hc : s.Canon) {m : Nat} (hm : (s.chan m).ctxWait = none) :
    SameRing (s.chan m) ((s.grantCtxs 1).chan m) := by
  rw [State.grantCtxs]
  split
  · exact .refl _
  · next c _ =>
    split
    · exact .refl _
    · next w hw =>
      have hne : m ≠ c := by rintro rfl; rw [hm] at hw; cases hw
      have hadv : (s.advance c w.slot).Canon := (State.advance_keeps (.refl s) c w.slot).canon hc
      obtain ⟨x, hx⟩ := enlist_chan hadv c w.slot w.payload w.part w.origin m
      rw [State.grantCtxs, chan_of (pumpRing_chans _ _), hx, advance_chan hc, if_neg hne]
      exact ⟨_, _, x, rfl⟩

/-- The end of a command without a context leaves the ring of a channel whose slot waits for none. -/
theorem endOne_sameRing {s : State} (hc : s.Canon) {d : Cmd} (hctx : d.ctx = none) (status a b : Nat) (inherited : Bool) {m : Nat}
    (hm : (s.chan m).ctxWait = none) : SameRing (s.chan m) ((s.endOne d status a b inherited).chan m) := by
  have ended : ∃ u : State, u.Canon ∧ u.chans = s.chans ∧
      s.endOne d status a b inherited = ((u.drainDone d.chan).pumpRing d.chan).grantCtxs 1 := by
    unfold State.endOne
    rw [hctx]
    extract_lets +onlyGivenNames s0 s1 s2 ac s3 s4 s5 s6 s7
    have h0 : s0.Canon ∧ s0.chans = s.chans :=
      ⟨(State.refuseServed_keeps (State.recordOf_keeps (.refl s) _ _ _ _ _) _ _).canon hc,
        (State.refuseServed_only (within_of_all rfl) (State.recordOf_only (within_of_all rfl)
          (.refl (k := [.reg, .cqs, .gfe, .host, .fab, .out]) s) _ _ _ _ _) _ _).use .chans rfl⟩
    clear_value s0
    have h1 : s1.Canon ∧ s1.chans = s.chans := by
      have raised : ∀ w o k, (s0.raise w 0 o k).Canon ∧ (s0.raise w 0 o k).chans = s.chans := fun w o k =>
        ⟨(State.raise_keeps (.refl s0) _ _ _ _).canon h0.1, (raise_chans _ _ _ _ _).trans h0.2⟩
      simp only [s1]
      split
      · exact raised .tbl _ _
      · split
        · exact raised .tbl _ _
        · split
          · exact raised .gfe _ _
          · exact h0
    clear_value s1
    have h3 : s3.Canon ∧ s3.chans = s.chans :=
      ⟨(State.setAcct_keeps (State.countLost_keeps (.refl s1) _ _) _ _).canon h1.1,
        ((State.countLost_only (.refl _) (.refl s1) _ _).use .chans rfl).trans h1.2⟩
    clear_value s3
    have h4 : s4.Canon ∧ s4.chans = s.chans := by
      simp only [s4]
      split
      · exact h3
      · exact h3
    clear_value s4
    have h5 : s5.Canon ∧ s5.chans = s.chans := by
      simp only [s5]
      split
      · exact ⟨(State.chargeCyc_keeps (.refl s4) _ _ _).canon h4.1,
          ((State.chargeCyc_only (.refl _) (.refl s4) _ _ _).use .chans rfl).trans h4.2⟩
      · exact h4
    clear_value s5
    exact ⟨s7, (State.dropCmd_keeps (.refl s5) _).canon h5.1, ((State.dropCmd_only (.refl _) (.refl s5) _).use .chans rfl).trans h5.2, rfl⟩
  obtain ⟨u, hcu, hchans, hended⟩ := ended
  have hdrain := (SameRing.of_chans hchans m).trans (drainDone_sameRing hcu d.chan m)
  have hpump := hdrain.trans (.of_chans (pumpRing_chans (u.drainDone d.chan) d.chan) m)
  rw [hended]
  exact hpump.trans (grantCtxs_one_sameRing ((State.pumpRing_keeps (State.drainDone_keeps (.refl u) _) _).canon hcu)
    (hpump.ctxWait.trans hm))

/-- A slot that ends with `ST_RANGE` at its acceptance leaves the ring where it is. -/
theorem acceptRange_sameRing {s : State} (hc : s.Canon) (c : Nat) (slot : List Byte) (off : Nat) {o : Option Origin} {m : Nat}
    (hm : (s.chan m).ctxWait = none) : SameRing (s.chan m) ((s.acceptRange c slot off o).chan m) := by
  unfold State.acceptRange
  extract_lets +onlyGivenNames s1 id d gfe s2 extra s3 s4 s5
  have hs1 : s1.Canon ∧ SameRing (s.chan m) (s1.chan m) := by
    simp only [s1]
    split
    · exact ⟨closeCtx_canon hc c, closeCtx_sameRing hc c m⟩
    · exact ⟨hc, .refl _⟩
  have hs2 : s2.Canon ∧ SameRing (s.chan m) (s2.chan m) := ⟨canon_gfe hs1.1 _ rfl, hs1.2⟩
  clear_value s1 s2
  have hs3 : s3.Canon ∧ SameRing (s.chan m) (s3.chan m) := by
    simp only [s3, extra]
    split
    · exact ⟨(State.setExtra_keeps (.refl s2) _).canon hs2.1, hs2.2⟩
    · exact hs2
  clear_value s3
  have hs4 : s4.Canon ∧ SameRing (s.chan m) (s4.chan m) := by
    simp only [s4]
    split
    · exact ⟨(State.failCtx_keeps (.refl s3) _ _ _ _).canon hs3.1,
        hs3.2.trans (.of_chans ((State.failCtx_only (.refl _) (.refl s3) _ _ _ _).use .chans rfl) m)⟩
    · exact hs3
  clear_value s4
  have hs5 : s5.Canon ∧ SameRing (s.chan m) (s5.chan m) :=
    ⟨(State.endOne_keeps (.refl s4) _ _ _ _ _).canon hs4.1,
      hs4.2.trans (endOne_sameRing hs4.1 rfl _ _ _ _ (hs4.2.ctxWait.trans hm))⟩
  clear_value s5
  split
  · exact hs5.2.trans (closeCtx_sameRing hs5.1 c m)
  · exact hs5.2

/-! ## A slot that returns -/

/-- A slot whose checks pass is accepted: it becomes a command, waits for its context, or ends. -/
theorem acceptSlot_command {q : State} (hc : q.Canon) (c : Nat) (slot payload : List Byte) {o : Option Origin} (hgood : q.acceptBad c slot = none)
    (hctx : let q2 := if slotReqOpen slot then q.closeCtx c else q
      q2.needsCtx c slot = false ∨ q2.ctxFree c = true) :
    ∃ e, (q.acceptSlot c slot payload o).gfe.cmds = q.gfe.cmds ++ [e] ∧ e.chan = c ∧ e.slot = slot ∧ e.payload = payload ∧
      e.phase = .unissued ∧ e.cls = slotClass slot ∧
      ((q.acceptSlot c slot payload o).chan c).head = (q.chan c).head + BitVec.ofNat 32 (1 + slotExt slot) ∧
      ((q.acceptSlot c slot payload o).chan c).expSeq = (q.chan c).expSeq + 1 := by
  unfold State.acceptSlot
  rw [hgood]
  dsimp -zeta only
  extract_lets +onlyGivenNames q2
  have hq2 : q2.Canon ∧ SameRing (q.chan c) (q2.chan c) ∧ q2.gfe.cmds = q.gfe.cmds := by
    simp only [q2]
    split
    · exact ⟨closeCtx_canon hc c, closeCtx_sameRing hc c c, closeCtx_cmds q c⟩
    · exact ⟨hc, .refl _, rfl⟩
  have hfree : ¬(q2.needsCtx c slot && !q2.ctxFree c) = true := by
    rcases hctx with h | h <;> simp [q2, h]
  clear_value q2
  obtain ⟨hc2, hring, hcmds⟩ := hq2
  rw [if_neg hfree]
  obtain ⟨e, he, hchan, hslot, hpay, hphase, hcls⟩ := enlist_cmds (q2.advance c slot) c slot payload (q.fld .gfe c 0x214 2 0) o
  obtain ⟨x, hx⟩ := enlist_chan ((State.advance_keeps (.refl q2) c slot).canon hc2) c slot payload (q.fld .gfe c 0x214 2 0) o c
  rw [advance_chan hc2, if_pos rfl] at hx
  refine ⟨e, he.trans (congrArg (· ++ [e]) hcmds), hchan, hslot, hpay, hphase, hcls, ?_, ?_⟩
  · rw [hx, ← hring.head]
  · rw [hx, ← hring.expSeq]

theorem acceptSlot_waits {q : State} (hc : q.Canon) (c : Nat) (slot payload : List Byte) {o : Option Origin} (hgood : q.acceptBad c slot = none)
    (hctx : let q2 := if slotReqOpen slot then q.closeCtx c else q
      q2.needsCtx c slot = true ∧ q2.ctxFree c = false) :
    ∃ w, ((q.acceptSlot c slot payload o).chan c).ctxWait = some w ∧ w.slot = slot ∧
      ((q.acceptSlot c slot payload o).chan c).head = (q.chan c).head ∧
      ((q.acceptSlot c slot payload o).chan c).expSeq = (q.chan c).expSeq ∧
      ((q.acceptSlot c slot payload o).regGet .gfe c 0x22C).testBit 4 = true := by
  unfold State.acceptSlot
  rw [hgood]
  dsimp -zeta only
  extract_lets +onlyGivenNames q2
  have hq2 : q2.Canon ∧ SameRing (q.chan c) (q2.chan c) := by
    simp only [q2]
    split
    · exact ⟨closeCtx_canon hc c, closeCtx_sameRing hc c c⟩
    · exact ⟨hc, .refl _⟩
  have hfull : (q2.needsCtx c slot && !q2.ctxFree c) = true := by simp [q2, hctx.1, hctx.2]
  clear_value q2
  obtain ⟨hc2, hring⟩ := hq2
  rw [if_pos hfull, chan_of (raise_chans _ _ _ _ _), chan_self hc2]
  exact ⟨_, rfl, rfl, hring.head, hring.expSeq, raise_bit (setChan_canon hc2 _ _) _ _ _ 4 (by decide)⟩

theorem acceptSlot_range {q : State} (hc : q.Canon) (c : Nat) (slot payload : List Byte) {o : Option Origin} {off : Nat} (hbad : q.acceptBad c slot = some off) :
    ((q.acceptSlot c slot payload o).chan c).head = (q.chan c).head + BitVec.ofNat 32 (1 + slotExt slot) ∧
      ((q.acceptSlot c slot payload o).chan c).expSeq = (q.chan c).expSeq + 1 := by
  have hadv : (q.advance c slot).chan c = _ := (advance_chan hc c slot c).trans (if_pos rfl)
  have hring := acceptRange_sameRing ((State.advance_keeps (.refl q) c slot).canon hc) c slot off (o := o) (m := c) (by rw [hadv])
  unfold State.acceptSlot
  rw [hbad]
  exact ⟨by rw [hring.head, hadv], by rw [hring.expSeq, hadv]⟩

/-- The intake of a slot that returns in time, with its own checks' outcome still open. -/
theorem ringReadReturn_exec {s : State} {c : Nat} (hon : s.on = true) (hactive : (s.chan c).state = .active)
    {slot ext : List Byte} {x : HostRd} {rest : List HostRd}
    (htake : takeFirst (fun r : HostRd => r.id == .ring c) s.host.reads = some (x, rest))
    (hfresh : ∀ r, (s.chan c).reread = some r → r.returned < 8 ∧ s.clk.now < r.start + 2600) :
    let ch := s.chan c
    let q := ({ s with host := { s.host with reads := rest } } : State)
    let head : Bool := slotSeq slot == ch.expSeq.toNat && slotCrcOk slot
    (head = true → (ch.tail - ch.head).toNat < 1 + slotExt slot → exec (.ringReadReturn c slot ext) s =
      done ((q.setChan c { ch with reread := none, extWait := 1 + slotExt slot }).dropReads c)) ∧
    (head = true → ¬(ch.tail - ch.head).toNat < 1 + slotExt slot → slotXcrcOk slot ext = true →
      exec (.ringReadReturn c slot ext) s = done (q.acceptRing c slot ext)) ∧
    (¬(head = true ∧ (ch.tail - ch.head).toNat < 1 + slotExt slot) → ¬(head = true ∧ slotXcrcOk slot ext = true) →
      exec (.ringReadReturn c slot ext) s = done (q.setChan c { ch with reread := some (match ch.reread with
        | none => ⟨s.clk.now, 0, 0, slotSeq slot⟩
        | some r => { r with returned := r.returned + 1, lastSeq := slotSeq slot }) })) := by
  intro ch q head
  have hstart : exec (.ringReadReturn c slot ext) s = done (
      if head && decide ((ch.tail - ch.head).toNat < 1 + slotExt slot) then
        (q.setChan c { ch with reread := none, extWait := 1 + slotExt slot }).dropReads c
      else if head && slotXcrcOk slot ext then q.acceptRing c slot ext
      else q.setChan c { ch with reread := some (match ch.reread with
        | none => ⟨s.clk.now, 0, 0, slotSeq slot⟩
        | some r => { r with returned := r.returned + 1, lastSeq := slotSeq slot }) }) := by
    refine congrArg done ((if_neg (by simp [hon, inFlight_of htake])).trans ?_)
    rw [htake]
    refine (if_neg ?_).trans (congrArg (ite _ _) ?_)
    · rintro (h | h)
      · exact h hactive
      · cases hre : (s.chan c).reread with
        | none => rw [hre] at h; cases h
        | some r =>
          obtain ⟨h8, hlate⟩ := hfresh r hre
          rw [hre] at h
          simp [Nat.not_le.mpr h8, Nat.not_le.mpr hlate] at h
    · dsimp only [ch]
      cases (s.chan c).reread <;> rfl
  refine ⟨fun hh hshort => ?_, fun hh hlong hx => ?_, fun hshort hx => ?_⟩
  · exact hstart.trans (congrArg done (if_pos (by simpa [hh] using hshort)))
  · exact hstart.trans (congrArg done ((if_neg (by simpa [hh] using hlong)).trans (if_pos (by simp [hh, hx]))))
  · exact hstart.trans (congrArg done ((if_neg (by simpa using hshort)).trans (if_neg (by simpa using hx))))

theorem issueRing_chan (s : State) (c m : Nat) : (s.issueRing c).chan m = s.chan m := rfl

/-- Settles O22: by whether the verdict has come, and by the checks of the slot. -/
theorem ringReadsAcceptOrRereadSlots : Obligations.RingReadsAcceptOrRereadSlots := by
  unfold Obligations.RingReadsAcceptOrRereadSlots
  intro s c hc hon hactive ch
  refine ⟨?_, fun r hr hissued hdue hlate hup hcache => ?_, fun r hr hearly => ?_, fun r hr hover => ?_,
    fun r hr hret hlate => ?_⟩
  · intro slot ext x rest htake q q1 q2 head whole
    have hcq : q.Canon := canon_host hc _
    refine ⟨?_, fun hfresh => ⟨fun hh hwhole hx => ?_, fun hh hshort => ?_, fun hbad => ?_⟩⟩
    · rintro ⟨r, hr, hover⟩
      refine congrArg done ((if_neg (by simp [hon, inFlight_of htake])).trans ?_)
      rw [htake]
      refine if_pos (.inr ?_)
      rw [show (s.chan c).reread = some r from hr]
      simpa [or_comm] using hover
    · obtain ⟨-, haccept, -⟩ := ringReadReturn_exec hon hactive htake hfresh (slot := slot) (ext := ext)
      have hexec := haccept hh (by simpa [whole, Nat.not_lt] using hwhole) hx
      have hc1 : q1.Canon := 
        (State.extReads_keeps (State.dropReads_keeps (.refl _) _) _ _).canon (setChan_canon hcq _ _)
      have hch1 : q1.chan c = { ch with reread := none } := chan_self hcq c _
      have hpump : (q.acceptRing c slot ext) = (q1.acceptSlot c slot (ext.take (64 * slotExt slot)) none).pumpRing c := rfl
      rw [hpump] at hexec
      have hgfe1 : q1.gfe.cmds = s.gfe.cmds := rfl
      clear_value q1
      refine ⟨fun hgood hctx => ?_, fun hgood hneed hfull => ?_, fun off hoff => ?_⟩
      · obtain ⟨e, hcmds, hec, hes, hep, heph, hecls, hhead, hseq⟩ :=
          acceptSlot_command hc1 c slot (ext.take (64 * slotExt slot)) hgood hctx
        refine ⟨_, e, hexec, ?_, hec, hes, hep, heph, hecls, ?_, ?_⟩
        · rw [show ∀ u : State, u.endStep.gfe = u.gfe from fun _ => rfl, pumpRing_gfe, hcmds, hgfe1]
        · rw [endStep_chan, chan_of (pumpRing_chans _ _), hhead, hch1]
        · rw [endStep_chan, chan_of (pumpRing_chans _ _), hseq, hch1]
      · obtain ⟨w, hw, hws, hhead, hseq, hbit⟩ :=
          acceptSlot_waits hc1 c slot (ext.take (64 * slotExt slot)) hgood ⟨hneed, hfull⟩
        refine ⟨_, w, hexec, ?_, hws, ?_, ?_, ?_⟩
        · rw [endStep_chan, chan_of (pumpRing_chans _ _), hw]
        · rw [endStep_chan, chan_of (pumpRing_chans _ _), hhead, hch1]
        · rw [endStep_chan, chan_of (pumpRing_chans _ _), hseq, hch1]
        · rw [endStep_regGet, regGet_of_reg ((State.pumpRing_only (.refl _) (.refl _) c).use .reg rfl)]
          exact hbit
      · obtain ⟨hhead, hseq⟩ := acceptSlot_range hc1 c slot (ext.take (64 * slotExt slot)) hoff
        refine ⟨_, hexec, ?_, ?_⟩
        · rw [endStep_chan, chan_of (pumpRing_chans _ _), hhead, hch1]
        · rw [endStep_chan, chan_of (pumpRing_chans _ _), hseq, hch1]
    · obtain ⟨hwait, -, -⟩ := ringReadReturn_exec hon hactive htake hfresh (slot := slot) (ext := ext)
      exact ⟨_, hwait hh (by simpa [whole] using hshort), (endStep_chan _ c).trans (chan_self hcq c _)⟩
    · obtain ⟨-, -, hreread⟩ := ringReadReturn_exec hon hactive htake hfresh (slot := slot) (ext := ext)
      refine ⟨_, hreread ?_ ?_, (endStep_chan _ c).trans (chan_self hcq c _)⟩
      · rintro ⟨hh, hshort⟩
        rcases hbad with h | ⟨h, -⟩
        · exact Bool.false_ne_true (h.symm.trans hh)
        · exact absurd hshort (Nat.not_lt.mpr (by simpa [whole] using h))
      · rintro ⟨hh, hx⟩
        rcases hbad with h | ⟨-, h⟩
        · exact Bool.false_ne_true (h.symm.trans hh)
        · exact Bool.false_ne_true (h.symm.trans hx)
  · have hexec : exec (.ringRereadIssue c) s =
        done ((s.setChan c { ch with reread := some { r with issued := r.issued + 1 } }).issueRing c) := by
      refine congrArg done ?_
      simp only [show (s.chan c).reread = some r from hr]
      exact if_pos (by simp [hon, hactive, hissued, hdue, hlate, hup, hcache])
    refine ⟨_, hexec, (endStep_chan _ c).trans (chan_self hc c _), ?_⟩
    have hch := chan_self hc c { ch with reread := some { r with issued := r.issued + 1 } }
    have hring : (s.setChan c { ch with reread := some { r with issued := r.issued + 1 } }).ringOf c = s.ringOf c := by
      unfold State.ringOf
      rw [hch]
      rfl
    show s.out ++ [Output.ringRead c _ _] = _
    unfold State.ringAddr
    rw [hring, hch]
  · refine congrArg done ?_
    simp only [show (s.chan c).reread = some r from hr]
    refine if_neg ?_
    rcases hearly with h | h <;> simp [Nat.not_lt.mpr, Nat.not_le.mpr, h]
  · have hexec : exec (.doorbellStale c) s = done (
        let s1 := (s.setChan c { ch with
          state := .paused .stale, reread := none,
          stale := BitVec.ofNat 32 (ch.expSeq.toNat + r.lastSeq * 65536) }).dropReads c
        let rec32 := recordBytes ch.expSeq.toNat 0 stDoorbellStale 0 0 0 s.tickN s.stamp (granShift s.clk.period) 255
          r.lastSeq 0
        let s2 := (s1.hostRecord c rec32 none).raise .gfe c 0x22C 1
        if ch.bellAt = s.clk.now + 1 then s2.resumeChan c false else s2) := by
      refine congrArg done ?_
      simp only [show (s.chan c).reread = some r from hr]
      exact if_pos (by rcases hover with h | h <;> simp [hon, hactive, h])
    extract_lets +onlyGivenNames s1 rec32 s2 at hexec
    have hs2 : s2.Canon ∧ s2.chan c = { ch with
        state := .paused .stale, reread := none, stale := BitVec.ofNat 32 (ch.expSeq.toNat + r.lastSeq * 65536) } :=
      ⟨(State.raise_keeps (State.hostRecord_keeps (State.dropReads_keeps (.refl _) _) _ _ _) _ _ _ _).canon (setChan_canon hc _ _),
        (chan_of ((raise_chans _ _ _ _ _).trans (hostRecord_chans _ _ _ _)) c).trans (chan_self hc c _)⟩
    clear_value s2
    obtain ⟨hc2, hch2⟩ := hs2
    refine ⟨_, hexec, ?_⟩
    rw [endStep_chan]
    split
    · exact ⟨resumeChan_state hc2 c false, by rw [(resumeChan_ring hc2 c false).2, hch2]⟩
    · rw [hch2]
      exact ⟨rfl, rfl⟩
  · refine congrArg done ?_
    simp only [show (s.chan c).reread = some r from hr]
    exact if_neg (by simp [Nat.not_le.mpr hret, Nat.not_le.mpr hlate])

end Sys2Proof.Machine

/-! PROOFS. Commands of the front end (03 R91, R92; 04 R100 to R106, R113, R114; 13 R410): NOP, TIMESTAMP, fences and HOST_FENCE. -/

namespace Sys2Proof.Machine
open Sys2Proof

/-! ## Records -/

theorem endCmd_recordsIn (s : State) (d : Cmd) (status a b : Nat) : s.RecordsIn d (s.endCmd d status a b false) status a b :=
  fun hc hq hl hf => endCmd_records s d status a b hf hc
    (fun ⟨hok, hquiet⟩ => hq.elim (· hok) (fun h => by simp [h] at hquiet)) hl

/-- A command of the front end that ends at once, from its node. -/
theorem endsNow {s t : State} {n : Node} {op : Nat} {d : Cmd} {c : Instr} {f : State → Cmd → State} (hi : s.Issues n op t d)
    (hx : exec c s = done (s.gfeHead n op f)) (hclu : isClusterOp op = false) {status a b : Nat}
    (hf : f t d = t.endNow d status a b) : ∃ u, exec c s = .next u ∧ t.RecordsIn d u status a b :=
  ⟨_, gfe_exec hi hx, by rw [hf]; exact endNow_recordsIn (issues_op hi) hclu status a b⟩

/-! ## NOP and TIMESTAMP -/

theorem runTimestamp_plain {t : State} {d : Cmd} (h : (leField d.slot 16 1).testBit 1 = false) :
    t.runTimestamp d = t.endNow d stOk 0 0 := by
  unfold State.runTimestamp
  simp [h]

theorem runTimestamp_noObj {t : State} {d : Cmd} (h : (leField d.slot 16 1).testBit 1 = true)
    (hobj : t.liveObj (op32 d.slot 20) = none) : t.runTimestamp d = t.endNow d stRange 20 0 := by
  unfold State.runTimestamp
  simp [h, hobj]

/-- What a `TIMESTAMP` with a live object does, by the place of its 16 bytes. -/
theorem runTimestamp_obj {t : State} {d : Cmd} {o : Obj} (h : (leField d.slot 16 1).testBit 1 = true)
    (hobj : t.liveObj (op32 d.slot 20) = some o) :
    let off := op32 d.slot 24
    (o.tiles * 4096 < off + 16 → t.runTimestamp d = t.endNow d stRange 20 0) ∧
    (off + 16 ≤ o.tiles * 4096 → off % 16 ≠ 0 → t.runTimestamp d = t.endNow d stRange 24 0) ∧
    (∀ f, off + 16 ≤ o.tiles * 4096 → off % 16 = 0 → t.homeOf (op32 d.slot 20) (off / 4096) = some f →
      t.runTimestamp d = if (t.frame f).state = .poisoned then t.endNow d stPoisoned (op32 d.slot 20) (off / 4096)
        else (t.rewriteTile (op32 d.slot 20) (off / 4096) d.cls (off % 4096) t.stampRecord).endNow d stOk 0 0) := by
  intro off
  unfold State.runTimestamp
  simp only [h, hobj, if_true]
  refine ⟨fun hlong => if_pos hlong, fun hin hodd => ?_, fun f hin heven hhome => ?_⟩
  · rw [if_neg (Nat.not_lt.mpr hin), if_pos hodd]
  · rw [if_neg (Nat.not_lt.mpr hin), if_neg (Classical.not_not.mpr heven), hhome]

/-- Settles O23: `NOP` and `TIMESTAMP` end now; the stamp stands where the tile is rewritten. -/
theorem nopAndTimestampEndWithOk : Obligations.NopAndTimestampEndWithOk := by
  unfold Obligations.NopAndTimestampEndWithOk
  refine ⟨fun s t n d hi => endsNow hi rfl rfl rfl, fun s t n d hc hi => ?_⟩
  intro h off
  refine ⟨fun hplain => endsNow hi rfl rfl (runTimestamp_plain hplain),
    fun hobj hnone => endsNow hi rfl rfl (runTimestamp_noObj hobj hnone), fun o hobj hlive => ?_⟩
  obtain ⟨hlong, hodd, hplaced⟩ := runTimestamp_obj hobj hlive
  refine ⟨fun h1 => endsNow hi rfl rfl (hlong h1), fun h1 h2 => endsNow hi rfl rfl (hodd h1 h2), fun f hin heven hhome => ?_⟩
  have hrun := hplaced f hin heven hhome
  refine ⟨fun hpoisoned => endsNow hi rfl rfl (hrun.trans (if_pos hpoisoned)), fun hgood => ?_⟩
  obtain ⟨g, hg, hbytes⟩ := rewriteTile_spec t hc h (off / 4096) d.cls (off % 4096) t.stampRecord (liveObj_obj hlive) hhome
  have hop : slotOp d.slot ≠ foldOp := by rw [issues_op hi]; decide
  refine ⟨_, g, gfe_exec hi rfl, ?_, ?_⟩
  · rw [hrun, if_neg hgood, homeOf_objs (show (State.endStep _).objs = _ from endNow_objs _ d stOk 0 0 hop)]
    exact hg
  · rw [hrun, if_neg hgood, bytesAt_mem (show (State.endStep _).mem = _ from endNow_mem _ d stOk 0 0)]
    exact hbytes

/-! ## Fences -/

/-- Before the cutoff, a cycle without a command only moves the clock. -/
theorem idle_eq_toCycle {s : State} (hon : s.on = true) (hearly : s.clk.stage = .early) (hcyc : s.clk.cyc + 1 < s.cutoff) :
    s.idle = (s.toCycle (s.clk.cyc + 1)).endStep := by
  have hclk := toCycle_clk s (s.clk.cyc + 1)
  have hcut : (s.toCycle (s.clk.cyc + 1)).cutoff = s.cutoff := by unfold State.cutoff State.G; rw [hclk]
  unfold State.idle
  simp only [hon, Bool.not_true, Bool.false_eq_true, if_false]
  rw [show (s.toCycle (s.clk.cyc + 1)).clk.stage = .early by rw [hclk, ← hearly]]
  simp only [hcut, if_neg (Nat.not_le.mpr hcyc)]

/-- A lone signal of the cycle reports the counter as the cycle ends. -/
theorem closeFences_signal {s : State} {d : Cmd} {f : Nat} (htouched : s.gfe.touched = [f]) (happlied : s.applied f = [d]) :
    s.RecordsIn d s.closeFences stOk 0 (s.fence f).val.toNat := by
  have hclose : s.closeFences =
      State.wakeFence (State.endCmd { s with gfe := { s.gfe with touched := [] } } d stOk 0 (s.fence f).val.toNat false) f := by
    unfold State.closeFences
    rw [htouched]
    show State.wakeFence (List.foldl _ _ (s.applied f)) f = _
    rw [happlied]
    rfl
  intro hc hq hl hf
  rw [hclose]
  exact (State.wakeFence_keeps (.refl _) f).mem (endCmd_recordsIn { s with gfe := { s.gfe with touched := [] } } d _ _ _ hc hq hl hf)

/-- A signal that is in range sets its fence and waits for the end of its cycle. -/
theorem runFenceSignal_sets {t : State} {d : Cmd} (hok : t.fenceOk (op32 d.slot 16) = true) :
    let f := fenceNo (op32 d.slot 16)
    let cur := (t.fence f).val.toNat
    let v := fenceValue d.slot
    let isMax := (leField d.slot 20 1).testBit 0
    (isMax = true ∨ (v ≠ 0 ∧ v < 2 ^ 32 ∧ cur + v < 2 ^ 64)) →
      t.runFenceSignal d = (t.issue d (.waiting t.tickN)).setFenceVal f (if isMax then max cur v else cur + v) := by
  intro f cur v isMax hvalue
  refine (if_neg (by simp [hok])).trans ?_
  cases hmax : isMax with
  | true => exact if_pos hmax
  | false =>
    obtain ⟨hne, hsmall, hfits⟩ := hvalue.resolve_left (by simp [hmax])
    refine (if_neg (Bool.eq_false_iff.mp hmax)).trans (if_neg ?_)
    rintro (h | h | h)
    · exact hne h
    · exact absurd hsmall (Nat.not_lt.mpr h)
    · exact absurd hfits (Nat.not_lt.mpr h)

theorem setFenceVal_touched (s : State) (n v : Nat) : (s.setFenceVal n v).gfe.touched.contains n = true := by
  show (if s.gfe.touched.contains n = true then s.gfe.touched else s.gfe.touched ++ [n]).contains n = true
  split
  · assumption
  · simp

/-- Settles O24: the three outcomes of a signal, and the record of a lone one at the end of its cycle. -/
theorem fenceSignalReportsTheNewValue : Obligations.FenceSignalReportsTheNewValue := by
  unfold Obligations.FenceSignalReportsTheNewValue
  refine ⟨fun s t n d hi => ?_, fun s d f hpending hon hearly hcyc htouched happlied => ?_⟩
  · intro f cur v isMax next
    refine ⟨fun hbad => endsNow hi rfl rfl (if_pos (by simp [hbad])), fun hok hvalue => ?_, fun hok hadd hrange => ?_⟩
    · refine ⟨_, gfe_exec hi rfl, ?_⟩
      rw [runFenceSignal_sets hok hvalue]
      exact ⟨rfl, setFenceVal_touched _ _ _, rfl⟩
    · refine endsNow hi rfl rfl ((if_neg (by simp [hok])).trans ((if_neg ?_).trans (if_pos hrange)))
      exact Bool.eq_false_iff.mp hadd
  · refine ⟨_, step_of_empty hpending, ?_⟩
    rw [idle_eq_toCycle hon hearly hcyc]
    have hmove : s.toCycle (s.clk.cyc + 1) = (s.closeFences.endStep.clockTo (s.clk.cyc + 1)).settleCommits := if_pos (Nat.lt_succ_self _)
    intro hc hq hl hf
    rw [hmove]
    exact (State.settleCommits_keeps (.refl _)).mem (closeFences_signal htouched happlied hc hq hl hf)

/-- A `FENCE_WAIT` that has not waited, under the current generation. -/
theorem runFenceWait_new {t : State} {d : Cmd} (hnew : ∀ k, d.phase ≠ .waiting k) :
    let f := fenceNo (op32 d.slot 16)
    let cur := (t.fence f).val.toNat
    t.runFenceWait d = if !t.fenceOk (op32 d.slot 16) then t.endNow d stRange 16 0
      else if fenceValue d.slot ≤ cur then t.endNow d stOk 0 cur
      else if t.closesCycle d.node f then (t.endNow d stFenceCycle (op32 d.slot 16) (fenceValue d.slot)).raise .gfe 0 0x298 1
      else t.issue d (.waiting t.tickN) := by
  unfold State.runFenceWait
  cases hp : d.phase with
  | waiting k => exact absurd hp (hnew k)
  | _ => rfl

theorem runFenceWait_waiting {t : State} {d : Cmd} {k : Nat} (hwait : d.phase = .waiting k) :
    let cur := (t.fence (fenceNo (op32 d.slot 16))).val.toNat
    t.runFenceWait d = if fenceValue d.slot ≤ cur then t.endCmd d stOk 0 cur false else t := by
  unfold State.runFenceWait
  simp only [hwait]

/-- A timeout: too early, or with the end that the opcode and the wait give. -/
theorem fenceTimeout_exec {s : State} {n : Node} {d : Cmd} {k : Nat} (hon : s.on = true) (hwait : s.waitOf n = some (d, k)) :
    let cur := (s.fence (fenceNo (op32 d.slot 16))).val.toNat
    (s.tickN < k + s.fenceTimeout d.chan → exec (.fenceTimeout n) s = .next s.endStep) ∧
    (k + s.fenceTimeout d.chan ≤ s.tickN → exec (.fenceTimeout n) s = done (
      if slotOp d.slot = 0x0A then
        if (s.extra d.id).aux.all (fun w => (s.cmd? w).isNone) then s.endCmd d stOk 0 0 false
        else (s.endCmd d stFenceTimeout 0 0 false).raise .gfe 0 0x298 2
      else if fenceValue d.slot ≤ cur then s.endCmd d stOk 0 cur false
      else (s.endCmd d stFenceTimeout (op32 d.slot 16) cur false).raise .gfe 0 0x298 2)) := by
  refine ⟨fun hearly => congrArg done ?_, fun hdue => congrArg done ?_⟩
  · rw [hwait]
    exact if_pos (by simp [hearly])
  · rw [hwait]
    exact if_neg (by simp [hon, Nat.not_lt.mpr hdue])

/-- Settles O25: a wait by its phase and its value; a timeout by its time, its opcode and what it waits for. -/
theorem fenceWaitsEndOnValueOrTime : Obligations.FenceWaitsEndOnValueOrTime := by
  unfold Obligations.FenceWaitsEndOnValueOrTime
  refine ⟨fun s t n d hi => ?_, fun s n hon => ⟨fun hnone => ?_, fun d k hwait => ?_⟩⟩
  · intro f cur
    have hexec : exec (.fenceWait n) s = .next (t.runFenceWait d).endStep := gfe_exec hi rfl
    refine ⟨?_, fun hnew => ?_⟩
    · rintro ⟨k, hk⟩
      rw [runFenceWait_waiting hk] at hexec
      refine ⟨fun hsat => ?_, fun hmore => ?_⟩
      · rw [if_pos hsat] at hexec
        exact ⟨_, hexec, endCmd_recordsIn t d _ _ _⟩
      · rw [if_neg (Nat.not_le.mpr hmore)] at hexec
        exact hexec
    · have hrun := runFenceWait_new (t := t) hnew
      refine ⟨fun hbad => endsNow hi rfl rfl (hrun.trans (if_pos (by simp [hbad]))), fun hok => ?_⟩
      replace hrun := hrun.trans (if_neg (by simp [hok]))
      refine ⟨fun hsat => endsNow hi rfl rfl (hrun.trans (if_pos hsat)), fun hmore => ?_⟩
      replace hrun := hrun.trans (if_neg (Nat.not_le.mpr hmore))
      refine ⟨fun hcycle => ?_, fun hfree => ?_⟩
      · rw [hrun.trans (if_pos hcycle)] at hexec
        exact ⟨_, hexec, (endNow_recordsIn (issues_op hi) rfl _ _ _).later (State.raise_keeps (.refl _) _ _ _ _)⟩
      · rw [hrun.trans (if_neg (Bool.eq_false_iff.mp hfree))] at hexec
        exact ⟨_, hexec, rfl⟩
  · refine congrArg done ?_
    rw [hnone]
  · intro cur
    obtain ⟨hearly, hlate⟩ := fenceTimeout_exec hon hwait
    have all : (s.extra d.id).aux.all (fun w => (s.cmd? w).isNone) = true ↔ ∀ w ∈ (s.extra d.id).aux, s.cmd? w = none := by
      simp [List.all_eq_true]
    refine ⟨hearly, fun hdue hop => ?_, fun hdue hop => ?_⟩
    · have hexec := (hlate hdue).trans (congrArg done (if_pos hop))
      refine ⟨?_, fun hgone => ?_⟩
      · rintro ⟨w, hw, hsome⟩
        rw [if_neg (fun h => by rw [all.mp h w hw] at hsome; cases hsome)] at hexec
        exact ⟨_, hexec, (endCmd_recordsIn s d _ _ _).later (State.raise_keeps (.refl _) _ _ _ _)⟩
      · rw [if_pos (all.mpr hgone)] at hexec
        exact ⟨_, hexec, endCmd_recordsIn s d _ _ _⟩
    · have hexec := (hlate hdue).trans (congrArg done (if_neg (by rw [hop]; decide)))
      refine ⟨fun hmore => ?_, fun hsat => ?_⟩
      · rw [if_neg (Nat.not_le.mpr hmore)] at hexec
        exact ⟨_, hexec, (endCmd_recordsIn s d _ _ _).later (State.raise_keeps (.refl _) _ _ _ _)⟩
      · rw [if_pos hsat] at hexec
        exact ⟨_, hexec, endCmd_recordsIn s d _ _ _⟩

/-! ## HOST_FENCE -/

/-- A `HOST_FENCE` of a HOST channel over every object, or one that is live. -/
theorem runHostFence_host {t : State} {d : Cmd} (hkind : (t.chan d.chan).kind = .host)
    (hobj : (leField d.slot 20 1).testBit 0 = true ∨ (t.liveObj (op32 d.slot 16)).isSome = true) :
    let ws := if (leField d.slot 20 1).testBit 1 then t.writersOf ((leField d.slot 20 1).testBit 0) (op32 d.slot 16) d.id else []
    t.runHostFence d = if ws.isEmpty then t.endNow d stOk 0 0
      else (t.issue d (.waiting t.tickN)).setExtra { t.extra d.id with aux := ws } := by
  intro ws
  refine (if_neg (by simp [hkind])).trans (if_neg ?_)
  rcases hobj with h | h
  · simp [h]
  · simp [Option.isNone_eq_false_iff.mpr h]

/-- Settles O26: a head by its operands and its writers, a waiting fence by whether its writers have ended. -/
theorem hostFenceWaitsForItsWriters : Obligations.HostFenceWaitsForItsWriters := by
  unfold Obligations.HostFenceWaitsForItsWriters
  intro s n d
  refine ⟨fun t hfresh hi => ?_, fun k hwait hon hop => ⟨fun hgone => ?_, fun hleft hother => ?_⟩⟩
  · intro all ws
    have hstart : exec (.hostFence n) s = done (s.gfeHead n 0x0A State.runHostFence) := by
      refine congrArg done ?_
      rw [hfresh]
    have hexec := gfe_exec hi hstart
    refine ⟨fun hfabric => ?_, fun hkind => ⟨fun hall hnone => ?_, fun hobj => ?_⟩⟩
    · rw [hexec, show t.runHostFence d = t.endNow d stRange 0 0 from if_pos hfabric]
    · refine endsNow hi hstart rfl ((if_neg (by simp [hkind])).trans (if_pos ?_))
      simp [show (leField d.slot 20 1).testBit 0 = false from hall, hnone]
    · have hrun := runHostFence_host hkind hobj
      refine ⟨fun hnone => endsNow hi hstart rfl (hrun.trans (if_pos ?_)), fun hwait hws => ?_⟩
      · rcases hnone with h | h
        · rw [if_neg (Bool.eq_false_iff.mp h)]; rfl
        · rw [show t.writersOf _ (op32 d.slot 16) d.id = [] from h]; split <;> rfl
      · rw [if_pos hwait] at hrun
        have hne : ¬(t.writersOf ((leField d.slot 20 1).testBit 0) (op32 d.slot 16) d.id).isEmpty = true := by
          rw [List.isEmpty_iff]; exact hws
        rw [hrun.trans (if_neg hne)] at hexec
        have hid := setExtra_self (t.issue d (.waiting t.tickN)) { t.extra d.id with aux := ws }
        rw [show CmdExtra.cmd _ = d.id from extra_cmd t d.id] at hid
        exact ⟨_, hexec, congrArg CmdExtra.aux hid, rfl⟩
  · have hexec : exec (.hostFence n) s = .next (s.endCmd d stOk 0 0 false).endStep := by
      refine congrArg done ?_
      rw [hwait]
      exact if_pos (by simpa [hon, hop] using hgone)
    exact ⟨_, hexec, endCmd_recordsIn s d _ _ _⟩
  · refine congrArg done ?_
    rw [hwait]
    obtain ⟨w, hw, hsome⟩ := hleft
    refine (if_neg ?_).trans ?_
    · intro hall
      have hnone : s.cmd? w = none := by
        have := (Bool.and_eq_true_iff.mp hall).2
        simpa using List.all_eq_true.mp this w hw
      rw [hnone] at hsome
      cases hsome
    · unfold State.gfeHead
      split
      · rfl
      · split
        · rfl
        · next h hh => exact if_pos (hother h hh)

end Sys2Proof.Machine

/-! PROOFS. Command lists (03 R76 to R90; 06 R177, R178): launches, the fetch of their positions, the issue of their slots, patches
and scale sets. -/

namespace Sys2Proof.Machine
open Sys2Proof

/-! ## Launches -/

/-- The launch that a `LAUNCH_LIST` puts in flight. -/
def State.launchOf (s : State) (d : Cmd) : Launch :=
  { id := d.id, cmd := d.id, chan := d.chan, list := op32 d.slot 16, nextPos := leField d.slot 20 2, left := leField d.slot 22 2,
    bind := (upTo 8).map (fun k => op32 d.slot (24 + 4 * k)), payload := d.payload, preds := 0, predAt := [],
    issuedAt := s.clk.now, stop := none, degraded := 0 }

theorem runLaunchList_of_good {s : State} {d : Cmd} (h : s.launchBad d.slot = none) :
    s.runLaunchList d = if s.patchAhead d (op32 d.slot 16) then s
      else { s.issue d (.waiting s.tickN) with
        gfe := { (s.issue d (.waiting s.tickN)).gfe with
          launches := (s.issue d (.waiting s.tickN)).gfe.launches ++ [s.launchOf d] } } := by
  unfold State.runLaunchList
  rw [h]
  rfl

/-! ## The fetch of a position -/

/-- A launch that goes on fetches its next position. -/
theorem listPositionFetch_exec {s : State} {k : Nat} (bad : Option (Nat × PoisonCause)) {l : Launch} (hcores : s.coresRun = true)
    (htest : s.unitTest 1 = false) (hl : s.launch? k = some l) (hstop : l.stop = none) (hleft : l.left ≠ 0) :
    exec (.listPositionFetch k bad) s = .next (s.fetchNext l bad).endStep := by
  refine congrArg done ?_
  rw [hl]
  exact if_pos (by simp [hcores, htest, hstop, hleft])

/-- A position inside its list, in no cellar tile. -/
theorem fetchNext_near {s : State} {l : Launch} {o : Obj} (bad : Option (Nat × PoisonCause)) (hobj : s.obj? l.list = some o)
    (hin : l.nextPos < o.tiles * 64) (hnear : s.cellarPos l.list l.nextPos 1 = none) :
    ((s.poisonedPos l.list l.nextPos 1).isSome = true → s.fetchNext l bad = s.stopLaunch l.id l.nextPos stPoisoned) ∧
    (s.poisonedPos l.list l.nextPos 1 = none →
      (s.posReady l 1 = false → s.fetchNext l bad = s) ∧
      (s.posReady l 1 = true → (s.failedPos l.list l.nextPos 1 bad).isSome = true →
        s.fetchNext l bad = (s.poisonList l.list l.nextPos bad).stopLaunch l.id l.nextPos stPoisoned) ∧
      (s.posReady l 1 = true → s.failedPos l.list l.nextPos 1 bad = none →
        (slotCrcOk (s.position l.list l.nextPos) = false ∨ slotSeq (s.position l.list l.nextPos) ≠ l.nextPos % 65536) →
        s.fetchNext l bad = s.stopLaunch l.id l.nextPos stSlotCheck)) := by
  unfold State.fetchNext
  simp only [hobj, if_neg (Nat.not_le.mpr hin), hnear]
  refine ⟨fun h => if_pos h, fun h => ?_⟩
  rw [if_neg (by simp [h])]
  refine ⟨fun hr => if_pos (by simp [hr]), fun hr hf => ?_, fun hr hf hcheck => ?_⟩
  · rw [if_neg (by simp [hr]), if_pos hf]
  · rw [if_neg (by simp [hr]), if_neg (by simp [hf]), if_pos (by rcases hcheck with h | h <;> simp [h])]

/-- A slot whose own checks pass, with its extension slots: its XCRC decides. -/
theorem fetchNext_whole {s : State} {l : Launch} {o : Obj} (bad : Option (Nat × PoisonCause)) (hobj : s.obj? l.list = some o)
    (hin : l.nextPos < o.tiles * 64) (hnear : s.cellarPos l.list l.nextPos 1 = none)
    (hclean : s.poisonedPos l.list l.nextPos 1 = none) (hready : s.posReady l 1 = true)
    (hread : s.failedPos l.list l.nextPos 1 bad = none) :
    let slot := s.position l.list l.nextPos
    let n := 1 + slotExt slot
    let ext := (List.range' (l.nextPos + 1) (n - 1)).flatMap (fun q => s.position l.list q)
    slotCrcOk slot = true → slotSeq slot = l.nextPos % 65536 → listSlotBad slot = none → l.nextPos + n ≤ o.tiles * 64 →
    s.cellarPos l.list l.nextPos n = none → s.poisonedPos l.list l.nextPos n = none → s.posReady l n = true →
    s.failedPos l.list l.nextPos n bad = none →
    s.fetchNext l bad = if !slotXcrcOk slot ext then s.stopLaunch l.id l.nextPos stSlotCheck else s.addListed l slot ext := by
  intro slot n ext hcrc hseq hgood hfits hnear' hclean' hready' hread'
  unfold State.fetchNext
  simp only [hobj, if_neg (Nat.not_le.mpr hin), hnear]
  rw [if_neg (by simp [hclean]), if_neg (by simp [hready]), if_neg (by simp [hread]), if_neg (by simp [slot, hcrc, hseq]),
    if_neg (by simp [slot, hgood]), if_neg (Nat.not_lt.mpr hfits), hnear']
  dsimp only
  rw [hclean']
  dsimp only
  rw [if_neg (by simp [n, slot, hready']), hread']

theorem addListed_cmds {s : State} {l : Launch} {d : Cmd} (slot payload : List Byte) (hcmd : s.cmd? l.cmd = some d) :
    (s.addListed l slot payload).gfe.cmds = s.gfe.cmds ++
      [{ newCmd (s.gfe.nextId + 1) l.chan d.ctx slot payload d.part s.tickN with launch := some l.id, pos := l.nextPos, cls := d.cls }] := by
  unfold State.addListed
  rw [hcmd]
  rfl

/-! ## The issue of a slot -/

/-- A command of the front end in a launch is executed as at the head of a channel. -/
theorem listSlotIssue_gfe {s : State} {l : Nat} {d : Cmd} {op : Nat} (hon : s.on = true) (hhead : s.headOf (.launch l) = some d)
    (hop : slotOp d.slot = op) (hclu : isClusterOp op = false) :
    exec (.listSlotIssue l) s = done (s.gfeHead (.launch l) op (State.runGfe op)) := by
  subst hop
  refine congrArg done ((if_neg (by simp [hon])).trans ?_)
  unfold State.issueListed
  rw [hhead]
  exact if_neg (by simp [hclu])

/-- A cluster command in a launch is prepared for its dispatcher. -/
theorem listSlotIssue_cluster {s : State} {l : Nat} {d : Cmd} (hon : s.on = true) (hhead : s.headOf (.launch l) = some d)
    (hclu : isClusterOp (slotOp d.slot) = true) : exec (.listSlotIssue l) s = .next (s.prep (.launch l)).1.endStep := by
  refine congrArg done ((if_neg (by simp [hon])).trans ?_)
  unfold State.issueListed
  rw [hhead]
  exact if_pos hclu

theorem prep_skipped {s : State} {l : Nat} {d : Cmd} {x : Launch} (hiss : s.issuable (.launch l) = some d) (hl : d.launch = some l)
    (hx : s.launch? l = some x) (hskip : d.skips x.preds.toNat = true) :
    s.prep (.launch l) = (s.endCmd { d with slot := quietSlot d.slot } stOk 0 0 false, none) := by
  unfold State.prep
  simp only [hiss, hl, hx, hskip, if_true]

/-- Settles O27: a launch by its operands and patches, a fetch by its checks in order, an issue by its opcode. -/
theorem listsLaunchAndExecute : Obligations.ListsLaunchAndExecute := by
  unfold Obligations.ListsLaunchAndExecute
  refine ⟨fun s t n d hi => ⟨fun hgood hfree => ?_, fun hgood hpatch => ?_, fun off hbad => ?_⟩, ?_, fun s l d hon hhead => ?_⟩
  · have hrun : t.runLaunchList d = _ := (runLaunchList_of_good hgood).trans (if_neg (by rw [hfree]; decide))
    exact ⟨_, _, by rw [gfe_exec hi rfl, hrun], rfl, rfl, rfl, rfl, rfl, rfl, rfl, rfl, rfl, rfl, rfl⟩
  · rw [gfe_exec (f := State.runLaunchList) hi rfl, (runLaunchList_of_good hgood).trans (if_pos hpatch)]
  · exact endsNow hi rfl rfl (runLaunchList_of_bad hbad)
  · intro s k bad l o p slot n ext hcores htest hl hstop hleft hobj
    have hexec := listPositionFetch_exec bad hcores htest hl hstop hleft
    refine ⟨fun hend => ?_, fun k' hin hfar => ?_, fun hin hnear => ?_⟩
    · rw [hexec]; unfold State.fetchNext; simp only [hobj]; rw [if_pos hend]
    · rw [hexec]; unfold State.fetchNext; simp only [hobj]; rw [if_neg (Nat.not_le.mpr hin), hfar]
    · obtain ⟨hpoison, hrest⟩ := fetchNext_near bad hobj hin hnear
      refine ⟨fun h => by rw [hexec, hpoison h], fun hclean => ?_⟩
      obtain ⟨hwait, hfail, hcheck⟩ := hrest hclean
      refine ⟨fun h => by rw [hexec, hwait h], fun hready => ⟨fun h => by rw [hexec, hfail hready h], fun hread =>
        ⟨fun h => by rw [hexec, hcheck hready hread h], fun d hcrc hseq hgood hfits hnear' hclean' hready' hread' => ?_⟩⟩⟩
      have hwhole := fetchNext_whole bad hobj hin hnear hclean hready hread hcrc hseq hgood hfits hnear' hclean' hready' hread'
      refine ⟨fun hx => ?_, fun hx hcmd => ?_⟩
      · rw [hexec, hwhole.trans (if_pos (by rw [show slotXcrcOk _ _ = false from hx]; rfl))]
      · rw [hwhole.trans (if_neg (by rw [show slotXcrcOk _ _ = true from hx]; decide))] at hexec
        exact ⟨_, _, hexec, addListed_cmds _ _ hcmd, rfl, rfl, rfl, rfl, rfl, rfl, rfl⟩
  · have gfe : ∀ op, isClusterOp op = false → slotOp d.slot = op →
        exec (.listSlotIssue l) s = done (s.gfeHead (.launch l) op (State.runGfe op)) :=
      fun op hclu hop => listSlotIssue_gfe hon hhead hop hclu
    refine ⟨gfe 0x00 rfl, gfe 0x01 rfl, gfe 0x08 rfl, gfe 0x09 rfl, gfe 0x11 rfl, gfe 0x18 rfl, gfe 0x19 rfl, gfe 0x1A rfl,
      gfe 0x1B rfl, gfe 0x40 rfl, fun t op e hclu hi => ?_, fun x hclu hiss hl hx hphase hcond hpred => ?_⟩
    · obtain ⟨-, ⟨h, hh, hop⟩, hprep, -⟩ := hi
      obtain rfl : h = d := Option.some.inj (hh.symm.trans hhead)
      rw [listSlotIssue_cluster hon hhead (by rw [hop]; exact hclu), hprep]
    · have hskip : d.skips x.preds.toNat = true := by
        simp [Cmd.skips, hphase, hcond, hpred]
      rw [listSlotIssue_cluster hon hhead hclu, prep_skipped hiss hl hx hskip]

/-! ## Patches and scale sets -/

theorem SameCqRegs.holdHome {s t : State} (h : SameCqRegs s t) (j tile f : Nat) : SameCqRegs s (t.holdHome j tile f) := by
  unfold State.holdHome
  extract_lets +onlyGivenNames s1
  have h1 : SameCqRegs s s1 := by
    unfold s1
    split
    · split
      · exact h.abandonMove j tile false
      · exact h
    · exact h
  split
  · exact h1.dropWant j tile
  · exact h1

/-- Poisoning a tile leaves what a completion record is made from. -/
theorem poisonFrame_recordView (s : State) (f : Nat) (c : PoisonCause) : SameRecordView s (s.poisonFrame f c) := by
  have k := State.poisonFrame_only (.refl _) (.refl s) f c
  suffices h : SameCqRegs s (s.poisonFrame f c) ∧
      ((s.poisonFrame f c).integ.test, (s.poisonFrame f c).integ.wait) = (s.integ.test, s.integ.wait) from
    ⟨k.use .clk rfl, k.use .chans rfl, k.use .cqs rfl, k.use .link rfl, k.use .sec rfl, h.2, h.1⟩
  unfold State.poisonFrame
  extract_lets +onlyGivenNames r retire s1 integ s2
  have hlogged : SameCqRegs s (s2.faultLog 9 0xFF (poisonCode c) 0 r.obj r.tile (tierOf f) (frameNo f)) :=
    SameCqRegs.faultLog (t := s2) (.of_reg rfl) _ _ _ _ _ _ _ _
  have hevent := hlogged.trans (.of_reg ((State.raiseEvent_only (.refl _) (.refl _) 16).use .reg rfl))
  have htests := (State.holdHome_only (within_of_all rfl) (State.raiseEvent_only (within_of_all rfl)
    (State.faultLog_only (within_of_all rfl) (.refl (k := [.reg, .frames, .place, .host, .integ, .icnt, .out]) s2)
      9 0xFF (poisonCode c) 0 r.obj r.tile (tierOf f) (frameNo f)) 16) r.obj r.tile f).use .tests rfl
  exact ⟨hevent.holdHome _ _ _, htests⟩

theorem poisonIfBad_recordView (s : State) (d : Cmd) (h tile : Nat) : SameRecordView s (s.poisonIfBad d h tile) := by
  have same : SameRecordView s s := ⟨rfl, rfl, rfl, rfl, rfl, rfl, .of_reg rfl⟩
  unfold State.poisonIfBad
  split
  · exact same
  · split
    · split
      · split
        · exact poisonFrame_recordView s _ _
        · exact same
      · exact same
    · exact same

theorem withdrawLaunches_parts (ls : List Launch) (s : State) :
    (ls.foldl State.withdrawLaunch s).gfe.patches = s.gfe.patches ∧ (ls.foldl State.withdrawLaunch s).mem = s.mem :=
  foldl_invariant (P := fun t => t.gfe.patches = s.gfe.patches ∧ t.mem = s.mem) (fun t l h => by
    unfold State.withdrawLaunch
    split
    · exact h
    · exact h) ls s ⟨rfl, rfl⟩

/-- What a `PATCH_LIST` with its operands right does, by what its source and its slots show. -/
theorem runPatchList_good {t : State} {d : Cmd} (hgood : t.patchBad d = []) (hroom : t.gfe.patches.length < 1024) :
    let src := op32 d.slot 24
    let bad := if patchMode d.slot = 1 then t.badIn d src (op32 d.slot 28) (64 * leField d.slot 23 1) else none
    (∀ k, bad = some k → t.runPatchList d = (t.poisonIfBad d src k).endNow d stPoisoned src k) ∧
    (∀ k, bad = none → t.patchSlotBad d (t.patchWrites d) = some k → t.runPatchList d = t.endNow d stSlotCheck (op32 d.slot 16) k) ∧
    (bad = none → t.patchSlotBad d (t.patchWrites d) = none → ∃ (ls : List Launch) (p : Patch) (u : State), t.runPatchList d = ls.foldl State.withdrawLaunch u ∧
      u.gfe.patches = t.gfe.patches ++ [p] ∧ u.mem = t.mem ∧ p.cmd = d.id ∧ p.list = op32 d.slot 16 ∧
      p.writes = t.patchWrites d ∧ p.due = t.applyTick ∧ p.staged = false) := by
  intro src bad
  unfold State.runPatchList
  simp only [hgood, lowest_nil, if_neg (Nat.not_le.mpr hroom)]
  refine ⟨fun k hk => ?_, fun k hb hk => ?_, fun hb hk => ?_⟩
  · rw [show (if patchMode d.slot = 1 then _ else none) = some k from hk]
  · rw [show (if patchMode d.slot = 1 then _ else none) = none from hb]
    simp only [hk]
  · rw [show (if patchMode d.slot = 1 then _ else none) = none from hb]
    simp only [hk]
    exact ⟨_, _, _, rfl, rfl, rfl, rfl, rfl, rfl, rfl, rfl⟩

/-! ### Ending a command leaves the pending patches -/

theorem patches_of {s t : State} (h : t.gfe = s.gfe) : t.gfe.patches = s.gfe.patches := congrArg Gfe.patches h

theorem writeNext_patches (s : State) (c : Nat) (b : List Byte) : (s.writeNext c b).gfe.patches = s.gfe.patches := by
  unfold State.writeNext State.recordFlush
  extract_lets +onlyGivenNames q s1 s2 q2
  have h1 : s1.gfe.patches = s.gfe.patches := patches_of ((State.putRecord_only (.refl _) (.refl s) _ _ _).use .gfe rfl)
  split
  · split
    · exact h1
    · exact h1
  · exact h1

theorem hostRecord_patches (s : State) (c : Nat) (b : List Byte) (x : Option Nat) : (s.hostRecord c b x).gfe.patches = s.gfe.patches := by
  unfold State.hostRecord
  extract_lets +onlyGivenNames q behind full
  split
  · exact writeNext_patches s c b
  · extract_lets +onlyGivenNames s1
    split
    · exact patches_of (raise_gfe _ _ _ _ _)
    · rfl

theorem recordOf_patches (s : State) (d : Cmd) (status a b : Nat) (i : Bool) : (s.recordOf d status a b i).gfe.patches = s.gfe.patches := by
  unfold State.recordOf
  split
  · rfl
  · extract_lets +onlyGivenNames x flags bytes
    split
    · split
      · rfl
      · exact hostRecord_patches s _ _ _
    · split
      · exact patches_of ((State.batchRecord_only (.refl _) (.refl s) _ _ _).use .gfe rfl)
      · rfl

theorem settleCtx_patches (s : State) (i : Nat) : (s.settleCtx i).gfe.patches = s.gfe.patches := by
  unfold State.settleCtx
  split
  · rfl
  · split
    · extract_lets s1
      split <;> rfl
    · rfl

theorem failCtx_patches (s : State) (i st a b : Nat) : (s.failCtx i st a b).gfe.patches = s.gfe.patches := by
  unfold State.failCtx
  split
  · rfl
  · split <;> rfl

theorem rangeCtx_patches (s : State) (i : Nat) (o : Bool) : (s.rangeCtx i o).gfe.patches = s.gfe.patches := by
  unfold State.rangeCtx
  split
  · rfl
  · extract_lets +onlyGivenNames isOpen ch s1
    have h1 : s1.gfe.patches = s.gfe.patches := by
      unfold s1
      split <;> rfl
    split
    · exact h1
    · split
      · exact (settleCtx_patches _ _).trans h1
      · exact (settleCtx_patches _ _).trans h1

theorem closeCtx_patches (s : State) (c : Nat) : (s.closeCtx c).gfe.patches = s.gfe.patches := by
  unfold State.closeCtx
  split
  · rfl
  · rw [settleCtx_patches]
    split <;> rfl

theorem drainDone_patches (s : State) (c : Nat) : (s.drainDone c).gfe.patches = s.gfe.patches := by
  unfold State.drainDone
  extract_lets +onlyGivenNames ch
  split
  · exact closeCtx_patches s c
  · rfl

theorem enlist_patches (s : State) (c : Nat) (slot p : List Byte) (k : Nat) (o : Option Origin) :
    (s.enlist c slot p k o).gfe.patches = s.gfe.patches := by
  unfold State.enlist
  extract_lets +onlyGivenNames id need i dl ctxs d gfe s1 x s2 s3
  have h2 : s2.gfe.patches = s.gfe.patches := by
    unfold s2
    split <;> rfl
  have h3 : s3.gfe.patches = s.gfe.patches := by
    unfold s3
    split
    · exact (closeCtx_patches s2 c).trans h2
    · exact h2
  split <;> exact h3

theorem grantCtxs_patches (s : State) (n : Nat) : (s.grantCtxs n).gfe.patches = s.gfe.patches := by
  induction n generalizing s with
  | zero => rfl
  | succ n ih =>
    rw [State.grantCtxs]
    split
    · rfl
    · split
      · rfl
      · rw [ih, patches_of (pumpRing_gfe _ _), enlist_patches]
        rfl

theorem endOne_patches (s : State) (d : Cmd) (status a b : Nat) (i : Bool) : (s.endOne d status a b i).gfe.patches = s.gfe.patches := by
  unfold State.endOne
  extract_lets +onlyGivenNames s0 s1 s2 ac s3 s4 s5 s6 s7
  have h0 : s0.gfe.patches = s.gfe.patches :=
    (patches_of ((State.refuseServed_only (.refl _) (.refl _) _ _).use .gfe rfl)).trans (recordOf_patches s d status a b i)
  have h1 : s1.gfe.patches = s.gfe.patches := by
    unfold s1
    split
    · exact (patches_of (raise_gfe _ _ _ _ _)).trans h0
    · split
      · exact (patches_of (raise_gfe _ _ _ _ _)).trans h0
      · split
        · exact (patches_of (raise_gfe _ _ _ _ _)).trans h0
        · exact h0
  have h3 : s3.gfe.patches = s.gfe.patches :=
    (patches_of ((State.countLost_only (.refl _) (.refl s1) d status).use .gfe rfl)).trans h1
  have h4 : s4.gfe.patches = s.gfe.patches := by
    unfold s4
    split
    · split
      · exact (failCtx_patches _ _ _ _ _).trans h3
      · exact h3
    · exact h3
  have h5 : s5.gfe.patches = s.gfe.patches := by
    unfold s5
    split
    · exact (patches_of ((State.chargeCyc_only (.refl _) (.refl s4) _ _ _).use .gfe rfl)).trans h4
    · exact h4
  have h7 : s7.gfe.patches = s.gfe.patches := by
    unfold s7
    split
    · split
      · exact (rangeCtx_patches s6 _ _).trans h5
      · exact (settleCtx_patches s6 _).trans h5
    · exact h5
  rw [grantCtxs_patches, patches_of (pumpRing_gfe _ _), drainDone_patches]
  exact h7

theorem settleLaunch_patches (s : State) (l : Nat) : (s.settleLaunch l).gfe.patches = s.gfe.patches := by
  unfold State.settleLaunch State.endLaunch
  split
  · rfl
  · next x _ =>
    extract_lets +onlyGivenNames s1
    have h1 : s1.gfe.patches = s.gfe.patches := by
      unfold s1 State.abandonRest
      split
      · exact foldl_invariant (P := fun t => t.gfe.patches = s.gfe.patches) (fun t e h => by split <;> exact h) _ s rfl
      · rfl
    split
    · extract_lets +onlyGivenNames s2
      have h2 : s2.gfe.patches = s.gfe.patches := h1
      split
      · exact h2
      · split
        · exact (endOne_patches s2 _ _ _ _ _).trans h2
        · split
          · exact (endOne_patches s2 _ _ _ _ _).trans h2
          · exact (endOne_patches s2 _ _ _ _ _).trans h2
    · exact h1

theorem endCmd_patches (s : State) {d : Cmd} (hop : slotOp d.slot ≠ foldOp) (status a b : Nat) (i : Bool) :
    (s.endCmd d status a b i).gfe.patches = s.gfe.patches := by
  unfold State.endCmd
  rw [if_neg hop]
  extract_lets +onlyGivenNames s1
  have h1 : s1.gfe.patches = s.gfe.patches := endOne_patches s d status a b i
  split
  · exact h1
  · split
    · exact h1
    · exact (settleLaunch_patches _ _).trans h1

/-- The scales that a `SCALE_SET` stages. -/
def State.scaleStageOf (s : State) (d : Cmd) : ScaleStage :=
  { cmd := d.id, slots := (indexed (opBits d.slot 16 2 9 0) (s.scaleVals d)).map (fun y => (y.1, BitVec.ofNat 32 y.2)),
    due := s.applyTick, staged := false }

/-- Settles O28: by the operands, and then by the source tiles and the supplied slots. -/
theorem patchesAndScalesWaitForTheirEdge : Obligations.PatchesAndScalesWaitForTheirEdge := by
  unfold Obligations.PatchesAndScalesWaitForTheirEdge
  refine ⟨fun s t n d hi => ?_, fun s t n d hi => ⟨fun hgood => ?_, fun off hbad => endsNow hi rfl rfl ?_⟩⟩
  · intro src bad
    refine ⟨fun hgood hroom => ?_, fun off hbad => endsNow hi rfl rfl (runPatchList_of_bad hbad), fun hgood hfull => ?_⟩
    · obtain ⟨hpoison, hcheck, hheld⟩ := runPatchList_good hgood hroom
      refine ⟨fun hb hs => ?_, fun k hb hk => ?_, fun k hk => ?_⟩
      · obtain ⟨ls, p, u, hrun, hpatches, hmem, hcmd, hlist, hwrites, hdue, hstaged⟩ := hheld hb hs
        have hparts := withdrawLaunches_parts ls u
        refine ⟨_, p, gfe_exec hi rfl, ?_, hcmd, hlist, hwrites, hdue, hstaged, ?_⟩
        · rw [hrun]; exact hparts.1.trans hpatches
        · rw [hrun]; exact hparts.2.trans hmem
      · have hrun := hcheck k hb hk
        refine ⟨_, gfe_exec hi rfl, ?_, ?_⟩
        · rw [hrun]; exact endNow_recordsIn (issues_op hi) rfl _ _ _
        · rw [hrun]; exact endCmd_patches _ (by rw [issues_op hi]; decide) _ _ _ _
      · refine ⟨_, gfe_exec hi rfl, ?_⟩
        rw [hpoison k hk]
        exact (poisonIfBad_recordView t d src k).recordsIn (by rw [issues_op hi]; rfl) (endNow_recordsIn (issues_op hi) rfl _ _ _)
    · refine endsNow hi rfl rfl ?_
      unfold State.runPatchList
      simp only [hgood, lowest_nil, if_pos hfull]
  · have hrun : t.runScaleSet d = { t.issue d (.waiting t.tickN) with
        gfe := { (t.issue d (.waiting t.tickN)).gfe with
          scaleSets := (t.issue d (.waiting t.tickN)).gfe.scaleSets ++ [t.scaleStageOf d] } } := by
      unfold State.runScaleSet
      rw [hgood]
      rfl
    have hexec := gfe_exec (c := .scaleSet n) (f := State.runScaleSet) hi rfl
    rw [hrun] at hexec
    exact ⟨_, t.scaleStageOf d, hexec, rfl, rfl, rfl, rfl, rfl, rfl⟩
  · unfold State.runScaleSet
    rw [hbad]

end Sys2Proof.Machine

/-! PROOFS. Objects (10 R314 to R324): their creation and its completion, moves and clones. -/

namespace Sys2Proof.Machine
open Sys2Proof

/-! ## A creation whose command is a fold

The statement of O29 lets the command that an object's creation names be any command that is found under its number, a fold of the
same object among them. The end of a fold is not the end of a creation: it leaves the object's table no longer folding. -/

/-- A table that folds and is being filled by command 1. -/
def foldingObj : Obj :=
  { argObj with
    table := some (⟨4, 16, 0, 0, 0, 41, 4, 0, 0⟩, ⟨[], [], 0, true, false, 0, 0⟩)
    creation := .filling 1 }

/-- The fold of object 1, as command 1. -/
def foldOfObj1 : Cmd := newCmd 1 0 none ([0xF0] ++ zeros 15 ++ [1] ++ zeros 47) [] 0 0

/-- The reset state with the object and the fold. -/
def foldingState : State :=
  { State.reset with objs := [(1, foldingObj)], gfe := { State.reset.gfe with cmds := [foldOfObj1] } }

/-- Whether the table of object 1 folds after the completion of its fill. -/
def foldingAfterFill : Option Bool :=
  match exec (.zeroFillComplete 1) foldingState with
  | .next t => (t.obj? 1).bind (fun x => x.table.map (fun p => p.2.folding))
  | _ => none

/-- Refutes O29: where the command that the creation names is a fold of the object, its end changes more of the object than its
creation, because the table then no longer folds. -/
theorem not_objectsAreCreatedWithAllTheirFrames : ¬ Obligations.ObjectsAreCreatedWithAllTheirFrames := by
  unfold Obligations.ObjectsAreCreatedWithAllTheirFrames
  rintro ⟨-, fill, -⟩
  obtain ⟨u, hexec, hobj, -⟩ := (fill foldingState 1 1 foldingObj (by decide) (by decide) rfl).2 (by decide)
  have hstays : foldingAfterFill = some true := by
    unfold foldingAfterFill
    rw [hexec]
    simp only [hobj]
    rfl
  have hends : foldingAfterFill = some false := by decide +kernel
  rw [hends] at hstays
  cases hstays

/-! ## Moves -/

/-- A command of the front end that ends at once leaves the objects and the placement. -/
theorem endsNow_parts {s t : State} {n : Node} {op : Nat} {d : Cmd} {c : Instr} {f : State → Cmd → State} (hi : s.Issues n op t d)
    (hx : exec c s = done (s.gfeHead n op f)) (hclu : isClusterOp op = false) (hfold : op ≠ foldOp) {status a b : Nat}
    (hf : f t d = t.endNow d status a b) :
    ∃ u, exec c s = .next u ∧ t.RecordsIn d u status a b ∧ u.objs = t.objs ∧ u.place = t.place := by
  refine ⟨_, gfe_exec hi hx, ?_⟩
  rw [hf]
  exact ⟨endNow_recordsIn (issues_op hi) hclu status a b, endNow_objs t d status a b (by rw [issues_op hi]; exact hfold),
    (State.endNow_only (.refl _) (.refl t) d status a b).use .place rfl⟩

/-- What a `MOVE` of a live object does once its operands are right. -/
theorem runMove_good {t : State} {d : Cmd} {o : Obj} (hgood : t.moveBad d.slot = []) (hlive : t.liveObj (op32 d.slot 16) = some o) :
    let h := op32 d.slot 16
    let tier := opBits d.slot 28 1 2 0
    let pol := opBits d.slot 28 1 4 3
    let spread := leField d.slot 32 8
    let clus := t.spreadClus spread o.owner
    let range := tileRange (opBits d.slot 20 4 29 0) (opBits d.slot 24 4 30 0) o.tiles
    let frames := t.moveFrames tier o.cls ((if pol = 0 then o.policy else pol - 1) == 2) clus (t.mustMove o tier clus range)
    (tier = 3 → t.sup.inhibit = true → t.runMove d = t.endNow d stWriteInhibited t.vinMv 0) ∧
    (tier ≠ 3 ∨ t.sup.inhibit = false →
      (frames = none → t.runMove d = t.endNow d stNoResource 0x0201 0) ∧
      (∀ ms, frames = some ms → ∃ u : State,
        u.objs = (if pol = 0 then t else t.setObj h { o with policy := pol - 1, tier := tier, spread := spread }).objs ∧
        t.runMove d = (ms.foldl (fun x m => x.commandMove d.id h m.1 m.2 (t.cmdOrder d)) u).settleMove d.id)) := by
  intro h tier pol spread clus range frames
  unfold State.runMove
  rw [hgood, lowest_nil]
  dsimp only
  rw [hlive]
  dsimp only
  refine ⟨fun htier hinhibit => if_pos ⟨htier, hinhibit⟩, fun hfree => ?_⟩
  rw [if_neg (by rintro ⟨h1, h2⟩; rcases hfree with h3 | h3; exact h3 h1; rw [h2] at h3; cases h3)]
  refine ⟨fun hnone => ?_, fun ms hms => ?_⟩
  · rw [show t.moveFrames _ _ _ _ _ = none from hnone]
  · rw [show t.moveFrames _ _ _ _ _ = some ms from hms]
    refine ⟨_, ?_, rfl⟩
    exact foldl_invariant (P := fun x => x.objs = _)
      (fun x k hx => ((State.endBackground_only (.refl _) (.refl x) _ k).use .objs rfl).trans hx) _ _ rfl

theorem commandMoves_objs (id h : Nat) (ord : Nat × Nat × Nat) (ms : List (Nat × Nat)) (s : State) :
    (ms.foldl (fun x m => x.commandMove id h m.1 m.2 ord) s).objs = s.objs :=
  foldl_invariant (P := fun x => x.objs = s.objs)
    (fun x m hx => ((State.commandMove_only (.refl _) (.refl x) id h m.1 m.2 ord).use .objs rfl).trans hx) ms s rfl

/-! ## Clones -/

/-- What a `CLONE` does once its operands are right and no source tile is POISONED. -/
theorem runClone_clean {t : State} {d : Cmd} {o : Obj} (hgood : t.cloneBad d.slot = []) (hobj : t.operand (op32 d.slot 16) = some o)
    (hsrc : t.poisonedTile (op32 d.slot 16) = none) (hscale : t.poisonedTile o.scaleObj = none) :
    let many := 1048576 ≤ t.objs.length + (if op32 d.slot 24 = 0 then 0 else 1)
    (many → t.runClone d = t.endNow d stNoResource 0x0202 0) ∧
    (¬many → (t.enterClones d o = none → t.runClone d = t.endNow d stNoResource 0x0201 0) ∧
      (∀ q, t.enterClones d o = some q → t.sup.inhibit = false → ∃ ops,
        t.runClone d = (q.issue d (.waiting t.tickN)).queueFills ops)) := by
  intro many
  unfold State.runClone
  simp only [hgood, lowest_nil, hobj, hsrc, hscale]
  refine ⟨fun h => if_pos h, fun h => ?_⟩
  rw [if_neg h]
  refine ⟨fun hnone => by rw [hnone], fun q hq hinhibit => ?_⟩
  rw [hq]
  exact ⟨_, if_neg (by simp [hinhibit])⟩

theorem runClone_poisoned {t : State} {d : Cmd} {o : Obj} (hgood : t.cloneBad d.slot = []) (hobj : t.operand (op32 d.slot 16) = some o) :
    (∀ k, t.poisonedTile (op32 d.slot 16) = some k → t.runClone d = t.endNow d stPoisoned (op32 d.slot 16) k) ∧
    (∀ k, t.poisonedTile (op32 d.slot 16) = none → t.poisonedTile o.scaleObj = some k →
      t.runClone d = t.endNow d stPoisoned o.scaleObj k) := by
  unfold State.runClone
  simp only [hgood, lowest_nil, hobj]
  exact ⟨fun k hk => by rw [hk], fun k hnone hk => by rw [hnone, hk]⟩

/-- Settles O31: a move by its frames, a clone by its tiles, its room and its frames. -/
theorem moveAndCloneStartTheirWork : Obligations.MoveAndCloneStartTheirWork := by
  unfold Obligations.MoveAndCloneStartTheirWork
  refine ⟨fun s t n d hi => ?_, fun s t n d hi => ?_⟩
  · intro h tier pol spread
    refine ⟨fun off hbad => endsNow hi rfl rfl (by unfold State.runMove; rw [hbad]), fun o hgood hlive => ?_⟩
    intro clus todo pin
    obtain ⟨hinhibited, hfree⟩ := runMove_good hgood hlive
    refine ⟨fun htier hinhibit => ?_, fun hok => ⟨fun ms hms => ?_, fun hnone => ?_⟩⟩
    · obtain ⟨u, hexec, hrec, -, hplace⟩ := endsNow_parts (c := .move n) hi rfl rfl (by decide) (hinhibited htier hinhibit)
      exact ⟨u, hexec, hrec, hplace⟩
    · obtain ⟨u, hobjs, hrun⟩ := (hfree hok).2 ms hms
      refine ⟨_, gfe_exec hi rfl, ?_, ?_⟩
      · intro m hm
        rw [hrun, place_endStep, settleMove_place]
        exact (commandMoves_placed d.id h (t.cmdOrder d) ms u).2 m hm
      · rw [hrun, obj?_of_objs (show (State.endStep _).objs = _ from
          (settleMove_objs _ d.id).trans ((commandMoves_objs _ _ _ _ _).trans hobjs)) h]
        split
        · exact liveObj_obj hlive
        · exact State.obj?_setObj_self _ _ _
    · obtain ⟨u, hexec, hrec, -, hplace⟩ := endsNow_parts (c := .move n) hi rfl rfl (by decide) ((hfree hok).1 hnone)
      exact ⟨u, hexec, hrec, hplace⟩
  · intro src sn
    have ends : ∀ {status a b : Nat}, t.runClone d = t.endNow d status a b →
        ∃ u, exec (.clone n) s = .next u ∧ t.RecordsIn d u status a b ∧ u.objs = t.objs := by
      intro status a b hrun
      obtain ⟨u, hexec, hrec, hobjs, -⟩ := endsNow_parts (c := .clone n) hi rfl rfl (by decide) hrun
      exact ⟨u, hexec, hrec, hobjs⟩
    refine ⟨fun off hbad => ends (by unfold State.runClone; rw [hbad]), fun o hgood hobj => ?_⟩
    intro c
    obtain ⟨hsrc, hscale⟩ := runClone_poisoned hgood hobj
    refine ⟨fun k hk => ends (hsrc k hk), fun k hnone hk => ends (hscale k hnone hk), fun hnone hnone' => ?_⟩
    obtain ⟨hmany, hfew⟩ := runClone_clean hgood hobj hnone hnone'
    refine ⟨fun h => ends (hmany h), fun h => ?_⟩
    obtain ⟨hshort, hentered⟩ := hfew (Nat.not_le.mpr h)
    have enters : ∀ q, t.enterClones d o = some q → t.sup.inhibit = false →
        ∃ u, exec (.clone n) s = .next u ∧ u.objs = q.objs := by
      intro q hq hinhibit
      obtain ⟨ops, hrun⟩ := hentered q hq hinhibit
      refine ⟨_, gfe_exec hi rfl, ?_⟩
      rw [hrun]
      exact queueFills_objs _ ops
    refine ⟨fun h => ends (hshort h), fun fs hsn hinhibit hroom hplaced => ?_, enters⟩
    have hq : t.enterClones d o = some (t.enterObj (op32 d.slot 20) c fs (t.cmdOrder d)) := by
      have hfirst : t.enterClone (op32 d.slot 20) (cloneObj o d.slot d.chan d.id (op32 d.slot 16) (op32 d.slot 24)) (t.cmdOrder d) = some (t.enterObj (op32 d.slot 20) c fs (t.cmdOrder d)) := by
        refine (if_neg (Nat.not_lt.mpr hroom)).trans ?_
        rw [hplaced]
      unfold State.enterClones
      simp only [hfirst]
      exact if_pos hsn
    obtain ⟨u, hexec, hobjs⟩ := enters _ hq hinhibit
    refine ⟨u, hexec, ?_⟩
    rw [obj?_of_objs (hobjs.trans (enterObj_objs _ _ _ _ _))]
    exact State.obj?_setObj_self _ _ _

end Sys2Proof.Machine

/-! PROOFS. Commands on clusters (01 R20; 07; 08; 09; 11; 12): how the device work of each begins. -/

namespace Sys2Proof.Machine
open Sys2Proof

theorem isEmpty_of_ne {α : Type} {l : List α} (h : l ≠ []) : (!l.isEmpty) = true := by simpa using h

theorem not_isEmpty_of {α : Type} {l : List α} (h : l = []) : ¬(!l.isEmpty) = true := by simp [h]

/-! ## Products -/

/-- The device work of a product begins, or the run fetches, or it stops. -/
theorem runProduct_fresh {s : State} {n op : Nat} {r : Run} {d : Cmd} (hfresh : s.fresh n op = some (r, d)) :
    let p := s.product d.slot
    let far := s.farTiles (s.productReads p ++ s.selectedTiles d p)
    (far ≠ [] → s.runProduct n op = s.fetchAll d far) ∧
    (far = [] → ∀ x, s.productCond d p = some x → s.runProduct n op = s.stopFound n d x) ∧
    (far = [] → ∀ ox ow oy : Obj, s.productCond d p = none → s.operandRun p.x = some ox → s.operandRun p.w = some ow →
      s.operandRun p.y = some oy →
      let int := intPath p.xFmt ow.fmt oy.fmt
      let q := s.operandsOf d p ox ow oy
      let cs := if p.array then arrayChecks p q int (kappa p.xFmt ow.fmt)
        else skinkChecks p q int (chunkRate p.xFmt ow.fmt) (s.fillCycles d p n)
      s.runProduct n op = (s.readProduct d n p ow.fmt ow.rowBytes).prepare n r
        (s.framesOf d (s.withScales (s.productReads p) ++ s.selectedTiles d p)) cs none (cs.getLast?.elim 0 Check.due)) := by
  intro p far
  unfold State.runProduct
  rw [hfresh]
  refine ⟨fun hfar => if_pos (isEmpty_of_ne hfar), fun hnear x hcond => ?_, fun hnear ox ow oy hcond hx hw hy => ?_⟩
  · refine (if_neg (not_isEmpty_of hnear)).trans ?_
    rw [show s.productCond d _ = some x from hcond]
  · refine (if_neg (not_isEmpty_of hnear)).trans ?_
    rw [show s.productCond d _ = none from hcond]
    dsimp -zeta only
    rw [show s.operandRun (s.product d.slot).x = _ from hx, show s.operandRun (s.product d.slot).w = _ from hw,
      show s.operandRun (s.product d.slot).y = _ from hy]
    dsimp -zeta only
    extract_lets int q cs due reads
    have hdue : due = cs.getLast?.elim 0 Check.due := by
      unfold due
      cases cs.getLast? <;> rfl
    rw [hdue]

/-- Settles O32: the two opcodes run the same product. -/
theorem productsSetUpTheirChecks : Obligations.ProductsSetUpTheirChecks := by
  unfold Obligations.ProductsSetUpTheirChecks
  intro s n skink r d op run p far hc hfresh
  have hexec : exec run s = .next (s.runProduct n op).endStep := by cases skink <;> rfl
  obtain ⟨hfetch, hstop, hgo⟩ := runProduct_fresh hfresh
  refine ⟨fun hfar => by rw [hexec, hfetch hfar], fun hnear => ⟨fun ox ow oy hcond hx hw hy => ⟨_, hexec, ?_⟩,
    fun x hcond => ⟨_, hexec, ?_⟩⟩⟩
  · rw [endStep_clu, hgo hnear ox ow oy hcond hx hw hy]
    exact prepare_run ((State.readProduct_keeps (.refl s) _ _ _ _ _).canon hc) n r _ _ _ _
  · rw [endStep_clu, hstop hnear x hcond]
    exact stopFound_run hc (fresh_running hfresh) x

/-! ## VCHAIN -/

theorem laneFaults_cmds (s : State) (n id faults : Nat) (last : Option (Nat × Nat)) :
    (s.laneFaults n id faults last).gfe.cmds = s.gfe.cmds := by
  unfold State.laneFaults
  split
  · rfl
  · extract_lets k x k0 extra k1
    exact (congrArg Gfe.cmds (raise_gfe _ _ _ _ _)).trans rfl

/-- A run that has been prepared is the running one, if its operations have left the runs and the commands. -/
theorem prepare_running {s u : State} (hu : u.Canon) {n : Nat} {r : Run} {d : Cmd} (hrun : s.running n = some (r, d))
    (hcmds : u.gfe.cmds = s.gfe.cmds) (reads : List Nat) (cs : List Check) (w : Option RunWork) (due : Nat) :
    (u.prepare n r reads cs w due).running n =
      some ({ r with prepared := true, reads := reads, checks := cs, work := w, due := due }, d) :=
  running_of (prepare_run hu n r reads cs w due) ((cmd?_of_cmds (s := s) hcmds _).trans (running_run hrun).2)

/-- Work whose outputs find no frames stops its run. -/
theorem finishWork_stops {s : State} (hc : s.Canon) {n : Nat} {r : Run} {d : Cmd} (hrun : s.running n = some (r, d))
    {outs : List OutTile} (hnone : (s.dropResv d.id n).placeOut d n outs = none) (w : RunWork) :
    ((s.finishWork n d outs w).clu n).run = none := by
  unfold State.finishWork
  rw [hnone]
  exact stopWith_run hc hrun _ _ _

/-- Work whose outputs find frames is noted with them. -/
theorem finishWork_placed {s : State} (hc : s.Canon) {n : Nat} {r : Run} {d : Cmd} (hrun : s.running n = some (r, d))
    {outs : List OutTile} {hs : List Shadow} {u : State} (hplaced : (s.dropResv d.id n).placeOut d n outs = some (hs, u)) (w : RunWork) :
    (s.finishWork n d outs w).mem = u.mem ∧ ((s.finishWork n d outs w).clu n).run = some { r with work := some { w with shadows := hs } } ∧
      (s.finishWork n d outs w).cnts = u.cnts := by
  obtain ⟨hwork, hcu, -⟩ := finishWork_ok (w := w) hc hplaced (running_run hrun).1
  rw [hwork]
  exact ⟨rfl, setRun_run hcu n _, rfl⟩

theorem runVchain_fresh {s : State} {n : Nat} {r : Run} {d : Cmd} (hfresh : s.fresh n 0x22 = some (r, d)) :
    let v := s.progOf d
    let reads := s.withScales (s.vSrcTiles d v ++ s.vPartTiles d v)
    let far := s.farTiles (s.vSrcTiles d v ++ s.vPartTiles d v)
    let p := s.vPass n d v
    let c : Check := { kind := .summary, index := 0, row0 := 0, col0 := 0, int := false, rows := [p.2.2.2.1],
                       cols := p.2.2.2.2, mags := [], due := v.due }
    (far ≠ [] → s.runVchain n = s.fetchAll d far) ∧
    (far = [] → ∀ x, s.vchainCond d v = some x → s.runVchain n = s.stopFound n d x) ∧
    (far = [] → s.vchainCond d v = none → s.runVchain n =
      ((p.1.readTiles d n reads).prepare n r (s.framesOf d reads) [c] none v.due).finishWork n d p.2.1 p.2.2.1) := by
  intro v reads far p c
  unfold State.runVchain
  rw [hfresh]
  refine ⟨fun hfar => if_pos (isEmpty_of_ne hfar), fun hnear x hcond => ?_, fun hnear hcond => ?_⟩
  · refine (if_neg (not_isEmpty_of hnear)).trans ?_
    rw [show s.vchainCond d _ = some x from hcond]
  · refine (if_neg (not_isEmpty_of hnear)).trans ?_
    rw [show s.vchainCond d _ = none from hcond]

/-- Settles O33: a fetch, a pass whose outputs find frames or not, or a stop. -/
theorem vchainMakesItsPass : Obligations.VchainMakesItsPass := by
  unfold Obligations.VchainMakesItsPass
  intro s n r d v reads far p c q hc hfresh
  have hexec : exec (.vchain n) s = .next (s.runVchain n).endStep := rfl
  obtain ⟨hfetch, hstop, hgo⟩ := runVchain_fresh hfresh
  have hpass : (p.1.readTiles d n reads).Canon ∧ (p.1.readTiles d n reads).gfe.cmds = s.gfe.cmds :=
    ⟨(State.readTiles_keeps (State.vPass_keeps (.refl s) n d v) d n reads).canon hc,
      (congrArg Gfe.cmds ((State.readTiles_only (.refl _) (.refl p.1) d n reads).use .gfe rfl)).trans (laneFaults_cmds s _ _ _ _)⟩
  have hq : q.Canon := (State.prepare_keeps (.refl _) _ _ _ _ _ _).canon hpass.1
  have hrun : q.running n = _ := prepare_running hpass.1 (fresh_running hfresh) hpass.2 _ _ _ _
  refine ⟨fun hfar => by rw [hexec, hfetch hfar], fun hnear => ⟨fun hs u hcond hplaced => ?_, fun hcond hnone => ?_,
    fun x hcond => ⟨_, hexec, ?_⟩⟩⟩
  · obtain ⟨hmem, hclu, -⟩ := finishWork_placed hq hrun hplaced p.2.2.1
    refine ⟨_, hexec, ?_, ?_⟩
    · rw [hgo hnear hcond]; exact hmem
    · rw [endStep_clu, hgo hnear hcond]; exact hclu
  · exact ⟨_, hexec, by rw [endStep_clu, hgo hnear hcond]; exact finishWork_stops hq hrun hnone _⟩
  · rw [endStep_clu, hstop hnear x hcond]
    exact stopFound_run hc (fresh_running hfresh) x

/-! ## Table commands -/

/-- Whether an armed injection meets the path of a command that has something to check. -/
def State.tblHit (s : State) (n path : Nat) (busy : Bool) : Bool :=
  s.fld .clu n 0x1D0 31 31 == 1 && s.fld .clu n 0x1D0 5 5 == path && busy

/-- The injection is consumed where it meets its path; the check decides whether it shows. -/
theorem tblInject_eq (s : State) (n path : Nat) {idle : Prop} [Decidable idle] {busy : Bool} (hbusy : idle ↔ busy = false) :
    (if idle then (false, s) else s.tblInject n path) =
      (s.tblHit n path busy && s.fld .clu n 0x1C0 0 0 == 1, if s.tblHit n path busy then s.consume n 0x1D0 0x1C4 else s) := by
  unfold State.tblHit State.tblInject
  cases busy with
  | false => simp [hbusy]
  | true =>
    by_cases h1 : s.fld .clu n 0x1D0 31 31 = 1 <;> by_cases h2 : s.fld .clu n 0x1D0 5 5 = path <;> simp [hbusy, h1, h2]

/-- The state in which a table command starts to read: its injection consumed and its rows counted. -/
def State.tblStart (s : State) (n path : Nat) (busy : Bool) (rows : Nat) : State :=
  (if s.tblHit n path busy then s.consume n 0x1D0 0x1C4 else s).countRows n rows

theorem tblStart_parts {s : State} (hc : s.Canon) (n path : Nat) (busy : Bool) (rows : Nat) :
    (s.tblStart n path busy rows).Canon ∧ (s.tblStart n path busy rows).clus = s.clus ∧
      (s.tblStart n path busy rows).gfe = s.gfe ∧
      (s.tblStart n path busy rows).cnt n = { s.cnt n with tblRows := satAdd 32 (s.cnt n).tblRows rows } := by
  have h0 : ∀ u : State, u.Canon → u.clus = s.clus → u.gfe = s.gfe → u.cnts = s.cnts →
      (u.countRows n rows).Canon ∧ (u.countRows n rows).clus = s.clus ∧ (u.countRows n rows).gfe = s.gfe ∧
        (u.countRows n rows).cnt n = { s.cnt n with tblRows := satAdd 32 (s.cnt n).tblRows rows } := by
    intro u hcu hclus hgfe hcnts
    refine ⟨(countRows_keeps u n rows).canon hcu, hclus, hgfe, ?_⟩
    exact (State.cnt_setCnt_self hcu n _).trans (by rw [cnt_of hcnts])
  unfold State.tblStart
  split
  · exact h0 _ ((State.consume_keeps (.refl s) _ _ _).canon hc) ((State.consume_only (.refl _) (.refl s) _ _ _).use .clus rfl)
      ((State.consume_only (.refl _) (.refl s) _ _ _).use .gfe rfl) ((State.consume_only (.refl _) (.refl s) _ _ _).use .cnts rfl)
  · exact h0 s hc rfl rfl rfl

theorem runGather_fresh {s : State} {n : Nat} {run : Run} {d : Cmd} {r : Resolution} {o : Obj} {t : TableDesc} {y : TableDyn}
    (hfresh : s.fresh n 0x28 = some (run, d)) (hres : d.res = some r) (htable : s.tableOf (op32 d.slot 16) = some (o, t, y)) :
    let far := s.farTiles (s.gatherTiles (op32 d.slot 16) o r ++ s.gatherParts d)
    (far ≠ [] → s.runGather n = s.fetchAll d far) ∧
    (far = [] → ∀ x, s.gatherCond d = some x → s.runGather n = s.stopFound n d x) ∧
    (far = [] → s.gatherCond d = none → s.runGather n = s.workGather n run d o t r) := by
  intro far
  unfold State.runGather
  rw [hfresh]
  dsimp -zeta only
  rw [hres, htable]
  refine ⟨fun hfar => if_pos (isEmpty_of_ne hfar), fun hnear x hcond => ?_, fun hnear hcond => ?_⟩
  · refine (if_neg (not_isEmpty_of hnear)).trans ?_
    rw [hcond]
  · refine (if_neg (not_isEmpty_of hnear)).trans ?_
    rw [hcond]

theorem workGather_eq (s : State) (n : Nat) (run : Run) (d : Cmd) (o : Obj) (t : TableDesc) (r : Resolution) :
    let h := op32 d.slot 16
    let w := s.gatherWork d h o t r
    let parts := s.withScales (s.gatherParts d)
    let u := s.tblStart n 0 (!(bagsOf r.offs).isEmpty) w.2.2
    s.workGather n run d o t r = if s.tblHit n 0 (!(bagsOf r.offs).isEmpty) && s.fld .clu n 0x1C0 0 0 == 1 then u.tblMismatch n
      else (((u.readRows d n o.rowBytes (s.gatherRows d h o r)).readTiles d n parts).prepare n run
        (s.framesOf d (s.gatherTiles h o r ++ parts)) [] none 64).finishWork n d w.1 w.2.1 := by
  intro h w parts u
  unfold State.workGather
  rw [tblInject_eq s n 0 (busy := !(bagsOf r.offs).isEmpty) (by simp)]
  rfl

theorem workScatter_eq (s : State) (n : Nat) (run : Run) (d : Cmd) (o : Obj) (t : TableDesc) (r : Resolution) (slots : List Nat) :
    let h := op32 d.slot 16
    let xs := distinctRows s.fab.moduleId r.dest
    let busy := (s.updOf d).mode != 0 && !xs.isEmpty
    ∃ rows detailB plan, s.workScatter n run d o t r slots =
      if s.tblHit n 1 busy && s.fld .clu n 0x1C0 0 0 == 1 then (s.tblStart n 1 busy rows).tblMismatch n
      else ((s.writeNewRows d n h o t ((s.tblStart n 1 busy rows).readUpdate d n h o t (xs.map Prod.fst)) plan).prepare n run
        (s.framesOf d (s.withScales (s.updSrcTiles d t.elems ++ s.updRowTiles d h o t r))) [] none 64).finishWork n d []
          { RunWork.empty with remap := (xs.map Prod.fst).zip slots, remote := s.updateOuts d t r, detailA := xs.length, detailB := detailB } := by
  intro h xs busy
  have hj := tblInject_eq s n 1 (idle := (s.updOf d).mode = 0 ∨ xs.isEmpty = true) (busy := busy)
    (by simp only [busy]; cases xs.isEmpty <;> simp)
  unfold State.workScatter
  dsimp only
  rw [show (if (s.updOf d).mode = 0 ∨ (distinctRows s.fab.moduleId r.dest).isEmpty = true then (false, s) else s.tblInject n 1) = _
    from hj]
  exact ⟨_, _, _, rfl⟩

/-- A run whose work is wanted in its 64th cycle: it has its outputs, or stops. -/
theorem placed_or_stopped {s u : State} (hu : u.Canon) {n : Nat} {run : Run} {d : Cmd} (hrun : s.running n = some (run, d))
    (hgfe : u.gfe = s.gfe) (reads : List Nat) (outs : List OutTile) (w : RunWork) :
    let q := u.prepare n run reads [] none 64
    (∀ hs v, (q.dropResv d.id n).placeOut d n outs = some (hs, v) →
      (q.finishWork n d outs w).mem = v.mem ∧ (q.finishWork n d outs w).cnts = v.cnts ∧
        ((q.finishWork n d outs w).clu n).run =
          some { run with prepared := true, reads := reads, checks := [], work := some { w with shadows := hs }, due := 64 }) ∧
    ((q.dropResv d.id n).placeOut d n outs = none → ((q.finishWork n d outs w).clu n).run = none) := by
  intro q
  have hq : q.Canon := (State.prepare_keeps (.refl u) _ _ _ _ _ _).canon hu
  have hqr : q.running n = _ := prepare_running hu hrun (congrArg Gfe.cmds hgfe) reads [] none 64
  refine ⟨fun hs v hplaced => ?_, fun hnone => finishWork_stops hq hqr hnone w⟩
  obtain ⟨hmem, hclu, hcnts⟩ := finishWork_placed hq hqr hplaced w
  exact ⟨hmem, hcnts, hclu⟩

theorem runScatter_fresh {s : State} {n : Nat} {run : Run} {d : Cmd} {r : Resolution} {o : Obj} {t : TableDesc} {y : TableDyn}
    (hfresh : s.fresh n 0x29 = some (run, d)) (hres : d.res = some r) (htable : s.tableOf (op32 d.slot 16) = some (o, t, y)) :
    let h := op32 d.slot 16
    let k := (distinctRows s.fab.moduleId r.dest).length
    let slots := s.freeSlots h t y k
    let far := s.farTiles (s.updSrcTiles d t.elems ++ s.updRowTiles d h o t r ++ slotTiles o t slots)
    (far ≠ [] → s.runScatter n = s.fetchAll d far) ∧
    (far = [] → ∀ x, s.scatterCond d = some x → s.runScatter n = s.stopFound n d x) ∧
    (far = [] → s.scatterCond d = none → s.runScatter n =
      if slots.length < k then s.stopWith n stNoResource 0x0101 0 else s.workScatter n run d o t r slots) := by
  intro h k slots far
  unfold State.runScatter
  rw [hfresh]
  dsimp -zeta only
  rw [hres, htable]
  refine ⟨fun hfar => if_pos (isEmpty_of_ne hfar), fun hnear x hcond => ?_, fun hnear hcond => ?_⟩
  · refine (if_neg (not_isEmpty_of hnear)).trans ?_
    rw [hcond]
  · refine (if_neg (not_isEmpty_of hnear)).trans ?_
    rw [hcond]

/-- Settles O34: after the fetch and the conditions, the injection decides, and then the frames or pool slots. -/
theorem tableCommandsDoTheirWork : Obligations.TableCommandsDoTheirWork := by
  unfold Obligations.TableCommandsDoTheirWork
  intro s n run d r o t y hc hres htable h armed path on
  refine ⟨fun hfresh => ?_, fun hfresh => ?_⟩
  · intro far hit s0 w parts reads q
    have hexec : exec (.gatherPool n) s = .next (s.runGather n).endStep := rfl
    have hrun := fresh_running hfresh
    obtain ⟨hfetch, hstop, hgo⟩ := runGather_fresh hfresh hres htable
    refine ⟨fun hfar => by rw [hexec, hfetch hfar], fun x hnear hcond => ⟨_, hexec, ?_⟩, fun hnear hcond => ?_⟩
    · rw [endStep_clu, hstop hnear x hcond]
      exact stopFound_run hc hrun x
    · have hwork := (hgo hnear hcond).trans (workGather_eq s n run d o t r)
      let u := s.tblStart n 0 (!(bagsOf r.offs).isEmpty) w.2.2
      obtain ⟨hcu, hclus, hgfe, hcnt⟩ := tblStart_parts hc n 0 (!(bagsOf r.offs).isEmpty) w.2.2
      have hrunu := (running_congr hclus hgfe n).trans hrun
      refine ⟨fun hhit hon => ⟨_, hexec, ?_⟩, fun hoff => ?_⟩
      · have hmis := hwork.trans (if_pos (by rw [show s.tblHit n 0 _ = true from hhit]; exact hon))
        rw [endStep_clu, endStep_cnt, hmis, (tblMismatch_stops hcu hrunu).2, hcnt]
        exact ⟨(tblMismatch_stops hcu hrunu).1, rfl⟩
      · have hfin := hwork.trans (if_neg (by
          rcases hoff with h | h
          · rw [show s.tblHit n 0 _ = false from h, Bool.false_and]; decide
          · rw [show (s.fld .clu n 0x1C0 0 0 == 1) = false from h, Bool.and_false]; decide))
        have hreads : ((u.readRows d n o.rowBytes (s.gatherRows d h o r)).readTiles d n parts).Canon ∧
            ((u.readRows d n o.rowBytes (s.gatherRows d h o r)).readTiles d n parts).gfe = s.gfe ∧
            ((u.readRows d n o.rowBytes (s.gatherRows d h o r)).readTiles d n parts).cnts = u.cnts :=
          have k := State.readTiles_only (.refl _) (State.readRows_only (.refl _) (.refl u) d n o.rowBytes (s.gatherRows d h o r)) d n parts
          ⟨(State.readTiles_keeps (State.readRows_keeps (.refl u) _ _ _ _) _ _ _).canon hcu, (k.use .gfe rfl).trans hgfe, k.use .cnts rfl⟩
        obtain ⟨hcr, hgr, hcntr⟩ := hreads
        obtain ⟨hplace, hstopped⟩ := placed_or_stopped hcr hrun hgr (s.framesOf d reads) w.1 w.2.1
        refine ⟨fun hs v hplaced => ⟨_, hexec, ?_⟩, fun hnone => ⟨_, hexec, ?_⟩⟩
        · obtain ⟨hmem, hcnts, hclu⟩ := hplace hs v hplaced
          rw [endStep_clu, endStep_cnt, hfin]
          refine ⟨hmem, ?_, hclu⟩
          have hv : v.cnts = u.cnts :=
            (((State.placeOut_only (.refl _) (.refl _) d n w.1).use hplaced).use .cnts rfl).trans hcntr
          rw [cnt_of (hcnts.trans hv), hcnt]
        · rw [endStep_clu, hfin]
          exact hstopped hnone
  · intro xs slots far hit
    have hexec : exec (.scatterUpdate n) s = .next (s.runScatter n).endStep := rfl
    have hrun := fresh_running hfresh
    obtain ⟨hfetch, hstop, hgo⟩ := runScatter_fresh hfresh hres htable
    refine ⟨fun hfar => by rw [hexec, hfetch hfar], fun x hnear hcond => ⟨_, hexec, ?_⟩, fun hnear hcond => ?_⟩
    · rw [endStep_clu, hstop hnear x hcond]
      exact stopFound_run hc hrun x
    · have hready := hgo hnear hcond
      obtain ⟨rows, detailB, plan, hwork⟩ := workScatter_eq s n run d o t r slots
      obtain ⟨hcu, hclus, hgfe, hcnt⟩ := tblStart_parts hc n 1 ((s.updOf d).mode != 0 && !xs.isEmpty) rows
      have hhits : s.tblHit n 1 ((s.updOf d).mode != 0 && !xs.isEmpty) = hit := (Bool.and_assoc _ _ _).symm
      refine ⟨fun hfew => ⟨_, hexec, ?_⟩, fun hmany hhit hon => ⟨_, hexec, ?_⟩, fun hmany hoff => ?_⟩
      · rw [endStep_clu, hready.trans (if_pos hfew)]
        exact stopWith_run hc hrun _ _ _
      · have hmis := (hready.trans (if_neg (Nat.not_lt.mpr hmany))).trans (hwork.trans (if_pos (by
          rw [show s.tblHit n 1 _ = true from hhits.trans hhit]; exact hon)))
        have hstops := tblMismatch_stops hcu ((running_congr hclus hgfe n).trans hrun)
        rw [endStep_clu, endStep_cnt, hmis, hstops.2, hcnt]
        exact ⟨hstops.1, rfl⟩
      · have hfin := (hready.trans (if_neg (Nat.not_lt.mpr hmany))).trans (hwork.trans (if_neg (by
          rw [show s.tblHit n 1 _ = hit from hhits]
          rcases hoff with h | h
          · rw [h, Bool.false_and]; decide
          · rw [show (s.fld .clu n 0x1C0 0 0 == 1) = false from h, Bool.and_false]; decide)))
        let u := s.tblStart n 1 ((s.updOf d).mode != 0 && !xs.isEmpty) rows
        let v := s.writeNewRows d n h o t (u.readUpdate d n h o t (xs.map Prod.fst)) plan
        have hv : v.Canon ∧ v.gfe = s.gfe :=
          ⟨(State.writeNewRows_keeps (State.readUpdate_keeps (.refl u) d n h o t (xs.map Prod.fst)) d n h o t plan).canon hcu,
            ((State.writeNewRows_only (.refl _) (State.readUpdate_only (within_of_all rfl) (.refl u) d n h o t (xs.map Prod.fst))
              d n h o t plan).use .gfe rfl).trans hgfe⟩
        have hq : (v.prepare n run (s.framesOf d (s.withScales (s.updSrcTiles d t.elems ++ s.updRowTiles d h o t r))) [] none 64).running n = _ :=
          prepare_running hv.1 hrun (congrArg Gfe.cmds hv.2) _ [] none 64
        obtain ⟨-, hclu, -⟩ := finishWork_placed ((State.prepare_keeps (.refl v) _ _ _ _ _ _).canon hv.1) hq (outs := []) rfl
          { RunWork.empty with remap := (xs.map Prod.fst).zip slots, remote := s.updateOuts d t r, detailA := xs.length, detailB := detailB }
        rw [← hfin] at hclu
        exact ⟨_, _, _, hexec, hclu, rfl, rfl, rfl, rfl, rfl, rfl⟩

end Sys2Proof.Machine

/-! PROOFS. Stream and host commands (11 R354; 12 R379 to R393): how they start, and what the returns of their reads do. -/

namespace Sys2Proof.Machine
open Sys2Proof

/-! ## The start of stream and host commands -/

theorem runHostWrite_fresh {s : State} {n : Nat} {r : Run} {d : Cmd} (hfresh : s.fresh n 0x38 = some (r, d)) :
    let ts := writeTiles d.slot
    let staged : State := { s.readTiles d n ts with
      host := { (s.readTiles d n ts).host with staged := (s.readTiles d n ts).host.staged ++ [(d.id, hostLen d.slot)] } }
    s.runHostWrite n =
      if s.wrFree < hostLen d.slot then s
      else if !(s.farTiles ts).isEmpty then s.fetchAll d (s.farTiles ts)
      else (ts.find? (fun t => s.tileBad d t.1 t.2)).elim
        (staged.prepare n r (s.framesOf d ts) [] (some { RunWork.empty with
            host := [(hostAddr d.slot, s.objBytes d (op32 d.slot 24) (hostOff d.slot) (hostLen d.slot))] })
          (64 + ceilDiv (hostLen d.slot) 512))
        (fun t => s.stopFound n d (stPoisoned, t.1, t.2)) := by
  intro ts staged
  unfold State.runHostWrite
  rw [hfresh]
  refine congrArg (ite _ _) (congrArg (ite _ _) ?_)
  cases List.find? _ (writeTiles d.slot) <;> rfl

theorem runHostRead_fresh {s : State} {n : Nat} {r : Run} {d : Cmd} (hfresh : s.fresh n 0x39 = some (r, d)) :
    let ts := readParts d.slot
    s.runHostRead n =
      if s.linkUp = false ∨ s.link.cacheEn = false then s
      else if !(s.farTiles ts).isEmpty then s.fetchAll d (s.farTiles ts)
      else (ts.find? (fun t => s.tileBad d t.1 t.2)).elim
        (((s.readTiles d n ts).prepare n r (s.framesOf d ts) [] none 64).pumpLines n)
        (fun t => s.stopFound n d (stPoisoned, t.1, t.2)) := by
  intro ts
  unfold State.runHostRead
  rw [hfresh]
  refine congrArg (ite _ _) (congrArg (ite _ _) ?_)
  cases List.find? _ (readParts d.slot) <;> rfl

/-- A list with an element that satisfies `p` has a first one. -/
theorem find?_of_exists {α : Type} {l : List α} {p : α → Bool} (h : ∃ x ∈ l, p x = true) : ∃ x, l.find? p = some x :=
  Option.isSome_iff_exists.mp (List.find?_isSome.mpr h)

/-- Settles O35: each by what it waits for, its fetches, its POISONED tiles, and its preparation. -/
theorem streamAndHostCommandsStart : Obligations.StreamAndHostCommandsStart := by
  unfold Obligations.StreamAndHostCommandsStart
  intro s n r d hc
  refine ⟨fun arm hfresh => ?_, fun hfresh => ?_, fun hfresh => ?_⟩
  · have hexec : exec (if arm then .streamArm n else .streamRearm n) s = .next (s.prepare n r [] [] (some RunWork.empty) 47).endStep := by
      cases arm
      · exact congrArg done (by unfold State.runStreamCmd; rw [show s.fresh n 0x31 = _ from hfresh])
      · exact congrArg done (by unfold State.runStreamCmd; rw [show s.fresh n 0x30 = _ from hfresh])
    exact ⟨_, hexec, prepare_run hc n r _ _ _ _⟩
  · intro far
    have hexec : exec (.hostWrite n) s = .next (s.runHostWrite n).endStep := rfl
    rw [runHostWrite_fresh hfresh] at hexec
    refine ⟨fun hfull => by rw [hexec, if_pos hfull], fun hroom hfar => ?_, fun hroom hnear hbad => ?_, fun hroom hnear hgood => ?_⟩
    · rw [hexec, if_neg (Nat.not_lt.mpr hroom), if_pos (isEmpty_of_ne hfar)]
    · rw [if_neg (Nat.not_lt.mpr hroom), if_neg (not_isEmpty_of hnear)] at hexec
      obtain ⟨x, hx⟩ := find?_of_exists hbad
      rw [hx] at hexec
      exact ⟨_, hexec, stopFound_run hc (fresh_running hfresh) _⟩
    · rw [if_neg (Nat.not_lt.mpr hroom), if_neg (not_isEmpty_of hnear), find?_none_of hgood] at hexec
      refine ⟨_, hexec, ?_, ?_⟩
      · show (s.readTiles d n _).host.staged ++ _ = _
        rw [readTiles_host]
      · exact prepare_run (canon_host ((readTiles_keeps s d n _).canon hc) _) n r _ _ _ _
  · intro far
    have hexec : exec (.hostRead n) s = .next (s.runHostRead n).endStep := rfl
    rw [runHostRead_fresh hfresh] at hexec
    refine ⟨fun hdown => by rw [hexec, if_pos hdown], fun hup hcache => ?_⟩
    rw [if_neg (by simp [hup, hcache])] at hexec
    refine ⟨fun hfar => by rw [hexec, if_pos (isEmpty_of_ne hfar)], fun hnear hbad => ?_, fun hnear hgood => ?_⟩
    · rw [if_neg (not_isEmpty_of hnear)] at hexec
      obtain ⟨x, hx⟩ := find?_of_exists hbad
      rw [hx] at hexec
      exact ⟨_, hexec, stopFound_run hc (fresh_running hfresh) _⟩
    · rw [if_neg (not_isEmpty_of hnear), find?_none_of hgood, Option.elim_none] at hexec
      refine ⟨_, hexec, ?_⟩
      rw [endStep_clu, clu_of_clus (pumpLines_keep _ n).2]
      exact prepare_run ((readTiles_keeps s d n _).canon hc) n r _ _ _ _

/-! ## A failed flush read of a command in a list

The statement of O36 takes any `HOST_WRITE` that waits for the failed read, also one of a command list. Its failure stops its launch;
where that ends the launch, the `LAUNCH_LIST` ends with the same status, and its record is lost too. -/

/-- A `LAUNCH_LIST` of channel 3, and the `HOST_WRITE` of its launch that waits for the flush read 5. -/
def lostLaunch : Cmd := { newCmd 1 3 none (0x10 :: zeros 63) [] 0 0 with phase := .waiting 0, begun := true }

def lostWrite : Cmd := { newCmd 2 3 none (0x38 :: zeros 63) [] 0 0 with launch := some 1, phase := .flush 0 true, begun := true }

/-- The reset state with the link UP, the launch fetched to its end, and the flush read under way. -/
def lostState : State :=
  { State.reset with
    link := { State.reset.link with state := .up }
    host := { State.reset.host with reads := [⟨.flush 3, 5, 0⟩] }
    gfe := { State.reset.gfe with
      cmds := [lostLaunch, lostWrite]
      extra := [⟨2, none, [], none, 0, 0, [5], [], false, []⟩]
      launches := [⟨1, 1, 3, 20, 1, 0, [], [], 0, [], 0, none, 0⟩] } }

theorem lostState_canon : lostState.Canon :=
  ⟨by decide, by decide, by decide, by decide, by decide, by decide, by decide, by decide, by decide, by decide, by decide,
    by decide, List.Pairwise.nil⟩

/-- The lost records of channel 3 after the failed read. -/
def lostAfterFailure : Option (BitVec 16) :=
  match exec (.flushReadReturn 3 false) lostState with
  | .next t => some (t.cq 3).lostCount
  | _ => none

/-- Refutes O36: where the command that loses its record is the last of a launch, the `LAUNCH_LIST` loses its record with it, and the
channel counts two. -/
theorem not_hostReadsAndWritesRunToTheirEnd : ¬ Obligations.HostReadsAndWritesRunToTheirEnd := by
  unfold Obligations.HostReadsAndWritesRunToTheirEnd
  rintro ⟨-, flush, -⟩
  obtain ⟨-, -, -, -, returned⟩ := flush lostState 3 (by decide)
  obtain ⟨-, -, -, failed⟩ := returned ⟨.flush 3, 5, 0⟩ [] rfl (by decide)
  obtain ⟨t, hexec, hlost⟩ := failed lostWrite lostState_canon (by decide) (by decide)
  have hone : lostAfterFailure = some 1 := by
    unfold lostAfterFailure
    rw [hexec]
    simp only [hlost]
    decide
  have htwo : lostAfterFailure = some 2 := by decide +kernel
  rw [htwo] at hone
  exact absurd hone (by decide)

end Sys2Proof.Machine

/-! PROOFS. Resolutions: their beginning, their values and their end; the folds. -/
namespace Sys2Proof.Machine
open Sys2Proof

/-! ## What a record is made from, for a cluster command too -/

theorem SameRecordView.recordsIn_of_extra {s t u : State} {d : Cmd} {status a b : Nat} (h : SameRecordView s t)
    (hx : t.extra d.id = s.extra d.id) (hr : t.RecordsIn d u status a b) : s.RecordsIn d u status a b :=
  fun hc hq hl hf => by
    have hmem := hr (h.canRecord hc) hq hl hf
    rw [hx] at hmem
    rw [← h.recordOut]
    exact hmem

/-- Ending a command after its operand tile is poisoned gives the record that is due before. -/
theorem poisonIfBad_endCmd_recordsIn (s : State) (d : Cmd) (h tile status a b : Nat) :
    s.RecordsIn d ((s.poisonIfBad d h tile).endCmd d status a b false) status a b := by
  refine (poisonIfBad_recordView s d h tile).recordsIn_of_extra ?_ (endCmd_recordsIn _ d status a b)
  unfold State.extra
  rw [poisonIfBad_gfe]

theorem RecordsIn.of_prefix {s u v : State} {d : Cmd} {status a b : Nat} (h : s.RecordsIn d u status a b)
    (hout : u.out <+: v.out) : s.RecordsIn d v status a b :=
  fun hc hq hl hf => hout.subset (h hc hq hl hf)

/-! ## The beginning of a resolution -/

/-- The handles that the launch of a command binds. -/
def State.launchBinds (s : State) (b : Cmd) : List Nat :=
  match b.launch with
  | some l => (match s.launch? l with | some x => x.bind | none => [])
  | none => []

theorem resolutionBegin_ignored {s : State} {c : Nat}
    (h : ∀ b, s.cmd? c = some b → resolves b.slot = false ∨ b.phase ≠ .unissued ∨ b.res.isSome = true) :
    exec (.resolutionBegin c) s = .next s.endStep := by
  show execResolutionBegin c s = _
  refine congrArg done ?_
  split
  · rfl
  · cases hb : s.cmd? c with
    | none => rfl
    | some b => exact if_pos (by simpa [or_assoc] using h b hb)

section
variable {s : State} {c : Nat} {b : Cmd} (hon : s.on = true) (hrun : s.coresRun = true) (hstop : s.sup.stopping = false)
  (htest : s.unitTest 2 = false) (hb : s.cmd? c = some b) (hres : resolves b.slot = true) (hphase : b.phase = .unissued)
  (hnone : b.res = none)
include hon hrun hstop htest hb hres hphase hnone

theorem resolutionBegin_early {d : Cmd} (hearly : (resolvesEarly b.slot || (s.serveOf c).isSome) = true)
    (hcreating : s.creating d.slot = false) (hgood : s.resolveBad d = [])
    (hslot : (b.launch = none ∧ d = b) ∨
      ∃ bs, b.launch.isSome = true ∧ bindSlot (s.launchBinds b) b.slot (handleFields b.slot) = some bs ∧ d = { b with slot := bs }) :
    exec (.resolutionBegin c) s = .next ((s.setCmd d).beginRes d).endStep := by
  have hbound : (if b.launch.isSome then bindSlot (s.launchBinds b) b.slot (handleFields b.slot) else some b.slot) = some d.slot ∧ { b with slot := d.slot } = d := by
    rcases hslot with ⟨hl, rfl⟩ | ⟨bs, hl, hbs, rfl⟩
    · exact ⟨if_neg (by simp [hl]), rfl⟩
    · exact ⟨(if_pos hl).trans hbs, rfl⟩
  show execResolutionBegin c s = _
  refine congrArg done ((if_neg (by simp [hon, hrun, hstop, htest])).trans ?_)
  rw [hb]
  refine (if_neg (by simp [hres, hphase, hnone])).trans ((if_pos hearly).trans ?_)
  dsimp only
  split
  case h_1 hn => exact nomatch hn.symm.trans hbound.1
  case h_2 bs hbs =>
    obtain rfl : bs = d.slot := Option.some.inj (hbs.symm.trans hbound.1)
    rw [hbound.2, if_neg (by simp [hcreating]), hgood, lowest_nil]

theorem resolutionBegin_late {t : State} {d : Cmd} (hearly : (resolvesEarly b.slot || (s.serveOf c).isSome) = false)
    (hprep : s.prep b.node = (t, some d)) (hid : d.id = b.id) (hinh : t.inherited d = none)
    (hrange : t.headRange d (t.resolveBad d) = none) :
    exec (.resolutionBegin c) s = .next (t.beginRes d).endStep := by
  show execResolutionBegin c s = _
  refine congrArg done ((if_neg (by simp [hon, hrun, hstop, htest])).trans ?_)
  rw [hb]
  refine (if_neg (by simp [hres, hphase, hnone])).trans ((if_neg (by simp [hearly])).trans ?_)
  rw [hprep]
  refine (if_neg (by simp [hid])).trans ?_
  rw [hinh, hrange]

end

/-! ## Its values -/

/-- The value tiles of a command: none of one served for a peer. -/
def State.valueTiles (t : State) (d : Cmd) : List (Nat × Nat) :=
  if (t.serveOf d.id).isSome then [] else (valueOperands d.slot).flatMap (fun x => withHandle x.1 (upTo (ceilDiv x.2 4096)))

/-- The entries of the shards of an object's table. -/
def State.objShards (t : State) (o : Obj) : List (Nat × Nat) :=
  match o.table with | some (x, _) => if x.shard = 0 then [] else t.shardEntries x.shard 4096 0 | none => []

/-- The destinations of the values of a command, as far as they are in range. -/
def State.valueDests (t : State) (d : Cmd) (o : Obj) : List (Option (Option (Nat × Nat))) :=
  (t.readRes d).1.map (t.destOf d o (t.objShards o))

/-- The resolution that the values of a command make, before its tiles are held. -/
def State.freshRes (t : State) (d : Cmd) (o : Obj) : Resolution :=
  { idx := (t.readRes d).1, dest := (t.valueDests d o).map (fun x => x.getD none), offs := (t.readRes d).2.1,
    wgts := (t.readRes d).2.2, awaitTiles := [], awaitPeers := [], partials := [], held := [], tick := t.tickN }

theorem beginRes_eq (t : State) (d : Cmd) : t.beginRes d =
    if !t.mayResolve d.id (t.idxCount d) (t.cmdOrder d) then t.awaitRes d.id
    else if !((t.valueTiles d).filter t.inCellar).isEmpty then t.fetchAll d ((t.valueTiles d).filter t.inCellar)
    else match (t.valueTiles d).find? (fun x => t.tileBad d x.1 x.2) with
      | some x => (t.poisonIfBad d x.1 x.2).endCmd d stPoisoned x.1 x.2 false
      | none => (match t.obj? (rowHandle d.slot) with
        | none => t
        | some o => t.readValues d (rowHandle d.slot) o) := rfl

/-- What the beginning of a resolution does once its values are out of the cellar and readable: it reads them. -/
theorem beginRes_reads {t : State} {d : Cmd} {o : Obj} (hroom : t.mayResolve d.id (t.idxCount d) (t.cmdOrder d) = true)
    (hout : (t.valueTiles d).filter t.inCellar = []) (hgood : ∀ x ∈ t.valueTiles d, t.tileBad d x.1 x.2 = false)
    (hobj : t.obj? (rowHandle d.slot) = some o) : t.beginRes d = t.readValues d (rowHandle d.slot) o := by
  rw [beginRes_eq, hroom, hout, List.find?_eq_none.mpr (fun x hx => by simp [hgood x hx]), hobj]
  rfl

theorem beginRes_noRoom {t : State} {d : Cmd} (hroom : t.mayResolve d.id (t.idxCount d) (t.cmdOrder d) = false) :
    t.beginRes d = t.awaitRes d.id := by
  rw [beginRes_eq, hroom]
  rfl

theorem beginRes_fetches {t : State} {d : Cmd} (hroom : t.mayResolve d.id (t.idxCount d) (t.cmdOrder d) = true)
    (hin : (t.valueTiles d).filter t.inCellar ≠ []) : t.beginRes d = t.fetchAll d ((t.valueTiles d).filter t.inCellar) := by
  rw [beginRes_eq, hroom, if_neg (by decide), if_pos (by simpa using hin)]

theorem beginRes_poisoned {t : State} {d : Cmd} {x : Nat × Nat} (hroom : t.mayResolve d.id (t.idxCount d) (t.cmdOrder d) = true)
    (hout : (t.valueTiles d).filter t.inCellar = []) (hbad : (t.valueTiles d).find? (fun x => t.tileBad d x.1 x.2) = some x) :
    t.beginRes d = (t.poisonIfBad d x.1 x.2).endCmd d stPoisoned x.1 x.2 false := by
  rw [beginRes_eq, hroom, hout, hbad]
  rfl

/-- Holding the values of a command, none of whose owners has failed: the record that it leaves. -/
theorem holdRes_cmd {t : State} {c : Nat} {d : Cmd} {o : Obj} {r : Resolution} {held : List (Nat × Nat)} (h : t.cmd? c = some d)
    (hobj : t.obj? (rowHandle d.slot) = some o) (htable : slotOp d.slot = 0x28 → o.table.isSome = true)
    (hpeers : r.awaitPeers = []) (hlive : ∀ m ∈ t.ownersOf r.dest, t.peerFailed m = false) :
    ∃ w ps, (t.holdRes d r held).cmd? c = some { d with
        res := some { r with held := held, awaitTiles := w, awaitPeers := ps }
        phase := if w.isEmpty && ps.isEmpty then .ready else .resolving } ∧
      ps.map Prod.fst = if slotOp d.slot = 0x28 then t.ownersOf r.dest else [] := by
  obtain rfl := cmd_id h
  unfold State.holdRes
  extract_lets +onlyGivenNames wait s1
  have h1 : s1.cmd? d.id = some { d with phase := .resolving, res := some { r with held := held, awaitTiles := wait } } :=
    cmd_setCmd (s := t.leaveRes d.id) h rfl
  have h2 := (cmd_of (fetchAll_gfe s1 d wait) _).trans h1
  have hfab : (s1.fetchAll d wait).fab = t.fab := fetchAll_fab s1 d wait
  have hobjs : (s1.fetchAll d wait).objs = t.objs := fetchAll_objs s1 d wait
  clear_value s1
  generalize s1.fetchAll d wait = s2 at h2 hfab hobjs ⊢
  have hown : s2.ownersOf r.dest = t.ownersOf r.dest := by unfold State.ownersOf; rw [hfab]
  obtain ⟨ps, hsent, hps⟩ := sendGathers_cmd s2 d.id _ _ h2 rfl hpeers
    (fun m hm => by
      have hm' := hlive m (hown ▸ hm)
      unfold State.peerFailed State.peer at hm' ⊢
      rw [hfab]; exact hm')
    (fun hop => by
      obtain ⟨x, hx⟩ := Option.isSome_iff_exists.mp (htable hop)
      have hrow : rowHandle d.slot = op32 d.slot 16 := if_neg (by rw [hop]; decide)
      refine ⟨(o, x.1, x.2), ?_⟩
      rw [tableOf_of hobjs]
      unfold State.tableOf
      rw [show t.obj? (op32 d.slot 16) = some o from hrow ▸ hobj]
      simp only [hx])
  obtain ⟨w, hsettled⟩ := settleRes_cmd hsent rfl rfl
  exact ⟨w, ps, hsettled, by rw [← hown]; exact hps⟩

/-- What reading the values of a command does, by what they show. -/
theorem readValues_ends (t : State) (d : Cmd) (o : Obj) :
    let r := t.freshRes d o
    let ds := t.valueDests d o
    let u := t.readValues d (rowHandle d.slot) o
    let big := slotOp d.slot == 0x29 && usesSr d.slot && decide (131072 < (distinctRows t.fab.moduleId r.dest).length)
    (∀ off, lowest (t.valueBad d o r ds) = some off → t.RecordsIn d u stRange off 0) ∧
    (t.valueBad d o r ds = [] → big = true → t.RecordsIn d u stRange 36 0) ∧
    (t.valueBad d o r ds = [] → big = false →
      u = t.holdRes d r (t.heldOf d (rowHandle d.slot) o r.dest)) := by
  intro r ds u big
  have hu : u = match lowest (t.valueBad d o r ds) with
      | some off => t.endCmd d stRange off 0 false
      | none => if slotOp d.slot = 0x29 ∧ usesSr d.slot = true ∧ 131072 < (distinctRows t.fab.moduleId r.dest).length then
            t.endCmd d stRange 36 0 false
          else t.holdRes d r (t.heldOf d (rowHandle d.slot) o r.dest) := rfl
  have hbig : (slotOp d.slot = 0x29 ∧ usesSr d.slot = true ∧ 131072 < (distinctRows t.fab.moduleId r.dest).length) ↔ big = true := by
    simp [big, and_assoc]
  refine ⟨fun off hoff => ?_, fun hgood hb => ?_, fun hgood hb => ?_⟩
  · rw [hu, hoff]
    exact endCmd_recordsIn t d stRange off 0
  · rw [hu, hgood, lowest_nil]
    dsimp only
    rw [if_pos (hbig.mpr hb)]
    exact endCmd_recordsIn t d stRange 36 0
  · rw [hu, hgood, lowest_nil]
    dsimp only
    rw [if_neg (fun hc => by simp [hbig.mp hc] at hb)]

/-! ## The time of a remote owner -/

theorem remoteGatherTimeout_exec {s : State} {c : Nat} {d : Cmd} {r : Resolution} {m : Nat} (hon : s.on = true)
    (hd : s.cmd? c = some d) (hr : d.res = some r) (hphase : d.phase = .resolving)
    (hm : lowest (r.awaitPeers.map Prod.fst) = some m) (hlate : r.tick + s.remoteTicks ≤ s.tickN) :
    exec (.remoteGatherTimeout c) s = .next (s.remoteFail d m r.partials.length).endStep := by
  show execRemoteGatherTimeout c s = _
  refine congrArg done ?_
  rw [hd]
  dsimp only
  rw [hr]
  dsimp only
  rw [if_neg (by simp [hon, hphase, hlate]), hm]

theorem remoteGatherTimeout_ignored {s : State} {c : Nat} {d : Cmd} {r : Resolution} (hd : s.cmd? c = some d) (hr : d.res = some r)
    (h : d.phase ≠ .resolving ∨ r.awaitPeers = [] ∨ s.tickN < r.tick + s.remoteTicks) :
    exec (.remoteGatherTimeout c) s = .next s.endStep := by
  show execRemoteGatherTimeout c s = _
  refine congrArg done ?_
  rw [hd]
  dsimp only
  rw [hr]
  dsimp only
  split
  · rfl
  case isFalse hnow =>
    have hnone : r.awaitPeers = [] := by
      simp only [Bool.or_eq_true, bne_iff_ne, decide_eq_true_eq, not_or] at hnow
      rcases h with h | h | h
      · exact absurd h (by simp [hnow.1.2])
      · exact h
      · exact absurd h hnow.2
    rw [hnone]
    rfl

theorem settleMoves_recordsIn {s u : State} {d : Cmd} {status a b : Nat} (h : s.RecordsIn d u status a b) :
    s.RecordsIn d u.settleMoves.endStep status a b :=
  RecordsIn.of_prefix h (State.settleMoves_keeps (.refl u)).out

theorem remoteFail_recordsIn (s : State) (d : Cmd) (a b : Nat) :
    (s.headOver d = false → s.RecordsIn d (s.remoteFail d a b).endStep stRemoteFail a b) ∧
    (s.headOver d = true → s.RecordsIn d (s.remoteFail d a b).endStep stRange 0xFFFFFFFF 0) := by
  unfold State.remoteFail
  constructor
  · intro h
    rw [if_neg (by simp [h])]
    exact settleMoves_recordsIn (endCmd_recordsIn s d stRemoteFail a b)
  · intro h
    rw [if_pos h]
    exact settleMoves_recordsIn (endCmd_recordsIn s d stRange 0xFFFFFFFF 0)

theorem awaitRes_parts (s : State) (c : Nat) : (s.awaitRes c).gfe.cmds = s.gfe.cmds ∧ (s.awaitRes c).gfe.resWait.contains c = true := by
  unfold State.awaitRes
  split
  case isTrue h => exact ⟨rfl, h⟩
  case isFalse => exact ⟨rfl, by simp⟩

/-- Settles O37: what the beginning of a resolution does, by its room, its value tiles and its values. -/
theorem resolutionsEndWithTheirValues : Obligations.ResolutionsEndWithTheirValues := by
  unfold Obligations.ResolutionsEndWithTheirValues
  refine ⟨fun s c h => resolutionBegin_ignored h, ?_, ?_⟩
  · intro s t c b d o hon hrun hstop htest hb hres hphase hnone early bind hcase hd hobj htable vs es v ds dest r room big
    have hexec : exec (.resolutionBegin c) s = .next (t.beginRes d).endStep := by
      rcases hcase with ⟨hearly, hcreating, hgood, rfl, hslot⟩ | ⟨hlate, hprep, hid, hinh, hrange⟩
      · exact resolutionBegin_early hon hrun hstop htest hb hres hphase hnone hearly hcreating hgood hslot
      · exact resolutionBegin_late hon hrun hstop htest hb hres hphase hnone hlate hprep hid hinh hrange
    have hid := cmd_id hd
    have hvs : t.valueTiles d = vs := by unfold State.valueTiles; rw [hid]
    rw [hexec, ← hvs]
    refine ⟨fun hroom => ?_, fun hroom hin => ?_, fun hroom hout => ⟨fun x hx => ?_, fun hgood => ?_⟩⟩
    · refine ⟨_, rfl, ?_⟩
      rw [beginRes_noRoom hroom, hid]
      obtain ⟨hcmds, hwait⟩ := awaitRes_parts t c
      exact ⟨(cmd?_of_cmds hcmds c).trans hd, hwait⟩
    · rw [beginRes_fetches hroom hin]
    · refine ⟨_, rfl, ?_⟩
      rw [beginRes_poisoned hroom hout hx]
      exact poisonIfBad_endCmd_recordsIn t d x.1 x.2 stPoisoned x.1 x.2
    · rw [beginRes_reads hroom hout hgood hobj]
      obtain ⟨hrange, hbig, hheld⟩ := readValues_ends t d o
      refine ⟨fun off hoff => ⟨_, rfl, hrange off hoff⟩, fun hok => ⟨fun hb => ⟨_, rfl, hbig hok hb⟩, fun hb hlive => ?_⟩⟩
      rw [hheld hok hb]
      obtain ⟨w, ps, hcmd, hps⟩ := holdRes_cmd hd hobj htable (r := t.freshRes d o) rfl hlive
      exact ⟨_, _, _, rfl, (cmd_endStep _ c).trans hcmd, rfl, rfl, rfl, rfl, rfl, rfl, rfl, hps, rfl⟩
  · intro s c d r hon hd hr
    refine ⟨remoteGatherTimeout_ignored hd hr, fun m hphase hm hlate _ => ?_⟩
    rw [remoteGatherTimeout_exec hon hd hr hphase hm hlate]
    exact ⟨fun h => ⟨_, rfl, (remoteFail_recordsIn s d m _).1 h⟩, fun h => ⟨_, rfl, (remoteFail_recordsIn s d m _).2 h⟩⟩

/-! ## Folds -/

theorem fold_ignored {s : State} {h : Nat} (hno : s.liveObj h = none ∨ s.tableOf h = none) : exec (.fold h) s = .next s.endStep := by
  show execFold h s = _
  refine congrArg done ?_
  rcases hno with hno | hno
  · rw [hno]
  · rw [hno]
    cases s.liveObj h <;> rfl

theorem foldNow_ignored {s : State} {a : Acc} (hserved : s.served = true)
    (hno : s.liveObj (s.regGet .tbl (accNum a) 0x000) = none ∨ s.tableOf (s.regGet .tbl (accNum a) 0x000) = none) :
    exec (.foldNow a) s = .next s.endStep := by
  show execFoldNow a s = _
  refine congrArg done ((if_neg (by simp [hserved])).trans ?_)
  dsimp only
  rcases hno with hno | hno
  · rw [hno]
  · rw [hno]
    cases s.liveObj (s.regGet .tbl (accNum a) 0x000) <;> rfl

theorem foldNow_table {s : State} {a : Acc} {b o : Obj} {t : TableDesc} {y : TableDyn} (hserved : s.served = true)
    (hb : s.liveObj (s.regGet .tbl (accNum a) 0x000) = some b)
    (ht : s.tableOf (s.regGet .tbl (accNum a) 0x000) = some (o, t, y)) :
    exec (.foldNow a) s = .next (s.setObj (s.regGet .tbl (accNum a) 0x000)
      { o with table := some (t, { y with foldNow := s.tickN }) }).endStep := by
  show execFoldNow a s = _
  refine congrArg done ((if_neg (by simp [hserved])).trans ?_)
  dsimp only
  rw [hb, ht]

/-- Settles O38: a fold that finds rows and room becomes a command of the block, and any other only notes whether the table drains. -/
theorem foldsRunAsCommandsOfTheBlock : Obligations.FoldsRunAsCommandsOfTheBlock := by
  unfold Obligations.FoldsRunAsCommandsOfTheBlock
  refine ⟨?_, fun s h => fold_ignored, fun s a hserved => ⟨foldNow_ignored hserved, fun b o t y hb ht =>
    ⟨_, foldNow_table hserved hb ht, tableOf_setObj s _ o t _⟩⟩⟩
  intro s h b o t y hon hrun htest hstop hb ht
  refine ⟨fun hfolding => ?_, ?_⟩
  · show execFold h s = _
    refine congrArg done ?_
    rw [hb, ht]
    exact if_pos (by simp [hfolding])
  · intro hidle drain all es room
    have hexec : exec (.fold h) s = .next (if es.isEmpty || !room then s.setObj h { o with table := some (t, { y with draining := drain }) }
        else s.issueFold h o t { y with draining := drain } es).endStep := by
      show execFold h s = _
      refine congrArg done ?_
      rw [hb, ht]
      exact if_neg (by simp [hon, hrun, htest, hstop, hidle])
    rw [hexec]
    refine ⟨fun hnone => ?_, fun hrows hroom hnew => ?_⟩
    · rw [if_pos (by rcases hnone with h | h <;> simp [h])]
      exact ⟨_, rfl, tableOf_setObj s h o t _⟩
    · rw [if_neg (by simp [hrows, hroom])]
      obtain ⟨⟨e, q, he, hop, hq, hidx, hoffs⟩, hobjs⟩ := issueFold_cmd s h o t { y with draining := drain } es hnew
      generalize s.issueFold h o t { y with draining := drain } es = u at he hobjs ⊢
      exact ⟨_, e, q, rfl, (tableOf_of (t := u.endStep) hobjs h).trans (tableOf_setObj s h o t _), (cmd_endStep u _).trans he, hop, hq, hidx, hoffs⟩

end Sys2Proof.Machine

/-! PROOFS. Moves: how they land, how they commit and what they leave when they fail. -/
namespace Sys2Proof.Machine
open Sys2Proof

/-! ## What leaves the last poison record and the results of units as they are -/

/-- The last poison record and the results of the units' tests are the same in `t` as in `s`. -/
def SameNotes (s t : State) : Prop := (t.integ.poison, t.integ.unitRes) = (s.integ.poison, s.integ.unitRes)

theorem SameNotes.poison {s t : State} (h : SameNotes s t) : t.integ.poison = s.integ.poison := congrArg Prod.fst h
theorem SameNotes.unitRes {s t : State} (h : SameNotes s t) : t.integ.unitRes = s.integ.unitRes := congrArg Prod.snd h

theorem SameNotes.refl (s : State) : SameNotes s s := rfl
theorem SameNotes.trans {s t u : State} (h : SameNotes s t) (k : SameNotes t u) : SameNotes s u := Eq.trans k h
theorem SameNotes.of_integ {s t : State} (h : t.integ = s.integ) : SameNotes s t :=
  congrArg (fun i : Integ => (i.poison, i.unitRes)) h

theorem SameNotes.foldl {α : Type} {f : State → α → State} (hf : ∀ t x, SameNotes t (f t x)) (l : List α) (s : State) :
    SameNotes s (l.foldl f s) :=
  foldl_invariant (P := SameNotes s) (fun _ _ h => h.trans (hf _ _)) l s (.refl s)

theorem raise_sameNotes (s : State) (w : Win) (i off b : Nat) : SameNotes s (s.raise w i off b) :=
  .of_integ ((State.raise_only (.refl _) (.refl s) w i off b).use .integ rfl)

theorem faultLog_sameNotes (s : State) (k w c op a b t f : Nat) : SameNotes s (s.faultLog k w c op a b t f) := by
  unfold State.faultLog
  extract_lets body r
  split
  · rfl
  · exact SameNotes.trans (t := { s with integ := { s.integ with logDropped := satAdd 16 s.integ.logDropped 1 } }) rfl
      (raise_sameNotes _ _ _ _ _)

theorem retireFrame_sameNotes (s : State) (f : Nat) : SameNotes s (s.retireFrame f) := by
  unfold State.retireFrame
  extract_lets r s1 integ icnt s2
  exact (SameNotes.trans (t := s2) rfl (faultLog_sameNotes s2 _ _ _ _ _ _ _ _)).trans (raise_sameNotes _ _ _ _ _)

theorem freeFrame_sameNotes (s : State) (f : Nat) : SameNotes s (s.freeFrame f) := by
  unfold State.freeFrame
  extract_lets r
  split
  · exact retireFrame_sameNotes s f
  · rfl

theorem releaseReads_sameNotes (s : State) (fs : List Nat) : SameNotes s (s.releaseReads fs) := by
  unfold State.releaseReads
  refine .foldl (fun t f => ?_) fs s
  extract_lets r
  split
  · exact freeFrame_sameNotes t f
  · rfl

theorem abandonMove_sameNotes (s : State) (h tile : Nat) (retry : Bool) : SameNotes s (s.abandonMove h tile retry) := by
  unfold State.abandonMove
  split
  · rfl
  case h_2 m _ =>
    extract_lets s1 again place s2
    have h1 : SameNotes s s1 := SameNotes.trans (t := (s.dropMove h tile).dropCellar h tile) rfl (freeFrame_sameNotes _ m.dst)
    have h2 : SameNotes s s2 := by
      refine h1.trans ?_
      unfold s2
      split
      · rfl
      · rfl
    split
    · exact h2.trans (releaseReads_sameNotes s2 [m.src])
    · exact h2

theorem dropWant_sameNotes (s : State) (h tile : Nat) : SameNotes s (s.dropWant h tile) := by
  unfold State.dropWant
  extract_lets s1
  exact SameNotes.foldl freeFrame_sameNotes _ s

theorem holdHome_sameNotes (s : State) (h tile f : Nat) : SameNotes s (s.holdHome h tile f) := by
  unfold State.holdHome
  extract_lets s1
  have h1 : SameNotes s s1 := by
    unfold s1
    split
    · split
      · exact abandonMove_sameNotes s h tile false
      · rfl
    · rfl
  split
  · exact h1.trans (dropWant_sameNotes s1 h tile)
  · exact h1

theorem reap_sameNotes (s : State) (h : Nat) : SameNotes s (s.reap h) := by
  unfold State.reap
  split
  · rfl
  · split
    · extract_lets s1 s2
      have h1 : SameNotes s s1 := .foldl (fun t m => abandonMove_sameNotes t _ _ _) _ s
      have h2 : SameNotes s s2 := h1.trans (.foldl (fun t w => dropWant_sameNotes t _ _) _ s1)
      exact h2.trans (SameNotes.foldl (fun t m => freeFrame_sameNotes t _) _ s2)
    · rfl

theorem tryReq_sameNotes (s : State) (x : MoveWant ⊕ CellarOp) : SameNotes s (s.tryReq x) := by
  cases x with
  | inr c => exact .of_integ ((State.tryFill_only (.refl _) (.refl s) c).use .integ rfl)
  | inl w =>
    show SameNotes s (s.tryWant w)
    unfold State.tryWant
    split
    · rfl
    split
    · exact dropWant_sameNotes s _ _
    split
    · rfl
    split
    · exact .of_integ ((State.startMove_only (.refl _) (.refl (s.unlistWant w)) _ _ _ _ _).use .integ rfl)
    · rfl

theorem tryWants_sameNotes (s : State) : SameNotes s s.tryWants :=
  SameNotes.trans (t := s.startWants) (.foldl tryReq_sameNotes _ s)
    (.of_integ ((State.relieveAttic_only (.refl _) (.refl s.startWants)).use .integ rfl))

theorem tidy_sameNotes (s : State) : SameNotes s s.tidy :=
  ((SameNotes.foldl (fun t _ => reap_sameNotes t _) _ s).trans (tryWants_sameNotes _)).trans
    (.of_integ ((State.settleMoves_only (.refl _) (.refl _)).use .integ rfl))

/-- Poisoning a frame records the tile that it holds. -/
theorem poisonFrame_poison (s : State) (f : Nat) (c : PoisonCause) :
    (s.poisonFrame f c).integ.poison = ((s.frame f).obj, (s.frame f).tile, poisonCode c, tierOf f) := by
  unfold State.poisonFrame
  extract_lets +onlyGivenNames r retire s1 integ s2
  have h2 : s2.integ.poison = (r.obj, r.tile, poisonCode c, tierOf f) := rfl
  have hlog := faultLog_sameNotes s2 9 0xFF (poisonCode c) 0 r.obj r.tile (tierOf f) (frameNo f)
  have hevent : SameNotes _ _ := .of_integ ((State.raiseEvent_only (.refl _)
    (.refl (s2.faultLog 9 0xFF (poisonCode c) 0 r.obj r.tile (tierOf f) (frameNo f))) 16).use .integ rfl)
  exact Eq.trans ((hlog.trans hevent).trans (holdHome_sameNotes _ _ _ _)).poison h2

/-! ## What follows the end of a move -/

/-- The rules that run after a tile has changed its place, where no access of the host waits for it. -/
theorem tidy_settles {s : State} (hwait : s.host.memWait = []) :
    s.tidy.settleResAll.settleMem = s.tidy.settleResAll := by
  refine memWait_settle (Eq.trans ?_ hwait)
  exact ((State.settleResAll_only (within_of_all rfl) (State.tidy_only (.refl _) (.refl s))).use .memWait rfl)

theorem settled_notes {s : State} : SameNotes s s.tidy.settleResAll :=
  (tidy_sameNotes s).trans (.of_integ ((State.settleResAll_only (.refl _) (.refl s.tidy)).use .integ rfl))

theorem settled_home {s : State} {h : Nat} (halive : ObjAlive s h) (tile : Nat) : s.tidy.settleResAll.homeOf h tile = s.homeOf h tile :=
  ((tidy_kept s).objs ((State.settleResAll_only (.refl _) (.refl s.tidy)).use .objs rfl)).home halive

/-! ## Landing and committing -/

section
variable {s : State} {h tile : Nat} {m : Move} (hon : s.on = true) (hm : s.moveOf h tile = some m)
include hon hm

theorem cellarReadLand_exec (hh : h ≠ 0) {c : CellarOp} (bad : Option PoisonCause)
    (hc : s.place.cellar.find? (fun c => c.obj == h && c.tile == tile && !c.program) = some c) :
    exec (.cellarReadLand h tile bad) s = .next (if m.landed then s else match bad with
      | some p => ((s.dropCellar h tile).poisonFrame m.src p).tidy.settleResAll.settleMem
      | none => ((s.dropCellar h tile).landMove h tile).tryWants).endStep := by
  show execCellarReadLand h tile bad s = _
  refine congrArg done ?_
  rw [hc]
  refine (if_neg (by simp [hon])).trans ((if_neg hh).trans ?_)
  unfold State.landRead
  rw [hm] <;> rfl

theorem tileMoveCommit_exec (bad : Option PoisonCause) (hdone : s.moveDone m = true) (hfree : s.moveBarred h tile (tierOf m.dst) = false) :
    exec (.tileMoveCommit h tile bad) s = .next (match (match bad with | some c => some c | none => s.headFault m.src h tile) with
      | some c => (s.poisonFrame m.src c).tidy.settleResAll.settleMem
      | none => if m.dirty then (s.abandonMove h tile true).tidy else s.commitMove m).endStep := by
  show execTileMoveCommit h tile bad s = _
  refine congrArg done ?_
  rw [hm]
  exact if_neg (by simp [hon, hdone, hfree])

end

theorem landMove_moveOf {s t : State} {h tile : Nat} {m : Move} (hm : s.moveOf h tile = some m) (hmoves : t.place.moves = s.place.moves)
    (hclk : t.clk = s.clk) :
    ((t.landMove h tile).tryWants).moveOf h tile = some { m with landed := true, landedAt := s.clk.now } := by
  refine (tryWants_movesGrow _).find (moveOf_landed hm ?_)
  show t.place.moves.map _ = _
  rw [hmoves, hclk]

theorem ObjAlive.of_objs {s t : State} {h : Nat} (ha : ObjAlive s h) (hobjs : t.objs = s.objs) : ObjAlive t h :=
  (ObjectsKept.of hobjs).alive ha

theorem makeHome_home {s : State} {f h tile : Nat} (ha : ObjAlive s h) :
    (s.makeHome f h tile).homeOf h tile = some f ∧ ObjAlive (s.makeHome f h tile) h :=
  have hframe := ha.of_objs (t := s.setFrame f { s.frame f with state := .home, obj := h, tile := tile, cls := s.classOf h (s.frame f).cls, access := true }) rfl
  ⟨homeOf_setHome_self hframe, setHome_alive _ h tile f hframe⟩

/-- Committing a move makes the frame moved to its tile's home. -/
theorem commitMove_home {s : State} {m : Move} (hwait : s.host.memWait = []) (halive : ObjAlive s m.obj) :
    (s.commitMove m).homeOf m.obj m.tile = some m.dst := by
  unfold State.commitMove
  extract_lets owner s0 s1
  have k : OnlyChanges [.mem, .frames, .place, .xfers] s (((s0.touch m.src).copyFrame m.src m.dst).dropMove m.obj m.tile) :=
    State.dropMove_only (within_of_all rfl) (State.copyFrame_only (within_of_all rfl) (State.touch_only (within_of_all rfl)
      (OnlyChanges.upd_xfers (within_of_all rfl) (.refl s)) _) _ _) _ _
  obtain ⟨hhome, hmade⟩ := makeHome_home (f := m.dst) (tile := m.tile) (halive.of_objs (k.use .objs rfl))
  have hwait0 : (((s0.touch m.src).copyFrame m.src m.dst).dropMove m.obj m.tile).host.memWait = [] := (k.use .memWait rfl).trans hwait
  have hs1 : s1 = State.touch ((((s0.touch m.src).copyFrame m.src m.dst).dropMove m.obj m.tile).makeHome m.dst m.obj m.tile) m.dst := rfl
  clear_value s1
  generalize ((s0.touch m.src).copyFrame m.src m.dst).dropMove m.obj m.tile = s2 at hs1 hhome hmade hwait0
  have kend : OnlyChanges [.frames, .place, .reg, .host, .integ, .icnt, .out, .accts] (s2.makeHome m.dst m.obj m.tile)
      ((s1.leaveHome m.src).chargeMove owner (tierOf m.src) (tierOf m.dst) 4096) := by
    rw [hs1]
    exact State.chargeMove_only (within_of_all rfl) (State.leaveHome_only (within_of_all rfl)
      (State.touch_only (within_of_all rfl) (.refl _) _) _) _ _ _ _
  have hwait1 : (s2.makeHome m.dst m.obj m.tile).host.memWait = [] :=
    ((State.makeHome_only (.refl _) (.refl s2) m.dst m.obj m.tile).use .memWait rfl).trans hwait0
  have hend := ObjectsKept.of (kend.use .objs rfl)
  rw [tidy_settles ((kend.use .memWait rfl).trans hwait1), settled_home (hend.alive hmade), hend.home hmade, hhome]

/-- What a landed and unbarred move leaves of its tile's home when it cannot commit. -/
theorem failedMove_home {s : State} {m : Move} {h : Nat} (tile : Nat) (hwait : s.host.memWait = []) (halive : ObjAlive s h) :
    (∀ c, (s.poisonFrame m.src c).tidy.settleResAll.settleMem.homeOf h tile = s.homeOf h tile) ∧
    ((s.abandonMove h tile true).tidy).homeOf h tile = s.homeOf h tile := by
  constructor
  · intro c
    have k := State.poisonFrame_only (.refl _) (.refl s) m.src c
    have hkept := ObjectsKept.of (k.use .objs rfl)
    rw [tidy_settles ((k.use .memWait rfl).trans hwait), settled_home (hkept.alive halive), hkept.home halive]
  · have hkept := (ObjectsKept.of (abandonMove_objs s h tile true)).trans (tidy_kept _)
    exact hkept.home halive

theorem moveOf_names {s : State} {h tile : Nat} {m : Move} (hm : s.moveOf h tile = some m) : m.obj = h ∧ m.tile = tile := by
  simpa using List.find?_some hm

/-- Settles O39: a cellar operation lands its move, and a landed move commits unless its source fails it. -/
theorem movesLandAndCommit : Obligations.MovesLandAndCommit := by
  unfold Obligations.MovesLandAndCommit
  refine ⟨fun s h tile bad => ⟨fun hno => ?_, fun hno => ?_, fun hno => ?_, fun c _ _ _ _ => ⟨_, rfl⟩⟩, ?_⟩
  · show execCellarReadLand h tile bad s = _
    exact congrArg done (by rw [hno])
  · show execCellarProgramComplete h tile s = _
    exact congrArg done (by rw [hno])
  · show execTileMoveCommit h tile bad s = _
    exact congrArg done (by rw [hno])
  · intro s h tile m _ hon hh hm
    refine ⟨fun c hc => ⟨fun bad hlanded => ?_, fun hlanded => ?_, fun p hlanded hwait => ?_⟩, fun c hc => ?_, fun bad => ⟨?_, ?_⟩⟩
    · rw [cellarReadLand_exec hon hm hh bad hc, if_pos hlanded]
    · refine ⟨_, cellarReadLand_exec hon hm hh none hc, ?_⟩
      rw [if_neg (by simp [hlanded])]
      exact landMove_moveOf hm rfl rfl
    · refine ⟨_, cellarReadLand_exec hon hm hh (some p) hc, ?_⟩
      rw [if_neg (by simp [hlanded])]
      dsimp only
      have k := State.poisonFrame_only (within_of_all rfl)
        (State.dropCellar_only (within_of_all rfl) (.refl (k := [.reg, .frames, .place, .host, .integ, .icnt, .out, .tests]) s) h tile) m.src p
      have hpoison := poisonFrame_poison (s.dropCellar h tile) m.src p
      rw [show (s.dropCellar h tile).frame m.src = s.frame m.src from rfl] at hpoison
      rw [tidy_settles ((k.use .memWait rfl).trans hwait), endStep_integ]
      exact Eq.trans (settled_notes (s := (s.dropCellar h tile).poisonFrame m.src p)).poison hpoison
    · refine ⟨State.endStep (State.tryWants (State.landMove { s with place := { s.place with cellar := s.place.cellar.erase c } } h tile)), ?_,
        landMove_moveOf (t := { s with place := { s.place with cellar := s.place.cellar.erase c } }) hm rfl rfl⟩
      show execCellarProgramComplete h tile s = _
      refine congrArg done ?_
      rw [hc]
      exact if_neg (by simp [hon])
    · intro hwait
      show execTileMoveCommit h tile bad s = _
      refine congrArg done ?_
      rw [hm]
      exact if_pos (by rcases hwait with h | h <;> simp [h])
    · intro o hdone hfree hlive hwait
      have halive := alive_live hlive
      obtain ⟨rfl, rfl⟩ := moveOf_names hm
      have hexec := tileMoveCommit_exec hon hm bad hdone hfree
      obtain ⟨hpoisoned, habandoned⟩ := failedMove_home (m := m) m.tile hwait halive
      refine ⟨fun hbad hfault hdirty => ⟨_, hexec, ?_⟩, fun hfail => ⟨_, hexec, ?_⟩⟩
      · rw [homeOf_endStep, hbad, hfault]
        dsimp only
        rw [if_neg (by simp [hdirty])]
        exact commitMove_home hwait halive
      · rw [homeOf_endStep]
        split
        · exact hpoisoned _
        case h_2 hnone =>
          have hdirty : m.dirty = true := by
            cases bad with
            | some p => exact nomatch hnone
            | none => simpa [show s.headFault m.src m.obj m.tile = none from hnone] using hfail
          rw [if_pos hdirty]
          exact habandoned

end Sys2Proof.Machine

/-! PROOFS. The scan of the heat counters, the scrub of a frame and the refresh of the attic. -/
namespace Sys2Proof.Machine
open Sys2Proof

/-! ## The scan -/

theorem heatScan_exec {s : State} (hon : s.on = true) (htest : s.unitTest 2 = false) (hnew : s.place.scanned ≠ s.tickN) :
    exec .heatScan s = .next (if s.fld .mem 0 0x004 15 15 = 1 ∧ s.sup.stopping = false ∧ s.scanCounts.place.scanMore = true
      then s.scanCounts.scanMoves else s.scanCounts).endStep := by
  show execHeatScan s = _
  exact congrArg done (if_neg (by simp [hon, htest, hnew]))

/-- What the scan leaves besides its counts: the moves that it starts keep the counters. -/
theorem heatScan_parts {s : State} (hon : s.on = true) (htest : s.unitTest 2 = false) (hnew : s.place.scanned ≠ s.tickN) :
    ∃ u, exec .heatScan s = .next u ∧ u.place.scanned = s.scanCounts.place.scanned ∧ u.place.heat = s.scanCounts.place.heat ∧
      (s.fld .mem 0 0x004 15 15 = 0 ∨ s.sup.stopping = true → u.frames = s.scanCounts.frames) := by
  refine ⟨_, heatScan_exec hon htest hnew, ?_⟩
  split
  case isTrue h =>
    obtain ⟨-, hheat, hscanned⟩ := scanMoves_movesGrow s.scanCounts
    exact ⟨hscanned, hheat, fun hno => by simp [h.1, h.2.1] at hno⟩
  case isFalse => exact ⟨rfl, rfl, fun _ => rfl⟩

/-! ## What a scrub counts -/

theorem frame_of {s t : State} (h : t.frames = s.frames) (f : Nat) : t.frame f = s.frame f := by unfold State.frame; rw [h]

theorem scrubRead_exec {s : State} {f : Nat} {errs again : List WordErr} (hon : s.on = true) (htier : tierOf f ≠ 3) :
    let ts := s.readTries f errs again
    let n := ((ts.flatMap ReadTry.words).eraseDups).length
    let s1 := s.countTries (tierOf f) ts
    let s2 := if n = 0 then s1 else s1.scrubCorrected f n
    exec (.scrubRead f errs again) s = .next (match (ts.getLast?).bind ReadTry.fault with
      | some c => s2.badRead f c
      | none => s2).endStep := by
  intro ts n s1 s2
  show execScrubRead f errs again s = _
  exact congrArg done (if_neg (by simp [hon, htier]))

theorem countTries_parts (s : State) (tier : Nat) (ts : List ReadTry) :
    (s.countTries tier ts).frames = s.frames ∧ (s.countTries tier ts).mem = s.mem ∧ (s.countTries tier ts).reg = s.reg ∧
      (s.Canon → (s.countTries tier ts).Canon) :=
  have k := State.countTries_only (.refl _) (.refl s) tier ts
  ⟨k.use .frames rfl, k.use .mem rfl, k.use .reg rfl, (State.countTries_keeps (.refl s) tier ts).canon⟩

/-- The corrected words that one read without corrected links counts for a tier. -/
theorem countTries_one {s : State} {tier : Nat} {a : ReadTry} (htier : tier ≠ 3) (hwords : a.words ≠ []) :
    listGet 0 (s.countTries tier [a]).integ.ce tier = listGet 0 (listSet s.integ.ce tier
      (satAdd 32 (listGet 0 s.integ.ce tier) a.words.length)) tier := by
  have hlen : a.words.length ≠ 0 := fun h => hwords (List.length_eq_zero_iff.mp h)
  have hsum : ([a].map (fun t => t.words.length)).foldl (· + ·) 0 + 0 = a.words.length := by simp
  unfold State.countTries
  extract_lets words links again
  rw [show words + again = a.words.length from hsum, if_neg hlen]
  exact (listGet_listSet 0 _ 3 tier _).trans (if_neg (fun h => htier h.1))

/-- A read that finds no wrong word has nothing to correct. -/
theorem readTries_clean {s : State} {f : Nat} (again : List WordErr)
    (hhead : (s.frame f).state = .home → s.headFault f (s.frame f).obj (s.frame f).tile = none) :
    s.readTries f [] again = [{ words := [], links := 0, fault := none }] := by
  have hone : s.readTry f [] = { words := [], links := 0, fault := none } := by
    unfold State.readTry
    by_cases hstate : (s.frame f).state = .home
    · simp [hstate, hhead hstate]
    · simp [hstate]
  unfold State.readTries
  rw [hone]
  rfl

theorem length_eraseDups_ne_zero {l : List Nat} (h : l ≠ []) : l.eraseDups.length ≠ 0 := by
  cases l with
  | nil => exact absurd rfl h
  | cons a l => simp [List.eraseDups_cons]

/-! ## What a scrub does to the frame -/

theorem retireFrame_frame {s : State} (hc : s.Canon) (f : Nat) :
    ((s.retireFrame f).frame f).retired = true ∧ ((s.retireFrame f).frame f).state = .free := by
  unfold State.retireFrame
  extract_lets r s1 integ icnt s2
  have hframes : ((s2.faultLog 8 0xFF 0 0 0 0 (tierOf f) (frameNo f)).raise .int 0 0x000 5).frames = s1.frames :=
    (State.raise_only (within_of_all rfl) (State.faultLog_only (within_of_all rfl)
      (.refl (k := [.reg, .integ, .host, .out]) s2) 8 0xFF 0 0 0 0 (tierOf f) (frameNo f)) .int 0 0x000 5).use .frames rfl
  rw [frame_of hframes f, show s1.frame f = _ from State.frame_setFrame_self hc f _]
  exact ⟨rfl, rfl⟩

theorem scrubCorrected_below {s : State} (hc : s.Canon) {f n : Nat}
    (h : n < max 1 (s.fld .int 0 0x014 7 4) ∨ (s.frame f).retired = true) :
    (s.scrubCorrected f n).frame f = { s.frame f with corrected := n } ∧ (s.scrubCorrected f n).integ = s.integ := by
  unfold State.scrubCorrected
  extract_lets r s1
  rw [if_pos h]
  exact ⟨State.frame_setFrame_self hc f _, rfl⟩

theorem scrubCorrected_retires {s : State} (hc : s.Canon) {f n : Nat} (hlimit : max 1 (s.fld .int 0 0x014 7 4) ≤ n)
    (hkept : (s.frame f).retired = false) (hfree : (s.frame f).state = .free) :
    ((s.scrubCorrected f n).frame f).retired = true ∧ ((s.scrubCorrected f n).frame f).state = .free := by
  have hs1 : (s.setFrame f { s.frame f with corrected := n }).Canon := (State.setFrame_keeps (.refl s) f _).canon hc
  unfold State.scrubCorrected
  extract_lets r s1
  rw [if_neg (by simp [hkept, r, Nat.not_lt.mpr hlimit]), show r.state = .free from hfree]
  exact retireFrame_frame hs1 f

theorem badRead_free {s : State} (hc : s.Canon) {f : Nat} (c : PoisonCause) (htier : tierOf f ≠ 3)
    (hkept : (s.frame f).retired = false) (hfree : (s.frame f).state = .free) :
    ((s.badRead f c).frame f).retired = true ∧ ((s.badRead f c).frame f).state = .free := by
  unfold State.badRead
  extract_lets r
  rw [show r.state = .free from hfree]
  dsimp only
  rw [if_neg (by simp [htier, hkept, r])]
  exact retireFrame_frame hc f

theorem badRead_home {s : State} {f : Nat} (c : PoisonCause) (hhome : (s.frame f).state = .home) :
    (s.badRead f c).integ.poison = ((s.frame f).obj, (s.frame f).tile, poisonCode c, tierOf f) := by
  have hbad : s.badRead f c = (s.poisonFrame f c).tidy.settleResAll := by
    unfold State.badRead
    extract_lets r
    rw [show r.state = .home from hhome]
  rw [hbad]
  exact Eq.trans (settled_notes (s := s.poisonFrame f c)).poison (poisonFrame_poison s f c)

/-- Settles O40: the scan decays the counters once in its tick, a scrub acts by what it reads, and a refresh that is due is counted. -/
theorem scansScrubsAndRefreshes : Obligations.ScansScrubsAndRefreshes := by
  unfold Obligations.ScansScrubsAndRefreshes
  refine ⟨?_, ?_, ?_⟩
  · intro s hon htest due
    refine ⟨fun hdone => ?_, fun hnew hdue => ?_, fun hnew hdue => ?_⟩
    · show execHeatScan s = _
      exact congrArg done (if_pos (by simp [hdone]))
    · obtain ⟨u, hexec, hscanned, hheat, hframes⟩ := heatScan_parts hon htest hnew
      have hcounts : s.scanCounts = { s.dropCold.decay with place := { s.dropCold.decay.place with scanMore := true } } := if_pos hdue
      rw [hcounts] at hscanned hheat hframes
      exact ⟨u, hexec, hscanned, hheat, hframes⟩
    · obtain ⟨u, hexec, hscanned, hheat, hframes⟩ := heatScan_parts hon htest hnew
      have hcounts : s.scanCounts = { s with place := { s.place with scanned := s.tickN } } := if_neg hdue
      rw [hcounts] at hscanned hheat hframes
      exact ⟨u, hexec, hscanned, hheat, hframes⟩
  · intro s f errs again hc hon ts r n limit
    refine ⟨fun htier => ?_, fun htier => ?_⟩
    · show execScrubRead f errs again s = _
      exact congrArg done (if_pos (by simp [htier]))
    obtain ⟨hframes, hmem, hreg, hcanon⟩ := countTries_parts s (tierOf f) ts
    have hframe := frame_of hframes f
    have hexec := scrubRead_exec (errs := errs) (again := again) hon htier
    refine ⟨fun herrs hhead => ?_, fun a ha hfault hwords hlinks hfew => ?_, fun a ha hfault hmany hkept hfree => ?_,
      fun c hbad hnone => ⟨fun hfree hkept => ?_, fun hhome => ?_⟩⟩
    · subst herrs
      rw [readTries_clean again hhead] at hexec
      refine ⟨_, hexec, ?_⟩
      obtain ⟨hframes0, hmem0, -, -⟩ := countTries_parts s (tierOf f) [{ words := [], links := 0, fault := none }]
      exact ⟨hframes0, hmem0⟩
    · have hn : n ≠ 0 := length_eraseDups_ne_zero (by rw [ha]; simpa using hwords)
      obtain ⟨hf, hinteg⟩ := scrubCorrected_below (s := s.countTries (tierOf f) ts) (hcanon hc) (f := f) (n := n)
        (by rw [fld_of hreg, hframe]; exact hfew)
      refine ⟨_, hexec, ?_⟩
      rw [if_neg hn, show s.readTries f errs again = [a] from ha, show [a].getLast?.bind ReadTry.fault = none from hfault]
      refine ⟨?_, ?_⟩
      · rw [frame_endStep, ← ha, hf, hframe]
      · rw [endStep_integ, ← ha, hinteg, ha]
        exact countTries_one htier hwords
    · have hn : n ≠ 0 := fun h => by simp [limit, h] at hmany
      refine ⟨_, hexec, ?_⟩
      rw [if_neg hn, show s.readTries f errs again = [a] from ha, show [a].getLast?.bind ReadTry.fault = none from hfault, ← ha]
      exact scrubCorrected_retires (hcanon hc) (by rw [fld_of hreg]; exact hmany) (by rw [hframe]; exact hkept)
        (by rw [hframe]; exact hfree)
    · refine ⟨_, hexec, ?_⟩
      rw [if_pos hnone, hbad]
      exact badRead_free (hcanon hc) c htier (by rw [hframe]; exact hkept) (by rw [hframe]; exact hfree)
    · refine ⟨_, hexec, ?_⟩
      rw [if_pos hnone, hbad, endStep_integ]
      dsimp only
      rw [badRead_home c (by rw [hframe]; exact hhome), hframe]
  · intro s pc hon due
    refine ⟨fun hnot => ?_, fun hin hdue => ?_⟩
    · show execAtticRefresh pc s = _
      refine congrArg done (if_pos ?_)
      rcases hnot with h | h
      · simp [h]
      · exact Bool.or_eq_true_iff.mpr (.inr (by simpa [State.passed] using h))
    · refine ⟨_, congrArg done (if_neg (by simpa [hon, hin, State.passed] using hdue)), ?_⟩
      rw [stack_endStep, setStack_stack _ _ _ (fun h => by simpa [StackRec.init] using congrArg StackRec.refreshes h)]

end Sys2Proof.Machine

/-! PROOFS. The temperatures of the memory stacks, and the targets that are margined. -/
namespace Sys2Proof.Machine
open Sys2Proof

theorem stackTempReport_discards {s : State} {k : Nat} {q : Int} (hon : s.on = true) (h : q < -160 ∨ 500 < q) :
    ∃ u, exec (.stackTempReport k q) s = .next u ∧ u.stack k = s.stack k := by
  refine ⟨(s.raise .mem 0 0x000 3).endStep, congrArg done ((if_neg (by simp [hon])).trans (if_pos h)), ?_⟩
  rw [stack_endStep]
  exact stack_of ((State.raise_only (.refl _) (.refl s) .mem 0 0x000 3).use .place rfl) k

/-- A record with a report is not the one before its first report. -/
theorem reported_ne_init {r : StackRec} (h : r.reports ≠ []) : r ≠ StackRec.init := fun e => h (congrArg StackRec.reports e)

theorem timedOut_ne_init {r : StackRec} (h : r.timeout = true) : r ≠ StackRec.init :=
  fun e => by simpa [h, StackRec.init] using congrArg StackRec.timeout e

theorem stackTempReport_exec {s : State} {k : Nat} {q : Int} (hon : s.on = true) (hlow : -160 ≤ q) (hhigh : q ≤ 500) :
    exec (.stackTempReport k q) s = .next (s.stackSteps k { s.stack k with
      reports := (q :: (s.stack k).reports).take 3, timeout := false, lastAt := s.clk.now } true).endStep :=
  congrArg done ((if_neg (by simp [hon])).trans (if_neg (by omega)))

theorem stackTempTimeout_exec {s : State} {k : Nat} (hon : s.on = true) (hlate : (s.stack k).lastAt + 10 * msCycles ≤ s.clk.now) :
    exec (.stackTempTimeout k) s = .next (s.stackSteps k { s.stack k with timeout := true } false).endStep :=
  congrArg done (if_neg (by simpa [hon, State.passed] using hlate))

theorem stackTempTimeout_early {s : State} {k : Nat} (hearly : s.clk.now < (s.stack k).lastAt + 10 * msCycles) :
    exec (.stackTempTimeout k) s = .next s.endStep :=
  congrArg done (if_pos (Bool.or_eq_true_iff.mpr (.inr (by simpa [State.passed] using hearly))))

theorem marginStart_exec {s : State} {a : Acc} (hserved : s.served = true) :
    exec (.marginStart a) s = .next (s.startMargin a).endStep := congrArg done (if_neg (by simp [hserved]))

theorem startMargin_starts {s : State} {a : Acc} (hempty : s.targetState (s.selTarget a) = 2)
    (hnone : s.place.targets.any (fun x => x.2.margining) = false) :
    (s.startMargin a).target (s.selTarget a) = { s.target (s.selTarget a) with margining := true, done := false } := by
  have hstart : s.startMargin a = s.setTarget (s.selTarget a) { s.target (s.selTarget a) with margining := true, done := false } :=
    if_neg (by simp [hempty, hnone])
  rw [hstart]
  exact setTarget_target s _ _ (fun e => by simpa [TargetRec.init] using congrArg TargetRec.margining e)

theorem marginDone_idle {s : State} {n : Nat} (hnone : s.place.targets.any (fun x => x.2.margining) = false) :
    exec (.marginDone n) s = .next s.endStep := by
  show execMarginDone n s = _
  refine congrArg done ?_
  rw [List.find?_eq_none.mpr (List.any_eq_false.mp hnone)]

theorem marginDone_target {s : State} {n : Nat} {x : Nat × TargetRec} (hon : s.on = true)
    (hx : s.place.targets.find? (fun x => x.2.margining) = some x) :
    ∃ u, exec (.marginDone n) s = .next u ∧ u.target x.1 = { x.2 with margining := false, done := true, errors := min n 65536 } := by
  refine ⟨(s.setTarget x.1 { x.2 with margining := false, done := true, errors := min n 65536 }).endStep, ?_,
    setTarget_target s _ _ (fun e => by simpa [TargetRec.init] using congrArg TargetRec.done e)⟩
  show execMarginDone n s = _
  refine congrArg done ?_
  rw [hx]
  exact if_neg (by simp [hon])

/-- Settles O41: the steps of a stack follow its last reports, and one empty target is margined at a time. -/
theorem stacksAndTargetsAreWatched : Obligations.StacksAndTargetsAreWatched := by
  unfold Obligations.StacksAndTargetsAreWatched
  refine ⟨fun s k q hon => ⟨stackTempReport_discards hon, ?_⟩,
    fun s k hon => ⟨stackTempTimeout_early, ?_⟩,
    fun s a serve hserved => ⟨_, congrArg done (if_neg (by simp [hserved])), rfl⟩,
    fun s a hserved => ⟨fun hempty hnone => ⟨_, marginStart_exec hserved, startMargin_starts hempty hnone⟩, fun hno => ?_⟩,
    fun s n hon => ⟨marginDone_idle, fun x hx => marginDone_target hon hx⟩⟩
  · intro hlow hhigh r hot
    have hexec := stackTempReport_exec (k := k) hon hlow hhigh
    obtain ⟨hbelow, hstops⟩ := stackSteps_parts s k r true
    exact ⟨fun hcool => ⟨_, hexec, hbelow hcool (reported_ne_init (List.cons_ne_nil _ _))⟩, fun hhot => ⟨_, hexec, hstops hhot⟩⟩
  · intro hlate r
    have hexec := stackTempTimeout_exec hon hlate
    obtain ⟨hbelow, hstops⟩ := stackSteps_parts s k r false
    exact ⟨fun hcool => ⟨_, hexec, hbelow hcool (timedOut_ne_init rfl)⟩, fun hhot => ⟨_, hexec, hstops hhot⟩⟩
  · rw [marginStart_exec hserved]
    exact congrArg (fun t => Host.Outcome.next (State.endStep t)) (if_pos hno)

end Sys2Proof.Machine

/-! PROOFS. Streams: the reads that they issue, the fills that land, and the streams that stop. -/
namespace Sys2Proof.Machine
open Sys2Proof

/-! ## Issuing -/

/-- What a stream transfer issues for the stream in turn. -/
theorem streamTransferIssue_exec {s : State} {n ix : Nat} (hon : s.on = true) (hstop : s.sup.stopping = false)
    (hissued : s.issuedNow n = false) (hroom : (s.xfers.filter (fun x => x.clu == n)).length < 256) (hturn : s.nextStream n = some ix) :
    let src := match (s.stream n ix).openFill with | some f => f.range.src | none => (s.stream n ix).cur.src
    (s.liveObj src = none → ∃ tile, exec (.streamTransferIssue n) s = .next (s.faultStream n ix 3 tile).endStep) ∧
    (∀ o f, s.liveObj src = some o → (s.stream n ix).openFill = some f →
      exec (.streamTransferIssue n) s = .next (s.issueXfer n ix o).endStep) ∧
    (∀ o hs, s.liveObj src = some o → (s.stream n ix).openFill = none → s.fillFrames n (s.stream n ix) = some hs →
      exec (.streamTransferIssue n) s = .next ((s.beginFill n ix o hs).issueXfer n ix o).endStep) := by
  intro src
  have hexec : exec (.streamTransferIssue n) s = .next (match s.liveObj src with
      | none => s.faultStream n ix 3 ((match (s.stream n ix).openFill with
          | some f => f.range.first f.inRange
          | none => (s.stream n ix).cur.first (s.stream n ix).curDone) % 2 ^ 24)
      | some o => match (s.stream n ix).openFill with
        | some _ => s.issueXfer n ix o
        | none => match s.fillFrames n (s.stream n ix) with
          | none => s
          | some hs => (s.beginFill n ix o hs).issueXfer n ix o).endStep := by
    show execStreamTransferIssue n s = _
    refine congrArg done ((if_pos (by simp [hissued])).trans ?_)
    unfold State.streamIssue
    refine (if_neg (by simp [hon, hstop, hissued, hroom])).trans ?_
    rw [hturn] <;> rfl
  rw [hexec]
  refine ⟨fun hsrc => ?_, fun o f hsrc hopen => ?_, fun o hs hsrc hopen hframes => ?_⟩
  · rw [hsrc]
    exact ⟨_, rfl⟩
  · rw [hsrc, hopen]
  · rw [hsrc, hopen, hframes]

theorem streamTransferIssue_idle {s : State} {n : Nat} (hissued : s.issuedNow n = false)
    (h : 256 ≤ (s.xfers.filter (fun x => x.clu == n)).length ∨ s.nextStream n = none) :
    exec (.streamTransferIssue n) s = .next s.endStep := by
  show execStreamTransferIssue n s = _
  refine congrArg done ((if_pos (by simp [hissued])).trans ?_)
  unfold State.streamIssue
  split
  · rfl
  case isFalse hgo =>
    have hnone : s.nextStream n = none := h.resolve_left (fun hfull => hgo (by simp [hfull]))
    rw [hnone]

theorem streamTransferIssue_again {s : State} {n : Nat} (hon : s.on = true) (hissued : s.issuedNow n = true) :
    (s.clk.cyc + 1 < s.G → exec (.streamTransferIssue n) s = .next (s.nextCycle.streamIssue n).endStep) ∧
    (s.G ≤ s.clk.cyc + 1 → exec (.streamTransferIssue n) s = .next s.endStep) := by
  constructor
  · intro h
    exact congrArg done ((if_neg (by simp [hon, hissued])).trans (if_pos h))
  · intro h
    exact congrArg done ((if_neg (by simp [hon, hissued])).trans (if_neg (Nat.not_lt.mpr h)))

/-! ## What a read that returns does -/

/-- The fill with what the frame `g` of its read holds. -/
def State.gotFill (s : State) (f : StrFill) (x : Xfer) (g : Nat) : StrFill :=
  { f with got := f.got ++ [⟨x.obj, x.tile, s.data g, s.scaleSeq g, s.tileScale g⟩], latency := max f.latency (x.latency g) }

/-- The state in which the fill of a read holds `e`, and the read is charged. -/
def State.joined (s : State) (x : Xfer) (num g : Nat) (e : StrFill) : State :=
  (s.chargeXfer (s.stream x.clu x.ix).chan (s.stream x.clu x.ix).gen x.clu g).setStream x.clu x.ix
    { s.stream x.clu x.ix with fills := (s.stream x.clu x.ix).fills.map (fun y => if y.num = num then e else y) }

theorem readXfer_clean {s : State} {x : Xfer} {num g : Nat} {f : StrFill}
    (hf : (s.stream x.clu x.ix).fills.find? (fun e => e.num == num) = some f) (hplain : (s.frame g).state ≠ .poisoned)
    (hhead : (s.frame g).state = .home → s.headFault g x.obj x.tile = none) :
    let e := s.gotFill f x g
    s.readXfer x num g none = match (match s.obj? f.range.src with | some o => e.skew o | none => none) with
      | some k => ((s.joined x num g e).faultStream x.clu x.ix 2 (k % 2 ^ 24)).dropXfer x.clu
      | none => if e.got.length < e.total then (s.joined x num g e).dropXfer x.clu
        else if s.mayCommit x.clu e then (((s.joined x num g e).dropXfer x.clu).commitFill x.clu x.ix e).tidy
        else s := by
  intro e
  have hnone : (if (s.frame g).state == .home then s.headFault g x.obj x.tile else none) = none := by
    split
    case isTrue h => exact hhead (by simpa using h)
    case isFalse => rfl
  unfold State.readXfer
  extract_lets +onlyGivenNames t
  rw [show t.fills.find? _ = some f from hf]
  dsimp -zeta only
  extract_lets +onlyGivenNames isHome fault
  rw [if_neg hplain, show fault = none from hnone]
  rfl

theorem readXfer_level {s : State} {x : Xfer} {num g : Nat} {f : StrFill}
    (hf : (s.stream x.clu x.ix).fills.find? (fun e => e.num == num) = some f) (hplain : (s.frame g).state ≠ .poisoned)
    (hhead : (s.frame g).state = .home → s.headFault g x.obj x.tile = none)
    (hlevel : ∀ o, s.obj? f.range.src = some o → (s.gotFill f x g).skew o = none) :
    s.readXfer x num g none =
      if (s.gotFill f x g).got.length < (s.gotFill f x g).total then (s.joined x num g (s.gotFill f x g)).dropXfer x.clu
      else if s.mayCommit x.clu (s.gotFill f x g) then
        (((s.joined x num g (s.gotFill f x g)).dropXfer x.clu).commitFill x.clu x.ix (s.gotFill f x g)).tidy
      else s := by
  refine (readXfer_clean hf hplain hhead).trans ?_
  cases ho : s.obj? f.range.src with
  | none => rfl
  | some o =>
    dsimp only
    rw [hlevel o ho]

theorem readXfer_skewed {s : State} {x : Xfer} {num g k : Nat} {f : StrFill} {o : Obj}
    (hf : (s.stream x.clu x.ix).fills.find? (fun e => e.num == num) = some f) (hplain : (s.frame g).state ≠ .poisoned)
    (hhead : (s.frame g).state = .home → s.headFault g x.obj x.tile = none) (ho : s.obj? f.range.src = some o)
    (hskew : (s.gotFill f x g).skew o = some k) :
    s.readXfer x num g none = ((s.joined x num g (s.gotFill f x g)).faultStream x.clu x.ix 2 (k % 2 ^ 24)).dropXfer x.clu := by
  refine (readXfer_clean hf hplain hhead).trans ?_
  rw [ho]
  dsimp only
  rw [hskew]

theorem readXfer_faults {s : State} (hc : s.Canon) {x : Xfer} {num g : Nat} {f : StrFill} {bad : Option PoisonCause}
    (hf : (s.stream x.clu x.ix).fills.find? (fun e => e.num == num) = some f)
    (hbad : bad.isSome = true ∨ ¬ ((s.frame g).state ≠ .poisoned ∧ ((s.frame g).state = .home → s.headFault g x.obj x.tile = none))) :
    ∃ z : State, z.Canon ∧ s.readXfer x num g bad = (z.faultStream x.clu x.ix 1 (x.tile % 2 ^ 24)).dropXfer x.clu := by
  unfold State.readXfer
  extract_lets +onlyGivenNames t
  rw [show t.fills.find? _ = some f from hf]
  dsimp -zeta only
  extract_lets +onlyGivenNames isHome fault
  split
  · exact ⟨s, hc, rfl⟩
  case isFalse hplain =>
    have hsome : fault ≠ none := fun hfault => by
      cases bad with
      | some c => exact nomatch hfault
      | none =>
        refine hbad.elim (fun h => nomatch h) (fun h => h ⟨hplain, fun hhome => ?_⟩)
        simpa [fault, isHome, hhome] using hfault
    clear_value fault
    cases fault with
    | none => exact absurd rfl hsome
    | some c =>
      refine ⟨if isHome then s.poisonFrame g c else s, ?_, rfl⟩
      split
      · exact (State.poisonFrame_keeps (.refl s) g c).canon hc
      · exact hc

/-- What joining a read to its fill leaves: the stream with the fill, and the rest as it was. -/
theorem joined_parts {s : State} (hc : s.Canon) (x : Xfer) (num g : Nat) (e : StrFill) :
    (s.joined x num g e).Canon ∧ (s.joined x num g e).xfers = s.xfers ∧ (s.joined x num g e).gfe.fences = s.gfe.fences ∧
      (s.joined x num g e).stream x.clu x.ix =
        { s.stream x.clu x.ix with fills := (s.stream x.clu x.ix).fills.map (fun y => if y.num = num then e else y) } := by
  obtain ⟨hx, -, -, -, hg⟩ := chargeXfer_x s (s.stream x.clu x.ix).chan (s.stream x.clu x.ix).gen x.clu g
  have hcharged := chargeXfer_canon hc (s.stream x.clu x.ix).chan (s.stream x.clu x.ix).gen x.clu g
  exact ⟨(State.setStream_keeps (.refl _) _ _ _).canon hcharged, hx, congrArg Gfe.fences hg, State.stream_setStream_self hcharged _ _ _⟩

theorem get_map_field {α β : Type} {d : Nat → α} (p : α → β) {f : Nat × α → Nat × α} (hkey : ∀ x, (f x).1 = x.1)
    (hval : ∀ x, p (f x).2 = p x.2) : ∀ (l : List (Nat × α)) (k : Nat), p (Sparse.get d (l.map f) k) = p (Sparse.get d l k)
  | [], _ => rfl
  | x :: l, k => by
    rw [List.map_cons]
    show p (if (f x).1 = k then (f x).2 else Sparse.get d (l.map f) k) = p (if x.1 = k then x.2 else Sparse.get d l k)
    rw [hkey]
    split
    · exact hval x
    · exact get_map_field p hkey hval l k

theorem setFenceVal_landed (s : State) (m v n ix : Nat) : ((s.setFenceVal m v).stream n ix).landed = (s.stream n ix).landed := by
  refine get_map_field (d := fun _ => Stream.init) Stream.landed (fun x => ?_) (fun x => ?_) s.streams (n * 64 + ix)
  · dsimp only
    split <;> rfl
  · dsimp only
    split <;> rfl

/-- What a fill that lands leaves: one landing more, and one more in its LAND fence. -/
theorem commitFill_lands {s : State} (hc : s.Canon) (n ix : Nat) (f : StrFill) :
    let land := op32 (s.stream n ix).slot 44
    (s.commitFill n ix f).xfers = s.xfers ∧ ((s.commitFill n ix f).stream n ix).landed = (s.stream n ix).landed + 1 ∧
      (s.fenceOk land = true →
        ((s.commitFill n ix f).fence (fenceNo land)).val = BitVec.ofNat 64 ((s.fence (fenceNo land)).val.toNat + 1)) := by
  intro land
  unfold State.commitFill
  extract_lets +onlyGivenNames t b late s1
  have k1 : OnlyChanges [.mem, .frames, .objs, .place, .reg, .host, .integ, .icnt, .out, .freeCtr] s s1 :=
    State.flipAll_only (within_of_all rfl) (State.writeFill_only (within_of_all rfl) (.refl s) b f) f.shadows
  have hc1 : s1.Canon := (State.flipAll_keeps (State.writeFill_keeps (.refl s) b f) f.shadows).canon hc
  clear_value s1
  extract_lets +onlyGivenNames t1 spent s2 s3 s4
  have hs2 : (s2.stream n ix).landed = t.landed + 1 := by
    rw [show s2.stream n ix = _ from State.stream_setStream_self hc1 n ix _]
  have k3 : OnlyChanges [.reg, .host, .out] s2 s3 ∧ Keeps s2 s3 := by
    unfold s3
    split
    · exact ⟨State.raise_only (.refl _) (.refl s2) _ _ _ _, State.raise_keeps (.refl s2) _ _ _ _⟩
    · exact ⟨.refl s2, .refl s2⟩
  obtain ⟨k4, hkeeps⟩ : OnlyChanges [.reg, .host, .out] s2 s4 ∧ Keeps s2 s4 := by
    unfold s4
    split
    · exact ⟨State.raise_only (.refl _) k3.1 _ _ _ _, State.raise_keeps k3.2 _ _ _ _⟩
    · exact k3
  have hc4 : s4.Canon := hkeeps.canon ((State.setStream_keeps (.refl s1) _ _ _).canon hc1)
  have hxfers : s4.xfers = s.xfers := (k4.use .xfers rfl).trans (k1.use .xfers rfl)
  have hfences : s4.gfe.fences = s.gfe.fences := (k4.use .fences rfl).trans (k1.use .fences rfl)
  have hlanded : (s4.stream n ix).landed = t.landed + 1 := (congrArg Stream.landed (stream_of (k4.use .streams rfl) n ix)).trans hs2
  have hfence : s4.fence (fenceNo land) = s.fence (fenceNo land) := by unfold State.fence; rw [hfences]
  have hok : s4.fenceOk land = s.fenceOk land := by unfold State.fenceOk; rw [hfence]
  clear_value s4
  extract_lets +onlyGivenNames land1
  split
  case isTrue =>
    refine ⟨hxfers, (setFenceVal_landed s4 _ _ n ix).trans hlanded, fun _ => ?_⟩
    rw [← hfence]
    exact congrArg Fence.val (State.fence_setFence_self hc4 (fenceNo land) _)
  case isFalse h => exact ⟨hxfers, hlanded, fun hs => absurd (hok.trans hs) h⟩

section
variable {s : State} {x : Xfer} {rest : List Xfer} {num g : Nat} {f : StrFill} (hc : s.Canon)
  (hx : takeFirst (fun y : Xfer => y.clu == x.clu) s.xfers = some (x, rest))
  (hf : (s.stream x.clu x.ix).fills.find? (fun e => e.num == num) = some f) (harmed : (s.stream x.clu x.ix).state = .armed)
  (hplain : (s.frame g).state ≠ .poisoned) (hhead : (s.frame g).state = .home → s.headFault g x.obj x.tile = none)
  (hlevel : ∀ o, s.obj? f.range.src = some o → (s.gotFill f x g).skew o = none)

include hc hx harmed in
/-- Once the read is out of flight its fill holds what it read. -/
theorem dropXfer_joined (e : StrFill) :
    ((s.joined x num g e).dropXfer x.clu).xfers = rest ∧ ((s.joined x num g e).dropXfer x.clu).Canon ∧
      ((s.joined x num g e).dropXfer x.clu).gfe.fences = s.gfe.fences ∧
      ((s.joined x num g e).dropXfer x.clu).stream x.clu x.ix =
        { s.stream x.clu x.ix with fills := (s.stream x.clu x.ix).fills.map (fun y => if y.num = num then e else y) } := by
  obtain ⟨hcj, hxj, hfj, hsj⟩ := joined_parts hc x num g e
  have harmedj : ((s.joined x num g e).stream x.clu x.ix).state ≠ .disarming := by
    rw [hsj]; exact fun h => nomatch harmed.symm.trans h
  have k := State.dropXfer_only (.refl _) (.refl (s.joined x num g e)) x.clu
  exact ⟨dropXfer_xfers _ x.clu x rest (hxj ▸ hx), (State.dropXfer_keeps (.refl _) x.clu).canon hcj, (k.use .fences rfl).trans hfj,
    (dropXfer_keepsStream _ x.clu x.ix harmedj).trans hsj⟩

include hc hx hf harmed hplain hhead hlevel

theorem readXfer_joins (hmore : (s.gotFill f x g).got.length < (s.gotFill f x g).total) :
    (s.readXfer x num g none).xfers = rest ∧ (s.readXfer x num g none).stream x.clu x.ix =
      { s.stream x.clu x.ix with fills := (s.stream x.clu x.ix).fills.map (fun y => if y.num = num then s.gotFill f x g else y) } := by
  rw [readXfer_level hf hplain hhead hlevel, if_pos hmore]
  obtain ⟨hxd, -, -, hsd⟩ := dropXfer_joined hc hx harmed (num := num) (g := g) (s.gotFill f x g)
  exact ⟨hxd, hsd⟩

theorem readXfer_lands (hfull : (s.gotFill f x g).total ≤ (s.gotFill f x g).got.length)
    (hnow : s.mayCommit x.clu (s.gotFill f x g) = true) :
    let land := op32 (s.stream x.clu x.ix).slot 44
    (s.readXfer x num g none).xfers = rest ∧
      ((s.readXfer x num g none).stream x.clu x.ix).landed = (s.stream x.clu x.ix).landed + 1 ∧
      (s.fenceOk land = true → ((s.readXfer x num g none).fence (fenceNo land)).val =
        BitVec.ofNat 64 ((s.fence (fenceNo land)).val.toNat + 1)) := by
  intro land
  rw [readXfer_level hf hplain hhead hlevel, if_neg (Nat.not_lt.mpr hfull), if_pos hnow]
  obtain ⟨hxd, hcd, hfd, hsd⟩ := dropXfer_joined hc hx harmed (num := num) (g := g) (s.gotFill f x g)
  generalize (s.joined x num g (s.gotFill f x g)).dropXfer x.clu = d at hxd hcd hfd hsd ⊢
  obtain ⟨hxc, hlanded, hfence⟩ := commitFill_lands hcd x.clu x.ix (s.gotFill f x g)
  rw [hsd] at hlanded hfence
  have kt := State.tidy_only (.refl _) (.refl (d.commitFill x.clu x.ix (s.gotFill f x g)))
  refine ⟨(kt.use .xfers rfl).trans (hxc.trans hxd), ?_, fun hok => ?_⟩
  · rw [stream_of (kt.use .streams rfl)]
    exact hlanded
  · rw [fence_of (kt.use .fences rfl), ← fence_of hfd]
    refine hfence ?_
    unfold State.fenceOk at hok ⊢
    rw [fence_of hfd]
    exact hok

end

/-! ## The return of a read -/

/-- The frame that a returned read is of: its own, or for a tile read out of the cellar its home. -/
def State.readOf (s : State) (x : Xfer) (g : Nat) : Prop :=
  (x.fid ≠ 0 ∧ g = x.fid) ∨ (x.fid = 0 ∧ s.homeOf x.obj x.tile = some g ∧ (tierOf g ≠ 3 ∨ (s.frame g).state = .poisoned))

theorem streamTransferComplete_exec {s : State} {x : Xfer} {num g : Nat} (bad : Option PoisonCause) (prod : Bool) (hon : s.on = true)
    (hx : s.xfers.find? (fun y => y.clu == x.clu) = some x) (hfill : x.fill = some num) (hread : s.readOf x g) :
    exec (.streamTransferComplete x.clu bad prod) s = .next (if prod then s.prodFail x num else s.readXfer x num g bad).endStep := by
  show execStreamTransferComplete x.clu bad prod s = _
  refine congrArg done ((if_neg (by simp [hon])).trans ?_)
  rw [hx]
  dsimp only
  rw [hfill]
  rcases hread with ⟨hfid, rfl⟩ | ⟨hfid, hhome, hnear⟩
  · exact if_pos hfid
  · refine (if_neg (by simp [hfid])).trans ?_
    rw [hhome]
    exact if_neg (fun h => hnear.elim (fun k => k h.1) h.2)

theorem streamTransferComplete_unfilled {s : State} {x : Xfer} {rest : List Xfer} (bad : Option PoisonCause) (prod : Bool) (hon : s.on = true)
    (hx : takeFirst (fun y : Xfer => y.clu == x.clu) s.xfers = some (x, rest)) (hfill : x.fill = none) :
    ∃ u, exec (.streamTransferComplete x.clu bad prod) s = .next u ∧ u.xfers = rest := by
  refine ⟨((s.dropXfer x.clu).tidy).endStep, ?_, ?_⟩
  · show execStreamTransferComplete x.clu bad prod s = _
    refine congrArg done ((if_neg (by simp [hon])).trans ?_)
    rw [(takeFirst_spec hx).2]
    dsimp only
    rw [hfill]
  · rw [xfers_endStep, tidy_xfers]
    exact dropXfer_xfers s x.clu x rest hx

theorem streamTransferComplete_far {s : State} {x : Xfer} {num g : Nat} (bad : Option PoisonCause) (prod : Bool) (hon : s.on = true)
    (hx : s.xfers.find? (fun y => y.clu == x.clu) = some x) (hfill : x.fill = some num) (hfid : x.fid = 0)
    (hhome : s.homeOf x.obj x.tile = some g) (htier : tierOf g = 3) (hplain : (s.frame g).state ≠ .poisoned) :
    exec (.streamTransferComplete x.clu bad prod) s = .next s.endStep := by
  show execStreamTransferComplete x.clu bad prod s = _
  refine congrArg done ((if_neg (by simp [hon])).trans ?_)
  rw [hx]
  dsimp only
  rw [hfill]
  refine (if_neg (by simp [hfid])).trans ?_
  rw [hhome]
  exact if_pos ⟨htier, hplain⟩

/-- What a fill whose output fails its check does: it is read again once, and then judges its slot. -/
theorem prodFail_parts {s : State} (hc : s.Canon) {x : Xfer} {num : Nat} {f : StrFill}
    (hf : (s.stream x.clu x.ix).fills.find? (fun e => e.num == num) = some f) (harmed : (s.stream x.clu x.ix).state = .armed) :
    (f.redone = false → (s.prodFail x num).stream x.clu x.ix = { s.stream x.clu x.ix with
      fills := (s.stream x.clu x.ix).fills.map (fun y =>
        if y.num < num then y else { y with issued := 0, got := [], redone := y.redone || y.num == num }) }) ∧
    (∀ p, f.redone = true → s.cluSlot x.clu = some p → (s.pslot p).state = .serving →
      ((s.prodFail x num).pslot p).state = .suspect) := by
  unfold State.prodFail
  extract_lets t
  rw [show t.fills.find? _ = some f from hf]
  dsimp only
  refine ⟨fun hfirst => ?_, fun p hsecond hslot hserving => ?_⟩
  · rw [if_neg (by simp [hfirst])]
    have hself := State.stream_setStream_self hc x.clu x.ix { t with fills := t.fills.map (fun e =>
      if e.num < num then e else { e with issued := 0, got := [], redone := e.redone || e.num == num }) }
    refine (dropXfer_keepsStream _ x.clu x.ix (fun h => ?_)).trans hself
    exact nomatch harmed.symm.trans ((congrArg Stream.state hself).symm.trans h)
  · rw [if_pos hsecond, hslot]
    have k := State.dropXfer_only (.refl _) (.refl s) x.clu
    refine makeSuspect_state (s.dropXfer x.clu) ((State.dropXfer_keeps (.refl s) x.clu).canon hc) p ?_
    rw [pslot_of (k.use .pslots rfl)]
    exact hserving

theorem strCtrlDisarm_exec {s : State} {a : Acc} {n : Nat} (hserved : s.served = true) :
    exec (.strCtrlDisarm a n) s = .next (s.disarm n (s.fld .clu (accNum a * 64 + n) 0x200 5 0)).endStep :=
  congrArg done (if_neg (by simp [hserved]))

theorem disarm_parts {s : State} (hc : s.Canon) (n ix : Nat)
    (h : (s.stream n ix).state = .armed ∨ (s.stream n ix).state = .dry ∨ (s.stream n ix).state = .faulted) :
    ((s.disarm n ix).stream n ix).queued = none ∧ ((s.disarm n ix).stream n ix).fills = [] ∧
      ((s.disarm n ix).stream n ix).state = if s.inFlight n ix = 0 then .idle else .disarming := by
  obtain ⟨hstream, hcanon, hflight⟩ := stopStream_parts s hc n ix
  unfold State.disarm
  extract_lets t s1 u
  rw [if_pos h, show State.stream _ n ix = _ from State.stream_setStream_self hcanon n ix _]
  exact ⟨rfl, congrArg Stream.fills hstream, by rw [show s1.inFlight n ix = _ from hflight]⟩

/-- Settles O42: a stream in turn issues its next read, a read that returns joins, lands or fails its fill, and a stream disarms. -/
theorem streamsFillAndStop : Obligations.StreamsFillAndStop := by
  unfold Obligations.StreamsFillAndStop
  refine ⟨?_, ?_, ?_, ?_⟩
  · intro s n hc hon hstop hissued hroom
    refine ⟨fun hnone => streamTransferIssue_idle hissued (.inr hnone), ?_⟩
    intro ix hturn src
    obtain ⟨hgone, hopen, hbegin⟩ := streamTransferIssue_exec hon hstop hissued hroom hturn
    refine ⟨fun hsrc => ?_, ?_, ?_⟩
    · obtain ⟨tile, hexec⟩ := hgone hsrc
      obtain ⟨hstate, hfault⟩ := faultStream_parts s hc n ix 3 tile
      exact ⟨_, hexec, hstate, congrArg Prod.fst hfault⟩
    · intro o f hsrc hf x g hg
      exact ⟨_, hopen o f hsrc hf, issueXfer_xfers s n ix o f hf g hg⟩
    · intro o hs f hsrc hf hframes q hq x g hg
      refine ⟨_, hbegin o hs hsrc hf hframes, ?_⟩
      have hclk : q.clk = s.clk := (State.beginFill_only (.refl _) (.refl s) n ix o hs).use .clk rfl
      refine (issueXfer_xfers q n ix o f hq g hg).trans ?_
      rw [show q.xfers = s.xfers from beginFill_xfers s n ix o hs, hclk]
  · intro s n hon
    obtain ⟨hnext, hlast⟩ : (s.issuedNow n = true → _) ∧ (s.issuedNow n = true → _) :=
      ⟨fun h => (streamTransferIssue_again hon h).1, fun h => (streamTransferIssue_again hon h).2⟩
    refine ⟨fun hfull hissued => streamTransferIssue_idle hissued (.inl hfull), hnext, hlast, fun bad prod hnone => ?_⟩
    show execStreamTransferComplete n bad prod s = _
    refine congrArg done ((if_neg (by simp [hon])).trans ?_)
    rw [hnone]
  · intro s n x rest hc hon hx t
    obtain ⟨hclu, hfind⟩ := takeFirst_spec hx
    obtain rfl : x.clu = n := by simpa using hclu
    refine ⟨fun bad prod hfill => streamTransferComplete_unfilled bad prod hon hx hfill, ?_,
      fun num bad prod g hfill hfid hhome htier hplain => streamTransferComplete_far bad prod hon hfind hfill hfid hhome htier hplain⟩
    intro num f g hfill hf harmed hread e clean level land
    have hexec := fun bad prod => streamTransferComplete_exec bad prod hon hfind hfill hread
    refine ⟨fun hclean hlevel hmore => ?_, fun hclean hlevel hfull hearly => ?_, fun hclean hlevel hfull hnow => ?_,
      fun o k hclean ho hskew => ?_, fun bad hbad => ?_, fun bad hfirst => ?_, fun bad p hsecond hslot hserving => ?_⟩
    · exact ⟨_, hexec none false, readXfer_joins hc hx hf harmed hclean.1 hclean.2 hlevel hmore⟩
    · have hwaits := (readXfer_level hf hclean.1 hclean.2 hlevel).trans
        ((if_neg (Nat.not_lt.mpr hfull)).trans (if_neg (Bool.eq_false_iff.mp hearly)))
      exact (hexec none false).trans (congrArg (fun t => Host.Outcome.next (State.endStep t)) hwaits)
    · exact ⟨_, hexec none false, readXfer_lands hc hx hf harmed hclean.1 hclean.2 hlevel hfull hnow⟩
    · refine ⟨_, (hexec none false).trans (congrArg (fun t => Host.Outcome.next (State.endStep t))
        (readXfer_skewed hf hclean.1 hclean.2 ho hskew)), ?_⟩
      rw [stream_endStep]
      exact dropXfer_faultStream _ x.clu x.ix 2 (k % 2 ^ 24) (joined_parts hc x num g _).1
    · obtain ⟨z, hz, hread⟩ := readXfer_faults hc hf hbad
      refine ⟨_, (hexec bad false).trans (congrArg (fun t => Host.Outcome.next (State.endStep t)) hread), ?_⟩
      rw [stream_endStep]
      exact dropXfer_faultStream z x.clu x.ix 1 (x.tile % 2 ^ 24) hz
    · exact ⟨_, hexec bad true, (prodFail_parts hc hf harmed).1 hfirst⟩
    · exact ⟨_, hexec bad true, (prodFail_parts hc hf harmed).2 p hsecond hslot hserving⟩
  · intro s a n hc hserved ix
    refine ⟨fun h => ⟨_, strCtrlDisarm_exec hserved, disarm_parts hc n ix h⟩, fun h => ?_⟩
    rw [strCtrlDisarm_exec hserved]
    exact congrArg (fun t => Host.Outcome.next (State.endStep t)) (if_neg (by rcases h with h | h <;> simp [ix, h]))

end Sys2Proof.Machine

/-! PROOFS. Register writes and reads, and the operations that registers start. -/
namespace Sys2Proof.Machine
open Sys2Proof

/-! ## Writes of a listed register -/

theorem registerWrite_word {s : State} (a : Acc) (off : Nat) (data : BitVec 64) (hon : s.on = true) :
    exec (.registerWrite a off data .word) s = .next (s.writeReg a off (data.toNat % 2 ^ 32)).endStep :=
  congrArg done (if_neg (by simp [hon]))

theorem registerWrite_off {s : State} (a : Acc) (off : Nat) (data : BitVec 64) (z : AccessSize) (hoff : s.on = false) :
    exec (.registerWrite a off data z) s = .next s.endStep := congrArg done (if_pos (by simp [hoff]))

theorem registerWrite_badSize {s : State} {a : Acc} {off : Nat} {data : BitVec 64} {l : RegLoc} {r : RDef} {z : AccessSize}
    (hon : s.on = true) (hl : s.locate off = some l) (hserves : s.serves l = true) (hr : regAt l.w l.off = some r)
    (hz : z ∈ [AccessSize.narrow, .wide]) :
    exec (.registerWrite a off data z) s = .next (s.noteIgnored a l r).endStep := by
  have hbad : s.writeBadSize a off = s.noteIgnored a l r := by
    unfold State.writeBadSize
    rw [hl]
    refine (if_neg (by simp [hserves])).trans ?_
    rw [hr]
  have hexec : exec (.registerWrite a off data z) s = .next (s.writeBadSize a off).endStep := by
    refine congrArg done ((if_neg (by simp [hon])).trans ?_)
    cases z with
    | narrow | wide => rfl
    | word | dword => simp at hz
  rw [hexec, hbad]

/-- A 64-bit write is one of the lower word and then one of the upper. -/
theorem registerWrite_dword {s : State} (a : Acc) (off : Nat) (data : BitVec 64) (hon : s.on = true) {u : State}
    (hu : u = (s.writeReg a off (data.toNat % 2 ^ 32)).endStep) (huon : u.on = true) :
    exec (.registerWrite a off data .dword) s = exec (.registerWrite a (off + 4) (data >>> 32) .word) u := by
  have hupper : (data >>> 32).toNat % 2 ^ 32 = data.toNat / 2 ^ 32 := by
    rw [BitVec.toNat_ushiftRight, Nat.shiftRight_eq_div_pow]
    exact Nat.mod_eq_of_lt (by have := data.isLt; omega)
  rw [registerWrite_word a (off + 4) _ huon, hupper, hu]
  exact congrArg done (if_neg (by simp [hon]))

/-- Settles O43: what a write does to a listed register by the class of its fields, and what a read answers. -/
theorem registerWritesTakeEffectByClass : Obligations.RegisterWritesTakeEffectByClass := by
  unfold Obligations.RegisterWritesTakeEffectByClass
  refine ⟨?_, fun s a off data hnone => ?_, fun s a off data => ?_, fun s a off hon => ?_⟩
  · intro s a off data l r hc hon hl hserves hr item x ign
    have hword := fun (h0 : r.events = 0) => (registerWrite_word a off data hon).trans
      (congrArg (fun t => Host.Outcome.next (State.endStep t)) (writeReg_loc hl hserves hr h0))
    refine ⟨fun z hz => ⟨_, registerWrite_badSize hon hl hserves hr hz, noteIgnored_bit hc a l r⟩, ?_, ?_⟩
    · intro h0 hops halias htarget hfields hplan hne hbits
      refine ⟨_, _, _, hword h0, ?_, rfl, rfl⟩
      rw [writeField_atTick s a l r x hops halias htarget hfields hplan hne hbits]
      rfl
    · intro f h0 hops hgfe hfab htarget hone hacc heff hlsb hmsb v
      have honce := fun hok hf hp => writeField_atOnce s a l r x f hops htarget hgfe hfab hone hacc heff hok v rfl hf hp
      refine ⟨fun hf hplan => ⟨_, hword h0, ?_⟩, fun hf hplan => ⟨_, hword h0, ?_⟩⟩
      · rw [show s.writeFields a l r (data.toNat % 2 ^ 32) = _ from honce true hf hplan]
        exact fld_fldPut hc l.w item l.off v hlsb hmsb
      · rw [show s.writeFields a l r (data.toNat % 2 ^ 32) = _ from honce false hf hplan]
        exact noteIgnored_bit hc a l r
  · refine congrArg done ?_
    split
    · rfl
    · show s.writeReg a off _ = s
      unfold State.writeReg
      rw [hnone]
  · cases hon : s.on with
    | true => exact ⟨_, registerWrite_word a off data hon, registerWrite_dword a off data hon rfl⟩
    | false => exact ⟨_, registerWrite_off a off data .word hon, fun h => absurd (hon.symm.trans h) (by decide)⟩
  · refine ⟨_, congrArg done (if_neg (by simp [hon])), ?_⟩
    exact congrArg (· ++ [Output.regRead a (BitVec.ofNat 32 (s.readReg a off).1)]) (readReg_out s a off)

/-! ## Operations that registers start -/

theorem gfeFenceReset_exec {s : State} {a : Acc} (gen : BitVec 20) (hserved : s.served = true) :
    ((s.fence (s.selFence a)).gen = gen → s.fenceBusy (s.selFence a) = false → s.Canon →
      ∃ u, exec (.gfeFenceReset a gen) s = .next u ∧ u.fence (s.selFence a) = ⟨0, gen + 1⟩) ∧
    (((s.fence (s.selFence a)).gen ≠ gen ∨ s.fenceBusy (s.selFence a) = true) →
      exec (.gfeFenceReset a gen) s = .next s.fenceIgnored.endStep) := by
  refine ⟨fun hgen hidle hc => ?_, fun hno => ?_⟩
  · refine ⟨_, congrArg done ((if_neg (by simp [hserved])).trans (if_neg (by simp [hgen, hidle]))), ?_⟩
    rw [← hgen]
    exact State.fence_setFence_self hc (s.selFence a) _
  · exact congrArg done ((if_neg (by simp [hserved])).trans (if_pos hno))

theorem gfeFenceAdd_exec {s : State} {a : Acc} (add : BitVec 32) (hserved : s.served = true) :
    (s.Canon → add ≠ 0 → (s.fence (s.selFence a)).val.toNat + add.toNat < 2 ^ 64 →
      ∃ u, exec (.gfeFenceAdd a add) s = .next u ∧
        (u.fence (s.selFence a)).val.toNat = (s.fence (s.selFence a)).val.toNat + add.toNat) ∧
    ((add = 0 ∨ 2 ^ 64 ≤ (s.fence (s.selFence a)).val.toNat + add.toNat) →
      exec (.gfeFenceAdd a add) s = .next s.fenceIgnored.endStep) := by
  refine ⟨fun hc hadd hfits => ?_, fun hno => ?_⟩
  · refine ⟨(s.setFenceVal (s.selFence a) ((s.fence (s.selFence a)).val.toNat + add.toNat)).endStep,
      congrArg done ((if_neg (by simp [hserved])).trans (if_neg (by simp only [not_or]; exact ⟨hadd, Nat.not_le.mpr hfits⟩))), ?_⟩
    have hval := congrArg Fence.val (State.fence_setFence_self hc (s.selFence a)
      { s.fence (s.selFence a) with val := BitVec.ofNat 64 ((s.fence (s.selFence a)).val.toNat + add.toNat) })
    exact (congrArg BitVec.toNat hval).trans (Nat.mod_eq_of_lt hfits)
  · exact congrArg done ((if_neg (by simp [hserved])).trans (if_pos hno))

theorem cxlAptValid_exec {s : State} {a : Acc} (hserved : s.served = true) :
    let k := s.selected a .cxl 0x040 5 0
    (s.Canon → s.bindable (s.regGet .cxl k 0x044) = true → ∃ u, exec (.cxlAptValid a true) s = .next u ∧ u.fld .cxl k 0x04C 0 0 = 1) ∧
    (s.bindable (s.regGet .cxl k 0x044) = false → exec (.cxlAptValid a true) s = .next (s.ignored .cxl 0 0x004).endStep) ∧
    (s.Canon → ∃ u, exec (.cxlAptValid a false) s = .next u ∧ u.fld .cxl k 0x04C 0 0 = 0) := by
  intro k
  refine ⟨fun hc hbound => ?_, fun hno => ?_, fun hc => ?_⟩
  · exact ⟨_, congrArg done ((if_neg (by simp [hserved])).trans (if_neg (by simp [k, hbound]))),
      fld_fldPut hc .cxl k 0x04C 1 (Nat.le_refl 0) (by decide)⟩
  · exact congrArg done ((if_neg (by simp [hserved])).trans (if_pos (by simp [k, hno])))
  · exact ⟨_, congrArg done ((if_neg (by simp [hserved])).trans (if_neg (by simp))),
      fld_fldPut hc .cxl k 0x04C 0 (Nat.le_refl 0) (by decide)⟩

/-- Settles O46: what each register that starts an operation does, in service and outside it. -/
theorem registersStartTheirOperations : Obligations.RegistersStartTheirOperations := by
  unfold Obligations.RegistersStartTheirOperations
  refine ⟨fun s a gen add c x hno op hop => ?_, fun s a hc hserved => ?_⟩
  · have hskip : ∀ t : State, (if !s.served then s else t) = s := fun t => if_pos (by simp [hno])
    simp only [List.mem_cons, List.not_mem_nil, or_false] at hop
    rcases hop with rfl | rfl | rfl | rfl | rfl
    all_goals exact congrArg done (hskip _)
  · refine ⟨fun gen hgen hidle => (gfeFenceReset_exec gen hserved).1 hgen hidle hc, fun gen => (gfeFenceReset_exec gen hserved).2,
      fun add hadd hfits => (gfeFenceAdd_exec add hserved).1 hc hadd hfits, fun add => (gfeFenceAdd_exec add hserved).2,
      fun c compat => ⟨_, congrArg done (if_neg (by simp [hserved])), congrArg AccState.acct (acc_setAcc _ a _)⟩,
      ⟨_, congrArg done (if_neg (by simp [hserved])), rfl⟩, ?_⟩
    obtain ⟨hbound, hunbound, hinvalid⟩ := cxlAptValid_exec (a := a) hserved
    exact ⟨hbound hc, hunbound, hinvalid hc⟩

end Sys2Proof.Machine

/-! PROOFS. Image updates, the warm reset and the recovery loader. -/
namespace Sys2Proof.Machine
open Sys2Proof

/-! ## Updates -/

theorem secUpd_exec {s : State} (a : Acc) (config : Bool) (hon : s.on = true) :
    exec (if config then .secUpdConfig a else .secUpdFirmware a) s = .next (s.startUpdate (if config then 2 else 1)).endStep := by
  cases config with
  | true => exact congrArg done (if_neg (by simp [hon]))
  | false => exact congrArg done (if_neg (by simp [hon]))

theorem startUpdate_noFrames {s : State} {op : Nat} (hidle : s.sec.upd ≠ 1) (hframes : s.updateFrames = none) :
    (s.startUpdate op).sec.upd = 7 := by
  unfold State.startUpdate
  rw [if_neg hidle]
  extract_lets +onlyGivenNames sec s1
  rw [show s1.updateFrames = none from hframes]
  exact congrArg Sec.upd (endUpdate_sec s1 7 rfl)

theorem startUpdate_inhibited {s : State} {op : Nat} {fs : List Nat} (hidle : s.sec.upd ≠ 1) (hframes : s.updateFrames = some fs)
    (hinhibit : s.sup.inhibit = true) : (s.startUpdate op).sec.upd = 5 := by
  unfold State.startUpdate
  rw [if_neg hidle]
  extract_lets +onlyGivenNames sec s1
  rw [show s1.updateFrames = some fs from hframes]
  dsimp only
  obtain ⟨hsec, hsup⟩ := takeShadow_foldl fs s1
  rw [hsup, if_pos (show s1.sup.inhibit = true from hinhibit)]
  exact congrArg Sec.upd (endUpdate_sec _ 5 (by rw [hsec]))

theorem updateComplete_exec {s : State} (r : UpdateResult) (hon : s.on = true) (hrun : s.sec.upd = 1) :
    exec (.updateComplete r) s = .next (s.judgeUpdate r).endStep := congrArg done (if_neg (by simp [hon, hrun]))

/-- What judging an image of firmware leaves of the update and of the stored image. -/
theorem judgeUpdate_firmware {s : State} (f : FwImage) (hrun : s.sec.upd = 1) :
    (s.sec.updOp = 1 → fwGenuine s.romHash f = true →
      (s.svnFloor ≤ f.svn → (s.judgeUpdate (.doneFw f)).sec.upd = 2 ∧ (s.judgeUpdate (.doneFw f)).sec.fwStored = some (some f)) ∧
      (f.svn < s.svnFloor → (s.judgeUpdate (.doneFw f)).sec.upd = 4 ∧ (s.judgeUpdate (.doneFw f)).sec.fwStored = s.sec.fwStored)) ∧
    ((s.sec.updOp ≠ 1 ∨ fwGenuine s.romHash f = false) →
      (s.judgeUpdate (.doneFw f)).sec.upd = 3 ∧ (s.judgeUpdate (.doneFw f)).sec.fwStored = s.sec.fwStored) := by
  have hjudge : s.judgeUpdate (.doneFw f) = if s.sec.updOp ≠ 1 ∨ fwGenuine s.romHash f = false then s.endUpdate 3
    else if s.fwOk f then (State.endUpdate { s with sec := { s.sec with fwStored := some (some f) } } 2) else s.endUpdate 4 := rfl
  rw [hjudge]
  refine ⟨fun hop hgenuine => ⟨fun hnew => ?_, fun hold => ?_⟩, fun hno => ?_⟩
  · rw [if_neg (by simp [hop, hgenuine]), if_pos (by simp [State.fwOk, hgenuine, hnew])]
    have hsec := endUpdate_sec { s with sec := { s.sec with fwStored := some (some f) } } 2 hrun
    exact ⟨congrArg Sec.upd hsec, congrArg Sec.fwStored hsec⟩
  · rw [if_neg (by simp [hop, hgenuine]), if_neg (by simp [State.fwOk, hold]), endUpdate_sec _ 4 hrun]
    exact ⟨rfl, rfl⟩
  · rw [if_pos hno, endUpdate_sec _ 3 hrun]
    exact ⟨rfl, rfl⟩

/-- What judging a configuration leaves of the update and of the stored image. -/
theorem judgeUpdate_config {s : State} (b : List Byte) (hrun : s.sec.upd = 1) :
    (∀ i, s.sec.updOp = 2 → verifyCfg b s.romHash s.sec.devHash = some i → s.newerCfg i = true →
      (s.judgeUpdate (.doneCfg b)).sec.upd = 2 ∧ (s.judgeUpdate (.doneCfg b)).sec.cfgStored = some (some b)) ∧
    ((s.sec.updOp ≠ 2 ∨ ∀ i, verifyCfg b s.romHash s.sec.devHash = some i → s.newerCfg i = false) →
      (s.judgeUpdate (.doneCfg b)).sec.upd = 3 ∧ (s.judgeUpdate (.doneCfg b)).sec.cfgStored = s.sec.cfgStored) := by
  have hjudge : s.judgeUpdate (.doneCfg b) =
    if s.sec.updOp = 2 ∧ (verifyCfg b s.romHash s.sec.devHash).any s.newerCfg = true then
      State.endUpdate { s with sec := { s.sec with cfgStored := some (some b) } } 2
    else s.endUpdate 3 := rfl
  rw [hjudge]
  refine ⟨fun i hop hverify hnewer => ?_, fun hno => ?_⟩
  · rw [if_pos ⟨hop, by rw [hverify]; exact hnewer⟩]
    have hsec := endUpdate_sec { s with sec := { s.sec with cfgStored := some (some b) } } 2 hrun
    exact ⟨congrArg Sec.upd hsec, congrArg Sec.cfgStored hsec⟩
  · rw [if_neg ?_, endUpdate_sec _ 3 hrun]
    · exact ⟨rfl, rfl⟩
    · rintro ⟨hop, hany⟩
      cases hverify : verifyCfg b s.romHash s.sec.devHash with
      | none => rw [hverify] at hany; exact nomatch hany
      | some i =>
        rw [hverify] at hany
        exact hno.elim (fun h => h hop) (fun h => absurd (h i hverify) (by simpa using hany))

theorem losePartition_sec (s : State) : s.losePartition.sec.upd = s.sec.upd ∧ (s.sec.updOp = 1 → s.losePartition.sec.fwStored = some none) := by
  unfold State.losePartition
  split
  case isTrue => exact ⟨rfl, fun _ => rfl⟩
  case isFalse h => exact ⟨rfl, fun hop => absurd hop h⟩

/-- An update that ends without an image ends with its code. -/
theorem judgeUpdate_code {s : State} (hrun : s.sec.upd = 1) {x : UpdateResult × Nat}
    (hx : x ∈ [(UpdateResult.badSignature, 3), (.rollback, 4), (.inhibited, 5), (.writeFailed, 6), (.noSpace, 7)]) :
    (s.judgeUpdate x.1).sec.upd = x.2 := by
  simp only [List.mem_cons, List.not_mem_nil, or_false] at hx
  rcases hx with rfl | rfl | rfl | rfl | rfl
  case inr.inr.inr.inl => exact congrArg Sec.upd (endUpdate_sec s.losePartition 6 ((losePartition_sec s).1.trans hrun))
  all_goals exact congrArg Sec.upd (endUpdate_sec s _ hrun)

/-! ## The warm reset -/

theorem secReset_exec {s : State} (a : Acc) (key : BitVec 8) (warm : Bool) (hon : s.on = true) :
    (key = 0xA5#8 → warm = true → exec (.secReset a key warm) s = .next s.warmStart.endStep) ∧
    ((key ≠ 0xA5#8 ∨ warm = false) → exec (.secReset a key warm) s = .next s.secIgnored.endStep) := by
  refine ⟨fun hkey hwarm => ?_, fun hno => ?_⟩
  · exact congrArg done ((if_neg (by simp [hon])).trans (if_pos ⟨hkey, hwarm⟩))
  · exact congrArg done ((if_neg (by simp [hon])).trans (if_neg (fun h => hno.elim (fun k => k h.1) (by simp [h.2]))))

/-! ## Recovery -/

theorem install_fails {s : State} {fw : Option FwImage} (h : (s.install fw).1 ≠ 2) : (s.install fw).2 = s := by
  revert h
  unfold State.install
  extract_lets dev img
  split
  · split
    · exact fun h => absurd rfl h
    · exact fun _ => rfl
  split
  · exact fun _ => rfl
  split
  · exact fun _ => rfl
  split
  · exact fun h => absurd rfl h
  · exact fun _ => rfl

theorem install_firmware {s : State} {f : FwImage} (hload : s.sec.load.1 = 0) (hgenuine : fwGenuine s.romHash f = true)
    (hnew : s.svnFloor ≤ f.svn) : s.install (some f) = (2, { s with sec := { s.sec with fwStored := some (some f) } }) := by
  unfold State.install
  extract_lets dev img
  rw [if_neg (by simp [hload])]
  dsimp only
  rw [if_neg (by simp [hgenuine]), if_pos (by simp [State.fwOk, hgenuine, hnew])]

section
variable {s : State} (hon : s.on = true)
include hon

theorem secRec_ignored (a : Acc) (hno : s.sec.recovery = false ∨ s.sec.load.2.2 ≠ 1) :
    (∀ word, exec (.secRecData a word) s = .next s.secIgnored.endStep) ∧ (∀ fw, exec (.secRecEnd a fw) s = .next s.secIgnored.endStep) := by
  have hcond : (!s.sec.recovery || s.sec.load.2.2 != 1) = true := by rcases hno with h | h <;> simp [h]
  exact ⟨fun word => congrArg done ((if_neg (by simp [hon])).trans (if_pos hcond)),
    fun fw => congrArg done ((if_neg (by simp [hon])).trans (if_pos hcond))⟩

theorem secRecEnd_exec (a : Acc) (fw : Option FwImage) (hrec : s.sec.recovery = true) (hopen : s.sec.load.2.2 = 1) :
    exec (.secRecEnd a fw) s = .next (if (s.install fw).1 = 2
      then ((s.install fw).2.setLoad s.sec.load.1 s.sec.load.2.1 (s.install fw).1 []).recovered
      else (s.install fw).2.setLoad s.sec.load.1 s.sec.load.2.1 (s.install fw).1 []).endStep :=
  congrArg done ((if_neg (by simp [hon])).trans (if_neg (by simp [hrec, hopen])))

end

/-- Settles O47: an update runs and ends with its code, the key with WARM resets, and recovery loads an image word by word. -/
theorem updatesResetsAndRecovery : Obligations.UpdatesResetsAndRecovery := by
  unfold Obligations.UpdatesResetsAndRecovery
  intro s a hon
  refine ⟨?_, fun r hidle => ?_, fun hrun => ?_, fun key warm => ?_, fun hrec => ?_, fun hrec => ?_⟩
  · intro config run
    have hexec := secUpd_exec a config hon
    refine ⟨fun hbusy => ?_, fun hidle => ⟨fun hnone => ⟨_, hexec, startUpdate_noFrames hidle hnone⟩,
      fun fs hframes hinhibit => ⟨_, hexec, startUpdate_inhibited hidle hframes hinhibit⟩,
      fun fs hframes hfree => ⟨_, hexec, startUpdate_ok s _ fs hidle hframes hfree⟩⟩⟩
    exact hexec.trans (congrArg (fun t => Host.Outcome.next (State.endStep t)) (if_pos hbusy))
  · exact congrArg done (if_pos (by simp [hidle]))
  · have hexec := fun r => updateComplete_exec r hon hrun
    refine ⟨fun f hop hgenuine => ⟨fun hnew => ⟨_, hexec _, ((judgeUpdate_firmware f hrun).1 hop hgenuine).1 hnew⟩,
        fun hold => ⟨_, hexec _, ((judgeUpdate_firmware f hrun).1 hop hgenuine).2 hold⟩⟩,
      fun f hno => ⟨_, hexec _, (judgeUpdate_firmware f hrun).2 hno⟩,
      fun b i hop hverify hnewer => ⟨_, hexec _, (judgeUpdate_config b hrun).1 i hop hverify hnewer⟩,
      fun b hno => ⟨_, hexec _, (judgeUpdate_config b hrun).2 hno⟩,
      fun x hx => ⟨_, hexec _, judgeUpdate_code hrun hx⟩, fun hop => ⟨_, hexec _, ?_⟩⟩
    obtain ⟨hupd, hlost⟩ := losePartition_sec s
    exact (congrArg Sec.fwStored (endUpdate_sec s.losePartition 6 (hupd.trans hrun))).trans (hlost hop)
  · obtain ⟨hstart, hignored⟩ := secReset_exec a key warm hon
    refine ⟨fun hkey hwarm hidle hserving => ⟨_, hstart hkey hwarm, ?_⟩, fun hkey hwarm hbusy => ?_, hignored⟩
    · exact congrArg (fun t : State => t.sec.warm) (if_neg (by simp [hidle, hserving]))
    · exact (hstart hkey hwarm).trans (congrArg (fun t => Host.Outcome.next (State.endStep t)) (if_pos (by simpa using hbusy)))
  · obtain ⟨hdata, hend⟩ := secRec_ignored hon a (.inl hrec)
    exact ⟨fun config => congrArg done ((if_neg (by simp [hon])).trans (if_pos (by simp [hrec]))), hdata, hend⟩
  · refine ⟨fun config => ⟨_, congrArg done ((if_neg (by simp [hon])).trans (if_neg (by simp [hrec]))), rfl, rfl⟩,
      fun hclosed => secRec_ignored hon a (.inr hclosed), fun hopen => ?_⟩
    have hend := fun fw => secRecEnd_exec hon a fw hrec hopen
    refine ⟨fun word => ⟨_, congrArg done ((if_neg (by simp [hon])).trans (if_neg (by simp [hrec, hopen]))), rfl, rfl⟩,
      fun fw hfail => ⟨_, hend fw, ?_⟩, fun fw hok => ?_, fun f hload hwarm hgenuine hnew => ⟨_, hend (some f), ?_⟩⟩
    · rw [if_neg hfail, install_fails hfail]
      exact ⟨hrec, rfl⟩
    · rw [hend fw, if_pos hok, hok]
    · rw [install_firmware hload hgenuine hnew]
      exact recovered_warm _ hwarm

end Sys2Proof.Machine

/-! PROOFS. Device memory: a frame so far out that its header lies inside its own data. -/
namespace Sys2Proof.Machine
open Sys2Proof

/-- The frame number at which the header area meets the frame's own data: its header begins 512 bytes behind its data's begin. -/
def farFrame : Nat := 78536544841

theorem farFrame_header : frameHdr farFrame = frameData farFrame + 512 := by decide

/-- An object of one tile, at home in the far frame. -/
def farObj : Obj := { fmt := 0, dataTiles := 1, tiles := 1, cls := 0, owner := 0, policy := 0, tier := 0, spread := 0, seq := 0,
                      rowBytes := 0, scaleObj := 0, table := none, map := [(0, farFrame)], creation := .live, freed := false }

/-- The reset state with the link UP, all of device memory open, and aperture slot 0 valid and bound to that object. -/
def farState : State :=
  let s := (State.reset.regPut .cxl 0 0x044 29).regPut .cxl 0 0x04C 1
  { s with objs := [(29, farObj)], link := { s.link with state := .up, memEn := true, hdm := some (2 ^ 46) } }

theorem farState_canon : farState.Canon :=
  ⟨by decide, by decide, by decide, by decide, by decide, by decide, by decide, by decide, by decide, by decide, by decide,
    by decide, by simp [farState]⟩

/-- The address of header byte 2 of the tile, in the side-band view. -/
def farHeaderByte : Nat := 0x800000002

/-- The 515th data byte of the far frame after a side-band write of its header byte 2. -/
def farByteAfter : Option (List Byte) :=
  match exec (.memWr farHeaderByte [1]) farState with
  | .next t => some ((t.bytesAt (frameData farFrame) 4096).drop 514 |>.take 1)
  | _ => none

/-- Refutes O48: nothing bounds the frame that an object's map names, and the header of the far frame lies inside its data, so a
write through the side-band view changes a data byte. -/
theorem not_deviceMemoryIsReadAndWritten : ¬ Obligations.DeviceMemoryIsReadAndWritten := by
  unfold Obligations.DeviceMemoryIsReadAndWritten
  rintro ⟨access, -, -⟩
  obtain ⟨aperture, -⟩ := access farState farHeaderByte 0 [1] farState_canon (by decide)
  obtain ⟨-, views⟩ := aperture (by decide)
  obtain ⟨-, bound⟩ := views 0 2 true (by decide)
  obtain ⟨-, homes⟩ := bound farObj (by decide) (by decide)
  obtain ⟨near, -⟩ := homes farFrame (by decide) (by decide)
  obtain ⟨-, t, hexec, -, -, hdata⟩ := near (.inl (by decide))
  have hkept : farByteAfter = some ((farState.bytesAt (frameData farFrame) 4096).drop 514 |>.take 1) := by
    unfold farByteAfter
    rw [hexec]
    simp only [hdata rfl (by decide)]
  have hone : farByteAfter = some [1] := by decide +kernel
  rw [hone] at hkept
  exact absurd hkept (by decide +kernel)

end Sys2Proof.Machine

/-! PROOFS. The link of the host: how it goes down, trains and comes up, and what the function's configuration takes. -/
namespace Sys2Proof.Machine
open Sys2Proof

theorem resetFunction_plain (s : State) : s.linkLoss.resetFunction.link =
    { s.link with downs := satAdd 16 s.link.downs 1, busMaster := false, msixEn := false, d3hot := false } := by
  rw [resetFunction_link, linkLoss_link]

section
variable {s : State} (hon : s.on = true)
include hon

theorem perstAssert_exec (hperst : s.link.perst = false) :
    exec .perstAssert s = .next (State.endStep { s.takeDown with link := { s.takeDown.link with perst := true } }) :=
  congrArg done (if_neg (by simp [hon, hperst]))

/-- The events that need a link that is UP or in RECOVERY. -/
theorem liveEvents_exec (hlive : s.linkLive = true) :
    (∀ c ∈ [Instr.dlDown, .hotReset], exec c s = .next s.takeDown.endStep) ∧
    exec .flr s = .next s.linkLoss.resetFunction.endStep ∧
    (s.link.d3hot = false → exec .d3hotEntry s = .next (State.endStep { s.linkLoss.resetFunction with
      link := { s.linkLoss.resetFunction.link with d3hot := true } })) ∧
    (s.link.d3hot = true → exec .d0Return s = .next s.linkLoss.resetFunction.endStep) := by
  refine ⟨fun c hc => ?_, congrArg done (if_neg (by simp [hon, hlive])), fun h => congrArg done (if_neg (by simp [hon, hlive, h])),
    fun h => congrArg done (if_neg (by simp [hon, hlive, h]))⟩
  simp only [List.mem_cons, List.not_mem_nil, or_false] at hc
  rcases hc with rfl | rfl
  all_goals exact congrArg done (if_neg (by simp [hon, hlive]))

theorem refclkLoss_down (hclk : s.sb.refclk = true) :
    ∃ u, exec .refclkLoss s = .next u ∧ u.sb.refclk = false ∧ u.link.state = .down := by
  refine ⟨_, congrArg done (if_neg (by simp [hon, hclk])), ?_⟩
  dsimp only
  rw [sb_endStep, link_endStep]
  split
  · rw [takeDown_sb, takeDown_link]
    exact ⟨rfl, rfl⟩
  · exact ⟨rfl, rfl⟩

end

/-- What trying to train leaves of the link. -/
theorem tryTrain_link (s : State) : s.tryTrain.link =
    if s.link.state = .down ∧ s.canTrain = true then { s.link with state := .training } else s.link := by
  unfold State.tryTrain
  split
  · rfl
  · rfl

theorem tryTrain_sb (s : State) : s.tryTrain.sb = s.sb := by
  unfold State.tryTrain
  split
  · rfl
  · rfl

theorem perstDeassert_link {s : State} (hon : s.on = true) :
    ∃ u, exec .perstDeassert s = .next u ∧ u.link.perst = false ∧ u.link.state =
      if s.link.state = .down ∧ s.link.hostStep = true ∧ s.unitTest 4 = false ∧ s.sb.refclk = true then .training else s.link.state := by
  refine ⟨_, congrArg done (if_neg (by simp [hon])), ?_⟩
  have hcan : State.canTrain { s with link := { s.link with perst := false } } = true ↔
      s.link.hostStep = true ∧ s.unitTest 4 = false ∧ s.sb.refclk = true := by
    have htest : State.unitTest { s with link := { s.link with perst := false } } 4 = s.unitTest 4 := rfl
    simp [State.canTrain, htest, and_assoc, and_comm]
  rw [link_endStep, tryTrain_link]
  simp only [hcan]
  split
  · exact ⟨rfl, rfl⟩
  · exact ⟨rfl, rfl⟩

theorem refclkRestored_link {s : State} (hon : s.on = true) :
    ∃ u, exec .refclkRestored s = .next u ∧ u.sb.refclk = true ∧ u.link.state =
      if s.link.state = .down ∧ s.link.hostStep = true ∧ s.unitTest 4 = false ∧ s.link.perst = false then .training
      else s.link.state := by
  refine ⟨_, congrArg done (if_neg (by simp [hon])), ?_⟩
  have hcan : State.canTrain { s with sb := { s.sb with refclk := true } } = true ↔
      s.link.hostStep = true ∧ s.unitTest 4 = false ∧ s.link.perst = false := by
    have htest : State.unitTest { s with sb := { s.sb with refclk := true } } 4 = s.unitTest 4 := rfl
    simp [State.canTrain, htest, and_assoc, and_comm, and_left_comm]
  rw [sb_endStep, tryTrain_sb, link_endStep, tryTrain_link]
  refine ⟨rfl, ?_⟩
  simp only [hcan]
  split
  · rfl
  · rfl

/-- The link after it has come UP at a width and a speed. -/
theorem linkUp_resumed (s : State) (width gts : Nat) : ((s.linkUpAt width gts).resumeHost).link =
    { s.link with state := .up, width := width, gts := gts, degraded := width != 16 || gts != 32 } := by
  rw [resumeHost_link, linkUpAt_link]

section
variable {s : State} (hon : s.on = true)
include hon

theorem linkL0Reached_exec (width gts : Nat) :
    (s.tryTrain.link.state = .training → ∃ u, exec (.linkL0Reached width gts) s = .next u ∧
      u.link = { s.link with state := .up, width := width, gts := gts, degraded := width != 16 || gts != 32 }) ∧
    (s.tryTrain.link.state ≠ .training → exec (.linkL0Reached width gts) s = .next s.endStep) := by
  refine ⟨fun h => ⟨_, congrArg done (if_neg (by simp [hon, h])), ?_⟩, fun h => congrArg done (if_pos (by simp [h]))⟩
  rw [link_endStep, linkUp_resumed, tryTrain_link]
  split
  · rfl
  · rfl

theorem linkRecoveryExit_exec (width gts : Nat) :
    (s.link.state = .recovery → ∃ u, exec (.linkRecoveryExit width gts) s = .next u ∧
      u.link = { s.link with state := .up, width := width, gts := gts, degraded := width != 16 || gts != 32 }) ∧
    (s.link.state ≠ .recovery → exec (.linkRecoveryExit width gts) s = .next s.endStep) :=
  ⟨fun h => ⟨_, congrArg done (if_neg (by simp [hon, h])), linkUp_resumed s width gts⟩, fun h => congrArg done (if_pos (by simp [h]))⟩

end

/-! ## The function's configuration, while the link is UP -/

theorem sendPending_unmasked (s : State) : s.sendPending.host.unmasked = s.host.unmasked := by
  unfold State.sendPending
  split
  · rfl
  · extract_lets go
    exact foldl_invariant (P := fun t => t.host.unmasked = s.host.unmasked) (f := fun t v => t.emit (.msix v)) (fun t v h => h) go _ rfl

section
variable {s : State} (hon : s.on = true) (hup : s.linkUp = true)
include hon hup

theorem dvsecCacheEnable_link (on : Bool) :
    ∃ u, exec (.dvsecCacheEnable on) s = .next u ∧ u.link = { s.link with cacheEn := on } := by
  refine ⟨_, congrArg done (if_neg (by simp [hon, hup])), ?_⟩
  dsimp only
  rw [link_endStep]
  split
  · exact pumps_link _ _
  · exact (State.killReads_only (.refl _) (.refl _)).use .link rfl

theorem vectorUnmask_exec :
    (∀ v m, exec (.vectorUnmask (.vector v m)) s = .next (State.sendPending { s with host := { s.host with
      unmasked := if m then s.host.unmasked.filter (fun x => x != v) else s.host.unmasked.filter (fun x => x != v) ++ [v] } }).endStep) ∧
    (∀ e, exec (.vectorUnmask (.msixEnable e)) s = .next (State.sendPending { s with link := { s.link with msixEn := e } }).endStep) ∧
    (∀ e, exec (.vectorUnmask (.busMaster e)) s = .next (State.sendPending { s with link := { s.link with busMaster := e } }).endStep) :=
  ⟨fun _ _ => congrArg done (if_neg (by simp [hon, hup])), fun _ => congrArg done (if_neg (by simp [hon, hup])),
    fun _ => congrArg done (if_neg (by simp [hon, hup]))⟩

theorem vectorUnmask_vector (v : Nat) :
    (∃ u, exec (.vectorUnmask (.vector v true)) s = .next u ∧ v ∉ u.host.unmasked) ∧
    ∃ u, exec (.vectorUnmask (.vector v false)) s = .next u ∧ v ∈ u.host.unmasked ∧
      (s.msixOpen = true → v ∈ s.host.pendVec → Output.msix v ∈ u.out ∧ v ∉ u.host.pendVec) := by
  obtain ⟨hvector, -, -⟩ := vectorUnmask_exec hon hup
  refine ⟨⟨_, hvector v true, ?_⟩, ⟨_, hvector v false, ?_, fun hopen hpend => ?_⟩⟩
  · show v ∉ (State.sendPending _).host.unmasked
    rw [sendPending_unmasked]
    simp
  · show v ∈ (State.sendPending _).host.unmasked
    rw [sendPending_unmasked]
    simp
  · exact sendPending_ok { s with host := { s.host with unmasked := _ } } v hopen hpend (by simp)

theorem laneMargining_exec (lane : Nat) (timing : Bool) (step : Int) (errors : Nat) :
    (s.link.gts = 32 ∧ lane < s.link.width ∧ step.natAbs ≤ (if timing then 16 else 32) →
      exec (.laneMargining lane timing step errors) s = .next (s.emit (.laneErrors lane (min errors 63))).endStep) ∧
    (¬(s.link.gts = 32 ∧ lane < s.link.width ∧ step.natAbs ≤ (if timing then 16 else 32)) →
      exec (.laneMargining lane timing step errors) s = .next s.endStep) := by
  have hcond : (!s.on || !s.linkUp || s.link.gts != 32 || decide (s.link.width ≤ lane) ||
      decide ((if timing then 16 else 32) < step.natAbs)) = true ↔
      ¬(s.link.gts = 32 ∧ lane < s.link.width ∧ step.natAbs ≤ (if timing then 16 else 32)) := by
    simp only [hon, hup, Bool.not_true, Bool.false_or, Bool.or_eq_true, bne_iff_ne, decide_eq_true_eq]
    omega
  exact ⟨fun h => congrArg done (if_neg (fun hc => hcond.mp hc h)), fun h => congrArg done (if_pos (hcond.mpr h))⟩

end

/-- Settles O49: each event moves the link from the states that allow it, and changes nothing in the others. -/
theorem linkEventsMoveTheLink : Obligations.LinkEventsMoveTheLink := by
  unfold Obligations.LinkEventsMoveTheLink
  intro s hc hon lost plain
  refine ⟨fun hperst => ⟨_, perstAssert_exec hon hperst, ?_⟩, fun hperst => congrArg done (if_pos (by simp [hperst])),
    fun hlive c hcm => ⟨_, (liveEvents_exec hon hlive).1 c hcm, takeDown_link s⟩, fun hdown c hcm => ?_, fun hlive => ?_,
    refclkLoss_down hon, fun hclk => congrArg done (if_pos (by simp [hclk])), perstDeassert_link hon, refclkRestored_link hon, ?_,
    ⟨_, congrArg done (if_neg (by simp [hon])), rfl⟩, ⟨_, congrArg done (if_neg (by simp [hon])), rfl⟩, fun hup => ?_, ?_⟩
  · rw [link_endStep]
    dsimp only
    rw [takeDown_link]
  · simp only [List.mem_cons, List.not_mem_nil, or_false] at hcm
    rcases hcm with rfl | rfl | rfl | rfl | rfl
    all_goals exact congrArg done (if_pos (by simp [hdown]))
  · obtain ⟨-, hflr, hentry, hreturn⟩ := liveEvents_exec hon hlive
    refine ⟨⟨_, hflr, resetFunction_plain s⟩, fun hd0 => ⟨⟨_, hentry hd0, ?_⟩, congrArg done (if_pos (by simp [hd0]))⟩,
      fun hd3 => ⟨⟨_, hreturn hd3, resetFunction_plain s⟩, congrArg done (if_pos (by simp [hd3]))⟩⟩
    rw [link_endStep]
    dsimp only
    rw [resetFunction_plain s]
  · intro width gts up
    obtain ⟨htrained, huntrained⟩ := linkL0Reached_exec hon width gts
    obtain ⟨hrecovered, hother⟩ := linkRecoveryExit_exec hon width gts
    exact ⟨htrained, huntrained, hrecovered, hother⟩
  · obtain ⟨-, hmsix, hmaster⟩ := vectorUnmask_exec hon hup
    exact ⟨⟨_, congrArg done (if_neg (by simp [hon, hup])), rfl⟩, dvsecCacheEnable_link hon hup,
      fun on n => ⟨_, congrArg done (if_neg (by simp [hon, hup])), rfl⟩,
      fun on => ⟨_, congrArg done (if_neg (by simp [hon, hup])), rfl⟩, vectorUnmask_vector hon hup,
      fun e => ⟨⟨_, hmaster e, (link_endStep _).trans (sendPending_link _)⟩, ⟨_, hmsix e, (link_endStep _).trans (sendPending_link _)⟩⟩, laneMargining_exec hon hup⟩
  · intro hdown on dec w lane timing step errors c hcm
    simp only [List.mem_cons, List.not_mem_nil, or_false] at hcm
    rcases hcm with rfl | rfl | rfl | rfl | rfl
    all_goals exact congrArg done (if_pos (by simp [hdown]))

end Sys2Proof.Machine

/-! PROOFS. The ports of the fabric and its discovery. -/
namespace Sys2Proof.Machine
open Sys2Proof

/-! ## The state of a port -/

theorem setPortState_ports (s : State) (p : Nat) (st : PortState) : (s.setPortState p st).fab.ports =
    Sparse.put (fun _ => Port.init) s.fab.ports p { s.port p with state := st, since := s.clk.now } := rfl

theorem setPortState_port (s : State) (p : Nat) {st : PortState} (h : st ≠ .disabled) :
    (s.setPortState p st).port p = { s.port p with state := st, since := s.clk.now } :=
  port_put s p _ (fun e => h (congrArg Port.state e))

theorem port_of {s t : State} (h : t.fab.ports = s.fab.ports) (p : Nat) : t.port p = s.port p := by unfold State.port; rw [h]

theorem moveFlows_ports (s : State) : s.moveFlows.fab.ports = s.fab.ports := (moveFlows_sameFab s).ports

theorem fld_moveFlows (s : State) (w : Win) (i off msb lsb : Nat) : s.moveFlows.fld w i off msb lsb = s.fld w i off msb lsb :=
  fld_of (moveFlows_sameFab s).reg w i off msb lsb

/-- Reporting an event of the fabric leaves the fabric in service. -/
theorem fabLive_raise (s : State) (b : Nat) : (s.raise .fab 0 0x080 b).fabLive = s.fabLive := by
  unfold State.fabLive State.fld
  rw [raise_other s .fab 0 0x080 b (by decide)]
  rw [show (s.raise .fab 0 0x080 b).integ = s.integ from (State.raise_only (.refl _) (.refl s) .fab 0 0x080 b).use .integ rfl]

section
variable {s : State} {p : Nat} (hc : s.Canon)
include hc

theorem portEnable_parts (hserved : s.served = true) : ∃ u, exec (.portEnable p) s = .next u ∧
    u.fab.ports = (if (s.port p).state = .disabled then
      Sparse.put (fun _ => Port.init) s.fab.ports p { s.port p with state := .training, since := s.clk.now } else s.fab.ports) ∧
    u.fld .fab 0 (0x040 + 4 * p) 0 0 = 1 := by
  refine ⟨_, congrArg done (if_neg (by simp [hserved])), ?_⟩
  dsimp only
  have hfld := fld_fldPut hc .fab 0 (0x040 + 4 * p) 1 (Nat.le_refl 0) (by decide)
  by_cases h : (s.port p).state = .disabled
  · rw [if_pos h, if_pos (show ((s.fldPut .fab 0 (0x040 + 4 * p) 0 0 1).port p).state = .disabled from h)]
    exact ⟨rfl, hfld⟩
  · rw [if_neg h, if_neg (show ¬((s.fldPut .fab 0 (0x040 + 4 * p) 0 0 1).port p).state = .disabled from h)]
    exact ⟨rfl, hfld⟩

theorem portDisable_parts (hserved : s.served = true) : ∃ u, exec (.portDisable p) s = .next u ∧
    u.fab.ports = Sparse.put (fun _ => Port.init) s.fab.ports p { s.port p with state := .disabled, since := s.clk.now } ∧
    u.fld .fab 0 (0x040 + 4 * p) 0 0 = 0 := by
  refine ⟨_, congrArg done (if_neg (by simp [hserved])), ?_, ?_⟩
  · rw [fab_endStep, moveFlows_ports]
    rfl
  · show (State.moveFlows _).fld _ _ _ _ _ = _
    rw [fld_moveFlows]
    exact fld_fldPut hc .fab 0 (0x040 + 4 * p) 0 (Nat.le_refl 0) (by decide)

theorem portTrainingComplete_parts (hon : s.on = true) (htraining : (s.port p).state = .training) :
    ∃ u, exec (.portTrainingComplete p) s = .next u ∧ u.port p =
        { s.port p with state := .up, since := s.clk.now, toldAt := if s.fabLive then s.clk.now else (s.port p).toldAt } ∧
      (u.regGet .fab 0 0x080).testBit 1 = true ∧
      (s.fabLive = true → Output.frame p 3 0 broadcastId false false 0 0 0 0 0 0 0 0 [] ∈ u.out) := by
  refine ⟨_, congrArg done (if_neg (by simp [hon, htraining])), ?_⟩
  generalize hs1 : (s.setPortState p .up).raise .fab 0 0x080 1 = s1
  have hport : s1.port p = { s.port p with state := .up, since := s.clk.now } := by
    rw [← hs1, port_of (congrArg Fab.ports (raise_fab _ _ _ _ _))]
    exact setPortState_port s p (by decide)
  have hbit : (s1.regGet .fab 0 0x080).testBit 1 = true := by
    rw [← hs1]
    exact raise_bit (canon_fab hc _) .fab 0 0x080 1 (by decide)
  have hlive : s1.fabLive = s.fabLive := by
    rw [← hs1, fabLive_raise]
    rfl
  have hclk : s1.clk = s.clk := by
    rw [← hs1]
    exact (State.raise_only (.refl _) (.refl _) .fab 0 0x080 1).use .clk rfl
  have hflows := moveFlows_sameFab (s1.sendDiscover p)
  show (State.moveFlows _).port p = _ ∧ ((State.moveFlows _).regGet _ _ _).testBit 1 = true ∧ (_ → _ ∈ (State.moveFlows _).out)
  rw [port_of hflows.ports, regGet_of_reg hflows.reg]
  cases hf : s.fabLive with
  | true =>
    have hsent := sendDiscover_live s1 p (by rw [hport]) (hlive.trans hf)
    refine ⟨?_, ?_, fun _ => hflows.out.subset ?_⟩
    · rw [hsent]
      refine (port_put s1 p { s1.port p with toldAt := s1.clk.now } (fun e => by simpa [hport, Port.init] using congrArg Port.state e)).trans ?_
      rw [hport, hclk]
      rfl
    · rw [hsent]; exact hbit
    · rw [hsent]; exact List.mem_append_right _ (List.mem_singleton.mpr rfl)
  | false =>
    rw [sendDiscover_dead s1 p (.inr (hlive.trans hf))]
    exact ⟨hport, hbit, fun h => nomatch h⟩

theorem portFault_parts (hon : s.on = true) (hup : (s.port p).state = .up) : ∃ u, exec (.portFault p) s = .next u ∧
    u.port p = { s.port p with state := .holddown, flaps := satAdd 8 (s.port p).flaps 1, since := s.clk.now } ∧
    (u.regGet .fab 0 0x080).testBit 2 = true := by
  refine ⟨_, congrArg done (if_neg (by simp [hon, hup])), ?_⟩
  generalize hs0 : s.setPort p { s.port p with flaps := satAdd 8 (s.port p).flaps 1 } = s0
  have hport0 : s0.port p = { s.port p with flaps := satAdd 8 (s.port p).flaps 1 } := by
    rw [← hs0]
    exact port_put s p _ (fun e => by simpa [hup, Port.init] using congrArg Port.state e)
  have hclk : s0.clk = s.clk := by rw [← hs0]; rfl
  have hc0 : s0.Canon := by rw [← hs0]; exact canon_fab hc _
  have hflows := moveFlows_sameFab ((s0.setPortState p .holddown).raise .fab 0 0x080 2)
  refine ⟨?_, ?_⟩
  · show (State.moveFlows _).port p = _
    rw [port_of hflows.ports, port_of (congrArg Fab.ports (raise_fab _ _ _ _ _)), setPortState_port s0 p (by decide), hport0, hclk]
  · show ((State.moveFlows _).regGet _ _ _).testBit 2 = true
    rw [regGet_of_reg hflows.reg]
    exact raise_bit (canon_fab hc0 _) .fab 0 0x080 2 (by decide)

end

theorem discoverSend_sends {s : State} {p : Nat} (hon : s.on = true) (hup : (s.port p).state = .up) (hlive : s.fabLive = true)
    (hdue : s.passed (s.port p).toldAt secCycles = true) : ∃ u, exec (.discoverSend p) s = .next u ∧
      u.out = s.out ++ [.frame p 3 0 broadcastId false false 0 0 0 0 0 0 0 0 []] ∧ (u.port p).toldAt = s.clk.now := by
  have hsent := sendDiscover_live s p hup hlive
  refine ⟨_, (congrArg done (if_neg (by simp [hon, hdue]))).trans (congrArg done hsent), rfl, ?_⟩
  exact congrArg Port.toldAt (port_put s p { s.port p with toldAt := s.clk.now }
    (fun e => by simpa [hup, Port.init] using congrArg Port.state e))

theorem discoverSend_waits {s : State} {p : Nat} (h : (s.port p).state ≠ .up ∨ s.fabLive = false ∨ s.passed (s.port p).toldAt secCycles = false) :
    exec (.discoverSend p) s = .next s.endStep := by
  refine congrArg done ?_
  split
  · rfl
  case isFalse hgo =>
    refine sendDiscover_dead s p ?_
    rcases h with h | h | h
    · exact .inl h
    · exact .inr h
    · exact absurd (by simp [h]) hgo

/-! ## Frames of discovery -/

section
variable {s : State} {p : Nat} (htakes : s.takes p = true)
include htakes

theorem discover_exec (f : Frame) :
    (s.frameOk f 3 = true → ∃ u, exec (.discover p f) s = .next u ∧
      u.out = s.out ++ [.frame p 4 0 f.src false false 0 0 0 0 0 0 0 0 (leBytes 4 s.upMask)]) ∧
    (s.frameOk f 3 = false → exec (.discover p f) s = .next s.discard.endStep) :=
  ⟨fun h => ⟨_, congrArg done ((if_neg (by simp [htakes])).trans (if_neg (by simp [h]))), rfl⟩,
    fun h => congrArg done ((if_neg (by simp [htakes])).trans (if_pos (by simp [h])))⟩

theorem discoverReply_discards {mac : Nat} {f : Frame} (hnew : mac ∉ s.fab.conflicts)
    (hbad : s.frameOk f 4 = false ∨ f.payload.length ≠ 4) : exec (.discoverReply p mac f) s = .next s.discard.endStep :=
  congrArg done ((if_neg (by simp [htakes, hnew])).trans (if_pos (by rcases hbad with h | h <;> simp [h])))

theorem discoverReply_exec {mac : Nat} {f : Frame} (hnew : mac ∉ s.fab.conflicts) (hok : s.frameOk f 4 = true) (hlen : f.payload.length = 4) :
    (f.src ≠ s.fab.moduleId → ∃ u, exec (.discoverReply p mac f) s = .next u ∧
      u.fab.replies = s.fab.replies.filter (fun r => !(r.1 == f.src && r.2.1 == p)) ++ [(f.src, p, s.clk.now)]) ∧
    (f.src = s.fab.moduleId → s.ownMac mac = true → exec (.discoverReply p mac f) s = .next s.discard.endStep) ∧
    (s.Canon → f.src = s.fab.moduleId → s.ownMac mac = false → ∃ u, exec (.discoverReply p mac f) s = .next u ∧
      u.fab.conflicts = s.fab.conflicts ++ [mac] ∧ (u.regGet .fab 0 0x080).testBit 6 = true) := by
  have hgo : ∀ t : State, (if !s.takes p || s.fab.conflicts.contains mac then s
      else if !s.frameOk f 4 || f.payload.length != 4 then s.discard else t) = t := fun t =>
    (if_neg (by simp [htakes, hnew])).trans (if_neg (by simp [hok, hlen]))
  refine ⟨fun hsrc => ⟨_, congrArg done ((hgo _).trans (if_neg hsrc)), ?_⟩,
    fun hsrc hown => congrArg done ((hgo _).trans ((if_pos hsrc).trans (if_pos hown))),
    fun hc hsrc hown => ⟨_, congrArg done ((hgo _).trans ((if_pos hsrc).trans (if_neg (by simp [hown])))), ?_, ?_⟩⟩
  · exact (moveFlows_sameFab _).replies
  · rw [fab_endStep, raise_fab]
    rfl
  · exact raise_bit (canon_fab hc _) .fab 0 0x080 6 (by decide)

end

/-- Settles O50: a port follows its events from the states that allow them, and discovery answers, keeps and drops. -/
theorem portsAndPlanesFollowTheirEvents : Obligations.PortsAndPlanesFollowTheirEvents := by
  unfold Obligations.PortsAndPlanesFollowTheirEvents
  intro s p hc hon ports hello st
  refine ⟨fun hserved => ⟨portEnable_parts hc hserved, portDisable_parts hc hserved⟩,
    fun hno => ⟨congrArg done (if_pos (by simp [hno])), congrArg done (if_pos (by simp [hno]))⟩,
    portTrainingComplete_parts hc hon, fun h => congrArg done (if_pos (by simp [show (s.port p).state ≠ _ from h])),
    fun h hdue => ⟨_, congrArg done (if_neg (by simp [hon, show (s.port p).state = _ from h, hdue])), rfl⟩,
    fun h => congrArg done (if_pos ?_), portFault_parts hc hon,
    fun h => congrArg done (if_pos (by simp [show (s.port p).state ≠ _ from h])), discoverSend_sends hon, discoverSend_waits,
    fun h hdue => ⟨_, congrArg done (if_neg (by simp [hon, show (s.port p).state = _ from h, hdue])), rfl⟩,
    fun h => congrArg done (if_pos ?_), fun hno mac f c hcm => ?_, fun htakes => ?_, fun d => ?_⟩
  · rcases h with h | h
    · simp [show (s.port p).state ≠ _ from h]
    · simp [h]
  · rcases h with h | h
    · simp [show (s.port p).state ≠ _ from h]
    · simp [h]
  · simp only [List.mem_cons, List.not_mem_nil, or_false] at hcm
    rcases hcm with rfl | rfl | rfl
    all_goals exact congrArg done (if_pos (by simp [hno]))
  · refine ⟨⟨_, congrArg done (if_neg (by simp [htakes])), rfl⟩, discover_exec htakes, fun mac f => ⟨fun hold => ?_, fun hnew =>
      ⟨discoverReply_discards htakes hnew, fun hok hlen => ?_⟩⟩⟩
    · exact congrArg done (if_pos (by simp [hold]))
    · obtain ⟨hkept, hown, hconflict⟩ := discoverReply_exec htakes hnew hok hlen
      exact ⟨hkept, hown, hconflict hc⟩
  · exact ⟨_, congrArg done (if_neg (by simp [hon])), (moveFlows_sameFab _).replies⟩

end Sys2Proof.Machine

/-! PROOFS. Flows: an entry that the peer cache lists twice. -/
namespace Sys2Proof.Machine
open Sys2Proof

/-- The entry of module 5, VL 0: nothing but an acknowledgement owed. -/
def owingPeer : Peer := { Peer.init with ackOwed := true }

/-- The reset state with the fabric in service, port 0 UP with a route to module 5, and the entry of module 5 listed twice. -/
def twiceState : State :=
  let s := State.reset.regPut .fab 0 0x000 1
  { s with fab := { s.fab with
      ports := [(0, { Port.init with state := .up })]
      replies := [(5, 0, 0)]
      peers := [(peerIx 5 0, owingPeer), (peerIx 5 0, { Peer.init with expect := 7 })] } }

/-- The number that the acknowledgement frames which leave name as expected. -/
def expectedIn (os : List Output) : List (BitVec 32) :=
  os.filterMap (fun o => match o with
    | .frame _ _ _ _ _ _ _ e _ _ _ _ _ _ _ => some e
    | _ => none)

/-- What the acknowledgement that leaves for module 5 names as expected. -/
def expectedAfter : Option (List (BitVec 32)) :=
  match exec (.ackDue 5 0) twiceState with
  | .next t => some (expectedIn t.out)
  | _ => none

/-- Refutes O51: nothing says that the peer cache is in canonical form, and where an entry is listed twice, clearing what the first
owes uncovers the second, whose number the acknowledgement names. -/
theorem not_flowsDeliverAcknowledgeAndRetry : ¬ Obligations.FlowsDeliverAcknowledgeAndRetry := by
  unfold Obligations.FlowsDeliverAcknowledgeAndRetry
  rintro ⟨-, timers⟩
  obtain ⟨due, -⟩ := timers twiceState 5 0 (by decide)
  obtain ⟨t, c, hexec, hout⟩ := due 0 (by decide) (by decide) (by decide)
  have hfirst : expectedAfter = some [0] := by
    unfold expectedAfter
    rw [hexec]
    simp only [hout]
    rfl
  have hsecond : expectedAfter = some [7] := by decide +kernel
  rw [hsecond] at hfirst
  exact absurd hfirst (by decide)

end Sys2Proof.Machine

/-! PROOFS. Messages (13 R408 to R413): each row acts on the oldest message of its flow, refuses it, serves it or consumes it. -/
namespace Sys2Proof.Machine
open Sys2Proof

/-! ## What every row does with its message -/

theorem message_ignored {s : State} {m v ty : Nat} (hno : s.msgOf m v ty = none) {c : Nat × Instr}
    (hc : c ∈ [(0, Instr.request m v), (1, .response m v), (2, .gather m v), (3, .partials m v), (4, .update m v),
      (5, .updateAck m v), (6, .refuse m v)]) (hty : c.1 = ty) : exec c.2 s = .next s.endStep := by
  subst hty
  simp only [List.mem_cons, List.not_mem_nil, or_false] at hc
  rcases hc with rfl | rfl | rfl | rfl | rfl | rfl | rfl
  · show execRequest m v s = _
    unfold execRequest; rw [hno]; rfl
  · show execResponse m v s = _
    unfold execResponse; rw [hno]; rfl
  · show execGather m v s = _
    unfold execGather; rw [hno]; rfl
  · show execPartials m v s = _
    unfold execPartials; rw [hno]; rfl
  · show execUpdate m v s = _
    unfold execUpdate; rw [hno]; rfl
  · show execUpdateAck m v s = _
    unfold execUpdateAck; rw [hno]; rfl
  · show execRefuse m v s = _
    unfold execRefuse; rw [hno]; rfl

/-- The state once the oldest message of a flow is consumed, with the answers that are still awaited. -/
def State.afterMsg (s : State) (rest : List Msg) (as : List Await) : State :=
  { s with fab := { s.fab with inbox := rest, awaits := as } }

section
variable {s : State} {m v : Nat} {x : Msg} {rest : List Msg}

theorem Front.refused (hf : Front s m v x rest) (hc : s.Canon) {c : Instr} {r : Nat} (hx : exec c s = done (s.refuseIt x r)) :
    ∃ u, exec c s = .next u ∧ (u.regGet .fab 0 0x080).testBit 5 = true ∧ u.fab.inbox = rest ∧
      u.fab.drops = (s.fab.drops.1, satAdd 16 s.fab.drops.2 1) :=
  ⟨_, hx, hf.refuse hc r⟩

theorem Front.consume_awaits (hf : Front s m v x rest) (as : List Await) :
    State.consumeMsg { s with fab := { s.fab with awaits := as } } m v = s.afterMsg rest as :=
  Front.consume (s := { s with fab := { s.fab with awaits := as } }) ⟨hf.take⟩

/-! ## REQUEST -/

theorem request_refused (hx : s.msgOf m v 0 = some x)
    (hbad : requestBad x.payload = true ∨ 4096 ≤ leField x.payload 0 2 ∨ s.sourceOk (leField x.payload 0 2) m = false) :
    ∃ r, exec (.request m v) s = done (s.refuseIt x r) := by
  show ∃ r, execRequest m v s = _
  unfold execRequest
  rw [hx]
  dsimp only
  by_cases h : requestBad x.payload = true
  · exact ⟨5, by rw [if_pos h]⟩
  · exact ⟨1, by rw [if_neg h, if_pos (hbad.resolve_left h)]⟩

theorem request_slots (hx : s.msgOf m v 0 = some x) (hgood : requestBad x.payload = false) (hlt : leField x.payload 0 2 < 4096)
    (hsrc : s.sourceOk (leField x.payload 0 2) m = true) :
    (s.unitTest 1 = true → exec (.request m v) s = done s) ∧
    (s.unitTest 1 = false → requestSlots 1024 (x.payload.drop 8) = none → exec (.request m v) s = done (s.refuseIt x 5)) ∧
    (∀ l, s.unitTest 1 = false → requestSlots 1024 (x.payload.drop 8) = some l →
      exec (.request m v) s = done (s.readSlots x (leField x.payload 0 2) l)) := by
  show (_ → execRequest m v s = _) ∧ (_ → _ → execRequest m v s = _) ∧ (∀ l, _ → _ → execRequest m v s = _)
  unfold execRequest
  rw [hx]
  dsimp only
  rw [if_neg (by simp [hgood]), if_neg (by simp [hsrc, hlt])]
  refine ⟨fun htest => ?_, fun htest hnone => ?_, fun l htest hl => ?_⟩
  · rw [if_pos htest]
  · rw [if_neg (by simp [htest]), hnone]
  · rw [if_neg (by simp [htest]), hl]

/-- A REQUEST that is not malformed holds at least one slot. -/
theorem requestSlots_cons {p : List Byte} (hgood : requestBad p = false) {l : List (List Byte × List Byte)}
    (hl : requestSlots 1024 (p.drop 8) = some l) : ∃ y t, l = y :: t := by
  cases hp : p.drop 8 with
  | nil =>
    have hlen : p.length ≤ 8 := List.drop_eq_nil_iff.mp hp
    simp only [requestBad, Bool.or_eq_false_iff, beq_eq_false_iff_ne, bne_eq_false_iff_eq] at hgood
    obtain ⟨⟨⟨hn, -⟩, -⟩, hlong⟩ := hgood
    omega
  | cons b t =>
    rw [hp, requestSlots] at hl
    split at hl
    · cases hl
    · obtain ⟨r, -, rfl⟩ := Option.map_eq_some_iff.mp hl
      exact ⟨_, _, rfl⟩

theorem Front.keep (hf : Front s m v x rest) (left : List Byte) :
    s.keepMsg m v left = { s with fab := { s.fab with inbox := { x with payload := left } :: rest } } := by
  unfold State.keepMsg
  rw [hf.take]

/-- Slots without room stay in their message. -/
theorem Front.readSlots_full (hf : Front s m v x rest) (c : Nat) (hfull : s.slotRoom c = false) (y : List Byte × List Byte)
    (t : List (List Byte × List Byte)) : ∃ left, s.readSlots x c (y :: t) =
      { s with fab := { s.fab with inbox := { x with payload := left } :: rest } } := by
  obtain ⟨left, hleft⟩ : ∃ left, s.readSlots x c (y :: t) = s.keepMsg x.peer x.vl left := ⟨_, if_neg (by simp [hfull])⟩
  exact ⟨left, hleft.trans ((by rw [hf.ids.1, hf.ids.2] : _ = s.keepMsg m v left).trans (hf.keep left))⟩

/-- The one slot of a message that has room is accepted, and the message consumed. -/
theorem Front.readSlots_one (hf : Front s m v x rest) (c : Nat) (hroom : s.slotRoom c = true) (slot ext : List Byte) :
    ∃ o, s.readSlots x c [(slot, ext)] = (s.acceptSlot c slot ext o).consumeMsg m v :=
  ⟨_, (if_pos hroom).trans (by rw [State.readSlots, hf.ids.1, hf.ids.2])⟩

/-! ## RESPONSE, GATHER and UPDATE -/

theorem response_branches (hx : s.msgOf m v 1 = some x) :
    let p := x.payload
    let bad := p.length < 16 ∨ p.length ≠ 16 + 32 * leField p 2 2 + leField p 12 4
    (bad → exec (.response m v) s = done (s.refuseIt x 5)) ∧ (¬bad → exec (.response m v) s = done (s.consumeMsg m v)) := by
  have hstart : exec (.response m v) s = done (if x.payload.length < 16 ∨
      x.payload.length ≠ 16 + 32 * leField x.payload 2 2 + leField x.payload 12 4 then s.refuseIt x 5 else s.consumeMsg m v) := by
    show execResponse m v s = _
    unfold execResponse
    rw [hx]
  exact ⟨fun h => hstart.trans (congrArg done (if_pos h)), fun h => hstart.trans (congrArg done (if_neg h))⟩

theorem gather_refused (hx : s.msgOf m v 2 = some x)
    (hbad : gatherMsgBad x.payload = true ∨ s.tableTagged (leField x.payload 0 4) = none) :
    ∃ r, exec (.gather m v) s = done (s.refuseIt x r) := by
  show ∃ r, execGather m v s = _
  unfold execGather
  rw [hx]
  dsimp only
  by_cases h : gatherMsgBad x.payload = true
  · exact ⟨5, by rw [if_pos h]⟩
  · exact ⟨2, by rw [if_neg h, hbad.resolve_left h]⟩

theorem gather_served (hx : s.msgOf m v 2 = some x) (hgood : gatherMsgBad x.payload = false) {y : Nat × Obj × TableDesc}
    (ht : s.tableTagged (leField x.payload 0 4) = some y) :
    ((s.ctxFree s.fab.gatherChan = false ∨ s.unitTest 1 = true) → exec (.gather m v) s = done s) ∧
    (s.ctxFree s.fab.gatherChan = true → s.unitTest 1 = false → ∃ budget h,
      exec (.gather m v) s = done (s.enterServe x s.fab.gatherChan 0x28 budget h)) := by
  obtain ⟨h, o, t⟩ := y
  have hstart : exec (.gather m v) s = done (if !s.ctxFree s.fab.gatherChan || s.unitTest 1 then s
      else s.enterServe x s.fab.gatherChan 0x28 (s.serveBudget s.fab.gatherChan (leField x.payload 12 4) (rowLen o.fmt t.elems)
        (leField x.payload 8 2 * 4 * t.elems) 0) h) := by
    show execGather m v s = _
    unfold execGather
    rw [hx]
    dsimp only
    rw [if_neg (by simp [hgood]), ht]
  exact ⟨fun hno => hstart.trans (congrArg done (if_pos (by simpa using hno))),
    fun hctx htest => ⟨_, h, hstart.trans (congrArg done (if_neg (by simp [hctx, htest])))⟩⟩

theorem update_refused (hx : s.msgOf m v 4 = some x)
    (hbad : updateMsgBad x.payload = true ∨ s.tableTagged (leField x.payload 0 4) = none) :
    ∃ r, exec (.update m v) s = done (s.refuseIt x r) := by
  show ∃ r, execUpdate m v s = _
  unfold execUpdate
  rw [hx]
  dsimp only
  by_cases h : updateMsgBad x.payload = true
  · exact ⟨5, by rw [if_pos h]⟩
  · exact ⟨2, by rw [if_neg h, hbad.resolve_left h]⟩

theorem update_served (hx : s.msgOf m v 4 = some x) (hgood : updateMsgBad x.payload = false) {h : Nat} {o : Obj} {t : TableDesc}
    (ht : s.tableTagged (leField x.payload 0 4) = some (h, o, t)) :
    let p := x.payload
    let fits : Bool := tableTakes t (opBits p 4 1 3 0) && leField p 6 2 == rowLen (leField p 5 1) t.elems
    (fits = false → exec (.update m v) s = done (s.refuseIt x 5)) ∧
    (fits = true → (s.ctxFree s.fab.updateChan = false ∨ s.unitTest 1 = true) → exec (.update m v) s = done s) ∧
    (fits = true → s.ctxFree s.fab.updateChan = true → s.unitTest 1 = false → ∃ budget h,
      exec (.update m v) s = done (s.enterServe x s.fab.updateChan 0x29 budget h)) := by
  intro p fits
  have hstart : exec (.update m v) s = done (if fits = false then s.refuseIt x 5
      else if !s.ctxFree s.fab.updateChan || s.unitTest 1 then s else s.enterServe x s.fab.updateChan 0x29
        (s.serveBudget s.fab.updateChan (umCount p) (2 * rowLen o.fmt t.elems + leField p 6 2 + t.stateLen)
          (umCount p * rowLen o.fmt t.elems) (umCount p * ceilDiv t.elems 256 * 4)) h) := by
    show execUpdate m v s = _
    unfold execUpdate
    rw [hx]
    dsimp only
    rw [if_neg (by simp [hgood]), ht]
    dsimp only
    rw [show (!tableTakes t (opBits x.payload 4 1 3 0) || leField x.payload 6 2 != rowLen (leField x.payload 5 1) t.elems) = !fits from
      (Bool.not_and _ _).symm]
    cases fits <;> rfl
  exact ⟨fun hf => hstart.trans (congrArg done (if_pos hf)),
    fun hf hno => hstart.trans (congrArg done ((if_neg (by simp [hf])).trans (if_pos (by simpa using hno)))),
    fun hf hctx htest => ⟨_, h, hstart.trans (congrArg done ((if_neg (by simp [hf])).trans (if_neg (by simp [hctx, htest]))))⟩⟩

/-! ## PARTIALS -/

theorem partials_unawaited (hx : s.msgOf m v 3 = some x)
    (hno : s.awaitOf (fun a => a.peer == m && a.vl == v && a.msgType == 2) = none) :
    exec (.partials m v) s = done (s.consumeMsg m v) := by
  show execPartials m v s = _
  unfold execPartials
  rw [hx]
  dsimp only
  rw [hno]

theorem partials_late (hx : s.msgOf m v 3 = some x) {a : Await} {as : List Await}
    (ha : s.awaitOf (fun a => a.peer == m && a.vl == v && a.msgType == 2) = some (a, as))
    (hlate : s.cmd? a.cmd = none ∨ ∃ d, s.cmd? a.cmd = some d ∧ d.res = none) :
    exec (.partials m v) s = done (State.consumeMsg { s with fab := { s.fab with awaits := as } } m v) := by
  show execPartials m v s = _
  unfold execPartials
  rw [hx]
  dsimp only
  rw [ha]
  dsimp only
  rcases hlate with h | ⟨d, h, hres⟩
  · rw [h]
  · rw [h]
    dsimp only
    rw [hres]

theorem partials_join (hx : s.msgOf m v 3 = some x) {a : Await} {as : List Await}
    (ha : s.awaitOf (fun a => a.peer == m && a.vl == v && a.msgType == 2) = some (a, as)) {d : Cmd} (hd : s.cmd? a.cmd = some d)
    {r : Resolution} (hr : d.res = some r) :
    (s.partialsOk x.payload m d r = false → exec (.partials m v) s = done (s.refuseIt x 5)) ∧
    (s.partialsOk x.payload m d r = true → exec (.partials m v) s = done
      ((((State.consumeMsg { s with fab := { s.fab with awaits := as } } m v).setCmd { d with res := some { r with
        partials := r.partials ++ [(m, x.payload)], awaitPeers := r.awaitPeers.filter (fun y => y.1 != m) } }).chargeBytes
          d.chan 12 x.payload.length).settleRes d.id)) := by
  have hstart : exec (.partials m v) s = done (if !s.partialsOk x.payload m d r then s.refuseIt x 5 else
      (((State.consumeMsg { s with fab := { s.fab with awaits := as } } m v).setCmd { d with res := some { r with
        partials := r.partials ++ [(m, x.payload)], awaitPeers := r.awaitPeers.filter (fun y => y.1 != m) } }).chargeBytes
          d.chan 12 x.payload.length).settleRes d.id) := by
    show execPartials m v s = _
    unfold execPartials
    rw [hx]
    dsimp only
    rw [ha]
    dsimp only
    rw [hd]
    dsimp only
    rw [hr]
  exact ⟨fun h => hstart.trans (congrArg done (if_pos (by simp [h]))), fun h => hstart.trans (congrArg done (if_neg (by simp [h])))⟩

/-- Settling a resolution keeps its partials and the owners that it asks. -/
theorem settleRes_res {t : State} {i : Nat} {d : Cmd} {r : Resolution} (hd : t.cmd? i = some d) (hr : d.res = some r) :
    ∃ e q, (t.settleRes i).cmd? i = some e ∧ e.res = some q ∧ q.partials = r.partials ∧ q.awaitPeers = r.awaitPeers := by
  have hid : d.id = i := by simpa using List.find?_some hd
  unfold State.settleRes
  rw [hd]
  dsimp only
  rw [hr]
  split
  · next q h _ =>
    cases h
    exact ⟨_, _, (cmd?_setCmd _ _ _).trans ((congrArg (Option.map _) hd).trans (congrArg some (if_pos rfl))), rfl, rfl, rfl⟩
  · exact ⟨d, r, hd, hr, rfl, rfl⟩

/-! ## UPDATE_ACK -/

theorem settleAcks_waits {t : State} {i : Nat}
    (h : ∀ d st b c, t.cmd? i = some d → d.phase = .acks st b c → t.unacked i = true) : t.settleAcks i = t := by
  unfold State.settleAcks
  split
  · rfl
  · next d hd =>
    split
    · next st a b hphase => exact if_pos (h d st a b hd hphase)
    · rfl

theorem tidy_recordsIn {t u : State} {d : Cmd} {status a b : Nat} (h : t.RecordsIn d u status a b) :
    t.RecordsIn d u.tidy.endStep status a b := by
  have hout : u.out <+: u.tidy.out := (State.tidy_keeps (.refl u)).out
  generalize u.tidy = w at *
  exact RecordsIn.of_prefix h hout

theorem settleAcks_ends {t : State} {i : Nat} {d : Cmd} {st b c : Nat} (hd : t.cmd? i = some d) (hphase : d.phase = .acks st b c)
    (hall : t.unacked i = false) :
    t.RecordsIn d (t.settleAcks i).endStep st b (if st = stRemoteFail then (t.extra i).acked else c) := by
  have hend : t.settleAcks i = (t.endCmd d st b (if st = stRemoteFail then (t.extra i).acked else c) false).tidy := by
    unfold State.settleAcks
    rw [hd]
    dsimp only
    rw [hphase]
    exact if_neg (by simp [hall])
  rw [hend]
  exact tidy_recordsIn (endCmd_recordsIn t d st b _)

theorem updateAck_malformed (hx : s.msgOf m v 5 = some x) (hlen : x.payload.length ≠ 4) :
    exec (.updateAck m v) s = done (s.refuseIt x 5) := by
  show execUpdateAck m v s = _
  unfold execUpdateAck
  rw [hx]
  exact congrArg done (if_pos hlen)

/-- The awaited message that an UPDATE_ACK answers. -/
def State.ackedAwait (s : State) (m : Nat) (p : List Byte) : Option (Await × List Await) :=
  s.awaitOf (fun a => a.peer == m && a.msgType == 4 && a.msgId.toNat == leField p 0 4)

/-- An UPDATE_ACK counted for the command that awaited it. -/
def State.countAck (s : State) (c : Nat) : State := s.setExtra { s.extra c with acked := (s.extra c).acked + 1 }

theorem Front.updateAck_counts (hf : Front s m v x rest) (hx : s.msgOf m v 5 = some x) (hlen : x.payload.length = 4) :
    (s.ackedAwait m x.payload = none → exec (.updateAck m v) s = done (s.consumeMsg m v)) ∧
    (∀ a as, s.ackedAwait m x.payload = some (a, as) →
      exec (.updateAck m v) s = done (((s.afterMsg rest as).countAck a.cmd).settleAcks a.cmd)) := by
  have hwait : (s.consumeMsg m v).ackedAwait m x.payload = s.ackedAwait m x.payload := by
    rw [hf.consume]; rfl
  show (_ → execUpdateAck m v s = _) ∧ (∀ a as, _ → execUpdateAck m v s = _)
  unfold execUpdateAck
  rw [hx]
  dsimp only
  rw [if_neg (Classical.not_not.mpr hlen)]
  rw [← hwait]
  unfold State.ackedAwait
  refine ⟨fun h => by rw [h], fun a as h => ?_⟩
  rw [h, hf.consume]
  rfl

/-! ## REFUSE -/

theorem refuse_malformed (hx : s.msgOf m v 6 = some x) (hlen : x.payload.length ≠ 8) :
    exec (.refuse m v) s = done (s.refuseIt x 5) := by
  show execRefuse m v s = _
  unfold execRefuse
  rw [hx]
  exact congrArg done (if_pos hlen)

/-- The state once a REFUSE is reported. -/
def State.reported (s : State) (rest : List Msg) : State := State.raise { s with fab := { s.fab with inbox := rest } } .fab 0 0x080 5

/-- The state once no answer to the refused message is awaited any more. -/
def State.unawaited (s : State) (m id : Nat) : State :=
  { s with fab := { s.fab with awaits := s.fab.awaits.filter (fun a => !(a.peer == m && a.msgId.toNat == id)) } }

theorem reported_refusedCmd (s : State) (rest : List Msg) (m id : Nat) : (s.reported rest).refusedCmd m id = s.refusedCmd m id := by
  unfold State.refusedCmd State.reported
  rw [raise_fab]

theorem unawaited_cmd (s : State) (rest : List Msg) (m id c : Nat) : ((s.reported rest).unawaited m id).cmd? c = s.cmd? c :=
  cmd?_of_cmds (congrArg Gfe.cmds (raise_gfe _ _ _ _ _)) c

theorem unawaited_event (hc : s.Canon) (rest : List Msg) (m id : Nat) :
    (((s.reported rest).unawaited m id).regGet .fab 0 0x080).testBit 5 = true :=
  raise_bit (canon_fab hc _) .fab 0 0x080 5 (by decide)

theorem Front.refuse_ends (hf : Front s m v x rest) (hx : s.msgOf m v 6 = some x) (hlen : x.payload.length = 8) :
    (s.refusedCmd m (leField x.payload 4 4) = none → exec (.refuse m v) s = done (s.reported rest)) ∧
    (∀ c, s.refusedCmd m (leField x.payload 4 4) = some c →
      exec (.refuse m v) s = done (((s.reported rest).unawaited m (leField x.payload 4 4)).remoteEnds c m)) := by
  show (_ → execRefuse m v s = _) ∧ (∀ c, _ → execRefuse m v s = _)
  unfold execRefuse
  rw [hx]
  dsimp only
  rw [if_neg (Classical.not_not.mpr hlen), hf.consume]
  rw [← reported_refusedCmd s rest]
  refine ⟨fun h => ?_, fun c h => ?_⟩
  · unfold State.reported at *
    rw [h]
  · unfold State.reported at *
    rw [h]
    rfl

theorem remoteEnds_resolving {t : State} {c m : Nat} {d : Cmd} (hd : t.cmd? c = some d) (hphase : d.phase = .resolving) :
    ∃ n, n = (match d.res with | some r => r.partials.length | none => 0) ∧ t.remoteEnds c m = t.remoteFail d m n := by
  unfold State.remoteEnds
  rw [hd]
  dsimp only
  rw [hphase]
  cases d.res <;> exact ⟨_, rfl, rfl⟩

theorem remoteEnds_flush {t : State} {c m : Nat} {d : Cmd} (hd : t.cmd? c = some d) {k : Nat} {b : Bool} (hphase : d.phase = .flush k b) :
    t.remoteEnds c m = t.setCmd { d with phase := .acks stRemoteFail m 0 } := by
  unfold State.remoteEnds
  rw [hd]
  dsimp only
  rw [hphase]

theorem remoteEnds_acks {t : State} {c m : Nat} {d : Cmd} (hd : t.cmd? c = some d) {st a b : Nat} (hphase : d.phase = .acks st a b) :
    t.remoteEnds c m = (t.setCmd { d with phase := .acks stRemoteFail m 0 }).settleAcks c := by
  unfold State.remoteEnds
  rw [hd]
  dsimp only
  rw [hphase]

theorem remoteEnds_else {t : State} {c m : Nat}
    (h : ∀ d, t.cmd? c = some d → d.phase ≠ .resolving ∧ (∀ st a b, d.phase ≠ .acks st a b) ∧ ∀ k b, d.phase ≠ .flush k b) :
    t.remoteEnds c m = t := by
  unfold State.remoteEnds
  split
  · rfl
  · next d hd =>
    obtain ⟨hres, hacks, hflush⟩ := h d hd
    split
    · next hp => exact absurd hp hres
    · next hp => exact absurd hp (hacks _ _ _)
    · next hp => exact absurd hp (hflush _ _)
    · rfl

end

/-! ## The slots of a REQUEST -/

theorem acceptSlot_inbox (s : State) (c : Nat) (slot ext : List Byte) (o : Option Origin) (hgood : s.acceptBad c slot = none) :
    (s.acceptSlot c slot ext o).fab = s.fab := by
  unfold State.acceptSlot
  rw [hgood]
  dsimp -zeta only
  extract_lets +onlyGivenNames t
  have ht : t.fab = s.fab := by
    simp only [t]
    split
    · exact (State.closeCtx_only (.refl _) (.refl s) c).use .fab rfl
    · rfl
  clear_value t
  split
  · exact (raise_fab _ _ _ _ _).trans ht
  · exact ((State.enlist_only (ps := [.chans, .gfe]) (.refl _) (State.advance_only (within_of_all rfl) (.refl t) c slot) _ _ _ _ _).use .fab rfl).trans ht

theorem acceptSlot_waits_cmds (s : State) (c : Nat) (slot ext : List Byte) (o : Option Origin) (hgood : s.acceptBad c slot = none)
    (hctx : let q := if slotReqOpen slot then s.closeCtx c else s
      q.needsCtx c slot = true ∧ q.ctxFree c = false) : (s.acceptSlot c slot ext o).gfe.cmds = s.gfe.cmds := by
  unfold State.acceptSlot
  rw [hgood]
  dsimp -zeta only
  extract_lets +onlyGivenNames q
  rw [if_pos (by simp [q, hctx.1, hctx.2]), raise_gfe]
  show q.gfe.cmds = _
  simp only [q]
  split
  · exact closeCtx_cmds s c
  · rfl

/-- Consuming a message changes nothing but the inbox. -/
theorem consumeMsg_parts (t : State) (m v : Nat) :
    (t.consumeMsg m v).gfe = t.gfe ∧ (t.consumeMsg m v).chans = t.chans ∧ (t.consumeMsg m v).reg = t.reg := by
  unfold State.consumeMsg
  split <;> exact ⟨rfl, rfl, rfl⟩

theorem Front.consumed_inbox {s t : State} {m v : Nat} {x : Msg} {rest : List Msg} (hf : Front s m v x rest) (ht : t.fab = s.fab) :
    (t.consumeMsg m v).fab.inbox = rest := by
  rw [Front.consume (s := t) (x := x) ⟨by rw [ht]; exact hf.take⟩]

/-- The clauses of a REQUEST whose channel takes commands of its source. -/
theorem request_one {s : State} {m v : Nat} {x : Msg} {rest : List Msg} (hf : Front s m v x rest) (hc : s.Canon) {c : Nat}
    {slot ext : List Byte} (hroom : s.slotRoom c = true)
    (hx : exec (.request m v) s = done (s.readSlots x c [(slot, ext)])) :
    let q := if slotReqOpen slot then s.closeCtx c else s
    let ch := s.chan c
    (s.acceptBad c slot = none → (q.needsCtx c slot = false ∨ q.ctxFree c = true) →
      ∃ u e, exec (.request m v) s = .next u ∧ u.gfe.cmds = s.gfe.cmds ++ [e] ∧ e.chan = c ∧ e.slot = slot ∧
        e.payload = ext ∧ e.phase = .unissued ∧ u.fab.inbox = rest ∧
        (u.chan c).head = ch.head + BitVec.ofNat 32 (1 + slotExt slot) ∧ (u.chan c).expSeq = ch.expSeq + 1) ∧
    (s.acceptBad c slot = none → q.needsCtx c slot = true → q.ctxFree c = false →
      ∃ u w, exec (.request m v) s = .next u ∧ (u.chan c).ctxWait = some w ∧ w.slot = slot ∧ u.fab.inbox = rest ∧
        u.gfe.cmds = s.gfe.cmds ∧ (u.regGet .gfe c 0x22C).testBit 4 = true) ∧
    (∀ off, s.acceptBad c slot = some off → ∃ u, exec (.request m v) s = .next u ∧
      (u.chan c).head = ch.head + BitVec.ofNat 32 (1 + slotExt slot) ∧ (u.chan c).expSeq = ch.expSeq + 1) := by
  intro q ch
  obtain ⟨o, ho⟩ := hf.readSlots_one c hroom slot ext
  rw [ho] at hx
  obtain ⟨hgfe, hchans, hreg⟩ := consumeMsg_parts (s.acceptSlot c slot ext o) m v
  have hch := chan_of hchans c
  have hev := regGet_of_reg hreg .gfe c 0x22C
  refine ⟨fun hgood hctx => ?_, fun hgood hneeds hfull => ?_, fun off hbad => ?_⟩
  · obtain ⟨e, hcmds, hchan, hslot, hpay, hphase, -, hhead, hseq⟩ := acceptSlot_command hc c slot ext (o := o) hgood hctx
    have hinbox := hf.consumed_inbox (acceptSlot_inbox s c slot ext o hgood)
    rw [← hgfe] at hcmds
    rw [← hch] at hhead hseq
    generalize (s.acceptSlot c slot ext o).consumeMsg m v = t at *
    exact ⟨_, e, hx, hcmds, hchan, hslot, hpay, hphase, hinbox, hhead, hseq⟩
  · obtain ⟨w, hwait, hslot, -, -, hbit⟩ := acceptSlot_waits hc c slot ext (o := o) hgood ⟨hneeds, hfull⟩
    have hcmds := acceptSlot_waits_cmds s c slot ext o hgood ⟨hneeds, hfull⟩
    have hinbox := hf.consumed_inbox (acceptSlot_inbox s c slot ext o hgood)
    rw [← hgfe] at hcmds
    rw [← hch] at hwait
    rw [← hev] at hbit
    generalize (s.acceptSlot c slot ext o).consumeMsg m v = t at *
    exact ⟨_, w, hx, hwait, hslot, hinbox, hcmds, hbit⟩
  · obtain ⟨hhead, hseq⟩ := acceptSlot_range hc c slot ext (o := o) hbad
    rw [← hch] at hhead hseq
    generalize (s.acceptSlot c slot ext o).consumeMsg m v = t at *
    exact ⟨_, hx, hhead, hseq⟩

/-- Slots without room stay in their message. -/
theorem request_full {s : State} {m v : Nat} {x : Msg} {rest : List Msg} (hf : Front s m v x rest) {c : Nat}
    {l : List (List Byte × List Byte)} (hl : ∃ y t, l = y :: t) (hx : exec (.request m v) s = done (s.readSlots x c l)) :
    ∃ u, exec (.request m v) s = .next u ∧
      (s.slotRoom c = false → u.gfe = s.gfe ∧ ∃ left, u.fab.inbox = { x with payload := left } :: rest) := by
  obtain ⟨y, t, rfl⟩ := hl
  refine ⟨_, hx, fun hfull => ?_⟩
  obtain ⟨left, hleft⟩ := hf.readSlots_full c hfull y t
  rw [hleft]
  exact ⟨rfl, left, rfl⟩

/-- PARTIALS that fit join the resolution that waits for them. -/
theorem partials_joined {s : State} {m v : Nat} {x : Msg} {rest : List Msg} (hf : Front s m v x rest) {a : Await} {as : List Await}
    {d : Cmd} {r : Resolution} (hd : s.cmd? a.cmd = some d)
    (hx : exec (.partials m v) s = done
      ((((State.consumeMsg { s with fab := { s.fab with awaits := as } } m v).setCmd { d with res := some { r with
        partials := r.partials ++ [(m, x.payload)], awaitPeers := r.awaitPeers.filter (fun y => y.1 != m) } }).chargeBytes
          d.chan 12 x.payload.length).settleRes d.id)) :
    ∃ u e q, exec (.partials m v) s = .next u ∧ u.cmd? a.cmd = some e ∧ e.res = some q ∧ q.partials = r.partials ++ [(m, x.payload)] ∧
      q.awaitPeers = r.awaitPeers.filter (fun y => y.1 != m) ∧ u.fab.inbox = rest ∧ u.fab.awaits = as := by
  have hid : d.id = a.cmd := by simpa using List.find?_some hd
  rw [hf.consume_awaits] at hx
  rw [← hid] at hd ⊢
  generalize hw : ({ d with res := some { r with
    partials := r.partials ++ [(m, x.payload)], awaitPeers := r.awaitPeers.filter (fun y => y.1 != m) } } : Cmd) = w at hx
  generalize ht : (((s.afterMsg rest as).setCmd w).chargeBytes d.chan 12 x.payload.length) = t at hx
  have hcmd : t.cmd? d.id = some w := by
    rw [← ht]
    refine (cmd?_setCmd (s.afterMsg rest as) w d.id).trans ?_
    rw [show (s.afterMsg rest as).cmd? d.id = some d from hd]
    exact congrArg some (if_pos (by rw [← hw]))
  have hfab : (t.settleRes d.id).fab = (s.afterMsg rest as).fab := by
    refine ((State.settleRes_only (.refl _) (.refl t) d.id).use .fab rfl).trans ?_
    rw [← ht]
    rfl
  obtain ⟨e, q, he, hq, hpart, hpeers⟩ := settleRes_res hcmd (r := { r with
    partials := r.partials ++ [(m, x.payload)], awaitPeers := r.awaitPeers.filter (fun y => y.1 != m) }) (by rw [← hw])
  generalize t.settleRes d.id = u at *
  exact ⟨_, e, q, hx, he, hq, hpart, hpeers, congrArg Fab.inbox hfab, congrArg Fab.awaits hfab⟩

/-- How a REFUSE ends its command's wait, by its phase. -/
theorem refuse_phases {s t : State} {m v c : Nat} {d : Cmd} (hd : t.cmd? c = some d) (hev : (t.regGet .fab 0 0x080).testBit 5 = true)
    (hx : exec (.refuse m v) s = done (t.remoteEnds c m)) :
    ((d.phase ≠ .resolving ∧ (∀ st a b, d.phase ≠ .acks st a b) ∧ ∀ k b, d.phase ≠ .flush k b) →
      exec (.refuse m v) s = .next t.endStep) ∧
    (d.phase = .resolving → t.headOver d = false → ∃ u, exec (.refuse m v) s = .next u ∧
      t.RecordsIn d u stRemoteFail m (match d.res with | some r => r.partials.length | none => 0)) ∧
    (d.phase = .resolving → t.headOver d = true → ∃ u, exec (.refuse m v) s = .next u ∧ t.RecordsIn d u stRange 0xFFFFFFFF 0) ∧
    (∀ k b, d.phase = .flush k b → ∃ u e, exec (.refuse m v) s = .next u ∧
      (u.regGet .fab 0 0x080).testBit 5 = true ∧ u.cmd? c = some e ∧ e.phase = .acks stRemoteFail m 0) ∧
    (∀ st a b, d.phase = .acks st a b →
      let w := t.setCmd { d with phase := .acks stRemoteFail m 0 }
      (w.unacked c = true → exec (.refuse m v) s = .next w.endStep) ∧
      (w.unacked c = false → ∃ u, exec (.refuse m v) s = .next u ∧ w.RecordsIn d u stRemoteFail m (w.extra c).acked)) := by
  have hset : (t.setCmd { d with phase := .acks stRemoteFail m 0 }).cmd? c = some { d with phase := .acks stRemoteFail m 0 } :=
    (cmd?_setCmd _ _ _).trans ((congrArg (Option.map _) hd).trans (congrArg some (if_pos rfl)))
  refine ⟨fun hphase => ?_, fun hphase hover => ?_, fun hphase hover => ?_, fun k b hphase => ?_, fun st a b hphase => ?_⟩
  · rw [hx, remoteEnds_else (fun e he => by cases hd.symm.trans he; exact hphase)]
    rfl
  · obtain ⟨n, hn, hends⟩ := remoteEnds_resolving (m := m) hd hphase
    have hrec := (remoteFail_recordsIn t d m n).1 hover
    rw [hends] at hx
    generalize t.remoteFail d m n = u at *
    refine ⟨_, hx, ?_⟩
    subst hn
    exact hrec
  · obtain ⟨n, -, hends⟩ := remoteEnds_resolving (m := m) hd hphase
    have hrec := (remoteFail_recordsIn t d m n).2 hover
    rw [hends] at hx
    generalize t.remoteFail d m n = u at *
    exact ⟨_, hx, hrec⟩
  · rw [remoteEnds_flush hd hphase] at hx
    exact ⟨_, _, hx, hev, hset, rfl⟩
  · intro w
    rw [remoteEnds_acks hd hphase] at hx
    refine ⟨fun hwait => ?_, fun hall => ?_⟩
    · rw [hx, settleAcks_waits (fun _ _ _ _ _ _ => hwait)]
      rfl
    · have hrec := settleAcks_ends hset rfl hall
      rw [if_pos rfl] at hrec
      generalize State.settleAcks _ c = u at *
      exact ⟨_, hx, hrec⟩

/-- Settles O52: each row by the oldest message of its flow. -/
theorem messagesAreServed : Obligations.MessagesAreServed := by
  unfold Obligations.MessagesAreServed
  refine ⟨fun s m v ty hno c hmem hty => message_ignored hno hmem hty, ?_⟩
  intro s m v x rest hc htake refused p id gone
  have hf : Front s m v x rest := ⟨htake⟩
  have refuse : ∀ {c : Instr} {r : Nat}, exec c s = done (s.refuseIt x r) → refused c := fun h => hf.refused hc h
  refine ⟨?_, ?_, ?_, ?_, ?_, ?_, ?_⟩
  · intro hx c
    refine ⟨fun hbad => (request_refused hx hbad).elim fun r hr => refuse hr, fun hgood hlt hsrc => ?_⟩
    obtain ⟨hidle, hbad, hslots⟩ := request_slots hx hgood hlt hsrc
    refine ⟨hidle, fun htest => ⟨fun hnone => refuse (hbad htest hnone), fun l hl => ?_, fun slot ext hl hroom =>
      request_one hf hc hroom (hslots _ htest hl)⟩⟩
    exact request_full hf (requestSlots_cons hgood hl) (hslots l htest hl)
  · intro hx
    obtain ⟨hbad, hgood⟩ := response_branches hx
    refine ⟨fun h => refuse (hbad h), fun hlen heq => ?_⟩
    rw [hgood (not_or.mpr ⟨Nat.not_lt.mpr hlen, Classical.not_not.mpr heq⟩), hf.consume]
    rfl
  · intro hx
    refine ⟨fun hbad => (gather_refused hx hbad).elim fun r hr => refuse hr, fun h o t hgood ht => ?_⟩
    obtain ⟨hidle, hserve⟩ := gather_served hx hgood ht
    refine ⟨hidle, fun hctx htest => ?_⟩
    obtain ⟨budget, h, hexec⟩ := hserve hctx htest
    obtain ⟨d, hcmds, hid, hchan, hcls, hinbox, hserves⟩ := enterServe_spec s m v x rest hf s.fab.gatherChan 0x28 budget h
    exact ⟨_, d, hexec, hcmds, hid, hchan, hcls, hinbox, hserves⟩
  · intro hx
    refine ⟨fun hbad => (update_refused hx hbad).elim fun r hr => refuse hr, fun h o t hgood ht => ?_⟩
    obtain ⟨hmisfit, hidle, hserve⟩ := update_served hx hgood ht
    refine ⟨fun hfit => refuse (hmisfit hfit), hidle, fun hfit hctx htest => ?_⟩
    obtain ⟨budget, h, hexec⟩ := hserve hfit hctx htest
    obtain ⟨d, hcmds, hid, hchan, hcls, hinbox, hserves⟩ := enterServe_spec s m v x rest hf s.fab.updateChan 0x29 budget h
    exact ⟨_, d, hexec, hcmds, hid, hchan, hcls, hinbox, hserves⟩
  · intro hx wait
    refine ⟨fun hno => ?_, fun a as ha => ?_⟩
    · rw [partials_unawaited hx hno, hf.consume]
      rfl
    · have late : (s.cmd? a.cmd = none ∨ ∃ d, s.cmd? a.cmd = some d ∧ d.res = none) →
          ∃ u, exec (.partials m v) s = .next u ∧ u.fab.inbox = rest ∧ u.fab.awaits = as := fun h =>
        ⟨_, by rw [partials_late hx ha h, hf.consume_awaits]; rfl, rfl, rfl⟩
      refine ⟨fun hd => late (.inl hd), fun d hd => ⟨fun hres => late (.inr ⟨d, hd, hres⟩), fun r hr => ?_⟩⟩
      obtain ⟨hmisfit, hjoin⟩ := partials_join hx ha hd hr
      refine ⟨fun h => refuse (hmisfit h), fun h => ?_⟩
      exact partials_joined hf hd (hjoin h)
  · intro hx wait
    refine ⟨fun hlen => refuse (updateAck_malformed hx hlen), fun hlen hno => ?_, ?_⟩
    · rw [(hf.updateAck_counts hx hlen).1 hno, hf.consume]
      rfl
    · intro a as hlen ha q0 q
      have hexec := (hf.updateAck_counts hx hlen).2 a as ha
      refine ⟨fun hwaits => ?_, fun d st b c hd hphase hall => ?_⟩
      · rw [hexec, settleAcks_waits (t := (s.afterMsg rest as).countAck a.cmd) hwaits]
        rfl
      · exact ⟨_, hexec, settleAcks_ends (t := (s.afterMsg rest as).countAck a.cmd) hd hphase hall⟩
  · intro hx
    refine ⟨fun hlen => refuse (refuse_malformed hx hlen), ?_⟩
    intro hlen q
    refine ⟨fun hno => (hf.refuse_ends hx hlen).1 hno, ?_⟩
    intro c href left q2
    have hexec : exec (.refuse m v) s = done (q2.remoteEnds c m) := (hf.refuse_ends hx hlen).2 c href
    have hcmd : q2.cmd? c = s.cmd? c := unawaited_cmd s rest m (leField p 4 4) c
    refine ⟨fun hnone => ?_, fun d hd => ?_⟩
    · rw [hexec, remoteEnds_else (fun d hd => absurd hd (by rw [hcmd, hnone]; nofun))]
      rfl
    · exact refuse_phases (hcmd.trans hd) (unawaited_event hc rest m (leField p 4 4)) hexec

end Sys2Proof.Machine

/-! PROOFS. Tests: how they begin, are cleared and end (14 R435, R437 to R439). -/
namespace Sys2Proof.Machine
open Sys2Proof

/-! ## Clearing a test -/

/-- Without an edge only a test of a unit begins, and that changes nothing but the tests themselves. -/
theorem nextTest_units (s : State) (l : List Test) : ∃ test wait,
    s.nextTest false l = { s with integ := { s.integ with test := test, wait := wait } } := by
  cases l with
  | nil => exact ⟨s.integ.test, s.integ.wait, rfl⟩
  | cons t rest =>
    rw [State.nextTest]
    cases hclu : t.ofClu with
    | true => exact ⟨s.integ.test, s.integ.wait, if_pos rfl⟩
    | false =>
      refine ⟨some { t with entered := s.tickN, drained := false }, rest, (if_neg (by simp)).trans ?_⟩
      rw [if_pos (by simp [State.testable, hclu])]
      exact if_neg (by simp [hclu])

theorem tidy_unitRes (s : State) : s.tidy.integ.unitRes = s.integ.unitRes := (tidy_sameNotes s).unitRes

theorem resumeUnits_unitRes (s : State) : s.resumeUnits.integ.unitRes = s.integ.unitRes := by
  unfold State.resumeUnits
  extract_lets +onlyGivenNames s1 cs s2
  have h1 : SameNotes s s1 := SameNotes.trans (.of_integ ((State.tryTrain_only (.refl _) (.refl s)).use .integ rfl)) settled_notes
  clear_value s1
  have hreleased : SameNotes s1 (cs.foldl State.release s1) :=
    .foldl (fun t c => .of_integ ((State.release_only (.refl _) (.refl t) c).use .integ rfl)) _ _
  have h2 : SameNotes s1 s2 := hreleased.trans (.of_integ ((State.pumpRings_only (.refl _) (.refl _) cs).use .integ rfl))
  clear_value s2
  exact ((h1.trans h2).trans (.of_integ ((State.pumpAllLines_only (ps := [.fab, .host, .out]) (within_of_all rfl)
    (State.pumpAll_only (within_of_all rfl) (.refl s2))).use .integ rfl))).unitRes

theorem clearTest_keeps_slots (s : State) : s.clearTest.pslots = s.pslots ∧ s.clearTest.integ.unitRes = s.integ.unitRes := by
  unfold State.clearTest
  extract_lets +onlyGivenNames x0
  generalize hs0 : ({ s with integ := { x0 with test := none } } : State) = s0
  have h0 : s0.pslots = s.pslots ∧ s0.integ.unitRes = s.integ.unitRes := by rw [← hs0]; exact ⟨rfl, rfl⟩
  have h1 : s0.resumeUnits.pslots = s.pslots ∧ s0.resumeUnits.integ.unitRes = s.integ.unitRes :=
    ⟨(resumeUnits_pslots s0).trans h0.1, (resumeUnits_unitRes s0).trans h0.2⟩
  generalize s0.resumeUnits = r at *
  obtain ⟨test, wait, hnext⟩ := nextTest_units r r.integ.wait
  rw [show (let s1 := r; s1.nextTest false s1.integ.wait) = _ from hnext]
  exact h1

/-- The end of a test's command leaves the integrity unit as it is. -/
theorem endCmd_integ (s : State) (d : Cmd) (status a b : Nat) : (s.endCmd d status a b false).integ = s.integ :=
  (State.endCmd_only (.refl _) (.refl s) d status a b false).use .integ rfl

/-- A cleared test's command has its record, and no test is in progress unless one waited. -/
theorem clearTest_ends (q : State) (d : Cmd) (status a b : Nat) :
    let u := (q.clearTest.endCmd d status a b false).endStep
    (q.integ.wait = [] → u.integ.test = none) ∧ q.clearTest.RecordsIn d u status a b ∧ u.integ.unitRes = q.integ.unitRes := by
  have hrec := endCmd_recordsIn q.clearTest d status a b
  have hinteg := endCmd_integ q.clearTest d status a b
  have hwait := clearTest_parts q
  have hres := (clearTest_keeps_slots q).2
  generalize q.clearTest = c at *
  generalize c.endCmd d status a b false = e at *
  intro u
  refine ⟨fun h => ?_, hrec, ?_⟩
  · exact (congrArg Integ.test hinteg).trans (hwait h).1
  · exact (congrArg Integ.unitRes hinteg).trans hres

/-! ## The verdict -/

theorem makeRetired_wait {s : State} (h : s.integ.wait = []) (p : Nat) : (s.makeRetired p).integ.wait = [] := by
  unfold State.makeRetired
  extract_lets +onlyGivenNames n was s1 s2 x s3
  have h2 : s2.integ.wait = [] := by
    unfold s2
    split
    · exact (tests_of ((State.leaveServing_only (.refl _) (.refl s1) n).use .tests rfl)).2.trans h
    · exact h
  clear_value s2
  have h3 : s3.integ.wait = [] := by
    show s2.integ.wait.filter _ = []
    rw [h2]
    rfl
  clear_value s3
  have hlast : OnlyChanges [.reg, .host, .integ, .icnt, .out, .frames, .place] s3
      (((s3.faultLog 3 p 0 0 0 0 0 0).raise .int 0 0x000 3).moveDown n) :=
    State.moveDown_only (within_of_all rfl) (State.raise_only (within_of_all rfl)
      (State.faultLog_only (within_of_all rfl) (.refl s3) _ _ _ _ _ _ _ _) _ _ _ _) _
  exact (tests_of (hlast.use .tests rfl)).2.trans h3

theorem passClu_wait (s : State) (t : Test) (p : Nat) : (s.passClu t p).integ.wait = s.integ.wait := by
  unfold State.passClu
  extract_lets +onlyGivenNames r
  split
  · rw [raiseEvent_integ, (faultLog_parts _ _ _ _ _ _ _ _ _).2]
    rfl
  · rw [(faultLog_parts _ _ _ _ _ _ _ _ _).2]
    rfl

theorem judgeClu_wait {s : State} (h : s.integ.wait = []) (t : Test) (v : TestVerdict) : (s.judgeClu t v).integ.wait = [] := by
  unfold State.judgeClu
  split
  · exact h
  · extract_lets +onlyGivenNames x s1
    have h1 : s1.integ.wait = [] := h
    clear_value s1
    rw [raiseEvent_integ]
    cases v with
    | pass => exact (passClu_wait s1 t _).trans h1
    | fail f k => exact makeRetired_wait ((faultLog_parts _ _ _ _ _ _ _ _ _).2.trans h1) _

theorem judgeUnit_parts (s : State) (u : Nat) (v : TestVerdict) : (s.judgeUnit u v).integ.wait = s.integ.wait ∧
    (s.judgeUnit u v).integ.unitRes = listSet s.integ.unitRes (u - 1) (if v = .pass then 1 else 2) := by
  unfold State.judgeUnit
  extract_lets +onlyGivenNames x s1
  cases v with
  | pass => exact ⟨rfl, rfl⟩
  | fail f k =>
    have h1 : s1.integ.wait = s.integ.wait ∧ s1.integ.unitRes = listSet s.integ.unitRes (u - 1) 2 := ⟨rfl, rfl⟩
    clear_value s1
    refine ⟨?_, ?_⟩
    · exact ((tests_of ((State.raise_only (.refl _) (.refl (s1.faultLog 7 (0x80 + u) 0 0 0 0 0 0)) .int 0 0x000 4).use .tests rfl)).2.trans
        (faultLog_parts s1 _ _ _ _ _ _ _ _).2).trans h1.1
    · exact (((faultLog_sameNotes s1 _ _ _ _ _ _ _ _).trans (raise_sameNotes _ _ _ _ _)).unitRes).trans h1.2

/-! ## Tests on demand -/

/-- A test that waits in line; one of a SUSPECT cluster goes ahead of the others. -/
theorem queueTest_last (x : Test) (s : State) (h : x.kind ≠ .suspect ∨ s.integ.wait = []) :
    (s.queueTest x).integ.test = s.integ.test ∧ (s.queueTest x).integ.wait = s.integ.wait ++ [x] := by
  unfold State.queueTest
  extract_lets ws w
  refine ⟨rfl, ?_⟩
  show w = ws ++ [x]
  unfold w
  split
  case isTrue hk => rw [show ws = [] from h.resolve_left (Classical.not_not.mpr hk)]; rfl
  case isFalse => rfl

/-- The test that a command asks for. -/
def State.demandedTest (t : State) (d : Cmd) : Test :=
  { kind := .demand d.id, unit := testUnit d.slot, clu := testClu d.slot, entered := 0, drained := false, zero := 0,
    margin := testMargin d.slot, length := if testMargin d.slot then t.fld .int 0 0x004 27 16 else 100 }

theorem issue_integ (s : State) (d : Cmd) (p : Phase) : (s.issue d p).integ = s.integ :=
  (State.issue_only (.refl _) (.refl s) d p).use .integ rfl

theorem issue_tickN (s : State) (d : Cmd) (p : Phase) : (s.issue d p).tickN = s.tickN := by
  unfold State.tickN
  rw [(State.issue_only (.refl _) (.refl s) d p).use .clk rfl]

theorem runTestOnDemand_good {t : State} {d : Cmd} (hgood : lowest (t.testBad d.slot) = none) :
    t.runTestOnDemand d = if (t.issue d (.waiting t.tickN)).integ.test.isNone && !(t.demandedTest d).ofClu
      then (t.issue d (.waiting t.tickN)).beginTest (t.demandedTest d) else (t.issue d (.waiting t.tickN)).queueTest (t.demandedTest d) := by
  unfold State.runTestOnDemand
  rw [hgood]
  rfl

theorem runTestOnDemand_begins {t : State} {d : Cmd} (hgood : lowest (t.testBad d.slot) = none) (hnone : t.integ.test = none)
    (hunit : testUnit d.slot ≠ 0) : (t.runTestOnDemand d).integ.test = some { t.demandedTest d with entered := t.tickN } ∧
      (t.runTestOnDemand d).integ.wait = t.integ.wait := by
  have hclu : (t.demandedTest d).ofClu = false := by simpa [State.demandedTest, Test.ofClu] using hunit
  rw [runTestOnDemand_good hgood, if_pos (by rw [issue_integ]; simp [hnone, hclu])]
  have hinteg := issue_integ t d (.waiting t.tickN)
  have htick := issue_tickN t d (.waiting t.tickN)
  generalize t.issue d (.waiting t.tickN) = u at *
  unfold State.beginTest
  rw [if_neg (by simp [hclu])]
  exact ⟨by rw [← htick]; rfl, (congrArg Integ.wait hinteg : u.integ.wait = _)⟩

theorem runTestOnDemand_queues {t : State} {d : Cmd} (hgood : lowest (t.testBad d.slot) = none)
    (hbusy : t.integ.test ≠ none ∨ testUnit d.slot = 0) : (t.runTestOnDemand d).integ.test = t.integ.test ∧
      (t.runTestOnDemand d).integ.wait = t.integ.wait ++ [t.demandedTest d] := by
  have hno : ¬((t.issue d (.waiting t.tickN)).integ.test.isNone && !(t.demandedTest d).ofClu) = true := by
    rw [issue_integ]
    rcases hbusy with h | h
    · simp [h]
    · simp [State.demandedTest, Test.ofClu, h]
  rw [runTestOnDemand_good hgood, if_neg hno]
  have hinteg := issue_integ t d (.waiting t.tickN)
  generalize t.issue d (.waiting t.tickN) = u at *
  obtain ⟨htest, hwait⟩ := queueTest_last (t.demandedTest d) u (.inl nofun)
  rw [htest, hwait, hinteg]
  exact ⟨rfl, rfl⟩

/-! ## The rows of a test in progress -/

theorem demandRows_ignored {s : State} (v : TestVerdict)
    (hno : s.integ.test = none ∨ ∃ t, s.integ.test = some t ∧ t.cmd?.bind s.cmd? = none) :
    exec .testDrainTimeout s = .next s.endStep ∧ exec (.testDone v) s = .next s.endStep := by
  show execTestDrainTimeout s = _ ∧ execTestDone v s = _
  unfold execTestDrainTimeout execTestDone
  rcases hno with h | ⟨t, h, hcmd⟩
  · rw [h]
    exact ⟨rfl, rfl⟩
  · rw [h]
    dsimp only
    rw [hcmd]
    exact ⟨rfl, rfl⟩

theorem testDrainComplete_exec {s : State} {t : Test} (hon : s.on = true) (ht : s.integ.test = some t) :
    let u : State := { s with integ := { s.integ with
      test := some { t with drained := true, zero := if t.ofClu then s.tickN + 1 else s.clk.now } } }
    (t.drained = false → s.unitDrained t = true → exec .testDrainComplete s = done (if t.unit = 4 then u.takeDown else u)) ∧
    ((t.drained = true ∨ s.unitDrained t = false) → exec .testDrainComplete s = .next s.endStep) := by
  intro u
  show (_ → _ → execTestDrainComplete s = _) ∧ (_ → execTestDrainComplete s = _)
  unfold execTestDrainComplete
  rw [ht]
  refine ⟨fun hnot hdrained => congrArg done (if_neg (by simp [hon, hnot, hdrained])), fun h => congrArg done (if_pos ?_)⟩
  rcases h with h | h <;> simp [h]

/-- The state once the drain of a test has taken too long: its slot serves again. -/
def State.afterDrain (s : State) (t : Test) : State :=
  match t.ofClu, s.testSlot t with
  | true, some p => s.setSlotState p .serving
  | _, _ => s

theorem afterDrain_wait (s : State) (t : Test) : (s.afterDrain t).integ.wait = s.integ.wait := by
  unfold State.afterDrain
  split <;> rfl

/-- The state once a test's verdict is taken. -/
def State.afterVerdict (s : State) (t : Test) (v : TestVerdict) : State :=
  if t.ofClu then s.judgeClu t v else s.judgeUnit t.unit v

theorem afterVerdict_wait {s : State} (h : s.integ.wait = []) (t : Test) (v : TestVerdict) : (s.afterVerdict t v).integ.wait = [] := by
  unfold State.afterVerdict
  split
  · exact judgeClu_wait h t v
  · exact (judgeUnit_parts s _ v).1.trans h

theorem afterVerdict_unitRes (s : State) {t : Test} (h : t.unit ≠ 0) (v : TestVerdict) :
    (s.afterVerdict t v).integ.unitRes = listSet s.integ.unitRes (t.unit - 1) (if v = .pass then 1 else 2) := by
  unfold State.afterVerdict
  rw [if_neg (by simpa [Test.ofClu] using h)]
  exact (judgeUnit_parts s _ v).2

/-- A test of a command ends with its verdict. -/
theorem verdict_ends {s : State} {t : Test} {d : Cmd} (v : TestVerdict) :
    let q := s.afterVerdict t v
    let u := ((q.clearTest.endCmd d stOk (verdictDetails v).1 (verdictDetails v).2 false).raiseEvent 70).endStep
    (s.integ.wait = [] → u.integ.test = none) ∧ q.clearTest.RecordsIn d u stOk (verdictDetails v).1 (verdictDetails v).2 ∧
      (t.unit ≠ 0 → u.integ.unitRes = listSet s.integ.unitRes (t.unit - 1) (if v = .pass then 1 else 2)) := by
  intro q
  obtain ⟨htest, hrec, hres⟩ := clearTest_ends q d stOk (verdictDetails v).1 (verdictDetails v).2
  generalize q.clearTest.endCmd d stOk (verdictDetails v).1 (verdictDetails v).2 false = e at *
  intro u
  have hinteg : u.integ = e.integ := raiseEvent_integ e 70
  rw [hinteg]
  exact ⟨fun h => htest (afterVerdict_wait h t v), RecordsIn.of_prefix hrec (State.raiseEvent_keeps (.refl e) 70).out,
    fun hunit => hres.trans (afterVerdict_unitRes s hunit v)⟩

section
variable {s : State} {t : Test} {d : Cmd} (hon : s.on = true) (ht : s.integ.test = some t) (hd : t.cmd?.bind s.cmd? = some d)
include hon ht hd

theorem testDrainTimeout_exec :
    (t.drained = false → t.entered + testDrain d.slot ≤ s.tickN →
      exec .testDrainTimeout s = done ((s.afterDrain t).clearTest.endCmd d stNoResource 0x0401 0 false)) ∧
    ((t.drained = true ∨ s.tickN < t.entered + testDrain d.slot) → exec .testDrainTimeout s = .next s.endStep) := by
  show (_ → _ → execTestDrainTimeout s = _) ∧ (_ → execTestDrainTimeout s = _)
  unfold execTestDrainTimeout
  rw [ht]
  dsimp only
  rw [hd]
  refine ⟨fun hnot hlate => congrArg done (if_neg (by simp [hon, hnot, hlate])), fun h => congrArg done (if_pos ?_)⟩
  rcases h with h | h <;> simp [h]

theorem testDone_exec (v : TestVerdict) :
    let due : Bool := if t.ofClu then s.verdictDue t else t.drained && decide (t.zero + unitCycles t.unit ≤ s.clk.now)
    (due = true → exec (.testDone v) s =
      done (((s.afterVerdict t v).clearTest.endCmd d stOk (verdictDetails v).1 (verdictDetails v).2 false).raiseEvent 70)) ∧
    (due = false → exec (.testDone v) s = .next s.endStep) := by
  intro due
  show (_ → execTestDone v s = _) ∧ (_ → execTestDone v s = _)
  unfold execTestDone
  rw [ht]
  dsimp only
  rw [hd]
  exact ⟨fun h => congrArg done (if_neg (c := (!s.on || !due) = true) (by simp [hon, h])),
    fun h => congrArg done (if_pos (c := (!s.on || !due) = true) (by simp [h]))⟩

end

/-- Settles O53: by the operands, the drain and the time of a test of a command. -/
theorem testsOnDemandBeginAndEnd : Obligations.TestsOnDemandBeginAndEnd := by
  unfold Obligations.TestsOnDemandBeginAndEnd
  refine ⟨?_, fun s v hno => ?_, fun s t hon ht => ?_⟩
  · intro s t n d hi x
    have hexec : exec (.testOnDemand n) s = .next (t.runTestOnDemand d).endStep := gfe_exec hi rfl
    refine ⟨fun hgood hnone hunit => ?_, fun hgood hbusy => ?_, fun off hbad => ?_⟩
    · obtain ⟨htest, hwait⟩ := runTestOnDemand_begins hgood hnone hunit
      exact ⟨_, hexec, by rw [endStep_integ]; exact htest, by rw [endStep_integ]; exact hwait⟩
    · obtain ⟨htest, hwait⟩ := runTestOnDemand_queues hgood hbusy
      exact ⟨_, hexec, by rw [endStep_integ]; exact htest, by rw [endStep_integ]; exact hwait⟩
    · refine endsNow hi rfl rfl ?_
      unfold State.runTestOnDemand
      rw [hbad]
  · obtain ⟨htimeout, hdone⟩ := demandRows_ignored v hno
    refine ⟨htimeout, hdone, fun hnone => ?_⟩
    show execTestDrainComplete s = _
    unfold execTestDrainComplete
    rw [hnone]
    rfl
  · obtain ⟨hcomplete, hearly⟩ := testDrainComplete_exec hon ht
    refine ⟨fun hnot hdrained => ?_, hearly, fun d hd => ?_⟩
    · refine ⟨_, hcomplete hnot hdrained, ?_, ?_⟩
      · rw [endStep_integ]
        split
        · exact (tests_of ((State.takeDown_only (.refl _) (.refl _)).use .tests rfl)).1
        · rfl
      · intro hunit
        rw [if_pos hunit, link_endStep, takeDown_link]
    · obtain ⟨htimeout, hwaits⟩ := testDrainTimeout_exec hon ht hd
      refine ⟨?_, hwaits, fun v => ?_⟩
      · intro hnot hlate q
        obtain ⟨htest, hrec, -⟩ := clearTest_ends (s.afterDrain t) d stNoResource 0x0401 0
        exact ⟨_, htimeout hnot hlate, fun h => htest ((afterDrain_wait s t).trans h), hrec⟩
      · intro due q
        obtain ⟨hdone, hnotyet⟩ := testDone_exec hon ht hd v
        refine ⟨fun hdue => ?_, hnotyet⟩
        have hexec := hdone hdue
        obtain ⟨htest, hrec, hres⟩ := verdict_ends (s := s) (t := t) (d := d) v
        generalize ((s.afterVerdict t v).clearTest.endCmd d stOk (verdictDetails v).1 (verdictDetails v).2 false).raiseEvent 70 = u at *
        exact ⟨_, hexec, htest, hrec, hres⟩

end Sys2Proof.Machine

/-! PROOFS. Residencies, the control of slots and the fault log (14 R432, R434 to R436, R441, R442, R445). -/
namespace Sys2Proof.Machine
open Sys2Proof

/-! ## Residencies -/

/-- The test of a cluster in its turn. -/
def State.rotationTest (s : State) (n : Nat) : Test :=
  { kind := .rotation, unit := 0, clu := n, entered := 0, drained := false, zero := 0, margin := true,
    length := s.fld .int 0 0x004 27 16 }

theorem residencyStart_exec {s : State} (hon : s.on = true) :
    let may : Bool := !s.sup.stopping && s.fld .int 0 0x004 0 0 == 1 && s.integ.test.isNone && s.integ.wait.isEmpty &&
      decide (s.integ.secsAt + s.fld .int 0 0x004 12 1 * secCycles ≤ s.clk.now)
    ((may = false ∨ s.rotation = []) → exec .residencyStart s = .next s.endStep) ∧
    (∀ n rest, may = true → s.rotation = n :: rest → exec .residencyStart s = done (State.queueTest
      { s with integ := { s.integ with next := (n + 1) % max 1 s.nClus, secsAt := s.clk.now } }
      (s.rotationTest n))) := by
  intro may
  have hfield : s.fld .int 0 0x004 0 0 < 2 := Nat.mod_lt _ (by decide)
  have hguard : (!s.on || s.sup.stopping || s.fld .int 0 0x004 0 0 == 0 || s.integ.test.isSome || !s.integ.wait.isEmpty ||
      decide (s.clk.now < s.integ.secsAt + s.fld .int 0 0x004 12 1 * secCycles)) = !may := by
    have h01 : (s.fld .int 0 0x004 0 0 == 0) = !(s.fld .int 0 0x004 0 0 == 1) := by
      generalize s.fld .int 0 0x004 0 0 = k at *
      rcases (show k = 0 ∨ k = 1 by omega) with rfl | rfl <;> rfl
    simp only [may, h01, hon, Bool.not_and, Bool.not_not, Bool.not_true, Bool.false_or, Option.not_isNone, ← decide_not, Nat.not_le]
  clear_value may
  show (_ → execResidencyStart s = _) ∧ (∀ n rest, _ → _ → execResidencyStart s = _)
  unfold execResidencyStart
  rw [hguard]
  refine ⟨fun h => ?_, fun n rest hmay hrot => ?_⟩
  · cases hmay : may with
    | false => rfl
    | true =>
      rw [h.resolve_left (by simp [hmay])]
      rfl
  · rw [hmay, hrot]
    rfl

theorem residencyAbandon_exec {s : State} {t : Test} (hon : s.on = true) (ht : s.integ.test = some t) (hunit : t.unit = 0)
    (hcmd : t.cmd? = none) :
    let s1 : State := { s with integ := { s.integ with skipped := true } }
    (t.drained = false → t.entered + 64 ≤ s.tickN →
      (s.testSlot t = none → exec .residencyAbandon s = done s1.clearTest) ∧
      (∀ p, s.testSlot t = some p → exec .residencyAbandon s =
        done (if t.kind = .suspect then (s1.queueTest t).clearTest else (s1.setSlotState p .serving).clearTest))) ∧
    ((t.drained = true ∨ s.tickN < t.entered + 64) → exec .residencyAbandon s = .next s.endStep) := by
  intro s1
  show (_ → _ → (_ → execResidencyAbandon s = _) ∧ (∀ p, _ → execResidencyAbandon s = _)) ∧ (_ → execResidencyAbandon s = _)
  unfold execResidencyAbandon
  rw [ht]
  have hclu : t.ofClu = true := by simp [Test.ofClu, hunit]
  refine ⟨fun hnot hlate => ?_, fun h => congrArg done (if_pos ?_)⟩
  · dsimp only
    rw [if_neg (by simp [hon, hclu, hcmd, hnot, hlate])]
    refine ⟨fun h => ?_, fun p h => ?_⟩
    · rw [show ({ s with integ := { s.integ with skipped := true } } : State).testSlot t = none from h]
    · rw [show ({ s with integ := { s.integ with skipped := true } } : State).testSlot t = some p from h]
  · rcases h with h | h <;> simp [h]

theorem residencyVerdict_exec {s : State} {t : Test} (hon : s.on = true) (ht : s.integ.test = some t) (hunit : t.unit = 0)
    (hcmd : t.cmd? = none) (v : TestVerdict) :
    (t.drained = true → t.zero + t.length ≤ s.tickN → exec (.residencyVerdict v) s = done (s.judgeClu t v).clearTest) ∧
    ((t.drained = false ∨ s.tickN < t.zero + t.length) → exec (.residencyVerdict v) s = .next s.endStep) := by
  show (_ → _ → execResidencyVerdict v s = _) ∧ (_ → execResidencyVerdict v s = _)
  unfold execResidencyVerdict
  rw [ht]
  have hdue : s.verdictDue t = (t.drained && decide (t.zero + t.length ≤ s.tickN)) := by
    simp [State.verdictDue, Test.ofClu, hunit]
  refine ⟨fun hdrained hlate => congrArg done (if_neg (by simp [hon, hcmd, hdue, hdrained, hlate])), fun h => congrArg done (if_pos ?_)⟩
  rcases h with h | h <;> simp [hdue, h]

theorem residencyRows_ignored {s : State} (v : TestVerdict)
    (hno : s.integ.test = none ∨ ∃ t, s.integ.test = some t ∧ (t.cmd?.isSome = true ∨ t.unit ≠ 0)) :
    exec .residencyAbandon s = .next s.endStep ∧ exec (.residencyVerdict v) s = .next s.endStep := by
  show execResidencyAbandon s = _ ∧ execResidencyVerdict v s = _
  unfold execResidencyAbandon execResidencyVerdict
  rcases hno with h | ⟨t, h, hother⟩
  · rw [h]
    exact ⟨rfl, rfl⟩
  · rw [h]
    refine ⟨congrArg done (if_pos ?_), congrArg done (if_pos ?_)⟩
    · rcases hother with h | h <;> simp [h, Test.ofClu]
    · rcases hother with h | h <;> simp [h, State.verdictDue, Test.ofClu]

/-- Clearing a test leaves every slot as it is. -/
theorem clearTest_pslot (s : State) (p : Nat) : s.clearTest.endStep.pslot p = s.pslot p :=
  (endStep_pslot s.clearTest p).trans (pslot_of (clearTest_keeps_slots s).1 p)

theorem clearTest_test {s : State} (hwait : s.integ.wait = []) : s.clearTest.endStep.integ.test = none :=
  (clearTest_endStep s hwait 0).1

/-- A cluster's test that waits alone goes on waiting. -/
theorem clearTest_waits {s : State} {t : Test} (hwait : s.integ.wait = [t]) (hclu : t.ofClu = true) :
    s.clearTest.endStep.integ.test = none ∧ s.clearTest.endStep.integ.wait = [t] := by
  rw [endStep_integ]
  unfold State.clearTest
  extract_lets +onlyGivenNames x0
  generalize hs0 : ({ s with integ := { x0 with test := none } } : State) = s0
  have h0 : s0.integ.test = none ∧ s0.integ.wait = [t] := by rw [← hs0]; exact ⟨rfl, hwait⟩
  obtain ⟨htest, hw⟩ := resumeUnits_tests s0
  generalize s0.resumeUnits = r at *
  have hstay : r.nextTest false r.integ.wait = r := by
    rw [hw, h0.2, State.nextTest]
    exact if_pos (by simp [hclu])
  rw [show (let s1 := r; s1.nextTest false s1.integ.wait) = r from hstay]
  exact ⟨htest.trans h0.1, hw.trans h0.2⟩

theorem judgeClu_slot {s : State} (hc : s.Canon) {t : Test} {p : Nat} (hp : s.testSlot t = some p) :
    (((s.judgeClu t .pass).pslot p).state = .serving ∧ ((s.judgeClu t .pass).pslot p).lastPass = s.clk.now) ∧
    ∀ f k, ((s.judgeClu t (.fail f k)).pslot p).state = .retired := by
  unfold State.judgeClu
  rw [hp]
  dsimp only
  generalize hs1 : ({ s with integ := { s.integ with skipped := false } } : State) = s1
  have hc1 : s1.Canon := by rw [← hs1]; exact canon_integ hc _
  have hnow : s1.clk.now = s.clk.now := by rw [← hs1]
  clear hs1
  constructor
  · have hpass : ((s1.passClu t p).pslot p).state = .serving ∧ ((s1.passClu t p).pslot p).lastPass = s1.clk.now := by
      unfold State.passClu
      extract_lets +onlyGivenNames r
      split
      · rw [pslot_of (raiseEvent_pslots _ _), pslot_of (faultLog_parts _ _ _ _ _ _ _ _ _).1, State.pslot_setPslot_self hc1]
        exact ⟨rfl, rfl⟩
      · rw [pslot_of (faultLog_parts _ _ _ _ _ _ _ _ _).1, State.pslot_setPslot_self hc1]
        exact ⟨rfl, rfl⟩
    rw [pslot_of (raiseEvent_pslots _ _)]
    exact ⟨hpass.1, hpass.2.trans hnow⟩
  · intro f k
    rw [pslot_of (raiseEvent_pslots _ _)]
    exact (makeRetired_state _ ((State.faultLog_keeps (.refl s1) _ _ _ _ _ _ _ _).canon hc1) p).1

/-- What an abandoned residency leaves of the slot and the tests. -/
theorem residency_abandoned {s : State} (hc : s.Canon) {t : Test} (hclu : t.ofClu = true) {c : Instr}
    (hnone : s.testSlot t = none → exec c s = done (State.clearTest { s with integ := { s.integ with skipped := true } }))
    (hsome : ∀ p, s.testSlot t = some p → exec c s = done (if t.kind = .suspect
      then (State.queueTest { s with integ := { s.integ with skipped := true } } t).clearTest
      else (State.setSlotState { s with integ := { s.integ with skipped := true } } p .serving).clearTest)) :
    ∃ u, exec c s = .next u ∧ (s.integ.wait = [] → u.integ.test = none) ∧
      (∀ p, s.testSlot t = some p → (t.kind ≠ .suspect → (u.pslot p).state = .serving) ∧
        (t.kind = .suspect → (u.pslot p).state = (s.pslot p).state ∧ (s.integ.wait = [] → u.integ.wait = [t]))) := by
  generalize hs1 : ({ s with integ := { s.integ with skipped := true } } : State) = s1 at *
  have hc1 : s1.Canon := by rw [← hs1]; exact canon_integ hc _
  have hw1 : s1.integ.wait = s.integ.wait := by rw [← hs1]
  have hp1 : s1.pslots = s.pslots := by rw [← hs1]
  clear hs1
  cases hslot : s.testSlot t with
  | none => exact ⟨_, hnone hslot, fun hw => clearTest_test (hw1.trans hw), fun p hp => by cases hp⟩
  | some p =>
    by_cases hk : t.kind = .suspect
    · refine ⟨_, (hsome p hslot).trans (congrArg done (if_pos hk)), fun hw => ?_, fun q hq => ⟨fun h => absurd hk h, fun _ => ⟨?_, fun hw => ?_⟩⟩⟩
      · exact (clearTest_waits ((queueTest_last t s1 (.inr (hw1.trans hw))).2.trans (by rw [hw1, hw]; rfl)) hclu).1
      · rw [clearTest_pslot]
        exact congrArg PSlot.state (pslot_of (s := s1.queueTest t) hp1 q)
      · exact (clearTest_waits ((queueTest_last t s1 (.inr (hw1.trans hw))).2.trans (by rw [hw1, hw]; rfl)) hclu).2
    · refine ⟨_, (hsome p hslot).trans (congrArg done (if_neg hk)), fun hw => clearTest_test (hw1.trans hw), fun q hq => ⟨fun _ => ?_, fun h => absurd h hk⟩⟩
      cases hq
      rw [clearTest_pslot]
      exact setSlot_state hc1 p .serving

/-- Settles O54: by the interval and the rotation, the edge, and the time of the residency. -/
theorem residenciesJudgeClusters : Obligations.ResidenciesJudgeClusters := by
  unfold Obligations.ResidenciesJudgeClusters
  refine ⟨fun s hon => ?_, fun s t rest p hc htest hwait hunit hmay hp => ?_, fun s v hno => residencyRows_ignored v hno,
    fun s t hc hon ht hunit hcmd => ?_⟩
  · intro may
    obtain ⟨hidle, hstart⟩ := residencyStart_exec hon
    refine ⟨hidle, fun n rest h hrot => ?_⟩
    have hfree : s.integ.test = none ∧ s.integ.wait = [] := by
      simp only [may, Bool.and_eq_true, Option.isNone_iff_eq_none, List.isEmpty_iff] at h
      exact ⟨h.1.1.2, h.1.2⟩
    refine ⟨_, s.rotationTest n, hstart n rest h hrot, hfree.1, ?_, rfl, rfl, rfl, rfl, rfl, rfl⟩
    exact (queueTest_last (s.rotationTest n) { s with integ := { s.integ with next := (n + 1) % max 1 s.nClus, secsAt := s.clk.now } } (.inl nofun)).2.trans
      (congrArg (· ++ [_]) hfree.2)
  · have hedge : s.testEdge = State.enterResidency { s with integ := { s.integ with wait := rest } } t := by
      have hclu : t.ofClu = true := by simp [Test.ofClu, hunit]
      unfold State.testEdge
      rw [htest]
      dsimp only
      rw [hwait, State.nextTest, if_neg (by simp)]
      exact (if_pos hmay).trans (if_pos hclu)
    rw [hedge]
    obtain ⟨hin, hrest⟩ := enterResidency_test { s with integ := { s.integ with wait := rest } } t
    exact ⟨hin, hrest, fun hserving => enterResidency_state _ (canon_integ hc _) t p hp hserving⟩
  · obtain ⟨habandon, hearly⟩ := residencyAbandon_exec hon ht hunit hcmd
    refine ⟨fun hnot hlate => ?_, hearly, fun hdrained hlate => ⟨?_, fun f k => ?_⟩, fun h v => (residencyVerdict_exec hon ht hunit hcmd v).2 h⟩
    · obtain ⟨hnone, hsome⟩ := habandon hnot hlate
      exact residency_abandoned hc (by simp [Test.ofClu, hunit]) hnone hsome
    · refine ⟨_, (residencyVerdict_exec hon ht hunit hcmd .pass).1 hdrained hlate, fun hw => clearTest_test (judgeClu_wait hw t _),
        fun p hp => ?_⟩
      rw [clearTest_pslot]
      exact (judgeClu_slot hc hp).1
    · refine ⟨_, (residencyVerdict_exec hon ht hunit hcmd (.fail f k)).1 hdrained hlate, fun hw => clearTest_test (judgeClu_wait hw t _),
        fun p hp => ?_⟩
      rw [clearTest_pslot]
      exact (judgeClu_slot hc hp).2 f k

/-! ## Slots and the fault log -/

theorem intCluRetire_exec {s : State} {a : Acc} (hserved : s.served = true) :
    let p := s.selSlot a
    let st := (s.pslot p).state
    (st = .serving → exec (.intCluRetire a) s = done (s.makeRetired p)) ∧
    (st = .suspect → exec (.intCluRetire a) s = done ((s.makeRetired p).dropTestOf p)) ∧
    (st ≠ .serving → st ≠ .suspect → exec (.intCluRetire a) s = .next (s.ignored .int 0 0x000).endStep) := by
  intro p st
  show (_ → execIntCluRetire a s = _) ∧ (_ → execIntCluRetire a s = _) ∧ (_ → _ → execIntCluRetire a s = _)
  unfold execIntCluRetire
  rw [if_neg (by simp [hserved])]
  dsimp only
  refine ⟨fun h => ?_, fun h => ?_, fun h h' => ?_⟩
  · rw [show (s.pslot (s.selSlot a)).state = _ from h]
  · rw [show (s.pslot (s.selSlot a)).state = _ from h]
  · split
    · next hs => exact absurd hs h
    · next hs => exact absurd hs h'
    · rfl

theorem intCluSuspect_exec {s : State} {a : Acc} (hserved : s.served = true) :
    let p := s.selSlot a
    let st := (s.pslot p).state
    (st = .serving → exec (.intCluSuspect a) s = done (s.makeSuspect p)) ∧
    (st ≠ .serving → exec (.intCluSuspect a) s = .next (s.ignored .int 0 0x000).endStep) := by
  intro p st
  show (_ → execIntCluSuspect a s = _) ∧ (_ → execIntCluSuspect a s = _)
  unfold execIntCluSuspect
  rw [if_neg (by simp [hserved])]
  dsimp only
  refine ⟨fun h => ?_, fun h => ?_⟩
  · rw [show (s.pslot (s.selSlot a)).state = _ from h]
  · split
    · next hs => exact absurd hs h
    · rfl

theorem untrim_state {s : State} (hc : s.Canon) (t : Test) (p : Nat) :
    ((s.untrim t).pslot p).state = (s.pslot p).state := by
  unfold State.untrim
  split
  · unfold State.addTrim
    split
    · next q _ =>
      split
      · by_cases hpq : p = q
        · subst hpq
          rw [State.pslot_setPslot_self hc]
        · rw [State.pslot_setPslot_other s hpq]
      · rfl
    · rfl
  · rfl

/-- Dropping the stress test of a slot leaves the state of every slot as it is. -/
theorem dropTestOf_state {s : State} (hc : s.Canon) (q p : Nat) : ((s.dropTestOf q).pslot p).state = (s.pslot p).state := by
  unfold State.dropTestOf
  split
  · next t _ =>
    split
    · rw [pslot_of (clearTest_keeps_slots (s.untrim t)).1]
      exact untrim_state hc t p
    · rfl
  · rfl

theorem intLogSnap_exec {s : State} {a : Acc} {i : Nat} (hserved : s.served = true) :
    ∃ u, exec (.intLogSnap a i) s = .next u ∧ (u.accState a).log = wordsOf (s.logRecord (i % 65536)) 16 := by
  refine ⟨_, congrArg done (if_neg (by simp [hserved])), ?_⟩
  extract_lets s1
  have hlog : s1.logRecord (i % 65536) = s.logRecord (i % 65536) := by
    unfold State.logRecord
    rw [(State.fldPut_only (.refl _) (.refl s) .int (accNum a) 0x070 15 0 i).use .integ rfl]
  rw [endStep_acc, acc_setAcc, hlog]

theorem faultLogRecordWrite_exec {s : State} (hon : s.on = true) :
    let held : Bool := s.sup.inhibit || s.unitTest 4
    (∀ r rest, s.integ.logBuf = r :: rest → held = false → exec .faultLogRecordWrite s = done { s with integ := { s.integ with
      logBuf := rest, logRing := (s.integ.logRing ++ [r]).drop ((s.integ.logRing ++ [r]).length - 65536) } }) ∧
    ((s.integ.logBuf = [] ∨ held = true) → exec .faultLogRecordWrite s = .next s.endStep) := by
  intro held
  show (∀ r rest, _ → _ → execFaultLogRecordWrite s = _) ∧ (_ → execFaultLogRecordWrite s = _)
  unfold execFaultLogRecordWrite
  refine ⟨fun r rest hbuf hfree => ?_, fun h => ?_⟩
  · rw [hbuf]
    refine congrArg done (if_neg ?_)
    simpa [held, hon] using hfree
  · split
    · rfl
    · next r rest hbuf =>
      refine congrArg done (if_pos ?_)
      have : held = true := h.resolve_left (by rw [hbuf]; nofun)
      simpa [held, hon] using this

/-- Settles O55: by the state of the slot, the buffered records and the index. -/
theorem slotControlAndTheFaultLog : Obligations.SlotControlAndTheFaultLog := by
  unfold Obligations.SlotControlAndTheFaultLog
  refine ⟨fun s a hc hserved => ?_, fun s hon => ?_, fun s a i => ⟨fun hserved => ?_, fun hno c hmem => ?_⟩⟩
  · intro st
    obtain ⟨hserving, hsuspect, hother⟩ := intCluRetire_exec (a := a) hserved
    obtain ⟨hmake, hleave⟩ := intCluSuspect_exec (a := a) hserved
    have hretired := (makeRetired_state s hc (s.selSlot a)).1
    refine ⟨fun h => ?_, hother, fun h => ⟨_, hmake h, ?_⟩, hleave⟩
    · rcases h with h | h
      · exact ⟨_, hserving h, by rw [endStep_pslot]; exact hretired⟩
      · refine ⟨_, hsuspect h, ?_⟩
        rw [endStep_pslot, dropTestOf_state ((State.makeRetired_keeps (.refl s) _).canon hc)]
        exact hretired
    · rw [endStep_pslot]
      exact makeSuspect_state s hc _ h
  · intro held
    obtain ⟨hwrite, hkeep⟩ := faultLogRecordWrite_exec hon
    refine ⟨fun r rest hbuf hfree => ⟨_, hwrite r rest hbuf hfree, ?_, ?_⟩, hkeep⟩
    · rw [endStep_integ]
    · rw [endStep_integ]
  · exact intLogSnap_exec hserved
  · have hoff : (!s.served) = true := by simp [hno]
    simp only [List.mem_cons, List.not_mem_nil, or_false] at hmem
    rcases hmem with rfl | rfl | rfl
    · show execIntLogSnap a i s = _
      unfold execIntLogSnap
      rw [if_pos hoff]
      rfl
    · exact congrArg done (if_pos hoff)
    · exact congrArg done (if_pos hoff)

end Sys2Proof.Machine

/-! PROOFS. Samples and their timeouts (16 R470, R471, R477 to R480): what each keeps, and when it stops the module. -/
namespace Sys2Proof.Machine
open Sys2Proof

/-! ## The input -/

/-- The state with a sample of the input kept, before the supply's step. -/
def State.metered (s : State) (mv tenMa : Int) : State :=
  { s with sup := { s.sup with
      vin := ⟨(mv :: s.sup.vin.vals).take 8, false, if 60000 < median ((mv :: s.sup.vin.vals).take 8) then s.sup.vin.run + 1 else 0, s.clk.now⟩
      iin := ⟨(tenMa :: s.sup.iin.vals).take 8, false, s.sup.iin.run, s.clk.now⟩
      meterTimeout := false
      energyPj := s.sup.energyPj + (mv * tenMa).toNat * 10 } }

section
variable {s : State} (hon : s.on = true)
include hon

theorem inputMeterSample_exec (mv tenMa : Int) :
    (mv < 0 ∨ 70000 < mv ∨ tenMa < 0 ∨ 6000 < tenMa → exec (.inputMeterSample mv tenMa) s = done s.sensorFault) ∧
    (0 ≤ mv → mv ≤ 70000 → 0 ≤ tenMa → tenMa ≤ 6000 → exec (.inputMeterSample mv tenMa) s = done (s.metered mv tenMa).supplyStep) := by
  have hoff : ¬(!s.on) = true := by simp [hon]
  refine ⟨fun h => congrArg done ((if_neg hoff).trans (if_pos h)), fun h1 h2 h3 h4 => congrArg done ((if_neg hoff).trans (if_neg ?_))⟩
  omega

theorem meterTimeout_exec (tenMs : Bool) :
    (s.passed s.sup.vin.lastAt (if tenMs then 10 * msCycles else 130000) = false → exec (.meterTimeout tenMs) s = .next s.endStep) ∧
    (s.passed s.sup.vin.lastAt (if tenMs then 10 * msCycles else 130000) = true → ∃ t : State, t.sup = { s.sup with meterTimeout := true } ∧
      exec (.meterTimeout tenMs) s = done (if tenMs then t.supplyStep.controlledStop else t.supplyStep)) := by
  refine ⟨fun h => congrArg done (if_pos (by simp [h])), fun h => ⟨_, ?_, congrArg done (if_neg (by simp [hon, h]))⟩⟩
  split
  case isTrue ht => rw [← ht]
  case isFalse =>
    exact ((State.raise_only (.refl _) (.refl _) .mon 0 0x000 4).use .sup rfl).trans
      ((State.raise_only (.refl _) (.refl _) .pwr 0 0x000 4).use .sup rfl)

/-! ## Temperatures -/

theorem tempSensorSample_exec (k : Nat) (q : Int) :
    (q < -160 ∨ 600 < q → exec (.tempSensorSample k q) s = done s.sensorFault) ∧
    (-160 ≤ q → q ≤ 600 → exec (.tempSensorSample k q) s = done ((s.setTemp k ⟨(q :: (s.tempRec k).vals).take 3, false,
      if 420 ≤ median ((q :: (s.tempRec k).vals).take 3) then (s.tempRec k).run + 1 else 0, s.clk.now⟩).thermalStep k)) := by
  have hoff : ¬(!s.on) = true := by simp [hon]
  exact ⟨fun h => congrArg done ((if_neg hoff).trans (if_pos h)),
    fun h1 h2 => congrArg done ((if_neg hoff).trans (if_neg (by omega)))⟩

theorem tempSensorTimeout_exec (k : Nat) :
    (s.passed (s.tempRec k).lastAt msCycles = false → exec (.tempSensorTimeout k) s = .next s.endStep) ∧
    (s.passed (s.tempRec k).lastAt msCycles = true → exec (.tempSensorTimeout k) s =
      done ((s.setTemp k ⟨(s.tempRec k).vals, true, 0, (s.tempRec k).lastAt⟩).sensorFault.thermalStep k)) :=
  ⟨fun h => congrArg done (if_pos (by simp [h])), fun h => congrArg done (if_neg (by simp [hon, h]))⟩

/-! ## Rails and process monitors -/

theorem voltageMonitorSample_exec (k : Nat) (mv : Int) :
    let nom : Int := ((Config.nominalMv k).toNat : Int)
    let vals := (mv :: (s.voltRec k).vals).take 5
    let run := if outside 10 nom (median vals) then (s.voltRec k).run + 1 else 0
    let s1 := s.setVolt k ⟨vals, false, run, s.clk.now⟩
    let s2 := if outside 20 nom (median vals) then s1.raise .mon 0 0x000 3 else s1
    (mv < 0 ∨ 2 * nom < mv → exec (.voltageMonitorSample k mv) s = done s.sensorFault) ∧
    (0 ≤ mv → mv ≤ 2 * nom → exec (.voltageMonitorSample k mv) s = done (if 16 ≤ run then s2.controlledStop else s2)) := by
  intro nom vals run s1 s2
  have hoff : ¬(!s.on) = true := by simp [hon]
  exact ⟨fun h => congrArg done ((if_neg hoff).trans (if_pos h)),
    fun h1 h2 => congrArg done ((if_neg hoff).trans (if_neg (not_or.mpr ⟨Int.not_lt.mpr h1, Int.not_lt.mpr h2⟩)))⟩

theorem voltageMonitorTimeout_exec (k : Nat) :
    (s.passed (s.voltRec k).lastAt msCycles = false → exec (.voltageMonitorTimeout k) s = .next s.endStep) ∧
    (s.passed (s.voltRec k).lastAt msCycles = true → exec (.voltageMonitorTimeout k) s =
      done ((s.setVolt k ⟨(s.voltRec k).vals, true, 0, (s.voltRec k).lastAt⟩).sensorFault.raise .mon 0 0x000 3)) :=
  ⟨fun h => congrArg done (if_pos (by simp [h])), fun h => congrArg done (if_neg (by simp [hon, h]))⟩

theorem processMonitorSample_exec (k n : Nat) :
    (outside 4 (s.bootCount k) n = true → exec (.processMonitorSample k n) s = done s.sensorFault) ∧
    (outside 4 (s.bootCount k) n = false → exec (.processMonitorSample k n) s =
      done (s.setProc k ⟨((n : Int) :: (s.procRec k).vals).take 16, false, (s.procRec k).run, s.clk.now⟩)) := by
  have hoff : ¬(!s.on) = true := by simp [hon]
  exact ⟨fun h => congrArg done ((if_neg hoff).trans (if_pos h)),
    fun h => congrArg done ((if_neg hoff).trans (if_neg (by simp [h])))⟩

theorem processMonitorTimeout_exec (k : Nat) :
    (s.passed (s.procRec k).lastAt (10 * secCycles) = false → exec (.processMonitorTimeout k) s = .next s.endStep) ∧
    (s.passed (s.procRec k).lastAt (10 * secCycles) = true → exec (.processMonitorTimeout k) s =
      done (s.setProc k ⟨(s.procRec k).vals, true, (s.procRec k).run, (s.procRec k).lastAt⟩).sensorFault) :=
  ⟨fun h => congrArg done (if_pos (by simp [h])), fun h => congrArg done (if_neg (by simp [hon, h]))⟩

end

theorem sensorFault_bit {s : State} (hc : s.Canon) : (s.sensorFault.regGet .mon 0 0x000).testBit 4 = true :=
  raise_bit hc .mon 0 0x000 4 (by decide)

theorem controlledStop_mon (s : State) : s.controlledStop.mon = s.mon := (State.controlledStop_only (.refl _) (.refl s)).use .mon rfl

/-- The last part of a sample: the stop of the module where it is due keeps what was kept. -/
theorem stopIf_spec (t : State) (p : Prop) [Decidable p] :
    (if p then t.controlledStop else t).mon = t.mon ∧ (p → (if p then t.controlledStop else t).sup.stopping = true) := by
  split
  case isTrue h => exact ⟨controlledStop_mon t, fun _ => controlledStop_stops t⟩
  case isFalse h => exact ⟨rfl, fun hp => absurd hp h⟩

/-- What a sample of a rail leaves. -/
theorem voltage_kept {s : State} (hc : s.Canon) {c : Instr} {k : Nat} {r : Samples} (hr : r ≠ Samples.init) {far : Bool}
    (hx : exec c s = done (if 16 ≤ r.run then (if far then (s.setVolt k r).raise .mon 0 0x000 3 else s.setVolt k r).controlledStop
      else (if far then (s.setVolt k r).raise .mon 0 0x000 3 else s.setVolt k r))) :
    (∃ u, exec c s = .next u ∧ u.voltRec k = r ∧ (r.run < 16 → far = true → (u.regGet .mon 0 0x000).testBit 3 = true)) ∧
    (16 ≤ r.run → ∃ u, exec c s = .next u ∧ u.sup.stopping = true) := by
  have hset := setVolt_get s k r hr
  have hbit := raise_bit (s := s.setVolt k r) (canon_mon hc _) .mon 0 0x000 3 (by decide)
  generalize ht : (if far then (s.setVolt k r).raise .mon 0 0x000 3 else s.setVolt k r) = t at hx
  have hmon : t.mon = (s.setVolt k r).mon := by
    rw [← ht]
    split
    · exact raise_mon _ _ _ _ _
    · rfl
  obtain ⟨hkept, hstop⟩ := stopIf_spec t (16 ≤ r.run)
  have hrec := ((voltRec_of (hkept.trans hmon)) k).trans hset
  refine ⟨⟨_, hx, hrec, fun hlt hfar => ?_⟩, fun h => ⟨_, hx, hstop h⟩⟩
  rw [if_neg (Nat.not_le.mpr hlt), ← ht, if_pos hfar]
  exact hbit

/-- A valid sample of the input moves the supply. -/
theorem inputMeterSample_moves {s : State} (hon : s.on = true) {mv tenMa : Int} (h1 : 0 ≤ mv) (h2 : mv ≤ 70000) (h3 : 0 ≤ tenMa)
    (h4 : tenMa ≤ 6000) :
    let m := s.metered mv tenMa
    let v := (median m.sup.vin.vals).toNat
    (v < 40000 ∨ 100 ≤ m.sup.vin.run → ∃ u, exec (.inputMeterSample mv tenMa) s = .next u ∧ u.sup.stopping = true) ∧
    (40000 ≤ v → m.sup.vin.run < 100 → ∃ u, exec (.inputMeterSample mv tenMa) s = .next u ∧ u.sup = { m.sup with
      inhibit := if v < 43000 then true else if 44500 < v then false else s.sup.inhibit,
      throttleWant := if v < 42000 then true else if 42500 < v then false else s.sup.throttleWant }) := by
  intro m v
  obtain ⟨hstop, hgo⟩ := supplyStep_sup m
  have hv : m.vinMv = v := rfl
  rw [hv] at hstop hgo
  have hexec := (inputMeterSample_exec hon mv tenMa).2 h1 h2 h3 h4
  refine ⟨fun h => ⟨_, hexec, by rw [sup_endStep]; exact hstop h⟩, fun h5 h6 => ⟨_, hexec, ?_⟩⟩
  rw [sup_endStep, hgo (by omega)]
  rfl

/-- After 100 µs without a sample the input counts as 42.9 V. -/
theorem meterTimeout_moves {s : State} (hon : s.on = true) (hpassed : s.passed s.sup.vin.lastAt 130000 = true) :
    (s.sup.vin.run < 100 → ∃ u, exec (.meterTimeout false) s = .next u ∧ u.sup.meterTimeout = true ∧ u.sup.inhibit = true ∧
      u.sup.throttleWant = false ∧ u.sup.stopping = s.sup.stopping) ∧
    (100 ≤ s.sup.vin.run → ∃ u, exec (.meterTimeout false) s = .next u ∧ u.sup.stopping = true) := by
  obtain ⟨t, ht, hexec⟩ := (meterTimeout_exec hon false).2 hpassed
  obtain ⟨hstop, hgo⟩ := supplyStep_sup t
  have hv : t.vinMv = 42900 := by unfold State.vinMv; rw [ht]; rfl
  have hrun : t.sup.vin.run = s.sup.vin.run := by rw [ht]
  rw [hv, hrun] at hstop hgo
  refine ⟨fun h => ⟨_, hexec, ?_⟩, fun h => ⟨_, hexec, by rw [sup_endStep]; exact hstop (.inr h)⟩⟩
  rw [sup_endStep]
  show t.supplyStep.sup.meterTimeout = _ ∧ t.supplyStep.sup.inhibit = _ ∧ t.supplyStep.sup.throttleWant = _ ∧ t.supplyStep.sup.stopping = _
  rw [hgo (by omega), ht]
  exact ⟨rfl, rfl, rfl, rfl⟩

/-- A temperature that is kept sets the thermal step, and stops the module with its tenth hot value. -/
theorem temperature_kept {s : State} {c : Instr} {k : Nat} {r : Samples} (hr : r ≠ Samples.init)
    (hx : exec c s = done ((s.setTemp k r).thermalStep k)) :
    (∃ u, exec c s = .next u ∧ u.tempRec k = r ∧ u.mon.stepWant = thermStep s.mon.stepWant u.hottestTemp) ∧
    (10 ≤ r.run → ∃ u, exec c s = .next u ∧ u.sup.stopping = true) := by
  have hset := setTemp_get s k r hr
  obtain ⟨hrec, hstep, hstop, -⟩ := thermalStep_spec (s.setTemp k r) k
  rw [hset] at hrec hstop
  generalize (s.setTemp k r).thermalStep k = u at *
  exact ⟨⟨_, hx, hrec, hstep⟩, fun h => ⟨_, hx, hstop h⟩⟩

/-- A sensor that times out is a fault, and sets the thermal step too. -/
theorem temperature_timedOut {s : State} (hc : s.Canon) (hon : s.on = true) {k : Nat} (hpassed : s.passed (s.tempRec k).lastAt msCycles = true) :
    ∃ u, exec (.tempSensorTimeout k) s = .next u ∧ u.tempRec k = ⟨(s.tempRec k).vals, true, 0, (s.tempRec k).lastAt⟩ ∧
      u.mon.stepWant = thermStep s.mon.stepWant u.hottestTemp ∧ (u.regGet .mon 0 0x000).testBit 4 = true := by
  have hexec := (tempSensorTimeout_exec hon k).2 hpassed
  generalize hr : (⟨(s.tempRec k).vals, true, 0, (s.tempRec k).lastAt⟩ : Samples) = r at *
  have hset := setTemp_get s k r (by rw [← hr]; exact samples_timeout_ne_init)
  have hbit := sensorFault_bit (s := s.setTemp k r) (canon_mon hc _)
  have hmon := sensorFault_mon (s.setTemp k r)
  obtain ⟨hrec, hstep, -, hreg⟩ := thermalStep_spec (s.setTemp k r).sensorFault k
  rw [tempRec_of hmon k, hset] at hrec hreg
  rw [hmon] at hstep
  rw [← regGet_of_reg (hreg (by rw [← hr]; exact (by decide : ¬10 ≤ 0)))] at hbit
  generalize (s.setTemp k r).sensorFault.thermalStep k = u at *
  exact ⟨_, hexec, hrec, hstep, hbit⟩

/-- A rail whose monitor times out is reported. -/
theorem voltage_timedOut {s : State} (hc : s.Canon) (hon : s.on = true) {k : Nat} (hpassed : s.passed (s.voltRec k).lastAt msCycles = true) :
    ∃ u, exec (.voltageMonitorTimeout k) s = .next u ∧ u.voltRec k = ⟨(s.voltRec k).vals, true, 0, (s.voltRec k).lastAt⟩ ∧
      (u.regGet .mon 0 0x000).testBit 3 = true := by
  have hexec := (voltageMonitorTimeout_exec hon k).2 hpassed
  generalize hr : (⟨(s.voltRec k).vals, true, 0, (s.voltRec k).lastAt⟩ : Samples) = r at *
  have hset := setVolt_get s k r (by rw [← hr]; exact samples_timeout_ne_init)
  have hc1 : (s.setVolt k r).Canon := canon_mon hc _
  have hbit := raise_bit ((State.raise_keeps (.refl _) .mon 0 0x000 4).canon hc1) .mon 0 0x000 3 (by decide)
  have hmon := (raise_mon (s.setVolt k r).sensorFault .mon 0 0x000 3).trans (sensorFault_mon _)
  exact ⟨_, hexec, (voltRec_of hmon k).trans hset, hbit⟩

/-- A process monitor that times out is a fault. -/
theorem process_timedOut {s : State} (hc : s.Canon) (hon : s.on = true) {k : Nat}
    (hpassed : s.passed (s.procRec k).lastAt (10 * secCycles) = true) :
    ∃ u, exec (.processMonitorTimeout k) s = .next u ∧ (u.procRec k).timeout = true ∧ (u.regGet .mon 0 0x000).testBit 4 = true := by
  have hexec := (processMonitorTimeout_exec hon k).2 hpassed
  generalize hr : (⟨(s.procRec k).vals, true, (s.procRec k).run, (s.procRec k).lastAt⟩ : Samples) = r at *
  have hset := setProc_get s k r (by rw [← hr]; exact samples_timeout_ne_init)
  refine ⟨_, hexec, ?_, sensorFault_bit (s := s.setProc k r) (canon_mon hc _)⟩
  exact (congrArg Samples.timeout ((procRec_of (sensorFault_mon _) k).trans hset)).trans (by rw [← hr])

/-- Settles O56: each sample and timeout by its range, its filter and its time. -/
theorem samplesActOnTheirLimits : Obligations.SamplesActOnTheirLimits := by
  unfold Obligations.SamplesActOnTheirLimits
  intro s hc hon fault stops now
  have faults : ∀ {c : Instr}, exec c s = done s.sensorFault → fault c := fun h => ⟨_, h, fault_bit hc⟩
  refine ⟨fun mv tenMa => ⟨fun h => faults ((inputMeterSample_exec hon mv tenMa).1 h), fun h1 h2 h3 h4 => inputMeterSample_moves hon h1 h2 h3 h4⟩,
    fun h => meterTimeout_moves hon h, (meterTimeout_exec hon false).1, ?_, (meterTimeout_exec hon true).1,
    fun k q => ⟨fun h => faults ((tempSensorSample_exec hon k q).1 h), fun h1 h2 => ?_, fun h => temperature_timedOut hc hon h,
      (tempSensorTimeout_exec hon k).1⟩,
    fun k mv => ⟨fun h => faults ((voltageMonitorSample_exec hon k mv).1 h), fun h1 h2 => ?_, fun h => voltage_timedOut hc hon h,
      (voltageMonitorTimeout_exec hon k).1⟩,
    fun k n => ⟨fun h => faults ((processMonitorSample_exec hon k n).1 h), fun h => ⟨_, (processMonitorSample_exec hon k n).2 h, ?_⟩,
      fun h => process_timedOut hc hon h, (processMonitorTimeout_exec hon k).1⟩⟩
  · intro hpassed
    obtain ⟨t, -, hexec⟩ := (meterTimeout_exec hon true).2 hpassed
    exact ⟨_, hexec, by rw [sup_endStep]; exact controlledStop_stops _⟩
  · exact temperature_kept (samples_vals_ne_init (by decide)) ((tempSensorSample_exec hon k q).2 h1 h2)
  · exact voltage_kept hc (samples_vals_ne_init (by decide)) ((voltageMonitorSample_exec hon k mv).2 h1 h2)
  · exact setProc_get s k _ (samples_vals_ne_init (by decide))

end Sys2Proof.Machine

/-! PROOFS. Start-up, the controlled stop's end and warm resets (16 R475, R486 to R489, R491, R493, R499, R500). -/
namespace Sys2Proof.Machine
open Sys2Proof

/-! ## POWER_ON -/

/-- The image that boot step 4 finds and verifies. -/
def State.bootImage (s : State) (b : BootInputs) : Option CfgImage :=
  (partition s.sec.cfgStored b.cfg).bind (fun x => verifyCfg x b.romHash b.devHash)

theorem powerOn_exec (s : State) (b : BootInputs) :
    let up : Bool := s.on && (s.sec.step != 0 || s.sec.recovery)
    (up = true → exec (.powerOn b) s = .next s.endStep) ∧
    (up = false → b.railsFail = true → exec (.powerOn b) s = done s.powerOff) ∧
    (up = false → b.railsFail = false → b.cellarFail = true → exec (.powerOn b) s = done ((s.powered b).enterRecovery 1 2)) ∧
    (up = false → b.railsFail = false → b.cellarFail = false → exec (.powerOn b) s = done ((s.powered b).boot4 b)) := by
  intro up
  refine ⟨fun h => congrArg done (if_pos h), fun h h1 => ?_, fun h h1 h2 => ?_, fun h h1 h2 => ?_⟩
  · exact congrArg done ((if_neg (ne_true_of_eq_false h)).trans (if_pos h1))
  · exact congrArg done ((if_neg (ne_true_of_eq_false h)).trans ((if_neg (ne_true_of_eq_false h1)).trans (if_pos h2)))
  · exact congrArg done ((if_neg (ne_true_of_eq_false h)).trans ((if_neg (ne_true_of_eq_false h1)).trans
      (if_neg (ne_true_of_eq_false h2))))

/-- Recovery is entered with its cause after its step, and with power. -/
theorem enterRecovery_lands {t : State} (hon : t.on = true) (cause step : Nat) :
    let u := (t.enterRecovery cause step).endStep
    u.on = true ∧ u.sec.recovery = true ∧ u.sec.cause = cause ∧ u.sec.step = step := by
  obtain ⟨hsec, hsb⟩ := enterRecovery_parts t cause step
  generalize t.enterRecovery cause step = w at *
  show w.sb.powered = true ∧ w.sec.recovery = true ∧ w.sec.cause = cause ∧ w.sec.step = step
  rw [hsec, hsb]
  exact ⟨hon, rfl, rfl, rfl⟩

theorem boot4_image {t : State} {b : BootInputs} {i : CfgImage} (h : t.bootImage b = some i) :
    t.boot4 b = State.boot6 (State.boot5 { t with sec := { t.sec with cfg := some i } } b) b i := by
  unfold State.boot4
  rw [show (partition t.sec.cfgStored b.cfg).bind _ = some i from h]

theorem boot4_none {t : State} {b : BootInputs} (h : t.bootImage b = none) : t.boot4 b = t.enterRecovery 2 3 := by
  unfold State.boot4
  rw [show (partition t.sec.cfgStored b.cfg).bind _ = none from h]

/-- Step 6 by the firmware that is found. -/
theorem boot6_cases (t : State) (b : BootInputs) (i : CfgImage) :
    (partition t.sec.fwStored b.fw = none → t.boot6 b i = t.enterRecovery 3 5) ∧
    (∀ f, partition t.sec.fwStored b.fw = some f →
      (t.fwOk f = false → t.boot6 b i = t.enterRecovery 3 5) ∧
      (t.fwOk f = true → t.boot6 b i = State.boot7 { t with sec := { t.sec with fwRun := some f } } b i)) := by
  unfold State.boot6
  refine ⟨fun h => by rw [h], fun f h => ?_⟩
  rw [h]
  exact ⟨fun hbad => if_neg (by simp [hbad]), fun hok => if_pos hok⟩

/-- The state in which step 6 begins. -/
def State.atStep6 (s : State) (b : BootInputs) (i : CfgImage) : State :=
  State.boot5 { s.powered b with sec := { (s.powered b).sec with cfg := some i } } b

theorem atStep6_parts (s : State) (b : BootInputs) (i : CfgImage) :
    (s.atStep6 b i).on = true ∧ (s.atStep6 b i).sec.fwStored = s.sec.fwStored ∧ (s.atStep6 b i).sec.cfg = some i ∧
      (s.atStep6 b i).sec.boot = some b := by
  obtain ⟨hsec, hsb⟩ := boot5_parts { s.powered b with sec := { (s.powered b).sec with cfg := some i } } b
  unfold State.atStep6 State.on
  rw [hsec, hsb]
  exact ⟨rfl, rfl, rfl, rfl⟩

theorem atStep6_fwOk (s : State) (b : BootInputs) (i : CfgImage) (f : FwImage) :
    (s.atStep6 b i).fwOk f = (fwGenuine b.romHash f && decide (i.svnFloor ≤ f.svn)) := by
  obtain ⟨-, -, hcfg, hboot⟩ := atStep6_parts s b i
  unfold State.fwOk State.romHash State.svnFloor
  rw [hcfg, hboot]

/-- A boot whose steps pass ends in SERVING. -/
theorem boot7_serves {t : State} (hon : t.on = true) {b : BootInputs} {i : CfgImage} (f : FwImage) (hcfg : t.sec.cfg = some i) :
    let u := (State.boot7 { t with sec := { t.sec with fwRun := some f } } b i).endStep
    u.on = true ∧ u.sec.recovery = false ∧ u.sec.step = 12 ∧ u.sec.cfg = some i ∧ u.sec.fwRun = some f ∧ u.sb.pwrgd = true ∧
      u.fab.moduleId = i.moduleId := by
  obtain ⟨hsec, hsb, hid⟩ := boot7_parts { t with sec := { t.sec with fwRun := some f } } b i
  generalize State.boot7 { t with sec := { t.sec with fwRun := some f } } b i = w at *
  show w.sb.powered = true ∧ w.sec.recovery = false ∧ w.sec.step = 12 ∧ w.sec.cfg = some i ∧ w.sec.fwRun = some f ∧
    w.sb.pwrgd = true ∧ w.fab.moduleId = i.moduleId
  rw [hsec, hsb]
  exact ⟨hon, rfl, rfl, hcfg, rfl, rfl, hid⟩

/-! ## The end of a controlled stop -/

theorem railsOff_exec {s : State} (hon : s.on = true) :
    (s.sup.stopping = true → s.sup.stopAt + 3250000 ≤ s.clk.now → exec .railsOff s = done (s.emit (.pwrgd false)).powerOff) ∧
    ((s.sup.stopping = false ∨ s.clk.now < s.sup.stopAt + 3250000) → exec .railsOff s = .next s.endStep) := by
  refine ⟨fun h1 h2 => congrArg done (if_neg (by simp [hon, h1, h2])), fun h => congrArg done (if_pos ?_)⟩
  rcases h with h | h <;> simp [h]

/-- Without power the bytes of the cellar stay. -/
theorem powerOff_byte (s : State) {a : Nat} (ha : a < frameData atticBase) : s.powerOff.byte a = s.byte a :=
  sparseGet_filter memDefault (fun k => decide (k < frameData atticBase) || (decide (frameHdr 0 ≤ k) && decide (k < frameHdr atticBase)))
    a (Bool.or_eq_true_iff.mpr (.inl (decide_eq_true ha))) s.mem

/-! ## Warm resets -/

theorem watchdogExpiry_exec {s : State} (hon : s.on = true) :
    (s.coresRun = true → exec .watchdogExpiry s = done ((s.raise .sec 0 0x000 5).warmStart)) ∧
    (s.coresRun = false → exec .watchdogExpiry s = .next s.endStep) :=
  ⟨fun h => congrArg done (if_neg (by simp [hon, h])), fun h => congrArg done (if_pos (by simp [h]))⟩

theorem warmStart_starts {t : State} (hwarm : t.sec.warm = false) (hrec : t.sec.recovery = false) :
    t.warmStart = { t with sec := { t.sec with warm := true, warmResets := satAdd 16 t.sec.warmResets 1 } } :=
  if_neg (by simp [hwarm, hrec])

/-- A silent core starts a warm reset. -/
theorem watchdog_starts {s : State} (hc : s.Canon) (hrun : s.coresRun = true) :
    let u := ((s.raise .sec 0 0x000 5).warmStart).endStep
    u.sec = { s.sec with warm := true, warmResets := satAdd 16 s.sec.warmResets 1 } ∧ (u.regGet .sec 0 0x000).testBit 5 = true := by
  have hsec := (State.raise_only (.refl _) (.refl s) .sec 0 0x000 5).use .sec rfl
  have hbit := raise_bit hc .sec 0 0x000 5 (by decide)
  simp only [State.coresRun, Bool.and_eq_true, Bool.not_eq_true'] at hrun
  obtain ⟨⟨-, hrec⟩, hwarm⟩ := hrun
  generalize s.raise .sec 0 0x000 5 = t at *
  rw [warmStart_starts (by rw [hsec]; exact hwarm) (by rw [hsec]; exact hrec)]
  exact ⟨by rw [← hsec]; rfl, hbit⟩

theorem warmResetEnd_exec {s : State} (hon : s.on = true) (fw : Option FwImage) :
    ((s.sec.warm = false ∨ s.sec.recovery = true) → exec (.warmResetEnd fw) s = .next s.endStep) ∧
    (s.sec.warm = true → s.sec.recovery = false →
      (partition s.sec.fwStored fw = none → exec (.warmResetEnd fw) s = done (s.enterRecovery 3 12)) ∧
      (∀ f, partition s.sec.fwStored fw = some f →
        (s.fwOk f = true → exec (.warmResetEnd fw) s =
          done ((State.resumeUnits { s with sec := { s.sec with warm := false, fwRun := some f } }).raiseEvent 204)) ∧
        (s.fwOk f = false → exec (.warmResetEnd fw) s = done (s.enterRecovery 3 12)))) := by
  show (_ → execWarmResetEnd fw s = _) ∧ (_ → _ → (_ → execWarmResetEnd fw s = _) ∧
    (∀ f, _ → (_ → execWarmResetEnd fw s = _) ∧ (_ → execWarmResetEnd fw s = _)))
  unfold execWarmResetEnd
  refine ⟨fun h => congrArg done (if_pos ?_), fun hwarm hrec => ?_⟩
  · rcases h with h | h <;> simp [h]
  · rw [if_neg (by simp [hon, hwarm, hrec])]
    refine ⟨fun h => by rw [h], fun f h => ?_⟩
    rw [h]
    exact ⟨fun hok => congrArg done (if_pos hok), fun hbad => congrArg done (if_neg (by simp [hbad]))⟩

theorem resumed_sec (t : State) : (t.resumeUnits.raiseEvent 204).endStep.sec = t.sec :=
  (State.raiseEvent_only (ps := [.reg, .chans, .cqs, .accts, .gfe, .frames, .objs, .place, .link, .host, .fab, .integ, .icnt, .out])
    (within_of_all rfl) (State.resumeUnits_only (within_of_all rfl) (.refl t)) 204).use .sec rfl

/-- Settles O57: each row by the step that stops it. -/
theorem bootStopAndWarmReset : Obligations.BootStopAndWarmReset := by
  unfold Obligations.BootStopAndWarmReset
  refine ⟨fun s b => ?_, fun s hon => ?_⟩
  · intro up lands image
    obtain ⟨hup, hrails, hcellar, hboot⟩ := powerOn_exec s b
    refine ⟨hup, fun hdown => ⟨fun h => ⟨_, hrails hdown h, rfl⟩, fun h1 h2 => ⟨_, hcellar hdown h1 h2, enterRecovery_lands rfl 1 2⟩,
      fun h1 h2 => ?_⟩⟩
    have hexec := hboot hdown h1 h2
    have himage : (s.powered b).bootImage b = image := rfl
    refine ⟨fun hnone => ?_, fun i hi => ?_⟩
    · rw [boot4_none (himage.trans hnone)] at hexec
      exact ⟨_, hexec, enterRecovery_lands rfl 2 3⟩
    · rw [boot4_image (himage.trans hi)] at hexec
      change exec (.powerOn b) s = done ((s.atStep6 b i).boot6 b i) at hexec
      obtain ⟨hon, hfw, hcfg, -⟩ := atStep6_parts s b i
      have hok := atStep6_fwOk s b i
      generalize s.atStep6 b i = t at *
      obtain ⟨hno, hsome⟩ := boot6_cases t b i
      rw [hfw] at hno hsome
      refine ⟨fun hnone => ?_, fun f hf => ⟨fun hbad => ?_, fun hgenuine hsvn => ?_⟩⟩
      · rw [hno hnone] at hexec
        exact ⟨_, hexec, enterRecovery_lands hon 3 5⟩
      · rw [(hsome f hf).1 (by rw [hok]; rcases hbad with h | h <;> simp [h])] at hexec
        exact ⟨_, hexec, enterRecovery_lands hon 3 5⟩
      · rw [(hsome f hf).2 (by rw [hok]; simp [hgenuine, hsvn])] at hexec
        exact ⟨_, hexec, boot7_serves hon f hcfg⟩
  · obtain ⟨hoff, hnotyet⟩ := railsOff_exec hon
    obtain ⟨hwatch, hsilent⟩ := watchdogExpiry_exec hon
    refine ⟨fun h1 h2 => ⟨_, hoff h1 h2, rfl, rfl, rfl, rfl, rfl, rfl, fun a ha => powerOff_byte (s.emit (.pwrgd false)) ha⟩, hnotyet,
      fun hc hrun => ⟨_, hwatch hrun, watchdog_starts hc hrun⟩, hsilent, fun fw => ?_⟩
    intro lost
    obtain ⟨hidle, hend⟩ := warmResetEnd_exec hon fw
    have hlost : ∀ {c : Instr}, exec c s = done (s.enterRecovery 3 12) → ∃ u, exec c s = .next u ∧ u.sec = lost :=
      fun h => ⟨_, h, (enterRecovery_parts s 3 12).1⟩
    refine ⟨hidle, fun hwarm hrec => ?_⟩
    obtain ⟨hnone, hsome⟩ := hend hwarm hrec
    refine ⟨fun f hf => ⟨fun hgenuine hsvn => ?_, fun hbad => ?_⟩, fun h => hlost (hnone h)⟩
    · exact ⟨_, (hsome f hf).1 (by simp [State.fwOk, hgenuine, hsvn]), resumed_sec _⟩
    · exact hlost ((hsome f hf).2 (by unfold State.fwOk; rcases hbad with h | h <;> simp [h]))

end Sys2Proof.Machine

/-! PROOFS. MCTP control and SPDM (16 R496 to R498; 17 R508, R511, R512): every answer, and the order of the negotiation. -/
namespace Sys2Proof.Machine
open Sys2Proof

/-! ## MCTP control -/

section
variable {s : State} (h : s.sbAnswers = true)
include h

theorem sbAnswers_guard : ¬(!s.sbAnswers) = true := by simp [h]

theorem setEndpointId_exec (e : BitVec 8) :
    (e = 0 ∨ e = 255 → exec (.setEndpointId e) s = done (s.mctpAnswer 1 [2])) ∧
    (e ≠ 0 → e ≠ 255 → exec (.setEndpointId e) s = done (State.mctpAnswer { s with sb := { s.sb with eid := e } } 1 [0, 0, e, 0])) :=
  ⟨fun he => congrArg done ((if_neg (sbAnswers_guard h)).trans (if_pos he)),
    fun h0 h1 => congrArg done ((if_neg (sbAnswers_guard h)).trans (if_neg (not_or.mpr ⟨h0, h1⟩)))⟩

theorem getMctpVersionSupport_exec (t : BitVec 8) :
    (t ∈ [255, 0, 5, 0x7F] → exec (.getMctpVersionSupport t) s =
      done (s.takeFree.2.mctpAnswer 4 ([0, 1] ++ leBytes 4 s.takeFree.1.toNat))) ∧
    (t ∉ [255, 0, 5, 0x7F] → exec (.getMctpVersionSupport t) s = done (s.mctpAnswer 4 [0x80])) := by
  have hmem : t ∈ [255, 0, 5, 0x7F] ↔ t = 255 ∨ t = 0 ∨ t = 0x05 ∨ t = 0x7F := by simp
  exact ⟨fun ht => congrArg done ((if_neg (sbAnswers_guard h)).trans (if_pos (hmem.mp ht))),
    fun ht => congrArg done ((if_neg (sbAnswers_guard h)).trans (if_neg (mt hmem.mpr ht)))⟩

end

theorem mctpRows_ignored {s : State} (a : BitVec 7) (e : BitVec 8) (h : s.sbAnswers = false) :
    ∀ c ∈ [Instr.dynamicAddressAssign a, .setEndpointId e, .getEndpointId, .getMctpVersionSupport e, .getMessageTypeSupport,
      .getEndpointUuid], exec c s = .next s.endStep := by
  have hoff : (!s.sbAnswers) = true := by simp [h]
  intro c hc
  simp only [List.mem_cons, List.not_mem_nil, or_false] at hc
  rcases hc with rfl | rfl | rfl | rfl | rfl | rfl <;> exact congrArg done (if_pos hoff)

/-! ## SPDM -/

theorem spdmAt_closed {s : State} {p : SpdmPath} (h : s.spdmOpen p = false) (n : Nat) (f : State → State) : s.spdmAt p n f = s :=
  if_pos (by simp [h])

theorem spdmRows_ignored {s : State} {p : SpdmPath} (a b : Bool) (slot off len : Nat) (nonce : List Byte) (h : s.spdmOpen p = false) :
    ∀ c ∈ [Instr.getVersion p, .getCapabilities p, .negotiateAlgorithms p a b, .getDigests p, .getCertificate p slot off len,
      .challenge p slot nonce, .getMeasurements p slot a nonce], exec c s = .next s.endStep := by
  intro c hc
  simp only [List.mem_cons, List.not_mem_nil, or_false] at hc
  rcases hc with rfl | rfl | rfl | rfl | rfl | rfl | rfl <;> exact congrArg done (spdmAt_closed h _ _)

/-- What a path that carries SPDM answers. -/
def Replies (s : State) (p : SpdmPath) (c : Instr) (bytes : List Byte) : Prop :=
  ∃ u, exec c s = .next u ∧ u.out = s.out ++ [.spdm p bytes]

theorem replies_of_emit {s t : State} {p : SpdmPath} {c : Instr} {bytes : List Byte} (ht : t.out = s.out)
    (hx : exec c s = done (t.emit (.spdm p bytes))) : Replies s p c bytes :=
  ⟨_, hx, by rw [out_emit, ht]⟩

theorem replies_error {s : State} {p : SpdmPath} {c : Instr} (n : Nat) (hx : exec c s = done (s.spdmError p n)) :
    Replies s p c [0x12, 0x7F, BitVec.ofNat 8 n, 0] :=
  replies_of_emit rfl hx

/-- The measurements that an index asks for. -/
def measuredOf (ix : Nat) : List Nat := if ix = 0 then [] else if ix = 255 then [1, 2, 3, 4] else [ix]

theorem measuredOf_one {ix : Nat} (h1 : 1 ≤ ix) (h4 : ix ≤ 4) : measuredOf ix = [ix] :=
  (if_neg (by omega)).trans (if_neg (by omega))

theorem unsigned_guard {sign idOk : Bool} (h : sign = false ∨ idOk = true) : ¬(sign && !idOk) = true := by
  rcases h with h | h <;> simp [h]

section
variable {s : State} {p : SpdmPath} (h : s.spdmOpen p = true)
include h

/-- A request before its turn is answered with an error. -/
theorem spdmAt_early {n : Nat} (hn : s.spdmStage p < n) (f : State → State) : s.spdmAt p n f = s.spdmError p 4 :=
  (spdmAt_open h).trans (if_pos hn)

theorem spdmAt_serves {n : Nat} (hn : n ≤ s.spdmStage p) (f : State → State) : s.spdmAt p n f = f s :=
  (spdmAt_open h).trans (if_neg (Nat.not_lt.mpr hn))

theorem spdmRows_early (hstage : s.spdmStage p < 3) (slot off len : Nat) (nonce : List Byte) (ix : Nat) (sign : Bool) :
    ∀ c ∈ [Instr.getDigests p, .getCertificate p slot off len, .challenge p slot nonce, .getMeasurements p ix sign nonce],
      Replies s p c [0x12, 0x7F, 4, 0] := by
  intro c hc
  simp only [List.mem_cons, List.not_mem_nil, or_false] at hc
  rcases hc with rfl | rfl | rfl | rfl <;> exact replies_error 4 (congrArg done (spdmAt_early h hstage _))

section
variable (hstage : 3 ≤ s.spdmStage p)
include hstage

theorem getCertificate_replies (slot off len : Nat) :
    (slot ≠ 0 ∨ certChain.length < off → Replies s p (.getCertificate p slot off len) [0x12, 0x7F, 1, 0]) ∧
    (off ≤ certChain.length → let part := (certChain.drop off).take len
      Replies s p (.getCertificate p 0 off len) ([0x12, 2, 0, 0] ++ leBytes 2 part.length ++
        leBytes 2 (certChain.length - off - part.length) ++ part)) := by
  refine ⟨fun hbad => replies_error 1 (congrArg done ((spdmAt_serves h hstage _).trans (if_pos hbad))), fun hin => ?_⟩
  exact replies_of_emit rfl (congrArg done ((spdmAt_serves h hstage _).trans
    (if_neg (not_or.mpr ⟨Classical.not_not.mpr rfl, Nat.not_lt.mpr hin⟩))))

theorem challenge_signs (nonce : List Byte) (hid : s.sec.idOk = true) :
    ∃ b, exec (.challenge p 0 nonce) s = done (s.takeFree.2.emit (.spdm p ([0x12, 3, 0, 1] ++ sha256 certChain ++ b))) := by
  show ∃ b, execChallenge p 0 nonce s = _
  unfold execChallenge
  rw [spdmAt_serves h hstage]
  dsimp only
  rw [if_neg (Classical.not_not.mpr rfl), if_neg (by simp [hid])]
  simp only [List.append_assoc]
  exact ⟨_, rfl⟩

theorem getMeasurements_exec {ix : Nat} {sign : Bool} (nonce : List Byte) (hok : sign = false ∨ s.sec.idOk = true)
    (hix : ix ≤ 4 ∨ ix = 255) : ∃ b, exec (.getMeasurements p ix sign nonce) s = done (s.takeFree.2.emit (.spdm p
      ([0x12, 0x60] ++ leBytes 1 (if ix = 0 then 4 else 0) ++ [0] ++ leBytes 1 (measuredOf ix).length ++
        leBytes 3 ((measuredOf ix).flatMap s.measurement).length ++ (measuredOf ix).flatMap s.measurement ++ b))) := by
  show ∃ b, execGetMeasurements p ix sign nonce s = _
  unfold execGetMeasurements
  rw [spdmAt_serves h hstage]
  dsimp only
  rw [if_neg (unsigned_guard hok), if_neg (by omega)]
  unfold measuredOf
  simp only [List.append_assoc]
  exact ⟨_, rfl⟩

theorem challenge_replies (slot : Nat) (nonce : List Byte) :
    (slot ≠ 0 → Replies s p (.challenge p slot nonce) [0x12, 0x7F, 1, 0]) ∧
    (s.sec.idOk = false → Replies s p (.challenge p 0 nonce) [0x12, 0x7F, 5, 0]) ∧
    (s.sec.idOk = true → ∃ b, Replies s p (.challenge p 0 nonce) ([0x12, 3, 0, 1] ++ sha256 certChain ++ b)) := by
  refine ⟨fun hbad => replies_error 1 (congrArg done ((spdmAt_serves h hstage _).trans (if_pos hbad))), fun hid => ?_, fun hid => ?_⟩
  · exact replies_error 5 (congrArg done ((spdmAt_serves h hstage _).trans ((if_neg (Classical.not_not.mpr rfl)).trans (if_pos (by simp [hid])))))
  · obtain ⟨b, hexec⟩ := challenge_signs h hstage nonce hid
    exact ⟨b, replies_of_emit (t := s.takeFree.2) rfl hexec⟩

theorem getMeasurements_replies (ix : Nat) (sign : Bool) (nonce : List Byte) :
    (s.sec.idOk = false → Replies s p (.getMeasurements p ix true nonce) [0x12, 0x7F, 5, 0]) ∧
    ((sign = false ∨ s.sec.idOk = true) → 4 < ix → ix ≠ 255 → Replies s p (.getMeasurements p ix sign nonce) [0x12, 0x7F, 1, 0]) ∧
    ((sign = false ∨ s.sec.idOk = true) → (ix ≤ 4 ∨ ix = 255) → ∃ b, Replies s p (.getMeasurements p ix sign nonce)
      ([0x12, 0x60] ++ leBytes 1 (if ix = 0 then 4 else 0) ++ [0] ++ leBytes 1 (measuredOf ix).length ++
        leBytes 3 ((measuredOf ix).flatMap s.measurement).length ++ (measuredOf ix).flatMap s.measurement ++ b)) := by
  refine ⟨fun hid => replies_error 5 (congrArg done ((spdmAt_serves h hstage _).trans (if_pos (by simp [hid])))),
    fun hok hbig h255 => ?_, fun hok hix => ?_⟩
  · exact replies_error 1 (congrArg done ((spdmAt_serves h hstage _).trans ((if_neg (unsigned_guard hok)).trans (if_pos ⟨hbig, h255⟩))))
  · obtain ⟨b, hexec⟩ := getMeasurements_exec h hstage nonce hok hix
    exact ⟨b, replies_of_emit (t := s.takeFree.2) rfl hexec⟩

end
end

/-- Settles O58: every row by its guard, its stage and its operands. -/
theorem controlAndAttestationAnswer : Obligations.ControlAndAttestationAnswer := by
  unfold Obligations.ControlAndAttestationAnswer
  refine ⟨fun s hon => ⟨⟨_, congrArg done (if_neg (by simp [hon])), rfl⟩, rfl⟩, fun s h => ?_, fun s p h => ?_,
    fun s a e h => mctpRows_ignored a e h, fun s p a b slot off len nonce h => spdmRows_ignored a b slot off len nonce h⟩
  · intro replies
    have hopen := sbAnswers_guard h
    refine ⟨fun a => ⟨_, congrArg done (if_neg hopen), rfl⟩, fun e => ⟨fun he => ⟨_, (setEndpointId_exec h e).1 he, rfl⟩,
      fun h0 h1 => ⟨_, (setEndpointId_exec h e).2 h0 h1, rfl, rfl⟩⟩, ⟨_, congrArg done (if_neg hopen), rfl⟩,
      fun t => ⟨fun ht => ⟨_, (getMctpVersionSupport_exec h t).1 ht, rfl⟩, fun ht => ⟨_, (getMctpVersionSupport_exec h t).2 ht, rfl⟩⟩,
      ⟨_, congrArg done (if_neg hopen), rfl⟩, ⟨_, congrArg done (if_neg hopen), rfl⟩⟩
  · intro replies error
    have early : ∀ {n : Nat} (f : State → State), s.spdmStage p < n → s.spdmAt p n f = s.spdmError p 4 := fun f hn => spdmAt_early h hn f
    have serves : ∀ {n : Nat} (f : State → State), n ≤ s.spdmStage p → s.spdmAt p n f = f s := fun f hn => spdmAt_serves h hn f
    refine ⟨⟨_, congrArg done (serves _ (Nat.zero_le _)), stage_set _ _ _ _, stage_out _ _ _ _⟩,
      fun h0 => replies_error 4 (congrArg done (early _ (by omega))), fun h1 => ⟨_, congrArg done (serves _ h1), stage_set _ _ _ _⟩,
      fun h2 a b => replies_error 4 (congrArg done (early _ h2)), fun h2 => ⟨⟨_, congrArg done (serves _ h2), stage_set _ _ _ _⟩,
        fun a b hab => replies_error 1 (congrArg done ((serves _ h2).trans (if_pos (by rcases hab with e | e <;> simp [e]))))⟩,
      fun h3 slot off len nonce ix sign => spdmRows_early h h3 slot off len nonce ix sign, fun h3 => ⟨?_, ?_, ?_, ?_⟩⟩
    · exact replies_of_emit rfl (congrArg done (serves _ h3))
    · exact fun slot off len => getCertificate_replies h h3 slot off len
    · intro slot nonce
      obtain ⟨hslot, hno, hyes⟩ := challenge_replies h h3 slot nonce
      refine ⟨hslot, hno, fun hid => ?_⟩
      obtain ⟨b, u, hx, hout⟩ := hyes hid
      exact ⟨u, b, hx, hout⟩
    · intro ix sign nonce
      obtain ⟨hno, hbad, hgood⟩ := getMeasurements_replies h h3 ix sign nonce
      refine ⟨hno, hbad, fun hok h1 h4 => ?_, fun hok h255 => ?_, fun hok h0 => ?_⟩
      · obtain ⟨b, u, hx, hout⟩ := hgood hok (.inl h4)
        refine ⟨u, b, hx, hout.trans ?_⟩
        rw [if_neg (by omega), measuredOf_one h1 h4, List.flatMap_singleton]
        rfl
      · obtain ⟨b, u, hx, hout⟩ := hgood hok (.inr h255)
        subst h255
        exact ⟨u, b, hx, hout⟩
      · subst h0
        obtain ⟨b, u, hx, hout⟩ := hgood hok (.inl (by omega))
        exact ⟨u, b, hx, hout⟩

end Sys2Proof.Machine

/-! PROOFS. The command set of the sideband (17 R513 to R516). -/
namespace Sys2Proof.Machine
open Sys2Proof

/-- The answer to a command of the sideband. -/
def sidebandReply (cmd : Nat) (inst : Byte) (cc : Nat) (data : List Byte) : Output :=
  .sideband ([0x7F, 0, 1, 0xE8, 0xC5] ++ leBytes 1 cmd ++ [inst] ++ leBytes 1 cc ++ data)

/-- A command of the sideband is answered. -/
def SbReplies (s : State) (c : Instr) (o : Output) : Prop := ∃ u, exec c s = .next u ∧ u.out = s.out ++ [o]

theorem sbReplies_of_answer {s : State} {c : Instr} {cmd cc : Nat} {inst : Byte} {data : List Byte}
    (h : exec c s = done (s.sbAnswer cmd inst cc data)) : SbReplies s c (sidebandReply cmd inst cc data) :=
  ⟨_, h, sbAnswer_out s cmd inst cc data⟩

theorem sbRows_ignored {s : State} (inst : Byte) (req : List Byte) (h : s.sbAnswers = false) :
    ∀ c ∈ [Instr.getIdentity inst req, .getStatus inst req, .readSensor inst req, .readReg inst req, .writeReg inst req,
      .readLog inst req, .readRetire inst req, .eraseRetire inst req, .warmReset inst req], exec c s = .next s.endStep := by
  have hclosed : ∀ cmd len (f : State → State), s.sbServe cmd inst req len f = s := fun _ _ _ => if_pos (by simp [h])
  intro c hc
  simp only [List.mem_cons, List.not_mem_nil, or_false] at hc
  rcases hc with rfl | rfl | rfl | rfl | rfl | rfl | rfl | rfl | rfl <;> exact congrArg done (hclosed _ _ _)

section
variable {s : State} (ha : s.sbAnswers = true)
include ha

/-- Every command of the set is served alike: recovery and the length come first. -/
theorem sbRows_refused (inst : Byte) (req : List Byte) :
    ∀ k ∈ [(1, Instr.getIdentity inst req, 0), (2, .getStatus inst req, 0), (3, .readSensor inst req, 2), (4, .readReg inst req, 4),
      (5, .writeReg inst req, 8), (6, .readLog inst req, 3), (7, .readRetire inst req, 3), (8, .eraseRetire inst req, 4),
      (9, .warmReset inst req, 1)],
    (s.sec.recovery = true → 2 < k.1 → SbReplies s k.2.1 (sidebandReply k.1 inst 6 [])) ∧
    (s.sec.recovery = false ∨ k.1 ≤ 2 → req.length ≠ k.2.2 → SbReplies s k.2.1 (sidebandReply k.1 inst 2 [])) := by
  have refused : ∀ {c : Instr} {cmd len : Nat} (f : State → State), exec c s = done (s.sbServe cmd inst req len f) →
      (s.sec.recovery = true → 2 < cmd → SbReplies s c (sidebandReply cmd inst 6 [])) ∧
      (s.sec.recovery = false ∨ cmd ≤ 2 → req.length ≠ len → SbReplies s c (sidebandReply cmd inst 2 [])) :=
    fun f hx => ⟨fun hrec hcmd => sbReplies_of_answer (hx.trans (congrArg done (sbServe_inRecovery ha f hrec hcmd))),
      fun hrec hlen => sbReplies_of_answer (hx.trans (congrArg done (sbServe_length ha f hrec hlen)))⟩
  intro k hk
  simp only [List.mem_cons, List.not_mem_nil, or_false] at hk
  rcases hk with rfl | rfl | rfl | rfl | rfl | rfl | rfl | rfl | rfl <;> exact refused _ rfl

section
variable (hrec : s.sec.recovery = false) (inst : Byte) (req : List Byte)
include hrec

theorem readSensor_replies (hlen : req.length = 2) :
    let ix := leField req 1 1
    (sensorReg (leField req 0 1) = none → SbReplies s (.readSensor inst req) (sidebandReply 3 inst 3 [])) ∧
    (∀ off n, sensorReg (leField req 0 1) = some (off, n) →
      (n ≤ ix → SbReplies s (.readSensor inst req) (sidebandReply 3 inst 3 [])) ∧
      (ix < n → SbReplies s (.readSensor inst req) (sidebandReply 3 inst 0 (leBytes 4 (s.roMon ix off))))) := by
  intro ix
  have hserve := fun f => sbServe_runs ha (cmd := 3) (inst := inst) f (.inl hrec) hlen
  have hexec : exec (.readSensor inst req) s = execReadSensor inst req s := rfl
  unfold execReadSensor at hexec
  rw [hserve] at hexec
  dsimp only at hexec
  refine ⟨fun h => ?_, fun off n h => ?_⟩
  · rw [h] at hexec
    exact sbReplies_of_answer hexec
  · rw [h] at hexec
    exact ⟨fun hbig => sbReplies_of_answer (hexec.trans (congrArg done (if_pos hbig))),
      fun hix => sbReplies_of_answer (hexec.trans (congrArg done (if_neg (Nat.not_le.mpr hix))))⟩

theorem readLog_replies (hlen : req.length = 3) :
    let first := leField req 0 2
    let n := leField req 2 1
    (n = 0 ∨ 15 < n ∨ 65536 < first + n → SbReplies s (.readLog inst req) (sidebandReply 6 inst 3 [])) ∧
    (0 < n → n ≤ 15 → first + n ≤ 65536 →
      SbReplies s (.readLog inst req) (sidebandReply 6 inst 0 ((upTo n).flatMap (fun i => s.logRecord (first + i))))) := by
  intro first n
  have hserve := fun f => sbServe_runs ha (cmd := 6) (inst := inst) f (.inl hrec) hlen
  refine ⟨fun h => sbReplies_of_answer (congrArg done ((hserve _).trans (if_pos h))),
    fun h0 h1 h2 => sbReplies_of_answer (congrArg done ((hserve _).trans (if_neg ?_)))⟩
  show ¬(n = 0 ∨ 15 < n ∨ 65536 < first + n)
  omega

theorem readRetire_replies (hlen : req.length = 3) :
    let first := leField req 0 2
    let n := leField req 2 1
    (n = 0 ∨ 64 < n ∨ s.retireTable.length < first + n → SbReplies s (.readRetire inst req) (sidebandReply 7 inst 3 [])) ∧
    (0 < n → n ≤ 64 → first + n ≤ s.retireTable.length →
      SbReplies s (.readRetire inst req) (sidebandReply 7 inst 0 (((s.retireTable.drop first).take n).flatMap id))) := by
  intro first n
  have hserve := fun f => sbServe_runs ha (cmd := 7) (inst := inst) f (.inl hrec) hlen
  refine ⟨fun h => sbReplies_of_answer (congrArg done ((hserve _).trans (if_pos h))),
    fun h0 h1 h2 => sbReplies_of_answer (congrArg done ((hserve _).trans (if_neg ?_)))⟩
  show ¬(n = 0 ∨ 64 < n ∨ s.retireTable.length < first + n)
  omega

theorem eraseRetire_replies (hlen : req.length = 4) :
    let key := leField req 0 4
    (key ≠ 0x45524153 → SbReplies s (.eraseRetire inst req) (sidebandReply 8 inst 3 [])) ∧
    (key = 0x45524153 → (s.sb.erasing = 1 → SbReplies s (.eraseRetire inst req) (sidebandReply 8 inst 4 [])) ∧
      (s.sb.erasing ≠ 1 → s.sup.inhibit = true → SbReplies s (.eraseRetire inst req) (sidebandReply 8 inst 5 [])) ∧
      (s.sb.erasing ≠ 1 → s.sup.inhibit = false → ∃ u, exec (.eraseRetire inst req) s = .next u ∧
        u.sb = { s.sb with erasing := 1 } ∧ u.out = s.out ++ [sidebandReply 8 inst 0 []])) := by
  intro key
  have hserve := fun f => sbServe_runs ha (cmd := 8) (inst := inst) f (.inl hrec) hlen
  refine ⟨fun h => sbReplies_of_answer (congrArg done ((hserve _).trans (if_pos h))), fun h => ?_⟩
  have hkey : ¬leField req 0 4 ≠ 0x45524153 := Classical.not_not.mpr h
  refine ⟨fun h1 => ?_, fun h1 h2 => ?_, fun h1 h2 => ?_⟩
  · exact sbReplies_of_answer (congrArg done ((hserve _).trans ((if_neg hkey).trans (if_pos h1))))
  · exact sbReplies_of_answer (congrArg done ((hserve _).trans ((if_neg hkey).trans ((if_neg h1).trans (if_pos h2)))))
  · exact ⟨_, congrArg done ((hserve _).trans ((if_neg hkey).trans ((if_neg h1).trans (if_neg (ne_true_of_eq_false h2))))), rfl, rfl⟩

theorem warmReset_replies (hlen : req.length = 1) :
    let key := leField req 0 1
    (key ≠ 0xA5 → SbReplies s (.warmReset inst req) (sidebandReply 9 inst 3 [])) ∧
    (key = 0xA5 → (s.sec.warm = true → SbReplies s (.warmReset inst req) (sidebandReply 9 inst 4 [])) ∧
      (s.sec.warm = false → ∃ u, exec (.warmReset inst req) s = .next u ∧ u.out = s.out ++ [sidebandReply 9 inst 0 []] ∧
        u.sec = { s.sec with warm := true, warmResets := satAdd 16 s.sec.warmResets 1 })) := by
  intro key
  have hserve := fun f => sbServe_runs ha (cmd := 9) (inst := inst) f (.inl hrec) hlen
  refine ⟨fun h => sbReplies_of_answer (congrArg done ((hserve _).trans (if_pos h))), fun h => ?_⟩
  have hkey : ¬leField req 0 1 ≠ 0xA5 := Classical.not_not.mpr h
  refine ⟨fun h1 => ?_, fun h1 => ?_⟩
  · exact sbReplies_of_answer (congrArg done ((hserve _).trans ((if_neg hkey).trans (if_pos h1))))
  · have hexec : exec (.warmReset inst req) s = done (s.warmStart.sbAnswer 9 inst 0 []) :=
      congrArg done ((hserve _).trans ((if_neg hkey).trans (if_neg (ne_true_of_eq_false h1))))
    rw [warmStart_starts h1 hrec] at hexec
    exact ⟨_, hexec, rfl, rfl⟩

end

theorem eraseComplete_exec :
    (s.sb.erasing ≠ 1 → ∀ ok, exec (.eraseComplete ok) s = .next s.endStep) ∧
    (s.sb.erasing = 1 → exec (.eraseComplete true) s = done { s with
        sb := { s.sb with erasing := 2 }
        integ := { s.integ with retireSlots := [], retireFrames := [] } } ∧
      exec (.eraseComplete false) s = done { s with sb := { s.sb with erasing := 3 } }) := by
  have hon : s.on = true := by
    unfold State.sbAnswers at ha
    exact (Bool.and_eq_true_iff.mp ha).1
  refine ⟨fun h ok => congrArg done (if_pos (by simp [h])), fun h => ?_⟩
  have hgo : ¬(!s.on || s.sb.erasing != 1) = true := by simp [hon, h]
  exact ⟨congrArg done ((if_neg hgo).trans (if_pos rfl)), congrArg done ((if_neg hgo).trans (if_neg Bool.false_ne_true))⟩

end

/-- Settles O59: each command by recovery, its length and its operands. -/
theorem sidebandServesItsCommands : Obligations.SidebandServesItsCommands := by
  unfold Obligations.SidebandServesItsCommands
  refine ⟨fun s inst req h => sbRows_ignored inst req h, fun s ha => ?_⟩
  intro reply replies
  obtain ⟨hnoErase, herase⟩ := eraseComplete_exec ha
  refine ⟨fun inst req => sbRows_refused ha inst req, fun inst => ⟨?_, ?_⟩, fun hrec inst req => ⟨?_, ?_, ?_, ?_⟩, hnoErase,
    fun h => ⟨⟨_, (herase h).1, rfl, rfl, rfl⟩, ⟨_, (herase h).2, rfl, rfl⟩⟩⟩
  · exact sbReplies_of_answer (congrArg done (sbServe_runs ha _ (.inr (by decide)) rfl))
  · exact sbReplies_of_answer (congrArg done (sbServe_runs ha _ (.inr (by decide)) rfl))
  · exact fun hlen => readSensor_replies ha hrec inst req hlen
  · intro hlen first n
    obtain ⟨hbadLog, hlog⟩ := readLog_replies ha hrec inst req hlen
    obtain ⟨hbadRetire, hretire⟩ := readRetire_replies ha hrec inst req hlen
    exact ⟨hbadLog, hlog, hbadRetire, hretire⟩
  · exact fun hlen => eraseRetire_replies ha hrec inst req hlen
  · exact fun hlen => warmReset_replies ha hrec inst req hlen

end Sys2Proof.Machine

/-! PROOFS. The bytes of module memory that each row may change (10 R298, R300; 12 R364 to R367; 03 R91; 02 R36). -/
namespace Sys2Proof.Machine
open Sys2Proof

/-! ## Accesses of the host -/

theorem writeBytes_byte {s : State} (hwf : Memory.wf s.mem = true) (a : Nat) (bs : List Byte) {j : Nat} (hj : ¬(a ≤ j ∧ j < a + bs.length)) :
    (s.writeBytes a bs).byte j = s.byte j := by
  rw [State.byte_writeBytes hwf, if_neg hj]

theorem memAccess_byte {s t : State} {c : Instr} {w : MemAcc} (hx : exec c s = done (s.memAccess w none)) (ht : s.memAccess w none = t)
    {P : Nat → Prop} (h : ∀ a, P a → t.byte a = s.byte a) : ∃ u, exec c s = .next u ∧ ∀ a, P a → u.byte a = s.byte a :=
  ⟨_, hx, fun a ha => by rw [byte_endStep, ht]; exact h a ha⟩

/-- A write of a raw window above the cellar. -/
theorem memWr_raw {s : State} (hc : s.Canon) {dpa : Nat} (hopen : s.memOpen dpa = true) (hlo : rawAttic ≤ dpa) (hhi : dpa < holeStart)
    (bytes : List Byte) {a : Nat} (ha : ¬(dpa ≤ a ∧ a < dpa + bytes.length)) :
    (s.memAccess ⟨dpa, bytes.length, some bytes⟩ none).byte a = s.byte a := by
  have hwin : ¬dpa < apertureEnd := Nat.not_lt.mpr (Nat.le_trans (by decide) hlo)
  have haccess : s.memAccess ⟨dpa, bytes.length, some bytes⟩ none = s.rawAccess ⟨dpa, bytes.length, some bytes⟩ none := by
    unfold State.memAccess
    rw [if_neg (by simp [hopen]), if_neg hwin, if_neg (by simp [MemAcc.rawCellarRead]), if_pos hhi]
  rw [haccess]
  unfold State.rawAccess
  dsimp only
  rw [if_neg (Nat.not_lt.mpr hlo), byte_of (memAnswer_mem _ _ _ _)]
  split
  · have hmem := touch_mem s (dpa / 4096)
    rw [writeBytes_byte (by rw [hmem]; exact hc.mem) _ _ ha]
    exact byte_of hmem a
  · rfl

/-- What a write through the aperture does to a tile that is at home. -/
theorem memWr_tile {s : State} {dpa : Nat} (hopen : s.memOpen dpa = true) (hwin : dpa < apertureEnd) {t x : Nat} {side : Bool}
    (hview : aptView (aptOff dpa) = some (t, x, side)) (hvalid : s.fld .cxl (aptSlot dpa) 0x04C 0 0 ≠ 0) {o : Obj}
    (hobj : s.obj? (s.regGet .cxl (aptSlot dpa) 0x044) = some o) (htile : s.fld .cxl (aptSlot dpa) 0x048 29 0 + t < o.tiles) {f : Nat}
    (hhome : s.homeOf (s.regGet .cxl (aptSlot dpa) 0x044) (s.fld .cxl (aptSlot dpa) 0x048 29 0 + t) = some f)
    (hhere : ¬(tierOf f = 3 ∧ (s.frame f).state ≠ .poisoned)) (bytes : List Byte) :
    s.memAccess ⟨dpa, bytes.length, some bytes⟩ none = s.tileAccess ⟨dpa, bytes.length, some bytes⟩ (s.regGet .cxl (aptSlot dpa) 0x044)
      (s.fld .cxl (aptSlot dpa) 0x048 29 0 + t) x side o f none := by
  have hapt : s.aptAccess ⟨dpa, bytes.length, some bytes⟩ none = some (s.tileAccess ⟨dpa, bytes.length, some bytes⟩
      (s.regGet .cxl (aptSlot dpa) 0x044) (s.fld .cxl (aptSlot dpa) 0x048 29 0 + t) x side o f none) := by
    unfold State.aptAccess
    dsimp only
    rw [hview]
    dsimp only
    rw [if_neg hvalid, hobj]
    dsimp only
    rw [if_neg (Nat.not_le.mpr htile), hhome]
    exact if_neg hhere
  unfold State.memAccess
  rw [if_neg (by simp [hopen]), if_pos hwin, hapt]

/-- A frame is made new only where it is POISONED, and then only its own bytes. -/
theorem renew_byte {s : State} (hwf : Memory.wf s.mem = true) (f : Nat) (o : Obj) (tile : Nat) :
    Memory.wf (s.renew f o tile).mem = true ∧ (∀ a, ¬InFrameBytes f a → (s.renew f o tile).byte a = s.byte a) ∧
      ((s.frame f).state ≠ .poisoned → s.renew f o tile = s) := by
  unfold State.renew
  split
  case isTrue h => exact ⟨writeFrame_wf hwf _ _ _ _ _ _, fun a ha => writeFrame_byte hwf _ _ _ _ _ _ a ha, fun hn => absurd h hn⟩
  case isFalse h => exact ⟨hwf, fun _ _ => rfl, fun _ => rfl⟩

/-- The tile's state as a write of the host finds it. -/
def State.writable (s : State) (h tile : Nat) (o : Obj) (f : Nat) : State := ((s.touch f).renew f o tile).dirtyMove h tile

theorem writable_byte {s : State} (hc : s.Canon) (h tile : Nat) (o : Obj) (f : Nat) :
    Memory.wf (s.writable h tile o f).mem = true ∧ (∀ a, ¬InFrameBytes f a → (s.writable h tile o f).byte a = s.byte a) ∧
      ((s.frame f).state ≠ .poisoned → ∀ a, (s.writable h tile o f).byte a = s.byte a) := by
  have hmem := touch_mem s f
  obtain ⟨hwf, hframe, hsame⟩ := renew_byte (s := s.touch f) (by rw [hmem]; exact hc.mem) f o tile
  refine ⟨hwf, fun a ha => (hframe a ha).trans (byte_of hmem a), fun hp a => ?_⟩
  show ((s.touch f).renew f o tile).byte a = _
  rw [hsame (touch_state hc f hp)]
  exact byte_of hmem a

/-- The bytes after a write of a tile. -/
theorem tileAccess_byte {s : State} (hc : s.Canon) {w : MemAcc} {bs : List Byte} (hw : w.write = some bs) (h tile x : Nat) (o : Obj) (f a : Nat) :
    (¬(frameHdr f + 2 ≤ a ∧ a < frameHdr f + 8) → (s.tileAccess w h tile x true o f none).byte a = (s.writable h tile o f).byte a) ∧
    (¬(frameData f + x ≤ a ∧ a < frameData f + x + bs.length) →
      (s.tileAccess w h tile x false o f none).byte a = (s.writable h tile o f).byte a) := by
  have hwf := (writable_byte hc h tile o f).1
  unfold State.tileAccess
  rw [hw]
  dsimp only
  refine ⟨fun ha => ?_, fun ha => ?_⟩
  · rw [byte_of (memAnswer_mem _ _ _ _), if_pos rfl]
    exact writeSide_byte f x bs _ hwf a ha
  · rw [byte_of (memAnswer_mem _ _ _ _), if_neg Bool.false_ne_true]
    exact writeBytes_byte hwf _ _ ha

/-! ## TIMESTAMP -/

/-- The bytes that rewriting part of a tile may change. -/
theorem rewriteTile_byte {t : State} (hc : t.Canon) {h tile : Nat} (cls off : Nat) (bytes : List Byte) (hin : off + bytes.length ≤ 4096)
    {f : Nat} (hhome : t.homeOf h tile = some f) :
    (∀ g q, t.allocShadow (t.shadowTier h tile) h tile cls = some (g, q) → ∀ a, ¬InFrameBytes g a →
      (t.rewriteTile h tile cls off bytes).byte a = t.byte a) ∧
    (t.allocShadow (t.shadowTier h tile) h tile cls = none → ∀ a, ¬(frameData f + off ≤ a ∧ a < frameData f + off + bytes.length) →
      (t.rewriteTile h tile cls off bytes).byte a = t.byte a) := by
  unfold State.rewriteTile
  rw [hhome]
  dsimp only
  refine ⟨fun g q hq a ha => ?_, fun hno a ha => ?_⟩
  · have hmem := allocShadow_mem hq
    have hwf : Memory.wf q.mem = true := by rw [hmem]; exact hc.mem
    rw [hq]
    dsimp only
    rw [byte_of (flipTile_mem _ _), writeBytes_byte (copyFrame_wf hwf f g) _ _ (by unfold InFrameBytes at ha; omega),
      copyFrame_byte hwf f g a ha]
    exact byte_of hmem a
  · rw [hno]
    exact writeBytes_byte hc.mem _ _ ha

/-! ## Moves, creations and flips -/

theorem commitMove_byte {s : State} (hc : s.Canon) (hwait : s.host.memWait = []) (m : Move) {a : Nat} (ha : ¬InFrameBytes m.dst a) :
    (s.commitMove m).byte a = s.byte a := by
  unfold State.commitMove
  extract_lets +onlyGivenNames owner s0 s1
  have h0 : s0.mem = s.mem ∧ s0.host.memWait = [] := ⟨rfl, hwait⟩
  clear_value s0
  have hwf : Memory.wf (s0.touch m.src).mem = true := by rw [touch_mem, h0.1]; exact hc.mem
  have h1 : s1.mem = ((s0.touch m.src).copyFrame m.src m.dst).mem ∧ s1.host.memWait = s0.host.memWait := by
    refine ⟨?_, ?_⟩
    · unfold s1
      rw [touch_mem]
      exact (State.makeHome_only (.refl _) (.refl _) m.dst m.obj m.tile).use .mem rfl
    · exact (State.touch_only (ps := [.mem, .frames, .place, .objs]) (within_of_all rfl) (State.makeHome_only (within_of_all rfl)
        (State.dropMove_only (within_of_all rfl) (State.copyFrame_only (within_of_all rfl) (State.touch_only (within_of_all rfl) (.refl s0) _)
          _ _) _ _) _ _ _) _).use .memWait rfl
  clear_value s1
  have hlast : OnlyChanges [.accts, .frames, .integ, .icnt, .reg, .host, .out, .chans, .cqs, .gfe, .objs, .place, .fab] s1
      ((s1.leaveHome m.src).chargeMove owner (tierOf m.src) (tierOf m.dst) 4096) :=
    State.chargeMove_only (within_of_all rfl) (State.leaveHome_only (within_of_all rfl) (.refl s1) _) _ _ _ _
  generalize (s1.leaveHome m.src).chargeMove owner (tierOf m.src) (tierOf m.dst) 4096 = t at *
  rw [tidy_settles ((hlast.use .memWait rfl).trans (h1.2.trans h0.2))]
  have hsettled : t.tidy.settleResAll.mem = t.mem :=
    (State.settleResAll_only (within_of_all rfl) (State.tidy_only (.refl _) (.refl t))).use .mem rfl
  rw [byte_of (hsettled.trans ((hlast.use .mem rfl).trans h1.1)), copyFrame_byte hwf _ _ a ha, byte_of (touch_mem _ _), byte_of h0.1]

/-- Filling a frame with zeros writes that frame alone. -/
theorem fillFrames_byte {s : State} (hc : s.Canon) (o : Obj) (l : List (Nat × Nat)) {a : Nat} (ha : ∀ x ∈ l, ¬InFrameBytes x.2 a) :
    (l.foldl (fun t m => ((t.writeFrame m.2 [] (o.tileFmt m.1) m.1 0 scaleOne).setFrame m.2 { t.frame m.2 with state := .home }).touch m.2)
      s).byte a = s.byte a := by
  have hfold : ∀ (l : List (Nat × Nat)) (t : State), (∀ x ∈ l, ¬InFrameBytes x.2 a) → Memory.wf t.mem = true → t.byte a = s.byte a →
      (l.foldl (fun t m => ((t.writeFrame m.2 [] (o.tileFmt m.1) m.1 0 scaleOne).setFrame m.2 { t.frame m.2 with state := .home }).touch m.2)
        t).byte a = s.byte a := by
    intro l
    induction l with
    | nil => exact fun _ _ _ h => h
    | cons m l ih =>
      intro t hl hwf h
      have hmem := touch_mem ((t.writeFrame m.2 [] (o.tileFmt m.1) m.1 0 scaleOne).setFrame m.2 { t.frame m.2 with state := .home }) m.2
      refine ih _ (fun x hx => hl x (List.mem_cons_of_mem _ hx)) ?_ ?_
      · rw [hmem]
        exact writeFrame_wf hwf _ _ _ _ _ _
      · exact (byte_of hmem a).trans ((writeFrame_byte hwf _ _ _ _ _ _ a (hl m List.mem_cons_self)).trans h)
  exact hfold l s ha hc.mem rfl

/-- A creation writes the frames of its object alone. -/
theorem zeroFillComplete_byte {s : State} (hc : s.Canon) (hon : s.on = true) {h id : Nat} {o : Obj} (ho : s.obj? h = some o)
    (hfill : o.creation = .filling id) (hbusy : s.cellarBusy h = false) :
    ∃ u, exec (.zeroFillComplete h) s = .next u ∧ ∀ a, (∀ x ∈ o.map, ¬InFrameBytes x.2 a) → u.byte a = s.byte a := by
  refine ⟨_, rfl, fun a ha => ?_⟩
  rw [byte_endStep, ho]
  dsimp only
  rw [hfill]
  dsimp only
  rw [if_neg (by simp [hon, hbusy])]
  have hfilled := fillFrames_byte hc o o.map ha
  generalize o.map.foldl _ s = t at *
  split
  · exact (byte_of ((State.endCmd_only (.refl _) (.refl _) _ _ _ _ _).use .mem rfl) a).trans hfilled
  · exact hfilled

/-- The flip of a run that is no pair's leaves every byte. -/
theorem flip_mem {s : State} {n : Nat} {r : Run} {d : Cmd} {w : RunWork} (h : s.flipReady n = some (r, d, w)) (hp : d.paired = false)
    (hwait : s.host.memWait = []) : (s.flip n).mem = s.mem := by
  have hwork := commitWork_parts s d w
  have hleave := State.leaveRun_only (.refl _) (.refl (s.commitWork d w).1) n (s.elapsed r + 1) false
  rw [flip_unpaired s n r d w h hp]
  refine (afterFlip_mem (State.noteClu _ d.id n) ?_ d w _).trans ?_
  · exact (hleave.use .memWait rfl).trans ((hwork.use .memWait rfl).trans hwait)
  exact (hleave.use .mem rfl).trans (hwork.use .mem rfl)

/-- Settles O60: the bytes of each row by the operations that write them. -/
theorem storesChangeOnlyTheirBytes : Obligations.StoresChangeOnlyTheirBytes := by
  unfold Obligations.StoresChangeOnlyTheirBytes
  intro inFrame
  refine ⟨fun s dpa hc hopen => ⟨fun len bad => ?_, fun bytes hlo hhi => ?_, ?_⟩, ?_, ?_, ?_, ?_⟩
  · exact ⟨_, rfl, fun a => byte_of (memAccess_read s ⟨dpa, len, none⟩ rfl bad) a⟩
  · exact ⟨_, rfl, fun a ha => memWr_raw hc hopen hlo hhi bytes ha⟩
  · intro k h t x side o f bytes hwin hview hvalid hobj htile hhome
    refine ⟨fun htier hp => ?_, fun hp hside hin => ?_⟩
    · refine ⟨_, rfl, ?_⟩
      show (_ → ∀ a, _ → (s.memAccess ⟨dpa, bytes.length, some bytes⟩ none).byte a = _) ∧
        (_ → ∀ a, _ → (s.memAccess ⟨dpa, bytes.length, some bytes⟩ none).byte a = _)
      rw [memWr_tile hopen hwin hview hvalid hobj htile hhome (fun hh => htier hh.1) bytes]
      have hsame := (writable_byte hc h (s.fld .cxl k 0x048 29 0 + t) o f).2.2 hp
      refine ⟨fun hs a ha => ?_, fun hs a ha => ?_⟩
      · subst hs
        exact ((tileAccess_byte hc rfl _ _ _ _ _ _).2 ha).trans (hsame a)
      · subst hs
        exact ((tileAccess_byte hc rfl _ _ _ _ _ _).1 ha).trans (hsame a)
    · subst hside
      refine ⟨_, rfl, fun a ha => ?_⟩
      show (s.memAccess ⟨dpa, bytes.length, some bytes⟩ none).byte a = _
      rw [memWr_tile hopen hwin hview hvalid hobj htile hhome (fun hh => hh.2 hp) bytes]
      have hout : ¬(frameData f + x ≤ a ∧ a < frameData f + x + bytes.length) := fun hh => ha (.inl (by omega))
      exact ((tileAccess_byte hc rfl _ _ _ _ _ _).2 hout).trans ((writable_byte hc _ _ o f).2.1 a ha)
  · intro s t n d o f hc hi hbit hobj hin heven hhome hp
    obtain ⟨-, -, hplace⟩ := runTimestamp_obj hbit hobj
    have hexec : exec (.timestamp n) s = .next (t.runTimestamp d).endStep := gfe_exec hi rfl
    rw [hplace f hin heven hhome, if_neg hp] at hexec
    have hlen : t.stampRecord.length = 16 := stampRecord_length t
    obtain ⟨hcopy, hplain⟩ := rewriteTile_byte hc d.cls (op32 d.slot 24 % 4096) t.stampRecord (by rw [hlen]; omega) hhome
    refine ⟨fun g q hq => ⟨_, hexec, fun a ha => ?_⟩, fun hno => ?_⟩
    · rw [byte_endStep, byte_of (endNow_mem _ _ _ _ _)]
      exact hcopy g q hq a ha
    · intro at'
      refine ⟨_, hexec, fun a ha => ?_⟩
      rw [byte_endStep, byte_of (endNow_mem _ _ _ _ _)]
      exact hplain hno a (by rw [hlen]; exact ha)
  · intro s h tile m hc hon hwait hm hdone hfree hhead hclean
    have hexec := tileMoveCommit_exec hon hm none hdone hfree
    rw [hhead] at hexec
    dsimp only at hexec
    rw [if_neg (by simp [hclean])] at hexec
    have hbyte := fun a => commitMove_byte hc hwait m (a := a)
    generalize s.commitMove m = u at *
    exact ⟨_, hexec, fun a ha => hbyte a ha⟩
  · exact fun s h id o hc hon ho hfill hbusy => zeroFillComplete_byte hc hon ho hfill hbusy
  · intro s n r d w hon hready hp hwait
    have hmem := flip_mem hready hp hwait
    have hexec := commandFlip_exec hon n
    generalize (s.runFold n).flip n = u at *
    exact ⟨_, hexec, fun a => byte_of hmem a⟩

end Sys2Proof.Machine
